-- ==== Sys2Proof/Word.lean ====
section
/-! DEFINITION. The word types of the model and the shape of its sparse memories. -/

namespace Sys2Proof

/-- A byte. -/
abbrev Byte := BitVec 8

/-- A 16-bit word. -/
abbrev W16 := BitVec 16

/-- A register of a page (03 R81): 32 bits. -/
abbrev W32 := BitVec 32

/-- A scalar register of a core (05 R172): 64 bits. -/
abbrev W64 := BitVec 64

/-- Data by key, listed by rising key; a key that is not listed holds the default of its memory. -/
abbrev Sparse (α : Type) := List (Nat × α)

end Sys2Proof
end

