-- ==== Sys2Proof/Syntax.lean ====
section
/-! DEFINITION. The commands of the block: one constructor of `Instr` for each row of spec/opcode_table.json, with
what the row's event brings from outside as operands. -/

namespace Sys2Proof

/-- The pages of BAR0 that carry the common layout (03 R79). -/
inductive Page where
  | dev | fc | lb | gp | td | al | bt | xb | vt | lw | ep | fm | ml | sd | pl
  | dc (n : Fin 16)
  | cl (n : Fin 16)
  | mc (n : Fin 8)
  | xl (n : Fin 8)
  | gc (id : Fin 256)
  deriving DecidableEq, Repr

/-- Fields of configuration space that software writes and that have no row of their own (09 R370, R371). -/
inductive CfgField where
  | memorySpace | busMaster | parityErrorResponse | serrEnable | interruptDisable
  | msixEnable | functionMask | enableRelaxedOrdering | aspmL1Enable
  | cacheEnable | memEnable | disableCaching
  | interruptLine | bar0Lo | bar0Hi | bar2Lo | bar2Hi | bar4Lo | bar4Hi
  deriving DecidableEq, Repr

/-- Where a write without a row of its own goes (03 R85, 06 R245). -/
inductive WriteTarget where
  /-- A BAR0 register write; `whole` is false when its byte enables do not cover the whole register (03 R76); `same`: what hardware has done to
  the register in the same cycle, by the command before (03 R90): the W1C and RWL bits it has set, or the events a CNT register has counted. -/
  | bar0 (off : BitVec 26) (v : W32) (whole : Bool) (same : W32)
  /-- A configuration write of one field. -/
  | config (f : CfgField) (v : W32)
  /-- Bytes written to BAR4, lowest address first. -/
  | bar4 (off : BitVec 20) (bytes : List Byte)
  deriving DecidableEq, Repr

/-- The registers TD_LEN_NEXT_WRITE names (02 R67). -/
inductive TdLenReg where
  | lenNext | lenStepLo | lenStepHi
  deriving DecidableEq, Repr

/-- What the codes of a core's memories find at the words a bundle touches (04 R113). -/
inductive Upset where
  | none | corrected | uncorrectable | imemParity
  deriving DecidableEq, Repr

/-- What the host answers to a CXL.cache request: data (a line in the low 512 bits, 256 bytes at most), whether it
is poisoned, and whether it is an error (09 R386). -/
structure HostAnswer where
  data   : BitVec 2048
  poison : Bool
  error  : Bool
  deriving DecidableEq, Repr

/-- A 64-byte line: its space (08 R317) and its address [51:6]. -/
structure Line where
  host : Bool
  num  : BitVec 46
  deriving DecidableEq, Repr

/-- A cache of the device (08 R317). -/
inductive CacheId where
  | cluster (n : Fin 16)
  | slice (n : Fin 16)
  deriving DecidableEq, Repr

/-- What a cache's codes find when a set is read (08 R330 to R332). -/
inductive ArrayFault where
  | none
  /-- A corrected data error in the way of the line. -/
  | dataCe
  /-- An uncorrectable data error in the way of the line. -/
  | dataUe
  /-- A parity error in an entry of the set: 0 to 15 are ways, 16 to 23 the shadow entries; `second`: an entry of the set that fails while
  the set recall of the first is in progress (R354). -/
  | tagPe (entry : Fin 24) (second : Option (Fin 24))
  /-- A parity error of SUM alone. -/
  | sumPe
  deriving DecidableEq, Repr

/-- What a memory controller's code finds in a granule (08 R336). -/
inductive Health where
  | clean | ce | ue
  deriving DecidableEq, Repr

/-- The credit classes of the matrix (06 R262). -/
inductive XbClass where
  | posted | nonposted | completion | escape
  deriving DecidableEq, Repr

/-- A request that reaches a matrix target (06 R260, R261): its master, the beats of its burst, its class, and its
address (`host` tells the space). -/
structure XbArrival where
  master : Fin 58
  beats  : BitVec 5
  cls    : XbClass
  host   : Bool
  addr   : BitVec 52
  /-- The ordinary buffers of its class at the target have no room for it: the manual gives them no size (06 R262; assumption 53). -/
  full   : Bool
  deriving DecidableEq, Repr

/-- What CXL link training settled (09 R363, R364): width, rate code as EP_LINK_STAT, flit mode, what the partner
accepts, lane order. -/
structure LinkInfo where
  width    : BitVec 5
  rate     : BitVec 3
  flit256  : Bool
  loptOk   : Bool
  l0pOk    : Bool
  reversed : Bool
  deriving DecidableEq, Repr

/-- The fields a COMPLETION_TIMEOUT_WRITE may name (09 R389). -/
inductive CtoReg where
  | value (v : BitVec 4)
  | disable (b : Bool)
  | budget (v : W32)
  deriving DecidableEq, Repr

/-- What a crossing port finds on its lanes (10 R413, R414). -/
structure LaneInfo where
  good     : BitVec 4
  inverted : BitVec 4
  map      : BitVec 8
  txOpen   : BitVec 4
  txShort  : BitVec 4
  los      : BitVec 4
  deriving DecidableEq, Repr

/-- The cells of a bundle as a port receives them (10 R421 to R423): header cell, four directory cells, payload
cells, and whether a codeword of them was uncorrectable, or what came is a control cell that fails its CRC (R438). -/
structure XlBundle where
  header  : BitVec 512
  dir     : BitVec 2048
  payload : List (BitVec 512)
  fecBad  : Bool
  ctrlBad : Bool
  deriving DecidableEq, Repr

/-- A link that runs replay or recovery (12 R532). -/
inductive LinkId where
  | cxl
  | port (n : Fin 8)
  deriving DecidableEq, Repr

/-- A factory injection (12 R529): one message, or ERR_STAT bits of a page. -/
inductive Injection where
  | message (m : BitVec 128)
  | bits (page : Page) (b : W32)
  deriving DecidableEq, Repr

/-- The level of a supervised input (14 R593). -/
inductive PinLevel where
  | low | high | opened
  deriving DecidableEq, Repr

/-- The supervised inputs (14 R593). -/
inductive SupPin where
  | pwrFailN | perstN | trstN
  deriving DecidableEq, Repr

/-- A fault of a tide input pair (14 R597). -/
inductive PairFault where
  | opened | lineShort | reversed
  deriving DecidableEq, Repr

/-- The outputs that are read back (14 R598). -/
inductive OutPin where
  | alive | tideOutRef | tideOutDat | tdo
  deriving DecidableEq, Repr

/-- What a boot stage finds in the slipway (15 R625, R626, R628): the version of each valid directory, whether each
bank's stages pass their hashes, and the values the image carries. -/
structure BootInfo where
  dirA      : Option W32
  dirB      : Option W32
  bankAOk   : Bool
  bankBOk   : Bool
  subsystem : W16
  flashBase : BitVec 11
  fwRev     : W16
  bootCount : W32
  elapsedMs : W16
  deriving DecidableEq, Repr

/-- A unit that BIST tests alone (15 R631). -/
inductive BistUnit where
  | core (id : Fin 256)
  | clusterLogic (n : Fin 16)
  | clusterWay (n : Fin 16) (w : Fin 8)
  | sliceWay (n : Fin 16) (w : Fin 16)
  | sliceControl (n : Fin 16)
  | port (n : Fin 8)
  | hubBlock (cause : Byte) (inst : Byte)
  deriving DecidableEq, Repr

/-- The commands, one for each row of spec/opcode_table.json. A docstring gives the row, its rule and what its
operands are. -/
inductive Instr where
  /-- STEP_BOUNDARY (R33). -/
  | stepBoundary
  /-- TIDE_FRAME (R40). `frame`: the 128 bits received on the TIDE pins, bit 0 first; `at64`: the local phase in
  1/64 tk at which the frame start was detected. -/
  | tideFrame (frame : BitVec 128) (at64 : BitVec 32)
  /-- TIDE_MISS (R42). -/
  | tideMiss
  /-- HOLD_EXPIRED (R43). -/
  | holdExpired
  /-- REF_LOSS (R71). -/
  | refLoss
  /-- TD_ENABLE (R36). `v`: the word written to CTRL of the TD page. -/
  | tdEnable (v : W32)
  /-- RELOCK (R44). `v`: the word written to TD_CTRL. -/
  | relock (v : W32)
  /-- TD_RESUME (R45). `v`: the word written to TD_CTRL. -/
  | tdResume (v : W32)
  /-- TD_LEN_NEXT_WRITE (R67). `reg`, `v`: the register written and the word. -/
  | tdLenNextWrite (reg : TdLenReg) (v : W32)
  /-- TD_WIN_WRITE (R69). `v`: the word written to TD_WIN. -/
  | tdWinWrite (v : W32)
  /-- XL_TIDE (R47). `word`: the TIDE control word; `at64`: the local phase in 1/64 tk at the arrival of the first
  bit of its cell. -/
  | xlTide (port : Fin 8) (word : BitVec 128) (at64 : BitVec 32)
  /-- TT_NOP (R51). `idx`: index of the entry in the core's active bank. -/
  | ttNop (core : Fin 256) (idx : Fin 512)
  /-- TT_EVENT (R51). `idx`: index of the entry in the core's active bank. -/
  | ttEvent (core : Fin 256) (idx : Fin 512)
  /-- TT_START (R51). `idx`: index of the entry in the core's active bank. -/
  | ttStart (core : Fin 256) (idx : Fin 512)
  /-- TT_SEND (R52). `idx`: index of the entry in the core's active bank; `upset`, `payload`: what the code finds in the words of the
  descriptor and of the payload. -/
  | ttSend (core : Fin 256) (idx : Fin 512) (upset payload : Upset)
  /-- TT_MANIFEST (R51). `idx`: index of the entry in the core's active bank; `upset`: what the code finds in the
  descriptor words; `ue`: the 32 MiB units whose table entries are uncorrectable (R286). -/
  | ttManifest (core : Fin 256) (idx : Fin 512) (upset : Upset) (ue : List (BitVec 23))
  /-- TT_DEADLINE_BERTH (R51). `idx`: index of the entry in the core's active bank. -/
  | ttDeadlineBerth (core : Fin 256) (idx : Fin 512)
  /-- TT_DEADLINE_MARK (R51). `idx`: index of the entry in the core's active bank. -/
  | ttDeadlineMark (core : Fin 256) (idx : Fin 512)
  /-- TT_LOAD (R55). `idx`: index of the entry in the core's active bank. -/
  | ttLoad (core : Fin 256) (idx : Fin 512)
  /-- TT_QUIET_ON (R55). `idx`: index of the entry in the core's active bank. -/
  | ttQuietOn (core : Fin 256) (idx : Fin 512)
  /-- TT_QUIET_OFF (R55). `idx`: index of the entry in the core's active bank. -/
  | ttQuietOff (core : Fin 256) (idx : Fin 512)
  /-- TT_TRAP (R215). `idx`: index of the entry in the core's active bank. -/
  | ttTrap (core : Fin 256) (idx : Fin 512)
  /-- TT_BADACT (R51). `idx`: index of the entry in the core's active bank. -/
  | ttBadact (core : Fin 256) (idx : Fin 512)
  /-- TT_ARM (R59). `v`: the word written to TT_CTRL. -/
  | ttArm (core : Fin 256) (v : W32)
  /-- TT_BANK_WRITE (R59). `off`: offset in the timetable window of the entry word or count; `v`: the word
  written. -/
  | ttBankWrite (core : Fin 256) (off : BitVec 16) (v : W32)
  /-- TT_ENABLE (R55). `v`: the word written to TT_CTRL. -/
  | ttEnable (core : Fin 256) (v : W32)
  /-- REGISTER_WRITE (R85). `target`: the register, configuration field or mailbox slot bytes, with the value. -/
  | registerWrite (target : WriteTarget)
  /-- UNMAPPED_ACCESS (R80). `off`: BAR0 offset; `write`: true for a write. -/
  | unmappedAccess (off : BitVec 26) (write : Bool)
  /-- PAIR_LO_READ (R78). `off`: BAR0 offset of the _LO register; `enables`: the bytes requested (R76). -/
  | pairLoRead (off : BitVec 26) (enables : BitVec 4)
  /-- PAIR_HI_WRITE (R78). `off`: BAR0 offset of the _HI register; `v`: the word written. -/
  | pairHiWrite (off : BitVec 26) (v : W32)
  /-- SOFT_RESET (R87). `page`: the page whose CTRL.SOFT_RESET is written 1. -/
  | softReset (page : Page)
  /-- PAGE_LOCK (R94). `v`: the word written to PAGE_LOCK. -/
  | pageLock (page : Page) (v : W32)
  /-- CTRL_FENCE_WRITE (R83). `fence`: the value written to CTRL.FENCE. -/
  | ctrlFenceWrite (page : Page) (fence : Bool)
  /-- GC_ENABLE (R132). `v`: the word written to CTRL of the GC page. -/
  | gcEnable (core : Fin 256) (v : W32)
  /-- GC_START (R132). `v`: the word written to GC_START. -/
  | gcStart (core : Fin 256) (v : W32)
  /-- GC_PARK (R132). `v`: the word written to GC_START. -/
  | gcPark (core : Fin 256) (v : W32)
  /-- CORE_PARKED (R132). -/
  | coreParked (core : Fin 256)
  /-- GC_KICK (R160). `v`: the word written to GC_KICK. -/
  | gcKick (core : Fin 256) (v : W32)
  /-- MESSAGE_DELIVERY (R126). `i`: which message in flight arrives; `first`: its first flit, ahead of its last one; `parityOk`: no flit of it
  failed parity. -/
  | messageDelivery (i : Nat) (first parityOk : Bool)
  /-- FARE_RETURN (R127). `i`: which fare return in flight arrives. -/
  | fareReturn (i : Nat)
  /-- LOCK_STATE_PE (R144). -/
  | lockStatePe (lock : Fin 1024)
  /-- FORCE_FREE (R143). `v`: the word written to ML_CMD. -/
  | forceFree (v : W32)
  /-- FORCE_BREAK (R143). `v`: the word written to ML_CMD. -/
  | forceBreak (v : W32)
  /-- SD_PART_RESET (R149). `v`: the word written to SD_PART_RESET. -/
  | sdPartReset (v : W32)
  /-- BUNDLE_ISSUE (R170). `upset`: what the error codes find at the words this bundle touches; `same`: the other cores that issue a bundle
  in the same cycle, with what the codes find for theirs (04 R141, R155). -/
  | bundleIssue (core : Fin 256) (upset : Upset) (same : List (Fin 256 × Upset))
  /-- MMA_COMPLETE (R204). `upset`: what the error code finds in the operand tiles. -/
  | mmaComplete (core : Fin 256) (upset : Upset)
  /-- GLOBAL_ACCESS_COMPLETE (R195). `i`: which outstanding access completes; `res`: what the host answers, for a
  host address. -/
  | globalAccessComplete (core : Fin 256) (i : Nat) (res : HostAnswer)
  /-- MAP_FILL_COMPLETE (R291). `ue`: the lookup meets an uncorrectable table entry (R286). -/
  | mapFillComplete (core : Fin 256) (slot : Fin 16) (ue : Bool)
  /-- MANIFEST_START (R233). -/
  | manifestStart (cl : Fin 16) (q : Fin 4)
  /-- MANIFEST_ELEMENT (R235). `res`: the host's data, for a host source; `imem`: the core and the IMEM offset that the destination names, where it names
  one: manifests write IMEM (05 R185), and the manual gives no address for it (assumption 52). -/
  | manifestElement (cl : Fin 16) (q : Fin 4) (res : HostAnswer) (imem : Option (Fin 256 × BitVec 16))
  /-- MANIFEST_COMPLETE (R238). -/
  | manifestComplete (cl : Fin 16) (q : Fin 4)
  /-- SEGMENT_TRANSLATION (R295). -/
  | segmentTranslation (cl : Fin 16) (q : Fin 4)
  /-- SEGMENT_TRANSLATION_DONE (R295). `ue`: the 32 MiB units whose table entries are uncorrectable (R286). -/
  | segmentTranslationDone (cl : Fin 16) (q : Fin 4) (ue : List (BitVec 23))
  /-- MANIFEST_PARTIAL (R301). -/
  | manifestPartial (cl : Fin 16) (q : Fin 4)
  /-- ABORT_ALL (R241). `v`: the word written to CL_MV_CTRL. -/
  | abortAll (cl : Fin 16) (v : W32)
  /-- MV_EN (R243). `v`: the word written to CL_MV_CTRL. -/
  | mvEn (cl : Fin 16) (v : W32)
  /-- MB_NOP (R249). `seqWord`: the 8 bytes written to bytes 120 to 127 of the slot. -/
  | mbNop (mb : Fin 16) (slot : Fin 512) (seqWord : BitVec 64)
  /-- MB_SUBMIT (R232). `seqWord`: the 8 bytes written to bytes 120 to 127 of the slot; `host`: the descriptor as
  host memory holds it, if its page is host memory; `ue`: the 32 MiB units whose table entries are uncorrectable
  (R286). -/
  | mbSubmit (mb : Fin 16) (slot : Fin 512) (seqWord : BitVec 64) (host : BitVec 1024) (ue : List (BitVec 23))
  /-- MB_WRITE_INLINE (R250). `seqWord`: the 8 bytes written to bytes 120 to 127 of the slot; `ue`: the 32 MiB units whose table entries
  are uncorrectable (R286). -/
  | mbWriteInline (mb : Fin 16) (slot : Fin 512) (seqWord : BitVec 64) (ue : List (BitVec 23))
  /-- MB_INJECT (R251). `seqWord`: the 8 bytes written to bytes 120 to 127 of the slot. -/
  | mbInject (mb : Fin 16) (slot : Fin 512) (seqWord : BitVec 64)
  /-- MB_KICK (R249). `seqWord`: the 8 bytes written to bytes 120 to 127 of the slot. -/
  | mbKick (mb : Fin 16) (slot : Fin 512) (seqWord : BitVec 64)
  /-- MB_RESUME (R302). `seqWord`: the 8 bytes written to bytes 120 to 127 of the slot; `ue`: the 32 MiB units whose table entries are
  uncorrectable (R286). -/
  | mbResume (mb : Fin 16) (slot : Fin 512) (seqWord : BitVec 64) (ue : List (BitVec 23))
  /-- MB_ABORT (R303). `seqWord`: the 8 bytes written to bytes 120 to 127 of the slot. -/
  | mbAbort (mb : Fin 16) (slot : Fin 512) (seqWord : BitVec 64)
  /-- MB_FENCE (R247). `seqWord`: the 8 bytes written to bytes 120 to 127 of the slot. -/
  | mbFence (mb : Fin 16) (slot : Fin 512) (seqWord : BitVec 64)
  /-- TBL_WRITE (R288). `seqWord`: the 8 bytes written to bytes 120 to 127 of the slot. -/
  | tblWrite (mb : Fin 16) (slot : Fin 512) (seqWord : BitVec 64)
  /-- INVALIDATE (R299). `seqWord`: the 8 bytes written to bytes 120 to 127 of the slot. -/
  | invalidate (mb : Fin 16) (slot : Fin 512) (seqWord : BitVec 64)
  /-- INVALIDATE_COMPLETE (R300). `i`: which drain in progress has finished; `ue`: the 32 MiB units whose table entries are uncorrectable
  (R286). -/
  | invalidateComplete (i : Nat) (ue : List (BitVec 23))
  /-- MB_BAD_CMD (R249). `seqWord`: the 8 bytes written to bytes 120 to 127 of the slot. -/
  | mbBadCmd (mb : Fin 16) (slot : Fin 512) (seqWord : BitVec 64)
  /-- MAILBOX_EN (R253). `v`: the word written to FM_MBm_CTRL. -/
  | mailboxEn (mb : Fin 16) (v : W32)
  /-- WIN_RESET (R252). `v`: the word written to FM_MBm_CTRL. -/
  | winReset (mb : Fin 16) (v : W32)
  /-- XB_ARBITRATION (R260). `arrivals`: requests that reach the target on this cycle. -/
  | xbArbitration (target : Fin 26) (arrivals : List XbArrival)
  /-- XB_STARVE (R260). `i`: which waiting request has waited longer than XB_STARVE_LIM. -/
  | xbStarve (target : Fin 26) (i : Nat)
  /-- HOLD_TIMEOUT (R263). `i`: which held request has been held longer than XB_HOLD_MAX. -/
  | holdTimeout (i : Nat)
  /-- BAR2_WRITE (R374). `off`: BAR2 offset; `bytes`: the bytes written, lowest address first; `relaxed`: the write carries the relaxed-ordering
  attribute (R255). -/
  | bar2Write (requester : W16) (off : BitVec 32) (bytes : List Byte) (relaxed : Bool)
  /-- UNSUPPORTED_REQUEST (R376). `cause`: the code of R376, 1 to 6. -/
  | unsupportedRequest (cause : Fin 7) (requester : W16) (posted : Bool)
  /-- VT_CLEAR (R304). `v`: the word written to VT_CLEAR. -/
  | vtClear (v : W32)
  /-- VT_CTX_EN_WRITE (R305). `v`: the word written to VT_CTX_EN. -/
  | vtCtxEnWrite (v : W32)
  /-- RDS (R321). `res`: the host's data, for a host line not held; `fault`: what the arrays' codes find. -/
  | rds (cl : Fin 16) (line : Line) (res : HostAnswer) (fault : ArrayFault)
  /-- RDO (R321). `res`: the host's data, for a host line not held. -/
  | rdo (cl : Fin 16) (line : Line) (res : HostAnswer)
  /-- UPG (R321). `res`: the host's data, for a host line not held. -/
  | upg (cl : Fin 16) (line : Line) (res : HostAnswer)
  /-- WB (R321). -/
  | wb (cl : Fin 16) (line : Line)
  /-- CLEAN_NOTICE (R321). -/
  | cleanNotice (cl : Fin 16) (line : Line)
  /-- RDCUR (R321). `master`: the requesting matrix master. -/
  | rdcur (master : Fin 58) (line : Line) (res : HostAnswer)
  /-- WRINV (R321). -/
  | wrinv (master : Fin 58) (line : Line) (data : BitVec 512)
  /-- WRPART (R321). `mask`: bytes written. -/
  | wrpart (master : Fin 58) (line : Line) (data : BitVec 512) (mask : BitVec 64) (res : HostAnswer)
  /-- FORWARD_REQUEST (R320). `cl`: the cluster cache asked to send the line; `notice`: its clean notice for the line is in flight (R349). -/
  | forwardRequest (cl : Fin 16) (line : Line) (notice : Bool)
  /-- SNOOP_INVALIDATE (R320). `cl`: the cluster cache invalidated. -/
  | snoopInvalidate (cl : Fin 16) (line : Line)
  /-- REQUEST_RETRY (R323). `master`: the requester that sends again. -/
  | requestRetry (slice : Fin 16) (line : Line) (master : Fin 58)
  /-- DC_STARVE (R323). `master`: the requester that sends again. -/
  | dcStarve (slice : Fin 16) (line : Line) (master : Fin 58)
  /-- CACHE_FILL (R324). `way`: the pseudo-LRU choice among the enabled ways; `res`: the line as the host answered, when no grant carries
  it. -/
  | cacheFill (cache : CacheId) (line : Line) (way : Fin 16) (res : HostAnswer) (fault : ArrayFault)
  /-- CC_FLUSH (R328). `v`: the word written to CL_CC_CTRL. -/
  | ccFlush (cl : Fin 16) (v : W32)
  /-- CC_INV (R328). `v`: the word written to CL_CC_CTRL. -/
  | ccInv (cl : Fin 16) (v : W32)
  /-- DC_FLUSH (R328). `v`: the word written to DC_CMD. -/
  | dcFlush (n : Fin 16) (v : W32)
  /-- DC_INV (R328). `v`: the word written to DC_CMD. -/
  | dcInv (n : Fin 16) (v : W32)
  /-- INVALIDATED (R328). -/
  | invalidated (cache : CacheId)
  /-- CACHE_ENABLE (R329). `v`: the word written to CL_CC_CTRL, or to CTRL of the DC page; `completes`: an invalidate completes in the same
  cycle (R352). -/
  | cacheEnable (cache : CacheId) (v : W32) (completes : Bool)
  /-- MC_READ (R336). `granule`: device physical address [38:5]; `health`: what the code finds. -/
  | mcRead (stack : Fin 8) (granule : BitVec 34) (health : Health)
  /-- MC_PARTIAL_WRITE (R338). `granule`: device physical address [38:5]; `health`: what the code finds. -/
  | mcPartialWrite (stack : Fin 8) (granule : BitVec 34) (data : BitVec 256) (mask : BitVec 32) (health : Health)
  /-- MC_FULL_WRITE (R337). `granule`: device physical address [38:5]; `rival`: a partial write that arrives together with it, and whether the
  full write is performed last (R356). -/
  | mcFullWrite (stack : Fin 8) (granule : BitVec 34) (data : BitVec 256) (rival : Option (BitVec 256 × BitVec 32 × Bool))
  /-- SCRUB_READ (R481). `health`: what the code finds in the next granule; `write`: a partial write that reaches it in the same cycle (R355). -/
  | scrubRead (stack : Fin 8) (health : Health) (write : Option (BitVec 256 × BitVec 32))
  /-- LW_ENABLE (R343). `v`: the word written to CTRL of the LW page. -/
  | lwEnable (v : W32)
  /-- LW_MOVE (R344). `v`: the word written to LW_MOVE. -/
  | lwMove (v : W32)
  /-- LW_SCAN_DONE (R344). -/
  | lwScanDone
  /-- BISNP_RESPONSE (R341). `dirty`: the modified data the host returns, if it held any. -/
  | bisnpResponse (line : Line) (dirty : Option (BitVec 512))
  /-- BI_SLOW (R346). -/
  | biSlow
  /-- MEMRD (R369). `hpa`: host physical address; `own`: the host reads for ownership. -/
  | memrd (hpa : BitVec 64) (own : Bool)
  /-- MEMRDDATA (R369). `hpa`: host physical address. -/
  | memrddata (hpa : BitVec 64)
  /-- MEMINV (R369). `hpa`: host physical address; `own`: the host reads for ownership. -/
  | meminv (hpa : BitVec 64) (own : Bool)
  /-- MEMWR (R369). -/
  | memwr (hpa : BitVec 64) (data : BitVec 512) (poison : Bool)
  /-- MEMWRPTL (R369). -/
  | memwrptl (hpa : BitVec 64) (data : BitVec 512) (mask : BitVec 64) (poison : Bool)
  /-- SNPDATA (R366). -/
  | snpdata (line : Line)
  /-- SNPINV (R366). -/
  | snpinv (line : Line)
  /-- SNPCUR (R366). -/
  | snpcur (line : Line)
  /-- CXL_CACHE_RESPONSE (R384). `i`: which outstanding D2H request is answered. -/
  | cxlCacheResponse (i : Nat) (res : HostAnswer)
  /-- LINK_UP (R363). `info`: what training settled. -/
  | linkUp (info : LinkInfo)
  /-- LINK_TRAINING_RETRY (R363). -/
  | linkTrainingRetry
  /-- LINK_REPLAY (R387). -/
  | linkReplay
  /-- LINK_RECOVERY (R387). -/
  | linkRecovery
  /-- LINK_DOWN (R388). -/
  | linkDown
  /-- COMPLETION_TIMEOUT (R386). `i`: which outstanding D2H request's timer expired. -/
  | completionTimeout (i : Nat)
  /-- L1_ENTRY (R382). `l0p`: an L0p request would begin in the same cycle. -/
  | l1Entry (l0p : Bool)
  /-- L1_EXIT (R382). -/
  | l1Exit
  /-- L0P_NARROW (R383). -/
  | l0pNarrow
  /-- L0P_WIDEN (R383). -/
  | l0pWiden
  /-- CACHE_WRITEBACK_AND_INVALIDATE (R367). -/
  | cacheWritebackAndInvalidate
  /-- POWER_STATE_WRITE (R381). `d3hot`: PowerState written to D3hot, or to D0. -/
  | powerStateWrite (d3hot : Bool)
  /-- COMPLETION_TIMEOUT_WRITE (R389). `reg`: which field is written, with its value. -/
  | completionTimeoutWrite (reg : CtoReg)
  /-- DOE_REQUEST (R371). `index`: the discovery index or the CDAT entry handle. -/
  | doeRequest (vendor : W16) (type : Byte) (index : Byte)
  /-- COMMIT (R368). `v`: the word written to EP_HDM_CTRL. -/
  | commit (v : W32)
  /-- UNCOMMIT (R405). `v`: the word written to EP_HDM_CTRL. -/
  | uncommit (v : W32)
  /-- FREEZE (R390). `v`: the word written to EP_FRZ_CTRL. -/
  | freeze (v : W32)
  /-- RELEASE (R394). `v`: the word written to EP_FRZ_CTRL; `rival`: a freeze cause of the same cycle (R398), as EP_FRZ_STAT.CAUSE numbers it,
  whose own command carries its other effects. -/
  | release (v : W32) (rival : Option (BitVec 3))
  /-- MSIX_UNMASK (R378). `v`: the word written to the vector's control word. -/
  | msixUnmask (vector : Fin 32) (v : W32)
  /-- FUNCTION_LEVEL_RESET (R623). -/
  | functionLevelReset
  /-- XL_ENABLE (R416). `v`: the word written to CTRL of the XL page. -/
  | xlEnable (port : Fin 8) (v : W32)
  /-- XL_STAGE_COMPLETE (R416). `lanes`: what DETECT and TRAIN find on the lanes. -/
  | xlStageComplete (port : Fin 8) (lanes : LaneInfo)
  /-- XL_STAGE_TIMEOUT (R416). `lanes`: what DETECT and TRAIN find on the lanes. -/
  | xlStageTimeout (port : Fin 8) (lanes : LaneInfo)
  /-- XL_RESTART (R416). -/
  | xlRestart (port : Fin 8)
  /-- RETRAIN (R417). `v`: the word written to XL_CTRL. -/
  | retrain (port : Fin 8) (v : W32)
  /-- PROBE (R445). `v`: the word written to XL_CTRL. -/
  | probe (port : Fin 8) (v : W32)
  /-- XL_WIN_RESET (R440). `v`: the word written to XL_CTRL. -/
  | xlWinReset (port : Fin 8) (v : W32)
  /-- XL_SLOT_ARM (R432). `v`: the word written to XL_SLOT_CTRL. -/
  | xlSlotArm (port : Fin 8) (v : W32)
  /-- FEC_LOCK_LOSS (R418). -/
  | fecLockLoss (port : Fin 8)
  /-- CREDIT (R427). `word`: the control word received. -/
  | credit (port : Fin 8) (word : BitVec 128)
  /-- ACK (R437). `word`: the control word received. -/
  | ack (port : Fin 8) (word : BitVec 128)
  /-- NAK (R438). `word`: the control word received. -/
  | nak (port : Fin 8) (word : BitVec 128)
  /-- FARE (R419). `word`: the control word received. -/
  | fare (port : Fin 8) (word : BitVec 128)
  /-- PROBE_WORD (R445). `hold64`: how long the port holds the probe, pin to pin, in 1/64 tk. -/
  | probeWord (port : Fin 8) (word : BitVec 128) (hold64 : BitVec 32)
  /-- ECHO (R445). `at64`: the local phase in 1/64 tk at its arrival. -/
  | echo (port : Fin 8) (word : BitVec 128) (at64 : BitVec 32)
  /-- ABORT (R446). `word`: the control word received. -/
  | abort (port : Fin 8) (word : BitVec 128)
  /-- IDENT0 (R420). `word`: the control word received. -/
  | ident0 (port : Fin 8) (word : BitVec 128)
  /-- IDENT1 (R420). `word`: the control word received. -/
  | ident1 (port : Fin 8) (word : BitVec 128)
  /-- REPLAY (R438). `word`: the control word received. -/
  | replay (port : Fin 8) (word : BitVec 128)
  /-- DOWN (R418). `word`: the control word received. -/
  | down (port : Fin 8) (word : BitVec 128)
  /-- RESERVED_WORD (R419). `word`: the control word received. -/
  | reservedWord (port : Fin 8) (word : BitVec 128)
  /-- BUNDLE_RECEIVED (R440). `bundle`: the cells received. -/
  | bundleReceived (port : Fin 8) (bundle : XlBundle)
  /-- BUNDLE_CLOSE (R430). `dst`: destination fleet ID of the open bundle; `svc`: none, or an SVC bundle that the hub firmware sends (R424): the
first line of its payload in the firmware region, and its cells. -/
  | bundleClose (port : Fin 8) (dst : Byte) (svc : Option (BitVec 24 × BitVec 11))
  /-- SLOT_OPEN (R433). `i`: the entry of the active slot bank. -/
  | slotOpen (port : Fin 8) (i : Fin 32)
  /-- SLOT_CLOSE (R433). `i`: the entry of the active slot bank. -/
  | slotClose (port : Fin 8) (i : Fin 32)
  /-- BUNDLE_TRANSMIT (R434). -/
  | bundleTransmit (port : Fin 8)
  /-- PW_TARGET_EVAL (R474). -/
  | pwTargetEval (cl : Fin 16)
  /-- VOLTAGE_STEP_DONE (R472). -/
  | voltageStepDone (cl : Fin 16)
  /-- FREQUENCY_STEP (R472). -/
  | frequencyStep (cl : Fin 16)
  /-- POWER_SAMPLE (R476). `watts`: module power; `vin10mV`: 54 V input in 10 mV. -/
  | powerSample (watts : BitVec 11) (vin10mV : W16)
  /-- PWR_SENSE (R489). `wire`: the condition of the monitor's inputs behind it, true OUT_OF_RANGE, false OPEN, none where they read normal. -/
  | pwrSense (wire : Option Bool)
  /-- TJ_LIMIT (R476). `celsius`: cluster temperature. -/
  | tjLimit (cl : Fin 16) (celsius : Byte)
  /-- THERM_TRIP (R476). -/
  | thermTrip
  /-- DROOP (R477). -/
  | droop (cl : Fin 16)
  /-- STRETCH_RELAX (R477). `recovered`: the supply is above the threshold again. -/
  | stretchRelax (cl : Fin 16) (recovered : Bool)
  /-- VR_FAULT (R478). -/
  | vrFault (cl : Fin 16)
  /-- EQ_UPDATE (R479). `link`: crossing port, or 8 for CXL; `ctle`, `tap`: the settings the adaptation asks for;
  `margin`: eye margin in mV; `busy`: the CXL link is in Recovery or an L0p width change. -/
  | eqUpdate (link : Fin 9) (lane : Fin 16) (ctle : BitVec 5) (tap : BitVec 7) (margin : Byte) (busy : Bool)
  /-- EQ_STARVED (R480). -/
  | eqStarved (port : Fin 8)
  /-- SCRUB_WINDOW (R481). -/
  | scrubWindow
  /-- AL_PWR_LIM_WRITE (R489). -/
  | alPwrLimWrite (v : W32)
  /-- AL_DROOP_MV_WRITE (R477). `guard`: the word goes to AL_GUARD_MV, else to AL_DROOP_MV. -/
  | alDroopMvWrite (guard : Bool) (v : W32)
  /-- AL_SCRUB_PASS_MIN_WRITE (R503). -/
  | alScrubPassMinWrite (v : W32)
  /-- PL_WINDOW_END (R484). `heat`: region and MiB moved in the window; `channelHeat`: heat of each stack's
  hottest channel, MiB. -/
  | plWindowEnd (heat : List (Nat × Nat)) (channelHeat : List Nat)
  /-- PL_CHUNK_START (R485). -/
  | plChunkStart
  /-- PL_CHUNK_DONE (R485). -/
  | plChunkDone
  /-- PL_COMMIT (R486). -/
  | plCommit
  /-- PL_MOVE (R487). `v`: the word written to PL_MOVE. -/
  | plMove (v : W32)
  /-- PL_ENABLE (R488). `v`: the word written to CTRL of the PL page. -/
  | plEnable (v : W32)
  /-- FAULT_MESSAGE (R510). `n`: how many of the messages on their way reach the collector in this hub cycle;
  `flip`: a bit corrupted on the way; `released`: pages whose CTRL.FENCE software writes 0 in the same cycle (03 R100). -/
  | faultMessage (n : Nat) (flip : Option (Fin 128)) (released : List Page)
  /-- SAFE_STATE_PORT_FENCE (R520). -/
  | safeStatePortFence (port : Fin 8)
  /-- SAFE (R520). `v`: the word written to FC_CTRL. -/
  | safe (v : W32)
  /-- POP (R513). `v`: the word written to FC_Q_CTRL. -/
  | pop (v : W32)
  /-- EMPTY (R537). `v`: the word written to FC_Q_CTRL. -/
  | empty (v : W32)
  /-- WDOG_KICK (R524). `v`: the word written to FC_WDOG_KICK. -/
  | wdogKick (v : W32)
  /-- WDOG (R524). -/
  | wdog
  /-- ALIVE_RB (R523). `level`: the level read back at the pin. -/
  | aliveRb (level : Bool)
  /-- SELF_PE (R526). -/
  | selfPe
  /-- FAULT_INJECTION (R529). `inj`: the message, or the ERR_STAT bits of a page. -/
  | faultInjection (inj : Injection)
  /-- LOGBOOK_ENTRY (R552). -/
  | logbookEntry
  /-- LB_SNAP (R559). `v`: the word written to LB_CTRL. -/
  | lbSnap (v : W32)
  /-- FLASH_OPERATION_COMPLETE (R557). `us`: how long the operation took, in µs; `ue`: which of the eight entries
  copied for the next body page read uncorrectable (R560). -/
  | flashOperationComplete (us : W16) (ue : Byte)
  /-- FLASH_ERR (R575). -/
  | flashErr
  /-- POWER_FAIL_FOLLOWUP (R559). -/
  | powerFailFollowup
  /-- RD_LOAD (R564). `v`: the word written to LB_CTRL. -/
  | rdLoad (v : W32)
  /-- NOTE (R554). `v`: the word written to LB_CTRL. -/
  | note (v : W32)
  /-- CHALLENGE (R567). `v`: the word written to GP_CTRL; `jtag`: through JTAG, else BAR0. -/
  | challenge (v : W32) (jtag : Bool)
  /-- SUBMIT (R567). `v`: the word written to GP_CTRL; `jtag`: through JTAG, else BAR0. -/
  | submit (v : W32) (jtag : Bool)
  /-- CLOSE (R565). `v`: the word written to GP_CTRL; `jtag`: through JTAG, else BAR0. -/
  | close (v : W32) (jtag : Bool)
  /-- NONCE_EXPIRY (R567). -/
  | nonceExpiry
  /-- EXTEST (R566). -/
  | extest
  /-- IDCODE (R566). -/
  | idcode
  /-- SAMPLE_PRELOAD (R566). -/
  | samplePreload
  /-- GP_REG (R566). `off`: offset in the GP page; `write`: the word written, none for a read. -/
  | gpReg (off : BitVec 12) (write : Option W32)
  /-- DBG (R566). `off`: offset of the debug window; `write`: as gpReg. -/
  | dbg (off : BitVec 26) (write : Option W32)
  /-- BYPASS (R566). `code`: the instruction code. -/
  | bypass (code : Byte)
  /-- DEBUG_WINDOW_ACCESS (R565). `off`: BAR0 offset; `write`: as gpReg. -/
  | debugWindowAccess (off : BitVec 26) (write : Option W32)
  /-- PWR_FAIL_N_ASSERT (R591). -/
  | pwrFailNAssert
  /-- PWR_FAIL_N_RELEASE (R591). -/
  | pwrFailNRelease
  /-- INT_PF (R592). -/
  | intPf
  /-- PERST_N_ASSERT (R622). `isOpen`: the input reads OPEN, else LOW. -/
  | perstNAssert (isOpen : Bool)
  /-- PERST_N_STEPS_DONE (R622). -/
  | perstNStepsDone
  /-- PERST_N_RELEASE (R634). -/
  | perstNRelease
  /-- TRST_N (R594). -/
  | trstN (level : PinLevel)
  /-- SUPERVISED_INPUT_OPEN (R593). -/
  | supervisedInputOpen (pin : SupPin)
  /-- LEAK_MEASUREMENT (R601). `ohms100`: the resistance in units of 100 Ω, 0xFFFF when open. -/
  | leakMeasurement (ohms100 : W16)
  /-- THERMISTOR_READING (R602). `i`: 0 inlet, 1 outlet, 2 board; `ohms`, `celsius`: what it reads. -/
  | thermistorReading (i : Fin 3) (ohms : BitVec 32) (celsius : Byte)
  /-- TIDE_INPUT_FAULT (R597). `dat`: TIDE_DAT, else TIDE_REF. -/
  | tideInputFault (dat : Bool) (cond : PairFault)
  /-- READBACK (R598). `atLimit`: the output is at its current limit, else its readback differs. -/
  | readback (out : OutPin) (atLimit : Bool)
  /-- MGT_BUS_WRITE (R607). `target`: the 7-bit target address. -/
  | mgtBusWrite (target : BitVec 7) (off : Byte) (v : W32)
  /-- STUCK (R606). -/
  | stuck
  /-- INPUT_UNDERVOLTAGE (R588). -/
  | inputUndervoltage
  /-- INPUT_OVERVOLTAGE (R588). -/
  | inputOvervoltage
  /-- STANDBY_LOSS (R620). `astray`: standby is out of its range and not lost. -/
  | standbyLoss (astray : Bool)
  /-- STANDBY_POWER_UP (R551). `straps`: MGT_ADDR0-2. -/
  | standbyPowerUp (straps : BitVec 3)
  /-- COLD_RESET (R620). -/
  | coldReset
  /-- BOOT_STAGE_COMPLETE (R628). `info`: what the stage finds in flash. -/
  | bootStageComplete (info : BootInfo)
  /-- STAGE_TIMEOUT (R628). -/
  | stageTimeout
  /-- BIST_GROUP_START (R629). -/
  | bistGroupStart (g : Fin 8)
  /-- BIST_GROUP_COMPLETE (R630). `isMatch`: the signature equals the fused expected value. -/
  | bistGroupComplete (g : Fin 8) (misr : BitVec 64) (isMatch : Bool)
  /-- BIST_LOCALISATION_DONE (R631). `failing`: the units that failed when rerun alone. -/
  | bistLocalisationDone (failing : List BistUnit)
  /-- HBM_TRAINING_DONE (R632). -/
  | hbmTrainingDone (stack : Fin 8) (ok : Bool)
  /-- MEMORY_INIT_DONE (R632). -/
  | memoryInitDone
  /-- REF_OK (R36). -/
  | refOk
  /-- SEND_COMPLETE (R123). `upset`: what the code finds in the words of the payload. -/
  | sendComplete (core : Fin 256) (upset : Upset)
  /-- MAIN_CONVERSION_START (R588). -/
  | mainConversionStart
  /-- INPUT_REVERSED (R608). -/
  | inputReversed
  /-- OSFP_MODULE_PRESENT (R587). -/
  | osfpModulePresent (port : Fin 8) (present : Bool)
  /-- PARTNER_L0P_REQUEST (R383). `x8`: the width asked for, else x16. -/
  | partnerL0pRequest (x8 : Bool)
  /-- INT_PF_RELEASE (R592). -/
  | intPfRelease
  /-- REPLAY_EPISODE_END (R387). -/
  | replayEpisodeEnd (link : LinkId)
  /-- FLR_COMPLETE (R623). -/
  | flrComplete
  /-- HUB_FIRMWARE_SUBMISSION (R230). `desc`: the descriptor firmware hands over; `ctx`: the host context it
  names; `ue`: the 32 MiB units whose table entries are uncorrectable (R286). -/
  | hubFirmwareSubmission (cl : Fin 16) (ctx : Fin 16) (desc : BitVec 1024) (ue : List (BitVec 23))
  deriving DecidableEq, Repr

end Sys2Proof
end

