-- ==== Sys2Proof/Config.lean ====
section
/-! DEFINITION. What an implementation fixes and the values the manual leaves open: constants without a body, so
that a claim holds whatever they are. -/

namespace Sys2Proof

/-- The payload and sign of a NaN that the vector unit produces; the manual gives no bit pattern (05 R179). Applied
to the machine's counter of free values. DESIGN CHOICE (assumption 8), safe. -/
opaque Config.freeNan : Nat → BitVec 32

/-- What VEXP2, VRCP or VRSQRT answers in FP32: any value within the error bound of 05 R180. Applied to the
counter of free values and the lane's operand. DESIGN CHOICE (assumption 8), safe. -/
opaque Config.freeApprox : Nat → BitVec 32 → BitVec 32

/-- A lane result for which the manual states no value (an integer lane of VEXP2, VRCP, VRSQRT excepted, which are
illegal): conversion of a NaN to an integer type (05 R180). DESIGN CHOICE (assumption 8), safe. -/
opaque Config.freeLane : Nat → BitVec 32

/-- 32 bytes from the random source of the gangplank (13 R567). DESIGN CHOICE (assumption 8), safe. -/
opaque Config.freeNonce : Nat → BitVec 256

/-- Whether SHA-384 of the serial and this password equals the digest fused by Osermyth (13 R567). -/
opaque Config.passwordDigestMatches : BitVec 64 → BitVec 128 → Bool

/-- Whether this response equals HMAC-SHA-384 under the device-unique key of nonce, serial and level (13 R567). -/
opaque Config.responseMatches : BitVec 256 → BitVec 64 → BitVec 8 → BitVec 384 → Bool

/-- A bit that only an implementation can tell: a value read from a debug window, whose content the manual does not
lay out (13 R565). Applied to the counter of free values and the window offset. -/
opaque Config.freeDebug : Nat → Nat → BitVec 32

/-- Which of several candidates a pseudo-LRU replacement takes (08 R317); applied to the counter of free values, and taken modulo the
number of candidates. DESIGN CHOICE (assumption 8), safe. -/
opaque Config.freeVictim : Nat → Nat

/-- A duration that a register reports and that the model, which keeps no time inside a command, cannot tell (07 R304, 08 R346). Applied
to the counter of free values. DESIGN CHOICE (assumption 8), safe. -/
opaque Config.freeTime : Nat → BitVec 32

/-- The cause byte of an ABORT word, whose codes the manual does not give (10 R419), by what made the device enter the safe state.
DESIGN CHOICE (assumption 8), safe. -/
opaque Config.abortCause : Nat → BitVec 8

/-- Where in the firmware region the hub firmware keeps the payload of an SVC bundle (10 R424), in lines from the start of the region; applied to the
counter of free values, and taken modulo the region's lines. DESIGN CHOICE (assumption 55), safe. -/
opaque Config.freeSvcLine : Nat → Nat

/-- SOURCE of the message that reports a deadline miss of a timetable: 02 R52 asks for the report and 12 R508 gives no page a source for it.
DESIGN CHOICE (assumption 21), safe. -/
opaque Config.deadlineSource : BitVec 5

end Sys2Proof
end

