-- ==== Sys2Proof/Machine/Sparse.lean ====
section
/-! DEFINITION. Sparse memories: data by key in one canonical form, keys strictly rising and no entry equal to what an
unlisted key reads as. -/

namespace Sys2Proof.Machine

/-- What key `k` holds; `d` gives what an unlisted key reads as. -/
def sget {α : Type} (d : Nat → α) : Sparse α → Nat → α
  | [], k => d k
  | e :: m, k => if e.1 = k then e.2 else sget d m k

/-- Removes key `k`. -/
def serase {α : Type} (k : Nat) : Sparse α → Sparse α
  | [] => []
  | e :: m => if e.1 = k then serase k m else e :: serase k m

/-- Puts `v` at key `k`, in the place the order gives. -/
def sput {α : Type} (k : Nat) (v : α) : Sparse α → Sparse α
  | [] => [(k, v)]
  | e :: m => if k < e.1 then (k, v) :: e :: m else if e.1 = k then (k, v) :: m else e :: sput k v m

/-- Writes `v` at key `k`: writing what an unlisted key reads as removes the entry. -/
def sset {α : Type} [DecidableEq α] (d : Nat → α) (m : Sparse α) (k : Nat) (v : α) : Sparse α :=
  if v = d k then serase k m else sput k v m

/-- Keys strictly rising, all above `lo` if one is given, and no entry equal to its default. -/
def swfFrom {α : Type} [DecidableEq α] (d : Nat → α) : Option Nat → Sparse α → Bool
  | _, [] => true
  | lo, e :: m => (match lo with | none => true | some l => decide (l < e.1)) && !(decide (e.2 = d e.1))
      && swfFrom d (some e.1) m

/-- The canonical form. -/
def Sparse.wf {α : Type} [DecidableEq α] (d : Nat → α) (m : Sparse α) : Bool := swfFrom d none m

/-- What a byte that nothing has written reads as (assumption 4). -/
def byteDefault (_ : Nat) : Byte := 0

/-- A memory of bytes in canonical form. -/
def Memory.wf (m : Sparse Byte) : Bool := Sparse.wf byteDefault m

/-- Reads optional data: an unlisted key holds nothing. -/
def slook {α : Type} : Sparse α → Nat → Option α
  | [], _ => none
  | e :: m, k => if e.1 = k then some e.2 else slook m k

/-- Bytes from address `a`, lowest first, of a memory that reads 0 where unlisted. -/
def readBytes (m : Sparse Byte) (a : Nat) : Nat → List Byte
  | 0 => []
  | n + 1 => sget byteDefault m a :: readBytes m (a + 1) n

/-- Writes bytes from address `a`, lowest first. -/
def writeBytes (m : Sparse Byte) (a : Nat) : List Byte → Sparse Byte
  | [] => m
  | b :: bs => writeBytes (sset byteDefault m a b) (a + 1) bs

end Sys2Proof.Machine
end

