-- ==== Sys2Proof/Machine/Bits.lean ====
section
/-! DEFINITION. Bit fields, byte order and the checksums of the published standards. -/

namespace Sys2Proof.Machine

/-- Bits [lo + w - 1 : lo] of `x` as a number. -/
def fld {n : Nat} (x : BitVec n) (lo w : Nat) : Nat := (x.toNat / 2 ^ lo) % 2 ^ w

/-- Bit `i` of `x`. -/
def bit {n : Nat} (x : BitVec n) (i : Nat) : Bool := x.getLsbD i

/-- `x` with bits [lo + w - 1 : lo] set to `v`. -/
def setFld {n : Nat} (x : BitVec n) (lo w v : Nat) : BitVec n :=
  (x &&& ~~~(BitVec.ofNat n ((2 ^ w - 1) * 2 ^ lo))) ||| BitVec.ofNat n ((v % 2 ^ w) * 2 ^ lo)

/-- `x` with bit `i` set to `b`. -/
def setBit {n : Nat} (x : BitVec n) (i : Nat) (b : Bool) : BitVec n := setFld x i 1 (if b then 1 else 0)

/-- 1 or 0. -/
def b2n (b : Bool) : Nat := if b then 1 else 0

/-- The number that bytes spell, lowest byte first (00 R5). -/
def bytesNat : List Byte → Nat
  | [] => 0
  | b :: bs => b.toNat + 256 * bytesNat bs

/-- The `n` bytes of a number, lowest byte first (00 R5). -/
def natBytes : Nat → Nat → List Byte
  | 0, _ => []
  | n + 1, v => BitVec.ofNat 8 v :: natBytes n (v / 256)

/-- The bytes of a bit vector of `8n` bits. -/
def bvBytes (n : Nat) {w : Nat} (x : BitVec w) : List Byte := natBytes n x.toNat

/-- One bit of the reflected CRC-32 of IEEE 802.3. -/
def crc32Bit (c : BitVec 32) (b : Bool) : BitVec 32 :=
  if (c.getLsbD 0) != b then (c >>> 1) ^^^ 0xEDB88320#32 else c >>> 1

/-- Bits of `x` from `i`, `n` of them, fed in order. -/
def crc32Feed {w : Nat} (x : BitVec w) : Nat → Nat → BitVec 32 → BitVec 32
  | _, 0, c => c
  | i, n + 1, c => crc32Feed x (i + 1) n (crc32Bit c (x.getLsbD i))

/-- IEEE 802.3 CRC-32 over bits [n - 1 : 0] of `x`, bit 0 first (02 R34). -/
def crc32Bits {w : Nat} (x : BitVec w) (n : Nat) : BitVec 32 := ~~~(crc32Feed x 0 n 0xFFFFFFFF#32)

/-- IEEE 802.3 CRC-32 over a run of cells, bit 0 of each first (10 R422). -/
def crc32Cells {w : Nat} (cells : List (BitVec w)) : BitVec 32 :=
  ~~~(cells.foldl (fun c x => crc32Feed x 0 w c) 0xFFFFFFFF#32)

/-- IEEE 802.3 CRC-32 over bytes (13 R555). -/
def crc32Bytes (bs : List Byte) : BitVec 32 := crc32Cells bs

/-- One byte of CRC-8, polynomial 0x07, from 0, not reflected (12 R505). -/
def crc8Byte (c b : Byte) : Byte :=
  (List.range 8).foldl (fun (x : Byte) _ => if x.getLsbD 7 then (x <<< 1) ^^^ 0x07#8 else x <<< 1) (c ^^^ b)

/-- CRC-8 over bytes. -/
def crc8 (bs : List Byte) : Byte := bs.foldl crc8Byte 0

/-- A counter of `w` bits plus `n`, saturating at all ones (03 R85). -/
def satAdd {w : Nat} (x : BitVec w) (n : Nat) : BitVec w := BitVec.ofNat w (min (x.toNat + n) (2 ^ w - 1))

/-- `a - b` modulo 2^16. -/
def dist16 (a b : W16) : Nat := (a - b).toNat

/-- A signed field of `w` bits as an integer. -/
def sgn (w v : Nat) : Int := if v % 2 ^ w < 2 ^ (w - 1) then (v % 2 ^ w : Nat) else ((v % 2 ^ w : Nat) : Int) - (2 ^ w : Nat)

/-- An integer in `w` bits, two's complement. -/
def ofInt (w : Nat) (i : Int) : BitVec w := BitVec.ofInt w i

/-- Element `i` of a list, or a default. -/
def nth {α : Type} (l : List α) (i : Nat) (d : α) : α := (l[i]?).getD d

/-- A list without its element `i`. -/
def dropAt {α : Type} : List α → Nat → List α
  | [], _ => []
  | _ :: l, 0 => l
  | a :: l, i + 1 => a :: dropAt l i

/-- A list with its element `i` changed. -/
def mapAt {α : Type} (f : α → α) : List α → Nat → List α
  | [], _ => []
  | a :: l, 0 => f a :: l
  | a :: l, i + 1 => a :: mapAt f l i

/-- Index in `Fin n` of a number, modulo `n`. -/
def fin (n : Nat) [NeZero n] (i : Nat) : Fin n := Fin.ofNat n i

/-- Byte `i` of a 64-byte line. -/
def lineByte (d : BitVec 512) (i : Nat) : Byte := d.extractLsb' (8 * i) 8

/-- The bytes of `new` where `mask` has a bit, those of `old` elsewhere. -/
def mergeBytes (n : Nat) (old new : BitVec (8 * n)) (mask : BitVec n) : BitVec (8 * n) :=
  BitVec.ofNat (8 * n) (bytesNat ((List.range n).map fun i =>
    if mask.getLsbD i then new.extractLsb' (8 * i) 8 else old.extractLsb' (8 * i) 8))

/-- A mask of bytes widened to bits. -/
def maskBits {n : Nat} (mask : BitVec n) (w : Nat) : BitVec w :=
  BitVec.ofNat w (bytesNat ((List.range n).map fun i => if mask.getLsbD i then (0xFF : Byte) else 0))

/-- A line with the masked bytes of `new` merged in (08 R338). -/
def mergeLine (old new : BitVec 512) (mask : BitVec 64) : BitVec 512 :=
  (old &&& ~~~(maskBits mask 512)) ||| (new &&& maskBits mask 512)

/-- Number of set bits. -/
def popc {n : Nat} (x : BitVec n) : Nat := ((List.range n).filter fun i => x.getLsbD i).length

/-- Index of the lowest set bit below `n`, if any. -/
def lowest {n : Nat} (x : BitVec n) : Option Nat := (List.range n).find? fun i => x.getLsbD i

end Sys2Proof.Machine
end

