-- ==== Sys2Proof/Machine/RegTable.lean ====
section
/-! DEFINITION. The register tables of every page: offsets, access codes of the fields, reset values, register pairs,
lock conditions and reserved encodings. -/

namespace Sys2Proof.Machine

/-- Access codes (00 R8, 03 R85). -/
inductive Acc where
  | rw | ro | w1c | go | cnt | rwl
  deriving DecidableEq, Repr

/-- A field: bits [lo + w - 1 : lo], its access code, and the encodings that are not reserved (`least` to `most`). Bits in no
field are RSV. -/
structure Fld where
  lo    : Nat
  w     : Nat
  acc   : Acc
  least : Nat
  most  : Nat
  deriving DecidableEq, Repr

/-- A field all of whose encodings are allowed. -/
def f (lo w : Nat) (acc : Acc) : Fld := ⟨lo, w, acc, 0, 2 ^ w - 1⟩

/-- A field whose encodings outside `least` to `most` are reserved (03 R89). -/
def fr (lo w : Nat) (acc : Acc) (least most : Nat) : Fld := ⟨lo, w, acc, least, most⟩

/-- A row of a register table: first offset, how many registers with what stride, reset value, whether it is the
_LO half of a pair (its _HI follows 4 bytes above), and the fields. -/
structure RegRow where
  off    : Nat
  n      : Nat
  stride : Nat
  reset  : Nat
  pair   : Bool
  flds   : List Fld
  deriving DecidableEq, Repr

/-- One register. -/
def r (off reset : Nat) (flds : List Fld) : RegRow := ⟨off, 1, 4, reset, false, flds⟩

/-- `n` registers. -/
def rs (off n stride reset : Nat) (flds : List Fld) : RegRow := ⟨off, n, stride, reset, false, flds⟩

/-- `n` register pairs: the rows of their _LO and _HI halves. -/
def pairs (off n stride : Nat) (acc : Acc) : List RegRow :=
  [⟨off, n, stride, 0, true, [f 0 32 acc]⟩, ⟨off + 4, n, stride, 0, false, [f 0 32 acc]⟩]

/-- A pair whose halves carry different fields. -/
def pairFlds (off n stride : Nat) (lo hi : List Fld) : List RegRow :=
  [⟨off, n, stride, 0, true, lo⟩, ⟨off + 4, n, stride, 0, false, hi⟩]

/-- A whole-register field. -/
def all (acc : Acc) : List Fld := [f 0 32 acc]

/-- The common layout (03 R81, R82), as pages other than DEV, FC and GP carry it. -/
def commonRows : List RegRow :=
  [ r 0x000 0 (all .ro), r 0x004 0 (all .ro), r 0x008 0 [f 0 1 .rw, f 1 1 .rw, f 2 1 .go], r 0x00C 0 (all .ro),
    r 0x010 0 (all .w1c), r 0x014 0 (all .rw), r 0x018 0 (all .rw), r 0x01C 0 (all .rw),
    r 0x020 0 [f 0 5 .ro, f 30 1 .w1c, f 31 1 .w1c], r 0x024 0 (all .cnt) ]
  ++ pairs 0x028 1 8 .ro ++
  [ r 0x030 0 [f 0 3 .w1c, f 16 16 .w1c], r 0x034 0 (all .rw), r 0x038 0 (all .rw),
    r 0x03C 0 [f 0 7 .w1c, f 8 12 .ro, f 31 1 .w1c], r 0x040 0 (all .w1c), r 0x044 0 [f 0 1 .rw] ]

/-- CTRL on the pages where R84 and 12 (FC page) make fields RSV or RO. -/
def ctrlRow : Page → RegRow
  | .dev => r 0x008 0 [f 0 2 .ro]
  | .fc => r 0x008 0 [f 0 1 .rw, f 1 1 .ro]
  | .gp => r 0x008 0 [f 0 1 .rw, f 1 1 .rw]
  | _ => r 0x008 0 [f 0 1 .rw, f 1 1 .rw, f 2 1 .go]

/-- DEV page (03 R97). -/
def devRows : List RegRow :=
  [r 0x100 0 [f 0 8 .rwl], r 0x104 0 (all .ro)] ++ pairs 0x108 1 8 .ro ++
  [r 0x110 0x33081F9B (all .ro), r 0x114 0 (all .ro), r 0x118 0 (all .ro), r 0x11C 0 (all .ro),
   r 0x120 0 (all .cnt), r 0x124 0 (all .cnt)]

/-- FC page (12 R537). -/
def fcRows : List RegRow :=
  [ r 0x100 0xA [f 0 1 .rw, f 1 2 .rw, f 3 1 .rw, f 8 1 .go], r 0x104 0 (all .ro),
    r 0x108 0 [f 0 31 .ro, f 31 1 .w1c], r 0x10C 0 [f 0 1 .w1c] ]
  ++ pairs 0x110 1 8 .ro ++ pairs 0x118 1 8 .ro ++
  [ r 0x120 0 [f 0 1 .go, f 1 1 .go], r 0x124 0 (all .cnt), r 0x128 0 (all .cnt), r 0x12C 0 (all .cnt),
    r 0x130 1 (all .ro), r 0x134 0x3E8 [f 0 16 .rw], r 0x138 0 [f 0 1 .go],
    rs 0x140 8 4 0 (all .ro), rs 0x160 8 4 0 (all .ro), r 0x180 0 (all .ro), r 0x184 0 (all .ro) ]

/-- LB page (13 R564). LB_FLASH_BASE holds its default place of 15 R624. -/
def lbRows : List RegRow :=
  [ r 0x100 0x20C [f 0 1 .go, f 1 1 .go, f 2 1 .rw, f 3 1 .rw, f 4 1 .go, fr 8 3 .rw 1 4], r 0x104 0 (all .ro),
    r 0x108 0x03000000 [f 21 11 .rwl], r 0x10C 0 (all .ro), r 0x110 0 (all .ro), r 0x114 1 (all .ro),
    r 0x118 0 (all .ro), r 0x11C 0 (all .cnt), r 0x120 0 (all .cnt), r 0x124 0 (all .cnt), r 0x128 0 (all .ro),
    r 0x12C 0 [fr 0 5 .rw 0 16, f 8 6 .rw], rs 0x140 4 4 0 (all .rw), rs 0x800 512 4 0 (all .ro) ]

/-- GP page (13 R569). -/
def gpRows : List RegRow :=
  [ r 0x100 0 [fr 0 2 .rw 1 3, f 8 1 .go, f 9 1 .go, f 10 1 .go], r 0x104 0 (all .ro), rs 0x110 8 4 0 (all .ro),
    rs 0x130 4 4 0 (all .rw), rs 0x140 12 4 0 (all .rw), r 0x170 0 (all .cnt), r 0x174 0x13308001 (all .ro) ]

/-- TD page (02). -/
def tdRows : List RegRow :=
  [ r 0x100 0 [f 0 1 .rwl, fr 1 4 .rwl 0 8, f 5 1 .rw, f 6 1 .rw, f 7 1 .rw, f 8 1 .go, f 9 1 .go, f 16 8 .rw],
    r 0x104 6 (all .ro), r 0x108 0 [f 0 30 .rw], r 0x10C 0 [f 0 16 .rw] ]
  ++ pairs 0x110 1 8 .ro ++
  [ r 0x118 0 (all .ro), r 0x11C 0 (all .ro), r 0x120 0 (all .ro), r 0x124 0x80000 [f 0 27 .rw] ]
  ++ pairs 0x128 1 8 .rw ++ pairs 0x130 1 8 .rwl ++
  [ r 0x138 0x20 [f 0 16 .rw], r 0x13C 0 (all .ro), r 0x140 0x200 [f 0 18 .rw], r 0x144 0 (all .ro),
    r 0x148 0 (all .cnt), r 0x14C 0 (all .cnt), r 0x150 0 (all .ro) ]

/-- AL page (11 R489). -/
def alRows : List RegRow :=
  [ r 0x100 0x4E2 [f 0 11 .rw], r 0x104 0 (all .ro), r 0x108 0x5F [fr 0 8 .rw 60 105], r 0x10C 8 [fr 0 4 .rw 1 15],
    r 0x110 0x186A [f 0 16 .rw], r 0x114 0x1E [fr 0 7 .rw 10 100], r 0x118 0x14 [fr 0 7 .rw 5 90],
    r 0x11C 5 [f 0 7 .rw], r 0x120 0 [f 0 1 .rw, f 8 8 .rw], r 0x124 0 [fr 0 4 .rw 0 8, f 4 4 .rw],
    r 0x128 0 (all .ro), r 0x12C 0 [f 0 5 .rw, f 5 7 .rw], r 0x130 0x3F1F [f 0 5 .rw, f 8 6 .rw],
    r 0x134 0x14 [f 0 8 .rw], r 0x138 0x100 [f 0 16 .rw], r 0x140 0 [f 0 1 .rw], r 0x144 0x3E8 [f 0 16 .rw],
    r 0x148 0xE10 [f 0 24 .rw], r 0x14C 0x15180 [f 0 24 .rw], r 0x150 0x15180 [f 0 24 .rw],
    r 0x154 0x10 (all .rw), r 0x158 2 (all .rw), r 0x15C 0x400 (all .rw), rs 0x160 8 4 0x15180 (all .ro) ]

/-- BT page (15 R637). -/
def btRows : List RegRow :=
  [r 0x100 0 (all .ro), r 0x104 0 (all .ro), r 0x108 0 (all .ro)] ++ pairs 0x110 8 8 .ro ++
  [ rs 0x150 8 4 0 (all .ro), r 0x170 0 (all .ro), r 0x174 0 (all .ro), r 0x178 0 (all .ro), r 0x17C 0 (all .ro) ]

/-- XB page (06 R265). -/
def xbRows : List RegRow :=
  [ r 0x100 0 [fr 0 5 .rw 0 25], rs 0x104 5 4 0x24924924 [f 0 30 .rw], r 0x118 0x00924924 [f 0 24 .rw],
    r 0x11C 0 (all .ro), rs 0x120 7 4 0x33333333 (all .rw), r 0x13C 0x33 [f 0 8 .rw] ]
  ++ pairs 0x140 1 8 .ro ++ [r 0x148 0 (all .ro)] ++ pairFlds 0x150 1 8 (all .rwl) [f 0 26 .rwl] ++
  [ r 0x158 0 [f 0 26 .rwl], r 0x15C 0x100000 (all .rw), r 0x160 0x4000 (all .rw), r 0x164 0 (all .ro),
    r 0x168 0 (all .cnt) ]

/-- VT page (07 R304). -/
def vtRows : List RegRow :=
  [ r 0x100 0 [f 0 16 .rw], r 0x104 0 [f 0 4 .rw, f 8 1 .go], r 0x108 0x10000 (all .ro), r 0x10C 0 (all .ro),
    r 0x110 0 [f 0 8 .rw, f 8 4 .rw], r 0x114 0 (all .ro) ]
  ++ pairs 0x118 1 8 .ro ++
  [ r 0x120 0 (all .cnt), r 0x124 0 (all .cnt), r 0x128 0 (all .ro), rs 0x140 16 4 0 (all .ro) ]

/-- LW page (08 R346). The reset value of LW_MAPi is i, see `regReset`. -/
def lwRows : List RegRow :=
  [ rs 0x100 16 4 0 [f 0 9 .rwl], r 0x140 0 [f 0 4 .rw, f 8 9 .rw, f 31 1 .go], r 0x144 0 (all .ro),
    r 0x148 0 (all .ro), r 0x14C 0 (all .ro), r 0x150 0x2710 (all .rw), r 0x154 0 (all .cnt) ]

/-- EP page (09 R395). The reset value of each MSI-X vector control word is 1, see `regReset`. -/
def epRows : List RegRow :=
  [ r 0x100 0 (all .ro), r 0x104 3 [f 0 1 .rw, f 1 1 .rw], r 0x108 0x20 [f 0 16 .rw], r 0x10C 8 [f 0 16 .rw],
    r 0x110 0x7D0 [fr 0 16 .rw 100 65535], r 0x114 0xC350 (all .ro) ]
  ++ pairFlds 0x118 1 8 [f 28 4 .rwl] (all .rwl) ++
  [ r 0x120 0 [f 0 1 .go, f 1 1 .go, f 2 1 .rwl, f 8 1 .ro, f 9 1 .ro], r 0x124 0 [f 0 1 .go, f 1 1 .go],
    r 0x128 0 (all .ro), r 0x12C 0 [f 0 11 .rw], r 0x130 0 (all .ro) ]
  ++ pairs 0x134 1 8 .ro ++ pairs 0x13C 1 8 .ro ++
  [ r 0x144 0 (all .ro), r 0x148 0 (all .cnt), r 0x14C 0 (all .cnt), r 0x150 0 (all .cnt), r 0x154 0 (all .cnt),
    r 0x158 0 (all .cnt), r 0x15C 0 (all .cnt), r 0x160 0 (all .cnt), rs 0x180 9 4 0 (all .ro) ]
  ++ pairFlds 0x200 64 8 [f 0 1 .rwl, f 16 16 .rwl] [fr 0 13 .rwl 0 4591] ++
  [ rs 0x400 16 4 0 [f 0 16 .rwl, f 16 1 .rwl], rs 0x800 128 4 0 (all .rw), rs 0xA00 2 4 0 (all .ro) ]

/-- FM page (06 R253). -/
def fmRows : List RegRow :=
  [rs 0x100 16 0x20 0 [f 0 1 .rw, f 1 1 .go]] ++ pairFlds 0x108 16 0x20 [f 15 17 .rwl] (all .rwl) ++
  [ rs 0x110 16 0x20 0 (all .ro), rs 0x114 16 0x20 0 (all .cnt), rs 0x118 16 0x20 0 (all .cnt),
    rs 0x11C 16 0x20 0 (all .cnt) ]

/-- ML page (04 R142). -/
def mlRows : List RegRow :=
  [ r 0x100 0 [f 0 10 .rw], r 0x104 0 (all .ro), r 0x108 0 (all .ro), r 0x10C 0 [f 0 1 .go, f 1 1 .go] ]
  ++ pairs 0x110 1 8 .rwl ++ [r 0x118 0 (all .cnt), r 0x11C 0 (all .cnt), r 0x120 0 (all .cnt)]

/-- SD page (04 R150). -/
def sdRows : List RegRow :=
  pairs 0x100 1 8 .rwl ++ pairs 0x108 1 8 .rwl ++
  [ r 0x110 0xFFFF [f 0 16 .rw], r 0x114 0 (all .ro), r 0x118 0 (all .ro), r 0x11C 0 [f 0 4 .rw, f 8 1 .go] ]
  ++ pairs 0x120 1 8 .ro ++ [r 0x128 0 (all .cnt)]

/-- PL page (11 R488). -/
def plRows : List RegRow :=
  [ r 0x100 0x10419 [f 0 8 .rw, f 8 8 .rw, f 16 1 .rw], r 0x104 0x40 [fr 0 16 .rw 1 65535], r 0x108 0x100 [f 0 24 .rw],
    r 0x10C 0x50 [fr 0 8 .rw 1 200], r 0x110 0 [f 0 13 .rw], r 0x114 0 [f 0 13 .ro, f 16 1 .rw, f 17 1 .ro],
    r 0x118 0 (all .ro), r 0x11C 0 [f 0 13 .rw, f 16 13 .rw, f 31 1 .go], r 0x120 0 (all .ro), r 0x124 0 (all .ro),
    r 0x128 0 (all .ro), r 0x12C 0 (all .cnt), rs 0x140 8 4 0 (all .ro) ]

/-- DC page (08 R335). -/
def dcRows : List RegRow :=
  [ r 0x100 0 [f 0 1 .go, f 1 1 .go], r 0x104 0 (all .ro), r 0x108 0x10 [fr 0 8 .rw 1 255],
    r 0x10C 4 [fr 0 4 .rw 1 15], r 0x110 0x10000 (all .rw), r 0x114 0 (all .ro), rs 0x118 7 4 0 (all .cnt) ]

/-- CL page (08 R334, 06 R242, 11 R478). The reset values of CL_PW_VFi are the typical curve, see `regReset`. -/
def clRows : List RegRow :=
  [ r 0x100 0 [f 0 1 .rw, f 1 1 .go, f 2 1 .go], r 0x104 2 (all .ro), r 0x108 0 (all .ro),
    r 0x10C 0x10 [fr 0 8 .rw 1 255], rs 0x110 4 4 0 (all .cnt),
    r 0x200 0 [f 0 1 .rw, f 1 1 .go], r 0x204 0 (all .ro), r 0x208 0 (all .ro), rs 0x20C 4 4 0 (all .ro) ]
  ++ pairs 0x220 1 8 .cnt ++
  [ rs 0x228 3 4 0 (all .cnt), r 0x300 0 [f 0 1 .rw, f 1 1 .rw], r 0x304 0x20 [fr 0 6 .rwl 0 50],
    r 0x308 0x32 [fr 0 6 .rwl 0 50], r 0x30C 0x32 [fr 0 6 .rw 0 50], r 0x310 0x20 [fr 0 6 .rw 0 50],
    r 0x314 0 (all .ro), r 0x318 0 (all .cnt), r 0x31C 0 (all .cnt), r 0x320 0 (all .ro), rs 0x340 8 4 0 (all .ro) ]

/-- MC page (08 R340). -/
def mcRows : List RegRow :=
  [rs 0x100 5 4 0 (all .cnt)] ++ pairs 0x118 1 8 .ro ++ pairs 0x120 1 8 .ro

/-- XL page (10 R450); XL_RTk lies in the XL0 page only. -/
def xlRows (n : Nat) : List RegRow :=
  [ r 0x100 0 [f 0 1 .rwl, f 1 1 .rw, f 2 5 .rw, f 8 1 .go, f 9 1 .go, f 10 1 .go], r 0x104 0 (all .ro),
    r 0x108 0 (all .ro), r 0x10C 0 (all .ro) ]
  ++ pairs 0x110 1 8 .ro ++
  [ r 0x118 0 (all .ro), r 0x11C 0x100 [f 0 16 .rw], r 0x120 0x20618 [f 0 6 .rwl, f 8 6 .rwl, f 16 6 .rwl],
    r 0x124 0 (all .ro), r 0x128 0x140 [fr 0 16 .rw 1 65535], r 0x12C 0x100 [f 0 24 .rw],
    r 0x130 8 [fr 0 8 .rw 1 255], r 0x134 0 (all .ro), r 0x138 0 [f 0 1 .go, f 1 1 .ro, f 2 1 .w1c],
    r 0x13C 0 [fr 0 6 .rw 0 32, fr 8 6 .rw 0 32] ]
  ++ pairs 0x140 1 8 .rw ++ [rs 0x180 11 4 0 (all .cnt)]
  ++ pairFlds 0x400 32 8 [f 0 24 .rwl] [fr 0 16 .rwl 1 65535, f 16 8 .rwl, f 31 1 .rwl]
  ++ pairFlds 0x500 32 8 [f 0 24 .rwl] [fr 0 16 .rwl 1 65535, f 16 8 .rwl, f 31 1 .rwl]
  ++ (if n = 0 then [rs 0x800 64 4 0 [f 0 3 .rw, f 7 1 .rw, f 8 3 .rw, f 15 1 .rw, f 16 3 .rw, f 23 1 .rw, f 24 3 .rw,
        f 31 1 .rw]] else [])

/-- GC page (04 R135). -/
def gcRows : List RegRow :=
  [ r 0x100 0 (all .ro), r 0x104 0 (all .ro), r 0x108 0 (all .ro), r 0x10C 0 (all .ro),
    r 0x110 0 [f 4 12 .rw, f 16 1 .go, f 17 1 .go], r 0x114 0 [f 0 5 .rw, f 8 1 .go], rs 0x118 6 4 0 (all .ro),
    rs 0x140 16 8 0 [f 0 16 .rwl, f 16 4 .rwl, fr 20 5 .rwl 0 16], rs 0x144 16 8 0 (all .ro),
    rs 0x1C0 32 4 0 (all .ro), rs 0x240 4 4 0 (all .cnt) ]

/-- The rows of a page at 0x100 and above. -/
def blockRows : Page → List RegRow
  | .dev => devRows
  | .fc => fcRows
  | .lb => lbRows
  | .gp => gpRows
  | .td => tdRows
  | .al => alRows
  | .bt => btRows
  | .xb => xbRows
  | .vt => vtRows
  | .lw => lwRows
  | .ep => epRows
  | .fm => fmRows
  | .ml => mlRows
  | .sd => sdRows
  | .pl => plRows
  | .dc _ => dcRows
  | .cl _ => clRows
  | .mc _ => mcRows
  | .xl n => xlRows n.val
  | .gc _ => gcRows

/-- The timetable window's registers (02). -/
def ttRows : List RegRow :=
  [ rs 0x0000 4096 4 0 (all .rw), r 0x8000 0 [f 0 1 .rw, f 1 1 .ro, f 2 1 .go], r 0x8004 0 [fr 0 10 .rw 0 512],
    r 0x8008 0 [fr 0 10 .rw 0 512] ]
  ++ pairs 0x800C 1 8 .rw ++
  [ r 0x8014 0 [f 0 5 .w1c, f 5 1 .ro, f 8 4 .ro], rs 0x8018 3 4 0 (all .cnt), r 0x8024 0 (all .ro) ]

/-- Base of a page in BAR0 (03 R79). -/
def pageBase : Page → Nat
  | .dev => 0x0000
  | .fc => 0x1000
  | .lb => 0x2000
  | .gp => 0x3000
  | .td => 0x4000
  | .al => 0x5000
  | .bt => 0x6000
  | .xb => 0x7000
  | .vt => 0x8000
  | .lw => 0x9000
  | .ep => 0xA000
  | .fm => 0xB000
  | .ml => 0xC000
  | .sd => 0xD000
  | .pl => 0xE000
  | .dc n => 0x10000 + n.val * 0x1000
  | .cl n => 0x20000 + n.val * 0x1000
  | .mc n => 0x30000 + n.val * 0x1000
  | .xl n => 0x38000 + n.val * 0x1000
  | .gc id => 0x100000 + id.val * 0x1000

/-- ID.TYPE of a page (03 R79). -/
def pageType : Page → Nat
  | .dev => 1
  | .fc => 2
  | .lb => 3
  | .gp => 4
  | .td => 5
  | .al => 6
  | .bt => 7
  | .xb => 8
  | .vt => 9
  | .lw => 0xA
  | .ep => 0xB
  | .fm => 0xC
  | .ml => 0xD
  | .sd => 0xE
  | .pl => 0xF
  | .dc _ => 0x10
  | .cl _ => 0x11
  | .mc _ => 0x12
  | .xl _ => 0x13
  | .gc _ => 0x14

/-- ID.INSTANCE of a page (03 R79). -/
def pageInst : Page → Nat
  | .dc n | .cl n => n.val
  | .mc n | .xl n => n.val
  | .gc id => id.val
  | _ => 0

/-- The page with a type and an instance. -/
def pageOfType (t i : Nat) : Option Page :=
  match t with
  | 1 => some .dev
  | 2 => some .fc
  | 3 => some .lb
  | 4 => some .gp
  | 5 => some .td
  | 6 => some .al
  | 7 => some .bt
  | 8 => some .xb
  | 9 => some .vt
  | 0xA => some .lw
  | 0xB => some .ep
  | 0xC => some .fm
  | 0xD => some .ml
  | 0xE => some .sd
  | 0xF => some .pl
  | 0x10 => if h : i < 16 then some (.dc ⟨i, h⟩) else none
  | 0x11 => if h : i < 16 then some (.cl ⟨i, h⟩) else none
  | 0x12 => if h : i < 8 then some (.mc ⟨i, h⟩) else none
  | 0x13 => if h : i < 8 then some (.xl ⟨i, h⟩) else none
  | 0x14 => if h : i < 256 then some (.gc ⟨i, h⟩) else none
  | _ => none

/-- The page that a BAR0 offset lies in (03 R79), if it is a block page. -/
def pageAt (off : Nat) : Option Page :=
  let p := off / 0x1000
  if p < 0xF then pageOfType (p + 1) 0
  else if p < 0x10 then none
  else if p < 0x20 then some (.dc (fin 16 (p - 0x10)))
  else if p < 0x30 then some (.cl (fin 16 (p - 0x20)))
  else if p < 0x38 then some (.mc (fin 8 (p - 0x30)))
  else if p < 0x40 then some (.xl (fin 8 (p - 0x38)))
  else if 0x100 ≤ p ∧ p < 0x200 then some (.gc (fin 256 (p - 0x100)))
  else none

/-- Base of the timetable window of a core (02). -/
def ttBase (core : Fin 256) : Nat := 0x1000000 + core.val * 0x10000

/-- The core whose timetable window a BAR0 offset lies in. -/
def ttAt (off : Nat) : Option (Fin 256) :=
  if 0x1000000 ≤ off ∧ off < 0x2000000 then some (fin 256 ((off - 0x1000000) / 0x10000)) else none

/-- A row covers an offset. -/
def RegRow.covers (w : RegRow) (o : Nat) : Bool :=
  decide (w.off ≤ o) && decide (o < w.off + w.n * w.stride) && decide ((o - w.off) % w.stride = 0)

/-- The row of a register of a page. -/
def rowOf (p : Page) (o : Nat) : Option RegRow :=
  if o = 8 then some (ctrlRow p)
  else if o < 0x100 then commonRows.find? (·.covers o)
  else (blockRows p).find? (·.covers o)

/-- Default severities of each page's sources, from source 0 (12 R508). -/
def sevList : Page → List Nat
  | .fc => [3, 1, 3, 3, 1, 1]
  | .lb => [1, 1, 1]
  | .gp => [1, 1]
  | .td => [0, 0, 1, 1, 1, 1, 1, 1, 1, 1, 1]
  | .al => [0, 1, 3, 1, 1, 2, 1, 1]
  | .bt => [1, 3]
  | .xb => [1, 0, 1, 3]
  | .vt => [1, 1, 1, 1, 1]
  | .lw => [1, 1, 1, 1]
  | .ep => [1, 1, 1, 0, 0, 1, 1, 1, 1, 1, 1, 1]
  | .fm => [1, 1, 1, 1, 1]
  | .ml => [1, 1, 1, 1]
  | .sd => [1, 1, 1, 1, 1, 1, 1, 1, 1, 1, 1, 1, 1, 1, 1, 1]
  | .pl => [1, 1, 2]
  | .dc _ => [0, 1, 0, 3, 1, 1, 0, 1]
  | .cl _ => [0, 1, 0, 3, 1, 1, 1, 0, 0, 0, 1, 2, 0, 0, 0, 0, 1, 1, 1, 1, 1, 1]
  | .mc _ => [0, 1, 1, 1]
  | .xl _ => [1, 0, 1, 0, 0, 0, 2, 1, 0, 1, 1, 1, 1, 1, 1, 1, 1, 1, 1]
  | .gc _ => [1, 1, 1, 1, 1, 0, 1, 1, 1]
  | .dev => []

/-- Severities packed two bits a source (03 R81). -/
def sevPack : List Nat → Nat
  | [] => 0
  | a :: l => a + 4 * sevPack l

/-- Sources whose severity and mask are fixed (12 R508, R509): FC SELF_PE, AL THERM_TRIP, BT HUB_FAIL. -/
def fixedMask : Page → Nat
  | .fc => 8
  | .al => 4
  | .bt => 2
  | _ => 0

/-- CL_PW_VF0 to 7 of a typical part, in 5 mV units (11 R471). -/
def vfTypical : List Nat := [130, 138, 146, 155, 164, 174, 182, 188]

/-- Reset values that vary along a row of a table. -/
def specialReset (p : Page) (o : Nat) : Option Nat :=
  match p with
  | .lw => if 0x100 ≤ o ∧ o < 0x140 ∧ o % 4 = 0 then some ((o - 0x100) / 4) else none
  | .ep => if 0x800 ≤ o ∧ o < 0xA00 ∧ o % 16 = 12 then some 1 else none
  | .cl _ => if 0x340 ≤ o ∧ o < 0x360 ∧ o % 4 = 0 then some (nth vfTypical ((o - 0x340) / 4) 0) else none
  | _ => none

/-- Reset value of a register of a page. BLOCK_REV of VER, the serial number and other per-device values read 0:
DESIGN CHOICE (assumption 3). -/
def pageReset (p : Page) (o : Nat) : Nat :=
  if o = 0x000 then pageType p * 0x10000 + pageInst p * 0x100 + 1
  else if o = 0x004 then 0xB1
  else if o = 0x018 then sevPack ((sevList p).take 16)
  else if o = 0x01C then sevPack ((sevList p).drop 16)
  else match specialReset p o with
    | some v => v
    | none => match rowOf p o with
      | some w => w.reset
      | none => 0

/-- What a BAR0 register holds at reset (03 R81 and the table of each page). -/
def regReset (off : Nat) : W32 :=
  match pageAt off with
  | some p => BitVec.ofNat 32 (pageReset p (off % 0x1000))
  | none => 0

/-- The GO fields of a page, ascending (03 R86): offset and bit. -/
def goList (p : Page) : List (Nat × Nat) :=
  (ctrlRow p :: blockRows p).flatMap fun w =>
    (List.range w.n).flatMap fun i =>
      (w.flds.filter fun x => x.acc = .go).map fun x => (w.off + i * w.stride, x.lo)

/-- Number of a GO field: its GO_DONE bit, none above 31 (03 R86). -/
def goIndex (p : Page) (o b : Nat) : Option Nat :=
  ((goList p).findIdx? fun x => x.1 = o ∧ x.2 = b).filter (· < 32)

end Sys2Proof.Machine
end

