-- ==== Sys2Proof/Machine/State.lean ====
section
/-! DEFINITION. The state of the device as plain data, the reasons a step can stop, and the state right after a cold
reset. Each field's docstring names the rule of spec/ and the reset value. -/

namespace Sys2Proof.Machine

/-- Reasons to stop with a fault. -/
inductive Fault where
  /-- Raised by nobody: no command of the block stops the machine, every error the manual describes is recorded in
  the state and the device goes on. Safe. -/
  | machineStopped
  deriving DecidableEq, Repr

/-- Reasons to refuse a command. -/
inductive Refusal where
  /-- The command has no meaning in the model yet. Raised by `exec` alone; safe. -/
  | notModelled (mnemonic : String)
  deriving DecidableEq, Repr

/-- What TD_STAT.STATE shows (02, TD page). -/
inductive TideMode where
  | hunt | locked | holdover | freerun | halted | master | disabled
  deriving DecidableEq, Repr

/-- The tide logic (02). -/
structure Tide where
  /-- TD_STAT.STATE (02 R42); reset disabled. -/
  mode : TideMode
  /-- Step number (R33); reset 0 (R46). -/
  step : BitVec 48
  /-- Phase in tk (R33); reset 0 (R46). -/
  phase : BitVec 26
  /-- Fraction of the tick edge in 1/64 tk (R40); reset 0, DESIGN CHOICE (assumption 3). -/
  frac : BitVec 6
  /-- Length of the current step in tk, TD_LEN (R35); reset 0. -/
  len : BitVec 27
  /-- TD_STAT.GRAIN4 (R35); reset 0. -/
  grain4 : Bool
  /-- TD_STAT.REF_OK; reset 0. -/
  refOk : Bool
  /-- TD_STAT.HOPS; reset 0. -/
  hops : BitVec 4
  /-- A follower in HUNT has adopted its first valid frame (R42); a master has had its first boundary (R36); reset false. -/
  adopted : Bool
  /-- The follower has become LOCKED since the enable: dispatch begins at the next boundary, whatever happens before it (R46); reset false. -/
  begun : Bool
  /-- TD_STAT.DISPATCH_HALT (R45); reset false. -/
  halt : Bool
  /-- Dispatch halts from the next boundary (R43, R44, R519); reset false. -/
  haltDue : Bool
  /-- RESUME written and remembered (R45); reset false. -/
  resume : Bool
  /-- Timetable dispatch has begun since the enable (R46); reset false. -/
  dispatching : Bool
  /-- The frame of this step has been used or missed (R41, R42); reset false. -/
  seen : Bool
  /-- Correction in 1/64 tk that the boundary at the end of this step applies (R40); reset 0. -/
  corr : Int
  /-- Correction in 1/64 tk by which the next step is lengthened or shortened (R44); reset 0. -/
  corrNext : Int
  /-- A length written late applies at the next boundary (R67); reset false. -/
  lenDue : Bool
  /-- A miss while TD_HOLD_MAX is 0 waits for the boundary (R68); reset false. -/
  missed : Bool
  /-- Ticks that the phase has stood on the last tick of this step, while the phase counter moves back (R40, R44); reset 0. -/
  waited : Nat
  deriving DecidableEq, Repr

/-- GC_STATE.STATE (04 R130). -/
inductive CoreState where
  | reset | parked | run | wait | halt | fenced
  deriving DecidableEq, Repr

/-- State of a berth (04 R126). -/
inductive BerthState where
  | empty | filling | full
  deriving DecidableEq, Repr

/-- A berth of an inbox with what the receiver records (04 R126, R127). -/
structure Berth where
  /-- EMPTY, FILLING or FULL; reset EMPTY. -/
  st : BerthState
  /-- Sender's global core address; reset 0. -/
  src : W16
  /-- Sender's channel; reset 0. -/
  chan : BitVec 4
  /-- Sender's epoch (R120); reset 0. -/
  epoch : BitVec 4
  /-- Length in bytes; reset 0. -/
  len : BitVec 13
  /-- Tag; reset 0. -/
  tag : W32
  /-- The crossing port that delivered the message (R127); reset none. -/
  via : Option (Fin 8)
  /-- The message was injected by the mailbox (06 R251); reset false. -/
  injected : Bool
  /-- The tick on which the message completed, step and phase, while the tide runs (02 R72); reset none. -/
  tick : Option (BitVec 48 × BitVec 26)
  deriving DecidableEq, Repr

/-- A send channel beside its GC_CHANc_CFG register (04 R118 to R125). -/
structure Chan where
  /-- Fares held; reset 0. -/
  fares : BitVec 5
  /-- Last SEND status; reset 0. -/
  status : BitVec 4
  /-- SENDs completed, wrapping; reset 0. -/
  sent : W16
  /-- Which berth of the run the next message uses (R125); reset 0. -/
  rot : BitVec 4
  deriving DecidableEq, Repr

/-- State of a mapping slot (07, VT_SLOT_VIEW). -/
inductive SlotState where
  | invalid | pending | valid | failed
  deriving DecidableEq, Repr

/-- A core mapping slot (07 R291). -/
structure MapSlot where
  /-- INVALID, PENDING, VALID or FAILED; reset INVALID. -/
  st : SlotState
  /-- Virtual base of the page; reset 0. -/
  base : BitVec 48
  /-- The page is 1 GiB; reset false. -/
  big : Bool
  /-- KIND of the page (R283); reset 0. -/
  kind : BitVec 2
  /-- Physical base; reset 0. -/
  pa : BitVec 64
  /-- Rights held: bit 0 R, bit 1 W, bit 2 A; reset 0. -/
  rights : BitVec 3
  /-- Generation at the fill; reset 0. -/
  gen : W32
  /-- Address and rights of the fill in progress; reset 0. -/
  req : W64
  reqRights : BitVec 3
  deriving DecidableEq, Repr

/-- A message descriptor as read from LDM (04 R121). -/
structure MsgDesc where
  src   : BitVec 20
  len   : BitVec 13
  chan  : BitVec 4
  evt   : BitVec 5
  evtEn : Bool
  tag   : W32
  deriving DecidableEq, Repr

/-- What an outstanding global access does (05 R181). -/
inductive GKind where
  /-- Scalar load of `size` bytes to s[rd]. -/
  | load (rd : BitVec 5) (size : Nat) (signed : Bool)
  /-- 256-byte load to v[vd]. -/
  | vload (vd : BitVec 4)
  /-- Store of `size` bytes. -/
  | store (size : Nat)
  /-- GAMO.ADD, GAMO.SWAP, GAMO.CAS. -/
  | add (rd : BitVec 5) (v : W64)
  | swap (rd : BitVec 5) (v : W64)
  | cas (rd : BitVec 5) (old : W64) (v : W64)
  deriving DecidableEq, Repr

/-- An outstanding global access of a core (05 R195). -/
structure GAccess where
  kind    : GKind
  /-- Virtual address. -/
  va      : BitVec 48
  /-- The page is host memory. -/
  host    : Bool
  /-- Physical address. -/
  pa      : BitVec 64
  /-- Store data. -/
  data    : BitVec 2048
  /-- Issued by GST64.RX (R198). -/
  relaxed : Bool
  /-- A store to the host that has been handed on and is not yet visible (R197, R199; 09 R366). -/
  sent    : Bool
  /-- A store that a freeze discarded: it never completes (09 R392). -/
  lost    : Bool
  /-- The mapping slot used. -/
  slot    : Fin 16
  /-- IMEM address of the issuing bundle (R210). -/
  pc      : W16
  deriving DecidableEq, Repr

/-- What a core in WAIT waits in (04 R131; 05 R183 to R199). -/
inductive Wait where
  | recv (rd : BitVec 5) (mask : W16)
  | send (rd : BitVec 5) (d : MsgDesc)
  | acq (rd : BitVec 5) (lock : Fin 1024)
  | event (rd : BitVec 5) (mask : W32)
  | eventAll (rd : BitVec 5) (mask : W32)
  | mapW (rd : BitVec 5) (slot : Fin 16)
  /-- FENCE.M. -/
  | fence
  /-- REL, which first performs the effect of FENCE.M (R192). -/
  | rel (rd : BitVec 5) (lock : Fin 1024)
  /-- The bundle waits to issue, for a PENDING slot (R194). -/
  | pendingSlot (slot : Fin 16)
  /-- The bundle waits to issue, at the limit of R195 on loads and GAMOs, or on stores. -/
  | accessLimit (store : Bool)
  /-- SYNC.I (R186). -/
  | sync
  deriving DecidableEq, Repr

/-- A queued MMA (05 R202, R204). -/
structure Mma where
  acc  : BitVec 2
  a    : BitVec 20
  b    : BitVec 20
  k    : Nat
  fmt  : BitVec 3
  zero : Bool
  pc   : W16
  deriving DecidableEq, Repr

/-- The timetable dispatcher of a core beside the registers of its window (02). -/
structure Dispatcher where
  /-- TT_CTRL.BANK: false for A, true for B (R59); reset A. -/
  bank : Bool
  /-- TT_CTRL.ARM running (R59); reset false. -/
  armed : Bool
  /-- TT_NEXT: index the scan has reached (R53); reset 0. -/
  next : BitVec 10
  /-- Load hint (R55); reset 0. -/
  hint : BitVec 4
  /-- Quiet marker (R55); reset false. -/
  quiet : Bool
  /-- Dispatching since a boundary after the enable (R53); reset false. -/
  running : Bool
  /-- Phase of the last dispatch, and places used on that tick (R53); reset 0. -/
  lastPhase : BitVec 26
  places : BitVec 3
  /-- Entries carried over a boundary, bank and index (R60); reset empty. -/
  carried : List (Bool × BitVec 9)
  /-- SENDs waiting for a fare (R52); reset empty. -/
  sendQ : List MsgDesc
  /-- STARTs ignored (R51); reset 0. -/
  ignored : Nat
  deriving DecidableEq, Repr

/-- A grid core (04, 05). -/
structure Core where
  /-- GC_STATE.STATE (04 R130); reset RESET. -/
  st : CoreState
  /-- GC_STATE.PART, latched when the core leaves RESET (R110); reset 0. -/
  part : BitVec 4
  /-- GC_WAIT_CAUSE (R131); reset 0. -/
  cause : BitVec 4
  /-- GC_WAIT_TARGET (R131); reset 0. -/
  target : W32
  /-- GC_WAIT_STEP; reset 0. -/
  waitStep : W32
  /-- The operations the core waits in, first one first; reset none. -/
  waits : List Wait
  /-- A park was asked for and the stores are not yet accepted (R132); reset false. -/
  parking : Bool
  /-- Next bundle to issue (05 R169); reset 0. -/
  pc : W16
  /-- GC_PC: last bundle issued (R135); reset 0. -/
  lastPc : W16
  /-- Fetch queue: the next bundles as fetched (05 R171); reset empty. -/
  fetchQ : List (BitVec 128)
  /-- s0 to s31 (05 R172); reset 0 (R133). -/
  sreg : Vector W64 32
  /-- v0 to v15 (05 R172); reset 0 (R133). -/
  vreg : Vector (BitVec 2048) 16
  /-- acc0 to acc3: element (row, column) of accumulator a at key 4096a + 64row + column (05 R172); reset 0. -/
  acc : Sparse W32
  /-- Event register (04); reset 0. -/
  events : W32
  /-- Mark count (05 R184); reset 0. -/
  mark : W32
  /-- The tick of the last MARK, step and phase, and the mark count before that tick (02 R72); reset none, 0. -/
  markTick : Option (BitVec 48 × BitVec 26)
  markBefore : W32
  /-- CYCLES: cycles since the core left RESET (05 R173): one for each bundle issued and a free number between bundles (assumption 8); reset 0. -/
  cycles : W64
  /-- GC_EXC (R135); reset 0. -/
  exc : Byte
  excPc : W16
  /-- GC_CHAN_EPOCH (R120); reset 0. -/
  epoch : BitVec 4
  /-- The channels were loaded with fares since the core left RESET (R119); reset false. -/
  loaded : Bool
  /-- The channels (R118); reset 0. -/
  chans : Vector Chan 16
  /-- The berths (R126); reset EMPTY. -/
  berths : Vector Berth 16
  /-- Bytes of the berths, at local offset (R112); reset 0, DESIGN CHOICE (assumption 4). -/
  inbox : Sparse Byte
  /-- LDM (R112); undefined after BIST (15 R621), reset 0, DESIGN CHOICE (assumption 4). -/
  ldm : Sparse Byte
  /-- IMEM (R112); undefined after BIST (15 R621), reset 0, DESIGN CHOICE (assumption 4). -/
  imem : Sparse Byte
  /-- Mapping slots (07 R291); reset INVALID. -/
  slots : Vector MapSlot 16
  /-- Outstanding global accesses, oldest first (05 R195); reset empty. -/
  access : List GAccess
  /-- A SEND whose payload is being read out, with the register for its status and its crossing port (R123);
  reset none. -/
  sending : Option (BitVec 5 × MsgDesc)
  /-- MMAs executing and queued, oldest first (05 R204); reset empty. -/
  mmas : List Mma
  /-- The timetable dispatcher (02); reset as Dispatcher. -/
  tt : Dispatcher
  deriving DecidableEq, Repr

/-- A message in flight on the mesh or from a hub port (04 R114, R125). -/
structure MeshMsg where
  dst   : Fin 256
  berth : Fin 16
  src   : W16
  chan  : BitVec 4
  epoch : BitVec 4
  len   : BitVec 13
  tag   : W32
  evtEn : Bool
  evt   : BitVec 5
  data  : List Byte
  via   : Option (Fin 8)
  /-- LATE_EVT to set after delivery (10 R436). -/
  lateEvt : Option (BitVec 5)
  /-- Its first flit has arrived, and its berth is FILLING (R126). -/
  filling : Bool
  deriving DecidableEq, Repr

/-- A fare return in flight (04 R127). -/
structure FareMsg where
  dst   : W16
  chan  : BitVec 4
  epoch : BitVec 4
  deriving DecidableEq, Repr

/-- State of a mooring lock (04 R137). -/
inductive LockState where
  | free | held | broken
  deriving DecidableEq, Repr

/-- A mooring lock (04 R137 to R144). -/
structure Lock where
  /-- FREE, HELD or BROKEN; reset FREE. -/
  st : LockState
  /-- OWNER core ID; reset 0. -/
  owner : Byte
  /-- EPOCH; reset 0. -/
  epoch : W16
  /-- UNKNOWN (R144); reset false. -/
  unknown : Bool
  /-- Cores queued (R139); reset empty. -/
  queue : List (Fin 256)
  /-- Last winner, for the rotation of R141; reset none. -/
  last : Option Byte
  deriving DecidableEq, Repr

/-- A translation held (07 R291, R293). -/
structure Xlat where
  va   : BitVec 48
  big  : Bool
  kind : BitVec 2
  pa   : BitVec 64
  deriving DecidableEq, Repr

/-- A translated segment (07 R294): first element, number of elements, the pages it holds (`true` for a destination
page), and whether it holds slots 16 to 31. -/
structure Seg where
  first : Nat
  count : Nat
  pages : List (Bool × Xlat)
  upper : Bool
  deriving DecidableEq, Repr

/-- What an ending manifest does next (06 R238): write its flag, write its record, or end once the record is visible. -/
inductive EndStage where
  | flag | record | seen
  deriving DecidableEq, Repr

/-- The end of a manifest, or its stop in PARTIAL: the next thing to do, STATUS of its record, and the failing address (06 R238, R239). -/
structure Ending where
  stage  : EndStage
  status : BitVec 3
  addr   : W64
  deriving DecidableEq, Repr

/-- A manifest in a mover queue (06 R232 to R239; 07 R293 to R303). -/
structure Manifest where
  /-- Completion number. -/
  no : W32
  /-- The 128-byte descriptor (06 R234). -/
  desc : BitVec 1024
  /-- Host context it is translated in (06 R231). -/
  ctx : Fin 16
  /-- The core whose timetable submitted it, if one did. -/
  core : Option (Fin 256)
  /-- It is the one of its queue that delivers (R233). -/
  started : Bool
  /-- Elements delivered. -/
  done : Nat
  /-- Elements delivered with poison (R240). -/
  poisoned : W32
  /-- Translations of the record and the flag (07 R293). -/
  recX : Xlat
  flagX : Option Xlat
  /-- Pages a segment may hold: 32 or 16 (07 R293). -/
  limit : Nat
  /-- The segment being delivered, and the next one if its translation is done. -/
  seg : Option Seg
  next : Option Seg
  /-- Translation of the next segment is in progress (07 R295). -/
  nextBusy : Bool
  /-- Element before which delivery must stop, and the address that failed (07 R301). -/
  stopAt : Option (Nat × BitVec 48)
  /-- Halted in PARTIAL (07 R301). -/
  halted : Bool
  /-- Its end is in progress (06 R238). -/
  ending : Option Ending
  deriving DecidableEq, Repr

/-- The mover of a cluster (06). -/
structure Mover where
  /-- The four queues, oldest manifest first (R232); reset empty. -/
  queues : Vector (List Manifest) 4
  /-- CL_MV_SEQq (R242); reset 0. -/
  last : Vector W32 4
  /-- The queue served last (R233); reset 0. -/
  rot : BitVec 2
  deriving DecidableEq, Repr

/-- Cluster cache states (08). -/
inductive Mesf where
  | m | e | s | f
  deriving DecidableEq, Repr

/-- A line in a cluster cache (08 R320); an absent line is I. -/
structure CLine where
  st     : Mesf
  data   : BitVec 512
  poison : BitVec 2
  way    : BitVec 4
  deriving DecidableEq, Repr

/-- A miss register (08 R324): the line, the merged requesters in arrival order (their matrix master, and the core whose access it is), and what
home has granted, or for a slice what the host has answered. -/
structure MissReg where
  line   : Line
  merged : List (Fin 58 × Option (Fin 256))
  grant  : Option CLine
  deriving DecidableEq, Repr

/-- A cluster cache (08). -/
structure CCache where
  /-- Lines held, by line key; reset empty. -/
  lines : Sparse CLine
  /-- Miss registers in use (R324); reset empty. -/
  misses : List MissReg
  /-- CL_CC_STAT.ENABLED; reset false. -/
  enabled : Bool
  /-- INVALIDATED (R329); reset true. -/
  invalidated : Bool
  /-- DIRTY_OFF (R327); reset false. -/
  dirtyOff : Bool
  /-- Error counter of each way (R333); reset 0. -/
  wayErr : Sparse Nat
  /-- FLUSH (true) or INV (false) in progress (R328); reset none. -/
  clearing : Option Bool
  deriving DecidableEq, Repr

/-- What the host may hold of a landing-window line (08 R319). -/
inductive HostHeld where
  | none | shared | owned
  deriving DecidableEq, Repr

/-- A slice entry (08 R319): a data way if `data` is present, else a shadow entry. -/
structure SLine where
  data     : Option (BitVec 512)
  poison   : BitVec 2
  way      : BitVec 4
  presence : W16
  fwd      : Option (Fin 16)
  owned    : Bool
  dirty    : Bool
  h        : HostHeld
  /-- CXL.cache state towards the host, for a host line; none is I. -/
  cxl      : Option Mesf
  deriving DecidableEq, Repr

/-- A request that home serves (08 R321; 09 R369). -/
inductive HomeReq where
  | rds (cl : Fin 16)
  | rdo (cl : Fin 16)
  | upg (cl : Fin 16)
  | rdcur (master : Fin 58)
  | wrinv (master : Fin 58) (data : BitVec 512) (poison : BitVec 2)
  | wrpart (master : Fin 58) (data : BitVec 512) (mask : BitVec 64) (poison : BitVec 2)
  | hostRd (own : Bool) (data : Bool)
  | hostWr (data : BitVec 512) (mask : BitVec 64) (poison : Bool)
  deriving DecidableEq, Repr

/-- A request answered RETRY that will be sent again (08 R323). -/
structure Retry where
  line      : Line
  master    : Fin 58
  age       : BitVec 4
  escalated : Bool
  deriving DecidableEq, Repr

/-- A back-invalidate, with the device request that asked for it (08 R341, R342). -/
structure BackInv where
  line : Line
  /-- BISnpInv, else BISnpData. -/
  inv  : Bool
  /-- It has been issued; it waits while the limits of R341 are reached, or a freeze is on (R360). -/
  sent : Bool
  held : List HomeReq
  /-- The host's answer, with the modified data it held, where it came during a freeze (R360). -/
  answered : Option (Option (BitVec 512))
  deriving DecidableEq, Repr

/-- A device-cache slice (08). -/
structure Slice where
  /-- Entries, by line key; reset empty. -/
  lines : Sparse SLine
  /-- Miss registers in use (R324); reset empty. -/
  misses : List MissReg
  /-- STAT.ENABLED; reset false. -/
  enabled : Bool
  /-- INVALIDATED (R329); reset true. -/
  invalidated : Bool
  /-- DIRTY_OFF (R327); reset false. -/
  dirtyOff : Bool
  /-- Error counter of each way (R333); reset 0. -/
  wayErr : Sparse Nat
  /-- FLUSH (true) or INV (false) in progress (R328); reset none. -/
  clearing : Option Bool
  /-- Requests answered RETRY (R323); reset empty. -/
  retries : List Retry
  /-- Last winner among escalated requests of a line (R323); reset none. -/
  lastWin : Sparse Nat
  /-- Back-invalidates outstanding (R341); reset empty. -/
  binv : List BackInv
  /-- Host requests that wait behind a transaction of their line, in arrival order, with their host physical address (R342); reset empty. -/
  waiting : List (BitVec 64 × Line × HomeReq)
  deriving DecidableEq, Repr

/-- The power loop of a cluster (11 R471 to R477). -/
structure Power where
  /-- Present frequency code; reset 32 (1.60 GHz). -/
  code : BitVec 6
  /-- Target code after clipping; reset 32. -/
  target : BitVec 6
  /-- Supply voltage in 5 mV units; reset 170, DEDUCED from R471 (assumption 6). -/
  volt : BitVec 9
  /-- A voltage step in progress: up (true) or down (R472); reset none. -/
  stepping : Option Bool
  /-- A step was begun on this boundary tick (R473); reset false. -/
  boundaryUsed : Bool
  /-- CL_PW_OBS.HELD; reset false. -/
  held : Bool
  /-- CL_PW_OBS.CLIPPED; reset false. -/
  clipped : Bool
  /-- Stretch in eighths of the frequency taken away, 0 to 4 (R477); reset 0. -/
  stretch : BitVec 3
  /-- Stretched cycles in this step, and whether DROOP_DEEP was set for it (R477); reset 0. -/
  stretchStep : Nat
  deep : Bool
  /-- Frequency limits by module power and by temperature (R476); reset 50. -/
  pwrLim : BitVec 6
  tjLim : BitVec 6
  deriving DecidableEq, Repr

/-- A cluster: mover, cluster cache and power loop. -/
structure Cluster where
  mover : Mover
  cc    : CCache
  pw    : Power
  deriving DecidableEq, Repr

/-- Why a drain runs (07 R299, R304, R305). -/
inductive DrainEnd where
  /-- INVALIDATE of a mailbox: slot and sequence number. -/
  | answer (mb : Fin 16) (slot : Fin 512) (seq : W16)
  /-- VT_CLEAR.CLEAR. -/
  | clear
  /-- Clearing a bit of VT_CTX_EN. -/
  | disable
  deriving DecidableEq, Repr

/-- A drain in progress (07 R299, R300). -/
structure Drain where
  ctx    : Fin 16
  first  : Nat
  last   : Nat
  gen    : W32
  ending : DrainEnd
  /-- It has begun: a clear waits for the drains of its context before it (R315). -/
  begun : Bool
  /-- Manifests that hold a translation of the range, by cluster, queue and completion number: their issue stops (R299). -/
  hit : List (Fin 16 × Fin 4 × W32)
  deriving DecidableEq, Repr

/-- The tables of a host context (07 R285 to R288). -/
structure VtCtx where
  /-- Generation; reset 0. -/
  gen : W32
  /-- 32 MiB leaves by VA[47:25], and 1 GiB leaves by VA[47:30]; reset empty. -/
  small : Sparse W64
  large : Sparse W64
  deriving DecidableEq, Repr

/-- What a mailbox command that has not been answered waits for (06 R247). -/
inductive TakenKind where
  /-- FENCE: every earlier command. -/
  | fence
  /-- INVALIDATE: its drain. -/
  | invalidate
  /-- WRITE_INLINE: the lines still to be written, lowest first (R250). -/
  | inline (pieces : List (Line × BitVec 512 × BitVec 64))
  /-- ABORT: the manifest's record (07 R303). -/
  | abort (cl : Fin 16) (q : Fin 4) (no : W32)
  deriving DecidableEq, Repr

/-- A mailbox command taken and not yet answered (06 R247). -/
structure Taken where
  slot : Fin 512
  seq  : W16
  kind : TakenKind
  /-- Recorded in the duplicate window (06 R252). -/
  recorded : Bool
  /-- Duplicates that await this answer: their slots. -/
  dups : List (Fin 512)
  /-- A reset of the FM page came in between: the effect completes, and nothing is answered (15 R623). -/
  silent : Bool
  deriving DecidableEq, Repr

/-- A mailbox (06 R252, R253). -/
structure Mailbox where
  /-- H; reset 0. -/
  h : W16
  /-- The window is empty; reset true. -/
  empty : Bool
  /-- Sequence numbers accepted, with their status once answered, newest first (R252); reset empty. -/
  results : List (W16 × Option W16)
  /-- Commands not yet answered, oldest first (R247); reset empty. -/
  taken : List Taken
  deriving DecidableEq, Repr

/-- A request waiting at a matrix target (06 R260). -/
structure XbWait where
  req    : XbArrival
  waited : Nat
  deriving DecidableEq, Repr

/-- The matrix (06 R259 to R263). -/
structure Matrix where
  /-- Requests waiting at each target, in arrival order; reset empty. -/
  waiting : Vector (List XbWait) 26
  /-- Rotating pointers, XB_PTR (R260); reset 0, DESIGN CHOICE (assumption 3). -/
  ptr : Vector (BitVec 6) 26
  /-- XB_PRIOi of each target, key 8target + i (R265); reset 0x24924924, XB_PRIO5 0x00924924. -/
  prio : Sparse W32
  /-- Beats left of the burst that holds each target (R261); reset 0. -/
  burst : Vector Nat 26
  /-- Requests held back, in arrival order, with their target (R263); reset empty. -/
  held : List (Fin 26 × XbWait)
  /-- Requests back-pressured in their master's class, in order, with their target (R262, R263); reset empty. -/
  stalled : List (Fin 26 × XbArrival)
  deriving DecidableEq, Repr

/-- The landing window (08 R341 to R346). -/
structure Landing where
  /-- Move in progress: entry and new frame (R344); reset none. -/
  move : Option (BitVec 4 × BitVec 9)
  /-- The tag scan of the move is done; reset false. -/
  scanned : Bool
  /-- Lines of the move still to be back-invalidated (R341, R344); reset empty. -/
  todo : List Line
  /-- The window is being disabled (R343, R359); reset false. -/
  closing : Bool
  /-- Host requests held by the move's block (R263): address and request; reset empty. -/
  heldReqs : List (BitVec 64 × HomeReq)
  deriving DecidableEq, Repr

/-- State of the CXL link (09). -/
inductive LinkState where
  | down | l0 | l1 | replay | recovery
  deriving DecidableEq, Repr

/-- A device write towards the host or a peer (09 R384, R391). `core`: the stream of its master it belongs to: the core of a cluster, the queue of a
mover, the mailbox of master 33. -/
structure HeldWrite where
  master  : BitVec 6
  core    : Byte
  addr    : BitVec 64
  bytes   : List Byte
  peer    : Bool
  relaxed : Bool
  poison  : Bool
  /-- A response line of a FROZEN answer, written after release (R391). -/
  frozenResp : Bool
  /-- A mailbox response line, 512mailbox + slot (R393). -/
  response : Option W16
  deriving DecidableEq, Repr

/-- A D2H request outstanding (09 R366, R386): its name by number (assumption 10), its line, its matrix master and core, and
the write it carries, if it is one. -/
structure D2h where
  op     : BitVec 4
  line   : BitVec 46
  master : Fin 58
  core   : Fin 256
  w      : Option HeldWrite
  /-- Suspended while the link replays or recovers (R387). -/
  affected : Bool
  deriving DecidableEq, Repr

/-- A CXL inbound write of a requester, as far as it is still to be performed (06 R257). -/
structure Inbound where
  requester : W16
  relaxed   : Bool
  addr      : BitVec 40
  bytes     : List Byte
  deriving DecidableEq, Repr

/-- The CXL function: configuration space and link (09). -/
structure Cxl where
  /-- Command register bits (R370); reset 0. -/
  memSpace : Bool
  busMaster : Bool
  parityResp : Bool
  serr : Bool
  intDisable : Bool
  /-- MSI-X Enable and Function Mask (R378); reset 0. -/
  msixEn : Bool
  funcMask : Bool
  /-- Enable Relaxed Ordering (R384); reset 1, PRESUMED (assumption 7). -/
  relaxEn : Bool
  /-- ASPM Control enables L1 (R382); reset 0. -/
  l1En : Bool
  /-- Cache_Enable, Mem_Enable, Disable Caching, Cache Invalid of the DVSEC (R365, R367); reset 0. -/
  cacheEn : Bool
  memEn : Bool
  disCache : Bool
  cacheInvalid : Bool
  /-- Cache Writeback and Invalidate waits for a freeze to be released, or for GO (R403); reset false. -/
  wbWaiting : Bool
  /-- Interrupt Line (R370); reset 0. -/
  intLine : Byte
  /-- BAR words 0 to 5 (R373); reset 0, with the type bits the read adds. -/
  bars : Vector W32 6
  /-- Subsystem ID (R370, 15 R625); reset 0. -/
  subsystem : W16
  /-- PowerState is D3hot (R381); reset false. -/
  d3hot : Bool
  /-- Completion Timeout Value and Disable (R386); reset 0. -/
  ctoVal : BitVec 4
  ctoDis : Bool
  /-- The link; reset down. -/
  link : LinkState
  /-- The partner accepts L0p (R383); reset false. -/
  l0pOk : Bool
  /-- D2H requests outstanding (R366); reset empty. -/
  d2h : List D2h
  /-- Writes that wait for an earlier write's GO, or for the link (R384); reset empty. -/
  wq : List HeldWrite
  /-- Inbound writes still to be performed, in arrival order (06 R257); reset empty. -/
  inbound : List Inbound
  /-- MSI-X messages that wait behind writes, or for the end of a Recovery (R384, R402); reset empty. -/
  msixQ : List (Fin 32)
  /-- INTA is asserted (R380); reset false. -/
  inta : Bool
  /-- A function-level reset is in progress (15 R623); reset false. -/
  flr : Bool
  /-- AER uncorrectable error status (R371, R376); reset 0. -/
  aer : W32
  /-- UNCOMMIT waits for back-invalidates (R405); reset false. -/
  uncommitting : Bool
  deriving DecidableEq, Repr

/-- An entry of the freeze report (09 R392). -/
structure FrzEnt where
  master : BitVec 6
  core   : Byte
  line   : BitVec 58
  mask   : BitVec 64
  peer   : Bool
  deriving DecidableEq, Repr

/-- The containment freeze (09 R390 to R394). -/
structure Frz where
  /-- FROZEN; reset false. -/
  on : Bool
  /-- CAUSE (R390); reset 0. -/
  cause : BitVec 3
  /-- The report, first entry first (R392); reset empty. -/
  report : List FrzEnt
  /-- SUMMARY; reset false. -/
  summary : Bool
  /-- Writes held (R391); reset empty. -/
  held : List HeldWrite
  /-- Masters with a discarded write (R393): cores, movers, hub firmware; reset 0. -/
  cores : BitVec 256
  movers : W16
  hub : Bool
  /-- Mailbox responses discarded, 512mailbox + slot (R393); reset empty. -/
  lostResp : List W16
  deriving DecidableEq, Repr

/-- XL_STAT.STATE (10 R450). -/
inductive PortState where
  | down | detect | train | ident | probe | up | failed
  deriving DecidableEq, Repr

/-- A message inside a bundle (10 R423). -/
structure BMsg where
  core  : Byte
  berth : BitVec 4
  chan  : BitVec 4
  src   : W16
  epoch : BitVec 4
  evtEn : Bool
  evt   : BitVec 5
  len   : BitVec 13
  tag   : W32
  data  : List Byte
  deriving DecidableEq, Repr

/-- An open bundle in an assembly buffer (10 R429). -/
structure OpenBundle where
  dst      : Byte
  deadline : Option (W16 × BitVec 26)
  msgs     : List BMsg
  /-- Cores of this device whose payload is being read into it (04 R123). -/
  reading  : List (Fin 256)
  /-- It takes no further message, and joins its queue once every payload has been read (R430; assumption 14). -/
  closing  : Bool
  deriving DecidableEq, Repr

/-- A closed bundle queued for transmission (10 R430, R443). -/
structure TxBundle where
  svc      : Bool
  vc       : Bool
  deadline : Option (W16 × BitVec 26)
  late     : Bool
  resync   : Bool
  src      : Byte
  dst      : Byte
  seq      : W16
  hops     : BitVec 4
  msgs     : List BMsg
  payload  : List (BitVec 512)
  /-- It is being forwarded, and came in on this port, which holds a berth of this pool for it. -/
  via      : Option (Fin 8 × BitVec 2)
  /-- Correlation tag it carries into its LATE message (12 R532). -/
  corr     : W16
  deriving DecidableEq, Repr

/-- A reliable unit in the replay buffer (10 R437). -/
inductive RUnit where
  | bundle (b : TxBundle)
  | word (w : BitVec 128)
  deriving DecidableEq, Repr

/-- A crossing port (10). -/
structure Port where
  /-- XL_STAT.STATE; reset DOWN. -/
  st : PortState
  /-- Width: 0 none, 1 two lanes, 2 four lanes (R414); reset 0. -/
  width : BitVec 2
  /-- IDENT0 and IDENT1 of the peer received in this bring-up (R416, R420); reset false. -/
  ident0 : Bool
  ident1 : Bool
  /-- Port credits held in pools D0, D1, S (R427); reset 0. -/
  credits : Vector Nat 3
  /-- Peer's split (R427); reset 0. -/
  split : Vector Nat 3
  /-- Freed counts of the last CREDIT word (R419); reset 0. -/
  creditSeen : Vector Byte 3
  /-- Berths this port has freed since UP (R419, R442); reset 0. -/
  freed : Vector Byte 3
  /-- Receive berths in use in each pool (R425); reset 0. -/
  inUse : Vector Nat 3
  /-- Reliable units sent and not acknowledged, oldest first (R437); reset empty. -/
  replayBuf : List RUnit
  /-- Units acknowledged, and units accepted, since UP, mod 65,536 (R419); reset 0. -/
  acked : W16
  accepted : W16
  /-- The receiver discards until REPLAY (R438); reset false. -/
  discard : Bool
  /-- Count of the last NAK and how many in a row carried it (R439); reset 0. -/
  nakAt : W16
  nakRun : Byte
  /-- Open bundles, at most four (R429); reset empty. -/
  opens : List OpenBundle
  /-- Closed bundles waiting, in order of joining (R430, R434); reset empty. -/
  txq : List TxBundle
  /-- H of each (source, class), key 2source + class (R440); reset empty. -/
  win : Sparse (Option W16)
  /-- Next SEQ of each (destination, class), key 2destination + class (R430); reset 0. -/
  seqNext : Sparse W16
  /-- RESYNC due for (destination, class) (R447); reset false. -/
  resync : Sparse Bool
  /-- XL_SLOT_CTRL.BANK and ARM (R432); reset A, false. -/
  bank : Bool
  armed : Bool
  /-- Index of the open slot (R432); reset none. -/
  slot : Option (Fin 32)
  /-- Destination served last (R434); reset 0. -/
  lastDst : Byte
  /-- Round trips of the measurement in progress; the probe outstanding with its T1 and the modulus of its step, 1/64 tk
  (R445); reset none. -/
  rtts : List W32
  probeAt : Option (Byte × W32 × W64)
  /-- Steps since the last measurement (R445); reset 0. -/
  rttSteps : W16
  /-- PROBE words sent in the measurement; reset 0. -/
  probeId : Byte
  /-- SLOT_OVERLAP set in this step (R454); reset false. -/
  overlapSet : Bool
  /-- Steps with slots open and no equalisation update (11 R480); reset 0. -/
  eqSteps : W16
  eqDone : Bool
  deriving DecidableEq, Repr

/-- Equalisation of a lane (11 R479, R480). -/
structure Eq where
  ctle   : BitVec 5
  tap    : BitVec 7
  margin : Byte
  /-- AL_EQ_FORCE as written for this lane; reset none. -/
  force  : Option (BitVec 5 × BitVec 7)
  deriving DecidableEq, Repr

/-- The scrub of a stack (11 R481). -/
structure Scrub where
  /-- Pass time in seconds, AL_SCRUB_OBSs; reset 0x15180. -/
  pass : BitVec 24
  /-- Corrected errors in the window; reset 0. -/
  ce : W32
  /-- Low windows in a row; reset 0. -/
  low : Nat
  /-- Granule to read next, counted within the stack; reset 0. -/
  next : BitVec 31
  deriving DecidableEq, Repr

/-- The placement loop (11 R483 to R488). -/
structure Placement where
  /-- Place of each region, 1024stack + slot; unlisted regions lie at the identity (R483); reset identity. -/
  map : Sparse (BitVec 13)
  /-- Pinned regions; reset none. -/
  pins : Sparse Bool
  /-- Swap in progress or abandoned: the move record (R486); reset none. -/
  cur : Option (BitVec 13 × BitVec 13)
  /-- Swap accepted and waiting to begin, manual or not (R484, R487); reset none. -/
  queued : Option (BitVec 13 × BitVec 13 × Bool)
  /-- PL_PROG; reset 0. -/
  prog : BitVec 11
  /-- A chunk is being copied (R485); reset false. -/
  chunk : Bool
  /-- The swap was abandoned (R498); reset false. -/
  abandoned : Bool
  /-- Swaps begun in this window (R484); reset 0. -/
  begun : Nat
  /-- Steps that have ended in this window (R484); reset 0. -/
  steps : Nat
  /-- Heat of each region in the last window, MiB (R488); reset 0. -/
  heat : Sparse Nat
  deriving DecidableEq, Repr

/-- A replay or Recovery episode (12 R532): its link, its tag, and the step in which it ended. -/
structure Episode where
  link  : LinkId
  tag   : W16
  ended : Option (BitVec 48)
  deriving DecidableEq, Repr

/-- The fault collector (12). -/
structure Collector where
  /-- Messages on their way, oldest first (R504); reset empty. -/
  coming : List (BitVec 128)
  /-- The record queue, oldest first (R512); reset empty. -/
  queue : List (BitVec 256)
  /-- Number of the next record (R512); reset 0. -/
  recNo : W16
  /-- FC_STAT.SAFE; reset false. -/
  safe : Bool
  /-- ALIVE has been stopped by the safe state until the next reset of the page (R522); reset false. -/
  aliveStopped : Bool
  /-- FC_STAT.ALIVE_RB; reset false. -/
  aliveRb : Bool
  /-- WDOG has been set and no kick came since (R524); reset false. -/
  wdogSet : Bool
  /-- Episodes in progress or ended not long ago (R532); reset empty. -/
  episodes : List Episode
  /-- Ports still to be fenced by the safe state (R520); reset none. -/
  portsToFence : Byte
  /-- Origin and step of the last 16 ABORT words sent (10 R446); reset empty. The fences of R518 are CTRL.FENCE of the pages. -/
  abortIds : List (Byte × W32)
  deriving DecidableEq, Repr

/-- A slot of the flash ring (13 R555). -/
structure FlashSlot where
  /-- Wholly erased; reset true for a new flash, DESIGN CHOICE (assumption 5). -/
  erased : Bool
  /-- The 45 header bytes, if programmed. -/
  header : Option (BitVec 360)
  /-- Body entries programmed. -/
  body : List (BitVec 256)
  /-- CRC bytes of the trailer, if programmed. -/
  crc : Option W32
  /-- COMMIT word programmed. -/
  commit : Bool
  deriving DecidableEq, Repr

/-- A snapshot being written (13 R557). -/
structure Snap where
  kind    : BitVec 2
  /-- Short POWER_FAIL snapshot, else a full one. -/
  short   : Bool
  slot    : Fin 16
  seq     : W32
  header  : BitVec 360
  entries : List (BitVec 256)
  /-- Operations completed: 1 header, then body pages, then CRC, then COMMIT. -/
  ops     : Nat
  /-- It was started by the host (R574). -/
  host    : Bool
  deriving DecidableEq, Repr

/-- The logbook (13). -/
structure Logbook where
  /-- Ring entries by index; reset empty and fresh, DESIGN CHOICE (assumption 5). -/
  ring : Sparse (BitVec 256)
  /-- LB_STAT.HEAD, WRAPPED, RING_FRESH (R551). -/
  head : BitVec 12
  wrapped : Bool
  fresh : Bool
  /-- Entries offered and not yet written, oldest first (R552); reset empty. -/
  inq : List (BitVec 256)
  /-- Entries lost since the last DROPPED entry (R552); reset 0. -/
  lost : W32
  /-- Snapshot in progress; reset none. -/
  snap : Option Snap
  /-- A HOST snapshot waits (R574), a FATAL one waits (R571), a full one is to follow (R559); reset false. -/
  hostWaits : Bool
  fatalWaits : Bool
  followUp : Bool
  /-- Flash ring slots (R555); reset new flash, DESIGN CHOICE (assumption 5). -/
  slots : Vector FlashSlot 16
  /-- Newest committed slot; reset none. -/
  newest : Option (Fin 16)
  deriving DecidableEq, Repr

/-- The gangplank and the JTAG port (13 R565 to R569). -/
structure Gangplank where
  /-- Level 0 CLOSED, 1 OBSERVE, 2 FULL; reset 0. -/
  level : BitVec 2
  /-- Factory test mode; reset false. -/
  factory : Bool
  /-- Nonce and its validity; reset 0, false. -/
  nonce : BitVec 256
  nonceOk : Bool
  /-- FAILS and LOCKED (R568); reset 0, false. -/
  fails : BitVec 4
  locked : Bool
  /-- Last result; reset 0. -/
  result : BitVec 3
  /-- PROD_FUSE: the production fuse is blown; reset true, as every B1 part ships. -/
  prodFuse : Bool
  /-- TAP enabled by TRST_N (R594); reset false. -/
  tap : Bool
  /-- JTAG instruction register (R566); reset IDCODE, PRESUMED from IEEE 1149.1 (assumption 7). -/
  ir : Byte
  /-- Words written through the debug windows, by BAR0 offset (R565, R581); reset none. -/
  win : Sparse W32
  deriving DecidableEq, Repr

/-- Inputs, sensors and supplies of the module (14). -/
structure Module where
  /-- MB_SUPV 54 V: 0 absent, 1 in range, 2 out of range, 3 reversed (R607); reset 1. -/
  v54 : BitVec 2
  /-- MB_SUPV 12 V: 0 absent, 1 in range, 2 out of range; reset 1. -/
  v12 : BitVec 2
  /-- Supervised inputs (R593); reset PWR_FAIL_N HIGH, PERST_N LOW, TRST_N OPEN, DESIGN CHOICE (assumption 3). -/
  pwrFail : PinLevel
  perst : PinLevel
  trst : PinLevel
  /-- INT_PF (R592); reset false. -/
  intPf : Bool
  /-- Main rails on (R585); reset true, right after power good. -/
  mainOn : Bool
  /-- The main conversion runs (R588); reset true. -/
  conversion : Bool
  /-- Disconnected by overvoltage (R588); reset false. -/
  overvoltage : Bool
  /-- Leak reading in effect: 0 dry, 1 wet, 2 open, 3 short, and the candidate with its count (R601); reset 0. -/
  leak : BitVec 2
  leakCand : BitVec 2
  leakRun : Nat
  /-- Conditions present now, 16connection + code (R595); reset none. -/
  present : List Nat
  /-- MB_FAULT, MB_LAST, MB_POWER, MB_TEMP, MB_LEAK, MB_SCRATCH (R607); reset per table. -/
  mbFault : W32
  mbLast : W32
  mbPower : W32
  mbTemp : W32
  mbLeak : W32
  mbScratch : W32
  /-- TIDE_REF is sampled on the other edge (R597); reset false. -/
  refFlip : Bool
  /-- OSFP modules present (R587); reset none. -/
  cages : Byte
  /-- MGT_ADDR0-2 as sampled when standby power rose (R606); reset 7, open straps, DESIGN CHOICE (assumption 3). -/
  straps : BitVec 3
  deriving DecidableEq, Repr

/-- Boot and BIST (15). -/
structure Boot where
  /-- Last device reset: 0 cold, 1 PERST_N, 2 FLR (R637); reset 0. -/
  kind : BitVec 2
  /-- Boot stage running: 0 to 2, 3 when none; reset 0. -/
  stage : BitVec 2
  /-- Last stage completed (R637); reset 0. -/
  lastStage : BitVec 2
  /-- Bank B in use, fallback taken, RECOVERY (R626, R627); reset false. -/
  bankB : Bool
  fallback : Bool
  recovery : Bool
  /-- Values the image carries (R625). -/
  fwRev : W16
  bootCount : W32
  /-- Groups started, ended, mismatched (R629, R630); reset 0. -/
  started : Byte
  ended : Byte
  mismatched : Byte
  /-- Localisation and its fencing are done (R630); reset false. -/
  localised : Bool
  /-- Stacks trained, and stacks whose first training failed (R632); reset 0. -/
  trained : Byte
  retrying : Byte
  /-- Device memory must be initialised before HBM_UP (R632, R640); reset true. -/
  initDue : Bool
  /-- DEV_READY as the BOOT entries have last shown it (R636); reset 0. -/
  ready : W32
  /-- Units that BIST fenced, whose fence no write removes (R631); reset none. -/
  stuck : List Page
  /-- PERST_N preparation in progress (R622), with the dirty host lines dropped; reset false, 0. -/
  preparing : Bool
  dropped : W64
  /-- A fatal BIST result stopped boot (R631); reset false. -/
  stopped : Bool
  deriving DecidableEq, Repr

/-- What the device sends outside. -/
inductive Out where
  /-- A tide frame on TIDE_OUT_DAT (02 R39). -/
  | tideFrame (bits : BitVec 128)
  /-- A control word on a crossing port (10 R419). -/
  | ctrlWord (port : Fin 8) (w : BitVec 128)
  /-- A bundle on a crossing port (10 R421): header, directory, payload. -/
  | bundle (port : Fin 8) (header : BitVec 512) (dir : BitVec 2048) (payload : List (BitVec 512))
  /-- A device write to host memory over CXL.cache. -/
  | hostWrite (addr : BitVec 64) (bytes : List Byte) (relaxed : Bool) (poison : Bool)
  /-- A posted CXL.io write to a peer (06 R258). -/
  | peerWrite (addr : BitVec 64) (bytes : List Byte) (relaxed : Bool)
  /-- A D2H request (09 R366). -/
  | d2h (op : BitVec 4) (line : BitVec 46)
  /-- Data of a CXL.mem read. -/
  | memData (data : BitVec 512) (poison : Bool)
  /-- Completion of a CXL.mem write. -/
  | memCmp
  /-- Answer to an H2D snoop: state kept (none is I), data sent. -/
  | snoopResp (kept : Option Mesf) (data : Option (BitVec 512))
  /-- A back-invalidate snoop: BISnpInv, or BISnpData. -/
  | bisnp (line : Line) (inv : Bool)
  | msix (vector : Fin 32)
  | inta (assert : Bool)
  /-- Data answered to a requester of the matrix (08 R324, R350). -/
  | answer (master : Fin 58) (line : Line) (data : BitVec 512) (poison : BitVec 2)
  /-- A request of the matrix answered with an error (06 R259, R263). -/
  | xbError (master : Fin 58) (addr : BitVec 52)
  /-- A request answered UR. -/
  | ur (requester : W16)
  /-- A configuration request answered with Configuration Request Retry Status (15 R623). -/
  | cfgRetry
  /-- A DOE response object, or the error bit. -/
  | doe (words : List W32)
  | doeError
  /-- Requests on the CXL link: 0 train, 1 L1, 2 exit L1, 3 x8, 4 x16, 5 accept the partner's width. -/
  | linkReq (what : BitVec 3)
  /-- Data answered to a register, debug-window or JTAG read. -/
  | readData (v : W32)
  /-- Level of ALIVE changed to running (true) or low. -/
  | alive (running : Bool)
  /-- A flash operation started (13 R557): slot and operation number, 0 for an erase. -/
  | flash (slot : Fin 16) (op : Nat)
  /-- A management-bus write acknowledged or not (14 R607). -/
  | mgtAck (ok : Bool)
  deriving DecidableEq, Repr

/-- The device. -/
structure State where
  /-- Commands waiting, first in first out (MODEL FIELD); reset empty. -/
  pending : List Instr
  /-- What was sent outside, oldest first (MODEL FIELD, assumption 2); reset empty. -/
  out : List Out
  /-- Counter of free values (MODEL FIELD, assumption 8); reset 0, DESIGN CHOICE. -/
  fresh : Nat
  /-- BAR0 registers by offset; an unlisted one holds its reset value (03 R79, R81). -/
  regs : Sparse W32
  /-- Staged lower parts of register pairs, by offset of _LO (03 R78); reset 0, DESIGN CHOICE (assumption 3). -/
  staged : Sparse W32
  /-- Upper parts captured by the last _LO read, by offset of _HI (03 R78); reset 0, DESIGN CHOICE
  (assumption 3). -/
  captured : Sparse W32
  /-- The tide (02). -/
  tide : Tide
  /-- The cores (04, 05). -/
  cores : Vector Core 256
  /-- Messages in flight, oldest first (04 R125); reset empty. -/
  mesh : List MeshMsg
  /-- Fare returns in flight, oldest first (04 R127); reset empty. -/
  fares : List FareMsg
  /-- The mooring locks (04 R137). -/
  locks : Vector Lock 1024
  /-- Partitions one of whose cores changed since the last boundary (04 R146); reset 0. -/
  sdChanged : W16
  /-- Partitions that qualified at the last boundary, unchanged since (04 R146); reset 0. -/
  sdArmed : W16
  /-- The clusters (06, 08, 11). -/
  clusters : Vector Cluster 16
  /-- The mailboxes (06). -/
  mailboxes : Vector Mailbox 16
  /-- Bytes of BAR4 (06 R244); reset 0, DESIGN CHOICE (assumption 4). -/
  bar4 : Sparse Byte
  /-- The matrix (06). -/
  xb : Matrix
  /-- Host contexts (07). -/
  ctxs : Vector VtCtx 16
  /-- Drains in progress (07 R299); reset empty. -/
  drains : List Drain
  /-- Device memory, and poison markers by granule (08 R336); reset zero, unpoisoned (15 R621, R632). -/
  dm : Sparse Byte
  poison : Sparse Bool
  /-- The slices (08). -/
  slices : Vector Slice 16
  /-- The landing window (08). -/
  lw : Landing
  /-- The CXL function (09). -/
  cxl : Cxl
  /-- The containment freeze (09). -/
  frz : Frz
  /-- The crossing ports (10). -/
  ports : Vector Port 8
  /-- Equalisation by 16link + lane (11 R479); reset 0, DESIGN CHOICE (assumption 3). -/
  eqs : Sparse Eq
  /-- The scrub of each stack (11 R481). -/
  scrubs : Vector Scrub 8
  /-- The placement loop (11 R483). -/
  pl : Placement
  /-- The fault collector (12). -/
  fc : Collector
  /-- The logbook (13). -/
  lb : Logbook
  /-- The gangplank (13). -/
  gp : Gangplank
  /-- Module and supervision (14). -/
  mod : Module
  /-- Boot (15). -/
  boot : Boot
  deriving DecidableEq, Repr

/-- The tide logic while its page is disabled (02 R46). -/
def tideReset : Tide where
  mode := .disabled
  step := 0
  phase := 0
  frac := 0
  len := 0
  grain4 := false
  refOk := false
  hops := 0
  adopted := false
  begun := false
  halt := false
  haltDue := false
  resume := false
  dispatching := false
  seen := false
  corr := 0
  corrNext := 0
  lenDue := false
  missed := false
  waited := 0

def berthReset : Berth := ⟨.empty, 0, 0, 0, 0, 0, none, false, none⟩

def chanReset : Chan := ⟨0, 0, 0, 0⟩

def mapSlotReset : MapSlot := ⟨.invalid, 0, false, 0, 0, 0, 0, 0, 0⟩

def dispatcherReset : Dispatcher where
  bank := false
  armed := false
  next := 0
  hint := 0
  quiet := false
  running := false
  lastPhase := 0
  places := 0
  carried := []
  sendQ := []
  ignored := 0

/-- A core after a cold reset (04 R133, 15 R621). -/
def coreReset : Core where
  st := .reset
  part := 0
  cause := 0
  target := 0
  waitStep := 0
  waits := []
  parking := false
  pc := 0
  lastPc := 0
  fetchQ := []
  sreg := Vector.replicate 32 0
  vreg := Vector.replicate 16 0
  acc := []
  events := 0
  mark := 0
  markTick := none
  markBefore := 0
  cycles := 0
  exc := 0
  excPc := 0
  epoch := 0
  loaded := false
  chans := Vector.replicate 16 chanReset
  berths := Vector.replicate 16 berthReset
  inbox := []
  ldm := []
  imem := []
  slots := Vector.replicate 16 mapSlotReset
  access := []
  sending := none
  mmas := []
  tt := dispatcherReset

def lockReset : Lock := ⟨.free, 0, 0, false, [], none⟩

def moverReset : Mover := ⟨Vector.replicate 4 [], Vector.replicate 4 0, 0⟩

def ccacheReset : CCache := ⟨[], [], false, true, false, [], none⟩

def sliceReset : Slice := ⟨[], [], false, true, false, [], none, [], [], [], []⟩

/-- A cluster at its base point (11 R478: 1.60 GHz, and the voltage of R471 with the typical curve and the default
guard). -/
def powerReset : Power where
  code := 32
  target := 32
  volt := 170
  stepping := none
  boundaryUsed := false
  held := false
  clipped := false
  stretch := 0
  stretchStep := 0
  deep := false
  pwrLim := 50
  tjLim := 50

def clusterReset : Cluster := ⟨moverReset, ccacheReset, powerReset⟩

def mailboxReset : Mailbox := ⟨0, true, [], []⟩

def matrixReset : Matrix := ⟨Vector.replicate 26 [], Vector.replicate 26 0, [], Vector.replicate 26 0, [], []⟩

def vtCtxReset : VtCtx := ⟨0, [], []⟩

def landingReset : Landing := ⟨none, false, [], false, []⟩

def cxlReset : Cxl where
  memSpace := false
  busMaster := false
  parityResp := false
  serr := false
  intDisable := false
  msixEn := false
  funcMask := false
  relaxEn := true
  l1En := false
  cacheEn := false
  memEn := false
  disCache := false
  cacheInvalid := false
  wbWaiting := false
  intLine := 0
  bars := Vector.replicate 6 0
  subsystem := 0
  d3hot := false
  ctoVal := 0
  ctoDis := false
  link := .down
  l0pOk := false
  d2h := []
  wq := []
  inbound := []
  msixQ := []
  inta := false
  flr := false
  aer := 0
  uncommitting := false

def frzReset : Frz := ⟨false, 0, [], false, [], 0, 0, false, []⟩

def portReset : Port where
  st := .down
  width := 0
  ident0 := false
  ident1 := false
  credits := Vector.replicate 3 0
  split := Vector.replicate 3 0
  creditSeen := Vector.replicate 3 0
  freed := Vector.replicate 3 0
  inUse := Vector.replicate 3 0
  replayBuf := []
  acked := 0
  accepted := 0
  discard := false
  nakAt := 0
  nakRun := 0
  opens := []
  txq := []
  win := []
  seqNext := []
  resync := []
  bank := false
  armed := false
  slot := none
  lastDst := 0
  rtts := []
  probeAt := none
  rttSteps := 0
  probeId := 0
  overlapSet := false
  eqSteps := 0
  eqDone := false

def scrubReset : Scrub := ⟨0x15180, 0, 0, 0⟩

def placementReset : Placement := ⟨[], [], none, none, 0, false, false, 0, 0, []⟩

def collectorReset : Collector where
  coming := []
  queue := []
  recNo := 0
  safe := false
  aliveStopped := false
  aliveRb := false
  wdogSet := false
  episodes := []
  portsToFence := 0
  abortIds := []

def flashSlotErased : FlashSlot := ⟨true, none, [], none, false⟩

/-- A logbook whose ring was cleared when standby power came up, over a new flash (assumption 5). -/
def logbookReset : Logbook where
  ring := []
  head := 0
  wrapped := false
  fresh := true
  inq := []
  lost := 0
  snap := none
  hostWaits := false
  fatalWaits := false
  followUp := false
  slots := Vector.replicate 16 flashSlotErased
  newest := none

def gangplankReset : Gangplank where
  level := 0
  factory := false
  nonce := 0
  nonceOk := false
  fails := 0
  locked := false
  result := 0
  prodFuse := true
  tap := false
  ir := 0x01
  win := []

def moduleReset : Module where
  v54 := 1
  v12 := 1
  pwrFail := .high
  perst := .low
  trst := .opened
  intPf := false
  mainOn := true
  conversion := true
  overvoltage := false
  leak := 0
  leakCand := 0
  leakRun := 0
  present := []
  mbFault := 0
  mbLast := 0
  mbPower := 0
  mbTemp := 0xFFFFFFFF
  mbLeak := 0xFFFF
  mbScratch := 0
  refFlip := false
  cages := 0
  straps := 7

def bootReset : Boot where
  kind := 0
  stage := 0
  lastStage := 0
  bankB := false
  fallback := false
  recovery := false
  fwRev := 0
  bootCount := 0
  started := 0
  ended := 0
  mismatched := 0
  localised := false
  trained := 0
  retrying := 0
  initDue := true
  ready := 0
  stuck := []
  preparing := false
  dropped := 0
  stopped := false

/-- The device right after a cold reset, boot stage 0 starting (15 R620, R621, R628). -/
def State.reset : State where
  pending := []
  out := []
  fresh := 0
  regs := []
  staged := []
  captured := []
  tide := tideReset
  cores := Vector.replicate 256 coreReset
  mesh := []
  fares := []
  locks := Vector.replicate 1024 lockReset
  sdChanged := 0
  sdArmed := 0
  clusters := Vector.replicate 16 clusterReset
  mailboxes := Vector.replicate 16 mailboxReset
  bar4 := []
  xb := matrixReset
  ctxs := Vector.replicate 16 vtCtxReset
  drains := []
  dm := []
  poison := []
  slices := Vector.replicate 16 sliceReset
  lw := landingReset
  cxl := cxlReset
  frz := frzReset
  ports := Vector.replicate 8 portReset
  eqs := []
  scrubs := Vector.replicate 8 scrubReset
  pl := placementReset
  fc := collectorReset
  lb := logbookReset
  gp := gangplankReset
  mod := moduleReset
  boot := bootReset

end Sys2Proof.Machine
end

