-- ==== Sys2Proof/Machine/Ops.lean ====
section
/-! DEFINITION. The shared operations over the register file: reading and writing a register by its access codes, page errors,
GO actions, interrupts, fault messages, logbook entries, and what the device sends outside. -/

namespace Sys2Proof.Machine

/-- A step that always completes. -/
abbrev Res := Host.Outcome State Fault Refusal

/-! ## The register file -/

/-- The register at a BAR0 offset, as held. -/
def State.reg (s : State) (a : Nat) : W32 := sget regReset s.regs a

/-- Sets the register at a BAR0 offset. -/
def State.setReg (s : State) (a : Nat) (v : W32) : State := { s with regs := sset regReset s.regs a v }

/-- Register `o` of page `p`. -/
def preg (s : State) (p : Page) (o : Nat) : W32 := s.reg (pageBase p + o)

/-- Sets register `o` of page `p`. -/
def setPreg (s : State) (p : Page) (o : Nat) (v : W32) : State := s.setReg (pageBase p + o) v

/-- A register pair as one value (03 R78). -/
def preg64 (s : State) (p : Page) (o : Nat) : Nat := (preg s p o).toNat + 2 ^ 32 * (preg s p (o + 4)).toNat

/-- Sets a register pair. -/
def setPreg64 (s : State) (p : Page) (o : Nat) (v : Nat) : State :=
  setPreg (setPreg s p o (BitVec.ofNat 32 v)) p (o + 4) (BitVec.ofNat 32 (v / 2 ^ 32))

/-- Sets bits of a register. -/
def orPreg (s : State) (p : Page) (o : Nat) (m : W32) : State := setPreg s p o (preg s p o ||| m)

/-- Clears bits of a register. -/
def clrPreg (s : State) (p : Page) (o : Nat) (m : W32) : State := setPreg s p o (preg s p o &&& ~~~m)

/-- A CNT register counts `n` events, saturating (03 R85). -/
def cntPreg (s : State) (p : Page) (o n : Nat) : State := setPreg s p o (satAdd (preg s p o) n)

/-- A CNT register pair counts `n` events, saturating (03 R85). -/
def cntPreg64 (s : State) (p : Page) (o n : Nat) : State := setPreg64 s p o (min (preg64 s p o + n) (2 ^ 64 - 1))

/-- CTRL.ENABLE of a page. -/
def enabled (s : State) (p : Page) : Bool := bit (preg s p 8) 0

/-- CTRL.FENCE of a page (03 R83). -/
def fenced (s : State) (p : Page) : Bool := bit (preg s p 8) 1

/-- A word with bit `i` alone. -/
def one32 (i : Nat) : W32 := BitVec.ofNat 32 (2 ^ i)

/-- Sends something outside. -/
def emit (s : State) (o : Out) : State := { s with out := s.out ++ [o] }

/-- A condition on a state update. -/
def when (b : Bool) (g : State → State) (s : State) : State := if b then g s else s

/-! ## Access to the vectors of units -/

def State.core (s : State) (i : Fin 256) : Core := s.cores.get i

def State.setCoreRaw (s : State) (i : Fin 256) (c : Core) : State := { s with cores := s.cores.set i c }

def State.cl (s : State) (i : Fin 16) : Cluster := s.clusters.get i

def State.setCl (s : State) (i : Fin 16) (c : Cluster) : State := { s with clusters := s.clusters.set i c }

def State.slice (s : State) (i : Fin 16) : Slice := s.slices.get i

def State.setSlice (s : State) (i : Fin 16) (c : Slice) : State := { s with slices := s.slices.set i c }

def State.port (s : State) (i : Fin 8) : Port := s.ports.get i

def State.setPort (s : State) (i : Fin 8) (c : Port) : State := { s with ports := s.ports.set i c }

/-! ## Interrupts (09 R377 to R380) -/

/-- INT_STAT AND INT_EN of a page. -/
def pageIrq (s : State) (p : Page) : W32 := preg s p 0x30 &&& preg s p 0x34

/-- The OR over all pages of INT_STAT AND INT_EN (R380). INT_STAT resets to 0, so only listed registers count. -/
def irqOr (s : State) : Bool :=
  s.regs.any fun e => decide (e.1 % 0x1000 = 0x30) &&
    (match pageAt e.1 with
      | some p => !(decide (pageIrq s p = 0))
      | none => false)

/-- Host context of a partition, SD_PART_CTX (04 R150). -/
def ctxOfPart (s : State) (part : Nat) : Nat := preg64 s .sd 0x108 / 16 ^ part % 16

/-- Partition of a cluster, SD_PART_MAP (04 R110). -/
def partOfCluster (s : State) (cl : Nat) : Nat := preg64 s .sd 0x100 / 16 ^ cl % 16

/-- Cluster of a core (01 R19): 4 by 4 blocks of the 16 by 16 array. -/
def clusterOf (id : Fin 256) : Fin 16 := fin 16 (id.val / 64 * 4 + id.val % 16 / 4)

/-- Partition of a core: the latched number out of RESET, else that of its cluster (04 R110). -/
def partOf (s : State) (id : Fin 256) : Nat :=
  if (s.core id).st = .reset then partOfCluster s (clusterOf id).val else (s.core id).part.toNat

/-- The MSI-X vectors that a page drives (R377). For the SD page, those of the partitions whose ERR_STAT bit is set. -/
def vectorsOf (s : State) : Page → List (Fin 32)
  | .fc => [0]
  | .ep => [1]
  | .td => [2]
  | .lb | .gp => [3]
  | .dev | .bt | .al | .pl => [4]
  | .xb | .vt | .lw | .fm | .ml => [5]
  | .dc _ => [6]
  | .mc _ => [7]
  | .xl _ => [8]
  | .gc id => [fin 32 (16 + ctxOfPart s (partOf s id))]
  | .cl n => [fin 32 (16 + ctxOfPart s (partOfCluster s n.val))]
  | .sd => (((List.range 16).filter fun q => bit (preg s .sd 0x10) q).map fun q => fin 32 (16 + ctxOfPart s q)).dedup

/-- An MSI-X message must wait: a write of the device has not received GO or has not been sent (R384), or the link is in Recovery (R402). It waits
for every write that is out, later ones too (assumption 54). -/
def msixHeld (s : State) : Bool :=
  (s.cxl.d2h.any fun d => d.w.isSome) || !s.cxl.wq.isEmpty || !s.cxl.msixQ.isEmpty || decide (s.cxl.link = .recovery)

/-- Sends a vector's message, or sets its PBA bit while it is masked (R378). No interrupt leaves in D3hot (R381) or
while the link is down. -/
def sendMsix (s : State) (v : Fin 32) : State :=
  if !s.cxl.msixEn || s.cxl.d3hot then s
  else if s.cxl.funcMask || bit (preg s .ep (0x80C + 16 * v.val)) 0 then orPreg s .ep 0xA00 (one32 v.val)
  else if s.cxl.link = .down then s
  else if msixHeld s then { s with cxl := { s.cxl with msixQ := s.cxl.msixQ ++ [v] } }
  else emit s (.msix v)

/-- Sends Assert_INTA or Deassert_INTA where the OR asks for it (R380). -/
def updateInta (s : State) : State :=
  let want := irqOr s && !s.cxl.msixEn && !s.cxl.intDisable && !s.cxl.d3hot
  if want = s.cxl.inta then s else { emit s (.inta want) with cxl := { s.cxl with inta := want } }

/-- A page's interrupt follows a change of INT_STAT or INT_EN: a bit of their AND that becomes 1 raises it (R377). -/
def irqEdge (p : Page) (old : W32) (s : State) : State :=
  updateInta (if pageIrq s p &&& ~~~old = 0 then s else (vectorsOf s p).foldl sendMsix s)

/-- Sets INT_STAT bit `b` of a page. -/
def raiseInt (s : State) (p : Page) (b : Nat) : State :=
  irqEdge p (pageIrq s p) (orPreg s p 0x30 (one32 b))

/-! ## GO fields and page errors -/

/-- A GO action completes: its bit clears, its GO_DONE bit is set, and INT_STAT.DONE (03 R86). -/
def goDone (s : State) (p : Page) (o b : Nat) : State :=
  let s := clrPreg s p o (one32 b)
  match goIndex p o b with
  | some j => raiseInt (orPreg s p 0x40 (one32 j)) p 2
  | none => s

/-- A write that the page has rejected already is rejected for a further cause: the cause bit alone, since no further write was rejected
(03 R92). -/
def pageErrMore (s : State) (p : Page) (mask : Nat) : State := raiseInt (orPreg s p 0x3C (BitVec.ofNat 32 mask)) p 1

/-- A rejected write of offset `o` sets the cause bits of `mask` (03 R92). -/
def pageErr (s : State) (p : Page) (mask : Nat) (o : Nat) : State :=
  let pe := preg s p 0x3C
  let pe' := if fld pe 0 7 = 0 then setFld pe 8 12 o else setBit pe 31 true
  raiseInt (setPreg s p 0x3C (pe' ||| BitVec.ofNat 32 mask)) p 1

/-- CTRL.ENABLE, or a cache's enable, written 1 is refused: ENABLE_REJ; `again` where the same write was rejected for another cause (03 R92). -/
def rejectEnable (s : State) (p : Page) (o : Nat) (again : Bool) : State :=
  let s1 := clrPreg s p o 1
  if again then pageErrMore s1 p 64 else pageErr s1 p 64 o

/-! ## The logbook's input queue (13 R552, R553) -/

/-- Offers an entry; one offered to a full queue is lost. -/
def offerEntry (s : State) (e : BitVec 256) : State :=
  if s.lb.inq.length < 256 then { s with lb := { s.lb with inq := s.lb.inq ++ [e] } }
  else { cntPreg s .lb 0x11C 1 with lb := { s.lb with lost := satAdd s.lb.lost 1 } }

/-- Offers an entry of a kind: bytes 0 to 15, bytes 26 to 28, bytes 30 and 31. Step and phase are added when it is
written. -/
def offer (s : State) (kind : Nat) (payload : Nat) (b26 : Nat := 0) (b30 : Nat := 0) : State :=
  offerEntry s (BitVec.ofNat 256 (payload % 2 ^ 128 + (b26 % 2 ^ 24) * 2 ^ 208 + (kind % 256) * 2 ^ 232
    + (b30 % 2 ^ 16) * 2 ^ 240))

/-- KIND of an entry (13 R553). -/
def entryKind (e : BitVec 256) : Nat := fld e 232 8

/-- Place of an entry among those offered in one hub cycle (13 R552): fault records, then by ID.TYPE and ID.INSTANCE of the page that
produces the kind (13 R554); an entry of a port tells its port in byte 5. -/
def entryRank (e : BitVec 256) : Nat :=
  match entryKind e with
  | 0 => 0
  | 1 => 256 * pageType .fc + 1
  | 2 => 256 * pageType .sd + 1
  | 3 => 256 * pageType .ep + 1
  | 4 => 256 * pageType (.xl 0) + 1 + fld e 40 8
  | 5 => 256 * pageType .pl + 1
  | 6 => 256 * pageType .gp + 1
  | 9 => 256 * pageType .bt + 1
  | 13 => 256 * pageType .td + 1
  | _ => 256 * pageType .lb + 1

/-- Puts an entry in its place, behind those of the same rank. -/
def insertEntry (e : BitVec 256) : List (BitVec 256) → List (BitVec 256)
  | [] => [e]
  | x :: l => if entryRank e < entryRank x then e :: x :: l else x :: insertEntry e l

/-- The entries offered in one hub cycle are queued in the order of 13 R552: `old` entries were queued before it. -/
def entriesInOrder (old : Nat) (s : State) : State :=
  { s with lb := { s.lb with inq := s.lb.inq.take old ++ (s.lb.inq.drop old).foldl (fun l e => insertEntry e l) [] } }

/-! ## BOOT entries (15 R636) -/

/-- A BOOT entry: event, subject, result, and bytes 4 to 11. -/
def logBootWith (s : State) (event subject result detail : Nat) : State :=
  offer s 9 (event % 256 + subject % 256 * 2 ^ 8 + result % 256 * 2 ^ 16 + detail % 2 ^ 64 * 2 ^ 32)

/-- A BOOT entry whose detail is the time in µs since the reset, which the model does not keep: a free value (assumption 8). -/
def logBoot (s : State) (event subject result : Nat) : State :=
  logBootWith { s with fresh := s.fresh + 1 } event subject result (Config.freeTime s.fresh).toNat

/-- The tick it is, step and phase; none while the TD page is disabled and no tick passes (02 R33, R46). -/
def tickNow (s : State) : Option (BitVec 48 × BitVec 26) := if s.tide.mode = .disabled then none else some (s.tide.step, s.tide.phase)

/-! ## Errors (03 R91, 12 R504 to R510) -/

/-- The recovery level of a source (12 R531); `l5` marks a GC EXC with cause GLOBAL_ERR or POISON. -/
def levelOf (p : Page) (src : Nat) (l5 : Bool) : Nat :=
  match p with
  | .xl _ => nth [0, 0, 0, 1, 1, 2, 4, 5, 0, 0, 5, 4, 0, 0, 0, 0, 0, 3] src 0
  | .ep => nth [0, 5, 0, 2, 3, 4] src 0
  | .gc _ => if src = 0 && l5 then 5 else 0
  | _ => 0

/-- CHECK of a message: CRC-8 over bits [55:0] and [127:64], lowest byte first (12 R505). -/
def msgCheck (m : BitVec 128) : Byte :=
  crc8 (natBytes 7 m.toNat ++ natBytes 8 (m.toNat / 2 ^ 64))

/-- A message with its CHECK (12 R505). -/
def mkMsg (typ inst src sev corr level addr : Nat) (inj : Bool) : BitVec 128 :=
  let m := BitVec.ofNat 128 (src % 32 + (sev % 4) * 2 ^ 5 + b2n inj * 2 ^ 7 + (inst % 256) * 2 ^ 8 + (typ % 65536) * 2 ^ 16
    + (corr % 65536) * 2 ^ 32 + (level % 8) * 2 ^ 48 + (addr % 2 ^ 64) * 2 ^ 64)
  setFld m 56 8 (msgCheck m).toNat

/-- Severity of a source in force (12 R509: a fixed source is fatal). -/
def sevOf (s : State) (p : Page) (src : Nat) : Nat :=
  if fixedMask p / 2 ^ src % 2 = 1 then 3
  else if src < 16 then fld (preg s p 0x18) (2 * src) 2 else fld (preg s p 0x1C) (2 * (src - 16)) 2

/-- A source is masked; a fixed source never is. -/
def maskedSrc (s : State) (p : Page) (src : Nat) : Bool :=
  bit (preg s p 0x14) src && !(decide (fixedMask p / 2 ^ src % 2 = 1))

/-- The link whose episode a page's messages belong to. -/
def linkOfPage : Page → Option LinkId
  | .xl n => some (.port n)
  | .ep => some .cxl
  | _ => none

/-- The tag of a link's episode, from its start until 2 steps after its end; 0 for none (12 R532). -/
def corrOf (s : State) (l : LinkId) : Nat :=
  match s.fc.episodes.find? fun e => decide (e.link = l) &&
      (match e.ended with | none => true | some k => decide ((s.tide.step - k).toNat ≤ 2)) with
  | some e => e.tag.toNat
  | none => 0

/-- The tag a page's message carries: its own `corr`, else that of its link's episode. -/
def corrFor (s : State) (p : Page) (corr : Nat) : Nat :=
  if corr = 0 then (match linkOfPage p with | some l => corrOf s l | none => 0) else corr

/-- A page detects an error: ERR_STAT, ERR_FIRST, ERR_ADDR, ERR_CNT (03 R91). -/
def noteErr (s : State) (p : Page) (src addr : Nat) : State :=
  let first := preg s p 0x20
  let s1 := cntPreg (orPreg s p 0x10 (one32 src)) p 0x24 1
  if bit first 31 then setPreg s1 p 0x20 (setBit first 30 true)
  else setPreg64 (setPreg s1 p 0x20 (BitVec.ofNat 32 (2 ^ 31 + src % 32))) p 0x28 addr

/-- A page detects an error: its latches, and unless the source is masked INT_STAT.ERR and a message to the collector (03 R91, 12 R505). -/
def raiseErrX (s : State) (p : Page) (src addr corr : Nat) (l5 inj : Bool) : State :=
  let s2 := noteErr s p src addr
  if maskedSrc s p src then s2
  else
    let m := mkMsg (pageType p) (pageInst p) src (sevOf s p src) (corrFor s p corr) (levelOf p src l5) addr inj
    raiseInt { s2 with fc := { s2.fc with coming := s2.fc.coming ++ [m] } } p 0

/-- A page detects an error with the address or index its chapter attaches to it. -/
def raiseErr (s : State) (p : Page) (src : Nat) (addr : Nat := 0) : State := raiseErrX s p src addr 0 false false

/-- A page detects several errors in one cycle: the lowest-numbered source is met first, so that it is the one latched (03 R91). -/
def raiseErrs (s : State) (p : Page) (l : List Nat) : State := ((List.range 32).filter l.contains).foldl (fun t k => raiseErr t p k) s

/-! ## Writing a register by its access codes (03 R85 to R94) -/

/-- Conditions that lock a page's RWL fields (R88). -/
def rwlLocked (s : State) (p : Page) (o : Nat) : Bool :=
  match p with
  | .dev => (List.range 8).any fun n => enabled s (.xl (fin 8 n))
  | .cl _ => bit (preg s p 0x300) 0
  | .fm => bit (preg s p (0x100 + (o - 0x100) / 0x20 * 0x20)) 0
  | .ep => if o = 0x118 ∨ o = 0x11C ∨ o = 0x120 then bit (preg s p 0x120) 8 else enabled s p
  | .xl n =>
    if 0x400 ≤ o ∧ o < 0x600 then enabled s p && (decide (0x500 ≤ o) == (s.port n).bank)
    else enabled s p
  | _ => enabled s p

/-- What a write of one register comes to: the new value, the rejections (bits of PAGE_ERR), the GO bits started. -/
structure Wr where
  new : W32
  rej : Nat
  go  : W32
  deriving DecidableEq, Repr

/-- One field of a written register takes the written word by its access code. `same`: what hardware has done to the register in the same cycle
(R90): the W1C and RWL bits it has set, or the number of events a CNT register has counted. -/
def wrField (locked : Bool) (v same : W32) (a : Wr) (x : Fld) : Wr :=
  let old := fld a.new x.lo x.w
  let val := fld v x.lo x.w
  let ok := decide (x.least ≤ val) && decide (val ≤ x.most)
  match x.acc with
  | .rw => if ok then { a with new := setFld a.new x.lo x.w val } else { a with rej := a.rej ||| 16 }
  | .ro => a
  | .w1c => { a with new := a.new &&& ~~~(v &&& ~~~same &&& BitVec.ofNat 32 ((2 ^ x.w - 1) * 2 ^ x.lo)) }
  | .go =>
    if val = 0 then a
    else if old = 0 then { a with new := setFld a.new x.lo x.w 1, go := a.go ||| one32 x.lo }
    else { a with rej := a.rej ||| 32 }
  | .cnt => { a with new := setFld a.new x.lo x.w (satAdd (BitVec.ofNat 32 val) same.toNat).toNat }
  | .rwl =>
    if fld same x.lo x.w ≠ 0 then { a with rej := a.rej ||| 1 }
    else if val = old then a
    else if locked then { a with rej := a.rej ||| 1 ||| (if ok then 0 else 16) }
    else if ok then { a with new := setFld a.new x.lo x.w val }
    else { a with rej := a.rej ||| 16 }

/-- Encodings reserved by a relation between the written fields: XL_BERTH_SPLIT (10 R426) and GC_CHANc_CFG (04 R135). The fields of
the relation keep their values. -/
def crossCheck (p : Page) (o : Nat) (old v : W32) (a : Wr) : Wr :=
  match p with
  | .xl _ =>
    if o = 0x120 ∧ ¬ (fld v 0 6 + fld v 8 6 + fld v 16 6 = 32 ∧ 1 ≤ fld v 0 6 ∧ 1 ≤ fld v 16 6)
    then { a with new := old, rej := a.rej ||| 16 } else a
  | .gc _ =>
    if 0x140 ≤ o ∧ o < 0x1C0 ∧ o % 8 = 0 ∧ 16 < fld v 16 4 + fld v 20 5
    then { a with new := setFld a.new 16 9 (fld old 16 9), rej := a.rej ||| 16 } else a
  | _ => a

/-- What a write leaves in ERR_FIRST, FC_FIRST and PAGE_ERR beside the W1C bits: clearing VALID clears OVF and SOURCE
(R91, 12 R511), and FIRST_OFF reads 0 once bits [6:0] are clear (R92). Fixed severities and masks stay (12 R509). -/
def wrFix (p : Page) (o : Nat) (v new : W32) : W32 :=
  if o = 0x20 then (if bit v 31 then 0 else new)
  else if o = 0x3C then (if fld new 0 7 = 0 then setFld new 8 12 0 else new)
  else if o = 0x14 then new &&& ~~~(BitVec.ofNat 32 (fixedMask p))
  else if o = 0x18 then new ||| BitVec.ofNat 32 (sevPack ((List.range 16).map fun k => if fixedMask p / 2 ^ k % 2 = 1 then 3 else 0))
  else if o = 0x108 ∧ p = .fc then (if bit v 31 then 0 else new)
  else new

/-- The write of one register of the table, without what the page's chapter makes of it. -/
def wrReg (s : State) (p : Page) (o : Nat) (row : RegRow) (v same : W32) : Wr :=
  let old := preg s p o
  let a := row.flds.foldl (wrField (rwlLocked s p o) v same) ⟨old, 0, 0⟩
  let b := crossCheck p o old v a
  { b with new := wrFix p o (v &&& ~~~same) b.new }

/-- The W1C bits of the registers that a page lock leaves writable (R94), by the common layout of R82. -/
def lockW1c (o : Nat) : W32 :=
  match o with
  | 0x10 | 0x40 => 0xFFFFFFFF
  | 0x20 => 0xC0000000
  | 0x30 => 0xFFFF0007
  | 0x3C => 0x8000007F
  | _ => 0

/-- A write that a page lock lets through: to SCRATCH, or of a 1 to a W1C bit of the registers above (R94). -/
def lockExempt (o : Nat) (v : W32) : Bool := decide (o = 0x38) || !(decide (v &&& lockW1c o = 0))

/-- A write that reached a register: the state after it, the GO bits started, whether the page took it, and whether it rejected any part. -/
structure Written where
  st  : State
  go  : W32
  ok  : Bool
  rej : Bool

/-- Stores the outcome of a write and records what it rejected; a change of INT_STAT or INT_EN moves the interrupt. -/
def wrStore (s : State) (p : Page) (o : Nat) (a : Wr) : State :=
  let s1 := setPreg s p o a.new
  let s2 := if p = .fc ∧ o = 0x108 ∧ a.new = 0 then setPreg s1 p 0x10C 0 else s1
  let s3 := irqEdge p (pageIrq s p) s2
  if a.rej = 0 then s3 else pageErr s3 p a.rej o

/-- A 4-byte write to a register of a page (R78, R85, R94, R96): page lock first, then the reserved offsets, then the access
codes. A write of _LO is staged; a write of _HI commits both halves. The staging register keeps the word that was staged, also where the
committed lower half was rejected: the model's choice (assumption 38). `same`: what hardware does to the register in the same cycle (R90). -/
def pageWrite (s : State) (p : Page) (o : Nat) (v : W32) (same : W32 := 0) : Written :=
  if bit (preg s p 0x44) 0 && !(lockExempt o v) then ⟨pageErr s p 2 o, 0, false, true⟩
  else match rowOf p o with
    | none => ⟨pageErr s p 4 o, 0, true, true⟩
    | some row =>
      if row.pair then ⟨{ s with staged := sset (fun _ => 0) s.staged (pageBase p + o) v }, 0, true, false⟩
      else match (if o < 4 then none else rowOf p (o - 4)) with
        | some lo =>
          if lo.pair then
            let low := sget (fun _ => 0) s.staged (pageBase p + o - 4)
            let more : Nat := if lo.flds.any (fun x => decide (x.acc = .cnt)) then same.toNat else 0
            let a := wrReg s p (o - 4) lo (low + BitVec.ofNat 32 more) 0
            let b := wrReg s p o row v (if more = 0 then same else BitVec.ofNat 32 ((low.toNat + more) / 2 ^ 32))
            let rej := a.rej ||| b.rej
            ⟨wrStore (setPreg s p (o - 4) a.new) p o { b with rej := rej }, b.go, true, decide (rej ≠ 0)⟩
          else
            let a := wrReg s p o row v same
            ⟨wrStore s p o a, a.go, true, decide (a.rej ≠ 0)⟩
        | none =>
          let a := wrReg s p o row v same
          ⟨wrStore s p o a, a.go, true, decide (a.rej ≠ 0)⟩

/-- A GO bit was started by a write. -/
def Written.started (w : Written) (b : Nat) : Bool := bit w.go b

/-- A write with an action when GO bit `b` starts, the action completing at once (R86). -/
def pageWriteGo (s : State) (p : Page) (o : Nat) (v : W32) (b : Nat) (g : State → State) : State :=
  let w := pageWrite s p o v
  if w.started b then goDone (g w.st) p o b else w.st

/-! ## Free values -/

/-- The next free value's number, and the state that has used it (assumption 8). -/
def takeFresh (s : State) : Nat × State := (s.fresh, { s with fresh := s.fresh + 1 })

/-! ## Writes that leave the device (09 R391 to R393) -/

/-- The master has had a write discarded and has not been reset since (R393): masters 0 to 15 are the
clusters, through which cores write, 16 to 31 the movers, 32 the hub control cores (06 R259); mailbox responses go under
33 (assumption 16). -/
def discarding (s : State) (master : Nat) (core : Fin 256) : Bool :=
  if master < 16 then s.frz.cores.getLsbD core.val
  else if master < 32 then s.frz.movers.getLsbD (master - 16)
  else if master = 32 then s.frz.hub
  else false

/-- Marks a master as one with a discarded write. -/
def markDiscard (z : Frz) (master : Nat) (core : Fin 256) : Frz :=
  if master < 16 then { z with cores := setBit z.cores core.val true }
  else if master < 32 then { z with movers := setBit z.movers (master - 16) true }
  else if master = 32 then { z with hub := true }
  else z

/-- Lists a discarded write in the freeze report, or in EP_FRZ_SUM when the report is full, and in the logbook (R392). -/
def listDiscard (s : State) (w : HeldWrite) : State :=
  let line := w.addr.toNat / 64
  let lo := w.addr.toNat % 64
  let mask : BitVec 64 := BitVec.ofNat 64 ((2 ^ (min w.bytes.length (64 - lo)) - 1) * 2 ^ lo)
  let e : FrzEnt := ⟨w.master, w.core, BitVec.ofNat 58 line, mask, w.peer⟩
  let core := fin 256 w.core.toNat
  let z := markDiscard s.frz w.master.toNat core
  let z1 := match w.response with | some k => { z with lostResp := z.lostResp ++ [k] } | none => z
  let s1 := if z1.report.length < 2048 then { s with frz := { z1 with report := z1.report ++ [e] } }
    else
      let s2 := { s with frz := { z1 with summary := true } }
      if w.master.toNat < 16 then orPreg s2 .ep (0x180 + 4 * (core.val / 32)) (one32 (core.val % 32))
      else if w.master.toNat < 32 then orPreg s2 .ep 0x1A0 (one32 (w.master.toNat - 16))
      else if w.master.toNat = 32 then orPreg s2 .ep 0x1A0 (one32 16)
      else s2
  offer s1 3 (mask.toNat + (line * 64) * 2 ^ 64) (w.master.toNat + w.core.toNat * 2 ^ 8 + b2n w.peer * 2 ^ 16)

/-- The D2H request a write goes out as (R366): DirtyEvict for the line a slice evicts, ItoMWr for a whole line; part of one goes as WrCur
while caching is disabled, and is merged into the line that RdOwn brings otherwise (assumption 15). -/
def writeOp (s : State) (w : HeldWrite) : BitVec 4 :=
  if 42 ≤ w.master.toNat then 6
  else if w.bytes.length = 64 then 4
  else if s.cxl.disCache then 5 else 2

/-- The link runs in CXL mode, at 32 GT/s or above: below that, and in RECOVERY, the device runs CXL.io alone (R363; 15 R627). -/
def cxlMode (s : State) : Bool := !(decide (s.cxl.link = .down)) && decide (2 ≤ fld (preg s .ep 0x100) 5 3) && !s.boot.recovery

/-- An earlier CXL.cache write of a master is not yet done (R384). -/
def earlierWrite (s : State) (master : BitVec 6) : Bool :=
  (s.cxl.d2h.any fun d => match d.w with | some x => decide (x.master = master) | none => false)
    || s.cxl.wq.any fun x => decide (x.master = master) && !x.peer

/-- A write of one stream of a master is not visible yet: it has not received GO, or waits (06 R237, R238, R247). -/
def streamBusy (s : State) (master stream : Nat) : Bool :=
  let mine (w : HeldWrite) : Bool := decide (w.master.toNat = master) && decide (w.core.toNat = stream)
  (s.cxl.d2h.any fun d => match d.w with | some w => mine w | none => false) || s.cxl.wq.any mine

/-- A write leaves: a posted write to a peer is sent, one to the host is outstanding until GO, or until RdOwn brings its line. -/
def issueWrite (s : State) (w : HeldWrite) : State :=
  if w.peer then emit s (.peerWrite w.addr w.bytes (w.relaxed && s.cxl.relaxEn))
  else
    let d : D2h := ⟨writeOp s w, BitVec.ofNat 46 (w.addr.toNat / 64), fin 58 w.master.toNat, fin 256 w.core.toNat, some w, false⟩
    emit { s with cxl := { s.cxl with d2h := s.cxl.d2h ++ [d] } }
      (if d.op = 2 then .d2h 2 d.line else .hostWrite w.addr w.bytes w.relaxed w.poison)

/-- A device write towards the host or a peer. During a freeze it is discarded and listed, but for the response line of a FROZEN answer,
which is held (R391, R392); a master that has had one discarded has every later one discarded (R393). Else it is sent, once the
earlier writes of its master have received GO unless it is relaxed (R384), and once the link is up. Empty writes send nothing. -/
def sendWrite (s : State) (w : HeldWrite) : State :=
  if w.bytes.isEmpty then s
  else if w.frozenResp && s.frz.on then { s with frz := { s.frz with held := s.frz.held ++ [w] } }
  else if s.frz.on || discarding s w.master.toNat (fin 256 w.core.toNat) then listDiscard s w
  else if s.cxl.link = .down ∨ (w.peer = false ∧ cxlMode s = false) ∨ (w.relaxed = false ∧ w.peer = false ∧ earlierWrite s w.master = true) then
    { s with cxl := { s.cxl with wq := s.cxl.wq ++ [w] } }
  else issueWrite s w

/-- Sends the waiting writes that may go, oldest first (R384). -/
def drainWrites (s : State) : State :=
  if s.cxl.link = .down then s
  else s.cxl.wq.foldl sendWrite { s with cxl := { s.cxl with wq := [] } }

/-- The MSI-X messages that waited leave, in order. -/
def flushMsix (s : State) : State :=
  let t := { s with cxl := { s.cxl with msixQ := [] } }
  if s.cxl.msixQ.isEmpty || s.cxl.d3hot || decide (s.cxl.link = .down) || msixHeld t then s
  else s.cxl.msixQ.foldl (fun u v => emit u (.msix v)) t

/-- The cluster clocks, the movers, dispatch and the placement loop stand: the safe state (12 R520), or a PERST_N reset being prepared (15
R622). -/
def stopped (s : State) : Bool := s.fc.safe || s.boot.preparing

/-! ## Core updates and the standstill detector's view of them (04 R146, R148) -/

/-- Replaces a core; a change of its state, wait cause or wait target is noted for the detector, and a core that leaves its
wait clears its partition's SD_STILL bit (R148). -/
def State.setCore (s : State) (id : Fin 256) (c : Core) : State :=
  let o := s.core id
  let q := partOf s id
  let s1 := s.setCoreRaw id c
  if o.st = c.st ∧ o.cause = c.cause ∧ o.target = c.target then s1
  else
    let s2 := { s1 with sdChanged := setBit s1.sdChanged q true }
    if o.st = .wait ∧ (c.st ≠ .wait ∨ o.cause ≠ c.cause) then clrPreg s2 .sd 0x118 (one32 q) else s2

/-- A GC_KICK, an injected message or a reset acts on a core: it counts as a change for the detector (04 R164). -/
def sdTouch (s : State) (id : Fin 256) : State := { s with sdChanged := setBit s.sdChanged (partOf s id) true }

/-! ## Readiness (03 R97; 09 R365; 15 R635) -/

/-- A page whose CTRL.FENCE is 1. FENCE resets to 0, so only listed registers count. -/
def anyFenced (s : State) : Bool :=
  s.regs.any fun e => decide (e.1 % 0x1000 = 8) && bit e.2 1 && (pageAt e.1).isSome

/-- CXL_UP: the link is up in CXL mode at 32 GT/s or above, and both enables are set. Link-layer replay runs in L0. -/
def cxlUp (s : State) : Bool :=
  (decide (s.cxl.link = .l0) || decide (s.cxl.link = .l1) || decide (s.cxl.link = .replay)) && decide (2 ≤ fld (preg s .ep 0x100) 5 3)
    && s.cxl.cacheEn && s.cxl.memEn

/-- PORTS_UP: some port is enabled, and every enabled one is UP (assumption 25). -/
def portsUp (s : State) : Bool :=
  let on := (List.finRange 8).filter fun n => enabled s (.xl n)
  !on.isEmpty && on.all fun n => decide ((s.port n).st = .up)

/-- DEV_READY: FW_UP, BIST_DONE and HBM_UP as the register holds them, the other bits from the units. In RECOVERY it reads 0 (15 R627). -/
def devReady (s : State) : W32 :=
  if s.boot.recovery then 0
  else
    let held := fld (preg s .dev 0x104) 0 3
    let up := cxlUp s
    BitVec.ofNat 32 (held + b2n up * 8 + b2n (decide (s.tide.mode = .locked) || decide (s.tide.mode = .master)) * 16 + b2n (portsUp s) * 32
      + b2n (anyFenced s) * 64 + b2n (decide (held = 7) && up) * 2 ^ 31)

/-- Each DEV_READY bit that has become 1 has a BOOT entry, lowest first (15 R636). -/
def readyLog (s : State) : State :=
  let now := devReady s
  (List.range 32).foldl (fun t i => if bit now i && !(bit s.boot.ready i) then logBoot t 7 i 0 else t)
    { s with boot := { s.boot with ready := now } }

/-- An operation that may change readiness, with its BOOT entries. -/
def withReady (g : State → State) (s : State) : State := readyLog (g s)

/-- ALIVE runs (12 R522). -/
def aliveRuns (s : State) : Bool := bit (preg s .dev 0x104) 0 && enabled s .fc && !s.fc.aliveStopped

/-- An operation that may start or stop ALIVE. -/
def withAlive (g : State → State) (s : State) : State :=
  let t := g s
  if aliveRuns t = aliveRuns s then t else emit t (.alive (aliveRuns t))

/-- TD_STAT.STATE of a mode (02 R48). -/
def modeCode : TideMode → Nat
  | .hunt => 0
  | .locked => 1
  | .holdover => 2
  | .freerun => 3
  | .halted => 4
  | .master => 5
  | .disabled => 6

/-- TD_STAT.STATE changes, with its TIDE entry (13 R554). -/
def setMode (s : State) (m : TideMode) : State :=
  if s.tide.mode = m then s
  else withReady (fun t => offer { t with tide := { t.tide with mode := m } } 13 (modeCode t.tide.mode + modeCode m * 256)) s

/-- DEV_FLEET_ID.FLEET_ID. -/
def fleetId (s : State) : Nat := fld (preg s .dev 0x100) 0 8

/-- Global core address of a core of this device (01 R20). -/
def gcAddr (s : State) (id : Nat) : W16 := BitVec.ofNat 16 (fleetId s * 256 + id)

end Sys2Proof.Machine
end

