-- ==== Sys2Proof/Machine/CrossOps.lean ====
section
/-! DEFINITION. The crossing transport's shared operations: control words, bundles and their cells, assembly buffers, loss and fencing
of a port, forwarding, and the fleet-abort word (10). -/

namespace Sys2Proof.Machine

/-- Page of a port. -/
def xlPage (n : Fin 8) : Page := .xl n

/-- XL_STAT.STATE changes, with STATE_CHANGE (10 R451). -/
def setPortState (s : State) (n : Fin 8) (st : PortState) : State :=
  if (s.port n).st = st then s
  else withReady (fun t => raiseInt (t.setPort n { t.port n with st := st }) (.xl n) 16) s

/-- The route entry of a fleet ID (R448): none where it is not valid. -/
def routeOf (s : State) (fleet : Nat) : Option (Fin 8) :=
  let b := fld (preg s (.xl 0) (0x800 + fleet / 4 * 4)) (8 * (fleet % 4)) 8
  if b / 128 % 2 = 1 then some (fin 8 b) else none

/-- A control word from its type and the fields above it (R419). -/
def ctrlWord (typ : Nat) (fields : Nat) : BitVec 128 := BitVec.ofNat 128 (typ % 16 + fields)

/-- FARE word (R419). -/
def fareWord (dst : W16) (chan epoch : BitVec 4) : BitVec 128 :=
  ctrlWord 4 (dst.toNat * 2 ^ 8 + chan.toNat * 2 ^ 24 + epoch.toNat * 2 ^ 28)

/-- ABORT word (R419). -/
def abortWord (origin : Byte) (step : W32) (cause : Byte) : BitVec 128 :=
  ctrlWord 8 (origin.toNat * 2 ^ 4 + step.toNat * 2 ^ 12 + cause.toNat * 2 ^ 44)

/-- CREDIT word of a port: its freed counts (R419). -/
def creditWord (p : Port) : BitVec 128 :=
  ctrlWord 1 ((p.freed.get 0).toNat * 2 ^ 8 + (p.freed.get 1).toNat * 2 ^ 16 + (p.freed.get 2).toNat * 2 ^ 24)

/-- ACK, NAK and REPLAY words with a count (R419). -/
def ackWord (p : Port) : BitVec 128 := ctrlWord 2 (p.accepted.toNat * 2 ^ 16)

def nakWord (p : Port) : BitVec 128 := ctrlWord 3 (p.accepted.toNat * 2 ^ 16)

def replayWord (count : W16) : BitVec 128 := ctrlWord 11 (count.toNat * 2 ^ 4)

/-- The phase in 1/64 tk (02 R40). -/
def phase64 (s : State) : Nat := s.tide.phase.toNat * 64 + s.tide.frac.toNat

/-- TIDE word of this step (02 R47, R419). -/
def tideWord (s : State) : BitVec 128 :=
  let g := if s.tide.grain4 then 4 else 1
  let free := decide (s.tide.mode = .freerun) || (decide (s.tide.mode = .master) && !s.tide.refOk)
  ctrlWord 5 (s.tide.step.toNat * 2 ^ 4 + (s.tide.len.toNat / g - 1) % 2 ^ 24 * 2 ^ 52 + b2n s.tide.grain4 * 2 ^ 76
    + b2n (decide (s.tide.mode = .holdover)) * 2 ^ 77 + b2n free * 2 ^ 78
    + min (s.tide.hops.toNat + 1) 15 * 2 ^ 79 + phase64 s % 2 ^ 32 * 2 ^ 83)

/-- IDENT words of a port (R419, R420). -/
def identWords (s : State) (n : Fin 8) : List (BitVec 128) :=
  let sp := preg s (.xl n) 0x120
  [ctrlWord 9 (fleetId s * 2 ^ 4 + n.val * 2 ^ 12 + fld sp 0 6 * 2 ^ 15 + fld sp 8 6 * 2 ^ 21 + fld sp 16 6 * 2 ^ 27 + 0xB1 * 2 ^ 33),
   ctrlWord 10 (preg64 s .dev 0x108 * 2 ^ 4)]

/-- Sends a control word that is never replayed. -/
def sendWord (s : State) (n : Fin 8) (w : BitVec 128) : State := emit s (.ctrlWord n w)

/-- Messages of a bundle, at 0 for SVC. -/
def TxBundle.count (b : TxBundle) : Nat := b.msgs.length

/-- Bytes a reliable unit holds in the replay buffer (R437). -/
def RUnit.bytes : RUnit → Nat
  | .bundle b => 64 * ((if b.svc then 1 else 5) + b.payload.length)
  | .word _ => 16

/-- XL_REPLAY_FILL: bytes held (R450). -/
def replayFill (p : Port) : Nat := (p.replayBuf.map RUnit.bytes).foldl (· + ·) 0

/-- A LOST logbook entry (13 R554): `what` 0 bundle, 1 FARE word, 2 ABORT word, 3 forwarding drop. -/
def logLost (s : State) (n : Fin 8) (dst cls seq count what : Nat) : State :=
  offer s 4 (dst % 256 + cls * 2 ^ 8 + seq % 65536 * 2 ^ 16 + count % 256 * 2 ^ 32 + n.val * 2 ^ 40 + what * 2 ^ 48)

/-- ERR_ADDR of a source that concerns a bundle: fleet ID and SEQ (R451). -/
def bundleAddr (fleet seq : Nat) : Nat := fleet % 256 + seq % 65536 * 2 ^ 8

/-- Sends a reliable control word; on a port that is not UP it is lost (R437, R447; assumption 14). -/
def sendReliable (s : State) (n : Fin 8) (w : BitVec 128) : State :=
  let p := s.port n
  if p.st = .up then
    emit (s.setPort n { p with replayBuf := p.replayBuf ++ [.word w] }) (.ctrlWord n w)
  else
    let s1 := logLost s n 0 0 0 0 (if fld w 0 4 = 8 then 2 else 1)
    raiseErr s1 (.xl n) 11 0

/-- Key of a (fleet ID, class). -/
def fcKey (fleet : Nat) (svc : Bool) : Nat := 2 * fleet + b2n svc

/-- Whole cells of a message. -/
def cellsOf (len : Nat) : Nat := (len + 63) / 64

/-- Payload cells of a message: its bytes, padded with zeros. -/
def msgCells (m : BMsg) : List (BitVec 512) :=
  (List.range (cellsOf m.len.toNat)).map fun i => BitVec.ofNat 512 (bytesNat ((m.data.drop (64 * i)).take 64))

/-- Closes the first open bundle for its destination: the next SEQ of its destination, RESYNC if it is due, and a place in the transmit
queue (R430, R447). -/
def closeBundle (s : State) (n : Fin 8) (o : OpenBundle) : State :=
  let p := s.port n
  let key := fcKey o.dst.toNat false
  let seq := sget (fun _ => 0) p.seqNext key
  let b : TxBundle :=
    { svc := false, vc := false, deadline := o.deadline, late := false, resync := sget (fun _ => false) p.resync key
      src := BitVec.ofNat 8 (fleetId s), dst := o.dst, seq := seq, hops := 0, msgs := o.msgs
      payload := o.msgs.flatMap msgCells, via := none, corr := BitVec.ofNat 16 (corrOf s (.port n)) }
  s.setPort n { p with opens := p.opens.eraseP fun x => decide (x.dst = o.dst), txq := p.txq ++ [b]
                       seqNext := sset (fun _ => 0) p.seqNext key (seq + 1)
                       resync := sset (fun _ => false) p.resync key false }

/-- It is the open bundle that takes messages for a destination. -/
def OpenBundle.accepts (o : OpenBundle) (dst : Byte) : Bool := decide (o.dst = dst) && !o.closing

/-- Every closing bundle whose payloads have all been read joins its queue, those of one destination in the order of their opening (R430,
04 R125). -/
def settleOpens (s : State) (n : Fin 8) : State :=
  (s.port n).opens.foldl (fun t o =>
    if o.closing && o.reading.isEmpty && decide ((t.port n).opens.find? (fun x => decide (x.dst = o.dst)) = some o) then closeBundle t n o
    else t) s

/-- Changes the open bundles of a port, and sends on those that are closed by it. -/
def mapOpens (s : State) (n : Fin 8) (g : OpenBundle → OpenBundle) : State :=
  settleOpens (s.setPort n { s.port n with opens := (s.port n).opens.map g }) n

/-- Closes the open bundle for a destination, if there is one (R430). -/
def closeFor (s : State) (n : Fin 8) (dst : Byte) : State :=
  mapOpens s n fun o => if o.accepts dst then { o with closing := true } else o

/-- The grain in tk (02 R35). -/
def grain (s : State) : Nat := if s.tide.grain4 then 4 else 1

/-- Offset of a slot entry's pair: the active bank's, by index (R432, R450). -/
def slotOff (bank : Bool) (i : Nat) : Nat := (if bank then 0x500 else 0x400) + 8 * i

/-- An entry of a bank: first phase, length, destination; none where it is not valid or beyond the bank's count. -/
def slotEntry (s : State) (n : Fin 8) (bank : Bool) (i : Nat) : Option (Nat × Nat × Byte) :=
  let lo := preg s (.xl n) (slotOff bank i)
  let hi := preg s (.xl n) (slotOff bank i + 4)
  let count := fld (preg s (.xl n) 0x13C) (if bank then 8 else 0) 6
  if bit hi 31 = true ∧ i < count ∧ 0 < fld hi 0 16 then some (fld lo 0 24 * grain s, fld hi 0 16, BitVec.ofNat 8 (fld hi 16 8)) else none

/-- Room for a message (R429): an open bundle for the destination, or a free assembly buffer and a credit of D0. -/
def xlRoom (s : State) (n : Fin 8) (dst : Byte) : Bool :=
  let p := s.port n
  decide (p.st = .up) &&
    ((p.opens.any fun o => o.accepts dst) || (decide (p.opens.length < 4) && decide (0 < p.credits.get 0)))

/-- Deadline of a bundle opened now for a destination: the end of its open slot (R433), which is the boundary where the slot would end
beyond the step (R455). -/
def slotDeadline (s : State) (n : Fin 8) (dst : Byte) : Option (W16 × BitVec 26) :=
  match (s.port n).slot with
  | none => none
  | some i =>
    match slotEntry s n (s.port n).bank i.val with
    | some (start, len, d) => if d ≠ dst then none
      else if s.tide.len.toNat < start + len then some (s.tide.step.setWidth 16 + 1, 0)
      else some (s.tide.step.setWidth 16, BitVec.ofNat 26 (start + len))
    | none => none

/-- A port has an open bundle for a destination, opening one against a credit of D0 (R429). The caller has seen that there is room. -/
def openFor (s : State) (n : Fin 8) (dst : Byte) : State :=
  let p := s.port n
  if p.opens.any fun o => o.accepts dst then s
  else s.setPort n { p with opens := p.opens ++ [⟨dst, slotDeadline s n dst, [], [], false⟩]
                            credits := p.credits.set 0 (p.credits.get 0 - 1) }

/-- A bundle closes with its sixteenth message (R430), those whose payload is being read included. -/
def OpenBundle.full (o : OpenBundle) : OpenBundle := if 16 ≤ o.msgs.length + o.reading.length then { o with closing := true } else o

/-- Appends a message to the open bundle of its destination (R429). -/
def xlAppend (s : State) (n : Fin 8) (dst : Byte) (m : BMsg) : State :=
  mapOpens (openFor s n dst) n fun o => if o.accepts dst then ({ o with msgs := o.msgs ++ [m] } : OpenBundle).full else o

/-- Takes a place in the open bundle of a destination for the message of a core whose payload is now read into it (R429, 04 R123). -/
def xlReserve (s : State) (n : Fin 8) (dst : Byte) (id : Fin 256) : State :=
  mapOpens (openFor s n dst) n fun o => if o.accepts dst then ({ o with reading := o.reading ++ [id] } : OpenBundle).full else o

/-- The payload of a core's message has been read: it takes its place. A port that has left UP meanwhile has lost it with its bundle
(R447). -/
def xlFill (s : State) (id : Fin 256) (m : BMsg) : State :=
  (List.finRange 8).foldl (fun t n => mapOpens t n fun o =>
    if o.reading.contains id then { o with reading := o.reading.filter (fun x => decide (x ≠ id)), msgs := o.msgs ++ [m] } else o) s

/-- A core's message is given up while its payload is read (04 R134). A bundle left with nothing gives its buffer and its credit back
(assumption 14). -/
def xlCancel (s : State) (id : Fin 256) : State :=
  (List.finRange 8).foldl (fun t n =>
    if (t.port n).opens.any fun o => o.reading.contains id then
      let l := (t.port n).opens.map fun o => { o with reading := o.reading.filter fun x => decide (x ≠ id) }
      let kept := l.filter fun o => !(o.msgs.isEmpty && o.reading.isEmpty)
      let c := (t.port n).credits
      settleOpens (t.setPort n { t.port n with opens := kept, credits := c.set 0 (c.get 0 + (l.length - kept.length)) }) n
    else t) s

/-- The pool a bundle occupies: 0 D0, 1 D1, 2 S (R425). -/
def poolOf (svc vc : Bool) : Fin 3 := if svc then 2 else if vc then 1 else 0

/-- A receive berth of a pool is freed, and a CREDIT word tells the peer (R442, R443). -/
def freeBerth (s : State) (n : Fin 8) (pool : Fin 3) : State :=
  let p := s.port n
  let p1 := { p with inUse := p.inUse.set pool (p.inUse.get pool - 1), freed := p.freed.set pool (p.freed.get pool + 1) }
  sendWord (s.setPort n p1) n (creditWord p1)

/-- One lost bundle: its LOST entry, XL_LOST, and RESYNC for what this device sent (R447). -/
def loseBundle (s : State) (n : Fin 8) (b : TxBundle) : State :=
  let s1 := cntPreg (logLost s n b.dst.toNat (b2n b.svc) b.seq.toNat b.count 0) (.xl n) 0x1A0 b.count
  let s2 := match b.via with
    | some (k, pool) => if k = n then s1 else freeBerth s1 k (fin 3 pool.toNat)
    | none => s1
  if b.src.toNat = fleetId s then
    let p := s2.port n
    s2.setPort n { p with resync := sset (fun _ => false) p.resync (fcKey b.dst.toNat b.svc) true }
  else s2

/-- One lost reliable unit. -/
def loseUnit (s : State) (n : Fin 8) : RUnit → State
  | .bundle b => loseBundle s n b
  | .word w => logLost s n 0 0 0 0 (if fld w 0 4 = 8 then 2 else 1)

/-- Bundles that a port has received and that wait at any port to be forwarded: fencing the port they came in on discards them (R447). -/
def dropReceived (s : State) (n : Fin 8) : State :=
  let mine (b : TxBundle) : Bool := match b.via with | some (k, _) => decide (k = n) | none => false
  (List.finRange 8).foldl (fun t k =>
    ((t.port k).txq.filter mine).foldl (fun u b => loseBundle u n b)
      (t.setPort k { t.port k with txq := (t.port k).txq.filter fun b => !(mine b) })) s

/-- A port has received bundles that wait to be forwarded. -/
def heldReceived (s : State) (n : Fin 8) : List TxBundle :=
  (List.finRange 8).flatMap fun k => (s.port k).txq.filter fun b => match b.via with | some (j, _) => decide (j = n) | none => false

/-- A message of a lost bundle whose payload was still being read: it counts among the lost (R447). -/
def unreadMsg : BMsg := ⟨0, 0, 0, 0, 0, false, 0, 0, 0, []⟩

/-- What fencing does to a port's traffic (R447): DOWN is sent, and everything not acknowledged is lost, in the order replay buffer,
transmit queues, assembly buffers, and what it has received and not forwarded yet. A measurement in progress ends, and with it a PROBE that asked for it. -/
def dropTraffic (s : State) (n : Fin 8) : State :=
  let s1 := when (decide ((s.port n).st = .up)) (fun t => sendWord t n (ctrlWord 12 0)) s
  let s2 := (s1.port n).opens.foldl (fun t o => closeBundle t n { o with msgs := o.msgs ++ o.reading.map fun _ => unreadMsg }) s1
  let p := s2.port n
  let units := p.replayBuf ++ p.txq.map RUnit.bundle
  let s3 := s2.setPort n { p with replayBuf := [], txq := [], opens := [] }
  let all := units ++ (heldReceived s3 n).map RUnit.bundle
  let s4 := dropReceived (units.foldl (fun t u => loseUnit t n u) s3) n
  let p4 := s4.port n
  let s5 := s4.setPort n { p4 with credits := Vector.replicate 3 0, ident0 := false, ident1 := false, probeAt := none, rtts := []
                                   discard := false, nakRun := 0, slot := p4.slot }
  let s6 := when (bit (preg s5 (.xl n) 0x100) 9) (fun t => goDone t (.xl n) 0x100 9) s5
  match all with
  | [] => s6
  | u :: _ => raiseErr s6 (.xl n) 11 (match u with | .bundle b => bundleAddr b.dst.toNat b.seq.toNat | .word _ => 0)

/-- A port is fenced (R447, 03 R83): its traffic is dropped and it leaves UP. -/
def fencePort (s : State) (n : Fin 8) : State :=
  let was := fenced s (.xl n)
  let s1 := orPreg s (.xl n) 8 2
  if was then s1 else setPortState (dropTraffic s1 n) n .down

/-- A port leaves UP by itself and starts again at DETECT (R418, R420). -/
def portRestart (s : State) (n : Fin 8) : State := setPortState (dropTraffic s n) n .detect

/-- Starts a replay episode or a Recovery of a link: the next tag, 1 to 65,535 (12 R532). A link in an episode keeps its tag. -/
def beginEpisode (s : State) (l : LinkId) : State :=
  if s.fc.episodes.any fun e => decide (e.link = l) && decide (e.ended = none) then s
  else
    let tag := fld (preg s .fc 0x130) 0 16
    let next := if tag = 65535 then 1 else tag + 1
    let eps := s.fc.episodes.filter fun e => decide (e.link ≠ l)
    setPreg { s with fc := { s.fc with episodes := eps ++ [⟨l, BitVec.ofNat 16 tag, none⟩] } } .fc 0x130 (BitVec.ofNat 32 next)

/-- An episode ends; its two-step window begins (12 R532). -/
def endEpisode (s : State) (l : LinkId) : State :=
  { s with fc := { s.fc with episodes := s.fc.episodes.map fun e =>
      if e.link = l ∧ e.ended = none then { e with ended := some s.tide.step } else e } }

/-- Sends an ABORT on every UP port but one (R446), and remembers its identity among the last 16. -/
def sendAbort (s : State) (origin : Byte) (step : W32) (cause : Byte) (except : Option (Fin 8)) : State :=
  let s1 := (List.finRange 8).foldl (fun t n =>
    if (t.port n).st = .up ∧ some n ≠ except then sendReliable t n (abortWord origin step cause) else t) s
  { s1 with fc := { s1.fc with abortIds := ((origin, step) :: s1.fc.abortIds).take 16 } }

/-- A FARE word on its way: towards its destination's fleet ID through `first` or the route, or lost (R419, R467). `at_` is the port that
reports a missing route. -/
def routeFare (s : State) (at_ : Fin 8) (first : Option (Fin 8)) (m : FareMsg) : State :=
  let fleet := m.dst.toNat / 256
  if fleet = fleetId s then { s with fares := s.fares ++ [m] }
  else
    match first, routeOf s fleet with
    | some n, _ => sendReliable s n (fareWord m.dst m.chan m.epoch)
    | none, some n => sendReliable s n (fareWord m.dst m.chan m.epoch)
    | none, none => raiseErr (logLost s at_ fleet 0 0 0 1) (.xl at_) 13 fleet

/-- The directory entry of a message (R423). -/
def dirEntry (m : BMsg) : Nat :=
  m.core.toNat + m.berth.toNat * 2 ^ 8 + m.chan.toNat * 2 ^ 12 + m.src.toNat * 2 ^ 16 + m.epoch.toNat * 2 ^ 32
    + b2n m.evtEn * 2 ^ 36 + m.evt.toNat * 2 ^ 37 + m.len.toNat * 2 ^ 48 + m.tag.toNat * 2 ^ 96

/-- The directory cells (R423). -/
def dirCells (ms : List BMsg) : BitVec 2048 := BitVec.ofNat 2048 (packLanesN 128 (ms.map dirEntry))
where
  packLanesN (w : Nat) : List Nat → Nat
    | [] => 0
    | x :: l => x % 2 ^ w + 2 ^ w * packLanesN w l

/-- HCRC over header bits [479:0] and the directory cells (R422); an SVC bundle has no directory. -/
def headerCrc (svc : Bool) (h : BitVec 512) (d : BitVec 2048) : BitVec 32 :=
  let c := crc32Feed h 0 480 0xFFFFFFFF#32
  ~~~(if svc then c else crc32Feed d 0 2048 c)

/-- The header cell with its checksums (R422). -/
def headerCell (b : TxBundle) : BitVec 512 :=
  let d := dirCells b.msgs
  let dl := match b.deadline with
    | some (st, ph) => b2n true * 2 ^ 2 + st.toNat * 2 ^ 64 + ph.toNat * 2 ^ 80
    | none => 0
  let h : BitVec 512 := BitVec.ofNat 512 (b2n b.svc + b2n b.vc * 2 + dl + b2n b.late * 2 ^ 3 + b2n b.resync * 2 ^ 4
    + b.src.toNat * 2 ^ 8 + b.dst.toNat * 2 ^ 16 + b.seq.toNat * 2 ^ 24 + b.hops.toNat * 2 ^ 40
    + (b.msgs.length - 1) % 16 * 2 ^ 44 + b.payload.length % 2048 * 2 ^ 48 + (crc32Cells b.payload).toNat * 2 ^ 128)
  setFld h 480 32 (headerCrc b.svc h d).toNat

/-- A deadline lies in the past, compared modulo 65,536 steps (R436). `margin` in tk. -/
def pastDeadline (s : State) (dl : W16 × BitVec 26) (margin : Nat) : Bool :=
  let behind := (s.tide.step.setWidth 16 - dl.1).toNat
  if behind = 0 then decide (dl.2.toNat + margin < s.tide.phase.toNat)
  else decide (behind ≤ 32768) && decide (dl.2.toNat + margin < s.tide.phase.toNat + behind * s.tide.len.toNat)

end Sys2Proof.Machine
end

