-- ==== Sys2Proof/Machine/Float.lean ====
section
/-! DEFINITION. The number formats of the cores: decoding to exact values, rounding once, and the lane functions of the
vector unit (05 R179, R180, R202 to R208). -/

namespace Sys2Proof.Machine

/-- A value of a floating format: a NaN, an infinity, or m times 2^e with a sign of its own for zero. -/
inductive Num where
  | nan
  | inf (neg : Bool)
  | fin (neg : Bool) (m : Nat) (e : Int)
  deriving DecidableEq, Repr

/-- A binary floating format: exponent bits, mantissa bits, bias, whether the top exponent holds infinities and NaNs as in
IEEE 754, and the code of the largest finite magnitude. -/
structure Fmt where
  ebits : Nat
  mbits : Nat
  bias  : Nat
  ieee  : Bool
  top   : Nat
  deriving DecidableEq, Repr

/-- FP32, BF16, E4M3, E5M2 and E2M1 (05 R207). -/
def fp32 : Fmt := ⟨8, 23, 127, true, 0x7F7FFFFF⟩

def bf16 : Fmt := ⟨8, 7, 127, true, 0x7F7F⟩

def e4m3 : Fmt := ⟨4, 3, 7, false, 0x7E⟩

def e5m2 : Fmt := ⟨5, 2, 15, true, 0x7B⟩

def e2m1 : Fmt := ⟨2, 1, 1, false, 7⟩

/-- Width of a format in bits. -/
def Fmt.width (t : Fmt) : Nat := 1 + t.ebits + t.mbits

/-- The value that a code stands for. E4M3 has one NaN code, S.1111.111, and E2M1 none. -/
def Fmt.decode (t : Fmt) (x : Nat) : Num :=
  let neg := decide (x / 2 ^ (t.ebits + t.mbits) % 2 = 1)
  let ex := x / 2 ^ t.mbits % 2 ^ t.ebits
  let man := x % 2 ^ t.mbits
  if t.ieee = true ∧ ex = 2 ^ t.ebits - 1 then (if man = 0 then .inf neg else .nan)
  else if t.ieee = false ∧ t.ebits = 4 ∧ ex = 15 ∧ man = 7 then .nan
  else if ex = 0 then .fin neg man (1 - (t.bias : Int) - t.mbits)
  else .fin neg (2 ^ t.mbits + man) ((ex : Int) - t.bias - t.mbits)

/-- Number of bits of `m`. -/
def bitLen (m : Nat) : Nat := if m = 0 then 0 else Nat.log2 m + 1

/-- m times 2^-k rounded to an integer, to nearest even or toward zero. -/
def shiftRound (rz : Bool) (m k : Nat) : Nat :=
  let q := m / 2 ^ k
  let r := m % 2 ^ k
  if rz || decide (2 * r < 2 ^ k) then q
  else if 2 ^ k < 2 * r then q + 1
  else q + q % 2

/-- Magnitude code of m times 2^e rounded once, with the exponent unbounded above. -/
def Fmt.mag (t : Fmt) (rz : Bool) (m : Nat) (e : Int) : Nat :=
  let qmin : Int := 1 - (t.bias : Int) - t.mbits
  let q := max (e + bitLen m - (t.mbits + 1 : Nat)) qmin
  let n := if q ≤ e then m * 2 ^ (e - q).toNat else shiftRound rz m (q - e).toNat
  (q - qmin).toNat * 2 ^ t.mbits + n

/-- Sign bit of a format. -/
def Fmt.sign (t : Fmt) (neg : Bool) : Nat := if neg then 2 ^ (t.ebits + t.mbits) else 0

/-- What an overflow gives: infinity, or the largest finite value where the format saturates (05 R207). -/
def Fmt.over (t : Fmt) (sat : Bool) : Nat := if t.ieee && !sat then (2 ^ t.ebits - 1) * 2 ^ t.mbits else t.top

/-- A NaN code with free sign and payload (05 R179 gives none; assumption 8). -/
def Fmt.nanCode (t : Fmt) (k : Nat) : Nat :=
  let x := (Config.freeNan k).toNat % 2 ^ t.width
  let man := x % 2 ^ t.mbits
  x / 2 ^ (t.ebits + t.mbits) * 2 ^ (t.ebits + t.mbits) + (2 ^ t.ebits - 1) * 2 ^ t.mbits
    + (if t.ieee then (if man = 0 then 1 else man) else 2 ^ t.mbits - 1)

/-- The code of a value, rounded once. `sat`: an overflow gives the largest finite value. -/
def Fmt.encode (t : Fmt) (rz sat : Bool) (k : Nat) : Num → Nat
  | .nan => t.nanCode k
  | .inf neg => t.sign neg + t.over (sat && !t.ieee)
  | .fin neg m e => if m = 0 then t.sign neg else
      let c := t.mag rz m e
      t.sign neg + (if t.top < c then t.over sat else c)

/-- Overflow of arithmetic (05 R175, R179): rounding toward zero, and SAT, give the largest finite value. -/
def Fmt.arith (t : Fmt) (rz sat : Bool) (k : Nat) (x : Num) : Nat :=
  t.encode rz (rz || sat) k x

/-- The signed integer of a finite value at exponent `e`, which is at or below its own. -/
def Num.at (neg : Bool) (m : Nat) (e0 e : Int) : Int :=
  let v : Int := (m : Int) * 2 ^ (e0 - e).toNat
  if neg then -v else v

/-- An integer times 2^e as a value; `z` is the sign of a zero. -/
def Num.ofInt (z : Bool) (v : Int) (e : Int) : Num :=
  if v = 0 then .fin z 0 e else .fin (decide (v < 0)) v.natAbs e

/-- The other sign. -/
def Num.neg : Num → Num
  | .nan => .nan
  | .inf s => .inf !s
  | .fin s m e => .fin (!s) m e

/-- Exact sum. -/
def Num.add : Num → Num → Num
  | .nan, _ => .nan
  | _, .nan => .nan
  | .inf a, .inf b => if a = b then .inf a else .nan
  | .inf a, _ => .inf a
  | _, .inf b => .inf b
  | .fin sa ma ea, .fin sb mb eb =>
    let e := min ea eb
    Num.ofInt (sa && sb) (Num.at sa ma ea e + Num.at sb mb eb e) e

/-- Exact product. -/
def Num.mul : Num → Num → Num
  | .nan, _ => .nan
  | _, .nan => .nan
  | .inf a, .inf b => .inf (a != b)
  | .inf a, .fin b m _ => if m = 0 then .nan else .inf (a != b)
  | .fin a m _, .inf b => if m = 0 then .nan else .inf (a != b)
  | .fin a m e, .fin b n g => .fin (a != b) (m * n) (e + g)

/-- a < b; false where either is a NaN. -/
def Num.lt : Num → Num → Bool
  | .nan, _ => false
  | _, .nan => false
  | .inf a, .inf b => a && !b
  | .inf a, _ => a
  | _, .inf b => !b
  | .fin sa ma ea, .fin sb mb eb =>
    let e := min ea eb
    decide (Num.at sa ma ea e < Num.at sb mb eb e)

/-- Equal as numbers: a NaN equals nothing. -/
def Num.eqv (a b : Num) : Bool := decide (a ≠ .nan) && decide (b ≠ .nan) && !(Num.lt a b) && !(Num.lt b a)

/-- Scaled by 2^k. -/
def Num.scale (k : Int) : Num → Num
  | .fin s m e => .fin s m (e + k)
  | x => x

/-- Rounded to an integer; none for a NaN or an infinity. -/
def Num.toInt (rz : Bool) : Num → Option Int
  | .fin s m e =>
    let v : Int := if 0 ≤ e then (m : Int) * 2 ^ e.toNat else (shiftRound rz m (-e).toNat : Int)
    some (if s then -v else v)
  | _ => none

/-! ## Reciprocal, reciprocal square root and power of two (05 R179, R180) -/

/-- Integer square root by trial of `n` bits, downwards. -/
def isqrt (x : Nat) : Nat → Nat → Nat
  | 0, r => r
  | n + 1, r => isqrt x n (if (r + 2 ^ n) * (r + 2 ^ n) ≤ x then r + 2 ^ n else r)

/-- A truncated value `m` times 2^e with a sticky bit below it, for a value that lies strictly between. -/
def sticky (neg : Bool) (m : Nat) (e : Int) (exact : Bool) : Num := .fin neg (2 * m + b2n (!exact)) (e - 1)

/-- 1/x, exact or with a sticky bit far below any rounding of FP32. -/
def Num.rcp : Num → Num
  | .nan => .nan
  | .inf s => .fin s 0 0
  | .fin s m e => sticky s (2 ^ 200 / m) (-200 - e) (decide (2 ^ 200 % m = 0))

/-- 1/sqrt x of a positive value, exact or with a sticky bit. -/
def Num.rsqrt : Num → Num
  | .nan => .nan
  | .inf _ => .fin false 0 0
  | .fin _ m e =>
    let m2 := if e % 2 = 0 then m else 2 * m
    let h := if e % 2 = 0 then e / 2 else (e - 1) / 2
    let q := 2 ^ 400 / m2
    let r := isqrt q 201 0
    sticky false r (-200 - h) (decide (r * r * m2 = 2 ^ 400))

/-- 2^(2^-i) in units of 2^-96, rounded down, i from 1. -/
def exp2Table : List Nat :=
  [112045541949572279837463876454,
   94218694570555024373110687280,
   86398923866664962375130072334,
   82735892943544661968409507608,
   80963033366431698391403892406,
   80090900639232773493759855183,
   79658363602065864296602447411,
   79442971854562650309779985388,
   79335494482037593178543608468,
   79281810334857995344526032840,
   79254981885274639038225885637,
   79241571065139888961741854321,
   79234866506068713947867698353,
   79231514439261175779748764724,
   79229838459036794155212045657,
   79229000482219122111440011082,
   79228581497133874770443338217,
   79228372005422143143813826732,
   79228267259773999700675265240,
   79228214887001858491551355114,
   79228188700628770505088420372,
   79228175607445472165130168566,
   79228169060854634408312904163,
   79228165787559418383175182041,
   79228164150911861083921604088,
   79228163332588095112623330337,
   79228162923426215296556284074,
   79228162718845276180918278821,
   79228162616554806821198155068,
   79228162565409572190862812835,
   79228162539836954888076321620,
   79228162527050646239778370986]

/-- 2^(f / 2^32) in units of 2^-96, f below 2^32, within 2^-90. -/
def exp2Frac (f : Nat) : Nat :=
  (List.range 32).foldl (fun a i => if f / 2 ^ (31 - i) % 2 = 1 then a * nth exp2Table i 0 / 2 ^ 96 else a) (2 ^ 96)

/-- 2^x. An argument is cut to 32 fraction bits, below which 2^x moves by less than 2^-31 of itself; a sticky bit stands for what
is cut. -/
def Num.exp2 : Num → Num
  | .nan => .nan
  | .inf s => if s then .fin false 0 0 else .inf false
  | .fin s m e =>
    if m = 0 then .fin false 1 0
    else if 0 < e ∧ 300 < bitLen m + e then (if s then sticky false 0 (-400) false else .fin false 1 400)
    else
      let v := Num.at s m e (min e (-32))
      let fix : Int := if e < -32 then v / (2 ^ (-32 - e).toNat : Int) else v
      let ip := fix / (2 ^ 32 : Int)
      let f := (fix % (2 ^ 32 : Int)).toNat
      if f = 0 ∧ -32 ≤ e then .fin false 1 ip
      else if 400 < ip then .fin false 1 400
      else if ip < -400 then sticky false 0 (-400) false
      else sticky false (exp2Frac f) (ip - 96) false

/-- FP32 results of R180 may lie anywhere within a relative error of 2^-21: the free value where it does, else the value rounded.
`ref` is the exact value or one within 2^-30 of it. -/
def approxFp32 (k : Nat) (rz sat : Bool) (x : BitVec 32) (ref : Num) : Nat :=
  let c := (Config.freeApprox k x).toNat
  match ref, fp32.decode c with
  | .fin rs rm re, .fin cs cm ce =>
    let g := min re ce
    let r := Num.at rs rm re g
    let d := Num.at cs cm ce g
    if cs = rs ∧ rm ≠ 0 ∧ (d - r).natAbs * (2 ^ 21 + 1) < r.natAbs then c else fp32.arith rz sat k ref
  | _, _ => fp32.arith rz sat k ref

/-! ## Element types of the vector unit (05 R175) -/

/-- ET. -/
inductive ElTy where
  | fp32 | bf16 | int32 | int16 | int8
  deriving DecidableEq, Repr

/-- Width of a lane. -/
def ElTy.width : ElTy → Nat
  | .fp32 | .int32 => 32
  | .bf16 | .int16 => 16
  | .int8 => 8

/-- The floating format of a type, if it is one. -/
def ElTy.fmt : ElTy → Option Fmt
  | .fp32 => some Machine.fp32
  | .bf16 => some Machine.bf16
  | _ => none

/-- Lanes of a register. -/
def ElTy.lanes (t : ElTy) : Nat := 2048 / t.width

/-- Lane `i` of a register. -/
def ElTy.lane (t : ElTy) (v : BitVec 2048) (i : Nat) : Nat := v.toNat / 2 ^ (t.width * i) % 2 ^ t.width

/-- A register from its lanes, lowest first. -/
def packLanes (w : Nat) : List Nat → Nat
  | [] => 0
  | x :: l => x % 2 ^ w + 2 ^ w * packLanes w l

/-- A register whose lanes are given by index. -/
def ElTy.build (t : ElTy) (g : Nat → Nat) : BitVec 2048 :=
  BitVec.ofNat 2048 (packLanes t.width ((List.range t.lanes).map g))

/-- A lane as an integer. -/
def ElTy.toInt (t : ElTy) (x : Nat) : Int := sgn t.width x

/-- An integer as a lane: clamped to the type's range with SAT, else wrapped (R180). -/
def ElTy.ofInt (t : ElTy) (sat : Bool) (v : Int) : Nat :=
  let hi : Int := 2 ^ (t.width - 1) - 1
  let u := if sat then max (-hi - 1) (min hi v) else v
  (u % (2 ^ t.width : Int)).toNat

/-- An integer lies within the type's range. -/
def ElTy.fits (t : ElTy) (v : Int) : Bool := decide (-(2 ^ (t.width - 1) : Int) ≤ v) && decide (v < (2 ^ (t.width - 1) : Int))

/-- A lane value the manual leaves open. -/
def freeLaneOf (t : ElTy) (k : Nat) : Nat := (Config.freeLane k).toNat % 2 ^ t.width

end Sys2Proof.Machine
end

