-- ==== Sys2Proof/Machine/Operands.lean ====
section
/-! DEFINITION. The slots of a bundle: instructions of the S, V and M slots and how they are read from their bits (05 R168 to R181).
None stands for an encoding that raises ILLEGAL. -/

namespace Sys2Proof.Machine

/-- A scalar register number. -/
abbrev SReg := BitVec 5

/-- A vector register number. -/
abbrev VReg := BitVec 4

/-- Scalar arithmetic (R177). -/
inductive AluOp where
  | add | sub | and | or | xor | shl | shr | sar | mul | mulh | slt | sltu | clz | popc
  deriving DecidableEq, Repr

/-- Branch conditions (R177). -/
inductive Cond where
  | eq | ne | lt | ge | ltu | geu
  deriving DecidableEq, Repr

/-- S-slot instructions (R177). -/
inductive SIns where
  | nop
  | alu (op : AluOp) (rd ra rb : SReg)
  | alui (op : AluOp) (rd ra : SReg) (imm : W64)
  | li (rd : SReg) (imm : W64)
  | lih (rd : SReg) (imm : W32)
  | branch (c : Cond) (ra rb : SReg) (off : Int)
  | jal (rd : SReg) (off : Int)
  | jr (ra : SReg)
  | waitAny (rd ra : SReg) (imm : W32)
  | waitAll (rd ra : SReg) (imm : W32)
  | waitT (rd ra : SReg) (imm : W32)
  | mark (ra : SReg) (imm : W32)
  | syncI
  | fenceM
  | park
  | trap (imm : BitVec 6)
  | mfc (rd : SReg) (sel : BitVec 30)
  | evset (ra : SReg) (imm : W32)
  deriving DecidableEq, Repr

/-- V-slot operations (R179). -/
inductive VOp where
  | add | sub | mul | fma | max | min | abs | neg | exp2 | rcp | rsqrt | and | or | xor | sel | cmplt | cmpeq
  | bcast | ext | redsum | redmax | cvt (src : ElTy) (part : Nat) | shuf
  deriving DecidableEq, Repr

/-- A V-slot instruction (R175). -/
structure VIns where
  op  : VOp
  vd  : VReg
  va  : VReg
  vb  : VReg
  vc  : VReg
  et  : ElTy
  rs  : SReg
  rz  : Bool
  sat : Bool
  imm : Nat
  deriving DecidableEq, Repr

/-- M-slot instructions (R181). -/
inductive MIns where
  | nop
  | ld (rd ra : SReg) (imm : Int) (size : Nat) (signed : Bool)
  | st (rd ra : SReg) (imm : Int) (size : Nat)
  | vld (vd : VReg) (ra : SReg) (imm : Int)
  | vst (vd : VReg) (ra : SReg) (imm : Int)
  | gld (rd ra : SReg) (imm : Int) (size : Nat) (signed : Bool)
  | gst (rd ra : SReg) (imm : Int) (size : Nat) (relaxed : Bool)
  | gvld (vd : VReg) (ra : SReg) (imm : Int)
  | gvst (vd : VReg) (ra : SReg) (imm : Int)
  | gamoAdd (rd ra rb : SReg)
  | gamoSwap (rd ra rb : SReg)
  | gamoCas (rd ra rb : SReg)
  | send (rd ra : SReg)
  | recv (rd ra : SReg)
  | brel (ra : SReg)
  | acq (rd ra : SReg) (imm : Nat) (try_ : Bool)
  | rel (rd ra : SReg) (imm : Nat)
  | map (rd ra : SReg) (slot : Fin 16) (rights : BitVec 3) (wait : Bool)
  | unmap (slot : Fin 16)
  | mma (acc : BitVec 2) (ra rb : SReg) (kb : Nat) (fmt : BitVec 3) (zero : Bool)
  | accst (acc : BitVec 2) (ra : SReg) (fmt : BitVec 3) (sat rz : Bool)
  | accld (acc : BitVec 2) (ra : SReg)
  | accr (acc : BitVec 2) (vd : VReg) (row : Nat)
  | accw (acc : BitVec 2) (va : VReg) (row : Nat)
  deriving DecidableEq, Repr

/-- A register field. -/
def sregAt {n : Nat} (x : BitVec n) (lo : Nat) : SReg := BitVec.ofNat 5 (fld x lo 5)

/-- A vector register field. -/
def vregAt {n : Nat} (x : BitVec n) (lo : Nat) : VReg := BitVec.ofNat 4 (fld x lo 4)

/-- A condition on an encoding. -/
def guardO {α : Type} (b : Bool) (a : α) : Option α := if b then some a else none

/-- The register form of a scalar opcode. -/
def aluOf : Nat → Option AluOp
  | 0x01 => some .add
  | 0x02 => some .sub
  | 0x03 => some .and
  | 0x04 => some .or
  | 0x05 => some .xor
  | 0x06 => some .shl
  | 0x07 => some .shr
  | 0x08 => some .sar
  | 0x09 => some .mul
  | 0x0A => some .mulh
  | 0x0B => some .slt
  | 0x0C => some .sltu
  | 0x0D => some .clz
  | 0x0E => some .popc
  | _ => none

/-- The immediate form of a scalar opcode. -/
def aluiOf : Nat → Option AluOp
  | 0x10 => some .add
  | 0x11 => some .and
  | 0x12 => some .or
  | 0x13 => some .xor
  | 0x14 => some .shl
  | 0x15 => some .shr
  | 0x16 => some .sar
  | 0x17 => some .slt
  | _ => none

/-- A branch opcode. -/
def condOf : Nat → Option Cond
  | 0x20 => some .eq
  | 0x21 => some .ne
  | 0x22 => some .lt
  | 0x23 => some .ge
  | 0x24 => some .ltu
  | 0x25 => some .geu
  | _ => none

/-- The S slot (R174, R177). -/
def decodeS (x : BitVec 48) : Option SIns :=
  let op := fld x 0 8
  let rd := sregAt x 8
  let ra := sregAt x 13
  let rb := sregAt x 18
  let immU : W32 := BitVec.ofNat 32 (fld x 18 30)
  let off := sgn 12 (fld x 23 12)
  let zB := decide (fld x 35 13 = 0)
  match op with
  | 0x00 => some .nop
  | 0x18 => guardO (decide (fld x 13 3 = 0)) (.li rd (ofInt 64 (sgn 32 (fld x 16 32))))
  | 0x19 => guardO (decide (fld x 13 3 = 0)) (.lih rd (BitVec.ofNat 32 (fld x 16 32)))
  | 0x26 => guardO zB (.jal rd off)
  | 0x27 => guardO zB (.jr ra)
  | 0x30 => some (.waitAny rd ra immU)
  | 0x31 => some (.waitAll rd ra immU)
  | 0x32 => some (.waitT rd ra immU)
  | 0x33 => some (.mark ra immU)
  | 0x34 => some .syncI
  | 0x35 => some .fenceM
  | 0x36 => some .park
  | 0x37 => some (.trap (BitVec.ofNat 6 (fld x 18 6)))
  | 0x38 => guardO (decide (fld x 18 30 ≤ 0x08) || (decide (0x10 ≤ fld x 18 30) && decide (fld x 18 30 < 0x20)))
      (.mfc rd (BitVec.ofNat 30 (fld x 18 30)))
  | 0x39 => some (.evset ra immU)
  | _ =>
    match aluOf op, aluiOf op, condOf op with
    | some o, _, _ => guardO (decide (fld x 23 25 = 0)) (.alu o rd ra rb)
    | _, some o, _ => some (.alui o rd ra (ofInt 64 (sgn 30 (fld x 18 30))))
    | _, _, some c => guardO zB (.branch c ra rb off)
    | _, _, _ => none

/-- ET and the source type of VCVT (R175). -/
def elTyOf : Nat → Option ElTy
  | 0 => some .fp32
  | 1 => some .bf16
  | 2 => some .int32
  | 3 => some .int16
  | 4 => some .int8
  | _ => none

/-- V-slot opcodes (R179). VEXP2, VRCP and VRSQRT take floating types only. A VCVT part beyond the narrower register names no
lanes and is taken as a reserved encoding: DESIGN CHOICE (assumption 12). -/
def vopOf (op : Nat) (et : ElTy) (imm : Nat) : Option VOp :=
  let fl := et.fmt.isSome
  match op with
  | 0x01 => some .add
  | 0x02 => some .sub
  | 0x03 => some .mul
  | 0x04 => some .fma
  | 0x05 => some .max
  | 0x06 => some .min
  | 0x07 => some .abs
  | 0x08 => some .neg
  | 0x09 => guardO fl .exp2
  | 0x0A => guardO fl .rcp
  | 0x0B => guardO fl .rsqrt
  | 0x0C => some .and
  | 0x0D => some .or
  | 0x0E => some .xor
  | 0x0F => some .sel
  | 0x10 => some .cmplt
  | 0x11 => some .cmpeq
  | 0x12 => some .bcast
  | 0x13 => some .ext
  | 0x14 => some .redsum
  | 0x15 => some .redmax
  | 0x16 =>
    match elTyOf (imm % 8) with
    | some src => guardO (decide (imm / 8 % 4 < max src.width et.width / min src.width et.width)) (.cvt src (imm / 8 % 4))
    | none => none
  | 0x17 => some .shuf
  | _ => none

/-- The V slot (R175): none inside for VNOP. -/
def decodeV (x : BitVec 48) : Option (Option VIns) :=
  if fld x 0 8 = 0 then some none
  else match elTyOf (fld x 24 3) with
    | none => none
    | some et =>
      match vopOf (fld x 0 8) et (fld x 35 13) with
      | none => none
      | some op => guardO (decide (fld x 32 2 < 2))
          (some ⟨op, vregAt x 8, vregAt x 12, vregAt x 16, vregAt x 20, et, sregAt x 27, decide (fld x 32 2 = 1), bit x 34,
            fld x 35 13⟩)

/-- Size and sign of the scalar loads, by opcode offset (R181). -/
def loadShape (i : Nat) : Nat × Bool := nth [(1, false), (2, false), (4, false), (8, false), (1, true), (2, true), (4, true)] i (1, false)

/-- FMT codes that MMA takes (R207). -/
def mmaFmt (n : Nat) : Bool := decide (1 ≤ n) && decide (n ≤ 6)

/-- The M slot (R176, R181). -/
def decodeM (x : BitVec 32) : Option MIns :=
  let op := fld x 0 7
  let rd := sregAt x 7
  let ra := sregAt x 12
  let rb := sregAt x 17
  let imm := sgn 15 (fld x 17 15)
  let vd := vregAt x 7
  let vOk := decide (fld x 11 1 = 0)
  let rOk := decide (fld x 22 10 = 0)
  let kOk := decide (fld x 27 5 = 0)
  let pOk := decide (fld x 24 8 = 0)
  let acc : BitVec 2 := BitVec.ofNat 2 (fld x 7 2)
  let xa := sregAt x 9
  match op with
  | 0x00 => some .nop
  | 0x0C => guardO vOk (.vld vd ra imm)
  | 0x0D => guardO vOk (.vst vd ra imm)
  | 0x1C => guardO vOk (.gvld vd ra imm)
  | 0x1D => guardO vOk (.gvst vd ra imm)
  | 0x1E => some (.gst rd ra imm 8 true)
  | 0x20 => guardO rOk (.gamoAdd rd ra rb)
  | 0x21 => guardO rOk (.gamoSwap rd ra rb)
  | 0x22 => guardO rOk (.gamoCas rd ra rb)
  | 0x30 => guardO rOk (.send rd ra)
  | 0x31 => guardO (rOk && !(bit rd 0) && decide (2 ≤ rd.toNat)) (.recv rd ra)
  | 0x32 => guardO rOk (.brel ra)
  | 0x38 => guardO kOk (.acq rd ra (fld x 17 10) false)
  | 0x39 => guardO kOk (.acq rd ra (fld x 17 10) true)
  | 0x3A => guardO kOk (.rel rd ra (fld x 17 10))
  | 0x40 => guardO pOk (.map rd ra (fin 16 (fld x 17 4)) (BitVec.ofNat 3 (fld x 21 3)) false)
  | 0x41 => guardO pOk (.map rd ra (fin 16 (fld x 17 4)) (BitVec.ofNat 3 (fld x 21 3)) true)
  | 0x42 => guardO pOk (.unmap (fin 16 (fld x 17 4)))
  | 0x50 => guardO (kOk && mmaFmt (fld x 23 3))
      (.mma acc xa (sregAt x 14) (fld x 19 4) (BitVec.ofNat 3 (fld x 23 3)) (bit x 26))
  | 0x51 => guardO (decide (fld x 19 13 = 0) && decide (fld x 14 3 ≤ 5))
      (.accst acc xa (BitVec.ofNat 3 (fld x 14 3)) (bit x 17) (bit x 18))
  | 0x52 => guardO (decide (fld x 19 13 = 0) && decide (fld x 14 3 = 0)) (.accld acc xa)
  | 0x53 => guardO (decide (fld x 19 13 = 0)) (.accr acc (vregAt x 9) (fld x 13 6))
  | 0x54 => guardO (decide (fld x 19 13 = 0)) (.accw acc (vregAt x 9) (fld x 13 6))
  | _ =>
    if 0x01 ≤ op ∧ op ≤ 0x07 then some (.ld rd ra imm (loadShape (op - 1)).1 (loadShape (op - 1)).2)
    else if 0x08 ≤ op ∧ op ≤ 0x0B then some (.st rd ra imm (2 ^ (op - 8)))
    else if 0x10 ≤ op ∧ op ≤ 0x16 then some (.gld rd ra imm (loadShape (op - 0x10)).1 (loadShape (op - 0x10)).2)
    else if 0x18 ≤ op ∧ op ≤ 0x1B then some (.gst rd ra imm (2 ^ (op - 0x18)) false)
    else none

/-- Scalar destination of the S slot. -/
def SIns.dest : SIns → List Nat
  | .alu _ rd _ _ | .alui _ rd _ _ | .li rd _ | .lih rd _ | .jal rd _ | .waitAny rd _ _ | .waitAll rd _ _ | .waitT rd _ _
  | .mfc rd _ => [rd.toNat]
  | _ => []

/-- Scalar destination of the V slot, and its vector destination as 32 plus the number. -/
def VIns.dest (v : VIns) : List Nat :=
  match v.op with
  | .ext | .redsum | .redmax => [v.rs.toNat]
  | _ => [32 + v.vd.toNat]

/-- Destinations of the M slot. -/
def MIns.dest : MIns → List Nat
  | .ld rd _ _ _ _ | .gld rd _ _ _ _ | .gamoAdd rd _ _ | .gamoSwap rd _ _ | .gamoCas rd _ _ | .send rd _ | .acq rd _ _ _
  | .rel rd _ _ => [rd.toNat]
  | .recv rd _ => [rd.toNat, rd.toNat + 1]
  | .map rd _ _ _ true => [rd.toNat]
  | .vld vd _ _ | .gvld vd _ _ | .accr _ vd _ => [32 + vd.toNat]
  | _ => []

/-- A bundle (R168). -/
structure Bundle where
  s : SIns
  v : Option VIns
  m : MIns
  deriving DecidableEq, Repr

/-- A bundle from its 128 bits; none where it raises ILLEGAL, two slots naming one destination included (R170, R224). -/
def decodeBundle (b : BitVec 128) : Option Bundle :=
  match decodeS (b.extractLsb' 0 48), decodeV (b.extractLsb' 48 48), decodeM (b.extractLsb' 96 32) with
  | some s, some v, some m =>
    let ds := s.dest
    let dv := match v with | some y => y.dest | none => []
    let dm := m.dest
    if ds.any dv.contains || ds.any dm.contains || dv.any dm.contains then none else some ⟨s, v, m⟩
  | _, _, _ => none

end Sys2Proof.Machine
end

