-- ==== Sys2Proof/Machine/Vector.lean ====
section
/-! DEFINITION. The vector unit (05 R179, R180) and the arithmetic of the scalar unit (05 R177). -/

namespace Sys2Proof.Machine

/-- Scalar arithmetic (R177): integer results wrap, shifts take the low six bits. -/
def aluEval (op : AluOp) (a b : W64) : W64 :=
  match op with
  | .add => a + b
  | .sub => a - b
  | .and => a &&& b
  | .or => a ||| b
  | .xor => a ^^^ b
  | .shl => a <<< (b.toNat % 64)
  | .shr => a >>> (b.toNat % 64)
  | .sar => a.sshiftRight (b.toNat % 64)
  | .mul => a * b
  | .mulh => BitVec.ofInt 64 (a.toInt * b.toInt / 2 ^ 64)
  | .slt => if a.slt b then 1 else 0
  | .sltu => if a.ult b then 1 else 0
  | .clz => BitVec.ofNat 64 (64 - bitLen a.toNat)
  | .popc => BitVec.ofNat 64 (popc a)

/-- Branch conditions (R177). -/
def condEval (c : Cond) (a b : W64) : Bool :=
  match c with
  | .eq => decide (a = b)
  | .ne => decide (a ≠ b)
  | .lt => a.slt b
  | .ge => !(a.slt b)
  | .ltu => a.ult b
  | .geu => !(a.ult b)

/-- VADD, VSUB, VMUL and VFMA on one lane. R180 says that integer VADD, VSUB and VMUL wrap without SAT; what an integer
VFMA out of range gives without SAT is not stated: free (assumption 8). -/
def laneArith (op : VOp) (t : ElTy) (rz sat : Bool) (k a b c : Nat) : Nat :=
  match t.fmt with
  | some fm =>
    let x := fm.decode a
    let y := fm.decode b
    fm.arith rz sat k (match op with
      | .add => Num.add x y
      | .sub => Num.add x y.neg
      | .mul => Num.mul x y
      | _ => Num.add (Num.mul x y) (fm.decode c))
  | none =>
    let x := t.toInt a
    let y := t.toInt b
    match op with
    | .add => t.ofInt sat (x + y)
    | .sub => t.ofInt sat (x - y)
    | .mul => t.ofInt sat (x * y)
    | _ =>
      let z := x * y + t.toInt c
      if sat || t.fits z then t.ofInt sat z else freeLaneOf t k

/-- a < b as the type reads them. -/
def laneLt (t : ElTy) (a b : Nat) : Bool :=
  match t.fmt with
  | some fm => Num.lt (fm.decode a) (fm.decode b)
  | none => decide (t.toInt a < t.toInt b)

/-- Equal as the type reads them. -/
def laneEq (t : ElTy) (a b : Nat) : Bool :=
  match t.fmt with
  | some fm => Num.eqv (fm.decode a) (fm.decode b)
  | none => decide (a = b)

/-- A NaN lane. -/
def laneNan (t : ElTy) (a : Nat) : Bool :=
  match t.fmt with
  | some fm => decide (fm.decode a = .nan)
  | none => false

/-- A free NaN of a type. -/
def laneFreeNan (t : ElTy) (k : Nat) : Nat :=
  match t.fmt with
  | some fm => fm.nanCode k
  | none => 0

/-- The larger lane: a NaN lane yields NaN; which of two zeros of opposite sign is free (assumption 8). -/
def laneMax (t : ElTy) (k a b : Nat) : Nat :=
  if laneNan t a || laneNan t b then laneFreeNan t k
  else if laneLt t a b then b
  else if laneLt t b a then a
  else if (Config.freeLane k).getLsbD 0 then a else b

/-- The smaller lane, as `laneMax`. -/
def laneMin (t : ElTy) (k a b : Nat) : Nat :=
  if laneNan t a || laneNan t b then laneFreeNan t k
  else if laneLt t a b then a
  else if laneLt t b a then b
  else if (Config.freeLane k).getLsbD 0 then a else b

/-- VABS and VNEG. The magnitude of the most negative integer saturates with SAT (R175) and is not stated without it: free
(assumption 8). -/
def laneSign (neg sat : Bool) (t : ElTy) (k a : Nat) : Nat :=
  match t.fmt with
  | some fm =>
    let h := 2 ^ (fm.ebits + fm.mbits)
    if laneNan t a then fm.nanCode k
    else if neg then (if a / h % 2 = 1 then a - h else a + h)
    else a % h
  | none =>
    let x := t.toInt a
    let y := if neg || decide (x < 0) then -x else x
    if sat || t.fits y then t.ofInt sat y else freeLaneOf t k

/-- VEXP2, VRCP and VRSQRT (R180). The value at zero, and of the root of a negative number, is not stated: free
(assumption 8). -/
def laneFn (op : VOp) (t : ElTy) (rz sat : Bool) (k a : Nat) : Nat :=
  match t.fmt with
  | none => 0
  | some fm =>
    let x := fm.decode a
    let ref := match op with
      | .exp2 => x.exp2
      | .rcp => x.rcp
      | _ => x.rsqrt
    let open_ := match op, x with
      | .exp2, _ => false
      | .rcp, .fin _ m _ => decide (m = 0)
      | .rsqrt, .fin s m _ => decide (m = 0) || s
      | .rsqrt, .inf s => s
      | _, _ => false
    if open_ then freeLaneOf t k
    else match t with
      | .fp32 => (match x with
          | .fin _ _ _ => approxFp32 k rz sat (BitVec.ofNat 32 a) ref
          | _ => fm.arith rz sat k ref)
      | _ => fm.arith rz sat k ref

/-- Conversion of one lane (R180, R207). A NaN to an integer type, and an overflow to INT16 or INT32 without SAT, are not
stated: free (assumption 8). INT8 always saturates. -/
def laneCvt (src dst : ElTy) (rz sat : Bool) (k a : Nat) : Nat :=
  match src.fmt, dst.fmt with
  | some fs, some fd => if src = dst then a else fd.encode rz (sat && decide (dst = .bf16)) k (fs.decode a)
  | none, some fd => fd.encode rz (sat && decide (dst = .bf16)) k (Num.ofInt false (src.toInt a) 0)
  | some fs, none =>
    match fs.decode a with
    | .nan => freeLaneOf dst k
    | .inf s => if sat || decide (dst = .int8) then dst.ofInt true (if s then -(2 ^ 40) else 2 ^ 40) else freeLaneOf dst k
    | x => match x.toInt rz with
      | none => 0
      | some v => if dst.fits v then dst.ofInt false v
        else if sat || decide (dst = .int8) then dst.ofInt true v else freeLaneOf dst k
  | none, none =>
    let v := src.toInt a
    if dst.fits v then dst.ofInt false v
    else if sat || decide (dst = .int8) then dst.ofInt true v else freeLaneOf dst k

/-- Neighbours added: one level of the tree of R180. -/
def pairUp (g : Nat → Nat → Nat) : List Nat → List Nat
  | a :: b :: l => g a b :: pairUp g l
  | l => l

/-- The tree of R180 over 2^n lanes. -/
def treeSum (g : Nat → Nat → Nat) : Nat → List Nat → Nat
  | 0, l => l.headD 0
  | n + 1, l => treeSum g n (pairUp g l)

/-- VREDSUM as it is written to a scalar register: a floating result is its bit pattern; an integer sum is exact, in two's
complement: DEDUCED (assumption 12). -/
def vredsum (t : ElTy) (rz sat : Bool) (k : Nat) (v : BitVec 2048) : W64 :=
  let l := (List.range t.lanes).map (t.lane v)
  match t.fmt with
  | some _ => BitVec.ofNat 64 (treeSum (fun a b => laneArith .add t rz sat k a b 0) 8 l)
  | none => BitVec.ofInt 64 ((l.map t.toInt).foldl (· + ·) 0)

/-- VREDMAX, as `vredsum`. -/
def vredmax (t : ElTy) (k : Nat) (v : BitVec 2048) : W64 :=
  let l := (List.range t.lanes).map (t.lane v)
  let m := l.foldl (laneMax t k) (l.headD 0)
  match t.fmt with
  | some _ => BitVec.ofNat 64 m
  | none => BitVec.ofInt 64 (t.toInt m)

/-- VCVT (R180): `old` is the destination before, of which a narrowing conversion keeps the other lanes. -/
def vcvt (src dst : ElTy) (part : Nat) (rz sat : Bool) (k : Nat) (a old : BitVec 2048) : BitVec 2048 :=
  let n := 2048 / max src.width dst.width
  dst.build fun i =>
    if src.width ≤ dst.width then laneCvt src dst rz sat (k + i) (src.lane a (n * part + i))
    else if n * part ≤ i ∧ i < n * part + n then laneCvt src dst rz sat (k + i) (src.lane a (i - n * part))
    else dst.lane old i

/-- What a V-slot instruction writes. -/
inductive VRes where
  | vec (v : BitVec 2048)
  | scalar (x : W64)

/-- The V slot's result from its sources (R179). `k` numbers the first of 256 free values. -/
def vEval (i : VIns) (k : Nat) (a b c old : BitVec 2048) (s : W64) : VRes :=
  let t := i.et
  let ones := 2 ^ t.width - 1
  let un (g : Nat → Nat → Nat) : VRes := .vec (t.build fun j => g (k + j) (t.lane a j))
  let bin (g : Nat → Nat → Nat → Nat) : VRes := .vec (t.build fun j => g (k + j) (t.lane a j) (t.lane b j))
  match i.op with
  | .add | .sub | .mul => bin fun k x y => laneArith i.op t i.rz i.sat k x y 0
  | .fma => .vec (t.build fun j => laneArith .fma t i.rz i.sat (k + j) (t.lane a j) (t.lane b j) (t.lane c j))
  | .max => bin (laneMax t)
  | .min => bin (laneMin t)
  | .abs => un (laneSign false i.sat t)
  | .neg => un (laneSign true i.sat t)
  | .exp2 | .rcp | .rsqrt => un (laneFn i.op t i.rz i.sat)
  | .and => .vec (a &&& b)
  | .or => .vec (a ||| b)
  | .xor => .vec (a ^^^ b)
  | .sel => .vec (t.build fun j => if laneEq t (t.lane a j) 0 then t.lane c j else t.lane b j)
  | .cmplt => bin fun _ x y => if laneLt t x y then ones else 0
  | .cmpeq => bin fun _ x y => if laneEq t x y then ones else 0
  | .bcast => .vec (t.build fun _ => s.toNat % 2 ^ t.width)
  | .ext => .scalar (BitVec.ofNat 64 (if i.imm < t.lanes then t.lane a i.imm else freeLaneOf t k))
  | .redsum => .scalar (vredsum t i.rz i.sat k a)
  | .redmax => .scalar (vredmax t k a)
  | .cvt src part => .vec (vcvt src t part i.rz i.sat k a old)
  | .shuf => .vec (t.build fun j => t.lane a (t.lane b j % t.lanes))

end Sys2Proof.Machine
end

