-- ==== Sys2Proof/Machine/MatrixUnit.lean ====
section
/-! DEFINITION. The matrix unit: operand tiles, the multiply-accumulate, and the conversion of accumulators (05 R201 to R208). -/

namespace Sys2Proof.Machine

/-- Element width of a FMT code in bits (R207). -/
def fmtWidth (n : Nat) : Nat := nth [32, 16, 8, 8, 8, 4, 8] n 8

/-- A FMT code carries block scales (R208). -/
def fmtScaled (n : Nat) : Bool := decide (3 ≤ n) && decide (n ≤ 6)

/-- Bytes of a 64-row tile with K columns, its scale region included (R201). -/
def tileBytes (fmt k : Nat) : Nat := 64 * k * fmtWidth fmt / 8 + (if fmtScaled fmt then 64 * k / 32 else 0)

/-- The operand formats of A and B under an MMA FMT: code 6 mixes E4M3 and E5M2. -/
def mmaSide (fmt : Nat) (isA : Bool) : Nat := if fmt = 6 then (if isA then 3 else 4) else fmt

/-- Element (row, i) of a tile (R201). -/
def tileElt (ldm : Sparse Byte) (base fmt k row i : Nat) : Nat :=
  let w := fmtWidth fmt
  let a := base + row * (k * w / 8)
  let rd (x : Nat) : Nat := (sget (fun _ => (0 : Byte)) ldm x).toNat
  match w with
  | 4 => rd (a + i / 2) / 16 ^ (i % 2) % 16
  | 8 => rd (a + i)
  | _ => rd (a + 2 * i) + 256 * rd (a + 2 * i + 1)

/-- Scale byte of a block of a row (R201). -/
def tileScale (ldm : Sparse Byte) (base fmt k row blk : Nat) : Nat :=
  (sget (fun _ => (0 : Byte)) ldm (base + 64 * k * fmtWidth fmt / 8 + row * (k / 32) + blk)).toNat

/-- The value of an element under its FMT, scaled by its block (R208). -/
def tileNum (ldm : Sparse Byte) (base fmt k row i : Nat) : Num :=
  let x := tileElt ldm base fmt k row i
  match fmt with
  | 1 => bf16.decode x
  | 2 => Num.ofInt false (sgn 8 x) 0
  | _ =>
    let sc := tileScale ldm base fmt k row (i / 32)
    let f := if fmt = 3 then e4m3 else if fmt = 4 then e5m2 else e2m1
    if sc = 0xFF then .nan else Num.scale ((sc : Int) - 127) (f.decode x)

/-- One block of 32 products added to an accumulator element and rounded once (R202, R203). -/
def mmaBlock (ldm : Sparse Byte) (m : Mma) (row col blk : Nat) (acc : W32) : W32 :=
  let fmt := m.fmt.toNat
  let prod (j : Nat) : Num :=
    Num.mul (tileNum ldm m.a.toNat (mmaSide fmt true) m.k row (32 * blk + j))
      (tileNum ldm m.b.toNat (mmaSide fmt false) m.k col (32 * blk + j))
  if fmt = 2 then
    let sum := (List.range 32).foldl (fun (z : Int) j =>
      z + sgn 8 (tileElt ldm m.a.toNat 2 m.k row (32 * blk + j)) * sgn 8 (tileElt ldm m.b.toNat 2 m.k col (32 * blk + j))) acc.toInt
    BitVec.ofInt 32 (max (-(2 ^ 31)) (min (2 ^ 31 - 1) sum))
  else
    match (List.range 32).foldl (fun z j => Num.add z (prod j)) (fp32.decode acc.toNat) with
    | .nan => 0x7FC00000
    | x => BitVec.ofNat 32 (fp32.encode false false 0 x)

/-- An accumulator element after the whole MMA: blocks in ascending order. -/
def mmaElt (ldm : Sparse Byte) (m : Mma) (acc : W32) (row col : Nat) : W32 :=
  (List.range (m.k / 32)).foldl (fun z blk => mmaBlock ldm m row col blk z) (if m.zero then 0 else acc)

/-- Key of an accumulator element. -/
def accKey (a : BitVec 2) (row col : Nat) : Nat := 4096 * a.toNat + 64 * row + col

/-- Accumulator element. -/
def accGet (acc : Sparse W32) (a : BitVec 2) (row col : Nat) : W32 := sget (fun _ => 0) acc (accKey a row col)

/-- All elements of an accumulator given by row and column. -/
def accBuild (acc : Sparse W32) (a : BitVec 2) (g : Nat → Nat → W32) : Sparse W32 :=
  (List.range 4096).foldl (fun z i => sset (fun _ => 0) z (4096 * a.toNat + i) (g (i / 64) (i % 64))) acc

/-- The accumulators after an MMA (R202). -/
def mmaRun (ldm : Sparse Byte) (acc : Sparse W32) (m : Mma) : Sparse W32 :=
  accBuild acc m.acc fun row col => mmaElt ldm m (accGet acc m.acc row col) row col

/-- Row ROW of an accumulator as 64 lanes (R206). -/
def accRow (acc : Sparse W32) (a : BitVec 2) (row : Nat) : BitVec 2048 :=
  ElTy.build .int32 fun j => (accGet acc a row j).toNat

/-- An accumulator with one row written (R206). -/
def accSetRow (acc : Sparse W32) (a : BitVec 2) (row : Nat) (v : BitVec 2048) : Sparse W32 :=
  (List.range 64).foldl (fun z j => sset (fun _ => 0) z (accKey a row j) (BitVec.ofNat 32 (ElTy.lane .int32 v j))) acc

/-- Greatest exponent e with 2^e at most the magnitude (R205). -/
def Num.log2 : Num → Option Int
  | .fin _ m e => if m = 0 then none else some (e + bitLen m - 1)
  | _ => none

/-- The scale byte of a block and its scaled elements' scale exponent; none for a block with a NaN or an infinity, whose scale is
0xFF (R205, R225). -/
def blockScale (emax : Int) (xs : List Num) : Option (Nat × Int) :=
  if xs.any fun x => (match x with | .fin _ _ _ => false | _ => true) then none
  else
    match (xs.filterMap Num.log2).foldl (fun (z : Option Int) e => some (match z with | none => e | some y => max y e)) none with
    | none => some (0, 0)
    | some top =>
      let e := max (-127) (min 127 (top - emax))
      some ((e + 127).toNat, e)

/-- A row of 64 elements packed at `w` bits each, as bytes. -/
def packBytes (w : Nat) (l : List Nat) : List Byte := natBytes (w * l.length / 8) (packLanes w l)

/-- Row `row` of an accumulator in a FMT: data bytes and scale bytes (R205, R207). `k` numbers the first of the 4096 free values
of an accumulator's NaNs. -/
def accstRow (acc : Sparse W32) (a : BitVec 2) (fmt : Nat) (sat rz : Bool) (k row : Nat) : List Byte × List Byte :=
  let raw := (List.range 64).map fun j => (accGet acc a row j).toNat
  let nums := raw.map fp32.decode
  match fmt with
  | 0 => (packBytes 32 raw, [])
  | 1 => (packBytes 16 (nums.mapIdx fun j x => bf16.encode rz sat (k + 64 * row + j) x), [])
  | 2 => (packBytes 8 (raw.mapIdx fun j x => laneCvt .fp32 .int8 rz true (k + 64 * row + j) x), [])
  | _ =>
    let f := if fmt = 3 then e4m3 else if fmt = 4 then e5m2 else e2m1
    let emax : Int := if fmt = 3 then 8 else if fmt = 4 then 15 else 2
    let blk (b : Nat) : List Nat × Nat :=
      let xs := (nums.drop (32 * b)).take 32
      match blockScale emax xs with
      | none => (List.replicate 32 0, 0xFF)
      | some (sc, e) => if sc = 0 ∧ xs.all (fun x => decide (x.log2 = none)) then (List.replicate 32 0, 0)
        else (xs.map fun x => f.encode rz sat k (Num.scale (-e) x), sc)
    let b0 := blk 0
    let b1 := blk 1
    (packBytes (fmtWidth fmt) (b0.1 ++ b1.1), [BitVec.ofNat 8 b0.2, BitVec.ofNat 8 b1.2])

/-- The bytes ACCST writes: 64 rows, then their scales (R201 with K = 64). -/
def accstBytes (acc : Sparse W32) (a : BitVec 2) (fmt : Nat) (sat rz : Bool) (k : Nat) : List Byte :=
  let rows := (List.range 64).map (accstRow acc a fmt sat rz k)
  rows.flatMap (·.1) ++ rows.flatMap (·.2)

end Sys2Proof.Machine
end

