-- ==== Sys2Proof/Machine/CoreOps.lean ====
section
/-! DEFINITION. The shared operations over cores: registers, waits and their release, exceptions, mooring locks, messages and fares,
core reset and fencing (04, 05). -/

namespace Sys2Proof.Machine

/-! ## The timetable window and the quiet marker (02 R49, R55, R56) -/

/-- A register of a core's timetable window. -/
def ttReg (s : State) (id : Fin 256) (o : Nat) : W32 := s.reg (ttBase id + o)

def setTtReg (s : State) (id : Fin 256) (o : Nat) (v : W32) : State := s.setReg (ttBase id + o) v

/-- TT_CTRL.EN. -/
def ttEn (s : State) (id : Fin 256) : Bool := bit (ttReg s id 0x8000) 0

/-- The dispatcher of a core changes. -/
def setTt (s : State) (id : Fin 256) (t : Dispatcher) : State := s.setCoreRaw id { s.core id with tt := t }

/-- A core counts as quiet with hint 0, whatever its timetable says (02 R56). -/
def forcedQuiet (s : State) (id : Fin 256) : Bool :=
  !(ttEn s id) || (match (s.core id).st with
    | .reset | .parked | .fenced => true
    | _ => false)

def coreQuiet (s : State) (id : Fin 256) : Bool := forcedQuiet s id || (s.core id).tt.quiet

def coreHint (s : State) (id : Fin 256) : Nat := if forcedQuiet s id then 0 else (s.core id).tt.hint.toNat

/-! ## Registers -/

/-- Reads a scalar register: s0 reads 0 (05 R172). -/
def Core.s (c : Core) (r : SReg) : W64 := if r = 0 then 0 else c.sreg.get r.toFin

/-- Writes a scalar register: writes to s0 are discarded (05 R172). -/
def Core.setS (c : Core) (r : SReg) (v : W64) : Core := if r = 0 then c else { c with sreg := c.sreg.set r.toFin v }

/-- Reads and writes a vector register. -/
def Core.v (c : Core) (r : VReg) : BitVec 2048 := c.vreg.get r.toFin

def Core.setV (c : Core) (r : VReg) (v : BitVec 2048) : Core := { c with vreg := c.vreg.set r.toFin v }

/-- The bundle at an IMEM address (05 R168, R169). -/
def Core.fetch (c : Core) (pc : W16) : BitVec 128 := BitVec.ofNat 128 (bytesNat (readBytes c.imem pc.toNat 16))

/-- The mask of FULL berths, and of FILLING ones (04 R135). -/
def Core.fullMask (c : Core) : W16 :=
  (List.finRange 16).foldl (fun m b => if (c.berths.get b).st = .full then setBit m b.val true else m) 0

def Core.fillMask (c : Core) : W16 :=
  (List.finRange 16).foldl (fun m b => if (c.berths.get b).st = .filling then setBit m b.val true else m) 0

/-- GC_BERTHS. -/
def Core.berthsWord (c : Core) : W32 := BitVec.ofNat 32 (c.fullMask.toNat + c.fillMask.toNat * 65536)

/-! ## Channels -/

/-- GC_CHANc_CFG: destination, BASE, COUNT (04 R118). -/
def chanCfg (s : State) (id : Fin 256) (ch : BitVec 4) : W32 := preg s (.gc id) (0x140 + 8 * ch.toNat)

def chanDest (cfg : W32) : W16 := BitVec.ofNat 16 (fld cfg 0 16)

def chanBase (cfg : W32) : Nat := fld cfg 16 4

def chanCount (cfg : W32) : Nat := fld cfg 20 5

/-- A channel with COUNT 0 is invalid; so are all channels of a core reset since they were loaded (04 R118, R133). -/
def chanValid (cfg : W32) : Bool := decide (0 < chanCount cfg)

def Core.chan (c : Core) (ch : BitVec 4) : Chan := c.chans.get ch.toFin

def Core.setChan (c : Core) (ch : BitVec 4) (x : Chan) : Core := { c with chans := c.chans.set ch.toFin x }

/-- Every valid channel is loaded with COUNT fares, once after the core leaves RESET (04 R119). -/
def loadFares (s : State) (id : Fin 256) (c : Core) : Core :=
  if c.loaded then c
  else { c with loaded := true
                chans := Vector.ofFn fun i : Fin 16 =>
                  { c.chans.get i with fares := BitVec.ofNat 5 (chanCount (chanCfg s id (BitVec.ofFin i))) } }

/-! ## Waits (04 R131) -/

/-- Wait cause of an operation (04 R131). -/
def Wait.cause : Wait → BitVec 4
  | .recv _ _ => 1
  | .send _ _ => 2
  | .acq _ _ => 3
  | .event _ _ => 4
  | .eventAll _ _ => 4
  | .mapW _ _ => 8
  | .pendingSlot _ => 8
  | .fence => 9
  | .rel _ _ => 9
  | .accessLimit _ => 9
  | .sync => 10

/-- Wait target of an operation (04 R131); the owner a LOCK wait shows is the one when it began. -/
def waitTarget (s : State) (id : Fin 256) : Wait → W32
  | .recv _ m => m.setWidth 32
  | .send _ d => BitVec.ofNat 32 (d.chan.toNat + (chanDest (chanCfg s id d.chan)).toNat * 65536)
  | .acq _ n => BitVec.ofNat 32 (n.val + (s.locks.get n).owner.toNat * 65536)
  | .event _ m => m
  | .eventAll _ m => m
  | .mapW _ i => BitVec.ofNat 32 i.val
  | .pendingSlot i => BitVec.ofNat 32 i.val
  | .fence => 0
  | .rel _ _ => 0
  | .accessLimit _ => 0
  | .sync => 0

/-- A core's waits change: a core that runs enters WAIT, and shows the first of them; it leaves WAIT for RUN when none is left. A bundle that
begins two waits, one of its S slot and one of its M slot, shows the M slot's first, which is the model's choice (assumption 51). GC_WAIT_STEP
keeps its value outside WAIT, which is the model's choice too: R131 makes only cause and target read 0. -/
def setWaits (s : State) (id : Fin 256) (c : Core) (ws : List Wait) : State :=
  match ws with
  | [] => s.setCore id { c with waits := [], st := (if c.st = .wait then .run else c.st), cause := 0, target := 0 }
  | w :: _ =>
    let same := decide (c.waits.head? = some w)
    s.setCore id { c with waits := ws, st := (if c.st = .run then .wait else c.st), cause := w.cause
                          target := (if same then c.target else waitTarget s id w)
                          waitStep := (if same then c.waitStep else s.tide.step.setWidth 32) }

/-- The lowest FULL berth of a mask (05 R189). -/
def Core.lowestFull (c : Core) (m : W16) : Option Nat := lowest (c.fullMask &&& m)

/-- RECV writes its register pair (05 R189); with an empty mask, all ones and 0 (R217). -/
def recvDone (c : Core) (rd : SReg) (b : Option Nat) : Core :=
  match b with
  | none => (c.setS rd (~~~0)).setS (rd + 1) 0
  | some i =>
    let x := c.berths.get (fin 16 i)
    (c.setS rd (BitVec.ofNat 64 (i + x.chan.toNat * 16 + x.src.toNat * 256 + x.len.toNat * 2 ^ 32))).setS (rd + 1)
      (x.tag.setWidth 64)

/-- Number of global loads and GAMOs, and of stores, outstanding (05 R195). -/
def GKind.isStore : GKind → Bool
  | .store _ => true
  | _ => false

def Core.loadsOut (c : Core) : Nat := (c.access.filter fun a => !a.kind.isStore).length

def Core.storesOut (c : Core) : Nat := (c.access.filter fun a => a.kind.isStore).length

/-- A slot is PENDING. -/
def Core.anyPending (c : Core) : Bool := c.slots.toList.any fun x => decide (x.st = .pending)

/-- What a wait becomes on the core alone: the core with the wait's result, or none while it goes on. Locks, MAP.W and SENDs end through
their own operations. -/
def waitCore (c : Core) : Wait → Option Core
  | .recv rd m => if m = 0 then some (recvDone c rd none) else (c.lowestFull m).map fun b => recvDone c rd (some b)
  | .event rd m =>
    if m = 0 then some (c.setS rd 0)
    else if c.events &&& m = 0 then none
    else some { c.setS rd ((c.events &&& m).setWidth 64) with events := c.events &&& ~~~m }
  | .eventAll rd m =>
    if c.events &&& m = m then some { c.setS rd (m.setWidth 64) with events := c.events &&& ~~~m } else none
  | .fence => if c.access.isEmpty then some c else none
  | .pendingSlot _ => if c.anyPending then none else some c
  | .sync => none
  | .accessLimit st => if (if st then c.storesOut < 64 else c.loadsOut < 32) then some c else none
  | _ => none

/-- Ends every wait of a core that can end on the core alone, the first first. In the safe state the cores keep their waits (12 R520). -/
def wakeCore (s : State) (id : Fin 256) : State :=
  let c := s.core id
  if c.waits.isEmpty || stopped s then s
  else
    let r := c.waits.foldl (fun (a : Core × List Wait) w =>
      match waitCore a.1 w with
      | some c' => (c', a.2)
      | none => (a.1, a.2 ++ [w])) (c, [])
    setWaits s id r.1 r.2

/-- Ends one wait of a core with a value for its register. -/
def endWait (s : State) (id : Fin 256) (w : Wait) (rd : SReg) (v : W64) : State :=
  let c := s.core id
  setWaits s id (c.setS rd v) (c.waits.filter fun x => decide (x ≠ w))

/-- Sets an event of a core and releases the waits it satisfies (05 R183). -/
def setEvent (s : State) (id : Fin 256) (e : BitVec 5) : State :=
  let c := s.core id
  wakeCore (s.setCore id { c with events := c.events ||| BitVec.ofNat 32 (2 ^ e.toNat) }) id

/-! ## Mooring locks (04 R137 to R144, 05 R191, R192) -/

def State.lock (s : State) (n : Fin 1024) : Lock := s.locks.get n

def State.setLock (s : State) (n : Fin 1024) (l : Lock) : State := { s with locks := s.locks.set n l }

/-- Partition of a lock's block (R142). -/
def lockPart (s : State) (n : Fin 1024) : Nat := preg64 s .ml 0x110 / 16 ^ (n.val / 64) % 16

/-- A core may use a lock: the ML page is enabled and the block belongs to its partition (R137, R142). -/
def lockAllowed (s : State) (id : Fin 256) (n : Fin 1024) : Bool :=
  enabled s .ml && decide (lockPart s n = partOf s id)

/-- The word ACQ writes: status, UNKNOWN, the lost owner, the epoch after a grant (05 R191). -/
def acqWord (status : Nat) (unknown : Bool) (owner epoch : Nat) : W64 :=
  BitVec.ofNat 64 (status + b2n unknown * 4 + owner * 256 + epoch * 65536)

/-- Takes a lock that is FREE or BROKEN for a core: the lock after and the word its ACQ writes (R139, R144). -/
def takeLock (l : Lock) (id : Fin 256) : Lock × W64 :=
  let b : Byte := BitVec.ofNat 8 id.val
  if l.st = .broken then
    ({ l with st := .held, owner := b, epoch := l.epoch + 1, unknown := false, last := some b },
      acqWord 1 l.unknown l.owner.toNat (l.epoch + 1).toNat)
  else ({ l with st := .held, owner := b, unknown := false, last := some b }, acqWord 0 false 0 l.epoch.toNat)

/-- The place of a core in the rotation that starts after `from_`, counting upwards and wrapping; from core 0 itself where there is none
(R140, R144). -/
def rotKey (from_ : Option Nat) (x : Fin 256) : Nat :=
  match from_ with
  | none => x.val
  | some o => (x.val + 511 - o) % 256

/-- The queued core whose ID comes first in the rotation after `from_` (R140, R144). -/
def nextQueued (q : List (Fin 256)) (from_ : Option Nat) : Option (Fin 256) :=
  let key := rotKey from_
  q.foldl (fun (a : Option (Fin 256)) x => match a with
    | none => some x
    | some y => if key x < key y then some x else some y) none

/-- Grants a FREE or BROKEN lock with requesters queued to the first in rotation (R140). -/
def serveLock (s : State) (n : Fin 1024) (from_ : Option Nat) : State :=
  let l := s.lock n
  match nextQueued l.queue from_ with
  | none => s
  | some id =>
    let r := takeLock { l with queue := l.queue.filter fun x => decide (x ≠ id) } id
    let s1 := cntPreg (s.setLock n r.1) .ml 0x118 1
    match (s1.core id).waits.find? fun w => (match w with | .acq _ m => decide (m = n) | _ => false) with
    | some (.acq rd m) => endWait s1 id (.acq rd m) rd r.2
    | _ => s1

/-- A HELD lock loses its owner (R138): BROKEN, source BROKEN, then the rotation of R140. -/
def breakLock (s : State) (n : Fin 1024) : State :=
  let l := s.lock n
  let s1 := s.setLock n { l with st := .broken, unknown := false }
  serveLock (raiseErr (cntPreg s1 .ml 0x11C 1) .ml 2 n.val) n (some l.owner.toNat)

/-- Breaks every lock a core holds, lowest number first (R138). -/
def breakLocksOf (s : State) (id : Fin 256) : State :=
  (List.finRange 1024).foldl (fun t n =>
    if (t.lock n).st = .held ∧ (t.lock n).owner.toNat = id.val then breakLock t n else t) s

/-- A core leaves every lock queue (R132, R157). -/
def leaveQueues (s : State) (id : Fin 256) : State :=
  let c := s.core id
  c.waits.foldl (fun t w => match w with
    | .acq _ n => t.setLock n { t.lock n with queue := (t.lock n).queue.filter fun x => decide (x ≠ id) }
    | _ => t) s

/-- Where the rotation among the ACQs of one cycle starts (R141): after the lock's last winner, and from core 0 where it has had none or its lost
owner is unknown (R144). -/
def rotFrom (l : Lock) : Option Nat := if l.unknown then none else l.last.map fun b => b.toNat

/-- An ACQ that finds the lock taken (R139): ACQ.T learns BUSY, ACQ joins the queue. -/
def lockTaken (s : State) (id : Fin 256) (n : Fin 1024) (try_ : Bool) : State × Option W64 :=
  if try_ then (s, some (acqWord 2 false 0 0)) else (s.setLock n { s.lock n with queue := (s.lock n).queue ++ [id] }, none)

/-- ACQ or ACQ.T reaches the lock unit (R139): the word it writes, or none when it joins the queue. A lock that a REL of the same cycle has
freed, with requesters queued, goes to the first of them and the new one in rotation (R155). ERR_ADDR of source RANGE holds the lock number,
which is the model's choice (assumption 18). -/
def acquire (s : State) (id : Fin 256) (n : Fin 1024) (try_ : Bool) : State × Option W64 :=
  let l := s.lock n
  if !(lockAllowed s id n) then (raiseErr s .ml 1 n.val, some (acqWord 3 false 0 0))
  else if l.st = .held then lockTaken (cntPreg s .ml 0x120 1) id n try_
  else if nextQueued (id :: l.queue) (rotFrom l) = some id then
    let r := takeLock l id
    (cntPreg (s.setLock n r.1) .ml 0x118 1, some r.2)
  else lockTaken (serveLock s n (rotFrom l)) id n try_

/-- REL reaches the lock unit (R140): the status it writes (05 R192). `rivals`: ACQs of the same cycle compete for the lock with those queued (R155).
The freed lock keeps showing its last OWNER, and ERR_ADDR of RANGE and NOT_OWNER holds the lock number: the model's choices (assumptions 18,
51). -/
def release (s : State) (id : Fin 256) (n : Fin 1024) (rivals : Bool) : State × W64 :=
  let l := s.lock n
  if !(lockAllowed s id n) then (raiseErr s .ml 1 n.val, 3)
  else if l.st = .held ∧ l.owner.toNat = id.val then
    let s1 := s.setLock n { l with st := .free, unknown := false }
    (if rivals then s1 else serveLock s1 n (some id.val), 0)
  else (raiseErr s .ml 0 n.val, 1)

/-! ## Exceptions (05 R210) -/

/-- The core enters HALT with a cause and the address of the bundle; it leaves its waits and lock queues. `corr` is the tag
of the link episode that caused it (12 R532). -/
def haltCore (s : State) (id : Fin 256) (cause : Byte) (pc : W16) (corr : Nat := 0) : State :=
  let s1 := leaveQueues s id
  let c := s1.core id
  let s2 := s1.setCore id { c with st := .halt, exc := cause, excPc := pc, waits := [], cause := 0, target := 0
                                   parking := c.parking && bit (preg s1 (.gc id) 0x110) 17 }
  raiseInt (raiseErrX s2 (.gc id) 0 0 corr (decide (cause = 0x05) || decide (cause = 0x09)) false) (.gc id) 16

/-- What the codes of LDM and the inbox find in the words a core reads (R113): LDM_CE or LDM_UE, with the local address in ERR_ADDR, which is the
model's choice (assumption 18). -/
def noteUpset (s : State) (id : Fin 256) (upset : Upset) (a : Nat) : State :=
  if upset = .corrected then raiseErr s (.gc id) 5 a
  else if upset = .uncorrectable then raiseErr s (.gc id) 6 a
  else s

/-- An exception that no bundle waits for (05 R211; 02 R51): a core that runs, waits or has parked meanwhile halts; one in HALT keeps what it
recorded. -/
def haltLate (s : State) (id : Fin 256) (cause : Byte) (pc : W16) (corr : Nat := 0) : State :=
  match (s.core id).st with
  | .run | .wait | .parked => haltCore s id cause pc corr
  | .reset | .halt | .fenced => s

/-! ## Sending (04 R121 to R125) -/

/-- The descriptor at an LDM address (R121); reserved bits are ignored (05 R187). -/
def readDesc (c : Core) (a : Nat) : MsgDesc :=
  let d : BitVec 128 := BitVec.ofNat 128 (bytesNat (readBytes c.ldm a 16))
  { src := BitVec.ofNat 20 (fld d 0 20), len := BitVec.ofNat 13 (fld d 32 13), chan := BitVec.ofNat 4 (fld d 48 4)
    evt := BitVec.ofNat 5 (fld d 56 5), evtEn := bit d 61, tag := BitVec.ofNat 32 (fld d 64 32) }

/-- Bytes of LDM (R112). -/
def ldmSize : Nat := 0xC0000

/-- The checks of R122 in order: 0 for all passed, else the status. -/
def sendCheck (s : State) (id : Fin 256) (d : MsgDesc) : Nat :=
  let cfg := chanCfg s id d.chan
  let dst := (chanDest cfg).toNat
  let len := d.len.toNat
  if len = 0 ∨ 4096 < len ∨ d.src.toNat % 64 ≠ 0 ∨ ldmSize < d.src.toNat + len then 1
  else if chanValid cfg = false then 2
  else if dst / 256 = fleetId s then
    (if partOf s (fin 256 dst) = partOf s id then 0 else 3)
  else if (routeOf s (dst / 256)).isNone then 4
  else 0

/-- A SEND that fails a check completes with its status (R122): GC_CHANc_STAT, which counts it among the SENDs completed, and the source of
PART_DENY or NO_ROUTE (04 R136, 05 R188), whose ERR_ADDR holds the channel: the model's choice (assumption 18). -/
def sendStatus (s : State) (id : Fin 256) (d : MsgDesc) (st : Nat) : State :=
  let c := s.core id
  let ch := c.chan d.chan
  let s1 := s.setCore id (c.setChan d.chan { ch with status := BitVec.ofNat 4 st, sent := ch.sent + 1 })
  if st = 3 then raiseErr s1 (.gc id) 3 d.chan.toNat
  else if st = 4 then raiseErr s1 (.gc id) 4 d.chan.toNat
  else s1

/-- The channel holds a fare, and for another fleet ID its port has room (R123, 10 R429). -/
def canSend (s : State) (id : Fin 256) (d : MsgDesc) : Bool :=
  let dst := chanDest (chanCfg s id d.chan)
  decide (0 < ((s.core id).chan d.chan).fares.toNat) &&
    (if dst.toNat / 256 = fleetId s then true
     else match routeOf s (dst.toNat / 256) with
      | some n => xlRoom s n (BitVec.ofNat 8 (dst.toNat / 256))
      | none => false)

/-- Spends a fare of a channel (R119). -/
def spendFare (s : State) (id : Fin 256) (ch : BitVec 4) : State :=
  let c := s.core id
  s.setCore id (c.setChan ch { c.chan ch with fares := (c.chan ch).fares - 1 })

/-- The message leaves: its payload is read from LDM, it takes the next berth of its channel's run, and it enters the mesh or its
port's open bundle, in the place it holds there or at the end (R123, R125, 10 R429). It counts as completed, as one that fails its check does (R122, R135:
DEDUCED, assumption 51). -/
def launch (s : State) (id : Fin 256) (d : MsgDesc) (placed : Bool := false) : State :=
  let c := s.core id
  let cfg := chanCfg s id d.chan
  let dst := chanDest cfg
  let ch := c.chan d.chan
  let berth := (chanBase cfg + ch.rot.toNat) % 16
  let rot := if ch.rot.toNat + 1 < chanCount cfg then ch.rot + 1 else 0
  let data := readBytes c.ldm d.src.toNat d.len.toNat
  let s1 := s.setCore id (c.setChan d.chan { ch with rot := rot, sent := ch.sent + 1, status := 0 })
  let s2 := cntPreg s1 (.gc id) 0x248 1
  if dst.toNat / 256 = fleetId s then
    { s2 with mesh := s2.mesh ++ [{ dst := fin 256 dst.toNat, berth := fin 16 berth, src := gcAddr s id.val, chan := d.chan
                                    epoch := c.epoch, len := d.len, tag := d.tag, evtEn := d.evtEn, evt := d.evt, data := data
                                    via := none, lateEvt := none, filling := false }] }
  else
    let m : BMsg := { core := BitVec.ofNat 8 dst.toNat, berth := BitVec.ofNat 4 berth, chan := d.chan, src := gcAddr s id.val, epoch := c.epoch
                      evtEn := d.evtEn, evt := d.evt, len := d.len, tag := d.tag, data := data }
    if placed then xlFill s2 id m
    else match routeOf s (dst.toNat / 256) with
      | some n => xlAppend s2 n (BitVec.ofNat 8 (dst.toNat / 256)) m
      | none => s2

/-- A SEND that can go spends its fare and, for another fleet ID, takes its place in an assembly buffer; its payload is then read out (R123, 10
R429). -/
def beginSend (s : State) (id : Fin 256) (rd : SReg) (d : MsgDesc) : State :=
  let dst := chanDest (chanCfg s id d.chan)
  let s1 := spendFare s id d.chan
  let s2 := if dst.toNat / 256 = fleetId s then s1
    else match routeOf s (dst.toNat / 256) with
      | some n => xlReserve s1 n (BitVec.ofNat 8 (dst.toNat / 256)) id
      | none => s1
  s2.setCore id { s2.core id with sending := some (rd, d) }

/-- A SEND that waits with cause FARE goes on when it can (R123). -/
def resumeSend (s : State) (id : Fin 256) : State :=
  let c := s.core id
  match c.waits.find? fun w => (match w with | .send _ _ => true | _ => false) with
  | some (.send rd d) =>
    if canSend s id d then
      let s1 := beginSend s id rd d
      setWaits s1 id (s1.core id) ((s1.core id).waits.filter fun w => decide (w ≠ .send rd d))
    else s
  | _ => s

/-- Timetable SENDs of a core leave as their own fares and port credits allow, those of one channel in their order (02 R52). -/
def drainSendQ (s : State) (id : Fin 256) : State :=
  let r := (s.core id).tt.sendQ.foldl (fun (a : State × List MsgDesc) d =>
    if (a.2.any fun x => decide (x.chan = d.chan)) = false ∧ canSend a.1 id d = true then (launch (spendFare a.1 id d.chan) id d, a.2)
    else (a.1, a.2 ++ [d])) (s, [])
  setTt r.1 id { (r.1.core id).tt with sendQ := r.2 }

/-- A fare or a port credit came back to a core: the core's own SEND first, then its timetable's (R123, 02 R52). -/
def wakeSender (s : State) (id : Fin 256) : State := drainSendQ (resumeSend s id) id

/-- Credits came back to a port: every core tries, in core ID order (10 R429, R431; assumption 14). -/
def wakeSenders (s : State) : State :=
  (List.finRange 256).foldl (fun t id =>
    if (t.core id).waits.isEmpty && (t.core id).tt.sendQ.isEmpty then t else wakeSender t id) s

/-! ## Receiving (04 R126 to R129) -/

/-- Bytes delivered into a berth (R112). -/
def berthBase (b : Fin 16) : Nat := 0x1000 * b.val

/-- A message is dropped: GC_DROP, no fare (R128, R129). ERR_ADDR holds the sender; for DROP and MESH_PE that is the model's choice
(assumption 18). -/
def dropMsg (s : State) (id : Fin 256) (src : Option Nat) (addr : Nat) : State :=
  let s1 := cntPreg s (.gc id) 0x240 1
  match src with
  | some k => raiseErr s1 (.gc id) k addr
  | none => s1

/-- What a berth records of a message (R126). -/
def berthOf (m : MeshMsg) (st : BerthState) (injected : Bool) (tick : Option (BitVec 48 × BitVec 26)) : Berth :=
  ⟨st, m.src, m.chan, m.epoch, m.len, m.tag, m.via, injected, tick⟩

/-- Why a message is not taken (R128, R129): source DROP at a core in RESET or FENCED, BERTH_OVERRUN at a berth that is not EMPTY. One whose
first flit was taken has its berth already. -/
def refuseMsg (s : State) (m : MeshMsg) : Option Nat :=
  let c := s.core m.dst
  if c.st = .reset ∨ c.st = .fenced then some 2
  else if m.filling = false ∧ (c.berths.get m.berth).st ≠ .empty then some 1
  else none

/-- The first flit of message `i` in flight arrives (R126): its berth becomes FILLING, or the message is dropped. -/
def beginFill (s : State) (i : Nat) (m : MeshMsg) : State :=
  match refuseMsg s m with
  | some k => dropMsg { s with mesh := dropAt s.mesh i } m.dst (some k) m.src.toNat
  | none =>
    let c := s.core m.dst
    ({ s with mesh := s.mesh.set i { m with filling := true } } : State).setCore m.dst
      { c with berths := c.berths.set m.berth (berthOf m .filling false none)
               inbox := writeBytes c.inbox (berthBase m.berth) (m.data.take 64) }

/-- A message completes at its core (R126, R128, R129): the berth becomes FULL and records the sender, then the event and the RECV. -/
def deliver (s : State) (m : MeshMsg) (injected : Bool) : State :=
  let c := s.core m.dst
  match refuseMsg s m with
  | some k => dropMsg s m.dst (some k) m.src.toNat
  | none =>
    let b := berthOf m .full injected (tickNow s)
    let c1 := { c with berths := c.berths.set m.berth b, inbox := writeBytes c.inbox (berthBase m.berth) m.data
                       events := (if m.evtEn then c.events ||| one32 m.evt.toNat else c.events)
                                  ||| (match m.lateEvt with | some e => one32 e.toNat | none => 0) }
    wakeCore (cntPreg (s.setCore m.dst c1) (.gc m.dst) 0x24C 1) m.dst

/-- A message fails parity (R136): it is dropped as in R128, and a berth that its first flit had taken is EMPTY again (assumption 37). -/
def spoilMsg (s : State) (m : MeshMsg) : State :=
  let c := s.core m.dst
  let s1 := if m.filling && decide ((c.berths.get m.berth).st = .filling) then s.setCore m.dst { c with berths := c.berths.set m.berth berthReset }
    else s
  dropMsg s1 m.dst (some 8) m.src.toNat

/-- Messages of which a core that is reset has taken the first flit are dropped (R125, R129, R133). -/
def dropFilling (s : State) (id : Fin 256) : State :=
  let mine (m : MeshMsg) : Bool := m.filling && decide (m.dst = id)
  (s.mesh.filter mine).foldl (fun t m => dropMsg t id (some 2) m.src.toNat) { s with mesh := s.mesh.filter fun m => !(mine m) }

/-- A fare return arrives (R120, R127): discarded where the epoch is stale or the channel invalid, else a fare, which a waiting SEND
spends at once (R152). -/
def arriveFare (s : State) (m : FareMsg) : State :=
  let id := fin 256 m.dst.toNat
  let c := s.core id
  let cfg := chanCfg s id m.chan
  if m.epoch ≠ c.epoch ∨ chanValid cfg = false then cntPreg s (.gc id) 0x244 1
  else
    let ch := c.chan m.chan
    wakeSender (s.setCore id (c.setChan m.chan { ch with fares := BitVec.ofNat 5 (min (ch.fares.toNat + 1) 16) })) id

/-- BREL (05 R190, 04 R127): a FULL berth becomes EMPTY and its fare goes back by the way its message came. A message injected by the
mailbox was paid for by no fare (06 R251). -/
def berthRelease (s : State) (id : Fin 256) (b : Fin 16) : State :=
  let c := s.core id
  let x := c.berths.get b
  if x.st = .full then
    let s1 := s.setCore id { c with berths := c.berths.set b berthReset }
    if x.injected then s1 else routeFare s1 (x.via.getD 0) x.via ⟨x.src, x.chan, x.epoch⟩
  else s

/-! ## Reset and fencing of a core (04 R133, R134) -/

/-- Registers of a GC page that a core reset keeps: the counters (R133). -/
def gcKept (o : Nat) : Bool := decide (0x240 ≤ o)

/-- Removes the listed registers of a page at 0x100 and above, but those `keep` names: they return to their reset values. -/
def resetRegs (s : State) (p : Page) (keep : Nat → Bool) : State :=
  { s with regs := s.regs.filter fun e =>
      !(decide (pageBase p + 0x100 ≤ e.1) && decide (e.1 < pageBase p + 0x1000) && !(keep (e.1 - pageBase p))) }

/-- What a core reset leaves of a core (R133): registers, events, queues, slots, berths and channels cleared, the epoch one up; LDM, IMEM
and the timetable kept. Stores already out stay out. GC_STATE.PART reads its reset value while the core is in RESET (R110). -/
def coreCleared (c : Core) (st : CoreState) : Core :=
  { coreReset with st := st, cycles := 0, epoch := c.epoch + 1, ldm := c.ldm, imem := c.imem, inbox := c.inbox
                   access := c.access.filter fun a => a.kind.isStore, tt := { c.tt with sendQ := [] } }

/-- What a core reset does once the core's locks are lost (R133): it ends in RESET with CTRL.ENABLE as the caller leaves it. Writes of a
reset core towards the host are no longer discarded (09 R393). A payload being read is given up with its fare. -/
def clearCore (s : State) (id : Fin 256) : State :=
  let s2 := xlCancel s id
  let s3 := s2.setCore id (coreCleared (s2.core id) .reset)
  let s4 := dropFilling (resetRegs s3 (.gc id) gcKept) id
  { s4 with frz := { s4.frz with cores := setBit s4.frz.cores id.val false } }

/-- Cores lose their locks in one cycle (R138, R149, R157): all of them leave the lock queues before the first lock breaks. -/
def loseLocks (s : State) (ids : List (Fin 256)) : State := ids.foldl breakLocksOf (ids.foldl leaveQueues s)

/-- A core reset (R133). -/
def resetCore (s : State) (id : Fin 256) : State := clearCore (loseLocks s [id]) id

/-- What fencing does to a core once its locks are lost (R134): it stops, an unread message is lost with its fare, CTRL.ENABLE clears. Stores
already out complete. A core that leaves RESET for FENCED latches its partition (R110). -/
def stopFenced (s : State) (id : Fin 256) : State :=
  let s2 := xlCancel s id
  let c := s2.core id
  let s3 := s2.setCore id { c with st := .fenced, waits := [], cause := 0, target := 0, sending := none, parking := false, mmas := []
                                   part := (if c.st = .reset then BitVec.ofNat 4 (partOfCluster s (clusterOf id).val) else c.part)
                                   access := c.access.filter fun a => a.kind.isStore
                                   tt := { c.tt with sendQ := [] } }
  clrPreg s3 (.gc id) 8 1

/-- Cores are fenced in one cycle (R134); one that is FENCED stays as it is. -/
def fenceCores (s : State) (ids : List (Fin 256)) : State :=
  let new := ids.filter fun id => decide ((s.core id).st ≠ .fenced)
  new.foldl stopFenced (loseLocks (ids.foldl (fun t id => orPreg t (.gc id) 8 2) s) new)

/-- Fencing a core (R134). -/
def fenceCore (s : State) (id : Fin 256) : State := fenceCores s [id]

/-- FENCE of a core returns to 0 (R134): a core reset, and it stays in RESET. -/
def unfenceCore (s : State) (id : Fin 256) : State :=
  let s1 := clrPreg s (.gc id) 8 2
  if fenced s (.gc id) ∨ (s.core id).st = .fenced then resetCore s1 id else s1

/-- PARK asked for: the core leaves its wait and its lock queues, and parks once its stores are accepted and its MMAs done (R132, 05
R221). -/
def askPark (s : State) (id : Fin 256) : State :=
  let c := s.core id
  match c.st with
  | .run | .halt => s.setCore id { c with parking := true }
  | .wait =>
    let s1 := leaveQueues s id
    s1.setCore id { s1.core id with st := .run, waits := [], cause := 0, target := 0, parking := true }
  | _ => s

/-- The core's stores are accepted and its MMAs complete. A store that a freeze has discarded was accepted (09 R392). -/
def Core.parkReady (c : Core) : Bool :=
  c.parking && (c.access.all fun a => !a.kind.isStore || a.sent || a.lost) && c.mmas.isEmpty && decide (c.sending = none)

/-- A start at an IMEM address: a PARKED core runs, and so does one in HALT with GC_EXC cleared; any other ignores it (R132, R161). One started from PARKED is not quiet
and has hint 0 (02 R56). In the safe state the cores keep their state (12 R520). -/
def startCore (s : State) (id : Fin 256) (pc : W16) : State :=
  let c := s.core id
  if stopped s then s
  else match c.st with
  | .parked =>
    let c1 := loadFares s id c
    s.setCore id { c1 with st := .run, pc := pc, fetchQ := [], tt := { c1.tt with hint := 0, quiet := false } }
  | .halt => s.setCore id { loadFares s id c with st := .run, pc := pc, fetchQ := [], exc := 0, excPc := 0 }
  | _ => s

end Sys2Proof.Machine
end

