-- ==== Sys2Proof/Machine/Memory.lean ====
section
/-! DEFINITION. Device memory: granules and poison, the region map, the memory controllers and the scrub (08 R336 to R340; 11 R481 to
R483, R503). -/

namespace Sys2Proof.Machine

/-- Device memory in bytes: 288 GiB (01). -/
def dmSize : Nat := 2 ^ 26 * 4608

/-- Where a region lies, 1024stack + slot: the map's entry, or the identity (11 R483). -/
def placeOf (s : State) (region : Nat) : Nat :=
  match slook s.pl.map region with
  | some p => p.toNat
  | none => region % 8 * 1024 + region / 8

/-- The stack that holds a device physical address; a chunk of a swap in progress already copied lies in its new place (11 R485). -/
def stackOf (s : State) (pa : Nat) : Fin 8 :=
  let r := pa / 2 ^ 26
  let chunk := pa % 2 ^ 26 / 65536
  match s.pl.cur with
  | some (a, b) =>
    if chunk < s.pl.prog.toNat ∧ r = a.toNat then fin 8 (placeOf s b.toNat / 1024)
    else if chunk < s.pl.prog.toNat ∧ r = b.toNat then fin 8 (placeOf s a.toNat / 1024)
    else fin 8 (placeOf s r / 1024)
  | none => fin 8 (placeOf s r / 1024)

/-- A granule's data, and whether it is poisoned (R336). -/
def granData (s : State) (g : Nat) : BitVec 256 := BitVec.ofNat 256 (bytesNat (readBytes s.dm (32 * g) 32))

def granPoison (s : State) (g : Nat) : Bool := sget (fun _ => false) s.poison g

/-- Stores a granule with its marker. -/
def setGran (s : State) (g : Nat) (d : BitVec 256) (poison : Bool) : State :=
  { s with dm := writeBytes s.dm (32 * g) (natBytes 32 d.toNat), poison := sset (fun _ => false) s.poison g poison }

/-- A controller reports a corrected granule (R336): MC_CE_CNT, its address and the source; the scrub's window counts it (11 R481). -/
def reportCe (s : State) (n : Fin 8) (g : Nat) : State :=
  let s1 := setPreg64 (cntPreg s (.mc n) 0x100 1) (.mc n) 0x118 (32 * g)
  let b := s1.scrubs.get n
  raiseErr { s1 with scrubs := s1.scrubs.set n { b with ce := satAdd b.ce 1 } } (.mc n) 0 (32 * g)

/-- A controller reports an uncorrectable granule (R336). -/
def reportUe (s : State) (n : Fin 8) (g : Nat) : State :=
  raiseErr (setPreg64 (cntPreg s (.mc n) 0x104 1) (.mc n) 0x120 (32 * g)) (.mc n) 1 (32 * g)

/-- A controller reads a granule (R336): it corrects it, or poisons it, or reports that it is poisoned. -/
def mcReadGran (s : State) (n : Fin 8) (g : Nat) (h : Health) : State :=
  if granPoison s g then raiseErr s (.mc n) 2 (32 * g)
  else match h with
    | .clean => s
    | .ce => reportCe s n g
    | .ue => reportUe (setGran s g (granData s g) true) n g

/-- A full-granule write (R337): it clears poison. -/
def mcFullGran (s : State) (n : Fin 8) (g : Nat) (d : BitVec 256) : State :=
  let s1 := when (granPoison s g) (fun t => cntPreg t (.mc n) 0x10C 1) s
  setGran s1 g d false

/-- Merged data of a granule. -/
def mergeGran (old new : BitVec 256) (mask : BitVec 32) : BitVec 256 :=
  (old &&& ~~~(maskBits mask 256)) ||| (new &&& maskBits mask 256)

/-- A partial-granule write is a read-modify-write (R338). -/
def mcPartGran (s : State) (n : Fin 8) (g : Nat) (d : BitVec 256) (mask : BitVec 32) (h : Health) : State :=
  let s1 := cntPreg s (.mc n) 0x110 1
  let m := mergeGran (granData s g) d mask
  if granPoison s g then raiseErr (cntPreg (setGran s1 g m true) (.mc n) 0x108 1) (.mc n) 3 (32 * g)
  else match h with
    | .clean => setGran s1 g m false
    | .ce => reportCe (setGran s1 g m false) n g
    | .ue => cntPreg (reportUe (setGran s1 g m true) n g) (.mc n) 0x108 1

/-- A granule number lies in device memory and in a stack (11 R483). -/
def granInStack (s : State) (n : Fin 8) (g : Nat) : Bool := decide (32 * g < dmSize) && decide (stackOf s (32 * g) = n)

/-- A fenced stack refuses the line (12 R516): only the fixed regions, which none but the hub reaches, are still served. -/
def stackRefuses (s : State) (num : Nat) : Bool :=
  fenced s (.mc (stackOf s (64 * num))) && decide (64 * num / 2 ^ 26 < 4592)

/-- A write that a fenced stack refuses is discarded, and reported by UE with its address (12 R516). -/
def refuseWrite (s : State) (n : Fin 8) (g : Nat) : State := raiseErr s (.mc n) 1 (32 * g)

/-- MC_READ (08 R336). A granule that the stack does not hold is not read there (assumption 9); one that the stack refuses is answered with poison,
and not read (12 R516). -/
def execMcRead (stack : Fin 8) (granule : BitVec 34) (health : Health) (s : State) : Res :=
  .next (if granInStack s stack granule.toNat && !(stackRefuses s (granule.toNat / 2)) then mcReadGran s stack granule.toNat health else s)

/-- MC_PARTIAL_WRITE (08 R338): a mask that covers the granule makes it a full write, an empty one no write. -/
def execMcPartialWrite (stack : Fin 8) (granule : BitVec 34) (data : BitVec 256) (mask : BitVec 32) (health : Health) (s : State) : Res :=
  .next (if !(granInStack s stack granule.toNat) ∨ mask = 0 then s
    else if stackRefuses s (granule.toNat / 2) then refuseWrite s stack granule.toNat
    else if mask = BitVec.allOnes 32 then mcFullGran s stack granule.toNat data
    else mcPartGran s stack granule.toNat data mask health)

/-- A full write and a partial write that arrive together, in matrix arrival order (R356): the marker of a poisoned granule is gone afterwards
only if the full write is last. -/
def mcBothGran (s : State) (n : Fin 8) (g : Nat) (d : BitVec 256) (part : BitVec 256) (mask : BitVec 32) (fullLast : Bool) : State :=
  if fullLast then mcFullGran (mcPartGran s n g part mask .clean) n g d
  else
    let was := granPoison s g
    let s1 := mcFullGran s n g d
    mcPartGran (setGran s1 g d was) n g part mask .clean

/-- MC_FULL_WRITE (08 R337). -/
def execMcFullWrite (stack : Fin 8) (granule : BitVec 34) (data : BitVec 256) (rival : Option (BitVec 256 × BitVec 32 × Bool)) (s : State) : Res :=
  .next (if granInStack s stack granule.toNat then
      if stackRefuses s (granule.toNat / 2) then
        (match rival with
          | some _ => refuseWrite (refuseWrite s stack granule.toNat) stack granule.toNat
          | none => refuseWrite s stack granule.toNat)
      else
      (match rival with
        | some r => mcBothGran s stack granule.toNat data r.1 r.2.1 r.2.2
        | none => mcFullGran s stack granule.toNat data)
    else s)

/-! ## Lines of device memory -/

/-- The two granules of a 64-byte line and their markers: bit 0 for the lower one. A line that a fenced stack refuses reads as poison (12
R516). -/
def memLine (s : State) (num : Nat) : BitVec 512 × BitVec 2 :=
  (BitVec.ofNat 512 (bytesNat (readBytes s.dm (64 * num) 64)),
    if stackRefuses s num then 3 else BitVec.ofNat 2 (b2n (granPoison s (2 * num)) + 2 * b2n (granPoison s (2 * num + 1))))

/-- A read of a line by its controller: each poisoned granule reports POISON_READ (R336). -/
def readLineAt (s : State) (num : Nat) : State :=
  if stackRefuses s num then s
  else mcReadGran (mcReadGran s (stackOf s (64 * num)) (2 * num) .clean) (stackOf s (64 * num)) (2 * num + 1) .clean

/-- A write of part or all of a granule that carries poison: the bytes are merged and the poison pattern is written. A part of one is a
read-modify-write that leaves it poisoned, and reports a granule that was poisoned before (R338). -/
def mcPoisonGran (s : State) (n : Fin 8) (g : Nat) (d : BitVec 256) (mask : BitVec 32) : State :=
  let s1 := setGran s g (mergeGran (granData s g) d mask) true
  if mask = BitVec.allOnes 32 then s1
  else
    let s2 := cntPreg (cntPreg s1 (.mc n) 0x110 1) (.mc n) 0x108 1
    if granPoison s g then raiseErr s2 (.mc n) 3 (32 * g) else s2

/-- Writes one granule of a line: its part of the data, mask and poison. A poisoned granule is stored with the poison pattern; a whole
clean granule is a full write. A write that a fenced stack refuses is discarded, and reported by UE (12 R516). -/
def writeGranOf (s : State) (num half : Nat) (d : BitVec 512) (mask : BitVec 64) (p : BitVec 2) : State :=
  let g := 2 * num + half
  let n := stackOf s (64 * num)
  let gd : BitVec 256 := d.extractLsb' (256 * half) 256
  let gm : BitVec 32 := mask.extractLsb' (32 * half) 32
  if gm = 0 then s
  else if stackRefuses s num then refuseWrite s n g
  else if p.getLsbD half then mcPoisonGran s n g gd gm
  else if gm = BitVec.allOnes 32 then mcFullGran s n g gd
  else mcPartGran s n g gd gm .clean

/-- Writes the masked bytes of a line to device memory, with poison markers. -/
def writeLineAt (s : State) (num : Nat) (d : BitVec 512) (mask : BitVec 64) (p : BitVec 2) : State :=
  writeGranOf (writeGranOf s num 0 d mask p) num 1 d mask p

/-! ## Scrub (11 R481, R482, R503) -/

/-- Device physical granule of the `k`-th granule of a stack. A slot holds 2^21 granules. None where no region lies there. -/
def stackGran (s : State) (n : Fin 8) (k : Nat) : Option Nat :=
  let place := n.val * 1024 + k / 2 ^ 21
  let home := k / 2 ^ 21 * 8 + n.val
  let hit (r : Nat) : Bool := decide (placeOf s r = place)
  if hit home then some (home * 2 ^ 21 + k % 2 ^ 21)
  else ((s.pl.map.map fun e => e.1).find? hit).map fun r => r * 2 ^ 21 + k % 2 ^ 21

/-- Granules in a stack: 36 GiB. -/
def stackGrans : Nat := 36 * 2 ^ 25

/-- The chunk in progress blocks an address: it lies in that chunk of either region (11 R485; 06 R263). -/
def chunkBlocks (s : State) (pa : Nat) : Bool :=
  s.pl.chunk && decide (pa % 2 ^ 26 / 65536 = s.pl.prog.toNat) &&
    (match s.pl.cur with
      | some (a, b) => decide (pa / 2 ^ 26 = a.toNat) || decide (pa / 2 ^ 26 = b.toNat)
      | none => false)

/-- A scrub read of a granule; a partial write that reaches it in the same cycle is performed first, and its read-modify-write meets what the code
finds (08 R355). -/
def scrubGran (s : State) (n : Fin 8) (g : Nat) (health : Health) (write : Option (BitVec 256 × BitVec 32)) : State :=
  match write with
  | some (d, mask) =>
    mcReadGran (if mask = BitVec.allOnes 32 then mcFullGran s n g d else mcPartGran s n g d mask health) n g .clean
  | none => mcReadGran s n g health

/-- SCRUB_READ (11 R481): the stack's next granule is read under R336. A read that meets the chunk in progress is held (R497). -/
def execScrubRead (stack : Fin 8) (health : Health) (write : Option (BitVec 256 × BitVec 32)) (s : State) : Res :=
  let b := s.scrubs.get stack
  let s1 := { s with scrubs := s.scrubs.set stack { b with next := BitVec.ofNat 31 ((b.next.toNat + 1) % stackGrans) } }
  .next (if fenced s (.mc stack) then s
    else match stackGran s stack b.next.toNat with
      | some g => if chunkBlocks s (32 * g) then s else scrubGran s1 stack g health write
      | none => s1)

/-- Bounds of the pass time. -/
def clampPass (s : State) (p : Nat) : Nat := min (max p (fld (preg s .al 0x148) 0 24)) (fld (preg s .al 0x14C) 0 24)

/-- The pass time of a stack after a window (R481): halved above CE_HI, doubled after 8 windows below CE_LO, or pinned; the longest while
the AL page is disabled. -/
def scrubWindowOf (s : State) (n : Fin 8) : State :=
  let b := s.scrubs.get n
  let ce := b.ce.toNat
  let low := if ce < (preg s .al 0x158).toNat then b.low + 1 else 0
  let p := if enabled s .al = false then fld (preg s .al 0x14C) 0 24
    else if bit (preg s .al 0x140) 0 then fld (preg s .al 0x150) 0 24
    else if (preg s .al 0x154).toNat < ce then b.pass.toNat / 2
    else if 8 ≤ low then b.pass.toNat * 2
    else b.pass.toNat
  let low' := if 8 ≤ low then 0 else low
  let s1 := { s with scrubs := s.scrubs.set n { b with pass := BitVec.ofNat 24 (clampPass s p), ce := 0, low := low' } }
  if (preg s .al 0x15C).toNat < ce then raiseErr s1 .al 5 n.val else s1

/-- SCRUB_WINDOW (11 R481). -/
def execScrubWindow (s : State) : Res := .next ((List.finRange 8).foldl scrubWindowOf s)

/-- A write of AL_SCRUB_PASS_MIN: above AL_SCRUB_PASS_MAX it is rejected (R503). -/
def alScrubPassMinWrite (s : State) (v : W32) : State :=
  if bit (preg s .al 0x44) 0 = false ∧ fld (preg s .al 0x14C) 0 24 < fld v 0 24 then raiseErr s .al 6 0x148
  else (pageWrite s .al 0x148 v).st

/-- AL_SCRUB_PASS_MIN_WRITE (11 R503). -/
def execAlScrubPassMinWrite (v : W32) (s : State) : Res := .next (alScrubPassMinWrite s v)

end Sys2Proof.Machine
end

