-- ==== Sys2Proof/Machine/Coherence.lean ====
section
/-! DEFINITION. The caches and the home slices: lookup, transitions, eviction, back-invalidates, and the service of requests by home
(08 R317 to R326, R341, R342). -/

namespace Sys2Proof.Machine

/-! ## Lines, sets and lookup -/

/-- Key of a line. -/
def lineKey (l : Line) : Nat := l.num.toNat + b2n l.host * 2 ^ 46

/-- The line of an address. -/
def lineOf (host : Bool) (pa : Nat) : Line := ⟨host, BitVec.ofNat 46 (pa / 64)⟩

/-- Home slice (R318): PA[9:6] ⊕ PA[13:10] ⊕ PA[17:14] ⊕ PA[21:18]. -/
def homeOf (l : Line) : Fin 16 :=
  BitVec.toFin (l.num.extractLsb' 0 4 ^^^ l.num.extractLsb' 4 4 ^^^ l.num.extractLsb' 8 4 ^^^ l.num.extractLsb' 12 4)

/-- Set of a line in its cluster cache, PA[18:6], and in its slice, PA[21:10] (R317). -/
def ccSetOf (key : Nat) : Nat := key % 2 ^ 13

def slSetOf (key : Nat) : Nat := key / 16 % 2 ^ 12

/-- The line of a key. -/
def keyLine (key : Nat) : Line := ⟨decide (2 ^ 46 ≤ key), BitVec.ofNat 46 key⟩

/-- Puts or removes an optional entry. -/
def sopt {α : Type} (m : Sparse α) (k : Nat) : Option α → Sparse α
  | some v => sput k v m
  | none => serase k m

/-- A cluster cache's copy of a line. -/
def ccLine (s : State) (cl : Fin 16) (l : Line) : Option CLine := slook (s.cl cl).cc.lines (lineKey l)

def setCcLine (s : State) (cl : Fin 16) (l : Line) (x : Option CLine) : State :=
  let c := s.cl cl
  s.setCl cl { c with cc := { c.cc with lines := sopt c.cc.lines (lineKey l) x } }

/-- Home's entry of a line. -/
def slLine (s : State) (l : Line) : Option SLine := slook (s.slice (homeOf l)).lines (lineKey l)

/-- An entry with nothing in it. -/
def noLine : SLine := ⟨none, 0, 0, 0, none, false, false, .none, none⟩

/-- Home's entry, or an empty one. -/
def slGet (s : State) (l : Line) : SLine := (slLine s l).getD noLine

/-- An entry records nothing and goes. -/
def SLine.idle (e : SLine) : Bool := e.data.isNone && decide (e.presence = 0) && decide (e.h = .none) && decide (e.cxl = none)

def setSl (s : State) (l : Line) (e : SLine) : State :=
  let n := homeOf l
  let x := s.slice n
  s.setSlice n { x with lines := sopt x.lines (lineKey l) (if e.idle then none else some e) }

/-- Page of a slice, and of a cluster. -/
def dcPage (l : Line) : Page := .dc (homeOf l)

/-- Ways of a cluster cache, and of a slice, that are enabled (R333). -/
def ccWays (s : State) (cl : Fin 16) : List Nat :=
  let off := preg s (.cl cl) 0x108
  (List.range 8).filter fun w => !(bit off w) && !(bit off (w + 8))

def slWays (s : State) (n : Fin 16) : List Nat :=
  let off := preg s (.dc n) 0x104
  (List.range 16).filter fun w => !(bit off w) && !(bit off (w + 16))

/-- Slices may hold host lines (09 R367). -/
def hostCaching (s : State) : Bool := !s.cxl.disCache

/-- Runs of set bits of a byte mask: start and length. -/
def maskRuns (mask : BitVec 64) : List (Nat × Nat) :=
  (List.range 64).foldl (fun acc i =>
    if mask.getLsbD i then
      match acc.getLast? with
      | some (st, n) => if st + n = i then acc.dropLast ++ [(st, n + 1)] else acc ++ [(i, 1)]
      | none => [(i, 1)]
    else acc) []

/-- The masked bytes of a line go to the host as writes of a master (09 R366). -/
def hostWriteLine (s : State) (master : Nat) (core : Byte) (num : Nat) (d : BitVec 512) (mask : BitVec 64) (p : BitVec 2) (relaxed : Bool) :
    State :=
  (maskRuns mask).foldl (fun t r => sendWrite t
    { master := BitVec.ofNat 6 master, core := core, addr := BitVec.ofNat 64 (64 * num + r.1)
      bytes := ((natBytes 64 d.toNat).drop r.1).take r.2, peer := false, relaxed := relaxed, poison := decide (p ≠ 0)
      frozenResp := false, response := none }) s

/-- A whole line leaves a cache for memory or the host (R325). -/
def writeBelow (s : State) (l : Line) (d : BitVec 512) (p : BitVec 2) : State :=
  if l.host then hostWriteLine s (42 + (homeOf l).val) 0 l.num.toNat d (BitVec.allOnes 64) p false
  else writeLineAt s l.num.toNat d (BitVec.allOnes 64) p

/-- What memory, or the host's answer, gives for a line (R321). -/
def readBelow (s : State) (l : Line) (res : HostAnswer) : State × BitVec 512 × BitVec 2 :=
  if l.host then (s, res.data.setWidth 512, if res.poison then 3 else 0)
  else (readLineAt s l.num.toNat, memLine s l.num.toNat)

/-! ## Back-invalidates (R341, R342) -/

/-- Back-invalidates issued and unanswered, in a slice and in the device. -/
def biOut (x : Slice) : Nat := (x.binv.filter fun b => b.sent).length

def biTotal (s : State) : Nat := (s.slices.toList.map biOut).foldl (· + ·) 0

/-- Issues what may be issued of a slice's back-invalidates, oldest first: 16 a slice and 256 in the device at most, none in a freeze (R360)
or while the link is down. -/
def pumpSlice (s : State) (n : Fin 16) : State :=
  if s.frz.on ∨ s.cxl.link = .down then s
  else (s.slice n).binv.foldl (fun t b =>
    let x := t.slice n
    if b.sent ∨ 16 ≤ biOut x ∨ 256 ≤ biTotal t then t
    else
      let t1 := t.setSlice n { x with binv := x.binv.map fun c => if c.line = b.line then { c with sent := true } else c }
      cntPreg (cntPreg (emit t1 (.bisnp b.line b.inv)) (.dc n) 0x12C 1) .lw 0x154 1) s

def pumpBi (s : State) : State := (List.finRange 16).foldl pumpSlice s

/-- A back-invalidate of the line is on. -/
def biOn (s : State) (l : Line) : Bool := (s.slice (homeOf l)).binv.any fun b => decide (b.line = l)

/-- A back-invalidate of a line is wanted; the requests behind it are served once it is answered. -/
def startBi (s : State) (l : Line) (inv : Bool) (held : List HomeReq) : State :=
  let n := homeOf l
  let x := s.slice n
  if biOn s l then s.setSlice n { x with binv := x.binv.map fun b => if b.line = l then { b with held := b.held ++ held } else b }
  else pumpSlice (s.setSlice n { x with binv := x.binv ++ [⟨l, inv, false, held, none⟩] }) n

/-! ## Transactions in progress (R323) -/

/-- A grant of the line is on its way to a cluster cache. -/
def grantOut (s : State) (l : Line) : Bool :=
  (List.finRange 16).any fun c => (s.cl c).cc.misses.any fun m => decide (m.line = l) && m.grant.isSome

/-- The slice waits for the line's data from below. -/
def slMissing (s : State) (l : Line) : Bool := (s.slice (homeOf l)).misses.any fun m => decide (m.line = l)

/-- A transaction of the line is in progress: a back-invalidate, a miss of its slice, or a grant whose fill has not reached its cluster cache. -/
def lineBusy (s : State) (l : Line) : Bool := biOn s l || slMissing s l || grantOut s l

/-- A request is answered RETRY; one sent again already counts `age` resends (R323). -/
def addRetry (s : State) (l : Line) (m : Fin 58) (age : BitVec 4 := 0) : State :=
  let n := homeOf l
  let x := s.slice n
  if x.retries.any fun r => decide (r.line = l) && decide (r.master = m) then s
  else s.setSlice n { x with retries := x.retries ++ [⟨l, m, age, false⟩] }

/-! ## Cluster copies (R320) -/

/-- What has been granted to a cluster cache and has not reached it. -/
def grantedTo (s : State) (cl : Fin 16) (l : Line) : Option CLine := ((s.cl cl).cc.misses.find? fun m => decide (m.line = l)).bind (·.grant)

/-- An invalidate meets a grant on its way: the cache stays I, and its request is sent again, which counts toward its age (R348). -/
def cancelGrant (s : State) (cl : Fin 16) (l : Line) : State :=
  if (grantedTo s cl l).isSome then
    let c := s.cl cl
    addRetry (s.setCl cl { c with cc := { c.cc with misses := c.cc.misses.map fun m => if m.line = l then { m with grant := none } else m } })
      l (fin 58 cl.val) 1
  else s

/-- Takes a line out of a cluster cache (invalidate): an M copy yields its data. -/
def dropCopy (s : State) (cl : Fin 16) (l : Line) : State × Option (BitVec 512 × BitVec 2) :=
  let s1 := cancelGrant s cl l
  match ccLine s1 cl l with
  | none => (s1, none)
  | some x => (setCcLine s1 cl l none, if x.st = .m then some (x.data, x.poison) else none)

/-- Clusters that an entry names. -/
def SLine.sharers (e : SLine) : List (Fin 16) := (List.finRange 16).filter fun i => e.presence.getLsbD i.val

/-- Invalidates every cluster copy of a line but `keep`'s; the M data found, if any. Home's entry forgets them. -/
def dropCopies (s : State) (l : Line) (keep : Option (Fin 16)) : State × Option (BitVec 512 × BitVec 2) :=
  let e := slGet s l
  let r := (e.sharers.filter fun i => decide (some i ≠ keep)).foldl (fun (a : State × Option (BitVec 512 × BitVec 2)) i =>
    let q := dropCopy a.1 i l
    (q.1, match q.2 with | some d => some d | none => a.2)) (s, none)
  let e1 := slGet r.1 l
  let pres := match keep with
    | some k => if e.presence.getLsbD k.val then setBit 0 k.val true else 0
    | none => 0
  (setSl r.1 l { e1 with presence := pres, fwd := (if e1.fwd = keep then e1.fwd else none), owned := e1.owned && decide (pres ≠ 0) }, r.2)

/-! ## Eviction from a slice (R325, R326) -/

/-- Entries of a slice in a set. -/
def setEntries (x : Slice) (set : Nat) : List (Nat × SLine) := x.lines.filter fun e => decide (slSetOf e.1 = set)

/-- A clean host line leaves the device (09 R366): 7 CleanEvict, 8 CleanEvictNoData. In a freeze, and while the link is down, no request is
sent (09 R391). -/
def cleanEvict (s : State) (l : Line) (op : BitVec 4) : State :=
  if l.host = false ∨ s.frz.on = true ∨ s.cxl.link = .down then s else emit s (.d2h op l.num)

/-- The data way of an entry is given up: dirty data is written below; the rest of the entry stays as a shadow entry while clusters
hold copies. -/
def evictData (s : State) (l : Line) : State :=
  let e := slGet s l
  match e.data with
  | none => s
  | some d =>
    let s2 := if e.dirty then writeBelow s l d e.poison else if e.presence = 0 then cleanEvict s l 7 else s
    let keepHost := decide (e.presence ≠ 0)
    setSl s2 l { e with data := none, dirty := false, poison := 0, cxl := (if keepHost then e.cxl else none) }

/-- The shadow entries of a line's set beside its own; a line whose data is on its way to a data way is none. -/
def shadowsOf (s : State) (l : Line) : List (Nat × SLine) :=
  (setEntries (s.slice (homeOf l)) (slSetOf (lineKey l))).filter fun e =>
    e.2.data.isNone && decide (e.1 ≠ lineKey l) && !(slMissing s (keyLine e.1))

/-- Shadow lines that can be recalled at once: the host holds no copy, and no transaction is in progress. -/
def recallable (s : State) (l : Line) : List Nat :=
  ((shadowsOf s l).filter fun e => decide (e.2.h = .none) && !(lineBusy s (keyLine e.1))).map (·.1)

/-- A shadow entry of the line's set is free, or can be freed at once: there are 8 of them (R317). -/
def shadowFree (s : State) (l : Line) : Bool := decide ((shadowsOf s l).length < 8) || !(recallable s l).isEmpty

/-- A shadow entry is recalled (R326): every cluster copy is invalidated, M data goes to memory, and the entry is freed. -/
def recallShadow (s : State) (l : Line) : State :=
  let r := dropCopies s l none
  let s1 := match r.2 with
    | some (d, p) => writeBelow r.1 l d p
    | none => cleanEvict r.1 l 8
  cntPreg (setSl s1 l { slGet s1 l with cxl := none }) (dcPage l) 0x128 1

/-- Makes room for one shadow entry in a line's set; the pseudo-LRU choice is free (assumption 8). -/
def shadowRoom (s : State) (l : Line) : State :=
  if (shadowsOf s l).length < 8 then s
  else
    let ks := recallable s l
    let f := takeFresh s
    if ks.isEmpty then s else recallShadow f.2 (keyLine (nth ks (Config.freeVictim f.1 % ks.length) 0))

/-- Every shadow entry of the set is in use by a line of the host or of a transaction: the host's copy of one is asked back first, which one is
free (R326, R341). -/
def shadowAsk (s : State) (l : Line) : State :=
  let ks := ((shadowsOf s l).filter fun e => decide (e.2.h ≠ .none) && !(lineBusy s (keyLine e.1))).map (·.1)
  let f := takeFresh s
  if shadowFree s l ∨ ks.isEmpty then s else startBi f.2 (keyLine (nth ks (Config.freeVictim f.1 % ks.length) 0)) true []

/-- An entry can leave its data way at once: the host holds no copy (R325, step 2), no transaction is in progress, and a shadow entry can be had
where clusters hold copies (step 3). -/
def evictable (s : State) (e : Nat × SLine) : Bool :=
  !(lineBusy s (keyLine e.1)) && decide (e.2.h = .none) && (decide (e.2.presence = 0) || shadowFree s (keyLine e.1))

/-- The entry in a data way of a set. -/
def wayEntry (s : State) (n : Fin 16) (set way : Nat) : Option (Nat × SLine) :=
  (setEntries (s.slice n) set).find? fun e => e.2.data.isSome && decide (e.2.way.toNat = way)

/-- Evicts the entry in a data way, where it can leave; else its host copy is asked back, or a shadow entry's, and it stays for now (R325). -/
def evictWay (s : State) (n : Fin 16) (set way : Nat) : State :=
  match wayEntry s n set way with
  | none => s
  | some e =>
    let l := keyLine e.1
    if evictable s e then evictData (if e.2.presence = 0 then s else shadowRoom s l) l
    else if lineBusy s l then s
    else if e.2.h ≠ .none then startBi s l true []
    else shadowAsk s l

/-- A data way for a line: the one it has, a free enabled way, or that of a victim that can leave at once, which one is free (assumptions 8, 36). -/
def pickWay (s : State) (l : Line) : State × Option Nat :=
  let n := homeOf l
  let ways := slWays s n
  let held := (setEntries (s.slice n) (slSetOf (lineKey l))).filter fun e => e.2.data.isSome
  match (slGet s l).data, ways.find? fun w => !(held.any fun e => decide (e.2.way.toNat = w)) with
  | some _, _ => (s, some (slGet s l).way.toNat)
  | none, some w => (s, some w)
  | none, none =>
    let vs := (held.filter fun e => ways.contains e.2.way.toNat && evictable s e).map fun e => e.2.way.toNat
    let f := takeFresh s
    if vs.isEmpty then (s, none)
    else
      let w := nth vs (Config.freeVictim f.1 % vs.length) 0
      (evictWay f.2 n (slSetOf (lineKey l)) w, some w)

/-- A slice may take lines of this space in its data ways (R327, 09 R367). -/
def slAllocs (s : State) (l : Line) : Bool := (s.slice (homeOf l)).enabled && (!l.host || hostCaching s)

/-- A cluster cache takes a line of this space for its cores: it is enabled, and host caching is not disabled (08 R327, 09 R367). -/
def ccTakes (s : State) (cl : Fin 16) (l : Line) : Bool := (s.cl cl).cc.enabled && (!l.host || hostCaching s)

/-- The copy of a line that a core's access hits. -/
def ccHit (s : State) (cl : Fin 16) (l : Line) : Option CLine := if (s.cl cl).cc.enabled then ccLine s cl l else none

/-- A write goes below without being held (R327); what the entry still tracks stays as a shadow entry. -/
def storeBelow (s : State) (l : Line) (d : BitVec 512) (p : BitVec 2) : State :=
  let e := slGet s l
  let s1 := if e.data.isSome ∧ e.presence ≠ 0 then shadowRoom s l else s
  writeBelow (setSl s1 l { slGet s1 l with data := none, dirty := false, poison := 0 }) l d p

/-- Home takes a line's data as dirty (R320, R321): into a data way, or below where the slice does not hold it or no way of the set can be had at
once (assumption 36). -/
def homeStore (s : State) (l : Line) (d : BitVec 512) (p : BitVec 2) : State :=
  if slAllocs s l then
    let r := pickWay s l
    match r.2 with
    | some w =>
      let e := slGet r.1 l
      setSl r.1 l { e with data := some d, poison := p, way := BitVec.ofNat 4 w, dirty := true, cxl := (if l.host then some .m else none) }
    | none => storeBelow r.1 l d p
  else storeBelow s l d p

/-- The slice answers a request for the line from its own data (R327): it is enabled; a host line that a disabled slice holds dirty is still
served from it, since the device holds its only copy (assumption 17). -/
def slServes (s : State) (l : Line) : Bool :=
  (slGet s l).data.isSome && ((s.slice (homeOf l)).enabled || (l.host && (slGet s l).dirty))

/-- A request of home hits, or misses, in the slice's data (R335). -/
def countSl (s : State) (l : Line) : State := cntPreg s (dcPage l) (if slServes s l then 0x118 else 0x11C) 1

/-- Home's own data for a line: the slice's, or memory's or the host's. The last part tells that it came from below. -/
def homeData (s : State) (l : Line) (res : HostAnswer) : State × BitVec 512 × BitVec 2 × Bool :=
  let s1 := countSl s l
  match slServes s l, (slGet s l).data with
  | true, some d => (s1, d, (slGet s l).poison, false)
  | _, _ => let r := readBelow s1 l res; (r.1, r.2.1, r.2.2, true)

/-- Poison after a write of masked bytes: a granule wholly written loses it, one written in part keeps it (R337, R338). -/
def mergePoison (old new : BitVec 2) (mask : BitVec 64) : BitVec 2 :=
  let g (i : Nat) : Bool :=
    let m : BitVec 32 := mask.extractLsb' (32 * i) 32
    if m = 0 then old.getLsbD i else new.getLsbD i || (old.getLsbD i && !(decide (m = BitVec.allOnes 32)))
  BitVec.ofNat 2 (b2n (g 0) + 2 * b2n (g 1))

/-- A partial write that merges into a poisoned granule held in a cache reports as in memory (R338). -/
def reportPartial (s : State) (l : Line) (old : BitVec 2) (mask : BitVec 64) : State :=
  if l.host then s
  else (List.range 2).foldl (fun t i =>
    let m : BitVec 32 := mask.extractLsb' (32 * i) 32
    if old.getLsbD i ∧ m ≠ 0 ∧ m ≠ BitVec.allOnes 32 then
      let n := stackOf t (64 * l.num.toNat)
      raiseErr (cntPreg t (.mc n) 0x108 1) (.mc n) 3 (64 * l.num.toNat + 32 * i)
    else t) s

/-! ## Home serves a request (R321, R322) -/

/-- Grants a line to a cluster's miss register; the register is opened if there is none. -/
def grantLine (s : State) (cl : Fin 16) (l : Line) (x : CLine) : State :=
  let c := s.cl cl
  let ms := c.cc.misses
  let ms' := if ms.any fun m => decide (m.line = l) then ms.map fun m => if m.line = l then { m with grant := some x } else m
    else ms ++ [⟨l, [], some x⟩]
  s.setCl cl { c with cc := { c.cc with misses := ms' } }

/-- A slice's miss register opens for a line that comes from below (R324); a host line's answer is kept for its fill. -/
def slMiss (s : State) (l : Line) (d : BitVec 512) (p : BitVec 2) : State :=
  let n := homeOf l
  let x := s.slice n
  if slAllocs s l && !(slMissing s l) then
    s.setSlice n { x with misses := x.misses ++ [⟨l, [], if l.host then some ⟨.s, d, p, 0⟩ else none⟩] }
  else s

/-- A slice's miss register opens for a line to be fetched again from the host, whose answer comes with the fill (R330). -/
def slMissAgain (s : State) (l : Line) : State :=
  let n := homeOf l
  let x := s.slice n
  if slAllocs s l && !(slMissing s l) && decide (x.misses.length < 64) then s.setSlice n { x with misses := x.misses ++ [⟨l, [], none⟩] } else s

/-- A read that meets an open miss register of its slice is merged, up to 16 (R324); beyond that it is held back in its class. -/
def slMerge (s : State) (l : Line) (master : Fin 58) : State :=
  let n := homeOf l
  let x := s.slice n
  if x.misses.any fun m => decide (m.line = l) && decide (m.merged.length < 16) then
    cntPreg (s.setSlice n { x with misses := x.misses.map fun m =>
      if m.line = l then { m with merged := m.merged ++ [(master, none)] } else m }) (.dc n) 0x120 1
  else s

/-- Drops a slice's open miss of a line, whose merged requests are sent again. -/
def cancelMiss (s : State) (l : Line) : State :=
  let n := homeOf l
  let x := s.slice n
  (x.misses.filter fun m => decide (m.line = l)).foldl (fun t m => m.merged.foldl (fun u r => addRetry u l r.1 1) t)
    (s.setSlice n { x with misses := x.misses.filter fun m => decide (m.line ≠ l) })

/-- The line's data for a requester: from the owner or the forwarder, else home's own. An M owner's data goes to home; a copy that forwards
becomes S (R320); a forwarder that answers MISS is cleared (R322). -/
def fetchShared (s : State) (l : Line) (res : HostAnswer) : State × BitVec 512 × BitVec 2 :=
  let e := slGet s l
  let src : Option (Fin 16) := if e.owned then e.sharers.head? else e.fwd
  let fromHome (t : State) : State × BitVec 512 × BitVec 2 :=
    let r := homeData t l res
    (if r.2.2.2 then slMiss r.1 l r.2.1 r.2.2.1 else r.1, r.2.1, r.2.2.1)
  match src with
  | none => fromHome s
  | some k =>
    match ccLine s k l with
    | none => fromHome (setSl (cancelGrant s k l) l { e with fwd := none, owned := false, presence := setBit e.presence k.val false })
    | some x =>
      if x.st = .s then fromHome (setSl s l { e with fwd := none })
      else
        let s1 := setCcLine s k l (some { x with st := .s })
        let s2 := if x.st = .m then homeStore s1 l x.data x.poison else s1
        let e2 := slGet s2 l
        (setSl s2 l { e2 with owned := false }, x.data, x.poison)

/-- A shadow entry is made for a line that home begins to track without data (R326). -/
def makeEntry (s : State) (l : Line) : State := if (slGet s l).idle && !(slMissing s l) then shadowRoom s l else s

/-- RdS (R321, R322). -/
def serveRds (s : State) (cl : Fin 16) (l : Line) (res : HostAnswer) : State :=
  let e0 := slGet s l
  let r := fetchShared s l res
  let s1 := makeEntry r.1 l
  let e := slGet s1 l
  let cxl := if l.host then some (e.cxl.getD .s) else none
  let isE := decide (e0.presence = 0) && decide (e.h = .none) && !(l.host && decide (cxl = some .s))
  let e' : SLine := { e with presence := setBit e.presence cl.val true, fwd := (if isE then none else some cl), owned := isE, cxl := cxl }
  grantLine (setSl s1 l e') cl l ⟨if isE then .e else .f, r.2.1, r.2.2, 0⟩

/-- RdO (R321): every other copy goes; an M owner's data goes to home. -/
def serveRdo (s : State) (cl : Fin 16) (l : Line) (res : HostAnswer) : State :=
  let r := fetchShared s l res
  let s2 := makeEntry (dropCopies r.1 l none).1 l
  let e := slGet s2 l
  grantLine (setSl s2 l { e with presence := setBit 0 cl.val true, fwd := none, owned := true, cxl := (if l.host then some .m else none) })
    cl l ⟨.m, r.2.1, r.2.2, 0⟩

/-- Upg (R321): a requester still present in a Shared line is granted M without data; else as RdO. -/
def serveUpg (s : State) (cl : Fin 16) (l : Line) (res : HostAnswer) : State :=
  let e := slGet s l
  match ccLine s cl l with
  | some x =>
    if e.presence.getLsbD cl.val ∧ e.owned = false then
      let s1 := (dropCopies s l (some cl)).1
      let e1 := slGet s1 l
      grantLine (setSl s1 l { e1 with owned := true, fwd := none, cxl := (if l.host then some .m else none) }) cl l { x with st := .m }
    else serveRdo s cl l res
  | none => serveRdo s cl l res

/-- RdCur (R321): an M owner sends its data to home and becomes E; nothing else changes, and the line is not taken into the slice. A host line that
only an E owner holds comes from it. -/
def serveRdcur (s : State) (l : Line) (res : HostAnswer) : State × BitVec 512 × BitVec 2 :=
  let e := slGet s l
  let own (t : State) : State × BitVec 512 × BitVec 2 := let r := homeData t l res; (r.1, r.2.1, r.2.2.1)
  match (if e.owned then e.sharers.head? else none) with
  | some k =>
    match ccLine s k l, grantedTo s k l with
    | some x, _ =>
      if x.st = .m then (homeStore (setCcLine s k l (some { x with st := .e })) l x.data x.poison, x.data, x.poison)
      else if l.host && e.data.isNone then (s, x.data, x.poison)
      else own s
    | none, some g => (s, g.data, g.poison)
    | none, none => own s
  | none => own s

/-- A whole granule that the slice overwrites loses its marker; where memory holds none, this write is the one that clears it (R337). -/
def clearCached (s : State) (l : Line) (p : BitVec 2) : State :=
  let e := slGet s l
  (List.range 2).foldl (fun t i =>
    if !l.host && e.data.isSome && e.poison.getLsbD i && !(p.getLsbD i) && slAllocs t l && !(granPoison t (2 * l.num.toNat + i))
    then cntPreg t (.mc (stackOf t (64 * l.num.toNat))) 0x10C 1 else t) s

/-- WrInv (R321): every copy is dropped, the owner's data with it, and the whole line is written. A whole host line goes out as ItoMWr
(09 R366). -/
def serveWrinv (s : State) (master : Fin 58) (core : Byte) (l : Line) (d : BitVec 512) (p : BitVec 2) (relaxed : Bool) : State :=
  let s1 := (dropCopies (countSl s l) l none).1
  if l.host then
    let e := slGet s1 l
    hostWriteLine (setSl s1 l { e with data := none, dirty := false, poison := 0, cxl := none }) master.val core l.num.toNat d
      (BitVec.allOnes 64) p relaxed
  else homeStore (clearCached s1 l p) l d p

/-- Requests to the host may leave: no freeze is on and the link is up in CXL mode (09 R363, R391). -/
def hostOpen (s : State) : Bool := !s.frz.on && cxlMode s

/-- A request that only writes: it takes no copy. -/
def HomeReq.writes : HomeReq → Bool
  | .wrinv _ _ _ | .wrpart _ _ _ _ => true
  | _ => false

/-- A request for a host line waits: in a freeze, and where the line is not in the slice and no CXL link runs to bring it (09 R363, R391). -/
def hostWaits (s : State) (l : Line) (q : HomeReq) : Bool := l.host && (s.frz.on || !(cxlMode s || slServes s l || q.writes))

/-- The host is asked for a copy of a line (09 R366): 0 RdCurr, 1 RdShared; a request for a copy to keep is spared by a forwarder. -/
def askHost (s : State) (l : Line) (op : BitVec 4) : State :=
  let e := slGet s l
  if l.host && hostOpen s && !(slServes s l) && !e.owned && (decide (op = 0) || e.fwd.isNone) then emit s (.d2h op l.num) else s

/-- The device holds a host line in M or E. -/
def cxlOwned (s : State) (l : Line) : Bool := decide ((slGet s l).cxl = some .m) || decide ((slGet s l).cxl = some .e)

/-- The host is asked for ownership of a line (09 R366): RdOwn. -/
def askOwn (s : State) (l : Line) : State := if l.host && hostOpen s && !(cxlOwned s l) then emit s (.d2h 2 l.num) else s

/-- A read that a cluster cache allocates asks as RdShared, or RdCurr while caching is disabled (09 R366). -/
def sharedOp (s : State) : BitVec 4 := if s.cxl.disCache then 0 else 1

/-- WrPart (R321, R338): the owner's data goes to home, every copy is dropped, and the bytes are merged. A host line that no cache holds is
a write to the host (assumption 15). -/
def serveWrpart (s : State) (master : Fin 58) (core : Byte) (l : Line) (d : BitVec 512) (mask : BitVec 64) (p : BitVec 2) (relaxed : Bool) :
    State :=
  let r := dropCopies (countSl s l) l none
  let s1 := match r.2 with
    | some (x, q) => homeStore r.1 l x q
    | none => r.1
  let e := slGet s1 l
  match e.data with
  | some old =>
    homeStore (reportPartial (askOwn s1 l) l e.poison mask) l (mergeLine old d mask) (mergePoison e.poison p mask)
  | none =>
    if l.host then hostWriteLine s1 master.val core l.num.toNat d mask p relaxed
    else if slAllocs s1 l then
      let m := memLine s1 l.num.toNat
      homeStore (reportPartial (readLineAt s1 l.num.toNat) l m.2 mask) l (mergeLine m.1 d mask) (mergePoison m.2 p mask)
    else writeLineAt s1 l.num.toNat d mask p

/-- A host read (R341): served against the cluster copies as RdS or RdO, and H records what the host may hold. -/
def serveHostRd (s : State) (l : Line) (own data : Bool) : State :=
  let r := fetchShared s l ⟨0, false, false⟩
  let s1 := if own then (dropCopies r.1 l none).1 else r.1
  let s2 := makeEntry s1 l
  let e := slGet s2 l
  let s3 := setSl s2 l { e with h := (if own then .owned else .shared) }
  if data then
    let s4 := emit s3 (.memData r.2.1 (decide (r.2.2 ≠ 0)))
    if r.2.2 = 0 then s4 else raiseErr s4 .lw 3 (64 * l.num.toNat)
  else emit s3 .memCmp

/-- A host write (R341, 09 R369): it clears H; a write that carries poison leaves every granule it touches poisoned. -/
def serveHostWr (s : State) (l : Line) (d : BitVec 512) (mask : BitVec 64) (poison : Bool) : State :=
  let e := slGet s l
  let s1 := setSl s l { e with h := .none }
  let p : BitVec 2 := if poison then 3 else 0
  let s2 := if mask = BitVec.allOnes 64 then serveWrinv s1 33 0 l d p false
    else if mask = 0 then s1 else serveWrpart s1 33 0 l d mask p false
  emit s2 .memCmp

/-- The slice owns a host line (09 R366): cluster copies go, M data first; a line that it does not hold is the one RdOwn brought, which it takes
clean where it may hold it. The line's data. -/
def ownHost (s : State) (l : Line) (res : HostAnswer) : State × BitVec 512 × BitVec 2 :=
  let r := dropCopies s l none
  let s1 := match r.2 with
    | some (x, q) => homeStore r.1 l x q
    | none => r.1
  match (slGet s1 l).data with
  | some x => (setSl s1 l { slGet s1 l with cxl := (if (slGet s1 l).dirty then some .m else some .e) }, x, (slGet s1 l).poison)
  | none =>
    let p : BitVec 2 := if res.poison then 3 else 0
    let k := pickWay s1 l
    match slAllocs s1 l, k.2 with
    | true, some w => (setSl k.1 l { slGet k.1 l with data := some (res.data.setWidth 512), poison := p, way := BitVec.ofNat 4 w, dirty := false, cxl := some .e },
        res.data.setWidth 512, p)
    | _, _ => (s1, res.data.setWidth 512, p)

/-- The line that RdOwn brought takes a write's bytes (09 R366). -/
def mergeOwned (s : State) (l : Line) (res : HostAnswer) (d : BitVec 512) (mask : BitVec 64) (p : BitVec 2) : State :=
  let r := ownHost s l res
  homeStore r.1 l (mergeLine r.2.1 d mask) (mergePoison r.2.2 p mask)

/-- Home serves a request whose host copy is resolved. The two last arguments are of non-caching writes. -/
def serve (s : State) (l : Line) (res : HostAnswer) (core : Byte) (relaxed : Bool) : HomeReq → State
  | .rds cl => serveRds (askHost s l (sharedOp s)) cl l res
  | .rdo cl => serveRdo (askOwn s l) cl l res
  | .upg cl => serveUpg (askOwn s l) cl l res
  | .rdcur m => let r := serveRdcur (askHost s l 0) l res; emit r.1 (.answer m l r.2.1 r.2.2)
  | .wrinv m d p => serveWrinv s m core l d p relaxed
  | .wrpart m d mask p => serveWrpart s m core l d mask p relaxed
  | .hostRd own data => serveHostRd s l own data
  | .hostWr d mask poison => serveHostWr s l d mask poison

/-- A device request needs the host's copy back first (R341): a grant of E or M or a write where H is not NONE, a read where H is OWNED. -/
def needsBi (s : State) (l : Line) : HomeReq → Bool
  | .rds _ | .rdcur _ => decide ((slGet s l).h = .owned)
  | .rdo _ | .upg _ | .wrinv _ _ _ | .wrpart _ _ _ _ => decide ((slGet s l).h ≠ .none)
  | .hostRd _ _ | .hostWr _ _ _ => false

/-! ## RETRY and escalation (R323) -/

/-- The requester of a device request, as a matrix master; none for the host's. -/
def HomeReq.master : HomeReq → Option (Fin 58)
  | .rds cl | .rdo cl | .upg cl => some (fin 58 cl.val)
  | .rdcur m | .wrinv m _ _ | .wrpart m _ _ _ => some m
  | .hostRd _ _ | .hostWr _ _ _ => none

/-- A request leaves every copy as it is: a back-invalidate for it asks for the data alone. -/
def HomeReq.reads : HomeReq → Bool
  | .rds _ | .rdcur _ => true
  | _ => false

/-- The escalated request of a line that is served next: the highest age, ties to the first after the line's last winner. -/
def nextEscalated (x : Slice) (l : Line) : Option (Fin 58) :=
  let lastW := (slook x.lastWin (lineKey l)).getD 57
  let dist (m : Fin 58) : Nat := (m.val + 57 - lastW) % 58
  ((x.retries.filter fun r => decide (r.line = l) && r.escalated).foldl (fun (a : Option Retry) r => match a with
    | none => some r
    | some b => if b.age < r.age ∨ (b.age = r.age ∧ dist r.master < dist b.master) then some r else some b) none).map (·.master)

/-- Another requester's escalated request waits on the line. -/
def outranked (s : State) (l : Line) (m : Fin 58) : Bool :=
  match nextEscalated (s.slice (homeOf l)) l with
  | some w => decide (w ≠ m)
  | none => false

/-- A requester is served: its RETRY entry goes, and an escalated one is the line's last winner. -/
def clearRetry (s : State) (l : Line) (m : Fin 58) : State :=
  let n := homeOf l
  let x := s.slice n
  match x.retries.find? fun r => decide (r.line = l) && decide (r.master = m) with
  | none => s
  | some r => s.setSlice n { x with retries := x.retries.filter (fun q => !(decide (q.line = l) && decide (q.master = m)))
                                    lastWin := (if r.escalated then sput (lineKey l) m.val x.lastWin else x.lastWin) }

/-- The set has room for what a request makes home hold: a shadow entry for a line it begins to track, a miss register for a line that comes from
below (R324, R326). -/
def roomReady (s : State) (l : Line) (q : HomeReq) : Bool :=
  let register := slServes s l || !(slAllocs s l) || decide ((s.slice (homeOf l)).misses.length < 64)
  match q with
  | .rds _ | .rdo _ | .upg _ | .hostRd _ _ => register && (!(slGet s l).idle || slAllocs s l || shadowFree s l)
  | .rdcur _ => register
  | .wrinv _ _ _ | .wrpart _ _ _ _ | .hostWr _ _ _ => true

/-- The memory below holds the line back: it lies in the chunk of a swap in progress, and the slice does not serve it (06 R263, R278). -/
def chunkHeld (s : State) (l : Line) : Bool := !l.host && chunkBlocks s (64 * l.num.toNat) && !(slServes s l)

/-- A request reaches home (R323, R341, R342). One of a device to a line with a transaction in progress, or with another escalated request
waiting, is answered RETRY, but a read without a copy is merged into an open miss (R324; assumption 36); else it is served once the host's copy is
back. During a freeze every request to a host line is held: it is not served (09 R391). A host request waits behind the transaction. -/
def homeReq (s : State) (l : Line) (res : HostAnswer) (core : Byte) (relaxed : Bool) (q : HomeReq) : State :=
  match q.master with
  | none => if lineBusy s l then s else serve s l res core relaxed q
  | some m =>
    if hostWaits s l q then s
    else match q, slMissing s l && !(biOn s l) with
      | .rdcur _, true => slMerge s l m
      | _, _ =>
        if lineBusy s l || outranked s l m || chunkHeld s l then addRetry s l m
        else if roomReady s l q = false then addRetry (shadowAsk s l) l m
        else
          let s1 := clearRetry s l m
          if needsBi s1 l q then startBi s1 l (!q.reads) [q]
          else serve s1 l res core relaxed q

/-- A host request for a line of the window waits behind the line's transaction, in order (R342), or for a shadow entry. -/
def hostReq (s : State) (l : Line) (hpa : BitVec 64) (q : HomeReq) : State :=
  let n := homeOf l
  let ready := !(lineBusy s l) && !((s.slice n).waiting.any fun w => decide (w.2.1 = l)) && !(chunkHeld s l)
  if ready && roomReady s l q then homeReq s l ⟨0, false, false⟩ 0 false q
  else
    let s1 := if ready then shadowAsk s l else s
    s1.setSlice n { s1.slice n with waiting := (s1.slice n).waiting ++ [(hpa, l, q)] }

/-! ## Device accesses that complete in one event -/

/-- A device request can be served now: none of the reasons holds for which `homeReq` would answer it RETRY, hold it or ask the host first. -/
def homeReady (s : State) (l : Line) (m : Fin 58) (q : HomeReq) : Bool :=
  !(lineBusy s l) && !(outranked s l m) && !(chunkHeld s l) && !(hostWaits s l q) && roomReady s l q && !(needsBi s l q)

/-- What becomes of a device access that cannot be performed now: it is answered RETRY, or the host is asked for its copy (R323, R341). -/
def homeAsk (s : State) (l : Line) (m : Fin 58) (q : HomeReq) : State :=
  if hostWaits s l q then s
  else if lineBusy s l || outranked s l m || chunkHeld s l then addRetry s l m
  else if roomReady s l q = false then addRetry (shadowAsk s l) l m
  else if needsBi s l q then startBi s l (!q.reads) []
  else s

end Sys2Proof.Machine
end

