-- ==== Sys2Proof/Machine/Caches.lean ====
section
/-! DEFINITION. Requests to home as commands, the transitions of a cluster cache, fills, flushing, enabling and array errors (08 R320 to
R335, R347 to R354). -/

namespace Sys2Proof.Machine

/-! ## Eviction from a cluster cache (R320, R326) -/

/-- Home takes a WB (R321): presence cleared, the data dirty. -/
def homeWb (s : State) (cl : Fin 16) (l : Line) (d : BitVec 512) (p : BitVec 2) : State :=
  let e := slGet s l
  homeStore (setSl s l { e with presence := setBit e.presence cl.val false, owned := false }) l d p

/-- Home takes a clean notice (R321, R322). -/
def homeClean (s : State) (cl : Fin 16) (l : Line) : State :=
  let e := slGet s l
  if e.presence.getLsbD cl.val then
    setSl s l { e with presence := setBit e.presence cl.val false, owned := false, fwd := (if e.fwd = some cl then none else e.fwd) }
  else s

/-- A cluster cache may give up a line: an M line that the host holds a copy of waits for that copy first, as WB is a device write (R341). -/
def ccEvictable (s : State) (cl : Fin 16) (l : Line) : Bool :=
  match ccLine s cl l with
  | some x => decide (x.st ≠ .m) || decide ((slGet s l).h = .none)
  | none => true

/-- Replacement of a line in a cluster cache (R320). -/
def ccEvict (s : State) (cl : Fin 16) (l : Line) : State :=
  match ccLine s cl l with
  | none => s
  | some x =>
    let s1 := setCcLine s cl l none
    match x.st with
    | .m => homeWb s1 cl l x.data x.poison
    | .e | .f => homeClean s1 cl l
    | .s => s1

/-! ## Array errors and ways (R330 to R333) -/

/-- Page of a cache. -/
def cachePage : CacheId → Page
  | .cluster n => .cl n
  | .slice n => .dc n

/-- WAY_OFF and WAY_THR of a cache: their offsets, where the self-disable bits begin, and the ways that must stay (R333). -/
def wayOffAt : CacheId → Nat × Nat
  | .cluster _ => (0x108, 8)
  | .slice _ => (0x104, 16)

def wayThr (s : State) : CacheId → Nat
  | .cluster n => fld (preg s (.cl n) 0x10C) 0 8
  | .slice n => fld (preg s (.dc n) 0x108) 0 8

def waysOn (s : State) : CacheId → List Nat
  | .cluster n => ccWays s n
  | .slice n => slWays s n

def waysLeast : CacheId → Nat
  | .cluster _ => 2
  | .slice _ => 4

def wayErrs (s : State) : CacheId → Sparse Nat
  | .cluster n => (s.cl n).cc.wayErr
  | .slice n => (s.slice n).wayErr

def setWayErrs (s : State) (m : Sparse Nat) : CacheId → State
  | .cluster n => s.setCl n { s.cl n with cc := { (s.cl n).cc with wayErr := m } }
  | .slice n => s.setSlice n { s.slice n with wayErr := m }

def clearingOf (s : State) : CacheId → Option Bool
  | .cluster n => (s.cl n).cc.clearing
  | .slice n => (s.slice n).clearing

/-- Evicts everything in a way of a cache. -/
def evictWholeWay (s : State) (c : CacheId) (way : Nat) : State :=
  match c with
  | .cluster n =>
    ((s.cl n).cc.lines.filter fun e => decide (e.2.way.toNat = way)).foldl
      (fun t e => if ccEvictable t n (keyLine e.1) then ccEvict t n (keyLine e.1) else startBi t (keyLine e.1) true []) s
  | .slice n =>
    ((s.slice n).lines.filter fun e => e.2.data.isSome && decide (e.2.way.toNat = way)).foldl
      (fun t e => evictWay t n (slSetOf e.1) way) s

/-- Lines left in ways that have been disabled since, for want of the host's answer, leave as soon as they can (R325, R333). -/
def sweepWays (s : State) (c : CacheId) : State :=
  ((List.range 16).filter fun w => !((waysOn s c).contains w)).foldl (fun t w => evictWholeWay t c w) s

/-- A way at its threshold disables itself, unless no further way may go (R333). -/
def wayCheck (s : State) (c : CacheId) (way : Nat) : State :=
  if (sget (fun _ => 0) (wayErrs s c) way) < wayThr s c ∨ (waysOn s c).contains way = false then s
  else if (waysOn s c).length ≤ waysLeast c then raiseErr s (cachePage c) 5 way
  else
    let o := wayOffAt c
    raiseErr (orPreg (evictWholeWay s c way) (cachePage c) o.1 (one32 (o.2 + way))) (cachePage c) 4 way

/-- An error in a way is counted; during a FLUSH the way waits for its end (R353). -/
def countWay (s : State) (c : CacheId) (way : Nat) : State :=
  let m := wayErrs s c
  let s1 := setWayErrs s (sset (fun _ => 0) m way (sget (fun _ => 0) m way + 1)) c
  if (clearingOf s c).isSome then s1 else wayCheck s1 c way

/-- SUM of a set (R331). -/
def sumBit (s : State) (c : CacheId) (set : Nat) : Bool :=
  match c with
  | .cluster n => (s.cl n).cc.lines.any fun e => decide (ccSetOf e.1 = set) && (decide (e.2.st = .m) || decide (e.2.st = .e))
  | .slice n => (setEntries (s.slice n) set).any fun e =>
      e.2.dirty || e.2.owned || decide (e.2.h ≠ .none) || decide (e.2.cxl = some .m)

/-- A line belongs to a set of a slice. -/
def inSlSet (n : Fin 16) (set key : Nat) : Bool := decide (slSetOf key = set) && decide (homeOf (keyLine key) = n)

/-- The scan of a set recall in one cluster cache (R332): it drops the lines of the slice set and writes back E and M ones; a grant on its way to it
is sent for again. -/
def scanSet (s : State) (n : Fin 16) (set : Nat) (cl : Fin 16) : State :=
  let s1 := ((s.cl cl).cc.lines.filter fun e => inSlSet n set e.1).foldl (fun u e =>
    let u1 := setCcLine u cl (keyLine e.1) none
    if e.2.st = .m ∨ e.2.st = .e then homeWb u1 cl (keyLine e.1) e.2.data e.2.poison else u1) s
  ((s.cl cl).cc.misses.filter fun m => inSlSet n set (lineKey m.line)).foldl (fun u m => cancelGrant u cl m.line) s1

/-- A set recall (R332): every cluster cache scans the one set of its own that can hold lines of the slice set. -/
def setRecall (s : State) (n : Fin 16) (set : Nat) : State := cntPreg ((List.finRange 16).foldl (fun t cl => scanSet t n set cl) s) (.dc n) 0x128 1

/-- The set of a line in a cache. -/
def setOf (l : Line) : CacheId → Nat
  | .cluster _ => ccSetOf (lineKey l)
  | .slice _ => slSetOf (lineKey l)

/-- A set is invalidated: whatever it holds is gone (R332). -/
def dropSet (s : State) (c : CacheId) (set : Nat) : State :=
  match c with
  | .cluster n =>
    let x := s.cl n
    s.setCl n { x with cc := { x.cc with lines := x.cc.lines.filter fun e => !(decide (ccSetOf e.1 = set)) } }
  | .slice n =>
    let x := s.slice n
    s.setSlice n { x with lines := x.lines.filter fun e => !(decide (slSetOf e.1 = set)) }

/-- A parity error is counted in the way it was met in; a shadow entry lies in none (R333). -/
def countEntry (s : State) (c : CacheId) (entry : Nat) : State := if entry < 16 then countWay s c entry else s

/-- A tag parity error in a set (R332), and another one of the set, if one is met while the set recall is in progress: then the set is invalidated
again, one recall is counted, and the greater classification is reported (R354). ERR_ADDR packs the set and the entry (assumption 18). -/
def tagError (s : State) (c : CacheId) (l : Line) (entry : Nat) (second : Option Nat) : State :=
  let set := setOf l c
  let lost := sumBit s c set
  let s1 := dropSet s c set
  let s2 := match c with
    | .cluster _ => s1
    | .slice n => setRecall s1 n set
  let s3 := countEntry s2 c entry
  match second with
  | none => raiseErr s3 (cachePage c) (if lost then 3 else 2) (set * 32 + entry)
  | some k =>
    let more := sumBit s2 c set
    let s4 := countEntry (dropSet s3 c set) c k
    raiseErr s4 (cachePage c) (if lost || more then 3 else 2) (set * 32 + (if !lost && more then k else entry))

/-- A cache's copy is dirty, and its markers get one poisoned granule; which one the manual's event does not say (assumption 8). -/
def poisonCopy (s : State) (c : CacheId) (l : Line) : State :=
  let f := takeFresh s
  let bitOf : BitVec 2 := if Config.freeVictim f.1 % 2 = 0 then 1 else 2
  match c with
  | .cluster n =>
    match ccLine s n l with
    | some x => setCcLine f.2 n l (some { x with poison := x.poison ||| bitOf })
    | none => s
  | .slice _ =>
    let e := slGet s l
    setSl f.2 l { e with poison := e.poison ||| bitOf }

/-- The copy of a line in a cache: its way, and whether it is dirty. -/
def copyWay (s : State) (c : CacheId) (l : Line) : Option (Nat × Bool) :=
  match c with
  | .cluster n => (ccLine s n l).map fun x => (x.way.toNat, decide (x.st = .m))
  | .slice n => if homeOf l = n ∧ (slGet s l).data.isSome then some ((slGet s l).way.toNat, (slGet s l).dirty) else none

/-- A clean line with an uncorrectable error is invalidated and fetched again (R330): from home into a cluster cache, from memory into a slice, both
without giving up what the directory records; a host line is asked of the host again, and comes with its fill. -/
def refetch (s : State) (c : CacheId) (l : Line) : State :=
  match c with
  | .cluster n =>
    match ccLine s n l with
    | none => s
    | some x =>
      if l.host && !(slServes s l) then
        let s1 := homeClean (setCcLine s n l none) n l
        if s1.frz.on then s1 else slMissAgain (askHost s1 l (sharedOp s1)) l
      else let r := homeData s l ⟨0, false, false⟩; setCcLine r.1 n l (some { x with data := r.2.1, poison := r.2.2.1 })
  | .slice _ =>
    let e := slGet s l
    if l.host then
      let s1 := setSl s l { e with data := none, poison := 0 }
      slMissAgain (if (hostOpen s1 && !(cxlOwned s1 l)) = true then emit s1 (.d2h (sharedOp s1) l.num) else askOwn s1 l) l
    else setSl (readLineAt s l.num.toNat) l { e with data := some (memLine s l.num.toNat).1, poison := (memLine s l.num.toNat).2 }

/-- What the codes find when a set is read for a line (R330 to R332). -/
def applyFault (s : State) (c : CacheId) (l : Line) : ArrayFault → State
  | .none => s
  | .sumPe => raiseErr s (cachePage c) 0 (64 * l.num.toNat)
  | .tagPe k second => tagError s c l k.val (second.map (·.val))
  | .dataCe =>
    match copyWay s c l with
    | some (w, _) => countWay (raiseErr s (cachePage c) 0 (64 * l.num.toNat)) c w
    | none => s
  | .dataUe =>
    match copyWay s c l with
    | some (w, dirty) =>
      if dirty then raiseErr (poisonCopy s c l) (cachePage c) 1 (64 * l.num.toNat)
      else countWay (raiseErr (refetch s c l) (cachePage c) 0 (64 * l.num.toNat)) c w
    | none => s

/-! ## Requests to home as commands (R321, R323, R324) -/

/-- A miss is merged into the cluster cache's open register, up to 8; beyond that it is held back (R324). -/
def ccMerge (s : State) (cl : Fin 16) (l : Line) (core : Option (Fin 256)) : State :=
  let c := s.cl cl
  if c.cc.misses.any fun m => decide (m.line = l) && decide (m.merged.length < 8) && !(core.isSome && m.merged.contains (fin 58 cl.val, core)) then
    cntPreg (s.setCl cl { c with cc := { c.cc with misses := c.cc.misses.map fun m =>
      if m.line = l then { m with merged := m.merged ++ [(fin 58 cl.val, core)] } else m } }) (.cl cl) 0x118 1
  else s

/-- A cluster cache's miss for a line, sent to home (R324): a later miss merges while the register is open; a request that was
answered RETRY goes again. A request that finds no register is held back. -/
def clusterMiss (s : State) (cl : Fin 16) (l : Line) (res : HostAnswer) (q : HomeReq) : State :=
  let c := s.cl cl
  let x := s.slice (homeOf l)
  if c.cc.enabled = false then s
  else if c.cc.misses.any fun m => decide (m.line = l) then
    if x.retries.any fun r => decide (r.line = l) && decide (r.master = fin 58 cl.val) then homeReq s l res 0 false q
    else ccMerge s cl l none
  else if 64 ≤ c.cc.misses.length then s
  else
    let s1 := s.setCl cl { c with cc := { c.cc with misses := c.cc.misses ++ [⟨l, [(fin 58 cl.val, none)], none⟩] } }
    homeReq (cntPreg s1 (.cl cl) 0x114 1) l res 0 false q

/-- RDS (08 R321): a load that misses. A cache that holds the line, or is disabled, sends none (assumption 9). -/
def execRds (cl : Fin 16) (line : Line) (res : HostAnswer) (fault : ArrayFault) (s : State) : Res :=
  .next (match ccLine s cl line with
    | some _ => s
    | none => clusterMiss (if (s.cl cl).cc.enabled then applyFault s (.slice (homeOf line)) line fault else s) cl line res (.rds cl))

/-- RDO (08 R321): a store that misses. -/
def execRdo (cl : Fin 16) (line : Line) (res : HostAnswer) (s : State) : Res :=
  .next (match ccLine s cl line with
    | some _ => s
    | none => clusterMiss s cl line res (.rdo cl))

/-- UPG (08 R321): a store that meets S or F, or whose copy an invalidate has taken meanwhile (R348). -/
def execUpg (cl : Fin 16) (line : Line) (res : HostAnswer) (s : State) : Res :=
  .next (match ccLine s cl line with
    | some x => if x.st = .m ∨ x.st = .e then s else clusterMiss s cl line res (.upg cl)
    | none => clusterMiss s cl line res (.upg cl))

/-- WB (08 R321): the cluster cache replaces an M line, once the host's copy is back (R341). -/
def execWb (cl : Fin 16) (line : Line) (s : State) : Res :=
  .next (match ccLine s cl line with
    | some x => if x.st ≠ .m then s else if ccEvictable s cl line then ccEvict s cl line else startBi s line true []
    | none => s)

/-- CLEAN_NOTICE (08 R321): the cluster cache replaces an E or F line. -/
def execCleanNotice (cl : Fin 16) (line : Line) (s : State) : Res :=
  .next (match ccLine s cl line with
    | some x => if x.st = .e ∨ x.st = .f then ccEvict s cl line else s
    | none => s)

/-- RDCUR (08 R321). -/
def execRdcur (master : Fin 58) (line : Line) (res : HostAnswer) (s : State) : Res :=
  .next (homeReq s line res 0 false (.rdcur master))

/-- WRINV (08 R321). -/
def execWrinv (master : Fin 58) (line : Line) (data : BitVec 512) (s : State) : Res :=
  .next (homeReq s line ⟨0, false, false⟩ 0 false (.wrinv master data 0))

/-- WRPART (08 R321): an empty mask writes nothing. -/
def execWrpart (master : Fin 58) (line : Line) (data : BitVec 512) (mask : BitVec 64) (res : HostAnswer) (s : State) : Res :=
  .next (if mask = 0 then s else homeReq s line res 0 false (.wrpart master data mask 0))

/-- FORWARD_REQUEST (08 R320): F, E and M copies are sent and become S, an M copy's data goes to home; else MISS, which clears the
forwarder at home (R322). A cache whose clean notice is in flight has given the line up: it answers MISS, and the notice changes nothing at home
any more (R349). -/
def execForwardRequest (cl : Fin 16) (line : Line) (notice : Bool) (s : State) : Res :=
  .next (match (if notice then none else ccLine s cl line) with
    | some x =>
      if x.st = .s then (let e := slGet s line; if e.fwd = some cl then setSl s line { e with fwd := none } else s)
      else
        let s1 := setCcLine s cl line (some { x with st := .s })
        let s2 := if x.st = .m then homeStore s1 line x.data x.poison else s1
        let e := slGet s2 line
        setSl s2 line { e with owned := false, fwd := (if e.fwd = some cl then none else e.fwd) }
    | none =>
      let s1 := match ccLine s cl line with
        | some x => if x.st = .e ∨ x.st = .f then setCcLine s cl line none else s
        | none => s
      let e := slGet s1 line
      if e.fwd = some cl then setSl s1 line { e with fwd := none } else s1)

/-- SNOOP_INVALIDATE (08 R320): the copy becomes I; an M copy's data goes to home. -/
def execSnoopInvalidate (cl : Fin 16) (line : Line) (s : State) : Res :=
  let r := dropCopy s cl line
  let s1 := homeClean r.1 cl line
  .next (match r.2 with
    | some (d, p) => homeStore s1 line d p
    | none => s1)

/-- REQUEST_RETRY (08 R323): a request answered RETRY is sent again; its age rises, and at DC_AGE_ESC it is escalated. -/
def execRequestRetry (slice : Fin 16) (line : Line) (master : Fin 58) (s : State) : Res :=
  let x := s.slice slice
  let esc := fld (preg s (.dc slice) 0x10C) 0 4
  let hit (r : Retry) : Bool := decide (r.line = line) && decide (r.master = master)
  let up (r : Retry) : Retry := if hit r then { r with age := satAdd r.age 1, escalated := r.escalated || decide (esc ≤ (satAdd r.age 1).toNat) } else r
  let fresh := x.retries.any fun r => hit r && !r.escalated && decide (esc ≤ (satAdd r.age 1).toNat)
  .next (when fresh (fun t => cntPreg t (.dc slice) 0x124 1) (s.setSlice slice { x with retries := x.retries.map up }))

/-- DC_STARVE (08 R323): an escalated request has waited beyond DC_STARVE_LIM; it is never dropped. -/
def execDcStarve (slice : Fin 16) (line : Line) (master : Fin 58) (s : State) : Res :=
  .next (if (s.slice slice).retries.any fun r => decide (r.line = line) && decide (r.master = master) && r.escalated
    then raiseErr s (.dc slice) 6 (64 * line.num.toNat) else s)

/-! ## Fills (R324, R325, R350) -/

/-- The line in a way of a cluster cache's set. -/
def ccVictim (s : State) (cl : Fin 16) (l : Line) (way : Nat) : Option Line :=
  ((s.cl cl).cc.lines.find? fun e => decide (ccSetOf e.1 = ccSetOf (lineKey l)) && decide (e.2.way.toNat = way)).map fun e => keyLine e.1

/-- A fill finds its way in a cluster cache: the line is there already, or the cache is disabled and keeps nothing (R350), or the way is enabled and
its line may be replaced. -/
def ccWayReady (s : State) (cl : Fin 16) (l : Line) (way : Nat) : Bool :=
  (ccLine s cl l).isSome || !(s.cl cl).cc.enabled ||
    ((ccWays s cl).contains way && (match ccVictim s cl l way with | some v => ccEvictable s cl v && !(lineBusy s v) | none => true))

/-- A granted fill reaches a cluster cache: the victim is evicted, its WB or clean notice first (R326), and the line installed. A cache disabled
meanwhile does not keep it (R350). -/
def clusterFill (s : State) (cl : Fin 16) (l : Line) (way : Nat) (g : CLine) : State :=
  let c := s.cl cl
  let s1 := s.setCl cl { c with cc := { c.cc with misses := c.cc.misses.filter fun m => decide (m.line ≠ l) } }
  match ccLine s cl l with
  | some x => setCcLine s1 cl l (some { g with way := x.way })
  | none =>
    if c.cc.enabled = false then homeClean s1 cl l
    else
      let s2 := match ccVictim s cl l way with
        | some v => ccEvict s1 cl v
        | none => s1
      setCcLine s2 cl l (some { g with way := BitVec.ofNat 4 way })

/-- The way of a cluster cache that a fill takes: a free one, or one of those that may be replaced, which is free (assumption 8). -/
def ccPick (s : State) (cl : Fin 16) (l : Line) : State × Option Nat :=
  match (ccWays s cl).find? fun w => (ccVictim s cl l w).isNone with
  | some w => (s, some w)
  | none =>
    let ws := (ccWays s cl).filter (ccWayReady s cl l)
    let f := takeFresh s
    if ws.isEmpty then (s, none) else (f.2, some (nth ws (Config.freeVictim f.1 % ws.length) 0))

/-- The slice's open miss of a line ends with the line in a data way, or without (R325, R350). -/
def sliceInstall (s : State) (l : Line) (way : Option Nat) (d : BitVec 512) (p : BitVec 2) : State :=
  let n := homeOf l
  let x := s.slice n
  let s1 := s.setSlice n { x with misses := x.misses.filter fun m => decide (m.line ≠ l) }
  let e := slGet s1 l
  match way with
  | some w =>
    if e.data.isSome ∨ slAllocs s l = false then s1
    else setSl s1 l { e with data := some d, poison := p, way := BitVec.ofNat 4 w, dirty := false, cxl := (if l.host then some (e.cxl.getD .s) else none) }
  | none => if e.idle ∨ e.data.isSome then s1 else shadowRoom s1 l

/-- What a fill brings: a device line as memory holds it, a host line as the host answered. -/
def fillData (s : State) (l : Line) (m : MissReg) (res : HostAnswer) : BitVec 512 × BitVec 2 :=
  if l.host then (match m.grant with | some g => (g.data, g.poison) | none => (res.data.setWidth 512, if res.poison then 3 else 0))
  else memLine s l.num.toNat

/-- The merged requests of a register are answered in arrival order (R324): data goes to each requester of the matrix. -/
def answerMerged (s : State) (m : MissReg) (d : BitVec 512) (p : BitVec 2) : State :=
  m.merged.foldl (fun t r => if r.2.isSome then t else emit t (.answer r.1 m.line d p)) s

/-- A fill reaches a slice: the line takes the data way after the victim has left it, and the merged requests are answered (R325). Where the victim
cannot leave yet, its host copy is asked back and the fill waits. -/
def sliceFill (s : State) (n : Fin 16) (l : Line) (way : Nat) (res : HostAnswer) : State :=
  match (s.slice n).misses.find? fun m => decide (m.line = l) with
  | none => s
  | some m =>
    let d := fillData s l m res
    if slAllocs s l = false ∨ (slGet s l).data.isSome = true then answerMerged (sliceInstall s l none d.1 d.2) m d.1 d.2
    else if (slWays s n).contains way = false then s
    else
      let s1 := evictWay s n (slSetOf (lineKey l)) way
      if (wayEntry s1 n (slSetOf (lineKey l)) way).isSome then s1
      else answerMerged (sliceInstall s1 l (some way) d.1 d.2) m d.1 d.2

/-- A slice's open miss ends within the command that opened it: its way is the first that can be had. -/
def landSlice (s : State) (l : Line) : State :=
  match (s.slice (homeOf l)).misses.find? fun m => decide (m.line = l) with
  | none => s
  | some m =>
    let d := fillData s l m ⟨0, false, false⟩
    let k := pickWay s l
    answerMerged (sliceInstall k.1 l k.2 d.1 d.2) m d.1 d.2

/-- A grant reaches its cluster cache within the command that made it, and so does the slice's own fill. -/
def landGrant (s : State) (cl : Fin 16) (l : Line) : State :=
  let s1 := landSlice s l
  match grantedTo s1 cl l with
  | none => s1
  | some g => let k := ccPick s1 cl l; clusterFill k.1 cl l (k.2.getD 0) g

/-! ## Enabling, FLUSH and INV (R327 to R329) -/

/-- A cluster cache holds an M line; a slice a dirty one. -/
def anyDirty (s : State) : CacheId → Bool
  | .cluster n => (s.cl n).cc.lines.any fun e => decide (e.2.st = .m)
  | .slice n => (s.slice n).lines.any fun e => e.2.dirty

/-- Changes of a cache's three flags. -/
def setFlags (s : State) (en inv off : Bool) : CacheId → State
  | .cluster n => s.setCl n { s.cl n with cc := { (s.cl n).cc with enabled := en, invalidated := inv, dirtyOff := off } }
  | .slice n => s.setSlice n { s.slice n with enabled := en, invalidated := inv, dirtyOff := off }

def isInvalid (s : State) : CacheId → Bool
  | .cluster n => (s.cl n).cc.invalidated
  | .slice n => (s.slice n).invalidated

def isOn (s : State) : CacheId → Bool
  | .cluster n => (s.cl n).cc.enabled
  | .slice n => (s.slice n).enabled

/-- The enable bit of a cache: CC_EN, or CTRL.ENABLE of the DC page. -/
def enOff : CacheId → Nat
  | .cluster _ => 0x100
  | .slice _ => 8

/-- A cache's enable bit has been written 1 or 0 (R327, R329): an enable needs INVALIDATED, a disable clears it and notes dirty lines. -/
def cacheEnableAct (s : State) (c : CacheId) (on again : Bool) : State :=
  if on then
    (if isInvalid s c then setFlags s true true false c
     else rejectEnable s (cachePage c) (enOff c) again)
  else
    let dirty := anyDirty s c
    let s1 := setFlags s false false dirty c
    if dirty then raiseErr s1 (cachePage c) (match c with | .cluster _ => 6 | .slice _ => 7) else s1

/-- A slice that is being cleared asks back every host copy of its lines that it has not asked for yet (R328). -/
def clearAsk (s : State) (n : Fin 16) : State :=
  if (s.slice n).clearing.isNone then s
  else ((s.slice n).lines.filter fun e => decide (e.2.h ≠ .none)).foldl
    (fun t e => if lineBusy t (keyLine e.1) then t else startBi t (keyLine e.1) true []) s

/-- FLUSH or INV begins (R328): INV of an enabled cache acts as FLUSH. A slice asks for its host copies. -/
def startClear (s : State) (c : CacheId) (flush : Bool) : State :=
  let fl := flush || isOn s c || decide (clearingOf s c = some true)
  match c with
  | .cluster n => s.setCl n { s.cl n with cc := { (s.cl n).cc with clearing := some fl } }
  | .slice n =>
    clearAsk (s.setSlice n { s.slice n with clearing := some fl }) n

/-- A write of CL_CC_CTRL. -/
def ccCtrlWrite (s : State) (cl : Fin 16) (v : W32) : State :=
  let was := bit (preg s (.cl cl) 0x100) 0
  let w := pageWrite s (.cl cl) 0x100 v
  let now := bit (preg w.st (.cl cl) 0x100) 0
  let s1 := if was = now then w.st else cacheEnableAct w.st (.cluster cl) now w.rej
  let s2 := when (w.started 1) (fun t => startClear t (.cluster cl) true) s1
  when (w.started 2) (fun t => startClear t (.cluster cl) false) s2

/-- A write of DC_CMD. -/
def dcCmdWrite (s : State) (n : Fin 16) (v : W32) : State :=
  let w := pageWrite s (.dc n) 0x100 v
  let s1 := when (w.started 0) (fun t => startClear t (.slice n) true) w.st
  when (w.started 1) (fun t => startClear t (.slice n) false) s1

/-- CC_FLUSH (08 R328). -/
def execCcFlush (cl : Fin 16) (v : W32) (s : State) : Res := .next (ccCtrlWrite s cl v)

/-- CC_INV (08 R328). -/
def execCcInv (cl : Fin 16) (v : W32) (s : State) : Res := .next (ccCtrlWrite s cl v)

/-- DC_FLUSH (08 R328). -/
def execDcFlush (n : Fin 16) (v : W32) (s : State) : Res := .next (dcCmdWrite s n v)

/-- DC_INV (08 R328). -/
def execDcInv (n : Fin 16) (v : W32) (s : State) : Res := .next (dcCmdWrite s n v)

/-- A cluster cache's array is emptied: by FLUSH every line as on replacement; by INV M data is dropped and counted. -/
def clusterClear (s : State) (n : Fin 16) (flush : Bool) : State :=
  (s.cl n).cc.lines.foldl (fun t e =>
    if flush = false ∧ e.2.st = .m then
      homeClean (setCcLine (cntPreg t (.cl n) 0x11C 1) n (keyLine e.1) none) n (keyLine e.1)
    else ccEvict t n (keyLine e.1)) s

/-- One line of a slice is given up (R328): cluster copies are recalled, and their M data goes below; the slice's own dirty data is written
below by FLUSH, dropped and counted by INV. -/
def sliceDrop (flush : Bool) (t : State) (l : Line) : State :=
  let e := slGet t l
  let r := dropCopies t l none
  let t1 := match r.2, e.data with
    | some (d, p), _ => writeBelow r.1 l d p
    | none, some d =>
      if e.dirty = false then r.1
      else if flush then writeBelow r.1 l d e.poison
      else cntPreg r.1 (dcPage l) 0x130 1
    | none, none => r.1
  setSl t1 l noLine

def sliceClear (s : State) (n : Fin 16) (flush : Bool) : State :=
  (s.slice n).lines.foldl (fun t e => sliceDrop flush t (keyLine e.1)) s

/-- A FLUSH or INV can complete: no miss is open (R351), and for a slice no host copy is left. -/
def clearReady (s : State) : CacheId → Bool
  | .cluster n => (s.cl n).cc.misses.isEmpty
  | .slice n => (s.slice n).misses.isEmpty && (s.slice n).binv.isEmpty &&
      (s.slice n).lines.all fun e => decide (e.2.h = .none) && !(grantOut s (keyLine e.1))

/-- Ends the clearing: INVALIDATED is set, the GO bits complete, and ways at their threshold disable themselves (R353). -/
def finishClear (s : State) (c : CacheId) : State :=
  let s1 := setFlags s (isOn s c) true false c
  let s2 := match c with
    | .cluster n => s1.setCl n { s1.cl n with cc := { (s1.cl n).cc with clearing := none } }
    | .slice n => s1.setSlice n { s1.slice n with clearing := none }
  let g := match c with
    | .cluster _ => [1, 2]
    | .slice _ => [0, 1]
  let s3 := g.foldl (fun t b => if bit (preg t (cachePage c) 0x100) b then goDone t (cachePage c) 0x100 b else t) s2
  (List.range 16).foldl (fun t w => wayCheck t c w) s3

end Sys2Proof.Machine
end

