-- ==== Sys2Proof/Machine/Landing.lean ====
section
/-! DEFINITION. The landing window: its map, moves, back-invalidate answers, host CXL.mem requests, and the H2D snoops (08 R341 to R346,
R357 to R361; 09 R366, R367, R369, R391). -/

namespace Sys2Proof.Machine

/-- LW_MAPi. -/
def lwFrame (s : State) (i : Nat) : Nat := fld (preg s .lw (0x100 + 4 * i)) 0 9

/-- Lines with H not NONE in a frame, or anywhere. -/
def hostLines (s : State) (frame : Option Nat) : List Line :=
  s.slices.toList.flatMap fun x => (x.lines.filter fun e =>
    decide (e.2.h ≠ .none) && (match frame with | some f => decide (e.1 / 2 ^ 24 = f) | none => true)).map fun e => keyLine e.1

/-- A disabled window is closed once the host holds none of its lines (R343). -/
def lwCloseCheck (s : State) : State :=
  if s.lw.closing ∧ s.lw.move = none ∧ (hostLines s none).isEmpty then { s with lw := { s.lw with closing := false } } else s

/-- Asks back the host copies of lines, but where a transaction of theirs is in progress. -/
def askLines (s : State) (ls : List Line) : State := ls.foldl (fun t l => if lineBusy t l then t else startBi t l true []) s

/-- The window begins to close: every host copy is back-invalidated (R343). -/
def lwClose (s : State) : State := lwCloseCheck (askLines { s with lw := { s.lw with closing := true } } (hostLines s none))

/-- CTRL.ENABLE of the LW page has been written 1 or 0 (R343, R359). -/
def lwEnableAct (s : State) (on again : Bool) : State :=
  if on then
    let frames := (List.range 16).map (lwFrame s)
    if frames.all (fun x => decide (x < 287)) && decide frames.Nodup then { s with lw := { s.lw with closing := false } }
    else raiseErr (rejectEnable s .lw 8 again) .lw 0
  else if s.lw.move.isSome then { s with lw := { s.lw with closing := true } }
  else lwClose s

/-- Window offset of a host physical address, where the decoder is committed and covers it and the window is enabled (09 R368, R369): a disable waits for a
move in progress (R359). -/
def windowOff (s : State) (hpa : Nat) : Option Nat :=
  let base := preg64 s .ep 0x118
  if bit (preg s .ep 0x120) 8 = true ∧ (enabled s .lw || (s.lw.closing && s.lw.move.isSome)) = true ∧ base ≤ hpa ∧ hpa < base + 2 ^ 34 then some (hpa - base) else none

/-- The device line of a window offset (R341). -/
def windowLine (s : State) (o : Nat) : Line := lineOf false (lwFrame s (o / 2 ^ 30 % 16) * 2 ^ 30 + o % 2 ^ 30)

/-- A host CXL.mem request is refused: a read that returns data gets all ones with poison, anything else a completion (R369, R391). -/
def refuseMem (s : State) : HomeReq → State
  | .hostRd _ true => emit s (.memData (BitVec.allOnes 512) true)
  | _ => emit s .memCmp

/-- A host request refused by a freeze (09 R391). -/
def dropMem (s : State) (hpa : Nat) (q : HomeReq) : State :=
  raiseErr (cntPreg (refuseMem s q) .ep 0x158 1) .ep 8 (hpa / 64 * 64)

/-- A host request that the window has taken goes to home, or is held by a move of its GiB (R344). -/
def windowReq (s : State) (hpa : BitVec 64) (o : Nat) (q : HomeReq) : State :=
  match s.lw.move with
  | some (i, _) =>
    if i.toNat = o / 2 ^ 30 % 16 then { s with lw := { s.lw with heldReqs := s.lw.heldReqs ++ [(hpa, q)] } }
    else hostReq s (windowLine s o) hpa q
  | none => hostReq s (windowLine s o) hpa q

/-- A host CXL.mem request (R341, R369, R391, R400): refused in a freeze or outside the window, else taken. It needs the link in CXL mode (R363). -/
def hostMem (s : State) (hpa : BitVec 64) (q : HomeReq) : State :=
  if cxlMode s = false then s
  else if s.frz.on then dropMem s hpa.toNat q
  else match windowOff s hpa.toNat with
    | none => raiseErr (refuseMem s q) .ep 7 (hpa.toNat / 64 * 64)
    | some o => windowReq s hpa o q

/-- Host requests that waited behind a transaction are looked at again, in arrival order (R342): one whose GiB a move blocks meanwhile is held with the
others of that GiB. -/
def pumpHost (s : State) : State :=
  (List.finRange 16).foldl (fun t n =>
    let ws := (t.slice n).waiting
    if ws.isEmpty then t
    else ws.foldl (fun u w => hostMem u w.1 w.2.2) (t.setSlice n { t.slice n with waiting := [] })) s

/-- A host write that carries poison sets POISON_IN (09 R369). -/
def hostMemWr (s : State) (hpa : BitVec 64) (d : BitVec 512) (mask : BitVec 64) (poison : Bool) : State :=
  let hit := (windowOff s hpa.toNat).isSome && !s.frz.on && cxlMode s
  hostMem (when (poison && hit) (fun t => raiseErr t .ep 6 (hpa.toNat / 64 * 64)) s) hpa (.hostWr d mask poison)

/-- MEMRD (09 R369). -/
def execMemrd (hpa : BitVec 64) (own : Bool) (s : State) : Res := .next (hostMem s hpa (.hostRd own true))

/-- MEMRDDATA (09 R369): a read for a shared copy. -/
def execMemrddata (hpa : BitVec 64) (s : State) : Res := .next (hostMem s hpa (.hostRd false true))

/-- MEMINV (09 R369): a read without data. -/
def execMeminv (hpa : BitVec 64) (own : Bool) (s : State) : Res := .next (hostMem s hpa (.hostRd own false))

/-- MEMWR (09 R369). -/
def execMemwr (hpa : BitVec 64) (data : BitVec 512) (poison : Bool) (s : State) : Res :=
  .next (hostMemWr s hpa data (BitVec.allOnes 64) poison)

/-- MEMWRPTL (09 R369). -/
def execMemwrptl (hpa : BitVec 64) (data : BitVec 512) (mask : BitVec 64) (poison : Bool) (s : State) : Res :=
  .next (hostMemWr s hpa data mask poison)

/-! ## Moving a frame (R344, R345, R357) -/

/-- A move ends with a result; GO clears. How long it took is a free value (assumption 8). -/
def moveEnd (s : State) (result : Nat) : State :=
  let f := takeFresh s
  goDone (setPreg (setPreg f.2 .lw 0x144 (BitVec.ofNat 32 result)) .lw 0x148 (Config.freeTime f.1)) .lw 0x140 31

/-- The entry takes its new frame and the held requests go on against it, before a disable that waited takes effect (R344, step 5; R359). -/
def moveCommit (s : State) (i : BitVec 4) (frame : BitVec 9) : State :=
  let held := s.lw.heldReqs
  let base := preg64 s .ep 0x118
  let s1 := setPreg s .lw (0x100 + 4 * i.toNat) (frame.setWidth 32)
  let s2 := moveEnd { s1 with lw := { s1.lw with move := none, scanned := false, todo := [], heldReqs := [] } } 1
  let s3 := held.foldl (fun t r => hostReq t (windowLine t (r.1.toNat - base)) r.1 r.2) s2
  if s3.lw.closing then lwClose s3 else s3

/-- The placement loop's commit of a region of this frame is due (R358). -/
def commitDue (s : State) (frame : Nat) : Bool :=
  match s.pl.cur with
  | some (a, b) => decide (s.pl.prog = 1024) && (decide (a.toNat / 16 = frame) || decide (b.toNat / 16 = frame))
  | none => false

/-- A move commits once its back-invalidates are all answered (R344), no commit of the placement loop in its frames is due (R358), and no freeze
is on (R360). -/
def moveCheck (s : State) : State :=
  match s.lw.move with
  | some (i, frame) =>
    if s.lw.scanned && s.lw.todo.isEmpty && !s.frz.on && !(commitDue s (lwFrame s i.toNat)) && !(commitDue s frame.toNat)
    then moveCommit s i frame else s
  | none => s

/-- GO of LW_MOVE: the checks of R344, in their order; R357 for the frame the entry has. While the window is disabled nothing is scanned (R345). -/
def moveStart (s : State) : State :=
  let v := preg s .lw 0x140
  let i := fld v 0 4
  let frame := fld v 8 9
  let rej (t : State) (r : Nat) : State := moveEnd (raiseErr t .lw 1 i) r
  if frame = lwFrame s i then moveEnd s 1
  else if frame = 287 then rej s 2
  else if 288 ≤ frame then rej s 4
  else if (List.range 16).any fun k => decide (k ≠ i) && decide (lwFrame s k = frame) then rej s 3
  else
    let off := decide (enabled s .lw = false) && !s.lw.closing
    moveCheck { s with lw := { s.lw with move := some (BitVec.ofNat 4 i, BitVec.ofNat 9 frame), scanned := off, todo := [] } }

/-- A write of LW_MOVE. -/
def lwMoveWrite (s : State) (v : W32) : State :=
  let w := pageWrite s .lw 0x140 v
  if w.started 31 then moveStart w.st else w.st

/-- LW_MOVE (08 R344). -/
def execLwMove (v : W32) (s : State) : Res := .next (lwMoveWrite s v)

/-- LW_SCAN_DONE (08 R344): the lines found are back-invalidated. -/
def execLwScanDone (s : State) : Res :=
  .next (match s.lw.move with
    | some (i, _) =>
      if s.lw.scanned then s
      else
        let ls := hostLines s (some (lwFrame s i.toNat))
        let s1 := { s with lw := { s.lw with scanned := true, todo := ls } }
        moveCheck (askLines s1 ls)
    | none => s)

/-- A move asks again for the host copies that a transaction of the line has kept it from asking for, and forgets those that are gone; so does a
window that closes. -/
def moveAsk (s : State) : State :=
  let has (l : Line) : Bool := decide ((slGet s l).h ≠ .none) || biOn s l
  let s1 := { s with lw := { s.lw with todo := s.lw.todo.filter has } }
  let s2 := if s1.frz.on then s1 else askLines s1 s1.lw.todo
  if s2.lw.closing && s2.lw.move.isNone then askLines s2 (hostLines s2 none) else s2

/-- UNCOMMIT waited for the last back-invalidate (09 R405). -/
def uncommitCheck (s : State) : State :=
  if s.cxl.uncommitting ∧ biTotal s = 0 then
    goDone (clrPreg { s with cxl := { s.cxl with uncommitting := false } } .ep 0x120 0x100) .ep 0x120 1
  else s

/-- A back-invalidate ends (R341, R342): H clears, modified data goes to home, and the device request behind it is served. -/
def biEnd (s : State) (l : Line) (held : List HomeReq) (dirty : Option (BitVec 512)) : State :=
  let n := homeOf l
  let s1 := s.setSlice n { s.slice n with binv := (s.slice n).binv.filter fun c => decide (c.line ≠ l) }
  let s2 := setSl s1 l { slGet s1 l with h := .none }
  let s3 := match dirty with
    | some d => homeStore s2 l d 0
    | none => s2
  held.foldl (fun t q =>
    if !(lineBusy t l) && roomReady t l q then serve t l ⟨0, false, false⟩ 0 false q
    else match q.master with | some m => addRetry t l m | none => t) s3

/-- The host answers a back-invalidate; what waits for the answer during a freeze goes on waiting until the release (R360). -/
def biAnswer (s : State) (l : Line) (dirty : Option (BitVec 512)) : State :=
  let n := homeOf l
  match (s.slice n).binv.find? fun b => decide (b.line = l) && b.sent && b.answered.isNone with
  | none => s
  | some b =>
    if s.frz.on then
      s.setSlice n { s.slice n with binv := (s.slice n).binv.map fun c => if c.line = l then { c with answered := some dirty } else c }
    else biEnd s l b.held dirty

/-- After a release, the back-invalidates answered during the freeze end (R360). -/
def biResume (s : State) : State :=
  (List.finRange 16).foldl (fun t n => (t.slice n).binv.foldl (fun u b => match b.answered with
    | some d => biEnd u b.line b.held d
    | none => u) t) s

/-- BI_SLOW (08 R346). -/
def execBiSlow (s : State) : Res := .next (if s.lw.move.isSome then raiseErr s .lw 2 else s)

/-! ## H2D snoops (09 R366, R391, R399) -/

/-- SnpCur: the line's current data, nothing else changes but that an M owner becomes E. -/
def snoopCur (s : State) (l : Line) : State :=
  let e := slGet s l
  match e.cxl with
  | none => emit s (.snoopResp none none)
  | some st =>
    let r := serveRdcur s l ⟨0, false, false⟩
    emit r.1 (.snoopResp (some st) (if e.data.isSome ∨ e.owned = true then some r.2.1 else none))

/-- SnpData: the device keeps at most S; modified data goes to the host. A grant on its way is sent for again. -/
def snoopData (s : State) (l : Line) : State :=
  let e := slGet s l
  match e.cxl with
  | none => emit s (.snoopResp none none)
  | some st =>
    let s0 := e.sharers.foldl (fun t k => cancelGrant t k l) (cancelMiss s l)
    let r := fetchShared s0 l ⟨0, false, false⟩
    let r1 := cancelMiss r.1 l
    let e1 := slGet r1 l
    emit (setSl r1 l { e1 with dirty := false, cxl := some .s })
      (.snoopResp (some .s) (if st = .m then some r.2.1 else none))

/-- SnpInv: every copy goes; modified data goes to the host. -/
def snoopInv (s : State) (l : Line) : State :=
  let e := slGet s l
  match e.cxl with
  | none => emit s (.snoopResp none none)
  | some st =>
    let r := dropCopies (cancelMiss s l) l none
    let d := match r.2, e.data with
      | some x, _ => some x.1
      | none, some x => some x
      | none, none => none
    emit (setSl r.1 l noLine) (.snoopResp none (if st = .m then d else none))

/-- A snoop names a host line, and the link must run in CXL mode (09 R363; assumption 9). -/
def snoopable (s : State) (l : Line) : Bool := l.host && cxlMode s

/-- SNPCUR (09 R366). -/
def execSnpcur (line : Line) (s : State) : Res := .next (if snoopable s line then snoopCur s line else s)

/-! ## Cache Writeback and Invalidate (09 R367, R403) -/

/-- Cache Invalid is set once the write-backs have received GO (R403). -/
def wbCheck (s : State) : State :=
  let out := (s.cxl.d2h.any fun d => d.w.isSome && decide (42 ≤ d.master.val)) || s.cxl.wq.any fun w => decide (42 ≤ w.master.toNat)
  if s.cxl.wbWaiting && !s.frz.on && !out then { s with cxl := { s.cxl with wbWaiting := false, cacheInvalid := true } } else s

/-- Every host line is written back and dropped, cluster copies first. -/
def dropHostLines (s : State) : State :=
  let s1 := s.slices.toList.foldl (fun t x => (x.misses.filter fun m => m.line.host).foldl (fun u m => cancelMiss u m.line) t) s
  s1.slices.toList.foldl (fun t x => (x.lines.filter fun e => (keyLine e.1).host).foldl (fun u e => sliceDrop true u (keyLine e.1)) t) s1

/-- The request is carried out, or waits for the release of a freeze. -/
def cacheWbInv (s : State) : State :=
  let s1 := { s with cxl := { s.cxl with wbWaiting := true } }
  if s.frz.on then s1 else wbCheck (dropHostLines s1)

/-- CACHE_WRITEBACK_AND_INVALIDATE (09 R367). -/
def execCacheWritebackAndInvalidate (s : State) : Res := .next (cacheWbInv s)

end Sys2Proof.Machine
end

