-- ==== Sys2Proof/Machine/Issue.lean ====
section
/-! DEFINITION. Issuing a bundle, completing an MMA and a SEND (05; 04 R123). -/

namespace Sys2Proof.Machine

/-- The cluster clock of a core stands still: safe state, or the cluster is fenced (12 R515, R520). -/
def clockStopped (s : State) (id : Fin 256) : Bool := stopped s || fenced s (.cl (clusterOf id))

/-! ## The core-local map (04 R112) -/

/-- A byte of the local map: LDM, inbox, IMEM. -/
def Core.localByte (c : Core) (a : Nat) : Byte :=
  if a < 0xC0000 then sget (fun _ => 0) c.ldm a
  else if a < 0xD0000 then sget (fun _ => 0) c.inbox (a - 0xC0000)
  else sget (fun _ => 0) c.imem (a - 0xD0000)

/-- Bytes of the local map, lowest first. -/
def Core.localRead (c : Core) (a n : Nat) : Nat := bytesNat ((List.range n).map fun i => c.localByte (a + i))

/-- A local store: LDM, or IMEM (R112, 05 R185). -/
def Core.localWrite (c : Core) (a : Nat) (bs : List Byte) : Core :=
  if a < 0xC0000 then { c with ldm := writeBytes c.ldm a bs } else { c with imem := writeBytes c.imem (a - 0xD0000) bs }

/-- A local load lies within the map; a store within LDM or within IMEM. -/
def loadMapped (a n : Nat) : Bool := decide (a + n ≤ 0xE0000)

def storeMapped (a n : Nat) : Bool :=
  decide (a + n ≤ 0xC0000) || (decide (0xD0000 ≤ a) && decide (a + n ≤ 0xE0000))

/-- An address formed in 64 bits (05 R181). -/
def effAddr (c : Core) (ra : SReg) (imm : Int) : Nat := (c.s ra + BitVec.ofInt 64 imm).toNat

/-- A range overlaps an operand tile of an MMA that has not finished reading (05 R204). -/
def tileOverlap (c : Core) (a n : Nat) : Bool :=
  c.mmas.any fun m =>
    let hit (base fmt : Nat) : Bool := decide (a < base + tileBytes fmt m.k) && decide (base < a + n)
    hit m.a.toNat m.fmt.toNat || hit m.b.toNat m.fmt.toNat

/-- An MMA on this accumulator has not finished. -/
def accBusy (c : Core) (a : BitVec 2) : Bool := c.mmas.any fun m => decide (m.acc = a)

/-! ## Mapping slots (05 R194) -/

/-- A slot covers an address. A FAILED slot covers the 32 MiB page of the address asked for (assumption 12). -/
def MapSlot.covers (x : MapSlot) (va : Nat) : Bool :=
  decide (va / (if x.big then 2 ^ 30 else 2 ^ 25) = x.base.toNat / (if x.big then 2 ^ 30 else 2 ^ 25))

/-- The lowest slot in a state that covers an address, or the lowest in a state. -/
def slotFind (c : Core) (st : SlotState) (va : Option Nat) : Option (Fin 16) :=
  (List.finRange 16).find? fun i =>
    decide ((c.slots.get i).st = st) && (match va with | some a => (c.slots.get i).covers a | none => true)

/-- What stands before a slot of a bundle may act. -/
inductive Pre where
  | ok
  | exc (cause : Byte)
  | wait (w : Wait)
  | stall

/-- A global access finds its slot (R194) and its place among the outstanding ones (R195). `need`: rights, bit 0 R, 1 W, 2 A. -/
def preGlobal (c : Core) (va n : Nat) (need : BitVec 3) (store : Bool) : Pre :=
  if va % n ≠ 0 then .exc 0x03
  else if 2 ^ 48 ≤ va then .exc 0x06
  else match slotFind c .valid (some va) with
    | some i =>
      if (c.slots.get i).rights &&& need ≠ need then .exc 0x07
      else if (if store then 64 ≤ c.storesOut else 32 ≤ c.loadsOut) then .wait (.accessLimit store)
      else .ok
    | none =>
      match slotFind c .pending none with
      | some i => .wait (.pendingSlot i)
      | none => if (slotFind c .failed (some va)).isSome then .exc 0x08 else .exc 0x06

/-- A local access (R112, R182). -/
def preLocal (c : Core) (a n align : Nat) (store : Bool) : Pre :=
  if a % align ≠ 0 then .exc 0x03
  else if (if store then storeMapped a n else loadMapped a n) = false then .exc 0x02
  else if store && tileOverlap c a n then .stall
  else .ok

/-- What stands before the M slot (05 R182, R187, R194, R204). -/
def preM (c : Core) (m : MIns) : Pre :=
  match m with
  | .ld _ ra imm n _ => preLocal c (effAddr c ra imm) n n false
  | .st _ ra imm n => preLocal c (effAddr c ra imm) n n true
  | .vld _ ra imm => preLocal c (effAddr c ra imm) 256 64 false
  | .vst _ ra imm => preLocal c (effAddr c ra imm) 256 64 true
  | .gld _ ra imm n _ => preGlobal c (effAddr c ra imm) n 1 false
  | .gst _ ra imm n _ => preGlobal c (effAddr c ra imm) n 2 true
  | .gvld _ ra imm => preGlobal c (effAddr c ra imm) 256 1 false
  | .gvst _ ra imm => preGlobal c (effAddr c ra imm) 256 2 true
  | .gamoAdd _ ra _ => preGlobal c (c.s ra).toNat 8 7 false
  | .gamoSwap _ ra _ => preGlobal c (c.s ra).toNat 8 7 false
  | .gamoCas _ ra _ => preGlobal c (c.s ra).toNat 8 7 false
  | .send _ ra =>
    if (c.s ra).toNat % 16 ≠ 0 then .exc 0x03 else if ldmSize < (c.s ra).toNat + 16 then .exc 0x02 else .ok
  | .mma _ ra rb kb fmt _ =>
    let n := tileBytes fmt.toNat (32 * (kb + 1))
    let a := (c.s ra).toNat
    let b := (c.s rb).toNat
    if a % 64 ≠ 0 ∨ b % 64 ≠ 0 then .exc 0x03
    else if ldmSize < a + n ∨ ldmSize < b + n then .exc 0x02
    else if 3 ≤ c.mmas.length then .stall else .ok
  | .accst acc ra fmt _ _ =>
    let n := tileBytes fmt.toNat 64
    let a := (c.s ra).toNat
    if a % 64 ≠ 0 then .exc 0x03 else if ldmSize < a + n then .exc 0x02
    else if 3 ≤ c.mmas.length ∨ accBusy c acc = true ∨ tileOverlap c a n = true then .stall else .ok
  | .accld acc ra =>
    let a := (c.s ra).toNat
    if a % 64 ≠ 0 then .exc 0x03 else if ldmSize < a + 16384 then .exc 0x02
    else if 3 ≤ c.mmas.length ∨ accBusy c acc = true then .stall else .ok
  | .accr acc _ _ => if 3 ≤ c.mmas.length ∨ accBusy c acc = true then .stall else .ok
  | .accw acc _ _ => if 3 ≤ c.mmas.length ∨ accBusy c acc = true then .stall else .ok
  | _ => .ok

/-- What stands before the S slot (05 R177, R178). -/
def preS (c : Core) (i : SIns) : Pre :=
  match i with
  | .jr ra => if (c.s ra).toNat % 16 = 0 then .ok else .exc 0x03
  | .trap imm => .exc (BitVec.ofNat 8 (0x40 + imm.toNat))
  | _ => .ok

/-! ## The slots' effects -/

/-- A control register (05 R173). -/
def mfcRead (s : State) (id : Fin 256) (c : Core) (sel : Nat) : W64 :=
  match sel with
  | 0 => (gcAddr s id.val).setWidth 64
  | 1 => s.tide.step.setWidth 64
  | 2 => s.tide.phase.setWidth 64
  | 3 => s.tide.len.setWidth 64
  | 4 => c.events.setWidth 64
  | 5 => c.mark.setWidth 64
  | 6 => c.berthsWord.setWidth 64
  | 7 => BitVec.ofNat 64 (coreHint s id + 16 * b2n (coreQuiet s id))
  | 8 => c.cycles
  | _ => (c.chan (BitVec.ofNat 4 (sel % 16))).fares.setWidth 64

/-- The branch target of a bundle, if its S slot takes one (R177). -/
def branchTarget (c : Core) (i : SIns) : Option W16 :=
  match i with
  | .branch cd ra rb off => if condEval cd (c.s ra) (c.s rb) then some (c.pc + BitVec.ofInt 16 (16 * off)) else none
  | .jal _ off => some (c.pc + BitVec.ofInt 16 (16 * off))
  | .jr ra => some ((c.s ra).setWidth 16)
  | _ => none

/-- What the S slot writes at once. `o` is the core as the bundle found it. -/
def sWrite (s : State) (id : Fin 256) (o : Core) (i : SIns) (c : Core) : Core :=
  match i with
  | .alu op rd ra rb => c.setS rd (aluEval op (o.s ra) (o.s rb))
  | .alui op rd ra imm => c.setS rd (aluEval op (o.s ra) imm)
  | .li rd imm => c.setS rd imm
  | .lih rd imm => c.setS rd (imm ++ (o.s rd).setWidth 32)
  | .jal rd _ => c.setS rd ((o.pc + 16).setWidth 64)
  | .waitT rd ra imm =>
    let m := (o.s ra).setWidth 32 ||| imm
    { c.setS rd ((c.events &&& m).setWidth 64) with events := c.events &&& ~~~m }
  | .mark ra imm =>
    { c with mark := BitVec.ofNat 32 (min (o.mark.toNat + (o.s ra + imm.setWidth 64).toNat) 0xFFFFFFFF)
             markTick := tickNow s, markBefore := (if o.markTick = tickNow s then o.markBefore else o.mark) }
  | .mfc rd sel => c.setS rd (mfcRead s id o sel.toNat)
  | .evset ra imm => { c with events := c.events ||| ((o.s ra).setWidth 32 ||| imm) }
  | _ => c

/-- Adds a wait of a core, unless it ends at once. -/
def startWait (s : State) (id : Fin 256) (w : Wait) : State :=
  let c := s.core id
  match waitCore c w with
  | some c' => s.setCore id c'
  | none => setWaits s id c (c.waits ++ [w])

/-- The M slot stores into IMEM (R112). -/
def storesImem (o : Core) (m : MIns) : Bool :=
  match m with
  | .st _ ra imm _ | .vst _ ra imm => decide (0xD0000 ≤ effAddr o ra imm)
  | _ => false

/-- What the S slot does after the registers are written: waits, barriers, PARK. SYNC.I waits for an IMEM store of its own bundle, which is
performed before the core's next BUNDLE_ISSUE; those of earlier bundles have been performed (R186, R212; assumption 51). -/
def sAfter (s : State) (id : Fin 256) (o : Core) (i : SIns) (m : MIns) : State :=
  match i with
  | .waitAny rd ra imm => startWait s id (.event rd ((o.s ra).setWidth 32 ||| imm))
  | .waitAll rd ra imm => startWait s id (.eventAll rd ((o.s ra).setWidth 32 ||| imm))
  | .fenceM => startWait s id .fence
  | .park => askPark s id
  | .syncI =>
    let c := { s.core id with fetchQ := [] }
    if storesImem o m then setWaits s id c (c.waits ++ [.sync]) else s.setCore id c
  | _ => s

/-- The D2H request of an access that misses (09 R366): 0 RdCurr, 1 RdShared, 2 RdOwn, 3 RdOwnNoData (assumption 10). -/
def accessOp (s : State) (k : GKind) : BitVec 4 :=
  match k with
  | .load _ _ _ | .vload _ => if s.cxl.disCache then 0 else 1
  | .store n => if 64 ≤ n then 3 else 2
  | _ => 2

/-- The lines of an access, lowest first: one, or four for 256 bytes. -/
def GAccess.lines (a : GAccess) (n : Nat) : List Line :=
  (List.range (max 1 (n / 64))).map fun k => lineOf a.host (a.pa.toNat + 64 * k)

/-- Bytes an access covers. -/
def GKind.bytes : GKind → Nat
  | .load _ n _ => n
  | .vload _ => 256
  | .store n => n
  | .add _ _ | .swap _ _ | .cas _ _ _ => 8

/-- A GAMO or a store needs the line for writing. -/
def GKind.writes : GKind → Bool
  | .load _ _ _ | .vload _ => false
  | _ => true

/-- The device holds a host line as an access of a cluster's core needs it: its cluster cache or the slice has it, in M or E for a
write. -/
def lineHeld (s : State) (cl : Fin 16) (l : Line) (write : Bool) : Bool :=
  match ccHit s cl l with
  | some x => !write || decide (x.st = Mesf.m) || decide (x.st = Mesf.e) || cxlOwned s l
  | none => if write then cxlOwned s l else slServes s l || (slGet s l).owned

/-- The lines that an access to the host asks the host for (09 R366): those that the device does not hold. A store to a line that neither its cluster
cache nor its slice may take asks for none: it goes out as a write. -/
def linesAsked (s : State) (cl : Fin 16) (a : GAccess) : List Line :=
  (a.lines a.kind.bytes).filter fun l => !(lineHeld s cl l a.kind.writes) && !(a.kind.isStore && !(ccTakes s cl l) && !(slAllocs s l))

/-- The D2H requests of an access leave (09 R366). -/
def askAccess (s : State) (id : Fin 256) (a : GAccess) : State :=
  let ls := linesAsked s (clusterOf id) a
  if ls.isEmpty ∨ cxlMode s = false then s
  else
    let d : D2h := ⟨accessOp s a.kind, (lineOf true a.pa.toNat).num, fin 58 (clusterOf id).val, id, none, false⟩
    ls.foldl (fun t l => emit t (.d2h d.op l.num)) { s with cxl := { s.cxl with d2h := s.cxl.d2h ++ [d] } }

/-- A host access is on its way (09 R366, R391 to R393). A store that a freeze stops is discarded and listed, and never completes; an access to
lines that its caches do not hold sends their D2H requests, unless the freeze holds it. -/
def sendAccess (s : State) (id : Fin 256) (a : GAccess) : State × GAccess :=
  let cl := clusterOf id
  if (a.lines a.kind.bytes).all fun l => lineHeld s cl l a.kind.writes then (s, a)
  else if s.frz.on || discarding s cl.val id then
    (match a.kind with
      | .store n => (listDiscard s { master := BitVec.ofNat 6 cl.val, core := BitVec.ofNat 8 id.val, addr := a.pa
                                     bytes := (natBytes 256 a.data.toNat).take n, peer := false, relaxed := a.relaxed, poison := false
                                     frozenResp := false, response := none }, { a with lost := true })
      | _ => (s, a))
  else (askAccess s id a, a)

/-- The accesses of a core that a freeze, or a link that ran no CXL.cache, has kept from asking the host ask it now (09 R391). -/
def resumeAccesses (s : State) (id : Fin 256) : State :=
  let asked (a : GAccess) : Bool := s.cxl.d2h.any fun d => d.w.isNone && decide (d.core = id) && decide (d.line.toNat = a.pa.toNat / 64)
  (s.core id).access.foldl (fun t a => if a.host && !a.lost && !a.sent && !(asked a) then askAccess t id a else t) s

/-- Adds a global access to the outstanding ones. -/
def pushAccess (s : State) (id : Fin 256) (o : Core) (kind : GKind) (va : Nat) (data : BitVec 2048) (relaxed : Bool) : State :=
  match slotFind o .valid (some va) with
  | none => s
  | some i =>
    let x := o.slots.get i
    let pa := x.pa.toNat + va % (if x.big then 2 ^ 30 else 2 ^ 25)
    let a : GAccess := { kind := kind, va := BitVec.ofNat 48 va, host := decide (x.kind = 1), pa := BitVec.ofNat 64 pa, data := data
                         relaxed := relaxed, sent := false, lost := false, slot := i, pc := o.pc }
    let r := if a.host then sendAccess s id a else (s, a)
    let c := r.1.core id
    r.1.setCore id { c with access := c.access ++ [r.2] }

/-- A local load meets what the codes find (04 R113): `g` writes the result. IMEM carries no such code. -/
def loadLocal (s : State) (id : Fin 256) (o : Core) (upset : Upset) (a : Nat) (g : Core → Core) : State :=
  if 0xD0000 ≤ a then s.setCore id (g (s.core id))
  else if upset = .uncorrectable then haltCore (noteUpset s id upset a) id 0x04 o.pc
  else noteUpset (s.setCore id (g (s.core id))) id upset a

/-- REL once every earlier access is done (05 R192). -/
def relNow (s : State) (id : Fin 256) (rd : SReg) (n : Fin 1024) (rivals : Bool) : State :=
  let r := release s id n rivals
  r.1.setCore id ((r.1.core id).setS rd r.2)

/-- The number of a lock (05 R181). -/
def lockNo (o : Core) (ra : SReg) (imm : Nat) : Fin 1024 := fin 1024 ((o.s ra).toNat + imm)

/-- SEND (05 R187, R188): the status of a failed check, the start of its readout, or the wait for a fare. An uncorrectable word of the descriptor
raises DATA_UE (R210). -/
def sendIssue (s : State) (id : Fin 256) (o : Core) (upset : Upset) (rd ra : SReg) : State :=
  let a := (o.s ra).toNat
  let s0 := noteUpset s id upset a
  if upset = .uncorrectable then haltCore s0 id 0x04 o.pc
  else
    let d := readDesc o a
    let st := sendCheck s0 id d
    if st ≠ 0 then
      let s1 := sendStatus s0 id d st
      s1.setCore id ((s1.core id).setS rd (BitVec.ofNat 64 st))
    else if canSend s0 id d then beginSend s0 id rd d
    else setWaits s0 id (s0.core id) ((s0.core id).waits ++ [.send rd d])

/-- The M slot's effect (05 R181). `o` is the core as the bundle found it; `asked`: the locks that ACQs of this cycle ask for (04 R155). -/
def mEffect (s : State) (id : Fin 256) (o : Core) (upset : Upset) (asked : List (Fin 1024)) (m : MIns) : State :=
  match m with
  | .nop => s
  | .ld rd ra imm n sg =>
    let a := effAddr o ra imm
    let v := o.localRead a n
    loadLocal s id o upset a fun c => c.setS rd (if sg then BitVec.ofInt 64 (sgn (8 * n) v) else BitVec.ofNat 64 v)
  | .st rd ra imm n => s.setCore id ((s.core id).localWrite (effAddr o ra imm) (natBytes n (o.s rd).toNat))
  | .vld vd ra imm =>
    let a := effAddr o ra imm
    loadLocal s id o upset a fun c => c.setV vd (BitVec.ofNat 2048 (o.localRead a 256))
  | .vst vd ra imm => s.setCore id ((s.core id).localWrite (effAddr o ra imm) (natBytes 256 (o.v vd).toNat))
  | .gld rd ra imm n sg => pushAccess s id o (.load rd n sg) (effAddr o ra imm) 0 false
  | .gst rd ra imm n rx => pushAccess s id o (.store n) (effAddr o ra imm) ((o.s rd).setWidth 2048) rx
  | .gvld vd ra imm => pushAccess s id o (.vload vd) (effAddr o ra imm) 0 false
  | .gvst vd ra imm => pushAccess s id o (.store 256) (effAddr o ra imm) (o.v vd) false
  | .gamoAdd rd ra rb => pushAccess s id o (.add rd (o.s rb)) (o.s ra).toNat 0 false
  | .gamoSwap rd ra rb => pushAccess s id o (.swap rd (o.s rb)) (o.s ra).toNat 0 false
  | .gamoCas rd ra rb => pushAccess s id o (.cas rd (o.s rd) (o.s rb)) (o.s ra).toNat 0 false
  | .send rd ra => sendIssue s id o upset rd ra
  | .recv rd ra => startWait s id (.recv rd ((o.s ra).setWidth 16))
  | .brel ra => berthRelease s id (fin 16 (o.s ra).toNat)
  | .acq rd ra imm t =>
    let n := lockNo o ra imm
    let r := acquire s id n t
    match r.2 with
    | some w => r.1.setCore id ((r.1.core id).setS rd w)
    | none => setWaits r.1 id (r.1.core id) ((r.1.core id).waits ++ [.acq rd n])
  | .rel rd ra imm =>
    let n := lockNo o ra imm
    let c := s.core id
    if c.access.isEmpty then relNow s id rd n (asked.contains n) else setWaits s id c (c.waits ++ [.rel rd n])
  | .map rd ra slot rights w =>
    let c := s.core id
    let x := c.slots.get slot
    let c1 := { c with slots := c.slots.set slot { x with st := .pending, req := o.s ra, reqRights := rights } }
    if w then setWaits s id c1 (c1.waits ++ [.mapW rd slot]) else s.setCore id c1
  | .unmap slot => s.setCore id { s.core id with slots := (s.core id).slots.set slot mapSlotReset }
  | .mma acc ra rb kb fmt zero =>
    let c := s.core id
    s.setCore id { c with mmas := c.mmas ++ [⟨acc, (o.s ra).setWidth 20, (o.s rb).setWidth 20, 32 * (kb + 1), fmt, zero, o.pc⟩] }
  | .accst acc ra fmt sat rz =>
    let c := s.core id
    { s with fresh := s.fresh + 4096 }.setCore id
      { c with ldm := writeBytes c.ldm (o.s ra).toNat (accstBytes o.acc acc fmt.toNat sat rz s.fresh) }
  | .accld acc ra =>
    let a := (o.s ra).toNat
    loadLocal s id o upset a fun c =>
      { c with acc := accBuild c.acc acc fun r k => BitVec.ofNat 32 (o.localRead (a + 4 * (64 * r + k)) 4) }
  | .accr acc vd row => s.setCore id ((s.core id).setV vd (accRow o.acc acc row))
  | .accw acc va row => s.setCore id { s.core id with acc := accSetRow (s.core id).acc acc row (o.v va) }

/-- What the V slot writes (05 R179). -/
def vWrite (k : Nat) (o : Core) (v : Option VIns) (c : Core) : Core :=
  match v with
  | none => c
  | some i =>
    match vEval i k (o.v i.va) (o.v i.vb) (o.v i.vc) (o.v i.vd) (o.s i.rs) with
    | .vec x => c.setV i.vd x
    | .scalar x => c.setS i.rs x

/-- The bundle issuing and the next four, fetched as IMEM stands where the queue is short (05 R171, R185). -/
def Core.topped (c : Core) : List (BitVec 128) :=
  c.fetchQ ++ ((List.range 5).drop c.fetchQ.length).map fun i => c.fetch (c.pc + BitVec.ofNat 16 (16 * i))

/-- All slots of a bundle act (05 R170): every source is read first, and a taken branch takes effect after the bundle. The cycles that
passed since the bundle before are free: the model keeps no core clock (assumption 8). -/
def runBundle (s : State) (id : Fin 256) (upset : Upset) (asked : List (Fin 1024)) (q : List (BitVec 128)) (b : Bundle) : State :=
  let o := { s.core id with cycles := (s.core id).cycles + (Config.freeTime s.fresh).setWidth 64 }
  let t := branchTarget o b.s
  let c1 := { o with pc := t.getD (o.pc + 16), fetchQ := (match t with | some _ => [] | none => q.drop 1)
                     lastPc := o.pc, cycles := o.cycles + 1 }
  let c2 := sWrite s id o b.s (vWrite (s.fresh + 1) o b.v c1)
  let s1 := { s with fresh := s.fresh + (if b.v.isSome then 257 else 1) }.setCore id c2
  let s2 := mEffect s1 id o upset asked b.m
  if (s2.core id).st = .halt then s2 else sAfter s2 id o b.s b.m

/-- The core may issue: in RUN, its clock runs, no SEND is being read out and no PARK is due (R123, R132). -/
def canIssue (s : State) (id : Fin 256) : Bool :=
  let c := s.core id
  decide (c.st = .run) && !c.parking && decide (c.sending = none) && !(clockStopped s id)

/-- A precise exception of the bundle at the issue point (R211): it lets no slot act, and halts the core once every earlier bundle has completed, its
global loads and GAMOs with it. Until then issue stalls, with the queue as fetched. -/
def issueFault (s : State) (id : Fin 256) (q : List (BitVec 128)) (cause : Byte) : State :=
  let c := s.core id
  if 0 < c.loadsOut then s.setCore id { c with fetchQ := q }
  else haltCore (s.setCore id { c with lastPc := c.pc }) id cause c.pc

/-- Issues the next bundle of a core (05 R170, R210, R211). A bundle that stalls stays in the queue as it was fetched (R185). ERR_ADDR of IMEM_PE holds
the pc, which is the model's choice (assumption 18). -/
def issue (s : State) (id : Fin 256) (upset : Upset) (asked : List (Fin 1024)) : State :=
  let c := s.core id
  if canIssue s id = false then s
  else if upset = .imemParity then
    (if 0 < c.loadsOut then s else haltCore (raiseErr s (.gc id) 7 c.pc.toNat) id 0x0A c.pc)
  else
    let q := c.topped
    match decodeBundle (q.headD 0) with
    | none => issueFault s id q 0x01
    | some b =>
      match preS c b.s, preM c b.m with
      | .exc e, _ => issueFault s id q e
      | _, .exc e => issueFault s id q e
      | _, .wait w => setWaits s id { c with fetchQ := q } (c.waits ++ [w])
      | _, .stall => s.setCore id { c with fetchQ := q }
      | _, _ => runBundle s id upset asked q b

/-- A core that waits with cause SYNC goes on with its next cycle (R186): its IMEM store is performed, and it fetches afresh. -/
def syncEnd (s : State) (id : Fin 256) : State :=
  let c := s.core id
  setWaits s id { c with fetchQ := [] } (c.waits.filter fun w => decide (w ≠ .sync))

/-- One core's part of a BUNDLE_ISSUE. A command at a core that cannot issue changes nothing (assumption 9). -/
def issueOne (s : State) (id : Fin 256) (upset : Upset) (asked : List (Fin 1024)) : State :=
  if (s.core id).waits.contains .sync && !(clockStopped s id) then syncEnd s id else issue s id upset asked

/-! ## Lock operations of one cycle (04 R141, R155) -/

/-- The lock operation that a core's next bundle performs: the lock, and whether it is an ACQ. -/
def lockAsk (s : State) (x : Fin 256 × Upset) : Option (Fin 1024 × Bool) :=
  let c := s.core x.1
  if canIssue s x.1 = false ∨ x.2 = .imemParity then none
  else match decodeBundle (c.topped.headD 0) with
    | none => none
    | some b =>
      match preS c b.s, preM c b.m, b.m with
      | .ok, .ok, .acq _ ra imm _ => if lockAllowed s x.1 (lockNo c ra imm) then some (lockNo c ra imm, true) else none
      | .ok, .ok, .rel _ ra imm => some (lockNo c ra imm, false)
      | _, _, _ => none

/-- Puts a core with its place in the rotation of its lock among those after it. -/
def rotInsert (x : Nat × (Fin 256 × Upset)) : List (Nat × (Fin 256 × Upset)) → List (Nat × (Fin 256 × Upset))
  | [] => [x]
  | y :: l => if x.1 < y.1 then x :: y :: l else y :: rotInsert x l

/-- The cores of one cycle whose bundles hold an ACQ, each lock's in its rotation as it stands once the cycle's RELs are done (R141, R155). -/
def acqOrder (s : State) (l : List (Fin 256 × Upset)) : List (Fin 256 × Upset) :=
  (l.foldl (fun a x =>
    match lockAsk s x with
    | some (n, true) => rotInsert (rotKey (rotFrom (s.lock n)) x.1, x) a
    | _ => a) []).map (·.2)

/-- Bundles that issue in one cycle (05 R170): those without an ACQ first, the RELs among them; then the ACQs, each lock's in rotation, so that the
first of them wins and the others find the lock taken. A lock that a REL of the cycle left FREE, and that no ACQ of the cycle took, goes to those
queued. -/
def issueCycle (s : State) (l : List (Fin 256 × Upset)) : State :=
  let acqs := l.filter fun x => (match lockAsk s x with | some (_, true) => true | _ => false)
  let asked := acqs.filterMap fun x => (lockAsk s x).map (·.1)
  let s1 := (l.filter fun x => !(acqs.contains x)).foldl (fun t x => issueOne t x.1 x.2 asked) s
  let s2 := (acqOrder s1 acqs).foldl (fun t x => issueOne t x.1 x.2 []) s1
  asked.foldl (fun t n => if (t.lock n).st = .free then serveLock t n (rotFrom (t.lock n)) else t) s2

/-- BUNDLE_ISSUE (05 R170): one core, and those that issue in the same cycle. A core issues once in a cycle. -/
def execBundleIssue (id : Fin 256) (upset : Upset) (same : List (Fin 256 × Upset)) (s : State) : Res :=
  .next (if same.isEmpty then issueOne s id upset []
    else issueCycle s (((id, upset) :: same).foldl (fun a x => if a.any (fun y => decide (y.1 = x.1)) then a else a ++ [x]) []))

/-- The oldest MMA completes (05 R202, R204): its accumulator takes the result. An uncorrectable operand word halts a core that has not halted
yet with DATA_UE, and leaves the accumulator free values (assumption 8). -/
def mmaDone (s : State) (id : Fin 256) (upset : Upset) : State :=
  let c := s.core id
  match c.mmas with
  | [] => s
  | m :: rest =>
    if upset = .uncorrectable then
      let k := s.fresh
      let c1 := { c with mmas := rest, acc := accBuild c.acc m.acc fun r j => Config.freeLane (k + 64 * r + j) }
      haltLate (noteUpset ({ s with fresh := s.fresh + 4096 }.setCore id c1) id upset m.a.toNat) id 0x04 m.pc
    else noteUpset (s.setCore id { c with mmas := rest, acc := mmaRun c.ldm c.acc m }) id upset m.a.toNat

/-- MMA_COMPLETE (05 R204). -/
def execMmaComplete (id : Fin 256) (upset : Upset) (s : State) : Res :=
  .next (if clockStopped s id then s else mmaDone s id upset)

/-- The last byte of a SEND's payload is read (04 R123): the message leaves and the core learns OK. An uncorrectable word raises DATA_UE (05
R210): the message is not sent, and its fare is lost (assumption 51). -/
def sendDone (s : State) (id : Fin 256) (upset : Upset) : State :=
  let c := s.core id
  match c.sending with
  | none => s
  | some (rd, d) =>
    let s1 := noteUpset (s.setCore id { c with sending := none }) id upset d.src.toNat
    if upset = .uncorrectable then haltLate (xlCancel s1 id) id 0x04 c.lastPc
    else
      let s2 := launch s1 id d true
      s2.setCore id ((s2.core id).setS rd 0)

/-- SEND_COMPLETE (04 R123). -/
def execSendComplete (id : Fin 256) (upset : Upset) (s : State) : Res := .next (if clockStopped s id then s else sendDone s id upset)

end Sys2Proof.Machine
end

