-- ==== Sys2Proof/Machine/Access.lean ====
section
/-! DEFINITION. Completion of the global accesses of cores (05 R195 to R200, R210; 09 R366, R367, R386). -/

namespace Sys2Proof.Machine

/-- A load of a line by a core of a cluster (08 R320): a hit in its cluster cache, else RdS, whose fill ends here; as RdCur at home where its
cluster cache does not take the line (R327). -/
def coreRead (s : State) (cl : Fin 16) (l : Line) (res : HostAnswer) : State × BitVec 512 × BitVec 2 :=
  match ccHit s cl l with
  | some x => (cntPreg s (.cl cl) 0x110 1, x.data, x.poison)
  | none =>
    if ccTakes s cl l then
      let s1 := serveRds (clearRetry (cntPreg s (.cl cl) 0x114 1) l (fin 58 cl.val)) cl l res
      let g := (grantedTo s1 cl l).getD ⟨.s, 0, 0, 0⟩
      (landGrant s1 cl l, g.data, g.poison)
    else serveRdcur (clearRetry s l (fin 58 cl.val)) l res

/-- The cluster cache's copy of a line is M: it was M or E, or it is granted M by Upg or RdO, whose fill ends here (08 R320). -/
def coreOwn (s : State) (cl : Fin 16) (l : Line) (res : HostAnswer) : State :=
  match ccHit s cl l with
  | some x =>
    if x.st = .m ∨ x.st = .e then setCcLine (cntPreg s (.cl cl) 0x110 1) cl l (some { x with st := .m })
    else landGrant (serveUpg (clearRetry (cntPreg s (.cl cl) 0x114 1) l (fin 58 cl.val)) cl l res) cl l
  | none => landGrant (serveRdo (clearRetry (cntPreg s (.cl cl) 0x114 1) l (fin 58 cl.val)) cl l res) cl l

/-- A store to a line by a core: into its cluster cache's M copy; at home, as WrInv or WrPart, where its cluster cache does not take the line (08
R320, R327). -/
def coreWrite (s : State) (cl : Fin 16) (id : Fin 256) (l : Line) (d : BitVec 512) (mask : BitVec 64) (relaxed : Bool) (res : HostAnswer) :
    State :=
  if (ccHit s cl l).isSome || ccTakes s cl l then
    let s1 := coreOwn s cl l res
    match ccLine s1 cl l with
    | some x => setCcLine (reportPartial s1 l x.poison mask) cl l (some { x with st := .m, data := mergeLine x.data d mask, poison := mergePoison x.poison 0 mask })
    | none => s1
  else
    let s1 := clearRetry s l (fin 58 cl.val)
    if l.host && slAllocs s1 l then mergeOwned s1 l res d mask 0
    else if mask = BitVec.allOnes 64 then serveWrinv s1 (fin 58 cl.val) (BitVec.ofNat 8 id.val) l d 0 relaxed
    else serveWrpart s1 (fin 58 cl.val) (BitVec.ofNat 8 id.val) l d mask 0 relaxed

/-- The request that an access makes of home for a line, if its cluster cache does not serve it: a GAMO on a host line is performed in the device
cache (05 R196). -/
def accessReq (s : State) (cl : Fin 16) (l : Line) (write gamo : Bool) : Option HomeReq :=
  let part : HomeReq := .wrpart (fin 58 cl.val) 0 0 0
  match (if gamo && l.host then none else ccHit s cl l) with
  | some x => if !write || decide (x.st = .m) || decide (x.st = .e) then none else some (.upg cl)
  | none =>
    if gamo && l.host then some part
    else if ccTakes s cl l then some (if write then .rdo cl else .rds cl)
    else some (if write then part else .rdcur (fin 58 cl.val))

/-- A register of the cluster cache is open for the line, or none is free for a miss: the access waits for a fill (08 R324). -/
def ccWaits (s : State) (cl : Fin 16) (l : Line) : Bool :=
  (s.cl cl).cc.misses.any (fun m => decide (m.line = l)) || decide (64 ≤ (s.cl cl).cc.misses.length)

/-- An access can be performed on a line now: its cluster cache serves it, or home can, and a fill finds a way. -/
def lineReady (s : State) (cl : Fin 16) (l : Line) (write gamo : Bool) : Bool :=
  match accessReq s cl l write gamo with
  | none => true
  | some q => homeReady s l (fin 58 cl.val) q &&
      (!(ccTakes s cl l) || (gamo && l.host) || (!(ccWaits s cl l) && ((ccHit s cl l).isSome || (ccWays s cl).any (ccWayReady s cl l))))

/-- An access that waits for a line: merged into its cluster cache's open register, or kept by home (08 R323, R324). -/
def lineAsk (s : State) (cl : Fin 16) (id : Fin 256) (l : Line) (write gamo : Bool) : State :=
  match accessReq s cl l write gamo with
  | none => s
  | some q =>
    if (s.cl cl).cc.misses.any (fun m => decide (m.line = l)) then ccMerge s cl l (some id)
    else homeAsk s l (fin 58 cl.val) q

/-- The host's answer for the `k`-th line of an access. -/
def answerLine (res : HostAnswer) (k : Nat) : HostAnswer := { res with data := res.data >>> (512 * k) }

/-- The data of an access, lowest byte first, and whether a granule it touches is poisoned. -/
def accessRead (s : State) (cl : Fin 16) (a : GAccess) (res : HostAnswer) : State × Nat × Bool :=
  let n := a.kind.bytes
  let off := a.pa.toNat % 64
  let r := ((a.lines n).zipIdx).foldl (fun (acc : State × Nat × Bool) x =>
    let q := coreRead acc.1 cl x.1 (answerLine res x.2)
    let bad := if n < 64 then q.2.2.getLsbD (off / 32) else decide (q.2.2 ≠ 0)
    (q.1, acc.2.1 + q.2.1.toNat * 2 ^ (512 * x.2), acc.2.2 || bad)) (s, 0, false)
  (r.1, r.2.1 / 2 ^ (8 * off) % 2 ^ (8 * n), r.2.2)

/-- The bytes of an access are written. -/
def accessWrite (s : State) (cl : Fin 16) (id : Fin 256) (a : GAccess) (v : Nat) (res : HostAnswer) : State :=
  let n := a.kind.bytes
  let off := a.pa.toNat % 64
  ((a.lines n).zipIdx).foldl (fun t x =>
    let d := BitVec.ofNat 512 (v / 2 ^ (512 * x.2) * 2 ^ (8 * off))
    let mask : BitVec 64 := BitVec.ofNat 64 ((2 ^ (min n 64) - 1) * 2 ^ off)
    coreWrite t cl id x.1 d mask a.relaxed (answerLine res x.2)) s

/-- The result of a load or GAMO goes to its register. -/
def accessResult (c : Core) (k : GKind) (v : Nat) : Core :=
  match k with
  | .load rd n sg => c.setS rd (if sg then BitVec.ofInt 64 (sgn (8 * n) v) else BitVec.ofNat 64 v)
  | .vload vd => c.setV vd (BitVec.ofNat 2048 v)
  | .store _ => c
  | .add rd _ | .swap rd _ | .cas rd _ _ => c.setS rd (BitVec.ofNat 64 v)

/-- What a GAMO stores, if it stores (05 R181). -/
def gamoStore (k : GKind) (v : Nat) : Option Nat :=
  match k with
  | .add _ x => some ((v + x.toNat) % 2 ^ 64)
  | .swap _ x => some x.toNat
  | .cas _ old x => if v = old.toNat then some x.toNat else none
  | _ => none

/-- Access `i` may be performed (R197 to R199): an ordinary store after every earlier store, a GST64.RX after every earlier GST64.RX, a load or GAMO
after the earlier stores of its lines. A store that a freeze discarded never is. -/
def accessInOrder (c : Core) (i : Nat) (a : GAccess) : Bool :=
  let before := (c.access.take i).filter fun b => b.kind.isStore
  !a.lost && (if a.kind.isStore then (if a.relaxed then !(before.any fun b => b.relaxed) else before.isEmpty)
    else before.all fun b => (a.lines a.kind.bytes).all fun l => !((b.lines b.kind.bytes).contains l))

/-- The core's waits are looked at again after an access is done (R192, R195, R199). -/
def accessWake (s : State) (id : Fin 256) : State :=
  let s1 := wakeCore s id
  let c := s1.core id
  if c.access.isEmpty then
    c.waits.foldl (fun t w => match w with
      | .rel rd n =>
        let r := release t id n false
        endWait r.1 id (.rel rd n) rd r.2
      | _ => t) s1
  else s1

/-- Removes access `i`, and the D2H request that it waited on. -/
def dropAccess (s : State) (id : Fin 256) (i : Nat) (a : GAccess) : State :=
  let c := s.core id
  let mine (d : D2h) : Bool := d.w.isNone && decide (d.core = id) && decide (d.line.toNat = a.pa.toNat / 64)
  let k := s.cxl.d2h.findIdx? mine
  let s1 := s.setCore id { c with access := dropAt c.access i }
  match k with
  | some k => if a.host then { s1 with cxl := { s1.cxl with d2h := dropAt s1.cxl.d2h k } } else s1
  | none => s1

/-- An access is answered with an error (R210, 09 R386): a load or GAMO halts its core with GLOBAL_ERR; a store's error raises nothing in the
core (R200). -/
def accessError (s : State) (id : Fin 256) (i : Nat) (a : GAccess) (corr : Nat := 0) : State :=
  let s1 := dropAccess s id i a
  if a.kind.isStore then accessWake s1 id else haltLate s1 id 0x09 a.pc corr

/-- A write of a core to the host that carries bytes of this store has not received GO, or waits (R197). -/
def storePending (s : State) (id : Fin 256) (a : GAccess) : Bool :=
  let mine (w : HeldWrite) : Bool := decide (w.master.toNat < 16) && decide (w.core.toNat = id.val) && !w.peer &&
    (a.lines a.kind.bytes).contains (lineOf true w.addr.toNat)
  a.host && (s.cxl.d2h.any (fun d => match d.w with | some w => mine w | none => false) || s.cxl.wq.any mine)

/-- A store has been handed on: it is done once it is visible, and until then its core keeps it (R197, R199). The D2H request for its line has
ended. -/
def storeSent (s : State) (id : Fin 256) (i : Nat) (a : GAccess) (before : State) : State :=
  let s1 := dropAccess s id i a
  if storePending s id a && !(storePending before id a) then
    let c := s1.core id
    s1.setCore id { c with access := c.access.take i ++ { a with sent := true } :: c.access.drop i }
  else accessWake s1 id

/-- The stores of a core that have become visible are done. -/
def storesSeen (s : State) (id : Fin 256) : State :=
  let c := s.core id
  let seen (a : GAccess) : Bool := a.sent && !a.lost && !(storePending s id a)
  if c.access.any seen then accessWake (s.setCore id { c with access := c.access.filter fun a => !(seen a) }) id else s

/-- A host GAMO (R196): performed in the device cache, which owns the line. -/
def hostGamo (s : State) (cl : Fin 16) (a : GAccess) (res : HostAnswer) : State × Nat × Bool :=
  let l := lineOf true a.pa.toNat
  let off := a.pa.toNat % 64
  let r := ownHost (clearRetry s l (fin 58 cl.val)) l res
  let v := r.2.1.toNat / 2 ^ (8 * off) % 2 ^ 64
  let bad := r.2.2.getLsbD (off / 32)
  match (if bad then none else gamoStore a.kind v) with
  | some x =>
    let mask : BitVec 64 := BitVec.ofNat 64 (255 * 2 ^ off)
    (homeStore r.1 l (mergeLine r.2.1 (BitVec.ofNat 512 (x * 2 ^ (8 * off))) mask) (mergePoison r.2.2 0 mask), v, bad)
  | none => (r.1, v, bad)

/-- A device GAMO (R196): performed in the cluster cache, or at home where it does not take the line. -/
def deviceGamo (s : State) (cl : Fin 16) (id : Fin 256) (a : GAccess) (res : HostAnswer) : State × Nat × Bool :=
  let l := lineOf false a.pa.toNat
  let r := accessRead (if ccTakes s cl l || (ccHit s cl l).isSome then coreOwn s cl l res else s) cl a res
  match (if r.2.2 then none else gamoStore a.kind r.2.1) with
  | some v => (accessWrite r.1 cl id a v res, r.2.1, r.2.2)
  | none => r

/-- What a load or GAMO reads, and whether a granule it touches is poisoned. -/
def accessValue (s : State) (cl : Fin 16) (id : Fin 256) (a : GAccess) (res : HostAnswer) : State × Nat × Bool :=
  if a.kind.writes = false then accessRead s cl a res
  else if a.host then hostGamo s cl a res
  else deviceGamo s cl id a res

/-- Access `i` of a core completes (R195): it waits for what stands in its way first (08 R323, R341). A store that goes out to the host completes
when it is visible. -/
def accessDone (s : State) (id : Fin 256) (i : Nat) (res : HostAnswer) : State :=
  let c := s.core id
  match c.access[i]? with
  | none => s
  | some a =>
    let cl := clusterOf id
    let ls := a.lines a.kind.bytes
    let gamo := a.kind.writes && !a.kind.isStore
    if a.sent = true ∨ accessInOrder c i a = false then s
    else if a.host ∧ (res.error = true ∨ (s.cxl.disCache = true ∧ gamo = true)) then accessError s id i a
    else if (ls.all fun l => lineReady s cl l a.kind.writes gamo) = false then
      ls.foldl (fun t l => if lineReady t cl l a.kind.writes gamo then t else lineAsk t cl id l a.kind.writes gamo) s
    else if a.kind.isStore then storeSent (accessWrite s cl id a a.data.toNat res) id i a s
    else
      let r := accessValue s cl id a res
      let s1 := dropAccess r.1 id i a
      if r.2.2 then haltLate s1 id 0x05 a.pc
      else accessWake (s1.setCore id (accessResult (s1.core id) a.kind r.2.1)) id

/-- GLOBAL_ACCESS_COMPLETE (05 R195). In the safe state the cluster clocks stand still (12 R520). -/
def execGlobalAccessComplete (core : Fin 256) (i : Nat) (res : HostAnswer) (s : State) : Res :=
  .next (if stopped s then s else accessDone s core i res)

/-! ## Fills (08 R324, R350) -/

/-- The accesses of a core to a line are performed, oldest first, as far as they may be. A fill answers those that were merged into its register. -/
def lineAccesses (s : State) (id : Fin 256) (l : Line) (res : HostAnswer) : State :=
  ((List.range (s.core id).access.length).foldl (fun (r : State × Nat) _ =>
    match ((r.1.core id).access)[r.2]? with
    | some a =>
      let t := if (a.lines a.kind.bytes).contains l then accessDone r.1 id r.2 res else r.1
      (t, if (t.core id).access.length < (r.1.core id).access.length then r.2 else r.2 + 1)
    | none => r) (s, 0)).1

/-- A grant reaches a cluster cache and answers the merged requests in arrival order (08 R324). Where the cache was disabled meanwhile, they are
answered with the data, and nothing is kept (R350). The fill waits for its victim's way. -/
def clusterFillAll (s : State) (cl : Fin 16) (l : Line) (way : Nat) : State :=
  match (s.cl cl).cc.misses.find? fun m => decide (m.line = l) with
  | none => s
  | some m =>
    match m.grant with
    | none => s
    | some g =>
      if ccWayReady s cl l way then
        let s1 := answerMerged (clusterFill s cl l way g) m g.data g.poison
        m.merged.foldl (fun t r => match r.2 with
          | some id => lineAccesses t id l ⟨g.data.setWidth 2048, decide (g.poison ≠ 0), false⟩
          | none => t) s1
      else match ccVictim s cl l way with
        | some v => if lineBusy s v then s else startBi s v true []
        | none => s

/-- A fill reaches a cache (08 R324). -/
def fillCache (s : State) (cache : CacheId) (line : Line) (way : Fin 16) (res : HostAnswer) : State :=
  match cache with
  | .cluster cl => clusterFillAll s cl line way.val
  | .slice n => sliceFill s n line way.val res

end Sys2Proof.Machine
end

