-- ==== Sys2Proof/Machine/Sense.lean ====
section
/-! DEFINITION. Reporting of wiring faults: onsets on the module's connections (14 R595, R596). -/

namespace Sys2Proof.Machine

/-- Condition codes of R595. -/
def condOpen : Nat := 0

def condShort : Nat := 1

def condLineShort : Nat := 2

def condReversed : Nat := 3

def condRange : Nat := 4

def condWet : Nat := 5

def condStuck : Nat := 6

def condReadback : Nat := 7

/-- Key of a condition on a connection. -/
def condKey (conn cond : Nat) : Nat := 16 * conn + cond

/-- The onset of a condition (R595): MB_FAULT and MB_LAST, and while the main rails are on and `report` holds the SENSOR_FAULT source; a
condition that is still present reports nothing new. -/
def onset (s : State) (conn cond : Nat) (report : Bool) : State :=
  let k := condKey conn cond
  if s.mod.present.contains k then s
  else
    let m := { s.mod with present := k :: s.mod.present, mbFault := s.mod.mbFault ||| one32 conn
                          mbLast := BitVec.ofNat 32 (conn + cond * 2 ^ 8) }
    let s1 := { s with mod := m }
    if report && s.mod.mainOn then raiseErr s1 .al 7 (conn + cond * 2 ^ 8) else s1

/-- A connection reads normal again (R595; the 1 s of it is not kept: assumption 23). -/
def normal (s : State) (conn : Nat) : State :=
  { s with mod := { s.mod with present := s.mod.present.filter fun k => !(decide (k / 16 = conn)) } }

/-- One condition of a connection has ended. -/
def condEnds (s : State) (conn cond : Nat) : State :=
  { s with mod := { s.mod with present := s.mod.present.filter fun k => !(decide (k = condKey conn cond)) } }

/-- An enabled port's cage is empty (R587, R616). -/
def cageCheck (s : State) (n : Fin 8) : State :=
  if enabled s (.xl n) && !(s.mod.cages.getLsbD n.val) then onset s (16 + n.val) condOpen true else normal s (16 + n.val)

end Sys2Proof.Machine
end

