-- ==== Sys2Proof/Machine/Crossing.lean ====
section
/-! DEFINITION. The crossing ports: bring-up, control words, bundles received and sent, slots, replay, forwarding (10 R409 to R468). -/

namespace Sys2Proof.Machine

/-! ## Measurements (R445) -/

/-- Sends one PROBE and stamps it; T4 - T1 is taken modulo the step in which it is stamped, or modulo 2^26 tk while there is none. -/
def sendProbe (s : State) (n : Fin 8) : State :=
  let p := s.port n
  let m := if s.tide.adopted = true ∧ 0 < s.tide.len.toNat then s.tide.len.toNat * 64 else 2 ^ 32
  let p1 := { p with probeAt := some (p.probeId, BitVec.ofNat 32 (phase64 s), BitVec.ofNat 64 m), probeId := p.probeId + 1 }
  sendWord (s.setPort n p1) n (ctrlWord 6 (p.probeId.toNat * 2 ^ 4))

/-- A measurement of 16 probes begins, unless one runs. -/
def startMeasure (s : State) (n : Fin 8) : State :=
  if (s.port n).probeAt.isSome then s
  else sendProbe (s.setPort n { s.port n with rtts := [], rttSteps := 0 }) n

/-- Insertion into a list sorted upwards. -/
def insertUp (x : Nat) : List Nat → List Nat
  | [] => [x]
  | y :: l => if x ≤ y then x :: y :: l else y :: insertUp x l

/-- The median of 16 numbers: the lower of the two in the middle (assumption 14). -/
def median16 (l : List Nat) : Nat := nth (l.foldr insertUp []) 7 0

/-- A periodic measurement is due (R445). One that still runs has lost a word, since words are not sent again, and begins anew. -/
def measureDue (s : State) (n : Fin 8) : State := sendProbe (s.setPort n { s.port n with rtts := [], rttSteps := 0, probeAt := none }) n

/-- The round trip is known (R445, 02 R48): XL_RTT, TD_DELAY where this port is the tide source, and a PROBE action ends. -/
def endMeasure (s : State) (n : Fin 8) : State :=
  let p := s.port n
  let m := min (median16 (p.rtts.map BitVec.toNat)) (2 ^ 24 - 1)
  let s1 := setPreg (s.setPort n { p with rtts := [], probeAt := none }) (.xl n) 0x118 (BitVec.ofNat 32 m)
  let c := preg s1 .td 0x100
  let s2 := when (decide (fld c 1 4 = n.val + 1) && !(bit c 6)) (fun t => setPreg t .td 0x108 (BitVec.ofNat 32 (m / 2))) s1
  when (bit (preg s2 (.xl n) 0x100) 9) (fun t => goDone t (.xl n) 0x100 9) s2

/-- The ECHO of the probe outstanding arrives. -/
def echoIn (s : State) (n : Fin 8) (word : BitVec 128) (t4 : Nat) : State :=
  let p := s.port n
  match p.probeAt with
  | some (pid, t1, m) =>
    if fld word 4 8 ≠ pid.toNat then s
    else
      let d : Int := ((t4 : Int) - (t1.toNat : Int)) % (m.toNat : Int) - (fld word 12 32 : Int)
      let s1 := s.setPort n { p with rtts := p.rtts ++ [BitVec.ofNat 32 d.toNat] }
      if 16 ≤ p.rtts.length + 1 then endMeasure s1 n else sendProbe s1 n
  | none => s

/-- ECHO (10 R445). -/
def execEcho (port : Fin 8) (word : BitVec 128) (at64 : BitVec 32) (s : State) : Res :=
  .next (if fld word 0 4 = 7 then echoIn s port word at64.toNat else s)

/-- PROBE_WORD (10 R445): the far end answers with the time it held the probe. -/
def execProbeWord (port : Fin 8) (word : BitVec 128) (hold64 : BitVec 32) (s : State) : Res :=
  .next (match (s.port port).st with
    | .ident | .probe | .up =>
      if fld word 0 4 = 6 then sendWord s port (ctrlWord 7 (fld word 4 8 * 2 ^ 4 + hold64.toNat * 2 ^ 12)) else s
    | _ => s)

/-! ## Bring-up (R413 to R420) -/

/-- A port may run bring-up: CTRL.ENABLE, and not fenced. -/
def portMayRun (s : State) (n : Fin 8) : Bool := enabled s (.xl n) && !(fenced s (.xl n))

/-- What the lanes show (R413, R450); `trained` when TRAIN has found polarity and order. -/
def laneStat (s : State) (n : Fin 8) (i : LaneInfo) (trained : Bool) : State :=
  let old := preg s (.xl n) 0x108
  let low := if trained then i.good.toNat + i.inverted.toNat * 2 ^ 4 + i.map.toNat * 2 ^ 8 else fld old 0 16
  let s1 := setPreg s (.xl n) 0x108
    (BitVec.ofNat 32 (low + i.txOpen.toNat * 2 ^ 16 + i.txShort.toNat * 2 ^ 20 + i.los.toNat * 2 ^ 24))
  let bad := i.txOpen ||| i.txShort ||| i.los
  let s2 := match lowest bad with
    | some l => raiseErr s1 (.xl n) 0 l
    | none => s1
  if trained = false then s2
  else if i.inverted ≠ 0 then raiseErr s2 (.xl n) 1 ((lowest i.inverted).getD 0)
  else if i.map ≠ 0xE4 then raiseErr s2 (.xl n) 1 (((List.range 4).find? fun k => decide (fld i.map (2 * k) 2 ≠ k)).getD 0)
  else s2

/-- Lanes that passed training and carry no fault (R413, R414). -/
def lanesGood (i : LaneInfo) : BitVec 4 := i.good &&& ~~~(i.txOpen ||| i.txShort ||| i.los)

/-- The width the lanes allow: 2 four lanes, 1 two lanes, 0 none (R414). -/
def widthOf (i : LaneInfo) : Nat := if lanesGood i = 0xF then 2 else if 2 ≤ popc (lanesGood i) then 1 else 0

/-- TRAIN starts; it clears a fence that RETRAIN set (R417). -/
def enterTrain (s : State) (n : Fin 8) : State := setPortState s n .train

/-- IDENT starts: the words are sent, and nothing is known of the peer yet (R416, R420). -/
def enterIdent (s : State) (n : Fin 8) (w : Nat) : State :=
  let s1 := s.setPort n { s.port n with width := BitVec.ofNat 2 w, ident0 := false, ident1 := false }
  let s2 := setPreg (setPortState s1 n .ident) (.xl n) 0x10C 0
  (identWords s2 n).foldl (fun t x => sendWord t n x) s2

/-- UP (R416, R427, R430, R440): credits from the peer's split, counts 0, windows empty. -/
def enterUp (s : State) (n : Fin 8) : State :=
  let p := s.port n
  let p1 := { p with credits := p.split, creditSeen := Vector.replicate 3 0, freed := Vector.replicate 3 0, inUse := Vector.replicate 3 0
                     replayBuf := [], acked := 0, accepted := 0, discard := false, nakAt := 0, nakRun := 0, win := [], seqNext := []
                     rttSteps := 0, eqSteps := 0 }
  wakeSenders (setPortState (s.setPort n p1) n .up)

/-- A stage completes (R416). It cannot while what the stage works for is missing (assumption 9): a signal, two lanes, the peer's IDENT words
without a conflict, the round trip. -/
def stageDone (s : State) (n : Fin 8) (i : LaneInfo) : State :=
  if portMayRun s n = false then s
  else match (s.port n).st with
    | .detect => if i.los = 0xF then s else enterTrain (laneStat s n i false) n
    | .train =>
      if widthOf i = 0 then s
      else
        let s1 := laneStat s n i true
        let s2 := if widthOf i = 1 then raiseErr s1 (.xl n) 2 else s1
        enterIdent s2 n (widthOf i)
    | .ident =>
      if (s.port n).ident0 && (s.port n).ident1 && !(bit (preg s (.xl n) 0x10C) 17) then
        startMeasure (setPortState s n .probe) n
      else s
    | .probe => if (s.port n).probeAt.isSome then s else enterUp s n
    | _ => s

/-- XL_STAGE_COMPLETE (10 R416). -/
def execXlStageComplete (port : Fin 8) (lanes : LaneInfo) (s : State) : Res := .next (stageDone s port lanes)

/-- XL_STAGE_TIMEOUT (10 R416): FAILED. -/
def execXlStageTimeout (port : Fin 8) (lanes : LaneInfo) (s : State) : Res :=
  .next (if portMayRun s port = false then s
    else
      let fail (t : State) : State :=
        setPortState (t.setPort port { t.port port with probeAt := none, rtts := [], width := 0 }) port .failed
      match (s.port port).st with
      | .detect => fail (laneStat s port lanes false)
      | .train => fail (laneStat s port lanes true)
      | .ident => fail s
      | .probe => fail s
      | _ => s)

/-- XL_RESTART (10 R416): after FAILED, while ENABLE stays 1. -/
def execXlRestart (port : Fin 8) (s : State) : Res :=
  .next (if portMayRun s port = true ∧ (s.port port).st = .failed then setPortState s port .detect else s)

/-- CTRL.ENABLE of a port changed (R416, R450): bring-up starts, or DOWN is sent and the traffic dropped. -/
def xlEnableAct (s : State) (n : Fin 8) (on : Bool) : State :=
  if on then (if fenced s (.xl n) then cageCheck s n else setPortState (cageCheck s n) n .detect)
  else
    let s1 := setPortState (dropTraffic s n) n .down
    normal (s1.setPort n { s1.port n with width := 0 }) (16 + n.val)

/-- CTRL.FENCE of a port was cleared: an enabled port starts again. -/
def xlUnfence (s : State) (n : Fin 8) : State := if portMayRun s n then setPortState s n .detect else s

/-- An UP port leaves UP because its peer is gone (R418). -/
def peerDown (s : State) (n : Fin 8) : State :=
  if (s.port n).st = .up then portRestart (raiseErr s (.xl n) 17) n else s

/-- FEC_LOCK_LOSS (10 R418). -/
def execFecLockLoss (port : Fin 8) (s : State) : Res := .next (peerDown s port)

/-- DOWN (10 R418). -/
def execDown (port : Fin 8) (word : BitVec 128) (s : State) : Res := .next (if fld word 0 4 = 12 then peerDown s port else s)

/-- A write of XL_CTRL: RETRAIN, PROBE, WIN_RESET (R417, R445, R440). -/
def xlCtrlWrite (s : State) (n : Fin 8) (v : W32) : State :=
  let w := pageWrite s (.xl n) 0x100 v
  let s1 := if w.started 8 then
      let t := w.st
      goDone (if (t.port n).st = .up then setPortState (dropTraffic t n) n .train else t) (.xl n) 0x100 8
    else w.st
  let s2 := if w.started 9 then (if (s1.port n).st = .up then startMeasure s1 n else goDone s1 (.xl n) 0x100 9) else s1
  if w.started 10 then goDone (s2.setPort n { s2.port n with win := [] }) (.xl n) 0x100 10 else s2

/-- RETRAIN (10 R417). -/
def execRetrain (port : Fin 8) (v : W32) (s : State) : Res := .next (xlCtrlWrite s port v)

/-- PROBE (10 R445). -/
def execProbe (port : Fin 8) (v : W32) (s : State) : Res := .next (xlCtrlWrite s port v)

/-- XL_WIN_RESET (10 R440). -/
def execXlWinReset (port : Fin 8) (v : W32) (s : State) : Res := .next (xlCtrlWrite s port v)

/-! ## Control words (R419, R420, R427, R428, R437 to R439, R446) -/

/-- IDENT0: the peer's fleet ID, port and split. In UP another fleet ID makes the port restart. -/
def ident0In (s : State) (n : Fin 8) (w : BitVec 128) : State :=
  let p := s.port n
  let fleet := fld w 4 8
  match p.st with
  | .ident =>
    let clash := decide (fleet = fleetId s)
    let peer := fleet + fld w 12 3 * 2 ^ 8 + 2 ^ 16 + b2n clash * 2 ^ 17
    let split : Vector Nat 3 := #v[fld w 15 6, fld w 21 6, fld w 27 6]
    let was := bit (preg s (.xl n) 0x10C) 17
    let s1 := setPreg (s.setPort n { p with ident0 := true, split := split }) (.xl n) 0x10C (BitVec.ofNat 32 peer)
    if clash && !was then raiseErr s1 (.xl n) 12 fleet else s1
  | .up => if fleet = fld (preg s (.xl n) 0x10C) 0 8 then s else portRestart s n
  | _ => s

/-- IDENT0 (10 R420). -/
def execIdent0 (port : Fin 8) (word : BitVec 128) (s : State) : Res := .next (if fld word 0 4 = 9 then ident0In s port word else s)

/-- IDENT1: the peer's serial. -/
def ident1In (s : State) (n : Fin 8) (w : BitVec 128) : State :=
  let serial := fld w 4 64
  match (s.port n).st with
  | .ident => setPreg64 (s.setPort n { s.port n with ident1 := true }) (.xl n) 0x110 serial
  | .up => if serial = preg64 s (.xl n) 0x110 then s else portRestart s n
  | _ => s

/-- IDENT1 (10 R420). -/
def execIdent1 (port : Fin 8) (word : BitVec 128) (s : State) : Res := .next (if fld word 0 4 = 10 then ident1In s port word else s)

/-- CREDIT: each pool's freed count; more credits than the peer's split are clamped (R427, R428). -/
def creditIn (s : State) (n : Fin 8) (w : BitVec 128) : State :=
  let p := s.port n
  let now : Fin 3 → Byte := fun k => BitVec.ofNat 8 (fld w (8 + 8 * k.val) 8)
  let sum : Fin 3 → Nat := fun k => p.credits.get k + (now k - p.creditSeen.get k).toNat
  let tooMany := (List.finRange 3).any fun k => decide (p.split.get k < sum k)
  let p1 := { p with creditSeen := Vector.ofFn now, credits := Vector.ofFn fun k => min (sum k) (p.split.get k) }
  let s1 := s.setPort n p1
  wakeSenders (if tooMany then raiseErr s1 (.xl n) 16 else s1)

/-- CREDIT (10 R427). -/
def execCredit (port : Fin 8) (word : BitVec 128) (s : State) : Res :=
  .next (if fld word 0 4 = 1 ∧ (s.port port).st = .up then creditIn s port word else s)

/-- The units up to a count are acknowledged and leave the replay buffer (R437). -/
def ackTo (s : State) (n : Fin 8) (count : W16) : State :=
  let p := s.port n
  let k := (count - p.acked).toNat
  if k ≤ p.replayBuf.length then s.setPort n { p with replayBuf := p.replayBuf.drop k, acked := count } else s

/-- ACK (10 R437). -/
def execAck (port : Fin 8) (word : BitVec 128) (s : State) : Res :=
  .next (if fld word 0 4 = 2 ∧ (s.port port).st = .up then ackTo s port (BitVec.ofNat 16 (fld word 16 16)) else s)

/-- Puts a reliable unit on the link. -/
def emitUnit (s : State) (n : Fin 8) : RUnit → State
  | .bundle b => emit s (.bundle n (headerCell b) (dirCells b.msgs) b.payload)
  | .word w => emit s (.ctrlWord n w)

/-- NAK: an episode begins or goes on, REPLAY is sent and everything after the count again (R438, R460); XL_REPLAY_LIMIT in a row at one count
set REPLAY_LIMIT (R439). -/
def nakIn (s : State) (n : Fin 8) (count : W16) : State :=
  let s1 := ackTo (beginEpisode s (.port n)) n count
  let p := s1.port n
  let run := if p.nakRun ≠ 0 ∧ p.nakAt = count then satAdd p.nakRun 1 else 1
  let s2 := cntPreg (s1.setPort n { p with nakAt := count, nakRun := run }) (.xl n) 0x18C 1
  let s3 := raiseErr s2 (.xl n) 5
  let s4 := if run.toNat = fld (preg s3 (.xl n) 0x130) 0 8 then raiseErr s3 (.xl n) 6 else s3
  (s4.port n).replayBuf.foldl (fun t u => emitUnit t n u) (sendWord s4 n (replayWord count))

/-- NAK (10 R438). -/
def execNak (port : Fin 8) (word : BitVec 128) (s : State) : Res :=
  .next (if fld word 0 4 = 3 ∧ (s.port port).st = .up then nakIn s port (BitVec.ofNat 16 (fld word 16 16)) else s)

/-- A reliable unit is accepted, or dropped as a duplicate: counted and acknowledged (R437). -/
def acceptUnit (s : State) (n : Fin 8) : State :=
  let p := s.port n
  let p1 := { p with accepted := p.accepted + 1 }
  sendWord (s.setPort n p1) n (ackWord p1)

/-- A reliable word of a type is taken in: the port is UP and does not discard (R438). -/
def takesWord (s : State) (n : Fin 8) (w : BitVec 128) (typ : Nat) : Bool :=
  decide (fld w 0 4 = typ) && decide ((s.port n).st = .up) && !(s.port n).discard

/-- FARE (10 R419): to its core, or on along the route (R467). -/
def execFare (port : Fin 8) (word : BitVec 128) (s : State) : Res :=
  .next (if takesWord s port word 4 then
      routeFare (acceptUnit s port) port none ⟨BitVec.ofNat 16 (fld word 8 16), BitVec.ofNat 4 (fld word 24 4), BitVec.ofNat 4 (fld word 28 4)⟩
    else s)

/-- An ABORT is received (R446, 12 R519, R543). -/
def abortIn (s : State) (n : Fin 8) (w : BitVec 128) : State :=
  let origin : Byte := BitVec.ofNat 8 (fld w 4 8)
  let step : W32 := BitVec.ofNat 32 (fld w 12 32)
  let cause : Byte := BitVec.ofNat 8 (fld w 44 8)
  let s1 := raiseErr (acceptUnit s n) (.xl n) 15 origin.toNat
  let s2 := setPreg s1 .fc 0x184 (BitVec.ofNat 32 (origin.toNat + cause.toNat * 2 ^ 8 + step.toNat % 2 ^ 16 * 2 ^ 16))
  let s3 := if s2.fc.abortIds.contains (origin, step) then s2 else sendAbort s2 origin step cause (some n)
  if bit (preg s3 .fc 0x100) 3 && !s3.fc.safe then { s3 with tide := { s3.tide with haltDue := true } } else s3

/-- ABORT (10 R446). -/
def execAbort (port : Fin 8) (word : BitVec 128) (s : State) : Res := .next (if takesWord s port word 8 then abortIn s port word else s)

/-- REPLAY (10 R438): the stream starts again at the receiver's count. -/
def execReplay (port : Fin 8) (word : BitVec 128) (s : State) : Res :=
  .next (if fld word 0 4 = 11 ∧ (s.port port).st = .up ∧ fld word 4 16 = (s.port port).accepted.toNat then
      s.setPort port { s.port port with discard := false }
    else s)

/-- RESERVED_WORD (10 R419). -/
def execReservedWord (port : Fin 8) (word : BitVec 128) (s : State) : Res :=
  .next (if 13 ≤ fld word 0 4 ∧ (s.port port).st = .up then raiseErr s (.xl port) 4 else s)

/-! ## Bundles received (R421 to R423, R436 to R443) -/

/-- The header's fields. -/
structure Header where
  svc    : Bool
  vc     : Bool
  timed  : Bool
  late   : Bool
  resync : Bool
  src    : Byte
  dst    : Byte
  seq    : W16
  hops   : Nat
  nmsg   : Nat
  pcells : Nat
  dl     : W16 × BitVec 26

def headerOf (h : BitVec 512) : Header :=
  ⟨bit h 0, bit h 1, bit h 2, bit h 3, bit h 4, BitVec.ofNat 8 (fld h 8 8), BitVec.ofNat 8 (fld h 16 8), BitVec.ofNat 16 (fld h 24 16),
    fld h 40 4, fld h 44 4 + 1, fld h 48 11, (BitVec.ofNat 16 (fld h 64 16), BitVec.ofNat 26 (fld h 80 26))⟩

/-- A reserved header encoding (R422, R438): a reserved bit set, PCELLS outside 1 to 1,024 or not the cells that came, an SVC bundle on VC 1 or with
NMSG not 0. -/
def headerReserved (h : Header) (b : XlBundle) : Bool :=
  decide (h.pcells = 0) || decide (1024 < h.pcells) || decide (b.payload.length ≠ h.pcells) || (h.svc && (h.vc || decide (h.nmsg ≠ 1)))
    || decide (fld b.header 5 3 ≠ 0) || decide (fld b.header 59 5 ≠ 0) || decide (fld b.header 106 22 ≠ 0) || decide (fld b.header 160 320 ≠ 0)

/-- HCRC and PCRC hold (R422). -/
def crcGood (h : Header) (b : XlBundle) : Bool :=
  decide (fld b.header 480 32 = (headerCrc h.svc b.header b.dir).toNat) && decide (fld b.header 128 32 = (crc32Cells b.payload).toNat)

/-- Bytes of payload cells from a cell on. -/
def cellBytes (cells : List (BitVec 512)) (first n : Nat) : List Byte :=
  ((cells.drop first).flatMap fun c => bvBytes 64 c).take n

/-- The messages of a DATA bundle, in directory order (R423). -/
def bundleMsgs (h : Header) (b : XlBundle) : List BMsg :=
  ((List.range h.nmsg).foldl (fun (a : List BMsg × Nat) i =>
    let e : BitVec 128 := b.dir.extractLsb' (128 * i) 128
    let len := fld e 48 13
    let m : BMsg := { core := BitVec.ofNat 8 (fld e 0 8), berth := BitVec.ofNat 4 (fld e 8 4), chan := BitVec.ofNat 4 (fld e 12 4)
                      src := BitVec.ofNat 16 (fld e 16 16), epoch := BitVec.ofNat 4 (fld e 32 4), evtEn := bit e 36
                      evt := BitVec.ofNat 5 (fld e 37 5), len := BitVec.ofNat 13 len, tag := BitVec.ofNat 32 (fld e 96 32)
                      data := cellBytes b.payload a.2 len }
    (a.1 ++ [m], a.2 + cellsOf len)) ([], 0)).1

/-- A message of a bundle enters the mesh (R442). -/
def meshOf (n : Fin 8) (late : Option (BitVec 5)) (m : BMsg) : MeshMsg :=
  { dst := fin 256 m.core.toNat, berth := fin 16 m.berth.toNat, src := m.src, chan := m.chan, epoch := m.epoch, len := m.len, tag := m.tag
    evtEn := m.evtEn, evt := m.evt, data := m.data, via := some n, lateEvt := late, filling := false }

/-- LATE at a port: counted and reported, with the bundle's own tag if it has one (R436, 12 R532). -/
def markLate (s : State) (n : Fin 8) (fleet seq corr : Nat) : State :=
  raiseErrX (cntPreg s (.xl n) 0x19C 1) (.xl n) 7 (bundleAddr fleet seq) corr false false

/-- Line of the firmware region (01 R17). -/
def fwLine (k : Nat) : Line := ⟨false, BitVec.ofNat 46 (4592 * 2 ^ 20 + k % 2 ^ 24)⟩

/-- The port writes the payload of an SVC bundle into the firmware region, whole lines through its own master (R424). Where, the firmware knows
(assumption 55). -/
def svcStore (s : State) (n : Fin 8) (cells : List (BitVec 512)) : State :=
  let f := takeFresh s
  cells.zipIdx.foldl (fun t x => serveWrinv t (fin 58 (34 + n.val)) 0 (fwLine (Config.freeSvcLine f.1 + x.2)) x.1 0 false) f.2

/-- A bundle for this device is delivered: its messages enter the mesh, with the event of a LATE one once (R436, R442, R458), or the firmware gets its
payload (R424). -/
def deliverBundle (s : State) (n : Fin 8) (h : Header) (b : XlBundle) (late : Bool) : State :=
  let c := preg s (.xl n) 0x100
  let evt : Option (BitVec 5) := if (late || h.late) && bit c 1 then some (BitVec.ofNat 5 (fld c 2 5)) else none
  if h.svc then svcStore s n b.payload else { s with mesh := s.mesh ++ (bundleMsgs h b).map (meshOf n evt) }

/-- The sequence check (R440): new, duplicate, or outside the window. LATE is met before GAP and OLD_EXEC, whose sources have higher numbers (R436, R457;
03 R91). -/
def seqCheck (s : State) (n : Fin 8) (h : Header) (b : XlBundle) : State :=
  let p := s.port n
  let key := fcKey h.src.toNat h.svc
  let addr := bundleAddr h.src.toNat h.seq.toNat
  let late := h.timed && pastDeadline s h.dl (fld (preg s (.xl n) 0x12C) 0 24)
  let lateIn (t : State) : State := if late then markLate t n h.src.toNat h.seq.toNat 0 else t
  let setH (t : State) : State := t.setPort n { t.port n with win := sset (fun _ => none) (t.port n).win key (some h.seq) }
  match sget (fun _ => none) p.win key with
  | none => deliverBundle (lateIn (setH s)) n h b late
  | some top =>
    let ahead := (h.seq - top).toNat
    let behind := (top - h.seq).toNat
    if 1 ≤ ahead ∧ ahead ≤ 32767 then
      let s1 := lateIn (setH s)
      deliverBundle (if ahead ≠ 1 ∧ h.resync = false then raiseErr (cntPreg s1 (.xl n) 0x198 1) (.xl n) 10 addr else s1) n h b late
    else if behind ≤ 1023 then raiseErr (cntPreg s (.xl n) 0x190 1) (.xl n) 8 addr
    else deliverBundle (raiseErr (cntPreg (lateIn s) (.xl n) 0x194 1) (.xl n) 9 addr) n h b late

/-- A bundle that cannot go on is dropped: its messages count and are logged as lost (R443). -/
def forwardDrop (s : State) (n : Fin 8) (h : Header) (src : Nat) : State :=
  let k := if h.svc then 0 else h.nmsg
  raiseErr (cntPreg (logLost s n h.dst.toNat (b2n h.svc) h.seq.toNat k 3) (.xl n) 0x1A0 k) (.xl n) src (bundleAddr h.dst.toNat h.seq.toNat)

/-- Forwarding (R443): the bundle joins the queue of its next port, and keeps its berth until it is sent on. The answer tells whether it
does. -/
def forward (s : State) (n : Fin 8) (h : Header) (b : XlBundle) : State × Bool :=
  if 15 ≤ h.hops then (forwardDrop s n h 14, false)
  else match routeOf s h.dst.toNat with
    | none => (forwardDrop s n h 13, false)
    | some k =>
      let vc := h.vc || (!h.svc && bit (preg s (.xl k) 0x100) 0)
      let t : TxBundle :=
        { svc := h.svc, vc := vc, deadline := (if h.timed then some h.dl else none), late := h.late, resync := h.resync, src := h.src, dst := h.dst
          seq := h.seq, hops := BitVec.ofNat 4 (h.hops + 1), msgs := (if h.svc then [] else bundleMsgs h b), payload := b.payload
          via := some (n, BitVec.ofNat 2 (poolOf h.svc h.vc).val), corr := BitVec.ofNat 16 (corrOf s (.port k)) }
      (cntPreg (s.setPort k { s.port k with txq := (s.port k).txq ++ [t] }) (.xl n) 0x188 1, true)

/-- A bundle is received (R437 to R443): a bad one, or a bad control cell, is discarded with NAK, and everything after it until REPLAY. -/
def bundleIn (s : State) (n : Fin 8) (b : XlBundle) : State :=
  let p := s.port n
  let h := headerOf b.header
  if p.st ≠ .up ∨ p.discard = true then s
  else if b.fecBad || b.ctrlBad || !(crcGood h b) || headerReserved h b then
    let s1 := if b.fecBad then raiseErr (cntPreg s (.xl n) 0x1A8 1) (.xl n) 3
      else if b.ctrlBad || !(crcGood h b) then raiseErr s (.xl n) 4 else s
    sendWord (s1.setPort n { s1.port n with discard := true }) n (nakWord p)
  else
    let pool := poolOf h.svc h.vc
    let s1 := cntPreg (acceptUnit s n) (.xl n) 0x184 1
    let s2 := s1.setPort n { s1.port n with inUse := (s1.port n).inUse.set pool ((s1.port n).inUse.get pool + 1) }
    if h.dst.toNat = fleetId s then freeBerth (seqCheck s2 n h b) n pool
    else
      let r := forward s2 n h b
      if r.2 then r.1 else freeBerth r.1 n pool

/-- BUNDLE_RECEIVED (10 R440). -/
def execBundleReceived (port : Fin 8) (bundle : XlBundle) (s : State) : Res := .next (bundleIn s port bundle)

/-! ## Packing, slots, sending (R429 to R436, R452 to R455) -/

/-- The hub firmware sends an SVC bundle: its payload is read from the firmware region as it is written there, and the bundle joins its queue with
the next SEQ of its destination and class (R424, R430). -/
def svcSend (s : State) (n : Fin 8) (dst : Byte) (first count : Nat) : State :=
  if (s.port n).st ≠ .up then s
  else
    let r := (List.range count).foldl (fun (a : State × List (BitVec 512)) i =>
      let q := serveRdcur a.1 (fwLine (first + i)) ⟨0, false, false⟩
      (q.1, a.2 ++ [q.2.1])) (s, [])
    let p := r.1.port n
    let key := fcKey dst.toNat true
    let seq := sget (fun _ => 0) p.seqNext key
    let b : TxBundle :=
      { svc := true, vc := false, deadline := none, late := false, resync := sget (fun _ => false) p.resync key
        src := BitVec.ofNat 8 (fleetId s), dst := dst, seq := seq, hops := 0, msgs := [], payload := r.2, via := none
        corr := BitVec.ofNat 16 (corrOf s (.port n)) }
    r.1.setPort n { p with txq := p.txq ++ [b], seqNext := sset (fun _ => 0) p.seqNext key (seq + 1)
                           resync := sset (fun _ => false) p.resync key false }

/-- BUNDLE_CLOSE (10 R430): XL_PACK_WAIT has passed, or the hub firmware's bundle is complete. -/
def execBundleClose (port : Fin 8) (dst : Byte) (svc : Option (BitVec 24 × BitVec 11)) (s : State) : Res :=
  .next (match svc with
    | some (first, count) => svcSend s port dst first.toNat count.toNat
    | none => closeFor s port dst)

/-- A write of XL_SLOT_CTRL: ARM arms the bank switch, and runs until it happens (R432). -/
def xlSlotCtrlWrite (s : State) (n : Fin 8) (v : W32) : State :=
  let w := pageWrite s (.xl n) 0x138 v
  if w.started 0 then w.st.setPort n { w.st.port n with armed := true } else w.st

/-- XL_SLOT_ARM (10 R432). -/
def execXlSlotArm (port : Fin 8) (v : W32) (s : State) : Res := .next (xlSlotCtrlWrite s port v)

/-- The open slot closes (R430, R433): its destination's open bundle closes with it. -/
def closeSlot (s : State) (n : Fin 8) : State :=
  let p := s.port n
  match p.slot with
  | none => s
  | some i =>
    let s1 := match slotEntry s n p.bank i.val with
      | some (_, _, d) => closeFor s n d
      | none => s
    s1.setPort n { s1.port n with slot := none }

/-- An entry opens its slot (R432, R433); of two that overlap the lower index governs, and SLOT_OVERLAP is set once per step (R454). -/
def openSlot (s : State) (n : Fin 8) (i : Fin 32) : State :=
  let p := s.port n
  match slotEntry s n p.bank i.val with
  | none => s
  | some (start, len, d) =>
    let ph := s.tide.phase.toNat
    if s.tide.dispatching = false ∨ ph < start ∨ start + len ≤ ph ∨ p.slot = some i then s
    else
      let lap := p.slot.isSome && !p.overlapSet
      let s1 := if lap then raiseErr (s.setPort n { p with overlapSet := true }) (.xl n) 18 i.val else s
      if (match p.slot with | some j => decide (j.val < i.val) | none => false) then s1
      else
        let s2 := closeFor (closeSlot s1 n) n d
        s2.setPort n { s2.port n with slot := some i }

/-- SLOT_OPEN (10 R433). -/
def execSlotOpen (port : Fin 8) (i : Fin 32) (s : State) : Res := .next (openSlot s port i)

/-- SLOT_CLOSE (10 R433): the end of the entry's range is reached. -/
def execSlotClose (port : Fin 8) (i : Fin 32) (s : State) : Res :=
  .next (if (s.port port).slot ≠ some i then s
    else match slotEntry s port (s.port port).bank i.val with
      | some (start, len, _) => if start + len ≤ s.tide.phase.toNat then closeSlot s port else s
      | none => closeSlot s port)

/-- Destination of the open slot. -/
def slotDst (s : State) (n : Fin 8) : Option Byte :=
  match (s.port n).slot with
  | some i => (slotEntry s n (s.port n).bank i.val).map fun e => e.2.2
  | none => none

/-- Ticks until the next slot of the bank opens, in this step or the next; none if it has no valid entry that a step reaches. -/
def nextSlotIn (s : State) (n : Fin 8) : Option Nat :=
  let ph := s.tide.phase.toNat
  let reached (e : Nat × Nat × Byte) : Bool := decide (e.1 < s.tide.len.toNat)
  let starts := (List.range 32).filterMap fun i => ((slotEntry s n (s.port n).bank i).filter reached).map fun e =>
    if ph < e.1 then e.1 - ph else s.tide.len.toNat + e.1 - ph
  if s.tide.dispatching then starts.min? else none

/-- Cells of a bundle on the link, with the control cell after every 63 (R411, R421). -/
def linkCells (b : TxBundle) : Nat :=
  let c := (if b.svc then 1 else 5) + b.payload.length
  c + c / 63

/-- The heads of a port's queues: the first bundle of each destination (R434). -/
def queueHeads : List Byte → List TxBundle → List TxBundle
  | _, [] => []
  | seen, b :: l => if seen.contains b.dst then queueHeads seen l else b :: queueHeads (b.dst :: seen) l

/-- A bundle holds the credit that it was opened with (R429). -/
def TxBundle.reserved (b : TxBundle) : Bool := b.via.isNone && !b.svc

/-- A head may leave: a credit of the pool it takes at the next hop, which a DATA bundle of this device reserved when it was opened, and room in the
replay buffer (R427, R429, R437). -/
def headReady (s : State) (n : Fin 8) (b : TxBundle) : Bool :=
  let p := s.port n
  (b.reserved || decide (0 < p.credits.get (poolOf b.svc b.vc))) && decide (replayFill p + (RUnit.bundle b).bytes ≤ 262144)

/-- Level of a head (R434, R435): 1 its slot is open, 2 its queue holds a TIMED bundle, 3 fill; none if it may not start now. -/
def headLevel (s : State) (n : Fin 8) (b : TxBundle) : Option Nat :=
  let p := s.port n
  let timedIn := p.txq.any fun x => decide (x.dst = b.dst) && x.deadline.isSome
  match slotDst s n with
  | some d =>
    if d = b.dst then some 1
    else if timedIn && b.deadline.isSome then some 2 else none
  | none =>
    if timedIn then some 2
    else match nextSlotIn s n with
      | none => some 3
      | some t => if linkCells b * (if p.width = 2 then 1 else 2) ≤ 10 * t then some 3 else none

/-- The bundle that the port sends next (R434): the best level, then the destination first after the last served, upwards and wrapping. -/
def nextBundle (s : State) (n : Fin 8) : Option TxBundle :=
  let p := s.port n
  let rank (b : TxBundle) (lv : Nat) : Nat := lv * 256 + (b.dst.toNat + 255 - p.lastDst.toNat) % 256
  let cands := (queueHeads [] p.txq).filterMap fun b => if headReady s n b then (headLevel s n b).map fun lv => (rank b lv, b) else none
  (cands.foldl (fun (a : Option (Nat × TxBundle)) x => match a with
    | none => some x
    | some y => if x.1 < y.1 then some x else some y) none).map fun x => x.2

/-- Removes the first bundle for a destination. -/
def dropHead (d : Byte) : List TxBundle → List TxBundle
  | [] => []
  | b :: l => if b.dst = d then l else b :: dropHead d l

/-- One bundle is sent (R434, R436, R437, R443). -/
def transmit (s : State) (n : Fin 8) : State :=
  if (s.port n).st ≠ .up then s
  else match nextBundle s n with
    | none => s
    | some b =>
      let late := b.via.isNone && !b.late && (match b.deadline with | some dl => pastDeadline s dl 0 | none => false)
      let s1 := if late then markLate s n b.dst.toNat b.seq.toNat b.corr.toNat else s
      let b1 := { b with late := b.late || late }
      let p := s1.port n
      let pool := poolOf b.svc b.vc
      let p1 := { p with txq := dropHead b.dst p.txq, lastDst := b.dst, replayBuf := p.replayBuf ++ [.bundle { b1 with via := none }]
                         credits := (if b.reserved then p.credits else p.credits.set pool (p.credits.get pool - 1)) }
      let s2 := emitUnit (cntPreg (s1.setPort n p1) (.xl n) 0x180 1) n (.bundle b1)
      match b.via with
      | some (k, q) => freeBerth s2 k (fin 3 q.toNat)
      | none => s2

/-- BUNDLE_TRANSMIT (10 R434). -/
def execBundleTransmit (port : Fin 8) (s : State) : Res := .next (transmit s port)

end Sys2Proof.Machine
end

