-- ==== Sys2Proof/Machine/Translation.lean ====
section
/-! DEFINITION. Lookups in the mirrored tables, core mapping slots, and TBL_WRITE's check and commit (07 R282 to R292, R305 to R307). -/

namespace Sys2Proof.Machine

/-! ## Table entries (R285) -/

def leafRights (e : W64) : BitVec 3 := BitVec.ofNat 3 (fld e 1 3)

def leafKind (e : W64) : Nat := fld e 4 2

def leafPa (e : W64) : Nat := fld e 25 39 * 2 ^ 25

/-- Bytes in a page. -/
def pageBytes (big : Bool) : Nat := if big then 2 ^ 30 else 2 ^ 25

/-- A context is enabled (R304). -/
def ctxOn (s : State) (m : Nat) : Bool := enabled s .vt && bit (preg s .vt 0x100) m

/-- The leaf that covers an address, and whether it is of 1 GiB (R285). -/
def leafOf (s : State) (m : Fin 16) (va : Nat) : Option (W64 × Bool) :=
  let c := s.ctxs.get m
  if 2 ^ 48 ≤ va ∨ ctxOn s m.val = false then none
  else match slook c.large (va / 2 ^ 30) with
    | some e => some (e, true)
    | none => (slook c.small (va / 2 ^ 25)).map fun e => (e, false)

/-- How a lookup ends. -/
inductive LookupEnd where
  | ok (x : Xlat)
  | notMapped
  | rights
  deriving DecidableEq, Repr

/-- The first byte of the firmware region (01 R17). -/
def fwBase : Nat := 0x47C0000000

/-- A page of host or peer addresses reaches the device's own BAR0, 64 MiB at the base that configuration software gave it (03 R74). -/
def meetsBar0 (s : State) (pa n : Nat) : Bool :=
  let base := (s.cxl.bars.get 0).toNat / 2 ^ 26 * 2 ^ 26 + (s.cxl.bars.get 1).toNat * 2 ^ 32
  s.cxl.memSpace && decide (base < pa + n) && decide (pa < base + 2 ^ 26)

/-- What the tables say of an address and the rights asked for (R284, R290; 03 R74): `peer` tells whether a PEER page serves; no right may be asked
for (R307). -/
def lookupEnd (s : State) (m : Fin 16) (va : Nat) (rights : BitVec 3) (peer : Bool) : LookupEnd :=
  match leafOf s m va with
  | none => .notMapped
  | some (e, big) =>
    if leafKind e = 0 ∧ fwBase < leafPa e + pageBytes big then .rights
    else if leafKind e ≠ 0 ∧ meetsBar0 s (leafPa e) (pageBytes big) then .rights
    else if leafRights e &&& rights ≠ rights then .rights
    else if leafKind e = 2 ∧ peer = false ∧ rights ≠ 0 then .rights
    else .ok ⟨BitVec.ofNat 48 (va / pageBytes big * pageBytes big), big, BitVec.ofNat 2 (leafKind e), BitVec.ofNat 64 (leafPa e)⟩

/-- ERR_ADDR of a VT source: context and virtual address (R286; packing assumption 18). -/
def vtAddr (m va : Nat) : Nat := va % 2 ^ 48 + m * 2 ^ 48

/-- The entry of an address is among the uncorrectable ones, given by 32 MiB unit (R286). -/
def unitUe (ue : List (BitVec 23)) (va : Nat) : Bool := decide (va < 2 ^ 48) && ue.contains (BitVec.ofNat 23 (va / 2 ^ 25))

/-- A lookup, with its counts and sources (R284, R286, R304). -/
def lookup (s : State) (m : Fin 16) (va : Nat) (rights : BitVec 3) (peer ue : Bool) : State × LookupEnd :=
  let r := if ue then .notMapped else lookupEnd s m va rights peer
  let s1 := cntPreg s .vt 0x120 1
  let s2 := if ue then raiseErr s1 .vt 0 (vtAddr m.val va) else s1
  let fw := !ue && (match leafOf s m va with
    | some (e, big) => decide (leafKind e = 0) && decide (fwBase < leafPa e + pageBytes big)
    | none => false)
  let s3 := if fw then raiseErr s2 .vt 3 (vtAddr m.val va) else s2
  (match r with | .ok _ => s3 | _ => cntPreg s3 .vt 0x124 1, r)

/-- A translation covers an address. -/
def Xlat.covers (x : Xlat) (va : Nat) : Bool := decide (va / pageBytes x.big = x.va.toNat / pageBytes x.big)

/-- The physical address of a virtual one. -/
def Xlat.phys (x : Xlat) (va : Nat) : Nat := x.pa.toNat + va % pageBytes x.big

/-! ## Core mapping slots (R291) -/

/-- A drain of the context is in progress: fills wait (R291). -/
def draining (s : State) (m : Nat) : Bool := s.drains.any fun d => decide (d.ctx.val = m)

/-- The waits of MAP.W on a slot end with 0 OK, 1 NOT_MAPPED, 2 RIGHTS (05 R193). -/
def endMapW (s : State) (id : Fin 256) (slot : Fin 16) (code : Nat) : State :=
  (s.core id).waits.foldl (fun t w => match w with
    | .mapW rd k => if k = slot then endWait t id (.mapW rd k) rd (BitVec.ofNat 64 code) else t
    | _ => t) s

/-- A PENDING slot's fill ends (R291, 05 R193): VALID with the rights asked for and the generation, or FAILED. -/
def mapFill (s : State) (id : Fin 256) (slot : Fin 16) (ue : Bool) : State :=
  let c := s.core id
  let x := c.slots.get slot
  let m := fin 16 (ctxOfPart s (partOf s id))
  if x.st ≠ .pending ∨ draining s m.val = true then s
  else
    let va := x.req.toNat
    let r := lookup s m va x.reqRights false ue
    let put (t : State) (y : MapSlot) : State := t.setCore id { t.core id with slots := (t.core id).slots.set slot y }
    let failed : MapSlot := { mapSlotReset with st := .failed, base := BitVec.ofNat 48 (va / 2 ^ 25 * 2 ^ 25) }
    let q : State × Nat := match r.2 with
      | .ok t => (put r.1 { mapSlotReset with st := .valid, base := t.va, big := t.big, kind := t.kind, pa := t.pa, rights := x.reqRights
                                              gen := (s.ctxs.get m).gen }, 0)
      | .notMapped => (put r.1 failed, 1)
      | .rights => (put r.1 failed, 2)
    wakeCore (endMapW q.1 id slot q.2) id

/-- MAP_FILL_COMPLETE (07 R291). -/
def execMapFillComplete (core : Fin 256) (slot : Fin 16) (ue : Bool) (s : State) : Res :=
  .next (if stopped s then s else mapFill s core slot ue)

/-! ## TBL_WRITE (R287, R288) -/

/-- Level-2 tables in use: one for each context and GiB with a 32 MiB leaf (R285). -/
def l2Used (s : State) : Nat := (s.ctxs.toList.map fun c => ((c.small.map fun e => e.1 / 32).dedup).length).foldl (· + ·) 0

/-- Level-2 tables there are. -/
def l2Pool : Nat := 65536

/-- The leaf entries of a payload. -/
def tblEntries (payload : Nat) (count : Nat) : List W64 := (List.range count).map fun i => BitVec.ofNat 64 (payload / 2 ^ (64 * i))

/-- The tables of a context with consecutive entries put in; V = 0 removes. -/
def tblPut (c : VtCtx) (first : Nat) (big : Bool) (es : List W64) : VtCtx :=
  es.zipIdx.foldl (fun a x =>
    let v := if bit x.1 0 then some x.1 else none
    if big then { a with large := sopt a.large (first + x.2) v } else { a with small := sopt a.small (first + x.2) v }) c

/-- The reason to refuse a TBL_WRITE, none if it is accepted; the order is the model's (assumption 19). -/
def tblReason (s : State) (m : Fin 16) (gen : W32) (va count : Nat) (big : Bool) (es : List W64) : Option Nat :=
  let c := s.ctxs.get m
  let n := pageBytes big
  let valid := es.zipIdx.filter fun x => bit x.1 0
  let pages := es.zipIdx.map fun x => (va / n + x.2, x.1)
  if ctxOn s m.val = false then some 6
  else if gen ≠ c.gen + 1 then some 1
  else if count = 0 ∨ 12 < count then some 0
  else if va % n ≠ 0 then some 3
  else if valid.any fun x => decide (leafKind x.1 = 3) || !(bit x.1 6) || bit x.1 7 || bit x.1 24
      || (decide (leafKind x.1 = 2) && decide (leafRights x.1 ≠ 2)) then some 7
  else if 2 ^ 48 < va + count * n ∨ (valid.any fun x => decide (leafPa x.1 % n ≠ 0) || fld x.1 8 16 ≠ 0
      || (decide (leafKind x.1 = 0) && decide (dmSize < leafPa x.1 + n))) then some 3
  else if valid.any fun x => decide (leafKind x.1 = 0) && decide (fwBase < leafPa x.1 + n) then some 4
  else if pages.any fun p =>
      if big then c.small.any fun e => decide (e.1 / 32 = p.1) else (slook c.large (p.1 / 32)).isSome then some 2
  else if l2Pool < l2Used { s with ctxs := s.ctxs.set m (tblPut c (va / n) big es) } then some 5
  else none

/-- TBL_WRITE: accepted or refused as a whole (R288): the state, whether it is accepted, the generation and the reason to report. -/
def tblCommit (s : State) (m : Fin 16) (gen : W32) (va count : Nat) (big : Bool) (payload : Nat) : State × Bool × W32 × Nat :=
  let es := tblEntries payload count
  let c := s.ctxs.get m
  match tblReason s m gen va count big es with
  | some r =>
    let s1 := if r = 1 then raiseErr s .vt 1 (vtAddr m.val va) else if r = 5 then raiseErr s .vt 4 (vtAddr m.val va) else s
    (s1, false, c.gen, r)
  | none => ({ s with ctxs := s.ctxs.set m { tblPut c (va / pageBytes big) big es with gen := gen } }, true, gen, 0)

end Sys2Proof.Machine
end

