-- ==== Sys2Proof/Machine/Mover.lean ====
section
/-! DEFINITION. Manifests: descriptors, submission, segments, delivery, completion records, PARTIAL, RESUME, ABORT and ABORT_ALL (06 R230 to
R243; 07 R293 to R303, R308 to R313). -/

namespace Sys2Proof.Machine

/-! ## The descriptor (R234) -/

/-- DIMS, ESIZE in bytes, COUNTd and the two strides of a dimension. -/
def mDims (d : BitVec 1024) : Nat := fld d 8 3

def mEsize (d : BitVec 1024) : Nat := 2 ^ fld d 11 3

def mCount (d : BitVec 1024) (k : Nat) : Nat := if k < mDims d then fld d (448 + 24 * k) 24 else 1

def mSstride (d : BitVec 1024) (k : Nat) : Int := if k < mDims d then sgn 40 (fld d (576 + 80 * k) 40) else 0

def mDstride (d : BitVec 1024) (k : Nat) : Int := if k < mDims d then sgn 40 (fld d (576 + 80 * k + 40) 40) else 0

def mCopy (d : BitVec 1024) : Bool := decide (fld d 0 8 = 1)

def mSrc (d : BitVec 1024) : Nat := fld d 64 48

def mDst (d : BitVec 1024) : Nat := fld d 128 48

def mCompl (d : BitVec 1024) : Nat := fld d 192 48

def mFlagEn (d : BitVec 1024) : Bool := bit d 15

def mFlag (d : BitVec 1024) : Nat := fld d 256 48

def mQueue (d : BitVec 1024) : Fin 4 := fin 4 (fld d 30 2)

def mRx (d : BitVec 1024) : Bool := bit d 14

/-- Elements in all. -/
def mTotal (d : BitVec 1024) : Nat := mCount d 0 * mCount d 1 * mCount d 2 * mCount d 3 * mCount d 4

/-- The reserved bits of a descriptor. -/
def mReserved (d : BitVec 1024) : Bool :=
  decide (fld d 49 15 ≠ 0) || decide (fld d 112 16 ≠ 0) || decide (fld d 176 16 ≠ 0) || decide (fld d 240 16 ≠ 0)
    || decide (fld d 304 16 ≠ 0) || decide (fld d 568 8 ≠ 0) || decide (fld d 976 48 ≠ 0)

/-- A descriptor is valid (R234); `okCore` tells which cores lie in the submitter's partition. -/
def descOk (d : BitVec 1024) (okCore : Fin 256 → Bool) : Bool :=
  let e : Int := mEsize d
  (decide (fld d 0 8 = 1) || decide (fld d 0 8 = 2)) && decide (1 ≤ mDims d) && decide (mDims d ≤ 5) && decide (fld d 11 3 ≠ 7)
    && !(mReserved d)
    && ((List.range 5).all fun k => decide (mCount d k ≠ 0) && (decide (mSstride d k % e = 0) || !(mCopy d)) && decide (mDstride d k % e = 0))
    && (decide ((mSrc d : Int) % e = 0) || !(mCopy d)) && decide ((mDst d : Int) % e = 0)
    && decide (mCompl d % 64 = 0) && (!(mFlagEn d) || decide (mFlag d % 8 = 0))
    && (!(bit d 16) || okCore (fin 256 (fld d 22 8)))

/-- Coordinate `k` of element number `i` (R235). -/
def mCoord (d : BitVec 1024) (i k : Nat) : Nat :=
  i / ((List.range k).map (mCount d)).foldl (· * ·) 1 % mCount d k

/-- Source and destination address of element number `i` (R235). -/
def mSrcAt (d : BitVec 1024) (i : Nat) : Int :=
  (List.range 5).foldl (fun a k => a + (mCoord d i k : Int) * mSstride d k) (mSrc d : Int)

def mDstAt (d : BitVec 1024) (i : Nat) : Int :=
  (List.range 5).foldl (fun a k => a + (mCoord d i k : Int) * mDstride d k) (mDst d : Int)

/-- An address formed by strides, as a 64-bit number: one outside the 48-bit space covers no page. -/
def vaNat (a : Int) : Nat := (BitVec.ofInt 64 a).toNat

/-! ## Segments (07 R293, R294) -/

/-- A segment as it is cut: its elements, its pages, and the element and address at which a lookup failed. -/
structure Cut where
  count : Nat
  pages : List (Bool × Xlat)
  fail  : Option (Nat × BitVec 64)

/-- A page of this side covers an address. -/
def pageHit (pages : List (Bool × Xlat)) (dst : Bool) (va : Nat) : Bool := pages.any fun p => decide (p.1 = dst) && p.2.covers va

/-- Translates the page of an address for one side, unless it is already held. -/
def pageAdd (s : State) (m : Fin 16) (pages : List (Bool × Xlat)) (dst : Bool) (va : Nat) (ue : List (BitVec 23)) :
    State × Option (List (Bool × Xlat)) :=
  if pageHit pages dst va then (s, some pages)
  else
    let r := lookup s m va (if dst then 2 else 1) dst (unitUe ue va)
    match r.2 with
    | .ok x => (r.1, some (pages ++ [(dst, x)]))
    | _ => (r.1, none)

/-- The longest run of elements from `i` that touches at most `limit` pages (R294), source page before destination page; it also ends
before an element whose page does not translate. `fuel` bounds the elements left. -/
def cutRun (m : Fin 16) (d : BitVec 1024) (limit : Nat) (ue : List (BitVec 23)) : Nat → Nat → State → Cut → State × Cut
  | 0, _, s, c => (s, c)
  | fuel + 1, i, s, c =>
    let sa := vaNat (mSrcAt d i)
    let da := vaNat (mDstAt d i)
    let newS := mCopy d && !(pageHit c.pages false sa)
    let newD := !(pageHit c.pages true da)
    if limit < c.pages.length + b2n newS + b2n newD then (s, c)
    else
      let r1 := if mCopy d then pageAdd s m c.pages false sa ue else (s, some c.pages)
      match r1.2 with
      | none => (r1.1, { c with fail := some (i, BitVec.ofNat 64 sa) })
      | some p1 =>
        let r2 := pageAdd r1.1 m p1 true da ue
        match r2.2 with
        | none => (r2.1, { c with fail := some (i, BitVec.ofNat 64 da) })
        | some p2 => cutRun m d limit ue fuel (i + 1) r2.1 ⟨c.count + 1, p2, none⟩

/-- The segment that begins at element `i`, of at most `n` elements. -/
def cutFrom (s : State) (m : Fin 16) (d : BitVec 1024) (limit i n : Nat) (ue : List (BitVec 23)) : State × Cut :=
  cutRun m d limit ue (min n (mTotal d - i)) i s ⟨0, [], none⟩

/-- The page an address lies in, mapped or not: its first byte and size; an unmapped one counts as 32 MiB. -/
def pageId (s : State) (m : Fin 16) (va : Nat) : Nat × Bool :=
  match leafOf s m va with
  | some (_, big) => (va / pageBytes big * pageBytes big, big)
  | none => (va / 2 ^ 25 * 2 ^ 25, false)

/-- The elements left touch at most 32 pages, counting source and destination apart (R293). -/
def fits32 (s : State) (m : Fin 16) (d : BitVec 1024) : Nat → Nat → List (Bool × Nat × Bool) → Bool
  | 0, _, _ => true
  | fuel + 1, i, ps =>
    let p1 := if mCopy d then ((false, pageId s m (vaNat (mSrcAt d i))) :: ps).dedup else ps
    let p2 := ((true, pageId s m (vaNat (mDstAt d i))) :: p1).dedup
    if 32 < p2.length then false else fits32 s m d fuel (i + 1) p2

/-- The segment limit, 32 or 16 pages (R293, R308). -/
def segLimit (s : State) (m : Fin 16) (d : BitVec 1024) : Nat := if fits32 s m d (mTotal d) 0 [] then 32 else 16

/-! ## Submission (R232, R296) -/

/-- Completion numbers start at 1, wrap, and skip 0 (R232). -/
def nextNo (n : W32) : W32 := if n + 1 = 0 then 1 else n + 1

/-- How a submission ends. -/
inductive Submitted where
  | ok (no : W32)
  | busy
  | badDesc
  | fault
  deriving DecidableEq, Repr

def State.mover (s : State) (cl : Fin 16) : Mover := (s.cl cl).mover

def State.setMover (s : State) (cl : Fin 16) (x : Mover) : State := s.setCl cl { s.cl cl with mover := x }

/-- A manifest is submitted to a mover (R232): enabled, valid, translated, and a place in its queue. -/
def submit (s : State) (cl : Fin 16) (ctx : Fin 16) (core : Option (Fin 256)) (okCore : Fin 256 → Bool) (d : BitVec 1024)
    (ue : List (BitVec 23)) : State × Submitted :=
  if bit (preg s (.cl cl) 0x200) 0 = false then (s, .busy)
  else if descOk d okCore = false then (s, .badDesc)
  else
    let r1 := lookup s ctx (mCompl d) 2 false (unitUe ue (mCompl d))
    match r1.2 with
    | .ok rx =>
      let r2 : State × Option (Option Xlat) :=
        if mFlagEn d then
          let q := lookup r1.1 ctx (mFlag d) 2 false (unitUe ue (mFlag d))
          (q.1, match q.2 with | .ok x => some (some x) | _ => none)
        else (r1.1, some none)
      match r2.2 with
      | none => (r2.1, .fault)
      | some fx =>
        let limit := segLimit r2.1 ctx d
        let r3 := cutFrom r2.1 ctx d limit 0 (mTotal d) ue
        if r3.2.fail.isSome then (r3.1, .fault)
        else
          let q := mQueue d
          let mv := r3.1.mover cl
          if 32 ≤ (mv.queues.get q).length then (r3.1, .busy)
          else
            let no := nextNo (mv.last.get q)
            let mf : Manifest :=
              { no := no, desc := d, ctx := ctx, core := core, started := false, done := 0, poisoned := 0, recX := rx, flagX := fx
                limit := limit, seg := some ⟨0, r3.2.count, r3.2.pages, false⟩, next := none, nextBusy := false, stopAt := none
                halted := false, ending := none }
            (r3.1.setMover cl { mv with queues := mv.queues.set q (mv.queues.get q ++ [mf]), last := mv.last.set q no }, .ok no)
    | _ => (r1.1, .fault)

/-- HUB_FIRMWARE_SUBMISSION (06 R230): no answer is described. -/
def execHubFirmwareSubmission (cl : Fin 16) (ctx : Fin 16) (desc : BitVec 1024) (ue : List (BitVec 23)) (s : State) : Res :=
  .next (submit s cl ctx none (fun id => decide (ctxOfPart s (partOf s id) = ctx.val)) desc ue).1

/-- A timetable submission refused (R232, R243): CL_MV_REFUSED and its source, with the LDM address and the core in ERR_ADDR. -/
def refuseTimetable (s : State) (cl : Fin 16) (src addr : Nat) (id : Fin 256) : State :=
  raiseErr (cntPreg s (.cl cl) 0x22C 1) (.cl cl) src (addr + id.val * 2 ^ 32)

/-- A timetable MANIFEST entry submits the descriptor at an LDM address (R230, R231, R243). -/
def submitTimetable (s : State) (id : Fin 256) (addr : Nat) (upset : Upset) (ue : List (BitVec 23)) : State :=
  let cl := clusterOf id
  let d : BitVec 1024 := BitVec.ofNat 1024 (bytesNat (readBytes (s.core id).ldm addr 128))
  let s0 := if upset = .corrected then raiseErr s (.gc id) 5 addr else s
  if bit (preg s (.cl cl) 0x200) 0 = false then refuseTimetable s cl 17 addr id
  else if addr % 128 ≠ 0 ∨ ldmSize < addr + 128 then refuseTimetable s cl 16 addr id
  else if upset = .uncorrectable then refuseTimetable (raiseErr s (.gc id) 6 addr) cl 21 addr id
  else
    let part := partOf s id
    let r := submit s0 cl (fin 16 (ctxOfPart s part)) (some id) (fun k => decide (partOf s k = part)) d ue
    match r.2 with
    | .ok _ => r.1
    | .busy => refuseTimetable r.1 cl 17 addr id
    | .badDesc => refuseTimetable r.1 cl 16 addr id
    | .fault => refuseTimetable r.1 cl 18 addr id

/-! ## Manifests in their queues; in the safe state they stand still (12 R520) -/

def mQueueOf (s : State) (cl : Fin 16) (q : Fin 4) : List Manifest := (s.mover cl).queues.get q

def setQueue (s : State) (cl : Fin 16) (q : Fin 4) (l : List Manifest) : State :=
  s.setMover cl { s.mover cl with queues := (s.mover cl).queues.set q l }

/-- Changes the manifest at a place of a queue. -/
def setManifest (s : State) (cl : Fin 16) (q : Fin 4) (i : Nat) (m : Manifest) : State :=
  setQueue s cl q (mapAt (fun _ => m) (mQueueOf s cl q) i)

/-- The manifest of a queue that issues elements now: the first that has some left. -/
def issuing (l : List Manifest) : Option (Nat × Manifest) :=
  (l.zipIdx.find? fun x => decide (x.1.done < mTotal x.1.desc)).map fun x => (x.2, x.1)

/-- MANIFEST_START (06 R233): the first manifest not started begins once its predecessor has issued its last element, or with BARRIER
has ended. -/
def execManifestStart (cl : Fin 16) (q : Fin 4) (s : State) : Res :=
  let l := mQueueOf s cl q
  .next (if stopped s then s else match l.zipIdx.find? fun x => !x.1.started with
    | none => s
    | some (m, i) =>
      let ok := if i = 0 then true
        else if bit m.desc 48 then false
        else match l[i - 1]? with
          | some p => decide (p.done = mTotal p.desc)
          | none => false
      if ok then setManifest s cl q i { m with started := true } else s)

/-- The segment that holds the next element: the present one, or the next one once that is delivered and translated. -/
def segNow (m : Manifest) : Option (Manifest × Seg) :=
  match m.seg with
  | none => none
  | some g =>
    if m.done < g.first + g.count then some (m, g)
    else if m.nextBusy then none
    else match m.next with
      | some h => some ({ m with seg := some h, next := none }, h)
      | none => none

/-- The page of a segment that covers an address on one side. -/
def segPage (g : Seg) (dst : Bool) (va : Nat) : Option Xlat := (g.pages.find? fun p => decide (p.1 = dst) && p.2.covers va).map (·.2)

/-- Master of a mover (R259). -/
def moverMaster (cl : Fin 16) : Fin 58 := fin 58 (16 + cl.val)

/-! ## Writes that wait for nothing but their line -/

/-- A write of the device to a line can be performed now. In a freeze one to the host is: it is discarded (09 R392). -/
def postReady (s : State) (l : Line) (m : Fin 58) : Bool := (l.host && s.frz.on) || homeReady s l m (.wrpart m 0 0 0)

/-- A write of part or all of a line, of one stream of a master: through its home, or discarded by a freeze. -/
def postWrite (s : State) (l : Line) (m : Fin 58) (stream : Nat) (d : BitVec 512) (mask : BitVec 64) (p : BitVec 2) (relaxed : Bool) : State :=
  let core : Byte := BitVec.ofNat 8 stream
  if l.host && s.frz.on then hostWriteLine s m.val core l.num.toNat d mask p relaxed
  else if mask = BitVec.allOnes 64 then serveWrinv (clearRetry s l m) m core l d p relaxed
  else serveWrpart (clearRetry s l m) m core l d mask p relaxed

/-- A write that cannot be performed yet waits at its home (08 R323, R341). -/
def postAsk (s : State) (l : Line) (m : Fin 58) : State := homeAsk s l m (.wrpart m 0 0 0)

/-- A write becomes visible as soon as it is performed: in device memory, or in a line of the host that the slice holds. -/
def seenAtOnce (s : State) (l : Line) : Bool := !l.host || (slGet s l).data.isSome

/-! ## Elements (R233, R235 to R240) -/

/-- The next element of a queue: the place of its manifest, the manifest, its source line and offset, and its destination page and address. -/
structure Elem where
  i  : Nat
  m  : Manifest
  g  : Seg
  sx : Option Xlat
  sa : Nat
  dx : Xlat
  da : Nat
  deriving DecidableEq, Repr

/-- A drain has stopped a manifest's issue (07 R299). -/
def drainHolds (s : State) (cl : Fin 16) (q : Fin 4) (m : Manifest) : Bool := s.drains.any fun d => d.hit.contains (cl, q, m.no)

/-- The element a queue delivers next, if its manifest is started, running, and its segment translated. -/
def nextElem (s : State) (cl : Fin 16) (q : Fin 4) : Option Elem :=
  match issuing (mQueueOf s cl q) with
  | none => none
  | some (i, m) =>
    if m.started = false ∨ m.halted = true ∨ m.ending.isSome = true ∨ drainHolds s cl q m = true ∨
        (match m.stopAt with | some (k, _) => decide (k ≤ m.done) | none => false) = true then none
    else match segNow m with
      | none => none
      | some (m1, g) =>
        let sa := vaNat (mSrcAt m.desc m.done)
        let da := vaNat (mDstAt m.desc m.done)
        let sx := if mCopy m.desc then segPage g false sa else none
        match segPage g true da with
        | none => none
        | some dx => if mCopy m.desc && sx.isNone then none else some ⟨i, m1, g, sx, sa, dx, da⟩

/-- The line an element reads, and the line it writes. -/
def Elem.srcLine (e : Elem) : Option Line := e.sx.map fun p => lineOf (decide (p.kind = 1)) (p.phys e.sa)

def Elem.dstLine (e : Elem) : Line := lineOf (decide (e.dx.kind = 1)) (e.dx.phys e.da)

/-- An element can be read now; a freeze holds a read of host memory (09 R391). -/
def srcReady (s : State) (cl : Fin 16) (e : Elem) : Bool :=
  match e.srcLine with
  | some l => homeReady s l (moverMaster cl) (.rdcur (moverMaster cl))
  | none => true

/-- An element can be written now (R237, R278): at once, unless with RX = 0 an earlier write of its queue is not visible yet and this one would be. -/
def dstReady (s : State) (cl : Fin 16) (q : Fin 4) (e : Elem) : Bool :=
  let early := !(mRx e.m.desc) && streamBusy s (16 + cl.val) q.val
  if e.dx.kind = 2 then !early
  else postReady s e.dstLine (moverMaster cl) && !(early && seenAtOnce s e.dstLine)

/-- An element can be delivered now. A mover that a freeze has made lose a write delivers nothing further outside (09 R393). -/
def elemReady (s : State) (cl : Fin 16) (q : Fin 4) (e : Elem) : Bool :=
  srcReady s cl e && dstReady s cl q e && !(s.frz.movers.getLsbD cl.val && decide (e.dx.kind ≠ 0))

/-- The queue whose turn it is (R233): the first after the one served last that has an element to deliver. -/
def queueTurn (s : State) (cl : Fin 16) : Option (Fin 4) :=
  ((List.range 4).map fun k => fin 4 ((s.mover cl).rot.toNat + 1 + k)).find? fun q =>
    match nextElem s cl q with
    | some e => elemReady s cl q e
    | none => false

/-- An element's data: its bytes as a number, and whether a granule it touches is poisoned (R235, R240). -/
def elemRead (s : State) (cl : Fin 16) (e : Elem) (res : HostAnswer) : State × Nat × Bool :=
  let n := mEsize e.m.desc
  match e.sx, e.srcLine with
  | some p, some l =>
    let held := slServes s l || (slGet s l).owned
    let r := serveRdcur (askHost (clearRetry s l (moverMaster cl)) l 0) l res
    let off := p.phys e.sa % 64
    let bad := (if n = 64 then decide (r.2.2 ≠ 0) else r.2.2.getLsbD (off / 32)) || (l.host && !held && res.error)
    (r.1, r.2.1.toNat / 2 ^ (8 * off) % 2 ^ (8 * n), bad)
  | _, _ => (s, bytesNat ((List.range n).map fun i => (BitVec.ofNat 8 (fld e.m.desc (384 + 8 * (i % 8)) 8))), false)

/-- An element's bytes go into the IMEM of a core: what its fetch queue holds stays as it was fetched (05 R185, R214). -/
def imemWrite (s : State) (id : Fin 256) (off n v : Nat) : State :=
  s.setCoreRaw id { s.core id with imem := writeBytes (s.core id).imem (off % 65536) (natBytes n v) }

/-- An element's write (R235, R240, R255, R258). -/
def elemWrite (s : State) (cl : Fin 16) (q : Fin 4) (e : Elem) (v : Nat) (poison : Bool) (imem : Option (Fin 256 × BitVec 16)) : State :=
  let n := mEsize e.m.desc
  let pa := e.dx.phys e.da
  let off := pa % 64
  let rx := mRx e.m.desc
  match e.dx.kind, imem with
  | 0, some (id, o) => imemWrite s id o.toNat n v
  | 2, _ =>
    sendWrite s { master := BitVec.ofNat 6 (16 + cl.val), core := BitVec.ofNat 8 q.val, addr := BitVec.ofNat 64 pa, bytes := natBytes n v
                  peer := true, relaxed := rx, poison := poison, frozenResp := false, response := none }
  | _, _ => postWrite s e.dstLine (moverMaster cl) q.val (BitVec.ofNat 512 (v * 2 ^ (8 * off))) (BitVec.ofNat 64 ((2 ^ n - 1) * 2 ^ off))
      (if poison then 3 else 0) rx

/-- What waits for an element that cannot be delivered now: its source line, then its destination's (R278). -/
def elemAsk (s : State) (cl : Fin 16) (e : Elem) : State :=
  let m := moverMaster cl
  match e.srcLine with
  | some l =>
    if homeReady s l m (.rdcur m) then (if e.dx.kind = 2 then s else postAsk s e.dstLine m) else homeAsk s l m (.rdcur m)
  | none => if e.dx.kind = 2 then s else postAsk s e.dstLine m

/-- A manifest after one more element; a segment whose last element has been issued gives its slots back (07 R295). -/
def Manifest.delivered (m : Manifest) (g : Seg) (poison : Bool) : Manifest :=
  { m with done := m.done + 1, poisoned := satAdd m.poisoned (b2n poison)
           seg := (if m.done + 1 = g.first + g.count then some { g with pages := [] } else some g) }

/-- An element is delivered (R233, R235 to R240). In a freeze a write to the host or a peer is discarded and listed, and its manifest goes no
further (09 R391, R392). -/
def elemDeliver (s : State) (cl : Fin 16) (q : Fin 4) (e : Elem) (res : HostAnswer) (imem : Option (Fin 256 × BitVec 16)) : State :=
  let r := elemRead s cl e res
  let s1 := elemWrite r.1 cl q e r.2.1 r.2.2 imem
  if s.frz.on ∧ e.dx.kind ≠ 0 then s1
  else
    let s2 := cntPreg64 s1 (.cl cl) 0x220 (mEsize e.m.desc)
    let s3 := when r.2.2 (fun t => cntPreg t (.cl cl) 0x230 1) s2
    let s4 := setManifest s3 cl q e.i (e.m.delivered e.g r.2.2)
    s4.setMover cl { s4.mover cl with rot := BitVec.ofNat 2 q.val }

/-- One element of a queue's issuing manifest, in the queue's turn; it waits for its segment, its turn, and at a blocked address (R233, R278). -/
def deliverElement (s : State) (cl : Fin 16) (q : Fin 4) (res : HostAnswer) (imem : Option (Fin 256 × BitVec 16)) : State :=
  match nextElem s cl q with
  | none => s
  | some e =>
    if elemReady s cl q e = false then elemAsk s cl e
    else if queueTurn s cl = some q then elemDeliver s cl q e res imem
    else s

/-- MANIFEST_ELEMENT (06 R235). -/
def execManifestElement (cl : Fin 16) (q : Fin 4) (res : HostAnswer) (imem : Option (Fin 256 × BitVec 16)) (s : State) : Res :=
  .next (if stopped s then s else deliverElement s cl q res imem)

/-! ## Rolling segments (07 R295, R309) -/

/-- SEGMENT_TRANSLATION (07 R295): half of the present segment is delivered, rounded up, and elements remain after it. -/
def execSegmentTranslation (cl : Fin 16) (q : Fin 4) (s : State) : Res :=
  .next (if stopped s then s else match issuing (mQueueOf s cl q) with
    | none => s
    | some (i, m) =>
      match m.seg with
      | none => s
      | some g =>
        if m.halted = false ∧ m.ending = none ∧ m.next = none ∧ m.nextBusy = false ∧ m.stopAt = none ∧ (g.count + 1) / 2 ≤ m.done - g.first ∧
            g.first + g.count < mTotal m.desc then
          setManifest s cl q i { m with nextBusy := true }
        else s)

/-- The next segment's lookups end: it is kept with the elements before a failing page, and delivery stops there (R301). -/
def segDone (s : State) (cl : Fin 16) (q : Fin 4) (ue : List (BitVec 23)) : State :=
  match issuing (mQueueOf s cl q) with
  | none => s
  | some (i, m) =>
    match m.seg, m.nextBusy with
    | some g, true =>
      let at_ := g.first + g.count
      let r := cutFrom s m.ctx m.desc m.limit at_ (mTotal m.desc) ue
      let nx : Option Seg := if r.2.count = 0 then none else some ⟨at_, r.2.count, r.2.pages, !g.upper⟩
      let stop := r.2.fail.map fun f => (f.1, f.2.setWidth 48)
      setManifest r.1 cl q i { m with nextBusy := false, next := nx, stopAt := stop }
    | _, _ => s

/-- SEGMENT_TRANSLATION_DONE (07 R295). -/
def execSegmentTranslationDone (cl : Fin 16) (q : Fin 4) (ue : List (BitVec 23)) (s : State) : Res :=
  .next (if stopped s then s else segDone s cl q ue)

/-! ## Records and ends (R237 to R241) -/

/-- The 64-byte completion record (R239). -/
def record (s : State) (cl : Fin 16) (q : Fin 4) (m : Manifest) (status : Nat) (failAddr : Nat) : BitVec 512 :=
  let ok := decide (status ≤ 1)
  let coord (k : Nat) : Nat := if ok then 0 else mCoord m.desc m.done k % 2 ^ 32
  BitVec.ofNat 512 (status + (q.val + cl.val * 16) * 2 ^ 8 + fld m.desc 32 16 * 2 ^ 16 + (m.done % 2 ^ 64) * 2 ^ 64
    + coord 0 * 2 ^ 128 + coord 1 * 2 ^ 160 + coord 2 * 2 ^ 192 + coord 3 * 2 ^ 224 + coord 4 * 2 ^ 256
    + m.poisoned.toNat * 2 ^ 288 + (if status = 2 then failAddr % 2 ^ 64 else 0) * 2 ^ 320 + s.tide.step.toNat * 2 ^ 384
    + m.no.toNat * 2 ^ 480)

/-- The lines of a manifest's record and flag. -/
def Manifest.recLine (m : Manifest) : Line := lineOf (decide (m.recX.kind = 1)) (m.recX.phys (mCompl m.desc))

def Manifest.flagLine (m : Manifest) : Option (Line × Nat) :=
  m.flagX.map fun x => (lineOf (decide (x.kind = 1)) (x.phys (mFlag m.desc)), x.phys (mFlag m.desc) % 64)

/-- Writes the record through the manifest's record slot. -/
def writeRecord (s : State) (cl : Fin 16) (q : Fin 4) (m : Manifest) (status failAddr : Nat) : State :=
  cntPreg (postWrite s m.recLine (moverMaster cl) q.val (record s cl q m status failAddr) (BitVec.allOnes 64) 0 false) (.cl cl) 0x228 1

/-- Writes the flag (R238). -/
def writeFlag (s : State) (cl : Fin 16) (q : Fin 4) (m : Manifest) : State :=
  match m.flagLine with
  | none => s
  | some (l, off) =>
    postWrite s l (moverMaster cl) q.val (BitVec.ofNat 512 (fld m.desc 320 64 * 2 ^ (8 * off))) (BitVec.ofNat 64 (255 * 2 ^ off)) 0 false

/-- Sets the manifest's event (R238). -/
def manifestEvent (s : State) (m : Manifest) : State :=
  let id := fin 256 (fld m.desc 22 8)
  if bit m.desc 16 then setEvent s id (BitVec.ofNat 5 (fld m.desc 17 5)) else s

/-- An ending is over once its record is visible: the event, and the manifest leaves its queue, or stays halted in PARTIAL. The event goes with every
record but RESET's (R234, R238; assumption 20). -/
def endSeen (s : State) (cl : Fin 16) (q : Fin 4) (i : Nat) (m : Manifest) (e : Ending) : State :=
  let s1 := if e.status = 2 then setManifest s cl q i { m with ending := none } else setQueue s cl q (dropAt (mQueueOf s cl q) i)
  if e.status = 4 then s1 else manifestEvent s1 m

/-- A freeze has discarded a write of the mover, and with it the record of this manifest, which is the last write of its queue (09 R393). -/
def recordLost (s : State) (cl : Fin 16) (m : Manifest) : Bool := s.frz.movers.getLsbD cl.val && decide (m.recX.kind = 1)

/-- The ending manifests of a queue go on, first one first, as far as they may: each write waits for the one before it to be visible (R238). `fuel`
bounds the stages. -/
def advance (cl : Fin 16) (q : Fin 4) : Nat → State → State
  | 0, s => s
  | fuel + 1, s =>
    if streamBusy s (16 + cl.val) q.val then s
    else match (mQueueOf s cl q).zipIdx.findSome? fun x => x.1.ending.map fun e => (x.2, x.1, e) with
      | none => s
      | some (i, m, e) =>
        let next (t : State) (st : EndStage) : State := setManifest t cl q i { m with ending := some { e with stage := st } }
        match e.stage with
        | .flag =>
          let l := (m.flagLine.map (·.1)).getD m.recLine
          if postReady s l (moverMaster cl) then advance cl q fuel (next (writeFlag s cl q m) .record) else postAsk s l (moverMaster cl)
        | .record =>
          if postReady s m.recLine (moverMaster cl) then advance cl q fuel (next (writeRecord s cl q m e.status.toNat e.addr.toNat) .seen)
          else postAsk s m.recLine (moverMaster cl)
        | .seen => if recordLost s cl m then s else advance cl q fuel (endSeen s cl q i m e)

/-- A manifest begins to end. -/
def beginEnd (s : State) (cl : Fin 16) (q : Fin 4) (i : Nat) (m : Manifest) (e : Ending) : State :=
  advance cl q 3 (setManifest s cl q i { m with ending := some e })

/-- The head manifest of a queue ends when all its elements are delivered and visible (R238). One that is ending already goes on. -/
def manifestEnd (s : State) (cl : Fin 16) (q : Fin 4) : State :=
  match mQueueOf s cl q with
  | [] => s
  | m :: _ =>
    if m.ending.isSome then advance cl q 3 s
    else if m.started = false ∨ m.halted = true ∨ m.done < mTotal m.desc ∨ streamBusy s (16 + cl.val) q.val = true then s
    else
      let ok := decide (m.poisoned = 0)
      beginEnd (if ok then s else raiseErr s (.cl cl) 20 m.no.toNat) cl q 0 m ⟨if m.flagX.isSome then .flag else .record, if ok then 0 else 1, 0⟩

/-- MANIFEST_COMPLETE (06 R238). -/
def execManifestComplete (cl : Fin 16) (q : Fin 4) (s : State) : Res := .next (if stopped s then s else manifestEnd s cl q)

/-- Delivery has reached the element before which it must stop (07 R301): the slots are released, the queue halts, and the record says PARTIAL once
every delivered element is visible (06 R237). -/
def manifestPartial (s : State) (cl : Fin 16) (q : Fin 4) : State :=
  match issuing (mQueueOf s cl q) with
  | none => s
  | some (i, m) =>
    match m.stopAt with
    | none => s
    | some (k, a) =>
      if m.halted = true ∨ m.ending.isSome = true ∨ m.done ≠ k then s
      else beginEnd (raiseErr s (.cl cl) 19 m.no.toNat) cl q i
        { m with started := true, halted := true, seg := none, next := none, nextBusy := false } ⟨.record, 2, a.setWidth 64⟩

/-- MANIFEST_PARTIAL (07 R301). -/
def execManifestPartial (cl : Fin 16) (q : Fin 4) (s : State) : Res := .next (if stopped s then s else manifestPartial s cl q)

/-- A manifest ends with RESET (R241), unless the record of its end is already written, and not lost; PARTIAL is no end. -/
def Manifest.reset (lost : Bool) (m : Manifest) : Manifest :=
  if (match m.ending with | some e => decide (e.stage = .seen) && decide (e.status ≠ 2) | none => false) && !lost then m
  else { m with ending := some ⟨.record, 4, 0⟩, seg := none, next := none, nextBusy := false }

/-- Every manifest of a mover ends with RESET (R241): record, no flag, no event. Its writes are no longer discarded (09 R393). -/
def resetMover (s : State) (cl : Fin 16) : State :=
  let z := { s with frz := { s.frz with movers := setBit s.frz.movers cl.val false } }
  let lost (q : Fin 4) (m : Manifest) : Bool := recordLost s cl m && !(streamBusy s (16 + cl.val) q.val)
  (List.finRange 4).foldl (fun t q =>
    advance cl q (3 * (mQueueOf t cl q).length) (setQueue t cl q ((mQueueOf t cl q).map fun m => m.reset (lost q m)))) z

/-- Manifests of a mover are ending with RESET. -/
def moverResets (s : State) (cl : Fin 16) : Bool :=
  (List.finRange 4).any fun q => (mQueueOf s cl q).any fun m => match m.ending with | some e => decide (e.status = 4) | none => false

/-- ABORT_ALL completes with the last record. -/
def abortAllEnd (s : State) (cl : Fin 16) : State :=
  if bit (preg s (.cl cl) 0x200) 1 && !(moverResets s cl) then goDone s (.cl cl) 0x200 1 else s

/-- A write of CL_MV_CTRL (R242, R269): MV_EN becoming 1 starts the completion numbers at 1; ABORT_ALL ends every manifest. -/
def mvCtrlWrite (s : State) (cl : Fin 16) (v : W32) : State :=
  let was := bit (preg s (.cl cl) 0x200) 0
  let w := pageWrite s (.cl cl) 0x200 v
  let now := bit (preg w.st (.cl cl) 0x200) 0
  let s1 := if was = false ∧ now = true then w.st.setMover cl { w.st.mover cl with last := Vector.replicate 4 0 } else w.st
  if w.started 1 then abortAllEnd (resetMover s1 cl) cl else s1

/-- ABORT_ALL (06 R241). -/
def execAbortAll (cl : Fin 16) (v : W32) (s : State) : Res := .next (mvCtrlWrite s cl v)

/-- MV_EN (06 R243). -/
def execMvEn (cl : Fin 16) (v : W32) (s : State) : Res := .next (mvCtrlWrite s cl v)

/-! ## RESUME and ABORT (07 R302, R303) -/

/-- The halted manifest of a queue, once its PARTIAL record is written. -/
def haltedOf (l : List Manifest) : Option (Nat × Manifest) := (l.zipIdx.find? fun x => x.1.halted && x.1.ending.isNone).map fun x => (x.2, x.1)

/-- RESUME (R302): status 0 OK, 5 FAULT, 7 NOT_PARTIAL. -/
def resumeManifest (s : State) (cl : Fin 16) (q : Fin 4) (ue : List (BitVec 23)) : State × Nat :=
  match haltedOf (mQueueOf s cl q) with
  | none => (s, 7)
  | some (i, m) =>
    let r := cutFrom s m.ctx m.desc m.limit m.done (mTotal m.desc) ue
    if r.2.count = 0 then (r.1, 5)
    else
      let stop := r.2.fail.map fun f => (f.1, f.2.setWidth 48)
      (setManifest r.1 cl q i { m with halted := false, stopAt := stop, seg := some ⟨m.done, r.2.count, r.2.pages, false⟩ }, 0)

/-- ABORT (R303): the record is rewritten with ABORTED, no flag, the event, and the queue goes on. The completion number whose record its answer waits
for, or none where the queue is not halted. -/
def abortManifest (s : State) (cl : Fin 16) (q : Fin 4) : State × Option W32 :=
  match haltedOf (mQueueOf s cl q) with
  | none => (s, none)
  | some (i, m) => (beginEnd s cl q i m ⟨.record, 3, 0⟩, some m.no)

end Sys2Proof.Machine
end

