-- ==== Sys2Proof/Machine/Power.lean ====
section
/-! DEFINITION. Operating points of the cluster power loop: the V/F curve, set points, limits, and pre-boost misses (11 R471 to R476). -/

namespace Sys2Proof.Machine

/-- The codes of the curve's points (R471). -/
def vfCodes : List Nat := [0, 8, 16, 24, 32, 40, 46, 50]

/-- Linear interpolation between neighbouring points, rounded up to a whole 5 mV unit. -/
def interpUp (c0 v0 c1 v1 c : Nat) : Nat := ((v0 * (c1 - c) + v1 * (c - c0)) + (c1 - c0) - 1) / (c1 - c0)

/-- The curve walked point by point. -/
def curveAt (c : Nat) : List (Nat × Nat) → Nat
  | [] => 0
  | [p] => p.2
  | p :: q :: l => if c ≤ q.1 then interpUp p.1 p.2 q.1 q.2 c else curveAt c (q :: l)

/-- Minimum voltage of a cluster at a code, in 5 mV units (R471). -/
def minVolt (s : State) (cl : Fin 16) (c : Nat) : Nat :=
  curveAt c (vfCodes.zip ((List.range 8).map fun i => fld (preg s (.cl cl) (0x340 + 4 * i)) 0 9))

/-- The set point at a code: the minimum plus AL_GUARD_MV, in 5 mV units rounded up, at most 1.000 V (R471). -/
def setPoint (s : State) (cl : Fin 16) (c : Nat) : Nat := min 200 (minVolt s cl c + (fld (preg s .al 0x114) 0 7 + 4) / 5)

/-- PW_EN. -/
def pwEn (s : State) (cl : Fin 16) : Bool := bit (preg s (.cl cl) 0x300) 0

/-- A code clipped to the limits of R476, and while the loop runs to CL_PW_FMAX (R474, R478). -/
def clipCode (s : State) (cl : Fin 16) (c : Nat) : Nat :=
  let p := (s.cl cl).pw
  let lim := min p.pwrLim.toNat p.tjLim.toNat
  min c (if pwEn s cl then min lim (fld (preg s (.cl cl) 0x30C) 0 6) else lim)

/-- A hint is heavy (R474). -/
def heavy (s : State) (hint : Nat) : Bool := decide (fld (preg s .al 0x10C) 0 4 ≤ hint)

/-- A heavy LOAD takes effect in a cluster (R475): below the boost voltage it is a miss, which clipping alone does not make one. -/
def heavyLoad (s : State) (cl : Fin 16) (hint : Nat) : State :=
  if pwEn s cl = true ∧ bit (preg s (.cl cl) 0x300) 1 = false ∧ heavy s hint = true ∧
      (s.cl cl).pw.volt.toNat < setPoint s cl (clipCode s cl (fld (preg s (.cl cl) 0x308) 0 6)) then
    raiseErr (cntPreg s (.cl cl) 0x31C 1) (.cl cl) 9
  else s

end Sys2Proof.Machine
end

