-- ==== Sys2Proof/Machine/Timetable.lean ====
section
/-! DEFINITION. The timetables: entries, dispatch, actions, and the timetable windows (02 R49 to R64, R70 to R73). What a boundary does
to them stands in Machine/Boundary.lean. -/

namespace Sys2Proof.Machine

/-! ## Windows and entries -/

/-- Offset of an entry: bank A, then bank B. -/
def ttOff (bank : Bool) (i : Nat) : Nat := (if bank then 0x2000 else 0) + 16 * i

/-- An entry's 128 bits (R49). -/
def ttEntry (s : State) (id : Fin 256) (bank : Bool) (i : Nat) : BitVec 128 :=
  let w (k : Nat) : Nat := (ttReg s id (ttOff bank i + 4 * k)).toNat
  BitVec.ofNat 128 (w 0 + w 1 * 2 ^ 32 + w 2 * 2 ^ 64 + w 3 * 2 ^ 96)

/-- Entries of a bank. -/
def ttCount (s : State) (id : Fin 256) (bank : Bool) : Nat := min 512 (fld (ttReg s id (if bank then 0x8008 else 0x8004)) 0 10)

def eDue (e : BitVec 128) : Nat := fld e 0 24

def eAct (e : BitVec 128) : Nat := fld e 24 8

def eValid (e : BitVec 128) : Bool := bit e 38

def eArg (e : BitVec 128) : Nat := fld e 96 32

/-- An entry fires in a step (R50). The reserved SCHED code never fires (assumption 21). -/
def eFires (e : BitVec 128) (step : Nat) : Bool :=
  eValid e && (match fld e 36 2 with
    | 0 => true
    | 1 => decide (fld e 64 16 < fld e 48 16) && decide (step % fld e 48 16 = fld e 64 16)
    | 2 => decide (fld e 48 48 = step)
    | _ => false)

/-- The action codes of R51. -/
def actKnown (a : Nat) : Bool := [0, 1, 2, 3, 4, 5, 6, 8, 9, 0xA, 0xB].contains a

/-- The entry is never dispatched in this step (R61). -/
def eUnreached (s : State) (e : BitVec 128) : Bool := decide (s.tide.len.toNat ≤ eDue e * grain s)

/-- Timetables are dispatched now (R45, R46). -/
def dispatchOn (s : State) : Bool := s.tide.dispatching && !s.tide.halt && !(stopped s)

/-- An entry that fires in this step and is never reached in it sets UNREACHED (R61). -/
def unreachedCheck (s : State) (id : Fin 256) : State :=
  let t := (s.core id).tt
  if ttEn s id && t.running && dispatchOn s && ((List.range (ttCount s id t.bank)).any fun i =>
      let e := ttEntry s id t.bank i
      eFires e s.tide.step.toNat && eUnreached s e) then
    setTtReg s id 0x8014 (ttReg s id 0x8014 ||| 0x10)
  else s

/-! ## Which entry is next (R53, R60 to R62) -/

/-- The next entry of a core's dispatcher: bank, index, its bits, whether it goes late, whether it breaks the order of R54, and whether it
was carried over the boundary. -/
structure Pick where
  bank    : Bool
  idx     : Nat
  e       : BitVec 128
  late    : Bool
  order   : Bool
  carried : Bool
  deriving DecidableEq, Repr

/-- The valid entry nearest before an index has a later due phase (R62). -/
def outOfOrder (s : State) (id : Fin 256) (bank : Bool) (i : Nat) : Bool :=
  match ((List.range i).reverse.map fun k => ttEntry s id bank k).find? eValid with
  | some p => decide (eDue (ttEntry s id bank i) < eDue p)
  | none => false

/-- The scan stops at the first entry, from the pointer on, that fires in this step and is dispatched or skipped in it. -/
def scanFrom (s : State) (id : Fin 256) (bank : Bool) (first count : Nat) : Option Nat :=
  ((List.range count).drop first).find? fun i =>
    let e := ttEntry s id bank i
    eFires e s.tide.step.toNat && (!(actKnown (eAct e)) || !(eUnreached s e))

/-- The next entry: carried entries first, in index order (R60). -/
def nextEntry (s : State) (id : Fin 256) : Option Pick :=
  let t := (s.core id).tt
  if ttEn s id = false ∨ t.running = false ∨ dispatchOn s = false then none
  else match t.carried with
    | (b, i) :: _ => some ⟨b, i.toNat, ttEntry s id b i.toNat, true, false, true⟩
    | [] =>
      (scanFrom s id t.bank t.next.toNat (ttCount s id t.bank)).map fun i =>
        let e := ttEntry s id t.bank i
        ⟨t.bank, i, e, decide (eDue e * grain s < s.tide.phase.toNat), outOfOrder s id t.bank i, false⟩

/-- The pick may go on this tick: its due phase is reached, or it goes at once, and one of the tick's four places is free (R53, R62). -/
def mayGo (s : State) (id : Fin 256) (p : Pick) : Bool :=
  let t := (s.core id).tt
  (p.carried || p.order || decide (eDue p.e * grain s ≤ s.tide.phase.toNat))
    && (decide (t.lastPhase ≠ s.tide.phase) || decide (t.places.toNat < 4))

/-- The dispatcher moves past an entry. -/
def passEntry (s : State) (id : Fin 256) (p : Pick) : State :=
  let t := (s.core id).tt
  setTt s id (if p.carried then { t with carried := t.carried.drop 1 } else { t with next := BitVec.ofNat 10 (p.idx + 1) })

/-- A place of the tick is taken, TT_SKEW counts a late entry, ORDER is recorded, and an at-step entry loses VALID (R50, R53, R62). -/
def takePlace (s : State) (id : Fin 256) (p : Pick) : State :=
  let s1 := passEntry s id p
  let t := (s1.core id).tt
  let used := if t.lastPhase = s.tide.phase then t.places + 1 else 1
  let s2 := setTt s1 id { t with lastPhase := s.tide.phase, places := used }
  let s3 := when p.late (fun u => setTtReg u id 0x8018 (satAdd (ttReg u id 0x8018) 1)) s2
  let s4 := when p.order (fun u => setTtReg u id 0x8014 (ttReg u id 0x8014 ||| 4)) s3
  when (decide (fld p.e 36 2 = 2)) (fun u => setTtReg u id (ttOff p.bank p.idx + 4) (ttReg u id (ttOff p.bank p.idx + 4) &&& ~~~0x40#32)) s4

/-- The dispatcher sends nothing to a fenced, reset or parked core, but START to a parked one (R64). -/
def ttReaches (s : State) (id : Fin 256) (start : Bool) : Bool :=
  match (s.core id).st with
  | .reset | .fenced => false
  | .parked => start
  | _ => true

/-- One entry is dispatched (R53): the command names it by its index, and its action code is the row's. Any other entry is not what the
dispatcher would send now (assumption 9). -/
def dispatch (s : State) (id : Fin 256) (idx : Fin 512) (act : Nat) (start : Bool) (g : State → BitVec 128 → State) : State :=
  match nextEntry s id with
  | none => s
  | some p =>
    if p.idx ≠ idx.val ∨ eAct p.e ≠ act ∨ mayGo s id p = false then s
    else
      let s1 := takePlace s id p
      if ttReaches s1 id start then g s1 p.e else s1

/-! ## The actions (R51, R52, R55) -/

/-- TT_NOP (02 R51): it occupies a dispatch place. -/
def execTtNop (id : Fin 256) (idx : Fin 512) (s : State) : Res := .next (dispatch s id idx 0x00 false fun t _ => t)

/-- TT_EVENT (02 R51, R73). -/
def execTtEvent (id : Fin 256) (idx : Fin 512) (s : State) : Res :=
  .next (dispatch s id idx 0x01 false fun t e => setEvent t id (BitVec.ofNat 5 (eArg e)))

/-- START from the timetable (R51, 04 R132): a core that is neither PARKED nor in HALT ignores it, and it is counted. -/
def ttStartAct (s : State) (id : Fin 256) (pc : W16) : State :=
  match (s.core id).st with
  | .parked | .halt => startCore s id pc
  | _ => setTt s id { (s.core id).tt with ignored := (s.core id).tt.ignored + 1 }

/-- TT_START (02 R51). An IMEM address is a multiple of 16 (05 R169). -/
def execTtStart (id : Fin 256) (idx : Fin 512) (s : State) : Res :=
  .next (dispatch s id idx 0x02 true fun t e => ttStartAct t id (BitVec.ofNat 16 (eArg e / 16 * 16)))

/-- SEND from the timetable (R51, R52): checked as a SEND instruction; one without a fare waits in the send queue. A descriptor address that
is not aligned or not in LDM, or an uncorrectable word of the descriptor or of the payload, halts the core as the instruction would (05 R187,
R210; assumption 21). -/
def ttSendAct (s : State) (id : Fin 256) (a : Nat) (upset payload : Upset) : State :=
  let c := s.core id
  if a % 16 ≠ 0 then haltLate s id 0x03 c.lastPc
  else if ldmSize < a + 16 then haltLate s id 0x02 c.lastPc
  else if upset = .uncorrectable then haltLate (noteUpset s id upset a) id 0x04 c.lastPc
  else
    let s0 := noteUpset s id upset a
    let d := readDesc c a
    let st := sendCheck s0 id d
    if st ≠ 0 then sendStatus s0 id d st
    else if (c.tt.sendQ.any fun x => decide (x.chan = d.chan)) = false ∧ canSend s0 id d = true then
      let s1 := noteUpset (spendFare s0 id d.chan) id payload d.src.toNat
      if payload = .uncorrectable then haltLate s1 id 0x04 c.lastPc else launch s1 id d
    else setTt s0 id { c.tt with sendQ := c.tt.sendQ ++ [d] }

/-- TT_SEND (02 R52). -/
def execTtSend (id : Fin 256) (idx : Fin 512) (upset payload : Upset) (s : State) : Res :=
  .next (dispatch s id idx 0x03 false fun t e => ttSendAct t id (eArg e % 2 ^ 20) upset payload)

/-- TT_MANIFEST (02 R51). -/
def execTtManifest (id : Fin 256) (idx : Fin 512) (upset : Upset) (ue : List (BitVec 23)) (s : State) : Res :=
  .next (dispatch s id idx 0x04 false fun t e => submitTimetable t id (eArg e % 2 ^ 20) upset ue)

/-- The report of a deadline miss (R52): a message to the collector in the name of the core's GC page. No page has a source for it (12 R508), so
SOURCE is a free number, no ERR_STAT bit is set, and its severity is deferred, since a miss stops nothing: the model's choice (assumption 21). -/
def reportDeadline (s : State) (id : Fin 256) : State :=
  let m := mkMsg 0x14 id.val Config.deadlineSource.toNat 1 0 0 0 false
  { s with fc := { s.fc with coming := s.fc.coming ++ [m] } }

/-- Berths that were FULL before this tick: a message that completes on the tick of the check comes too late (R72). -/
def fullBefore (s : State) (id : Fin 256) : W16 :=
  let c := s.core id
  let tick := tickNow s
  (List.range 16).foldl (fun m b =>
    let x := c.berths.get (fin 16 b)
    if x.st = .full ∧ (tick = none ∨ x.tick ≠ tick) then setBit m b true else m) 0

/-- The mark count as it stood before this tick (R72). -/
def markAsOf (s : State) (id : Fin 256) : W32 :=
  let c := s.core id
  if (tickNow s).isSome ∧ c.markTick = tickNow s then c.markBefore else c.mark

/-- A deadline miss (R51, R52): the event, TT_MISS, and the report to the fault collector. -/
def deadlineMiss (s : State) (id : Fin 256) (e : BitVec 128) : State :=
  setEvent (reportDeadline (setTtReg s id 0x801C (satAdd (ttReg s id 0x801C) 1)) id) id (BitVec.ofNat 5 (eArg e / 2 ^ 16))

/-- TT_DEADLINE_BERTH (02 R51, R72): a berth of the mask that holds no complete message misses it. -/
def execTtDeadlineBerth (id : Fin 256) (idx : Fin 512) (s : State) : Res :=
  .next (dispatch s id idx 0x05 false fun t e =>
    if BitVec.ofNat 16 (eArg e) &&& ~~~(fullBefore t id) = 0 then t else deadlineMiss t id e)

/-- TT_DEADLINE_MARK (02 R51, R72). -/
def execTtDeadlineMark (id : Fin 256) (idx : Fin 512) (s : State) : Res :=
  .next (dispatch s id idx 0x06 false fun t e =>
    if (markAsOf t id).toNat < eArg e % 2 ^ 16 then deadlineMiss t id e else t)

/-- LOAD (R55; 11 R475). -/
def ttLoadAct (s : State) (id : Fin 256) (e : BitVec 128) : State :=
  heavyLoad (setTt s id { (s.core id).tt with hint := BitVec.ofNat 4 (fld e 32 4) }) (clusterOf id) (fld e 32 4)

/-- TT_LOAD (02 R55). -/
def execTtLoad (id : Fin 256) (idx : Fin 512) (s : State) : Res := .next (dispatch s id idx 0x08 false fun t e => ttLoadAct t id e)

/-- TT_QUIET_ON (02 R55). -/
def execTtQuietOn (id : Fin 256) (idx : Fin 512) (s : State) : Res :=
  .next (dispatch s id idx 0x09 false fun t _ => setTt t id { (t.core id).tt with quiet := true })

/-- TT_QUIET_OFF (02 R55). -/
def execTtQuietOff (id : Fin 256) (idx : Fin 512) (s : State) : Res :=
  .next (dispatch s id idx 0x0A false fun t _ => setTt t id { (t.core id).tt with quiet := false })

/-- The TT_TRAP exception (05 R210, R215): a core in RUN or WAIT halts; one in HALT keeps what it recorded. GC_EXC holds the address of the
last bundle issued, since no bundle is at fault (assumption 21). -/
def ttTrapAct (s : State) (id : Fin 256) (e : BitVec 128) : State :=
  if (s.core id).st = .run ∨ (s.core id).st = .wait then haltCore s id (BitVec.ofNat 8 (0x80 + eArg e % 128)) (s.core id).lastPc else s

/-- TT_TRAP (05 R215). -/
def execTtTrap (id : Fin 256) (idx : Fin 512) (s : State) : Res := .next (dispatch s id idx 0x0B false fun t e => ttTrapAct t id e)

/-- TT_BADACT (02 R51): an entry with another code is skipped; it takes no place (assumption 21). -/
def execTtBadact (id : Fin 256) (idx : Fin 512) (s : State) : Res :=
  .next (match nextEntry s id with
    | none => s
    | some p =>
      if p.idx ≠ idx.val ∨ actKnown (eAct p.e) = true then s
      else
        let s1 := passEntry s id p
        setTtReg s1 id 0x8014 (ttReg s1 id 0x8014 ||| 8))

/-! ## Quiet and load hints (R56 to R58) -/

/-- The cores of a cluster (01 R19). -/
def clusterCores (cl : Fin 16) : List (Fin 256) := (List.finRange 256).filter fun id => decide (clusterOf id = cl)

def clusterQuiet (s : State) (cl : Fin 16) : Bool := (clusterCores cl).all fun id => coreQuiet s id

def deviceQuiet (s : State) : Bool := (List.finRange 256).all fun id => coreQuiet s id

def clusterHint (s : State) (cl : Fin 16) : Nat := ((clusterCores cl).map fun id => coreHint s id).foldl max 0

/-- The bank of a core that is active in the next step (R58, R59). -/
def nextBank (s : State) (id : Fin 256) : Bool :=
  let t := (s.core id).tt
  let at_ := (ttReg s id 0x800C).toNat + (ttReg s id 0x8010).toNat % 2 ^ 16 * 2 ^ 32
  if t.armed = true ∧ at_ ≤ s.tide.step.toNat + 1 then !t.bank else t.bank

/-- The look-ahead of a core's dispatcher (R58; 11 R474, R491): a LOAD entry heavy enough comes up within `lead` tk. The length and the grain
of the next step are taken as those of this one (assumption 21). -/
def heavyAhead (s : State) (id : Fin 256) (lead : Nat) : Bool :=
  let t := (s.core id).tt
  let step := s.tide.step.toNat
  let isLoad (e : BitVec 128) (k : Nat) : Bool :=
    eFires e k && decide (eAct e = 0x08) && !(eUnreached s e) && heavy s (fld e 32 4)
  let now := ((List.range (ttCount s id t.bank)).drop t.next.toNat).any fun i =>
    let e := ttEntry s id t.bank i
    isLoad e step && decide (eDue e * grain s ≤ s.tide.phase.toNat + lead)
  let b := nextBank s id
  let later := (List.range (ttCount s id b)).any fun i =>
    let e := ttEntry s id b i
    isLoad e (step + 1) && decide (s.tide.len.toNat + eDue e * grain s ≤ s.tide.phase.toNat + lead)
  ttEn s id && dispatchOn s && ((t.running && now) || later)

/-! ## Writing the window (R55, R59) -/

/-- A write of TT_CTRL: EN restarts the dispatcher, ARM arms the bank switch. -/
def ttCtrlWrite (s : State) (id : Fin 256) (v : W32) : State :=
  let was := ttEn s id
  let now := bit v 0
  let s1 := setTtReg s id 0x8000 (if now then 1 else 0)
  let t := (s1.core id).tt
  let t1 := if was = now then t
    else { t with hint := 0, quiet := false, running := false, next := 0, carried := [] }
  setTt s1 id { t1 with armed := t1.armed || bit v 2 }

/-- TT_ARM (02 R59). -/
def execTtArm (id : Fin 256) (v : W32) (s : State) : Res := .next (ttCtrlWrite s id v)

/-- TT_ENABLE (02 R55). -/
def execTtEnable (id : Fin 256) (v : W32) (s : State) : Res := .next (ttCtrlWrite s id v)

/-- The bank that an offset of the window belongs to: its entries and its count. -/
def ttBankOf (o : Nat) : Option Bool :=
  if o < 0x2000 then some false
  else if o < 0x4000 then some true
  else if o = 0x8004 then some false
  else if o = 0x8008 then some true
  else none

/-- A 4-byte write in a timetable window (R59; 03 R78, R85). The window has no PAGE_ERR: a rejected write of the active bank, or of a reserved
count, sets TT_STAT.WR_REJ; anything else that is not taken changes nothing (assumption 21). -/
def ttWindowWrite (s : State) (id : Fin 256) (o : Nat) (v : W32) : State :=
  let rej := setTtReg s id 0x8014 (ttReg s id 0x8014 ||| 1)
  if o = 0x8000 then ttCtrlWrite s id v
  else match ttRows.find? (·.covers o) with
    | none => s
    | some row =>
      if ttEn s id = true ∧ ttBankOf o = some (s.core id).tt.bank then rej
      else if row.pair then { s with staged := sset (fun _ => 0) s.staged (ttBase id + o) v }
      else
        let a := row.flds.foldl (wrField false v 0) ⟨ttReg s id o, 0, 0⟩
        if a.rej ≠ 0 then rej
        else if o = 0x8010 then
          setTtReg (setTtReg s id 0x800C (sget (fun _ => 0) s.staged (ttBase id + 0x800C))) id o a.new
        else setTtReg s id o a.new

/-- TT_BANK_WRITE (02 R59). An offset outside the banks and their counts is another row's (assumption 9). -/
def execTtBankWrite (id : Fin 256) (off : BitVec 16) (v : W32) (s : State) : Res :=
  .next (if (ttBankOf off.toNat).isSome then ttWindowWrite s id off.toNat v else s)

end Sys2Proof.Machine
end

