-- ==== Sys2Proof/Machine/Loops.lean ====
section
/-! DEFINITION. The adaptive loops: cluster voltage and frequency, power and temperature limits, droop, lane equalisation (11 R471 to R480,
R489 to R496). Scrub stands in Machine/Memory.lean, placement in Machine/Placement.lean. -/

namespace Sys2Proof.Machine

def State.pw (s : State) (cl : Fin 16) : Power := (s.cl cl).pw

def State.setPw (s : State) (cl : Fin 16) (p : Power) : State := s.setCl cl { s.cl cl with pw := p }

/-! ## Target and ramp (R472 to R475, R490 to R495) -/

/-- The loop's target before clipping (R474): the base while PW_EN is 0 (R478) or the cluster's clock is stopped by a fence (R494). -/
def rawTarget (s : State) (cl : Fin 16) : Nat :=
  let base := fld (preg s (.cl cl) 0x304) 0 6
  if pwEn s cl = false ∨ fenced s (.cl cl) = true then base
  else if bit (preg s (.cl cl) 0x300) 1 then fld (preg s (.cl cl) 0x310) 0 6
  else if heavy s (clusterHint s cl) || (clusterCores cl).any fun id => heavyAhead s id (fld (preg s .al 0x110) 0 16) then
    fld (preg s (.cl cl) 0x308) 0 6
  else base

/-- A voltage step that the ramp wants now: up before the frequency rises, down after it has fallen (R472). -/
def wantedStep (s : State) (cl : Fin 16) : Option Bool :=
  let p := s.pw cl
  let v := p.volt.toNat
  if v < setPoint s cl (max p.target.toNat p.code.toNat) then some true
  else if p.code.toNat ≤ p.target.toNat ∧ setPoint s cl p.target.toNat < v then some false
  else none

/-- The tick is a boundary tick of the device's own (R473; 02 R46). -/
def onBoundary (s : State) : Bool := s.tide.dispatching && decide (s.tide.phase = 0)

/-- A voltage step may begin on this tick (R473). -/
def stepAllowed (s : State) (cl : Fin 16) : Bool := clusterQuiet s cl || (onBoundary s && !((s.pw cl).boundaryUsed))

/-- Begins the wanted voltage step if R473 allows one; else the ramp is held. -/
def tryVoltStep (s : State) (cl : Fin 16) : State :=
  let p := s.pw cl
  if p.stepping.isSome ∨ stopped s = true then s
  else match wantedStep s cl with
    | none => s.setPw cl { p with held := false }
    | some up =>
      if stepAllowed s cl then s.setPw cl { p with stepping := some up, held := false, boundaryUsed := p.boundaryUsed || onBoundary s }
      else s.setPw cl { p with held := true }

/-- One evaluation of the target (R474). In the safe state the cluster keeps what it has (R495). -/
def targetEval (s : State) (cl : Fin 16) : State :=
  if stopped s then s
  else
    let raw := rawTarget s cl
    let t := clipCode s cl raw
    tryVoltStep (s.setPw cl { s.pw cl with target := BitVec.ofNat 6 t, clipped := decide (t < raw) }) cl

/-- PW_TARGET_EVAL (11 R474). -/
def execPwTargetEval (cl : Fin 16) (s : State) : Res := .next (targetEval s cl)

/-- VOLTAGE_STEP_DONE (11 R472): 5 mV, then the next step if it may begin. -/
def execVoltageStepDone (cl : Fin 16) (s : State) : Res :=
  let p := s.pw cl
  .next (match p.stepping with
    | none => s
    | some up => tryVoltStep (s.setPw cl { p with volt := (if up then p.volt + 1 else p.volt - 1), stepping := none }) cl)

/-- FREQUENCY_STEP (11 R472): one code towards the target; upwards once the voltage of the target is there, and not while the clock is
stretched (R493). -/
def execFrequencyStep (cl : Fin 16) (s : State) : Res :=
  let p := s.pw cl
  .next (if stopped s then s
    else if p.target.toNat < p.code.toNat then s.setPw cl { p with code := p.code - 1 }
    else if p.code.toNat < p.target.toNat ∧ setPoint s cl p.target.toNat ≤ p.volt.toNat ∧ p.stretch = 0 then
      s.setPw cl { p with code := p.code + 1 }
    else s)

/-- VR_FAULT (11 R478). -/
def execVrFault (cl : Fin 16) (s : State) : Res :=
  .next (if ((s.pw cl).stepping).isSome then raiseErr s (.cl cl) 11 else s)

/-! ## Power and temperature limits (R476, R489) -/

/-- Every cluster's limit goes down one code; PWR_CLIP when the first code is taken away (R476). -/
def lowerLimits (s : State) : State :=
  let s1 := if (List.finRange 16).all fun cl => decide ((s.pw cl).pwrLim = 50) then raiseErr s .al 0 else s
  (List.finRange 16).foldl (fun t cl => t.setPw cl { t.pw cl with pwrLim := BitVec.ofNat 6 ((t.pw cl).pwrLim.toNat - 1) }) s1

def raiseLimits (s : State) : State :=
  (List.finRange 16).foldl (fun t cl => t.setPw cl { t.pw cl with pwrLim := BitVec.ofNat 6 (min 50 ((t.pw cl).pwrLim.toNat + 1)) }) s

/-- A sample of the module power (R476, R489; 14 R590): over the limit, or PWR_SENSE set, takes a code; below 95% gives one back. -/
def powerSample (s : State) (watts vin : Nat) : State :=
  let s1 := setPreg s .al 0x104 (BitVec.ofNat 32 (watts % 2048))
  let s2 := { s1 with mod := { s1.mod with mbPower := BitVec.ofNat 32 (vin % 65536 + watts % 2048 * 65536) } }
  let lim := fld (preg s2 .al 0x100) 0 11
  if bit (preg s2 .al 0x10) 1 = true ∨ lim < watts then lowerLimits s2
  else if watts * 100 < lim * 95 then raiseLimits s2
  else s2

/-- POWER_SAMPLE (11 R476). A valid sample shows the monitor's inputs normal (14 R595). -/
def execPowerSample (watts : BitVec 11) (vin10mV : W16) (s : State) : Res := .next (powerSample (normal s 13) watts.toNat vin10mV.toNat)

/-- PWR_SENSE (11 R489). PWR_CLIP, which it may bring, has the lower number and is met first (03 R91); a monitor input that is
OPEN or OUT_OF_RANGE is reported as wiring (14 R595). -/
def execPwrSense (wire : Option Bool) (s : State) : Res :=
  .next (let s1 := raiseErr (lowerLimits s) .al 1
    match wire with
    | some range => onset s1 13 (if range then condRange else condOpen) true
    | none => s1)

/-- A cluster's temperature, each µs (R476). -/
def tjSample (s : State) (cl : Fin 16) (c : Nat) : State :=
  let s1 := setPreg s (.cl cl) 0x320 (BitVec.ofNat 32 (c % 256))
  let lim := fld (preg s1 .al 0x108) 0 8
  let p := s1.pw cl
  if lim < c then raiseErr (s1.setPw cl { p with tjLim := BitVec.ofNat 6 (p.tjLim.toNat - 1) }) (.cl cl) 10
  else if c + 3 ≤ lim then s1.setPw cl { p with tjLim := BitVec.ofNat 6 (min 50 (p.tjLim.toNat + 1)) }
  else s1

/-- TJ_LIMIT (11 R476). -/
def execTjLimit (cl : Fin 16) (celsius : Byte) (s : State) : Res := .next (tjSample s cl celsius.toNat)

/-- THERM_TRIP (11 R476). -/
def execThermTrip (s : State) : Res := .next (raiseErr s .al 2)

/-! ## Droop (R477) -/

/-- DROOP (11 R477): the clock runs at half its frequency. -/
def execDroop (cl : Fin 16) (s : State) : Res := .next (s.setPw cl { s.pw cl with stretch := 4 })

/-- Sixteen stretched cycles (R477): counted, for the step too; the stretch relaxes by an eighth where the supply has recovered. The cycles
of a step are those of its length at the present frequency code. -/
def stretchCycles (s : State) (cl : Fin 16) (recovered : Bool) : State :=
  let p := s.pw cl
  if p.stretch = 0 then s
  else
    let n := p.stretchStep + 16
    let cycles := s.tide.len.toNat * (800 + 25 * p.code.toNat) * 64
    let deep := decide (0 < s.tide.len.toNat) && decide (fld (preg s .al 0x11C) 0 7 * cycles < n * 100 * 10000)
    let s1 := cntPreg (s.setPw cl { p with stretch := (if recovered then p.stretch - 1 else p.stretch), stretchStep := n
                                           deep := p.deep || deep }) (.cl cl) 0x318 16
    if deep && !p.deep then raiseErr s1 (.cl cl) 8 else s1

/-- STRETCH_RELAX (11 R477). -/
def execStretchRelax (cl : Fin 16) (recovered : Bool) (s : State) : Res := .next (stretchCycles s cl recovered)

/-! ## Limits of the AL page (R477, R489) -/

/-- A write of AL_PWR_LIM: outside 300 to 1,250 W it is rejected. -/
def alPwrLimWrite (s : State) (v : W32) : State :=
  let x := fld v 0 11
  if bit (preg s .al 0x44) 0 = false ∧ (x < 300 ∨ 1250 < x) then raiseErr s .al 6 0x100 else (pageWrite s .al 0x100 v).st

/-- AL_PWR_LIM_WRITE (11 R489). -/
def execAlPwrLimWrite (v : W32) (s : State) : Res := .next (alPwrLimWrite s v)

/-- A write of AL_GUARD_MV or AL_DROOP_MV: the droop threshold stays below the guard. -/
def alDroopWrite (s : State) (guard : Bool) (v : W32) : State :=
  let x := fld v 0 7
  let bad := if guard then decide (x ≤ fld (preg s .al 0x118) 0 7) else decide (fld (preg s .al 0x114) 0 7 ≤ x)
  let o := if guard then 0x114 else 0x118
  if bit (preg s .al 0x44) 0 = false ∧ bad = true then raiseErr s .al 6 o else (pageWrite s .al o v).st

/-- AL_DROOP_MV_WRITE (11 R477). -/
def execAlDroopMvWrite (guard : Bool) (v : W32) (s : State) : Res := .next (alDroopWrite s guard v)

/-! ## Lane equalisation (R479, R480, R496) -/

/-- Key of a lane. -/
def eqKey (link lane : Nat) : Nat := 16 * link + lane

/-- A lane at reset: settings 0 (assumption 3). -/
def eqReset : Eq := ⟨0, 0, 0, none⟩

def State.eqOf (s : State) (k : Nat) : Eq := (slook s.eqs k).getD eqReset

/-- One code towards a value. -/
def towards (x y : Int) : Int := if x < y then x + 1 else if y < x then x - 1 else x

/-- A value within bounds. -/
def within (lo hi x : Int) : Int := max lo (min hi x)

/-- A timed slot of a crossing port is open. -/
def slotOpen (s : State) (link : Nat) : Bool := decide (link < 8) && (s.port (fin 8 link)).slot.isSome

/-- The lane is pinned. -/
def eqPinned (s : State) (link : Nat) : Bool := if link < 8 then bit (preg s .al 0x120) (8 + link) else bit (preg s .al 0x120) 0

/-- An update of a lane (R479, R480): one code at most, inside AL_EQ_LIM; discarded while a slot of the port is open, or while the CXL link
recovers or changes width. A pinned lane moves only towards AL_EQ_FORCE. -/
def eqUpdate (s : State) (link lane : Nat) (ctle tap : Int) (margin : Nat) (busy : Bool) : State :=
  let k := eqKey link lane
  let e := s.eqOf k
  let lim := fld (preg s .al 0x134) 0 8
  let first := (slook s.eqs k).isNone
  let mag : Int := (fld (preg s .al 0x130) 8 6 : Int)
  let top : Int := (fld (preg s .al 0x130) 0 5 : Int)
  let want : Option (Int × Int) :=
    if slotOpen s link || (decide (link = 8) && (busy || decide (s.cxl.link = .recovery))) then none
    else if eqPinned s link then e.force.map fun f => ((f.1.toNat : Int), sgn 7 f.2.toNat)
    else some (ctle, tap)
  let e1 : Eq := match want with
    | none => { e with margin := BitVec.ofNat 8 margin }
    | some (c, t) => { e with margin := BitVec.ofNat 8 margin
                              ctle := ofInt 5 (towards (e.ctle.toNat : Int) (within 0 top c))
                              tap := ofInt 7 (towards (sgn 7 e.tap.toNat) (within (-mag) mag t)) }
  let s1 := { s with eqs := sput k e1 s.eqs }
  let s2 := if want.isSome ∧ link < 8 then s1.setPort (fin 8 link) { s1.port (fin 8 link) with eqDone := true } else s1
  if margin < lim ∧ (first = true ∨ lim ≤ e.margin.toNat) then raiseErr s2 .al 3 k else s2

/-- EQ_UPDATE (11 R479). A lane that the link does not have sends none; a disabled AL page holds every setting. -/
def execEqUpdate (link : Fin 9) (lane : Fin 16) (ctle : BitVec 5) (tap : BitVec 7) (margin : Byte) (busy : Bool) (s : State) : Res :=
  .next (if enabled s .al = false ∨ (link.val < 8 ∧ 4 ≤ lane.val) then s
    else eqUpdate s link.val lane.val (ctle.toNat : Int) (sgn 7 tap.toNat) margin.toNat busy)

/-- A write of AL_EQ_FORCE: it is kept for the selected lane (R480). -/
def alEqForceWrite (s : State) (v : W32) : State :=
  let w := pageWrite s .al 0x12C v
  if w.ok = false then w.st
  else
    let sel := preg w.st .al 0x124
    let k := eqKey (fld sel 0 4) (fld sel 4 4)
    { w.st with eqs := sput k { w.st.eqOf k with force := some (BitVec.ofNat 5 (fld v 0 5), BitVec.ofNat 7 (fld v 5 7)) } w.st.eqs }

/-- EQ_STARVED (11 R480): AL_EQ_STARVE steps without an update, because slots were open. -/
def execEqStarved (port : Fin 8) (s : State) : Res :=
  .next (if fld (preg s .al 0x138) 0 16 ≤ (s.port port).eqSteps.toNat ∧ 0 < (s.port port).eqSteps.toNat then raiseErr s .al 4 port.val else s)

end Sys2Proof.Machine
end

