-- ==== Sys2Proof/Machine/Tide.lean ====
section
/-! DEFINITION. The tide: frames, misses, holdover, and the TD page (02 R32 to R48, R63 to R71). The step boundary stands in
Machine/Boundary.lean. -/

namespace Sys2Proof.Machine

/-- What a frame or a TIDE word carries (02 R34, R47). -/
structure FrameInfo where
  step   : BitVec 48
  len    : Nat
  grain4 : Bool
  hops   : BitVec 4

/-- A step length is valid for its grain (R35). -/
def lenValid (len : Nat) (g4 : Bool) : Bool :=
  if g4 then decide (2 ^ 24 < len) && decide (len ≤ 2 ^ 26) && decide (len % 4 = 0)
  else decide (2 ^ 14 ≤ len) && decide (len ≤ 2 ^ 24)

/-- A length that a master may take, with the grain it implies (R35). -/
def lenOk (len : Nat) : Bool := lenValid len (decide (2 ^ 24 < len))

/-- The fields of a frame (R34). -/
def frameInfo (x : BitVec 128) : FrameInfo :=
  let g := bit x 90
  ⟨BitVec.ofNat 48 (fld x 16 48), (fld x 64 24 + 1) * (if g then 4 else 1), g, BitVec.ofNat 4 (fld x 92 4)⟩

/-- The fields of a TIDE word (R47, 10 R419). -/
def tideWordInfo (x : BitVec 128) : FrameInfo :=
  let g := bit x 76
  ⟨BitVec.ofNat 48 (fld x 4 48), (fld x 52 24 + 1) * (if g then 4 else 1), g, BitVec.ofNat 4 (fld x 79 4)⟩

/-- TD_DELAY + TD_TRIM, 1/64 tk (R40). -/
def tideDelay (s : State) : Int := (fld (preg s .td 0x108) 0 30 : Int) + sgn 16 (fld (preg s .td 0x10C) 0 16)

/-- TD_CTRL fields. -/
def tdMaster (s : State) : Bool := bit (preg s .td 0x100) 0

def tdSrc (s : State) : Nat := fld (preg s .td 0x100) 1 4

/-- A difference of phases taken around the step: between minus and plus half its length. -/
def wrapOff (off : Int) (len64 : Int) : Int :=
  if len64 = 0 then off
  else
    let m := off % len64
    if 2 * m < len64 then m else m - len64

/-- The length of the step is settled: entries that it leaves out of reach set UNREACHED in every timetable (R61). -/
def lenSettled (s : State) : State := (List.finRange 256).foldl unreachedCheck s

/-- A miss takes a LOCKED follower to HOLDOVER at once (R42), not under R68. -/
def entersHoldover (s : State) : Bool :=
  decide (s.tide.mode = .locked) && !(decide (fld (preg s .td 0x138) 0 16 = 0))

/-- A miss (R41, R42): counted and reported, with the further sources that the frame set, lowest first (03 R91); a LOCKED follower enters
HOLDOVER, or with TD_HOLD_MAX 0 waits for the boundary (R68); a follower that had adopted a frame in HUNT hunts afresh. The last length
received stays in force, so the step's length is settled (R42). -/
def tideMissed (s : State) (more : List Nat := []) : State :=
  let hold := entersHoldover s
  let s1 := raiseErrs (cntPreg s .td 0x14C 1) .td (more ++ (if hold then [1, 2] else [1]))
  let s2 := if s1.tide.seen then s1 else lenSettled { s1 with tide := { s1.tide with seen := true } }
  match s2.tide.mode with
  | .locked =>
    if hold then setPreg (setMode s2 .holdover) .td 0x13C 0
    else { s2 with tide := { s2.tide with missed := true } }
  | .hunt => { s2 with tide := { s2.tide with adopted := false } }
  | _ => s2

/-- Records a usable offset (R40): the boundary at the end of this step applies the correction. -/
def useOffset (s : State) (off : Int) : State :=
  setPreg { s with tide := { s.tide with corr := off, seen := true } } .td 0x144 (BitVec.ofNat 32 (fld (ofInt 18 off) 0 18))

/-- Records the offset of the frame that ends a holdover (R44): the next step is lengthened or shortened by it. -/
def relockOffset (s : State) (off : Int) : State :=
  setPreg { s with tide := { s.tide with corr := 0, corrNext := off, seen := true } } .td 0x144 (BitVec.ofNat 32 (fld (ofInt 18 off) 0 18))

/-- The follower takes length and grain of the step from its frame (R38), which settles the step's length (R61). -/
def takeLen (s : State) (f : FrameInfo) : State :=
  lenSettled { s with tide := { s.tide with len := BitVec.ofNat 27 f.len, grain4 := f.grain4 } }

/-- A follower's first valid frame in HUNT gives step, length and alignment (R42). -/
def adoptFrame (s : State) (f : FrameInfo) (off : Int) : State :=
  let p := ((phase64 s : Int) - off) % ((f.len : Int) * 64)
  { s with tide := { s.tide with step := f.step, len := BitVec.ofNat 27 f.len, grain4 := f.grain4, adopted := true, seen := true
                                 phase := BitVec.ofNat 26 (p.toNat / 64), frac := BitVec.ofNat 6 (p.toNat % 64) } }

/-- A valid frame from the selected source, whose offset is `raw` 1/64 tk before it is taken around the step (R40, R42, R44). In HALTED frames
still give length and offset, and nothing but RELOCK leaves it (assumption 11). -/
def validFrame (s : State) (f : FrameInfo) (raw : Int) : State :=
  let s0 := cntPreg { s with tide := { s.tide with hops := f.hops } } .td 0x148 1
  let off := wrapOff raw ((f.len : Int) * 64)
  let inWin := decide (off.natAbs ≤ fld (preg s0 .td 0x140) 0 18)
  let own := decide (f.step = s0.tide.step)
  match s0.tide.mode with
  | .hunt =>
    if s0.tide.adopted = false then adoptFrame s0 f raw
    else if own && inWin then
      setMode (takeLen (useOffset { s0 with tide := { s0.tide with adopted := false, begun := true } } off) f) .locked
    else tideMissed s0
  | .locked | .halted =>
    if own && inWin then takeLen (useOffset s0 off) f
    else tideMissed s0 (if own then [] else [4])
  | .holdover | .freerun =>
    if own && inWin then setPreg (setMode (takeLen (relockOffset s0 off) f) .locked) .td 0x13C 0
    else tideMissed s0 (if own then [] else [4])
  | _ => s0

/-- A frame on an input that TD_CTRL.SRC does not select (R65). ERR_ADDR holds the number of the input as TD_SOURCE2 does, 0 for the pins and the
port's number plus 1 otherwise, which is the model's choice (assumption 18). -/
def secondSource (s : State) (input : Nat) (step : BitVec 48) : State :=
  raiseErr (setPreg s .td 0x150 (BitVec.ofNat 32 (input + step.toNat % 2 ^ 28 * 16))) .td 5 input

/-- A frame from an input, checked (R34, R35, R66). -/
def frameOf (s : State) (frame : BitVec 128) (raw : Int) : State :=
  if fld frame 0 16 = 0x650C then tideMissed s [6]
  else if fld frame 0 16 ≠ 0x9AF3 then s
  else if crc32Bits frame 96 ≠ BitVec.ofNat 32 (fld frame 96 32) then tideMissed s [0]
  else
    let f := frameInfo frame
    if lenValid f.len f.grain4 then validFrame s f raw else tideMissed s [8]

/-- A frame reaches the TIDE pins. A disabled page ignores it, and so does a master whose SRC selects the pins. -/
def tidePins (s : State) (frame : BitVec 128) (at64 : Nat) : State :=
  if s.tide.mode = .disabled then s
  else if tdSrc s ≠ 0 then secondSource s 0 (frameInfo frame).step
  else if s.tide.mode = .master then s
  else frameOf s frame ((at64 : Int) - tideDelay s)

/-- TIDE_FRAME (02 R40). -/
def execTideFrame (frame : BitVec 128) (at64 : BitVec 32) (s : State) : Res := .next (tidePins s frame at64.toNat)

/-- A TIDE word reaches a port (R47, 10 R444): the frame start is the arrival minus the carried phase. -/
def tideOnPort (s : State) (port : Fin 8) (word : BitVec 128) (at64 : Nat) : State :=
  let f := tideWordInfo word
  if s.tide.mode = .disabled ∨ (s.port port).st ≠ .up then s
  else if tdSrc s ≠ port.val + 1 then secondSource s (port.val + 1) f.step
  else if s.tide.mode = .master then s
  else if lenValid f.len f.grain4 then validFrame s f ((at64 : Int) - (fld word 83 32 : Int) - tideDelay s)
  else tideMissed s [8]

/-- XL_TIDE (02 R47). -/
def execXlTide (port : Fin 8) (word : BitVec 128) (at64 : BitVec 32) (s : State) : Res := .next (tideOnPort s port word at64.toNat)

/-- No usable frame start came at the expected phase (R41): a miss, for a follower that expects one and has seen none this step. -/
def missDue (s : State) : Bool :=
  !s.tide.seen && (match s.tide.mode with
    | .locked | .holdover | .freerun | .halted => true
    | .hunt => s.tide.adopted
    | _ => false)

/-- TIDE_MISS (02 R42). -/
def execTideMiss (s : State) : Res := .next (if missDue s then tideMissed s else s)

/-- What follows a full holdover (R43). -/
def holdOutcome (s : State) : State :=
  if bit (preg s .td 0x100) 5 then setMode s .freerun
  else
    let s1 := raiseErr s .td 3
    setMode { s1 with tide := { s1.tide with haltDue := true } } .halted

/-- HOLD_EXPIRED (02 R43): TD_HOLD_CNT has reached TD_HOLD_MAX. -/
def execHoldExpired (s : State) : Res :=
  .next (if s.tide.mode = .holdover ∧ fld (preg s .td 0x138) 0 16 ≤ fld (preg s .td 0x13C) 0 16 then holdOutcome s else s)

/-- REF_LOSS (02 R71). -/
def execRefLoss (s : State) : Res :=
  .next (if s.tide.refOk then raiseErr { s with tide := { s.tide with refOk := false } } .td 7 else s)

/-- REF_OK (02 R36). -/
def execRefOk (s : State) : Res := .next { s with tide := { s.tide with refOk := true } }

/-- The tide starts in the role of TD_CTRL (R36, R46). -/
def tideStart (s : State) (again : Bool) : State :=
  let len := fld (preg s .td 0x124) 0 27
  let t := { tideReset with refOk := s.tide.refOk, mode := s.tide.mode }
  if tdMaster s then
    if lenOk len then setMode { s with tide := { t with len := BitVec.ofNat 27 len, grain4 := decide (2 ^ 24 < len) } } .master
    else raiseErr (rejectEnable s .td 8 again) .td 8
  else setMode { s with tide := t } .hunt

/-- The tide stops: step and phase hold at 0 (R46). -/
def tideStop (s : State) : State :=
  setMode { s with tide := { tideReset with refOk := s.tide.refOk, mode := s.tide.mode } } .disabled

/-- A write of CTRL of the TD page. -/
def tdCtrlEnable (s : State) (v : W32) : State :=
  let was := enabled s .td
  let w := pageWrite s .td 8 v
  if w.ok = false then w.st
  else if was = false ∧ enabled w.st .td = true then tideStart w.st w.rej
  else if was = true ∧ enabled w.st .td = false then tideStop w.st
  else w.st

/-- TD_ENABLE (02 R36). SOFT_RESET in the same word has its own row. -/
def execTdEnable (v : W32) (s : State) : Res := .next (tdCtrlEnable s (setBit v 2 false))

/-- RELOCK (R44): a follower halts dispatch from the next boundary and hunts; on a master it does nothing. -/
def relockAct (s : State) : State :=
  match s.tide.mode with
  | .disabled | .master => s
  | _ => setMode { s with tide := { s.tide with haltDue := true, adopted := false } } .hunt

/-- Dispatch is halted or about to be (R45). -/
def haltPending (s : State) : Bool := s.tide.halt || s.tide.haltDue

/-- A write of TD_CTRL: RELOCK acts at once; RESUME runs until dispatch resumes (R44, R45). -/
def tdCtrlWrite (s : State) (v : W32) : State :=
  let w := pageWrite s .td 0x100 v
  let s1 := if w.started 8 then goDone (relockAct w.st) .td 0x100 8 else w.st
  if w.started 9 then
    (if haltPending s1 then { s1 with tide := { s1.tide with resume := true } } else goDone s1 .td 0x100 9)
  else s1

/-- RELOCK (02 R44). -/
def execRelock (v : W32) (s : State) : Res := .next (tdCtrlWrite s v)

/-- TD_RESUME (02 R45). -/
def execTdResume (v : W32) (s : State) : Res := .next (tdCtrlWrite s v)

/-- A write of TD_LEN_NEXT, TD_LEN_STEP_LO or _HI (R37, R67). -/
def tdLenWrite (s : State) (reg : TdLenReg) (v : W32) : State :=
  match reg with
  | .lenNext =>
    if bit (preg s .td 0x44) 0 = false ∧ lenOk (fld v 0 27) = false then raiseErr s .td 8 (fld v 0 27)
    else (pageWrite s .td 0x124 v).st
  | .lenStepLo => (pageWrite s .td 0x128 v).st
  | .lenStepHi =>
    let w := pageWrite s .td 0x12C v
    if w.ok = true ∧ w.st.tide.mode = .master ∧ w.st.tide.adopted = true ∧ preg64 w.st .td 0x128 ≤ w.st.tide.step.toNat then
      raiseErr { w.st with tide := { w.st.tide with lenDue := true } } .td 9 (preg64 w.st .td 0x128)
    else w.st

/-- TD_LEN_NEXT_WRITE (02 R67). -/
def execTdLenNextWrite (reg : TdLenReg) (v : W32) (s : State) : Res := .next (tdLenWrite s reg v)

/-- A write of TD_WIN (R69): below 1 tk or above the current step it is rejected. A disabled page has no current step. -/
def tdWinWrite (s : State) (v : W32) : State :=
  let x := fld v 0 18
  let len := s.tide.len.toNat
  if bit (preg s .td 0x44) 0 = false ∧ (x < 64 ∨ (0 < len ∧ 64 * len < x)) then raiseErr s .td 10 x
  else (pageWrite s .td 0x140 v).st

/-- TD_WIN_WRITE (02 R69). -/
def execTdWinWrite (v : W32) (s : State) : Res := .next (tdWinWrite s v)

end Sys2Proof.Machine
end

