-- ==== Sys2Proof/Machine/Boundary.lean ====
section
/-! DEFINITION. The step boundary: the tide's own work, frames and words sent, timetables, slots, the standstill detector, and the tick (02
R33 to R47, R59 to R70; 04 R145 to R147; 10 R432, R444, R445, R455). -/

namespace Sys2Proof.Machine

/-! ## The tick and the boundary's moment (R33, R36, R46) -/

/-- Ticks by which the correction moves the boundary at the end of this step (R40, R44): above 0 the phase counter moves back, and stands on the
last tick that long; below 0 the step ends early. -/
def stepMove (t : Tide) : Int := -(((t.frac.toNat : Int) - t.corr) / 64)

/-- Phases that the current step runs through (R40, R44). -/
def stepLen (t : Tide) : Nat := ((t.len.toNat : Int) + min 0 (stepMove t)).toNat

/-- One tick of the phase: it waits on the last tick of a step for the boundary, and wraps at 2^26 tk in the initial HUNT. -/
def tickPhase (t : Tide) : Tide :=
  match t.mode with
  | .disabled => t
  | m =>
    if m = .master ∧ t.adopted = false then t
    else if t.len = 0 then { t with phase := t.phase + 1 }
    else if t.phase.toNat + 1 < stepLen t then { t with phase := t.phase + 1 }
    else if (t.waited : Int) < stepMove t then { t with waited := t.waited + 1 }
    else t

/-- The step's phases are over, and so are the ticks that a correction adds. -/
def stepOver (t : Tide) : Bool := decide (stepLen t ≤ t.phase.toNat + 1) && decide (stepMove t ≤ (t.waited : Int))

/-- A boundary occurs now: the master's first one at once after the enable, any other when the phase reaches the step length. None while the
page is disabled, or in the initial HUNT before a frame is adopted. -/
def boundaryDue (t : Tide) : Bool :=
  match t.mode with
  | .disabled => false
  | .master => !t.adopted || stepOver t
  | _ => decide (0 < t.len.toNat) && stepOver t

/-! ## The tide's own work -/

/-- Step number and length of the step that begins (R36, R37, R67). -/
def nextStep (s : State) : Tide :=
  let t := s.tide
  if t.mode = .master then
    if t.adopted = false then { t with step := BitVec.ofNat 48 (preg64 s .td 0x130), adopted := true, dispatching := true }
    else
      let k := t.step + 1
      let len := fld (preg s .td 0x124) 0 27
      if t.lenDue = true ∨ BitVec.ofNat 48 (preg64 s .td 0x128) = k then
        { t with step := k, len := BitVec.ofNat 27 len, grain4 := decide (2 ^ 24 < len), lenDue := false }
      else { t with step := k }
  else { t with step := t.step + 1 }

/-- The boundary takes the correction of the step that ends: its whole ticks have moved the boundary (`stepMove`), and the tick edge moves by
the fraction (R40). What a relock left for the next step waits for that step's end (R44). -/
def applyCorr (t : Tide) : Tide :=
  let total : Int := (t.frac.toNat : Int) - t.corr
  { t with phase := 0, frac := BitVec.ofNat 6 (total % 64).toNat, corr := t.corrNext, corrNext := 0, waited := 0, seen := false }

/-- Dispatch starts, halts, or resumes at this boundary (R44 to R46). `done` tells that RESUME completes. -/
def dispatchState (t : Tide) : Tide × Bool :=
  let held := decide (t.mode = .locked) || decide (t.mode = .master)
  let t1 := if t.begun then { t with dispatching := true } else t
  if t1.halt && t1.resume && held then ({ t1 with halt := t1.haltDue, haltDue := false, resume := false }, true)
  else if t1.haltDue then ({ t1 with halt := true, haltDue := false }, false)
  else (t1, false)

/-- The tide passes the boundary. -/
def tideBoundary (s : State) : State :=
  let r := dispatchState (applyCorr (nextStep s))
  let s1 := { s with tide := r.1 }
  let s2 := if r.2 then goDone s1 .td 0x100 9 else s1
  let s3 := if s2.tide.mode = .holdover then setPreg s2 .td 0x13C (BitVec.ofNat 32 (min 65535 (fld (preg s2 .td 0x13C) 0 16 + 1))) else s2
  if s3.tide.missed then
    let s4 := { s3 with tide := { s3.tide with missed := false } }
    if s4.tide.mode = .locked then holdOutcome s4 else s4
  else s3

/-- The frame on TIDE_OUT_DAT (R34, R36, R39). A follower's own frame of the step that begins has not arrived at its boundary, so LEN and GRAIN4
of the frame it sends are the last it knows, which is the model's choice (assumption 50). -/
def outFrame (s : State) : BitVec 128 :=
  let t := s.tide
  let master := decide (t.mode = .master)
  let g := if t.grain4 then 4 else 1
  let hops := if master then 0 else min (t.hops.toNat + 1) 15
  let x : BitVec 128 := BitVec.ofNat 128 (0x9AF3 + t.step.toNat * 2 ^ 16 + (t.len.toNat / g - 1) % 2 ^ 24 * 2 ^ 64
    + b2n (decide (t.mode = .holdover)) * 2 ^ 88 + b2n (decide (t.mode = .freerun) || (master && !t.refOk)) * 2 ^ 89
    + b2n t.grain4 * 2 ^ 90 + hops * 2 ^ 92)
  setFld x 96 32 (crc32Bits x 96).toNat

/-- Frame, TIDE words and IDENT words of the boundary (R39, R47; 10 R420, R444). -/
def boundaryWords (s : State) : State :=
  let s1 := if bit (preg s .td 0x100) 7 then emit s (.tideFrame (outFrame s)) else s
  let carry := fld (preg s1 .td 0x100) 16 8
  (List.finRange 8).foldl (fun t n =>
    if (t.port n).st = .up then
      let t1 := if carry / 2 ^ n.val % 2 = 1 then sendWord t n (tideWord t) else t
      (identWords t1 n).foldl (fun u w => sendWord u n w) t1
    else t) s1

/-! ## Timetables (R52, R53, R59 to R63, R70) -/

/-- Entries of the ending step that were reached and not dispatched (R60, R63). -/
def pendingEntries (s : State) (id : Fin 256) : List (Bool × BitVec 9) :=
  let t := (s.core id).tt
  t.carried ++ (((List.range (ttCount s id t.bank)).drop t.next.toNat).filter fun i =>
    let e := ttEntry s id t.bank i
    eFires e s.tide.step.toNat && actKnown (eAct e) && !(eUnreached s e)).map fun i => (t.bank, BitVec.ofNat 9 i)

/-- The bank switch of a core (R59): at its step, or late. -/
def switchBank (s : State) (id : Fin 256) : State :=
  let t := (s.core id).tt
  let at_ := (ttReg s id 0x800C).toNat + (ttReg s id 0x8010).toNat % 2 ^ 16 * 2 ^ 32
  if t.armed = true ∧ at_ ≤ s.tide.step.toNat then
    let s1 := setTt s id { t with bank := !t.bank, armed := false }
    if at_ < s.tide.step.toNat then setTtReg s1 id 0x8014 (ttReg s1 id 0x8014 ||| 2) else s1
  else s

/-- A core's timetable at the boundary: `carried` was pending in the step that ended. A master knows the length of the step that begins, and
judges now which entries it never reaches; a follower judges when the length is settled (R61). -/
def ttBoundary (s : State) (id : Fin 256) (carried : List (Bool × BitVec 9)) : State :=
  let c := s.core id
  let lapsed := c.tt.sendQ.length
  let s2 := when (decide (0 < lapsed)) (fun t => setTtReg t id 0x8020 (satAdd (ttReg t id 0x8020) lapsed)) s
  let s3 := s2.setCoreRaw id { s2.core id with tt := { (s2.core id).tt with sendQ := [] } }
  let s4 := switchBank s3 id
  let t := (s4.core id).tt
  let run := ttEn s4 id && dispatchOn s4
  let s5 := setTt s4 id { t with running := run, next := 0, places := 0, lastPhase := 0, carried := (if run then carried else []) }
  if s5.tide.mode = .master then unreachedCheck s5 id else s5

/-- Every mark count returns to 0 at each step boundary (05 R184). -/
def clearMarks (s : State) : State :=
  (List.finRange 256).foldl (fun t id => t.setCoreRaw id { t.core id with mark := 0, markTick := none, markBefore := 0 }) s

/-- All timetables. What is pending is seen before the step number changes. -/
def ttBoundaries (s : State) (old : State) : State :=
  (List.finRange 256).foldl (fun t id =>
    ttBoundary t id (if (old.core id).tt.running && dispatchOn old then pendingEntries old id else [])) s

/-! ## Ports (10 R432, R445, R454 to R456; 11 R480) -/

/-- The slot bank's switch, and the slot that ran past the step's end. -/
def slotBoundary (s : State) (n : Fin 8) : State :=
  let s1 := closeSlot s n
  let p := s1.port n
  let at_ := preg64 s1 (.xl n) 0x140 % 2 ^ 48
  if p.armed = true ∧ at_ ≤ s1.tide.step.toNat then
    let s2 := goDone (s1.setPort n { p with bank := !p.bank, armed := false }) (.xl n) 0x138 0
    if at_ < s1.tide.step.toNat then orPreg s2 (.xl n) 0x138 4 else s2
  else s1

/-- A port at the boundary. -/
def portBoundary (s : State) (n : Fin 8) : State :=
  let s1 := slotBoundary s n
  let p := s1.port n
  let slots := (List.range 32).any fun i => (slotEntry s1 n p.bank i).isSome
  let eq := if p.eqDone then 0 else if slots then satAdd p.eqSteps 1 else p.eqSteps
  s1.setPort n { p with overlapSet := false, eqDone := false, eqSteps := eq }

/-- The steps of an UP port between its measurements (10 R445). -/
def rttBoundary (s : State) (n : Fin 8) : State :=
  let p := s.port n
  let period := fld (preg s (.xl n) 0x11C) 0 16
  if p.st ≠ .up then s
  else
    let s1 := s.setPort n { p with rttSteps := p.rttSteps + 1 }
    if 0 < period ∧ period ≤ p.rttSteps.toNat + 1 then measureDue s1 n else s1

/-! ## The standstill detector (04 R145 to R148, R163 to R165) -/

/-- GC_STATE.STATE (04 R130). -/
def coreStateCode : CoreState → Nat
  | .reset => 0
  | .parked => 1
  | .run => 2
  | .wait => 3
  | .halt => 4
  | .fenced => 5

/-- The cores of a partition. -/
def partCores (s : State) (q : Nat) : List (Fin 256) := (List.finRange 256).filter fun id => decide (partOf s id = q)

/-- A blocking wait: causes 1 to 4 (04 R131). -/
def blocking (c : Core) : Bool := decide (c.st = .wait) && decide (1 ≤ c.cause.toNat) && decide (c.cause.toNat ≤ 4)

/-- A core that does not keep its partition from qualifying. -/
def stands (c : Core) : Bool :=
  blocking c || decide (c.st = .parked) || decide (c.st = .halt) || decide (c.st = .fenced) || decide (c.st = .reset)

/-- A timetable entry of a core fires in the step that begins (R145). -/
def ttFires (s : State) (id : Fin 256) : Bool :=
  let t := (s.core id).tt
  ttEn s id && (List.range (ttCount s id t.bank)).any fun i => eFires (ttEntry s id t.bank i) s.tide.step.toNat

/-- A partition qualifies (R145). -/
def qualifies (s : State) (q : Nat) : Bool :=
  let ids := partCores s q
  let isIn (k : Nat) : Bool := ids.any fun id => decide (id.val = k)
  (ids.any fun id => blocking (s.core id)) && (ids.all fun id => stands (s.core id))
    && !(s.mesh.any fun m => isIn m.dst.val) && !(s.fares.any fun m => isIn (m.dst.toNat % 256))
    && !(s.clusters.toList.any fun c => c.mover.queues.toList.any fun l => l.any fun m =>
        match m.core with | some id => isIn id.val | none => false)
    && !(ids.any fun id => ttFires s id)

/-- The STANDSTILL entry of a core (13 R554). -/
def logStill (s : State) (id : Fin 256) : State :=
  let c := s.core id
  let l := s.lock (fin 1024 (c.target.toNat % 1024))
  let lock := if c.cause = 3 then l.owner.toNat * 2 ^ 96 + l.epoch.toNat * 2 ^ 112 else 0
  offer s 2 ((gcAddr s id.val).toNat + coreStateCode c.st * 2 ^ 16 + c.cause.toNat * 2 ^ 24 + c.target.toNat * 2 ^ 32
    + (if c.st = .wait then c.waitStep.toNat else 0) * 2 ^ 64 + lock)

/-- The ERR_STAT source of a partition (R147): as any error, but its interrupt goes to the partition's own host context, and one that is
declared while INT_STAT.ERR still stands for another partition sends its interrupt all the same. -/
def raiseStill (s : State) (q : Nat) : State :=
  let s1 := noteErr s .sd q 0
  if maskedSrc s .sd q then s1
  else
    let m := mkMsg (pageType .sd) (pageInst .sd) q (sevOf s .sd q) 0 0 0 false
    let s2 := orPreg { s1 with fc := { s1.fc with coming := s1.fc.coming ++ [m] } } .sd 0x30 1
    updateInta (if bit (preg s2 .sd 0x34) 0 then sendMsix s2 (fin 32 (16 + ctxOfPart s2 q)) else s2)

/-- STANDSTILL of a partition (R147). -/
def declareStill (s : State) (q : Nat) : State :=
  let s1 := raiseStill s q
  let s2 := cntPreg (setPreg64 (orPreg s1 .sd 0x118 (one32 q)) .sd 0x120 s1.tide.step.toNat) .sd 0x128 1
  (partCores s2 q).foldl logStill s2

/-- The detector at a boundary. -/
def detect (s : State) : State :=
  let watch := fld (preg s .sd 0x110) 0 16
  let on := enabled s .sd
  let quals : W16 := (List.range 16).foldl (fun m q => if on && decide (watch / 2 ^ q % 2 = 1) && qualifies s q then setBit m q true else m) 0
  let still := (List.range 16).filter fun q => quals.getLsbD q && s.sdArmed.getLsbD q && !(s.sdChanged.getLsbD q)
  still.foldl declareStill (setPreg { s with sdArmed := quals, sdChanged := 0 } .sd 0x114 (quals.setWidth 32))

/-! ## The boundary -/

/-- The clusters' loops start a new step (11 R473, R477). -/
def pwBoundary (s : State) : State :=
  (List.finRange 16).foldl (fun t cl => t.setPw cl { t.pw cl with boundaryUsed := false, stretchStep := 0, deep := false }) s

/-- The placement loop counts the steps of its window (11 R484). -/
def plBoundary (s : State) : State := if enabled s .pl then { s with pl := { s.pl with steps := s.pl.steps + 1 } } else s

/-- Everything that happens on a boundary tick. Timetables, slots, the detector and the loops see boundaries only once the tide has locked
(R46). -/
def boundary (s : State) : State :=
  let s1 := clearMarks (tideBoundary s)
  let s2 := if s1.tide.dispatching then
      detect (plBoundary (pwBoundary ((List.finRange 8).foldl portBoundary (ttBoundaries s1 s))))
    else s1
  boundaryWords ((List.finRange 8).foldl rttBoundary s2)

/-- STEP_BOUNDARY (02 R33). -/
def execStepBoundary (s : State) : Res := .next (if boundaryDue s.tide then entriesInOrder s.lb.inq.length (boundary s) else s)

end Sys2Proof.Machine
end

