-- ==== Sys2Proof/Machine/Drain.lean ====
section
/-! DEFINITION. Draining the holders of translations: INVALIDATE, VT_CLEAR and VT_CTX_EN (07 R298 to R300, R304, R305, R310 to R315). -/

namespace Sys2Proof.Machine

/-- A translation covers part of the 32 MiB units `first` to `last`. -/
def Xlat.meets (x : Xlat) (first last : Nat) : Bool :=
  decide (x.va.toNat / 2 ^ 25 ≤ last) && decide (first < (x.va.toNat + pageBytes x.big) / 2 ^ 25)

/-- The units a mapping slot covers meet a range. -/
def MapSlot.meets (x : MapSlot) (first last : Nat) : Bool :=
  decide (x.base.toNat / 2 ^ 25 ≤ last) && decide (first < (x.base.toNat + pageBytes x.big) / 2 ^ 25)

/-- A segment holds a translation of the range. -/
def Seg.meets (g : Seg) (first last : Nat) : Bool := g.pages.any fun p => p.2.meets first last

/-- What a drain does to one manifest (R299): nothing, an orphan's end, or the remainder of its segments translated again. -/
inductive Drained where
  | kept
  | orphan
  | again
  deriving DecidableEq, Repr

/-- A manifest whose record is written ends as it does; one halted in PARTIAL holds its record and flag slots alone (R310). -/
def drainKind (m : Manifest) (ctx : Fin 16) (first last : Nat) : Drained :=
  let meets (g : Option Seg) : Bool := match g with | some x => x.meets first last | none => false
  let written := match m.ending with | some e => decide (e.stage = .seen) | none => false
  if m.ctx ≠ ctx ∨ written = true then .kept
  else if m.recX.meets first last || (match m.flagX with | some x => x.meets first last | none => false) then .orphan
  else if m.halted || m.ending.isSome then .kept
  else if meets m.seg || meets m.next then .again
  else .kept

/-- The remainder of the affected segments of a manifest is translated again (R293, R299). Where it fails, the manifest stops there (R301); where it comes
out shorter, the next segment begins after it. -/
def retranslate (s : State) (m : Manifest) (first last : Nat) (ue : List (BitVec 23)) : State × Manifest :=
  let r : State × Manifest := match m.seg with
    | some g =>
      if g.meets first last then
        let left := g.first + g.count - m.done
        let c := cutFrom s m.ctx m.desc m.limit m.done left ue
        let upper := match m.next with | some h => decide (c.2.count = left) && !h.upper | none => false
        (c.1, { m with seg := (if c.2.count = 0 then none else some ⟨m.done, c.2.count, c.2.pages, upper⟩)
                       next := (if c.2.count = left then m.next else none)
                       stopAt := (if c.2.count = left then m.stopAt else c.2.fail.map fun f => (f.1, f.2.setWidth 48)) })
      else (s, m)
    | none => (s, m)
  match r.2.next with
  | some h =>
    if h.meets first last then
      let c := cutFrom r.1 m.ctx m.desc m.limit h.first h.count ue
      (c.1, { r.2 with next := (if c.2.count = 0 then none else some ⟨h.first, c.2.count, c.2.pages, h.upper⟩)
                       stopAt := (if c.2.count = h.count then r.2.stopAt else c.2.fail.map fun f => (f.1, f.2.setWidth 48)) })
    else r
  | none => r

/-- The queues of all movers. -/
def allQueues : List (Fin 16 × Fin 4) := (List.finRange 16).flatMap fun cl => (List.finRange 4).map fun q => (cl, q)

/-- The manifests that hold a translation of a range of a context. -/
def drainHits (s : State) (ctx : Fin 16) (first last : Nat) : List (Fin 16 × Fin 4 × W32) :=
  allQueues.flatMap fun x => ((mQueueOf s x.1 x.2).filter fun m => decide (drainKind m ctx first last ≠ .kept)).map fun m => (x.1, x.2, m.no)

/-- A drain begins (R299): the manifests that hold a translation of the range issue nothing more; it waits where `begun` is false. -/
def startDrain (s : State) (ctx : Fin 16) (first last : Nat) (ending : DrainEnd) (begun : Bool) : State :=
  { s with drains := s.drains ++ [⟨ctx, first, last, (s.ctxs.get ctx).gen, ending, begun, if begun then drainHits s ctx first last else []⟩] }

/-- A drain that waited begins once no drain of its context is before it (R315). -/
def beginDrains (s : State) : State :=
  { s with drains := s.drains.zipIdx.map fun x =>
      if x.1.begun = false ∧ ((s.drains.take x.2).any fun e => decide (e.ctx = x.1.ctx)) = false then
        { x.1 with begun := true, gen := (s.ctxs.get x.1.ctx).gen, hit := drainHits s x.1.ctx x.1.first x.1.last }
      else x.1 }

/-- The drain's work on one queue at its end: the queue without its orphans, and the counts translated again, stopped, orphaned (R299, R300). -/
def drainQueue (s : State) (cl : Fin 16) (q : Fin 4) (d : Drain) (ue : List (BitVec 23)) : State × Nat × Nat × Nat :=
  let r := (mQueueOf s cl q).foldl (fun (a : State × List Manifest × Nat × Nat × Nat) m =>
    match (if d.hit.contains (cl, q, m.no) then drainKind m d.ctx d.first d.last else .kept) with
    | .kept => (a.1, a.2.1 ++ [m], a.2.2)
    | .orphan =>
      let t := raiseErr (manifestEvent a.1 m) .vt 2 (m.no.toNat + cl.val * 2 ^ 32 + q.val * 2 ^ 36)
      (t, a.2.1, a.2.2.1, a.2.2.2.1, a.2.2.2.2 + 1)
    | .again =>
      let c := retranslate a.1 m d.first d.last ue
      (c.1, a.2.1 ++ [c.2], a.2.2.1 + 1, a.2.2.2.1 + b2n (c.2.stopAt.isSome && m.stopAt.isNone), a.2.2.2.2)) (s, [], 0, 0, 0)
  (setQueue r.1 cl q r.2.1, r.2.2)

/-- The drain's work on every queue. -/
def drainMovers (s : State) (d : Drain) (ue : List (BitVec 23)) : State × Nat × Nat × Nat :=
  allQueues.foldl (fun (a : State × Nat × Nat × Nat) x =>
    if d.hit.any fun h => decide (h.1 = x.1) && decide (h.2.1 = x.2) then
      let r := drainQueue a.1 x.1 x.2 d ue
      (r.1, a.2.1 + r.2.1, a.2.2.1 + r.2.2.1, a.2.2.2 + r.2.2.2)
    else a) (s, 0, 0, 0)

/-- The whole space of a context, in 32 MiB units. -/
def lastUnit : Nat := 2 ^ 23 - 1

/-- VALID slots of a core that a drain takes. -/
def drainSlots (s : State) (id : Fin 256) (d : Drain) : List (Fin 16) :=
  if ctxOfPart s (partOf s id) ≠ d.ctx.val then []
  else (List.finRange 16).filter fun k =>
    let x := (s.core id).slots.get k
    decide (x.st = .valid) && x.meets d.first d.last

/-- Every access through the slots a drain takes has completed, and every element that its manifests have issued is visible (R299). -/
def drainReady (s : State) (d : Drain) : Bool :=
  ((List.finRange 256).all fun id => (drainSlots s id d).all fun k => !((s.core id).access.any fun a => decide (a.slot = k) && !a.lost))
    && d.hit.all fun h => !(streamBusy s (16 + h.1.val) h.2.1.val)

/-- The slots a drain takes become INVALID; how many. -/
def dropSlots (s : State) (d : Drain) : State × Nat :=
  (List.finRange 256).foldl (fun (a : State × Nat) id =>
    let ks := drainSlots a.1 id d
    if ks.isEmpty then a
    else
      let c := a.1.core id
      (wakeCore (a.1.setCore id { c with slots := ks.foldl (fun (v : Vector MapSlot 16) (k : Fin 16) => v.set k mapSlotReset) c.slots }) id, a.2 + ks.length)) (s, 0)

/-- The longest drain so far, in ns (R304): how long this one took is a free value (assumption 8). -/
def noteDrain (s : State) : State :=
  let f := takeFresh s
  let old := preg s .vt 0x128
  setPreg f.2 .vt 0x128 (if old < Config.freeTime f.1 then Config.freeTime f.1 else old)

/-- A write of VT_CLEAR (R304): CLEAR drains the whole context, after the drains of it that are in progress (R315). -/
def vtClearWrite (s : State) (v : W32) : State :=
  let w := pageWrite s .vt 0x104 v
  let ctx := fin 16 (fld v 0 4)
  if w.started 8 then startDrain w.st ctx 0 lastUnit .clear !(draining w.st ctx.val) else w.st

/-- VT_CLEAR (07 R304). -/
def execVtClear (v : W32) (s : State) : Res := .next (vtClearWrite s v)

/-- A write of VT_CTX_EN (R305): a bit written 0 stays 1 until its context is drained. -/
def vtCtxEnWrite (s : State) (v : W32) : State :=
  let old := fld (preg s .vt 0x100) 0 16
  let w := pageWrite s .vt 0x100 v
  let gone := (List.finRange 16).filter fun m => bit (BitVec.ofNat 16 old) m.val && !(bit (preg w.st .vt 0x100) m.val)
  gone.foldl (fun t m => startDrain (orPreg t .vt 0x100 (one32 m.val)) m 0 lastUnit .disable true) w.st

/-- VT_CTX_EN_WRITE (07 R305). -/
def execVtCtxEnWrite (v : W32) (s : State) : Res := .next (vtCtxEnWrite s v)

end Sys2Proof.Machine
end

