-- ==== Sys2Proof/Machine/Mailbox.lean ====
section
/-! DEFINITION. The ferry mailbox: slots, the duplicate window, the command set, responses, and the end of an INVALIDATE (06 R244 to R253,
R266 to R280; 07 R287, R288, R298 to R300). -/

namespace Sys2Proof.Machine

/-! ## Slots and registers (R244, R253) -/

/-- BAR4 offset of a slot (R244). -/
def slotBase (mb : Fin 16) (slot : Fin 512) : Nat := mb.val * 0x10000 + slot.val * 0x80

/-- The 128 bytes of a slot. -/
def slotBits (s : State) (mb : Fin 16) (slot : Fin 512) : BitVec 1024 := BitVec.ofNat 1024 (bytesNat (readBytes s.bar4 (slotBase mb slot) 128))

/-- Offset of a mailbox's registers. -/
def mbOff (mb : Fin 16) : Nat := 0x100 + 0x20 * mb.val

/-- ERR_ADDR of an FM source: mailbox and slot (R253; packing assumption 18). -/
def mbAddr (mb : Fin 16) (slot : Fin 512) : Nat := slot.val + mb.val * 512

def State.mailbox (s : State) (mb : Fin 16) : Mailbox := s.mailboxes.get mb

def State.setMailbox (s : State) (mb : Fin 16) (x : Mailbox) : State := { s with mailboxes := s.mailboxes.set mb x }

/-- A mailbox takes commands. -/
def mbOn (s : State) (mb : Fin 16) : Bool := enabled s .fm && bit (preg s .fm (mbOff mb)) 0

/-! ## Responses (R246) -/

/-- The response line: status, original status, step, result, sequence number. -/
def respLine (s : State) (seq : W16) (status orig : Nat) (result : Nat) : BitVec 512 :=
  BitVec.ofNat 512 (status % 2 ^ 16 + orig % 2 ^ 16 * 2 ^ 16 + s.tide.step.toNat % 2 ^ 32 * 2 ^ 32 + result % 2 ^ 384 * 2 ^ 64
    + (seq.toNat + 2 ^ 31) * 2 ^ 480)

/-- Writes the response of a slot: a whole host line, of which every copy in the device goes (08 R321). The response to a command taken in a freeze is
held (09 R391). -/
def respond (s : State) (mb : Fin 16) (slot : Fin 512) (seq : W16) (status orig result : Nat) (frozen : Bool := false) : State :=
  let addr := preg64 s .fm (mbOff mb + 8) + 64 * slot.val
  let l := lineOf true addr
  let s1 := if s.frz.on then s else (dropCopies (cancelMiss s l) l none).1
  let s2 := if s.frz.on then s else setSl s1 l { slGet s1 l with data := none, dirty := false, poison := 0, cxl := none }
  sendWrite s2 { master := 33, core := BitVec.ofNat 8 mb.val, addr := BitVec.ofNat 64 addr
                 bytes := natBytes 64 (respLine s seq status orig result).toNat, peer := false, relaxed := false, poison := false, frozenResp := frozen
                 response := some (BitVec.ofNat 16 (mbAddr mb slot)) }

/-- Records the status of an accepted number (R252). -/
def recordStatus (x : Mailbox) (seq : W16) (st : W16) : Mailbox :=
  { x with results := x.results.map fun e => if e.1 = seq then (seq, some st) else e }

/-- A command ends: its status is recorded if it is in the window, it is answered, and its duplicates after it (R252). -/
def answer (s : State) (mb : Fin 16) (slot : Fin 512) (seq : W16) (recorded : Bool) (dups : List (Fin 512)) (status result : Nat)
    (frozen : Bool := false) : State :=
  let x := s.mailbox mb
  let s1 := if recorded then s.setMailbox mb (recordStatus x seq (BitVec.ofNat 16 status)) else s
  dups.foldl (fun t k => respond t mb k seq 1 status 0) (respond s1 mb slot seq status 0 result frozen)

/-- Lines of an inline write that can be written now are, lowest first (R250): the first must be ready, and one that is visible at once waits for the
writes of the mailbox before it. The lines left. -/
def inlineRun (mb : Fin 16) : List (Line × BitVec 512 × BitVec 64) → State → State × List (Line × BitVec 512 × BitVec 64)
  | [], s => (s, [])
  | p :: rest, s =>
    if postReady s p.1 33 = false then (postAsk s p.1 33, p :: rest)
    else if seenAtOnce s p.1 && streamBusy s 33 mb.val then (s, p :: rest)
    else inlineRun mb rest (postWrite s p.1 33 mb.val p.2.1 p.2.2 0 false)

/-- An ABORT's manifest has ended (07 R303). -/
def abortOver (s : State) (cl : Fin 16) (q : Fin 4) (no : W32) : Bool := !((mQueueOf s cl q).any fun m => decide (m.no = no))

/-- One unanswered command of a mailbox is looked at; `left`: those before it that go on waiting. A FENCE waits for all of them and for every write of the
mailbox to be visible; an inline write for those before it (R247, R250). -/
def takenStep (mb : Fin 16) (a : State × List Taken) (t : Taken) : State × List Taken :=
  let done (s : State) : State × List Taken := (if t.silent then s else answer s mb t.slot t.seq t.recorded t.dups 0 0, a.2)
  match t.kind with
  | .invalidate => (a.1, a.2 ++ [t])
  | .fence => if a.2.isEmpty && !(streamBusy a.1 33 mb.val) then done a.1 else (a.1, a.2 ++ [t])
  | .abort cl q no => if abortOver a.1 cl q no then done a.1 else (a.1, a.2 ++ [t])
  | .inline ps =>
    if a.2.any fun u => match u.kind with | .inline _ => true | _ => false then (a.1, a.2 ++ [t])
    else
      let r := inlineRun mb ps a.1
      if r.2.isEmpty then done r.1 else (r.1, a.2 ++ [{ t with kind := .inline r.2 }])

/-- The unanswered commands of a mailbox go on, oldest first. -/
def mbPump (s : State) (mb : Fin 16) : State :=
  if (s.mailbox mb).taken.isEmpty then s
  else
    let r := (s.mailbox mb).taken.foldl (takenStep mb) (s, [])
    r.1.setMailbox mb { r.1.mailbox mb with taken := r.2 }

/-- A command joins the unanswered ones. -/
def addTaken (s : State) (mb : Fin 16) (t : Taken) : State := s.setMailbox mb { s.mailbox mb with taken := (s.mailbox mb).taken ++ [t] }

/-! ## The duplicate window (R252) -/

/-- How a taken number is classed. -/
inductive SeqClass where
  | fresh
  | dup (st : Option W16)
  | late
  | old
  deriving DecidableEq, Repr

def classify (x : Mailbox) (seq : W16) : SeqClass :=
  let ahead := (seq - x.h).toNat
  let behind := (x.h - seq).toNat
  if x.empty ∨ (1 ≤ ahead ∧ ahead ≤ 32767) then .fresh
  else if behind ≤ 1023 then
    (match x.results.find? fun e => decide (e.1 = seq) with
      | some e => .dup e.2
      | none => .late)
  else .old

/-- A number is accepted into the window; numbers 1,024 or more behind H leave it. -/
def accept (x : Mailbox) (seq : W16) (c : SeqClass) : Mailbox :=
  let h := if c = .fresh then seq else x.h
  { x with h := h, empty := false, results := ((seq, none) :: x.results).filter fun e => decide ((h - e.1).toNat ≤ 1023) }

/-! ## The commands (R249 to R251) -/

/-- How a command is answered: at once, with its status and result bytes 8 to 55, or once what it waits for is over. -/
inductive Reply where
  | now (status result : Nat)
  | later (kind : TakenKind)

/-- What a command comes to. -/
structure Ran where
  st    : State
  reply : Reply

/-- Fields of a slot. -/
def sOp (d : BitVec 1024) : Nat := fld d 0 8

def sArg0 (d : BitVec 1024) : Nat := fld d 32 32

def sArg1 (d : BitVec 1024) : Nat := fld d 64 64

def sArg2 (d : BitVec 1024) : Nat := fld d 128 64

def sPayload (d : BitVec 1024) : Nat := fld d 192 768

def sCore (d : BitVec 1024) : Fin 256 := fin 256 (fld d 16 8)

/-- A reserved bit of the slot is set (R244). -/
def sReserved (d : BitVec 1024) : Bool := decide (fld d 14 2 ≠ 0) || decide (fld d 24 8 ≠ 0) || decide (fld d 976 48 ≠ 0)

/-- A cluster, or a core, lies in a partition of the mailbox's context (R231, R251). -/
def clusterAllowed (s : State) (mb : Fin 16) (cl : Nat) : Bool := decide (ctxOfPart s (partOfCluster s cl) = mb.val)

def coreAllowed (s : State) (mb : Fin 16) (id : Fin 256) : Bool := decide (ctxOfPart s (partOf s id) = mb.val)

/-- NOP: the step number and the phase. -/
def runNop (s : State) : Ran := ⟨s, .now 0 (s.tide.step.toNat + s.tide.phase.toNat * 2 ^ 64)⟩

/-- The descriptor of a SUBMIT at a physical address, and whether it is uncorrectable. -/
def fetchDesc (s : State) (x : Xlat) (va : Nat) (host : BitVec 1024) : State × BitVec 1024 × Bool :=
  let pa := x.phys va
  let a := lineOf (decide (x.kind = 1)) pa
  let b := lineOf (decide (x.kind = 1)) (pa + 64)
  let r1 := serveRdcur (askHost s a 0) a ⟨host.setWidth 2048, false, false⟩
  let r2 := serveRdcur (askHost r1.1 b 0) b ⟨(host >>> 512).setWidth 2048, false, false⟩
  (r2.1, BitVec.ofNat 1024 (r1.2.1.toNat + r2.2.1.toNat * 2 ^ 512), decide (r1.2.2 ≠ 0) || decide (r2.2.2 ≠ 0))

/-- SUBMIT (R232). A descriptor that is uncorrectable sets DESC_UE and is BAD_DESC (assumption 20). -/
def runSubmit (s : State) (mb : Fin 16) (d : BitVec 1024) (host : BitVec 1024) (ue : List (BitVec 23)) : Ran :=
  let cl := fin 16 (sArg0 d)
  let va := sArg1 d
  if va % 128 ≠ 0 then ⟨s, .now 2 0⟩
  else if clusterAllowed s mb cl.val = false then ⟨s, .now 3 0⟩
  else if bit (preg s (.cl cl) 0x200) 0 = false then ⟨s, .now 4 0⟩
  else
    let r := lookup s mb va 1 false (unitUe ue va)
    match r.2 with
    | .ok x =>
      let f := fetchDesc r.1 x va host
      if f.2.2 then ⟨raiseErr f.1 (.cl cl) 21 va, .now 6 0⟩
      else
        let q := submit f.1 cl mb none (fun id => coreAllowed s mb id) f.2.1 ue
        (match q.2 with
          | .ok no => ⟨q.1, .now 0 no.toNat⟩
          | .busy => ⟨q.1, .now 4 0⟩
          | .badDesc => ⟨q.1, .now 6 0⟩
          | .fault => ⟨q.1, .now 5 0⟩)
    | _ => ⟨r.1, .now 5 0⟩

/-- The pieces of a byte range, by line: offset of the piece in the range, address, length. -/
def linePieces (pa len : Nat) : List (Nat × Nat × Nat) :=
  let first := min len (64 - pa % 64)
  let rest := len - first
  [(0, pa, first)] ++ (if rest = 0 then [] else [(first, pa + first, min rest 64)])
    ++ (if rest ≤ 64 then [] else [(first + 64, pa + first + 64, rest - 64)])

/-- The pieces of an inline write: lines, data and mask. -/
def inlinePieces (host : Bool) (pa len payload : Nat) : List (Line × BitVec 512 × BitVec 64) :=
  (linePieces pa len).map fun p =>
    let off := p.2.1 % 64
    (lineOf host p.2.1, BitVec.ofNat 512 (payload / 2 ^ (8 * p.1) % 2 ^ (8 * p.2.2) * 2 ^ (8 * off)), BitVec.ofNat 64 ((2 ^ p.2.2 - 1) * 2 ^ off))

/-- A range lies in one page: that of its covering leaf, or, where none covers it, a 32 MiB unit. -/
def onePage (s : State) (mb : Fin 16) (va len : Nat) : Bool :=
  let n := match leafOf s mb va with | some (_, big) => pageBytes big | none => 2 ^ 25
  decide (va / n = (va + len - 1) / n)

/-- WRITE_INLINE (R250): one line at a time, lower address first, after the inline writes of the mailbox before it. -/
def runInline (s : State) (mb : Fin 16) (d : BitVec 1024) (ue : List (BitVec 23)) : Ran :=
  let len := sArg0 d % 128
  let va := sArg1 d
  if len = 0 ∨ 96 < len ∨ onePage s mb va len = false then ⟨s, .now 2 0⟩
  else
    let r := lookup s mb va 2 false (unitUe ue va)
    match r.2 with
    | .ok x => ⟨r.1, .later (.inline (inlinePieces (decide (x.kind = 1)) (x.phys va) len (sPayload d)))⟩
    | _ => ⟨r.1, .now 5 0⟩

/-- INJECT (R251, R271): into an EMPTY berth of a core that accepts messages. -/
def runInject (s : State) (mb : Fin 16) (d : BitVec 1024) : Ran :=
  let id := sCore d
  let len := sArg0 d / 2 ^ 16 % 128
  let berth := fin 16 (sArg0 d)
  let c := s.core id
  if len = 0 ∨ 96 < len then ⟨s, .now 2 0⟩
  else if coreAllowed s mb id = false then ⟨s, .now 3 0⟩
  else if c.st = .reset ∨ c.st = .fenced then ⟨s, .now 8 0⟩
  else if (c.berths.get berth).st ≠ .empty then ⟨s, .now 4 0⟩
  else
    let m : MeshMsg := { dst := id, berth := berth, src := 0xFFFF, chan := 0, epoch := 0, len := BitVec.ofNat 13 len
                         tag := BitVec.ofNat 32 (sArg2 d), evtEn := bit d 8, evt := BitVec.ofNat 5 (fld d 9 5)
                         data := natBytes len (sPayload d), via := none, lateEvt := none, filling := false }
    ⟨deliver (sdTouch s id) m true, .now 0 0⟩

/-- KICK: sets the event, as GC_KICK does. -/
def runKick (s : State) (mb : Fin 16) (d : BitVec 1024) : Ran :=
  let id := sCore d
  let c := s.core id
  if coreAllowed s mb id = false then ⟨s, .now 3 0⟩
  else if c.st = .reset ∨ c.st = .fenced then ⟨s, .now 8 0⟩
  else ⟨setEvent (sdTouch s id) id (BitVec.ofNat 5 (fld d 9 5)), .now 0 0⟩

/-- RESUME and ABORT (07 R302, R303). -/
def runResume (s : State) (mb : Fin 16) (d : BitVec 1024) (ue : List (BitVec 23)) : Ran :=
  let cl := fin 16 (sArg0 d)
  if clusterAllowed s mb cl.val = false then ⟨s, .now 3 0⟩
  else let r := resumeManifest s cl (fin 4 (sArg0 d / 16)) ue; ⟨r.1, .now r.2 0⟩

/-- ABORT answers once the record is visible (07 R303). -/
def runAbort (s : State) (mb : Fin 16) (d : BitVec 1024) : Ran :=
  let cl := fin 16 (sArg0 d)
  let q := fin 4 (sArg0 d / 16)
  if clusterAllowed s mb cl.val = false then ⟨s, .now 3 0⟩
  else
    let r := abortManifest s cl q
    match r.2 with
    | some no => ⟨r.1, .later (.abort cl q no)⟩
    | none => ⟨r.1, .now 7 0⟩

/-- TBL_WRITE (07 R287, R288): the generation at bytes 8 to 11, the reason at byte 12. -/
def runTbl (s : State) (mb : Fin 16) (d : BitVec 1024) : Ran :=
  let r := tblCommit s mb (BitVec.ofNat 32 (sArg0 d)) (sArg1 d) (sArg2 d % 16) (decide (sArg2 d / 256 % 2 = 1)) (sPayload d)
  ⟨r.1, .now (if r.2.1 then 0 else 2) (r.2.2.1.toNat + r.2.2.2 * 2 ^ 32)⟩

/-- INVALIDATE (07 R298): the range in 32 MiB units, none where it is out of range. -/
def invRange (d : BitVec 1024) : Option (Nat × Nat) :=
  if sArg0 d % 2 = 1 then some (0, lastUnit)
  else
    let n := sArg2 d % 2 ^ 24
    let va := sArg1 d
    if va % 2 ^ 25 ≠ 0 ∨ n = 0 ∨ 2 ^ 23 < n ∨ 2 ^ 23 < va / 2 ^ 25 + n then none else some (va / 2 ^ 25, va / 2 ^ 25 + n - 1)

def runInvalidate (s : State) (mb : Fin 16) (slot : Fin 512) (seq : W16) (d : BitVec 1024) : Ran :=
  match invRange d with
  | none => ⟨s, .now 2 0⟩
  | some (a, b) => ⟨startDrain s mb a b (.answer mb slot seq) true, .later .invalidate⟩

/-! ## Taking a command (R245, R247, R252, R266, R279) -/

/-- The take of a slot: `run` is the command. A slot of a disabled mailbox is discarded; a duplicate is not executed; in a freeze the answer is
FROZEN, and every response to a take is held for the release (R279; 09 R391). -/
def takeSlot (s : State) (mb : Fin 16) (slot : Fin 512) (seqWord : BitVec 64) (run : State → BitVec 1024 → W16 → Ran) : State :=
  let s0 := { s with bar4 := writeBytes s.bar4 (slotBase mb slot + 120) (natBytes 8 seqWord.toNat) }
  if mbOn s mb = false then raiseErr s0 .fm 1 (mbAddr mb slot)
  else
    let d := slotBits s0 mb slot
    let seq : W16 := BitVec.ofNat 16 (fld d 960 16)
    let s1 := cntPreg s0 .fm (mbOff mb + 0x14) 1
    let x := s1.mailbox mb
    match classify x seq with
    | .dup (some st) => respond (cntPreg s1 .fm (mbOff mb + 0x18) 1) mb slot seq 1 st.toNat 0 s.frz.on
    | .dup none =>
      let s2 := cntPreg s1 .fm (mbOff mb + 0x18) 1
      s2.setMailbox mb { x with taken := x.taken.map fun t => if t.seq = seq then { t with dups := t.dups ++ [slot] } else t }
    | c =>
      let recorded := decide (c ≠ .old)
      let s2 := if recorded then s1.setMailbox mb (accept x seq c)
        else raiseErr (cntPreg s1 .fm (mbOff mb + 0x1C) 1) .fm 4 (mbAddr mb slot)
      if s.frz.on then answer s2 mb slot seq recorded [] 9 0 true
      else
        let r := if sReserved d then (⟨s2, .now 2 0⟩ : Ran) else run s2 d seq
        match r.reply with
        | .now st result => answer r.st mb slot seq recorded [] st result
        | .later kind => mbPump (addTaken r.st mb ⟨slot, seq, kind, recorded, [], false⟩) mb

/-- The slot holds this OP. -/
def slotIs (s : State) (mb : Fin 16) (slot : Fin 512) (op : Nat) : Bool := decide (sOp (slotBits s mb slot) = op)

/-- MB_NOP (06 R249). A take of a slot that holds another OP is another row's (assumption 9). -/
def execMbNop (mb : Fin 16) (slot : Fin 512) (seqWord : BitVec 64) (s : State) : Res :=
  .next (if slotIs s mb slot 0x01 then takeSlot s mb slot seqWord (fun t _ _ => runNop t) else s)

/-- MB_SUBMIT (06 R232). -/
def execMbSubmit (mb : Fin 16) (slot : Fin 512) (seqWord : BitVec 64) (host : BitVec 1024) (ue : List (BitVec 23)) (s : State) : Res :=
  .next (if slotIs s mb slot 0x02 then takeSlot s mb slot seqWord (fun t d _ => runSubmit t mb d host ue) else s)

/-- MB_WRITE_INLINE (06 R250). -/
def execMbWriteInline (mb : Fin 16) (slot : Fin 512) (seqWord : BitVec 64) (ue : List (BitVec 23)) (s : State) : Res :=
  .next (if slotIs s mb slot 0x03 then takeSlot s mb slot seqWord (fun t d _ => runInline t mb d ue) else s)

/-- MB_INJECT (06 R251). -/
def execMbInject (mb : Fin 16) (slot : Fin 512) (seqWord : BitVec 64) (s : State) : Res :=
  .next (if slotIs s mb slot 0x04 then takeSlot s mb slot seqWord (fun t d _ => runInject t mb d) else s)

/-- MB_KICK (06 R249). -/
def execMbKick (mb : Fin 16) (slot : Fin 512) (seqWord : BitVec 64) (s : State) : Res :=
  .next (if slotIs s mb slot 0x05 then takeSlot s mb slot seqWord (fun t d _ => runKick t mb d) else s)

/-- MB_RESUME (07 R302). -/
def execMbResume (mb : Fin 16) (slot : Fin 512) (seqWord : BitVec 64) (ue : List (BitVec 23)) (s : State) : Res :=
  .next (if slotIs s mb slot 0x06 then takeSlot s mb slot seqWord (fun t d _ => runResume t mb d ue) else s)

/-- MB_ABORT (07 R303). -/
def execMbAbort (mb : Fin 16) (slot : Fin 512) (seqWord : BitVec 64) (s : State) : Res :=
  .next (if slotIs s mb slot 0x07 then takeSlot s mb slot seqWord (fun t d _ => runAbort t mb d) else s)

/-- MB_FENCE (06 R247). -/
def execMbFence (mb : Fin 16) (slot : Fin 512) (seqWord : BitVec 64) (s : State) : Res :=
  .next (if slotIs s mb slot 0x08 then takeSlot s mb slot seqWord (fun t _ _ => ⟨t, .later .fence⟩) else s)

/-- TBL_WRITE (07 R288). -/
def execTblWrite (mb : Fin 16) (slot : Fin 512) (seqWord : BitVec 64) (s : State) : Res :=
  .next (if slotIs s mb slot 0x10 then takeSlot s mb slot seqWord (fun t d _ => runTbl t mb d) else s)

/-- INVALIDATE (07 R299). -/
def execInvalidate (mb : Fin 16) (slot : Fin 512) (seqWord : BitVec 64) (s : State) : Res :=
  .next (if slotIs s mb slot 0x11 then takeSlot s mb slot seqWord (fun t d q => runInvalidate t mb slot q d) else s)

/-- The OPs of R249. -/
def knownOps : List Nat := [1, 2, 3, 4, 5, 6, 7, 8, 0x10, 0x11]

/-- MB_BAD_CMD (06 R249): any other OP. -/
def execMbBadCmd (mb : Fin 16) (slot : Fin 512) (seqWord : BitVec 64) (s : State) : Res :=
  .next (if knownOps.contains (sOp (slotBits s mb slot)) then s else takeSlot s mb slot seqWord (fun t _ _ => ⟨t, .now 2 0⟩))

/-! ## The end of a drain (07 R300) -/

/-- An INVALIDATE is answered. -/
def endTaken (s : State) (mb : Fin 16) (slot : Fin 512) (seq : W16) (status result : Nat) : State :=
  let x := s.mailbox mb
  let mine (t : Taken) : Bool := decide (t.seq = seq) && decide (t.slot = slot) && decide (t.kind = .invalidate)
  match x.taken.find? mine with
  | none => s
  | some t => mbPump (answer (s.setMailbox mb { x with taken := x.taken.filter fun u => !(mine u) }) mb slot seq t.recorded t.dups status result) mb

/-- The drain's end: its manifests are seen to, the slots are INVALID, and an INVALIDATE is answered, a CLEAR empties the tables, a disabled context is
off. -/
def drainEnd (s : State) (i : Nat) (ue : List (BitVec 23)) : State :=
  match s.drains[i]? with
  | none => s
  | some d =>
    if drainReady s d = false ∨ d.begun = false then s
    else
      let m := drainMovers s d ue
      let r := dropSlots m.1 d
      let s1 := noteDrain { r.1 with drains := dropAt r.1.drains i }
      let s2 := match d.ending with
        | .answer mb slot seq =>
          endTaken s1 mb slot seq 0 (d.gen.toNat + r.2 * 2 ^ 64 + m.2.1 * 2 ^ 96 + m.2.2.1 * 2 ^ 128 + m.2.2.2 * 2 ^ 160)
        | .clear => goDone { s1 with ctxs := s1.ctxs.set d.ctx vtCtxReset } .vt 0x104 8
        | .disable => clrPreg s1 .vt 0x100 (one32 d.ctx.val)
      beginDrains s2

/-- INVALIDATE_COMPLETE (07 R300). -/
def execInvalidateComplete (i : Nat) (ue : List (BitVec 23)) (s : State) : Res := .next (drainEnd s i ue)

/-! ## Mailbox control (R252, R253) -/

/-- The window is emptied. -/
def windowReset (s : State) (mb : Fin 16) : State := s.setMailbox mb { s.mailbox mb with h := 0, empty := true, results := [] }

/-- A write of FM_MBm_CTRL. -/
def mbCtrlWrite (s : State) (mb : Fin 16) (v : W32) : State :=
  let was := bit (preg s .fm (mbOff mb)) 0
  let w := pageWrite s .fm (mbOff mb) v
  let now := bit (preg w.st .fm (mbOff mb)) 0
  let s1 := if was = false ∧ now = true then windowReset w.st mb else w.st
  if w.started 1 then goDone (windowReset s1 mb) .fm (mbOff mb) 1 else s1

/-- MAILBOX_EN (06 R253). -/
def execMailboxEn (mb : Fin 16) (v : W32) (s : State) : Res := .next (mbCtrlWrite s mb v)

/-- WIN_RESET (06 R252). -/
def execWinReset (mb : Fin 16) (v : W32) (s : State) : Res := .next (mbCtrlWrite s mb v)

/-- Bytes written to BAR4 without the take of a slot (R245): stored; one that covers part of a sequence word takes nothing and sets
SLOT_PARTIAL. A write that covers a whole sequence word in one 8-byte write is a row of its own. -/
def bar4Write (s : State) (off : Nat) (bytes : List Byte) : State :=
  let n := bytes.length
  let seqs := (List.range (n / 128 + 2)).map fun k => (off / 128 + k) * 128 + 120
  let hit (q : Nat) : Bool := decide (off < q + 8) && decide (q < off + n)
  let s1 := { s with bar4 := writeBytes s.bar4 off bytes }
  if n = 8 ∧ off % 128 = 120 then s
  else seqs.foldl (fun t q => if hit q then raiseErr t .fm 0 (q / 128) else t) s1

end Sys2Proof.Machine
end

