-- ==== Sys2Proof/Machine/Placement.lean ====
section
/-! DEFINITION. The placement loop: windows, swaps chunk by chunk, commits, manual moves and abandonment (11 R483 to R488, R495, R498 to
R502). Data lies at its device physical address, so a swap moves no byte of the model's memory; what it changes is the map. -/

namespace Sys2Proof.Machine

/-- Stack of a region by the map. -/
def stackOfRegion (s : State) (r : Nat) : Nat := placeOf s r / 1024

/-- Regions that the loop moves (R483). -/
def fixedRegion (r : Nat) : Bool := decide (4592 ≤ r)

def pinnedRegion (s : State) (r : Nat) : Bool := sget (fun _ => false) s.pl.pins r

def heatOf (s : State) (r : Nat) : Nat := sget (fun _ => 0) s.pl.heat r

def stackFenced (s : State) (n : Nat) : Bool := fenced s (.mc (fin 8 n))

/-- A PLACE logbook entry (13 R554). -/
def logPlace (s : State) (a b event : Nat) : State := offer s 5 (a % 65536 + b % 65536 * 2 ^ 16 + event * 2 ^ 32)

/-- The PWR_FAIL_N warning, or the internal one, is asserted (14 R591, R592). -/
def powerFailing (s : State) : Bool := decide (s.mod.pwrFail = .low) || s.mod.intPf

/-- The element of a list with the highest, or lowest, value; the first of equals. -/
def pickBy (better : Nat → Nat → Bool) (v : Nat → Nat) : List Nat → Option Nat
  | [] => none
  | x :: l => match pickBy better v l with
    | none => some x
    | some y => if better (v y) (v x) then some y else some x

/-- Hottest and coldest. -/
def hottest (v : Nat → Nat) (l : List Nat) : Option Nat := pickBy (fun y x => decide (x < y)) v l

def coldest (v : Nat → Nat) (l : List Nat) : Option Nat := pickBy (fun y x => decide (y < x)) v l

/-- Regions of a stack that the loop may move. -/
def movable (s : State) (n : Nat) : List Nat :=
  (List.range 4592).filter fun r => decide (stackOfRegion s r = n) && !(pinnedRegion s r)

/-- The loop's choice at the end of a window (R484). -/
def loopChoice (s : State) (heats : List Nat) : Option (Nat × Nat) :=
  let units := (List.range 8).filter fun n => !(stackFenced s n)
  let h (n : Nat) : Nat := nth heats n 0
  match hottest h units, coldest h units with
  | some hot, some cool =>
    if h cool * (100 + fld (preg s .pl 0x100) 0 8) < h hot * 100 then
      match hottest (heatOf s) (movable s hot), coldest (heatOf s) (movable s cool) with
      | some a, some b => if heatOf s b + fld (preg s .pl 0x108) 0 24 ≤ heatOf s a ∧ hot ≠ cool then some (a, b) else none
      | _, _ => none
    else none
  | _, _ => none

/-- The window of PL_WIN steps has ended; steps are counted only while the loop runs and boundaries reach it (R484; 02 R46). -/
def windowOver (s : State) : Bool := enabled s .pl && decide (fld (preg s .pl 0x104) 0 16 ≤ s.pl.steps)

/-- The end of a window (R484): the heats are recorded, and the loop may queue a swap, which waits for one in progress. A manual swap already
queued goes first (R501). -/
def windowEnd (s : State) (heat : List (Nat × Nat)) (channelHeat : List Nat) : State :=
  if windowOver s = false then s
  else
    let m := heat.foldl (fun (m : Sparse Nat) e => sset (fun _ => 0) m e.1 e.2) []
    let s1 := { s with pl := { s.pl with heat := m, begun := 0, steps := 0 } }
    let s2 := (List.range 8).foldl (fun t n => setPreg t .pl (0x140 + 4 * n) (BitVec.ofNat 32 (nth channelHeat n 0 % 2 ^ 24))) s1
    if bit (preg s2 .pl 0x100) 16 = false ∨ stopped s2 = true ∨ s2.pl.abandoned = true ∨ s2.pl.queued.isSome then s2
    else match loopChoice s2 channelHeat with
      | some (a, b) => { s2 with pl := { s2.pl with queued := some (BitVec.ofNat 13 a, BitVec.ofNat 13 b, false) } }
      | none => s2

/-- PL_WINDOW_END (11 R484). -/
def execPlWindowEnd (heat : List (Nat × Nat)) (channelHeat : List Nat) (s : State) : Res := .next (windowEnd s heat channelHeat)

/-- One of the two stacks of a swap is fenced. -/
def swapFenced (s : State) (a b : BitVec 13) : Bool := stackFenced s (stackOfRegion s a.toNat) || stackFenced s (stackOfRegion s b.toNat)

/-- A swap of which a stack is fenced is abandoned at a chunk boundary (R498). -/
def plFenceCheck (s : State) : State :=
  match s.pl.cur with
  | some (a, b) =>
    if s.pl.chunk = true ∨ s.pl.abandoned = true ∨ swapFenced s a b = false then s
    else
      let s1 := setPreg { s with pl := { s.pl with abandoned := true } } .pl 0x128 6
      raiseErr (logPlace s1 a.toNat b.toNat 2) .pl 1 (a.toNat + b.toNat * 2 ^ 16)
  | none => s

/-- A chunk, or a commit, may begin on this tick: the page runs, the device is quiet, no power-fail warning, not the safe state. -/
def plMayRun (s : State) : Bool :=
  enabled s .pl && deviceQuiet s && !(powerFailing s) && !(stopped s) && !s.pl.chunk && !s.pl.abandoned

/-- A landing-window move is on whose old or new frame contains the region (08 R358). A frame holds 16 regions. -/
def windowMoves (s : State) (r : BitVec 13) : Bool :=
  match s.lw.move with
  | some (i, frame) => decide (r.toNat / 16 = lwFrame s i.toNat) || decide (r.toNat / 16 = frame.toNat)
  | none => false

/-- A chunk begins (R485): of the swap in progress, or of a queued one, which begins with it if MOVES_MAX allows. A stack fenced meanwhile
keeps a queued swap from beginning, and a landing-window move delays it (08 R358). A queued swap of two regions that the swap before it has
brought onto one stack lapses (assumption 22). -/
def chunkStart (s : State) : State :=
  if plMayRun s = false then s
  else match s.pl.cur, s.pl.queued with
    | some _, _ => if s.pl.prog.toNat < 1024 then { s with pl := { s.pl with chunk := true } } else s
    | none, some (a, b, _) =>
      if stackOfRegion s a.toNat = stackOfRegion s b.toNat then { s with pl := { s.pl with queued := none } }
      else if fld (preg s .pl 0x100) 8 8 ≤ s.pl.begun ∨ swapFenced s a b = true ∨ windowMoves s a = true ∨ windowMoves s b = true then s
      else logPlace { s with pl := { s.pl with cur := some (a, b), queued := none, prog := 0, chunk := true, begun := s.pl.begun + 1 } }
        a.toNat b.toNat 0
    | none, none => s

/-- PL_CHUNK_START (11 R485). -/
def execPlChunkStart (s : State) : Res := .next (chunkStart s)

/-- A chunk ends (R485). -/
def chunkDone (s : State) : State :=
  if s.pl.chunk then plFenceCheck { s with pl := { s.pl with chunk := false, prog := s.pl.prog + 1 } } else s

/-- The commit (R486): each region takes the other's place. -/
def plCommit (s : State) : State :=
  match s.pl.cur with
  | some (a, b) =>
    if plMayRun s = false ∨ s.pl.prog ≠ 1024 then s
    else
      let pa := placeOf s a.toNat
      let pb := placeOf s b.toNat
      let home (r : Nat) : BitVec 13 := BitVec.ofNat 13 (r % 8 * 1024 + r / 8)
      let put (m : Sparse (BitVec 13)) (r p : Nat) : Sparse (BitVec 13) := sset home m r (BitVec.ofNat 13 p)
      let s1 := { s with pl := { s.pl with map := put (put s.pl.map a.toNat pb) b.toNat pa, cur := none, prog := 0 } }
      logPlace (cntPreg (setPreg s1 .pl 0x128 1) .pl 0x12C 1) a.toNat b.toNat 1
  | none => s

/-- GO of PL_MOVE (R487, R498). A number that names no region counts as fixed; a request that already waits counts as a swap in progress
(assumption 22). -/
def moveRequest (s : State) : State :=
  let v := preg s .pl 0x11C
  let a := fld v 0 13
  let b := fld v 16 13
  let rej (r : Nat) : State := raiseErr (setPreg s .pl 0x128 (BitVec.ofNat 32 r)) .pl 0 (a + b * 2 ^ 16)
  if fixedRegion a || fixedRegion b then rej 2
  else if a = b ∨ stackOfRegion s a = stackOfRegion s b then rej 3
  else if stackFenced s (stackOfRegion s a) || stackFenced s (stackOfRegion s b) then rej 4
  else match s.pl.cur with
    | some (x, y) =>
      if s.pl.abandoned = true ∧ ((x.toNat = a ∧ y.toNat = b) ∨ (x.toNat = b ∧ y.toNat = a)) then
        { s with pl := { s.pl with abandoned := false } }
      else rej 5
    | none =>
      match s.pl.queued with
      | some (_, _, true) => rej 5
      | _ => { s with pl := { s.pl with queued := some (BitVec.ofNat 13 a, BitVec.ofNat 13 b, true) } }

/-- A write of PL_MOVE. -/
def plMoveWrite (s : State) (v : W32) : State := pageWriteGo s .pl 0x11C v 31 moveRequest

/-- PL_MOVE (11 R487). -/
def execPlMove (v : W32) (s : State) : Res := .next (plMoveWrite s v)

/-- A write of PL_REGION: PIN of the selected region (R488). -/
def plRegionWrite (s : State) (v : W32) : State :=
  let w := pageWrite s .pl 0x114 v
  if w.ok = false then w.st
  else
    let r := fld (preg w.st .pl 0x110) 0 13
    setPreg { w.st with pl := { w.st.pl with pins := sset (fun _ => false) w.st.pl.pins r (bit v 16) } } .pl 0x114 0

end Sys2Proof.Machine
end

