-- ==== Sys2Proof/Machine/Grid.lean ====
section
/-! DEFINITION. Host control of the cores, delivery of messages and fares, forced locks and the partition reset (04). -/

namespace Sys2Proof.Machine

/-! ## Core control (R132, R160, R161) -/

/-- CTRL.ENABLE of a GC page is written (R132): a 1 takes RESET to PARKED with the partition latched, a 0 resets the core; a FENCED core stays, and so
does one that a partition reset has left in RESET with FENCE 1 (03 R83). -/
def gcEnableAct (s : State) (id : Fin 256) (on : Bool) : State :=
  let c := s.core id
  if on then
    (if c.st = .reset ∧ fenced s (.gc id) = false then s.setCore id { c with st := .parked, part := BitVec.ofNat 4 (partOfCluster s (clusterOf id).val) } else s)
  else if c.st = .fenced then s
  else resetCore s id

/-- A write of GC_START (R132, R161): START acts at once, and PARK runs until the core is PARKED. START at a core in RUN or WAIT is ignored: no
action starts or completes. A core that is PARKED, in RESET or FENCED has nothing to park. -/
def gcStartWrite (s : State) (id : Fin 256) (v : W32) : State :=
  let w := pageWrite s (.gc id) 0x110 v
  let pc := preg w.st (.gc id) 0x110 &&& 0xFFF0
  let s1 := if w.started 16 then
      (match (w.st.core id).st with
        | .run | .wait => clrPreg w.st (.gc id) 0x110 (one32 16)
        | _ => goDone (startCore w.st id (pc.setWidth 16)) (.gc id) 0x110 16)
    else w.st
  if w.started 17 then
    (match (s1.core id).st with
      | .parked | .reset | .fenced => goDone s1 (.gc id) 0x110 17
      | _ => askPark s1 id)
  else s1

/-- GC_START (04 R132). -/
def execGcStart (core : Fin 256) (v : W32) (s : State) : Res := .next (gcStartWrite s core v)

/-- GC_PARK (04 R132). -/
def execGcPark (core : Fin 256) (v : W32) (s : State) : Res := .next (gcStartWrite s core v)

/-- The stores of a parking core are accepted and its MMAs done: it is PARKED (R132). -/
def corePark (s : State) (id : Fin 256) : State :=
  let c := s.core id
  if c.parkReady && !(clockStopped s id) then
    let s1 := s.setCore id { c with st := .parked, parking := false, waits := [], cause := 0, target := 0 }
    if bit (preg s1 (.gc id) 0x110) 17 then goDone s1 (.gc id) 0x110 17 else s1
  else s

/-- CORE_PARKED (04 R132). -/
def execCoreParked (core : Fin 256) (s : State) : Res := .next (corePark s core)

/-- A write of GC_KICK (R160): the event of the word's EVT field is set. -/
def gcKickWrite (s : State) (id : Fin 256) (v : W32) : State :=
  pageWriteGo s (.gc id) 0x114 v 8 fun t =>
    sdTouch (setEvent t id (BitVec.ofNat 5 (fld (preg t (.gc id) 0x114) 0 5))) id

/-- GC_KICK (04 R160). -/
def execGcKick (core : Fin 256) (v : W32) (s : State) : Res := .next (gcKickWrite s core v)

/-! ## Messages and fares in flight (R126 to R129) -/

/-- The first flit or the last one of a message in flight arrives, or the message is dropped for a flit that failed parity (R126, R136). Messages
from one sender's channel arrive in their order (R125): one that an earlier message of its channel precedes is not yet there. In the safe
state the cluster clocks stand still (12 R520). -/
def messageArrives (s : State) (i : Nat) (first parityOk : Bool) : State :=
  match s.mesh[i]? with
  | none => s
  | some m =>
    if stopped s || (s.mesh.take i).any fun x => decide (x.src = m.src) && decide (x.chan = m.chan) then s
    else
      let s1 := { s with mesh := dropAt s.mesh i }
      if parityOk = false then spoilMsg s1 m
      else if first then (if m.filling then s else beginFill s i m)
      else deliver s1 m false

/-- MESSAGE_DELIVERY (04 R126). -/
def execMessageDelivery (i : Nat) (first parityOk : Bool) (s : State) : Res := .next (messageArrives s i first parityOk)

/-- FARE_RETURN (04 R127). -/
def execFareReturn (i : Nat) (s : State) : Res :=
  .next (match s.fares[i]? with
    | none => s
    | some m => if stopped s then s else arriveFare { s with fares := dropAt s.fares i } m)

/-! ## Forced locks (R143, R144) -/

/-- A lock whose state fails parity (R144): BROKEN without a name, then the rotation from core 0. -/
def lockParity (s : State) (n : Fin 1024) : State :=
  let l := s.lock n
  let s1 := s.setLock n { l with st := .broken, owner := 0xFF, unknown := true }
  serveLock (raiseErr (cntPreg s1 .ml 0x11C 1) .ml 3 n.val) n none

/-- LOCK_STATE_PE (04 R144). -/
def execLockStatePe (lock : Fin 1024) (s : State) : Res := .next (lockParity s lock)

/-- FORCE_FREE (R143). The rotation starts after the OWNER the lock has lost, or from core 0 where it has none with a name (R140, R144). -/
def forceFreeAct (s : State) (n : Fin 1024) : State :=
  let l := s.lock n
  serveLock (s.setLock n { l with st := .free, owner := 0, epoch := l.epoch + 1, unknown := false }) n
    (if l.unknown then none else some l.owner.toNat)

/-- FORCE_BREAK (R143): a HELD lock alone. -/
def forceBreakAct (s : State) (n : Fin 1024) : State := if (s.lock n).st = .held then breakLock s n else s

/-- A write of ML_CMD: both commands act on the selected lock and end at once; FORCE_FREE first, by bit order (assumption 24). -/
def mlCmdWrite (s : State) (v : W32) : State :=
  let w := pageWrite s .ml 0x10C v
  let n := fin 1024 (fld (preg w.st .ml 0x100) 0 10)
  let s1 := if w.started 0 then goDone (forceFreeAct w.st n) .ml 0x10C 0 else w.st
  if w.started 1 then goDone (forceBreakAct s1 n) .ml 0x10C 1 else s1

/-- FORCE_FREE (04 R143). -/
def execForceFree (v : W32) (s : State) : Res := .next (mlCmdWrite s v)

/-- FORCE_BREAK (04 R143). -/
def execForceBreak (v : W32) (s : State) : Res := .next (mlCmdWrite s v)

/-! ## Partition reset (R149, R636) -/

/-- The cores of a partition: those that latched it, or whose cluster has it while they are in RESET. -/
def partitionCores (s : State) (q : Nat) : List (Fin 256) := (List.finRange 256).filter fun id => decide (partOf s id = q)

/-- The clusters of a partition. -/
def partitionClusters (s : State) (q : Nat) : List (Fin 16) := (List.finRange 16).filter fun c => decide (partOfCluster s c.val = q)

/-- A core reset in a partition reset, once the partition's locks are lost: it is left in RESET with CTRL.ENABLE cleared, a FENCED one too, whose
FENCE stays (R149; 03 R83). -/
def partCoreReset (s : State) (id : Fin 256) : State := clrPreg (clearCore (sdTouch s id) id) (.gc id) 8 1

/-- A write of SD_PART_RESET: every core of the partition in one cycle, then the manifests of its clusters (R149, 06 R241), and a BOOT entry (15
R636). -/
def sdPartResetWrite (s : State) (v : W32) : State :=
  pageWriteGo s .sd 0x11C v 8 fun t =>
    let q := fld (preg t .sd 0x11C) 0 4
    let ids := partitionCores t q
    let cls := partitionClusters t q
    logBoot (cls.foldl resetMover (ids.foldl partCoreReset (loseLocks t ids))) 0 3 0

/-- SD_PART_RESET (04 R149). -/
def execSdPartReset (v : W32) (s : State) : Res := .next (sdPartResetWrite s v)

end Sys2Proof.Machine
end

