-- ==== Sys2Proof/Machine/XbPath.lean ====
section
/-! DEFINITION. The matrix: arbitration, bursts, hold-back and the XB page (06 R259 to R265, R275 to R277). What a request does at its home has rows of its
own; here a request is what waits for its target, is held, and is granted. -/

namespace Sys2Proof.Machine

/-- What XB_PRIOi of a target holds at reset. -/
def prioReset (k : Nat) : W32 := if k % 8 = 5 then 0x00924924 else 0x24924924

/-- Priority of a master at a target (R265). -/
def prioOf (s : State) (target : Fin 26) (master : Fin 58) : Nat :=
  fld (sget prioReset s.xb.prio (8 * target.val + master.val / 10)) (3 * (master.val % 10)) 3

/-- XB_BURST of a master (R265). -/
def burstOf (s : State) (master : Fin 58) : Nat := fld (preg s .xb (0x120 + 4 * (master.val / 8))) (4 * (master.val % 8)) 4

/-- A write of an XB register: XB_SEL selects the target that XB_PRIO shows and changes (R265). -/
def xbWrite (s : State) (o : Nat) (v : W32) : State :=
  let w := pageWrite s .xb o v
  let sel := fld (preg w.st .xb 0x100) 0 5
  if w.ok = false then w.st
  else if o = 0x100 then
    (List.range 6).foldl (fun t i => setPreg t .xb (0x104 + 4 * i) (sget prioReset t.xb.prio (8 * sel + i))) w.st
  else if 0x104 ≤ o ∧ o < 0x11C then
    { w.st with xb := { w.st.xb with prio := sset prioReset w.st.xb.prio (8 * sel + (o - 0x104) / 4) (preg w.st .xb o) } }
  else w.st

/-- The line of a request's address. -/
def xbLine (a : XbArrival) : Line := ⟨a.host, BitVec.ofNat 46 (a.addr.toNat / 64)⟩

/-- The request's address decodes to this target, which its master reaches (R259). -/
def xbDecodes (s : State) (target : Fin 26) (a : XbArrival) : Bool :=
  let pa := a.addr.toNat
  if target.val < 16 then
    decide (a.master.val < 42) && (a.host || decide (pa < dmSize)) && decide ((homeOf (xbLine a)).val = target.val)
  else if target.val < 24 then
    decide (42 ≤ a.master.val) && !a.host && decide (pa < dmSize) && decide ((stackOf s pa).val + 16 = target.val)
  else decide (a.master.val = 32) || decide (a.master.val = 33)

/-- A target is fenced (R263). -/
def xbFenced (s : State) (target : Fin 26) : Bool :=
  if target.val < 16 then fenced s (.dc (fin 16 target.val))
  else if target.val < 24 then fenced s (.mc (fin 8 (target.val - 16)))
  else false

/-- A target reports an address blocked (R263): at a home, a back-invalidate is pending on its line, a landing-window move covers it, or a
freeze holds traffic to CXL; at a stack, the chunk of a swap in progress (11 R485). A commit is one command and blocks for no command's
length. -/
def xbBlocked (s : State) (target : Fin 26) (a : XbArrival) : Bool :=
  if 16 ≤ target.val then decide (target.val < 24) && !a.host && chunkBlocks s a.addr.toNat
  else
    (biOn s (xbLine a) || (a.host && s.frz.on) ||
      (match s.lw.move with
        | some (i, _) => !a.host && decide (a.master.val = 33) && decide (a.addr.toNat / 2 ^ 30 = lwFrame s i.toNat)
        | none => false))

/-- The hold-back buffer of a target has room for a class (R263). -/
def holdRoom (s : State) (target : Fin 26) (cls : XbClass) : Bool :=
  let mine := s.xb.held.filter fun h => decide (h.1 = target)
  decide (mine.length < (if cls = .escape then 36 else 32))

def setWaiting (s : State) (target : Fin 26) (l : List XbWait) : State :=
  { s with xb := { s.xb with waiting := s.xb.waiting.set target l } }

/-- The master's class to the target is back-pressured (R262, R263). -/
def xbPressed (s : State) (target : Fin 26) (a : XbArrival) : Bool :=
  s.xb.stalled.any fun x => decide (x.1 = target) && decide (x.2.master = a.master) && decide (x.2.cls = a.cls)

/-- The request waits in its master's path. -/
def xbStall (s : State) (target : Fin 26) (a : XbArrival) : State := { s with xb := { s.xb with stalled := s.xb.stalled ++ [(target, a)] } }

/-- A target that keeps ESCAPE entries for CXL inbound: the slices and the register fabric (R262). -/
def escapeKept (target : Fin 26) (a : XbArrival) : Bool := decide (a.master.val = 33) && (decide (target.val < 16) || decide (target.val = 25))

/-- ESCAPE entries of a target in use. -/
def escapesUsed (s : State) (target : Fin 26) : Nat := ((s.xb.waiting.get target).filter fun w => decide (w.req.cls = .escape)).length

/-- A request enters the target's buffers: those of its class, or where they are full one of the four ESCAPE entries, if it is CXL's; else it
stays in its master's path (R262). -/
def xbEnter (s : State) (target : Fin 26) (a : XbArrival) (waited : Nat) : State :=
  let put (b : XbArrival) : State := setWaiting s target (s.xb.waiting.get target ++ [⟨b, waited⟩])
  if a.full = false ∧ a.cls ≠ .escape then put a
  else if escapeKept target a = true ∧ escapesUsed s target < 4 then put { a with cls := .escape }
  else xbStall s target a

/-- A request reaches its target: it is answered with an error where it decodes to none or the target is fenced, held back where its address is
blocked, and else it waits. Behind a request of its master's class that found no room it waits in its master's path (R259, R262, R263). -/
def xbArrive (target : Fin 26) (s : State) (a : XbArrival) : State :=
  if xbDecodes s target a = false then emit (raiseErr s .xb 2 a.addr.toNat) (.xbError a.master a.addr)
  else if xbFenced s target then emit s (.xbError a.master a.addr)
  else if xbPressed s target a then xbStall s target a
  else if xbBlocked s target a then
    if holdRoom s target a.cls then cntPreg { s with xb := { s.xb with held := s.xb.held ++ [(target, ⟨a, 0⟩)] } } .xb 0x168 1
    else xbStall s target a
  else xbEnter s target a 0

/-- Requests that waited in their masters' paths to a target are tried again, in order: buffers may have room now. -/
def xbRetry (s : State) (target : Fin 26) : State :=
  let mine := s.xb.stalled.filter fun x => decide (x.1 = target)
  mine.foldl (fun t x => xbArrive target t { x.2 with full := false })
    { s with xb := { s.xb with stalled := s.xb.stalled.filter fun x => !(decide (x.1 = target)) } }

/-- Held requests of a target whose address is no longer blocked, or whose target is fenced, in arrival order. -/
def xbRelease (s : State) (target : Fin 26) : State :=
  let free (h : Fin 26 × XbWait) : Bool := decide (h.1 = target) && (!(xbBlocked s target h.2.req) || xbFenced s target)
  (s.xb.held.filter free).foldl (fun t h => if xbFenced t target then emit t (.xbError h.2.req.master h.2.req.addr) else
      setWaiting t target (t.xb.waiting.get target ++ [⟨h.2.req, 0⟩]))
    { s with xb := { s.xb with held := s.xb.held.filter fun h => !(free h) } }

/-- The winner among waiting requests: the highest priority, ties by the rotating pointer (R260). -/
def xbWinner (s : State) (target : Fin 26) : Option (Nat × XbWait) :=
  let ptr := (s.xb.ptr.get target).toNat
  let key (w : XbWait) : Nat := prioOf s target w.req.master * 64 + (63 - (w.req.master.val + 127 - ptr) % 64)
  ((s.xb.waiting.get target).zipIdx.filter fun x => !(xbBlocked s target x.1.req)).foldl (fun (b : Option (Nat × XbWait)) x =>
    match b with
    | none => some (x.2, x.1)
    | some y => if key y.2 < key x.1 then some (x.2, x.1) else b) none

/-- One cycle of a target (R260, R261): held requests that may go re-enter with the arrivals (R275), and outside a burst one request wins. -/
def xbCycle (s : State) (target : Fin 26) (arrivals : List XbArrival) : State :=
  let s1 := arrivals.foldl (xbArrive target) (xbRetry (xbRelease s target) target)
  let older (w : XbWait) : XbWait := { w with waited := w.waited + 1 }
  let age (t : State) : State :=
    let u := setWaiting t target ((t.xb.waiting.get target).map older)
    { u with xb := { u.xb with held := u.xb.held.map fun h => if h.1 = target then (h.1, older h.2) else h } }
  let left := s1.xb.burst.get target
  if 0 < left then age { s1 with xb := { s1.xb with burst := s1.xb.burst.set target (left - 1) } }
  else match xbWinner s1 target with
    | none => age s1
    | some (i, w) =>
      let beats := min w.req.beats.toNat (burstOf s1 w.req.master + 1)
      let x := { s1.xb with ptr := s1.xb.ptr.set target (BitVec.ofNat 6 w.req.master.val), burst := s1.xb.burst.set target (beats - 1)
                            waiting := s1.xb.waiting.set target (dropAt (s1.xb.waiting.get target) i) }
      age { s1 with xb := x }

/-- XB_ARBITRATION (06 R260). -/
def execXbArbitration (target : Fin 26) (arrivals : List XbArrival) (s : State) : Res := .next (xbCycle s target arrivals)

/-- XB_STARVE (06 R260): the request has waited longer than XB_STARVE_LIM cycles of its target. -/
def execXbStarve (target : Fin 26) (i : Nat) (s : State) : Res :=
  .next (match (s.xb.waiting.get target)[i]? with
    | some w => if (preg s .xb 0x160).toNat < w.waited then raiseErr s .xb 1 w.req.addr.toNat else s
    | none => s)

/-- HOLD_TIMEOUT (06 R263): the request has been held longer than XB_HOLD_MAX cycles of its target; it stays held. -/
def execHoldTimeout (i : Nat) (s : State) : Res :=
  .next (match s.xb.held[i]? with
    | some h => if (preg s .xb 0x15C).toNat < h.2.waited then raiseErr s .xb 0 h.2.req.addr.toNat else s
    | none => s)

end Sys2Proof.Machine
end

