-- ==== Sys2Proof/Machine/Settle.lean ====
section
/-! DEFINITION. What goes on once a transaction has ended: a fill, an answer of the host, a chunk. Whoever waited for it is served in order: host
requests, the landing window, ending manifests, mailbox commands, inbound writes, and the stores of cores (06 R238, R247, R257, R263; 08 R341 to
R344, R360). -/

namespace Sys2Proof.Machine

/-! ## Inbound writes (06 R255, R257) -/

/-- An inbound write is performed line by line, lowest address first, as far as its lines can be written; what is left of it waits. -/
def inboundRun : Nat → State → Inbound → State × Option Inbound
  | 0, s, _ => (s, none)
  | fuel + 1, s, w =>
    let pa := w.addr.toNat
    let off := pa % 64
    let n := min w.bytes.length (64 - off)
    let l := lineOf false pa
    if w.bytes.isEmpty then (s, none)
    else if postReady s l 33 = false then (postAsk s l 33, some w)
    else
      inboundRun fuel (postWrite s l 33 0 (BitVec.ofNat 512 (bytesNat (w.bytes.take n) * 2 ^ (8 * off))) (BitVec.ofNat 64 ((2 ^ n - 1) * 2 ^ off)) 0 false)
        { w with addr := BitVec.ofNat 40 (pa + n), bytes := w.bytes.drop n }

/-- One inbound write is looked at; `left`: those before it that go on waiting. It stays behind one of its own requester, unless it is relaxed. -/
def inboundStep (a : State × List Inbound) (w : Inbound) : State × List Inbound :=
  if !w.relaxed && a.2.any fun u => decide (u.requester = w.requester) then (a.1, a.2 ++ [w])
  else
    let r := inboundRun (w.bytes.length + 1) a.1 w
    (r.1, a.2 ++ r.2.toList)

/-- The inbound writes that wait go on, in arrival order. -/
def pumpInbound (s : State) : State :=
  if s.cxl.inbound.isEmpty then s
  else
    let r := s.cxl.inbound.foldl inboundStep (s, [])
    { r.1 with cxl := { r.1.cxl with inbound := r.2 } }

/-! ## Settling -/

/-- What the landing window and the slices do once a transaction has ended: host requests that waited, further back-invalidates, lines of disabled
ways, a move, a close, an UNCOMMIT. -/
def settleWindow (s : State) : State :=
  let s1 := pumpHost s
  let s2 := (List.finRange 16).foldl (fun t n => clearAsk (sweepWays t (.slice n)) n) s1
  uncommitCheck (lwCloseCheck (moveCheck (moveAsk (pumpBi s2))))

/-- The ending manifests of a mover go on, and ABORT_ALL completes with the last of them (06 R238, R241). -/
def moverPump (s : State) (cl : Fin 16) : State :=
  abortAllEnd ((List.finRange 4).foldl (fun t q =>
    if (mQueueOf t cl q).isEmpty then t else advance cl q (3 * (mQueueOf t cl q).length) t) s) cl

/-- Everything that waited goes on, as far as it may. -/
def settle (s : State) : State :=
  let s1 := (List.finRange 16).foldl moverPump (settleWindow s)
  let s2 := pumpInbound ((List.finRange 16).foldl mbPump s1)
  (List.finRange 256).foldl storesSeen s2

/-- BISNP_RESPONSE (08 R341). -/
def execBisnpResponse (line : Line) (dirty : Option (BitVec 512)) (s : State) : Res := .next (settle (biAnswer s line dirty))

/-- CACHE_FILL (08 R324). -/
def execCacheFill (cache : CacheId) (line : Line) (way : Fin 16) (res : HostAnswer) (fault : ArrayFault) (s : State) : Res :=
  .next (settle (applyFault (fillCache s cache line way res) cache line fault))

/-- SNPDATA (09 R366). -/
def execSnpdata (line : Line) (s : State) : Res := .next (if snoopable s line then settle (snoopData s line) else s)

/-- SNPINV (09 R366). -/
def execSnpinv (line : Line) (s : State) : Res := .next (if snoopable s line then settle (snoopInv s line) else s)

/-- PL_CHUNK_DONE (11 R485): what the chunk blocked goes on (06 R263). -/
def execPlChunkDone (s : State) : Res := .next (settle (chunkDone s))

/-- PL_COMMIT (11 R486): a landing-window move that waited for it goes on (08 R358). -/
def execPlCommit (s : State) : Res := .next (settle (plCommit s))

end Sys2Proof.Machine
end

