-- ==== Sys2Proof/Machine/Freeze.lean ====
section
/-! DEFINITION. The containment freeze, and what fencing does to each kind of unit (09 R390 to R398; 12 R515, R516, R518). -/

namespace Sys2Proof.Machine

/-! ## Entering the freeze (09 R390 to R392, R396) -/

/-- A store of a core on its way to the host, as a write. -/
def accessHeld (id : Fin 256) (a : GAccess) : HeldWrite :=
  { master := BitVec.ofNat 6 (clusterOf id).val, core := BitVec.ofNat 8 id.val, addr := a.pa
    bytes := (natBytes 256 a.data.toNat).take a.kind.bytes, peer := false, relaxed := a.relaxed, poison := false
    frozenResp := false, response := none }

/-- The stores of a core towards the host that wait for CXL are discarded and listed; they never complete (R392). One that its cluster cache
can take is no CXL-bound request, and one that has been handed on is a write of its own. -/
def loseStores (s : State) (id : Fin 256) : State :=
  let c := s.core id
  let cl := clusterOf id
  let gone (a : GAccess) : Bool := a.host && a.kind.isStore && !a.lost && !a.sent &&
    !(match (if (s.cl cl).cc.enabled then ccLine s cl (lineOf true a.pa.toNat) else none) with
      | some x => decide (x.st = Mesf.m) || decide (x.st = Mesf.e)
      | none => false)
  if c.access.any gone then
    let s1 := s.setCoreRaw id { c with access := c.access.map fun a => if gone a then { a with lost := true } else a }
    (c.access.filter gone).foldl (fun t a => listDiscard t (accessHeld id a)) s1
  else s

/-- A discarded write carried bytes of these stores of its core: they never complete (R392). -/
def loseSent (s : State) (w : HeldWrite) : State :=
  if 16 ≤ w.master.toNat then s
  else
    let id := fin 256 w.core.toNat
    let c := s.core id
    let hit (a : GAccess) : Bool := a.sent && !a.lost && a.host && (a.lines a.kind.bytes).contains (lineOf true w.addr.toNat)
    if c.access.any hit then s.setCoreRaw id { c with access := c.access.map fun a => if hit a then { a with lost := true } else a } else s

/-- A write that had not been sent, or that lost its GO with the link, is discarded and listed (R392, R396). -/
def discardWrite (s : State) (w : HeldWrite) : State := loseSent (listDiscard s w) w

/-- Host requests that wait, for a landing-window move or behind a transaction of their line, are refused (R391, R400). -/
def refuseWaiting (s : State) : State :=
  let s1 := s.lw.heldReqs.foldl (fun t r => dropMem t r.1.toNat r.2) { s with lw := { s.lw with heldReqs := [] } }
  (List.finRange 16).foldl (fun t n =>
    (t.slice n).waiting.foldl (fun u w => dropMem u w.1.toNat w.2.2) (t.setSlice n { t.slice n with waiting := [] })) s1

/-- The report of the freeze before is dropped when the next one begins (R394). -/
def clearReport (s : State) : State :=
  (List.range 9).foldl (fun t k => setPreg t .ep (0x180 + 4 * k) 0) { s with frz := { s.frz with report := [], summary := false } }

/-- The writes that a freeze finds not sent: those that wait, and those whose line RdOwn has yet to bring. -/
def unsentWrites (s : State) : State × List HeldWrite :=
  let owning (d : D2h) : Bool := d.w.isSome && decide (d.op = 2)
  ({ s with cxl := { s.cxl with wq := [], d2h := s.cxl.d2h.filter fun d => !(owning d) } },
    (s.cxl.d2h.filter owning).filterMap (·.w) ++ s.cxl.wq)

/-- A freeze begins (R390): writes not sent are discarded and listed, writes out for GO are not yet (R396), and host requests that a
landing-window move holds, or that wait behind a transaction, are refused (R400). During a freeze only the first cause counts. -/
def enterFreeze (s : State) (cause : Nat) : State :=
  if s.frz.on then s
  else
    let s1 := clearReport s
    let s2 := { s1 with frz := { s1.frz with on := true, cause := BitVec.ofNat 3 cause } }
    let u := unsentWrites s2
    let s3 := u.2.foldl discardWrite u.1
    let s4 := (List.finRange 256).foldl loseStores s3
    raiseInt (refuseWaiting s4) .ep 17

/-! ## Fencing a unit (03 R83; 12 R515) -/

/-- A fence set or cleared shows in FC_FENCED and DEV_READY, which are computed; DEGRADED has its BOOT entry (12 R518). Here the fence bit
alone is set. -/
def setFence (s : State) (p : Page) : State := orPreg s p 8 2

/-- The cluster cache of a fenced cluster (12 R515): every M line is written back, clean notices are sent, and the cache is disabled with
INVALIDATED set. Clearing in progress ends; what the cache has asked home for is called off. -/
def fenceCache (s : State) (n : Fin 16) : State :=
  let s0 := (s.cl n).cc.misses.foldl (fun t m => homeClean (cancelGrant t n m.line) n m.line) s
  let s1 := finishClear (clusterClear s0 n true) (.cluster n)
  let mine (r : Retry) : Bool := decide (r.master.val = n.val)
  let s2 := (List.finRange 16).foldl (fun t k => t.setSlice k { t.slice k with retries := (t.slice k).retries.filter fun r => !(mine r) })
    (s1.setCl n { s1.cl n with cc := { (s1.cl n).cc with misses := [] } })
  clrPreg (setFlags s2 false true false (.cluster n)) (.cl n) 0x100 1

/-- A cluster is fenced (12 R515, R545): its cores, its mover, its cluster cache. Its clock stops. -/
def fenceCluster (s : State) (n : Fin 16) : State :=
  if fenced s (.cl n) then s
  else
    let s1 := fenceCores s (clusterCores n)
    settle (setFence (fenceCache (resetMover s1 n) n) (.cl n))

/-- A stack is fenced (12 R516, R544). -/
def fenceStack (s : State) (n : Fin 8) : State := if fenced s (.mc n) then s else plFenceCheck (setFence s (.mc n))

/-- The unit of a page is fenced, by whoever sets CTRL.FENCE. -/
def fencePage (s : State) (p : Page) : State :=
  withReady (fun t => match p with
    | .gc id => fenceCore t id
    | .cl n => fenceCluster t n
    | .mc n => fenceStack t n
    | .xl n => fencePort t n
    | .ep => enterFreeze (setFence t .ep) 2
    | .dev | .fc => t
    | _ => setFence t p) s

/-! ## Releasing the freeze (09 R393, R394, R398, R403) -/

/-- What release does for the masters recorded (R393). -/
def releaseMasters (s : State) : State :=
  let ids := (List.finRange 256).filter fun id => s.frz.cores.getLsbD id.val
  let cls := (List.finRange 16).filter fun n => s.frz.movers.getLsbD n.val
  let s1 := cls.foldl resetMover (withReady (fun t => fenceCores t ids) s)
  s1.frz.lostResp.foldl (fun t k => raiseErr t .fm 2 k.toNat) { s1 with frz := { s1.frz with lostResp := [] } }

/-- Cache Writeback and Invalidate waited for the release (R403). -/
def wbResume (s : State) : State := if s.cxl.wbWaiting then wbCheck (dropHostLines s) else s

/-- The freeze ends: held responses are written, back-invalidates answered meanwhile end and waiting ones are issued (08 R360), and what waited
goes on. -/
def endFreeze (s : State) : State :=
  let s1 := releaseMasters { s with frz := { s.frz with on := false } }
  let held := s1.frz.held
  let s2 := clrPreg { s1 with frz := { s1.frz with held := [] } } .ep 8 2
  let s3 := biResume (flushMsix (drainWrites (held.foldl sendWrite s2)))
  raiseInt (settle ((List.finRange 256).foldl resumeAccesses (wbResume s3))) .ep 18

/-- The link is in L0 or L0p; link-layer replay runs in L0. -/
def linkL0 (s : State) : Bool := decide (s.cxl.link = .l0) || decide (s.cxl.link = .replay)

/-- A release is written (R394): with no freeze there is nothing to release; otherwise, out of its conditions, REL_REJ. -/
def releaseFreeze (s : State) : State :=
  if s.frz.on = false then s
  else if linkL0 s && !s.fc.safe then endFreeze s
  else raiseErr s .ep 9

/-- A release meets a freeze cause of its own cycle (R398; 12 R542): the freeze stays, or begins, with that cause, and REL_REJ is set. -/
def rivalFreeze (s : State) (cause : BitVec 3) : State :=
  let s1 := enterFreeze s cause.toNat
  raiseErr { s1 with frz := { s1.frz with cause := cause } } .ep 9

/-- A write of EP_FRZ_CTRL (R390, R394, R397, R398). `rival`: a freeze cause that arrives in the cycle of a RELEASE; FREEZE beside RELEASE in
one word is cause HOST. -/
def frzCtrlWrite (s : State) (v : W32) (rival : Option (BitVec 3)) : State :=
  let w := pageWrite s .ep 0x124 v
  let s1 := if w.started 0 then goDone (enterFreeze w.st 1) .ep 0x124 0 else w.st
  if w.started 1 = false then s1
  else match if w.started 0 then some 1 else rival with
    | some c => goDone (rivalFreeze s1 c) .ep 0x124 1
    | none => goDone (releaseFreeze s1) .ep 0x124 1

/-- FREEZE (09 R390). -/
def execFreeze (v : W32) (s : State) : Res := .next (frzCtrlWrite s v none)

/-- RELEASE (09 R394, R398; 12 R542). -/
def execRelease (v : W32) (rival : Option (BitVec 3)) (s : State) : Res := .next (frzCtrlWrite s v rival)

end Sys2Proof.Machine
end

