-- ==== Sys2Proof/Machine/Endpoint.lean ====
section
/-! DEFINITION. The CXL endpoint: the link and its power states, answers and timeouts of CXL.cache requests, the HDM decoder, unsupported
requests and the peer aperture, configuration space, DOE, and MSI-X (09). -/

namespace Sys2Proof.Machine

/-! ## The link (R363 to R365, R382, R383, R387, R388) -/

/-- Training may start (15 R634; in RECOVERY for CXL.io alone, R627). -/
def mayTrain (s : State) : Bool :=
  s.mod.mainOn && decide (s.mod.perst = .high) &&
    (s.boot.recovery || (bit s.boot.ended 0 && (decide (1 ≤ s.boot.lastStage.toNat) || decide (s.boot.stage = 1))))

/-- EP_LINK_STAT [14:8], [7:5], [4:0] after training. -/
def linkStatWord (s : State) (i : LinkInfo) : W32 :=
  BitVec.ofNat 32 (i.width.toNat + i.rate.toNat * 2 ^ 5 + b2n i.flit256 * 2 ^ 8
    + b2n (i.flit256 && i.loptOk && bit (preg s .ep 0x104) 1) * 2 ^ 9 + b2n i.reversed * 2 ^ 14)

/-- What training can settle: x16 or x8, a rate, and 256-byte flits at 64 GT/s alone (R362). -/
def linkInfoOk (i : LinkInfo) : Bool :=
  (decide (i.width.toNat = 16) || decide (i.width.toNat = 8)) && decide (1 ≤ i.rate.toNat) && decide (i.rate.toNat ≤ 3)
    && decide (i.flit256 = decide (i.rate = 3))

/-- The link's state changes: LINK_CHANGE, and readiness follows. -/
def setLink (s : State) (l : LinkState) : State :=
  withReady (fun t => raiseInt { t with cxl := { t.cxl with link := l } } .ep 16) s

/-- Writes, messages, the reads of cores, and what waits for them go on once the link can carry them. -/
def linkResume (s : State) : State := settle ((List.finRange 256).foldl resumeAccesses (wbCheck (flushMsix (drainWrites s))))

/-- The link comes up (R363). -/
def linkCome (s : State) (i : LinkInfo) : State :=
  if s.cxl.link ≠ .down ∨ mayTrain s = false ∨ linkInfoOk i = false then s
  else
    let s1 := setPreg { s with cxl := { s.cxl with l0pOk := i.l0pOk && decide (i.width.toNat = 16) } } .ep 0x100 (linkStatWord s i)
    let s2 := when (decide (i.width.toNat = 8) || decide (i.rate = 2)) (fun t => raiseErr t .ep 10) (setLink s1 .l0)
    linkResume s2

/-- LINK_UP (09 R363). -/
def execLinkUp (info : LinkInfo) (s : State) : Res := .next (linkCome s info)

/-- LINK_TRAINING_RETRY (09 R363): the link does not reach L0, and training is tried again. -/
def execLinkTrainingRetry (s : State) : Res :=
  .next (if s.cxl.link = .down ∧ mayTrain s = true then emit (raiseErr s .ep 5) (.linkReq 0) else s)

/-- Requests outstanding when an episode runs are affected by it (R387; 12 R532). -/
def affectAll (s : State) : State := { s with cxl := { s.cxl with d2h := s.cxl.d2h.map fun d => { d with affected := true } } }

/-- LINK_REPLAY (09 R387). -/
def execLinkReplay (s : State) : Res :=
  .next (if s.cxl.link = .l0 then
      raiseErr (affectAll (beginEpisode (cntPreg { s with cxl := { s.cxl with link := .replay } } .ep 0x150 1) .cxl)) .ep 3
    else s)

/-- LINK_RECOVERY (09 R387): a Recovery is an episode of its own; a replay in progress ends with it (12 R532). -/
def execLinkRecovery (s : State) : Res :=
  .next (if s.cxl.link = .down ∨ s.cxl.link = .recovery then s
    else raiseErr (affectAll (beginEpisode (endEpisode (cntPreg { s with cxl := { s.cxl with link := .recovery } } .ep 0x154 1) .cxl) .cxl)) .ep 4)

/-- An episode of a link ends (12 R532): the CXL link is back in L0. -/
def episodeOver (s : State) (l : LinkId) : State :=
  match l with
  | .cxl => if s.cxl.link = .replay ∨ s.cxl.link = .recovery then
      linkResume (endEpisode (withReady (fun t => { t with cxl := { t.cxl with link := .l0 } }) s) .cxl) else s
  | .port n => endEpisode s (.port n)

/-- REPLAY_EPISODE_END (09 R387). -/
def execReplayEpisodeEnd (link : LinkId) (s : State) : Res := .next (episodeOver s link)

/-! ## Answers of the host (R384, R386) -/

/-- What a write's end releases: the writes and messages behind it, a Cache Writeback and Invalidate, and whoever waited for it. -/
def afterWrite (s : State) : State := settle (wbCheck (flushMsix (drainWrites s)))

/-- A write that is lost: a response line's is RESP_ERR (06 R247). -/
def responseLost (s : State) (w : HeldWrite) : State :=
  match w.response with
  | some k => raiseErr s .fm 2 k.toNat
  | none => s

/-- Removes D2H request `i`. -/
def dropD2h (s : State) (i : Nat) : State := { s with cxl := { s.cxl with d2h := dropAt s.cxl.d2h i } }

/-- The access of a core that a read request serves. -/
def d2hAccess (s : State) (d : D2h) : Option (Nat × GAccess) :=
  ((s.core d.core).access.zipIdx.find? fun x => x.1.host && !x.1.lost && decide (x.1.pa.toNat / 64 = d.line.toNat)).map fun x => (x.2, x.1)

/-- Tag of the CXL link's latest episode, for a request it affected (12 R532). -/
def d2hTag (s : State) (d : D2h) : Nat :=
  if d.affected then (match s.fc.episodes.find? fun e => decide (e.link = .cxl) with | some e => e.tag.toNat | none => 0) else 0

/-- The line that RdOwn brought takes the bytes of the write that asked for it (R366). -/
def mergeWrite (s : State) (w : HeldWrite) (res : HostAnswer) : State :=
  let off := w.addr.toNat % 64
  mergeOwned s (lineOf true w.addr.toNat) res (BitVec.ofNat 512 (bytesNat w.bytes * 2 ^ (8 * off)))
    (BitVec.ofNat 64 ((2 ^ w.bytes.length - 1) * 2 ^ off)) (if w.poison then 3 else 0)

/-- The host answers D2H request `i`: GO for a write, or the line it is merged into, data for a core's read, which a freeze or the safe state
holds. -/
def hostAnswers (s : State) (i : Nat) (res : HostAnswer) : State :=
  match s.cxl.d2h[i]? with
  | none => s
  | some d =>
    match d.w with
    | some w =>
      let s1 := dropD2h s i
      afterWrite (if res.error then responseLost s1 w else if d.op = 2 then mergeWrite s1 w res else s1)
    | none =>
      match d2hAccess s d with
      | some (k, _) => if s.frz.on || stopped s then s else accessDone s d.core k res
      | none => dropD2h s i

/-- CXL_CACHE_RESPONSE (09 R384). -/
def execCxlCacheResponse (i : Nat) (res : HostAnswer) (s : State) : Res := .next (hostAnswers s i res)

/-- A request is answered to its requester with an error (R386): a write is lost with CTO, a core's read ends in GLOBAL_ERR. -/
def requestFails (s : State) (d : D2h) (i : Nat) : State :=
  match d.w with
  | some w => responseLost (raiseErrX (dropD2h s i) .ep 1 (d.line.toNat * 64) (d2hTag s d) false false) w
  | none =>
    match d2hAccess s d with
    | some (k, a) => accessError s d.core k a (d2hTag s d)
    | none => dropD2h s i

/-- COMPLETION_TIMEOUT (09 R386). The timers stand still while the timeout is disabled. -/
def execCompletionTimeout (i : Nat) (s : State) : Res :=
  .next (if s.cxl.ctoDis then s
    else match s.cxl.d2h[i]? with
      | none => s
      | some d => afterWrite (requestFails (cntPreg s .ep 0x14C 1) d i))

/-- Every outstanding request fails when the link goes down (R388): the writes are lost and listed by the freeze (R396). -/
def failAll (s : State) : State :=
  let ds := s.cxl.d2h
  let s1 := { s with cxl := { s.cxl with d2h := [] } }
  ds.foldl (fun t d => match d.w with
    | some w => discardWrite (raiseErrX t .ep 1 (d.line.toNat * 64) (d2hTag t d) false false) w
    | none => match d2hAccess t d with
      | some (k, a) => accessError t d.core k a (d2hTag t d)
      | none => t) s1

/-- The link is lost (R388); messages still queued are discarded (R402). -/
def linkLost (s : State) : State :=
  if s.cxl.link = .down then s
  else
    let s1 := raiseErr (setPreg s .ep 0x100 0) .ep 5
    failAll (enterFreeze (endEpisode (setLink { s1 with cxl := { s1.cxl with l0pOk := false, msixQ := [] } } .down) .cxl) 4)

/-- LINK_DOWN (09 R388). -/
def execLinkDown (s : State) : Res := .next (linkLost s)

/-! ## Link power (R382, R383, R406) -/

/-- EP_LINK_STAT [10]: L0p at x8. -/
def atX8 (s : State) : Bool := bit (preg s .ep 0x100) 10

/-- L0p applies: enabled, advertised by the partner, trained at x16, in L0. -/
def l0pOn (s : State) : Bool := bit (preg s .ep 0x104) 0 && s.cxl.l0pOk && decide (s.cxl.link = .l0)

/-- The link is in L0 and nothing of the device waits on it (R382). -/
def linkIdle (s : State) : Bool :=
  decide (s.cxl.link = .l0) && s.cxl.d2h.isEmpty && s.cxl.wq.isEmpty && s.cxl.msixQ.isEmpty && decide (preg s .ep 0xA00 = 0)

/-- L1_ENTRY (09 R382). An L0p request in the same cycle abandons it (R406). -/
def execL1Entry (l0p : Bool) (s : State) : Res :=
  .next (if linkIdle s && s.cxl.l1En && !(decide (fld (preg s .ep 0x108) 0 16 = 0)) && !l0p then
      emit (setLink (cntPreg s .ep 0x15C 1) .l1) (.linkReq 1)
    else s)

/-- L1_EXIT (09 R382). -/
def execL1Exit (s : State) : Res := .next (if s.cxl.link = .l1 then emit (setLink s .l0) (.linkReq 2) else s)

/-- The width of L0p changes, counted when it narrows. -/
def setX8 (s : State) (x8 : Bool) : State :=
  if atX8 s = x8 then s
  else raiseInt (when x8 (fun t => cntPreg t .ep 0x160 1) (setPreg s .ep 0x100 (setBit (preg s .ep 0x100) 10 x8))) .ep 16

/-- L0P_NARROW (09 R383). -/
def execL0pNarrow (s : State) : Res := .next (if l0pOn s && !(atX8 s) then emit (setX8 s true) (.linkReq 3) else s)

/-- L0P_WIDEN (09 R383). -/
def execL0pWiden (s : State) : Res := .next (if l0pOn s && atX8 s then emit (setX8 s false) (.linkReq 4) else s)

/-- PARTNER_L0P_REQUEST (09 R383): accepted in both directions. -/
def execPartnerL0pRequest (x8 : Bool) (s : State) : Res := .next (if l0pOn s then emit (setX8 s x8) (.linkReq 5) else s)

/-! ## Unsupported requests and the peer aperture (R374 to R376, 06 R257) -/

/-- A request answered UR (R376): recorded in EP_UR_LAST and AER. A posted one is discarded without an answer. -/
def answerUr (s : State) (cause : Nat) (requester : W16) (posted : Bool) : State :=
  let s1 := cntPreg (setPreg s .ep 0x144 (BitVec.ofNat 32 (requester.toNat + cause * 2 ^ 16))) .ep 0x148 1
  let s2 := raiseErr { s1 with cxl := { s1.cxl with aer := setBit s1.cxl.aer 20 true } } .ep 0 requester.toNat
  if posted then s2 else emit s2 (.ur requester)

/-- Memory requests are refused: Memory Space Enable is 0, or the function is in D3hot. -/
def memClosed (s : State) : Bool := !s.cxl.memSpace || s.cxl.d3hot

/-- UNSUPPORTED_REQUEST (09 R376). Cause 5 needs a function that refuses memory requests. -/
def execUnsupportedRequest (cause : Fin 7) (requester : W16) (posted : Bool) (s : State) : Res :=
  .next (if s.cxl.link = .down ∨ cause.val = 0 ∨ (cause.val = 5 ∧ memClosed s = false) then s
    else answerUr s cause.val requester posted)

/-- The window of a BAR2 offset lets the requester write (R374). -/
def winAllows (s : State) (w : Nat) (requester : W16) : Bool :=
  (List.range 16).any fun k =>
    let a := preg s .ep (0x400 + 4 * k)
    bit a 16 && decide (fld a 0 16 = requester.toNat) && bit (preg s .ep (0x200 + 8 * w)) (16 + k)

/-- A write at a BAR2 offset (R374, R391; 06 R257). -/
def bar2Write (s : State) (requester : W16) (o : Nat) (bytes : List Byte) (relaxed : Bool) : State :=
  let w := o / 2 ^ 26
  if s.cxl.link = .down then s
  else if memClosed s then answerUr s 5 requester true
  else if s.frz.on || !(enabled s .ep) || !(bit (preg s .ep (0x200 + 8 * w)) 0) then answerUr s 3 requester true
  else if winAllows s w requester = false then answerUr s 2 requester true
  else
    let pa : BitVec 40 := BitVec.ofNat 40 (fld (preg s .ep (0x204 + 8 * w)) 0 13 * 2 ^ 26 + o % 2 ^ 26)
    pumpInbound { s with cxl := { s.cxl with inbound := s.cxl.inbound ++ [⟨requester, relaxed, pa, bytes⟩] } }

/-- BAR2_WRITE (09 R374). -/
def execBar2Write (requester : W16) (off : BitVec 32) (bytes : List Byte) (relaxed : Bool) (s : State) : Res :=
  .next (bar2Write s requester off.toNat bytes relaxed)

/-! ## MSI-X (R378, R379) -/

/-- A vector that is no longer masked sends the message its PBA bit holds. -/
def flushPba (s : State) (v : Fin 32) : State :=
  if bit (preg s .ep 0xA00) v.val && s.cxl.msixEn && !s.cxl.funcMask && !(bit (preg s .ep (0x80C + 16 * v.val)) 0) && !s.cxl.d3hot then
    sendMsix (clrPreg s .ep 0xA00 (one32 v.val)) v
  else s

/-- A write of a vector's control word. -/
def vectorCtrlWrite (s : State) (v : Fin 32) (x : W32) : State := flushPba (pageWrite s .ep (0x80C + 16 * v.val) x).st v

/-- MSIX_UNMASK (09 R378). -/
def execMsixUnmask (vector : Fin 32) (v : W32) (s : State) : Res := .next (vectorCtrlWrite s vector v)

/-- Function Mask or MSI-X Enable changed: pending messages go, and INTA follows. -/
def flushAll (s : State) : State := updateInta ((List.finRange 32).foldl flushPba (flushMsix s))

/-! ## Configuration space (R370, R371, R381, R389) -/

/-- A configuration request reaches the function: not while the link is down, nor during an FLR, which answers with Retry (15 R623). -/
def cfgGate (s : State) (g : State → State) : State :=
  if s.cxl.link = .down then s
  else if s.cxl.flr then emit s .cfgRetry
  else g s

/-- Writable bits of the BAR words (R373). -/
def barMask (i : Nat) : W32 := nth [0xFC000000, 0xFFFFFFFF, 0x00000000, 0xFFFFFFFF, 0xFFF00000, 0xFFFFFFFF] i 0

def setBar (s : State) (i : Fin 6) (v : W32) : State := { s with cxl := { s.cxl with bars := s.cxl.bars.set i (v &&& barMask i.val) } }

/-- A configuration write of one field (R370, R371). A one-bit field takes bit 0 of the value. -/
def cfgWrite (s : State) (f : CfgField) (v : W32) : State :=
  let b := bit v 0
  let c := s.cxl
  match f with
  | .memorySpace => { s with cxl := { c with memSpace := b } }
  | .busMaster => { s with cxl := { c with busMaster := b } }
  | .parityErrorResponse => { s with cxl := { c with parityResp := b } }
  | .serrEnable => { s with cxl := { c with serr := b } }
  | .interruptDisable => updateInta { s with cxl := { c with intDisable := b } }
  | .msixEnable => flushAll { s with cxl := { c with msixEn := b } }
  | .functionMask => flushAll { s with cxl := { c with funcMask := b } }
  | .enableRelaxedOrdering => { s with cxl := { c with relaxEn := b } }
  | .aspmL1Enable => { s with cxl := { c with l1En := b } }
  | .cacheEnable => withReady (fun t => { t with cxl := { t.cxl with cacheEn := b } }) s
  | .memEnable => withReady (fun t => { t with cxl := { t.cxl with memEn := b } }) s
  | .disableCaching => { s with cxl := { c with disCache := b } }
  | .interruptLine => { s with cxl := { c with intLine := v.setWidth 8 } }
  | .bar0Lo => setBar s 0 v
  | .bar0Hi => setBar s 1 v
  | .bar2Lo => setBar s 2 v
  | .bar2Hi => setBar s 3 v
  | .bar4Lo => setBar s 4 v
  | .bar4Hi => setBar s 5 v

/-- A write of PowerState (R381, R408): D3hot is refused while Cache_Enable or Mem_Enable is 1. -/
def powerStateWrite (s : State) (d3hot : Bool) : State :=
  if d3hot && (s.cxl.cacheEn || s.cxl.memEn) then raiseErr s .ep 2
  else
    let s1 := updateInta { s with cxl := { s.cxl with d3hot := d3hot } }
    if d3hot then s1 else flushAll s1

/-- POWER_STATE_WRITE (09 R381). -/
def execPowerStateWrite (d3hot : Bool) (s : State) : Res := .next (cfgGate s fun t => powerStateWrite t d3hot)

/-- Upper bound of a Completion Timeout Value in µs (R386); the ranges of the encodings are PCIe's, none for a reserved one (PRESUMED,
assumption 7). -/
def ctoRange (v : Nat) : Option Nat :=
  nth [some 50000, some 100, some 10000, none, none, some 55000, some 210000, none, none, some 900000, some 3500000, none, none,
    some 13000000, some 64000000, none] v none

/-- EP_CTO_EFF: 0 while disabled. -/
def ctoEff (c : Cxl) : Nat := if c.ctoDis then 0 else (ctoRange c.ctoVal.toNat).getD 50000

/-- EP_LINK_BUDGET. -/
def linkBudget (s : State) : Nat := fld (preg s .ep 0x110) 0 16

/-- A change of the timeout takes effect unless it would fall below the budget (R389). A disabled timeout never does. -/
def ctoChange (s : State) (c : Cxl) : State :=
  if c.ctoDis = false ∧ ctoEff c < linkBudget s then raiseErr s .ep 2 else { s with cxl := c }

/-- A write of EP_LINK_BUDGET (R389): a budget above the effective timeout is rejected. -/
def budgetWrite (s : State) (v : W32) : State :=
  let x := fld v 0 16
  if bit (preg s .ep 0x44) 0 = false ∧ 100 ≤ x ∧ s.cxl.ctoDis = false ∧ ctoEff s.cxl < x then raiseErr s .ep 2
  else (pageWrite s .ep 0x110 v).st

/-- COMPLETION_TIMEOUT_WRITE (09 R389). A reserved timeout value is not taken. -/
def ctoWrite (s : State) (reg : CtoReg) : State :=
  match reg with
  | .value v => cfgGate s fun t => if (ctoRange v.toNat).isNone then t else ctoChange t { t.cxl with ctoVal := v }
  | .disable b => cfgGate s fun t => ctoChange t { t.cxl with ctoDis := b }
  | .budget v => budgetWrite s v

def execCompletionTimeoutWrite (reg : CtoReg) (s : State) : Res := .next (ctoWrite s reg)

/-! ## DOE (R371, R372) -/

/-- The entries of the CDAT, after the header (R372): DSMAS, four DSLBIS, DSEMTS. The layout is the CDAT specification's, and the base units,
1,000 ps and 1,000 MB/s, are the model's (PRESUMED, assumption 7). -/
def cdatEntries : List (List Byte) :=
  let dslbis (kind value : Nat) : List Byte :=
    natBytes 4 (1 + 24 * 2 ^ 16) ++ natBytes 4 (kind * 2 ^ 16) ++ natBytes 8 1000 ++ natBytes 8 value
  [ natBytes 8 (0 + 24 * 2 ^ 16) ++ natBytes 8 0 ++ natBytes 8 (2 ^ 34), dslbis 1 150, dslbis 2 150, dslbis 4 120, dslbis 5 120,
    natBytes 8 (4 + 24 * 2 ^ 16 + 1 * 2 ^ 40) ++ natBytes 8 0 ++ natBytes 8 (2 ^ 34) ]

/-- The header, with the checksum that makes all bytes of the table add up to 0 (R372). -/
def cdatHeader : List Byte :=
  let body := cdatEntries.flatten
  let sum := (natBytes 4 160 ++ [(1 : Byte)] ++ body).foldl (· + ·) (0 : Byte)
  natBytes 4 160 ++ [1, -sum] ++ natBytes 6 0 ++ natBytes 4 0

/-- The words of a byte string. -/
def byteWords : Nat → List Byte → List W32
  | 0, _ => []
  | fuel + 1, bs => if bs.isEmpty then [] else BitVec.ofNat 32 (bytesNat (bs.take 4)) :: byteWords fuel (bs.drop 4)

/-- A DOE response object: its protocol, its length in words, its words. -/
def doeObject (vendor : Nat) (type : Nat) (ws : List W32) : Out :=
  .doe (BitVec.ofNat 32 (vendor + type * 2 ^ 16) :: BitVec.ofNat 32 (ws.length + 2) :: ws)

/-- DOE_REQUEST (09 R371): discovery and CDAT; anything else is the error bit. Indices beyond the two protocols, and handles beyond the table,
are answered as the PCIe and CXL texts have it (PRESUMED, assumption 7). -/
def doeRequest (s : State) (vendor : W16) (type index : Byte) : State :=
  if vendor.toNat = 1 ∧ type.toNat = 0 then
    emit s (doeObject 1 0 [nth [0x01000001, 0x00021E98] index.toNat 0x0000FFFF])
  else if vendor.toNat = 0x1E98 ∧ type.toNat = 2 then
    (match (cdatHeader :: cdatEntries)[index.toNat]? with
      | some e => emit s (doeObject 0x1E98 2
          (BitVec.ofNat 32 ((if index.toNat = 6 then 0xFFFF else index.toNat + 1) * 2 ^ 16) :: byteWords 64 e))
      | none => emit s .doeError)
  else emit s .doeError

def execDoeRequest (vendor : W16) (type : Byte) (index : Byte) (s : State) : Res := .next (cfgGate s fun t => doeRequest t vendor type index)

/-! ## The HDM decoder (R368, R405) -/

/-- COMMIT: refused without BI_EN or Mem_Enable. -/
def commitHdm (s : State) : State :=
  if bit (preg s .ep 0x120) 2 && s.cxl.memEn then clrPreg (orPreg s .ep 0x120 0x100) .ep 0x120 0x200
  else raiseErr (orPreg s .ep 0x120 0x200) .ep 11

/-- UNCOMMIT runs until no back-invalidate is out (R405). -/
def uncommitHdm (s : State) : State := uncommitCheck { s with cxl := { s.cxl with uncommitting := true } }

/-- A write of EP_HDM_CTRL. -/
def hdmCtrlWrite (s : State) (v : W32) : State :=
  let w := pageWrite s .ep 0x120 v
  let s1 := if w.started 0 then goDone (commitHdm w.st) .ep 0x120 0 else w.st
  if w.started 1 then uncommitHdm s1 else s1

/-- COMMIT (09 R368). -/
def execCommit (v : W32) (s : State) : Res := .next (hdmCtrlWrite s v)

/-- UNCOMMIT (09 R405). -/
def execUncommit (v : W32) (s : State) : Res := .next (hdmCtrlWrite s v)

end Sys2Proof.Machine
end

