-- ==== Sys2Proof/Machine/Control.lean ====
section
/-! DEFINITION. CTRL of every page: enables, fences and soft resets, and what a soft reset leaves of each block (03 R83, R84, R87). -/

namespace Sys2Proof.Machine

/-! ## Soft reset (03 R87) -/

/-- Host software's accesses to a page's pairs start afresh: staging registers and captured halves at 0x100 and above. -/
def resetPairs (s : State) (p : Page) : State :=
  let out (e : Nat × W32) : Bool := !(decide (pageBase p + 0x100 ≤ e.1) && decide (e.1 < pageBase p + 0x1000))
  { s with staged := s.staged.filter out, captured := s.captured.filter out }

/-- The registers below 0x100 that a soft reset clears. -/
def clearCommon (s : State) (p : Page) : State :=
  updateInta ([0x10, 0x20, 0x24, 0x28, 0x2C, 0x30, 0x3C].foldl (fun t o => setPreg t p o 0) s)

/-- Registers at 0x100 and above that a soft reset of a page leaves: the BT page's boot values (15), the EP page's view of the link and its
freeze (09), and the flash base that the slipway gives (13 R564). Counters go with the page's other registers (03 R87), also those of a GC page, of which 04
R133 speaks for a core reset alone; the channel epoch is no register of the file and stays (DESIGN CHOICE, assumption 26). -/
def softKept (p : Page) (o : Nat) : Bool :=
  match p with
  | .bt => true
  | .lb => decide (o = 0x108)
  | .ep => decide (o = 0x100) || (decide (0x180 ≤ o) && decide (o < 0x1A4))
  | _ => false

/-- The BIST bits of a cache's WAY_OFF are its reset value, which each device has of its own (08 R334, R335). -/
def bistWays (s : State) : Page → Nat × W32
  | .dc n => (0x104, preg s (.dc n) 0x104 &&& 0xFFFF)
  | .cl n => (0x108, preg s (.cl n) 0x108 &&& 0xFF)
  | _ => (0, 0)

/-- The VT page is reset: its tables are empty, its drains end, and the INVALIDATEs that they belong to are answered (assumption 26). -/
def resetTables (s : State) : State :=
  let ds := s.drains
  ds.foldl (fun t d => match d.ending with
    | .answer mb slot seq => endTaken t mb slot seq 0 d.gen.toNat
    | _ => t) { s with ctxs := Vector.replicate 16 vtCtxReset, drains := [] }

/-- ACQs that wait when the lock unit is reset end with RANGE, as every ACQ does while ENABLE is 0 (04 R142; assumption 26). -/
def endAcquires (s : State) (id : Fin 256) : State :=
  (s.core id).waits.foldl (fun t w => match w with
    | .acq rd _ => endWait t id w rd (acqWord 3 false 0 0)
    | _ => t) s

/-- What a reset of the FM page leaves of a command not yet answered: an inline write still completes its effect (15 R623); a drain, an ended manifest
and a fence need no command for theirs. -/
def silenced (t : Taken) : Option Taken :=
  match t.kind with
  | .inline _ => some { t with dups := [], silent := true }
  | _ => none

/-- The FM page is reset (06 R252; 15 R623): every window is empty, and commands not yet answered are not answered. -/
def resetMailboxes (s : State) : State :=
  { s with mailboxes := Vector.ofFn fun m => { mailboxReset with taken := (s.mailboxes.get m).taken.filterMap silenced } }

/-- A landing-window move in progress ends without effect, and the requests it held go on. -/
def dropMove (s : State) : State :=
  let held := s.lw.heldReqs
  held.foldl (fun t r => hostMem t r.1 r.2) { s with lw := { s.lw with move := none, scanned := false, todo := [], heldReqs := [] } }

/-- The internal state of a block at a soft reset (03 R87; assumption 26). A mover's manifests go on ending with RESET (06 R241). Caches are flushed before (08 R329), the placement loop keeps its
map and move record (11 R488), the logbook its rings (13), and requests in the matrix stay, since they are never dropped (06 R263). -/
def resetInside (s : State) (p : Page) : State :=
  match p with
  | .td => { s with tide := { tideReset with refOk := s.tide.refOk } }
  | .al => { s with eqs := [], scrubs := Vector.replicate 8 scrubReset }
  | .xb => { s with xb := { s.xb with ptr := Vector.replicate 26 0, prio := [], burst := Vector.replicate 26 0 } }
  | .vt => resetTables s
  | .lw => dropMove s
  | .ep => { s with cxl := { s.cxl with uncommitting := false } }
  | .fm => resetMailboxes s
  | .ml => { (List.finRange 256).foldl endAcquires s with locks := Vector.replicate 1024 lockReset }
  | .sd => { s with sdArmed := 0, sdChanged := 0 }
  | .pl => { s with pl := { s.pl with pins := [], queued := none, begun := 0, steps := 0, heat := [] } }
  | .dc n => s.setSlice n { s.slice n with enabled := false, wayErr := [], retries := [], lastWin := [], invalidated := true, dirtyOff := false }
  | .cl n =>
    let s1 := resetMover s n
    s1.setCl n { s1.cl n with mover := { moverReset with queues := (s1.mover n).queues }
                              cc := { (s1.cl n).cc with enabled := false, wayErr := [], invalidated := true, dirtyOff := false }
                              pw := { (s1.cl n).pw with pwrLim := powerReset.pwrLim, tjLim := powerReset.tjLim } }
  | .xl n => s.setPort n portReset
  | .gc id =>
    let was := (s.core id).st
    let s1 := resetCore s id
    if was = .fenced then s1.setCore id { s1.core id with st := .fenced, part := BitVec.ofNat 4 (partOfCluster s (clusterOf id).val) } else s1
  | .dev | .fc | .lb | .gp | .bt | .mc _ => s

/-- The reset itself, once the block has been disabled and its caches flushed; then SOFT_RESET completes. -/
def softResetEnd (s : State) (p : Page) : State :=
  let s1 := clrPreg (resetInside s p) p 8 5
  let w := bistWays s p
  let s2 := clearCommon (resetPairs (resetRegs s1 p (softKept p)) p) p
  settle (goDone (if w.1 = 0 then s2 else orPreg s2 p w.1 w.2) p 8 2)

/-- The cache of a page, if it has one that a soft reset flushes first (08 R329). -/
def pageCache : Page → Option CacheId
  | .dc n => some (.slice n)
  | .cl n => some (.cluster n)
  | _ => none

/-! ## INVALIDATED (08 R328) -/

/-- A FLUSH or INV completes, and with it a soft reset that waited for it. -/
def clearEnd (s : State) (c : CacheId) : State :=
  match clearingOf s c with
  | none => s
  | some fl =>
    if clearReady s c then
      let s1 := finishClear (match c with
        | .cluster n => clusterClear s n fl
        | .slice n => sliceClear s n fl) c
      if bit (preg s1 (cachePage c) 8) 2 then softResetEnd s1 (cachePage c) else s1
    else s

/-- INVALIDATED (08 R328): who waited for a way or a line goes on. -/
def execInvalidated (cache : CacheId) (s : State) : Res := .next (settle (clearEnd s cache))

/-! ## Writing CTRL -/

/-- ENABLE of the standstill detector changed: evaluation starts afresh (04 R150). -/
def sdEnableAct (s : State) : State := setPreg { s with sdArmed := 0, sdChanged := 0 } .sd 0x114 0

/-- CTRL.ENABLE of a page has changed; `again` where the write was rejected in part. -/
def enableAct (s : State) (p : Page) (on again : Bool) : State :=
  match p with
  | .td => if on then tideStart s again else tideStop s
  | .lw => lwEnableAct s on again
  | .sd => sdEnableAct s
  | .dc n => cacheEnableAct s (.slice n) on again
  | .xl n => xlEnableAct s n on
  | .gc id => gcEnableAct s id on
  | _ => s

/-- CTRL.FENCE written 0 (03 R83): the unit leaves the fence, unless BIST fenced it (15 R631). -/
def unfencePage (s : State) (p : Page) : State :=
  if s.boot.stuck.contains p then s
  else match p with
    | .gc id => unfenceCore s id
    | .xl n => xlUnfence (clrPreg s p 8 2) n
    | .ep => releaseFreeze s
    | _ => clrPreg s p 8 2

/-- CTRL.FENCE is written. On the EP page a 0 releases a freeze, whatever caused it (09 R394). -/
def fenceAct (s : State) (p : Page) (was now : Bool) : State :=
  if now then (if was then s else fencePage s p)
  else if was then unfencePage s p
  else if p = .ep then releaseFreeze s
  else s

/-- SOFT_RESET has been started: a cache is flushed first, and resets when that is done; any other block is disabled and reset. A core's
disable is its core reset, which the reset itself performs. -/
def softResetStart (s : State) (p : Page) : State :=
  match pageCache p, p with
  | some c, _ => startClear s c true
  | none, .gc _ => softResetEnd s p
  | none, _ => softResetEnd (if enabled s p then enableAct (clrPreg s p 8 1) p false false else s) p

/-- The core of a GC page. -/
def pageCore : Page → Option (Fin 256)
  | .gc id => some id
  | _ => none

/-- A write of CTRL of a page: fence, then enable, then soft reset, each with what it does to the block. ENABLE = 1 acts on a core each time
that it is written (04 R132): one that a fence or a partition reset has left in RESET starts with the next such write (04 R134). -/
def ctrlWrite (s : State) (p : Page) (v : W32) : State :=
  withAlive (withReady fun s =>
    let wasEn := enabled s p
    let wasFence := fenced s p
    let w := pageWrite s p 8 v
    if w.ok = false then w.st
    else
      let nowEn := enabled w.st p
      let nowFence := fenced w.st p
      let s1 := setPreg w.st p 8 (setBit (preg w.st p 8) 1 wasFence)
      let s2 := fenceAct s1 p wasFence nowFence
      let s3 := if wasEn = nowEn ∧ nowEn = false then s2 else if wasEn = nowEn ∧ pageCore p = none then s2 else enableAct s2 p nowEn w.rej
      if w.started 2 then softResetStart s3 p else s3) s

/-- GC_ENABLE (04 R132). -/
def execGcEnable (core : Fin 256) (v : W32) (s : State) : Res := .next (ctrlWrite s (.gc core) v)

/-- XL_ENABLE (10 R416). -/
def execXlEnable (port : Fin 8) (v : W32) (s : State) : Res := .next (ctrlWrite s (.xl port) v)

/-- PL_ENABLE (11 R488): a swap in progress stops at a chunk boundary, since no chunk begins while ENABLE is 0. -/
def execPlEnable (v : W32) (s : State) : Res := .next (ctrlWrite s .pl v)

/-- LW_ENABLE (08 R343). -/
def execLwEnable (v : W32) (s : State) : Res := .next (ctrlWrite s .lw v)

/-- CACHE_ENABLE (08 R329): CL_CC_CTRL of a cluster cache, CTRL of a slice's page. Where a FLUSH or INV completes in the same cycle, the write is met
first, and INVALIDATED is set after it (R352). -/
def execCacheEnable (cache : CacheId) (v : W32) (completes : Bool) (s : State) : Res :=
  let t := match cache with
    | .cluster n => ccCtrlWrite s n v
    | .slice n => ctrlWrite s (.dc n) v
  .next (if completes then settle (clearEnd t cache) else t)

/-- CTRL_FENCE_WRITE (03 R83): ENABLE is written as it stands. -/
def execCtrlFenceWrite (page : Page) (fence : Bool) (s : State) : Res :=
  .next (ctrlWrite s page (BitVec.ofNat 32 (b2n (enabled s page) + b2n fence * 2)))

/-- SOFT_RESET (03 R87): ENABLE and FENCE are written as they stand. -/
def execSoftReset (page : Page) (s : State) : Res :=
  .next (ctrlWrite s page (BitVec.ofNat 32 (b2n (enabled s page) + b2n (fenced s page) * 2 + 4)))

/-- PAGE_LOCK (03 R94). -/
def execPageLock (page : Page) (v : W32) (s : State) : Res := .next (pageWrite s page 0x44 v).st

end Sys2Proof.Machine
end

