-- ==== Sys2Proof/Machine/Logbook.lean ====
section
/-! DEFINITION. The logbook: its ring, its snapshots to the flash ring, and the LB page's actions (13 R551 to R564, R570 to R575). -/

namespace Sys2Proof.Machine

/-! ## The ring (13 R551, R552, R560) -/

/-- An entry takes the step and phase of when it is written; a fault record carries its own. While the TD page is disabled they read 0 (R553). -/
def stampEntry (s : State) (e : BitVec 256) : BitVec 256 :=
  if entryKind e = 0 then e
  else if enabled s .td then setFld (setFld e 128 48 s.tide.step.toNat) 176 32 s.tide.phase.toNat
  else setFld (setFld e 128 48 0) 176 32 0

/-- HEAD as a snapshot's header holds it. -/
def snapHead (x : Snap) : Nat := fld x.header 248 12

/-- The next ring index holds an entry that the running snapshot has still to copy: those of a body page are copied when the page has been
programmed (R560; assumption 27). -/
def headBlocked (s : State) : Bool :=
  match s.lb.snap with
  | none => false
  | some x =>
    let n := x.entries.length
    let first := (snapHead x + 4096 - n) % 4096
    let j := (s.lb.head.toNat + 4096 - first) % 4096
    decide (j < n) && decide (8 * (x.ops - 1) ≤ j)

/-- An entry is not recorded (R552). -/
def loseEntry (s : State) : State :=
  { cntPreg s .lb 0x11C 1 with lb := { s.lb with lost := satAdd s.lb.lost 1 } }

/-- Writes an entry at HEAD. -/
def ringPut (s : State) (e : BitVec 256) : State :=
  let h := s.lb.head
  { cntPreg s .lb 0x120 1 with
    lb := { s.lb with ring := sset (fun _ => 0) s.lb.ring h.toNat (stampEntry s e), head := h + 1,
                      wrapped := s.lb.wrapped || decide (h = 0xFFF) } }

/-- Writes an entry, or loses it. -/
def ringWrite (s : State) (e : BitVec 256) : State := if headBlocked s then loseEntry s else ringPut s e

/-- The DROPPED entry before the next one, after losses (R552). -/
def droppedFirst (s : State) : State :=
  if s.lb.lost = 0 ∨ headBlocked s = true then s
  else ringPut { s with lb := { s.lb with lost := 0 } } (BitVec.ofNat 256 (s.lb.lost.toNat + 11 * 2 ^ 232))

/-- The writer takes one entry from the input queue (R552). -/
def writeOne (s : State) : State :=
  match s.lb.inq with
  | [] => s
  | e :: rest => ringWrite (droppedFirst { s with lb := { s.lb with inq := rest } }) e

/-- The writer takes every queued entry: the time before a snapshot fixes its entries (assumption 27). -/
def writeAll (s : State) : State := (List.range s.lb.inq.length).foldl (fun t _ => writeOne t) s

/-- LOGBOOK_ENTRY (13 R552). -/
def execLogbookEntry (s : State) : Res := .next (writeOne s)

/-! ## The flash ring (13 R555 to R558) -/

/-- The slot `k` after the newest committed one in ring order; slots 0 and 1 follow when none is committed (assumption 5). -/
def readySlot (s : State) (k : Nat) : Fin 16 :=
  match s.lb.newest with
  | some n => fin 16 (n.val + 1 + k)
  | none => fin 16 k

/-- A slot is erased. -/
def slotErased (s : State) (n : Fin 16) : Bool := (s.lb.slots.get n).erased

/-- The ready slots that are erased, in ring order (R558). -/
def readyErased (s : State) : List (Fin 16) := ([readySlot s 0, readySlot s 1]).filter (slotErased s)

def setSlot (s : State) (n : Fin 16) (x : FlashSlot) : State := { s with lb := { s.lb with slots := s.lb.slots.set n x } }

/-- The first ready slot that is to be erased. -/
def slotToErase (s : State) : Option (Fin 16) := ([readySlot s 0, readySlot s 1]).find? fun n => !slotErased s n

/-- With no snapshot running, the erase of a ready slot that is not erased begins (R558). -/
def eraseNext (s : State) : State :=
  match s.lb.snap, slotToErase s with
  | none, some n => emit s (.flash n 0)
  | _, _ => s

/-- A page of 256 bytes, erased beyond what is programmed. -/
def pageOf (bs : List Byte) : List Byte := bs ++ List.replicate (256 - bs.length) 0xFF

/-- The bytes of entries. -/
def entryBytes (es : List (BitVec 256)) : List Byte := es.flatMap (bvBytes 32)

/-- Page `p` of a slot (R555). -/
def slotPage (x : FlashSlot) (p : Nat) : List Byte :=
  if p = 0 then pageOf (match x.header with | some h => bvBytes 45 h | none => [])
  else if p < 511 then pageOf (entryBytes ((x.body.drop (8 * (p - 1))).take 8))
  else (match x.crc with | some c => bvBytes 4 c | none => List.replicate 4 0xFF) ++ List.replicate 244 0xFF
    ++ (if x.commit then bvBytes 4 (0xA55AC33C : W32) else List.replicate 4 0xFF) ++ List.replicate 4 0xFF

/-- The body pages that hold `n` entries. -/
def bodyPages (n : Nat) : Nat := (n + 7) / 8

/-- The CRC of a slot's header page and body pages (R555). -/
def slotCrc (x : FlashSlot) : W32 :=
  crc32Bytes ((List.range (bodyPages x.body.length + 1)).flatMap (slotPage x))

/-- The sequence number in a slot's header. -/
def slotSeq (x : FlashSlot) : W32 := match x.header with | some h => BitVec.ofNat 32 (fld h 72 32) | none => 0

/-- A slot whose header has the magic and the format (R562). -/
def headerGood (x : FlashSlot) : Bool :=
  match x.header with | some h => decide (fld h 0 32 = 0x4C473308) && decide (fld h 32 16 = 1) | none => false

/-- A valid slot (R562). -/
def slotValid (x : FlashSlot) : Bool := x.commit && headerGood x && decide (x.crc = some (slotCrc x))

/-- The header of a snapshot (R556). -/
def snapHeader (s : State) (kind pages head : Nat) : BitVec 360 :=
  BitVec.ofNat 360 (0x4C473308 + 1 * 2 ^ 32 + kind % 256 * 2 ^ 48 + pages % 65536 * 2 ^ 56 + (preg s .lb 0x114).toNat * 2 ^ 72
    + preg64 s .dev 0x108 * 2 ^ 104 + s.tide.step.toNat * 2 ^ 168 + s.tide.phase.toNat * 2 ^ 216 + head * 2 ^ 248
    + (preg s .fc 0x108).toNat * 2 ^ 264 + (devReady s).toNat * 2 ^ 296 + (preg s .dev 4).toNat * 2 ^ 328)

/-! ## Snapshots (13 R558 to R561, R570 to R575) -/

/-- A SNAP entry: event, kind, slot, SEQ (R554). -/
def offerSnap (s : State) (event kind slot : Nat) (seq : W32) : State :=
  offer s 8 (event + kind * 2 ^ 8 + slot * 2 ^ 16 + seq.toNat * 2 ^ 32)

/-- The newest `n` ring entries, oldest first. -/
def newestEntries (s : State) (n : Nat) : List (BitVec 256) :=
  let k := min n (if s.lb.wrapped then 4096 else s.lb.head.toNat)
  (List.range k).map fun i => sget (fun _ => 0) s.lb.ring ((s.lb.head.toNat + 4096 - k + i) % 4096)

/-- Entries a snapshot saves: 8 in each of PF_PAGES pages, or 510 pages. -/
def snapCount (s : State) (short : Bool) : Nat := if short then 8 * fld (preg s .lb 0x100) 8 3 else 4080

/-- A host snapshot ends, and LB_CTRL.SNAP with it (R574). -/
def snapGoDone (s : State) (host : Bool) : State := if host then goDone s .lb 0x100 0 else s

/-- A snapshot starts in the first erased ready slot, or is skipped (R558). -/
def beginSnap (s : State) (kind : Nat) (short host : Bool) : State :=
  match readyErased s with
  | [] => snapGoDone (raiseErr (offerSnap s 3 kind 0 (preg s .lb 0x114)) .lb 1) host
  | slot :: _ =>
    let seq := preg s .lb 0x114
    let s1 := writeAll (offerSnap s 0 kind slot.val seq)
    let es := newestEntries s1 (snapCount s1 short)
    let h := snapHeader s1 kind (bodyPages es.length) s1.lb.head.toNat
    let x : Snap := ⟨BitVec.ofNat 2 kind, short, slot, seq, h, es, 0, host⟩
    let s2 := setSlot s1 slot { flashSlotErased with erased := false }
    emit { s2 with lb := { s2.lb with snap := some x } } (.flash slot 1)

/-- Snapshots that waited for this one: a FATAL one, then a HOST one (R571, R574). -/
def nextSnap (s : State) : State :=
  if s.lb.snap.isSome then s
  else
    let s1 := if s.lb.fatalWaits then beginSnap { s with lb := { s.lb with fatalWaits := false } } 1 false false else s
    let s2 := if s1.lb.snap.isNone && s1.lb.hostWaits then beginSnap { s1 with lb := { s1.lb with hostWaits := false } } 3 false true else s1
    eraseNext s2

/-- A FATAL snapshot is asked for by the safe state (R559, R571, R572). -/
def fatalSnap (s : State) : State :=
  if enabled s .lb && bit (preg s .lb 0x100) 3 then
    match s.lb.snap with
    | none => beginSnap s 1 false false
    | some x => if x.kind = 1 then s else { s with lb := { s.lb with fatalWaits := true } }
  else s

/-- The running snapshot is abandoned, without a COMMIT word (R570, R575). -/
def abandonSnap (s : State) : State :=
  match s.lb.snap with
  | none => s
  | some x => snapGoDone (offerSnap { s with lb := { s.lb with snap := none } } 2 x.kind.toNat x.slot.val x.seq) x.host

/-- PWR_FAIL_N asserts: the POWER_FAIL snapshot (R559, R570). A short one already running is the one it asks for. -/
def powerFailSnap (s : State) : State :=
  if enabled s .lb && bit (preg s .lb 0x100) 2 then
    match s.lb.snap with
    | some x => if x.short then s else eraseNext (beginSnap (abandonSnap s) 2 true false)
    | none => beginSnap s 2 true false
  else s

/-- LB_CTRL.SNAP (R559, R574). The page disabled, it takes no snapshot. -/
def hostSnap (s : State) : State :=
  if enabled s .lb then
    if s.lb.snap.isSome then { s with lb := { s.lb with hostWaits := true } } else beginSnap s 3 false true
  else goDone s .lb 0x100 0

/-- The slot is committed (R557, R558): the sequence number goes on, the newest slot moves, and what waited starts. -/
def commitSnap (s : State) (x : Snap) : State :=
  let s1 := setPreg (cntPreg s .lb 0x124 1) .lb 0x114 (preg s .lb 0x114 + 1)
  let s2 := { s1 with lb := { s1.lb with snap := none, newest := some x.slot
                                         followUp := x.short && powerFailing s } }
  nextSnap (snapGoDone (offerSnap s2 1 x.kind.toNat x.slot.val x.seq) x.host)

/-- The operation of a snapshot that follows `ops` completed ones has been carried out on its slot (R557): header, body pages, CRC, COMMIT. -/
def programOp (x : Snap) (sl : FlashSlot) : FlashSlot :=
  let pages := bodyPages x.entries.length
  if x.ops = 0 then { sl with header := some x.header }
  else if x.ops ≤ pages then { sl with body := x.entries.take (8 * x.ops) }
  else if x.ops = pages + 1 then { sl with crc := some (slotCrc sl) }
  else { sl with commit := true }

/-- The DAMAGED entry saved for one that reads uncorrectable (R554, R560): it names the ring index. -/
def damagedEntry (s : State) (x : Snap) (i : Nat) : BitVec 256 :=
  stampEntry s (BitVec.ofNat 256 ((snapHead x + 4096 - x.entries.length + i) % 4096 + 12 * 2 ^ 232))

/-- The entries of the body page programmed next are copied; `ue`: those of its eight that read uncorrectable (R560). -/
def copyPage (s : State) (x : Snap) (ue : Byte) : Snap × Bool :=
  let hit (i : Nat) : Bool := decide (8 * x.ops ≤ i) && decide (i < 8 * x.ops + 8) && ue.getLsbD (i - 8 * x.ops)
  ({ x with entries := x.entries.mapIdx fun i e => if hit i then damagedEntry s x i else e }, (List.range x.entries.length).any hit)

/-- A flash operation completes (R557); the page to be programmed next is copied. -/
def flashDone (s : State) (us : W16) (ue : Byte) : State :=
  match s.lb.snap with
  | some x =>
    let s0 := if (preg s .lb 0x128).toNat < us.toNat then setPreg s .lb 0x128 (us.setWidth 32) else s
    let s1 := setSlot s0 x.slot (programOp x (s0.lb.slots.get x.slot))
    if bodyPages x.entries.length + 2 ≤ x.ops then commitSnap s1 x
    else
      let c := copyPage s1 x ue
      let s2 := when c.2 (fun t => raiseErr t .lb 2) s1
      emit { s2 with lb := { s2.lb with snap := some { c.1 with ops := x.ops + 1 } } } (.flash x.slot (x.ops + 2))
  | none =>
    match slotToErase s with
    | some n => eraseNext (setSlot s n flashSlotErased)
    | none => s

/-- FLASH_OPERATION_COMPLETE (13 R557). -/
def execFlashOperationComplete (us : W16) (ue : Byte) (s : State) : Res := .next (flashDone s us ue)

/-- FLASH_ERR (13 R575): the snapshot is abandoned, and its slot is to be erased again. -/
def execFlashErr (s : State) : Res := .next (nextSnap (abandonSnap (raiseErr s .lb 0)))

/-- POWER_FAIL_FOLLOWUP (13 R559): standby still present, a full snapshot of kind POWER_FAIL. While another is being written it stays due. -/
def execPowerFailFollowup (s : State) : Res :=
  .next (if s.lb.followUp && s.lb.snap.isNone then
      let s1 := { s with lb := { s.lb with followUp := false } }
      if s.mod.v12 = 0 then s1 else beginSnap s1 2 false false
    else s)

/-! ## LB_CTRL (13 R564) -/

/-- The 2 KiB block of the selected source. -/
def rdBlock (s : State) : List Byte :=
  let sel := preg s .lb 0x12C
  let b := fld sel 8 6
  if fld sel 0 5 = 16 then
    entryBytes ((List.range 64).map fun i => sget (fun _ => 0) s.lb.ring (64 * b + i))
  else
    let x := s.lb.slots.get (fin 16 (fld sel 0 5))
    (List.range 8).flatMap fun p => slotPage x (8 * b + p)

/-- Words laid into consecutive registers. -/
def loadWords (s : State) (p : Page) (o : Nat) : List Byte → State
  | a :: b :: c :: d :: rest => loadWords (setPreg s p o (BitVec.ofNat 32 (bytesNat [a, b, c, d]))) p (o + 4) rest
  | _ => s

/-- RD_LOAD. -/
def rdLoad (s : State) : State := goDone (loadWords s .lb 0x800 (rdBlock s)) .lb 0x100 1

/-- NOTE. -/
def noteAct (s : State) : State :=
  goDone (offer s 10 (preg64 s .lb 0x140 + preg64 s .lb 0x148 * 2 ^ 64)) .lb 0x100 4

/-- A write of LB_CTRL: NOTE, RD_LOAD, then SNAP. -/
def lbCtrlWrite (s : State) (v : W32) : State :=
  let w := pageWrite s .lb 0x100 v
  let s1 := if w.started 4 then noteAct w.st else w.st
  let s2 := if w.started 1 then rdLoad s1 else s1
  if w.started 0 then hostSnap s2 else s2

/-- LB_SNAP (13 R559). -/
def execLbSnap (v : W32) (s : State) : Res := .next (lbCtrlWrite s v)

/-- RD_LOAD (13 R564). -/
def execRdLoad (v : W32) (s : State) : Res := .next (lbCtrlWrite s v)

/-- NOTE (13 R554). -/
def execNote (v : W32) (s : State) : Res := .next (lbCtrlWrite s v)

/-! ## Recovery at boot (13 R562) -/

/-- The newest valid slot: the highest SEQ, compared modulo 2^32, the higher slot among equals. -/
def newestValid (s : State) : Option (Fin 16) :=
  ((List.finRange 16).filter fun n => slotValid (s.lb.slots.get n)).foldl (fun best n =>
    match best with
    | none => some n
    | some m => if (slotSeq (s.lb.slots.get n) - slotSeq (s.lb.slots.get m)).toNat < 2 ^ 31 then some n else some m) none

/-- The logbook reads the slots at boot and goes on from the newest valid one. -/
def lbBoot (s : State) : State :=
  let bad := ((List.range 16).filter fun n => (s.lb.slots.get (fin 16 n)).commit && !slotValid (s.lb.slots.get (fin 16 n))).foldl
    (fun a n => a + 2 ^ n) 0
  let new := newestValid s
  let next : W32 := match new with | some n => slotSeq (s.lb.slots.get n) + 1 | none => 1
  let s1 := setPreg (setPreg s .lb 0x118 (BitVec.ofNat 32 bad)) .lb 0x114 next
  eraseNext { s1 with lb := { s1.lb with newest := new } }

end Sys2Proof.Machine
end

