-- ==== Sys2Proof/Machine/Gangplank.lean ====
section
/-! DEFINITION. The gangplank and the JTAG port (13 R565 to R569, R576 to R581). -/

namespace Sys2Proof.Machine

/-! ## The exchanges (13 R567, R568) -/

/-- DEV_SERIAL. -/
def serial (s : State) : BitVec 64 := BitVec.ofNat 64 (preg64 s .dev 0x108)

/-- `n` consecutive registers as one value, the first lowest. -/
def pregs (s : State) (p : Page) (o : Nat) : Nat → Nat
  | 0 => 0
  | n + 1 => (preg s p o).toNat + 2 ^ 32 * pregs s p (o + 4) n

/-- Sets `n` consecutive registers from one value. -/
def setPregs (s : State) (p : Page) (o v : Nat) : Nat → State
  | 0 => s
  | n + 1 => setPregs (setPreg s p o (BitVec.ofNat 32 v)) p (o + 4) (v / 2 ^ 32) n

/-- A GP entry: requested level, result, FAILS, path, and the first 8 bytes of the nonce (R567). -/
def offerGp (s : State) (level result : Nat) (jtag : Bool) (nonce : Nat) : State :=
  offer s 6 (level + result * 2 ^ 8 + s.gp.fails.toNat * 2 ^ 16 + b2n jtag * 2 ^ 24 + nonce % 2 ^ 64 * 2 ^ 32)

/-- GP_CTRL.LEVEL. -/
def gpLevel (s : State) : Nat := fld (preg s .gp 0x100) 0 2

/-- The result of an attempt: 1 OK, 2 BAD_PW, 3 BAD_RESP, 4 NO_NONCE, 5 LOCKED; 0 for LEVEL 0, which names no level (assumption 28). -/
def attemptResult (s : State) : Nat :=
  let lev := gpLevel s
  if s.gp.locked then 5
  else if lev = 0 then 0
  else if lev = 1 then
    if Config.passwordDigestMatches (serial s) (BitVec.ofNat 128 (pregs s .gp 0x130 4)) then 1 else 2
  else if s.gp.nonceOk = false then 4
  else if Config.responseMatches s.gp.nonce (serial s) (BitVec.ofNat 8 lev) (BitVec.ofNat 384 (pregs s .gp 0x140 12)) then 1
  else 3

/-- A failed attempt: FAILS, AUTH_FAIL, and at 8 the lock (R568). -/
def attemptFails (s : State) : State :=
  let n := s.gp.fails + 1
  let s1 := raiseErr { s with gp := { s.gp with fails := n } } .gp 0
  if 8 ≤ n.toNat then raiseErr { s1 with gp := { s1.gp with locked := true } } .gp 1 else s1

/-- A successful attempt sets the level. -/
def attemptOpens (s : State) (lev : Nat) : State :=
  { s with gp := { s.gp with level := if lev = 1 then 1 else 2, factory := decide (lev = 3) } }

/-- SUBMIT: the attempt is evaluated, the nonce consumed, the password and the response cleared, and one GP entry written. -/
def submitAct (s : State) (jtag : Bool) : State :=
  let r := attemptResult s
  let lev := gpLevel s
  let nonce := if 2 ≤ lev ∧ s.gp.nonceOk = true then s.gp.nonce.toNat else 0
  let s1 := cntPreg s .gp 0x170 1
  let s2 := { s1 with gp := { s1.gp with result := BitVec.ofNat 3 r, nonceOk := false } }
  let s3 := if r = 1 then attemptOpens s2 lev else if r = 2 ∨ r = 3 then attemptFails s2 else s2
  let s4 := setPregs (setPregs s3 .gp 0x130 0 4) .gp 0x140 0 12
  goDone (offerGp s4 lev r jtag nonce) .gp 0x100 9

/-- CHALLENGE: a fresh nonce (R567, R577). -/
def challengeAct (s : State) : State :=
  let n := Config.freeNonce s.fresh
  let s1 := { s with fresh := s.fresh + 1, gp := { s.gp with nonce := n, nonceOk := true } }
  goDone (setPregs s1 .gp 0x110 n.toNat 8) .gp 0x100 8

/-- CLOSE (R565, R579): the level closes, factory test mode ends; a change of level has its entry. -/
def closeAct (s : State) (jtag : Bool) : State :=
  let s1 := { s with gp := { s.gp with level := 0, factory := false } }
  goDone (if s.gp.level = 0 then s1 else offerGp s1 0 1 jtag 0) .gp 0x100 10

/-- A write of GP_CTRL: CLOSE is applied first, then CHALLENGE, then SUBMIT (R576). -/
def gpCtrlWrite (s : State) (v : W32) (jtag : Bool) : State :=
  let w := pageWrite s .gp 0x100 v
  let s1 := if w.started 10 then closeAct w.st jtag else w.st
  let s2 := if w.started 8 then challengeAct s1 else s1
  if w.started 9 then submitAct s2 jtag else s2

/-- A JTAG instruction is loaded, while TRST_N leaves the TAP enabled (R566; 14 R594). -/
def loadIr (s : State) (code : Byte) : State := { s with gp := { s.gp with ir := code } }

/-- A write of GP_CTRL through BAR0, or through JTAG's GP_REG, which needs the TAP enabled. -/
def gpPath (s : State) (v : W32) (jtag : Bool) : State :=
  if jtag then (if s.gp.tap then gpCtrlWrite (loadIr s 0x20) v true else s) else gpCtrlWrite s v false

/-- CHALLENGE (13 R567). -/
def execChallenge (v : W32) (jtag : Bool) (s : State) : Res := .next (gpPath s v jtag)

/-- SUBMIT (13 R567). -/
def execSubmit (v : W32) (jtag : Bool) (s : State) : Res := .next (gpPath s v jtag)

/-- CLOSE (13 R565). -/
def execClose (v : W32) (jtag : Bool) (s : State) : Res := .next (gpPath s v jtag)

/-- NONCE_EXPIRY (13 R567). -/
def execNonceExpiry (s : State) : Res := .next { s with gp := { s.gp with nonceOk := false } }

/-! ## JTAG (13 R566; 14 R594) -/

/-- A JTAG instruction without effect on the device beyond the TAP's own instruction register (assumption 29). -/
def jtagOnly (s : State) (code : Byte) : State := if s.gp.tap then loadIr s code else s

/-- EXTEST (13 R566): the boundary cells themselves are IEEE 1149.1's. -/
def execExtest (s : State) : Res := .next (jtagOnly s 0x00)

/-- SAMPLE_PRELOAD (13 R566). -/
def execSamplePreload (s : State) : Res := .next (jtagOnly s 0x02)

/-- IDCODE (13 R566) returns GP_IDCODE. -/
def execIdcode (s : State) : Res :=
  .next (if s.gp.tap then emit (loadIr s 0x01) (.readData (preg s .gp 0x174)) else s)

/-- BYPASS (13 R566). A code that names another instruction is not this command. -/
def execBypass (code : Byte) (s : State) : Res :=
  .next (if ([0x00, 0x01, 0x02, 0x20, 0x21] : List Byte).contains code then s else jtagOnly s code)

/-- TRST_N takes a level (14 R594): the TAP is enabled when it is HIGH, else reset. -/
def trstLevel (s : State) (l : PinLevel) : State :=
  let s1 := { s with mod := { s.mod with trst := l } }
  if l = .high then { s1 with gp := { s1.gp with tap := true } }
  else { s1 with gp := { s1.gp with tap := false, ir := gangplankReset.ir } }

/-- TRST_N (14 R594). -/
def execTrstN (level : PinLevel) (s : State) : Res := .next (trstLevel s level)

/-! ## Debug windows (13 R565) -/

/-- An access to unmapped BAR0 space is recorded (03 R80). -/
def stray (s : State) (off : Nat) (write : Bool) : State :=
  cntPreg (setPreg s .dev 0x11C (BitVec.ofNat 32 (off % 2 ^ 26 / 4 * 4 + b2n write * 2))) .dev 0x120 1

/-- What the level in force grants at a BAR0 offset: 0 nothing, 1 reading, 2 reading and writing (R565). -/
def windowGrant (s : State) (off : Nat) : Nat :=
  if off < 0x2000000 ∨ 0x4000000 ≤ off then 0
  else if s.gp.level = 1 then (if off < 0x3800000 then 1 else 0)
  else if s.gp.level = 2 then (if s.gp.factory = true ∨ off < 0x3C00000 then 2 else 0)
  else 0

/-- A granted read: the manual lays out no window, so its value is free (assumption 8). -/
def debugRead (s : State) (off : Nat) : State :=
  emit { s with fresh := s.fresh + 1 } (.readData (Config.freeDebug s.fresh off))

/-- A granted write completes in its command, so that a CLOSE after it finds it done (R581). What the units behind the window do with the word the manual
does not say: the model keeps the word, and changes nothing else (assumption 47). -/
def debugWrite (s : State) (off : Nat) (v : W32) : State := { s with gp := { s.gp with win := sset (fun _ => 0) s.gp.win off v } }

/-- DBG (13 R566): a window the level does not open is not reached. -/
def execDbg (off : BitVec 26) (write : Option W32) (s : State) : Res :=
  if s.gp.tap = false then .next s
  else match write with
    | none => .next (if windowGrant s off.toNat = 0 then loadIr s 0x21 else debugRead (loadIr s 0x21) off.toNat)
    | some v => .next (if windowGrant s off.toNat = 2 then debugWrite (loadIr s 0x21) off.toNat v else loadIr s 0x21)

/-- DEBUG_WINDOW_ACCESS (13 R565): a window the level does not open is unmapped (03 R80); OBSERVE discards writes. -/
def execDebugWindowAccess (off : BitVec 26) (write : Option W32) (s : State) : Res :=
  if off.toNat < 0x2000000 then .next s
  else match write with
    | none => .next (if windowGrant s off.toNat = 0 then emit (stray s off.toNat false) (.readData 0) else debugRead s off.toNat)
    | some v =>
      .next (if windowGrant s off.toNat = 2 then debugWrite s off.toNat v
        else if windowGrant s off.toNat = 0 then stray s off.toNat true else s)

end Sys2Proof.Machine
end

