-- ==== Sys2Proof/Machine/Faults.lean ====
section
/-! DEFINITION. The fault collector: classification, records, reactions, the safe state, ALIVE, the watchdog and injection (12 R504 to R530,
R533, R537 to R550). -/

namespace Sys2Proof.Machine

/-! ## Fields of a message (12 R505, R506) -/

def msgSrc (m : BitVec 128) : Nat := fld m 0 5

def msgSev (m : BitVec 128) : Nat := fld m 5 2

def msgInst (m : BitVec 128) : Nat := fld m 8 8

def msgType (m : BitVec 128) : Nat := fld m 16 16

def msgCorr (m : BitVec 128) : Nat := fld m 32 16

def msgLevel (m : BitVec 128) : Nat := fld m 48 3

def msgAddr (m : BitVec 128) : Nat := fld m 64 64

/-- CHECK holds. -/
def msgGood (m : BitVec 128) : Bool := decide (fld m 56 8 = (msgCheck m).toNat)

/-- The source ID (R506). -/
def sourceId (m : BitVec 128) : Nat := msgType m * 8192 + msgInst m * 32 + msgSrc m

/-- Puts a message in its place, ascending source ID, behind those with the same one (R506). -/
def insertMsg (m : BitVec 128) : List (BitVec 128) → List (BitVec 128)
  | [] => [m]
  | x :: l => if sourceId m < sourceId x then m :: x :: l else x :: insertMsg m l

def sortMsgs (ms : List (BitVec 128)) : List (BitVec 128) := ms.foldl (fun l m => insertMsg m l) []

/-! ## The safe state (12 R520, R521) -/

/-- Entry to the safe state, by a fatal classification (1), FC_CTRL.SAFE (2) or SELF_PE (3), which the ABORT's cause may tell: the freeze, the ABORT on every UP port, ALIVE stopped, the FATAL snapshot; clocks, movers, dispatch and the
placement loop stop because every command of theirs tests `safe`. Ports are fenced by commands of their own. -/
def enterSafe (s : State) (cause : Nat) : State :=
  if s.fc.safe then s
  else
    let s1 := withAlive (fun t => { t with fc := { t.fc with safe := true, portsToFence := 0xFF, aliveStopped := true } }) s
    let s2 := sendAbort (enterFreeze s1 3) (BitVec.ofNat 8 (fleetId s)) (s.tide.step.setWidth 32) (Config.abortCause cause) none
    fatalSnap s2

/-- SAFE_STATE_PORT_FENCE (R520). -/
def execSafeStatePortFence (port : Fin 8) (s : State) : Res :=
  .next (if s.fc.portsToFence.getLsbD port.val then
      fencePage { s with fc := { s.fc with portsToFence := setBit s.fc.portsToFence port.val false } } (.xl port)
    else s)

/-! ## Fence reactions (12 R515, R517) -/

/-- The data way that a slice's message names (R515): by its address for sources 0 and 1, by the packed set and entry for 2 and
3, where a shadow entry is no data way, else as it stands. -/
def namedWay (s : State) (n : Fin 16) (m : BitVec 128) : Option Nat :=
  if msgSrc m < 2 then
    ((s.slice n).lines.find? fun e => e.2.data.isSome && decide ((keyLine e.1).num.toNat = msgAddr m / 64)).map fun e => e.2.way.toNat
  else if msgSrc m < 4 then (if msgAddr m % 32 < 16 then some (msgAddr m % 32) else none)
  else if msgSrc m < 6 then some (msgAddr m % 16)
  else none

/-- A slice's way is disabled as under 08 R333. -/
def disableWay (s : State) (n : Fin 16) (way : Nat) : State :=
  raiseErr (orPreg (evictWholeWay s (.slice n) way) (.dc n) 0x104 (one32 (16 + way))) (.dc n) 4 way

/-- The unit whose fence software releases in this very cycle is not fenced, though the action is recorded (03 R100). -/
def fenceUnless (released : List Page) (p : Page) (t : State) : State := if released.contains p then t else fencePage t p

/-- What a fence reaction does; none when it is withheld (R517). -/
def fencePlan (s : State) (m : BitVec 128) (released : List Page) : Option (State → State) :=
  if enabled s .fc = false then none
  else match pageOfType (msgType m) (msgInst m) with
    | some (.gc id) => some fun t => fenceUnless released (.gc id) t
    | some (.cl n) => some fun t => fenceUnless released (.cl n) t
    | some (.mc n) => some fun t => fenceUnless released (.mc n) t
    | some (.xl n) => some fun t => fenceUnless released (.xl n) t
    | some .ep => some fun t => fenceUnless released .ep t
    | some .al => if msgSrc m = 5 then some fun t => fenceUnless released (.mc (fin 8 (msgAddr m))) t else none
    | some (.dc n) =>
      match namedWay s n m with
      | none => none
      | some w =>
        if (slWays s n).contains w = false then some id
        else if (slWays s n).length ≤ 4 then none
        else some fun t => disableWay t n w
    | _ => none

/-! ## Records (12 R511 to R513, R533) -/

/-- The record's fields. -/
def recMsg (r : BitVec 256) : BitVec 128 := r.setWidth 128

def recStep (r : BitVec 256) : BitVec 48 := r.extractLsb' 128 48

def recNum (r : BitVec 256) : Nat := fld r 240 16

/-- A message merges into a record (R533): the same tag, not 0, and at most 2 steps later. -/
def mergesInto (s : State) (m : BitVec 128) (r : BitVec 256) : Bool :=
  decide (msgCorr m ≠ 0) && decide (msgCorr (recMsg r) = msgCorr m) && decide ((s.tide.step - recStep r).toNat ≤ 2)

/-- A record with a message merged into it. -/
def mergeRec (r : BitVec 256) (m : BitVec 128) (reacts : Nat) : BitVec 256 :=
  let old := recMsg r
  let take := decide (msgLevel m ≠ 0) && (decide (msgLevel old = 0) || decide (msgLevel m < msgLevel old))
  let base := setFld (if take then m else old) 5 2 (max (msgSev m) (msgSev old))
  let r1 := setFld r 0 128 base.toNat
  let r2 := r1 ||| BitVec.ofNat 256 (reacts * 2 ^ 208)
  let r3 := setFld r2 216 8 (min (fld r 216 8 + 1) 255)
  r3 ||| BitVec.ofNat 256 (2 ^ (224 + msgLevel m))

/-- A record made of a message (R512). -/
def newRec (s : State) (m : BitVec 128) (level reacts : Nat) : BitVec 256 :=
  BitVec.ofNat 256 (m.toNat + s.tide.step.toNat * 2 ^ 128 + s.tide.phase.toNat * 2 ^ 176 + reacts * 2 ^ 208 + 2 ^ (224 + level)
    + s.fc.recNo.toNat * 2 ^ 240)

/-- The first-error latch (R511). -/
def latchFirst (s : State) (id sev addr : Nat) (merged : Bool) : State :=
  if bit (preg s .fc 0x108) 31 then (if merged then s else orPreg s .fc 0x10C 1)
  else
    let s1 := setPreg s .fc 0x108 (BitVec.ofNat 32 (2 ^ 31 + sev * 2 ^ 29 + id % 2 ^ 29))
    setPreg64 (setPreg64 s1 .fc 0x110 addr) .fc 0x118 s.tide.step.toNat

/-- A new record: numbered, counted, written to the logbook, and queued unless the queue holds 512 (R512, R513). A full queue reports
itself, but not about its own report (assumption 30). -/
def addRecord (s : State) (r : BitVec 256) (full : Bool) : State :=
  let s1 := offerEntry (cntPreg { s with fc := { s.fc with recNo := s.fc.recNo + 1 } } .fc 0x128 1) r
  if s1.fc.queue.length < 512 then { s1 with fc := { s1.fc with queue := s1.fc.queue ++ [r] } }
  else
    let s2 := cntPreg s1 .fc 0x124 1
    if full then s2 else raiseErr s2 .fc 1

/-- Records or merges a message, whose record carries `m` under the source `id`. -/
def recordMsg (s : State) (m : BitVec 128) (id sev addr reacts : Nat) (merges : Bool) : State :=
  match (if merges then s.fc.queue.findIdx? (mergesInto s m) else none) with
  | some i =>
    let q := mapAt (fun r => mergeRec r m reacts) s.fc.queue i
    let num := recNum (nth q i 0)
    let s1 := latchFirst s id sev addr true
    offer (cntPreg { s1 with fc := { s1.fc with queue := q } } .fc 0x12C 1) 1 m.toNat 0 num
  | none => addRecord (latchFirst s id sev addr false) (newRec s m (if merges then msgLevel m else 0) reacts) (decide (id = 2 * 8192 + 1))

/-! ## Reactions (12 R514) -/

/-- The bits of byte 26 for a severity: interrupt 1, fence 2, safe state 4, fence withheld 8. -/
def reactBits (s : State) (sev : Nat) (plan : Option (State → State)) : Nat :=
  match sev with
  | 0 => 0
  | 1 => 1
  | 2 => if plan.isSome then 3 else 9
  | _ => if s.fc.safe then 0 else 5

/-- The reaction itself, but for the safe state. -/
def react (s : State) (sev : Nat) (plan : Option (State → State)) : State :=
  match sev with
  | 0 => s
  | 1 => raiseInt s .fc 16
  | 2 =>
    match plan with
    | some g => raiseInt (g s) .fc 17
    | none => raiseInt (raiseErr s .fc 4) .fc 16
  | _ => if s.fc.safe then s else raiseInt s .fc 18

/-- The severity of a message from a source, flat mode considered (R510). -/
def severityOf (s : State) (fixed : Bool) (sev : Nat) : Nat :=
  if fixed then 3 else if bit (preg s .fc 0x100) 0 then fld (preg s .fc 0x100) 1 2 else sev

/-- A source is fixed (R509). -/
def fixedSource (m : BitVec 128) : Bool :=
  match pageOfType (msgType m) (msgInst m) with
  | some p => decide (fixedMask p / 2 ^ msgSrc m % 2 = 1)
  | none => false

/-- The collector takes one message: the state after record and reaction, and whether the safe state is called for (R507, R510, R530). -/
def takeMsg (s : State) (m : BitVec 128) (released : List Page) : State × Bool :=
  if msgGood m = false then
    let s1 := noteErr s .fc 0 0
    if maskedSrc s .fc 0 then (s1, false)
    else
      let sev := severityOf s false (sevOf s .fc 0)
      let s2 := recordMsg (raiseInt s1 .fc 0) m (2 * 8192) sev 0 (reactBits s sev none) false
      (react s2 sev none, decide (sev = 3))
  else if bit m 7 && !s.gp.factory then (raiseErr s .fc 0, false)
  else
    let sev := severityOf s (fixedSource m) (msgSev m)
    let plan := if sev = 2 then fencePlan s m released else none
    let s1 := recordMsg s m (sourceId m) sev (msgAddr m) (reactBits s sev plan) true
    (react s1 sev plan, decide (sev = 3))

/-- Flips a bit of the first message on its way. -/
def flipFirst (flip : Option (Fin 128)) : List (BitVec 128) → List (BitVec 128)
  | [] => []
  | m :: l => (match flip with | some i => m ^^^ BitVec.ofNat 128 (2 ^ i.val) | none => m) :: l

/-- The first `n` messages on their way reach the collector in one hub cycle, in the order of R506. -/
def collect (s : State) (n : Nat) (flip : Option (Fin 128)) (released : List Page) : State :=
  let ms := sortMsgs (flipFirst flip (s.fc.coming.take n))
  let s0 := { s with fc := { s.fc with coming := s.fc.coming.drop n } }
  let r := ms.foldl (fun a m => let b := takeMsg a.1 m released; (b.1, a.2 || b.2)) (s0, false)
  let s1 := entriesInOrder s.lb.inq.length r.1
  if r.2 then enterSafe s1 1 else s1

/-- FAULT_MESSAGE (R510). -/
def execFaultMessage (n : Nat) (flip : Option (Fin 128)) (released : List Page) (s : State) : Res := .next (collect s n flip released)

/-! ## FC registers (12 R513, R537, R549) -/

/-- A write of FC_CTRL: SAFE enters the safe state (R520). -/
def fcCtrlWrite (s : State) (v : W32) : State := pageWriteGo s .fc 0x100 v 8 fun t => enterSafe t 2

/-- SAFE (R520). -/
def execSafe (v : W32) (s : State) : Res := .next (fcCtrlWrite s v)

/-- A write of FC_Q_CTRL: POP, then EMPTY. -/
def fcQWrite (s : State) (v : W32) : State :=
  let w := pageWrite s .fc 0x120 v
  let s1 := if w.started 0 then goDone { w.st with fc := { w.st.fc with queue := w.st.fc.queue.drop 1 } } .fc 0x120 0 else w.st
  if w.started 1 then goDone { s1 with fc := { s1.fc with queue := [] } } .fc 0x120 1 else s1

/-- POP (R513). -/
def execPop (v : W32) (s : State) : Res := .next (fcQWrite s v)

/-- EMPTY (R537). -/
def execEmpty (v : W32) (s : State) : Res := .next (fcQWrite s v)

/-! ## The watchdog and ALIVE (12 R522 to R524, R548) -/

/-- A write of FC_WDOG_KICK restarts the watchdog. -/
def wdogKickWrite (s : State) (v : W32) : State :=
  pageWriteGo s .fc 0x138 v 0 fun t => { t with fc := { t.fc with wdogSet := false } }

/-- WDOG_KICK (R524). -/
def execWdogKick (v : W32) (s : State) : Res := .next (wdogKickWrite s v)

/-- WDOG (R524, R548): once for each time without a kick. -/
def execWdog (s : State) : Res :=
  .next (if bit (preg s .dev 0x104) 0 && !s.fc.safe && !s.fc.wdogSet && decide (fld (preg s .fc 0x134) 0 16 ≠ 0) then
      raiseErr { s with fc := { s.fc with wdogSet := true } } .fc 2
    else s)

/-- ALIVE_RB (R523): the level read differs from the level driven. -/
def aliveReadback (s : State) (level : Bool) : State := raiseErr { s with fc := { s.fc with aliveRb := level } } .fc 5

/-- ALIVE_RB (R523). A pin that reads low while ALIVE is driven low does not differ. -/
def execAliveRb (level : Bool) (s : State) : Res :=
  .next (if aliveRuns s || level then aliveReadback s level else { s with fc := { s.fc with aliveRb := level } })

/-! ## The collector's own faults (12 R526) -/

/-- SELF_PE (R526): the safe state at once, without classification; the record goes to the logbook alone. -/
def selfPe (s : State) : State :=
  let m := mkMsg 2 0 3 3 0 0 0 false
  let s1 := raiseInt (noteErr s .fc 3 0) .fc 0
  let r := newRec s1 m 0 (if s.fc.safe then 0 else 4)
  enterSafe (offerEntry (cntPreg { s1 with fc := { s1.fc with recNo := s1.fc.recNo + 1 } } .fc 0x128 1) r) 3

/-- SELF_PE (R526). -/
def execSelfPe (s : State) : Res := .next (selfPe s)

/-! ## Injection (12 R528, R529) -/

/-- One factory injection: a message with INJ and the page's severity, or bits of a page's ERR_STAT. -/
def inject (s : State) : Injection → State
  | .message m =>
    let sev := match pageOfType (msgType m) (msgInst m) with | some p => sevOf s p (msgSrc m) | none => msgSev m
    let x := mkMsg (msgType m) (msgInst m) (msgSrc m) sev (msgCorr m) (msgLevel m) (msgAddr m) true
    { s with fc := { s.fc with coming := s.fc.coming ++ [x] } }
  | .bits p b => (List.range 32).foldl (fun t k => if bit b k then raiseErrX t p k 0 0 false true else t) s

/-- FAULT_INJECTION (R529). Outside factory test mode the injection registers are unmapped space (R528). -/
def execFaultInjection (inj : Injection) (s : State) : Res :=
  .next (if s.gp.factory then inject s inj else s)

end Sys2Proof.Machine
end

