-- ==== Sys2Proof/Machine/Module.lean ====
section
/-! DEFINITION. The module: power inputs and the power-fail warning, supervised inputs, sensors, outputs, the management bus, and what a device
reset keeps (14; 15 R620 to R622). -/

namespace Sys2Proof.Machine

/-! ## What a device reset keeps (15 R621) -/

/-- The placement loop over a reset that preserves device memory: the map, and the move record, which resumes from PL_PROG (11 R483,
R486). -/
def placementKept (x : Placement) : Placement := { placementReset with map := x.map, cur := x.cur, prog := x.prog }

/-- The gangplank after a reset (13 R565, R568): a part with an unblown fuse starts at FULL with factory test mode. -/
def gangplankAfter (g : Gangplank) (cold : Bool) : Gangplank :=
  { gangplankReset with prodFuse := g.prodFuse, tap := g.tap, ir := g.ir
                        level := (if g.prodFuse then 0 else 2), factory := !g.prodFuse
                        fails := (if cold then 0 else g.fails), locked := (if cold then false else g.locked) }

/-- The device after a cold reset, or after the steps of a PERST_N reset (R621): the always-on domain stays, and after PERST_N device memory
with it. No boot stage runs yet. -/
def deviceReset (s : State) (cold : Bool) : State :=
  { State.reset with
    pending := s.pending, out := s.out, fresh := s.fresh
    regs := (if cold then [] else sset regReset [] 0x124 (s.reg 0x124))
    lb := { s.lb with inq := [], snap := none, hostWaits := false, fatalWaits := false, followUp := false }
    dm := (if cold then [] else s.dm), poison := (if cold then [] else s.poison)
    pl := (if cold then placementReset else placementKept s.pl)
    gp := gangplankAfter s.gp cold
    mod := { s.mod with refFlip := false }
    boot := { bootReset with kind := (if cold then 0 else 1), stage := 3, initDue := cold || s.boot.initDue } }

/-- The main rails fall (14 R585): what is not in the always-on domain is lost. Entries already offered reach the ring first (assumption
27). -/
def railsFall (s : State) : State :=
  let m : Module := { s.mod with conversion := false }
  if s.mod.mainOn then
    let s1 := writeAll s
    let s2 := if aliveRuns s1 then emit s1 (.alive false) else s1
    deviceReset { s2 with mod := { m with mainOn := false } } true
  else { s with mod := m }

/-! ## The 54 V and 12 V inputs (14 R588, R589, R608) -/

/-- INPUT_UNDERVOLTAGE (R588): below 44 V. -/
def undervoltage (s : State) : State :=
  onset (railsFall { s with mod := { s.mod with v54 := 2 } }) 0 condRange true

/-- INPUT_UNDERVOLTAGE (14 R588). -/
def execInputUndervoltage (s : State) : Res := .next (undervoltage s)

/-- INPUT_OVERVOLTAGE (R588): above 60.5 V the input is disconnected. -/
def overvoltage (s : State) : State :=
  onset (railsFall { s with mod := { s.mod with v54 := 2, overvoltage := true } }) 0 condRange true

/-- INPUT_OVERVOLTAGE (14 R588). -/
def execInputOvervoltage (s : State) : Res := .next (overvoltage s)

/-- INPUT_REVERSED (R608): it powers nothing, and is found while the rails are off. -/
def reversedInput (s : State) : State :=
  onset (railsFall { s with mod := { s.mod with v54 := 3 } }) 0 condReversed true

/-- INPUT_REVERSED (14 R608). -/
def execInputReversed (s : State) : Res := .next (if s.mod.v12 = 0 then s else reversedInput s)

/-- MAIN_CONVERSION_START (14 R588): with standby in range the conversion runs, and the rails rise in the order of R585. -/
def execMainConversionStart (s : State) : Res :=
  .next (if s.mod.v12 = 1 then
      normal { s with mod := { s.mod with v54 := 1, conversion := true, overvoltage := false } } 0
    else s)

/-- Standby is lost (13 R551; 15 R620): the management-bus registers and the ring go with the always-on domain. -/
def standbyLost (s : State) : State :=
  { s with lb := { s.lb with ring := [], head := 0, wrapped := false }
           mod := { s.mod with v12 := 0, present := [], mbFault := 0, mbLast := 0, mbPower := 0, mbTemp := 0xFFFFFFFF, mbLeak := 0xFFFF
                               mbScratch := 0, leak := 0, leakCand := 0, leakRun := 0 } }

/-- Standby leaves its range and is not lost (14 R589, R595). -/
def standbyAstray (s : State) : State := onset { s with mod := { s.mod with v12 := 2 } } 1 condRange true

/-- STANDBY_LOSS (15 R620). -/
def execStandbyLoss (astray : Bool) (s : State) : Res :=
  .next (if astray then (if s.mod.v12 = 0 then s else standbyAstray s) else standbyLost s)

/-- Standby comes into range: after a loss the always-on domain starts, the address straps are sampled, the ring is cleared and RING_FRESH
set (13 R551; 14 R606). -/
def standbyUp (s : State) (straps : BitVec 3) : State :=
  if s.mod.v12 = 0 then
    { s with lb := { s.lb with ring := [], head := 0, wrapped := false, fresh := true }, mod := { s.mod with v12 := 1, straps := straps } }
  else normal { s with mod := { s.mod with v12 := 1 } } 1

/-- STANDBY_POWER_UP (13 R551). -/
def execStandbyPowerUp (straps : BitVec 3) (s : State) : Res := .next (standbyUp s straps)

/-! ## The power-fail warning (14 R591, R592, R609, R610) -/

/-- The module's inputs change; a warning that begins or ends has its POWER entry, one for both warnings together, and one that begins
starts a POWER_FAIL snapshot while the main rails are on. -/
def setWarning (s : State) (m : Module) : State :=
  let s1 := { s with mod := m }
  if powerFailing s = powerFailing s1 then s1
  else if powerFailing s1 then
    let s2 := offer s1 7 1
    if s2.mod.mainOn then powerFailSnap s2 else s2
  else offer s1 7 0

/-- PWR_FAIL_N takes a level (R594). -/
def pwrFailLevel (s : State) (l : PinLevel) : State :=
  let s1 := setWarning s { s.mod with pwrFail := l }
  if l = .opened then onset s1 2 condOpen true else normal s1 2

/-- PWR_FAIL_N_ASSERT (14 R591). -/
def execPwrFailNAssert (s : State) : Res := .next (pwrFailLevel s .low)

/-- PWR_FAIL_N_RELEASE (14 R591). -/
def execPwrFailNRelease (s : State) : Res := .next (pwrFailLevel s .high)

/-- INT_PF (14 R592). -/
def execIntPf (s : State) : Res := .next (setWarning s { s.mod with intPf := true })

/-- INT_PF_RELEASE (14 R592). -/
def execIntPfRelease (s : State) : Res := .next (setWarning s { s.mod with intPf := false })

/-! ## Sensors (14 R601, R602, R615) -/

/-- Reading of a leak resistance: 0 dry, 1 wet, 2 open, 3 short. -/
def leakReading (ohms100 : Nat) : BitVec 2 :=
  if 500 < ohms100 then 2 else if 80 ≤ ohms100 then 0 else if 2 ≤ ohms100 then 1 else 3

/-- The condition of a leak reading. -/
def leakCondition (r : BitVec 2) : Option Nat :=
  if r = 1 then some condWet else if r = 2 then some condOpen else if r = 3 then some condShort else none

/-- A measurement; the third one in a row takes effect. -/
def leakMeasure (s : State) (ohms100 : W16) : State :=
  let r := leakReading ohms100.toNat
  let run := if s.mod.leakCand = r then s.mod.leakRun + 1 else 1
  let s1 := { s with mod := { s.mod with mbLeak := (if r = 2 then 0xFFFF else ohms100.setWidth 32), leakCand := r, leakRun := min run 3 } }
  if run < 3 ∨ s.mod.leak = r then s1
  else
    let s2 := { s1 with mod := { s1.mod with leak := r } }
    match leakCondition r with
    | some c => onset s2 4 c true
    | none => normal s2 4

/-- LEAK_MEASUREMENT (14 R601). -/
def execLeakMeasurement (ohms100 : W16) (s : State) : Res := .next (leakMeasure s ohms100)

/-- A thermistor's condition (R600, R602): OPEN above 400 kΩ, SHORT below 100 Ω; the inlet's range is 15 to 45 °C, the outlet's at most 62 °C and
at most 20 °C above the inlet. The manual gives the board thermistor no range. -/
def thermCondition (s : State) (i : Fin 3) (ohms celsius : Nat) : Option Nat :=
  let inlet := fld s.mod.mbTemp 0 8
  if 400000 < ohms then some condOpen
  else if ohms < 100 then some condShort
  else if i = 0 ∧ (celsius < 15 ∨ 45 < celsius) then some condRange
  else if i = 1 ∧ (62 < celsius ∨ (inlet ≠ 255 ∧ inlet + 20 < celsius)) then some condRange
  else none

/-- A thermistor is read. -/
def thermRead (s : State) (i : Fin 3) (ohms celsius : Nat) : State :=
  let c := thermCondition s i ohms celsius
  let shown := if c = some condOpen ∨ c = some condShort then 255 else celsius
  let s1 := { s with mod := { s.mod with mbTemp := setFld s.mod.mbTemp (8 * i.val) 8 shown } }
  match c with
  | some k => onset s1 (5 + i.val) k true
  | none => normal s1 (5 + i.val)

/-- THERMISTOR_READING (14 R602). -/
def execThermistorReading (i : Fin 3) (ohms : BitVec 32) (celsius : Byte) (s : State) : Res :=
  .next (thermRead s i ohms.toNat celsius.toNat)

/-! ## Tide inputs, outputs and cages (14 R587, R597, R598, R616) -/

/-- The condition of a tide input pair. -/
def pairCondition : PairFault → Nat
  | .opened => condOpen
  | .lineShort => condLineShort
  | .reversed => condReversed

/-- An onset on a connection for which no command tells that it is normal again: each such command is a new onset (assumption 23). -/
def onsetNew (s : State) (conn cond : Nat) (report : Bool) : State := onset (normal s conn) conn cond report

/-- A tide input fault: reported only on a follower that listens to its pins (R597). A reversed REF pair is corrected. -/
def tideInputFault (s : State) (dat : Bool) (c : PairFault) : State :=
  let follows := enabled s .td && decide (fld (preg s .td 0x100) 0 5 = 0)
  let s1 := if dat = false ∧ c = .reversed then { s with mod := { s.mod with refFlip := true } } else s
  onsetNew s1 (if dat then 9 else 8) (pairCondition c) follows

/-- TIDE_INPUT_FAULT (14 R597). -/
def execTideInputFault (dat : Bool) (cond : PairFault) (s : State) : Res := .next (tideInputFault s dat cond)

/-- An output's readback (R598): ALIVE under 12 R523, TIDE_OUT pairs under R595; TDO has no connection number. -/
def readback (s : State) (out : OutPin) (atLimit : Bool) : State :=
  match out with
  | .alive => if atLimit then s else raiseErr s .fc 5
  | .tideOutRef => onsetNew s 10 (if atLimit then condShort else condReadback) true
  | .tideOutDat => onsetNew s 11 (if atLimit then condShort else condReadback) true
  | .tdo => s

/-- READBACK (14 R598). -/
def execReadback (out : OutPin) (atLimit : Bool) (s : State) : Res := .next (readback s out atLimit)

/-- OSFP_MODULE_PRESENT (14 R587). -/
def execOsfpModulePresent (port : Fin 8) (present : Bool) (s : State) : Res :=
  .next (cageCheck { s with mod := { s.mod with cages := setBit s.mod.cages port.val present } } port)

/-! ## The management bus (14 R606, R607) -/

/-- A block write (R607): an offset that the table does not list is not acknowledged; a register that is read only keeps its value. -/
def mgtWrite (s : State) (off : Byte) (v : W32) : State :=
  if off = 0x10 then emit { s with mod := { s.mod with mbFault := s.mod.mbFault &&& ~~~v } } (.mgtAck true)
  else if off = 0x28 then emit { s with mod := { s.mod with mbScratch := v } } (.mgtAck true)
  else emit s (.mgtAck (decide (off.toNat % 4 = 0) && decide (off.toNat ≤ 0x28)))

/-- The target address of the device (R606). -/
def mgtAddress (s : State) : BitVec 7 := 0x58 + s.mod.straps.setWidth 7

/-- MGT_BUS_WRITE (14 R607): the bus works while standby is present, and the device takes what is sent to its own address. -/
def execMgtBusWrite (target : BitVec 7) (off : Byte) (v : W32) (s : State) : Res :=
  .next (if s.mod.v12 = 0 ∨ target ≠ mgtAddress s then s else mgtWrite s off v)

/-- STUCK (14 R606). -/
def execStuck (s : State) : Res := .next (if s.mod.v12 = 0 then s else onsetNew s 12 condStuck true)

end Sys2Proof.Machine
end

