-- ==== Sys2Proof/Machine/Boot.lean ====
section
/-! DEFINITION. Reset, boot stages, self-test, memory training and function-level reset (15). -/

namespace Sys2Proof.Machine

/-! ## Starting a boot (15 R620, R628, R636) -/

/-- Training of the CXL link begins when the last of its conditions comes to hold (R634). -/
def trainWhen (g : State → State) (s : State) : State :=
  let t := g s
  if mayTrain t && !(mayTrain s) && decide (t.cxl.link = .down) then emit t (.linkReq 0) else t

/-- A boot stage starts (R636). -/
def stageStart (s : State) (k : Nat) : State :=
  logBoot { s with boot := { s.boot with stage := BitVec.ofNat 2 k } } 1 k 0

/-- A part with an unblown fuse records its start at FULL with factory test mode (13 R567). -/
def unfusedEntry (s : State) : State := if s.gp.prodFuse then s else offerGp s 3 1 false 0

/-- COLD_RESET (R620): the main rails reach power good after being off. -/
def coldStart (s : State) : State :=
  if s.mod.mainOn ∨ s.mod.conversion = false then s
  else
    let s1 := deviceReset { writeAll s with mod := { s.mod with mainOn := true } } true
    stageStart (unfusedEntry (logBoot s1 0 0 0)) 0

/-- COLD_RESET (15 R620). -/
def execColdReset (s : State) : Res := .next (coldStart s)

/-! ## PERST_N (15 R622, R640, R641) -/

/-- Dirty host-memory lines of the cluster caches and the slices. -/
def dirtyHostLines (s : State) : Nat :=
  (s.clusters.toList.map fun x => (x.cc.lines.filter fun e => (keyLine e.1).host && decide (e.2.st = .m)).length).foldl (· + ·) 0
    + (s.slices.toList.map fun x => (x.lines.filter fun e => (keyLine e.1).host && e.2.dirty).length).foldl (· + ·) 0

/-- Every dirty device-memory line is written to memory, those of the slices before those of the cluster caches, which are newer. -/
def writeBackAll (s : State) : State :=
  let s1 := s.slices.toList.foldl (fun t x => x.lines.foldl (fun u e =>
    match e.2.data with
    | some d => if e.2.dirty && !(keyLine e.1).host then writeBelow u (keyLine e.1) d e.2.poison else u
    | none => u) t) s
  s1.clusters.toList.foldl (fun t x => x.cc.lines.foldl (fun u e =>
    if decide (e.2.st = .m) && !(keyLine e.1).host then writeBelow u (keyLine e.1) e.2.data e.2.poison else u) t) s1

/-- A placement chunk in progress completes. -/
def finishChunk (s : State) : State :=
  if s.pl.chunk then { s with pl := { s.pl with chunk := false, prog := s.pl.prog + 1 } } else s

/-- The steps before a PERST_N reset (R622): the BOOT entry, ports fenced, clocks stopped, dirty device lines written. -/
def perstPrepare (s : State) : State :=
  let n := dirtyHostLines s
  let s1 := logBootWith s 0 1 0 n
  let s2 := (List.finRange 8).foldl (fun t k => if (t.port k).st = .up then fencePage t (.xl k) else t) s1
  let s3 := { s2 with boot := { s2.boot with preparing := true, dropped := BitVec.ofNat 64 n } }
  writeBackAll (finishChunk s3)

/-- PERST_N takes a level (14 R594): from HIGH to LOW or OPEN, with main power good, the reset begins. -/
def perstLevel (s : State) (l : PinLevel) : State :=
  let fell := decide (s.mod.perst = .high) && !(decide (l = .high)) && s.mod.mainOn && !s.boot.preparing
  let s1 := { s with mod := { s.mod with perst := l } }
  let s2 := if l = .opened then onset s1 3 condOpen true else normal s1 3
  if fell then perstPrepare s2 else s2

/-- PERST_N_ASSERT (15 R622). -/
def execPerstNAssert (isOpen : Bool) (s : State) : Res := .next (perstLevel s (if isOpen then .opened else .low))

/-- PERST_N_RELEASE (15 R634). -/
def execPerstNRelease (s : State) : Res := .next (trainWhen (fun t => perstLevel t .high) s)

/-- PERST_N_STEPS_DONE (15 R622; 14 R611): a snapshot in progress completes first; then the reset, and boot starts at stage 0. -/
def perstDone (s : State) : State :=
  if s.boot.preparing = false ∨ s.lb.snap.isSome then s
  else
    let s1 := writeAll s
    let s2 := if aliveRuns s1 then emit s1 (.alive false) else s1
    stageStart (unfusedEntry (deviceReset s2 false)) 0

/-- PERST_N_STEPS_DONE (15 R622). -/
def execPerstNStepsDone (s : State) : Res := .next (perstDone s)

/-- SUPERVISED_INPUT_OPEN (14 R593, R594). -/
def execSupervisedInputOpen (pin : SupPin) (s : State) : Res :=
  .next (match pin with
    | .pwrFailN => pwrFailLevel s .opened
    | .perstN => perstLevel s .opened
    | .trstN => trstLevel s .opened)

/-! ## Failures that end boot (15 R631, R632) -/

/-- What ERR_ADDR of the BT page and a BOOT entry of event 5 say of a failing unit: kind, instance, way, BT_HUB_CAUSE code (assumption 18 for
the address). -/
def unitWord (kind inst way cause : Nat) : Nat := kind % 256 + inst % 65536 * 2 ^ 8 + way % 256 * 2 ^ 24 + cause % 256 * 2 ^ 32

/-- A fatal result (R631): HUB_FAIL and its cause, the first one kept; boot stops, and the collector sends the device to the safe state. -/
def hubFail (s : State) (cause inst kind way : Nat) : State :=
  let s1 := if preg s .bt 0x178 = 0 then setPreg s .bt 0x178 (BitVec.ofNat 32 (cause + inst % 256 * 2 ^ 8)) else s
  let s2 := orPreg { s1 with boot := { s1.boot with stopped := true, stage := 3 } } .bt 0x170 (one32 24)
  raiseErr s2 .bt 1 (unitWord kind inst way cause)

/-- A boot stage that takes over 1 s (R628). -/
def stageTimeout (s : State) : State :=
  if s.boot.stage = 3 ∨ s.mod.mainOn = false then s else hubFail s 10 s.boot.stage.toNat 6 0

/-- STAGE_TIMEOUT (15 R628). -/
def execStageTimeout (s : State) : Res := .next (stageTimeout s)

/-! ## Self-test (15 R629 to R631, R645) -/

/-- The group of a unit. -/
def unitGroup : BistUnit → Nat
  | .core id => (clusterOf id).val / 2
  | .clusterLogic n => n.val / 2
  | .clusterWay n _ => n.val / 2
  | .sliceWay n _ => n.val / 2
  | .sliceControl n => n.val / 2
  | .port n => n.val
  | .hubBlock _ _ => 0

/-- The entry of a unit that fails (R636): the subject is its group. Outcome 0 fenced, 1 way disabled, 2 fatal. -/
def unitEntry (s : State) (g kind inst way cause outcome : Nat) : State :=
  logBootWith s 5 g 1 (unitWord kind inst way cause + outcome * 2 ^ 40)

/-- A unit is fenced for good (R631). -/
def fenceStuck (s : State) (ps : List Page) : State :=
  let s1 := ps.foldl fencePage s
  { s1 with boot := { s1.boot with stuck := ps ++ s1.boot.stuck } }

/-- A way counted in BT_FAIL_WAYS. -/
def countFailWay (s : State) (lo : Nat) : State :=
  let v := preg s .bt 0x174
  setPreg s .bt 0x174 (setFld v lo 12 (fld v lo 12 + 1))

/-- A failing cluster: it and its cores. -/
def failCluster (s : State) (n : Fin 16) : State :=
  orPreg (fenceStuck s (.cl n :: (clusterCores n).map Page.gc)) .bt 0x170 (one32 n.val)

/-- What a failing unit comes to (R631), with its entry. -/
def failUnit (s : State) (u : BistUnit) : State :=
  let g := unitGroup u
  match u with
  | .core id =>
    let s1 := orPreg (fenceStuck s [.gc id]) .bt (0x150 + 4 * (id.val / 32)) (one32 (id.val % 32))
    unitEntry (raiseErr s1 .bt 0 (unitWord 1 id.val 0 0)) g 1 id.val 0 0 0
  | .clusterLogic n => unitEntry (raiseErr (failCluster s n) .bt 0 (unitWord 2 n.val 0 0)) g 2 n.val 0 0 0
  | .clusterWay n w =>
    let s1 := raiseErr (countFailWay s 12) .bt 0 (unitWord 3 n.val w.val 0)
    if (ccWays s n).length ≤ waysLeast (.cluster n) then unitEntry (failCluster s1 n) g 3 n.val w.val 0 0
    else unitEntry (orPreg s1 (.cl n) 0x108 (one32 w.val)) g 3 n.val w.val 0 1
  | .sliceWay n w =>
    let s1 := countFailWay s 0
    if (slWays s n).length ≤ waysLeast (.slice n) then unitEntry (hubFail s1 8 n.val 4 w.val) g 4 n.val w.val 0 2
    else unitEntry (orPreg (raiseErr s1 .bt 0 (unitWord 4 n.val w.val 0)) (.dc n) 0x104 (one32 w.val)) g 4 n.val w.val 0 1
  | .sliceControl n => unitEntry (hubFail s 7 n.val 6 0) g 6 n.val 0 7 2
  | .port n =>
    let s1 := orPreg (fenceStuck s [.xl n]) .bt 0x170 (one32 (16 + n.val))
    unitEntry (raiseErr s1 .bt 0 (unitWord 5 n.val 0 0)) g 5 n.val 0 0 0
  | .hubBlock c i => unitEntry (hubFail s c.toNat i.toNat 6 0) g 6 i.toNat 0 c.toNat 2

/-- The units of a group that fails as a whole (R645): its clusters and its port, and the hub blocks of group 0 (assumption 34). -/
def groupUnits (g : Nat) : List BistUnit :=
  [.clusterLogic (fin 16 (2 * g)), .clusterLogic (fin 16 (2 * g + 1)), .port (fin 8 g)]
    ++ (if g = 0 then [.hubBlock 6 1, .hubBlock 2 0, .hubBlock 3 0, .hubBlock 4 0, .hubBlock 5 0, .hubBlock 1 0] else [])

/-- A register of group results gets a code: 1 pass, 2 localised, 3 fatal. -/
def setGroupRes (s : State) (g code : Nat) : State :=
  let v := preg s .bt 0x108
  setPreg s .bt 0x108 (setFld v (2 * g) 2 code)

/-- BIST_DONE. -/
def bistDone (s : State) : State := withReady (fun t => orPreg t .dev 0x104 2) s

/-- BIST_GROUP_START (15 R629): in stage 1, the groups in order. -/
def groupStart (s : State) (g : Fin 8) : State :=
  if s.boot.stage = 1 ∧ s.boot.started.getLsbD g.val = false ∧ (List.range g.val).all (fun k => s.boot.started.getLsbD k) then
    { s with boot := { s.boot with started := setBit s.boot.started g.val true } }
  else s

/-- BIST_GROUP_START (15 R629). -/
def execBistGroupStart (g : Fin 8) (s : State) : Res := .next (groupStart s g)

/-- A group ends (R630): its signature, its result, its entry; with the last one passed, BIST is done. -/
def groupEnd (s : State) (g : Fin 8) (misr : BitVec 64) (ok : Bool) : State :=
  if s.boot.started.getLsbD g.val = false ∨ s.boot.ended.getLsbD g.val = true then s
  else
    let b := { s.boot with ended := setBit s.boot.ended g.val true
                           mismatched := if ok then s.boot.mismatched else setBit s.boot.mismatched g.val true }
    let s1 := setPreg64 { s with boot := b } .bt (0x110 + 8 * g.val) misr.toNat
    let s2 := logBootWith (if ok then setGroupRes s1 g.val 1 else s1) 4 g.val (b2n (!ok)) misr.toNat
    if s2.boot.ended = 0xFF ∧ s2.boot.mismatched = 0 then bistDone s2 else s2

/-- BIST_GROUP_COMPLETE (15 R630; link training may start at the end of group 0, R634). -/
def execBistGroupComplete (g : Fin 8) (misr : BitVec 64) (isMatch : Bool) (s : State) : Res :=
  .next (trainWhen (fun t => groupEnd t g misr isMatch) s)

/-- One mismatched group localised: the units that failed alone, or the whole group when none did (R645). -/
def localiseGroup (failing : List BistUnit) (s : State) (g : Nat) : State :=
  let mine := failing.filter fun u => decide (unitGroup u = g)
  let units := if mine.isEmpty then groupUnits g else mine
  let was := s.boot.stopped
  let s1 := units.foldl failUnit { s with boot := { s.boot with stopped := false } }
  let s2 := setGroupRes s1 g (if s1.boot.stopped then 3 else 2)
  { s2 with boot := { s2.boot with stopped := was || s1.boot.stopped } }

/-- Localisation of the mismatched groups, in ascending order, after group 7 has ended. -/
def localise (s : State) (failing : List BistUnit) : State :=
  if s.boot.ended ≠ 0xFF ∨ s.boot.mismatched = 0 ∨ s.boot.localised = true then s
  else
    let gs := (List.range 8).filter fun g => s.boot.mismatched.getLsbD g
    let s1 := gs.foldl (localiseGroup failing) { s with boot := { s.boot with localised := true } }
    if s1.boot.stopped then s1 else bistDone s1

/-- BIST_LOCALISATION_DONE (15 R631). -/
def execBistLocalisationDone (failing : List BistUnit) (s : State) : Res := .next (localise s failing)

/-! ## Memory training and initialisation (15 R632) -/

/-- HBM_UP. -/
def hbmUp (s : State) : State := withReady (fun t => orPreg t .dev 0x104 4) s

/-- Group 0 has passed, as a whole or after localisation. -/
def groupZeroPassed (s : State) : Bool :=
  bit s.boot.ended 0 && (!(bit s.boot.mismatched 0) || s.boot.localised) && !s.boot.stopped

/-- A stack finishes training, is trained once more, or fails for good. -/
def trainStack (s : State) (n : Fin 8) (ok : Bool) : State :=
  if s.boot.stage ≠ 1 ∨ groupZeroPassed s = false ∨ bit s.boot.trained n.val = true then s
  else if ok then
    let s1 := logBoot { s with boot := { s.boot with trained := setBit s.boot.trained n.val true } } 6 n.val 0
    if s1.boot.trained = 0xFF ∧ s1.boot.initDue = false then hbmUp s1 else s1
  else if bit s.boot.retrying n.val = false then
    { s with boot := { s.boot with retrying := setBit s.boot.retrying n.val true } }
  else hubFail (logBoot s 6 n.val 1) 9 n.val 6 0

/-- HBM_TRAINING_DONE (15 R632). -/
def execHbmTrainingDone (stack : Fin 8) (ok : Bool) (s : State) : Res := .next (trainStack s stack ok)

/-- MEMORY_INIT_DONE (15 R632, R640): device memory is zero, without poison. -/
def execMemoryInitDone (s : State) : Res :=
  .next (if s.boot.initDue = true ∧ s.boot.trained = 0xFF ∧ s.boot.stopped = false then
      hbmUp { s with dm := [], poison := [], boot := { s.boot with initDue := false } }
    else s)

/-! ## Boot stages (15 R624 to R628) -/

/-- The bank the boot ROM chooses: that of the valid directory with the higher version, A among equals (R626). -/
def chooseBank (i : BootInfo) : Option Bool :=
  match i.dirA, i.dirB with
  | none, none => none
  | some _, none => some false
  | none, some _ => some true
  | some a, some b => some (decide (a ≠ b) && decide ((b - a).toNat < 2 ^ 31))

/-- A bank passes its checks, and its directory is valid. -/
def bankOk (i : BootInfo) (b : Bool) : Bool := if b then i.dirB.isSome && i.bankBOk else i.dirA.isSome && i.bankAOk

def bankDir (i : BootInfo) (b : Bool) : Option W32 := if b then i.dirB else i.dirA

/-- RECOVERY (R627). -/
def enterRecovery (s : State) : State :=
  logBoot { s with boot := { s.boot with recovery := true, stage := 3 }, cxl := { s.cxl with subsystem := 0 } } 8 0 0

/-- The bank in use failed: stage 0 restarts with the other one if its directory is valid and it has not been tried (R626). -/
def fallBack (s : State) (i : BootInfo) (bank : Bool) : State :=
  if s.boot.fallback ∨ (bankDir i (!bank)).isNone then enterRecovery s
  else
    let s1 := { s with boot := { s.boot with fallback := true, bankB := !bank } }
    stageStart (logBoot s1 3 (b2n (!bank)) 0) 0

/-- The bank being tried: the other one after a fallback. -/
def bankTried (s : State) (i : BootInfo) : Option Bool := if s.boot.fallback then some s.boot.bankB else chooseBank i

/-- A stage ends, with its entry. -/
def stageEnd (s : State) (k : Nat) : State :=
  logBoot { s with boot := { s.boot with lastStage := BitVec.ofNat 2 k } } 2 k 0

/-- Stage 0 ends: the bank is chosen and stage 1 verified. -/
def stageZero (s : State) (i : BootInfo) : State :=
  match bankTried s i with
  | none => enterRecovery s
  | some b =>
    if bankOk i b = false then fallBack s i b
    else
      let s1 := setPreg { s with boot := { s.boot with bankB := b, fwRev := i.fwRev, bootCount := i.bootCount }
                                 cxl := { s.cxl with subsystem := i.subsystem } } .bt 0x17C ((bankDir i b).getD 0)
      let s2 := setPreg s1 .lb 0x108 (BitVec.ofNat 32 (i.flashBase.toNat * 2 ^ 21))
      stageStart (stageEnd s2 0) 1

/-- Stage 1 ends: self-test done, memory up, stage 2 loaded and verified. -/
def stageOne (s : State) (i : BootInfo) : State :=
  if fld (preg s .dev 0x104) 1 2 ≠ 3 then s
  else if bankOk i s.boot.bankB = false then fallBack s i s.boot.bankB
  else stageStart (stageEnd s 1) 2

/-- The faults latched while the main rails were off are raised (14 R596), with a condition present on the connection, or code 0
(assumption 32). -/
def raiseLatched (s : State) : State :=
  (List.range 32).foldl (fun t k =>
    if bit s.mod.mbFault k then
      raiseErr t .al 7 (k + ((s.mod.present.find? fun c => decide (c / 16 = k)).getD 0) % 16 * 2 ^ 8)
    else t) s

/-- Stage 2 ends: the flash ring validated, the enables, DEV_BOOT_CNT after a cold reset, FW_UP, and the latched faults. -/
def stageTwo (s : State) (i : BootInfo) : State :=
  withAlive (withReady fun s =>
    let s1 := lbBoot s
    let s2 := if s.boot.kind = 0 then setPreg s1 .dev 0x124 (BitVec.ofNat 32 (min (s.boot.bootCount.toNat + 1) (2 ^ 32 - 1))) else s1
    let s3 := orPreg (orPreg (orPreg s2 .fc 8 1) .lb 8 1) .dev 8 1
    let s4 := setPreg (setPreg s3 .dev 4 (setFld (preg s3 .dev 4) 16 16 s.boot.fwRev.toNat)) .bt 0x104 (i.elapsedMs.setWidth 32)
    let s5 := stageEnd { s4 with boot := { s4.boot with stage := 3 } } 2
    raiseLatched (orPreg s5 .dev 0x104 1)) s

/-- A boot stage finishes. -/
def stageComplete (s : State) (i : BootInfo) : State :=
  if s.mod.mainOn = false then s
  else match s.boot.stage.toNat with
    | 0 => stageZero s i
    | 1 => stageOne s i
    | 2 => stageTwo s i
    | _ => s

/-- BOOT_STAGE_COMPLETE (15 R628). -/
def execBootStageComplete (info : BootInfo) (s : State) : Res := .next (trainWhen (fun t => stageComplete t info) s)

/-! ## Function-level reset (15 R623, R642) -/

/-- The configuration space after an FLR: link fields, sticky AER fields, the DVSEC's control fields and what the device itself reports
stay. -/
def cxlAfterFlr (c : Cxl) : Cxl :=
  { c with memSpace := false, busMaster := false, parityResp := false, serr := false, intDisable := false, msixEn := false
           funcMask := false, relaxEn := true, intLine := 0, bars := Vector.replicate 6 0, d3hot := false, ctoVal := 0, ctoDis := false
           flr := true, msixQ := [], wq := c.wq.filter fun w => w.response.isNone }

/-- Responses that an FLR keeps from being written: those of commands not yet answered, and those that wait to be written. -/
def unwritten (s : State) : List Nat :=
  ((List.finRange 16).flatMap fun m => (((s.mailboxes.get m).taken.filter fun t => !t.silent).map fun t => 512 * m.val + t.slot.val))
    ++ (s.cxl.wq ++ s.frz.held).filterMap fun w => w.response.map (·.toNat)

/-- Registers of a page return to reset, PAGE_LOCK and CTRL with them (R621). -/
def pageCleared (s : State) (p : Page) : State :=
  let out (e : Nat × W32) : Bool := !(decide (pageBase p ≤ e.1) && decide (e.1 < pageBase p + 0x1000))
  { s with regs := s.regs.filter out, staged := s.staged.filter out, captured := s.captured.filter out }

/-- The MSI-X table and PBA return to reset (09 R379). -/
def msixReset (s : State) : State :=
  { s with regs := s.regs.filter fun e => !(decide (pageBase .ep + 0x800 ≤ e.1) && decide (e.1 < pageBase .ep + 0xB00)) }

/-- An FLR: configuration space, MSI-X, the FM page. -/
def flrAct (s : State) : State :=
  let lost := unwritten s
  let s1 := logBoot { s with boot := { s.boot with kind := 2 } } 0 2 0
  let s2 := pageCleared (resetMailboxes (msixReset s1)) .fm
  let s3 := { s2 with cxl := cxlAfterFlr s2.cxl, frz := { s2.frz with held := s2.frz.held.filter fun w => w.response.isNone } }
  let s4 := if s3.cxl.inta then { emit s3 (.inta false) with cxl := { s3.cxl with inta := false } } else s3
  lost.foldl (fun t k => raiseErr t .fm 2 k) s4

/-- FUNCTION_LEVEL_RESET (15 R623): a configuration write, answered with Retry while one is already in progress. -/
def execFunctionLevelReset (s : State) : Res := .next (cfgGate s flrAct)

/-- FLR_COMPLETE (15 R623). After it INTA follows its rule again. -/
def execFlrComplete (s : State) : Res :=
  .next (if s.cxl.flr then updateInta { s with cxl := { s.cxl with flr := false } } else s)

end Sys2Proof.Machine
end

