-- ==== Sys2Proof/Machine/View.lean ====
section
/-! DEFINITION. What a register reads as: the registers that show the state of their block, over those that hold their own value (03 R77, R81, R96,
and the register table of each page). -/

namespace Sys2Proof.Machine

/-! ## Counts and masks -/

/-- A mask of the indices below `n` for which `g` holds. -/
def maskOf (n : Nat) (g : Nat → Bool) : Nat := (List.range n).foldl (fun a i => a + b2n (g i) * 2 ^ i) 0

/-- How many indices below `n` `g` holds for. -/
def countOf (n : Nat) (g : Nat → Bool) : Nat := ((List.range n).filter g).length

/-- Sum over the indices below `n`. -/
def sumOf (n : Nat) (g : Nat → Nat) : Nat := (List.range n).foldl (fun a i => a + g i) 0

def coreFenced (s : State) (i : Nat) : Bool := fenced s (.gc (fin 256 i))

def clusterFenced (s : State) (i : Nat) : Bool := fenced s (.cl (fin 16 i))

def portFenced (s : State) (i : Nat) : Bool := fenced s (.xl (fin 8 i))

/-- FC_FENCED_UNITS (12 R518). -/
def fencedUnits (s : State) : Nat :=
  maskOf 16 (clusterFenced s) + maskOf 8 (stackFenced s) * 2 ^ 16 + maskOf 8 (portFenced s) * 2 ^ 24

/-- DEV_UNITS (03 R97): units that are not fenced. -/
def devUnits (s : State) : Nat :=
  countOf 256 (fun i => !coreFenced s i) + countOf 16 (fun i => !clusterFenced s i) * 2 ^ 13
    + countOf 8 (fun i => !stackFenced s i) * 2 ^ 18 + countOf 8 (fun i => !portFenced s i) * 2 ^ 22

/-- DEV_WAYS_OFF (03 R97). -/
def waysOff (s : State) : Nat :=
  sumOf 16 (fun n => 16 - (slWays s (fin 16 n)).length) + sumOf 16 (fun n => 8 - (ccWays s (fin 16 n)).length) * 2 ^ 12

/-! ## The views of each page -/

/-- STAT (03 R82; the block field of a DC page, 08 R335). -/
def statView (s : State) (p : Page) : Nat :=
  let running := match p with
    | .td => decide (s.tide.mode ≠ .disabled)
    | .dc n => (s.slice n).enabled
    | .lw => enabled s .lw || s.lw.closing
    | _ => enabled s p
  let isFenced := fenced s p || s.boot.stuck.contains p
  let block := match p with
    | .dc n => b2n (s.slice n).invalidated + b2n (s.slice n).dirtyOff * 2
    | _ => 0
  b2n running + b2n isFenced * 2 + block * 2 ^ 16

/-- Registers `first`, `first + stride`, … of a table row: the index of an offset. -/
def idxOf (o first n stride : Nat) : Option Nat :=
  if first ≤ o ∧ o < first + n * stride ∧ (o - first) % stride = 0 then some ((o - first) / stride) else none

def devView (s : State) (o : Nat) : Option Nat :=
  if o = 0x104 then some (devReady s).toNat
  else if o = 0x114 then some (devUnits s)
  else if o = 0x118 then some (waysOff s)
  else none

/-- The FC page (12 R537). -/
def fcView (s : State) (o : Nat) : Option Nat :=
  if o = 0x104 then some (b2n s.fc.safe + b2n (aliveRuns s) * 2 + b2n s.fc.aliveRb * 4 + s.fc.queue.length * 2 ^ 16)
  else if o = 0x180 then some (fencedUnits s)
  else match idxOf o 0x140 8 4, idxOf o 0x160 8 4 with
    | some i, _ => some (fld (nth s.fc.queue 0 0) (32 * i) 32)
    | none, some k => some (maskOf 32 fun b => coreFenced s (32 * k + b))
    | none, none => none

/-- LB_SNAP_VALID: the slots with a snapshot that has been committed; a bad one found at boot is not valid (13 R562). -/
def snapValid (s : State) : Nat :=
  maskOf 16 fun n => (s.lb.slots.get (fin 16 n)).commit && !(bit (preg s .lb 0x118) n)

/-- The LB page (13 R564). -/
def lbView (s : State) (o : Nat) : Option Nat :=
  if o = 0x104 then
    let active := match s.lb.snap with | none => 0 | some x => if x.short then 1 else 2
    let slot := match s.lb.snap with | none => 0 | some x => x.slot.val
    some (s.lb.head.toNat + b2n s.lb.wrapped * 2 ^ 12 + b2n s.lb.fresh * 2 ^ 13 + active * 2 ^ 14 + slot * 2 ^ 16
      + (readyErased s).length * 2 ^ 20 + b2n (powerFailing s) * 2 ^ 22)
  else if o = 0x10C then some (snapValid s)
  else if o = 0x110 then some (match s.lb.newest with | some n => n.val + 2 ^ 8 | none => 0)
  else none

/-- The GP page (13 R569). -/
def gpView (s : State) (o : Nat) : Option Nat :=
  if o = 0x104 then
    some (s.gp.level.toNat + b2n s.gp.factory * 4 + b2n s.gp.nonceOk * 8 + b2n s.gp.locked * 16 + s.gp.result.toNat * 32
      + s.gp.fails.toNat * 2 ^ 8 + b2n s.gp.prodFuse * 2 ^ 12)
  else none

/-- The TD page (02 R48). -/
def tdView (s : State) (o : Nat) : Option Nat :=
  if o = 0x104 then
    some (modeCode s.tide.mode + b2n s.tide.refOk * 8 + b2n s.tide.grain4 * 16 + b2n s.tide.halt * 32 + s.tide.hops.toNat * 64)
  else if o = 0x110 then some (s.tide.step.toNat % 2 ^ 32)
  else if o = 0x114 then some (s.tide.step.toNat / 2 ^ 32)
  else if o = 0x118 then some s.tide.phase.toNat
  else if o = 0x120 then some s.tide.len.toNat
  else none

/-- The present pass time of a stack (11 R481, R489): the longest while the page is disabled, the pinned one while PIN is 1. -/
def scrubPass (s : State) (n : Fin 8) : Nat :=
  if enabled s .al = false then fld (preg s .al 0x14C) 0 24
  else if bit (preg s .al 0x140) 0 then clampPass s (fld (preg s .al 0x150) 0 24)
  else clampPass s (s.scrubs.get n).pass.toNat

/-- The AL page (11 R489). -/
def alView (s : State) (o : Nat) : Option Nat :=
  if o = 0x128 then
    let sel := preg s .al 0x124
    let e := s.eqOf (eqKey (fld sel 0 4) (fld sel 4 4))
    some (e.ctle.toNat + e.tap.toNat * 2 ^ 5 + e.margin.toNat * 2 ^ 16)
  else (idxOf o 0x160 8 4).map fun i => scrubPass s (fin 8 i)

/-- The BT page (15 R637). -/
def btView (s : State) (o : Nat) : Option Nat :=
  if o = 0x100 then
    some (s.boot.kind.toNat + s.boot.lastStage.toNat * 4 + b2n s.boot.bankB * 16 + b2n s.boot.fallback * 32 + b2n s.boot.recovery * 64)
  else none

/-- The XB page (06 R265). -/
def xbView (s : State) (o : Nat) : Option Nat :=
  if o = 0x11C then some (s.xb.ptr.get (fin 26 (fld (preg s .xb 0x100) 0 5))).toNat
  else if o = 0x164 then some s.xb.held.length
  else none

def slotCode : SlotState → Nat
  | .invalid => 0
  | .pending => 1
  | .valid => 2
  | .failed => 3

/-- The VT page (07 R304). -/
def vtView (s : State) (o : Nat) : Option Nat :=
  let sel := preg s .vt 0x110
  let x := (s.core (fin 256 (fld sel 0 8))).slots.get (fin 16 (fld sel 8 4))
  if o = 0x108 then some (l2Pool - l2Used s)
  else if o = 0x10C then some (maskOf 16 (draining s))
  else if o = 0x114 then
    some (slotCode x.st + b2n x.big * 4 + x.kind.toNat * 16 + x.rights.toNat * 64 + x.gen.toNat % 2 ^ 16 * 2 ^ 16)
  else if o = 0x118 then some (x.base.toNat / 2 ^ 25 * 2 ^ 25 % 2 ^ 32)
  else if o = 0x11C then some (x.base.toNat / 2 ^ 32)
  else (idxOf o 0x140 16 4).map fun m => (s.ctxs.get (fin 16 m)).gen.toNat

/-- The LW page (08 R346): LW_HOST_LINES. -/
def lwView (s : State) (o : Nat) : Option Nat :=
  if o = 0x14C then
    some ((s.slices.toList.map fun x => (x.lines.filter fun e => !(keyLine e.1).host && decide (e.2.h ≠ .none)).length).foldl (· + ·) 0)
  else none

/-- The entry of the freeze report that EP_FRZ_SEL selects. -/
def frzSelected (s : State) : FrzEnt := nth s.frz.report (fld (preg s .ep 0x12C) 0 11) ⟨0, 0, 0, 0, false⟩

/-- The EP page (09 R395). -/
def epView (s : State) (o : Nat) : Option Nat :=
  let e := frzSelected s
  if o = 0x100 then
    let v := if s.cxl.link = .down then 0 else preg s .ep 0x100
    some (fld v 0 11 + b2n (decide (s.cxl.link = .l1)) * 2 ^ 11 + b2n s.cxl.cacheEn * 2 ^ 12 + b2n s.cxl.memEn * 2 ^ 13 + fld v 14 1 * 2 ^ 14)
  else if o = 0x114 then some (ctoEff s.cxl)
  else if o = 0x128 then
    some (b2n s.frz.on + s.frz.cause.toNat * 2 + s.frz.report.length * 16 + b2n s.frz.summary * 2 ^ 16)
  else if o = 0x130 then some (e.master.toNat + (if e.master.toNat < 16 then e.core.toNat else 0) * 2 ^ 6 + b2n e.peer * 2 ^ 14)
  else if o = 0x134 then some (e.line.toNat * 64 % 2 ^ 32)
  else if o = 0x138 then some (e.line.toNat * 64 / 2 ^ 32)
  else if o = 0x13C then some (e.mask.toNat % 2 ^ 32)
  else if o = 0x140 then some (e.mask.toNat / 2 ^ 32)
  else none

/-- The FM page (06 R253). -/
def fmView (s : State) (o : Nat) : Option Nat :=
  (idxOf o 0x110 16 0x20).map fun m =>
    let x := s.mailboxes.get (fin 16 m)
    x.h.toNat + b2n (!x.empty) * 2 ^ 16

/-- The ML page (04 R142). -/
def mlView (s : State) (o : Nat) : Option Nat :=
  let l := s.lock (fin 1024 (fld (preg s .ml 0x100) 0 10))
  if o = 0x104 then
    let st := match l.st with | .free => 0 | .held => 1 | .broken => 2
    some (st + b2n l.unknown * 4 + l.owner.toNat * 2 ^ 8 + l.epoch.toNat * 2 ^ 16)
  else if o = 0x108 then some l.queue.length
  else none

/-- The PL page (11 R488). -/
def plView (s : State) (o : Nat) : Option Nat :=
  let r := fld (preg s .pl 0x110) 0 13
  if o = 0x114 then
    let at_ := placeOf s r
    some (at_ / 1024 + at_ % 1024 * 8 + b2n (sget (fun _ => false) s.pl.pins r) * 2 ^ 16 + b2n (fixedRegion r) * 2 ^ 17)
  else if o = 0x118 then some (heatOf s r % 2 ^ 24)
  else if o = 0x120 then some (match s.pl.cur with | some (a, b) => a.toNat + b.toNat * 2 ^ 16 + 2 ^ 31 | none => 0)
  else if o = 0x124 then some s.pl.prog.toNat
  else none

/-- A DC page (08 R335). -/
def dcView (s : State) (n : Fin 16) (o : Nat) : Option Nat :=
  if o = 0x114 then some (s.slice n).misses.length else none

/-- A CL page (06 R242; 08 R334; 11 R478). -/
def clView (s : State) (n : Fin 16) (o : Nat) : Option Nat :=
  let x := s.cl n
  let q (i : Nat) : List Manifest := x.mover.queues.get (fin 4 i)
  if o = 0x104 then some (b2n x.cc.enabled + b2n x.cc.invalidated * 2 + b2n x.cc.dirtyOff * 4)
  else if o = 0x204 then some (maskOf 4 (fun i => !(q i).isEmpty) + maskOf 4 (fun i => (q i).any fun m => m.halted) * 16)
  else if o = 0x208 then some (sumOf 4 fun i => (q i).length * 2 ^ (8 * i))
  else if o = 0x314 then
    some (x.pw.code.toNat + x.pw.target.toNat * 2 ^ 8 + x.pw.volt.toNat * 2 ^ 16 + b2n x.pw.clipped * 2 ^ 25 + b2n x.pw.held * 2 ^ 26
      + b2n (decide (x.pw.stretch ≠ 0)) * 2 ^ 27)
  else (idxOf o 0x20C 4 4).map fun i => (x.mover.last.get (fin 4 i)).toNat

def portCode : PortState → Nat
  | .down => 0
  | .detect => 1
  | .train => 2
  | .ident => 3
  | .probe => 4
  | .up => 5
  | .failed => 6

/-- An XL page (10 R450). -/
def xlView (s : State) (n : Fin 8) (o : Nat) : Option Nat :=
  let p := s.port n
  if o = 0x104 then some (portCode p.st + p.width.toNat * 8)
  else if o = 0x124 then some (p.credits.get 0 % 64 + p.credits.get 1 % 64 * 2 ^ 8 + p.credits.get 2 % 64 * 2 ^ 16)
  else if o = 0x134 then some (replayFill p)
  else if o = 0x138 then some (b2n p.armed + b2n p.bank * 2 + fld (preg s (.xl n) 0x138) 2 1 * 4)
  else none

def coreCode : CoreState → Nat
  | .reset => 0
  | .parked => 1
  | .run => 2
  | .wait => 3
  | .halt => 4
  | .fenced => 5

def berthCode : BerthState → Nat
  | .empty => 0
  | .filling => 1
  | .full => 2

/-- A GC page (04 R135). GC_WAIT_STEP shows the step of the last WAIT also outside WAIT, where R131 lets only cause and target read 0: DESIGN CHOICE
(assumption 51). -/
def gcView (s : State) (id : Fin 256) (o : Nat) : Option Nat :=
  let c := s.core id
  let b (i : Nat) : Berth := c.berths.get (fin 16 i)
  if o = 0x100 then some (coreCode c.st + b2n (coreQuiet s id) * 8 + c.part.toNat * 16 + id.val * 2 ^ 8)
  else if o = 0x104 then some (if c.st = .wait then c.cause.toNat else 0)
  else if o = 0x108 then some (if c.st = .wait then c.target.toNat else 0)
  else if o = 0x10C then some c.waitStep.toNat
  else if o = 0x118 then some c.events.toNat
  else if o = 0x11C then some c.lastPc.toNat
  else if o = 0x120 then some (c.exc.toNat + c.excPc.toNat * 2 ^ 16)
  else if o = 0x124 then
    some (maskOf 16 (fun i => decide ((b i).st = .full)) + maskOf 16 (fun i => decide ((b i).st = .filling)) * 2 ^ 16)
  else if o = 0x128 then some c.mark.toNat
  else if o = 0x12C then some c.epoch.toNat
  else match idxOf o 0x144 16 8, idxOf o 0x1C0 16 8, idxOf o 0x1C4 16 8 with
    | some i, _, _ =>
      let h := c.chans.get (fin 16 i)
      some (h.fares.toNat + h.status.toNat * 2 ^ 8 + h.sent.toNat * 2 ^ 16)
    | none, some i, _ => some ((b i).src.toNat + (b i).chan.toNat * 2 ^ 16 + (b i).epoch.toNat * 2 ^ 20 + berthCode (b i).st * 2 ^ 24)
    | none, none, some i => some ((b i).len.toNat + (b i).tag.toNat % 2 ^ 16 * 2 ^ 16)
    | none, none, none => none

/-! ## The management bus (14 R607, R619) -/

/-- A three-state input in MB_SUPV. -/
def levelCode : PinLevel → Nat
  | .low => 0
  | .high => 1
  | .opened => 2

/-- MB_DEV (R607, R619): 0 while main power is off, and before FW_UP. -/
def mbDev (s : State) : Nat :=
  if s.mod.mainOn && bit (preg s .dev 0x104) 0 then
    b2n (bit (devReady s) 31) + b2n s.fc.safe * 2 + b2n (aliveRuns s) * 4 + b2n (bit (devReady s) 6) * 8
  else 0

/-- MB_SUPV: the supervision as it stands. -/
def mbSupv (s : State) : Nat :=
  let m := s.mod
  m.v54.toNat + m.v12.toNat * 2 ^ 2 + levelCode m.pwrFail * 2 ^ 4 + levelCode m.perst * 2 ^ 6 + levelCode m.trst * 2 ^ 8 + m.leak.toNat * 2 ^ 10
    + b2n m.intPf * 2 ^ 13 + b2n m.mainOn * 2 ^ 14

/-- The hottest cluster in °C; 0xFF while main power is off. -/
def hottestCluster (s : State) : Nat :=
  if s.mod.mainOn then (List.finRange 16).foldl (fun a n => max a (fld (preg s (.cl n) 0x320) 0 8)) 0 else 255

/-- What a block read on the management bus returns; none where it is not acknowledged: another target address, no standby, or an offset that the
table does not list (R606, R607). -/
def mbView (s : State) (target : BitVec 7) (off : Byte) : Option W32 :=
  if s.mod.v12 = 0 ∨ target ≠ 0x58 + s.mod.straps.setWidth 7 then none
  else match off.toNat with
    | 0x00 => some 0x33081F9B
    | 0x04 => some (preg s .dev 0x108)
    | 0x08 => some (preg s .dev 0x10C)
    | 0x0C => some (BitVec.ofNat 32 (mbSupv s))
    | 0x10 => some s.mod.mbFault
    | 0x14 => some s.mod.mbLast
    | 0x18 => some s.mod.mbPower
    | 0x1C => some (setFld s.mod.mbTemp 24 8 (hottestCluster s))
    | 0x20 => some s.mod.mbLeak
    | 0x24 => some (BitVec.ofNat 32 (mbDev s))
    | 0x28 => some s.mod.mbScratch
    | _ => none

/-- Registers of a page that show the block's state; none for one that holds its own value. -/
def blockView (s : State) (p : Page) (o : Nat) : Option Nat :=
  match p with
  | .dev => devView s o
  | .fc => fcView s o
  | .lb => lbView s o
  | .gp => gpView s o
  | .td => tdView s o
  | .al => alView s o
  | .bt => btView s o
  | .xb => xbView s o
  | .vt => vtView s o
  | .lw => lwView s o
  | .ep => epView s o
  | .fm => fmView s o
  | .ml => mlView s o
  | .pl => plView s o
  | .dc n => dcView s n o
  | .cl n => clView s n o
  | .xl n => xlView s n o
  | .gc id => gcView s id o
  | .sd | .mc _ => none

/-- The value of a register of a page as it stands, halves of a pair included. -/
def liveReg (s : State) (p : Page) (o : Nat) : W32 :=
  if o = 0xC then BitVec.ofNat 32 (statView s p)
  else match blockView s p o with
    | some v => BitVec.ofNat 32 v
    | none => preg s p o

/-- The value of a register of a timetable window as it stands (02 R61). -/
def liveTt (s : State) (id : Fin 256) (o : Nat) : W32 :=
  let t := (s.core id).tt
  if o = 0x8000 then BitVec.ofNat 32 (fld (ttReg s id o) 0 1 + b2n t.bank * 2 + b2n t.armed * 4)
  else if o = 0x8014 then BitVec.ofNat 32 (fld (ttReg s id o) 0 5 + b2n (coreQuiet s id) * 32 + coreHint s id * 2 ^ 8)
  else if o = 0x8024 then t.next.setWidth 32
  else ttReg s id o

/-! ## What configuration space shows (09 R363, R368, R370, R371, R373) -/

/-- Cache_Capable and Mem_Capable of the CXL device DVSEC: 0 for a link-up below 32 GT/s (R363). -/
def cxlCapable (s : State) : Bool := decide (s.cxl.link = .down) || cxlMode s

/-- A capability header in the low word: its ID and the next pointer; an extended one has a version and a 12-bit pointer. -/
def capWord (id next : Nat) : Nat := id + next * 2 ^ 8

def extCapWord (id version next : Nat) : Nat := id + version * 2 ^ 16 + next * 2 ^ 20

/-- DVSEC Range 1 Base: the committed base of the decoder, else 0 (R368). -/
def rangeBase (s : State) : Nat := if bit (preg s .ep 0x120) 8 then preg64 s .ep 0x118 else 0

/-- The type-0 header and the capability headers (R370, R371). Bit positions of the Command and Status registers and of the MSI-X capability are
PCI Express's, and so is the DVSEC capability version 1 (PRESUMED, assumption 7). -/
def cfgView (s : State) (o : Nat) : Option Nat :=
  let c := s.cxl
  let bar (i : Nat) (type : Nat) : Nat := (c.bars.get (fin 6 i)).toNat + type
  match o with
  | 0x00 => some 0x33081F9B
  | 0x04 => some (b2n c.memSpace * 2 + b2n c.busMaster * 4 + b2n c.parityResp * 2 ^ 6 + b2n c.serr * 2 ^ 8 + b2n c.intDisable * 2 ^ 10
      + b2n (irqOr s) * 2 ^ 19 + 2 ^ 20)
  | 0x08 => some 0x120000B1
  | 0x0C => some 0
  | 0x10 => some (bar 0 4)
  | 0x14 => some (bar 1 0)
  | 0x18 => some (bar 2 12)
  | 0x1C => some (bar 3 0)
  | 0x20 => some (bar 4 12)
  | 0x24 => some (bar 5 0)
  | 0x2C => some (0x1F9B + c.subsystem.toNat * 2 ^ 16)
  | 0x30 => some 0
  | 0x34 => some 0x40
  | 0x3C => some (c.intLine.toNat + 2 ^ 8)
  | 0x40 => some (capWord 0x01 0x50)
  | 0x50 => some (capWord 0x10 0x90)
  | 0x90 => some (capWord 0x11 0x00 + (31 + b2n c.funcMask * 2 ^ 14 + b2n c.msixEn * 2 ^ 15) * 2 ^ 16)
  | 0x94 => some 0xA800
  | 0x98 => some 0xAA00
  | 0x100 => some (extCapWord 0x0001 2 0x150)
  | 0x150 => some (extCapWord 0x0023 1 0x190)
  | 0x190 => some (extCapWord 0x0023 1 0x1B0)
  | 0x1B0 => some (extCapWord 0x0023 1 0x1C8)
  | 0x1C8 => some (extCapWord 0x002E 1 0x000)
  | _ => none

/-! ## What BAR0 serves (03 R79, R80; 15 R627) -/

/-- The page that serves an offset: in RECOVERY the DEV, BT, GP and LB pages alone. -/
def servedPage (s : State) (off : Nat) : Option Page :=
  match pageAt off with
  | some p => if s.boot.recovery && !([Page.dev, .bt, .gp, .lb].contains p) then none else some p
  | none => none

/-- The core whose timetable window serves an offset. -/
def servedTt (s : State) (off : Nat) : Option (Fin 256) := if s.boot.recovery then none else ttAt off

/-- The offset is the _HI half of a pair. -/
def isHi (rows : Nat → Option RegRow) (o : Nat) : Bool :=
  decide (4 ≤ o) && (match rows (o - 4) with | some w => w.pair | none => false)

/-- A row of a timetable window. -/
def ttRow (o : Nat) : Option RegRow := ttRows.find? (·.covers o)

/-- What a 4-byte read of BAR0 returns (03 R77, R78, R80, R96): the upper half of a pair as captured, 0 from a reserved offset or from unmapped
space. -/
def bar0Read (s : State) (off : Nat) : W32 :=
  match servedPage s off, servedTt s off with
  | some p, _ =>
    let o := off - pageBase p
    if isHi (rowOf p) o then sget (fun _ => 0) s.captured off
    else if (rowOf p o).isSome then liveReg s p o
    else 0
  | none, some id =>
    let o := off - ttBase id
    if isHi ttRow o then sget (fun _ => 0) s.captured off else if (ttRow o).isSome then liveTt s id o else 0
  | none, none => 0

end Sys2Proof.Machine
end

