-- ==== Sys2Proof/Machine/Registers.lean ====
section
/-! DEFINITION. Accesses to BAR0: the write of any register, the pairs, unmapped space, and JTAG's way to the GP page (03 R76 to R80; 13 R566). -/

namespace Sys2Proof.Machine

/-! ## Writes -/

/-- A write of SD_WATCH: a partition that is no longer watched is no candidate (04 R163). -/
def sdWatchWrite (s : State) (v : W32) : State :=
  let w := pageWrite s .sd 0x110 v
  let watch := preg w.st .sd 0x110
  setPreg { w.st with sdArmed := w.st.sdArmed &&& watch.setWidth 16 } .sd 0x114 (preg w.st .sd 0x114 &&& watch)

/-- A write of a register of a page at 0x100 and above that acts on its block; none for one that only holds its value. -/
def actWrite (s : State) (p : Page) (o : Nat) (v : W32) : Option State :=
  match p with
  | .fc =>
    if o = 0x100 then some (fcCtrlWrite s v)
    else if o = 0x120 then some (fcQWrite s v)
    else if o = 0x138 then some (wdogKickWrite s v)
    else none
  | .lb => if o = 0x100 then some (lbCtrlWrite s v) else none
  | .gp => if o = 0x100 then some (gpCtrlWrite s v false) else none
  | .td =>
    if o = 0x100 then some (tdCtrlWrite s v)
    else if o = 0x124 then some (tdLenWrite s .lenNext v)
    else if o = 0x128 then some (tdLenWrite s .lenStepLo v)
    else if o = 0x12C then some (tdLenWrite s .lenStepHi v)
    else if o = 0x140 then some (tdWinWrite s v)
    else none
  | .al =>
    if o = 0x100 then some (alPwrLimWrite s v)
    else if o = 0x114 then some (alDroopWrite s true v)
    else if o = 0x118 then some (alDroopWrite s false v)
    else if o = 0x12C then some (alEqForceWrite s v)
    else if o = 0x148 then some (alScrubPassMinWrite s v)
    else none
  | .xb => some (xbWrite s o v)
  | .vt =>
    if o = 0x100 then some (vtCtxEnWrite s v)
    else if o = 0x104 then some (vtClearWrite s v)
    else none
  | .lw => if o = 0x140 then some (lwMoveWrite s v) else none
  | .ep =>
    if o = 0x110 then some (budgetWrite s v)
    else if o = 0x120 then some (hdmCtrlWrite s v)
    else if o = 0x124 then some (frzCtrlWrite s v none)
    else (idxOf o 0x80C 32 16).map fun i => vectorCtrlWrite s (fin 32 i) v
  | .fm => (idxOf o 0x100 16 0x20).map fun m => mbCtrlWrite s (fin 16 m) v
  | .ml => if o = 0x10C then some (mlCmdWrite s v) else none
  | .sd =>
    if o = 0x110 then some (sdWatchWrite s v)
    else if o = 0x11C then some (sdPartResetWrite s v)
    else none
  | .pl =>
    if o = 0x114 then some (plRegionWrite s v)
    else if o = 0x11C then some (plMoveWrite s v)
    else none
  | .dc n => if o = 0x100 then some (dcCmdWrite s n v) else none
  | .cl n =>
    if o = 0x100 then some (ccCtrlWrite s n v)
    else if o = 0x200 then some (mvCtrlWrite s n v)
    else none
  | .xl n =>
    if o = 0x100 then some (xlCtrlWrite s n v)
    else if o = 0x138 then some (xlSlotCtrlWrite s n v)
    else none
  | .gc id =>
    if o = 0x110 then some (gcStartWrite s id v)
    else if o = 0x114 then some (gcKickWrite s id v)
    else none
  | .dev | .bt | .mc _ => none

/-- A whole-register write to a page; `same`: what hardware does to the register in the same cycle (R90). -/
def pageRegWrite (s : State) (p : Page) (o : Nat) (v : W32) (same : W32 := 0) : State :=
  if o = 8 then ctrlWrite s p v
  else if o < 0x100 then (pageWrite s p o v same).st
  else match actWrite s p o v with
    | some t => t
    | none => (pageWrite s p o v same).st

/-- A whole-register write to BAR0 below the debug windows (03 R79, R80). -/
def bar0Write (s : State) (off : Nat) (v : W32) (same : W32 := 0) : State :=
  match servedPage s off, servedTt s off with
  | some p, _ => pageRegWrite s p (off - pageBase p) v same
  | none, some id => ttWindowWrite s id (off - ttBase id) v
  | none, none => stray s off true

/-- A write that does not cover a whole register (03 R76, R105): discarded, with SIZE, or LOCKED alone on a locked page. At a reserved offset SIZE
is set alone too, which is the model's choice between it and RSV_OFF (assumption 38). On a locked page only a write to SCRATCH counts as exempt,
since no bits of a partial write are written (R94). -/
def sizeWrite (s : State) (off : Nat) : State :=
  match servedPage s off, servedTt s off with
  | some p, _ =>
    let o := (off - pageBase p) / 4 * 4
    pageErr s p (if bit (preg s p 0x44) 0 && !(lockExempt o 0) then 2 else 8) o
  | none, some _ => s
  | none, none => stray s off true

/-- REGISTER_WRITE (03 R85): to BAR0, to a configuration field, or to bytes of a mailbox slot. -/
def execRegisterWrite (target : WriteTarget) (s : State) : Res :=
  match target with
  | .bar0 off v whole same =>
    if 0x2000000 ≤ off.toNat then execDebugWindowAccess off (some v) s
    else if whole = true ∧ off.toNat % 4 = 0 then .next (bar0Write s off.toNat v same)
    else .next (sizeWrite s off.toNat)
  | .config f v => .next (cfgGate s fun t => cfgWrite t f v)
  | .bar4 off bytes => .next (bar4Write s off.toNat bytes)

/-! ## Pairs (03 R78, R104) -/

/-- The offset is the _LO half of a pair that BAR0 serves. -/
def isLoPair (s : State) (off : Nat) : Bool :=
  match servedPage s off, servedTt s off with
  | some p, _ => (match rowOf p (off - pageBase p) with | some w => w.pair | none => false)
  | none, some id => (match ttRow (off - ttBase id) with | some w => w.pair | none => false)
  | none, none => false

/-- The live upper half of the pair at an offset. -/
def liveHi (s : State) (off : Nat) : W32 :=
  match servedPage s off, servedTt s off with
  | some p, _ => liveReg s p (off - pageBase p + 4)
  | none, some id => liveTt s id (off - ttBase id + 4)
  | none, none => 0

/-- The bytes of a word that a read asks for (03 R76); the others read as 0 here, and are not returned. -/
def maskBytes (v : W32) (enables : BitVec 4) : W32 :=
  v &&& BitVec.ofNat 32 ((List.range 4).foldl (fun a i => a + b2n (enables.getLsbD i) * 0xFF * 2 ^ (8 * i)) 0)

/-- A read of _LO captures the upper half; TD_STEP_LO captures the phase too (02 R48). A read of some of its bytes takes the same snapshot
(03 R76). -/
def pairRead (s : State) (off : Nat) (enables : BitVec 4) : State :=
  let s1 := { s with captured := sset (fun _ => 0) s.captured (off + 4) (liveHi s off) }
  let s2 := if off = pageBase .td + 0x110 then setPreg s1 .td 0x11C (s.tide.phase.setWidth 32) else s1
  emit s2 (.readData (maskBytes (bar0Read s off) enables))

/-- PAIR_LO_READ (03 R78). -/
def execPairLoRead (off : BitVec 26) (enables : BitVec 4) (s : State) : Res :=
  .next (if isLoPair s off.toNat then pairRead s off.toNat enables else s)

/-- PAIR_HI_WRITE (03 R78): the staged lower half and this upper half are committed together. -/
def execPairHiWrite (off : BitVec 26) (v : W32) (s : State) : Res :=
  .next (if 4 ≤ off.toNat ∧ isLoPair s (off.toNat - 4) = true then bar0Write s off.toNat v else s)

/-! ## Unmapped space (03 R80) -/

/-- Nothing serves the offset. -/
def unmapped (s : State) (off : Nat) : Bool :=
  (servedPage s off).isNone && (servedTt s off).isNone && decide (windowGrant s off = 0)

/-- UNMAPPED_ACCESS (03 R80): a read returns 0, a write is discarded; the access is recorded. -/
def execUnmappedAccess (off : BitVec 26) (write : Bool) (s : State) : Res :=
  .next (if unmapped s off.toNat then
      (if write then stray s off.toNat true else emit (stray s off.toNat false) (.readData 0))
    else s)

/-! ## JTAG's GP_REG (13 R566) -/

/-- GP_REG reaches the GP page: a read answers the register, a write of GP_CTRL acts as an attempt through JTAG. -/
def jtagReg (s : State) (o : Nat) (write : Option W32) : State :=
  match write with
  | none => emit s (.readData (bar0Read s (pageBase .gp + o)))
  | some v => if o = 0x100 then gpCtrlWrite s v true else pageRegWrite s .gp o v

/-- GP_REG (13 R566). -/
def execGpReg (off : BitVec 12) (write : Option W32) (s : State) : Res :=
  .next (if s.gp.tap then jtagReg (loadIr s 0x20) (off.toNat / 4 * 4) write else s)

end Sys2Proof.Machine
end

