-- ==== Sys2Proof/Machine/Dispatch.lean ====
section
/-! DEFINITION. The meaning of each command by name: one arm for each constructor of `Instr`. -/

namespace Sys2Proof.Machine

def exec (i : Instr) (s : State) : Host.Outcome State Fault Refusal :=
  match i with
  | .stepBoundary => Sys2Proof.Machine.execStepBoundary s
  | .tideFrame frame at64 => Sys2Proof.Machine.execTideFrame frame at64 s
  | .tideMiss => Sys2Proof.Machine.execTideMiss s
  | .holdExpired => Sys2Proof.Machine.execHoldExpired s
  | .refLoss => Sys2Proof.Machine.execRefLoss s
  | .tdEnable v => Sys2Proof.Machine.execTdEnable v s
  | .relock v => Sys2Proof.Machine.execRelock v s
  | .tdResume v => Sys2Proof.Machine.execTdResume v s
  | .tdLenNextWrite reg v => Sys2Proof.Machine.execTdLenNextWrite reg v s
  | .tdWinWrite v => Sys2Proof.Machine.execTdWinWrite v s
  | .xlTide port word at64 => Sys2Proof.Machine.execXlTide port word at64 s
  | .ttNop core idx => Sys2Proof.Machine.execTtNop core idx s
  | .ttEvent core idx => Sys2Proof.Machine.execTtEvent core idx s
  | .ttStart core idx => Sys2Proof.Machine.execTtStart core idx s
  | .ttSend core idx upset payload => Sys2Proof.Machine.execTtSend core idx upset payload s
  | .ttManifest core idx upset ue => Sys2Proof.Machine.execTtManifest core idx upset ue s
  | .ttDeadlineBerth core idx => Sys2Proof.Machine.execTtDeadlineBerth core idx s
  | .ttDeadlineMark core idx => Sys2Proof.Machine.execTtDeadlineMark core idx s
  | .ttLoad core idx => Sys2Proof.Machine.execTtLoad core idx s
  | .ttQuietOn core idx => Sys2Proof.Machine.execTtQuietOn core idx s
  | .ttQuietOff core idx => Sys2Proof.Machine.execTtQuietOff core idx s
  | .ttTrap core idx => Sys2Proof.Machine.execTtTrap core idx s
  | .ttBadact core idx => Sys2Proof.Machine.execTtBadact core idx s
  | .ttArm core v => Sys2Proof.Machine.execTtArm core v s
  | .ttBankWrite core off v => Sys2Proof.Machine.execTtBankWrite core off v s
  | .ttEnable core v => Sys2Proof.Machine.execTtEnable core v s
  | .registerWrite target => Sys2Proof.Machine.execRegisterWrite target s
  | .unmappedAccess off write => Sys2Proof.Machine.execUnmappedAccess off write s
  | .pairLoRead off enables => Sys2Proof.Machine.execPairLoRead off enables s
  | .pairHiWrite off v => Sys2Proof.Machine.execPairHiWrite off v s
  | .softReset page => Sys2Proof.Machine.execSoftReset page s
  | .pageLock page v => Sys2Proof.Machine.execPageLock page v s
  | .ctrlFenceWrite page fence => Sys2Proof.Machine.execCtrlFenceWrite page fence s
  | .gcEnable core v => Sys2Proof.Machine.execGcEnable core v s
  | .gcStart core v => Sys2Proof.Machine.execGcStart core v s
  | .gcPark core v => Sys2Proof.Machine.execGcPark core v s
  | .coreParked core => Sys2Proof.Machine.execCoreParked core s
  | .gcKick core v => Sys2Proof.Machine.execGcKick core v s
  | .messageDelivery k first parityOk => Sys2Proof.Machine.execMessageDelivery k first parityOk s
  | .fareReturn idx => Sys2Proof.Machine.execFareReturn idx s
  | .lockStatePe lock => Sys2Proof.Machine.execLockStatePe lock s
  | .forceFree v => Sys2Proof.Machine.execForceFree v s
  | .forceBreak v => Sys2Proof.Machine.execForceBreak v s
  | .sdPartReset v => Sys2Proof.Machine.execSdPartReset v s
  | .bundleIssue core upset same => Sys2Proof.Machine.execBundleIssue core upset same s
  | .mmaComplete core upset => Sys2Proof.Machine.execMmaComplete core upset s
  | .globalAccessComplete core idx res => Sys2Proof.Machine.execGlobalAccessComplete core idx res s
  | .mapFillComplete core slot ue => Sys2Proof.Machine.execMapFillComplete core slot ue s
  | .manifestStart cl q => Sys2Proof.Machine.execManifestStart cl q s
  | .manifestElement cl q res imem => Sys2Proof.Machine.execManifestElement cl q res imem s
  | .manifestComplete cl q => Sys2Proof.Machine.execManifestComplete cl q s
  | .segmentTranslation cl q => Sys2Proof.Machine.execSegmentTranslation cl q s
  | .segmentTranslationDone cl q ue => Sys2Proof.Machine.execSegmentTranslationDone cl q ue s
  | .manifestPartial cl q => Sys2Proof.Machine.execManifestPartial cl q s
  | .abortAll cl v => Sys2Proof.Machine.execAbortAll cl v s
  | .mvEn cl v => Sys2Proof.Machine.execMvEn cl v s
  | .mbNop mb slot seqWord => Sys2Proof.Machine.execMbNop mb slot seqWord s
  | .mbSubmit mb slot seqWord host ue => Sys2Proof.Machine.execMbSubmit mb slot seqWord host ue s
  | .mbWriteInline mb slot seqWord ue => Sys2Proof.Machine.execMbWriteInline mb slot seqWord ue s
  | .mbInject mb slot seqWord => Sys2Proof.Machine.execMbInject mb slot seqWord s
  | .mbKick mb slot seqWord => Sys2Proof.Machine.execMbKick mb slot seqWord s
  | .mbResume mb slot seqWord ue => Sys2Proof.Machine.execMbResume mb slot seqWord ue s
  | .mbAbort mb slot seqWord => Sys2Proof.Machine.execMbAbort mb slot seqWord s
  | .mbFence mb slot seqWord => Sys2Proof.Machine.execMbFence mb slot seqWord s
  | .tblWrite mb slot seqWord => Sys2Proof.Machine.execTblWrite mb slot seqWord s
  | .invalidate mb slot seqWord => Sys2Proof.Machine.execInvalidate mb slot seqWord s
  | .invalidateComplete idx ue => Sys2Proof.Machine.execInvalidateComplete idx ue s
  | .mbBadCmd mb slot seqWord => Sys2Proof.Machine.execMbBadCmd mb slot seqWord s
  | .mailboxEn mb v => Sys2Proof.Machine.execMailboxEn mb v s
  | .winReset mb v => Sys2Proof.Machine.execWinReset mb v s
  | .xbArbitration target arrivals => Sys2Proof.Machine.execXbArbitration target arrivals s
  | .xbStarve target idx => Sys2Proof.Machine.execXbStarve target idx s
  | .holdTimeout idx => Sys2Proof.Machine.execHoldTimeout idx s
  | .bar2Write requester off bytes relaxed => Sys2Proof.Machine.execBar2Write requester off bytes relaxed s
  | .unsupportedRequest cause requester posted => Sys2Proof.Machine.execUnsupportedRequest cause requester posted s
  | .vtClear v => Sys2Proof.Machine.execVtClear v s
  | .vtCtxEnWrite v => Sys2Proof.Machine.execVtCtxEnWrite v s
  | .rds cl line res fault => Sys2Proof.Machine.execRds cl line res fault s
  | .rdo cl line res => Sys2Proof.Machine.execRdo cl line res s
  | .upg cl line res => Sys2Proof.Machine.execUpg cl line res s
  | .wb cl line => Sys2Proof.Machine.execWb cl line s
  | .cleanNotice cl line => Sys2Proof.Machine.execCleanNotice cl line s
  | .rdcur master line res => Sys2Proof.Machine.execRdcur master line res s
  | .wrinv master line data => Sys2Proof.Machine.execWrinv master line data s
  | .wrpart master line data mask res => Sys2Proof.Machine.execWrpart master line data mask res s
  | .forwardRequest cl line notice => Sys2Proof.Machine.execForwardRequest cl line notice s
  | .snoopInvalidate cl line => Sys2Proof.Machine.execSnoopInvalidate cl line s
  | .requestRetry slice line master => Sys2Proof.Machine.execRequestRetry slice line master s
  | .dcStarve slice line master => Sys2Proof.Machine.execDcStarve slice line master s
  | .cacheFill cache line way res fault => Sys2Proof.Machine.execCacheFill cache line way res fault s
  | .ccFlush cl v => Sys2Proof.Machine.execCcFlush cl v s
  | .ccInv cl v => Sys2Proof.Machine.execCcInv cl v s
  | .dcFlush n v => Sys2Proof.Machine.execDcFlush n v s
  | .dcInv n v => Sys2Proof.Machine.execDcInv n v s
  | .invalidated cache => Sys2Proof.Machine.execInvalidated cache s
  | .cacheEnable cache v completes => Sys2Proof.Machine.execCacheEnable cache v completes s
  | .mcRead stack granule health => Sys2Proof.Machine.execMcRead stack granule health s
  | .mcPartialWrite stack granule data mask health => Sys2Proof.Machine.execMcPartialWrite stack granule data mask health s
  | .mcFullWrite stack granule data rival => Sys2Proof.Machine.execMcFullWrite stack granule data rival s
  | .scrubRead stack health write => Sys2Proof.Machine.execScrubRead stack health write s
  | .lwEnable v => Sys2Proof.Machine.execLwEnable v s
  | .lwMove v => Sys2Proof.Machine.execLwMove v s
  | .lwScanDone => Sys2Proof.Machine.execLwScanDone s
  | .bisnpResponse line dirty => Sys2Proof.Machine.execBisnpResponse line dirty s
  | .biSlow => Sys2Proof.Machine.execBiSlow s
  | .memrd hpa own => Sys2Proof.Machine.execMemrd hpa own s
  | .memrddata hpa => Sys2Proof.Machine.execMemrddata hpa s
  | .meminv hpa own => Sys2Proof.Machine.execMeminv hpa own s
  | .memwr hpa data poison => Sys2Proof.Machine.execMemwr hpa data poison s
  | .memwrptl hpa data mask poison => Sys2Proof.Machine.execMemwrptl hpa data mask poison s
  | .snpdata line => Sys2Proof.Machine.execSnpdata line s
  | .snpinv line => Sys2Proof.Machine.execSnpinv line s
  | .snpcur line => Sys2Proof.Machine.execSnpcur line s
  | .cxlCacheResponse idx res => Sys2Proof.Machine.execCxlCacheResponse idx res s
  | .linkUp info => Sys2Proof.Machine.execLinkUp info s
  | .linkTrainingRetry => Sys2Proof.Machine.execLinkTrainingRetry s
  | .linkReplay => Sys2Proof.Machine.execLinkReplay s
  | .linkRecovery => Sys2Proof.Machine.execLinkRecovery s
  | .linkDown => Sys2Proof.Machine.execLinkDown s
  | .completionTimeout idx => Sys2Proof.Machine.execCompletionTimeout idx s
  | .l1Entry l0p => Sys2Proof.Machine.execL1Entry l0p s
  | .l1Exit => Sys2Proof.Machine.execL1Exit s
  | .l0pNarrow => Sys2Proof.Machine.execL0pNarrow s
  | .l0pWiden => Sys2Proof.Machine.execL0pWiden s
  | .cacheWritebackAndInvalidate => Sys2Proof.Machine.execCacheWritebackAndInvalidate s
  | .powerStateWrite d3hot => Sys2Proof.Machine.execPowerStateWrite d3hot s
  | .completionTimeoutWrite reg => Sys2Proof.Machine.execCompletionTimeoutWrite reg s
  | .doeRequest vendor type index => Sys2Proof.Machine.execDoeRequest vendor type index s
  | .commit v => Sys2Proof.Machine.execCommit v s
  | .uncommit v => Sys2Proof.Machine.execUncommit v s
  | .freeze v => Sys2Proof.Machine.execFreeze v s
  | .release v rival => Sys2Proof.Machine.execRelease v rival s
  | .msixUnmask vector v => Sys2Proof.Machine.execMsixUnmask vector v s
  | .functionLevelReset => Sys2Proof.Machine.execFunctionLevelReset s
  | .xlEnable port v => Sys2Proof.Machine.execXlEnable port v s
  | .xlStageComplete port lanes => Sys2Proof.Machine.execXlStageComplete port lanes s
  | .xlStageTimeout port lanes => Sys2Proof.Machine.execXlStageTimeout port lanes s
  | .xlRestart port => Sys2Proof.Machine.execXlRestart port s
  | .retrain port v => Sys2Proof.Machine.execRetrain port v s
  | .probe port v => Sys2Proof.Machine.execProbe port v s
  | .xlWinReset port v => Sys2Proof.Machine.execXlWinReset port v s
  | .xlSlotArm port v => Sys2Proof.Machine.execXlSlotArm port v s
  | .fecLockLoss port => Sys2Proof.Machine.execFecLockLoss port s
  | .credit port word => Sys2Proof.Machine.execCredit port word s
  | .ack port word => Sys2Proof.Machine.execAck port word s
  | .nak port word => Sys2Proof.Machine.execNak port word s
  | .fare port word => Sys2Proof.Machine.execFare port word s
  | .probeWord port word hold64 => Sys2Proof.Machine.execProbeWord port word hold64 s
  | .echo port word at64 => Sys2Proof.Machine.execEcho port word at64 s
  | .abort port word => Sys2Proof.Machine.execAbort port word s
  | .ident0 port word => Sys2Proof.Machine.execIdent0 port word s
  | .ident1 port word => Sys2Proof.Machine.execIdent1 port word s
  | .replay port word => Sys2Proof.Machine.execReplay port word s
  | .down port word => Sys2Proof.Machine.execDown port word s
  | .reservedWord port word => Sys2Proof.Machine.execReservedWord port word s
  | .bundleReceived port bundle => Sys2Proof.Machine.execBundleReceived port bundle s
  | .bundleClose port dst svc => Sys2Proof.Machine.execBundleClose port dst svc s
  | .slotOpen port idx => Sys2Proof.Machine.execSlotOpen port idx s
  | .slotClose port idx => Sys2Proof.Machine.execSlotClose port idx s
  | .bundleTransmit port => Sys2Proof.Machine.execBundleTransmit port s
  | .pwTargetEval cl => Sys2Proof.Machine.execPwTargetEval cl s
  | .voltageStepDone cl => Sys2Proof.Machine.execVoltageStepDone cl s
  | .frequencyStep cl => Sys2Proof.Machine.execFrequencyStep cl s
  | .powerSample watts vin10mV => Sys2Proof.Machine.execPowerSample watts vin10mV s
  | .pwrSense wire => Sys2Proof.Machine.execPwrSense wire s
  | .tjLimit cl celsius => Sys2Proof.Machine.execTjLimit cl celsius s
  | .thermTrip => Sys2Proof.Machine.execThermTrip s
  | .droop cl => Sys2Proof.Machine.execDroop cl s
  | .stretchRelax cl recovered => Sys2Proof.Machine.execStretchRelax cl recovered s
  | .vrFault cl => Sys2Proof.Machine.execVrFault cl s
  | .eqUpdate link lane ctle tap margin busy => Sys2Proof.Machine.execEqUpdate link lane ctle tap margin busy s
  | .eqStarved port => Sys2Proof.Machine.execEqStarved port s
  | .scrubWindow => Sys2Proof.Machine.execScrubWindow s
  | .alPwrLimWrite v => Sys2Proof.Machine.execAlPwrLimWrite v s
  | .alDroopMvWrite guard v => Sys2Proof.Machine.execAlDroopMvWrite guard v s
  | .alScrubPassMinWrite v => Sys2Proof.Machine.execAlScrubPassMinWrite v s
  | .plWindowEnd heat channelHeat => Sys2Proof.Machine.execPlWindowEnd heat channelHeat s
  | .plChunkStart => Sys2Proof.Machine.execPlChunkStart s
  | .plChunkDone => Sys2Proof.Machine.execPlChunkDone s
  | .plCommit => Sys2Proof.Machine.execPlCommit s
  | .plMove v => Sys2Proof.Machine.execPlMove v s
  | .plEnable v => Sys2Proof.Machine.execPlEnable v s
  | .faultMessage n flip released => Sys2Proof.Machine.execFaultMessage n flip released s
  | .safeStatePortFence port => Sys2Proof.Machine.execSafeStatePortFence port s
  | .safe v => Sys2Proof.Machine.execSafe v s
  | .pop v => Sys2Proof.Machine.execPop v s
  | .empty v => Sys2Proof.Machine.execEmpty v s
  | .wdogKick v => Sys2Proof.Machine.execWdogKick v s
  | .wdog => Sys2Proof.Machine.execWdog s
  | .aliveRb level => Sys2Proof.Machine.execAliveRb level s
  | .selfPe => Sys2Proof.Machine.execSelfPe s
  | .faultInjection inj => Sys2Proof.Machine.execFaultInjection inj s
  | .logbookEntry => Sys2Proof.Machine.execLogbookEntry s
  | .lbSnap v => Sys2Proof.Machine.execLbSnap v s
  | .flashOperationComplete us ue => Sys2Proof.Machine.execFlashOperationComplete us ue s
  | .flashErr => Sys2Proof.Machine.execFlashErr s
  | .powerFailFollowup => Sys2Proof.Machine.execPowerFailFollowup s
  | .rdLoad v => Sys2Proof.Machine.execRdLoad v s
  | .note v => Sys2Proof.Machine.execNote v s
  | .challenge v jtag => Sys2Proof.Machine.execChallenge v jtag s
  | .submit v jtag => Sys2Proof.Machine.execSubmit v jtag s
  | .close v jtag => Sys2Proof.Machine.execClose v jtag s
  | .nonceExpiry => Sys2Proof.Machine.execNonceExpiry s
  | .extest => Sys2Proof.Machine.execExtest s
  | .idcode => Sys2Proof.Machine.execIdcode s
  | .samplePreload => Sys2Proof.Machine.execSamplePreload s
  | .gpReg off write => Sys2Proof.Machine.execGpReg off write s
  | .dbg off write => Sys2Proof.Machine.execDbg off write s
  | .bypass code => Sys2Proof.Machine.execBypass code s
  | .debugWindowAccess off write => Sys2Proof.Machine.execDebugWindowAccess off write s
  | .pwrFailNAssert => Sys2Proof.Machine.execPwrFailNAssert s
  | .pwrFailNRelease => Sys2Proof.Machine.execPwrFailNRelease s
  | .intPf => Sys2Proof.Machine.execIntPf s
  | .perstNAssert isOpen => Sys2Proof.Machine.execPerstNAssert isOpen s
  | .perstNStepsDone => Sys2Proof.Machine.execPerstNStepsDone s
  | .perstNRelease => Sys2Proof.Machine.execPerstNRelease s
  | .trstN level => Sys2Proof.Machine.execTrstN level s
  | .supervisedInputOpen pin => Sys2Proof.Machine.execSupervisedInputOpen pin s
  | .leakMeasurement ohms100 => Sys2Proof.Machine.execLeakMeasurement ohms100 s
  | .thermistorReading idx ohms celsius => Sys2Proof.Machine.execThermistorReading idx ohms celsius s
  | .tideInputFault dat cond => Sys2Proof.Machine.execTideInputFault dat cond s
  | .readback out atLimit => Sys2Proof.Machine.execReadback out atLimit s
  | .mgtBusWrite target off v => Sys2Proof.Machine.execMgtBusWrite target off v s
  | .stuck => Sys2Proof.Machine.execStuck s
  | .inputUndervoltage => Sys2Proof.Machine.execInputUndervoltage s
  | .inputOvervoltage => Sys2Proof.Machine.execInputOvervoltage s
  | .standbyLoss astray => Sys2Proof.Machine.execStandbyLoss astray s
  | .standbyPowerUp straps => Sys2Proof.Machine.execStandbyPowerUp straps s
  | .coldReset => Sys2Proof.Machine.execColdReset s
  | .bootStageComplete info => Sys2Proof.Machine.execBootStageComplete info s
  | .stageTimeout => Sys2Proof.Machine.execStageTimeout s
  | .bistGroupStart g => Sys2Proof.Machine.execBistGroupStart g s
  | .bistGroupComplete g misr isMatch => Sys2Proof.Machine.execBistGroupComplete g misr isMatch s
  | .bistLocalisationDone failing => Sys2Proof.Machine.execBistLocalisationDone failing s
  | .hbmTrainingDone stack ok => Sys2Proof.Machine.execHbmTrainingDone stack ok s
  | .memoryInitDone => Sys2Proof.Machine.execMemoryInitDone s
  | .refOk => Sys2Proof.Machine.execRefOk s
  | .sendComplete core upset => Sys2Proof.Machine.execSendComplete core upset s
  | .mainConversionStart => Sys2Proof.Machine.execMainConversionStart s
  | .inputReversed => Sys2Proof.Machine.execInputReversed s
  | .osfpModulePresent port present => Sys2Proof.Machine.execOsfpModulePresent port present s
  | .partnerL0pRequest x8 => Sys2Proof.Machine.execPartnerL0pRequest x8 s
  | .intPfRelease => Sys2Proof.Machine.execIntPfRelease s
  | .replayEpisodeEnd link => Sys2Proof.Machine.execReplayEpisodeEnd link s
  | .flrComplete => Sys2Proof.Machine.execFlrComplete s
  | .hubFirmwareSubmission cl ctx desc ue => Sys2Proof.Machine.execHubFirmwareSubmission cl ctx desc ue s

end Sys2Proof.Machine
end

