-- ==== Sys2Proof/Machine/Step.lean ====
section
/-! DEFINITION. One step: the command at the front of the queue, or one tick of the tide when nothing is commanded. -/

namespace Sys2Proof.Machine

/-- On an empty queue one tick passes (assumption 1): the phase counts. Everything else that time brings is a command of its own. -/
def idle (s : State) : State := { s with tide := tickPhase s.tide }

/-- One step: the command at the front runs on the state with the queue's rest. -/
def step (s : State) : Host.Outcome State Fault Refusal :=
  match s.pending with
  | [] => .next (idle s)
  | c :: rest => exec c { s with pending := rest }

/-- The state with the command that a table word spells at the front of its queue; unchanged where the word spells none. -/
def State.withFetchWord (s : State) (nbits w : Nat) : State :=
  match decodeTableWord nbits w with
  | some c => { s with pending := c :: s.pending }
  | none => s

end Sys2Proof.Machine
end

