-- ==== Sys2Proof/Safety.lean ====
section
/-! DEFINITION. What every state keeps: sparse stores in their one canonical form, and queues within the bounds the manual gives them; and the parts of a state that a
command may be said to leave alone. -/

namespace Sys2Proof

open Sys2Proof.Machine

/-- A state as the machine keeps it: registers, staging registers, captured halves, device memory, poison markers and BAR4 in canonical form; at
most 512 fault records queued (12 R512), at most 256 entries offered to the logbook (13 R552), at most 2,048 entries in the freeze report (09
R392). -/
structure Inv (s : State) : Prop where
  regs : Sparse.wf regReset s.regs = true
  staged : Sparse.wf (fun _ => 0) s.staged = true
  captured : Sparse.wf (fun _ => 0) s.captured = true
  dm : Memory.wf s.dm = true
  poison : Sparse.wf (fun _ => false) s.poison = true
  bar4 : Memory.wf s.bar4 = true
  queue : s.fc.queue.length ≤ 512
  inq : s.lb.inq.length ≤ 256
  report : s.frz.report.length ≤ 2048

/-- The kinds of register page (03 R79). -/
inductive PageClass where
  | dev | fc | lb | gp | td | al | bt | xb | vt | lw | ep | fm | ml | sd | pl | dc | cl | mc | xl | gc
  deriving DecidableEq, Repr

/-- The kind of a page. -/
def classOf : Page → PageClass
  | .dev => .dev
  | .fc => .fc
  | .lb => .lb
  | .gp => .gp
  | .td => .td
  | .al => .al
  | .bt => .bt
  | .xb => .xb
  | .vt => .vt
  | .lw => .lw
  | .ep => .ep
  | .fm => .fm
  | .ml => .ml
  | .sd => .sd
  | .pl => .pl
  | .dc _ => .dc
  | .cl _ => .cl
  | .mc _ => .mc
  | .xl _ => .xl
  | .gc _ => .gc

/-- The parts of a state: the registers of each kind of page, those of the timetable windows, and the units. What reports touch is no part: what has
been sent outside, the counter of free values, the level of INTA, MSI-X messages that wait, messages on their way to the collector, entries
offered to the logbook. -/
inductive Part where
  | page (c : PageClass)
  | tt | pending | staged | captured | tide | cores | mesh | fares | locks | sd | clusters | mailboxes | bar4 | xb | ctxs | drains
  | dm | slices | lw | cxl | frz | ports | eqs | scrubs | pl | fc | lb | gp | mod | boot
  deriving DecidableEq, Repr

/-- A part is the same in two states. Among the registers of pages the pending bits of MSI-X (09 R378) and LB_LOST (13 R552) belong to reports. -/
def Part.same (q : Part) (s t : State) : Prop :=
  match q with
  | .page c => ∀ p o, classOf p = c → o < 0x1000 → ¬(p = .ep ∧ o = 0xA00) → ¬(p = .lb ∧ o = 0x11C) → preg t p o = preg s p o
  | .tt => ∀ id o, o < 0x10000 → t.reg (ttBase id + o) = s.reg (ttBase id + o)
  | .pending => t.pending = s.pending
  | .staged => t.staged = s.staged
  | .captured => t.captured = s.captured
  | .tide => t.tide = s.tide
  | .cores => t.cores = s.cores
  | .mesh => t.mesh = s.mesh
  | .fares => t.fares = s.fares
  | .locks => t.locks = s.locks
  | .sd => t.sdChanged = s.sdChanged ∧ t.sdArmed = s.sdArmed
  | .clusters => t.clusters = s.clusters
  | .mailboxes => t.mailboxes = s.mailboxes
  | .bar4 => t.bar4 = s.bar4
  | .xb => t.xb = s.xb
  | .ctxs => t.ctxs = s.ctxs
  | .drains => t.drains = s.drains
  | .dm => t.dm = s.dm ∧ t.poison = s.poison
  | .slices => t.slices = s.slices
  | .lw => t.lw = s.lw
  | .cxl => { t.cxl with inta := false, msixQ := [] } = { s.cxl with inta := false, msixQ := [] }
  | .frz => t.frz = s.frz
  | .ports => t.ports = s.ports
  | .eqs => t.eqs = s.eqs
  | .scrubs => t.scrubs = s.scrubs
  | .pl => t.pl = s.pl
  | .fc => { t.fc with coming := [] } = { s.fc with coming := [] }
  | .lb => { t.lb with inq := [], lost := 0 } = { s.lb with inq := [], lost := 0 }
  | .gp => t.gp = s.gp
  | .mod => t.mod = s.mod
  | .boot => t.boot = s.boot

/-- Every part but those listed is the same in `t` as in `s`. -/
def Keeps (but : List Part) (s t : State) : Prop := ∀ q, q ∉ but → q.same s t

/-- Command `c` completes in state `s`: `exec` answers a next state, every part but those listed is the same in it, and `E` holds of it. -/
def Runs (c : Instr) (s : State) (but : List Part) (E : State → Prop) : Prop :=
  ∃ t, exec c s = .next t ∧ Keeps but s t ∧ E t

/-- What settling may change (06 R238, R247, R257, R263; 08 R341 to R344): everything that may have waited for a transaction. -/
abbrev settleParts : List Part :=
  [.page .lw, .page .ep, .page .ml, .page .sd, .page .dc, .page .cl, .page .mc, .cores, .locks, .sd, .clusters, .mailboxes, .dm, .slices, .lw, .cxl, .frz,
   .scrubs]

/-- Command `c` completes in state `s`: its own effect leaves every part but those listed as it was, and `E` holds after it; then everything that
waited for it goes on, as far as it may (`settle`). -/
def Settles (c : Instr) (s : State) (but : List Part) (E : State → Prop) : Prop :=
  ∃ t, exec c s = .next (settle t) ∧ Keeps but s t ∧ E t

/-- A page takes writes: it is not locked by REG_LOCK (03 R94). -/
abbrev Unlocked (s : State) (p : Page) : Prop := bit (preg s p 0x44) 0 = false

/-- A word that writes 1 to bit `b`, a GO bit of register `o` that reads 0, of a page that is not locked: the action starts (03 R86). -/
abbrev Starts (s : State) (p : Page) (o b : Nat) (v : W32) : Prop :=
  Unlocked s p ∧ bit (preg s p o) b = false ∧ bit v b = true

/-- A core after a bundle that falls through: the next address, the fetch queue `q`, GC_PC, and CYCLES one cycle and the free wait before
the bundle more (05 R169, R173; free value `k`, assumption 8). -/
abbrev advanced (k : Nat) (c : Core) (q : List (BitVec 128)) : Core :=
  { c with pc := c.pc + 16, fetchQ := q, lastPc := c.pc, cycles := c.cycles + (Config.freeTime k).setWidth 64 + 1 }

/-- A core may issue, has no SYNC to wait for, and finds bundle `b` at its issue point with `q` behind it in its fetch queue (05 R171, R185, R186). -/
abbrev Issues (s : State) (id : Fin 256) (b : BitVec 128) (q : List (BitVec 128)) : Prop :=
  canIssue s id = true ∧ Wait.sync ∉ (s.core id).waits ∧ (s.core id).topped = b :: q

/-- The 128 bytes of a mailbox slot once its sequence word is written (06 R245). -/
def slotAfter (s : State) (mb : Fin 16) (slot : Fin 512) (seqWord : BitVec 64) : BitVec 1024 :=
  slotBits { s with bar4 := writeBytes s.bar4 (slotBase mb slot + 120) (natBytes 8 seqWord.toNat) } mb slot

/-- The state in which a command of a new sequence number runs: its word written, the command counted, its number accepted (06 R245, R252). -/
def takenAt (s : State) (mb : Fin 16) (slot : Fin 512) (seqWord : BitVec 64) : State :=
  (cntPreg { s with bar4 := writeBytes s.bar4 (slotBase mb slot + 120) (natBytes 8 seqWord.toNat) } .fm (mbOff mb + 0x14) 1).setMailbox mb
    (accept (s.mailbox mb) (seqWord.setWidth 16) .fresh)

/-- A mailbox takes a slot that holds this OP: the mailbox is on, the number is new, no freeze is on, no reserved bit is set (06 R244, R252). -/
abbrev Takes (s : State) (mb : Fin 16) (slot : Fin 512) (seqWord : BitVec 64) (op : Nat) : Prop :=
  slotIs s mb slot op = true ∧ mbOn s mb = true ∧ classify (s.mailbox mb) (seqWord.setWidth 16) = .fresh ∧ s.frz.on = false ∧
    sReserved (slotAfter s mb slot seqWord) = false

/-- The newest number of a mailbox's window is this one, answered with this status (06 R252). -/
abbrev Answered (t : State) (mb : Fin 16) (seqWord : BitVec 64) (status : W16) : Prop :=
  (t.mailbox mb).results.head? = some (seqWord.setWidth 16, some status)

/-- A line of device memory that no cache and no host copy holds, of a slice that takes no lines, with nothing under way, in a stack that
serves it, without poison. -/
abbrev PlainLine (s : State) (l : Line) : Prop :=
  l.host = false ∧ slLine s l = none ∧ (s.slice (homeOf l)).enabled = false ∧ (s.slice (homeOf l)).binv = [] ∧ (s.slice (homeOf l)).misses = [] ∧
    (s.slice (homeOf l)).retries = [] ∧ grantOut s l = false ∧ chunkBlocks s (64 * l.num.toNat) = false ∧
    fenced s (.mc (stackOf s (64 * l.num.toNat))) = false ∧ granPoison s (2 * l.num.toNat) = false ∧ granPoison s (2 * l.num.toNat + 1) = false

/-- Home can serve a line of device memory at once (08 R323, R324): no transaction of it is in progress, no request answered RETRY is to come
again, no swap holds its chunk back, and a miss register is free. -/
abbrev HomeFree (s : State) (l : Line) : Prop :=
  l.host = false ∧ lineBusy s l = false ∧ (s.slice (homeOf l)).retries = [] ∧ chunkBlocks s (64 * l.num.toNat) = false ∧
    (s.slice (homeOf l)).misses.length < 64

end Sys2Proof
end

