-- ==== Sys2Proof/Certificates/Slice0/Obligations.lean ====
section
/-! DEFINITION. The statements for the provers. In each clause `Runs c s parts E` says that command `c` completes in state `s` with a next
state, that every part of the state but those listed is unchanged, and that `E` holds of the next state. `Settles c s parts E` says the same of the
state before what waited for the command goes on, and that the next state is that one settled. -/

open Sys2Proof Sys2Proof.Machine

/-- A step runs the command at the front of the queue on the state with the rest of it; on an empty queue one tick of the tide passes. The queue,
  and the tick on an empty queue, are the model's own (assumption 1). -/
def Obligations.StepTakesFront : Prop :=
  (∀ (s : State) (c : Instr) (rest : List Instr), s.pending = c :: rest → step s = exec c { s with pending := rest }) ∧
  (∀ s : State, s.pending = [] → step s = .next { s with tide := tickPhase s.tide })

/-- The device right after a cold reset: every core in RESET with its registers 0, every lock FREE, the tide disabled, caches empty and disabled
  with INVALIDATED set, device memory zero and without poison, no freeze, the link and the ports down, every cluster at 1.60 GHz, no fault
  record, the gangplank closed, boot stage 0 (15 R620, R621 and the chapters' own resets). What stands here the manual gives; the values that the
  model chose (assumption 3) are not stated. -/
def Obligations.ResetState : Prop :=
  (∀ id : Fin 256, (State.reset.core id).st = .reset ∧ (State.reset.core id).events = 0 ∧ (∀ r : Fin 32, (State.reset.core id).sreg.get r =
      0) ∧ (∀ r : Fin 16, (State.reset.core id).vreg.get r = 0) ∧ (∀ b : Fin 16, ((State.reset.core id).berths.get b).st = .empty)) ∧
  (∀ k : Fin 1024, (State.reset.lock k).st = .free) ∧
  State.reset.tide.mode = .disabled ∧
  (∀ n : Fin 16, (State.reset.cl n).cc.lines = [] ∧ (State.reset.cl n).cc.enabled = false ∧ (State.reset.cl n).cc.invalidated = true ∧
      (State.reset.slice n).lines = [] ∧ (State.reset.slice n).enabled = false ∧ (State.reset.slice n).invalidated = true ∧ (State.reset.pw
      n).code = 32) ∧
  State.reset.dm = [] ∧
  State.reset.poison = [] ∧
  State.reset.frz.on = false ∧
  State.reset.cxl.link = .down ∧
  (∀ n : Fin 8, (State.reset.port n).st = .down) ∧
  State.reset.fc.queue = [] ∧
  State.reset.fc.safe = false ∧
  State.reset.gp.level = 0 ∧
  State.reset.gp.fails = 0 ∧
  State.reset.boot.stage = 0 ∧
  State.reset.boot.kind = 0 ∧
  (∀ a, State.reset.reg a = regReset a)

/-- The invariant holds right after a cold reset. The canonical form of sparse stores is the model's own; the bounds are those of 12 R512, 13
  R552 and 09 R392. -/
def Obligations.InvReset : Prop :=
  Inv State.reset

/-- Every step keeps the invariant: registers, staged and captured halves, device memory, poison markers and BAR4 stay in canonical form; the
  record queue holds at most 512 records (12 R512), the logbook's input queue at most 256 entries (13 R552), the freeze report at most 2,048 (09
  R392). The canonical form is the model's own. -/
def Obligations.StepKeepsInv : Prop :=
  ∀ s t : State, Inv s → step s = .next t → Inv t

/-- Whatever command runs, a locked gangplank stays locked and FAILS does not change, unless the command is a cold reset or lets the main rails
  fall (13 R568; that the level and the count are lost when the rails fall, and not when they rise again, is assumption 46). -/
def Obligations.Lockout : Prop :=
  ∀ (c : Instr) (s t : State), exec c s = .next t → c ∉ [Instr.coldReset, Instr.inputUndervoltage, Instr.inputOvervoltage,
      Instr.inputReversed] → s.gp.locked = true → t.gp.locked = true ∧
  t.gp.fails = s.gp.fails

/-- The tide follows frames and misses. The readings of 02 are those of assumption 3 and 21 where the chapter leaves a choice. -/
def Obligations.TideFollows : Prop :=
  (∀ (s : State) (frame : BitVec 128) (at64 : BitVec 32), s.tide.mode = .locked → tdSrc s = 0 → fld frame 0 16 = 0x9AF3 → crc32Bits frame
    96 = BitVec.ofNat 32 (fld frame 96 32) → lenValid (frameInfo frame).len (frameInfo frame).grain4 = true → (frameInfo frame).step =
    s.tide.step → (wrapOff ((at64.toNat : Int) - tideDelay s) ((frameInfo frame).len * 64)).natAbs ≤ fld (preg s .td 0x140) 0 18 →
    Runs (.tideFrame frame at64) s [.page .td, .tide, .tt] fun t =>
      t.tide = { s.tide with
          hops := (frameInfo frame).hops, corr := wrapOff ((at64.toNat : Int) - tideDelay s) ((frameInfo frame).len * 64), seen := true,
          len := BitVec.ofNat 27 (frameInfo frame).len, grain4 := (frameInfo frame).grain4 } ∧
      preg t .td 0x148 = satAdd (preg s .td 0x148) 1) ∧
  (∀ (s : State) (frame : BitVec 128) (at64 : BitVec 32), s.tide.mode ≠ .disabled → tdSrc s ≠ 0 →
    Runs (.tideFrame frame at64) s [.page .td] fun t =>
      preg t .td 0x150 = BitVec.ofNat 32 ((frameInfo frame).step.toNat % 2 ^ 28 * 16) ∧
      preg t .td 0x10 = preg s .td 0x10 ||| one32 5) ∧
  (∀ (s : State) (port : Fin 8) (word : BitVec 128) (at64 : BitVec 32), s.tide.mode = .locked → (s.port port).st = .up → tdSrc s = port.val
    + 1 → lenValid (tideWordInfo word).len (tideWordInfo word).grain4 = true → (tideWordInfo word).step = s.tide.step → (wrapOff
    ((at64.toNat : Int) - (fld word 83 32 : Int) - tideDelay s) ((tideWordInfo word).len * 64)).natAbs ≤ fld (preg s .td 0x140) 0 18 →
    Runs (.xlTide port word at64) s [.page .td, .tide, .tt] fun t =>
      t.tide = { s.tide with
          hops := (tideWordInfo word).hops,
          corr := wrapOff ((at64.toNat : Int) - (fld word 83 32 : Int) - tideDelay s) ((tideWordInfo word).len * 64), seen := true,
          len := BitVec.ofNat 27 (tideWordInfo word).len, grain4 := (tideWordInfo word).grain4 } ∧
      preg t .td 0x148 = satAdd (preg s .td 0x148) 1) ∧
  (∀ (s : State), s.tide.mode = .locked → s.tide.seen = false → fld (preg s .td 0x138) 0 16 ≠ 0 →
    Runs (.tideMiss) s [.page .td, .tide, .tt, .boot] fun t =>
      t.tide = { s.tide with seen := true, mode := .holdover } ∧
      preg t .td 0x13C = 0 ∧
      preg t .td 0x14C = satAdd (preg s .td 0x14C) 1 ∧
      preg t .td 0x10 = preg s .td 0x10 ||| one32 1 ||| one32 2) ∧
  (∀ (s : State), s.tide.mode = .holdover → fld (preg s .td 0x138) 0 16 ≤ fld (preg s .td 0x13C) 0 16 → bit (preg s .td 0x100) 5 = true →
    Runs (.holdExpired) s [.tide, .boot] fun t =>
      t.tide = { s.tide with mode := .freerun }) ∧
  (∀ (s : State), s.tide.mode = .holdover → fld (preg s .td 0x138) 0 16 ≤ fld (preg s .td 0x13C) 0 16 → bit (preg s .td 0x100) 5 = false →
    Runs (.holdExpired) s [.page .td, .tide, .boot] fun t =>
      t.tide = { s.tide with mode := .halted, haltDue := true } ∧
      preg t .td 0x10 = preg s .td 0x10 ||| one32 3) ∧
  (∀ (s : State), s.tide.refOk = true →
    Runs (.refLoss) s [.page .td, .tide] fun t =>
      t.tide = { s.tide with refOk := false } ∧
      preg t .td 0x10 = preg s .td 0x10 ||| one32 7) ∧
  (∀ (s : State),
    Runs (.refOk) s [.tide] fun t =>
      t = { s with tide := { s.tide with refOk := true } }) ∧
  (∀ (s : State) (frame : BitVec 128) (at64 : BitVec 32), s.tide.mode = .hunt → s.tide.adopted = true → tdSrc s = 0 → fld frame 0 16 =
    0x9AF3 → crc32Bits frame 96 = BitVec.ofNat 32 (fld frame 96 32) → lenValid (frameInfo frame).len (frameInfo frame).grain4 = true →
    (frameInfo frame).step = s.tide.step → (wrapOff ((at64.toNat : Int) - tideDelay s) ((frameInfo frame).len * 64)).natAbs ≤ fld (preg s
    .td 0x140) 0 18 →
    Runs (.tideFrame frame at64) s [.page .td, .tide, .tt, .boot] fun t =>
      t.tide.mode = .locked ∧
      t.tide.begun = true ∧
      t.tide.corr = wrapOff ((at64.toNat : Int) - tideDelay s) ((frameInfo frame).len * 64) ∧
      t.tide.dispatching = s.tide.dispatching)

/-- Writes of the TD page that start, stop, hunt, resume and set lengths and windows. -/
def Obligations.TideControl : Prop :=
  (∀ (s : State) (v : W32), Unlocked s .td → enabled s .td = false → tdMaster s = false → bit v 0 = true →
    Runs (.tdEnable v) s [.page .td, .staged, .tide, .boot] fun t =>
      t.tide = { tideReset with refOk := s.tide.refOk, mode := .hunt } ∧
      enabled t .td = true) ∧
  (∀ (s : State) (v : W32), Unlocked s .td → enabled s .td = false → tdMaster s = true → lenOk (fld (preg s .td 0x124) 0 27) = true → bit v
    0 = true →
    Runs (.tdEnable v) s [.page .td, .staged, .tide, .boot] fun t =>
      t.tide = { tideReset with
          refOk := s.tide.refOk, mode := .master, len := BitVec.ofNat 27 (fld (preg s .td 0x124) 0 27),
          grain4 := decide (2 ^ 24 < fld (preg s .td 0x124) 0 27) }) ∧
  (∀ (s : State) (v : W32), Unlocked s .td → enabled s .td = true → bit v 0 = false →
    Runs (.tdEnable v) s [.page .td, .staged, .tide, .boot] fun t =>
      t.tide = { tideReset with refOk := s.tide.refOk, mode := .disabled }) ∧
  (∀ (s : State) (v : W32), Starts s .td 0x100 8 v → bit v 9 = false → s.tide.mode ≠ .disabled → s.tide.mode ≠ .master →
    Runs (.relock v) s [.page .td, .staged, .tide, .boot] fun t =>
      t.tide = { s.tide with haltDue := true, adopted := false, mode := .hunt } ∧
      bit (preg t .td 0x100) 8 = false) ∧
  (∀ (s : State) (v : W32), Starts s .td 0x100 8 v → bit v 9 = false → s.tide.mode = .master →
    Runs (.relock v) s [.page .td] fun t =>
      bit (preg t .td 0x100) 8 = false) ∧
  (∀ (s : State) (v : W32), Starts s .td 0x100 9 v → bit v 8 = false → haltPending s = true →
    Runs (.tdResume v) s [.page .td, .tide] fun t =>
      t.tide = { s.tide with resume := true } ∧
      bit (preg t .td 0x100) 9 = true) ∧
  (∀ (s : State) (v : W32), Starts s .td 0x100 9 v → bit v 8 = false → haltPending s = false →
    Runs (.tdResume v) s [.page .td] fun t =>
      bit (preg t .td 0x100) 9 = false) ∧
  (∀ (s : State) (v : W32), Unlocked s .td → lenOk (fld v 0 27) = true →
    Runs (.tdLenNextWrite .lenNext v) s [.page .td] fun t =>
      fld (preg t .td 0x124) 0 27 = fld v 0 27) ∧
  (∀ (s : State) (v : W32), Unlocked s .td → lenOk (fld v 0 27) = false →
    Runs (.tdLenNextWrite .lenNext v) s [.page .td] fun t =>
      preg t .td 0x124 = preg s .td 0x124 ∧
      preg t .td 0x10 = preg s .td 0x10 ||| one32 8) ∧
  (∀ (s : State) (v : W32), Unlocked s .td →
    Runs (.tdLenNextWrite .lenStepLo v) s [.staged] fun t =>
      sget (fun _ => 0) t.staged (pageBase .td + 0x128) = v) ∧
  (∀ (s : State) (v : W32), Unlocked s .td → s.tide.mode = .master → s.tide.adopted = true → (sget (fun _ => 0) s.staged (pageBase .td +
    0x128)).toNat + 2 ^ 32 * v.toNat ≤ s.tide.step.toNat →
    Runs (.tdLenNextWrite .lenStepHi v) s [.page .td, .tide] fun t =>
      t.tide = { s.tide with lenDue := true } ∧
      preg64 t .td 0x128 = (sget (fun _ => 0) s.staged (pageBase .td + 0x128)).toNat + 2 ^ 32 * v.toNat ∧
      preg t .td 0x10 = preg s .td 0x10 ||| one32 9) ∧
  (∀ (s : State) (v : W32), Unlocked s .td → 64 ≤ fld v 0 18 → (s.tide.len.toNat = 0 ∨ fld v 0 18 ≤ 64 * s.tide.len.toNat) →
    Runs (.tdWinWrite v) s [.page .td] fun t =>
      fld (preg t .td 0x140) 0 18 = fld v 0 18) ∧
  (∀ (s : State) (v : W32), Unlocked s .td → fld v 0 18 < 64 →
    Runs (.tdWinWrite v) s [.page .td] fun t =>
      preg t .td 0x140 = preg s .td 0x140 ∧
      preg t .td 0x10 = preg s .td 0x10 ||| one32 10)

/-- The boundary begins the next step: it comes when the phases of the step are over, moved by the whole ticks of the correction, and the
  fraction moves the tick edge (02 R40). That dispatching begins at the first boundary after the tide has locked is 02 R46. -/
def Obligations.StepBegins : Prop :=
  (∀ (s : State), boundaryDue s.tide = true → s.tide.mode = .locked → s.tide.missed = false → s.tide.begun = true →
    Runs (.stepBoundary) s [.page .td, .page .sd, .page .xl, .tt, .tide, .cores, .sd, .clusters, .ports, .pl, .fc, .lb, .boot] fun t =>
      t.tide.step = s.tide.step + 1 ∧
      t.tide.phase = 0 ∧
      t.tide.seen = false ∧
      t.tide.corr = s.tide.corrNext ∧
      t.tide.dispatching = true ∧
      t.tide.len = s.tide.len ∧
      t.tide.frac = BitVec.ofNat 6 (((s.tide.frac.toNat : Int) - s.tide.corr) % 64).toNat ∧
      t.tide.waited = 0) ∧
  (∀ (s : State), s.tide.mode = .master → s.tide.adopted = false →
    Runs (.stepBoundary) s [.page .td, .page .sd, .page .xl, .tt, .tide, .cores, .sd, .clusters, .ports, .pl, .fc, .lb, .boot] fun t =>
      t.tide.step = BitVec.ofNat 48 (preg64 s .td 0x130) ∧
      t.tide.phase = 0 ∧
      t.tide.adopted = true ∧
      t.tide.dispatching = true) ∧
  (∀ (s : State) (core : Fin 256), boundaryDue s.tide = true → s.tide.mode = .locked → s.tide.missed = false → s.tide.begun = true →
    Runs (.stepBoundary) s [.page .td, .page .sd, .page .xl, .tt, .tide, .cores, .sd, .clusters, .ports, .pl, .fc, .lb, .boot] fun t =>
      (t.core core).mark = 0 ∧
      (t.core core).tt.next = 0 ∧
      (t.core core).tt.sendQ = [] ∧
      (t.core core).ldm = (s.core core).ldm ∧
      (t.core core).sreg = (s.core core).sreg) ∧
  (∀ (s : State), boundaryDue s.tide = false →
    Runs (.stepBoundary) s [] fun t =>
      t = s)

/-- A dispatched timetable entry takes a place and does its action. -/
def Obligations.TimetableActions : Prop :=
  (∀ (s : State) (core : Fin 256) (idx : Fin 512) (p : Pick), nextEntry s core = some p → p.idx = idx.val → mayGo s core p = true → eAct
    p.e = 0x00 → p.carried = false →
    Runs (.ttNop core idx) s [.tt, .cores] fun t =>
      (t.core core).tt = { (s.core core).tt with
          next := BitVec.ofNat 10 (p.idx + 1), lastPhase := s.tide.phase,
          places := (if (s.core core).tt.lastPhase = s.tide.phase then (s.core core).tt.places + 1 else 1) } ∧
      (p.late = true → ttReg t core 0x8018 = satAdd (ttReg s core 0x8018) 1) ∧
      (fld p.e 36 2 = 2 → bit (ttReg t core (ttOff p.bank p.idx + 4)) 6 = false)) ∧
  (∀ (s : State) (core : Fin 256) (idx : Fin 512) (p : Pick), nextEntry s core = some p → p.idx = idx.val → mayGo s core p = true → eAct
    p.e = 0x01 → (s.core core).st = .run → (s.core core).waits = [] → p.carried = false →
    Runs (.ttEvent core idx) s [.page .sd, .tt, .cores, .sd] fun t =>
      (t.core core).events = (s.core core).events ||| BitVec.ofNat 32 (2 ^ (eArg p.e % 32)) ∧
      (t.core core).st = .run ∧
      (t.core core).tt.next = BitVec.ofNat 10 (p.idx + 1)) ∧
  (∀ (s : State) (core : Fin 256) (idx : Fin 512) (p : Pick), nextEntry s core = some p → p.idx = idx.val → mayGo s core p = true → eAct
    p.e = 0x02 → stopped s = false → (s.core core).st = .parked →
    Runs (.ttStart core idx) s [.page .sd, .tt, .cores, .sd] fun t =>
      (t.core core).st = .run ∧
      (t.core core).pc = BitVec.ofNat 16 (eArg p.e / 16 * 16) ∧
      (t.core core).fetchQ = [] ∧
      (t.core core).loaded = true) ∧
  (∀ (s : State) (core : Fin 256) (idx : Fin 512) (p : Pick), nextEntry s core = some p → p.idx = idx.val → mayGo s core p = true → eAct
    p.e = 0x02 → (s.core core).st = .run →
    Runs (.ttStart core idx) s [.page .sd, .tt, .cores, .sd] fun t =>
      (t.core core).st = .run ∧
      (t.core core).pc = (s.core core).pc ∧
      (t.core core).tt.ignored = (s.core core).tt.ignored + 1) ∧
  (∀ (s : State) (core : Fin 256) (idx : Fin 512) (upset : Upset) (payload : Upset) (p : Pick), nextEntry s core = some p → p.idx = idx.val
    → mayGo s core p = true → eAct p.e = 0x03 → upset ≠ .uncorrectable → (s.core core).st = .run → eArg p.e % 2 ^ 20 % 16 = 0 → eArg p.e %
    2 ^ 20 + 16 ≤ ldmSize → sendCheck s core (readDesc (s.core core) (eArg p.e % 2 ^ 20)) = 0 → canSend s core (readDesc (s.core core)
    (eArg p.e % 2 ^ 20)) = false →
    Runs (.ttSend core idx upset payload) s [.page .sd, .page .gc, .tt, .cores, .mesh, .locks, .sd, .ports] fun t =>
      (t.core core).tt.sendQ = (s.core core).tt.sendQ ++ [readDesc (s.core core) (eArg p.e % 2 ^ 20)]) ∧
  (∀ (s : State) (core : Fin 256) (idx : Fin 512) (upset : Upset) (payload : Upset) (p : Pick) (d : MsgDesc), nextEntry s core = some p →
    p.idx = idx.val → mayGo s core p = true → eAct p.e = 0x03 → upset ≠ .uncorrectable → payload ≠ .uncorrectable → (s.core core).st = .run
    → eArg p.e % 2 ^ 20 % 16 = 0 → eArg p.e % 2 ^ 20 + 16 ≤ ldmSize → d = readDesc (s.core core) (eArg p.e % 2 ^ 20) → sendCheck s core d =
    0 → canSend s core d = true → (s.core core).tt.sendQ = [] → (chanDest (chanCfg s core d.chan)).toNat / 256 = fleetId s →
    Runs (.ttSend core idx upset payload) s [.page .sd, .page .gc, .tt, .cores, .mesh, .locks, .sd, .ports] fun t =>
      ((t.core core).chan d.chan).fares = ((s.core core).chan d.chan).fares - 1 ∧
      ((t.core core).chan d.chan).sent = ((s.core core).chan d.chan).sent + 1 ∧
      t.mesh.length = s.mesh.length + 1 ∧
      (t.mesh.getLast?.map fun m => (m.tag, m.len, m.data)) = some (d.tag, d.len, readBytes (s.core core).ldm d.src.toNat d.len.toNat)) ∧
  (∀ (s : State) (core : Fin 256) (idx : Fin 512) (p : Pick), nextEntry s core = some p → p.idx = idx.val → mayGo s core p = true → eAct
    p.e = 0x05 → (s.core core).st = .run → BitVec.ofNat 16 (eArg p.e) &&& ~~~(fullBefore s core) ≠ 0 → (s.core core).waits = [] →
    Runs (.ttDeadlineBerth core idx) s [.page .sd, .tt, .cores, .sd] fun t =>
      ttReg t core 0x801C = satAdd (ttReg s core 0x801C) 1 ∧
      t.fc.coming = s.fc.coming ++ [mkMsg 0x14 core.val Config.deadlineSource.toNat 1 0 0 0 false] ∧
      (t.core core).events = (s.core core).events ||| BitVec.ofNat 32 (2 ^ (eArg p.e / 2 ^ 16 % 32))) ∧
  (∀ (s : State) (core : Fin 256) (idx : Fin 512) (p : Pick), nextEntry s core = some p → p.idx = idx.val → mayGo s core p = true → eAct
    p.e = 0x06 → (s.core core).st = .run → (markAsOf s core).toNat < eArg p.e % 2 ^ 16 → (s.core core).waits = [] →
    Runs (.ttDeadlineMark core idx) s [.page .sd, .tt, .cores, .sd] fun t =>
      ttReg t core 0x801C = satAdd (ttReg s core 0x801C) 1 ∧
      t.fc.coming = s.fc.coming ++ [mkMsg 0x14 core.val Config.deadlineSource.toNat 1 0 0 0 false] ∧
      (t.core core).events = (s.core core).events ||| BitVec.ofNat 32 (2 ^ (eArg p.e / 2 ^ 16 % 32))) ∧
  (∀ (s : State) (core : Fin 256) (idx : Fin 512) (p : Pick), nextEntry s core = some p → p.idx = idx.val → mayGo s core p = true → eAct
    p.e = 0x06 → (s.core core).st = .run → eArg p.e % 2 ^ 16 ≤ (markAsOf s core).toNat →
    Runs (.ttDeadlineMark core idx) s [.page .sd, .tt, .cores, .sd] fun t =>
      ttReg t core 0x801C = ttReg s core 0x801C ∧
      (t.core core).events = (s.core core).events) ∧
  (∀ (s : State) (core : Fin 256) (idx : Fin 512) (p : Pick), nextEntry s core = some p → p.idx = idx.val → mayGo s core p = true → eAct
    p.e = 0x08 → (s.core core).st = .run →
    Runs (.ttLoad core idx) s [.page .cl, .tt, .cores] fun t =>
      (t.core core).tt.hint = BitVec.ofNat 4 (fld p.e 32 4)) ∧
  (∀ (s : State) (core : Fin 256) (idx : Fin 512) (p : Pick), nextEntry s core = some p → p.idx = idx.val → mayGo s core p = true → eAct
    p.e = 0x09 → (s.core core).st = .run →
    Runs (.ttQuietOn core idx) s [.tt, .cores] fun t =>
      (t.core core).tt.quiet = true) ∧
  (∀ (s : State) (core : Fin 256) (idx : Fin 512) (p : Pick), nextEntry s core = some p → p.idx = idx.val → mayGo s core p = true → eAct
    p.e = 0x0A → (s.core core).st = .run →
    Runs (.ttQuietOff core idx) s [.tt, .cores] fun t =>
      (t.core core).tt.quiet = false) ∧
  (∀ (s : State) (core : Fin 256) (idx : Fin 512) (p : Pick), nextEntry s core = some p → p.idx = idx.val → mayGo s core p = true → eAct
    p.e = 0x0B → (s.core core).st = .run →
    Runs (.ttTrap core idx) s [.page .sd, .page .gc, .tt, .cores, .locks, .sd] fun t =>
      (t.core core).st = .halt ∧
      (t.core core).exc = BitVec.ofNat 8 (0x80 + eArg p.e % 128) ∧
      (t.core core).excPc = (s.core core).lastPc ∧
      (t.core core).waits = []) ∧
  (∀ (s : State) (core : Fin 256) (idx : Fin 512) (p : Pick), nextEntry s core = some p → p.idx = idx.val → actKnown (eAct p.e) = false →
    Runs (.ttBadact core idx) s [.tt, .cores] fun t =>
      ttReg t core 0x8014 = ttReg s core 0x8014 ||| 8 ∧
      (t.core core).tt.places = (s.core core).tt.places) ∧
  (∀ (s : State) (core : Fin 256) (idx : Fin 512) (upset : Upset) (payload : Upset) (p : Pick), nextEntry s core = some p → p.idx = idx.val
    → mayGo s core p = true → eAct p.e = 0x03 → upset = .uncorrectable → (s.core core).st = .run → eArg p.e % 2 ^ 20 % 16 = 0 → eArg p.e %
    2 ^ 20 + 16 ≤ ldmSize →
    Runs (.ttSend core idx upset payload) s [.page .sd, .page .gc, .tt, .cores, .locks, .sd] fun t =>
      (t.core core).st = .halt ∧
      (t.core core).exc = 0x04 ∧
      (t.core core).chans = (s.core core).chans ∧
      bit (preg t (.gc core) 0x10) 6 = true) ∧
  (∀ (s : State) (core : Fin 256) (idx : Fin 512) (p : Pick) (b : Fin 16), nextEntry s core = some p → p.idx = idx.val → mayGo s core p =
    true → eAct p.e = 0x05 → (s.core core).st = .run → (s.core core).waits = [] → bit (BitVec.ofNat 16 (eArg p.e)) b.val = true →
    s.tide.mode ≠ .disabled → ((s.core core).berths.get b).tick = some (s.tide.step, s.tide.phase) →
    Runs (.ttDeadlineBerth core idx) s [.page .sd, .tt, .cores, .sd] fun t =>
      ttReg t core 0x801C = satAdd (ttReg s core 0x801C) 1)

/-- MANIFEST entries, and the timetable window. The packing of ERR_ADDR is assumption 18, the order of the checks assumption 21. -/
def Obligations.TimetableManifests : Prop :=
  (∀ (s : State) (core : Fin 256) (idx : Fin 512) (ue : List (BitVec 23)) (p : Pick), nextEntry s core = some p → p.idx = idx.val → mayGo s
    core p = true → eAct p.e = 0x04 → (s.core core).st = .run → bit (preg s (.cl (clusterOf core)) 0x200) 0 = false →
    Runs (.ttManifest core idx .none ue) s [.page .cl, .page .gc, .tt, .cores] fun t =>
      preg t (.cl (clusterOf core)) 0x22C = satAdd (preg s (.cl (clusterOf core)) 0x22C) 1 ∧
      bit (preg t (.cl (clusterOf core)) 0x10) 17 = true) ∧
  (∀ (s : State) (core : Fin 256) (v : W32), bit v 2 = true → bit v 0 = ttEn s core →
    Runs (.ttArm core v) s [.tt, .cores] fun t =>
      t.core core = { s.core core with tt := { (s.core core).tt with armed := true } } ∧
      ttEn t core = ttEn s core) ∧
  (∀ (s : State) (core : Fin 256) (v : W32), bit v 0 = true → ttEn s core = false → bit v 2 = false →
    Runs (.ttEnable core v) s [.tt, .cores] fun t =>
      (t.core core).tt = { (s.core core).tt with hint := 0, quiet := false, running := false, next := 0, carried := [] } ∧
      ttEn t core = true) ∧
  (∀ (s : State) (core : Fin 256) (off : BitVec 16) (v : W32), off.toNat < 0x4000 → off.toNat % 4 = 0 → ttEn s core = true → (s.core
    core).tt.bank = decide (0x2000 ≤ off.toNat) →
    Runs (.ttBankWrite core off v) s [.tt, .staged, .cores] fun t =>
      ttReg t core 0x8014 = ttReg s core 0x8014 ||| 1 ∧
      ttReg t core off.toNat = ttReg s core off.toNat) ∧
  (∀ (s : State) (core : Fin 256) (off : BitVec 16) (v : W32), off.toNat < 0x4000 → off.toNat % 4 = 0 → (ttEn s core = false ∨ (s.core
    core).tt.bank = decide (off.toNat < 0x2000)) →
    Runs (.ttBankWrite core off v) s [.tt, .staged, .cores] fun t =>
      ttReg t core off.toNat = v)

/-- Register writes act by the access codes, pairs commit both halves, unmapped space is recorded. -/
def Obligations.RegisterWrites : Prop :=
  (∀ (s : State) (p : Page) (v : W32) (same : W32), servedPage s (pageBase p + 0x34) = some p → Unlocked s p →
    Runs (.registerWrite (.bar0 (BitVec.ofNat 26 (pageBase p + 0x34)) v true same)) s [.page (classOf p)] fun t =>
      preg t p 0x34 = v ∧
      preg t p 0x10 = preg s p 0x10) ∧
  (∀ (s : State) (p : Page) (v : W32) (same : W32), servedPage s (pageBase p + 0x10) = some p →
    Runs (.registerWrite (.bar0 (BitVec.ofNat 26 (pageBase p + 0x10)) v true same)) s [.page (classOf p)] fun t =>
      preg t p 0x10 = preg s p 0x10 &&& ~~~(v &&& ~~~same)) ∧
  (∀ (s : State) (p : Page) (v : W32) (same : W32), servedPage s (pageBase p + 0x10) = some p → Unlocked s p →
    Runs (.registerWrite (.bar0 (BitVec.ofNat 26 (pageBase p + 0x10)) v false same)) s [.page (classOf p)] fun t =>
      preg t p 0x10 = preg s p 0x10 ∧
      bit (preg t p 0x3C) 3 = true ∧
      bit (preg t p 0x3C) 1 = bit (preg s p 0x3C) 1) ∧
  (∀ (s : State) (p : Page) (v : W32) (same : W32), servedPage s (pageBase p + 0x34) = some p → bit (preg s p 0x44) 0 = true →
    Runs (.registerWrite (.bar0 (BitVec.ofNat 26 (pageBase p + 0x34)) v false same)) s [.page (classOf p)] fun t =>
      preg t p 0x34 = preg s p 0x34 ∧
      bit (preg t p 0x3C) 1 = true ∧
      bit (preg t p 0x3C) 3 = bit (preg s p 0x3C) 3) ∧
  (∀ (s : State) (p : Page) (v : W32) (same : W32), servedPage s (pageBase p + 0x34) = some p → bit (preg s p 0x44) 0 = true →
    Runs (.registerWrite (.bar0 (BitVec.ofNat 26 (pageBase p + 0x34)) v true same)) s [.page (classOf p)] fun t =>
      preg t p 0x34 = preg s p 0x34 ∧
      bit (preg t p 0x3C) 1 = true) ∧
  (∀ (s : State) (p : Page) (v : W32) (same : W32), servedPage s (pageBase p + 0x48) = some p → Unlocked s p →
    Runs (.registerWrite (.bar0 (BitVec.ofNat 26 (pageBase p + 0x48)) v true same)) s [.page (classOf p)] fun t =>
      bit (preg t p 0x3C) 2 = true ∧
      preg t p 0x30 = preg s p 0x30 ||| one32 1) ∧
  (∀ (s : State) (v : W32), s.cxl.link ≠ .down → s.cxl.flr = false →
    Runs (.registerWrite (.config .busMaster v)) s [.cxl] fun t =>
      t.cxl.busMaster = bit v 0 ∧
      t.cxl.memSpace = s.cxl.memSpace) ∧
  (∀ (s : State) (off : BitVec 20) (bytes : List Byte), off.toNat % 128 + bytes.length ≤ 120 →
    Runs (.registerWrite (.bar4 off bytes)) s [.bar4] fun t =>
      readBytes t.bar4 off.toNat bytes.length = bytes ∧
      (∀ a, a < off.toNat ∨ off.toNat + bytes.length ≤ a → sget (fun _ => 0) t.bar4 a = sget (fun _ => 0) s.bar4 a)) ∧
  (∀ (s : State) (off : BitVec 26), unmapped s off.toNat = true →
    Runs (.unmappedAccess off true) s [.page .dev] fun t =>
      preg t .dev 0x11C = BitVec.ofNat 32 (off.toNat / 4 * 4 + 2) ∧
      preg t .dev 0x120 = satAdd (preg s .dev 0x120) 1 ∧
      t.out = s.out) ∧
  (∀ (s : State) (off : BitVec 26), unmapped s off.toNat = true →
    Runs (.unmappedAccess off false) s [.page .dev] fun t =>
      preg t .dev 0x11C = BitVec.ofNat 32 (off.toNat / 4 * 4) ∧
      preg t .dev 0x120 = satAdd (preg s .dev 0x120) 1 ∧
      t.out = s.out ++ [.readData 0]) ∧
  (∀ (s : State) (off : BitVec 26) (enables : BitVec 4), isLoPair s off.toNat = true → off.toNat ≠ pageBase .td + 0x110 →
    Runs (.pairLoRead off enables) s [.captured] fun t =>
      sget (fun _ => 0) t.captured (off.toNat + 4) = liveHi s off.toNat ∧
      t.out = s.out ++ [.readData (maskBytes (bar0Read s off.toNat) enables)]) ∧
  (∀ (s : State) (enables : BitVec 4), isLoPair s (pageBase .td + 0x110) = true →
    Runs (.pairLoRead (BitVec.ofNat 26 (pageBase .td + 0x110)) enables) s [.captured, .page .td] fun t =>
      preg t .td 0x11C = s.tide.phase.setWidth 32 ∧
      sget (fun _ => 0) t.captured (pageBase .td + 0x114) = liveReg s .td 0x114) ∧
  (∀ (s : State) (v : W32), servedPage s (pageBase .ml + 0x114) = some .ml → Unlocked s .ml → enabled s .ml = false →
    Runs (.pairHiWrite (BitVec.ofNat 26 (pageBase .ml + 0x114)) v) s [.page .ml] fun t =>
      preg t .ml 0x114 = v ∧
      preg t .ml 0x110 = sget (fun _ => 0) s.staged (pageBase .ml + 0x110)) ∧
  (∀ (s : State) (v : W32), servedPage s (pageBase .ml + 0x114) = some .ml → Unlocked s .ml → enabled s .ml = true → preg s .ml 0x114 ≠ v →
    Runs (.pairHiWrite (BitVec.ofNat 26 (pageBase .ml + 0x114)) v) s [.page .ml] fun t =>
      preg t .ml 0x114 = preg s .ml 0x114 ∧
      bit (preg t .ml 0x3C) 0 = true)

/-- A soft reset of a block that has no cache ends with its page cleared and disabled. -/
def Obligations.SoftReset : Prop :=
  (∀ (s : State) (page : Page), Unlocked s page → bit (preg s page 8) 2 = false → pageCache page = none → classOf page ∉ [.dev, .fc, .gp,
    .lw, .ep, .ml, .sd, .mc] →
    Runs (.softReset page) s [.page (classOf page), .page .sd, .page .ml, .page .lw, .page .ep, .page .dc, .page .cl, .page .mc, .page .gc, .page .fm, .page .pl, .page .fc, .page .xl, .page .td, .page .lb, .page .vt, .page .al, .tt, .staged, .captured, .tide, .cores, .mesh, .fares, .locks, .sd, .clusters, .mailboxes, .xb, .ctxs, .drains, .dm, .slices, .lw, .cxl, .frz, .ports, .eqs, .scrubs, .pl, .fc, .lb, .boot, .mod] fun t =>
      enabled t page = false ∧
      bit (preg t page 8) 2 = false ∧
      preg t page 0x10 = 0 ∧
      preg t page 0x20 = 0 ∧
      preg t page 0x24 = 0 ∧
      preg t page 0x3C = 0 ∧
      preg t page 0x30 = one32 2 ∧
      bit (preg t page 0x40) 0 = true) ∧
  (∀ (s : State), Unlocked s .sd → bit (preg s .sd 8) 2 = false →
    Runs (.softReset .sd) s [.page .sd, .staged, .captured, .boot, .page .lw, .page .ep, .page .ml, .page .dc, .page .cl, .page .mc, .cores, .locks, .sd, .clusters, .mailboxes, .dm, .slices, .lw, .cxl, .frz, .scrubs] fun t =>
      preg t .sd 0x110 = 0xFFFF ∧
      preg64 t .sd 0x100 = 0 ∧
      t.sdArmed = 0) ∧
  (∀ (s : State) (n : Fin 16), Unlocked s (.dc n) → bit (preg s (.dc n) 8) 2 = false → (s.slice n).clearing = none →
    Runs (.softReset (.dc n)) s [.page (.dc), .page .sd, .page .ml, .page .lw, .page .ep, .page .dc, .page .cl, .page .mc, .page .gc, .page .fm, .page .pl, .page .fc, .page .xl, .page .td, .page .lb, .page .vt, .page .al, .tt, .staged, .captured, .tide, .cores, .mesh, .fares, .locks, .sd, .clusters, .mailboxes, .xb, .ctxs, .drains, .dm, .slices, .lw, .cxl, .frz, .ports, .eqs, .scrubs, .pl, .fc, .lb, .boot, .mod] fun t =>
      (t.slice n).clearing = some true ∧
      bit (preg t (.dc n) 8) 2 = true) ∧
  (∀ (s : State) (page : Page), Unlocked s page → bit (preg s page 8) 2 = false → pageCache page = none →
    Runs (.softReset page) s [.page (classOf page), .page .sd, .page .ml, .page .lw, .page .ep, .page .dc, .page .cl, .page .mc, .page .gc, .page .fm, .page .pl, .page .fc, .page .xl, .page .td, .page .lb, .page .vt, .page .al, .tt, .staged, .captured, .tide, .cores, .mesh, .fares, .locks, .sd, .clusters, .mailboxes, .xb, .ctxs, .drains, .dm, .slices, .lw, .cxl, .frz, .ports, .eqs, .scrubs, .pl, .fc, .lb, .boot, .mod] fun t =>
      enabled t page = false ∧
      bit (preg t page 8) 2 = false)

/-- A soft reset of a locked page is discarded. -/
def Obligations.LockedSoftReset : Prop :=
  ∀ (s : State) (page : Page), bit (preg s page 0x44) 0 = true →
    Runs (.softReset page) s [.page (classOf page), .boot] fun t =>
      preg t page 8 = preg s page 8 ∧
      bit (preg t page 0x3C) 1 = true ∧
      (∀ o, o < 0x1000 → o ≠ 0x30 → o ≠ 0x3C → ¬(page = .ep ∧ o = 0xA00) → ¬(page = .lb ∧ o = 0x11C) → preg t page o = preg s page o)

/-- PAGE_LOCK locks a page; CTRL.FENCE fences a unit and releases it. -/
def Obligations.LocksAndFences : Prop :=
  (∀ (s : State) (page : Page) (v : W32), Unlocked s page →
    Runs (.pageLock page v) s [.page (classOf page)] fun t =>
      bit (preg t page 0x44) 0 = bit v 0) ∧
  (∀ (s : State) (page : Page) (v : W32), bit (preg s page 0x44) 0 = true →
    Runs (.pageLock page v) s [.page (classOf page)] fun t =>
      preg t page 0x44 = preg s page 0x44 ∧
      bit (preg t page 0x3C) 1 = true) ∧
  (∀ (s : State) (n : Fin 16), Unlocked s (.dc n) → fenced s (.dc n) = false →
    Runs (.ctrlFenceWrite (.dc n) true) s [.page .dc, .boot] fun t =>
      fenced t (.dc n) = true ∧
      enabled t (.dc n) = enabled s (.dc n)) ∧
  (∀ (s : State) (n : Fin 16), Unlocked s (.dc n) → s.boot.stuck.contains (.dc n) = false →
    Runs (.ctrlFenceWrite (.dc n) false) s [.page .dc, .boot] fun t =>
      fenced t (.dc n) = false) ∧
  (∀ (s : State) (core : Fin 256), Unlocked s (.gc core) → fenced s (.gc core) = false → (s.core core).st ≠ .fenced →
    Runs (.ctrlFenceWrite (.gc core) true) s [.page .gc, .page .ml, .page .sd, .cores, .locks, .sd, .ports, .boot] fun t =>
      (t.core core).st = .fenced ∧
      (t.core core).waits = [] ∧
      (t.core core).ldm = (s.core core).ldm ∧
      enabled t (.gc core) = false ∧
      fenced t (.gc core) = true) ∧
  (∀ (s : State) (core : Fin 256), Unlocked s (.gc core) → fenced s (.gc core) = true → (s.core core).st = .fenced → enabled s (.gc core) =
    false → s.boot.stuck.contains (.gc core) = false →
    Runs (.ctrlFenceWrite (.gc core) false) s [.page .gc, .page .ml, .page .sd, .cores, .locks, .sd, .ports, .mesh, .frz, .boot] fun t =>
      (t.core core).st = .reset ∧
      (t.core core).epoch = (s.core core).epoch + 1 ∧
      (t.core core).ldm = (s.core core).ldm ∧
      fenced t (.gc core) = false) ∧
  (∀ (s : State) (core : Fin 256), Unlocked s (.gc core) → fenced s (.gc core) = true → (s.core core).st = .fenced → enabled s (.gc core) =
    true → s.boot.stuck.contains (.gc core) = false →
    Runs (.ctrlFenceWrite (.gc core) false) s [.page .gc, .page .ml, .page .sd, .cores, .locks, .sd, .ports, .mesh, .frz, .boot] fun t =>
      (t.core core).st = .parked ∧
      (t.core core).epoch = (s.core core).epoch + 1 ∧
      fenced t (.gc core) = false)

/-- Cores are enabled, started, parked and kicked. -/
def Obligations.CoreStates : Prop :=
  (∀ (s : State) (core : Fin 256) (v : W32), Unlocked s (.gc core) → bit v 0 = true → bit v 1 = false → fenced s (.gc core) = false → bit v
    2 = false → (s.core core).st = .reset →
    Runs (.gcEnable core v) s [.page .gc, .page .sd, .cores, .sd, .boot] fun t =>
      t.core core = { s.core core with st := .parked, part := BitVec.ofNat 4 (partOfCluster s (clusterOf core).val) } ∧
      enabled t (.gc core) = true) ∧
  (∀ (s : State) (core : Fin 256) (v : W32), Unlocked s (.gc core) → bit v 0 = false → bit v 1 = fenced s (.gc core) → bit v 2 = false →
    enabled s (.gc core) = true → (s.core core).st ≠ .fenced →
    Runs (.gcEnable core v) s [.page .gc, .page .ml, .page .sd, .cores, .locks, .sd, .ports, .mesh, .frz, .boot] fun t =>
      (t.core core).st = .reset ∧
      (t.core core).epoch = (s.core core).epoch + 1 ∧
      (t.core core).ldm = (s.core core).ldm ∧
      (t.core core).imem = (s.core core).imem ∧
      (t.core core).sreg = Vector.replicate 32 0 ∧
      (t.core core).part = 0 ∧
      (t.core core).events = 0 ∧
      (t.core core).mark = 0 ∧
      (t.core core).waits = [] ∧
      enabled t (.gc core) = false) ∧
  (∀ (s : State) (core : Fin 256) (v : W32), Starts s (.gc core) 0x110 16 v → bit v 17 = false → stopped s = false → (s.core core).st =
    .parked →
    Runs (.gcStart core v) s [.page .gc, .page .sd, .cores, .sd] fun t =>
      (t.core core).st = .run ∧
      (t.core core).pc = BitVec.ofNat 16 (fld v 4 12 * 16) ∧
      (t.core core).fetchQ = [] ∧
      (t.core core).loaded = true ∧
      (t.core core).tt.quiet = false ∧
      bit (preg t (.gc core) 0x110) 16 = false) ∧
  (∀ (s : State) (core : Fin 256) (v : W32), Starts s (.gc core) 0x110 16 v → bit v 17 = false → stopped s = false → (s.core core).st =
    .halt →
    Runs (.gcStart core v) s [.page .gc, .page .sd, .cores, .sd] fun t =>
      (t.core core).st = .run ∧
      (t.core core).pc = BitVec.ofNat 16 (fld v 4 12 * 16) ∧
      (t.core core).exc = 0) ∧
  (∀ (s : State) (core : Fin 256) (v : W32), Starts s (.gc core) 0x110 17 v → bit v 16 = false → ((s.core core).st = .run ∨ (s.core
    core).st = .halt) →
    Runs (.gcPark core v) s [.page .gc, .cores] fun t =>
      t.core core = { s.core core with parking := true } ∧
      bit (preg t (.gc core) 0x110) 17 = true) ∧
  (∀ (s : State) (core : Fin 256) (v : W32), Starts s (.gc core) 0x110 17 v → bit v 16 = false → (s.core core).st = .wait →
    Runs (.gcPark core v) s [.page .sd, .page .gc, .cores, .locks, .sd] fun t =>
      t.core core = { s.core core with st := .run, waits := [], cause := 0, target := 0, parking := true } ∧
      bit (preg t (.gc core) 0x110) 17 = true) ∧
  (∀ (s : State) (core : Fin 256) (v : W32), Starts s (.gc core) 0x110 17 v → bit v 16 = false → (s.core core).st = .parked →
    Runs (.gcPark core v) s [.page .gc] fun t =>
      bit (preg t (.gc core) 0x110) 17 = false ∧
      preg t (.gc core) 0x30 = preg s (.gc core) 0x30 ||| one32 2) ∧
  (∀ (s : State) (core : Fin 256), (s.core core).parkReady = true → clockStopped s core = false →
    Runs (.coreParked core) s [.page .sd, .page .gc, .cores, .sd] fun t =>
      t.core core = { s.core core with st := .parked, parking := false, waits := [], cause := 0, target := 0 } ∧
      bit (preg t (.gc core) 0x110) 17 = false) ∧
  (∀ (s : State) (core : Fin 256) (v : W32), Starts s (.gc core) 0x114 8 v → (s.core core).waits = [] →
    Runs (.gcKick core v) s [.page .sd, .page .gc, .staged, .cores, .sd] fun t =>
      t.core core = { s.core core with events := (s.core core).events ||| one32 (fld v 0 5) } ∧
      bit (preg t (.gc core) 0x114) 8 = false) ∧
  (∀ (s : State) (core : Fin 256) (v : W32) (rd : BitVec 5) (m : W32), Starts s (.gc core) 0x114 8 v → (s.core core).waits = [.event rd m]
    → (s.core core).st = .wait → stopped s = false → (s.core core).events &&& m = 0 → one32 (fld v 0 5) &&& m ≠ 0 → rd ≠ 0 →
    Runs (.gcKick core v) s [.page .sd, .page .gc, .staged, .cores, .sd] fun t =>
      (t.core core).st = .run ∧
      (t.core core).waits = [] ∧
      (t.core core).events = (s.core core).events ∧
      (t.core core).s rd = (one32 (fld v 0 5)).setWidth 64)

/-- GC_START.START of a core in RUN or WAIT is ignored. -/
def Obligations.StartIgnored : Prop :=
  (∀ (s : State) (core : Fin 256) (v : W32), Starts s (.gc core) 0x110 16 v → bit v 17 = false → ((s.core core).st = .run ∨ (s.core
    core).st = .wait) →
    Runs (.gcStart core v) s [.page .gc] fun t =>
      t.core core = s.core core ∧
      preg t (.gc core) 0x3C = preg s (.gc core) 0x3C ∧
      preg t (.gc core) 0x40 = preg s (.gc core) 0x40 ∧
      preg t (.gc core) 0x30 = preg s (.gc core) 0x30 ∧
      bit (preg t (.gc core) 0x110) 16 = false) ∧
  (∀ (s : State) (core : Fin 256) (v : W32), Unlocked s (.gc core) → bit (preg s (.gc core) 0x110) 16 = true → bit v 16 = true → bit v 17 =
    false → ((s.core core).st = .run ∨ (s.core core).st = .wait) →
    Runs (.gcStart core v) s [.page .gc] fun t =>
      t.core core = s.core core ∧
      bit (preg t (.gc core) 0x3C) 5 = true)

/-- Messages and fares arrive at cores. -/
def Obligations.MessagesAndFares : Prop :=
  (∀ (s : State) (i : Nat) (m : MeshMsg), s.mesh[i]? = some m → stopped s = false → ((s.mesh.take i).any fun x => decide (x.src = m.src) &&
    decide (x.chan = m.chan)) = false → (s.core m.dst).st ≠ .reset → (s.core m.dst).st ≠ .fenced → (m.filling = true ∨ ((s.core
    m.dst).berths.get m.berth).st = .empty) → (s.core m.dst).waits = [] → m.lateEvt = none →
    Runs (.messageDelivery i false true) s [.page .sd, .page .gc, .cores, .mesh, .sd] fun t =>
      t.mesh = dropAt s.mesh i ∧
      t.core m.dst = { s.core m.dst with
          berths := (s.core m.dst).berths.set m.berth (berthOf m .full false (tickNow s)),
          inbox := writeBytes (s.core m.dst).inbox (0x1000 * m.berth.val) m.data,
          events := (s.core m.dst).events ||| (if m.evtEn then one32 m.evt.toNat else 0) } ∧
      preg t (.gc m.dst) 0x24C = satAdd (preg s (.gc m.dst) 0x24C) 1) ∧
  (∀ (s : State) (i : Nat) (m : MeshMsg) (rd : BitVec 5) (k : W16), s.mesh[i]? = some m → stopped s = false → ((s.mesh.take i).any fun x =>
    decide (x.src = m.src) && decide (x.chan = m.chan)) = false → (s.core m.dst).st = .wait → (m.filling = true ∨ ((s.core
    m.dst).berths.get m.berth).st = .empty) → (s.core m.dst).waits = [.recv rd k] → bit k m.berth.val = true → (s.core m.dst).fullMask &&&
    k = 0 → rd ≠ 0 →
    Runs (.messageDelivery i false true) s [.page .sd, .page .gc, .cores, .mesh, .sd] fun t =>
      (t.core m.dst).st = .run ∧
      (t.core m.dst).waits = [] ∧
      (t.core m.dst).s rd = BitVec.ofNat 64 (m.berth.val + m.chan.toNat * 16 + m.src.toNat * 256 + m.len.toNat * 2 ^ 32)) ∧
  (∀ (s : State) (i : Nat) (m : MeshMsg) (first : Bool), s.mesh[i]? = some m → stopped s = false → m.filling = false → ((s.mesh.take i).any
    fun x => decide (x.src = m.src) && decide (x.chan = m.chan)) = false →
    Runs (.messageDelivery i first false) s [.page .gc, .mesh] fun t =>
      t.mesh = dropAt s.mesh i ∧
      t.core m.dst = s.core m.dst ∧
      preg t (.gc m.dst) 0x240 = satAdd (preg s (.gc m.dst) 0x240) 1 ∧
      bit (preg t (.gc m.dst) 0x10) 8 = true) ∧
  (∀ (s : State) (i : Nat) (m : FareMsg) (id : Fin 256), s.fares[i]? = some m → stopped s = false → id = fin 256 m.dst.toNat → m.epoch =
    (s.core id).epoch → chanValid (chanCfg s id m.chan) = true → (s.core id).waits = [] → (s.core id).tt.sendQ = [] →
    Runs (.fareReturn i) s [.cores, .fares] fun t =>
      t.fares = dropAt s.fares i ∧
      ((t.core id).chan m.chan).fares = BitVec.ofNat 5 (min (((s.core id).chan m.chan).fares.toNat + 1) 16) ∧
      (t.core id).ldm = (s.core id).ldm) ∧
  (∀ (s : State) (i : Nat) (m : FareMsg) (id : Fin 256), s.fares[i]? = some m → stopped s = false → id = fin 256 m.dst.toNat → (m.epoch ≠
    (s.core id).epoch ∨ chanValid (chanCfg s id m.chan) = false) →
    Runs (.fareReturn i) s [.page .gc, .fares] fun t =>
      t.fares = dropAt s.fares i ∧
      t.core id = s.core id ∧
      preg t (.gc id) 0x244 = satAdd (preg s (.gc id) 0x244) 1) ∧
  (∀ (s : State) (i : Nat) (m : MeshMsg), s.mesh[i]? = some m → stopped s = false → ((s.mesh.take i).any fun x => decide (x.src = m.src) &&
    decide (x.chan = m.chan)) = false → m.filling = false → (s.core m.dst).st ≠ .reset → (s.core m.dst).st ≠ .fenced → ((s.core
    m.dst).berths.get m.berth).st = .empty →
    Runs (.messageDelivery i true true) s [.page .sd, .cores, .mesh, .sd] fun t =>
      t.mesh = s.mesh.set i { m with filling := true } ∧
      t.core m.dst = { s.core m.dst with
          berths := (s.core m.dst).berths.set m.berth (berthOf m .filling false none),
          inbox := writeBytes (s.core m.dst).inbox (0x1000 * m.berth.val) (m.data.take 64) } ∧
      bit ((t.core m.dst).fillMask.setWidth 32) m.berth.val = true) ∧
  (∀ (s : State) (i : Nat) (m : MeshMsg) (first : Bool), s.mesh[i]? = some m → stopped s = false → ((s.mesh.take i).any fun x => decide
    (x.src = m.src) && decide (x.chan = m.chan)) = false → m.filling = true → ((s.core m.dst).berths.get m.berth).st = .filling →
    Runs (.messageDelivery i first false) s [.page .sd, .page .gc, .cores, .mesh, .sd] fun t =>
      t.mesh = dropAt s.mesh i ∧
      t.core m.dst = { s.core m.dst with berths := (s.core m.dst).berths.set m.berth berthReset } ∧
      preg t (.gc m.dst) 0x240 = satAdd (preg s (.gc m.dst) 0x240) 1 ∧
      bit (preg t (.gc m.dst) 0x10) 8 = true)

/-- A core in RESET or FENCED drops a message; a core in any other state accepts it. -/
def Obligations.MessageAccepted : Prop :=
  (∀ (s : State) (i : Nat) (m : MeshMsg) (first : Bool), s.mesh[i]? = some m → stopped s = false → m.filling = false → ((s.mesh.take i).any
    fun x => decide (x.src = m.src) && decide (x.chan = m.chan)) = false → ((s.core m.dst).st = .reset ∨ (s.core m.dst).st = .fenced) →
    Runs (.messageDelivery i first true) s [.page .gc, .mesh] fun t =>
      t.mesh = dropAt s.mesh i ∧
      t.core m.dst = s.core m.dst ∧
      preg t (.gc m.dst) 0x240 = satAdd (preg s (.gc m.dst) 0x240) 1 ∧
      t.fares = s.fares ∧
      t.ports = s.ports) ∧
  (∀ (s : State) (i : Nat) (m : MeshMsg), s.mesh[i]? = some m → stopped s = false → ((s.mesh.take i).any fun x => decide (x.src = m.src) &&
    decide (x.chan = m.chan)) = false → (s.core m.dst).st ≠ .reset → (s.core m.dst).st ≠ .fenced → (m.filling = true ∨ ((s.core
    m.dst).berths.get m.berth).st = .empty) →
    Runs (.messageDelivery i false true) s [.page .sd, .page .gc, .cores, .mesh, .sd] fun t =>
      t.mesh = dropAt s.mesh i ∧
      ((t.core m.dst).berths.get m.berth).st = .full ∧
      preg t (.gc m.dst) 0x240 = preg s (.gc m.dst) 0x240)

/-- A message that arrives at a berth that is not EMPTY is dropped. -/
def Obligations.BerthOverrun : Prop :=
  ∀ (s : State) (i : Nat) (m : MeshMsg) (first : Bool), s.mesh[i]? = some m → stopped s = false → m.filling = false → ((s.mesh.take i).any
    fun x => decide (x.src = m.src) && decide (x.chan = m.chan)) = false → (s.core m.dst).st ≠ .reset → (s.core m.dst).st ≠ .fenced →
    ((s.core m.dst).berths.get m.berth).st ≠ .empty →
    Runs (.messageDelivery i first true) s [.page .gc, .mesh] fun t =>
      t.mesh = dropAt s.mesh i ∧
      t.core m.dst = s.core m.dst ∧
      bit (preg t (.gc m.dst) 0x10) 1 = true ∧
      (bit (preg s (.gc m.dst) 0x20) 31 = false → preg64 t (.gc m.dst) 0x28 = m.src.toNat) ∧
      preg t (.gc m.dst) 0x240 = satAdd (preg s (.gc m.dst) 0x240) 1 ∧
      t.fares = s.fares ∧
      t.ports = s.ports

/-- Mooring locks repaired, a partition reset. -/
def Obligations.LocksAndPartitions : Prop :=
  (∀ (s : State) (v : W32) (n : Fin 1024), Starts s .ml 0x10C 0 v → bit v 1 = false → n.val = fld (preg s .ml 0x100) 0 10 → (s.lock
    n).queue = [] →
    Runs (.forceFree v) s [.page .ml, .locks] fun t =>
      t.lock n = { s.lock n with st := .free, owner := 0, epoch := (s.lock n).epoch + 1, unknown := false } ∧
      (∀ m, m ≠ n → t.lock m = s.lock m) ∧
      bit (preg t .ml 0x10C) 0 = false) ∧
  (∀ (s : State) (v : W32) (n : Fin 1024), Starts s .ml 0x10C 1 v → bit v 0 = false → n.val = fld (preg s .ml 0x100) 0 10 → (s.lock
    n).queue = [] → (s.lock n).st = .held →
    Runs (.forceBreak v) s [.page .ml, .locks] fun t =>
      t.lock n = { s.lock n with st := .broken, unknown := false } ∧
      bit (preg t .ml 0x10) 2 = true ∧
      preg t .ml 0x11C = satAdd (preg s .ml 0x11C) 1) ∧
  (∀ (s : State) (v : W32) (n : Fin 1024), Starts s .ml 0x10C 1 v → bit v 0 = false → n.val = fld (preg s .ml 0x100) 0 10 → (s.lock n).st ≠
    .held →
    Runs (.forceBreak v) s [.page .ml] fun t =>
      bit (preg t .ml 0x10C) 1 = false) ∧
  (∀ (s : State) (n : Fin 1024), (s.lock n).queue = [] →
    Runs (.lockStatePe n) s [.page .ml, .locks] fun t =>
      t.lock n = { s.lock n with st := .broken, owner := 0xFF, unknown := true } ∧
      bit (preg t .ml 0x10) 3 = true) ∧
  (∀ (s : State) (n : Fin 1024) (id : Fin 256) (rd : BitVec 5), (s.lock n).queue = [id] → (s.core id).waits = [.acq rd n] → (s.core id).st
    = .wait → rd ≠ 0 →
    Runs (.lockStatePe n) s [.page .ml, .page .sd, .cores, .locks, .sd] fun t =>
      (t.lock n).st = .held ∧
      (t.lock n).owner = BitVec.ofNat 8 id.val ∧
      (t.lock n).queue = [] ∧
      (t.core id).st = .run ∧
      (t.core id).s rd = acqWord 1 true 0xFF ((s.lock n).epoch + 1).toNat) ∧
  (∀ (s : State) (v : W32) (core : Fin 256), Starts s .sd 0x11C 8 v → partOf s core = fld v 0 4 →
    Runs (.sdPartReset v) s [.page .lw, .page .ep, .page .ml, .page .sd, .page .dc, .page .cl, .page .mc, .page .gc, .staged, .cores, .locks, .sd, .clusters, .dm, .slices, .cxl, .frz, .scrubs, .mesh, .ports] fun t =>
      (t.core core).st = .reset ∧
      (t.core core).part = 0 ∧
      (t.core core).epoch = (s.core core).epoch + 1 ∧
      enabled t (.gc core) = false ∧
      (t.core core).ldm = (s.core core).ldm ∧
      bit (preg t .sd 0x11C) 8 = false)

/-- A bundle with one scalar or vector instruction writes its result and goes on. The choices of the instruction set are assumption 12. -/
def Obligations.ScalarBundles : Prop :=
  (∀ (s : State) (core : Fin 256) (upset : Upset) (b : BitVec 128) (q : List (BitVec 128)) (op : AluOp) (rd : SReg) (ra : SReg) (rb :
    SReg), Issues s core b q → decodeBundle b = some ⟨.alu op rd ra rb, none, .nop⟩ → upset ≠ .imemParity →
    Runs (.bundleIssue core upset []) s [.cores] fun t =>
      t.core core = (advanced s.fresh (s.core core) q).setS rd (aluEval op ((s.core core).s ra) ((s.core core).s rb))) ∧
  (∀ (s : State) (core : Fin 256) (upset : Upset) (b : BitVec 128) (q : List (BitVec 128)) (cd : Cond) (ra : SReg) (rb : SReg) (off : Int),
    Issues s core b q → decodeBundle b = some ⟨.branch cd ra rb off, none, .nop⟩ → upset ≠ .imemParity → condEval cd ((s.core core).s ra)
    ((s.core core).s rb) = true →
    Runs (.bundleIssue core upset []) s [.cores] fun t =>
      t.core core = { advanced s.fresh (s.core core) [] with pc := (s.core core).pc + BitVec.ofInt 16 (16 * off) }) ∧
  (∀ (s : State) (core : Fin 256) (upset : Upset) (b : BitVec 128) (q : List (BitVec 128)) (cd : Cond) (ra : SReg) (rb : SReg) (off : Int),
    Issues s core b q → decodeBundle b = some ⟨.branch cd ra rb off, none, .nop⟩ → upset ≠ .imemParity → condEval cd ((s.core core).s ra)
    ((s.core core).s rb) = false →
    Runs (.bundleIssue core upset []) s [.cores] fun t =>
      t.core core = advanced s.fresh (s.core core) q) ∧
  (∀ (s : State) (core : Fin 256) (upset : Upset) (b : BitVec 128) (q : List (BitVec 128)) (i : VIns), Issues s core b q → decodeBundle b =
    some ⟨.nop, some i, .nop⟩ → upset ≠ .imemParity → i.op = .and →
    Runs (.bundleIssue core upset []) s [.cores] fun t =>
      t.core core = (advanced s.fresh (s.core core) q).setV i.vd ((s.core core).v i.va &&& (s.core core).v i.vb)) ∧
  (∀ (s : State) (core : Fin 256) (upset : Upset) (b : BitVec 128) (q : List (BitVec 128)) (rd : SReg) (ra : SReg) (imm : W32), Issues s
    core b q → decodeBundle b = some ⟨.waitAny rd ra imm, none, .nop⟩ → upset ≠ .imemParity → (s.core core).waits = [] → (s.core
    core).events &&& (((s.core core).s ra).setWidth 32 ||| imm) = 0 → ((s.core core).s ra).setWidth 32 ||| imm ≠ 0 →
    Runs (.bundleIssue core upset []) s [.page .sd, .cores, .sd] fun t =>
      (t.core core).st = .wait ∧
      (t.core core).cause = 4 ∧
      (t.core core).target = ((s.core core).s ra).setWidth 32 ||| imm ∧
      (t.core core).pc = (s.core core).pc + 16)

/-- Bundles of the memory and message slots. The choices of the instruction set are assumption 12. -/
def Obligations.MemoryAndMessageBundles : Prop :=
  (∀ (s : State) (core : Fin 256) (upset : Upset) (b : BitVec 128) (q : List (BitVec 128)) (rd : SReg) (ra : SReg) (imm : Int) (n : Nat),
    Issues s core b q → decodeBundle b = some ⟨.nop, none, .ld rd ra imm n false⟩ → upset ≠ .imemParity → upset = .none → effAddr (s.core
    core) ra imm % n = 0 → effAddr (s.core core) ra imm + n ≤ 0xE0000 →
    Runs (.bundleIssue core upset []) s [.cores] fun t =>
      t.core core = (advanced s.fresh (s.core core) q).setS rd (BitVec.ofNat 64 ((s.core core).localRead (effAddr (s.core core) ra imm) n))) ∧
  (∀ (s : State) (core : Fin 256) (upset : Upset) (b : BitVec 128) (q : List (BitVec 128)) (rd : SReg) (ra : SReg) (imm : Int) (n : Nat),
    Issues s core b q → decodeBundle b = some ⟨.nop, none, .st rd ra imm n⟩ → upset ≠ .imemParity → effAddr (s.core core) ra imm % n = 0 →
    effAddr (s.core core) ra imm + n ≤ 0xC0000 → tileOverlap (s.core core) (effAddr (s.core core) ra imm) n = false →
    Runs (.bundleIssue core upset []) s [.cores] fun t =>
      t.core core = { advanced s.fresh (s.core core) q with
          ldm := writeBytes (s.core core).ldm (effAddr (s.core core) ra imm) (natBytes n ((s.core core).s rd).toNat) }) ∧
  (∀ (s : State) (core : Fin 256) (upset : Upset) (b : BitVec 128) (q : List (BitVec 128)) (rd : SReg) (ra : SReg) (imm : Int) (n : Nat),
    Issues s core b q → decodeBundle b = some ⟨.nop, none, .st rd ra imm n⟩ → upset ≠ .imemParity → (s.core core).loadsOut = 0 → effAddr
    (s.core core) ra imm % n ≠ 0 →
    Runs (.bundleIssue core upset []) s [.page .gc, .page .sd, .cores, .locks, .sd, .page .ml] fun t =>
      (t.core core).st = .halt ∧
      (t.core core).exc = 0x03 ∧
      (t.core core).excPc = (s.core core).pc ∧
      (t.core core).sreg = (s.core core).sreg ∧
      (t.core core).ldm = (s.core core).ldm ∧
      (t.core core).waits = [] ∧
      bit (preg t (.gc core) 0x10) 0 = true) ∧
  (∀ (s : State) (core : Fin 256) (upset : Upset) (b : BitVec 128) (q : List (BitVec 128)) (rd : SReg) (ra : SReg) (imm : Int) (n : Nat) (i
    : Fin 16), Issues s core b q → decodeBundle b = some ⟨.nop, none, .gst rd ra imm n false⟩ → upset ≠ .imemParity → effAddr (s.core core)
    ra imm % n = 0 → effAddr (s.core core) ra imm < 2 ^ 48 → slotFind (s.core core) .valid (some (effAddr (s.core core) ra imm)) = some i →
    ((s.core core).slots.get i).rights &&& 2 = 2 → ((s.core core).slots.get i).kind ≠ 1 → (s.core core).storesOut < 64 →
    Runs (.bundleIssue core upset []) s [.cores] fun t =>
      (t.core core).access.length = (s.core core).access.length + 1 ∧
      (t.core core).pc = (s.core core).pc + 16 ∧
      ((t.core core).access.getLast?.map fun a => (a.va, a.data, a.host)) = some (BitVec.ofNat 48 (effAddr (s.core core) ra imm), ((s.core
          core).s rd).setWidth 2048, false)) ∧
  (∀ (s : State) (core : Fin 256) (upset : Upset) (b : BitVec 128) (q : List (BitVec 128)) (rd : SReg) (ra : SReg) (d : MsgDesc), Issues s
    core b q → decodeBundle b = some ⟨.nop, none, .send rd ra⟩ → upset ≠ .imemParity → upset = .none → ((s.core core).s ra).toNat % 16 = 0
    → ((s.core core).s ra).toNat + 16 ≤ ldmSize → d = readDesc (s.core core) ((s.core core).s ra).toNat → sendCheck s core d = 0 → canSend
    s core d = true →
    Runs (.bundleIssue core upset []) s [.cores, .ports] fun t =>
      ((t.core core).chan d.chan).fares = ((s.core core).chan d.chan).fares - 1 ∧
      (t.core core).sending = some (rd, d) ∧
      (t.core core).st = .run) ∧
  (∀ (s : State) (core : Fin 256) (upset : Upset) (b : BitVec 128) (q : List (BitVec 128)) (rd : SReg) (ra : SReg) (d : MsgDesc), Issues s
    core b q → decodeBundle b = some ⟨.nop, none, .send rd ra⟩ → upset ≠ .imemParity → upset = .none → ((s.core core).s ra).toNat % 16 = 0
    → ((s.core core).s ra).toNat + 16 ≤ ldmSize → d = readDesc (s.core core) ((s.core core).s ra).toNat → sendCheck s core d = 1 →
    Runs (.bundleIssue core upset []) s [.cores] fun t =>
      ((t.core core).chan d.chan).status = 1 ∧
      ((t.core core).chan d.chan).fares = ((s.core core).chan d.chan).fares ∧
      ((t.core core).chan d.chan).sent = ((s.core core).chan d.chan).sent + 1 ∧
      (rd ≠ 0 → (t.core core).s rd = 1) ∧
      (t.core core).st = .run) ∧
  (∀ (s : State) (core : Fin 256) (upset : Upset) (b : BitVec 128) (q : List (BitVec 128)) (rd : SReg) (ra : SReg) (i : Nat), Issues s core
    b q → decodeBundle b = some ⟨.nop, none, .recv rd ra⟩ → upset ≠ .imemParity → ((s.core core).s ra).setWidth 16 ≠ (0 : W16) → (s.core
    core).lowestFull (((s.core core).s ra).setWidth 16) = some i →
    Runs (.bundleIssue core upset []) s [.cores] fun t =>
      t.core core = recvDone (advanced s.fresh (s.core core) q) rd (some i)) ∧
  (∀ (s : State) (core : Fin 256) (upset : Upset) (b : BitVec 128) (q : List (BitVec 128)) (rd : SReg) (ra : SReg) (imm : Nat) (n : Fin
    1024), Issues s core b q → decodeBundle b = some ⟨.nop, none, .acq rd ra imm false⟩ → upset ≠ .imemParity → n = lockNo (s.core core) ra
    imm → lockAllowed s core n = true → (s.lock n).st = .free → (s.lock n).queue = [] →
    Runs (.bundleIssue core upset []) s [.page .ml, .cores, .locks] fun t =>
      t.core core = (advanced s.fresh (s.core core) q).setS rd (acqWord 0 false 0 (s.lock n).epoch.toNat) ∧
      (t.lock n).st = .held ∧
      (t.lock n).owner = BitVec.ofNat 8 core.val ∧
      preg t .ml 0x118 = satAdd (preg s .ml 0x118) 1) ∧
  (∀ (s : State) (core : Fin 256) (upset : Upset) (b : BitVec 128) (q : List (BitVec 128)) (rd : SReg) (ra : SReg) (imm : Int) (n : Nat),
    Issues s core b q → decodeBundle b = some ⟨.nop, none, .st rd ra imm n⟩ → upset ≠ .imemParity → 0 < (s.core core).loadsOut → effAddr
    (s.core core) ra imm % n ≠ 0 →
    Runs (.bundleIssue core upset []) s [.cores] fun t =>
      t.core core = { s.core core with fetchQ := b :: q }) ∧
  (∀ (s : State) (core : Fin 256) (upset : Upset) (b : BitVec 128) (q : List (BitVec 128)) (rd : SReg) (ra : SReg), Issues s core b q →
    decodeBundle b = some ⟨.nop, none, .send rd ra⟩ → upset = .uncorrectable → (s.core core).waits = [] → ((s.core core).s ra).toNat % 16 =
    0 → ((s.core core).s ra).toNat + 16 ≤ ldmSize →
    Runs (.bundleIssue core upset []) s [.page .gc, .page .sd, .cores, .sd] fun t =>
      (t.core core).st = .halt ∧
      (t.core core).exc = 0x04 ∧
      (t.core core).excPc = (s.core core).pc ∧
      (t.core core).sreg = (s.core core).sreg ∧
      (t.core core).chans = (s.core core).chans ∧
      bit (preg t (.gc core) 0x10) 6 = true)

/-- Bundles that end in an exception, and what completes after its bundle. The choices of the instruction set are assumption 12. -/
def Obligations.BundleEnds : Prop :=
  (∀ (s : State) (core : Fin 256) (upset : Upset) (b : BitVec 128) (q : List (BitVec 128)), Issues s core b q → decodeBundle b = none →
    upset ≠ .imemParity → (s.core core).loadsOut = 0 →
    Runs (.bundleIssue core upset []) s [.page .gc, .page .sd, .cores, .locks, .sd, .page .ml] fun t =>
      (t.core core).st = .halt ∧
      (t.core core).exc = 0x01 ∧
      (t.core core).excPc = (s.core core).pc ∧
      (t.core core).sreg = (s.core core).sreg ∧
      (t.core core).ldm = (s.core core).ldm ∧
      (t.core core).waits = [] ∧
      bit (preg t (.gc core) 0x10) 0 = true ∧
      preg t (.gc core) 0x30 &&& one32 16 = one32 16) ∧
  (∀ (s : State) (core : Fin 256) (upset : Upset) (b : BitVec 128) (q : List (BitVec 128)) (imm : BitVec 6), Issues s core b q →
    decodeBundle b = some ⟨.trap imm, none, .nop⟩ → upset ≠ .imemParity → (s.core core).loadsOut = 0 →
    Runs (.bundleIssue core upset []) s [.page .gc, .page .sd, .cores, .locks, .sd, .page .ml] fun t =>
      (t.core core).st = .halt ∧
      (t.core core).exc = BitVec.ofNat 8 (0x40 + imm.toNat) ∧
      (t.core core).excPc = (s.core core).pc ∧
      (t.core core).sreg = (s.core core).sreg ∧
      (t.core core).ldm = (s.core core).ldm ∧
      (t.core core).waits = [] ∧
      bit (preg t (.gc core) 0x10) 0 = true) ∧
  (∀ (s : State) (core : Fin 256), canIssue s core = true → Wait.sync ∉ (s.core core).waits → (s.core core).loadsOut = 0 →
    Runs (.bundleIssue core .imemParity []) s [.page .gc, .page .sd, .cores, .locks, .sd, .page .ml] fun t =>
      (t.core core).st = .halt ∧
      (t.core core).exc = 0x0A ∧
      (t.core core).excPc = (s.core core).pc ∧
      (t.core core).sreg = (s.core core).sreg ∧
      (t.core core).ldm = (s.core core).ldm ∧
      (t.core core).waits = [] ∧
      bit (preg t (.gc core) 0x10) 0 = true ∧
      bit (preg t (.gc core) 0x10) 7 = true) ∧
  (∀ (s : State) (core : Fin 256) (upset : Upset) (m : Mma) (rest : List Mma), clockStopped s core = false → (s.core core).mmas = m :: rest
    → (upset = .none ∨ upset = .imemParity) →
    Runs (.mmaComplete core upset) s [.cores] fun t =>
      t.core core = { s.core core with mmas := rest, acc := mmaRun (s.core core).ldm (s.core core).acc m }) ∧
  (∀ (s : State) (core : Fin 256) (m : Mma) (rest : List Mma), clockStopped s core = false → (s.core core).mmas = m :: rest → (s.core
    core).waits = [] → (s.core core).st ∈ [CoreState.run, .wait, .parked] →
    Runs (.mmaComplete core .uncorrectable) s [.page .sd, .page .gc, .cores, .sd] fun t =>
      (t.core core).st = .halt ∧
      (t.core core).exc = 0x04 ∧
      (t.core core).excPc = m.pc ∧
      (t.core core).mmas = rest ∧
      bit (preg t (.gc core) 0x10) 6 = true) ∧
  (∀ (s : State) (core : Fin 256) (upset : Upset) (rd : BitVec 5) (d : MsgDesc), clockStopped s core = false → (s.core core).sending = some
    (rd, d) → (chanDest (chanCfg s core d.chan)).toNat / 256 = fleetId s → (upset = .none ∨ upset = .imemParity) →
    Runs (.sendComplete core upset) s [.page .gc, .cores, .mesh] fun t =>
      (t.core core).sending = none ∧
      ((t.core core).chan d.chan).fares = ((s.core core).chan d.chan).fares ∧
      ((t.core core).chan d.chan).sent = ((s.core core).chan d.chan).sent + 1 ∧
      ((t.core core).chan d.chan).status = 0 ∧
      (rd ≠ 0 → (t.core core).s rd = 0) ∧
      t.mesh.length = s.mesh.length + 1 ∧
      (t.mesh.getLast?.map fun m => (m.chan, m.tag, m.len, m.data)) = some (d.chan, d.tag, d.len, readBytes (s.core core).ldm d.src.toNat
          d.len.toNat)) ∧
  (∀ (s : State) (core : Fin 256) (rd : BitVec 5) (d : MsgDesc), clockStopped s core = false → (s.core core).sending = some (rd, d) →
    (s.core core).st = .run → (s.core core).waits = [] →
    Runs (.sendComplete core .uncorrectable) s [.page .gc, .page .sd, .cores, .ports, .sd] fun t =>
      (t.core core).sending = none ∧
      (t.core core).st = .halt ∧
      (t.core core).exc = 0x04 ∧
      (t.core core).excPc = (s.core core).lastPc ∧
      (t.core core).chans = (s.core core).chans ∧
      bit (preg t (.gc core) 0x10) 6 = true) ∧
  (∀ (s : State) (core : Fin 256) (upset : Upset), clockStopped s core = false → (s.core core).waits = [.sync] → (s.core core).st = .wait →
    Runs (.bundleIssue core upset []) s [.page .sd, .cores, .sd] fun t =>
      t.core core = { s.core core with st := .run, waits := [], cause := 0, target := 0, fetchQ := [] })

/-- A valid manifest joins its queue with the next completion number. -/
def Obligations.ManifestSubmission : Prop :=
  (∀ (s : State) (cl : Fin 16) (ctx : Fin 16) (desc : BitVec 1024) (ue : List (BitVec 23)) (rx : Xlat), bit (preg s (.cl cl) 0x200) 0 =
    true → descOk desc (fun id => decide (ctxOfPart s (partOf s id) = ctx.val)) = true → mFlagEn desc = false → (lookup s ctx (mCompl desc)
    2 false (unitUe ue (mCompl desc))).2 = .ok rx → (cutFrom (lookup s ctx (mCompl desc) 2 false (unitUe ue (mCompl desc))).1 ctx desc
    (segLimit (lookup s ctx (mCompl desc) 2 false (unitUe ue (mCompl desc))).1 ctx desc) 0 (mTotal desc) ue).2.fail = none → (mQueueOf s cl
    (mQueue desc)).length < 32 →
    Runs (.hubFirmwareSubmission cl ctx desc ue) s [.page .vt, .clusters] fun t =>
      (mQueueOf t cl (mQueue desc)).length = (mQueueOf s cl (mQueue desc)).length + 1 ∧
      ((mQueueOf t cl (mQueue desc)).getLast?.map fun m => (m.no, m.ctx, m.core)) = some (nextNo ((s.mover cl).last.get (mQueue desc)),
          ctx, none) ∧
      ((mQueueOf t cl (mQueue desc)).getLast?.map fun m => (m.desc, m.started, m.done)) = some (desc, false, 0) ∧
      (t.mover cl).last.get (mQueue desc) = nextNo ((s.mover cl).last.get (mQueue desc))) ∧
  (∀ (s : State) (cl : Fin 16) (ctx : Fin 16) (desc : BitVec 1024) (ue : List (BitVec 23)), bit (preg s (.cl cl) 0x200) 0 = false →
    Runs (.hubFirmwareSubmission cl ctx desc ue) s [] fun t =>
      t = s) ∧
  (∀ (s : State) (core : Fin 256) (idx : Fin 512) (p : Pick) (cl : Fin 16) (ctx : Fin 16) (a : Nat) (desc : BitVec 1024) (ue : List (BitVec
    23)) (rx : Xlat) (T : State), nextEntry s core = some p → p.idx = idx.val → mayGo s core p = true → eAct p.e = 0x04 → (s.core core).st
    = .run → cl = clusterOf core → ctx = fin 16 (ctxOfPart s (partOf s core)) → a = eArg p.e % 2 ^ 20 → a % 128 = 0 → a + 128 ≤ ldmSize →
    desc = BitVec.ofNat 1024 (bytesNat (readBytes (s.core core).ldm a 128)) → T = takePlace s core p → bit (preg T (.cl cl) 0x200) 0 = true
    → descOk desc (fun k => decide (partOf s k = partOf s core)) = true → mFlagEn desc = false → (lookup T ctx (mCompl desc) 2 false
    (unitUe ue (mCompl desc))).2 = .ok rx → (cutFrom (lookup T ctx (mCompl desc) 2 false (unitUe ue (mCompl desc))).1 ctx desc (segLimit
    (lookup T ctx (mCompl desc) 2 false (unitUe ue (mCompl desc))).1 ctx desc) 0 (mTotal desc) ue).2.fail = none → (mQueueOf s cl (mQueue
    desc)).length < 32 →
    Runs (.ttManifest core idx .none ue) s [.page .vt, .page .cl, .page .gc, .tt, .cores, .clusters] fun t =>
      (mQueueOf t cl (mQueue desc)).length = (mQueueOf s cl (mQueue desc)).length + 1 ∧
      ((mQueueOf t cl (mQueue desc)).getLast?.map fun m => (m.no, m.ctx, m.core)) = some (nextNo ((s.mover cl).last.get (mQueue desc)),
          ctx, some core) ∧
      ((mQueueOf t cl (mQueue desc)).getLast?.map fun m => (m.desc, m.started, m.done)) = some (desc, false, 0) ∧
      (t.mover cl).last.get (mQueue desc) = nextNo ((s.mover cl).last.get (mQueue desc)))

/-- Manifests run element by element and segment by segment. -/
def Obligations.Manifests : Prop :=
  (∀ (s : State) (cl : Fin 16) (q : Fin 4) (m : Manifest) (rest : List Manifest), stopped s = false → mQueueOf s cl q = m :: rest →
    m.started = false →
    Runs (.manifestStart cl q) s [.clusters] fun t =>
      mQueueOf t cl q = { m with started := true } :: rest) ∧
  (∀ (s : State) (cl : Fin 16) (q : Fin 4) (e : Elem) (res : HostAnswer) (pa : Nat), stopped s = false → nextElem s cl q = some e →
    queueTurn s cl = some q → mCopy e.m.desc = false → e.dx.kind = 0 → pa = e.dx.phys e.da → pa < dmSize → mEsize e.m.desc ≤ 64 → pa %
    mEsize e.m.desc = 0 → PlainLine s e.dstLine →
    Runs (.manifestElement cl q res none) s [.page .lw, .page .ep, .page .dc, .page .cl, .page .mc, .clusters, .dm, .slices, .cxl, .frz, .scrubs] fun t =>
      (mQueueOf t cl q)[e.i]? = some (e.m.delivered e.g false) ∧
      readBytes t.dm pa (mEsize e.m.desc) = (List.range (mEsize e.m.desc)).map (fun k => BitVec.ofNat 8 (fld e.m.desc (384 + 8 * (k % 8))
          8)) ∧
      (∀ a, a < pa ∨ pa + mEsize e.m.desc ≤ a → sget (fun _ => 0) t.dm a = sget (fun _ => 0) s.dm a)) ∧
  (∀ (s : State) (cl : Fin 16) (q : Fin 4) (e : Elem) (sx : Xlat) (res : HostAnswer) (pa : Nat) (qa : Nat), stopped s = false → nextElem s
    cl q = some e → queueTurn s cl = some q → mCopy e.m.desc = true → e.dx.kind = 0 → pa = e.dx.phys e.da → pa < dmSize → mEsize e.m.desc ≤
    64 → pa % mEsize e.m.desc = 0 → PlainLine s e.dstLine → e.sx = some sx → sx.kind = 0 → qa = sx.phys e.sa → qa < dmSize → qa % mEsize
    e.m.desc = 0 → PlainLine s (lineOf false qa) →
    Runs (.manifestElement cl q res none) s [.page .lw, .page .ep, .page .dc, .page .cl, .page .mc, .clusters, .dm, .slices, .cxl, .frz, .scrubs] fun t =>
      (mQueueOf t cl q)[e.i]? = some (e.m.delivered e.g false) ∧
      readBytes t.dm pa (mEsize e.m.desc) = readBytes s.dm qa (mEsize e.m.desc) ∧
      (∀ a, a < pa ∨ pa + mEsize e.m.desc ≤ a → sget (fun _ => 0) t.dm a = sget (fun _ => 0) s.dm a)) ∧
  (∀ (s : State) (cl : Fin 16) (q : Fin 4) (m : Manifest) (rest : List Manifest) (pa : Nat), stopped s = false → mQueueOf s cl q = m ::
    rest → m.started = true → m.halted = false → m.ending = none → (rest.all fun x => x.ending.isNone) = true → m.done = mTotal m.desc →
    m.poisoned = 0 → streamBusy s (16 + cl.val) q.val = false → m.flagX = none → bit m.desc 16 = false → m.recX.kind = 0 → pa = m.recX.phys
    (mCompl m.desc) → pa < dmSize → pa % 64 = 0 → PlainLine s m.recLine →
    Runs (.manifestComplete cl q) s [.page .lw, .page .ep, .page .sd, .page .dc, .page .cl, .page .mc, .cores, .sd, .clusters, .dm, .slices, .cxl, .frz, .scrubs] fun t =>
      mQueueOf t cl q = rest ∧
      readBytes t.dm pa 64 = natBytes 64 (record s cl q m 0 0).toNat ∧
      preg t (.cl cl) 0x228 = satAdd (preg s (.cl cl) 0x228) 1) ∧
  (∀ (s : State) (cl : Fin 16) (q : Fin 4) (m : Manifest) (i : Nat) (g : Seg), stopped s = false → issuing (mQueueOf s cl q) = some (i, m)
    → m.seg = some g → m.halted = false → m.ending = none → m.next = none → m.nextBusy = false → m.stopAt = none → (g.count + 1) / 2 ≤
    m.done - g.first → g.first + g.count < mTotal m.desc →
    Runs (.segmentTranslation cl q) s [.clusters] fun t =>
      (mQueueOf t cl q)[i]? = some { m with nextBusy := true }) ∧
  (∀ (s : State) (cl : Fin 16) (q : Fin 4) (m : Manifest) (i : Nat) (g : Seg) (ue : List (BitVec 23)) (k : Nat) (ps : List (Bool × Xlat))
    (f : Option (Nat × BitVec 64)), stopped s = false → issuing (mQueueOf s cl q) = some (i, m) → m.seg = some g → m.nextBusy = true →
    (cutFrom s m.ctx m.desc m.limit (g.first + g.count) (mTotal m.desc) ue).2.count = k → (cutFrom s m.ctx m.desc m.limit (g.first +
    g.count) (mTotal m.desc) ue).2.pages = ps → (cutFrom s m.ctx m.desc m.limit (g.first + g.count) (mTotal m.desc) ue).2.fail = f →
    Runs (.segmentTranslationDone cl q ue) s [.page .vt, .clusters] fun t =>
      (mQueueOf t cl q)[i]? = some { m with
          nextBusy := false, next := (if k = 0 then none else some ⟨g.first + g.count, k, ps, !g.upper⟩),
          stopAt := f.map fun f => (f.1, f.2.setWidth 48) }) ∧
  (∀ (s : State) (cl : Fin 16) (q : Fin 4) (m : Manifest) (rest : List Manifest) (a : BitVec 48) (pa : Nat), stopped s = false → mQueueOf s
    cl q = m :: rest → m.done < mTotal m.desc → m.stopAt = some (m.done, a) → m.halted = false → m.ending = none → (rest.all fun x =>
    x.ending.isNone) = true → streamBusy s (16 + cl.val) q.val = false → bit m.desc 16 = false → m.recX.kind = 0 → pa = m.recX.phys (mCompl
    m.desc) → pa < dmSize → pa % 64 = 0 → PlainLine s m.recLine →
    Runs (.manifestPartial cl q) s [.page .lw, .page .ep, .page .dc, .page .cl, .page .mc, .clusters, .dm, .slices, .cxl, .frz, .scrubs] fun t =>
      mQueueOf t cl q = { m with started := true, halted := true, seg := none, next := none, nextBusy := false, ending := none } :: rest ∧
      readBytes t.dm pa 64 = natBytes 64 (record s cl q m 2 a.toNat).toNat ∧
      bit (preg t (.cl cl) 0x10) 19 = true ∧
      preg t (.cl cl) 0x228 = satAdd (preg s (.cl cl) 0x228) 1) ∧
  (∀ (s : State) (cl : Fin 16) (q : Fin 4) (e : Elem) (res : HostAnswer) (id : Fin 256) (off : BitVec 16), stopped s = false → nextElem s
    cl q = some e → queueTurn s cl = some q → mCopy e.m.desc = false → e.dx.kind = 0 →
    Runs (.manifestElement cl q res (some (id, off))) s [.page .cl, .cores, .clusters] fun t =>
      (mQueueOf t cl q)[e.i]? = some (e.m.delivered e.g false) ∧
      readBytes (t.core id).imem off.toNat (mEsize e.m.desc) = (List.range (mEsize e.m.desc)).map (fun k => BitVec.ofNat 8 (fld e.m.desc
          (384 + 8 * (k % 8)) 8)) ∧
      (t.core id).fetchQ = (s.core id).fetchQ ∧
      (t.core id).ldm = (s.core id).ldm) ∧
  (∀ (s : State) (cl : Fin 16) (q : Fin 4) (e : Elem) (res : HostAnswer) (imem : Option (Fin 256 × BitVec 16)), nextElem s cl q = some e →
    elemReady s cl q e = false →
    Runs (.manifestElement cl q res imem) s [.page .lw, .page .dc, .slices] fun t =>
      mQueueOf t cl q = mQueueOf s cl q) ∧
  (∀ (s : State) (cl : Fin 16) (q : Fin 4) (m : Manifest) (rest : List Manifest) (pa : Nat) (l : Line) (off : Nat), stopped s = false →
    mQueueOf s cl q = m :: rest → m.started = true → m.halted = false → m.ending = none → (rest.all fun x => x.ending.isNone) = true →
    m.done = mTotal m.desc → m.poisoned = 0 → streamBusy s (16 + cl.val) q.val = false → bit m.desc 16 = false → m.recX.kind = 0 → pa =
    m.recX.phys (mCompl m.desc) → pa < dmSize → pa % 64 = 0 → PlainLine s m.recLine → m.flagLine = some (l, off) → off ≤ 56 → l ≠ m.recLine
    → 64 * l.num.toNat < dmSize → PlainLine s l →
    Runs (.manifestComplete cl q) s [.page .lw, .page .ep, .page .sd, .page .dc, .page .cl, .page .mc, .cores, .sd, .clusters, .dm, .slices, .cxl, .frz, .scrubs] fun t =>
      mQueueOf t cl q = rest ∧
      readBytes t.dm (64 * l.num.toNat + off) 8 = natBytes 8 (fld m.desc 320 64) ∧
      readBytes t.dm pa 64 = natBytes 64 (record s cl q m 0 0).toNat)

/-- Movers, mailboxes and the matrix controlled. The matrix rows model arbitration alone (assumption 39). -/
def Obligations.MovementControl : Prop :=
  (∀ (s : State) (cl : Fin 16) (v : W32) (q : Fin 4) (m : Manifest) (pa : Nat), Starts s (.cl cl) 0x200 1 v → bit v 0 = bit (preg s (.cl
    cl) 0x200) 0 → mQueueOf s cl q = [m] → (∀ r : Fin 4, r ≠ q → mQueueOf s cl r = []) → m.ending = none → streamBusy s (16 + cl.val) q.val
    = false → m.recX.kind = 0 → pa = m.recX.phys (mCompl m.desc) → pa < dmSize → pa % 64 = 0 → PlainLine s m.recLine →
    Runs (.abortAll cl v) s [.page .lw, .page .ep, .page .dc, .page .cl, .page .mc, .staged, .clusters, .dm, .slices, .cxl, .frz, .scrubs] fun t =>
      (∀ r : Fin 4, mQueueOf t cl r = []) ∧
      readBytes t.dm pa 64 = natBytes 64 (record s cl q m 4 0).toNat ∧
      bit (preg t (.cl cl) 0x200) 1 = false ∧
      bit (preg t (.cl cl) 0x200) 0 = bit v 0) ∧
  (∀ (s : State) (cl : Fin 16) (v : W32), Unlocked s (.cl cl) → bit (preg s (.cl cl) 0x200) 0 = false → bit v 0 = true → bit v 1 = false →
    Runs (.mvEn cl v) s [.page .cl, .clusters] fun t =>
      bit (preg t (.cl cl) 0x200) 0 = true ∧
      (t.mover cl).last = Vector.replicate 4 0 ∧
      (t.mover cl).queues = (s.mover cl).queues) ∧
  (∀ (s : State) (cl : Fin 16) (v : W32), Unlocked s (.cl cl) → bit v 0 = false → bit v 1 = false →
    Runs (.mvEn cl v) s [.page .cl] fun t =>
      bit (preg t (.cl cl) 0x200) 0 = false) ∧
  (∀ (s : State) (mb : Fin 16) (v : W32), Unlocked s .fm → bit (preg s .fm (mbOff mb)) 0 = false → bit v 0 = true → bit v 1 = false →
    Runs (.mailboxEn mb v) s [.page .fm, .mailboxes] fun t =>
      bit (preg t .fm (mbOff mb)) 0 = true ∧
      t.mailbox mb = { s.mailbox mb with h := 0, empty := true, results := [] }) ∧
  (∀ (s : State) (mb : Fin 16) (v : W32), Unlocked s .fm → bit v 0 = false → bit v 1 = false →
    Runs (.mailboxEn mb v) s [.page .fm] fun t =>
      bit (preg t .fm (mbOff mb)) 0 = false) ∧
  (∀ (s : State) (mb : Fin 16) (v : W32), Starts s .fm (mbOff mb) 1 v →
    Runs (.winReset mb v) s [.page .fm, .mailboxes] fun t =>
      t.mailbox mb = { s.mailbox mb with h := 0, empty := true, results := [] } ∧
      bit (preg t .fm (mbOff mb)) 1 = false) ∧
  (∀ (s : State) (target : Fin 26) (a : XbArrival), s.xb.held = [] → s.xb.stalled = [] → s.xb.waiting.get target = [] → s.xb.burst.get
    target = 0 → xbDecodes s target a = true → xbFenced s target = false → xbBlocked s target a = false → a.full = false → a.cls ≠ .escape
    →
    Runs (.xbArbitration target [a]) s [.xb] fun t =>
      t.xb.waiting.get target = [] ∧
      t.xb.ptr.get target = BitVec.ofNat 6 a.master.val ∧
      t.xb.burst.get target = min a.beats.toNat (burstOf s a.master + 1) - 1 ∧
      t.xb.held = []) ∧
  (∀ (s : State) (target : Fin 26) (a : XbWait) (b : XbWait), s.xb.held = [] → s.xb.stalled = [] → s.xb.waiting.get target = [a, b] →
    s.xb.burst.get target = 0 → xbBlocked s target a.req = false → xbBlocked s target b.req = false → prioOf s target a.req.master < prioOf
    s target b.req.master →
    Runs (.xbArbitration target []) s [.xb] fun t =>
      t.xb.waiting.get target = [{ a with waited := a.waited + 1 }] ∧
      t.xb.ptr.get target = BitVec.ofNat 6 b.req.master.val) ∧
  (∀ (s : State) (target : Fin 26) (a : XbArrival), s.xb.held = [] → s.xb.stalled = [] → s.xb.waiting.get target = [] → s.xb.burst.get
    target = 0 → xbDecodes s target a = false →
    Runs (.xbArbitration target [a]) s [.page .xb] fun t =>
      bit (preg t .xb 0x10) 2 = true ∧
      Out.xbError a.master a.addr ∈ t.out) ∧
  (∀ (s : State) (target : Fin 26) (i : Nat) (w : XbWait), (s.xb.waiting.get target)[i]? = some w → (preg s .xb 0x160).toNat < w.waited →
    Runs (.xbStarve target i) s [.page .xb] fun t =>
      bit (preg t .xb 0x10) 1 = true) ∧
  (∀ (s : State) (i : Nat) (h : Fin 26 × XbWait), s.xb.held[i]? = some h → (preg s .xb 0x15C).toNat < h.2.waited →
    Runs (.holdTimeout i) s [.page .xb] fun t =>
      bit (preg t .xb 0x10) 0 = true) ∧
  (∀ (s : State) (cl : Fin 16) (v : W32), Starts s (.cl cl) 0x200 1 v →
    Runs (.abortAll cl v) s [.clusters, .cores, .cxl, .dm, .frz, .page .cl, .page .dc, .page .ep, .page .lw, .page .mc, .page .sd, .scrubs, .sd, .slices, .staged] fun t =>
      (∀ q : Fin 4, ((mQueueOf t cl q).all fun m => m.ending.isSome) = true)) ∧
  (∀ (s : State) (target : Fin 26) (a : XbArrival), s.xb.held = [] → s.xb.stalled = [] → s.xb.waiting.get target = [] → s.xb.burst.get
    target = 0 → xbDecodes s target a = true → xbFenced s target = false → xbBlocked s target a = false → a.full = true → escapeKept target
    a = false →
    Runs (.xbArbitration target [a]) s [.xb] fun t =>
      t.xb.waiting.get target = [] ∧
      t.xb.stalled = [(target, a)]) ∧
  (∀ (s : State) (target : Fin 26) (a : XbArrival), s.xb.held = [] → s.xb.stalled = [] → s.xb.waiting.get target = [] → s.xb.burst.get
    target = 0 → xbDecodes s target a = true → xbFenced s target = false → xbBlocked s target a = false → a.full = true → escapeKept target
    a = true →
    Runs (.xbArbitration target [a]) s [.xb] fun t =>
      t.xb.waiting.get target = [] ∧
      t.xb.stalled = [] ∧
      t.xb.ptr.get target = BitVec.ofNat 6 a.master.val) ∧
  (∀ (s : State) (target : Fin 26) (a : XbArrival), s.xb.held = [] → s.xb.stalled = [] → s.xb.waiting.get target = [] → s.xb.burst.get
    target = 0 → xbDecodes s target a = true → xbFenced s target = true →
    Runs (.xbArbitration target [a]) s [] fun t =>
      t.out = s.out ++ [.xbError a.master a.addr])

/-- Mailbox commands: taken, with data, resumed and aborted. A response goes out under the master of assumption 16. -/
def Obligations.MailboxCommands : Prop :=
  (∀ (s : State) (mb : Fin 16) (slot : Fin 512) (seqWord : BitVec 64), Takes s mb slot seqWord 1 → cxlMode s = true → earlierWrite s 33 =
    false →
    Runs (.mbNop mb slot seqWord) s [.page .ep, .page .fm, .mailboxes, .bar4, .cxl, .frz, .clusters, .dm, .page .dc, .page .lw, .page .mc, .scrubs, .slices] fun t =>
      Answered t mb seqWord 0 ∧
      t.out = s.out ++ [.hostWrite (BitVec.ofNat 64 (preg64 s .fm (mbOff mb + 8) + 64 * slot.val)) (natBytes 64 (respLine s
          (seqWord.setWidth 16) 0 0 (s.tide.step.toNat + s.tide.phase.toNat * 2 ^ 64)).toNat) false false] ∧
      (slLine s (lineOf true (preg64 s .fm (mbOff mb + 8) + 64 * slot.val)) = none → slMissing s (lineOf true (preg64 s .fm (mbOff mb + 8)
          + 64 * slot.val)) = false → t.dm = s.dm ∧ t.slices = s.slices ∧ t.clusters = s.clusters) ∧
      preg t .fm (mbOff mb + 0x14) = satAdd (preg s .fm (mbOff mb + 0x14)) 1) ∧
  (∀ (s : State) (mb : Fin 16) (slot : Fin 512) (seqWord : BitVec 64) (st : W16), slotIs s mb slot 1 = true → mbOn s mb = true → classify
    (s.mailbox mb) (seqWord.setWidth 16) = .dup (some st) →
    Runs (.mbNop mb slot seqWord) s [.page .ep, .page .fm, .mailboxes, .bar4, .cxl, .frz, .clusters, .dm, .page .dc, .page .lw, .page .mc, .scrubs, .slices] fun t =>
      t.mailbox mb = s.mailbox mb ∧
      preg t .fm (mbOff mb + 0x18) = satAdd (preg s .fm (mbOff mb + 0x18)) 1) ∧
  (∀ (s : State) (mb : Fin 16) (slot : Fin 512) (seqWord : BitVec 64), slotIs s mb slot 1 = true → mbOn s mb = false →
    Runs (.mbNop mb slot seqWord) s [.page .fm, .bar4, .clusters, .cxl, .dm, .frz, .mailboxes, .page .dc, .page .ep, .page .lw, .page .mc, .scrubs, .slices] fun t =>
      t.mailboxes = s.mailboxes ∧
      bit (preg t .fm 0x10) 1 = true) ∧
  (∀ (s : State) (mb : Fin 16) (slot : Fin 512) (seqWord : BitVec 64) (op : Nat), Takes s mb slot seqWord op → knownOps.contains op = false
    →
    Runs (.mbBadCmd mb slot seqWord) s [.page .ep, .page .fm, .mailboxes, .bar4, .cxl, .frz, .clusters, .dm, .page .dc, .page .lw, .page .mc, .scrubs, .slices] fun t =>
      Answered t mb seqWord 2) ∧
  (∀ (s : State) (mb : Fin 16) (slot : Fin 512) (seqWord : BitVec 64), Takes s mb slot seqWord 8 → (s.mailbox mb).taken = [] → streamBusy s
    33 mb.val = false →
    Runs (.mbFence mb slot seqWord) s [.page .ep, .page .fm, .mailboxes, .bar4, .cxl, .frz, .clusters, .dm, .page .dc, .page .lw, .page .mc, .scrubs, .slices] fun t =>
      Answered t mb seqWord 0 ∧
      (t.mailbox mb).taken = []) ∧
  (∀ (s : State) (mb : Fin 16) (slot : Fin 512) (seqWord : BitVec 64), Takes s mb slot seqWord 8 → (s.mailbox mb).taken ≠ [] → ((s.mailbox
    mb).taken.all fun u => decide (u.kind = .invalidate)) = true →
    Runs (.mbFence mb slot seqWord) s [.page .ep, .page .fm, .mailboxes, .bar4, .cxl, .frz, .clusters, .dm, .page .dc, .page .lw, .page .mc, .scrubs, .slices] fun t =>
      (t.mailbox mb).results.head? = some (seqWord.setWidth 16, none) ∧
      (t.mailbox mb).taken = (s.mailbox mb).taken ++ [⟨slot, seqWord.setWidth 16, .fence, true, [], false⟩]) ∧
  (∀ (s : State) (mb : Fin 16) (slot : Fin 512) (seqWord : BitVec 64) (host : BitVec 1024) (ue : List (BitVec 23)) (cl : Fin 16) (ctx : Fin
    16) (va : Nat) (x : Xlat) (desc : BitVec 1024) (rx : Xlat) (T : State) (L : State) (F : State), Takes s mb slot seqWord 2 → cl = fin 16
    (sArg0 (slotAfter s mb slot seqWord)) → va = sArg1 (slotAfter s mb slot seqWord) → va % 128 = 0 → clusterAllowed s mb cl.val = true → T
    = takenAt s mb slot seqWord → ctx = mb → bit (preg s (.cl cl) 0x200) 0 = true → (lookup T mb va 1 false (unitUe ue va)).2 = .ok x → L =
    (lookup T mb va 1 false (unitUe ue va)).1 → (fetchDesc L x va host).2 = (desc, false) → F = (fetchDesc L x va host).1 → bit (preg F
    (.cl cl) 0x200) 0 = true → descOk desc (fun id => coreAllowed T mb id) = true → mFlagEn desc = false → (lookup F ctx (mCompl desc) 2
    false (unitUe ue (mCompl desc))).2 = .ok rx → (cutFrom (lookup F ctx (mCompl desc) 2 false (unitUe ue (mCompl desc))).1 ctx desc
    (segLimit (lookup F ctx (mCompl desc) 2 false (unitUe ue (mCompl desc))).1 ctx desc) 0 (mTotal desc) ue).2.fail = none → (mQueueOf s cl
    (mQueue desc)).length < 32 →
    Runs (.mbSubmit mb slot seqWord host ue) s [.page .vt, .page .lw, .page .ep, .page .fm, .page .dc, .page .cl, .page .mc, .clusters, .mailboxes, .bar4, .dm, .slices, .cxl, .frz, .scrubs] fun t =>
      Answered t mb seqWord 0 ∧
      (mQueueOf t cl (mQueue desc)).length = (mQueueOf s cl (mQueue desc)).length + 1 ∧
      ((mQueueOf t cl (mQueue desc)).getLast?.map fun m => (m.no, m.ctx, m.core)) = some (nextNo ((s.mover cl).last.get (mQueue desc)),
          ctx, none) ∧
      ((mQueueOf t cl (mQueue desc)).getLast?.map fun m => (m.desc, m.started, m.done)) = some (desc, false, 0) ∧
      (t.mover cl).last.get (mQueue desc) = nextNo ((s.mover cl).last.get (mQueue desc))) ∧
  (∀ (s : State) (mb : Fin 16) (slot : Fin 512) (seqWord : BitVec 64) (host : BitVec 1024) (ue : List (BitVec 23)), Takes s mb slot seqWord
    2 → sArg1 (slotAfter s mb slot seqWord) % 128 ≠ 0 →
    Runs (.mbSubmit mb slot seqWord host ue) s [.page .vt, .page .lw, .page .ep, .page .fm, .page .dc, .page .cl, .page .mc, .clusters, .mailboxes, .bar4, .dm, .slices, .cxl, .frz, .scrubs] fun t =>
      Answered t mb seqWord 2 ∧
      t.clusters = s.clusters) ∧
  (∀ (s : State) (mb : Fin 16) (slot : Fin 512) (seqWord : BitVec 64) (ue : List (BitVec 23)) (len : Nat) (va : Nat) (pa : Nat) (x : Xlat),
    Takes s mb slot seqWord 3 → len = sArg0 (slotAfter s mb slot seqWord) % 128 → va = sArg1 (slotAfter s mb slot seqWord) → 1 ≤ len → len
    ≤ 96 → unitUe ue va = false → (s.mailbox mb).taken = [] → streamBusy s 33 mb.val = false → lookupEnd s mb va 2 false = .ok x → x.kind =
    0 → pa = x.phys va → pa % 64 + len ≤ 64 → pa < dmSize → x.covers (va + len - 1) = true → PlainLine s (lineOf false pa) →
    Runs (.mbWriteInline mb slot seqWord ue) s [.page .vt, .page .lw, .page .ep, .page .fm, .page .dc, .page .mc, .clusters, .mailboxes, .bar4, .dm, .slices, .cxl, .frz, .scrubs] fun t =>
      Answered t mb seqWord 0 ∧
      readBytes t.dm pa len = natBytes len (sPayload (slotAfter s mb slot seqWord)) ∧
      (∀ a, a < pa ∨ pa + len ≤ a → sget (fun _ => 0) t.dm a = sget (fun _ => 0) s.dm a)) ∧
  (∀ (s : State) (mb : Fin 16) (slot : Fin 512) (seqWord : BitVec 64) (id : Fin 256) (len : Nat) (b : Fin 16), Takes s mb slot seqWord 4 →
    id = sCore (slotAfter s mb slot seqWord) → len = sArg0 (slotAfter s mb slot seqWord) / 2 ^ 16 % 128 → b = fin 16 (sArg0 (slotAfter s mb
    slot seqWord)) → 1 ≤ len → len ≤ 96 → coreAllowed s mb id = true → (s.core id).st ≠ .reset → (s.core id).st ≠ .fenced → ((s.core
    id).berths.get b).st = .empty →
    Runs (.mbInject mb slot seqWord) s [.page .ep, .page .fm, .page .sd, .page .gc, .cores, .sd, .mailboxes, .bar4, .cxl, .frz, .clusters, .dm, .page .dc, .page .lw, .page .mc, .scrubs, .slices] fun t =>
      Answered t mb seqWord 0 ∧
      (t.core id).berths.get b = ⟨.full, 0xFFFF, 0, 0, BitVec.ofNat 13 len, BitVec.ofNat 32 (sArg2 (slotAfter s mb slot seqWord)), none,
          true, tickNow s⟩) ∧
  (∀ (s : State) (mb : Fin 16) (slot : Fin 512) (seqWord : BitVec 64) (id : Fin 256), Takes s mb slot seqWord 5 → id = sCore (slotAfter s
    mb slot seqWord) → coreAllowed s mb id = true → (s.core id).st = .run → (s.core id).waits = [] →
    Runs (.mbKick mb slot seqWord) s [.page .ep, .page .fm, .page .sd, .cores, .sd, .mailboxes, .bar4, .cxl, .frz, .clusters, .dm, .page .dc, .page .lw, .page .mc, .scrubs, .slices] fun t =>
      Answered t mb seqWord 0 ∧
      t.core id = { s.core id with events := (s.core id).events ||| one32 (fld (slotAfter s mb slot seqWord) 9 5) }) ∧
  (∀ (s : State) (mb : Fin 16) (slot : Fin 512) (seqWord : BitVec 64) (ue : List (BitVec 23)) (cl : Fin 16) (q : Fin 4) (i : Nat) (m :
    Manifest) (T : State), Takes s mb slot seqWord 6 → cl = fin 16 (sArg0 (slotAfter s mb slot seqWord)) → q = fin 4 (sArg0 (slotAfter s mb
    slot seqWord) / 16) → clusterAllowed s mb cl.val = true → haltedOf (mQueueOf s cl q) = some (i, m) → T = takenAt s mb slot seqWord →
    (cutFrom T m.ctx m.desc m.limit m.done (mTotal m.desc) ue).2.count ≠ 0 →
    Runs (.mbResume mb slot seqWord ue) s [.page .vt, .page .ep, .page .fm, .clusters, .mailboxes, .bar4, .cxl, .frz, .dm, .page .dc, .page .lw, .page .mc, .scrubs, .slices] fun t =>
      Answered t mb seqWord 0 ∧
      ((mQueueOf t cl q)[i]?.map fun x => (x.halted, x.done)) = some (false, m.done)) ∧
  (∀ (s : State) (mb : Fin 16) (slot : Fin 512) (seqWord : BitVec 64) (ue : List (BitVec 23)) (cl : Fin 16) (q : Fin 4), Takes s mb slot
    seqWord 6 → cl = fin 16 (sArg0 (slotAfter s mb slot seqWord)) → q = fin 4 (sArg0 (slotAfter s mb slot seqWord) / 16) → clusterAllowed s
    mb cl.val = true → haltedOf (mQueueOf s cl q) = none →
    Runs (.mbResume mb slot seqWord ue) s [.page .vt, .page .ep, .page .fm, .clusters, .mailboxes, .bar4, .cxl, .frz, .dm, .page .dc, .page .lw, .page .mc, .scrubs, .slices] fun t =>
      Answered t mb seqWord 7 ∧
      t.clusters = s.clusters) ∧
  (∀ (s : State) (mb : Fin 16) (slot : Fin 512) (seqWord : BitVec 64) (cl : Fin 16) (q : Fin 4) (i : Nat) (m : Manifest) (pa : Nat), Takes
    s mb slot seqWord 7 → cl = fin 16 (sArg0 (slotAfter s mb slot seqWord)) → q = fin 4 (sArg0 (slotAfter s mb slot seqWord) / 16) →
    clusterAllowed s mb cl.val = true → haltedOf (mQueueOf s cl q) = some (i, m) → ((mQueueOf s cl q).all fun x => x.ending.isNone) = true
    → ((dropAt (mQueueOf s cl q) i).any fun x => decide (x.no = m.no)) = false → streamBusy s (16 + cl.val) q.val = false → (s.mailbox
    mb).taken = [] → m.recX.kind = 0 → pa = m.recX.phys (mCompl m.desc) → pa < dmSize → pa % 64 = 0 → PlainLine s m.recLine →
    Runs (.mbAbort mb slot seqWord) s [.bar4, .clusters, .cores, .cxl, .dm, .frz, .mailboxes, .page .cl, .page .dc, .page .ep, .page .fm, .page .lw, .page .mc, .page .sd, .scrubs, .sd, .slices] fun t =>
      Answered t mb seqWord 0 ∧
      mQueueOf t cl q = dropAt (mQueueOf s cl q) i ∧
      readBytes t.dm pa 64 = natBytes 64 (record s cl q m 3 0).toNat ∧
      preg t (.cl cl) 0x228 = satAdd (preg s (.cl cl) 0x228) 1) ∧
  (∀ (s : State) (mb : Fin 16) (slot : Fin 512) (seqWord : BitVec 64) (cl : Fin 16) (q : Fin 4), Takes s mb slot seqWord 7 → cl = fin 16
    (sArg0 (slotAfter s mb slot seqWord)) → q = fin 4 (sArg0 (slotAfter s mb slot seqWord) / 16) → clusterAllowed s mb cl.val = true →
    haltedOf (mQueueOf s cl q) = none →
    Runs (.mbAbort mb slot seqWord) s [.bar4, .clusters, .cores, .cxl, .dm, .frz, .mailboxes, .page .cl, .page .dc, .page .ep, .page .fm, .page .lw, .page .mc, .page .sd, .scrubs, .sd, .slices] fun t =>
      Answered t mb seqWord 7 ∧
      mQueueOf t cl q = mQueueOf s cl q)

/-- Table writes, drains and mapping fills. The order of the reasons is assumption 19. -/
def Obligations.Translation : Prop :=
  (∀ (s : State) (mb : Fin 16) (slot : Fin 512) (seqWord : BitVec 64) (gen : W32) (va : Nat) (n : Nat) (big : Bool) (es : List W64), Takes
    s mb slot seqWord 0x10 → gen = BitVec.ofNat 32 (sArg0 (slotAfter s mb slot seqWord)) → va = sArg1 (slotAfter s mb slot seqWord) → n =
    sArg2 (slotAfter s mb slot seqWord) % 16 → big = decide (sArg2 (slotAfter s mb slot seqWord) / 256 % 2 = 1) → es = tblEntries (sPayload
    (slotAfter s mb slot seqWord)) n → tblReason s mb gen va n big es = none →
    Runs (.tblWrite mb slot seqWord) s [.page .vt, .page .ep, .page .fm, .mailboxes, .bar4, .ctxs, .cxl, .frz, .clusters, .dm, .page .dc, .page .lw, .page .mc, .scrubs, .slices] fun t =>
      Answered t mb seqWord 0 ∧
      t.ctxs = s.ctxs.set mb { tblPut (s.ctxs.get mb) (va / pageBytes big) big es with gen := gen }) ∧
  (∀ (s : State) (mb : Fin 16) (slot : Fin 512) (seqWord : BitVec 64) (gen : W32) (va : Nat) (n : Nat) (big : Bool) (es : List W64) (r :
    Nat), Takes s mb slot seqWord 0x10 → gen = BitVec.ofNat 32 (sArg0 (slotAfter s mb slot seqWord)) → va = sArg1 (slotAfter s mb slot
    seqWord) → n = sArg2 (slotAfter s mb slot seqWord) % 16 → big = decide (sArg2 (slotAfter s mb slot seqWord) / 256 % 2 = 1) → es =
    tblEntries (sPayload (slotAfter s mb slot seqWord)) n → tblReason s mb gen va n big es = some r →
    Runs (.tblWrite mb slot seqWord) s [.page .vt, .page .ep, .page .fm, .mailboxes, .bar4, .ctxs, .cxl, .frz, .clusters, .dm, .page .dc, .page .lw, .page .mc, .scrubs, .slices] fun t =>
      Answered t mb seqWord 2 ∧
      t.ctxs = s.ctxs) ∧
  (∀ (s : State) (mb : Fin 16) (slot : Fin 512) (seqWord : BitVec 64) (a : Nat) (b : Nat), Takes s mb slot seqWord 0x11 → invRange
    (slotAfter s mb slot seqWord) = some (a, b) → ((s.mailbox mb).taken.all fun u => decide (u.kind = .invalidate)) = true →
    Runs (.invalidate mb slot seqWord) s [.page .vt, .page .ep, .page .fm, .page .sd, .cores, .sd, .clusters, .mailboxes, .bar4, .drains, .cxl, .frz, .dm, .page .dc, .page .lw, .page .mc, .scrubs, .slices] fun t =>
      t.drains.length = s.drains.length + 1 ∧
      (t.drains.getLast?.map fun d => (d.ctx, d.first, d.last, d.ending, d.begun)) = some (mb, a, b, .answer mb slot (seqWord.setWidth 16),
          true) ∧
      (t.mailbox mb).taken = (s.mailbox mb).taken ++ [⟨slot, seqWord.setWidth 16, .invalidate, true, [], false⟩]) ∧
  (∀ (s : State) (mb : Fin 16) (slot : Fin 512) (seqWord : BitVec 64), Takes s mb slot seqWord 0x11 → invRange (slotAfter s mb slot
    seqWord) = none →
    Runs (.invalidate mb slot seqWord) s [.page .vt, .page .ep, .page .fm, .page .sd, .cores, .sd, .clusters, .mailboxes, .bar4, .drains, .cxl, .frz, .dm, .page .dc, .page .lw, .page .mc, .scrubs, .slices] fun t =>
      Answered t mb seqWord 2 ∧
      t.drains = s.drains) ∧
  (∀ (s : State) (v : W32), Starts s .vt 0x104 8 v →
    Runs (.vtClear v) s [.page .vt, .drains] fun t =>
      t.drains.length = s.drains.length + 1 ∧
      (t.drains.getLast?.map fun d => (d.ctx, d.first, d.last, d.ending, d.begun)) = some (fin 16 (fld v 0 4), 0, lastUnit, .clear,
          !(draining s (fin 16 (fld v 0 4)).val)) ∧
      bit (preg t .vt 0x104) 8 = true) ∧
  (∀ (s : State) (v : W32), Unlocked s .vt → preg s .vt 0x100 &&& ~~~v = 0 →
    Runs (.vtCtxEnWrite v) s [.page .vt] fun t =>
      fld (preg t .vt 0x100) 0 16 = fld v 0 16) ∧
  (∀ (s : State) (m : Fin 16), Unlocked s .vt → preg s .vt 0x100 = one32 m.val →
    Runs (.vtCtxEnWrite 0) s [.page .vt, .drains] fun t =>
      t.drains.length = s.drains.length + 1 ∧
      (t.drains.getLast?.map fun d => (d.ctx, d.ending, d.begun)) = some (m, .disable, true) ∧
      (t.drains.getLast?.map fun d => d.hit) = some (drainHits s m 0 lastUnit) ∧
      bit (preg t .vt 0x100) m.val = true) ∧
  (∀ (s : State) (i : Nat) (ue : List (BitVec 23)) (d : Drain), s.drains[i]? = some d → drainReady s d = true → d.begun = true → d.hit = []
    → d.ending = .disable →
    Runs (.invalidateComplete i ue) s [.page .vt, .page .sd, .cores, .sd, .drains, .clusters, .ctxs, .cxl, .dm, .frz, .mailboxes, .page .dc, .page .ep, .page .lw, .page .mc, .scrubs, .slices] fun t =>
      t.drains.map (fun x => (x.ctx, x.first, x.last, x.ending)) = (dropAt s.drains i).map (fun x => (x.ctx, x.first, x.last, x.ending)) ∧
      bit (preg t .vt 0x100) d.ctx.val = false ∧
      (∀ id k, k ∈ drainSlots s id d → (t.core id).slots.get k = mapSlotReset)) ∧
  (∀ (s : State) (i : Nat) (ue : List (BitVec 23)) (d : Drain), s.drains[i]? = some d → drainReady s d = true → d.begun = true → d.hit = []
    → d.ending = .clear → ((s.drains.take i).any fun e => decide (e.ctx = d.ctx)) = false →
    Runs (.invalidateComplete i ue) s [.page .vt, .page .sd, .cores, .sd, .drains, .ctxs, .clusters, .cxl, .dm, .frz, .mailboxes, .page .dc, .page .ep, .page .lw, .page .mc, .scrubs, .slices] fun t =>
      t.drains.map (fun x => (x.ctx, x.first, x.last, x.ending)) = (dropAt s.drains i).map (fun x => (x.ctx, x.first, x.last, x.ending)) ∧
      t.ctxs.get d.ctx = vtCtxReset ∧
      bit (preg t .vt 0x104) 8 = false) ∧
  (∀ (s : State) (core : Fin 256) (slot : Fin 16) (ctx : Fin 16) (x : MapSlot) (e : Xlat), stopped s = false → x = (s.core core).slots.get
    slot → x.st = .pending → ctx = fin 16 (ctxOfPart s (partOf s core)) → draining s ctx.val = false → (s.core core).waits = [] → lookupEnd
    s ctx x.req.toNat x.reqRights false = .ok e →
    Runs (.mapFillComplete core slot false) s [.page .vt, .page .sd, .cores, .sd] fun t =>
      (t.core core).slots.get slot = { mapSlotReset with
          st := .valid, base := e.va, big := e.big, kind := e.kind, pa := e.pa, rights := x.reqRights, gen := (s.ctxs.get ctx).gen } ∧
      preg t .vt 0x120 = satAdd (preg s .vt 0x120) 1) ∧
  (∀ (s : State) (core : Fin 256) (slot : Fin 16) (ctx : Fin 16) (x : MapSlot) (rd : BitVec 5), stopped s = false → x = (s.core
    core).slots.get slot → x.st = .pending → ctx = fin 16 (ctxOfPart s (partOf s core)) → draining s ctx.val = false → (s.core core).waits
    = [.mapW rd slot] → (s.core core).st = .wait → lookupEnd s ctx x.req.toNat x.reqRights false = .notMapped →
    Runs (.mapFillComplete core slot false) s [.page .vt, .page .sd, .cores, .sd] fun t =>
      ((t.core core).slots.get slot).st = .failed ∧
      (t.core core).st = .run ∧
      (t.core core).waits = [] ∧
      (rd ≠ 0 → (t.core core).s rd = 1) ∧
      preg t .vt 0x124 = satAdd (preg s .vt 0x124) 1) ∧
  (∀ (s : State) (i : Nat) (d : Drain) (ue : List (BitVec 23)) (m : Manifest), s.drains[i]? = some d → drainReady s d = true → d.begun =
    true → d.ending = .clear → d.hit = [(2, 0, m.no)] → mQueueOf s 2 0 = [m] → drainKind m d.ctx d.first d.last = .orphan → bit m.desc 16 =
    false →
    Runs (.invalidateComplete i ue) s [.clusters, .cores, .ctxs, .cxl, .dm, .drains, .frz, .mailboxes, .page .dc, .page .ep, .page .lw, .page .mc, .page .sd, .page .vt, .scrubs, .sd, .slices] fun t =>
      mQueueOf t 2 0 = [] ∧
      bit (preg t .vt 0x10) 2 = true ∧
      t.dm = s.dm)

/-- A global access of a core completes. An access that no cache serves acts at home (assumption 15). -/
def Obligations.GlobalAccesses : Prop :=
  (∀ (s : State) (core : Fin 256) (i : Nat) (a : GAccess) (res : HostAnswer) (n : Nat), stopped s = false → (s.core core).access[i]? = some
    a → a.sent = false → accessInOrder (s.core core) i a = true → a.kind = .store n → n ∈ [1, 2, 4, 8] → a.host = false → (s.cl (clusterOf
    core)).cc.enabled = false → a.pa.toNat < dmSize → a.pa.toNat % n = 0 → PlainLine s (lineOf false a.pa.toNat) → (s.core core).waits = []
    →
    Runs (.globalAccessComplete core i res) s [.page .lw, .page .ep, .page .ml, .page .sd, .page .dc, .page .cl, .page .mc, .page .gc, .cores, .locks, .sd, .clusters, .dm, .slices, .cxl, .frz, .scrubs] fun t =>
      readBytes t.dm a.pa.toNat n = natBytes n a.data.toNat ∧
      (t.core core).access = dropAt (s.core core).access i ∧
      (t.core core).sreg = (s.core core).sreg) ∧
  (∀ (s : State) (core : Fin 256) (i : Nat) (a : GAccess) (res : HostAnswer) (rd : BitVec 5) (n : Nat), stopped s = false → (s.core
    core).access[i]? = some a → a.sent = false → accessInOrder (s.core core) i a = true → a.kind = .load rd n false → n ∈ [1, 2, 4, 8] →
    a.host = false → (s.cl (clusterOf core)).cc.enabled = false → a.pa.toNat < dmSize → a.pa.toNat % n = 0 → PlainLine s (lineOf false
    a.pa.toNat) → (s.core core).waits = [] →
    Runs (.globalAccessComplete core i res) s [.page .dc, .page .mc, .cores] fun t =>
      t.core core = ({ s.core core with access := dropAt (s.core core).access i }).setS rd (BitVec.ofNat 64 (bytesNat (readBytes s.dm
          a.pa.toNat n)))) ∧
  (∀ (s : State) (core : Fin 256) (i : Nat) (a : GAccess) (res : HostAnswer) (rd : BitVec 5) (n : Nat) (sg : Bool), stopped s = false →
    (s.core core).access[i]? = some a → a.sent = false → accessInOrder (s.core core) i a = true → a.kind = .load rd n sg → a.host = true →
    res.error = true → (s.core core).st = .run → (s.core core).waits = [] →
    Runs (.globalAccessComplete core i res) s [.page .lw, .page .ep, .page .ml, .page .sd, .page .dc, .page .cl, .page .mc, .page .gc, .cores, .locks, .sd, .clusters, .dm, .slices, .cxl, .frz, .scrubs] fun t =>
      (t.core core).st = .halt ∧
      (t.core core).exc = 0x09 ∧
      (t.core core).excPc = a.pc ∧
      (t.core core).access = dropAt (s.core core).access i)

/-- Lines of a cluster cache: missed, granted, filled, replaced, snooped. -/
def Obligations.ClusterCacheLines : Prop :=
  (∀ (s : State) (cl : Fin 16) (l : Line) (res : HostAnswer), (s.cl cl).cc.enabled = true → ccLine s cl l = none → ((s.cl cl).cc.misses.any
    fun m => decide (m.line = l)) = false → (s.cl cl).cc.misses.length < 64 → PlainLine s l → (s.slice (homeOf l)).lines = [] →
    Runs (.rds cl l res .none) s [.page .lw, .page .ep, .page .dc, .page .cl, .page .mc, .clusters, .dm, .slices, .cxl, .frz, .scrubs] fun t =>
      (t.cl cl).cc.misses = (s.cl cl).cc.misses ++ [⟨l, [(fin 58 cl.val, none)], some ⟨.e, (memLine s l.num.toNat).1, 0, 0⟩⟩] ∧
      (slGet t l).presence = setBit 0 cl.val true ∧
      (slGet t l).owned = true ∧
      t.dm = s.dm) ∧
  (∀ (s : State) (cl : Fin 16) (l : Line) (res : HostAnswer) (k : Fin 16) (e : SLine) (x : CLine), (s.cl cl).cc.enabled = true → ccLine s
    cl l = none → ((s.cl cl).cc.misses.any fun m => decide (m.line = l)) = false → (s.cl cl).cc.misses.length < 64 → HomeFree s l → slLine
    s l = some e → e.h = .none → e.owned = true → e.sharers = [k] → ccLine s k l = some x → x.st = .e →
    Runs (.rds cl l res .none) s [.page .lw, .page .ep, .page .dc, .page .cl, .page .mc, .clusters, .dm, .slices, .cxl, .frz, .scrubs] fun t =>
      ((t.cl cl).cc.misses.getLast?.bind fun m => m.grant) = some ⟨.f, x.data, x.poison, 0⟩ ∧
      ccLine t k l = some { x with st := .s } ∧
      (slGet t l).presence = setBit e.presence cl.val true ∧
      (slGet t l).owned = false ∧
      (slGet t l).fwd = some cl) ∧
  (∀ (s : State) (cl : Fin 16) (l : Line) (res : HostAnswer), (s.cl cl).cc.enabled = true → ccLine s cl l = none → ((s.cl cl).cc.misses.any
    fun m => decide (m.line = l)) = false → (s.cl cl).cc.misses.length < 64 → PlainLine s l → (s.slice (homeOf l)).lines = [] →
    Runs (.rdo cl l res) s [.page .lw, .page .ep, .page .dc, .page .cl, .page .mc, .clusters, .dm, .slices, .cxl, .frz, .scrubs] fun t =>
      (t.cl cl).cc.misses = (s.cl cl).cc.misses ++ [⟨l, [(fin 58 cl.val, none)], some ⟨.m, (memLine s l.num.toNat).1, 0, 0⟩⟩] ∧
      (slGet t l).presence = setBit 0 cl.val true ∧
      (slGet t l).owned = true) ∧
  (∀ (s : State) (cl : Fin 16) (l : Line) (res : HostAnswer) (k : Fin 16) (e : SLine) (x : CLine), (s.cl cl).cc.enabled = true → ccLine s
    cl l = none → ((s.cl cl).cc.misses.any fun m => decide (m.line = l)) = false → (s.cl cl).cc.misses.length < 64 → HomeFree s l → slLine
    s l = some e → e.h = .none → e.owned = true → e.sharers = [k] → ccLine s k l = some x → x.st = .e → e.data = none → ((setEntries
    (s.slice (homeOf l)) (slSetOf (lineKey l))).filter fun y => decide (y.1 ≠ lineKey l)) = [] →
    Runs (.rdo cl l res) s [.page .lw, .page .ep, .page .dc, .page .cl, .page .mc, .clusters, .dm, .slices, .cxl, .frz, .scrubs] fun t =>
      ((t.cl cl).cc.misses.getLast?.bind fun m => m.grant) = some ⟨.m, x.data, x.poison, 0⟩ ∧
      ccLine t k l = none ∧
      (slGet t l).presence = setBit 0 cl.val true ∧
      (slGet t l).owned = true) ∧
  (∀ (s : State) (cl : Fin 16) (l : Line) (res : HostAnswer) (e : SLine) (x : CLine), (s.cl cl).cc.enabled = true → ((s.cl
    cl).cc.misses.any fun m => decide (m.line = l)) = false → (s.cl cl).cc.misses.length < 64 → HomeFree s l → slLine s l = some e → e.h =
    .none → e.owned = false → e.sharers = [cl] → ccLine s cl l = some x → x.st = .s →
    Runs (.upg cl l res) s [.page .lw, .page .ep, .page .dc, .page .cl, .page .mc, .clusters, .dm, .slices, .cxl, .frz, .scrubs] fun t =>
      ((t.cl cl).cc.misses.getLast?.bind fun m => m.grant) = some { x with st := .m } ∧
      (slGet t l).owned = true ∧
      (slGet t l).fwd = none ∧
      (slGet t l).presence = setBit 0 cl.val true) ∧
  (∀ (s : State) (cl : Fin 16) (l : Line) (x : CLine), ccLine s cl l = some x → x.st = .m → x.poison = 0 → (slGet s l).h = .none → l.host =
    false → (s.slice (homeOf l)).enabled = false → fenced s (.mc (stackOf s (64 * l.num.toNat))) = false →
    Runs (.wb cl l) s [.page .lw, .page .ep, .page .dc, .page .mc, .clusters, .dm, .slices, .cxl, .frz, .scrubs] fun t =>
      ccLine t cl l = none ∧
      (slGet t l).presence.getLsbD cl.val = false ∧
      readBytes t.dm (64 * l.num.toNat) 64 = natBytes 64 x.data.toNat ∧
      granPoison t (2 * l.num.toNat) = false) ∧
  (∀ (s : State) (cl : Fin 16) (l : Line) (x : CLine), ccLine s cl l = some x → (x.st = .e ∨ x.st = .f) →
    Runs (.cleanNotice cl l) s [.clusters, .slices] fun t =>
      ccLine t cl l = none ∧
      (slGet t l).presence.getLsbD cl.val = false ∧
      ((slGet t l).fwd ≠ some cl ∨ (slGet s l).presence.getLsbD cl.val = false)) ∧
  (∀ (s : State) (cl : Fin 16) (l : Line) (x : CLine), ccLine s cl l = some x → (x.st = .e ∨ x.st = .f) →
    Runs (.forwardRequest cl l false) s [.clusters, .slices] fun t =>
      ccLine t cl l = some { x with st := .s } ∧
      (slGet t l).owned = false ∧
      (slGet t l).fwd ≠ some cl) ∧
  (∀ (s : State) (cl : Fin 16) (l : Line) (x : CLine), ccLine s cl l = some x → x.st = .m → x.poison = 0 → l.host = false → (s.slice
    (homeOf l)).enabled = false → fenced s (.mc (stackOf s (64 * l.num.toNat))) = false →
    Runs (.forwardRequest cl l false) s [.page .lw, .page .ep, .page .dc, .page .mc, .clusters, .dm, .slices, .cxl, .frz, .scrubs] fun t =>
      ccLine t cl l = some { x with st := .s } ∧
      readBytes t.dm (64 * l.num.toNat) 64 = natBytes 64 x.data.toNat) ∧
  (∀ (s : State) (cl : Fin 16) (l : Line) (x : CLine), ccLine s cl l = some x → x.st ≠ .m →
    Runs (.snoopInvalidate cl l) s [.clusters, .slices] fun t =>
      ccLine t cl l = none ∧
      (slGet t l).presence.getLsbD cl.val = false) ∧
  (∀ (s : State) (cl : Fin 16) (l : Line) (x : CLine), ccLine s cl l = some x → x.st = .m → x.poison = 0 → l.host = false → (s.slice
    (homeOf l)).enabled = false → fenced s (.mc (stackOf s (64 * l.num.toNat))) = false →
    Runs (.snoopInvalidate cl l) s [.page .lw, .page .ep, .page .dc, .page .mc, .clusters, .dm, .slices, .cxl, .frz, .scrubs] fun t =>
      ccLine t cl l = none ∧
      readBytes t.dm (64 * l.num.toNat) 64 = natBytes 64 x.data.toNat) ∧
  (∀ (s : State) (cl : Fin 16) (l : Line) (way : Fin 16) (res : HostAnswer) (ms : List (Fin 58 × Option (Fin 256))) (g : CLine), (s.cl
    cl).cc.enabled = true → (s.cl cl).cc.misses = [⟨l, ms, some g⟩] → ccLine s cl l = none → (ccWays s cl).contains way.val = true → ((s.cl
    cl).cc.lines.any fun e => decide (ccSetOf e.1 = ccSetOf (lineKey l))) = false → (ms.all fun r => r.2.isNone) = true →
    Settles (.cacheFill (.cluster cl) l way res .none) s [.clusters] fun t =>
      ccLine t cl l = some { g with way := BitVec.ofNat 4 way.val } ∧
      (t.cl cl).cc.misses = [] ∧
      (t.out = s.out ++ ms.map fun r => .answer r.1 l g.data g.poison)) ∧
  (∀ (s : State) (l : Line) (way : Fin 16) (res : HostAnswer) (ms : List (Fin 58 × Option (Fin 256))), l.host = false → (s.slice (homeOf
    l)).enabled = true → (s.slice (homeOf l)).misses = [⟨l, ms, none⟩] → (s.slice (homeOf l)).lines = [] → (slWays s (homeOf l)).contains
    way.val = true → (ms.all fun r => r.2.isNone) = true →
    Settles (.cacheFill (.slice (homeOf l)) l way res .none) s [.slices] fun t =>
      (slGet t l).data = some (memLine s l.num.toNat).1 ∧
      (slGet t l).way = BitVec.ofNat 4 way.val ∧
      (slGet t l).poison = (memLine s l.num.toNat).2 ∧
      (slGet t l).dirty = false ∧
      t.out = s.out ++ ms.map (fun r => .answer r.1 l (memLine s l.num.toNat).1 (memLine s l.num.toNat).2) ∧
      (t.slice (homeOf l)).misses = []) ∧
  (∀ (s : State) (cl : Fin 16) (l : Line) (x : CLine), ccLine s cl l = some x → (x.st = .e ∨ x.st = .f) →
    Runs (.forwardRequest cl l true) s [.clusters, .slices] fun t =>
      ccLine t cl l = none ∧
      (slGet t l).presence = (slGet s l).presence ∧
      (slGet t l).fwd ≠ some cl) ∧
  (∀ (s : State) (cl : Fin 16) (l : Line) (ms : List (Fin 58 × Option (Fin 256))) (g : CLine), (s.cl cl).cc.misses = [⟨l, ms, some g⟩] →
    ccLine s cl l = none → (s.slice (homeOf l)).retries = [] →
    Runs (.snoopInvalidate cl l) s [.clusters, .slices] fun t =>
      (t.cl cl).cc.misses = [⟨l, ms, none⟩] ∧
      (t.slice (homeOf l)).retries = [⟨l, fin 58 cl.val, 1, false⟩] ∧
      (slGet t l).presence.getLsbD cl.val = false) ∧
  (∀ (s : State) (cl : Fin 16) (l : Line) (res : HostAnswer), (s.cl cl).cc.enabled = true → ccLine s cl l = none → ((s.cl cl).cc.misses.any
    fun m => decide (m.line = l)) = false → (s.cl cl).cc.misses.length < 64 → l.host = false → lineBusy s l = true → (s.slice (homeOf
    l)).retries = [] →
    Runs (.rds cl l res .none) s [.page .cl, .clusters, .slices] fun t =>
      (t.cl cl).cc.misses = (s.cl cl).cc.misses ++ [⟨l, [(fin 58 cl.val, none)], none⟩] ∧
      (t.slice (homeOf l)).retries = [⟨l, fin 58 cl.val, 0, false⟩] ∧
      slGet t l = slGet s l)

/-- Reads and writes that no cache keeps are served at home. -/
def Obligations.HomeAccesses : Prop :=
  (∀ (s : State) (master : Fin 58) (l : Line) (res : HostAnswer), PlainLine s l →
    Runs (.rdcur master l res) s [.page .dc, .page .mc] fun t =>
      t.out = s.out ++ [.answer master l (memLine s l.num.toNat).1 0] ∧
      preg t (dcPage l) 0x11C = satAdd (preg s (dcPage l) 0x11C) 1 ∧
      t.fresh = s.fresh) ∧
  (∀ (s : State) (master : Fin 58) (l : Line) (res : HostAnswer) (k : Fin 16) (e : SLine) (x : CLine), HomeFree s l → (s.slice (homeOf
    l)).enabled = false → fenced s (.mc (stackOf s (64 * l.num.toNat))) = false → slLine s l = some e → e.h = .none → e.owned = true →
    e.sharers = [k] → ccLine s k l = some x → x.st = .m → x.poison = 0 →
    Runs (.rdcur master l res) s [.page .lw, .page .ep, .page .dc, .page .mc, .clusters, .dm, .slices, .cxl, .frz, .scrubs] fun t =>
      t.out = s.out ++ [.answer master l x.data 0] ∧
      ccLine t k l = some { x with st := .e } ∧
      readBytes t.dm (64 * l.num.toNat) 64 = natBytes 64 x.data.toNat) ∧
  (∀ (s : State) (master : Fin 58) (l : Line) (data : BitVec 512), PlainLine s l →
    Runs (.wrinv master l data) s [.page .lw, .page .ep, .page .dc, .page .mc, .clusters, .dm, .slices, .cxl, .frz, .scrubs] fun t =>
      readBytes t.dm (64 * l.num.toNat) 64 = natBytes 64 data.toNat ∧
      (∀ a, a / 64 ≠ l.num.toNat → sget (fun _ => 0) t.dm a = sget (fun _ => 0) s.dm a)) ∧
  (∀ (s : State) (master : Fin 58) (l : Line) (data : BitVec 512) (mask : BitVec 64) (res : HostAnswer), PlainLine s l → mask ≠ 0 →
    Runs (.wrpart master l data mask res) s [.page .lw, .page .ep, .page .dc, .page .mc, .clusters, .dm, .slices, .cxl, .frz, .scrubs] fun t =>
      readBytes t.dm (64 * l.num.toNat) 64 = natBytes 64 (mergeLine (memLine s l.num.toNat).1 data mask).toNat) ∧
  (∀ (s : State) (n : Fin 16) (l : Line) (master : Fin 58) (r : Retry), (s.slice n).retries = [r] → r.line = l → r.master = master →
    r.escalated = false → fld (preg s (.dc n) 0x10C) 0 4 ≤ (satAdd r.age 1).toNat →
    Runs (.requestRetry n l master) s [.page .dc, .slices] fun t =>
      (t.slice n).retries = [{ r with age := satAdd r.age 1, escalated := true }] ∧
      preg t (.dc n) 0x124 = satAdd (preg s (.dc n) 0x124) 1) ∧
  (∀ (s : State) (n : Fin 16) (l : Line) (master : Fin 58) (r : Retry), (s.slice n).retries = [r] → r.line = l → r.master = master →
    r.escalated = true →
    Runs (.dcStarve n l master) s [.page .dc] fun t =>
      bit (preg t (.dc n) 0x10) 6 = true)

/-- FLUSH, INV and the enable of a cache. -/
def Obligations.CacheControl : Prop :=
  (∀ (s : State) (cl : Fin 16) (v : W32), Starts s (.cl cl) 0x100 1 v → bit v 2 = false → bit v 0 = bit (preg s (.cl cl) 0x100) 0 →
    Runs (.ccFlush cl v) s [.page .cl, .clusters] fun t =>
      (t.cl cl).cc.clearing = some true ∧
      bit (preg t (.cl cl) 0x100) 1 = true) ∧
  (∀ (s : State) (cl : Fin 16) (v : W32), Starts s (.cl cl) 0x100 2 v → bit v 1 = false → bit v 0 = bit (preg s (.cl cl) 0x100) 0 → (s.cl
    cl).cc.enabled = false → (s.cl cl).cc.clearing = none →
    Runs (.ccInv cl v) s [.page .cl, .clusters] fun t =>
      (t.cl cl).cc.clearing = some false ∧
      bit (preg t (.cl cl) 0x100) 2 = true) ∧
  (∀ (s : State) (n : Fin 16) (v : W32), Starts s (.dc n) 0x100 0 v → bit v 1 = false →
    Runs (.dcFlush n v) s [.page .lw, .page .dc, .staged, .clusters, .slices] fun t =>
      (t.slice n).clearing = some true ∧
      bit (preg t (.dc n) 0x100) 0 = true) ∧
  (∀ (s : State) (n : Fin 16) (v : W32), Starts s (.dc n) 0x100 1 v → bit v 0 = false → (s.slice n).enabled = true →
    Runs (.dcInv n v) s [.page .lw, .page .dc, .staged, .clusters, .slices] fun t =>
      (t.slice n).clearing = some true ∧
      bit (preg t (.dc n) 0x100) 1 = true) ∧
  (∀ (s : State) (n : Fin 16) (v : W32), Starts s (.dc n) 0x100 1 v → bit v 0 = false → (s.slice n).enabled = false → (s.slice n).clearing
    = none →
    Runs (.dcInv n v) s [.page .lw, .page .dc, .staged, .clusters, .slices] fun t =>
      (t.slice n).clearing = some false ∧
      bit (preg t (.dc n) 0x100) 1 = true) ∧
  (∀ (s : State) (cl : Fin 16) (fl : Bool), (s.cl cl).cc.clearing = some fl → (s.cl cl).cc.misses = [] → (s.cl cl).cc.lines = [] → (s.cl
    cl).cc.wayErr = [] → 0 < fld (preg s (.cl cl) 0x10C) 0 8 → bit (preg s (.cl cl) 8) 2 = false →
    Settles (.invalidated (.cluster cl)) s [.page .cl, .clusters] fun t =>
      (t.cl cl).cc.clearing = none ∧
      (t.cl cl).cc.invalidated = true ∧
      (t.cl cl).cc.enabled = (s.cl cl).cc.enabled ∧
      bit (preg t (.cl cl) 0x100) 1 = false ∧
      bit (preg t (.cl cl) 0x100) 2 = false) ∧
  (∀ (s : State) (n : Fin 16) (v : W32), Unlocked s (.dc n) → bit v 0 = true → bit v 1 = fenced s (.dc n) → bit v 2 = false → enabled s
    (.dc n) = false → (s.slice n).invalidated = true →
    Runs (.cacheEnable (.slice n) v false) s [.page .dc, .slices, .boot] fun t =>
      (t.slice n).enabled = true ∧
      enabled t (.dc n) = true) ∧
  (∀ (s : State) (n : Fin 16) (v : W32), Unlocked s (.dc n) → bit v 0 = true → bit v 1 = fenced s (.dc n) → bit v 2 = false → enabled s
    (.dc n) = false → (s.slice n).invalidated = false →
    Runs (.cacheEnable (.slice n) v false) s [.page .dc, .boot] fun t =>
      enabled t (.dc n) = false ∧
      bit (preg t (.dc n) 0x3C) 6 = true) ∧
  (∀ (s : State) (cl : Fin 16) (v : W32), Unlocked s (.cl cl) → bit (preg s (.cl cl) 0x100) 0 = true → bit v 0 = false → bit v 1 = false →
    bit v 2 = false → ((s.cl cl).cc.lines.any fun e => decide (e.2.st = .m)) = true →
    Runs (.cacheEnable (.cluster cl) v false) s [.page .cl, .clusters] fun t =>
      (t.cl cl).cc.enabled = false ∧
      (t.cl cl).cc.invalidated = false ∧
      (t.cl cl).cc.dirtyOff = true ∧
      (t.cl cl).cc.lines = (s.cl cl).cc.lines ∧
      bit (preg t (.cl cl) 0x10) 6 = true) ∧
  (∀ (s : State) (n : Fin 16) (fl : Bool), (s.slice n).clearing = some fl → (s.slice n).misses = [] → (s.slice n).binv = [] → (s.slice
    n).lines = [] → (s.slice n).wayErr = [] → 0 < fld (preg s (.dc n) 0x108) 0 8 → bit (preg s (.dc n) 8) 2 = false →
    Settles (.invalidated (.slice n)) s [.page .dc, .slices] fun t =>
      (t.slice n).clearing = none ∧
      (t.slice n).invalidated = true ∧
      (t.slice n).enabled = (s.slice n).enabled ∧
      bit (preg t (.dc n) 0x100) 0 = false ∧
      bit (preg t (.dc n) 0x100) 1 = false) ∧
  (∀ (s : State) (cl : Fin 16) (v : W32) (fl : Bool), Unlocked s (.cl cl) → bit (preg s (.cl cl) 0x100) 0 = true → bit v 0 = false → bit v
    1 = false → bit v 2 = false → (s.cl cl).cc.clearing = some fl → (s.cl cl).cc.misses = [] → (s.cl cl).cc.lines = [] → (s.cl
    cl).cc.wayErr = [] → 0 < fld (preg s (.cl cl) 0x10C) 0 8 → bit (preg s (.cl cl) 8) 2 = false →
    Settles (.cacheEnable (.cluster cl) v true) s [.page .cl, .clusters] fun t =>
      (t.cl cl).cc.enabled = false ∧
      (t.cl cl).cc.invalidated = true ∧
      (t.cl cl).cc.clearing = none)

/-- A memory controller reads and writes granules with their poison. -/
def Obligations.MemoryControllers : Prop :=
  (∀ (s : State) (n : Fin 8) (g : BitVec 34), granInStack s n g.toNat = true → stackRefuses s (g.toNat / 2) = false → granPoison s g.toNat
    = false →
    Runs (.mcRead n g .clean) s [] fun t =>
      t = s) ∧
  (∀ (s : State) (n : Fin 8) (g : BitVec 34), granInStack s n g.toNat = true → stackRefuses s (g.toNat / 2) = false → granPoison s g.toNat
    = false →
    Runs (.mcRead n g .ue) s [.page .mc, .dm, .scrubs] fun t =>
      granPoison t g.toNat = true ∧
      granData t g.toNat = granData s g.toNat ∧
      preg t (.mc n) 0x104 = satAdd (preg s (.mc n) 0x104) 1 ∧
      bit (preg t (.mc n) 0x10) 1 = true) ∧
  (∀ (s : State) (n : Fin 8) (g : BitVec 34), granInStack s n g.toNat = true → stackRefuses s (g.toNat / 2) = false → granPoison s g.toNat
    = false →
    Runs (.mcRead n g .ce) s [.page .mc, .scrubs] fun t =>
      preg t (.mc n) 0x100 = satAdd (preg s (.mc n) 0x100) 1 ∧
      bit (preg t (.mc n) 0x10) 0 = true) ∧
  (∀ (s : State) (n : Fin 8) (g : BitVec 34) (h : Health), granInStack s n g.toNat = true → stackRefuses s (g.toNat / 2) = false →
    granPoison s g.toNat = true →
    Runs (.mcRead n g h) s [.page .mc] fun t =>
      bit (preg t (.mc n) 0x10) 2 = true) ∧
  (∀ (s : State) (n : Fin 8) (g : BitVec 34) (d : BitVec 256), granInStack s n g.toNat = true → stackRefuses s (g.toNat / 2) = false →
    Runs (.mcFullWrite n g d none) s [.page .mc, .dm] fun t =>
      granData t g.toNat = d ∧
      granPoison t g.toNat = false ∧
      (∀ k, k ≠ g.toNat → granData t k = granData s k)) ∧
  (∀ (s : State) (n : Fin 8) (g : BitVec 34) (d : BitVec 256) (m : BitVec 32), granInStack s n g.toNat = true → stackRefuses s (g.toNat /
    2) = false → m ≠ 0 → m ≠ BitVec.allOnes 32 → granPoison s g.toNat = false →
    Runs (.mcPartialWrite n g d m .clean) s [.page .mc, .dm, .scrubs] fun t =>
      granData t g.toNat = mergeGran (granData s g.toNat) d m ∧
      granPoison t g.toNat = false ∧
      preg t (.mc n) 0x110 = satAdd (preg s (.mc n) 0x110) 1) ∧
  (∀ (s : State) (n : Fin 8) (g : BitVec 34) (d : BitVec 256) (m : BitVec 32) (h : Health), granInStack s n g.toNat = true → stackRefuses s
    (g.toNat / 2) = false → m ≠ 0 → m ≠ BitVec.allOnes 32 → granPoison s g.toNat = true →
    Runs (.mcPartialWrite n g d m h) s [.page .mc, .dm, .scrubs] fun t =>
      granData t g.toNat = mergeGran (granData s g.toNat) d m ∧
      granPoison t g.toNat = true ∧
      bit (preg t (.mc n) 0x10) 3 = true) ∧
  (∀ (s : State) (n : Fin 8) (k : Nat), fenced s (.mc n) = false → stackGran s n (s.scrubs.get n).next.toNat = some k → chunkBlocks s (32 *
    k) = false → granPoison s k = false →
    Runs (.scrubRead n .clean none) s [.scrubs] fun t =>
      (t.scrubs.get n).next = BitVec.ofNat 31 (((s.scrubs.get n).next.toNat + 1) % stackGrans) ∧
      (t.scrubs.get n).pass = (s.scrubs.get n).pass) ∧
  (∀ (s : State) (n : Fin 8) (k : Nat) (h : Health) (w : Option (BitVec 256 × BitVec 32)), stackGran s n (s.scrubs.get n).next.toNat = some
    k → chunkBlocks s (32 * k) = true → fenced s (.mc n) = false →
    Runs (.scrubRead n h w) s [] fun t =>
      t = s) ∧
  (∀ (s : State) (n : Fin 8) (g : BitVec 34) (d : BitVec 256) (x : BitVec 256) (m : BitVec 32) (fullLast : Bool), granInStack s n g.toNat =
    true → stackRefuses s (g.toNat / 2) = false → granPoison s g.toNat = true →
    Runs (.mcFullWrite n g d (some (x, m, fullLast))) s [.page .mc, .dm, .scrubs] fun t =>
      granData t g.toNat = (if fullLast then d else mergeGran d x m) ∧
      granPoison t g.toNat = !fullLast) ∧
  (∀ (s : State) (n : Fin 8) (g : BitVec 34) (d : BitVec 256), granInStack s n g.toNat = true → stackRefuses s (g.toNat / 2) = true →
    Runs (.mcFullWrite n g d none) s [.page .mc] fun t =>
      bit (preg t (.mc n) 0x10) 1 = true) ∧
  (∀ (s : State) (n : Fin 8) (k : Nat) (d : BitVec 256) (m : BitVec 32), fenced s (.mc n) = false → stackGran s n (s.scrubs.get
    n).next.toNat = some k → chunkBlocks s (32 * k) = false → granPoison s k = false → m ≠ BitVec.allOnes 32 →
    Runs (.scrubRead n .clean (some (d, m))) s [.page .mc, .dm, .scrubs] fun t =>
      granData t k = mergeGran (granData s k) d m ∧
      granPoison t k = false ∧
      preg t (.mc n) 0x110 = satAdd (preg s (.mc n) 0x110) 1)

/-- The landing window is enabled, and its frames are moved. -/
def Obligations.LandingWindow : Prop :=
  (∀ (s : State) (v : W32), Unlocked s .lw → bit v 0 = true → bit v 1 = fenced s .lw → bit v 2 = false → enabled s .lw = false →
    ((List.range 16).map (lwFrame s)).Nodup → (∀ k : Fin 16, lwFrame s k.val < 287) →
    Runs (.lwEnable v) s [.page .lw, .lw, .boot] fun t =>
      enabled t .lw = true ∧
      t.lw.closing = false) ∧
  (∀ (s : State) (v : W32), Unlocked s .lw → bit v 0 = true → bit v 1 = fenced s .lw → bit v 2 = false → enabled s .lw = false →
    ¬((List.range 16).map (lwFrame s)).Nodup →
    Runs (.lwEnable v) s [.page .lw, .boot] fun t =>
      enabled t .lw = false ∧
      bit (preg t .lw 0x3C) 6 = true ∧
      bit (preg t .lw 0x10) 0 = true) ∧
  (∀ (s : State) (v : W32) (i : Nat) (f : Nat), Starts s .lw 0x140 31 v → enabled s .lw = true → i = fld v 0 4 → f = fld v 8 9 → f < 287 →
    (∀ k : Fin 16, lwFrame s k.val ≠ f) →
    Runs (.lwMove v) s [.page .lw, .staged, .lw] fun t =>
      t.lw.move = some (BitVec.ofNat 4 i, BitVec.ofNat 9 f) ∧
      t.lw.scanned = false ∧
      bit (preg t .lw 0x140) 31 = true) ∧
  (∀ (s : State) (v : W32) (i : Nat) (f : Nat), Starts s .lw 0x140 31 v → f = fld v 8 9 → i = fld v 0 4 → f = 287 → lwFrame s i ≠ f →
    Runs (.lwMove v) s [.page .lw, .staged, .lw] fun t =>
      t.lw.move = s.lw.move ∧
      preg t .lw 0x144 = 2 ∧
      bit (preg t .lw 0x10) 1 = true ∧
      bit (preg t .lw 0x140) 31 = false) ∧
  (∀ (s : State) (i : BitVec 4) (f : BitVec 9), s.lw.move = some (i, f) → s.lw.scanned = false → hostLines s (some (lwFrame s i.toNat)) =
    [] → s.lw.heldReqs = [] → s.lw.closing = false → s.frz.on = false → commitDue s (lwFrame s i.toNat) = false → commitDue s f.toNat =
    false →
    Runs (.lwScanDone) s [.page .lw, .lw] fun t =>
      t.lw.move = none ∧
      lwFrame t i.toNat = f.toNat ∧
      preg t .lw 0x144 = 1 ∧
      bit (preg t .lw 0x140) 31 = false) ∧
  (∀ (s : State), s.lw.move ≠ none →
    Runs (.biSlow) s [.page .lw] fun t =>
      bit (preg t .lw 0x10) 2 = true) ∧
  (∀ (s : State) (l : Line) (inv : Bool), (s.slice (homeOf l)).binv = [⟨l, inv, true, [], none⟩] → s.frz.on = false →
    Settles (.bisnpResponse l none) s [.slices] fun t =>
      (slGet t l).h = .none ∧
      biOn t l = false) ∧
  (∀ (s : State) (l : Line) (inv : Bool) (d : BitVec 512), (s.slice (homeOf l)).binv = [⟨l, inv, true, [], none⟩] → s.frz.on = false →
    l.host = false → (s.slice (homeOf l)).enabled = false → fenced s (.mc (stackOf s (64 * l.num.toNat))) = false →
    Settles (.bisnpResponse l (some d)) s [.page .lw, .page .ep, .page .dc, .page .mc, .clusters, .dm, .slices, .lw, .cxl, .frz, .scrubs] fun t =>
      (slGet t l).h = .none ∧
      biOn t l = false ∧
      readBytes t.dm (64 * l.num.toNat) 64 = natBytes 64 d.toNat) ∧
  (∀ (s : State) (l : Line) (inv : Bool) (dirty : Option (BitVec 512)), (s.slice (homeOf l)).binv = [⟨l, inv, true, [], none⟩] → s.frz.on =
    true →
    Settles (.bisnpResponse l dirty) s [.slices] fun t =>
      (t.slice (homeOf l)).binv = [⟨l, inv, true, [], some dirty⟩] ∧
      slLine t l = slLine s l)

/-- CXL.mem requests and snoops of the host. The grant of E is the reading of assumption 41. -/
def Obligations.HostSide : Prop :=
  (∀ (s : State) (hpa : BitVec 64) (o : Nat) (l : Line) (own : Bool), cxlMode s = true → s.frz.on = false → s.lw.move = none → windowOff s
    hpa.toNat = some o → l = windowLine s o → PlainLine s l → (s.slice (homeOf l)).lines = [] → (s.slice (homeOf l)).waiting = [] →
    Runs (.memrd hpa own) s [.page .lw, .page .ep, .page .dc, .page .mc, .clusters, .dm, .slices, .lw, .cxl, .frz, .scrubs] fun t =>
      t.out = s.out ++ [.memData (memLine s l.num.toNat).1 false] ∧
      (slGet t l).h = (if own then .owned else .shared) ∧
      t.dm = s.dm) ∧
  (∀ (s : State) (hpa : BitVec 64) (o : Nat) (l : Line), cxlMode s = true → s.frz.on = false → s.lw.move = none → windowOff s hpa.toNat =
    some o → l = windowLine s o → PlainLine s l → (s.slice (homeOf l)).lines = [] → (s.slice (homeOf l)).waiting = [] →
    Runs (.memrddata hpa) s [.page .lw, .page .ep, .page .dc, .page .mc, .clusters, .dm, .slices, .lw, .cxl, .frz, .scrubs] fun t =>
      t.out = s.out ++ [.memData (memLine s l.num.toNat).1 false] ∧
      (slGet t l).h = .shared) ∧
  (∀ (s : State) (hpa : BitVec 64) (o : Nat) (l : Line) (own : Bool), cxlMode s = true → s.frz.on = false → s.lw.move = none → windowOff s
    hpa.toNat = some o → l = windowLine s o → PlainLine s l → (s.slice (homeOf l)).lines = [] → (s.slice (homeOf l)).waiting = [] →
    Runs (.meminv hpa own) s [.page .lw, .page .ep, .page .dc, .page .mc, .clusters, .dm, .slices, .lw, .cxl, .frz, .scrubs] fun t =>
      t.out = s.out ++ [.memCmp] ∧
      (slGet t l).h = (if own then .owned else .shared)) ∧
  (∀ (s : State) (hpa : BitVec 64) (o : Nat) (l : Line) (d : BitVec 512), cxlMode s = true → s.frz.on = false → s.lw.move = none →
    windowOff s hpa.toNat = some o → l = windowLine s o → PlainLine s l → (s.slice (homeOf l)).waiting = [] →
    Runs (.memwr hpa d false) s [.page .lw, .page .ep, .page .dc, .page .mc, .clusters, .dm, .slices, .lw, .cxl, .frz, .scrubs] fun t =>
      t.out = s.out ++ [.memCmp] ∧
      (slGet t l).h = .none ∧
      readBytes t.dm (64 * l.num.toNat) 64 = natBytes 64 d.toNat) ∧
  (∀ (s : State) (hpa : BitVec 64) (o : Nat) (l : Line) (d : BitVec 512) (mask : BitVec 64), cxlMode s = true → s.frz.on = false →
    s.lw.move = none → windowOff s hpa.toNat = some o → l = windowLine s o → PlainLine s l → (s.slice (homeOf l)).waiting = [] →
    Runs (.memwrptl hpa d mask false) s [.page .lw, .page .ep, .page .dc, .page .mc, .clusters, .dm, .slices, .lw, .cxl, .frz, .scrubs] fun t =>
      t.out = s.out ++ [.memCmp] ∧
      readBytes t.dm (64 * l.num.toNat) 64 = natBytes 64 (mergeLine (memLine s l.num.toNat).1 d mask).toNat) ∧
  (∀ (s : State) (hpa : BitVec 64) (own : Bool), cxlMode s = true → s.frz.on = false → windowOff s hpa.toNat = none → bit (preg s .ep 0x14)
    7 = true →
    Runs (.memrd hpa own) s [.page .ep] fun t =>
      t.out = s.out ++ [.memData (BitVec.allOnes 512) true] ∧
      bit (preg t .ep 0x10) 7 = true) ∧
  (∀ (s : State) (l : Line), l.host = true → cxlMode s = true → (slGet s l).cxl = none →
    Settles (.snpdata l) s [] fun t =>
      t = emit s (.snoopResp none none)) ∧
  (∀ (s : State) (l : Line) (e : SLine) (d : BitVec 512), l.host = true → cxlMode s = true → slLine s l = some e → e.cxl = some .m → e.data
    = some d → e.dirty = true → e.owned = false → e.fwd = none →
    Settles (.snpdata l) s [.page .dc, .clusters, .slices] fun t =>
      t.out = s.out ++ [.snoopResp (some .s) (some d)] ∧
      (slGet t l).cxl = some .s ∧
      (slGet t l).dirty = false ∧
      (slGet t l).data = some d) ∧
  (∀ (s : State) (l : Line) (e : SLine) (d : BitVec 512), l.host = true → cxlMode s = true → slLine s l = some e → e.cxl = some .m → e.data
    = some d → e.sharers = [] →
    Settles (.snpinv l) s [.clusters, .slices] fun t =>
      t.out = s.out ++ [.snoopResp none (some d)] ∧
      slLine t l = none) ∧
  (∀ (s : State) (l : Line) (e : SLine) (d : BitVec 512), l.host = true → cxlMode s = true → slLine s l = some e → e.cxl = some .m → e.data
    = some d → e.dirty = true → e.owned = false →
    Runs (.snpcur l) s [.page .dc] fun t =>
      t.out = s.out ++ [.snoopResp (some .m) (some d)]) ∧
  (∀ (s : State), s.frz.on = false → (∀ n : Fin 16, (s.slice n).lines = [] ∧ (s.slice n).misses = []) → s.cxl.d2h = [] → s.cxl.wq = [] →
    Runs (.cacheWritebackAndInvalidate) s [.cxl] fun t =>
      t.cxl.cacheInvalid = true ∧
      t.cxl.wbWaiting = false) ∧
  (∀ (s : State), s.frz.on = true →
    Runs (.cacheWritebackAndInvalidate) s [.cxl] fun t =>
      t.cxl = { s.cxl with wbWaiting := true }) ∧
  (∀ s : State, Keeps settleParts s (settle s))

/-- The CXL link comes up, replays, recovers and is lost. -/
def Obligations.LinkStates : Prop :=
  (∀ (s : State) (i : LinkInfo), s.cxl.link = .down → mayTrain s = true → linkInfoOk i = true →
    Settles (.linkUp i) s [.page .ep, .cxl, .frz, .boot] fun t =>
      t.cxl.link = .l0 ∧
      preg t .ep 0x100 = linkStatWord s i ∧
      bit (preg t .ep 0x30) 16 = true ∧
      ((i.width.toNat = 16 ∧ i.rate.toNat ≠ 2) ∨ bit (preg t .ep 0x10) 10 = true)) ∧
  (∀ (s : State), s.cxl.link = .down → mayTrain s = true →
    Runs (.linkTrainingRetry) s [.page .ep] fun t =>
      bit (preg t .ep 0x10) 5 = true ∧
      t.out.getLast? = some (.linkReq 0)) ∧
  (∀ (s : State), s.cxl.link = .l0 →
    Runs (.linkReplay) s [.page .fc, .page .ep, .cxl, .fc] fun t =>
      t.cxl.link = .replay ∧
      preg t .ep 0x150 = satAdd (preg s .ep 0x150) 1 ∧
      bit (preg t .ep 0x10) 3 = true ∧
      t.cxl.d2h = s.cxl.d2h.map (fun d => { d with affected := true }) ∧
      (t.fc.episodes.any fun e => decide (e.link = .cxl) && decide (e.ended = none)) = true) ∧
  (∀ (s : State), s.cxl.link ≠ .down → s.cxl.link ≠ .recovery →
    Runs (.linkRecovery) s [.page .fc, .page .ep, .cxl, .fc] fun t =>
      t.cxl.link = .recovery ∧
      preg t .ep 0x154 = satAdd (preg s .ep 0x154) 1 ∧
      bit (preg t .ep 0x10) 4 = true ∧
      t.cxl.d2h = s.cxl.d2h.map (fun d => { d with affected := true }) ∧
      (t.fc.episodes.any fun e => decide (e.link = .cxl) && decide (e.ended = none)) = true) ∧
  (∀ (s : State), (s.cxl.link = .replay ∨ s.cxl.link = .recovery) →
    Settles (.replayEpisodeEnd .cxl) s [.page .ep, .cxl, .frz, .fc, .boot] fun t =>
      t.cxl.link = .l0 ∧
      (t.fc.episodes.any fun e => decide (e.link = .cxl) && decide (e.ended = none)) = false) ∧
  (∀ (s : State) (n : Fin 8),
    Runs (.replayEpisodeEnd (.port n)) s [.fc] fun t =>
      (t.fc.episodes.any fun e => decide (e.link = .port n) && decide (e.ended = none)) = false) ∧
  (∀ (s : State), s.cxl.link ≠ .down → s.frz.on = false →
    Runs (.linkDown) s [.page .ep, .page .ml, .page .sd, .page .gc, .cores, .locks, .sd, .lw, .slices, .cxl, .frz, .fc, .boot] fun t =>
      t.cxl.link = .down ∧
      t.cxl.d2h = [] ∧
      t.cxl.wq = [] ∧
      t.frz.on = true ∧
      t.frz.cause = 4 ∧
      preg t .ep 0x100 = 0 ∧
      bit (preg t .ep 0x10) 5 = true)

/-- L1 and L0p of the CXL link. -/
def Obligations.LinkPower : Prop :=
  (∀ (s : State), linkIdle s = true → s.cxl.l1En = true → fld (preg s .ep 0x108) 0 16 ≠ 0 →
    Runs (.l1Entry false) s [.page .ep, .cxl, .boot] fun t =>
      t.cxl.link = .l1 ∧
      preg t .ep 0x15C = satAdd (preg s .ep 0x15C) 1 ∧
      t.out.getLast? = some (.linkReq 1)) ∧
  (∀ (s : State),
    Runs (.l1Entry true) s [] fun t =>
      t.out = s.out) ∧
  (∀ (s : State), s.cxl.link = .l1 →
    Runs (.l1Exit) s [.page .ep, .cxl, .boot] fun t =>
      t.cxl.link = .l0) ∧
  (∀ (s : State), l0pOn s = true → atX8 s = false →
    Runs (.l0pNarrow) s [.page .ep] fun t =>
      atX8 t = true ∧
      preg t .ep 0x160 = satAdd (preg s .ep 0x160) 1 ∧
      t.out.getLast? = some (.linkReq 3)) ∧
  (∀ (s : State), l0pOn s = true → atX8 s = true →
    Runs (.l0pWiden) s [.page .ep] fun t =>
      atX8 t = false ∧
      preg t .ep 0x160 = preg s .ep 0x160 ∧
      t.out.getLast? = some (.linkReq 4)) ∧
  (∀ (s : State) (x8 : Bool), l0pOn s = true →
    Runs (.partnerL0pRequest x8) s [.page .ep] fun t =>
      atX8 t = x8 ∧
      t.out.getLast? = some (.linkReq 5))

/-- Answers and timeouts of CXL.cache requests. What an answer and a timeout release is the reading of assumption 40. -/
def Obligations.HostAnswers : Prop :=
  (∀ (s : State) (i : Nat) (d : D2h) (w : HeldWrite) (res : HostAnswer), s.cxl.d2h[i]? = some d → d.w = some w → d.op ≠ 2 → res.error =
    false → s.cxl.wq = [] → s.cxl.msixQ = [] → s.cxl.wbWaiting = false →
    Settles (.cxlCacheResponse i res) s [.cxl] fun t =>
      t.cxl.d2h = dropAt s.cxl.d2h i ∧
      t.out = s.out) ∧
  (∀ (s : State) (i : Nat) (d : D2h) (w : HeldWrite) (res : HostAnswer) (l : Line), s.cxl.d2h[i]? = some d → d.w = some w → d.op = 2 →
    res.error = false → l = lineOf true w.addr.toNat → (s.slice (homeOf l)).lines = [] → (s.slice (homeOf l)).enabled = true →
    s.cxl.disCache = false → slWays s (homeOf l) ≠ [] → s.cxl.wq = [] → s.cxl.msixQ = [] → s.cxl.wbWaiting = false →
    Settles (.cxlCacheResponse i res) s [.cxl, .slices] fun t =>
      t.cxl.d2h = dropAt s.cxl.d2h i ∧
      (slGet t l).data = some (mergeLine (res.data.setWidth 512) (BitVec.ofNat 512 (bytesNat w.bytes * 2 ^ (8 * (w.addr.toNat % 64))))
          (BitVec.ofNat 64 ((2 ^ w.bytes.length - 1) * 2 ^ (w.addr.toNat % 64)))) ∧
      (slGet t l).cxl = some .m ∧
      (slGet t l).dirty = true) ∧
  (∀ (s : State) (i : Nat) (d : D2h) (w : HeldWrite) (res : HostAnswer) (k : W16), s.cxl.d2h[i]? = some d → d.w = some w → w.response =
    some k → res.error = true → s.cxl.wq = [] → s.cxl.msixQ = [] → s.cxl.wbWaiting = false →
    Settles (.cxlCacheResponse i res) s [.page .fm, .cxl] fun t =>
      t.cxl.d2h = dropAt s.cxl.d2h i ∧
      bit (preg t .fm 0x10) 2 = true) ∧
  (∀ (s : State) (i : Nat) (k : Nat) (d : D2h) (a : GAccess) (rd : BitVec 5) (n : Nat) (res : HostAnswer), s.cxl.d2h[i]? = some d → d.w =
    none → d2hAccess s d = some (k, a) → a.sent = false → s.frz.on = false → stopped s = false → accessInOrder (s.core d.core) k a = true →
    a.kind = .load rd n false → res.error = true → (s.core d.core).st = .run → (s.core d.core).waits = [] →
    Runs (.cxlCacheResponse i res) s [.page .lw, .page .ep, .page .fm, .page .ml, .page .sd, .page .dc, .page .cl, .page .mc, .page .gc, .cores, .locks, .sd, .clusters, .mailboxes, .dm, .slices, .cxl, .frz, .scrubs] fun t =>
      (t.core d.core).st = .halt ∧
      (t.core d.core).exc = 0x09 ∧
      (t.core d.core).access = dropAt (s.core d.core).access k) ∧
  (∀ (s : State) (i : Nat) (d : D2h) (w : HeldWrite) (k : W16), s.cxl.ctoDis = false → s.cxl.d2h[i]? = some d → d.w = some w → w.response =
    some k → s.cxl.wq = [] → s.cxl.msixQ = [] → s.cxl.wbWaiting = false →
    Settles (.completionTimeout i) s [.page .ep, .page .fm, .cxl] fun t =>
      t.cxl.d2h = dropAt s.cxl.d2h i ∧
      preg t .ep 0x14C = satAdd (preg s .ep 0x14C) 1 ∧
      bit (preg t .ep 0x10) 1 = true ∧
      bit (preg t .fm 0x10) 2 = true) ∧
  (∀ (s : State) (i : Nat) (k : Nat) (d : D2h) (a : GAccess) (rd : BitVec 5) (n : Nat), s.cxl.ctoDis = false → s.cxl.d2h[i]? = some d → d.w
    = none → d2hAccess s d = some (k, a) → a.kind = .load rd n false → (s.core d.core).st = .run → (s.core d.core).waits = [] → s.cxl.wq =
    [] → s.cxl.msixQ = [] → s.cxl.wbWaiting = false →
    Settles (.completionTimeout i) s [.page .ep, .page .ml, .page .sd, .page .gc, .cores, .locks, .sd, .cxl] fun t =>
      (t.core d.core).st = .halt ∧
      (t.core d.core).exc = 0x09 ∧
      (t.core d.core).excPc = a.pc ∧
      preg t .ep 0x14C = satAdd (preg s .ep 0x14C) 1) ∧
  (∀ (s : State) (i : Nat), s.cxl.ctoDis = true →
    Runs (.completionTimeout i) s [] fun t =>
      t.out = s.out)

/-- Writes of peers through BAR2, and requests answered UR. -/
def Obligations.PeerAperture : Prop :=
  (∀ (s : State) (q : W16) (off : BitVec 32) (relaxed : Bool) (bytes : List Byte), s.cxl.link ≠ .down → memClosed s = false → s.cxl.inbound
    = [] → s.frz.on = false → enabled s .ep = true → bit (preg s .ep (0x200 + 8 * (off.toNat / 2 ^ 26))) 0 = true → winAllows s (off.toNat
    / 2 ^ 26) q = true → 1 ≤ bytes.length → off.toNat % 64 + bytes.length ≤ 64 → (fld (preg s .ep (0x204 + 8 * (off.toNat / 2 ^ 26))) 0 13
    * 2 ^ 26 + off.toNat % 2 ^ 26) < dmSize → PlainLine s (lineOf false (fld (preg s .ep (0x204 + 8 * (off.toNat / 2 ^ 26))) 0 13 * 2 ^ 26
    + off.toNat % 2 ^ 26)) →
    Runs (.bar2Write q off bytes relaxed) s [.page .lw, .page .ep, .page .dc, .page .mc, .clusters, .dm, .slices, .cxl, .frz, .scrubs] fun t =>
      readBytes t.dm (fld (preg s .ep (0x204 + 8 * (off.toNat / 2 ^ 26))) 0 13 * 2 ^ 26 + off.toNat % 2 ^ 26) bytes.length = bytes ∧
      t.cxl.inbound = [] ∧
      t.out = s.out) ∧
  (∀ (s : State) (q : W16) (off : BitVec 32) (relaxed : Bool) (bytes : List Byte), s.cxl.link ≠ .down → memClosed s = false → s.frz.on =
    false → enabled s .ep = true → bit (preg s .ep (0x200 + 8 * (off.toNat / 2 ^ 26))) 0 = true → winAllows s (off.toNat / 2 ^ 26) q =
    false →
    Runs (.bar2Write q off bytes relaxed) s [.page .ep, .cxl] fun t =>
      preg t .ep 0x144 = BitVec.ofNat 32 (q.toNat + 2 * 2 ^ 16) ∧
      preg t .ep 0x148 = satAdd (preg s .ep 0x148) 1 ∧
      bit (preg t .ep 0x10) 0 = true ∧
      bit t.cxl.aer 20 = true) ∧
  (∀ (s : State) (q : W16) (off : BitVec 32) (relaxed : Bool) (bytes : List Byte), s.cxl.link ≠ .down → memClosed s = false → (s.frz.on =
    true ∨ enabled s .ep = false ∨ bit (preg s .ep (0x200 + 8 * (off.toNat / 2 ^ 26))) 0 = false) →
    Runs (.bar2Write q off bytes relaxed) s [.page .ep, .cxl] fun t =>
      preg t .ep 0x144 = BitVec.ofNat 32 (q.toNat + 3 * 2 ^ 16) ∧
      preg t .ep 0x148 = satAdd (preg s .ep 0x148) 1 ∧
      bit (preg t .ep 0x10) 0 = true) ∧
  (∀ (s : State) (c : Fin 7) (q : W16) (posted : Bool), s.cxl.link ≠ .down → c.val ≠ 0 → (c.val ≠ 5 ∨ memClosed s = true) →
    Runs (.unsupportedRequest c q posted) s [.page .ep, .cxl] fun t =>
      preg t .ep 0x144 = BitVec.ofNat 32 (q.toNat + c.val * 2 ^ 16) ∧
      preg t .ep 0x148 = satAdd (preg s .ep 0x148) 1 ∧
      bit (preg t .ep 0x10) 0 = true ∧
      bit t.cxl.aer 20 = true ∧
      (posted = true ∨ t.out.getLast? = some (.ur q))) ∧
  (∀ (s : State) (q : W16) (off : BitVec 32) (bytes : List Byte) (w : Inbound) (pa : Nat), s.cxl.link ≠ .down → memClosed s = false →
    s.frz.on = false → enabled s .ep = true → bit (preg s .ep (0x200 + 8 * (off.toNat / 2 ^ 26))) 0 = true → winAllows s (off.toNat / 2 ^
    26) q = true → s.cxl.inbound = [w] → w.requester = q → w.relaxed = false → w.bytes ≠ [] → biOn s (lineOf false w.addr.toNat) = true →
    (s.slice (homeOf (lineOf false w.addr.toNat))).retries = [] → pa = fld (preg s .ep (0x204 + 8 * (off.toNat / 2 ^ 26))) 0 13 * 2 ^ 26 +
    off.toNat % 2 ^ 26 →
    Runs (.bar2Write q off bytes false) s [.cxl, .slices] fun t =>
      t.cxl.inbound = [w, ⟨q, false, BitVec.ofNat 40 pa, bytes⟩] ∧
      t.out = s.out)

/-- Power state, completion timeout, DOE, MSI-X and the function-level reset. The ranges of the timeout encodings and the layout of a DOE object
  are PCI Express's (assumption 7, PRESUMED). -/
def Obligations.ConfigSpace : Prop :=
  (∀ (s : State) (b : Bool), s.cxl.link ≠ .down → s.cxl.flr = false → (b = false ∨ (s.cxl.cacheEn = false ∧ s.cxl.memEn = false)) →
    Runs (.powerStateWrite b) s [.page .ep, .cxl] fun t =>
      t.cxl.d3hot = b) ∧
  (∀ (s : State), s.cxl.link ≠ .down → s.cxl.flr = false → (s.cxl.cacheEn = true ∨ s.cxl.memEn = true) →
    Runs (.powerStateWrite true) s [.page .ep] fun t =>
      t.cxl.d3hot = s.cxl.d3hot ∧
      bit (preg t .ep 0x10) 2 = true) ∧
  (∀ (s : State) (v : BitVec 4), s.cxl.link ≠ .down → s.cxl.flr = false → (ctoRange v.toNat).isSome = true → (s.cxl.ctoDis = true ∨
    linkBudget s ≤ ctoEff { s.cxl with ctoVal := v }) →
    Runs (.completionTimeoutWrite (.value v)) s [.cxl] fun t =>
      t.cxl.ctoVal = v) ∧
  (∀ (s : State) (v : BitVec 4), s.cxl.link ≠ .down → s.cxl.flr = false → (ctoRange v.toNat).isSome = true → s.cxl.ctoDis = false → ctoEff
    { s.cxl with ctoVal := v } < linkBudget s →
    Runs (.completionTimeoutWrite (.value v)) s [.page .ep] fun t =>
      t.cxl.ctoVal = s.cxl.ctoVal ∧
      bit (preg t .ep 0x10) 2 = true) ∧
  (∀ (s : State), s.cxl.link ≠ .down → s.cxl.flr = false →
    Runs (.completionTimeoutWrite (.disable true)) s [.cxl] fun t =>
      t.cxl.ctoDis = true) ∧
  (∀ (s : State) (v : W32), Unlocked s .ep → 100 ≤ fld v 0 16 → (s.cxl.ctoDis = true ∨ fld v 0 16 ≤ ctoEff s.cxl) →
    Runs (.completionTimeoutWrite (.budget v)) s [.page .ep] fun t =>
      fld (preg t .ep 0x110) 0 16 = fld v 0 16) ∧
  (∀ (s : State) (v : W32), Unlocked s .ep → 100 ≤ fld v 0 16 → s.cxl.ctoDis = false → ctoEff s.cxl < fld v 0 16 →
    Runs (.completionTimeoutWrite (.budget v)) s [.page .ep] fun t =>
      preg t .ep 0x110 = preg s .ep 0x110 ∧
      bit (preg t .ep 0x10) 2 = true) ∧
  (∀ (s : State), s.cxl.link ≠ .down → s.cxl.flr = false →
    Runs (.doeRequest 1 0 0) s [] fun t =>
      t.out = s.out ++ [.doe [1, 3, 0x01000001]]) ∧
  (∀ (s : State) (vendor : W16) (type : Byte) (index : Byte), s.cxl.link ≠ .down → s.cxl.flr = false → ¬(vendor.toNat = 1 ∧ type.toNat = 0)
    → ¬(vendor.toNat = 0x1E98 ∧ type.toNat = 2) →
    Runs (.doeRequest vendor type index) s [] fun t =>
      t.out = s.out ++ [.doeError]) ∧
  (∀ (s : State) (v : Fin 32) (x : W32), Unlocked s .ep → bit (preg s .ep 0xA00) v.val = true → s.cxl.msixEn = true → s.cxl.funcMask =
    false → s.cxl.d3hot = false → s.cxl.link ≠ .down → bit x 0 = false →
    Runs (.msixUnmask v x) s [.page .ep] fun t =>
      t.out = s.out ++ [.msix v] ∧
      bit (preg t .ep 0xA00) v.val = false ∧
      preg t .ep (0x80C + 16 * v.val) = x) ∧
  (∀ (s : State) (v : Fin 32) (x : W32), Unlocked s .ep → bit x 0 = true →
    Runs (.msixUnmask v x) s [.page .ep] fun t =>
      t.out = s.out ∧
      preg t .ep 0xA00 = preg s .ep 0xA00) ∧
  (∀ (s : State), s.cxl.link ≠ .down → s.cxl.flr = false →
    Runs (.functionLevelReset) s [.page .ep, .page .fm, .staged, .captured, .mailboxes, .cxl, .frz, .boot] fun t =>
      t.cxl.flr = true ∧
      t.cxl.memSpace = false ∧
      t.cxl.msixEn = false ∧
      t.cxl.d3hot = false ∧
      t.cxl.link = s.cxl.link ∧
      t.cxl.cacheEn = s.cxl.cacheEn ∧
      t.boot.kind = 2 ∧
      (∀ m : Fin 16, t.mailbox m = { mailboxReset with taken := (s.mailbox m).taken.filterMap silenced }) ∧
      preg t .fm 8 = 0 ∧
      preg t .ep 0xA00 = 0) ∧
  (∀ (s : State), s.cxl.link ≠ .down → s.cxl.flr = true →
    Runs (.functionLevelReset) s [] fun t =>
      t.out = s.out ++ [.cfgRetry]) ∧
  (∀ (s : State), s.cxl.flr = true →
    Runs (.flrComplete) s [.cxl] fun t =>
      t.cxl.flr = false)

/-- The HDM decoder, and the containment freeze. The order of two actions in one write is the model's (assumption 40). -/
def Obligations.FreezeAndDecoder : Prop :=
  (∀ (s : State) (v : W32), Starts s .ep 0x120 0 v → bit v 1 = false → bit (preg s .ep 0x120) 8 = false → bit v 2 = true → s.cxl.memEn =
    true →
    Runs (.commit v) s [.page .ep, .staged] fun t =>
      bit (preg t .ep 0x120) 8 = true ∧
      bit (preg t .ep 0x120) 9 = false ∧
      bit (preg t .ep 0x120) 0 = false) ∧
  (∀ (s : State) (v : W32), Starts s .ep 0x120 0 v → bit v 1 = false → bit (preg s .ep 0x120) 8 = false → (bit v 2 = false ∨ s.cxl.memEn =
    false) →
    Runs (.commit v) s [.page .ep, .staged] fun t =>
      bit (preg t .ep 0x120) 8 = false ∧
      bit (preg t .ep 0x120) 9 = true ∧
      bit (preg t .ep 0x10) 11 = true) ∧
  (∀ (s : State) (v : W32), Starts s .ep 0x120 1 v → bit v 0 = false → biTotal s = 0 →
    Runs (.uncommit v) s [.page .ep, .staged, .cxl] fun t =>
      bit (preg t .ep 0x120) 8 = false ∧
      bit (preg t .ep 0x120) 1 = false ∧
      t.cxl.uncommitting = false) ∧
  (∀ (s : State) (v : W32), Starts s .ep 0x120 1 v → bit v 0 = false → biTotal s ≠ 0 →
    Runs (.uncommit v) s [.page .ep, .staged, .cxl] fun t =>
      bit (preg t .ep 0x120) 8 = bit (preg s .ep 0x120) 8 ∧
      bit (preg t .ep 0x120) 1 = true ∧
      t.cxl.uncommitting = true) ∧
  (∀ (s : State) (v : W32), Starts s .ep 0x124 0 v → bit v 1 = false → s.frz.on = false →
    Runs (.freeze v) s [.page .ep, .staged, .cores, .slices, .lw, .cxl, .frz] fun t =>
      t.frz.on = true ∧
      t.frz.cause = 1 ∧
      t.cxl.wq = [] ∧
      t.lw.heldReqs = [] ∧
      bit (preg t .ep 0x124) 0 = false ∧
      bit (preg t .ep 0x30) 17 = true ∧
      (t.cxl.d2h = s.cxl.d2h.filter fun d => !(d.w.isSome && decide (d.op = 2)))) ∧
  (∀ (s : State) (v : W32), Starts s .ep 0x124 1 v → bit v 0 = false → s.frz.on = true → linkL0 s = true → s.fc.safe = false →
    Runs (.release v none) s [.page .ep, .page .fm, .page .gc, .page .sd, .page .ml, .page .cl, .page .lw, .page .dc, .page .mc, .staged, .cores, .locks, .sd, .clusters, .lw, .cxl, .frz, .slices, .dm, .scrubs, .boot, .mailboxes, .ports] fun t =>
      t.frz.on = false ∧
      t.frz.held = [] ∧
      fenced t .ep = false ∧
      bit (preg t .ep 0x30) 18 = true ∧
      bit (preg t .ep 0x124) 1 = false ∧
      (∀ id : Fin 256, s.frz.cores.getLsbD id.val = false ∨ (t.core id).st = .fenced)) ∧
  (∀ (s : State) (v : W32), Starts s .ep 0x124 1 v → bit v 0 = false → s.frz.on = true → (linkL0 s = false ∨ s.fc.safe = true) →
    Runs (.release v none) s [.page .ep, .staged] fun t =>
      t.frz.on = true ∧
      t.frz.held = s.frz.held ∧
      bit (preg t .ep 0x10) 9 = true) ∧
  (∀ (s : State) (v : W32) (c : BitVec 3), Starts s .ep 0x124 1 v → bit v 0 = false → s.frz.on = true →
    Runs (.release v (some c)) s [.page .ep, .staged, .frz] fun t =>
      t.frz.on = true ∧
      t.frz.cause = c ∧
      t.frz.held = s.frz.held ∧
      bit (preg t .ep 0x10) 9 = true)

/-- A crossing port goes through bring-up, and leaves UP. What a stage needs to complete is assumption 14; an event that cannot occur changes
  nothing (assumption 9). -/
def Obligations.PortBringUp : Prop :=
  (∀ (s : State) (n : Fin 8) (v : W32), Unlocked s (.xl n) → enabled s (.xl n) = false → fenced s (.xl n) = false → bit v 0 = true → bit v
    1 = false → bit v 2 = false →
    Runs (.xlEnable n v) s [.page .xl, .page .al, .ports, .mod, .boot] fun t =>
      enabled t (.xl n) = true ∧
      (t.port n).st = .detect) ∧
  (∀ (s : State) (n : Fin 8) (v : W32), Unlocked s (.xl n) → enabled s (.xl n) = true → fenced s (.xl n) = false → bit v 0 = false → bit v
    1 = false → bit v 2 = false →
    Runs (.xlEnable n v) s [.page .xl, .page .al, .ports, .mod, .boot] fun t =>
      enabled t (.xl n) = false ∧
      (t.port n).st = .down ∧
      (t.port n).replayBuf = [] ∧
      (t.port n).txq = [] ∧
      (t.port n).opens = [] ∧
      ((s.port n).st ≠ .up ∨ .ctrlWord n (ctrlWord 12 0) ∈ t.out)) ∧
  (∀ (s : State) (n : Fin 8) (i : LaneInfo), enabled s (.xl n) = true → fenced s (.xl n) = false → (s.port n).st = .detect → i.los ≠ 0xF →
    Runs (.xlStageComplete n i) s [.page .xl, .ports, .boot] fun t =>
      (t.port n).st = .train) ∧
  (∀ (s : State) (n : Fin 8) (i : LaneInfo), enabled s (.xl n) = true → fenced s (.xl n) = false → (s.port n).st = .train → widthOf i = 2 →
    Runs (.xlStageComplete n i) s [.page .xl, .ports, .boot] fun t =>
      (t.port n).st = .ident ∧
      (t.port n).width = 2 ∧
      (t.port n).ident0 = false ∧
      (t.port n).ident1 = false ∧
      (identWords s n).map (Out.ctrlWord n ·) <:+ t.out) ∧
  (∀ (s : State) (n : Fin 8) (i : LaneInfo), enabled s (.xl n) = true → fenced s (.xl n) = false → (s.port n).st = .train → widthOf i = 1 →
    Runs (.xlStageComplete n i) s [.page .xl, .ports, .boot] fun t =>
      (t.port n).st = .ident ∧
      (t.port n).width = 1 ∧
      bit (preg t (.xl n) 0x10) 2 = true) ∧
  (∀ (s : State) (n : Fin 8) (i : LaneInfo), enabled s (.xl n) = true → fenced s (.xl n) = false → (s.port n).st = .ident → (s.port
    n).ident0 = true → (s.port n).ident1 = true → bit (preg s (.xl n) 0x10C) 17 = false → (s.port n).probeAt = none →
    Runs (.xlStageComplete n i) s [.page .xl, .ports, .boot] fun t =>
      (t.port n).st = .probe ∧
      (t.port n).probeAt.isSome = true) ∧
  (∀ (s : State) (n : Fin 8) (i : LaneInfo), enabled s (.xl n) = true → fenced s (.xl n) = false → (s.port n).st = .probe → (s.port
    n).probeAt = none → (∀ id : Fin 256, (s.core id).waits = [] ∧ (s.core id).tt.sendQ = []) →
    Runs (.xlStageComplete n i) s [.page .xl, .ports, .boot] fun t =>
      (t.port n).st = .up ∧
      (t.port n).credits = (s.port n).split ∧
      (t.port n).accepted = 0 ∧
      (t.port n).acked = 0 ∧
      (t.port n).win = [] ∧
      (t.port n).seqNext = []) ∧
  (∀ (s : State) (n : Fin 8) (i : LaneInfo), enabled s (.xl n) = true → fenced s (.xl n) = false → (s.port n).st ∈ [.detect, .train,
    .ident, .probe] →
    Runs (.xlStageTimeout n i) s [.page .xl, .ports, .boot] fun t =>
      (t.port n).st = .failed ∧
      (t.port n).width = 0) ∧
  (∀ (s : State) (n : Fin 8), enabled s (.xl n) = true → fenced s (.xl n) = false → (s.port n).st = .failed →
    Runs (.xlRestart n) s [.page .xl, .ports, .boot] fun t =>
      (t.port n).st = .detect) ∧
  (∀ (s : State) (n : Fin 8) (w : BitVec 128), fld w 0 4 = 9 → (s.port n).st = .ident → fld w 4 8 ≠ fleetId s →
    Runs (.ident0 n w) s [.page .xl, .ports] fun t =>
      (t.port n).ident0 = true ∧
      (t.port n).split = #v[fld w 15 6, fld w 21 6, fld w 27 6] ∧
      preg t (.xl n) 0x10C = BitVec.ofNat 32 (fld w 4 8 + fld w 12 3 * 2 ^ 8 + 2 ^ 16)) ∧
  (∀ (s : State) (n : Fin 8) (w : BitVec 128), fld w 0 4 = 9 → (s.port n).st = .ident → fld w 4 8 = fleetId s → bit (preg s (.xl n) 0x10C)
    17 = false →
    Runs (.ident0 n w) s [.page .xl, .ports] fun t =>
      bit (preg t (.xl n) 0x10C) 17 = true ∧
      bit (preg t (.xl n) 0x10) 12 = true) ∧
  (∀ (s : State) (n : Fin 8) (w : BitVec 128), fld w 0 4 = 9 → (s.port n).st = .up → fld w 4 8 ≠ fld (preg s (.xl n) 0x10C) 0 8 →
    Runs (.ident0 n w) s [.page .xl, .ports, .boot] fun t =>
      (t.port n).st = .detect ∧
      (t.port n).replayBuf = []) ∧
  (∀ (s : State) (n : Fin 8) (w : BitVec 128), fld w 0 4 = 10 → (s.port n).st = .ident →
    Runs (.ident1 n w) s [.page .xl, .ports] fun t =>
      (t.port n).ident1 = true ∧
      preg64 t (.xl n) 0x110 = fld w 4 64) ∧
  (∀ (s : State) (n : Fin 8), (s.port n).st = .up →
    Runs (.fecLockLoss n) s [.page .xl, .ports, .boot] fun t =>
      (t.port n).st = .detect ∧
      bit (preg t (.xl n) 0x10) 17 = true ∧
      (t.port n).replayBuf = [] ∧
      (t.port n).txq = [] ∧
      (t.port n).opens = []) ∧
  (∀ (s : State) (n : Fin 8) (w : BitVec 128), (s.port n).st = .up → fld w 0 4 = 12 →
    Runs (.down n w) s [.page .xl, .ports, .boot] fun t =>
      (t.port n).st = .detect ∧
      bit (preg t (.xl n) 0x10) 17 = true ∧
      (t.port n).replayBuf = []) ∧
  (∀ (s : State) (n : Fin 8) (v : W32), Starts s (.xl n) 0x100 8 v → bit v 9 = false → bit v 10 = false → (s.port n).st = .up →
    Runs (.retrain n v) s [.page .xl, .staged, .ports, .boot] fun t =>
      (t.port n).st = .train ∧
      (t.port n).replayBuf = [] ∧
      bit (preg t (.xl n) 0x100) 8 = false) ∧
  (∀ (s : State) (n : Fin 8) (v : W32), Starts s (.xl n) 0x100 9 v → bit v 8 = false → bit v 10 = false → (s.port n).st = .up → (s.port
    n).probeAt = none →
    Runs (.probe n v) s [.page .xl, .staged, .ports, .boot] fun t =>
      (t.port n).probeAt.isSome = true ∧
      (t.port n).rtts = [] ∧
      bit (preg t (.xl n) 0x100) 9 = true) ∧
  (∀ (s : State) (n : Fin 8) (v : W32), Starts s (.xl n) 0x100 10 v → bit v 8 = false → bit v 9 = false →
    Runs (.xlWinReset n v) s [.page .xl, .staged, .ports, .boot] fun t =>
      (t.port n).win = [] ∧
      (t.port n).st = (s.port n).st ∧
      bit (preg t (.xl n) 0x100) 10 = false) ∧
  (∀ (s : State) (n : Fin 8) (v : W32), Starts s (.xl n) 0x138 0 v →
    Runs (.xlSlotArm n v) s [.page .xl, .staged, .ports] fun t =>
      (t.port n).armed = true ∧
      bit (preg t (.xl n) 0x138) 0 = true) ∧
  (∀ (s : State) (n : Fin 8), enabled s (.xl n) = true → s.mod.mainOn = true → (s.mod.present.contains (condKey (16 + n.val) condOpen)) =
    false →
    Runs (.osfpModulePresent n false) s [.page .al, .mod] fun t =>
      t.mod.cages.getLsbD n.val = false ∧
      bit (preg t .al 0x10) 7 = true ∧
      t.mod.mbLast = BitVec.ofNat 32 (16 + n.val + condOpen * 2 ^ 8)) ∧
  (∀ (s : State) (n : Fin 8),
    Runs (.osfpModulePresent n true) s [.page .al, .mod] fun t =>
      t.mod.cages.getLsbD n.val = true ∧
      t.mod.present = s.mod.present.filter (fun k => !(decide (k / 16 = 16 + n.val))))

/-- Control words of a crossing link. The median of 16 round trips is the lower middle one (assumption 14). -/
def Obligations.PortWords : Prop :=
  (∀ (s : State) (n : Fin 8) (w : BitVec 128), (s.port n).st = .up → fld w 0 4 = 1 → (∀ id : Fin 256, (s.core id).waits = [] ∧ (s.core
    id).tt.sendQ = []) → (∀ k : Fin 3, (s.port n).credits.get k + (BitVec.ofNat 8 (fld w (8 + 8 * k.val) 8) - (s.port n).creditSeen.get
    k).toNat ≤ (s.port n).split.get k) →
    Runs (.credit n w) s [.ports] fun t =>
      (∀ k : Fin 3, (t.port n).credits.get k = (s.port n).credits.get k + (BitVec.ofNat 8 (fld w (8 + 8 * k.val) 8) - (s.port
          n).creditSeen.get k).toNat) ∧
      (∀ k : Fin 3, (t.port n).creditSeen.get k = BitVec.ofNat 8 (fld w (8 + 8 * k.val) 8))) ∧
  (∀ (s : State) (n : Fin 8) (w : BitVec 128) (k : Fin 3), (s.port n).st = .up → fld w 0 4 = 1 → (∀ id : Fin 256, (s.core id).waits = [] ∧
    (s.core id).tt.sendQ = []) → (s.port n).split.get k < (s.port n).credits.get k + (BitVec.ofNat 8 (fld w (8 + 8 * k.val) 8) - (s.port
    n).creditSeen.get k).toNat →
    Runs (.credit n w) s [.page .xl, .ports] fun t =>
      (t.port n).credits.get k = (s.port n).split.get k ∧
      bit (preg t (.xl n) 0x10) 16 = true) ∧
  (∀ (s : State) (n : Fin 8) (w : BitVec 128), (s.port n).st = .up → fld w 0 4 = 2 → (BitVec.ofNat 16 (fld w 16 16) - (s.port
    n).acked).toNat ≤ (s.port n).replayBuf.length →
    Runs (.ack n w) s [.ports] fun t =>
      (t.port n).acked = BitVec.ofNat 16 (fld w 16 16) ∧
      (t.port n).replayBuf = (s.port n).replayBuf.drop (BitVec.ofNat 16 (fld w 16 16) - (s.port n).acked).toNat) ∧
  (∀ (s : State) (n : Fin 8) (w : BitVec 128), (s.port n).st = .up → fld w 0 4 = 3 → (BitVec.ofNat 16 (fld w 16 16) - (s.port
    n).acked).toNat ≤ (s.port n).replayBuf.length →
    Runs (.nak n w) s [.page .fc, .page .xl, .ports, .fc] fun t =>
      (t.port n).replayBuf = (s.port n).replayBuf.drop (BitVec.ofNat 16 (fld w 16 16) - (s.port n).acked).toNat ∧
      (t.port n).nakAt = BitVec.ofNat 16 (fld w 16 16) ∧
      preg t (.xl n) 0x18C = satAdd (preg s (.xl n) 0x18C) 1 ∧
      bit (preg t (.xl n) 0x10) 5 = true ∧
      (t.fc.episodes.any fun e => decide (e.link = .port n) && decide (e.ended = none)) = true ∧
      (Out.ctrlWord n (replayWord (BitVec.ofNat 16 (fld w 16 16))) :: (t.port n).replayBuf.map fun u =>
          match u with | .bundle b => Out.bundle n (headerCell b) (dirCells b.msgs) b.payload | .word x => Out.ctrlWord n x) <:+ t.out) ∧
  (∀ (s : State) (n : Fin 8) (w : BitVec 128), takesWord s n w 4 = true → fld w 16 8 = fleetId s →
    Runs (.fare n w) s [.page .xl, .fares, .ports] fun t =>
      t.fares = s.fares ++ [⟨BitVec.ofNat 16 (fld w 8 16), BitVec.ofNat 4 (fld w 24 4), BitVec.ofNat 4 (fld w 28 4)⟩] ∧
      (t.port n).accepted = (s.port n).accepted + 1 ∧
      t.out.getLast? = some (.ctrlWord n (ackWord (t.port n)))) ∧
  (∀ (s : State) (n : Fin 8) (w : BitVec 128) (h : BitVec 32), fld w 0 4 = 6 → ((s.port n).st = .ident ∨ (s.port n).st = .probe ∨ (s.port
    n).st = .up) →
    Runs (.probeWord n w h) s [] fun t =>
      t.out = s.out ++ [.ctrlWord n (ctrlWord 7 (fld w 4 8 * 2 ^ 4 + h.toNat * 2 ^ 12))]) ∧
  (∀ (s : State) (n : Fin 8) (w : BitVec 128) (at64 : BitVec 32) (t1 : BitVec 32) (pid : Byte) (m : BitVec 64), fld w 0 4 = 7 → (s.port
    n).probeAt = some (pid, t1, m) → fld w 4 8 = pid.toNat → (s.port n).rtts.length < 15 →
    Runs (.echo n w at64) s [.ports] fun t =>
      (t.port n).rtts = (s.port n).rtts ++ [BitVec.ofNat 32 ((((at64.toNat : Int) - (t1.toNat : Int)) % (m.toNat : Int) - (fld w 12 32 :
          Int)).toNat)] ∧
      (t.port n).probeAt.isSome = true) ∧
  (∀ (s : State) (n : Fin 8) (w : BitVec 128) (at64 : BitVec 32) (t1 : BitVec 32) (pid : Byte) (m : BitVec 64) (r : List Nat), fld w 0 4 =
    7 → (s.port n).probeAt = some (pid, t1, m) → fld w 4 8 = pid.toNat → (s.port n).rtts.length = 15 → r = (s.port n).rtts.map BitVec.toNat
    ++ [((((at64.toNat : Int) - (t1.toNat : Int)) % (m.toNat : Int) - (fld w 12 32 : Int)).toNat) % 2 ^ 32] →
    Runs (.echo n w at64) s [.page .td, .page .xl, .ports] fun t =>
      (t.port n).probeAt = none ∧
      preg t (.xl n) 0x118 = BitVec.ofNat 32 (min (median16 r) (2 ^ 24 - 1)) ∧
      (fld (preg s .td 0x100) 1 4 ≠ n.val + 1 ∨ bit (preg s .td 0x100) 6 = true ∨ preg t .td 0x108 = BitVec.ofNat 32 (min (median16 r) (2 ^
          24 - 1) / 2))) ∧
  (∀ (s : State) (n : Fin 8) (w : BitVec 128), takesWord s n w 8 = true →
    Runs (.abort n w) s [.page .fc, .page .xl, .tide, .ports, .fc] fun t =>
      bit (preg t (.xl n) 0x10) 15 = true ∧
      preg t .fc 0x184 = BitVec.ofNat 32 (fld w 4 8 + fld w 44 8 * 2 ^ 8 + fld w 12 32 % 2 ^ 16 * 2 ^ 16) ∧
      (t.port n).accepted = (s.port n).accepted + 1 ∧
      t.fc.abortIds.contains (BitVec.ofNat 8 (fld w 4 8), BitVec.ofNat 32 (fld w 12 32)) = true ∧
      (bit (preg s .fc 0x100) 3 = false ∨ s.fc.safe = true ∨ t.tide.haltDue = true)) ∧
  (∀ (s : State) (n : Fin 8) (w : BitVec 128), (s.port n).st = .up → fld w 0 4 = 11 → fld w 4 16 = (s.port n).accepted.toNat →
    Runs (.replay n w) s [.ports] fun t =>
      (t.port n).discard = false ∧
      (t.port n).accepted = (s.port n).accepted) ∧
  (∀ (s : State) (n : Fin 8) (w : BitVec 128), (s.port n).st = .up → 13 ≤ fld w 0 4 →
    Runs (.reservedWord n w) s [.page .xl] fun t =>
      bit (preg t (.xl n) 0x10) 4 = true)

/-- Bundles received: delivered, held out as duplicates, asked for again, forwarded. -/
def Obligations.BundlesReceived : Prop :=
  (∀ (s : State) (n : Fin 8) (b : XlBundle), (s.port n).st = .up → (s.port n).discard = false → b.fecBad = false → b.ctrlBad = false →
    crcGood (headerOf b.header) b = true → headerReserved (headerOf b.header) b = false → (headerOf b.header).dst.toNat = fleetId s →
    (headerOf b.header).svc = false → (headerOf b.header).timed = false → (headerOf b.header).late = false → sget (fun _ => none) (s.port
    n).win (fcKey (headerOf b.header).src.toNat (headerOf b.header).svc) = none →
    Runs (.bundleReceived n b) s [.page .xl, .mesh, .ports] fun t =>
      t.mesh = s.mesh ++ (bundleMsgs (headerOf b.header) b).map (meshOf n none) ∧
      (t.port n).accepted = (s.port n).accepted + 1 ∧
      sget (fun _ => none) (t.port n).win (fcKey (headerOf b.header).src.toNat false) = some (headerOf b.header).seq ∧
      (t.port n).inUse = (s.port n).inUse.set (poolOf false (headerOf b.header).vc) ((s.port n).inUse.get (poolOf false (headerOf
          b.header).vc)) ∧
      preg t (.xl n) 0x184 = satAdd (preg s (.xl n) 0x184) 1 ∧
      t.out = s.out ++ [.ctrlWord n (ackWord (t.port n)), .ctrlWord n (creditWord (t.port n))]) ∧
  (∀ (s : State) (n : Fin 8) (b : XlBundle) (top : W16), (s.port n).st = .up → (s.port n).discard = false → b.fecBad = false → b.ctrlBad =
    false → crcGood (headerOf b.header) b = true → headerReserved (headerOf b.header) b = false → (headerOf b.header).dst.toNat = fleetId s
    → (headerOf b.header).svc = false → (headerOf b.header).timed = false → (headerOf b.header).late = false → sget (fun _ => none) (s.port
    n).win (fcKey (headerOf b.header).src.toNat (headerOf b.header).svc) = some top → (headerOf b.header).seq = top + 1 →
    Runs (.bundleReceived n b) s [.page .xl, .mesh, .ports] fun t =>
      t.mesh = s.mesh ++ (bundleMsgs (headerOf b.header) b).map (meshOf n none) ∧
      preg t (.xl n) 0x198 = preg s (.xl n) 0x198) ∧
  (∀ (s : State) (n : Fin 8) (b : XlBundle) (top : W16), (s.port n).st = .up → (s.port n).discard = false → b.fecBad = false → b.ctrlBad =
    false → crcGood (headerOf b.header) b = true → headerReserved (headerOf b.header) b = false → (headerOf b.header).dst.toNat = fleetId s
    → sget (fun _ => none) (s.port n).win (fcKey (headerOf b.header).src.toNat (headerOf b.header).svc) = some top → (top - (headerOf
    b.header).seq).toNat ≤ 1023 →
    Runs (.bundleReceived n b) s [.page .xl, .ports] fun t =>
      t.mesh = s.mesh ∧
      preg t (.xl n) 0x190 = satAdd (preg s (.xl n) 0x190) 1 ∧
      bit (preg t (.xl n) 0x10) 8 = true ∧
      (t.port n).accepted = (s.port n).accepted + 1) ∧
  (∀ (s : State) (n : Fin 8) (b : XlBundle) (top : W16), (s.port n).st = .up → (s.port n).discard = false → b.fecBad = false → b.ctrlBad =
    false → crcGood (headerOf b.header) b = true → headerReserved (headerOf b.header) b = false → (headerOf b.header).dst.toNat = fleetId s
    → (headerOf b.header).svc = false → (headerOf b.header).timed = false → (headerOf b.header).late = false → sget (fun _ => none) (s.port
    n).win (fcKey (headerOf b.header).src.toNat (headerOf b.header).svc) = some top → 2 ≤ ((headerOf b.header).seq - top).toNat →
    ((headerOf b.header).seq - top).toNat ≤ 32767 → (headerOf b.header).resync = false →
    Runs (.bundleReceived n b) s [.page .xl, .mesh, .ports] fun t =>
      t.mesh = s.mesh ++ (bundleMsgs (headerOf b.header) b).map (meshOf n none) ∧
      preg t (.xl n) 0x198 = satAdd (preg s (.xl n) 0x198) 1 ∧
      bit (preg t (.xl n) 0x10) 10 = true) ∧
  (∀ (s : State) (n : Fin 8) (b : XlBundle), (s.port n).st = .up → (s.port n).discard = false → b.fecBad = false → b.ctrlBad = false →
    crcGood (headerOf b.header) b = true → headerReserved (headerOf b.header) b = false → (headerOf b.header).dst.toNat = fleetId s →
    (headerOf b.header).svc = false → (headerOf b.header).timed = true → pastDeadline s (headerOf b.header).dl (fld (preg s (.xl n) 0x12C)
    0 24) = true → sget (fun _ => none) (s.port n).win (fcKey (headerOf b.header).src.toNat (headerOf b.header).svc) = none → bit (preg s
    (.xl n) 0x100) 1 = true →
    Runs (.bundleReceived n b) s [.page .xl, .mesh, .ports] fun t =>
      t.mesh = s.mesh ++ (bundleMsgs (headerOf b.header) b).map (meshOf n (some (BitVec.ofNat 5 (fld (preg s (.xl n) 0x100) 2 5)))) ∧
      preg t (.xl n) 0x19C = satAdd (preg s (.xl n) 0x19C) 1 ∧
      bit (preg t (.xl n) 0x10) 7 = true) ∧
  (∀ (s : State) (n : Fin 8) (b : XlBundle), (s.port n).st = .up → (s.port n).discard = false → (b.fecBad = true ∨ b.ctrlBad = true ∨
    crcGood (headerOf b.header) b = false) →
    Runs (.bundleReceived n b) s [.page .xl, .ports] fun t =>
      (t.port n).discard = true ∧
      (t.port n).accepted = (s.port n).accepted ∧
      bit (preg t (.xl n) 0x10) (if b.fecBad then 3 else 4) = true ∧
      t.out.getLast? = some (.ctrlWord n (nakWord (s.port n)))) ∧
  (∀ (s : State) (n : Fin 8) (b : XlBundle), (s.port n).discard = true →
    Runs (.bundleReceived n b) s [] fun t =>
      t.out = s.out) ∧
  (∀ (s : State) (n : Fin 8) (b : XlBundle) (k : Fin 8), (s.port n).st = .up → (s.port n).discard = false → b.fecBad = false → b.ctrlBad =
    false → crcGood (headerOf b.header) b = true → headerReserved (headerOf b.header) b = false → (headerOf b.header).dst.toNat ≠ fleetId s
    → (headerOf b.header).hops < 15 → routeOf s (headerOf b.header).dst.toNat = some k →
    Runs (.bundleReceived n b) s [.page .xl, .ports] fun t =>
      (t.port k).txq.length = (s.port k).txq.length + 1 ∧
      ((t.port k).txq.getLast?.map fun x => (x.dst, x.src, x.seq)) = some ((headerOf b.header).dst, (headerOf b.header).src, (headerOf
          b.header).seq) ∧
      ((t.port k).txq.getLast?.map fun x => x.hops) = some (BitVec.ofNat 4 ((headerOf b.header).hops + 1)) ∧
      preg t (.xl n) 0x188 = satAdd (preg s (.xl n) 0x188) 1 ∧
      (t.port n).inUse.get (poolOf (headerOf b.header).svc (headerOf b.header).vc) = (s.port n).inUse.get (poolOf (headerOf b.header).svc
          (headerOf b.header).vc) + 1) ∧
  (∀ (s : State) (n : Fin 8) (b : XlBundle), (s.port n).st = .up → (s.port n).discard = false → b.fecBad = false → b.ctrlBad = false →
    crcGood (headerOf b.header) b = true → headerReserved (headerOf b.header) b = false → (headerOf b.header).dst.toNat ≠ fleetId s →
    ((headerOf b.header).hops = 15 ∨ routeOf s (headerOf b.header).dst.toNat = none) →
    Runs (.bundleReceived n b) s [.page .xl, .ports] fun t =>
      bit (preg t (.xl n) 0x10) (if (headerOf b.header).hops = 15 then 14 else 13) = true ∧
      preg t (.xl n) 0x1A0 = satAdd (preg s (.xl n) 0x1A0) (if (headerOf b.header).svc then 0 else (headerOf b.header).nmsg) ∧
      t.mesh = s.mesh) ∧
  (∀ (s : State) (n : Fin 8) (b : XlBundle), (s.port n).st = .up → (s.port n).discard = false → b.fecBad = false → b.ctrlBad = false →
    crcGood (headerOf b.header) b = true → headerReserved (headerOf b.header) b = true →
    Runs (.bundleReceived n b) s [.ports] fun t =>
      (t.port n).discard = true ∧
      (t.port n).accepted = (s.port n).accepted ∧
      t.out = s.out ++ [.ctrlWord n (nakWord (s.port n))]) ∧
  (∀ (s : State) (n : Fin 8) (b : XlBundle), (s.port n).st = .up → (s.port n).discard = false → b.fecBad = false → b.ctrlBad = false →
    crcGood (headerOf b.header) b = true → headerReserved (headerOf b.header) b = false → (headerOf b.header).dst.toNat = fleetId s →
    (headerOf b.header).svc = true → sget (fun _ => none) (s.port n).win (fcKey (headerOf b.header).src.toNat (headerOf b.header).svc) =
    none →
    Runs (.bundleReceived n b) s [.clusters, .cxl, .dm, .frz, .mesh, .page .dc, .page .ep, .page .lw, .page .mc, .page .xl, .ports, .scrubs, .slices] fun t =>
      t.mesh = s.mesh ∧
      (t.port n).accepted = (s.port n).accepted + 1 ∧
      sget (fun _ => none) (t.port n).win (fcKey (headerOf b.header).src.toNat true) = some (headerOf b.header).seq)

/-- Bundles closed, slots opened and closed, bundles sent. -/
def Obligations.BundlesSent : Prop :=
  (∀ (s : State) (n : Fin 8) (d : Byte) (o : OpenBundle), (s.port n).opens.filter (fun x => decide (x.dst = d)) = [o] → o.closing = false →
    o.reading = [] → ((s.port n).opens.all fun x => !x.closing || !x.reading.isEmpty) = true →
    Runs (.bundleClose n d none) s [.ports] fun t =>
      ((t.port n).opens.find? fun x => decide (x.dst = d)) = none ∧
      (t.port n).txq.length = (s.port n).txq.length + 1 ∧
      ((t.port n).txq.getLast?.map fun x => (x.dst, x.seq)) = some (d, sget (fun _ => 0) (s.port n).seqNext (fcKey d.toNat false)) ∧
      ((t.port n).txq.getLast?.map fun x => x.msgs) = some o.msgs ∧
      sget (fun _ => 0) (t.port n).seqNext (fcKey d.toNat false) = sget (fun _ => 0) (s.port n).seqNext (fcKey d.toNat false) + 1) ∧
  (∀ (s : State) (n : Fin 8) (i : Fin 32) (start : Nat) (len : Nat) (d : Byte), slotEntry s n (s.port n).bank i.val = some (start, len, d)
    → s.tide.dispatching = true → start ≤ s.tide.phase.toNat → s.tide.phase.toNat < start + len → (s.port n).slot = none →
    Runs (.slotOpen n i) s [.page .xl, .ports] fun t =>
      (t.port n).slot = some i ∧
      ((t.port n).opens.any fun x => x.accepts d) = false) ∧
  (∀ (s : State) (n : Fin 8) (i : Fin 32) (j : Fin 32) (start : Nat) (len : Nat) (d : Byte), slotEntry s n (s.port n).bank i.val = some
    (start, len, d) → s.tide.dispatching = true → start ≤ s.tide.phase.toNat → s.tide.phase.toNat < start + len → (s.port n).slot = some j
    → j ≠ i → (s.port n).overlapSet = false →
    Runs (.slotOpen n i) s [.page .xl, .ports] fun t =>
      (t.port n).slot = some (if j.val < i.val then j else i) ∧
      bit (preg t (.xl n) 0x10) 18 = true) ∧
  (∀ (s : State) (n : Fin 8) (i : Fin 32) (start : Nat) (len : Nat) (d : Byte), (s.port n).slot = some i → slotEntry s n (s.port n).bank
    i.val = some (start, len, d) → start + len ≤ s.tide.phase.toNat →
    Runs (.slotClose n i) s [.ports] fun t =>
      (t.port n).slot = none ∧
      ((t.port n).opens.any fun x => x.accepts d) = false) ∧
  (∀ (s : State) (n : Fin 8) (b : TxBundle), (s.port n).st = .up → nextBundle s n = some b → b.via = none → (b.deadline = none ∨ b.late =
    true) →
    Runs (.bundleTransmit n) s [.page .xl, .ports] fun t =>
      (t.port n).txq = dropHead b.dst (s.port n).txq ∧
      (t.port n).replayBuf = (s.port n).replayBuf ++ [.bundle b] ∧
      (t.port n).lastDst = b.dst ∧
      t.out = s.out ++ [.bundle n (headerCell b) (dirCells b.msgs) b.payload] ∧
      preg t (.xl n) 0x180 = satAdd (preg s (.xl n) 0x180) 1) ∧
  (∀ (s : State) (n : Fin 8) (b : TxBundle) (dl : W16 × BitVec 26), (s.port n).st = .up → nextBundle s n = some b → b.via = none →
    b.deadline = some dl → b.late = false → pastDeadline s dl 0 = true →
    Runs (.bundleTransmit n) s [.page .xl, .ports] fun t =>
      (t.port n).replayBuf = (s.port n).replayBuf ++ [.bundle { b with late := true }] ∧
      preg t (.xl n) 0x19C = satAdd (preg s (.xl n) 0x19C) 1 ∧
      bit (preg t (.xl n) 0x10) 7 = true) ∧
  (∀ (s : State) (n : Fin 8) (d : Byte) (first : BitVec 24) (count : BitVec 11), (s.port n).st = .up →
    Runs (.bundleClose n d (some (first, count))) s [.clusters, .cxl, .dm, .frz, .page .dc, .page .ep, .page .lw, .page .mc, .ports, .scrubs, .slices] fun t =>
      (t.port n).txq.length = (s.port n).txq.length + 1 ∧
      ((t.port n).txq.getLast?.map fun x => (x.svc, x.dst, x.msgs, x.seq)) = some (true, d, [], sget (fun _ => 0) (s.port n).seqNext (fcKey
          d.toNat true)) ∧
      ((t.port n).txq.getLast?.map fun x => x.payload.length) = some count.toNat ∧
      (t.port n).opens = (s.port n).opens)

/-- The power loop of a cluster: target, voltage, frequency. -/
def Obligations.PowerLoop : Prop :=
  (∀ (s : State) (cl : Fin 16), stopped s = false → pwEn s cl = false →
    Runs (.pwTargetEval cl) s [.clusters] fun t =>
      (t.pw cl).target = BitVec.ofNat 6 (min (fld (preg s (.cl cl) 0x304) 0 6) (min (s.pw cl).pwrLim.toNat (s.pw cl).tjLim.toNat)) ∧
      (t.pw cl).code = (s.pw cl).code ∧
      (t.pw cl).volt = (s.pw cl).volt) ∧
  (∀ (s : State) (cl : Fin 16), stopped s = false → pwEn s cl = true → fenced s (.cl cl) = false → bit (preg s (.cl cl) 0x300) 1 = false →
    heavy s (clusterHint s cl) = true →
    Runs (.pwTargetEval cl) s [.clusters] fun t =>
      (t.pw cl).target = BitVec.ofNat 6 (min (fld (preg s (.cl cl) 0x308) 0 6) (min (min (s.pw cl).pwrLim.toNat (s.pw cl).tjLim.toNat) (fld
          (preg s (.cl cl) 0x30C) 0 6))) ∧
      (t.pw cl).clipped = decide (min (min (s.pw cl).pwrLim.toNat (s.pw cl).tjLim.toNat) (fld (preg s (.cl cl) 0x30C) 0 6) < fld (preg s
          (.cl cl) 0x308) 0 6)) ∧
  (∀ (s : State) (cl : Fin 16), stopped s = false → pwEn s cl = true → fenced s (.cl cl) = false → bit (preg s (.cl cl) 0x300) 1 = true →
    Runs (.pwTargetEval cl) s [.clusters] fun t =>
      (t.pw cl).target = BitVec.ofNat 6 (min (fld (preg s (.cl cl) 0x310) 0 6) (min (min (s.pw cl).pwrLim.toNat (s.pw cl).tjLim.toNat) (fld
          (preg s (.cl cl) 0x30C) 0 6)))) ∧
  (∀ (s : State) (cl : Fin 16), stopped s = true →
    Runs (.pwTargetEval cl) s [] fun t =>
      t.pw cl = s.pw cl) ∧
  (∀ (s : State) (cl : Fin 16) (up : Bool), (s.pw cl).stepping = some up →
    Runs (.voltageStepDone cl) s [.clusters] fun t =>
      (t.pw cl).volt = (if up then (s.pw cl).volt + 1 else (s.pw cl).volt - 1) ∧
      (t.pw cl).code = (s.pw cl).code) ∧
  (∀ (s : State) (cl : Fin 16), stopped s = false → (s.pw cl).target.toNat < (s.pw cl).code.toNat →
    Runs (.frequencyStep cl) s [.clusters] fun t =>
      (t.pw cl).code = (s.pw cl).code - 1 ∧
      (t.pw cl).volt = (s.pw cl).volt) ∧
  (∀ (s : State) (cl : Fin 16), stopped s = false → (s.pw cl).code.toNat < (s.pw cl).target.toNat → setPoint s cl (s.pw cl).target.toNat ≤
    (s.pw cl).volt.toNat → (s.pw cl).stretch = 0 →
    Runs (.frequencyStep cl) s [.clusters] fun t =>
      (t.pw cl).code = (s.pw cl).code + 1 ∧
      (t.pw cl).volt = (s.pw cl).volt) ∧
  (∀ (s : State) (cl : Fin 16), (s.pw cl).code.toNat < (s.pw cl).target.toNat → (s.pw cl).volt.toNat < setPoint s cl (s.pw cl).target.toNat
    →
    Runs (.frequencyStep cl) s [] fun t =>
      t.pw cl = s.pw cl) ∧
  (∀ (s : State) (cl : Fin 16), (s.pw cl).stepping.isSome = true →
    Runs (.vrFault cl) s [.page .cl] fun t =>
      bit (preg t (.cl cl) 0x10) 11 = true ∧
      t.pw cl = s.pw cl) ∧
  (∀ (s : State) (cl : Fin 16),
    Runs (.droop cl) s [.clusters] fun t =>
      t.pw cl = { s.pw cl with stretch := 4 }) ∧
  (∀ (s : State) (cl : Fin 16) (b : Bool), (s.pw cl).stretch ≠ 0 →
    Runs (.stretchRelax cl b) s [.page .cl, .clusters] fun t =>
      (t.pw cl).stretch = (if b then (s.pw cl).stretch - 1 else (s.pw cl).stretch) ∧
      (t.pw cl).code = (s.pw cl).code ∧
      (t.pw cl).volt = (s.pw cl).volt ∧
      preg t (.cl cl) 0x318 = satAdd (preg s (.cl cl) 0x318) 16)

/-- Module power, temperature and their limits. Sampling is the reading of assumption 42. -/
def Obligations.PowerLimits : Prop :=
  (∀ (s : State) (w : BitVec 11) (vin : W16), (bit (preg s .al 0x10) 1 = true ∨ fld (preg s .al 0x100) 0 11 < w.toNat) →
    Runs (.powerSample w vin) s [.page .al, .clusters, .mod] fun t =>
      (∀ cl : Fin 16, (t.pw cl).pwrLim = BitVec.ofNat 6 ((s.pw cl).pwrLim.toNat - 1)) ∧
      preg t .al 0x104 = BitVec.ofNat 32 w.toNat ∧
      t.mod.mbPower = BitVec.ofNat 32 (vin.toNat + w.toNat * 65536)) ∧
  (∀ (s : State) (w : BitVec 11) (vin : W16), bit (preg s .al 0x10) 1 = false → w.toNat * 100 < fld (preg s .al 0x100) 0 11 * 95 →
    Runs (.powerSample w vin) s [.page .al, .clusters, .mod] fun t =>
      (∀ cl : Fin 16, (t.pw cl).pwrLim = BitVec.ofNat 6 (min 50 ((s.pw cl).pwrLim.toNat + 1))) ∧
      preg t .al 0x104 = BitVec.ofNat 32 w.toNat) ∧
  (∀ (s : State) (w : BitVec 11) (vin : W16), bit (preg s .al 0x10) 1 = false → w.toNat ≤ fld (preg s .al 0x100) 0 11 → fld (preg s .al
    0x100) 0 11 * 95 ≤ w.toNat * 100 →
    Runs (.powerSample w vin) s [.page .al, .mod] fun t =>
      preg t .al 0x104 = BitVec.ofNat 32 w.toNat) ∧
  (∀ (s : State) (wire : Option Bool),
    Runs (.pwrSense wire) s [.page .al, .clusters, .mod] fun t =>
      (∀ cl : Fin 16, (t.pw cl).pwrLim = BitVec.ofNat 6 ((s.pw cl).pwrLim.toNat - 1)) ∧
      bit (preg t .al 0x10) 1 = true) ∧
  (∀ (s : State) (cl : Fin 16) (c : Byte), fld (preg s .al 0x108) 0 8 < c.toNat →
    Runs (.tjLimit cl c) s [.page .cl, .clusters] fun t =>
      (t.pw cl).tjLim = BitVec.ofNat 6 ((s.pw cl).tjLim.toNat - 1) ∧
      preg t (.cl cl) 0x320 = c.setWidth 32 ∧
      bit (preg t (.cl cl) 0x10) 10 = true) ∧
  (∀ (s : State) (cl : Fin 16) (c : Byte), c.toNat + 3 ≤ fld (preg s .al 0x108) 0 8 →
    Runs (.tjLimit cl c) s [.page .cl, .clusters] fun t =>
      (t.pw cl).tjLim = BitVec.ofNat 6 (min 50 ((s.pw cl).tjLim.toNat + 1)) ∧
      preg t (.cl cl) 0x320 = c.setWidth 32) ∧
  (∀ (s : State),
    Runs (.thermTrip) s [.page .al] fun t =>
      bit (preg t .al 0x10) 2 = true) ∧
  (∀ (s : State) (v : W32), Unlocked s .al → 300 ≤ fld v 0 11 → fld v 0 11 ≤ 1250 →
    Runs (.alPwrLimWrite v) s [.page .al, .staged] fun t =>
      fld (preg t .al 0x100) 0 11 = fld v 0 11) ∧
  (∀ (s : State) (v : W32), Unlocked s .al → (fld v 0 11 < 300 ∨ 1250 < fld v 0 11) →
    Runs (.alPwrLimWrite v) s [.page .al, .staged] fun t =>
      preg t .al 0x100 = preg s .al 0x100 ∧
      bit (preg t .al 0x10) 6 = true) ∧
  (∀ (s : State) (v : W32), Unlocked s .al → fld (preg s .al 0x118) 0 7 < fld v 0 7 → 10 ≤ fld v 0 7 → fld v 0 7 ≤ 100 →
    Runs (.alDroopMvWrite true v) s [.page .al, .staged] fun t =>
      fld (preg t .al 0x114) 0 7 = fld v 0 7) ∧
  (∀ (s : State) (v : W32), Unlocked s .al → fld v 0 7 < fld (preg s .al 0x114) 0 7 → 5 ≤ fld v 0 7 → fld v 0 7 ≤ 90 →
    Runs (.alDroopMvWrite false v) s [.page .al, .staged] fun t =>
      fld (preg t .al 0x118) 0 7 = fld v 0 7) ∧
  (∀ (s : State) (v : W32), Unlocked s .al → fld (preg s .al 0x114) 0 7 ≤ fld v 0 7 →
    Runs (.alDroopMvWrite false v) s [.page .al, .staged] fun t =>
      preg t .al 0x118 = preg s .al 0x118 ∧
      bit (preg t .al 0x10) 6 = true)

/-- Lane equalisation, and the scrub loop. -/
def Obligations.EqualisationAndScrub : Prop :=
  (∀ (s : State) (link : Fin 9) (lane : Fin 16) (c : BitVec 5) (p : BitVec 7) (g : Byte) (b : Bool), enabled s .al = true → (link.val = 8 ∨
    lane.val < 4) → (slotOpen s link.val = true ∨ (link.val = 8 ∧ (b = true ∨ s.cxl.link = .recovery))) →
    Runs (.eqUpdate link lane c p g b) s [.page .al, .ports, .eqs] fun t =>
      (t.eqOf (eqKey link.val lane.val)).ctle = (s.eqOf (eqKey link.val lane.val)).ctle ∧
      (t.eqOf (eqKey link.val lane.val)).tap = (s.eqOf (eqKey link.val lane.val)).tap ∧
      (t.eqOf (eqKey link.val lane.val)).margin = g) ∧
  (∀ (s : State) (link : Fin 9) (lane : Fin 16) (c : BitVec 5) (p : BitVec 7) (g : Byte) (b : Bool), enabled s .al = true → link.val < 8 →
    lane.val < 4 → slotOpen s link.val = false → eqPinned s link.val = false →
    Runs (.eqUpdate link lane c p g b) s [.page .al, .ports, .eqs] fun t =>
      (t.eqOf (eqKey link.val lane.val)).ctle = ofInt 5 (towards ((s.eqOf (eqKey link.val lane.val)).ctle.toNat : Int) (within 0 (fld (preg
          s .al 0x130) 0 5 : Int) (c.toNat : Int))) ∧
      (t.eqOf (eqKey link.val lane.val)).tap = ofInt 7 (towards (sgn 7 (s.eqOf (eqKey link.val lane.val)).tap.toNat) (within (-(fld (preg s
          .al 0x130) 8 6 : Int)) (fld (preg s .al 0x130) 8 6 : Int) (sgn 7 p.toNat))) ∧
      (t.eqOf (eqKey link.val lane.val)).margin = g ∧
      (t.port (fin 8 link.val)).eqDone = true ∧
      (fld (preg s .al 0x134) 0 8 ≤ g.toNat ∨ (s.eqOf (eqKey link.val lane.val)).margin.toNat < fld (preg s .al 0x134) 0 8 ∨ bit (preg t
          .al 0x10) 3 = true)) ∧
  (∀ (s : State) (n : Fin 8), fld (preg s .al 0x138) 0 16 ≤ (s.port n).eqSteps.toNat → 0 < (s.port n).eqSteps.toNat →
    Runs (.eqStarved n) s [.page .al] fun t =>
      bit (preg t .al 0x10) 4 = true) ∧
  (∀ (s : State) (n : Fin 8), enabled s .al = true → bit (preg s .al 0x140) 0 = false → (preg s .al 0x154).toNat < (s.scrubs.get
    n).ce.toNat →
    Runs (.scrubWindow) s [.page .al, .scrubs] fun t =>
      (t.scrubs.get n).pass = BitVec.ofNat 24 (clampPass s ((s.scrubs.get n).pass.toNat / 2)) ∧
      (t.scrubs.get n).ce = 0 ∧
      ((preg s .al 0x15C).toNat ≥ (s.scrubs.get n).ce.toNat ∨ bit (preg t .al 0x10) 5 = true)) ∧
  (∀ (s : State) (n : Fin 8), enabled s .al = true → bit (preg s .al 0x140) 0 = false → (s.scrubs.get n).ce.toNat < (preg s .al
    0x158).toNat → (preg s .al 0x158).toNat ≤ (preg s .al 0x154).toNat + 1 → (s.scrubs.get n).low = 7 →
    Runs (.scrubWindow) s [.page .al, .scrubs] fun t =>
      (t.scrubs.get n).pass = BitVec.ofNat 24 (clampPass s ((s.scrubs.get n).pass.toNat * 2)) ∧
      (t.scrubs.get n).low = 0) ∧
  (∀ (s : State) (n : Fin 8), enabled s .al = false →
    Runs (.scrubWindow) s [.page .al, .scrubs] fun t =>
      (t.scrubs.get n).pass = BitVec.ofNat 24 (clampPass s (fld (preg s .al 0x14C) 0 24))) ∧
  (∀ (s : State) (v : W32), Unlocked s .al → fld (preg s .al 0x14C) 0 24 < fld v 0 24 →
    Runs (.alScrubPassMinWrite v) s [.page .al, .staged] fun t =>
      preg t .al 0x148 = preg s .al 0x148 ∧
      bit (preg t .al 0x10) 6 = true) ∧
  (∀ (s : State) (v : W32), Unlocked s .al → fld v 0 24 ≤ fld (preg s .al 0x14C) 0 24 →
    Runs (.alScrubPassMinWrite v) s [.page .al, .staged] fun t =>
      fld (preg t .al 0x148) 0 24 = fld v 0 24)

/-- Swaps of regions: asked for, copied chunk by chunk, committed. The choices left to the loop are assumption 22. -/
def Obligations.PlacementLoop : Prop :=
  (∀ (s : State) (v : W32), Starts s .pl 0x11C 31 v → fld v 0 13 < 4592 → fld v 16 13 < 4592 → stackOfRegion s (fld v 0 13) ≠ stackOfRegion
    s (fld v 16 13) → stackFenced s (stackOfRegion s (fld v 0 13)) = false → stackFenced s (stackOfRegion s (fld v 16 13)) = false →
    s.pl.cur = none → (s.pl.queued.any fun q => q.2.2) = false →
    Runs (.plMove v) s [.page .pl, .staged, .pl] fun t =>
      t.pl.queued = some (BitVec.ofNat 13 (fld v 0 13), BitVec.ofNat 13 (fld v 16 13), true) ∧
      bit (preg t .pl 0x11C) 31 = false ∧
      preg t .pl 0x128 = preg s .pl 0x128) ∧
  (∀ (s : State) (v : W32), Starts s .pl 0x11C 31 v → (4592 ≤ (fld v 0 13) ∨ 4592 ≤ (fld v 16 13)) →
    Runs (.plMove v) s [.page .pl, .staged, .pl] fun t =>
      preg t .pl 0x128 = 2 ∧
      bit (preg t .pl 0x10) 0 = true ∧
      t.pl = s.pl) ∧
  (∀ (s : State) (v : W32), Starts s .pl 0x11C 31 v → fld v 0 13 < 4592 → fld v 16 13 < 4592 → stackOfRegion s (fld v 0 13) = stackOfRegion
    s (fld v 16 13) →
    Runs (.plMove v) s [.page .pl, .staged, .pl] fun t =>
      preg t .pl 0x128 = 3 ∧
      bit (preg t .pl 0x10) 0 = true ∧
      t.pl = s.pl) ∧
  (∀ (s : State) (v : W32), Starts s .pl 0x11C 31 v → fld v 0 13 < 4592 → fld v 16 13 < 4592 → stackOfRegion s (fld v 0 13) ≠ stackOfRegion
    s (fld v 16 13) → (stackFenced s (stackOfRegion s (fld v 0 13)) = true ∨ stackFenced s (stackOfRegion s (fld v 16 13)) = true) →
    Runs (.plMove v) s [.page .pl, .staged, .pl] fun t =>
      preg t .pl 0x128 = 4 ∧
      bit (preg t .pl 0x10) 0 = true ∧
      t.pl = s.pl) ∧
  (∀ (s : State) (v : W32), Starts s .pl 0x11C 31 v → fld v 0 13 < 4592 → fld v 16 13 < 4592 → stackOfRegion s (fld v 0 13) ≠ stackOfRegion
    s (fld v 16 13) → stackFenced s (stackOfRegion s (fld v 0 13)) = false → stackFenced s (stackOfRegion s (fld v 16 13)) = false →
    s.pl.cur.isSome = true → s.pl.abandoned = false →
    Runs (.plMove v) s [.page .pl, .staged, .pl] fun t =>
      preg t .pl 0x128 = 5 ∧
      bit (preg t .pl 0x10) 0 = true ∧
      t.pl = s.pl) ∧
  (∀ (s : State) (a : BitVec 13) (b : BitVec 13) (m : Bool), plMayRun s = true → s.pl.cur = none → s.pl.queued = some (a, b, m) →
    stackOfRegion s a.toNat ≠ stackOfRegion s b.toNat → s.pl.begun < fld (preg s .pl 0x100) 8 8 → swapFenced s a b = false → windowMoves s
    a = false → windowMoves s b = false →
    Runs (.plChunkStart) s [.pl] fun t =>
      t.pl.cur = some (a, b) ∧
      t.pl.prog = 0 ∧
      t.pl.chunk = true ∧
      t.pl.queued = none ∧
      t.pl.begun = s.pl.begun + 1) ∧
  (∀ (s : State), plMayRun s = true → s.pl.cur.isSome = true → s.pl.prog.toNat < 1024 →
    Runs (.plChunkStart) s [.pl] fun t =>
      t.pl = { s.pl with chunk := true }) ∧
  (∀ (s : State), plMayRun s = false →
    Runs (.plChunkStart) s [] fun t =>
      t.pl = s.pl) ∧
  (∀ (s : State) (a : BitVec 13) (b : BitVec 13), s.pl.chunk = true → s.pl.abandoned = false → s.pl.cur = some (a, b) → swapFenced s a b =
    false →
    Settles (.plChunkDone) s [.page .pl, .pl] fun t =>
      t.pl = { s.pl with chunk := false, prog := s.pl.prog + 1 }) ∧
  (∀ (s : State) (a : BitVec 13) (b : BitVec 13), s.pl.chunk = true → s.pl.abandoned = false → s.pl.cur = some (a, b) → swapFenced s a b =
    true →
    Settles (.plChunkDone) s [.page .pl, .pl] fun t =>
      t.pl.abandoned = true ∧
      t.pl.prog = s.pl.prog + 1 ∧
      t.pl.map = s.pl.map ∧
      preg t .pl 0x128 = 6 ∧
      bit (preg t .pl 0x10) 1 = true) ∧
  (∀ (s : State) (a : BitVec 13) (b : BitVec 13), s.pl.cur = some (a, b) → plMayRun s = true → s.pl.prog = 1024 →
    Settles (.plCommit) s [.page .pl, .pl] fun t =>
      placeOf t a.toNat = placeOf s b.toNat ∧
      placeOf t b.toNat = placeOf s a.toNat ∧
      t.pl.cur = none ∧
      preg t .pl 0x128 = 1 ∧
      preg t .pl 0x12C = satAdd (preg s .pl 0x12C) 1) ∧
  (∀ (s : State) (a : BitVec 13) (b : BitVec 13) (r : Nat), s.pl.cur = some (a, b) → r ≠ a.toNat → r ≠ b.toNat →
    Settles (.plCommit) s [.page .pl, .pl] fun t =>
      placeOf t r = placeOf s r) ∧
  (∀ (s : State) (heat : List (Nat × Nat)) (ch : List Nat), windowOver s = true → bit (preg s .pl 0x100) 16 = false →
    Runs (.plWindowEnd heat ch) s [.page .pl, .pl] fun t =>
      t.pl.heat = heat.foldl (fun (m : Sparse Nat) e => sset (fun _ => 0) m e.1 e.2) [] ∧
      t.pl.begun = 0 ∧
      t.pl.steps = 0 ∧
      t.pl.queued = s.pl.queued ∧
      (∀ n : Fin 8, preg t .pl (0x140 + 4 * n.val) = BitVec.ofNat 32 (nth ch n.val 0 % 2 ^ 24))) ∧
  (∀ (s : State) (heat : List (Nat × Nat)) (ch : List Nat) (a : Nat) (b : Nat), windowOver s = true → bit (preg s .pl 0x100) 16 = true →
    stopped s = false → s.pl.abandoned = false → s.pl.queued = none → loopChoice { s with
    pl := { s.pl with heat := heat.foldl (fun (m : Sparse Nat) e => sset (fun _ => 0) m e.1 e.2) [] } } ch = some (a, b) →
    Runs (.plWindowEnd heat ch) s [.page .pl, .pl] fun t =>
      t.pl.queued = some (BitVec.ofNat 13 a, BitVec.ofNat 13 b, false)) ∧
  (∀ (s : State) (v : W32), Unlocked s .pl → fenced s .pl = false → bit v 1 = false → bit v 2 = false →
    Runs (.plEnable v) s [.page .pl, .boot] fun t =>
      enabled t .pl = bit v 0 ∧
      fenced t .pl = false) ∧
  (∀ (s : State) (a : BitVec 13) (b : BitVec 13) (m : Bool), plMayRun s = true → s.pl.cur = none → s.pl.queued = some (a, b, m) →
    stackOfRegion s a.toNat = stackOfRegion s b.toNat →
    Runs (.plChunkStart) s [.pl] fun t =>
      t.pl = { s.pl with queued := none }) ∧
  (∀ (s : State) (heat : List (Nat × Nat)) (ch : List Nat), windowOver s = false →
    Runs (.plWindowEnd heat ch) s [] fun t =>
      t = s)

/-- A fault message is classified, recorded and reacted to. The records of corrupted and merged messages follow assumption 43. -/
def Obligations.FaultMessages : Prop :=
  (∀ (s : State) (m : BitVec 128) (l : List (BitVec 128)) (released : List Page), s.fc.coming = m :: l → msgGood m = true → bit m 7 = false
    → bit (preg s .fc 0x100) 0 = false → fixedSource m = false → msgSev m = 1 → msgCorr m = 0 → s.fc.queue.length < 512 →
    Runs (.faultMessage 1 none released) s [.page .fc, .fc] fun t =>
      t.fc.queue = s.fc.queue ++ [newRec s m (msgLevel m) 1] ∧
      t.fc.recNo = s.fc.recNo + 1 ∧
      t.fc.coming = l ∧
      preg t .fc 0x128 = satAdd (preg s .fc 0x128) 1 ∧
      bit (preg t .fc 0x30) 16 = true ∧
      (bit (preg s .fc 0x108) 31 = true ∨ preg t .fc 0x108 = BitVec.ofNat 32 (2 ^ 31 + 2 ^ 29 + sourceId m % 2 ^ 29))) ∧
  (∀ (s : State) (m : BitVec 128) (l : List (BitVec 128)) (released : List Page), s.fc.coming = m :: l → msgGood m = true → bit m 7 = false
    → bit (preg s .fc 0x100) 0 = false → fixedSource m = false → msgSev m = 0 → msgCorr m = 0 → s.fc.queue.length < 512 →
    Runs (.faultMessage 1 none released) s [.page .fc, .fc] fun t =>
      t.fc.queue = s.fc.queue ++ [newRec s m (msgLevel m) 0] ∧
      t.fc.recNo = s.fc.recNo + 1 ∧
      preg t .fc 0x30 = preg s .fc 0x30) ∧
  (∀ (s : State) (m : BitVec 128) (l : List (BitVec 128)) (released : List Page) (id : Fin 256), s.fc.coming = m :: l → msgGood m = true →
    bit m 7 = false → bit (preg s .fc 0x100) 0 = false → fixedSource m = false → msgSev m = 2 → msgCorr m = 0 → pageOfType (msgType m)
    (msgInst m) = some (.gc id) → released.contains (.gc id) = false → enabled s .fc = true → s.fc.queue.length < 512 →
    Runs (.faultMessage 1 none released) s [.page .fc, .page .gc, .page .ml, .page .sd, .cores, .locks, .sd, .fc, .boot, .ports] fun t =>
      (t.core id).st = .fenced ∧
      t.fc.queue = s.fc.queue ++ [newRec s m (msgLevel m) 3] ∧
      bit (preg t .fc 0x30) 17 = true) ∧
  (∀ (s : State) (m : BitVec 128) (l : List (BitVec 128)) (released : List Page), s.fc.coming = m :: l → msgGood m = true → bit m 7 = false
    → bit (preg s .fc 0x100) 0 = false → fixedSource m = false → msgSev m = 2 → msgCorr m = 0 → enabled s .fc = false → s.fc.queue.length <
    512 →
    Runs (.faultMessage 1 none released) s [.page .fc, .fc] fun t =>
      t.fc.queue = s.fc.queue ++ [newRec s m (msgLevel m) 9] ∧
      bit (preg t .fc 0x10) 4 = true ∧
      bit (preg t .fc 0x30) 16 = true ∧
      t.cores = s.cores) ∧
  (∀ (s : State) (m : BitVec 128) (l : List (BitVec 128)) (released : List Page), s.fc.coming = m :: l → msgGood m = true → bit m 7 = false
    → bit (preg s .fc 0x100) 0 = false → fixedSource m = false → msgSev m = 3 → msgCorr m = 0 → s.fc.safe = false → s.fc.queue.length < 512
    →
    Runs (.faultMessage 1 none released) s [.page .fc, .page .ep, .page .lb, .page .xl, .cores, .slices, .lw, .cxl, .frz, .ports, .fc, .lb] fun t =>
      t.fc.safe = true ∧
      t.frz.on = true ∧
      t.fc.portsToFence = 0xFF ∧
      t.fc.aliveStopped = true ∧
      t.fc.queue = s.fc.queue ++ [newRec s m (msgLevel m) 5] ∧
      bit (preg t .fc 0x30) 18 = true) ∧
  (∀ (s : State) (m : BitVec 128) (l : List (BitVec 128)) (released : List Page) (i : Nat), s.fc.coming = m :: l → msgGood m = true → bit m
    7 = false → bit (preg s .fc 0x100) 0 = false → fixedSource m = false → msgSev m = 1 → s.fc.queue.findIdx? (mergesInto s m) = some i →
    Runs (.faultMessage 1 none released) s [.page .fc, .fc] fun t =>
      t.fc.queue = mapAt (fun r => mergeRec r m 1) s.fc.queue i ∧
      t.fc.recNo = s.fc.recNo ∧
      preg t .fc 0x12C = satAdd (preg s .fc 0x12C) 1) ∧
  (∀ (s : State) (m : BitVec 128) (l : List (BitVec 128)) (released : List Page), s.fc.coming = m :: l → msgGood m = true → bit m 7 = false
    → bit (preg s .fc 0x100) 0 = false → fixedSource m = false → msgSev m = 1 → msgCorr m = 0 → 512 ≤ s.fc.queue.length → sourceId m ≠ 2 *
    8192 + 1 →
    Runs (.faultMessage 1 none released) s [.page .fc, .fc] fun t =>
      t.fc.queue = s.fc.queue ∧
      preg t .fc 0x124 = satAdd (preg s .fc 0x124) 1 ∧
      bit (preg t .fc 0x10) 1 = true ∧
      preg t .fc 0x128 = satAdd (preg s .fc 0x128) 1) ∧
  (∀ (s : State) (m : BitVec 128) (l : List (BitVec 128)) (released : List Page), s.fc.coming = m :: l → msgGood m = false → maskedSrc s
    .fc 0 = false → severityOf s false (sevOf s .fc 0) = 1 → s.fc.queue.length < 512 →
    Runs (.faultMessage 1 none released) s [.page .fc, .fc] fun t =>
      bit (preg t .fc 0x10) 0 = true ∧
      t.fc.queue = s.fc.queue ++ [newRec s m 0 1] ∧
      t.fc.coming = l) ∧
  (∀ (s : State) (m : BitVec 128) (l : List (BitVec 128)) (released : List Page) (id : Fin 256), s.fc.coming = m :: l → msgGood m = true →
    bit m 7 = false → bit (preg s .fc 0x100) 0 = false → fixedSource m = false → msgSev m = 2 → msgCorr m = 0 → pageOfType (msgType m)
    (msgInst m) = some (.gc id) → released.contains (.gc id) = true → enabled s .fc = true → s.fc.queue.length < 512 →
    Runs (.faultMessage 1 none released) s [.page .fc, .fc] fun t =>
      t.cores = s.cores ∧
      t.fc.queue = s.fc.queue ++ [newRec s m (msgLevel m) 3] ∧
      bit (preg t .fc 0x30) 17 = true)

/-- The safe state, the record queue, the watchdog and ALIVE, injection. -/
def Obligations.SafeState : Prop :=
  (∀ (s : State) (v : W32), Starts s .fc 0x100 8 v → s.fc.safe = false →
    Runs (.safe v) s [.page .fc, .page .lb, .page .ep, .page .xl, .staged, .cores, .slices, .lw, .cxl, .frz, .ports, .fc, .lb] fun t =>
      t.fc.safe = true ∧
      t.fc.portsToFence = 0xFF ∧
      t.fc.aliveStopped = true ∧
      t.frz.on = true ∧
      bit (preg t .fc 0x100) 8 = false ∧
      t.fc.abortIds.head? = some (BitVec.ofNat 8 (fleetId s), s.tide.step.setWidth 32) ∧
      (∀ n : Fin 8, (s.port n).st ≠ .up ∨ (t.port n).replayBuf.length = (s.port n).replayBuf.length + 1) ∧
      aliveRuns t = false) ∧
  (∀ (s : State) (n : Fin 8), s.fc.portsToFence.getLsbD n.val = true → fenced s (.xl n) = false →
    Runs (.safeStatePortFence n) s [.page .xl, .ports, .fc, .boot] fun t =>
      fenced t (.xl n) = true ∧
      (t.port n).st = .down ∧
      t.fc.portsToFence.getLsbD n.val = false) ∧
  (∀ (s : State), s.fc.safe = false →
    Runs (.selfPe) s [.page .fc, .page .lb, .page .ep, .page .xl, .cores, .slices, .lw, .cxl, .frz, .ports, .fc, .lb] fun t =>
      t.fc.safe = true ∧
      t.frz.on = true ∧
      bit (preg t .fc 0x10) 3 = true ∧
      t.fc.recNo = s.fc.recNo + 1 ∧
      t.fc.queue = s.fc.queue) ∧
  (∀ (s : State) (v : W32), Starts s .fc 0x120 0 v → bit v 1 = false →
    Runs (.pop v) s [.page .fc, .staged, .fc] fun t =>
      t.fc.queue = s.fc.queue.drop 1 ∧
      t.fc.recNo = s.fc.recNo ∧
      bit (preg t .fc 0x120) 0 = false) ∧
  (∀ (s : State) (v : W32), Starts s .fc 0x120 1 v → bit v 0 = false →
    Runs (.empty v) s [.page .fc, .staged, .fc] fun t =>
      t.fc.queue = [] ∧
      t.fc.recNo = s.fc.recNo ∧
      bit (preg t .fc 0x120) 1 = false) ∧
  (∀ (s : State) (v : W32), Starts s .fc 0x138 0 v →
    Runs (.wdogKick v) s [.page .fc, .staged, .fc] fun t =>
      t.fc.wdogSet = false) ∧
  (∀ (s : State), bit (preg s .dev 0x104) 0 = true → s.fc.safe = false → s.fc.wdogSet = false → fld (preg s .fc 0x134) 0 16 ≠ 0 →
    Runs (.wdog) s [.page .fc, .fc] fun t =>
      t.fc.wdogSet = true ∧
      bit (preg t .fc 0x10) 2 = true) ∧
  (∀ (s : State) (b : Bool), (aliveRuns s = true ∨ b = true) →
    Runs (.aliveRb b) s [.page .fc, .fc] fun t =>
      t.fc.aliveRb = b ∧
      bit (preg t .fc 0x10) 5 = true) ∧
  (∀ (s : State), aliveRuns s = false →
    Runs (.aliveRb false) s [.page .fc, .fc] fun t =>
      t.fc.aliveRb = false ∧
      preg t .fc 0x10 = preg s .fc 0x10) ∧
  (∀ (s : State) (m : BitVec 128), s.gp.factory = true →
    Runs (.faultInjection (.message m)) s [] fun t =>
      t.fc.coming.length = s.fc.coming.length + 1 ∧
      (t.fc.coming.getLast?.map fun x => (bit x 7, msgSrc x, msgInst x, msgType x, msgGood x)) = some (true, msgSrc m, msgInst m, msgType
          m, true)) ∧
  (∀ (s : State) (p : Page) (b : W32), s.gp.factory = true →
    Runs (.faultInjection (.bits p b)) s [.page (classOf p)] fun t =>
      (∀ k : Fin 32, bit b k.val = false ∨ bit (preg t p 0x10) k.val = true)) ∧
  (∀ (s : State) (x : Injection), s.gp.factory = false →
    Runs (.faultInjection x) s [] fun t =>
      t.fc.coming = s.fc.coming)

/-- The logbook writes one entry at a time, and loses what it cannot keep. When entries are copied is assumption 27. -/
def Obligations.LogbookRing : Prop :=
  (∀ (s : State) (e : BitVec 256) (l : List (BitVec 256)), s.lb.inq = e :: l → s.lb.lost = 0 → headBlocked s = false →
    Runs (.logbookEntry) s [.page .lb, .lb] fun t =>
      sget (fun _ => 0) t.lb.ring s.lb.head.toNat = stampEntry s e ∧
      t.lb.head = s.lb.head + 1 ∧
      t.lb.inq = l ∧
      t.lb.wrapped = (s.lb.wrapped || decide (s.lb.head = 0xFFF)) ∧
      preg t .lb 0x120 = satAdd (preg s .lb 0x120) 1) ∧
  (∀ (s : State) (e : BitVec 256) (l : List (BitVec 256)), s.lb.inq = e :: l → s.lb.lost ≠ 0 → s.lb.snap = none →
    Runs (.logbookEntry) s [.page .lb, .lb] fun t =>
      sget (fun _ => 0) t.lb.ring s.lb.head.toNat = stampEntry s (BitVec.ofNat 256 (s.lb.lost.toNat + 11 * 2 ^ 232)) ∧
      sget (fun _ => 0) t.lb.ring (s.lb.head + 1).toNat = stampEntry s e ∧
      t.lb.head = s.lb.head + 2 ∧
      t.lb.lost = 0) ∧
  (∀ (s : State) (e : BitVec 256) (l : List (BitVec 256)), s.lb.inq = e :: l → headBlocked s = true →
    Runs (.logbookEntry) s [.page .lb, .lb] fun t =>
      t.lb.ring = s.lb.ring ∧
      t.lb.head = s.lb.head ∧
      t.lb.lost = satAdd s.lb.lost 1 ∧
      preg t .lb 0x11C = satAdd (preg s .lb 0x11C) 1) ∧
  (∀ (s : State) (v : W32), Starts s .lb 0x100 4 v → bit v 0 = false → bit v 1 = false → s.lb.inq.length < 256 →
    Runs (.note v) s [.page .lb, .staged, .lb] fun t =>
      t.lb.inq.length = s.lb.inq.length + 1 ∧
      (t.lb.inq.getLast?.map fun e => (entryKind e, fld e 0 128)) = some (10, preg64 s .lb 0x140 + preg64 s .lb 0x148 * 2 ^ 64) ∧
      bit (preg t .lb 0x100) 4 = false) ∧
  (∀ (s : State) (v : W32), Starts s .lb 0x100 1 v → bit v 0 = false → bit v 4 = false →
    Runs (.rdLoad v) s [.page .lb, .staged, .lb] fun t =>
      (∀ k : Fin 512, preg t .lb (0x800 + 4 * k.val) = BitVec.ofNat 32 (bytesNat (((rdBlock s).drop (4 * k.val)).take 4))) ∧
      bit (preg t .lb 0x100) 1 = false)

/-- Snapshots to the flash ring: started, programmed page by page, committed, abandoned. When entries are copied is assumption 27; with no
  committed slot, slots 0 and 1 are ready (assumption 5). -/
def Obligations.Snapshots : Prop :=
  (∀ (s : State) (v : W32) (n : Fin 16) (l : List (Fin 16)), Starts s .lb 0x100 0 v → bit v 1 = false → bit v 4 = false → enabled s .lb =
    true → s.lb.snap = none → readyErased s = n :: l →
    Runs (.lbSnap v) s [.page .lb, .staged, .lb] fun t =>
      t.lb.snap.map (fun x => (x.kind, x.short, x.slot, x.seq, x.ops, x.host)) = some (3, false, n, preg s .lb 0x114, 0, true) ∧
      t.lb.inq = [] ∧
      bit (preg t .lb 0x100) 0 = true ∧
      t.out.getLast? = some (.flash n 1)) ∧
  (∀ (s : State) (v : W32), Starts s .lb 0x100 0 v → bit v 1 = false → bit v 4 = false → enabled s .lb = true → s.lb.snap = none →
    readyErased s = [] →
    Runs (.lbSnap v) s [.page .lb, .staged, .lb] fun t =>
      t.lb.snap = none ∧
      bit (preg t .lb 0x10) 1 = true ∧
      bit (preg t .lb 0x100) 0 = false) ∧
  (∀ (s : State) (v : W32), Starts s .lb 0x100 0 v → bit v 1 = false → bit v 4 = false → enabled s .lb = true → s.lb.snap.isSome = true →
    Runs (.lbSnap v) s [.page .lb, .staged, .lb] fun t =>
      t.lb.snap = s.lb.snap ∧
      t.lb.hostWaits = true ∧
      bit (preg t .lb 0x100) 0 = true) ∧
  (∀ (s : State) (x : Snap) (us : W16) (ue : Byte), s.lb.snap = some x → x.ops = 0 →
    Runs (.flashOperationComplete us ue) s [.page .lb, .lb] fun t =>
      (t.lb.slots.get x.slot).header = some x.header ∧
      t.lb.snap = some { (copyPage s x ue).1 with ops := 1 } ∧
      t.out = s.out ++ [.flash x.slot 2]) ∧
  (∀ (s : State) (x : Snap) (us : W16) (ue : Byte), s.lb.snap = some x → bodyPages x.entries.length + 2 ≤ x.ops → s.lb.fatalWaits = false →
    s.lb.hostWaits = false →
    Runs (.flashOperationComplete us ue) s [.page .lb, .lb] fun t =>
      (t.lb.slots.get x.slot).commit = true ∧
      t.lb.snap = none ∧
      t.lb.newest = some x.slot ∧
      preg t .lb 0x114 = preg s .lb 0x114 + 1 ∧
      preg t .lb 0x124 = satAdd (preg s .lb 0x124) 1 ∧
      t.lb.followUp = (x.short && powerFailing s)) ∧
  (∀ (s : State) (n : Fin 16) (us : W16) (ue : Byte), s.lb.snap = none → slotToErase s = some n →
    Runs (.flashOperationComplete us ue) s [.page .lb, .lb] fun t =>
      t.lb.slots.get n = flashSlotErased) ∧
  (∀ (s : State) (x : Snap), s.lb.snap = some x → s.lb.fatalWaits = false → s.lb.hostWaits = false →
    Runs (.flashErr) s [.page .lb, .lb] fun t =>
      t.lb.snap = none ∧
      bit (preg t .lb 0x10) 0 = true ∧
      t.lb.newest = s.lb.newest ∧
      (x.host = false ∨ bit (preg t .lb 0x100) 0 = false)) ∧
  (∀ (s : State) (n : Fin 16) (l : List (Fin 16)), s.lb.followUp = true → s.lb.snap = none → s.mod.v12 ≠ 0 → readyErased s = n :: l →
    Runs (.powerFailFollowup) s [.page .lb, .lb] fun t =>
      t.lb.snap.map (fun x => (x.kind, x.short, x.slot, x.seq, x.ops, x.host)) = some (2, false, n, preg s .lb 0x114, 0, false) ∧
      t.lb.followUp = false) ∧
  (∀ (s : State) (x : Snap) (us : W16) (ue : Byte), s.lb.snap = some x → x.ops = 1 → 8 < x.entries.length →
    Runs (.flashOperationComplete us ue) s [.page .lb, .lb] fun t =>
      (t.lb.slots.get x.slot).body = x.entries.take 8 ∧
      t.lb.snap.map (fun y => (y.ops, y.entries.length)) = some (2, x.entries.length) ∧
      (∀ i : Fin 4080, t.lb.snap.bind (fun y => y.entries[i.val]?) = (x.entries[i.val]?).map fun e => if 8 ≤ i.val ∧ i.val < 16 ∧
          ue.getLsbD (i.val - 8) = true then damagedEntry s x i.val else e))

/-- The gangplank: challenge, attempt, lockout, close. The nonce, the digest and the response check are free (assumption 8): the statement holds
  for every value of them. -/
def Obligations.GangplankAttempts : Prop :=
  (∀ (s : State) (v : W32) (j : Bool), (j = false ∨ s.gp.tap = true) → Starts s .gp 0x100 8 v → bit v 9 = false → bit v 10 = false →
    Runs (.challenge v j) s [.page .gp, .staged, .gp] fun t =>
      t.gp.nonceOk = true ∧
      t.gp.nonce = Config.freeNonce s.fresh ∧
      pregs t .gp 0x110 8 = t.gp.nonce.toNat ∧
      t.gp.level = s.gp.level ∧
      bit (preg t .gp 0x100) 8 = false) ∧
  (∀ (s : State) (v : W32) (j : Bool), (j = false ∨ s.gp.tap = true) → Starts s .gp 0x100 9 v → bit v 8 = false → bit v 10 = false →
    s.gp.locked = false → fld v 0 2 = 1 →
    Runs (.submit v j) s [.page .gp, .staged, .gp] fun t =>
      t.gp.nonceOk = false ∧
      preg t .gp 0x170 = satAdd (preg s .gp 0x170) 1 ∧
      (∀ k : Fin 16, preg t .gp (0x130 + 4 * k.val) = 0) ∧
      bit (preg t .gp 0x100) 9 = false ∧
      t.gp.result = (if Config.passwordDigestMatches (serial s) (BitVec.ofNat 128 (pregs s .gp 0x130 4)) = true then 1 else 2) ∧
      t.gp.level = (if Config.passwordDigestMatches (serial s) (BitVec.ofNat 128 (pregs s .gp 0x130 4)) = true then 1 else s.gp.level) ∧
      t.gp.fails = (if Config.passwordDigestMatches (serial s) (BitVec.ofNat 128 (pregs s .gp 0x130 4)) = true then s.gp.fails else
          s.gp.fails + 1) ∧
      t.gp.locked = (if Config.passwordDigestMatches (serial s) (BitVec.ofNat 128 (pregs s .gp 0x130 4)) = true then false else decide (8 ≤
          (s.gp.fails + 1).toNat)) ∧
      (if Config.passwordDigestMatches (serial s) (BitVec.ofNat 128 (pregs s .gp 0x130 4)) = true then preg t .gp 0x10 = preg s .gp 0x10
          else bit (preg t .gp 0x10) 0 = true)) ∧
  (∀ (s : State) (v : W32) (j : Bool), (j = false ∨ s.gp.tap = true) → Starts s .gp 0x100 9 v → bit v 8 = false → bit v 10 = false →
    s.gp.locked = false → 2 ≤ fld v 0 2 → s.gp.nonceOk = true →
    Runs (.submit v j) s [.page .gp, .staged, .gp] fun t =>
      t.gp.nonceOk = false ∧
      preg t .gp 0x170 = satAdd (preg s .gp 0x170) 1 ∧
      (∀ k : Fin 16, preg t .gp (0x130 + 4 * k.val) = 0) ∧
      bit (preg t .gp 0x100) 9 = false ∧
      t.gp.result = (if Config.responseMatches s.gp.nonce (serial s) (BitVec.ofNat 8 (fld v 0 2)) (BitVec.ofNat 384 (pregs s .gp 0x140 12))
          = true then 1 else 3) ∧
      t.gp.level = (if Config.responseMatches s.gp.nonce (serial s) (BitVec.ofNat 8 (fld v 0 2)) (BitVec.ofNat 384 (pregs s .gp 0x140 12))
          = true then 2 else s.gp.level) ∧
      t.gp.factory = (if Config.responseMatches s.gp.nonce (serial s) (BitVec.ofNat 8 (fld v 0 2)) (BitVec.ofNat 384 (pregs s .gp 0x140
          12)) = true then decide (fld v 0 2 = 3) else s.gp.factory) ∧
      t.gp.fails = (if Config.responseMatches s.gp.nonce (serial s) (BitVec.ofNat 8 (fld v 0 2)) (BitVec.ofNat 384 (pregs s .gp 0x140 12))
          = true then s.gp.fails else s.gp.fails + 1)) ∧
  (∀ (s : State) (v : W32) (j : Bool), (j = false ∨ s.gp.tap = true) → Starts s .gp 0x100 9 v → bit v 8 = false → bit v 10 = false →
    s.gp.locked = false → 2 ≤ fld v 0 2 → s.gp.nonceOk = false →
    Runs (.submit v j) s [.page .gp, .staged, .gp] fun t =>
      t.gp.nonceOk = false ∧
      preg t .gp 0x170 = satAdd (preg s .gp 0x170) 1 ∧
      (∀ k : Fin 16, preg t .gp (0x130 + 4 * k.val) = 0) ∧
      bit (preg t .gp 0x100) 9 = false ∧
      t.gp.result = 4 ∧
      t.gp.level = s.gp.level ∧
      t.gp.fails = s.gp.fails) ∧
  (∀ (s : State) (v : W32) (j : Bool), (j = false ∨ s.gp.tap = true) → Starts s .gp 0x100 9 v → bit v 8 = false → bit v 10 = false →
    s.gp.locked = true →
    Runs (.submit v j) s [.page .gp, .staged, .gp] fun t =>
      t.gp.nonceOk = false ∧
      preg t .gp 0x170 = satAdd (preg s .gp 0x170) 1 ∧
      (∀ k : Fin 16, preg t .gp (0x130 + 4 * k.val) = 0) ∧
      bit (preg t .gp 0x100) 9 = false ∧
      t.gp.result = 5 ∧
      t.gp.level = s.gp.level ∧
      t.gp.fails = s.gp.fails ∧
      t.gp.locked = true) ∧
  (∀ (s : State) (v : W32) (j : Bool), (j = false ∨ s.gp.tap = true) → Starts s .gp 0x100 10 v → bit v 8 = false → bit v 9 = false →
    Runs (.close v j) s [.page .gp, .staged, .gp] fun t =>
      t.gp.level = 0 ∧
      t.gp.factory = false ∧
      t.gp.win = s.gp.win ∧
      bit (preg t .gp 0x100) 10 = false) ∧
  (∀ (s : State),
    Runs (.nonceExpiry) s [.gp] fun t =>
      t.gp = { s.gp with nonceOk := false })

/-- JTAG, and the debug windows. What a granted debug read returns is free (assumption 8); boundary cells are not modelled (assumption 29); of a
  granted write the model keeps the word and changes nothing else, which is its own choice (assumption 47). -/
def Obligations.JtagAndWindows : Prop :=
  (∀ (s : State), s.gp.tap = true →
    Runs (.extest) s [.gp] fun t =>
      t.gp = { s.gp with ir := 0 }) ∧
  (∀ (s : State), s.gp.tap = true →
    Runs (.samplePreload) s [.gp] fun t =>
      t.gp = { s.gp with ir := 2 }) ∧
  (∀ (s : State), s.gp.tap = true →
    Runs (.idcode) s [.gp] fun t =>
      t.gp = { s.gp with ir := 1 } ∧
      t.out = s.out ++ [.readData (preg s .gp 0x174)]) ∧
  (∀ (s : State) (c : Byte), s.gp.tap = true → c ∉ [0, 1, 2, 0x20, 0x21] →
    Runs (.bypass c) s [.gp] fun t =>
      t.gp = { s.gp with ir := c } ∧
      t.out = s.out) ∧
  (∀ (s : State), s.gp.tap = false →
    Runs (.extest) s [] fun t =>
      t.gp = s.gp) ∧
  (∀ (s : State) (l : PinLevel),
    Runs (.trstN l) s [.gp, .mod] fun t =>
      t.mod = { s.mod with trst := l } ∧
      t.gp = (if l = .high then { s.gp with tap := true } else { s.gp with tap := false, ir := 1 })) ∧
  (∀ (s : State) (v : W32), s.gp.tap = true → Unlocked s .gp →
    Runs (.gpReg 0x130 (some v)) s [.page .gp, .gp] fun t =>
      preg t .gp 0x130 = v ∧
      t.gp = { s.gp with ir := 0x20 }) ∧
  (∀ (s : State), s.gp.tap = true →
    Runs (.gpReg 0x174 none) s [.gp] fun t =>
      t.out = s.out ++ [.readData (preg s .gp 0x174)] ∧
      t.gp = { s.gp with ir := 0x20 }) ∧
  (∀ (s : State) (off : BitVec 26), s.gp.tap = true → windowGrant s off.toNat ≠ 0 →
    Runs (.dbg off none) s [.gp] fun t =>
      t.out = s.out ++ [.readData (Config.freeDebug s.fresh off.toNat)] ∧
      t.gp = { s.gp with ir := 0x21 }) ∧
  (∀ (s : State) (off : BitVec 26), s.gp.tap = true → windowGrant s off.toNat = 0 →
    Runs (.dbg off none) s [.gp] fun t =>
      t.out = s.out ∧
      t.gp = { s.gp with ir := 0x21 }) ∧
  (∀ (s : State) (off : BitVec 26) (v : W32), s.gp.tap = true → windowGrant s off.toNat = 2 →
    Runs (.dbg off (some v)) s [.gp] fun t =>
      t.gp = { s.gp with ir := 0x21, win := sset (fun _ => 0) s.gp.win off.toNat v } ∧
      t.out = s.out) ∧
  (∀ (s : State) (off : BitVec 26), 0x2000000 ≤ off.toNat → windowGrant s off.toNat = 0 →
    Runs (.debugWindowAccess off none) s [.page .dev] fun t =>
      t.out = s.out ++ [.readData 0] ∧
      preg t .dev 0x11C = BitVec.ofNat 32 (off.toNat / 4 * 4) ∧
      preg t .dev 0x120 = satAdd (preg s .dev 0x120) 1) ∧
  (∀ (s : State) (off : BitVec 26) (v : W32), 0x2000000 ≤ off.toNat → windowGrant s off.toNat = 0 →
    Runs (.debugWindowAccess off (some v)) s [.page .dev] fun t =>
      t.out = s.out ∧
      preg t .dev 0x11C = BitVec.ofNat 32 (off.toNat / 4 * 4 + 2) ∧
      preg t .dev 0x120 = satAdd (preg s .dev 0x120) 1) ∧
  (∀ (s : State) (off : BitVec 26), 0x2000000 ≤ off.toNat → windowGrant s off.toNat ≠ 0 →
    Runs (.debugWindowAccess off none) s [] fun t =>
      t.out = s.out ++ [.readData (Config.freeDebug s.fresh off.toNat)]) ∧
  (∀ (s : State) (off : BitVec 26) (v : W32), 0x2000000 ≤ off.toNat → windowGrant s off.toNat = 1 →
    Runs (.debugWindowAccess off (some v)) s [] fun t =>
      t.out = s.out) ∧
  (∀ (s : State) (off : BitVec 26) (v : W32), 0x2000000 ≤ off.toNat → windowGrant s off.toNat = 2 →
    Runs (.debugWindowAccess off (some v)) s [.gp] fun t =>
      t.gp = { s.gp with win := sset (fun _ => 0) s.gp.win off.toNat v } ∧
      t.out = s.out)

/-- The 54 V and 12 V inputs: what falls with the main rails, and what stays. What reaches the ring before the rails fall is assumption 27. -/
def Obligations.PowerInputs : Prop :=
  (∀ (s : State), s.mod.mainOn = true →
    Runs (.inputUndervoltage) s [.page .dev, .page .fc, .page .lb, .page .gp, .page .td, .page .al, .page .bt, .page .xb, .page .vt, .page .lw, .page .ep, .page .fm, .page .ml, .page .sd, .page .pl, .page .dc, .page .cl, .page .mc, .page .xl, .page .gc, .tt, .staged, .captured, .tide, .cores, .mesh, .fares, .locks, .sd, .clusters, .mailboxes, .bar4, .xb, .ctxs, .drains, .dm, .slices, .lw, .cxl, .frz, .ports, .eqs, .scrubs, .pl, .fc, .lb, .gp, .mod, .boot] fun t =>
      t.cores = State.reset.cores ∧
      t.locks = State.reset.locks ∧
      t.mesh = [] ∧
      t.tide = tideReset ∧
      t.clusters = State.reset.clusters ∧
      t.slices = State.reset.slices ∧
      t.cxl = cxlReset ∧
      t.frz = frzReset ∧
      t.ports = State.reset.ports ∧
      t.mailboxes = State.reset.mailboxes ∧
      t.ctxs = State.reset.ctxs ∧
      t.gp.fails = 0 ∧
      t.gp.locked = false ∧
      t.lb.slots = s.lb.slots ∧
      t.lb.newest = s.lb.newest ∧
      t.lb.snap = none ∧
      t.regs = [] ∧
      t.dm = [] ∧
      t.poison = [] ∧
      t.mod.mainOn = false ∧
      t.mod.conversion = false ∧
      t.mod.v54 = 2 ∧
      (s.mod.present.contains (condKey 0 condRange) = true ∨ t.mod.mbFault = s.mod.mbFault ||| 1)) ∧
  (∀ (s : State), s.mod.mainOn = false →
    Runs (.inputUndervoltage) s [.mod] fun t =>
      t.mod.v54 = 2 ∧
      t.mod.conversion = false) ∧
  (∀ (s : State), s.mod.mainOn = true →
    Runs (.inputOvervoltage) s [.page .dev, .page .fc, .page .lb, .page .gp, .page .td, .page .al, .page .bt, .page .xb, .page .vt, .page .lw, .page .ep, .page .fm, .page .ml, .page .sd, .page .pl, .page .dc, .page .cl, .page .mc, .page .xl, .page .gc, .tt, .staged, .captured, .tide, .cores, .mesh, .fares, .locks, .sd, .clusters, .mailboxes, .bar4, .xb, .ctxs, .drains, .dm, .slices, .lw, .cxl, .frz, .ports, .eqs, .scrubs, .pl, .fc, .lb, .gp, .mod, .boot] fun t =>
      t.cores = State.reset.cores ∧
      t.locks = State.reset.locks ∧
      t.mesh = [] ∧
      t.tide = tideReset ∧
      t.clusters = State.reset.clusters ∧
      t.slices = State.reset.slices ∧
      t.cxl = cxlReset ∧
      t.frz = frzReset ∧
      t.ports = State.reset.ports ∧
      t.mailboxes = State.reset.mailboxes ∧
      t.ctxs = State.reset.ctxs ∧
      t.gp.fails = 0 ∧
      t.gp.locked = false ∧
      t.lb.slots = s.lb.slots ∧
      t.lb.newest = s.lb.newest ∧
      t.lb.snap = none ∧
      t.regs = [] ∧
      t.dm = [] ∧
      t.poison = [] ∧
      t.mod.mainOn = false ∧
      t.mod.overvoltage = true ∧
      t.mod.v54 = 2) ∧
  (∀ (s : State), s.mod.mainOn = true → s.mod.v12 ≠ 0 →
    Runs (.inputReversed) s [.page .dev, .page .fc, .page .lb, .page .gp, .page .td, .page .al, .page .bt, .page .xb, .page .vt, .page .lw, .page .ep, .page .fm, .page .ml, .page .sd, .page .pl, .page .dc, .page .cl, .page .mc, .page .xl, .page .gc, .tt, .staged, .captured, .tide, .cores, .mesh, .fares, .locks, .sd, .clusters, .mailboxes, .bar4, .xb, .ctxs, .drains, .dm, .slices, .lw, .cxl, .frz, .ports, .eqs, .scrubs, .pl, .fc, .lb, .gp, .mod, .boot] fun t =>
      t.cores = State.reset.cores ∧
      t.locks = State.reset.locks ∧
      t.mesh = [] ∧
      t.tide = tideReset ∧
      t.clusters = State.reset.clusters ∧
      t.slices = State.reset.slices ∧
      t.cxl = cxlReset ∧
      t.frz = frzReset ∧
      t.ports = State.reset.ports ∧
      t.mailboxes = State.reset.mailboxes ∧
      t.ctxs = State.reset.ctxs ∧
      t.gp.fails = 0 ∧
      t.gp.locked = false ∧
      t.lb.slots = s.lb.slots ∧
      t.lb.newest = s.lb.newest ∧
      t.lb.snap = none ∧
      t.regs = [] ∧
      t.dm = [] ∧
      t.poison = [] ∧
      t.mod.mainOn = false ∧
      t.mod.v54 = 3 ∧
      (s.mod.present.contains (condKey 0 condReversed) = true ∨ t.mod.mbLast = 3 * 256)) ∧
  (∀ (s : State), s.mod.v12 = 1 →
    Runs (.mainConversionStart) s [.mod] fun t =>
      t.mod.conversion = true ∧
      t.mod.overvoltage = false ∧
      t.mod.mainOn = s.mod.mainOn ∧
      t.mod.present = s.mod.present.filter (fun k => !(decide (k / 16 = 0)))) ∧
  (∀ (s : State), s.mod.mainOn = false → s.mod.conversion = true →
    Runs (.coldReset) s [.page .dev, .page .fc, .page .lb, .page .gp, .page .td, .page .al, .page .bt, .page .xb, .page .vt, .page .lw, .page .ep, .page .fm, .page .ml, .page .sd, .page .pl, .page .dc, .page .cl, .page .mc, .page .xl, .page .gc, .tt, .staged, .captured, .tide, .cores, .mesh, .fares, .locks, .sd, .clusters, .mailboxes, .bar4, .xb, .ctxs, .drains, .dm, .slices, .lw, .cxl, .frz, .ports, .eqs, .scrubs, .pl, .fc, .lb, .gp, .mod, .boot] fun t =>
      t.cores = State.reset.cores ∧
      t.locks = State.reset.locks ∧
      t.mesh = [] ∧
      t.tide = tideReset ∧
      t.clusters = State.reset.clusters ∧
      t.slices = State.reset.slices ∧
      t.cxl = cxlReset ∧
      t.frz = frzReset ∧
      t.ports = State.reset.ports ∧
      t.mailboxes = State.reset.mailboxes ∧
      t.ctxs = State.reset.ctxs ∧
      t.gp.fails = 0 ∧
      t.gp.locked = false ∧
      t.lb.slots = s.lb.slots ∧
      t.lb.newest = s.lb.newest ∧
      t.lb.snap = none ∧
      t.regs = [] ∧
      t.dm = [] ∧
      t.poison = [] ∧
      t.mod = { s.mod with mainOn := true, refFlip := false } ∧
      t.boot.kind = 0 ∧
      t.boot.stage = 0 ∧
      t.boot.initDue = true ∧
      t.gp.level = (if s.gp.prodFuse then 0 else 2) ∧
      t.gp.factory = !s.gp.prodFuse) ∧
  (∀ (s : State),
    Runs (.standbyLoss false) s [.lb, .mod] fun t =>
      t.lb.ring = [] ∧
      t.lb.head = 0 ∧
      t.mod.v12 = 0 ∧
      t.mod.mbFault = 0 ∧
      t.mod.mbTemp = 0xFFFFFFFF ∧
      t.lb.slots = s.lb.slots ∧
      t.lb.newest = s.lb.newest) ∧
  (∀ (s : State) (straps : BitVec 3), s.mod.v12 = 0 →
    Runs (.standbyPowerUp straps) s [.lb, .mod] fun t =>
      t.lb.ring = [] ∧
      t.lb.fresh = true ∧
      t.mod.v12 = 1 ∧
      t.mod.straps = straps ∧
      t.lb.slots = s.lb.slots) ∧
  (∀ (s : State) (n : Fin 16) (l : List (Fin 16)), powerFailing s = false → s.mod.mainOn = true → enabled s .lb = true → bit (preg s .lb
    0x100) 2 = true → s.lb.snap = none → readyErased s = n :: l →
    Runs (.pwrFailNAssert) s [.page .lb, .page .al, .lb, .mod] fun t =>
      t.mod.pwrFail = .low ∧
      t.lb.snap.map (fun x => (x.kind, x.short, x.slot, x.seq, x.ops, x.host)) = some (2, true, n, preg s .lb 0x114, 0, false)) ∧
  (∀ (s : State), s.mod.pwrFail = .low → s.mod.intPf = false → s.lb.inq.length < 256 →
    Runs (.pwrFailNRelease) s [.page .lb, .page .al, .lb, .mod] fun t =>
      t.mod.pwrFail = .high ∧
      powerFailing t = false ∧
      t.lb.inq.length = s.lb.inq.length + 1 ∧
      (t.lb.inq.getLast?.map fun e => (entryKind e, fld e 0 8)) = some (7, 0)) ∧
  (∀ (s : State) (n : Fin 16) (l : List (Fin 16)), powerFailing s = false → s.mod.mainOn = true → enabled s .lb = true → bit (preg s .lb
    0x100) 2 = true → s.lb.snap = none → readyErased s = n :: l →
    Runs (.intPf) s [.page .lb, .lb, .mod] fun t =>
      t.mod.intPf = true ∧
      t.lb.snap.map (fun x => (x.kind, x.short, x.slot)) = some (2, true, n)) ∧
  (∀ (s : State),
    Runs (.intPfRelease) s [.page .lb, .lb, .mod] fun t =>
      t.mod.intPf = false ∧
      t.lb.snap = s.lb.snap) ∧
  (∀ (s : State), powerFailing s = false →
    Runs (.supervisedInputOpen .pwrFailN) s [.page .lb, .page .al, .lb, .mod] fun t =>
      t.mod.pwrFail = .opened ∧
      powerFailing t = false ∧
      t.mod.present.contains (condKey 2 condOpen) = true) ∧
  (∀ (s : State),
    Runs (.supervisedInputOpen .trstN) s [.gp, .mod] fun t =>
      t.mod.trst = .opened ∧
      t.gp.tap = false) ∧
  (∀ (s : State), s.mod.v12 ≠ 0 → s.mod.mainOn = true → s.mod.present.contains (condKey 1 condRange) = false →
    Runs (.standbyLoss true) s [.page .al, .mod] fun t =>
      t.mod.v12 = 2 ∧
      t.mod.mbFault = s.mod.mbFault ||| 2 ∧
      t.mod.mbLast = BitVec.ofNat 32 (1 + condRange * 2 ^ 8) ∧
      bit (preg t .al 0x10) 7 = true) ∧
  (∀ (s : State) (straps : BitVec 3), s.mod.v12 = 2 →
    Runs (.standbyPowerUp straps) s [.mod] fun t =>
      t.mod.v12 = 1 ∧
      t.mod.straps = s.mod.straps ∧
      t.mod.present = s.mod.present.filter (fun k => !(decide (k / 16 = 1))))

/-- Sensors, outputs read back, and the management bus. The boundaries of the leak ranges, and how onsets repeat, are assumption 23. -/
def Obligations.ModuleSensors : Prop :=
  (∀ (s : State) (x : W16) (c : Nat), s.mod.leakCand = leakReading x.toNat → s.mod.leakRun = 2 → s.mod.leak ≠ leakReading x.toNat →
    leakCondition (leakReading x.toNat) = some c → s.mod.mainOn = true → s.mod.present.contains (condKey 4 c) = false →
    Runs (.leakMeasurement x) s [.page .al, .mod] fun t =>
      t.mod.leak = leakReading x.toNat ∧
      t.mod.mbLeak = x.setWidth 32 ∧
      t.mod.mbFault = s.mod.mbFault ||| 16 ∧
      t.mod.mbLast = BitVec.ofNat 32 (4 + c * 2 ^ 8) ∧
      bit (preg t .al 0x10) 7 = true) ∧
  (∀ (s : State) (x : W16), s.mod.leakCand ≠ leakReading x.toNat →
    Runs (.leakMeasurement x) s [.page .al, .mod] fun t =>
      t.mod.leak = s.mod.leak ∧
      t.mod.leakCand = leakReading x.toNat ∧
      t.mod.leakRun = 1 ∧
      t.mod.mbLeak = x.setWidth 32 ∧
      t.mod.mbFault = s.mod.mbFault) ∧
  (∀ (s : State) (i : Fin 3) (o : BitVec 32) (c : Byte) (k : Nat), thermCondition s i o.toNat c.toNat = some k → s.mod.mainOn = true →
    s.mod.present.contains (condKey (5 + i.val) k) = false →
    Runs (.thermistorReading i o c) s [.page .al, .mod] fun t =>
      t.mod.mbFault = s.mod.mbFault ||| one32 (5 + i.val) ∧
      t.mod.mbLast = BitVec.ofNat 32 (5 + i.val + k * 2 ^ 8) ∧
      bit (preg t .al 0x10) 7 = true ∧
      fld t.mod.mbTemp (8 * i.val) 8 = (if k = condOpen ∨ k = condShort then 255 else c.toNat)) ∧
  (∀ (s : State) (i : Fin 3) (o : BitVec 32) (c : Byte), thermCondition s i o.toNat c.toNat = none →
    Runs (.thermistorReading i o c) s [.page .al, .mod] fun t =>
      fld t.mod.mbTemp (8 * i.val) 8 = c.toNat ∧
      t.mod.mbFault = s.mod.mbFault ∧
      t.mod.present = s.mod.present.filter (fun k => !(decide (k / 16 = 5 + i.val)))) ∧
  (∀ (s : State) (d : Bool) (f : PairFault), enabled s .td = true → fld (preg s .td 0x100) 0 5 = 0 → s.mod.mainOn = true →
    Runs (.tideInputFault d f) s [.page .al, .mod] fun t =>
      t.mod.mbLast = BitVec.ofNat 32 ((if d then 9 else 8) + pairCondition f * 2 ^ 8) ∧
      t.mod.mbFault = s.mod.mbFault ||| one32 (if d then 9 else 8) ∧
      bit (preg t .al 0x10) 7 = true ∧
      t.mod.refFlip = (s.mod.refFlip || (!d && decide (f = .reversed)))) ∧
  (∀ (s : State),
    Runs (.readback .alive false) s [.page .fc, .page .al, .mod] fun t =>
      bit (preg t .fc 0x10) 5 = true ∧
      t.mod = s.mod) ∧
  (∀ (s : State) (b : Bool), s.mod.mainOn = true →
    Runs (.readback .tideOutRef b) s [.page .fc, .page .al, .mod] fun t =>
      t.mod.mbFault = s.mod.mbFault ||| one32 10 ∧
      t.mod.mbLast = BitVec.ofNat 32 (10 + (if b then condShort else condReadback) * 2 ^ 8) ∧
      bit (preg t .al 0x10) 7 = true) ∧
  (∀ (s : State) (b : Bool), s.mod.mainOn = true →
    Runs (.readback .tideOutDat b) s [.page .fc, .page .al, .mod] fun t =>
      t.mod.mbFault = s.mod.mbFault ||| one32 11 ∧
      t.mod.mbLast = BitVec.ofNat 32 (11 + (if b then condShort else condReadback) * 2 ^ 8) ∧
      bit (preg t .al 0x10) 7 = true) ∧
  (∀ (s : State) (v : W32), s.mod.v12 ≠ 0 →
    Runs (.mgtBusWrite (mgtAddress s) 0x10 v) s [.mod] fun t =>
      t.mod = { s.mod with mbFault := s.mod.mbFault &&& ~~~v } ∧
      t.out = s.out ++ [.mgtAck true]) ∧
  (∀ (s : State) (v : W32), s.mod.v12 ≠ 0 →
    Runs (.mgtBusWrite (mgtAddress s) 0x28 v) s [.mod] fun t =>
      t.mod = { s.mod with mbScratch := v } ∧
      t.out = s.out ++ [.mgtAck true]) ∧
  (∀ (s : State) (o : Byte) (v : W32), s.mod.v12 ≠ 0 → o ≠ 0x10 → o ≠ 0x28 →
    Runs (.mgtBusWrite (mgtAddress s) o v) s [] fun t =>
      t.mod = s.mod ∧
      t.out = s.out ++ [.mgtAck (decide (o.toNat % 4 = 0 ∧ o.toNat ≤ 0x28))]) ∧
  (∀ (s : State) (g : BitVec 7) (o : Byte) (v : W32), g ≠ mgtAddress s →
    Runs (.mgtBusWrite g o v) s [] fun t =>
      t = s) ∧
  (∀ (s : State), s.mod.v12 ≠ 0 → s.mod.mainOn = true →
    Runs (.stuck) s [.page .al, .mod] fun t =>
      t.mod.mbFault = s.mod.mbFault ||| one32 12 ∧
      t.mod.mbLast = BitVec.ofNat 32 (12 + condStuck * 2 ^ 8) ∧
      bit (preg t .al 0x10) 7 = true) ∧
  (∀ (s : State), s.mod.v12 ≠ 0 → bit (preg s .dev 0x104) 0 = false → mbView s (mgtAddress s) 0x24 = some 0)

/-- PERST_N: the steps before the reset, the reset, its end. What a PERST_N reset keeps of the placement loop is assumption 44. -/
def Obligations.PerstReset : Prop :=
  (∀ (s : State) (o : Bool), s.mod.perst = .high → s.mod.mainOn = true → s.boot.preparing = false →
    Runs (.perstNAssert o) s [.page .xl, .page .al, .page .ep, .page .mc, .ports, .dm, .cxl, .frz, .scrubs, .pl, .mod, .boot] fun t =>
      t.boot.preparing = true ∧
      t.mod.perst = (if o then .opened else .low) ∧
      (∀ n : Fin 8, (s.port n).st ≠ .up ∨ fenced t (.xl n) = true) ∧
      t.pl.chunk = false ∧
      t.cores = s.cores) ∧
  (∀ (s : State), s.mod.perst = .high → s.mod.mainOn = true → s.boot.preparing = false →
    Runs (.supervisedInputOpen .perstN) s [.page .xl, .page .al, .page .ep, .page .mc, .ports, .dm, .cxl, .frz, .scrubs, .pl, .mod, .boot] fun t =>
      t.boot.preparing = true ∧
      t.mod.perst = .opened) ∧
  (∀ (s : State), s.boot.preparing = true → s.lb.snap = none →
    Runs (.perstNStepsDone) s [.page .dev, .page .fc, .page .lb, .page .gp, .page .td, .page .al, .page .bt, .page .xb, .page .vt, .page .lw, .page .ep, .page .fm, .page .ml, .page .sd, .page .pl, .page .dc, .page .cl, .page .mc, .page .xl, .page .gc, .tt, .staged, .captured, .tide, .cores, .mesh, .fares, .locks, .sd, .clusters, .mailboxes, .bar4, .xb, .ctxs, .drains, .dm, .slices, .lw, .cxl, .frz, .ports, .eqs, .scrubs, .pl, .fc, .lb, .gp, .mod, .boot] fun t =>
      t.cores = State.reset.cores ∧
      t.locks = State.reset.locks ∧
      t.mesh = [] ∧
      t.tide = tideReset ∧
      t.clusters = State.reset.clusters ∧
      t.slices = State.reset.slices ∧
      t.cxl = cxlReset ∧
      t.frz = frzReset ∧
      t.ports = State.reset.ports ∧
      t.mailboxes = State.reset.mailboxes ∧
      t.ctxs = State.reset.ctxs ∧
      t.lb.slots = s.lb.slots ∧
      t.lb.newest = s.lb.newest ∧
      t.lb.snap = none ∧
      t.dm = s.dm ∧
      t.poison = s.poison ∧
      t.pl.map = s.pl.map ∧
      t.pl.cur = s.pl.cur ∧
      t.gp.fails = s.gp.fails ∧
      t.gp.locked = s.gp.locked ∧
      preg t .dev 0x124 = preg s .dev 0x124 ∧
      t.mod = { s.mod with refFlip := false } ∧
      t.boot.kind = 1 ∧
      t.boot.stage = 0 ∧
      t.boot.preparing = false) ∧
  (∀ (s : State), s.boot.preparing = true → s.lb.snap.isSome = true →
    Runs (.perstNStepsDone) s [] fun t =>
      t.boot.preparing = true) ∧
  (∀ (s : State),
    Runs (.perstNRelease) s [.mod] fun t =>
      t.mod.perst = .high ∧
      (mayTrain s = true ∨ mayTrain t = false ∨ s.cxl.link ≠ .down ∨ t.out = s.out ++ [.linkReq 0]))

/-- Boot stages: the bank chosen, the fallback, recovery, firmware up. The image's values come with the command (assumption 45). -/
def Obligations.BootStages : Prop :=
  (∀ (s : State) (i : BootInfo) (b : Bool), s.mod.mainOn = true → s.boot.stage = 0 → bankTried s i = some b → bankOk i b = true →
    Runs (.bootStageComplete i) s [.page .dev, .page .fc, .page .lb, .page .al, .page .bt, .cxl, .lb, .boot] fun t =>
      t.boot.stage = 1 ∧
      t.boot.lastStage = 0 ∧
      t.boot.bankB = b ∧
      t.cxl.subsystem = i.subsystem ∧
      preg t .lb 0x108 = BitVec.ofNat 32 (i.flashBase.toNat * 2 ^ 21) ∧
      preg t .bt 0x17C = (bankDir i b).getD 0) ∧
  (∀ (s : State) (i : BootInfo) (b : Bool), s.mod.mainOn = true → s.boot.stage = 0 → s.boot.fallback = false → bankTried s i = some b →
    bankOk i b = false → (bankDir i (!b)).isSome = true →
    Runs (.bootStageComplete i) s [.page .dev, .page .fc, .page .lb, .page .al, .page .bt, .cxl, .lb, .boot] fun t =>
      t.boot.stage = 0 ∧
      t.boot.fallback = true ∧
      t.boot.bankB = !b ∧
      t.boot.recovery = s.boot.recovery) ∧
  (∀ (s : State) (i : BootInfo), s.mod.mainOn = true → s.boot.stage = 0 → bankTried s i = none →
    Runs (.bootStageComplete i) s [.page .dev, .page .fc, .page .lb, .page .al, .page .bt, .cxl, .lb, .boot] fun t =>
      t.boot.recovery = true ∧
      t.boot.stage = 3) ∧
  (∀ (s : State) (i : BootInfo), s.mod.mainOn = true → s.boot.stage = 1 → fld (preg s .dev 0x104) 1 2 = 3 → bankOk i s.boot.bankB = true →
    Runs (.bootStageComplete i) s [.page .dev, .page .fc, .page .lb, .page .al, .page .bt, .cxl, .lb, .boot] fun t =>
      t.boot.stage = 2 ∧
      t.boot.lastStage = 1) ∧
  (∀ (s : State) (i : BootInfo), s.mod.mainOn = true → s.boot.stage = 1 → fld (preg s .dev 0x104) 1 2 ≠ 3 →
    Runs (.bootStageComplete i) s [] fun t =>
      t.boot.stage = 1) ∧
  (∀ (s : State) (i : BootInfo), s.mod.mainOn = true → s.boot.stage = 2 →
    Runs (.bootStageComplete i) s [.page .dev, .page .fc, .page .lb, .page .al, .page .bt, .cxl, .lb, .boot] fun t =>
      bit (preg t .dev 0x104) 0 = true ∧
      enabled t .fc = true ∧
      enabled t .lb = true ∧
      enabled t .dev = true ∧
      t.boot.lastStage = 2 ∧
      t.boot.stage = 3 ∧
      fld (preg t .dev 4) 16 16 = s.boot.fwRev.toNat ∧
      preg t .bt 0x104 = i.elapsedMs.setWidth 32 ∧
      (s.boot.kind ≠ 0 ∨ preg t .dev 0x124 = BitVec.ofNat 32 (min (s.boot.bootCount.toNat + 1) (2 ^ 32 - 1)))) ∧
  (∀ (s : State), s.mod.mainOn = true → s.boot.stage ≠ 3 →
    Runs (.stageTimeout) s [.page .bt, .boot] fun t =>
      t.boot.stopped = true ∧
      t.boot.stage = 3 ∧
      bit (preg t .bt 0x10) 1 = true ∧
      bit (preg t .bt 0x170) 24 = true ∧
      (preg s .bt 0x178 ≠ 0 ∨ preg t .bt 0x178 = BitVec.ofNat 32 (10 + s.boot.stage.toNat * 2 ^ 8)))

/-- Self-test, memory training and initialisation. What fails with a whole group is assumption 34. -/
def Obligations.SelfTest : Prop :=
  (∀ (s : State) (g : Fin 8), s.boot.stage = 1 → s.boot.started.getLsbD g.val = false → (∀ k : Fin 8, g.val ≤ k.val ∨
    s.boot.started.getLsbD k.val = true) →
    Runs (.bistGroupStart g) s [.boot] fun t =>
      t.boot = { s.boot with started := setBit s.boot.started g.val true }) ∧
  (∀ (s : State) (g : Fin 8) (m : BitVec 64), s.boot.started.getLsbD g.val = true → s.boot.ended.getLsbD g.val = false →
    Runs (.bistGroupComplete g m true) s [.page .dev, .page .bt, .boot] fun t =>
      t.boot.ended = setBit s.boot.ended g.val true ∧
      t.boot.mismatched = s.boot.mismatched ∧
      preg64 t .bt (0x110 + 8 * g.val) = m.toNat ∧
      fld (preg t .bt 0x108) (2 * g.val) 2 = 1 ∧
      (setBit s.boot.ended g.val true ≠ 0xFF ∨ s.boot.mismatched ≠ 0 ∨ bit (preg t .dev 0x104) 1 = true)) ∧
  (∀ (s : State) (g : Fin 8) (m : BitVec 64), s.boot.started.getLsbD g.val = true → s.boot.ended.getLsbD g.val = false →
    Runs (.bistGroupComplete g m false) s [.page .dev, .page .bt, .boot] fun t =>
      t.boot.ended = setBit s.boot.ended g.val true ∧
      t.boot.mismatched = setBit s.boot.mismatched g.val true ∧
      preg64 t .bt (0x110 + 8 * g.val) = m.toNat ∧
      bit (preg t .dev 0x104) 1 = bit (preg s .dev 0x104) 1) ∧
  (∀ (s : State) (id : Fin 256), s.boot.ended = 0xFF → s.boot.mismatched = setBit 0 ((clusterOf id).val / 2) true → s.boot.localised =
    false → s.boot.stopped = false →
    Runs (.bistLocalisationDone [.core id]) s [.page .dev, .page .bt, .page .gc, .page .ml, .page .sd, .cores, .locks, .sd, .boot] fun t =>
      (t.core id).st = .fenced ∧
      t.boot.localised = true ∧
      t.boot.stuck.contains (.gc id) = true ∧
      bit (preg t .bt (0x150 + 4 * (id.val / 32))) (id.val % 32) = true ∧
      bit (preg t .bt 0x10) 0 = true ∧
      fld (preg t .bt 0x108) (2 * ((clusterOf id).val / 2)) 2 = 2 ∧
      bit (preg t .dev 0x104) 1 = true) ∧
  (∀ (s : State) (c : Byte) (i : Byte), s.boot.ended = 0xFF → s.boot.mismatched = 1 → s.boot.localised = false → s.boot.stopped = false →
    preg s .bt 0x178 = 0 →
    Runs (.bistLocalisationDone [.hubBlock c i]) s [.page .bt, .boot] fun t =>
      t.boot.stopped = true ∧
      bit (preg t .bt 0x10) 1 = true ∧
      preg t .bt 0x178 = BitVec.ofNat 32 (c.toNat + i.toNat * 2 ^ 8) ∧
      fld (preg t .bt 0x108) 0 2 = 3 ∧
      bit (preg t .dev 0x104) 1 = bit (preg s .dev 0x104) 1) ∧
  (∀ (s : State) (n : Fin 8), s.boot.stage = 1 → groupZeroPassed s = true → bit s.boot.trained n.val = false →
    Runs (.hbmTrainingDone n true) s [.page .dev, .page .bt, .boot] fun t =>
      t.boot.trained = setBit s.boot.trained n.val true ∧
      (setBit s.boot.trained n.val true ≠ 0xFF ∨ s.boot.initDue = true ∨ bit (preg t .dev 0x104) 2 = true)) ∧
  (∀ (s : State) (n : Fin 8), s.boot.stage = 1 → groupZeroPassed s = true → bit s.boot.trained n.val = false → bit s.boot.retrying n.val =
    false →
    Runs (.hbmTrainingDone n false) s [.page .dev, .page .bt, .boot] fun t =>
      t.boot = { s.boot with retrying := setBit s.boot.retrying n.val true }) ∧
  (∀ (s : State) (n : Fin 8), s.boot.stage = 1 → groupZeroPassed s = true → bit s.boot.trained n.val = false → bit s.boot.retrying n.val =
    true → preg s .bt 0x178 = 0 →
    Runs (.hbmTrainingDone n false) s [.page .dev, .page .bt, .boot] fun t =>
      t.boot.stopped = true ∧
      bit (preg t .bt 0x10) 1 = true ∧
      preg t .bt 0x178 = BitVec.ofNat 32 (9 + n.val * 2 ^ 8)) ∧
  (∀ (s : State), s.boot.initDue = true → s.boot.trained = 0xFF → s.boot.stopped = false →
    Runs (.memoryInitDone) s [.page .dev, .dm, .boot] fun t =>
      t.dm = [] ∧
      t.poison = [] ∧
      t.boot.initDue = false ∧
      bit (preg t .dev 0x104) 2 = true)
end

