-- ==== Sys2Proof/Laws/Sparse.lean ====
section
/-! SUPPORT. Laws of the sparse stores: reading after writing, and every write keeps the canonical form. -/

set_option Elab.async false

namespace Sys2Proof.Machine

variable {α : Type}

theorem sget_serase_same (d : Nat → α) (k : Nat) (m : Sparse α) : sget d (serase k m) k = d k := by
  induction m with
  | nil => rfl
  | cons e m ih =>
    unfold serase
    split
    · exact ih
    · next h => simp [sget, h, ih]

theorem sget_serase_other (d : Nat → α) {k j : Nat} (m : Sparse α) (h : j ≠ k) : sget d (serase k m) j = sget d m j := by
  induction m with
  | nil => rfl
  | cons e m ih =>
    unfold serase
    split
    · next hk => subst hk; simp [sget, ih, Ne.symm h]
    · simp [sget, ih]

theorem sget_sput_same (d : Nat → α) (k : Nat) (v : α) (m : Sparse α) : sget d (sput k v m) k = v := by
  induction m with
  | nil => simp [sput, sget]
  | cons e m ih =>
    unfold sput
    split
    · simp [sget]
    · split
      · simp [sget]
      · next h => simp [sget, h, ih]

theorem sget_sput_other (d : Nat → α) {k j : Nat} (v : α) (m : Sparse α) (h : j ≠ k) : sget d (sput k v m) j = sget d m j := by
  induction m with
  | nil => simp [sput, sget, Ne.symm h]
  | cons e m ih =>
    unfold sput
    split
    · simp [sget, Ne.symm h]
    · split
      · next he => subst he; simp [sget, Ne.symm h]
      · simp [sget, ih]

/-- Reading the key just written gives the value written. -/
@[simp] theorem sget_sset_same [DecidableEq α] (d : Nat → α) (m : Sparse α) (k : Nat) (v : α) : sget d (sset d m k v) k = v := by
  unfold sset
  split
  · next h => rw [sget_serase_same, h]
  · exact sget_sput_same d k v m

/-- A write leaves every other key alone. -/
theorem sget_sset_other [DecidableEq α] (d : Nat → α) (m : Sparse α) {k j : Nat} (v : α) (h : j ≠ k) :
    sget d (sset d m k v) j = sget d m j := by
  unfold sset
  split
  · exact sget_serase_other d m h
  · exact sget_sput_other d v m h

theorem swfFrom_mono [DecidableEq α] (d : Nat → α) {a b : Nat} (m : Sparse α) (h : a ≤ b) (w : swfFrom d (some b) m = true) :
    swfFrom d (some a) m = true := by
  cases m with
  | nil => rfl
  | cons e m =>
    simp only [swfFrom, Bool.and_eq_true, decide_eq_true_eq] at w ⊢
    exact ⟨⟨by omega, w.1.2⟩, w.2⟩

theorem swfFrom_none [DecidableEq α] (d : Nat → α) {a : Nat} (m : Sparse α) (w : swfFrom d (some a) m = true) : swfFrom d none m = true := by
  cases m with
  | nil => rfl
  | cons e m =>
    simp only [swfFrom, Bool.and_eq_true, Bool.true_and] at w ⊢
    exact ⟨w.1.2, w.2⟩

theorem swfFrom_filter [DecidableEq α] (d : Nat → α) (p : Nat × α → Bool) (lo : Option Nat) (m : Sparse α)
    (w : swfFrom d lo m = true) : swfFrom d lo (List.filter p m) = true := by
  induction m generalizing lo with
  | nil => rfl
  | cons e m ih =>
    simp only [swfFrom, Bool.and_eq_true] at w
    rw [List.filter_cons]
    split
    · simp only [swfFrom, Bool.and_eq_true]
      exact ⟨w.1, ih _ w.2⟩
    · refine ih _ ?_
      cases lo with
      | none => exact swfFrom_none d m w.2
      | some a => exact swfFrom_mono d m (by have := w.1.1; simp at this; omega) w.2

theorem swfFrom_serase [DecidableEq α] (d : Nat → α) (k : Nat) (lo : Option Nat) (m : Sparse α)
    (w : swfFrom d lo m = true) : swfFrom d lo (serase k m) = true := by
  have : serase k m = List.filter (fun e => !decide (e.1 = k)) m := by
    clear w
    induction m with
    | nil => rfl
    | cons e m ih =>
      unfold serase
      rw [List.filter_cons]
      by_cases h : e.1 = k <;> simp [h, ih]
  rw [this]
  exact swfFrom_filter d _ lo m w

theorem swfFrom_sput [DecidableEq α] (d : Nat → α) (k : Nat) (v : α) (hv : v ≠ d k) (lo : Option Nat) (m : Sparse α)
    (hk : ∀ a, lo = some a → a < k) (w : swfFrom d lo m = true) : swfFrom d lo (sput k v m) = true := by
  induction m generalizing lo with
  | nil =>
    cases lo with
    | none => simp [sput, swfFrom, hv]
    | some a => simp [sput, swfFrom, hv, hk a rfl]
  | cons e m ih =>
    have w' := w
    simp only [swfFrom, Bool.and_eq_true] at w
    unfold sput
    have hlo : ∀ (lo : Option Nat), (∀ a, lo = some a → a < k) →
        (match lo with | none => true | some l => decide (l < k)) = true := by
      intro lo h
      cases lo with
      | none => rfl
      | some a => simp [h a rfl]
    split
    · next h =>
      simp only [swfFrom, Bool.and_eq_true, decide_eq_true_eq]
      exact ⟨⟨hlo lo hk, by simp [hv]⟩, ⟨⟨h, w.1.2⟩, w.2⟩⟩
    · split
      · next h =>
        subst h
        simp only [swfFrom, Bool.and_eq_true]
        exact ⟨⟨hlo lo hk, by simp [hv]⟩, w.2⟩
      · next h1 h2 =>
        simp only [swfFrom, Bool.and_eq_true]
        exact ⟨w.1, ih (some e.1) (by intro a ha; injection ha with ha; omega) w.2⟩

/-- A write keeps the canonical form. -/
theorem sset_wf [DecidableEq α] (d : Nat → α) (m : Sparse α) (k : Nat) (v : α) (w : Sparse.wf d m = true) :
    Sparse.wf d (sset d m k v) = true := by
  unfold sset
  split
  · exact swfFrom_serase d k none m w
  · next h => exact swfFrom_sput d k v h none m (by intro a ha; cases ha) w

/-- Leaving entries out keeps the canonical form. -/
theorem filter_wf [DecidableEq α] (d : Nat → α) (p : Nat × α → Bool) (m : Sparse α) (w : Sparse.wf d m = true) :
    Sparse.wf d (List.filter p m) = true := swfFrom_filter d p none m w

/-- Writing bytes keeps the canonical form. -/
theorem writeBytes_wf (bs : List Byte) (m : Sparse Byte) (a : Nat) (w : Memory.wf m = true) : Memory.wf (writeBytes m a bs) = true := by
  induction bs generalizing m a with
  | nil => exact w
  | cons b bs ih => exact ih _ _ (sset_wf byteDefault m a b w)

/-- Bytes outside the written run read as before. -/
theorem sget_writeBytes_other (bs : List Byte) (m : Sparse Byte) (a k : Nat) (h : k < a ∨ a + bs.length ≤ k) :
    sget byteDefault (writeBytes m a bs) k = sget byteDefault m k := by
  induction bs generalizing m a with
  | nil => rfl
  | cons b bs ih =>
    simp only [List.length_cons] at h
    simp only [writeBytes]
    rw [ih _ _ (by omega), sget_sset_other]
    omega

/-- A byte of the written run reads as written. -/
theorem sget_writeBytes_same (bs : List Byte) (m : Sparse Byte) (a i : Nat) (h : i < bs.length) :
    sget byteDefault (writeBytes m a bs) (a + i) = bs[i] := by
  induction bs generalizing m a i with
  | nil => simp at h
  | cons b bs ih =>
    cases i with
    | zero =>
      simp only [writeBytes, List.getElem_cons_zero]
      rw [sget_writeBytes_other _ _ _ _ (by omega)]
      simp
    | succ i =>
      simp only [writeBytes, List.getElem_cons_succ]
      have := ih (sset byteDefault m a b) (a + 1) i (by simpa using h)
      rw [← this]
      congr 1
      omega

end Sys2Proof.Machine
end

