-- ==== Sys2Proof/Laws/Regs.lean ====
section
/-! SUPPORT. Laws of the register file: which page an offset lies in, and reading after writing. -/

set_option Elab.async false

namespace Sys2Proof.Machine

theorem pageBase_mod (p : Page) : pageBase p % 0x1000 = 0 := by
  cases p <;> simp only [pageBase] <;> omega

theorem fin_val (n : Nat) [NeZero n] (i : Fin n) {k : Nat} (h : k = i.val) : fin n k = i := by
  subst h
  exact Fin.ofNat_val_eq_self i

/-- Every offset of a page lies in that page. -/
theorem pageAt_base (p : Page) {o : Nat} (h : o < 0x1000) : pageAt (pageBase p + o) = some p := by
  have hd : (pageBase p + o) / 0x1000 = pageBase p / 0x1000 := by
    have := pageBase_mod p
    omega
  unfold pageAt
  rw [hd]
  cases p with
  | dc n =>
    have := n.isLt
    have hq : pageBase (.dc n) / 0x1000 = 0x10 + n.val := by simp only [pageBase]; omega
    rw [hq]
    repeat rw [if_neg (by omega)]
    rw [if_pos (by omega), fin_val _ n (by omega)]
  | cl n =>
    have := n.isLt
    have hq : pageBase (.cl n) / 0x1000 = 0x20 + n.val := by simp only [pageBase]; omega
    rw [hq]
    repeat rw [if_neg (by omega)]
    rw [if_pos (by omega), fin_val _ n (by omega)]
  | mc n =>
    have := n.isLt
    have hq : pageBase (.mc n) / 0x1000 = 0x30 + n.val := by simp only [pageBase]; omega
    rw [hq]
    repeat rw [if_neg (by omega)]
    rw [if_pos (by omega), fin_val _ n (by omega)]
  | xl n =>
    have := n.isLt
    have hq : pageBase (.xl n) / 0x1000 = 0x38 + n.val := by simp only [pageBase]; omega
    rw [hq]
    repeat rw [if_neg (by omega)]
    rw [if_pos (by omega), fin_val _ n (by omega)]
  | gc n =>
    have := n.isLt
    have hq : pageBase (.gc n) / 0x1000 = 0x100 + n.val := by simp only [pageBase]; omega
    rw [hq]
    repeat rw [if_neg (by omega)]
    rw [if_pos (by omega), fin_val _ n (by omega)]
  | _ => rfl

/-- Two registers of pages have the same offset in BAR0 only if they are the same. -/
theorem pageBase_inj {p q : Page} {o k : Nat} (ho : o < 0x1000) (hk : k < 0x1000) (h : pageBase q + k = pageBase p + o) : q = p ∧ k = o := by
  have e : some q = some p := by rw [← pageAt_base q hk, ← pageAt_base p ho, h]
  cases e
  exact ⟨rfl, by omega⟩

@[simp] theorem reg_setReg_same (s : State) (a : Nat) (v : W32) : (s.setReg a v).reg a = v := sget_sset_same _ _ _ _

theorem reg_setReg_other (s : State) {a b : Nat} (v : W32) (h : b ≠ a) : (s.setReg a v).reg b = s.reg b := sget_sset_other _ _ _ h

@[simp] theorem preg_setPreg_same (s : State) (p : Page) (o : Nat) (v : W32) : preg (setPreg s p o v) p o = v := reg_setReg_same _ _ _

/-- Another register of the same page is left alone. -/
theorem preg_setPreg_off (s : State) (p : Page) {o k : Nat} (v : W32) (h : k ≠ o) : preg (setPreg s p o v) p k = preg s p k :=
  reg_setReg_other _ _ (by omega)

/-- Another page is left alone. -/
theorem preg_setPreg_page (s : State) {p q : Page} {o k : Nat} (v : W32) (ho : o < 0x1000) (hk : k < 0x1000) (h : q ≠ p) :
    preg (setPreg s p o v) q k = preg s q k :=
  reg_setReg_other _ _ (fun e => h (pageBase_inj ho hk e).1)

/-- Reading a register after a register has been written. -/
theorem preg_setPreg (s : State) {p q : Page} {o k : Nat} (v : W32) (ho : o < 0x1000) (hk : k < 0x1000) :
    preg (setPreg s p o v) q k = if q = p ∧ k = o then v else preg s q k := by
  split
  · next h => obtain ⟨rfl, rfl⟩ := h; exact preg_setPreg_same _ _ _ _
  · next h => exact reg_setReg_other _ _ (fun e => h (pageBase_inj ho hk e))

end Sys2Proof.Machine
end

