-- ==== Sys2Proof/Laws/Report.lean ====
section
/-! SUPPORT. The frame of reporting: each shared operation over registers, interrupts, errors and the logbook changes nothing but registers of its
page and reports. -/

set_option Elab.async false

namespace Sys2Proof

open Sys2Proof.Machine

/-- Beside its registers, `t` differs from `s` at most by reports: what has been sent outside, the counter of free values, the level of INTA, MSI-X
messages that wait, the messages on their way to the collector, the entries offered to the logbook. -/
def Quiet (s t : State) : Prop :=
  t = { s with
    regs := t.regs, out := t.out, fresh := t.fresh
    cxl := { s.cxl with inta := t.cxl.inta, msixQ := t.cxl.msixQ }
    fc := { s.fc with coming := t.fc.coming }
    lb := { s.lb with inq := t.lb.inq, lost := t.lb.lost } }

/-- Registers outside the pages named are unchanged, but for the pending bits of MSI-X (09 R378) and LB_LOST (13 R552). -/
def RegsKept (ps : List Page) (s t : State) : Prop :=
  ∀ a, (∀ p ∈ ps, pageAt a ≠ some p) → a ≠ pageBase .ep + 0xA00 → a ≠ pageBase .lb + 0x11C → t.reg a = s.reg a

/-- `t` is `s` but for registers of the pages named and for reports. -/
def Reported (ps : List Page) (s t : State) : Prop := Quiet s t ∧ RegsKept ps s t

theorem Quiet.refl (s : State) : Quiet s s := rfl

theorem Quiet.trans {s t u : State} (h : Quiet s t) (k : Quiet t u) : Quiet s u := by
  unfold Quiet at *
  rw [h] at k
  exact k

theorem Reported.refl (ps) (s : State) : Reported ps s s := ⟨Quiet.refl s, fun _ _ _ _ => rfl⟩

theorem Reported.trans {ps} {s t u : State} (h : Reported ps s t) (k : Reported ps t u) : Reported ps s u :=
  ⟨h.1.trans k.1, fun a hp h1 h2 => (k.2 a hp h1 h2).trans (h.2 a hp h1 h2)⟩

theorem Reported.mono {ps qs : List Page} {s t : State} (h : Reported ps s t) (hs : ∀ p ∈ ps, p ∈ qs) : Reported qs s t :=
  ⟨h.1, fun a hp h1 h2 => h.2 a (fun p hm => hp p (hs p hm)) h1 h2⟩

theorem Reported.ite {ps} {s t u : State} {c : Prop} [Decidable c] (h : c → Reported ps s t) (k : ¬c → Reported ps s u) :
    Reported ps s (if c then t else u) := by
  split
  · exact h ‹_›
  · exact k ‹_›

theorem Reported.foldl {ps} {α : Type} {g : State → α → State} (hg : ∀ s a, Reported ps s (g s a)) (l : List α) (s : State) :
    Reported ps s (l.foldl g s) := by
  induction l generalizing s with
  | nil => exact Reported.refl ps s
  | cons a l ih => exact (hg s a).trans (ih _)

theorem setPreg_reported {ps} (s : State) {p : Page} {o : Nat} (v) (ho : o < 0x1000) (hp : p ∈ ps) : Reported ps s (setPreg s p o v) :=
  ⟨rfl, fun a ha _ _ => reg_setReg_other _ _ (fun e => ha p hp (by rw [e]; exact pageAt_base p ho))⟩

theorem setPreg64_reported {ps} (s : State) {p : Page} {o : Nat} (v) (ho : o + 4 < 0x1000) (hp : p ∈ ps) : Reported ps s (setPreg64 s p o v) :=
  (setPreg_reported s _ (by omega) hp).trans (setPreg_reported _ _ ho hp)

theorem orPreg_reported {ps} (s : State) {p : Page} {o : Nat} (m) (ho : o < 0x1000) (hp : p ∈ ps) : Reported ps s (orPreg s p o m) :=
  setPreg_reported _ _ ho hp

theorem clrPreg_reported {ps} (s : State) {p : Page} {o : Nat} (m) (ho : o < 0x1000) (hp : p ∈ ps) : Reported ps s (clrPreg s p o m) :=
  setPreg_reported _ _ ho hp

theorem cntPreg_reported {ps} (s : State) {p : Page} {o : Nat} (n) (ho : o < 0x1000) (hp : p ∈ ps) : Reported ps s (cntPreg s p o n) :=
  setPreg_reported _ _ ho hp

theorem cntPreg64_reported {ps} (s : State) {p : Page} {o : Nat} (n) (ho : o + 4 < 0x1000) (hp : p ∈ ps) : Reported ps s (cntPreg64 s p o n) :=
  setPreg64_reported _ _ ho hp

theorem emit_reported (ps) (s : State) (o) : Reported ps s (emit s o) := ⟨rfl, fun _ _ _ _ => rfl⟩

theorem takeFresh_reported (ps) (s : State) : Reported ps s (takeFresh s).2 := ⟨rfl, fun _ _ _ _ => rfl⟩

theorem sendMsix_reported (ps) (s : State) (v) : Reported ps s (sendMsix s v) := by
  unfold sendMsix
  refine Reported.ite (fun _ => Reported.refl _ _) (fun _ => Reported.ite (fun _ => ⟨rfl, fun a _ h _ => ?_⟩) (fun _ => Reported.ite (fun _ => Reported.refl _ _)
    (fun _ => Reported.ite (fun _ => ⟨rfl, fun _ _ _ _ => rfl⟩) (fun _ => emit_reported _ _ _))))
  exact reg_setReg_other _ _ h

theorem updateInta_reported (ps) (s : State) : Reported ps s (updateInta s) := by
  unfold updateInta
  exact Reported.ite (fun _ => Reported.refl _ _) (fun _ => ⟨rfl, fun _ _ _ _ => rfl⟩)

theorem irqEdge_reported (ps) (p old) (s : State) : Reported ps s (irqEdge p old s) := by
  unfold irqEdge
  exact (Reported.ite (fun _ => Reported.refl _ _) (fun _ => Reported.foldl (sendMsix_reported ps) _ _)).trans (updateInta_reported _ _)

theorem raiseInt_reported {ps} (s : State) {p : Page} (b) (hp : p ∈ ps) : Reported ps s (raiseInt s p b) :=
  (orPreg_reported (o := 0x30) s _ (by omega) hp).trans (irqEdge_reported _ _ _ _)

theorem goDone_reported {ps} (s : State) {p : Page} {o : Nat} (b) (ho : o < 0x1000) (hp : p ∈ ps) : Reported ps s (goDone s p o b) := by
  unfold goDone
  refine (clrPreg_reported s (one32 b) ho hp).trans ?_
  split
  · exact (orPreg_reported _ _ (by omega) hp).trans (raiseInt_reported _ _ hp)
  · exact Reported.refl _ _

theorem pageErr_reported {ps} (s : State) {p : Page} (mask o) (hp : p ∈ ps) : Reported ps s (pageErr s p mask o) :=
  (setPreg_reported s _ (by omega) hp).trans (raiseInt_reported _ _ hp)

theorem pageErrMore_reported {ps} (s : State) {p : Page} (mask) (hp : p ∈ ps) : Reported ps s (pageErrMore s p mask) :=
  (orPreg_reported s _ (by omega) hp).trans (raiseInt_reported _ _ hp)

theorem rejectEnable_reported {ps} (s : State) {p : Page} {o : Nat} (again) (ho : o < 0x1000) (hp : p ∈ ps) :
    Reported ps s (rejectEnable s p o again) :=
  Reported.ite (fun _ => (clrPreg_reported s _ ho hp).trans (pageErrMore_reported _ _ hp))
    (fun _ => (clrPreg_reported s _ ho hp).trans (pageErr_reported _ _ _ hp))

theorem offerEntry_reported (ps) (s : State) (e) : Reported ps s (offerEntry s e) := by
  unfold offerEntry
  exact Reported.ite (fun _ => ⟨rfl, fun _ _ _ _ => rfl⟩) (fun _ => ⟨rfl, fun a _ _ h => reg_setReg_other _ _ h⟩)

theorem offer_reported (ps) (s : State) (k p b c) : Reported ps s (offer s k p b c) := offerEntry_reported _ _ _

theorem logBootWith_reported (ps) (s : State) (a b c d) : Reported ps s (logBootWith s a b c d) := offer_reported _ _ _ _ _ _

theorem logBoot_reported (ps) (s : State) (a b c) : Reported ps s (logBoot s a b c) :=
  Reported.trans (t := { s with fresh := s.fresh + 1 }) ⟨rfl, fun _ _ _ _ => rfl⟩ (logBootWith_reported _ _ _ _ _ _)

theorem noteErr_reported {ps} (s : State) {p : Page} (src addr) (hp : p ∈ ps) : Reported ps s (noteErr s p src addr) := by
  have h1 := (orPreg_reported (o := 0x10) s (one32 src) (by omega) hp).trans (cntPreg_reported (o := 0x24) _ 1 (by omega) hp)
  unfold noteErr
  exact Reported.ite (fun _ => h1.trans (setPreg_reported _ _ (by omega) hp))
    (fun _ => h1.trans ((setPreg_reported _ _ (by omega) hp).trans (setPreg64_reported _ _ (by omega) hp)))

theorem coming_reported (ps) (s : State) (l) : Reported ps s { s with fc := { s.fc with coming := l } } := ⟨rfl, fun _ _ _ _ => rfl⟩

theorem raiseErrX_reported {ps} (s : State) {p : Page} (src addr corr l5 inj) (hp : p ∈ ps) : Reported ps s (raiseErrX s p src addr corr l5 inj) := by
  unfold raiseErrX
  exact Reported.ite (fun _ => noteErr_reported s _ _ hp)
    (fun _ => ((noteErr_reported s _ _ hp).trans (coming_reported _ _ _)).trans (raiseInt_reported _ _ hp))

theorem raiseErr_reported {ps} (s : State) {p : Page} (src addr) (hp : p ∈ ps) : Reported ps s (raiseErr s p src addr) :=
  raiseErrX_reported _ _ _ _ _ _ hp

theorem raiseErrs_reported {ps} (s : State) {p : Page} (l) (hp : p ∈ ps) : Reported ps s (raiseErrs s p l) :=
  Reported.foldl (fun t k => raiseErr_reported t k 0 hp) _ s

theorem wrStore_reported {ps} (s : State) {p : Page} {o : Nat} (a) (ho : o < 0x1000) (hp : p ∈ ps) : Reported ps s (wrStore s p o a) := by
  have h1 : Reported ps s (if p = .fc ∧ o = 0x108 ∧ a.new = 0 then setPreg (setPreg s p o a.new) p 0x10C 0 else setPreg s p o a.new) :=
    Reported.ite (fun _ => (setPreg_reported s _ ho hp).trans (setPreg_reported _ _ (by omega) hp)) (fun _ => setPreg_reported s _ ho hp)
  have h2 := h1.trans (irqEdge_reported ps p (pageIrq s p) _)
  unfold wrStore
  exact Reported.ite (fun _ => h2) (fun _ => h2.trans (pageErr_reported _ _ _ hp))

end Sys2Proof
end

