-- ==== Sys2Proof/Laws/State.lean ====
section
/-! SUPPORT. What each plain update leaves alone: one equation per field, true by computation. -/

set_option Elab.async false

namespace Sys2Proof.Machine

@[simp] theorem State.setReg_pending (s : State) (a) (v) : (s.setReg a v).pending = s.pending := rfl
@[simp] theorem State.setReg_out (s : State) (a) (v) : (s.setReg a v).out = s.out := rfl
@[simp] theorem State.setReg_fresh (s : State) (a) (v) : (s.setReg a v).fresh = s.fresh := rfl
@[simp] theorem State.setReg_staged (s : State) (a) (v) : (s.setReg a v).staged = s.staged := rfl
@[simp] theorem State.setReg_captured (s : State) (a) (v) : (s.setReg a v).captured = s.captured := rfl
@[simp] theorem State.setReg_tide (s : State) (a) (v) : (s.setReg a v).tide = s.tide := rfl
@[simp] theorem State.setReg_cores (s : State) (a) (v) : (s.setReg a v).cores = s.cores := rfl
@[simp] theorem State.setReg_mesh (s : State) (a) (v) : (s.setReg a v).mesh = s.mesh := rfl
@[simp] theorem State.setReg_fares (s : State) (a) (v) : (s.setReg a v).fares = s.fares := rfl
@[simp] theorem State.setReg_locks (s : State) (a) (v) : (s.setReg a v).locks = s.locks := rfl
@[simp] theorem State.setReg_sdChanged (s : State) (a) (v) : (s.setReg a v).sdChanged = s.sdChanged := rfl
@[simp] theorem State.setReg_sdArmed (s : State) (a) (v) : (s.setReg a v).sdArmed = s.sdArmed := rfl
@[simp] theorem State.setReg_clusters (s : State) (a) (v) : (s.setReg a v).clusters = s.clusters := rfl
@[simp] theorem State.setReg_mailboxes (s : State) (a) (v) : (s.setReg a v).mailboxes = s.mailboxes := rfl
@[simp] theorem State.setReg_bar4 (s : State) (a) (v) : (s.setReg a v).bar4 = s.bar4 := rfl
@[simp] theorem State.setReg_xb (s : State) (a) (v) : (s.setReg a v).xb = s.xb := rfl
@[simp] theorem State.setReg_ctxs (s : State) (a) (v) : (s.setReg a v).ctxs = s.ctxs := rfl
@[simp] theorem State.setReg_drains (s : State) (a) (v) : (s.setReg a v).drains = s.drains := rfl
@[simp] theorem State.setReg_dm (s : State) (a) (v) : (s.setReg a v).dm = s.dm := rfl
@[simp] theorem State.setReg_poison (s : State) (a) (v) : (s.setReg a v).poison = s.poison := rfl
@[simp] theorem State.setReg_slices (s : State) (a) (v) : (s.setReg a v).slices = s.slices := rfl
@[simp] theorem State.setReg_lw (s : State) (a) (v) : (s.setReg a v).lw = s.lw := rfl
@[simp] theorem State.setReg_cxl (s : State) (a) (v) : (s.setReg a v).cxl = s.cxl := rfl
@[simp] theorem State.setReg_frz (s : State) (a) (v) : (s.setReg a v).frz = s.frz := rfl
@[simp] theorem State.setReg_ports (s : State) (a) (v) : (s.setReg a v).ports = s.ports := rfl
@[simp] theorem State.setReg_eqs (s : State) (a) (v) : (s.setReg a v).eqs = s.eqs := rfl
@[simp] theorem State.setReg_scrubs (s : State) (a) (v) : (s.setReg a v).scrubs = s.scrubs := rfl
@[simp] theorem State.setReg_pl (s : State) (a) (v) : (s.setReg a v).pl = s.pl := rfl
@[simp] theorem State.setReg_fc (s : State) (a) (v) : (s.setReg a v).fc = s.fc := rfl
@[simp] theorem State.setReg_lb (s : State) (a) (v) : (s.setReg a v).lb = s.lb := rfl
@[simp] theorem State.setReg_gp (s : State) (a) (v) : (s.setReg a v).gp = s.gp := rfl
@[simp] theorem State.setReg_mod (s : State) (a) (v) : (s.setReg a v).mod = s.mod := rfl
@[simp] theorem State.setReg_boot (s : State) (a) (v) : (s.setReg a v).boot = s.boot := rfl

@[simp] theorem setPreg_pending (s : State) (p) (o) (v) : (setPreg s p o v).pending = s.pending := rfl
@[simp] theorem setPreg_out (s : State) (p) (o) (v) : (setPreg s p o v).out = s.out := rfl
@[simp] theorem setPreg_fresh (s : State) (p) (o) (v) : (setPreg s p o v).fresh = s.fresh := rfl
@[simp] theorem setPreg_staged (s : State) (p) (o) (v) : (setPreg s p o v).staged = s.staged := rfl
@[simp] theorem setPreg_captured (s : State) (p) (o) (v) : (setPreg s p o v).captured = s.captured := rfl
@[simp] theorem setPreg_tide (s : State) (p) (o) (v) : (setPreg s p o v).tide = s.tide := rfl
@[simp] theorem setPreg_cores (s : State) (p) (o) (v) : (setPreg s p o v).cores = s.cores := rfl
@[simp] theorem setPreg_mesh (s : State) (p) (o) (v) : (setPreg s p o v).mesh = s.mesh := rfl
@[simp] theorem setPreg_fares (s : State) (p) (o) (v) : (setPreg s p o v).fares = s.fares := rfl
@[simp] theorem setPreg_locks (s : State) (p) (o) (v) : (setPreg s p o v).locks = s.locks := rfl
@[simp] theorem setPreg_sdChanged (s : State) (p) (o) (v) : (setPreg s p o v).sdChanged = s.sdChanged := rfl
@[simp] theorem setPreg_sdArmed (s : State) (p) (o) (v) : (setPreg s p o v).sdArmed = s.sdArmed := rfl
@[simp] theorem setPreg_clusters (s : State) (p) (o) (v) : (setPreg s p o v).clusters = s.clusters := rfl
@[simp] theorem setPreg_mailboxes (s : State) (p) (o) (v) : (setPreg s p o v).mailboxes = s.mailboxes := rfl
@[simp] theorem setPreg_bar4 (s : State) (p) (o) (v) : (setPreg s p o v).bar4 = s.bar4 := rfl
@[simp] theorem setPreg_xb (s : State) (p) (o) (v) : (setPreg s p o v).xb = s.xb := rfl
@[simp] theorem setPreg_ctxs (s : State) (p) (o) (v) : (setPreg s p o v).ctxs = s.ctxs := rfl
@[simp] theorem setPreg_drains (s : State) (p) (o) (v) : (setPreg s p o v).drains = s.drains := rfl
@[simp] theorem setPreg_dm (s : State) (p) (o) (v) : (setPreg s p o v).dm = s.dm := rfl
@[simp] theorem setPreg_poison (s : State) (p) (o) (v) : (setPreg s p o v).poison = s.poison := rfl
@[simp] theorem setPreg_slices (s : State) (p) (o) (v) : (setPreg s p o v).slices = s.slices := rfl
@[simp] theorem setPreg_lw (s : State) (p) (o) (v) : (setPreg s p o v).lw = s.lw := rfl
@[simp] theorem setPreg_cxl (s : State) (p) (o) (v) : (setPreg s p o v).cxl = s.cxl := rfl
@[simp] theorem setPreg_frz (s : State) (p) (o) (v) : (setPreg s p o v).frz = s.frz := rfl
@[simp] theorem setPreg_ports (s : State) (p) (o) (v) : (setPreg s p o v).ports = s.ports := rfl
@[simp] theorem setPreg_eqs (s : State) (p) (o) (v) : (setPreg s p o v).eqs = s.eqs := rfl
@[simp] theorem setPreg_scrubs (s : State) (p) (o) (v) : (setPreg s p o v).scrubs = s.scrubs := rfl
@[simp] theorem setPreg_pl (s : State) (p) (o) (v) : (setPreg s p o v).pl = s.pl := rfl
@[simp] theorem setPreg_fc (s : State) (p) (o) (v) : (setPreg s p o v).fc = s.fc := rfl
@[simp] theorem setPreg_lb (s : State) (p) (o) (v) : (setPreg s p o v).lb = s.lb := rfl
@[simp] theorem setPreg_gp (s : State) (p) (o) (v) : (setPreg s p o v).gp = s.gp := rfl
@[simp] theorem setPreg_mod (s : State) (p) (o) (v) : (setPreg s p o v).mod = s.mod := rfl
@[simp] theorem setPreg_boot (s : State) (p) (o) (v) : (setPreg s p o v).boot = s.boot := rfl

@[simp] theorem setPreg64_pending (s : State) (p) (o) (v) : (setPreg64 s p o v).pending = s.pending := rfl
@[simp] theorem setPreg64_out (s : State) (p) (o) (v) : (setPreg64 s p o v).out = s.out := rfl
@[simp] theorem setPreg64_fresh (s : State) (p) (o) (v) : (setPreg64 s p o v).fresh = s.fresh := rfl
@[simp] theorem setPreg64_staged (s : State) (p) (o) (v) : (setPreg64 s p o v).staged = s.staged := rfl
@[simp] theorem setPreg64_captured (s : State) (p) (o) (v) : (setPreg64 s p o v).captured = s.captured := rfl
@[simp] theorem setPreg64_tide (s : State) (p) (o) (v) : (setPreg64 s p o v).tide = s.tide := rfl
@[simp] theorem setPreg64_cores (s : State) (p) (o) (v) : (setPreg64 s p o v).cores = s.cores := rfl
@[simp] theorem setPreg64_mesh (s : State) (p) (o) (v) : (setPreg64 s p o v).mesh = s.mesh := rfl
@[simp] theorem setPreg64_fares (s : State) (p) (o) (v) : (setPreg64 s p o v).fares = s.fares := rfl
@[simp] theorem setPreg64_locks (s : State) (p) (o) (v) : (setPreg64 s p o v).locks = s.locks := rfl
@[simp] theorem setPreg64_sdChanged (s : State) (p) (o) (v) : (setPreg64 s p o v).sdChanged = s.sdChanged := rfl
@[simp] theorem setPreg64_sdArmed (s : State) (p) (o) (v) : (setPreg64 s p o v).sdArmed = s.sdArmed := rfl
@[simp] theorem setPreg64_clusters (s : State) (p) (o) (v) : (setPreg64 s p o v).clusters = s.clusters := rfl
@[simp] theorem setPreg64_mailboxes (s : State) (p) (o) (v) : (setPreg64 s p o v).mailboxes = s.mailboxes := rfl
@[simp] theorem setPreg64_bar4 (s : State) (p) (o) (v) : (setPreg64 s p o v).bar4 = s.bar4 := rfl
@[simp] theorem setPreg64_xb (s : State) (p) (o) (v) : (setPreg64 s p o v).xb = s.xb := rfl
@[simp] theorem setPreg64_ctxs (s : State) (p) (o) (v) : (setPreg64 s p o v).ctxs = s.ctxs := rfl
@[simp] theorem setPreg64_drains (s : State) (p) (o) (v) : (setPreg64 s p o v).drains = s.drains := rfl
@[simp] theorem setPreg64_dm (s : State) (p) (o) (v) : (setPreg64 s p o v).dm = s.dm := rfl
@[simp] theorem setPreg64_poison (s : State) (p) (o) (v) : (setPreg64 s p o v).poison = s.poison := rfl
@[simp] theorem setPreg64_slices (s : State) (p) (o) (v) : (setPreg64 s p o v).slices = s.slices := rfl
@[simp] theorem setPreg64_lw (s : State) (p) (o) (v) : (setPreg64 s p o v).lw = s.lw := rfl
@[simp] theorem setPreg64_cxl (s : State) (p) (o) (v) : (setPreg64 s p o v).cxl = s.cxl := rfl
@[simp] theorem setPreg64_frz (s : State) (p) (o) (v) : (setPreg64 s p o v).frz = s.frz := rfl
@[simp] theorem setPreg64_ports (s : State) (p) (o) (v) : (setPreg64 s p o v).ports = s.ports := rfl
@[simp] theorem setPreg64_eqs (s : State) (p) (o) (v) : (setPreg64 s p o v).eqs = s.eqs := rfl
@[simp] theorem setPreg64_scrubs (s : State) (p) (o) (v) : (setPreg64 s p o v).scrubs = s.scrubs := rfl
@[simp] theorem setPreg64_pl (s : State) (p) (o) (v) : (setPreg64 s p o v).pl = s.pl := rfl
@[simp] theorem setPreg64_fc (s : State) (p) (o) (v) : (setPreg64 s p o v).fc = s.fc := rfl
@[simp] theorem setPreg64_lb (s : State) (p) (o) (v) : (setPreg64 s p o v).lb = s.lb := rfl
@[simp] theorem setPreg64_gp (s : State) (p) (o) (v) : (setPreg64 s p o v).gp = s.gp := rfl
@[simp] theorem setPreg64_mod (s : State) (p) (o) (v) : (setPreg64 s p o v).mod = s.mod := rfl
@[simp] theorem setPreg64_boot (s : State) (p) (o) (v) : (setPreg64 s p o v).boot = s.boot := rfl

@[simp] theorem orPreg_pending (s : State) (p) (o) (v) : (orPreg s p o v).pending = s.pending := rfl
@[simp] theorem orPreg_out (s : State) (p) (o) (v) : (orPreg s p o v).out = s.out := rfl
@[simp] theorem orPreg_fresh (s : State) (p) (o) (v) : (orPreg s p o v).fresh = s.fresh := rfl
@[simp] theorem orPreg_staged (s : State) (p) (o) (v) : (orPreg s p o v).staged = s.staged := rfl
@[simp] theorem orPreg_captured (s : State) (p) (o) (v) : (orPreg s p o v).captured = s.captured := rfl
@[simp] theorem orPreg_tide (s : State) (p) (o) (v) : (orPreg s p o v).tide = s.tide := rfl
@[simp] theorem orPreg_cores (s : State) (p) (o) (v) : (orPreg s p o v).cores = s.cores := rfl
@[simp] theorem orPreg_mesh (s : State) (p) (o) (v) : (orPreg s p o v).mesh = s.mesh := rfl
@[simp] theorem orPreg_fares (s : State) (p) (o) (v) : (orPreg s p o v).fares = s.fares := rfl
@[simp] theorem orPreg_locks (s : State) (p) (o) (v) : (orPreg s p o v).locks = s.locks := rfl
@[simp] theorem orPreg_sdChanged (s : State) (p) (o) (v) : (orPreg s p o v).sdChanged = s.sdChanged := rfl
@[simp] theorem orPreg_sdArmed (s : State) (p) (o) (v) : (orPreg s p o v).sdArmed = s.sdArmed := rfl
@[simp] theorem orPreg_clusters (s : State) (p) (o) (v) : (orPreg s p o v).clusters = s.clusters := rfl
@[simp] theorem orPreg_mailboxes (s : State) (p) (o) (v) : (orPreg s p o v).mailboxes = s.mailboxes := rfl
@[simp] theorem orPreg_bar4 (s : State) (p) (o) (v) : (orPreg s p o v).bar4 = s.bar4 := rfl
@[simp] theorem orPreg_xb (s : State) (p) (o) (v) : (orPreg s p o v).xb = s.xb := rfl
@[simp] theorem orPreg_ctxs (s : State) (p) (o) (v) : (orPreg s p o v).ctxs = s.ctxs := rfl
@[simp] theorem orPreg_drains (s : State) (p) (o) (v) : (orPreg s p o v).drains = s.drains := rfl
@[simp] theorem orPreg_dm (s : State) (p) (o) (v) : (orPreg s p o v).dm = s.dm := rfl
@[simp] theorem orPreg_poison (s : State) (p) (o) (v) : (orPreg s p o v).poison = s.poison := rfl
@[simp] theorem orPreg_slices (s : State) (p) (o) (v) : (orPreg s p o v).slices = s.slices := rfl
@[simp] theorem orPreg_lw (s : State) (p) (o) (v) : (orPreg s p o v).lw = s.lw := rfl
@[simp] theorem orPreg_cxl (s : State) (p) (o) (v) : (orPreg s p o v).cxl = s.cxl := rfl
@[simp] theorem orPreg_frz (s : State) (p) (o) (v) : (orPreg s p o v).frz = s.frz := rfl
@[simp] theorem orPreg_ports (s : State) (p) (o) (v) : (orPreg s p o v).ports = s.ports := rfl
@[simp] theorem orPreg_eqs (s : State) (p) (o) (v) : (orPreg s p o v).eqs = s.eqs := rfl
@[simp] theorem orPreg_scrubs (s : State) (p) (o) (v) : (orPreg s p o v).scrubs = s.scrubs := rfl
@[simp] theorem orPreg_pl (s : State) (p) (o) (v) : (orPreg s p o v).pl = s.pl := rfl
@[simp] theorem orPreg_fc (s : State) (p) (o) (v) : (orPreg s p o v).fc = s.fc := rfl
@[simp] theorem orPreg_lb (s : State) (p) (o) (v) : (orPreg s p o v).lb = s.lb := rfl
@[simp] theorem orPreg_gp (s : State) (p) (o) (v) : (orPreg s p o v).gp = s.gp := rfl
@[simp] theorem orPreg_mod (s : State) (p) (o) (v) : (orPreg s p o v).mod = s.mod := rfl
@[simp] theorem orPreg_boot (s : State) (p) (o) (v) : (orPreg s p o v).boot = s.boot := rfl

@[simp] theorem clrPreg_pending (s : State) (p) (o) (v) : (clrPreg s p o v).pending = s.pending := rfl
@[simp] theorem clrPreg_out (s : State) (p) (o) (v) : (clrPreg s p o v).out = s.out := rfl
@[simp] theorem clrPreg_fresh (s : State) (p) (o) (v) : (clrPreg s p o v).fresh = s.fresh := rfl
@[simp] theorem clrPreg_staged (s : State) (p) (o) (v) : (clrPreg s p o v).staged = s.staged := rfl
@[simp] theorem clrPreg_captured (s : State) (p) (o) (v) : (clrPreg s p o v).captured = s.captured := rfl
@[simp] theorem clrPreg_tide (s : State) (p) (o) (v) : (clrPreg s p o v).tide = s.tide := rfl
@[simp] theorem clrPreg_cores (s : State) (p) (o) (v) : (clrPreg s p o v).cores = s.cores := rfl
@[simp] theorem clrPreg_mesh (s : State) (p) (o) (v) : (clrPreg s p o v).mesh = s.mesh := rfl
@[simp] theorem clrPreg_fares (s : State) (p) (o) (v) : (clrPreg s p o v).fares = s.fares := rfl
@[simp] theorem clrPreg_locks (s : State) (p) (o) (v) : (clrPreg s p o v).locks = s.locks := rfl
@[simp] theorem clrPreg_sdChanged (s : State) (p) (o) (v) : (clrPreg s p o v).sdChanged = s.sdChanged := rfl
@[simp] theorem clrPreg_sdArmed (s : State) (p) (o) (v) : (clrPreg s p o v).sdArmed = s.sdArmed := rfl
@[simp] theorem clrPreg_clusters (s : State) (p) (o) (v) : (clrPreg s p o v).clusters = s.clusters := rfl
@[simp] theorem clrPreg_mailboxes (s : State) (p) (o) (v) : (clrPreg s p o v).mailboxes = s.mailboxes := rfl
@[simp] theorem clrPreg_bar4 (s : State) (p) (o) (v) : (clrPreg s p o v).bar4 = s.bar4 := rfl
@[simp] theorem clrPreg_xb (s : State) (p) (o) (v) : (clrPreg s p o v).xb = s.xb := rfl
@[simp] theorem clrPreg_ctxs (s : State) (p) (o) (v) : (clrPreg s p o v).ctxs = s.ctxs := rfl
@[simp] theorem clrPreg_drains (s : State) (p) (o) (v) : (clrPreg s p o v).drains = s.drains := rfl
@[simp] theorem clrPreg_dm (s : State) (p) (o) (v) : (clrPreg s p o v).dm = s.dm := rfl
@[simp] theorem clrPreg_poison (s : State) (p) (o) (v) : (clrPreg s p o v).poison = s.poison := rfl
@[simp] theorem clrPreg_slices (s : State) (p) (o) (v) : (clrPreg s p o v).slices = s.slices := rfl
@[simp] theorem clrPreg_lw (s : State) (p) (o) (v) : (clrPreg s p o v).lw = s.lw := rfl
@[simp] theorem clrPreg_cxl (s : State) (p) (o) (v) : (clrPreg s p o v).cxl = s.cxl := rfl
@[simp] theorem clrPreg_frz (s : State) (p) (o) (v) : (clrPreg s p o v).frz = s.frz := rfl
@[simp] theorem clrPreg_ports (s : State) (p) (o) (v) : (clrPreg s p o v).ports = s.ports := rfl
@[simp] theorem clrPreg_eqs (s : State) (p) (o) (v) : (clrPreg s p o v).eqs = s.eqs := rfl
@[simp] theorem clrPreg_scrubs (s : State) (p) (o) (v) : (clrPreg s p o v).scrubs = s.scrubs := rfl
@[simp] theorem clrPreg_pl (s : State) (p) (o) (v) : (clrPreg s p o v).pl = s.pl := rfl
@[simp] theorem clrPreg_fc (s : State) (p) (o) (v) : (clrPreg s p o v).fc = s.fc := rfl
@[simp] theorem clrPreg_lb (s : State) (p) (o) (v) : (clrPreg s p o v).lb = s.lb := rfl
@[simp] theorem clrPreg_gp (s : State) (p) (o) (v) : (clrPreg s p o v).gp = s.gp := rfl
@[simp] theorem clrPreg_mod (s : State) (p) (o) (v) : (clrPreg s p o v).mod = s.mod := rfl
@[simp] theorem clrPreg_boot (s : State) (p) (o) (v) : (clrPreg s p o v).boot = s.boot := rfl

@[simp] theorem cntPreg_pending (s : State) (p) (o) (v) : (cntPreg s p o v).pending = s.pending := rfl
@[simp] theorem cntPreg_out (s : State) (p) (o) (v) : (cntPreg s p o v).out = s.out := rfl
@[simp] theorem cntPreg_fresh (s : State) (p) (o) (v) : (cntPreg s p o v).fresh = s.fresh := rfl
@[simp] theorem cntPreg_staged (s : State) (p) (o) (v) : (cntPreg s p o v).staged = s.staged := rfl
@[simp] theorem cntPreg_captured (s : State) (p) (o) (v) : (cntPreg s p o v).captured = s.captured := rfl
@[simp] theorem cntPreg_tide (s : State) (p) (o) (v) : (cntPreg s p o v).tide = s.tide := rfl
@[simp] theorem cntPreg_cores (s : State) (p) (o) (v) : (cntPreg s p o v).cores = s.cores := rfl
@[simp] theorem cntPreg_mesh (s : State) (p) (o) (v) : (cntPreg s p o v).mesh = s.mesh := rfl
@[simp] theorem cntPreg_fares (s : State) (p) (o) (v) : (cntPreg s p o v).fares = s.fares := rfl
@[simp] theorem cntPreg_locks (s : State) (p) (o) (v) : (cntPreg s p o v).locks = s.locks := rfl
@[simp] theorem cntPreg_sdChanged (s : State) (p) (o) (v) : (cntPreg s p o v).sdChanged = s.sdChanged := rfl
@[simp] theorem cntPreg_sdArmed (s : State) (p) (o) (v) : (cntPreg s p o v).sdArmed = s.sdArmed := rfl
@[simp] theorem cntPreg_clusters (s : State) (p) (o) (v) : (cntPreg s p o v).clusters = s.clusters := rfl
@[simp] theorem cntPreg_mailboxes (s : State) (p) (o) (v) : (cntPreg s p o v).mailboxes = s.mailboxes := rfl
@[simp] theorem cntPreg_bar4 (s : State) (p) (o) (v) : (cntPreg s p o v).bar4 = s.bar4 := rfl
@[simp] theorem cntPreg_xb (s : State) (p) (o) (v) : (cntPreg s p o v).xb = s.xb := rfl
@[simp] theorem cntPreg_ctxs (s : State) (p) (o) (v) : (cntPreg s p o v).ctxs = s.ctxs := rfl
@[simp] theorem cntPreg_drains (s : State) (p) (o) (v) : (cntPreg s p o v).drains = s.drains := rfl
@[simp] theorem cntPreg_dm (s : State) (p) (o) (v) : (cntPreg s p o v).dm = s.dm := rfl
@[simp] theorem cntPreg_poison (s : State) (p) (o) (v) : (cntPreg s p o v).poison = s.poison := rfl
@[simp] theorem cntPreg_slices (s : State) (p) (o) (v) : (cntPreg s p o v).slices = s.slices := rfl
@[simp] theorem cntPreg_lw (s : State) (p) (o) (v) : (cntPreg s p o v).lw = s.lw := rfl
@[simp] theorem cntPreg_cxl (s : State) (p) (o) (v) : (cntPreg s p o v).cxl = s.cxl := rfl
@[simp] theorem cntPreg_frz (s : State) (p) (o) (v) : (cntPreg s p o v).frz = s.frz := rfl
@[simp] theorem cntPreg_ports (s : State) (p) (o) (v) : (cntPreg s p o v).ports = s.ports := rfl
@[simp] theorem cntPreg_eqs (s : State) (p) (o) (v) : (cntPreg s p o v).eqs = s.eqs := rfl
@[simp] theorem cntPreg_scrubs (s : State) (p) (o) (v) : (cntPreg s p o v).scrubs = s.scrubs := rfl
@[simp] theorem cntPreg_pl (s : State) (p) (o) (v) : (cntPreg s p o v).pl = s.pl := rfl
@[simp] theorem cntPreg_fc (s : State) (p) (o) (v) : (cntPreg s p o v).fc = s.fc := rfl
@[simp] theorem cntPreg_lb (s : State) (p) (o) (v) : (cntPreg s p o v).lb = s.lb := rfl
@[simp] theorem cntPreg_gp (s : State) (p) (o) (v) : (cntPreg s p o v).gp = s.gp := rfl
@[simp] theorem cntPreg_mod (s : State) (p) (o) (v) : (cntPreg s p o v).mod = s.mod := rfl
@[simp] theorem cntPreg_boot (s : State) (p) (o) (v) : (cntPreg s p o v).boot = s.boot := rfl

@[simp] theorem cntPreg64_pending (s : State) (p) (o) (v) : (cntPreg64 s p o v).pending = s.pending := rfl
@[simp] theorem cntPreg64_out (s : State) (p) (o) (v) : (cntPreg64 s p o v).out = s.out := rfl
@[simp] theorem cntPreg64_fresh (s : State) (p) (o) (v) : (cntPreg64 s p o v).fresh = s.fresh := rfl
@[simp] theorem cntPreg64_staged (s : State) (p) (o) (v) : (cntPreg64 s p o v).staged = s.staged := rfl
@[simp] theorem cntPreg64_captured (s : State) (p) (o) (v) : (cntPreg64 s p o v).captured = s.captured := rfl
@[simp] theorem cntPreg64_tide (s : State) (p) (o) (v) : (cntPreg64 s p o v).tide = s.tide := rfl
@[simp] theorem cntPreg64_cores (s : State) (p) (o) (v) : (cntPreg64 s p o v).cores = s.cores := rfl
@[simp] theorem cntPreg64_mesh (s : State) (p) (o) (v) : (cntPreg64 s p o v).mesh = s.mesh := rfl
@[simp] theorem cntPreg64_fares (s : State) (p) (o) (v) : (cntPreg64 s p o v).fares = s.fares := rfl
@[simp] theorem cntPreg64_locks (s : State) (p) (o) (v) : (cntPreg64 s p o v).locks = s.locks := rfl
@[simp] theorem cntPreg64_sdChanged (s : State) (p) (o) (v) : (cntPreg64 s p o v).sdChanged = s.sdChanged := rfl
@[simp] theorem cntPreg64_sdArmed (s : State) (p) (o) (v) : (cntPreg64 s p o v).sdArmed = s.sdArmed := rfl
@[simp] theorem cntPreg64_clusters (s : State) (p) (o) (v) : (cntPreg64 s p o v).clusters = s.clusters := rfl
@[simp] theorem cntPreg64_mailboxes (s : State) (p) (o) (v) : (cntPreg64 s p o v).mailboxes = s.mailboxes := rfl
@[simp] theorem cntPreg64_bar4 (s : State) (p) (o) (v) : (cntPreg64 s p o v).bar4 = s.bar4 := rfl
@[simp] theorem cntPreg64_xb (s : State) (p) (o) (v) : (cntPreg64 s p o v).xb = s.xb := rfl
@[simp] theorem cntPreg64_ctxs (s : State) (p) (o) (v) : (cntPreg64 s p o v).ctxs = s.ctxs := rfl
@[simp] theorem cntPreg64_drains (s : State) (p) (o) (v) : (cntPreg64 s p o v).drains = s.drains := rfl
@[simp] theorem cntPreg64_dm (s : State) (p) (o) (v) : (cntPreg64 s p o v).dm = s.dm := rfl
@[simp] theorem cntPreg64_poison (s : State) (p) (o) (v) : (cntPreg64 s p o v).poison = s.poison := rfl
@[simp] theorem cntPreg64_slices (s : State) (p) (o) (v) : (cntPreg64 s p o v).slices = s.slices := rfl
@[simp] theorem cntPreg64_lw (s : State) (p) (o) (v) : (cntPreg64 s p o v).lw = s.lw := rfl
@[simp] theorem cntPreg64_cxl (s : State) (p) (o) (v) : (cntPreg64 s p o v).cxl = s.cxl := rfl
@[simp] theorem cntPreg64_frz (s : State) (p) (o) (v) : (cntPreg64 s p o v).frz = s.frz := rfl
@[simp] theorem cntPreg64_ports (s : State) (p) (o) (v) : (cntPreg64 s p o v).ports = s.ports := rfl
@[simp] theorem cntPreg64_eqs (s : State) (p) (o) (v) : (cntPreg64 s p o v).eqs = s.eqs := rfl
@[simp] theorem cntPreg64_scrubs (s : State) (p) (o) (v) : (cntPreg64 s p o v).scrubs = s.scrubs := rfl
@[simp] theorem cntPreg64_pl (s : State) (p) (o) (v) : (cntPreg64 s p o v).pl = s.pl := rfl
@[simp] theorem cntPreg64_fc (s : State) (p) (o) (v) : (cntPreg64 s p o v).fc = s.fc := rfl
@[simp] theorem cntPreg64_lb (s : State) (p) (o) (v) : (cntPreg64 s p o v).lb = s.lb := rfl
@[simp] theorem cntPreg64_gp (s : State) (p) (o) (v) : (cntPreg64 s p o v).gp = s.gp := rfl
@[simp] theorem cntPreg64_mod (s : State) (p) (o) (v) : (cntPreg64 s p o v).mod = s.mod := rfl
@[simp] theorem cntPreg64_boot (s : State) (p) (o) (v) : (cntPreg64 s p o v).boot = s.boot := rfl

@[simp] theorem emit_pending (s : State) (x) : (emit s x).pending = s.pending := rfl
@[simp] theorem emit_fresh (s : State) (x) : (emit s x).fresh = s.fresh := rfl
@[simp] theorem emit_regs (s : State) (x) : (emit s x).regs = s.regs := rfl
@[simp] theorem emit_staged (s : State) (x) : (emit s x).staged = s.staged := rfl
@[simp] theorem emit_captured (s : State) (x) : (emit s x).captured = s.captured := rfl
@[simp] theorem emit_tide (s : State) (x) : (emit s x).tide = s.tide := rfl
@[simp] theorem emit_cores (s : State) (x) : (emit s x).cores = s.cores := rfl
@[simp] theorem emit_mesh (s : State) (x) : (emit s x).mesh = s.mesh := rfl
@[simp] theorem emit_fares (s : State) (x) : (emit s x).fares = s.fares := rfl
@[simp] theorem emit_locks (s : State) (x) : (emit s x).locks = s.locks := rfl
@[simp] theorem emit_sdChanged (s : State) (x) : (emit s x).sdChanged = s.sdChanged := rfl
@[simp] theorem emit_sdArmed (s : State) (x) : (emit s x).sdArmed = s.sdArmed := rfl
@[simp] theorem emit_clusters (s : State) (x) : (emit s x).clusters = s.clusters := rfl
@[simp] theorem emit_mailboxes (s : State) (x) : (emit s x).mailboxes = s.mailboxes := rfl
@[simp] theorem emit_bar4 (s : State) (x) : (emit s x).bar4 = s.bar4 := rfl
@[simp] theorem emit_xb (s : State) (x) : (emit s x).xb = s.xb := rfl
@[simp] theorem emit_ctxs (s : State) (x) : (emit s x).ctxs = s.ctxs := rfl
@[simp] theorem emit_drains (s : State) (x) : (emit s x).drains = s.drains := rfl
@[simp] theorem emit_dm (s : State) (x) : (emit s x).dm = s.dm := rfl
@[simp] theorem emit_poison (s : State) (x) : (emit s x).poison = s.poison := rfl
@[simp] theorem emit_slices (s : State) (x) : (emit s x).slices = s.slices := rfl
@[simp] theorem emit_lw (s : State) (x) : (emit s x).lw = s.lw := rfl
@[simp] theorem emit_cxl (s : State) (x) : (emit s x).cxl = s.cxl := rfl
@[simp] theorem emit_frz (s : State) (x) : (emit s x).frz = s.frz := rfl
@[simp] theorem emit_ports (s : State) (x) : (emit s x).ports = s.ports := rfl
@[simp] theorem emit_eqs (s : State) (x) : (emit s x).eqs = s.eqs := rfl
@[simp] theorem emit_scrubs (s : State) (x) : (emit s x).scrubs = s.scrubs := rfl
@[simp] theorem emit_pl (s : State) (x) : (emit s x).pl = s.pl := rfl
@[simp] theorem emit_fc (s : State) (x) : (emit s x).fc = s.fc := rfl
@[simp] theorem emit_lb (s : State) (x) : (emit s x).lb = s.lb := rfl
@[simp] theorem emit_gp (s : State) (x) : (emit s x).gp = s.gp := rfl
@[simp] theorem emit_mod (s : State) (x) : (emit s x).mod = s.mod := rfl
@[simp] theorem emit_boot (s : State) (x) : (emit s x).boot = s.boot := rfl

@[simp] theorem State.setCoreRaw_pending (s : State) (i) (c) : (s.setCoreRaw i c).pending = s.pending := rfl
@[simp] theorem State.setCoreRaw_out (s : State) (i) (c) : (s.setCoreRaw i c).out = s.out := rfl
@[simp] theorem State.setCoreRaw_fresh (s : State) (i) (c) : (s.setCoreRaw i c).fresh = s.fresh := rfl
@[simp] theorem State.setCoreRaw_regs (s : State) (i) (c) : (s.setCoreRaw i c).regs = s.regs := rfl
@[simp] theorem State.setCoreRaw_staged (s : State) (i) (c) : (s.setCoreRaw i c).staged = s.staged := rfl
@[simp] theorem State.setCoreRaw_captured (s : State) (i) (c) : (s.setCoreRaw i c).captured = s.captured := rfl
@[simp] theorem State.setCoreRaw_tide (s : State) (i) (c) : (s.setCoreRaw i c).tide = s.tide := rfl
@[simp] theorem State.setCoreRaw_mesh (s : State) (i) (c) : (s.setCoreRaw i c).mesh = s.mesh := rfl
@[simp] theorem State.setCoreRaw_fares (s : State) (i) (c) : (s.setCoreRaw i c).fares = s.fares := rfl
@[simp] theorem State.setCoreRaw_locks (s : State) (i) (c) : (s.setCoreRaw i c).locks = s.locks := rfl
@[simp] theorem State.setCoreRaw_sdChanged (s : State) (i) (c) : (s.setCoreRaw i c).sdChanged = s.sdChanged := rfl
@[simp] theorem State.setCoreRaw_sdArmed (s : State) (i) (c) : (s.setCoreRaw i c).sdArmed = s.sdArmed := rfl
@[simp] theorem State.setCoreRaw_clusters (s : State) (i) (c) : (s.setCoreRaw i c).clusters = s.clusters := rfl
@[simp] theorem State.setCoreRaw_mailboxes (s : State) (i) (c) : (s.setCoreRaw i c).mailboxes = s.mailboxes := rfl
@[simp] theorem State.setCoreRaw_bar4 (s : State) (i) (c) : (s.setCoreRaw i c).bar4 = s.bar4 := rfl
@[simp] theorem State.setCoreRaw_xb (s : State) (i) (c) : (s.setCoreRaw i c).xb = s.xb := rfl
@[simp] theorem State.setCoreRaw_ctxs (s : State) (i) (c) : (s.setCoreRaw i c).ctxs = s.ctxs := rfl
@[simp] theorem State.setCoreRaw_drains (s : State) (i) (c) : (s.setCoreRaw i c).drains = s.drains := rfl
@[simp] theorem State.setCoreRaw_dm (s : State) (i) (c) : (s.setCoreRaw i c).dm = s.dm := rfl
@[simp] theorem State.setCoreRaw_poison (s : State) (i) (c) : (s.setCoreRaw i c).poison = s.poison := rfl
@[simp] theorem State.setCoreRaw_slices (s : State) (i) (c) : (s.setCoreRaw i c).slices = s.slices := rfl
@[simp] theorem State.setCoreRaw_lw (s : State) (i) (c) : (s.setCoreRaw i c).lw = s.lw := rfl
@[simp] theorem State.setCoreRaw_cxl (s : State) (i) (c) : (s.setCoreRaw i c).cxl = s.cxl := rfl
@[simp] theorem State.setCoreRaw_frz (s : State) (i) (c) : (s.setCoreRaw i c).frz = s.frz := rfl
@[simp] theorem State.setCoreRaw_ports (s : State) (i) (c) : (s.setCoreRaw i c).ports = s.ports := rfl
@[simp] theorem State.setCoreRaw_eqs (s : State) (i) (c) : (s.setCoreRaw i c).eqs = s.eqs := rfl
@[simp] theorem State.setCoreRaw_scrubs (s : State) (i) (c) : (s.setCoreRaw i c).scrubs = s.scrubs := rfl
@[simp] theorem State.setCoreRaw_pl (s : State) (i) (c) : (s.setCoreRaw i c).pl = s.pl := rfl
@[simp] theorem State.setCoreRaw_fc (s : State) (i) (c) : (s.setCoreRaw i c).fc = s.fc := rfl
@[simp] theorem State.setCoreRaw_lb (s : State) (i) (c) : (s.setCoreRaw i c).lb = s.lb := rfl
@[simp] theorem State.setCoreRaw_gp (s : State) (i) (c) : (s.setCoreRaw i c).gp = s.gp := rfl
@[simp] theorem State.setCoreRaw_mod (s : State) (i) (c) : (s.setCoreRaw i c).mod = s.mod := rfl
@[simp] theorem State.setCoreRaw_boot (s : State) (i) (c) : (s.setCoreRaw i c).boot = s.boot := rfl

@[simp] theorem State.setCl_pending (s : State) (i) (c) : (s.setCl i c).pending = s.pending := rfl
@[simp] theorem State.setCl_out (s : State) (i) (c) : (s.setCl i c).out = s.out := rfl
@[simp] theorem State.setCl_fresh (s : State) (i) (c) : (s.setCl i c).fresh = s.fresh := rfl
@[simp] theorem State.setCl_regs (s : State) (i) (c) : (s.setCl i c).regs = s.regs := rfl
@[simp] theorem State.setCl_staged (s : State) (i) (c) : (s.setCl i c).staged = s.staged := rfl
@[simp] theorem State.setCl_captured (s : State) (i) (c) : (s.setCl i c).captured = s.captured := rfl
@[simp] theorem State.setCl_tide (s : State) (i) (c) : (s.setCl i c).tide = s.tide := rfl
@[simp] theorem State.setCl_cores (s : State) (i) (c) : (s.setCl i c).cores = s.cores := rfl
@[simp] theorem State.setCl_mesh (s : State) (i) (c) : (s.setCl i c).mesh = s.mesh := rfl
@[simp] theorem State.setCl_fares (s : State) (i) (c) : (s.setCl i c).fares = s.fares := rfl
@[simp] theorem State.setCl_locks (s : State) (i) (c) : (s.setCl i c).locks = s.locks := rfl
@[simp] theorem State.setCl_sdChanged (s : State) (i) (c) : (s.setCl i c).sdChanged = s.sdChanged := rfl
@[simp] theorem State.setCl_sdArmed (s : State) (i) (c) : (s.setCl i c).sdArmed = s.sdArmed := rfl
@[simp] theorem State.setCl_mailboxes (s : State) (i) (c) : (s.setCl i c).mailboxes = s.mailboxes := rfl
@[simp] theorem State.setCl_bar4 (s : State) (i) (c) : (s.setCl i c).bar4 = s.bar4 := rfl
@[simp] theorem State.setCl_xb (s : State) (i) (c) : (s.setCl i c).xb = s.xb := rfl
@[simp] theorem State.setCl_ctxs (s : State) (i) (c) : (s.setCl i c).ctxs = s.ctxs := rfl
@[simp] theorem State.setCl_drains (s : State) (i) (c) : (s.setCl i c).drains = s.drains := rfl
@[simp] theorem State.setCl_dm (s : State) (i) (c) : (s.setCl i c).dm = s.dm := rfl
@[simp] theorem State.setCl_poison (s : State) (i) (c) : (s.setCl i c).poison = s.poison := rfl
@[simp] theorem State.setCl_slices (s : State) (i) (c) : (s.setCl i c).slices = s.slices := rfl
@[simp] theorem State.setCl_lw (s : State) (i) (c) : (s.setCl i c).lw = s.lw := rfl
@[simp] theorem State.setCl_cxl (s : State) (i) (c) : (s.setCl i c).cxl = s.cxl := rfl
@[simp] theorem State.setCl_frz (s : State) (i) (c) : (s.setCl i c).frz = s.frz := rfl
@[simp] theorem State.setCl_ports (s : State) (i) (c) : (s.setCl i c).ports = s.ports := rfl
@[simp] theorem State.setCl_eqs (s : State) (i) (c) : (s.setCl i c).eqs = s.eqs := rfl
@[simp] theorem State.setCl_scrubs (s : State) (i) (c) : (s.setCl i c).scrubs = s.scrubs := rfl
@[simp] theorem State.setCl_pl (s : State) (i) (c) : (s.setCl i c).pl = s.pl := rfl
@[simp] theorem State.setCl_fc (s : State) (i) (c) : (s.setCl i c).fc = s.fc := rfl
@[simp] theorem State.setCl_lb (s : State) (i) (c) : (s.setCl i c).lb = s.lb := rfl
@[simp] theorem State.setCl_gp (s : State) (i) (c) : (s.setCl i c).gp = s.gp := rfl
@[simp] theorem State.setCl_mod (s : State) (i) (c) : (s.setCl i c).mod = s.mod := rfl
@[simp] theorem State.setCl_boot (s : State) (i) (c) : (s.setCl i c).boot = s.boot := rfl

@[simp] theorem State.setSlice_pending (s : State) (i) (c) : (s.setSlice i c).pending = s.pending := rfl
@[simp] theorem State.setSlice_out (s : State) (i) (c) : (s.setSlice i c).out = s.out := rfl
@[simp] theorem State.setSlice_fresh (s : State) (i) (c) : (s.setSlice i c).fresh = s.fresh := rfl
@[simp] theorem State.setSlice_regs (s : State) (i) (c) : (s.setSlice i c).regs = s.regs := rfl
@[simp] theorem State.setSlice_staged (s : State) (i) (c) : (s.setSlice i c).staged = s.staged := rfl
@[simp] theorem State.setSlice_captured (s : State) (i) (c) : (s.setSlice i c).captured = s.captured := rfl
@[simp] theorem State.setSlice_tide (s : State) (i) (c) : (s.setSlice i c).tide = s.tide := rfl
@[simp] theorem State.setSlice_cores (s : State) (i) (c) : (s.setSlice i c).cores = s.cores := rfl
@[simp] theorem State.setSlice_mesh (s : State) (i) (c) : (s.setSlice i c).mesh = s.mesh := rfl
@[simp] theorem State.setSlice_fares (s : State) (i) (c) : (s.setSlice i c).fares = s.fares := rfl
@[simp] theorem State.setSlice_locks (s : State) (i) (c) : (s.setSlice i c).locks = s.locks := rfl
@[simp] theorem State.setSlice_sdChanged (s : State) (i) (c) : (s.setSlice i c).sdChanged = s.sdChanged := rfl
@[simp] theorem State.setSlice_sdArmed (s : State) (i) (c) : (s.setSlice i c).sdArmed = s.sdArmed := rfl
@[simp] theorem State.setSlice_clusters (s : State) (i) (c) : (s.setSlice i c).clusters = s.clusters := rfl
@[simp] theorem State.setSlice_mailboxes (s : State) (i) (c) : (s.setSlice i c).mailboxes = s.mailboxes := rfl
@[simp] theorem State.setSlice_bar4 (s : State) (i) (c) : (s.setSlice i c).bar4 = s.bar4 := rfl
@[simp] theorem State.setSlice_xb (s : State) (i) (c) : (s.setSlice i c).xb = s.xb := rfl
@[simp] theorem State.setSlice_ctxs (s : State) (i) (c) : (s.setSlice i c).ctxs = s.ctxs := rfl
@[simp] theorem State.setSlice_drains (s : State) (i) (c) : (s.setSlice i c).drains = s.drains := rfl
@[simp] theorem State.setSlice_dm (s : State) (i) (c) : (s.setSlice i c).dm = s.dm := rfl
@[simp] theorem State.setSlice_poison (s : State) (i) (c) : (s.setSlice i c).poison = s.poison := rfl
@[simp] theorem State.setSlice_lw (s : State) (i) (c) : (s.setSlice i c).lw = s.lw := rfl
@[simp] theorem State.setSlice_cxl (s : State) (i) (c) : (s.setSlice i c).cxl = s.cxl := rfl
@[simp] theorem State.setSlice_frz (s : State) (i) (c) : (s.setSlice i c).frz = s.frz := rfl
@[simp] theorem State.setSlice_ports (s : State) (i) (c) : (s.setSlice i c).ports = s.ports := rfl
@[simp] theorem State.setSlice_eqs (s : State) (i) (c) : (s.setSlice i c).eqs = s.eqs := rfl
@[simp] theorem State.setSlice_scrubs (s : State) (i) (c) : (s.setSlice i c).scrubs = s.scrubs := rfl
@[simp] theorem State.setSlice_pl (s : State) (i) (c) : (s.setSlice i c).pl = s.pl := rfl
@[simp] theorem State.setSlice_fc (s : State) (i) (c) : (s.setSlice i c).fc = s.fc := rfl
@[simp] theorem State.setSlice_lb (s : State) (i) (c) : (s.setSlice i c).lb = s.lb := rfl
@[simp] theorem State.setSlice_gp (s : State) (i) (c) : (s.setSlice i c).gp = s.gp := rfl
@[simp] theorem State.setSlice_mod (s : State) (i) (c) : (s.setSlice i c).mod = s.mod := rfl
@[simp] theorem State.setSlice_boot (s : State) (i) (c) : (s.setSlice i c).boot = s.boot := rfl

@[simp] theorem State.setPort_pending (s : State) (i) (c) : (s.setPort i c).pending = s.pending := rfl
@[simp] theorem State.setPort_out (s : State) (i) (c) : (s.setPort i c).out = s.out := rfl
@[simp] theorem State.setPort_fresh (s : State) (i) (c) : (s.setPort i c).fresh = s.fresh := rfl
@[simp] theorem State.setPort_regs (s : State) (i) (c) : (s.setPort i c).regs = s.regs := rfl
@[simp] theorem State.setPort_staged (s : State) (i) (c) : (s.setPort i c).staged = s.staged := rfl
@[simp] theorem State.setPort_captured (s : State) (i) (c) : (s.setPort i c).captured = s.captured := rfl
@[simp] theorem State.setPort_tide (s : State) (i) (c) : (s.setPort i c).tide = s.tide := rfl
@[simp] theorem State.setPort_cores (s : State) (i) (c) : (s.setPort i c).cores = s.cores := rfl
@[simp] theorem State.setPort_mesh (s : State) (i) (c) : (s.setPort i c).mesh = s.mesh := rfl
@[simp] theorem State.setPort_fares (s : State) (i) (c) : (s.setPort i c).fares = s.fares := rfl
@[simp] theorem State.setPort_locks (s : State) (i) (c) : (s.setPort i c).locks = s.locks := rfl
@[simp] theorem State.setPort_sdChanged (s : State) (i) (c) : (s.setPort i c).sdChanged = s.sdChanged := rfl
@[simp] theorem State.setPort_sdArmed (s : State) (i) (c) : (s.setPort i c).sdArmed = s.sdArmed := rfl
@[simp] theorem State.setPort_clusters (s : State) (i) (c) : (s.setPort i c).clusters = s.clusters := rfl
@[simp] theorem State.setPort_mailboxes (s : State) (i) (c) : (s.setPort i c).mailboxes = s.mailboxes := rfl
@[simp] theorem State.setPort_bar4 (s : State) (i) (c) : (s.setPort i c).bar4 = s.bar4 := rfl
@[simp] theorem State.setPort_xb (s : State) (i) (c) : (s.setPort i c).xb = s.xb := rfl
@[simp] theorem State.setPort_ctxs (s : State) (i) (c) : (s.setPort i c).ctxs = s.ctxs := rfl
@[simp] theorem State.setPort_drains (s : State) (i) (c) : (s.setPort i c).drains = s.drains := rfl
@[simp] theorem State.setPort_dm (s : State) (i) (c) : (s.setPort i c).dm = s.dm := rfl
@[simp] theorem State.setPort_poison (s : State) (i) (c) : (s.setPort i c).poison = s.poison := rfl
@[simp] theorem State.setPort_slices (s : State) (i) (c) : (s.setPort i c).slices = s.slices := rfl
@[simp] theorem State.setPort_lw (s : State) (i) (c) : (s.setPort i c).lw = s.lw := rfl
@[simp] theorem State.setPort_cxl (s : State) (i) (c) : (s.setPort i c).cxl = s.cxl := rfl
@[simp] theorem State.setPort_frz (s : State) (i) (c) : (s.setPort i c).frz = s.frz := rfl
@[simp] theorem State.setPort_eqs (s : State) (i) (c) : (s.setPort i c).eqs = s.eqs := rfl
@[simp] theorem State.setPort_scrubs (s : State) (i) (c) : (s.setPort i c).scrubs = s.scrubs := rfl
@[simp] theorem State.setPort_pl (s : State) (i) (c) : (s.setPort i c).pl = s.pl := rfl
@[simp] theorem State.setPort_fc (s : State) (i) (c) : (s.setPort i c).fc = s.fc := rfl
@[simp] theorem State.setPort_lb (s : State) (i) (c) : (s.setPort i c).lb = s.lb := rfl
@[simp] theorem State.setPort_gp (s : State) (i) (c) : (s.setPort i c).gp = s.gp := rfl
@[simp] theorem State.setPort_mod (s : State) (i) (c) : (s.setPort i c).mod = s.mod := rfl
@[simp] theorem State.setPort_boot (s : State) (i) (c) : (s.setPort i c).boot = s.boot := rfl

@[simp] theorem emit_out (s : State) (x) : (emit s x).out = s.out ++ [x] := rfl

@[simp] theorem emit_preg (s : State) (x p o) : preg (emit s x) p o = preg s p o := rfl

@[simp] theorem setCoreRaw_core_same (s : State) (i c) : (s.setCoreRaw i c).core i = c := Vector.getElem_set_self ..

@[simp] theorem setCl_cl_same (s : State) (i c) : (s.setCl i c).cl i = c := Vector.getElem_set_self ..

@[simp] theorem setSlice_slice_same (s : State) (i c) : (s.setSlice i c).slice i = c := Vector.getElem_set_self ..

@[simp] theorem setPort_port_same (s : State) (i c) : (s.setPort i c).port i = c := Vector.getElem_set_self ..

theorem setCoreRaw_core_other (s : State) {i j : Fin 256} (c) (h : j ≠ i) : (s.setCoreRaw i c).core j = s.core j :=
  Vector.getElem_set_ne i.isLt j.isLt (fun e => h (Fin.ext e.symm))

theorem setCl_cl_other (s : State) {i j : Fin 16} (c) (h : j ≠ i) : (s.setCl i c).cl j = s.cl j :=
  Vector.getElem_set_ne i.isLt j.isLt (fun e => h (Fin.ext e.symm))

theorem setSlice_slice_other (s : State) {i j : Fin 16} (c) (h : j ≠ i) : (s.setSlice i c).slice j = s.slice j :=
  Vector.getElem_set_ne i.isLt j.isLt (fun e => h (Fin.ext e.symm))

theorem setPort_port_other (s : State) {i j : Fin 8} (c) (h : j ≠ i) : (s.setPort i c).port j = s.port j :=
  Vector.getElem_set_ne i.isLt j.isLt (fun e => h (Fin.ext e.symm))

end Sys2Proof.Machine
end

