-- ==== Sys2Proof/Laws/Fields.lean ====
section
/-! SUPPORT. What reporting leaves alone, field by field. -/

set_option Elab.async false

namespace Sys2Proof

open Sys2Proof.Machine

theorem Quiet.pending {s t : State} (h : Quiet s t) : t.pending = s.pending := by rw [h]
theorem Quiet.staged {s t : State} (h : Quiet s t) : t.staged = s.staged := by rw [h]
theorem Quiet.captured {s t : State} (h : Quiet s t) : t.captured = s.captured := by rw [h]
theorem Quiet.tide {s t : State} (h : Quiet s t) : t.tide = s.tide := by rw [h]
theorem Quiet.cores {s t : State} (h : Quiet s t) : t.cores = s.cores := by rw [h]
theorem Quiet.mesh {s t : State} (h : Quiet s t) : t.mesh = s.mesh := by rw [h]
theorem Quiet.fares {s t : State} (h : Quiet s t) : t.fares = s.fares := by rw [h]
theorem Quiet.locks {s t : State} (h : Quiet s t) : t.locks = s.locks := by rw [h]
theorem Quiet.sdChanged {s t : State} (h : Quiet s t) : t.sdChanged = s.sdChanged := by rw [h]
theorem Quiet.sdArmed {s t : State} (h : Quiet s t) : t.sdArmed = s.sdArmed := by rw [h]
theorem Quiet.clusters {s t : State} (h : Quiet s t) : t.clusters = s.clusters := by rw [h]
theorem Quiet.mailboxes {s t : State} (h : Quiet s t) : t.mailboxes = s.mailboxes := by rw [h]
theorem Quiet.bar4 {s t : State} (h : Quiet s t) : t.bar4 = s.bar4 := by rw [h]
theorem Quiet.xb {s t : State} (h : Quiet s t) : t.xb = s.xb := by rw [h]
theorem Quiet.ctxs {s t : State} (h : Quiet s t) : t.ctxs = s.ctxs := by rw [h]
theorem Quiet.drains {s t : State} (h : Quiet s t) : t.drains = s.drains := by rw [h]
theorem Quiet.dm {s t : State} (h : Quiet s t) : t.dm = s.dm := by rw [h]
theorem Quiet.poison {s t : State} (h : Quiet s t) : t.poison = s.poison := by rw [h]
theorem Quiet.slices {s t : State} (h : Quiet s t) : t.slices = s.slices := by rw [h]
theorem Quiet.lw {s t : State} (h : Quiet s t) : t.lw = s.lw := by rw [h]
theorem Quiet.frz {s t : State} (h : Quiet s t) : t.frz = s.frz := by rw [h]
theorem Quiet.ports {s t : State} (h : Quiet s t) : t.ports = s.ports := by rw [h]
theorem Quiet.eqs {s t : State} (h : Quiet s t) : t.eqs = s.eqs := by rw [h]
theorem Quiet.scrubs {s t : State} (h : Quiet s t) : t.scrubs = s.scrubs := by rw [h]
theorem Quiet.pl {s t : State} (h : Quiet s t) : t.pl = s.pl := by rw [h]
theorem Quiet.gp {s t : State} (h : Quiet s t) : t.gp = s.gp := by rw [h]
theorem Quiet.mod {s t : State} (h : Quiet s t) : t.mod = s.mod := by rw [h]
theorem Quiet.boot {s t : State} (h : Quiet s t) : t.boot = s.boot := by rw [h]
theorem Quiet.cxl_memSpace {s t : State} (h : Quiet s t) : t.cxl.memSpace = s.cxl.memSpace := by rw [h]
theorem Quiet.cxl_busMaster {s t : State} (h : Quiet s t) : t.cxl.busMaster = s.cxl.busMaster := by rw [h]
theorem Quiet.cxl_parityResp {s t : State} (h : Quiet s t) : t.cxl.parityResp = s.cxl.parityResp := by rw [h]
theorem Quiet.cxl_serr {s t : State} (h : Quiet s t) : t.cxl.serr = s.cxl.serr := by rw [h]
theorem Quiet.cxl_intDisable {s t : State} (h : Quiet s t) : t.cxl.intDisable = s.cxl.intDisable := by rw [h]
theorem Quiet.cxl_msixEn {s t : State} (h : Quiet s t) : t.cxl.msixEn = s.cxl.msixEn := by rw [h]
theorem Quiet.cxl_funcMask {s t : State} (h : Quiet s t) : t.cxl.funcMask = s.cxl.funcMask := by rw [h]
theorem Quiet.cxl_relaxEn {s t : State} (h : Quiet s t) : t.cxl.relaxEn = s.cxl.relaxEn := by rw [h]
theorem Quiet.cxl_l1En {s t : State} (h : Quiet s t) : t.cxl.l1En = s.cxl.l1En := by rw [h]
theorem Quiet.cxl_cacheEn {s t : State} (h : Quiet s t) : t.cxl.cacheEn = s.cxl.cacheEn := by rw [h]
theorem Quiet.cxl_memEn {s t : State} (h : Quiet s t) : t.cxl.memEn = s.cxl.memEn := by rw [h]
theorem Quiet.cxl_disCache {s t : State} (h : Quiet s t) : t.cxl.disCache = s.cxl.disCache := by rw [h]
theorem Quiet.cxl_cacheInvalid {s t : State} (h : Quiet s t) : t.cxl.cacheInvalid = s.cxl.cacheInvalid := by rw [h]
theorem Quiet.cxl_wbWaiting {s t : State} (h : Quiet s t) : t.cxl.wbWaiting = s.cxl.wbWaiting := by rw [h]
theorem Quiet.cxl_intLine {s t : State} (h : Quiet s t) : t.cxl.intLine = s.cxl.intLine := by rw [h]
theorem Quiet.cxl_bars {s t : State} (h : Quiet s t) : t.cxl.bars = s.cxl.bars := by rw [h]
theorem Quiet.cxl_subsystem {s t : State} (h : Quiet s t) : t.cxl.subsystem = s.cxl.subsystem := by rw [h]
theorem Quiet.cxl_d3hot {s t : State} (h : Quiet s t) : t.cxl.d3hot = s.cxl.d3hot := by rw [h]
theorem Quiet.cxl_ctoVal {s t : State} (h : Quiet s t) : t.cxl.ctoVal = s.cxl.ctoVal := by rw [h]
theorem Quiet.cxl_ctoDis {s t : State} (h : Quiet s t) : t.cxl.ctoDis = s.cxl.ctoDis := by rw [h]
theorem Quiet.cxl_link {s t : State} (h : Quiet s t) : t.cxl.link = s.cxl.link := by rw [h]
theorem Quiet.cxl_l0pOk {s t : State} (h : Quiet s t) : t.cxl.l0pOk = s.cxl.l0pOk := by rw [h]
theorem Quiet.cxl_d2h {s t : State} (h : Quiet s t) : t.cxl.d2h = s.cxl.d2h := by rw [h]
theorem Quiet.cxl_wq {s t : State} (h : Quiet s t) : t.cxl.wq = s.cxl.wq := by rw [h]
theorem Quiet.cxl_inbound {s t : State} (h : Quiet s t) : t.cxl.inbound = s.cxl.inbound := by rw [h]
theorem Quiet.cxl_flr {s t : State} (h : Quiet s t) : t.cxl.flr = s.cxl.flr := by rw [h]
theorem Quiet.cxl_aer {s t : State} (h : Quiet s t) : t.cxl.aer = s.cxl.aer := by rw [h]
theorem Quiet.cxl_uncommitting {s t : State} (h : Quiet s t) : t.cxl.uncommitting = s.cxl.uncommitting := by rw [h]
theorem Quiet.fc_queue {s t : State} (h : Quiet s t) : t.fc.queue = s.fc.queue := by rw [h]
theorem Quiet.fc_recNo {s t : State} (h : Quiet s t) : t.fc.recNo = s.fc.recNo := by rw [h]
theorem Quiet.fc_safe {s t : State} (h : Quiet s t) : t.fc.safe = s.fc.safe := by rw [h]
theorem Quiet.fc_aliveStopped {s t : State} (h : Quiet s t) : t.fc.aliveStopped = s.fc.aliveStopped := by rw [h]
theorem Quiet.fc_aliveRb {s t : State} (h : Quiet s t) : t.fc.aliveRb = s.fc.aliveRb := by rw [h]
theorem Quiet.fc_wdogSet {s t : State} (h : Quiet s t) : t.fc.wdogSet = s.fc.wdogSet := by rw [h]
theorem Quiet.fc_episodes {s t : State} (h : Quiet s t) : t.fc.episodes = s.fc.episodes := by rw [h]
theorem Quiet.fc_portsToFence {s t : State} (h : Quiet s t) : t.fc.portsToFence = s.fc.portsToFence := by rw [h]
theorem Quiet.fc_abortIds {s t : State} (h : Quiet s t) : t.fc.abortIds = s.fc.abortIds := by rw [h]
theorem Quiet.lb_ring {s t : State} (h : Quiet s t) : t.lb.ring = s.lb.ring := by rw [h]
theorem Quiet.lb_head {s t : State} (h : Quiet s t) : t.lb.head = s.lb.head := by rw [h]
theorem Quiet.lb_wrapped {s t : State} (h : Quiet s t) : t.lb.wrapped = s.lb.wrapped := by rw [h]
theorem Quiet.lb_fresh {s t : State} (h : Quiet s t) : t.lb.fresh = s.lb.fresh := by rw [h]
theorem Quiet.lb_snap {s t : State} (h : Quiet s t) : t.lb.snap = s.lb.snap := by rw [h]
theorem Quiet.lb_hostWaits {s t : State} (h : Quiet s t) : t.lb.hostWaits = s.lb.hostWaits := by rw [h]
theorem Quiet.lb_fatalWaits {s t : State} (h : Quiet s t) : t.lb.fatalWaits = s.lb.fatalWaits := by rw [h]
theorem Quiet.lb_followUp {s t : State} (h : Quiet s t) : t.lb.followUp = s.lb.followUp := by rw [h]
theorem Quiet.lb_slots {s t : State} (h : Quiet s t) : t.lb.slots = s.lb.slots := by rw [h]
theorem Quiet.lb_newest {s t : State} (h : Quiet s t) : t.lb.newest = s.lb.newest := by rw [h]

@[simp] theorem sendMsix_pending (s : State) (v) : (sendMsix s v).pending = s.pending := (sendMsix_reported [] s v).1.pending
@[simp] theorem sendMsix_staged (s : State) (v) : (sendMsix s v).staged = s.staged := (sendMsix_reported [] s v).1.staged
@[simp] theorem sendMsix_captured (s : State) (v) : (sendMsix s v).captured = s.captured := (sendMsix_reported [] s v).1.captured
@[simp] theorem sendMsix_tide (s : State) (v) : (sendMsix s v).tide = s.tide := (sendMsix_reported [] s v).1.tide
@[simp] theorem sendMsix_cores (s : State) (v) : (sendMsix s v).cores = s.cores := (sendMsix_reported [] s v).1.cores
@[simp] theorem sendMsix_mesh (s : State) (v) : (sendMsix s v).mesh = s.mesh := (sendMsix_reported [] s v).1.mesh
@[simp] theorem sendMsix_fares (s : State) (v) : (sendMsix s v).fares = s.fares := (sendMsix_reported [] s v).1.fares
@[simp] theorem sendMsix_locks (s : State) (v) : (sendMsix s v).locks = s.locks := (sendMsix_reported [] s v).1.locks
@[simp] theorem sendMsix_sdChanged (s : State) (v) : (sendMsix s v).sdChanged = s.sdChanged := (sendMsix_reported [] s v).1.sdChanged
@[simp] theorem sendMsix_sdArmed (s : State) (v) : (sendMsix s v).sdArmed = s.sdArmed := (sendMsix_reported [] s v).1.sdArmed
@[simp] theorem sendMsix_clusters (s : State) (v) : (sendMsix s v).clusters = s.clusters := (sendMsix_reported [] s v).1.clusters
@[simp] theorem sendMsix_mailboxes (s : State) (v) : (sendMsix s v).mailboxes = s.mailboxes := (sendMsix_reported [] s v).1.mailboxes
@[simp] theorem sendMsix_bar4 (s : State) (v) : (sendMsix s v).bar4 = s.bar4 := (sendMsix_reported [] s v).1.bar4
@[simp] theorem sendMsix_xb (s : State) (v) : (sendMsix s v).xb = s.xb := (sendMsix_reported [] s v).1.xb
@[simp] theorem sendMsix_ctxs (s : State) (v) : (sendMsix s v).ctxs = s.ctxs := (sendMsix_reported [] s v).1.ctxs
@[simp] theorem sendMsix_drains (s : State) (v) : (sendMsix s v).drains = s.drains := (sendMsix_reported [] s v).1.drains
@[simp] theorem sendMsix_dm (s : State) (v) : (sendMsix s v).dm = s.dm := (sendMsix_reported [] s v).1.dm
@[simp] theorem sendMsix_poison (s : State) (v) : (sendMsix s v).poison = s.poison := (sendMsix_reported [] s v).1.poison
@[simp] theorem sendMsix_slices (s : State) (v) : (sendMsix s v).slices = s.slices := (sendMsix_reported [] s v).1.slices
@[simp] theorem sendMsix_lw (s : State) (v) : (sendMsix s v).lw = s.lw := (sendMsix_reported [] s v).1.lw
@[simp] theorem sendMsix_frz (s : State) (v) : (sendMsix s v).frz = s.frz := (sendMsix_reported [] s v).1.frz
@[simp] theorem sendMsix_ports (s : State) (v) : (sendMsix s v).ports = s.ports := (sendMsix_reported [] s v).1.ports
@[simp] theorem sendMsix_eqs (s : State) (v) : (sendMsix s v).eqs = s.eqs := (sendMsix_reported [] s v).1.eqs
@[simp] theorem sendMsix_scrubs (s : State) (v) : (sendMsix s v).scrubs = s.scrubs := (sendMsix_reported [] s v).1.scrubs
@[simp] theorem sendMsix_pl (s : State) (v) : (sendMsix s v).pl = s.pl := (sendMsix_reported [] s v).1.pl
@[simp] theorem sendMsix_gp (s : State) (v) : (sendMsix s v).gp = s.gp := (sendMsix_reported [] s v).1.gp
@[simp] theorem sendMsix_mod (s : State) (v) : (sendMsix s v).mod = s.mod := (sendMsix_reported [] s v).1.mod
@[simp] theorem sendMsix_boot (s : State) (v) : (sendMsix s v).boot = s.boot := (sendMsix_reported [] s v).1.boot
@[simp] theorem sendMsix_cxl_memSpace (s : State) (v) : (sendMsix s v).cxl.memSpace = s.cxl.memSpace := (sendMsix_reported [] s v).1.cxl_memSpace
@[simp] theorem sendMsix_cxl_busMaster (s : State) (v) : (sendMsix s v).cxl.busMaster = s.cxl.busMaster := (sendMsix_reported [] s v).1.cxl_busMaster
@[simp] theorem sendMsix_cxl_parityResp (s : State) (v) : (sendMsix s v).cxl.parityResp = s.cxl.parityResp := (sendMsix_reported [] s v).1.cxl_parityResp
@[simp] theorem sendMsix_cxl_serr (s : State) (v) : (sendMsix s v).cxl.serr = s.cxl.serr := (sendMsix_reported [] s v).1.cxl_serr
@[simp] theorem sendMsix_cxl_intDisable (s : State) (v) : (sendMsix s v).cxl.intDisable = s.cxl.intDisable := (sendMsix_reported [] s v).1.cxl_intDisable
@[simp] theorem sendMsix_cxl_msixEn (s : State) (v) : (sendMsix s v).cxl.msixEn = s.cxl.msixEn := (sendMsix_reported [] s v).1.cxl_msixEn
@[simp] theorem sendMsix_cxl_funcMask (s : State) (v) : (sendMsix s v).cxl.funcMask = s.cxl.funcMask := (sendMsix_reported [] s v).1.cxl_funcMask
@[simp] theorem sendMsix_cxl_relaxEn (s : State) (v) : (sendMsix s v).cxl.relaxEn = s.cxl.relaxEn := (sendMsix_reported [] s v).1.cxl_relaxEn
@[simp] theorem sendMsix_cxl_l1En (s : State) (v) : (sendMsix s v).cxl.l1En = s.cxl.l1En := (sendMsix_reported [] s v).1.cxl_l1En
@[simp] theorem sendMsix_cxl_cacheEn (s : State) (v) : (sendMsix s v).cxl.cacheEn = s.cxl.cacheEn := (sendMsix_reported [] s v).1.cxl_cacheEn
@[simp] theorem sendMsix_cxl_memEn (s : State) (v) : (sendMsix s v).cxl.memEn = s.cxl.memEn := (sendMsix_reported [] s v).1.cxl_memEn
@[simp] theorem sendMsix_cxl_disCache (s : State) (v) : (sendMsix s v).cxl.disCache = s.cxl.disCache := (sendMsix_reported [] s v).1.cxl_disCache
@[simp] theorem sendMsix_cxl_cacheInvalid (s : State) (v) : (sendMsix s v).cxl.cacheInvalid = s.cxl.cacheInvalid := (sendMsix_reported [] s v).1.cxl_cacheInvalid
@[simp] theorem sendMsix_cxl_wbWaiting (s : State) (v) : (sendMsix s v).cxl.wbWaiting = s.cxl.wbWaiting := (sendMsix_reported [] s v).1.cxl_wbWaiting
@[simp] theorem sendMsix_cxl_intLine (s : State) (v) : (sendMsix s v).cxl.intLine = s.cxl.intLine := (sendMsix_reported [] s v).1.cxl_intLine
@[simp] theorem sendMsix_cxl_bars (s : State) (v) : (sendMsix s v).cxl.bars = s.cxl.bars := (sendMsix_reported [] s v).1.cxl_bars
@[simp] theorem sendMsix_cxl_subsystem (s : State) (v) : (sendMsix s v).cxl.subsystem = s.cxl.subsystem := (sendMsix_reported [] s v).1.cxl_subsystem
@[simp] theorem sendMsix_cxl_d3hot (s : State) (v) : (sendMsix s v).cxl.d3hot = s.cxl.d3hot := (sendMsix_reported [] s v).1.cxl_d3hot
@[simp] theorem sendMsix_cxl_ctoVal (s : State) (v) : (sendMsix s v).cxl.ctoVal = s.cxl.ctoVal := (sendMsix_reported [] s v).1.cxl_ctoVal
@[simp] theorem sendMsix_cxl_ctoDis (s : State) (v) : (sendMsix s v).cxl.ctoDis = s.cxl.ctoDis := (sendMsix_reported [] s v).1.cxl_ctoDis
@[simp] theorem sendMsix_cxl_link (s : State) (v) : (sendMsix s v).cxl.link = s.cxl.link := (sendMsix_reported [] s v).1.cxl_link
@[simp] theorem sendMsix_cxl_l0pOk (s : State) (v) : (sendMsix s v).cxl.l0pOk = s.cxl.l0pOk := (sendMsix_reported [] s v).1.cxl_l0pOk
@[simp] theorem sendMsix_cxl_d2h (s : State) (v) : (sendMsix s v).cxl.d2h = s.cxl.d2h := (sendMsix_reported [] s v).1.cxl_d2h
@[simp] theorem sendMsix_cxl_wq (s : State) (v) : (sendMsix s v).cxl.wq = s.cxl.wq := (sendMsix_reported [] s v).1.cxl_wq
@[simp] theorem sendMsix_cxl_inbound (s : State) (v) : (sendMsix s v).cxl.inbound = s.cxl.inbound := (sendMsix_reported [] s v).1.cxl_inbound
@[simp] theorem sendMsix_cxl_flr (s : State) (v) : (sendMsix s v).cxl.flr = s.cxl.flr := (sendMsix_reported [] s v).1.cxl_flr
@[simp] theorem sendMsix_cxl_aer (s : State) (v) : (sendMsix s v).cxl.aer = s.cxl.aer := (sendMsix_reported [] s v).1.cxl_aer
@[simp] theorem sendMsix_cxl_uncommitting (s : State) (v) : (sendMsix s v).cxl.uncommitting = s.cxl.uncommitting := (sendMsix_reported [] s v).1.cxl_uncommitting
@[simp] theorem sendMsix_fc_queue (s : State) (v) : (sendMsix s v).fc.queue = s.fc.queue := (sendMsix_reported [] s v).1.fc_queue
@[simp] theorem sendMsix_fc_recNo (s : State) (v) : (sendMsix s v).fc.recNo = s.fc.recNo := (sendMsix_reported [] s v).1.fc_recNo
@[simp] theorem sendMsix_fc_safe (s : State) (v) : (sendMsix s v).fc.safe = s.fc.safe := (sendMsix_reported [] s v).1.fc_safe
@[simp] theorem sendMsix_fc_aliveStopped (s : State) (v) : (sendMsix s v).fc.aliveStopped = s.fc.aliveStopped := (sendMsix_reported [] s v).1.fc_aliveStopped
@[simp] theorem sendMsix_fc_aliveRb (s : State) (v) : (sendMsix s v).fc.aliveRb = s.fc.aliveRb := (sendMsix_reported [] s v).1.fc_aliveRb
@[simp] theorem sendMsix_fc_wdogSet (s : State) (v) : (sendMsix s v).fc.wdogSet = s.fc.wdogSet := (sendMsix_reported [] s v).1.fc_wdogSet
@[simp] theorem sendMsix_fc_episodes (s : State) (v) : (sendMsix s v).fc.episodes = s.fc.episodes := (sendMsix_reported [] s v).1.fc_episodes
@[simp] theorem sendMsix_fc_portsToFence (s : State) (v) : (sendMsix s v).fc.portsToFence = s.fc.portsToFence := (sendMsix_reported [] s v).1.fc_portsToFence
@[simp] theorem sendMsix_fc_abortIds (s : State) (v) : (sendMsix s v).fc.abortIds = s.fc.abortIds := (sendMsix_reported [] s v).1.fc_abortIds
@[simp] theorem sendMsix_lb_ring (s : State) (v) : (sendMsix s v).lb.ring = s.lb.ring := (sendMsix_reported [] s v).1.lb_ring
@[simp] theorem sendMsix_lb_head (s : State) (v) : (sendMsix s v).lb.head = s.lb.head := (sendMsix_reported [] s v).1.lb_head
@[simp] theorem sendMsix_lb_wrapped (s : State) (v) : (sendMsix s v).lb.wrapped = s.lb.wrapped := (sendMsix_reported [] s v).1.lb_wrapped
@[simp] theorem sendMsix_lb_fresh (s : State) (v) : (sendMsix s v).lb.fresh = s.lb.fresh := (sendMsix_reported [] s v).1.lb_fresh
@[simp] theorem sendMsix_lb_snap (s : State) (v) : (sendMsix s v).lb.snap = s.lb.snap := (sendMsix_reported [] s v).1.lb_snap
@[simp] theorem sendMsix_lb_hostWaits (s : State) (v) : (sendMsix s v).lb.hostWaits = s.lb.hostWaits := (sendMsix_reported [] s v).1.lb_hostWaits
@[simp] theorem sendMsix_lb_fatalWaits (s : State) (v) : (sendMsix s v).lb.fatalWaits = s.lb.fatalWaits := (sendMsix_reported [] s v).1.lb_fatalWaits
@[simp] theorem sendMsix_lb_followUp (s : State) (v) : (sendMsix s v).lb.followUp = s.lb.followUp := (sendMsix_reported [] s v).1.lb_followUp
@[simp] theorem sendMsix_lb_slots (s : State) (v) : (sendMsix s v).lb.slots = s.lb.slots := (sendMsix_reported [] s v).1.lb_slots
@[simp] theorem sendMsix_lb_newest (s : State) (v) : (sendMsix s v).lb.newest = s.lb.newest := (sendMsix_reported [] s v).1.lb_newest

@[simp] theorem updateInta_pending (s : State) : (updateInta s).pending = s.pending := (updateInta_reported [] s).1.pending
@[simp] theorem updateInta_staged (s : State) : (updateInta s).staged = s.staged := (updateInta_reported [] s).1.staged
@[simp] theorem updateInta_captured (s : State) : (updateInta s).captured = s.captured := (updateInta_reported [] s).1.captured
@[simp] theorem updateInta_tide (s : State) : (updateInta s).tide = s.tide := (updateInta_reported [] s).1.tide
@[simp] theorem updateInta_cores (s : State) : (updateInta s).cores = s.cores := (updateInta_reported [] s).1.cores
@[simp] theorem updateInta_mesh (s : State) : (updateInta s).mesh = s.mesh := (updateInta_reported [] s).1.mesh
@[simp] theorem updateInta_fares (s : State) : (updateInta s).fares = s.fares := (updateInta_reported [] s).1.fares
@[simp] theorem updateInta_locks (s : State) : (updateInta s).locks = s.locks := (updateInta_reported [] s).1.locks
@[simp] theorem updateInta_sdChanged (s : State) : (updateInta s).sdChanged = s.sdChanged := (updateInta_reported [] s).1.sdChanged
@[simp] theorem updateInta_sdArmed (s : State) : (updateInta s).sdArmed = s.sdArmed := (updateInta_reported [] s).1.sdArmed
@[simp] theorem updateInta_clusters (s : State) : (updateInta s).clusters = s.clusters := (updateInta_reported [] s).1.clusters
@[simp] theorem updateInta_mailboxes (s : State) : (updateInta s).mailboxes = s.mailboxes := (updateInta_reported [] s).1.mailboxes
@[simp] theorem updateInta_bar4 (s : State) : (updateInta s).bar4 = s.bar4 := (updateInta_reported [] s).1.bar4
@[simp] theorem updateInta_xb (s : State) : (updateInta s).xb = s.xb := (updateInta_reported [] s).1.xb
@[simp] theorem updateInta_ctxs (s : State) : (updateInta s).ctxs = s.ctxs := (updateInta_reported [] s).1.ctxs
@[simp] theorem updateInta_drains (s : State) : (updateInta s).drains = s.drains := (updateInta_reported [] s).1.drains
@[simp] theorem updateInta_dm (s : State) : (updateInta s).dm = s.dm := (updateInta_reported [] s).1.dm
@[simp] theorem updateInta_poison (s : State) : (updateInta s).poison = s.poison := (updateInta_reported [] s).1.poison
@[simp] theorem updateInta_slices (s : State) : (updateInta s).slices = s.slices := (updateInta_reported [] s).1.slices
@[simp] theorem updateInta_lw (s : State) : (updateInta s).lw = s.lw := (updateInta_reported [] s).1.lw
@[simp] theorem updateInta_frz (s : State) : (updateInta s).frz = s.frz := (updateInta_reported [] s).1.frz
@[simp] theorem updateInta_ports (s : State) : (updateInta s).ports = s.ports := (updateInta_reported [] s).1.ports
@[simp] theorem updateInta_eqs (s : State) : (updateInta s).eqs = s.eqs := (updateInta_reported [] s).1.eqs
@[simp] theorem updateInta_scrubs (s : State) : (updateInta s).scrubs = s.scrubs := (updateInta_reported [] s).1.scrubs
@[simp] theorem updateInta_pl (s : State) : (updateInta s).pl = s.pl := (updateInta_reported [] s).1.pl
@[simp] theorem updateInta_gp (s : State) : (updateInta s).gp = s.gp := (updateInta_reported [] s).1.gp
@[simp] theorem updateInta_mod (s : State) : (updateInta s).mod = s.mod := (updateInta_reported [] s).1.mod
@[simp] theorem updateInta_boot (s : State) : (updateInta s).boot = s.boot := (updateInta_reported [] s).1.boot
@[simp] theorem updateInta_cxl_memSpace (s : State) : (updateInta s).cxl.memSpace = s.cxl.memSpace := (updateInta_reported [] s).1.cxl_memSpace
@[simp] theorem updateInta_cxl_busMaster (s : State) : (updateInta s).cxl.busMaster = s.cxl.busMaster := (updateInta_reported [] s).1.cxl_busMaster
@[simp] theorem updateInta_cxl_parityResp (s : State) : (updateInta s).cxl.parityResp = s.cxl.parityResp := (updateInta_reported [] s).1.cxl_parityResp
@[simp] theorem updateInta_cxl_serr (s : State) : (updateInta s).cxl.serr = s.cxl.serr := (updateInta_reported [] s).1.cxl_serr
@[simp] theorem updateInta_cxl_intDisable (s : State) : (updateInta s).cxl.intDisable = s.cxl.intDisable := (updateInta_reported [] s).1.cxl_intDisable
@[simp] theorem updateInta_cxl_msixEn (s : State) : (updateInta s).cxl.msixEn = s.cxl.msixEn := (updateInta_reported [] s).1.cxl_msixEn
@[simp] theorem updateInta_cxl_funcMask (s : State) : (updateInta s).cxl.funcMask = s.cxl.funcMask := (updateInta_reported [] s).1.cxl_funcMask
@[simp] theorem updateInta_cxl_relaxEn (s : State) : (updateInta s).cxl.relaxEn = s.cxl.relaxEn := (updateInta_reported [] s).1.cxl_relaxEn
@[simp] theorem updateInta_cxl_l1En (s : State) : (updateInta s).cxl.l1En = s.cxl.l1En := (updateInta_reported [] s).1.cxl_l1En
@[simp] theorem updateInta_cxl_cacheEn (s : State) : (updateInta s).cxl.cacheEn = s.cxl.cacheEn := (updateInta_reported [] s).1.cxl_cacheEn
@[simp] theorem updateInta_cxl_memEn (s : State) : (updateInta s).cxl.memEn = s.cxl.memEn := (updateInta_reported [] s).1.cxl_memEn
@[simp] theorem updateInta_cxl_disCache (s : State) : (updateInta s).cxl.disCache = s.cxl.disCache := (updateInta_reported [] s).1.cxl_disCache
@[simp] theorem updateInta_cxl_cacheInvalid (s : State) : (updateInta s).cxl.cacheInvalid = s.cxl.cacheInvalid := (updateInta_reported [] s).1.cxl_cacheInvalid
@[simp] theorem updateInta_cxl_wbWaiting (s : State) : (updateInta s).cxl.wbWaiting = s.cxl.wbWaiting := (updateInta_reported [] s).1.cxl_wbWaiting
@[simp] theorem updateInta_cxl_intLine (s : State) : (updateInta s).cxl.intLine = s.cxl.intLine := (updateInta_reported [] s).1.cxl_intLine
@[simp] theorem updateInta_cxl_bars (s : State) : (updateInta s).cxl.bars = s.cxl.bars := (updateInta_reported [] s).1.cxl_bars
@[simp] theorem updateInta_cxl_subsystem (s : State) : (updateInta s).cxl.subsystem = s.cxl.subsystem := (updateInta_reported [] s).1.cxl_subsystem
@[simp] theorem updateInta_cxl_d3hot (s : State) : (updateInta s).cxl.d3hot = s.cxl.d3hot := (updateInta_reported [] s).1.cxl_d3hot
@[simp] theorem updateInta_cxl_ctoVal (s : State) : (updateInta s).cxl.ctoVal = s.cxl.ctoVal := (updateInta_reported [] s).1.cxl_ctoVal
@[simp] theorem updateInta_cxl_ctoDis (s : State) : (updateInta s).cxl.ctoDis = s.cxl.ctoDis := (updateInta_reported [] s).1.cxl_ctoDis
@[simp] theorem updateInta_cxl_link (s : State) : (updateInta s).cxl.link = s.cxl.link := (updateInta_reported [] s).1.cxl_link
@[simp] theorem updateInta_cxl_l0pOk (s : State) : (updateInta s).cxl.l0pOk = s.cxl.l0pOk := (updateInta_reported [] s).1.cxl_l0pOk
@[simp] theorem updateInta_cxl_d2h (s : State) : (updateInta s).cxl.d2h = s.cxl.d2h := (updateInta_reported [] s).1.cxl_d2h
@[simp] theorem updateInta_cxl_wq (s : State) : (updateInta s).cxl.wq = s.cxl.wq := (updateInta_reported [] s).1.cxl_wq
@[simp] theorem updateInta_cxl_inbound (s : State) : (updateInta s).cxl.inbound = s.cxl.inbound := (updateInta_reported [] s).1.cxl_inbound
@[simp] theorem updateInta_cxl_flr (s : State) : (updateInta s).cxl.flr = s.cxl.flr := (updateInta_reported [] s).1.cxl_flr
@[simp] theorem updateInta_cxl_aer (s : State) : (updateInta s).cxl.aer = s.cxl.aer := (updateInta_reported [] s).1.cxl_aer
@[simp] theorem updateInta_cxl_uncommitting (s : State) : (updateInta s).cxl.uncommitting = s.cxl.uncommitting := (updateInta_reported [] s).1.cxl_uncommitting
@[simp] theorem updateInta_fc_queue (s : State) : (updateInta s).fc.queue = s.fc.queue := (updateInta_reported [] s).1.fc_queue
@[simp] theorem updateInta_fc_recNo (s : State) : (updateInta s).fc.recNo = s.fc.recNo := (updateInta_reported [] s).1.fc_recNo
@[simp] theorem updateInta_fc_safe (s : State) : (updateInta s).fc.safe = s.fc.safe := (updateInta_reported [] s).1.fc_safe
@[simp] theorem updateInta_fc_aliveStopped (s : State) : (updateInta s).fc.aliveStopped = s.fc.aliveStopped := (updateInta_reported [] s).1.fc_aliveStopped
@[simp] theorem updateInta_fc_aliveRb (s : State) : (updateInta s).fc.aliveRb = s.fc.aliveRb := (updateInta_reported [] s).1.fc_aliveRb
@[simp] theorem updateInta_fc_wdogSet (s : State) : (updateInta s).fc.wdogSet = s.fc.wdogSet := (updateInta_reported [] s).1.fc_wdogSet
@[simp] theorem updateInta_fc_episodes (s : State) : (updateInta s).fc.episodes = s.fc.episodes := (updateInta_reported [] s).1.fc_episodes
@[simp] theorem updateInta_fc_portsToFence (s : State) : (updateInta s).fc.portsToFence = s.fc.portsToFence := (updateInta_reported [] s).1.fc_portsToFence
@[simp] theorem updateInta_fc_abortIds (s : State) : (updateInta s).fc.abortIds = s.fc.abortIds := (updateInta_reported [] s).1.fc_abortIds
@[simp] theorem updateInta_lb_ring (s : State) : (updateInta s).lb.ring = s.lb.ring := (updateInta_reported [] s).1.lb_ring
@[simp] theorem updateInta_lb_head (s : State) : (updateInta s).lb.head = s.lb.head := (updateInta_reported [] s).1.lb_head
@[simp] theorem updateInta_lb_wrapped (s : State) : (updateInta s).lb.wrapped = s.lb.wrapped := (updateInta_reported [] s).1.lb_wrapped
@[simp] theorem updateInta_lb_fresh (s : State) : (updateInta s).lb.fresh = s.lb.fresh := (updateInta_reported [] s).1.lb_fresh
@[simp] theorem updateInta_lb_snap (s : State) : (updateInta s).lb.snap = s.lb.snap := (updateInta_reported [] s).1.lb_snap
@[simp] theorem updateInta_lb_hostWaits (s : State) : (updateInta s).lb.hostWaits = s.lb.hostWaits := (updateInta_reported [] s).1.lb_hostWaits
@[simp] theorem updateInta_lb_fatalWaits (s : State) : (updateInta s).lb.fatalWaits = s.lb.fatalWaits := (updateInta_reported [] s).1.lb_fatalWaits
@[simp] theorem updateInta_lb_followUp (s : State) : (updateInta s).lb.followUp = s.lb.followUp := (updateInta_reported [] s).1.lb_followUp
@[simp] theorem updateInta_lb_slots (s : State) : (updateInta s).lb.slots = s.lb.slots := (updateInta_reported [] s).1.lb_slots
@[simp] theorem updateInta_lb_newest (s : State) : (updateInta s).lb.newest = s.lb.newest := (updateInta_reported [] s).1.lb_newest

@[simp] theorem irqEdge_pending (s : State) (p) (x) : (irqEdge p x s).pending = s.pending := (irqEdge_reported [] p x s).1.pending
@[simp] theorem irqEdge_staged (s : State) (p) (x) : (irqEdge p x s).staged = s.staged := (irqEdge_reported [] p x s).1.staged
@[simp] theorem irqEdge_captured (s : State) (p) (x) : (irqEdge p x s).captured = s.captured := (irqEdge_reported [] p x s).1.captured
@[simp] theorem irqEdge_tide (s : State) (p) (x) : (irqEdge p x s).tide = s.tide := (irqEdge_reported [] p x s).1.tide
@[simp] theorem irqEdge_cores (s : State) (p) (x) : (irqEdge p x s).cores = s.cores := (irqEdge_reported [] p x s).1.cores
@[simp] theorem irqEdge_mesh (s : State) (p) (x) : (irqEdge p x s).mesh = s.mesh := (irqEdge_reported [] p x s).1.mesh
@[simp] theorem irqEdge_fares (s : State) (p) (x) : (irqEdge p x s).fares = s.fares := (irqEdge_reported [] p x s).1.fares
@[simp] theorem irqEdge_locks (s : State) (p) (x) : (irqEdge p x s).locks = s.locks := (irqEdge_reported [] p x s).1.locks
@[simp] theorem irqEdge_sdChanged (s : State) (p) (x) : (irqEdge p x s).sdChanged = s.sdChanged := (irqEdge_reported [] p x s).1.sdChanged
@[simp] theorem irqEdge_sdArmed (s : State) (p) (x) : (irqEdge p x s).sdArmed = s.sdArmed := (irqEdge_reported [] p x s).1.sdArmed
@[simp] theorem irqEdge_clusters (s : State) (p) (x) : (irqEdge p x s).clusters = s.clusters := (irqEdge_reported [] p x s).1.clusters
@[simp] theorem irqEdge_mailboxes (s : State) (p) (x) : (irqEdge p x s).mailboxes = s.mailboxes := (irqEdge_reported [] p x s).1.mailboxes
@[simp] theorem irqEdge_bar4 (s : State) (p) (x) : (irqEdge p x s).bar4 = s.bar4 := (irqEdge_reported [] p x s).1.bar4
@[simp] theorem irqEdge_xb (s : State) (p) (x) : (irqEdge p x s).xb = s.xb := (irqEdge_reported [] p x s).1.xb
@[simp] theorem irqEdge_ctxs (s : State) (p) (x) : (irqEdge p x s).ctxs = s.ctxs := (irqEdge_reported [] p x s).1.ctxs
@[simp] theorem irqEdge_drains (s : State) (p) (x) : (irqEdge p x s).drains = s.drains := (irqEdge_reported [] p x s).1.drains
@[simp] theorem irqEdge_dm (s : State) (p) (x) : (irqEdge p x s).dm = s.dm := (irqEdge_reported [] p x s).1.dm
@[simp] theorem irqEdge_poison (s : State) (p) (x) : (irqEdge p x s).poison = s.poison := (irqEdge_reported [] p x s).1.poison
@[simp] theorem irqEdge_slices (s : State) (p) (x) : (irqEdge p x s).slices = s.slices := (irqEdge_reported [] p x s).1.slices
@[simp] theorem irqEdge_lw (s : State) (p) (x) : (irqEdge p x s).lw = s.lw := (irqEdge_reported [] p x s).1.lw
@[simp] theorem irqEdge_frz (s : State) (p) (x) : (irqEdge p x s).frz = s.frz := (irqEdge_reported [] p x s).1.frz
@[simp] theorem irqEdge_ports (s : State) (p) (x) : (irqEdge p x s).ports = s.ports := (irqEdge_reported [] p x s).1.ports
@[simp] theorem irqEdge_eqs (s : State) (p) (x) : (irqEdge p x s).eqs = s.eqs := (irqEdge_reported [] p x s).1.eqs
@[simp] theorem irqEdge_scrubs (s : State) (p) (x) : (irqEdge p x s).scrubs = s.scrubs := (irqEdge_reported [] p x s).1.scrubs
@[simp] theorem irqEdge_pl (s : State) (p) (x) : (irqEdge p x s).pl = s.pl := (irqEdge_reported [] p x s).1.pl
@[simp] theorem irqEdge_gp (s : State) (p) (x) : (irqEdge p x s).gp = s.gp := (irqEdge_reported [] p x s).1.gp
@[simp] theorem irqEdge_mod (s : State) (p) (x) : (irqEdge p x s).mod = s.mod := (irqEdge_reported [] p x s).1.mod
@[simp] theorem irqEdge_boot (s : State) (p) (x) : (irqEdge p x s).boot = s.boot := (irqEdge_reported [] p x s).1.boot
@[simp] theorem irqEdge_cxl_memSpace (s : State) (p) (x) : (irqEdge p x s).cxl.memSpace = s.cxl.memSpace := (irqEdge_reported [] p x s).1.cxl_memSpace
@[simp] theorem irqEdge_cxl_busMaster (s : State) (p) (x) : (irqEdge p x s).cxl.busMaster = s.cxl.busMaster := (irqEdge_reported [] p x s).1.cxl_busMaster
@[simp] theorem irqEdge_cxl_parityResp (s : State) (p) (x) : (irqEdge p x s).cxl.parityResp = s.cxl.parityResp := (irqEdge_reported [] p x s).1.cxl_parityResp
@[simp] theorem irqEdge_cxl_serr (s : State) (p) (x) : (irqEdge p x s).cxl.serr = s.cxl.serr := (irqEdge_reported [] p x s).1.cxl_serr
@[simp] theorem irqEdge_cxl_intDisable (s : State) (p) (x) : (irqEdge p x s).cxl.intDisable = s.cxl.intDisable := (irqEdge_reported [] p x s).1.cxl_intDisable
@[simp] theorem irqEdge_cxl_msixEn (s : State) (p) (x) : (irqEdge p x s).cxl.msixEn = s.cxl.msixEn := (irqEdge_reported [] p x s).1.cxl_msixEn
@[simp] theorem irqEdge_cxl_funcMask (s : State) (p) (x) : (irqEdge p x s).cxl.funcMask = s.cxl.funcMask := (irqEdge_reported [] p x s).1.cxl_funcMask
@[simp] theorem irqEdge_cxl_relaxEn (s : State) (p) (x) : (irqEdge p x s).cxl.relaxEn = s.cxl.relaxEn := (irqEdge_reported [] p x s).1.cxl_relaxEn
@[simp] theorem irqEdge_cxl_l1En (s : State) (p) (x) : (irqEdge p x s).cxl.l1En = s.cxl.l1En := (irqEdge_reported [] p x s).1.cxl_l1En
@[simp] theorem irqEdge_cxl_cacheEn (s : State) (p) (x) : (irqEdge p x s).cxl.cacheEn = s.cxl.cacheEn := (irqEdge_reported [] p x s).1.cxl_cacheEn
@[simp] theorem irqEdge_cxl_memEn (s : State) (p) (x) : (irqEdge p x s).cxl.memEn = s.cxl.memEn := (irqEdge_reported [] p x s).1.cxl_memEn
@[simp] theorem irqEdge_cxl_disCache (s : State) (p) (x) : (irqEdge p x s).cxl.disCache = s.cxl.disCache := (irqEdge_reported [] p x s).1.cxl_disCache
@[simp] theorem irqEdge_cxl_cacheInvalid (s : State) (p) (x) : (irqEdge p x s).cxl.cacheInvalid = s.cxl.cacheInvalid := (irqEdge_reported [] p x s).1.cxl_cacheInvalid
@[simp] theorem irqEdge_cxl_wbWaiting (s : State) (p) (x) : (irqEdge p x s).cxl.wbWaiting = s.cxl.wbWaiting := (irqEdge_reported [] p x s).1.cxl_wbWaiting
@[simp] theorem irqEdge_cxl_intLine (s : State) (p) (x) : (irqEdge p x s).cxl.intLine = s.cxl.intLine := (irqEdge_reported [] p x s).1.cxl_intLine
@[simp] theorem irqEdge_cxl_bars (s : State) (p) (x) : (irqEdge p x s).cxl.bars = s.cxl.bars := (irqEdge_reported [] p x s).1.cxl_bars
@[simp] theorem irqEdge_cxl_subsystem (s : State) (p) (x) : (irqEdge p x s).cxl.subsystem = s.cxl.subsystem := (irqEdge_reported [] p x s).1.cxl_subsystem
@[simp] theorem irqEdge_cxl_d3hot (s : State) (p) (x) : (irqEdge p x s).cxl.d3hot = s.cxl.d3hot := (irqEdge_reported [] p x s).1.cxl_d3hot
@[simp] theorem irqEdge_cxl_ctoVal (s : State) (p) (x) : (irqEdge p x s).cxl.ctoVal = s.cxl.ctoVal := (irqEdge_reported [] p x s).1.cxl_ctoVal
@[simp] theorem irqEdge_cxl_ctoDis (s : State) (p) (x) : (irqEdge p x s).cxl.ctoDis = s.cxl.ctoDis := (irqEdge_reported [] p x s).1.cxl_ctoDis
@[simp] theorem irqEdge_cxl_link (s : State) (p) (x) : (irqEdge p x s).cxl.link = s.cxl.link := (irqEdge_reported [] p x s).1.cxl_link
@[simp] theorem irqEdge_cxl_l0pOk (s : State) (p) (x) : (irqEdge p x s).cxl.l0pOk = s.cxl.l0pOk := (irqEdge_reported [] p x s).1.cxl_l0pOk
@[simp] theorem irqEdge_cxl_d2h (s : State) (p) (x) : (irqEdge p x s).cxl.d2h = s.cxl.d2h := (irqEdge_reported [] p x s).1.cxl_d2h
@[simp] theorem irqEdge_cxl_wq (s : State) (p) (x) : (irqEdge p x s).cxl.wq = s.cxl.wq := (irqEdge_reported [] p x s).1.cxl_wq
@[simp] theorem irqEdge_cxl_inbound (s : State) (p) (x) : (irqEdge p x s).cxl.inbound = s.cxl.inbound := (irqEdge_reported [] p x s).1.cxl_inbound
@[simp] theorem irqEdge_cxl_flr (s : State) (p) (x) : (irqEdge p x s).cxl.flr = s.cxl.flr := (irqEdge_reported [] p x s).1.cxl_flr
@[simp] theorem irqEdge_cxl_aer (s : State) (p) (x) : (irqEdge p x s).cxl.aer = s.cxl.aer := (irqEdge_reported [] p x s).1.cxl_aer
@[simp] theorem irqEdge_cxl_uncommitting (s : State) (p) (x) : (irqEdge p x s).cxl.uncommitting = s.cxl.uncommitting := (irqEdge_reported [] p x s).1.cxl_uncommitting
@[simp] theorem irqEdge_fc_queue (s : State) (p) (x) : (irqEdge p x s).fc.queue = s.fc.queue := (irqEdge_reported [] p x s).1.fc_queue
@[simp] theorem irqEdge_fc_recNo (s : State) (p) (x) : (irqEdge p x s).fc.recNo = s.fc.recNo := (irqEdge_reported [] p x s).1.fc_recNo
@[simp] theorem irqEdge_fc_safe (s : State) (p) (x) : (irqEdge p x s).fc.safe = s.fc.safe := (irqEdge_reported [] p x s).1.fc_safe
@[simp] theorem irqEdge_fc_aliveStopped (s : State) (p) (x) : (irqEdge p x s).fc.aliveStopped = s.fc.aliveStopped := (irqEdge_reported [] p x s).1.fc_aliveStopped
@[simp] theorem irqEdge_fc_aliveRb (s : State) (p) (x) : (irqEdge p x s).fc.aliveRb = s.fc.aliveRb := (irqEdge_reported [] p x s).1.fc_aliveRb
@[simp] theorem irqEdge_fc_wdogSet (s : State) (p) (x) : (irqEdge p x s).fc.wdogSet = s.fc.wdogSet := (irqEdge_reported [] p x s).1.fc_wdogSet
@[simp] theorem irqEdge_fc_episodes (s : State) (p) (x) : (irqEdge p x s).fc.episodes = s.fc.episodes := (irqEdge_reported [] p x s).1.fc_episodes
@[simp] theorem irqEdge_fc_portsToFence (s : State) (p) (x) : (irqEdge p x s).fc.portsToFence = s.fc.portsToFence := (irqEdge_reported [] p x s).1.fc_portsToFence
@[simp] theorem irqEdge_fc_abortIds (s : State) (p) (x) : (irqEdge p x s).fc.abortIds = s.fc.abortIds := (irqEdge_reported [] p x s).1.fc_abortIds
@[simp] theorem irqEdge_lb_ring (s : State) (p) (x) : (irqEdge p x s).lb.ring = s.lb.ring := (irqEdge_reported [] p x s).1.lb_ring
@[simp] theorem irqEdge_lb_head (s : State) (p) (x) : (irqEdge p x s).lb.head = s.lb.head := (irqEdge_reported [] p x s).1.lb_head
@[simp] theorem irqEdge_lb_wrapped (s : State) (p) (x) : (irqEdge p x s).lb.wrapped = s.lb.wrapped := (irqEdge_reported [] p x s).1.lb_wrapped
@[simp] theorem irqEdge_lb_fresh (s : State) (p) (x) : (irqEdge p x s).lb.fresh = s.lb.fresh := (irqEdge_reported [] p x s).1.lb_fresh
@[simp] theorem irqEdge_lb_snap (s : State) (p) (x) : (irqEdge p x s).lb.snap = s.lb.snap := (irqEdge_reported [] p x s).1.lb_snap
@[simp] theorem irqEdge_lb_hostWaits (s : State) (p) (x) : (irqEdge p x s).lb.hostWaits = s.lb.hostWaits := (irqEdge_reported [] p x s).1.lb_hostWaits
@[simp] theorem irqEdge_lb_fatalWaits (s : State) (p) (x) : (irqEdge p x s).lb.fatalWaits = s.lb.fatalWaits := (irqEdge_reported [] p x s).1.lb_fatalWaits
@[simp] theorem irqEdge_lb_followUp (s : State) (p) (x) : (irqEdge p x s).lb.followUp = s.lb.followUp := (irqEdge_reported [] p x s).1.lb_followUp
@[simp] theorem irqEdge_lb_slots (s : State) (p) (x) : (irqEdge p x s).lb.slots = s.lb.slots := (irqEdge_reported [] p x s).1.lb_slots
@[simp] theorem irqEdge_lb_newest (s : State) (p) (x) : (irqEdge p x s).lb.newest = s.lb.newest := (irqEdge_reported [] p x s).1.lb_newest

@[simp] theorem raiseInt_pending (s : State) (p) (b) : (raiseInt s p b).pending = s.pending := (raiseInt_reported (ps := [p]) s b (by simp)).1.pending
@[simp] theorem raiseInt_staged (s : State) (p) (b) : (raiseInt s p b).staged = s.staged := (raiseInt_reported (ps := [p]) s b (by simp)).1.staged
@[simp] theorem raiseInt_captured (s : State) (p) (b) : (raiseInt s p b).captured = s.captured := (raiseInt_reported (ps := [p]) s b (by simp)).1.captured
@[simp] theorem raiseInt_tide (s : State) (p) (b) : (raiseInt s p b).tide = s.tide := (raiseInt_reported (ps := [p]) s b (by simp)).1.tide
@[simp] theorem raiseInt_cores (s : State) (p) (b) : (raiseInt s p b).cores = s.cores := (raiseInt_reported (ps := [p]) s b (by simp)).1.cores
@[simp] theorem raiseInt_mesh (s : State) (p) (b) : (raiseInt s p b).mesh = s.mesh := (raiseInt_reported (ps := [p]) s b (by simp)).1.mesh
@[simp] theorem raiseInt_fares (s : State) (p) (b) : (raiseInt s p b).fares = s.fares := (raiseInt_reported (ps := [p]) s b (by simp)).1.fares
@[simp] theorem raiseInt_locks (s : State) (p) (b) : (raiseInt s p b).locks = s.locks := (raiseInt_reported (ps := [p]) s b (by simp)).1.locks
@[simp] theorem raiseInt_sdChanged (s : State) (p) (b) : (raiseInt s p b).sdChanged = s.sdChanged := (raiseInt_reported (ps := [p]) s b (by simp)).1.sdChanged
@[simp] theorem raiseInt_sdArmed (s : State) (p) (b) : (raiseInt s p b).sdArmed = s.sdArmed := (raiseInt_reported (ps := [p]) s b (by simp)).1.sdArmed
@[simp] theorem raiseInt_clusters (s : State) (p) (b) : (raiseInt s p b).clusters = s.clusters := (raiseInt_reported (ps := [p]) s b (by simp)).1.clusters
@[simp] theorem raiseInt_mailboxes (s : State) (p) (b) : (raiseInt s p b).mailboxes = s.mailboxes := (raiseInt_reported (ps := [p]) s b (by simp)).1.mailboxes
@[simp] theorem raiseInt_bar4 (s : State) (p) (b) : (raiseInt s p b).bar4 = s.bar4 := (raiseInt_reported (ps := [p]) s b (by simp)).1.bar4
@[simp] theorem raiseInt_xb (s : State) (p) (b) : (raiseInt s p b).xb = s.xb := (raiseInt_reported (ps := [p]) s b (by simp)).1.xb
@[simp] theorem raiseInt_ctxs (s : State) (p) (b) : (raiseInt s p b).ctxs = s.ctxs := (raiseInt_reported (ps := [p]) s b (by simp)).1.ctxs
@[simp] theorem raiseInt_drains (s : State) (p) (b) : (raiseInt s p b).drains = s.drains := (raiseInt_reported (ps := [p]) s b (by simp)).1.drains
@[simp] theorem raiseInt_dm (s : State) (p) (b) : (raiseInt s p b).dm = s.dm := (raiseInt_reported (ps := [p]) s b (by simp)).1.dm
@[simp] theorem raiseInt_poison (s : State) (p) (b) : (raiseInt s p b).poison = s.poison := (raiseInt_reported (ps := [p]) s b (by simp)).1.poison
@[simp] theorem raiseInt_slices (s : State) (p) (b) : (raiseInt s p b).slices = s.slices := (raiseInt_reported (ps := [p]) s b (by simp)).1.slices
@[simp] theorem raiseInt_lw (s : State) (p) (b) : (raiseInt s p b).lw = s.lw := (raiseInt_reported (ps := [p]) s b (by simp)).1.lw
@[simp] theorem raiseInt_frz (s : State) (p) (b) : (raiseInt s p b).frz = s.frz := (raiseInt_reported (ps := [p]) s b (by simp)).1.frz
@[simp] theorem raiseInt_ports (s : State) (p) (b) : (raiseInt s p b).ports = s.ports := (raiseInt_reported (ps := [p]) s b (by simp)).1.ports
@[simp] theorem raiseInt_eqs (s : State) (p) (b) : (raiseInt s p b).eqs = s.eqs := (raiseInt_reported (ps := [p]) s b (by simp)).1.eqs
@[simp] theorem raiseInt_scrubs (s : State) (p) (b) : (raiseInt s p b).scrubs = s.scrubs := (raiseInt_reported (ps := [p]) s b (by simp)).1.scrubs
@[simp] theorem raiseInt_pl (s : State) (p) (b) : (raiseInt s p b).pl = s.pl := (raiseInt_reported (ps := [p]) s b (by simp)).1.pl
@[simp] theorem raiseInt_gp (s : State) (p) (b) : (raiseInt s p b).gp = s.gp := (raiseInt_reported (ps := [p]) s b (by simp)).1.gp
@[simp] theorem raiseInt_mod (s : State) (p) (b) : (raiseInt s p b).mod = s.mod := (raiseInt_reported (ps := [p]) s b (by simp)).1.mod
@[simp] theorem raiseInt_boot (s : State) (p) (b) : (raiseInt s p b).boot = s.boot := (raiseInt_reported (ps := [p]) s b (by simp)).1.boot
@[simp] theorem raiseInt_cxl_memSpace (s : State) (p) (b) : (raiseInt s p b).cxl.memSpace = s.cxl.memSpace := (raiseInt_reported (ps := [p]) s b (by simp)).1.cxl_memSpace
@[simp] theorem raiseInt_cxl_busMaster (s : State) (p) (b) : (raiseInt s p b).cxl.busMaster = s.cxl.busMaster := (raiseInt_reported (ps := [p]) s b (by simp)).1.cxl_busMaster
@[simp] theorem raiseInt_cxl_parityResp (s : State) (p) (b) : (raiseInt s p b).cxl.parityResp = s.cxl.parityResp := (raiseInt_reported (ps := [p]) s b (by simp)).1.cxl_parityResp
@[simp] theorem raiseInt_cxl_serr (s : State) (p) (b) : (raiseInt s p b).cxl.serr = s.cxl.serr := (raiseInt_reported (ps := [p]) s b (by simp)).1.cxl_serr
@[simp] theorem raiseInt_cxl_intDisable (s : State) (p) (b) : (raiseInt s p b).cxl.intDisable = s.cxl.intDisable := (raiseInt_reported (ps := [p]) s b (by simp)).1.cxl_intDisable
@[simp] theorem raiseInt_cxl_msixEn (s : State) (p) (b) : (raiseInt s p b).cxl.msixEn = s.cxl.msixEn := (raiseInt_reported (ps := [p]) s b (by simp)).1.cxl_msixEn
@[simp] theorem raiseInt_cxl_funcMask (s : State) (p) (b) : (raiseInt s p b).cxl.funcMask = s.cxl.funcMask := (raiseInt_reported (ps := [p]) s b (by simp)).1.cxl_funcMask
@[simp] theorem raiseInt_cxl_relaxEn (s : State) (p) (b) : (raiseInt s p b).cxl.relaxEn = s.cxl.relaxEn := (raiseInt_reported (ps := [p]) s b (by simp)).1.cxl_relaxEn
@[simp] theorem raiseInt_cxl_l1En (s : State) (p) (b) : (raiseInt s p b).cxl.l1En = s.cxl.l1En := (raiseInt_reported (ps := [p]) s b (by simp)).1.cxl_l1En
@[simp] theorem raiseInt_cxl_cacheEn (s : State) (p) (b) : (raiseInt s p b).cxl.cacheEn = s.cxl.cacheEn := (raiseInt_reported (ps := [p]) s b (by simp)).1.cxl_cacheEn
@[simp] theorem raiseInt_cxl_memEn (s : State) (p) (b) : (raiseInt s p b).cxl.memEn = s.cxl.memEn := (raiseInt_reported (ps := [p]) s b (by simp)).1.cxl_memEn
@[simp] theorem raiseInt_cxl_disCache (s : State) (p) (b) : (raiseInt s p b).cxl.disCache = s.cxl.disCache := (raiseInt_reported (ps := [p]) s b (by simp)).1.cxl_disCache
@[simp] theorem raiseInt_cxl_cacheInvalid (s : State) (p) (b) : (raiseInt s p b).cxl.cacheInvalid = s.cxl.cacheInvalid := (raiseInt_reported (ps := [p]) s b (by simp)).1.cxl_cacheInvalid
@[simp] theorem raiseInt_cxl_wbWaiting (s : State) (p) (b) : (raiseInt s p b).cxl.wbWaiting = s.cxl.wbWaiting := (raiseInt_reported (ps := [p]) s b (by simp)).1.cxl_wbWaiting
@[simp] theorem raiseInt_cxl_intLine (s : State) (p) (b) : (raiseInt s p b).cxl.intLine = s.cxl.intLine := (raiseInt_reported (ps := [p]) s b (by simp)).1.cxl_intLine
@[simp] theorem raiseInt_cxl_bars (s : State) (p) (b) : (raiseInt s p b).cxl.bars = s.cxl.bars := (raiseInt_reported (ps := [p]) s b (by simp)).1.cxl_bars
@[simp] theorem raiseInt_cxl_subsystem (s : State) (p) (b) : (raiseInt s p b).cxl.subsystem = s.cxl.subsystem := (raiseInt_reported (ps := [p]) s b (by simp)).1.cxl_subsystem
@[simp] theorem raiseInt_cxl_d3hot (s : State) (p) (b) : (raiseInt s p b).cxl.d3hot = s.cxl.d3hot := (raiseInt_reported (ps := [p]) s b (by simp)).1.cxl_d3hot
@[simp] theorem raiseInt_cxl_ctoVal (s : State) (p) (b) : (raiseInt s p b).cxl.ctoVal = s.cxl.ctoVal := (raiseInt_reported (ps := [p]) s b (by simp)).1.cxl_ctoVal
@[simp] theorem raiseInt_cxl_ctoDis (s : State) (p) (b) : (raiseInt s p b).cxl.ctoDis = s.cxl.ctoDis := (raiseInt_reported (ps := [p]) s b (by simp)).1.cxl_ctoDis
@[simp] theorem raiseInt_cxl_link (s : State) (p) (b) : (raiseInt s p b).cxl.link = s.cxl.link := (raiseInt_reported (ps := [p]) s b (by simp)).1.cxl_link
@[simp] theorem raiseInt_cxl_l0pOk (s : State) (p) (b) : (raiseInt s p b).cxl.l0pOk = s.cxl.l0pOk := (raiseInt_reported (ps := [p]) s b (by simp)).1.cxl_l0pOk
@[simp] theorem raiseInt_cxl_d2h (s : State) (p) (b) : (raiseInt s p b).cxl.d2h = s.cxl.d2h := (raiseInt_reported (ps := [p]) s b (by simp)).1.cxl_d2h
@[simp] theorem raiseInt_cxl_wq (s : State) (p) (b) : (raiseInt s p b).cxl.wq = s.cxl.wq := (raiseInt_reported (ps := [p]) s b (by simp)).1.cxl_wq
@[simp] theorem raiseInt_cxl_inbound (s : State) (p) (b) : (raiseInt s p b).cxl.inbound = s.cxl.inbound := (raiseInt_reported (ps := [p]) s b (by simp)).1.cxl_inbound
@[simp] theorem raiseInt_cxl_flr (s : State) (p) (b) : (raiseInt s p b).cxl.flr = s.cxl.flr := (raiseInt_reported (ps := [p]) s b (by simp)).1.cxl_flr
@[simp] theorem raiseInt_cxl_aer (s : State) (p) (b) : (raiseInt s p b).cxl.aer = s.cxl.aer := (raiseInt_reported (ps := [p]) s b (by simp)).1.cxl_aer
@[simp] theorem raiseInt_cxl_uncommitting (s : State) (p) (b) : (raiseInt s p b).cxl.uncommitting = s.cxl.uncommitting := (raiseInt_reported (ps := [p]) s b (by simp)).1.cxl_uncommitting
@[simp] theorem raiseInt_fc_queue (s : State) (p) (b) : (raiseInt s p b).fc.queue = s.fc.queue := (raiseInt_reported (ps := [p]) s b (by simp)).1.fc_queue
@[simp] theorem raiseInt_fc_recNo (s : State) (p) (b) : (raiseInt s p b).fc.recNo = s.fc.recNo := (raiseInt_reported (ps := [p]) s b (by simp)).1.fc_recNo
@[simp] theorem raiseInt_fc_safe (s : State) (p) (b) : (raiseInt s p b).fc.safe = s.fc.safe := (raiseInt_reported (ps := [p]) s b (by simp)).1.fc_safe
@[simp] theorem raiseInt_fc_aliveStopped (s : State) (p) (b) : (raiseInt s p b).fc.aliveStopped = s.fc.aliveStopped := (raiseInt_reported (ps := [p]) s b (by simp)).1.fc_aliveStopped
@[simp] theorem raiseInt_fc_aliveRb (s : State) (p) (b) : (raiseInt s p b).fc.aliveRb = s.fc.aliveRb := (raiseInt_reported (ps := [p]) s b (by simp)).1.fc_aliveRb
@[simp] theorem raiseInt_fc_wdogSet (s : State) (p) (b) : (raiseInt s p b).fc.wdogSet = s.fc.wdogSet := (raiseInt_reported (ps := [p]) s b (by simp)).1.fc_wdogSet
@[simp] theorem raiseInt_fc_episodes (s : State) (p) (b) : (raiseInt s p b).fc.episodes = s.fc.episodes := (raiseInt_reported (ps := [p]) s b (by simp)).1.fc_episodes
@[simp] theorem raiseInt_fc_portsToFence (s : State) (p) (b) : (raiseInt s p b).fc.portsToFence = s.fc.portsToFence := (raiseInt_reported (ps := [p]) s b (by simp)).1.fc_portsToFence
@[simp] theorem raiseInt_fc_abortIds (s : State) (p) (b) : (raiseInt s p b).fc.abortIds = s.fc.abortIds := (raiseInt_reported (ps := [p]) s b (by simp)).1.fc_abortIds
@[simp] theorem raiseInt_lb_ring (s : State) (p) (b) : (raiseInt s p b).lb.ring = s.lb.ring := (raiseInt_reported (ps := [p]) s b (by simp)).1.lb_ring
@[simp] theorem raiseInt_lb_head (s : State) (p) (b) : (raiseInt s p b).lb.head = s.lb.head := (raiseInt_reported (ps := [p]) s b (by simp)).1.lb_head
@[simp] theorem raiseInt_lb_wrapped (s : State) (p) (b) : (raiseInt s p b).lb.wrapped = s.lb.wrapped := (raiseInt_reported (ps := [p]) s b (by simp)).1.lb_wrapped
@[simp] theorem raiseInt_lb_fresh (s : State) (p) (b) : (raiseInt s p b).lb.fresh = s.lb.fresh := (raiseInt_reported (ps := [p]) s b (by simp)).1.lb_fresh
@[simp] theorem raiseInt_lb_snap (s : State) (p) (b) : (raiseInt s p b).lb.snap = s.lb.snap := (raiseInt_reported (ps := [p]) s b (by simp)).1.lb_snap
@[simp] theorem raiseInt_lb_hostWaits (s : State) (p) (b) : (raiseInt s p b).lb.hostWaits = s.lb.hostWaits := (raiseInt_reported (ps := [p]) s b (by simp)).1.lb_hostWaits
@[simp] theorem raiseInt_lb_fatalWaits (s : State) (p) (b) : (raiseInt s p b).lb.fatalWaits = s.lb.fatalWaits := (raiseInt_reported (ps := [p]) s b (by simp)).1.lb_fatalWaits
@[simp] theorem raiseInt_lb_followUp (s : State) (p) (b) : (raiseInt s p b).lb.followUp = s.lb.followUp := (raiseInt_reported (ps := [p]) s b (by simp)).1.lb_followUp
@[simp] theorem raiseInt_lb_slots (s : State) (p) (b) : (raiseInt s p b).lb.slots = s.lb.slots := (raiseInt_reported (ps := [p]) s b (by simp)).1.lb_slots
@[simp] theorem raiseInt_lb_newest (s : State) (p) (b) : (raiseInt s p b).lb.newest = s.lb.newest := (raiseInt_reported (ps := [p]) s b (by simp)).1.lb_newest

@[simp] theorem pageErr_pending (s : State) (p) (m) (o) : (pageErr s p m o).pending = s.pending := (pageErr_reported (ps := [p]) s m o (by simp)).1.pending
@[simp] theorem pageErr_staged (s : State) (p) (m) (o) : (pageErr s p m o).staged = s.staged := (pageErr_reported (ps := [p]) s m o (by simp)).1.staged
@[simp] theorem pageErr_captured (s : State) (p) (m) (o) : (pageErr s p m o).captured = s.captured := (pageErr_reported (ps := [p]) s m o (by simp)).1.captured
@[simp] theorem pageErr_tide (s : State) (p) (m) (o) : (pageErr s p m o).tide = s.tide := (pageErr_reported (ps := [p]) s m o (by simp)).1.tide
@[simp] theorem pageErr_cores (s : State) (p) (m) (o) : (pageErr s p m o).cores = s.cores := (pageErr_reported (ps := [p]) s m o (by simp)).1.cores
@[simp] theorem pageErr_mesh (s : State) (p) (m) (o) : (pageErr s p m o).mesh = s.mesh := (pageErr_reported (ps := [p]) s m o (by simp)).1.mesh
@[simp] theorem pageErr_fares (s : State) (p) (m) (o) : (pageErr s p m o).fares = s.fares := (pageErr_reported (ps := [p]) s m o (by simp)).1.fares
@[simp] theorem pageErr_locks (s : State) (p) (m) (o) : (pageErr s p m o).locks = s.locks := (pageErr_reported (ps := [p]) s m o (by simp)).1.locks
@[simp] theorem pageErr_sdChanged (s : State) (p) (m) (o) : (pageErr s p m o).sdChanged = s.sdChanged := (pageErr_reported (ps := [p]) s m o (by simp)).1.sdChanged
@[simp] theorem pageErr_sdArmed (s : State) (p) (m) (o) : (pageErr s p m o).sdArmed = s.sdArmed := (pageErr_reported (ps := [p]) s m o (by simp)).1.sdArmed
@[simp] theorem pageErr_clusters (s : State) (p) (m) (o) : (pageErr s p m o).clusters = s.clusters := (pageErr_reported (ps := [p]) s m o (by simp)).1.clusters
@[simp] theorem pageErr_mailboxes (s : State) (p) (m) (o) : (pageErr s p m o).mailboxes = s.mailboxes := (pageErr_reported (ps := [p]) s m o (by simp)).1.mailboxes
@[simp] theorem pageErr_bar4 (s : State) (p) (m) (o) : (pageErr s p m o).bar4 = s.bar4 := (pageErr_reported (ps := [p]) s m o (by simp)).1.bar4
@[simp] theorem pageErr_xb (s : State) (p) (m) (o) : (pageErr s p m o).xb = s.xb := (pageErr_reported (ps := [p]) s m o (by simp)).1.xb
@[simp] theorem pageErr_ctxs (s : State) (p) (m) (o) : (pageErr s p m o).ctxs = s.ctxs := (pageErr_reported (ps := [p]) s m o (by simp)).1.ctxs
@[simp] theorem pageErr_drains (s : State) (p) (m) (o) : (pageErr s p m o).drains = s.drains := (pageErr_reported (ps := [p]) s m o (by simp)).1.drains
@[simp] theorem pageErr_dm (s : State) (p) (m) (o) : (pageErr s p m o).dm = s.dm := (pageErr_reported (ps := [p]) s m o (by simp)).1.dm
@[simp] theorem pageErr_poison (s : State) (p) (m) (o) : (pageErr s p m o).poison = s.poison := (pageErr_reported (ps := [p]) s m o (by simp)).1.poison
@[simp] theorem pageErr_slices (s : State) (p) (m) (o) : (pageErr s p m o).slices = s.slices := (pageErr_reported (ps := [p]) s m o (by simp)).1.slices
@[simp] theorem pageErr_lw (s : State) (p) (m) (o) : (pageErr s p m o).lw = s.lw := (pageErr_reported (ps := [p]) s m o (by simp)).1.lw
@[simp] theorem pageErr_frz (s : State) (p) (m) (o) : (pageErr s p m o).frz = s.frz := (pageErr_reported (ps := [p]) s m o (by simp)).1.frz
@[simp] theorem pageErr_ports (s : State) (p) (m) (o) : (pageErr s p m o).ports = s.ports := (pageErr_reported (ps := [p]) s m o (by simp)).1.ports
@[simp] theorem pageErr_eqs (s : State) (p) (m) (o) : (pageErr s p m o).eqs = s.eqs := (pageErr_reported (ps := [p]) s m o (by simp)).1.eqs
@[simp] theorem pageErr_scrubs (s : State) (p) (m) (o) : (pageErr s p m o).scrubs = s.scrubs := (pageErr_reported (ps := [p]) s m o (by simp)).1.scrubs
@[simp] theorem pageErr_pl (s : State) (p) (m) (o) : (pageErr s p m o).pl = s.pl := (pageErr_reported (ps := [p]) s m o (by simp)).1.pl
@[simp] theorem pageErr_gp (s : State) (p) (m) (o) : (pageErr s p m o).gp = s.gp := (pageErr_reported (ps := [p]) s m o (by simp)).1.gp
@[simp] theorem pageErr_mod (s : State) (p) (m) (o) : (pageErr s p m o).mod = s.mod := (pageErr_reported (ps := [p]) s m o (by simp)).1.mod
@[simp] theorem pageErr_boot (s : State) (p) (m) (o) : (pageErr s p m o).boot = s.boot := (pageErr_reported (ps := [p]) s m o (by simp)).1.boot
@[simp] theorem pageErr_cxl_memSpace (s : State) (p) (m) (o) : (pageErr s p m o).cxl.memSpace = s.cxl.memSpace := (pageErr_reported (ps := [p]) s m o (by simp)).1.cxl_memSpace
@[simp] theorem pageErr_cxl_busMaster (s : State) (p) (m) (o) : (pageErr s p m o).cxl.busMaster = s.cxl.busMaster := (pageErr_reported (ps := [p]) s m o (by simp)).1.cxl_busMaster
@[simp] theorem pageErr_cxl_parityResp (s : State) (p) (m) (o) : (pageErr s p m o).cxl.parityResp = s.cxl.parityResp := (pageErr_reported (ps := [p]) s m o (by simp)).1.cxl_parityResp
@[simp] theorem pageErr_cxl_serr (s : State) (p) (m) (o) : (pageErr s p m o).cxl.serr = s.cxl.serr := (pageErr_reported (ps := [p]) s m o (by simp)).1.cxl_serr
@[simp] theorem pageErr_cxl_intDisable (s : State) (p) (m) (o) : (pageErr s p m o).cxl.intDisable = s.cxl.intDisable := (pageErr_reported (ps := [p]) s m o (by simp)).1.cxl_intDisable
@[simp] theorem pageErr_cxl_msixEn (s : State) (p) (m) (o) : (pageErr s p m o).cxl.msixEn = s.cxl.msixEn := (pageErr_reported (ps := [p]) s m o (by simp)).1.cxl_msixEn
@[simp] theorem pageErr_cxl_funcMask (s : State) (p) (m) (o) : (pageErr s p m o).cxl.funcMask = s.cxl.funcMask := (pageErr_reported (ps := [p]) s m o (by simp)).1.cxl_funcMask
@[simp] theorem pageErr_cxl_relaxEn (s : State) (p) (m) (o) : (pageErr s p m o).cxl.relaxEn = s.cxl.relaxEn := (pageErr_reported (ps := [p]) s m o (by simp)).1.cxl_relaxEn
@[simp] theorem pageErr_cxl_l1En (s : State) (p) (m) (o) : (pageErr s p m o).cxl.l1En = s.cxl.l1En := (pageErr_reported (ps := [p]) s m o (by simp)).1.cxl_l1En
@[simp] theorem pageErr_cxl_cacheEn (s : State) (p) (m) (o) : (pageErr s p m o).cxl.cacheEn = s.cxl.cacheEn := (pageErr_reported (ps := [p]) s m o (by simp)).1.cxl_cacheEn
@[simp] theorem pageErr_cxl_memEn (s : State) (p) (m) (o) : (pageErr s p m o).cxl.memEn = s.cxl.memEn := (pageErr_reported (ps := [p]) s m o (by simp)).1.cxl_memEn
@[simp] theorem pageErr_cxl_disCache (s : State) (p) (m) (o) : (pageErr s p m o).cxl.disCache = s.cxl.disCache := (pageErr_reported (ps := [p]) s m o (by simp)).1.cxl_disCache
@[simp] theorem pageErr_cxl_cacheInvalid (s : State) (p) (m) (o) : (pageErr s p m o).cxl.cacheInvalid = s.cxl.cacheInvalid := (pageErr_reported (ps := [p]) s m o (by simp)).1.cxl_cacheInvalid
@[simp] theorem pageErr_cxl_wbWaiting (s : State) (p) (m) (o) : (pageErr s p m o).cxl.wbWaiting = s.cxl.wbWaiting := (pageErr_reported (ps := [p]) s m o (by simp)).1.cxl_wbWaiting
@[simp] theorem pageErr_cxl_intLine (s : State) (p) (m) (o) : (pageErr s p m o).cxl.intLine = s.cxl.intLine := (pageErr_reported (ps := [p]) s m o (by simp)).1.cxl_intLine
@[simp] theorem pageErr_cxl_bars (s : State) (p) (m) (o) : (pageErr s p m o).cxl.bars = s.cxl.bars := (pageErr_reported (ps := [p]) s m o (by simp)).1.cxl_bars
@[simp] theorem pageErr_cxl_subsystem (s : State) (p) (m) (o) : (pageErr s p m o).cxl.subsystem = s.cxl.subsystem := (pageErr_reported (ps := [p]) s m o (by simp)).1.cxl_subsystem
@[simp] theorem pageErr_cxl_d3hot (s : State) (p) (m) (o) : (pageErr s p m o).cxl.d3hot = s.cxl.d3hot := (pageErr_reported (ps := [p]) s m o (by simp)).1.cxl_d3hot
@[simp] theorem pageErr_cxl_ctoVal (s : State) (p) (m) (o) : (pageErr s p m o).cxl.ctoVal = s.cxl.ctoVal := (pageErr_reported (ps := [p]) s m o (by simp)).1.cxl_ctoVal
@[simp] theorem pageErr_cxl_ctoDis (s : State) (p) (m) (o) : (pageErr s p m o).cxl.ctoDis = s.cxl.ctoDis := (pageErr_reported (ps := [p]) s m o (by simp)).1.cxl_ctoDis
@[simp] theorem pageErr_cxl_link (s : State) (p) (m) (o) : (pageErr s p m o).cxl.link = s.cxl.link := (pageErr_reported (ps := [p]) s m o (by simp)).1.cxl_link
@[simp] theorem pageErr_cxl_l0pOk (s : State) (p) (m) (o) : (pageErr s p m o).cxl.l0pOk = s.cxl.l0pOk := (pageErr_reported (ps := [p]) s m o (by simp)).1.cxl_l0pOk
@[simp] theorem pageErr_cxl_d2h (s : State) (p) (m) (o) : (pageErr s p m o).cxl.d2h = s.cxl.d2h := (pageErr_reported (ps := [p]) s m o (by simp)).1.cxl_d2h
@[simp] theorem pageErr_cxl_wq (s : State) (p) (m) (o) : (pageErr s p m o).cxl.wq = s.cxl.wq := (pageErr_reported (ps := [p]) s m o (by simp)).1.cxl_wq
@[simp] theorem pageErr_cxl_inbound (s : State) (p) (m) (o) : (pageErr s p m o).cxl.inbound = s.cxl.inbound := (pageErr_reported (ps := [p]) s m o (by simp)).1.cxl_inbound
@[simp] theorem pageErr_cxl_flr (s : State) (p) (m) (o) : (pageErr s p m o).cxl.flr = s.cxl.flr := (pageErr_reported (ps := [p]) s m o (by simp)).1.cxl_flr
@[simp] theorem pageErr_cxl_aer (s : State) (p) (m) (o) : (pageErr s p m o).cxl.aer = s.cxl.aer := (pageErr_reported (ps := [p]) s m o (by simp)).1.cxl_aer
@[simp] theorem pageErr_cxl_uncommitting (s : State) (p) (m) (o) : (pageErr s p m o).cxl.uncommitting = s.cxl.uncommitting := (pageErr_reported (ps := [p]) s m o (by simp)).1.cxl_uncommitting
@[simp] theorem pageErr_fc_queue (s : State) (p) (m) (o) : (pageErr s p m o).fc.queue = s.fc.queue := (pageErr_reported (ps := [p]) s m o (by simp)).1.fc_queue
@[simp] theorem pageErr_fc_recNo (s : State) (p) (m) (o) : (pageErr s p m o).fc.recNo = s.fc.recNo := (pageErr_reported (ps := [p]) s m o (by simp)).1.fc_recNo
@[simp] theorem pageErr_fc_safe (s : State) (p) (m) (o) : (pageErr s p m o).fc.safe = s.fc.safe := (pageErr_reported (ps := [p]) s m o (by simp)).1.fc_safe
@[simp] theorem pageErr_fc_aliveStopped (s : State) (p) (m) (o) : (pageErr s p m o).fc.aliveStopped = s.fc.aliveStopped := (pageErr_reported (ps := [p]) s m o (by simp)).1.fc_aliveStopped
@[simp] theorem pageErr_fc_aliveRb (s : State) (p) (m) (o) : (pageErr s p m o).fc.aliveRb = s.fc.aliveRb := (pageErr_reported (ps := [p]) s m o (by simp)).1.fc_aliveRb
@[simp] theorem pageErr_fc_wdogSet (s : State) (p) (m) (o) : (pageErr s p m o).fc.wdogSet = s.fc.wdogSet := (pageErr_reported (ps := [p]) s m o (by simp)).1.fc_wdogSet
@[simp] theorem pageErr_fc_episodes (s : State) (p) (m) (o) : (pageErr s p m o).fc.episodes = s.fc.episodes := (pageErr_reported (ps := [p]) s m o (by simp)).1.fc_episodes
@[simp] theorem pageErr_fc_portsToFence (s : State) (p) (m) (o) : (pageErr s p m o).fc.portsToFence = s.fc.portsToFence := (pageErr_reported (ps := [p]) s m o (by simp)).1.fc_portsToFence
@[simp] theorem pageErr_fc_abortIds (s : State) (p) (m) (o) : (pageErr s p m o).fc.abortIds = s.fc.abortIds := (pageErr_reported (ps := [p]) s m o (by simp)).1.fc_abortIds
@[simp] theorem pageErr_lb_ring (s : State) (p) (m) (o) : (pageErr s p m o).lb.ring = s.lb.ring := (pageErr_reported (ps := [p]) s m o (by simp)).1.lb_ring
@[simp] theorem pageErr_lb_head (s : State) (p) (m) (o) : (pageErr s p m o).lb.head = s.lb.head := (pageErr_reported (ps := [p]) s m o (by simp)).1.lb_head
@[simp] theorem pageErr_lb_wrapped (s : State) (p) (m) (o) : (pageErr s p m o).lb.wrapped = s.lb.wrapped := (pageErr_reported (ps := [p]) s m o (by simp)).1.lb_wrapped
@[simp] theorem pageErr_lb_fresh (s : State) (p) (m) (o) : (pageErr s p m o).lb.fresh = s.lb.fresh := (pageErr_reported (ps := [p]) s m o (by simp)).1.lb_fresh
@[simp] theorem pageErr_lb_snap (s : State) (p) (m) (o) : (pageErr s p m o).lb.snap = s.lb.snap := (pageErr_reported (ps := [p]) s m o (by simp)).1.lb_snap
@[simp] theorem pageErr_lb_hostWaits (s : State) (p) (m) (o) : (pageErr s p m o).lb.hostWaits = s.lb.hostWaits := (pageErr_reported (ps := [p]) s m o (by simp)).1.lb_hostWaits
@[simp] theorem pageErr_lb_fatalWaits (s : State) (p) (m) (o) : (pageErr s p m o).lb.fatalWaits = s.lb.fatalWaits := (pageErr_reported (ps := [p]) s m o (by simp)).1.lb_fatalWaits
@[simp] theorem pageErr_lb_followUp (s : State) (p) (m) (o) : (pageErr s p m o).lb.followUp = s.lb.followUp := (pageErr_reported (ps := [p]) s m o (by simp)).1.lb_followUp
@[simp] theorem pageErr_lb_slots (s : State) (p) (m) (o) : (pageErr s p m o).lb.slots = s.lb.slots := (pageErr_reported (ps := [p]) s m o (by simp)).1.lb_slots
@[simp] theorem pageErr_lb_newest (s : State) (p) (m) (o) : (pageErr s p m o).lb.newest = s.lb.newest := (pageErr_reported (ps := [p]) s m o (by simp)).1.lb_newest

@[simp] theorem offerEntry_pending (s : State) (e) : (offerEntry s e).pending = s.pending := (offerEntry_reported [] s e).1.pending
@[simp] theorem offerEntry_staged (s : State) (e) : (offerEntry s e).staged = s.staged := (offerEntry_reported [] s e).1.staged
@[simp] theorem offerEntry_captured (s : State) (e) : (offerEntry s e).captured = s.captured := (offerEntry_reported [] s e).1.captured
@[simp] theorem offerEntry_tide (s : State) (e) : (offerEntry s e).tide = s.tide := (offerEntry_reported [] s e).1.tide
@[simp] theorem offerEntry_cores (s : State) (e) : (offerEntry s e).cores = s.cores := (offerEntry_reported [] s e).1.cores
@[simp] theorem offerEntry_mesh (s : State) (e) : (offerEntry s e).mesh = s.mesh := (offerEntry_reported [] s e).1.mesh
@[simp] theorem offerEntry_fares (s : State) (e) : (offerEntry s e).fares = s.fares := (offerEntry_reported [] s e).1.fares
@[simp] theorem offerEntry_locks (s : State) (e) : (offerEntry s e).locks = s.locks := (offerEntry_reported [] s e).1.locks
@[simp] theorem offerEntry_sdChanged (s : State) (e) : (offerEntry s e).sdChanged = s.sdChanged := (offerEntry_reported [] s e).1.sdChanged
@[simp] theorem offerEntry_sdArmed (s : State) (e) : (offerEntry s e).sdArmed = s.sdArmed := (offerEntry_reported [] s e).1.sdArmed
@[simp] theorem offerEntry_clusters (s : State) (e) : (offerEntry s e).clusters = s.clusters := (offerEntry_reported [] s e).1.clusters
@[simp] theorem offerEntry_mailboxes (s : State) (e) : (offerEntry s e).mailboxes = s.mailboxes := (offerEntry_reported [] s e).1.mailboxes
@[simp] theorem offerEntry_bar4 (s : State) (e) : (offerEntry s e).bar4 = s.bar4 := (offerEntry_reported [] s e).1.bar4
@[simp] theorem offerEntry_xb (s : State) (e) : (offerEntry s e).xb = s.xb := (offerEntry_reported [] s e).1.xb
@[simp] theorem offerEntry_ctxs (s : State) (e) : (offerEntry s e).ctxs = s.ctxs := (offerEntry_reported [] s e).1.ctxs
@[simp] theorem offerEntry_drains (s : State) (e) : (offerEntry s e).drains = s.drains := (offerEntry_reported [] s e).1.drains
@[simp] theorem offerEntry_dm (s : State) (e) : (offerEntry s e).dm = s.dm := (offerEntry_reported [] s e).1.dm
@[simp] theorem offerEntry_poison (s : State) (e) : (offerEntry s e).poison = s.poison := (offerEntry_reported [] s e).1.poison
@[simp] theorem offerEntry_slices (s : State) (e) : (offerEntry s e).slices = s.slices := (offerEntry_reported [] s e).1.slices
@[simp] theorem offerEntry_lw (s : State) (e) : (offerEntry s e).lw = s.lw := (offerEntry_reported [] s e).1.lw
@[simp] theorem offerEntry_frz (s : State) (e) : (offerEntry s e).frz = s.frz := (offerEntry_reported [] s e).1.frz
@[simp] theorem offerEntry_ports (s : State) (e) : (offerEntry s e).ports = s.ports := (offerEntry_reported [] s e).1.ports
@[simp] theorem offerEntry_eqs (s : State) (e) : (offerEntry s e).eqs = s.eqs := (offerEntry_reported [] s e).1.eqs
@[simp] theorem offerEntry_scrubs (s : State) (e) : (offerEntry s e).scrubs = s.scrubs := (offerEntry_reported [] s e).1.scrubs
@[simp] theorem offerEntry_pl (s : State) (e) : (offerEntry s e).pl = s.pl := (offerEntry_reported [] s e).1.pl
@[simp] theorem offerEntry_gp (s : State) (e) : (offerEntry s e).gp = s.gp := (offerEntry_reported [] s e).1.gp
@[simp] theorem offerEntry_mod (s : State) (e) : (offerEntry s e).mod = s.mod := (offerEntry_reported [] s e).1.mod
@[simp] theorem offerEntry_boot (s : State) (e) : (offerEntry s e).boot = s.boot := (offerEntry_reported [] s e).1.boot
@[simp] theorem offerEntry_cxl_memSpace (s : State) (e) : (offerEntry s e).cxl.memSpace = s.cxl.memSpace := (offerEntry_reported [] s e).1.cxl_memSpace
@[simp] theorem offerEntry_cxl_busMaster (s : State) (e) : (offerEntry s e).cxl.busMaster = s.cxl.busMaster := (offerEntry_reported [] s e).1.cxl_busMaster
@[simp] theorem offerEntry_cxl_parityResp (s : State) (e) : (offerEntry s e).cxl.parityResp = s.cxl.parityResp := (offerEntry_reported [] s e).1.cxl_parityResp
@[simp] theorem offerEntry_cxl_serr (s : State) (e) : (offerEntry s e).cxl.serr = s.cxl.serr := (offerEntry_reported [] s e).1.cxl_serr
@[simp] theorem offerEntry_cxl_intDisable (s : State) (e) : (offerEntry s e).cxl.intDisable = s.cxl.intDisable := (offerEntry_reported [] s e).1.cxl_intDisable
@[simp] theorem offerEntry_cxl_msixEn (s : State) (e) : (offerEntry s e).cxl.msixEn = s.cxl.msixEn := (offerEntry_reported [] s e).1.cxl_msixEn
@[simp] theorem offerEntry_cxl_funcMask (s : State) (e) : (offerEntry s e).cxl.funcMask = s.cxl.funcMask := (offerEntry_reported [] s e).1.cxl_funcMask
@[simp] theorem offerEntry_cxl_relaxEn (s : State) (e) : (offerEntry s e).cxl.relaxEn = s.cxl.relaxEn := (offerEntry_reported [] s e).1.cxl_relaxEn
@[simp] theorem offerEntry_cxl_l1En (s : State) (e) : (offerEntry s e).cxl.l1En = s.cxl.l1En := (offerEntry_reported [] s e).1.cxl_l1En
@[simp] theorem offerEntry_cxl_cacheEn (s : State) (e) : (offerEntry s e).cxl.cacheEn = s.cxl.cacheEn := (offerEntry_reported [] s e).1.cxl_cacheEn
@[simp] theorem offerEntry_cxl_memEn (s : State) (e) : (offerEntry s e).cxl.memEn = s.cxl.memEn := (offerEntry_reported [] s e).1.cxl_memEn
@[simp] theorem offerEntry_cxl_disCache (s : State) (e) : (offerEntry s e).cxl.disCache = s.cxl.disCache := (offerEntry_reported [] s e).1.cxl_disCache
@[simp] theorem offerEntry_cxl_cacheInvalid (s : State) (e) : (offerEntry s e).cxl.cacheInvalid = s.cxl.cacheInvalid := (offerEntry_reported [] s e).1.cxl_cacheInvalid
@[simp] theorem offerEntry_cxl_wbWaiting (s : State) (e) : (offerEntry s e).cxl.wbWaiting = s.cxl.wbWaiting := (offerEntry_reported [] s e).1.cxl_wbWaiting
@[simp] theorem offerEntry_cxl_intLine (s : State) (e) : (offerEntry s e).cxl.intLine = s.cxl.intLine := (offerEntry_reported [] s e).1.cxl_intLine
@[simp] theorem offerEntry_cxl_bars (s : State) (e) : (offerEntry s e).cxl.bars = s.cxl.bars := (offerEntry_reported [] s e).1.cxl_bars
@[simp] theorem offerEntry_cxl_subsystem (s : State) (e) : (offerEntry s e).cxl.subsystem = s.cxl.subsystem := (offerEntry_reported [] s e).1.cxl_subsystem
@[simp] theorem offerEntry_cxl_d3hot (s : State) (e) : (offerEntry s e).cxl.d3hot = s.cxl.d3hot := (offerEntry_reported [] s e).1.cxl_d3hot
@[simp] theorem offerEntry_cxl_ctoVal (s : State) (e) : (offerEntry s e).cxl.ctoVal = s.cxl.ctoVal := (offerEntry_reported [] s e).1.cxl_ctoVal
@[simp] theorem offerEntry_cxl_ctoDis (s : State) (e) : (offerEntry s e).cxl.ctoDis = s.cxl.ctoDis := (offerEntry_reported [] s e).1.cxl_ctoDis
@[simp] theorem offerEntry_cxl_link (s : State) (e) : (offerEntry s e).cxl.link = s.cxl.link := (offerEntry_reported [] s e).1.cxl_link
@[simp] theorem offerEntry_cxl_l0pOk (s : State) (e) : (offerEntry s e).cxl.l0pOk = s.cxl.l0pOk := (offerEntry_reported [] s e).1.cxl_l0pOk
@[simp] theorem offerEntry_cxl_d2h (s : State) (e) : (offerEntry s e).cxl.d2h = s.cxl.d2h := (offerEntry_reported [] s e).1.cxl_d2h
@[simp] theorem offerEntry_cxl_wq (s : State) (e) : (offerEntry s e).cxl.wq = s.cxl.wq := (offerEntry_reported [] s e).1.cxl_wq
@[simp] theorem offerEntry_cxl_inbound (s : State) (e) : (offerEntry s e).cxl.inbound = s.cxl.inbound := (offerEntry_reported [] s e).1.cxl_inbound
@[simp] theorem offerEntry_cxl_flr (s : State) (e) : (offerEntry s e).cxl.flr = s.cxl.flr := (offerEntry_reported [] s e).1.cxl_flr
@[simp] theorem offerEntry_cxl_aer (s : State) (e) : (offerEntry s e).cxl.aer = s.cxl.aer := (offerEntry_reported [] s e).1.cxl_aer
@[simp] theorem offerEntry_cxl_uncommitting (s : State) (e) : (offerEntry s e).cxl.uncommitting = s.cxl.uncommitting := (offerEntry_reported [] s e).1.cxl_uncommitting
@[simp] theorem offerEntry_fc_queue (s : State) (e) : (offerEntry s e).fc.queue = s.fc.queue := (offerEntry_reported [] s e).1.fc_queue
@[simp] theorem offerEntry_fc_recNo (s : State) (e) : (offerEntry s e).fc.recNo = s.fc.recNo := (offerEntry_reported [] s e).1.fc_recNo
@[simp] theorem offerEntry_fc_safe (s : State) (e) : (offerEntry s e).fc.safe = s.fc.safe := (offerEntry_reported [] s e).1.fc_safe
@[simp] theorem offerEntry_fc_aliveStopped (s : State) (e) : (offerEntry s e).fc.aliveStopped = s.fc.aliveStopped := (offerEntry_reported [] s e).1.fc_aliveStopped
@[simp] theorem offerEntry_fc_aliveRb (s : State) (e) : (offerEntry s e).fc.aliveRb = s.fc.aliveRb := (offerEntry_reported [] s e).1.fc_aliveRb
@[simp] theorem offerEntry_fc_wdogSet (s : State) (e) : (offerEntry s e).fc.wdogSet = s.fc.wdogSet := (offerEntry_reported [] s e).1.fc_wdogSet
@[simp] theorem offerEntry_fc_episodes (s : State) (e) : (offerEntry s e).fc.episodes = s.fc.episodes := (offerEntry_reported [] s e).1.fc_episodes
@[simp] theorem offerEntry_fc_portsToFence (s : State) (e) : (offerEntry s e).fc.portsToFence = s.fc.portsToFence := (offerEntry_reported [] s e).1.fc_portsToFence
@[simp] theorem offerEntry_fc_abortIds (s : State) (e) : (offerEntry s e).fc.abortIds = s.fc.abortIds := (offerEntry_reported [] s e).1.fc_abortIds
@[simp] theorem offerEntry_lb_ring (s : State) (e) : (offerEntry s e).lb.ring = s.lb.ring := (offerEntry_reported [] s e).1.lb_ring
@[simp] theorem offerEntry_lb_head (s : State) (e) : (offerEntry s e).lb.head = s.lb.head := (offerEntry_reported [] s e).1.lb_head
@[simp] theorem offerEntry_lb_wrapped (s : State) (e) : (offerEntry s e).lb.wrapped = s.lb.wrapped := (offerEntry_reported [] s e).1.lb_wrapped
@[simp] theorem offerEntry_lb_fresh (s : State) (e) : (offerEntry s e).lb.fresh = s.lb.fresh := (offerEntry_reported [] s e).1.lb_fresh
@[simp] theorem offerEntry_lb_snap (s : State) (e) : (offerEntry s e).lb.snap = s.lb.snap := (offerEntry_reported [] s e).1.lb_snap
@[simp] theorem offerEntry_lb_hostWaits (s : State) (e) : (offerEntry s e).lb.hostWaits = s.lb.hostWaits := (offerEntry_reported [] s e).1.lb_hostWaits
@[simp] theorem offerEntry_lb_fatalWaits (s : State) (e) : (offerEntry s e).lb.fatalWaits = s.lb.fatalWaits := (offerEntry_reported [] s e).1.lb_fatalWaits
@[simp] theorem offerEntry_lb_followUp (s : State) (e) : (offerEntry s e).lb.followUp = s.lb.followUp := (offerEntry_reported [] s e).1.lb_followUp
@[simp] theorem offerEntry_lb_slots (s : State) (e) : (offerEntry s e).lb.slots = s.lb.slots := (offerEntry_reported [] s e).1.lb_slots
@[simp] theorem offerEntry_lb_newest (s : State) (e) : (offerEntry s e).lb.newest = s.lb.newest := (offerEntry_reported [] s e).1.lb_newest

@[simp] theorem offer_pending (s : State) (a) (b) (c) (d) : (offer s a b c d).pending = s.pending := (offer_reported [] s a b c d).1.pending
@[simp] theorem offer_staged (s : State) (a) (b) (c) (d) : (offer s a b c d).staged = s.staged := (offer_reported [] s a b c d).1.staged
@[simp] theorem offer_captured (s : State) (a) (b) (c) (d) : (offer s a b c d).captured = s.captured := (offer_reported [] s a b c d).1.captured
@[simp] theorem offer_tide (s : State) (a) (b) (c) (d) : (offer s a b c d).tide = s.tide := (offer_reported [] s a b c d).1.tide
@[simp] theorem offer_cores (s : State) (a) (b) (c) (d) : (offer s a b c d).cores = s.cores := (offer_reported [] s a b c d).1.cores
@[simp] theorem offer_mesh (s : State) (a) (b) (c) (d) : (offer s a b c d).mesh = s.mesh := (offer_reported [] s a b c d).1.mesh
@[simp] theorem offer_fares (s : State) (a) (b) (c) (d) : (offer s a b c d).fares = s.fares := (offer_reported [] s a b c d).1.fares
@[simp] theorem offer_locks (s : State) (a) (b) (c) (d) : (offer s a b c d).locks = s.locks := (offer_reported [] s a b c d).1.locks
@[simp] theorem offer_sdChanged (s : State) (a) (b) (c) (d) : (offer s a b c d).sdChanged = s.sdChanged := (offer_reported [] s a b c d).1.sdChanged
@[simp] theorem offer_sdArmed (s : State) (a) (b) (c) (d) : (offer s a b c d).sdArmed = s.sdArmed := (offer_reported [] s a b c d).1.sdArmed
@[simp] theorem offer_clusters (s : State) (a) (b) (c) (d) : (offer s a b c d).clusters = s.clusters := (offer_reported [] s a b c d).1.clusters
@[simp] theorem offer_mailboxes (s : State) (a) (b) (c) (d) : (offer s a b c d).mailboxes = s.mailboxes := (offer_reported [] s a b c d).1.mailboxes
@[simp] theorem offer_bar4 (s : State) (a) (b) (c) (d) : (offer s a b c d).bar4 = s.bar4 := (offer_reported [] s a b c d).1.bar4
@[simp] theorem offer_xb (s : State) (a) (b) (c) (d) : (offer s a b c d).xb = s.xb := (offer_reported [] s a b c d).1.xb
@[simp] theorem offer_ctxs (s : State) (a) (b) (c) (d) : (offer s a b c d).ctxs = s.ctxs := (offer_reported [] s a b c d).1.ctxs
@[simp] theorem offer_drains (s : State) (a) (b) (c) (d) : (offer s a b c d).drains = s.drains := (offer_reported [] s a b c d).1.drains
@[simp] theorem offer_dm (s : State) (a) (b) (c) (d) : (offer s a b c d).dm = s.dm := (offer_reported [] s a b c d).1.dm
@[simp] theorem offer_poison (s : State) (a) (b) (c) (d) : (offer s a b c d).poison = s.poison := (offer_reported [] s a b c d).1.poison
@[simp] theorem offer_slices (s : State) (a) (b) (c) (d) : (offer s a b c d).slices = s.slices := (offer_reported [] s a b c d).1.slices
@[simp] theorem offer_lw (s : State) (a) (b) (c) (d) : (offer s a b c d).lw = s.lw := (offer_reported [] s a b c d).1.lw
@[simp] theorem offer_frz (s : State) (a) (b) (c) (d) : (offer s a b c d).frz = s.frz := (offer_reported [] s a b c d).1.frz
@[simp] theorem offer_ports (s : State) (a) (b) (c) (d) : (offer s a b c d).ports = s.ports := (offer_reported [] s a b c d).1.ports
@[simp] theorem offer_eqs (s : State) (a) (b) (c) (d) : (offer s a b c d).eqs = s.eqs := (offer_reported [] s a b c d).1.eqs
@[simp] theorem offer_scrubs (s : State) (a) (b) (c) (d) : (offer s a b c d).scrubs = s.scrubs := (offer_reported [] s a b c d).1.scrubs
@[simp] theorem offer_pl (s : State) (a) (b) (c) (d) : (offer s a b c d).pl = s.pl := (offer_reported [] s a b c d).1.pl
@[simp] theorem offer_gp (s : State) (a) (b) (c) (d) : (offer s a b c d).gp = s.gp := (offer_reported [] s a b c d).1.gp
@[simp] theorem offer_mod (s : State) (a) (b) (c) (d) : (offer s a b c d).mod = s.mod := (offer_reported [] s a b c d).1.mod
@[simp] theorem offer_boot (s : State) (a) (b) (c) (d) : (offer s a b c d).boot = s.boot := (offer_reported [] s a b c d).1.boot
@[simp] theorem offer_cxl_memSpace (s : State) (a) (b) (c) (d) : (offer s a b c d).cxl.memSpace = s.cxl.memSpace := (offer_reported [] s a b c d).1.cxl_memSpace
@[simp] theorem offer_cxl_busMaster (s : State) (a) (b) (c) (d) : (offer s a b c d).cxl.busMaster = s.cxl.busMaster := (offer_reported [] s a b c d).1.cxl_busMaster
@[simp] theorem offer_cxl_parityResp (s : State) (a) (b) (c) (d) : (offer s a b c d).cxl.parityResp = s.cxl.parityResp := (offer_reported [] s a b c d).1.cxl_parityResp
@[simp] theorem offer_cxl_serr (s : State) (a) (b) (c) (d) : (offer s a b c d).cxl.serr = s.cxl.serr := (offer_reported [] s a b c d).1.cxl_serr
@[simp] theorem offer_cxl_intDisable (s : State) (a) (b) (c) (d) : (offer s a b c d).cxl.intDisable = s.cxl.intDisable := (offer_reported [] s a b c d).1.cxl_intDisable
@[simp] theorem offer_cxl_msixEn (s : State) (a) (b) (c) (d) : (offer s a b c d).cxl.msixEn = s.cxl.msixEn := (offer_reported [] s a b c d).1.cxl_msixEn
@[simp] theorem offer_cxl_funcMask (s : State) (a) (b) (c) (d) : (offer s a b c d).cxl.funcMask = s.cxl.funcMask := (offer_reported [] s a b c d).1.cxl_funcMask
@[simp] theorem offer_cxl_relaxEn (s : State) (a) (b) (c) (d) : (offer s a b c d).cxl.relaxEn = s.cxl.relaxEn := (offer_reported [] s a b c d).1.cxl_relaxEn
@[simp] theorem offer_cxl_l1En (s : State) (a) (b) (c) (d) : (offer s a b c d).cxl.l1En = s.cxl.l1En := (offer_reported [] s a b c d).1.cxl_l1En
@[simp] theorem offer_cxl_cacheEn (s : State) (a) (b) (c) (d) : (offer s a b c d).cxl.cacheEn = s.cxl.cacheEn := (offer_reported [] s a b c d).1.cxl_cacheEn
@[simp] theorem offer_cxl_memEn (s : State) (a) (b) (c) (d) : (offer s a b c d).cxl.memEn = s.cxl.memEn := (offer_reported [] s a b c d).1.cxl_memEn
@[simp] theorem offer_cxl_disCache (s : State) (a) (b) (c) (d) : (offer s a b c d).cxl.disCache = s.cxl.disCache := (offer_reported [] s a b c d).1.cxl_disCache
@[simp] theorem offer_cxl_cacheInvalid (s : State) (a) (b) (c) (d) : (offer s a b c d).cxl.cacheInvalid = s.cxl.cacheInvalid := (offer_reported [] s a b c d).1.cxl_cacheInvalid
@[simp] theorem offer_cxl_wbWaiting (s : State) (a) (b) (c) (d) : (offer s a b c d).cxl.wbWaiting = s.cxl.wbWaiting := (offer_reported [] s a b c d).1.cxl_wbWaiting
@[simp] theorem offer_cxl_intLine (s : State) (a) (b) (c) (d) : (offer s a b c d).cxl.intLine = s.cxl.intLine := (offer_reported [] s a b c d).1.cxl_intLine
@[simp] theorem offer_cxl_bars (s : State) (a) (b) (c) (d) : (offer s a b c d).cxl.bars = s.cxl.bars := (offer_reported [] s a b c d).1.cxl_bars
@[simp] theorem offer_cxl_subsystem (s : State) (a) (b) (c) (d) : (offer s a b c d).cxl.subsystem = s.cxl.subsystem := (offer_reported [] s a b c d).1.cxl_subsystem
@[simp] theorem offer_cxl_d3hot (s : State) (a) (b) (c) (d) : (offer s a b c d).cxl.d3hot = s.cxl.d3hot := (offer_reported [] s a b c d).1.cxl_d3hot
@[simp] theorem offer_cxl_ctoVal (s : State) (a) (b) (c) (d) : (offer s a b c d).cxl.ctoVal = s.cxl.ctoVal := (offer_reported [] s a b c d).1.cxl_ctoVal
@[simp] theorem offer_cxl_ctoDis (s : State) (a) (b) (c) (d) : (offer s a b c d).cxl.ctoDis = s.cxl.ctoDis := (offer_reported [] s a b c d).1.cxl_ctoDis
@[simp] theorem offer_cxl_link (s : State) (a) (b) (c) (d) : (offer s a b c d).cxl.link = s.cxl.link := (offer_reported [] s a b c d).1.cxl_link
@[simp] theorem offer_cxl_l0pOk (s : State) (a) (b) (c) (d) : (offer s a b c d).cxl.l0pOk = s.cxl.l0pOk := (offer_reported [] s a b c d).1.cxl_l0pOk
@[simp] theorem offer_cxl_d2h (s : State) (a) (b) (c) (d) : (offer s a b c d).cxl.d2h = s.cxl.d2h := (offer_reported [] s a b c d).1.cxl_d2h
@[simp] theorem offer_cxl_wq (s : State) (a) (b) (c) (d) : (offer s a b c d).cxl.wq = s.cxl.wq := (offer_reported [] s a b c d).1.cxl_wq
@[simp] theorem offer_cxl_inbound (s : State) (a) (b) (c) (d) : (offer s a b c d).cxl.inbound = s.cxl.inbound := (offer_reported [] s a b c d).1.cxl_inbound
@[simp] theorem offer_cxl_flr (s : State) (a) (b) (c) (d) : (offer s a b c d).cxl.flr = s.cxl.flr := (offer_reported [] s a b c d).1.cxl_flr
@[simp] theorem offer_cxl_aer (s : State) (a) (b) (c) (d) : (offer s a b c d).cxl.aer = s.cxl.aer := (offer_reported [] s a b c d).1.cxl_aer
@[simp] theorem offer_cxl_uncommitting (s : State) (a) (b) (c) (d) : (offer s a b c d).cxl.uncommitting = s.cxl.uncommitting := (offer_reported [] s a b c d).1.cxl_uncommitting
@[simp] theorem offer_fc_queue (s : State) (a) (b) (c) (d) : (offer s a b c d).fc.queue = s.fc.queue := (offer_reported [] s a b c d).1.fc_queue
@[simp] theorem offer_fc_recNo (s : State) (a) (b) (c) (d) : (offer s a b c d).fc.recNo = s.fc.recNo := (offer_reported [] s a b c d).1.fc_recNo
@[simp] theorem offer_fc_safe (s : State) (a) (b) (c) (d) : (offer s a b c d).fc.safe = s.fc.safe := (offer_reported [] s a b c d).1.fc_safe
@[simp] theorem offer_fc_aliveStopped (s : State) (a) (b) (c) (d) : (offer s a b c d).fc.aliveStopped = s.fc.aliveStopped := (offer_reported [] s a b c d).1.fc_aliveStopped
@[simp] theorem offer_fc_aliveRb (s : State) (a) (b) (c) (d) : (offer s a b c d).fc.aliveRb = s.fc.aliveRb := (offer_reported [] s a b c d).1.fc_aliveRb
@[simp] theorem offer_fc_wdogSet (s : State) (a) (b) (c) (d) : (offer s a b c d).fc.wdogSet = s.fc.wdogSet := (offer_reported [] s a b c d).1.fc_wdogSet
@[simp] theorem offer_fc_episodes (s : State) (a) (b) (c) (d) : (offer s a b c d).fc.episodes = s.fc.episodes := (offer_reported [] s a b c d).1.fc_episodes
@[simp] theorem offer_fc_portsToFence (s : State) (a) (b) (c) (d) : (offer s a b c d).fc.portsToFence = s.fc.portsToFence := (offer_reported [] s a b c d).1.fc_portsToFence
@[simp] theorem offer_fc_abortIds (s : State) (a) (b) (c) (d) : (offer s a b c d).fc.abortIds = s.fc.abortIds := (offer_reported [] s a b c d).1.fc_abortIds
@[simp] theorem offer_lb_ring (s : State) (a) (b) (c) (d) : (offer s a b c d).lb.ring = s.lb.ring := (offer_reported [] s a b c d).1.lb_ring
@[simp] theorem offer_lb_head (s : State) (a) (b) (c) (d) : (offer s a b c d).lb.head = s.lb.head := (offer_reported [] s a b c d).1.lb_head
@[simp] theorem offer_lb_wrapped (s : State) (a) (b) (c) (d) : (offer s a b c d).lb.wrapped = s.lb.wrapped := (offer_reported [] s a b c d).1.lb_wrapped
@[simp] theorem offer_lb_fresh (s : State) (a) (b) (c) (d) : (offer s a b c d).lb.fresh = s.lb.fresh := (offer_reported [] s a b c d).1.lb_fresh
@[simp] theorem offer_lb_snap (s : State) (a) (b) (c) (d) : (offer s a b c d).lb.snap = s.lb.snap := (offer_reported [] s a b c d).1.lb_snap
@[simp] theorem offer_lb_hostWaits (s : State) (a) (b) (c) (d) : (offer s a b c d).lb.hostWaits = s.lb.hostWaits := (offer_reported [] s a b c d).1.lb_hostWaits
@[simp] theorem offer_lb_fatalWaits (s : State) (a) (b) (c) (d) : (offer s a b c d).lb.fatalWaits = s.lb.fatalWaits := (offer_reported [] s a b c d).1.lb_fatalWaits
@[simp] theorem offer_lb_followUp (s : State) (a) (b) (c) (d) : (offer s a b c d).lb.followUp = s.lb.followUp := (offer_reported [] s a b c d).1.lb_followUp
@[simp] theorem offer_lb_slots (s : State) (a) (b) (c) (d) : (offer s a b c d).lb.slots = s.lb.slots := (offer_reported [] s a b c d).1.lb_slots
@[simp] theorem offer_lb_newest (s : State) (a) (b) (c) (d) : (offer s a b c d).lb.newest = s.lb.newest := (offer_reported [] s a b c d).1.lb_newest

@[simp] theorem logBootWith_pending (s : State) (a) (b) (c) (d) : (logBootWith s a b c d).pending = s.pending := (logBootWith_reported [] s a b c d).1.pending
@[simp] theorem logBootWith_staged (s : State) (a) (b) (c) (d) : (logBootWith s a b c d).staged = s.staged := (logBootWith_reported [] s a b c d).1.staged
@[simp] theorem logBootWith_captured (s : State) (a) (b) (c) (d) : (logBootWith s a b c d).captured = s.captured := (logBootWith_reported [] s a b c d).1.captured
@[simp] theorem logBootWith_tide (s : State) (a) (b) (c) (d) : (logBootWith s a b c d).tide = s.tide := (logBootWith_reported [] s a b c d).1.tide
@[simp] theorem logBootWith_cores (s : State) (a) (b) (c) (d) : (logBootWith s a b c d).cores = s.cores := (logBootWith_reported [] s a b c d).1.cores
@[simp] theorem logBootWith_mesh (s : State) (a) (b) (c) (d) : (logBootWith s a b c d).mesh = s.mesh := (logBootWith_reported [] s a b c d).1.mesh
@[simp] theorem logBootWith_fares (s : State) (a) (b) (c) (d) : (logBootWith s a b c d).fares = s.fares := (logBootWith_reported [] s a b c d).1.fares
@[simp] theorem logBootWith_locks (s : State) (a) (b) (c) (d) : (logBootWith s a b c d).locks = s.locks := (logBootWith_reported [] s a b c d).1.locks
@[simp] theorem logBootWith_sdChanged (s : State) (a) (b) (c) (d) : (logBootWith s a b c d).sdChanged = s.sdChanged := (logBootWith_reported [] s a b c d).1.sdChanged
@[simp] theorem logBootWith_sdArmed (s : State) (a) (b) (c) (d) : (logBootWith s a b c d).sdArmed = s.sdArmed := (logBootWith_reported [] s a b c d).1.sdArmed
@[simp] theorem logBootWith_clusters (s : State) (a) (b) (c) (d) : (logBootWith s a b c d).clusters = s.clusters := (logBootWith_reported [] s a b c d).1.clusters
@[simp] theorem logBootWith_mailboxes (s : State) (a) (b) (c) (d) : (logBootWith s a b c d).mailboxes = s.mailboxes := (logBootWith_reported [] s a b c d).1.mailboxes
@[simp] theorem logBootWith_bar4 (s : State) (a) (b) (c) (d) : (logBootWith s a b c d).bar4 = s.bar4 := (logBootWith_reported [] s a b c d).1.bar4
@[simp] theorem logBootWith_xb (s : State) (a) (b) (c) (d) : (logBootWith s a b c d).xb = s.xb := (logBootWith_reported [] s a b c d).1.xb
@[simp] theorem logBootWith_ctxs (s : State) (a) (b) (c) (d) : (logBootWith s a b c d).ctxs = s.ctxs := (logBootWith_reported [] s a b c d).1.ctxs
@[simp] theorem logBootWith_drains (s : State) (a) (b) (c) (d) : (logBootWith s a b c d).drains = s.drains := (logBootWith_reported [] s a b c d).1.drains
@[simp] theorem logBootWith_dm (s : State) (a) (b) (c) (d) : (logBootWith s a b c d).dm = s.dm := (logBootWith_reported [] s a b c d).1.dm
@[simp] theorem logBootWith_poison (s : State) (a) (b) (c) (d) : (logBootWith s a b c d).poison = s.poison := (logBootWith_reported [] s a b c d).1.poison
@[simp] theorem logBootWith_slices (s : State) (a) (b) (c) (d) : (logBootWith s a b c d).slices = s.slices := (logBootWith_reported [] s a b c d).1.slices
@[simp] theorem logBootWith_lw (s : State) (a) (b) (c) (d) : (logBootWith s a b c d).lw = s.lw := (logBootWith_reported [] s a b c d).1.lw
@[simp] theorem logBootWith_frz (s : State) (a) (b) (c) (d) : (logBootWith s a b c d).frz = s.frz := (logBootWith_reported [] s a b c d).1.frz
@[simp] theorem logBootWith_ports (s : State) (a) (b) (c) (d) : (logBootWith s a b c d).ports = s.ports := (logBootWith_reported [] s a b c d).1.ports
@[simp] theorem logBootWith_eqs (s : State) (a) (b) (c) (d) : (logBootWith s a b c d).eqs = s.eqs := (logBootWith_reported [] s a b c d).1.eqs
@[simp] theorem logBootWith_scrubs (s : State) (a) (b) (c) (d) : (logBootWith s a b c d).scrubs = s.scrubs := (logBootWith_reported [] s a b c d).1.scrubs
@[simp] theorem logBootWith_pl (s : State) (a) (b) (c) (d) : (logBootWith s a b c d).pl = s.pl := (logBootWith_reported [] s a b c d).1.pl
@[simp] theorem logBootWith_gp (s : State) (a) (b) (c) (d) : (logBootWith s a b c d).gp = s.gp := (logBootWith_reported [] s a b c d).1.gp
@[simp] theorem logBootWith_mod (s : State) (a) (b) (c) (d) : (logBootWith s a b c d).mod = s.mod := (logBootWith_reported [] s a b c d).1.mod
@[simp] theorem logBootWith_boot (s : State) (a) (b) (c) (d) : (logBootWith s a b c d).boot = s.boot := (logBootWith_reported [] s a b c d).1.boot
@[simp] theorem logBootWith_cxl_memSpace (s : State) (a) (b) (c) (d) : (logBootWith s a b c d).cxl.memSpace = s.cxl.memSpace := (logBootWith_reported [] s a b c d).1.cxl_memSpace
@[simp] theorem logBootWith_cxl_busMaster (s : State) (a) (b) (c) (d) : (logBootWith s a b c d).cxl.busMaster = s.cxl.busMaster := (logBootWith_reported [] s a b c d).1.cxl_busMaster
@[simp] theorem logBootWith_cxl_parityResp (s : State) (a) (b) (c) (d) : (logBootWith s a b c d).cxl.parityResp = s.cxl.parityResp := (logBootWith_reported [] s a b c d).1.cxl_parityResp
@[simp] theorem logBootWith_cxl_serr (s : State) (a) (b) (c) (d) : (logBootWith s a b c d).cxl.serr = s.cxl.serr := (logBootWith_reported [] s a b c d).1.cxl_serr
@[simp] theorem logBootWith_cxl_intDisable (s : State) (a) (b) (c) (d) : (logBootWith s a b c d).cxl.intDisable = s.cxl.intDisable := (logBootWith_reported [] s a b c d).1.cxl_intDisable
@[simp] theorem logBootWith_cxl_msixEn (s : State) (a) (b) (c) (d) : (logBootWith s a b c d).cxl.msixEn = s.cxl.msixEn := (logBootWith_reported [] s a b c d).1.cxl_msixEn
@[simp] theorem logBootWith_cxl_funcMask (s : State) (a) (b) (c) (d) : (logBootWith s a b c d).cxl.funcMask = s.cxl.funcMask := (logBootWith_reported [] s a b c d).1.cxl_funcMask
@[simp] theorem logBootWith_cxl_relaxEn (s : State) (a) (b) (c) (d) : (logBootWith s a b c d).cxl.relaxEn = s.cxl.relaxEn := (logBootWith_reported [] s a b c d).1.cxl_relaxEn
@[simp] theorem logBootWith_cxl_l1En (s : State) (a) (b) (c) (d) : (logBootWith s a b c d).cxl.l1En = s.cxl.l1En := (logBootWith_reported [] s a b c d).1.cxl_l1En
@[simp] theorem logBootWith_cxl_cacheEn (s : State) (a) (b) (c) (d) : (logBootWith s a b c d).cxl.cacheEn = s.cxl.cacheEn := (logBootWith_reported [] s a b c d).1.cxl_cacheEn
@[simp] theorem logBootWith_cxl_memEn (s : State) (a) (b) (c) (d) : (logBootWith s a b c d).cxl.memEn = s.cxl.memEn := (logBootWith_reported [] s a b c d).1.cxl_memEn
@[simp] theorem logBootWith_cxl_disCache (s : State) (a) (b) (c) (d) : (logBootWith s a b c d).cxl.disCache = s.cxl.disCache := (logBootWith_reported [] s a b c d).1.cxl_disCache
@[simp] theorem logBootWith_cxl_cacheInvalid (s : State) (a) (b) (c) (d) : (logBootWith s a b c d).cxl.cacheInvalid = s.cxl.cacheInvalid := (logBootWith_reported [] s a b c d).1.cxl_cacheInvalid
@[simp] theorem logBootWith_cxl_wbWaiting (s : State) (a) (b) (c) (d) : (logBootWith s a b c d).cxl.wbWaiting = s.cxl.wbWaiting := (logBootWith_reported [] s a b c d).1.cxl_wbWaiting
@[simp] theorem logBootWith_cxl_intLine (s : State) (a) (b) (c) (d) : (logBootWith s a b c d).cxl.intLine = s.cxl.intLine := (logBootWith_reported [] s a b c d).1.cxl_intLine
@[simp] theorem logBootWith_cxl_bars (s : State) (a) (b) (c) (d) : (logBootWith s a b c d).cxl.bars = s.cxl.bars := (logBootWith_reported [] s a b c d).1.cxl_bars
@[simp] theorem logBootWith_cxl_subsystem (s : State) (a) (b) (c) (d) : (logBootWith s a b c d).cxl.subsystem = s.cxl.subsystem := (logBootWith_reported [] s a b c d).1.cxl_subsystem
@[simp] theorem logBootWith_cxl_d3hot (s : State) (a) (b) (c) (d) : (logBootWith s a b c d).cxl.d3hot = s.cxl.d3hot := (logBootWith_reported [] s a b c d).1.cxl_d3hot
@[simp] theorem logBootWith_cxl_ctoVal (s : State) (a) (b) (c) (d) : (logBootWith s a b c d).cxl.ctoVal = s.cxl.ctoVal := (logBootWith_reported [] s a b c d).1.cxl_ctoVal
@[simp] theorem logBootWith_cxl_ctoDis (s : State) (a) (b) (c) (d) : (logBootWith s a b c d).cxl.ctoDis = s.cxl.ctoDis := (logBootWith_reported [] s a b c d).1.cxl_ctoDis
@[simp] theorem logBootWith_cxl_link (s : State) (a) (b) (c) (d) : (logBootWith s a b c d).cxl.link = s.cxl.link := (logBootWith_reported [] s a b c d).1.cxl_link
@[simp] theorem logBootWith_cxl_l0pOk (s : State) (a) (b) (c) (d) : (logBootWith s a b c d).cxl.l0pOk = s.cxl.l0pOk := (logBootWith_reported [] s a b c d).1.cxl_l0pOk
@[simp] theorem logBootWith_cxl_d2h (s : State) (a) (b) (c) (d) : (logBootWith s a b c d).cxl.d2h = s.cxl.d2h := (logBootWith_reported [] s a b c d).1.cxl_d2h
@[simp] theorem logBootWith_cxl_wq (s : State) (a) (b) (c) (d) : (logBootWith s a b c d).cxl.wq = s.cxl.wq := (logBootWith_reported [] s a b c d).1.cxl_wq
@[simp] theorem logBootWith_cxl_inbound (s : State) (a) (b) (c) (d) : (logBootWith s a b c d).cxl.inbound = s.cxl.inbound := (logBootWith_reported [] s a b c d).1.cxl_inbound
@[simp] theorem logBootWith_cxl_flr (s : State) (a) (b) (c) (d) : (logBootWith s a b c d).cxl.flr = s.cxl.flr := (logBootWith_reported [] s a b c d).1.cxl_flr
@[simp] theorem logBootWith_cxl_aer (s : State) (a) (b) (c) (d) : (logBootWith s a b c d).cxl.aer = s.cxl.aer := (logBootWith_reported [] s a b c d).1.cxl_aer
@[simp] theorem logBootWith_cxl_uncommitting (s : State) (a) (b) (c) (d) : (logBootWith s a b c d).cxl.uncommitting = s.cxl.uncommitting := (logBootWith_reported [] s a b c d).1.cxl_uncommitting
@[simp] theorem logBootWith_fc_queue (s : State) (a) (b) (c) (d) : (logBootWith s a b c d).fc.queue = s.fc.queue := (logBootWith_reported [] s a b c d).1.fc_queue
@[simp] theorem logBootWith_fc_recNo (s : State) (a) (b) (c) (d) : (logBootWith s a b c d).fc.recNo = s.fc.recNo := (logBootWith_reported [] s a b c d).1.fc_recNo
@[simp] theorem logBootWith_fc_safe (s : State) (a) (b) (c) (d) : (logBootWith s a b c d).fc.safe = s.fc.safe := (logBootWith_reported [] s a b c d).1.fc_safe
@[simp] theorem logBootWith_fc_aliveStopped (s : State) (a) (b) (c) (d) : (logBootWith s a b c d).fc.aliveStopped = s.fc.aliveStopped := (logBootWith_reported [] s a b c d).1.fc_aliveStopped
@[simp] theorem logBootWith_fc_aliveRb (s : State) (a) (b) (c) (d) : (logBootWith s a b c d).fc.aliveRb = s.fc.aliveRb := (logBootWith_reported [] s a b c d).1.fc_aliveRb
@[simp] theorem logBootWith_fc_wdogSet (s : State) (a) (b) (c) (d) : (logBootWith s a b c d).fc.wdogSet = s.fc.wdogSet := (logBootWith_reported [] s a b c d).1.fc_wdogSet
@[simp] theorem logBootWith_fc_episodes (s : State) (a) (b) (c) (d) : (logBootWith s a b c d).fc.episodes = s.fc.episodes := (logBootWith_reported [] s a b c d).1.fc_episodes
@[simp] theorem logBootWith_fc_portsToFence (s : State) (a) (b) (c) (d) : (logBootWith s a b c d).fc.portsToFence = s.fc.portsToFence := (logBootWith_reported [] s a b c d).1.fc_portsToFence
@[simp] theorem logBootWith_fc_abortIds (s : State) (a) (b) (c) (d) : (logBootWith s a b c d).fc.abortIds = s.fc.abortIds := (logBootWith_reported [] s a b c d).1.fc_abortIds
@[simp] theorem logBootWith_lb_ring (s : State) (a) (b) (c) (d) : (logBootWith s a b c d).lb.ring = s.lb.ring := (logBootWith_reported [] s a b c d).1.lb_ring
@[simp] theorem logBootWith_lb_head (s : State) (a) (b) (c) (d) : (logBootWith s a b c d).lb.head = s.lb.head := (logBootWith_reported [] s a b c d).1.lb_head
@[simp] theorem logBootWith_lb_wrapped (s : State) (a) (b) (c) (d) : (logBootWith s a b c d).lb.wrapped = s.lb.wrapped := (logBootWith_reported [] s a b c d).1.lb_wrapped
@[simp] theorem logBootWith_lb_fresh (s : State) (a) (b) (c) (d) : (logBootWith s a b c d).lb.fresh = s.lb.fresh := (logBootWith_reported [] s a b c d).1.lb_fresh
@[simp] theorem logBootWith_lb_snap (s : State) (a) (b) (c) (d) : (logBootWith s a b c d).lb.snap = s.lb.snap := (logBootWith_reported [] s a b c d).1.lb_snap
@[simp] theorem logBootWith_lb_hostWaits (s : State) (a) (b) (c) (d) : (logBootWith s a b c d).lb.hostWaits = s.lb.hostWaits := (logBootWith_reported [] s a b c d).1.lb_hostWaits
@[simp] theorem logBootWith_lb_fatalWaits (s : State) (a) (b) (c) (d) : (logBootWith s a b c d).lb.fatalWaits = s.lb.fatalWaits := (logBootWith_reported [] s a b c d).1.lb_fatalWaits
@[simp] theorem logBootWith_lb_followUp (s : State) (a) (b) (c) (d) : (logBootWith s a b c d).lb.followUp = s.lb.followUp := (logBootWith_reported [] s a b c d).1.lb_followUp
@[simp] theorem logBootWith_lb_slots (s : State) (a) (b) (c) (d) : (logBootWith s a b c d).lb.slots = s.lb.slots := (logBootWith_reported [] s a b c d).1.lb_slots
@[simp] theorem logBootWith_lb_newest (s : State) (a) (b) (c) (d) : (logBootWith s a b c d).lb.newest = s.lb.newest := (logBootWith_reported [] s a b c d).1.lb_newest

@[simp] theorem logBoot_pending (s : State) (a) (b) (c) : (logBoot s a b c).pending = s.pending := (logBoot_reported [] s a b c).1.pending
@[simp] theorem logBoot_staged (s : State) (a) (b) (c) : (logBoot s a b c).staged = s.staged := (logBoot_reported [] s a b c).1.staged
@[simp] theorem logBoot_captured (s : State) (a) (b) (c) : (logBoot s a b c).captured = s.captured := (logBoot_reported [] s a b c).1.captured
@[simp] theorem logBoot_tide (s : State) (a) (b) (c) : (logBoot s a b c).tide = s.tide := (logBoot_reported [] s a b c).1.tide
@[simp] theorem logBoot_cores (s : State) (a) (b) (c) : (logBoot s a b c).cores = s.cores := (logBoot_reported [] s a b c).1.cores
@[simp] theorem logBoot_mesh (s : State) (a) (b) (c) : (logBoot s a b c).mesh = s.mesh := (logBoot_reported [] s a b c).1.mesh
@[simp] theorem logBoot_fares (s : State) (a) (b) (c) : (logBoot s a b c).fares = s.fares := (logBoot_reported [] s a b c).1.fares
@[simp] theorem logBoot_locks (s : State) (a) (b) (c) : (logBoot s a b c).locks = s.locks := (logBoot_reported [] s a b c).1.locks
@[simp] theorem logBoot_sdChanged (s : State) (a) (b) (c) : (logBoot s a b c).sdChanged = s.sdChanged := (logBoot_reported [] s a b c).1.sdChanged
@[simp] theorem logBoot_sdArmed (s : State) (a) (b) (c) : (logBoot s a b c).sdArmed = s.sdArmed := (logBoot_reported [] s a b c).1.sdArmed
@[simp] theorem logBoot_clusters (s : State) (a) (b) (c) : (logBoot s a b c).clusters = s.clusters := (logBoot_reported [] s a b c).1.clusters
@[simp] theorem logBoot_mailboxes (s : State) (a) (b) (c) : (logBoot s a b c).mailboxes = s.mailboxes := (logBoot_reported [] s a b c).1.mailboxes
@[simp] theorem logBoot_bar4 (s : State) (a) (b) (c) : (logBoot s a b c).bar4 = s.bar4 := (logBoot_reported [] s a b c).1.bar4
@[simp] theorem logBoot_xb (s : State) (a) (b) (c) : (logBoot s a b c).xb = s.xb := (logBoot_reported [] s a b c).1.xb
@[simp] theorem logBoot_ctxs (s : State) (a) (b) (c) : (logBoot s a b c).ctxs = s.ctxs := (logBoot_reported [] s a b c).1.ctxs
@[simp] theorem logBoot_drains (s : State) (a) (b) (c) : (logBoot s a b c).drains = s.drains := (logBoot_reported [] s a b c).1.drains
@[simp] theorem logBoot_dm (s : State) (a) (b) (c) : (logBoot s a b c).dm = s.dm := (logBoot_reported [] s a b c).1.dm
@[simp] theorem logBoot_poison (s : State) (a) (b) (c) : (logBoot s a b c).poison = s.poison := (logBoot_reported [] s a b c).1.poison
@[simp] theorem logBoot_slices (s : State) (a) (b) (c) : (logBoot s a b c).slices = s.slices := (logBoot_reported [] s a b c).1.slices
@[simp] theorem logBoot_lw (s : State) (a) (b) (c) : (logBoot s a b c).lw = s.lw := (logBoot_reported [] s a b c).1.lw
@[simp] theorem logBoot_frz (s : State) (a) (b) (c) : (logBoot s a b c).frz = s.frz := (logBoot_reported [] s a b c).1.frz
@[simp] theorem logBoot_ports (s : State) (a) (b) (c) : (logBoot s a b c).ports = s.ports := (logBoot_reported [] s a b c).1.ports
@[simp] theorem logBoot_eqs (s : State) (a) (b) (c) : (logBoot s a b c).eqs = s.eqs := (logBoot_reported [] s a b c).1.eqs
@[simp] theorem logBoot_scrubs (s : State) (a) (b) (c) : (logBoot s a b c).scrubs = s.scrubs := (logBoot_reported [] s a b c).1.scrubs
@[simp] theorem logBoot_pl (s : State) (a) (b) (c) : (logBoot s a b c).pl = s.pl := (logBoot_reported [] s a b c).1.pl
@[simp] theorem logBoot_gp (s : State) (a) (b) (c) : (logBoot s a b c).gp = s.gp := (logBoot_reported [] s a b c).1.gp
@[simp] theorem logBoot_mod (s : State) (a) (b) (c) : (logBoot s a b c).mod = s.mod := (logBoot_reported [] s a b c).1.mod
@[simp] theorem logBoot_boot (s : State) (a) (b) (c) : (logBoot s a b c).boot = s.boot := (logBoot_reported [] s a b c).1.boot
@[simp] theorem logBoot_cxl_memSpace (s : State) (a) (b) (c) : (logBoot s a b c).cxl.memSpace = s.cxl.memSpace := (logBoot_reported [] s a b c).1.cxl_memSpace
@[simp] theorem logBoot_cxl_busMaster (s : State) (a) (b) (c) : (logBoot s a b c).cxl.busMaster = s.cxl.busMaster := (logBoot_reported [] s a b c).1.cxl_busMaster
@[simp] theorem logBoot_cxl_parityResp (s : State) (a) (b) (c) : (logBoot s a b c).cxl.parityResp = s.cxl.parityResp := (logBoot_reported [] s a b c).1.cxl_parityResp
@[simp] theorem logBoot_cxl_serr (s : State) (a) (b) (c) : (logBoot s a b c).cxl.serr = s.cxl.serr := (logBoot_reported [] s a b c).1.cxl_serr
@[simp] theorem logBoot_cxl_intDisable (s : State) (a) (b) (c) : (logBoot s a b c).cxl.intDisable = s.cxl.intDisable := (logBoot_reported [] s a b c).1.cxl_intDisable
@[simp] theorem logBoot_cxl_msixEn (s : State) (a) (b) (c) : (logBoot s a b c).cxl.msixEn = s.cxl.msixEn := (logBoot_reported [] s a b c).1.cxl_msixEn
@[simp] theorem logBoot_cxl_funcMask (s : State) (a) (b) (c) : (logBoot s a b c).cxl.funcMask = s.cxl.funcMask := (logBoot_reported [] s a b c).1.cxl_funcMask
@[simp] theorem logBoot_cxl_relaxEn (s : State) (a) (b) (c) : (logBoot s a b c).cxl.relaxEn = s.cxl.relaxEn := (logBoot_reported [] s a b c).1.cxl_relaxEn
@[simp] theorem logBoot_cxl_l1En (s : State) (a) (b) (c) : (logBoot s a b c).cxl.l1En = s.cxl.l1En := (logBoot_reported [] s a b c).1.cxl_l1En
@[simp] theorem logBoot_cxl_cacheEn (s : State) (a) (b) (c) : (logBoot s a b c).cxl.cacheEn = s.cxl.cacheEn := (logBoot_reported [] s a b c).1.cxl_cacheEn
@[simp] theorem logBoot_cxl_memEn (s : State) (a) (b) (c) : (logBoot s a b c).cxl.memEn = s.cxl.memEn := (logBoot_reported [] s a b c).1.cxl_memEn
@[simp] theorem logBoot_cxl_disCache (s : State) (a) (b) (c) : (logBoot s a b c).cxl.disCache = s.cxl.disCache := (logBoot_reported [] s a b c).1.cxl_disCache
@[simp] theorem logBoot_cxl_cacheInvalid (s : State) (a) (b) (c) : (logBoot s a b c).cxl.cacheInvalid = s.cxl.cacheInvalid := (logBoot_reported [] s a b c).1.cxl_cacheInvalid
@[simp] theorem logBoot_cxl_wbWaiting (s : State) (a) (b) (c) : (logBoot s a b c).cxl.wbWaiting = s.cxl.wbWaiting := (logBoot_reported [] s a b c).1.cxl_wbWaiting
@[simp] theorem logBoot_cxl_intLine (s : State) (a) (b) (c) : (logBoot s a b c).cxl.intLine = s.cxl.intLine := (logBoot_reported [] s a b c).1.cxl_intLine
@[simp] theorem logBoot_cxl_bars (s : State) (a) (b) (c) : (logBoot s a b c).cxl.bars = s.cxl.bars := (logBoot_reported [] s a b c).1.cxl_bars
@[simp] theorem logBoot_cxl_subsystem (s : State) (a) (b) (c) : (logBoot s a b c).cxl.subsystem = s.cxl.subsystem := (logBoot_reported [] s a b c).1.cxl_subsystem
@[simp] theorem logBoot_cxl_d3hot (s : State) (a) (b) (c) : (logBoot s a b c).cxl.d3hot = s.cxl.d3hot := (logBoot_reported [] s a b c).1.cxl_d3hot
@[simp] theorem logBoot_cxl_ctoVal (s : State) (a) (b) (c) : (logBoot s a b c).cxl.ctoVal = s.cxl.ctoVal := (logBoot_reported [] s a b c).1.cxl_ctoVal
@[simp] theorem logBoot_cxl_ctoDis (s : State) (a) (b) (c) : (logBoot s a b c).cxl.ctoDis = s.cxl.ctoDis := (logBoot_reported [] s a b c).1.cxl_ctoDis
@[simp] theorem logBoot_cxl_link (s : State) (a) (b) (c) : (logBoot s a b c).cxl.link = s.cxl.link := (logBoot_reported [] s a b c).1.cxl_link
@[simp] theorem logBoot_cxl_l0pOk (s : State) (a) (b) (c) : (logBoot s a b c).cxl.l0pOk = s.cxl.l0pOk := (logBoot_reported [] s a b c).1.cxl_l0pOk
@[simp] theorem logBoot_cxl_d2h (s : State) (a) (b) (c) : (logBoot s a b c).cxl.d2h = s.cxl.d2h := (logBoot_reported [] s a b c).1.cxl_d2h
@[simp] theorem logBoot_cxl_wq (s : State) (a) (b) (c) : (logBoot s a b c).cxl.wq = s.cxl.wq := (logBoot_reported [] s a b c).1.cxl_wq
@[simp] theorem logBoot_cxl_inbound (s : State) (a) (b) (c) : (logBoot s a b c).cxl.inbound = s.cxl.inbound := (logBoot_reported [] s a b c).1.cxl_inbound
@[simp] theorem logBoot_cxl_flr (s : State) (a) (b) (c) : (logBoot s a b c).cxl.flr = s.cxl.flr := (logBoot_reported [] s a b c).1.cxl_flr
@[simp] theorem logBoot_cxl_aer (s : State) (a) (b) (c) : (logBoot s a b c).cxl.aer = s.cxl.aer := (logBoot_reported [] s a b c).1.cxl_aer
@[simp] theorem logBoot_cxl_uncommitting (s : State) (a) (b) (c) : (logBoot s a b c).cxl.uncommitting = s.cxl.uncommitting := (logBoot_reported [] s a b c).1.cxl_uncommitting
@[simp] theorem logBoot_fc_queue (s : State) (a) (b) (c) : (logBoot s a b c).fc.queue = s.fc.queue := (logBoot_reported [] s a b c).1.fc_queue
@[simp] theorem logBoot_fc_recNo (s : State) (a) (b) (c) : (logBoot s a b c).fc.recNo = s.fc.recNo := (logBoot_reported [] s a b c).1.fc_recNo
@[simp] theorem logBoot_fc_safe (s : State) (a) (b) (c) : (logBoot s a b c).fc.safe = s.fc.safe := (logBoot_reported [] s a b c).1.fc_safe
@[simp] theorem logBoot_fc_aliveStopped (s : State) (a) (b) (c) : (logBoot s a b c).fc.aliveStopped = s.fc.aliveStopped := (logBoot_reported [] s a b c).1.fc_aliveStopped
@[simp] theorem logBoot_fc_aliveRb (s : State) (a) (b) (c) : (logBoot s a b c).fc.aliveRb = s.fc.aliveRb := (logBoot_reported [] s a b c).1.fc_aliveRb
@[simp] theorem logBoot_fc_wdogSet (s : State) (a) (b) (c) : (logBoot s a b c).fc.wdogSet = s.fc.wdogSet := (logBoot_reported [] s a b c).1.fc_wdogSet
@[simp] theorem logBoot_fc_episodes (s : State) (a) (b) (c) : (logBoot s a b c).fc.episodes = s.fc.episodes := (logBoot_reported [] s a b c).1.fc_episodes
@[simp] theorem logBoot_fc_portsToFence (s : State) (a) (b) (c) : (logBoot s a b c).fc.portsToFence = s.fc.portsToFence := (logBoot_reported [] s a b c).1.fc_portsToFence
@[simp] theorem logBoot_fc_abortIds (s : State) (a) (b) (c) : (logBoot s a b c).fc.abortIds = s.fc.abortIds := (logBoot_reported [] s a b c).1.fc_abortIds
@[simp] theorem logBoot_lb_ring (s : State) (a) (b) (c) : (logBoot s a b c).lb.ring = s.lb.ring := (logBoot_reported [] s a b c).1.lb_ring
@[simp] theorem logBoot_lb_head (s : State) (a) (b) (c) : (logBoot s a b c).lb.head = s.lb.head := (logBoot_reported [] s a b c).1.lb_head
@[simp] theorem logBoot_lb_wrapped (s : State) (a) (b) (c) : (logBoot s a b c).lb.wrapped = s.lb.wrapped := (logBoot_reported [] s a b c).1.lb_wrapped
@[simp] theorem logBoot_lb_fresh (s : State) (a) (b) (c) : (logBoot s a b c).lb.fresh = s.lb.fresh := (logBoot_reported [] s a b c).1.lb_fresh
@[simp] theorem logBoot_lb_snap (s : State) (a) (b) (c) : (logBoot s a b c).lb.snap = s.lb.snap := (logBoot_reported [] s a b c).1.lb_snap
@[simp] theorem logBoot_lb_hostWaits (s : State) (a) (b) (c) : (logBoot s a b c).lb.hostWaits = s.lb.hostWaits := (logBoot_reported [] s a b c).1.lb_hostWaits
@[simp] theorem logBoot_lb_fatalWaits (s : State) (a) (b) (c) : (logBoot s a b c).lb.fatalWaits = s.lb.fatalWaits := (logBoot_reported [] s a b c).1.lb_fatalWaits
@[simp] theorem logBoot_lb_followUp (s : State) (a) (b) (c) : (logBoot s a b c).lb.followUp = s.lb.followUp := (logBoot_reported [] s a b c).1.lb_followUp
@[simp] theorem logBoot_lb_slots (s : State) (a) (b) (c) : (logBoot s a b c).lb.slots = s.lb.slots := (logBoot_reported [] s a b c).1.lb_slots
@[simp] theorem logBoot_lb_newest (s : State) (a) (b) (c) : (logBoot s a b c).lb.newest = s.lb.newest := (logBoot_reported [] s a b c).1.lb_newest

@[simp] theorem noteErr_pending (s : State) (p) (a) (b) : (noteErr s p a b).pending = s.pending := (noteErr_reported (ps := [p]) s a b (by simp)).1.pending
@[simp] theorem noteErr_staged (s : State) (p) (a) (b) : (noteErr s p a b).staged = s.staged := (noteErr_reported (ps := [p]) s a b (by simp)).1.staged
@[simp] theorem noteErr_captured (s : State) (p) (a) (b) : (noteErr s p a b).captured = s.captured := (noteErr_reported (ps := [p]) s a b (by simp)).1.captured
@[simp] theorem noteErr_tide (s : State) (p) (a) (b) : (noteErr s p a b).tide = s.tide := (noteErr_reported (ps := [p]) s a b (by simp)).1.tide
@[simp] theorem noteErr_cores (s : State) (p) (a) (b) : (noteErr s p a b).cores = s.cores := (noteErr_reported (ps := [p]) s a b (by simp)).1.cores
@[simp] theorem noteErr_mesh (s : State) (p) (a) (b) : (noteErr s p a b).mesh = s.mesh := (noteErr_reported (ps := [p]) s a b (by simp)).1.mesh
@[simp] theorem noteErr_fares (s : State) (p) (a) (b) : (noteErr s p a b).fares = s.fares := (noteErr_reported (ps := [p]) s a b (by simp)).1.fares
@[simp] theorem noteErr_locks (s : State) (p) (a) (b) : (noteErr s p a b).locks = s.locks := (noteErr_reported (ps := [p]) s a b (by simp)).1.locks
@[simp] theorem noteErr_sdChanged (s : State) (p) (a) (b) : (noteErr s p a b).sdChanged = s.sdChanged := (noteErr_reported (ps := [p]) s a b (by simp)).1.sdChanged
@[simp] theorem noteErr_sdArmed (s : State) (p) (a) (b) : (noteErr s p a b).sdArmed = s.sdArmed := (noteErr_reported (ps := [p]) s a b (by simp)).1.sdArmed
@[simp] theorem noteErr_clusters (s : State) (p) (a) (b) : (noteErr s p a b).clusters = s.clusters := (noteErr_reported (ps := [p]) s a b (by simp)).1.clusters
@[simp] theorem noteErr_mailboxes (s : State) (p) (a) (b) : (noteErr s p a b).mailboxes = s.mailboxes := (noteErr_reported (ps := [p]) s a b (by simp)).1.mailboxes
@[simp] theorem noteErr_bar4 (s : State) (p) (a) (b) : (noteErr s p a b).bar4 = s.bar4 := (noteErr_reported (ps := [p]) s a b (by simp)).1.bar4
@[simp] theorem noteErr_xb (s : State) (p) (a) (b) : (noteErr s p a b).xb = s.xb := (noteErr_reported (ps := [p]) s a b (by simp)).1.xb
@[simp] theorem noteErr_ctxs (s : State) (p) (a) (b) : (noteErr s p a b).ctxs = s.ctxs := (noteErr_reported (ps := [p]) s a b (by simp)).1.ctxs
@[simp] theorem noteErr_drains (s : State) (p) (a) (b) : (noteErr s p a b).drains = s.drains := (noteErr_reported (ps := [p]) s a b (by simp)).1.drains
@[simp] theorem noteErr_dm (s : State) (p) (a) (b) : (noteErr s p a b).dm = s.dm := (noteErr_reported (ps := [p]) s a b (by simp)).1.dm
@[simp] theorem noteErr_poison (s : State) (p) (a) (b) : (noteErr s p a b).poison = s.poison := (noteErr_reported (ps := [p]) s a b (by simp)).1.poison
@[simp] theorem noteErr_slices (s : State) (p) (a) (b) : (noteErr s p a b).slices = s.slices := (noteErr_reported (ps := [p]) s a b (by simp)).1.slices
@[simp] theorem noteErr_lw (s : State) (p) (a) (b) : (noteErr s p a b).lw = s.lw := (noteErr_reported (ps := [p]) s a b (by simp)).1.lw
@[simp] theorem noteErr_frz (s : State) (p) (a) (b) : (noteErr s p a b).frz = s.frz := (noteErr_reported (ps := [p]) s a b (by simp)).1.frz
@[simp] theorem noteErr_ports (s : State) (p) (a) (b) : (noteErr s p a b).ports = s.ports := (noteErr_reported (ps := [p]) s a b (by simp)).1.ports
@[simp] theorem noteErr_eqs (s : State) (p) (a) (b) : (noteErr s p a b).eqs = s.eqs := (noteErr_reported (ps := [p]) s a b (by simp)).1.eqs
@[simp] theorem noteErr_scrubs (s : State) (p) (a) (b) : (noteErr s p a b).scrubs = s.scrubs := (noteErr_reported (ps := [p]) s a b (by simp)).1.scrubs
@[simp] theorem noteErr_pl (s : State) (p) (a) (b) : (noteErr s p a b).pl = s.pl := (noteErr_reported (ps := [p]) s a b (by simp)).1.pl
@[simp] theorem noteErr_gp (s : State) (p) (a) (b) : (noteErr s p a b).gp = s.gp := (noteErr_reported (ps := [p]) s a b (by simp)).1.gp
@[simp] theorem noteErr_mod (s : State) (p) (a) (b) : (noteErr s p a b).mod = s.mod := (noteErr_reported (ps := [p]) s a b (by simp)).1.mod
@[simp] theorem noteErr_boot (s : State) (p) (a) (b) : (noteErr s p a b).boot = s.boot := (noteErr_reported (ps := [p]) s a b (by simp)).1.boot
@[simp] theorem noteErr_cxl_memSpace (s : State) (p) (a) (b) : (noteErr s p a b).cxl.memSpace = s.cxl.memSpace := (noteErr_reported (ps := [p]) s a b (by simp)).1.cxl_memSpace
@[simp] theorem noteErr_cxl_busMaster (s : State) (p) (a) (b) : (noteErr s p a b).cxl.busMaster = s.cxl.busMaster := (noteErr_reported (ps := [p]) s a b (by simp)).1.cxl_busMaster
@[simp] theorem noteErr_cxl_parityResp (s : State) (p) (a) (b) : (noteErr s p a b).cxl.parityResp = s.cxl.parityResp := (noteErr_reported (ps := [p]) s a b (by simp)).1.cxl_parityResp
@[simp] theorem noteErr_cxl_serr (s : State) (p) (a) (b) : (noteErr s p a b).cxl.serr = s.cxl.serr := (noteErr_reported (ps := [p]) s a b (by simp)).1.cxl_serr
@[simp] theorem noteErr_cxl_intDisable (s : State) (p) (a) (b) : (noteErr s p a b).cxl.intDisable = s.cxl.intDisable := (noteErr_reported (ps := [p]) s a b (by simp)).1.cxl_intDisable
@[simp] theorem noteErr_cxl_msixEn (s : State) (p) (a) (b) : (noteErr s p a b).cxl.msixEn = s.cxl.msixEn := (noteErr_reported (ps := [p]) s a b (by simp)).1.cxl_msixEn
@[simp] theorem noteErr_cxl_funcMask (s : State) (p) (a) (b) : (noteErr s p a b).cxl.funcMask = s.cxl.funcMask := (noteErr_reported (ps := [p]) s a b (by simp)).1.cxl_funcMask
@[simp] theorem noteErr_cxl_relaxEn (s : State) (p) (a) (b) : (noteErr s p a b).cxl.relaxEn = s.cxl.relaxEn := (noteErr_reported (ps := [p]) s a b (by simp)).1.cxl_relaxEn
@[simp] theorem noteErr_cxl_l1En (s : State) (p) (a) (b) : (noteErr s p a b).cxl.l1En = s.cxl.l1En := (noteErr_reported (ps := [p]) s a b (by simp)).1.cxl_l1En
@[simp] theorem noteErr_cxl_cacheEn (s : State) (p) (a) (b) : (noteErr s p a b).cxl.cacheEn = s.cxl.cacheEn := (noteErr_reported (ps := [p]) s a b (by simp)).1.cxl_cacheEn
@[simp] theorem noteErr_cxl_memEn (s : State) (p) (a) (b) : (noteErr s p a b).cxl.memEn = s.cxl.memEn := (noteErr_reported (ps := [p]) s a b (by simp)).1.cxl_memEn
@[simp] theorem noteErr_cxl_disCache (s : State) (p) (a) (b) : (noteErr s p a b).cxl.disCache = s.cxl.disCache := (noteErr_reported (ps := [p]) s a b (by simp)).1.cxl_disCache
@[simp] theorem noteErr_cxl_cacheInvalid (s : State) (p) (a) (b) : (noteErr s p a b).cxl.cacheInvalid = s.cxl.cacheInvalid := (noteErr_reported (ps := [p]) s a b (by simp)).1.cxl_cacheInvalid
@[simp] theorem noteErr_cxl_wbWaiting (s : State) (p) (a) (b) : (noteErr s p a b).cxl.wbWaiting = s.cxl.wbWaiting := (noteErr_reported (ps := [p]) s a b (by simp)).1.cxl_wbWaiting
@[simp] theorem noteErr_cxl_intLine (s : State) (p) (a) (b) : (noteErr s p a b).cxl.intLine = s.cxl.intLine := (noteErr_reported (ps := [p]) s a b (by simp)).1.cxl_intLine
@[simp] theorem noteErr_cxl_bars (s : State) (p) (a) (b) : (noteErr s p a b).cxl.bars = s.cxl.bars := (noteErr_reported (ps := [p]) s a b (by simp)).1.cxl_bars
@[simp] theorem noteErr_cxl_subsystem (s : State) (p) (a) (b) : (noteErr s p a b).cxl.subsystem = s.cxl.subsystem := (noteErr_reported (ps := [p]) s a b (by simp)).1.cxl_subsystem
@[simp] theorem noteErr_cxl_d3hot (s : State) (p) (a) (b) : (noteErr s p a b).cxl.d3hot = s.cxl.d3hot := (noteErr_reported (ps := [p]) s a b (by simp)).1.cxl_d3hot
@[simp] theorem noteErr_cxl_ctoVal (s : State) (p) (a) (b) : (noteErr s p a b).cxl.ctoVal = s.cxl.ctoVal := (noteErr_reported (ps := [p]) s a b (by simp)).1.cxl_ctoVal
@[simp] theorem noteErr_cxl_ctoDis (s : State) (p) (a) (b) : (noteErr s p a b).cxl.ctoDis = s.cxl.ctoDis := (noteErr_reported (ps := [p]) s a b (by simp)).1.cxl_ctoDis
@[simp] theorem noteErr_cxl_link (s : State) (p) (a) (b) : (noteErr s p a b).cxl.link = s.cxl.link := (noteErr_reported (ps := [p]) s a b (by simp)).1.cxl_link
@[simp] theorem noteErr_cxl_l0pOk (s : State) (p) (a) (b) : (noteErr s p a b).cxl.l0pOk = s.cxl.l0pOk := (noteErr_reported (ps := [p]) s a b (by simp)).1.cxl_l0pOk
@[simp] theorem noteErr_cxl_d2h (s : State) (p) (a) (b) : (noteErr s p a b).cxl.d2h = s.cxl.d2h := (noteErr_reported (ps := [p]) s a b (by simp)).1.cxl_d2h
@[simp] theorem noteErr_cxl_wq (s : State) (p) (a) (b) : (noteErr s p a b).cxl.wq = s.cxl.wq := (noteErr_reported (ps := [p]) s a b (by simp)).1.cxl_wq
@[simp] theorem noteErr_cxl_inbound (s : State) (p) (a) (b) : (noteErr s p a b).cxl.inbound = s.cxl.inbound := (noteErr_reported (ps := [p]) s a b (by simp)).1.cxl_inbound
@[simp] theorem noteErr_cxl_flr (s : State) (p) (a) (b) : (noteErr s p a b).cxl.flr = s.cxl.flr := (noteErr_reported (ps := [p]) s a b (by simp)).1.cxl_flr
@[simp] theorem noteErr_cxl_aer (s : State) (p) (a) (b) : (noteErr s p a b).cxl.aer = s.cxl.aer := (noteErr_reported (ps := [p]) s a b (by simp)).1.cxl_aer
@[simp] theorem noteErr_cxl_uncommitting (s : State) (p) (a) (b) : (noteErr s p a b).cxl.uncommitting = s.cxl.uncommitting := (noteErr_reported (ps := [p]) s a b (by simp)).1.cxl_uncommitting
@[simp] theorem noteErr_fc_queue (s : State) (p) (a) (b) : (noteErr s p a b).fc.queue = s.fc.queue := (noteErr_reported (ps := [p]) s a b (by simp)).1.fc_queue
@[simp] theorem noteErr_fc_recNo (s : State) (p) (a) (b) : (noteErr s p a b).fc.recNo = s.fc.recNo := (noteErr_reported (ps := [p]) s a b (by simp)).1.fc_recNo
@[simp] theorem noteErr_fc_safe (s : State) (p) (a) (b) : (noteErr s p a b).fc.safe = s.fc.safe := (noteErr_reported (ps := [p]) s a b (by simp)).1.fc_safe
@[simp] theorem noteErr_fc_aliveStopped (s : State) (p) (a) (b) : (noteErr s p a b).fc.aliveStopped = s.fc.aliveStopped := (noteErr_reported (ps := [p]) s a b (by simp)).1.fc_aliveStopped
@[simp] theorem noteErr_fc_aliveRb (s : State) (p) (a) (b) : (noteErr s p a b).fc.aliveRb = s.fc.aliveRb := (noteErr_reported (ps := [p]) s a b (by simp)).1.fc_aliveRb
@[simp] theorem noteErr_fc_wdogSet (s : State) (p) (a) (b) : (noteErr s p a b).fc.wdogSet = s.fc.wdogSet := (noteErr_reported (ps := [p]) s a b (by simp)).1.fc_wdogSet
@[simp] theorem noteErr_fc_episodes (s : State) (p) (a) (b) : (noteErr s p a b).fc.episodes = s.fc.episodes := (noteErr_reported (ps := [p]) s a b (by simp)).1.fc_episodes
@[simp] theorem noteErr_fc_portsToFence (s : State) (p) (a) (b) : (noteErr s p a b).fc.portsToFence = s.fc.portsToFence := (noteErr_reported (ps := [p]) s a b (by simp)).1.fc_portsToFence
@[simp] theorem noteErr_fc_abortIds (s : State) (p) (a) (b) : (noteErr s p a b).fc.abortIds = s.fc.abortIds := (noteErr_reported (ps := [p]) s a b (by simp)).1.fc_abortIds
@[simp] theorem noteErr_lb_ring (s : State) (p) (a) (b) : (noteErr s p a b).lb.ring = s.lb.ring := (noteErr_reported (ps := [p]) s a b (by simp)).1.lb_ring
@[simp] theorem noteErr_lb_head (s : State) (p) (a) (b) : (noteErr s p a b).lb.head = s.lb.head := (noteErr_reported (ps := [p]) s a b (by simp)).1.lb_head
@[simp] theorem noteErr_lb_wrapped (s : State) (p) (a) (b) : (noteErr s p a b).lb.wrapped = s.lb.wrapped := (noteErr_reported (ps := [p]) s a b (by simp)).1.lb_wrapped
@[simp] theorem noteErr_lb_fresh (s : State) (p) (a) (b) : (noteErr s p a b).lb.fresh = s.lb.fresh := (noteErr_reported (ps := [p]) s a b (by simp)).1.lb_fresh
@[simp] theorem noteErr_lb_snap (s : State) (p) (a) (b) : (noteErr s p a b).lb.snap = s.lb.snap := (noteErr_reported (ps := [p]) s a b (by simp)).1.lb_snap
@[simp] theorem noteErr_lb_hostWaits (s : State) (p) (a) (b) : (noteErr s p a b).lb.hostWaits = s.lb.hostWaits := (noteErr_reported (ps := [p]) s a b (by simp)).1.lb_hostWaits
@[simp] theorem noteErr_lb_fatalWaits (s : State) (p) (a) (b) : (noteErr s p a b).lb.fatalWaits = s.lb.fatalWaits := (noteErr_reported (ps := [p]) s a b (by simp)).1.lb_fatalWaits
@[simp] theorem noteErr_lb_followUp (s : State) (p) (a) (b) : (noteErr s p a b).lb.followUp = s.lb.followUp := (noteErr_reported (ps := [p]) s a b (by simp)).1.lb_followUp
@[simp] theorem noteErr_lb_slots (s : State) (p) (a) (b) : (noteErr s p a b).lb.slots = s.lb.slots := (noteErr_reported (ps := [p]) s a b (by simp)).1.lb_slots
@[simp] theorem noteErr_lb_newest (s : State) (p) (a) (b) : (noteErr s p a b).lb.newest = s.lb.newest := (noteErr_reported (ps := [p]) s a b (by simp)).1.lb_newest

@[simp] theorem raiseErrX_pending (s : State) (p) (a) (b) (c) (l) (i) : (raiseErrX s p a b c l i).pending = s.pending := (raiseErrX_reported (ps := [p]) s a b c l i (by simp)).1.pending
@[simp] theorem raiseErrX_staged (s : State) (p) (a) (b) (c) (l) (i) : (raiseErrX s p a b c l i).staged = s.staged := (raiseErrX_reported (ps := [p]) s a b c l i (by simp)).1.staged
@[simp] theorem raiseErrX_captured (s : State) (p) (a) (b) (c) (l) (i) : (raiseErrX s p a b c l i).captured = s.captured := (raiseErrX_reported (ps := [p]) s a b c l i (by simp)).1.captured
@[simp] theorem raiseErrX_tide (s : State) (p) (a) (b) (c) (l) (i) : (raiseErrX s p a b c l i).tide = s.tide := (raiseErrX_reported (ps := [p]) s a b c l i (by simp)).1.tide
@[simp] theorem raiseErrX_cores (s : State) (p) (a) (b) (c) (l) (i) : (raiseErrX s p a b c l i).cores = s.cores := (raiseErrX_reported (ps := [p]) s a b c l i (by simp)).1.cores
@[simp] theorem raiseErrX_mesh (s : State) (p) (a) (b) (c) (l) (i) : (raiseErrX s p a b c l i).mesh = s.mesh := (raiseErrX_reported (ps := [p]) s a b c l i (by simp)).1.mesh
@[simp] theorem raiseErrX_fares (s : State) (p) (a) (b) (c) (l) (i) : (raiseErrX s p a b c l i).fares = s.fares := (raiseErrX_reported (ps := [p]) s a b c l i (by simp)).1.fares
@[simp] theorem raiseErrX_locks (s : State) (p) (a) (b) (c) (l) (i) : (raiseErrX s p a b c l i).locks = s.locks := (raiseErrX_reported (ps := [p]) s a b c l i (by simp)).1.locks
@[simp] theorem raiseErrX_sdChanged (s : State) (p) (a) (b) (c) (l) (i) : (raiseErrX s p a b c l i).sdChanged = s.sdChanged := (raiseErrX_reported (ps := [p]) s a b c l i (by simp)).1.sdChanged
@[simp] theorem raiseErrX_sdArmed (s : State) (p) (a) (b) (c) (l) (i) : (raiseErrX s p a b c l i).sdArmed = s.sdArmed := (raiseErrX_reported (ps := [p]) s a b c l i (by simp)).1.sdArmed
@[simp] theorem raiseErrX_clusters (s : State) (p) (a) (b) (c) (l) (i) : (raiseErrX s p a b c l i).clusters = s.clusters := (raiseErrX_reported (ps := [p]) s a b c l i (by simp)).1.clusters
@[simp] theorem raiseErrX_mailboxes (s : State) (p) (a) (b) (c) (l) (i) : (raiseErrX s p a b c l i).mailboxes = s.mailboxes := (raiseErrX_reported (ps := [p]) s a b c l i (by simp)).1.mailboxes
@[simp] theorem raiseErrX_bar4 (s : State) (p) (a) (b) (c) (l) (i) : (raiseErrX s p a b c l i).bar4 = s.bar4 := (raiseErrX_reported (ps := [p]) s a b c l i (by simp)).1.bar4
@[simp] theorem raiseErrX_xb (s : State) (p) (a) (b) (c) (l) (i) : (raiseErrX s p a b c l i).xb = s.xb := (raiseErrX_reported (ps := [p]) s a b c l i (by simp)).1.xb
@[simp] theorem raiseErrX_ctxs (s : State) (p) (a) (b) (c) (l) (i) : (raiseErrX s p a b c l i).ctxs = s.ctxs := (raiseErrX_reported (ps := [p]) s a b c l i (by simp)).1.ctxs
@[simp] theorem raiseErrX_drains (s : State) (p) (a) (b) (c) (l) (i) : (raiseErrX s p a b c l i).drains = s.drains := (raiseErrX_reported (ps := [p]) s a b c l i (by simp)).1.drains
@[simp] theorem raiseErrX_dm (s : State) (p) (a) (b) (c) (l) (i) : (raiseErrX s p a b c l i).dm = s.dm := (raiseErrX_reported (ps := [p]) s a b c l i (by simp)).1.dm
@[simp] theorem raiseErrX_poison (s : State) (p) (a) (b) (c) (l) (i) : (raiseErrX s p a b c l i).poison = s.poison := (raiseErrX_reported (ps := [p]) s a b c l i (by simp)).1.poison
@[simp] theorem raiseErrX_slices (s : State) (p) (a) (b) (c) (l) (i) : (raiseErrX s p a b c l i).slices = s.slices := (raiseErrX_reported (ps := [p]) s a b c l i (by simp)).1.slices
@[simp] theorem raiseErrX_lw (s : State) (p) (a) (b) (c) (l) (i) : (raiseErrX s p a b c l i).lw = s.lw := (raiseErrX_reported (ps := [p]) s a b c l i (by simp)).1.lw
@[simp] theorem raiseErrX_frz (s : State) (p) (a) (b) (c) (l) (i) : (raiseErrX s p a b c l i).frz = s.frz := (raiseErrX_reported (ps := [p]) s a b c l i (by simp)).1.frz
@[simp] theorem raiseErrX_ports (s : State) (p) (a) (b) (c) (l) (i) : (raiseErrX s p a b c l i).ports = s.ports := (raiseErrX_reported (ps := [p]) s a b c l i (by simp)).1.ports
@[simp] theorem raiseErrX_eqs (s : State) (p) (a) (b) (c) (l) (i) : (raiseErrX s p a b c l i).eqs = s.eqs := (raiseErrX_reported (ps := [p]) s a b c l i (by simp)).1.eqs
@[simp] theorem raiseErrX_scrubs (s : State) (p) (a) (b) (c) (l) (i) : (raiseErrX s p a b c l i).scrubs = s.scrubs := (raiseErrX_reported (ps := [p]) s a b c l i (by simp)).1.scrubs
@[simp] theorem raiseErrX_pl (s : State) (p) (a) (b) (c) (l) (i) : (raiseErrX s p a b c l i).pl = s.pl := (raiseErrX_reported (ps := [p]) s a b c l i (by simp)).1.pl
@[simp] theorem raiseErrX_gp (s : State) (p) (a) (b) (c) (l) (i) : (raiseErrX s p a b c l i).gp = s.gp := (raiseErrX_reported (ps := [p]) s a b c l i (by simp)).1.gp
@[simp] theorem raiseErrX_mod (s : State) (p) (a) (b) (c) (l) (i) : (raiseErrX s p a b c l i).mod = s.mod := (raiseErrX_reported (ps := [p]) s a b c l i (by simp)).1.mod
@[simp] theorem raiseErrX_boot (s : State) (p) (a) (b) (c) (l) (i) : (raiseErrX s p a b c l i).boot = s.boot := (raiseErrX_reported (ps := [p]) s a b c l i (by simp)).1.boot
@[simp] theorem raiseErrX_cxl_memSpace (s : State) (p) (a) (b) (c) (l) (i) : (raiseErrX s p a b c l i).cxl.memSpace = s.cxl.memSpace := (raiseErrX_reported (ps := [p]) s a b c l i (by simp)).1.cxl_memSpace
@[simp] theorem raiseErrX_cxl_busMaster (s : State) (p) (a) (b) (c) (l) (i) : (raiseErrX s p a b c l i).cxl.busMaster = s.cxl.busMaster := (raiseErrX_reported (ps := [p]) s a b c l i (by simp)).1.cxl_busMaster
@[simp] theorem raiseErrX_cxl_parityResp (s : State) (p) (a) (b) (c) (l) (i) : (raiseErrX s p a b c l i).cxl.parityResp = s.cxl.parityResp := (raiseErrX_reported (ps := [p]) s a b c l i (by simp)).1.cxl_parityResp
@[simp] theorem raiseErrX_cxl_serr (s : State) (p) (a) (b) (c) (l) (i) : (raiseErrX s p a b c l i).cxl.serr = s.cxl.serr := (raiseErrX_reported (ps := [p]) s a b c l i (by simp)).1.cxl_serr
@[simp] theorem raiseErrX_cxl_intDisable (s : State) (p) (a) (b) (c) (l) (i) : (raiseErrX s p a b c l i).cxl.intDisable = s.cxl.intDisable := (raiseErrX_reported (ps := [p]) s a b c l i (by simp)).1.cxl_intDisable
@[simp] theorem raiseErrX_cxl_msixEn (s : State) (p) (a) (b) (c) (l) (i) : (raiseErrX s p a b c l i).cxl.msixEn = s.cxl.msixEn := (raiseErrX_reported (ps := [p]) s a b c l i (by simp)).1.cxl_msixEn
@[simp] theorem raiseErrX_cxl_funcMask (s : State) (p) (a) (b) (c) (l) (i) : (raiseErrX s p a b c l i).cxl.funcMask = s.cxl.funcMask := (raiseErrX_reported (ps := [p]) s a b c l i (by simp)).1.cxl_funcMask
@[simp] theorem raiseErrX_cxl_relaxEn (s : State) (p) (a) (b) (c) (l) (i) : (raiseErrX s p a b c l i).cxl.relaxEn = s.cxl.relaxEn := (raiseErrX_reported (ps := [p]) s a b c l i (by simp)).1.cxl_relaxEn
@[simp] theorem raiseErrX_cxl_l1En (s : State) (p) (a) (b) (c) (l) (i) : (raiseErrX s p a b c l i).cxl.l1En = s.cxl.l1En := (raiseErrX_reported (ps := [p]) s a b c l i (by simp)).1.cxl_l1En
@[simp] theorem raiseErrX_cxl_cacheEn (s : State) (p) (a) (b) (c) (l) (i) : (raiseErrX s p a b c l i).cxl.cacheEn = s.cxl.cacheEn := (raiseErrX_reported (ps := [p]) s a b c l i (by simp)).1.cxl_cacheEn
@[simp] theorem raiseErrX_cxl_memEn (s : State) (p) (a) (b) (c) (l) (i) : (raiseErrX s p a b c l i).cxl.memEn = s.cxl.memEn := (raiseErrX_reported (ps := [p]) s a b c l i (by simp)).1.cxl_memEn
@[simp] theorem raiseErrX_cxl_disCache (s : State) (p) (a) (b) (c) (l) (i) : (raiseErrX s p a b c l i).cxl.disCache = s.cxl.disCache := (raiseErrX_reported (ps := [p]) s a b c l i (by simp)).1.cxl_disCache
@[simp] theorem raiseErrX_cxl_cacheInvalid (s : State) (p) (a) (b) (c) (l) (i) : (raiseErrX s p a b c l i).cxl.cacheInvalid = s.cxl.cacheInvalid := (raiseErrX_reported (ps := [p]) s a b c l i (by simp)).1.cxl_cacheInvalid
@[simp] theorem raiseErrX_cxl_wbWaiting (s : State) (p) (a) (b) (c) (l) (i) : (raiseErrX s p a b c l i).cxl.wbWaiting = s.cxl.wbWaiting := (raiseErrX_reported (ps := [p]) s a b c l i (by simp)).1.cxl_wbWaiting
@[simp] theorem raiseErrX_cxl_intLine (s : State) (p) (a) (b) (c) (l) (i) : (raiseErrX s p a b c l i).cxl.intLine = s.cxl.intLine := (raiseErrX_reported (ps := [p]) s a b c l i (by simp)).1.cxl_intLine
@[simp] theorem raiseErrX_cxl_bars (s : State) (p) (a) (b) (c) (l) (i) : (raiseErrX s p a b c l i).cxl.bars = s.cxl.bars := (raiseErrX_reported (ps := [p]) s a b c l i (by simp)).1.cxl_bars
@[simp] theorem raiseErrX_cxl_subsystem (s : State) (p) (a) (b) (c) (l) (i) : (raiseErrX s p a b c l i).cxl.subsystem = s.cxl.subsystem := (raiseErrX_reported (ps := [p]) s a b c l i (by simp)).1.cxl_subsystem
@[simp] theorem raiseErrX_cxl_d3hot (s : State) (p) (a) (b) (c) (l) (i) : (raiseErrX s p a b c l i).cxl.d3hot = s.cxl.d3hot := (raiseErrX_reported (ps := [p]) s a b c l i (by simp)).1.cxl_d3hot
@[simp] theorem raiseErrX_cxl_ctoVal (s : State) (p) (a) (b) (c) (l) (i) : (raiseErrX s p a b c l i).cxl.ctoVal = s.cxl.ctoVal := (raiseErrX_reported (ps := [p]) s a b c l i (by simp)).1.cxl_ctoVal
@[simp] theorem raiseErrX_cxl_ctoDis (s : State) (p) (a) (b) (c) (l) (i) : (raiseErrX s p a b c l i).cxl.ctoDis = s.cxl.ctoDis := (raiseErrX_reported (ps := [p]) s a b c l i (by simp)).1.cxl_ctoDis
@[simp] theorem raiseErrX_cxl_link (s : State) (p) (a) (b) (c) (l) (i) : (raiseErrX s p a b c l i).cxl.link = s.cxl.link := (raiseErrX_reported (ps := [p]) s a b c l i (by simp)).1.cxl_link
@[simp] theorem raiseErrX_cxl_l0pOk (s : State) (p) (a) (b) (c) (l) (i) : (raiseErrX s p a b c l i).cxl.l0pOk = s.cxl.l0pOk := (raiseErrX_reported (ps := [p]) s a b c l i (by simp)).1.cxl_l0pOk
@[simp] theorem raiseErrX_cxl_d2h (s : State) (p) (a) (b) (c) (l) (i) : (raiseErrX s p a b c l i).cxl.d2h = s.cxl.d2h := (raiseErrX_reported (ps := [p]) s a b c l i (by simp)).1.cxl_d2h
@[simp] theorem raiseErrX_cxl_wq (s : State) (p) (a) (b) (c) (l) (i) : (raiseErrX s p a b c l i).cxl.wq = s.cxl.wq := (raiseErrX_reported (ps := [p]) s a b c l i (by simp)).1.cxl_wq
@[simp] theorem raiseErrX_cxl_inbound (s : State) (p) (a) (b) (c) (l) (i) : (raiseErrX s p a b c l i).cxl.inbound = s.cxl.inbound := (raiseErrX_reported (ps := [p]) s a b c l i (by simp)).1.cxl_inbound
@[simp] theorem raiseErrX_cxl_flr (s : State) (p) (a) (b) (c) (l) (i) : (raiseErrX s p a b c l i).cxl.flr = s.cxl.flr := (raiseErrX_reported (ps := [p]) s a b c l i (by simp)).1.cxl_flr
@[simp] theorem raiseErrX_cxl_aer (s : State) (p) (a) (b) (c) (l) (i) : (raiseErrX s p a b c l i).cxl.aer = s.cxl.aer := (raiseErrX_reported (ps := [p]) s a b c l i (by simp)).1.cxl_aer
@[simp] theorem raiseErrX_cxl_uncommitting (s : State) (p) (a) (b) (c) (l) (i) : (raiseErrX s p a b c l i).cxl.uncommitting = s.cxl.uncommitting := (raiseErrX_reported (ps := [p]) s a b c l i (by simp)).1.cxl_uncommitting
@[simp] theorem raiseErrX_fc_queue (s : State) (p) (a) (b) (c) (l) (i) : (raiseErrX s p a b c l i).fc.queue = s.fc.queue := (raiseErrX_reported (ps := [p]) s a b c l i (by simp)).1.fc_queue
@[simp] theorem raiseErrX_fc_recNo (s : State) (p) (a) (b) (c) (l) (i) : (raiseErrX s p a b c l i).fc.recNo = s.fc.recNo := (raiseErrX_reported (ps := [p]) s a b c l i (by simp)).1.fc_recNo
@[simp] theorem raiseErrX_fc_safe (s : State) (p) (a) (b) (c) (l) (i) : (raiseErrX s p a b c l i).fc.safe = s.fc.safe := (raiseErrX_reported (ps := [p]) s a b c l i (by simp)).1.fc_safe
@[simp] theorem raiseErrX_fc_aliveStopped (s : State) (p) (a) (b) (c) (l) (i) : (raiseErrX s p a b c l i).fc.aliveStopped = s.fc.aliveStopped := (raiseErrX_reported (ps := [p]) s a b c l i (by simp)).1.fc_aliveStopped
@[simp] theorem raiseErrX_fc_aliveRb (s : State) (p) (a) (b) (c) (l) (i) : (raiseErrX s p a b c l i).fc.aliveRb = s.fc.aliveRb := (raiseErrX_reported (ps := [p]) s a b c l i (by simp)).1.fc_aliveRb
@[simp] theorem raiseErrX_fc_wdogSet (s : State) (p) (a) (b) (c) (l) (i) : (raiseErrX s p a b c l i).fc.wdogSet = s.fc.wdogSet := (raiseErrX_reported (ps := [p]) s a b c l i (by simp)).1.fc_wdogSet
@[simp] theorem raiseErrX_fc_episodes (s : State) (p) (a) (b) (c) (l) (i) : (raiseErrX s p a b c l i).fc.episodes = s.fc.episodes := (raiseErrX_reported (ps := [p]) s a b c l i (by simp)).1.fc_episodes
@[simp] theorem raiseErrX_fc_portsToFence (s : State) (p) (a) (b) (c) (l) (i) : (raiseErrX s p a b c l i).fc.portsToFence = s.fc.portsToFence := (raiseErrX_reported (ps := [p]) s a b c l i (by simp)).1.fc_portsToFence
@[simp] theorem raiseErrX_fc_abortIds (s : State) (p) (a) (b) (c) (l) (i) : (raiseErrX s p a b c l i).fc.abortIds = s.fc.abortIds := (raiseErrX_reported (ps := [p]) s a b c l i (by simp)).1.fc_abortIds
@[simp] theorem raiseErrX_lb_ring (s : State) (p) (a) (b) (c) (l) (i) : (raiseErrX s p a b c l i).lb.ring = s.lb.ring := (raiseErrX_reported (ps := [p]) s a b c l i (by simp)).1.lb_ring
@[simp] theorem raiseErrX_lb_head (s : State) (p) (a) (b) (c) (l) (i) : (raiseErrX s p a b c l i).lb.head = s.lb.head := (raiseErrX_reported (ps := [p]) s a b c l i (by simp)).1.lb_head
@[simp] theorem raiseErrX_lb_wrapped (s : State) (p) (a) (b) (c) (l) (i) : (raiseErrX s p a b c l i).lb.wrapped = s.lb.wrapped := (raiseErrX_reported (ps := [p]) s a b c l i (by simp)).1.lb_wrapped
@[simp] theorem raiseErrX_lb_fresh (s : State) (p) (a) (b) (c) (l) (i) : (raiseErrX s p a b c l i).lb.fresh = s.lb.fresh := (raiseErrX_reported (ps := [p]) s a b c l i (by simp)).1.lb_fresh
@[simp] theorem raiseErrX_lb_snap (s : State) (p) (a) (b) (c) (l) (i) : (raiseErrX s p a b c l i).lb.snap = s.lb.snap := (raiseErrX_reported (ps := [p]) s a b c l i (by simp)).1.lb_snap
@[simp] theorem raiseErrX_lb_hostWaits (s : State) (p) (a) (b) (c) (l) (i) : (raiseErrX s p a b c l i).lb.hostWaits = s.lb.hostWaits := (raiseErrX_reported (ps := [p]) s a b c l i (by simp)).1.lb_hostWaits
@[simp] theorem raiseErrX_lb_fatalWaits (s : State) (p) (a) (b) (c) (l) (i) : (raiseErrX s p a b c l i).lb.fatalWaits = s.lb.fatalWaits := (raiseErrX_reported (ps := [p]) s a b c l i (by simp)).1.lb_fatalWaits
@[simp] theorem raiseErrX_lb_followUp (s : State) (p) (a) (b) (c) (l) (i) : (raiseErrX s p a b c l i).lb.followUp = s.lb.followUp := (raiseErrX_reported (ps := [p]) s a b c l i (by simp)).1.lb_followUp
@[simp] theorem raiseErrX_lb_slots (s : State) (p) (a) (b) (c) (l) (i) : (raiseErrX s p a b c l i).lb.slots = s.lb.slots := (raiseErrX_reported (ps := [p]) s a b c l i (by simp)).1.lb_slots
@[simp] theorem raiseErrX_lb_newest (s : State) (p) (a) (b) (c) (l) (i) : (raiseErrX s p a b c l i).lb.newest = s.lb.newest := (raiseErrX_reported (ps := [p]) s a b c l i (by simp)).1.lb_newest

@[simp] theorem raiseErr_pending (s : State) (p) (a) (b) : (raiseErr s p a b).pending = s.pending := (raiseErr_reported (ps := [p]) s a b (by simp)).1.pending
@[simp] theorem raiseErr_staged (s : State) (p) (a) (b) : (raiseErr s p a b).staged = s.staged := (raiseErr_reported (ps := [p]) s a b (by simp)).1.staged
@[simp] theorem raiseErr_captured (s : State) (p) (a) (b) : (raiseErr s p a b).captured = s.captured := (raiseErr_reported (ps := [p]) s a b (by simp)).1.captured
@[simp] theorem raiseErr_tide (s : State) (p) (a) (b) : (raiseErr s p a b).tide = s.tide := (raiseErr_reported (ps := [p]) s a b (by simp)).1.tide
@[simp] theorem raiseErr_cores (s : State) (p) (a) (b) : (raiseErr s p a b).cores = s.cores := (raiseErr_reported (ps := [p]) s a b (by simp)).1.cores
@[simp] theorem raiseErr_mesh (s : State) (p) (a) (b) : (raiseErr s p a b).mesh = s.mesh := (raiseErr_reported (ps := [p]) s a b (by simp)).1.mesh
@[simp] theorem raiseErr_fares (s : State) (p) (a) (b) : (raiseErr s p a b).fares = s.fares := (raiseErr_reported (ps := [p]) s a b (by simp)).1.fares
@[simp] theorem raiseErr_locks (s : State) (p) (a) (b) : (raiseErr s p a b).locks = s.locks := (raiseErr_reported (ps := [p]) s a b (by simp)).1.locks
@[simp] theorem raiseErr_sdChanged (s : State) (p) (a) (b) : (raiseErr s p a b).sdChanged = s.sdChanged := (raiseErr_reported (ps := [p]) s a b (by simp)).1.sdChanged
@[simp] theorem raiseErr_sdArmed (s : State) (p) (a) (b) : (raiseErr s p a b).sdArmed = s.sdArmed := (raiseErr_reported (ps := [p]) s a b (by simp)).1.sdArmed
@[simp] theorem raiseErr_clusters (s : State) (p) (a) (b) : (raiseErr s p a b).clusters = s.clusters := (raiseErr_reported (ps := [p]) s a b (by simp)).1.clusters
@[simp] theorem raiseErr_mailboxes (s : State) (p) (a) (b) : (raiseErr s p a b).mailboxes = s.mailboxes := (raiseErr_reported (ps := [p]) s a b (by simp)).1.mailboxes
@[simp] theorem raiseErr_bar4 (s : State) (p) (a) (b) : (raiseErr s p a b).bar4 = s.bar4 := (raiseErr_reported (ps := [p]) s a b (by simp)).1.bar4
@[simp] theorem raiseErr_xb (s : State) (p) (a) (b) : (raiseErr s p a b).xb = s.xb := (raiseErr_reported (ps := [p]) s a b (by simp)).1.xb
@[simp] theorem raiseErr_ctxs (s : State) (p) (a) (b) : (raiseErr s p a b).ctxs = s.ctxs := (raiseErr_reported (ps := [p]) s a b (by simp)).1.ctxs
@[simp] theorem raiseErr_drains (s : State) (p) (a) (b) : (raiseErr s p a b).drains = s.drains := (raiseErr_reported (ps := [p]) s a b (by simp)).1.drains
@[simp] theorem raiseErr_dm (s : State) (p) (a) (b) : (raiseErr s p a b).dm = s.dm := (raiseErr_reported (ps := [p]) s a b (by simp)).1.dm
@[simp] theorem raiseErr_poison (s : State) (p) (a) (b) : (raiseErr s p a b).poison = s.poison := (raiseErr_reported (ps := [p]) s a b (by simp)).1.poison
@[simp] theorem raiseErr_slices (s : State) (p) (a) (b) : (raiseErr s p a b).slices = s.slices := (raiseErr_reported (ps := [p]) s a b (by simp)).1.slices
@[simp] theorem raiseErr_lw (s : State) (p) (a) (b) : (raiseErr s p a b).lw = s.lw := (raiseErr_reported (ps := [p]) s a b (by simp)).1.lw
@[simp] theorem raiseErr_frz (s : State) (p) (a) (b) : (raiseErr s p a b).frz = s.frz := (raiseErr_reported (ps := [p]) s a b (by simp)).1.frz
@[simp] theorem raiseErr_ports (s : State) (p) (a) (b) : (raiseErr s p a b).ports = s.ports := (raiseErr_reported (ps := [p]) s a b (by simp)).1.ports
@[simp] theorem raiseErr_eqs (s : State) (p) (a) (b) : (raiseErr s p a b).eqs = s.eqs := (raiseErr_reported (ps := [p]) s a b (by simp)).1.eqs
@[simp] theorem raiseErr_scrubs (s : State) (p) (a) (b) : (raiseErr s p a b).scrubs = s.scrubs := (raiseErr_reported (ps := [p]) s a b (by simp)).1.scrubs
@[simp] theorem raiseErr_pl (s : State) (p) (a) (b) : (raiseErr s p a b).pl = s.pl := (raiseErr_reported (ps := [p]) s a b (by simp)).1.pl
@[simp] theorem raiseErr_gp (s : State) (p) (a) (b) : (raiseErr s p a b).gp = s.gp := (raiseErr_reported (ps := [p]) s a b (by simp)).1.gp
@[simp] theorem raiseErr_mod (s : State) (p) (a) (b) : (raiseErr s p a b).mod = s.mod := (raiseErr_reported (ps := [p]) s a b (by simp)).1.mod
@[simp] theorem raiseErr_boot (s : State) (p) (a) (b) : (raiseErr s p a b).boot = s.boot := (raiseErr_reported (ps := [p]) s a b (by simp)).1.boot
@[simp] theorem raiseErr_cxl_memSpace (s : State) (p) (a) (b) : (raiseErr s p a b).cxl.memSpace = s.cxl.memSpace := (raiseErr_reported (ps := [p]) s a b (by simp)).1.cxl_memSpace
@[simp] theorem raiseErr_cxl_busMaster (s : State) (p) (a) (b) : (raiseErr s p a b).cxl.busMaster = s.cxl.busMaster := (raiseErr_reported (ps := [p]) s a b (by simp)).1.cxl_busMaster
@[simp] theorem raiseErr_cxl_parityResp (s : State) (p) (a) (b) : (raiseErr s p a b).cxl.parityResp = s.cxl.parityResp := (raiseErr_reported (ps := [p]) s a b (by simp)).1.cxl_parityResp
@[simp] theorem raiseErr_cxl_serr (s : State) (p) (a) (b) : (raiseErr s p a b).cxl.serr = s.cxl.serr := (raiseErr_reported (ps := [p]) s a b (by simp)).1.cxl_serr
@[simp] theorem raiseErr_cxl_intDisable (s : State) (p) (a) (b) : (raiseErr s p a b).cxl.intDisable = s.cxl.intDisable := (raiseErr_reported (ps := [p]) s a b (by simp)).1.cxl_intDisable
@[simp] theorem raiseErr_cxl_msixEn (s : State) (p) (a) (b) : (raiseErr s p a b).cxl.msixEn = s.cxl.msixEn := (raiseErr_reported (ps := [p]) s a b (by simp)).1.cxl_msixEn
@[simp] theorem raiseErr_cxl_funcMask (s : State) (p) (a) (b) : (raiseErr s p a b).cxl.funcMask = s.cxl.funcMask := (raiseErr_reported (ps := [p]) s a b (by simp)).1.cxl_funcMask
@[simp] theorem raiseErr_cxl_relaxEn (s : State) (p) (a) (b) : (raiseErr s p a b).cxl.relaxEn = s.cxl.relaxEn := (raiseErr_reported (ps := [p]) s a b (by simp)).1.cxl_relaxEn
@[simp] theorem raiseErr_cxl_l1En (s : State) (p) (a) (b) : (raiseErr s p a b).cxl.l1En = s.cxl.l1En := (raiseErr_reported (ps := [p]) s a b (by simp)).1.cxl_l1En
@[simp] theorem raiseErr_cxl_cacheEn (s : State) (p) (a) (b) : (raiseErr s p a b).cxl.cacheEn = s.cxl.cacheEn := (raiseErr_reported (ps := [p]) s a b (by simp)).1.cxl_cacheEn
@[simp] theorem raiseErr_cxl_memEn (s : State) (p) (a) (b) : (raiseErr s p a b).cxl.memEn = s.cxl.memEn := (raiseErr_reported (ps := [p]) s a b (by simp)).1.cxl_memEn
@[simp] theorem raiseErr_cxl_disCache (s : State) (p) (a) (b) : (raiseErr s p a b).cxl.disCache = s.cxl.disCache := (raiseErr_reported (ps := [p]) s a b (by simp)).1.cxl_disCache
@[simp] theorem raiseErr_cxl_cacheInvalid (s : State) (p) (a) (b) : (raiseErr s p a b).cxl.cacheInvalid = s.cxl.cacheInvalid := (raiseErr_reported (ps := [p]) s a b (by simp)).1.cxl_cacheInvalid
@[simp] theorem raiseErr_cxl_wbWaiting (s : State) (p) (a) (b) : (raiseErr s p a b).cxl.wbWaiting = s.cxl.wbWaiting := (raiseErr_reported (ps := [p]) s a b (by simp)).1.cxl_wbWaiting
@[simp] theorem raiseErr_cxl_intLine (s : State) (p) (a) (b) : (raiseErr s p a b).cxl.intLine = s.cxl.intLine := (raiseErr_reported (ps := [p]) s a b (by simp)).1.cxl_intLine
@[simp] theorem raiseErr_cxl_bars (s : State) (p) (a) (b) : (raiseErr s p a b).cxl.bars = s.cxl.bars := (raiseErr_reported (ps := [p]) s a b (by simp)).1.cxl_bars
@[simp] theorem raiseErr_cxl_subsystem (s : State) (p) (a) (b) : (raiseErr s p a b).cxl.subsystem = s.cxl.subsystem := (raiseErr_reported (ps := [p]) s a b (by simp)).1.cxl_subsystem
@[simp] theorem raiseErr_cxl_d3hot (s : State) (p) (a) (b) : (raiseErr s p a b).cxl.d3hot = s.cxl.d3hot := (raiseErr_reported (ps := [p]) s a b (by simp)).1.cxl_d3hot
@[simp] theorem raiseErr_cxl_ctoVal (s : State) (p) (a) (b) : (raiseErr s p a b).cxl.ctoVal = s.cxl.ctoVal := (raiseErr_reported (ps := [p]) s a b (by simp)).1.cxl_ctoVal
@[simp] theorem raiseErr_cxl_ctoDis (s : State) (p) (a) (b) : (raiseErr s p a b).cxl.ctoDis = s.cxl.ctoDis := (raiseErr_reported (ps := [p]) s a b (by simp)).1.cxl_ctoDis
@[simp] theorem raiseErr_cxl_link (s : State) (p) (a) (b) : (raiseErr s p a b).cxl.link = s.cxl.link := (raiseErr_reported (ps := [p]) s a b (by simp)).1.cxl_link
@[simp] theorem raiseErr_cxl_l0pOk (s : State) (p) (a) (b) : (raiseErr s p a b).cxl.l0pOk = s.cxl.l0pOk := (raiseErr_reported (ps := [p]) s a b (by simp)).1.cxl_l0pOk
@[simp] theorem raiseErr_cxl_d2h (s : State) (p) (a) (b) : (raiseErr s p a b).cxl.d2h = s.cxl.d2h := (raiseErr_reported (ps := [p]) s a b (by simp)).1.cxl_d2h
@[simp] theorem raiseErr_cxl_wq (s : State) (p) (a) (b) : (raiseErr s p a b).cxl.wq = s.cxl.wq := (raiseErr_reported (ps := [p]) s a b (by simp)).1.cxl_wq
@[simp] theorem raiseErr_cxl_inbound (s : State) (p) (a) (b) : (raiseErr s p a b).cxl.inbound = s.cxl.inbound := (raiseErr_reported (ps := [p]) s a b (by simp)).1.cxl_inbound
@[simp] theorem raiseErr_cxl_flr (s : State) (p) (a) (b) : (raiseErr s p a b).cxl.flr = s.cxl.flr := (raiseErr_reported (ps := [p]) s a b (by simp)).1.cxl_flr
@[simp] theorem raiseErr_cxl_aer (s : State) (p) (a) (b) : (raiseErr s p a b).cxl.aer = s.cxl.aer := (raiseErr_reported (ps := [p]) s a b (by simp)).1.cxl_aer
@[simp] theorem raiseErr_cxl_uncommitting (s : State) (p) (a) (b) : (raiseErr s p a b).cxl.uncommitting = s.cxl.uncommitting := (raiseErr_reported (ps := [p]) s a b (by simp)).1.cxl_uncommitting
@[simp] theorem raiseErr_fc_queue (s : State) (p) (a) (b) : (raiseErr s p a b).fc.queue = s.fc.queue := (raiseErr_reported (ps := [p]) s a b (by simp)).1.fc_queue
@[simp] theorem raiseErr_fc_recNo (s : State) (p) (a) (b) : (raiseErr s p a b).fc.recNo = s.fc.recNo := (raiseErr_reported (ps := [p]) s a b (by simp)).1.fc_recNo
@[simp] theorem raiseErr_fc_safe (s : State) (p) (a) (b) : (raiseErr s p a b).fc.safe = s.fc.safe := (raiseErr_reported (ps := [p]) s a b (by simp)).1.fc_safe
@[simp] theorem raiseErr_fc_aliveStopped (s : State) (p) (a) (b) : (raiseErr s p a b).fc.aliveStopped = s.fc.aliveStopped := (raiseErr_reported (ps := [p]) s a b (by simp)).1.fc_aliveStopped
@[simp] theorem raiseErr_fc_aliveRb (s : State) (p) (a) (b) : (raiseErr s p a b).fc.aliveRb = s.fc.aliveRb := (raiseErr_reported (ps := [p]) s a b (by simp)).1.fc_aliveRb
@[simp] theorem raiseErr_fc_wdogSet (s : State) (p) (a) (b) : (raiseErr s p a b).fc.wdogSet = s.fc.wdogSet := (raiseErr_reported (ps := [p]) s a b (by simp)).1.fc_wdogSet
@[simp] theorem raiseErr_fc_episodes (s : State) (p) (a) (b) : (raiseErr s p a b).fc.episodes = s.fc.episodes := (raiseErr_reported (ps := [p]) s a b (by simp)).1.fc_episodes
@[simp] theorem raiseErr_fc_portsToFence (s : State) (p) (a) (b) : (raiseErr s p a b).fc.portsToFence = s.fc.portsToFence := (raiseErr_reported (ps := [p]) s a b (by simp)).1.fc_portsToFence
@[simp] theorem raiseErr_fc_abortIds (s : State) (p) (a) (b) : (raiseErr s p a b).fc.abortIds = s.fc.abortIds := (raiseErr_reported (ps := [p]) s a b (by simp)).1.fc_abortIds
@[simp] theorem raiseErr_lb_ring (s : State) (p) (a) (b) : (raiseErr s p a b).lb.ring = s.lb.ring := (raiseErr_reported (ps := [p]) s a b (by simp)).1.lb_ring
@[simp] theorem raiseErr_lb_head (s : State) (p) (a) (b) : (raiseErr s p a b).lb.head = s.lb.head := (raiseErr_reported (ps := [p]) s a b (by simp)).1.lb_head
@[simp] theorem raiseErr_lb_wrapped (s : State) (p) (a) (b) : (raiseErr s p a b).lb.wrapped = s.lb.wrapped := (raiseErr_reported (ps := [p]) s a b (by simp)).1.lb_wrapped
@[simp] theorem raiseErr_lb_fresh (s : State) (p) (a) (b) : (raiseErr s p a b).lb.fresh = s.lb.fresh := (raiseErr_reported (ps := [p]) s a b (by simp)).1.lb_fresh
@[simp] theorem raiseErr_lb_snap (s : State) (p) (a) (b) : (raiseErr s p a b).lb.snap = s.lb.snap := (raiseErr_reported (ps := [p]) s a b (by simp)).1.lb_snap
@[simp] theorem raiseErr_lb_hostWaits (s : State) (p) (a) (b) : (raiseErr s p a b).lb.hostWaits = s.lb.hostWaits := (raiseErr_reported (ps := [p]) s a b (by simp)).1.lb_hostWaits
@[simp] theorem raiseErr_lb_fatalWaits (s : State) (p) (a) (b) : (raiseErr s p a b).lb.fatalWaits = s.lb.fatalWaits := (raiseErr_reported (ps := [p]) s a b (by simp)).1.lb_fatalWaits
@[simp] theorem raiseErr_lb_followUp (s : State) (p) (a) (b) : (raiseErr s p a b).lb.followUp = s.lb.followUp := (raiseErr_reported (ps := [p]) s a b (by simp)).1.lb_followUp
@[simp] theorem raiseErr_lb_slots (s : State) (p) (a) (b) : (raiseErr s p a b).lb.slots = s.lb.slots := (raiseErr_reported (ps := [p]) s a b (by simp)).1.lb_slots
@[simp] theorem raiseErr_lb_newest (s : State) (p) (a) (b) : (raiseErr s p a b).lb.newest = s.lb.newest := (raiseErr_reported (ps := [p]) s a b (by simp)).1.lb_newest

end Sys2Proof
end

