-- ==== Sys2Proof/Laws/InvBase.lean ====
section
/-! SUPPORT. The rules by which the lemmas of the other Inv files are proved: a state that differs only in parts the invariant does not speak of,
and repeated operations. -/

set_option Elab.async false

namespace Sys2Proof.Machine

open Sys2Proof

/-- The invariant holds of the state an outcome goes to, if it goes to one. -/
def NextInv (r : Res) : Prop :=
  match r with
  | .next t => Inv t
  | _ => True

theorem nextInv_next {t : State} (h : Inv t) : NextInv (.next t) := h

theorem nextInv_refused (r : Refusal) : NextInv (.refused r) := trivial

/-- Parts the invariant does not speak of do not matter. -/
theorem inv_frame {e : State} {pending out fresh tide cores mesh fares locks sdChanged sdArmed clusters mailboxes xb ctxs drains slices lw cxl frz
    ports eqs scrubs pl fc lb gp mod boot} (h : Inv e) (hq : fc.queue = e.fc.queue) (hi : lb.inq = e.lb.inq) (hr : frz.report = e.frz.report) :
    Inv (State.mk pending out fresh e.regs e.staged e.captured tide cores mesh fares locks sdChanged sdArmed clusters mailboxes e.bar4 xb ctxs drains
      e.dm e.poison slices lw cxl frz ports eqs scrubs pl fc lb gp mod boot) :=
  ⟨h.regs, h.staged, h.captured, h.dm, h.poison, h.bar4, by rw [hq]; exact h.queue, by rw [hi]; exact h.inq, by rw [hr]; exact h.report⟩

theorem inv_ite {c : Prop} [Decidable c] {s t : State} (hs : c → Inv s) (ht : ¬c → Inv t) : Inv (if c then s else t) := by
  split
  · exact hs ‹_›
  · exact ht ‹_›

theorem takeFresh_inv {s : State} (h : Inv s) : Inv (takeFresh s).2 := inv_frame h rfl rfl rfl

theorem inv_staged {s : State} (k v) (h : Inv s) : Inv { s with staged := sset (fun _ => 0) s.staged k v } :=
  ⟨h.regs, sset_wf _ _ _ _ h.staged, h.captured, h.dm, h.poison, h.bar4, h.queue, h.inq, h.report⟩

theorem inv_captured {s : State} (k v) (h : Inv s) : Inv { s with captured := sset (fun _ => 0) s.captured k v } :=
  ⟨h.regs, h.staged, sset_wf _ _ _ _ h.captured, h.dm, h.poison, h.bar4, h.queue, h.inq, h.report⟩

/-- An operation that keeps the invariant keeps it when repeated. -/
theorem foldl_inv {α : Type} {g : State → α → State} (hg : ∀ s a, Inv s → Inv (g s a)) (l : List α) {s : State} (h : Inv s) :
    Inv (l.foldl g s) := by
  induction l generalizing s with
  | nil => exact h
  | cons a l ih => exact ih (hg s a h)

/-- The same for an operation that carries a second result. -/
theorem foldl_inv1 {α β : Type} {g : State × β → α → State × β} (hg : ∀ s a, Inv s.1 → Inv (g s a).1) (l : List α) {s : State × β}
    (h : Inv s.1) : Inv (l.foldl g s).1 := by
  induction l generalizing s with
  | nil => exact h
  | cons a l ih => exact ih (hg s a h)

end Sys2Proof.Machine
end

