-- ==== Sys2Proof/Laws/InvOps.lean ====
section
/-! SUPPORT. Every operation of Machine/Ops.lean keeps the invariant. -/

set_option Elab.async false

namespace Sys2Proof.Machine

open Sys2Proof

theorem State.setReg_inv {s : State} (a v) (h : Inv s) : Inv (s.setReg a v) :=
  ⟨sset_wf _ _ _ _ h.regs, h.staged, h.captured, h.dm, h.poison, h.bar4, h.queue, h.inq, h.report⟩

theorem setPreg_inv {a1 : State} (a2) (a3) (a4) (ha1 : Inv a1) : Inv (setPreg a1 a2 a3 a4) := by
  unfold setPreg
  repeat' first
      | with_reducible assumption | with_reducible apply State.setReg_inv | intro _

theorem setPreg64_inv {a1 : State} (a2) (a3) (a4) (ha1 : Inv a1) : Inv (setPreg64 a1 a2 a3 a4) := by
  unfold setPreg64
  repeat' first
      | with_reducible assumption | with_reducible apply setPreg_inv | intro _

theorem orPreg_inv {a1 : State} (a2) (a3) (a4) (ha1 : Inv a1) : Inv (orPreg a1 a2 a3 a4) := by
  unfold orPreg
  repeat' first
      | with_reducible assumption | with_reducible apply setPreg_inv | intro _

theorem clrPreg_inv {a1 : State} (a2) (a3) (a4) (ha1 : Inv a1) : Inv (clrPreg a1 a2 a3 a4) := by
  unfold clrPreg
  repeat' first
      | with_reducible assumption | with_reducible apply setPreg_inv | intro _

theorem cntPreg_inv {a1 : State} (a2) (a3) (a4) (ha1 : Inv a1) : Inv (cntPreg a1 a2 a3 a4) := by
  unfold cntPreg
  repeat' first
      | with_reducible assumption | with_reducible apply setPreg_inv | intro _

theorem cntPreg64_inv {a1 : State} (a2) (a3) (a4) (ha1 : Inv a1) : Inv (cntPreg64 a1 a2 a3 a4) := by
  unfold cntPreg64
  repeat' first
      | with_reducible assumption | with_reducible apply setPreg64_inv | intro _

theorem emit_inv {a1 : State} (a2) (ha1 : Inv a1) : Inv (emit a1 a2) := by
  unfold emit
  repeat' first
      | with_reducible assumption | intro _ | fail_if_no_progress with_reducible refine inv_frame ?_ rfl rfl rfl

theorem when_inv (a1) {a2 : State → State} {a3 : State} (ha2 : ∀ u, Inv u → Inv (a2 u)) (ha3 : Inv a3) : Inv (when a1 a2 a3) := by
  unfold when
  repeat' first
      | with_reducible assumption | with_reducible apply ha2 | intro _ | with_reducible apply inv_ite | split

theorem State.setCoreRaw_inv {a1 : State} (a2) (a3) (ha1 : Inv a1) : Inv (State.setCoreRaw a1 a2 a3) := by
  unfold State.setCoreRaw
  repeat' first
      | with_reducible assumption | intro _ | fail_if_no_progress with_reducible refine inv_frame ?_ rfl rfl rfl

theorem State.setCl_inv {a1 : State} (a2) (a3) (ha1 : Inv a1) : Inv (State.setCl a1 a2 a3) := by
  unfold State.setCl
  repeat' first
      | with_reducible assumption | intro _ | fail_if_no_progress with_reducible refine inv_frame ?_ rfl rfl rfl

theorem State.setSlice_inv {a1 : State} (a2) (a3) (ha1 : Inv a1) : Inv (State.setSlice a1 a2 a3) := by
  unfold State.setSlice
  repeat' first
      | with_reducible assumption | intro _ | fail_if_no_progress with_reducible refine inv_frame ?_ rfl rfl rfl

theorem State.setPort_inv {a1 : State} (a2) (a3) (ha1 : Inv a1) : Inv (State.setPort a1 a2 a3) := by
  unfold State.setPort
  repeat' first
      | with_reducible assumption | intro _ | fail_if_no_progress with_reducible refine inv_frame ?_ rfl rfl rfl

theorem sendMsix_inv {a1 : State} (a2) (ha1 : Inv a1) : Inv (sendMsix a1 a2) := by
  unfold sendMsix
  repeat' first
      | with_reducible assumption | with_reducible apply emit_inv | with_reducible apply orPreg_inv | intro _ | with_reducible apply inv_ite
      | split | fail_if_no_progress with_reducible refine inv_frame ?_ rfl rfl rfl

theorem updateInta_inv {a1 : State} (ha1 : Inv a1) : Inv (updateInta a1) := by
  unfold updateInta
  repeat' first
      | with_reducible assumption | with_reducible apply emit_inv | extract_lets | intro _ | with_reducible apply inv_ite | split
      | fail_if_no_progress with_reducible refine inv_frame ?_ rfl rfl rfl | dsimp +zetaDelta only

theorem irqEdge_inv (a1) (a2) {a3 : State} (ha3 : Inv a3) : Inv (irqEdge a1 a2 a3) := by
  unfold irqEdge
  repeat' first
      | with_reducible assumption | with_reducible apply updateInta_inv | with_reducible apply sendMsix_inv | with_reducible apply foldl_inv
      | with_reducible apply foldl_inv1 | intro _ | with_reducible apply inv_ite | split

theorem raiseInt_inv {a1 : State} (a2) (a3) (ha1 : Inv a1) : Inv (raiseInt a1 a2 a3) := by
  unfold raiseInt
  repeat' first
      | with_reducible assumption | with_reducible apply irqEdge_inv | with_reducible apply orPreg_inv | intro _

theorem goDone_inv {a1 : State} (a2) (a3) (a4) (ha1 : Inv a1) : Inv (goDone a1 a2 a3 a4) := by
  unfold goDone
  repeat' first
      | with_reducible assumption | with_reducible apply raiseInt_inv | with_reducible apply clrPreg_inv | with_reducible apply orPreg_inv
      | extract_lets | intro _ | split | dsimp +zetaDelta only

theorem pageErrMore_inv {a1 : State} (a2) (a3) (ha1 : Inv a1) : Inv (pageErrMore a1 a2 a3) := by
  unfold pageErrMore
  repeat' first
      | with_reducible assumption | with_reducible apply raiseInt_inv | with_reducible apply orPreg_inv | intro _

theorem pageErr_inv {a1 : State} (a2) (a3) (a4) (ha1 : Inv a1) : Inv (pageErr a1 a2 a3 a4) := by
  unfold pageErr
  repeat' first
      | with_reducible assumption | with_reducible apply raiseInt_inv | with_reducible apply setPreg_inv | extract_lets | intro _
      | with_reducible apply inv_ite | split | dsimp +zetaDelta only

theorem rejectEnable_inv {a1 : State} (a2) (a3) (a4) (ha1 : Inv a1) : Inv (rejectEnable a1 a2 a3 a4) := by
  unfold rejectEnable
  repeat' first
      | with_reducible assumption | with_reducible apply pageErr_inv | with_reducible apply pageErrMore_inv
      | with_reducible apply clrPreg_inv | extract_lets | intro _ | with_reducible apply inv_ite | split | dsimp +zetaDelta only

theorem offerEntry_inv {s : State} (e) (h : Inv s) : Inv (offerEntry s e) := by
  unfold offerEntry
  split
  · next hl => exact ⟨h.regs, h.staged, h.captured, h.dm, h.poison, h.bar4, h.queue, by simp only [List.length_append, List.length_singleton]; omega,
      h.report⟩
  · exact inv_frame (cntPreg_inv _ _ _ h) rfl rfl rfl

theorem offer_inv {a1 : State} (a2) (a3) (a4) (a5) (ha1 : Inv a1) : Inv (offer a1 a2 a3 a4 a5) := by
  unfold offer
  repeat' first
      | with_reducible assumption | with_reducible apply offerEntry_inv | intro _

theorem insertEntry_length (e : BitVec 256) (l : List (BitVec 256)) : (insertEntry e l).length = l.length + 1 := by
  induction l with
  | nil => rfl
  | cons x l ih =>
    unfold insertEntry
    split
    · rfl
    · simp only [List.length_cons, ih]

theorem insertAll_length (l m : List (BitVec 256)) : (l.foldl (fun a e => insertEntry e a) m).length = l.length + m.length := by
  induction l generalizing m with
  | nil => simp
  | cons x l ih =>
    rw [List.foldl_cons, ih, insertEntry_length, List.length_cons]
    omega

theorem entriesInOrder_inv (n) {s : State} (h : Inv s) : Inv (entriesInOrder n s) := by
  refine ⟨h.regs, h.staged, h.captured, h.dm, h.poison, h.bar4, h.queue, ?_, h.report⟩
  have := h.inq
  show (s.lb.inq.take n ++ (s.lb.inq.drop n).foldl (fun l e => insertEntry e l) []).length ≤ 256
  rw [List.length_append, insertAll_length, List.length_take, List.length_drop, List.length_nil]
  omega

theorem logBootWith_inv {a1 : State} (a2) (a3) (a4) (a5) (ha1 : Inv a1) : Inv (logBootWith a1 a2 a3 a4 a5) := by
  unfold logBootWith
  repeat' first
      | with_reducible assumption | with_reducible apply offer_inv | intro _

theorem logBoot_inv {a1 : State} (a2) (a3) (a4) (ha1 : Inv a1) : Inv (logBoot a1 a2 a3 a4) := by
  unfold logBoot
  repeat' first
      | with_reducible assumption | with_reducible apply logBootWith_inv | intro _
      | fail_if_no_progress with_reducible refine inv_frame ?_ rfl rfl rfl

theorem noteErr_inv {a1 : State} (a2) (a3) (a4) (ha1 : Inv a1) : Inv (noteErr a1 a2 a3 a4) := by
  unfold noteErr
  repeat' first
      | with_reducible assumption | with_reducible apply cntPreg_inv | with_reducible apply orPreg_inv | with_reducible apply setPreg64_inv
      | with_reducible apply setPreg_inv | extract_lets | intro _ | with_reducible apply inv_ite | split | dsimp +zetaDelta only

theorem raiseErrX_inv {a1 : State} (a2) (a3) (a4) (a5) (a6) (a7) (ha1 : Inv a1) : Inv (raiseErrX a1 a2 a3 a4 a5 a6 a7) := by
  unfold raiseErrX
  repeat' first
      | with_reducible assumption | with_reducible apply noteErr_inv | with_reducible apply raiseInt_inv | extract_lets | intro _
      | with_reducible apply inv_ite | split | fail_if_no_progress with_reducible refine inv_frame ?_ rfl rfl rfl | dsimp +zetaDelta only

theorem raiseErr_inv {a1 : State} (a2) (a3) (a4) (ha1 : Inv a1) : Inv (raiseErr a1 a2 a3 a4) := by
  unfold raiseErr
  repeat' first
      | with_reducible assumption | with_reducible apply raiseErrX_inv | intro _

theorem raiseErrs_inv {a1 : State} (a2) (a3) (ha1 : Inv a1) : Inv (raiseErrs a1 a2 a3) := by
  unfold raiseErrs
  repeat' first
      | with_reducible assumption | with_reducible apply raiseErr_inv | with_reducible apply foldl_inv | with_reducible apply foldl_inv1
      | intro _

theorem wrStore_inv {a1 : State} (a2) (a3) (a4) (ha1 : Inv a1) : Inv (wrStore a1 a2 a3 a4) := by
  unfold wrStore
  repeat' first
      | with_reducible assumption | with_reducible apply pageErr_inv | with_reducible apply irqEdge_inv | with_reducible apply setPreg_inv
      | extract_lets | intro _ | with_reducible apply inv_ite | split | dsimp +zetaDelta only

theorem pageWrite_inv {s : State} (p o v x) (h : Inv s) : Inv (pageWrite s p o v x).st := by
  unfold pageWrite
  split
  · exact pageErr_inv _ _ _ h
  · split
    · exact pageErr_inv _ _ _ h
    · split
      · exact ⟨h.regs, sset_wf _ _ _ _ h.staged, h.captured, h.dm, h.poison, h.bar4, h.queue, h.inq, h.report⟩
      · split
        · split
          · exact wrStore_inv _ _ _ (setPreg_inv _ _ _ h)
          · exact wrStore_inv _ _ _ h
        · exact wrStore_inv _ _ _ h

theorem pageWriteGo_inv {a1 : State} (a2) (a3) (a4) (a5) {a6 : State → State} (ha6 : ∀ u, Inv u → Inv (a6 u)) (ha1 : Inv a1) : Inv (pageWriteGo a1 a2 a3 a4 a5 a6) := by
  unfold pageWriteGo
  repeat' first
      | with_reducible assumption | with_reducible apply ha6 | with_reducible apply pageWrite_inv | with_reducible apply goDone_inv
      | extract_lets | intro _ | with_reducible apply inv_ite | split | dsimp +zetaDelta only

theorem listDiscard_inv {s : State} (w) (h : Inv s) : Inv (listDiscard s w) := by
  have hm : ∀ z m c, (markDiscard z m c).report = z.report := by
    intro z m c; unfold markDiscard; split_ifs <;> rfl
  unfold listDiscard
  extract_lets line lo mask e core z z1 s2
  have hz1 : z1.report = s.frz.report := by
    show (match w.response with | some k => { z with lostResp := z.lostResp ++ [k] } | none => z).report = _
    split
    · exact hm _ _ _
    · exact hm _ _ _
  have h2 : Inv s2 := inv_frame h rfl rfl hz1
  apply offer_inv
  apply inv_ite
  · intro hl
    rw [hz1] at hl
    exact ⟨h.regs, h.staged, h.captured, h.dm, h.poison, h.bar4, h.queue, h.inq,
      by simp only [hz1, List.length_append, List.length_singleton]; omega⟩
  · intro _
    split_ifs
    · exact orPreg_inv _ _ _ h2
    · exact orPreg_inv _ _ _ h2
    · exact orPreg_inv _ _ _ h2
    · exact h2

theorem issueWrite_inv {a1 : State} (a2) (ha1 : Inv a1) : Inv (issueWrite a1 a2) := by
  unfold issueWrite
  repeat' first
      | with_reducible assumption | with_reducible apply emit_inv | extract_lets | intro _ | with_reducible apply inv_ite | split
      | fail_if_no_progress with_reducible refine inv_frame ?_ rfl rfl rfl | dsimp +zetaDelta only

theorem sendWrite_inv {a1 : State} (a2) (ha1 : Inv a1) : Inv (sendWrite a1 a2) := by
  unfold sendWrite
  repeat' first
      | with_reducible assumption | with_reducible apply issueWrite_inv | with_reducible apply listDiscard_inv | intro _
      | with_reducible apply inv_ite | split | fail_if_no_progress with_reducible refine inv_frame ?_ rfl rfl rfl

theorem drainWrites_inv {a1 : State} (ha1 : Inv a1) : Inv (drainWrites a1) := by
  unfold drainWrites
  repeat' first
      | with_reducible assumption | with_reducible apply sendWrite_inv | with_reducible apply foldl_inv | with_reducible apply foldl_inv1
      | intro _ | with_reducible apply inv_ite | split | fail_if_no_progress with_reducible refine inv_frame ?_ rfl rfl rfl

theorem flushMsix_inv {a1 : State} (ha1 : Inv a1) : Inv (flushMsix a1) := by
  unfold flushMsix
  repeat' first
      | with_reducible assumption | with_reducible apply emit_inv | extract_lets | with_reducible apply foldl_inv
      | with_reducible apply foldl_inv1 | intro _ | with_reducible apply inv_ite | split
      | fail_if_no_progress with_reducible refine inv_frame ?_ rfl rfl rfl | dsimp +zetaDelta only

theorem State.setCore_inv {a1 : State} (a2) (a3) (ha1 : Inv a1) : Inv (State.setCore a1 a2 a3) := by
  unfold State.setCore
  repeat' first
      | with_reducible assumption | with_reducible apply State.setCoreRaw_inv | with_reducible apply clrPreg_inv | extract_lets | intro _
      | with_reducible apply inv_ite | split | fail_if_no_progress with_reducible refine inv_frame ?_ rfl rfl rfl | dsimp +zetaDelta only

theorem sdTouch_inv {a1 : State} (a2) (ha1 : Inv a1) : Inv (sdTouch a1 a2) := by
  unfold sdTouch
  repeat' first
      | with_reducible assumption | intro _ | fail_if_no_progress with_reducible refine inv_frame ?_ rfl rfl rfl

theorem readyLog_inv {a1 : State} (ha1 : Inv a1) : Inv (readyLog a1) := by
  unfold readyLog
  repeat' first
      | with_reducible assumption | with_reducible apply logBoot_inv | extract_lets | with_reducible apply foldl_inv
      | with_reducible apply foldl_inv1 | intro _ | with_reducible apply inv_ite | split
      | fail_if_no_progress with_reducible refine inv_frame ?_ rfl rfl rfl | dsimp +zetaDelta only

theorem withReady_inv {a1 : State → State} {a2 : State} (ha1 : ∀ u, Inv u → Inv (a1 u)) (ha2 : Inv a2) : Inv (withReady a1 a2) := by
  unfold withReady
  repeat' first
      | with_reducible assumption | with_reducible apply ha1 | with_reducible apply readyLog_inv | intro _

theorem withAlive_inv {a1 : State → State} {a2 : State} (ha1 : ∀ u, Inv u → Inv (a1 u)) (ha2 : Inv a2) : Inv (withAlive a1 a2) := by
  unfold withAlive
  repeat' first
      | with_reducible assumption | with_reducible apply ha1 | with_reducible apply emit_inv | extract_lets | intro _
      | with_reducible apply inv_ite | split | dsimp +zetaDelta only

theorem setMode_inv {a1 : State} (a2) (ha1 : Inv a1) : Inv (setMode a1 a2) := by
  unfold setMode
  repeat' first
      | with_reducible assumption | with_reducible apply withReady_inv | with_reducible apply offer_inv | intro _
      | with_reducible apply inv_ite | split | fail_if_no_progress with_reducible refine inv_frame ?_ rfl rfl rfl

end Sys2Proof.Machine
end

