-- ==== Sys2Proof/Laws/InvMemory.lean ====
section
/-! SUPPORT. Every operation of Machine/Memory.lean keeps the invariant. -/

set_option Elab.async false

namespace Sys2Proof.Machine

open Sys2Proof

theorem setGran_inv {s : State} (g d p) (h : Inv s) : Inv (setGran s g d p) :=
  ⟨h.regs, h.staged, h.captured, writeBytes_wf _ _ _ h.dm, sset_wf _ _ _ _ h.poison, h.bar4, h.queue, h.inq, h.report⟩

theorem reportCe_inv {a1 : State} (a2) (a3) (ha1 : Inv a1) : Inv (reportCe a1 a2 a3) := by
  unfold reportCe
  repeat' first
      | with_reducible assumption | with_reducible apply raiseErr_inv | with_reducible apply cntPreg_inv
      | with_reducible apply setPreg64_inv | extract_lets | intro _ | fail_if_no_progress with_reducible refine inv_frame ?_ rfl rfl rfl
      | dsimp +zetaDelta only

theorem reportUe_inv {a1 : State} (a2) (a3) (ha1 : Inv a1) : Inv (reportUe a1 a2 a3) := by
  unfold reportUe
  repeat' first
      | with_reducible assumption | with_reducible apply raiseErr_inv | with_reducible apply cntPreg_inv
      | with_reducible apply setPreg64_inv | intro _

theorem mcReadGran_inv {a1 : State} (a2) (a3) (a4) (ha1 : Inv a1) : Inv (mcReadGran a1 a2 a3 a4) := by
  unfold mcReadGran
  repeat' first
      | with_reducible assumption | with_reducible apply reportUe_inv | with_reducible apply reportCe_inv | with_reducible apply setGran_inv
      | with_reducible apply raiseErr_inv | intro _ | with_reducible apply inv_ite | split

theorem mcFullGran_inv {a1 : State} (a2) (a3) (a4) (ha1 : Inv a1) : Inv (mcFullGran a1 a2 a3 a4) := by
  unfold mcFullGran
  repeat' first
      | with_reducible assumption | with_reducible apply setGran_inv | with_reducible apply when_inv | with_reducible apply cntPreg_inv
      | extract_lets | intro _ | dsimp +zetaDelta only

theorem mcPartGran_inv {a1 : State} (a2) (a3) (a4) (a5) (a6) (ha1 : Inv a1) : Inv (mcPartGran a1 a2 a3 a4 a5 a6) := by
  unfold mcPartGran
  repeat' first
      | with_reducible assumption | with_reducible apply reportUe_inv | with_reducible apply reportCe_inv | with_reducible apply setGran_inv
      | with_reducible apply raiseErr_inv | with_reducible apply cntPreg_inv | extract_lets | intro _ | with_reducible apply inv_ite | split
      | dsimp +zetaDelta only

theorem refuseWrite_inv {a1 : State} (a2) (a3) (ha1 : Inv a1) : Inv (refuseWrite a1 a2 a3) := by
  unfold refuseWrite
  repeat' first
      | with_reducible assumption | with_reducible apply raiseErr_inv | intro _

theorem execMcRead_inv (a1) (a2) (a3) {a4 : State} (ha4 : Inv a4) : NextInv (execMcRead a1 a2 a3 a4) := by
  unfold execMcRead
  repeat' first
      | with_reducible assumption | with_reducible apply nextInv_next | with_reducible apply mcReadGran_inv | intro _
      | with_reducible apply inv_ite | split

theorem execMcPartialWrite_inv (a1) (a2) (a3) (a4) (a5) {a6 : State} (ha6 : Inv a6) : NextInv (execMcPartialWrite a1 a2 a3 a4 a5 a6) := by
  unfold execMcPartialWrite
  repeat' first
      | with_reducible assumption | with_reducible apply nextInv_next | with_reducible apply refuseWrite_inv
      | with_reducible apply mcPartGran_inv | with_reducible apply mcFullGran_inv | intro _ | with_reducible apply inv_ite | split

theorem mcBothGran_inv {a1 : State} (a2) (a3) (a4) (a5) (a6) (a7) (ha1 : Inv a1) : Inv (mcBothGran a1 a2 a3 a4 a5 a6 a7) := by
  unfold mcBothGran
  repeat' first
      | with_reducible assumption | with_reducible apply mcPartGran_inv | with_reducible apply mcFullGran_inv
      | with_reducible apply setGran_inv | extract_lets | intro _ | with_reducible apply inv_ite | split | dsimp +zetaDelta only

theorem execMcFullWrite_inv (a1) (a2) (a3) (a4) {a5 : State} (ha5 : Inv a5) : NextInv (execMcFullWrite a1 a2 a3 a4 a5) := by
  unfold execMcFullWrite
  repeat' first
      | with_reducible assumption | with_reducible apply nextInv_next | with_reducible apply mcBothGran_inv
      | with_reducible apply refuseWrite_inv | with_reducible apply mcFullGran_inv | intro _ | with_reducible apply inv_ite | split
      | dsimp +zetaDelta only

theorem readLineAt_inv {a1 : State} (a2) (ha1 : Inv a1) : Inv (readLineAt a1 a2) := by
  unfold readLineAt
  repeat' first
      | with_reducible assumption | with_reducible apply mcReadGran_inv | intro _ | with_reducible apply inv_ite | split

theorem mcPoisonGran_inv {a1 : State} (a2) (a3) (a4) (a5) (ha1 : Inv a1) : Inv (mcPoisonGran a1 a2 a3 a4 a5) := by
  unfold mcPoisonGran
  repeat' first
      | with_reducible assumption | with_reducible apply setGran_inv | with_reducible apply raiseErr_inv | with_reducible apply cntPreg_inv
      | extract_lets | intro _ | with_reducible apply inv_ite | split | dsimp +zetaDelta only

theorem writeGranOf_inv {a1 : State} (a2) (a3) (a4) (a5) (a6) (ha1 : Inv a1) : Inv (writeGranOf a1 a2 a3 a4 a5 a6) := by
  unfold writeGranOf
  repeat' first
      | with_reducible assumption | with_reducible apply mcPoisonGran_inv | with_reducible apply refuseWrite_inv
      | with_reducible apply mcPartGran_inv | with_reducible apply mcFullGran_inv | extract_lets | intro _ | with_reducible apply inv_ite
      | split | dsimp +zetaDelta only

theorem writeLineAt_inv {a1 : State} (a2) (a3) (a4) (a5) (ha1 : Inv a1) : Inv (writeLineAt a1 a2 a3 a4 a5) := by
  unfold writeLineAt
  repeat' first
      | with_reducible assumption | with_reducible apply writeGranOf_inv | intro _

theorem scrubGran_inv {a1 : State} (a2) (a3) (a4) (a5) (ha1 : Inv a1) : Inv (scrubGran a1 a2 a3 a4 a5) := by
  unfold scrubGran
  repeat' first
      | with_reducible assumption | with_reducible apply mcPartGran_inv | with_reducible apply mcFullGran_inv
      | with_reducible apply mcReadGran_inv | intro _ | with_reducible apply inv_ite | split

theorem execScrubRead_inv (a1) (a2) (a3) {a4 : State} (ha4 : Inv a4) : NextInv (execScrubRead a1 a2 a3 a4) := by
  unfold execScrubRead
  repeat' first
      | with_reducible assumption | with_reducible apply nextInv_next | with_reducible apply scrubGran_inv | extract_lets | intro _
      | with_reducible apply inv_ite | split | fail_if_no_progress with_reducible refine inv_frame ?_ rfl rfl rfl | dsimp +zetaDelta only

theorem scrubWindowOf_inv {a1 : State} (a2) (ha1 : Inv a1) : Inv (scrubWindowOf a1 a2) := by
  unfold scrubWindowOf
  repeat' first
      | with_reducible assumption | with_reducible apply raiseErr_inv | extract_lets | intro _ | with_reducible apply inv_ite | split
      | fail_if_no_progress with_reducible refine inv_frame ?_ rfl rfl rfl | dsimp +zetaDelta only

theorem execScrubWindow_inv {a1 : State} (ha1 : Inv a1) : NextInv (execScrubWindow a1) := by
  unfold execScrubWindow
  repeat' first
      | with_reducible assumption | with_reducible apply nextInv_next | with_reducible apply scrubWindowOf_inv
      | with_reducible apply foldl_inv | with_reducible apply foldl_inv1 | intro _

theorem alScrubPassMinWrite_inv {a1 : State} (a2) (ha1 : Inv a1) : Inv (alScrubPassMinWrite a1 a2) := by
  unfold alScrubPassMinWrite
  repeat' first
      | with_reducible assumption | with_reducible apply pageWrite_inv | with_reducible apply raiseErr_inv | intro _
      | with_reducible apply inv_ite | split

theorem execAlScrubPassMinWrite_inv (a1) {a2 : State} (ha2 : Inv a2) : NextInv (execAlScrubPassMinWrite a1 a2) := by
  unfold execAlScrubPassMinWrite
  repeat' first
      | with_reducible assumption | with_reducible apply nextInv_next | with_reducible apply alScrubPassMinWrite_inv | intro _

end Sys2Proof.Machine
end

