-- ==== Sys2Proof/Laws/InvCoherence.lean ====
section
/-! SUPPORT. Every operation of Machine/Coherence.lean keeps the invariant. -/

set_option Elab.async false

namespace Sys2Proof.Machine

open Sys2Proof

theorem setCcLine_inv {a1 : State} (a2) (a3) (a4) (ha1 : Inv a1) : Inv (setCcLine a1 a2 a3 a4) := by
  unfold setCcLine
  repeat' first
      | with_reducible assumption | with_reducible apply State.setCl_inv | extract_lets | intro _ | dsimp +zetaDelta only

theorem setSl_inv {a1 : State} (a2) (a3) (ha1 : Inv a1) : Inv (setSl a1 a2 a3) := by
  unfold setSl
  repeat' first
      | with_reducible assumption | with_reducible apply State.setSlice_inv | extract_lets | intro _ | with_reducible apply inv_ite | split
      | dsimp +zetaDelta only

theorem hostWriteLine_inv {a1 : State} (a2) (a3) (a4) (a5) (a6) (a7) (a8) (ha1 : Inv a1) : Inv (hostWriteLine a1 a2 a3 a4 a5 a6 a7 a8) := by
  unfold hostWriteLine
  repeat' first
      | with_reducible assumption | with_reducible apply sendWrite_inv | with_reducible apply foldl_inv | with_reducible apply foldl_inv1
      | intro _ | dsimp +zetaDelta only

theorem writeBelow_inv {a1 : State} (a2) (a3) (a4) (ha1 : Inv a1) : Inv (writeBelow a1 a2 a3 a4) := by
  unfold writeBelow
  repeat' first
      | with_reducible assumption | with_reducible apply hostWriteLine_inv | with_reducible apply writeLineAt_inv | intro _
      | with_reducible apply inv_ite | split

theorem readBelow_inv {a1 : State} (a2) (a3) (ha1 : Inv a1) : Inv (readBelow a1 a2 a3).1 := by
  unfold readBelow
  repeat' first
      | with_reducible assumption | with_reducible apply readLineAt_inv | intro _ | with_reducible apply inv_ite | split

theorem pumpSlice_inv {a1 : State} (a2) (ha1 : Inv a1) : Inv (pumpSlice a1 a2) := by
  unfold pumpSlice
  repeat' first
      | with_reducible assumption | with_reducible apply State.setSlice_inv | with_reducible apply emit_inv
      | with_reducible apply cntPreg_inv | extract_lets | with_reducible apply foldl_inv | with_reducible apply foldl_inv1 | intro _
      | with_reducible apply inv_ite | split | dsimp +zetaDelta only

theorem pumpBi_inv {a1 : State} (ha1 : Inv a1) : Inv (pumpBi a1) := by
  unfold pumpBi
  repeat' first
      | with_reducible assumption | with_reducible apply pumpSlice_inv | with_reducible apply foldl_inv | with_reducible apply foldl_inv1
      | intro _

theorem startBi_inv {a1 : State} (a2) (a3) (a4) (ha1 : Inv a1) : Inv (startBi a1 a2 a3 a4) := by
  unfold startBi
  repeat' first
      | with_reducible assumption | with_reducible apply pumpSlice_inv | with_reducible apply State.setSlice_inv | extract_lets | intro _
      | with_reducible apply inv_ite | split | dsimp +zetaDelta only

theorem addRetry_inv {a1 : State} (a2) (a3) (a4) (ha1 : Inv a1) : Inv (addRetry a1 a2 a3 a4) := by
  unfold addRetry
  repeat' first
      | with_reducible assumption | with_reducible apply State.setSlice_inv | extract_lets | intro _ | with_reducible apply inv_ite | split
      | dsimp +zetaDelta only

theorem cancelGrant_inv {a1 : State} (a2) (a3) (ha1 : Inv a1) : Inv (cancelGrant a1 a2 a3) := by
  unfold cancelGrant
  repeat' first
      | with_reducible assumption | with_reducible apply addRetry_inv | with_reducible apply State.setCl_inv | extract_lets | intro _
      | with_reducible apply inv_ite | split | dsimp +zetaDelta only

theorem dropCopy_inv {a1 : State} (a2) (a3) (ha1 : Inv a1) : Inv (dropCopy a1 a2 a3).1 := by
  unfold dropCopy
  repeat' first
      | with_reducible assumption | with_reducible apply cancelGrant_inv | with_reducible apply setCcLine_inv | extract_lets | intro _
      | with_reducible apply inv_ite | split | dsimp +zetaDelta only

theorem dropCopies_inv {a1 : State} (a2) (a3) (ha1 : Inv a1) : Inv (dropCopies a1 a2 a3).1 := by
  unfold dropCopies
  repeat' first
      | with_reducible assumption | with_reducible apply dropCopy_inv | with_reducible apply setSl_inv | extract_lets
      | with_reducible apply foldl_inv | with_reducible apply foldl_inv1 | intro _ | with_reducible apply inv_ite | split
      | dsimp +zetaDelta only

theorem cleanEvict_inv {a1 : State} (a2) (a3) (ha1 : Inv a1) : Inv (cleanEvict a1 a2 a3) := by
  unfold cleanEvict
  repeat' first
      | with_reducible assumption | with_reducible apply emit_inv | intro _ | with_reducible apply inv_ite | split

theorem evictData_inv {a1 : State} (a2) (ha1 : Inv a1) : Inv (evictData a1 a2) := by
  unfold evictData
  repeat' first
      | with_reducible assumption | with_reducible apply cleanEvict_inv | with_reducible apply writeBelow_inv
      | with_reducible apply setSl_inv | extract_lets | intro _ | with_reducible apply inv_ite | split | dsimp +zetaDelta only

theorem recallShadow_inv {a1 : State} (a2) (ha1 : Inv a1) : Inv (recallShadow a1 a2) := by
  unfold recallShadow
  repeat' first
      | with_reducible assumption | with_reducible apply cleanEvict_inv | with_reducible apply dropCopies_inv
      | with_reducible apply writeBelow_inv | with_reducible apply setSl_inv | with_reducible apply cntPreg_inv | extract_lets | intro _
      | split | dsimp +zetaDelta only

theorem shadowRoom_inv {a1 : State} (a2) (ha1 : Inv a1) : Inv (shadowRoom a1 a2) := by
  unfold shadowRoom
  repeat' first
      | with_reducible assumption | with_reducible apply recallShadow_inv | with_reducible apply takeFresh_inv | extract_lets | intro _
      | with_reducible apply inv_ite | split | dsimp +zetaDelta only

theorem shadowAsk_inv {a1 : State} (a2) (ha1 : Inv a1) : Inv (shadowAsk a1 a2) := by
  unfold shadowAsk
  repeat' first
      | with_reducible assumption | with_reducible apply startBi_inv | with_reducible apply takeFresh_inv | extract_lets | intro _
      | with_reducible apply inv_ite | split | dsimp +zetaDelta only

theorem evictWay_inv {a1 : State} (a2) (a3) (a4) (ha1 : Inv a1) : Inv (evictWay a1 a2 a3 a4) := by
  unfold evictWay
  repeat' first
      | with_reducible assumption | with_reducible apply shadowAsk_inv | with_reducible apply shadowRoom_inv
      | with_reducible apply evictData_inv | with_reducible apply startBi_inv | extract_lets | intro _ | with_reducible apply inv_ite
      | split | dsimp +zetaDelta only

theorem pickWay_inv {a1 : State} (a2) (ha1 : Inv a1) : Inv (pickWay a1 a2).1 := by
  unfold pickWay
  repeat' first
      | with_reducible assumption | with_reducible apply evictWay_inv | with_reducible apply takeFresh_inv | extract_lets | intro _
      | with_reducible apply inv_ite | split | dsimp +zetaDelta only

theorem storeBelow_inv {a1 : State} (a2) (a3) (a4) (ha1 : Inv a1) : Inv (storeBelow a1 a2 a3 a4) := by
  unfold storeBelow
  repeat' first
      | with_reducible assumption | with_reducible apply shadowRoom_inv | with_reducible apply writeBelow_inv
      | with_reducible apply setSl_inv | extract_lets | intro _ | with_reducible apply inv_ite | split | dsimp +zetaDelta only

theorem homeStore_inv {a1 : State} (a2) (a3) (a4) (ha1 : Inv a1) : Inv (homeStore a1 a2 a3 a4) := by
  unfold homeStore
  repeat' first
      | with_reducible assumption | with_reducible apply storeBelow_inv | with_reducible apply pickWay_inv | with_reducible apply setSl_inv
      | extract_lets | intro _ | with_reducible apply inv_ite | split | dsimp +zetaDelta only

theorem countSl_inv {a1 : State} (a2) (ha1 : Inv a1) : Inv (countSl a1 a2) := by
  unfold countSl
  repeat' first
      | with_reducible assumption | with_reducible apply cntPreg_inv | intro _ | with_reducible apply inv_ite | split

theorem homeData_inv {a1 : State} (a2) (a3) (ha1 : Inv a1) : Inv (homeData a1 a2 a3).1 := by
  unfold homeData
  repeat' first
      | with_reducible assumption | with_reducible apply countSl_inv | with_reducible apply readBelow_inv | extract_lets | intro _ | split
      | dsimp +zetaDelta only

theorem reportPartial_inv {a1 : State} (a2) (a3) (a4) (ha1 : Inv a1) : Inv (reportPartial a1 a2 a3 a4) := by
  unfold reportPartial
  repeat' first
      | with_reducible assumption | with_reducible apply raiseErr_inv | with_reducible apply cntPreg_inv | extract_lets
      | with_reducible apply foldl_inv | with_reducible apply foldl_inv1 | intro _ | with_reducible apply inv_ite | split
      | dsimp +zetaDelta only

theorem grantLine_inv {a1 : State} (a2) (a3) (a4) (ha1 : Inv a1) : Inv (grantLine a1 a2 a3 a4) := by
  unfold grantLine
  repeat' first
      | with_reducible assumption | with_reducible apply State.setCl_inv | extract_lets | intro _ | with_reducible apply inv_ite | split
      | dsimp +zetaDelta only

theorem slMiss_inv {a1 : State} (a2) (a3) (a4) (ha1 : Inv a1) : Inv (slMiss a1 a2 a3 a4) := by
  unfold slMiss
  repeat' first
      | with_reducible assumption | with_reducible apply State.setSlice_inv | extract_lets | intro _ | with_reducible apply inv_ite | split
      | dsimp +zetaDelta only

theorem slMissAgain_inv {a1 : State} (a2) (ha1 : Inv a1) : Inv (slMissAgain a1 a2) := by
  unfold slMissAgain
  repeat' first
      | with_reducible assumption | with_reducible apply State.setSlice_inv | extract_lets | intro _ | with_reducible apply inv_ite | split
      | dsimp +zetaDelta only

theorem slMerge_inv {a1 : State} (a2) (a3) (ha1 : Inv a1) : Inv (slMerge a1 a2 a3) := by
  unfold slMerge
  repeat' first
      | with_reducible assumption | with_reducible apply State.setSlice_inv | with_reducible apply cntPreg_inv | extract_lets | intro _
      | with_reducible apply inv_ite | split | dsimp +zetaDelta only

theorem cancelMiss_inv {a1 : State} (a2) (ha1 : Inv a1) : Inv (cancelMiss a1 a2) := by
  unfold cancelMiss
  repeat' first
      | with_reducible assumption | with_reducible apply addRetry_inv | with_reducible apply State.setSlice_inv | extract_lets
      | with_reducible apply foldl_inv | with_reducible apply foldl_inv1 | intro _ | dsimp +zetaDelta only

theorem fetchShared_inv {a1 : State} (a2) (a3) (ha1 : Inv a1) : Inv (fetchShared a1 a2 a3).1 := by
  unfold fetchShared
  repeat' first
      | with_reducible assumption | with_reducible apply slMiss_inv | with_reducible apply homeData_inv | with_reducible apply homeStore_inv
      | with_reducible apply cancelGrant_inv | with_reducible apply setSl_inv | with_reducible apply setCcLine_inv | extract_lets | intro _
      | with_reducible apply inv_ite | split | dsimp +zetaDelta only

theorem makeEntry_inv {a1 : State} (a2) (ha1 : Inv a1) : Inv (makeEntry a1 a2) := by
  unfold makeEntry
  repeat' first
      | with_reducible assumption | with_reducible apply shadowRoom_inv | intro _ | with_reducible apply inv_ite | split

theorem serveRds_inv {a1 : State} (a2) (a3) (a4) (ha1 : Inv a1) : Inv (serveRds a1 a2 a3 a4) := by
  unfold serveRds
  repeat' first
      | with_reducible assumption | with_reducible apply makeEntry_inv | with_reducible apply fetchShared_inv
      | with_reducible apply grantLine_inv | with_reducible apply setSl_inv | extract_lets | intro _ | with_reducible apply inv_ite | split
      | dsimp +zetaDelta only

theorem serveRdo_inv {a1 : State} (a2) (a3) (a4) (ha1 : Inv a1) : Inv (serveRdo a1 a2 a3 a4) := by
  unfold serveRdo
  repeat' first
      | with_reducible assumption | with_reducible apply makeEntry_inv | with_reducible apply fetchShared_inv
      | with_reducible apply grantLine_inv | with_reducible apply dropCopies_inv | with_reducible apply setSl_inv | extract_lets | intro _
      | with_reducible apply inv_ite | split | dsimp +zetaDelta only

theorem serveUpg_inv {a1 : State} (a2) (a3) (a4) (ha1 : Inv a1) : Inv (serveUpg a1 a2 a3 a4) := by
  unfold serveUpg
  repeat' first
      | with_reducible assumption | with_reducible apply serveRdo_inv | with_reducible apply grantLine_inv
      | with_reducible apply dropCopies_inv | with_reducible apply setSl_inv | extract_lets | intro _ | with_reducible apply inv_ite | split
      | dsimp +zetaDelta only

theorem serveRdcur_inv {a1 : State} (a2) (a3) (ha1 : Inv a1) : Inv (serveRdcur a1 a2 a3).1 := by
  unfold serveRdcur
  repeat' first
      | with_reducible assumption | with_reducible apply homeData_inv | with_reducible apply homeStore_inv
      | with_reducible apply setCcLine_inv | extract_lets | intro _ | with_reducible apply inv_ite | split | dsimp +zetaDelta only

theorem clearCached_inv {a1 : State} (a2) (a3) (ha1 : Inv a1) : Inv (clearCached a1 a2 a3) := by
  unfold clearCached
  repeat' first
      | with_reducible assumption | with_reducible apply cntPreg_inv | extract_lets | with_reducible apply foldl_inv
      | with_reducible apply foldl_inv1 | intro _ | with_reducible apply inv_ite | split | dsimp +zetaDelta only

theorem serveWrinv_inv {a1 : State} (a2) (a3) (a4) (a5) (a6) (a7) (ha1 : Inv a1) : Inv (serveWrinv a1 a2 a3 a4 a5 a6 a7) := by
  unfold serveWrinv
  repeat' first
      | with_reducible assumption | with_reducible apply clearCached_inv | with_reducible apply countSl_inv
      | with_reducible apply homeStore_inv | with_reducible apply dropCopies_inv | with_reducible apply hostWriteLine_inv
      | with_reducible apply setSl_inv | extract_lets | intro _ | with_reducible apply inv_ite | split | dsimp +zetaDelta only

theorem askHost_inv {a1 : State} (a2) (a3) (ha1 : Inv a1) : Inv (askHost a1 a2 a3) := by
  unfold askHost
  repeat' first
      | with_reducible assumption | with_reducible apply emit_inv | extract_lets | intro _ | with_reducible apply inv_ite | split
      | dsimp +zetaDelta only

theorem askOwn_inv {a1 : State} (a2) (ha1 : Inv a1) : Inv (askOwn a1 a2) := by
  unfold askOwn
  repeat' first
      | with_reducible assumption | with_reducible apply emit_inv | intro _ | with_reducible apply inv_ite | split

theorem serveWrpart_inv {a1 : State} (a2) (a3) (a4) (a5) (a6) (a7) (a8) (ha1 : Inv a1) : Inv (serveWrpart a1 a2 a3 a4 a5 a6 a7 a8) := by
  unfold serveWrpart
  repeat' first
      | with_reducible assumption | with_reducible apply askOwn_inv | with_reducible apply reportPartial_inv
      | with_reducible apply countSl_inv | with_reducible apply homeStore_inv | with_reducible apply dropCopies_inv
      | with_reducible apply hostWriteLine_inv | with_reducible apply writeLineAt_inv | with_reducible apply readLineAt_inv | extract_lets
      | intro _ | with_reducible apply inv_ite | split | dsimp +zetaDelta only

theorem serveHostRd_inv {a1 : State} (a2) (a3) (a4) (ha1 : Inv a1) : Inv (serveHostRd a1 a2 a3 a4) := by
  unfold serveHostRd
  repeat' first
      | with_reducible assumption | with_reducible apply makeEntry_inv | with_reducible apply fetchShared_inv
      | with_reducible apply dropCopies_inv | with_reducible apply setSl_inv | with_reducible apply raiseErr_inv
      | with_reducible apply emit_inv | extract_lets | intro _ | with_reducible apply inv_ite | split | dsimp +zetaDelta only

theorem serveHostWr_inv {a1 : State} (a2) (a3) (a4) (a5) (ha1 : Inv a1) : Inv (serveHostWr a1 a2 a3 a4 a5) := by
  unfold serveHostWr
  repeat' first
      | with_reducible assumption | with_reducible apply serveWrpart_inv | with_reducible apply serveWrinv_inv
      | with_reducible apply setSl_inv | with_reducible apply emit_inv | extract_lets | intro _ | with_reducible apply inv_ite | split
      | dsimp +zetaDelta only

theorem ownHost_inv {a1 : State} (a2) (a3) (ha1 : Inv a1) : Inv (ownHost a1 a2 a3).1 := by
  unfold ownHost
  repeat' first
      | with_reducible assumption | with_reducible apply homeStore_inv | with_reducible apply pickWay_inv
      | with_reducible apply dropCopies_inv | with_reducible apply setSl_inv | extract_lets | intro _ | with_reducible apply inv_ite | split
      | dsimp +zetaDelta only

theorem mergeOwned_inv {a1 : State} (a2) (a3) (a4) (a5) (a6) (ha1 : Inv a1) : Inv (mergeOwned a1 a2 a3 a4 a5 a6) := by
  unfold mergeOwned
  repeat' first
      | with_reducible assumption | with_reducible apply ownHost_inv | with_reducible apply homeStore_inv | extract_lets | intro _
      | dsimp +zetaDelta only

theorem serve_inv {a1 : State} (a2) (a3) (a4) (a5) (a6) (ha1 : Inv a1) : Inv (serve a1 a2 a3 a4 a5 a6) := by
  unfold serve
  repeat' first
      | with_reducible assumption | with_reducible apply serveHostWr_inv | with_reducible apply serveHostRd_inv
      | with_reducible apply serveWrpart_inv | with_reducible apply askOwn_inv | with_reducible apply askHost_inv
      | with_reducible apply serveWrinv_inv | with_reducible apply serveRdcur_inv | with_reducible apply serveUpg_inv
      | with_reducible apply serveRdo_inv | with_reducible apply serveRds_inv | with_reducible apply emit_inv | extract_lets | intro _
      | split | dsimp +zetaDelta only

theorem clearRetry_inv {a1 : State} (a2) (a3) (ha1 : Inv a1) : Inv (clearRetry a1 a2 a3) := by
  unfold clearRetry
  repeat' first
      | with_reducible assumption | with_reducible apply State.setSlice_inv | extract_lets | intro _ | with_reducible apply inv_ite | split
      | dsimp +zetaDelta only

theorem homeReq_inv {a1 : State} (a2) (a3) (a4) (a5) (a6) (ha1 : Inv a1) : Inv (homeReq a1 a2 a3 a4 a5 a6) := by
  unfold homeReq
  repeat' first
      | with_reducible assumption | with_reducible apply clearRetry_inv | with_reducible apply serve_inv | with_reducible apply slMerge_inv
      | with_reducible apply shadowAsk_inv | with_reducible apply addRetry_inv | with_reducible apply startBi_inv | extract_lets | intro _
      | with_reducible apply inv_ite | split | dsimp +zetaDelta only

theorem hostReq_inv {a1 : State} (a2) (a3) (a4) (ha1 : Inv a1) : Inv (hostReq a1 a2 a3 a4) := by
  unfold hostReq
  repeat' first
      | with_reducible assumption | with_reducible apply homeReq_inv | with_reducible apply shadowAsk_inv
      | with_reducible apply State.setSlice_inv | extract_lets | intro _ | with_reducible apply inv_ite | split | dsimp +zetaDelta only

theorem homeAsk_inv {a1 : State} (a2) (a3) (a4) (ha1 : Inv a1) : Inv (homeAsk a1 a2 a3 a4) := by
  unfold homeAsk
  repeat' first
      | with_reducible assumption | with_reducible apply shadowAsk_inv | with_reducible apply addRetry_inv
      | with_reducible apply startBi_inv | intro _ | with_reducible apply inv_ite | split

end Sys2Proof.Machine
end

