-- ==== Sys2Proof/Laws/InvCaches.lean ====
section
/-! SUPPORT. Every operation of Machine/Caches.lean keeps the invariant. -/

set_option Elab.async false

namespace Sys2Proof.Machine

open Sys2Proof

theorem homeWb_inv {a1 : State} (a2) (a3) (a4) (a5) (ha1 : Inv a1) : Inv (homeWb a1 a2 a3 a4 a5) := by
  unfold homeWb
  repeat' first
      | with_reducible assumption | with_reducible apply homeStore_inv | with_reducible apply setSl_inv | extract_lets | intro _
      | dsimp +zetaDelta only

theorem homeClean_inv {a1 : State} (a2) (a3) (ha1 : Inv a1) : Inv (homeClean a1 a2 a3) := by
  unfold homeClean
  repeat' first
      | with_reducible assumption | with_reducible apply setSl_inv | extract_lets | intro _ | with_reducible apply inv_ite | split
      | dsimp +zetaDelta only

theorem ccEvict_inv {a1 : State} (a2) (a3) (ha1 : Inv a1) : Inv (ccEvict a1 a2 a3) := by
  unfold ccEvict
  repeat' first
      | with_reducible assumption | with_reducible apply homeClean_inv | with_reducible apply homeWb_inv
      | with_reducible apply setCcLine_inv | extract_lets | intro _ | split | dsimp +zetaDelta only

theorem setWayErrs_inv {a1 : State} (a2) (a3) (ha1 : Inv a1) : Inv (setWayErrs a1 a2 a3) := by
  unfold setWayErrs
  repeat' first
      | with_reducible assumption | with_reducible apply State.setSlice_inv | with_reducible apply State.setCl_inv | intro _ | split

theorem evictWholeWay_inv {a1 : State} (a2) (a3) (ha1 : Inv a1) : Inv (evictWholeWay a1 a2 a3) := by
  unfold evictWholeWay
  repeat' first
      | with_reducible assumption | with_reducible apply ccEvict_inv | with_reducible apply evictWay_inv | with_reducible apply startBi_inv
      | with_reducible apply foldl_inv | with_reducible apply foldl_inv1 | intro _ | with_reducible apply inv_ite | split
      | dsimp +zetaDelta only

theorem sweepWays_inv {a1 : State} (a2) (ha1 : Inv a1) : Inv (sweepWays a1 a2) := by
  unfold sweepWays
  repeat' first
      | with_reducible assumption | with_reducible apply evictWholeWay_inv | with_reducible apply foldl_inv
      | with_reducible apply foldl_inv1 | intro _

theorem wayCheck_inv {a1 : State} (a2) (a3) (ha1 : Inv a1) : Inv (wayCheck a1 a2 a3) := by
  unfold wayCheck
  repeat' first
      | with_reducible assumption | with_reducible apply evictWholeWay_inv | with_reducible apply raiseErr_inv
      | with_reducible apply orPreg_inv | extract_lets | intro _ | with_reducible apply inv_ite | split | dsimp +zetaDelta only

theorem countWay_inv {a1 : State} (a2) (a3) (ha1 : Inv a1) : Inv (countWay a1 a2 a3) := by
  unfold countWay
  repeat' first
      | with_reducible assumption | with_reducible apply wayCheck_inv | with_reducible apply setWayErrs_inv | extract_lets | intro _
      | with_reducible apply inv_ite | split | dsimp +zetaDelta only

theorem scanSet_inv {a1 : State} (a2) (a3) (a4) (ha1 : Inv a1) : Inv (scanSet a1 a2 a3 a4) := by
  unfold scanSet
  repeat' first
      | with_reducible assumption | with_reducible apply homeWb_inv | with_reducible apply cancelGrant_inv
      | with_reducible apply setCcLine_inv | extract_lets | with_reducible apply foldl_inv | with_reducible apply foldl_inv1 | intro _
      | with_reducible apply inv_ite | split | dsimp +zetaDelta only

theorem setRecall_inv {a1 : State} (a2) (a3) (ha1 : Inv a1) : Inv (setRecall a1 a2 a3) := by
  unfold setRecall
  repeat' first
      | with_reducible assumption | with_reducible apply scanSet_inv | with_reducible apply cntPreg_inv | with_reducible apply foldl_inv
      | with_reducible apply foldl_inv1 | intro _

theorem dropSet_inv {a1 : State} (a2) (a3) (ha1 : Inv a1) : Inv (dropSet a1 a2 a3) := by
  unfold dropSet
  repeat' first
      | with_reducible assumption | with_reducible apply State.setSlice_inv | with_reducible apply State.setCl_inv | extract_lets | intro _
      | split | dsimp +zetaDelta only

theorem countEntry_inv {a1 : State} (a2) (a3) (ha1 : Inv a1) : Inv (countEntry a1 a2 a3) := by
  unfold countEntry
  repeat' first
      | with_reducible assumption | with_reducible apply countWay_inv | intro _ | with_reducible apply inv_ite | split

theorem tagError_inv {a1 : State} (a2) (a3) (a4) (a5) (ha1 : Inv a1) : Inv (tagError a1 a2 a3 a4 a5) := by
  unfold tagError
  repeat' first
      | with_reducible assumption | with_reducible apply countEntry_inv | with_reducible apply dropSet_inv
      | with_reducible apply setRecall_inv | with_reducible apply raiseErr_inv | extract_lets | intro _ | with_reducible apply inv_ite
      | split | dsimp +zetaDelta only

theorem poisonCopy_inv {a1 : State} (a2) (a3) (ha1 : Inv a1) : Inv (poisonCopy a1 a2 a3) := by
  unfold poisonCopy
  repeat' first
      | with_reducible assumption | with_reducible apply setSl_inv | with_reducible apply setCcLine_inv | with_reducible apply takeFresh_inv
      | extract_lets | intro _ | with_reducible apply inv_ite | split | dsimp +zetaDelta only

theorem refetch_inv {a1 : State} (a2) (a3) (ha1 : Inv a1) : Inv (refetch a1 a2 a3) := by
  unfold refetch
  repeat' first
      | with_reducible assumption | with_reducible apply homeClean_inv | with_reducible apply askOwn_inv | with_reducible apply askHost_inv
      | with_reducible apply slMissAgain_inv | with_reducible apply homeData_inv | with_reducible apply setSl_inv
      | with_reducible apply setCcLine_inv | with_reducible apply readLineAt_inv | with_reducible apply emit_inv | extract_lets | intro _
      | with_reducible apply inv_ite | split | dsimp +zetaDelta only

theorem applyFault_inv {a1 : State} (a2) (a3) (a4) (ha1 : Inv a1) : Inv (applyFault a1 a2 a3 a4) := by
  unfold applyFault
  repeat' first
      | with_reducible assumption | with_reducible apply refetch_inv | with_reducible apply poisonCopy_inv
      | with_reducible apply tagError_inv | with_reducible apply countWay_inv | with_reducible apply raiseErr_inv | intro _
      | with_reducible apply inv_ite | split

theorem ccMerge_inv {a1 : State} (a2) (a3) (a4) (ha1 : Inv a1) : Inv (ccMerge a1 a2 a3 a4) := by
  unfold ccMerge
  repeat' first
      | with_reducible assumption | with_reducible apply State.setCl_inv | with_reducible apply cntPreg_inv | extract_lets | intro _
      | with_reducible apply inv_ite | split | dsimp +zetaDelta only

theorem clusterMiss_inv {a1 : State} (a2) (a3) (a4) (a5) (ha1 : Inv a1) : Inv (clusterMiss a1 a2 a3 a4 a5) := by
  unfold clusterMiss
  repeat' first
      | with_reducible assumption | with_reducible apply ccMerge_inv | with_reducible apply homeReq_inv
      | with_reducible apply State.setCl_inv | with_reducible apply cntPreg_inv | extract_lets | intro _ | with_reducible apply inv_ite
      | split | dsimp +zetaDelta only

theorem execRds_inv (a1) (a2) (a3) (a4) {a5 : State} (ha5 : Inv a5) : NextInv (execRds a1 a2 a3 a4 a5) := by
  unfold execRds
  repeat' first
      | with_reducible assumption | with_reducible apply nextInv_next | with_reducible apply clusterMiss_inv
      | with_reducible apply applyFault_inv | intro _ | with_reducible apply inv_ite | split

theorem execRdo_inv (a1) (a2) (a3) {a4 : State} (ha4 : Inv a4) : NextInv (execRdo a1 a2 a3 a4) := by
  unfold execRdo
  repeat' first
      | with_reducible assumption | with_reducible apply nextInv_next | with_reducible apply clusterMiss_inv | intro _ | split

theorem execUpg_inv (a1) (a2) (a3) {a4 : State} (ha4 : Inv a4) : NextInv (execUpg a1 a2 a3 a4) := by
  unfold execUpg
  repeat' first
      | with_reducible assumption | with_reducible apply nextInv_next | with_reducible apply clusterMiss_inv | intro _
      | with_reducible apply inv_ite | split

theorem execWb_inv (a1) (a2) {a3 : State} (ha3 : Inv a3) : NextInv (execWb a1 a2 a3) := by
  unfold execWb
  repeat' first
      | with_reducible assumption | with_reducible apply nextInv_next | with_reducible apply ccEvict_inv | with_reducible apply startBi_inv
      | intro _ | with_reducible apply inv_ite | split

theorem execCleanNotice_inv (a1) (a2) {a3 : State} (ha3 : Inv a3) : NextInv (execCleanNotice a1 a2 a3) := by
  unfold execCleanNotice
  repeat' first
      | with_reducible assumption | with_reducible apply nextInv_next | with_reducible apply ccEvict_inv | intro _
      | with_reducible apply inv_ite | split

theorem execRdcur_inv (a1) (a2) (a3) {a4 : State} (ha4 : Inv a4) : NextInv (execRdcur a1 a2 a3 a4) := by
  unfold execRdcur
  repeat' first
      | with_reducible assumption | with_reducible apply nextInv_next | with_reducible apply homeReq_inv | intro _

theorem execWrinv_inv (a1) (a2) (a3) {a4 : State} (ha4 : Inv a4) : NextInv (execWrinv a1 a2 a3 a4) := by
  unfold execWrinv
  repeat' first
      | with_reducible assumption | with_reducible apply nextInv_next | with_reducible apply homeReq_inv | intro _

theorem execWrpart_inv (a1) (a2) (a3) (a4) (a5) {a6 : State} (ha6 : Inv a6) : NextInv (execWrpart a1 a2 a3 a4 a5 a6) := by
  unfold execWrpart
  repeat' first
      | with_reducible assumption | with_reducible apply nextInv_next | with_reducible apply homeReq_inv | intro _
      | with_reducible apply inv_ite | split

theorem execForwardRequest_inv (a1) (a2) (a3) {a4 : State} (ha4 : Inv a4) : NextInv (execForwardRequest a1 a2 a3 a4) := by
  unfold execForwardRequest
  repeat' first
      | with_reducible assumption | with_reducible apply nextInv_next | with_reducible apply homeStore_inv | with_reducible apply setSl_inv
      | with_reducible apply setCcLine_inv | extract_lets | intro _ | with_reducible apply inv_ite | split | dsimp +zetaDelta only

theorem execSnoopInvalidate_inv (a1) (a2) {a3 : State} (ha3 : Inv a3) : NextInv (execSnoopInvalidate a1 a2 a3) := by
  unfold execSnoopInvalidate
  repeat' first
      | with_reducible assumption | with_reducible apply nextInv_next | with_reducible apply homeClean_inv
      | with_reducible apply homeStore_inv | with_reducible apply dropCopy_inv | extract_lets | intro _ | split | dsimp +zetaDelta only

theorem execRequestRetry_inv (a1) (a2) (a3) {a4 : State} (ha4 : Inv a4) : NextInv (execRequestRetry a1 a2 a3 a4) := by
  unfold execRequestRetry
  repeat' first
      | with_reducible assumption | with_reducible apply nextInv_next | with_reducible apply State.setSlice_inv
      | with_reducible apply when_inv | with_reducible apply cntPreg_inv | extract_lets | intro _ | with_reducible apply inv_ite | split
      | dsimp +zetaDelta only

theorem execDcStarve_inv (a1) (a2) (a3) {a4 : State} (ha4 : Inv a4) : NextInv (execDcStarve a1 a2 a3 a4) := by
  unfold execDcStarve
  repeat' first
      | with_reducible assumption | with_reducible apply nextInv_next | with_reducible apply raiseErr_inv | intro _
      | with_reducible apply inv_ite | split

theorem clusterFill_inv {a1 : State} (a2) (a3) (a4) (a5) (ha1 : Inv a1) : Inv (clusterFill a1 a2 a3 a4 a5) := by
  unfold clusterFill
  repeat' first
      | with_reducible assumption | with_reducible apply ccEvict_inv | with_reducible apply homeClean_inv
      | with_reducible apply setCcLine_inv | with_reducible apply State.setCl_inv | extract_lets | intro _ | with_reducible apply inv_ite
      | split | dsimp +zetaDelta only

theorem ccPick_inv {a1 : State} (a2) (a3) (ha1 : Inv a1) : Inv (ccPick a1 a2 a3).1 := by
  unfold ccPick
  repeat' first
      | with_reducible assumption | with_reducible apply takeFresh_inv | extract_lets | intro _ | with_reducible apply inv_ite | split
      | dsimp +zetaDelta only

theorem sliceInstall_inv {a1 : State} (a2) (a3) (a4) (a5) (ha1 : Inv a1) : Inv (sliceInstall a1 a2 a3 a4 a5) := by
  unfold sliceInstall
  repeat' first
      | with_reducible assumption | with_reducible apply shadowRoom_inv | with_reducible apply setSl_inv
      | with_reducible apply State.setSlice_inv | extract_lets | intro _ | with_reducible apply inv_ite | split | dsimp +zetaDelta only

theorem answerMerged_inv {a1 : State} (a2) (a3) (a4) (ha1 : Inv a1) : Inv (answerMerged a1 a2 a3 a4) := by
  unfold answerMerged
  repeat' first
      | with_reducible assumption | with_reducible apply emit_inv | with_reducible apply foldl_inv | with_reducible apply foldl_inv1
      | intro _ | with_reducible apply inv_ite | split | dsimp +zetaDelta only

theorem sliceFill_inv {a1 : State} (a2) (a3) (a4) (a5) (ha1 : Inv a1) : Inv (sliceFill a1 a2 a3 a4 a5) := by
  unfold sliceFill
  repeat' first
      | with_reducible assumption | with_reducible apply answerMerged_inv | with_reducible apply sliceInstall_inv
      | with_reducible apply evictWay_inv | extract_lets | intro _ | with_reducible apply inv_ite | split | dsimp +zetaDelta only

theorem landSlice_inv {a1 : State} (a2) (ha1 : Inv a1) : Inv (landSlice a1 a2) := by
  unfold landSlice
  repeat' first
      | with_reducible assumption | with_reducible apply answerMerged_inv | with_reducible apply sliceInstall_inv
      | with_reducible apply pickWay_inv | extract_lets | intro _ | split | dsimp +zetaDelta only

theorem landGrant_inv {a1 : State} (a2) (a3) (ha1 : Inv a1) : Inv (landGrant a1 a2 a3) := by
  unfold landGrant
  repeat' first
      | with_reducible assumption | with_reducible apply landSlice_inv | with_reducible apply ccPick_inv
      | with_reducible apply clusterFill_inv | extract_lets | intro _ | split | dsimp +zetaDelta only

theorem setFlags_inv {a1 : State} (a2) (a3) (a4) (a5) (ha1 : Inv a1) : Inv (setFlags a1 a2 a3 a4 a5) := by
  unfold setFlags
  repeat' first
      | with_reducible assumption | with_reducible apply State.setSlice_inv | with_reducible apply State.setCl_inv | intro _ | split

theorem cacheEnableAct_inv {a1 : State} (a2) (a3) (a4) (ha1 : Inv a1) : Inv (cacheEnableAct a1 a2 a3 a4) := by
  unfold cacheEnableAct
  repeat' first
      | with_reducible assumption | with_reducible apply setFlags_inv | with_reducible apply raiseErr_inv
      | with_reducible apply rejectEnable_inv | extract_lets | intro _ | with_reducible apply inv_ite | split | dsimp +zetaDelta only

theorem clearAsk_inv {a1 : State} (a2) (ha1 : Inv a1) : Inv (clearAsk a1 a2) := by
  unfold clearAsk
  repeat' first
      | with_reducible assumption | with_reducible apply startBi_inv | with_reducible apply foldl_inv | with_reducible apply foldl_inv1
      | intro _ | with_reducible apply inv_ite | split | dsimp +zetaDelta only

theorem startClear_inv {a1 : State} (a2) (a3) (ha1 : Inv a1) : Inv (startClear a1 a2 a3) := by
  unfold startClear
  repeat' first
      | with_reducible assumption | with_reducible apply clearAsk_inv | with_reducible apply State.setSlice_inv
      | with_reducible apply State.setCl_inv | extract_lets | intro _ | split | dsimp +zetaDelta only

theorem ccCtrlWrite_inv {a1 : State} (a2) (a3) (ha1 : Inv a1) : Inv (ccCtrlWrite a1 a2 a3) := by
  unfold ccCtrlWrite
  repeat' first
      | with_reducible assumption | with_reducible apply startClear_inv | with_reducible apply cacheEnableAct_inv
      | with_reducible apply pageWrite_inv | with_reducible apply when_inv | extract_lets | intro _ | with_reducible apply inv_ite | split
      | dsimp +zetaDelta only

theorem dcCmdWrite_inv {a1 : State} (a2) (a3) (ha1 : Inv a1) : Inv (dcCmdWrite a1 a2 a3) := by
  unfold dcCmdWrite
  repeat' first
      | with_reducible assumption | with_reducible apply startClear_inv | with_reducible apply pageWrite_inv | with_reducible apply when_inv
      | extract_lets | intro _ | dsimp +zetaDelta only

theorem execCcFlush_inv (a1) (a2) {a3 : State} (ha3 : Inv a3) : NextInv (execCcFlush a1 a2 a3) := by
  unfold execCcFlush
  repeat' first
      | with_reducible assumption | with_reducible apply nextInv_next | with_reducible apply ccCtrlWrite_inv | intro _

theorem execCcInv_inv (a1) (a2) {a3 : State} (ha3 : Inv a3) : NextInv (execCcInv a1 a2 a3) := by
  unfold execCcInv
  repeat' first
      | with_reducible assumption | with_reducible apply nextInv_next | with_reducible apply ccCtrlWrite_inv | intro _

theorem execDcFlush_inv (a1) (a2) {a3 : State} (ha3 : Inv a3) : NextInv (execDcFlush a1 a2 a3) := by
  unfold execDcFlush
  repeat' first
      | with_reducible assumption | with_reducible apply nextInv_next | with_reducible apply dcCmdWrite_inv | intro _

theorem execDcInv_inv (a1) (a2) {a3 : State} (ha3 : Inv a3) : NextInv (execDcInv a1 a2 a3) := by
  unfold execDcInv
  repeat' first
      | with_reducible assumption | with_reducible apply nextInv_next | with_reducible apply dcCmdWrite_inv | intro _

theorem clusterClear_inv {a1 : State} (a2) (a3) (ha1 : Inv a1) : Inv (clusterClear a1 a2 a3) := by
  unfold clusterClear
  repeat' first
      | with_reducible assumption | with_reducible apply ccEvict_inv | with_reducible apply homeClean_inv
      | with_reducible apply setCcLine_inv | with_reducible apply cntPreg_inv | with_reducible apply foldl_inv
      | with_reducible apply foldl_inv1 | intro _ | with_reducible apply inv_ite | split | dsimp +zetaDelta only

theorem sliceDrop_inv (a1) {a2 : State} (a3) (ha2 : Inv a2) : Inv (sliceDrop a1 a2 a3) := by
  unfold sliceDrop
  repeat' first
      | with_reducible assumption | with_reducible apply dropCopies_inv | with_reducible apply writeBelow_inv
      | with_reducible apply setSl_inv | with_reducible apply cntPreg_inv | extract_lets | intro _ | with_reducible apply inv_ite | split
      | dsimp +zetaDelta only

theorem sliceClear_inv {a1 : State} (a2) (a3) (ha1 : Inv a1) : Inv (sliceClear a1 a2 a3) := by
  unfold sliceClear
  repeat' first
      | with_reducible assumption | with_reducible apply sliceDrop_inv | with_reducible apply foldl_inv | with_reducible apply foldl_inv1
      | intro _ | dsimp +zetaDelta only

theorem finishClear_inv {a1 : State} (a2) (ha1 : Inv a1) : Inv (finishClear a1 a2) := by
  unfold finishClear
  repeat' first
      | with_reducible assumption | with_reducible apply setFlags_inv | with_reducible apply wayCheck_inv | with_reducible apply goDone_inv
      | with_reducible apply State.setSlice_inv | with_reducible apply State.setCl_inv | extract_lets | with_reducible apply foldl_inv
      | with_reducible apply foldl_inv1 | intro _ | with_reducible apply inv_ite | split | dsimp +zetaDelta only

end Sys2Proof.Machine
end

