-- ==== Sys2Proof/Laws/InvCrossOps.lean ====
section
/-! SUPPORT. Every operation of Machine/CrossOps.lean keeps the invariant. -/

set_option Elab.async false

namespace Sys2Proof.Machine

open Sys2Proof

theorem setPortState_inv {a1 : State} (a2) (a3) (ha1 : Inv a1) : Inv (setPortState a1 a2 a3) := by
  unfold setPortState
  repeat' first
      | with_reducible assumption | with_reducible apply withReady_inv | with_reducible apply raiseInt_inv
      | with_reducible apply State.setPort_inv | intro _ | with_reducible apply inv_ite | split

theorem sendWord_inv {a1 : State} (a2) (a3) (ha1 : Inv a1) : Inv (sendWord a1 a2 a3) := by
  unfold sendWord
  repeat' first
      | with_reducible assumption | with_reducible apply emit_inv | intro _

theorem logLost_inv {a1 : State} (a2) (a3) (a4) (a5) (a6) (a7) (ha1 : Inv a1) : Inv (logLost a1 a2 a3 a4 a5 a6 a7) := by
  unfold logLost
  repeat' first
      | with_reducible assumption | with_reducible apply offer_inv | intro _

theorem sendReliable_inv {a1 : State} (a2) (a3) (ha1 : Inv a1) : Inv (sendReliable a1 a2 a3) := by
  unfold sendReliable
  repeat' first
      | with_reducible assumption | with_reducible apply logLost_inv | with_reducible apply raiseErr_inv
      | with_reducible apply State.setPort_inv | with_reducible apply emit_inv | extract_lets | intro _ | with_reducible apply inv_ite
      | split | dsimp +zetaDelta only

theorem closeBundle_inv {a1 : State} (a2) (a3) (ha1 : Inv a1) : Inv (closeBundle a1 a2 a3) := by
  unfold closeBundle
  repeat' first
      | with_reducible assumption | with_reducible apply State.setPort_inv | extract_lets | intro _ | dsimp +zetaDelta only

theorem settleOpens_inv {a1 : State} (a2) (ha1 : Inv a1) : Inv (settleOpens a1 a2) := by
  unfold settleOpens
  repeat' first
      | with_reducible assumption | with_reducible apply closeBundle_inv | with_reducible apply foldl_inv | with_reducible apply foldl_inv1
      | intro _ | with_reducible apply inv_ite | split

theorem mapOpens_inv {a1 : State} (a2) (a3) (ha1 : Inv a1) : Inv (mapOpens a1 a2 a3) := by
  unfold mapOpens
  repeat' first
      | with_reducible assumption | with_reducible apply settleOpens_inv | with_reducible apply State.setPort_inv | intro _

theorem closeFor_inv {a1 : State} (a2) (a3) (ha1 : Inv a1) : Inv (closeFor a1 a2 a3) := by
  unfold closeFor
  repeat' first
      | with_reducible assumption | with_reducible apply mapOpens_inv | intro _ | with_reducible apply inv_ite | split

theorem openFor_inv {a1 : State} (a2) (a3) (ha1 : Inv a1) : Inv (openFor a1 a2 a3) := by
  unfold openFor
  repeat' first
      | with_reducible assumption | with_reducible apply State.setPort_inv | extract_lets | intro _ | with_reducible apply inv_ite | split
      | dsimp +zetaDelta only

theorem xlAppend_inv {a1 : State} (a2) (a3) (a4) (ha1 : Inv a1) : Inv (xlAppend a1 a2 a3 a4) := by
  unfold xlAppend
  repeat' first
      | with_reducible assumption | with_reducible apply openFor_inv | with_reducible apply mapOpens_inv | intro _
      | with_reducible apply inv_ite | split

theorem xlReserve_inv {a1 : State} (a2) (a3) (a4) (ha1 : Inv a1) : Inv (xlReserve a1 a2 a3 a4) := by
  unfold xlReserve
  repeat' first
      | with_reducible assumption | with_reducible apply openFor_inv | with_reducible apply mapOpens_inv | intro _
      | with_reducible apply inv_ite | split

theorem xlFill_inv {a1 : State} (a2) (a3) (ha1 : Inv a1) : Inv (xlFill a1 a2 a3) := by
  unfold xlFill
  repeat' first
      | with_reducible assumption | with_reducible apply mapOpens_inv | with_reducible apply foldl_inv | with_reducible apply foldl_inv1
      | intro _ | with_reducible apply inv_ite | split

theorem xlCancel_inv {a1 : State} (a2) (ha1 : Inv a1) : Inv (xlCancel a1 a2) := by
  unfold xlCancel
  repeat' first
      | with_reducible assumption | with_reducible apply settleOpens_inv | with_reducible apply State.setPort_inv | extract_lets
      | with_reducible apply foldl_inv | with_reducible apply foldl_inv1 | intro _ | with_reducible apply inv_ite | split
      | dsimp +zetaDelta only

theorem freeBerth_inv {a1 : State} (a2) (a3) (ha1 : Inv a1) : Inv (freeBerth a1 a2 a3) := by
  unfold freeBerth
  repeat' first
      | with_reducible assumption | with_reducible apply sendWord_inv | with_reducible apply State.setPort_inv | extract_lets | intro _
      | dsimp +zetaDelta only

theorem loseBundle_inv {a1 : State} (a2) (a3) (ha1 : Inv a1) : Inv (loseBundle a1 a2 a3) := by
  unfold loseBundle
  repeat' first
      | with_reducible assumption | with_reducible apply freeBerth_inv | with_reducible apply logLost_inv
      | with_reducible apply State.setPort_inv | with_reducible apply cntPreg_inv | extract_lets | intro _ | with_reducible apply inv_ite
      | split | dsimp +zetaDelta only

theorem loseUnit_inv {a1 : State} (a2) (a3) (ha1 : Inv a1) : Inv (loseUnit a1 a2 a3) := by
  unfold loseUnit
  repeat' first
      | with_reducible assumption | with_reducible apply loseBundle_inv | with_reducible apply logLost_inv | intro _
      | with_reducible apply inv_ite | split

theorem dropReceived_inv {a1 : State} (a2) (ha1 : Inv a1) : Inv (dropReceived a1 a2) := by
  unfold dropReceived
  repeat' first
      | with_reducible assumption | with_reducible apply loseBundle_inv | with_reducible apply State.setPort_inv | extract_lets
      | with_reducible apply foldl_inv | with_reducible apply foldl_inv1 | intro _ | split | dsimp +zetaDelta only

theorem dropTraffic_inv {a1 : State} (a2) (ha1 : Inv a1) : Inv (dropTraffic a1 a2) := by
  unfold dropTraffic
  repeat' first
      | with_reducible assumption | with_reducible apply dropReceived_inv | with_reducible apply loseUnit_inv
      | with_reducible apply closeBundle_inv | with_reducible apply sendWord_inv | with_reducible apply raiseErr_inv
      | with_reducible apply goDone_inv | with_reducible apply State.setPort_inv | with_reducible apply when_inv | extract_lets
      | with_reducible apply foldl_inv | with_reducible apply foldl_inv1 | intro _ | split | dsimp +zetaDelta only

theorem fencePort_inv {a1 : State} (a2) (ha1 : Inv a1) : Inv (fencePort a1 a2) := by
  unfold fencePort
  repeat' first
      | with_reducible assumption | with_reducible apply dropTraffic_inv | with_reducible apply setPortState_inv
      | with_reducible apply orPreg_inv | extract_lets | intro _ | with_reducible apply inv_ite | split | dsimp +zetaDelta only

theorem portRestart_inv {a1 : State} (a2) (ha1 : Inv a1) : Inv (portRestart a1 a2) := by
  unfold portRestart
  repeat' first
      | with_reducible assumption | with_reducible apply dropTraffic_inv | with_reducible apply setPortState_inv | intro _

theorem beginEpisode_inv {a1 : State} (a2) (ha1 : Inv a1) : Inv (beginEpisode a1 a2) := by
  unfold beginEpisode
  repeat' first
      | with_reducible assumption | with_reducible apply setPreg_inv | extract_lets | intro _ | with_reducible apply inv_ite | split
      | fail_if_no_progress with_reducible refine inv_frame ?_ rfl rfl rfl | dsimp +zetaDelta only

theorem endEpisode_inv {a1 : State} (a2) (ha1 : Inv a1) : Inv (endEpisode a1 a2) := by
  unfold endEpisode
  repeat' first
      | with_reducible assumption | intro _ | with_reducible apply inv_ite | split
      | fail_if_no_progress with_reducible refine inv_frame ?_ rfl rfl rfl

theorem sendAbort_inv {a1 : State} (a2) (a3) (a4) (a5) (ha1 : Inv a1) : Inv (sendAbort a1 a2 a3 a4 a5) := by
  unfold sendAbort
  repeat' first
      | with_reducible assumption | with_reducible apply sendReliable_inv | extract_lets | with_reducible apply foldl_inv
      | with_reducible apply foldl_inv1 | intro _ | with_reducible apply inv_ite | split
      | fail_if_no_progress with_reducible refine inv_frame ?_ rfl rfl rfl | dsimp +zetaDelta only

theorem routeFare_inv {a1 : State} (a2) (a3) (a4) (ha1 : Inv a1) : Inv (routeFare a1 a2 a3 a4) := by
  unfold routeFare
  repeat' first
      | with_reducible assumption | with_reducible apply sendReliable_inv | with_reducible apply logLost_inv
      | with_reducible apply raiseErr_inv | extract_lets | intro _ | with_reducible apply inv_ite | split
      | fail_if_no_progress with_reducible refine inv_frame ?_ rfl rfl rfl | dsimp +zetaDelta only

end Sys2Proof.Machine
end

