-- ==== Sys2Proof/Laws/InvCoreOps.lean ====
section
/-! SUPPORT. Every operation of Machine/CoreOps.lean keeps the invariant. -/

set_option Elab.async false

namespace Sys2Proof.Machine

open Sys2Proof

theorem setTtReg_inv {a1 : State} (a2) (a3) (a4) (ha1 : Inv a1) : Inv (setTtReg a1 a2 a3 a4) := by
  unfold setTtReg
  repeat' first
      | with_reducible assumption | with_reducible apply State.setReg_inv | intro _

theorem setTt_inv {a1 : State} (a2) (a3) (ha1 : Inv a1) : Inv (setTt a1 a2 a3) := by
  unfold setTt
  repeat' first
      | with_reducible assumption | with_reducible apply State.setCoreRaw_inv | intro _

theorem setWaits_inv {a1 : State} (a2) (a3) (a4) (ha1 : Inv a1) : Inv (setWaits a1 a2 a3 a4) := by
  unfold setWaits
  repeat' first
      | with_reducible assumption | with_reducible apply State.setCore_inv | extract_lets | intro _ | with_reducible apply inv_ite | split
      | dsimp +zetaDelta only

theorem wakeCore_inv {a1 : State} (a2) (ha1 : Inv a1) : Inv (wakeCore a1 a2) := by
  unfold wakeCore
  repeat' first
      | with_reducible assumption | with_reducible apply setWaits_inv | extract_lets | with_reducible apply foldl_inv
      | with_reducible apply foldl_inv1 | intro _ | with_reducible apply inv_ite | split | dsimp +zetaDelta only

theorem endWait_inv {a1 : State} (a2) (a3) (a4) (a5) (ha1 : Inv a1) : Inv (endWait a1 a2 a3 a4 a5) := by
  unfold endWait
  repeat' first
      | with_reducible assumption | with_reducible apply setWaits_inv | extract_lets | intro _ | dsimp +zetaDelta only

theorem setEvent_inv {a1 : State} (a2) (a3) (ha1 : Inv a1) : Inv (setEvent a1 a2 a3) := by
  unfold setEvent
  repeat' first
      | with_reducible assumption | with_reducible apply wakeCore_inv | with_reducible apply State.setCore_inv | extract_lets | intro _
      | dsimp +zetaDelta only

theorem State.setLock_inv {a1 : State} (a2) (a3) (ha1 : Inv a1) : Inv (State.setLock a1 a2 a3) := by
  unfold State.setLock
  repeat' first
      | with_reducible assumption | intro _ | fail_if_no_progress with_reducible refine inv_frame ?_ rfl rfl rfl

theorem serveLock_inv {a1 : State} (a2) (a3) (ha1 : Inv a1) : Inv (serveLock a1 a2 a3) := by
  unfold serveLock
  repeat' first
      | with_reducible assumption | with_reducible apply State.setLock_inv | with_reducible apply endWait_inv
      | with_reducible apply cntPreg_inv | extract_lets | intro _ | split | dsimp +zetaDelta only

theorem breakLock_inv {a1 : State} (a2) (ha1 : Inv a1) : Inv (breakLock a1 a2) := by
  unfold breakLock
  repeat' first
      | with_reducible assumption | with_reducible apply serveLock_inv | with_reducible apply State.setLock_inv
      | with_reducible apply raiseErr_inv | with_reducible apply cntPreg_inv | extract_lets | intro _ | dsimp +zetaDelta only

theorem breakLocksOf_inv {a1 : State} (a2) (ha1 : Inv a1) : Inv (breakLocksOf a1 a2) := by
  unfold breakLocksOf
  repeat' first
      | with_reducible assumption | with_reducible apply breakLock_inv | with_reducible apply foldl_inv | with_reducible apply foldl_inv1
      | intro _ | with_reducible apply inv_ite | split

theorem leaveQueues_inv {a1 : State} (a2) (ha1 : Inv a1) : Inv (leaveQueues a1 a2) := by
  unfold leaveQueues
  repeat' first
      | with_reducible assumption | with_reducible apply State.setLock_inv | extract_lets | with_reducible apply foldl_inv
      | with_reducible apply foldl_inv1 | intro _ | split | dsimp +zetaDelta only

theorem lockTaken_inv {a1 : State} (a2) (a3) (a4) (ha1 : Inv a1) : Inv (lockTaken a1 a2 a3 a4).1 := by
  unfold lockTaken
  repeat' first
      | with_reducible assumption | with_reducible apply State.setLock_inv | intro _ | with_reducible apply inv_ite | split

theorem acquire_inv {a1 : State} (a2) (a3) (a4) (ha1 : Inv a1) : Inv (acquire a1 a2 a3 a4).1 := by
  unfold acquire
  repeat' first
      | with_reducible assumption | with_reducible apply lockTaken_inv | with_reducible apply serveLock_inv
      | with_reducible apply State.setLock_inv | with_reducible apply raiseErr_inv | with_reducible apply cntPreg_inv | extract_lets
      | intro _ | with_reducible apply inv_ite | split | dsimp +zetaDelta only

theorem release_inv {a1 : State} (a2) (a3) (a4) (ha1 : Inv a1) : Inv (release a1 a2 a3 a4).1 := by
  unfold release
  repeat' first
      | with_reducible assumption | with_reducible apply serveLock_inv | with_reducible apply State.setLock_inv
      | with_reducible apply raiseErr_inv | extract_lets | intro _ | with_reducible apply inv_ite | split | dsimp +zetaDelta only

theorem haltCore_inv {a1 : State} (a2) (a3) (a4) (a5) (ha1 : Inv a1) : Inv (haltCore a1 a2 a3 a4 a5) := by
  unfold haltCore
  repeat' first
      | with_reducible assumption | with_reducible apply leaveQueues_inv | with_reducible apply State.setCore_inv
      | with_reducible apply raiseErrX_inv | with_reducible apply raiseInt_inv | extract_lets | intro _ | dsimp +zetaDelta only

theorem noteUpset_inv {a1 : State} (a2) (a3) (a4) (ha1 : Inv a1) : Inv (noteUpset a1 a2 a3 a4) := by
  unfold noteUpset
  repeat' first
      | with_reducible assumption | with_reducible apply raiseErr_inv | intro _ | with_reducible apply inv_ite | split

theorem haltLate_inv {a1 : State} (a2) (a3) (a4) (a5) (ha1 : Inv a1) : Inv (haltLate a1 a2 a3 a4 a5) := by
  unfold haltLate
  repeat' first
      | with_reducible assumption | with_reducible apply haltCore_inv | intro _ | split

theorem sendStatus_inv {a1 : State} (a2) (a3) (a4) (ha1 : Inv a1) : Inv (sendStatus a1 a2 a3 a4) := by
  unfold sendStatus
  repeat' first
      | with_reducible assumption | with_reducible apply State.setCore_inv | with_reducible apply raiseErr_inv | extract_lets | intro _
      | with_reducible apply inv_ite | split | dsimp +zetaDelta only

theorem spendFare_inv {a1 : State} (a2) (a3) (ha1 : Inv a1) : Inv (spendFare a1 a2 a3) := by
  unfold spendFare
  repeat' first
      | with_reducible assumption | with_reducible apply State.setCore_inv | extract_lets | intro _ | dsimp +zetaDelta only

theorem launch_inv {a1 : State} (a2) (a3) (a4) (ha1 : Inv a1) : Inv (launch a1 a2 a3 a4) := by
  unfold launch
  repeat' first
      | with_reducible assumption | with_reducible apply xlFill_inv | with_reducible apply xlAppend_inv
      | with_reducible apply State.setCore_inv | with_reducible apply cntPreg_inv | extract_lets | intro _ | with_reducible apply inv_ite
      | split | fail_if_no_progress with_reducible refine inv_frame ?_ rfl rfl rfl | dsimp +zetaDelta only

theorem beginSend_inv {a1 : State} (a2) (a3) (a4) (ha1 : Inv a1) : Inv (beginSend a1 a2 a3 a4) := by
  unfold beginSend
  repeat' first
      | with_reducible assumption | with_reducible apply spendFare_inv | with_reducible apply xlReserve_inv
      | with_reducible apply State.setCore_inv | extract_lets | intro _ | with_reducible apply inv_ite | split | dsimp +zetaDelta only

theorem resumeSend_inv {a1 : State} (a2) (ha1 : Inv a1) : Inv (resumeSend a1 a2) := by
  unfold resumeSend
  repeat' first
      | with_reducible assumption | with_reducible apply beginSend_inv | with_reducible apply setWaits_inv | extract_lets | intro _
      | with_reducible apply inv_ite | split | dsimp +zetaDelta only

theorem drainSendQ_inv {a1 : State} (a2) (ha1 : Inv a1) : Inv (drainSendQ a1 a2) := by
  unfold drainSendQ
  repeat' first
      | with_reducible assumption | with_reducible apply launch_inv | with_reducible apply spendFare_inv | with_reducible apply setTt_inv
      | extract_lets | with_reducible apply foldl_inv | with_reducible apply foldl_inv1 | intro _ | with_reducible apply inv_ite | split
      | dsimp +zetaDelta only

theorem wakeSender_inv {a1 : State} (a2) (ha1 : Inv a1) : Inv (wakeSender a1 a2) := by
  unfold wakeSender
  repeat' first
      | with_reducible assumption | with_reducible apply drainSendQ_inv | with_reducible apply resumeSend_inv | intro _

theorem wakeSenders_inv {a1 : State} (ha1 : Inv a1) : Inv (wakeSenders a1) := by
  unfold wakeSenders
  repeat' first
      | with_reducible assumption | with_reducible apply wakeSender_inv | with_reducible apply foldl_inv | with_reducible apply foldl_inv1
      | intro _ | with_reducible apply inv_ite | split

theorem dropMsg_inv {a1 : State} (a2) (a3) (a4) (ha1 : Inv a1) : Inv (dropMsg a1 a2 a3 a4) := by
  unfold dropMsg
  repeat' first
      | with_reducible assumption | with_reducible apply raiseErr_inv | with_reducible apply cntPreg_inv | extract_lets | intro _ | split
      | dsimp +zetaDelta only

theorem beginFill_inv {a1 : State} (a2) (a3) (ha1 : Inv a1) : Inv (beginFill a1 a2 a3) := by
  unfold beginFill
  repeat' first
      | with_reducible assumption | with_reducible apply dropMsg_inv | with_reducible apply State.setCore_inv | extract_lets | intro _
      | split | fail_if_no_progress with_reducible refine inv_frame ?_ rfl rfl rfl | dsimp +zetaDelta only

theorem deliver_inv {a1 : State} (a2) (a3) (ha1 : Inv a1) : Inv (deliver a1 a2 a3) := by
  unfold deliver
  repeat' first
      | with_reducible assumption | with_reducible apply dropMsg_inv | with_reducible apply wakeCore_inv
      | with_reducible apply State.setCore_inv | with_reducible apply cntPreg_inv | extract_lets | intro _ | with_reducible apply inv_ite
      | split | dsimp +zetaDelta only

theorem spoilMsg_inv {a1 : State} (a2) (ha1 : Inv a1) : Inv (spoilMsg a1 a2) := by
  unfold spoilMsg
  repeat' first
      | with_reducible assumption | with_reducible apply dropMsg_inv | with_reducible apply State.setCore_inv | extract_lets | intro _
      | with_reducible apply inv_ite | split | dsimp +zetaDelta only

theorem dropFilling_inv {a1 : State} (a2) (ha1 : Inv a1) : Inv (dropFilling a1 a2) := by
  unfold dropFilling
  repeat' first
      | with_reducible assumption | with_reducible apply dropMsg_inv | extract_lets | with_reducible apply foldl_inv
      | with_reducible apply foldl_inv1 | intro _ | fail_if_no_progress with_reducible refine inv_frame ?_ rfl rfl rfl
      | dsimp +zetaDelta only

theorem arriveFare_inv {a1 : State} (a2) (ha1 : Inv a1) : Inv (arriveFare a1 a2) := by
  unfold arriveFare
  repeat' first
      | with_reducible assumption | with_reducible apply wakeSender_inv | with_reducible apply State.setCore_inv
      | with_reducible apply cntPreg_inv | extract_lets | intro _ | with_reducible apply inv_ite | split | dsimp +zetaDelta only

theorem berthRelease_inv {a1 : State} (a2) (a3) (ha1 : Inv a1) : Inv (berthRelease a1 a2 a3) := by
  unfold berthRelease
  repeat' first
      | with_reducible assumption | with_reducible apply routeFare_inv | with_reducible apply State.setCore_inv | extract_lets | intro _
      | with_reducible apply inv_ite | split | dsimp +zetaDelta only

theorem resetRegs_inv {s : State} (p keep) (h : Inv s) : Inv (resetRegs s p keep) :=
  ⟨filter_wf _ _ _ h.regs, h.staged, h.captured, h.dm, h.poison, h.bar4, h.queue, h.inq, h.report⟩

theorem clearCore_inv {a1 : State} (a2) (ha1 : Inv a1) : Inv (clearCore a1 a2) := by
  unfold clearCore
  repeat' first
      | with_reducible assumption | with_reducible apply resetRegs_inv | with_reducible apply dropFilling_inv
      | with_reducible apply xlCancel_inv | with_reducible apply State.setCore_inv | extract_lets | intro _
      | fail_if_no_progress with_reducible refine inv_frame ?_ rfl rfl rfl | dsimp +zetaDelta only

theorem loseLocks_inv {a1 : State} (a2) (ha1 : Inv a1) : Inv (loseLocks a1 a2) := by
  unfold loseLocks
  repeat' first
      | with_reducible assumption | with_reducible apply leaveQueues_inv | with_reducible apply breakLocksOf_inv
      | with_reducible apply foldl_inv | with_reducible apply foldl_inv1 | intro _

theorem resetCore_inv {a1 : State} (a2) (ha1 : Inv a1) : Inv (resetCore a1 a2) := by
  unfold resetCore
  repeat' first
      | with_reducible assumption | with_reducible apply loseLocks_inv | with_reducible apply clearCore_inv | intro _

theorem stopFenced_inv {a1 : State} (a2) (ha1 : Inv a1) : Inv (stopFenced a1 a2) := by
  unfold stopFenced
  repeat' first
      | with_reducible assumption | with_reducible apply xlCancel_inv | with_reducible apply State.setCore_inv
      | with_reducible apply clrPreg_inv | extract_lets | intro _ | with_reducible apply inv_ite | split | dsimp +zetaDelta only

theorem fenceCores_inv {a1 : State} (a2) (ha1 : Inv a1) : Inv (fenceCores a1 a2) := by
  unfold fenceCores
  repeat' first
      | with_reducible assumption | with_reducible apply stopFenced_inv | with_reducible apply loseLocks_inv
      | with_reducible apply orPreg_inv | extract_lets | with_reducible apply foldl_inv | with_reducible apply foldl_inv1 | intro _
      | dsimp +zetaDelta only

theorem fenceCore_inv {a1 : State} (a2) (ha1 : Inv a1) : Inv (fenceCore a1 a2) := by
  unfold fenceCore
  repeat' first
      | with_reducible assumption | with_reducible apply fenceCores_inv | intro _

theorem unfenceCore_inv {a1 : State} (a2) (ha1 : Inv a1) : Inv (unfenceCore a1 a2) := by
  unfold unfenceCore
  repeat' first
      | with_reducible assumption | with_reducible apply resetCore_inv | with_reducible apply clrPreg_inv | extract_lets | intro _
      | with_reducible apply inv_ite | split | dsimp +zetaDelta only

theorem askPark_inv {a1 : State} (a2) (ha1 : Inv a1) : Inv (askPark a1 a2) := by
  unfold askPark
  repeat' first
      | with_reducible assumption | with_reducible apply leaveQueues_inv | with_reducible apply State.setCore_inv | extract_lets | intro _
      | split | dsimp +zetaDelta only

theorem startCore_inv {a1 : State} (a2) (a3) (ha1 : Inv a1) : Inv (startCore a1 a2 a3) := by
  unfold startCore
  repeat' first
      | with_reducible assumption | with_reducible apply State.setCore_inv | extract_lets | intro _ | with_reducible apply inv_ite | split
      | dsimp +zetaDelta only

end Sys2Proof.Machine
end

