-- ==== Sys2Proof/Laws/InvAccess.lean ====
section
/-! SUPPORT. Every operation of Machine/Access.lean keeps the invariant. -/

set_option Elab.async false

namespace Sys2Proof.Machine

open Sys2Proof

theorem coreRead_inv {a1 : State} (a2) (a3) (a4) (ha1 : Inv a1) : Inv (coreRead a1 a2 a3 a4).1 := by
  unfold coreRead
  repeat' first
      | with_reducible assumption | with_reducible apply landGrant_inv | with_reducible apply clearRetry_inv
      | with_reducible apply serveRdcur_inv | with_reducible apply serveRds_inv | with_reducible apply cntPreg_inv | extract_lets | intro _
      | with_reducible apply inv_ite | split | dsimp +zetaDelta only

theorem coreOwn_inv {a1 : State} (a2) (a3) (a4) (ha1 : Inv a1) : Inv (coreOwn a1 a2 a3 a4) := by
  unfold coreOwn
  repeat' first
      | with_reducible assumption | with_reducible apply landGrant_inv | with_reducible apply clearRetry_inv
      | with_reducible apply serveUpg_inv | with_reducible apply serveRdo_inv | with_reducible apply setCcLine_inv
      | with_reducible apply cntPreg_inv | intro _ | with_reducible apply inv_ite | split

theorem coreWrite_inv {a1 : State} (a2) (a3) (a4) (a5) (a6) (a7) (a8) (ha1 : Inv a1) : Inv (coreWrite a1 a2 a3 a4 a5 a6 a7 a8) := by
  unfold coreWrite
  repeat' first
      | with_reducible assumption | with_reducible apply coreOwn_inv | with_reducible apply clearRetry_inv
      | with_reducible apply mergeOwned_inv | with_reducible apply serveWrpart_inv | with_reducible apply serveWrinv_inv
      | with_reducible apply reportPartial_inv | with_reducible apply setCcLine_inv | extract_lets | intro _ | with_reducible apply inv_ite
      | split | dsimp +zetaDelta only

theorem lineAsk_inv {a1 : State} (a2) (a3) (a4) (a5) (a6) (ha1 : Inv a1) : Inv (lineAsk a1 a2 a3 a4 a5 a6) := by
  unfold lineAsk
  repeat' first
      | with_reducible assumption | with_reducible apply ccMerge_inv | with_reducible apply homeAsk_inv | intro _
      | with_reducible apply inv_ite | split

theorem accessRead_inv {a1 : State} (a2) (a3) (a4) (ha1 : Inv a1) : Inv (accessRead a1 a2 a3 a4).1 := by
  unfold accessRead
  repeat' first
      | with_reducible assumption | with_reducible apply coreRead_inv | extract_lets | with_reducible apply foldl_inv
      | with_reducible apply foldl_inv1 | intro _ | with_reducible apply inv_ite | split | dsimp +zetaDelta only

theorem accessWrite_inv {a1 : State} (a2) (a3) (a4) (a5) (a6) (ha1 : Inv a1) : Inv (accessWrite a1 a2 a3 a4 a5 a6) := by
  unfold accessWrite
  repeat' first
      | with_reducible assumption | with_reducible apply coreWrite_inv | extract_lets | with_reducible apply foldl_inv
      | with_reducible apply foldl_inv1 | intro _ | dsimp +zetaDelta only

theorem accessWake_inv {a1 : State} (a2) (ha1 : Inv a1) : Inv (accessWake a1 a2) := by
  unfold accessWake
  repeat' first
      | with_reducible assumption | with_reducible apply release_inv | with_reducible apply endWait_inv | with_reducible apply wakeCore_inv
      | extract_lets | with_reducible apply foldl_inv | with_reducible apply foldl_inv1 | intro _ | with_reducible apply inv_ite | split
      | dsimp +zetaDelta only

theorem dropAccess_inv {a1 : State} (a2) (a3) (a4) (ha1 : Inv a1) : Inv (dropAccess a1 a2 a3 a4) := by
  unfold dropAccess
  repeat' first
      | with_reducible assumption | with_reducible apply State.setCore_inv | extract_lets | intro _ | with_reducible apply inv_ite | split
      | fail_if_no_progress with_reducible refine inv_frame ?_ rfl rfl rfl | dsimp +zetaDelta only

theorem accessError_inv {a1 : State} (a2) (a3) (a4) (a5) (ha1 : Inv a1) : Inv (accessError a1 a2 a3 a4 a5) := by
  unfold accessError
  repeat' first
      | with_reducible assumption | with_reducible apply dropAccess_inv | with_reducible apply accessWake_inv
      | with_reducible apply haltLate_inv | extract_lets | intro _ | with_reducible apply inv_ite | split | dsimp +zetaDelta only

theorem storeSent_inv {a1 : State} (a2) (a3) (a4) (a5) (ha1 : Inv a1) : Inv (storeSent a1 a2 a3 a4 a5) := by
  unfold storeSent
  repeat' first
      | with_reducible assumption | with_reducible apply dropAccess_inv | with_reducible apply accessWake_inv
      | with_reducible apply State.setCore_inv | extract_lets | intro _ | with_reducible apply inv_ite | split | dsimp +zetaDelta only

theorem storesSeen_inv {a1 : State} (a2) (ha1 : Inv a1) : Inv (storesSeen a1 a2) := by
  unfold storesSeen
  repeat' first
      | with_reducible assumption | with_reducible apply accessWake_inv | with_reducible apply State.setCore_inv | extract_lets | intro _
      | with_reducible apply inv_ite | split | dsimp +zetaDelta only

theorem hostGamo_inv {a1 : State} (a2) (a3) (a4) (ha1 : Inv a1) : Inv (hostGamo a1 a2 a3 a4).1 := by
  unfold hostGamo
  repeat' first
      | with_reducible assumption | with_reducible apply clearRetry_inv | with_reducible apply ownHost_inv
      | with_reducible apply homeStore_inv | extract_lets | intro _ | with_reducible apply inv_ite | split | dsimp +zetaDelta only

theorem deviceGamo_inv {a1 : State} (a2) (a3) (a4) (a5) (ha1 : Inv a1) : Inv (deviceGamo a1 a2 a3 a4 a5).1 := by
  unfold deviceGamo
  repeat' first
      | with_reducible assumption | with_reducible apply accessWrite_inv | with_reducible apply accessRead_inv
      | with_reducible apply coreOwn_inv | extract_lets | intro _ | with_reducible apply inv_ite | split | dsimp +zetaDelta only

theorem accessValue_inv {a1 : State} (a2) (a3) (a4) (a5) (ha1 : Inv a1) : Inv (accessValue a1 a2 a3 a4 a5).1 := by
  unfold accessValue
  repeat' first
      | with_reducible assumption | with_reducible apply deviceGamo_inv | with_reducible apply hostGamo_inv
      | with_reducible apply accessRead_inv | intro _ | with_reducible apply inv_ite | split

theorem accessDone_inv {a1 : State} (a2) (a3) (a4) (ha1 : Inv a1) : Inv (accessDone a1 a2 a3 a4) := by
  unfold accessDone
  repeat' first
      | with_reducible assumption | with_reducible apply accessValue_inv | with_reducible apply storeSent_inv
      | with_reducible apply accessError_inv | with_reducible apply dropAccess_inv | with_reducible apply accessWake_inv
      | with_reducible apply accessWrite_inv | with_reducible apply lineAsk_inv | with_reducible apply haltLate_inv
      | with_reducible apply State.setCore_inv | extract_lets | with_reducible apply foldl_inv | with_reducible apply foldl_inv1 | intro _
      | with_reducible apply inv_ite | split | dsimp +zetaDelta only

theorem execGlobalAccessComplete_inv (a1) (a2) (a3) {a4 : State} (ha4 : Inv a4) : NextInv (execGlobalAccessComplete a1 a2 a3 a4) := by
  unfold execGlobalAccessComplete
  repeat' first
      | with_reducible assumption | with_reducible apply nextInv_next | with_reducible apply accessDone_inv | intro _
      | with_reducible apply inv_ite | split

theorem lineAccesses_inv {a1 : State} (a2) (a3) (a4) (ha1 : Inv a1) : Inv (lineAccesses a1 a2 a3 a4) := by
  unfold lineAccesses
  repeat' first
      | with_reducible assumption | with_reducible apply accessDone_inv | extract_lets | with_reducible apply foldl_inv
      | with_reducible apply foldl_inv1 | intro _ | with_reducible apply inv_ite | split | dsimp +zetaDelta only

theorem clusterFillAll_inv {a1 : State} (a2) (a3) (a4) (ha1 : Inv a1) : Inv (clusterFillAll a1 a2 a3 a4) := by
  unfold clusterFillAll
  repeat' first
      | with_reducible assumption | with_reducible apply lineAccesses_inv | with_reducible apply answerMerged_inv
      | with_reducible apply clusterFill_inv | with_reducible apply startBi_inv | extract_lets | with_reducible apply foldl_inv
      | with_reducible apply foldl_inv1 | intro _ | with_reducible apply inv_ite | split | dsimp +zetaDelta only

theorem fillCache_inv {a1 : State} (a2) (a3) (a4) (a5) (ha1 : Inv a1) : Inv (fillCache a1 a2 a3 a4 a5) := by
  unfold fillCache
  repeat' first
      | with_reducible assumption | with_reducible apply clusterFillAll_inv | with_reducible apply sliceFill_inv | intro _ | split

end Sys2Proof.Machine
end

