-- ==== Sys2Proof/Laws/InvSense.lean ====
section
/-! SUPPORT. Every operation of Machine/Sense.lean keeps the invariant. -/

set_option Elab.async false

namespace Sys2Proof.Machine

open Sys2Proof

theorem onset_inv {a1 : State} (a2) (a3) (a4) (ha1 : Inv a1) : Inv (onset a1 a2 a3 a4) := by
  unfold onset
  repeat' first
      | with_reducible assumption | with_reducible apply raiseErr_inv | extract_lets | intro _ | with_reducible apply inv_ite | split
      | fail_if_no_progress with_reducible refine inv_frame ?_ rfl rfl rfl | dsimp +zetaDelta only

theorem normal_inv {a1 : State} (a2) (ha1 : Inv a1) : Inv (normal a1 a2) := by
  unfold normal
  repeat' first
      | with_reducible assumption | intro _ | fail_if_no_progress with_reducible refine inv_frame ?_ rfl rfl rfl

theorem condEnds_inv {a1 : State} (a2) (a3) (ha1 : Inv a1) : Inv (condEnds a1 a2 a3) := by
  unfold condEnds
  repeat' first
      | with_reducible assumption | intro _ | fail_if_no_progress with_reducible refine inv_frame ?_ rfl rfl rfl

theorem cageCheck_inv {a1 : State} (a2) (ha1 : Inv a1) : Inv (cageCheck a1 a2) := by
  unfold cageCheck
  repeat' first
      | with_reducible assumption | with_reducible apply normal_inv | with_reducible apply onset_inv | intro _
      | with_reducible apply inv_ite | split

end Sys2Proof.Machine
end

