-- ==== Sys2Proof/Laws/InvCrossing.lean ====
section
/-! SUPPORT. Every operation of Machine/Crossing.lean keeps the invariant. -/

set_option Elab.async false

namespace Sys2Proof.Machine

open Sys2Proof

theorem sendProbe_inv {a1 : State} (a2) (ha1 : Inv a1) : Inv (sendProbe a1 a2) := by
  unfold sendProbe
  repeat' first
      | with_reducible assumption | with_reducible apply sendWord_inv | with_reducible apply State.setPort_inv | extract_lets | intro _
      | with_reducible apply inv_ite | split | dsimp +zetaDelta only

theorem startMeasure_inv {a1 : State} (a2) (ha1 : Inv a1) : Inv (startMeasure a1 a2) := by
  unfold startMeasure
  repeat' first
      | with_reducible assumption | with_reducible apply sendProbe_inv | with_reducible apply State.setPort_inv | intro _
      | with_reducible apply inv_ite | split

theorem measureDue_inv {a1 : State} (a2) (ha1 : Inv a1) : Inv (measureDue a1 a2) := by
  unfold measureDue
  repeat' first
      | with_reducible assumption | with_reducible apply sendProbe_inv | with_reducible apply State.setPort_inv | intro _

theorem endMeasure_inv {a1 : State} (a2) (ha1 : Inv a1) : Inv (endMeasure a1 a2) := by
  unfold endMeasure
  repeat' first
      | with_reducible assumption | with_reducible apply goDone_inv | with_reducible apply State.setPort_inv | with_reducible apply when_inv
      | with_reducible apply setPreg_inv | extract_lets | intro _ | dsimp +zetaDelta only

theorem echoIn_inv {a1 : State} (a2) (a3) (a4) (ha1 : Inv a1) : Inv (echoIn a1 a2 a3 a4) := by
  unfold echoIn
  repeat' first
      | with_reducible assumption | with_reducible apply endMeasure_inv | with_reducible apply sendProbe_inv
      | with_reducible apply State.setPort_inv | extract_lets | intro _ | with_reducible apply inv_ite | split | dsimp +zetaDelta only

theorem execEcho_inv (a1) (a2) (a3) {a4 : State} (ha4 : Inv a4) : NextInv (execEcho a1 a2 a3 a4) := by
  unfold execEcho
  repeat' first
      | with_reducible assumption | with_reducible apply nextInv_next | with_reducible apply echoIn_inv | intro _
      | with_reducible apply inv_ite | split

theorem execProbeWord_inv (a1) (a2) (a3) {a4 : State} (ha4 : Inv a4) : NextInv (execProbeWord a1 a2 a3 a4) := by
  unfold execProbeWord
  repeat' first
      | with_reducible assumption | with_reducible apply nextInv_next | with_reducible apply sendWord_inv | intro _
      | with_reducible apply inv_ite | split

theorem laneStat_inv {a1 : State} (a2) (a3) (a4) (ha1 : Inv a1) : Inv (laneStat a1 a2 a3 a4) := by
  unfold laneStat
  repeat' first
      | with_reducible assumption | with_reducible apply raiseErr_inv | with_reducible apply setPreg_inv | extract_lets | intro _
      | with_reducible apply inv_ite | split | dsimp +zetaDelta only

theorem enterTrain_inv {a1 : State} (a2) (ha1 : Inv a1) : Inv (enterTrain a1 a2) := by
  unfold enterTrain
  repeat' first
      | with_reducible assumption | with_reducible apply setPortState_inv | intro _

theorem enterIdent_inv {a1 : State} (a2) (a3) (ha1 : Inv a1) : Inv (enterIdent a1 a2 a3) := by
  unfold enterIdent
  repeat' first
      | with_reducible assumption | with_reducible apply sendWord_inv | with_reducible apply setPortState_inv
      | with_reducible apply State.setPort_inv | with_reducible apply setPreg_inv | extract_lets | with_reducible apply foldl_inv
      | with_reducible apply foldl_inv1 | intro _ | dsimp +zetaDelta only

theorem enterUp_inv {a1 : State} (a2) (ha1 : Inv a1) : Inv (enterUp a1 a2) := by
  unfold enterUp
  repeat' first
      | with_reducible assumption | with_reducible apply wakeSenders_inv | with_reducible apply setPortState_inv
      | with_reducible apply State.setPort_inv | extract_lets | intro _ | dsimp +zetaDelta only

theorem stageDone_inv {a1 : State} (a2) (a3) (ha1 : Inv a1) : Inv (stageDone a1 a2 a3) := by
  unfold stageDone
  repeat' first
      | with_reducible assumption | with_reducible apply enterUp_inv | with_reducible apply enterIdent_inv
      | with_reducible apply enterTrain_inv | with_reducible apply laneStat_inv | with_reducible apply startMeasure_inv
      | with_reducible apply setPortState_inv | with_reducible apply raiseErr_inv | extract_lets | intro _ | with_reducible apply inv_ite
      | split | dsimp +zetaDelta only

theorem execXlStageComplete_inv (a1) (a2) {a3 : State} (ha3 : Inv a3) : NextInv (execXlStageComplete a1 a2 a3) := by
  unfold execXlStageComplete
  repeat' first
      | with_reducible assumption | with_reducible apply nextInv_next | with_reducible apply stageDone_inv | intro _

theorem execXlStageTimeout_inv (a1) (a2) {a3 : State} (ha3 : Inv a3) : NextInv (execXlStageTimeout a1 a2 a3) := by
  unfold execXlStageTimeout
  repeat' first
      | with_reducible assumption | with_reducible apply nextInv_next | with_reducible apply laneStat_inv
      | with_reducible apply setPortState_inv | with_reducible apply State.setPort_inv | extract_lets | intro _
      | with_reducible apply inv_ite | split | dsimp +zetaDelta only

theorem execXlRestart_inv (a1) {a2 : State} (ha2 : Inv a2) : NextInv (execXlRestart a1 a2) := by
  unfold execXlRestart
  repeat' first
      | with_reducible assumption | with_reducible apply nextInv_next | with_reducible apply setPortState_inv | intro _
      | with_reducible apply inv_ite | split

theorem xlEnableAct_inv {a1 : State} (a2) (a3) (ha1 : Inv a1) : Inv (xlEnableAct a1 a2 a3) := by
  unfold xlEnableAct
  repeat' first
      | with_reducible assumption | with_reducible apply cageCheck_inv | with_reducible apply normal_inv
      | with_reducible apply dropTraffic_inv | with_reducible apply setPortState_inv | with_reducible apply State.setPort_inv | extract_lets
      | intro _ | with_reducible apply inv_ite | split | dsimp +zetaDelta only

theorem xlUnfence_inv {a1 : State} (a2) (ha1 : Inv a1) : Inv (xlUnfence a1 a2) := by
  unfold xlUnfence
  repeat' first
      | with_reducible assumption | with_reducible apply setPortState_inv | intro _ | with_reducible apply inv_ite | split

theorem peerDown_inv {a1 : State} (a2) (ha1 : Inv a1) : Inv (peerDown a1 a2) := by
  unfold peerDown
  repeat' first
      | with_reducible assumption | with_reducible apply portRestart_inv | with_reducible apply raiseErr_inv | intro _
      | with_reducible apply inv_ite | split

theorem execFecLockLoss_inv (a1) {a2 : State} (ha2 : Inv a2) : NextInv (execFecLockLoss a1 a2) := by
  unfold execFecLockLoss
  repeat' first
      | with_reducible assumption | with_reducible apply nextInv_next | with_reducible apply peerDown_inv | intro _

theorem execDown_inv (a1) (a2) {a3 : State} (ha3 : Inv a3) : NextInv (execDown a1 a2 a3) := by
  unfold execDown
  repeat' first
      | with_reducible assumption | with_reducible apply nextInv_next | with_reducible apply peerDown_inv | intro _
      | with_reducible apply inv_ite | split

theorem xlCtrlWrite_inv {a1 : State} (a2) (a3) (ha1 : Inv a1) : Inv (xlCtrlWrite a1 a2 a3) := by
  unfold xlCtrlWrite
  repeat' first
      | with_reducible assumption | with_reducible apply startMeasure_inv | with_reducible apply dropTraffic_inv
      | with_reducible apply setPortState_inv | with_reducible apply pageWrite_inv | with_reducible apply goDone_inv
      | with_reducible apply State.setPort_inv | extract_lets | intro _ | with_reducible apply inv_ite | split | dsimp +zetaDelta only

theorem execRetrain_inv (a1) (a2) {a3 : State} (ha3 : Inv a3) : NextInv (execRetrain a1 a2 a3) := by
  unfold execRetrain
  repeat' first
      | with_reducible assumption | with_reducible apply nextInv_next | with_reducible apply xlCtrlWrite_inv | intro _

theorem execProbe_inv (a1) (a2) {a3 : State} (ha3 : Inv a3) : NextInv (execProbe a1 a2 a3) := by
  unfold execProbe
  repeat' first
      | with_reducible assumption | with_reducible apply nextInv_next | with_reducible apply xlCtrlWrite_inv | intro _

theorem execXlWinReset_inv (a1) (a2) {a3 : State} (ha3 : Inv a3) : NextInv (execXlWinReset a1 a2 a3) := by
  unfold execXlWinReset
  repeat' first
      | with_reducible assumption | with_reducible apply nextInv_next | with_reducible apply xlCtrlWrite_inv | intro _

theorem ident0In_inv {a1 : State} (a2) (a3) (ha1 : Inv a1) : Inv (ident0In a1 a2 a3) := by
  unfold ident0In
  repeat' first
      | with_reducible assumption | with_reducible apply portRestart_inv | with_reducible apply raiseErr_inv
      | with_reducible apply State.setPort_inv | with_reducible apply setPreg_inv | extract_lets | intro _ | with_reducible apply inv_ite
      | split | dsimp +zetaDelta only

theorem execIdent0_inv (a1) (a2) {a3 : State} (ha3 : Inv a3) : NextInv (execIdent0 a1 a2 a3) := by
  unfold execIdent0
  repeat' first
      | with_reducible assumption | with_reducible apply nextInv_next | with_reducible apply ident0In_inv | intro _
      | with_reducible apply inv_ite | split

theorem ident1In_inv {a1 : State} (a2) (a3) (ha1 : Inv a1) : Inv (ident1In a1 a2 a3) := by
  unfold ident1In
  repeat' first
      | with_reducible assumption | with_reducible apply portRestart_inv | with_reducible apply State.setPort_inv
      | with_reducible apply setPreg64_inv | extract_lets | intro _ | with_reducible apply inv_ite | split | dsimp +zetaDelta only

theorem execIdent1_inv (a1) (a2) {a3 : State} (ha3 : Inv a3) : NextInv (execIdent1 a1 a2 a3) := by
  unfold execIdent1
  repeat' first
      | with_reducible assumption | with_reducible apply nextInv_next | with_reducible apply ident1In_inv | intro _
      | with_reducible apply inv_ite | split

theorem creditIn_inv {a1 : State} (a2) (a3) (ha1 : Inv a1) : Inv (creditIn a1 a2 a3) := by
  unfold creditIn
  repeat' first
      | with_reducible assumption | with_reducible apply wakeSenders_inv | with_reducible apply raiseErr_inv
      | with_reducible apply State.setPort_inv | extract_lets | intro _ | with_reducible apply inv_ite | split | dsimp +zetaDelta only

theorem execCredit_inv (a1) (a2) {a3 : State} (ha3 : Inv a3) : NextInv (execCredit a1 a2 a3) := by
  unfold execCredit
  repeat' first
      | with_reducible assumption | with_reducible apply nextInv_next | with_reducible apply creditIn_inv | intro _
      | with_reducible apply inv_ite | split

theorem ackTo_inv {a1 : State} (a2) (a3) (ha1 : Inv a1) : Inv (ackTo a1 a2 a3) := by
  unfold ackTo
  repeat' first
      | with_reducible assumption | with_reducible apply State.setPort_inv | extract_lets | intro _ | with_reducible apply inv_ite | split
      | dsimp +zetaDelta only

theorem execAck_inv (a1) (a2) {a3 : State} (ha3 : Inv a3) : NextInv (execAck a1 a2 a3) := by
  unfold execAck
  repeat' first
      | with_reducible assumption | with_reducible apply nextInv_next | with_reducible apply ackTo_inv | intro _
      | with_reducible apply inv_ite | split

theorem emitUnit_inv {a1 : State} (a2) (a3) (ha1 : Inv a1) : Inv (emitUnit a1 a2 a3) := by
  unfold emitUnit
  repeat' first
      | with_reducible assumption | with_reducible apply emit_inv | intro _ | split

theorem nakIn_inv {a1 : State} (a2) (a3) (ha1 : Inv a1) : Inv (nakIn a1 a2 a3) := by
  unfold nakIn
  repeat' first
      | with_reducible assumption | with_reducible apply emitUnit_inv | with_reducible apply ackTo_inv
      | with_reducible apply beginEpisode_inv | with_reducible apply sendWord_inv | with_reducible apply raiseErr_inv
      | with_reducible apply State.setPort_inv | with_reducible apply cntPreg_inv | extract_lets | with_reducible apply foldl_inv
      | with_reducible apply foldl_inv1 | intro _ | with_reducible apply inv_ite | split | dsimp +zetaDelta only

theorem execNak_inv (a1) (a2) {a3 : State} (ha3 : Inv a3) : NextInv (execNak a1 a2 a3) := by
  unfold execNak
  repeat' first
      | with_reducible assumption | with_reducible apply nextInv_next | with_reducible apply nakIn_inv | intro _
      | with_reducible apply inv_ite | split

theorem acceptUnit_inv {a1 : State} (a2) (ha1 : Inv a1) : Inv (acceptUnit a1 a2) := by
  unfold acceptUnit
  repeat' first
      | with_reducible assumption | with_reducible apply sendWord_inv | with_reducible apply State.setPort_inv | extract_lets | intro _
      | dsimp +zetaDelta only

theorem execFare_inv (a1) (a2) {a3 : State} (ha3 : Inv a3) : NextInv (execFare a1 a2 a3) := by
  unfold execFare
  repeat' first
      | with_reducible assumption | with_reducible apply nextInv_next | with_reducible apply acceptUnit_inv
      | with_reducible apply routeFare_inv | intro _ | with_reducible apply inv_ite | split

theorem abortIn_inv {a1 : State} (a2) (a3) (ha1 : Inv a1) : Inv (abortIn a1 a2 a3) := by
  unfold abortIn
  repeat' first
      | with_reducible assumption | with_reducible apply acceptUnit_inv | with_reducible apply sendAbort_inv
      | with_reducible apply raiseErr_inv | with_reducible apply setPreg_inv | extract_lets | intro _ | with_reducible apply inv_ite | split
      | fail_if_no_progress with_reducible refine inv_frame ?_ rfl rfl rfl | dsimp +zetaDelta only

theorem execAbort_inv (a1) (a2) {a3 : State} (ha3 : Inv a3) : NextInv (execAbort a1 a2 a3) := by
  unfold execAbort
  repeat' first
      | with_reducible assumption | with_reducible apply nextInv_next | with_reducible apply abortIn_inv | intro _
      | with_reducible apply inv_ite | split

theorem execReplay_inv (a1) (a2) {a3 : State} (ha3 : Inv a3) : NextInv (execReplay a1 a2 a3) := by
  unfold execReplay
  repeat' first
      | with_reducible assumption | with_reducible apply nextInv_next | with_reducible apply State.setPort_inv | intro _
      | with_reducible apply inv_ite | split

theorem execReservedWord_inv (a1) (a2) {a3 : State} (ha3 : Inv a3) : NextInv (execReservedWord a1 a2 a3) := by
  unfold execReservedWord
  repeat' first
      | with_reducible assumption | with_reducible apply nextInv_next | with_reducible apply raiseErr_inv | intro _
      | with_reducible apply inv_ite | split

theorem markLate_inv {a1 : State} (a2) (a3) (a4) (a5) (ha1 : Inv a1) : Inv (markLate a1 a2 a3 a4 a5) := by
  unfold markLate
  repeat' first
      | with_reducible assumption | with_reducible apply raiseErrX_inv | with_reducible apply cntPreg_inv | intro _

theorem svcStore_inv {a1 : State} (a2) (a3) (ha1 : Inv a1) : Inv (svcStore a1 a2 a3) := by
  unfold svcStore
  repeat' first
      | with_reducible assumption | with_reducible apply serveWrinv_inv | with_reducible apply takeFresh_inv | extract_lets
      | with_reducible apply foldl_inv | with_reducible apply foldl_inv1 | intro _ | dsimp +zetaDelta only

theorem deliverBundle_inv {a1 : State} (a2) (a3) (a4) (a5) (ha1 : Inv a1) : Inv (deliverBundle a1 a2 a3 a4 a5) := by
  unfold deliverBundle
  repeat' first
      | with_reducible assumption | with_reducible apply svcStore_inv | extract_lets | intro _ | with_reducible apply inv_ite | split
      | fail_if_no_progress with_reducible refine inv_frame ?_ rfl rfl rfl | dsimp +zetaDelta only

theorem seqCheck_inv {a1 : State} (a2) (a3) (a4) (ha1 : Inv a1) : Inv (seqCheck a1 a2 a3 a4) := by
  unfold seqCheck
  repeat' first
      | with_reducible assumption | with_reducible apply deliverBundle_inv | with_reducible apply markLate_inv
      | with_reducible apply raiseErr_inv | with_reducible apply State.setPort_inv | with_reducible apply cntPreg_inv | extract_lets
      | intro _ | with_reducible apply inv_ite | split | dsimp +zetaDelta only

theorem forwardDrop_inv {a1 : State} (a2) (a3) (a4) (ha1 : Inv a1) : Inv (forwardDrop a1 a2 a3 a4) := by
  unfold forwardDrop
  repeat' first
      | with_reducible assumption | with_reducible apply logLost_inv | with_reducible apply raiseErr_inv | with_reducible apply cntPreg_inv
      | extract_lets | intro _ | with_reducible apply inv_ite | split | dsimp +zetaDelta only

theorem forward_inv {a1 : State} (a2) (a3) (a4) (ha1 : Inv a1) : Inv (forward a1 a2 a3 a4).1 := by
  unfold forward
  repeat' first
      | with_reducible assumption | with_reducible apply forwardDrop_inv | with_reducible apply State.setPort_inv
      | with_reducible apply cntPreg_inv | extract_lets | intro _ | with_reducible apply inv_ite | split | dsimp +zetaDelta only

theorem bundleIn_inv {a1 : State} (a2) (a3) (ha1 : Inv a1) : Inv (bundleIn a1 a2 a3) := by
  unfold bundleIn
  repeat' first
      | with_reducible assumption | with_reducible apply forward_inv | with_reducible apply seqCheck_inv
      | with_reducible apply acceptUnit_inv | with_reducible apply freeBerth_inv | with_reducible apply sendWord_inv
      | with_reducible apply raiseErr_inv | with_reducible apply State.setPort_inv | with_reducible apply cntPreg_inv | extract_lets
      | intro _ | with_reducible apply inv_ite | split | dsimp +zetaDelta only

theorem execBundleReceived_inv (a1) (a2) {a3 : State} (ha3 : Inv a3) : NextInv (execBundleReceived a1 a2 a3) := by
  unfold execBundleReceived
  repeat' first
      | with_reducible assumption | with_reducible apply nextInv_next | with_reducible apply bundleIn_inv | intro _

theorem svcSend_inv {a1 : State} (a2) (a3) (a4) (a5) (ha1 : Inv a1) : Inv (svcSend a1 a2 a3 a4 a5) := by
  unfold svcSend
  repeat' first
      | with_reducible assumption | with_reducible apply serveRdcur_inv | with_reducible apply State.setPort_inv | extract_lets
      | with_reducible apply foldl_inv | with_reducible apply foldl_inv1 | intro _ | with_reducible apply inv_ite | split
      | dsimp +zetaDelta only

theorem execBundleClose_inv (a1) (a2) (a3) {a4 : State} (ha4 : Inv a4) : NextInv (execBundleClose a1 a2 a3 a4) := by
  unfold execBundleClose
  repeat' first
      | with_reducible assumption | with_reducible apply nextInv_next | with_reducible apply svcSend_inv | with_reducible apply closeFor_inv
      | intro _ | split

theorem xlSlotCtrlWrite_inv {a1 : State} (a2) (a3) (ha1 : Inv a1) : Inv (xlSlotCtrlWrite a1 a2 a3) := by
  unfold xlSlotCtrlWrite
  repeat' first
      | with_reducible assumption | with_reducible apply pageWrite_inv | with_reducible apply State.setPort_inv | extract_lets | intro _
      | with_reducible apply inv_ite | split | dsimp +zetaDelta only

theorem execXlSlotArm_inv (a1) (a2) {a3 : State} (ha3 : Inv a3) : NextInv (execXlSlotArm a1 a2 a3) := by
  unfold execXlSlotArm
  repeat' first
      | with_reducible assumption | with_reducible apply nextInv_next | with_reducible apply xlSlotCtrlWrite_inv | intro _

theorem closeSlot_inv {a1 : State} (a2) (ha1 : Inv a1) : Inv (closeSlot a1 a2) := by
  unfold closeSlot
  repeat' first
      | with_reducible assumption | with_reducible apply closeFor_inv | with_reducible apply State.setPort_inv | extract_lets | intro _
      | split | dsimp +zetaDelta only

theorem openSlot_inv {a1 : State} (a2) (a3) (ha1 : Inv a1) : Inv (openSlot a1 a2 a3) := by
  unfold openSlot
  repeat' first
      | with_reducible assumption | with_reducible apply closeSlot_inv | with_reducible apply closeFor_inv
      | with_reducible apply raiseErr_inv | with_reducible apply State.setPort_inv | extract_lets | intro _ | with_reducible apply inv_ite
      | split | dsimp +zetaDelta only

theorem execSlotOpen_inv (a1) (a2) {a3 : State} (ha3 : Inv a3) : NextInv (execSlotOpen a1 a2 a3) := by
  unfold execSlotOpen
  repeat' first
      | with_reducible assumption | with_reducible apply nextInv_next | with_reducible apply openSlot_inv | intro _

theorem execSlotClose_inv (a1) (a2) {a3 : State} (ha3 : Inv a3) : NextInv (execSlotClose a1 a2 a3) := by
  unfold execSlotClose
  repeat' first
      | with_reducible assumption | with_reducible apply nextInv_next | with_reducible apply closeSlot_inv | intro _
      | with_reducible apply inv_ite | split

theorem transmit_inv {a1 : State} (a2) (ha1 : Inv a1) : Inv (transmit a1 a2) := by
  unfold transmit
  repeat' first
      | with_reducible assumption | with_reducible apply markLate_inv | with_reducible apply emitUnit_inv
      | with_reducible apply freeBerth_inv | with_reducible apply State.setPort_inv | with_reducible apply cntPreg_inv | extract_lets
      | intro _ | with_reducible apply inv_ite | split | dsimp +zetaDelta only

theorem execBundleTransmit_inv (a1) {a2 : State} (ha2 : Inv a2) : NextInv (execBundleTransmit a1 a2) := by
  unfold execBundleTransmit
  repeat' first
      | with_reducible assumption | with_reducible apply nextInv_next | with_reducible apply transmit_inv | intro _

end Sys2Proof.Machine
end

