-- ==== Sys2Proof/Laws/InvIssue.lean ====
section
/-! SUPPORT. Every operation of Machine/Issue.lean keeps the invariant. -/

set_option Elab.async false

namespace Sys2Proof.Machine

open Sys2Proof

theorem startWait_inv {a1 : State} (a2) (a3) (ha1 : Inv a1) : Inv (startWait a1 a2 a3) := by
  unfold startWait
  repeat' first
      | with_reducible assumption | with_reducible apply setWaits_inv | with_reducible apply State.setCore_inv | extract_lets | intro _
      | split | dsimp +zetaDelta only

theorem sAfter_inv {s : State} (id o i m) (h : Inv s) : Inv (sAfter s id o i m) := by
  cases i
  case waitAny => exact startWait_inv _ _ h
  case waitAll => exact startWait_inv _ _ h
  case fenceM => exact startWait_inv _ _ h
  case park => exact askPark_inv _ h
  case syncI => exact inv_ite (fun _ => setWaits_inv _ _ _ h) (fun _ => State.setCore_inv _ _ h)
  all_goals exact h

theorem askAccess_inv {a1 : State} (a2) (a3) (ha1 : Inv a1) : Inv (askAccess a1 a2 a3) := by
  unfold askAccess
  repeat' first
      | with_reducible assumption | with_reducible apply emit_inv | extract_lets | with_reducible apply foldl_inv
      | with_reducible apply foldl_inv1 | intro _ | with_reducible apply inv_ite | split
      | fail_if_no_progress with_reducible refine inv_frame ?_ rfl rfl rfl | dsimp +zetaDelta only

theorem sendAccess_inv {a1 : State} (a2) (a3) (ha1 : Inv a1) : Inv (sendAccess a1 a2 a3).1 := by
  unfold sendAccess
  repeat' first
      | with_reducible assumption | with_reducible apply askAccess_inv | with_reducible apply listDiscard_inv | extract_lets | intro _
      | with_reducible apply inv_ite | split | dsimp +zetaDelta only

theorem resumeAccesses_inv {a1 : State} (a2) (ha1 : Inv a1) : Inv (resumeAccesses a1 a2) := by
  unfold resumeAccesses
  repeat' first
      | with_reducible assumption | with_reducible apply askAccess_inv | extract_lets | with_reducible apply foldl_inv
      | with_reducible apply foldl_inv1 | intro _ | with_reducible apply inv_ite | split | dsimp +zetaDelta only

theorem pushAccess_inv {a1 : State} (a2) (a3) (a4) (a5) (a6) (a7) (ha1 : Inv a1) : Inv (pushAccess a1 a2 a3 a4 a5 a6 a7) := by
  unfold pushAccess
  repeat' first
      | with_reducible assumption | with_reducible apply sendAccess_inv | with_reducible apply State.setCore_inv | extract_lets | intro _
      | with_reducible apply inv_ite | split | dsimp +zetaDelta only

theorem loadLocal_inv {a1 : State} (a2) (a3) (a4) (a5) (a6) (ha1 : Inv a1) : Inv (loadLocal a1 a2 a3 a4 a5 a6) := by
  unfold loadLocal
  repeat' first
      | with_reducible assumption | with_reducible apply noteUpset_inv | with_reducible apply haltCore_inv
      | with_reducible apply State.setCore_inv | intro _ | with_reducible apply inv_ite | split

theorem relNow_inv {a1 : State} (a2) (a3) (a4) (a5) (ha1 : Inv a1) : Inv (relNow a1 a2 a3 a4 a5) := by
  unfold relNow
  repeat' first
      | with_reducible assumption | with_reducible apply release_inv | with_reducible apply State.setCore_inv | extract_lets | intro _
      | dsimp +zetaDelta only

theorem sendIssue_inv {a1 : State} (a2) (a3) (a4) (a5) (a6) (ha1 : Inv a1) : Inv (sendIssue a1 a2 a3 a4 a5 a6) := by
  unfold sendIssue
  repeat' first
      | with_reducible assumption | with_reducible apply beginSend_inv | with_reducible apply sendStatus_inv
      | with_reducible apply noteUpset_inv | with_reducible apply haltCore_inv | with_reducible apply setWaits_inv
      | with_reducible apply State.setCore_inv | extract_lets | intro _ | with_reducible apply inv_ite | split | dsimp +zetaDelta only

theorem mEffect_inv {a1 : State} (a2) (a3) (a4) (a5) (a6) (ha1 : Inv a1) : Inv (mEffect a1 a2 a3 a4 a5 a6) := by
  unfold mEffect
  repeat' first
      | with_reducible assumption | with_reducible apply sendIssue_inv | with_reducible apply relNow_inv
      | with_reducible apply loadLocal_inv | with_reducible apply pushAccess_inv | with_reducible apply startWait_inv
      | with_reducible apply berthRelease_inv | with_reducible apply acquire_inv | with_reducible apply setWaits_inv
      | with_reducible apply State.setCore_inv | extract_lets | intro _ | with_reducible apply inv_ite | split
      | fail_if_no_progress with_reducible refine inv_frame ?_ rfl rfl rfl | dsimp +zetaDelta only

theorem runBundle_inv {s : State} (id u a q b) (h : Inv s) : Inv (runBundle s id u a q b) := by
  unfold runBundle
  dsimp only
  refine inv_ite (fun _ => ?_) (fun _ => sAfter_inv _ _ _ _ ?_)
  all_goals exact mEffect_inv _ _ _ _ _ (State.setCore_inv _ _ (inv_frame h rfl rfl rfl))

theorem issueFault_inv {a1 : State} (a2) (a3) (a4) (ha1 : Inv a1) : Inv (issueFault a1 a2 a3 a4) := by
  unfold issueFault
  repeat' first
      | with_reducible assumption | with_reducible apply haltCore_inv | with_reducible apply State.setCore_inv | extract_lets | intro _
      | with_reducible apply inv_ite | split | dsimp +zetaDelta only

theorem issue_inv {a1 : State} (a2) (a3) (a4) (ha1 : Inv a1) : Inv (issue a1 a2 a3 a4) := by
  unfold issue
  repeat' first
      | with_reducible assumption | with_reducible apply issueFault_inv | with_reducible apply runBundle_inv
      | with_reducible apply haltCore_inv | with_reducible apply setWaits_inv | with_reducible apply State.setCore_inv
      | with_reducible apply raiseErr_inv | extract_lets | intro _ | with_reducible apply inv_ite | split | dsimp +zetaDelta only

theorem syncEnd_inv {a1 : State} (a2) (ha1 : Inv a1) : Inv (syncEnd a1 a2) := by
  unfold syncEnd
  repeat' first
      | with_reducible assumption | with_reducible apply setWaits_inv | extract_lets | intro _ | dsimp +zetaDelta only

theorem issueOne_inv {a1 : State} (a2) (a3) (a4) (ha1 : Inv a1) : Inv (issueOne a1 a2 a3 a4) := by
  unfold issueOne
  repeat' first
      | with_reducible assumption | with_reducible apply syncEnd_inv | with_reducible apply issue_inv | intro _
      | with_reducible apply inv_ite | split

theorem issueCycle_inv {a1 : State} (a2) (ha1 : Inv a1) : Inv (issueCycle a1 a2) := by
  unfold issueCycle
  repeat' first
      | with_reducible assumption | with_reducible apply issueOne_inv | with_reducible apply serveLock_inv | extract_lets
      | with_reducible apply foldl_inv | with_reducible apply foldl_inv1 | intro _ | with_reducible apply inv_ite | split
      | dsimp +zetaDelta only

theorem execBundleIssue_inv (a1) (a2) (a3) {a4 : State} (ha4 : Inv a4) : NextInv (execBundleIssue a1 a2 a3 a4) := by
  unfold execBundleIssue
  repeat' first
      | with_reducible assumption | with_reducible apply nextInv_next | with_reducible apply issueCycle_inv
      | with_reducible apply issueOne_inv | with_reducible apply foldl_inv | with_reducible apply foldl_inv1 | intro _
      | with_reducible apply inv_ite | split | dsimp +zetaDelta only

theorem mmaDone_inv {a1 : State} (a2) (a3) (ha1 : Inv a1) : Inv (mmaDone a1 a2 a3) := by
  unfold mmaDone
  repeat' first
      | with_reducible assumption | with_reducible apply haltLate_inv | with_reducible apply noteUpset_inv
      | with_reducible apply State.setCore_inv | extract_lets | intro _ | with_reducible apply inv_ite | split
      | fail_if_no_progress with_reducible refine inv_frame ?_ rfl rfl rfl | dsimp +zetaDelta only

theorem execMmaComplete_inv (a1) (a2) {a3 : State} (ha3 : Inv a3) : NextInv (execMmaComplete a1 a2 a3) := by
  unfold execMmaComplete
  repeat' first
      | with_reducible assumption | with_reducible apply nextInv_next | with_reducible apply mmaDone_inv | intro _
      | with_reducible apply inv_ite | split

theorem sendDone_inv {a1 : State} (a2) (a3) (ha1 : Inv a1) : Inv (sendDone a1 a2 a3) := by
  unfold sendDone
  repeat' first
      | with_reducible assumption | with_reducible apply launch_inv | with_reducible apply haltLate_inv | with_reducible apply noteUpset_inv
      | with_reducible apply xlCancel_inv | with_reducible apply State.setCore_inv | extract_lets | intro _ | with_reducible apply inv_ite
      | split | dsimp +zetaDelta only

theorem execSendComplete_inv (a1) (a2) {a3 : State} (ha3 : Inv a3) : NextInv (execSendComplete a1 a2 a3) := by
  unfold execSendComplete
  repeat' first
      | with_reducible assumption | with_reducible apply nextInv_next | with_reducible apply sendDone_inv | intro _
      | with_reducible apply inv_ite | split

end Sys2Proof.Machine
end

