-- ==== Sys2Proof/Laws/InvLanding.lean ====
section
/-! SUPPORT. Every operation of Machine/Landing.lean keeps the invariant. -/

set_option Elab.async false

namespace Sys2Proof.Machine

open Sys2Proof

theorem lwCloseCheck_inv {a1 : State} (ha1 : Inv a1) : Inv (lwCloseCheck a1) := by
  unfold lwCloseCheck
  repeat' first
      | with_reducible assumption | intro _ | with_reducible apply inv_ite | split
      | fail_if_no_progress with_reducible refine inv_frame ?_ rfl rfl rfl

theorem askLines_inv {a1 : State} (a2) (ha1 : Inv a1) : Inv (askLines a1 a2) := by
  unfold askLines
  repeat' first
      | with_reducible assumption | with_reducible apply startBi_inv | with_reducible apply foldl_inv | with_reducible apply foldl_inv1
      | intro _ | with_reducible apply inv_ite | split

theorem lwClose_inv {a1 : State} (ha1 : Inv a1) : Inv (lwClose a1) := by
  unfold lwClose
  repeat' first
      | with_reducible assumption | with_reducible apply askLines_inv | with_reducible apply lwCloseCheck_inv | intro _
      | fail_if_no_progress with_reducible refine inv_frame ?_ rfl rfl rfl

theorem lwEnableAct_inv {a1 : State} (a2) (a3) (ha1 : Inv a1) : Inv (lwEnableAct a1 a2 a3) := by
  unfold lwEnableAct
  repeat' first
      | with_reducible assumption | with_reducible apply lwClose_inv | with_reducible apply raiseErr_inv
      | with_reducible apply rejectEnable_inv | extract_lets | intro _ | with_reducible apply inv_ite | split
      | fail_if_no_progress with_reducible refine inv_frame ?_ rfl rfl rfl | dsimp +zetaDelta only

theorem refuseMem_inv {a1 : State} (a2) (ha1 : Inv a1) : Inv (refuseMem a1 a2) := by
  unfold refuseMem
  repeat' first
      | with_reducible assumption | with_reducible apply emit_inv | intro _ | split

theorem dropMem_inv {a1 : State} (a2) (a3) (ha1 : Inv a1) : Inv (dropMem a1 a2 a3) := by
  unfold dropMem
  repeat' first
      | with_reducible assumption | with_reducible apply refuseMem_inv | with_reducible apply raiseErr_inv
      | with_reducible apply cntPreg_inv | intro _

theorem windowReq_inv {a1 : State} (a2) (a3) (a4) (ha1 : Inv a1) : Inv (windowReq a1 a2 a3 a4) := by
  unfold windowReq
  repeat' first
      | with_reducible assumption | with_reducible apply hostReq_inv | intro _ | with_reducible apply inv_ite | split
      | fail_if_no_progress with_reducible refine inv_frame ?_ rfl rfl rfl

theorem hostMem_inv {a1 : State} (a2) (a3) (ha1 : Inv a1) : Inv (hostMem a1 a2 a3) := by
  unfold hostMem
  repeat' first
      | with_reducible assumption | with_reducible apply windowReq_inv | with_reducible apply dropMem_inv
      | with_reducible apply refuseMem_inv | with_reducible apply raiseErr_inv | intro _ | with_reducible apply inv_ite | split

theorem pumpHost_inv {a1 : State} (ha1 : Inv a1) : Inv (pumpHost a1) := by
  unfold pumpHost
  repeat' first
      | with_reducible assumption | with_reducible apply hostMem_inv | with_reducible apply State.setSlice_inv | extract_lets
      | with_reducible apply foldl_inv | with_reducible apply foldl_inv1 | intro _ | with_reducible apply inv_ite | split
      | dsimp +zetaDelta only

theorem hostMemWr_inv {a1 : State} (a2) (a3) (a4) (a5) (ha1 : Inv a1) : Inv (hostMemWr a1 a2 a3 a4 a5) := by
  unfold hostMemWr
  repeat' first
      | with_reducible assumption | with_reducible apply hostMem_inv | with_reducible apply raiseErr_inv | with_reducible apply when_inv
      | extract_lets | intro _ | dsimp +zetaDelta only

theorem execMemrd_inv (a1) (a2) {a3 : State} (ha3 : Inv a3) : NextInv (execMemrd a1 a2 a3) := by
  unfold execMemrd
  repeat' first
      | with_reducible assumption | with_reducible apply nextInv_next | with_reducible apply hostMem_inv | intro _

theorem execMemrddata_inv (a1) {a2 : State} (ha2 : Inv a2) : NextInv (execMemrddata a1 a2) := by
  unfold execMemrddata
  repeat' first
      | with_reducible assumption | with_reducible apply nextInv_next | with_reducible apply hostMem_inv | intro _

theorem execMeminv_inv (a1) (a2) {a3 : State} (ha3 : Inv a3) : NextInv (execMeminv a1 a2 a3) := by
  unfold execMeminv
  repeat' first
      | with_reducible assumption | with_reducible apply nextInv_next | with_reducible apply hostMem_inv | intro _

theorem execMemwr_inv (a1) (a2) (a3) {a4 : State} (ha4 : Inv a4) : NextInv (execMemwr a1 a2 a3 a4) := by
  unfold execMemwr
  repeat' first
      | with_reducible assumption | with_reducible apply nextInv_next | with_reducible apply hostMemWr_inv | intro _

theorem execMemwrptl_inv (a1) (a2) (a3) (a4) {a5 : State} (ha5 : Inv a5) : NextInv (execMemwrptl a1 a2 a3 a4 a5) := by
  unfold execMemwrptl
  repeat' first
      | with_reducible assumption | with_reducible apply nextInv_next | with_reducible apply hostMemWr_inv | intro _

theorem moveEnd_inv {a1 : State} (a2) (ha1 : Inv a1) : Inv (moveEnd a1 a2) := by
  unfold moveEnd
  repeat' first
      | with_reducible assumption | with_reducible apply takeFresh_inv | with_reducible apply goDone_inv | with_reducible apply setPreg_inv
      | extract_lets | intro _ | dsimp +zetaDelta only

theorem moveCommit_inv {a1 : State} (a2) (a3) (ha1 : Inv a1) : Inv (moveCommit a1 a2 a3) := by
  unfold moveCommit
  repeat' first
      | with_reducible assumption | with_reducible apply moveEnd_inv | with_reducible apply lwClose_inv | with_reducible apply hostReq_inv
      | with_reducible apply setPreg_inv | extract_lets | with_reducible apply foldl_inv | with_reducible apply foldl_inv1 | intro _
      | with_reducible apply inv_ite | split | fail_if_no_progress with_reducible refine inv_frame ?_ rfl rfl rfl | dsimp +zetaDelta only

theorem moveCheck_inv {a1 : State} (ha1 : Inv a1) : Inv (moveCheck a1) := by
  unfold moveCheck
  repeat' first
      | with_reducible assumption | with_reducible apply moveCommit_inv | intro _ | with_reducible apply inv_ite | split

theorem moveStart_inv {a1 : State} (ha1 : Inv a1) : Inv (moveStart a1) := by
  unfold moveStart
  repeat' first
      | with_reducible assumption | with_reducible apply moveCheck_inv | with_reducible apply moveEnd_inv
      | with_reducible apply raiseErr_inv | extract_lets | intro _ | with_reducible apply inv_ite | split
      | fail_if_no_progress with_reducible refine inv_frame ?_ rfl rfl rfl | dsimp +zetaDelta only

theorem lwMoveWrite_inv {a1 : State} (a2) (ha1 : Inv a1) : Inv (lwMoveWrite a1 a2) := by
  unfold lwMoveWrite
  repeat' first
      | with_reducible assumption | with_reducible apply moveStart_inv | with_reducible apply pageWrite_inv | extract_lets | intro _
      | with_reducible apply inv_ite | split | dsimp +zetaDelta only

theorem execLwMove_inv (a1) {a2 : State} (ha2 : Inv a2) : NextInv (execLwMove a1 a2) := by
  unfold execLwMove
  repeat' first
      | with_reducible assumption | with_reducible apply nextInv_next | with_reducible apply lwMoveWrite_inv | intro _

theorem execLwScanDone_inv {a1 : State} (ha1 : Inv a1) : NextInv (execLwScanDone a1) := by
  unfold execLwScanDone
  repeat' first
      | with_reducible assumption | with_reducible apply nextInv_next | with_reducible apply moveCheck_inv
      | with_reducible apply askLines_inv | extract_lets | intro _ | with_reducible apply inv_ite | split
      | fail_if_no_progress with_reducible refine inv_frame ?_ rfl rfl rfl | dsimp +zetaDelta only

theorem moveAsk_inv {a1 : State} (ha1 : Inv a1) : Inv (moveAsk a1) := by
  unfold moveAsk
  repeat' first
      | with_reducible assumption | with_reducible apply askLines_inv | extract_lets | intro _ | with_reducible apply inv_ite | split
      | fail_if_no_progress with_reducible refine inv_frame ?_ rfl rfl rfl | dsimp +zetaDelta only

theorem uncommitCheck_inv {a1 : State} (ha1 : Inv a1) : Inv (uncommitCheck a1) := by
  unfold uncommitCheck
  repeat' first
      | with_reducible assumption | with_reducible apply goDone_inv | with_reducible apply clrPreg_inv | intro _
      | with_reducible apply inv_ite | split | fail_if_no_progress with_reducible refine inv_frame ?_ rfl rfl rfl

theorem biEnd_inv {a1 : State} (a2) (a3) (a4) (ha1 : Inv a1) : Inv (biEnd a1 a2 a3 a4) := by
  unfold biEnd
  repeat' first
      | with_reducible assumption | with_reducible apply serve_inv | with_reducible apply homeStore_inv | with_reducible apply addRetry_inv
      | with_reducible apply setSl_inv | with_reducible apply State.setSlice_inv | extract_lets | with_reducible apply foldl_inv
      | with_reducible apply foldl_inv1 | intro _ | with_reducible apply inv_ite | split | dsimp +zetaDelta only

theorem biAnswer_inv {a1 : State} (a2) (a3) (ha1 : Inv a1) : Inv (biAnswer a1 a2 a3) := by
  unfold biAnswer
  repeat' first
      | with_reducible assumption | with_reducible apply biEnd_inv | with_reducible apply State.setSlice_inv | extract_lets | intro _
      | with_reducible apply inv_ite | split | dsimp +zetaDelta only

theorem biResume_inv {a1 : State} (ha1 : Inv a1) : Inv (biResume a1) := by
  unfold biResume
  repeat' first
      | with_reducible assumption | with_reducible apply biEnd_inv | with_reducible apply foldl_inv | with_reducible apply foldl_inv1
      | intro _ | split

theorem execBiSlow_inv {a1 : State} (ha1 : Inv a1) : NextInv (execBiSlow a1) := by
  unfold execBiSlow
  repeat' first
      | with_reducible assumption | with_reducible apply nextInv_next | with_reducible apply raiseErr_inv | intro _
      | with_reducible apply inv_ite | split

theorem snoopCur_inv {a1 : State} (a2) (ha1 : Inv a1) : Inv (snoopCur a1 a2) := by
  unfold snoopCur
  repeat' first
      | with_reducible assumption | with_reducible apply serveRdcur_inv | with_reducible apply emit_inv | extract_lets | intro _
      | with_reducible apply inv_ite | split | dsimp +zetaDelta only

theorem snoopData_inv {a1 : State} (a2) (ha1 : Inv a1) : Inv (snoopData a1 a2) := by
  unfold snoopData
  repeat' first
      | with_reducible assumption | with_reducible apply fetchShared_inv | with_reducible apply cancelMiss_inv
      | with_reducible apply cancelGrant_inv | with_reducible apply setSl_inv | with_reducible apply emit_inv | extract_lets
      | with_reducible apply foldl_inv | with_reducible apply foldl_inv1 | intro _ | with_reducible apply inv_ite | split
      | dsimp +zetaDelta only

theorem snoopInv_inv {a1 : State} (a2) (ha1 : Inv a1) : Inv (snoopInv a1 a2) := by
  unfold snoopInv
  repeat' first
      | with_reducible assumption | with_reducible apply cancelMiss_inv | with_reducible apply dropCopies_inv
      | with_reducible apply setSl_inv | with_reducible apply emit_inv | extract_lets | intro _ | with_reducible apply inv_ite | split
      | dsimp +zetaDelta only

theorem execSnpcur_inv (a1) {a2 : State} (ha2 : Inv a2) : NextInv (execSnpcur a1 a2) := by
  unfold execSnpcur
  repeat' first
      | with_reducible assumption | with_reducible apply nextInv_next | with_reducible apply snoopCur_inv | intro _
      | with_reducible apply inv_ite | split

theorem wbCheck_inv {a1 : State} (ha1 : Inv a1) : Inv (wbCheck a1) := by
  unfold wbCheck
  repeat' first
      | with_reducible assumption | extract_lets | intro _ | with_reducible apply inv_ite | split
      | fail_if_no_progress with_reducible refine inv_frame ?_ rfl rfl rfl | dsimp +zetaDelta only

theorem dropHostLines_inv {a1 : State} (ha1 : Inv a1) : Inv (dropHostLines a1) := by
  unfold dropHostLines
  repeat' first
      | with_reducible assumption | with_reducible apply sliceDrop_inv | with_reducible apply cancelMiss_inv | extract_lets
      | with_reducible apply foldl_inv | with_reducible apply foldl_inv1 | intro _ | dsimp +zetaDelta only

theorem cacheWbInv_inv {a1 : State} (ha1 : Inv a1) : Inv (cacheWbInv a1) := by
  unfold cacheWbInv
  repeat' first
      | with_reducible assumption | with_reducible apply dropHostLines_inv | with_reducible apply wbCheck_inv | extract_lets | intro _
      | with_reducible apply inv_ite | split | fail_if_no_progress with_reducible refine inv_frame ?_ rfl rfl rfl | dsimp +zetaDelta only

theorem execCacheWritebackAndInvalidate_inv {a1 : State} (ha1 : Inv a1) : NextInv (execCacheWritebackAndInvalidate a1) := by
  unfold execCacheWritebackAndInvalidate
  repeat' first
      | with_reducible assumption | with_reducible apply nextInv_next | with_reducible apply cacheWbInv_inv | intro _

end Sys2Proof.Machine
end

