-- ==== Sys2Proof/Laws/InvTranslation.lean ====
section
/-! SUPPORT. Every operation of Machine/Translation.lean keeps the invariant. -/

set_option Elab.async false

namespace Sys2Proof.Machine

open Sys2Proof

theorem lookup_inv {a1 : State} (a2) (a3) (a4) (a5) (a6) (ha1 : Inv a1) : Inv (lookup a1 a2 a3 a4 a5 a6).1 := by
  unfold lookup
  repeat' first
      | with_reducible assumption | with_reducible apply raiseErr_inv | with_reducible apply cntPreg_inv | extract_lets | intro _
      | with_reducible apply inv_ite | split | dsimp +zetaDelta only

theorem endMapW_inv {a1 : State} (a2) (a3) (a4) (ha1 : Inv a1) : Inv (endMapW a1 a2 a3 a4) := by
  unfold endMapW
  repeat' first
      | with_reducible assumption | with_reducible apply endWait_inv | with_reducible apply foldl_inv | with_reducible apply foldl_inv1
      | intro _ | with_reducible apply inv_ite | split

theorem mapFill_inv {a1 : State} (a2) (a3) (a4) (ha1 : Inv a1) : Inv (mapFill a1 a2 a3 a4) := by
  unfold mapFill
  repeat' first
      | with_reducible assumption | with_reducible apply endMapW_inv | with_reducible apply lookup_inv | with_reducible apply wakeCore_inv
      | with_reducible apply State.setCore_inv | extract_lets | intro _ | with_reducible apply inv_ite | split | dsimp +zetaDelta only

theorem execMapFillComplete_inv (a1) (a2) (a3) {a4 : State} (ha4 : Inv a4) : NextInv (execMapFillComplete a1 a2 a3 a4) := by
  unfold execMapFillComplete
  repeat' first
      | with_reducible assumption | with_reducible apply nextInv_next | with_reducible apply mapFill_inv | intro _
      | with_reducible apply inv_ite | split

theorem tblCommit_inv {a1 : State} (a2) (a3) (a4) (a5) (a6) (a7) (ha1 : Inv a1) : Inv (tblCommit a1 a2 a3 a4 a5 a6 a7).1 := by
  unfold tblCommit
  repeat' first
      | with_reducible assumption | with_reducible apply raiseErr_inv | extract_lets | intro _ | with_reducible apply inv_ite | split
      | fail_if_no_progress with_reducible refine inv_frame ?_ rfl rfl rfl | dsimp +zetaDelta only

end Sys2Proof.Machine
end

