-- ==== Sys2Proof/Laws/InvMover.lean ====
section
/-! SUPPORT. Every operation of Machine/Mover.lean keeps the invariant. -/

set_option Elab.async false

namespace Sys2Proof.Machine

open Sys2Proof

theorem pageAdd_inv {a1 : State} (a2) (a3) (a4) (a5) (a6) (ha1 : Inv a1) : Inv (pageAdd a1 a2 a3 a4 a5 a6).1 := by
  unfold pageAdd
  repeat' first
      | with_reducible assumption | with_reducible apply lookup_inv | extract_lets | intro _ | with_reducible apply inv_ite | split
      | dsimp +zetaDelta only

theorem cutRun_inv (m d limit ue fuel i) {s : State} (c) (h : Inv s) : Inv (cutRun m d limit ue fuel i s c).1 := by
  induction fuel generalizing i s c with
  | zero => exact h
  | succ fuel ih =>
    unfold cutRun
    extract_lets sa da newS newD r1
    have h1 : Inv r1.1 := by
      show Inv (if mCopy d then pageAdd s m c.pages false sa ue else (s, some c.pages)).1
      split
      · exact pageAdd_inv _ _ _ _ _ h
      · exact h
    split
    · exact h
    · split
      · exact h1
      · next p1 _ =>
        extract_lets r2
        have h2 : Inv r2.1 := pageAdd_inv _ _ _ _ _ h1
        split
        · exact h2
        · exact ih _ _ h2

theorem cutFrom_inv {a1 : State} (a2) (a3) (a4) (a5) (a6) (a7) (ha1 : Inv a1) : Inv (cutFrom a1 a2 a3 a4 a5 a6 a7).1 := by
  unfold cutFrom
  repeat' first
      | with_reducible assumption | with_reducible apply cutRun_inv | intro _

theorem State.setMover_inv {a1 : State} (a2) (a3) (ha1 : Inv a1) : Inv (State.setMover a1 a2 a3) := by
  unfold State.setMover
  repeat' first
      | with_reducible assumption | with_reducible apply State.setCl_inv | intro _

theorem submit_inv {a1 : State} (a2) (a3) (a4) (a5) (a6) (a7) (ha1 : Inv a1) : Inv (submit a1 a2 a3 a4 a5 a6 a7).1 := by
  unfold submit
  repeat' first
      | with_reducible assumption | with_reducible apply State.setMover_inv | with_reducible apply cutFrom_inv
      | with_reducible apply lookup_inv | extract_lets | intro _ | with_reducible apply inv_ite | split | dsimp +zetaDelta only

theorem execHubFirmwareSubmission_inv (a1) (a2) (a3) (a4) {a5 : State} (ha5 : Inv a5) : NextInv (execHubFirmwareSubmission a1 a2 a3 a4 a5) := by
  unfold execHubFirmwareSubmission
  repeat' first
      | with_reducible assumption | with_reducible apply nextInv_next | with_reducible apply submit_inv | intro _ | dsimp +zetaDelta only

theorem refuseTimetable_inv {a1 : State} (a2) (a3) (a4) (a5) (ha1 : Inv a1) : Inv (refuseTimetable a1 a2 a3 a4 a5) := by
  unfold refuseTimetable
  repeat' first
      | with_reducible assumption | with_reducible apply raiseErr_inv | with_reducible apply cntPreg_inv | intro _

theorem submitTimetable_inv {a1 : State} (a2) (a3) (a4) (a5) (ha1 : Inv a1) : Inv (submitTimetable a1 a2 a3 a4 a5) := by
  unfold submitTimetable
  repeat' first
      | with_reducible assumption | with_reducible apply refuseTimetable_inv | with_reducible apply submit_inv
      | with_reducible apply raiseErr_inv | extract_lets | intro _ | with_reducible apply inv_ite | split | dsimp +zetaDelta only

theorem setQueue_inv {a1 : State} (a2) (a3) (a4) (ha1 : Inv a1) : Inv (setQueue a1 a2 a3 a4) := by
  unfold setQueue
  repeat' first
      | with_reducible assumption | with_reducible apply State.setMover_inv | intro _

theorem setManifest_inv {a1 : State} (a2) (a3) (a4) (a5) (ha1 : Inv a1) : Inv (setManifest a1 a2 a3 a4 a5) := by
  unfold setManifest
  repeat' first
      | with_reducible assumption | with_reducible apply setQueue_inv | intro _

theorem execManifestStart_inv (a1) (a2) {a3 : State} (ha3 : Inv a3) : NextInv (execManifestStart a1 a2 a3) := by
  unfold execManifestStart
  repeat' first
      | with_reducible assumption | with_reducible apply nextInv_next | with_reducible apply setManifest_inv | extract_lets | intro _
      | with_reducible apply inv_ite | split | dsimp +zetaDelta only

theorem postWrite_inv {a1 : State} (a2) (a3) (a4) (a5) (a6) (a7) (a8) (ha1 : Inv a1) : Inv (postWrite a1 a2 a3 a4 a5 a6 a7 a8) := by
  unfold postWrite
  repeat' first
      | with_reducible assumption | with_reducible apply clearRetry_inv | with_reducible apply serveWrpart_inv
      | with_reducible apply serveWrinv_inv | with_reducible apply hostWriteLine_inv | extract_lets | intro _ | with_reducible apply inv_ite
      | split | dsimp +zetaDelta only

theorem postAsk_inv {a1 : State} (a2) (a3) (ha1 : Inv a1) : Inv (postAsk a1 a2 a3) := by
  unfold postAsk
  repeat' first
      | with_reducible assumption | with_reducible apply homeAsk_inv | intro _

theorem elemRead_inv {a1 : State} (a2) (a3) (a4) (ha1 : Inv a1) : Inv (elemRead a1 a2 a3 a4).1 := by
  unfold elemRead
  repeat' first
      | with_reducible assumption | with_reducible apply clearRetry_inv | with_reducible apply askHost_inv
      | with_reducible apply serveRdcur_inv | extract_lets | intro _ | with_reducible apply inv_ite | split | dsimp +zetaDelta only

theorem imemWrite_inv {a1 : State} (a2) (a3) (a4) (a5) (ha1 : Inv a1) : Inv (imemWrite a1 a2 a3 a4 a5) := by
  unfold imemWrite
  repeat' first
      | with_reducible assumption | with_reducible apply State.setCoreRaw_inv | intro _

theorem elemWrite_inv {a1 : State} (a2) (a3) (a4) (a5) (a6) (a7) (ha1 : Inv a1) : Inv (elemWrite a1 a2 a3 a4 a5 a6 a7) := by
  unfold elemWrite
  repeat' first
      | with_reducible assumption | with_reducible apply imemWrite_inv | with_reducible apply postWrite_inv
      | with_reducible apply sendWrite_inv | extract_lets | intro _ | with_reducible apply inv_ite | split | dsimp +zetaDelta only

theorem elemAsk_inv {a1 : State} (a2) (a3) (ha1 : Inv a1) : Inv (elemAsk a1 a2 a3) := by
  unfold elemAsk
  repeat' first
      | with_reducible assumption | with_reducible apply postAsk_inv | with_reducible apply homeAsk_inv | extract_lets | intro _
      | with_reducible apply inv_ite | split | dsimp +zetaDelta only

theorem elemDeliver_inv {a1 : State} (a2) (a3) (a4) (a5) (a6) (ha1 : Inv a1) : Inv (elemDeliver a1 a2 a3 a4 a5 a6) := by
  unfold elemDeliver
  repeat' first
      | with_reducible assumption | with_reducible apply elemWrite_inv | with_reducible apply elemRead_inv
      | with_reducible apply setManifest_inv | with_reducible apply State.setMover_inv | with_reducible apply when_inv
      | with_reducible apply cntPreg64_inv | with_reducible apply cntPreg_inv | extract_lets | intro _ | with_reducible apply inv_ite
      | split | dsimp +zetaDelta only

theorem deliverElement_inv {a1 : State} (a2) (a3) (a4) (a5) (ha1 : Inv a1) : Inv (deliverElement a1 a2 a3 a4 a5) := by
  unfold deliverElement
  repeat' first
      | with_reducible assumption | with_reducible apply elemDeliver_inv | with_reducible apply elemAsk_inv | intro _
      | with_reducible apply inv_ite | split

theorem execManifestElement_inv (a1) (a2) (a3) (a4) {a5 : State} (ha5 : Inv a5) : NextInv (execManifestElement a1 a2 a3 a4 a5) := by
  unfold execManifestElement
  repeat' first
      | with_reducible assumption | with_reducible apply nextInv_next | with_reducible apply deliverElement_inv | intro _
      | with_reducible apply inv_ite | split

theorem execSegmentTranslation_inv (a1) (a2) {a3 : State} (ha3 : Inv a3) : NextInv (execSegmentTranslation a1 a2 a3) := by
  unfold execSegmentTranslation
  repeat' first
      | with_reducible assumption | with_reducible apply nextInv_next | with_reducible apply setManifest_inv | intro _
      | with_reducible apply inv_ite | split

theorem segDone_inv {a1 : State} (a2) (a3) (a4) (ha1 : Inv a1) : Inv (segDone a1 a2 a3 a4) := by
  unfold segDone
  repeat' first
      | with_reducible assumption | with_reducible apply setManifest_inv | with_reducible apply cutFrom_inv | extract_lets | intro _
      | with_reducible apply inv_ite | split | dsimp +zetaDelta only

theorem execSegmentTranslationDone_inv (a1) (a2) (a3) {a4 : State} (ha4 : Inv a4) : NextInv (execSegmentTranslationDone a1 a2 a3 a4) := by
  unfold execSegmentTranslationDone
  repeat' first
      | with_reducible assumption | with_reducible apply nextInv_next | with_reducible apply segDone_inv | intro _
      | with_reducible apply inv_ite | split

theorem writeRecord_inv {a1 : State} (a2) (a3) (a4) (a5) (a6) (ha1 : Inv a1) : Inv (writeRecord a1 a2 a3 a4 a5 a6) := by
  unfold writeRecord
  repeat' first
      | with_reducible assumption | with_reducible apply postWrite_inv | with_reducible apply cntPreg_inv | intro _

theorem writeFlag_inv {a1 : State} (a2) (a3) (a4) (ha1 : Inv a1) : Inv (writeFlag a1 a2 a3 a4) := by
  unfold writeFlag
  repeat' first
      | with_reducible assumption | with_reducible apply postWrite_inv | intro _ | split

theorem manifestEvent_inv {a1 : State} (a2) (ha1 : Inv a1) : Inv (manifestEvent a1 a2) := by
  unfold manifestEvent
  repeat' first
      | with_reducible assumption | with_reducible apply setEvent_inv | extract_lets | intro _ | with_reducible apply inv_ite | split
      | dsimp +zetaDelta only

theorem endSeen_inv {a1 : State} (a2) (a3) (a4) (a5) (a6) (ha1 : Inv a1) : Inv (endSeen a1 a2 a3 a4 a5 a6) := by
  unfold endSeen
  repeat' first
      | with_reducible assumption | with_reducible apply manifestEvent_inv | with_reducible apply setManifest_inv
      | with_reducible apply setQueue_inv | extract_lets | intro _ | with_reducible apply inv_ite | split | dsimp +zetaDelta only

theorem advance_inv (a1) (a2) (a3) {a4 : State} (ha4 : Inv a4) : Inv (advance a1 a2 a3 a4) := by
  induction a3 generalizing a4 with
  | zero => exact ha4
  | succ fuel ih =>
    unfold advance
    repeat' first
        | with_reducible assumption | with_reducible apply ih | with_reducible apply endSeen_inv | with_reducible apply writeFlag_inv
        | with_reducible apply writeRecord_inv | with_reducible apply postAsk_inv | with_reducible apply setManifest_inv | extract_lets
        | intro _ | with_reducible apply inv_ite | split | dsimp +zetaDelta only

theorem beginEnd_inv {a1 : State} (a2) (a3) (a4) (a5) (a6) (ha1 : Inv a1) : Inv (beginEnd a1 a2 a3 a4 a5 a6) := by
  unfold beginEnd
  repeat' first
      | with_reducible assumption | with_reducible apply advance_inv | with_reducible apply setManifest_inv | intro _

theorem manifestEnd_inv {a1 : State} (a2) (a3) (ha1 : Inv a1) : Inv (manifestEnd a1 a2 a3) := by
  unfold manifestEnd
  repeat' first
      | with_reducible assumption | with_reducible apply beginEnd_inv | with_reducible apply advance_inv | with_reducible apply raiseErr_inv
      | extract_lets | intro _ | with_reducible apply inv_ite | split | dsimp +zetaDelta only

theorem execManifestComplete_inv (a1) (a2) {a3 : State} (ha3 : Inv a3) : NextInv (execManifestComplete a1 a2 a3) := by
  unfold execManifestComplete
  repeat' first
      | with_reducible assumption | with_reducible apply nextInv_next | with_reducible apply manifestEnd_inv | intro _
      | with_reducible apply inv_ite | split

theorem manifestPartial_inv {a1 : State} (a2) (a3) (ha1 : Inv a1) : Inv (manifestPartial a1 a2 a3) := by
  unfold manifestPartial
  repeat' first
      | with_reducible assumption | with_reducible apply beginEnd_inv | with_reducible apply raiseErr_inv | intro _
      | with_reducible apply inv_ite | split

theorem execManifestPartial_inv (a1) (a2) {a3 : State} (ha3 : Inv a3) : NextInv (execManifestPartial a1 a2 a3) := by
  unfold execManifestPartial
  repeat' first
      | with_reducible assumption | with_reducible apply nextInv_next | with_reducible apply manifestPartial_inv | intro _
      | with_reducible apply inv_ite | split

theorem resetMover_inv {a1 : State} (a2) (ha1 : Inv a1) : Inv (resetMover a1 a2) := by
  unfold resetMover
  repeat' first
      | with_reducible assumption | with_reducible apply advance_inv | with_reducible apply setQueue_inv | extract_lets
      | with_reducible apply foldl_inv | with_reducible apply foldl_inv1 | intro _
      | fail_if_no_progress with_reducible refine inv_frame ?_ rfl rfl rfl | dsimp +zetaDelta only

theorem abortAllEnd_inv {a1 : State} (a2) (ha1 : Inv a1) : Inv (abortAllEnd a1 a2) := by
  unfold abortAllEnd
  repeat' first
      | with_reducible assumption | with_reducible apply goDone_inv | intro _ | with_reducible apply inv_ite | split

theorem mvCtrlWrite_inv {a1 : State} (a2) (a3) (ha1 : Inv a1) : Inv (mvCtrlWrite a1 a2 a3) := by
  unfold mvCtrlWrite
  repeat' first
      | with_reducible assumption | with_reducible apply abortAllEnd_inv | with_reducible apply resetMover_inv
      | with_reducible apply State.setMover_inv | with_reducible apply pageWrite_inv | extract_lets | intro _ | with_reducible apply inv_ite
      | split | dsimp +zetaDelta only

theorem execAbortAll_inv (a1) (a2) {a3 : State} (ha3 : Inv a3) : NextInv (execAbortAll a1 a2 a3) := by
  unfold execAbortAll
  repeat' first
      | with_reducible assumption | with_reducible apply nextInv_next | with_reducible apply mvCtrlWrite_inv | intro _

theorem execMvEn_inv (a1) (a2) {a3 : State} (ha3 : Inv a3) : NextInv (execMvEn a1 a2 a3) := by
  unfold execMvEn
  repeat' first
      | with_reducible assumption | with_reducible apply nextInv_next | with_reducible apply mvCtrlWrite_inv | intro _

theorem resumeManifest_inv {a1 : State} (a2) (a3) (a4) (ha1 : Inv a1) : Inv (resumeManifest a1 a2 a3 a4).1 := by
  unfold resumeManifest
  repeat' first
      | with_reducible assumption | with_reducible apply setManifest_inv | with_reducible apply cutFrom_inv | extract_lets | intro _
      | with_reducible apply inv_ite | split | dsimp +zetaDelta only

theorem abortManifest_inv {a1 : State} (a2) (a3) (ha1 : Inv a1) : Inv (abortManifest a1 a2 a3).1 := by
  unfold abortManifest
  repeat' first
      | with_reducible assumption | with_reducible apply beginEnd_inv | intro _ | split

end Sys2Proof.Machine
end

