-- ==== Sys2Proof/Laws/InvPlacement.lean ====
section
/-! SUPPORT. Every operation of Machine/Placement.lean keeps the invariant. -/

set_option Elab.async false

namespace Sys2Proof.Machine

open Sys2Proof

theorem logPlace_inv {a1 : State} (a2) (a3) (a4) (ha1 : Inv a1) : Inv (logPlace a1 a2 a3 a4) := by
  unfold logPlace
  repeat' first
      | with_reducible assumption | with_reducible apply offer_inv | intro _

theorem windowEnd_inv {a1 : State} (a2) (a3) (ha1 : Inv a1) : Inv (windowEnd a1 a2 a3) := by
  unfold windowEnd
  repeat' first
      | with_reducible assumption | with_reducible apply setPreg_inv | extract_lets | with_reducible apply foldl_inv
      | with_reducible apply foldl_inv1 | intro _ | with_reducible apply inv_ite | split
      | fail_if_no_progress with_reducible refine inv_frame ?_ rfl rfl rfl | dsimp +zetaDelta only

theorem execPlWindowEnd_inv (a1) (a2) {a3 : State} (ha3 : Inv a3) : NextInv (execPlWindowEnd a1 a2 a3) := by
  unfold execPlWindowEnd
  repeat' first
      | with_reducible assumption | with_reducible apply nextInv_next | with_reducible apply windowEnd_inv | intro _

theorem plFenceCheck_inv {a1 : State} (ha1 : Inv a1) : Inv (plFenceCheck a1) := by
  unfold plFenceCheck
  repeat' first
      | with_reducible assumption | with_reducible apply logPlace_inv | with_reducible apply raiseErr_inv | with_reducible apply setPreg_inv
      | extract_lets | intro _ | with_reducible apply inv_ite | split | fail_if_no_progress with_reducible refine inv_frame ?_ rfl rfl rfl
      | dsimp +zetaDelta only

theorem chunkStart_inv {a1 : State} (ha1 : Inv a1) : Inv (chunkStart a1) := by
  unfold chunkStart
  repeat' first
      | with_reducible assumption | with_reducible apply logPlace_inv | intro _ | with_reducible apply inv_ite | split
      | fail_if_no_progress with_reducible refine inv_frame ?_ rfl rfl rfl

theorem execPlChunkStart_inv {a1 : State} (ha1 : Inv a1) : NextInv (execPlChunkStart a1) := by
  unfold execPlChunkStart
  repeat' first
      | with_reducible assumption | with_reducible apply nextInv_next | with_reducible apply chunkStart_inv | intro _

theorem chunkDone_inv {a1 : State} (ha1 : Inv a1) : Inv (chunkDone a1) := by
  unfold chunkDone
  repeat' first
      | with_reducible assumption | with_reducible apply plFenceCheck_inv | intro _ | with_reducible apply inv_ite | split
      | fail_if_no_progress with_reducible refine inv_frame ?_ rfl rfl rfl

theorem plCommit_inv {a1 : State} (ha1 : Inv a1) : Inv (plCommit a1) := by
  unfold plCommit
  repeat' first
      | with_reducible assumption | with_reducible apply logPlace_inv | with_reducible apply cntPreg_inv | with_reducible apply setPreg_inv
      | extract_lets | intro _ | with_reducible apply inv_ite | split | fail_if_no_progress with_reducible refine inv_frame ?_ rfl rfl rfl
      | dsimp +zetaDelta only

theorem moveRequest_inv {a1 : State} (ha1 : Inv a1) : Inv (moveRequest a1) := by
  unfold moveRequest
  repeat' first
      | with_reducible assumption | with_reducible apply raiseErr_inv | with_reducible apply setPreg_inv | extract_lets | intro _
      | with_reducible apply inv_ite | split | fail_if_no_progress with_reducible refine inv_frame ?_ rfl rfl rfl | dsimp +zetaDelta only

theorem plMoveWrite_inv {a1 : State} (a2) (ha1 : Inv a1) : Inv (plMoveWrite a1 a2) := by
  unfold plMoveWrite
  repeat' first
      | with_reducible assumption | with_reducible apply moveRequest_inv | with_reducible apply pageWriteGo_inv | intro _

theorem execPlMove_inv (a1) {a2 : State} (ha2 : Inv a2) : NextInv (execPlMove a1 a2) := by
  unfold execPlMove
  repeat' first
      | with_reducible assumption | with_reducible apply nextInv_next | with_reducible apply plMoveWrite_inv | intro _

theorem plRegionWrite_inv {a1 : State} (a2) (ha1 : Inv a1) : Inv (plRegionWrite a1 a2) := by
  unfold plRegionWrite
  repeat' first
      | with_reducible assumption | with_reducible apply pageWrite_inv | with_reducible apply setPreg_inv | extract_lets | intro _
      | with_reducible apply inv_ite | split | fail_if_no_progress with_reducible refine inv_frame ?_ rfl rfl rfl | dsimp +zetaDelta only

end Sys2Proof.Machine
end

