-- ==== Sys2Proof/Laws/InvDrain.lean ====
section
/-! SUPPORT. Every operation of Machine/Drain.lean keeps the invariant. -/

set_option Elab.async false

namespace Sys2Proof.Machine

open Sys2Proof

theorem retranslate_inv {a1 : State} (a2) (a3) (a4) (a5) (ha1 : Inv a1) : Inv (retranslate a1 a2 a3 a4 a5).1 := by
  unfold retranslate
  repeat' first
      | with_reducible assumption | with_reducible apply cutFrom_inv | extract_lets | intro _ | with_reducible apply inv_ite | split
      | dsimp +zetaDelta only

theorem startDrain_inv {a1 : State} (a2) (a3) (a4) (a5) (a6) (ha1 : Inv a1) : Inv (startDrain a1 a2 a3 a4 a5 a6) := by
  unfold startDrain
  repeat' first
      | with_reducible assumption | intro _ | with_reducible apply inv_ite | split
      | fail_if_no_progress with_reducible refine inv_frame ?_ rfl rfl rfl

theorem beginDrains_inv {a1 : State} (ha1 : Inv a1) : Inv (beginDrains a1) := by
  unfold beginDrains
  repeat' first
      | with_reducible assumption | intro _ | with_reducible apply inv_ite | split
      | fail_if_no_progress with_reducible refine inv_frame ?_ rfl rfl rfl | dsimp +zetaDelta only

theorem drainQueue_inv {a1 : State} (a2) (a3) (a4) (a5) (ha1 : Inv a1) : Inv (drainQueue a1 a2 a3 a4 a5).1 := by
  unfold drainQueue
  repeat' first
      | with_reducible assumption | with_reducible apply retranslate_inv | with_reducible apply manifestEvent_inv
      | with_reducible apply setQueue_inv | with_reducible apply raiseErr_inv | extract_lets | with_reducible apply foldl_inv
      | with_reducible apply foldl_inv1 | intro _ | with_reducible apply inv_ite | split | dsimp +zetaDelta only

theorem drainMovers_inv {a1 : State} (a2) (a3) (ha1 : Inv a1) : Inv (drainMovers a1 a2 a3).1 := by
  unfold drainMovers
  repeat' first
      | with_reducible assumption | with_reducible apply drainQueue_inv | extract_lets | with_reducible apply foldl_inv
      | with_reducible apply foldl_inv1 | intro _ | with_reducible apply inv_ite | split | dsimp +zetaDelta only

theorem dropSlots_inv {a1 : State} (a2) (ha1 : Inv a1) : Inv (dropSlots a1 a2).1 := by
  unfold dropSlots
  repeat' first
      | with_reducible assumption | with_reducible apply wakeCore_inv | with_reducible apply State.setCore_inv | extract_lets
      | with_reducible apply foldl_inv | with_reducible apply foldl_inv1 | intro _ | with_reducible apply inv_ite | split
      | dsimp +zetaDelta only

theorem noteDrain_inv {a1 : State} (ha1 : Inv a1) : Inv (noteDrain a1) := by
  unfold noteDrain
  repeat' first
      | with_reducible assumption | with_reducible apply takeFresh_inv | with_reducible apply setPreg_inv | extract_lets | intro _
      | with_reducible apply inv_ite | split | dsimp +zetaDelta only

theorem vtClearWrite_inv {a1 : State} (a2) (ha1 : Inv a1) : Inv (vtClearWrite a1 a2) := by
  unfold vtClearWrite
  repeat' first
      | with_reducible assumption | with_reducible apply startDrain_inv | with_reducible apply pageWrite_inv | extract_lets | intro _
      | with_reducible apply inv_ite | split | dsimp +zetaDelta only

theorem execVtClear_inv (a1) {a2 : State} (ha2 : Inv a2) : NextInv (execVtClear a1 a2) := by
  unfold execVtClear
  repeat' first
      | with_reducible assumption | with_reducible apply nextInv_next | with_reducible apply vtClearWrite_inv | intro _

theorem vtCtxEnWrite_inv {a1 : State} (a2) (ha1 : Inv a1) : Inv (vtCtxEnWrite a1 a2) := by
  unfold vtCtxEnWrite
  repeat' first
      | with_reducible assumption | with_reducible apply startDrain_inv | with_reducible apply pageWrite_inv
      | with_reducible apply orPreg_inv | extract_lets | with_reducible apply foldl_inv | with_reducible apply foldl_inv1 | intro _
      | dsimp +zetaDelta only

theorem execVtCtxEnWrite_inv (a1) {a2 : State} (ha2 : Inv a2) : NextInv (execVtCtxEnWrite a1 a2) := by
  unfold execVtCtxEnWrite
  repeat' first
      | with_reducible assumption | with_reducible apply nextInv_next | with_reducible apply vtCtxEnWrite_inv | intro _

end Sys2Proof.Machine
end

