-- ==== Sys2Proof/Laws/InvMailbox.lean ====
section
/-! SUPPORT. Every operation of Machine/Mailbox.lean keeps the invariant. -/

set_option Elab.async false

namespace Sys2Proof.Machine

open Sys2Proof

theorem inv_bar4 {s : State} (a bs) (h : Inv s) : Inv { s with bar4 := writeBytes s.bar4 a bs } :=
  ⟨h.regs, h.staged, h.captured, h.dm, h.poison, writeBytes_wf _ _ _ h.bar4, h.queue, h.inq, h.report⟩

theorem ran_ite_inv {c : Prop} [Decidable c] {a b : Ran} (ha : Inv a.st) (hb : Inv b.st) : Inv (if c then a else b).st := by
  split
  · exact ha
  · exact hb

theorem State.setMailbox_inv {a1 : State} (a2) (a3) (ha1 : Inv a1) : Inv (State.setMailbox a1 a2 a3) := by
  unfold State.setMailbox
  repeat' first
      | with_reducible assumption | intro _ | fail_if_no_progress with_reducible refine inv_frame ?_ rfl rfl rfl

theorem respond_inv {a1 : State} (a2) (a3) (a4) (a5) (a6) (a7) (a8) (ha1 : Inv a1) : Inv (respond a1 a2 a3 a4 a5 a6 a7 a8) := by
  unfold respond
  repeat' first
      | with_reducible assumption | with_reducible apply cancelMiss_inv | with_reducible apply dropCopies_inv
      | with_reducible apply setSl_inv | with_reducible apply sendWrite_inv | extract_lets | intro _ | with_reducible apply inv_ite | split
      | dsimp +zetaDelta only

theorem answer_inv {a1 : State} (a2) (a3) (a4) (a5) (a6) (a7) (a8) (a9) (ha1 : Inv a1) : Inv (answer a1 a2 a3 a4 a5 a6 a7 a8 a9) := by
  unfold answer
  repeat' first
      | with_reducible assumption | with_reducible apply respond_inv | with_reducible apply State.setMailbox_inv | extract_lets
      | with_reducible apply foldl_inv | with_reducible apply foldl_inv1 | intro _ | with_reducible apply inv_ite | split
      | dsimp +zetaDelta only

theorem inlineRun_inv (a1) (a2) {a3 : State} (ha3 : Inv a3) : Inv (inlineRun a1 a2 a3).1 := by
  induction a2 generalizing a3 with
  | nil => exact ha3
  | cons p l ih =>
    unfold inlineRun
    repeat' first
        | with_reducible assumption | with_reducible apply ih | with_reducible apply postAsk_inv | with_reducible apply postWrite_inv
        | intro _ | with_reducible apply inv_ite | split | dsimp +zetaDelta only

theorem takenStep_inv (a1) (a2) (a3) (ha2 : Inv a2.1) : Inv (takenStep a1 a2 a3).1 := by
  unfold takenStep
  repeat' first
      | with_reducible assumption | with_reducible apply inlineRun_inv | with_reducible apply answer_inv | extract_lets | intro _
      | with_reducible apply inv_ite | split | dsimp +zetaDelta only

theorem mbPump_inv {a1 : State} (a2) (ha1 : Inv a1) : Inv (mbPump a1 a2) := by
  unfold mbPump
  repeat' first
      | with_reducible assumption | with_reducible apply takenStep_inv | with_reducible apply State.setMailbox_inv | extract_lets
      | with_reducible apply foldl_inv | with_reducible apply foldl_inv1 | intro _ | with_reducible apply inv_ite | split
      | dsimp +zetaDelta only

theorem addTaken_inv {a1 : State} (a2) (a3) (ha1 : Inv a1) : Inv (addTaken a1 a2 a3) := by
  unfold addTaken
  repeat' first
      | with_reducible assumption | with_reducible apply State.setMailbox_inv | intro _

theorem runNop_inv {a1 : State} (ha1 : Inv a1) : Inv (runNop a1).st := by
  unfold runNop
  repeat' first
      | with_reducible assumption | intro _

theorem fetchDesc_inv {a1 : State} (a2) (a3) (a4) (ha1 : Inv a1) : Inv (fetchDesc a1 a2 a3 a4).1 := by
  unfold fetchDesc
  repeat' first
      | with_reducible assumption | with_reducible apply askHost_inv | with_reducible apply serveRdcur_inv | extract_lets | intro _
      | dsimp +zetaDelta only

theorem runSubmit_inv {a1 : State} (a2) (a3) (a4) (a5) (ha1 : Inv a1) : Inv (runSubmit a1 a2 a3 a4 a5).st := by
  unfold runSubmit
  repeat' first
      | with_reducible assumption | with_reducible apply fetchDesc_inv | with_reducible apply submit_inv | with_reducible apply lookup_inv
      | with_reducible apply raiseErr_inv | extract_lets | intro _ | with_reducible apply inv_ite | split | dsimp +zetaDelta only

theorem runInline_inv {a1 : State} (a2) (a3) (a4) (ha1 : Inv a1) : Inv (runInline a1 a2 a3 a4).st := by
  unfold runInline
  repeat' first
      | with_reducible assumption | with_reducible apply lookup_inv | extract_lets | intro _ | with_reducible apply inv_ite | split
      | dsimp +zetaDelta only

theorem runInject_inv {a1 : State} (a2) (a3) (ha1 : Inv a1) : Inv (runInject a1 a2 a3).st := by
  unfold runInject
  repeat' first
      | with_reducible assumption | with_reducible apply deliver_inv | with_reducible apply sdTouch_inv | extract_lets | intro _
      | with_reducible apply inv_ite | split | dsimp +zetaDelta only

theorem runKick_inv {a1 : State} (a2) (a3) (ha1 : Inv a1) : Inv (runKick a1 a2 a3).st := by
  unfold runKick
  repeat' first
      | with_reducible assumption | with_reducible apply setEvent_inv | with_reducible apply sdTouch_inv | extract_lets | intro _
      | with_reducible apply inv_ite | split | dsimp +zetaDelta only

theorem runResume_inv {a1 : State} (a2) (a3) (a4) (ha1 : Inv a1) : Inv (runResume a1 a2 a3 a4).st := by
  unfold runResume
  repeat' first
      | with_reducible assumption | with_reducible apply resumeManifest_inv | extract_lets | intro _ | with_reducible apply inv_ite | split
      | dsimp +zetaDelta only

theorem runAbort_inv {a1 : State} (a2) (a3) (ha1 : Inv a1) : Inv (runAbort a1 a2 a3).st := by
  unfold runAbort
  repeat' first
      | with_reducible assumption | with_reducible apply abortManifest_inv | extract_lets | intro _ | with_reducible apply inv_ite | split
      | dsimp +zetaDelta only

theorem runTbl_inv {a1 : State} (a2) (a3) (ha1 : Inv a1) : Inv (runTbl a1 a2 a3).st := by
  unfold runTbl
  repeat' first
      | with_reducible assumption | with_reducible apply tblCommit_inv | extract_lets | intro _ | with_reducible apply inv_ite | split
      | dsimp +zetaDelta only

theorem runInvalidate_inv {a1 : State} (a2) (a3) (a4) (a5) (ha1 : Inv a1) : Inv (runInvalidate a1 a2 a3 a4 a5).st := by
  unfold runInvalidate
  repeat' first
      | with_reducible assumption | with_reducible apply startDrain_inv | intro _ | split

theorem takeSlot_inv {s : State} (mb slot seqWord) {run : State → BitVec 1024 → W16 → Ran}
    (hr : ∀ u d q, Inv u → Inv (run u d q).st) (h : Inv s) : Inv (takeSlot s mb slot seqWord run) := by
  unfold takeSlot
  extract_lets s0 d seq s1 x s2
  have h0 : Inv s0 := inv_bar4 _ _ h
  have h1 : Inv s1 := cntPreg_inv _ _ _ h0
  have h2 : Inv s2 := cntPreg_inv _ _ _ h1
  clear_value s2 s0 d seq s1
  refine inv_ite (fun _ => raiseErr_inv _ _ _ h0) (fun _ => ?_)
  generalize classify x seq = k
  clear_value x
  have body : ∀ (b : Bool) u, Inv u → Inv (if s.frz.on then answer u mb slot seq b [] 9 0 true
      else
        let r := if sReserved d then (⟨u, .now 2 0⟩ : Ran) else run u d seq
        match r.reply with
        | .now st result => answer r.st mb slot seq b [] st result
        | .later kind => mbPump (addTaken r.st mb ⟨slot, seq, kind, b, [], false⟩) mb) := by
    intro b u hu
    refine inv_ite (fun _ => answer_inv _ _ _ _ _ _ _ _ hu) (fun _ => ?_)
    extract_lets r
    have h3 : Inv r.st := ran_ite_inv hu (hr _ _ _ hu)
    split
    · exact answer_inv _ _ _ _ _ _ _ _ h3
    · exact mbPump_inv _ (addTaken_inv _ _ h3)
  cases k with
  | dup r =>
    cases r with
    | some st => exact respond_inv _ _ _ _ _ _ _ (cntPreg_inv _ _ _ h1)
    | none => exact State.setMailbox_inv _ _ h2
  | fresh => exact body _ _ (State.setMailbox_inv _ _ h1)
  | late => exact body _ _ (State.setMailbox_inv _ _ h1)
  | old => exact body _ _ (raiseErr_inv _ _ _ (cntPreg_inv _ _ _ h1))

theorem execMbNop_inv (a1) (a2) (a3) {a4 : State} (ha4 : Inv a4) : NextInv (execMbNop a1 a2 a3 a4) := by
  unfold execMbNop
  repeat' first
      | with_reducible assumption | with_reducible apply nextInv_next | with_reducible apply takeSlot_inv | with_reducible apply runNop_inv
      | intro _ | with_reducible apply inv_ite | split

theorem execMbSubmit_inv (a1) (a2) (a3) (a4) (a5) {a6 : State} (ha6 : Inv a6) : NextInv (execMbSubmit a1 a2 a3 a4 a5 a6) := by
  unfold execMbSubmit
  repeat' first
      | with_reducible assumption | with_reducible apply nextInv_next | with_reducible apply takeSlot_inv
      | with_reducible apply runSubmit_inv | intro _ | with_reducible apply inv_ite | split

theorem execMbWriteInline_inv (a1) (a2) (a3) (a4) {a5 : State} (ha5 : Inv a5) : NextInv (execMbWriteInline a1 a2 a3 a4 a5) := by
  unfold execMbWriteInline
  repeat' first
      | with_reducible assumption | with_reducible apply nextInv_next | with_reducible apply takeSlot_inv
      | with_reducible apply runInline_inv | intro _ | with_reducible apply inv_ite | split

theorem execMbInject_inv (a1) (a2) (a3) {a4 : State} (ha4 : Inv a4) : NextInv (execMbInject a1 a2 a3 a4) := by
  unfold execMbInject
  repeat' first
      | with_reducible assumption | with_reducible apply nextInv_next | with_reducible apply takeSlot_inv
      | with_reducible apply runInject_inv | intro _ | with_reducible apply inv_ite | split

theorem execMbKick_inv (a1) (a2) (a3) {a4 : State} (ha4 : Inv a4) : NextInv (execMbKick a1 a2 a3 a4) := by
  unfold execMbKick
  repeat' first
      | with_reducible assumption | with_reducible apply nextInv_next | with_reducible apply takeSlot_inv | with_reducible apply runKick_inv
      | intro _ | with_reducible apply inv_ite | split

theorem execMbResume_inv (a1) (a2) (a3) (a4) {a5 : State} (ha5 : Inv a5) : NextInv (execMbResume a1 a2 a3 a4 a5) := by
  unfold execMbResume
  repeat' first
      | with_reducible assumption | with_reducible apply nextInv_next | with_reducible apply takeSlot_inv
      | with_reducible apply runResume_inv | intro _ | with_reducible apply inv_ite | split

theorem execMbAbort_inv (a1) (a2) (a3) {a4 : State} (ha4 : Inv a4) : NextInv (execMbAbort a1 a2 a3 a4) := by
  unfold execMbAbort
  repeat' first
      | with_reducible assumption | with_reducible apply nextInv_next | with_reducible apply takeSlot_inv
      | with_reducible apply runAbort_inv | intro _ | with_reducible apply inv_ite | split

theorem execMbFence_inv (a1) (a2) (a3) {a4 : State} (ha4 : Inv a4) : NextInv (execMbFence a1 a2 a3 a4) := by
  unfold execMbFence
  repeat' first
      | with_reducible assumption | with_reducible apply nextInv_next | with_reducible apply takeSlot_inv | intro _
      | with_reducible apply inv_ite | split

theorem execTblWrite_inv (a1) (a2) (a3) {a4 : State} (ha4 : Inv a4) : NextInv (execTblWrite a1 a2 a3 a4) := by
  unfold execTblWrite
  repeat' first
      | with_reducible assumption | with_reducible apply nextInv_next | with_reducible apply takeSlot_inv | with_reducible apply runTbl_inv
      | intro _ | with_reducible apply inv_ite | split

theorem execInvalidate_inv (a1) (a2) (a3) {a4 : State} (ha4 : Inv a4) : NextInv (execInvalidate a1 a2 a3 a4) := by
  unfold execInvalidate
  repeat' first
      | with_reducible assumption | with_reducible apply nextInv_next | with_reducible apply takeSlot_inv
      | with_reducible apply runInvalidate_inv | intro _ | with_reducible apply inv_ite | split

theorem execMbBadCmd_inv (a1) (a2) (a3) {a4 : State} (ha4 : Inv a4) : NextInv (execMbBadCmd a1 a2 a3 a4) := by
  unfold execMbBadCmd
  repeat' first
      | with_reducible assumption | with_reducible apply nextInv_next | with_reducible apply takeSlot_inv | intro _
      | with_reducible apply inv_ite | split

theorem endTaken_inv {a1 : State} (a2) (a3) (a4) (a5) (a6) (ha1 : Inv a1) : Inv (endTaken a1 a2 a3 a4 a5 a6) := by
  unfold endTaken
  repeat' first
      | with_reducible assumption | with_reducible apply mbPump_inv | with_reducible apply answer_inv
      | with_reducible apply State.setMailbox_inv | extract_lets | intro _ | split | dsimp +zetaDelta only

theorem drainEnd_inv {a1 : State} (a2) (a3) (ha1 : Inv a1) : Inv (drainEnd a1 a2 a3) := by
  unfold drainEnd
  repeat' first
      | with_reducible assumption | with_reducible apply endTaken_inv | with_reducible apply noteDrain_inv
      | with_reducible apply dropSlots_inv | with_reducible apply drainMovers_inv | with_reducible apply beginDrains_inv
      | with_reducible apply goDone_inv | with_reducible apply clrPreg_inv | extract_lets | intro _ | with_reducible apply inv_ite | split
      | fail_if_no_progress with_reducible refine inv_frame ?_ rfl rfl rfl | dsimp +zetaDelta only

theorem execInvalidateComplete_inv (a1) (a2) {a3 : State} (ha3 : Inv a3) : NextInv (execInvalidateComplete a1 a2 a3) := by
  unfold execInvalidateComplete
  repeat' first
      | with_reducible assumption | with_reducible apply nextInv_next | with_reducible apply drainEnd_inv | intro _

theorem windowReset_inv {a1 : State} (a2) (ha1 : Inv a1) : Inv (windowReset a1 a2) := by
  unfold windowReset
  repeat' first
      | with_reducible assumption | with_reducible apply State.setMailbox_inv | intro _

theorem mbCtrlWrite_inv {a1 : State} (a2) (a3) (ha1 : Inv a1) : Inv (mbCtrlWrite a1 a2 a3) := by
  unfold mbCtrlWrite
  repeat' first
      | with_reducible assumption | with_reducible apply windowReset_inv | with_reducible apply pageWrite_inv
      | with_reducible apply goDone_inv | extract_lets | intro _ | with_reducible apply inv_ite | split | dsimp +zetaDelta only

theorem execMailboxEn_inv (a1) (a2) {a3 : State} (ha3 : Inv a3) : NextInv (execMailboxEn a1 a2 a3) := by
  unfold execMailboxEn
  repeat' first
      | with_reducible assumption | with_reducible apply nextInv_next | with_reducible apply mbCtrlWrite_inv | intro _

theorem execWinReset_inv (a1) (a2) {a3 : State} (ha3 : Inv a3) : NextInv (execWinReset a1 a2 a3) := by
  unfold execWinReset
  repeat' first
      | with_reducible assumption | with_reducible apply nextInv_next | with_reducible apply mbCtrlWrite_inv | intro _

theorem bar4Write_inv {s : State} (off bs) (h : Inv s) : Inv (bar4Write s off bs) := by
  unfold bar4Write
  extract_lets n seqs hit s1
  split
  · exact h
  · refine foldl_inv ?_ _ (inv_bar4 _ _ h)
    intro t q ht
    split
    · exact raiseErr_inv _ _ _ ht
    · exact ht

end Sys2Proof.Machine
end

