-- ==== Sys2Proof/Laws/InvSettle.lean ====
section
/-! SUPPORT. Every operation of Machine/Settle.lean keeps the invariant. -/

set_option Elab.async false

namespace Sys2Proof.Machine

open Sys2Proof

theorem inboundRun_inv (a1) {a2 : State} (a3) (ha2 : Inv a2) : Inv (inboundRun a1 a2 a3).1 := by
  induction a1 generalizing a2 a3 with
  | zero => exact ha2
  | succ fuel ih =>
    unfold inboundRun
    repeat' first
        | with_reducible assumption | with_reducible apply ih | with_reducible apply postAsk_inv | with_reducible apply postWrite_inv
        | extract_lets | intro _ | with_reducible apply inv_ite | split | dsimp +zetaDelta only

theorem inboundStep_inv (a1) (a2) (ha1 : Inv a1.1) : Inv (inboundStep a1 a2).1 := by
  unfold inboundStep
  repeat' first
      | with_reducible assumption | with_reducible apply inboundRun_inv | extract_lets | intro _ | with_reducible apply inv_ite | split
      | dsimp +zetaDelta only

theorem pumpInbound_inv {a1 : State} (ha1 : Inv a1) : Inv (pumpInbound a1) := by
  unfold pumpInbound
  repeat' first
      | with_reducible assumption | with_reducible apply inboundStep_inv | extract_lets | with_reducible apply foldl_inv
      | with_reducible apply foldl_inv1 | intro _ | with_reducible apply inv_ite | split
      | fail_if_no_progress with_reducible refine inv_frame ?_ rfl rfl rfl | dsimp +zetaDelta only

theorem settleWindow_inv {a1 : State} (ha1 : Inv a1) : Inv (settleWindow a1) := by
  unfold settleWindow
  repeat' first
      | with_reducible assumption | with_reducible apply uncommitCheck_inv | with_reducible apply moveAsk_inv
      | with_reducible apply moveCheck_inv | with_reducible apply pumpHost_inv | with_reducible apply lwCloseCheck_inv
      | with_reducible apply clearAsk_inv | with_reducible apply sweepWays_inv | with_reducible apply pumpBi_inv | extract_lets
      | with_reducible apply foldl_inv | with_reducible apply foldl_inv1 | intro _ | dsimp +zetaDelta only

theorem moverPump_inv {a1 : State} (a2) (ha1 : Inv a1) : Inv (moverPump a1 a2) := by
  unfold moverPump
  repeat' first
      | with_reducible assumption | with_reducible apply abortAllEnd_inv | with_reducible apply advance_inv | with_reducible apply foldl_inv
      | with_reducible apply foldl_inv1 | intro _ | with_reducible apply inv_ite | split

theorem settle_inv {a1 : State} (ha1 : Inv a1) : Inv (settle a1) := by
  unfold settle
  repeat' first
      | with_reducible assumption | with_reducible apply moverPump_inv | with_reducible apply settleWindow_inv
      | with_reducible apply pumpInbound_inv | with_reducible apply mbPump_inv | with_reducible apply storesSeen_inv | extract_lets
      | with_reducible apply foldl_inv | with_reducible apply foldl_inv1 | intro _ | dsimp +zetaDelta only

theorem execBisnpResponse_inv (a1) (a2) {a3 : State} (ha3 : Inv a3) : NextInv (execBisnpResponse a1 a2 a3) := by
  unfold execBisnpResponse
  repeat' first
      | with_reducible assumption | with_reducible apply nextInv_next | with_reducible apply settle_inv | with_reducible apply biAnswer_inv
      | intro _

theorem execCacheFill_inv (a1) (a2) (a3) (a4) (a5) {a6 : State} (ha6 : Inv a6) : NextInv (execCacheFill a1 a2 a3 a4 a5 a6) := by
  unfold execCacheFill
  repeat' first
      | with_reducible assumption | with_reducible apply nextInv_next | with_reducible apply settle_inv | with_reducible apply fillCache_inv
      | with_reducible apply applyFault_inv | intro _

theorem execSnpdata_inv (a1) {a2 : State} (ha2 : Inv a2) : NextInv (execSnpdata a1 a2) := by
  unfold execSnpdata
  repeat' first
      | with_reducible assumption | with_reducible apply nextInv_next | with_reducible apply settle_inv | with_reducible apply snoopData_inv
      | intro _ | with_reducible apply inv_ite | split

theorem execSnpinv_inv (a1) {a2 : State} (ha2 : Inv a2) : NextInv (execSnpinv a1 a2) := by
  unfold execSnpinv
  repeat' first
      | with_reducible assumption | with_reducible apply nextInv_next | with_reducible apply settle_inv | with_reducible apply snoopInv_inv
      | intro _ | with_reducible apply inv_ite | split

theorem execPlChunkDone_inv {a1 : State} (ha1 : Inv a1) : NextInv (execPlChunkDone a1) := by
  unfold execPlChunkDone
  repeat' first
      | with_reducible assumption | with_reducible apply nextInv_next | with_reducible apply settle_inv | with_reducible apply chunkDone_inv
      | intro _

theorem execPlCommit_inv {a1 : State} (ha1 : Inv a1) : NextInv (execPlCommit a1) := by
  unfold execPlCommit
  repeat' first
      | with_reducible assumption | with_reducible apply nextInv_next | with_reducible apply settle_inv | with_reducible apply plCommit_inv
      | intro _

end Sys2Proof.Machine
end

