-- ==== Sys2Proof/Laws/InvFreeze.lean ====
section
/-! SUPPORT. Every operation of Machine/Freeze.lean keeps the invariant. -/

set_option Elab.async false

namespace Sys2Proof.Machine

open Sys2Proof

theorem loseStores_inv {a1 : State} (a2) (ha1 : Inv a1) : Inv (loseStores a1 a2) := by
  unfold loseStores
  repeat' first
      | with_reducible assumption | with_reducible apply listDiscard_inv | with_reducible apply State.setCoreRaw_inv | extract_lets
      | with_reducible apply foldl_inv | with_reducible apply foldl_inv1 | intro _ | with_reducible apply inv_ite | split
      | dsimp +zetaDelta only

theorem loseSent_inv {a1 : State} (a2) (ha1 : Inv a1) : Inv (loseSent a1 a2) := by
  unfold loseSent
  repeat' first
      | with_reducible assumption | with_reducible apply State.setCoreRaw_inv | extract_lets | intro _ | with_reducible apply inv_ite
      | split | dsimp +zetaDelta only

theorem discardWrite_inv {a1 : State} (a2) (ha1 : Inv a1) : Inv (discardWrite a1 a2) := by
  unfold discardWrite
  repeat' first
      | with_reducible assumption | with_reducible apply loseSent_inv | with_reducible apply listDiscard_inv | intro _

theorem refuseWaiting_inv {a1 : State} (ha1 : Inv a1) : Inv (refuseWaiting a1) := by
  unfold refuseWaiting
  repeat' first
      | with_reducible assumption | with_reducible apply dropMem_inv | with_reducible apply State.setSlice_inv | extract_lets
      | with_reducible apply foldl_inv | with_reducible apply foldl_inv1 | intro _
      | fail_if_no_progress with_reducible refine inv_frame ?_ rfl rfl rfl | dsimp +zetaDelta only

theorem clearReport_inv {s : State} (h : Inv s) : Inv (clearReport s) :=
  foldl_inv (fun _ _ ht => setPreg_inv _ _ _ ht) _
    ⟨h.regs, h.staged, h.captured, h.dm, h.poison, h.bar4, h.queue, h.inq, Nat.zero_le _⟩

theorem unsentWrites_inv {a1 : State} (ha1 : Inv a1) : Inv (unsentWrites a1).1 := by
  unfold unsentWrites
  repeat' first
      | with_reducible assumption | extract_lets | intro _ | fail_if_no_progress with_reducible refine inv_frame ?_ rfl rfl rfl
      | dsimp +zetaDelta only

theorem enterFreeze_inv {a1 : State} (a2) (ha1 : Inv a1) : Inv (enterFreeze a1 a2) := by
  unfold enterFreeze
  repeat' first
      | with_reducible assumption | with_reducible apply unsentWrites_inv | with_reducible apply clearReport_inv
      | with_reducible apply refuseWaiting_inv | with_reducible apply discardWrite_inv | with_reducible apply loseStores_inv
      | with_reducible apply raiseInt_inv | extract_lets | with_reducible apply foldl_inv | with_reducible apply foldl_inv1 | intro _
      | with_reducible apply inv_ite | split | fail_if_no_progress with_reducible refine inv_frame ?_ rfl rfl rfl | dsimp +zetaDelta only

theorem setFence_inv {a1 : State} (a2) (ha1 : Inv a1) : Inv (setFence a1 a2) := by
  unfold setFence
  repeat' first
      | with_reducible assumption | with_reducible apply orPreg_inv | intro _

theorem fenceCache_inv {a1 : State} (a2) (ha1 : Inv a1) : Inv (fenceCache a1 a2) := by
  unfold fenceCache
  repeat' first
      | with_reducible assumption | with_reducible apply finishClear_inv | with_reducible apply clusterClear_inv
      | with_reducible apply setFlags_inv | with_reducible apply homeClean_inv | with_reducible apply cancelGrant_inv
      | with_reducible apply State.setSlice_inv | with_reducible apply State.setCl_inv | with_reducible apply clrPreg_inv | extract_lets
      | with_reducible apply foldl_inv | with_reducible apply foldl_inv1 | intro _ | dsimp +zetaDelta only

theorem fenceCluster_inv {a1 : State} (a2) (ha1 : Inv a1) : Inv (fenceCluster a1 a2) := by
  unfold fenceCluster
  repeat' first
      | with_reducible assumption | with_reducible apply fenceCache_inv | with_reducible apply setFence_inv
      | with_reducible apply settle_inv | with_reducible apply resetMover_inv | with_reducible apply fenceCores_inv | extract_lets | intro _
      | with_reducible apply inv_ite | split | dsimp +zetaDelta only

theorem fenceStack_inv {a1 : State} (a2) (ha1 : Inv a1) : Inv (fenceStack a1 a2) := by
  unfold fenceStack
  repeat' first
      | with_reducible assumption | with_reducible apply setFence_inv | with_reducible apply plFenceCheck_inv | intro _
      | with_reducible apply inv_ite | split

theorem fencePage_inv {s : State} (p) (h : Inv s) : Inv (fencePage s p) := by
  refine withReady_inv (fun t ht => ?_) h
  cases p
  case gc id => exact fenceCore_inv _ ht
  case cl n => exact fenceCluster_inv _ ht
  case mc n => exact fenceStack_inv _ ht
  case xl n => exact fencePort_inv _ ht
  case ep => exact enterFreeze_inv _ (setFence_inv _ ht)
  case dev | fc => exact ht
  all_goals exact setFence_inv _ ht

theorem releaseMasters_inv {a1 : State} (ha1 : Inv a1) : Inv (releaseMasters a1) := by
  unfold releaseMasters
  repeat' first
      | with_reducible assumption | with_reducible apply resetMover_inv | with_reducible apply fenceCores_inv
      | with_reducible apply withReady_inv | with_reducible apply raiseErr_inv | extract_lets | with_reducible apply foldl_inv
      | with_reducible apply foldl_inv1 | intro _ | fail_if_no_progress with_reducible refine inv_frame ?_ rfl rfl rfl
      | dsimp +zetaDelta only

theorem wbResume_inv {a1 : State} (ha1 : Inv a1) : Inv (wbResume a1) := by
  unfold wbResume
  repeat' first
      | with_reducible assumption | with_reducible apply dropHostLines_inv | with_reducible apply wbCheck_inv | intro _
      | with_reducible apply inv_ite | split

theorem endFreeze_inv {a1 : State} (ha1 : Inv a1) : Inv (endFreeze a1) := by
  unfold endFreeze
  repeat' first
      | with_reducible assumption | with_reducible apply wbResume_inv | with_reducible apply releaseMasters_inv
      | with_reducible apply settle_inv | with_reducible apply resumeAccesses_inv | with_reducible apply biResume_inv
      | with_reducible apply flushMsix_inv | with_reducible apply drainWrites_inv | with_reducible apply sendWrite_inv
      | with_reducible apply raiseInt_inv | with_reducible apply clrPreg_inv | extract_lets | with_reducible apply foldl_inv
      | with_reducible apply foldl_inv1 | intro _ | fail_if_no_progress with_reducible refine inv_frame ?_ rfl rfl rfl
      | dsimp +zetaDelta only

theorem releaseFreeze_inv {a1 : State} (ha1 : Inv a1) : Inv (releaseFreeze a1) := by
  unfold releaseFreeze
  repeat' first
      | with_reducible assumption | with_reducible apply endFreeze_inv | with_reducible apply raiseErr_inv | intro _
      | with_reducible apply inv_ite | split

theorem rivalFreeze_inv {a1 : State} (a2) (ha1 : Inv a1) : Inv (rivalFreeze a1 a2) := by
  unfold rivalFreeze
  exact raiseErr_inv _ _ _ (inv_frame (enterFreeze_inv _ ha1) rfl rfl rfl)

theorem frzCtrlWrite_inv {a1 : State} (a2 a3) (ha1 : Inv a1) : Inv (frzCtrlWrite a1 a2 a3) := by
  unfold frzCtrlWrite
  repeat' first
      | with_reducible assumption | with_reducible apply rivalFreeze_inv | with_reducible apply releaseFreeze_inv | with_reducible apply enterFreeze_inv
      | with_reducible apply pageWrite_inv | with_reducible apply raiseErr_inv | with_reducible apply goDone_inv | extract_lets | intro _
      | with_reducible apply inv_ite | split | fail_if_no_progress with_reducible refine inv_frame ?_ rfl rfl rfl | dsimp +zetaDelta only

theorem execFreeze_inv (a1) {a2 : State} (ha2 : Inv a2) : NextInv (execFreeze a1 a2) := by
  unfold execFreeze
  repeat' first
      | with_reducible assumption | with_reducible apply nextInv_next | with_reducible apply frzCtrlWrite_inv | intro _

theorem execRelease_inv (a1 a2) {a3 : State} (ha3 : Inv a3) : NextInv (execRelease a1 a2 a3) := by
  unfold execRelease
  repeat' first
      | with_reducible assumption | with_reducible apply nextInv_next | with_reducible apply frzCtrlWrite_inv | intro _

end Sys2Proof.Machine
end

