-- ==== Sys2Proof/Laws/InvGrid.lean ====
section
/-! SUPPORT. Every operation of Machine/Grid.lean keeps the invariant. -/

set_option Elab.async false

namespace Sys2Proof.Machine

open Sys2Proof

theorem gcEnableAct_inv {a1 : State} (a2) (a3) (ha1 : Inv a1) : Inv (gcEnableAct a1 a2 a3) := by
  unfold gcEnableAct
  repeat' first
      | with_reducible assumption | with_reducible apply resetCore_inv | with_reducible apply State.setCore_inv | extract_lets | intro _
      | with_reducible apply inv_ite | split | dsimp +zetaDelta only

theorem gcStartWrite_inv {a1 : State} (a2) (a3) (ha1 : Inv a1) : Inv (gcStartWrite a1 a2 a3) := by
  unfold gcStartWrite
  repeat' first
      | with_reducible assumption | with_reducible apply startCore_inv | with_reducible apply askPark_inv
      | with_reducible apply pageWrite_inv | with_reducible apply goDone_inv | with_reducible apply clrPreg_inv | extract_lets | intro _
      | with_reducible apply inv_ite | split | dsimp +zetaDelta only

theorem execGcStart_inv (a1) (a2) {a3 : State} (ha3 : Inv a3) : NextInv (execGcStart a1 a2 a3) := by
  unfold execGcStart
  repeat' first
      | with_reducible assumption | with_reducible apply nextInv_next | with_reducible apply gcStartWrite_inv | intro _

theorem execGcPark_inv (a1) (a2) {a3 : State} (ha3 : Inv a3) : NextInv (execGcPark a1 a2 a3) := by
  unfold execGcPark
  repeat' first
      | with_reducible assumption | with_reducible apply nextInv_next | with_reducible apply gcStartWrite_inv | intro _

theorem corePark_inv {a1 : State} (a2) (ha1 : Inv a1) : Inv (corePark a1 a2) := by
  unfold corePark
  repeat' first
      | with_reducible assumption | with_reducible apply State.setCore_inv | with_reducible apply goDone_inv | extract_lets | intro _
      | with_reducible apply inv_ite | split | dsimp +zetaDelta only

theorem execCoreParked_inv (a1) {a2 : State} (ha2 : Inv a2) : NextInv (execCoreParked a1 a2) := by
  unfold execCoreParked
  repeat' first
      | with_reducible assumption | with_reducible apply nextInv_next | with_reducible apply corePark_inv | intro _

theorem gcKickWrite_inv {a1 : State} (a2) (a3) (ha1 : Inv a1) : Inv (gcKickWrite a1 a2 a3) := by
  unfold gcKickWrite
  repeat' first
      | with_reducible assumption | with_reducible apply setEvent_inv | with_reducible apply sdTouch_inv
      | with_reducible apply pageWriteGo_inv | intro _

theorem execGcKick_inv (a1) (a2) {a3 : State} (ha3 : Inv a3) : NextInv (execGcKick a1 a2 a3) := by
  unfold execGcKick
  repeat' first
      | with_reducible assumption | with_reducible apply nextInv_next | with_reducible apply gcKickWrite_inv | intro _

theorem messageArrives_inv {a1 : State} (a2) (a3) (a4) (ha1 : Inv a1) : Inv (messageArrives a1 a2 a3 a4) := by
  unfold messageArrives
  repeat' first
      | with_reducible assumption | with_reducible apply spoilMsg_inv | with_reducible apply deliver_inv
      | with_reducible apply beginFill_inv | extract_lets | intro _ | with_reducible apply inv_ite | split
      | fail_if_no_progress with_reducible refine inv_frame ?_ rfl rfl rfl | dsimp +zetaDelta only

theorem execMessageDelivery_inv (a1) (a2) (a3) {a4 : State} (ha4 : Inv a4) : NextInv (execMessageDelivery a1 a2 a3 a4) := by
  unfold execMessageDelivery
  repeat' first
      | with_reducible assumption | with_reducible apply nextInv_next | with_reducible apply messageArrives_inv | intro _

theorem execFareReturn_inv (a1) {a2 : State} (ha2 : Inv a2) : NextInv (execFareReturn a1 a2) := by
  unfold execFareReturn
  repeat' first
      | with_reducible assumption | with_reducible apply nextInv_next | with_reducible apply arriveFare_inv | intro _
      | with_reducible apply inv_ite | split | fail_if_no_progress with_reducible refine inv_frame ?_ rfl rfl rfl

theorem lockParity_inv {a1 : State} (a2) (ha1 : Inv a1) : Inv (lockParity a1 a2) := by
  unfold lockParity
  repeat' first
      | with_reducible assumption | with_reducible apply serveLock_inv | with_reducible apply State.setLock_inv
      | with_reducible apply raiseErr_inv | with_reducible apply cntPreg_inv | extract_lets | intro _ | dsimp +zetaDelta only

theorem execLockStatePe_inv (a1) {a2 : State} (ha2 : Inv a2) : NextInv (execLockStatePe a1 a2) := by
  unfold execLockStatePe
  repeat' first
      | with_reducible assumption | with_reducible apply nextInv_next | with_reducible apply lockParity_inv | intro _

theorem forceFreeAct_inv {a1 : State} (a2) (ha1 : Inv a1) : Inv (forceFreeAct a1 a2) := by
  unfold forceFreeAct
  repeat' first
      | with_reducible assumption | with_reducible apply serveLock_inv | with_reducible apply State.setLock_inv | extract_lets | intro _
      | with_reducible apply inv_ite | split | dsimp +zetaDelta only

theorem forceBreakAct_inv {a1 : State} (a2) (ha1 : Inv a1) : Inv (forceBreakAct a1 a2) := by
  unfold forceBreakAct
  repeat' first
      | with_reducible assumption | with_reducible apply breakLock_inv | intro _ | with_reducible apply inv_ite | split

theorem mlCmdWrite_inv {a1 : State} (a2) (ha1 : Inv a1) : Inv (mlCmdWrite a1 a2) := by
  unfold mlCmdWrite
  repeat' first
      | with_reducible assumption | with_reducible apply forceBreakAct_inv | with_reducible apply forceFreeAct_inv
      | with_reducible apply pageWrite_inv | with_reducible apply goDone_inv | extract_lets | intro _ | with_reducible apply inv_ite | split
      | dsimp +zetaDelta only

theorem execForceFree_inv (a1) {a2 : State} (ha2 : Inv a2) : NextInv (execForceFree a1 a2) := by
  unfold execForceFree
  repeat' first
      | with_reducible assumption | with_reducible apply nextInv_next | with_reducible apply mlCmdWrite_inv | intro _

theorem execForceBreak_inv (a1) {a2 : State} (ha2 : Inv a2) : NextInv (execForceBreak a1 a2) := by
  unfold execForceBreak
  repeat' first
      | with_reducible assumption | with_reducible apply nextInv_next | with_reducible apply mlCmdWrite_inv | intro _

theorem partCoreReset_inv {a1 : State} (a2) (ha1 : Inv a1) : Inv (partCoreReset a1 a2) := by
  unfold partCoreReset
  repeat' first
      | with_reducible assumption | with_reducible apply clearCore_inv | with_reducible apply sdTouch_inv | with_reducible apply clrPreg_inv
      | intro _

theorem sdPartResetWrite_inv {a1 : State} (a2) (ha1 : Inv a1) : Inv (sdPartResetWrite a1 a2) := by
  unfold sdPartResetWrite
  repeat' first
      | with_reducible assumption | with_reducible apply partCoreReset_inv | with_reducible apply resetMover_inv
      | with_reducible apply loseLocks_inv | with_reducible apply pageWriteGo_inv | with_reducible apply logBoot_inv | extract_lets
      | with_reducible apply foldl_inv | with_reducible apply foldl_inv1 | intro _ | dsimp +zetaDelta only

theorem execSdPartReset_inv (a1) {a2 : State} (ha2 : Inv a2) : NextInv (execSdPartReset a1 a2) := by
  unfold execSdPartReset
  repeat' first
      | with_reducible assumption | with_reducible apply nextInv_next | with_reducible apply sdPartResetWrite_inv | intro _

end Sys2Proof.Machine
end

