-- ==== Sys2Proof/Laws/InvPower.lean ====
section
/-! SUPPORT. Every operation of Machine/Power.lean keeps the invariant. -/

set_option Elab.async false

namespace Sys2Proof.Machine

open Sys2Proof

theorem heavyLoad_inv {a1 : State} (a2) (a3) (ha1 : Inv a1) : Inv (heavyLoad a1 a2 a3) := by
  unfold heavyLoad
  repeat' first
      | with_reducible assumption | with_reducible apply raiseErr_inv | with_reducible apply cntPreg_inv | intro _
      | with_reducible apply inv_ite | split

end Sys2Proof.Machine
end

