-- ==== Sys2Proof/Laws/InvTimetable.lean ====
section
/-! SUPPORT. Every operation of Machine/Timetable.lean keeps the invariant. -/

set_option Elab.async false

namespace Sys2Proof.Machine

open Sys2Proof

theorem unreachedCheck_inv {a1 : State} (a2) (ha1 : Inv a1) : Inv (unreachedCheck a1 a2) := by
  unfold unreachedCheck
  repeat' first
      | with_reducible assumption | with_reducible apply setTtReg_inv | extract_lets | intro _ | with_reducible apply inv_ite | split
      | dsimp +zetaDelta only

theorem passEntry_inv {a1 : State} (a2) (a3) (ha1 : Inv a1) : Inv (passEntry a1 a2 a3) := by
  unfold passEntry
  repeat' first
      | with_reducible assumption | with_reducible apply setTt_inv | extract_lets | intro _ | with_reducible apply inv_ite | split
      | dsimp +zetaDelta only

theorem takePlace_inv {a1 : State} (a2) (a3) (ha1 : Inv a1) : Inv (takePlace a1 a2 a3) := by
  unfold takePlace
  repeat' first
      | with_reducible assumption | with_reducible apply passEntry_inv | with_reducible apply setTt_inv | with_reducible apply setTtReg_inv
      | with_reducible apply when_inv | extract_lets | intro _ | with_reducible apply inv_ite | split | dsimp +zetaDelta only

theorem dispatch_inv {a1 : State} (a2) (a3) (a4) (a5) {a6 : State → BitVec 128 → State} (ha6 : ∀ u e0, Inv u → Inv (a6 u e0)) (ha1 : Inv a1) : Inv (dispatch a1 a2 a3 a4 a5 a6) := by
  unfold dispatch
  repeat' first
      | with_reducible assumption | with_reducible apply ha6 | with_reducible apply takePlace_inv | extract_lets | intro _
      | with_reducible apply inv_ite | split | dsimp +zetaDelta only

theorem execTtNop_inv (a1) (a2) {a3 : State} (ha3 : Inv a3) : NextInv (execTtNop a1 a2 a3) := by
  unfold execTtNop
  repeat' first
      | with_reducible assumption | with_reducible apply nextInv_next | with_reducible apply dispatch_inv | intro _

theorem execTtEvent_inv (a1) (a2) {a3 : State} (ha3 : Inv a3) : NextInv (execTtEvent a1 a2 a3) := by
  unfold execTtEvent
  repeat' first
      | with_reducible assumption | with_reducible apply nextInv_next | with_reducible apply dispatch_inv
      | with_reducible apply setEvent_inv | intro _

theorem ttStartAct_inv {a1 : State} (a2) (a3) (ha1 : Inv a1) : Inv (ttStartAct a1 a2 a3) := by
  unfold ttStartAct
  repeat' first
      | with_reducible assumption | with_reducible apply startCore_inv | with_reducible apply setTt_inv | intro _ | split

theorem execTtStart_inv (a1) (a2) {a3 : State} (ha3 : Inv a3) : NextInv (execTtStart a1 a2 a3) := by
  unfold execTtStart
  repeat' first
      | with_reducible assumption | with_reducible apply nextInv_next | with_reducible apply ttStartAct_inv
      | with_reducible apply dispatch_inv | intro _

theorem ttSendAct_inv {a1 : State} (a2) (a3) (a4) (a5) (ha1 : Inv a1) : Inv (ttSendAct a1 a2 a3 a4 a5) := by
  unfold ttSendAct
  repeat' first
      | with_reducible assumption | with_reducible apply launch_inv | with_reducible apply spendFare_inv
      | with_reducible apply sendStatus_inv | with_reducible apply haltLate_inv | with_reducible apply noteUpset_inv
      | with_reducible apply setTt_inv | extract_lets | intro _ | with_reducible apply inv_ite | split | dsimp +zetaDelta only

theorem execTtSend_inv (a1) (a2) (a3) (a4) {a5 : State} (ha5 : Inv a5) : NextInv (execTtSend a1 a2 a3 a4 a5) := by
  unfold execTtSend
  repeat' first
      | with_reducible assumption | with_reducible apply nextInv_next | with_reducible apply ttSendAct_inv
      | with_reducible apply dispatch_inv | intro _

theorem execTtManifest_inv (a1) (a2) (a3) (a4) {a5 : State} (ha5 : Inv a5) : NextInv (execTtManifest a1 a2 a3 a4 a5) := by
  unfold execTtManifest
  repeat' first
      | with_reducible assumption | with_reducible apply nextInv_next | with_reducible apply dispatch_inv
      | with_reducible apply submitTimetable_inv | intro _

theorem reportDeadline_inv {a1 : State} (a2) (ha1 : Inv a1) : Inv (reportDeadline a1 a2) := by
  unfold reportDeadline
  repeat' first
      | with_reducible assumption | extract_lets | intro _ | fail_if_no_progress with_reducible refine inv_frame ?_ rfl rfl rfl
      | dsimp +zetaDelta only

theorem deadlineMiss_inv {a1 : State} (a2) (a3) (ha1 : Inv a1) : Inv (deadlineMiss a1 a2 a3) := by
  unfold deadlineMiss
  repeat' first
      | with_reducible assumption | with_reducible apply reportDeadline_inv | with_reducible apply setEvent_inv
      | with_reducible apply setTtReg_inv | intro _

theorem execTtDeadlineBerth_inv (a1) (a2) {a3 : State} (ha3 : Inv a3) : NextInv (execTtDeadlineBerth a1 a2 a3) := by
  unfold execTtDeadlineBerth
  repeat' first
      | with_reducible assumption | with_reducible apply nextInv_next | with_reducible apply deadlineMiss_inv
      | with_reducible apply dispatch_inv | intro _ | with_reducible apply inv_ite | split

theorem execTtDeadlineMark_inv (a1) (a2) {a3 : State} (ha3 : Inv a3) : NextInv (execTtDeadlineMark a1 a2 a3) := by
  unfold execTtDeadlineMark
  repeat' first
      | with_reducible assumption | with_reducible apply nextInv_next | with_reducible apply deadlineMiss_inv
      | with_reducible apply dispatch_inv | intro _ | with_reducible apply inv_ite | split

theorem ttLoadAct_inv {a1 : State} (a2) (a3) (ha1 : Inv a1) : Inv (ttLoadAct a1 a2 a3) := by
  unfold ttLoadAct
  repeat' first
      | with_reducible assumption | with_reducible apply heavyLoad_inv | with_reducible apply setTt_inv | intro _

theorem execTtLoad_inv (a1) (a2) {a3 : State} (ha3 : Inv a3) : NextInv (execTtLoad a1 a2 a3) := by
  unfold execTtLoad
  repeat' first
      | with_reducible assumption | with_reducible apply nextInv_next | with_reducible apply ttLoadAct_inv
      | with_reducible apply dispatch_inv | intro _

theorem execTtQuietOn_inv (a1) (a2) {a3 : State} (ha3 : Inv a3) : NextInv (execTtQuietOn a1 a2 a3) := by
  unfold execTtQuietOn
  repeat' first
      | with_reducible assumption | with_reducible apply nextInv_next | with_reducible apply dispatch_inv | with_reducible apply setTt_inv
      | intro _

theorem execTtQuietOff_inv (a1) (a2) {a3 : State} (ha3 : Inv a3) : NextInv (execTtQuietOff a1 a2 a3) := by
  unfold execTtQuietOff
  repeat' first
      | with_reducible assumption | with_reducible apply nextInv_next | with_reducible apply dispatch_inv | with_reducible apply setTt_inv
      | intro _

theorem ttTrapAct_inv {a1 : State} (a2) (a3) (ha1 : Inv a1) : Inv (ttTrapAct a1 a2 a3) := by
  unfold ttTrapAct
  repeat' first
      | with_reducible assumption | with_reducible apply haltCore_inv | intro _ | with_reducible apply inv_ite | split

theorem execTtTrap_inv (a1) (a2) {a3 : State} (ha3 : Inv a3) : NextInv (execTtTrap a1 a2 a3) := by
  unfold execTtTrap
  repeat' first
      | with_reducible assumption | with_reducible apply nextInv_next | with_reducible apply ttTrapAct_inv
      | with_reducible apply dispatch_inv | intro _

theorem execTtBadact_inv (a1) (a2) {a3 : State} (ha3 : Inv a3) : NextInv (execTtBadact a1 a2 a3) := by
  unfold execTtBadact
  repeat' first
      | with_reducible assumption | with_reducible apply nextInv_next | with_reducible apply passEntry_inv
      | with_reducible apply setTtReg_inv | extract_lets | intro _ | with_reducible apply inv_ite | split | dsimp +zetaDelta only

theorem ttCtrlWrite_inv {a1 : State} (a2) (a3) (ha1 : Inv a1) : Inv (ttCtrlWrite a1 a2 a3) := by
  unfold ttCtrlWrite
  repeat' first
      | with_reducible assumption | with_reducible apply setTt_inv | with_reducible apply setTtReg_inv | extract_lets | intro _
      | with_reducible apply inv_ite | split | dsimp +zetaDelta only

theorem execTtArm_inv (a1) (a2) {a3 : State} (ha3 : Inv a3) : NextInv (execTtArm a1 a2 a3) := by
  unfold execTtArm
  repeat' first
      | with_reducible assumption | with_reducible apply nextInv_next | with_reducible apply ttCtrlWrite_inv | intro _

theorem execTtEnable_inv (a1) (a2) {a3 : State} (ha3 : Inv a3) : NextInv (execTtEnable a1 a2 a3) := by
  unfold execTtEnable
  repeat' first
      | with_reducible assumption | with_reducible apply nextInv_next | with_reducible apply ttCtrlWrite_inv | intro _

theorem ttWindowWrite_inv {a1 : State} (a2) (a3) (a4) (ha1 : Inv a1) : Inv (ttWindowWrite a1 a2 a3 a4) := by
  unfold ttWindowWrite
  repeat' first
      | with_reducible assumption | with_reducible apply ttCtrlWrite_inv | with_reducible apply setTtReg_inv | extract_lets
      | with_reducible apply foldl_inv | with_reducible apply foldl_inv1 | intro _ | with_reducible apply inv_ite | split
      | with_reducible apply inv_staged | fail_if_no_progress with_reducible refine inv_frame ?_ rfl rfl rfl | dsimp +zetaDelta only

theorem execTtBankWrite_inv (a1) (a2) (a3) {a4 : State} (ha4 : Inv a4) : NextInv (execTtBankWrite a1 a2 a3 a4) := by
  unfold execTtBankWrite
  repeat' first
      | with_reducible assumption | with_reducible apply nextInv_next | with_reducible apply ttWindowWrite_inv | intro _
      | with_reducible apply inv_ite | split

end Sys2Proof.Machine
end

