-- ==== Sys2Proof/Laws/InvTide.lean ====
section
/-! SUPPORT. Every operation of Machine/Tide.lean keeps the invariant. -/

set_option Elab.async false

namespace Sys2Proof.Machine

open Sys2Proof

theorem lenSettled_inv {a1 : State} (ha1 : Inv a1) : Inv (lenSettled a1) := by
  unfold lenSettled
  repeat' first
      | with_reducible assumption | with_reducible apply unreachedCheck_inv | with_reducible apply foldl_inv
      | with_reducible apply foldl_inv1 | intro _

theorem tideMissed_inv {a1 : State} (a2) (ha1 : Inv a1) : Inv (tideMissed a1 a2) := by
  unfold tideMissed
  repeat' first
      | with_reducible assumption | with_reducible apply lenSettled_inv | with_reducible apply setMode_inv
      | with_reducible apply raiseErrs_inv | with_reducible apply cntPreg_inv | with_reducible apply setPreg_inv | extract_lets | intro _
      | with_reducible apply inv_ite | split | fail_if_no_progress with_reducible refine inv_frame ?_ rfl rfl rfl | dsimp +zetaDelta only

theorem useOffset_inv {a1 : State} (a2) (ha1 : Inv a1) : Inv (useOffset a1 a2) := by
  unfold useOffset
  repeat' first
      | with_reducible assumption | with_reducible apply setPreg_inv | intro _
      | fail_if_no_progress with_reducible refine inv_frame ?_ rfl rfl rfl

theorem relockOffset_inv {a1 : State} (a2) (ha1 : Inv a1) : Inv (relockOffset a1 a2) := by
  unfold relockOffset
  repeat' first
      | with_reducible assumption | with_reducible apply setPreg_inv | intro _
      | fail_if_no_progress with_reducible refine inv_frame ?_ rfl rfl rfl

theorem takeLen_inv {a1 : State} (a2) (ha1 : Inv a1) : Inv (takeLen a1 a2) := by
  unfold takeLen
  repeat' first
      | with_reducible assumption | with_reducible apply lenSettled_inv | intro _
      | fail_if_no_progress with_reducible refine inv_frame ?_ rfl rfl rfl

theorem adoptFrame_inv {a1 : State} (a2) (a3) (ha1 : Inv a1) : Inv (adoptFrame a1 a2 a3) := by
  unfold adoptFrame
  repeat' first
      | with_reducible assumption | extract_lets | intro _ | fail_if_no_progress with_reducible refine inv_frame ?_ rfl rfl rfl
      | dsimp +zetaDelta only

theorem validFrame_inv {a1 : State} (a2) (a3) (ha1 : Inv a1) : Inv (validFrame a1 a2 a3) := by
  unfold validFrame
  repeat' first
      | with_reducible assumption | with_reducible apply adoptFrame_inv | with_reducible apply takeLen_inv
      | with_reducible apply relockOffset_inv | with_reducible apply useOffset_inv | with_reducible apply tideMissed_inv
      | with_reducible apply setMode_inv | with_reducible apply cntPreg_inv | with_reducible apply setPreg_inv | extract_lets | intro _
      | with_reducible apply inv_ite | split | fail_if_no_progress with_reducible refine inv_frame ?_ rfl rfl rfl | dsimp +zetaDelta only

theorem secondSource_inv {a1 : State} (a2) (a3) (ha1 : Inv a1) : Inv (secondSource a1 a2 a3) := by
  unfold secondSource
  repeat' first
      | with_reducible assumption | with_reducible apply raiseErr_inv | with_reducible apply setPreg_inv | intro _

theorem frameOf_inv {a1 : State} (a2) (a3) (ha1 : Inv a1) : Inv (frameOf a1 a2 a3) := by
  unfold frameOf
  repeat' first
      | with_reducible assumption | with_reducible apply validFrame_inv | with_reducible apply tideMissed_inv | extract_lets | intro _
      | with_reducible apply inv_ite | split | dsimp +zetaDelta only

theorem tidePins_inv {a1 : State} (a2) (a3) (ha1 : Inv a1) : Inv (tidePins a1 a2 a3) := by
  unfold tidePins
  repeat' first
      | with_reducible assumption | with_reducible apply frameOf_inv | with_reducible apply secondSource_inv | intro _
      | with_reducible apply inv_ite | split

theorem execTideFrame_inv (a1) (a2) {a3 : State} (ha3 : Inv a3) : NextInv (execTideFrame a1 a2 a3) := by
  unfold execTideFrame
  repeat' first
      | with_reducible assumption | with_reducible apply nextInv_next | with_reducible apply tidePins_inv | intro _

theorem tideOnPort_inv {a1 : State} (a2) (a3) (a4) (ha1 : Inv a1) : Inv (tideOnPort a1 a2 a3 a4) := by
  unfold tideOnPort
  repeat' first
      | with_reducible assumption | with_reducible apply secondSource_inv | with_reducible apply validFrame_inv
      | with_reducible apply tideMissed_inv | extract_lets | intro _ | with_reducible apply inv_ite | split | dsimp +zetaDelta only

theorem execXlTide_inv (a1) (a2) (a3) {a4 : State} (ha4 : Inv a4) : NextInv (execXlTide a1 a2 a3 a4) := by
  unfold execXlTide
  repeat' first
      | with_reducible assumption | with_reducible apply nextInv_next | with_reducible apply tideOnPort_inv | intro _

theorem execTideMiss_inv {a1 : State} (ha1 : Inv a1) : NextInv (execTideMiss a1) := by
  unfold execTideMiss
  repeat' first
      | with_reducible assumption | with_reducible apply nextInv_next | with_reducible apply tideMissed_inv | intro _
      | with_reducible apply inv_ite | split

theorem holdOutcome_inv {a1 : State} (ha1 : Inv a1) : Inv (holdOutcome a1) := by
  unfold holdOutcome
  repeat' first
      | with_reducible assumption | with_reducible apply setMode_inv | with_reducible apply raiseErr_inv | extract_lets | intro _
      | with_reducible apply inv_ite | split | fail_if_no_progress with_reducible refine inv_frame ?_ rfl rfl rfl | dsimp +zetaDelta only

theorem execHoldExpired_inv {a1 : State} (ha1 : Inv a1) : NextInv (execHoldExpired a1) := by
  unfold execHoldExpired
  repeat' first
      | with_reducible assumption | with_reducible apply nextInv_next | with_reducible apply holdOutcome_inv | intro _
      | with_reducible apply inv_ite | split

theorem execRefLoss_inv {a1 : State} (ha1 : Inv a1) : NextInv (execRefLoss a1) := by
  unfold execRefLoss
  repeat' first
      | with_reducible assumption | with_reducible apply nextInv_next | with_reducible apply raiseErr_inv | intro _
      | with_reducible apply inv_ite | split | fail_if_no_progress with_reducible refine inv_frame ?_ rfl rfl rfl

theorem execRefOk_inv {a1 : State} (ha1 : Inv a1) : NextInv (execRefOk a1) := by
  unfold execRefOk
  repeat' first
      | with_reducible assumption | with_reducible apply nextInv_next | intro _
      | fail_if_no_progress with_reducible refine inv_frame ?_ rfl rfl rfl

theorem tideStart_inv {a1 : State} (a2) (ha1 : Inv a1) : Inv (tideStart a1 a2) := by
  unfold tideStart
  repeat' first
      | with_reducible assumption | with_reducible apply setMode_inv | with_reducible apply raiseErr_inv
      | with_reducible apply rejectEnable_inv | extract_lets | intro _ | with_reducible apply inv_ite | split
      | fail_if_no_progress with_reducible refine inv_frame ?_ rfl rfl rfl | dsimp +zetaDelta only

theorem tideStop_inv {a1 : State} (ha1 : Inv a1) : Inv (tideStop a1) := by
  unfold tideStop
  repeat' first
      | with_reducible assumption | with_reducible apply setMode_inv | intro _
      | fail_if_no_progress with_reducible refine inv_frame ?_ rfl rfl rfl

theorem tdCtrlEnable_inv {a1 : State} (a2) (ha1 : Inv a1) : Inv (tdCtrlEnable a1 a2) := by
  unfold tdCtrlEnable
  repeat' first
      | with_reducible assumption | with_reducible apply tideStop_inv | with_reducible apply tideStart_inv
      | with_reducible apply pageWrite_inv | extract_lets | intro _ | with_reducible apply inv_ite | split | dsimp +zetaDelta only

theorem execTdEnable_inv (a1) {a2 : State} (ha2 : Inv a2) : NextInv (execTdEnable a1 a2) := by
  unfold execTdEnable
  repeat' first
      | with_reducible assumption | with_reducible apply nextInv_next | with_reducible apply tdCtrlEnable_inv | intro _

theorem relockAct_inv {a1 : State} (ha1 : Inv a1) : Inv (relockAct a1) := by
  unfold relockAct
  repeat' first
      | with_reducible assumption | with_reducible apply setMode_inv | intro _ | split
      | fail_if_no_progress with_reducible refine inv_frame ?_ rfl rfl rfl

theorem tdCtrlWrite_inv {a1 : State} (a2) (ha1 : Inv a1) : Inv (tdCtrlWrite a1 a2) := by
  unfold tdCtrlWrite
  repeat' first
      | with_reducible assumption | with_reducible apply relockAct_inv | with_reducible apply pageWrite_inv
      | with_reducible apply goDone_inv | extract_lets | intro _ | with_reducible apply inv_ite | split
      | fail_if_no_progress with_reducible refine inv_frame ?_ rfl rfl rfl | dsimp +zetaDelta only

theorem execRelock_inv (a1) {a2 : State} (ha2 : Inv a2) : NextInv (execRelock a1 a2) := by
  unfold execRelock
  repeat' first
      | with_reducible assumption | with_reducible apply nextInv_next | with_reducible apply tdCtrlWrite_inv | intro _

theorem execTdResume_inv (a1) {a2 : State} (ha2 : Inv a2) : NextInv (execTdResume a1 a2) := by
  unfold execTdResume
  repeat' first
      | with_reducible assumption | with_reducible apply nextInv_next | with_reducible apply tdCtrlWrite_inv | intro _

theorem tdLenWrite_inv {a1 : State} (a2) (a3) (ha1 : Inv a1) : Inv (tdLenWrite a1 a2 a3) := by
  unfold tdLenWrite
  repeat' first
      | with_reducible assumption | with_reducible apply pageWrite_inv | with_reducible apply raiseErr_inv | extract_lets | intro _
      | with_reducible apply inv_ite | split | fail_if_no_progress with_reducible refine inv_frame ?_ rfl rfl rfl | dsimp +zetaDelta only

theorem execTdLenNextWrite_inv (a1) (a2) {a3 : State} (ha3 : Inv a3) : NextInv (execTdLenNextWrite a1 a2 a3) := by
  unfold execTdLenNextWrite
  repeat' first
      | with_reducible assumption | with_reducible apply nextInv_next | with_reducible apply tdLenWrite_inv | intro _

theorem tdWinWrite_inv {a1 : State} (a2) (ha1 : Inv a1) : Inv (tdWinWrite a1 a2) := by
  unfold tdWinWrite
  repeat' first
      | with_reducible assumption | with_reducible apply pageWrite_inv | with_reducible apply raiseErr_inv | extract_lets | intro _
      | with_reducible apply inv_ite | split | dsimp +zetaDelta only

theorem execTdWinWrite_inv (a1) {a2 : State} (ha2 : Inv a2) : NextInv (execTdWinWrite a1 a2) := by
  unfold execTdWinWrite
  repeat' first
      | with_reducible assumption | with_reducible apply nextInv_next | with_reducible apply tdWinWrite_inv | intro _

end Sys2Proof.Machine
end

