-- ==== Sys2Proof/Laws/InvControl.lean ====
section
/-! SUPPORT. Every operation of Machine/Control.lean keeps the invariant. -/

set_option Elab.async false

namespace Sys2Proof.Machine

open Sys2Proof

theorem resetPairs_inv {s : State} (p) (h : Inv s) : Inv (resetPairs s p) :=
  ⟨h.regs, filter_wf _ _ _ h.staged, filter_wf _ _ _ h.captured, h.dm, h.poison, h.bar4, h.queue, h.inq, h.report⟩

theorem clearCommon_inv {a1 : State} (a2) (ha1 : Inv a1) : Inv (clearCommon a1 a2) := by
  unfold clearCommon
  repeat' first
      | with_reducible assumption | with_reducible apply updateInta_inv | with_reducible apply setPreg_inv | with_reducible apply foldl_inv
      | with_reducible apply foldl_inv1 | intro _

theorem resetTables_inv {a1 : State} (ha1 : Inv a1) : Inv (resetTables a1) := by
  unfold resetTables
  repeat' first
      | with_reducible assumption | with_reducible apply endTaken_inv | extract_lets | with_reducible apply foldl_inv
      | with_reducible apply foldl_inv1 | intro _ | split | fail_if_no_progress with_reducible refine inv_frame ?_ rfl rfl rfl
      | dsimp +zetaDelta only

theorem endAcquires_inv {a1 : State} (a2) (ha1 : Inv a1) : Inv (endAcquires a1 a2) := by
  unfold endAcquires
  repeat' first
      | with_reducible assumption | with_reducible apply endWait_inv | with_reducible apply foldl_inv | with_reducible apply foldl_inv1
      | intro _ | split

theorem resetMailboxes_inv {a1 : State} (ha1 : Inv a1) : Inv (resetMailboxes a1) := by
  unfold resetMailboxes
  repeat' first
      | with_reducible assumption | intro _ | fail_if_no_progress with_reducible refine inv_frame ?_ rfl rfl rfl

theorem dropMove_inv {a1 : State} (ha1 : Inv a1) : Inv (dropMove a1) := by
  unfold dropMove
  repeat' first
      | with_reducible assumption | with_reducible apply hostMem_inv | extract_lets | with_reducible apply foldl_inv
      | with_reducible apply foldl_inv1 | intro _ | fail_if_no_progress with_reducible refine inv_frame ?_ rfl rfl rfl
      | dsimp +zetaDelta only

theorem resetInside_inv {a1 : State} (a2) (ha1 : Inv a1) : Inv (resetInside a1 a2) := by
  unfold resetInside
  repeat' first
      | with_reducible assumption | with_reducible apply dropMove_inv | with_reducible apply resetMailboxes_inv
      | with_reducible apply endAcquires_inv | with_reducible apply resetTables_inv | with_reducible apply resetMover_inv
      | with_reducible apply resetCore_inv | with_reducible apply State.setCore_inv | with_reducible apply State.setPort_inv
      | with_reducible apply State.setSlice_inv | with_reducible apply State.setCl_inv | extract_lets | with_reducible apply foldl_inv
      | with_reducible apply foldl_inv1 | intro _ | with_reducible apply inv_ite | split
      | fail_if_no_progress with_reducible refine inv_frame ?_ rfl rfl rfl | dsimp +zetaDelta only

theorem softResetEnd_inv {a1 : State} (a2) (ha1 : Inv a1) : Inv (softResetEnd a1 a2) := by
  unfold softResetEnd
  repeat' first
      | with_reducible assumption | with_reducible apply resetInside_inv | with_reducible apply clearCommon_inv
      | with_reducible apply resetPairs_inv | with_reducible apply settle_inv | with_reducible apply resetRegs_inv
      | with_reducible apply goDone_inv | with_reducible apply clrPreg_inv | with_reducible apply orPreg_inv | extract_lets | intro _
      | with_reducible apply inv_ite | split | dsimp +zetaDelta only

theorem clearEnd_inv {a1 : State} (a2) (ha1 : Inv a1) : Inv (clearEnd a1 a2) := by
  unfold clearEnd
  repeat' first
      | with_reducible assumption | with_reducible apply softResetEnd_inv | with_reducible apply finishClear_inv
      | with_reducible apply sliceClear_inv | with_reducible apply clusterClear_inv | extract_lets | intro _ | with_reducible apply inv_ite
      | split | dsimp +zetaDelta only

theorem execInvalidated_inv (a1) {a2 : State} (ha2 : Inv a2) : NextInv (execInvalidated a1 a2) := by
  unfold execInvalidated
  repeat' first
      | with_reducible assumption | with_reducible apply nextInv_next | with_reducible apply clearEnd_inv | with_reducible apply settle_inv
      | intro _

theorem sdEnableAct_inv {a1 : State} (ha1 : Inv a1) : Inv (sdEnableAct a1) := by
  unfold sdEnableAct
  repeat' first
      | with_reducible assumption | with_reducible apply setPreg_inv | intro _
      | fail_if_no_progress with_reducible refine inv_frame ?_ rfl rfl rfl

theorem enableAct_inv {a1 : State} (a2) (a3) (a4) (ha1 : Inv a1) : Inv (enableAct a1 a2 a3 a4) := by
  unfold enableAct
  repeat' first
      | with_reducible assumption | with_reducible apply sdEnableAct_inv | with_reducible apply tideStop_inv
      | with_reducible apply tideStart_inv | with_reducible apply xlEnableAct_inv | with_reducible apply gcEnableAct_inv
      | with_reducible apply lwEnableAct_inv | with_reducible apply cacheEnableAct_inv | intro _ | with_reducible apply inv_ite | split

theorem unfencePage_inv {s : State} (p) (h : Inv s) : Inv (unfencePage s p) := by
  unfold unfencePage
  refine inv_ite (fun _ => h) (fun _ => ?_)
  cases p
  case gc id => exact unfenceCore_inv _ h
  case xl n => exact xlUnfence_inv _ (clrPreg_inv _ _ _ h)
  case ep => exact releaseFreeze_inv h
  all_goals exact clrPreg_inv _ _ _ h

theorem fenceAct_inv {a1 : State} (a2) (a3) (a4) (ha1 : Inv a1) : Inv (fenceAct a1 a2 a3 a4) := by
  unfold fenceAct
  repeat' first
      | with_reducible assumption | with_reducible apply unfencePage_inv | with_reducible apply releaseFreeze_inv
      | with_reducible apply fencePage_inv | intro _ | with_reducible apply inv_ite | split

theorem softResetStart_inv {a1 : State} (a2) (ha1 : Inv a1) : Inv (softResetStart a1 a2) := by
  unfold softResetStart
  repeat' first
      | with_reducible assumption | with_reducible apply enableAct_inv | with_reducible apply softResetEnd_inv
      | with_reducible apply startClear_inv | with_reducible apply clrPreg_inv | intro _ | with_reducible apply inv_ite | split

theorem ctrlWrite_inv {a1 : State} (a2) (a3) (ha1 : Inv a1) : Inv (ctrlWrite a1 a2 a3) := by
  unfold ctrlWrite
  repeat' first
      | with_reducible assumption | with_reducible apply softResetStart_inv | with_reducible apply fenceAct_inv
      | with_reducible apply enableAct_inv | with_reducible apply withAlive_inv | with_reducible apply withReady_inv
      | with_reducible apply pageWrite_inv | with_reducible apply setPreg_inv | extract_lets | intro _ | with_reducible apply inv_ite
      | split | dsimp +zetaDelta only

theorem execGcEnable_inv (a1) (a2) {a3 : State} (ha3 : Inv a3) : NextInv (execGcEnable a1 a2 a3) := by
  unfold execGcEnable
  repeat' first
      | with_reducible assumption | with_reducible apply nextInv_next | with_reducible apply ctrlWrite_inv | intro _

theorem execXlEnable_inv (a1) (a2) {a3 : State} (ha3 : Inv a3) : NextInv (execXlEnable a1 a2 a3) := by
  unfold execXlEnable
  repeat' first
      | with_reducible assumption | with_reducible apply nextInv_next | with_reducible apply ctrlWrite_inv | intro _

theorem execPlEnable_inv (a1) {a2 : State} (ha2 : Inv a2) : NextInv (execPlEnable a1 a2) := by
  unfold execPlEnable
  repeat' first
      | with_reducible assumption | with_reducible apply nextInv_next | with_reducible apply ctrlWrite_inv | intro _

theorem execLwEnable_inv (a1) {a2 : State} (ha2 : Inv a2) : NextInv (execLwEnable a1 a2) := by
  unfold execLwEnable
  repeat' first
      | with_reducible assumption | with_reducible apply nextInv_next | with_reducible apply ctrlWrite_inv | intro _

theorem execCacheEnable_inv (a1) (a2) (a3) {a4 : State} (ha4 : Inv a4) : NextInv (execCacheEnable a1 a2 a3 a4) := by
  unfold execCacheEnable
  repeat' first
      | with_reducible assumption | with_reducible apply nextInv_next | with_reducible apply ctrlWrite_inv
      | with_reducible apply clearEnd_inv | with_reducible apply settle_inv | with_reducible apply ccCtrlWrite_inv | extract_lets | intro _
      | with_reducible apply inv_ite | split | dsimp +zetaDelta only

theorem execCtrlFenceWrite_inv (a1) (a2) {a3 : State} (ha3 : Inv a3) : NextInv (execCtrlFenceWrite a1 a2 a3) := by
  unfold execCtrlFenceWrite
  repeat' first
      | with_reducible assumption | with_reducible apply nextInv_next | with_reducible apply ctrlWrite_inv | intro _

theorem execSoftReset_inv (a1) {a2 : State} (ha2 : Inv a2) : NextInv (execSoftReset a1 a2) := by
  unfold execSoftReset
  repeat' first
      | with_reducible assumption | with_reducible apply nextInv_next | with_reducible apply ctrlWrite_inv | intro _

theorem execPageLock_inv (a1) (a2) {a3 : State} (ha3 : Inv a3) : NextInv (execPageLock a1 a2 a3) := by
  unfold execPageLock
  repeat' first
      | with_reducible assumption | with_reducible apply nextInv_next | with_reducible apply pageWrite_inv | intro _

end Sys2Proof.Machine
end

