-- ==== Sys2Proof/Laws/InvEndpoint.lean ====
section
/-! SUPPORT. Every operation of Machine/Endpoint.lean keeps the invariant. -/

set_option Elab.async false

namespace Sys2Proof.Machine

open Sys2Proof

theorem setLink_inv {a1 : State} (a2) (ha1 : Inv a1) : Inv (setLink a1 a2) := by
  unfold setLink
  repeat' first
      | with_reducible assumption | with_reducible apply withReady_inv | with_reducible apply raiseInt_inv | intro _
      | fail_if_no_progress with_reducible refine inv_frame ?_ rfl rfl rfl

theorem linkResume_inv {a1 : State} (ha1 : Inv a1) : Inv (linkResume a1) := by
  unfold linkResume
  repeat' first
      | with_reducible assumption | with_reducible apply settle_inv | with_reducible apply resumeAccesses_inv
      | with_reducible apply wbCheck_inv | with_reducible apply flushMsix_inv | with_reducible apply drainWrites_inv
      | with_reducible apply foldl_inv | with_reducible apply foldl_inv1 | intro _

theorem linkCome_inv {a1 : State} (a2) (ha1 : Inv a1) : Inv (linkCome a1 a2) := by
  unfold linkCome
  repeat' first
      | with_reducible assumption | with_reducible apply linkResume_inv | with_reducible apply setLink_inv
      | with_reducible apply raiseErr_inv | with_reducible apply when_inv | with_reducible apply setPreg_inv | extract_lets | intro _
      | with_reducible apply inv_ite | split | fail_if_no_progress with_reducible refine inv_frame ?_ rfl rfl rfl | dsimp +zetaDelta only

theorem execLinkUp_inv (a1) {a2 : State} (ha2 : Inv a2) : NextInv (execLinkUp a1 a2) := by
  unfold execLinkUp
  repeat' first
      | with_reducible assumption | with_reducible apply nextInv_next | with_reducible apply linkCome_inv | intro _

theorem execLinkTrainingRetry_inv {a1 : State} (ha1 : Inv a1) : NextInv (execLinkTrainingRetry a1) := by
  unfold execLinkTrainingRetry
  repeat' first
      | with_reducible assumption | with_reducible apply nextInv_next | with_reducible apply raiseErr_inv | with_reducible apply emit_inv
      | intro _ | with_reducible apply inv_ite | split

theorem affectAll_inv {a1 : State} (ha1 : Inv a1) : Inv (affectAll a1) := by
  unfold affectAll
  repeat' first
      | with_reducible assumption | intro _ | fail_if_no_progress with_reducible refine inv_frame ?_ rfl rfl rfl

theorem execLinkReplay_inv {a1 : State} (ha1 : Inv a1) : NextInv (execLinkReplay a1) := by
  unfold execLinkReplay
  repeat' first
      | with_reducible assumption | with_reducible apply nextInv_next | with_reducible apply affectAll_inv
      | with_reducible apply beginEpisode_inv | with_reducible apply raiseErr_inv | with_reducible apply cntPreg_inv | intro _
      | with_reducible apply inv_ite | split | fail_if_no_progress with_reducible refine inv_frame ?_ rfl rfl rfl

theorem execLinkRecovery_inv {a1 : State} (ha1 : Inv a1) : NextInv (execLinkRecovery a1) := by
  unfold execLinkRecovery
  repeat' first
      | with_reducible assumption | with_reducible apply nextInv_next | with_reducible apply affectAll_inv
      | with_reducible apply endEpisode_inv | with_reducible apply beginEpisode_inv | with_reducible apply raiseErr_inv
      | with_reducible apply cntPreg_inv | intro _ | with_reducible apply inv_ite | split
      | fail_if_no_progress with_reducible refine inv_frame ?_ rfl rfl rfl

theorem episodeOver_inv {a1 : State} (a2) (ha1 : Inv a1) : Inv (episodeOver a1 a2) := by
  unfold episodeOver
  repeat' first
      | with_reducible assumption | with_reducible apply linkResume_inv | with_reducible apply endEpisode_inv
      | with_reducible apply withReady_inv | intro _ | with_reducible apply inv_ite | split
      | fail_if_no_progress with_reducible refine inv_frame ?_ rfl rfl rfl

theorem execReplayEpisodeEnd_inv (a1) {a2 : State} (ha2 : Inv a2) : NextInv (execReplayEpisodeEnd a1 a2) := by
  unfold execReplayEpisodeEnd
  repeat' first
      | with_reducible assumption | with_reducible apply nextInv_next | with_reducible apply episodeOver_inv | intro _

theorem afterWrite_inv {a1 : State} (ha1 : Inv a1) : Inv (afterWrite a1) := by
  unfold afterWrite
  repeat' first
      | with_reducible assumption | with_reducible apply settle_inv | with_reducible apply wbCheck_inv | with_reducible apply flushMsix_inv
      | with_reducible apply drainWrites_inv | intro _

theorem responseLost_inv {a1 : State} (a2) (ha1 : Inv a1) : Inv (responseLost a1 a2) := by
  unfold responseLost
  repeat' first
      | with_reducible assumption | with_reducible apply raiseErr_inv | intro _ | split

theorem dropD2h_inv {a1 : State} (a2) (ha1 : Inv a1) : Inv (dropD2h a1 a2) := by
  unfold dropD2h
  repeat' first
      | with_reducible assumption | intro _ | fail_if_no_progress with_reducible refine inv_frame ?_ rfl rfl rfl

theorem mergeWrite_inv {a1 : State} (a2) (a3) (ha1 : Inv a1) : Inv (mergeWrite a1 a2 a3) := by
  unfold mergeWrite
  repeat' first
      | with_reducible assumption | with_reducible apply mergeOwned_inv | extract_lets | intro _ | with_reducible apply inv_ite | split
      | dsimp +zetaDelta only

theorem hostAnswers_inv {a1 : State} (a2) (a3) (ha1 : Inv a1) : Inv (hostAnswers a1 a2 a3) := by
  unfold hostAnswers
  repeat' first
      | with_reducible assumption | with_reducible apply mergeWrite_inv | with_reducible apply dropD2h_inv
      | with_reducible apply responseLost_inv | with_reducible apply afterWrite_inv | with_reducible apply accessDone_inv | extract_lets
      | intro _ | with_reducible apply inv_ite | split | dsimp +zetaDelta only

theorem execCxlCacheResponse_inv (a1) (a2) {a3 : State} (ha3 : Inv a3) : NextInv (execCxlCacheResponse a1 a2 a3) := by
  unfold execCxlCacheResponse
  repeat' first
      | with_reducible assumption | with_reducible apply nextInv_next | with_reducible apply hostAnswers_inv | intro _

theorem requestFails_inv {a1 : State} (a2) (a3) (ha1 : Inv a1) : Inv (requestFails a1 a2 a3) := by
  unfold requestFails
  repeat' first
      | with_reducible assumption | with_reducible apply dropD2h_inv | with_reducible apply responseLost_inv
      | with_reducible apply accessError_inv | with_reducible apply raiseErrX_inv | intro _ | split

theorem execCompletionTimeout_inv (a1) {a2 : State} (ha2 : Inv a2) : NextInv (execCompletionTimeout a1 a2) := by
  unfold execCompletionTimeout
  repeat' first
      | with_reducible assumption | with_reducible apply nextInv_next | with_reducible apply requestFails_inv
      | with_reducible apply afterWrite_inv | with_reducible apply cntPreg_inv | intro _ | with_reducible apply inv_ite | split

theorem failAll_inv {a1 : State} (ha1 : Inv a1) : Inv (failAll a1) := by
  unfold failAll
  repeat' first
      | with_reducible assumption | with_reducible apply discardWrite_inv | with_reducible apply accessError_inv
      | with_reducible apply raiseErrX_inv | extract_lets | with_reducible apply foldl_inv | with_reducible apply foldl_inv1 | intro _
      | split | fail_if_no_progress with_reducible refine inv_frame ?_ rfl rfl rfl | dsimp +zetaDelta only

theorem linkLost_inv {a1 : State} (ha1 : Inv a1) : Inv (linkLost a1) := by
  unfold linkLost
  repeat' first
      | with_reducible assumption | with_reducible apply failAll_inv | with_reducible apply setLink_inv
      | with_reducible apply enterFreeze_inv | with_reducible apply endEpisode_inv | with_reducible apply raiseErr_inv
      | with_reducible apply setPreg_inv | extract_lets | intro _ | with_reducible apply inv_ite | split
      | fail_if_no_progress with_reducible refine inv_frame ?_ rfl rfl rfl | dsimp +zetaDelta only

theorem execLinkDown_inv {a1 : State} (ha1 : Inv a1) : NextInv (execLinkDown a1) := by
  unfold execLinkDown
  repeat' first
      | with_reducible assumption | with_reducible apply nextInv_next | with_reducible apply linkLost_inv | intro _

theorem execL1Entry_inv (a1) {a2 : State} (ha2 : Inv a2) : NextInv (execL1Entry a1 a2) := by
  unfold execL1Entry
  repeat' first
      | with_reducible assumption | with_reducible apply nextInv_next | with_reducible apply setLink_inv | with_reducible apply emit_inv
      | with_reducible apply cntPreg_inv | intro _ | with_reducible apply inv_ite | split

theorem execL1Exit_inv {a1 : State} (ha1 : Inv a1) : NextInv (execL1Exit a1) := by
  unfold execL1Exit
  repeat' first
      | with_reducible assumption | with_reducible apply nextInv_next | with_reducible apply setLink_inv | with_reducible apply emit_inv
      | intro _ | with_reducible apply inv_ite | split

theorem setX8_inv {a1 : State} (a2) (ha1 : Inv a1) : Inv (setX8 a1 a2) := by
  unfold setX8
  repeat' first
      | with_reducible assumption | with_reducible apply raiseInt_inv | with_reducible apply when_inv | with_reducible apply cntPreg_inv
      | with_reducible apply setPreg_inv | intro _ | with_reducible apply inv_ite | split

theorem execL0pNarrow_inv {a1 : State} (ha1 : Inv a1) : NextInv (execL0pNarrow a1) := by
  unfold execL0pNarrow
  repeat' first
      | with_reducible assumption | with_reducible apply nextInv_next | with_reducible apply setX8_inv | with_reducible apply emit_inv
      | intro _ | with_reducible apply inv_ite | split

theorem execL0pWiden_inv {a1 : State} (ha1 : Inv a1) : NextInv (execL0pWiden a1) := by
  unfold execL0pWiden
  repeat' first
      | with_reducible assumption | with_reducible apply nextInv_next | with_reducible apply setX8_inv | with_reducible apply emit_inv
      | intro _ | with_reducible apply inv_ite | split

theorem execPartnerL0pRequest_inv (a1) {a2 : State} (ha2 : Inv a2) : NextInv (execPartnerL0pRequest a1 a2) := by
  unfold execPartnerL0pRequest
  repeat' first
      | with_reducible assumption | with_reducible apply nextInv_next | with_reducible apply setX8_inv | with_reducible apply emit_inv
      | intro _ | with_reducible apply inv_ite | split

theorem answerUr_inv {a1 : State} (a2) (a3) (a4) (ha1 : Inv a1) : Inv (answerUr a1 a2 a3 a4) := by
  unfold answerUr
  repeat' first
      | with_reducible assumption | with_reducible apply raiseErr_inv | with_reducible apply emit_inv | with_reducible apply cntPreg_inv
      | with_reducible apply setPreg_inv | extract_lets | intro _ | with_reducible apply inv_ite | split
      | fail_if_no_progress with_reducible refine inv_frame ?_ rfl rfl rfl | dsimp +zetaDelta only

theorem execUnsupportedRequest_inv (a1) (a2) (a3) {a4 : State} (ha4 : Inv a4) : NextInv (execUnsupportedRequest a1 a2 a3 a4) := by
  unfold execUnsupportedRequest
  repeat' first
      | with_reducible assumption | with_reducible apply nextInv_next | with_reducible apply answerUr_inv | intro _
      | with_reducible apply inv_ite | split

theorem bar2Write_inv {a1 : State} (a2) (a3) (a4) (a5) (ha1 : Inv a1) : Inv (bar2Write a1 a2 a3 a4 a5) := by
  unfold bar2Write
  repeat' first
      | with_reducible assumption | with_reducible apply answerUr_inv | with_reducible apply pumpInbound_inv | extract_lets | intro _
      | with_reducible apply inv_ite | split | fail_if_no_progress with_reducible refine inv_frame ?_ rfl rfl rfl | dsimp +zetaDelta only

theorem execBar2Write_inv (a1) (a2) (a3) (a4) {a5 : State} (ha5 : Inv a5) : NextInv (execBar2Write a1 a2 a3 a4 a5) := by
  unfold execBar2Write
  repeat' first
      | with_reducible assumption | with_reducible apply nextInv_next | with_reducible apply bar2Write_inv | intro _

theorem flushPba_inv {a1 : State} (a2) (ha1 : Inv a1) : Inv (flushPba a1 a2) := by
  unfold flushPba
  repeat' first
      | with_reducible assumption | with_reducible apply sendMsix_inv | with_reducible apply clrPreg_inv | intro _
      | with_reducible apply inv_ite | split

theorem vectorCtrlWrite_inv {a1 : State} (a2) (a3) (ha1 : Inv a1) : Inv (vectorCtrlWrite a1 a2 a3) := by
  unfold vectorCtrlWrite
  repeat' first
      | with_reducible assumption | with_reducible apply flushPba_inv | with_reducible apply pageWrite_inv | intro _

theorem execMsixUnmask_inv (a1) (a2) {a3 : State} (ha3 : Inv a3) : NextInv (execMsixUnmask a1 a2 a3) := by
  unfold execMsixUnmask
  repeat' first
      | with_reducible assumption | with_reducible apply nextInv_next | with_reducible apply vectorCtrlWrite_inv | intro _

theorem flushAll_inv {a1 : State} (ha1 : Inv a1) : Inv (flushAll a1) := by
  unfold flushAll
  repeat' first
      | with_reducible assumption | with_reducible apply flushPba_inv | with_reducible apply flushMsix_inv
      | with_reducible apply updateInta_inv | with_reducible apply foldl_inv | with_reducible apply foldl_inv1 | intro _

theorem cfgGate_inv {a1 : State} {a2 : State → State} (ha2 : ∀ u, Inv u → Inv (a2 u)) (ha1 : Inv a1) : Inv (cfgGate a1 a2) := by
  unfold cfgGate
  repeat' first
      | with_reducible assumption | with_reducible apply ha2 | with_reducible apply emit_inv | intro _ | with_reducible apply inv_ite
      | split

theorem setBar_inv {a1 : State} (a2) (a3) (ha1 : Inv a1) : Inv (setBar a1 a2 a3) := by
  unfold setBar
  repeat' first
      | with_reducible assumption | intro _ | fail_if_no_progress with_reducible refine inv_frame ?_ rfl rfl rfl

theorem cfgWrite_inv {a1 : State} (a2) (a3) (ha1 : Inv a1) : Inv (cfgWrite a1 a2 a3) := by
  unfold cfgWrite
  repeat' first
      | with_reducible assumption | with_reducible apply setBar_inv | with_reducible apply flushAll_inv | with_reducible apply withReady_inv
      | with_reducible apply updateInta_inv | extract_lets | intro _ | split
      | fail_if_no_progress with_reducible refine inv_frame ?_ rfl rfl rfl | dsimp +zetaDelta only

theorem powerStateWrite_inv {a1 : State} (a2) (ha1 : Inv a1) : Inv (powerStateWrite a1 a2) := by
  unfold powerStateWrite
  repeat' first
      | with_reducible assumption | with_reducible apply flushAll_inv | with_reducible apply raiseErr_inv
      | with_reducible apply updateInta_inv | extract_lets | intro _ | with_reducible apply inv_ite | split
      | fail_if_no_progress with_reducible refine inv_frame ?_ rfl rfl rfl | dsimp +zetaDelta only

theorem execPowerStateWrite_inv (a1) {a2 : State} (ha2 : Inv a2) : NextInv (execPowerStateWrite a1 a2) := by
  unfold execPowerStateWrite
  repeat' first
      | with_reducible assumption | with_reducible apply nextInv_next | with_reducible apply powerStateWrite_inv
      | with_reducible apply cfgGate_inv | intro _

theorem ctoChange_inv {a1 : State} (a2) (ha1 : Inv a1) : Inv (ctoChange a1 a2) := by
  unfold ctoChange
  repeat' first
      | with_reducible assumption | with_reducible apply raiseErr_inv | intro _ | with_reducible apply inv_ite | split
      | fail_if_no_progress with_reducible refine inv_frame ?_ rfl rfl rfl

theorem budgetWrite_inv {a1 : State} (a2) (ha1 : Inv a1) : Inv (budgetWrite a1 a2) := by
  unfold budgetWrite
  repeat' first
      | with_reducible assumption | with_reducible apply pageWrite_inv | with_reducible apply raiseErr_inv | extract_lets | intro _
      | with_reducible apply inv_ite | split | dsimp +zetaDelta only

theorem ctoWrite_inv {a1 : State} (a2) (ha1 : Inv a1) : Inv (ctoWrite a1 a2) := by
  unfold ctoWrite
  repeat' first
      | with_reducible assumption | with_reducible apply budgetWrite_inv | with_reducible apply ctoChange_inv
      | with_reducible apply cfgGate_inv | intro _ | with_reducible apply inv_ite | split

theorem execCompletionTimeoutWrite_inv (a1) {a2 : State} (ha2 : Inv a2) : NextInv (execCompletionTimeoutWrite a1 a2) := by
  unfold execCompletionTimeoutWrite
  repeat' first
      | with_reducible assumption | with_reducible apply nextInv_next | with_reducible apply ctoWrite_inv | intro _

theorem doeRequest_inv {a1 : State} (a2) (a3) (a4) (ha1 : Inv a1) : Inv (doeRequest a1 a2 a3 a4) := by
  unfold doeRequest
  repeat' first
      | with_reducible assumption | with_reducible apply emit_inv | intro _ | with_reducible apply inv_ite | split

theorem execDoeRequest_inv (a1) (a2) (a3) {a4 : State} (ha4 : Inv a4) : NextInv (execDoeRequest a1 a2 a3 a4) := by
  unfold execDoeRequest
  repeat' first
      | with_reducible assumption | with_reducible apply nextInv_next | with_reducible apply doeRequest_inv
      | with_reducible apply cfgGate_inv | intro _

theorem commitHdm_inv {a1 : State} (ha1 : Inv a1) : Inv (commitHdm a1) := by
  unfold commitHdm
  repeat' first
      | with_reducible assumption | with_reducible apply raiseErr_inv | with_reducible apply clrPreg_inv | with_reducible apply orPreg_inv
      | intro _ | with_reducible apply inv_ite | split

theorem uncommitHdm_inv {a1 : State} (ha1 : Inv a1) : Inv (uncommitHdm a1) := by
  unfold uncommitHdm
  repeat' first
      | with_reducible assumption | with_reducible apply uncommitCheck_inv | intro _
      | fail_if_no_progress with_reducible refine inv_frame ?_ rfl rfl rfl

theorem hdmCtrlWrite_inv {a1 : State} (a2) (ha1 : Inv a1) : Inv (hdmCtrlWrite a1 a2) := by
  unfold hdmCtrlWrite
  repeat' first
      | with_reducible assumption | with_reducible apply uncommitHdm_inv | with_reducible apply commitHdm_inv
      | with_reducible apply pageWrite_inv | with_reducible apply goDone_inv | extract_lets | intro _ | with_reducible apply inv_ite | split
      | dsimp +zetaDelta only

theorem execCommit_inv (a1) {a2 : State} (ha2 : Inv a2) : NextInv (execCommit a1 a2) := by
  unfold execCommit
  repeat' first
      | with_reducible assumption | with_reducible apply nextInv_next | with_reducible apply hdmCtrlWrite_inv | intro _

theorem execUncommit_inv (a1) {a2 : State} (ha2 : Inv a2) : NextInv (execUncommit a1 a2) := by
  unfold execUncommit
  repeat' first
      | with_reducible assumption | with_reducible apply nextInv_next | with_reducible apply hdmCtrlWrite_inv | intro _

end Sys2Proof.Machine
end

