-- ==== Sys2Proof/Laws/InvGangplank.lean ====
section
/-! SUPPORT. Every operation of Machine/Gangplank.lean keeps the invariant. -/

set_option Elab.async false

namespace Sys2Proof.Machine

open Sys2Proof

theorem setPregs_inv {s : State} (p o v n) (h : Inv s) : Inv (setPregs s p o v n) := by
  induction n generalizing s o v with
  | zero => exact h
  | succ n ih => exact ih _ _ (setPreg_inv _ _ _ h)

theorem offerGp_inv {a1 : State} (a2) (a3) (a4) (a5) (ha1 : Inv a1) : Inv (offerGp a1 a2 a3 a4 a5) := by
  unfold offerGp
  repeat' first
      | with_reducible assumption | with_reducible apply offer_inv | intro _

theorem attemptFails_inv {a1 : State} (ha1 : Inv a1) : Inv (attemptFails a1) := by
  unfold attemptFails
  repeat' first
      | with_reducible assumption | with_reducible apply raiseErr_inv | extract_lets | intro _ | with_reducible apply inv_ite | split
      | fail_if_no_progress with_reducible refine inv_frame ?_ rfl rfl rfl | dsimp +zetaDelta only

theorem attemptOpens_inv {a1 : State} (a2) (ha1 : Inv a1) : Inv (attemptOpens a1 a2) := by
  unfold attemptOpens
  repeat' first
      | with_reducible assumption | intro _ | with_reducible apply inv_ite | split
      | fail_if_no_progress with_reducible refine inv_frame ?_ rfl rfl rfl

theorem submitAct_inv {a1 : State} (a2) (ha1 : Inv a1) : Inv (submitAct a1 a2) := by
  unfold submitAct
  repeat' first
      | with_reducible assumption | with_reducible apply attemptOpens_inv | with_reducible apply attemptFails_inv
      | with_reducible apply offerGp_inv | with_reducible apply setPregs_inv | with_reducible apply goDone_inv
      | with_reducible apply cntPreg_inv | extract_lets | intro _ | with_reducible apply inv_ite | split
      | fail_if_no_progress with_reducible refine inv_frame ?_ rfl rfl rfl | dsimp +zetaDelta only

theorem challengeAct_inv {a1 : State} (ha1 : Inv a1) : Inv (challengeAct a1) := by
  unfold challengeAct
  repeat' first
      | with_reducible assumption | with_reducible apply setPregs_inv | with_reducible apply goDone_inv | extract_lets | intro _
      | fail_if_no_progress with_reducible refine inv_frame ?_ rfl rfl rfl | dsimp +zetaDelta only

theorem closeAct_inv {a1 : State} (a2) (ha1 : Inv a1) : Inv (closeAct a1 a2) := by
  unfold closeAct
  repeat' first
      | with_reducible assumption | with_reducible apply offerGp_inv | with_reducible apply goDone_inv | extract_lets | intro _
      | with_reducible apply inv_ite | split | fail_if_no_progress with_reducible refine inv_frame ?_ rfl rfl rfl | dsimp +zetaDelta only

theorem gpCtrlWrite_inv {a1 : State} (a2) (a3) (ha1 : Inv a1) : Inv (gpCtrlWrite a1 a2 a3) := by
  unfold gpCtrlWrite
  repeat' first
      | with_reducible assumption | with_reducible apply closeAct_inv | with_reducible apply challengeAct_inv
      | with_reducible apply submitAct_inv | with_reducible apply pageWrite_inv | extract_lets | intro _ | with_reducible apply inv_ite
      | split | dsimp +zetaDelta only

theorem loadIr_inv {a1 : State} (a2) (ha1 : Inv a1) : Inv (loadIr a1 a2) := by
  unfold loadIr
  repeat' first
      | with_reducible assumption | intro _ | fail_if_no_progress with_reducible refine inv_frame ?_ rfl rfl rfl

theorem gpPath_inv {a1 : State} (a2) (a3) (ha1 : Inv a1) : Inv (gpPath a1 a2 a3) := by
  unfold gpPath
  repeat' first
      | with_reducible assumption | with_reducible apply loadIr_inv | with_reducible apply gpCtrlWrite_inv | intro _
      | with_reducible apply inv_ite | split

theorem execChallenge_inv (a1) (a2) {a3 : State} (ha3 : Inv a3) : NextInv (execChallenge a1 a2 a3) := by
  unfold execChallenge
  repeat' first
      | with_reducible assumption | with_reducible apply nextInv_next | with_reducible apply gpPath_inv | intro _

theorem execSubmit_inv (a1) (a2) {a3 : State} (ha3 : Inv a3) : NextInv (execSubmit a1 a2 a3) := by
  unfold execSubmit
  repeat' first
      | with_reducible assumption | with_reducible apply nextInv_next | with_reducible apply gpPath_inv | intro _

theorem execClose_inv (a1) (a2) {a3 : State} (ha3 : Inv a3) : NextInv (execClose a1 a2 a3) := by
  unfold execClose
  repeat' first
      | with_reducible assumption | with_reducible apply nextInv_next | with_reducible apply gpPath_inv | intro _

theorem execNonceExpiry_inv {a1 : State} (ha1 : Inv a1) : NextInv (execNonceExpiry a1) := by
  unfold execNonceExpiry
  repeat' first
      | with_reducible assumption | with_reducible apply nextInv_next | intro _
      | fail_if_no_progress with_reducible refine inv_frame ?_ rfl rfl rfl

theorem jtagOnly_inv {a1 : State} (a2) (ha1 : Inv a1) : Inv (jtagOnly a1 a2) := by
  unfold jtagOnly
  repeat' first
      | with_reducible assumption | with_reducible apply loadIr_inv | intro _ | with_reducible apply inv_ite | split

theorem execExtest_inv {a1 : State} (ha1 : Inv a1) : NextInv (execExtest a1) := by
  unfold execExtest
  repeat' first
      | with_reducible assumption | with_reducible apply nextInv_next | with_reducible apply jtagOnly_inv | intro _

theorem execSamplePreload_inv {a1 : State} (ha1 : Inv a1) : NextInv (execSamplePreload a1) := by
  unfold execSamplePreload
  repeat' first
      | with_reducible assumption | with_reducible apply nextInv_next | with_reducible apply jtagOnly_inv | intro _

theorem execIdcode_inv {a1 : State} (ha1 : Inv a1) : NextInv (execIdcode a1) := by
  unfold execIdcode
  repeat' first
      | with_reducible assumption | with_reducible apply nextInv_next | with_reducible apply loadIr_inv | with_reducible apply emit_inv
      | intro _ | with_reducible apply inv_ite | split

theorem execBypass_inv (a1) {a2 : State} (ha2 : Inv a2) : NextInv (execBypass a1 a2) := by
  unfold execBypass
  repeat' first
      | with_reducible assumption | with_reducible apply nextInv_next | with_reducible apply jtagOnly_inv | intro _
      | with_reducible apply inv_ite | split

theorem trstLevel_inv {a1 : State} (a2) (ha1 : Inv a1) : Inv (trstLevel a1 a2) := by
  unfold trstLevel
  repeat' first
      | with_reducible assumption | extract_lets | intro _ | with_reducible apply inv_ite | split
      | fail_if_no_progress with_reducible refine inv_frame ?_ rfl rfl rfl | dsimp +zetaDelta only

theorem execTrstN_inv (a1) {a2 : State} (ha2 : Inv a2) : NextInv (execTrstN a1 a2) := by
  unfold execTrstN
  repeat' first
      | with_reducible assumption | with_reducible apply nextInv_next | with_reducible apply trstLevel_inv | intro _

theorem stray_inv {a1 : State} (a2) (a3) (ha1 : Inv a1) : Inv (stray a1 a2 a3) := by
  unfold stray
  repeat' first
      | with_reducible assumption | with_reducible apply cntPreg_inv | with_reducible apply setPreg_inv | intro _

theorem debugRead_inv {a1 : State} (a2) (ha1 : Inv a1) : Inv (debugRead a1 a2) := by
  unfold debugRead
  repeat' first
      | with_reducible assumption | with_reducible apply emit_inv | intro _
      | fail_if_no_progress with_reducible refine inv_frame ?_ rfl rfl rfl

theorem debugWrite_inv {a1 : State} (a2) (a3) (ha1 : Inv a1) : Inv (debugWrite a1 a2 a3) := by
  unfold debugWrite
  repeat' first
      | with_reducible assumption | intro _ | fail_if_no_progress with_reducible refine inv_frame ?_ rfl rfl rfl

theorem execDbg_inv (a1) (a2) {a3 : State} (ha3 : Inv a3) : NextInv (execDbg a1 a2 a3) := by
  unfold execDbg
  repeat' first
      | with_reducible assumption | with_reducible apply nextInv_next | with_reducible apply debugWrite_inv
      | with_reducible apply debugRead_inv | with_reducible apply loadIr_inv | intro _ | with_reducible apply inv_ite | split

theorem execDebugWindowAccess_inv (a1) (a2) {a3 : State} (ha3 : Inv a3) : NextInv (execDebugWindowAccess a1 a2 a3) := by
  unfold execDebugWindowAccess
  repeat' first
      | with_reducible assumption | with_reducible apply nextInv_next | with_reducible apply debugWrite_inv
      | with_reducible apply debugRead_inv | with_reducible apply stray_inv | with_reducible apply emit_inv | intro _
      | with_reducible apply inv_ite | split

end Sys2Proof.Machine
end

