-- ==== Sys2Proof/Laws/InvLogbook.lean ====
section
/-! SUPPORT. Every operation of Machine/Logbook.lean keeps the invariant. -/

set_option Elab.async false

namespace Sys2Proof.Machine

open Sys2Proof

theorem loseEntry_inv {a1 : State} (ha1 : Inv a1) : Inv (loseEntry a1) := by
  unfold loseEntry
  repeat' first
      | with_reducible assumption | with_reducible apply cntPreg_inv | intro _
      | fail_if_no_progress with_reducible refine inv_frame ?_ rfl rfl rfl

theorem ringPut_inv {a1 : State} (a2) (ha1 : Inv a1) : Inv (ringPut a1 a2) := by
  unfold ringPut
  repeat' first
      | with_reducible assumption | with_reducible apply cntPreg_inv | extract_lets | intro _
      | fail_if_no_progress with_reducible refine inv_frame ?_ rfl rfl rfl | dsimp +zetaDelta only

theorem ringWrite_inv {a1 : State} (a2) (ha1 : Inv a1) : Inv (ringWrite a1 a2) := by
  unfold ringWrite
  repeat' first
      | with_reducible assumption | with_reducible apply ringPut_inv | with_reducible apply loseEntry_inv | intro _
      | with_reducible apply inv_ite | split

theorem droppedFirst_inv {a1 : State} (ha1 : Inv a1) : Inv (droppedFirst a1) := by
  unfold droppedFirst
  repeat' first
      | with_reducible assumption | with_reducible apply ringPut_inv | intro _ | with_reducible apply inv_ite | split
      | fail_if_no_progress with_reducible refine inv_frame ?_ rfl rfl rfl

theorem writeOne_inv {s : State} (h : Inv s) : Inv (writeOne s) := by
  unfold writeOne
  split
  · exact h
  · next e rest he =>
    refine ringWrite_inv _ (droppedFirst_inv ?_)
    refine ⟨h.regs, h.staged, h.captured, h.dm, h.poison, h.bar4, h.queue, ?_, h.report⟩
    have := h.inq
    rw [he, List.length_cons] at this
    show rest.length ≤ 256
    omega

theorem writeAll_inv {a1 : State} (ha1 : Inv a1) : Inv (writeAll a1) := by
  unfold writeAll
  repeat' first
      | with_reducible assumption | with_reducible apply writeOne_inv | with_reducible apply foldl_inv | with_reducible apply foldl_inv1
      | intro _

theorem execLogbookEntry_inv {a1 : State} (ha1 : Inv a1) : NextInv (execLogbookEntry a1) := by
  unfold execLogbookEntry
  repeat' first
      | with_reducible assumption | with_reducible apply nextInv_next | with_reducible apply writeOne_inv | intro _

theorem setSlot_inv {a1 : State} (a2) (a3) (ha1 : Inv a1) : Inv (setSlot a1 a2 a3) := by
  unfold setSlot
  repeat' first
      | with_reducible assumption | intro _ | fail_if_no_progress with_reducible refine inv_frame ?_ rfl rfl rfl

theorem eraseNext_inv {a1 : State} (ha1 : Inv a1) : Inv (eraseNext a1) := by
  unfold eraseNext
  repeat' first
      | with_reducible assumption | with_reducible apply emit_inv | intro _ | split

theorem offerSnap_inv {a1 : State} (a2) (a3) (a4) (a5) (ha1 : Inv a1) : Inv (offerSnap a1 a2 a3 a4 a5) := by
  unfold offerSnap
  repeat' first
      | with_reducible assumption | with_reducible apply offer_inv | intro _

theorem snapGoDone_inv {a1 : State} (a2) (ha1 : Inv a1) : Inv (snapGoDone a1 a2) := by
  unfold snapGoDone
  repeat' first
      | with_reducible assumption | with_reducible apply goDone_inv | intro _ | with_reducible apply inv_ite | split

theorem beginSnap_inv {a1 : State} (a2) (a3) (a4) (ha1 : Inv a1) : Inv (beginSnap a1 a2 a3 a4) := by
  unfold beginSnap
  repeat' first
      | with_reducible assumption | with_reducible apply snapGoDone_inv | with_reducible apply offerSnap_inv
      | with_reducible apply setSlot_inv | with_reducible apply writeAll_inv | with_reducible apply raiseErr_inv
      | with_reducible apply emit_inv | extract_lets | intro _ | split | fail_if_no_progress with_reducible refine inv_frame ?_ rfl rfl rfl
      | dsimp +zetaDelta only

theorem nextSnap_inv {a1 : State} (ha1 : Inv a1) : Inv (nextSnap a1) := by
  unfold nextSnap
  repeat' first
      | with_reducible assumption | with_reducible apply beginSnap_inv | with_reducible apply eraseNext_inv | extract_lets | intro _
      | with_reducible apply inv_ite | split | fail_if_no_progress with_reducible refine inv_frame ?_ rfl rfl rfl | dsimp +zetaDelta only

theorem fatalSnap_inv {a1 : State} (ha1 : Inv a1) : Inv (fatalSnap a1) := by
  unfold fatalSnap
  repeat' first
      | with_reducible assumption | with_reducible apply beginSnap_inv | intro _ | with_reducible apply inv_ite | split
      | fail_if_no_progress with_reducible refine inv_frame ?_ rfl rfl rfl

theorem abandonSnap_inv {a1 : State} (ha1 : Inv a1) : Inv (abandonSnap a1) := by
  unfold abandonSnap
  repeat' first
      | with_reducible assumption | with_reducible apply snapGoDone_inv | with_reducible apply offerSnap_inv | intro _ | split
      | fail_if_no_progress with_reducible refine inv_frame ?_ rfl rfl rfl

theorem powerFailSnap_inv {a1 : State} (ha1 : Inv a1) : Inv (powerFailSnap a1) := by
  unfold powerFailSnap
  repeat' first
      | with_reducible assumption | with_reducible apply abandonSnap_inv | with_reducible apply beginSnap_inv
      | with_reducible apply eraseNext_inv | intro _ | with_reducible apply inv_ite | split

theorem hostSnap_inv {a1 : State} (ha1 : Inv a1) : Inv (hostSnap a1) := by
  unfold hostSnap
  repeat' first
      | with_reducible assumption | with_reducible apply beginSnap_inv | with_reducible apply goDone_inv | intro _
      | with_reducible apply inv_ite | split | fail_if_no_progress with_reducible refine inv_frame ?_ rfl rfl rfl

theorem commitSnap_inv {a1 : State} (a2) (ha1 : Inv a1) : Inv (commitSnap a1 a2) := by
  unfold commitSnap
  repeat' first
      | with_reducible assumption | with_reducible apply nextSnap_inv | with_reducible apply snapGoDone_inv
      | with_reducible apply offerSnap_inv | with_reducible apply cntPreg_inv | with_reducible apply setPreg_inv | extract_lets | intro _
      | fail_if_no_progress with_reducible refine inv_frame ?_ rfl rfl rfl | dsimp +zetaDelta only

theorem flashDone_inv {a1 : State} (a2) (a3) (ha1 : Inv a1) : Inv (flashDone a1 a2 a3) := by
  unfold flashDone
  repeat' first
      | with_reducible assumption | with_reducible apply commitSnap_inv | with_reducible apply eraseNext_inv
      | with_reducible apply setSlot_inv | with_reducible apply raiseErr_inv | with_reducible apply when_inv | with_reducible apply emit_inv
      | with_reducible apply setPreg_inv | extract_lets | intro _ | with_reducible apply inv_ite | split
      | fail_if_no_progress with_reducible refine inv_frame ?_ rfl rfl rfl | dsimp +zetaDelta only

theorem execFlashOperationComplete_inv (a1) (a2) {a3 : State} (ha3 : Inv a3) : NextInv (execFlashOperationComplete a1 a2 a3) := by
  unfold execFlashOperationComplete
  repeat' first
      | with_reducible assumption | with_reducible apply nextInv_next | with_reducible apply flashDone_inv | intro _

theorem execFlashErr_inv {a1 : State} (ha1 : Inv a1) : NextInv (execFlashErr a1) := by
  unfold execFlashErr
  repeat' first
      | with_reducible assumption | with_reducible apply nextInv_next | with_reducible apply abandonSnap_inv
      | with_reducible apply nextSnap_inv | with_reducible apply raiseErr_inv | intro _

theorem execPowerFailFollowup_inv {a1 : State} (ha1 : Inv a1) : NextInv (execPowerFailFollowup a1) := by
  unfold execPowerFailFollowup
  repeat' first
      | with_reducible assumption | with_reducible apply nextInv_next | with_reducible apply beginSnap_inv | extract_lets | intro _
      | with_reducible apply inv_ite | split | fail_if_no_progress with_reducible refine inv_frame ?_ rfl rfl rfl | dsimp +zetaDelta only

theorem loadWords_inv {s : State} (p o bs) (h : Inv s) : Inv (loadWords s p o bs) := by
  induction s, o, bs using loadWords.induct (p := p) with
  | case1 s o a b c d rest ih => exact ih (setPreg_inv _ _ _ h)
  | case2 s o bs hb =>
    unfold loadWords
    split
    · next a b c d rest => exact absurd rfl (hb a b c d rest)
    · exact h

theorem rdLoad_inv {a1 : State} (ha1 : Inv a1) : Inv (rdLoad a1) := by
  unfold rdLoad
  repeat' first
      | with_reducible assumption | with_reducible apply loadWords_inv | with_reducible apply goDone_inv | intro _

theorem noteAct_inv {a1 : State} (ha1 : Inv a1) : Inv (noteAct a1) := by
  unfold noteAct
  repeat' first
      | with_reducible assumption | with_reducible apply offer_inv | with_reducible apply goDone_inv | intro _

theorem lbCtrlWrite_inv {a1 : State} (a2) (ha1 : Inv a1) : Inv (lbCtrlWrite a1 a2) := by
  unfold lbCtrlWrite
  repeat' first
      | with_reducible assumption | with_reducible apply noteAct_inv | with_reducible apply rdLoad_inv | with_reducible apply hostSnap_inv
      | with_reducible apply pageWrite_inv | extract_lets | intro _ | with_reducible apply inv_ite | split | dsimp +zetaDelta only

theorem execLbSnap_inv (a1) {a2 : State} (ha2 : Inv a2) : NextInv (execLbSnap a1 a2) := by
  unfold execLbSnap
  repeat' first
      | with_reducible assumption | with_reducible apply nextInv_next | with_reducible apply lbCtrlWrite_inv | intro _

theorem execRdLoad_inv (a1) {a2 : State} (ha2 : Inv a2) : NextInv (execRdLoad a1 a2) := by
  unfold execRdLoad
  repeat' first
      | with_reducible assumption | with_reducible apply nextInv_next | with_reducible apply lbCtrlWrite_inv | intro _

theorem execNote_inv (a1) {a2 : State} (ha2 : Inv a2) : NextInv (execNote a1 a2) := by
  unfold execNote
  repeat' first
      | with_reducible assumption | with_reducible apply nextInv_next | with_reducible apply lbCtrlWrite_inv | intro _

theorem lbBoot_inv {a1 : State} (ha1 : Inv a1) : Inv (lbBoot a1) := by
  unfold lbBoot
  repeat' first
      | with_reducible assumption | with_reducible apply eraseNext_inv | with_reducible apply setPreg_inv | extract_lets
      | with_reducible apply foldl_inv | with_reducible apply foldl_inv1 | intro _ | split
      | fail_if_no_progress with_reducible refine inv_frame ?_ rfl rfl rfl | dsimp +zetaDelta only

end Sys2Proof.Machine
end

