-- ==== Sys2Proof/Laws/InvModule.lean ====
section
/-! SUPPORT. Every operation of Machine/Module.lean keeps the invariant. -/

set_option Elab.async false

namespace Sys2Proof.Machine

open Sys2Proof

theorem deviceReset_inv {s : State} (cold) (h : Inv s) : Inv (deviceReset s cold) := by
  refine ⟨?_, rfl, rfl, ?_, ?_, rfl, Nat.zero_le _, Nat.zero_le _, Nat.zero_le _⟩
  · show Sparse.wf regReset (if cold then [] else sset regReset [] 0x124 (s.reg 0x124)) = true
    split
    · rfl
    · exact sset_wf _ _ _ _ rfl
  · show Memory.wf (if cold then [] else s.dm) = true
    split
    · rfl
    · exact h.dm
  · show Sparse.wf (fun _ => false) (if cold then [] else s.poison) = true
    split
    · rfl
    · exact h.poison

theorem railsFall_inv {a1 : State} (ha1 : Inv a1) : Inv (railsFall a1) := by
  unfold railsFall
  repeat' first
      | with_reducible assumption | with_reducible apply deviceReset_inv | with_reducible apply writeAll_inv | with_reducible apply emit_inv
      | extract_lets | intro _ | with_reducible apply inv_ite | split | fail_if_no_progress with_reducible refine inv_frame ?_ rfl rfl rfl
      | dsimp +zetaDelta only

theorem undervoltage_inv {a1 : State} (ha1 : Inv a1) : Inv (undervoltage a1) := by
  unfold undervoltage
  repeat' first
      | with_reducible assumption | with_reducible apply railsFall_inv | with_reducible apply onset_inv | intro _
      | fail_if_no_progress with_reducible refine inv_frame ?_ rfl rfl rfl

theorem execInputUndervoltage_inv {a1 : State} (ha1 : Inv a1) : NextInv (execInputUndervoltage a1) := by
  unfold execInputUndervoltage
  repeat' first
      | with_reducible assumption | with_reducible apply nextInv_next | with_reducible apply undervoltage_inv | intro _

theorem overvoltage_inv {a1 : State} (ha1 : Inv a1) : Inv (overvoltage a1) := by
  unfold overvoltage
  repeat' first
      | with_reducible assumption | with_reducible apply railsFall_inv | with_reducible apply onset_inv | intro _
      | fail_if_no_progress with_reducible refine inv_frame ?_ rfl rfl rfl

theorem execInputOvervoltage_inv {a1 : State} (ha1 : Inv a1) : NextInv (execInputOvervoltage a1) := by
  unfold execInputOvervoltage
  repeat' first
      | with_reducible assumption | with_reducible apply nextInv_next | with_reducible apply overvoltage_inv | intro _

theorem reversedInput_inv {a1 : State} (ha1 : Inv a1) : Inv (reversedInput a1) := by
  unfold reversedInput
  repeat' first
      | with_reducible assumption | with_reducible apply railsFall_inv | with_reducible apply onset_inv | intro _
      | fail_if_no_progress with_reducible refine inv_frame ?_ rfl rfl rfl

theorem execInputReversed_inv {a1 : State} (ha1 : Inv a1) : NextInv (execInputReversed a1) := by
  unfold execInputReversed
  repeat' first
      | with_reducible assumption | with_reducible apply nextInv_next | with_reducible apply reversedInput_inv | intro _
      | with_reducible apply inv_ite | split

theorem execMainConversionStart_inv {a1 : State} (ha1 : Inv a1) : NextInv (execMainConversionStart a1) := by
  unfold execMainConversionStart
  repeat' first
      | with_reducible assumption | with_reducible apply nextInv_next | with_reducible apply normal_inv | intro _
      | with_reducible apply inv_ite | split | fail_if_no_progress with_reducible refine inv_frame ?_ rfl rfl rfl

theorem standbyLost_inv {a1 : State} (ha1 : Inv a1) : Inv (standbyLost a1) := by
  unfold standbyLost
  repeat' first
      | with_reducible assumption | intro _ | fail_if_no_progress with_reducible refine inv_frame ?_ rfl rfl rfl

theorem standbyAstray_inv {a1 : State} (ha1 : Inv a1) : Inv (standbyAstray a1) := by
  unfold standbyAstray
  repeat' first
      | with_reducible assumption | with_reducible apply onset_inv | intro _
      | fail_if_no_progress with_reducible refine inv_frame ?_ rfl rfl rfl

theorem execStandbyLoss_inv (a1) {a2 : State} (ha2 : Inv a2) : NextInv (execStandbyLoss a1 a2) := by
  unfold execStandbyLoss
  repeat' first
      | with_reducible assumption | with_reducible apply nextInv_next | with_reducible apply standbyAstray_inv
      | with_reducible apply standbyLost_inv | intro _ | with_reducible apply inv_ite | split

theorem standbyUp_inv {a1 : State} (a2) (ha1 : Inv a1) : Inv (standbyUp a1 a2) := by
  unfold standbyUp
  repeat' first
      | with_reducible assumption | with_reducible apply normal_inv | intro _ | with_reducible apply inv_ite | split
      | fail_if_no_progress with_reducible refine inv_frame ?_ rfl rfl rfl

theorem execStandbyPowerUp_inv (a1) {a2 : State} (ha2 : Inv a2) : NextInv (execStandbyPowerUp a1 a2) := by
  unfold execStandbyPowerUp
  repeat' first
      | with_reducible assumption | with_reducible apply nextInv_next | with_reducible apply standbyUp_inv | intro _

theorem setWarning_inv {a1 : State} (a2) (ha1 : Inv a1) : Inv (setWarning a1 a2) := by
  unfold setWarning
  repeat' first
      | with_reducible assumption | with_reducible apply powerFailSnap_inv | with_reducible apply offer_inv | extract_lets | intro _
      | with_reducible apply inv_ite | split | fail_if_no_progress with_reducible refine inv_frame ?_ rfl rfl rfl | dsimp +zetaDelta only

theorem pwrFailLevel_inv {a1 : State} (a2) (ha1 : Inv a1) : Inv (pwrFailLevel a1 a2) := by
  unfold pwrFailLevel
  repeat' first
      | with_reducible assumption | with_reducible apply setWarning_inv | with_reducible apply normal_inv | with_reducible apply onset_inv
      | extract_lets | intro _ | with_reducible apply inv_ite | split | dsimp +zetaDelta only

theorem execPwrFailNAssert_inv {a1 : State} (ha1 : Inv a1) : NextInv (execPwrFailNAssert a1) := by
  unfold execPwrFailNAssert
  repeat' first
      | with_reducible assumption | with_reducible apply nextInv_next | with_reducible apply pwrFailLevel_inv | intro _

theorem execPwrFailNRelease_inv {a1 : State} (ha1 : Inv a1) : NextInv (execPwrFailNRelease a1) := by
  unfold execPwrFailNRelease
  repeat' first
      | with_reducible assumption | with_reducible apply nextInv_next | with_reducible apply pwrFailLevel_inv | intro _

theorem execIntPf_inv {a1 : State} (ha1 : Inv a1) : NextInv (execIntPf a1) := by
  unfold execIntPf
  repeat' first
      | with_reducible assumption | with_reducible apply nextInv_next | with_reducible apply setWarning_inv | intro _

theorem execIntPfRelease_inv {a1 : State} (ha1 : Inv a1) : NextInv (execIntPfRelease a1) := by
  unfold execIntPfRelease
  repeat' first
      | with_reducible assumption | with_reducible apply nextInv_next | with_reducible apply setWarning_inv | intro _

theorem leakMeasure_inv {a1 : State} (a2) (ha1 : Inv a1) : Inv (leakMeasure a1 a2) := by
  unfold leakMeasure
  repeat' first
      | with_reducible assumption | with_reducible apply normal_inv | with_reducible apply onset_inv | extract_lets | intro _
      | with_reducible apply inv_ite | split | fail_if_no_progress with_reducible refine inv_frame ?_ rfl rfl rfl | dsimp +zetaDelta only

theorem execLeakMeasurement_inv (a1) {a2 : State} (ha2 : Inv a2) : NextInv (execLeakMeasurement a1 a2) := by
  unfold execLeakMeasurement
  repeat' first
      | with_reducible assumption | with_reducible apply nextInv_next | with_reducible apply leakMeasure_inv | intro _

theorem thermRead_inv {a1 : State} (a2) (a3) (a4) (ha1 : Inv a1) : Inv (thermRead a1 a2 a3 a4) := by
  unfold thermRead
  repeat' first
      | with_reducible assumption | with_reducible apply normal_inv | with_reducible apply onset_inv | extract_lets | intro _
      | with_reducible apply inv_ite | split | fail_if_no_progress with_reducible refine inv_frame ?_ rfl rfl rfl | dsimp +zetaDelta only

theorem execThermistorReading_inv (a1) (a2) (a3) {a4 : State} (ha4 : Inv a4) : NextInv (execThermistorReading a1 a2 a3 a4) := by
  unfold execThermistorReading
  repeat' first
      | with_reducible assumption | with_reducible apply nextInv_next | with_reducible apply thermRead_inv | intro _

theorem onsetNew_inv {a1 : State} (a2) (a3) (a4) (ha1 : Inv a1) : Inv (onsetNew a1 a2 a3 a4) := by
  unfold onsetNew
  repeat' first
      | with_reducible assumption | with_reducible apply normal_inv | with_reducible apply onset_inv | intro _

theorem tideInputFault_inv {a1 : State} (a2) (a3) (ha1 : Inv a1) : Inv (tideInputFault a1 a2 a3) := by
  unfold tideInputFault
  repeat' first
      | with_reducible assumption | with_reducible apply onsetNew_inv | extract_lets | intro _ | with_reducible apply inv_ite | split
      | fail_if_no_progress with_reducible refine inv_frame ?_ rfl rfl rfl | dsimp +zetaDelta only

theorem execTideInputFault_inv (a1) (a2) {a3 : State} (ha3 : Inv a3) : NextInv (execTideInputFault a1 a2 a3) := by
  unfold execTideInputFault
  repeat' first
      | with_reducible assumption | with_reducible apply nextInv_next | with_reducible apply tideInputFault_inv | intro _

theorem readback_inv {a1 : State} (a2) (a3) (ha1 : Inv a1) : Inv (readback a1 a2 a3) := by
  unfold readback
  repeat' first
      | with_reducible assumption | with_reducible apply onsetNew_inv | with_reducible apply raiseErr_inv | intro _
      | with_reducible apply inv_ite | split

theorem execReadback_inv (a1) (a2) {a3 : State} (ha3 : Inv a3) : NextInv (execReadback a1 a2 a3) := by
  unfold execReadback
  repeat' first
      | with_reducible assumption | with_reducible apply nextInv_next | with_reducible apply readback_inv | intro _

theorem execOsfpModulePresent_inv (a1) (a2) {a3 : State} (ha3 : Inv a3) : NextInv (execOsfpModulePresent a1 a2 a3) := by
  unfold execOsfpModulePresent
  repeat' first
      | with_reducible assumption | with_reducible apply nextInv_next | with_reducible apply cageCheck_inv | intro _
      | fail_if_no_progress with_reducible refine inv_frame ?_ rfl rfl rfl

theorem mgtWrite_inv {a1 : State} (a2) (a3) (ha1 : Inv a1) : Inv (mgtWrite a1 a2 a3) := by
  unfold mgtWrite
  repeat' first
      | with_reducible assumption | with_reducible apply emit_inv | intro _ | with_reducible apply inv_ite | split
      | fail_if_no_progress with_reducible refine inv_frame ?_ rfl rfl rfl

theorem execMgtBusWrite_inv (a1) (a2) (a3) {a4 : State} (ha4 : Inv a4) : NextInv (execMgtBusWrite a1 a2 a3 a4) := by
  unfold execMgtBusWrite
  repeat' first
      | with_reducible assumption | with_reducible apply nextInv_next | with_reducible apply mgtWrite_inv | intro _
      | with_reducible apply inv_ite | split

theorem execStuck_inv {a1 : State} (ha1 : Inv a1) : NextInv (execStuck a1) := by
  unfold execStuck
  repeat' first
      | with_reducible assumption | with_reducible apply nextInv_next | with_reducible apply onsetNew_inv | intro _
      | with_reducible apply inv_ite | split

end Sys2Proof.Machine
end

