-- ==== Sys2Proof/Laws/InvBoot.lean ====
section
/-! SUPPORT. Every operation of Machine/Boot.lean keeps the invariant. -/

set_option Elab.async false

namespace Sys2Proof.Machine

open Sys2Proof

theorem trainWhen_inv {a1 : State → State} {a2 : State} (ha1 : ∀ u, Inv u → Inv (a1 u)) (ha2 : Inv a2) : Inv (trainWhen a1 a2) := by
  unfold trainWhen
  repeat' first
      | with_reducible assumption | with_reducible apply ha1 | with_reducible apply emit_inv | extract_lets | intro _
      | with_reducible apply inv_ite | split | dsimp +zetaDelta only

theorem stageStart_inv {a1 : State} (a2) (ha1 : Inv a1) : Inv (stageStart a1 a2) := by
  unfold stageStart
  repeat' first
      | with_reducible assumption | with_reducible apply logBoot_inv | intro _
      | fail_if_no_progress with_reducible refine inv_frame ?_ rfl rfl rfl

theorem unfusedEntry_inv {a1 : State} (ha1 : Inv a1) : Inv (unfusedEntry a1) := by
  unfold unfusedEntry
  repeat' first
      | with_reducible assumption | with_reducible apply offerGp_inv | intro _ | with_reducible apply inv_ite | split

theorem coldStart_inv {a1 : State} (ha1 : Inv a1) : Inv (coldStart a1) := by
  unfold coldStart
  repeat' first
      | with_reducible assumption | with_reducible apply unfusedEntry_inv | with_reducible apply stageStart_inv
      | with_reducible apply deviceReset_inv | with_reducible apply writeAll_inv | with_reducible apply logBoot_inv | extract_lets | intro _
      | with_reducible apply inv_ite | split | fail_if_no_progress with_reducible refine inv_frame ?_ rfl rfl rfl | dsimp +zetaDelta only

theorem execColdReset_inv {a1 : State} (ha1 : Inv a1) : NextInv (execColdReset a1) := by
  unfold execColdReset
  repeat' first
      | with_reducible assumption | with_reducible apply nextInv_next | with_reducible apply coldStart_inv | intro _

theorem writeBackAll_inv {a1 : State} (ha1 : Inv a1) : Inv (writeBackAll a1) := by
  unfold writeBackAll
  repeat' first
      | with_reducible assumption | with_reducible apply writeBelow_inv | extract_lets | with_reducible apply foldl_inv
      | with_reducible apply foldl_inv1 | intro _ | with_reducible apply inv_ite | split | dsimp +zetaDelta only

theorem finishChunk_inv {a1 : State} (ha1 : Inv a1) : Inv (finishChunk a1) := by
  unfold finishChunk
  repeat' first
      | with_reducible assumption | intro _ | with_reducible apply inv_ite | split
      | fail_if_no_progress with_reducible refine inv_frame ?_ rfl rfl rfl

theorem perstPrepare_inv {a1 : State} (ha1 : Inv a1) : Inv (perstPrepare a1) := by
  unfold perstPrepare
  repeat' first
      | with_reducible assumption | with_reducible apply finishChunk_inv | with_reducible apply writeBackAll_inv
      | with_reducible apply fencePage_inv | with_reducible apply logBootWith_inv | extract_lets | with_reducible apply foldl_inv
      | with_reducible apply foldl_inv1 | intro _ | with_reducible apply inv_ite | split
      | fail_if_no_progress with_reducible refine inv_frame ?_ rfl rfl rfl | dsimp +zetaDelta only

theorem perstLevel_inv {a1 : State} (a2) (ha1 : Inv a1) : Inv (perstLevel a1 a2) := by
  unfold perstLevel
  repeat' first
      | with_reducible assumption | with_reducible apply perstPrepare_inv | with_reducible apply normal_inv | with_reducible apply onset_inv
      | extract_lets | intro _ | with_reducible apply inv_ite | split | fail_if_no_progress with_reducible refine inv_frame ?_ rfl rfl rfl
      | dsimp +zetaDelta only

theorem execPerstNAssert_inv (a1) {a2 : State} (ha2 : Inv a2) : NextInv (execPerstNAssert a1 a2) := by
  unfold execPerstNAssert
  repeat' first
      | with_reducible assumption | with_reducible apply nextInv_next | with_reducible apply perstLevel_inv | intro _
      | with_reducible apply inv_ite | split

theorem execPerstNRelease_inv {a1 : State} (ha1 : Inv a1) : NextInv (execPerstNRelease a1) := by
  unfold execPerstNRelease
  repeat' first
      | with_reducible assumption | with_reducible apply nextInv_next | with_reducible apply perstLevel_inv
      | with_reducible apply trainWhen_inv | intro _

theorem perstDone_inv {a1 : State} (ha1 : Inv a1) : Inv (perstDone a1) := by
  unfold perstDone
  repeat' first
      | with_reducible assumption | with_reducible apply unfusedEntry_inv | with_reducible apply stageStart_inv
      | with_reducible apply deviceReset_inv | with_reducible apply writeAll_inv | with_reducible apply emit_inv | extract_lets | intro _
      | with_reducible apply inv_ite | split | dsimp +zetaDelta only

theorem execPerstNStepsDone_inv {a1 : State} (ha1 : Inv a1) : NextInv (execPerstNStepsDone a1) := by
  unfold execPerstNStepsDone
  repeat' first
      | with_reducible assumption | with_reducible apply nextInv_next | with_reducible apply perstDone_inv | intro _

theorem execSupervisedInputOpen_inv (a1) {a2 : State} (ha2 : Inv a2) : NextInv (execSupervisedInputOpen a1 a2) := by
  unfold execSupervisedInputOpen
  repeat' first
      | with_reducible assumption | with_reducible apply nextInv_next | with_reducible apply perstLevel_inv
      | with_reducible apply pwrFailLevel_inv | with_reducible apply trstLevel_inv | intro _ | split

theorem hubFail_inv {a1 : State} (a2) (a3) (a4) (a5) (ha1 : Inv a1) : Inv (hubFail a1 a2 a3 a4 a5) := by
  unfold hubFail
  repeat' first
      | with_reducible assumption | with_reducible apply raiseErr_inv | with_reducible apply orPreg_inv | with_reducible apply setPreg_inv
      | extract_lets | intro _ | with_reducible apply inv_ite | split | fail_if_no_progress with_reducible refine inv_frame ?_ rfl rfl rfl
      | dsimp +zetaDelta only

theorem stageTimeout_inv {a1 : State} (ha1 : Inv a1) : Inv (stageTimeout a1) := by
  unfold stageTimeout
  repeat' first
      | with_reducible assumption | with_reducible apply hubFail_inv | intro _ | with_reducible apply inv_ite | split

theorem execStageTimeout_inv {a1 : State} (ha1 : Inv a1) : NextInv (execStageTimeout a1) := by
  unfold execStageTimeout
  repeat' first
      | with_reducible assumption | with_reducible apply nextInv_next | with_reducible apply stageTimeout_inv | intro _

theorem unitEntry_inv {a1 : State} (a2) (a3) (a4) (a5) (a6) (a7) (ha1 : Inv a1) : Inv (unitEntry a1 a2 a3 a4 a5 a6 a7) := by
  unfold unitEntry
  repeat' first
      | with_reducible assumption | with_reducible apply logBootWith_inv | intro _

theorem fenceStuck_inv {a1 : State} (a2) (ha1 : Inv a1) : Inv (fenceStuck a1 a2) := by
  unfold fenceStuck
  repeat' first
      | with_reducible assumption | with_reducible apply fencePage_inv | extract_lets | with_reducible apply foldl_inv
      | with_reducible apply foldl_inv1 | intro _ | fail_if_no_progress with_reducible refine inv_frame ?_ rfl rfl rfl
      | dsimp +zetaDelta only

theorem countFailWay_inv {a1 : State} (a2) (ha1 : Inv a1) : Inv (countFailWay a1 a2) := by
  unfold countFailWay
  repeat' first
      | with_reducible assumption | with_reducible apply setPreg_inv | extract_lets | intro _ | dsimp +zetaDelta only

theorem failCluster_inv {a1 : State} (a2) (ha1 : Inv a1) : Inv (failCluster a1 a2) := by
  unfold failCluster
  repeat' first
      | with_reducible assumption | with_reducible apply fenceStuck_inv | with_reducible apply orPreg_inv | intro _

theorem failUnit_inv {a1 : State} (a2) (ha1 : Inv a1) : Inv (failUnit a1 a2) := by
  unfold failUnit
  repeat' first
      | with_reducible assumption | with_reducible apply failCluster_inv | with_reducible apply countFailWay_inv
      | with_reducible apply fenceStuck_inv | with_reducible apply unitEntry_inv | with_reducible apply hubFail_inv
      | with_reducible apply raiseErr_inv | with_reducible apply orPreg_inv | extract_lets | intro _ | with_reducible apply inv_ite | split
      | dsimp +zetaDelta only

theorem setGroupRes_inv {a1 : State} (a2) (a3) (ha1 : Inv a1) : Inv (setGroupRes a1 a2 a3) := by
  unfold setGroupRes
  repeat' first
      | with_reducible assumption | with_reducible apply setPreg_inv | extract_lets | intro _ | dsimp +zetaDelta only

theorem bistDone_inv {a1 : State} (ha1 : Inv a1) : Inv (bistDone a1) := by
  unfold bistDone
  repeat' first
      | with_reducible assumption | with_reducible apply withReady_inv | with_reducible apply orPreg_inv | intro _

theorem groupStart_inv {a1 : State} (a2) (ha1 : Inv a1) : Inv (groupStart a1 a2) := by
  unfold groupStart
  repeat' first
      | with_reducible assumption | intro _ | with_reducible apply inv_ite | split
      | fail_if_no_progress with_reducible refine inv_frame ?_ rfl rfl rfl

theorem execBistGroupStart_inv (a1) {a2 : State} (ha2 : Inv a2) : NextInv (execBistGroupStart a1 a2) := by
  unfold execBistGroupStart
  repeat' first
      | with_reducible assumption | with_reducible apply nextInv_next | with_reducible apply groupStart_inv | intro _

theorem groupEnd_inv {a1 : State} (a2) (a3) (a4) (ha1 : Inv a1) : Inv (groupEnd a1 a2 a3 a4) := by
  unfold groupEnd
  repeat' first
      | with_reducible assumption | with_reducible apply bistDone_inv | with_reducible apply setGroupRes_inv
      | with_reducible apply logBootWith_inv | with_reducible apply setPreg64_inv | extract_lets | intro _ | with_reducible apply inv_ite
      | split | fail_if_no_progress with_reducible refine inv_frame ?_ rfl rfl rfl | dsimp +zetaDelta only

theorem execBistGroupComplete_inv (a1) (a2) (a3) {a4 : State} (ha4 : Inv a4) : NextInv (execBistGroupComplete a1 a2 a3 a4) := by
  unfold execBistGroupComplete
  repeat' first
      | with_reducible assumption | with_reducible apply nextInv_next | with_reducible apply groupEnd_inv
      | with_reducible apply trainWhen_inv | intro _

theorem localiseGroup_inv (a1) {a2 : State} (a3) (ha2 : Inv a2) : Inv (localiseGroup a1 a2 a3) := by
  unfold localiseGroup
  repeat' first
      | with_reducible assumption | with_reducible apply setGroupRes_inv | with_reducible apply failUnit_inv | extract_lets
      | with_reducible apply foldl_inv | with_reducible apply foldl_inv1 | intro _ | with_reducible apply inv_ite | split
      | fail_if_no_progress with_reducible refine inv_frame ?_ rfl rfl rfl | dsimp +zetaDelta only

theorem localise_inv {a1 : State} (a2) (ha1 : Inv a1) : Inv (localise a1 a2) := by
  unfold localise
  repeat' first
      | with_reducible assumption | with_reducible apply localiseGroup_inv | with_reducible apply bistDone_inv | extract_lets
      | with_reducible apply foldl_inv | with_reducible apply foldl_inv1 | intro _ | with_reducible apply inv_ite | split
      | fail_if_no_progress with_reducible refine inv_frame ?_ rfl rfl rfl | dsimp +zetaDelta only

theorem execBistLocalisationDone_inv (a1) {a2 : State} (ha2 : Inv a2) : NextInv (execBistLocalisationDone a1 a2) := by
  unfold execBistLocalisationDone
  repeat' first
      | with_reducible assumption | with_reducible apply nextInv_next | with_reducible apply localise_inv | intro _

theorem hbmUp_inv {a1 : State} (ha1 : Inv a1) : Inv (hbmUp a1) := by
  unfold hbmUp
  repeat' first
      | with_reducible assumption | with_reducible apply withReady_inv | with_reducible apply orPreg_inv | intro _

theorem trainStack_inv {a1 : State} (a2) (a3) (ha1 : Inv a1) : Inv (trainStack a1 a2 a3) := by
  unfold trainStack
  repeat' first
      | with_reducible assumption | with_reducible apply hbmUp_inv | with_reducible apply hubFail_inv | with_reducible apply logBoot_inv
      | extract_lets | intro _ | with_reducible apply inv_ite | split | fail_if_no_progress with_reducible refine inv_frame ?_ rfl rfl rfl
      | dsimp +zetaDelta only

theorem execHbmTrainingDone_inv (a1) (a2) {a3 : State} (ha3 : Inv a3) : NextInv (execHbmTrainingDone a1 a2 a3) := by
  unfold execHbmTrainingDone
  repeat' first
      | with_reducible assumption | with_reducible apply nextInv_next | with_reducible apply trainStack_inv | intro _

theorem execMemoryInitDone_inv {s : State} (h : Inv s) : NextInv (execMemoryInitDone s) :=
  inv_ite (fun _ => hbmUp_inv ⟨h.regs, h.staged, h.captured, rfl, rfl, h.bar4, h.queue, h.inq, h.report⟩) (fun _ => h)

theorem enterRecovery_inv {a1 : State} (ha1 : Inv a1) : Inv (enterRecovery a1) := by
  unfold enterRecovery
  repeat' first
      | with_reducible assumption | with_reducible apply logBoot_inv | intro _
      | fail_if_no_progress with_reducible refine inv_frame ?_ rfl rfl rfl

theorem fallBack_inv {a1 : State} (a2) (a3) (ha1 : Inv a1) : Inv (fallBack a1 a2 a3) := by
  unfold fallBack
  repeat' first
      | with_reducible assumption | with_reducible apply enterRecovery_inv | with_reducible apply stageStart_inv
      | with_reducible apply logBoot_inv | extract_lets | intro _ | with_reducible apply inv_ite | split
      | fail_if_no_progress with_reducible refine inv_frame ?_ rfl rfl rfl | dsimp +zetaDelta only

theorem stageEnd_inv {a1 : State} (a2) (ha1 : Inv a1) : Inv (stageEnd a1 a2) := by
  unfold stageEnd
  repeat' first
      | with_reducible assumption | with_reducible apply logBoot_inv | intro _
      | fail_if_no_progress with_reducible refine inv_frame ?_ rfl rfl rfl

theorem stageZero_inv {a1 : State} (a2) (ha1 : Inv a1) : Inv (stageZero a1 a2) := by
  unfold stageZero
  repeat' first
      | with_reducible assumption | with_reducible apply stageEnd_inv | with_reducible apply fallBack_inv
      | with_reducible apply enterRecovery_inv | with_reducible apply stageStart_inv | with_reducible apply setPreg_inv | extract_lets
      | intro _ | with_reducible apply inv_ite | split | fail_if_no_progress with_reducible refine inv_frame ?_ rfl rfl rfl
      | dsimp +zetaDelta only

theorem stageOne_inv {a1 : State} (a2) (ha1 : Inv a1) : Inv (stageOne a1 a2) := by
  unfold stageOne
  repeat' first
      | with_reducible assumption | with_reducible apply stageEnd_inv | with_reducible apply fallBack_inv
      | with_reducible apply stageStart_inv | intro _ | with_reducible apply inv_ite | split

theorem raiseLatched_inv {a1 : State} (ha1 : Inv a1) : Inv (raiseLatched a1) := by
  unfold raiseLatched
  repeat' first
      | with_reducible assumption | with_reducible apply raiseErr_inv | with_reducible apply foldl_inv | with_reducible apply foldl_inv1
      | intro _ | with_reducible apply inv_ite | split

theorem stageTwo_inv {a1 : State} (a2) (ha1 : Inv a1) : Inv (stageTwo a1 a2) := by
  unfold stageTwo
  repeat' first
      | with_reducible assumption | with_reducible apply raiseLatched_inv | with_reducible apply stageEnd_inv
      | with_reducible apply lbBoot_inv | with_reducible apply withAlive_inv | with_reducible apply withReady_inv
      | with_reducible apply orPreg_inv | with_reducible apply setPreg_inv | extract_lets | intro _ | with_reducible apply inv_ite | split
      | fail_if_no_progress with_reducible refine inv_frame ?_ rfl rfl rfl | dsimp +zetaDelta only

theorem stageComplete_inv {a1 : State} (a2) (ha1 : Inv a1) : Inv (stageComplete a1 a2) := by
  unfold stageComplete
  repeat' first
      | with_reducible assumption | with_reducible apply stageTwo_inv | with_reducible apply stageOne_inv
      | with_reducible apply stageZero_inv | intro _ | with_reducible apply inv_ite | split

theorem execBootStageComplete_inv (a1) {a2 : State} (ha2 : Inv a2) : NextInv (execBootStageComplete a1 a2) := by
  unfold execBootStageComplete
  repeat' first
      | with_reducible assumption | with_reducible apply nextInv_next | with_reducible apply stageComplete_inv
      | with_reducible apply trainWhen_inv | intro _

theorem pageCleared_inv {s : State} (p) (h : Inv s) : Inv (pageCleared s p) :=
  ⟨filter_wf _ _ _ h.regs, filter_wf _ _ _ h.staged, filter_wf _ _ _ h.captured, h.dm, h.poison, h.bar4, h.queue, h.inq, h.report⟩

theorem msixReset_inv {s : State} (h : Inv s) : Inv (msixReset s) :=
  ⟨filter_wf _ _ _ h.regs, h.staged, h.captured, h.dm, h.poison, h.bar4, h.queue, h.inq, h.report⟩

theorem flrAct_inv {a1 : State} (ha1 : Inv a1) : Inv (flrAct a1) := by
  unfold flrAct
  repeat' first
      | with_reducible assumption | with_reducible apply msixReset_inv | with_reducible apply pageCleared_inv
      | with_reducible apply resetMailboxes_inv | with_reducible apply raiseErr_inv | with_reducible apply logBoot_inv
      | with_reducible apply emit_inv | extract_lets | with_reducible apply foldl_inv | with_reducible apply foldl_inv1 | intro _
      | with_reducible apply inv_ite | split | fail_if_no_progress with_reducible refine inv_frame ?_ rfl rfl rfl | dsimp +zetaDelta only

theorem execFunctionLevelReset_inv {a1 : State} (ha1 : Inv a1) : NextInv (execFunctionLevelReset a1) := by
  unfold execFunctionLevelReset
  repeat' first
      | with_reducible assumption | with_reducible apply nextInv_next | with_reducible apply flrAct_inv | with_reducible apply cfgGate_inv
      | intro _

theorem execFlrComplete_inv {a1 : State} (ha1 : Inv a1) : NextInv (execFlrComplete a1) := by
  unfold execFlrComplete
  repeat' first
      | with_reducible assumption | with_reducible apply nextInv_next | with_reducible apply updateInta_inv | intro _
      | with_reducible apply inv_ite | split | fail_if_no_progress with_reducible refine inv_frame ?_ rfl rfl rfl

end Sys2Proof.Machine
end

