-- ==== Sys2Proof/Laws/InvLoops.lean ====
section
/-! SUPPORT. Every operation of Machine/Loops.lean keeps the invariant. -/

set_option Elab.async false

namespace Sys2Proof.Machine

open Sys2Proof

theorem State.setPw_inv {a1 : State} (a2) (a3) (ha1 : Inv a1) : Inv (State.setPw a1 a2 a3) := by
  unfold State.setPw
  repeat' first
      | with_reducible assumption | with_reducible apply State.setCl_inv | intro _

theorem tryVoltStep_inv {a1 : State} (a2) (ha1 : Inv a1) : Inv (tryVoltStep a1 a2) := by
  unfold tryVoltStep
  repeat' first
      | with_reducible assumption | with_reducible apply State.setPw_inv | extract_lets | intro _ | with_reducible apply inv_ite | split
      | dsimp +zetaDelta only

theorem targetEval_inv {a1 : State} (a2) (ha1 : Inv a1) : Inv (targetEval a1 a2) := by
  unfold targetEval
  repeat' first
      | with_reducible assumption | with_reducible apply tryVoltStep_inv | with_reducible apply State.setPw_inv | extract_lets | intro _
      | with_reducible apply inv_ite | split | dsimp +zetaDelta only

theorem execPwTargetEval_inv (a1) {a2 : State} (ha2 : Inv a2) : NextInv (execPwTargetEval a1 a2) := by
  unfold execPwTargetEval
  repeat' first
      | with_reducible assumption | with_reducible apply nextInv_next | with_reducible apply targetEval_inv | intro _

theorem execVoltageStepDone_inv (a1) {a2 : State} (ha2 : Inv a2) : NextInv (execVoltageStepDone a1 a2) := by
  unfold execVoltageStepDone
  repeat' first
      | with_reducible assumption | with_reducible apply nextInv_next | with_reducible apply tryVoltStep_inv
      | with_reducible apply State.setPw_inv | extract_lets | intro _ | with_reducible apply inv_ite | split | dsimp +zetaDelta only

theorem execFrequencyStep_inv (a1) {a2 : State} (ha2 : Inv a2) : NextInv (execFrequencyStep a1 a2) := by
  unfold execFrequencyStep
  repeat' first
      | with_reducible assumption | with_reducible apply nextInv_next | with_reducible apply State.setPw_inv | extract_lets | intro _
      | with_reducible apply inv_ite | split | dsimp +zetaDelta only

theorem execVrFault_inv (a1) {a2 : State} (ha2 : Inv a2) : NextInv (execVrFault a1 a2) := by
  unfold execVrFault
  repeat' first
      | with_reducible assumption | with_reducible apply nextInv_next | with_reducible apply raiseErr_inv | intro _
      | with_reducible apply inv_ite | split

theorem lowerLimits_inv {a1 : State} (ha1 : Inv a1) : Inv (lowerLimits a1) := by
  unfold lowerLimits
  repeat' first
      | with_reducible assumption | with_reducible apply State.setPw_inv | with_reducible apply raiseErr_inv | extract_lets
      | with_reducible apply foldl_inv | with_reducible apply foldl_inv1 | intro _ | with_reducible apply inv_ite | split
      | dsimp +zetaDelta only

theorem raiseLimits_inv {a1 : State} (ha1 : Inv a1) : Inv (raiseLimits a1) := by
  unfold raiseLimits
  repeat' first
      | with_reducible assumption | with_reducible apply State.setPw_inv | with_reducible apply foldl_inv | with_reducible apply foldl_inv1
      | intro _

theorem powerSample_inv {a1 : State} (a2) (a3) (ha1 : Inv a1) : Inv (powerSample a1 a2 a3) := by
  unfold powerSample
  repeat' first
      | with_reducible assumption | with_reducible apply raiseLimits_inv | with_reducible apply lowerLimits_inv
      | with_reducible apply setPreg_inv | extract_lets | intro _ | with_reducible apply inv_ite | split
      | fail_if_no_progress with_reducible refine inv_frame ?_ rfl rfl rfl | dsimp +zetaDelta only

theorem execPowerSample_inv (a1) (a2) {a3 : State} (ha3 : Inv a3) : NextInv (execPowerSample a1 a2 a3) := by
  unfold execPowerSample
  repeat' first
      | with_reducible assumption | with_reducible apply nextInv_next | with_reducible apply powerSample_inv
      | with_reducible apply normal_inv | intro _

theorem execPwrSense_inv (a1) {a2 : State} (ha2 : Inv a2) : NextInv (execPwrSense a1 a2) := by
  unfold execPwrSense
  repeat' first
      | with_reducible assumption | with_reducible apply nextInv_next | with_reducible apply lowerLimits_inv
      | with_reducible apply onset_inv | with_reducible apply raiseErr_inv | extract_lets | intro _ | with_reducible apply inv_ite | split
      | dsimp +zetaDelta only

theorem tjSample_inv {a1 : State} (a2) (a3) (ha1 : Inv a1) : Inv (tjSample a1 a2 a3) := by
  unfold tjSample
  repeat' first
      | with_reducible assumption | with_reducible apply State.setPw_inv | with_reducible apply raiseErr_inv
      | with_reducible apply setPreg_inv | extract_lets | intro _ | with_reducible apply inv_ite | split | dsimp +zetaDelta only

theorem execTjLimit_inv (a1) (a2) {a3 : State} (ha3 : Inv a3) : NextInv (execTjLimit a1 a2 a3) := by
  unfold execTjLimit
  repeat' first
      | with_reducible assumption | with_reducible apply nextInv_next | with_reducible apply tjSample_inv | intro _

theorem execThermTrip_inv {a1 : State} (ha1 : Inv a1) : NextInv (execThermTrip a1) := by
  unfold execThermTrip
  repeat' first
      | with_reducible assumption | with_reducible apply nextInv_next | with_reducible apply raiseErr_inv | intro _

theorem execDroop_inv (a1) {a2 : State} (ha2 : Inv a2) : NextInv (execDroop a1 a2) := by
  unfold execDroop
  repeat' first
      | with_reducible assumption | with_reducible apply nextInv_next | with_reducible apply State.setPw_inv | intro _

theorem stretchCycles_inv {a1 : State} (a2) (a3) (ha1 : Inv a1) : Inv (stretchCycles a1 a2 a3) := by
  unfold stretchCycles
  repeat' first
      | with_reducible assumption | with_reducible apply State.setPw_inv | with_reducible apply raiseErr_inv
      | with_reducible apply cntPreg_inv | extract_lets | intro _ | with_reducible apply inv_ite | split | dsimp +zetaDelta only

theorem execStretchRelax_inv (a1) (a2) {a3 : State} (ha3 : Inv a3) : NextInv (execStretchRelax a1 a2 a3) := by
  unfold execStretchRelax
  repeat' first
      | with_reducible assumption | with_reducible apply nextInv_next | with_reducible apply stretchCycles_inv | intro _

theorem alPwrLimWrite_inv {a1 : State} (a2) (ha1 : Inv a1) : Inv (alPwrLimWrite a1 a2) := by
  unfold alPwrLimWrite
  repeat' first
      | with_reducible assumption | with_reducible apply pageWrite_inv | with_reducible apply raiseErr_inv | extract_lets | intro _
      | with_reducible apply inv_ite | split | dsimp +zetaDelta only

theorem execAlPwrLimWrite_inv (a1) {a2 : State} (ha2 : Inv a2) : NextInv (execAlPwrLimWrite a1 a2) := by
  unfold execAlPwrLimWrite
  repeat' first
      | with_reducible assumption | with_reducible apply nextInv_next | with_reducible apply alPwrLimWrite_inv | intro _

theorem alDroopWrite_inv {a1 : State} (a2) (a3) (ha1 : Inv a1) : Inv (alDroopWrite a1 a2 a3) := by
  unfold alDroopWrite
  repeat' first
      | with_reducible assumption | with_reducible apply pageWrite_inv | with_reducible apply raiseErr_inv | extract_lets | intro _
      | with_reducible apply inv_ite | split | dsimp +zetaDelta only

theorem execAlDroopMvWrite_inv (a1) (a2) {a3 : State} (ha3 : Inv a3) : NextInv (execAlDroopMvWrite a1 a2 a3) := by
  unfold execAlDroopMvWrite
  repeat' first
      | with_reducible assumption | with_reducible apply nextInv_next | with_reducible apply alDroopWrite_inv | intro _

theorem eqUpdate_inv {a1 : State} (a2) (a3) (a4) (a5) (a6) (a7) (ha1 : Inv a1) : Inv (eqUpdate a1 a2 a3 a4 a5 a6 a7) := by
  unfold eqUpdate
  repeat' first
      | with_reducible assumption | with_reducible apply raiseErr_inv | with_reducible apply State.setPort_inv | extract_lets | intro _
      | with_reducible apply inv_ite | split | fail_if_no_progress with_reducible refine inv_frame ?_ rfl rfl rfl | dsimp +zetaDelta only

theorem execEqUpdate_inv (a1) (a2) (a3) (a4) (a5) (a6) {a7 : State} (ha7 : Inv a7) : NextInv (execEqUpdate a1 a2 a3 a4 a5 a6 a7) := by
  unfold execEqUpdate
  repeat' first
      | with_reducible assumption | with_reducible apply nextInv_next | with_reducible apply eqUpdate_inv | intro _
      | with_reducible apply inv_ite | split

theorem alEqForceWrite_inv {a1 : State} (a2) (ha1 : Inv a1) : Inv (alEqForceWrite a1 a2) := by
  unfold alEqForceWrite
  repeat' first
      | with_reducible assumption | with_reducible apply pageWrite_inv | extract_lets | intro _ | with_reducible apply inv_ite | split
      | fail_if_no_progress with_reducible refine inv_frame ?_ rfl rfl rfl | dsimp +zetaDelta only

theorem execEqStarved_inv (a1) {a2 : State} (ha2 : Inv a2) : NextInv (execEqStarved a1 a2) := by
  unfold execEqStarved
  repeat' first
      | with_reducible assumption | with_reducible apply nextInv_next | with_reducible apply raiseErr_inv | intro _
      | with_reducible apply inv_ite | split

end Sys2Proof.Machine
end

