-- ==== Sys2Proof/Laws/InvBoundary.lean ====
section
/-! SUPPORT. Every operation of Machine/Boundary.lean keeps the invariant. -/

set_option Elab.async false

namespace Sys2Proof.Machine

open Sys2Proof

theorem tideBoundary_inv {a1 : State} (ha1 : Inv a1) : Inv (tideBoundary a1) := by
  unfold tideBoundary
  repeat' first
      | with_reducible assumption | with_reducible apply holdOutcome_inv | with_reducible apply goDone_inv
      | with_reducible apply setPreg_inv | extract_lets | intro _ | with_reducible apply inv_ite | split
      | fail_if_no_progress with_reducible refine inv_frame ?_ rfl rfl rfl | dsimp +zetaDelta only

theorem boundaryWords_inv {a1 : State} (ha1 : Inv a1) : Inv (boundaryWords a1) := by
  unfold boundaryWords
  repeat' first
      | with_reducible assumption | with_reducible apply sendWord_inv | with_reducible apply emit_inv | extract_lets
      | with_reducible apply foldl_inv | with_reducible apply foldl_inv1 | intro _ | with_reducible apply inv_ite | split
      | dsimp +zetaDelta only

theorem switchBank_inv {a1 : State} (a2) (ha1 : Inv a1) : Inv (switchBank a1 a2) := by
  unfold switchBank
  repeat' first
      | with_reducible assumption | with_reducible apply setTt_inv | with_reducible apply setTtReg_inv | extract_lets | intro _
      | with_reducible apply inv_ite | split | dsimp +zetaDelta only

theorem ttBoundary_inv {a1 : State} (a2) (a3) (ha1 : Inv a1) : Inv (ttBoundary a1 a2 a3) := by
  unfold ttBoundary
  repeat' first
      | with_reducible assumption | with_reducible apply switchBank_inv | with_reducible apply unreachedCheck_inv
      | with_reducible apply setTt_inv | with_reducible apply setTtReg_inv | with_reducible apply State.setCoreRaw_inv
      | with_reducible apply when_inv | extract_lets | intro _ | with_reducible apply inv_ite | split | dsimp +zetaDelta only

theorem clearMarks_inv {a1 : State} (ha1 : Inv a1) : Inv (clearMarks a1) := by
  unfold clearMarks
  repeat' first
      | with_reducible assumption | with_reducible apply State.setCoreRaw_inv | with_reducible apply foldl_inv
      | with_reducible apply foldl_inv1 | intro _

theorem ttBoundaries_inv {a1 : State} (a2) (ha1 : Inv a1) : Inv (ttBoundaries a1 a2) := by
  unfold ttBoundaries
  repeat' first
      | with_reducible assumption | with_reducible apply ttBoundary_inv | with_reducible apply foldl_inv | with_reducible apply foldl_inv1
      | intro _ | with_reducible apply inv_ite | split

theorem slotBoundary_inv {a1 : State} (a2) (ha1 : Inv a1) : Inv (slotBoundary a1 a2) := by
  unfold slotBoundary
  repeat' first
      | with_reducible assumption | with_reducible apply closeSlot_inv | with_reducible apply goDone_inv
      | with_reducible apply State.setPort_inv | with_reducible apply orPreg_inv | extract_lets | intro _ | with_reducible apply inv_ite
      | split | dsimp +zetaDelta only

theorem portBoundary_inv {a1 : State} (a2) (ha1 : Inv a1) : Inv (portBoundary a1 a2) := by
  unfold portBoundary
  repeat' first
      | with_reducible assumption | with_reducible apply slotBoundary_inv | with_reducible apply State.setPort_inv | extract_lets | intro _
      | with_reducible apply inv_ite | split | dsimp +zetaDelta only

theorem rttBoundary_inv {a1 : State} (a2) (ha1 : Inv a1) : Inv (rttBoundary a1 a2) := by
  unfold rttBoundary
  repeat' first
      | with_reducible assumption | with_reducible apply measureDue_inv | with_reducible apply State.setPort_inv | extract_lets | intro _
      | with_reducible apply inv_ite | split | dsimp +zetaDelta only

theorem logStill_inv {a1 : State} (a2) (ha1 : Inv a1) : Inv (logStill a1 a2) := by
  unfold logStill
  repeat' first
      | with_reducible assumption | with_reducible apply offer_inv | extract_lets | intro _ | with_reducible apply inv_ite | split
      | dsimp +zetaDelta only

theorem raiseStill_inv {a1 : State} (a2) (ha1 : Inv a1) : Inv (raiseStill a1 a2) := by
  unfold raiseStill
  repeat' first
      | with_reducible assumption | with_reducible apply noteErr_inv | with_reducible apply updateInta_inv
      | with_reducible apply sendMsix_inv | with_reducible apply orPreg_inv | extract_lets | intro _ | with_reducible apply inv_ite | split
      | fail_if_no_progress with_reducible refine inv_frame ?_ rfl rfl rfl | dsimp +zetaDelta only

theorem declareStill_inv {a1 : State} (a2) (ha1 : Inv a1) : Inv (declareStill a1 a2) := by
  unfold declareStill
  repeat' first
      | with_reducible assumption | with_reducible apply raiseStill_inv | with_reducible apply logStill_inv
      | with_reducible apply cntPreg_inv | with_reducible apply orPreg_inv | with_reducible apply setPreg64_inv | extract_lets
      | with_reducible apply foldl_inv | with_reducible apply foldl_inv1 | intro _ | dsimp +zetaDelta only

theorem detect_inv {a1 : State} (ha1 : Inv a1) : Inv (detect a1) := by
  unfold detect
  repeat' first
      | with_reducible assumption | with_reducible apply declareStill_inv | with_reducible apply setPreg_inv | extract_lets
      | with_reducible apply foldl_inv | with_reducible apply foldl_inv1 | intro _ | with_reducible apply inv_ite | split
      | fail_if_no_progress with_reducible refine inv_frame ?_ rfl rfl rfl | dsimp +zetaDelta only

theorem pwBoundary_inv {a1 : State} (ha1 : Inv a1) : Inv (pwBoundary a1) := by
  unfold pwBoundary
  repeat' first
      | with_reducible assumption | with_reducible apply State.setPw_inv | with_reducible apply foldl_inv | with_reducible apply foldl_inv1
      | intro _

theorem plBoundary_inv {a1 : State} (ha1 : Inv a1) : Inv (plBoundary a1) := by
  unfold plBoundary
  repeat' first
      | with_reducible assumption | intro _ | with_reducible apply inv_ite | split
      | fail_if_no_progress with_reducible refine inv_frame ?_ rfl rfl rfl

theorem boundary_inv {a1 : State} (ha1 : Inv a1) : Inv (boundary a1) := by
  unfold boundary
  repeat' first
      | with_reducible assumption | with_reducible apply plBoundary_inv | with_reducible apply pwBoundary_inv
      | with_reducible apply detect_inv | with_reducible apply rttBoundary_inv | with_reducible apply portBoundary_inv
      | with_reducible apply ttBoundaries_inv | with_reducible apply clearMarks_inv | with_reducible apply boundaryWords_inv
      | with_reducible apply tideBoundary_inv | extract_lets | with_reducible apply foldl_inv | with_reducible apply foldl_inv1 | intro _
      | with_reducible apply inv_ite | split | dsimp +zetaDelta only

theorem execStepBoundary_inv {a1 : State} (ha1 : Inv a1) : NextInv (execStepBoundary a1) := by
  unfold execStepBoundary
  repeat' first
      | with_reducible assumption | with_reducible apply nextInv_next | with_reducible apply boundary_inv
      | with_reducible apply entriesInOrder_inv | intro _ | with_reducible apply inv_ite | split

end Sys2Proof.Machine
end

