-- ==== Sys2Proof/Laws/InvFaults.lean ====
section
/-! SUPPORT. Every operation of Machine/Faults.lean keeps the invariant. -/

set_option Elab.async false

namespace Sys2Proof.Machine

open Sys2Proof

theorem enterSafe_inv {a1 : State} (a2) (ha1 : Inv a1) : Inv (enterSafe a1 a2) := by
  unfold enterSafe
  repeat' first
      | with_reducible assumption | with_reducible apply fatalSnap_inv | with_reducible apply enterFreeze_inv
      | with_reducible apply sendAbort_inv | with_reducible apply withAlive_inv | extract_lets | intro _ | with_reducible apply inv_ite
      | split | fail_if_no_progress with_reducible refine inv_frame ?_ rfl rfl rfl | dsimp +zetaDelta only

theorem execSafeStatePortFence_inv (a1) {a2 : State} (ha2 : Inv a2) : NextInv (execSafeStatePortFence a1 a2) := by
  unfold execSafeStatePortFence
  repeat' first
      | with_reducible assumption | with_reducible apply nextInv_next | with_reducible apply fencePage_inv | intro _
      | with_reducible apply inv_ite | split | fail_if_no_progress with_reducible refine inv_frame ?_ rfl rfl rfl

theorem disableWay_inv {a1 : State} (a2) (a3) (ha1 : Inv a1) : Inv (disableWay a1 a2 a3) := by
  unfold disableWay
  repeat' first
      | with_reducible assumption | with_reducible apply evictWholeWay_inv | with_reducible apply raiseErr_inv
      | with_reducible apply orPreg_inv | intro _

theorem fenceUnless_inv (a1) (a2) {a3 : State} (ha3 : Inv a3) : Inv (fenceUnless a1 a2 a3) := by
  unfold fenceUnless
  repeat' first
      | with_reducible assumption | with_reducible apply fencePage_inv | intro _ | with_reducible apply inv_ite | split

theorem latchFirst_inv {a1 : State} (a2) (a3) (a4) (a5) (ha1 : Inv a1) : Inv (latchFirst a1 a2 a3 a4 a5) := by
  unfold latchFirst
  repeat' first
      | with_reducible assumption | with_reducible apply orPreg_inv | with_reducible apply setPreg64_inv | with_reducible apply setPreg_inv
      | extract_lets | intro _ | with_reducible apply inv_ite | split | dsimp +zetaDelta only

theorem inv_queue {s : State} (q) (hq : q.length ≤ 512) (h : Inv s) : Inv { s with fc := { s.fc with queue := q } } :=
  ⟨h.regs, h.staged, h.captured, h.dm, h.poison, h.bar4, hq, h.inq, h.report⟩

theorem mapAt_length {α : Type} (f : α → α) (l : List α) (i : Nat) : (mapAt f l i).length = l.length := by
  induction l generalizing i with
  | nil => rfl
  | cons a l ih =>
    cases i with
    | zero => rfl
    | succ i => simp only [mapAt, List.length_cons, ih]

theorem addRecord_inv {s : State} (r full) (h : Inv s) : Inv (addRecord s r full) := by
  unfold addRecord
  extract_lets _ s1 _ s2
  have h1 : Inv s1 := offerEntry_inv _ (cntPreg_inv _ _ _ (inv_frame h rfl rfl rfl))
  have h2 : Inv s2 := cntPreg_inv _ _ _ h1
  refine inv_ite (fun hl => inv_queue _ ?_ h1) (fun _ => inv_ite (fun _ => h2) (fun _ => raiseErr_inv _ _ _ h2))
  simp only [List.length_append, List.length_singleton]
  omega

theorem recordMsg_inv {s : State} (m id sev addr reacts merges) (h : Inv s) : Inv (recordMsg s m id sev addr reacts merges) := by
  unfold recordMsg
  generalize (if merges then s.fc.queue.findIdx? (mergesInto s m) else none) = o
  cases o with
  | some i => exact offer_inv _ _ _ _ (cntPreg_inv _ _ _ (inv_queue _ (by rw [mapAt_length]; exact h.queue) (latchFirst_inv _ _ _ _ h)))
  | none => exact addRecord_inv _ _ (latchFirst_inv _ _ _ _ h)

theorem react_inv {s : State} (sev plan) (hp : ∀ g, plan = some g → ∀ t, Inv t → Inv (g t)) (h : Inv s) : Inv (react s sev plan) := by
  unfold react
  split
  · exact h
  · exact raiseInt_inv _ _ h
  · split
    · next g => exact raiseInt_inv _ _ (hp g rfl _ h)
    · exact raiseInt_inv _ _ (raiseErr_inv _ _ _ h)
  · exact inv_ite (fun _ => h) (fun _ => raiseInt_inv _ _ h)

theorem fencePlan_inv {s : State} {m r g} (hp : fencePlan s m r = some g) {t : State} (h : Inv t) : Inv (g t) := by
  unfold fencePlan at hp
  split at hp
  · cases hp
  · generalize pageOfType (msgType m) (msgInst m) = o at hp
    rcases o with _ | p
    · cases hp
    · cases p
      case gc | cl | mc | xl | ep => cases hp; exact fenceUnless_inv _ _ h
      case al =>
        simp only at hp
        split at hp
        · cases hp; exact fenceUnless_inv _ _ h
        · cases hp
      case dc n =>
        simp only at hp
        split at hp
        · cases hp
        · split at hp
          · cases hp; exact h
          · split at hp
            · cases hp
            · cases hp; exact disableWay_inv _ _ h
      all_goals cases hp

theorem takeMsg_inv {s : State} (m released) (h : Inv s) : Inv (takeMsg s m released).1 := by
  unfold takeMsg
  split
  · extract_lets s1 sev s2
    have h1 : Inv s1 := noteErr_inv _ _ _ h
    split
    · exact h1
    · exact react_inv _ none (by intro g hg; cases hg) (recordMsg_inv _ _ _ _ _ _ (raiseInt_inv _ _ h1))
  · split
    · exact raiseErr_inv _ _ _ h
    · extract_lets sev plan s1
      refine react_inv _ _ ?_ (recordMsg_inv _ _ _ _ _ _ h)
      intro g hg t ht
      have hg' : (if sev = 2 then fencePlan s m released else none) = some g := hg
      split at hg'
      · exact fencePlan_inv hg' ht
      · cases hg'

theorem collect_inv {a1 : State} (a2) (a3) (a4) (ha1 : Inv a1) : Inv (collect a1 a2 a3 a4) := by
  unfold collect
  repeat' first
      | with_reducible assumption | with_reducible apply takeMsg_inv | with_reducible apply enterSafe_inv
      | with_reducible apply entriesInOrder_inv | extract_lets | with_reducible apply foldl_inv | with_reducible apply foldl_inv1 | intro _
      | with_reducible apply inv_ite | split | fail_if_no_progress with_reducible refine inv_frame ?_ rfl rfl rfl | dsimp +zetaDelta only

theorem execFaultMessage_inv (a1) (a2) (a3) {a4 : State} (ha4 : Inv a4) : NextInv (execFaultMessage a1 a2 a3 a4) := by
  unfold execFaultMessage
  repeat' first
      | with_reducible assumption | with_reducible apply nextInv_next | with_reducible apply collect_inv | intro _

theorem fcCtrlWrite_inv {a1 : State} (a2) (ha1 : Inv a1) : Inv (fcCtrlWrite a1 a2) := by
  unfold fcCtrlWrite
  repeat' first
      | with_reducible assumption | with_reducible apply enterSafe_inv | with_reducible apply pageWriteGo_inv | intro _

theorem execSafe_inv (a1) {a2 : State} (ha2 : Inv a2) : NextInv (execSafe a1 a2) := by
  unfold execSafe
  repeat' first
      | with_reducible assumption | with_reducible apply nextInv_next | with_reducible apply fcCtrlWrite_inv | intro _

theorem fcQWrite_inv {s : State} (v) (h : Inv s) : Inv (fcQWrite s v) := by
  unfold fcQWrite
  extract_lets w _ _ s1
  have hw : Inv w.st := pageWrite_inv _ _ _ _ h
  have h1 : Inv s1 := inv_ite (fun _ => goDone_inv _ _ _ (inv_queue (w.st.fc.queue.drop 1) (by have := hw.queue; rw [List.length_drop]; omega) hw)) (fun _ => hw)
  exact inv_ite (fun _ => goDone_inv _ _ _ (inv_queue _ (Nat.zero_le _) h1)) (fun _ => h1)

theorem execPop_inv (a1) {a2 : State} (ha2 : Inv a2) : NextInv (execPop a1 a2) := by
  unfold execPop
  repeat' first
      | with_reducible assumption | with_reducible apply nextInv_next | with_reducible apply fcQWrite_inv | intro _

theorem execEmpty_inv (a1) {a2 : State} (ha2 : Inv a2) : NextInv (execEmpty a1 a2) := by
  unfold execEmpty
  repeat' first
      | with_reducible assumption | with_reducible apply nextInv_next | with_reducible apply fcQWrite_inv | intro _

theorem wdogKickWrite_inv {a1 : State} (a2) (ha1 : Inv a1) : Inv (wdogKickWrite a1 a2) := by
  unfold wdogKickWrite
  repeat' first
      | with_reducible assumption | with_reducible apply pageWriteGo_inv | intro _
      | fail_if_no_progress with_reducible refine inv_frame ?_ rfl rfl rfl

theorem execWdogKick_inv (a1) {a2 : State} (ha2 : Inv a2) : NextInv (execWdogKick a1 a2) := by
  unfold execWdogKick
  repeat' first
      | with_reducible assumption | with_reducible apply nextInv_next | with_reducible apply wdogKickWrite_inv | intro _

theorem execWdog_inv {a1 : State} (ha1 : Inv a1) : NextInv (execWdog a1) := by
  unfold execWdog
  repeat' first
      | with_reducible assumption | with_reducible apply nextInv_next | with_reducible apply raiseErr_inv | intro _
      | with_reducible apply inv_ite | split | fail_if_no_progress with_reducible refine inv_frame ?_ rfl rfl rfl

theorem aliveReadback_inv {a1 : State} (a2) (ha1 : Inv a1) : Inv (aliveReadback a1 a2) := by
  unfold aliveReadback
  repeat' first
      | with_reducible assumption | with_reducible apply raiseErr_inv | intro _
      | fail_if_no_progress with_reducible refine inv_frame ?_ rfl rfl rfl

theorem execAliveRb_inv (a1) {a2 : State} (ha2 : Inv a2) : NextInv (execAliveRb a1 a2) := by
  unfold execAliveRb
  repeat' first
      | with_reducible assumption | with_reducible apply nextInv_next | with_reducible apply aliveReadback_inv | intro _
      | with_reducible apply inv_ite | split | fail_if_no_progress with_reducible refine inv_frame ?_ rfl rfl rfl

theorem selfPe_inv {a1 : State} (ha1 : Inv a1) : Inv (selfPe a1) := by
  unfold selfPe
  repeat' first
      | with_reducible assumption | with_reducible apply enterSafe_inv | with_reducible apply noteErr_inv
      | with_reducible apply offerEntry_inv | with_reducible apply raiseInt_inv | with_reducible apply cntPreg_inv | extract_lets | intro _
      | with_reducible apply inv_ite | split | fail_if_no_progress with_reducible refine inv_frame ?_ rfl rfl rfl | dsimp +zetaDelta only

theorem execSelfPe_inv {a1 : State} (ha1 : Inv a1) : NextInv (execSelfPe a1) := by
  unfold execSelfPe
  repeat' first
      | with_reducible assumption | with_reducible apply nextInv_next | with_reducible apply selfPe_inv | intro _

theorem inject_inv {a1 : State} (a2) (ha1 : Inv a1) : Inv (inject a1 a2) := by
  unfold inject
  repeat' first
      | with_reducible assumption | with_reducible apply raiseErrX_inv | extract_lets | with_reducible apply foldl_inv
      | with_reducible apply foldl_inv1 | intro _ | with_reducible apply inv_ite | split
      | fail_if_no_progress with_reducible refine inv_frame ?_ rfl rfl rfl | dsimp +zetaDelta only

theorem execFaultInjection_inv (a1) {a2 : State} (ha2 : Inv a2) : NextInv (execFaultInjection a1 a2) := by
  unfold execFaultInjection
  repeat' first
      | with_reducible assumption | with_reducible apply nextInv_next | with_reducible apply inject_inv | intro _
      | with_reducible apply inv_ite | split

end Sys2Proof.Machine
end

