-- ==== Sys2Proof/Laws/InvXbPath.lean ====
section
/-! SUPPORT. Every operation of Machine/XbPath.lean keeps the invariant. -/

set_option Elab.async false

namespace Sys2Proof.Machine

open Sys2Proof

theorem xbWrite_inv {a1 : State} (a2) (a3) (ha1 : Inv a1) : Inv (xbWrite a1 a2 a3) := by
  unfold xbWrite
  repeat' first
      | with_reducible assumption | with_reducible apply pageWrite_inv | with_reducible apply setPreg_inv | extract_lets
      | with_reducible apply foldl_inv | with_reducible apply foldl_inv1 | intro _ | with_reducible apply inv_ite | split
      | fail_if_no_progress with_reducible refine inv_frame ?_ rfl rfl rfl | dsimp +zetaDelta only

theorem setWaiting_inv {a1 : State} (a2) (a3) (ha1 : Inv a1) : Inv (setWaiting a1 a2 a3) := by
  unfold setWaiting
  repeat' first
      | with_reducible assumption | intro _ | fail_if_no_progress with_reducible refine inv_frame ?_ rfl rfl rfl

theorem xbStall_inv {a1 : State} (a2) (a3) (ha1 : Inv a1) : Inv (xbStall a1 a2 a3) := by
  unfold xbStall
  repeat' first
      | with_reducible assumption | intro _ | fail_if_no_progress with_reducible refine inv_frame ?_ rfl rfl rfl

theorem xbEnter_inv {a1 : State} (a2) (a3) (a4) (ha1 : Inv a1) : Inv (xbEnter a1 a2 a3 a4) := by
  unfold xbEnter
  repeat' first
      | with_reducible assumption | with_reducible apply xbStall_inv | with_reducible apply setWaiting_inv | extract_lets | intro _
      | with_reducible apply inv_ite | split | dsimp +zetaDelta only

theorem xbArrive_inv (a1) {a2 : State} (a3) (ha2 : Inv a2) : Inv (xbArrive a1 a2 a3) := by
  unfold xbArrive
  repeat' first
      | with_reducible assumption | with_reducible apply xbEnter_inv | with_reducible apply xbStall_inv | with_reducible apply raiseErr_inv
      | with_reducible apply emit_inv | with_reducible apply cntPreg_inv | intro _ | with_reducible apply inv_ite | split
      | fail_if_no_progress with_reducible refine inv_frame ?_ rfl rfl rfl

theorem xbRetry_inv {a1 : State} (a2) (ha1 : Inv a1) : Inv (xbRetry a1 a2) := by
  unfold xbRetry
  repeat' first
      | with_reducible assumption | with_reducible apply xbArrive_inv | extract_lets | with_reducible apply foldl_inv
      | with_reducible apply foldl_inv1 | intro _ | fail_if_no_progress with_reducible refine inv_frame ?_ rfl rfl rfl
      | dsimp +zetaDelta only

theorem xbRelease_inv {a1 : State} (a2) (ha1 : Inv a1) : Inv (xbRelease a1 a2) := by
  unfold xbRelease
  repeat' first
      | with_reducible assumption | with_reducible apply setWaiting_inv | with_reducible apply emit_inv | extract_lets
      | with_reducible apply foldl_inv | with_reducible apply foldl_inv1 | intro _ | with_reducible apply inv_ite | split
      | fail_if_no_progress with_reducible refine inv_frame ?_ rfl rfl rfl | dsimp +zetaDelta only

theorem xbCycle_inv {a1 : State} (a2) (a3) (ha1 : Inv a1) : Inv (xbCycle a1 a2 a3) := by
  unfold xbCycle
  repeat' first
      | with_reducible assumption | with_reducible apply xbRelease_inv | with_reducible apply xbRetry_inv
      | with_reducible apply xbArrive_inv | with_reducible apply setWaiting_inv | extract_lets | with_reducible apply foldl_inv
      | with_reducible apply foldl_inv1 | intro _ | with_reducible apply inv_ite | split
      | fail_if_no_progress with_reducible refine inv_frame ?_ rfl rfl rfl | dsimp +zetaDelta only

theorem execXbArbitration_inv (a1) (a2) {a3 : State} (ha3 : Inv a3) : NextInv (execXbArbitration a1 a2 a3) := by
  unfold execXbArbitration
  repeat' first
      | with_reducible assumption | with_reducible apply nextInv_next | with_reducible apply xbCycle_inv | intro _

theorem execXbStarve_inv (a1) (a2) {a3 : State} (ha3 : Inv a3) : NextInv (execXbStarve a1 a2 a3) := by
  unfold execXbStarve
  repeat' first
      | with_reducible assumption | with_reducible apply nextInv_next | with_reducible apply raiseErr_inv | intro _
      | with_reducible apply inv_ite | split

theorem execHoldTimeout_inv (a1) {a2 : State} (ha2 : Inv a2) : NextInv (execHoldTimeout a1 a2) := by
  unfold execHoldTimeout
  repeat' first
      | with_reducible assumption | with_reducible apply nextInv_next | with_reducible apply raiseErr_inv | intro _
      | with_reducible apply inv_ite | split | dsimp +zetaDelta only

end Sys2Proof.Machine
end

