-- ==== Sys2Proof/Laws/InvRegisters.lean ====
section
/-! SUPPORT. Every operation of Machine/Registers.lean keeps the invariant. -/

set_option Elab.async false

namespace Sys2Proof.Machine

open Sys2Proof

theorem sdWatchWrite_inv {a1 : State} (a2) (ha1 : Inv a1) : Inv (sdWatchWrite a1 a2) := by
  unfold sdWatchWrite
  repeat' first
      | with_reducible assumption | with_reducible apply pageWrite_inv | with_reducible apply setPreg_inv | extract_lets | intro _
      | fail_if_no_progress with_reducible refine inv_frame ?_ rfl rfl rfl | dsimp +zetaDelta only

/-- The state of an optional one keeps the invariant. -/
def OptInv (o : Option State) : Prop := ∀ t, o = some t → Inv t

theorem optInv_none : OptInv none := by intro t h; cases h

theorem optInv_some {t : State} (h : Inv t) : OptInv (some t) := by intro u hu; cases hu; exact h

theorem optInv_ite {c : Prop} [Decidable c] {a b : Option State} (ha : OptInv a) (hb : OptInv b) : OptInv (if c then a else b) := by
  split
  · exact ha
  · exact hb

theorem optInv_map {f : Nat → State} (hf : ∀ i, Inv (f i)) (o : Option Nat) : OptInv (o.map f) := by
  intro t h
  cases o with
  | none => cases h
  | some i => cases h; exact hf i

theorem actWrite_inv {s : State} (p o v) (h : Inv s) : OptInv (actWrite s p o v) := by
  unfold actWrite
  cases p
  all_goals dsimp only
  all_goals repeat' first
      | with_reducible exact optInv_none | with_reducible apply optInv_ite | with_reducible apply optInv_some
      | with_reducible apply optInv_map | intro _ | with_reducible apply fcCtrlWrite_inv | with_reducible apply fcQWrite_inv
      | with_reducible apply wdogKickWrite_inv | with_reducible apply lbCtrlWrite_inv | with_reducible apply gpCtrlWrite_inv
      | with_reducible apply tdCtrlWrite_inv | with_reducible apply tdLenWrite_inv | with_reducible apply tdWinWrite_inv
      | with_reducible apply alPwrLimWrite_inv | with_reducible apply alDroopWrite_inv | with_reducible apply alEqForceWrite_inv
      | with_reducible apply alScrubPassMinWrite_inv | with_reducible apply xbWrite_inv | with_reducible apply vtCtxEnWrite_inv
      | with_reducible apply vtClearWrite_inv | with_reducible apply lwMoveWrite_inv | with_reducible apply budgetWrite_inv
      | with_reducible apply hdmCtrlWrite_inv | with_reducible apply frzCtrlWrite_inv | with_reducible apply vectorCtrlWrite_inv
      | with_reducible apply mbCtrlWrite_inv | with_reducible apply mlCmdWrite_inv | with_reducible apply sdWatchWrite_inv
      | with_reducible apply sdPartResetWrite_inv | with_reducible apply plRegionWrite_inv | with_reducible apply plMoveWrite_inv
      | with_reducible apply dcCmdWrite_inv | with_reducible apply ccCtrlWrite_inv | with_reducible apply mvCtrlWrite_inv
      | with_reducible apply xlCtrlWrite_inv | with_reducible apply xlSlotCtrlWrite_inv | with_reducible apply gcStartWrite_inv
      | with_reducible apply gcKickWrite_inv | with_reducible assumption

theorem pageRegWrite_inv {s : State} (p o v x) (h : Inv s) : Inv (pageRegWrite s p o v x) := by
  unfold pageRegWrite
  refine inv_ite (fun _ => ctrlWrite_inv _ _ h) (fun _ => inv_ite (fun _ => pageWrite_inv _ _ _ _ h) (fun _ => ?_))
  cases ha : actWrite s p o v with
  | some t => exact actWrite_inv p o v h t ha
  | none => exact pageWrite_inv _ _ _ _ h

theorem bar0Write_inv {a1 : State} (a2) (a3) (a4) (ha1 : Inv a1) : Inv (bar0Write a1 a2 a3 a4) := by
  unfold bar0Write
  repeat' first
      | with_reducible assumption | with_reducible apply pageRegWrite_inv | with_reducible apply stray_inv
      | with_reducible apply ttWindowWrite_inv | intro _ | split

theorem sizeWrite_inv {a1 : State} (a2) (ha1 : Inv a1) : Inv (sizeWrite a1 a2) := by
  unfold sizeWrite
  repeat' first
      | with_reducible assumption | with_reducible apply stray_inv | with_reducible apply pageErr_inv | extract_lets | intro _
      | with_reducible apply inv_ite | split | dsimp +zetaDelta only

theorem execRegisterWrite_inv (a1) {a2 : State} (ha2 : Inv a2) : NextInv (execRegisterWrite a1 a2) := by
  unfold execRegisterWrite
  repeat' first
      | with_reducible assumption | with_reducible apply nextInv_next | with_reducible apply sizeWrite_inv
      | with_reducible apply bar0Write_inv | with_reducible apply execDebugWindowAccess_inv | with_reducible apply cfgWrite_inv
      | with_reducible apply cfgGate_inv | with_reducible apply bar4Write_inv | intro _ | with_reducible apply inv_ite | split

theorem pairRead_inv {a1 : State} (a2) (a3) (ha1 : Inv a1) : Inv (pairRead a1 a2 a3) := by
  unfold pairRead
  repeat' first
      | with_reducible assumption | with_reducible apply emit_inv | with_reducible apply setPreg_inv | extract_lets | intro _
      | with_reducible apply inv_ite | split | with_reducible apply inv_captured
      | fail_if_no_progress with_reducible refine inv_frame ?_ rfl rfl rfl | dsimp +zetaDelta only

theorem execPairLoRead_inv (a1) (a2) {a3 : State} (ha3 : Inv a3) : NextInv (execPairLoRead a1 a2 a3) := by
  unfold execPairLoRead
  repeat' first
      | with_reducible assumption | with_reducible apply nextInv_next | with_reducible apply pairRead_inv | intro _
      | with_reducible apply inv_ite | split

theorem execPairHiWrite_inv (a1) (a2) {a3 : State} (ha3 : Inv a3) : NextInv (execPairHiWrite a1 a2 a3) := by
  unfold execPairHiWrite
  repeat' first
      | with_reducible assumption | with_reducible apply nextInv_next | with_reducible apply bar0Write_inv | intro _
      | with_reducible apply inv_ite | split

theorem execUnmappedAccess_inv (a1) (a2) {a3 : State} (ha3 : Inv a3) : NextInv (execUnmappedAccess a1 a2 a3) := by
  unfold execUnmappedAccess
  repeat' first
      | with_reducible assumption | with_reducible apply nextInv_next | with_reducible apply stray_inv | with_reducible apply emit_inv
      | intro _ | with_reducible apply inv_ite | split

theorem jtagReg_inv {a1 : State} (a2) (a3) (ha1 : Inv a1) : Inv (jtagReg a1 a2 a3) := by
  unfold jtagReg
  repeat' first
      | with_reducible assumption | with_reducible apply pageRegWrite_inv | with_reducible apply gpCtrlWrite_inv
      | with_reducible apply emit_inv | intro _ | with_reducible apply inv_ite | split

theorem execGpReg_inv (a1) (a2) {a3 : State} (ha3 : Inv a3) : NextInv (execGpReg a1 a2 a3) := by
  unfold execGpReg
  repeat' first
      | with_reducible assumption | with_reducible apply nextInv_next | with_reducible apply jtagReg_inv | with_reducible apply loadIr_inv
      | intro _ | with_reducible apply inv_ite | split

end Sys2Proof.Machine
end

