-- ==== Sys2Proof/Laws/PageRegs.lean ====
section
/-! SUPPORT. What interrupts, GO completions and errors leave in the registers of their page. -/

set_option Elab.async false

namespace Sys2Proof

open Sys2Proof.Machine

/-- An offset that is neither the one written nor the pending bits of MSI-X. -/
theorem irqEdge_reg (s : State) (p old) {a : Nat} (h : a ≠ pageBase .ep + 0xA00) : (irqEdge p old s).reg a = s.reg a := by
  have hm : ∀ l : List (Fin 32), ∀ t : State, (l.foldl sendMsix t).reg a = t.reg a := by
    intro l
    induction l with
    | nil => intro t; rfl
    | cons v l ih =>
      intro t
      rw [List.foldl_cons, ih]
      unfold sendMsix
      split_ifs
      · rfl
      · exact reg_setReg_other _ _ h
      all_goals rfl
  have hu : ∀ t : State, (updateInta t).reg a = t.reg a := by
    intro t
    unfold updateInta
    simp only
    split_ifs <;> rfl
  unfold irqEdge
  rw [hu]
  split_ifs
  · rfl
  · exact hm _ _

theorem irqEdge_preg (s : State) (p old) {q : Page} {k : Nat} (hk : k < 0x1000) (h : ¬(q = .ep ∧ k = 0xA00)) :
    preg (irqEdge p old s) q k = preg s q k :=
  irqEdge_reg _ _ _ (fun e => h (pageBase_inj (by omega) hk e))

/-- The interrupt bit is set. -/
theorem raiseInt_stat (s : State) (p b) : preg (raiseInt s p b) p 0x30 = preg s p 0x30 ||| one32 b := by
  unfold raiseInt
  rw [irqEdge_preg _ _ _ (by omega) (by omega)]
  exact preg_setPreg_same _ _ _ _

/-- No other register changes, but for the pending bits of MSI-X. -/
theorem raiseInt_preg (s : State) {p q : Page} (b) {k : Nat} (hk : k < 0x1000) (h : ¬(q = p ∧ k = 0x30)) (h2 : ¬(q = .ep ∧ k = 0xA00)) :
    preg (raiseInt s p b) q k = preg s q k := by
  unfold raiseInt
  rw [irqEdge_preg _ _ _ hk h2]
  unfold orPreg
  rw [preg_setPreg _ _ (by omega) hk, if_neg h]

theorem offerEntry_reg (s : State) (e) {a : Nat} (h : a ≠ pageBase .lb + 0x11C) : (offerEntry s e).reg a = s.reg a := by
  unfold offerEntry
  split
  · rfl
  · exact reg_setReg_other _ _ h

/-- An entry offered to the logbook changes no register but LB_LOST. -/
theorem offerEntry_preg (s : State) (e) {q : Page} {k : Nat} (hk : k < 0x1000) (h : ¬(q = .lb ∧ k = 0x11C)) :
    preg (offerEntry s e) q k = preg s q k :=
  offerEntry_reg _ _ (fun e => h (pageBase_inj (by omega) hk e))

theorem offer_preg (s : State) (a b c d) {q : Page} {k : Nat} (hk : k < 0x1000) (h : ¬(q = .lb ∧ k = 0x11C)) :
    preg (offer s a b c d) q k = preg s q k := offerEntry_preg _ _ hk h

/-- A GO action completes: its bit reads 0. -/
theorem goDone_bit (s : State) (p : Page) {o b : Nat} (ho : o < 0x1000) (h1 : o ≠ 0x30) (h2 : o ≠ 0x40) (h3 : ¬(p = .ep ∧ o = 0xA00)) :
    preg (goDone s p o b) p o = preg s p o &&& ~~~one32 b := by
  unfold goDone
  simp only
  split
  · unfold orPreg
    rw [raiseInt_preg _ _ ho (by simp [h1]) h3, preg_setPreg _ _ (by omega) ho, if_neg (by simp [h2])]
    exact preg_setPreg_same _ _ _ _
  · exact preg_setPreg_same _ _ _ _

/-- Other registers than its own, INT_STAT and GO_DONE are left alone. -/
theorem goDone_preg (s : State) {p q : Page} {o b k : Nat} (ho : o < 0x1000) (hk : k < 0x1000) (h : ¬(q = p ∧ k = o)) (h1 : ¬(q = p ∧ k = 0x30))
    (h2 : ¬(q = p ∧ k = 0x40)) (h3 : ¬(q = .ep ∧ k = 0xA00)) : preg (goDone s p o b) q k = preg s q k := by
  unfold goDone
  simp only
  split
  · unfold orPreg clrPreg
    rw [raiseInt_preg _ _ hk h1 h3, preg_setPreg _ _ (by omega) hk, if_neg h2, preg_setPreg _ _ ho hk, if_neg h]
  · unfold clrPreg
    rw [preg_setPreg _ _ ho hk, if_neg h]

/-- A detected error sets its ERR_STAT bit. -/
theorem noteErr_stat (s : State) (p : Page) (src addr) : preg (noteErr s p src addr) p 0x10 = preg s p 0x10 ||| one32 src := by
  have h : ∀ t : State, preg (cntPreg (orPreg t p 0x10 (one32 src)) p 0x24 1) p 0x10 = preg t p 0x10 ||| one32 src := by
    intro t
    unfold cntPreg orPreg
    rw [preg_setPreg_off _ _ _ (by omega)]
    exact preg_setPreg_same _ _ _ _
  unfold noteErr
  simp only
  split
  · rw [preg_setPreg_off _ _ _ (by omega), h]
  · unfold setPreg64
    rw [preg_setPreg_off _ _ _ (by omega), preg_setPreg_off _ _ _ (by omega), preg_setPreg_off _ _ _ (by omega), h]

/-- Registers that recording an error may change: ERR_STAT, ERR_FIRST, ERR_CNT, ERR_ADDR and INT_STAT. -/
def errReg (k : Nat) : Bool := k == 0x10 || k == 0x20 || k == 0x24 || k == 0x28 || k == 0x2C || k == 0x30

theorem noteErr_preg (s : State) {p q : Page} (src addr) {k : Nat} (hk : k < 0x1000) (h : q = p → errReg k = false) :
    preg (noteErr s p src addr) q k = preg s q k := by
  have e : ∀ (t : State) (o : Nat) (v : W32), o < 0x1000 → errReg o = true → preg (setPreg t p o v) q k = preg t q k := by
    intro t o v ho hr
    rw [preg_setPreg _ _ ho hk, if_neg]
    rintro ⟨rfl, rfl⟩
    rw [h rfl] at hr
    cases hr
  unfold noteErr cntPreg orPreg setPreg64
  simp only
  split
  · rw [e _ _ _ (by omega) rfl, e _ _ _ (by omega) rfl, e _ _ _ (by omega) rfl]
  · rw [e _ _ _ (by omega) rfl, e _ _ _ (by omega) rfl, e _ _ _ (by omega) rfl, e _ _ _ (by omega) rfl, e _ _ _ (by omega) rfl]

theorem raiseErr_stat (s : State) (p : Page) (src addr) : preg (raiseErr s p src addr) p 0x10 = preg s p 0x10 ||| one32 src := by
  unfold raiseErr raiseErrX
  simp only
  split
  · exact noteErr_stat _ _ _ _
  · rw [raiseInt_preg _ _ (by omega) (by simp) (by simp)]
    exact noteErr_stat _ _ _ _

theorem raiseErr_preg (s : State) {p q : Page} (src addr) {k : Nat} (hk : k < 0x1000) (h : q = p → errReg k = false)
    (h2 : ¬(q = .ep ∧ k = 0xA00)) : preg (raiseErr s p src addr) q k = preg s q k := by
  unfold raiseErr raiseErrX
  simp only
  split
  · exact noteErr_preg _ _ _ hk h
  · rw [raiseInt_preg _ _ hk (by rintro ⟨rfl, rfl⟩; exact absurd (h rfl) (by decide)) h2]
    exact noteErr_preg _ _ _ hk h

/-- The write of a whole register that is no half of a pair: its access codes decide. -/
theorem pageWrite_eq {s : State} {p : Page} {o : Nat} {row : RegRow} (v same : W32) (hl : bit (preg s p 0x44) 0 = false ∨ lockExempt o v = true)
    (hr : rowOf p o = some row) (hp : row.pair = false) (hq : ∀ lo, 4 ≤ o → rowOf p (o - 4) = some lo → lo.pair = false) :
    pageWrite s p o v same =
      ⟨wrStore s p o (wrReg s p o row v same), (wrReg s p o row v same).go, true, decide ((wrReg s p o row v same).rej ≠ 0)⟩ := by
  have hc : (bit (preg s p 0x44) 0 && !lockExempt o v) = false := by
    rcases hl with h | h <;> simp [h]
  unfold pageWrite
  rw [hc, hr]
  simp only [Bool.false_eq_true, if_false, hp]
  by_cases h4 : o < 4
  · rw [if_pos h4]
  · rw [if_neg h4]
    split
    · next lo h => rw [hq lo (by omega) h]; simp
    · rfl

/-- A write that nothing rejects leaves the new value. -/
theorem wrStore_preg (s : State) (p : Page) {o : Nat} {a : Wr} (ho : o < 0x1000) (hr : a.rej = 0) (h : ¬(p = .ep ∧ o = 0xA00))
    (h2 : ¬(p = .fc ∧ o = 0x108)) : preg (wrStore s p o a) p o = a.new := by
  unfold wrStore
  simp only [hr, if_true]
  rw [irqEdge_preg _ _ _ ho h, if_neg (by rintro ⟨e, f, _⟩; exact h2 ⟨e, f⟩)]
  exact preg_setPreg_same _ _ _ _

/-- It leaves every other register of pages, but for the pending bits of MSI-X. -/
theorem wrStore_preg_other (s : State) {p q : Page} {o k : Nat} {a : Wr} (ho : o < 0x1000) (hk : k < 0x1000) (hr : a.rej = 0)
    (hn : ¬(q = p ∧ k = o)) (h : ¬(q = .ep ∧ k = 0xA00)) (h2 : ¬(p = .fc ∧ o = 0x108)) : preg (wrStore s p o a) q k = preg s q k := by
  unfold wrStore
  simp only [hr, if_true]
  rw [irqEdge_preg _ _ _ hk h, if_neg (by rintro ⟨e, f, _⟩; exact h2 ⟨e, f⟩), preg_setPreg _ _ ho hk, if_neg hn]

end Sys2Proof
end

