-- ==== Sys2Proof/Laws/KeepBase.lean ====
section
/-! SUPPORT. How the Keep files prove what a command leaves alone. -/

set_option Elab.async false

namespace Sys2Proof

open Sys2Proof.Machine

theorem Part.same_refl (q : Part) (s : State) : q.same s s := by
  cases q <;> first | rfl | exact ⟨rfl, rfl⟩ | exact fun _ _ _ _ _ _ => rfl | exact fun _ _ _ => rfl

theorem Part.same_trans {q : Part} {s t u : State} (h : q.same s t) (k : q.same t u) : q.same s u := by
  cases q
  case page c => exact fun p o a b d e => (k p o a b d e).trans (h p o a b d e)
  case tt => exact fun id o ho => (k id o ho).trans (h id o ho)
  case dm | sd => exact ⟨k.1.trans h.1, k.2.trans h.2⟩
  all_goals exact Eq.trans k h

theorem Keeps.refl (P : List Part) (s : State) : Keeps P s s := fun q _ => q.same_refl s

theorem Keeps.trans {P : List Part} {s t u : State} (h : Keeps P s t) (k : Keeps P t u) : Keeps P s u :=
  fun q hq => Part.same_trans (h q hq) (k q hq)

theorem Keeps.mono {P Q : List Part} {s t : State} (h : Keeps P s t) (hs : ∀ q ∈ P, q ∈ Q) : Keeps Q s t :=
  fun q hq => h q (fun hm => hq (hs q hm))

end Sys2Proof

namespace Sys2Proof.Machine

open Sys2Proof

/-- The parts not listed are the same: what a plain update has to show. -/
structure Stays (P : List Part) (s t : State) : Prop where
  same : ∀ q, q ∉ P → q.same s t

theorem parts_in {P L K : List Part} (hP : ∀ q ∈ L, q ∈ P) (h : ∀ q ∈ K, q ∈ L := by decide) : ∀ q ∈ K, q ∈ P := fun q hq => hP q (h q hq)

theorem lt_side {a b : Nat} (h : a < b) : a < b := h

theorem le_side {a b : Nat} (h : a ≤ b) : a ≤ b := h

theorem page_in {P : List Part} {c : PageClass} {p : Page} (h : Part.page c ∈ P) (e : classOf p = c) : Part.page (classOf p) ∈ P := e ▸ h

theorem off_small {b m : Nat} (v : W32) (i n : Nat) (h : b + m * (2 ^ n - 1) < 0x1000 := by decide) : b + m * fld v i n < 0x1000 := by
  have hl : fld v i n ≤ 2 ^ n - 1 := by unfold fld; have := (v.extractLsb' i n).isLt; omega
  have := Nat.mul_le_mul_left m hl
  omega

/-- A plain update of units. -/
theorem keeps_mk {P : List Part} {s e : State} {pending out fresh staged captured tide cores mesh fares locks sdChanged sdArmed clusters mailboxes bar4
    xb ctxs drains dm poison slices lw cxl frz ports eqs scrubs pl fc lb gp mod boot} (h : Keeps P s e)
    (hk : Stays P e (State.mk pending out fresh e.regs staged captured tide cores mesh fares locks sdChanged sdArmed clusters mailboxes
      bar4 xb ctxs drains dm poison slices lw cxl frz ports eqs scrubs pl fc lb gp mod boot)) :
    Keeps P s (State.mk pending out fresh e.regs staged captured tide cores mesh fares locks sdChanged sdArmed clusters mailboxes bar4 xb ctxs drains
      dm poison slices lw cxl frz ports eqs scrubs pl fc lb gp mod boot) :=
  h.trans hk.same

theorem keeps_ite {P : List Part} {s : State} {c : Prop} [Decidable c] {t u : State} (ht : c → Keeps P s t) (hu : ¬c → Keeps P s u) :
    Keeps P s (if c then t else u) := by
  split
  · exact ht ‹_›
  · exact hu ‹_›

theorem keeps_foldl {P : List Part} {s : State} {α : Type} {g : State → α → State} (hg : ∀ t a, Keeps P s t → Keeps P s (g t a)) (l : List α) {t : State}
    (h : Keeps P s t) : Keeps P s (l.foldl g t) := by
  induction l generalizing t with
  | nil => exact h
  | cons a l ih => exact ih (hg t a h)

theorem keeps_range {P : List Part} {s : State} {g : State → Nat → State} (n : Nat) (hg : ∀ t k, k < n → Keeps P s t → Keeps P s (g t k)) {t : State}
    (h : Keeps P s t) : Keeps P s ((List.range n).foldl g t) := by
  induction n with
  | zero => exact h
  | succ n ih =>
    rw [List.range_succ, List.foldl_append]
    exact hg _ _ (by omega) (ih fun t k hk => hg t k (by omega))

theorem keeps_foldl1 {P : List Part} {s : State} {α β : Type} {g : State × β → α → State × β} (hg : ∀ t a, Keeps P s t.1 → Keeps P s (g t a).1)
    (l : List α) {t : State × β} (h : Keeps P s t.1) : Keeps P s (l.foldl g t).1 := by
  induction l generalizing t with
  | nil => exact h
  | cons a l ih => exact ih (hg t a h)

theorem reported_keeps {ps : List Page} {P : List Part} {s t : State} (h : Reported ps s t) (hp : ∀ p ∈ ps, Part.page (classOf p) ∈ P) : Keeps P s t := by
  obtain ⟨h1, h2⟩ := h
  intro q hq
  cases q
  case page c =>
    intro p o hc ho ha hb
    refine h2 _ (fun p' hp' e => ?_) (fun e => ha (pageBase_inj (by omega) ho e)) (fun e => hb (pageBase_inj (by omega) ho e))
    rw [pageAt_base p ho] at e
    cases e
    exact hq (hc ▸ hp p hp')
  case tt =>
    intro id o ho
    have hn : pageAt (ttBase id + o) = none := by
      have hd : 0x1000 ≤ (ttBase id + o) / 0x1000 := by unfold ttBase; omega
      unfold pageAt
      simp only
      repeat rw [if_neg (by omega)]
    have hlt : ∀ p k, k < 0x1000 → ttBase id + o ≠ pageBase p + k := by
      intro p k hk e
      rw [e, pageAt_base p hk] at hn
      cases hn
    exact h2 _ (fun p _ e => by rw [hn] at e; cases e) (hlt _ _ (by omega)) (hlt _ _ (by omega))
  all_goals rw [h1]
  all_goals first | rfl | exact ⟨rfl, rfl⟩

theorem setPreg_keeps {P : List Part} {s t : State} (p o v) (ho : o < 0x1000) (hp : Part.page (classOf p) ∈ P) (h : Keeps P s t) :
    Keeps P s (setPreg t p o v) :=
  h.trans (reported_keeps (setPreg_reported (ps := [p]) t v ho (by simp)) (by simpa using hp))

theorem setPreg64_keeps {P : List Part} {s t : State} (p o v) (ho : o + 4 < 0x1000) (hp : Part.page (classOf p) ∈ P) (h : Keeps P s t) :
    Keeps P s (setPreg64 t p o v) :=
  h.trans (reported_keeps (setPreg64_reported (ps := [p]) t v ho (by simp)) (by simpa using hp))

theorem orPreg_keeps {P : List Part} {s t : State} (p o v) (ho : o < 0x1000) (hp : Part.page (classOf p) ∈ P) (h : Keeps P s t) :
    Keeps P s (orPreg t p o v) := setPreg_keeps _ _ _ ho hp h

theorem clrPreg_keeps {P : List Part} {s t : State} (p o v) (ho : o < 0x1000) (hp : Part.page (classOf p) ∈ P) (h : Keeps P s t) :
    Keeps P s (clrPreg t p o v) := setPreg_keeps _ _ _ ho hp h

theorem cntPreg_keeps {P : List Part} {s t : State} (p o v) (ho : o < 0x1000) (hp : Part.page (classOf p) ∈ P) (h : Keeps P s t) :
    Keeps P s (cntPreg t p o v) := setPreg_keeps _ _ _ ho hp h

theorem cntPreg64_keeps {P : List Part} {s t : State} (p o v) (ho : o + 4 < 0x1000) (hp : Part.page (classOf p) ∈ P) (h : Keeps P s t) :
    Keeps P s (cntPreg64 t p o v) := setPreg64_keeps _ _ _ ho hp h

theorem emit_keeps {P : List Part} {s t : State} (x) (h : Keeps P s t) : Keeps P s (emit t x) :=
  h.trans (reported_keeps (emit_reported [] t x) (by simp))

theorem takeFresh_keeps {P : List Part} {s t : State} (h : Keeps P s t) : Keeps P s (takeFresh t).2 :=
  h.trans (reported_keeps (takeFresh_reported [] t) (by simp))

theorem sendMsix_keeps {P : List Part} {s t : State} (x) (h : Keeps P s t) : Keeps P s (sendMsix t x) :=
  h.trans (reported_keeps (sendMsix_reported [] t x) (by simp))

theorem updateInta_keeps {P : List Part} {s t : State} (h : Keeps P s t) : Keeps P s (updateInta t) :=
  h.trans (reported_keeps (updateInta_reported [] t) (by simp))

theorem irqEdge_keeps {P : List Part} {s t : State} (p x) (h : Keeps P s t) : Keeps P s (irqEdge p x t) :=
  h.trans (reported_keeps (irqEdge_reported [] p x t) (by simp))

theorem raiseInt_keeps {P : List Part} {s t : State} (p b) (hp : Part.page (classOf p) ∈ P) (h : Keeps P s t) : Keeps P s (raiseInt t p b) :=
  h.trans (reported_keeps (raiseInt_reported (ps := [p]) t b (by simp)) (by simpa using hp))

theorem goDone_keeps {P : List Part} {s t : State} (p o b) (ho : o < 0x1000) (hp : Part.page (classOf p) ∈ P) (h : Keeps P s t) :
    Keeps P s (goDone t p o b) :=
  h.trans (reported_keeps (goDone_reported (ps := [p]) t b ho (by simp)) (by simpa using hp))

theorem pageErr_keeps {P : List Part} {s t : State} (p m o) (hp : Part.page (classOf p) ∈ P) (h : Keeps P s t) : Keeps P s (pageErr t p m o) :=
  h.trans (reported_keeps (pageErr_reported (ps := [p]) t m o (by simp)) (by simpa using hp))

theorem pageErrMore_keeps {P : List Part} {s t : State} (p m) (hp : Part.page (classOf p) ∈ P) (h : Keeps P s t) : Keeps P s (pageErrMore t p m) :=
  h.trans (reported_keeps (pageErrMore_reported (ps := [p]) t m (by simp)) (by simpa using hp))

theorem rejectEnable_keeps {P : List Part} {s t : State} (p o b) (ho : o < 0x1000) (hp : Part.page (classOf p) ∈ P) (h : Keeps P s t) :
    Keeps P s (rejectEnable t p o b) :=
  h.trans (reported_keeps (rejectEnable_reported (ps := [p]) t b ho (by simp)) (by simpa using hp))

theorem offerEntry_keeps {P : List Part} {s t : State} (e) (h : Keeps P s t) : Keeps P s (offerEntry t e) :=
  h.trans (reported_keeps (offerEntry_reported [] t e) (by simp))

theorem offer_keeps {P : List Part} {s t : State} (a b c d) (h : Keeps P s t) : Keeps P s (offer t a b c d) := offerEntry_keeps _ h

theorem logBootWith_keeps {P : List Part} {s t : State} (a b c d) (h : Keeps P s t) : Keeps P s (logBootWith t a b c d) := offer_keeps _ _ _ _ h

theorem logBoot_keeps {P : List Part} {s t : State} (a b c) (h : Keeps P s t) : Keeps P s (logBoot t a b c) :=
  h.trans (reported_keeps (logBoot_reported [] t a b c) (by simp))

theorem noteErr_keeps {P : List Part} {s t : State} (p a b) (hp : Part.page (classOf p) ∈ P) (h : Keeps P s t) : Keeps P s (noteErr t p a b) :=
  h.trans (reported_keeps (noteErr_reported (ps := [p]) t a b (by simp)) (by simpa using hp))

theorem raiseErrX_keeps {P : List Part} {s t : State} (p a b c l i) (hp : Part.page (classOf p) ∈ P) (h : Keeps P s t) :
    Keeps P s (raiseErrX t p a b c l i) :=
  h.trans (reported_keeps (raiseErrX_reported (ps := [p]) t a b c l i (by simp)) (by simpa using hp))

theorem raiseErr_keeps {P : List Part} {s t : State} (p a b) (hp : Part.page (classOf p) ∈ P) (h : Keeps P s t) : Keeps P s (raiseErr t p a b) :=
  raiseErrX_keeps _ _ _ _ _ _ hp h

theorem raiseErrs_keeps {P : List Part} {s t : State} (p l) (hp : Part.page (classOf p) ∈ P) (h : Keeps P s t) : Keeps P s (raiseErrs t p l) :=
  h.trans (reported_keeps (raiseErrs_reported (ps := [p]) t l (by simp)) (by simpa using hp))

theorem wrStore_keeps {P : List Part} {s t : State} (p o a) (ho : o < 0x1000) (hp : Part.page (classOf p) ∈ P) (h : Keeps P s t) :
    Keeps P s (wrStore t p o a) :=
  h.trans (reported_keeps (wrStore_reported (ps := [p]) t a ho (by simp)) (by simpa using hp))

theorem staged_keeps {P : List Part} {s t : State} (x) (hs : Part.staged ∈ P) (h : Keeps P s t) : Keeps P s { t with staged := x } := by
  refine keeps_mk h ⟨fun q hq => ?_⟩
  cases q
  case staged => exact absurd hs hq
  all_goals first | rfl | exact ⟨rfl, rfl⟩ | exact fun _ _ _ _ _ _ => rfl | exact fun _ _ _ => rfl

theorem pageWrite_keeps {P : List Part} {s t : State} (p o v x) (ho : o < 0x1000) (hs : Part.staged ∈ P) (hp : Part.page (classOf p) ∈ P)
    (h : Keeps P s t) : Keeps P s (pageWrite t p o v x).st := by
  unfold pageWrite
  split
  · exact pageErr_keeps _ _ _ hp h
  · split
    · exact pageErr_keeps _ _ _ hp h
    · split
      · exact staged_keeps _ hs h
      · split
        · split
          · exact wrStore_keeps _ _ _ ho hp (setPreg_keeps _ _ _ (by omega) hp h)
          · exact wrStore_keeps _ _ _ ho hp h
        · exact wrStore_keeps _ _ _ ho hp h

theorem pageWriteGo_keeps {P : List Part} {s t : State} (p o v b) {g : State → State} (hg : ∀ u, Keeps P s u → Keeps P s (g u)) (ho : o < 0x1000)
    (hs : Part.staged ∈ P) (hp : Part.page (classOf p) ∈ P) (h : Keeps P s t) : Keeps P s (pageWriteGo t p o v b g) := by
  have hw := pageWrite_keeps p o v 0 ho hs hp h
  unfold pageWriteGo
  exact keeps_ite (fun _ => goDone_keeps _ _ _ ho hp (hg _ hw)) (fun _ => hw)

theorem when_keeps {P : List Part} {s t : State} (b) {g : State → State} (hg : ∀ u, Keeps P s u → Keeps P s (g u)) (h : Keeps P s t) :
    Keeps P s (when b g t) := keeps_ite (fun _ => hg _ h) (fun _ => h)

/-- What a command that answers a next state leaves alone. -/
def NextKeeps (P : List Part) (s : State) (r : Res) : Prop :=
  match r with
  | .next t => Keeps P s t
  | _ => True

theorem nextKeeps_next {P : List Part} {s t : State} (h : Keeps P s t) : NextKeeps P s (.next t) := h

theorem nextKeeps_refused {P : List Part} {s : State} (r : Refusal) : NextKeeps P s (.refused r) := trivial

theorem sget_filter {α : Type} (d : Nat → α) (f : Nat × α → Bool) (l : Sparse α) {k : Nat} (h : ∀ v, f (k, v) = true) :
    sget d (l.filter f) k = sget d l k := by
  induction l with
  | nil => rfl
  | cons e l ih =>
    rcases e with ⟨a, v⟩
    simp only [List.filter_cons]
    by_cases ha : a = k
    · subst ha
      rw [if_pos (h v)]
      simp only [sget, if_pos]
    · by_cases hf : f (a, v) = true
      · rw [if_pos hf]
        simp only [sget, if_neg ha, ih]
      · rw [if_neg hf, ih]
        simp only [sget, if_neg ha]

/-- Dropping listed registers of one page. -/
theorem dropRegs_keeps {P : List Part} {s t : State} (p : Page) (f : Nat × W32 → Bool)
    (hf : ∀ a v, f (a, v) = false → pageBase p ≤ a ∧ a < pageBase p + 0x1000) (hp : Part.page (classOf p) ∈ P) (h : Keeps P s t) :
    Keeps P s { t with regs := t.regs.filter f } := by
  have key : ∀ a, (pageBase p ≤ a ∧ a < pageBase p + 0x1000 → False) → State.reg { t with regs := t.regs.filter f } a = t.reg a := fun a ha =>
    sget_filter _ _ _ fun v => by
      cases hv : f (a, v) with
      | true => rfl
      | false => exact absurd (hf a v hv) ha
  refine h.trans fun q hq => ?_
  cases q
  case page c =>
    intro p' o hc ho _ _
    refine key _ fun hr => hq ?_
    have e : pageBase p' + o = pageBase p + (pageBase p' + o - pageBase p) := by omega
    have := pageAt_base p' ho
    rw [e, pageAt_base p (by omega)] at this
    cases this
    exact hc ▸ hp
  case tt =>
    intro id o ho
    refine key _ fun hr => ?_
    have e : ttBase id + o = pageBase p + (ttBase id + o - pageBase p) := by omega
    have := pageAt_base p (o := ttBase id + o - pageBase p) (by omega)
    rw [← e] at this
    have hd : 0x1000 ≤ (ttBase id + o) / 0x1000 := by unfold ttBase; omega
    unfold pageAt at this
    simp only at this
    repeat rw [if_neg (by omega)] at this
    cases this
  all_goals first | rfl | exact ⟨rfl, rfl⟩

theorem put_out_keeps {P : List Part} {s t : State} (x) (h : Keeps P s t) : Keeps P s { t with out := x } :=
  keeps_mk h ⟨fun q _ => by cases q <;> first | rfl | exact ⟨rfl, rfl⟩ | exact fun _ _ _ _ _ _ => rfl | exact fun _ _ _ => rfl⟩

theorem put_fresh_keeps {P : List Part} {s t : State} (x) (h : Keeps P s t) : Keeps P s { t with fresh := x } :=
  keeps_mk h ⟨fun q _ => by cases q <;> first | rfl | exact ⟨rfl, rfl⟩ | exact fun _ _ _ _ _ _ => rfl | exact fun _ _ _ => rfl⟩

theorem put_pending_keeps {P : List Part} {s t : State} (x) (hp : Part.pending ∈ P) (h : Keeps P s t) : Keeps P s { t with pending := x } :=
  keeps_mk h ⟨fun q hq => by cases q <;> first | rfl | exact ⟨rfl, rfl⟩ | exact fun _ _ _ _ _ _ => rfl | exact fun _ _ _ => rfl | exact absurd hp hq⟩

theorem put_staged_keeps {P : List Part} {s t : State} (x) (hp : Part.staged ∈ P) (h : Keeps P s t) : Keeps P s { t with staged := x } :=
  keeps_mk h ⟨fun q hq => by cases q <;> first | rfl | exact ⟨rfl, rfl⟩ | exact fun _ _ _ _ _ _ => rfl | exact fun _ _ _ => rfl | exact absurd hp hq⟩

theorem put_captured_keeps {P : List Part} {s t : State} (x) (hp : Part.captured ∈ P) (h : Keeps P s t) : Keeps P s { t with captured := x } :=
  keeps_mk h ⟨fun q hq => by cases q <;> first | rfl | exact ⟨rfl, rfl⟩ | exact fun _ _ _ _ _ _ => rfl | exact fun _ _ _ => rfl | exact absurd hp hq⟩

theorem put_tide_keeps {P : List Part} {s t : State} (x) (hp : Part.tide ∈ P) (h : Keeps P s t) : Keeps P s { t with tide := x } :=
  keeps_mk h ⟨fun q hq => by cases q <;> first | rfl | exact ⟨rfl, rfl⟩ | exact fun _ _ _ _ _ _ => rfl | exact fun _ _ _ => rfl | exact absurd hp hq⟩

theorem put_cores_keeps {P : List Part} {s t : State} (x) (hp : Part.cores ∈ P) (h : Keeps P s t) : Keeps P s { t with cores := x } :=
  keeps_mk h ⟨fun q hq => by cases q <;> first | rfl | exact ⟨rfl, rfl⟩ | exact fun _ _ _ _ _ _ => rfl | exact fun _ _ _ => rfl | exact absurd hp hq⟩

theorem put_mesh_keeps {P : List Part} {s t : State} (x) (hp : Part.mesh ∈ P) (h : Keeps P s t) : Keeps P s { t with mesh := x } :=
  keeps_mk h ⟨fun q hq => by cases q <;> first | rfl | exact ⟨rfl, rfl⟩ | exact fun _ _ _ _ _ _ => rfl | exact fun _ _ _ => rfl | exact absurd hp hq⟩

theorem put_fares_keeps {P : List Part} {s t : State} (x) (hp : Part.fares ∈ P) (h : Keeps P s t) : Keeps P s { t with fares := x } :=
  keeps_mk h ⟨fun q hq => by cases q <;> first | rfl | exact ⟨rfl, rfl⟩ | exact fun _ _ _ _ _ _ => rfl | exact fun _ _ _ => rfl | exact absurd hp hq⟩

theorem put_locks_keeps {P : List Part} {s t : State} (x) (hp : Part.locks ∈ P) (h : Keeps P s t) : Keeps P s { t with locks := x } :=
  keeps_mk h ⟨fun q hq => by cases q <;> first | rfl | exact ⟨rfl, rfl⟩ | exact fun _ _ _ _ _ _ => rfl | exact fun _ _ _ => rfl | exact absurd hp hq⟩

theorem put_sdChanged_keeps {P : List Part} {s t : State} (x) (hp : Part.sd ∈ P) (h : Keeps P s t) : Keeps P s { t with sdChanged := x } :=
  keeps_mk h ⟨fun q hq => by cases q <;> first | rfl | exact ⟨rfl, rfl⟩ | exact fun _ _ _ _ _ _ => rfl | exact fun _ _ _ => rfl | exact absurd hp hq⟩

theorem put_sdArmed_keeps {P : List Part} {s t : State} (x) (hp : Part.sd ∈ P) (h : Keeps P s t) : Keeps P s { t with sdArmed := x } :=
  keeps_mk h ⟨fun q hq => by cases q <;> first | rfl | exact ⟨rfl, rfl⟩ | exact fun _ _ _ _ _ _ => rfl | exact fun _ _ _ => rfl | exact absurd hp hq⟩

theorem put_dm_keeps {P : List Part} {s t : State} (x) (hp : Part.dm ∈ P) (h : Keeps P s t) : Keeps P s { t with dm := x } :=
  keeps_mk h ⟨fun q hq => by cases q <;> first | rfl | exact ⟨rfl, rfl⟩ | exact fun _ _ _ _ _ _ => rfl | exact fun _ _ _ => rfl | exact absurd hp hq⟩

theorem put_poison_keeps {P : List Part} {s t : State} (x) (hp : Part.dm ∈ P) (h : Keeps P s t) : Keeps P s { t with poison := x } :=
  keeps_mk h ⟨fun q hq => by cases q <;> first | rfl | exact ⟨rfl, rfl⟩ | exact fun _ _ _ _ _ _ => rfl | exact fun _ _ _ => rfl | exact absurd hp hq⟩

theorem put_clusters_keeps {P : List Part} {s t : State} (x) (hp : Part.clusters ∈ P) (h : Keeps P s t) : Keeps P s { t with clusters := x } :=
  keeps_mk h ⟨fun q hq => by cases q <;> first | rfl | exact ⟨rfl, rfl⟩ | exact fun _ _ _ _ _ _ => rfl | exact fun _ _ _ => rfl | exact absurd hp hq⟩

theorem put_mailboxes_keeps {P : List Part} {s t : State} (x) (hp : Part.mailboxes ∈ P) (h : Keeps P s t) : Keeps P s { t with mailboxes := x } :=
  keeps_mk h ⟨fun q hq => by cases q <;> first | rfl | exact ⟨rfl, rfl⟩ | exact fun _ _ _ _ _ _ => rfl | exact fun _ _ _ => rfl | exact absurd hp hq⟩

theorem put_bar4_keeps {P : List Part} {s t : State} (x) (hp : Part.bar4 ∈ P) (h : Keeps P s t) : Keeps P s { t with bar4 := x } :=
  keeps_mk h ⟨fun q hq => by cases q <;> first | rfl | exact ⟨rfl, rfl⟩ | exact fun _ _ _ _ _ _ => rfl | exact fun _ _ _ => rfl | exact absurd hp hq⟩

theorem put_xb_keeps {P : List Part} {s t : State} (x) (hp : Part.xb ∈ P) (h : Keeps P s t) : Keeps P s { t with xb := x } :=
  keeps_mk h ⟨fun q hq => by cases q <;> first | rfl | exact ⟨rfl, rfl⟩ | exact fun _ _ _ _ _ _ => rfl | exact fun _ _ _ => rfl | exact absurd hp hq⟩

theorem put_ctxs_keeps {P : List Part} {s t : State} (x) (hp : Part.ctxs ∈ P) (h : Keeps P s t) : Keeps P s { t with ctxs := x } :=
  keeps_mk h ⟨fun q hq => by cases q <;> first | rfl | exact ⟨rfl, rfl⟩ | exact fun _ _ _ _ _ _ => rfl | exact fun _ _ _ => rfl | exact absurd hp hq⟩

theorem put_drains_keeps {P : List Part} {s t : State} (x) (hp : Part.drains ∈ P) (h : Keeps P s t) : Keeps P s { t with drains := x } :=
  keeps_mk h ⟨fun q hq => by cases q <;> first | rfl | exact ⟨rfl, rfl⟩ | exact fun _ _ _ _ _ _ => rfl | exact fun _ _ _ => rfl | exact absurd hp hq⟩

theorem put_slices_keeps {P : List Part} {s t : State} (x) (hp : Part.slices ∈ P) (h : Keeps P s t) : Keeps P s { t with slices := x } :=
  keeps_mk h ⟨fun q hq => by cases q <;> first | rfl | exact ⟨rfl, rfl⟩ | exact fun _ _ _ _ _ _ => rfl | exact fun _ _ _ => rfl | exact absurd hp hq⟩

theorem put_lw_keeps {P : List Part} {s t : State} (x) (hp : Part.lw ∈ P) (h : Keeps P s t) : Keeps P s { t with lw := x } :=
  keeps_mk h ⟨fun q hq => by cases q <;> first | rfl | exact ⟨rfl, rfl⟩ | exact fun _ _ _ _ _ _ => rfl | exact fun _ _ _ => rfl | exact absurd hp hq⟩

theorem put_cxl_keeps {P : List Part} {s t : State} (x) (hp : Part.cxl ∈ P) (h : Keeps P s t) : Keeps P s { t with cxl := x } :=
  keeps_mk h ⟨fun q hq => by cases q <;> first | rfl | exact ⟨rfl, rfl⟩ | exact fun _ _ _ _ _ _ => rfl | exact fun _ _ _ => rfl | exact absurd hp hq⟩

theorem put_frz_keeps {P : List Part} {s t : State} (x) (hp : Part.frz ∈ P) (h : Keeps P s t) : Keeps P s { t with frz := x } :=
  keeps_mk h ⟨fun q hq => by cases q <;> first | rfl | exact ⟨rfl, rfl⟩ | exact fun _ _ _ _ _ _ => rfl | exact fun _ _ _ => rfl | exact absurd hp hq⟩

theorem put_ports_keeps {P : List Part} {s t : State} (x) (hp : Part.ports ∈ P) (h : Keeps P s t) : Keeps P s { t with ports := x } :=
  keeps_mk h ⟨fun q hq => by cases q <;> first | rfl | exact ⟨rfl, rfl⟩ | exact fun _ _ _ _ _ _ => rfl | exact fun _ _ _ => rfl | exact absurd hp hq⟩

theorem put_eqs_keeps {P : List Part} {s t : State} (x) (hp : Part.eqs ∈ P) (h : Keeps P s t) : Keeps P s { t with eqs := x } :=
  keeps_mk h ⟨fun q hq => by cases q <;> first | rfl | exact ⟨rfl, rfl⟩ | exact fun _ _ _ _ _ _ => rfl | exact fun _ _ _ => rfl | exact absurd hp hq⟩

theorem put_scrubs_keeps {P : List Part} {s t : State} (x) (hp : Part.scrubs ∈ P) (h : Keeps P s t) : Keeps P s { t with scrubs := x } :=
  keeps_mk h ⟨fun q hq => by cases q <;> first | rfl | exact ⟨rfl, rfl⟩ | exact fun _ _ _ _ _ _ => rfl | exact fun _ _ _ => rfl | exact absurd hp hq⟩

theorem put_pl_keeps {P : List Part} {s t : State} (x) (hp : Part.pl ∈ P) (h : Keeps P s t) : Keeps P s { t with pl := x } :=
  keeps_mk h ⟨fun q hq => by cases q <;> first | rfl | exact ⟨rfl, rfl⟩ | exact fun _ _ _ _ _ _ => rfl | exact fun _ _ _ => rfl | exact absurd hp hq⟩

theorem put_fc_keeps {P : List Part} {s t : State} (x) (hp : Part.fc ∈ P) (h : Keeps P s t) : Keeps P s { t with fc := x } :=
  keeps_mk h ⟨fun q hq => by cases q <;> first | rfl | exact ⟨rfl, rfl⟩ | exact fun _ _ _ _ _ _ => rfl | exact fun _ _ _ => rfl | exact absurd hp hq⟩

theorem put_lb_keeps {P : List Part} {s t : State} (x) (hp : Part.lb ∈ P) (h : Keeps P s t) : Keeps P s { t with lb := x } :=
  keeps_mk h ⟨fun q hq => by cases q <;> first | rfl | exact ⟨rfl, rfl⟩ | exact fun _ _ _ _ _ _ => rfl | exact fun _ _ _ => rfl | exact absurd hp hq⟩

theorem put_gp_keeps {P : List Part} {s t : State} (x) (hp : Part.gp ∈ P) (h : Keeps P s t) : Keeps P s { t with gp := x } :=
  keeps_mk h ⟨fun q hq => by cases q <;> first | rfl | exact ⟨rfl, rfl⟩ | exact fun _ _ _ _ _ _ => rfl | exact fun _ _ _ => rfl | exact absurd hp hq⟩

theorem put_mod_keeps {P : List Part} {s t : State} (x) (hp : Part.mod ∈ P) (h : Keeps P s t) : Keeps P s { t with mod := x } :=
  keeps_mk h ⟨fun q hq => by cases q <;> first | rfl | exact ⟨rfl, rfl⟩ | exact fun _ _ _ _ _ _ => rfl | exact fun _ _ _ => rfl | exact absurd hp hq⟩

theorem put_boot_keeps {P : List Part} {s t : State} (x) (hp : Part.boot ∈ P) (h : Keeps P s t) : Keeps P s { t with boot := x } :=
  keeps_mk h ⟨fun q hq => by cases q <;> first | rfl | exact ⟨rfl, rfl⟩ | exact fun _ _ _ _ _ _ => rfl | exact fun _ _ _ => rfl | exact absurd hp hq⟩

end Sys2Proof.Machine
end

