-- ==== Sys2Proof/Laws/KeepOps.lean ====
section
/-! SUPPORT. What the operations of Machine/Ops.lean leave alone. -/

set_option Elab.async false

namespace Sys2Proof.Machine

open Sys2Proof

theorem State.setCoreRaw_keeps {P : List Part} {s : State} {a1 : State} (a2) (a3) (hP : ∀ q ∈ ([.cores] : List Part), q ∈ P) (h : Keeps P s a1) :
    Keeps P s (State.setCoreRaw a1 a2 a3) := by
  unfold State.setCoreRaw
  repeat' first
      | with_reducible assumption | with_reducible intro _
      | fail_if_no_progress with_reducible refine put_cores_keeps _ (hP _ (by decide)) ?_

theorem State.setCl_keeps {P : List Part} {s : State} {a1 : State} (a2) (a3) (hP : ∀ q ∈ ([.clusters] : List Part), q ∈ P) (h : Keeps P s a1) :
    Keeps P s (State.setCl a1 a2 a3) := by
  unfold State.setCl
  repeat' first
      | with_reducible assumption | with_reducible intro _
      | fail_if_no_progress with_reducible refine put_clusters_keeps _ (hP _ (by decide)) ?_

theorem State.setSlice_keeps {P : List Part} {s : State} {a1 : State} (a2) (a3) (hP : ∀ q ∈ ([.slices] : List Part), q ∈ P) (h : Keeps P s a1) :
    Keeps P s (State.setSlice a1 a2 a3) := by
  unfold State.setSlice
  repeat' first
      | with_reducible assumption | with_reducible intro _
      | fail_if_no_progress with_reducible refine put_slices_keeps _ (hP _ (by decide)) ?_

theorem State.setPort_keeps {P : List Part} {s : State} {a1 : State} (a2) (a3) (hP : ∀ q ∈ ([.ports] : List Part), q ∈ P) (h : Keeps P s a1) :
    Keeps P s (State.setPort a1 a2 a3) := by
  unfold State.setPort
  repeat' first
      | with_reducible assumption | with_reducible intro _
      | fail_if_no_progress with_reducible refine put_ports_keeps _ (hP _ (by decide)) ?_

theorem entriesInOrder_keeps {P : List Part} {s : State} (a1) {a2 : State} (hP : ∀ q ∈ ([.lb] : List Part), q ∈ P) (h : Keeps P s a2) :
    Keeps P s (entriesInOrder a1 a2) := by
  unfold entriesInOrder
  repeat' first
      | with_reducible assumption | with_reducible apply keeps_foldl | with_reducible apply keeps_foldl1 | with_reducible intro _
      | fail_if_no_progress with_reducible refine put_lb_keeps _ (hP _ (by decide)) ?_

theorem listDiscard_keeps {P : List Part} {s : State} {a1 : State} (a2) (hP : ∀ q ∈ ([.page .ep, .frz] : List Part), q ∈ P) (h : Keeps P s a1) :
    Keeps P s (listDiscard a1 a2) := by
  unfold listDiscard
  repeat' first
      | with_reducible assumption | with_reducible apply offer_keeps | with_reducible apply orPreg_keeps | extract_lets
      | with_reducible apply keeps_ite | with_reducible exact hP _ (by decide) | with_reducible exact parts_in hP
      | with_reducible exact le_side (by omega) | with_reducible exact lt_side (by omega) | with_reducible exact off_small _ _ _
      | with_reducible intro _ | split | fail_if_no_progress with_reducible refine put_frz_keeps _ (hP _ (by decide)) ?_
      | dsimp +zetaDelta only

theorem issueWrite_keeps {P : List Part} {s : State} {a1 : State} (a2) (hP : ∀ q ∈ ([.cxl] : List Part), q ∈ P) (h : Keeps P s a1) :
    Keeps P s (issueWrite a1 a2) := by
  unfold issueWrite
  repeat' first
      | with_reducible assumption | with_reducible apply emit_keeps | extract_lets | with_reducible apply keeps_ite | with_reducible intro _
      | split | fail_if_no_progress with_reducible refine put_cxl_keeps _ (hP _ (by decide)) ?_ | dsimp +zetaDelta only

theorem sendWrite_keeps {P : List Part} {s : State} {a1 : State} (a2) (hP : ∀ q ∈ ([.page .ep, .cxl, .frz] : List Part), q ∈ P) (h : Keeps P s a1) :
    Keeps P s (sendWrite a1 a2) := by
  unfold sendWrite
  repeat' first
      | with_reducible assumption | with_reducible apply issueWrite_keeps | with_reducible apply listDiscard_keeps
      | with_reducible apply keeps_ite | with_reducible exact hP _ (by decide) | with_reducible exact parts_in hP | with_reducible intro _
      | split | fail_if_no_progress with_reducible refine put_cxl_keeps _ (hP _ (by decide)) ?_
      | fail_if_no_progress with_reducible refine put_frz_keeps _ (hP _ (by decide)) ?_
      | fail_if_no_progress refine keeps_mk ?_ (Stays.mk fun q hq => by (cases q <;> first | rfl | exact ⟨rfl, rfl⟩ | exact fun _ _ _ _ _ _ => rfl | exact fun _ _ _ => rfl | exact absurd (hP _ (by decide)) hq))

theorem drainWrites_keeps {P : List Part} {s : State} {a1 : State} (hP : ∀ q ∈ ([.page .ep, .cxl, .frz] : List Part), q ∈ P) (h : Keeps P s a1) :
    Keeps P s (drainWrites a1) := by
  unfold drainWrites
  repeat' first
      | with_reducible assumption | with_reducible apply sendWrite_keeps | with_reducible apply keeps_foldl
      | with_reducible apply keeps_foldl1 | with_reducible apply keeps_ite | with_reducible exact hP _ (by decide)
      | with_reducible exact parts_in hP | with_reducible intro _ | split
      | fail_if_no_progress with_reducible refine put_cxl_keeps _ (hP _ (by decide)) ?_

theorem flushMsix_keeps {P : List Part} {s : State} {a1 : State} (hP : ∀ q ∈ ([.cxl] : List Part), q ∈ P) (h : Keeps P s a1) :
    Keeps P s (flushMsix a1) := by
  unfold flushMsix
  repeat' first
      | with_reducible assumption | with_reducible apply emit_keeps | extract_lets | with_reducible apply keeps_foldl
      | with_reducible apply keeps_foldl1 | with_reducible apply keeps_ite | with_reducible intro _ | split
      | fail_if_no_progress with_reducible refine put_cxl_keeps _ (hP _ (by decide)) ?_ | dsimp +zetaDelta only

theorem State.setCore_keeps {P : List Part} {s : State} {a1 : State} (a2) (a3) (hP : ∀ q ∈ ([.page .sd, .cores, .sd] : List Part), q ∈ P) (h : Keeps P s a1) :
    Keeps P s (State.setCore a1 a2 a3) := by
  unfold State.setCore
  repeat' first
      | with_reducible assumption | with_reducible apply State.setCoreRaw_keeps | with_reducible apply clrPreg_keeps | extract_lets
      | with_reducible apply keeps_ite | with_reducible exact hP _ (by decide) | with_reducible exact parts_in hP
      | with_reducible exact le_side (by omega) | with_reducible exact lt_side (by omega) | with_reducible exact off_small _ _ _
      | with_reducible intro _ | split | fail_if_no_progress with_reducible refine put_sdChanged_keeps _ (hP _ (by decide)) ?_
      | dsimp +zetaDelta only

theorem sdTouch_keeps {P : List Part} {s : State} {a1 : State} (a2) (hP : ∀ q ∈ ([.sd] : List Part), q ∈ P) (h : Keeps P s a1) :
    Keeps P s (sdTouch a1 a2) := by
  unfold sdTouch
  repeat' first
      | with_reducible assumption | with_reducible intro _
      | fail_if_no_progress with_reducible refine put_sdChanged_keeps _ (hP _ (by decide)) ?_

theorem readyLog_keeps {P : List Part} {s : State} {a1 : State} (hP : ∀ q ∈ ([.boot] : List Part), q ∈ P) (h : Keeps P s a1) :
    Keeps P s (readyLog a1) := by
  unfold readyLog
  repeat' first
      | with_reducible assumption | with_reducible apply logBoot_keeps | extract_lets | with_reducible apply keeps_range
      | with_reducible apply keeps_foldl | with_reducible apply keeps_foldl1 | with_reducible apply keeps_ite | with_reducible intro _
      | split | fail_if_no_progress with_reducible refine put_boot_keeps _ (hP _ (by decide)) ?_ | dsimp +zetaDelta only

theorem withReady_keeps {P : List Part} {s : State} {a1 : State → State} {a2 : State} (ha1 : ∀ u, Keeps P s u → Keeps P s (a1 u)) (hP : ∀ q ∈ ([.boot] : List Part), q ∈ P) (h : Keeps P s a2) :
    Keeps P s (withReady a1 a2) := by
  unfold withReady
  repeat' first
      | with_reducible assumption | with_reducible apply ha1 | with_reducible apply readyLog_keeps | with_reducible exact hP _ (by decide)
      | with_reducible exact parts_in hP | with_reducible intro _

theorem withAlive_keeps {P : List Part} {s : State} {a1 : State → State} {a2 : State} (ha1 : ∀ u, Keeps P s u → Keeps P s (a1 u)) (h : Keeps P s a2) :
    Keeps P s (withAlive a1 a2) := by
  unfold withAlive
  repeat' first
      | with_reducible assumption | with_reducible apply ha1 | with_reducible apply emit_keeps | extract_lets
      | with_reducible apply keeps_ite | with_reducible intro _ | split | dsimp +zetaDelta only

theorem setMode_keeps {P : List Part} {s : State} {a1 : State} (a2) (hP : ∀ q ∈ ([.tide, .boot] : List Part), q ∈ P) (h : Keeps P s a1) :
    Keeps P s (setMode a1 a2) := by
  unfold setMode
  repeat' first
      | with_reducible assumption | with_reducible apply withReady_keeps | with_reducible apply offer_keeps | with_reducible apply keeps_ite
      | with_reducible exact hP _ (by decide) | with_reducible exact parts_in hP | with_reducible intro _ | split
      | fail_if_no_progress with_reducible refine put_tide_keeps _ (hP _ (by decide)) ?_

end Sys2Proof.Machine
end

