-- ==== Sys2Proof/Laws/KeepMemory.lean ====
section
/-! SUPPORT. What the operations of Machine/Memory.lean leave alone. -/

set_option Elab.async false

namespace Sys2Proof.Machine

open Sys2Proof

theorem setGran_keeps {P : List Part} {s : State} {a1 : State} (a2) (a3) (a4) (hP : ∀ q ∈ ([.dm] : List Part), q ∈ P) (h : Keeps P s a1) :
    Keeps P s (setGran a1 a2 a3 a4) := by
  unfold setGran
  repeat' first
      | with_reducible assumption | with_reducible intro _
      | fail_if_no_progress with_reducible refine put_poison_keeps _ (hP _ (by decide)) ?_
      | fail_if_no_progress with_reducible refine put_dm_keeps _ (hP _ (by decide)) ?_
      | fail_if_no_progress refine keeps_mk ?_ (Stays.mk fun q hq => by (cases q <;> first | rfl | exact ⟨rfl, rfl⟩ | exact fun _ _ _ _ _ _ => rfl | exact fun _ _ _ => rfl | exact absurd (hP _ (by decide)) hq))

theorem reportCe_keeps {P : List Part} {s : State} {a1 : State} (a2) (a3) (hP : ∀ q ∈ ([.page .mc, .scrubs] : List Part), q ∈ P) (h : Keeps P s a1) :
    Keeps P s (reportCe a1 a2 a3) := by
  unfold reportCe
  repeat' first
      | with_reducible assumption | with_reducible apply raiseErr_keeps | with_reducible apply cntPreg_keeps
      | with_reducible apply setPreg64_keeps | extract_lets | with_reducible exact hP _ (by decide) | with_reducible exact parts_in hP
      | ((with_reducible refine page_in (c := .mc) (hP _ (by decide)) ?_) <;> exact rfl) | with_reducible exact le_side (by omega)
      | with_reducible exact lt_side (by omega) | with_reducible exact off_small _ _ _ | with_reducible intro _
      | fail_if_no_progress with_reducible refine put_scrubs_keeps _ (hP _ (by decide)) ?_ | dsimp +zetaDelta only

theorem reportUe_keeps {P : List Part} {s : State} {a1 : State} (a2) (a3) (hP : ∀ q ∈ ([.page .mc] : List Part), q ∈ P) (h : Keeps P s a1) :
    Keeps P s (reportUe a1 a2 a3) := by
  unfold reportUe
  repeat' first
      | with_reducible assumption | with_reducible apply raiseErr_keeps | with_reducible apply cntPreg_keeps
      | with_reducible apply setPreg64_keeps | with_reducible exact hP _ (by decide) | with_reducible exact parts_in hP
      | ((with_reducible refine page_in (c := .mc) (hP _ (by decide)) ?_) <;> exact rfl) | with_reducible exact le_side (by omega)
      | with_reducible exact lt_side (by omega) | with_reducible exact off_small _ _ _ | with_reducible intro _

theorem mcReadGran_keeps {P : List Part} {s : State} {a1 : State} (a2) (a3) (a4) (hP : ∀ q ∈ ([.page .mc, .dm, .scrubs] : List Part), q ∈ P) (h : Keeps P s a1) :
    Keeps P s (mcReadGran a1 a2 a3 a4) := by
  unfold mcReadGran
  repeat' first
      | with_reducible assumption | with_reducible apply reportUe_keeps | with_reducible apply reportCe_keeps
      | with_reducible apply setGran_keeps | with_reducible apply raiseErr_keeps | with_reducible apply keeps_ite
      | with_reducible exact hP _ (by decide) | with_reducible exact parts_in hP
      | ((with_reducible refine page_in (c := .mc) (hP _ (by decide)) ?_) <;> exact rfl) | with_reducible exact le_side (by omega)
      | with_reducible exact lt_side (by omega) | with_reducible exact off_small _ _ _ | with_reducible intro _ | split

theorem mcFullGran_keeps {P : List Part} {s : State} {a1 : State} (a2) (a3) (a4) (hP : ∀ q ∈ ([.page .mc, .dm] : List Part), q ∈ P) (h : Keeps P s a1) :
    Keeps P s (mcFullGran a1 a2 a3 a4) := by
  unfold mcFullGran
  repeat' first
      | with_reducible assumption | with_reducible apply setGran_keeps | with_reducible apply when_keeps
      | with_reducible apply cntPreg_keeps | extract_lets | with_reducible exact hP _ (by decide) | with_reducible exact parts_in hP
      | ((with_reducible refine page_in (c := .mc) (hP _ (by decide)) ?_) <;> exact rfl) | with_reducible exact le_side (by omega)
      | with_reducible exact lt_side (by omega) | with_reducible exact off_small _ _ _ | with_reducible intro _ | dsimp +zetaDelta only

theorem mcPartGran_keeps {P : List Part} {s : State} {a1 : State} (a2) (a3) (a4) (a5) (a6) (hP : ∀ q ∈ ([.page .mc, .dm, .scrubs] : List Part), q ∈ P) (h : Keeps P s a1) :
    Keeps P s (mcPartGran a1 a2 a3 a4 a5 a6) := by
  unfold mcPartGran
  repeat' first
      | with_reducible assumption | with_reducible apply reportUe_keeps | with_reducible apply reportCe_keeps
      | with_reducible apply setGran_keeps | with_reducible apply raiseErr_keeps | with_reducible apply cntPreg_keeps | extract_lets
      | with_reducible apply keeps_ite | with_reducible exact hP _ (by decide) | with_reducible exact parts_in hP
      | ((with_reducible refine page_in (c := .mc) (hP _ (by decide)) ?_) <;> exact rfl) | with_reducible exact le_side (by omega)
      | with_reducible exact lt_side (by omega) | with_reducible exact off_small _ _ _ | with_reducible intro _ | split
      | dsimp +zetaDelta only

theorem refuseWrite_keeps {P : List Part} {s : State} {a1 : State} (a2) (a3) (hP : ∀ q ∈ ([.page .mc] : List Part), q ∈ P) (h : Keeps P s a1) :
    Keeps P s (refuseWrite a1 a2 a3) := by
  unfold refuseWrite
  repeat' first
      | with_reducible assumption | with_reducible apply raiseErr_keeps | with_reducible exact hP _ (by decide)
      | with_reducible exact parts_in hP | ((with_reducible refine page_in (c := .mc) (hP _ (by decide)) ?_) <;> exact rfl)
      | with_reducible exact le_side (by omega) | with_reducible exact lt_side (by omega) | with_reducible exact off_small _ _ _
      | with_reducible intro _

theorem execMcRead_keeps {P : List Part} {s : State} (a1) (a2) (a3) {a4 : State} (hP : ∀ q ∈ ([.page .mc, .dm, .scrubs] : List Part), q ∈ P) (h : Keeps P s a4) :
    NextKeeps P s (execMcRead a1 a2 a3 a4) := by
  unfold execMcRead
  repeat' first
      | with_reducible assumption | with_reducible apply nextKeeps_next | with_reducible apply mcReadGran_keeps
      | with_reducible apply keeps_ite | with_reducible exact hP _ (by decide) | with_reducible exact parts_in hP | with_reducible intro _
      | split

theorem execMcPartialWrite_keeps {P : List Part} {s : State} (a1) (a2) (a3) (a4) (a5) {a6 : State} (hP : ∀ q ∈ ([.page .mc, .dm, .scrubs] : List Part), q ∈ P) (h : Keeps P s a6) :
    NextKeeps P s (execMcPartialWrite a1 a2 a3 a4 a5 a6) := by
  unfold execMcPartialWrite
  repeat' first
      | with_reducible assumption | with_reducible apply nextKeeps_next | with_reducible apply refuseWrite_keeps
      | with_reducible apply mcPartGran_keeps | with_reducible apply mcFullGran_keeps | with_reducible apply keeps_ite
      | with_reducible exact hP _ (by decide) | with_reducible exact parts_in hP | with_reducible intro _ | split

theorem mcBothGran_keeps {P : List Part} {s : State} {a1 : State} (a2) (a3) (a4) (a5) (a6) (a7) (hP : ∀ q ∈ ([.page .mc, .dm, .scrubs] : List Part), q ∈ P) (h : Keeps P s a1) :
    Keeps P s (mcBothGran a1 a2 a3 a4 a5 a6 a7) := by
  unfold mcBothGran
  repeat' first
      | with_reducible assumption | with_reducible apply mcPartGran_keeps | with_reducible apply mcFullGran_keeps
      | with_reducible apply setGran_keeps | extract_lets | with_reducible apply keeps_ite | with_reducible exact hP _ (by decide)
      | with_reducible exact parts_in hP | with_reducible intro _ | split | dsimp +zetaDelta only

theorem execMcFullWrite_keeps {P : List Part} {s : State} (a1) (a2) (a3) (a4) {a5 : State} (hP : ∀ q ∈ ([.page .mc, .dm, .scrubs] : List Part), q ∈ P) (h : Keeps P s a5) :
    NextKeeps P s (execMcFullWrite a1 a2 a3 a4 a5) := by
  unfold execMcFullWrite
  repeat' first
      | with_reducible assumption | with_reducible apply nextKeeps_next | with_reducible apply mcBothGran_keeps
      | with_reducible apply refuseWrite_keeps | with_reducible apply mcFullGran_keeps | with_reducible apply keeps_ite
      | with_reducible exact hP _ (by decide) | with_reducible exact parts_in hP | with_reducible intro _ | split | dsimp +zetaDelta only

theorem readLineAt_keeps {P : List Part} {s : State} {a1 : State} (a2) (hP : ∀ q ∈ ([.page .mc, .dm, .scrubs] : List Part), q ∈ P) (h : Keeps P s a1) :
    Keeps P s (readLineAt a1 a2) := by
  unfold readLineAt
  repeat' first
      | with_reducible assumption | with_reducible apply mcReadGran_keeps | with_reducible apply keeps_ite
      | with_reducible exact hP _ (by decide) | with_reducible exact parts_in hP | with_reducible intro _ | split

theorem mcPoisonGran_keeps {P : List Part} {s : State} {a1 : State} (a2) (a3) (a4) (a5) (hP : ∀ q ∈ ([.page .mc, .dm] : List Part), q ∈ P) (h : Keeps P s a1) :
    Keeps P s (mcPoisonGran a1 a2 a3 a4 a5) := by
  unfold mcPoisonGran
  repeat' first
      | with_reducible assumption | with_reducible apply setGran_keeps | with_reducible apply raiseErr_keeps
      | with_reducible apply cntPreg_keeps | extract_lets | with_reducible apply keeps_ite | with_reducible exact hP _ (by decide)
      | with_reducible exact parts_in hP | ((with_reducible refine page_in (c := .mc) (hP _ (by decide)) ?_) <;> exact rfl)
      | with_reducible exact le_side (by omega) | with_reducible exact lt_side (by omega) | with_reducible exact off_small _ _ _
      | with_reducible intro _ | split | dsimp +zetaDelta only

theorem writeGranOf_keeps {P : List Part} {s : State} {a1 : State} (a2) (a3) (a4) (a5) (a6) (hP : ∀ q ∈ ([.page .mc, .dm, .scrubs] : List Part), q ∈ P) (h : Keeps P s a1) :
    Keeps P s (writeGranOf a1 a2 a3 a4 a5 a6) := by
  unfold writeGranOf
  repeat' first
      | with_reducible assumption | with_reducible apply mcPoisonGran_keeps | with_reducible apply refuseWrite_keeps
      | with_reducible apply mcPartGran_keeps | with_reducible apply mcFullGran_keeps | extract_lets | with_reducible apply keeps_ite
      | with_reducible exact hP _ (by decide) | with_reducible exact parts_in hP | with_reducible intro _ | split | dsimp +zetaDelta only

theorem writeLineAt_keeps {P : List Part} {s : State} {a1 : State} (a2) (a3) (a4) (a5) (hP : ∀ q ∈ ([.page .mc, .dm, .scrubs] : List Part), q ∈ P) (h : Keeps P s a1) :
    Keeps P s (writeLineAt a1 a2 a3 a4 a5) := by
  unfold writeLineAt
  repeat' first
      | with_reducible assumption | with_reducible apply writeGranOf_keeps | with_reducible exact hP _ (by decide)
      | with_reducible exact parts_in hP | with_reducible intro _

theorem scrubGran_keeps {P : List Part} {s : State} {a1 : State} (a2) (a3) (a4) (a5) (hP : ∀ q ∈ ([.page .mc, .dm, .scrubs] : List Part), q ∈ P) (h : Keeps P s a1) :
    Keeps P s (scrubGran a1 a2 a3 a4 a5) := by
  unfold scrubGran
  repeat' first
      | with_reducible assumption | with_reducible apply mcPartGran_keeps | with_reducible apply mcFullGran_keeps
      | with_reducible apply mcReadGran_keeps | with_reducible apply keeps_ite | with_reducible exact hP _ (by decide)
      | with_reducible exact parts_in hP | with_reducible intro _ | split

theorem execScrubRead_keeps {P : List Part} {s : State} (a1) (a2) (a3) {a4 : State} (hP : ∀ q ∈ ([.page .mc, .dm, .scrubs] : List Part), q ∈ P) (h : Keeps P s a4) :
    NextKeeps P s (execScrubRead a1 a2 a3 a4) := by
  unfold execScrubRead
  repeat' first
      | with_reducible assumption | with_reducible apply nextKeeps_next | with_reducible apply scrubGran_keeps | extract_lets
      | with_reducible apply keeps_ite | with_reducible exact hP _ (by decide) | with_reducible exact parts_in hP
      | ((with_reducible refine page_in (c := .mc) (hP _ (by decide)) ?_) <;> exact rfl) | with_reducible intro _ | split
      | fail_if_no_progress with_reducible refine put_scrubs_keeps _ (hP _ (by decide)) ?_ | dsimp +zetaDelta only

theorem scrubWindowOf_keeps {P : List Part} {s : State} {a1 : State} (a2) (hP : ∀ q ∈ ([.page .al, .scrubs] : List Part), q ∈ P) (h : Keeps P s a1) :
    Keeps P s (scrubWindowOf a1 a2) := by
  unfold scrubWindowOf
  repeat' first
      | with_reducible assumption | with_reducible apply raiseErr_keeps | extract_lets | with_reducible apply keeps_ite
      | with_reducible exact hP _ (by decide) | with_reducible exact parts_in hP | with_reducible exact le_side (by omega)
      | with_reducible exact lt_side (by omega) | with_reducible exact off_small _ _ _ | with_reducible intro _ | split
      | fail_if_no_progress with_reducible refine put_scrubs_keeps _ (hP _ (by decide)) ?_ | dsimp +zetaDelta only

theorem execScrubWindow_keeps {P : List Part} {s : State} {a1 : State} (hP : ∀ q ∈ ([.page .al, .scrubs] : List Part), q ∈ P) (h : Keeps P s a1) :
    NextKeeps P s (execScrubWindow a1) := by
  unfold execScrubWindow
  repeat' first
      | with_reducible assumption | with_reducible apply nextKeeps_next | with_reducible apply scrubWindowOf_keeps
      | with_reducible apply keeps_foldl | with_reducible apply keeps_foldl1 | with_reducible exact hP _ (by decide)
      | with_reducible exact parts_in hP | with_reducible intro _

theorem alScrubPassMinWrite_keeps {P : List Part} {s : State} {a1 : State} (a2) (hP : ∀ q ∈ ([.page .al, .staged] : List Part), q ∈ P) (h : Keeps P s a1) :
    Keeps P s (alScrubPassMinWrite a1 a2) := by
  unfold alScrubPassMinWrite
  repeat' first
      | with_reducible assumption | with_reducible apply pageWrite_keeps | with_reducible apply raiseErr_keeps
      | with_reducible apply keeps_ite | with_reducible exact hP _ (by decide) | with_reducible exact parts_in hP
      | with_reducible exact le_side (by omega) | with_reducible exact lt_side (by omega) | with_reducible exact off_small _ _ _
      | with_reducible intro _ | split

theorem execAlScrubPassMinWrite_keeps {P : List Part} {s : State} (a1) {a2 : State} (hP : ∀ q ∈ ([.page .al, .staged] : List Part), q ∈ P) (h : Keeps P s a2) :
    NextKeeps P s (execAlScrubPassMinWrite a1 a2) := by
  unfold execAlScrubPassMinWrite
  repeat' first
      | with_reducible assumption | with_reducible apply nextKeeps_next | with_reducible apply alScrubPassMinWrite_keeps
      | with_reducible exact hP _ (by decide) | with_reducible exact parts_in hP | with_reducible intro _

end Sys2Proof.Machine
end

