-- ==== Sys2Proof/Laws/KeepCoherence.lean ====
section
/-! SUPPORT. What the operations of Machine/Coherence.lean leave alone. -/

set_option Elab.async false

namespace Sys2Proof.Machine

open Sys2Proof

theorem setCcLine_keeps {P : List Part} {s : State} {a1 : State} (a2) (a3) (a4) (hP : ∀ q ∈ ([.clusters] : List Part), q ∈ P) (h : Keeps P s a1) :
    Keeps P s (setCcLine a1 a2 a3 a4) := by
  unfold setCcLine
  repeat' first
      | with_reducible assumption | with_reducible apply State.setCl_keeps | extract_lets | with_reducible exact hP _ (by decide)
      | with_reducible exact parts_in hP | with_reducible intro _ | dsimp +zetaDelta only

theorem setSl_keeps {P : List Part} {s : State} {a1 : State} (a2) (a3) (hP : ∀ q ∈ ([.slices] : List Part), q ∈ P) (h : Keeps P s a1) :
    Keeps P s (setSl a1 a2 a3) := by
  unfold setSl
  repeat' first
      | with_reducible assumption | with_reducible apply State.setSlice_keeps | extract_lets | with_reducible apply keeps_ite
      | with_reducible exact hP _ (by decide) | with_reducible exact parts_in hP | with_reducible intro _ | split | dsimp +zetaDelta only

theorem hostWriteLine_keeps {P : List Part} {s : State} {a1 : State} (a2) (a3) (a4) (a5) (a6) (a7) (a8) (hP : ∀ q ∈ ([.page .ep, .cxl, .frz] : List Part), q ∈ P) (h : Keeps P s a1) :
    Keeps P s (hostWriteLine a1 a2 a3 a4 a5 a6 a7 a8) := by
  unfold hostWriteLine
  repeat' first
      | with_reducible assumption | with_reducible apply sendWrite_keeps | with_reducible apply keeps_foldl
      | with_reducible apply keeps_foldl1 | with_reducible exact hP _ (by decide) | with_reducible exact parts_in hP
      | with_reducible intro _ | dsimp +zetaDelta only

theorem writeBelow_keeps {P : List Part} {s : State} {a1 : State} (a2) (a3) (a4) (hP : ∀ q ∈ ([.page .ep, .page .mc, .dm, .cxl, .frz, .scrubs] : List Part), q ∈ P) (h : Keeps P s a1) :
    Keeps P s (writeBelow a1 a2 a3 a4) := by
  unfold writeBelow
  repeat' first
      | with_reducible assumption | with_reducible apply hostWriteLine_keeps | with_reducible apply writeLineAt_keeps
      | with_reducible apply keeps_ite | with_reducible exact hP _ (by decide) | with_reducible exact parts_in hP | with_reducible intro _
      | split

theorem readBelow_keeps {P : List Part} {s : State} {a1 : State} (a2) (a3) (hP : ∀ q ∈ ([.page .mc, .dm, .scrubs] : List Part), q ∈ P) (h : Keeps P s a1) :
    Keeps P s (readBelow a1 a2 a3).1 := by
  unfold readBelow
  repeat' first
      | with_reducible assumption | with_reducible apply readLineAt_keeps | with_reducible apply keeps_ite
      | with_reducible exact hP _ (by decide) | with_reducible exact parts_in hP | with_reducible intro _ | split

theorem pumpSlice_keeps {P : List Part} {s : State} {a1 : State} (a2) (hP : ∀ q ∈ ([.page .lw, .page .dc, .slices] : List Part), q ∈ P) (h : Keeps P s a1) :
    Keeps P s (pumpSlice a1 a2) := by
  unfold pumpSlice
  repeat' first
      | with_reducible assumption | with_reducible apply State.setSlice_keeps | with_reducible apply emit_keeps
      | with_reducible apply cntPreg_keeps | extract_lets | with_reducible apply keeps_foldl | with_reducible apply keeps_foldl1
      | with_reducible apply keeps_ite | with_reducible exact hP _ (by decide) | with_reducible exact parts_in hP
      | ((with_reducible refine page_in (c := .dc) (hP _ (by decide)) ?_) <;> exact rfl) | with_reducible exact le_side (by omega)
      | with_reducible exact lt_side (by omega) | with_reducible exact off_small _ _ _ | with_reducible intro _ | split
      | dsimp +zetaDelta only

theorem pumpBi_keeps {P : List Part} {s : State} {a1 : State} (hP : ∀ q ∈ ([.page .lw, .page .dc, .slices] : List Part), q ∈ P) (h : Keeps P s a1) :
    Keeps P s (pumpBi a1) := by
  unfold pumpBi
  repeat' first
      | with_reducible assumption | with_reducible apply pumpSlice_keeps | with_reducible apply keeps_foldl
      | with_reducible apply keeps_foldl1 | with_reducible exact hP _ (by decide) | with_reducible exact parts_in hP
      | with_reducible intro _

theorem startBi_keeps {P : List Part} {s : State} {a1 : State} (a2) (a3) (a4) (hP : ∀ q ∈ ([.page .lw, .page .dc, .slices] : List Part), q ∈ P) (h : Keeps P s a1) :
    Keeps P s (startBi a1 a2 a3 a4) := by
  unfold startBi
  repeat' first
      | with_reducible assumption | with_reducible apply pumpSlice_keeps | with_reducible apply State.setSlice_keeps | extract_lets
      | with_reducible apply keeps_ite | with_reducible exact hP _ (by decide) | with_reducible exact parts_in hP | with_reducible intro _
      | split | dsimp +zetaDelta only

theorem addRetry_keeps {P : List Part} {s : State} {a1 : State} (a2) (a3) (a4) (hP : ∀ q ∈ ([.slices] : List Part), q ∈ P) (h : Keeps P s a1) :
    Keeps P s (addRetry a1 a2 a3 a4) := by
  unfold addRetry
  repeat' first
      | with_reducible assumption | with_reducible apply State.setSlice_keeps | extract_lets | with_reducible apply keeps_ite
      | with_reducible exact hP _ (by decide) | with_reducible exact parts_in hP | with_reducible intro _ | split | dsimp +zetaDelta only

theorem cancelGrant_keeps {P : List Part} {s : State} {a1 : State} (a2) (a3) (hP : ∀ q ∈ ([.clusters, .slices] : List Part), q ∈ P) (h : Keeps P s a1) :
    Keeps P s (cancelGrant a1 a2 a3) := by
  unfold cancelGrant
  repeat' first
      | with_reducible assumption | with_reducible apply addRetry_keeps | with_reducible apply State.setCl_keeps | extract_lets
      | with_reducible apply keeps_ite | with_reducible exact hP _ (by decide) | with_reducible exact parts_in hP | with_reducible intro _
      | split | dsimp +zetaDelta only

theorem dropCopy_keeps {P : List Part} {s : State} {a1 : State} (a2) (a3) (hP : ∀ q ∈ ([.clusters, .slices] : List Part), q ∈ P) (h : Keeps P s a1) :
    Keeps P s (dropCopy a1 a2 a3).1 := by
  unfold dropCopy
  repeat' first
      | with_reducible assumption | with_reducible apply cancelGrant_keeps | with_reducible apply setCcLine_keeps | extract_lets
      | with_reducible apply keeps_ite | with_reducible exact hP _ (by decide) | with_reducible exact parts_in hP | with_reducible intro _
      | split | dsimp +zetaDelta only

theorem dropCopies_keeps {P : List Part} {s : State} {a1 : State} (a2) (a3) (hP : ∀ q ∈ ([.clusters, .slices] : List Part), q ∈ P) (h : Keeps P s a1) :
    Keeps P s (dropCopies a1 a2 a3).1 := by
  unfold dropCopies
  repeat' first
      | with_reducible assumption | with_reducible apply dropCopy_keeps | with_reducible apply setSl_keeps | extract_lets
      | with_reducible apply keeps_foldl | with_reducible apply keeps_foldl1 | with_reducible apply keeps_ite
      | with_reducible exact hP _ (by decide) | with_reducible exact parts_in hP | with_reducible intro _ | split | dsimp +zetaDelta only

theorem cleanEvict_keeps {P : List Part} {s : State} {a1 : State} (a2) (a3) (h : Keeps P s a1) :
    Keeps P s (cleanEvict a1 a2 a3) := by
  unfold cleanEvict
  repeat' first
      | with_reducible assumption | with_reducible apply emit_keeps | with_reducible apply keeps_ite | with_reducible intro _ | split

theorem evictData_keeps {P : List Part} {s : State} {a1 : State} (a2) (hP : ∀ q ∈ ([.page .ep, .page .mc, .dm, .slices, .cxl, .frz, .scrubs] : List Part), q ∈ P) (h : Keeps P s a1) :
    Keeps P s (evictData a1 a2) := by
  unfold evictData
  repeat' first
      | with_reducible assumption | with_reducible apply cleanEvict_keeps | with_reducible apply writeBelow_keeps
      | with_reducible apply setSl_keeps | extract_lets | with_reducible apply keeps_ite | with_reducible exact hP _ (by decide)
      | with_reducible exact parts_in hP | with_reducible intro _ | split | dsimp +zetaDelta only

theorem recallShadow_keeps {P : List Part} {s : State} {a1 : State} (a2) (hP : ∀ q ∈ ([.page .ep, .page .dc, .page .mc, .clusters, .dm, .slices, .cxl, .frz, .scrubs] : List Part), q ∈ P) (h : Keeps P s a1) :
    Keeps P s (recallShadow a1 a2) := by
  unfold recallShadow
  repeat' first
      | with_reducible assumption | with_reducible apply cleanEvict_keeps | with_reducible apply dropCopies_keeps
      | with_reducible apply writeBelow_keeps | with_reducible apply setSl_keeps | with_reducible apply cntPreg_keeps | extract_lets
      | with_reducible exact hP _ (by decide) | with_reducible exact parts_in hP
      | ((with_reducible refine page_in (c := .dc) (hP _ (by decide)) ?_) <;> exact rfl) | with_reducible exact le_side (by omega)
      | with_reducible exact lt_side (by omega) | with_reducible exact off_small _ _ _ | with_reducible intro _ | split
      | dsimp +zetaDelta only

theorem shadowRoom_keeps {P : List Part} {s : State} {a1 : State} (a2) (hP : ∀ q ∈ ([.page .ep, .page .dc, .page .mc, .clusters, .dm, .slices, .cxl, .frz, .scrubs] : List Part), q ∈ P) (h : Keeps P s a1) :
    Keeps P s (shadowRoom a1 a2) := by
  unfold shadowRoom
  repeat' first
      | with_reducible assumption | with_reducible apply recallShadow_keeps | with_reducible apply takeFresh_keeps | extract_lets
      | with_reducible apply keeps_ite | with_reducible exact hP _ (by decide) | with_reducible exact parts_in hP | with_reducible intro _
      | split | dsimp +zetaDelta only

theorem shadowAsk_keeps {P : List Part} {s : State} {a1 : State} (a2) (hP : ∀ q ∈ ([.page .lw, .page .dc, .slices] : List Part), q ∈ P) (h : Keeps P s a1) :
    Keeps P s (shadowAsk a1 a2) := by
  unfold shadowAsk
  repeat' first
      | with_reducible assumption | with_reducible apply startBi_keeps | with_reducible apply takeFresh_keeps | extract_lets
      | with_reducible apply keeps_ite | with_reducible exact hP _ (by decide) | with_reducible exact parts_in hP | with_reducible intro _
      | split | dsimp +zetaDelta only

theorem evictWay_keeps {P : List Part} {s : State} {a1 : State} (a2) (a3) (a4) (hP : ∀ q ∈ ([.page .lw, .page .ep, .page .dc, .page .mc, .clusters, .dm, .slices, .cxl, .frz, .scrubs] : List Part), q ∈ P) (h : Keeps P s a1) :
    Keeps P s (evictWay a1 a2 a3 a4) := by
  unfold evictWay
  repeat' first
      | with_reducible assumption | with_reducible apply shadowAsk_keeps | with_reducible apply shadowRoom_keeps
      | with_reducible apply evictData_keeps | with_reducible apply startBi_keeps | extract_lets | with_reducible apply keeps_ite
      | with_reducible exact hP _ (by decide) | with_reducible exact parts_in hP | with_reducible intro _ | split | dsimp +zetaDelta only

theorem pickWay_keeps {P : List Part} {s : State} {a1 : State} (a2) (hP : ∀ q ∈ ([.page .lw, .page .ep, .page .dc, .page .mc, .clusters, .dm, .slices, .cxl, .frz, .scrubs] : List Part), q ∈ P) (h : Keeps P s a1) :
    Keeps P s (pickWay a1 a2).1 := by
  unfold pickWay
  repeat' first
      | with_reducible assumption | with_reducible apply evictWay_keeps | with_reducible apply takeFresh_keeps | extract_lets
      | with_reducible apply keeps_ite | with_reducible exact hP _ (by decide) | with_reducible exact parts_in hP | with_reducible intro _
      | split | dsimp +zetaDelta only

theorem storeBelow_keeps {P : List Part} {s : State} {a1 : State} (a2) (a3) (a4) (hP : ∀ q ∈ ([.page .ep, .page .dc, .page .mc, .clusters, .dm, .slices, .cxl, .frz, .scrubs] : List Part), q ∈ P) (h : Keeps P s a1) :
    Keeps P s (storeBelow a1 a2 a3 a4) := by
  unfold storeBelow
  repeat' first
      | with_reducible assumption | with_reducible apply shadowRoom_keeps | with_reducible apply writeBelow_keeps
      | with_reducible apply setSl_keeps | extract_lets | with_reducible apply keeps_ite | with_reducible exact hP _ (by decide)
      | with_reducible exact parts_in hP | with_reducible intro _ | split | dsimp +zetaDelta only

theorem homeStore_keeps {P : List Part} {s : State} {a1 : State} (a2) (a3) (a4) (hP : ∀ q ∈ ([.page .lw, .page .ep, .page .dc, .page .mc, .clusters, .dm, .slices, .cxl, .frz, .scrubs] : List Part), q ∈ P) (h : Keeps P s a1) :
    Keeps P s (homeStore a1 a2 a3 a4) := by
  unfold homeStore
  repeat' first
      | with_reducible assumption | with_reducible apply storeBelow_keeps | with_reducible apply pickWay_keeps
      | with_reducible apply setSl_keeps | extract_lets | with_reducible apply keeps_ite | with_reducible exact hP _ (by decide)
      | with_reducible exact parts_in hP | with_reducible intro _ | split | dsimp +zetaDelta only

theorem countSl_keeps {P : List Part} {s : State} {a1 : State} (a2) (hP : ∀ q ∈ ([.page .dc] : List Part), q ∈ P) (h : Keeps P s a1) :
    Keeps P s (countSl a1 a2) := by
  unfold countSl
  repeat' first
      | with_reducible assumption | with_reducible apply cntPreg_keeps | with_reducible apply keeps_ite
      | with_reducible exact hP _ (by decide) | with_reducible exact parts_in hP
      | ((with_reducible refine page_in (c := .dc) (hP _ (by decide)) ?_) <;> exact rfl) | with_reducible exact le_side (by omega)
      | with_reducible exact lt_side (by omega) | with_reducible exact off_small _ _ _ | with_reducible intro _ | split

theorem homeData_keeps {P : List Part} {s : State} {a1 : State} (a2) (a3) (hP : ∀ q ∈ ([.page .dc, .page .mc, .dm, .scrubs] : List Part), q ∈ P) (h : Keeps P s a1) :
    Keeps P s (homeData a1 a2 a3).1 := by
  unfold homeData
  repeat' first
      | with_reducible assumption | with_reducible apply countSl_keeps | with_reducible apply readBelow_keeps | extract_lets
      | with_reducible exact hP _ (by decide) | with_reducible exact parts_in hP | with_reducible intro _ | split | dsimp +zetaDelta only

theorem reportPartial_keeps {P : List Part} {s : State} {a1 : State} (a2) (a3) (a4) (hP : ∀ q ∈ ([.page .mc] : List Part), q ∈ P) (h : Keeps P s a1) :
    Keeps P s (reportPartial a1 a2 a3 a4) := by
  unfold reportPartial
  repeat' first
      | with_reducible assumption | with_reducible apply raiseErr_keeps | with_reducible apply cntPreg_keeps | extract_lets
      | with_reducible apply keeps_range | with_reducible apply keeps_foldl | with_reducible apply keeps_foldl1
      | with_reducible apply keeps_ite | with_reducible exact hP _ (by decide) | with_reducible exact parts_in hP
      | ((with_reducible refine page_in (c := .mc) (hP _ (by decide)) ?_) <;> exact rfl) | with_reducible exact le_side (by omega)
      | with_reducible exact lt_side (by omega) | with_reducible exact off_small _ _ _ | with_reducible intro _ | split
      | dsimp +zetaDelta only

theorem grantLine_keeps {P : List Part} {s : State} {a1 : State} (a2) (a3) (a4) (hP : ∀ q ∈ ([.clusters] : List Part), q ∈ P) (h : Keeps P s a1) :
    Keeps P s (grantLine a1 a2 a3 a4) := by
  unfold grantLine
  repeat' first
      | with_reducible assumption | with_reducible apply State.setCl_keeps | extract_lets | with_reducible apply keeps_ite
      | with_reducible exact hP _ (by decide) | with_reducible exact parts_in hP | with_reducible intro _ | split | dsimp +zetaDelta only

theorem slMiss_keeps {P : List Part} {s : State} {a1 : State} (a2) (a3) (a4) (hP : ∀ q ∈ ([.slices] : List Part), q ∈ P) (h : Keeps P s a1) :
    Keeps P s (slMiss a1 a2 a3 a4) := by
  unfold slMiss
  repeat' first
      | with_reducible assumption | with_reducible apply State.setSlice_keeps | extract_lets | with_reducible apply keeps_ite
      | with_reducible exact hP _ (by decide) | with_reducible exact parts_in hP | with_reducible intro _ | split | dsimp +zetaDelta only

theorem slMissAgain_keeps {P : List Part} {s : State} {a1 : State} (a2) (hP : ∀ q ∈ ([.slices] : List Part), q ∈ P) (h : Keeps P s a1) :
    Keeps P s (slMissAgain a1 a2) := by
  unfold slMissAgain
  repeat' first
      | with_reducible assumption | with_reducible apply State.setSlice_keeps | extract_lets | with_reducible apply keeps_ite
      | with_reducible exact hP _ (by decide) | with_reducible exact parts_in hP | with_reducible intro _ | split | dsimp +zetaDelta only

theorem slMerge_keeps {P : List Part} {s : State} {a1 : State} (a2) (a3) (hP : ∀ q ∈ ([.page .dc, .slices] : List Part), q ∈ P) (h : Keeps P s a1) :
    Keeps P s (slMerge a1 a2 a3) := by
  unfold slMerge
  repeat' first
      | with_reducible assumption | with_reducible apply State.setSlice_keeps | with_reducible apply cntPreg_keeps | extract_lets
      | with_reducible apply keeps_ite | with_reducible exact hP _ (by decide) | with_reducible exact parts_in hP
      | ((with_reducible refine page_in (c := .dc) (hP _ (by decide)) ?_) <;> exact rfl) | with_reducible exact le_side (by omega)
      | with_reducible exact lt_side (by omega) | with_reducible exact off_small _ _ _ | with_reducible intro _ | split
      | dsimp +zetaDelta only

theorem cancelMiss_keeps {P : List Part} {s : State} {a1 : State} (a2) (hP : ∀ q ∈ ([.slices] : List Part), q ∈ P) (h : Keeps P s a1) :
    Keeps P s (cancelMiss a1 a2) := by
  unfold cancelMiss
  repeat' first
      | with_reducible assumption | with_reducible apply addRetry_keeps | with_reducible apply State.setSlice_keeps | extract_lets
      | with_reducible apply keeps_foldl | with_reducible apply keeps_foldl1 | with_reducible exact hP _ (by decide)
      | with_reducible exact parts_in hP | with_reducible intro _ | dsimp +zetaDelta only

theorem fetchShared_keeps {P : List Part} {s : State} {a1 : State} (a2) (a3) (hP : ∀ q ∈ ([.page .lw, .page .ep, .page .dc, .page .mc, .clusters, .dm, .slices, .cxl, .frz, .scrubs] : List Part), q ∈ P) (h : Keeps P s a1) :
    Keeps P s (fetchShared a1 a2 a3).1 := by
  unfold fetchShared
  repeat' first
      | with_reducible assumption | with_reducible apply slMiss_keeps | with_reducible apply homeData_keeps
      | with_reducible apply homeStore_keeps | with_reducible apply cancelGrant_keeps | with_reducible apply setSl_keeps
      | with_reducible apply setCcLine_keeps | extract_lets | with_reducible apply keeps_ite | with_reducible exact hP _ (by decide)
      | with_reducible exact parts_in hP | with_reducible intro _ | split | dsimp +zetaDelta only

theorem makeEntry_keeps {P : List Part} {s : State} {a1 : State} (a2) (hP : ∀ q ∈ ([.page .ep, .page .dc, .page .mc, .clusters, .dm, .slices, .cxl, .frz, .scrubs] : List Part), q ∈ P) (h : Keeps P s a1) :
    Keeps P s (makeEntry a1 a2) := by
  unfold makeEntry
  repeat' first
      | with_reducible assumption | with_reducible apply shadowRoom_keeps | with_reducible apply keeps_ite
      | with_reducible exact hP _ (by decide) | with_reducible exact parts_in hP | with_reducible intro _ | split

theorem serveRds_keeps {P : List Part} {s : State} {a1 : State} (a2) (a3) (a4) (hP : ∀ q ∈ ([.page .lw, .page .ep, .page .dc, .page .mc, .clusters, .dm, .slices, .cxl, .frz, .scrubs] : List Part), q ∈ P) (h : Keeps P s a1) :
    Keeps P s (serveRds a1 a2 a3 a4) := by
  unfold serveRds
  repeat' first
      | with_reducible assumption | with_reducible apply makeEntry_keeps | with_reducible apply fetchShared_keeps
      | with_reducible apply grantLine_keeps | with_reducible apply setSl_keeps | extract_lets | with_reducible apply keeps_ite
      | with_reducible exact hP _ (by decide) | with_reducible exact parts_in hP | with_reducible intro _ | split | dsimp +zetaDelta only

theorem serveRdo_keeps {P : List Part} {s : State} {a1 : State} (a2) (a3) (a4) (hP : ∀ q ∈ ([.page .lw, .page .ep, .page .dc, .page .mc, .clusters, .dm, .slices, .cxl, .frz, .scrubs] : List Part), q ∈ P) (h : Keeps P s a1) :
    Keeps P s (serveRdo a1 a2 a3 a4) := by
  unfold serveRdo
  repeat' first
      | with_reducible assumption | with_reducible apply makeEntry_keeps | with_reducible apply fetchShared_keeps
      | with_reducible apply grantLine_keeps | with_reducible apply dropCopies_keeps | with_reducible apply setSl_keeps | extract_lets
      | with_reducible apply keeps_ite | with_reducible exact hP _ (by decide) | with_reducible exact parts_in hP | with_reducible intro _
      | split | dsimp +zetaDelta only

theorem serveUpg_keeps {P : List Part} {s : State} {a1 : State} (a2) (a3) (a4) (hP : ∀ q ∈ ([.page .lw, .page .ep, .page .dc, .page .mc, .clusters, .dm, .slices, .cxl, .frz, .scrubs] : List Part), q ∈ P) (h : Keeps P s a1) :
    Keeps P s (serveUpg a1 a2 a3 a4) := by
  unfold serveUpg
  repeat' first
      | with_reducible assumption | with_reducible apply serveRdo_keeps | with_reducible apply grantLine_keeps
      | with_reducible apply dropCopies_keeps | with_reducible apply setSl_keeps | extract_lets | with_reducible apply keeps_ite
      | with_reducible exact hP _ (by decide) | with_reducible exact parts_in hP | with_reducible intro _ | split | dsimp +zetaDelta only

theorem serveRdcur_keeps {P : List Part} {s : State} {a1 : State} (a2) (a3) (hP : ∀ q ∈ ([.page .lw, .page .ep, .page .dc, .page .mc, .clusters, .dm, .slices, .cxl, .frz, .scrubs] : List Part), q ∈ P) (h : Keeps P s a1) :
    Keeps P s (serveRdcur a1 a2 a3).1 := by
  unfold serveRdcur
  repeat' first
      | with_reducible assumption | with_reducible apply homeData_keeps | with_reducible apply homeStore_keeps
      | with_reducible apply setCcLine_keeps | extract_lets | with_reducible apply keeps_ite | with_reducible exact hP _ (by decide)
      | with_reducible exact parts_in hP | with_reducible intro _ | split | dsimp +zetaDelta only

theorem clearCached_keeps {P : List Part} {s : State} {a1 : State} (a2) (a3) (hP : ∀ q ∈ ([.page .mc] : List Part), q ∈ P) (h : Keeps P s a1) :
    Keeps P s (clearCached a1 a2 a3) := by
  unfold clearCached
  repeat' first
      | with_reducible assumption | with_reducible apply cntPreg_keeps | extract_lets | with_reducible apply keeps_range
      | with_reducible apply keeps_foldl | with_reducible apply keeps_foldl1 | with_reducible apply keeps_ite
      | with_reducible exact hP _ (by decide) | with_reducible exact parts_in hP
      | ((with_reducible refine page_in (c := .mc) (hP _ (by decide)) ?_) <;> exact rfl) | with_reducible exact le_side (by omega)
      | with_reducible exact lt_side (by omega) | with_reducible exact off_small _ _ _ | with_reducible intro _ | split
      | dsimp +zetaDelta only

theorem serveWrinv_keeps {P : List Part} {s : State} {a1 : State} (a2) (a3) (a4) (a5) (a6) (a7) (hP : ∀ q ∈ ([.page .lw, .page .ep, .page .dc, .page .mc, .clusters, .dm, .slices, .cxl, .frz, .scrubs] : List Part), q ∈ P) (h : Keeps P s a1) :
    Keeps P s (serveWrinv a1 a2 a3 a4 a5 a6 a7) := by
  unfold serveWrinv
  repeat' first
      | with_reducible assumption | with_reducible apply clearCached_keeps | with_reducible apply countSl_keeps
      | with_reducible apply homeStore_keeps | with_reducible apply dropCopies_keeps | with_reducible apply hostWriteLine_keeps
      | with_reducible apply setSl_keeps | extract_lets | with_reducible apply keeps_ite | with_reducible exact hP _ (by decide)
      | with_reducible exact parts_in hP | with_reducible intro _ | split | dsimp +zetaDelta only

theorem askHost_keeps {P : List Part} {s : State} {a1 : State} (a2) (a3) (h : Keeps P s a1) :
    Keeps P s (askHost a1 a2 a3) := by
  unfold askHost
  repeat' first
      | with_reducible assumption | with_reducible apply emit_keeps | extract_lets | with_reducible apply keeps_ite | with_reducible intro _
      | split | dsimp +zetaDelta only

theorem askOwn_keeps {P : List Part} {s : State} {a1 : State} (a2) (h : Keeps P s a1) :
    Keeps P s (askOwn a1 a2) := by
  unfold askOwn
  repeat' first
      | with_reducible assumption | with_reducible apply emit_keeps | with_reducible apply keeps_ite | with_reducible intro _ | split

theorem serveWrpart_keeps {P : List Part} {s : State} {a1 : State} (a2) (a3) (a4) (a5) (a6) (a7) (a8) (hP : ∀ q ∈ ([.page .lw, .page .ep, .page .dc, .page .mc, .clusters, .dm, .slices, .cxl, .frz, .scrubs] : List Part), q ∈ P) (h : Keeps P s a1) :
    Keeps P s (serveWrpart a1 a2 a3 a4 a5 a6 a7 a8) := by
  unfold serveWrpart
  repeat' first
      | with_reducible assumption | with_reducible apply askOwn_keeps | with_reducible apply reportPartial_keeps
      | with_reducible apply countSl_keeps | with_reducible apply homeStore_keeps | with_reducible apply dropCopies_keeps
      | with_reducible apply hostWriteLine_keeps | with_reducible apply writeLineAt_keeps | with_reducible apply readLineAt_keeps
      | extract_lets | with_reducible apply keeps_ite | with_reducible exact hP _ (by decide) | with_reducible exact parts_in hP
      | with_reducible intro _ | split | dsimp +zetaDelta only

theorem serveHostRd_keeps {P : List Part} {s : State} {a1 : State} (a2) (a3) (a4) (hP : ∀ q ∈ ([.page .lw, .page .ep, .page .dc, .page .mc, .clusters, .dm, .slices, .cxl, .frz, .scrubs] : List Part), q ∈ P) (h : Keeps P s a1) :
    Keeps P s (serveHostRd a1 a2 a3 a4) := by
  unfold serveHostRd
  repeat' first
      | with_reducible assumption | with_reducible apply makeEntry_keeps | with_reducible apply fetchShared_keeps
      | with_reducible apply dropCopies_keeps | with_reducible apply setSl_keeps | with_reducible apply raiseErr_keeps
      | with_reducible apply emit_keeps | extract_lets | with_reducible apply keeps_ite | with_reducible exact hP _ (by decide)
      | with_reducible exact parts_in hP | with_reducible exact le_side (by omega) | with_reducible exact lt_side (by omega)
      | with_reducible exact off_small _ _ _ | with_reducible intro _ | split | dsimp +zetaDelta only

theorem serveHostWr_keeps {P : List Part} {s : State} {a1 : State} (a2) (a3) (a4) (a5) (hP : ∀ q ∈ ([.page .lw, .page .ep, .page .dc, .page .mc, .clusters, .dm, .slices, .cxl, .frz, .scrubs] : List Part), q ∈ P) (h : Keeps P s a1) :
    Keeps P s (serveHostWr a1 a2 a3 a4 a5) := by
  unfold serveHostWr
  repeat' first
      | with_reducible assumption | with_reducible apply serveWrpart_keeps | with_reducible apply serveWrinv_keeps
      | with_reducible apply setSl_keeps | with_reducible apply emit_keeps | extract_lets | with_reducible apply keeps_ite
      | with_reducible exact hP _ (by decide) | with_reducible exact parts_in hP | with_reducible intro _ | split | dsimp +zetaDelta only

theorem ownHost_keeps {P : List Part} {s : State} {a1 : State} (a2) (a3) (hP : ∀ q ∈ ([.page .lw, .page .ep, .page .dc, .page .mc, .clusters, .dm, .slices, .cxl, .frz, .scrubs] : List Part), q ∈ P) (h : Keeps P s a1) :
    Keeps P s (ownHost a1 a2 a3).1 := by
  unfold ownHost
  repeat' first
      | with_reducible assumption | with_reducible apply homeStore_keeps | with_reducible apply pickWay_keeps
      | with_reducible apply dropCopies_keeps | with_reducible apply setSl_keeps | extract_lets | with_reducible apply keeps_ite
      | with_reducible exact hP _ (by decide) | with_reducible exact parts_in hP | with_reducible intro _ | split | dsimp +zetaDelta only

theorem mergeOwned_keeps {P : List Part} {s : State} {a1 : State} (a2) (a3) (a4) (a5) (a6) (hP : ∀ q ∈ ([.page .lw, .page .ep, .page .dc, .page .mc, .clusters, .dm, .slices, .cxl, .frz, .scrubs] : List Part), q ∈ P) (h : Keeps P s a1) :
    Keeps P s (mergeOwned a1 a2 a3 a4 a5 a6) := by
  unfold mergeOwned
  repeat' first
      | with_reducible assumption | with_reducible apply ownHost_keeps | with_reducible apply homeStore_keeps | extract_lets
      | with_reducible exact hP _ (by decide) | with_reducible exact parts_in hP | with_reducible intro _ | dsimp +zetaDelta only

theorem serve_keeps {P : List Part} {s : State} {a1 : State} (a2) (a3) (a4) (a5) (a6) (hP : ∀ q ∈ ([.page .lw, .page .ep, .page .dc, .page .mc, .clusters, .dm, .slices, .cxl, .frz, .scrubs] : List Part), q ∈ P) (h : Keeps P s a1) :
    Keeps P s (serve a1 a2 a3 a4 a5 a6) := by
  unfold serve
  repeat' first
      | with_reducible assumption | with_reducible apply serveHostWr_keeps | with_reducible apply serveHostRd_keeps
      | with_reducible apply serveWrpart_keeps | with_reducible apply askOwn_keeps | with_reducible apply askHost_keeps
      | with_reducible apply serveWrinv_keeps | with_reducible apply serveRdcur_keeps | with_reducible apply serveUpg_keeps
      | with_reducible apply serveRdo_keeps | with_reducible apply serveRds_keeps | with_reducible apply emit_keeps | extract_lets
      | with_reducible exact hP _ (by decide) | with_reducible exact parts_in hP | with_reducible intro _ | split | dsimp +zetaDelta only

theorem clearRetry_keeps {P : List Part} {s : State} {a1 : State} (a2) (a3) (hP : ∀ q ∈ ([.slices] : List Part), q ∈ P) (h : Keeps P s a1) :
    Keeps P s (clearRetry a1 a2 a3) := by
  unfold clearRetry
  repeat' first
      | with_reducible assumption | with_reducible apply State.setSlice_keeps | extract_lets | with_reducible apply keeps_ite
      | with_reducible exact hP _ (by decide) | with_reducible exact parts_in hP | with_reducible intro _ | split | dsimp +zetaDelta only

theorem homeReq_keeps {P : List Part} {s : State} {a1 : State} (a2) (a3) (a4) (a5) (a6) (hP : ∀ q ∈ ([.page .lw, .page .ep, .page .dc, .page .mc, .clusters, .dm, .slices, .cxl, .frz, .scrubs] : List Part), q ∈ P) (h : Keeps P s a1) :
    Keeps P s (homeReq a1 a2 a3 a4 a5 a6) := by
  unfold homeReq
  repeat' first
      | with_reducible assumption | with_reducible apply clearRetry_keeps | with_reducible apply serve_keeps
      | with_reducible apply slMerge_keeps | with_reducible apply shadowAsk_keeps | with_reducible apply addRetry_keeps
      | with_reducible apply startBi_keeps | extract_lets | with_reducible apply keeps_ite | with_reducible exact hP _ (by decide)
      | with_reducible exact parts_in hP | with_reducible intro _ | split | dsimp +zetaDelta only

theorem hostReq_keeps {P : List Part} {s : State} {a1 : State} (a2) (a3) (a4) (hP : ∀ q ∈ ([.page .lw, .page .ep, .page .dc, .page .mc, .clusters, .dm, .slices, .cxl, .frz, .scrubs] : List Part), q ∈ P) (h : Keeps P s a1) :
    Keeps P s (hostReq a1 a2 a3 a4) := by
  unfold hostReq
  repeat' first
      | with_reducible assumption | with_reducible apply homeReq_keeps | with_reducible apply shadowAsk_keeps
      | with_reducible apply State.setSlice_keeps | extract_lets | with_reducible apply keeps_ite | with_reducible exact hP _ (by decide)
      | with_reducible exact parts_in hP | with_reducible intro _ | split | dsimp +zetaDelta only

theorem homeAsk_keeps {P : List Part} {s : State} {a1 : State} (a2) (a3) (a4) (hP : ∀ q ∈ ([.page .lw, .page .dc, .slices] : List Part), q ∈ P) (h : Keeps P s a1) :
    Keeps P s (homeAsk a1 a2 a3 a4) := by
  unfold homeAsk
  repeat' first
      | with_reducible assumption | with_reducible apply shadowAsk_keeps | with_reducible apply addRetry_keeps
      | with_reducible apply startBi_keeps | with_reducible apply keeps_ite | with_reducible exact hP _ (by decide)
      | with_reducible exact parts_in hP | with_reducible intro _ | split

end Sys2Proof.Machine
end

