-- ==== Sys2Proof/Laws/KeepCaches.lean ====
section
/-! SUPPORT. What the operations of Machine/Caches.lean leave alone. -/

set_option Elab.async false

namespace Sys2Proof.Machine

open Sys2Proof

theorem cachePage_in {P : List Part} (c : CacheId) (h : Part.page .dc ∈ P) (k : Part.page .cl ∈ P) : Part.page (classOf (cachePage c)) ∈ P := by
  cases c
  · exact k
  · exact h

theorem cacheOffs_small (c : CacheId) : (wayOffAt c).1 < 0x1000 ∧ enOff c < 0x1000 := by cases c <;> exact ⟨by decide +revert, by decide +revert⟩

theorem homeWb_keeps {P : List Part} {s : State} {a1 : State} (a2) (a3) (a4) (a5) (hP : ∀ q ∈ ([.page .lw, .page .ep, .page .dc, .page .mc, .clusters, .dm, .slices, .cxl, .frz, .scrubs] : List Part), q ∈ P) (h : Keeps P s a1) :
    Keeps P s (homeWb a1 a2 a3 a4 a5) := by
  unfold homeWb
  repeat' first
      | with_reducible assumption | with_reducible apply homeStore_keeps | with_reducible apply setSl_keeps | extract_lets
      | with_reducible exact hP _ (by decide) | with_reducible exact parts_in hP | with_reducible intro _ | dsimp +zetaDelta only

theorem homeClean_keeps {P : List Part} {s : State} {a1 : State} (a2) (a3) (hP : ∀ q ∈ ([.slices] : List Part), q ∈ P) (h : Keeps P s a1) :
    Keeps P s (homeClean a1 a2 a3) := by
  unfold homeClean
  repeat' first
      | with_reducible assumption | with_reducible apply setSl_keeps | extract_lets | with_reducible apply keeps_ite
      | with_reducible exact hP _ (by decide) | with_reducible exact parts_in hP | with_reducible intro _ | split | dsimp +zetaDelta only

theorem ccEvict_keeps {P : List Part} {s : State} {a1 : State} (a2) (a3) (hP : ∀ q ∈ ([.page .lw, .page .ep, .page .dc, .page .mc, .clusters, .dm, .slices, .cxl, .frz, .scrubs] : List Part), q ∈ P) (h : Keeps P s a1) :
    Keeps P s (ccEvict a1 a2 a3) := by
  unfold ccEvict
  repeat' first
      | with_reducible assumption | with_reducible apply homeClean_keeps | with_reducible apply homeWb_keeps
      | with_reducible apply setCcLine_keeps | extract_lets | with_reducible exact hP _ (by decide) | with_reducible exact parts_in hP
      | with_reducible intro _ | split | dsimp +zetaDelta only

theorem setWayErrs_keeps {P : List Part} {s : State} {a1 : State} (a2) (a3) (hP : ∀ q ∈ ([.clusters, .slices] : List Part), q ∈ P) (h : Keeps P s a1) :
    Keeps P s (setWayErrs a1 a2 a3) := by
  unfold setWayErrs
  repeat' first
      | with_reducible assumption | with_reducible apply State.setSlice_keeps | with_reducible apply State.setCl_keeps
      | with_reducible exact hP _ (by decide) | with_reducible exact parts_in hP | with_reducible intro _ | split

theorem evictWholeWay_keeps {P : List Part} {s : State} {a1 : State} (a2) (a3) (hP : ∀ q ∈ ([.page .lw, .page .ep, .page .dc, .page .mc, .clusters, .dm, .slices, .cxl, .frz, .scrubs] : List Part), q ∈ P) (h : Keeps P s a1) :
    Keeps P s (evictWholeWay a1 a2 a3) := by
  unfold evictWholeWay
  repeat' first
      | with_reducible assumption | with_reducible apply ccEvict_keeps | with_reducible apply evictWay_keeps
      | with_reducible apply startBi_keeps | with_reducible apply keeps_foldl | with_reducible apply keeps_foldl1
      | with_reducible apply keeps_ite | with_reducible exact hP _ (by decide) | with_reducible exact parts_in hP | with_reducible intro _
      | split | dsimp +zetaDelta only

theorem sweepWays_keeps {P : List Part} {s : State} {a1 : State} (a2) (hP : ∀ q ∈ ([.page .lw, .page .ep, .page .dc, .page .mc, .clusters, .dm, .slices, .cxl, .frz, .scrubs] : List Part), q ∈ P) (h : Keeps P s a1) :
    Keeps P s (sweepWays a1 a2) := by
  unfold sweepWays
  repeat' first
      | with_reducible assumption | with_reducible apply evictWholeWay_keeps | with_reducible apply keeps_range
      | with_reducible apply keeps_foldl | with_reducible apply keeps_foldl1 | with_reducible exact hP _ (by decide)
      | with_reducible exact parts_in hP | with_reducible intro _

theorem wayCheck_keeps {P : List Part} {s : State} {a1 : State} (a2) (a3) (hP : ∀ q ∈ ([.page .lw, .page .ep, .page .dc, .page .cl, .page .mc, .clusters, .dm, .slices, .cxl, .frz, .scrubs] : List Part), q ∈ P) (h : Keeps P s a1) :
    Keeps P s (wayCheck a1 a2 a3) := by
  unfold wayCheck
  repeat' first
      | with_reducible assumption | with_reducible apply evictWholeWay_keeps | with_reducible apply raiseErr_keeps
      | with_reducible apply orPreg_keeps | extract_lets | with_reducible apply keeps_ite | with_reducible exact hP _ (by decide)
      | with_reducible exact parts_in hP | with_reducible exact cachePage_in _ (hP _ (by decide)) (hP _ (by decide))
      | with_reducible exact le_side (by omega) | with_reducible exact lt_side (by omega) | with_reducible exact off_small _ _ _
      | with_reducible exact (cacheOffs_small _).1 | with_reducible exact (cacheOffs_small _).2 | with_reducible intro _ | split
      | dsimp +zetaDelta only

theorem countWay_keeps {P : List Part} {s : State} {a1 : State} (a2) (a3) (hP : ∀ q ∈ ([.page .lw, .page .ep, .page .dc, .page .cl, .page .mc, .clusters, .dm, .slices, .cxl, .frz, .scrubs] : List Part), q ∈ P) (h : Keeps P s a1) :
    Keeps P s (countWay a1 a2 a3) := by
  unfold countWay
  repeat' first
      | with_reducible assumption | with_reducible apply wayCheck_keeps | with_reducible apply setWayErrs_keeps | extract_lets
      | with_reducible apply keeps_ite | with_reducible exact hP _ (by decide) | with_reducible exact parts_in hP | with_reducible intro _
      | split | dsimp +zetaDelta only

theorem scanSet_keeps {P : List Part} {s : State} {a1 : State} (a2) (a3) (a4) (hP : ∀ q ∈ ([.page .lw, .page .ep, .page .dc, .page .mc, .clusters, .dm, .slices, .cxl, .frz, .scrubs] : List Part), q ∈ P) (h : Keeps P s a1) :
    Keeps P s (scanSet a1 a2 a3 a4) := by
  unfold scanSet
  repeat' first
      | with_reducible assumption | with_reducible apply homeWb_keeps | with_reducible apply cancelGrant_keeps
      | with_reducible apply setCcLine_keeps | extract_lets | with_reducible apply keeps_foldl | with_reducible apply keeps_foldl1
      | with_reducible apply keeps_ite | with_reducible exact hP _ (by decide) | with_reducible exact parts_in hP | with_reducible intro _
      | split | dsimp +zetaDelta only

theorem setRecall_keeps {P : List Part} {s : State} {a1 : State} (a2) (a3) (hP : ∀ q ∈ ([.page .lw, .page .ep, .page .dc, .page .mc, .clusters, .dm, .slices, .cxl, .frz, .scrubs] : List Part), q ∈ P) (h : Keeps P s a1) :
    Keeps P s (setRecall a1 a2 a3) := by
  unfold setRecall
  repeat' first
      | with_reducible assumption | with_reducible apply scanSet_keeps | with_reducible apply cntPreg_keeps
      | with_reducible apply keeps_foldl | with_reducible apply keeps_foldl1 | with_reducible exact hP _ (by decide)
      | with_reducible exact parts_in hP | ((with_reducible refine page_in (c := .dc) (hP _ (by decide)) ?_) <;> exact rfl)
      | with_reducible exact le_side (by omega) | with_reducible exact lt_side (by omega) | with_reducible exact off_small _ _ _
      | with_reducible intro _

theorem dropSet_keeps {P : List Part} {s : State} {a1 : State} (a2) (a3) (hP : ∀ q ∈ ([.clusters, .slices] : List Part), q ∈ P) (h : Keeps P s a1) :
    Keeps P s (dropSet a1 a2 a3) := by
  unfold dropSet
  repeat' first
      | with_reducible assumption | with_reducible apply State.setSlice_keeps | with_reducible apply State.setCl_keeps | extract_lets
      | with_reducible exact hP _ (by decide) | with_reducible exact parts_in hP | with_reducible intro _ | split | dsimp +zetaDelta only

theorem countEntry_keeps {P : List Part} {s : State} {a1 : State} (a2) (a3) (hP : ∀ q ∈ ([.page .lw, .page .ep, .page .dc, .page .cl, .page .mc, .clusters, .dm, .slices, .cxl, .frz, .scrubs] : List Part), q ∈ P) (h : Keeps P s a1) :
    Keeps P s (countEntry a1 a2 a3) := by
  unfold countEntry
  repeat' first
      | with_reducible assumption | with_reducible apply countWay_keeps | with_reducible apply keeps_ite
      | with_reducible exact hP _ (by decide) | with_reducible exact parts_in hP | with_reducible intro _ | split

theorem tagError_keeps {P : List Part} {s : State} {a1 : State} (a2) (a3) (a4) (a5) (hP : ∀ q ∈ ([.page .lw, .page .ep, .page .dc, .page .cl, .page .mc, .clusters, .dm, .slices, .cxl, .frz, .scrubs] : List Part), q ∈ P) (h : Keeps P s a1) :
    Keeps P s (tagError a1 a2 a3 a4 a5) := by
  unfold tagError
  repeat' first
      | with_reducible assumption | with_reducible apply countEntry_keeps | with_reducible apply dropSet_keeps
      | with_reducible apply setRecall_keeps | with_reducible apply raiseErr_keeps | extract_lets | with_reducible apply keeps_ite
      | with_reducible exact hP _ (by decide) | with_reducible exact parts_in hP
      | with_reducible exact cachePage_in _ (hP _ (by decide)) (hP _ (by decide)) | with_reducible exact le_side (by omega)
      | with_reducible exact lt_side (by omega) | with_reducible exact off_small _ _ _ | with_reducible intro _ | split
      | dsimp +zetaDelta only

theorem poisonCopy_keeps {P : List Part} {s : State} {a1 : State} (a2) (a3) (hP : ∀ q ∈ ([.clusters, .slices] : List Part), q ∈ P) (h : Keeps P s a1) :
    Keeps P s (poisonCopy a1 a2 a3) := by
  unfold poisonCopy
  repeat' first
      | with_reducible assumption | with_reducible apply setSl_keeps | with_reducible apply setCcLine_keeps
      | with_reducible apply takeFresh_keeps | extract_lets | with_reducible apply keeps_ite | with_reducible exact hP _ (by decide)
      | with_reducible exact parts_in hP | with_reducible intro _ | split | dsimp +zetaDelta only

theorem refetch_keeps {P : List Part} {s : State} {a1 : State} (a2) (a3) (hP : ∀ q ∈ ([.page .dc, .page .mc, .clusters, .dm, .slices, .scrubs] : List Part), q ∈ P) (h : Keeps P s a1) :
    Keeps P s (refetch a1 a2 a3) := by
  unfold refetch
  repeat' first
      | with_reducible assumption | with_reducible apply homeClean_keeps | with_reducible apply askOwn_keeps
      | with_reducible apply askHost_keeps | with_reducible apply slMissAgain_keeps | with_reducible apply homeData_keeps
      | with_reducible apply setSl_keeps | with_reducible apply setCcLine_keeps | with_reducible apply readLineAt_keeps
      | with_reducible apply emit_keeps | extract_lets | with_reducible apply keeps_ite | with_reducible exact hP _ (by decide)
      | with_reducible exact parts_in hP | with_reducible intro _ | split | dsimp +zetaDelta only

theorem applyFault_keeps {P : List Part} {s : State} {a1 : State} (a2) (a3) (a4) (hP : ∀ q ∈ ([.page .lw, .page .ep, .page .dc, .page .cl, .page .mc, .clusters, .dm, .slices, .cxl, .frz, .scrubs] : List Part), q ∈ P) (h : Keeps P s a1) :
    Keeps P s (applyFault a1 a2 a3 a4) := by
  unfold applyFault
  repeat' first
      | with_reducible assumption | with_reducible apply refetch_keeps | with_reducible apply poisonCopy_keeps
      | with_reducible apply tagError_keeps | with_reducible apply countWay_keeps | with_reducible apply raiseErr_keeps
      | with_reducible apply keeps_ite | with_reducible exact hP _ (by decide) | with_reducible exact parts_in hP
      | with_reducible exact cachePage_in _ (hP _ (by decide)) (hP _ (by decide)) | with_reducible exact le_side (by omega)
      | with_reducible exact lt_side (by omega) | with_reducible exact off_small _ _ _ | with_reducible intro _ | split

theorem ccMerge_keeps {P : List Part} {s : State} {a1 : State} (a2) (a3) (a4) (hP : ∀ q ∈ ([.page .cl, .clusters] : List Part), q ∈ P) (h : Keeps P s a1) :
    Keeps P s (ccMerge a1 a2 a3 a4) := by
  unfold ccMerge
  repeat' first
      | with_reducible assumption | with_reducible apply State.setCl_keeps | with_reducible apply cntPreg_keeps | extract_lets
      | with_reducible apply keeps_ite | with_reducible exact hP _ (by decide) | with_reducible exact parts_in hP
      | ((with_reducible refine page_in (c := .cl) (hP _ (by decide)) ?_) <;> exact rfl) | with_reducible exact le_side (by omega)
      | with_reducible exact lt_side (by omega) | with_reducible exact off_small _ _ _ | with_reducible intro _ | split
      | dsimp +zetaDelta only

theorem clusterMiss_keeps {P : List Part} {s : State} {a1 : State} (a2) (a3) (a4) (a5) (hP : ∀ q ∈ ([.page .lw, .page .ep, .page .dc, .page .cl, .page .mc, .clusters, .dm, .slices, .cxl, .frz, .scrubs] : List Part), q ∈ P) (h : Keeps P s a1) :
    Keeps P s (clusterMiss a1 a2 a3 a4 a5) := by
  unfold clusterMiss
  repeat' first
      | with_reducible assumption | with_reducible apply ccMerge_keeps | with_reducible apply homeReq_keeps
      | with_reducible apply State.setCl_keeps | with_reducible apply cntPreg_keeps | extract_lets | with_reducible apply keeps_ite
      | with_reducible exact hP _ (by decide) | with_reducible exact parts_in hP
      | ((with_reducible refine page_in (c := .cl) (hP _ (by decide)) ?_) <;> exact rfl) | with_reducible exact le_side (by omega)
      | with_reducible exact lt_side (by omega) | with_reducible exact off_small _ _ _ | with_reducible intro _ | split
      | dsimp +zetaDelta only

theorem execRds_keeps {P : List Part} {s : State} (a1) (a2) (a3) (a4) {a5 : State} (hP : ∀ q ∈ ([.page .lw, .page .ep, .page .dc, .page .cl, .page .mc, .clusters, .dm, .slices, .cxl, .frz, .scrubs] : List Part), q ∈ P) (h : Keeps P s a5) :
    NextKeeps P s (execRds a1 a2 a3 a4 a5) := by
  unfold execRds
  repeat' first
      | with_reducible assumption | with_reducible apply nextKeeps_next | with_reducible apply clusterMiss_keeps
      | with_reducible apply applyFault_keeps | with_reducible apply keeps_ite | with_reducible exact hP _ (by decide)
      | with_reducible exact parts_in hP | with_reducible intro _ | split

theorem execRdo_keeps {P : List Part} {s : State} (a1) (a2) (a3) {a4 : State} (hP : ∀ q ∈ ([.page .lw, .page .ep, .page .dc, .page .cl, .page .mc, .clusters, .dm, .slices, .cxl, .frz, .scrubs] : List Part), q ∈ P) (h : Keeps P s a4) :
    NextKeeps P s (execRdo a1 a2 a3 a4) := by
  unfold execRdo
  repeat' first
      | with_reducible assumption | with_reducible apply nextKeeps_next | with_reducible apply clusterMiss_keeps
      | with_reducible exact hP _ (by decide) | with_reducible exact parts_in hP | with_reducible intro _ | split

theorem execUpg_keeps {P : List Part} {s : State} (a1) (a2) (a3) {a4 : State} (hP : ∀ q ∈ ([.page .lw, .page .ep, .page .dc, .page .cl, .page .mc, .clusters, .dm, .slices, .cxl, .frz, .scrubs] : List Part), q ∈ P) (h : Keeps P s a4) :
    NextKeeps P s (execUpg a1 a2 a3 a4) := by
  unfold execUpg
  repeat' first
      | with_reducible assumption | with_reducible apply nextKeeps_next | with_reducible apply clusterMiss_keeps
      | with_reducible apply keeps_ite | with_reducible exact hP _ (by decide) | with_reducible exact parts_in hP | with_reducible intro _
      | split

theorem execWb_keeps {P : List Part} {s : State} (a1) (a2) {a3 : State} (hP : ∀ q ∈ ([.page .lw, .page .ep, .page .dc, .page .mc, .clusters, .dm, .slices, .cxl, .frz, .scrubs] : List Part), q ∈ P) (h : Keeps P s a3) :
    NextKeeps P s (execWb a1 a2 a3) := by
  unfold execWb
  repeat' first
      | with_reducible assumption | with_reducible apply nextKeeps_next | with_reducible apply ccEvict_keeps
      | with_reducible apply startBi_keeps | with_reducible apply keeps_ite | with_reducible exact hP _ (by decide)
      | with_reducible exact parts_in hP | with_reducible intro _ | split

theorem execCleanNotice_keeps {P : List Part} {s : State} (a1) (a2) {a3 : State} (hP : ∀ q ∈ ([.page .lw, .page .ep, .page .dc, .page .mc, .clusters, .dm, .slices, .cxl, .frz, .scrubs] : List Part), q ∈ P) (h : Keeps P s a3) :
    NextKeeps P s (execCleanNotice a1 a2 a3) := by
  unfold execCleanNotice
  repeat' first
      | with_reducible assumption | with_reducible apply nextKeeps_next | with_reducible apply ccEvict_keeps
      | with_reducible apply keeps_ite | with_reducible exact hP _ (by decide) | with_reducible exact parts_in hP | with_reducible intro _
      | split

theorem execRdcur_keeps {P : List Part} {s : State} (a1) (a2) (a3) {a4 : State} (hP : ∀ q ∈ ([.page .lw, .page .ep, .page .dc, .page .mc, .clusters, .dm, .slices, .cxl, .frz, .scrubs] : List Part), q ∈ P) (h : Keeps P s a4) :
    NextKeeps P s (execRdcur a1 a2 a3 a4) := by
  unfold execRdcur
  repeat' first
      | with_reducible assumption | with_reducible apply nextKeeps_next | with_reducible apply homeReq_keeps
      | with_reducible exact hP _ (by decide) | with_reducible exact parts_in hP | with_reducible intro _

theorem execWrinv_keeps {P : List Part} {s : State} (a1) (a2) (a3) {a4 : State} (hP : ∀ q ∈ ([.page .lw, .page .ep, .page .dc, .page .mc, .clusters, .dm, .slices, .cxl, .frz, .scrubs] : List Part), q ∈ P) (h : Keeps P s a4) :
    NextKeeps P s (execWrinv a1 a2 a3 a4) := by
  unfold execWrinv
  repeat' first
      | with_reducible assumption | with_reducible apply nextKeeps_next | with_reducible apply homeReq_keeps
      | with_reducible exact hP _ (by decide) | with_reducible exact parts_in hP | with_reducible intro _

theorem execWrpart_keeps {P : List Part} {s : State} (a1) (a2) (a3) (a4) (a5) {a6 : State} (hP : ∀ q ∈ ([.page .lw, .page .ep, .page .dc, .page .mc, .clusters, .dm, .slices, .cxl, .frz, .scrubs] : List Part), q ∈ P) (h : Keeps P s a6) :
    NextKeeps P s (execWrpart a1 a2 a3 a4 a5 a6) := by
  unfold execWrpart
  repeat' first
      | with_reducible assumption | with_reducible apply nextKeeps_next | with_reducible apply homeReq_keeps
      | with_reducible apply keeps_ite | with_reducible exact hP _ (by decide) | with_reducible exact parts_in hP | with_reducible intro _
      | split

theorem execForwardRequest_keeps {P : List Part} {s : State} (a1) (a2) (a3) {a4 : State} (hP : ∀ q ∈ ([.page .lw, .page .ep, .page .dc, .page .mc, .clusters, .dm, .slices, .cxl, .frz, .scrubs] : List Part), q ∈ P) (h : Keeps P s a4) :
    NextKeeps P s (execForwardRequest a1 a2 a3 a4) := by
  unfold execForwardRequest
  repeat' first
      | with_reducible assumption | with_reducible apply nextKeeps_next | with_reducible apply homeStore_keeps
      | with_reducible apply setSl_keeps | with_reducible apply setCcLine_keeps | extract_lets | with_reducible apply keeps_ite
      | with_reducible exact hP _ (by decide) | with_reducible exact parts_in hP | with_reducible intro _ | split | dsimp +zetaDelta only

theorem execSnoopInvalidate_keeps {P : List Part} {s : State} (a1) (a2) {a3 : State} (hP : ∀ q ∈ ([.page .lw, .page .ep, .page .dc, .page .mc, .clusters, .dm, .slices, .cxl, .frz, .scrubs] : List Part), q ∈ P) (h : Keeps P s a3) :
    NextKeeps P s (execSnoopInvalidate a1 a2 a3) := by
  unfold execSnoopInvalidate
  repeat' first
      | with_reducible assumption | with_reducible apply nextKeeps_next | with_reducible apply homeClean_keeps
      | with_reducible apply homeStore_keeps | with_reducible apply dropCopy_keeps | extract_lets | with_reducible exact hP _ (by decide)
      | with_reducible exact parts_in hP | with_reducible intro _ | split | dsimp +zetaDelta only

theorem execRequestRetry_keeps {P : List Part} {s : State} (a1) (a2) (a3) {a4 : State} (hP : ∀ q ∈ ([.page .dc, .slices] : List Part), q ∈ P) (h : Keeps P s a4) :
    NextKeeps P s (execRequestRetry a1 a2 a3 a4) := by
  unfold execRequestRetry
  repeat' first
      | with_reducible assumption | with_reducible apply nextKeeps_next | with_reducible apply State.setSlice_keeps
      | with_reducible apply when_keeps | with_reducible apply cntPreg_keeps | extract_lets | with_reducible apply keeps_ite
      | with_reducible exact hP _ (by decide) | with_reducible exact parts_in hP
      | ((with_reducible refine page_in (c := .dc) (hP _ (by decide)) ?_) <;> exact rfl) | with_reducible exact le_side (by omega)
      | with_reducible exact lt_side (by omega) | with_reducible exact off_small _ _ _ | with_reducible intro _ | split
      | dsimp +zetaDelta only

theorem execDcStarve_keeps {P : List Part} {s : State} (a1) (a2) (a3) {a4 : State} (hP : ∀ q ∈ ([.page .dc] : List Part), q ∈ P) (h : Keeps P s a4) :
    NextKeeps P s (execDcStarve a1 a2 a3 a4) := by
  unfold execDcStarve
  repeat' first
      | with_reducible assumption | with_reducible apply nextKeeps_next | with_reducible apply raiseErr_keeps
      | with_reducible apply keeps_ite | with_reducible exact hP _ (by decide) | with_reducible exact parts_in hP
      | ((with_reducible refine page_in (c := .dc) (hP _ (by decide)) ?_) <;> exact rfl) | with_reducible exact le_side (by omega)
      | with_reducible exact lt_side (by omega) | with_reducible exact off_small _ _ _ | with_reducible intro _ | split

theorem clusterFill_keeps {P : List Part} {s : State} {a1 : State} (a2) (a3) (a4) (a5) (hP : ∀ q ∈ ([.page .lw, .page .ep, .page .dc, .page .mc, .clusters, .dm, .slices, .cxl, .frz, .scrubs] : List Part), q ∈ P) (h : Keeps P s a1) :
    Keeps P s (clusterFill a1 a2 a3 a4 a5) := by
  unfold clusterFill
  repeat' first
      | with_reducible assumption | with_reducible apply ccEvict_keeps | with_reducible apply homeClean_keeps
      | with_reducible apply setCcLine_keeps | with_reducible apply State.setCl_keeps | extract_lets | with_reducible apply keeps_ite
      | with_reducible exact hP _ (by decide) | with_reducible exact parts_in hP | with_reducible intro _ | split | dsimp +zetaDelta only

theorem ccPick_keeps {P : List Part} {s : State} {a1 : State} (a2) (a3) (h : Keeps P s a1) :
    Keeps P s (ccPick a1 a2 a3).1 := by
  unfold ccPick
  repeat' first
      | with_reducible assumption | with_reducible apply takeFresh_keeps | extract_lets | with_reducible apply keeps_ite
      | with_reducible intro _ | split | dsimp +zetaDelta only

theorem sliceInstall_keeps {P : List Part} {s : State} {a1 : State} (a2) (a3) (a4) (a5) (hP : ∀ q ∈ ([.page .ep, .page .dc, .page .mc, .clusters, .dm, .slices, .cxl, .frz, .scrubs] : List Part), q ∈ P) (h : Keeps P s a1) :
    Keeps P s (sliceInstall a1 a2 a3 a4 a5) := by
  unfold sliceInstall
  repeat' first
      | with_reducible assumption | with_reducible apply shadowRoom_keeps | with_reducible apply setSl_keeps
      | with_reducible apply State.setSlice_keeps | extract_lets | with_reducible apply keeps_ite | with_reducible exact hP _ (by decide)
      | with_reducible exact parts_in hP | with_reducible intro _ | split | dsimp +zetaDelta only

theorem answerMerged_keeps {P : List Part} {s : State} {a1 : State} (a2) (a3) (a4) (h : Keeps P s a1) :
    Keeps P s (answerMerged a1 a2 a3 a4) := by
  unfold answerMerged
  repeat' first
      | with_reducible assumption | with_reducible apply emit_keeps | with_reducible apply keeps_foldl | with_reducible apply keeps_foldl1
      | with_reducible apply keeps_ite | with_reducible intro _ | split | dsimp +zetaDelta only

theorem sliceFill_keeps {P : List Part} {s : State} {a1 : State} (a2) (a3) (a4) (a5) (hP : ∀ q ∈ ([.page .lw, .page .ep, .page .dc, .page .mc, .clusters, .dm, .slices, .cxl, .frz, .scrubs] : List Part), q ∈ P) (h : Keeps P s a1) :
    Keeps P s (sliceFill a1 a2 a3 a4 a5) := by
  unfold sliceFill
  repeat' first
      | with_reducible assumption | with_reducible apply answerMerged_keeps | with_reducible apply sliceInstall_keeps
      | with_reducible apply evictWay_keeps | extract_lets | with_reducible apply keeps_ite | with_reducible exact hP _ (by decide)
      | with_reducible exact parts_in hP | with_reducible intro _ | split | dsimp +zetaDelta only

theorem landSlice_keeps {P : List Part} {s : State} {a1 : State} (a2) (hP : ∀ q ∈ ([.page .lw, .page .ep, .page .dc, .page .mc, .clusters, .dm, .slices, .cxl, .frz, .scrubs] : List Part), q ∈ P) (h : Keeps P s a1) :
    Keeps P s (landSlice a1 a2) := by
  unfold landSlice
  repeat' first
      | with_reducible assumption | with_reducible apply answerMerged_keeps | with_reducible apply sliceInstall_keeps
      | with_reducible apply pickWay_keeps | extract_lets | with_reducible exact hP _ (by decide) | with_reducible exact parts_in hP
      | with_reducible intro _ | split | dsimp +zetaDelta only

theorem landGrant_keeps {P : List Part} {s : State} {a1 : State} (a2) (a3) (hP : ∀ q ∈ ([.page .lw, .page .ep, .page .dc, .page .mc, .clusters, .dm, .slices, .cxl, .frz, .scrubs] : List Part), q ∈ P) (h : Keeps P s a1) :
    Keeps P s (landGrant a1 a2 a3) := by
  unfold landGrant
  repeat' first
      | with_reducible assumption | with_reducible apply landSlice_keeps | with_reducible apply ccPick_keeps
      | with_reducible apply clusterFill_keeps | extract_lets | with_reducible exact hP _ (by decide) | with_reducible exact parts_in hP
      | with_reducible intro _ | split | dsimp +zetaDelta only

theorem setFlags_keeps {P : List Part} {s : State} {a1 : State} (a2) (a3) (a4) (a5) (hP : ∀ q ∈ ([.clusters, .slices] : List Part), q ∈ P) (h : Keeps P s a1) :
    Keeps P s (setFlags a1 a2 a3 a4 a5) := by
  unfold setFlags
  repeat' first
      | with_reducible assumption | with_reducible apply State.setSlice_keeps | with_reducible apply State.setCl_keeps
      | with_reducible exact hP _ (by decide) | with_reducible exact parts_in hP | with_reducible intro _ | split

theorem cacheEnableAct_keeps {P : List Part} {s : State} {a1 : State} (a2) (a3) (a4) (hP : ∀ q ∈ ([.page .dc, .page .cl, .clusters, .slices] : List Part), q ∈ P) (h : Keeps P s a1) :
    Keeps P s (cacheEnableAct a1 a2 a3 a4) := by
  unfold cacheEnableAct
  repeat' first
      | with_reducible assumption | with_reducible apply setFlags_keeps | with_reducible apply raiseErr_keeps
      | with_reducible apply rejectEnable_keeps | extract_lets | with_reducible apply keeps_ite | with_reducible exact hP _ (by decide)
      | with_reducible exact parts_in hP | with_reducible exact cachePage_in _ (hP _ (by decide)) (hP _ (by decide))
      | with_reducible exact le_side (by omega) | with_reducible exact lt_side (by omega) | with_reducible exact off_small _ _ _
      | with_reducible exact (cacheOffs_small _).1 | with_reducible exact (cacheOffs_small _).2 | with_reducible intro _ | split
      | dsimp +zetaDelta only

theorem clearAsk_keeps {P : List Part} {s : State} {a1 : State} (a2) (hP : ∀ q ∈ ([.page .lw, .page .dc, .slices] : List Part), q ∈ P) (h : Keeps P s a1) :
    Keeps P s (clearAsk a1 a2) := by
  unfold clearAsk
  repeat' first
      | with_reducible assumption | with_reducible apply startBi_keeps | with_reducible apply keeps_foldl
      | with_reducible apply keeps_foldl1 | with_reducible apply keeps_ite | with_reducible exact hP _ (by decide)
      | with_reducible exact parts_in hP | with_reducible intro _ | split | dsimp +zetaDelta only

theorem startClear_keeps {P : List Part} {s : State} {a1 : State} (a2) (a3) (hP : ∀ q ∈ ([.page .lw, .page .dc, .clusters, .slices] : List Part), q ∈ P) (h : Keeps P s a1) :
    Keeps P s (startClear a1 a2 a3) := by
  unfold startClear
  repeat' first
      | with_reducible assumption | with_reducible apply clearAsk_keeps | with_reducible apply State.setSlice_keeps
      | with_reducible apply State.setCl_keeps | extract_lets | with_reducible exact hP _ (by decide) | with_reducible exact parts_in hP
      | with_reducible intro _ | split | dsimp +zetaDelta only

theorem ccCtrlWrite_keeps {P : List Part} {s : State} {a1 : State} (a2) (a3) (hP : ∀ q ∈ ([.page .lw, .page .dc, .page .cl, .staged, .clusters, .slices] : List Part), q ∈ P) (h : Keeps P s a1) :
    Keeps P s (ccCtrlWrite a1 a2 a3) := by
  unfold ccCtrlWrite
  repeat' first
      | with_reducible assumption | with_reducible apply startClear_keeps | with_reducible apply cacheEnableAct_keeps
      | with_reducible apply pageWrite_keeps | with_reducible apply when_keeps | extract_lets | with_reducible apply keeps_ite
      | with_reducible exact hP _ (by decide) | with_reducible exact parts_in hP
      | ((with_reducible refine page_in (c := .cl) (hP _ (by decide)) ?_) <;> exact rfl) | with_reducible exact le_side (by omega)
      | with_reducible exact lt_side (by omega) | with_reducible exact off_small _ _ _ | with_reducible intro _ | split
      | dsimp +zetaDelta only

theorem dcCmdWrite_keeps {P : List Part} {s : State} {a1 : State} (a2) (a3) (hP : ∀ q ∈ ([.page .lw, .page .dc, .staged, .clusters, .slices] : List Part), q ∈ P) (h : Keeps P s a1) :
    Keeps P s (dcCmdWrite a1 a2 a3) := by
  unfold dcCmdWrite
  repeat' first
      | with_reducible assumption | with_reducible apply startClear_keeps | with_reducible apply pageWrite_keeps
      | with_reducible apply when_keeps | extract_lets | with_reducible exact hP _ (by decide) | with_reducible exact parts_in hP
      | ((with_reducible refine page_in (c := .dc) (hP _ (by decide)) ?_) <;> exact rfl) | with_reducible exact le_side (by omega)
      | with_reducible exact lt_side (by omega) | with_reducible exact off_small _ _ _ | with_reducible intro _ | dsimp +zetaDelta only

theorem execCcFlush_keeps {P : List Part} {s : State} (a1) (a2) {a3 : State} (hP : ∀ q ∈ ([.page .lw, .page .dc, .page .cl, .staged, .clusters, .slices] : List Part), q ∈ P) (h : Keeps P s a3) :
    NextKeeps P s (execCcFlush a1 a2 a3) := by
  unfold execCcFlush
  repeat' first
      | with_reducible assumption | with_reducible apply nextKeeps_next | with_reducible apply ccCtrlWrite_keeps
      | with_reducible exact hP _ (by decide) | with_reducible exact parts_in hP | with_reducible intro _

theorem execCcInv_keeps {P : List Part} {s : State} (a1) (a2) {a3 : State} (hP : ∀ q ∈ ([.page .lw, .page .dc, .page .cl, .staged, .clusters, .slices] : List Part), q ∈ P) (h : Keeps P s a3) :
    NextKeeps P s (execCcInv a1 a2 a3) := by
  unfold execCcInv
  repeat' first
      | with_reducible assumption | with_reducible apply nextKeeps_next | with_reducible apply ccCtrlWrite_keeps
      | with_reducible exact hP _ (by decide) | with_reducible exact parts_in hP | with_reducible intro _

theorem execDcFlush_keeps {P : List Part} {s : State} (a1) (a2) {a3 : State} (hP : ∀ q ∈ ([.page .lw, .page .dc, .staged, .clusters, .slices] : List Part), q ∈ P) (h : Keeps P s a3) :
    NextKeeps P s (execDcFlush a1 a2 a3) := by
  unfold execDcFlush
  repeat' first
      | with_reducible assumption | with_reducible apply nextKeeps_next | with_reducible apply dcCmdWrite_keeps
      | with_reducible exact hP _ (by decide) | with_reducible exact parts_in hP | with_reducible intro _

theorem execDcInv_keeps {P : List Part} {s : State} (a1) (a2) {a3 : State} (hP : ∀ q ∈ ([.page .lw, .page .dc, .staged, .clusters, .slices] : List Part), q ∈ P) (h : Keeps P s a3) :
    NextKeeps P s (execDcInv a1 a2 a3) := by
  unfold execDcInv
  repeat' first
      | with_reducible assumption | with_reducible apply nextKeeps_next | with_reducible apply dcCmdWrite_keeps
      | with_reducible exact hP _ (by decide) | with_reducible exact parts_in hP | with_reducible intro _

theorem clusterClear_keeps {P : List Part} {s : State} {a1 : State} (a2) (a3) (hP : ∀ q ∈ ([.page .lw, .page .ep, .page .dc, .page .cl, .page .mc, .clusters, .dm, .slices, .cxl, .frz, .scrubs] : List Part), q ∈ P) (h : Keeps P s a1) :
    Keeps P s (clusterClear a1 a2 a3) := by
  unfold clusterClear
  repeat' first
      | with_reducible assumption | with_reducible apply ccEvict_keeps | with_reducible apply homeClean_keeps
      | with_reducible apply setCcLine_keeps | with_reducible apply cntPreg_keeps | with_reducible apply keeps_foldl
      | with_reducible apply keeps_foldl1 | with_reducible apply keeps_ite | with_reducible exact hP _ (by decide)
      | with_reducible exact parts_in hP | ((with_reducible refine page_in (c := .cl) (hP _ (by decide)) ?_) <;> exact rfl)
      | with_reducible exact le_side (by omega) | with_reducible exact lt_side (by omega) | with_reducible exact off_small _ _ _
      | with_reducible intro _ | split | dsimp +zetaDelta only

theorem sliceDrop_keeps {P : List Part} {s : State} (a1) {a2 : State} (a3) (hP : ∀ q ∈ ([.page .ep, .page .dc, .page .mc, .clusters, .dm, .slices, .cxl, .frz, .scrubs] : List Part), q ∈ P) (h : Keeps P s a2) :
    Keeps P s (sliceDrop a1 a2 a3) := by
  unfold sliceDrop
  repeat' first
      | with_reducible assumption | with_reducible apply dropCopies_keeps | with_reducible apply writeBelow_keeps
      | with_reducible apply setSl_keeps | with_reducible apply cntPreg_keeps | extract_lets | with_reducible apply keeps_ite
      | with_reducible exact hP _ (by decide) | with_reducible exact parts_in hP
      | ((with_reducible refine page_in (c := .dc) (hP _ (by decide)) ?_) <;> exact rfl) | with_reducible exact le_side (by omega)
      | with_reducible exact lt_side (by omega) | with_reducible exact off_small _ _ _ | with_reducible intro _ | split
      | dsimp +zetaDelta only

theorem sliceClear_keeps {P : List Part} {s : State} {a1 : State} (a2) (a3) (hP : ∀ q ∈ ([.page .ep, .page .dc, .page .mc, .clusters, .dm, .slices, .cxl, .frz, .scrubs] : List Part), q ∈ P) (h : Keeps P s a1) :
    Keeps P s (sliceClear a1 a2 a3) := by
  unfold sliceClear
  repeat' first
      | with_reducible assumption | with_reducible apply sliceDrop_keeps | with_reducible apply keeps_foldl
      | with_reducible apply keeps_foldl1 | with_reducible exact hP _ (by decide) | with_reducible exact parts_in hP
      | with_reducible intro _ | dsimp +zetaDelta only

theorem finishClear_keeps {P : List Part} {s : State} {a1 : State} (a2) (hP : ∀ q ∈ ([.page .lw, .page .ep, .page .dc, .page .cl, .page .mc, .clusters, .dm, .slices, .cxl, .frz, .scrubs] : List Part), q ∈ P) (h : Keeps P s a1) :
    Keeps P s (finishClear a1 a2) := by
  unfold finishClear
  repeat' first
      | with_reducible assumption | with_reducible apply setFlags_keeps | with_reducible apply wayCheck_keeps
      | with_reducible apply goDone_keeps | with_reducible apply State.setSlice_keeps | with_reducible apply State.setCl_keeps
      | extract_lets | with_reducible apply keeps_range | with_reducible apply keeps_foldl | with_reducible apply keeps_foldl1
      | with_reducible apply keeps_ite | with_reducible exact hP _ (by decide) | with_reducible exact parts_in hP
      | with_reducible exact cachePage_in _ (hP _ (by decide)) (hP _ (by decide)) | with_reducible exact le_side (by omega)
      | with_reducible exact lt_side (by omega) | with_reducible exact off_small _ _ _ | with_reducible intro _ | split
      | dsimp +zetaDelta only

end Sys2Proof.Machine
end

