-- ==== Sys2Proof/Laws/KeepCrossOps.lean ====
section
/-! SUPPORT. What the operations of Machine/CrossOps.lean leave alone. -/

set_option Elab.async false

namespace Sys2Proof.Machine

open Sys2Proof

theorem setPortState_keeps {P : List Part} {s : State} {a1 : State} (a2) (a3) (hP : ∀ q ∈ ([.page .xl, .ports, .boot] : List Part), q ∈ P) (h : Keeps P s a1) :
    Keeps P s (setPortState a1 a2 a3) := by
  unfold setPortState
  repeat' first
      | with_reducible assumption | with_reducible apply withReady_keeps | with_reducible apply raiseInt_keeps
      | with_reducible apply State.setPort_keeps | with_reducible apply keeps_ite | with_reducible exact hP _ (by decide)
      | with_reducible exact parts_in hP | ((with_reducible refine page_in (c := .xl) (hP _ (by decide)) ?_) <;> exact rfl)
      | with_reducible exact le_side (by omega) | with_reducible exact lt_side (by omega) | with_reducible exact off_small _ _ _
      | with_reducible intro _ | split

theorem sendWord_keeps {P : List Part} {s : State} {a1 : State} (a2) (a3) (h : Keeps P s a1) :
    Keeps P s (sendWord a1 a2 a3) := by
  unfold sendWord
  repeat' first
      | with_reducible assumption | with_reducible apply emit_keeps | with_reducible intro _

theorem logLost_keeps {P : List Part} {s : State} {a1 : State} (a2) (a3) (a4) (a5) (a6) (a7) (h : Keeps P s a1) :
    Keeps P s (logLost a1 a2 a3 a4 a5 a6 a7) := by
  unfold logLost
  repeat' first
      | with_reducible assumption | with_reducible apply offer_keeps | with_reducible intro _

theorem sendReliable_keeps {P : List Part} {s : State} {a1 : State} (a2) (a3) (hP : ∀ q ∈ ([.page .xl, .ports] : List Part), q ∈ P) (h : Keeps P s a1) :
    Keeps P s (sendReliable a1 a2 a3) := by
  unfold sendReliable
  repeat' first
      | with_reducible assumption | with_reducible apply logLost_keeps | with_reducible apply raiseErr_keeps
      | with_reducible apply State.setPort_keeps | with_reducible apply emit_keeps | extract_lets | with_reducible apply keeps_ite
      | with_reducible exact hP _ (by decide) | with_reducible exact parts_in hP
      | ((with_reducible refine page_in (c := .xl) (hP _ (by decide)) ?_) <;> exact rfl) | with_reducible exact le_side (by omega)
      | with_reducible exact lt_side (by omega) | with_reducible exact off_small _ _ _ | with_reducible intro _ | split
      | dsimp +zetaDelta only

theorem closeBundle_keeps {P : List Part} {s : State} {a1 : State} (a2) (a3) (hP : ∀ q ∈ ([.ports] : List Part), q ∈ P) (h : Keeps P s a1) :
    Keeps P s (closeBundle a1 a2 a3) := by
  unfold closeBundle
  repeat' first
      | with_reducible assumption | with_reducible apply State.setPort_keeps | extract_lets | with_reducible exact hP _ (by decide)
      | with_reducible exact parts_in hP | with_reducible intro _ | dsimp +zetaDelta only

theorem settleOpens_keeps {P : List Part} {s : State} {a1 : State} (a2) (hP : ∀ q ∈ ([.ports] : List Part), q ∈ P) (h : Keeps P s a1) :
    Keeps P s (settleOpens a1 a2) := by
  unfold settleOpens
  repeat' first
      | with_reducible assumption | with_reducible apply closeBundle_keeps | with_reducible apply keeps_foldl
      | with_reducible apply keeps_foldl1 | with_reducible apply keeps_ite | with_reducible exact hP _ (by decide)
      | with_reducible exact parts_in hP | with_reducible intro _ | split

theorem mapOpens_keeps {P : List Part} {s : State} {a1 : State} (a2) (a3) (hP : ∀ q ∈ ([.ports] : List Part), q ∈ P) (h : Keeps P s a1) :
    Keeps P s (mapOpens a1 a2 a3) := by
  unfold mapOpens
  repeat' first
      | with_reducible assumption | with_reducible apply settleOpens_keeps | with_reducible apply State.setPort_keeps
      | with_reducible exact hP _ (by decide) | with_reducible exact parts_in hP | with_reducible intro _

theorem closeFor_keeps {P : List Part} {s : State} {a1 : State} (a2) (a3) (hP : ∀ q ∈ ([.ports] : List Part), q ∈ P) (h : Keeps P s a1) :
    Keeps P s (closeFor a1 a2 a3) := by
  unfold closeFor
  repeat' first
      | with_reducible assumption | with_reducible apply mapOpens_keeps | with_reducible apply keeps_ite
      | with_reducible exact hP _ (by decide) | with_reducible exact parts_in hP | with_reducible intro _ | split

theorem openFor_keeps {P : List Part} {s : State} {a1 : State} (a2) (a3) (hP : ∀ q ∈ ([.ports] : List Part), q ∈ P) (h : Keeps P s a1) :
    Keeps P s (openFor a1 a2 a3) := by
  unfold openFor
  repeat' first
      | with_reducible assumption | with_reducible apply State.setPort_keeps | extract_lets | with_reducible apply keeps_ite
      | with_reducible exact hP _ (by decide) | with_reducible exact parts_in hP | with_reducible intro _ | split | dsimp +zetaDelta only

theorem xlAppend_keeps {P : List Part} {s : State} {a1 : State} (a2) (a3) (a4) (hP : ∀ q ∈ ([.ports] : List Part), q ∈ P) (h : Keeps P s a1) :
    Keeps P s (xlAppend a1 a2 a3 a4) := by
  unfold xlAppend
  repeat' first
      | with_reducible assumption | with_reducible apply openFor_keeps | with_reducible apply mapOpens_keeps
      | with_reducible apply keeps_ite | with_reducible exact hP _ (by decide) | with_reducible exact parts_in hP | with_reducible intro _
      | split

theorem xlReserve_keeps {P : List Part} {s : State} {a1 : State} (a2) (a3) (a4) (hP : ∀ q ∈ ([.ports] : List Part), q ∈ P) (h : Keeps P s a1) :
    Keeps P s (xlReserve a1 a2 a3 a4) := by
  unfold xlReserve
  repeat' first
      | with_reducible assumption | with_reducible apply openFor_keeps | with_reducible apply mapOpens_keeps
      | with_reducible apply keeps_ite | with_reducible exact hP _ (by decide) | with_reducible exact parts_in hP | with_reducible intro _
      | split

theorem xlFill_keeps {P : List Part} {s : State} {a1 : State} (a2) (a3) (hP : ∀ q ∈ ([.ports] : List Part), q ∈ P) (h : Keeps P s a1) :
    Keeps P s (xlFill a1 a2 a3) := by
  unfold xlFill
  repeat' first
      | with_reducible assumption | with_reducible apply mapOpens_keeps | with_reducible apply keeps_foldl
      | with_reducible apply keeps_foldl1 | with_reducible apply keeps_ite | with_reducible exact hP _ (by decide)
      | with_reducible exact parts_in hP | with_reducible intro _ | split

theorem xlCancel_keeps {P : List Part} {s : State} {a1 : State} (a2) (hP : ∀ q ∈ ([.ports] : List Part), q ∈ P) (h : Keeps P s a1) :
    Keeps P s (xlCancel a1 a2) := by
  unfold xlCancel
  repeat' first
      | with_reducible assumption | with_reducible apply settleOpens_keeps | with_reducible apply State.setPort_keeps | extract_lets
      | with_reducible apply keeps_foldl | with_reducible apply keeps_foldl1 | with_reducible apply keeps_ite
      | with_reducible exact hP _ (by decide) | with_reducible exact parts_in hP | with_reducible intro _ | split | dsimp +zetaDelta only

theorem freeBerth_keeps {P : List Part} {s : State} {a1 : State} (a2) (a3) (hP : ∀ q ∈ ([.ports] : List Part), q ∈ P) (h : Keeps P s a1) :
    Keeps P s (freeBerth a1 a2 a3) := by
  unfold freeBerth
  repeat' first
      | with_reducible assumption | with_reducible apply sendWord_keeps | with_reducible apply State.setPort_keeps | extract_lets
      | with_reducible exact hP _ (by decide) | with_reducible exact parts_in hP | with_reducible intro _ | dsimp +zetaDelta only

theorem loseBundle_keeps {P : List Part} {s : State} {a1 : State} (a2) (a3) (hP : ∀ q ∈ ([.page .xl, .ports] : List Part), q ∈ P) (h : Keeps P s a1) :
    Keeps P s (loseBundle a1 a2 a3) := by
  unfold loseBundle
  repeat' first
      | with_reducible assumption | with_reducible apply freeBerth_keeps | with_reducible apply logLost_keeps
      | with_reducible apply State.setPort_keeps | with_reducible apply cntPreg_keeps | extract_lets | with_reducible apply keeps_ite
      | with_reducible exact hP _ (by decide) | with_reducible exact parts_in hP
      | ((with_reducible refine page_in (c := .xl) (hP _ (by decide)) ?_) <;> exact rfl) | with_reducible exact le_side (by omega)
      | with_reducible exact lt_side (by omega) | with_reducible exact off_small _ _ _ | with_reducible intro _ | split
      | dsimp +zetaDelta only

theorem loseUnit_keeps {P : List Part} {s : State} {a1 : State} (a2) (a3) (hP : ∀ q ∈ ([.page .xl, .ports] : List Part), q ∈ P) (h : Keeps P s a1) :
    Keeps P s (loseUnit a1 a2 a3) := by
  unfold loseUnit
  repeat' first
      | with_reducible assumption | with_reducible apply loseBundle_keeps | with_reducible apply logLost_keeps
      | with_reducible apply keeps_ite | with_reducible exact hP _ (by decide) | with_reducible exact parts_in hP | with_reducible intro _
      | split

theorem dropReceived_keeps {P : List Part} {s : State} {a1 : State} (a2) (hP : ∀ q ∈ ([.page .xl, .ports] : List Part), q ∈ P) (h : Keeps P s a1) :
    Keeps P s (dropReceived a1 a2) := by
  unfold dropReceived
  repeat' first
      | with_reducible assumption | with_reducible apply loseBundle_keeps | with_reducible apply State.setPort_keeps | extract_lets
      | with_reducible apply keeps_foldl | with_reducible apply keeps_foldl1 | with_reducible exact hP _ (by decide)
      | with_reducible exact parts_in hP | with_reducible intro _ | split | dsimp +zetaDelta only

theorem dropTraffic_keeps {P : List Part} {s : State} {a1 : State} (a2) (hP : ∀ q ∈ ([.page .xl, .ports] : List Part), q ∈ P) (h : Keeps P s a1) :
    Keeps P s (dropTraffic a1 a2) := by
  unfold dropTraffic
  repeat' first
      | with_reducible assumption | with_reducible apply dropReceived_keeps | with_reducible apply loseUnit_keeps
      | with_reducible apply closeBundle_keeps | with_reducible apply sendWord_keeps | with_reducible apply raiseErr_keeps
      | with_reducible apply goDone_keeps | with_reducible apply State.setPort_keeps | with_reducible apply when_keeps | extract_lets
      | with_reducible apply keeps_foldl | with_reducible apply keeps_foldl1 | with_reducible exact hP _ (by decide)
      | with_reducible exact parts_in hP | ((with_reducible refine page_in (c := .xl) (hP _ (by decide)) ?_) <;> exact rfl)
      | with_reducible exact le_side (by omega) | with_reducible exact lt_side (by omega) | with_reducible exact off_small _ _ _
      | with_reducible intro _ | split | dsimp +zetaDelta only

theorem fencePort_keeps {P : List Part} {s : State} {a1 : State} (a2) (hP : ∀ q ∈ ([.page .xl, .ports, .boot] : List Part), q ∈ P) (h : Keeps P s a1) :
    Keeps P s (fencePort a1 a2) := by
  unfold fencePort
  repeat' first
      | with_reducible assumption | with_reducible apply dropTraffic_keeps | with_reducible apply setPortState_keeps
      | with_reducible apply orPreg_keeps | extract_lets | with_reducible apply keeps_ite | with_reducible exact hP _ (by decide)
      | with_reducible exact parts_in hP | ((with_reducible refine page_in (c := .xl) (hP _ (by decide)) ?_) <;> exact rfl)
      | with_reducible exact le_side (by omega) | with_reducible exact lt_side (by omega) | with_reducible exact off_small _ _ _
      | with_reducible intro _ | split | dsimp +zetaDelta only

theorem portRestart_keeps {P : List Part} {s : State} {a1 : State} (a2) (hP : ∀ q ∈ ([.page .xl, .ports, .boot] : List Part), q ∈ P) (h : Keeps P s a1) :
    Keeps P s (portRestart a1 a2) := by
  unfold portRestart
  repeat' first
      | with_reducible assumption | with_reducible apply dropTraffic_keeps | with_reducible apply setPortState_keeps
      | with_reducible exact hP _ (by decide) | with_reducible exact parts_in hP | with_reducible intro _

theorem beginEpisode_keeps {P : List Part} {s : State} {a1 : State} (a2) (hP : ∀ q ∈ ([.page .fc, .fc] : List Part), q ∈ P) (h : Keeps P s a1) :
    Keeps P s (beginEpisode a1 a2) := by
  unfold beginEpisode
  repeat' first
      | with_reducible assumption | with_reducible apply setPreg_keeps | extract_lets | with_reducible apply keeps_ite
      | with_reducible exact hP _ (by decide) | with_reducible exact parts_in hP | with_reducible exact le_side (by omega)
      | with_reducible exact lt_side (by omega) | with_reducible exact off_small _ _ _ | with_reducible intro _ | split
      | fail_if_no_progress with_reducible refine put_fc_keeps _ (hP _ (by decide)) ?_ | dsimp +zetaDelta only

theorem endEpisode_keeps {P : List Part} {s : State} {a1 : State} (a2) (hP : ∀ q ∈ ([.fc] : List Part), q ∈ P) (h : Keeps P s a1) :
    Keeps P s (endEpisode a1 a2) := by
  unfold endEpisode
  repeat' first
      | with_reducible assumption | with_reducible apply keeps_ite | with_reducible intro _ | split
      | fail_if_no_progress with_reducible refine put_fc_keeps _ (hP _ (by decide)) ?_

theorem sendAbort_keeps {P : List Part} {s : State} {a1 : State} (a2) (a3) (a4) (a5) (hP : ∀ q ∈ ([.page .xl, .ports, .fc] : List Part), q ∈ P) (h : Keeps P s a1) :
    Keeps P s (sendAbort a1 a2 a3 a4 a5) := by
  unfold sendAbort
  repeat' first
      | with_reducible assumption | with_reducible apply sendReliable_keeps | extract_lets | with_reducible apply keeps_foldl
      | with_reducible apply keeps_foldl1 | with_reducible apply keeps_ite | with_reducible exact hP _ (by decide)
      | with_reducible exact parts_in hP | with_reducible intro _ | split
      | fail_if_no_progress with_reducible refine put_fc_keeps _ (hP _ (by decide)) ?_ | dsimp +zetaDelta only

theorem routeFare_keeps {P : List Part} {s : State} {a1 : State} (a2) (a3) (a4) (hP : ∀ q ∈ ([.page .xl, .fares, .ports] : List Part), q ∈ P) (h : Keeps P s a1) :
    Keeps P s (routeFare a1 a2 a3 a4) := by
  unfold routeFare
  repeat' first
      | with_reducible assumption | with_reducible apply sendReliable_keeps | with_reducible apply logLost_keeps
      | with_reducible apply raiseErr_keeps | extract_lets | with_reducible apply keeps_ite | with_reducible exact hP _ (by decide)
      | with_reducible exact parts_in hP | ((with_reducible refine page_in (c := .xl) (hP _ (by decide)) ?_) <;> exact rfl)
      | with_reducible exact le_side (by omega) | with_reducible exact lt_side (by omega) | with_reducible exact off_small _ _ _
      | with_reducible intro _ | split | fail_if_no_progress with_reducible refine put_fares_keeps _ (hP _ (by decide)) ?_
      | dsimp +zetaDelta only

end Sys2Proof.Machine
end

