-- ==== Sys2Proof/Laws/KeepCoreOps.lean ====
section
/-! SUPPORT. What the operations of Machine/CoreOps.lean leave alone. -/

set_option Elab.async false

namespace Sys2Proof.Machine

open Sys2Proof

theorem setTtReg_keeps {P : List Part} {s t : State} (id o v) (hP : ∀ q ∈ ([.tt] : List Part), q ∈ P) (h : Keeps P s t) : Keeps P s (setTtReg t id o v) := by
  refine h.trans fun q hq => ?_
  cases q
  case page c =>
    intro p k _ hk _ _
    refine reg_setReg_other _ _ fun e => ?_
    have hn : pageAt (ttBase id + o) = none := by
      have hd : 0x1000 ≤ (ttBase id + o) / 0x1000 := by unfold ttBase; omega
      unfold pageAt
      simp only
      repeat rw [if_neg (by omega)]
    rw [← e, pageAt_base p hk] at hn
    cases hn
  case tt => exact absurd (hP _ (by decide)) hq
  all_goals first | rfl | exact ⟨rfl, rfl⟩

theorem setTt_keeps {P : List Part} {s : State} {a1 : State} (a2) (a3) (hP : ∀ q ∈ ([.cores] : List Part), q ∈ P) (h : Keeps P s a1) :
    Keeps P s (setTt a1 a2 a3) := by
  unfold setTt
  repeat' first
      | with_reducible assumption | with_reducible apply State.setCoreRaw_keeps | with_reducible exact hP _ (by decide)
      | with_reducible exact parts_in hP | with_reducible intro _

theorem setWaits_keeps {P : List Part} {s : State} {a1 : State} (a2) (a3) (a4) (hP : ∀ q ∈ ([.page .sd, .cores, .sd] : List Part), q ∈ P) (h : Keeps P s a1) :
    Keeps P s (setWaits a1 a2 a3 a4) := by
  unfold setWaits
  repeat' first
      | with_reducible assumption | with_reducible apply State.setCore_keeps | extract_lets | with_reducible apply keeps_ite
      | with_reducible exact hP _ (by decide) | with_reducible exact parts_in hP | with_reducible intro _ | split | dsimp +zetaDelta only

theorem wakeCore_keeps {P : List Part} {s : State} {a1 : State} (a2) (hP : ∀ q ∈ ([.page .sd, .cores, .sd] : List Part), q ∈ P) (h : Keeps P s a1) :
    Keeps P s (wakeCore a1 a2) := by
  unfold wakeCore
  repeat' first
      | with_reducible assumption | with_reducible apply setWaits_keeps | extract_lets | with_reducible apply keeps_foldl
      | with_reducible apply keeps_foldl1 | with_reducible apply keeps_ite | with_reducible exact hP _ (by decide)
      | with_reducible exact parts_in hP | with_reducible intro _ | split | dsimp +zetaDelta only

theorem endWait_keeps {P : List Part} {s : State} {a1 : State} (a2) (a3) (a4) (a5) (hP : ∀ q ∈ ([.page .sd, .cores, .sd] : List Part), q ∈ P) (h : Keeps P s a1) :
    Keeps P s (endWait a1 a2 a3 a4 a5) := by
  unfold endWait
  repeat' first
      | with_reducible assumption | with_reducible apply setWaits_keeps | extract_lets | with_reducible exact hP _ (by decide)
      | with_reducible exact parts_in hP | with_reducible intro _ | dsimp +zetaDelta only

theorem setEvent_keeps {P : List Part} {s : State} {a1 : State} (a2) (a3) (hP : ∀ q ∈ ([.page .sd, .cores, .sd] : List Part), q ∈ P) (h : Keeps P s a1) :
    Keeps P s (setEvent a1 a2 a3) := by
  unfold setEvent
  repeat' first
      | with_reducible assumption | with_reducible apply wakeCore_keeps | with_reducible apply State.setCore_keeps | extract_lets
      | with_reducible exact hP _ (by decide) | with_reducible exact parts_in hP | with_reducible intro _ | dsimp +zetaDelta only

theorem State.setLock_keeps {P : List Part} {s : State} {a1 : State} (a2) (a3) (hP : ∀ q ∈ ([.locks] : List Part), q ∈ P) (h : Keeps P s a1) :
    Keeps P s (State.setLock a1 a2 a3) := by
  unfold State.setLock
  repeat' first
      | with_reducible assumption | with_reducible intro _
      | fail_if_no_progress with_reducible refine put_locks_keeps _ (hP _ (by decide)) ?_

theorem serveLock_keeps {P : List Part} {s : State} {a1 : State} (a2) (a3) (hP : ∀ q ∈ ([.page .ml, .page .sd, .cores, .locks, .sd] : List Part), q ∈ P) (h : Keeps P s a1) :
    Keeps P s (serveLock a1 a2 a3) := by
  unfold serveLock
  repeat' first
      | with_reducible assumption | with_reducible apply State.setLock_keeps | with_reducible apply endWait_keeps
      | with_reducible apply cntPreg_keeps | extract_lets | with_reducible exact hP _ (by decide) | with_reducible exact parts_in hP
      | with_reducible exact le_side (by omega) | with_reducible exact lt_side (by omega) | with_reducible exact off_small _ _ _
      | with_reducible intro _ | split | dsimp +zetaDelta only

theorem breakLock_keeps {P : List Part} {s : State} {a1 : State} (a2) (hP : ∀ q ∈ ([.page .ml, .page .sd, .cores, .locks, .sd] : List Part), q ∈ P) (h : Keeps P s a1) :
    Keeps P s (breakLock a1 a2) := by
  unfold breakLock
  repeat' first
      | with_reducible assumption | with_reducible apply serveLock_keeps | with_reducible apply State.setLock_keeps
      | with_reducible apply raiseErr_keeps | with_reducible apply cntPreg_keeps | extract_lets | with_reducible exact hP _ (by decide)
      | with_reducible exact parts_in hP | with_reducible exact le_side (by omega) | with_reducible exact lt_side (by omega)
      | with_reducible exact off_small _ _ _ | with_reducible intro _ | dsimp +zetaDelta only

theorem breakLocksOf_keeps {P : List Part} {s : State} {a1 : State} (a2) (hP : ∀ q ∈ ([.page .ml, .page .sd, .cores, .locks, .sd] : List Part), q ∈ P) (h : Keeps P s a1) :
    Keeps P s (breakLocksOf a1 a2) := by
  unfold breakLocksOf
  repeat' first
      | with_reducible assumption | with_reducible apply breakLock_keeps | with_reducible apply keeps_foldl
      | with_reducible apply keeps_foldl1 | with_reducible apply keeps_ite | with_reducible exact hP _ (by decide)
      | with_reducible exact parts_in hP | with_reducible intro _ | split

theorem leaveQueues_keeps {P : List Part} {s : State} {a1 : State} (a2) (hP : ∀ q ∈ ([.locks] : List Part), q ∈ P) (h : Keeps P s a1) :
    Keeps P s (leaveQueues a1 a2) := by
  unfold leaveQueues
  repeat' first
      | with_reducible assumption | with_reducible apply State.setLock_keeps | extract_lets | with_reducible apply keeps_foldl
      | with_reducible apply keeps_foldl1 | with_reducible exact hP _ (by decide) | with_reducible exact parts_in hP
      | with_reducible intro _ | split | dsimp +zetaDelta only

theorem lockTaken_keeps {P : List Part} {s : State} {a1 : State} (a2) (a3) (a4) (hP : ∀ q ∈ ([.locks] : List Part), q ∈ P) (h : Keeps P s a1) :
    Keeps P s (lockTaken a1 a2 a3 a4).1 := by
  unfold lockTaken
  repeat' first
      | with_reducible assumption | with_reducible apply State.setLock_keeps | with_reducible apply keeps_ite
      | with_reducible exact hP _ (by decide) | with_reducible exact parts_in hP | with_reducible intro _ | split

theorem acquire_keeps {P : List Part} {s : State} {a1 : State} (a2) (a3) (a4) (hP : ∀ q ∈ ([.page .ml, .page .sd, .cores, .locks, .sd] : List Part), q ∈ P) (h : Keeps P s a1) :
    Keeps P s (acquire a1 a2 a3 a4).1 := by
  unfold acquire
  repeat' first
      | with_reducible assumption | with_reducible apply lockTaken_keeps | with_reducible apply serveLock_keeps
      | with_reducible apply State.setLock_keeps | with_reducible apply raiseErr_keeps | with_reducible apply cntPreg_keeps | extract_lets
      | with_reducible apply keeps_ite | with_reducible exact hP _ (by decide) | with_reducible exact parts_in hP
      | with_reducible exact le_side (by omega) | with_reducible exact lt_side (by omega) | with_reducible exact off_small _ _ _
      | with_reducible intro _ | split | dsimp +zetaDelta only

theorem release_keeps {P : List Part} {s : State} {a1 : State} (a2) (a3) (a4) (hP : ∀ q ∈ ([.page .ml, .page .sd, .cores, .locks, .sd] : List Part), q ∈ P) (h : Keeps P s a1) :
    Keeps P s (release a1 a2 a3 a4).1 := by
  unfold release
  repeat' first
      | with_reducible assumption | with_reducible apply serveLock_keeps | with_reducible apply State.setLock_keeps
      | with_reducible apply raiseErr_keeps | extract_lets | with_reducible apply keeps_ite | with_reducible exact hP _ (by decide)
      | with_reducible exact parts_in hP | with_reducible exact le_side (by omega) | with_reducible exact lt_side (by omega)
      | with_reducible exact off_small _ _ _ | with_reducible intro _ | split | dsimp +zetaDelta only

theorem haltCore_keeps {P : List Part} {s : State} {a1 : State} (a2) (a3) (a4) (a5) (hP : ∀ q ∈ ([.page .sd, .page .gc, .cores, .locks, .sd] : List Part), q ∈ P) (h : Keeps P s a1) :
    Keeps P s (haltCore a1 a2 a3 a4 a5) := by
  unfold haltCore
  repeat' first
      | with_reducible assumption | with_reducible apply leaveQueues_keeps | with_reducible apply State.setCore_keeps
      | with_reducible apply raiseErrX_keeps | with_reducible apply raiseInt_keeps | extract_lets | with_reducible exact hP _ (by decide)
      | with_reducible exact parts_in hP | ((with_reducible refine page_in (c := .gc) (hP _ (by decide)) ?_) <;> exact rfl)
      | with_reducible exact le_side (by omega) | with_reducible exact lt_side (by omega) | with_reducible exact off_small _ _ _
      | with_reducible intro _ | dsimp +zetaDelta only

theorem noteUpset_keeps {P : List Part} {s : State} {a1 : State} (a2) (a3) (a4) (hP : ∀ q ∈ ([.page .gc] : List Part), q ∈ P) (h : Keeps P s a1) :
    Keeps P s (noteUpset a1 a2 a3 a4) := by
  unfold noteUpset
  repeat' first
      | with_reducible assumption | with_reducible apply raiseErr_keeps | with_reducible apply keeps_ite
      | with_reducible exact hP _ (by decide) | with_reducible exact parts_in hP
      | ((with_reducible refine page_in (c := .gc) (hP _ (by decide)) ?_) <;> exact rfl) | with_reducible exact le_side (by omega)
      | with_reducible exact lt_side (by omega) | with_reducible exact off_small _ _ _ | with_reducible intro _ | split

theorem haltLate_keeps {P : List Part} {s : State} {a1 : State} (a2) (a3) (a4) (a5) (hP : ∀ q ∈ ([.page .sd, .page .gc, .cores, .locks, .sd] : List Part), q ∈ P) (h : Keeps P s a1) :
    Keeps P s (haltLate a1 a2 a3 a4 a5) := by
  unfold haltLate
  repeat' first
      | with_reducible assumption | with_reducible apply haltCore_keeps | with_reducible exact hP _ (by decide)
      | with_reducible exact parts_in hP | with_reducible intro _ | split

theorem sendStatus_keeps {P : List Part} {s : State} {a1 : State} (a2) (a3) (a4) (hP : ∀ q ∈ ([.page .sd, .page .gc, .cores, .sd] : List Part), q ∈ P) (h : Keeps P s a1) :
    Keeps P s (sendStatus a1 a2 a3 a4) := by
  unfold sendStatus
  repeat' first
      | with_reducible assumption | with_reducible apply State.setCore_keeps | with_reducible apply raiseErr_keeps | extract_lets
      | with_reducible apply keeps_ite | with_reducible exact hP _ (by decide) | with_reducible exact parts_in hP
      | ((with_reducible refine page_in (c := .gc) (hP _ (by decide)) ?_) <;> exact rfl) | with_reducible exact le_side (by omega)
      | with_reducible exact lt_side (by omega) | with_reducible exact off_small _ _ _ | with_reducible intro _ | split
      | dsimp +zetaDelta only

theorem spendFare_keeps {P : List Part} {s : State} {a1 : State} (a2) (a3) (hP : ∀ q ∈ ([.page .sd, .cores, .sd] : List Part), q ∈ P) (h : Keeps P s a1) :
    Keeps P s (spendFare a1 a2 a3) := by
  unfold spendFare
  repeat' first
      | with_reducible assumption | with_reducible apply State.setCore_keeps | extract_lets | with_reducible exact hP _ (by decide)
      | with_reducible exact parts_in hP | with_reducible intro _ | dsimp +zetaDelta only

theorem launch_keeps {P : List Part} {s : State} {a1 : State} (a2) (a3) (a4) (hP : ∀ q ∈ ([.page .sd, .page .gc, .cores, .mesh, .sd, .ports] : List Part), q ∈ P) (h : Keeps P s a1) :
    Keeps P s (launch a1 a2 a3 a4) := by
  unfold launch
  repeat' first
      | with_reducible assumption | with_reducible apply xlFill_keeps | with_reducible apply xlAppend_keeps
      | with_reducible apply State.setCore_keeps | with_reducible apply cntPreg_keeps | extract_lets | with_reducible apply keeps_ite
      | with_reducible exact hP _ (by decide) | with_reducible exact parts_in hP
      | ((with_reducible refine page_in (c := .gc) (hP _ (by decide)) ?_) <;> exact rfl) | with_reducible exact le_side (by omega)
      | with_reducible exact lt_side (by omega) | with_reducible exact off_small _ _ _ | with_reducible intro _ | split
      | fail_if_no_progress with_reducible refine put_mesh_keeps _ (hP _ (by decide)) ?_ | dsimp +zetaDelta only

theorem beginSend_keeps {P : List Part} {s : State} {a1 : State} (a2) (a3) (a4) (hP : ∀ q ∈ ([.page .sd, .cores, .sd, .ports] : List Part), q ∈ P) (h : Keeps P s a1) :
    Keeps P s (beginSend a1 a2 a3 a4) := by
  unfold beginSend
  repeat' first
      | with_reducible assumption | with_reducible apply spendFare_keeps | with_reducible apply xlReserve_keeps
      | with_reducible apply State.setCore_keeps | extract_lets | with_reducible apply keeps_ite | with_reducible exact hP _ (by decide)
      | with_reducible exact parts_in hP | with_reducible intro _ | split | dsimp +zetaDelta only

theorem resumeSend_keeps {P : List Part} {s : State} {a1 : State} (a2) (hP : ∀ q ∈ ([.page .sd, .cores, .sd, .ports] : List Part), q ∈ P) (h : Keeps P s a1) :
    Keeps P s (resumeSend a1 a2) := by
  unfold resumeSend
  repeat' first
      | with_reducible assumption | with_reducible apply beginSend_keeps | with_reducible apply setWaits_keeps | extract_lets
      | with_reducible apply keeps_ite | with_reducible exact hP _ (by decide) | with_reducible exact parts_in hP | with_reducible intro _
      | split | dsimp +zetaDelta only

theorem drainSendQ_keeps {P : List Part} {s : State} {a1 : State} (a2) (hP : ∀ q ∈ ([.page .sd, .page .gc, .cores, .mesh, .sd, .ports] : List Part), q ∈ P) (h : Keeps P s a1) :
    Keeps P s (drainSendQ a1 a2) := by
  unfold drainSendQ
  repeat' first
      | with_reducible assumption | with_reducible apply launch_keeps | with_reducible apply spendFare_keeps
      | with_reducible apply setTt_keeps | extract_lets | with_reducible apply keeps_foldl | with_reducible apply keeps_foldl1
      | with_reducible apply keeps_ite | with_reducible exact hP _ (by decide) | with_reducible exact parts_in hP | with_reducible intro _
      | split | dsimp +zetaDelta only

theorem wakeSender_keeps {P : List Part} {s : State} {a1 : State} (a2) (hP : ∀ q ∈ ([.page .sd, .page .gc, .cores, .mesh, .sd, .ports] : List Part), q ∈ P) (h : Keeps P s a1) :
    Keeps P s (wakeSender a1 a2) := by
  unfold wakeSender
  repeat' first
      | with_reducible assumption | with_reducible apply drainSendQ_keeps | with_reducible apply resumeSend_keeps
      | with_reducible exact hP _ (by decide) | with_reducible exact parts_in hP | with_reducible intro _

theorem wakeSenders_keeps {P : List Part} {s : State} {a1 : State} (hP : ∀ q ∈ ([.page .sd, .page .gc, .cores, .mesh, .sd, .ports] : List Part), q ∈ P) (h : Keeps P s a1) :
    Keeps P s (wakeSenders a1) := by
  unfold wakeSenders
  repeat' first
      | with_reducible assumption | with_reducible apply wakeSender_keeps | with_reducible apply keeps_foldl
      | with_reducible apply keeps_foldl1 | with_reducible apply keeps_ite | with_reducible exact hP _ (by decide)
      | with_reducible exact parts_in hP | with_reducible intro _ | split

theorem dropMsg_keeps {P : List Part} {s : State} {a1 : State} (a2) (a3) (a4) (hP : ∀ q ∈ ([.page .gc] : List Part), q ∈ P) (h : Keeps P s a1) :
    Keeps P s (dropMsg a1 a2 a3 a4) := by
  unfold dropMsg
  repeat' first
      | with_reducible assumption | with_reducible apply raiseErr_keeps | with_reducible apply cntPreg_keeps | extract_lets
      | with_reducible exact hP _ (by decide) | with_reducible exact parts_in hP
      | ((with_reducible refine page_in (c := .gc) (hP _ (by decide)) ?_) <;> exact rfl) | with_reducible exact le_side (by omega)
      | with_reducible exact lt_side (by omega) | with_reducible exact off_small _ _ _ | with_reducible intro _ | split
      | dsimp +zetaDelta only

theorem beginFill_keeps {P : List Part} {s : State} {a1 : State} (a2) (a3) (hP : ∀ q ∈ ([.page .sd, .page .gc, .cores, .mesh, .sd] : List Part), q ∈ P) (h : Keeps P s a1) :
    Keeps P s (beginFill a1 a2 a3) := by
  unfold beginFill
  repeat' first
      | with_reducible assumption | with_reducible apply dropMsg_keeps | with_reducible apply State.setCore_keeps | extract_lets
      | with_reducible exact hP _ (by decide) | with_reducible exact parts_in hP | with_reducible intro _ | split
      | fail_if_no_progress with_reducible refine put_mesh_keeps _ (hP _ (by decide)) ?_ | dsimp +zetaDelta only

theorem deliver_keeps {P : List Part} {s : State} {a1 : State} (a2) (a3) (hP : ∀ q ∈ ([.page .sd, .page .gc, .cores, .sd] : List Part), q ∈ P) (h : Keeps P s a1) :
    Keeps P s (deliver a1 a2 a3) := by
  unfold deliver
  repeat' first
      | with_reducible assumption | with_reducible apply dropMsg_keeps | with_reducible apply wakeCore_keeps
      | with_reducible apply State.setCore_keeps | with_reducible apply cntPreg_keeps | extract_lets | with_reducible apply keeps_ite
      | with_reducible exact hP _ (by decide) | with_reducible exact parts_in hP
      | ((with_reducible refine page_in (c := .gc) (hP _ (by decide)) ?_) <;> exact rfl) | with_reducible exact le_side (by omega)
      | with_reducible exact lt_side (by omega) | with_reducible exact off_small _ _ _ | with_reducible intro _ | split
      | dsimp +zetaDelta only

theorem spoilMsg_keeps {P : List Part} {s : State} {a1 : State} (a2) (hP : ∀ q ∈ ([.page .sd, .page .gc, .cores, .sd] : List Part), q ∈ P) (h : Keeps P s a1) :
    Keeps P s (spoilMsg a1 a2) := by
  unfold spoilMsg
  repeat' first
      | with_reducible assumption | with_reducible apply dropMsg_keeps | with_reducible apply State.setCore_keeps | extract_lets
      | with_reducible apply keeps_ite | with_reducible exact hP _ (by decide) | with_reducible exact parts_in hP | with_reducible intro _
      | split | dsimp +zetaDelta only

theorem dropFilling_keeps {P : List Part} {s : State} {a1 : State} (a2) (hP : ∀ q ∈ ([.page .gc, .mesh] : List Part), q ∈ P) (h : Keeps P s a1) :
    Keeps P s (dropFilling a1 a2) := by
  unfold dropFilling
  repeat' first
      | with_reducible assumption | with_reducible apply dropMsg_keeps | extract_lets | with_reducible apply keeps_foldl
      | with_reducible apply keeps_foldl1 | with_reducible exact hP _ (by decide) | with_reducible exact parts_in hP
      | with_reducible intro _ | fail_if_no_progress with_reducible refine put_mesh_keeps _ (hP _ (by decide)) ?_ | dsimp +zetaDelta only

theorem arriveFare_keeps {P : List Part} {s : State} {a1 : State} (a2) (hP : ∀ q ∈ ([.page .sd, .page .gc, .cores, .mesh, .sd, .ports] : List Part), q ∈ P) (h : Keeps P s a1) :
    Keeps P s (arriveFare a1 a2) := by
  unfold arriveFare
  repeat' first
      | with_reducible assumption | with_reducible apply wakeSender_keeps | with_reducible apply State.setCore_keeps
      | with_reducible apply cntPreg_keeps | extract_lets | with_reducible apply keeps_ite | with_reducible exact hP _ (by decide)
      | with_reducible exact parts_in hP | ((with_reducible refine page_in (c := .gc) (hP _ (by decide)) ?_) <;> exact rfl)
      | with_reducible exact le_side (by omega) | with_reducible exact lt_side (by omega) | with_reducible exact off_small _ _ _
      | with_reducible intro _ | split | dsimp +zetaDelta only

theorem berthRelease_keeps {P : List Part} {s : State} {a1 : State} (a2) (a3) (hP : ∀ q ∈ ([.page .sd, .page .xl, .cores, .fares, .sd, .ports] : List Part), q ∈ P) (h : Keeps P s a1) :
    Keeps P s (berthRelease a1 a2 a3) := by
  unfold berthRelease
  repeat' first
      | with_reducible assumption | with_reducible apply routeFare_keeps | with_reducible apply State.setCore_keeps | extract_lets
      | with_reducible apply keeps_ite | with_reducible exact hP _ (by decide) | with_reducible exact parts_in hP | with_reducible intro _
      | split | dsimp +zetaDelta only

theorem resetRegs_keeps {P : List Part} {s t : State} (p keep) (hp : Part.page (classOf p) ∈ P) (h : Keeps P s t) : Keeps P s (resetRegs t p keep) :=
  dropRegs_keeps p _ (fun a v hv => by
    simp only [Bool.not_eq_false', Bool.and_eq_true, decide_eq_true_eq] at hv
    omega) hp h

theorem clearCore_keeps {P : List Part} {s : State} {a1 : State} (a2) (hP : ∀ q ∈ ([.page .sd, .page .gc, .cores, .mesh, .sd, .frz, .ports] : List Part), q ∈ P) (h : Keeps P s a1) :
    Keeps P s (clearCore a1 a2) := by
  unfold clearCore
  repeat' first
      | with_reducible assumption | with_reducible apply resetRegs_keeps | with_reducible apply dropFilling_keeps
      | with_reducible apply xlCancel_keeps | with_reducible apply State.setCore_keeps | extract_lets
      | with_reducible exact hP _ (by decide) | with_reducible exact parts_in hP
      | ((with_reducible refine page_in (c := .gc) (hP _ (by decide)) ?_) <;> exact rfl) | with_reducible exact le_side (by omega)
      | with_reducible exact lt_side (by omega) | with_reducible exact off_small _ _ _ | with_reducible intro _
      | fail_if_no_progress with_reducible refine put_frz_keeps _ (hP _ (by decide)) ?_ | dsimp +zetaDelta only

theorem loseLocks_keeps {P : List Part} {s : State} {a1 : State} (a2) (hP : ∀ q ∈ ([.page .ml, .page .sd, .cores, .locks, .sd] : List Part), q ∈ P) (h : Keeps P s a1) :
    Keeps P s (loseLocks a1 a2) := by
  unfold loseLocks
  repeat' first
      | with_reducible assumption | with_reducible apply leaveQueues_keeps | with_reducible apply breakLocksOf_keeps
      | with_reducible apply keeps_foldl | with_reducible apply keeps_foldl1 | with_reducible exact hP _ (by decide)
      | with_reducible exact parts_in hP | with_reducible intro _

theorem resetCore_keeps {P : List Part} {s : State} {a1 : State} (a2) (hP : ∀ q ∈ ([.page .ml, .page .sd, .page .gc, .cores, .mesh, .locks, .sd, .frz, .ports] : List Part), q ∈ P) (h : Keeps P s a1) :
    Keeps P s (resetCore a1 a2) := by
  unfold resetCore
  repeat' first
      | with_reducible assumption | with_reducible apply loseLocks_keeps | with_reducible apply clearCore_keeps
      | with_reducible exact hP _ (by decide) | with_reducible exact parts_in hP | with_reducible intro _

theorem stopFenced_keeps {P : List Part} {s : State} {a1 : State} (a2) (hP : ∀ q ∈ ([.page .sd, .page .gc, .cores, .sd, .ports] : List Part), q ∈ P) (h : Keeps P s a1) :
    Keeps P s (stopFenced a1 a2) := by
  unfold stopFenced
  repeat' first
      | with_reducible assumption | with_reducible apply xlCancel_keeps | with_reducible apply State.setCore_keeps
      | with_reducible apply clrPreg_keeps | extract_lets | with_reducible apply keeps_ite | with_reducible exact hP _ (by decide)
      | with_reducible exact parts_in hP | ((with_reducible refine page_in (c := .gc) (hP _ (by decide)) ?_) <;> exact rfl)
      | with_reducible exact le_side (by omega) | with_reducible exact lt_side (by omega) | with_reducible exact off_small _ _ _
      | with_reducible intro _ | split | dsimp +zetaDelta only

theorem fenceCores_keeps {P : List Part} {s : State} {a1 : State} (a2) (hP : ∀ q ∈ ([.page .ml, .page .sd, .page .gc, .cores, .locks, .sd, .ports] : List Part), q ∈ P) (h : Keeps P s a1) :
    Keeps P s (fenceCores a1 a2) := by
  unfold fenceCores
  repeat' first
      | with_reducible assumption | with_reducible apply stopFenced_keeps | with_reducible apply loseLocks_keeps
      | with_reducible apply orPreg_keeps | extract_lets | with_reducible apply keeps_foldl | with_reducible apply keeps_foldl1
      | with_reducible exact hP _ (by decide) | with_reducible exact parts_in hP
      | ((with_reducible refine page_in (c := .gc) (hP _ (by decide)) ?_) <;> exact rfl) | with_reducible exact le_side (by omega)
      | with_reducible exact lt_side (by omega) | with_reducible exact off_small _ _ _ | with_reducible intro _ | dsimp +zetaDelta only

theorem fenceCore_keeps {P : List Part} {s : State} {a1 : State} (a2) (hP : ∀ q ∈ ([.page .ml, .page .sd, .page .gc, .cores, .locks, .sd, .ports] : List Part), q ∈ P) (h : Keeps P s a1) :
    Keeps P s (fenceCore a1 a2) := by
  unfold fenceCore
  repeat' first
      | with_reducible assumption | with_reducible apply fenceCores_keeps | with_reducible exact hP _ (by decide)
      | with_reducible exact parts_in hP | with_reducible intro _

theorem unfenceCore_keeps {P : List Part} {s : State} {a1 : State} (a2) (hP : ∀ q ∈ ([.page .ml, .page .sd, .page .gc, .cores, .mesh, .locks, .sd, .frz, .ports] : List Part), q ∈ P) (h : Keeps P s a1) :
    Keeps P s (unfenceCore a1 a2) := by
  unfold unfenceCore
  repeat' first
      | with_reducible assumption | with_reducible apply resetCore_keeps | with_reducible apply clrPreg_keeps | extract_lets
      | with_reducible apply keeps_ite | with_reducible exact hP _ (by decide) | with_reducible exact parts_in hP
      | ((with_reducible refine page_in (c := .gc) (hP _ (by decide)) ?_) <;> exact rfl) | with_reducible exact le_side (by omega)
      | with_reducible exact lt_side (by omega) | with_reducible exact off_small _ _ _ | with_reducible intro _ | split
      | dsimp +zetaDelta only

theorem askPark_keeps {P : List Part} {s : State} {a1 : State} (a2) (hP : ∀ q ∈ ([.page .sd, .cores, .locks, .sd] : List Part), q ∈ P) (h : Keeps P s a1) :
    Keeps P s (askPark a1 a2) := by
  unfold askPark
  repeat' first
      | with_reducible assumption | with_reducible apply leaveQueues_keeps | with_reducible apply State.setCore_keeps | extract_lets
      | with_reducible exact hP _ (by decide) | with_reducible exact parts_in hP | with_reducible intro _ | split | dsimp +zetaDelta only

theorem startCore_keeps {P : List Part} {s : State} {a1 : State} (a2) (a3) (hP : ∀ q ∈ ([.page .sd, .cores, .sd] : List Part), q ∈ P) (h : Keeps P s a1) :
    Keeps P s (startCore a1 a2 a3) := by
  unfold startCore
  repeat' first
      | with_reducible assumption | with_reducible apply State.setCore_keeps | extract_lets | with_reducible apply keeps_ite
      | with_reducible exact hP _ (by decide) | with_reducible exact parts_in hP | with_reducible intro _ | split | dsimp +zetaDelta only

end Sys2Proof.Machine
end

