-- ==== Sys2Proof/Laws/KeepAccess.lean ====
section
/-! SUPPORT. What the operations of Machine/Access.lean leave alone. -/

set_option Elab.async false

namespace Sys2Proof.Machine

open Sys2Proof

theorem coreRead_keeps {P : List Part} {s : State} {a1 : State} (a2) (a3) (a4) (hP : ∀ q ∈ ([.page .lw, .page .ep, .page .dc, .page .cl, .page .mc, .clusters, .dm, .slices, .cxl, .frz, .scrubs] : List Part), q ∈ P) (h : Keeps P s a1) :
    Keeps P s (coreRead a1 a2 a3 a4).1 := by
  unfold coreRead
  repeat' first
      | with_reducible assumption | with_reducible apply landGrant_keeps | with_reducible apply clearRetry_keeps
      | with_reducible apply serveRdcur_keeps | with_reducible apply serveRds_keeps | with_reducible apply cntPreg_keeps | extract_lets
      | with_reducible apply keeps_ite | with_reducible exact hP _ (by decide) | with_reducible exact parts_in hP
      | ((with_reducible refine page_in (c := .cl) (hP _ (by decide)) ?_) <;> exact rfl) | with_reducible exact le_side (by omega)
      | with_reducible exact lt_side (by omega) | with_reducible exact off_small _ _ _ | with_reducible intro _ | split
      | dsimp +zetaDelta only

theorem coreOwn_keeps {P : List Part} {s : State} {a1 : State} (a2) (a3) (a4) (hP : ∀ q ∈ ([.page .lw, .page .ep, .page .dc, .page .cl, .page .mc, .clusters, .dm, .slices, .cxl, .frz, .scrubs] : List Part), q ∈ P) (h : Keeps P s a1) :
    Keeps P s (coreOwn a1 a2 a3 a4) := by
  unfold coreOwn
  repeat' first
      | with_reducible assumption | with_reducible apply landGrant_keeps | with_reducible apply clearRetry_keeps
      | with_reducible apply serveUpg_keeps | with_reducible apply serveRdo_keeps | with_reducible apply setCcLine_keeps
      | with_reducible apply cntPreg_keeps | with_reducible apply keeps_ite | with_reducible exact hP _ (by decide)
      | with_reducible exact parts_in hP | ((with_reducible refine page_in (c := .cl) (hP _ (by decide)) ?_) <;> exact rfl)
      | with_reducible exact le_side (by omega) | with_reducible exact lt_side (by omega) | with_reducible exact off_small _ _ _
      | with_reducible intro _ | split

theorem coreWrite_keeps {P : List Part} {s : State} {a1 : State} (a2) (a3) (a4) (a5) (a6) (a7) (a8) (hP : ∀ q ∈ ([.page .lw, .page .ep, .page .dc, .page .cl, .page .mc, .clusters, .dm, .slices, .cxl, .frz, .scrubs] : List Part), q ∈ P) (h : Keeps P s a1) :
    Keeps P s (coreWrite a1 a2 a3 a4 a5 a6 a7 a8) := by
  unfold coreWrite
  repeat' first
      | with_reducible assumption | with_reducible apply coreOwn_keeps | with_reducible apply clearRetry_keeps
      | with_reducible apply mergeOwned_keeps | with_reducible apply serveWrpart_keeps | with_reducible apply serveWrinv_keeps
      | with_reducible apply reportPartial_keeps | with_reducible apply setCcLine_keeps | extract_lets | with_reducible apply keeps_ite
      | with_reducible exact hP _ (by decide) | with_reducible exact parts_in hP | with_reducible intro _ | split | dsimp +zetaDelta only

theorem lineAsk_keeps {P : List Part} {s : State} {a1 : State} (a2) (a3) (a4) (a5) (a6) (hP : ∀ q ∈ ([.page .lw, .page .dc, .page .cl, .clusters, .slices] : List Part), q ∈ P) (h : Keeps P s a1) :
    Keeps P s (lineAsk a1 a2 a3 a4 a5 a6) := by
  unfold lineAsk
  repeat' first
      | with_reducible assumption | with_reducible apply ccMerge_keeps | with_reducible apply homeAsk_keeps | with_reducible apply keeps_ite
      | with_reducible exact hP _ (by decide) | with_reducible exact parts_in hP | with_reducible intro _ | split

theorem accessRead_keeps {P : List Part} {s : State} {a1 : State} (a2) (a3) (a4) (hP : ∀ q ∈ ([.page .lw, .page .ep, .page .dc, .page .cl, .page .mc, .clusters, .dm, .slices, .cxl, .frz, .scrubs] : List Part), q ∈ P) (h : Keeps P s a1) :
    Keeps P s (accessRead a1 a2 a3 a4).1 := by
  unfold accessRead
  repeat' first
      | with_reducible assumption | with_reducible apply coreRead_keeps | extract_lets | with_reducible apply keeps_foldl
      | with_reducible apply keeps_foldl1 | with_reducible apply keeps_ite | with_reducible exact hP _ (by decide)
      | with_reducible exact parts_in hP | with_reducible intro _ | split | dsimp +zetaDelta only

theorem accessWrite_keeps {P : List Part} {s : State} {a1 : State} (a2) (a3) (a4) (a5) (a6) (hP : ∀ q ∈ ([.page .lw, .page .ep, .page .dc, .page .cl, .page .mc, .clusters, .dm, .slices, .cxl, .frz, .scrubs] : List Part), q ∈ P) (h : Keeps P s a1) :
    Keeps P s (accessWrite a1 a2 a3 a4 a5 a6) := by
  unfold accessWrite
  repeat' first
      | with_reducible assumption | with_reducible apply coreWrite_keeps | extract_lets | with_reducible apply keeps_foldl
      | with_reducible apply keeps_foldl1 | with_reducible exact hP _ (by decide) | with_reducible exact parts_in hP
      | with_reducible intro _ | dsimp +zetaDelta only

theorem accessWake_keeps {P : List Part} {s : State} {a1 : State} (a2) (hP : ∀ q ∈ ([.page .ml, .page .sd, .cores, .locks, .sd] : List Part), q ∈ P) (h : Keeps P s a1) :
    Keeps P s (accessWake a1 a2) := by
  unfold accessWake
  repeat' first
      | with_reducible assumption | with_reducible apply release_keeps | with_reducible apply endWait_keeps
      | with_reducible apply wakeCore_keeps | extract_lets | with_reducible apply keeps_foldl | with_reducible apply keeps_foldl1
      | with_reducible apply keeps_ite | with_reducible exact hP _ (by decide) | with_reducible exact parts_in hP | with_reducible intro _
      | split | dsimp +zetaDelta only

theorem dropAccess_keeps {P : List Part} {s : State} {a1 : State} (a2) (a3) (a4) (hP : ∀ q ∈ ([.page .sd, .cores, .sd, .cxl] : List Part), q ∈ P) (h : Keeps P s a1) :
    Keeps P s (dropAccess a1 a2 a3 a4) := by
  unfold dropAccess
  repeat' first
      | with_reducible assumption | with_reducible apply State.setCore_keeps | extract_lets | with_reducible apply keeps_ite
      | with_reducible exact hP _ (by decide) | with_reducible exact parts_in hP | with_reducible intro _ | split
      | fail_if_no_progress with_reducible refine put_cxl_keeps _ (hP _ (by decide)) ?_ | dsimp +zetaDelta only

theorem accessError_keeps {P : List Part} {s : State} {a1 : State} (a2) (a3) (a4) (a5) (hP : ∀ q ∈ ([.page .ml, .page .sd, .page .gc, .cores, .locks, .sd, .cxl] : List Part), q ∈ P) (h : Keeps P s a1) :
    Keeps P s (accessError a1 a2 a3 a4 a5) := by
  unfold accessError
  repeat' first
      | with_reducible assumption | with_reducible apply dropAccess_keeps | with_reducible apply accessWake_keeps
      | with_reducible apply haltLate_keeps | extract_lets | with_reducible apply keeps_ite | with_reducible exact hP _ (by decide)
      | with_reducible exact parts_in hP | with_reducible intro _ | split | dsimp +zetaDelta only

theorem storeSent_keeps {P : List Part} {s : State} {a1 : State} (a2) (a3) (a4) (a5) (hP : ∀ q ∈ ([.page .ml, .page .sd, .cores, .locks, .sd, .cxl] : List Part), q ∈ P) (h : Keeps P s a1) :
    Keeps P s (storeSent a1 a2 a3 a4 a5) := by
  unfold storeSent
  repeat' first
      | with_reducible assumption | with_reducible apply dropAccess_keeps | with_reducible apply accessWake_keeps
      | with_reducible apply State.setCore_keeps | extract_lets | with_reducible apply keeps_ite | with_reducible exact hP _ (by decide)
      | with_reducible exact parts_in hP | with_reducible intro _ | split | dsimp +zetaDelta only

theorem storesSeen_keeps {P : List Part} {s : State} {a1 : State} (a2) (hP : ∀ q ∈ ([.page .ml, .page .sd, .cores, .locks, .sd] : List Part), q ∈ P) (h : Keeps P s a1) :
    Keeps P s (storesSeen a1 a2) := by
  unfold storesSeen
  repeat' first
      | with_reducible assumption | with_reducible apply accessWake_keeps | with_reducible apply State.setCore_keeps | extract_lets
      | with_reducible apply keeps_ite | with_reducible exact hP _ (by decide) | with_reducible exact parts_in hP | with_reducible intro _
      | split | dsimp +zetaDelta only

theorem hostGamo_keeps {P : List Part} {s : State} {a1 : State} (a2) (a3) (a4) (hP : ∀ q ∈ ([.page .lw, .page .ep, .page .dc, .page .mc, .clusters, .dm, .slices, .cxl, .frz, .scrubs] : List Part), q ∈ P) (h : Keeps P s a1) :
    Keeps P s (hostGamo a1 a2 a3 a4).1 := by
  unfold hostGamo
  repeat' first
      | with_reducible assumption | with_reducible apply clearRetry_keeps | with_reducible apply ownHost_keeps
      | with_reducible apply homeStore_keeps | extract_lets | with_reducible apply keeps_ite | with_reducible exact hP _ (by decide)
      | with_reducible exact parts_in hP | with_reducible intro _ | split | dsimp +zetaDelta only

theorem deviceGamo_keeps {P : List Part} {s : State} {a1 : State} (a2) (a3) (a4) (a5) (hP : ∀ q ∈ ([.page .lw, .page .ep, .page .dc, .page .cl, .page .mc, .clusters, .dm, .slices, .cxl, .frz, .scrubs] : List Part), q ∈ P) (h : Keeps P s a1) :
    Keeps P s (deviceGamo a1 a2 a3 a4 a5).1 := by
  unfold deviceGamo
  repeat' first
      | with_reducible assumption | with_reducible apply accessWrite_keeps | with_reducible apply accessRead_keeps
      | with_reducible apply coreOwn_keeps | extract_lets | with_reducible apply keeps_ite | with_reducible exact hP _ (by decide)
      | with_reducible exact parts_in hP | with_reducible intro _ | split | dsimp +zetaDelta only

theorem accessValue_keeps {P : List Part} {s : State} {a1 : State} (a2) (a3) (a4) (a5) (hP : ∀ q ∈ ([.page .lw, .page .ep, .page .dc, .page .cl, .page .mc, .clusters, .dm, .slices, .cxl, .frz, .scrubs] : List Part), q ∈ P) (h : Keeps P s a1) :
    Keeps P s (accessValue a1 a2 a3 a4 a5).1 := by
  unfold accessValue
  repeat' first
      | with_reducible assumption | with_reducible apply deviceGamo_keeps | with_reducible apply hostGamo_keeps
      | with_reducible apply accessRead_keeps | with_reducible apply keeps_ite | with_reducible exact hP _ (by decide)
      | with_reducible exact parts_in hP | with_reducible intro _ | split

theorem accessDone_keeps {P : List Part} {s : State} {a1 : State} (a2) (a3) (a4) (hP : ∀ q ∈ ([.page .lw, .page .ep, .page .ml, .page .sd, .page .dc, .page .cl, .page .mc, .page .gc, .cores, .locks, .sd, .clusters, .dm, .slices, .cxl, .frz, .scrubs] : List Part), q ∈ P) (h : Keeps P s a1) :
    Keeps P s (accessDone a1 a2 a3 a4) := by
  unfold accessDone
  repeat' first
      | with_reducible assumption | with_reducible apply accessValue_keeps | with_reducible apply storeSent_keeps
      | with_reducible apply accessError_keeps | with_reducible apply dropAccess_keeps | with_reducible apply accessWake_keeps
      | with_reducible apply accessWrite_keeps | with_reducible apply lineAsk_keeps | with_reducible apply haltLate_keeps
      | with_reducible apply State.setCore_keeps | extract_lets | with_reducible apply keeps_foldl | with_reducible apply keeps_foldl1
      | with_reducible apply keeps_ite | with_reducible exact hP _ (by decide) | with_reducible exact parts_in hP | with_reducible intro _
      | split | dsimp +zetaDelta only

theorem execGlobalAccessComplete_keeps {P : List Part} {s : State} (a1) (a2) (a3) {a4 : State} (hP : ∀ q ∈ ([.page .lw, .page .ep, .page .ml, .page .sd, .page .dc, .page .cl, .page .mc, .page .gc, .cores, .locks, .sd, .clusters, .dm, .slices, .cxl, .frz, .scrubs] : List Part), q ∈ P) (h : Keeps P s a4) :
    NextKeeps P s (execGlobalAccessComplete a1 a2 a3 a4) := by
  unfold execGlobalAccessComplete
  repeat' first
      | with_reducible assumption | with_reducible apply nextKeeps_next | with_reducible apply accessDone_keeps
      | with_reducible apply keeps_ite | with_reducible exact hP _ (by decide) | with_reducible exact parts_in hP | with_reducible intro _
      | split

theorem lineAccesses_keeps {P : List Part} {s : State} {a1 : State} (a2) (a3) (a4) (hP : ∀ q ∈ ([.page .lw, .page .ep, .page .ml, .page .sd, .page .dc, .page .cl, .page .mc, .page .gc, .cores, .locks, .sd, .clusters, .dm, .slices, .cxl, .frz, .scrubs] : List Part), q ∈ P) (h : Keeps P s a1) :
    Keeps P s (lineAccesses a1 a2 a3 a4) := by
  unfold lineAccesses
  repeat' first
      | with_reducible assumption | with_reducible apply accessDone_keeps | extract_lets | with_reducible apply keeps_range
      | with_reducible apply keeps_foldl | with_reducible apply keeps_foldl1 | with_reducible apply keeps_ite
      | with_reducible exact hP _ (by decide) | with_reducible exact parts_in hP | with_reducible intro _ | split | dsimp +zetaDelta only

theorem clusterFillAll_keeps {P : List Part} {s : State} {a1 : State} (a2) (a3) (a4) (hP : ∀ q ∈ ([.page .lw, .page .ep, .page .ml, .page .sd, .page .dc, .page .cl, .page .mc, .page .gc, .cores, .locks, .sd, .clusters, .dm, .slices, .cxl, .frz, .scrubs] : List Part), q ∈ P) (h : Keeps P s a1) :
    Keeps P s (clusterFillAll a1 a2 a3 a4) := by
  unfold clusterFillAll
  repeat' first
      | with_reducible assumption | with_reducible apply lineAccesses_keeps | with_reducible apply answerMerged_keeps
      | with_reducible apply clusterFill_keeps | with_reducible apply startBi_keeps | extract_lets | with_reducible apply keeps_foldl
      | with_reducible apply keeps_foldl1 | with_reducible apply keeps_ite | with_reducible exact hP _ (by decide)
      | with_reducible exact parts_in hP | with_reducible intro _ | split | dsimp +zetaDelta only

theorem fillCache_keeps {P : List Part} {s : State} {a1 : State} (a2) (a3) (a4) (a5) (hP : ∀ q ∈ ([.page .lw, .page .ep, .page .ml, .page .sd, .page .dc, .page .cl, .page .mc, .page .gc, .cores, .locks, .sd, .clusters, .dm, .slices, .cxl, .frz, .scrubs] : List Part), q ∈ P) (h : Keeps P s a1) :
    Keeps P s (fillCache a1 a2 a3 a4 a5) := by
  unfold fillCache
  repeat' first
      | with_reducible assumption | with_reducible apply clusterFillAll_keeps | with_reducible apply sliceFill_keeps
      | with_reducible exact hP _ (by decide) | with_reducible exact parts_in hP | with_reducible intro _ | split

end Sys2Proof.Machine
end

