-- ==== Sys2Proof/Laws/KeepSense.lean ====
section
/-! SUPPORT. What the operations of Machine/Sense.lean leave alone. -/

set_option Elab.async false

namespace Sys2Proof.Machine

open Sys2Proof

theorem onset_keeps {P : List Part} {s : State} {a1 : State} (a2) (a3) (a4) (hP : ∀ q ∈ ([.page .al, .mod] : List Part), q ∈ P) (h : Keeps P s a1) :
    Keeps P s (onset a1 a2 a3 a4) := by
  unfold onset
  repeat' first
      | with_reducible assumption | with_reducible apply raiseErr_keeps | extract_lets | with_reducible apply keeps_ite
      | with_reducible exact hP _ (by decide) | with_reducible exact parts_in hP | with_reducible exact le_side (by omega)
      | with_reducible exact lt_side (by omega) | with_reducible exact off_small _ _ _ | with_reducible intro _ | split
      | fail_if_no_progress with_reducible refine put_mod_keeps _ (hP _ (by decide)) ?_ | dsimp +zetaDelta only

theorem normal_keeps {P : List Part} {s : State} {a1 : State} (a2) (hP : ∀ q ∈ ([.mod] : List Part), q ∈ P) (h : Keeps P s a1) :
    Keeps P s (normal a1 a2) := by
  unfold normal
  repeat' first
      | with_reducible assumption | with_reducible intro _ | fail_if_no_progress with_reducible refine put_mod_keeps _ (hP _ (by decide)) ?_

theorem condEnds_keeps {P : List Part} {s : State} {a1 : State} (a2) (a3) (hP : ∀ q ∈ ([.mod] : List Part), q ∈ P) (h : Keeps P s a1) :
    Keeps P s (condEnds a1 a2 a3) := by
  unfold condEnds
  repeat' first
      | with_reducible assumption | with_reducible intro _ | fail_if_no_progress with_reducible refine put_mod_keeps _ (hP _ (by decide)) ?_

theorem cageCheck_keeps {P : List Part} {s : State} {a1 : State} (a2) (hP : ∀ q ∈ ([.page .al, .mod] : List Part), q ∈ P) (h : Keeps P s a1) :
    Keeps P s (cageCheck a1 a2) := by
  unfold cageCheck
  repeat' first
      | with_reducible assumption | with_reducible apply normal_keeps | with_reducible apply onset_keeps | with_reducible apply keeps_ite
      | with_reducible exact hP _ (by decide) | with_reducible exact parts_in hP
      | ((with_reducible refine page_in (c := .xl) (hP _ (by decide)) ?_) <;> exact rfl) | with_reducible intro _ | split

end Sys2Proof.Machine
end

