-- ==== Sys2Proof/Laws/KeepCrossing.lean ====
section
/-! SUPPORT. What the operations of Machine/Crossing.lean leave alone. -/

set_option Elab.async false

namespace Sys2Proof.Machine

open Sys2Proof

theorem sendProbe_keeps {P : List Part} {s : State} {a1 : State} (a2) (hP : ∀ q ∈ ([.ports] : List Part), q ∈ P) (h : Keeps P s a1) :
    Keeps P s (sendProbe a1 a2) := by
  unfold sendProbe
  repeat' first
      | with_reducible assumption | with_reducible apply sendWord_keeps | with_reducible apply State.setPort_keeps | extract_lets
      | with_reducible apply keeps_ite | with_reducible exact hP _ (by decide) | with_reducible exact parts_in hP | with_reducible intro _
      | split | dsimp +zetaDelta only

theorem startMeasure_keeps {P : List Part} {s : State} {a1 : State} (a2) (hP : ∀ q ∈ ([.ports] : List Part), q ∈ P) (h : Keeps P s a1) :
    Keeps P s (startMeasure a1 a2) := by
  unfold startMeasure
  repeat' first
      | with_reducible assumption | with_reducible apply sendProbe_keeps | with_reducible apply State.setPort_keeps
      | with_reducible apply keeps_ite | with_reducible exact hP _ (by decide) | with_reducible exact parts_in hP | with_reducible intro _
      | split

theorem measureDue_keeps {P : List Part} {s : State} {a1 : State} (a2) (hP : ∀ q ∈ ([.ports] : List Part), q ∈ P) (h : Keeps P s a1) :
    Keeps P s (measureDue a1 a2) := by
  unfold measureDue
  repeat' first
      | with_reducible assumption | with_reducible apply sendProbe_keeps | with_reducible apply State.setPort_keeps
      | with_reducible exact hP _ (by decide) | with_reducible exact parts_in hP | with_reducible intro _

theorem endMeasure_keeps {P : List Part} {s : State} {a1 : State} (a2) (hP : ∀ q ∈ ([.page .td, .page .xl, .ports] : List Part), q ∈ P) (h : Keeps P s a1) :
    Keeps P s (endMeasure a1 a2) := by
  unfold endMeasure
  repeat' first
      | with_reducible assumption | with_reducible apply goDone_keeps | with_reducible apply State.setPort_keeps
      | with_reducible apply when_keeps | with_reducible apply setPreg_keeps | extract_lets | with_reducible exact hP _ (by decide)
      | with_reducible exact parts_in hP | ((with_reducible refine page_in (c := .xl) (hP _ (by decide)) ?_) <;> exact rfl)
      | with_reducible exact le_side (by omega) | with_reducible exact lt_side (by omega) | with_reducible exact off_small _ _ _
      | with_reducible intro _ | dsimp +zetaDelta only

theorem echoIn_keeps {P : List Part} {s : State} {a1 : State} (a2) (a3) (a4) (hP : ∀ q ∈ ([.page .td, .page .xl, .ports] : List Part), q ∈ P) (h : Keeps P s a1) :
    Keeps P s (echoIn a1 a2 a3 a4) := by
  unfold echoIn
  repeat' first
      | with_reducible assumption | with_reducible apply endMeasure_keeps | with_reducible apply sendProbe_keeps
      | with_reducible apply State.setPort_keeps | extract_lets | with_reducible apply keeps_ite | with_reducible exact hP _ (by decide)
      | with_reducible exact parts_in hP | with_reducible intro _ | split | dsimp +zetaDelta only

theorem execEcho_keeps {P : List Part} {s : State} (a1) (a2) (a3) {a4 : State} (hP : ∀ q ∈ ([.page .td, .page .xl, .ports] : List Part), q ∈ P) (h : Keeps P s a4) :
    NextKeeps P s (execEcho a1 a2 a3 a4) := by
  unfold execEcho
  repeat' first
      | with_reducible assumption | with_reducible apply nextKeeps_next | with_reducible apply echoIn_keeps | with_reducible apply keeps_ite
      | with_reducible exact hP _ (by decide) | with_reducible exact parts_in hP | with_reducible intro _ | split

theorem execProbeWord_keeps {P : List Part} {s : State} (a1) (a2) (a3) {a4 : State} (h : Keeps P s a4) :
    NextKeeps P s (execProbeWord a1 a2 a3 a4) := by
  unfold execProbeWord
  repeat' first
      | with_reducible assumption | with_reducible apply nextKeeps_next | with_reducible apply sendWord_keeps
      | with_reducible apply keeps_ite | with_reducible intro _ | split

theorem laneStat_keeps {P : List Part} {s : State} {a1 : State} (a2) (a3) (a4) (hP : ∀ q ∈ ([.page .xl] : List Part), q ∈ P) (h : Keeps P s a1) :
    Keeps P s (laneStat a1 a2 a3 a4) := by
  unfold laneStat
  repeat' first
      | with_reducible assumption | with_reducible apply raiseErr_keeps | with_reducible apply setPreg_keeps | extract_lets
      | with_reducible apply keeps_ite | with_reducible exact hP _ (by decide) | with_reducible exact parts_in hP
      | ((with_reducible refine page_in (c := .xl) (hP _ (by decide)) ?_) <;> exact rfl) | with_reducible exact le_side (by omega)
      | with_reducible exact lt_side (by omega) | with_reducible exact off_small _ _ _ | with_reducible intro _ | split
      | dsimp +zetaDelta only

theorem enterTrain_keeps {P : List Part} {s : State} {a1 : State} (a2) (hP : ∀ q ∈ ([.page .xl, .ports, .boot] : List Part), q ∈ P) (h : Keeps P s a1) :
    Keeps P s (enterTrain a1 a2) := by
  unfold enterTrain
  repeat' first
      | with_reducible assumption | with_reducible apply setPortState_keeps | with_reducible exact hP _ (by decide)
      | with_reducible exact parts_in hP | with_reducible intro _

theorem enterIdent_keeps {P : List Part} {s : State} {a1 : State} (a2) (a3) (hP : ∀ q ∈ ([.page .xl, .ports, .boot] : List Part), q ∈ P) (h : Keeps P s a1) :
    Keeps P s (enterIdent a1 a2 a3) := by
  unfold enterIdent
  repeat' first
      | with_reducible assumption | with_reducible apply sendWord_keeps | with_reducible apply setPortState_keeps
      | with_reducible apply State.setPort_keeps | with_reducible apply setPreg_keeps | extract_lets | with_reducible apply keeps_foldl
      | with_reducible apply keeps_foldl1 | with_reducible exact hP _ (by decide) | with_reducible exact parts_in hP
      | ((with_reducible refine page_in (c := .xl) (hP _ (by decide)) ?_) <;> exact rfl) | with_reducible exact le_side (by omega)
      | with_reducible exact lt_side (by omega) | with_reducible exact off_small _ _ _ | with_reducible intro _ | dsimp +zetaDelta only

theorem enterUp_keeps {P : List Part} {s : State} {a1 : State} (a2) (hP : ∀ q ∈ ([.page .sd, .page .xl, .page .gc, .cores, .mesh, .sd, .ports, .boot] : List Part), q ∈ P) (h : Keeps P s a1) :
    Keeps P s (enterUp a1 a2) := by
  unfold enterUp
  repeat' first
      | with_reducible assumption | with_reducible apply wakeSenders_keeps | with_reducible apply setPortState_keeps
      | with_reducible apply State.setPort_keeps | extract_lets | with_reducible exact hP _ (by decide) | with_reducible exact parts_in hP
      | with_reducible intro _ | dsimp +zetaDelta only

theorem stageDone_keeps {P : List Part} {s : State} {a1 : State} (a2) (a3) (hP : ∀ q ∈ ([.page .sd, .page .xl, .page .gc, .cores, .mesh, .sd, .ports, .boot] : List Part), q ∈ P) (h : Keeps P s a1) :
    Keeps P s (stageDone a1 a2 a3) := by
  unfold stageDone
  repeat' first
      | with_reducible assumption | with_reducible apply enterUp_keeps | with_reducible apply enterIdent_keeps
      | with_reducible apply enterTrain_keeps | with_reducible apply laneStat_keeps | with_reducible apply startMeasure_keeps
      | with_reducible apply setPortState_keeps | with_reducible apply raiseErr_keeps | extract_lets | with_reducible apply keeps_ite
      | with_reducible exact hP _ (by decide) | with_reducible exact parts_in hP
      | ((with_reducible refine page_in (c := .xl) (hP _ (by decide)) ?_) <;> exact rfl) | with_reducible exact le_side (by omega)
      | with_reducible exact lt_side (by omega) | with_reducible exact off_small _ _ _ | with_reducible intro _ | split
      | dsimp +zetaDelta only

theorem execXlStageComplete_keeps {P : List Part} {s : State} (a1) (a2) {a3 : State} (hP : ∀ q ∈ ([.page .sd, .page .xl, .page .gc, .cores, .mesh, .sd, .ports, .boot] : List Part), q ∈ P) (h : Keeps P s a3) :
    NextKeeps P s (execXlStageComplete a1 a2 a3) := by
  unfold execXlStageComplete
  repeat' first
      | with_reducible assumption | with_reducible apply nextKeeps_next | with_reducible apply stageDone_keeps
      | with_reducible exact hP _ (by decide) | with_reducible exact parts_in hP | with_reducible intro _

theorem execXlStageTimeout_keeps {P : List Part} {s : State} (a1) (a2) {a3 : State} (hP : ∀ q ∈ ([.page .xl, .ports, .boot] : List Part), q ∈ P) (h : Keeps P s a3) :
    NextKeeps P s (execXlStageTimeout a1 a2 a3) := by
  unfold execXlStageTimeout
  repeat' first
      | with_reducible assumption | with_reducible apply nextKeeps_next | with_reducible apply laneStat_keeps
      | with_reducible apply setPortState_keeps | with_reducible apply State.setPort_keeps | extract_lets | with_reducible apply keeps_ite
      | with_reducible exact hP _ (by decide) | with_reducible exact parts_in hP | with_reducible intro _ | split | dsimp +zetaDelta only

theorem execXlRestart_keeps {P : List Part} {s : State} (a1) {a2 : State} (hP : ∀ q ∈ ([.page .xl, .ports, .boot] : List Part), q ∈ P) (h : Keeps P s a2) :
    NextKeeps P s (execXlRestart a1 a2) := by
  unfold execXlRestart
  repeat' first
      | with_reducible assumption | with_reducible apply nextKeeps_next | with_reducible apply setPortState_keeps
      | with_reducible apply keeps_ite | with_reducible exact hP _ (by decide) | with_reducible exact parts_in hP | with_reducible intro _
      | split

theorem xlEnableAct_keeps {P : List Part} {s : State} {a1 : State} (a2) (a3) (hP : ∀ q ∈ ([.page .al, .page .xl, .ports, .mod, .boot] : List Part), q ∈ P) (h : Keeps P s a1) :
    Keeps P s (xlEnableAct a1 a2 a3) := by
  unfold xlEnableAct
  repeat' first
      | with_reducible assumption | with_reducible apply cageCheck_keeps | with_reducible apply normal_keeps
      | with_reducible apply dropTraffic_keeps | with_reducible apply setPortState_keeps | with_reducible apply State.setPort_keeps
      | extract_lets | with_reducible apply keeps_ite | with_reducible exact hP _ (by decide) | with_reducible exact parts_in hP
      | ((with_reducible refine page_in (c := .xl) (hP _ (by decide)) ?_) <;> exact rfl) | with_reducible intro _ | split
      | dsimp +zetaDelta only

theorem xlUnfence_keeps {P : List Part} {s : State} {a1 : State} (a2) (hP : ∀ q ∈ ([.page .xl, .ports, .boot] : List Part), q ∈ P) (h : Keeps P s a1) :
    Keeps P s (xlUnfence a1 a2) := by
  unfold xlUnfence
  repeat' first
      | with_reducible assumption | with_reducible apply setPortState_keeps | with_reducible apply keeps_ite
      | with_reducible exact hP _ (by decide) | with_reducible exact parts_in hP | with_reducible intro _ | split

theorem peerDown_keeps {P : List Part} {s : State} {a1 : State} (a2) (hP : ∀ q ∈ ([.page .xl, .ports, .boot] : List Part), q ∈ P) (h : Keeps P s a1) :
    Keeps P s (peerDown a1 a2) := by
  unfold peerDown
  repeat' first
      | with_reducible assumption | with_reducible apply portRestart_keeps | with_reducible apply raiseErr_keeps
      | with_reducible apply keeps_ite | with_reducible exact hP _ (by decide) | with_reducible exact parts_in hP
      | ((with_reducible refine page_in (c := .xl) (hP _ (by decide)) ?_) <;> exact rfl) | with_reducible exact le_side (by omega)
      | with_reducible exact lt_side (by omega) | with_reducible exact off_small _ _ _ | with_reducible intro _ | split

theorem execFecLockLoss_keeps {P : List Part} {s : State} (a1) {a2 : State} (hP : ∀ q ∈ ([.page .xl, .ports, .boot] : List Part), q ∈ P) (h : Keeps P s a2) :
    NextKeeps P s (execFecLockLoss a1 a2) := by
  unfold execFecLockLoss
  repeat' first
      | with_reducible assumption | with_reducible apply nextKeeps_next | with_reducible apply peerDown_keeps
      | with_reducible exact hP _ (by decide) | with_reducible exact parts_in hP | with_reducible intro _

theorem execDown_keeps {P : List Part} {s : State} (a1) (a2) {a3 : State} (hP : ∀ q ∈ ([.page .xl, .ports, .boot] : List Part), q ∈ P) (h : Keeps P s a3) :
    NextKeeps P s (execDown a1 a2 a3) := by
  unfold execDown
  repeat' first
      | with_reducible assumption | with_reducible apply nextKeeps_next | with_reducible apply peerDown_keeps
      | with_reducible apply keeps_ite | with_reducible exact hP _ (by decide) | with_reducible exact parts_in hP | with_reducible intro _
      | split

theorem xlCtrlWrite_keeps {P : List Part} {s : State} {a1 : State} (a2) (a3) (hP : ∀ q ∈ ([.page .xl, .staged, .ports, .boot] : List Part), q ∈ P) (h : Keeps P s a1) :
    Keeps P s (xlCtrlWrite a1 a2 a3) := by
  unfold xlCtrlWrite
  repeat' first
      | with_reducible assumption | with_reducible apply startMeasure_keeps | with_reducible apply dropTraffic_keeps
      | with_reducible apply setPortState_keeps | with_reducible apply pageWrite_keeps | with_reducible apply goDone_keeps
      | with_reducible apply State.setPort_keeps | extract_lets | with_reducible apply keeps_ite | with_reducible exact hP _ (by decide)
      | with_reducible exact parts_in hP | ((with_reducible refine page_in (c := .xl) (hP _ (by decide)) ?_) <;> exact rfl)
      | with_reducible exact le_side (by omega) | with_reducible exact lt_side (by omega) | with_reducible exact off_small _ _ _
      | with_reducible intro _ | split | dsimp +zetaDelta only

theorem execRetrain_keeps {P : List Part} {s : State} (a1) (a2) {a3 : State} (hP : ∀ q ∈ ([.page .xl, .staged, .ports, .boot] : List Part), q ∈ P) (h : Keeps P s a3) :
    NextKeeps P s (execRetrain a1 a2 a3) := by
  unfold execRetrain
  repeat' first
      | with_reducible assumption | with_reducible apply nextKeeps_next | with_reducible apply xlCtrlWrite_keeps
      | with_reducible exact hP _ (by decide) | with_reducible exact parts_in hP | with_reducible intro _

theorem execProbe_keeps {P : List Part} {s : State} (a1) (a2) {a3 : State} (hP : ∀ q ∈ ([.page .xl, .staged, .ports, .boot] : List Part), q ∈ P) (h : Keeps P s a3) :
    NextKeeps P s (execProbe a1 a2 a3) := by
  unfold execProbe
  repeat' first
      | with_reducible assumption | with_reducible apply nextKeeps_next | with_reducible apply xlCtrlWrite_keeps
      | with_reducible exact hP _ (by decide) | with_reducible exact parts_in hP | with_reducible intro _

theorem execXlWinReset_keeps {P : List Part} {s : State} (a1) (a2) {a3 : State} (hP : ∀ q ∈ ([.page .xl, .staged, .ports, .boot] : List Part), q ∈ P) (h : Keeps P s a3) :
    NextKeeps P s (execXlWinReset a1 a2 a3) := by
  unfold execXlWinReset
  repeat' first
      | with_reducible assumption | with_reducible apply nextKeeps_next | with_reducible apply xlCtrlWrite_keeps
      | with_reducible exact hP _ (by decide) | with_reducible exact parts_in hP | with_reducible intro _

theorem ident0In_keeps {P : List Part} {s : State} {a1 : State} (a2) (a3) (hP : ∀ q ∈ ([.page .xl, .ports, .boot] : List Part), q ∈ P) (h : Keeps P s a1) :
    Keeps P s (ident0In a1 a2 a3) := by
  unfold ident0In
  repeat' first
      | with_reducible assumption | with_reducible apply portRestart_keeps | with_reducible apply raiseErr_keeps
      | with_reducible apply State.setPort_keeps | with_reducible apply setPreg_keeps | extract_lets | with_reducible apply keeps_ite
      | with_reducible exact hP _ (by decide) | with_reducible exact parts_in hP
      | ((with_reducible refine page_in (c := .xl) (hP _ (by decide)) ?_) <;> exact rfl) | with_reducible exact le_side (by omega)
      | with_reducible exact lt_side (by omega) | with_reducible exact off_small _ _ _ | with_reducible intro _ | split
      | dsimp +zetaDelta only

theorem execIdent0_keeps {P : List Part} {s : State} (a1) (a2) {a3 : State} (hP : ∀ q ∈ ([.page .xl, .ports, .boot] : List Part), q ∈ P) (h : Keeps P s a3) :
    NextKeeps P s (execIdent0 a1 a2 a3) := by
  unfold execIdent0
  repeat' first
      | with_reducible assumption | with_reducible apply nextKeeps_next | with_reducible apply ident0In_keeps
      | with_reducible apply keeps_ite | with_reducible exact hP _ (by decide) | with_reducible exact parts_in hP | with_reducible intro _
      | split

theorem ident1In_keeps {P : List Part} {s : State} {a1 : State} (a2) (a3) (hP : ∀ q ∈ ([.page .xl, .ports, .boot] : List Part), q ∈ P) (h : Keeps P s a1) :
    Keeps P s (ident1In a1 a2 a3) := by
  unfold ident1In
  repeat' first
      | with_reducible assumption | with_reducible apply portRestart_keeps | with_reducible apply State.setPort_keeps
      | with_reducible apply setPreg64_keeps | extract_lets | with_reducible apply keeps_ite | with_reducible exact hP _ (by decide)
      | with_reducible exact parts_in hP | ((with_reducible refine page_in (c := .xl) (hP _ (by decide)) ?_) <;> exact rfl)
      | with_reducible exact le_side (by omega) | with_reducible exact lt_side (by omega) | with_reducible exact off_small _ _ _
      | with_reducible intro _ | split | dsimp +zetaDelta only

theorem execIdent1_keeps {P : List Part} {s : State} (a1) (a2) {a3 : State} (hP : ∀ q ∈ ([.page .xl, .ports, .boot] : List Part), q ∈ P) (h : Keeps P s a3) :
    NextKeeps P s (execIdent1 a1 a2 a3) := by
  unfold execIdent1
  repeat' first
      | with_reducible assumption | with_reducible apply nextKeeps_next | with_reducible apply ident1In_keeps
      | with_reducible apply keeps_ite | with_reducible exact hP _ (by decide) | with_reducible exact parts_in hP | with_reducible intro _
      | split

theorem creditIn_keeps {P : List Part} {s : State} {a1 : State} (a2) (a3) (hP : ∀ q ∈ ([.page .sd, .page .xl, .page .gc, .cores, .mesh, .sd, .ports] : List Part), q ∈ P) (h : Keeps P s a1) :
    Keeps P s (creditIn a1 a2 a3) := by
  unfold creditIn
  repeat' first
      | with_reducible assumption | with_reducible apply wakeSenders_keeps | with_reducible apply raiseErr_keeps
      | with_reducible apply State.setPort_keeps | extract_lets | with_reducible apply keeps_ite | with_reducible exact hP _ (by decide)
      | with_reducible exact parts_in hP | ((with_reducible refine page_in (c := .xl) (hP _ (by decide)) ?_) <;> exact rfl)
      | with_reducible exact le_side (by omega) | with_reducible exact lt_side (by omega) | with_reducible exact off_small _ _ _
      | with_reducible intro _ | split | dsimp +zetaDelta only

theorem execCredit_keeps {P : List Part} {s : State} (a1) (a2) {a3 : State} (hP : ∀ q ∈ ([.page .sd, .page .xl, .page .gc, .cores, .mesh, .sd, .ports] : List Part), q ∈ P) (h : Keeps P s a3) :
    NextKeeps P s (execCredit a1 a2 a3) := by
  unfold execCredit
  repeat' first
      | with_reducible assumption | with_reducible apply nextKeeps_next | with_reducible apply creditIn_keeps
      | with_reducible apply keeps_ite | with_reducible exact hP _ (by decide) | with_reducible exact parts_in hP | with_reducible intro _
      | split

theorem ackTo_keeps {P : List Part} {s : State} {a1 : State} (a2) (a3) (hP : ∀ q ∈ ([.ports] : List Part), q ∈ P) (h : Keeps P s a1) :
    Keeps P s (ackTo a1 a2 a3) := by
  unfold ackTo
  repeat' first
      | with_reducible assumption | with_reducible apply State.setPort_keeps | extract_lets | with_reducible apply keeps_ite
      | with_reducible exact hP _ (by decide) | with_reducible exact parts_in hP | with_reducible intro _ | split | dsimp +zetaDelta only

theorem execAck_keeps {P : List Part} {s : State} (a1) (a2) {a3 : State} (hP : ∀ q ∈ ([.ports] : List Part), q ∈ P) (h : Keeps P s a3) :
    NextKeeps P s (execAck a1 a2 a3) := by
  unfold execAck
  repeat' first
      | with_reducible assumption | with_reducible apply nextKeeps_next | with_reducible apply ackTo_keeps | with_reducible apply keeps_ite
      | with_reducible exact hP _ (by decide) | with_reducible exact parts_in hP | with_reducible intro _ | split

theorem emitUnit_keeps {P : List Part} {s : State} {a1 : State} (a2) (a3) (h : Keeps P s a1) :
    Keeps P s (emitUnit a1 a2 a3) := by
  unfold emitUnit
  repeat' first
      | with_reducible assumption | with_reducible apply emit_keeps | with_reducible intro _ | split

theorem nakIn_keeps {P : List Part} {s : State} {a1 : State} (a2) (a3) (hP : ∀ q ∈ ([.page .fc, .page .xl, .ports, .fc] : List Part), q ∈ P) (h : Keeps P s a1) :
    Keeps P s (nakIn a1 a2 a3) := by
  unfold nakIn
  repeat' first
      | with_reducible assumption | with_reducible apply emitUnit_keeps | with_reducible apply ackTo_keeps
      | with_reducible apply beginEpisode_keeps | with_reducible apply sendWord_keeps | with_reducible apply raiseErr_keeps
      | with_reducible apply State.setPort_keeps | with_reducible apply cntPreg_keeps | extract_lets | with_reducible apply keeps_foldl
      | with_reducible apply keeps_foldl1 | with_reducible apply keeps_ite | with_reducible exact hP _ (by decide)
      | with_reducible exact parts_in hP | ((with_reducible refine page_in (c := .xl) (hP _ (by decide)) ?_) <;> exact rfl)
      | with_reducible exact le_side (by omega) | with_reducible exact lt_side (by omega) | with_reducible exact off_small _ _ _
      | with_reducible intro _ | split | dsimp +zetaDelta only

theorem execNak_keeps {P : List Part} {s : State} (a1) (a2) {a3 : State} (hP : ∀ q ∈ ([.page .fc, .page .xl, .ports, .fc] : List Part), q ∈ P) (h : Keeps P s a3) :
    NextKeeps P s (execNak a1 a2 a3) := by
  unfold execNak
  repeat' first
      | with_reducible assumption | with_reducible apply nextKeeps_next | with_reducible apply nakIn_keeps | with_reducible apply keeps_ite
      | with_reducible exact hP _ (by decide) | with_reducible exact parts_in hP | with_reducible intro _ | split

theorem acceptUnit_keeps {P : List Part} {s : State} {a1 : State} (a2) (hP : ∀ q ∈ ([.ports] : List Part), q ∈ P) (h : Keeps P s a1) :
    Keeps P s (acceptUnit a1 a2) := by
  unfold acceptUnit
  repeat' first
      | with_reducible assumption | with_reducible apply sendWord_keeps | with_reducible apply State.setPort_keeps | extract_lets
      | with_reducible exact hP _ (by decide) | with_reducible exact parts_in hP | with_reducible intro _ | dsimp +zetaDelta only

theorem execFare_keeps {P : List Part} {s : State} (a1) (a2) {a3 : State} (hP : ∀ q ∈ ([.page .xl, .fares, .ports] : List Part), q ∈ P) (h : Keeps P s a3) :
    NextKeeps P s (execFare a1 a2 a3) := by
  unfold execFare
  repeat' first
      | with_reducible assumption | with_reducible apply nextKeeps_next | with_reducible apply acceptUnit_keeps
      | with_reducible apply routeFare_keeps | with_reducible apply keeps_ite | with_reducible exact hP _ (by decide)
      | with_reducible exact parts_in hP | with_reducible intro _ | split

theorem abortIn_keeps {P : List Part} {s : State} {a1 : State} (a2) (a3) (hP : ∀ q ∈ ([.page .fc, .page .xl, .tide, .ports, .fc] : List Part), q ∈ P) (h : Keeps P s a1) :
    Keeps P s (abortIn a1 a2 a3) := by
  unfold abortIn
  repeat' first
      | with_reducible assumption | with_reducible apply acceptUnit_keeps | with_reducible apply sendAbort_keeps
      | with_reducible apply raiseErr_keeps | with_reducible apply setPreg_keeps | extract_lets | with_reducible apply keeps_ite
      | with_reducible exact hP _ (by decide) | with_reducible exact parts_in hP
      | ((with_reducible refine page_in (c := .xl) (hP _ (by decide)) ?_) <;> exact rfl) | with_reducible exact le_side (by omega)
      | with_reducible exact lt_side (by omega) | with_reducible exact off_small _ _ _ | with_reducible intro _ | split
      | fail_if_no_progress with_reducible refine put_tide_keeps _ (hP _ (by decide)) ?_ | dsimp +zetaDelta only

theorem execAbort_keeps {P : List Part} {s : State} (a1) (a2) {a3 : State} (hP : ∀ q ∈ ([.page .fc, .page .xl, .tide, .ports, .fc] : List Part), q ∈ P) (h : Keeps P s a3) :
    NextKeeps P s (execAbort a1 a2 a3) := by
  unfold execAbort
  repeat' first
      | with_reducible assumption | with_reducible apply nextKeeps_next | with_reducible apply abortIn_keeps
      | with_reducible apply keeps_ite | with_reducible exact hP _ (by decide) | with_reducible exact parts_in hP | with_reducible intro _
      | split

theorem execReplay_keeps {P : List Part} {s : State} (a1) (a2) {a3 : State} (hP : ∀ q ∈ ([.ports] : List Part), q ∈ P) (h : Keeps P s a3) :
    NextKeeps P s (execReplay a1 a2 a3) := by
  unfold execReplay
  repeat' first
      | with_reducible assumption | with_reducible apply nextKeeps_next | with_reducible apply State.setPort_keeps
      | with_reducible apply keeps_ite | with_reducible exact hP _ (by decide) | with_reducible exact parts_in hP | with_reducible intro _
      | split

theorem execReservedWord_keeps {P : List Part} {s : State} (a1) (a2) {a3 : State} (hP : ∀ q ∈ ([.page .xl] : List Part), q ∈ P) (h : Keeps P s a3) :
    NextKeeps P s (execReservedWord a1 a2 a3) := by
  unfold execReservedWord
  repeat' first
      | with_reducible assumption | with_reducible apply nextKeeps_next | with_reducible apply raiseErr_keeps
      | with_reducible apply keeps_ite | with_reducible exact hP _ (by decide) | with_reducible exact parts_in hP
      | ((with_reducible refine page_in (c := .xl) (hP _ (by decide)) ?_) <;> exact rfl) | with_reducible exact le_side (by omega)
      | with_reducible exact lt_side (by omega) | with_reducible exact off_small _ _ _ | with_reducible intro _ | split

theorem markLate_keeps {P : List Part} {s : State} {a1 : State} (a2) (a3) (a4) (a5) (hP : ∀ q ∈ ([.page .xl] : List Part), q ∈ P) (h : Keeps P s a1) :
    Keeps P s (markLate a1 a2 a3 a4 a5) := by
  unfold markLate
  repeat' first
      | with_reducible assumption | with_reducible apply raiseErrX_keeps | with_reducible apply cntPreg_keeps
      | with_reducible exact hP _ (by decide) | with_reducible exact parts_in hP
      | ((with_reducible refine page_in (c := .xl) (hP _ (by decide)) ?_) <;> exact rfl) | with_reducible exact le_side (by omega)
      | with_reducible exact lt_side (by omega) | with_reducible exact off_small _ _ _ | with_reducible intro _

theorem svcStore_keeps {P : List Part} {s : State} {a1 : State} (a2) (a3) (hP : ∀ q ∈ ([.page .lw, .page .ep, .page .dc, .page .mc, .clusters, .dm, .slices, .cxl, .frz, .scrubs] : List Part), q ∈ P) (h : Keeps P s a1) :
    Keeps P s (svcStore a1 a2 a3) := by
  unfold svcStore
  repeat' first
      | with_reducible assumption | with_reducible apply serveWrinv_keeps | with_reducible apply takeFresh_keeps | extract_lets
      | with_reducible apply keeps_foldl | with_reducible apply keeps_foldl1 | with_reducible exact hP _ (by decide)
      | with_reducible exact parts_in hP | with_reducible intro _ | dsimp +zetaDelta only

theorem deliverBundle_keeps {P : List Part} {s : State} {a1 : State} (a2) (a3) (a4) (a5) (hP : ∀ q ∈ ([.page .lw, .page .ep, .page .dc, .page .mc, .mesh, .clusters, .dm, .slices, .cxl, .frz, .scrubs] : List Part), q ∈ P) (h : Keeps P s a1) :
    Keeps P s (deliverBundle a1 a2 a3 a4 a5) := by
  unfold deliverBundle
  repeat' first
      | with_reducible assumption | with_reducible apply svcStore_keeps | extract_lets | with_reducible apply keeps_ite
      | with_reducible exact hP _ (by decide) | with_reducible exact parts_in hP
      | ((with_reducible refine page_in (c := .xl) (hP _ (by decide)) ?_) <;> exact rfl) | with_reducible intro _ | split
      | fail_if_no_progress with_reducible refine put_mesh_keeps _ (hP _ (by decide)) ?_ | dsimp +zetaDelta only

theorem seqCheck_keeps {P : List Part} {s : State} {a1 : State} (a2) (a3) (a4) (hP : ∀ q ∈ ([.page .lw, .page .ep, .page .dc, .page .mc, .page .xl, .mesh, .clusters, .dm, .slices, .cxl, .frz, .ports, .scrubs] : List Part), q ∈ P) (h : Keeps P s a1) :
    Keeps P s (seqCheck a1 a2 a3 a4) := by
  unfold seqCheck
  repeat' first
      | with_reducible assumption | with_reducible apply deliverBundle_keeps | with_reducible apply markLate_keeps
      | with_reducible apply raiseErr_keeps | with_reducible apply State.setPort_keeps | with_reducible apply cntPreg_keeps | extract_lets
      | with_reducible apply keeps_ite | with_reducible exact hP _ (by decide) | with_reducible exact parts_in hP
      | ((with_reducible refine page_in (c := .xl) (hP _ (by decide)) ?_) <;> exact rfl) | with_reducible exact le_side (by omega)
      | with_reducible exact lt_side (by omega) | with_reducible exact off_small _ _ _ | with_reducible intro _ | split
      | dsimp +zetaDelta only

theorem forwardDrop_keeps {P : List Part} {s : State} {a1 : State} (a2) (a3) (a4) (hP : ∀ q ∈ ([.page .xl] : List Part), q ∈ P) (h : Keeps P s a1) :
    Keeps P s (forwardDrop a1 a2 a3 a4) := by
  unfold forwardDrop
  repeat' first
      | with_reducible assumption | with_reducible apply logLost_keeps | with_reducible apply raiseErr_keeps
      | with_reducible apply cntPreg_keeps | extract_lets | with_reducible apply keeps_ite | with_reducible exact hP _ (by decide)
      | with_reducible exact parts_in hP | ((with_reducible refine page_in (c := .xl) (hP _ (by decide)) ?_) <;> exact rfl)
      | with_reducible exact le_side (by omega) | with_reducible exact lt_side (by omega) | with_reducible exact off_small _ _ _
      | with_reducible intro _ | split | dsimp +zetaDelta only

theorem forward_keeps {P : List Part} {s : State} {a1 : State} (a2) (a3) (a4) (hP : ∀ q ∈ ([.page .xl, .ports] : List Part), q ∈ P) (h : Keeps P s a1) :
    Keeps P s (forward a1 a2 a3 a4).1 := by
  unfold forward
  repeat' first
      | with_reducible assumption | with_reducible apply forwardDrop_keeps | with_reducible apply State.setPort_keeps
      | with_reducible apply cntPreg_keeps | extract_lets | with_reducible apply keeps_ite | with_reducible exact hP _ (by decide)
      | with_reducible exact parts_in hP | ((with_reducible refine page_in (c := .xl) (hP _ (by decide)) ?_) <;> exact rfl)
      | with_reducible exact le_side (by omega) | with_reducible exact lt_side (by omega) | with_reducible exact off_small _ _ _
      | with_reducible intro _ | split | dsimp +zetaDelta only

theorem bundleIn_keeps {P : List Part} {s : State} {a1 : State} (a2) (a3) (hP : ∀ q ∈ ([.page .lw, .page .ep, .page .dc, .page .mc, .page .xl, .mesh, .clusters, .dm, .slices, .cxl, .frz, .ports, .scrubs] : List Part), q ∈ P) (h : Keeps P s a1) :
    Keeps P s (bundleIn a1 a2 a3) := by
  unfold bundleIn
  repeat' first
      | with_reducible assumption | with_reducible apply forward_keeps | with_reducible apply seqCheck_keeps
      | with_reducible apply acceptUnit_keeps | with_reducible apply freeBerth_keeps | with_reducible apply sendWord_keeps
      | with_reducible apply raiseErr_keeps | with_reducible apply State.setPort_keeps | with_reducible apply cntPreg_keeps | extract_lets
      | with_reducible apply keeps_ite | with_reducible exact hP _ (by decide) | with_reducible exact parts_in hP
      | ((with_reducible refine page_in (c := .xl) (hP _ (by decide)) ?_) <;> exact rfl) | with_reducible exact le_side (by omega)
      | with_reducible exact lt_side (by omega) | with_reducible exact off_small _ _ _ | with_reducible intro _ | split
      | dsimp +zetaDelta only

theorem execBundleReceived_keeps {P : List Part} {s : State} (a1) (a2) {a3 : State} (hP : ∀ q ∈ ([.page .lw, .page .ep, .page .dc, .page .mc, .page .xl, .mesh, .clusters, .dm, .slices, .cxl, .frz, .ports, .scrubs] : List Part), q ∈ P) (h : Keeps P s a3) :
    NextKeeps P s (execBundleReceived a1 a2 a3) := by
  unfold execBundleReceived
  repeat' first
      | with_reducible assumption | with_reducible apply nextKeeps_next | with_reducible apply bundleIn_keeps
      | with_reducible exact hP _ (by decide) | with_reducible exact parts_in hP | with_reducible intro _

theorem svcSend_keeps {P : List Part} {s : State} {a1 : State} (a2) (a3) (a4) (a5) (hP : ∀ q ∈ ([.page .lw, .page .ep, .page .dc, .page .mc, .clusters, .dm, .slices, .cxl, .frz, .ports, .scrubs] : List Part), q ∈ P) (h : Keeps P s a1) :
    Keeps P s (svcSend a1 a2 a3 a4 a5) := by
  unfold svcSend
  repeat' first
      | with_reducible assumption | with_reducible apply serveRdcur_keeps | with_reducible apply State.setPort_keeps | extract_lets
      | with_reducible apply keeps_range | with_reducible apply keeps_foldl | with_reducible apply keeps_foldl1
      | with_reducible apply keeps_ite | with_reducible exact hP _ (by decide) | with_reducible exact parts_in hP | with_reducible intro _
      | split | dsimp +zetaDelta only

theorem execBundleClose_keeps {P : List Part} {s : State} (a1) (a2) (a3) {a4 : State} (hP : ∀ q ∈ ([.page .lw, .page .ep, .page .dc, .page .mc, .clusters, .dm, .slices, .cxl, .frz, .ports, .scrubs] : List Part), q ∈ P) (h : Keeps P s a4) :
    NextKeeps P s (execBundleClose a1 a2 a3 a4) := by
  unfold execBundleClose
  repeat' first
      | with_reducible assumption | with_reducible apply nextKeeps_next | with_reducible apply svcSend_keeps
      | with_reducible apply closeFor_keeps | with_reducible exact hP _ (by decide) | with_reducible exact parts_in hP
      | with_reducible intro _ | split

theorem xlSlotCtrlWrite_keeps {P : List Part} {s : State} {a1 : State} (a2) (a3) (hP : ∀ q ∈ ([.page .xl, .staged, .ports] : List Part), q ∈ P) (h : Keeps P s a1) :
    Keeps P s (xlSlotCtrlWrite a1 a2 a3) := by
  unfold xlSlotCtrlWrite
  repeat' first
      | with_reducible assumption | with_reducible apply pageWrite_keeps | with_reducible apply State.setPort_keeps | extract_lets
      | with_reducible apply keeps_ite | with_reducible exact hP _ (by decide) | with_reducible exact parts_in hP
      | ((with_reducible refine page_in (c := .xl) (hP _ (by decide)) ?_) <;> exact rfl) | with_reducible exact le_side (by omega)
      | with_reducible exact lt_side (by omega) | with_reducible exact off_small _ _ _ | with_reducible intro _ | split
      | dsimp +zetaDelta only

theorem execXlSlotArm_keeps {P : List Part} {s : State} (a1) (a2) {a3 : State} (hP : ∀ q ∈ ([.page .xl, .staged, .ports] : List Part), q ∈ P) (h : Keeps P s a3) :
    NextKeeps P s (execXlSlotArm a1 a2 a3) := by
  unfold execXlSlotArm
  repeat' first
      | with_reducible assumption | with_reducible apply nextKeeps_next | with_reducible apply xlSlotCtrlWrite_keeps
      | with_reducible exact hP _ (by decide) | with_reducible exact parts_in hP | with_reducible intro _

theorem closeSlot_keeps {P : List Part} {s : State} {a1 : State} (a2) (hP : ∀ q ∈ ([.ports] : List Part), q ∈ P) (h : Keeps P s a1) :
    Keeps P s (closeSlot a1 a2) := by
  unfold closeSlot
  repeat' first
      | with_reducible assumption | with_reducible apply closeFor_keeps | with_reducible apply State.setPort_keeps | extract_lets
      | with_reducible exact hP _ (by decide) | with_reducible exact parts_in hP | with_reducible intro _ | split | dsimp +zetaDelta only

theorem openSlot_keeps {P : List Part} {s : State} {a1 : State} (a2) (a3) (hP : ∀ q ∈ ([.page .xl, .ports] : List Part), q ∈ P) (h : Keeps P s a1) :
    Keeps P s (openSlot a1 a2 a3) := by
  unfold openSlot
  repeat' first
      | with_reducible assumption | with_reducible apply closeSlot_keeps | with_reducible apply closeFor_keeps
      | with_reducible apply raiseErr_keeps | with_reducible apply State.setPort_keeps | extract_lets | with_reducible apply keeps_ite
      | with_reducible exact hP _ (by decide) | with_reducible exact parts_in hP
      | ((with_reducible refine page_in (c := .xl) (hP _ (by decide)) ?_) <;> exact rfl) | with_reducible exact le_side (by omega)
      | with_reducible exact lt_side (by omega) | with_reducible exact off_small _ _ _ | with_reducible intro _ | split
      | dsimp +zetaDelta only

theorem execSlotOpen_keeps {P : List Part} {s : State} (a1) (a2) {a3 : State} (hP : ∀ q ∈ ([.page .xl, .ports] : List Part), q ∈ P) (h : Keeps P s a3) :
    NextKeeps P s (execSlotOpen a1 a2 a3) := by
  unfold execSlotOpen
  repeat' first
      | with_reducible assumption | with_reducible apply nextKeeps_next | with_reducible apply openSlot_keeps
      | with_reducible exact hP _ (by decide) | with_reducible exact parts_in hP | with_reducible intro _

theorem execSlotClose_keeps {P : List Part} {s : State} (a1) (a2) {a3 : State} (hP : ∀ q ∈ ([.ports] : List Part), q ∈ P) (h : Keeps P s a3) :
    NextKeeps P s (execSlotClose a1 a2 a3) := by
  unfold execSlotClose
  repeat' first
      | with_reducible assumption | with_reducible apply nextKeeps_next | with_reducible apply closeSlot_keeps
      | with_reducible apply keeps_ite | with_reducible exact hP _ (by decide) | with_reducible exact parts_in hP | with_reducible intro _
      | split

theorem transmit_keeps {P : List Part} {s : State} {a1 : State} (a2) (hP : ∀ q ∈ ([.page .xl, .ports] : List Part), q ∈ P) (h : Keeps P s a1) :
    Keeps P s (transmit a1 a2) := by
  unfold transmit
  repeat' first
      | with_reducible assumption | with_reducible apply markLate_keeps | with_reducible apply emitUnit_keeps
      | with_reducible apply freeBerth_keeps | with_reducible apply State.setPort_keeps | with_reducible apply cntPreg_keeps | extract_lets
      | with_reducible apply keeps_ite | with_reducible exact hP _ (by decide) | with_reducible exact parts_in hP
      | ((with_reducible refine page_in (c := .xl) (hP _ (by decide)) ?_) <;> exact rfl) | with_reducible exact le_side (by omega)
      | with_reducible exact lt_side (by omega) | with_reducible exact off_small _ _ _ | with_reducible intro _ | split
      | dsimp +zetaDelta only

theorem execBundleTransmit_keeps {P : List Part} {s : State} (a1) {a2 : State} (hP : ∀ q ∈ ([.page .xl, .ports] : List Part), q ∈ P) (h : Keeps P s a2) :
    NextKeeps P s (execBundleTransmit a1 a2) := by
  unfold execBundleTransmit
  repeat' first
      | with_reducible assumption | with_reducible apply nextKeeps_next | with_reducible apply transmit_keeps
      | with_reducible exact hP _ (by decide) | with_reducible exact parts_in hP | with_reducible intro _

end Sys2Proof.Machine
end

