-- ==== Sys2Proof/Laws/KeepIssue.lean ====
section
/-! SUPPORT. What the operations of Machine/Issue.lean leave alone. -/

set_option Elab.async false

namespace Sys2Proof.Machine

open Sys2Proof

theorem startWait_keeps {P : List Part} {s : State} {a1 : State} (a2) (a3) (hP : ∀ q ∈ ([.page .sd, .cores, .sd] : List Part), q ∈ P) (h : Keeps P s a1) :
    Keeps P s (startWait a1 a2 a3) := by
  unfold startWait
  repeat' first
      | with_reducible assumption | with_reducible apply setWaits_keeps | with_reducible apply State.setCore_keeps | extract_lets
      | with_reducible exact hP _ (by decide) | with_reducible exact parts_in hP | with_reducible intro _ | split | dsimp +zetaDelta only

theorem sAfter_keeps {P : List Part} {s t : State} (id o i m) (hP : ∀ q ∈ ([.page .sd, .cores, .locks, .sd] : List Part), q ∈ P) (h : Keeps P s t) : Keeps P s (sAfter t id o i m) := by
  cases i
  case waitAny => exact startWait_keeps _ _ (parts_in hP) h
  case waitAll => exact startWait_keeps _ _ (parts_in hP) h
  case fenceM => exact startWait_keeps _ _ (parts_in hP) h
  case park => exact askPark_keeps _ (parts_in hP) h
  case syncI =>
    exact keeps_ite (fun _ => setWaits_keeps _ _ _ (parts_in hP) h) (fun _ => State.setCore_keeps _ _ (parts_in hP) h)
  all_goals exact h

theorem askAccess_keeps {P : List Part} {s : State} {a1 : State} (a2) (a3) (hP : ∀ q ∈ ([.cxl] : List Part), q ∈ P) (h : Keeps P s a1) :
    Keeps P s (askAccess a1 a2 a3) := by
  unfold askAccess
  repeat' first
      | with_reducible assumption | with_reducible apply emit_keeps | extract_lets | with_reducible apply keeps_foldl
      | with_reducible apply keeps_foldl1 | with_reducible apply keeps_ite | with_reducible intro _ | split
      | fail_if_no_progress with_reducible refine put_cxl_keeps _ (hP _ (by decide)) ?_ | dsimp +zetaDelta only

theorem sendAccess_keeps {P : List Part} {s : State} {a1 : State} (a2) (a3) (hP : ∀ q ∈ ([.page .ep, .cxl, .frz] : List Part), q ∈ P) (h : Keeps P s a1) :
    Keeps P s (sendAccess a1 a2 a3).1 := by
  unfold sendAccess
  repeat' first
      | with_reducible assumption | with_reducible apply askAccess_keeps | with_reducible apply listDiscard_keeps | extract_lets
      | with_reducible apply keeps_ite | with_reducible exact hP _ (by decide) | with_reducible exact parts_in hP | with_reducible intro _
      | split | dsimp +zetaDelta only

theorem resumeAccesses_keeps {P : List Part} {s : State} {a1 : State} (a2) (hP : ∀ q ∈ ([.cxl] : List Part), q ∈ P) (h : Keeps P s a1) :
    Keeps P s (resumeAccesses a1 a2) := by
  unfold resumeAccesses
  repeat' first
      | with_reducible assumption | with_reducible apply askAccess_keeps | extract_lets | with_reducible apply keeps_foldl
      | with_reducible apply keeps_foldl1 | with_reducible apply keeps_ite | with_reducible exact hP _ (by decide)
      | with_reducible exact parts_in hP | with_reducible intro _ | split | dsimp +zetaDelta only

theorem pushAccess_keeps {P : List Part} {s : State} {a1 : State} (a2) (a3) (a4) (a5) (a6) (a7) (hP : ∀ q ∈ ([.page .ep, .page .sd, .cores, .sd, .cxl, .frz] : List Part), q ∈ P) (h : Keeps P s a1) :
    Keeps P s (pushAccess a1 a2 a3 a4 a5 a6 a7) := by
  unfold pushAccess
  repeat' first
      | with_reducible assumption | with_reducible apply sendAccess_keeps | with_reducible apply State.setCore_keeps | extract_lets
      | with_reducible apply keeps_ite | with_reducible exact hP _ (by decide) | with_reducible exact parts_in hP | with_reducible intro _
      | split | dsimp +zetaDelta only

theorem loadLocal_keeps {P : List Part} {s : State} {a1 : State} (a2) (a3) (a4) (a5) (a6) (hP : ∀ q ∈ ([.page .sd, .page .gc, .cores, .locks, .sd] : List Part), q ∈ P) (h : Keeps P s a1) :
    Keeps P s (loadLocal a1 a2 a3 a4 a5 a6) := by
  unfold loadLocal
  repeat' first
      | with_reducible assumption | with_reducible apply noteUpset_keeps | with_reducible apply haltCore_keeps
      | with_reducible apply State.setCore_keeps | with_reducible apply keeps_ite | with_reducible exact hP _ (by decide)
      | with_reducible exact parts_in hP | with_reducible intro _ | split

theorem relNow_keeps {P : List Part} {s : State} {a1 : State} (a2) (a3) (a4) (a5) (hP : ∀ q ∈ ([.page .ml, .page .sd, .cores, .locks, .sd] : List Part), q ∈ P) (h : Keeps P s a1) :
    Keeps P s (relNow a1 a2 a3 a4 a5) := by
  unfold relNow
  repeat' first
      | with_reducible assumption | with_reducible apply release_keeps | with_reducible apply State.setCore_keeps | extract_lets
      | with_reducible exact hP _ (by decide) | with_reducible exact parts_in hP | with_reducible intro _ | dsimp +zetaDelta only

theorem sendIssue_keeps {P : List Part} {s : State} {a1 : State} (a2) (a3) (a4) (a5) (a6) (hP : ∀ q ∈ ([.page .sd, .page .gc, .cores, .locks, .sd, .ports] : List Part), q ∈ P) (h : Keeps P s a1) :
    Keeps P s (sendIssue a1 a2 a3 a4 a5 a6) := by
  unfold sendIssue
  repeat' first
      | with_reducible assumption | with_reducible apply beginSend_keeps | with_reducible apply sendStatus_keeps
      | with_reducible apply noteUpset_keeps | with_reducible apply haltCore_keeps | with_reducible apply setWaits_keeps
      | with_reducible apply State.setCore_keeps | extract_lets | with_reducible apply keeps_ite | with_reducible exact hP _ (by decide)
      | with_reducible exact parts_in hP | with_reducible intro _ | split | dsimp +zetaDelta only

theorem mEffect_keeps {P : List Part} {s : State} {a1 : State} (a2) (a3) (a4) (a5) (a6) (hP : ∀ q ∈ ([.page .ep, .page .ml, .page .sd, .page .xl, .page .gc, .cores, .fares, .locks, .sd, .cxl, .frz, .ports] : List Part), q ∈ P) (h : Keeps P s a1) :
    Keeps P s (mEffect a1 a2 a3 a4 a5 a6) := by
  unfold mEffect
  repeat' first
      | with_reducible assumption | with_reducible apply sendIssue_keeps | with_reducible apply relNow_keeps
      | with_reducible apply loadLocal_keeps | with_reducible apply pushAccess_keeps | with_reducible apply startWait_keeps
      | with_reducible apply berthRelease_keeps | with_reducible apply acquire_keeps | with_reducible apply setWaits_keeps
      | with_reducible apply State.setCore_keeps | extract_lets | with_reducible apply keeps_ite | with_reducible exact hP _ (by decide)
      | with_reducible exact parts_in hP | with_reducible intro _ | split | fail_if_no_progress with_reducible refine put_fresh_keeps _ ?_
      | dsimp +zetaDelta only

theorem runBundle_keeps {P : List Part} {s t : State} (id u a q b) (hP : ∀ q ∈ ([.page .ep, .page .ml, .page .sd, .page .xl, .page .gc, .cores, .fares, .locks, .sd, .cxl, .frz, .ports] : List Part), q ∈ P) (h : Keeps P s t) :
    Keeps P s (runBundle t id u a q b) := by
  unfold runBundle
  dsimp only
  refine keeps_ite (fun _ => ?_) (fun _ => sAfter_keeps _ _ _ _ (parts_in hP) ?_)
  all_goals exact mEffect_keeps _ _ _ _ _ (parts_in hP) (State.setCore_keeps _ _ (parts_in hP) (put_fresh_keeps _ h))

theorem issueFault_keeps {P : List Part} {s : State} {a1 : State} (a2) (a3) (a4) (hP : ∀ q ∈ ([.page .sd, .page .gc, .cores, .locks, .sd] : List Part), q ∈ P) (h : Keeps P s a1) :
    Keeps P s (issueFault a1 a2 a3 a4) := by
  unfold issueFault
  repeat' first
      | with_reducible assumption | with_reducible apply haltCore_keeps | with_reducible apply State.setCore_keeps | extract_lets
      | with_reducible apply keeps_ite | with_reducible exact hP _ (by decide) | with_reducible exact parts_in hP | with_reducible intro _
      | split | dsimp +zetaDelta only

theorem issue_keeps {P : List Part} {s : State} {a1 : State} (a2) (a3) (a4) (hP : ∀ q ∈ ([.page .ep, .page .ml, .page .sd, .page .xl, .page .gc, .cores, .fares, .locks, .sd, .cxl, .frz, .ports] : List Part), q ∈ P) (h : Keeps P s a1) :
    Keeps P s (issue a1 a2 a3 a4) := by
  unfold issue
  repeat' first
      | with_reducible assumption | with_reducible apply issueFault_keeps | with_reducible apply runBundle_keeps
      | with_reducible apply haltCore_keeps | with_reducible apply setWaits_keeps | with_reducible apply State.setCore_keeps
      | with_reducible apply raiseErr_keeps | extract_lets | with_reducible apply keeps_ite | with_reducible exact hP _ (by decide)
      | with_reducible exact parts_in hP | ((with_reducible refine page_in (c := .gc) (hP _ (by decide)) ?_) <;> exact rfl)
      | with_reducible exact le_side (by omega) | with_reducible exact lt_side (by omega) | with_reducible exact off_small _ _ _
      | with_reducible intro _ | split | dsimp +zetaDelta only

theorem syncEnd_keeps {P : List Part} {s : State} {a1 : State} (a2) (hP : ∀ q ∈ ([.page .sd, .cores, .sd] : List Part), q ∈ P) (h : Keeps P s a1) :
    Keeps P s (syncEnd a1 a2) := by
  unfold syncEnd
  repeat' first
      | with_reducible assumption | with_reducible apply setWaits_keeps | extract_lets | with_reducible exact hP _ (by decide)
      | with_reducible exact parts_in hP | with_reducible intro _ | dsimp +zetaDelta only

theorem issueOne_keeps {P : List Part} {s : State} {a1 : State} (a2) (a3) (a4) (hP : ∀ q ∈ ([.page .ep, .page .ml, .page .sd, .page .xl, .page .gc, .cores, .fares, .locks, .sd, .cxl, .frz, .ports] : List Part), q ∈ P) (h : Keeps P s a1) :
    Keeps P s (issueOne a1 a2 a3 a4) := by
  unfold issueOne
  repeat' first
      | with_reducible assumption | with_reducible apply syncEnd_keeps | with_reducible apply issue_keeps | with_reducible apply keeps_ite
      | with_reducible exact hP _ (by decide) | with_reducible exact parts_in hP | with_reducible intro _ | split

theorem issueCycle_keeps {P : List Part} {s : State} {a1 : State} (a2) (hP : ∀ q ∈ ([.page .ep, .page .ml, .page .sd, .page .xl, .page .gc, .cores, .fares, .locks, .sd, .cxl, .frz, .ports] : List Part), q ∈ P) (h : Keeps P s a1) :
    Keeps P s (issueCycle a1 a2) := by
  unfold issueCycle
  repeat' first
      | with_reducible assumption | with_reducible apply issueOne_keeps | with_reducible apply serveLock_keeps | extract_lets
      | with_reducible apply keeps_foldl | with_reducible apply keeps_foldl1 | with_reducible apply keeps_ite
      | with_reducible exact hP _ (by decide) | with_reducible exact parts_in hP | with_reducible intro _ | split | dsimp +zetaDelta only

theorem execBundleIssue_keeps {P : List Part} {s : State} (a1) (a2) (a3) {a4 : State} (hP : ∀ q ∈ ([.page .ep, .page .ml, .page .sd, .page .xl, .page .gc, .cores, .fares, .locks, .sd, .cxl, .frz, .ports] : List Part), q ∈ P) (h : Keeps P s a4) :
    NextKeeps P s (execBundleIssue a1 a2 a3 a4) := by
  unfold execBundleIssue
  repeat' first
      | with_reducible assumption | with_reducible apply nextKeeps_next | with_reducible apply issueCycle_keeps
      | with_reducible apply issueOne_keeps | with_reducible apply keeps_foldl | with_reducible apply keeps_foldl1
      | with_reducible apply keeps_ite | with_reducible exact hP _ (by decide) | with_reducible exact parts_in hP | with_reducible intro _
      | split | dsimp +zetaDelta only

theorem mmaDone_keeps {P : List Part} {s : State} {a1 : State} (a2) (a3) (hP : ∀ q ∈ ([.page .sd, .page .gc, .cores, .locks, .sd] : List Part), q ∈ P) (h : Keeps P s a1) :
    Keeps P s (mmaDone a1 a2 a3) := by
  unfold mmaDone
  repeat' first
      | with_reducible assumption | with_reducible apply haltLate_keeps | with_reducible apply noteUpset_keeps
      | with_reducible apply State.setCore_keeps | extract_lets | with_reducible apply keeps_ite | with_reducible exact hP _ (by decide)
      | with_reducible exact parts_in hP | with_reducible intro _ | split | fail_if_no_progress with_reducible refine put_fresh_keeps _ ?_
      | dsimp +zetaDelta only

theorem execMmaComplete_keeps {P : List Part} {s : State} (a1) (a2) {a3 : State} (hP : ∀ q ∈ ([.page .sd, .page .gc, .cores, .locks, .sd] : List Part), q ∈ P) (h : Keeps P s a3) :
    NextKeeps P s (execMmaComplete a1 a2 a3) := by
  unfold execMmaComplete
  repeat' first
      | with_reducible assumption | with_reducible apply nextKeeps_next | with_reducible apply mmaDone_keeps
      | with_reducible apply keeps_ite | with_reducible exact hP _ (by decide) | with_reducible exact parts_in hP | with_reducible intro _
      | split

theorem sendDone_keeps {P : List Part} {s : State} {a1 : State} (a2) (a3) (hP : ∀ q ∈ ([.page .sd, .page .gc, .cores, .mesh, .locks, .sd, .ports] : List Part), q ∈ P) (h : Keeps P s a1) :
    Keeps P s (sendDone a1 a2 a3) := by
  unfold sendDone
  repeat' first
      | with_reducible assumption | with_reducible apply launch_keeps | with_reducible apply haltLate_keeps
      | with_reducible apply noteUpset_keeps | with_reducible apply xlCancel_keeps | with_reducible apply State.setCore_keeps | extract_lets
      | with_reducible apply keeps_ite | with_reducible exact hP _ (by decide) | with_reducible exact parts_in hP | with_reducible intro _
      | split | dsimp +zetaDelta only

theorem execSendComplete_keeps {P : List Part} {s : State} (a1) (a2) {a3 : State} (hP : ∀ q ∈ ([.page .sd, .page .gc, .cores, .mesh, .locks, .sd, .ports] : List Part), q ∈ P) (h : Keeps P s a3) :
    NextKeeps P s (execSendComplete a1 a2 a3) := by
  unfold execSendComplete
  repeat' first
      | with_reducible assumption | with_reducible apply nextKeeps_next | with_reducible apply sendDone_keeps
      | with_reducible apply keeps_ite | with_reducible exact hP _ (by decide) | with_reducible exact parts_in hP | with_reducible intro _
      | split

end Sys2Proof.Machine
end

