-- ==== Sys2Proof/Laws/KeepLanding.lean ====
section
/-! SUPPORT. What the operations of Machine/Landing.lean leave alone. -/

set_option Elab.async false

namespace Sys2Proof.Machine

open Sys2Proof

theorem lwCloseCheck_keeps {P : List Part} {s : State} {a1 : State} (hP : ∀ q ∈ ([.lw] : List Part), q ∈ P) (h : Keeps P s a1) :
    Keeps P s (lwCloseCheck a1) := by
  unfold lwCloseCheck
  repeat' first
      | with_reducible assumption | with_reducible apply keeps_ite | with_reducible intro _ | split
      | fail_if_no_progress with_reducible refine put_lw_keeps _ (hP _ (by decide)) ?_

theorem askLines_keeps {P : List Part} {s : State} {a1 : State} (a2) (hP : ∀ q ∈ ([.page .lw, .page .dc, .slices] : List Part), q ∈ P) (h : Keeps P s a1) :
    Keeps P s (askLines a1 a2) := by
  unfold askLines
  repeat' first
      | with_reducible assumption | with_reducible apply startBi_keeps | with_reducible apply keeps_foldl
      | with_reducible apply keeps_foldl1 | with_reducible apply keeps_ite | with_reducible exact hP _ (by decide)
      | with_reducible exact parts_in hP | with_reducible intro _ | split

theorem lwClose_keeps {P : List Part} {s : State} {a1 : State} (hP : ∀ q ∈ ([.page .lw, .page .dc, .slices, .lw] : List Part), q ∈ P) (h : Keeps P s a1) :
    Keeps P s (lwClose a1) := by
  unfold lwClose
  repeat' first
      | with_reducible assumption | with_reducible apply askLines_keeps | with_reducible apply lwCloseCheck_keeps
      | with_reducible exact hP _ (by decide) | with_reducible exact parts_in hP | with_reducible intro _
      | fail_if_no_progress with_reducible refine put_lw_keeps _ (hP _ (by decide)) ?_

theorem lwEnableAct_keeps {P : List Part} {s : State} {a1 : State} (a2) (a3) (hP : ∀ q ∈ ([.page .lw, .page .dc, .slices, .lw] : List Part), q ∈ P) (h : Keeps P s a1) :
    Keeps P s (lwEnableAct a1 a2 a3) := by
  unfold lwEnableAct
  repeat' first
      | with_reducible assumption | with_reducible apply lwClose_keeps | with_reducible apply raiseErr_keeps
      | with_reducible apply rejectEnable_keeps | extract_lets | with_reducible apply keeps_ite | with_reducible exact hP _ (by decide)
      | with_reducible exact parts_in hP | with_reducible exact le_side (by omega) | with_reducible exact lt_side (by omega)
      | with_reducible exact off_small _ _ _ | with_reducible intro _ | split
      | fail_if_no_progress with_reducible refine put_lw_keeps _ (hP _ (by decide)) ?_ | dsimp +zetaDelta only

theorem refuseMem_keeps {P : List Part} {s : State} {a1 : State} (a2) (h : Keeps P s a1) :
    Keeps P s (refuseMem a1 a2) := by
  unfold refuseMem
  repeat' first
      | with_reducible assumption | with_reducible apply emit_keeps | with_reducible intro _ | split

theorem dropMem_keeps {P : List Part} {s : State} {a1 : State} (a2) (a3) (hP : ∀ q ∈ ([.page .ep] : List Part), q ∈ P) (h : Keeps P s a1) :
    Keeps P s (dropMem a1 a2 a3) := by
  unfold dropMem
  repeat' first
      | with_reducible assumption | with_reducible apply refuseMem_keeps | with_reducible apply raiseErr_keeps
      | with_reducible apply cntPreg_keeps | with_reducible exact hP _ (by decide) | with_reducible exact parts_in hP
      | with_reducible exact le_side (by omega) | with_reducible exact lt_side (by omega) | with_reducible exact off_small _ _ _
      | with_reducible intro _

theorem windowReq_keeps {P : List Part} {s : State} {a1 : State} (a2) (a3) (a4) (hP : ∀ q ∈ ([.page .lw, .page .ep, .page .dc, .page .mc, .clusters, .dm, .slices, .lw, .cxl, .frz, .scrubs] : List Part), q ∈ P) (h : Keeps P s a1) :
    Keeps P s (windowReq a1 a2 a3 a4) := by
  unfold windowReq
  repeat' first
      | with_reducible assumption | with_reducible apply hostReq_keeps | with_reducible apply keeps_ite
      | with_reducible exact hP _ (by decide) | with_reducible exact parts_in hP | with_reducible intro _ | split
      | fail_if_no_progress with_reducible refine put_lw_keeps _ (hP _ (by decide)) ?_

theorem hostMem_keeps {P : List Part} {s : State} {a1 : State} (a2) (a3) (hP : ∀ q ∈ ([.page .lw, .page .ep, .page .dc, .page .mc, .clusters, .dm, .slices, .lw, .cxl, .frz, .scrubs] : List Part), q ∈ P) (h : Keeps P s a1) :
    Keeps P s (hostMem a1 a2 a3) := by
  unfold hostMem
  repeat' first
      | with_reducible assumption | with_reducible apply windowReq_keeps | with_reducible apply dropMem_keeps
      | with_reducible apply refuseMem_keeps | with_reducible apply raiseErr_keeps | with_reducible apply keeps_ite
      | with_reducible exact hP _ (by decide) | with_reducible exact parts_in hP | with_reducible exact le_side (by omega)
      | with_reducible exact lt_side (by omega) | with_reducible exact off_small _ _ _ | with_reducible intro _ | split

theorem pumpHost_keeps {P : List Part} {s : State} {a1 : State} (hP : ∀ q ∈ ([.page .lw, .page .ep, .page .dc, .page .mc, .clusters, .dm, .slices, .lw, .cxl, .frz, .scrubs] : List Part), q ∈ P) (h : Keeps P s a1) :
    Keeps P s (pumpHost a1) := by
  unfold pumpHost
  repeat' first
      | with_reducible assumption | with_reducible apply hostMem_keeps | with_reducible apply State.setSlice_keeps | extract_lets
      | with_reducible apply keeps_foldl | with_reducible apply keeps_foldl1 | with_reducible apply keeps_ite
      | with_reducible exact hP _ (by decide) | with_reducible exact parts_in hP | with_reducible intro _ | split | dsimp +zetaDelta only

theorem hostMemWr_keeps {P : List Part} {s : State} {a1 : State} (a2) (a3) (a4) (a5) (hP : ∀ q ∈ ([.page .lw, .page .ep, .page .dc, .page .mc, .clusters, .dm, .slices, .lw, .cxl, .frz, .scrubs] : List Part), q ∈ P) (h : Keeps P s a1) :
    Keeps P s (hostMemWr a1 a2 a3 a4 a5) := by
  unfold hostMemWr
  repeat' first
      | with_reducible assumption | with_reducible apply hostMem_keeps | with_reducible apply raiseErr_keeps
      | with_reducible apply when_keeps | extract_lets | with_reducible exact hP _ (by decide) | with_reducible exact parts_in hP
      | with_reducible exact le_side (by omega) | with_reducible exact lt_side (by omega) | with_reducible exact off_small _ _ _
      | with_reducible intro _ | dsimp +zetaDelta only

theorem execMemrd_keeps {P : List Part} {s : State} (a1) (a2) {a3 : State} (hP : ∀ q ∈ ([.page .lw, .page .ep, .page .dc, .page .mc, .clusters, .dm, .slices, .lw, .cxl, .frz, .scrubs] : List Part), q ∈ P) (h : Keeps P s a3) :
    NextKeeps P s (execMemrd a1 a2 a3) := by
  unfold execMemrd
  repeat' first
      | with_reducible assumption | with_reducible apply nextKeeps_next | with_reducible apply hostMem_keeps
      | with_reducible exact hP _ (by decide) | with_reducible exact parts_in hP | with_reducible intro _

theorem execMemrddata_keeps {P : List Part} {s : State} (a1) {a2 : State} (hP : ∀ q ∈ ([.page .lw, .page .ep, .page .dc, .page .mc, .clusters, .dm, .slices, .lw, .cxl, .frz, .scrubs] : List Part), q ∈ P) (h : Keeps P s a2) :
    NextKeeps P s (execMemrddata a1 a2) := by
  unfold execMemrddata
  repeat' first
      | with_reducible assumption | with_reducible apply nextKeeps_next | with_reducible apply hostMem_keeps
      | with_reducible exact hP _ (by decide) | with_reducible exact parts_in hP | with_reducible intro _

theorem execMeminv_keeps {P : List Part} {s : State} (a1) (a2) {a3 : State} (hP : ∀ q ∈ ([.page .lw, .page .ep, .page .dc, .page .mc, .clusters, .dm, .slices, .lw, .cxl, .frz, .scrubs] : List Part), q ∈ P) (h : Keeps P s a3) :
    NextKeeps P s (execMeminv a1 a2 a3) := by
  unfold execMeminv
  repeat' first
      | with_reducible assumption | with_reducible apply nextKeeps_next | with_reducible apply hostMem_keeps
      | with_reducible exact hP _ (by decide) | with_reducible exact parts_in hP | with_reducible intro _

theorem execMemwr_keeps {P : List Part} {s : State} (a1) (a2) (a3) {a4 : State} (hP : ∀ q ∈ ([.page .lw, .page .ep, .page .dc, .page .mc, .clusters, .dm, .slices, .lw, .cxl, .frz, .scrubs] : List Part), q ∈ P) (h : Keeps P s a4) :
    NextKeeps P s (execMemwr a1 a2 a3 a4) := by
  unfold execMemwr
  repeat' first
      | with_reducible assumption | with_reducible apply nextKeeps_next | with_reducible apply hostMemWr_keeps
      | with_reducible exact hP _ (by decide) | with_reducible exact parts_in hP | with_reducible intro _

theorem execMemwrptl_keeps {P : List Part} {s : State} (a1) (a2) (a3) (a4) {a5 : State} (hP : ∀ q ∈ ([.page .lw, .page .ep, .page .dc, .page .mc, .clusters, .dm, .slices, .lw, .cxl, .frz, .scrubs] : List Part), q ∈ P) (h : Keeps P s a5) :
    NextKeeps P s (execMemwrptl a1 a2 a3 a4 a5) := by
  unfold execMemwrptl
  repeat' first
      | with_reducible assumption | with_reducible apply nextKeeps_next | with_reducible apply hostMemWr_keeps
      | with_reducible exact hP _ (by decide) | with_reducible exact parts_in hP | with_reducible intro _

theorem moveEnd_keeps {P : List Part} {s : State} {a1 : State} (a2) (hP : ∀ q ∈ ([.page .lw] : List Part), q ∈ P) (h : Keeps P s a1) :
    Keeps P s (moveEnd a1 a2) := by
  unfold moveEnd
  repeat' first
      | with_reducible assumption | with_reducible apply takeFresh_keeps | with_reducible apply goDone_keeps
      | with_reducible apply setPreg_keeps | extract_lets | with_reducible exact hP _ (by decide) | with_reducible exact parts_in hP
      | with_reducible exact le_side (by omega) | with_reducible exact lt_side (by omega) | with_reducible exact off_small _ _ _
      | with_reducible intro _ | dsimp +zetaDelta only

theorem moveCommit_keeps {P : List Part} {s : State} {a1 : State} (a2) (a3) (hP : ∀ q ∈ ([.page .lw, .page .ep, .page .dc, .page .mc, .clusters, .dm, .slices, .lw, .cxl, .frz, .scrubs] : List Part), q ∈ P) (h : Keeps P s a1) :
    Keeps P s (moveCommit a1 a2 a3) := by
  unfold moveCommit
  repeat' first
      | with_reducible assumption | with_reducible apply moveEnd_keeps | with_reducible apply lwClose_keeps
      | with_reducible apply hostReq_keeps | with_reducible apply setPreg_keeps | extract_lets | with_reducible apply keeps_foldl
      | with_reducible apply keeps_foldl1 | with_reducible apply keeps_ite | with_reducible exact hP _ (by decide)
      | with_reducible exact parts_in hP | with_reducible exact le_side (by omega) | with_reducible exact lt_side (by omega)
      | with_reducible exact off_small _ _ _ | with_reducible intro _ | split
      | fail_if_no_progress with_reducible refine put_lw_keeps _ (hP _ (by decide)) ?_ | dsimp +zetaDelta only

theorem moveCheck_keeps {P : List Part} {s : State} {a1 : State} (hP : ∀ q ∈ ([.page .lw, .page .ep, .page .dc, .page .mc, .clusters, .dm, .slices, .lw, .cxl, .frz, .scrubs] : List Part), q ∈ P) (h : Keeps P s a1) :
    Keeps P s (moveCheck a1) := by
  unfold moveCheck
  repeat' first
      | with_reducible assumption | with_reducible apply moveCommit_keeps | with_reducible apply keeps_ite
      | with_reducible exact hP _ (by decide) | with_reducible exact parts_in hP | with_reducible intro _ | split

theorem moveStart_keeps {P : List Part} {s : State} {a1 : State} (hP : ∀ q ∈ ([.page .lw, .page .ep, .page .dc, .page .mc, .clusters, .dm, .slices, .lw, .cxl, .frz, .scrubs] : List Part), q ∈ P) (h : Keeps P s a1) :
    Keeps P s (moveStart a1) := by
  unfold moveStart
  repeat' first
      | with_reducible assumption | with_reducible apply moveCheck_keeps | with_reducible apply moveEnd_keeps
      | with_reducible apply raiseErr_keeps | extract_lets | with_reducible apply keeps_ite | with_reducible exact hP _ (by decide)
      | with_reducible exact parts_in hP | with_reducible exact le_side (by omega) | with_reducible exact lt_side (by omega)
      | with_reducible exact off_small _ _ _ | with_reducible intro _ | split
      | fail_if_no_progress with_reducible refine put_lw_keeps _ (hP _ (by decide)) ?_ | dsimp +zetaDelta only

theorem lwMoveWrite_keeps {P : List Part} {s : State} {a1 : State} (a2) (hP : ∀ q ∈ ([.page .lw, .page .ep, .page .dc, .page .mc, .staged, .clusters, .dm, .slices, .lw, .cxl, .frz, .scrubs] : List Part), q ∈ P) (h : Keeps P s a1) :
    Keeps P s (lwMoveWrite a1 a2) := by
  unfold lwMoveWrite
  repeat' first
      | with_reducible assumption | with_reducible apply moveStart_keeps | with_reducible apply pageWrite_keeps | extract_lets
      | with_reducible apply keeps_ite | with_reducible exact hP _ (by decide) | with_reducible exact parts_in hP
      | with_reducible exact le_side (by omega) | with_reducible exact lt_side (by omega) | with_reducible exact off_small _ _ _
      | with_reducible intro _ | split | dsimp +zetaDelta only

theorem execLwMove_keeps {P : List Part} {s : State} (a1) {a2 : State} (hP : ∀ q ∈ ([.page .lw, .page .ep, .page .dc, .page .mc, .staged, .clusters, .dm, .slices, .lw, .cxl, .frz, .scrubs] : List Part), q ∈ P) (h : Keeps P s a2) :
    NextKeeps P s (execLwMove a1 a2) := by
  unfold execLwMove
  repeat' first
      | with_reducible assumption | with_reducible apply nextKeeps_next | with_reducible apply lwMoveWrite_keeps
      | with_reducible exact hP _ (by decide) | with_reducible exact parts_in hP | with_reducible intro _

theorem execLwScanDone_keeps {P : List Part} {s : State} {a1 : State} (hP : ∀ q ∈ ([.page .lw, .page .ep, .page .dc, .page .mc, .clusters, .dm, .slices, .lw, .cxl, .frz, .scrubs] : List Part), q ∈ P) (h : Keeps P s a1) :
    NextKeeps P s (execLwScanDone a1) := by
  unfold execLwScanDone
  repeat' first
      | with_reducible assumption | with_reducible apply nextKeeps_next | with_reducible apply moveCheck_keeps
      | with_reducible apply askLines_keeps | extract_lets | with_reducible apply keeps_ite | with_reducible exact hP _ (by decide)
      | with_reducible exact parts_in hP | with_reducible intro _ | split
      | fail_if_no_progress with_reducible refine put_lw_keeps _ (hP _ (by decide)) ?_ | dsimp +zetaDelta only

theorem moveAsk_keeps {P : List Part} {s : State} {a1 : State} (hP : ∀ q ∈ ([.page .lw, .page .dc, .slices, .lw] : List Part), q ∈ P) (h : Keeps P s a1) :
    Keeps P s (moveAsk a1) := by
  unfold moveAsk
  repeat' first
      | with_reducible assumption | with_reducible apply askLines_keeps | extract_lets | with_reducible apply keeps_ite
      | with_reducible exact hP _ (by decide) | with_reducible exact parts_in hP | with_reducible intro _ | split
      | fail_if_no_progress with_reducible refine put_lw_keeps _ (hP _ (by decide)) ?_ | dsimp +zetaDelta only

theorem uncommitCheck_keeps {P : List Part} {s : State} {a1 : State} (hP : ∀ q ∈ ([.page .ep, .cxl] : List Part), q ∈ P) (h : Keeps P s a1) :
    Keeps P s (uncommitCheck a1) := by
  unfold uncommitCheck
  repeat' first
      | with_reducible assumption | with_reducible apply goDone_keeps | with_reducible apply clrPreg_keeps | with_reducible apply keeps_ite
      | with_reducible exact hP _ (by decide) | with_reducible exact parts_in hP | with_reducible exact le_side (by omega)
      | with_reducible exact lt_side (by omega) | with_reducible exact off_small _ _ _ | with_reducible intro _ | split
      | fail_if_no_progress with_reducible refine put_cxl_keeps _ (hP _ (by decide)) ?_

theorem biEnd_keeps {P : List Part} {s : State} {a1 : State} (a2) (a3) (a4) (hP : ∀ q ∈ ([.page .lw, .page .ep, .page .dc, .page .mc, .clusters, .dm, .slices, .cxl, .frz, .scrubs] : List Part), q ∈ P) (h : Keeps P s a1) :
    Keeps P s (biEnd a1 a2 a3 a4) := by
  unfold biEnd
  repeat' first
      | with_reducible assumption | with_reducible apply serve_keeps | with_reducible apply homeStore_keeps
      | with_reducible apply addRetry_keeps | with_reducible apply setSl_keeps | with_reducible apply State.setSlice_keeps | extract_lets
      | with_reducible apply keeps_foldl | with_reducible apply keeps_foldl1 | with_reducible apply keeps_ite
      | with_reducible exact hP _ (by decide) | with_reducible exact parts_in hP | with_reducible intro _ | split | dsimp +zetaDelta only

theorem biAnswer_keeps {P : List Part} {s : State} {a1 : State} (a2) (a3) (hP : ∀ q ∈ ([.page .lw, .page .ep, .page .dc, .page .mc, .clusters, .dm, .slices, .cxl, .frz, .scrubs] : List Part), q ∈ P) (h : Keeps P s a1) :
    Keeps P s (biAnswer a1 a2 a3) := by
  unfold biAnswer
  repeat' first
      | with_reducible assumption | with_reducible apply biEnd_keeps | with_reducible apply State.setSlice_keeps | extract_lets
      | with_reducible apply keeps_ite | with_reducible exact hP _ (by decide) | with_reducible exact parts_in hP | with_reducible intro _
      | split | dsimp +zetaDelta only

theorem biResume_keeps {P : List Part} {s : State} {a1 : State} (hP : ∀ q ∈ ([.page .lw, .page .ep, .page .dc, .page .mc, .clusters, .dm, .slices, .cxl, .frz, .scrubs] : List Part), q ∈ P) (h : Keeps P s a1) :
    Keeps P s (biResume a1) := by
  unfold biResume
  repeat' first
      | with_reducible assumption | with_reducible apply biEnd_keeps | with_reducible apply keeps_foldl | with_reducible apply keeps_foldl1
      | with_reducible exact hP _ (by decide) | with_reducible exact parts_in hP | with_reducible intro _ | split

theorem execBiSlow_keeps {P : List Part} {s : State} {a1 : State} (hP : ∀ q ∈ ([.page .lw] : List Part), q ∈ P) (h : Keeps P s a1) :
    NextKeeps P s (execBiSlow a1) := by
  unfold execBiSlow
  repeat' first
      | with_reducible assumption | with_reducible apply nextKeeps_next | with_reducible apply raiseErr_keeps
      | with_reducible apply keeps_ite | with_reducible exact hP _ (by decide) | with_reducible exact parts_in hP
      | with_reducible exact le_side (by omega) | with_reducible exact lt_side (by omega) | with_reducible exact off_small _ _ _
      | with_reducible intro _ | split

theorem snoopCur_keeps {P : List Part} {s : State} {a1 : State} (a2) (hP : ∀ q ∈ ([.page .lw, .page .ep, .page .dc, .page .mc, .clusters, .dm, .slices, .cxl, .frz, .scrubs] : List Part), q ∈ P) (h : Keeps P s a1) :
    Keeps P s (snoopCur a1 a2) := by
  unfold snoopCur
  repeat' first
      | with_reducible assumption | with_reducible apply serveRdcur_keeps | with_reducible apply emit_keeps | extract_lets
      | with_reducible apply keeps_ite | with_reducible exact hP _ (by decide) | with_reducible exact parts_in hP | with_reducible intro _
      | split | dsimp +zetaDelta only

theorem snoopData_keeps {P : List Part} {s : State} {a1 : State} (a2) (hP : ∀ q ∈ ([.page .lw, .page .ep, .page .dc, .page .mc, .clusters, .dm, .slices, .cxl, .frz, .scrubs] : List Part), q ∈ P) (h : Keeps P s a1) :
    Keeps P s (snoopData a1 a2) := by
  unfold snoopData
  repeat' first
      | with_reducible assumption | with_reducible apply fetchShared_keeps | with_reducible apply cancelMiss_keeps
      | with_reducible apply cancelGrant_keeps | with_reducible apply setSl_keeps | with_reducible apply emit_keeps | extract_lets
      | with_reducible apply keeps_foldl | with_reducible apply keeps_foldl1 | with_reducible apply keeps_ite
      | with_reducible exact hP _ (by decide) | with_reducible exact parts_in hP | with_reducible intro _ | split | dsimp +zetaDelta only

theorem snoopInv_keeps {P : List Part} {s : State} {a1 : State} (a2) (hP : ∀ q ∈ ([.clusters, .slices] : List Part), q ∈ P) (h : Keeps P s a1) :
    Keeps P s (snoopInv a1 a2) := by
  unfold snoopInv
  repeat' first
      | with_reducible assumption | with_reducible apply cancelMiss_keeps | with_reducible apply dropCopies_keeps
      | with_reducible apply setSl_keeps | with_reducible apply emit_keeps | extract_lets | with_reducible apply keeps_ite
      | with_reducible exact hP _ (by decide) | with_reducible exact parts_in hP | with_reducible intro _ | split | dsimp +zetaDelta only

theorem execSnpcur_keeps {P : List Part} {s : State} (a1) {a2 : State} (hP : ∀ q ∈ ([.page .lw, .page .ep, .page .dc, .page .mc, .clusters, .dm, .slices, .cxl, .frz, .scrubs] : List Part), q ∈ P) (h : Keeps P s a2) :
    NextKeeps P s (execSnpcur a1 a2) := by
  unfold execSnpcur
  repeat' first
      | with_reducible assumption | with_reducible apply nextKeeps_next | with_reducible apply snoopCur_keeps
      | with_reducible apply keeps_ite | with_reducible exact hP _ (by decide) | with_reducible exact parts_in hP | with_reducible intro _
      | split

theorem wbCheck_keeps {P : List Part} {s : State} {a1 : State} (hP : ∀ q ∈ ([.cxl] : List Part), q ∈ P) (h : Keeps P s a1) :
    Keeps P s (wbCheck a1) := by
  unfold wbCheck
  repeat' first
      | with_reducible assumption | extract_lets | with_reducible apply keeps_ite | with_reducible intro _ | split
      | fail_if_no_progress with_reducible refine put_cxl_keeps _ (hP _ (by decide)) ?_ | dsimp +zetaDelta only

theorem dropHostLines_keeps {P : List Part} {s : State} {a1 : State} (hP : ∀ q ∈ ([.page .ep, .page .dc, .page .mc, .clusters, .dm, .slices, .cxl, .frz, .scrubs] : List Part), q ∈ P) (h : Keeps P s a1) :
    Keeps P s (dropHostLines a1) := by
  unfold dropHostLines
  repeat' first
      | with_reducible assumption | with_reducible apply sliceDrop_keeps | with_reducible apply cancelMiss_keeps | extract_lets
      | with_reducible apply keeps_foldl | with_reducible apply keeps_foldl1 | with_reducible exact hP _ (by decide)
      | with_reducible exact parts_in hP | with_reducible intro _ | dsimp +zetaDelta only

theorem cacheWbInv_keeps {P : List Part} {s : State} {a1 : State} (hP : ∀ q ∈ ([.page .ep, .page .dc, .page .mc, .clusters, .dm, .slices, .cxl, .frz, .scrubs] : List Part), q ∈ P) (h : Keeps P s a1) :
    Keeps P s (cacheWbInv a1) := by
  unfold cacheWbInv
  repeat' first
      | with_reducible assumption | with_reducible apply dropHostLines_keeps | with_reducible apply wbCheck_keeps | extract_lets
      | with_reducible apply keeps_ite | with_reducible exact hP _ (by decide) | with_reducible exact parts_in hP | with_reducible intro _
      | split | fail_if_no_progress with_reducible refine put_cxl_keeps _ (hP _ (by decide)) ?_ | dsimp +zetaDelta only

theorem execCacheWritebackAndInvalidate_keeps {P : List Part} {s : State} {a1 : State} (hP : ∀ q ∈ ([.page .ep, .page .dc, .page .mc, .clusters, .dm, .slices, .cxl, .frz, .scrubs] : List Part), q ∈ P) (h : Keeps P s a1) :
    NextKeeps P s (execCacheWritebackAndInvalidate a1) := by
  unfold execCacheWritebackAndInvalidate
  repeat' first
      | with_reducible assumption | with_reducible apply nextKeeps_next | with_reducible apply cacheWbInv_keeps
      | with_reducible exact hP _ (by decide) | with_reducible exact parts_in hP | with_reducible intro _

end Sys2Proof.Machine
end

