-- ==== Sys2Proof/Laws/KeepTranslation.lean ====
section
/-! SUPPORT. What the operations of Machine/Translation.lean leave alone. -/

set_option Elab.async false

namespace Sys2Proof.Machine

open Sys2Proof

theorem lookup_keeps {P : List Part} {s : State} {a1 : State} (a2) (a3) (a4) (a5) (a6) (hP : ∀ q ∈ ([.page .vt] : List Part), q ∈ P) (h : Keeps P s a1) :
    Keeps P s (lookup a1 a2 a3 a4 a5 a6).1 := by
  unfold lookup
  repeat' first
      | with_reducible assumption | with_reducible apply raiseErr_keeps | with_reducible apply cntPreg_keeps | extract_lets
      | with_reducible apply keeps_ite | with_reducible exact hP _ (by decide) | with_reducible exact parts_in hP
      | with_reducible exact le_side (by omega) | with_reducible exact lt_side (by omega) | with_reducible exact off_small _ _ _
      | with_reducible intro _ | split | dsimp +zetaDelta only

theorem endMapW_keeps {P : List Part} {s : State} {a1 : State} (a2) (a3) (a4) (hP : ∀ q ∈ ([.page .sd, .cores, .sd] : List Part), q ∈ P) (h : Keeps P s a1) :
    Keeps P s (endMapW a1 a2 a3 a4) := by
  unfold endMapW
  repeat' first
      | with_reducible assumption | with_reducible apply endWait_keeps | with_reducible apply keeps_foldl
      | with_reducible apply keeps_foldl1 | with_reducible apply keeps_ite | with_reducible exact hP _ (by decide)
      | with_reducible exact parts_in hP | with_reducible intro _ | split

theorem mapFill_keeps {P : List Part} {s : State} {a1 : State} (a2) (a3) (a4) (hP : ∀ q ∈ ([.page .vt, .page .sd, .cores, .sd] : List Part), q ∈ P) (h : Keeps P s a1) :
    Keeps P s (mapFill a1 a2 a3 a4) := by
  unfold mapFill
  repeat' first
      | with_reducible assumption | with_reducible apply endMapW_keeps | with_reducible apply lookup_keeps
      | with_reducible apply wakeCore_keeps | with_reducible apply State.setCore_keeps | extract_lets | with_reducible apply keeps_ite
      | with_reducible exact hP _ (by decide) | with_reducible exact parts_in hP | with_reducible intro _ | split | dsimp +zetaDelta only

theorem execMapFillComplete_keeps {P : List Part} {s : State} (a1) (a2) (a3) {a4 : State} (hP : ∀ q ∈ ([.page .vt, .page .sd, .cores, .sd] : List Part), q ∈ P) (h : Keeps P s a4) :
    NextKeeps P s (execMapFillComplete a1 a2 a3 a4) := by
  unfold execMapFillComplete
  repeat' first
      | with_reducible assumption | with_reducible apply nextKeeps_next | with_reducible apply mapFill_keeps
      | with_reducible apply keeps_ite | with_reducible exact hP _ (by decide) | with_reducible exact parts_in hP | with_reducible intro _
      | split

theorem tblCommit_keeps {P : List Part} {s : State} {a1 : State} (a2) (a3) (a4) (a5) (a6) (a7) (hP : ∀ q ∈ ([.page .vt, .ctxs] : List Part), q ∈ P) (h : Keeps P s a1) :
    Keeps P s (tblCommit a1 a2 a3 a4 a5 a6 a7).1 := by
  unfold tblCommit
  repeat' first
      | with_reducible assumption | with_reducible apply raiseErr_keeps | extract_lets | with_reducible apply keeps_ite
      | with_reducible exact hP _ (by decide) | with_reducible exact parts_in hP | with_reducible exact le_side (by omega)
      | with_reducible exact lt_side (by omega) | with_reducible exact off_small _ _ _ | with_reducible intro _ | split
      | fail_if_no_progress with_reducible refine put_ctxs_keeps _ (hP _ (by decide)) ?_ | dsimp +zetaDelta only

end Sys2Proof.Machine
end

