-- ==== Sys2Proof/Laws/KeepMover.lean ====
section
/-! SUPPORT. What the operations of Machine/Mover.lean leave alone. -/

set_option Elab.async false

namespace Sys2Proof.Machine

open Sys2Proof

theorem pageAdd_keeps {P : List Part} {s : State} {a1 : State} (a2) (a3) (a4) (a5) (a6) (hP : ∀ q ∈ ([.page .vt] : List Part), q ∈ P) (h : Keeps P s a1) :
    Keeps P s (pageAdd a1 a2 a3 a4 a5 a6).1 := by
  unfold pageAdd
  repeat' first
      | with_reducible assumption | with_reducible apply lookup_keeps | extract_lets | with_reducible apply keeps_ite
      | with_reducible exact hP _ (by decide) | with_reducible exact parts_in hP | with_reducible intro _ | split | dsimp +zetaDelta only

theorem cutRun_keeps {P : List Part} {s t : State} (m d limit ue fuel i) (c) (hP : ∀ q ∈ ([.page .vt] : List Part), q ∈ P) (h : Keeps P s t) : Keeps P s (cutRun m d limit ue fuel i t c).1 := by
  induction fuel generalizing i t c with
  | zero => exact h
  | succ fuel ih =>
    unfold cutRun
    extract_lets sa da newS newD r1
    have h1 : Keeps P s r1.1 := by
      show Keeps P s (if mCopy d then pageAdd t m c.pages false sa ue else (t, some c.pages)).1
      split
      · exact pageAdd_keeps _ _ _ _ _ (parts_in hP) h
      · exact h
    split
    · exact h
    · split
      · exact h1
      · next p1 _ =>
        extract_lets r2
        have h2 : Keeps P s r2.1 := pageAdd_keeps _ _ _ _ _ (parts_in hP) h1
        split
        · exact h2
        · exact ih _ _ h2

theorem cutFrom_keeps {P : List Part} {s : State} {a1 : State} (a2) (a3) (a4) (a5) (a6) (a7) (hP : ∀ q ∈ ([.page .vt] : List Part), q ∈ P) (h : Keeps P s a1) :
    Keeps P s (cutFrom a1 a2 a3 a4 a5 a6 a7).1 := by
  unfold cutFrom
  repeat' first
      | with_reducible assumption | with_reducible apply cutRun_keeps | with_reducible exact hP _ (by decide)
      | with_reducible exact parts_in hP | with_reducible intro _

theorem State.setMover_keeps {P : List Part} {s : State} {a1 : State} (a2) (a3) (hP : ∀ q ∈ ([.clusters] : List Part), q ∈ P) (h : Keeps P s a1) :
    Keeps P s (State.setMover a1 a2 a3) := by
  unfold State.setMover
  repeat' first
      | with_reducible assumption | with_reducible apply State.setCl_keeps | with_reducible exact hP _ (by decide)
      | with_reducible exact parts_in hP | with_reducible intro _

theorem submit_keeps {P : List Part} {s : State} {a1 : State} (a2) (a3) (a4) (a5) (a6) (a7) (hP : ∀ q ∈ ([.page .vt, .clusters] : List Part), q ∈ P) (h : Keeps P s a1) :
    Keeps P s (submit a1 a2 a3 a4 a5 a6 a7).1 := by
  unfold submit
  repeat' first
      | with_reducible assumption | with_reducible apply State.setMover_keeps | with_reducible apply cutFrom_keeps
      | with_reducible apply lookup_keeps | extract_lets | with_reducible apply keeps_ite | with_reducible exact hP _ (by decide)
      | with_reducible exact parts_in hP | ((with_reducible refine page_in (c := .cl) (hP _ (by decide)) ?_) <;> exact rfl)
      | with_reducible intro _ | split | dsimp +zetaDelta only

theorem execHubFirmwareSubmission_keeps {P : List Part} {s : State} (a1) (a2) (a3) (a4) {a5 : State} (hP : ∀ q ∈ ([.page .vt, .clusters] : List Part), q ∈ P) (h : Keeps P s a5) :
    NextKeeps P s (execHubFirmwareSubmission a1 a2 a3 a4 a5) := by
  unfold execHubFirmwareSubmission
  repeat' first
      | with_reducible assumption | with_reducible apply nextKeeps_next | with_reducible apply submit_keeps
      | with_reducible exact hP _ (by decide) | with_reducible exact parts_in hP | with_reducible intro _ | dsimp +zetaDelta only

theorem refuseTimetable_keeps {P : List Part} {s : State} {a1 : State} (a2) (a3) (a4) (a5) (hP : ∀ q ∈ ([.page .cl] : List Part), q ∈ P) (h : Keeps P s a1) :
    Keeps P s (refuseTimetable a1 a2 a3 a4 a5) := by
  unfold refuseTimetable
  repeat' first
      | with_reducible assumption | with_reducible apply raiseErr_keeps | with_reducible apply cntPreg_keeps
      | with_reducible exact hP _ (by decide) | with_reducible exact parts_in hP
      | ((with_reducible refine page_in (c := .cl) (hP _ (by decide)) ?_) <;> exact rfl) | with_reducible exact le_side (by omega)
      | with_reducible exact lt_side (by omega) | with_reducible exact off_small _ _ _ | with_reducible intro _

theorem submitTimetable_keeps {P : List Part} {s : State} {a1 : State} (a2) (a3) (a4) (a5) (hP : ∀ q ∈ ([.page .vt, .page .cl, .page .gc, .clusters] : List Part), q ∈ P) (h : Keeps P s a1) :
    Keeps P s (submitTimetable a1 a2 a3 a4 a5) := by
  unfold submitTimetable
  repeat' first
      | with_reducible assumption | with_reducible apply refuseTimetable_keeps | with_reducible apply submit_keeps
      | with_reducible apply raiseErr_keeps | extract_lets | with_reducible apply keeps_ite | with_reducible exact hP _ (by decide)
      | with_reducible exact parts_in hP | ((with_reducible refine page_in (c := .cl) (hP _ (by decide)) ?_) <;> exact rfl)
      | ((with_reducible refine page_in (c := .gc) (hP _ (by decide)) ?_) <;> exact rfl) | with_reducible exact le_side (by omega)
      | with_reducible exact lt_side (by omega) | with_reducible exact off_small _ _ _ | with_reducible intro _ | split
      | dsimp +zetaDelta only

theorem setQueue_keeps {P : List Part} {s : State} {a1 : State} (a2) (a3) (a4) (hP : ∀ q ∈ ([.clusters] : List Part), q ∈ P) (h : Keeps P s a1) :
    Keeps P s (setQueue a1 a2 a3 a4) := by
  unfold setQueue
  repeat' first
      | with_reducible assumption | with_reducible apply State.setMover_keeps | with_reducible exact hP _ (by decide)
      | with_reducible exact parts_in hP | with_reducible intro _

theorem setManifest_keeps {P : List Part} {s : State} {a1 : State} (a2) (a3) (a4) (a5) (hP : ∀ q ∈ ([.clusters] : List Part), q ∈ P) (h : Keeps P s a1) :
    Keeps P s (setManifest a1 a2 a3 a4 a5) := by
  unfold setManifest
  repeat' first
      | with_reducible assumption | with_reducible apply setQueue_keeps | with_reducible exact hP _ (by decide)
      | with_reducible exact parts_in hP | with_reducible intro _

theorem execManifestStart_keeps {P : List Part} {s : State} (a1) (a2) {a3 : State} (hP : ∀ q ∈ ([.clusters] : List Part), q ∈ P) (h : Keeps P s a3) :
    NextKeeps P s (execManifestStart a1 a2 a3) := by
  unfold execManifestStart
  repeat' first
      | with_reducible assumption | with_reducible apply nextKeeps_next | with_reducible apply setManifest_keeps | extract_lets
      | with_reducible apply keeps_ite | with_reducible exact hP _ (by decide) | with_reducible exact parts_in hP | with_reducible intro _
      | split | dsimp +zetaDelta only

theorem postWrite_keeps {P : List Part} {s : State} {a1 : State} (a2) (a3) (a4) (a5) (a6) (a7) (a8) (hP : ∀ q ∈ ([.page .lw, .page .ep, .page .dc, .page .mc, .clusters, .dm, .slices, .cxl, .frz, .scrubs] : List Part), q ∈ P) (h : Keeps P s a1) :
    Keeps P s (postWrite a1 a2 a3 a4 a5 a6 a7 a8) := by
  unfold postWrite
  repeat' first
      | with_reducible assumption | with_reducible apply clearRetry_keeps | with_reducible apply serveWrpart_keeps
      | with_reducible apply serveWrinv_keeps | with_reducible apply hostWriteLine_keeps | extract_lets | with_reducible apply keeps_ite
      | with_reducible exact hP _ (by decide) | with_reducible exact parts_in hP | with_reducible intro _ | split | dsimp +zetaDelta only

theorem postAsk_keeps {P : List Part} {s : State} {a1 : State} (a2) (a3) (hP : ∀ q ∈ ([.page .lw, .page .dc, .slices] : List Part), q ∈ P) (h : Keeps P s a1) :
    Keeps P s (postAsk a1 a2 a3) := by
  unfold postAsk
  repeat' first
      | with_reducible assumption | with_reducible apply homeAsk_keeps | with_reducible exact hP _ (by decide)
      | with_reducible exact parts_in hP | with_reducible intro _

theorem elemRead_keeps {P : List Part} {s : State} {a1 : State} (a2) (a3) (a4) (hP : ∀ q ∈ ([.page .lw, .page .ep, .page .dc, .page .mc, .clusters, .dm, .slices, .cxl, .frz, .scrubs] : List Part), q ∈ P) (h : Keeps P s a1) :
    Keeps P s (elemRead a1 a2 a3 a4).1 := by
  unfold elemRead
  repeat' first
      | with_reducible assumption | with_reducible apply clearRetry_keeps | with_reducible apply askHost_keeps
      | with_reducible apply serveRdcur_keeps | extract_lets | with_reducible apply keeps_ite | with_reducible exact hP _ (by decide)
      | with_reducible exact parts_in hP | with_reducible intro _ | split | dsimp +zetaDelta only

theorem imemWrite_keeps {P : List Part} {s : State} {a1 : State} (a2) (a3) (a4) (a5) (hP : ∀ q ∈ ([.cores] : List Part), q ∈ P) (h : Keeps P s a1) :
    Keeps P s (imemWrite a1 a2 a3 a4 a5) := by
  unfold imemWrite
  repeat' first
      | with_reducible assumption | with_reducible apply State.setCoreRaw_keeps | with_reducible exact hP _ (by decide)
      | with_reducible exact parts_in hP | with_reducible intro _

theorem elemWrite_keeps {P : List Part} {s : State} {a1 : State} (a2) (a3) (a4) (a5) (a6) (a7) (hP : ∀ q ∈ ([.page .lw, .page .ep, .page .dc, .page .mc, .cores, .clusters, .dm, .slices, .cxl, .frz, .scrubs] : List Part), q ∈ P) (h : Keeps P s a1) :
    Keeps P s (elemWrite a1 a2 a3 a4 a5 a6 a7) := by
  unfold elemWrite
  repeat' first
      | with_reducible assumption | with_reducible apply imemWrite_keeps | with_reducible apply postWrite_keeps
      | with_reducible apply sendWrite_keeps | extract_lets | with_reducible apply keeps_ite | with_reducible exact hP _ (by decide)
      | with_reducible exact parts_in hP | with_reducible intro _ | split | dsimp +zetaDelta only

theorem elemAsk_keeps {P : List Part} {s : State} {a1 : State} (a2) (a3) (hP : ∀ q ∈ ([.page .lw, .page .dc, .slices] : List Part), q ∈ P) (h : Keeps P s a1) :
    Keeps P s (elemAsk a1 a2 a3) := by
  unfold elemAsk
  repeat' first
      | with_reducible assumption | with_reducible apply postAsk_keeps | with_reducible apply homeAsk_keeps | extract_lets
      | with_reducible apply keeps_ite | with_reducible exact hP _ (by decide) | with_reducible exact parts_in hP | with_reducible intro _
      | split | dsimp +zetaDelta only

theorem elemDeliver_keeps {P : List Part} {s : State} {a1 : State} (a2) (a3) (a4) (a5) (a6) (hP : ∀ q ∈ ([.page .lw, .page .ep, .page .dc, .page .cl, .page .mc, .cores, .clusters, .dm, .slices, .cxl, .frz, .scrubs] : List Part), q ∈ P) (h : Keeps P s a1) :
    Keeps P s (elemDeliver a1 a2 a3 a4 a5 a6) := by
  unfold elemDeliver
  repeat' first
      | with_reducible assumption | with_reducible apply elemWrite_keeps | with_reducible apply elemRead_keeps
      | with_reducible apply setManifest_keeps | with_reducible apply State.setMover_keeps | with_reducible apply when_keeps
      | with_reducible apply cntPreg64_keeps | with_reducible apply cntPreg_keeps | extract_lets | with_reducible apply keeps_ite
      | with_reducible exact hP _ (by decide) | with_reducible exact parts_in hP
      | ((with_reducible refine page_in (c := .cl) (hP _ (by decide)) ?_) <;> exact rfl) | with_reducible exact le_side (by omega)
      | with_reducible exact lt_side (by omega) | with_reducible exact off_small _ _ _ | with_reducible intro _ | split
      | dsimp +zetaDelta only

theorem deliverElement_keeps {P : List Part} {s : State} {a1 : State} (a2) (a3) (a4) (a5) (hP : ∀ q ∈ ([.page .lw, .page .ep, .page .dc, .page .cl, .page .mc, .cores, .clusters, .dm, .slices, .cxl, .frz, .scrubs] : List Part), q ∈ P) (h : Keeps P s a1) :
    Keeps P s (deliverElement a1 a2 a3 a4 a5) := by
  unfold deliverElement
  repeat' first
      | with_reducible assumption | with_reducible apply elemDeliver_keeps | with_reducible apply elemAsk_keeps
      | with_reducible apply keeps_ite | with_reducible exact hP _ (by decide) | with_reducible exact parts_in hP | with_reducible intro _
      | split

theorem execManifestElement_keeps {P : List Part} {s : State} (a1) (a2) (a3) (a4) {a5 : State} (hP : ∀ q ∈ ([.page .lw, .page .ep, .page .dc, .page .cl, .page .mc, .cores, .clusters, .dm, .slices, .cxl, .frz, .scrubs] : List Part), q ∈ P) (h : Keeps P s a5) :
    NextKeeps P s (execManifestElement a1 a2 a3 a4 a5) := by
  unfold execManifestElement
  repeat' first
      | with_reducible assumption | with_reducible apply nextKeeps_next | with_reducible apply deliverElement_keeps
      | with_reducible apply keeps_ite | with_reducible exact hP _ (by decide) | with_reducible exact parts_in hP | with_reducible intro _
      | split

theorem execSegmentTranslation_keeps {P : List Part} {s : State} (a1) (a2) {a3 : State} (hP : ∀ q ∈ ([.clusters] : List Part), q ∈ P) (h : Keeps P s a3) :
    NextKeeps P s (execSegmentTranslation a1 a2 a3) := by
  unfold execSegmentTranslation
  repeat' first
      | with_reducible assumption | with_reducible apply nextKeeps_next | with_reducible apply setManifest_keeps
      | with_reducible apply keeps_ite | with_reducible exact hP _ (by decide) | with_reducible exact parts_in hP | with_reducible intro _
      | split

theorem segDone_keeps {P : List Part} {s : State} {a1 : State} (a2) (a3) (a4) (hP : ∀ q ∈ ([.page .vt, .clusters] : List Part), q ∈ P) (h : Keeps P s a1) :
    Keeps P s (segDone a1 a2 a3 a4) := by
  unfold segDone
  repeat' first
      | with_reducible assumption | with_reducible apply setManifest_keeps | with_reducible apply cutFrom_keeps | extract_lets
      | with_reducible apply keeps_ite | with_reducible exact hP _ (by decide) | with_reducible exact parts_in hP | with_reducible intro _
      | split | dsimp +zetaDelta only

theorem execSegmentTranslationDone_keeps {P : List Part} {s : State} (a1) (a2) (a3) {a4 : State} (hP : ∀ q ∈ ([.page .vt, .clusters] : List Part), q ∈ P) (h : Keeps P s a4) :
    NextKeeps P s (execSegmentTranslationDone a1 a2 a3 a4) := by
  unfold execSegmentTranslationDone
  repeat' first
      | with_reducible assumption | with_reducible apply nextKeeps_next | with_reducible apply segDone_keeps
      | with_reducible apply keeps_ite | with_reducible exact hP _ (by decide) | with_reducible exact parts_in hP | with_reducible intro _
      | split

theorem writeRecord_keeps {P : List Part} {s : State} {a1 : State} (a2) (a3) (a4) (a5) (a6) (hP : ∀ q ∈ ([.page .lw, .page .ep, .page .dc, .page .cl, .page .mc, .clusters, .dm, .slices, .cxl, .frz, .scrubs] : List Part), q ∈ P) (h : Keeps P s a1) :
    Keeps P s (writeRecord a1 a2 a3 a4 a5 a6) := by
  unfold writeRecord
  repeat' first
      | with_reducible assumption | with_reducible apply postWrite_keeps | with_reducible apply cntPreg_keeps
      | with_reducible exact hP _ (by decide) | with_reducible exact parts_in hP
      | ((with_reducible refine page_in (c := .cl) (hP _ (by decide)) ?_) <;> exact rfl) | with_reducible exact le_side (by omega)
      | with_reducible exact lt_side (by omega) | with_reducible exact off_small _ _ _ | with_reducible intro _

theorem writeFlag_keeps {P : List Part} {s : State} {a1 : State} (a2) (a3) (a4) (hP : ∀ q ∈ ([.page .lw, .page .ep, .page .dc, .page .mc, .clusters, .dm, .slices, .cxl, .frz, .scrubs] : List Part), q ∈ P) (h : Keeps P s a1) :
    Keeps P s (writeFlag a1 a2 a3 a4) := by
  unfold writeFlag
  repeat' first
      | with_reducible assumption | with_reducible apply postWrite_keeps | with_reducible exact hP _ (by decide)
      | with_reducible exact parts_in hP | with_reducible intro _ | split

theorem manifestEvent_keeps {P : List Part} {s : State} {a1 : State} (a2) (hP : ∀ q ∈ ([.page .sd, .cores, .sd] : List Part), q ∈ P) (h : Keeps P s a1) :
    Keeps P s (manifestEvent a1 a2) := by
  unfold manifestEvent
  repeat' first
      | with_reducible assumption | with_reducible apply setEvent_keeps | extract_lets | with_reducible apply keeps_ite
      | with_reducible exact hP _ (by decide) | with_reducible exact parts_in hP | with_reducible intro _ | split | dsimp +zetaDelta only

theorem endSeen_keeps {P : List Part} {s : State} {a1 : State} (a2) (a3) (a4) (a5) (a6) (hP : ∀ q ∈ ([.page .sd, .cores, .sd, .clusters] : List Part), q ∈ P) (h : Keeps P s a1) :
    Keeps P s (endSeen a1 a2 a3 a4 a5 a6) := by
  unfold endSeen
  repeat' first
      | with_reducible assumption | with_reducible apply manifestEvent_keeps | with_reducible apply setManifest_keeps
      | with_reducible apply setQueue_keeps | extract_lets | with_reducible apply keeps_ite | with_reducible exact hP _ (by decide)
      | with_reducible exact parts_in hP | with_reducible intro _ | split | dsimp +zetaDelta only

theorem advance_keeps {P : List Part} {s : State} (a1) (a2) (a3) {a4 : State} (hP : ∀ q ∈ ([.page .lw, .page .ep, .page .sd, .page .dc, .page .cl, .page .mc, .cores, .sd, .clusters, .dm, .slices, .cxl, .frz, .scrubs] : List Part), q ∈ P) (h : Keeps P s a4) :
    Keeps P s (advance a1 a2 a3 a4) := by
  induction a3 generalizing a4 with
  | zero => exact h
  | succ fuel ih =>
    unfold advance
    repeat' first
        | with_reducible assumption | with_reducible apply ih | with_reducible apply endSeen_keeps | with_reducible apply writeFlag_keeps
        | with_reducible apply writeRecord_keeps | with_reducible apply postAsk_keeps | with_reducible apply setManifest_keeps
        | extract_lets | with_reducible apply keeps_ite | with_reducible exact hP _ (by decide) | with_reducible exact parts_in hP
        | with_reducible intro _ | split | dsimp +zetaDelta only

theorem beginEnd_keeps {P : List Part} {s : State} {a1 : State} (a2) (a3) (a4) (a5) (a6) (hP : ∀ q ∈ ([.page .lw, .page .ep, .page .sd, .page .dc, .page .cl, .page .mc, .cores, .sd, .clusters, .dm, .slices, .cxl, .frz, .scrubs] : List Part), q ∈ P) (h : Keeps P s a1) :
    Keeps P s (beginEnd a1 a2 a3 a4 a5 a6) := by
  unfold beginEnd
  repeat' first
      | with_reducible assumption | with_reducible apply advance_keeps | with_reducible apply setManifest_keeps
      | with_reducible exact hP _ (by decide) | with_reducible exact parts_in hP | with_reducible intro _

theorem manifestEnd_keeps {P : List Part} {s : State} {a1 : State} (a2) (a3) (hP : ∀ q ∈ ([.page .lw, .page .ep, .page .sd, .page .dc, .page .cl, .page .mc, .cores, .sd, .clusters, .dm, .slices, .cxl, .frz, .scrubs] : List Part), q ∈ P) (h : Keeps P s a1) :
    Keeps P s (manifestEnd a1 a2 a3) := by
  unfold manifestEnd
  repeat' first
      | with_reducible assumption | with_reducible apply beginEnd_keeps | with_reducible apply advance_keeps
      | with_reducible apply raiseErr_keeps | extract_lets | with_reducible apply keeps_ite | with_reducible exact hP _ (by decide)
      | with_reducible exact parts_in hP | ((with_reducible refine page_in (c := .cl) (hP _ (by decide)) ?_) <;> exact rfl)
      | with_reducible exact le_side (by omega) | with_reducible exact lt_side (by omega) | with_reducible exact off_small _ _ _
      | with_reducible intro _ | split | dsimp +zetaDelta only

theorem execManifestComplete_keeps {P : List Part} {s : State} (a1) (a2) {a3 : State} (hP : ∀ q ∈ ([.page .lw, .page .ep, .page .sd, .page .dc, .page .cl, .page .mc, .cores, .sd, .clusters, .dm, .slices, .cxl, .frz, .scrubs] : List Part), q ∈ P) (h : Keeps P s a3) :
    NextKeeps P s (execManifestComplete a1 a2 a3) := by
  unfold execManifestComplete
  repeat' first
      | with_reducible assumption | with_reducible apply nextKeeps_next | with_reducible apply manifestEnd_keeps
      | with_reducible apply keeps_ite | with_reducible exact hP _ (by decide) | with_reducible exact parts_in hP | with_reducible intro _
      | split

theorem manifestPartial_keeps {P : List Part} {s : State} {a1 : State} (a2) (a3) (hP : ∀ q ∈ ([.page .lw, .page .ep, .page .sd, .page .dc, .page .cl, .page .mc, .cores, .sd, .clusters, .dm, .slices, .cxl, .frz, .scrubs] : List Part), q ∈ P) (h : Keeps P s a1) :
    Keeps P s (manifestPartial a1 a2 a3) := by
  unfold manifestPartial
  repeat' first
      | with_reducible assumption | with_reducible apply beginEnd_keeps | with_reducible apply raiseErr_keeps
      | with_reducible apply keeps_ite | with_reducible exact hP _ (by decide) | with_reducible exact parts_in hP
      | ((with_reducible refine page_in (c := .cl) (hP _ (by decide)) ?_) <;> exact rfl) | with_reducible exact le_side (by omega)
      | with_reducible exact lt_side (by omega) | with_reducible exact off_small _ _ _ | with_reducible intro _ | split

theorem execManifestPartial_keeps {P : List Part} {s : State} (a1) (a2) {a3 : State} (hP : ∀ q ∈ ([.page .lw, .page .ep, .page .sd, .page .dc, .page .cl, .page .mc, .cores, .sd, .clusters, .dm, .slices, .cxl, .frz, .scrubs] : List Part), q ∈ P) (h : Keeps P s a3) :
    NextKeeps P s (execManifestPartial a1 a2 a3) := by
  unfold execManifestPartial
  repeat' first
      | with_reducible assumption | with_reducible apply nextKeeps_next | with_reducible apply manifestPartial_keeps
      | with_reducible apply keeps_ite | with_reducible exact hP _ (by decide) | with_reducible exact parts_in hP | with_reducible intro _
      | split

theorem resetMover_keeps {P : List Part} {s : State} {a1 : State} (a2) (hP : ∀ q ∈ ([.page .lw, .page .ep, .page .sd, .page .dc, .page .cl, .page .mc, .cores, .sd, .clusters, .dm, .slices, .cxl, .frz, .scrubs] : List Part), q ∈ P) (h : Keeps P s a1) :
    Keeps P s (resetMover a1 a2) := by
  unfold resetMover
  repeat' first
      | with_reducible assumption | with_reducible apply advance_keeps | with_reducible apply setQueue_keeps | extract_lets
      | with_reducible apply keeps_foldl | with_reducible apply keeps_foldl1 | with_reducible exact hP _ (by decide)
      | with_reducible exact parts_in hP | with_reducible intro _
      | fail_if_no_progress with_reducible refine put_frz_keeps _ (hP _ (by decide)) ?_ | dsimp +zetaDelta only

theorem abortAllEnd_keeps {P : List Part} {s : State} {a1 : State} (a2) (hP : ∀ q ∈ ([.page .cl] : List Part), q ∈ P) (h : Keeps P s a1) :
    Keeps P s (abortAllEnd a1 a2) := by
  unfold abortAllEnd
  repeat' first
      | with_reducible assumption | with_reducible apply goDone_keeps | with_reducible apply keeps_ite
      | with_reducible exact hP _ (by decide) | with_reducible exact parts_in hP
      | ((with_reducible refine page_in (c := .cl) (hP _ (by decide)) ?_) <;> exact rfl) | with_reducible exact le_side (by omega)
      | with_reducible exact lt_side (by omega) | with_reducible exact off_small _ _ _ | with_reducible intro _ | split

theorem mvCtrlWrite_keeps {P : List Part} {s : State} {a1 : State} (a2) (a3) (hP : ∀ q ∈ ([.page .lw, .page .ep, .page .sd, .page .dc, .page .cl, .page .mc, .staged, .cores, .sd, .clusters, .dm, .slices, .cxl, .frz, .scrubs] : List Part), q ∈ P) (h : Keeps P s a1) :
    Keeps P s (mvCtrlWrite a1 a2 a3) := by
  unfold mvCtrlWrite
  repeat' first
      | with_reducible assumption | with_reducible apply abortAllEnd_keeps | with_reducible apply resetMover_keeps
      | with_reducible apply State.setMover_keeps | with_reducible apply pageWrite_keeps | extract_lets | with_reducible apply keeps_ite
      | with_reducible exact hP _ (by decide) | with_reducible exact parts_in hP
      | ((with_reducible refine page_in (c := .cl) (hP _ (by decide)) ?_) <;> exact rfl) | with_reducible exact le_side (by omega)
      | with_reducible exact lt_side (by omega) | with_reducible exact off_small _ _ _ | with_reducible intro _ | split
      | dsimp +zetaDelta only

theorem execAbortAll_keeps {P : List Part} {s : State} (a1) (a2) {a3 : State} (hP : ∀ q ∈ ([.page .lw, .page .ep, .page .sd, .page .dc, .page .cl, .page .mc, .staged, .cores, .sd, .clusters, .dm, .slices, .cxl, .frz, .scrubs] : List Part), q ∈ P) (h : Keeps P s a3) :
    NextKeeps P s (execAbortAll a1 a2 a3) := by
  unfold execAbortAll
  repeat' first
      | with_reducible assumption | with_reducible apply nextKeeps_next | with_reducible apply mvCtrlWrite_keeps
      | with_reducible exact hP _ (by decide) | with_reducible exact parts_in hP | with_reducible intro _

theorem execMvEn_keeps {P : List Part} {s : State} (a1) (a2) {a3 : State} (hP : ∀ q ∈ ([.page .lw, .page .ep, .page .sd, .page .dc, .page .cl, .page .mc, .staged, .cores, .sd, .clusters, .dm, .slices, .cxl, .frz, .scrubs] : List Part), q ∈ P) (h : Keeps P s a3) :
    NextKeeps P s (execMvEn a1 a2 a3) := by
  unfold execMvEn
  repeat' first
      | with_reducible assumption | with_reducible apply nextKeeps_next | with_reducible apply mvCtrlWrite_keeps
      | with_reducible exact hP _ (by decide) | with_reducible exact parts_in hP | with_reducible intro _

theorem resumeManifest_keeps {P : List Part} {s : State} {a1 : State} (a2) (a3) (a4) (hP : ∀ q ∈ ([.page .vt, .clusters] : List Part), q ∈ P) (h : Keeps P s a1) :
    Keeps P s (resumeManifest a1 a2 a3 a4).1 := by
  unfold resumeManifest
  repeat' first
      | with_reducible assumption | with_reducible apply setManifest_keeps | with_reducible apply cutFrom_keeps | extract_lets
      | with_reducible apply keeps_ite | with_reducible exact hP _ (by decide) | with_reducible exact parts_in hP | with_reducible intro _
      | split | dsimp +zetaDelta only

theorem abortManifest_keeps {P : List Part} {s : State} {a1 : State} (a2) (a3) (hP : ∀ q ∈ ([.page .lw, .page .ep, .page .sd, .page .dc, .page .cl, .page .mc, .cores, .sd, .clusters, .dm, .slices, .cxl, .frz, .scrubs] : List Part), q ∈ P) (h : Keeps P s a1) :
    Keeps P s (abortManifest a1 a2 a3).1 := by
  unfold abortManifest
  repeat' first
      | with_reducible assumption | with_reducible apply beginEnd_keeps | with_reducible exact hP _ (by decide)
      | with_reducible exact parts_in hP | with_reducible intro _ | split

end Sys2Proof.Machine
end

