-- ==== Sys2Proof/Laws/KeepPlacement.lean ====
section
/-! SUPPORT. What the operations of Machine/Placement.lean leave alone. -/

set_option Elab.async false

namespace Sys2Proof.Machine

open Sys2Proof

theorem logPlace_keeps {P : List Part} {s : State} {a1 : State} (a2) (a3) (a4) (h : Keeps P s a1) :
    Keeps P s (logPlace a1 a2 a3 a4) := by
  unfold logPlace
  repeat' first
      | with_reducible assumption | with_reducible apply offer_keeps | with_reducible intro _

theorem windowEnd_keeps {P : List Part} {s : State} {a1 : State} (a2) (a3) (hP : ∀ q ∈ ([.page .pl, .pl] : List Part), q ∈ P) (h : Keeps P s a1) :
    Keeps P s (windowEnd a1 a2 a3) := by
  unfold windowEnd
  repeat' first
      | with_reducible assumption | with_reducible apply setPreg_keeps | extract_lets | with_reducible apply keeps_range
      | with_reducible apply keeps_foldl | with_reducible apply keeps_foldl1 | with_reducible apply keeps_ite
      | with_reducible exact hP _ (by decide) | with_reducible exact parts_in hP | with_reducible exact le_side (by omega)
      | with_reducible exact lt_side (by omega) | with_reducible exact off_small _ _ _ | with_reducible intro _ | split
      | fail_if_no_progress with_reducible refine put_pl_keeps _ (hP _ (by decide)) ?_ | dsimp +zetaDelta only

theorem execPlWindowEnd_keeps {P : List Part} {s : State} (a1) (a2) {a3 : State} (hP : ∀ q ∈ ([.page .pl, .pl] : List Part), q ∈ P) (h : Keeps P s a3) :
    NextKeeps P s (execPlWindowEnd a1 a2 a3) := by
  unfold execPlWindowEnd
  repeat' first
      | with_reducible assumption | with_reducible apply nextKeeps_next | with_reducible apply windowEnd_keeps
      | with_reducible exact hP _ (by decide) | with_reducible exact parts_in hP | with_reducible intro _

theorem plFenceCheck_keeps {P : List Part} {s : State} {a1 : State} (hP : ∀ q ∈ ([.page .pl, .pl] : List Part), q ∈ P) (h : Keeps P s a1) :
    Keeps P s (plFenceCheck a1) := by
  unfold plFenceCheck
  repeat' first
      | with_reducible assumption | with_reducible apply logPlace_keeps | with_reducible apply raiseErr_keeps
      | with_reducible apply setPreg_keeps | extract_lets | with_reducible apply keeps_ite | with_reducible exact hP _ (by decide)
      | with_reducible exact parts_in hP | with_reducible exact le_side (by omega) | with_reducible exact lt_side (by omega)
      | with_reducible exact off_small _ _ _ | with_reducible intro _ | split
      | fail_if_no_progress with_reducible refine put_pl_keeps _ (hP _ (by decide)) ?_ | dsimp +zetaDelta only

theorem chunkStart_keeps {P : List Part} {s : State} {a1 : State} (hP : ∀ q ∈ ([.pl] : List Part), q ∈ P) (h : Keeps P s a1) :
    Keeps P s (chunkStart a1) := by
  unfold chunkStart
  repeat' first
      | with_reducible assumption | with_reducible apply logPlace_keeps | with_reducible apply keeps_ite | with_reducible intro _ | split
      | fail_if_no_progress with_reducible refine put_pl_keeps _ (hP _ (by decide)) ?_

theorem execPlChunkStart_keeps {P : List Part} {s : State} {a1 : State} (hP : ∀ q ∈ ([.pl] : List Part), q ∈ P) (h : Keeps P s a1) :
    NextKeeps P s (execPlChunkStart a1) := by
  unfold execPlChunkStart
  repeat' first
      | with_reducible assumption | with_reducible apply nextKeeps_next | with_reducible apply chunkStart_keeps
      | with_reducible exact hP _ (by decide) | with_reducible exact parts_in hP | with_reducible intro _

theorem chunkDone_keeps {P : List Part} {s : State} {a1 : State} (hP : ∀ q ∈ ([.page .pl, .pl] : List Part), q ∈ P) (h : Keeps P s a1) :
    Keeps P s (chunkDone a1) := by
  unfold chunkDone
  repeat' first
      | with_reducible assumption | with_reducible apply plFenceCheck_keeps | with_reducible apply keeps_ite
      | with_reducible exact hP _ (by decide) | with_reducible exact parts_in hP | with_reducible intro _ | split
      | fail_if_no_progress with_reducible refine put_pl_keeps _ (hP _ (by decide)) ?_

theorem plCommit_keeps {P : List Part} {s : State} {a1 : State} (hP : ∀ q ∈ ([.page .pl, .pl] : List Part), q ∈ P) (h : Keeps P s a1) :
    Keeps P s (plCommit a1) := by
  unfold plCommit
  repeat' first
      | with_reducible assumption | with_reducible apply logPlace_keeps | with_reducible apply cntPreg_keeps
      | with_reducible apply setPreg_keeps | extract_lets | with_reducible apply keeps_ite | with_reducible exact hP _ (by decide)
      | with_reducible exact parts_in hP | with_reducible exact le_side (by omega) | with_reducible exact lt_side (by omega)
      | with_reducible exact off_small _ _ _ | with_reducible intro _ | split
      | fail_if_no_progress with_reducible refine put_pl_keeps _ (hP _ (by decide)) ?_ | dsimp +zetaDelta only

theorem moveRequest_keeps {P : List Part} {s : State} {a1 : State} (hP : ∀ q ∈ ([.page .pl, .pl] : List Part), q ∈ P) (h : Keeps P s a1) :
    Keeps P s (moveRequest a1) := by
  unfold moveRequest
  repeat' first
      | with_reducible assumption | with_reducible apply raiseErr_keeps | with_reducible apply setPreg_keeps | extract_lets
      | with_reducible apply keeps_ite | with_reducible exact hP _ (by decide) | with_reducible exact parts_in hP
      | with_reducible exact le_side (by omega) | with_reducible exact lt_side (by omega) | with_reducible exact off_small _ _ _
      | with_reducible intro _ | split | fail_if_no_progress with_reducible refine put_pl_keeps _ (hP _ (by decide)) ?_
      | dsimp +zetaDelta only

theorem plMoveWrite_keeps {P : List Part} {s : State} {a1 : State} (a2) (hP : ∀ q ∈ ([.page .pl, .staged, .pl] : List Part), q ∈ P) (h : Keeps P s a1) :
    Keeps P s (plMoveWrite a1 a2) := by
  unfold plMoveWrite
  repeat' first
      | with_reducible assumption | with_reducible apply moveRequest_keeps | with_reducible apply pageWriteGo_keeps
      | with_reducible exact hP _ (by decide) | with_reducible exact parts_in hP | with_reducible exact le_side (by omega)
      | with_reducible exact lt_side (by omega) | with_reducible exact off_small _ _ _ | with_reducible intro _

theorem execPlMove_keeps {P : List Part} {s : State} (a1) {a2 : State} (hP : ∀ q ∈ ([.page .pl, .staged, .pl] : List Part), q ∈ P) (h : Keeps P s a2) :
    NextKeeps P s (execPlMove a1 a2) := by
  unfold execPlMove
  repeat' first
      | with_reducible assumption | with_reducible apply nextKeeps_next | with_reducible apply plMoveWrite_keeps
      | with_reducible exact hP _ (by decide) | with_reducible exact parts_in hP | with_reducible intro _

theorem plRegionWrite_keeps {P : List Part} {s : State} {a1 : State} (a2) (hP : ∀ q ∈ ([.page .pl, .staged, .pl] : List Part), q ∈ P) (h : Keeps P s a1) :
    Keeps P s (plRegionWrite a1 a2) := by
  unfold plRegionWrite
  repeat' first
      | with_reducible assumption | with_reducible apply pageWrite_keeps | with_reducible apply setPreg_keeps | extract_lets
      | with_reducible apply keeps_ite | with_reducible exact hP _ (by decide) | with_reducible exact parts_in hP
      | with_reducible exact le_side (by omega) | with_reducible exact lt_side (by omega) | with_reducible exact off_small _ _ _
      | with_reducible intro _ | split | fail_if_no_progress with_reducible refine put_pl_keeps _ (hP _ (by decide)) ?_
      | dsimp +zetaDelta only

end Sys2Proof.Machine
end

