-- ==== Sys2Proof/Laws/KeepDrain.lean ====
section
/-! SUPPORT. What the operations of Machine/Drain.lean leave alone. -/

set_option Elab.async false

namespace Sys2Proof.Machine

open Sys2Proof

theorem retranslate_keeps {P : List Part} {s : State} {a1 : State} (a2) (a3) (a4) (a5) (hP : ∀ q ∈ ([.page .vt] : List Part), q ∈ P) (h : Keeps P s a1) :
    Keeps P s (retranslate a1 a2 a3 a4 a5).1 := by
  unfold retranslate
  repeat' first
      | with_reducible assumption | with_reducible apply cutFrom_keeps | extract_lets | with_reducible apply keeps_ite
      | with_reducible exact hP _ (by decide) | with_reducible exact parts_in hP | with_reducible intro _ | split | dsimp +zetaDelta only

theorem startDrain_keeps {P : List Part} {s : State} {a1 : State} (a2) (a3) (a4) (a5) (a6) (hP : ∀ q ∈ ([.drains] : List Part), q ∈ P) (h : Keeps P s a1) :
    Keeps P s (startDrain a1 a2 a3 a4 a5 a6) := by
  unfold startDrain
  repeat' first
      | with_reducible assumption | with_reducible apply keeps_ite | with_reducible intro _ | split
      | fail_if_no_progress with_reducible refine put_drains_keeps _ (hP _ (by decide)) ?_

theorem beginDrains_keeps {P : List Part} {s : State} {a1 : State} (hP : ∀ q ∈ ([.drains] : List Part), q ∈ P) (h : Keeps P s a1) :
    Keeps P s (beginDrains a1) := by
  unfold beginDrains
  repeat' first
      | with_reducible assumption | with_reducible apply keeps_ite | with_reducible intro _ | split
      | fail_if_no_progress with_reducible refine put_drains_keeps _ (hP _ (by decide)) ?_ | dsimp +zetaDelta only

theorem drainQueue_keeps {P : List Part} {s : State} {a1 : State} (a2) (a3) (a4) (a5) (hP : ∀ q ∈ ([.page .vt, .page .sd, .cores, .sd, .clusters] : List Part), q ∈ P) (h : Keeps P s a1) :
    Keeps P s (drainQueue a1 a2 a3 a4 a5).1 := by
  unfold drainQueue
  repeat' first
      | with_reducible assumption | with_reducible apply retranslate_keeps | with_reducible apply manifestEvent_keeps
      | with_reducible apply setQueue_keeps | with_reducible apply raiseErr_keeps | extract_lets | with_reducible apply keeps_foldl
      | with_reducible apply keeps_foldl1 | with_reducible apply keeps_ite | with_reducible exact hP _ (by decide)
      | with_reducible exact parts_in hP | with_reducible exact le_side (by omega) | with_reducible exact lt_side (by omega)
      | with_reducible exact off_small _ _ _ | with_reducible intro _ | split | dsimp +zetaDelta only

theorem drainMovers_keeps {P : List Part} {s : State} {a1 : State} (a2) (a3) (hP : ∀ q ∈ ([.page .vt, .page .sd, .cores, .sd, .clusters] : List Part), q ∈ P) (h : Keeps P s a1) :
    Keeps P s (drainMovers a1 a2 a3).1 := by
  unfold drainMovers
  repeat' first
      | with_reducible assumption | with_reducible apply drainQueue_keeps | extract_lets | with_reducible apply keeps_foldl
      | with_reducible apply keeps_foldl1 | with_reducible apply keeps_ite | with_reducible exact hP _ (by decide)
      | with_reducible exact parts_in hP | with_reducible intro _ | split | dsimp +zetaDelta only

theorem dropSlots_keeps {P : List Part} {s : State} {a1 : State} (a2) (hP : ∀ q ∈ ([.page .sd, .cores, .sd] : List Part), q ∈ P) (h : Keeps P s a1) :
    Keeps P s (dropSlots a1 a2).1 := by
  unfold dropSlots
  repeat' first
      | with_reducible assumption | with_reducible apply wakeCore_keeps | with_reducible apply State.setCore_keeps | extract_lets
      | with_reducible apply keeps_foldl | with_reducible apply keeps_foldl1 | with_reducible apply keeps_ite
      | with_reducible exact hP _ (by decide) | with_reducible exact parts_in hP | with_reducible intro _ | split | dsimp +zetaDelta only

theorem noteDrain_keeps {P : List Part} {s : State} {a1 : State} (hP : ∀ q ∈ ([.page .vt] : List Part), q ∈ P) (h : Keeps P s a1) :
    Keeps P s (noteDrain a1) := by
  unfold noteDrain
  repeat' first
      | with_reducible assumption | with_reducible apply takeFresh_keeps | with_reducible apply setPreg_keeps | extract_lets
      | with_reducible apply keeps_ite | with_reducible exact hP _ (by decide) | with_reducible exact parts_in hP
      | with_reducible exact le_side (by omega) | with_reducible exact lt_side (by omega) | with_reducible exact off_small _ _ _
      | with_reducible intro _ | split | dsimp +zetaDelta only

theorem vtClearWrite_keeps {P : List Part} {s : State} {a1 : State} (a2) (hP : ∀ q ∈ ([.page .vt, .staged, .drains] : List Part), q ∈ P) (h : Keeps P s a1) :
    Keeps P s (vtClearWrite a1 a2) := by
  unfold vtClearWrite
  repeat' first
      | with_reducible assumption | with_reducible apply startDrain_keeps | with_reducible apply pageWrite_keeps | extract_lets
      | with_reducible apply keeps_ite | with_reducible exact hP _ (by decide) | with_reducible exact parts_in hP
      | with_reducible exact le_side (by omega) | with_reducible exact lt_side (by omega) | with_reducible exact off_small _ _ _
      | with_reducible intro _ | split | dsimp +zetaDelta only

theorem execVtClear_keeps {P : List Part} {s : State} (a1) {a2 : State} (hP : ∀ q ∈ ([.page .vt, .staged, .drains] : List Part), q ∈ P) (h : Keeps P s a2) :
    NextKeeps P s (execVtClear a1 a2) := by
  unfold execVtClear
  repeat' first
      | with_reducible assumption | with_reducible apply nextKeeps_next | with_reducible apply vtClearWrite_keeps
      | with_reducible exact hP _ (by decide) | with_reducible exact parts_in hP | with_reducible intro _

theorem vtCtxEnWrite_keeps {P : List Part} {s : State} {a1 : State} (a2) (hP : ∀ q ∈ ([.page .vt, .staged, .drains] : List Part), q ∈ P) (h : Keeps P s a1) :
    Keeps P s (vtCtxEnWrite a1 a2) := by
  unfold vtCtxEnWrite
  repeat' first
      | with_reducible assumption | with_reducible apply startDrain_keeps | with_reducible apply pageWrite_keeps
      | with_reducible apply orPreg_keeps | extract_lets | with_reducible apply keeps_foldl | with_reducible apply keeps_foldl1
      | with_reducible exact hP _ (by decide) | with_reducible exact parts_in hP | with_reducible exact le_side (by omega)
      | with_reducible exact lt_side (by omega) | with_reducible exact off_small _ _ _ | with_reducible intro _ | dsimp +zetaDelta only

theorem execVtCtxEnWrite_keeps {P : List Part} {s : State} (a1) {a2 : State} (hP : ∀ q ∈ ([.page .vt, .staged, .drains] : List Part), q ∈ P) (h : Keeps P s a2) :
    NextKeeps P s (execVtCtxEnWrite a1 a2) := by
  unfold execVtCtxEnWrite
  repeat' first
      | with_reducible assumption | with_reducible apply nextKeeps_next | with_reducible apply vtCtxEnWrite_keeps
      | with_reducible exact hP _ (by decide) | with_reducible exact parts_in hP | with_reducible intro _

end Sys2Proof.Machine
end

