-- ==== Sys2Proof/Laws/KeepMailbox.lean ====
section
/-! SUPPORT. What the operations of Machine/Mailbox.lean leave alone. -/

set_option Elab.async false

namespace Sys2Proof.Machine

open Sys2Proof

theorem mbOff_small (mb : Fin 16) {k : Nat} (h : k < 0xD00 := by decide) : mbOff mb + k < 0x1000 := by unfold mbOff; omega

theorem mbOff_lt (mb : Fin 16) : mbOff mb < 0x1000 := by unfold mbOff; omega

theorem ran_ite_keeps {P : List Part} {s : State} {c : Prop} [Decidable c] {a b : Ran} (ha : Keeps P s a.st) (hb : Keeps P s b.st) :
    Keeps P s (if c then a else b).st := by
  split
  · exact ha
  · exact hb

theorem State.setMailbox_keeps {P : List Part} {s : State} {a1 : State} (a2) (a3) (hP : ∀ q ∈ ([.mailboxes] : List Part), q ∈ P) (h : Keeps P s a1) :
    Keeps P s (State.setMailbox a1 a2 a3) := by
  unfold State.setMailbox
  repeat' first
      | with_reducible assumption | with_reducible intro _
      | fail_if_no_progress with_reducible refine put_mailboxes_keeps _ (hP _ (by decide)) ?_

theorem respond_keeps {P : List Part} {s : State} {a1 : State} (a2) (a3) (a4) (a5) (a6) (a7) (a8) (hP : ∀ q ∈ ([.page .ep, .clusters, .slices, .cxl, .frz] : List Part), q ∈ P) (h : Keeps P s a1) :
    Keeps P s (respond a1 a2 a3 a4 a5 a6 a7 a8) := by
  unfold respond
  repeat' first
      | with_reducible assumption | with_reducible apply cancelMiss_keeps | with_reducible apply dropCopies_keeps
      | with_reducible apply setSl_keeps | with_reducible apply sendWrite_keeps | extract_lets | with_reducible apply keeps_ite
      | with_reducible exact hP _ (by decide) | with_reducible exact parts_in hP | with_reducible intro _ | split | dsimp +zetaDelta only

theorem answer_keeps {P : List Part} {s : State} {a1 : State} (a2) (a3) (a4) (a5) (a6) (a7) (a8) (a9) (hP : ∀ q ∈ ([.page .ep, .clusters, .mailboxes, .slices, .cxl, .frz] : List Part), q ∈ P) (h : Keeps P s a1) :
    Keeps P s (answer a1 a2 a3 a4 a5 a6 a7 a8 a9) := by
  unfold answer
  repeat' first
      | with_reducible assumption | with_reducible apply respond_keeps | with_reducible apply State.setMailbox_keeps | extract_lets
      | with_reducible apply keeps_foldl | with_reducible apply keeps_foldl1 | with_reducible apply keeps_ite
      | with_reducible exact hP _ (by decide) | with_reducible exact parts_in hP | with_reducible intro _ | split | dsimp +zetaDelta only

theorem inlineRun_keeps {P : List Part} {s : State} (a1) (a2) {a3 : State} (hP : ∀ q ∈ ([.page .lw, .page .ep, .page .dc, .page .mc, .clusters, .dm, .slices, .cxl, .frz, .scrubs] : List Part), q ∈ P) (h : Keeps P s a3) :
    Keeps P s (inlineRun a1 a2 a3).1 := by
  induction a2 generalizing a3 with
  | nil => exact h
  | cons p l ih =>
    unfold inlineRun
    repeat' first
        | with_reducible assumption | with_reducible apply ih | with_reducible apply postAsk_keeps | with_reducible apply postWrite_keeps
        | with_reducible apply keeps_ite | with_reducible exact hP _ (by decide) | with_reducible exact parts_in hP | with_reducible intro _
        | split | dsimp +zetaDelta only

theorem takenStep_keeps {P : List Part} {s : State} (a1) (a2) (a3) (hP : ∀ q ∈ ([.page .lw, .page .ep, .page .dc, .page .mc, .clusters, .mailboxes, .dm, .slices, .cxl, .frz, .scrubs] : List Part), q ∈ P) (h : Keeps P s a2.1) :
    Keeps P s (takenStep a1 a2 a3).1 := by
  unfold takenStep
  repeat' first
      | with_reducible assumption | with_reducible apply inlineRun_keeps | with_reducible apply answer_keeps | extract_lets
      | with_reducible apply keeps_ite | with_reducible exact hP _ (by decide) | with_reducible exact parts_in hP | with_reducible intro _
      | split | dsimp +zetaDelta only

theorem mbPump_keeps {P : List Part} {s : State} {a1 : State} (a2) (hP : ∀ q ∈ ([.page .lw, .page .ep, .page .dc, .page .mc, .clusters, .mailboxes, .dm, .slices, .cxl, .frz, .scrubs] : List Part), q ∈ P) (h : Keeps P s a1) :
    Keeps P s (mbPump a1 a2) := by
  unfold mbPump
  repeat' first
      | with_reducible assumption | with_reducible apply takenStep_keeps | with_reducible apply State.setMailbox_keeps | extract_lets
      | with_reducible apply keeps_foldl | with_reducible apply keeps_foldl1 | with_reducible apply keeps_ite
      | with_reducible exact hP _ (by decide) | with_reducible exact parts_in hP | with_reducible intro _ | split | dsimp +zetaDelta only

theorem addTaken_keeps {P : List Part} {s : State} {a1 : State} (a2) (a3) (hP : ∀ q ∈ ([.mailboxes] : List Part), q ∈ P) (h : Keeps P s a1) :
    Keeps P s (addTaken a1 a2 a3) := by
  unfold addTaken
  repeat' first
      | with_reducible assumption | with_reducible apply State.setMailbox_keeps | with_reducible exact hP _ (by decide)
      | with_reducible exact parts_in hP | with_reducible intro _

theorem runNop_keeps {P : List Part} {s : State} {a1 : State} (h : Keeps P s a1) :
    Keeps P s (runNop a1).st := by
  unfold runNop
  repeat' first
      | with_reducible assumption | with_reducible intro _

theorem fetchDesc_keeps {P : List Part} {s : State} {a1 : State} (a2) (a3) (a4) (hP : ∀ q ∈ ([.page .lw, .page .ep, .page .dc, .page .mc, .clusters, .dm, .slices, .cxl, .frz, .scrubs] : List Part), q ∈ P) (h : Keeps P s a1) :
    Keeps P s (fetchDesc a1 a2 a3 a4).1 := by
  unfold fetchDesc
  repeat' first
      | with_reducible assumption | with_reducible apply askHost_keeps | with_reducible apply serveRdcur_keeps | extract_lets
      | with_reducible exact hP _ (by decide) | with_reducible exact parts_in hP | with_reducible intro _ | dsimp +zetaDelta only

theorem runSubmit_keeps {P : List Part} {s : State} {a1 : State} (a2) (a3) (a4) (a5) (hP : ∀ q ∈ ([.page .vt, .page .lw, .page .ep, .page .dc, .page .cl, .page .mc, .clusters, .dm, .slices, .cxl, .frz, .scrubs] : List Part), q ∈ P) (h : Keeps P s a1) :
    Keeps P s (runSubmit a1 a2 a3 a4 a5).st := by
  unfold runSubmit
  repeat' first
      | with_reducible assumption | with_reducible apply fetchDesc_keeps | with_reducible apply submit_keeps
      | with_reducible apply lookup_keeps | with_reducible apply raiseErr_keeps | extract_lets | with_reducible apply keeps_ite
      | with_reducible exact hP _ (by decide) | with_reducible exact parts_in hP
      | ((with_reducible refine page_in (c := .cl) (hP _ (by decide)) ?_) <;> exact rfl) | with_reducible exact le_side (by omega)
      | with_reducible exact lt_side (by omega) | with_reducible exact off_small _ _ _ | with_reducible intro _ | split
      | dsimp +zetaDelta only

theorem runInline_keeps {P : List Part} {s : State} {a1 : State} (a2) (a3) (a4) (hP : ∀ q ∈ ([.page .vt] : List Part), q ∈ P) (h : Keeps P s a1) :
    Keeps P s (runInline a1 a2 a3 a4).st := by
  unfold runInline
  repeat' first
      | with_reducible assumption | with_reducible apply lookup_keeps | extract_lets | with_reducible apply keeps_ite
      | with_reducible exact hP _ (by decide) | with_reducible exact parts_in hP | with_reducible intro _ | split | dsimp +zetaDelta only

theorem runInject_keeps {P : List Part} {s : State} {a1 : State} (a2) (a3) (hP : ∀ q ∈ ([.page .sd, .page .gc, .cores, .sd] : List Part), q ∈ P) (h : Keeps P s a1) :
    Keeps P s (runInject a1 a2 a3).st := by
  unfold runInject
  repeat' first
      | with_reducible assumption | with_reducible apply deliver_keeps | with_reducible apply sdTouch_keeps | extract_lets
      | with_reducible apply keeps_ite | with_reducible exact hP _ (by decide) | with_reducible exact parts_in hP | with_reducible intro _
      | split | dsimp +zetaDelta only

theorem runKick_keeps {P : List Part} {s : State} {a1 : State} (a2) (a3) (hP : ∀ q ∈ ([.page .sd, .cores, .sd] : List Part), q ∈ P) (h : Keeps P s a1) :
    Keeps P s (runKick a1 a2 a3).st := by
  unfold runKick
  repeat' first
      | with_reducible assumption | with_reducible apply setEvent_keeps | with_reducible apply sdTouch_keeps | extract_lets
      | with_reducible apply keeps_ite | with_reducible exact hP _ (by decide) | with_reducible exact parts_in hP | with_reducible intro _
      | split | dsimp +zetaDelta only

theorem runResume_keeps {P : List Part} {s : State} {a1 : State} (a2) (a3) (a4) (hP : ∀ q ∈ ([.page .vt, .clusters] : List Part), q ∈ P) (h : Keeps P s a1) :
    Keeps P s (runResume a1 a2 a3 a4).st := by
  unfold runResume
  repeat' first
      | with_reducible assumption | with_reducible apply resumeManifest_keeps | extract_lets | with_reducible apply keeps_ite
      | with_reducible exact hP _ (by decide) | with_reducible exact parts_in hP | with_reducible intro _ | split | dsimp +zetaDelta only

theorem runAbort_keeps {P : List Part} {s : State} {a1 : State} (a2) (a3) (hP : ∀ q ∈ ([.page .lw, .page .ep, .page .sd, .page .dc, .page .cl, .page .mc, .cores, .sd, .clusters, .dm, .slices, .cxl, .frz, .scrubs] : List Part), q ∈ P) (h : Keeps P s a1) :
    Keeps P s (runAbort a1 a2 a3).st := by
  unfold runAbort
  repeat' first
      | with_reducible assumption | with_reducible apply abortManifest_keeps | extract_lets | with_reducible apply keeps_ite
      | with_reducible exact hP _ (by decide) | with_reducible exact parts_in hP | with_reducible intro _ | split | dsimp +zetaDelta only

theorem runTbl_keeps {P : List Part} {s : State} {a1 : State} (a2) (a3) (hP : ∀ q ∈ ([.page .vt, .ctxs] : List Part), q ∈ P) (h : Keeps P s a1) :
    Keeps P s (runTbl a1 a2 a3).st := by
  unfold runTbl
  repeat' first
      | with_reducible assumption | with_reducible apply tblCommit_keeps | extract_lets | with_reducible apply keeps_ite
      | with_reducible exact hP _ (by decide) | with_reducible exact parts_in hP | with_reducible intro _ | split | dsimp +zetaDelta only

theorem runInvalidate_keeps {P : List Part} {s : State} {a1 : State} (a2) (a3) (a4) (a5) (hP : ∀ q ∈ ([.drains] : List Part), q ∈ P) (h : Keeps P s a1) :
    Keeps P s (runInvalidate a1 a2 a3 a4 a5).st := by
  unfold runInvalidate
  repeat' first
      | with_reducible assumption | with_reducible apply startDrain_keeps | with_reducible exact hP _ (by decide)
      | with_reducible exact parts_in hP | with_reducible intro _ | split

theorem takeSlot_keeps {P : List Part} {s t : State} (mb slot seqWord) {run : State → BitVec 1024 → W16 → Ran}
    (hr : ∀ u d q, Keeps P s u → Keeps P s (run u d q).st) (hP : ∀ q ∈ ([.page .lw, .page .ep, .page .fm, .page .dc, .page .mc, .clusters, .mailboxes, .bar4, .dm, .slices, .cxl, .frz, .scrubs] : List Part), q ∈ P) (h : Keeps P s t) :
    Keeps P s (takeSlot t mb slot seqWord run) := by
  have hf : Part.page (classOf .fm) ∈ P := hP (.page .fm) (by decide)
  unfold takeSlot
  extract_lets s0 d seq s1 x s2
  have h0 : Keeps P s s0 := put_bar4_keeps _ (hP _ (by decide)) h
  have h1 : Keeps P s s1 := cntPreg_keeps _ _ _ (mbOff_small mb) hf h0
  have h2 : Keeps P s s2 := cntPreg_keeps _ _ _ (mbOff_small mb) hf h1
  clear_value s2 s0 d seq s1
  refine keeps_ite (fun _ => raiseErr_keeps _ _ _ hf h0) (fun _ => ?_)
  generalize classify x seq = k
  clear_value x
  have body : ∀ (b : Bool) u, Keeps P s u → Keeps P s (if t.frz.on then answer u mb slot seq b [] 9 0 true
      else
        let r := if sReserved d then (⟨u, .now 2 0⟩ : Ran) else run u d seq
        match r.reply with
        | .now st result => answer r.st mb slot seq b [] st result
        | .later kind => mbPump (addTaken r.st mb ⟨slot, seq, kind, b, [], false⟩) mb) := by
    intro b u hu
    refine keeps_ite (fun _ => answer_keeps _ _ _ _ _ _ _ _ (parts_in hP) hu) (fun _ => ?_)
    extract_lets r
    have h3 : Keeps P s r.st := ran_ite_keeps hu (hr _ _ _ hu)
    split
    · exact answer_keeps _ _ _ _ _ _ _ _ (parts_in hP) h3
    · exact mbPump_keeps _ (parts_in hP) (addTaken_keeps _ _ (parts_in hP) h3)
  cases k with
  | dup r =>
    cases r with
    | some st => exact respond_keeps _ _ _ _ _ _ _ (parts_in hP) (cntPreg_keeps _ _ _ (mbOff_small mb) hf h1)
    | none => exact State.setMailbox_keeps _ _ (parts_in hP) h2
  | fresh => exact body _ _ (State.setMailbox_keeps _ _ (parts_in hP) h1)
  | late => exact body _ _ (State.setMailbox_keeps _ _ (parts_in hP) h1)
  | old => exact body _ _ (raiseErr_keeps _ _ _ hf (cntPreg_keeps _ _ _ (mbOff_small mb) hf h1))

theorem execMbNop_keeps {P : List Part} {s : State} (a1) (a2) (a3) {a4 : State} (hP : ∀ q ∈ ([.page .lw, .page .ep, .page .fm, .page .dc, .page .mc, .clusters, .mailboxes, .bar4, .dm, .slices, .cxl, .frz, .scrubs] : List Part), q ∈ P) (h : Keeps P s a4) :
    NextKeeps P s (execMbNop a1 a2 a3 a4) := by
  unfold execMbNop
  repeat' first
      | with_reducible assumption | with_reducible apply nextKeeps_next | with_reducible apply takeSlot_keeps
      | with_reducible apply runNop_keeps | with_reducible apply keeps_ite | with_reducible exact hP _ (by decide)
      | with_reducible exact parts_in hP | with_reducible intro _ | split

theorem execMbSubmit_keeps {P : List Part} {s : State} (a1) (a2) (a3) (a4) (a5) {a6 : State} (hP : ∀ q ∈ ([.page .vt, .page .lw, .page .ep, .page .fm, .page .dc, .page .cl, .page .mc, .clusters, .mailboxes, .bar4, .dm, .slices, .cxl, .frz, .scrubs] : List Part), q ∈ P) (h : Keeps P s a6) :
    NextKeeps P s (execMbSubmit a1 a2 a3 a4 a5 a6) := by
  unfold execMbSubmit
  repeat' first
      | with_reducible assumption | with_reducible apply nextKeeps_next | with_reducible apply takeSlot_keeps
      | with_reducible apply runSubmit_keeps | with_reducible apply keeps_ite | with_reducible exact hP _ (by decide)
      | with_reducible exact parts_in hP | with_reducible intro _ | split

theorem execMbWriteInline_keeps {P : List Part} {s : State} (a1) (a2) (a3) (a4) {a5 : State} (hP : ∀ q ∈ ([.page .vt, .page .lw, .page .ep, .page .fm, .page .dc, .page .mc, .clusters, .mailboxes, .bar4, .dm, .slices, .cxl, .frz, .scrubs] : List Part), q ∈ P) (h : Keeps P s a5) :
    NextKeeps P s (execMbWriteInline a1 a2 a3 a4 a5) := by
  unfold execMbWriteInline
  repeat' first
      | with_reducible assumption | with_reducible apply nextKeeps_next | with_reducible apply takeSlot_keeps
      | with_reducible apply runInline_keeps | with_reducible apply keeps_ite | with_reducible exact hP _ (by decide)
      | with_reducible exact parts_in hP | with_reducible intro _ | split

theorem execMbInject_keeps {P : List Part} {s : State} (a1) (a2) (a3) {a4 : State} (hP : ∀ q ∈ ([.page .lw, .page .ep, .page .fm, .page .sd, .page .dc, .page .mc, .page .gc, .cores, .sd, .clusters, .mailboxes, .bar4, .dm, .slices, .cxl, .frz, .scrubs] : List Part), q ∈ P) (h : Keeps P s a4) :
    NextKeeps P s (execMbInject a1 a2 a3 a4) := by
  unfold execMbInject
  repeat' first
      | with_reducible assumption | with_reducible apply nextKeeps_next | with_reducible apply takeSlot_keeps
      | with_reducible apply runInject_keeps | with_reducible apply keeps_ite | with_reducible exact hP _ (by decide)
      | with_reducible exact parts_in hP | with_reducible intro _ | split

theorem execMbKick_keeps {P : List Part} {s : State} (a1) (a2) (a3) {a4 : State} (hP : ∀ q ∈ ([.page .lw, .page .ep, .page .fm, .page .sd, .page .dc, .page .mc, .cores, .sd, .clusters, .mailboxes, .bar4, .dm, .slices, .cxl, .frz, .scrubs] : List Part), q ∈ P) (h : Keeps P s a4) :
    NextKeeps P s (execMbKick a1 a2 a3 a4) := by
  unfold execMbKick
  repeat' first
      | with_reducible assumption | with_reducible apply nextKeeps_next | with_reducible apply takeSlot_keeps
      | with_reducible apply runKick_keeps | with_reducible apply keeps_ite | with_reducible exact hP _ (by decide)
      | with_reducible exact parts_in hP | with_reducible intro _ | split

theorem execMbResume_keeps {P : List Part} {s : State} (a1) (a2) (a3) (a4) {a5 : State} (hP : ∀ q ∈ ([.page .vt, .page .lw, .page .ep, .page .fm, .page .dc, .page .mc, .clusters, .mailboxes, .bar4, .dm, .slices, .cxl, .frz, .scrubs] : List Part), q ∈ P) (h : Keeps P s a5) :
    NextKeeps P s (execMbResume a1 a2 a3 a4 a5) := by
  unfold execMbResume
  repeat' first
      | with_reducible assumption | with_reducible apply nextKeeps_next | with_reducible apply takeSlot_keeps
      | with_reducible apply runResume_keeps | with_reducible apply keeps_ite | with_reducible exact hP _ (by decide)
      | with_reducible exact parts_in hP | with_reducible intro _ | split

theorem execMbAbort_keeps {P : List Part} {s : State} (a1) (a2) (a3) {a4 : State} (hP : ∀ q ∈ ([.page .lw, .page .ep, .page .fm, .page .sd, .page .dc, .page .cl, .page .mc, .cores, .sd, .clusters, .mailboxes, .bar4, .dm, .slices, .cxl, .frz, .scrubs] : List Part), q ∈ P) (h : Keeps P s a4) :
    NextKeeps P s (execMbAbort a1 a2 a3 a4) := by
  unfold execMbAbort
  repeat' first
      | with_reducible assumption | with_reducible apply nextKeeps_next | with_reducible apply takeSlot_keeps
      | with_reducible apply runAbort_keeps | with_reducible apply keeps_ite | with_reducible exact hP _ (by decide)
      | with_reducible exact parts_in hP | with_reducible intro _ | split

theorem execMbFence_keeps {P : List Part} {s : State} (a1) (a2) (a3) {a4 : State} (hP : ∀ q ∈ ([.page .lw, .page .ep, .page .fm, .page .dc, .page .mc, .clusters, .mailboxes, .bar4, .dm, .slices, .cxl, .frz, .scrubs] : List Part), q ∈ P) (h : Keeps P s a4) :
    NextKeeps P s (execMbFence a1 a2 a3 a4) := by
  unfold execMbFence
  repeat' first
      | with_reducible assumption | with_reducible apply nextKeeps_next | with_reducible apply takeSlot_keeps
      | with_reducible apply keeps_ite | with_reducible exact hP _ (by decide) | with_reducible exact parts_in hP | with_reducible intro _
      | split

theorem execTblWrite_keeps {P : List Part} {s : State} (a1) (a2) (a3) {a4 : State} (hP : ∀ q ∈ ([.page .vt, .page .lw, .page .ep, .page .fm, .page .dc, .page .mc, .clusters, .mailboxes, .bar4, .ctxs, .dm, .slices, .cxl, .frz, .scrubs] : List Part), q ∈ P) (h : Keeps P s a4) :
    NextKeeps P s (execTblWrite a1 a2 a3 a4) := by
  unfold execTblWrite
  repeat' first
      | with_reducible assumption | with_reducible apply nextKeeps_next | with_reducible apply takeSlot_keeps
      | with_reducible apply runTbl_keeps | with_reducible apply keeps_ite | with_reducible exact hP _ (by decide)
      | with_reducible exact parts_in hP | with_reducible intro _ | split

theorem execInvalidate_keeps {P : List Part} {s : State} (a1) (a2) (a3) {a4 : State} (hP : ∀ q ∈ ([.page .lw, .page .ep, .page .fm, .page .dc, .page .mc, .clusters, .mailboxes, .bar4, .drains, .dm, .slices, .cxl, .frz, .scrubs] : List Part), q ∈ P) (h : Keeps P s a4) :
    NextKeeps P s (execInvalidate a1 a2 a3 a4) := by
  unfold execInvalidate
  repeat' first
      | with_reducible assumption | with_reducible apply nextKeeps_next | with_reducible apply takeSlot_keeps
      | with_reducible apply runInvalidate_keeps | with_reducible apply keeps_ite | with_reducible exact hP _ (by decide)
      | with_reducible exact parts_in hP | with_reducible intro _ | split

theorem execMbBadCmd_keeps {P : List Part} {s : State} (a1) (a2) (a3) {a4 : State} (hP : ∀ q ∈ ([.page .lw, .page .ep, .page .fm, .page .dc, .page .mc, .clusters, .mailboxes, .bar4, .dm, .slices, .cxl, .frz, .scrubs] : List Part), q ∈ P) (h : Keeps P s a4) :
    NextKeeps P s (execMbBadCmd a1 a2 a3 a4) := by
  unfold execMbBadCmd
  repeat' first
      | with_reducible assumption | with_reducible apply nextKeeps_next | with_reducible apply takeSlot_keeps
      | with_reducible apply keeps_ite | with_reducible exact hP _ (by decide) | with_reducible exact parts_in hP | with_reducible intro _
      | split

theorem endTaken_keeps {P : List Part} {s : State} {a1 : State} (a2) (a3) (a4) (a5) (a6) (hP : ∀ q ∈ ([.page .lw, .page .ep, .page .dc, .page .mc, .clusters, .mailboxes, .dm, .slices, .cxl, .frz, .scrubs] : List Part), q ∈ P) (h : Keeps P s a1) :
    Keeps P s (endTaken a1 a2 a3 a4 a5 a6) := by
  unfold endTaken
  repeat' first
      | with_reducible assumption | with_reducible apply mbPump_keeps | with_reducible apply answer_keeps
      | with_reducible apply State.setMailbox_keeps | extract_lets | with_reducible exact hP _ (by decide)
      | with_reducible exact parts_in hP | with_reducible intro _ | split | dsimp +zetaDelta only

theorem drainEnd_keeps {P : List Part} {s : State} {a1 : State} (a2) (a3) (hP : ∀ q ∈ ([.page .vt, .page .lw, .page .ep, .page .sd, .page .dc, .page .mc, .cores, .sd, .clusters, .mailboxes, .ctxs, .drains, .dm, .slices, .cxl, .frz, .scrubs] : List Part), q ∈ P) (h : Keeps P s a1) :
    Keeps P s (drainEnd a1 a2 a3) := by
  unfold drainEnd
  repeat' first
      | with_reducible assumption | with_reducible apply endTaken_keeps | with_reducible apply noteDrain_keeps
      | with_reducible apply dropSlots_keeps | with_reducible apply drainMovers_keeps | with_reducible apply beginDrains_keeps
      | with_reducible apply goDone_keeps | with_reducible apply clrPreg_keeps | extract_lets | with_reducible apply keeps_ite
      | with_reducible exact hP _ (by decide) | with_reducible exact parts_in hP | with_reducible exact le_side (by omega)
      | with_reducible exact lt_side (by omega) | with_reducible exact off_small _ _ _ | with_reducible intro _ | split
      | fail_if_no_progress with_reducible refine put_ctxs_keeps _ (hP _ (by decide)) ?_
      | fail_if_no_progress with_reducible refine put_drains_keeps _ (hP _ (by decide)) ?_
      | fail_if_no_progress refine keeps_mk ?_ (Stays.mk fun q hq => by (cases q <;> first | rfl | exact ⟨rfl, rfl⟩ | exact fun _ _ _ _ _ _ => rfl | exact fun _ _ _ => rfl | exact absurd (hP _ (by decide)) hq))
      | dsimp +zetaDelta only

theorem execInvalidateComplete_keeps {P : List Part} {s : State} (a1) (a2) {a3 : State} (hP : ∀ q ∈ ([.page .vt, .page .lw, .page .ep, .page .sd, .page .dc, .page .mc, .cores, .sd, .clusters, .mailboxes, .ctxs, .drains, .dm, .slices, .cxl, .frz, .scrubs] : List Part), q ∈ P) (h : Keeps P s a3) :
    NextKeeps P s (execInvalidateComplete a1 a2 a3) := by
  unfold execInvalidateComplete
  repeat' first
      | with_reducible assumption | with_reducible apply nextKeeps_next | with_reducible apply drainEnd_keeps
      | with_reducible exact hP _ (by decide) | with_reducible exact parts_in hP | with_reducible intro _

theorem windowReset_keeps {P : List Part} {s : State} {a1 : State} (a2) (hP : ∀ q ∈ ([.mailboxes] : List Part), q ∈ P) (h : Keeps P s a1) :
    Keeps P s (windowReset a1 a2) := by
  unfold windowReset
  repeat' first
      | with_reducible assumption | with_reducible apply State.setMailbox_keeps | with_reducible exact hP _ (by decide)
      | with_reducible exact parts_in hP | with_reducible intro _

theorem mbCtrlWrite_keeps {P : List Part} {s : State} {a1 : State} (a2) (a3) (hP : ∀ q ∈ ([.page .fm, .staged, .mailboxes] : List Part), q ∈ P) (h : Keeps P s a1) :
    Keeps P s (mbCtrlWrite a1 a2 a3) := by
  unfold mbCtrlWrite
  repeat' first
      | with_reducible assumption | with_reducible apply windowReset_keeps | with_reducible apply pageWrite_keeps
      | with_reducible apply goDone_keeps | extract_lets | with_reducible apply keeps_ite | with_reducible exact hP _ (by decide)
      | with_reducible exact parts_in hP | with_reducible exact le_side (by omega) | with_reducible exact lt_side (by omega)
      | with_reducible exact off_small _ _ _ | with_reducible exact mbOff_small _ | with_reducible exact mbOff_lt _ | with_reducible intro _
      | split | dsimp +zetaDelta only

theorem execMailboxEn_keeps {P : List Part} {s : State} (a1) (a2) {a3 : State} (hP : ∀ q ∈ ([.page .fm, .staged, .mailboxes] : List Part), q ∈ P) (h : Keeps P s a3) :
    NextKeeps P s (execMailboxEn a1 a2 a3) := by
  unfold execMailboxEn
  repeat' first
      | with_reducible assumption | with_reducible apply nextKeeps_next | with_reducible apply mbCtrlWrite_keeps
      | with_reducible exact hP _ (by decide) | with_reducible exact parts_in hP | with_reducible intro _

theorem execWinReset_keeps {P : List Part} {s : State} (a1) (a2) {a3 : State} (hP : ∀ q ∈ ([.page .fm, .staged, .mailboxes] : List Part), q ∈ P) (h : Keeps P s a3) :
    NextKeeps P s (execWinReset a1 a2 a3) := by
  unfold execWinReset
  repeat' first
      | with_reducible assumption | with_reducible apply nextKeeps_next | with_reducible apply mbCtrlWrite_keeps
      | with_reducible exact hP _ (by decide) | with_reducible exact parts_in hP | with_reducible intro _

theorem bar4Write_keeps {P : List Part} {s : State} {a1 : State} (a2) (a3) (hP : ∀ q ∈ ([.page .fm, .bar4] : List Part), q ∈ P) (h : Keeps P s a1) :
    Keeps P s (bar4Write a1 a2 a3) := by
  unfold bar4Write
  repeat' first
      | with_reducible assumption | with_reducible apply raiseErr_keeps | extract_lets | with_reducible apply keeps_range
      | with_reducible apply keeps_foldl | with_reducible apply keeps_foldl1 | with_reducible apply keeps_ite
      | with_reducible exact hP _ (by decide) | with_reducible exact parts_in hP | with_reducible exact le_side (by omega)
      | with_reducible exact lt_side (by omega) | with_reducible exact off_small _ _ _ | with_reducible intro _ | split
      | fail_if_no_progress with_reducible refine put_bar4_keeps _ (hP _ (by decide)) ?_ | dsimp +zetaDelta only

end Sys2Proof.Machine
end

