-- ==== Sys2Proof/Laws/KeepSettle.lean ====
section
/-! SUPPORT. What the operations of Machine/Settle.lean leave alone. -/

set_option Elab.async false

namespace Sys2Proof.Machine

open Sys2Proof

theorem inboundRun_keeps {P : List Part} {s : State} (a1) {a2 : State} (a3) (hP : ∀ q ∈ ([.page .lw, .page .ep, .page .dc, .page .mc, .clusters, .dm, .slices, .cxl, .frz, .scrubs] : List Part), q ∈ P) (h : Keeps P s a2) :
    Keeps P s (inboundRun a1 a2 a3).1 := by
  induction a1 generalizing a2 a3 with
  | zero => exact h
  | succ fuel ih =>
    unfold inboundRun
    repeat' first
        | with_reducible assumption | with_reducible apply ih | with_reducible apply postAsk_keeps | with_reducible apply postWrite_keeps
        | extract_lets | with_reducible apply keeps_ite | with_reducible exact hP _ (by decide) | with_reducible exact parts_in hP
        | with_reducible intro _ | split | dsimp +zetaDelta only

theorem inboundStep_keeps {P : List Part} {s : State} (a1) (a2) (hP : ∀ q ∈ ([.page .lw, .page .ep, .page .dc, .page .mc, .clusters, .dm, .slices, .cxl, .frz, .scrubs] : List Part), q ∈ P) (h : Keeps P s a1.1) :
    Keeps P s (inboundStep a1 a2).1 := by
  unfold inboundStep
  repeat' first
      | with_reducible assumption | with_reducible apply inboundRun_keeps | extract_lets | with_reducible apply keeps_ite
      | with_reducible exact hP _ (by decide) | with_reducible exact parts_in hP | with_reducible intro _ | split | dsimp +zetaDelta only

theorem pumpInbound_keeps {P : List Part} {s : State} {a1 : State} (hP : ∀ q ∈ ([.page .lw, .page .ep, .page .dc, .page .mc, .clusters, .dm, .slices, .cxl, .frz, .scrubs] : List Part), q ∈ P) (h : Keeps P s a1) :
    Keeps P s (pumpInbound a1) := by
  unfold pumpInbound
  repeat' first
      | with_reducible assumption | with_reducible apply inboundStep_keeps | extract_lets | with_reducible apply keeps_foldl
      | with_reducible apply keeps_foldl1 | with_reducible apply keeps_ite | with_reducible exact hP _ (by decide)
      | with_reducible exact parts_in hP | with_reducible intro _ | split
      | fail_if_no_progress with_reducible refine put_cxl_keeps _ (hP _ (by decide)) ?_ | dsimp +zetaDelta only

theorem settleWindow_keeps {P : List Part} {s : State} {a1 : State} (hP : ∀ q ∈ ([.page .lw, .page .ep, .page .dc, .page .mc, .clusters, .dm, .slices, .lw, .cxl, .frz, .scrubs] : List Part), q ∈ P) (h : Keeps P s a1) :
    Keeps P s (settleWindow a1) := by
  unfold settleWindow
  repeat' first
      | with_reducible assumption | with_reducible apply uncommitCheck_keeps | with_reducible apply moveAsk_keeps
      | with_reducible apply moveCheck_keeps | with_reducible apply pumpHost_keeps | with_reducible apply lwCloseCheck_keeps
      | with_reducible apply clearAsk_keeps | with_reducible apply sweepWays_keeps | with_reducible apply pumpBi_keeps | extract_lets
      | with_reducible apply keeps_foldl | with_reducible apply keeps_foldl1 | with_reducible exact hP _ (by decide)
      | with_reducible exact parts_in hP | with_reducible intro _ | dsimp +zetaDelta only

theorem moverPump_keeps {P : List Part} {s : State} {a1 : State} (a2) (hP : ∀ q ∈ ([.page .lw, .page .ep, .page .sd, .page .dc, .page .cl, .page .mc, .cores, .sd, .clusters, .dm, .slices, .cxl, .frz, .scrubs] : List Part), q ∈ P) (h : Keeps P s a1) :
    Keeps P s (moverPump a1 a2) := by
  unfold moverPump
  repeat' first
      | with_reducible assumption | with_reducible apply abortAllEnd_keeps | with_reducible apply advance_keeps
      | with_reducible apply keeps_foldl | with_reducible apply keeps_foldl1 | with_reducible apply keeps_ite
      | with_reducible exact hP _ (by decide) | with_reducible exact parts_in hP | with_reducible intro _ | split

theorem settle_keeps {P : List Part} {s : State} {a1 : State} (hP : ∀ q ∈ ([.page .lw, .page .ep, .page .ml, .page .sd, .page .dc, .page .cl, .page .mc, .cores, .locks, .sd, .clusters, .mailboxes, .dm, .slices, .lw, .cxl, .frz, .scrubs] : List Part), q ∈ P) (h : Keeps P s a1) :
    Keeps P s (settle a1) := by
  unfold settle
  repeat' first
      | with_reducible assumption | with_reducible apply moverPump_keeps | with_reducible apply settleWindow_keeps
      | with_reducible apply pumpInbound_keeps | with_reducible apply mbPump_keeps | with_reducible apply storesSeen_keeps | extract_lets
      | with_reducible apply keeps_foldl | with_reducible apply keeps_foldl1 | with_reducible exact hP _ (by decide)
      | with_reducible exact parts_in hP | with_reducible intro _ | dsimp +zetaDelta only

theorem execBisnpResponse_keeps {P : List Part} {s : State} (a1) (a2) {a3 : State} (hP : ∀ q ∈ ([.page .lw, .page .ep, .page .ml, .page .sd, .page .dc, .page .cl, .page .mc, .cores, .locks, .sd, .clusters, .mailboxes, .dm, .slices, .lw, .cxl, .frz, .scrubs] : List Part), q ∈ P) (h : Keeps P s a3) :
    NextKeeps P s (execBisnpResponse a1 a2 a3) := by
  unfold execBisnpResponse
  repeat' first
      | with_reducible assumption | with_reducible apply nextKeeps_next | with_reducible apply settle_keeps
      | with_reducible apply biAnswer_keeps | with_reducible exact hP _ (by decide) | with_reducible exact parts_in hP
      | with_reducible intro _

theorem execCacheFill_keeps {P : List Part} {s : State} (a1) (a2) (a3) (a4) (a5) {a6 : State} (hP : ∀ q ∈ ([.page .lw, .page .ep, .page .ml, .page .sd, .page .dc, .page .cl, .page .mc, .page .gc, .cores, .locks, .sd, .clusters, .mailboxes, .dm, .slices, .lw, .cxl, .frz, .scrubs] : List Part), q ∈ P) (h : Keeps P s a6) :
    NextKeeps P s (execCacheFill a1 a2 a3 a4 a5 a6) := by
  unfold execCacheFill
  repeat' first
      | with_reducible assumption | with_reducible apply nextKeeps_next | with_reducible apply settle_keeps
      | with_reducible apply fillCache_keeps | with_reducible apply applyFault_keeps | with_reducible exact hP _ (by decide)
      | with_reducible exact parts_in hP | with_reducible intro _

theorem execSnpdata_keeps {P : List Part} {s : State} (a1) {a2 : State} (hP : ∀ q ∈ ([.page .lw, .page .ep, .page .ml, .page .sd, .page .dc, .page .cl, .page .mc, .cores, .locks, .sd, .clusters, .mailboxes, .dm, .slices, .lw, .cxl, .frz, .scrubs] : List Part), q ∈ P) (h : Keeps P s a2) :
    NextKeeps P s (execSnpdata a1 a2) := by
  unfold execSnpdata
  repeat' first
      | with_reducible assumption | with_reducible apply nextKeeps_next | with_reducible apply settle_keeps
      | with_reducible apply snoopData_keeps | with_reducible apply keeps_ite | with_reducible exact hP _ (by decide)
      | with_reducible exact parts_in hP | with_reducible intro _ | split

theorem execSnpinv_keeps {P : List Part} {s : State} (a1) {a2 : State} (hP : ∀ q ∈ ([.page .lw, .page .ep, .page .ml, .page .sd, .page .dc, .page .cl, .page .mc, .cores, .locks, .sd, .clusters, .mailboxes, .dm, .slices, .lw, .cxl, .frz, .scrubs] : List Part), q ∈ P) (h : Keeps P s a2) :
    NextKeeps P s (execSnpinv a1 a2) := by
  unfold execSnpinv
  repeat' first
      | with_reducible assumption | with_reducible apply nextKeeps_next | with_reducible apply settle_keeps
      | with_reducible apply snoopInv_keeps | with_reducible apply keeps_ite | with_reducible exact hP _ (by decide)
      | with_reducible exact parts_in hP | with_reducible intro _ | split

theorem execPlChunkDone_keeps {P : List Part} {s : State} {a1 : State} (hP : ∀ q ∈ ([.page .lw, .page .ep, .page .ml, .page .sd, .page .pl, .page .dc, .page .cl, .page .mc, .cores, .locks, .sd, .clusters, .mailboxes, .dm, .slices, .lw, .cxl, .frz, .scrubs, .pl] : List Part), q ∈ P) (h : Keeps P s a1) :
    NextKeeps P s (execPlChunkDone a1) := by
  unfold execPlChunkDone
  repeat' first
      | with_reducible assumption | with_reducible apply nextKeeps_next | with_reducible apply settle_keeps
      | with_reducible apply chunkDone_keeps | with_reducible exact hP _ (by decide) | with_reducible exact parts_in hP
      | with_reducible intro _

theorem execPlCommit_keeps {P : List Part} {s : State} {a1 : State} (hP : ∀ q ∈ ([.page .lw, .page .ep, .page .ml, .page .sd, .page .pl, .page .dc, .page .cl, .page .mc, .cores, .locks, .sd, .clusters, .mailboxes, .dm, .slices, .lw, .cxl, .frz, .scrubs, .pl] : List Part), q ∈ P) (h : Keeps P s a1) :
    NextKeeps P s (execPlCommit a1) := by
  unfold execPlCommit
  repeat' first
      | with_reducible assumption | with_reducible apply nextKeeps_next | with_reducible apply settle_keeps
      | with_reducible apply plCommit_keeps | with_reducible exact hP _ (by decide) | with_reducible exact parts_in hP
      | with_reducible intro _

end Sys2Proof.Machine
end

