-- ==== Sys2Proof/Laws/KeepFreeze.lean ====
section
/-! SUPPORT. What the operations of Machine/Freeze.lean leave alone. -/

set_option Elab.async false

namespace Sys2Proof.Machine

open Sys2Proof

theorem loseStores_keeps {P : List Part} {s : State} {a1 : State} (a2) (hP : ∀ q ∈ ([.page .ep, .cores, .frz] : List Part), q ∈ P) (h : Keeps P s a1) :
    Keeps P s (loseStores a1 a2) := by
  unfold loseStores
  repeat' first
      | with_reducible assumption | with_reducible apply listDiscard_keeps | with_reducible apply State.setCoreRaw_keeps | extract_lets
      | with_reducible apply keeps_foldl | with_reducible apply keeps_foldl1 | with_reducible apply keeps_ite
      | with_reducible exact hP _ (by decide) | with_reducible exact parts_in hP | with_reducible intro _ | split | dsimp +zetaDelta only

theorem loseSent_keeps {P : List Part} {s : State} {a1 : State} (a2) (hP : ∀ q ∈ ([.cores] : List Part), q ∈ P) (h : Keeps P s a1) :
    Keeps P s (loseSent a1 a2) := by
  unfold loseSent
  repeat' first
      | with_reducible assumption | with_reducible apply State.setCoreRaw_keeps | extract_lets | with_reducible apply keeps_ite
      | with_reducible exact hP _ (by decide) | with_reducible exact parts_in hP | with_reducible intro _ | split | dsimp +zetaDelta only

theorem discardWrite_keeps {P : List Part} {s : State} {a1 : State} (a2) (hP : ∀ q ∈ ([.page .ep, .cores, .frz] : List Part), q ∈ P) (h : Keeps P s a1) :
    Keeps P s (discardWrite a1 a2) := by
  unfold discardWrite
  repeat' first
      | with_reducible assumption | with_reducible apply loseSent_keeps | with_reducible apply listDiscard_keeps
      | with_reducible exact hP _ (by decide) | with_reducible exact parts_in hP | with_reducible intro _

theorem refuseWaiting_keeps {P : List Part} {s : State} {a1 : State} (hP : ∀ q ∈ ([.page .ep, .slices, .lw] : List Part), q ∈ P) (h : Keeps P s a1) :
    Keeps P s (refuseWaiting a1) := by
  unfold refuseWaiting
  repeat' first
      | with_reducible assumption | with_reducible apply dropMem_keeps | with_reducible apply State.setSlice_keeps | extract_lets
      | with_reducible apply keeps_foldl | with_reducible apply keeps_foldl1 | with_reducible exact hP _ (by decide)
      | with_reducible exact parts_in hP | with_reducible intro _
      | fail_if_no_progress with_reducible refine put_lw_keeps _ (hP _ (by decide)) ?_ | dsimp +zetaDelta only

theorem clearReport_keeps {P : List Part} {s : State} {a1 : State} (hP : ∀ q ∈ ([.page .ep, .frz] : List Part), q ∈ P) (h : Keeps P s a1) :
    Keeps P s (clearReport a1) := by
  unfold clearReport
  repeat' first
      | with_reducible assumption | with_reducible apply setPreg_keeps | with_reducible apply keeps_range | with_reducible apply keeps_foldl
      | with_reducible apply keeps_foldl1 | with_reducible exact hP _ (by decide) | with_reducible exact parts_in hP
      | with_reducible exact le_side (by omega) | with_reducible exact lt_side (by omega) | with_reducible exact off_small _ _ _
      | with_reducible intro _ | fail_if_no_progress with_reducible refine put_frz_keeps _ (hP _ (by decide)) ?_

theorem unsentWrites_keeps {P : List Part} {s : State} {a1 : State} (hP : ∀ q ∈ ([.cxl] : List Part), q ∈ P) (h : Keeps P s a1) :
    Keeps P s (unsentWrites a1).1 := by
  unfold unsentWrites
  repeat' first
      | with_reducible assumption | extract_lets | with_reducible intro _
      | fail_if_no_progress with_reducible refine put_cxl_keeps _ (hP _ (by decide)) ?_ | dsimp +zetaDelta only

theorem enterFreeze_keeps {P : List Part} {s : State} {a1 : State} (a2) (hP : ∀ q ∈ ([.page .ep, .cores, .slices, .lw, .cxl, .frz] : List Part), q ∈ P) (h : Keeps P s a1) :
    Keeps P s (enterFreeze a1 a2) := by
  unfold enterFreeze
  repeat' first
      | with_reducible assumption | with_reducible apply unsentWrites_keeps | with_reducible apply clearReport_keeps
      | with_reducible apply refuseWaiting_keeps | with_reducible apply discardWrite_keeps | with_reducible apply loseStores_keeps
      | with_reducible apply raiseInt_keeps | extract_lets | with_reducible apply keeps_foldl | with_reducible apply keeps_foldl1
      | with_reducible apply keeps_ite | with_reducible exact hP _ (by decide) | with_reducible exact parts_in hP
      | with_reducible exact le_side (by omega) | with_reducible exact lt_side (by omega) | with_reducible exact off_small _ _ _
      | with_reducible intro _ | split | fail_if_no_progress with_reducible refine put_frz_keeps _ (hP _ (by decide)) ?_
      | dsimp +zetaDelta only

theorem setFence_keeps {P : List Part} {s : State} {a1 : State} (a2) (ha2 : Part.page (classOf a2) ∈ P) (h : Keeps P s a1) :
    Keeps P s (setFence a1 a2) := by
  unfold setFence
  repeat' first
      | with_reducible assumption | with_reducible apply orPreg_keeps | with_reducible exact le_side (by omega)
      | with_reducible exact lt_side (by omega) | with_reducible exact off_small _ _ _ | with_reducible intro _

theorem fenceCache_keeps {P : List Part} {s : State} {a1 : State} (a2) (hP : ∀ q ∈ ([.page .lw, .page .ep, .page .dc, .page .cl, .page .mc, .clusters, .dm, .slices, .cxl, .frz, .scrubs] : List Part), q ∈ P) (h : Keeps P s a1) :
    Keeps P s (fenceCache a1 a2) := by
  unfold fenceCache
  repeat' first
      | with_reducible assumption | with_reducible apply finishClear_keeps | with_reducible apply clusterClear_keeps
      | with_reducible apply setFlags_keeps | with_reducible apply homeClean_keeps | with_reducible apply cancelGrant_keeps
      | with_reducible apply State.setSlice_keeps | with_reducible apply State.setCl_keeps | with_reducible apply clrPreg_keeps
      | extract_lets | with_reducible apply keeps_foldl | with_reducible apply keeps_foldl1 | with_reducible exact hP _ (by decide)
      | with_reducible exact parts_in hP | ((with_reducible refine page_in (c := .cl) (hP _ (by decide)) ?_) <;> exact rfl)
      | with_reducible exact le_side (by omega) | with_reducible exact lt_side (by omega) | with_reducible exact off_small _ _ _
      | with_reducible intro _ | dsimp +zetaDelta only

theorem fenceCluster_keeps {P : List Part} {s : State} {a1 : State} (a2) (hP : ∀ q ∈ ([.page .lw, .page .ep, .page .ml, .page .sd, .page .dc, .page .cl, .page .mc, .page .gc, .cores, .locks, .sd, .clusters, .mailboxes, .dm, .slices, .lw, .cxl, .frz, .ports, .scrubs] : List Part), q ∈ P) (h : Keeps P s a1) :
    Keeps P s (fenceCluster a1 a2) := by
  unfold fenceCluster
  repeat' first
      | with_reducible assumption | with_reducible apply fenceCache_keeps | with_reducible apply setFence_keeps
      | with_reducible apply settle_keeps | with_reducible apply resetMover_keeps | with_reducible apply fenceCores_keeps | extract_lets
      | with_reducible apply keeps_ite | with_reducible exact hP _ (by decide) | with_reducible exact parts_in hP
      | ((with_reducible refine page_in (c := .cl) (hP _ (by decide)) ?_) <;> exact rfl) | with_reducible exact le_side (by omega)
      | with_reducible exact lt_side (by omega) | with_reducible exact off_small _ _ _ | with_reducible intro _ | split
      | dsimp +zetaDelta only

theorem fenceStack_keeps {P : List Part} {s : State} {a1 : State} (a2) (hP : ∀ q ∈ ([.page .pl, .page .mc, .pl] : List Part), q ∈ P) (h : Keeps P s a1) :
    Keeps P s (fenceStack a1 a2) := by
  unfold fenceStack
  repeat' first
      | with_reducible assumption | with_reducible apply setFence_keeps | with_reducible apply plFenceCheck_keeps
      | with_reducible apply keeps_ite | with_reducible exact hP _ (by decide) | with_reducible exact parts_in hP
      | ((with_reducible refine page_in (c := .mc) (hP _ (by decide)) ?_) <;> exact rfl) | with_reducible exact le_side (by omega)
      | with_reducible exact lt_side (by omega) | with_reducible exact off_small _ _ _ | with_reducible intro _ | split

theorem fencePage_keeps {P : List Part} {s t : State} (p) (hp : Part.page (classOf p) ∈ P) (hP : ∀ q ∈ ([.page .lw, .page .ep, .page .ml, .page .sd, .page .pl, .page .dc, .page .cl, .page .mc, .page .xl, .page .gc, .cores, .locks, .sd, .clusters, .mailboxes, .dm, .slices, .lw, .cxl, .frz, .ports, .scrubs, .pl, .boot] : List Part), q ∈ P) (h : Keeps P s t) :
    Keeps P s (fencePage t p) := by
  refine withReady_keeps (fun t ht => ?_) (parts_in hP) h
  cases p
  case gc id => exact fenceCore_keeps _ (parts_in hP) ht
  case cl n => exact fenceCluster_keeps _ (parts_in hP) ht
  case mc n => exact fenceStack_keeps _ (parts_in hP) ht
  case xl n => exact fencePort_keeps _ (parts_in hP) ht
  case ep => exact enterFreeze_keeps _ (parts_in hP) (setFence_keeps _ hp ht)
  case dev | fc => exact ht
  all_goals exact setFence_keeps _ hp ht

theorem releaseMasters_keeps {P : List Part} {s : State} {a1 : State} (hP : ∀ q ∈ ([.page .lw, .page .ep, .page .fm, .page .ml, .page .sd, .page .dc, .page .cl, .page .mc, .page .gc, .cores, .locks, .sd, .clusters, .dm, .slices, .cxl, .frz, .ports, .scrubs, .boot] : List Part), q ∈ P) (h : Keeps P s a1) :
    Keeps P s (releaseMasters a1) := by
  unfold releaseMasters
  repeat' first
      | with_reducible assumption | with_reducible apply resetMover_keeps | with_reducible apply fenceCores_keeps
      | with_reducible apply withReady_keeps | with_reducible apply raiseErr_keeps | extract_lets | with_reducible apply keeps_foldl
      | with_reducible apply keeps_foldl1 | with_reducible exact hP _ (by decide) | with_reducible exact parts_in hP
      | with_reducible exact le_side (by omega) | with_reducible exact lt_side (by omega) | with_reducible exact off_small _ _ _
      | with_reducible intro _ | fail_if_no_progress with_reducible refine put_frz_keeps _ (hP _ (by decide)) ?_ | dsimp +zetaDelta only

theorem wbResume_keeps {P : List Part} {s : State} {a1 : State} (hP : ∀ q ∈ ([.page .ep, .page .dc, .page .mc, .clusters, .dm, .slices, .cxl, .frz, .scrubs] : List Part), q ∈ P) (h : Keeps P s a1) :
    Keeps P s (wbResume a1) := by
  unfold wbResume
  repeat' first
      | with_reducible assumption | with_reducible apply dropHostLines_keeps | with_reducible apply wbCheck_keeps
      | with_reducible apply keeps_ite | with_reducible exact hP _ (by decide) | with_reducible exact parts_in hP | with_reducible intro _
      | split

theorem endFreeze_keeps {P : List Part} {s : State} {a1 : State} (hP : ∀ q ∈ ([.page .lw, .page .ep, .page .fm, .page .ml, .page .sd, .page .dc, .page .cl, .page .mc, .page .gc, .cores, .locks, .sd, .clusters, .mailboxes, .dm, .slices, .lw, .cxl, .frz, .ports, .scrubs, .boot] : List Part), q ∈ P) (h : Keeps P s a1) :
    Keeps P s (endFreeze a1) := by
  unfold endFreeze
  repeat' first
      | with_reducible assumption | with_reducible apply wbResume_keeps | with_reducible apply releaseMasters_keeps
      | with_reducible apply settle_keeps | with_reducible apply resumeAccesses_keeps | with_reducible apply biResume_keeps
      | with_reducible apply flushMsix_keeps | with_reducible apply drainWrites_keeps | with_reducible apply sendWrite_keeps
      | with_reducible apply raiseInt_keeps | with_reducible apply clrPreg_keeps | extract_lets | with_reducible apply keeps_foldl
      | with_reducible apply keeps_foldl1 | with_reducible exact hP _ (by decide) | with_reducible exact parts_in hP
      | with_reducible exact le_side (by omega) | with_reducible exact lt_side (by omega) | with_reducible exact off_small _ _ _
      | with_reducible intro _ | fail_if_no_progress with_reducible refine put_frz_keeps _ (hP _ (by decide)) ?_ | dsimp +zetaDelta only

theorem releaseFreeze_keeps {P : List Part} {s : State} {a1 : State} (hP : ∀ q ∈ ([.page .lw, .page .ep, .page .fm, .page .ml, .page .sd, .page .dc, .page .cl, .page .mc, .page .gc, .cores, .locks, .sd, .clusters, .mailboxes, .dm, .slices, .lw, .cxl, .frz, .ports, .scrubs, .boot] : List Part), q ∈ P) (h : Keeps P s a1) :
    Keeps P s (releaseFreeze a1) := by
  unfold releaseFreeze
  repeat' first
      | with_reducible assumption | with_reducible apply endFreeze_keeps | with_reducible apply raiseErr_keeps
      | with_reducible apply keeps_ite | with_reducible exact hP _ (by decide) | with_reducible exact parts_in hP
      | with_reducible exact le_side (by omega) | with_reducible exact lt_side (by omega) | with_reducible exact off_small _ _ _
      | with_reducible intro _ | split

theorem rivalFreeze_keeps {P : List Part} {s : State} {a1 : State} (a2) (hP : ∀ q ∈ ([.page .lw, .page .ep, .page .fm, .page .ml, .page .sd, .page .dc, .page .cl, .page .mc, .page .gc, .staged, .cores, .locks, .sd, .clusters, .mailboxes, .dm, .slices, .lw, .cxl, .frz, .ports, .scrubs, .boot] : List Part), q ∈ P) (h : Keeps P s a1) :
    Keeps P s (rivalFreeze a1 a2) := by
  unfold rivalFreeze
  repeat' first
      | with_reducible assumption | with_reducible apply enterFreeze_keeps | with_reducible apply raiseErr_keeps | extract_lets
      | with_reducible apply keeps_ite | with_reducible exact hP _ (by decide) | with_reducible exact parts_in hP
      | with_reducible exact le_side (by omega) | with_reducible exact lt_side (by omega) | with_reducible exact off_small _ _ _
      | with_reducible intro _ | split | fail_if_no_progress with_reducible refine put_frz_keeps _ (hP _ (by decide)) ?_
      | dsimp +zetaDelta only

theorem frzCtrlWrite_keeps {P : List Part} {s : State} {a1 : State} (a2 a3) (hP : ∀ q ∈ ([.page .lw, .page .ep, .page .fm, .page .ml, .page .sd, .page .dc, .page .cl, .page .mc, .page .gc, .staged, .cores, .locks, .sd, .clusters, .mailboxes, .dm, .slices, .lw, .cxl, .frz, .ports, .scrubs, .boot] : List Part), q ∈ P) (h : Keeps P s a1) :
    Keeps P s (frzCtrlWrite a1 a2 a3) := by
  unfold frzCtrlWrite
  repeat' first
      | with_reducible assumption | with_reducible apply releaseFreeze_keeps | with_reducible apply rivalFreeze_keeps | with_reducible apply enterFreeze_keeps
      | with_reducible apply pageWrite_keeps | with_reducible apply raiseErr_keeps | with_reducible apply goDone_keeps | extract_lets
      | with_reducible apply keeps_ite | with_reducible exact hP _ (by decide) | with_reducible exact parts_in hP
      | with_reducible exact le_side (by omega) | with_reducible exact lt_side (by omega) | with_reducible exact off_small _ _ _
      | with_reducible intro _ | split | fail_if_no_progress with_reducible refine put_frz_keeps _ (hP _ (by decide)) ?_
      | dsimp +zetaDelta only

theorem execFreeze_keeps {P : List Part} {s : State} (a1) {a2 : State} (hP : ∀ q ∈ ([.page .lw, .page .ep, .page .fm, .page .ml, .page .sd, .page .dc, .page .cl, .page .mc, .page .gc, .staged, .cores, .locks, .sd, .clusters, .mailboxes, .dm, .slices, .lw, .cxl, .frz, .ports, .scrubs, .boot] : List Part), q ∈ P) (h : Keeps P s a2) :
    NextKeeps P s (execFreeze a1 a2) := by
  unfold execFreeze
  repeat' first
      | with_reducible assumption | with_reducible apply nextKeeps_next | with_reducible apply frzCtrlWrite_keeps
      | with_reducible exact hP _ (by decide) | with_reducible exact parts_in hP | with_reducible intro _

theorem execRelease_keeps {P : List Part} {s : State} (a1 a2) {a3 : State} (hP : ∀ q ∈ ([.page .lw, .page .ep, .page .fm, .page .ml, .page .sd, .page .dc, .page .cl, .page .mc, .page .gc, .staged, .cores, .locks, .sd, .clusters, .mailboxes, .dm, .slices, .lw, .cxl, .frz, .ports, .scrubs, .boot] : List Part), q ∈ P) (h : Keeps P s a3) :
    NextKeeps P s (execRelease a1 a2 a3) := by
  unfold execRelease
  repeat' first
      | with_reducible assumption | with_reducible apply nextKeeps_next | with_reducible apply frzCtrlWrite_keeps
      | with_reducible exact hP _ (by decide) | with_reducible exact parts_in hP | with_reducible intro _

end Sys2Proof.Machine
end

