-- ==== Sys2Proof/Laws/KeepGrid.lean ====
section
/-! SUPPORT. What the operations of Machine/Grid.lean leave alone. -/

set_option Elab.async false

namespace Sys2Proof.Machine

open Sys2Proof

theorem gcEnableAct_keeps {P : List Part} {s : State} {a1 : State} (a2) (a3) (hP : ∀ q ∈ ([.page .ml, .page .sd, .page .gc, .cores, .mesh, .locks, .sd, .frz, .ports] : List Part), q ∈ P) (h : Keeps P s a1) :
    Keeps P s (gcEnableAct a1 a2 a3) := by
  unfold gcEnableAct
  repeat' first
      | with_reducible assumption | with_reducible apply resetCore_keeps | with_reducible apply State.setCore_keeps | extract_lets
      | with_reducible apply keeps_ite | with_reducible exact hP _ (by decide) | with_reducible exact parts_in hP
      | ((with_reducible refine page_in (c := .gc) (hP _ (by decide)) ?_) <;> exact rfl) | with_reducible intro _ | split
      | dsimp +zetaDelta only

theorem gcStartWrite_keeps {P : List Part} {s : State} {a1 : State} (a2) (a3) (hP : ∀ q ∈ ([.page .sd, .page .gc, .staged, .cores, .locks, .sd] : List Part), q ∈ P) (h : Keeps P s a1) :
    Keeps P s (gcStartWrite a1 a2 a3) := by
  unfold gcStartWrite
  repeat' first
      | with_reducible assumption | with_reducible apply startCore_keeps | with_reducible apply askPark_keeps
      | with_reducible apply pageWrite_keeps | with_reducible apply goDone_keeps | with_reducible apply clrPreg_keeps | extract_lets
      | with_reducible apply keeps_ite | with_reducible exact hP _ (by decide) | with_reducible exact parts_in hP
      | ((with_reducible refine page_in (c := .gc) (hP _ (by decide)) ?_) <;> exact rfl) | with_reducible exact le_side (by omega)
      | with_reducible exact lt_side (by omega) | with_reducible exact off_small _ _ _ | with_reducible intro _ | split
      | dsimp +zetaDelta only

theorem execGcStart_keeps {P : List Part} {s : State} (a1) (a2) {a3 : State} (hP : ∀ q ∈ ([.page .sd, .page .gc, .staged, .cores, .locks, .sd] : List Part), q ∈ P) (h : Keeps P s a3) :
    NextKeeps P s (execGcStart a1 a2 a3) := by
  unfold execGcStart
  repeat' first
      | with_reducible assumption | with_reducible apply nextKeeps_next | with_reducible apply gcStartWrite_keeps
      | with_reducible exact hP _ (by decide) | with_reducible exact parts_in hP | with_reducible intro _

theorem execGcPark_keeps {P : List Part} {s : State} (a1) (a2) {a3 : State} (hP : ∀ q ∈ ([.page .sd, .page .gc, .staged, .cores, .locks, .sd] : List Part), q ∈ P) (h : Keeps P s a3) :
    NextKeeps P s (execGcPark a1 a2 a3) := by
  unfold execGcPark
  repeat' first
      | with_reducible assumption | with_reducible apply nextKeeps_next | with_reducible apply gcStartWrite_keeps
      | with_reducible exact hP _ (by decide) | with_reducible exact parts_in hP | with_reducible intro _

theorem corePark_keeps {P : List Part} {s : State} {a1 : State} (a2) (hP : ∀ q ∈ ([.page .sd, .page .gc, .cores, .sd] : List Part), q ∈ P) (h : Keeps P s a1) :
    Keeps P s (corePark a1 a2) := by
  unfold corePark
  repeat' first
      | with_reducible assumption | with_reducible apply State.setCore_keeps | with_reducible apply goDone_keeps | extract_lets
      | with_reducible apply keeps_ite | with_reducible exact hP _ (by decide) | with_reducible exact parts_in hP
      | ((with_reducible refine page_in (c := .gc) (hP _ (by decide)) ?_) <;> exact rfl) | with_reducible exact le_side (by omega)
      | with_reducible exact lt_side (by omega) | with_reducible exact off_small _ _ _ | with_reducible intro _ | split
      | dsimp +zetaDelta only

theorem execCoreParked_keeps {P : List Part} {s : State} (a1) {a2 : State} (hP : ∀ q ∈ ([.page .sd, .page .gc, .cores, .sd] : List Part), q ∈ P) (h : Keeps P s a2) :
    NextKeeps P s (execCoreParked a1 a2) := by
  unfold execCoreParked
  repeat' first
      | with_reducible assumption | with_reducible apply nextKeeps_next | with_reducible apply corePark_keeps
      | with_reducible exact hP _ (by decide) | with_reducible exact parts_in hP | with_reducible intro _

theorem gcKickWrite_keeps {P : List Part} {s : State} {a1 : State} (a2) (a3) (hP : ∀ q ∈ ([.page .sd, .page .gc, .staged, .cores, .sd] : List Part), q ∈ P) (h : Keeps P s a1) :
    Keeps P s (gcKickWrite a1 a2 a3) := by
  unfold gcKickWrite
  repeat' first
      | with_reducible assumption | with_reducible apply setEvent_keeps | with_reducible apply sdTouch_keeps
      | with_reducible apply pageWriteGo_keeps | with_reducible exact hP _ (by decide) | with_reducible exact parts_in hP
      | ((with_reducible refine page_in (c := .gc) (hP _ (by decide)) ?_) <;> exact rfl) | with_reducible exact le_side (by omega)
      | with_reducible exact lt_side (by omega) | with_reducible exact off_small _ _ _ | with_reducible intro _

theorem execGcKick_keeps {P : List Part} {s : State} (a1) (a2) {a3 : State} (hP : ∀ q ∈ ([.page .sd, .page .gc, .staged, .cores, .sd] : List Part), q ∈ P) (h : Keeps P s a3) :
    NextKeeps P s (execGcKick a1 a2 a3) := by
  unfold execGcKick
  repeat' first
      | with_reducible assumption | with_reducible apply nextKeeps_next | with_reducible apply gcKickWrite_keeps
      | with_reducible exact hP _ (by decide) | with_reducible exact parts_in hP | with_reducible intro _

theorem messageArrives_keeps {P : List Part} {s : State} {a1 : State} (a2) (a3) (a4) (hP : ∀ q ∈ ([.page .sd, .page .gc, .cores, .mesh, .sd] : List Part), q ∈ P) (h : Keeps P s a1) :
    Keeps P s (messageArrives a1 a2 a3 a4) := by
  unfold messageArrives
  repeat' first
      | with_reducible assumption | with_reducible apply spoilMsg_keeps | with_reducible apply deliver_keeps
      | with_reducible apply beginFill_keeps | extract_lets | with_reducible apply keeps_ite | with_reducible exact hP _ (by decide)
      | with_reducible exact parts_in hP | with_reducible intro _ | split
      | fail_if_no_progress with_reducible refine put_mesh_keeps _ (hP _ (by decide)) ?_ | dsimp +zetaDelta only

theorem execMessageDelivery_keeps {P : List Part} {s : State} (a1) (a2) (a3) {a4 : State} (hP : ∀ q ∈ ([.page .sd, .page .gc, .cores, .mesh, .sd] : List Part), q ∈ P) (h : Keeps P s a4) :
    NextKeeps P s (execMessageDelivery a1 a2 a3 a4) := by
  unfold execMessageDelivery
  repeat' first
      | with_reducible assumption | with_reducible apply nextKeeps_next | with_reducible apply messageArrives_keeps
      | with_reducible exact hP _ (by decide) | with_reducible exact parts_in hP | with_reducible intro _

theorem execFareReturn_keeps {P : List Part} {s : State} (a1) {a2 : State} (hP : ∀ q ∈ ([.page .sd, .page .gc, .cores, .mesh, .fares, .sd, .ports] : List Part), q ∈ P) (h : Keeps P s a2) :
    NextKeeps P s (execFareReturn a1 a2) := by
  unfold execFareReturn
  repeat' first
      | with_reducible assumption | with_reducible apply nextKeeps_next | with_reducible apply arriveFare_keeps
      | with_reducible apply keeps_ite | with_reducible exact hP _ (by decide) | with_reducible exact parts_in hP | with_reducible intro _
      | split | fail_if_no_progress with_reducible refine put_fares_keeps _ (hP _ (by decide)) ?_

theorem lockParity_keeps {P : List Part} {s : State} {a1 : State} (a2) (hP : ∀ q ∈ ([.page .ml, .page .sd, .cores, .locks, .sd] : List Part), q ∈ P) (h : Keeps P s a1) :
    Keeps P s (lockParity a1 a2) := by
  unfold lockParity
  repeat' first
      | with_reducible assumption | with_reducible apply serveLock_keeps | with_reducible apply State.setLock_keeps
      | with_reducible apply raiseErr_keeps | with_reducible apply cntPreg_keeps | extract_lets | with_reducible exact hP _ (by decide)
      | with_reducible exact parts_in hP | with_reducible exact le_side (by omega) | with_reducible exact lt_side (by omega)
      | with_reducible exact off_small _ _ _ | with_reducible intro _ | dsimp +zetaDelta only

theorem execLockStatePe_keeps {P : List Part} {s : State} (a1) {a2 : State} (hP : ∀ q ∈ ([.page .ml, .page .sd, .cores, .locks, .sd] : List Part), q ∈ P) (h : Keeps P s a2) :
    NextKeeps P s (execLockStatePe a1 a2) := by
  unfold execLockStatePe
  repeat' first
      | with_reducible assumption | with_reducible apply nextKeeps_next | with_reducible apply lockParity_keeps
      | with_reducible exact hP _ (by decide) | with_reducible exact parts_in hP | with_reducible intro _

theorem forceFreeAct_keeps {P : List Part} {s : State} {a1 : State} (a2) (hP : ∀ q ∈ ([.page .ml, .page .sd, .cores, .locks, .sd] : List Part), q ∈ P) (h : Keeps P s a1) :
    Keeps P s (forceFreeAct a1 a2) := by
  unfold forceFreeAct
  repeat' first
      | with_reducible assumption | with_reducible apply serveLock_keeps | with_reducible apply State.setLock_keeps | extract_lets
      | with_reducible apply keeps_ite | with_reducible exact hP _ (by decide) | with_reducible exact parts_in hP | with_reducible intro _
      | split | dsimp +zetaDelta only

theorem forceBreakAct_keeps {P : List Part} {s : State} {a1 : State} (a2) (hP : ∀ q ∈ ([.page .ml, .page .sd, .cores, .locks, .sd] : List Part), q ∈ P) (h : Keeps P s a1) :
    Keeps P s (forceBreakAct a1 a2) := by
  unfold forceBreakAct
  repeat' first
      | with_reducible assumption | with_reducible apply breakLock_keeps | with_reducible apply keeps_ite
      | with_reducible exact hP _ (by decide) | with_reducible exact parts_in hP | with_reducible intro _ | split

theorem mlCmdWrite_keeps {P : List Part} {s : State} {a1 : State} (a2) (hP : ∀ q ∈ ([.page .ml, .page .sd, .staged, .cores, .locks, .sd] : List Part), q ∈ P) (h : Keeps P s a1) :
    Keeps P s (mlCmdWrite a1 a2) := by
  unfold mlCmdWrite
  repeat' first
      | with_reducible assumption | with_reducible apply forceBreakAct_keeps | with_reducible apply forceFreeAct_keeps
      | with_reducible apply pageWrite_keeps | with_reducible apply goDone_keeps | extract_lets | with_reducible apply keeps_ite
      | with_reducible exact hP _ (by decide) | with_reducible exact parts_in hP | with_reducible exact le_side (by omega)
      | with_reducible exact lt_side (by omega) | with_reducible exact off_small _ _ _ | with_reducible intro _ | split
      | dsimp +zetaDelta only

theorem execForceFree_keeps {P : List Part} {s : State} (a1) {a2 : State} (hP : ∀ q ∈ ([.page .ml, .page .sd, .staged, .cores, .locks, .sd] : List Part), q ∈ P) (h : Keeps P s a2) :
    NextKeeps P s (execForceFree a1 a2) := by
  unfold execForceFree
  repeat' first
      | with_reducible assumption | with_reducible apply nextKeeps_next | with_reducible apply mlCmdWrite_keeps
      | with_reducible exact hP _ (by decide) | with_reducible exact parts_in hP | with_reducible intro _

theorem execForceBreak_keeps {P : List Part} {s : State} (a1) {a2 : State} (hP : ∀ q ∈ ([.page .ml, .page .sd, .staged, .cores, .locks, .sd] : List Part), q ∈ P) (h : Keeps P s a2) :
    NextKeeps P s (execForceBreak a1 a2) := by
  unfold execForceBreak
  repeat' first
      | with_reducible assumption | with_reducible apply nextKeeps_next | with_reducible apply mlCmdWrite_keeps
      | with_reducible exact hP _ (by decide) | with_reducible exact parts_in hP | with_reducible intro _

theorem partCoreReset_keeps {P : List Part} {s : State} {a1 : State} (a2) (hP : ∀ q ∈ ([.page .sd, .page .gc, .cores, .mesh, .sd, .frz, .ports] : List Part), q ∈ P) (h : Keeps P s a1) :
    Keeps P s (partCoreReset a1 a2) := by
  unfold partCoreReset
  repeat' first
      | with_reducible assumption | with_reducible apply clearCore_keeps | with_reducible apply sdTouch_keeps
      | with_reducible apply clrPreg_keeps | with_reducible exact hP _ (by decide) | with_reducible exact parts_in hP
      | ((with_reducible refine page_in (c := .gc) (hP _ (by decide)) ?_) <;> exact rfl) | with_reducible exact le_side (by omega)
      | with_reducible exact lt_side (by omega) | with_reducible exact off_small _ _ _ | with_reducible intro _

theorem sdPartResetWrite_keeps {P : List Part} {s : State} {a1 : State} (a2) (hP : ∀ q ∈ ([.page .lw, .page .ep, .page .ml, .page .sd, .page .dc, .page .cl, .page .mc, .page .gc, .staged, .cores, .mesh, .locks, .sd, .clusters, .dm, .slices, .cxl, .frz, .ports, .scrubs] : List Part), q ∈ P) (h : Keeps P s a1) :
    Keeps P s (sdPartResetWrite a1 a2) := by
  unfold sdPartResetWrite
  repeat' first
      | with_reducible assumption | with_reducible apply partCoreReset_keeps | with_reducible apply resetMover_keeps
      | with_reducible apply loseLocks_keeps | with_reducible apply pageWriteGo_keeps | with_reducible apply logBoot_keeps | extract_lets
      | with_reducible apply keeps_foldl | with_reducible apply keeps_foldl1 | with_reducible exact hP _ (by decide)
      | with_reducible exact parts_in hP | with_reducible exact le_side (by omega) | with_reducible exact lt_side (by omega)
      | with_reducible exact off_small _ _ _ | with_reducible intro _ | dsimp +zetaDelta only

theorem execSdPartReset_keeps {P : List Part} {s : State} (a1) {a2 : State} (hP : ∀ q ∈ ([.page .lw, .page .ep, .page .ml, .page .sd, .page .dc, .page .cl, .page .mc, .page .gc, .staged, .cores, .mesh, .locks, .sd, .clusters, .dm, .slices, .cxl, .frz, .ports, .scrubs] : List Part), q ∈ P) (h : Keeps P s a2) :
    NextKeeps P s (execSdPartReset a1 a2) := by
  unfold execSdPartReset
  repeat' first
      | with_reducible assumption | with_reducible apply nextKeeps_next | with_reducible apply sdPartResetWrite_keeps
      | with_reducible exact hP _ (by decide) | with_reducible exact parts_in hP | with_reducible intro _

end Sys2Proof.Machine
end

