-- ==== Sys2Proof/Laws/KeepTimetable.lean ====
section
/-! SUPPORT. What the operations of Machine/Timetable.lean leave alone. -/

set_option Elab.async false

namespace Sys2Proof.Machine

open Sys2Proof

theorem unreachedCheck_keeps {P : List Part} {s : State} {a1 : State} (a2) (hP : ∀ q ∈ ([.tt] : List Part), q ∈ P) (h : Keeps P s a1) :
    Keeps P s (unreachedCheck a1 a2) := by
  unfold unreachedCheck
  repeat' first
      | with_reducible assumption | with_reducible apply setTtReg_keeps | extract_lets | with_reducible apply keeps_ite
      | with_reducible exact hP _ (by decide) | with_reducible exact parts_in hP | with_reducible intro _ | split | dsimp +zetaDelta only

theorem passEntry_keeps {P : List Part} {s : State} {a1 : State} (a2) (a3) (hP : ∀ q ∈ ([.cores] : List Part), q ∈ P) (h : Keeps P s a1) :
    Keeps P s (passEntry a1 a2 a3) := by
  unfold passEntry
  repeat' first
      | with_reducible assumption | with_reducible apply setTt_keeps | extract_lets | with_reducible apply keeps_ite
      | with_reducible exact hP _ (by decide) | with_reducible exact parts_in hP | with_reducible intro _ | split | dsimp +zetaDelta only

theorem takePlace_keeps {P : List Part} {s : State} {a1 : State} (a2) (a3) (hP : ∀ q ∈ ([.tt, .cores] : List Part), q ∈ P) (h : Keeps P s a1) :
    Keeps P s (takePlace a1 a2 a3) := by
  unfold takePlace
  repeat' first
      | with_reducible assumption | with_reducible apply passEntry_keeps | with_reducible apply setTt_keeps
      | with_reducible apply setTtReg_keeps | with_reducible apply when_keeps | extract_lets | with_reducible apply keeps_ite
      | with_reducible exact hP _ (by decide) | with_reducible exact parts_in hP | with_reducible intro _ | split | dsimp +zetaDelta only

theorem dispatch_keeps {P : List Part} {s : State} {a1 : State} (a2) (a3) (a4) (a5) {a6 : State → BitVec 128 → State} (ha6 : ∀ u e0, Keeps P s u → Keeps P s (a6 u e0)) (hP : ∀ q ∈ ([.tt, .cores] : List Part), q ∈ P) (h : Keeps P s a1) :
    Keeps P s (dispatch a1 a2 a3 a4 a5 a6) := by
  unfold dispatch
  repeat' first
      | with_reducible assumption | with_reducible apply ha6 | with_reducible apply takePlace_keeps | extract_lets
      | with_reducible apply keeps_ite | with_reducible exact hP _ (by decide) | with_reducible exact parts_in hP | with_reducible intro _
      | split | dsimp +zetaDelta only

theorem execTtNop_keeps {P : List Part} {s : State} (a1) (a2) {a3 : State} (hP : ∀ q ∈ ([.tt, .cores] : List Part), q ∈ P) (h : Keeps P s a3) :
    NextKeeps P s (execTtNop a1 a2 a3) := by
  unfold execTtNop
  repeat' first
      | with_reducible assumption | with_reducible apply nextKeeps_next | with_reducible apply dispatch_keeps
      | with_reducible exact hP _ (by decide) | with_reducible exact parts_in hP | with_reducible intro _

theorem execTtEvent_keeps {P : List Part} {s : State} (a1) (a2) {a3 : State} (hP : ∀ q ∈ ([.page .sd, .tt, .cores, .sd] : List Part), q ∈ P) (h : Keeps P s a3) :
    NextKeeps P s (execTtEvent a1 a2 a3) := by
  unfold execTtEvent
  repeat' first
      | with_reducible assumption | with_reducible apply nextKeeps_next | with_reducible apply dispatch_keeps
      | with_reducible apply setEvent_keeps | with_reducible exact hP _ (by decide) | with_reducible exact parts_in hP
      | with_reducible intro _

theorem ttStartAct_keeps {P : List Part} {s : State} {a1 : State} (a2) (a3) (hP : ∀ q ∈ ([.page .sd, .cores, .sd] : List Part), q ∈ P) (h : Keeps P s a1) :
    Keeps P s (ttStartAct a1 a2 a3) := by
  unfold ttStartAct
  repeat' first
      | with_reducible assumption | with_reducible apply startCore_keeps | with_reducible apply setTt_keeps
      | with_reducible exact hP _ (by decide) | with_reducible exact parts_in hP | with_reducible intro _ | split

theorem execTtStart_keeps {P : List Part} {s : State} (a1) (a2) {a3 : State} (hP : ∀ q ∈ ([.page .sd, .tt, .cores, .sd] : List Part), q ∈ P) (h : Keeps P s a3) :
    NextKeeps P s (execTtStart a1 a2 a3) := by
  unfold execTtStart
  repeat' first
      | with_reducible assumption | with_reducible apply nextKeeps_next | with_reducible apply ttStartAct_keeps
      | with_reducible apply dispatch_keeps | with_reducible exact hP _ (by decide) | with_reducible exact parts_in hP
      | with_reducible intro _

theorem ttSendAct_keeps {P : List Part} {s : State} {a1 : State} (a2) (a3) (a4) (a5) (hP : ∀ q ∈ ([.page .sd, .page .gc, .cores, .mesh, .locks, .sd, .ports] : List Part), q ∈ P) (h : Keeps P s a1) :
    Keeps P s (ttSendAct a1 a2 a3 a4 a5) := by
  unfold ttSendAct
  repeat' first
      | with_reducible assumption | with_reducible apply launch_keeps | with_reducible apply spendFare_keeps
      | with_reducible apply sendStatus_keeps | with_reducible apply haltLate_keeps | with_reducible apply noteUpset_keeps
      | with_reducible apply setTt_keeps | extract_lets | with_reducible apply keeps_ite | with_reducible exact hP _ (by decide)
      | with_reducible exact parts_in hP | with_reducible intro _ | split | dsimp +zetaDelta only

theorem execTtSend_keeps {P : List Part} {s : State} (a1) (a2) (a3) (a4) {a5 : State} (hP : ∀ q ∈ ([.page .sd, .page .gc, .tt, .cores, .mesh, .locks, .sd, .ports] : List Part), q ∈ P) (h : Keeps P s a5) :
    NextKeeps P s (execTtSend a1 a2 a3 a4 a5) := by
  unfold execTtSend
  repeat' first
      | with_reducible assumption | with_reducible apply nextKeeps_next | with_reducible apply ttSendAct_keeps
      | with_reducible apply dispatch_keeps | with_reducible exact hP _ (by decide) | with_reducible exact parts_in hP
      | with_reducible intro _

theorem execTtManifest_keeps {P : List Part} {s : State} (a1) (a2) (a3) (a4) {a5 : State} (hP : ∀ q ∈ ([.page .vt, .page .cl, .page .gc, .tt, .cores, .clusters] : List Part), q ∈ P) (h : Keeps P s a5) :
    NextKeeps P s (execTtManifest a1 a2 a3 a4 a5) := by
  unfold execTtManifest
  repeat' first
      | with_reducible assumption | with_reducible apply nextKeeps_next | with_reducible apply dispatch_keeps
      | with_reducible apply submitTimetable_keeps | with_reducible exact hP _ (by decide) | with_reducible exact parts_in hP
      | with_reducible intro _

theorem reportDeadline_keeps {P : List Part} {s : State} {a1 : State} (a2) (hP : ∀ q ∈ ([.fc] : List Part), q ∈ P) (h : Keeps P s a1) :
    Keeps P s (reportDeadline a1 a2) := by
  unfold reportDeadline
  repeat' first
      | with_reducible assumption | extract_lets | with_reducible intro _
      | fail_if_no_progress with_reducible refine put_fc_keeps _ (hP _ (by decide)) ?_ | dsimp +zetaDelta only

theorem deadlineMiss_keeps {P : List Part} {s : State} {a1 : State} (a2) (a3) (hP : ∀ q ∈ ([.page .sd, .tt, .cores, .sd, .fc] : List Part), q ∈ P) (h : Keeps P s a1) :
    Keeps P s (deadlineMiss a1 a2 a3) := by
  unfold deadlineMiss
  repeat' first
      | with_reducible assumption | with_reducible apply reportDeadline_keeps | with_reducible apply setEvent_keeps
      | with_reducible apply setTtReg_keeps | with_reducible exact hP _ (by decide) | with_reducible exact parts_in hP
      | with_reducible intro _

theorem execTtDeadlineBerth_keeps {P : List Part} {s : State} (a1) (a2) {a3 : State} (hP : ∀ q ∈ ([.page .sd, .tt, .cores, .sd, .fc] : List Part), q ∈ P) (h : Keeps P s a3) :
    NextKeeps P s (execTtDeadlineBerth a1 a2 a3) := by
  unfold execTtDeadlineBerth
  repeat' first
      | with_reducible assumption | with_reducible apply nextKeeps_next | with_reducible apply deadlineMiss_keeps
      | with_reducible apply dispatch_keeps | with_reducible apply keeps_ite | with_reducible exact hP _ (by decide)
      | with_reducible exact parts_in hP | with_reducible intro _ | split

theorem execTtDeadlineMark_keeps {P : List Part} {s : State} (a1) (a2) {a3 : State} (hP : ∀ q ∈ ([.page .sd, .tt, .cores, .sd, .fc] : List Part), q ∈ P) (h : Keeps P s a3) :
    NextKeeps P s (execTtDeadlineMark a1 a2 a3) := by
  unfold execTtDeadlineMark
  repeat' first
      | with_reducible assumption | with_reducible apply nextKeeps_next | with_reducible apply deadlineMiss_keeps
      | with_reducible apply dispatch_keeps | with_reducible apply keeps_ite | with_reducible exact hP _ (by decide)
      | with_reducible exact parts_in hP | with_reducible intro _ | split

theorem ttLoadAct_keeps {P : List Part} {s : State} {a1 : State} (a2) (a3) (hP : ∀ q ∈ ([.page .cl, .cores] : List Part), q ∈ P) (h : Keeps P s a1) :
    Keeps P s (ttLoadAct a1 a2 a3) := by
  unfold ttLoadAct
  repeat' first
      | with_reducible assumption | with_reducible apply heavyLoad_keeps | with_reducible apply setTt_keeps
      | with_reducible exact hP _ (by decide) | with_reducible exact parts_in hP | with_reducible intro _

theorem execTtLoad_keeps {P : List Part} {s : State} (a1) (a2) {a3 : State} (hP : ∀ q ∈ ([.page .cl, .tt, .cores] : List Part), q ∈ P) (h : Keeps P s a3) :
    NextKeeps P s (execTtLoad a1 a2 a3) := by
  unfold execTtLoad
  repeat' first
      | with_reducible assumption | with_reducible apply nextKeeps_next | with_reducible apply ttLoadAct_keeps
      | with_reducible apply dispatch_keeps | with_reducible exact hP _ (by decide) | with_reducible exact parts_in hP
      | with_reducible intro _

theorem execTtQuietOn_keeps {P : List Part} {s : State} (a1) (a2) {a3 : State} (hP : ∀ q ∈ ([.tt, .cores] : List Part), q ∈ P) (h : Keeps P s a3) :
    NextKeeps P s (execTtQuietOn a1 a2 a3) := by
  unfold execTtQuietOn
  repeat' first
      | with_reducible assumption | with_reducible apply nextKeeps_next | with_reducible apply dispatch_keeps
      | with_reducible apply setTt_keeps | with_reducible exact hP _ (by decide) | with_reducible exact parts_in hP | with_reducible intro _

theorem execTtQuietOff_keeps {P : List Part} {s : State} (a1) (a2) {a3 : State} (hP : ∀ q ∈ ([.tt, .cores] : List Part), q ∈ P) (h : Keeps P s a3) :
    NextKeeps P s (execTtQuietOff a1 a2 a3) := by
  unfold execTtQuietOff
  repeat' first
      | with_reducible assumption | with_reducible apply nextKeeps_next | with_reducible apply dispatch_keeps
      | with_reducible apply setTt_keeps | with_reducible exact hP _ (by decide) | with_reducible exact parts_in hP | with_reducible intro _

theorem ttTrapAct_keeps {P : List Part} {s : State} {a1 : State} (a2) (a3) (hP : ∀ q ∈ ([.page .sd, .page .gc, .cores, .locks, .sd] : List Part), q ∈ P) (h : Keeps P s a1) :
    Keeps P s (ttTrapAct a1 a2 a3) := by
  unfold ttTrapAct
  repeat' first
      | with_reducible assumption | with_reducible apply haltCore_keeps | with_reducible apply keeps_ite
      | with_reducible exact hP _ (by decide) | with_reducible exact parts_in hP | with_reducible intro _ | split

theorem execTtTrap_keeps {P : List Part} {s : State} (a1) (a2) {a3 : State} (hP : ∀ q ∈ ([.page .sd, .page .gc, .tt, .cores, .locks, .sd] : List Part), q ∈ P) (h : Keeps P s a3) :
    NextKeeps P s (execTtTrap a1 a2 a3) := by
  unfold execTtTrap
  repeat' first
      | with_reducible assumption | with_reducible apply nextKeeps_next | with_reducible apply ttTrapAct_keeps
      | with_reducible apply dispatch_keeps | with_reducible exact hP _ (by decide) | with_reducible exact parts_in hP
      | with_reducible intro _

theorem execTtBadact_keeps {P : List Part} {s : State} (a1) (a2) {a3 : State} (hP : ∀ q ∈ ([.tt, .cores] : List Part), q ∈ P) (h : Keeps P s a3) :
    NextKeeps P s (execTtBadact a1 a2 a3) := by
  unfold execTtBadact
  repeat' first
      | with_reducible assumption | with_reducible apply nextKeeps_next | with_reducible apply passEntry_keeps
      | with_reducible apply setTtReg_keeps | extract_lets | with_reducible apply keeps_ite | with_reducible exact hP _ (by decide)
      | with_reducible exact parts_in hP | with_reducible intro _ | split | dsimp +zetaDelta only

theorem ttCtrlWrite_keeps {P : List Part} {s : State} {a1 : State} (a2) (a3) (hP : ∀ q ∈ ([.tt, .cores] : List Part), q ∈ P) (h : Keeps P s a1) :
    Keeps P s (ttCtrlWrite a1 a2 a3) := by
  unfold ttCtrlWrite
  repeat' first
      | with_reducible assumption | with_reducible apply setTt_keeps | with_reducible apply setTtReg_keeps | extract_lets
      | with_reducible apply keeps_ite | with_reducible exact hP _ (by decide) | with_reducible exact parts_in hP | with_reducible intro _
      | split | dsimp +zetaDelta only

theorem execTtArm_keeps {P : List Part} {s : State} (a1) (a2) {a3 : State} (hP : ∀ q ∈ ([.tt, .cores] : List Part), q ∈ P) (h : Keeps P s a3) :
    NextKeeps P s (execTtArm a1 a2 a3) := by
  unfold execTtArm
  repeat' first
      | with_reducible assumption | with_reducible apply nextKeeps_next | with_reducible apply ttCtrlWrite_keeps
      | with_reducible exact hP _ (by decide) | with_reducible exact parts_in hP | with_reducible intro _

theorem execTtEnable_keeps {P : List Part} {s : State} (a1) (a2) {a3 : State} (hP : ∀ q ∈ ([.tt, .cores] : List Part), q ∈ P) (h : Keeps P s a3) :
    NextKeeps P s (execTtEnable a1 a2 a3) := by
  unfold execTtEnable
  repeat' first
      | with_reducible assumption | with_reducible apply nextKeeps_next | with_reducible apply ttCtrlWrite_keeps
      | with_reducible exact hP _ (by decide) | with_reducible exact parts_in hP | with_reducible intro _

theorem ttWindowWrite_keeps {P : List Part} {s : State} {a1 : State} (a2) (a3) (a4) (hP : ∀ q ∈ ([.tt, .staged, .cores] : List Part), q ∈ P) (h : Keeps P s a1) :
    Keeps P s (ttWindowWrite a1 a2 a3 a4) := by
  unfold ttWindowWrite
  repeat' first
      | with_reducible assumption | with_reducible apply ttCtrlWrite_keeps | with_reducible apply setTtReg_keeps | extract_lets
      | with_reducible apply keeps_foldl | with_reducible apply keeps_foldl1 | with_reducible apply keeps_ite
      | with_reducible exact hP _ (by decide) | with_reducible exact parts_in hP | with_reducible intro _ | split
      | fail_if_no_progress with_reducible refine put_staged_keeps _ (hP _ (by decide)) ?_ | dsimp +zetaDelta only

theorem execTtBankWrite_keeps {P : List Part} {s : State} (a1) (a2) (a3) {a4 : State} (hP : ∀ q ∈ ([.tt, .staged, .cores] : List Part), q ∈ P) (h : Keeps P s a4) :
    NextKeeps P s (execTtBankWrite a1 a2 a3 a4) := by
  unfold execTtBankWrite
  repeat' first
      | with_reducible assumption | with_reducible apply nextKeeps_next | with_reducible apply ttWindowWrite_keeps
      | with_reducible apply keeps_ite | with_reducible exact hP _ (by decide) | with_reducible exact parts_in hP | with_reducible intro _
      | split

end Sys2Proof.Machine
end

