-- ==== Sys2Proof/Laws/KeepTide.lean ====
section
/-! SUPPORT. What the operations of Machine/Tide.lean leave alone. -/

set_option Elab.async false

namespace Sys2Proof.Machine

open Sys2Proof

theorem lenSettled_keeps {P : List Part} {s : State} {a1 : State} (hP : ∀ q ∈ ([.tt] : List Part), q ∈ P) (h : Keeps P s a1) :
    Keeps P s (lenSettled a1) := by
  unfold lenSettled
  repeat' first
      | with_reducible assumption | with_reducible apply unreachedCheck_keeps | with_reducible apply keeps_foldl
      | with_reducible apply keeps_foldl1 | with_reducible exact hP _ (by decide) | with_reducible exact parts_in hP
      | with_reducible intro _

theorem tideMissed_keeps {P : List Part} {s : State} {a1 : State} (a2) (hP : ∀ q ∈ ([.page .td, .tt, .tide, .boot] : List Part), q ∈ P) (h : Keeps P s a1) :
    Keeps P s (tideMissed a1 a2) := by
  unfold tideMissed
  repeat' first
      | with_reducible assumption | with_reducible apply lenSettled_keeps | with_reducible apply setMode_keeps
      | with_reducible apply raiseErrs_keeps | with_reducible apply cntPreg_keeps | with_reducible apply setPreg_keeps | extract_lets
      | with_reducible apply keeps_ite | with_reducible exact hP _ (by decide) | with_reducible exact parts_in hP
      | with_reducible exact le_side (by omega) | with_reducible exact lt_side (by omega) | with_reducible exact off_small _ _ _
      | with_reducible intro _ | split | fail_if_no_progress with_reducible refine put_tide_keeps _ (hP _ (by decide)) ?_
      | dsimp +zetaDelta only

theorem useOffset_keeps {P : List Part} {s : State} {a1 : State} (a2) (hP : ∀ q ∈ ([.page .td, .tide] : List Part), q ∈ P) (h : Keeps P s a1) :
    Keeps P s (useOffset a1 a2) := by
  unfold useOffset
  repeat' first
      | with_reducible assumption | with_reducible apply setPreg_keeps | with_reducible exact hP _ (by decide)
      | with_reducible exact parts_in hP | with_reducible exact le_side (by omega) | with_reducible exact lt_side (by omega)
      | with_reducible exact off_small _ _ _ | with_reducible intro _
      | fail_if_no_progress with_reducible refine put_tide_keeps _ (hP _ (by decide)) ?_

theorem relockOffset_keeps {P : List Part} {s : State} {a1 : State} (a2) (hP : ∀ q ∈ ([.page .td, .tide] : List Part), q ∈ P) (h : Keeps P s a1) :
    Keeps P s (relockOffset a1 a2) := by
  unfold relockOffset
  repeat' first
      | with_reducible assumption | with_reducible apply setPreg_keeps | with_reducible exact hP _ (by decide)
      | with_reducible exact parts_in hP | with_reducible exact le_side (by omega) | with_reducible exact lt_side (by omega)
      | with_reducible exact off_small _ _ _ | with_reducible intro _
      | fail_if_no_progress with_reducible refine put_tide_keeps _ (hP _ (by decide)) ?_

theorem takeLen_keeps {P : List Part} {s : State} {a1 : State} (a2) (hP : ∀ q ∈ ([.tt, .tide] : List Part), q ∈ P) (h : Keeps P s a1) :
    Keeps P s (takeLen a1 a2) := by
  unfold takeLen
  repeat' first
      | with_reducible assumption | with_reducible apply lenSettled_keeps | with_reducible exact hP _ (by decide)
      | with_reducible exact parts_in hP | with_reducible intro _
      | fail_if_no_progress with_reducible refine put_tide_keeps _ (hP _ (by decide)) ?_

theorem adoptFrame_keeps {P : List Part} {s : State} {a1 : State} (a2) (a3) (hP : ∀ q ∈ ([.tide] : List Part), q ∈ P) (h : Keeps P s a1) :
    Keeps P s (adoptFrame a1 a2 a3) := by
  unfold adoptFrame
  repeat' first
      | with_reducible assumption | extract_lets | with_reducible intro _
      | fail_if_no_progress with_reducible refine put_tide_keeps _ (hP _ (by decide)) ?_ | dsimp +zetaDelta only

theorem validFrame_keeps {P : List Part} {s : State} {a1 : State} (a2) (a3) (hP : ∀ q ∈ ([.page .td, .tt, .tide, .boot] : List Part), q ∈ P) (h : Keeps P s a1) :
    Keeps P s (validFrame a1 a2 a3) := by
  unfold validFrame
  repeat' first
      | with_reducible assumption | with_reducible apply adoptFrame_keeps | with_reducible apply takeLen_keeps
      | with_reducible apply relockOffset_keeps | with_reducible apply useOffset_keeps | with_reducible apply tideMissed_keeps
      | with_reducible apply setMode_keeps | with_reducible apply cntPreg_keeps | with_reducible apply setPreg_keeps | extract_lets
      | with_reducible apply keeps_ite | with_reducible exact hP _ (by decide) | with_reducible exact parts_in hP
      | with_reducible exact le_side (by omega) | with_reducible exact lt_side (by omega) | with_reducible exact off_small _ _ _
      | with_reducible intro _ | split | fail_if_no_progress with_reducible refine put_tide_keeps _ (hP _ (by decide)) ?_
      | dsimp +zetaDelta only

theorem secondSource_keeps {P : List Part} {s : State} {a1 : State} (a2) (a3) (hP : ∀ q ∈ ([.page .td] : List Part), q ∈ P) (h : Keeps P s a1) :
    Keeps P s (secondSource a1 a2 a3) := by
  unfold secondSource
  repeat' first
      | with_reducible assumption | with_reducible apply raiseErr_keeps | with_reducible apply setPreg_keeps
      | with_reducible exact hP _ (by decide) | with_reducible exact parts_in hP | with_reducible exact le_side (by omega)
      | with_reducible exact lt_side (by omega) | with_reducible exact off_small _ _ _ | with_reducible intro _

theorem frameOf_keeps {P : List Part} {s : State} {a1 : State} (a2) (a3) (hP : ∀ q ∈ ([.page .td, .tt, .tide, .boot] : List Part), q ∈ P) (h : Keeps P s a1) :
    Keeps P s (frameOf a1 a2 a3) := by
  unfold frameOf
  repeat' first
      | with_reducible assumption | with_reducible apply validFrame_keeps | with_reducible apply tideMissed_keeps | extract_lets
      | with_reducible apply keeps_ite | with_reducible exact hP _ (by decide) | with_reducible exact parts_in hP | with_reducible intro _
      | split | dsimp +zetaDelta only

theorem tidePins_keeps {P : List Part} {s : State} {a1 : State} (a2) (a3) (hP : ∀ q ∈ ([.page .td, .tt, .tide, .boot] : List Part), q ∈ P) (h : Keeps P s a1) :
    Keeps P s (tidePins a1 a2 a3) := by
  unfold tidePins
  repeat' first
      | with_reducible assumption | with_reducible apply frameOf_keeps | with_reducible apply secondSource_keeps
      | with_reducible apply keeps_ite | with_reducible exact hP _ (by decide) | with_reducible exact parts_in hP | with_reducible intro _
      | split

theorem execTideFrame_keeps {P : List Part} {s : State} (a1) (a2) {a3 : State} (hP : ∀ q ∈ ([.page .td, .tt, .tide, .boot] : List Part), q ∈ P) (h : Keeps P s a3) :
    NextKeeps P s (execTideFrame a1 a2 a3) := by
  unfold execTideFrame
  repeat' first
      | with_reducible assumption | with_reducible apply nextKeeps_next | with_reducible apply tidePins_keeps
      | with_reducible exact hP _ (by decide) | with_reducible exact parts_in hP | with_reducible intro _

theorem tideOnPort_keeps {P : List Part} {s : State} {a1 : State} (a2) (a3) (a4) (hP : ∀ q ∈ ([.page .td, .tt, .tide, .boot] : List Part), q ∈ P) (h : Keeps P s a1) :
    Keeps P s (tideOnPort a1 a2 a3 a4) := by
  unfold tideOnPort
  repeat' first
      | with_reducible assumption | with_reducible apply secondSource_keeps | with_reducible apply validFrame_keeps
      | with_reducible apply tideMissed_keeps | extract_lets | with_reducible apply keeps_ite | with_reducible exact hP _ (by decide)
      | with_reducible exact parts_in hP | with_reducible intro _ | split | dsimp +zetaDelta only

theorem execXlTide_keeps {P : List Part} {s : State} (a1) (a2) (a3) {a4 : State} (hP : ∀ q ∈ ([.page .td, .tt, .tide, .boot] : List Part), q ∈ P) (h : Keeps P s a4) :
    NextKeeps P s (execXlTide a1 a2 a3 a4) := by
  unfold execXlTide
  repeat' first
      | with_reducible assumption | with_reducible apply nextKeeps_next | with_reducible apply tideOnPort_keeps
      | with_reducible exact hP _ (by decide) | with_reducible exact parts_in hP | with_reducible intro _

theorem execTideMiss_keeps {P : List Part} {s : State} {a1 : State} (hP : ∀ q ∈ ([.page .td, .tt, .tide, .boot] : List Part), q ∈ P) (h : Keeps P s a1) :
    NextKeeps P s (execTideMiss a1) := by
  unfold execTideMiss
  repeat' first
      | with_reducible assumption | with_reducible apply nextKeeps_next | with_reducible apply tideMissed_keeps
      | with_reducible apply keeps_ite | with_reducible exact hP _ (by decide) | with_reducible exact parts_in hP | with_reducible intro _
      | split

theorem holdOutcome_keeps {P : List Part} {s : State} {a1 : State} (hP : ∀ q ∈ ([.page .td, .tide, .boot] : List Part), q ∈ P) (h : Keeps P s a1) :
    Keeps P s (holdOutcome a1) := by
  unfold holdOutcome
  repeat' first
      | with_reducible assumption | with_reducible apply setMode_keeps | with_reducible apply raiseErr_keeps | extract_lets
      | with_reducible apply keeps_ite | with_reducible exact hP _ (by decide) | with_reducible exact parts_in hP
      | with_reducible exact le_side (by omega) | with_reducible exact lt_side (by omega) | with_reducible exact off_small _ _ _
      | with_reducible intro _ | split | fail_if_no_progress with_reducible refine put_tide_keeps _ (hP _ (by decide)) ?_
      | dsimp +zetaDelta only

theorem execHoldExpired_keeps {P : List Part} {s : State} {a1 : State} (hP : ∀ q ∈ ([.page .td, .tide, .boot] : List Part), q ∈ P) (h : Keeps P s a1) :
    NextKeeps P s (execHoldExpired a1) := by
  unfold execHoldExpired
  repeat' first
      | with_reducible assumption | with_reducible apply nextKeeps_next | with_reducible apply holdOutcome_keeps
      | with_reducible apply keeps_ite | with_reducible exact hP _ (by decide) | with_reducible exact parts_in hP | with_reducible intro _
      | split

theorem execRefLoss_keeps {P : List Part} {s : State} {a1 : State} (hP : ∀ q ∈ ([.page .td, .tide] : List Part), q ∈ P) (h : Keeps P s a1) :
    NextKeeps P s (execRefLoss a1) := by
  unfold execRefLoss
  repeat' first
      | with_reducible assumption | with_reducible apply nextKeeps_next | with_reducible apply raiseErr_keeps
      | with_reducible apply keeps_ite | with_reducible exact hP _ (by decide) | with_reducible exact parts_in hP
      | with_reducible exact le_side (by omega) | with_reducible exact lt_side (by omega) | with_reducible exact off_small _ _ _
      | with_reducible intro _ | split | fail_if_no_progress with_reducible refine put_tide_keeps _ (hP _ (by decide)) ?_

theorem execRefOk_keeps {P : List Part} {s : State} {a1 : State} (hP : ∀ q ∈ ([.tide] : List Part), q ∈ P) (h : Keeps P s a1) :
    NextKeeps P s (execRefOk a1) := by
  unfold execRefOk
  repeat' first
      | with_reducible assumption | with_reducible apply nextKeeps_next | with_reducible intro _
      | fail_if_no_progress with_reducible refine put_tide_keeps _ (hP _ (by decide)) ?_

theorem tideStart_keeps {P : List Part} {s : State} {a1 : State} (a2) (hP : ∀ q ∈ ([.page .td, .tide, .boot] : List Part), q ∈ P) (h : Keeps P s a1) :
    Keeps P s (tideStart a1 a2) := by
  unfold tideStart
  repeat' first
      | with_reducible assumption | with_reducible apply setMode_keeps | with_reducible apply raiseErr_keeps
      | with_reducible apply rejectEnable_keeps | extract_lets | with_reducible apply keeps_ite | with_reducible exact hP _ (by decide)
      | with_reducible exact parts_in hP | with_reducible exact le_side (by omega) | with_reducible exact lt_side (by omega)
      | with_reducible exact off_small _ _ _ | with_reducible intro _ | split
      | fail_if_no_progress with_reducible refine put_tide_keeps _ (hP _ (by decide)) ?_ | dsimp +zetaDelta only

theorem tideStop_keeps {P : List Part} {s : State} {a1 : State} (hP : ∀ q ∈ ([.tide, .boot] : List Part), q ∈ P) (h : Keeps P s a1) :
    Keeps P s (tideStop a1) := by
  unfold tideStop
  repeat' first
      | with_reducible assumption | with_reducible apply setMode_keeps | with_reducible exact hP _ (by decide)
      | with_reducible exact parts_in hP | with_reducible intro _
      | fail_if_no_progress with_reducible refine put_tide_keeps _ (hP _ (by decide)) ?_

theorem tdCtrlEnable_keeps {P : List Part} {s : State} {a1 : State} (a2) (hP : ∀ q ∈ ([.page .td, .staged, .tide, .boot] : List Part), q ∈ P) (h : Keeps P s a1) :
    Keeps P s (tdCtrlEnable a1 a2) := by
  unfold tdCtrlEnable
  repeat' first
      | with_reducible assumption | with_reducible apply tideStop_keeps | with_reducible apply tideStart_keeps
      | with_reducible apply pageWrite_keeps | extract_lets | with_reducible apply keeps_ite | with_reducible exact hP _ (by decide)
      | with_reducible exact parts_in hP | with_reducible exact le_side (by omega) | with_reducible exact lt_side (by omega)
      | with_reducible exact off_small _ _ _ | with_reducible intro _ | split | dsimp +zetaDelta only

theorem execTdEnable_keeps {P : List Part} {s : State} (a1) {a2 : State} (hP : ∀ q ∈ ([.page .td, .staged, .tide, .boot] : List Part), q ∈ P) (h : Keeps P s a2) :
    NextKeeps P s (execTdEnable a1 a2) := by
  unfold execTdEnable
  repeat' first
      | with_reducible assumption | with_reducible apply nextKeeps_next | with_reducible apply tdCtrlEnable_keeps
      | with_reducible exact hP _ (by decide) | with_reducible exact parts_in hP | with_reducible intro _

theorem relockAct_keeps {P : List Part} {s : State} {a1 : State} (hP : ∀ q ∈ ([.tide, .boot] : List Part), q ∈ P) (h : Keeps P s a1) :
    Keeps P s (relockAct a1) := by
  unfold relockAct
  repeat' first
      | with_reducible assumption | with_reducible apply setMode_keeps | with_reducible exact hP _ (by decide)
      | with_reducible exact parts_in hP | with_reducible intro _ | split
      | fail_if_no_progress with_reducible refine put_tide_keeps _ (hP _ (by decide)) ?_

theorem tdCtrlWrite_keeps {P : List Part} {s : State} {a1 : State} (a2) (hP : ∀ q ∈ ([.page .td, .staged, .tide, .boot] : List Part), q ∈ P) (h : Keeps P s a1) :
    Keeps P s (tdCtrlWrite a1 a2) := by
  unfold tdCtrlWrite
  repeat' first
      | with_reducible assumption | with_reducible apply relockAct_keeps | with_reducible apply pageWrite_keeps
      | with_reducible apply goDone_keeps | extract_lets | with_reducible apply keeps_ite | with_reducible exact hP _ (by decide)
      | with_reducible exact parts_in hP | with_reducible exact le_side (by omega) | with_reducible exact lt_side (by omega)
      | with_reducible exact off_small _ _ _ | with_reducible intro _ | split
      | fail_if_no_progress with_reducible refine put_tide_keeps _ (hP _ (by decide)) ?_ | dsimp +zetaDelta only

theorem execRelock_keeps {P : List Part} {s : State} (a1) {a2 : State} (hP : ∀ q ∈ ([.page .td, .staged, .tide, .boot] : List Part), q ∈ P) (h : Keeps P s a2) :
    NextKeeps P s (execRelock a1 a2) := by
  unfold execRelock
  repeat' first
      | with_reducible assumption | with_reducible apply nextKeeps_next | with_reducible apply tdCtrlWrite_keeps
      | with_reducible exact hP _ (by decide) | with_reducible exact parts_in hP | with_reducible intro _

theorem execTdResume_keeps {P : List Part} {s : State} (a1) {a2 : State} (hP : ∀ q ∈ ([.page .td, .staged, .tide, .boot] : List Part), q ∈ P) (h : Keeps P s a2) :
    NextKeeps P s (execTdResume a1 a2) := by
  unfold execTdResume
  repeat' first
      | with_reducible assumption | with_reducible apply nextKeeps_next | with_reducible apply tdCtrlWrite_keeps
      | with_reducible exact hP _ (by decide) | with_reducible exact parts_in hP | with_reducible intro _

theorem tdLenWrite_keeps {P : List Part} {s : State} {a1 : State} (a2) (a3) (hP : ∀ q ∈ ([.page .td, .staged, .tide] : List Part), q ∈ P) (h : Keeps P s a1) :
    Keeps P s (tdLenWrite a1 a2 a3) := by
  unfold tdLenWrite
  repeat' first
      | with_reducible assumption | with_reducible apply pageWrite_keeps | with_reducible apply raiseErr_keeps | extract_lets
      | with_reducible apply keeps_ite | with_reducible exact hP _ (by decide) | with_reducible exact parts_in hP
      | with_reducible exact le_side (by omega) | with_reducible exact lt_side (by omega) | with_reducible exact off_small _ _ _
      | with_reducible intro _ | split | fail_if_no_progress with_reducible refine put_tide_keeps _ (hP _ (by decide)) ?_
      | dsimp +zetaDelta only

theorem execTdLenNextWrite_keeps {P : List Part} {s : State} (a1) (a2) {a3 : State} (hP : ∀ q ∈ ([.page .td, .staged, .tide] : List Part), q ∈ P) (h : Keeps P s a3) :
    NextKeeps P s (execTdLenNextWrite a1 a2 a3) := by
  unfold execTdLenNextWrite
  repeat' first
      | with_reducible assumption | with_reducible apply nextKeeps_next | with_reducible apply tdLenWrite_keeps
      | with_reducible exact hP _ (by decide) | with_reducible exact parts_in hP | with_reducible intro _

theorem tdWinWrite_keeps {P : List Part} {s : State} {a1 : State} (a2) (hP : ∀ q ∈ ([.page .td, .staged] : List Part), q ∈ P) (h : Keeps P s a1) :
    Keeps P s (tdWinWrite a1 a2) := by
  unfold tdWinWrite
  repeat' first
      | with_reducible assumption | with_reducible apply pageWrite_keeps | with_reducible apply raiseErr_keeps | extract_lets
      | with_reducible apply keeps_ite | with_reducible exact hP _ (by decide) | with_reducible exact parts_in hP
      | with_reducible exact le_side (by omega) | with_reducible exact lt_side (by omega) | with_reducible exact off_small _ _ _
      | with_reducible intro _ | split | dsimp +zetaDelta only

theorem execTdWinWrite_keeps {P : List Part} {s : State} (a1) {a2 : State} (hP : ∀ q ∈ ([.page .td, .staged] : List Part), q ∈ P) (h : Keeps P s a2) :
    NextKeeps P s (execTdWinWrite a1 a2) := by
  unfold execTdWinWrite
  repeat' first
      | with_reducible assumption | with_reducible apply nextKeeps_next | with_reducible apply tdWinWrite_keeps
      | with_reducible exact hP _ (by decide) | with_reducible exact parts_in hP | with_reducible intro _

end Sys2Proof.Machine
end

