-- ==== Sys2Proof/Laws/KeepControl.lean ====
section
/-! SUPPORT. What the operations of Machine/Control.lean leave alone. -/

set_option Elab.async false

namespace Sys2Proof.Machine

open Sys2Proof

theorem bistWays_small (s : State) (p : Page) : (bistWays s p).1 < 0x1000 := by
  unfold bistWays
  split
  all_goals exact (by omega)

theorem resetPairs_keeps {P : List Part} {s : State} {a1 : State} (a2) (hP : ∀ q ∈ ([.staged, .captured] : List Part), q ∈ P) (h : Keeps P s a1) :
    Keeps P s (resetPairs a1 a2) := by
  unfold resetPairs
  repeat' first
      | with_reducible assumption | extract_lets | with_reducible intro _
      | fail_if_no_progress with_reducible refine put_captured_keeps _ (hP _ (by decide)) ?_
      | fail_if_no_progress with_reducible refine put_staged_keeps _ (hP _ (by decide)) ?_
      | fail_if_no_progress refine keeps_mk ?_ (Stays.mk fun q hq => by (cases q <;> first | rfl | exact ⟨rfl, rfl⟩ | exact fun _ _ _ _ _ _ => rfl | exact fun _ _ _ => rfl | exact absurd (hP _ (by decide)) hq))
      | dsimp +zetaDelta only

theorem clearCommon_keeps {P : List Part} {s t : State} (p) (hp : Part.page (classOf p) ∈ P) (h : Keeps P s t) : Keeps P s (clearCommon t p) := by
  simp only [clearCommon, List.foldl_cons, List.foldl_nil]
  exact updateInta_keeps (setPreg_keeps _ _ _ (by omega) hp (setPreg_keeps _ _ _ (by omega) hp (setPreg_keeps _ _ _ (by omega) hp (setPreg_keeps _ _ _ (by omega) hp (setPreg_keeps _ _ _ (by omega) hp (setPreg_keeps _ _ _ (by omega) hp (setPreg_keeps _ _ _ (by omega) hp h)))))))

theorem resetTables_keeps {P : List Part} {s : State} {a1 : State} (hP : ∀ q ∈ ([.page .lw, .page .ep, .page .dc, .page .mc, .clusters, .mailboxes, .ctxs, .drains, .dm, .slices, .cxl, .frz, .scrubs] : List Part), q ∈ P) (h : Keeps P s a1) :
    Keeps P s (resetTables a1) := by
  unfold resetTables
  repeat' first
      | with_reducible assumption | with_reducible apply endTaken_keeps | extract_lets | with_reducible apply keeps_foldl
      | with_reducible apply keeps_foldl1 | with_reducible exact hP _ (by decide) | with_reducible exact parts_in hP
      | with_reducible intro _ | split | fail_if_no_progress with_reducible refine put_drains_keeps _ (hP _ (by decide)) ?_
      | fail_if_no_progress with_reducible refine put_ctxs_keeps _ (hP _ (by decide)) ?_
      | fail_if_no_progress refine keeps_mk ?_ (Stays.mk fun q hq => by (cases q <;> first | rfl | exact ⟨rfl, rfl⟩ | exact fun _ _ _ _ _ _ => rfl | exact fun _ _ _ => rfl | exact absurd (hP _ (by decide)) hq))
      | dsimp +zetaDelta only

theorem endAcquires_keeps {P : List Part} {s : State} {a1 : State} (a2) (hP : ∀ q ∈ ([.page .sd, .cores, .sd] : List Part), q ∈ P) (h : Keeps P s a1) :
    Keeps P s (endAcquires a1 a2) := by
  unfold endAcquires
  repeat' first
      | with_reducible assumption | with_reducible apply endWait_keeps | with_reducible apply keeps_foldl
      | with_reducible apply keeps_foldl1 | with_reducible exact hP _ (by decide) | with_reducible exact parts_in hP
      | with_reducible intro _ | split

theorem resetMailboxes_keeps {P : List Part} {s : State} {a1 : State} (hP : ∀ q ∈ ([.mailboxes] : List Part), q ∈ P) (h : Keeps P s a1) :
    Keeps P s (resetMailboxes a1) := by
  unfold resetMailboxes
  repeat' first
      | with_reducible assumption | with_reducible intro _
      | fail_if_no_progress with_reducible refine put_mailboxes_keeps _ (hP _ (by decide)) ?_

theorem dropMove_keeps {P : List Part} {s : State} {a1 : State} (hP : ∀ q ∈ ([.page .lw, .page .ep, .page .dc, .page .mc, .clusters, .dm, .slices, .lw, .cxl, .frz, .scrubs] : List Part), q ∈ P) (h : Keeps P s a1) :
    Keeps P s (dropMove a1) := by
  unfold dropMove
  repeat' first
      | with_reducible assumption | with_reducible apply hostMem_keeps | extract_lets | with_reducible apply keeps_foldl
      | with_reducible apply keeps_foldl1 | with_reducible exact hP _ (by decide) | with_reducible exact parts_in hP
      | with_reducible intro _ | fail_if_no_progress with_reducible refine put_lw_keeps _ (hP _ (by decide)) ?_ | dsimp +zetaDelta only

theorem resetInside_keeps {P : List Part} {s : State} {a1 : State} (a2) (hP : ∀ q ∈ ([.page .lw, .page .ep, .page .ml, .page .sd, .page .dc, .page .cl, .page .mc, .page .gc, .tide, .cores, .mesh, .locks, .sd, .clusters, .mailboxes, .xb, .ctxs, .drains, .dm, .slices, .lw, .cxl, .frz, .ports, .eqs, .scrubs, .pl] : List Part), q ∈ P) (h : Keeps P s a1) :
    Keeps P s (resetInside a1 a2) := by
  unfold resetInside
  repeat' first
      | with_reducible assumption | with_reducible apply dropMove_keeps | with_reducible apply resetMailboxes_keeps
      | with_reducible apply endAcquires_keeps | with_reducible apply resetTables_keeps | with_reducible apply resetMover_keeps
      | with_reducible apply resetCore_keeps | with_reducible apply State.setCore_keeps | with_reducible apply State.setPort_keeps
      | with_reducible apply State.setSlice_keeps | with_reducible apply State.setCl_keeps | extract_lets | with_reducible apply keeps_foldl
      | with_reducible apply keeps_foldl1 | with_reducible apply keeps_ite | with_reducible exact hP _ (by decide)
      | with_reducible exact parts_in hP | with_reducible intro _ | split
      | fail_if_no_progress with_reducible refine put_pl_keeps _ (hP _ (by decide)) ?_
      | fail_if_no_progress with_reducible refine put_sdArmed_keeps _ (hP _ (by decide)) ?_
      | fail_if_no_progress with_reducible refine put_sdChanged_keeps _ (hP _ (by decide)) ?_
      | fail_if_no_progress with_reducible refine put_locks_keeps _ (hP _ (by decide)) ?_
      | fail_if_no_progress with_reducible refine put_cxl_keeps _ (hP _ (by decide)) ?_
      | fail_if_no_progress with_reducible refine put_xb_keeps _ (hP _ (by decide)) ?_
      | fail_if_no_progress with_reducible refine put_scrubs_keeps _ (hP _ (by decide)) ?_
      | fail_if_no_progress with_reducible refine put_eqs_keeps _ (hP _ (by decide)) ?_
      | fail_if_no_progress with_reducible refine put_tide_keeps _ (hP _ (by decide)) ?_
      | fail_if_no_progress refine keeps_mk ?_ (Stays.mk fun q hq => by (cases q <;> first | rfl | exact ⟨rfl, rfl⟩ | exact fun _ _ _ _ _ _ => rfl | exact fun _ _ _ => rfl | exact absurd (hP _ (by decide)) hq))
      | dsimp +zetaDelta only

theorem softResetEnd_keeps {P : List Part} {s : State} {a1 : State} (a2) (ha2 : Part.page (classOf a2) ∈ P) (hP : ∀ q ∈ ([.page .lw, .page .ep, .page .ml, .page .sd, .page .dc, .page .cl, .page .mc, .page .gc, .staged, .captured, .tide, .cores, .mesh, .locks, .sd, .clusters, .mailboxes, .xb, .ctxs, .drains, .dm, .slices, .lw, .cxl, .frz, .ports, .eqs, .scrubs, .pl] : List Part), q ∈ P) (h : Keeps P s a1) :
    Keeps P s (softResetEnd a1 a2) := by
  unfold softResetEnd
  repeat' first
      | with_reducible assumption | with_reducible exact bistWays_small _ _ | with_reducible apply resetInside_keeps
      | with_reducible apply clearCommon_keeps | with_reducible apply resetPairs_keeps | with_reducible apply settle_keeps
      | with_reducible apply resetRegs_keeps | with_reducible apply goDone_keeps | with_reducible apply clrPreg_keeps
      | with_reducible apply orPreg_keeps | extract_lets | with_reducible apply keeps_ite | with_reducible exact hP _ (by decide)
      | with_reducible exact parts_in hP | with_reducible exact le_side (by omega) | with_reducible exact lt_side (by omega)
      | with_reducible exact off_small _ _ _ | with_reducible intro _ | split | dsimp +zetaDelta only

theorem clearEnd_keeps {P : List Part} {s : State} {a1 : State} (a2) (hP : ∀ q ∈ ([.page .lw, .page .ep, .page .ml, .page .sd, .page .dc, .page .cl, .page .mc, .page .gc, .staged, .captured, .tide, .cores, .mesh, .locks, .sd, .clusters, .mailboxes, .xb, .ctxs, .drains, .dm, .slices, .lw, .cxl, .frz, .ports, .eqs, .scrubs, .pl] : List Part), q ∈ P) (h : Keeps P s a1) :
    Keeps P s (clearEnd a1 a2) := by
  unfold clearEnd
  repeat' first
      | with_reducible assumption | with_reducible apply softResetEnd_keeps | with_reducible apply finishClear_keeps
      | with_reducible apply sliceClear_keeps | with_reducible apply clusterClear_keeps | extract_lets | with_reducible apply keeps_ite
      | with_reducible exact hP _ (by decide) | with_reducible exact parts_in hP
      | with_reducible exact cachePage_in _ (hP _ (by decide)) (hP _ (by decide)) | with_reducible exact le_side (by omega)
      | with_reducible exact lt_side (by omega) | with_reducible exact off_small _ _ _ | with_reducible intro _ | split
      | dsimp +zetaDelta only

theorem execInvalidated_keeps {P : List Part} {s : State} (a1) {a2 : State} (hP : ∀ q ∈ ([.page .lw, .page .ep, .page .ml, .page .sd, .page .dc, .page .cl, .page .mc, .page .gc, .staged, .captured, .tide, .cores, .mesh, .locks, .sd, .clusters, .mailboxes, .xb, .ctxs, .drains, .dm, .slices, .lw, .cxl, .frz, .ports, .eqs, .scrubs, .pl] : List Part), q ∈ P) (h : Keeps P s a2) :
    NextKeeps P s (execInvalidated a1 a2) := by
  unfold execInvalidated
  repeat' first
      | with_reducible assumption | with_reducible apply nextKeeps_next | with_reducible apply clearEnd_keeps
      | with_reducible apply settle_keeps | with_reducible exact hP _ (by decide) | with_reducible exact parts_in hP
      | with_reducible intro _

theorem sdEnableAct_keeps {P : List Part} {s : State} {a1 : State} (hP : ∀ q ∈ ([.page .sd, .sd] : List Part), q ∈ P) (h : Keeps P s a1) :
    Keeps P s (sdEnableAct a1) := by
  unfold sdEnableAct
  repeat' first
      | with_reducible assumption | with_reducible apply setPreg_keeps | with_reducible exact hP _ (by decide)
      | with_reducible exact parts_in hP | with_reducible exact le_side (by omega) | with_reducible exact lt_side (by omega)
      | with_reducible exact off_small _ _ _ | with_reducible intro _
      | fail_if_no_progress with_reducible refine put_sdArmed_keeps _ (hP _ (by decide)) ?_
      | fail_if_no_progress with_reducible refine put_sdChanged_keeps _ (hP _ (by decide)) ?_
      | fail_if_no_progress refine keeps_mk ?_ (Stays.mk fun q hq => by (cases q <;> first | rfl | exact ⟨rfl, rfl⟩ | exact fun _ _ _ _ _ _ => rfl | exact fun _ _ _ => rfl | exact absurd (hP _ (by decide)) hq))

theorem enableAct_keeps {P : List Part} {s : State} {a1 : State} (a2) (a3) (a4) (hP : ∀ q ∈ ([.page .td, .page .al, .page .lw, .page .ml, .page .sd, .page .dc, .page .cl, .page .xl, .page .gc, .tide, .cores, .mesh, .locks, .sd, .clusters, .slices, .lw, .frz, .ports, .mod, .boot] : List Part), q ∈ P) (h : Keeps P s a1) :
    Keeps P s (enableAct a1 a2 a3 a4) := by
  unfold enableAct
  repeat' first
      | with_reducible assumption | with_reducible apply sdEnableAct_keeps | with_reducible apply tideStop_keeps
      | with_reducible apply tideStart_keeps | with_reducible apply xlEnableAct_keeps | with_reducible apply gcEnableAct_keeps
      | with_reducible apply lwEnableAct_keeps | with_reducible apply cacheEnableAct_keeps | with_reducible apply keeps_ite
      | with_reducible exact hP _ (by decide) | with_reducible exact parts_in hP | with_reducible intro _ | split

theorem unfencePage_keeps {P : List Part} {s t : State} (p) (hp : Part.page (classOf p) ∈ P) (hP : ∀ q ∈ ([.page .lw, .page .ep, .page .fm, .page .ml, .page .sd, .page .dc, .page .cl, .page .mc, .page .xl, .page .gc, .cores, .mesh, .locks, .sd, .clusters, .mailboxes, .dm, .slices, .lw, .cxl, .frz, .ports, .scrubs, .boot] : List Part), q ∈ P) (h : Keeps P s t) :
    Keeps P s (unfencePage t p) := by
  unfold unfencePage
  refine keeps_ite (fun _ => h) (fun _ => ?_)
  cases p
  case gc id => exact unfenceCore_keeps _ (parts_in hP) h
  case xl n => exact xlUnfence_keeps _ (parts_in hP) (clrPreg_keeps _ _ _ (by omega) hp h)
  case ep => exact releaseFreeze_keeps (parts_in hP) h
  all_goals exact clrPreg_keeps _ _ _ (by omega) hp h

theorem fenceAct_keeps {P : List Part} {s : State} {a1 : State} (a2) (a3) (a4) (ha2 : Part.page (classOf a2) ∈ P) (hP : ∀ q ∈ ([.page .lw, .page .ep, .page .fm, .page .ml, .page .sd, .page .pl, .page .dc, .page .cl, .page .mc, .page .xl, .page .gc, .cores, .mesh, .locks, .sd, .clusters, .mailboxes, .dm, .slices, .lw, .cxl, .frz, .ports, .scrubs, .pl, .boot] : List Part), q ∈ P) (h : Keeps P s a1) :
    Keeps P s (fenceAct a1 a2 a3 a4) := by
  unfold fenceAct
  repeat' first
      | with_reducible assumption | with_reducible apply unfencePage_keeps | with_reducible apply releaseFreeze_keeps
      | with_reducible apply fencePage_keeps | with_reducible apply keeps_ite | with_reducible exact hP _ (by decide)
      | with_reducible exact parts_in hP | with_reducible exact le_side (by omega) | with_reducible exact lt_side (by omega)
      | with_reducible exact off_small _ _ _ | with_reducible intro _ | split

theorem softResetStart_keeps {P : List Part} {s : State} {a1 : State} (a2) (ha2 : Part.page (classOf a2) ∈ P) (hP : ∀ q ∈ ([.page .td, .page .al, .page .lw, .page .ep, .page .ml, .page .sd, .page .dc, .page .cl, .page .mc, .page .xl, .page .gc, .staged, .captured, .tide, .cores, .mesh, .locks, .sd, .clusters, .mailboxes, .xb, .ctxs, .drains, .dm, .slices, .lw, .cxl, .frz, .ports, .eqs, .scrubs, .pl, .mod, .boot] : List Part), q ∈ P) (h : Keeps P s a1) :
    Keeps P s (softResetStart a1 a2) := by
  unfold softResetStart
  repeat' first
      | with_reducible assumption | with_reducible apply enableAct_keeps | with_reducible apply softResetEnd_keeps
      | with_reducible apply startClear_keeps | with_reducible apply clrPreg_keeps | with_reducible apply keeps_ite
      | with_reducible exact hP _ (by decide) | with_reducible exact parts_in hP | with_reducible exact le_side (by omega)
      | with_reducible exact lt_side (by omega) | with_reducible exact off_small _ _ _ | with_reducible intro _ | split

theorem ctrlWrite_keeps {P : List Part} {s : State} {a1 : State} (a2) (a3) (ha2 : Part.page (classOf a2) ∈ P) (hP : ∀ q ∈ ([.page .td, .page .al, .page .lw, .page .ep, .page .fm, .page .ml, .page .sd, .page .pl, .page .dc, .page .cl, .page .mc, .page .xl, .page .gc, .staged, .captured, .tide, .cores, .mesh, .locks, .sd, .clusters, .mailboxes, .xb, .ctxs, .drains, .dm, .slices, .lw, .cxl, .frz, .ports, .eqs, .scrubs, .pl, .mod, .boot] : List Part), q ∈ P) (h : Keeps P s a1) :
    Keeps P s (ctrlWrite a1 a2 a3) := by
  unfold ctrlWrite
  repeat' first
      | with_reducible assumption | with_reducible apply softResetStart_keeps | with_reducible apply fenceAct_keeps
      | with_reducible apply enableAct_keeps | with_reducible apply withAlive_keeps | with_reducible apply withReady_keeps
      | with_reducible apply pageWrite_keeps | with_reducible apply setPreg_keeps | extract_lets | with_reducible apply keeps_ite
      | with_reducible exact hP _ (by decide) | with_reducible exact parts_in hP | with_reducible exact le_side (by omega)
      | with_reducible exact lt_side (by omega) | with_reducible exact off_small _ _ _ | with_reducible intro _ | split
      | dsimp +zetaDelta only

theorem execGcEnable_keeps {P : List Part} {s : State} (a1) (a2) {a3 : State} (hP : ∀ q ∈ ([.page .td, .page .al, .page .lw, .page .ep, .page .fm, .page .ml, .page .sd, .page .pl, .page .dc, .page .cl, .page .mc, .page .xl, .page .gc, .staged, .captured, .tide, .cores, .mesh, .locks, .sd, .clusters, .mailboxes, .xb, .ctxs, .drains, .dm, .slices, .lw, .cxl, .frz, .ports, .eqs, .scrubs, .pl, .mod, .boot] : List Part), q ∈ P) (h : Keeps P s a3) :
    NextKeeps P s (execGcEnable a1 a2 a3) := by
  unfold execGcEnable
  repeat' first
      | with_reducible assumption | with_reducible apply nextKeeps_next | with_reducible apply ctrlWrite_keeps
      | with_reducible exact hP _ (by decide) | with_reducible exact parts_in hP
      | ((with_reducible refine page_in (c := .gc) (hP _ (by decide)) ?_) <;> exact rfl) | with_reducible exact le_side (by omega)
      | with_reducible exact lt_side (by omega) | with_reducible exact off_small _ _ _ | with_reducible intro _

theorem execXlEnable_keeps {P : List Part} {s : State} (a1) (a2) {a3 : State} (hP : ∀ q ∈ ([.page .td, .page .al, .page .lw, .page .ep, .page .fm, .page .ml, .page .sd, .page .pl, .page .dc, .page .cl, .page .mc, .page .xl, .page .gc, .staged, .captured, .tide, .cores, .mesh, .locks, .sd, .clusters, .mailboxes, .xb, .ctxs, .drains, .dm, .slices, .lw, .cxl, .frz, .ports, .eqs, .scrubs, .pl, .mod, .boot] : List Part), q ∈ P) (h : Keeps P s a3) :
    NextKeeps P s (execXlEnable a1 a2 a3) := by
  unfold execXlEnable
  repeat' first
      | with_reducible assumption | with_reducible apply nextKeeps_next | with_reducible apply ctrlWrite_keeps
      | with_reducible exact hP _ (by decide) | with_reducible exact parts_in hP
      | ((with_reducible refine page_in (c := .xl) (hP _ (by decide)) ?_) <;> exact rfl) | with_reducible exact le_side (by omega)
      | with_reducible exact lt_side (by omega) | with_reducible exact off_small _ _ _ | with_reducible intro _

theorem execPlEnable_keeps {P : List Part} {s : State} (a1) {a2 : State} (hP : ∀ q ∈ ([.page .td, .page .al, .page .lw, .page .ep, .page .fm, .page .ml, .page .sd, .page .pl, .page .dc, .page .cl, .page .mc, .page .xl, .page .gc, .staged, .captured, .tide, .cores, .mesh, .locks, .sd, .clusters, .mailboxes, .xb, .ctxs, .drains, .dm, .slices, .lw, .cxl, .frz, .ports, .eqs, .scrubs, .pl, .mod, .boot] : List Part), q ∈ P) (h : Keeps P s a2) :
    NextKeeps P s (execPlEnable a1 a2) := by
  unfold execPlEnable
  repeat' first
      | with_reducible assumption | with_reducible apply nextKeeps_next | with_reducible apply ctrlWrite_keeps
      | with_reducible exact hP _ (by decide) | with_reducible exact parts_in hP | with_reducible exact le_side (by omega)
      | with_reducible exact lt_side (by omega) | with_reducible exact off_small _ _ _ | with_reducible intro _

theorem execLwEnable_keeps {P : List Part} {s : State} (a1) {a2 : State} (hP : ∀ q ∈ ([.page .td, .page .al, .page .lw, .page .ep, .page .fm, .page .ml, .page .sd, .page .pl, .page .dc, .page .cl, .page .mc, .page .xl, .page .gc, .staged, .captured, .tide, .cores, .mesh, .locks, .sd, .clusters, .mailboxes, .xb, .ctxs, .drains, .dm, .slices, .lw, .cxl, .frz, .ports, .eqs, .scrubs, .pl, .mod, .boot] : List Part), q ∈ P) (h : Keeps P s a2) :
    NextKeeps P s (execLwEnable a1 a2) := by
  unfold execLwEnable
  repeat' first
      | with_reducible assumption | with_reducible apply nextKeeps_next | with_reducible apply ctrlWrite_keeps
      | with_reducible exact hP _ (by decide) | with_reducible exact parts_in hP | with_reducible exact le_side (by omega)
      | with_reducible exact lt_side (by omega) | with_reducible exact off_small _ _ _ | with_reducible intro _

theorem execCacheEnable_keeps {P : List Part} {s : State} (a1) (a2) (a3) {a4 : State} (hP : ∀ q ∈ ([.page .td, .page .al, .page .lw, .page .ep, .page .fm, .page .ml, .page .sd, .page .pl, .page .dc, .page .cl, .page .mc, .page .xl, .page .gc, .staged, .captured, .tide, .cores, .mesh, .locks, .sd, .clusters, .mailboxes, .xb, .ctxs, .drains, .dm, .slices, .lw, .cxl, .frz, .ports, .eqs, .scrubs, .pl, .mod, .boot] : List Part), q ∈ P) (h : Keeps P s a4) :
    NextKeeps P s (execCacheEnable a1 a2 a3 a4) := by
  unfold execCacheEnable
  repeat' first
      | with_reducible assumption | with_reducible apply nextKeeps_next | with_reducible apply ctrlWrite_keeps
      | with_reducible apply clearEnd_keeps | with_reducible apply settle_keeps | with_reducible apply ccCtrlWrite_keeps | extract_lets
      | with_reducible apply keeps_ite | with_reducible exact hP _ (by decide) | with_reducible exact parts_in hP
      | ((with_reducible refine page_in (c := .dc) (hP _ (by decide)) ?_) <;> exact rfl) | with_reducible exact le_side (by omega)
      | with_reducible exact lt_side (by omega) | with_reducible exact off_small _ _ _ | with_reducible intro _ | split
      | dsimp +zetaDelta only

theorem execCtrlFenceWrite_keeps {P : List Part} {s : State} (a1) (a2) {a3 : State} (ha1 : Part.page (classOf a1) ∈ P) (hP : ∀ q ∈ ([.page .td, .page .al, .page .lw, .page .ep, .page .fm, .page .ml, .page .sd, .page .pl, .page .dc, .page .cl, .page .mc, .page .xl, .page .gc, .staged, .captured, .tide, .cores, .mesh, .locks, .sd, .clusters, .mailboxes, .xb, .ctxs, .drains, .dm, .slices, .lw, .cxl, .frz, .ports, .eqs, .scrubs, .pl, .mod, .boot] : List Part), q ∈ P) (h : Keeps P s a3) :
    NextKeeps P s (execCtrlFenceWrite a1 a2 a3) := by
  unfold execCtrlFenceWrite
  repeat' first
      | with_reducible assumption | with_reducible apply nextKeeps_next | with_reducible apply ctrlWrite_keeps
      | with_reducible exact hP _ (by decide) | with_reducible exact parts_in hP | with_reducible exact le_side (by omega)
      | with_reducible exact lt_side (by omega) | with_reducible exact off_small _ _ _ | with_reducible intro _

theorem execSoftReset_keeps {P : List Part} {s : State} (a1) {a2 : State} (ha1 : Part.page (classOf a1) ∈ P) (hP : ∀ q ∈ ([.page .td, .page .al, .page .lw, .page .ep, .page .fm, .page .ml, .page .sd, .page .pl, .page .dc, .page .cl, .page .mc, .page .xl, .page .gc, .staged, .captured, .tide, .cores, .mesh, .locks, .sd, .clusters, .mailboxes, .xb, .ctxs, .drains, .dm, .slices, .lw, .cxl, .frz, .ports, .eqs, .scrubs, .pl, .mod, .boot] : List Part), q ∈ P) (h : Keeps P s a2) :
    NextKeeps P s (execSoftReset a1 a2) := by
  unfold execSoftReset
  repeat' first
      | with_reducible assumption | with_reducible apply nextKeeps_next | with_reducible apply ctrlWrite_keeps
      | with_reducible exact hP _ (by decide) | with_reducible exact parts_in hP | with_reducible exact le_side (by omega)
      | with_reducible exact lt_side (by omega) | with_reducible exact off_small _ _ _ | with_reducible intro _

theorem execPageLock_keeps {P : List Part} {s : State} (a1) (a2) {a3 : State} (ha1 : Part.page (classOf a1) ∈ P) (hP : ∀ q ∈ ([.staged] : List Part), q ∈ P) (h : Keeps P s a3) :
    NextKeeps P s (execPageLock a1 a2 a3) := by
  unfold execPageLock
  repeat' first
      | with_reducible assumption | with_reducible apply nextKeeps_next | with_reducible apply pageWrite_keeps
      | with_reducible exact hP _ (by decide) | with_reducible exact parts_in hP | with_reducible exact le_side (by omega)
      | with_reducible exact lt_side (by omega) | with_reducible exact off_small _ _ _ | with_reducible intro _

end Sys2Proof.Machine
end

