-- ==== Sys2Proof/Laws/KeepEndpoint.lean ====
section
/-! SUPPORT. What the operations of Machine/Endpoint.lean leave alone. -/

set_option Elab.async false

namespace Sys2Proof.Machine

open Sys2Proof

theorem setLink_keeps {P : List Part} {s : State} {a1 : State} (a2) (hP : ∀ q ∈ ([.page .ep, .cxl, .boot] : List Part), q ∈ P) (h : Keeps P s a1) :
    Keeps P s (setLink a1 a2) := by
  unfold setLink
  repeat' first
      | with_reducible assumption | with_reducible apply withReady_keeps | with_reducible apply raiseInt_keeps
      | with_reducible exact hP _ (by decide) | with_reducible exact parts_in hP | with_reducible exact le_side (by omega)
      | with_reducible exact lt_side (by omega) | with_reducible exact off_small _ _ _ | with_reducible intro _
      | fail_if_no_progress with_reducible refine put_cxl_keeps _ (hP _ (by decide)) ?_

theorem linkResume_keeps {P : List Part} {s : State} {a1 : State} (hP : ∀ q ∈ ([.page .lw, .page .ep, .page .ml, .page .sd, .page .dc, .page .cl, .page .mc, .cores, .locks, .sd, .clusters, .mailboxes, .dm, .slices, .lw, .cxl, .frz, .scrubs] : List Part), q ∈ P) (h : Keeps P s a1) :
    Keeps P s (linkResume a1) := by
  unfold linkResume
  repeat' first
      | with_reducible assumption | with_reducible apply settle_keeps | with_reducible apply resumeAccesses_keeps
      | with_reducible apply wbCheck_keeps | with_reducible apply flushMsix_keeps | with_reducible apply drainWrites_keeps
      | with_reducible apply keeps_foldl | with_reducible apply keeps_foldl1 | with_reducible exact hP _ (by decide)
      | with_reducible exact parts_in hP | with_reducible intro _

theorem linkCome_keeps {P : List Part} {s : State} {a1 : State} (a2) (hP : ∀ q ∈ ([.page .lw, .page .ep, .page .ml, .page .sd, .page .dc, .page .cl, .page .mc, .cores, .locks, .sd, .clusters, .mailboxes, .dm, .slices, .lw, .cxl, .frz, .scrubs, .boot] : List Part), q ∈ P) (h : Keeps P s a1) :
    Keeps P s (linkCome a1 a2) := by
  unfold linkCome
  repeat' first
      | with_reducible assumption | with_reducible apply linkResume_keeps | with_reducible apply setLink_keeps
      | with_reducible apply raiseErr_keeps | with_reducible apply when_keeps | with_reducible apply setPreg_keeps | extract_lets
      | with_reducible apply keeps_ite | with_reducible exact hP _ (by decide) | with_reducible exact parts_in hP
      | with_reducible exact le_side (by omega) | with_reducible exact lt_side (by omega) | with_reducible exact off_small _ _ _
      | with_reducible intro _ | split | fail_if_no_progress with_reducible refine put_cxl_keeps _ (hP _ (by decide)) ?_
      | dsimp +zetaDelta only

theorem execLinkUp_keeps {P : List Part} {s : State} (a1) {a2 : State} (hP : ∀ q ∈ ([.page .lw, .page .ep, .page .ml, .page .sd, .page .dc, .page .cl, .page .mc, .cores, .locks, .sd, .clusters, .mailboxes, .dm, .slices, .lw, .cxl, .frz, .scrubs, .boot] : List Part), q ∈ P) (h : Keeps P s a2) :
    NextKeeps P s (execLinkUp a1 a2) := by
  unfold execLinkUp
  repeat' first
      | with_reducible assumption | with_reducible apply nextKeeps_next | with_reducible apply linkCome_keeps
      | with_reducible exact hP _ (by decide) | with_reducible exact parts_in hP | with_reducible intro _

theorem execLinkTrainingRetry_keeps {P : List Part} {s : State} {a1 : State} (hP : ∀ q ∈ ([.page .ep] : List Part), q ∈ P) (h : Keeps P s a1) :
    NextKeeps P s (execLinkTrainingRetry a1) := by
  unfold execLinkTrainingRetry
  repeat' first
      | with_reducible assumption | with_reducible apply nextKeeps_next | with_reducible apply raiseErr_keeps
      | with_reducible apply emit_keeps | with_reducible apply keeps_ite | with_reducible exact hP _ (by decide)
      | with_reducible exact parts_in hP | with_reducible exact le_side (by omega) | with_reducible exact lt_side (by omega)
      | with_reducible exact off_small _ _ _ | with_reducible intro _ | split

theorem affectAll_keeps {P : List Part} {s : State} {a1 : State} (hP : ∀ q ∈ ([.cxl] : List Part), q ∈ P) (h : Keeps P s a1) :
    Keeps P s (affectAll a1) := by
  unfold affectAll
  repeat' first
      | with_reducible assumption | with_reducible intro _ | fail_if_no_progress with_reducible refine put_cxl_keeps _ (hP _ (by decide)) ?_

theorem execLinkReplay_keeps {P : List Part} {s : State} {a1 : State} (hP : ∀ q ∈ ([.page .fc, .page .ep, .cxl, .fc] : List Part), q ∈ P) (h : Keeps P s a1) :
    NextKeeps P s (execLinkReplay a1) := by
  unfold execLinkReplay
  repeat' first
      | with_reducible assumption | with_reducible apply nextKeeps_next | with_reducible apply affectAll_keeps
      | with_reducible apply beginEpisode_keeps | with_reducible apply raiseErr_keeps | with_reducible apply cntPreg_keeps
      | with_reducible apply keeps_ite | with_reducible exact hP _ (by decide) | with_reducible exact parts_in hP
      | with_reducible exact le_side (by omega) | with_reducible exact lt_side (by omega) | with_reducible exact off_small _ _ _
      | with_reducible intro _ | split | fail_if_no_progress with_reducible refine put_cxl_keeps _ (hP _ (by decide)) ?_

theorem execLinkRecovery_keeps {P : List Part} {s : State} {a1 : State} (hP : ∀ q ∈ ([.page .fc, .page .ep, .cxl, .fc] : List Part), q ∈ P) (h : Keeps P s a1) :
    NextKeeps P s (execLinkRecovery a1) := by
  unfold execLinkRecovery
  repeat' first
      | with_reducible assumption | with_reducible apply nextKeeps_next | with_reducible apply affectAll_keeps
      | with_reducible apply endEpisode_keeps | with_reducible apply beginEpisode_keeps | with_reducible apply raiseErr_keeps
      | with_reducible apply cntPreg_keeps | with_reducible apply keeps_ite | with_reducible exact hP _ (by decide)
      | with_reducible exact parts_in hP | with_reducible exact le_side (by omega) | with_reducible exact lt_side (by omega)
      | with_reducible exact off_small _ _ _ | with_reducible intro _ | split
      | fail_if_no_progress with_reducible refine put_cxl_keeps _ (hP _ (by decide)) ?_

theorem episodeOver_keeps {P : List Part} {s : State} {a1 : State} (a2) (hP : ∀ q ∈ ([.page .lw, .page .ep, .page .ml, .page .sd, .page .dc, .page .cl, .page .mc, .cores, .locks, .sd, .clusters, .mailboxes, .dm, .slices, .lw, .cxl, .frz, .scrubs, .fc, .boot] : List Part), q ∈ P) (h : Keeps P s a1) :
    Keeps P s (episodeOver a1 a2) := by
  unfold episodeOver
  repeat' first
      | with_reducible assumption | with_reducible apply linkResume_keeps | with_reducible apply endEpisode_keeps
      | with_reducible apply withReady_keeps | with_reducible apply keeps_ite | with_reducible exact hP _ (by decide)
      | with_reducible exact parts_in hP | with_reducible intro _ | split
      | fail_if_no_progress with_reducible refine put_cxl_keeps _ (hP _ (by decide)) ?_

theorem execReplayEpisodeEnd_keeps {P : List Part} {s : State} (a1) {a2 : State} (hP : ∀ q ∈ ([.page .lw, .page .ep, .page .ml, .page .sd, .page .dc, .page .cl, .page .mc, .cores, .locks, .sd, .clusters, .mailboxes, .dm, .slices, .lw, .cxl, .frz, .scrubs, .fc, .boot] : List Part), q ∈ P) (h : Keeps P s a2) :
    NextKeeps P s (execReplayEpisodeEnd a1 a2) := by
  unfold execReplayEpisodeEnd
  repeat' first
      | with_reducible assumption | with_reducible apply nextKeeps_next | with_reducible apply episodeOver_keeps
      | with_reducible exact hP _ (by decide) | with_reducible exact parts_in hP | with_reducible intro _

theorem afterWrite_keeps {P : List Part} {s : State} {a1 : State} (hP : ∀ q ∈ ([.page .lw, .page .ep, .page .ml, .page .sd, .page .dc, .page .cl, .page .mc, .cores, .locks, .sd, .clusters, .mailboxes, .dm, .slices, .lw, .cxl, .frz, .scrubs] : List Part), q ∈ P) (h : Keeps P s a1) :
    Keeps P s (afterWrite a1) := by
  unfold afterWrite
  repeat' first
      | with_reducible assumption | with_reducible apply settle_keeps | with_reducible apply wbCheck_keeps
      | with_reducible apply flushMsix_keeps | with_reducible apply drainWrites_keeps | with_reducible exact hP _ (by decide)
      | with_reducible exact parts_in hP | with_reducible intro _

theorem responseLost_keeps {P : List Part} {s : State} {a1 : State} (a2) (hP : ∀ q ∈ ([.page .fm] : List Part), q ∈ P) (h : Keeps P s a1) :
    Keeps P s (responseLost a1 a2) := by
  unfold responseLost
  repeat' first
      | with_reducible assumption | with_reducible apply raiseErr_keeps | with_reducible exact hP _ (by decide)
      | with_reducible exact parts_in hP | with_reducible exact le_side (by omega) | with_reducible exact lt_side (by omega)
      | with_reducible exact off_small _ _ _ | with_reducible intro _ | split

theorem dropD2h_keeps {P : List Part} {s : State} {a1 : State} (a2) (hP : ∀ q ∈ ([.cxl] : List Part), q ∈ P) (h : Keeps P s a1) :
    Keeps P s (dropD2h a1 a2) := by
  unfold dropD2h
  repeat' first
      | with_reducible assumption | with_reducible intro _ | fail_if_no_progress with_reducible refine put_cxl_keeps _ (hP _ (by decide)) ?_

theorem mergeWrite_keeps {P : List Part} {s : State} {a1 : State} (a2) (a3) (hP : ∀ q ∈ ([.page .lw, .page .ep, .page .dc, .page .mc, .clusters, .dm, .slices, .cxl, .frz, .scrubs] : List Part), q ∈ P) (h : Keeps P s a1) :
    Keeps P s (mergeWrite a1 a2 a3) := by
  unfold mergeWrite
  repeat' first
      | with_reducible assumption | with_reducible apply mergeOwned_keeps | extract_lets | with_reducible apply keeps_ite
      | with_reducible exact hP _ (by decide) | with_reducible exact parts_in hP | with_reducible intro _ | split | dsimp +zetaDelta only

theorem hostAnswers_keeps {P : List Part} {s : State} {a1 : State} (a2) (a3) (hP : ∀ q ∈ ([.page .lw, .page .ep, .page .fm, .page .ml, .page .sd, .page .dc, .page .cl, .page .mc, .page .gc, .cores, .locks, .sd, .clusters, .mailboxes, .dm, .slices, .lw, .cxl, .frz, .scrubs] : List Part), q ∈ P) (h : Keeps P s a1) :
    Keeps P s (hostAnswers a1 a2 a3) := by
  unfold hostAnswers
  repeat' first
      | with_reducible assumption | with_reducible apply mergeWrite_keeps | with_reducible apply dropD2h_keeps
      | with_reducible apply responseLost_keeps | with_reducible apply afterWrite_keeps | with_reducible apply accessDone_keeps
      | extract_lets | with_reducible apply keeps_ite | with_reducible exact hP _ (by decide) | with_reducible exact parts_in hP
      | with_reducible intro _ | split | dsimp +zetaDelta only

theorem execCxlCacheResponse_keeps {P : List Part} {s : State} (a1) (a2) {a3 : State} (hP : ∀ q ∈ ([.page .lw, .page .ep, .page .fm, .page .ml, .page .sd, .page .dc, .page .cl, .page .mc, .page .gc, .cores, .locks, .sd, .clusters, .mailboxes, .dm, .slices, .lw, .cxl, .frz, .scrubs] : List Part), q ∈ P) (h : Keeps P s a3) :
    NextKeeps P s (execCxlCacheResponse a1 a2 a3) := by
  unfold execCxlCacheResponse
  repeat' first
      | with_reducible assumption | with_reducible apply nextKeeps_next | with_reducible apply hostAnswers_keeps
      | with_reducible exact hP _ (by decide) | with_reducible exact parts_in hP | with_reducible intro _

theorem requestFails_keeps {P : List Part} {s : State} {a1 : State} (a2) (a3) (hP : ∀ q ∈ ([.page .ep, .page .fm, .page .ml, .page .sd, .page .gc, .cores, .locks, .sd, .cxl] : List Part), q ∈ P) (h : Keeps P s a1) :
    Keeps P s (requestFails a1 a2 a3) := by
  unfold requestFails
  repeat' first
      | with_reducible assumption | with_reducible apply dropD2h_keeps | with_reducible apply responseLost_keeps
      | with_reducible apply accessError_keeps | with_reducible apply raiseErrX_keeps | with_reducible exact hP _ (by decide)
      | with_reducible exact parts_in hP | with_reducible exact le_side (by omega) | with_reducible exact lt_side (by omega)
      | with_reducible exact off_small _ _ _ | with_reducible intro _ | split

theorem execCompletionTimeout_keeps {P : List Part} {s : State} (a1) {a2 : State} (hP : ∀ q ∈ ([.page .lw, .page .ep, .page .fm, .page .ml, .page .sd, .page .dc, .page .cl, .page .mc, .page .gc, .cores, .locks, .sd, .clusters, .mailboxes, .dm, .slices, .lw, .cxl, .frz, .scrubs] : List Part), q ∈ P) (h : Keeps P s a2) :
    NextKeeps P s (execCompletionTimeout a1 a2) := by
  unfold execCompletionTimeout
  repeat' first
      | with_reducible assumption | with_reducible apply nextKeeps_next | with_reducible apply requestFails_keeps
      | with_reducible apply afterWrite_keeps | with_reducible apply cntPreg_keeps | with_reducible apply keeps_ite
      | with_reducible exact hP _ (by decide) | with_reducible exact parts_in hP | with_reducible exact le_side (by omega)
      | with_reducible exact lt_side (by omega) | with_reducible exact off_small _ _ _ | with_reducible intro _ | split

theorem failAll_keeps {P : List Part} {s : State} {a1 : State} (hP : ∀ q ∈ ([.page .ep, .page .ml, .page .sd, .page .gc, .cores, .locks, .sd, .cxl, .frz] : List Part), q ∈ P) (h : Keeps P s a1) :
    Keeps P s (failAll a1) := by
  unfold failAll
  repeat' first
      | with_reducible assumption | with_reducible apply discardWrite_keeps | with_reducible apply accessError_keeps
      | with_reducible apply raiseErrX_keeps | extract_lets | with_reducible apply keeps_foldl | with_reducible apply keeps_foldl1
      | with_reducible exact hP _ (by decide) | with_reducible exact parts_in hP | with_reducible exact le_side (by omega)
      | with_reducible exact lt_side (by omega) | with_reducible exact off_small _ _ _ | with_reducible intro _ | split
      | fail_if_no_progress with_reducible refine put_cxl_keeps _ (hP _ (by decide)) ?_ | dsimp +zetaDelta only

theorem linkLost_keeps {P : List Part} {s : State} {a1 : State} (hP : ∀ q ∈ ([.page .ep, .page .ml, .page .sd, .page .gc, .cores, .locks, .sd, .slices, .lw, .cxl, .frz, .fc, .boot] : List Part), q ∈ P) (h : Keeps P s a1) :
    Keeps P s (linkLost a1) := by
  unfold linkLost
  repeat' first
      | with_reducible assumption | with_reducible apply failAll_keeps | with_reducible apply setLink_keeps
      | with_reducible apply enterFreeze_keeps | with_reducible apply endEpisode_keeps | with_reducible apply raiseErr_keeps
      | with_reducible apply setPreg_keeps | extract_lets | with_reducible apply keeps_ite | with_reducible exact hP _ (by decide)
      | with_reducible exact parts_in hP | with_reducible exact le_side (by omega) | with_reducible exact lt_side (by omega)
      | with_reducible exact off_small _ _ _ | with_reducible intro _ | split
      | fail_if_no_progress with_reducible refine put_cxl_keeps _ (hP _ (by decide)) ?_ | dsimp +zetaDelta only

theorem execLinkDown_keeps {P : List Part} {s : State} {a1 : State} (hP : ∀ q ∈ ([.page .ep, .page .ml, .page .sd, .page .gc, .cores, .locks, .sd, .slices, .lw, .cxl, .frz, .fc, .boot] : List Part), q ∈ P) (h : Keeps P s a1) :
    NextKeeps P s (execLinkDown a1) := by
  unfold execLinkDown
  repeat' first
      | with_reducible assumption | with_reducible apply nextKeeps_next | with_reducible apply linkLost_keeps
      | with_reducible exact hP _ (by decide) | with_reducible exact parts_in hP | with_reducible intro _

theorem execL1Entry_keeps {P : List Part} {s : State} (a1) {a2 : State} (hP : ∀ q ∈ ([.page .ep, .cxl, .boot] : List Part), q ∈ P) (h : Keeps P s a2) :
    NextKeeps P s (execL1Entry a1 a2) := by
  unfold execL1Entry
  repeat' first
      | with_reducible assumption | with_reducible apply nextKeeps_next | with_reducible apply setLink_keeps
      | with_reducible apply emit_keeps | with_reducible apply cntPreg_keeps | with_reducible apply keeps_ite
      | with_reducible exact hP _ (by decide) | with_reducible exact parts_in hP | with_reducible exact le_side (by omega)
      | with_reducible exact lt_side (by omega) | with_reducible exact off_small _ _ _ | with_reducible intro _ | split

theorem execL1Exit_keeps {P : List Part} {s : State} {a1 : State} (hP : ∀ q ∈ ([.page .ep, .cxl, .boot] : List Part), q ∈ P) (h : Keeps P s a1) :
    NextKeeps P s (execL1Exit a1) := by
  unfold execL1Exit
  repeat' first
      | with_reducible assumption | with_reducible apply nextKeeps_next | with_reducible apply setLink_keeps
      | with_reducible apply emit_keeps | with_reducible apply keeps_ite | with_reducible exact hP _ (by decide)
      | with_reducible exact parts_in hP | with_reducible intro _ | split

theorem setX8_keeps {P : List Part} {s : State} {a1 : State} (a2) (hP : ∀ q ∈ ([.page .ep] : List Part), q ∈ P) (h : Keeps P s a1) :
    Keeps P s (setX8 a1 a2) := by
  unfold setX8
  repeat' first
      | with_reducible assumption | with_reducible apply raiseInt_keeps | with_reducible apply when_keeps
      | with_reducible apply cntPreg_keeps | with_reducible apply setPreg_keeps | with_reducible apply keeps_ite
      | with_reducible exact hP _ (by decide) | with_reducible exact parts_in hP | with_reducible exact le_side (by omega)
      | with_reducible exact lt_side (by omega) | with_reducible exact off_small _ _ _ | with_reducible intro _ | split

theorem execL0pNarrow_keeps {P : List Part} {s : State} {a1 : State} (hP : ∀ q ∈ ([.page .ep] : List Part), q ∈ P) (h : Keeps P s a1) :
    NextKeeps P s (execL0pNarrow a1) := by
  unfold execL0pNarrow
  repeat' first
      | with_reducible assumption | with_reducible apply nextKeeps_next | with_reducible apply setX8_keeps | with_reducible apply emit_keeps
      | with_reducible apply keeps_ite | with_reducible exact hP _ (by decide) | with_reducible exact parts_in hP | with_reducible intro _
      | split

theorem execL0pWiden_keeps {P : List Part} {s : State} {a1 : State} (hP : ∀ q ∈ ([.page .ep] : List Part), q ∈ P) (h : Keeps P s a1) :
    NextKeeps P s (execL0pWiden a1) := by
  unfold execL0pWiden
  repeat' first
      | with_reducible assumption | with_reducible apply nextKeeps_next | with_reducible apply setX8_keeps | with_reducible apply emit_keeps
      | with_reducible apply keeps_ite | with_reducible exact hP _ (by decide) | with_reducible exact parts_in hP | with_reducible intro _
      | split

theorem execPartnerL0pRequest_keeps {P : List Part} {s : State} (a1) {a2 : State} (hP : ∀ q ∈ ([.page .ep] : List Part), q ∈ P) (h : Keeps P s a2) :
    NextKeeps P s (execPartnerL0pRequest a1 a2) := by
  unfold execPartnerL0pRequest
  repeat' first
      | with_reducible assumption | with_reducible apply nextKeeps_next | with_reducible apply setX8_keeps | with_reducible apply emit_keeps
      | with_reducible apply keeps_ite | with_reducible exact hP _ (by decide) | with_reducible exact parts_in hP | with_reducible intro _
      | split

theorem answerUr_keeps {P : List Part} {s : State} {a1 : State} (a2) (a3) (a4) (hP : ∀ q ∈ ([.page .ep, .cxl] : List Part), q ∈ P) (h : Keeps P s a1) :
    Keeps P s (answerUr a1 a2 a3 a4) := by
  unfold answerUr
  repeat' first
      | with_reducible assumption | with_reducible apply raiseErr_keeps | with_reducible apply emit_keeps
      | with_reducible apply cntPreg_keeps | with_reducible apply setPreg_keeps | extract_lets | with_reducible apply keeps_ite
      | with_reducible exact hP _ (by decide) | with_reducible exact parts_in hP | with_reducible exact le_side (by omega)
      | with_reducible exact lt_side (by omega) | with_reducible exact off_small _ _ _ | with_reducible intro _ | split
      | fail_if_no_progress with_reducible refine put_cxl_keeps _ (hP _ (by decide)) ?_ | dsimp +zetaDelta only

theorem execUnsupportedRequest_keeps {P : List Part} {s : State} (a1) (a2) (a3) {a4 : State} (hP : ∀ q ∈ ([.page .ep, .cxl] : List Part), q ∈ P) (h : Keeps P s a4) :
    NextKeeps P s (execUnsupportedRequest a1 a2 a3 a4) := by
  unfold execUnsupportedRequest
  repeat' first
      | with_reducible assumption | with_reducible apply nextKeeps_next | with_reducible apply answerUr_keeps
      | with_reducible apply keeps_ite | with_reducible exact hP _ (by decide) | with_reducible exact parts_in hP | with_reducible intro _
      | split

theorem bar2Write_keeps {P : List Part} {s : State} {a1 : State} (a2) (a3) (a4) (a5) (hP : ∀ q ∈ ([.page .lw, .page .ep, .page .dc, .page .mc, .clusters, .dm, .slices, .cxl, .frz, .scrubs] : List Part), q ∈ P) (h : Keeps P s a1) :
    Keeps P s (bar2Write a1 a2 a3 a4 a5) := by
  unfold bar2Write
  repeat' first
      | with_reducible assumption | with_reducible apply answerUr_keeps | with_reducible apply pumpInbound_keeps | extract_lets
      | with_reducible apply keeps_ite | with_reducible exact hP _ (by decide) | with_reducible exact parts_in hP | with_reducible intro _
      | split | fail_if_no_progress with_reducible refine put_cxl_keeps _ (hP _ (by decide)) ?_ | dsimp +zetaDelta only

theorem execBar2Write_keeps {P : List Part} {s : State} (a1) (a2) (a3) (a4) {a5 : State} (hP : ∀ q ∈ ([.page .lw, .page .ep, .page .dc, .page .mc, .clusters, .dm, .slices, .cxl, .frz, .scrubs] : List Part), q ∈ P) (h : Keeps P s a5) :
    NextKeeps P s (execBar2Write a1 a2 a3 a4 a5) := by
  unfold execBar2Write
  repeat' first
      | with_reducible assumption | with_reducible apply nextKeeps_next | with_reducible apply bar2Write_keeps
      | with_reducible exact hP _ (by decide) | with_reducible exact parts_in hP | with_reducible intro _

theorem flushPba_keeps {P : List Part} {s : State} {a1 : State} (a2) (hP : ∀ q ∈ ([.page .ep] : List Part), q ∈ P) (h : Keeps P s a1) :
    Keeps P s (flushPba a1 a2) := by
  unfold flushPba
  repeat' first
      | with_reducible assumption | with_reducible apply sendMsix_keeps | with_reducible apply clrPreg_keeps
      | with_reducible apply keeps_ite | with_reducible exact hP _ (by decide) | with_reducible exact parts_in hP
      | with_reducible exact le_side (by omega) | with_reducible exact lt_side (by omega) | with_reducible exact off_small _ _ _
      | with_reducible intro _ | split

theorem vectorCtrlWrite_keeps {P : List Part} {s : State} {a1 : State} (a2) (a3) (hP : ∀ q ∈ ([.page .ep, .staged] : List Part), q ∈ P) (h : Keeps P s a1) :
    Keeps P s (vectorCtrlWrite a1 a2 a3) := by
  unfold vectorCtrlWrite
  repeat' first
      | with_reducible assumption | with_reducible apply flushPba_keeps | with_reducible apply pageWrite_keeps
      | with_reducible exact hP _ (by decide) | with_reducible exact parts_in hP | with_reducible exact le_side (by omega)
      | with_reducible exact lt_side (by omega) | with_reducible exact off_small _ _ _ | with_reducible intro _

theorem execMsixUnmask_keeps {P : List Part} {s : State} (a1) (a2) {a3 : State} (hP : ∀ q ∈ ([.page .ep, .staged] : List Part), q ∈ P) (h : Keeps P s a3) :
    NextKeeps P s (execMsixUnmask a1 a2 a3) := by
  unfold execMsixUnmask
  repeat' first
      | with_reducible assumption | with_reducible apply nextKeeps_next | with_reducible apply vectorCtrlWrite_keeps
      | with_reducible exact hP _ (by decide) | with_reducible exact parts_in hP | with_reducible intro _

theorem flushAll_keeps {P : List Part} {s : State} {a1 : State} (hP : ∀ q ∈ ([.page .ep, .cxl] : List Part), q ∈ P) (h : Keeps P s a1) :
    Keeps P s (flushAll a1) := by
  unfold flushAll
  repeat' first
      | with_reducible assumption | with_reducible apply flushPba_keeps | with_reducible apply flushMsix_keeps
      | with_reducible apply updateInta_keeps | with_reducible apply keeps_foldl | with_reducible apply keeps_foldl1
      | with_reducible exact hP _ (by decide) | with_reducible exact parts_in hP | with_reducible intro _

theorem cfgGate_keeps {P : List Part} {s : State} {a1 : State} {a2 : State → State} (ha2 : ∀ u, Keeps P s u → Keeps P s (a2 u)) (h : Keeps P s a1) :
    Keeps P s (cfgGate a1 a2) := by
  unfold cfgGate
  repeat' first
      | with_reducible assumption | with_reducible apply ha2 | with_reducible apply emit_keeps | with_reducible apply keeps_ite
      | with_reducible intro _ | split

theorem setBar_keeps {P : List Part} {s : State} {a1 : State} (a2) (a3) (hP : ∀ q ∈ ([.cxl] : List Part), q ∈ P) (h : Keeps P s a1) :
    Keeps P s (setBar a1 a2 a3) := by
  unfold setBar
  repeat' first
      | with_reducible assumption | with_reducible intro _ | fail_if_no_progress with_reducible refine put_cxl_keeps _ (hP _ (by decide)) ?_

theorem cfgWrite_keeps {P : List Part} {s : State} {a1 : State} (a2) (a3) (hP : ∀ q ∈ ([.page .ep, .cxl, .boot] : List Part), q ∈ P) (h : Keeps P s a1) :
    Keeps P s (cfgWrite a1 a2 a3) := by
  unfold cfgWrite
  repeat' first
      | with_reducible assumption | with_reducible apply setBar_keeps | with_reducible apply flushAll_keeps
      | with_reducible apply withReady_keeps | with_reducible apply updateInta_keeps | extract_lets | with_reducible exact hP _ (by decide)
      | with_reducible exact parts_in hP | with_reducible intro _ | split
      | fail_if_no_progress with_reducible refine put_cxl_keeps _ (hP _ (by decide)) ?_ | dsimp +zetaDelta only

theorem powerStateWrite_keeps {P : List Part} {s : State} {a1 : State} (a2) (hP : ∀ q ∈ ([.page .ep, .cxl] : List Part), q ∈ P) (h : Keeps P s a1) :
    Keeps P s (powerStateWrite a1 a2) := by
  unfold powerStateWrite
  repeat' first
      | with_reducible assumption | with_reducible apply flushAll_keeps | with_reducible apply raiseErr_keeps
      | with_reducible apply updateInta_keeps | extract_lets | with_reducible apply keeps_ite | with_reducible exact hP _ (by decide)
      | with_reducible exact parts_in hP | with_reducible exact le_side (by omega) | with_reducible exact lt_side (by omega)
      | with_reducible exact off_small _ _ _ | with_reducible intro _ | split
      | fail_if_no_progress with_reducible refine put_cxl_keeps _ (hP _ (by decide)) ?_ | dsimp +zetaDelta only

theorem execPowerStateWrite_keeps {P : List Part} {s : State} (a1) {a2 : State} (hP : ∀ q ∈ ([.page .ep, .cxl] : List Part), q ∈ P) (h : Keeps P s a2) :
    NextKeeps P s (execPowerStateWrite a1 a2) := by
  unfold execPowerStateWrite
  repeat' first
      | with_reducible assumption | with_reducible apply nextKeeps_next | with_reducible apply powerStateWrite_keeps
      | with_reducible apply cfgGate_keeps | with_reducible exact hP _ (by decide) | with_reducible exact parts_in hP
      | with_reducible intro _

theorem ctoChange_keeps {P : List Part} {s : State} {a1 : State} (a2) (hP : ∀ q ∈ ([.page .ep, .cxl] : List Part), q ∈ P) (h : Keeps P s a1) :
    Keeps P s (ctoChange a1 a2) := by
  unfold ctoChange
  repeat' first
      | with_reducible assumption | with_reducible apply raiseErr_keeps | with_reducible apply keeps_ite
      | with_reducible exact hP _ (by decide) | with_reducible exact parts_in hP | with_reducible exact le_side (by omega)
      | with_reducible exact lt_side (by omega) | with_reducible exact off_small _ _ _ | with_reducible intro _ | split
      | fail_if_no_progress with_reducible refine put_cxl_keeps _ (hP _ (by decide)) ?_

theorem budgetWrite_keeps {P : List Part} {s : State} {a1 : State} (a2) (hP : ∀ q ∈ ([.page .ep, .staged] : List Part), q ∈ P) (h : Keeps P s a1) :
    Keeps P s (budgetWrite a1 a2) := by
  unfold budgetWrite
  repeat' first
      | with_reducible assumption | with_reducible apply pageWrite_keeps | with_reducible apply raiseErr_keeps | extract_lets
      | with_reducible apply keeps_ite | with_reducible exact hP _ (by decide) | with_reducible exact parts_in hP
      | with_reducible exact le_side (by omega) | with_reducible exact lt_side (by omega) | with_reducible exact off_small _ _ _
      | with_reducible intro _ | split | dsimp +zetaDelta only

theorem ctoWrite_keeps {P : List Part} {s : State} {a1 : State} (a2) (hP : ∀ q ∈ ([.page .ep, .staged, .cxl] : List Part), q ∈ P) (h : Keeps P s a1) :
    Keeps P s (ctoWrite a1 a2) := by
  unfold ctoWrite
  repeat' first
      | with_reducible assumption | with_reducible apply budgetWrite_keeps | with_reducible apply ctoChange_keeps
      | with_reducible apply cfgGate_keeps | with_reducible apply keeps_ite | with_reducible exact hP _ (by decide)
      | with_reducible exact parts_in hP | with_reducible intro _ | split

theorem execCompletionTimeoutWrite_keeps {P : List Part} {s : State} (a1) {a2 : State} (hP : ∀ q ∈ ([.page .ep, .staged, .cxl] : List Part), q ∈ P) (h : Keeps P s a2) :
    NextKeeps P s (execCompletionTimeoutWrite a1 a2) := by
  unfold execCompletionTimeoutWrite
  repeat' first
      | with_reducible assumption | with_reducible apply nextKeeps_next | with_reducible apply ctoWrite_keeps
      | with_reducible exact hP _ (by decide) | with_reducible exact parts_in hP | with_reducible intro _

theorem doeRequest_keeps {P : List Part} {s : State} {a1 : State} (a2) (a3) (a4) (h : Keeps P s a1) :
    Keeps P s (doeRequest a1 a2 a3 a4) := by
  unfold doeRequest
  repeat' first
      | with_reducible assumption | with_reducible apply emit_keeps | with_reducible apply keeps_ite | with_reducible intro _ | split

theorem execDoeRequest_keeps {P : List Part} {s : State} (a1) (a2) (a3) {a4 : State} (h : Keeps P s a4) :
    NextKeeps P s (execDoeRequest a1 a2 a3 a4) := by
  unfold execDoeRequest
  repeat' first
      | with_reducible assumption | with_reducible apply nextKeeps_next | with_reducible apply doeRequest_keeps
      | with_reducible apply cfgGate_keeps | with_reducible intro _

theorem commitHdm_keeps {P : List Part} {s : State} {a1 : State} (hP : ∀ q ∈ ([.page .ep] : List Part), q ∈ P) (h : Keeps P s a1) :
    Keeps P s (commitHdm a1) := by
  unfold commitHdm
  repeat' first
      | with_reducible assumption | with_reducible apply raiseErr_keeps | with_reducible apply clrPreg_keeps
      | with_reducible apply orPreg_keeps | with_reducible apply keeps_ite | with_reducible exact hP _ (by decide)
      | with_reducible exact parts_in hP | with_reducible exact le_side (by omega) | with_reducible exact lt_side (by omega)
      | with_reducible exact off_small _ _ _ | with_reducible intro _ | split

theorem uncommitHdm_keeps {P : List Part} {s : State} {a1 : State} (hP : ∀ q ∈ ([.page .ep, .cxl] : List Part), q ∈ P) (h : Keeps P s a1) :
    Keeps P s (uncommitHdm a1) := by
  unfold uncommitHdm
  repeat' first
      | with_reducible assumption | with_reducible apply uncommitCheck_keeps | with_reducible exact hP _ (by decide)
      | with_reducible exact parts_in hP | with_reducible intro _
      | fail_if_no_progress with_reducible refine put_cxl_keeps _ (hP _ (by decide)) ?_

theorem hdmCtrlWrite_keeps {P : List Part} {s : State} {a1 : State} (a2) (hP : ∀ q ∈ ([.page .ep, .staged, .cxl] : List Part), q ∈ P) (h : Keeps P s a1) :
    Keeps P s (hdmCtrlWrite a1 a2) := by
  unfold hdmCtrlWrite
  repeat' first
      | with_reducible assumption | with_reducible apply uncommitHdm_keeps | with_reducible apply commitHdm_keeps
      | with_reducible apply pageWrite_keeps | with_reducible apply goDone_keeps | extract_lets | with_reducible apply keeps_ite
      | with_reducible exact hP _ (by decide) | with_reducible exact parts_in hP | with_reducible exact le_side (by omega)
      | with_reducible exact lt_side (by omega) | with_reducible exact off_small _ _ _ | with_reducible intro _ | split
      | dsimp +zetaDelta only

theorem execCommit_keeps {P : List Part} {s : State} (a1) {a2 : State} (hP : ∀ q ∈ ([.page .ep, .staged, .cxl] : List Part), q ∈ P) (h : Keeps P s a2) :
    NextKeeps P s (execCommit a1 a2) := by
  unfold execCommit
  repeat' first
      | with_reducible assumption | with_reducible apply nextKeeps_next | with_reducible apply hdmCtrlWrite_keeps
      | with_reducible exact hP _ (by decide) | with_reducible exact parts_in hP | with_reducible intro _

theorem execUncommit_keeps {P : List Part} {s : State} (a1) {a2 : State} (hP : ∀ q ∈ ([.page .ep, .staged, .cxl] : List Part), q ∈ P) (h : Keeps P s a2) :
    NextKeeps P s (execUncommit a1 a2) := by
  unfold execUncommit
  repeat' first
      | with_reducible assumption | with_reducible apply nextKeeps_next | with_reducible apply hdmCtrlWrite_keeps
      | with_reducible exact hP _ (by decide) | with_reducible exact parts_in hP | with_reducible intro _

end Sys2Proof.Machine
end

