-- ==== Sys2Proof/Laws/KeepGangplank.lean ====
section
/-! SUPPORT. What the operations of Machine/Gangplank.lean leave alone. -/

set_option Elab.async false

namespace Sys2Proof.Machine

open Sys2Proof

theorem setPregs_keeps {P : List Part} {s t : State} (p o v n) (hb : o + 4 * n ≤ 0x1000) (hp : Part.page (classOf p) ∈ P) (h : Keeps P s t) :
    Keeps P s (setPregs t p o v n) := by
  induction n generalizing t o v with
  | zero => exact h
  | succ n ih => exact ih _ _ (by omega) (setPreg_keeps _ _ _ (by omega) hp h)

theorem offerGp_keeps {P : List Part} {s : State} {a1 : State} (a2) (a3) (a4) (a5) (h : Keeps P s a1) :
    Keeps P s (offerGp a1 a2 a3 a4 a5) := by
  unfold offerGp
  repeat' first
      | with_reducible assumption | with_reducible apply offer_keeps | with_reducible intro _

theorem attemptFails_keeps {P : List Part} {s : State} {a1 : State} (hP : ∀ q ∈ ([.page .gp, .gp] : List Part), q ∈ P) (h : Keeps P s a1) :
    Keeps P s (attemptFails a1) := by
  unfold attemptFails
  repeat' first
      | with_reducible assumption | with_reducible apply raiseErr_keeps | extract_lets | with_reducible apply keeps_ite
      | with_reducible exact hP _ (by decide) | with_reducible exact parts_in hP | with_reducible exact le_side (by omega)
      | with_reducible exact lt_side (by omega) | with_reducible exact off_small _ _ _ | with_reducible intro _ | split
      | fail_if_no_progress with_reducible refine put_gp_keeps _ (hP _ (by decide)) ?_ | dsimp +zetaDelta only

theorem attemptOpens_keeps {P : List Part} {s : State} {a1 : State} (a2) (hP : ∀ q ∈ ([.gp] : List Part), q ∈ P) (h : Keeps P s a1) :
    Keeps P s (attemptOpens a1 a2) := by
  unfold attemptOpens
  repeat' first
      | with_reducible assumption | with_reducible apply keeps_ite | with_reducible intro _ | split
      | fail_if_no_progress with_reducible refine put_gp_keeps _ (hP _ (by decide)) ?_

theorem submitAct_keeps {P : List Part} {s : State} {a1 : State} (a2) (hP : ∀ q ∈ ([.page .gp, .gp] : List Part), q ∈ P) (h : Keeps P s a1) :
    Keeps P s (submitAct a1 a2) := by
  unfold submitAct
  repeat' first
      | with_reducible assumption | with_reducible apply attemptOpens_keeps | with_reducible apply attemptFails_keeps
      | with_reducible apply offerGp_keeps | with_reducible apply setPregs_keeps | with_reducible apply goDone_keeps
      | with_reducible apply cntPreg_keeps | extract_lets | with_reducible apply keeps_ite | with_reducible exact hP _ (by decide)
      | with_reducible exact parts_in hP | with_reducible exact le_side (by omega) | with_reducible exact lt_side (by omega)
      | with_reducible exact off_small _ _ _ | with_reducible intro _ | split
      | fail_if_no_progress with_reducible refine put_gp_keeps _ (hP _ (by decide)) ?_ | dsimp +zetaDelta only

theorem challengeAct_keeps {P : List Part} {s : State} {a1 : State} (hP : ∀ q ∈ ([.page .gp, .gp] : List Part), q ∈ P) (h : Keeps P s a1) :
    Keeps P s (challengeAct a1) := by
  unfold challengeAct
  repeat' first
      | with_reducible assumption | with_reducible apply setPregs_keeps | with_reducible apply goDone_keeps | extract_lets
      | with_reducible exact hP _ (by decide) | with_reducible exact parts_in hP | with_reducible exact le_side (by omega)
      | with_reducible exact lt_side (by omega) | with_reducible exact off_small _ _ _ | with_reducible intro _
      | fail_if_no_progress with_reducible refine put_gp_keeps _ (hP _ (by decide)) ?_
      | fail_if_no_progress with_reducible refine put_fresh_keeps _ ?_
      | fail_if_no_progress refine keeps_mk ?_ (Stays.mk fun q hq => by (cases q <;> first | rfl | exact ⟨rfl, rfl⟩ | exact fun _ _ _ _ _ _ => rfl | exact fun _ _ _ => rfl | exact absurd (hP _ (by decide)) hq))
      | dsimp +zetaDelta only

theorem closeAct_keeps {P : List Part} {s : State} {a1 : State} (a2) (hP : ∀ q ∈ ([.page .gp, .gp] : List Part), q ∈ P) (h : Keeps P s a1) :
    Keeps P s (closeAct a1 a2) := by
  unfold closeAct
  repeat' first
      | with_reducible assumption | with_reducible apply offerGp_keeps | with_reducible apply goDone_keeps | extract_lets
      | with_reducible apply keeps_ite | with_reducible exact hP _ (by decide) | with_reducible exact parts_in hP
      | with_reducible exact le_side (by omega) | with_reducible exact lt_side (by omega) | with_reducible exact off_small _ _ _
      | with_reducible intro _ | split | fail_if_no_progress with_reducible refine put_gp_keeps _ (hP _ (by decide)) ?_
      | dsimp +zetaDelta only

theorem gpCtrlWrite_keeps {P : List Part} {s : State} {a1 : State} (a2) (a3) (hP : ∀ q ∈ ([.page .gp, .staged, .gp] : List Part), q ∈ P) (h : Keeps P s a1) :
    Keeps P s (gpCtrlWrite a1 a2 a3) := by
  unfold gpCtrlWrite
  repeat' first
      | with_reducible assumption | with_reducible apply closeAct_keeps | with_reducible apply challengeAct_keeps
      | with_reducible apply submitAct_keeps | with_reducible apply pageWrite_keeps | extract_lets | with_reducible apply keeps_ite
      | with_reducible exact hP _ (by decide) | with_reducible exact parts_in hP | with_reducible exact le_side (by omega)
      | with_reducible exact lt_side (by omega) | with_reducible exact off_small _ _ _ | with_reducible intro _ | split
      | dsimp +zetaDelta only

theorem loadIr_keeps {P : List Part} {s : State} {a1 : State} (a2) (hP : ∀ q ∈ ([.gp] : List Part), q ∈ P) (h : Keeps P s a1) :
    Keeps P s (loadIr a1 a2) := by
  unfold loadIr
  repeat' first
      | with_reducible assumption | with_reducible intro _ | fail_if_no_progress with_reducible refine put_gp_keeps _ (hP _ (by decide)) ?_

theorem gpPath_keeps {P : List Part} {s : State} {a1 : State} (a2) (a3) (hP : ∀ q ∈ ([.page .gp, .staged, .gp] : List Part), q ∈ P) (h : Keeps P s a1) :
    Keeps P s (gpPath a1 a2 a3) := by
  unfold gpPath
  repeat' first
      | with_reducible assumption | with_reducible apply loadIr_keeps | with_reducible apply gpCtrlWrite_keeps
      | with_reducible apply keeps_ite | with_reducible exact hP _ (by decide) | with_reducible exact parts_in hP | with_reducible intro _
      | split

theorem execChallenge_keeps {P : List Part} {s : State} (a1) (a2) {a3 : State} (hP : ∀ q ∈ ([.page .gp, .staged, .gp] : List Part), q ∈ P) (h : Keeps P s a3) :
    NextKeeps P s (execChallenge a1 a2 a3) := by
  unfold execChallenge
  repeat' first
      | with_reducible assumption | with_reducible apply nextKeeps_next | with_reducible apply gpPath_keeps
      | with_reducible exact hP _ (by decide) | with_reducible exact parts_in hP | with_reducible intro _

theorem execSubmit_keeps {P : List Part} {s : State} (a1) (a2) {a3 : State} (hP : ∀ q ∈ ([.page .gp, .staged, .gp] : List Part), q ∈ P) (h : Keeps P s a3) :
    NextKeeps P s (execSubmit a1 a2 a3) := by
  unfold execSubmit
  repeat' first
      | with_reducible assumption | with_reducible apply nextKeeps_next | with_reducible apply gpPath_keeps
      | with_reducible exact hP _ (by decide) | with_reducible exact parts_in hP | with_reducible intro _

theorem execClose_keeps {P : List Part} {s : State} (a1) (a2) {a3 : State} (hP : ∀ q ∈ ([.page .gp, .staged, .gp] : List Part), q ∈ P) (h : Keeps P s a3) :
    NextKeeps P s (execClose a1 a2 a3) := by
  unfold execClose
  repeat' first
      | with_reducible assumption | with_reducible apply nextKeeps_next | with_reducible apply gpPath_keeps
      | with_reducible exact hP _ (by decide) | with_reducible exact parts_in hP | with_reducible intro _

theorem execNonceExpiry_keeps {P : List Part} {s : State} {a1 : State} (hP : ∀ q ∈ ([.gp] : List Part), q ∈ P) (h : Keeps P s a1) :
    NextKeeps P s (execNonceExpiry a1) := by
  unfold execNonceExpiry
  repeat' first
      | with_reducible assumption | with_reducible apply nextKeeps_next | with_reducible intro _
      | fail_if_no_progress with_reducible refine put_gp_keeps _ (hP _ (by decide)) ?_

theorem jtagOnly_keeps {P : List Part} {s : State} {a1 : State} (a2) (hP : ∀ q ∈ ([.gp] : List Part), q ∈ P) (h : Keeps P s a1) :
    Keeps P s (jtagOnly a1 a2) := by
  unfold jtagOnly
  repeat' first
      | with_reducible assumption | with_reducible apply loadIr_keeps | with_reducible apply keeps_ite
      | with_reducible exact hP _ (by decide) | with_reducible exact parts_in hP | with_reducible intro _ | split

theorem execExtest_keeps {P : List Part} {s : State} {a1 : State} (hP : ∀ q ∈ ([.gp] : List Part), q ∈ P) (h : Keeps P s a1) :
    NextKeeps P s (execExtest a1) := by
  unfold execExtest
  repeat' first
      | with_reducible assumption | with_reducible apply nextKeeps_next | with_reducible apply jtagOnly_keeps
      | with_reducible exact hP _ (by decide) | with_reducible exact parts_in hP | with_reducible intro _

theorem execSamplePreload_keeps {P : List Part} {s : State} {a1 : State} (hP : ∀ q ∈ ([.gp] : List Part), q ∈ P) (h : Keeps P s a1) :
    NextKeeps P s (execSamplePreload a1) := by
  unfold execSamplePreload
  repeat' first
      | with_reducible assumption | with_reducible apply nextKeeps_next | with_reducible apply jtagOnly_keeps
      | with_reducible exact hP _ (by decide) | with_reducible exact parts_in hP | with_reducible intro _

theorem execIdcode_keeps {P : List Part} {s : State} {a1 : State} (hP : ∀ q ∈ ([.gp] : List Part), q ∈ P) (h : Keeps P s a1) :
    NextKeeps P s (execIdcode a1) := by
  unfold execIdcode
  repeat' first
      | with_reducible assumption | with_reducible apply nextKeeps_next | with_reducible apply loadIr_keeps
      | with_reducible apply emit_keeps | with_reducible apply keeps_ite | with_reducible exact hP _ (by decide)
      | with_reducible exact parts_in hP | with_reducible intro _ | split

theorem execBypass_keeps {P : List Part} {s : State} (a1) {a2 : State} (hP : ∀ q ∈ ([.gp] : List Part), q ∈ P) (h : Keeps P s a2) :
    NextKeeps P s (execBypass a1 a2) := by
  unfold execBypass
  repeat' first
      | with_reducible assumption | with_reducible apply nextKeeps_next | with_reducible apply jtagOnly_keeps
      | with_reducible apply keeps_ite | with_reducible exact hP _ (by decide) | with_reducible exact parts_in hP | with_reducible intro _
      | split

theorem trstLevel_keeps {P : List Part} {s : State} {a1 : State} (a2) (hP : ∀ q ∈ ([.gp, .mod] : List Part), q ∈ P) (h : Keeps P s a1) :
    Keeps P s (trstLevel a1 a2) := by
  unfold trstLevel
  repeat' first
      | with_reducible assumption | extract_lets | with_reducible apply keeps_ite | with_reducible intro _ | split
      | fail_if_no_progress with_reducible refine put_gp_keeps _ (hP _ (by decide)) ?_
      | fail_if_no_progress with_reducible refine put_mod_keeps _ (hP _ (by decide)) ?_
      | fail_if_no_progress refine keeps_mk ?_ (Stays.mk fun q hq => by (cases q <;> first | rfl | exact ⟨rfl, rfl⟩ | exact fun _ _ _ _ _ _ => rfl | exact fun _ _ _ => rfl | exact absurd (hP _ (by decide)) hq))
      | dsimp +zetaDelta only

theorem execTrstN_keeps {P : List Part} {s : State} (a1) {a2 : State} (hP : ∀ q ∈ ([.gp, .mod] : List Part), q ∈ P) (h : Keeps P s a2) :
    NextKeeps P s (execTrstN a1 a2) := by
  unfold execTrstN
  repeat' first
      | with_reducible assumption | with_reducible apply nextKeeps_next | with_reducible apply trstLevel_keeps
      | with_reducible exact hP _ (by decide) | with_reducible exact parts_in hP | with_reducible intro _

theorem stray_keeps {P : List Part} {s : State} {a1 : State} (a2) (a3) (hP : ∀ q ∈ ([.page .dev] : List Part), q ∈ P) (h : Keeps P s a1) :
    Keeps P s (stray a1 a2 a3) := by
  unfold stray
  repeat' first
      | with_reducible assumption | with_reducible apply cntPreg_keeps | with_reducible apply setPreg_keeps
      | with_reducible exact hP _ (by decide) | with_reducible exact parts_in hP | with_reducible exact le_side (by omega)
      | with_reducible exact lt_side (by omega) | with_reducible exact off_small _ _ _ | with_reducible intro _

theorem debugRead_keeps {P : List Part} {s : State} {a1 : State} (a2) (h : Keeps P s a1) :
    Keeps P s (debugRead a1 a2) := by
  unfold debugRead
  repeat' first
      | with_reducible assumption | with_reducible apply emit_keeps | with_reducible intro _
      | fail_if_no_progress with_reducible refine put_fresh_keeps _ ?_

theorem debugWrite_keeps {P : List Part} {s : State} {a1 : State} (a2) (a3) (hP : ∀ q ∈ ([.gp] : List Part), q ∈ P) (h : Keeps P s a1) :
    Keeps P s (debugWrite a1 a2 a3) := by
  unfold debugWrite
  repeat' first
      | with_reducible assumption | with_reducible intro _ | fail_if_no_progress with_reducible refine put_gp_keeps _ (hP _ (by decide)) ?_

theorem execDbg_keeps {P : List Part} {s : State} (a1) (a2) {a3 : State} (hP : ∀ q ∈ ([.gp] : List Part), q ∈ P) (h : Keeps P s a3) :
    NextKeeps P s (execDbg a1 a2 a3) := by
  unfold execDbg
  repeat' first
      | with_reducible assumption | with_reducible apply nextKeeps_next | with_reducible apply debugWrite_keeps
      | with_reducible apply debugRead_keeps | with_reducible apply loadIr_keeps | with_reducible apply keeps_ite
      | with_reducible exact hP _ (by decide) | with_reducible exact parts_in hP | with_reducible intro _ | split

theorem execDebugWindowAccess_keeps {P : List Part} {s : State} (a1) (a2) {a3 : State} (hP : ∀ q ∈ ([.page .dev, .gp] : List Part), q ∈ P) (h : Keeps P s a3) :
    NextKeeps P s (execDebugWindowAccess a1 a2 a3) := by
  unfold execDebugWindowAccess
  repeat' first
      | with_reducible assumption | with_reducible apply nextKeeps_next | with_reducible apply debugWrite_keeps
      | with_reducible apply debugRead_keeps | with_reducible apply stray_keeps | with_reducible apply emit_keeps
      | with_reducible apply keeps_ite | with_reducible exact hP _ (by decide) | with_reducible exact parts_in hP | with_reducible intro _
      | split

end Sys2Proof.Machine
end

