-- ==== Sys2Proof/Laws/KeepLogbook.lean ====
section
/-! SUPPORT. What the operations of Machine/Logbook.lean leave alone. -/

set_option Elab.async false

namespace Sys2Proof.Machine

open Sys2Proof

theorem natBytes_length (n v : Nat) : (natBytes n v).length = n := by
  induction n generalizing v with
  | zero => rfl
  | succ n ih => simp only [natBytes, List.length_cons, ih]

theorem entryBytes_length (l : List (BitVec 256)) : (entryBytes l).length = 32 * l.length := by
  induction l with
  | nil => rfl
  | cons a l ih =>
    rw [entryBytes, List.flatMap_cons, List.length_append, ← entryBytes, ih, bvBytes, natBytes_length, List.length_cons]
    omega

theorem pageOf_length (l : List Byte) (h : l.length ≤ 256) : (pageOf l).length = 256 := by
  simp only [pageOf, List.length_append, List.length_replicate]
  omega

theorem slotPage_length (x : FlashSlot) (p : Nat) : (slotPage x p).length = 256 := by
  unfold slotPage
  split
  · refine pageOf_length _ ?_
    split
    · rw [bvBytes, natBytes_length]; omega
    · exact Nat.zero_le _
  · split
    · refine pageOf_length _ ?_
      rw [entryBytes_length]
      have : ((x.body.drop (8 * (p - 1))).take 8).length ≤ 8 := List.length_take_le _ _
      omega
    · simp only [List.length_append, List.length_replicate]
      split <;> split <;> simp only [bvBytes, natBytes_length, List.length_replicate]

theorem rdBlock_length (s : State) : (rdBlock s).length = 2048 := by
  unfold rdBlock
  extract_lets sel b x
  split
  · rw [entryBytes_length, List.length_map, List.length_range]
  · simp only [List.length_flatMap, slotPage_length, List.map_const', List.length_range, List.sum_replicate, smul_eq_mul]

theorem loseEntry_keeps {P : List Part} {s : State} {a1 : State} (hP : ∀ q ∈ ([.page .lb, .lb] : List Part), q ∈ P) (h : Keeps P s a1) :
    Keeps P s (loseEntry a1) := by
  unfold loseEntry
  repeat' first
      | with_reducible assumption | with_reducible apply cntPreg_keeps | with_reducible exact hP _ (by decide)
      | with_reducible exact parts_in hP | with_reducible exact le_side (by omega) | with_reducible exact lt_side (by omega)
      | with_reducible exact off_small _ _ _ | with_reducible intro _
      | fail_if_no_progress with_reducible refine put_lb_keeps _ (hP _ (by decide)) ?_

theorem ringPut_keeps {P : List Part} {s : State} {a1 : State} (a2) (hP : ∀ q ∈ ([.page .lb, .lb] : List Part), q ∈ P) (h : Keeps P s a1) :
    Keeps P s (ringPut a1 a2) := by
  unfold ringPut
  repeat' first
      | with_reducible assumption | with_reducible apply cntPreg_keeps | extract_lets | with_reducible exact hP _ (by decide)
      | with_reducible exact parts_in hP | with_reducible exact le_side (by omega) | with_reducible exact lt_side (by omega)
      | with_reducible exact off_small _ _ _ | with_reducible intro _
      | fail_if_no_progress with_reducible refine put_lb_keeps _ (hP _ (by decide)) ?_ | dsimp +zetaDelta only

theorem ringWrite_keeps {P : List Part} {s : State} {a1 : State} (a2) (hP : ∀ q ∈ ([.page .lb, .lb] : List Part), q ∈ P) (h : Keeps P s a1) :
    Keeps P s (ringWrite a1 a2) := by
  unfold ringWrite
  repeat' first
      | with_reducible assumption | with_reducible apply ringPut_keeps | with_reducible apply loseEntry_keeps
      | with_reducible apply keeps_ite | with_reducible exact hP _ (by decide) | with_reducible exact parts_in hP | with_reducible intro _
      | split

theorem droppedFirst_keeps {P : List Part} {s : State} {a1 : State} (hP : ∀ q ∈ ([.page .lb, .lb] : List Part), q ∈ P) (h : Keeps P s a1) :
    Keeps P s (droppedFirst a1) := by
  unfold droppedFirst
  repeat' first
      | with_reducible assumption | with_reducible apply ringPut_keeps | with_reducible apply keeps_ite
      | with_reducible exact hP _ (by decide) | with_reducible exact parts_in hP | with_reducible intro _ | split
      | fail_if_no_progress with_reducible refine put_lb_keeps _ (hP _ (by decide)) ?_

theorem writeOne_keeps {P : List Part} {s : State} {a1 : State} (hP : ∀ q ∈ ([.page .lb, .lb] : List Part), q ∈ P) (h : Keeps P s a1) :
    Keeps P s (writeOne a1) := by
  unfold writeOne
  repeat' first
      | with_reducible assumption | with_reducible apply droppedFirst_keeps | with_reducible apply ringWrite_keeps
      | with_reducible exact hP _ (by decide) | with_reducible exact parts_in hP | with_reducible intro _ | split
      | fail_if_no_progress with_reducible refine put_lb_keeps _ (hP _ (by decide)) ?_

theorem writeAll_keeps {P : List Part} {s : State} {a1 : State} (hP : ∀ q ∈ ([.page .lb, .lb] : List Part), q ∈ P) (h : Keeps P s a1) :
    Keeps P s (writeAll a1) := by
  unfold writeAll
  repeat' first
      | with_reducible assumption | with_reducible apply writeOne_keeps | with_reducible apply keeps_range
      | with_reducible apply keeps_foldl | with_reducible apply keeps_foldl1 | with_reducible exact hP _ (by decide)
      | with_reducible exact parts_in hP | with_reducible intro _

theorem execLogbookEntry_keeps {P : List Part} {s : State} {a1 : State} (hP : ∀ q ∈ ([.page .lb, .lb] : List Part), q ∈ P) (h : Keeps P s a1) :
    NextKeeps P s (execLogbookEntry a1) := by
  unfold execLogbookEntry
  repeat' first
      | with_reducible assumption | with_reducible apply nextKeeps_next | with_reducible apply writeOne_keeps
      | with_reducible exact hP _ (by decide) | with_reducible exact parts_in hP | with_reducible intro _

theorem setSlot_keeps {P : List Part} {s : State} {a1 : State} (a2) (a3) (hP : ∀ q ∈ ([.lb] : List Part), q ∈ P) (h : Keeps P s a1) :
    Keeps P s (setSlot a1 a2 a3) := by
  unfold setSlot
  repeat' first
      | with_reducible assumption | with_reducible intro _ | fail_if_no_progress with_reducible refine put_lb_keeps _ (hP _ (by decide)) ?_

theorem eraseNext_keeps {P : List Part} {s : State} {a1 : State} (h : Keeps P s a1) :
    Keeps P s (eraseNext a1) := by
  unfold eraseNext
  repeat' first
      | with_reducible assumption | with_reducible apply emit_keeps | with_reducible intro _ | split

theorem offerSnap_keeps {P : List Part} {s : State} {a1 : State} (a2) (a3) (a4) (a5) (h : Keeps P s a1) :
    Keeps P s (offerSnap a1 a2 a3 a4 a5) := by
  unfold offerSnap
  repeat' first
      | with_reducible assumption | with_reducible apply offer_keeps | with_reducible intro _

theorem snapGoDone_keeps {P : List Part} {s : State} {a1 : State} (a2) (hP : ∀ q ∈ ([.page .lb] : List Part), q ∈ P) (h : Keeps P s a1) :
    Keeps P s (snapGoDone a1 a2) := by
  unfold snapGoDone
  repeat' first
      | with_reducible assumption | with_reducible apply goDone_keeps | with_reducible apply keeps_ite
      | with_reducible exact hP _ (by decide) | with_reducible exact parts_in hP | with_reducible exact le_side (by omega)
      | with_reducible exact lt_side (by omega) | with_reducible exact off_small _ _ _ | with_reducible intro _ | split

theorem beginSnap_keeps {P : List Part} {s : State} {a1 : State} (a2) (a3) (a4) (hP : ∀ q ∈ ([.page .lb, .lb] : List Part), q ∈ P) (h : Keeps P s a1) :
    Keeps P s (beginSnap a1 a2 a3 a4) := by
  unfold beginSnap
  repeat' first
      | with_reducible assumption | with_reducible apply snapGoDone_keeps | with_reducible apply offerSnap_keeps
      | with_reducible apply setSlot_keeps | with_reducible apply writeAll_keeps | with_reducible apply raiseErr_keeps
      | with_reducible apply emit_keeps | extract_lets | with_reducible exact hP _ (by decide) | with_reducible exact parts_in hP
      | with_reducible exact le_side (by omega) | with_reducible exact lt_side (by omega) | with_reducible exact off_small _ _ _
      | with_reducible intro _ | split | fail_if_no_progress with_reducible refine put_lb_keeps _ (hP _ (by decide)) ?_
      | dsimp +zetaDelta only

theorem nextSnap_keeps {P : List Part} {s : State} {a1 : State} (hP : ∀ q ∈ ([.page .lb, .lb] : List Part), q ∈ P) (h : Keeps P s a1) :
    Keeps P s (nextSnap a1) := by
  unfold nextSnap
  repeat' first
      | with_reducible assumption | with_reducible apply beginSnap_keeps | with_reducible apply eraseNext_keeps | extract_lets
      | with_reducible apply keeps_ite | with_reducible exact hP _ (by decide) | with_reducible exact parts_in hP | with_reducible intro _
      | split | fail_if_no_progress with_reducible refine put_lb_keeps _ (hP _ (by decide)) ?_ | dsimp +zetaDelta only

theorem fatalSnap_keeps {P : List Part} {s : State} {a1 : State} (hP : ∀ q ∈ ([.page .lb, .lb] : List Part), q ∈ P) (h : Keeps P s a1) :
    Keeps P s (fatalSnap a1) := by
  unfold fatalSnap
  repeat' first
      | with_reducible assumption | with_reducible apply beginSnap_keeps | with_reducible apply keeps_ite
      | with_reducible exact hP _ (by decide) | with_reducible exact parts_in hP | with_reducible intro _ | split
      | fail_if_no_progress with_reducible refine put_lb_keeps _ (hP _ (by decide)) ?_

theorem abandonSnap_keeps {P : List Part} {s : State} {a1 : State} (hP : ∀ q ∈ ([.page .lb, .lb] : List Part), q ∈ P) (h : Keeps P s a1) :
    Keeps P s (abandonSnap a1) := by
  unfold abandonSnap
  repeat' first
      | with_reducible assumption | with_reducible apply snapGoDone_keeps | with_reducible apply offerSnap_keeps
      | with_reducible exact hP _ (by decide) | with_reducible exact parts_in hP | with_reducible intro _ | split
      | fail_if_no_progress with_reducible refine put_lb_keeps _ (hP _ (by decide)) ?_

theorem powerFailSnap_keeps {P : List Part} {s : State} {a1 : State} (hP : ∀ q ∈ ([.page .lb, .lb] : List Part), q ∈ P) (h : Keeps P s a1) :
    Keeps P s (powerFailSnap a1) := by
  unfold powerFailSnap
  repeat' first
      | with_reducible assumption | with_reducible apply abandonSnap_keeps | with_reducible apply beginSnap_keeps
      | with_reducible apply eraseNext_keeps | with_reducible apply keeps_ite | with_reducible exact hP _ (by decide)
      | with_reducible exact parts_in hP | with_reducible intro _ | split

theorem hostSnap_keeps {P : List Part} {s : State} {a1 : State} (hP : ∀ q ∈ ([.page .lb, .lb] : List Part), q ∈ P) (h : Keeps P s a1) :
    Keeps P s (hostSnap a1) := by
  unfold hostSnap
  repeat' first
      | with_reducible assumption | with_reducible apply beginSnap_keeps | with_reducible apply goDone_keeps
      | with_reducible apply keeps_ite | with_reducible exact hP _ (by decide) | with_reducible exact parts_in hP
      | with_reducible exact le_side (by omega) | with_reducible exact lt_side (by omega) | with_reducible exact off_small _ _ _
      | with_reducible intro _ | split | fail_if_no_progress with_reducible refine put_lb_keeps _ (hP _ (by decide)) ?_

theorem commitSnap_keeps {P : List Part} {s : State} {a1 : State} (a2) (hP : ∀ q ∈ ([.page .lb, .lb] : List Part), q ∈ P) (h : Keeps P s a1) :
    Keeps P s (commitSnap a1 a2) := by
  unfold commitSnap
  repeat' first
      | with_reducible assumption | with_reducible apply nextSnap_keeps | with_reducible apply snapGoDone_keeps
      | with_reducible apply offerSnap_keeps | with_reducible apply cntPreg_keeps | with_reducible apply setPreg_keeps | extract_lets
      | with_reducible exact hP _ (by decide) | with_reducible exact parts_in hP | with_reducible exact le_side (by omega)
      | with_reducible exact lt_side (by omega) | with_reducible exact off_small _ _ _ | with_reducible intro _
      | fail_if_no_progress with_reducible refine put_lb_keeps _ (hP _ (by decide)) ?_ | dsimp +zetaDelta only

theorem flashDone_keeps {P : List Part} {s : State} {a1 : State} (a2) (a3) (hP : ∀ q ∈ ([.page .lb, .lb] : List Part), q ∈ P) (h : Keeps P s a1) :
    Keeps P s (flashDone a1 a2 a3) := by
  unfold flashDone
  repeat' first
      | with_reducible assumption | with_reducible apply commitSnap_keeps | with_reducible apply eraseNext_keeps
      | with_reducible apply setSlot_keeps | with_reducible apply raiseErr_keeps | with_reducible apply when_keeps
      | with_reducible apply emit_keeps | with_reducible apply setPreg_keeps | extract_lets | with_reducible apply keeps_ite
      | with_reducible exact hP _ (by decide) | with_reducible exact parts_in hP | with_reducible exact le_side (by omega)
      | with_reducible exact lt_side (by omega) | with_reducible exact off_small _ _ _ | with_reducible intro _ | split
      | fail_if_no_progress with_reducible refine put_lb_keeps _ (hP _ (by decide)) ?_ | dsimp +zetaDelta only

theorem execFlashOperationComplete_keeps {P : List Part} {s : State} (a1) (a2) {a3 : State} (hP : ∀ q ∈ ([.page .lb, .lb] : List Part), q ∈ P) (h : Keeps P s a3) :
    NextKeeps P s (execFlashOperationComplete a1 a2 a3) := by
  unfold execFlashOperationComplete
  repeat' first
      | with_reducible assumption | with_reducible apply nextKeeps_next | with_reducible apply flashDone_keeps
      | with_reducible exact hP _ (by decide) | with_reducible exact parts_in hP | with_reducible intro _

theorem execFlashErr_keeps {P : List Part} {s : State} {a1 : State} (hP : ∀ q ∈ ([.page .lb, .lb] : List Part), q ∈ P) (h : Keeps P s a1) :
    NextKeeps P s (execFlashErr a1) := by
  unfold execFlashErr
  repeat' first
      | with_reducible assumption | with_reducible apply nextKeeps_next | with_reducible apply abandonSnap_keeps
      | with_reducible apply nextSnap_keeps | with_reducible apply raiseErr_keeps | with_reducible exact hP _ (by decide)
      | with_reducible exact parts_in hP | with_reducible exact le_side (by omega) | with_reducible exact lt_side (by omega)
      | with_reducible exact off_small _ _ _ | with_reducible intro _

theorem execPowerFailFollowup_keeps {P : List Part} {s : State} {a1 : State} (hP : ∀ q ∈ ([.page .lb, .lb] : List Part), q ∈ P) (h : Keeps P s a1) :
    NextKeeps P s (execPowerFailFollowup a1) := by
  unfold execPowerFailFollowup
  repeat' first
      | with_reducible assumption | with_reducible apply nextKeeps_next | with_reducible apply beginSnap_keeps | extract_lets
      | with_reducible apply keeps_ite | with_reducible exact hP _ (by decide) | with_reducible exact parts_in hP | with_reducible intro _
      | split | fail_if_no_progress with_reducible refine put_lb_keeps _ (hP _ (by decide)) ?_ | dsimp +zetaDelta only

theorem loadWords_keeps {P : List Part} {s t : State} (p o) (bs : List Byte) (hb : o + bs.length ≤ 0x1000) (hp : Part.page (classOf p) ∈ P)
    (h : Keeps P s t) : Keeps P s (loadWords t p o bs) := by
  induction t, o, bs using loadWords.induct (p := p) with
  | case1 t o a b c d rest ih =>
    simp only [List.length_cons] at hb
    exact ih (by omega) (setPreg_keeps _ _ _ (by omega) hp h)
  | case2 t o bs hn =>
    unfold loadWords
    split
    · next a b c d rest => exact absurd rfl (hn a b c d rest)
    · exact h

theorem rdLoad_keeps {P : List Part} {s t : State} (hP : ∀ q ∈ ([.page .lb] : List Part), q ∈ P) (h : Keeps P s t) : Keeps P s (rdLoad t) := by
  have hp : Part.page (classOf .lb) ∈ P := hP (.page .lb) (by decide)
  exact goDone_keeps _ _ _ (by decide) hp (loadWords_keeps .lb 0x800 _ (by rw [rdBlock_length]) hp h)

theorem noteAct_keeps {P : List Part} {s : State} {a1 : State} (hP : ∀ q ∈ ([.page .lb] : List Part), q ∈ P) (h : Keeps P s a1) :
    Keeps P s (noteAct a1) := by
  unfold noteAct
  repeat' first
      | with_reducible assumption | with_reducible apply offer_keeps | with_reducible apply goDone_keeps
      | with_reducible exact hP _ (by decide) | with_reducible exact parts_in hP | with_reducible exact le_side (by omega)
      | with_reducible exact lt_side (by omega) | with_reducible exact off_small _ _ _ | with_reducible intro _

theorem lbCtrlWrite_keeps {P : List Part} {s : State} {a1 : State} (a2) (hP : ∀ q ∈ ([.page .lb, .staged, .lb] : List Part), q ∈ P) (h : Keeps P s a1) :
    Keeps P s (lbCtrlWrite a1 a2) := by
  unfold lbCtrlWrite
  repeat' first
      | with_reducible assumption | with_reducible apply noteAct_keeps | with_reducible apply rdLoad_keeps
      | with_reducible apply hostSnap_keeps | with_reducible apply pageWrite_keeps | extract_lets | with_reducible apply keeps_ite
      | with_reducible exact hP _ (by decide) | with_reducible exact parts_in hP | with_reducible exact le_side (by omega)
      | with_reducible exact lt_side (by omega) | with_reducible exact off_small _ _ _ | with_reducible intro _ | split
      | dsimp +zetaDelta only

theorem execLbSnap_keeps {P : List Part} {s : State} (a1) {a2 : State} (hP : ∀ q ∈ ([.page .lb, .staged, .lb] : List Part), q ∈ P) (h : Keeps P s a2) :
    NextKeeps P s (execLbSnap a1 a2) := by
  unfold execLbSnap
  repeat' first
      | with_reducible assumption | with_reducible apply nextKeeps_next | with_reducible apply lbCtrlWrite_keeps
      | with_reducible exact hP _ (by decide) | with_reducible exact parts_in hP | with_reducible intro _

theorem execRdLoad_keeps {P : List Part} {s : State} (a1) {a2 : State} (hP : ∀ q ∈ ([.page .lb, .staged, .lb] : List Part), q ∈ P) (h : Keeps P s a2) :
    NextKeeps P s (execRdLoad a1 a2) := by
  unfold execRdLoad
  repeat' first
      | with_reducible assumption | with_reducible apply nextKeeps_next | with_reducible apply lbCtrlWrite_keeps
      | with_reducible exact hP _ (by decide) | with_reducible exact parts_in hP | with_reducible intro _

theorem execNote_keeps {P : List Part} {s : State} (a1) {a2 : State} (hP : ∀ q ∈ ([.page .lb, .staged, .lb] : List Part), q ∈ P) (h : Keeps P s a2) :
    NextKeeps P s (execNote a1 a2) := by
  unfold execNote
  repeat' first
      | with_reducible assumption | with_reducible apply nextKeeps_next | with_reducible apply lbCtrlWrite_keeps
      | with_reducible exact hP _ (by decide) | with_reducible exact parts_in hP | with_reducible intro _

theorem lbBoot_keeps {P : List Part} {s : State} {a1 : State} (hP : ∀ q ∈ ([.page .lb, .lb] : List Part), q ∈ P) (h : Keeps P s a1) :
    Keeps P s (lbBoot a1) := by
  unfold lbBoot
  repeat' first
      | with_reducible assumption | with_reducible apply eraseNext_keeps | with_reducible apply setPreg_keeps | extract_lets
      | with_reducible apply keeps_range | with_reducible apply keeps_foldl | with_reducible apply keeps_foldl1
      | with_reducible exact hP _ (by decide) | with_reducible exact parts_in hP | with_reducible exact le_side (by omega)
      | with_reducible exact lt_side (by omega) | with_reducible exact off_small _ _ _ | with_reducible intro _ | split
      | fail_if_no_progress with_reducible refine put_lb_keeps _ (hP _ (by decide)) ?_ | dsimp +zetaDelta only

end Sys2Proof.Machine
end

