-- ==== Sys2Proof/Laws/KeepModule.lean ====
section
/-! SUPPORT. What the operations of Machine/Module.lean leave alone. -/

set_option Elab.async false

namespace Sys2Proof.Machine

open Sys2Proof

theorem execMainConversionStart_keeps {P : List Part} {s : State} {a1 : State} (hP : ∀ q ∈ ([.mod] : List Part), q ∈ P) (h : Keeps P s a1) :
    NextKeeps P s (execMainConversionStart a1) := by
  unfold execMainConversionStart
  repeat' first
      | with_reducible assumption | with_reducible apply nextKeeps_next | with_reducible apply normal_keeps | with_reducible apply keeps_ite
      | with_reducible exact hP _ (by decide) | with_reducible exact parts_in hP | with_reducible intro _ | split
      | fail_if_no_progress with_reducible refine put_mod_keeps _ (hP _ (by decide)) ?_

theorem standbyLost_keeps {P : List Part} {s : State} {a1 : State} (hP : ∀ q ∈ ([.lb, .mod] : List Part), q ∈ P) (h : Keeps P s a1) :
    Keeps P s (standbyLost a1) := by
  unfold standbyLost
  repeat' first
      | with_reducible assumption | with_reducible intro _ | fail_if_no_progress with_reducible refine put_mod_keeps _ (hP _ (by decide)) ?_
      | fail_if_no_progress with_reducible refine put_lb_keeps _ (hP _ (by decide)) ?_
      | fail_if_no_progress refine keeps_mk ?_ (Stays.mk fun q hq => by (cases q <;> first | rfl | exact ⟨rfl, rfl⟩ | exact fun _ _ _ _ _ _ => rfl | exact fun _ _ _ => rfl | exact absurd (hP _ (by decide)) hq))

theorem standbyAstray_keeps {P : List Part} {s : State} {a1 : State} (hP : ∀ q ∈ ([.page .al, .mod] : List Part), q ∈ P) (h : Keeps P s a1) :
    Keeps P s (standbyAstray a1) := by
  unfold standbyAstray
  repeat' first
      | with_reducible assumption | with_reducible apply onset_keeps | with_reducible exact hP _ (by decide)
      | with_reducible exact parts_in hP | with_reducible intro _
      | fail_if_no_progress with_reducible refine put_mod_keeps _ (hP _ (by decide)) ?_

theorem execStandbyLoss_keeps {P : List Part} {s : State} (a1) {a2 : State} (hP : ∀ q ∈ ([.page .al, .lb, .mod] : List Part), q ∈ P) (h : Keeps P s a2) :
    NextKeeps P s (execStandbyLoss a1 a2) := by
  unfold execStandbyLoss
  repeat' first
      | with_reducible assumption | with_reducible apply nextKeeps_next | with_reducible apply standbyAstray_keeps
      | with_reducible apply standbyLost_keeps | with_reducible apply keeps_ite | with_reducible exact hP _ (by decide)
      | with_reducible exact parts_in hP | with_reducible intro _ | split

theorem standbyUp_keeps {P : List Part} {s : State} {a1 : State} (a2) (hP : ∀ q ∈ ([.lb, .mod] : List Part), q ∈ P) (h : Keeps P s a1) :
    Keeps P s (standbyUp a1 a2) := by
  unfold standbyUp
  repeat' first
      | with_reducible assumption | with_reducible apply normal_keeps | with_reducible apply keeps_ite
      | with_reducible exact hP _ (by decide) | with_reducible exact parts_in hP | with_reducible intro _ | split
      | fail_if_no_progress with_reducible refine put_mod_keeps _ (hP _ (by decide)) ?_
      | fail_if_no_progress with_reducible refine put_lb_keeps _ (hP _ (by decide)) ?_
      | fail_if_no_progress refine keeps_mk ?_ (Stays.mk fun q hq => by (cases q <;> first | rfl | exact ⟨rfl, rfl⟩ | exact fun _ _ _ _ _ _ => rfl | exact fun _ _ _ => rfl | exact absurd (hP _ (by decide)) hq))

theorem execStandbyPowerUp_keeps {P : List Part} {s : State} (a1) {a2 : State} (hP : ∀ q ∈ ([.lb, .mod] : List Part), q ∈ P) (h : Keeps P s a2) :
    NextKeeps P s (execStandbyPowerUp a1 a2) := by
  unfold execStandbyPowerUp
  repeat' first
      | with_reducible assumption | with_reducible apply nextKeeps_next | with_reducible apply standbyUp_keeps
      | with_reducible exact hP _ (by decide) | with_reducible exact parts_in hP | with_reducible intro _

theorem setWarning_keeps {P : List Part} {s : State} {a1 : State} (a2) (hP : ∀ q ∈ ([.page .lb, .lb, .mod] : List Part), q ∈ P) (h : Keeps P s a1) :
    Keeps P s (setWarning a1 a2) := by
  unfold setWarning
  repeat' first
      | with_reducible assumption | with_reducible apply powerFailSnap_keeps | with_reducible apply offer_keeps | extract_lets
      | with_reducible apply keeps_ite | with_reducible exact hP _ (by decide) | with_reducible exact parts_in hP | with_reducible intro _
      | split | fail_if_no_progress with_reducible refine put_mod_keeps _ (hP _ (by decide)) ?_ | dsimp +zetaDelta only

theorem pwrFailLevel_keeps {P : List Part} {s : State} {a1 : State} (a2) (hP : ∀ q ∈ ([.page .lb, .page .al, .lb, .mod] : List Part), q ∈ P) (h : Keeps P s a1) :
    Keeps P s (pwrFailLevel a1 a2) := by
  unfold pwrFailLevel
  repeat' first
      | with_reducible assumption | with_reducible apply setWarning_keeps | with_reducible apply normal_keeps
      | with_reducible apply onset_keeps | extract_lets | with_reducible apply keeps_ite | with_reducible exact hP _ (by decide)
      | with_reducible exact parts_in hP | with_reducible intro _ | split | dsimp +zetaDelta only

theorem execPwrFailNAssert_keeps {P : List Part} {s : State} {a1 : State} (hP : ∀ q ∈ ([.page .lb, .page .al, .lb, .mod] : List Part), q ∈ P) (h : Keeps P s a1) :
    NextKeeps P s (execPwrFailNAssert a1) := by
  unfold execPwrFailNAssert
  repeat' first
      | with_reducible assumption | with_reducible apply nextKeeps_next | with_reducible apply pwrFailLevel_keeps
      | with_reducible exact hP _ (by decide) | with_reducible exact parts_in hP | with_reducible intro _

theorem execPwrFailNRelease_keeps {P : List Part} {s : State} {a1 : State} (hP : ∀ q ∈ ([.page .lb, .page .al, .lb, .mod] : List Part), q ∈ P) (h : Keeps P s a1) :
    NextKeeps P s (execPwrFailNRelease a1) := by
  unfold execPwrFailNRelease
  repeat' first
      | with_reducible assumption | with_reducible apply nextKeeps_next | with_reducible apply pwrFailLevel_keeps
      | with_reducible exact hP _ (by decide) | with_reducible exact parts_in hP | with_reducible intro _

theorem execIntPf_keeps {P : List Part} {s : State} {a1 : State} (hP : ∀ q ∈ ([.page .lb, .lb, .mod] : List Part), q ∈ P) (h : Keeps P s a1) :
    NextKeeps P s (execIntPf a1) := by
  unfold execIntPf
  repeat' first
      | with_reducible assumption | with_reducible apply nextKeeps_next | with_reducible apply setWarning_keeps
      | with_reducible exact hP _ (by decide) | with_reducible exact parts_in hP | with_reducible intro _

theorem execIntPfRelease_keeps {P : List Part} {s : State} {a1 : State} (hP : ∀ q ∈ ([.page .lb, .lb, .mod] : List Part), q ∈ P) (h : Keeps P s a1) :
    NextKeeps P s (execIntPfRelease a1) := by
  unfold execIntPfRelease
  repeat' first
      | with_reducible assumption | with_reducible apply nextKeeps_next | with_reducible apply setWarning_keeps
      | with_reducible exact hP _ (by decide) | with_reducible exact parts_in hP | with_reducible intro _

theorem leakMeasure_keeps {P : List Part} {s : State} {a1 : State} (a2) (hP : ∀ q ∈ ([.page .al, .mod] : List Part), q ∈ P) (h : Keeps P s a1) :
    Keeps P s (leakMeasure a1 a2) := by
  unfold leakMeasure
  repeat' first
      | with_reducible assumption | with_reducible apply normal_keeps | with_reducible apply onset_keeps | extract_lets
      | with_reducible apply keeps_ite | with_reducible exact hP _ (by decide) | with_reducible exact parts_in hP | with_reducible intro _
      | split | fail_if_no_progress with_reducible refine put_mod_keeps _ (hP _ (by decide)) ?_ | dsimp +zetaDelta only

theorem execLeakMeasurement_keeps {P : List Part} {s : State} (a1) {a2 : State} (hP : ∀ q ∈ ([.page .al, .mod] : List Part), q ∈ P) (h : Keeps P s a2) :
    NextKeeps P s (execLeakMeasurement a1 a2) := by
  unfold execLeakMeasurement
  repeat' first
      | with_reducible assumption | with_reducible apply nextKeeps_next | with_reducible apply leakMeasure_keeps
      | with_reducible exact hP _ (by decide) | with_reducible exact parts_in hP | with_reducible intro _

theorem thermRead_keeps {P : List Part} {s : State} {a1 : State} (a2) (a3) (a4) (hP : ∀ q ∈ ([.page .al, .mod] : List Part), q ∈ P) (h : Keeps P s a1) :
    Keeps P s (thermRead a1 a2 a3 a4) := by
  unfold thermRead
  repeat' first
      | with_reducible assumption | with_reducible apply normal_keeps | with_reducible apply onset_keeps | extract_lets
      | with_reducible apply keeps_ite | with_reducible exact hP _ (by decide) | with_reducible exact parts_in hP | with_reducible intro _
      | split | fail_if_no_progress with_reducible refine put_mod_keeps _ (hP _ (by decide)) ?_ | dsimp +zetaDelta only

theorem execThermistorReading_keeps {P : List Part} {s : State} (a1) (a2) (a3) {a4 : State} (hP : ∀ q ∈ ([.page .al, .mod] : List Part), q ∈ P) (h : Keeps P s a4) :
    NextKeeps P s (execThermistorReading a1 a2 a3 a4) := by
  unfold execThermistorReading
  repeat' first
      | with_reducible assumption | with_reducible apply nextKeeps_next | with_reducible apply thermRead_keeps
      | with_reducible exact hP _ (by decide) | with_reducible exact parts_in hP | with_reducible intro _

theorem onsetNew_keeps {P : List Part} {s : State} {a1 : State} (a2) (a3) (a4) (hP : ∀ q ∈ ([.page .al, .mod] : List Part), q ∈ P) (h : Keeps P s a1) :
    Keeps P s (onsetNew a1 a2 a3 a4) := by
  unfold onsetNew
  repeat' first
      | with_reducible assumption | with_reducible apply normal_keeps | with_reducible apply onset_keeps
      | with_reducible exact hP _ (by decide) | with_reducible exact parts_in hP | with_reducible intro _

theorem tideInputFault_keeps {P : List Part} {s : State} {a1 : State} (a2) (a3) (hP : ∀ q ∈ ([.page .al, .mod] : List Part), q ∈ P) (h : Keeps P s a1) :
    Keeps P s (tideInputFault a1 a2 a3) := by
  unfold tideInputFault
  repeat' first
      | with_reducible assumption | with_reducible apply onsetNew_keeps | extract_lets | with_reducible apply keeps_ite
      | with_reducible exact hP _ (by decide) | with_reducible exact parts_in hP | with_reducible intro _ | split
      | fail_if_no_progress with_reducible refine put_mod_keeps _ (hP _ (by decide)) ?_ | dsimp +zetaDelta only

theorem execTideInputFault_keeps {P : List Part} {s : State} (a1) (a2) {a3 : State} (hP : ∀ q ∈ ([.page .al, .mod] : List Part), q ∈ P) (h : Keeps P s a3) :
    NextKeeps P s (execTideInputFault a1 a2 a3) := by
  unfold execTideInputFault
  repeat' first
      | with_reducible assumption | with_reducible apply nextKeeps_next | with_reducible apply tideInputFault_keeps
      | with_reducible exact hP _ (by decide) | with_reducible exact parts_in hP | with_reducible intro _

theorem readback_keeps {P : List Part} {s : State} {a1 : State} (a2) (a3) (hP : ∀ q ∈ ([.page .fc, .page .al, .mod] : List Part), q ∈ P) (h : Keeps P s a1) :
    Keeps P s (readback a1 a2 a3) := by
  unfold readback
  repeat' first
      | with_reducible assumption | with_reducible apply onsetNew_keeps | with_reducible apply raiseErr_keeps
      | with_reducible apply keeps_ite | with_reducible exact hP _ (by decide) | with_reducible exact parts_in hP
      | with_reducible exact le_side (by omega) | with_reducible exact lt_side (by omega) | with_reducible exact off_small _ _ _
      | with_reducible intro _ | split

theorem execReadback_keeps {P : List Part} {s : State} (a1) (a2) {a3 : State} (hP : ∀ q ∈ ([.page .fc, .page .al, .mod] : List Part), q ∈ P) (h : Keeps P s a3) :
    NextKeeps P s (execReadback a1 a2 a3) := by
  unfold execReadback
  repeat' first
      | with_reducible assumption | with_reducible apply nextKeeps_next | with_reducible apply readback_keeps
      | with_reducible exact hP _ (by decide) | with_reducible exact parts_in hP | with_reducible intro _

theorem execOsfpModulePresent_keeps {P : List Part} {s : State} (a1) (a2) {a3 : State} (hP : ∀ q ∈ ([.page .al, .mod] : List Part), q ∈ P) (h : Keeps P s a3) :
    NextKeeps P s (execOsfpModulePresent a1 a2 a3) := by
  unfold execOsfpModulePresent
  repeat' first
      | with_reducible assumption | with_reducible apply nextKeeps_next | with_reducible apply cageCheck_keeps
      | with_reducible exact hP _ (by decide) | with_reducible exact parts_in hP | with_reducible intro _
      | fail_if_no_progress with_reducible refine put_mod_keeps _ (hP _ (by decide)) ?_

theorem mgtWrite_keeps {P : List Part} {s : State} {a1 : State} (a2) (a3) (hP : ∀ q ∈ ([.mod] : List Part), q ∈ P) (h : Keeps P s a1) :
    Keeps P s (mgtWrite a1 a2 a3) := by
  unfold mgtWrite
  repeat' first
      | with_reducible assumption | with_reducible apply emit_keeps | with_reducible apply keeps_ite | with_reducible intro _ | split
      | fail_if_no_progress with_reducible refine put_mod_keeps _ (hP _ (by decide)) ?_

theorem execMgtBusWrite_keeps {P : List Part} {s : State} (a1) (a2) (a3) {a4 : State} (hP : ∀ q ∈ ([.mod] : List Part), q ∈ P) (h : Keeps P s a4) :
    NextKeeps P s (execMgtBusWrite a1 a2 a3 a4) := by
  unfold execMgtBusWrite
  repeat' first
      | with_reducible assumption | with_reducible apply nextKeeps_next | with_reducible apply mgtWrite_keeps
      | with_reducible apply keeps_ite | with_reducible exact hP _ (by decide) | with_reducible exact parts_in hP | with_reducible intro _
      | split

theorem execStuck_keeps {P : List Part} {s : State} {a1 : State} (hP : ∀ q ∈ ([.page .al, .mod] : List Part), q ∈ P) (h : Keeps P s a1) :
    NextKeeps P s (execStuck a1) := by
  unfold execStuck
  repeat' first
      | with_reducible assumption | with_reducible apply nextKeeps_next | with_reducible apply onsetNew_keeps
      | with_reducible apply keeps_ite | with_reducible exact hP _ (by decide) | with_reducible exact parts_in hP | with_reducible intro _
      | split

end Sys2Proof.Machine
end

