-- ==== Sys2Proof/Laws/KeepBoot.lean ====
section
/-! SUPPORT. What the operations of Machine/Boot.lean leave alone. -/

set_option Elab.async false

namespace Sys2Proof.Machine

open Sys2Proof

theorem trainWhen_keeps {P : List Part} {s : State} {a1 : State → State} {a2 : State} (ha1 : ∀ u, Keeps P s u → Keeps P s (a1 u)) (h : Keeps P s a2) :
    Keeps P s (trainWhen a1 a2) := by
  unfold trainWhen
  repeat' first
      | with_reducible assumption | with_reducible apply ha1 | with_reducible apply emit_keeps | extract_lets
      | with_reducible apply keeps_ite | with_reducible intro _ | split | dsimp +zetaDelta only

theorem stageStart_keeps {P : List Part} {s : State} {a1 : State} (a2) (hP : ∀ q ∈ ([.boot] : List Part), q ∈ P) (h : Keeps P s a1) :
    Keeps P s (stageStart a1 a2) := by
  unfold stageStart
  repeat' first
      | with_reducible assumption | with_reducible apply logBoot_keeps | with_reducible intro _
      | fail_if_no_progress with_reducible refine put_boot_keeps _ (hP _ (by decide)) ?_

theorem unfusedEntry_keeps {P : List Part} {s : State} {a1 : State} (h : Keeps P s a1) :
    Keeps P s (unfusedEntry a1) := by
  unfold unfusedEntry
  repeat' first
      | with_reducible assumption | with_reducible apply offerGp_keeps | with_reducible apply keeps_ite | with_reducible intro _ | split

theorem writeBackAll_keeps {P : List Part} {s : State} {a1 : State} (hP : ∀ q ∈ ([.page .ep, .page .mc, .dm, .cxl, .frz, .scrubs] : List Part), q ∈ P) (h : Keeps P s a1) :
    Keeps P s (writeBackAll a1) := by
  unfold writeBackAll
  repeat' first
      | with_reducible assumption | with_reducible apply writeBelow_keeps | extract_lets | with_reducible apply keeps_foldl
      | with_reducible apply keeps_foldl1 | with_reducible apply keeps_ite | with_reducible exact hP _ (by decide)
      | with_reducible exact parts_in hP | with_reducible intro _ | split | dsimp +zetaDelta only

theorem finishChunk_keeps {P : List Part} {s : State} {a1 : State} (hP : ∀ q ∈ ([.pl] : List Part), q ∈ P) (h : Keeps P s a1) :
    Keeps P s (finishChunk a1) := by
  unfold finishChunk
  repeat' first
      | with_reducible assumption | with_reducible apply keeps_ite | with_reducible intro _ | split
      | fail_if_no_progress with_reducible refine put_pl_keeps _ (hP _ (by decide)) ?_

theorem perstPrepare_keeps {P : List Part} {s : State} {a1 : State} (hP : ∀ q ∈ ([.page .lw, .page .ep, .page .ml, .page .sd, .page .pl, .page .dc, .page .cl, .page .mc, .page .xl, .page .gc, .cores, .locks, .sd, .clusters, .mailboxes, .dm, .slices, .lw, .cxl, .frz, .ports, .scrubs, .pl, .boot] : List Part), q ∈ P) (h : Keeps P s a1) :
    Keeps P s (perstPrepare a1) := by
  unfold perstPrepare
  repeat' first
      | with_reducible assumption | with_reducible apply finishChunk_keeps | with_reducible apply writeBackAll_keeps
      | with_reducible apply fencePage_keeps | with_reducible apply logBootWith_keeps | extract_lets | with_reducible apply keeps_foldl
      | with_reducible apply keeps_foldl1 | with_reducible apply keeps_ite | with_reducible exact hP _ (by decide)
      | with_reducible exact parts_in hP | ((with_reducible refine page_in (c := .xl) (hP _ (by decide)) ?_) <;> exact rfl)
      | with_reducible exact le_side (by omega) | with_reducible exact lt_side (by omega) | with_reducible exact off_small _ _ _
      | with_reducible intro _ | split | fail_if_no_progress with_reducible refine put_boot_keeps _ (hP _ (by decide)) ?_
      | dsimp +zetaDelta only

theorem perstLevel_keeps {P : List Part} {s : State} {a1 : State} (a2) (hP : ∀ q ∈ ([.page .al, .page .lw, .page .ep, .page .ml, .page .sd, .page .pl, .page .dc, .page .cl, .page .mc, .page .xl, .page .gc, .cores, .locks, .sd, .clusters, .mailboxes, .dm, .slices, .lw, .cxl, .frz, .ports, .scrubs, .pl, .mod, .boot] : List Part), q ∈ P) (h : Keeps P s a1) :
    Keeps P s (perstLevel a1 a2) := by
  unfold perstLevel
  repeat' first
      | with_reducible assumption | with_reducible apply perstPrepare_keeps | with_reducible apply normal_keeps
      | with_reducible apply onset_keeps | extract_lets | with_reducible apply keeps_ite | with_reducible exact hP _ (by decide)
      | with_reducible exact parts_in hP | with_reducible intro _ | split
      | fail_if_no_progress with_reducible refine put_mod_keeps _ (hP _ (by decide)) ?_ | dsimp +zetaDelta only

theorem execPerstNAssert_keeps {P : List Part} {s : State} (a1) {a2 : State} (hP : ∀ q ∈ ([.page .al, .page .lw, .page .ep, .page .ml, .page .sd, .page .pl, .page .dc, .page .cl, .page .mc, .page .xl, .page .gc, .cores, .locks, .sd, .clusters, .mailboxes, .dm, .slices, .lw, .cxl, .frz, .ports, .scrubs, .pl, .mod, .boot] : List Part), q ∈ P) (h : Keeps P s a2) :
    NextKeeps P s (execPerstNAssert a1 a2) := by
  unfold execPerstNAssert
  repeat' first
      | with_reducible assumption | with_reducible apply nextKeeps_next | with_reducible apply perstLevel_keeps
      | with_reducible apply keeps_ite | with_reducible exact hP _ (by decide) | with_reducible exact parts_in hP | with_reducible intro _
      | split

theorem execPerstNRelease_keeps {P : List Part} {s : State} {a1 : State} (hP : ∀ q ∈ ([.page .al, .page .lw, .page .ep, .page .ml, .page .sd, .page .pl, .page .dc, .page .cl, .page .mc, .page .xl, .page .gc, .cores, .locks, .sd, .clusters, .mailboxes, .dm, .slices, .lw, .cxl, .frz, .ports, .scrubs, .pl, .mod, .boot] : List Part), q ∈ P) (h : Keeps P s a1) :
    NextKeeps P s (execPerstNRelease a1) := by
  unfold execPerstNRelease
  repeat' first
      | with_reducible assumption | with_reducible apply nextKeeps_next | with_reducible apply perstLevel_keeps
      | with_reducible apply trainWhen_keeps | with_reducible exact hP _ (by decide) | with_reducible exact parts_in hP
      | with_reducible intro _

theorem execSupervisedInputOpen_keeps {P : List Part} {s : State} (a1) {a2 : State} (hP : ∀ q ∈ ([.page .lb, .page .al, .page .lw, .page .ep, .page .ml, .page .sd, .page .pl, .page .dc, .page .cl, .page .mc, .page .xl, .page .gc, .cores, .locks, .sd, .clusters, .mailboxes, .dm, .slices, .lw, .cxl, .frz, .ports, .scrubs, .pl, .lb, .gp, .mod, .boot] : List Part), q ∈ P) (h : Keeps P s a2) :
    NextKeeps P s (execSupervisedInputOpen a1 a2) := by
  unfold execSupervisedInputOpen
  repeat' first
      | with_reducible assumption | with_reducible apply nextKeeps_next | with_reducible apply perstLevel_keeps
      | with_reducible apply pwrFailLevel_keeps | with_reducible apply trstLevel_keeps | with_reducible exact hP _ (by decide)
      | with_reducible exact parts_in hP | with_reducible intro _ | split

theorem hubFail_keeps {P : List Part} {s : State} {a1 : State} (a2) (a3) (a4) (a5) (hP : ∀ q ∈ ([.page .bt, .boot] : List Part), q ∈ P) (h : Keeps P s a1) :
    Keeps P s (hubFail a1 a2 a3 a4 a5) := by
  unfold hubFail
  repeat' first
      | with_reducible assumption | with_reducible apply raiseErr_keeps | with_reducible apply orPreg_keeps
      | with_reducible apply setPreg_keeps | extract_lets | with_reducible apply keeps_ite | with_reducible exact hP _ (by decide)
      | with_reducible exact parts_in hP | with_reducible exact le_side (by omega) | with_reducible exact lt_side (by omega)
      | with_reducible exact off_small _ _ _ | with_reducible intro _ | split
      | fail_if_no_progress with_reducible refine put_boot_keeps _ (hP _ (by decide)) ?_ | dsimp +zetaDelta only

theorem stageTimeout_keeps {P : List Part} {s : State} {a1 : State} (hP : ∀ q ∈ ([.page .bt, .boot] : List Part), q ∈ P) (h : Keeps P s a1) :
    Keeps P s (stageTimeout a1) := by
  unfold stageTimeout
  repeat' first
      | with_reducible assumption | with_reducible apply hubFail_keeps | with_reducible apply keeps_ite
      | with_reducible exact hP _ (by decide) | with_reducible exact parts_in hP | with_reducible intro _ | split

theorem execStageTimeout_keeps {P : List Part} {s : State} {a1 : State} (hP : ∀ q ∈ ([.page .bt, .boot] : List Part), q ∈ P) (h : Keeps P s a1) :
    NextKeeps P s (execStageTimeout a1) := by
  unfold execStageTimeout
  repeat' first
      | with_reducible assumption | with_reducible apply nextKeeps_next | with_reducible apply stageTimeout_keeps
      | with_reducible exact hP _ (by decide) | with_reducible exact parts_in hP | with_reducible intro _

theorem unitEntry_keeps {P : List Part} {s : State} {a1 : State} (a2) (a3) (a4) (a5) (a6) (a7) (h : Keeps P s a1) :
    Keeps P s (unitEntry a1 a2 a3 a4 a5 a6 a7) := by
  unfold unitEntry
  repeat' first
      | with_reducible assumption | with_reducible apply logBootWith_keeps | with_reducible intro _

theorem countFailWay_keeps {P : List Part} {s : State} {a1 : State} (a2) (hP : ∀ q ∈ ([.page .bt] : List Part), q ∈ P) (h : Keeps P s a1) :
    Keeps P s (countFailWay a1 a2) := by
  unfold countFailWay
  repeat' first
      | with_reducible assumption | with_reducible apply setPreg_keeps | extract_lets | with_reducible exact hP _ (by decide)
      | with_reducible exact parts_in hP | with_reducible exact le_side (by omega) | with_reducible exact lt_side (by omega)
      | with_reducible exact off_small _ _ _ | with_reducible intro _ | dsimp +zetaDelta only

theorem setGroupRes_keeps {P : List Part} {s : State} {a1 : State} (a2) (a3) (hP : ∀ q ∈ ([.page .bt] : List Part), q ∈ P) (h : Keeps P s a1) :
    Keeps P s (setGroupRes a1 a2 a3) := by
  unfold setGroupRes
  repeat' first
      | with_reducible assumption | with_reducible apply setPreg_keeps | extract_lets | with_reducible exact hP _ (by decide)
      | with_reducible exact parts_in hP | with_reducible exact le_side (by omega) | with_reducible exact lt_side (by omega)
      | with_reducible exact off_small _ _ _ | with_reducible intro _ | dsimp +zetaDelta only

theorem bistDone_keeps {P : List Part} {s : State} {a1 : State} (hP : ∀ q ∈ ([.page .dev, .boot] : List Part), q ∈ P) (h : Keeps P s a1) :
    Keeps P s (bistDone a1) := by
  unfold bistDone
  repeat' first
      | with_reducible assumption | with_reducible apply withReady_keeps | with_reducible apply orPreg_keeps
      | with_reducible exact hP _ (by decide) | with_reducible exact parts_in hP | with_reducible exact le_side (by omega)
      | with_reducible exact lt_side (by omega) | with_reducible exact off_small _ _ _ | with_reducible intro _

theorem groupStart_keeps {P : List Part} {s : State} {a1 : State} (a2) (hP : ∀ q ∈ ([.boot] : List Part), q ∈ P) (h : Keeps P s a1) :
    Keeps P s (groupStart a1 a2) := by
  unfold groupStart
  repeat' first
      | with_reducible assumption | with_reducible apply keeps_ite | with_reducible intro _ | split
      | fail_if_no_progress with_reducible refine put_boot_keeps _ (hP _ (by decide)) ?_

theorem execBistGroupStart_keeps {P : List Part} {s : State} (a1) {a2 : State} (hP : ∀ q ∈ ([.boot] : List Part), q ∈ P) (h : Keeps P s a2) :
    NextKeeps P s (execBistGroupStart a1 a2) := by
  unfold execBistGroupStart
  repeat' first
      | with_reducible assumption | with_reducible apply nextKeeps_next | with_reducible apply groupStart_keeps
      | with_reducible exact hP _ (by decide) | with_reducible exact parts_in hP | with_reducible intro _

theorem groupEnd_keeps {P : List Part} {s : State} {a1 : State} (a2) (a3) (a4) (hP : ∀ q ∈ ([.page .dev, .page .bt, .boot] : List Part), q ∈ P) (h : Keeps P s a1) :
    Keeps P s (groupEnd a1 a2 a3 a4) := by
  unfold groupEnd
  repeat' first
      | with_reducible assumption | with_reducible apply bistDone_keeps | with_reducible apply setGroupRes_keeps
      | with_reducible apply logBootWith_keeps | with_reducible apply setPreg64_keeps | extract_lets | with_reducible apply keeps_ite
      | with_reducible exact hP _ (by decide) | with_reducible exact parts_in hP | with_reducible exact le_side (by omega)
      | with_reducible exact lt_side (by omega) | with_reducible exact off_small _ _ _ | with_reducible intro _ | split
      | fail_if_no_progress with_reducible refine put_boot_keeps _ (hP _ (by decide)) ?_ | dsimp +zetaDelta only

theorem execBistGroupComplete_keeps {P : List Part} {s : State} (a1) (a2) (a3) {a4 : State} (hP : ∀ q ∈ ([.page .dev, .page .bt, .boot] : List Part), q ∈ P) (h : Keeps P s a4) :
    NextKeeps P s (execBistGroupComplete a1 a2 a3 a4) := by
  unfold execBistGroupComplete
  repeat' first
      | with_reducible assumption | with_reducible apply nextKeeps_next | with_reducible apply groupEnd_keeps
      | with_reducible apply trainWhen_keeps | with_reducible exact hP _ (by decide) | with_reducible exact parts_in hP
      | with_reducible intro _

theorem hbmUp_keeps {P : List Part} {s : State} {a1 : State} (hP : ∀ q ∈ ([.page .dev, .boot] : List Part), q ∈ P) (h : Keeps P s a1) :
    Keeps P s (hbmUp a1) := by
  unfold hbmUp
  repeat' first
      | with_reducible assumption | with_reducible apply withReady_keeps | with_reducible apply orPreg_keeps
      | with_reducible exact hP _ (by decide) | with_reducible exact parts_in hP | with_reducible exact le_side (by omega)
      | with_reducible exact lt_side (by omega) | with_reducible exact off_small _ _ _ | with_reducible intro _

theorem trainStack_keeps {P : List Part} {s : State} {a1 : State} (a2) (a3) (hP : ∀ q ∈ ([.page .dev, .page .bt, .boot] : List Part), q ∈ P) (h : Keeps P s a1) :
    Keeps P s (trainStack a1 a2 a3) := by
  unfold trainStack
  repeat' first
      | with_reducible assumption | with_reducible apply hbmUp_keeps | with_reducible apply hubFail_keeps
      | with_reducible apply logBoot_keeps | extract_lets | with_reducible apply keeps_ite | with_reducible exact hP _ (by decide)
      | with_reducible exact parts_in hP | with_reducible intro _ | split
      | fail_if_no_progress with_reducible refine put_boot_keeps _ (hP _ (by decide)) ?_ | dsimp +zetaDelta only

theorem execHbmTrainingDone_keeps {P : List Part} {s : State} (a1) (a2) {a3 : State} (hP : ∀ q ∈ ([.page .dev, .page .bt, .boot] : List Part), q ∈ P) (h : Keeps P s a3) :
    NextKeeps P s (execHbmTrainingDone a1 a2 a3) := by
  unfold execHbmTrainingDone
  repeat' first
      | with_reducible assumption | with_reducible apply nextKeeps_next | with_reducible apply trainStack_keeps
      | with_reducible exact hP _ (by decide) | with_reducible exact parts_in hP | with_reducible intro _

theorem execMemoryInitDone_keeps {P : List Part} {s : State} {a1 : State} (hP : ∀ q ∈ ([.page .dev, .dm, .boot] : List Part), q ∈ P) (h : Keeps P s a1) :
    NextKeeps P s (execMemoryInitDone a1) := by
  unfold execMemoryInitDone
  repeat' first
      | with_reducible assumption | with_reducible apply nextKeeps_next | with_reducible apply hbmUp_keeps | with_reducible apply keeps_ite
      | with_reducible exact hP _ (by decide) | with_reducible exact parts_in hP | with_reducible intro _ | split
      | fail_if_no_progress with_reducible refine put_boot_keeps _ (hP _ (by decide)) ?_
      | fail_if_no_progress with_reducible refine put_poison_keeps _ (hP _ (by decide)) ?_
      | fail_if_no_progress with_reducible refine put_dm_keeps _ (hP _ (by decide)) ?_
      | fail_if_no_progress refine keeps_mk ?_ (Stays.mk fun q hq => by (cases q <;> first | rfl | exact ⟨rfl, rfl⟩ | exact fun _ _ _ _ _ _ => rfl | exact fun _ _ _ => rfl | exact absurd (hP _ (by decide)) hq))

theorem enterRecovery_keeps {P : List Part} {s : State} {a1 : State} (hP : ∀ q ∈ ([.cxl, .boot] : List Part), q ∈ P) (h : Keeps P s a1) :
    Keeps P s (enterRecovery a1) := by
  unfold enterRecovery
  repeat' first
      | with_reducible assumption | with_reducible apply logBoot_keeps | with_reducible intro _
      | fail_if_no_progress with_reducible refine put_boot_keeps _ (hP _ (by decide)) ?_
      | fail_if_no_progress with_reducible refine put_cxl_keeps _ (hP _ (by decide)) ?_
      | fail_if_no_progress refine keeps_mk ?_ (Stays.mk fun q hq => by (cases q <;> first | rfl | exact ⟨rfl, rfl⟩ | exact fun _ _ _ _ _ _ => rfl | exact fun _ _ _ => rfl | exact absurd (hP _ (by decide)) hq))

theorem fallBack_keeps {P : List Part} {s : State} {a1 : State} (a2) (a3) (hP : ∀ q ∈ ([.cxl, .boot] : List Part), q ∈ P) (h : Keeps P s a1) :
    Keeps P s (fallBack a1 a2 a3) := by
  unfold fallBack
  repeat' first
      | with_reducible assumption | with_reducible apply enterRecovery_keeps | with_reducible apply stageStart_keeps
      | with_reducible apply logBoot_keeps | extract_lets | with_reducible apply keeps_ite | with_reducible exact hP _ (by decide)
      | with_reducible exact parts_in hP | with_reducible intro _ | split
      | fail_if_no_progress with_reducible refine put_boot_keeps _ (hP _ (by decide)) ?_ | dsimp +zetaDelta only

theorem stageEnd_keeps {P : List Part} {s : State} {a1 : State} (a2) (hP : ∀ q ∈ ([.boot] : List Part), q ∈ P) (h : Keeps P s a1) :
    Keeps P s (stageEnd a1 a2) := by
  unfold stageEnd
  repeat' first
      | with_reducible assumption | with_reducible apply logBoot_keeps | with_reducible intro _
      | fail_if_no_progress with_reducible refine put_boot_keeps _ (hP _ (by decide)) ?_

theorem stageZero_keeps {P : List Part} {s : State} {a1 : State} (a2) (hP : ∀ q ∈ ([.page .lb, .page .bt, .cxl, .boot] : List Part), q ∈ P) (h : Keeps P s a1) :
    Keeps P s (stageZero a1 a2) := by
  unfold stageZero
  repeat' first
      | with_reducible assumption | with_reducible apply stageEnd_keeps | with_reducible apply fallBack_keeps
      | with_reducible apply enterRecovery_keeps | with_reducible apply stageStart_keeps | with_reducible apply setPreg_keeps | extract_lets
      | with_reducible apply keeps_ite | with_reducible exact hP _ (by decide) | with_reducible exact parts_in hP
      | with_reducible exact le_side (by omega) | with_reducible exact lt_side (by omega) | with_reducible exact off_small _ _ _
      | with_reducible intro _ | split | fail_if_no_progress with_reducible refine put_boot_keeps _ (hP _ (by decide)) ?_
      | fail_if_no_progress with_reducible refine put_cxl_keeps _ (hP _ (by decide)) ?_
      | fail_if_no_progress refine keeps_mk ?_ (Stays.mk fun q hq => by (cases q <;> first | rfl | exact ⟨rfl, rfl⟩ | exact fun _ _ _ _ _ _ => rfl | exact fun _ _ _ => rfl | exact absurd (hP _ (by decide)) hq))
      | dsimp +zetaDelta only

theorem stageOne_keeps {P : List Part} {s : State} {a1 : State} (a2) (hP : ∀ q ∈ ([.cxl, .boot] : List Part), q ∈ P) (h : Keeps P s a1) :
    Keeps P s (stageOne a1 a2) := by
  unfold stageOne
  repeat' first
      | with_reducible assumption | with_reducible apply stageEnd_keeps | with_reducible apply fallBack_keeps
      | with_reducible apply stageStart_keeps | with_reducible apply keeps_ite | with_reducible exact hP _ (by decide)
      | with_reducible exact parts_in hP | with_reducible intro _ | split

theorem raiseLatched_keeps {P : List Part} {s : State} {a1 : State} (hP : ∀ q ∈ ([.page .al] : List Part), q ∈ P) (h : Keeps P s a1) :
    Keeps P s (raiseLatched a1) := by
  unfold raiseLatched
  repeat' first
      | with_reducible assumption | with_reducible apply raiseErr_keeps | with_reducible apply keeps_range
      | with_reducible apply keeps_foldl | with_reducible apply keeps_foldl1 | with_reducible apply keeps_ite
      | with_reducible exact hP _ (by decide) | with_reducible exact parts_in hP | with_reducible exact le_side (by omega)
      | with_reducible exact lt_side (by omega) | with_reducible exact off_small _ _ _ | with_reducible intro _ | split

theorem stageTwo_keeps {P : List Part} {s : State} {a1 : State} (a2) (hP : ∀ q ∈ ([.page .dev, .page .fc, .page .lb, .page .al, .page .bt, .lb, .boot] : List Part), q ∈ P) (h : Keeps P s a1) :
    Keeps P s (stageTwo a1 a2) := by
  unfold stageTwo
  repeat' first
      | with_reducible assumption | with_reducible apply raiseLatched_keeps | with_reducible apply stageEnd_keeps
      | with_reducible apply lbBoot_keeps | with_reducible apply withAlive_keeps | with_reducible apply withReady_keeps
      | with_reducible apply orPreg_keeps | with_reducible apply setPreg_keeps | extract_lets | with_reducible apply keeps_ite
      | with_reducible exact hP _ (by decide) | with_reducible exact parts_in hP | with_reducible exact le_side (by omega)
      | with_reducible exact lt_side (by omega) | with_reducible exact off_small _ _ _ | with_reducible intro _ | split
      | fail_if_no_progress with_reducible refine put_boot_keeps _ (hP _ (by decide)) ?_ | dsimp +zetaDelta only

theorem stageComplete_keeps {P : List Part} {s : State} {a1 : State} (a2) (hP : ∀ q ∈ ([.page .dev, .page .fc, .page .lb, .page .al, .page .bt, .cxl, .lb, .boot] : List Part), q ∈ P) (h : Keeps P s a1) :
    Keeps P s (stageComplete a1 a2) := by
  unfold stageComplete
  repeat' first
      | with_reducible assumption | with_reducible apply stageTwo_keeps | with_reducible apply stageOne_keeps
      | with_reducible apply stageZero_keeps | with_reducible apply keeps_ite | with_reducible exact hP _ (by decide)
      | with_reducible exact parts_in hP | with_reducible intro _ | split

theorem execBootStageComplete_keeps {P : List Part} {s : State} (a1) {a2 : State} (hP : ∀ q ∈ ([.page .dev, .page .fc, .page .lb, .page .al, .page .bt, .cxl, .lb, .boot] : List Part), q ∈ P) (h : Keeps P s a2) :
    NextKeeps P s (execBootStageComplete a1 a2) := by
  unfold execBootStageComplete
  repeat' first
      | with_reducible assumption | with_reducible apply nextKeeps_next | with_reducible apply stageComplete_keeps
      | with_reducible apply trainWhen_keeps | with_reducible exact hP _ (by decide) | with_reducible exact parts_in hP
      | with_reducible intro _

theorem pageCleared_keeps {P : List Part} {s t : State} (p) (hp : Part.page (classOf p) ∈ P) (hP : ∀ q ∈ ([.staged, .captured] : List Part), q ∈ P) (h : Keeps P s t) :
    Keeps P s (pageCleared t p) := by
  unfold pageCleared
  extract_lets out
  exact put_captured_keeps (t.captured.filter out) (hP _ (by decide)) (put_staged_keeps (t.staged.filter out) (hP _ (by decide))
    (dropRegs_keeps p out (fun a v hv => by
      simp only [out, Bool.not_eq_false', Bool.and_eq_true, decide_eq_true_eq] at hv
      exact hv) hp h))

theorem msixReset_keeps {P : List Part} {s t : State} (hP : ∀ q ∈ ([.page .ep] : List Part), q ∈ P) (h : Keeps P s t) : Keeps P s (msixReset t) :=
  dropRegs_keeps .ep _ (fun a v hv => by
    simp only [Bool.not_eq_false', Bool.and_eq_true, decide_eq_true_eq] at hv
    generalize pageBase .ep = b at hv ⊢
    omega) (hP (.page .ep) (by decide)) h

theorem flrAct_keeps {P : List Part} {s : State} {a1 : State} (hP : ∀ q ∈ ([.page .ep, .page .fm, .staged, .captured, .mailboxes, .cxl, .frz, .boot] : List Part), q ∈ P) (h : Keeps P s a1) :
    Keeps P s (flrAct a1) := by
  unfold flrAct
  repeat' first
      | with_reducible assumption | with_reducible apply msixReset_keeps | with_reducible apply pageCleared_keeps
      | with_reducible apply resetMailboxes_keeps | with_reducible apply raiseErr_keeps | with_reducible apply logBoot_keeps
      | with_reducible apply emit_keeps | extract_lets | with_reducible apply keeps_foldl | with_reducible apply keeps_foldl1
      | with_reducible apply keeps_ite | with_reducible exact hP _ (by decide) | with_reducible exact parts_in hP
      | with_reducible exact le_side (by omega) | with_reducible exact lt_side (by omega) | with_reducible exact off_small _ _ _
      | with_reducible intro _ | split | fail_if_no_progress with_reducible refine put_frz_keeps _ (hP _ (by decide)) ?_
      | fail_if_no_progress with_reducible refine put_cxl_keeps _ (hP _ (by decide)) ?_
      | fail_if_no_progress with_reducible refine put_boot_keeps _ (hP _ (by decide)) ?_
      | fail_if_no_progress refine keeps_mk ?_ (Stays.mk fun q hq => by (cases q <;> first | rfl | exact ⟨rfl, rfl⟩ | exact fun _ _ _ _ _ _ => rfl | exact fun _ _ _ => rfl | exact absurd (hP _ (by decide)) hq))
      | dsimp +zetaDelta only

theorem execFunctionLevelReset_keeps {P : List Part} {s : State} {a1 : State} (hP : ∀ q ∈ ([.page .ep, .page .fm, .staged, .captured, .mailboxes, .cxl, .frz, .boot] : List Part), q ∈ P) (h : Keeps P s a1) :
    NextKeeps P s (execFunctionLevelReset a1) := by
  unfold execFunctionLevelReset
  repeat' first
      | with_reducible assumption | with_reducible apply nextKeeps_next | with_reducible apply flrAct_keeps
      | with_reducible apply cfgGate_keeps | with_reducible exact hP _ (by decide) | with_reducible exact parts_in hP
      | with_reducible intro _

theorem execFlrComplete_keeps {P : List Part} {s : State} {a1 : State} (hP : ∀ q ∈ ([.cxl] : List Part), q ∈ P) (h : Keeps P s a1) :
    NextKeeps P s (execFlrComplete a1) := by
  unfold execFlrComplete
  repeat' first
      | with_reducible assumption | with_reducible apply nextKeeps_next | with_reducible apply updateInta_keeps
      | with_reducible apply keeps_ite | with_reducible intro _ | split
      | fail_if_no_progress with_reducible refine put_cxl_keeps _ (hP _ (by decide)) ?_

end Sys2Proof.Machine
end

