-- ==== Sys2Proof/Laws/KeepLoops.lean ====
section
/-! SUPPORT. What the operations of Machine/Loops.lean leave alone. -/

set_option Elab.async false

namespace Sys2Proof.Machine

open Sys2Proof

theorem State.setPw_keeps {P : List Part} {s : State} {a1 : State} (a2) (a3) (hP : ∀ q ∈ ([.clusters] : List Part), q ∈ P) (h : Keeps P s a1) :
    Keeps P s (State.setPw a1 a2 a3) := by
  unfold State.setPw
  repeat' first
      | with_reducible assumption | with_reducible apply State.setCl_keeps | with_reducible exact hP _ (by decide)
      | with_reducible exact parts_in hP | with_reducible intro _

theorem tryVoltStep_keeps {P : List Part} {s : State} {a1 : State} (a2) (hP : ∀ q ∈ ([.clusters] : List Part), q ∈ P) (h : Keeps P s a1) :
    Keeps P s (tryVoltStep a1 a2) := by
  unfold tryVoltStep
  repeat' first
      | with_reducible assumption | with_reducible apply State.setPw_keeps | extract_lets | with_reducible apply keeps_ite
      | with_reducible exact hP _ (by decide) | with_reducible exact parts_in hP | with_reducible intro _ | split | dsimp +zetaDelta only

theorem targetEval_keeps {P : List Part} {s : State} {a1 : State} (a2) (hP : ∀ q ∈ ([.clusters] : List Part), q ∈ P) (h : Keeps P s a1) :
    Keeps P s (targetEval a1 a2) := by
  unfold targetEval
  repeat' first
      | with_reducible assumption | with_reducible apply tryVoltStep_keeps | with_reducible apply State.setPw_keeps | extract_lets
      | with_reducible apply keeps_ite | with_reducible exact hP _ (by decide) | with_reducible exact parts_in hP | with_reducible intro _
      | split | dsimp +zetaDelta only

theorem execPwTargetEval_keeps {P : List Part} {s : State} (a1) {a2 : State} (hP : ∀ q ∈ ([.clusters] : List Part), q ∈ P) (h : Keeps P s a2) :
    NextKeeps P s (execPwTargetEval a1 a2) := by
  unfold execPwTargetEval
  repeat' first
      | with_reducible assumption | with_reducible apply nextKeeps_next | with_reducible apply targetEval_keeps
      | with_reducible exact hP _ (by decide) | with_reducible exact parts_in hP | with_reducible intro _

theorem execVoltageStepDone_keeps {P : List Part} {s : State} (a1) {a2 : State} (hP : ∀ q ∈ ([.clusters] : List Part), q ∈ P) (h : Keeps P s a2) :
    NextKeeps P s (execVoltageStepDone a1 a2) := by
  unfold execVoltageStepDone
  repeat' first
      | with_reducible assumption | with_reducible apply nextKeeps_next | with_reducible apply tryVoltStep_keeps
      | with_reducible apply State.setPw_keeps | extract_lets | with_reducible apply keeps_ite | with_reducible exact hP _ (by decide)
      | with_reducible exact parts_in hP | with_reducible intro _ | split | dsimp +zetaDelta only

theorem execFrequencyStep_keeps {P : List Part} {s : State} (a1) {a2 : State} (hP : ∀ q ∈ ([.clusters] : List Part), q ∈ P) (h : Keeps P s a2) :
    NextKeeps P s (execFrequencyStep a1 a2) := by
  unfold execFrequencyStep
  repeat' first
      | with_reducible assumption | with_reducible apply nextKeeps_next | with_reducible apply State.setPw_keeps | extract_lets
      | with_reducible apply keeps_ite | with_reducible exact hP _ (by decide) | with_reducible exact parts_in hP | with_reducible intro _
      | split | dsimp +zetaDelta only

theorem execVrFault_keeps {P : List Part} {s : State} (a1) {a2 : State} (hP : ∀ q ∈ ([.page .cl] : List Part), q ∈ P) (h : Keeps P s a2) :
    NextKeeps P s (execVrFault a1 a2) := by
  unfold execVrFault
  repeat' first
      | with_reducible assumption | with_reducible apply nextKeeps_next | with_reducible apply raiseErr_keeps
      | with_reducible apply keeps_ite | with_reducible exact hP _ (by decide) | with_reducible exact parts_in hP
      | ((with_reducible refine page_in (c := .cl) (hP _ (by decide)) ?_) <;> exact rfl) | with_reducible exact le_side (by omega)
      | with_reducible exact lt_side (by omega) | with_reducible exact off_small _ _ _ | with_reducible intro _ | split

theorem lowerLimits_keeps {P : List Part} {s : State} {a1 : State} (hP : ∀ q ∈ ([.page .al, .clusters] : List Part), q ∈ P) (h : Keeps P s a1) :
    Keeps P s (lowerLimits a1) := by
  unfold lowerLimits
  repeat' first
      | with_reducible assumption | with_reducible apply State.setPw_keeps | with_reducible apply raiseErr_keeps | extract_lets
      | with_reducible apply keeps_foldl | with_reducible apply keeps_foldl1 | with_reducible apply keeps_ite
      | with_reducible exact hP _ (by decide) | with_reducible exact parts_in hP | with_reducible exact le_side (by omega)
      | with_reducible exact lt_side (by omega) | with_reducible exact off_small _ _ _ | with_reducible intro _ | split
      | dsimp +zetaDelta only

theorem raiseLimits_keeps {P : List Part} {s : State} {a1 : State} (hP : ∀ q ∈ ([.clusters] : List Part), q ∈ P) (h : Keeps P s a1) :
    Keeps P s (raiseLimits a1) := by
  unfold raiseLimits
  repeat' first
      | with_reducible assumption | with_reducible apply State.setPw_keeps | with_reducible apply keeps_foldl
      | with_reducible apply keeps_foldl1 | with_reducible exact hP _ (by decide) | with_reducible exact parts_in hP
      | with_reducible intro _

theorem powerSample_keeps {P : List Part} {s : State} {a1 : State} (a2) (a3) (hP : ∀ q ∈ ([.page .al, .clusters, .mod] : List Part), q ∈ P) (h : Keeps P s a1) :
    Keeps P s (powerSample a1 a2 a3) := by
  unfold powerSample
  repeat' first
      | with_reducible assumption | with_reducible apply raiseLimits_keeps | with_reducible apply lowerLimits_keeps
      | with_reducible apply setPreg_keeps | extract_lets | with_reducible apply keeps_ite | with_reducible exact hP _ (by decide)
      | with_reducible exact parts_in hP | with_reducible exact le_side (by omega) | with_reducible exact lt_side (by omega)
      | with_reducible exact off_small _ _ _ | with_reducible intro _ | split
      | fail_if_no_progress with_reducible refine put_mod_keeps _ (hP _ (by decide)) ?_ | dsimp +zetaDelta only

theorem execPowerSample_keeps {P : List Part} {s : State} (a1) (a2) {a3 : State} (hP : ∀ q ∈ ([.page .al, .clusters, .mod] : List Part), q ∈ P) (h : Keeps P s a3) :
    NextKeeps P s (execPowerSample a1 a2 a3) := by
  unfold execPowerSample
  repeat' first
      | with_reducible assumption | with_reducible apply nextKeeps_next | with_reducible apply powerSample_keeps
      | with_reducible apply normal_keeps | with_reducible exact hP _ (by decide) | with_reducible exact parts_in hP
      | with_reducible intro _

theorem execPwrSense_keeps {P : List Part} {s : State} (a1) {a2 : State} (hP : ∀ q ∈ ([.page .al, .clusters, .mod] : List Part), q ∈ P) (h : Keeps P s a2) :
    NextKeeps P s (execPwrSense a1 a2) := by
  unfold execPwrSense
  repeat' first
      | with_reducible assumption | with_reducible apply nextKeeps_next | with_reducible apply lowerLimits_keeps
      | with_reducible apply onset_keeps | with_reducible apply raiseErr_keeps | extract_lets | with_reducible apply keeps_ite
      | with_reducible exact hP _ (by decide) | with_reducible exact parts_in hP | with_reducible exact le_side (by omega)
      | with_reducible exact lt_side (by omega) | with_reducible exact off_small _ _ _ | with_reducible intro _ | split
      | dsimp +zetaDelta only

theorem tjSample_keeps {P : List Part} {s : State} {a1 : State} (a2) (a3) (hP : ∀ q ∈ ([.page .cl, .clusters] : List Part), q ∈ P) (h : Keeps P s a1) :
    Keeps P s (tjSample a1 a2 a3) := by
  unfold tjSample
  repeat' first
      | with_reducible assumption | with_reducible apply State.setPw_keeps | with_reducible apply raiseErr_keeps
      | with_reducible apply setPreg_keeps | extract_lets | with_reducible apply keeps_ite | with_reducible exact hP _ (by decide)
      | with_reducible exact parts_in hP | ((with_reducible refine page_in (c := .cl) (hP _ (by decide)) ?_) <;> exact rfl)
      | with_reducible exact le_side (by omega) | with_reducible exact lt_side (by omega) | with_reducible exact off_small _ _ _
      | with_reducible intro _ | split | dsimp +zetaDelta only

theorem execTjLimit_keeps {P : List Part} {s : State} (a1) (a2) {a3 : State} (hP : ∀ q ∈ ([.page .cl, .clusters] : List Part), q ∈ P) (h : Keeps P s a3) :
    NextKeeps P s (execTjLimit a1 a2 a3) := by
  unfold execTjLimit
  repeat' first
      | with_reducible assumption | with_reducible apply nextKeeps_next | with_reducible apply tjSample_keeps
      | with_reducible exact hP _ (by decide) | with_reducible exact parts_in hP | with_reducible intro _

theorem execThermTrip_keeps {P : List Part} {s : State} {a1 : State} (hP : ∀ q ∈ ([.page .al] : List Part), q ∈ P) (h : Keeps P s a1) :
    NextKeeps P s (execThermTrip a1) := by
  unfold execThermTrip
  repeat' first
      | with_reducible assumption | with_reducible apply nextKeeps_next | with_reducible apply raiseErr_keeps
      | with_reducible exact hP _ (by decide) | with_reducible exact parts_in hP | with_reducible exact le_side (by omega)
      | with_reducible exact lt_side (by omega) | with_reducible exact off_small _ _ _ | with_reducible intro _

theorem execDroop_keeps {P : List Part} {s : State} (a1) {a2 : State} (hP : ∀ q ∈ ([.clusters] : List Part), q ∈ P) (h : Keeps P s a2) :
    NextKeeps P s (execDroop a1 a2) := by
  unfold execDroop
  repeat' first
      | with_reducible assumption | with_reducible apply nextKeeps_next | with_reducible apply State.setPw_keeps
      | with_reducible exact hP _ (by decide) | with_reducible exact parts_in hP | with_reducible intro _

theorem stretchCycles_keeps {P : List Part} {s : State} {a1 : State} (a2) (a3) (hP : ∀ q ∈ ([.page .cl, .clusters] : List Part), q ∈ P) (h : Keeps P s a1) :
    Keeps P s (stretchCycles a1 a2 a3) := by
  unfold stretchCycles
  repeat' first
      | with_reducible assumption | with_reducible apply State.setPw_keeps | with_reducible apply raiseErr_keeps
      | with_reducible apply cntPreg_keeps | extract_lets | with_reducible apply keeps_ite | with_reducible exact hP _ (by decide)
      | with_reducible exact parts_in hP | ((with_reducible refine page_in (c := .cl) (hP _ (by decide)) ?_) <;> exact rfl)
      | with_reducible exact le_side (by omega) | with_reducible exact lt_side (by omega) | with_reducible exact off_small _ _ _
      | with_reducible intro _ | split | dsimp +zetaDelta only

theorem execStretchRelax_keeps {P : List Part} {s : State} (a1) (a2) {a3 : State} (hP : ∀ q ∈ ([.page .cl, .clusters] : List Part), q ∈ P) (h : Keeps P s a3) :
    NextKeeps P s (execStretchRelax a1 a2 a3) := by
  unfold execStretchRelax
  repeat' first
      | with_reducible assumption | with_reducible apply nextKeeps_next | with_reducible apply stretchCycles_keeps
      | with_reducible exact hP _ (by decide) | with_reducible exact parts_in hP | with_reducible intro _

theorem alPwrLimWrite_keeps {P : List Part} {s : State} {a1 : State} (a2) (hP : ∀ q ∈ ([.page .al, .staged] : List Part), q ∈ P) (h : Keeps P s a1) :
    Keeps P s (alPwrLimWrite a1 a2) := by
  unfold alPwrLimWrite
  repeat' first
      | with_reducible assumption | with_reducible apply pageWrite_keeps | with_reducible apply raiseErr_keeps | extract_lets
      | with_reducible apply keeps_ite | with_reducible exact hP _ (by decide) | with_reducible exact parts_in hP
      | with_reducible exact le_side (by omega) | with_reducible exact lt_side (by omega) | with_reducible exact off_small _ _ _
      | with_reducible intro _ | split | dsimp +zetaDelta only

theorem execAlPwrLimWrite_keeps {P : List Part} {s : State} (a1) {a2 : State} (hP : ∀ q ∈ ([.page .al, .staged] : List Part), q ∈ P) (h : Keeps P s a2) :
    NextKeeps P s (execAlPwrLimWrite a1 a2) := by
  unfold execAlPwrLimWrite
  repeat' first
      | with_reducible assumption | with_reducible apply nextKeeps_next | with_reducible apply alPwrLimWrite_keeps
      | with_reducible exact hP _ (by decide) | with_reducible exact parts_in hP | with_reducible intro _

theorem alDroopWrite_keeps {P : List Part} {s : State} {a1 : State} (a2) (a3) (hP : ∀ q ∈ ([.page .al, .staged] : List Part), q ∈ P) (h : Keeps P s a1) :
    Keeps P s (alDroopWrite a1 a2 a3) := by
  unfold alDroopWrite
  repeat' first
      | with_reducible assumption | with_reducible apply pageWrite_keeps | with_reducible apply raiseErr_keeps | extract_lets
      | with_reducible apply keeps_ite | with_reducible exact hP _ (by decide) | with_reducible exact parts_in hP
      | with_reducible exact le_side (by omega) | with_reducible exact lt_side (by omega) | with_reducible exact off_small _ _ _
      | with_reducible intro _ | split | dsimp +zetaDelta only

theorem execAlDroopMvWrite_keeps {P : List Part} {s : State} (a1) (a2) {a3 : State} (hP : ∀ q ∈ ([.page .al, .staged] : List Part), q ∈ P) (h : Keeps P s a3) :
    NextKeeps P s (execAlDroopMvWrite a1 a2 a3) := by
  unfold execAlDroopMvWrite
  repeat' first
      | with_reducible assumption | with_reducible apply nextKeeps_next | with_reducible apply alDroopWrite_keeps
      | with_reducible exact hP _ (by decide) | with_reducible exact parts_in hP | with_reducible intro _

theorem eqUpdate_keeps {P : List Part} {s : State} {a1 : State} (a2) (a3) (a4) (a5) (a6) (a7) (hP : ∀ q ∈ ([.page .al, .ports, .eqs] : List Part), q ∈ P) (h : Keeps P s a1) :
    Keeps P s (eqUpdate a1 a2 a3 a4 a5 a6 a7) := by
  unfold eqUpdate
  repeat' first
      | with_reducible assumption | with_reducible apply raiseErr_keeps | with_reducible apply State.setPort_keeps | extract_lets
      | with_reducible apply keeps_ite | with_reducible exact hP _ (by decide) | with_reducible exact parts_in hP
      | with_reducible exact le_side (by omega) | with_reducible exact lt_side (by omega) | with_reducible exact off_small _ _ _
      | with_reducible intro _ | split | fail_if_no_progress with_reducible refine put_eqs_keeps _ (hP _ (by decide)) ?_
      | dsimp +zetaDelta only

theorem execEqUpdate_keeps {P : List Part} {s : State} (a1) (a2) (a3) (a4) (a5) (a6) {a7 : State} (hP : ∀ q ∈ ([.page .al, .ports, .eqs] : List Part), q ∈ P) (h : Keeps P s a7) :
    NextKeeps P s (execEqUpdate a1 a2 a3 a4 a5 a6 a7) := by
  unfold execEqUpdate
  repeat' first
      | with_reducible assumption | with_reducible apply nextKeeps_next | with_reducible apply eqUpdate_keeps
      | with_reducible apply keeps_ite | with_reducible exact hP _ (by decide) | with_reducible exact parts_in hP | with_reducible intro _
      | split

theorem alEqForceWrite_keeps {P : List Part} {s : State} {a1 : State} (a2) (hP : ∀ q ∈ ([.page .al, .staged, .eqs] : List Part), q ∈ P) (h : Keeps P s a1) :
    Keeps P s (alEqForceWrite a1 a2) := by
  unfold alEqForceWrite
  repeat' first
      | with_reducible assumption | with_reducible apply pageWrite_keeps | extract_lets | with_reducible apply keeps_ite
      | with_reducible exact hP _ (by decide) | with_reducible exact parts_in hP | with_reducible exact le_side (by omega)
      | with_reducible exact lt_side (by omega) | with_reducible exact off_small _ _ _ | with_reducible intro _ | split
      | fail_if_no_progress with_reducible refine put_eqs_keeps _ (hP _ (by decide)) ?_ | dsimp +zetaDelta only

theorem execEqStarved_keeps {P : List Part} {s : State} (a1) {a2 : State} (hP : ∀ q ∈ ([.page .al] : List Part), q ∈ P) (h : Keeps P s a2) :
    NextKeeps P s (execEqStarved a1 a2) := by
  unfold execEqStarved
  repeat' first
      | with_reducible assumption | with_reducible apply nextKeeps_next | with_reducible apply raiseErr_keeps
      | with_reducible apply keeps_ite | with_reducible exact hP _ (by decide) | with_reducible exact parts_in hP
      | with_reducible exact le_side (by omega) | with_reducible exact lt_side (by omega) | with_reducible exact off_small _ _ _
      | with_reducible intro _ | split

end Sys2Proof.Machine
end

