-- ==== Sys2Proof/Laws/KeepBoundary.lean ====
section
/-! SUPPORT. What the operations of Machine/Boundary.lean leave alone. -/

set_option Elab.async false

namespace Sys2Proof.Machine

open Sys2Proof

theorem tideBoundary_keeps {P : List Part} {s : State} {a1 : State} (hP : ∀ q ∈ ([.page .td, .tide, .boot] : List Part), q ∈ P) (h : Keeps P s a1) :
    Keeps P s (tideBoundary a1) := by
  unfold tideBoundary
  repeat' first
      | with_reducible assumption | with_reducible apply holdOutcome_keeps | with_reducible apply goDone_keeps
      | with_reducible apply setPreg_keeps | extract_lets | with_reducible apply keeps_ite | with_reducible exact hP _ (by decide)
      | with_reducible exact parts_in hP | with_reducible exact le_side (by omega) | with_reducible exact lt_side (by omega)
      | with_reducible exact off_small _ _ _ | with_reducible intro _ | split
      | fail_if_no_progress with_reducible refine put_tide_keeps _ (hP _ (by decide)) ?_ | dsimp +zetaDelta only

theorem boundaryWords_keeps {P : List Part} {s : State} {a1 : State} (h : Keeps P s a1) :
    Keeps P s (boundaryWords a1) := by
  unfold boundaryWords
  repeat' first
      | with_reducible assumption | with_reducible apply sendWord_keeps | with_reducible apply emit_keeps | extract_lets
      | with_reducible apply keeps_foldl | with_reducible apply keeps_foldl1 | with_reducible apply keeps_ite | with_reducible intro _
      | split | dsimp +zetaDelta only

theorem switchBank_keeps {P : List Part} {s : State} {a1 : State} (a2) (hP : ∀ q ∈ ([.tt, .cores] : List Part), q ∈ P) (h : Keeps P s a1) :
    Keeps P s (switchBank a1 a2) := by
  unfold switchBank
  repeat' first
      | with_reducible assumption | with_reducible apply setTt_keeps | with_reducible apply setTtReg_keeps | extract_lets
      | with_reducible apply keeps_ite | with_reducible exact hP _ (by decide) | with_reducible exact parts_in hP | with_reducible intro _
      | split | dsimp +zetaDelta only

theorem ttBoundary_keeps {P : List Part} {s : State} {a1 : State} (a2) (a3) (hP : ∀ q ∈ ([.tt, .cores] : List Part), q ∈ P) (h : Keeps P s a1) :
    Keeps P s (ttBoundary a1 a2 a3) := by
  unfold ttBoundary
  repeat' first
      | with_reducible assumption | with_reducible apply switchBank_keeps | with_reducible apply unreachedCheck_keeps
      | with_reducible apply setTt_keeps | with_reducible apply setTtReg_keeps | with_reducible apply State.setCoreRaw_keeps
      | with_reducible apply when_keeps | extract_lets | with_reducible apply keeps_ite | with_reducible exact hP _ (by decide)
      | with_reducible exact parts_in hP | with_reducible intro _ | split | dsimp +zetaDelta only

theorem clearMarks_keeps {P : List Part} {s : State} {a1 : State} (hP : ∀ q ∈ ([.cores] : List Part), q ∈ P) (h : Keeps P s a1) :
    Keeps P s (clearMarks a1) := by
  unfold clearMarks
  repeat' first
      | with_reducible assumption | with_reducible apply State.setCoreRaw_keeps | with_reducible apply keeps_foldl
      | with_reducible apply keeps_foldl1 | with_reducible exact hP _ (by decide) | with_reducible exact parts_in hP
      | with_reducible intro _

theorem ttBoundaries_keeps {P : List Part} {s : State} {a1 : State} (a2) (hP : ∀ q ∈ ([.tt, .cores] : List Part), q ∈ P) (h : Keeps P s a1) :
    Keeps P s (ttBoundaries a1 a2) := by
  unfold ttBoundaries
  repeat' first
      | with_reducible assumption | with_reducible apply ttBoundary_keeps | with_reducible apply keeps_foldl
      | with_reducible apply keeps_foldl1 | with_reducible apply keeps_ite | with_reducible exact hP _ (by decide)
      | with_reducible exact parts_in hP | with_reducible intro _ | split

theorem slotBoundary_keeps {P : List Part} {s : State} {a1 : State} (a2) (hP : ∀ q ∈ ([.page .xl, .ports] : List Part), q ∈ P) (h : Keeps P s a1) :
    Keeps P s (slotBoundary a1 a2) := by
  unfold slotBoundary
  repeat' first
      | with_reducible assumption | with_reducible apply closeSlot_keeps | with_reducible apply goDone_keeps
      | with_reducible apply State.setPort_keeps | with_reducible apply orPreg_keeps | extract_lets | with_reducible apply keeps_ite
      | with_reducible exact hP _ (by decide) | with_reducible exact parts_in hP
      | ((with_reducible refine page_in (c := .xl) (hP _ (by decide)) ?_) <;> exact rfl) | with_reducible exact le_side (by omega)
      | with_reducible exact lt_side (by omega) | with_reducible exact off_small _ _ _ | with_reducible intro _ | split
      | dsimp +zetaDelta only

theorem portBoundary_keeps {P : List Part} {s : State} {a1 : State} (a2) (hP : ∀ q ∈ ([.page .xl, .ports] : List Part), q ∈ P) (h : Keeps P s a1) :
    Keeps P s (portBoundary a1 a2) := by
  unfold portBoundary
  repeat' first
      | with_reducible assumption | with_reducible apply slotBoundary_keeps | with_reducible apply State.setPort_keeps | extract_lets
      | with_reducible apply keeps_ite | with_reducible exact hP _ (by decide) | with_reducible exact parts_in hP | with_reducible intro _
      | split | dsimp +zetaDelta only

theorem rttBoundary_keeps {P : List Part} {s : State} {a1 : State} (a2) (hP : ∀ q ∈ ([.ports] : List Part), q ∈ P) (h : Keeps P s a1) :
    Keeps P s (rttBoundary a1 a2) := by
  unfold rttBoundary
  repeat' first
      | with_reducible assumption | with_reducible apply measureDue_keeps | with_reducible apply State.setPort_keeps | extract_lets
      | with_reducible apply keeps_ite | with_reducible exact hP _ (by decide) | with_reducible exact parts_in hP
      | ((with_reducible refine page_in (c := .xl) (hP _ (by decide)) ?_) <;> exact rfl) | with_reducible intro _ | split
      | dsimp +zetaDelta only

theorem logStill_keeps {P : List Part} {s : State} {a1 : State} (a2) (h : Keeps P s a1) :
    Keeps P s (logStill a1 a2) := by
  unfold logStill
  repeat' first
      | with_reducible assumption | with_reducible apply offer_keeps | extract_lets | with_reducible apply keeps_ite
      | with_reducible intro _ | split | dsimp +zetaDelta only

theorem raiseStill_keeps {P : List Part} {s : State} {a1 : State} (a2) (hP : ∀ q ∈ ([.page .sd, .fc] : List Part), q ∈ P) (h : Keeps P s a1) :
    Keeps P s (raiseStill a1 a2) := by
  unfold raiseStill
  repeat' first
      | with_reducible assumption | with_reducible apply noteErr_keeps | with_reducible apply updateInta_keeps
      | with_reducible apply sendMsix_keeps | with_reducible apply orPreg_keeps | extract_lets | with_reducible apply keeps_ite
      | with_reducible exact hP _ (by decide) | with_reducible exact parts_in hP | with_reducible exact le_side (by omega)
      | with_reducible exact lt_side (by omega) | with_reducible exact off_small _ _ _ | with_reducible intro _ | split
      | fail_if_no_progress with_reducible refine put_fc_keeps _ (hP _ (by decide)) ?_ | dsimp +zetaDelta only

theorem declareStill_keeps {P : List Part} {s : State} {a1 : State} (a2) (hP : ∀ q ∈ ([.page .sd, .fc] : List Part), q ∈ P) (h : Keeps P s a1) :
    Keeps P s (declareStill a1 a2) := by
  unfold declareStill
  repeat' first
      | with_reducible assumption | with_reducible apply raiseStill_keeps | with_reducible apply logStill_keeps
      | with_reducible apply cntPreg_keeps | with_reducible apply orPreg_keeps | with_reducible apply setPreg64_keeps | extract_lets
      | with_reducible apply keeps_foldl | with_reducible apply keeps_foldl1 | with_reducible exact hP _ (by decide)
      | with_reducible exact parts_in hP | with_reducible exact le_side (by omega) | with_reducible exact lt_side (by omega)
      | with_reducible exact off_small _ _ _ | with_reducible intro _ | dsimp +zetaDelta only

theorem detect_keeps {P : List Part} {s : State} {a1 : State} (hP : ∀ q ∈ ([.page .sd, .sd, .fc] : List Part), q ∈ P) (h : Keeps P s a1) :
    Keeps P s (detect a1) := by
  unfold detect
  repeat' first
      | with_reducible assumption | with_reducible apply declareStill_keeps | with_reducible apply setPreg_keeps | extract_lets
      | with_reducible apply keeps_range | with_reducible apply keeps_foldl | with_reducible apply keeps_foldl1
      | with_reducible apply keeps_ite | with_reducible exact hP _ (by decide) | with_reducible exact parts_in hP
      | with_reducible exact le_side (by omega) | with_reducible exact lt_side (by omega) | with_reducible exact off_small _ _ _
      | with_reducible intro _ | split | fail_if_no_progress with_reducible refine put_sdArmed_keeps _ (hP _ (by decide)) ?_
      | fail_if_no_progress with_reducible refine put_sdChanged_keeps _ (hP _ (by decide)) ?_
      | fail_if_no_progress refine keeps_mk ?_ (Stays.mk fun q hq => by (cases q <;> first | rfl | exact ⟨rfl, rfl⟩ | exact fun _ _ _ _ _ _ => rfl | exact fun _ _ _ => rfl | exact absurd (hP _ (by decide)) hq))
      | dsimp +zetaDelta only

theorem pwBoundary_keeps {P : List Part} {s : State} {a1 : State} (hP : ∀ q ∈ ([.clusters] : List Part), q ∈ P) (h : Keeps P s a1) :
    Keeps P s (pwBoundary a1) := by
  unfold pwBoundary
  repeat' first
      | with_reducible assumption | with_reducible apply State.setPw_keeps | with_reducible apply keeps_foldl
      | with_reducible apply keeps_foldl1 | with_reducible exact hP _ (by decide) | with_reducible exact parts_in hP
      | with_reducible intro _

theorem plBoundary_keeps {P : List Part} {s : State} {a1 : State} (hP : ∀ q ∈ ([.pl] : List Part), q ∈ P) (h : Keeps P s a1) :
    Keeps P s (plBoundary a1) := by
  unfold plBoundary
  repeat' first
      | with_reducible assumption | with_reducible apply keeps_ite | with_reducible intro _ | split
      | fail_if_no_progress with_reducible refine put_pl_keeps _ (hP _ (by decide)) ?_

theorem boundary_keeps {P : List Part} {s : State} {a1 : State} (hP : ∀ q ∈ ([.page .td, .page .sd, .page .xl, .tt, .tide, .cores, .sd, .clusters, .ports, .pl, .fc, .boot] : List Part), q ∈ P) (h : Keeps P s a1) :
    Keeps P s (boundary a1) := by
  unfold boundary
  repeat' first
      | with_reducible assumption | with_reducible apply plBoundary_keeps | with_reducible apply pwBoundary_keeps
      | with_reducible apply detect_keeps | with_reducible apply rttBoundary_keeps | with_reducible apply portBoundary_keeps
      | with_reducible apply ttBoundaries_keeps | with_reducible apply clearMarks_keeps | with_reducible apply boundaryWords_keeps
      | with_reducible apply tideBoundary_keeps | extract_lets | with_reducible apply keeps_foldl | with_reducible apply keeps_foldl1
      | with_reducible apply keeps_ite | with_reducible exact hP _ (by decide) | with_reducible exact parts_in hP | with_reducible intro _
      | split | dsimp +zetaDelta only

theorem execStepBoundary_keeps {P : List Part} {s : State} {a1 : State} (hP : ∀ q ∈ ([.page .td, .page .sd, .page .xl, .tt, .tide, .cores, .sd, .clusters, .ports, .pl, .fc, .lb, .boot] : List Part), q ∈ P) (h : Keeps P s a1) :
    NextKeeps P s (execStepBoundary a1) := by
  unfold execStepBoundary
  repeat' first
      | with_reducible assumption | with_reducible apply nextKeeps_next | with_reducible apply boundary_keeps
      | with_reducible apply entriesInOrder_keeps | with_reducible apply keeps_ite | with_reducible exact hP _ (by decide)
      | with_reducible exact parts_in hP | with_reducible intro _ | split

end Sys2Proof.Machine
end

