-- ==== Sys2Proof/Laws/KeepFaults.lean ====
section
/-! SUPPORT. What the operations of Machine/Faults.lean leave alone. -/

set_option Elab.async false

namespace Sys2Proof.Machine

open Sys2Proof

theorem enterSafe_keeps {P : List Part} {s : State} {a1 : State} (a2) (hP : ∀ q ∈ ([.page .lb, .page .ep, .page .xl, .cores, .slices, .lw, .cxl, .frz, .ports, .fc, .lb] : List Part), q ∈ P) (h : Keeps P s a1) :
    Keeps P s (enterSafe a1 a2) := by
  unfold enterSafe
  repeat' first
      | with_reducible assumption | with_reducible apply fatalSnap_keeps | with_reducible apply enterFreeze_keeps
      | with_reducible apply sendAbort_keeps | with_reducible apply withAlive_keeps | extract_lets | with_reducible apply keeps_ite
      | with_reducible exact hP _ (by decide) | with_reducible exact parts_in hP | with_reducible intro _ | split
      | fail_if_no_progress with_reducible refine put_fc_keeps _ (hP _ (by decide)) ?_ | dsimp +zetaDelta only

theorem execSafeStatePortFence_keeps {P : List Part} {s : State} (a1) {a2 : State} (hP : ∀ q ∈ ([.page .lw, .page .ep, .page .ml, .page .sd, .page .pl, .page .dc, .page .cl, .page .mc, .page .xl, .page .gc, .cores, .locks, .sd, .clusters, .mailboxes, .dm, .slices, .lw, .cxl, .frz, .ports, .scrubs, .pl, .fc, .boot] : List Part), q ∈ P) (h : Keeps P s a2) :
    NextKeeps P s (execSafeStatePortFence a1 a2) := by
  unfold execSafeStatePortFence
  repeat' first
      | with_reducible assumption | with_reducible apply nextKeeps_next | with_reducible apply fencePage_keeps
      | with_reducible apply keeps_ite | with_reducible exact hP _ (by decide) | with_reducible exact parts_in hP
      | ((with_reducible refine page_in (c := .xl) (hP _ (by decide)) ?_) <;> exact rfl) | with_reducible exact le_side (by omega)
      | with_reducible exact lt_side (by omega) | with_reducible exact off_small _ _ _ | with_reducible intro _ | split
      | fail_if_no_progress with_reducible refine put_fc_keeps _ (hP _ (by decide)) ?_

theorem disableWay_keeps {P : List Part} {s : State} {a1 : State} (a2) (a3) (hP : ∀ q ∈ ([.page .lw, .page .ep, .page .dc, .page .mc, .clusters, .dm, .slices, .cxl, .frz, .scrubs] : List Part), q ∈ P) (h : Keeps P s a1) :
    Keeps P s (disableWay a1 a2 a3) := by
  unfold disableWay
  repeat' first
      | with_reducible assumption | with_reducible apply evictWholeWay_keeps | with_reducible apply raiseErr_keeps
      | with_reducible apply orPreg_keeps | with_reducible exact hP _ (by decide) | with_reducible exact parts_in hP
      | ((with_reducible refine page_in (c := .dc) (hP _ (by decide)) ?_) <;> exact rfl) | with_reducible exact le_side (by omega)
      | with_reducible exact lt_side (by omega) | with_reducible exact off_small _ _ _ | with_reducible intro _

theorem fenceUnless_keeps {P : List Part} {s : State} (a1) (a2) {a3 : State} (ha2 : Part.page (classOf a2) ∈ P) (hP : ∀ q ∈ ([.page .lw, .page .ep, .page .ml, .page .sd, .page .pl, .page .dc, .page .cl, .page .mc, .page .xl, .page .gc, .cores, .locks, .sd, .clusters, .mailboxes, .dm, .slices, .lw, .cxl, .frz, .ports, .scrubs, .pl, .boot] : List Part), q ∈ P) (h : Keeps P s a3) :
    Keeps P s (fenceUnless a1 a2 a3) := by
  unfold fenceUnless
  repeat' first
      | with_reducible assumption | with_reducible apply fencePage_keeps | with_reducible apply keeps_ite
      | with_reducible exact hP _ (by decide) | with_reducible exact parts_in hP | with_reducible exact le_side (by omega)
      | with_reducible exact lt_side (by omega) | with_reducible exact off_small _ _ _ | with_reducible intro _ | split

theorem latchFirst_keeps {P : List Part} {s : State} {a1 : State} (a2) (a3) (a4) (a5) (hP : ∀ q ∈ ([.page .fc] : List Part), q ∈ P) (h : Keeps P s a1) :
    Keeps P s (latchFirst a1 a2 a3 a4 a5) := by
  unfold latchFirst
  repeat' first
      | with_reducible assumption | with_reducible apply orPreg_keeps | with_reducible apply setPreg64_keeps
      | with_reducible apply setPreg_keeps | extract_lets | with_reducible apply keeps_ite | with_reducible exact hP _ (by decide)
      | with_reducible exact parts_in hP | with_reducible exact le_side (by omega) | with_reducible exact lt_side (by omega)
      | with_reducible exact off_small _ _ _ | with_reducible intro _ | split | dsimp +zetaDelta only

theorem addRecord_keeps {P : List Part} {s : State} {a1 : State} (a2) (a3) (hP : ∀ q ∈ ([.page .fc, .fc] : List Part), q ∈ P) (h : Keeps P s a1) :
    Keeps P s (addRecord a1 a2 a3) := by
  unfold addRecord
  repeat' first
      | with_reducible assumption | with_reducible apply raiseErr_keeps | with_reducible apply offerEntry_keeps
      | with_reducible apply cntPreg_keeps | extract_lets | with_reducible apply keeps_ite | with_reducible exact hP _ (by decide)
      | with_reducible exact parts_in hP | with_reducible exact le_side (by omega) | with_reducible exact lt_side (by omega)
      | with_reducible exact off_small _ _ _ | with_reducible intro _ | split
      | fail_if_no_progress with_reducible refine put_fc_keeps _ (hP _ (by decide)) ?_ | dsimp +zetaDelta only

theorem recordMsg_keeps {P : List Part} {s : State} {a1 : State} (a2) (a3) (a4) (a5) (a6) (a7) (hP : ∀ q ∈ ([.page .fc, .fc] : List Part), q ∈ P) (h : Keeps P s a1) :
    Keeps P s (recordMsg a1 a2 a3 a4 a5 a6 a7) := by
  unfold recordMsg
  repeat' first
      | with_reducible assumption | with_reducible apply addRecord_keeps | with_reducible apply latchFirst_keeps
      | with_reducible apply offer_keeps | with_reducible apply cntPreg_keeps | extract_lets | with_reducible apply keeps_ite
      | with_reducible exact hP _ (by decide) | with_reducible exact parts_in hP | with_reducible exact le_side (by omega)
      | with_reducible exact lt_side (by omega) | with_reducible exact off_small _ _ _ | with_reducible intro _ | split
      | fail_if_no_progress with_reducible refine put_fc_keeps _ (hP _ (by decide)) ?_ | dsimp +zetaDelta only

theorem fcCtrlWrite_keeps {P : List Part} {s : State} {a1 : State} (a2) (hP : ∀ q ∈ ([.page .fc, .page .lb, .page .ep, .page .xl, .staged, .cores, .slices, .lw, .cxl, .frz, .ports, .fc, .lb] : List Part), q ∈ P) (h : Keeps P s a1) :
    Keeps P s (fcCtrlWrite a1 a2) := by
  unfold fcCtrlWrite
  repeat' first
      | with_reducible assumption | with_reducible apply enterSafe_keeps | with_reducible apply pageWriteGo_keeps
      | with_reducible exact hP _ (by decide) | with_reducible exact parts_in hP | with_reducible exact le_side (by omega)
      | with_reducible exact lt_side (by omega) | with_reducible exact off_small _ _ _ | with_reducible intro _

theorem execSafe_keeps {P : List Part} {s : State} (a1) {a2 : State} (hP : ∀ q ∈ ([.page .fc, .page .lb, .page .ep, .page .xl, .staged, .cores, .slices, .lw, .cxl, .frz, .ports, .fc, .lb] : List Part), q ∈ P) (h : Keeps P s a2) :
    NextKeeps P s (execSafe a1 a2) := by
  unfold execSafe
  repeat' first
      | with_reducible assumption | with_reducible apply nextKeeps_next | with_reducible apply fcCtrlWrite_keeps
      | with_reducible exact hP _ (by decide) | with_reducible exact parts_in hP | with_reducible intro _

theorem fcQWrite_keeps {P : List Part} {s : State} {a1 : State} (a2) (hP : ∀ q ∈ ([.page .fc, .staged, .fc] : List Part), q ∈ P) (h : Keeps P s a1) :
    Keeps P s (fcQWrite a1 a2) := by
  unfold fcQWrite
  repeat' first
      | with_reducible assumption | with_reducible apply pageWrite_keeps | with_reducible apply goDone_keeps | extract_lets
      | with_reducible apply keeps_ite | with_reducible exact hP _ (by decide) | with_reducible exact parts_in hP
      | with_reducible exact le_side (by omega) | with_reducible exact lt_side (by omega) | with_reducible exact off_small _ _ _
      | with_reducible intro _ | split | fail_if_no_progress with_reducible refine put_fc_keeps _ (hP _ (by decide)) ?_
      | dsimp +zetaDelta only

theorem execPop_keeps {P : List Part} {s : State} (a1) {a2 : State} (hP : ∀ q ∈ ([.page .fc, .staged, .fc] : List Part), q ∈ P) (h : Keeps P s a2) :
    NextKeeps P s (execPop a1 a2) := by
  unfold execPop
  repeat' first
      | with_reducible assumption | with_reducible apply nextKeeps_next | with_reducible apply fcQWrite_keeps
      | with_reducible exact hP _ (by decide) | with_reducible exact parts_in hP | with_reducible intro _

theorem execEmpty_keeps {P : List Part} {s : State} (a1) {a2 : State} (hP : ∀ q ∈ ([.page .fc, .staged, .fc] : List Part), q ∈ P) (h : Keeps P s a2) :
    NextKeeps P s (execEmpty a1 a2) := by
  unfold execEmpty
  repeat' first
      | with_reducible assumption | with_reducible apply nextKeeps_next | with_reducible apply fcQWrite_keeps
      | with_reducible exact hP _ (by decide) | with_reducible exact parts_in hP | with_reducible intro _

theorem wdogKickWrite_keeps {P : List Part} {s : State} {a1 : State} (a2) (hP : ∀ q ∈ ([.page .fc, .staged, .fc] : List Part), q ∈ P) (h : Keeps P s a1) :
    Keeps P s (wdogKickWrite a1 a2) := by
  unfold wdogKickWrite
  repeat' first
      | with_reducible assumption | with_reducible apply pageWriteGo_keeps | with_reducible exact hP _ (by decide)
      | with_reducible exact parts_in hP | with_reducible exact le_side (by omega) | with_reducible exact lt_side (by omega)
      | with_reducible exact off_small _ _ _ | with_reducible intro _
      | fail_if_no_progress with_reducible refine put_fc_keeps _ (hP _ (by decide)) ?_

theorem execWdogKick_keeps {P : List Part} {s : State} (a1) {a2 : State} (hP : ∀ q ∈ ([.page .fc, .staged, .fc] : List Part), q ∈ P) (h : Keeps P s a2) :
    NextKeeps P s (execWdogKick a1 a2) := by
  unfold execWdogKick
  repeat' first
      | with_reducible assumption | with_reducible apply nextKeeps_next | with_reducible apply wdogKickWrite_keeps
      | with_reducible exact hP _ (by decide) | with_reducible exact parts_in hP | with_reducible intro _

theorem execWdog_keeps {P : List Part} {s : State} {a1 : State} (hP : ∀ q ∈ ([.page .fc, .fc] : List Part), q ∈ P) (h : Keeps P s a1) :
    NextKeeps P s (execWdog a1) := by
  unfold execWdog
  repeat' first
      | with_reducible assumption | with_reducible apply nextKeeps_next | with_reducible apply raiseErr_keeps
      | with_reducible apply keeps_ite | with_reducible exact hP _ (by decide) | with_reducible exact parts_in hP
      | with_reducible exact le_side (by omega) | with_reducible exact lt_side (by omega) | with_reducible exact off_small _ _ _
      | with_reducible intro _ | split | fail_if_no_progress with_reducible refine put_fc_keeps _ (hP _ (by decide)) ?_

theorem aliveReadback_keeps {P : List Part} {s : State} {a1 : State} (a2) (hP : ∀ q ∈ ([.page .fc, .fc] : List Part), q ∈ P) (h : Keeps P s a1) :
    Keeps P s (aliveReadback a1 a2) := by
  unfold aliveReadback
  repeat' first
      | with_reducible assumption | with_reducible apply raiseErr_keeps | with_reducible exact hP _ (by decide)
      | with_reducible exact parts_in hP | with_reducible exact le_side (by omega) | with_reducible exact lt_side (by omega)
      | with_reducible exact off_small _ _ _ | with_reducible intro _
      | fail_if_no_progress with_reducible refine put_fc_keeps _ (hP _ (by decide)) ?_

theorem execAliveRb_keeps {P : List Part} {s : State} (a1) {a2 : State} (hP : ∀ q ∈ ([.page .fc, .fc] : List Part), q ∈ P) (h : Keeps P s a2) :
    NextKeeps P s (execAliveRb a1 a2) := by
  unfold execAliveRb
  repeat' first
      | with_reducible assumption | with_reducible apply nextKeeps_next | with_reducible apply aliveReadback_keeps
      | with_reducible apply keeps_ite | with_reducible exact hP _ (by decide) | with_reducible exact parts_in hP | with_reducible intro _
      | split | fail_if_no_progress with_reducible refine put_fc_keeps _ (hP _ (by decide)) ?_

theorem selfPe_keeps {P : List Part} {s : State} {a1 : State} (hP : ∀ q ∈ ([.page .fc, .page .lb, .page .ep, .page .xl, .cores, .slices, .lw, .cxl, .frz, .ports, .fc, .lb] : List Part), q ∈ P) (h : Keeps P s a1) :
    Keeps P s (selfPe a1) := by
  unfold selfPe
  repeat' first
      | with_reducible assumption | with_reducible apply enterSafe_keeps | with_reducible apply noteErr_keeps
      | with_reducible apply offerEntry_keeps | with_reducible apply raiseInt_keeps | with_reducible apply cntPreg_keeps | extract_lets
      | with_reducible apply keeps_ite | with_reducible exact hP _ (by decide) | with_reducible exact parts_in hP
      | with_reducible exact le_side (by omega) | with_reducible exact lt_side (by omega) | with_reducible exact off_small _ _ _
      | with_reducible intro _ | split | fail_if_no_progress with_reducible refine put_fc_keeps _ (hP _ (by decide)) ?_
      | dsimp +zetaDelta only

theorem execSelfPe_keeps {P : List Part} {s : State} {a1 : State} (hP : ∀ q ∈ ([.page .fc, .page .lb, .page .ep, .page .xl, .cores, .slices, .lw, .cxl, .frz, .ports, .fc, .lb] : List Part), q ∈ P) (h : Keeps P s a1) :
    NextKeeps P s (execSelfPe a1) := by
  unfold execSelfPe
  repeat' first
      | with_reducible assumption | with_reducible apply nextKeeps_next | with_reducible apply selfPe_keeps
      | with_reducible exact hP _ (by decide) | with_reducible exact parts_in hP | with_reducible intro _

end Sys2Proof.Machine
end

