-- ==== Sys2Proof/Laws/KeepRegisters.lean ====
section
/-! SUPPORT. What the operations of Machine/Registers.lean leave alone. -/

set_option Elab.async false

namespace Sys2Proof.Machine

open Sys2Proof

theorem sdWatchWrite_keeps {P : List Part} {s : State} {a1 : State} (a2) (hP : ∀ q ∈ ([.page .sd, .staged, .sd] : List Part), q ∈ P) (h : Keeps P s a1) :
    Keeps P s (sdWatchWrite a1 a2) := by
  unfold sdWatchWrite
  repeat' first
      | with_reducible assumption | with_reducible apply pageWrite_keeps | with_reducible apply setPreg_keeps | extract_lets
      | with_reducible exact hP _ (by decide) | with_reducible exact parts_in hP | with_reducible exact le_side (by omega)
      | with_reducible exact lt_side (by omega) | with_reducible exact off_small _ _ _ | with_reducible intro _
      | fail_if_no_progress with_reducible refine put_sdArmed_keeps _ (hP _ (by decide)) ?_ | dsimp +zetaDelta only

theorem pairRead_keeps {P : List Part} {s : State} {a1 : State} (a2) (a3) (hP : ∀ q ∈ ([.page .td, .captured] : List Part), q ∈ P) (h : Keeps P s a1) :
    Keeps P s (pairRead a1 a2 a3) := by
  unfold pairRead
  repeat' first
      | with_reducible assumption | with_reducible apply emit_keeps | with_reducible apply setPreg_keeps | extract_lets
      | with_reducible apply keeps_ite | with_reducible exact hP _ (by decide) | with_reducible exact parts_in hP
      | with_reducible exact le_side (by omega) | with_reducible exact lt_side (by omega) | with_reducible exact off_small _ _ _
      | with_reducible intro _ | split | fail_if_no_progress with_reducible refine put_captured_keeps _ (hP _ (by decide)) ?_
      | dsimp +zetaDelta only

theorem execPairLoRead_keeps {P : List Part} {s : State} (a1) (a2) {a3 : State} (hP : ∀ q ∈ ([.page .td, .captured] : List Part), q ∈ P) (h : Keeps P s a3) :
    NextKeeps P s (execPairLoRead a1 a2 a3) := by
  unfold execPairLoRead
  repeat' first
      | with_reducible assumption | with_reducible apply nextKeeps_next | with_reducible apply pairRead_keeps
      | with_reducible apply keeps_ite | with_reducible exact hP _ (by decide) | with_reducible exact parts_in hP | with_reducible intro _
      | split

theorem execUnmappedAccess_keeps {P : List Part} {s : State} (a1) (a2) {a3 : State} (hP : ∀ q ∈ ([.page .dev] : List Part), q ∈ P) (h : Keeps P s a3) :
    NextKeeps P s (execUnmappedAccess a1 a2 a3) := by
  unfold execUnmappedAccess
  repeat' first
      | with_reducible assumption | with_reducible apply nextKeeps_next | with_reducible apply stray_keeps | with_reducible apply emit_keeps
      | with_reducible apply keeps_ite | with_reducible exact hP _ (by decide) | with_reducible exact parts_in hP | with_reducible intro _
      | split

end Sys2Proof.Machine
end

