-- ==== Sys2Proof/Laws/KeepXbPath.lean ====
section
/-! SUPPORT. What the operations of Machine/XbPath.lean leave alone. -/

set_option Elab.async false

namespace Sys2Proof.Machine

open Sys2Proof

theorem setWaiting_keeps {P : List Part} {s : State} {a1 : State} (a2) (a3) (hP : ∀ q ∈ ([.xb] : List Part), q ∈ P) (h : Keeps P s a1) :
    Keeps P s (setWaiting a1 a2 a3) := by
  unfold setWaiting
  repeat' first
      | with_reducible assumption | with_reducible intro _ | fail_if_no_progress with_reducible refine put_xb_keeps _ (hP _ (by decide)) ?_

theorem xbStall_keeps {P : List Part} {s : State} {a1 : State} (a2) (a3) (hP : ∀ q ∈ ([.xb] : List Part), q ∈ P) (h : Keeps P s a1) :
    Keeps P s (xbStall a1 a2 a3) := by
  unfold xbStall
  repeat' first
      | with_reducible assumption | with_reducible intro _ | fail_if_no_progress with_reducible refine put_xb_keeps _ (hP _ (by decide)) ?_

theorem xbEnter_keeps {P : List Part} {s : State} {a1 : State} (a2) (a3) (a4) (hP : ∀ q ∈ ([.xb] : List Part), q ∈ P) (h : Keeps P s a1) :
    Keeps P s (xbEnter a1 a2 a3 a4) := by
  unfold xbEnter
  repeat' first
      | with_reducible assumption | with_reducible apply xbStall_keeps | with_reducible apply setWaiting_keeps | extract_lets
      | with_reducible apply keeps_ite | with_reducible exact hP _ (by decide) | with_reducible exact parts_in hP | with_reducible intro _
      | split | dsimp +zetaDelta only

theorem xbArrive_keeps {P : List Part} {s : State} (a1) {a2 : State} (a3) (hP : ∀ q ∈ ([.page .xb, .xb] : List Part), q ∈ P) (h : Keeps P s a2) :
    Keeps P s (xbArrive a1 a2 a3) := by
  unfold xbArrive
  repeat' first
      | with_reducible assumption | with_reducible apply xbEnter_keeps | with_reducible apply xbStall_keeps
      | with_reducible apply raiseErr_keeps | with_reducible apply emit_keeps | with_reducible apply cntPreg_keeps
      | with_reducible apply keeps_ite | with_reducible exact hP _ (by decide) | with_reducible exact parts_in hP
      | with_reducible exact le_side (by omega) | with_reducible exact lt_side (by omega) | with_reducible exact off_small _ _ _
      | with_reducible intro _ | split | fail_if_no_progress with_reducible refine put_xb_keeps _ (hP _ (by decide)) ?_

theorem xbRetry_keeps {P : List Part} {s : State} {a1 : State} (a2) (hP : ∀ q ∈ ([.page .xb, .xb] : List Part), q ∈ P) (h : Keeps P s a1) :
    Keeps P s (xbRetry a1 a2) := by
  unfold xbRetry
  repeat' first
      | with_reducible assumption | with_reducible apply xbArrive_keeps | extract_lets | with_reducible apply keeps_foldl
      | with_reducible apply keeps_foldl1 | with_reducible exact hP _ (by decide) | with_reducible exact parts_in hP
      | with_reducible intro _ | fail_if_no_progress with_reducible refine put_xb_keeps _ (hP _ (by decide)) ?_ | dsimp +zetaDelta only

theorem xbRelease_keeps {P : List Part} {s : State} {a1 : State} (a2) (hP : ∀ q ∈ ([.xb] : List Part), q ∈ P) (h : Keeps P s a1) :
    Keeps P s (xbRelease a1 a2) := by
  unfold xbRelease
  repeat' first
      | with_reducible assumption | with_reducible apply setWaiting_keeps | with_reducible apply emit_keeps | extract_lets
      | with_reducible apply keeps_foldl | with_reducible apply keeps_foldl1 | with_reducible apply keeps_ite
      | with_reducible exact hP _ (by decide) | with_reducible exact parts_in hP | with_reducible intro _ | split
      | fail_if_no_progress with_reducible refine put_xb_keeps _ (hP _ (by decide)) ?_ | dsimp +zetaDelta only

theorem xbCycle_keeps {P : List Part} {s : State} {a1 : State} (a2) (a3) (hP : ∀ q ∈ ([.page .xb, .xb] : List Part), q ∈ P) (h : Keeps P s a1) :
    Keeps P s (xbCycle a1 a2 a3) := by
  unfold xbCycle
  repeat' first
      | with_reducible assumption | with_reducible apply xbRelease_keeps | with_reducible apply xbRetry_keeps
      | with_reducible apply xbArrive_keeps | with_reducible apply setWaiting_keeps | extract_lets | with_reducible apply keeps_foldl
      | with_reducible apply keeps_foldl1 | with_reducible apply keeps_ite | with_reducible exact hP _ (by decide)
      | with_reducible exact parts_in hP | with_reducible intro _ | split
      | fail_if_no_progress with_reducible refine put_xb_keeps _ (hP _ (by decide)) ?_ | dsimp +zetaDelta only

theorem execXbArbitration_keeps {P : List Part} {s : State} (a1) (a2) {a3 : State} (hP : ∀ q ∈ ([.page .xb, .xb] : List Part), q ∈ P) (h : Keeps P s a3) :
    NextKeeps P s (execXbArbitration a1 a2 a3) := by
  unfold execXbArbitration
  repeat' first
      | with_reducible assumption | with_reducible apply nextKeeps_next | with_reducible apply xbCycle_keeps
      | with_reducible exact hP _ (by decide) | with_reducible exact parts_in hP | with_reducible intro _

theorem execXbStarve_keeps {P : List Part} {s : State} (a1) (a2) {a3 : State} (hP : ∀ q ∈ ([.page .xb] : List Part), q ∈ P) (h : Keeps P s a3) :
    NextKeeps P s (execXbStarve a1 a2 a3) := by
  unfold execXbStarve
  repeat' first
      | with_reducible assumption | with_reducible apply nextKeeps_next | with_reducible apply raiseErr_keeps
      | with_reducible apply keeps_ite | with_reducible exact hP _ (by decide) | with_reducible exact parts_in hP
      | with_reducible exact le_side (by omega) | with_reducible exact lt_side (by omega) | with_reducible exact off_small _ _ _
      | with_reducible intro _ | split

theorem execHoldTimeout_keeps {P : List Part} {s : State} (a1) {a2 : State} (hP : ∀ q ∈ ([.page .xb] : List Part), q ∈ P) (h : Keeps P s a2) :
    NextKeeps P s (execHoldTimeout a1 a2) := by
  unfold execHoldTimeout
  repeat' first
      | with_reducible assumption | with_reducible apply nextKeeps_next | with_reducible apply raiseErr_keeps
      | with_reducible apply keeps_ite | with_reducible exact hP _ (by decide) | with_reducible exact parts_in hP
      | with_reducible exact le_side (by omega) | with_reducible exact lt_side (by omega) | with_reducible exact off_small _ _ _
      | with_reducible intro _ | split | dsimp +zetaDelta only

end Sys2Proof.Machine
end

