-- ==== Sys2Proof/Laws/WriteFields.lean ====
section
/-! SUPPORT. What a register write and the end of a GO action leave alone, unit by unit. -/

set_option Elab.async false

namespace Sys2Proof

open Sys2Proof.Machine

@[simp] theorem goDone_tide (s : State) (p) {o} (b) (ho : o < 0x1000) : (goDone s p o b).tide = s.tide :=
  (goDone_keeps (P := [.page (classOf p)]) p o b ho (by simp) (Keeps.refl _ s)) .tide (by simp)
@[simp] theorem goDone_cores (s : State) (p) {o} (b) (ho : o < 0x1000) : (goDone s p o b).cores = s.cores :=
  (goDone_keeps (P := [.page (classOf p)]) p o b ho (by simp) (Keeps.refl _ s)) .cores (by simp)
@[simp] theorem goDone_mesh (s : State) (p) {o} (b) (ho : o < 0x1000) : (goDone s p o b).mesh = s.mesh :=
  (goDone_keeps (P := [.page (classOf p)]) p o b ho (by simp) (Keeps.refl _ s)) .mesh (by simp)
@[simp] theorem goDone_fares (s : State) (p) {o} (b) (ho : o < 0x1000) : (goDone s p o b).fares = s.fares :=
  (goDone_keeps (P := [.page (classOf p)]) p o b ho (by simp) (Keeps.refl _ s)) .fares (by simp)
@[simp] theorem goDone_locks (s : State) (p) {o} (b) (ho : o < 0x1000) : (goDone s p o b).locks = s.locks :=
  (goDone_keeps (P := [.page (classOf p)]) p o b ho (by simp) (Keeps.refl _ s)) .locks (by simp)
@[simp] theorem goDone_clusters (s : State) (p) {o} (b) (ho : o < 0x1000) : (goDone s p o b).clusters = s.clusters :=
  (goDone_keeps (P := [.page (classOf p)]) p o b ho (by simp) (Keeps.refl _ s)) .clusters (by simp)
@[simp] theorem goDone_mailboxes (s : State) (p) {o} (b) (ho : o < 0x1000) : (goDone s p o b).mailboxes = s.mailboxes :=
  (goDone_keeps (P := [.page (classOf p)]) p o b ho (by simp) (Keeps.refl _ s)) .mailboxes (by simp)
@[simp] theorem goDone_bar4 (s : State) (p) {o} (b) (ho : o < 0x1000) : (goDone s p o b).bar4 = s.bar4 :=
  (goDone_keeps (P := [.page (classOf p)]) p o b ho (by simp) (Keeps.refl _ s)) .bar4 (by simp)
@[simp] theorem goDone_xb (s : State) (p) {o} (b) (ho : o < 0x1000) : (goDone s p o b).xb = s.xb :=
  (goDone_keeps (P := [.page (classOf p)]) p o b ho (by simp) (Keeps.refl _ s)) .xb (by simp)
@[simp] theorem goDone_ctxs (s : State) (p) {o} (b) (ho : o < 0x1000) : (goDone s p o b).ctxs = s.ctxs :=
  (goDone_keeps (P := [.page (classOf p)]) p o b ho (by simp) (Keeps.refl _ s)) .ctxs (by simp)
@[simp] theorem goDone_drains (s : State) (p) {o} (b) (ho : o < 0x1000) : (goDone s p o b).drains = s.drains :=
  (goDone_keeps (P := [.page (classOf p)]) p o b ho (by simp) (Keeps.refl _ s)) .drains (by simp)
@[simp] theorem goDone_slices (s : State) (p) {o} (b) (ho : o < 0x1000) : (goDone s p o b).slices = s.slices :=
  (goDone_keeps (P := [.page (classOf p)]) p o b ho (by simp) (Keeps.refl _ s)) .slices (by simp)
@[simp] theorem goDone_lw (s : State) (p) {o} (b) (ho : o < 0x1000) : (goDone s p o b).lw = s.lw :=
  (goDone_keeps (P := [.page (classOf p)]) p o b ho (by simp) (Keeps.refl _ s)) .lw (by simp)
@[simp] theorem goDone_frz (s : State) (p) {o} (b) (ho : o < 0x1000) : (goDone s p o b).frz = s.frz :=
  (goDone_keeps (P := [.page (classOf p)]) p o b ho (by simp) (Keeps.refl _ s)) .frz (by simp)
@[simp] theorem goDone_ports (s : State) (p) {o} (b) (ho : o < 0x1000) : (goDone s p o b).ports = s.ports :=
  (goDone_keeps (P := [.page (classOf p)]) p o b ho (by simp) (Keeps.refl _ s)) .ports (by simp)
@[simp] theorem goDone_eqs (s : State) (p) {o} (b) (ho : o < 0x1000) : (goDone s p o b).eqs = s.eqs :=
  (goDone_keeps (P := [.page (classOf p)]) p o b ho (by simp) (Keeps.refl _ s)) .eqs (by simp)
@[simp] theorem goDone_scrubs (s : State) (p) {o} (b) (ho : o < 0x1000) : (goDone s p o b).scrubs = s.scrubs :=
  (goDone_keeps (P := [.page (classOf p)]) p o b ho (by simp) (Keeps.refl _ s)) .scrubs (by simp)
@[simp] theorem goDone_pl (s : State) (p) {o} (b) (ho : o < 0x1000) : (goDone s p o b).pl = s.pl :=
  (goDone_keeps (P := [.page (classOf p)]) p o b ho (by simp) (Keeps.refl _ s)) .pl (by simp)
@[simp] theorem goDone_gp (s : State) (p) {o} (b) (ho : o < 0x1000) : (goDone s p o b).gp = s.gp :=
  (goDone_keeps (P := [.page (classOf p)]) p o b ho (by simp) (Keeps.refl _ s)) .gp (by simp)
@[simp] theorem goDone_mod (s : State) (p) {o} (b) (ho : o < 0x1000) : (goDone s p o b).mod = s.mod :=
  (goDone_keeps (P := [.page (classOf p)]) p o b ho (by simp) (Keeps.refl _ s)) .mod (by simp)
@[simp] theorem goDone_boot (s : State) (p) {o} (b) (ho : o < 0x1000) : (goDone s p o b).boot = s.boot :=
  (goDone_keeps (P := [.page (classOf p)]) p o b ho (by simp) (Keeps.refl _ s)) .boot (by simp)
@[simp] theorem pageWrite_tide (s : State) (p) {o} (v x) (ho : o < 0x1000) : (pageWrite s p o v x).st.tide = s.tide :=
  (pageWrite_keeps (P := [.page (classOf p), .staged]) p o v x ho (by simp) (by simp) (Keeps.refl _ s)) .tide (by simp)
@[simp] theorem pageWrite_cores (s : State) (p) {o} (v x) (ho : o < 0x1000) : (pageWrite s p o v x).st.cores = s.cores :=
  (pageWrite_keeps (P := [.page (classOf p), .staged]) p o v x ho (by simp) (by simp) (Keeps.refl _ s)) .cores (by simp)
@[simp] theorem pageWrite_mesh (s : State) (p) {o} (v x) (ho : o < 0x1000) : (pageWrite s p o v x).st.mesh = s.mesh :=
  (pageWrite_keeps (P := [.page (classOf p), .staged]) p o v x ho (by simp) (by simp) (Keeps.refl _ s)) .mesh (by simp)
@[simp] theorem pageWrite_fares (s : State) (p) {o} (v x) (ho : o < 0x1000) : (pageWrite s p o v x).st.fares = s.fares :=
  (pageWrite_keeps (P := [.page (classOf p), .staged]) p o v x ho (by simp) (by simp) (Keeps.refl _ s)) .fares (by simp)
@[simp] theorem pageWrite_locks (s : State) (p) {o} (v x) (ho : o < 0x1000) : (pageWrite s p o v x).st.locks = s.locks :=
  (pageWrite_keeps (P := [.page (classOf p), .staged]) p o v x ho (by simp) (by simp) (Keeps.refl _ s)) .locks (by simp)
@[simp] theorem pageWrite_clusters (s : State) (p) {o} (v x) (ho : o < 0x1000) : (pageWrite s p o v x).st.clusters = s.clusters :=
  (pageWrite_keeps (P := [.page (classOf p), .staged]) p o v x ho (by simp) (by simp) (Keeps.refl _ s)) .clusters (by simp)
@[simp] theorem pageWrite_mailboxes (s : State) (p) {o} (v x) (ho : o < 0x1000) : (pageWrite s p o v x).st.mailboxes = s.mailboxes :=
  (pageWrite_keeps (P := [.page (classOf p), .staged]) p o v x ho (by simp) (by simp) (Keeps.refl _ s)) .mailboxes (by simp)
@[simp] theorem pageWrite_bar4 (s : State) (p) {o} (v x) (ho : o < 0x1000) : (pageWrite s p o v x).st.bar4 = s.bar4 :=
  (pageWrite_keeps (P := [.page (classOf p), .staged]) p o v x ho (by simp) (by simp) (Keeps.refl _ s)) .bar4 (by simp)
@[simp] theorem pageWrite_xb (s : State) (p) {o} (v x) (ho : o < 0x1000) : (pageWrite s p o v x).st.xb = s.xb :=
  (pageWrite_keeps (P := [.page (classOf p), .staged]) p o v x ho (by simp) (by simp) (Keeps.refl _ s)) .xb (by simp)
@[simp] theorem pageWrite_ctxs (s : State) (p) {o} (v x) (ho : o < 0x1000) : (pageWrite s p o v x).st.ctxs = s.ctxs :=
  (pageWrite_keeps (P := [.page (classOf p), .staged]) p o v x ho (by simp) (by simp) (Keeps.refl _ s)) .ctxs (by simp)
@[simp] theorem pageWrite_drains (s : State) (p) {o} (v x) (ho : o < 0x1000) : (pageWrite s p o v x).st.drains = s.drains :=
  (pageWrite_keeps (P := [.page (classOf p), .staged]) p o v x ho (by simp) (by simp) (Keeps.refl _ s)) .drains (by simp)
@[simp] theorem pageWrite_slices (s : State) (p) {o} (v x) (ho : o < 0x1000) : (pageWrite s p o v x).st.slices = s.slices :=
  (pageWrite_keeps (P := [.page (classOf p), .staged]) p o v x ho (by simp) (by simp) (Keeps.refl _ s)) .slices (by simp)
@[simp] theorem pageWrite_lw (s : State) (p) {o} (v x) (ho : o < 0x1000) : (pageWrite s p o v x).st.lw = s.lw :=
  (pageWrite_keeps (P := [.page (classOf p), .staged]) p o v x ho (by simp) (by simp) (Keeps.refl _ s)) .lw (by simp)
@[simp] theorem pageWrite_frz (s : State) (p) {o} (v x) (ho : o < 0x1000) : (pageWrite s p o v x).st.frz = s.frz :=
  (pageWrite_keeps (P := [.page (classOf p), .staged]) p o v x ho (by simp) (by simp) (Keeps.refl _ s)) .frz (by simp)
@[simp] theorem pageWrite_ports (s : State) (p) {o} (v x) (ho : o < 0x1000) : (pageWrite s p o v x).st.ports = s.ports :=
  (pageWrite_keeps (P := [.page (classOf p), .staged]) p o v x ho (by simp) (by simp) (Keeps.refl _ s)) .ports (by simp)
@[simp] theorem pageWrite_eqs (s : State) (p) {o} (v x) (ho : o < 0x1000) : (pageWrite s p o v x).st.eqs = s.eqs :=
  (pageWrite_keeps (P := [.page (classOf p), .staged]) p o v x ho (by simp) (by simp) (Keeps.refl _ s)) .eqs (by simp)
@[simp] theorem pageWrite_scrubs (s : State) (p) {o} (v x) (ho : o < 0x1000) : (pageWrite s p o v x).st.scrubs = s.scrubs :=
  (pageWrite_keeps (P := [.page (classOf p), .staged]) p o v x ho (by simp) (by simp) (Keeps.refl _ s)) .scrubs (by simp)
@[simp] theorem pageWrite_pl (s : State) (p) {o} (v x) (ho : o < 0x1000) : (pageWrite s p o v x).st.pl = s.pl :=
  (pageWrite_keeps (P := [.page (classOf p), .staged]) p o v x ho (by simp) (by simp) (Keeps.refl _ s)) .pl (by simp)
@[simp] theorem pageWrite_gp (s : State) (p) {o} (v x) (ho : o < 0x1000) : (pageWrite s p o v x).st.gp = s.gp :=
  (pageWrite_keeps (P := [.page (classOf p), .staged]) p o v x ho (by simp) (by simp) (Keeps.refl _ s)) .gp (by simp)
@[simp] theorem pageWrite_mod (s : State) (p) {o} (v x) (ho : o < 0x1000) : (pageWrite s p o v x).st.mod = s.mod :=
  (pageWrite_keeps (P := [.page (classOf p), .staged]) p o v x ho (by simp) (by simp) (Keeps.refl _ s)) .mod (by simp)
@[simp] theorem pageWrite_boot (s : State) (p) {o} (v x) (ho : o < 0x1000) : (pageWrite s p o v x).st.boot = s.boot :=
  (pageWrite_keeps (P := [.page (classOf p), .staged]) p o v x ho (by simp) (by simp) (Keeps.refl _ s)) .boot (by simp)

end Sys2Proof
end

