-- ==== Sys2Proof/Laws/WriteRegs.lean ====
section
/-! SUPPORT. What a write leaves in a register, by the access codes of its fields. -/

set_option Elab.async false

namespace Sys2Proof

open Sys2Proof.Machine

theorem bit_setFld_out {n : Nat} (x : BitVec n) (lo w v b : Nat) (h : b < lo ∨ lo + w ≤ b) : bit (setFld x lo w v) b = bit x b := by
  have hm : ∀ k, Nat.testBit ((2 ^ w - 1) * 2 ^ lo) k = (decide (lo ≤ k) && decide (k < lo + w)) := by
    intro k
    rw [Nat.testBit_mul_two_pow, Nat.testBit_two_pow_sub_one]
    by_cases hk : lo ≤ k
    · simp [hk]; omega
    · simp [hk]
  have hv : Nat.testBit (v % 2 ^ w * 2 ^ lo) b = false := by
    rw [Nat.testBit_mul_two_pow, Nat.testBit_mod_two_pow]
    rcases h with h | h
    · simp; omega
    · simp; omega
  unfold bit setFld
  rw [BitVec.getLsbD_or, BitVec.getLsbD_and, BitVec.getLsbD_not, BitVec.getLsbD_ofNat, BitVec.getLsbD_ofNat, hv, hm]
  by_cases hb : b < n
  · have : (decide (lo ≤ b) && decide (b < lo + w)) = false := by
      rcases h with h | h <;> simp <;> omega
    simp [hb, this]
  · simp [hb, BitVec.getLsbD_of_ge _ _ (show n ≤ b by omega)]

theorem fld_of_bits {n : Nat} {x y : BitVec n} {lo w : Nat} (h : ∀ b, lo ≤ b → b < lo + w → bit x b = bit y b) : fld x lo w = fld y lo w := by
  unfold fld
  apply Nat.eq_of_testBit_eq
  intro i
  rw [Nat.testBit_mod_two_pow, Nat.testBit_mod_two_pow, Nat.testBit_div_two_pow, Nat.testBit_div_two_pow]
  by_cases hi : i < w
  · have := h (lo + i) (by omega) (by omega)
    unfold bit at this
    rw [BitVec.getLsbD, BitVec.getLsbD] at this
    rw [Nat.add_comm i lo, this]
  · simp [hi]

theorem fld_setFld_out {n : Nat} (x : BitVec n) (lo w v l k : Nat) (h : l + k ≤ lo ∨ lo + w ≤ l) : fld (setFld x lo w v) l k = fld x l k :=
  fld_of_bits fun b h1 h2 => bit_setFld_out x lo w v b (by omega)

theorem bit_eq_fld {n : Nat} (x : BitVec n) (b : Nat) : bit x b = decide (fld x b 1 = 1) := by
  unfold bit fld
  rw [BitVec.getLsbD, Nat.testBit_eq_decide_div_mod_eq, pow_one]

theorem fld_setFld_same (x : W32) (lo w v : Nat) (h : lo + w ≤ 32) (hv : v < 2 ^ w) : fld (setFld x lo w v) lo w = v := by
  unfold fld
  apply Nat.eq_of_testBit_eq
  intro i
  have hm : ∀ k, Nat.testBit ((2 ^ w - 1) * 2 ^ lo) k = (decide (lo ≤ k) && decide (k < lo + w)) := by
    intro k
    rw [Nat.testBit_mul_two_pow, Nat.testBit_two_pow_sub_one]
    by_cases hk : lo ≤ k
    · simp [hk]; omega
    · simp [hk]
  rw [Nat.testBit_mod_two_pow, Nat.testBit_div_two_pow]
  by_cases hi : i < w
  · have e : Nat.testBit (setFld x lo w v).toNat (i + lo) = bit (setFld x lo w v) (i + lo) := rfl
    rw [e]
    unfold bit setFld
    rw [BitVec.getLsbD_or, BitVec.getLsbD_and, BitVec.getLsbD_not, BitVec.getLsbD_ofNat, BitVec.getLsbD_ofNat, hm,
      Nat.testBit_mul_two_pow, Nat.testBit_mod_two_pow]
    have h1 : lo ≤ i + lo := by omega
    have h2 : i + lo < 32 := by omega
    simp [hi, h1, h2, show i + lo < lo + w by omega]
  · rw [Nat.testBit_lt_two_pow (x := v) (i := i) (lt_of_lt_of_le hv (Nat.pow_le_pow_right (by omega) (by omega)))]
    simp [hi]

/-- A field's write leaves the bits outside it, and the GO bits that do not begin it. -/
theorem wrField_out (locked : Bool) (v same : W32) (a : Wr) (x : Fld) {b : Nat} (h : b < x.lo ∨ x.lo + x.w ≤ b) :
    bit (wrField locked v same a x).new b = bit a.new b := by
  unfold wrField
  simp only
  split
  · split
    · exact bit_setFld_out _ _ _ _ _ h
    · rfl
  · rfl
  · have hm : Nat.testBit ((2 ^ x.w - 1) * 2 ^ x.lo) b = false := by
      rw [Nat.testBit_mul_two_pow, Nat.testBit_two_pow_sub_one]
      rcases h with h | h <;> simp <;> omega
    simp only [bit, BitVec.getLsbD_and, BitVec.getLsbD_not, BitVec.getLsbD_ofNat, hm]
    by_cases hb : b < 32
    · simp [hb]
    · simp [hb, BitVec.getLsbD_of_ge _ _ (show 32 ≤ b by omega)]
  · split
    · rfl
    · split
      · exact bit_setFld_out _ _ _ _ _ h
      · rfl
  · exact bit_setFld_out _ _ _ _ _ h
  · split
    · rfl
    · split
      · rfl
      · split
        · rfl
        · split
          · exact bit_setFld_out _ _ _ _ _ h
          · rfl

theorem one32_bit (b k : Nat) : bit (one32 b) k = (decide (k < 32) && decide (k = b)) := by
  unfold bit one32
  rw [BitVec.getLsbD_ofNat]
  by_cases h : k = b
  · subst h; simp
  · rw [Nat.testBit_two_pow_of_ne (Ne.symm h)]
    simp [h]

theorem wrField_go (locked : Bool) (v same : W32) (a : Wr) (x : Fld) {b : Nat} (h : x.acc = .go → b ≠ x.lo) :
    bit (wrField locked v same a x).go b = bit a.go b := by
  unfold wrField
  simp only
  split
  case h_4 he =>
    split
    · rfl
    · split
      · show (a.go ||| one32 x.lo).getLsbD b = _
        rw [BitVec.getLsbD_or]
        have := one32_bit x.lo b
        unfold bit at this
        rw [this]
        simp [h he, bit]
      · rfl
  all_goals repeat' first | rfl | split

/-- The fields of a row that begin before the GO field of bit `b` or after it leave it alone, and one field is that GO field. -/
def goField (b : Nat) : List Fld → Bool
  | [] => false
  | x :: l =>
    if x.lo = b then decide (x.w = 1) && decide (x.acc = .go) && l.all (fun y => (decide (b < y.lo) || decide (y.lo + y.w ≤ b)) && decide (b ≠ y.lo))
    else (decide (b < x.lo) || decide (x.lo + x.w ≤ b)) && goField b l

theorem goFold_out (locked : Bool) (v same : W32) (b : Nat) (l : List Fld)
    (h : l.all (fun y => (decide (b < y.lo) || decide (y.lo + y.w ≤ b)) && decide (b ≠ y.lo)) = true) (a : Wr) :
    bit (l.foldl (wrField locked v same) a).go b = bit a.go b ∧ bit (l.foldl (wrField locked v same) a).new b = bit a.new b := by
  induction l generalizing a with
  | nil => exact ⟨rfl, rfl⟩
  | cons x l ih =>
    simp only [List.all_cons, Bool.and_eq_true, Bool.or_eq_true, decide_eq_true_eq] at h
    obtain ⟨i1, i2⟩ := ih (by simpa using h.2) (wrField locked v same a x)
    exact ⟨i1.trans (wrField_go _ _ _ _ _ fun _ => h.1.2), i2.trans (wrField_out _ _ _ _ _ h.1.1)⟩

theorem goFold (locked : Bool) (v same : W32) {b : Nat} (hb : b < 32) (l : List Fld) (h : goField b l = true) (a : Wr) (hg : bit a.go b = false) :
    bit (l.foldl (wrField locked v same) a).go b = (bit v b && !bit a.new b) ∧ bit (l.foldl (wrField locked v same) a).new b = (bit v b || bit a.new b) := by
  induction l generalizing a with
  | nil => cases h
  | cons x l ih =>
    unfold goField at h
    split at h
    · next hx =>
      simp only [Bool.and_eq_true, decide_eq_true_eq] at h
      obtain ⟨⟨hw, ha⟩, hl⟩ := h
      obtain ⟨g1, g2⟩ := goFold_out locked v same b l hl (wrField locked v same a x)
      rw [List.foldl_cons, g1, g2]
      obtain ⟨lo, w, acc, le, mo⟩ := x
      simp only at hx hw ha
      subst hx hw ha
      have fv := bit_eq_fld v lo
      have fo := bit_eq_fld a.new lo
      have hv : fld v lo 1 < 2 := Nat.mod_lt _ (by decide)
      have ho : fld a.new lo 1 < 2 := Nat.mod_lt _ (by decide)
      unfold wrField
      simp only
      split
      · next e => rw [hg, fv, e]; simp [fo]
      · next e =>
        have e1 : fld v lo 1 = 1 := by omega
        split
        · next e2 =>
          refine ⟨?_, ?_⟩
          · show (a.go ||| one32 lo).getLsbD lo = _
            rw [BitVec.getLsbD_or]
            have := one32_bit lo lo
            unfold bit at this
            rw [this, fv, fo, e1, e2]
            simp [hb]
          · show bit (setFld a.new lo 1 1) lo = _
            rw [bit_eq_fld, fld_setFld_same _ _ _ _ (by omega) (by decide), fv, e1]
            simp
        · next e2 =>
          have e3 : fld a.new lo 1 = 1 := by omega
          rw [hg, fv, fo, e1, e3]
          exact ⟨by simp, by simp⟩
    · simp only [Bool.and_eq_true, Bool.or_eq_true, decide_eq_true_eq] at h
      have hout := wrField_out locked v same a x h.1
      obtain ⟨i1, i2⟩ := ih h.2 (wrField locked v same a x) ((wrField_go _ _ _ _ _ (fun _ e => by subst e; contradiction)).trans hg)
      rw [List.foldl_cons, i1, i2, hout]
      exact ⟨rfl, rfl⟩

theorem crossCheck_go (p : Page) (o : Nat) (old v : W32) (a : Wr) : (crossCheck p o old v a).go = a.go := by
  unfold crossCheck
  split
  · split <;> rfl
  · split <;> rfl
  · rfl

/-- A write starts GO bit `b` of a register just where it writes 1 to it and it reads 0 (03 R86). -/
theorem pageWrite_started {s : State} {p : Page} {o b : Nat} {row : RegRow} (v same : W32) (hl : bit (preg s p 0x44) 0 = false)
    (hr : rowOf p o = some row) (hp : row.pair = false) (hq : ∀ lo, 4 ≤ o → rowOf p (o - 4) = some lo → lo.pair = false)
    (hg : goField b row.flds = true) (hb : b < 32) : (pageWrite s p o v same).started b = (bit v b && !bit (preg s p o) b) := by
  rw [pageWrite_eq v same (Or.inl hl) hr hp hq]
  show bit (wrReg s p o row v same).go b = _
  unfold wrReg
  show bit (crossCheck p o _ _ _).go b = _
  rw [crossCheck_go]
  exact (goFold _ v same hb _ hg _ (by simp [bit])).1

end Sys2Proof
end

