-- ==== Sys2Proof/WellFormed.lean ====
section
/-! DEFINITION. Which commands are well-formed: operands that the interface can bring. What a command does is defined for every operand; these
checks say which of them an event of the hardware can have. -/

namespace Sys2Proof

/-- A register offset of a whole register (03 R76). -/
def aligned4 (n : Nat) : Bool := decide (n % 4 = 0)

/-- A granule of device memory: 4,608 regions of 64 MiB (01 R17, 08 R336). -/
def granOk (g : BitVec 34) : Bool := decide (g.toNat < 4608 * 2 ^ 21)

/-- A CXL.mem address names a line (09 R369). -/
def lineOk (hpa : BitVec 64) : Bool := decide (hpa.toNat % 64 = 0)

/-- A write target: an offset of a whole register unless the byte enables fall short, and bytes inside BAR4 (03 R76; 06 R244). -/
def WriteTarget.wf : WriteTarget → Bool
  | .bar0 off _ whole _ => !whole || aligned4 off.toNat
  | .config _ _ => true
  | .bar4 off bytes => !bytes.isEmpty && decide (off.toNat + bytes.length ≤ 2 ^ 20)

/-- What training can settle: x16 or x8, one of three rates, 256-byte flits at 64 GT/s alone (09 R362, R363). -/
def LinkInfo.wf (i : LinkInfo) : Bool :=
  (decide (i.width.toNat = 16) || decide (i.width.toNat = 8)) && decide (1 ≤ i.rate.toNat) && decide (i.rate.toNat ≤ 3)
    && decide (i.flit256 = decide (i.rate = 3))

/-- A unit of the self-test: the causes of a hub block are 1 to 6 (15 R637). -/
def BistUnit.wf : BistUnit → Bool
  | .hubBlock cause _ => decide (1 ≤ cause.toNat) && decide (cause.toNat ≤ 6)
  | _ => true

/-- Well-formed commands. -/
def WellFormed (i : Instr) : Bool :=
  match i with
  | .stepBoundary => true
  | .tideFrame _ _ => true
  | .tideMiss => true
  | .holdExpired => true
  | .refLoss => true
  | .tdEnable _ => true
  | .relock _ => true
  | .tdResume _ => true
  | .tdLenNextWrite _ _ => true
  | .tdWinWrite _ => true
  | .xlTide _ _ _ => true
  | .ttNop _ _ => true
  | .ttEvent _ _ => true
  | .ttStart _ _ => true
  | .ttSend _ _ _ _ => true
  | .ttManifest _ _ _ _ => true
  | .ttDeadlineBerth _ _ => true
  | .ttDeadlineMark _ _ => true
  | .ttLoad _ _ => true
  | .ttQuietOn _ _ => true
  | .ttQuietOff _ _ => true
  | .ttTrap _ _ => true
  | .ttBadact _ _ => true
  | .ttArm _ _ => true
  | .ttBankWrite _ off _ => aligned4 off.toNat && (decide (off.toNat < 0x4000) || decide (off.toNat = 0x8004) || decide (off.toNat = 0x8008))
  | .ttEnable _ _ => true
  | .registerWrite target => target.wf
  | .unmappedAccess _ _ => true
  | .pairLoRead off enables => aligned4 off.toNat && decide (enables ≠ 0)
  | .pairHiWrite off _ => aligned4 off.toNat
  | .softReset page => match page with | .dev | .fc | .gp => false | _ => true
  | .pageLock _ _ => true
  | .ctrlFenceWrite _ _ => true
  | .gcEnable _ _ => true
  | .gcStart _ _ => true
  | .gcPark _ _ => true
  | .coreParked _ => true
  | .gcKick _ _ => true
  | .messageDelivery _ _ _ => true
  | .fareReturn _ => true
  | .lockStatePe _ => true
  | .forceFree _ => true
  | .forceBreak _ => true
  | .sdPartReset _ => true
  | .bundleIssue core _ same => decide (core :: same.map (·.1)).Nodup
  | .mmaComplete _ _ => true
  | .globalAccessComplete _ _ _ => true
  | .mapFillComplete _ _ _ => true
  | .manifestStart _ _ => true
  | .manifestElement _ _ _ _ => true
  | .manifestComplete _ _ => true
  | .segmentTranslation _ _ => true
  | .segmentTranslationDone _ _ _ => true
  | .manifestPartial _ _ => true
  | .abortAll _ _ => true
  | .mvEn _ _ => true
  | .mbNop _ _ _ => true
  | .mbSubmit _ _ _ _ _ => true
  | .mbWriteInline _ _ _ _ => true
  | .mbInject _ _ _ => true
  | .mbKick _ _ _ => true
  | .mbResume _ _ _ _ => true
  | .mbAbort _ _ _ => true
  | .mbFence _ _ _ => true
  | .tblWrite _ _ _ => true
  | .invalidate _ _ _ => true
  | .invalidateComplete _ _ => true
  | .mbBadCmd _ _ _ => true
  | .mailboxEn _ _ => true
  | .winReset _ _ => true
  | .xbArbitration _ arrivals => arrivals.all fun a => decide (1 ≤ a.beats.toNat) && decide (a.beats.toNat ≤ 16)
  | .xbStarve _ _ => true
  | .holdTimeout _ => true
  | .bar2Write _ off bytes _ => !bytes.isEmpty && decide (off.toNat + bytes.length ≤ 2 ^ 32)
  | .unsupportedRequest cause _ _ => decide (1 ≤ cause.val)
  | .vtClear _ => true
  | .vtCtxEnWrite _ => true
  | .rds _ _ _ _ => true
  | .rdo _ _ _ => true
  | .upg _ _ _ => true
  | .wb _ _ => true
  | .cleanNotice _ _ => true
  | .rdcur _ _ _ => true
  | .wrinv _ _ _ => true
  | .wrpart _ _ _ mask _ => decide (mask ≠ 0)
  | .forwardRequest _ _ _ => true
  | .snoopInvalidate _ _ => true
  | .requestRetry _ _ _ => true
  | .dcStarve _ _ _ => true
  | .cacheFill cache _ way _ _ => match cache with | .cluster _ => decide (way.val < 8) | .slice _ => true
  | .ccFlush _ _ => true
  | .ccInv _ _ => true
  | .dcFlush _ _ => true
  | .dcInv _ _ => true
  | .invalidated _ => true
  | .cacheEnable _ _ _ => true
  | .mcRead _ g _ => granOk g
  | .mcPartialWrite _ g _ mask _ => granOk g && decide (mask ≠ 0)
  | .mcFullWrite _ g _ rival => granOk g && (match rival with | some r => decide (r.2.1 ≠ 0) | none => true)
  | .scrubRead _ _ w => (match w with | some x => decide (x.2 ≠ 0) | none => true)
  | .lwEnable _ => true
  | .lwMove _ => true
  | .lwScanDone => true
  | .bisnpResponse _ _ => true
  | .biSlow => true
  | .memrd hpa _ => lineOk hpa
  | .memrddata hpa => lineOk hpa
  | .meminv hpa _ => lineOk hpa
  | .memwr hpa _ _ => lineOk hpa
  | .memwrptl hpa _ mask _ => lineOk hpa && decide (mask ≠ 0)
  | .snpdata _ => true
  | .snpinv _ => true
  | .snpcur _ => true
  | .cxlCacheResponse _ _ => true
  | .linkUp info => info.wf
  | .linkTrainingRetry => true
  | .linkReplay => true
  | .linkRecovery => true
  | .linkDown => true
  | .completionTimeout _ => true
  | .l1Entry _ => true
  | .l1Exit => true
  | .l0pNarrow => true
  | .l0pWiden => true
  | .cacheWritebackAndInvalidate => true
  | .powerStateWrite _ => true
  | .completionTimeoutWrite _ => true
  | .doeRequest _ _ _ => true
  | .commit _ => true
  | .uncommit _ => true
  | .freeze _ => true
  | .release _ rival => rival.all fun c => decide (2 ≤ c.toNat) && decide (c.toNat ≤ 4)
  | .msixUnmask _ _ => true
  | .functionLevelReset => true
  | .xlEnable _ _ => true
  | .xlStageComplete _ _ => true
  | .xlStageTimeout _ _ => true
  | .xlRestart _ => true
  | .retrain _ _ => true
  | .probe _ _ => true
  | .xlWinReset _ _ => true
  | .xlSlotArm _ _ => true
  | .fecLockLoss _ => true
  | .credit _ _ => true
  | .ack _ _ => true
  | .nak _ _ => true
  | .fare _ _ => true
  | .probeWord _ _ _ => true
  | .echo _ _ _ => true
  | .abort _ _ => true
  | .ident0 _ _ => true
  | .ident1 _ _ => true
  | .replay _ _ => true
  | .down _ _ => true
  | .reservedWord _ _ => true
  | .bundleReceived _ bundle => decide (bundle.payload.length ≤ 2047)
  | .bundleClose _ _ svc => match svc with | some x => decide (1 ≤ x.2.toNat) && decide (x.2.toNat ≤ 1024) | none => true
  | .slotOpen _ _ => true
  | .slotClose _ _ => true
  | .bundleTransmit _ => true
  | .pwTargetEval _ => true
  | .voltageStepDone _ => true
  | .frequencyStep _ => true
  | .powerSample _ _ => true
  | .pwrSense _ => true
  | .tjLimit _ _ => true
  | .thermTrip => true
  | .droop _ => true
  | .stretchRelax _ _ => true
  | .vrFault _ => true
  | .eqUpdate link lane _ _ _ _ => decide (link.val = 8) || decide (lane.val < 4)
  | .eqStarved _ => true
  | .scrubWindow => true
  | .alPwrLimWrite _ => true
  | .alDroopMvWrite _ _ => true
  | .alScrubPassMinWrite _ => true
  | .plWindowEnd heat channelHeat => heat.all (fun e => decide (e.1 < 4608)) && (heat.map (·.1)).Nodup && decide (channelHeat.length = 8)
  | .plChunkStart => true
  | .plChunkDone => true
  | .plCommit => true
  | .plMove _ => true
  | .plEnable _ => true
  | .faultMessage _ _ _ => true
  | .safeStatePortFence _ => true
  | .safe _ => true
  | .pop _ => true
  | .empty _ => true
  | .wdogKick _ => true
  | .wdog => true
  | .aliveRb _ => true
  | .selfPe => true
  | .faultInjection _ => true
  | .logbookEntry => true
  | .lbSnap _ => true
  | .flashOperationComplete _ _ => true
  | .flashErr => true
  | .powerFailFollowup => true
  | .rdLoad _ => true
  | .note _ => true
  | .challenge _ _ => true
  | .submit _ _ => true
  | .close _ _ => true
  | .nonceExpiry => true
  | .extest => true
  | .idcode => true
  | .samplePreload => true
  | .gpReg off _ => aligned4 off.toNat
  | .dbg off _ => aligned4 off.toNat && decide (0x2000000 ≤ off.toNat)
  | .bypass code => !([0x00, 0x01, 0x02, 0x20, 0x21] : List Byte).contains code
  | .debugWindowAccess off _ => aligned4 off.toNat && decide (0x2000000 ≤ off.toNat)
  | .pwrFailNAssert => true
  | .pwrFailNRelease => true
  | .intPf => true
  | .perstNAssert _ => true
  | .perstNStepsDone => true
  | .perstNRelease => true
  | .trstN _ => true
  | .supervisedInputOpen _ => true
  | .leakMeasurement _ => true
  | .thermistorReading _ _ _ => true
  | .tideInputFault _ _ => true
  | .readback _ _ => true
  | .mgtBusWrite _ _ _ => true
  | .stuck => true
  | .inputUndervoltage => true
  | .inputOvervoltage => true
  | .standbyLoss _ => true
  | .standbyPowerUp _ => true
  | .coldReset => true
  | .bootStageComplete _ => true
  | .stageTimeout => true
  | .bistGroupStart _ => true
  | .bistGroupComplete _ _ _ => true
  | .bistLocalisationDone failing => failing.all BistUnit.wf
  | .hbmTrainingDone _ _ => true
  | .memoryInitDone => true
  | .refOk => true
  | .sendComplete _ _ => true
  | .mainConversionStart => true
  | .inputReversed => true
  | .osfpModulePresent _ _ => true
  | .partnerL0pRequest _ => true
  | .intPfRelease => true
  | .replayEpisodeEnd _ => true
  | .flrComplete => true
  | .hubFirmwareSubmission _ _ _ _ => true

end Sys2Proof
end

