-- ==== Sys2Proof/Tests/Slice0.lean ====
section
/-! SUPPORT. Tests of the model against values the manual gives, and a witness for the hypotheses of every clause of every statement. -/

set_option Elab.async false

namespace Sys2Proof.Tests

open Sys2Proof Sys2Proof.Machine

/-! ## States for the tests -/

/-- A state for the tests: reset with some registers set. -/
def withRegs (l : List (Page × Nat × W32)) (s : State := State.reset) : State := l.foldl (fun t e => setPreg t e.1 e.2.1 e.2.2) s
/-- The tide in a mode. -/
def withMode (m : TideMode) (s : State := State.reset) : State := { s with tide := { s.tide with mode := m } }
/-- A port changed. -/
def withPort (n : Fin 8) (g : Port → Port) (s : State := State.reset) : State := s.setPort n (g (s.port n))
/-- A core changed. -/
def withCore (id : Fin 256) (g : Core → Core) (s : State := State.reset) : State := s.setCoreRaw id (g (s.core id))
/-- A locked tide that dispatches, with steps of 2^20 tk, and core 3's timetable of one valid entry, due at phase 0. -/
def withEntry (w0 w3 : W32) (st : CoreState := .run) : State :=
  let s0 : State := { State.reset with tide := { tideReset with mode := .locked, dispatching := true, len := 0x100000, step := 9 } }
  withCore 3 (fun c => { c with st := st, tt := { c.tt with running := true } })
    (setTtReg (setTtReg (setTtReg (setTtReg (setTtReg s0 3 0x8000 1) 3 0x8004 1) 3 0 w0) 3 4 0x40) 3 12 w3)
/-- Core 3 with a descriptor of 64 bytes on channel 1 at LDM 0x40, the channel loaded towards core 5 with 2 berths. -/
def withSend (s : State) : State :=
  withCore 3 (fun c => { c with ldm := writeBytes c.ldm 0x40 (natBytes 16 (64 * 2 ^ 32 + 2 ^ 48 + 77 * 2 ^ 64)), loaded := true }) (withRegs [(.gc 3, 0x148, 0x200005)] s)
/-- A core whose channel 1 holds fares. -/
def withFare (id : Fin 256) (n : Nat) (s : State) : State := withCore id (fun c => c.setChan 1 { c.chan 1 with fares := BitVec.ofNat 5 n }) s
def outOf (r : Res) : Option State := match r with | .next t => some t | _ => none
/-- Core 3 running, with the bundle `b` next in its fetch queue. -/
def withBundle (b : BitVec 128) (s : State := State.reset) : State := withCore 3 (fun c => { c with st := .run, loaded := true, fetchQ := List.replicate 5 b }) s
/-- A message of 64 bytes for berth 2 of core 5, from core 3's channel 1. -/
def msg0 : MeshMsg := ⟨5, 2, 3, 1, 0, 64, 77, true, 4, List.replicate 64 7, none, none, false⟩
/-- One message on its way. -/
def withMesh (m : MeshMsg) (s : State := State.reset) : State := { s with mesh := [m] }
/-- Core 5 in a state. -/
def withSt (st : CoreState) (s : State := State.reset) : State := withCore 5 (fun c => { c with st := st }) s
/-- A FILL of two elements of 8 bytes at VA 0x1000, its record at VA 0x2000, in queue 0. -/
def fillDesc : BitVec 1024 := BitVec.ofNat 1024 (2 + 1 * 2 ^ 8 + 3 * 2 ^ 11 + 0x1000 * 2 ^ 128 + 0x2000 * 2 ^ 192 + 0xAB * 2 ^ 384 + 2 * 2 ^ 448 + 8 * 2 ^ 616)
/-- The page at VA 0, in device memory at 0x2000000. -/
def page0 : Xlat := ⟨0, false, 0, 0x2000000⟩
/-- That manifest, started. -/
def mf0 : Manifest :=
  { no := 1, desc := fillDesc, ctx := 0, core := none, started := true, done := 0, poisoned := 0, recX := page0, flagX := none, limit := 32
    seg := some ⟨0, 2, [(true, page0)], false⟩, next := none, nextBusy := false, stopAt := none, halted := false, ending := none }
/-- Queue 0 of mover 2 holds a manifest. -/
def withManifest (m : Manifest) (s : State := State.reset) : State := setQueue s 2 0 [m]
/-- Context 0 maps VA 0 to device memory at 0x2000000, with every right. -/
def withMap (s : State := State.reset) : State :=
  { withRegs [(.vt, 8, 1), (.vt, 0x100, 1), (.cl 2, 0x200, 1)] s with ctxs := s.ctxs.set 0 { vtCtxReset with small := [(0, 0x200004F)] } }
/-- Mailbox 0 is on, its slot 1 holds `d`. -/
def withSlot (d : Nat) (s : State := State.reset) : State :=
  { withRegs [(.fm, 8, 1), (.fm, 0x100, 1)] s with bar4 := writeBytes s.bar4 0x80 (natBytes 120 d) }
/-- A FILL's descriptor in device memory at 0x2000080. -/
def withDesc (s : State := State.reset) : State := { s with dm := writeBytes s.dm 0x2000080 (natBytes 128 fillDesc.toNat) }
/-- A line of device memory, at 0x2000000, and one of host memory. -/
def line0 : Line := ⟨false, 0x80000⟩
def lineH : Line := ⟨true, 0x80001⟩
/-- Cluster 2's cache is enabled. -/
def withCc (s : State := State.reset) : State := s.setCl 2 { s.cl 2 with cc := { (s.cl 2).cc with enabled := true, invalidated := false } }
/-- A cluster holds a copy of a line, which its home knows. -/
def withCopy (cl : Fin 16) (l : Line) (st : Mesf) (s : State := State.reset) : State :=
  setSl (setCcLine s cl l (some ⟨st, 0xABCD, 0, 0⟩)) l { noLine with presence := BitVec.ofNat 16 (2 ^ cl.val), owned := decide (st = .m ∨ st = .e) }
/-- The CXL link has come up at 32 GT/s. -/
def withRate (s : State := State.reset) : State := withRegs [(.ep, 0x100, 0x40)] s
/-- The CXL link is up, the decoder committed at host address 0, and the landing window enabled. -/
def withHost (s : State := State.reset) : State :=
  { withRegs [(.ep, 0x100, 0x40), (.ep, 0x120, 0x100), (.lw, 8, 1)] s with cxl := { s.cxl with link := .l0 } }
/-- A core's only outstanding access. -/
def withAccess (k : GKind) (host : Bool) (s : State := State.reset) : State :=
  withCore 3 (fun c => { c with st := .run, access := [⟨k, 0x40, host, 0x2000040, 0x1122, false, false, false, 2, 0x30⟩] }) s
/-- Parts of the state changed. -/
def withCxl (g : Cxl → Cxl) (s : State := State.reset) : State := { s with cxl := g s.cxl }
def withBoot (g : Boot → Boot) (s : State := State.reset) : State := { s with boot := g s.boot }
def withMod (g : Module → Module) (s : State := State.reset) : State := { s with mod := g s.mod }
def withFc (g : Collector → Collector) (s : State := State.reset) : State := { s with fc := g s.fc }
def withLb (g : Logbook → Logbook) (s : State := State.reset) : State := { s with lb := g s.lb }
def withGp (g : Gangplank → Gangplank) (s : State := State.reset) : State := { s with gp := g s.gp }
def withPl (g : Placement → Placement) (s : State := State.reset) : State := { s with pl := g s.pl }
/-- The CXL link in a state, in configuration space's reach. -/
def withLink (l : LinkState) (s : State := State.reset) : State := withCxl (fun c => { c with link := l }) (withRate s)
/-- PERST_N is high and boot stage 1 is reached: the link may train. -/
def withTrain (s : State := State.reset) : State :=
  withMod (fun m => { m with perst := .high }) (withBoot (fun b => { b with ended := 1, lastStage := 1 }) s)
/-- A CXL.cache write of mailbox 0's slot 4 is outstanding. -/
def wr0 : HeldWrite := ⟨33, 0, 0x1000, [1, 2, 3, 4], false, false, false, false, some 4⟩
def withWr (s : State := State.reset) : State := withCxl (fun c => { c with link := .l0, d2h := [⟨5, 0x40, 33, 0, some wr0, false⟩] }) (withRate s)
/-- A partial write of cluster 2's mover waits for the line that RdOwn brings; the home slice is enabled. -/
def wr1 : HeldWrite := ⟨18, 0, 0x1002, [1, 2], false, false, false, false, none⟩
def withOwn : State :=
  let s := withCxl (fun c => { c with link := .l0, d2h := [⟨2, 0x40, 18, 0, some wr1, false⟩] }) withRate
  let n := homeOf (lineOf true 0x1002)
  s.setSlice n { s.slice n with enabled := true }
/-- A read of host memory by core 3 is outstanding, as its only access. -/
def acc0 : GAccess := ⟨.load 7 4 false, 0x40, true, 0x2000040, 0x1122, false, false, false, 2, 0x30⟩
def rd0 : D2h := ⟨0, 0x80001, 0, 3, none, false⟩
def withRd (s : State := State.reset) : State := withCxl (fun c => { c with link := .l0, d2h := [rd0] }) (withAccess (.load 7 4 false) true (withRate s))
/-- A port in UP, with credits of 4 in each pool of splits of 8, changed by `g`. -/
def withUp (n : Fin 8) (g : Port → Port := id) (s : State := State.reset) : State :=
  withPort n (fun p => g { p with st := .up, width := 2, credits := #v[4, 4, 4], split := #v[8, 8, 8] }) (withRegs [(.xl n, 8, 1)] s)
/-- A message in a bundle, and a bundle of it from device 2 to device 0. -/
def bmsg0 : BMsg := ⟨5, 2, 1, 0x203, 0, false, 0, 64, 77, List.replicate 64 7⟩
def tx0 : TxBundle := ⟨false, false, none, false, false, 2, 0, 9, 0, [bmsg0], [BitVec.ofNat 512 7], none, 0⟩
/-- Bundles as port 2 receives them: `tx0`; with a deadline at phase 0x10 of step 9; for device 4; with a reserved header bit set; of
class SVC. -/
def rx0 : XlBundle := ⟨0xff6dc069000000000000000000000000000000000000000000000000000000000000000000000000000000006ee4af5f00000000000000000001000009000200#512, dirCells [bmsg0], [7#512], false, false⟩
def rx1 : XlBundle := ⟨0xaac0e1f1000000000000000000000000000000000000000000000000000000000000000000000000000000006ee4af5f00000000001000090001000009000204#512, dirCells [bmsg0], [7#512], false, false⟩
def rx2 : XlBundle := ⟨0x6fb33bc0000000000000000000000000000000000000000000000000000000000000000000000000000000006ee4af5f00000000000000000001000009040200#512, dirCells [bmsg0], [7#512], false, false⟩
def rx3 : XlBundle := ⟨0x3fab2dfa000000000000000000000000000000000000000000000000000000000000000000000000000000006ee4af5f00000000000000000001000009000220#512, dirCells [bmsg0], [7#512], false, false⟩
def rxS : XlBundle := ⟨0x723f3693000000000000000000000000000000000000000000000000000000000000000000000000000000006ee4af5f00000000000000000001000009000201#512, 0, [7#512], false, false⟩
/-- Four good lanes. -/
def lanes0 : LaneInfo := ⟨0xF, 0, 0xE4, 0, 0, 0⟩
/-- A locked tide that dispatches, at a phase. -/
def withPhase (ph : BitVec 26) (s : State := State.reset) : State :=
  { s with tide := { tideReset with mode := .locked, dispatching := true, adopted := true, len := 0x100000, step := 9, phase := ph } }
/-- The checksum with its running value forced at each bit, for evaluation. -/
def feedS {w : Nat} (x : BitVec w) : Nat → Nat → BitVec 32 → BitVec 32
  | _, 0, c => c
  | i, n + 1, c => if crc32Bit c (x.getLsbD i) = 0 then feedS x (i + 1) n 0 else feedS x (i + 1) n (crc32Bit c (x.getLsbD i))
theorem crc32Feed_eq {w : Nat} (x : BitVec w) (n : Nat) : ∀ (i : Nat) (c : BitVec 32), crc32Feed x i n c = feedS x i n c := by
  induction n with
  | zero => intro i c; rfl
  | succ n ih =>
    intro i c
    simp only [crc32Feed, feedS, ih]
    split <;> simp_all
theorem crcGood_eq (h : Header) (b : XlBundle) : crcGood h b =
    (decide (fld b.header 480 32 = (~~~(if h.svc then feedS b.header 0 480 0xFFFFFFFF#32
        else feedS b.dir 0 2048 (feedS b.header 0 480 0xFFFFFFFF#32))).toNat) &&
      decide (fld b.header 128 32 = (~~~(b.payload.foldl (fun c x => feedS x 0 512 c) 0xFFFFFFFF#32)).toNat)) := by
  simp only [crcGood, headerCrc, crc32Cells, crc32Feed_eq]
/-- A message of severity 1 of core 3, source 1, and one of severity 2 and 3; the same with a tag. -/
def fmsg (sev corr : Nat) : BitVec 128 := mkMsg (pageType (.gc 3)) (pageInst (.gc 3)) 1 sev corr 0 0x40 false
/-- Messages on their way to an enabled collector. -/
def withComing (l : List (BitVec 128)) (s : State := withRegs [(.fc, 8, 1)]) : State := withFc (fun f => { f with coming := l }) s

/-! ## Well-formedness: one ill-formed command for each check -/

theorem test_wf_register_write : WellFormed (.registerWrite (.bar0 5 1 true 0)) = false := by decide
theorem test_wf_byte_write : WellFormed (.registerWrite (.bar0 5 1 false 0)) = true := by decide
theorem test_wf_bar4_end : WellFormed (.registerWrite (.bar4 0xFFFFF [1, 2])) = false := by decide
theorem test_wf_bar4_empty : WellFormed (.registerWrite (.bar4 0 [])) = false := by decide
theorem test_wf_tt_bank_write : WellFormed (.ttBankWrite 3 0x8000 1) = false := by decide
theorem test_wf_tt_bank_unaligned : WellFormed (.ttBankWrite 3 2 1) = false := by decide
theorem test_wf_pair_read : WellFormed (.pairLoRead 0x6119 0xF) = false := by decide
theorem test_wf_pair_bytes : WellFormed (.pairLoRead 0x6118 0) = false := by decide
theorem test_wf_same_cycle : WellFormed (.bundleIssue 3 .none [(3, .none)]) = false := by decide
theorem test_wf_pair_write : WellFormed (.pairHiWrite 0x611E 1) = false := by decide
theorem test_wf_soft_reset : WellFormed (.softReset .dev) = false := by decide
theorem test_wf_arbitration : WellFormed (.xbArbitration 0 [⟨3, 17, .posted, false, 0, false⟩]) = false := by decide
theorem test_wf_bar2 : WellFormed (.bar2Write 1 0xFFFFFFFF [1, 2] false) = false := by decide
theorem test_wf_unsupported : WellFormed (.unsupportedRequest 0 1 true) = false := by decide
theorem test_wf_wrpart : WellFormed (.wrpart 3 line0 5 0 ⟨0, false, false⟩) = false := by decide
theorem test_wf_fill_way : WellFormed (.cacheFill (.cluster 2) line0 8 ⟨0, false, false⟩ .none) = false := by decide
theorem test_wf_granule : WellFormed (.mcRead 0 (BitVec.ofNat 34 (4608 * 2 ^ 21)) .clean) = false := by decide
theorem test_wf_partial_mask : WellFormed (.mcPartialWrite 0 1 0 0 .clean) = false := by decide
theorem test_wf_full_write : WellFormed (.mcFullWrite 0 (BitVec.ofNat 34 (4608 * 2 ^ 21)) 0 none) = false := by decide
theorem test_wf_rival : WellFormed (.mcFullWrite 0 1 0 (some (5, 0, true))) = false := by decide
theorem test_wf_scrub_write : WellFormed (.scrubRead 0 .clean (some (5, 0))) = false := by decide
theorem test_wf_memrd : WellFormed (.memrd 0x20 false) = false := by decide
theorem test_wf_memrddata : WellFormed (.memrddata 1) = false := by decide
theorem test_wf_meminv : WellFormed (.meminv 0x3F true) = false := by decide
theorem test_wf_memwr : WellFormed (.memwr 0x20 0 false) = false := by decide
theorem test_wf_memwrptl : WellFormed (.memwrptl 0x40 0 0 false) = false := by decide
theorem test_wf_link : WellFormed (.linkUp ⟨4, 3, true, true, true, false⟩) = false := by decide
theorem test_wf_link_flit : WellFormed (.linkUp ⟨16, 2, true, true, true, false⟩) = false := by decide
theorem test_wf_bundle : WellFormed (.bundleReceived 2 ⟨0, 0, List.replicate 2048 0, false, false⟩) = false := by decide +kernel
theorem test_wf_svc : WellFormed (.bundleClose 2 5 (some (0, 0))) = false := by decide
theorem test_wf_lane : WellFormed (.eqUpdate 2 4 0 0 0 false) = false := by decide
theorem test_wf_heat : WellFormed (.plWindowEnd [(4608, 1)] [0, 0, 0, 0, 0, 0, 0, 0]) = false := by decide
theorem test_wf_heat_twice : WellFormed (.plWindowEnd [(5, 1), (5, 2)] [0, 0, 0, 0, 0, 0, 0, 0]) = false := by decide
theorem test_wf_gp_reg : WellFormed (.gpReg 0x131 none) = false := by decide
theorem test_wf_dbg : WellFormed (.dbg 0x1000 none) = false := by decide
theorem test_wf_bypass : WellFormed (.bypass 0x20) = false := by decide
theorem test_wf_window : WellFormed (.debugWindowAccess 0x1FFFFFC none) = false := by decide
theorem test_wf_unit : WellFormed (.bistLocalisationDone [.hubBlock 7 0]) = false := by decide
theorem test_wf_freeze_cause : WellFormed (.release 2 (some 1)) = false := by decide

/-! ## Values the manual gives -/

/-- The check value of CRC-32 (IEEE 802.3): the digits 1 to 9 (the published value of the standard that 02 R34 and 13 R555 name). -/
theorem test_crc32 : crc32Bytes [0x31, 0x32, 0x33, 0x34, 0x35, 0x36, 0x37, 0x38, 0x39] = 0xCBF43926 := by decide +kernel
/-- The reset values of AL_PWR_LIM (11), EP_LINK_BUDGET (09), TD_HOLD_MAX (02), GP_IDCODE (13), and one of LW_MAPi (08: i). -/
theorem test_reset_al : preg State.reset .al 0x100 = 0x4E2 := by decide +kernel
theorem test_reset_ep : preg State.reset .ep 0x110 = 0x7D0 := by decide +kernel
theorem test_reset_lw : preg State.reset .lw 0x114 = 5 := by decide +kernel
/-- Rounding to the nearest, ties to even, once (05 R179): 1 + 2^-24 is 1, 1 + 2^-23 + 2^-24 is rounded up to an even last bit. -/
theorem test_fp32_tie : laneArith .add .fp32 false false 0 0x3F800000 0x33800000 0 = 0x3F800000 := by decide +kernel
theorem test_fp32_up : laneArith .add .fp32 false false 0 0x3F800001 0x33800000 0 = 0x3F800002 := by decide +kernel
/-- Minimum voltage of a typical part half way between codes 0 and 8, rounded up to 5 mV (11 R471): 650 mV and 690 mV give 670 mV. -/
theorem test_curve : minVolt State.reset 0 4 = 134 := by decide +kernel

/-! ## One step of a few families, from the manual's encodings -/

/-- A bundle with ADDI s1, s0, -2 in the S slot: OP 0x10, RD 1, RA 0, IMM30 0x3FFFFFFE (05 R174, R177). -/
theorem test_addi : ((outOf (exec (.bundleIssue 3 .none []) (withBundle (BitVec.ofNat 128 (0x10 + 1 * 2 ^ 8 + 0x3FFFFFFE * 2 ^ 18))))).map
    fun t => (t.core 3).sreg.get 1) = some 0xFFFFFFFFFFFFFFFE := by decide +kernel
/-- Writes to s0 are discarded (05 R172): LI s0, 5. -/
theorem test_s0 : ((outOf (exec (.bundleIssue 3 .none []) (withBundle (BitVec.ofNat 128 (0x18 + 5 * 2 ^ 16))))).map
    fun t => (t.core 3).sreg.get 0) = some 0 := by decide +kernel
/-- An undefined opcode raises ILLEGAL, cause 0x01 (05 R177): S-slot OP 0x0F. -/
theorem test_illegal : ((outOf (exec (.bundleIssue 3 .none []) (withBundle 0x0F))).map fun t => ((t.core 3).st, (t.core 3).exc)) = some (.halt, 1) := by
  decide +kernel
/-- A PROBE word is answered by an ECHO with its ID and the hold time (10 R419, R445). -/
theorem test_echo : ((outOf (exec (.probeWord 2 0x96 5) (withUp 2))).map fun t => t.out) = some [.ctrlWord 2 0x5097] := by decide +kernel
/-- The step of an empty queue is one tick: a tide in HUNT without a length counts on (02 R33; assumption 1). -/
theorem test_idle : (match step (withMode .hunt) with | .next t => some t.tide.phase | _ => none) = some 1 := by decide +kernel
/-- Voltage steps are 5 mV (11 R472): one unit. -/
theorem test_volt : ((outOf (exec (.voltageStepDone 2) (State.setPw State.reset 2 { powerReset with stepping := some true }))).map
    fun t => (t.pw 2).volt) = some 171 := by decide +kernel
/-- A failed CHECK is MSG_CORRUPT, FC source 0 (12 R507). -/
theorem test_corrupt : ((outOf (exec (.faultMessage 1 none []) (withComing [0xFF]))).map fun t => bit (preg t .fc 0x10) 0) = some true := by
  decide +kernel
/-- MB_SCRATCH takes a write at the address of open straps, 0x5F (14 R606, R607). -/
theorem test_scratch : ((outOf (exec (.mgtBusWrite 0x5F 0x28 9) State.reset)).map fun t => (t.mod.mbScratch, t.out)) = some (9, [.mgtAck true]) := by
  decide +kernel
/-- Every queue position counts: the front command runs, the rest stays. -/
theorem test_front : (match step { State.reset with pending := [.droop 2, .droop 3] } with
    | .next t => some (t.pending, (t.pw 2).stretch, (t.pw 3).stretch) | _ => none) = some ([.droop 3], 4, 0) := by decide +kernel

/-! ## The hypotheses of the statements are met -/

/-- Both hypotheses of StepTakesFront are met. -/
theorem witness_StepTakesFront :
    (∃ (s : State) (c : Instr) (rest : List Instr), s.pending = c :: rest) ∧ ∃ s : State, s.pending = [] :=
  ⟨⟨{ State.reset with pending := [.refOk] }, .refOk, [], rfl⟩, ⟨State.reset, rfl⟩⟩

/-- StepKeepsInv: its hypotheses are met. -/
theorem witness_StepKeepsInv : ∃ s t : State, Inv s ∧ step s = .next t :=
  ⟨State.reset, _, { regs := rfl, staged := rfl, captured := rfl, dm := rfl, poison := rfl, bar4 := rfl
                     queue := by decide, inq := by decide, report := by decide }, rfl⟩

/-- Lockout: its hypotheses are met. -/
theorem witness_Lockout : ∃ (c : Instr) (s t : State), exec c s = .next t ∧
    c ∉ [Instr.coldReset, Instr.inputUndervoltage, Instr.inputOvervoltage, Instr.inputReversed] ∧ s.gp.locked = true :=
  ⟨.nonceExpiry, withGp (fun g => { g with locked := true, fails := 8 }), _, rfl, by decide, rfl⟩

/-! ## A witness for each clause: a state and operands that meet all its hypotheses together -/

/-- A witness of TideFollows. -/
def wTideFollows1_frame : BitVec 128 := (setFld (BitVec.ofNat 128 (0x9AF3 + 0x3FFF * 2 ^ 64)) 96 32 (crc32Bits (BitVec.ofNat 128 (0x9AF3 + 0x3FFF * 2 ^ 64)) 96).toNat)
/-- A witness of TideFollows. -/
def wTideFollows2_s : State := withMode .locked (withRegs [(.td, 0x100, 2)])
/-- A witness of TideFollows. -/
def wTideFollows3_s : State := withPort 1 (fun p => { p with st := .up }) (withMode .locked (withRegs [(.td, 0x100, 4)]))
/-- A witness of TideFollows. -/
def wTideFollows3_word : BitVec 128 := BitVec.ofNat 128 (0x3FFF * 2 ^ 52)
/-- A witness of TideFollows. -/
def wTideFollows5_s : State := withMode .holdover (withRegs [(.td, 0x13C, 32), (.td, 0x100, 32)])
/-- A witness of TideFollows. -/
def wTideFollows6_s : State := withMode .holdover (withRegs [(.td, 0x13C, 33)])
/-- A witness of TideFollows. -/
def wTideFollows7_s : State := { State.reset with tide := { tideReset with refOk := true } }
/-- A witness of TideFollows. -/
def wTideFollows9_s : State := { State.reset with tide := { tideReset with mode := .hunt, adopted := true, len := 0x100000, step := 9 } }
/-- A witness of TideFollows. -/
def wTideFollows9_frame : BitVec 128 := (setFld (BitVec.ofNat 128 (0x9AF3 + 9 * 2 ^ 16 + 0x3FFF * 2 ^ 64)) 96 32 (crc32Bits (BitVec.ofNat 128 (0x9AF3 + 9 * 2 ^ 16 + 0x3FFF * 2 ^ 64)) 96).toNat)
/-- The tide follows frames and misses: its hypotheses are met. -/
theorem witness_TideFollows :
    (∃ (s : State) (frame : BitVec 128) (at64 : BitVec 32), s.tide.mode = .locked ∧ tdSrc s = 0 ∧ fld frame 0 16 = 0x9AF3 ∧ crc32Bits frame 96 = BitVec.ofNat 32 (fld frame 96 32) ∧ lenValid (frameInfo frame).len (frameInfo frame).grain4 = true ∧ (frameInfo frame).step = s.tide.step ∧ (wrapOff ((at64.toNat : Int) - tideDelay s) ((frameInfo frame).len * 64)).natAbs ≤ fld (preg s .td 0x140) 0 18) ∧
    (∃ (s : State), s.tide.mode ≠ .disabled ∧ tdSrc s ≠ 0) ∧
    (∃ (s : State) (port : Fin 8) (word : BitVec 128) (at64 : BitVec 32), s.tide.mode = .locked ∧ (s.port port).st = .up ∧ tdSrc s = port.val + 1 ∧ lenValid (tideWordInfo word).len (tideWordInfo word).grain4 = true ∧ (tideWordInfo word).step = s.tide.step ∧ (wrapOff ((at64.toNat : Int) - (fld word 83 32 : Int) - tideDelay s) ((tideWordInfo word).len * 64)).natAbs ≤ fld (preg s .td 0x140) 0 18) ∧
    (∃ (s : State), s.tide.mode = .locked ∧ s.tide.seen = false ∧ fld (preg s .td 0x138) 0 16 ≠ 0) ∧
    (∃ (s : State), s.tide.mode = .holdover ∧ fld (preg s .td 0x138) 0 16 ≤ fld (preg s .td 0x13C) 0 16 ∧ bit (preg s .td 0x100) 5 = true) ∧
    (∃ (s : State), s.tide.mode = .holdover ∧ fld (preg s .td 0x138) 0 16 ≤ fld (preg s .td 0x13C) 0 16 ∧ bit (preg s .td 0x100) 5 = false) ∧
    (∃ (s : State), s.tide.refOk = true) ∧
    (∃ (s : State) (frame : BitVec 128) (at64 : BitVec 32), s.tide.mode = .hunt ∧ s.tide.adopted = true ∧ tdSrc s = 0 ∧ fld frame 0 16 = 0x9AF3 ∧ crc32Bits frame 96 = BitVec.ofNat 32 (fld frame 96 32) ∧ lenValid (frameInfo frame).len (frameInfo frame).grain4 = true ∧ (frameInfo frame).step = s.tide.step ∧ (wrapOff ((at64.toNat : Int) - tideDelay s) ((frameInfo frame).len * 64)).natAbs ≤ fld (preg s .td 0x140) 0 18) :=
  ⟨⟨withMode .locked, wTideFollows1_frame, 3, by decide +kernel⟩,
   ⟨wTideFollows2_s, by decide +kernel⟩,
   ⟨wTideFollows3_s, 1, wTideFollows3_word, 5, by decide +kernel⟩,
   ⟨withMode .locked, by decide +kernel⟩,
   ⟨wTideFollows5_s, by decide +kernel⟩,
   ⟨wTideFollows6_s, by decide +kernel⟩,
   ⟨wTideFollows7_s, by decide +kernel⟩,
   ⟨wTideFollows9_s, wTideFollows9_frame, 3, by decide +kernel⟩⟩

/-- A witness of TideControl. -/
def wTideControl3_s : State := withMode .hunt (withRegs [(.td, 8, 1)])
/-- A witness of TideControl. -/
def wTideControl6_s : State := { State.reset with tide := { tideReset with mode := .locked, halt := true } }
/-- A witness of TideControl. -/
def wTideControl11_s : State := { State.reset with tide := { tideReset with mode := .master, adopted := true, step := 7 } }
/-- Writes of the TD page that start, stop, hunt, resume and set lengths and windows: its hypotheses are met. -/
theorem witness_TideControl :
    (∃ (s : State) (v : W32), Unlocked s .td ∧ enabled s .td = false ∧ tdMaster s = false ∧ bit v 0 = true) ∧
    (∃ (s : State) (v : W32), Unlocked s .td ∧ enabled s .td = false ∧ tdMaster s = true ∧ lenOk (fld (preg s .td 0x124) 0 27) = true ∧ bit v 0 = true) ∧
    (∃ (s : State) (v : W32), Unlocked s .td ∧ enabled s .td = true ∧ bit v 0 = false) ∧
    (∃ (s : State) (v : W32), Starts s .td 0x100 8 v ∧ bit v 9 = false ∧ s.tide.mode ≠ .disabled ∧ s.tide.mode ≠ .master) ∧
    (∃ (s : State) (v : W32), Starts s .td 0x100 8 v ∧ bit v 9 = false ∧ s.tide.mode = .master) ∧
    (∃ (s : State) (v : W32), Starts s .td 0x100 9 v ∧ bit v 8 = false ∧ haltPending s = true) ∧
    (∃ (s : State) (v : W32), Starts s .td 0x100 9 v ∧ bit v 8 = false ∧ haltPending s = false) ∧
    (∃ (s : State) (v : W32), Unlocked s .td ∧ lenOk (fld v 0 27) = true) ∧
    (∃ (s : State) (v : W32), Unlocked s .td ∧ lenOk (fld v 0 27) = false) ∧
    (∃ (s : State), Unlocked s .td) ∧
    (∃ (s : State) (v : W32), Unlocked s .td ∧ s.tide.mode = .master ∧ s.tide.adopted = true ∧ (sget (fun _ => 0) s.staged (pageBase .td + 0x128)).toNat + 2 ^ 32 * v.toNat ≤ s.tide.step.toNat) ∧
    (∃ (s : State) (v : W32), Unlocked s .td ∧ 64 ≤ fld v 0 18 ∧ (s.tide.len.toNat = 0 ∨ fld v 0 18 ≤ 64 * s.tide.len.toNat)) ∧
    (∃ (s : State) (v : W32), Unlocked s .td ∧ fld v 0 18 < 64) :=
  ⟨⟨State.reset, 1, by decide +kernel⟩,
   ⟨withRegs [(.td, 0x100, 1)], 1, by decide +kernel⟩,
   ⟨wTideControl3_s, 0, by decide +kernel⟩,
   ⟨withMode .locked, 0x100, by decide +kernel⟩,
   ⟨withMode .master, 0x100, by decide +kernel⟩,
   ⟨wTideControl6_s, 0x200, by decide +kernel⟩,
   ⟨State.reset, 0x200, by decide +kernel⟩,
   ⟨State.reset, 0x90000, by decide +kernel⟩,
   ⟨State.reset, 5, by decide +kernel⟩,
   ⟨State.reset, by decide +kernel⟩,
   ⟨wTideControl11_s, 0, by decide +kernel⟩,
   ⟨State.reset, 0x400, by decide +kernel⟩,
   ⟨State.reset, 63, by decide +kernel⟩⟩

/-- A witness of StepBegins. -/
def wStepBegins1_s : State := { State.reset with tide := { tideReset with mode := .locked, begun := true, len := 0x100000, phase := 0xFFFFF, step := 9 } }
/-- A witness of StepBegins. -/
def wStepBegins4_s : State := { State.reset with tide := { tideReset with mode := .locked, len := 0x100000, phase := 0xFFFFF, step := 9, corr := 192 } }
/-- The boundary begins the next step: it comes when the phases of the step are over, moved by the whole ticks of the correction, and the fraction moves the tick edge (02 R40): its hypotheses are met. -/
theorem witness_StepBegins :
    (∃ (s : State), boundaryDue s.tide = true ∧ s.tide.mode = .locked ∧ s.tide.missed = false ∧ s.tide.begun = true) ∧
    (∃ (s : State), s.tide.mode = .master ∧ s.tide.adopted = false) ∧
    (∃ (s : State), boundaryDue s.tide = true ∧ s.tide.mode = .locked ∧ s.tide.missed = false ∧ s.tide.begun = true) ∧
    (∃ (s : State), boundaryDue s.tide = false) :=
  ⟨⟨wStepBegins1_s, by decide +kernel⟩,
   ⟨withMode .master, by decide +kernel⟩,
   ⟨wStepBegins1_s, by decide +kernel⟩,
   ⟨wStepBegins4_s, by decide +kernel⟩⟩

/-- A witness of TimetableActions. -/
def wTimetableActions1_p : Pick := ⟨false, 0, ttEntry (withEntry 0 0 .run) 3 false 0, false, false, false⟩
/-- A witness of TimetableActions. -/
def wTimetableActions2_p : Pick := ⟨false, 0, ttEntry (withEntry 0x1000000 9 .run) 3 false 0, false, false, false⟩
/-- A witness of TimetableActions. -/
def wTimetableActions3_s : State := withEntry 0x2000000 0x45 .parked
/-- A witness of TimetableActions. -/
def wTimetableActions3_p : Pick := ⟨false, 0, ttEntry (withEntry 0x2000000 0x45 .parked) 3 false 0, false, false, false⟩
/-- A witness of TimetableActions. -/
def wTimetableActions4_p : Pick := ⟨false, 0, ttEntry (withEntry 0x2000000 0x45 .run) 3 false 0, false, false, false⟩
/-- A witness of TimetableActions. -/
def wTimetableActions5_s : State := withSend (withEntry 0x3000000 0x40)
/-- A witness of TimetableActions. -/
def wTimetableActions5_p : Pick := ⟨false, 0, ttEntry (withEntry 0x3000000 0x40) 3 false 0, false, false, false⟩
/-- A witness of TimetableActions. -/
def wTimetableActions6_s : State := withFare 3 2 (withSend (withEntry 0x3000000 0x40))
/-- A witness of TimetableActions. -/
def wTimetableActions6_d : MsgDesc := readDesc ((withSend (withEntry 0x3000000 0x40)).core 3) 0x40
/-- A witness of TimetableActions. -/
def wTimetableActions7_s : State := withEntry 0x5000000 0x30002 .run
/-- A witness of TimetableActions. -/
def wTimetableActions7_p : Pick := ⟨false, 0, ttEntry (withEntry 0x5000000 0x30002 .run) 3 false 0, false, false, false⟩
/-- A witness of TimetableActions. -/
def wTimetableActions8_s : State := withEntry 0x6000000 0x30002 .run
/-- A witness of TimetableActions. -/
def wTimetableActions8_p : Pick := ⟨false, 0, ttEntry (withEntry 0x6000000 0x30002 .run) 3 false 0, false, false, false⟩
/-- A witness of TimetableActions. -/
def wTimetableActions9_s : State := withEntry 0x6000000 0x30000 .run
/-- A witness of TimetableActions. -/
def wTimetableActions9_p : Pick := ⟨false, 0, ttEntry (withEntry 0x6000000 0x30000 .run) 3 false 0, false, false, false⟩
/-- A witness of TimetableActions. -/
def wTimetableActions10_p : Pick := ⟨false, 0, ttEntry (withEntry 0x8000000 0 .run) 3 false 0, false, false, false⟩
/-- A witness of TimetableActions. -/
def wTimetableActions11_p : Pick := ⟨false, 0, ttEntry (withEntry 0x9000000 0 .run) 3 false 0, false, false, false⟩
/-- A witness of TimetableActions. -/
def wTimetableActions12_p : Pick := ⟨false, 0, ttEntry (withEntry 0xA000000 0 .run) 3 false 0, false, false, false⟩
/-- A witness of TimetableActions. -/
def wTimetableActions13_p : Pick := ⟨false, 0, ttEntry (withEntry 0xB000000 5 .run) 3 false 0, false, false, false⟩
/-- A witness of TimetableActions. -/
def wTimetableActions14_p : Pick := ⟨false, 0, ttEntry (withEntry 0x7000000 0 .run) 3 false 0, false, false, false⟩
/-- A witness of TimetableActions. -/
def wTimetableActions16_s : State := { withCore 3 (fun c => { c with berths := c.berths.set 1 { berthReset with st := .full, tick := some (9, 0) } }) (withEntry 0x5000000 0x30002 .run) with tide := { tideReset with mode := .locked, dispatching := true, len := 0x100000, step := 9 } }
/-- A dispatched timetable entry takes a place and does its action: its hypotheses are met. -/
theorem witness_TimetableActions :
    (∃ (s : State) (core : Fin 256) (idx : Fin 512) (p : Pick), nextEntry s core = some p ∧ p.idx = idx.val ∧ mayGo s core p = true ∧ eAct p.e = 0x00 ∧ p.carried = false) ∧
    (∃ (s : State) (core : Fin 256) (idx : Fin 512) (p : Pick), nextEntry s core = some p ∧ p.idx = idx.val ∧ mayGo s core p = true ∧ eAct p.e = 0x01 ∧ (s.core core).st = .run ∧ (s.core core).waits = [] ∧ p.carried = false) ∧
    (∃ (s : State) (core : Fin 256) (idx : Fin 512) (p : Pick), nextEntry s core = some p ∧ p.idx = idx.val ∧ mayGo s core p = true ∧ eAct p.e = 0x02 ∧ stopped s = false ∧ (s.core core).st = .parked) ∧
    (∃ (s : State) (core : Fin 256) (idx : Fin 512) (p : Pick), nextEntry s core = some p ∧ p.idx = idx.val ∧ mayGo s core p = true ∧ eAct p.e = 0x02 ∧ (s.core core).st = .run) ∧
    (∃ (s : State) (core : Fin 256) (idx : Fin 512) (upset : Upset) (p : Pick), nextEntry s core = some p ∧ p.idx = idx.val ∧ mayGo s core p = true ∧ eAct p.e = 0x03 ∧ upset ≠ .uncorrectable ∧ (s.core core).st = .run ∧ eArg p.e % 2 ^ 20 % 16 = 0 ∧ eArg p.e % 2 ^ 20 + 16 ≤ ldmSize ∧ sendCheck s core (readDesc (s.core core) (eArg p.e % 2 ^ 20)) = 0 ∧ canSend s core (readDesc (s.core core) (eArg p.e % 2 ^ 20)) = false) ∧
    (∃ (s : State) (core : Fin 256) (idx : Fin 512) (upset : Upset) (payload : Upset) (p : Pick) (d : MsgDesc), nextEntry s core = some p ∧ p.idx = idx.val ∧ mayGo s core p = true ∧ eAct p.e = 0x03 ∧ upset ≠ .uncorrectable ∧ payload ≠ .uncorrectable ∧ (s.core core).st = .run ∧ eArg p.e % 2 ^ 20 % 16 = 0 ∧ eArg p.e % 2 ^ 20 + 16 ≤ ldmSize ∧ d = readDesc (s.core core) (eArg p.e % 2 ^ 20) ∧ sendCheck s core d = 0 ∧ canSend s core d = true ∧ (s.core core).tt.sendQ = [] ∧ (chanDest (chanCfg s core d.chan)).toNat / 256 = fleetId s) ∧
    (∃ (s : State) (core : Fin 256) (idx : Fin 512) (p : Pick), nextEntry s core = some p ∧ p.idx = idx.val ∧ mayGo s core p = true ∧ eAct p.e = 0x05 ∧ (s.core core).st = .run ∧ BitVec.ofNat 16 (eArg p.e) &&& ~~~(fullBefore s core) ≠ 0 ∧ (s.core core).waits = []) ∧
    (∃ (s : State) (core : Fin 256) (idx : Fin 512) (p : Pick), nextEntry s core = some p ∧ p.idx = idx.val ∧ mayGo s core p = true ∧ eAct p.e = 0x06 ∧ (s.core core).st = .run ∧ (markAsOf s core).toNat < eArg p.e % 2 ^ 16 ∧ (s.core core).waits = []) ∧
    (∃ (s : State) (core : Fin 256) (idx : Fin 512) (p : Pick), nextEntry s core = some p ∧ p.idx = idx.val ∧ mayGo s core p = true ∧ eAct p.e = 0x06 ∧ (s.core core).st = .run ∧ eArg p.e % 2 ^ 16 ≤ (markAsOf s core).toNat) ∧
    (∃ (s : State) (core : Fin 256) (idx : Fin 512) (p : Pick), nextEntry s core = some p ∧ p.idx = idx.val ∧ mayGo s core p = true ∧ eAct p.e = 0x08 ∧ (s.core core).st = .run) ∧
    (∃ (s : State) (core : Fin 256) (idx : Fin 512) (p : Pick), nextEntry s core = some p ∧ p.idx = idx.val ∧ mayGo s core p = true ∧ eAct p.e = 0x09 ∧ (s.core core).st = .run) ∧
    (∃ (s : State) (core : Fin 256) (idx : Fin 512) (p : Pick), nextEntry s core = some p ∧ p.idx = idx.val ∧ mayGo s core p = true ∧ eAct p.e = 0x0A ∧ (s.core core).st = .run) ∧
    (∃ (s : State) (core : Fin 256) (idx : Fin 512) (p : Pick), nextEntry s core = some p ∧ p.idx = idx.val ∧ mayGo s core p = true ∧ eAct p.e = 0x0B ∧ (s.core core).st = .run) ∧
    (∃ (s : State) (core : Fin 256) (idx : Fin 512) (p : Pick), nextEntry s core = some p ∧ p.idx = idx.val ∧ actKnown (eAct p.e) = false) ∧
    (∃ (s : State) (core : Fin 256) (idx : Fin 512) (upset : Upset) (p : Pick), nextEntry s core = some p ∧ p.idx = idx.val ∧ mayGo s core p = true ∧ eAct p.e = 0x03 ∧ upset = .uncorrectable ∧ (s.core core).st = .run ∧ eArg p.e % 2 ^ 20 % 16 = 0 ∧ eArg p.e % 2 ^ 20 + 16 ≤ ldmSize) ∧
    (∃ (s : State) (core : Fin 256) (idx : Fin 512) (p : Pick) (b : Fin 16), nextEntry s core = some p ∧ p.idx = idx.val ∧ mayGo s core p = true ∧ eAct p.e = 0x05 ∧ (s.core core).st = .run ∧ (s.core core).waits = [] ∧ bit (BitVec.ofNat 16 (eArg p.e)) b.val = true ∧ s.tide.mode ≠ .disabled ∧ ((s.core core).berths.get b).tick = some (s.tide.step, s.tide.phase)) :=
  ⟨⟨withEntry 0 0 .run, 3, 0, wTimetableActions1_p, by decide +kernel⟩,
   ⟨withEntry 0x1000000 9 .run, 3, 0, wTimetableActions2_p, by decide +kernel⟩,
   ⟨wTimetableActions3_s, 3, 0, wTimetableActions3_p, by decide +kernel⟩,
   ⟨withEntry 0x2000000 0x45 .run, 3, 0, wTimetableActions4_p, by decide +kernel⟩,
   ⟨wTimetableActions5_s, 3, 0, .corrected, wTimetableActions5_p, by decide +kernel⟩,
   ⟨wTimetableActions6_s, 3, 0, .corrected, .none, wTimetableActions5_p, wTimetableActions6_d, by decide +kernel⟩,
   ⟨wTimetableActions7_s, 3, 0, wTimetableActions7_p, by decide +kernel⟩,
   ⟨wTimetableActions8_s, 3, 0, wTimetableActions8_p, by decide +kernel⟩,
   ⟨wTimetableActions9_s, 3, 0, wTimetableActions9_p, by decide +kernel⟩,
   ⟨withEntry 0x8000000 0 .run, 3, 0, wTimetableActions10_p, by decide +kernel⟩,
   ⟨withEntry 0x9000000 0 .run, 3, 0, wTimetableActions11_p, by decide +kernel⟩,
   ⟨withEntry 0xA000000 0 .run, 3, 0, wTimetableActions12_p, by decide +kernel⟩,
   ⟨withEntry 0xB000000 5 .run, 3, 0, wTimetableActions13_p, by decide +kernel⟩,
   ⟨withEntry 0x7000000 0 .run, 3, 0, wTimetableActions14_p, by decide +kernel⟩,
   ⟨wTimetableActions5_s, 3, 0, .uncorrectable, wTimetableActions5_p, by decide +kernel⟩,
   ⟨wTimetableActions16_s, 3, 0, wTimetableActions7_p, 1, by decide +kernel⟩⟩

/-- A witness of TimetableManifests. -/
def wTimetableManifests1_p : Pick := ⟨false, 0, ttEntry (withEntry 0x4000000 0 .run) 3 false 0, false, false, false⟩
/-- A witness of TimetableManifests. -/
def wTimetableManifests4_s : State := setTtReg State.reset 3 0x8000 1
/-- MANIFEST entries, and the timetable window: its hypotheses are met. -/
theorem witness_TimetableManifests :
    (∃ (s : State) (core : Fin 256) (idx : Fin 512) (p : Pick), nextEntry s core = some p ∧ p.idx = idx.val ∧ mayGo s core p = true ∧ eAct p.e = 0x04 ∧ (s.core core).st = .run ∧ bit (preg s (.cl (clusterOf core)) 0x200) 0 = false) ∧
    (∃ (s : State) (core : Fin 256) (v : W32), bit v 2 = true ∧ bit v 0 = ttEn s core) ∧
    (∃ (s : State) (core : Fin 256) (v : W32), bit v 0 = true ∧ ttEn s core = false ∧ bit v 2 = false) ∧
    (∃ (s : State) (core : Fin 256) (off : BitVec 16), off.toNat < 0x4000 ∧ off.toNat % 4 = 0 ∧ ttEn s core = true ∧ (s.core core).tt.bank = decide (0x2000 ≤ off.toNat)) ∧
    (∃ (s : State) (core : Fin 256) (off : BitVec 16), off.toNat < 0x4000 ∧ off.toNat % 4 = 0 ∧ (ttEn s core = false ∨ (s.core core).tt.bank = decide (off.toNat < 0x2000))) :=
  ⟨⟨withEntry 0x4000000 0 .run, 3, 0, wTimetableManifests1_p, by decide +kernel⟩,
   ⟨State.reset, 3, 4, by decide +kernel⟩,
   ⟨State.reset, 3, 1, by decide +kernel⟩,
   ⟨wTimetableManifests4_s, 3, 0x14, by decide +kernel⟩,
   ⟨State.reset, 3, 0x2014, by decide +kernel⟩⟩

/-- A witness of RegisterWrites. -/
def wRegisterWrites7_s : State := { State.reset with cxl := { cxlReset with link := .l0 } }
/-- Register writes act by the access codes, pairs commit both halves, unmapped space is recorded: its hypotheses are met. -/
theorem witness_RegisterWrites :
    (∃ (s : State) (p : Page), servedPage s (pageBase p + 0x34) = some p ∧ Unlocked s p) ∧
    (∃ (s : State) (p : Page), servedPage s (pageBase p + 0x10) = some p) ∧
    (∃ (s : State) (p : Page), servedPage s (pageBase p + 0x10) = some p ∧ Unlocked s p) ∧
    (∃ (s : State) (p : Page), servedPage s (pageBase p + 0x34) = some p ∧ bit (preg s p 0x44) 0 = true) ∧
    (∃ (s : State) (p : Page), servedPage s (pageBase p + 0x34) = some p ∧ bit (preg s p 0x44) 0 = true) ∧
    (∃ (s : State) (p : Page), servedPage s (pageBase p + 0x48) = some p ∧ Unlocked s p) ∧
    (∃ (s : State), s.cxl.link ≠ .down ∧ s.cxl.flr = false) ∧
    (∃ (off : BitVec 20) (bytes : List Byte), off.toNat % 128 + bytes.length ≤ 120) ∧
    (∃ (s : State) (off : BitVec 26), unmapped s off.toNat = true) ∧
    (∃ (s : State) (off : BitVec 26), unmapped s off.toNat = true) ∧
    (∃ (s : State) (off : BitVec 26), isLoPair s off.toNat = true ∧ off.toNat ≠ pageBase .td + 0x110) ∧
    (∃ (s : State), isLoPair s (pageBase .td + 0x110) = true) ∧
    (∃ (s : State), servedPage s (pageBase .ml + 0x114) = some .ml ∧ Unlocked s .ml ∧ enabled s .ml = false) ∧
    (∃ (s : State) (v : W32), servedPage s (pageBase .ml + 0x114) = some .ml ∧ Unlocked s .ml ∧ enabled s .ml = true ∧ preg s .ml 0x114 ≠ v) :=
  ⟨⟨State.reset, .al, by decide +kernel⟩,
   ⟨withRegs [(.al, 0x10, 7)], .al, by decide +kernel⟩,
   ⟨withRegs [(.al, 0x10, 7)], .al, by decide +kernel⟩,
   ⟨withRegs [(.al, 0x44, 1)], .al, by decide +kernel⟩,
   ⟨withRegs [(.al, 0x44, 1)], .al, by decide +kernel⟩,
   ⟨State.reset, .al, by decide +kernel⟩,
   ⟨wRegisterWrites7_s, by decide +kernel⟩,
   ⟨130, [1, 2, 0], by decide +kernel⟩,
   ⟨State.reset, 0xF004, by decide +kernel⟩,
   ⟨State.reset, 0xF004, by decide +kernel⟩,
   ⟨State.reset, 0x6118, by decide +kernel⟩,
   ⟨State.reset, by decide +kernel⟩,
   ⟨State.reset, by decide +kernel⟩,
   ⟨withRegs [(.ml, 8, 1)], 7, by decide +kernel⟩⟩

/-- A witness of SoftReset. -/
def wSoftReset1_s : State := withRegs [(.xb, 8, 1), (.xb, 0x10, 3), (.xb, 0x100, 4)]
/-- A witness of SoftReset. -/
def wSoftReset2_s : State := withRegs [(.sd, 8, 1), (.sd, 0x10, 3), (.sd, 0x110, 4)]
/-- A witness of SoftReset. -/
def wSoftReset4_s : State := withRegs [(.ml, 8, 1), (.ml, 0x10, 3)]
/-- A soft reset of a block that has no cache ends with its page cleared and disabled: its hypotheses are met. -/
theorem witness_SoftReset :
    (∃ (s : State) (page : Page), Unlocked s page ∧ bit (preg s page 8) 2 = false ∧ pageCache page = none ∧ classOf page ∉ [.dev, .fc, .gp, .lw, .ep, .ml, .sd, .mc]) ∧
    (∃ (s : State), Unlocked s .sd ∧ bit (preg s .sd 8) 2 = false) ∧
    (∃ (s : State) (n : Fin 16), Unlocked s (.dc n) ∧ bit (preg s (.dc n) 8) 2 = false ∧ (s.slice n).clearing = none) ∧
    (∃ (s : State) (page : Page), Unlocked s page ∧ bit (preg s page 8) 2 = false ∧ pageCache page = none) :=
  ⟨⟨wSoftReset1_s, .xb, by decide +kernel⟩,
   ⟨wSoftReset2_s, by decide +kernel⟩,
   ⟨State.reset, 4, by decide +kernel⟩,
   ⟨wSoftReset4_s, .ml, by decide +kernel⟩⟩

/-- A soft reset of a locked page is discarded: its hypotheses are met. -/
theorem witness_LockedSoftReset :
    (∃ (s : State) (page : Page), bit (preg s page 0x44) 0 = true) :=
  ⟨withRegs [(.xb, 0x44, 1)], .xb, by decide +kernel⟩

/-- A witness of LocksAndFences. -/
def wLocksAndFences6_s : State := withCore 3 (fun c => { c with st := .fenced }) (withRegs [(.gc 3, 8, 2)])
/-- A witness of LocksAndFences. -/
def wLocksAndFences7_s : State := withCore 3 (fun c => { c with st := .fenced }) (withRegs [(.gc 3, 8, 3)])
/-- PAGE_LOCK locks a page; CTRL.FENCE fences a unit and releases it: its hypotheses are met. -/
theorem witness_LocksAndFences :
    (∃ (s : State) (page : Page), Unlocked s page) ∧
    (∃ (s : State) (page : Page), bit (preg s page 0x44) 0 = true) ∧
    (∃ (s : State) (n : Fin 16), Unlocked s (.dc n) ∧ fenced s (.dc n) = false) ∧
    (∃ (s : State) (n : Fin 16), Unlocked s (.dc n) ∧ s.boot.stuck.contains (.dc n) = false) ∧
    (∃ (s : State) (core : Fin 256), Unlocked s (.gc core) ∧ fenced s (.gc core) = false ∧ (s.core core).st ≠ .fenced) ∧
    (∃ (s : State) (core : Fin 256), Unlocked s (.gc core) ∧ fenced s (.gc core) = true ∧ (s.core core).st = .fenced ∧ enabled s (.gc core) = false ∧ s.boot.stuck.contains (.gc core) = false) ∧
    (∃ (s : State) (core : Fin 256), Unlocked s (.gc core) ∧ fenced s (.gc core) = true ∧ (s.core core).st = .fenced ∧ enabled s (.gc core) = true ∧ s.boot.stuck.contains (.gc core) = false) :=
  ⟨⟨State.reset, .xb, by decide +kernel⟩,
   ⟨withRegs [(.xb, 0x44, 1)], .xb, by decide +kernel⟩,
   ⟨State.reset, 4, by decide +kernel⟩,
   ⟨withRegs [(.dc 4, 8, 2)], 4, by decide +kernel⟩,
   ⟨withRegs [(.gc 3, 8, 1)], 3, by decide +kernel⟩,
   ⟨wLocksAndFences6_s, 3, by decide +kernel⟩,
   ⟨wLocksAndFences7_s, 3, by decide +kernel⟩⟩

/-- A witness of CoreStates. -/
def wCoreStates2_s : State := withBundle 0 (withRegs [(.gc 3, 8, 1)])
/-- A witness of CoreStates. -/
def wCoreStates8_s : State := withCore 3 (fun c => { c with st := .run, parking := true }) (withRegs [(.gc 3, 0x110, 0x20000)])
/-- A witness of CoreStates. -/
def wCoreStates10_s : State := withCore 5 (fun c => { c with st := .wait, cause := 4, waits := [.event 7 0x200], events := 1 })
/-- Cores are enabled, started, parked and kicked: its hypotheses are met. -/
theorem witness_CoreStates :
    (∃ (s : State) (core : Fin 256) (v : W32), Unlocked s (.gc core) ∧ bit v 0 = true ∧ bit v 1 = false ∧ fenced s (.gc core) = false ∧ bit v 2 = false ∧ (s.core core).st = .reset) ∧
    (∃ (s : State) (core : Fin 256) (v : W32), Unlocked s (.gc core) ∧ bit v 0 = false ∧ bit v 1 = fenced s (.gc core) ∧ bit v 2 = false ∧ enabled s (.gc core) = true ∧ (s.core core).st ≠ .fenced) ∧
    (∃ (s : State) (core : Fin 256) (v : W32), Starts s (.gc core) 0x110 16 v ∧ bit v 17 = false ∧ stopped s = false ∧ (s.core core).st = .parked) ∧
    (∃ (s : State) (core : Fin 256) (v : W32), Starts s (.gc core) 0x110 16 v ∧ bit v 17 = false ∧ stopped s = false ∧ (s.core core).st = .halt) ∧
    (∃ (s : State) (core : Fin 256) (v : W32), Starts s (.gc core) 0x110 17 v ∧ bit v 16 = false ∧ ((s.core core).st = .run ∨ (s.core core).st = .halt)) ∧
    (∃ (s : State) (core : Fin 256) (v : W32), Starts s (.gc core) 0x110 17 v ∧ bit v 16 = false ∧ (s.core core).st = .wait) ∧
    (∃ (s : State) (core : Fin 256) (v : W32), Starts s (.gc core) 0x110 17 v ∧ bit v 16 = false ∧ (s.core core).st = .parked) ∧
    (∃ (s : State) (core : Fin 256), (s.core core).parkReady = true ∧ clockStopped s core = false) ∧
    (∃ (s : State) (core : Fin 256) (v : W32), Starts s (.gc core) 0x114 8 v ∧ (s.core core).waits = []) ∧
    (∃ (s : State) (core : Fin 256) (v : W32) (rd : BitVec 5) (m : W32), Starts s (.gc core) 0x114 8 v ∧ (s.core core).waits = [.event rd m] ∧ (s.core core).st = .wait ∧ stopped s = false ∧ (s.core core).events &&& m = 0 ∧ one32 (fld v 0 5) &&& m ≠ 0 ∧ rd ≠ 0) :=
  ⟨⟨withRegs [(.sd, 0x100, 0x20)], 4, 1, by decide +kernel⟩,
   ⟨wCoreStates2_s, 3, 0, by decide +kernel⟩,
   ⟨withSt .parked, 5, 0x10040, by decide +kernel⟩,
   ⟨withSt .halt, 5, 0x10040, by decide +kernel⟩,
   ⟨withSt .run, 5, 0x20000, by decide +kernel⟩,
   ⟨withSt .wait, 5, 0x20000, by decide +kernel⟩,
   ⟨withSt .parked, 5, 0x20000, by decide +kernel⟩,
   ⟨wCoreStates8_s, 3, by decide +kernel⟩,
   ⟨withSt .parked, 5, 0x109, by decide +kernel⟩,
   ⟨wCoreStates10_s, 5, 0x109, 7, 0x200, by decide +kernel⟩⟩

/-- A witness of StartIgnored. -/
def wStartIgnored2_s : State := withSt .run (withRegs [(.gc 5, 0x110, 0x10000)])
/-- GC_START.START of a core in RUN or WAIT is ignored: its hypotheses are met. -/
theorem witness_StartIgnored :
    (∃ (s : State) (core : Fin 256) (v : W32), Starts s (.gc core) 0x110 16 v ∧ bit v 17 = false ∧ ((s.core core).st = .run ∨ (s.core core).st = .wait)) ∧
    (∃ (s : State) (core : Fin 256) (v : W32), Unlocked s (.gc core) ∧ bit (preg s (.gc core) 0x110) 16 = true ∧ bit v 16 = true ∧ bit v 17 = false ∧ ((s.core core).st = .run ∨ (s.core core).st = .wait)) :=
  ⟨⟨withSt .run, 5, 0x10040, by decide +kernel⟩,
   ⟨wStartIgnored2_s, 5, 0x10040, by decide +kernel⟩⟩

/-- A witness of MessagesAndFares. -/
def wMessagesAndFares2_s : State := withMesh msg0 (withCore 5 (fun c => { c with st := .wait, cause := 1, waits := [.recv 8 4] }))
/-- A witness of MessagesAndFares. -/
def wMessagesAndFares4_s : State := withSend { State.reset with fares := [⟨3, 1, 0⟩] }
/-- A witness of MessagesAndFares. -/
def wMessagesAndFares5_s : State := withSend { State.reset with fares := [⟨3, 1, 4⟩] }
/-- A witness of MessagesAndFares. -/
def wMessagesAndFares7_s : State := withMesh { msg0 with filling := true } (withCore 5 (fun c => { c with st := .run, berths := c.berths.set 2 { berthReset with st := .filling } }))
/-- Messages and fares arrive at cores: its hypotheses are met. -/
theorem witness_MessagesAndFares :
    (∃ (s : State) (i : Nat) (m : MeshMsg), s.mesh[i]? = some m ∧ stopped s = false ∧ ((s.mesh.take i).any fun x => decide (x.src = m.src) && decide (x.chan = m.chan)) = false ∧ (s.core m.dst).st ≠ .reset ∧ (s.core m.dst).st ≠ .fenced ∧ (m.filling = true ∨ ((s.core m.dst).berths.get m.berth).st = .empty) ∧ (s.core m.dst).waits = [] ∧ m.lateEvt = none) ∧
    (∃ (s : State) (i : Nat) (m : MeshMsg) (rd : BitVec 5) (k : W16), s.mesh[i]? = some m ∧ stopped s = false ∧ ((s.mesh.take i).any fun x => decide (x.src = m.src) && decide (x.chan = m.chan)) = false ∧ (s.core m.dst).st = .wait ∧ (m.filling = true ∨ ((s.core m.dst).berths.get m.berth).st = .empty) ∧ (s.core m.dst).waits = [.recv rd k] ∧ bit k m.berth.val = true ∧ (s.core m.dst).fullMask &&& k = 0 ∧ rd ≠ 0) ∧
    (∃ (s : State) (i : Nat) (m : MeshMsg), s.mesh[i]? = some m ∧ stopped s = false ∧ m.filling = false ∧ ((s.mesh.take i).any fun x => decide (x.src = m.src) && decide (x.chan = m.chan)) = false) ∧
    (∃ (s : State) (i : Nat) (m : FareMsg) (id : Fin 256), s.fares[i]? = some m ∧ stopped s = false ∧ id = fin 256 m.dst.toNat ∧ m.epoch = (s.core id).epoch ∧ chanValid (chanCfg s id m.chan) = true ∧ (s.core id).waits = [] ∧ (s.core id).tt.sendQ = []) ∧
    (∃ (s : State) (i : Nat) (m : FareMsg) (id : Fin 256), s.fares[i]? = some m ∧ stopped s = false ∧ id = fin 256 m.dst.toNat ∧ (m.epoch ≠ (s.core id).epoch ∨ chanValid (chanCfg s id m.chan) = false)) ∧
    (∃ (s : State) (i : Nat) (m : MeshMsg), s.mesh[i]? = some m ∧ stopped s = false ∧ ((s.mesh.take i).any fun x => decide (x.src = m.src) && decide (x.chan = m.chan)) = false ∧ m.filling = false ∧ (s.core m.dst).st ≠ .reset ∧ (s.core m.dst).st ≠ .fenced ∧ ((s.core m.dst).berths.get m.berth).st = .empty) ∧
    (∃ (s : State) (i : Nat) (m : MeshMsg), s.mesh[i]? = some m ∧ stopped s = false ∧ ((s.mesh.take i).any fun x => decide (x.src = m.src) && decide (x.chan = m.chan)) = false ∧ m.filling = true ∧ ((s.core m.dst).berths.get m.berth).st = .filling) :=
  ⟨⟨withMesh msg0 (withSt .parked), 0, msg0, by decide +kernel⟩,
   ⟨wMessagesAndFares2_s, 0, msg0, 8, 4, by decide +kernel⟩,
   ⟨withMesh msg0 (withSt .parked), 0, msg0, by decide +kernel⟩,
   ⟨wMessagesAndFares4_s, 0, ⟨3, 1, 0⟩, 3, by decide +kernel⟩,
   ⟨wMessagesAndFares5_s, 0, ⟨3, 1, 4⟩, 3, by decide +kernel⟩,
   ⟨withMesh msg0 (withSt .parked), 0, msg0, by decide +kernel⟩,
   ⟨wMessagesAndFares7_s, 0, { msg0 with filling := true }, by decide +kernel⟩⟩

/-- A core in RESET or FENCED drops a message; a core in any other state accepts it: its hypotheses are met. -/
theorem witness_MessageAccepted :
    (∃ (s : State) (i : Nat) (m : MeshMsg), s.mesh[i]? = some m ∧ stopped s = false ∧ m.filling = false ∧ ((s.mesh.take i).any fun x => decide (x.src = m.src) && decide (x.chan = m.chan)) = false ∧ ((s.core m.dst).st = .reset ∨ (s.core m.dst).st = .fenced)) ∧
    (∃ (s : State) (i : Nat) (m : MeshMsg), s.mesh[i]? = some m ∧ stopped s = false ∧ ((s.mesh.take i).any fun x => decide (x.src = m.src) && decide (x.chan = m.chan)) = false ∧ (s.core m.dst).st ≠ .reset ∧ (s.core m.dst).st ≠ .fenced ∧ (m.filling = true ∨ ((s.core m.dst).berths.get m.berth).st = .empty)) :=
  ⟨⟨withMesh msg0, 0, msg0, by decide +kernel⟩,
   ⟨withMesh msg0 (withSt .halt), 0, msg0, by decide +kernel⟩⟩

/-- A witness of BerthOverrun. -/
def wBerthOverrun1_s : State := withMesh msg0 (withCore 5 (fun c => { c with st := .run, berths := c.berths.set 2 { berthReset with st := .full } }))
/-- A message that arrives at a berth that is not EMPTY is dropped: its hypotheses are met. -/
theorem witness_BerthOverrun :
    (∃ (s : State) (i : Nat) (m : MeshMsg), s.mesh[i]? = some m ∧ stopped s = false ∧ m.filling = false ∧ ((s.mesh.take i).any fun x => decide (x.src = m.src) && decide (x.chan = m.chan)) = false ∧ (s.core m.dst).st ≠ .reset ∧ (s.core m.dst).st ≠ .fenced ∧ ((s.core m.dst).berths.get m.berth).st ≠ .empty) :=
  ⟨wBerthOverrun1_s, 0, msg0, by decide +kernel⟩

/-- A witness of LocksAndPartitions. -/
def wLocksAndPartitions1_s : State := { withRegs [(.ml, 0x100, 6)] with locks := State.reset.locks.set 6 { lockReset with st := .held, owner := 9 } }
/-- A witness of LocksAndPartitions. -/
def wLocksAndPartitions5_s : State := withCore 9 (fun c => { c with st := .wait, cause := 3, waits := [.acq 4 6] }) { State.reset with locks := State.reset.locks.set 6 { lockReset with st := .held, owner := 3, queue := [9] } }
/-- A witness of LocksAndPartitions. -/
def wLocksAndPartitions6_s : State := withCore 4 (fun c => { c with st := .run, part := 2 }) (withRegs [(.sd, 0x100, 0x20), (.gc 4, 8, 1)])
/-- Mooring locks repaired, a partition reset: its hypotheses are met. -/
theorem witness_LocksAndPartitions :
    (∃ (s : State) (v : W32) (n : Fin 1024), Starts s .ml 0x10C 0 v ∧ bit v 1 = false ∧ n.val = fld (preg s .ml 0x100) 0 10 ∧ (s.lock n).queue = []) ∧
    (∃ (s : State) (v : W32) (n : Fin 1024), Starts s .ml 0x10C 1 v ∧ bit v 0 = false ∧ n.val = fld (preg s .ml 0x100) 0 10 ∧ (s.lock n).queue = [] ∧ (s.lock n).st = .held) ∧
    (∃ (s : State) (v : W32) (n : Fin 1024), Starts s .ml 0x10C 1 v ∧ bit v 0 = false ∧ n.val = fld (preg s .ml 0x100) 0 10 ∧ (s.lock n).st ≠ .held) ∧
    (∃ (s : State) (n : Fin 1024), (s.lock n).queue = []) ∧
    (∃ (s : State) (n : Fin 1024) (id : Fin 256) (rd : BitVec 5), (s.lock n).queue = [id] ∧ (s.core id).waits = [.acq rd n] ∧ (s.core id).st = .wait ∧ rd ≠ 0) ∧
    (∃ (s : State) (v : W32) (core : Fin 256), Starts s .sd 0x11C 8 v ∧ partOf s core = fld v 0 4) :=
  ⟨⟨wLocksAndPartitions1_s, 1, 6, by decide +kernel⟩,
   ⟨wLocksAndPartitions1_s, 2, 6, by decide +kernel⟩,
   ⟨withRegs [(.ml, 0x100, 6)], 2, 6, by decide +kernel⟩,
   ⟨State.reset, 6, by decide +kernel⟩,
   ⟨wLocksAndPartitions5_s, 6, 9, 4, by decide +kernel⟩,
   ⟨wLocksAndPartitions6_s, 0x102, 4, by decide +kernel⟩⟩

/-- A witness of ScalarBundles. -/
def wScalarBundles1_s : State := withBundle 1885441 (State.reset)
/-- A witness of ScalarBundles. -/
def wScalarBundles2_s : State := withBundle 25436192 (State.reset)
/-- A witness of ScalarBundles. -/
def wScalarBundles3_s : State := withBundle 25436193 (State.reset)
/-- A witness of ScalarBundles. -/
def wScalarBundles4_s : State := withBundle 57721510524100804608 (State.reset)
/-- A witness of ScalarBundles. -/
def wScalarBundles4_q : List (BitVec 128) := List.replicate 4 57721510524100804608
/-- A witness of ScalarBundles. -/
def wScalarBundles4_i : VIns := ⟨.and, 1, 2, 3, 0, .fp32, 0, false, false, 0⟩
/-- A witness of ScalarBundles. -/
def wScalarBundles5_s : State := withBundle 2098480 (State.reset)
/-- A bundle with one scalar or vector instruction writes its result and goes on: its hypotheses are met. -/
theorem witness_ScalarBundles :
    (∃ (s : State) (core : Fin 256) (upset : Upset) (b : BitVec 128) (q : List (BitVec 128)) (op : AluOp) (rd : SReg) (ra : SReg) (rb : SReg), Issues s core b q ∧ decodeBundle b = some ⟨.alu op rd ra rb, none, .nop⟩ ∧ upset ≠ .imemParity) ∧
    (∃ (s : State) (core : Fin 256) (upset : Upset) (b : BitVec 128) (q : List (BitVec 128)) (cd : Cond) (ra : SReg) (rb : SReg) (off : Int), Issues s core b q ∧ decodeBundle b = some ⟨.branch cd ra rb off, none, .nop⟩ ∧ upset ≠ .imemParity ∧ condEval cd ((s.core core).s ra) ((s.core core).s rb) = true) ∧
    (∃ (s : State) (core : Fin 256) (upset : Upset) (b : BitVec 128) (q : List (BitVec 128)) (cd : Cond) (ra : SReg) (rb : SReg) (off : Int), Issues s core b q ∧ decodeBundle b = some ⟨.branch cd ra rb off, none, .nop⟩ ∧ upset ≠ .imemParity ∧ condEval cd ((s.core core).s ra) ((s.core core).s rb) = false) ∧
    (∃ (s : State) (core : Fin 256) (upset : Upset) (b : BitVec 128) (q : List (BitVec 128)) (i : VIns), Issues s core b q ∧ decodeBundle b = some ⟨.nop, some i, .nop⟩ ∧ upset ≠ .imemParity ∧ i.op = .and) ∧
    (∃ (s : State) (core : Fin 256) (upset : Upset) (b : BitVec 128) (q : List (BitVec 128)) (rd : SReg) (ra : SReg) (imm : W32), Issues s core b q ∧ decodeBundle b = some ⟨.waitAny rd ra imm, none, .nop⟩ ∧ upset ≠ .imemParity ∧ (s.core core).waits = [] ∧ (s.core core).events &&& (((s.core core).s ra).setWidth 32 ||| imm) = 0 ∧ ((s.core core).s ra).setWidth 32 ||| imm ≠ 0) :=
  ⟨⟨wScalarBundles1_s, 3, .none, 1885441, List.replicate 4 1885441, .add, 5, 6, 7, by decide +kernel⟩,
   ⟨wScalarBundles2_s, 3, .none, 25436192, List.replicate 4 25436192, .eq, 1, 1, 3, by decide +kernel⟩,
   ⟨wScalarBundles3_s, 3, .none, 25436193, List.replicate 4 25436193, .ne, 1, 1, 3, by decide +kernel⟩,
   ⟨wScalarBundles4_s, 3, .none, 57721510524100804608, wScalarBundles4_q, wScalarBundles4_i, by decide +kernel⟩,
   ⟨wScalarBundles5_s, 3, .none, 2098480, List.replicate 4 2098480, 5, 0, 8, by decide +kernel⟩⟩

/-- A witness of MemoryAndMessageBundles. -/
def wMemoryAndMessageBundles1_s : State := withBundle 168151633731724230707085060962516992 (State.reset)
/-- A witness of MemoryAndMessageBundles. -/
def wMemoryAndMessageBundles1_b : BitVec 128 := 168151633731724230707085060962516992
/-- A witness of MemoryAndMessageBundles. -/
def wMemoryAndMessageBundles1_q : List (BitVec 128) := List.replicate 4 168151633731724230707085060962516992
/-- A witness of MemoryAndMessageBundles. -/
def wMemoryAndMessageBundles2_s : State := withBundle 168152188328861830557448215770169344 (State.reset)
/-- A witness of MemoryAndMessageBundles. -/
def wMemoryAndMessageBundles2_b : BitVec 128 := 168152188328861830557448215770169344
/-- A witness of MemoryAndMessageBundles. -/
def wMemoryAndMessageBundles2_q : List (BitVec 128) := List.replicate 4 168152188328861830557448215770169344
/-- A witness of MemoryAndMessageBundles. -/
def wMemoryAndMessageBundles3_s : State := withBundle 178536782045931485814509208428609536 (State.reset)
/-- A witness of MemoryAndMessageBundles. -/
def wMemoryAndMessageBundles3_b : BitVec 128 := 178536782045931485814509208428609536
/-- A witness of MemoryAndMessageBundles. -/
def wMemoryAndMessageBundles3_q : List (BitVec 128) := List.replicate 4 178536782045931485814509208428609536
/-- A witness of MemoryAndMessageBundles. -/
def wMemoryAndMessageBundles4_s : State := withBundle 168153455979462058786849712473374720 (withCore 3 (fun c => { c with slots := c.slots.set 2 { mapSlotReset with st := .valid, rights := 7 } }))
/-- A witness of MemoryAndMessageBundles. -/
def wMemoryAndMessageBundles4_b : BitVec 128 := 168153455979462058786849712473374720
/-- A witness of MemoryAndMessageBundles. -/
def wMemoryAndMessageBundles4_q : List (BitVec 128) := List.replicate 4 168153455979462058786849712473374720
/-- A witness of MemoryAndMessageBundles. -/
def wMemoryAndMessageBundles5_s : State := withBundle 2001620297760374224963294361288704 (withFare 3 2 (withCore 3 (fun c => { c with sreg := c.sreg.set 6 0x40 }) (withSend State.reset)))
/-- A witness of MemoryAndMessageBundles. -/
def wMemoryAndMessageBundles5_b : BitVec 128 := 2001620297760374224963294361288704
/-- A witness of MemoryAndMessageBundles. -/
def wMemoryAndMessageBundles5_q : List (BitVec 128) := List.replicate 4 2001620297760374224963294361288704
/-- A witness of MemoryAndMessageBundles. -/
def wMemoryAndMessageBundles5_d : MsgDesc := readDesc ((withSend State.reset).core 3) 0x40
/-- A witness of MemoryAndMessageBundles. -/
def wMemoryAndMessageBundles6_s : State := withBundle 2001620297760374224963294361288704 (State.reset)
/-- A witness of MemoryAndMessageBundles. -/
def wMemoryAndMessageBundles6_d : MsgDesc := readDesc (State.reset.core 3) 0
/-- A witness of MemoryAndMessageBundles. -/
def wMemoryAndMessageBundles7_s : State := withBundle 2032123140328365994936808782168064 (withCore 3 (fun c => { c with sreg := c.sreg.set 6 6, berths := c.berths.set 2 { berthReset with st := .full } }))
/-- A witness of MemoryAndMessageBundles. -/
def wMemoryAndMessageBundles7_b : BitVec 128 := 2032123140328365994936808782168064
/-- A witness of MemoryAndMessageBundles. -/
def wMemoryAndMessageBundles7_q : List (BitVec 128) := List.replicate 4 2032123140328365994936808782168064
/-- A witness of MemoryAndMessageBundles. -/
def wMemoryAndMessageBundles8_s : State := withBundle 95463597576687385653212976638853120 (withRegs [(.ml, 8, 1)])
/-- A witness of MemoryAndMessageBundles. -/
def wMemoryAndMessageBundles8_b : BitVec 128 := 95463597576687385653212976638853120
/-- A witness of MemoryAndMessageBundles. -/
def wMemoryAndMessageBundles8_q : List (BitVec 128) := List.replicate 4 95463597576687385653212976638853120
/-- A witness of MemoryAndMessageBundles. -/
def wMemoryAndMessageBundles9_s : State := withBundle 178536782045931485814509208428609536 (withAccess (.load 5 8 false) false)
/-- Bundles of the memory and message slots: its hypotheses are met. -/
theorem witness_MemoryAndMessageBundles :
    (∃ (s : State) (core : Fin 256) (upset : Upset) (b : BitVec 128) (q : List (BitVec 128)) (rd : SReg) (ra : SReg) (imm : Int) (n : Nat), Issues s core b q ∧ decodeBundle b = some ⟨.nop, none, .ld rd ra imm n false⟩ ∧ upset ≠ .imemParity ∧ upset = .none ∧ effAddr (s.core core) ra imm % n = 0 ∧ effAddr (s.core core) ra imm + n ≤ 0xE0000) ∧
    (∃ (s : State) (core : Fin 256) (upset : Upset) (b : BitVec 128) (q : List (BitVec 128)) (rd : SReg) (ra : SReg) (imm : Int) (n : Nat), Issues s core b q ∧ decodeBundle b = some ⟨.nop, none, .st rd ra imm n⟩ ∧ upset ≠ .imemParity ∧ effAddr (s.core core) ra imm % n = 0 ∧ effAddr (s.core core) ra imm + n ≤ 0xC0000 ∧ tileOverlap (s.core core) (effAddr (s.core core) ra imm) n = false) ∧
    (∃ (s : State) (core : Fin 256) (upset : Upset) (b : BitVec 128) (q : List (BitVec 128)) (rd : SReg) (ra : SReg) (imm : Int) (n : Nat), Issues s core b q ∧ decodeBundle b = some ⟨.nop, none, .st rd ra imm n⟩ ∧ upset ≠ .imemParity ∧ (s.core core).loadsOut = 0 ∧ effAddr (s.core core) ra imm % n ≠ 0) ∧
    (∃ (s : State) (core : Fin 256) (upset : Upset) (b : BitVec 128) (q : List (BitVec 128)) (rd : SReg) (ra : SReg) (imm : Int) (n : Nat) (i : Fin 16), Issues s core b q ∧ decodeBundle b = some ⟨.nop, none, .gst rd ra imm n false⟩ ∧ upset ≠ .imemParity ∧ effAddr (s.core core) ra imm % n = 0 ∧ effAddr (s.core core) ra imm < 2 ^ 48 ∧ slotFind (s.core core) .valid (some (effAddr (s.core core) ra imm)) = some i ∧ ((s.core core).slots.get i).rights &&& 2 = 2 ∧ ((s.core core).slots.get i).kind ≠ 1 ∧ (s.core core).storesOut < 64) ∧
    (∃ (s : State) (core : Fin 256) (upset : Upset) (b : BitVec 128) (q : List (BitVec 128)) (rd : SReg) (ra : SReg) (d : MsgDesc), Issues s core b q ∧ decodeBundle b = some ⟨.nop, none, .send rd ra⟩ ∧ upset ≠ .imemParity ∧ upset = .none ∧ ((s.core core).s ra).toNat % 16 = 0 ∧ ((s.core core).s ra).toNat + 16 ≤ ldmSize ∧ d = readDesc (s.core core) ((s.core core).s ra).toNat ∧ sendCheck s core d = 0 ∧ canSend s core d = true) ∧
    (∃ (s : State) (core : Fin 256) (upset : Upset) (b : BitVec 128) (q : List (BitVec 128)) (rd : SReg) (ra : SReg) (d : MsgDesc), Issues s core b q ∧ decodeBundle b = some ⟨.nop, none, .send rd ra⟩ ∧ upset ≠ .imemParity ∧ upset = .none ∧ ((s.core core).s ra).toNat % 16 = 0 ∧ ((s.core core).s ra).toNat + 16 ≤ ldmSize ∧ d = readDesc (s.core core) ((s.core core).s ra).toNat ∧ sendCheck s core d = 1) ∧
    (∃ (s : State) (core : Fin 256) (upset : Upset) (b : BitVec 128) (q : List (BitVec 128)) (rd : SReg) (ra : SReg) (i : Nat), Issues s core b q ∧ decodeBundle b = some ⟨.nop, none, .recv rd ra⟩ ∧ upset ≠ .imemParity ∧ ((s.core core).s ra).setWidth 16 ≠ (0 : W16) ∧ (s.core core).lowestFull (((s.core core).s ra).setWidth 16) = some i) ∧
    (∃ (s : State) (core : Fin 256) (upset : Upset) (b : BitVec 128) (q : List (BitVec 128)) (rd : SReg) (ra : SReg) (imm : Nat) (n : Fin 1024), Issues s core b q ∧ decodeBundle b = some ⟨.nop, none, .acq rd ra imm false⟩ ∧ upset ≠ .imemParity ∧ n = lockNo (s.core core) ra imm ∧ lockAllowed s core n = true ∧ (s.lock n).st = .free ∧ (s.lock n).queue = []) ∧
    (∃ (s : State) (core : Fin 256) (upset : Upset) (b : BitVec 128) (q : List (BitVec 128)) (rd : SReg) (ra : SReg) (imm : Int) (n : Nat), Issues s core b q ∧ decodeBundle b = some ⟨.nop, none, .st rd ra imm n⟩ ∧ upset ≠ .imemParity ∧ 0 < (s.core core).loadsOut ∧ effAddr (s.core core) ra imm % n ≠ 0) ∧
    (∃ (s : State) (core : Fin 256) (upset : Upset) (b : BitVec 128) (q : List (BitVec 128)) (rd : SReg) (ra : SReg), Issues s core b q ∧ decodeBundle b = some ⟨.nop, none, .send rd ra⟩ ∧ upset = .uncorrectable ∧ (s.core core).waits = [] ∧ ((s.core core).s ra).toNat % 16 = 0 ∧ ((s.core core).s ra).toNat + 16 ≤ ldmSize) :=
  ⟨⟨wMemoryAndMessageBundles1_s, 3, .none, wMemoryAndMessageBundles1_b, wMemoryAndMessageBundles1_q, 5, 6, 16, 8, by decide +kernel⟩,
   ⟨wMemoryAndMessageBundles2_s, 3, .none, wMemoryAndMessageBundles2_b, wMemoryAndMessageBundles2_q, 5, 6, 16, 8, by decide +kernel⟩,
   ⟨wMemoryAndMessageBundles3_s, 3, .none, wMemoryAndMessageBundles3_b, wMemoryAndMessageBundles3_q, 5, 6, 17, 8, by decide +kernel⟩,
   ⟨wMemoryAndMessageBundles4_s, 3, .none, wMemoryAndMessageBundles4_b, wMemoryAndMessageBundles4_q, 5, 6, 16, 8, 2, by decide +kernel⟩,
   ⟨wMemoryAndMessageBundles5_s, 3, .none, wMemoryAndMessageBundles5_b, wMemoryAndMessageBundles5_q, 5, 6, wMemoryAndMessageBundles5_d, by decide +kernel⟩,
   ⟨wMemoryAndMessageBundles6_s, 3, .none, wMemoryAndMessageBundles5_b, wMemoryAndMessageBundles5_q, 5, 6, wMemoryAndMessageBundles6_d, by decide +kernel⟩,
   ⟨wMemoryAndMessageBundles7_s, 3, .none, wMemoryAndMessageBundles7_b, wMemoryAndMessageBundles7_q, 8, 6, 2, by decide +kernel⟩,
   ⟨wMemoryAndMessageBundles8_s, 3, .none, wMemoryAndMessageBundles8_b, wMemoryAndMessageBundles8_q, 5, 6, 9, 9, by decide +kernel⟩,
   ⟨wMemoryAndMessageBundles9_s, 3, .none, wMemoryAndMessageBundles3_b, wMemoryAndMessageBundles3_q, 5, 6, 17, 8, by decide +kernel⟩,
   ⟨wMemoryAndMessageBundles5_s, 3, .uncorrectable, wMemoryAndMessageBundles5_b, wMemoryAndMessageBundles5_q, 5, 6, by decide +kernel⟩⟩

/-- A witness of BundleEnds. -/
def wBundleEnds2_s : State := withBundle 1310775 (State.reset)
/-- A witness of BundleEnds. -/
def wBundleEnds4_s : State := withCore 3 (fun c => { c with st := .run, mmas := [⟨1, 0, 0x1000, 32, 4, true, 0x40⟩] })
/-- A witness of BundleEnds. -/
def wBundleEnds4_m : Mma := ⟨1, 0, 0x1000, 32, 4, true, 0x40⟩
/-- A witness of BundleEnds. -/
def wBundleEnds6_s : State := withCore 3 (fun c => { c with sending := some (5, readDesc c 0x40) }) (withSend State.reset)
/-- A witness of BundleEnds. -/
def wBundleEnds6_d : MsgDesc := readDesc ((withSend State.reset).core 3) 0x40
/-- A witness of BundleEnds. -/
def wBundleEnds7_s : State := withCore 3 (fun c => { c with st := .run, sending := some (5, readDesc c 0x40) }) (withSend State.reset)
/-- A witness of BundleEnds. -/
def wBundleEnds8_s : State := withCore 3 (fun c => { c with st := .wait, cause := 10, waits := [.sync] }) State.reset
/-- Bundles that end in an exception, and what completes after its bundle: its hypotheses are met. -/
theorem witness_BundleEnds :
    (∃ (s : State) (core : Fin 256) (upset : Upset) (b : BitVec 128) (q : List (BitVec 128)), Issues s core b q ∧ decodeBundle b = none ∧ upset ≠ .imemParity ∧ (s.core core).loadsOut = 0) ∧
    (∃ (s : State) (core : Fin 256) (upset : Upset) (b : BitVec 128) (q : List (BitVec 128)) (imm : BitVec 6), Issues s core b q ∧ decodeBundle b = some ⟨.trap imm, none, .nop⟩ ∧ upset ≠ .imemParity ∧ (s.core core).loadsOut = 0) ∧
    (∃ (s : State) (core : Fin 256), canIssue s core = true ∧ Wait.sync ∉ (s.core core).waits ∧ (s.core core).loadsOut = 0) ∧
    (∃ (s : State) (core : Fin 256) (upset : Upset) (m : Mma) (rest : List Mma), clockStopped s core = false ∧ (s.core core).mmas = m :: rest ∧ (upset = .none ∨ upset = .imemParity)) ∧
    (∃ (s : State) (core : Fin 256) (m : Mma) (rest : List Mma), clockStopped s core = false ∧ (s.core core).mmas = m :: rest ∧ (s.core core).waits = [] ∧ (s.core core).st ∈ [CoreState.run, .wait, .parked]) ∧
    (∃ (s : State) (core : Fin 256) (upset : Upset) (rd : BitVec 5) (d : MsgDesc), clockStopped s core = false ∧ (s.core core).sending = some (rd, d) ∧ (chanDest (chanCfg s core d.chan)).toNat / 256 = fleetId s ∧ (upset = .none ∨ upset = .imemParity)) ∧
    (∃ (s : State) (core : Fin 256) (rd : BitVec 5) (d : MsgDesc), clockStopped s core = false ∧ (s.core core).sending = some (rd, d) ∧ (s.core core).st = .run ∧ (s.core core).waits = []) ∧
    (∃ (s : State) (core : Fin 256), clockStopped s core = false ∧ (s.core core).waits = [.sync] ∧ (s.core core).st = .wait) :=
  ⟨⟨withBundle 255 (State.reset), 3, .none, 255, List.replicate 4 255, by decide +kernel⟩,
   ⟨wBundleEnds2_s, 3, .none, 1310775, List.replicate 4 1310775, 5, by decide +kernel⟩,
   ⟨withBundle 0, 3, by decide +kernel⟩,
   ⟨wBundleEnds4_s, 3, .none, wBundleEnds4_m, [], by decide +kernel⟩,
   ⟨wBundleEnds4_s, 3, wBundleEnds4_m, [], by decide +kernel⟩,
   ⟨wBundleEnds6_s, 3, .none, 5, wBundleEnds6_d, by decide +kernel⟩,
   ⟨wBundleEnds7_s, 3, 5, wBundleEnds6_d, by decide +kernel⟩,
   ⟨wBundleEnds8_s, 3, by decide +kernel⟩⟩

/-- A witness of ManifestSubmission. -/
def wManifestSubmission3_s : State := withCore 8 (fun c => { c with st := .run, tt := { c.tt with running := true }, ldm := writeBytes [] 0x80 (natBytes 128 fillDesc.toNat) }) (setTtReg (setTtReg (setTtReg (setTtReg (setTtReg (withMap { State.reset with tide := { tideReset with mode := .locked, dispatching := true, len := 0x100000, step := 9 } }) 8 0x8000 1) 8 0x8004 1) 8 0 0x4000000) 8 4 0x40) 8 12 0x80)
/-- A witness of ManifestSubmission. -/
def wManifestSubmission3_p : Pick := ⟨false, 0, ttEntry (withCore 8 (fun c => { c with st := .run, tt := { c.tt with running := true }, ldm := writeBytes [] 0x80 (natBytes 128 fillDesc.toNat) }) (setTtReg (setTtReg (setTtReg (setTtReg (setTtReg (withMap { State.reset with tide := { tideReset with mode := .locked, dispatching := true, len := 0x100000, step := 9 } }) 8 0x8000 1) 8 0x8004 1) 8 0 0x4000000) 8 4 0x40) 8 12 0x80)) 8 false 0, false, false, false⟩
/-- A witness of ManifestSubmission. -/
def wManifestSubmission3_T : State := takePlace (withCore 8 (fun c => { c with st := .run, tt := { c.tt with running := true }, ldm := writeBytes [] 0x80 (natBytes 128 fillDesc.toNat) }) (setTtReg (setTtReg (setTtReg (setTtReg (setTtReg (withMap { State.reset with tide := { tideReset with mode := .locked, dispatching := true, len := 0x100000, step := 9 } }) 8 0x8000 1) 8 0x8004 1) 8 0 0x4000000) 8 4 0x40) 8 12 0x80)) 8 ⟨false, 0, ttEntry (withCore 8 (fun c => { c with st := .run, tt := { c.tt with running := true }, ldm := writeBytes [] 0x80 (natBytes 128 fillDesc.toNat) }) (setTtReg (setTtReg (setTtReg (setTtReg (setTtReg (withMap { State.reset with tide := { tideReset with mode := .locked, dispatching := true, len := 0x100000, step := 9 } }) 8 0x8000 1) 8 0x8004 1) 8 0 0x4000000) 8 4 0x40) 8 12 0x80)) 8 false 0, false, false, false⟩
/-- A valid manifest joins its queue with the next completion number: its hypotheses are met. -/
theorem witness_ManifestSubmission :
    (∃ (s : State) (cl : Fin 16) (ctx : Fin 16) (desc : BitVec 1024) (ue : List (BitVec 23)) (rx : Xlat), bit (preg s (.cl cl) 0x200) 0 = true ∧ descOk desc (fun id => decide (ctxOfPart s (partOf s id) = ctx.val)) = true ∧ mFlagEn desc = false ∧ (lookup s ctx (mCompl desc) 2 false (unitUe ue (mCompl desc))).2 = .ok rx ∧ (cutFrom (lookup s ctx (mCompl desc) 2 false (unitUe ue (mCompl desc))).1 ctx desc (segLimit (lookup s ctx (mCompl desc) 2 false (unitUe ue (mCompl desc))).1 ctx desc) 0 (mTotal desc) ue).2.fail = none ∧ (mQueueOf s cl (mQueue desc)).length < 32) ∧
    (∃ (s : State) (cl : Fin 16), bit (preg s (.cl cl) 0x200) 0 = false) ∧
    (∃ (s : State) (core : Fin 256) (idx : Fin 512) (p : Pick) (cl : Fin 16) (ctx : Fin 16) (a : Nat) (desc : BitVec 1024) (ue : List (BitVec 23)) (rx : Xlat) (T : State), nextEntry s core = some p ∧ p.idx = idx.val ∧ mayGo s core p = true ∧ eAct p.e = 0x04 ∧ (s.core core).st = .run ∧ cl = clusterOf core ∧ ctx = fin 16 (ctxOfPart s (partOf s core)) ∧ a = eArg p.e % 2 ^ 20 ∧ a % 128 = 0 ∧ a + 128 ≤ ldmSize ∧ desc = BitVec.ofNat 1024 (bytesNat (readBytes (s.core core).ldm a 128)) ∧ T = takePlace s core p ∧ bit (preg T (.cl cl) 0x200) 0 = true ∧ descOk desc (fun k => decide (partOf s k = partOf s core)) = true ∧ mFlagEn desc = false ∧ (lookup T ctx (mCompl desc) 2 false (unitUe ue (mCompl desc))).2 = .ok rx ∧ (cutFrom (lookup T ctx (mCompl desc) 2 false (unitUe ue (mCompl desc))).1 ctx desc (segLimit (lookup T ctx (mCompl desc) 2 false (unitUe ue (mCompl desc))).1 ctx desc) 0 (mTotal desc) ue).2.fail = none ∧ (mQueueOf s cl (mQueue desc)).length < 32) :=
  ⟨⟨withMap, 2, 0, fillDesc, [5], page0, by decide +kernel⟩,
   ⟨State.reset, 2, by decide +kernel⟩,
   ⟨wManifestSubmission3_s, 8, 0, wManifestSubmission3_p, 2, 0, 0x80, fillDesc, [5], page0, wManifestSubmission3_T, by refine ⟨?_, ?_, ?_, ?_, ?_, ?_, ?_, ?_, ?_, ?_, ?_, rfl, ?_, ?_, ?_, ?_, ?_, ?_⟩ <;> decide +kernel⟩⟩

/-- A witness of Manifests. -/
def wManifests1_s : State := withManifest { mf0 with started := false }
/-- A witness of Manifests. -/
def wManifests2_e : Elem := ⟨0, mf0, ⟨0, 2, [(true, page0)], false⟩, none, 0, page0, 0x1000⟩
/-- A witness of Manifests. -/
def wManifests3_s : State := withDesc (withManifest { mf0 with desc := setFld (setFld fillDesc 0 8 1) 64 48 0x80, seg := some ⟨0, 2, [(false, page0), (true, page0)], false⟩ })
/-- A witness of Manifests. -/
def wManifests3_e : Elem := ⟨0, { mf0 with desc := setFld (setFld fillDesc 0 8 1) 64 48 0x80, seg := some ⟨0, 2, [(false, page0), (true, page0)], false⟩ }, ⟨0, 2, [(false, page0), (true, page0)], false⟩, some page0, 0x80, page0, 0x1000⟩
/-- A witness of Manifests. -/
def wManifests4_s : State := withManifest { mf0 with done := 2 }
/-- A witness of Manifests. -/
def wManifests5_s : State := withManifest { mf0 with done := 1, seg := some ⟨0, 1, [(true, page0)], false⟩ }
/-- A witness of Manifests. -/
def wManifests5_m : Manifest := { mf0 with done := 1, seg := some ⟨0, 1, [(true, page0)], false⟩ }
/-- A witness of Manifests. -/
def wManifests6_s : State := withMap (withManifest { mf0 with done := 1, seg := some ⟨0, 1, [(true, page0)], false⟩, nextBusy := true })
/-- A witness of Manifests. -/
def wManifests6_m : Manifest := { mf0 with done := 1, seg := some ⟨0, 1, [(true, page0)], false⟩, nextBusy := true }
/-- A witness of Manifests. -/
def wManifests7_s : State := withManifest { mf0 with done := 1, stopAt := some (1, 0x4000000) }
/-- A witness of Manifests. -/
def wManifests7_m : Manifest := { mf0 with done := 1, stopAt := some (1, 0x4000000) }
/-- A witness of Manifests. -/
def wManifests9_s : State := withManifest mf0 ({ State.reset with slices := State.reset.slices.set (homeOf ⟨false, 0x80040⟩) { State.reset.slice (homeOf ⟨false, 0x80040⟩) with binv := [⟨⟨false, 0x80040⟩, true, true, [], none⟩] } })
/-- A witness of Manifests. -/
def wManifests10_s : State := withManifest { mf0 with done := 2, flagX := some page0, desc := setFld fillDesc 256 48 0x3008 }
/-- A witness of Manifests. -/
def wManifests10_m : Manifest := { mf0 with done := 2, flagX := some page0, desc := setFld fillDesc 256 48 0x3008 }
/-- Manifests run element by element and segment by segment: its hypotheses are met. -/
theorem witness_Manifests :
    (∃ (s : State) (cl : Fin 16) (q : Fin 4) (m : Manifest) (rest : List Manifest), stopped s = false ∧ mQueueOf s cl q = m :: rest ∧ m.started = false) ∧
    (∃ (s : State) (cl : Fin 16) (q : Fin 4) (e : Elem) (pa : Nat), stopped s = false ∧ nextElem s cl q = some e ∧ queueTurn s cl = some q ∧ mCopy e.m.desc = false ∧ e.dx.kind = 0 ∧ pa = e.dx.phys e.da ∧ pa < dmSize ∧ mEsize e.m.desc ≤ 64 ∧ pa % mEsize e.m.desc = 0 ∧ PlainLine s e.dstLine) ∧
    (∃ (s : State) (cl : Fin 16) (q : Fin 4) (e : Elem) (sx : Xlat) (pa : Nat) (qa : Nat), stopped s = false ∧ nextElem s cl q = some e ∧ queueTurn s cl = some q ∧ mCopy e.m.desc = true ∧ e.dx.kind = 0 ∧ pa = e.dx.phys e.da ∧ pa < dmSize ∧ mEsize e.m.desc ≤ 64 ∧ pa % mEsize e.m.desc = 0 ∧ PlainLine s e.dstLine ∧ e.sx = some sx ∧ sx.kind = 0 ∧ qa = sx.phys e.sa ∧ qa < dmSize ∧ qa % mEsize e.m.desc = 0 ∧ PlainLine s (lineOf false qa)) ∧
    (∃ (s : State) (cl : Fin 16) (q : Fin 4) (m : Manifest) (rest : List Manifest) (pa : Nat), stopped s = false ∧ mQueueOf s cl q = m :: rest ∧ m.started = true ∧ m.halted = false ∧ m.ending = none ∧ (rest.all fun x => x.ending.isNone) = true ∧ m.done = mTotal m.desc ∧ m.poisoned = 0 ∧ streamBusy s (16 + cl.val) q.val = false ∧ m.flagX = none ∧ bit m.desc 16 = false ∧ m.recX.kind = 0 ∧ pa = m.recX.phys (mCompl m.desc) ∧ pa < dmSize ∧ pa % 64 = 0 ∧ PlainLine s m.recLine) ∧
    (∃ (s : State) (cl : Fin 16) (q : Fin 4) (m : Manifest) (i : Nat) (g : Seg), stopped s = false ∧ issuing (mQueueOf s cl q) = some (i, m) ∧ m.seg = some g ∧ m.halted = false ∧ m.ending = none ∧ m.next = none ∧ m.nextBusy = false ∧ m.stopAt = none ∧ (g.count + 1) / 2 ≤ m.done - g.first ∧ g.first + g.count < mTotal m.desc) ∧
    (∃ (s : State) (cl : Fin 16) (q : Fin 4) (m : Manifest) (i : Nat) (g : Seg) (ue : List (BitVec 23)) (k : Nat) (ps : List (Bool × Xlat)) (f : Option (Nat × BitVec 64)), stopped s = false ∧ issuing (mQueueOf s cl q) = some (i, m) ∧ m.seg = some g ∧ m.nextBusy = true ∧ (cutFrom s m.ctx m.desc m.limit (g.first + g.count) (mTotal m.desc) ue).2.count = k ∧ (cutFrom s m.ctx m.desc m.limit (g.first + g.count) (mTotal m.desc) ue).2.pages = ps ∧ (cutFrom s m.ctx m.desc m.limit (g.first + g.count) (mTotal m.desc) ue).2.fail = f) ∧
    (∃ (s : State) (cl : Fin 16) (q : Fin 4) (m : Manifest) (rest : List Manifest) (a : BitVec 48) (pa : Nat), stopped s = false ∧ mQueueOf s cl q = m :: rest ∧ m.done < mTotal m.desc ∧ m.stopAt = some (m.done, a) ∧ m.halted = false ∧ m.ending = none ∧ (rest.all fun x => x.ending.isNone) = true ∧ streamBusy s (16 + cl.val) q.val = false ∧ bit m.desc 16 = false ∧ m.recX.kind = 0 ∧ pa = m.recX.phys (mCompl m.desc) ∧ pa < dmSize ∧ pa % 64 = 0 ∧ PlainLine s m.recLine) ∧
    (∃ (s : State) (cl : Fin 16) (q : Fin 4) (e : Elem), stopped s = false ∧ nextElem s cl q = some e ∧ queueTurn s cl = some q ∧ mCopy e.m.desc = false ∧ e.dx.kind = 0) ∧
    (∃ (s : State) (cl : Fin 16) (q : Fin 4) (e : Elem), nextElem s cl q = some e ∧ elemReady s cl q e = false) ∧
    (∃ (s : State) (cl : Fin 16) (q : Fin 4) (m : Manifest) (rest : List Manifest) (pa : Nat) (l : Line) (off : Nat), stopped s = false ∧ mQueueOf s cl q = m :: rest ∧ m.started = true ∧ m.halted = false ∧ m.ending = none ∧ (rest.all fun x => x.ending.isNone) = true ∧ m.done = mTotal m.desc ∧ m.poisoned = 0 ∧ streamBusy s (16 + cl.val) q.val = false ∧ bit m.desc 16 = false ∧ m.recX.kind = 0 ∧ pa = m.recX.phys (mCompl m.desc) ∧ pa < dmSize ∧ pa % 64 = 0 ∧ PlainLine s m.recLine ∧ m.flagLine = some (l, off) ∧ off ≤ 56 ∧ l ≠ m.recLine ∧ 64 * l.num.toNat < dmSize ∧ PlainLine s l) :=
  ⟨⟨wManifests1_s, 2, 0, { mf0 with started := false }, [], by decide +kernel⟩,
   ⟨withManifest mf0, 2, 0, wManifests2_e, 0x2001000, by decide +kernel⟩,
   ⟨wManifests3_s, 2, 0, wManifests3_e, page0, 0x2001000, 0x2000080, by decide +kernel⟩,
   ⟨wManifests4_s, 2, 0, { mf0 with done := 2 }, [], 0x2002000, by decide +kernel⟩,
   ⟨wManifests5_s, 2, 0, wManifests5_m, 0, ⟨0, 1, [(true, page0)], false⟩, by decide +kernel⟩,
   ⟨wManifests6_s, 2, 0, wManifests6_m, 0, ⟨0, 1, [(true, page0)], false⟩, [], 1, [(true, page0)], none, by decide +kernel⟩,
   ⟨wManifests7_s, 2, 0, wManifests7_m, [], 0x4000000, 0x2002000, by decide +kernel⟩,
   ⟨withManifest mf0, 2, 0, wManifests2_e, by decide +kernel⟩,
   ⟨wManifests9_s, 2, 0, wManifests2_e, by decide +kernel⟩,
   ⟨wManifests10_s, 2, 0, wManifests10_m, [], 0x2002000, ⟨false, 0x800C0⟩, 8, by decide +kernel⟩⟩

/-- A witness of MovementControl. -/
def wMovementControl7_a : XbArrival := ⟨3, 4, .posted, false, 0x1000, false⟩
/-- A witness of MovementControl. -/
def wMovementControl8_s : State := { State.reset with xb := { matrixReset with waiting := matrixReset.waiting.set 4 [⟨⟨3, 1, .posted, false, 0x1000, false⟩, 2⟩, ⟨⟨5, 1, .posted, false, 0x1000, false⟩, 0⟩], prio := [(32, 0x24934924)] } }
/-- A witness of MovementControl. -/
def wMovementControl8_a : XbWait := ⟨⟨3, 1, .posted, false, 0x1000, false⟩, 2⟩
/-- A witness of MovementControl. -/
def wMovementControl8_b : XbWait := ⟨⟨5, 1, .posted, false, 0x1000, false⟩, 0⟩
/-- A witness of MovementControl. -/
def wMovementControl10_s : State := { State.reset with xb := { matrixReset with waiting := matrixReset.waiting.set 4 [⟨⟨3, 4, .posted, false, 0x1000, false⟩, 0x4001⟩] } }
/-- A witness of MovementControl. -/
def wMovementControl10_w : XbWait := ⟨⟨3, 4, .posted, false, 0x1000, false⟩, 0x4001⟩
/-- A witness of MovementControl. -/
def wMovementControl11_s : State := { State.reset with xb := { matrixReset with held := [(4, ⟨⟨3, 4, .posted, false, 0x1000, false⟩, 0x100000000⟩)] } }
/-- A witness of MovementControl. -/
def wMovementControl11_h : Fin 26 × XbWait := (4, ⟨⟨3, 4, .posted, false, 0x1000, false⟩, 0x100000000⟩)
/-- A witness of MovementControl. -/
def wMovementControl12_s : State := withManifest { mf0 with halted := true, seg := none, recX := { page0 with kind := 1 } }
/-- A witness of MovementControl. -/
def wMovementControl13_a : XbArrival := ⟨3, 4, .posted, false, 0x1000, true⟩
/-- A witness of MovementControl. -/
def wMovementControl14_a : XbArrival := ⟨33, 1, .posted, false, 0x1000, true⟩
/-- A witness of MovementControl. -/
def wMovementControl15_a : XbArrival := ⟨3, 1, .posted, false, 0x1000, false⟩
/-- Movers, mailboxes and the matrix controlled: its hypotheses are met. -/
theorem witness_MovementControl :
    (∃ (s : State) (cl : Fin 16) (v : W32) (q : Fin 4) (m : Manifest) (pa : Nat), Starts s (.cl cl) 0x200 1 v ∧ bit v 0 = bit (preg s (.cl cl) 0x200) 0 ∧ mQueueOf s cl q = [m] ∧ (∀ r : Fin 4, r ≠ q → mQueueOf s cl r = []) ∧ m.ending = none ∧ streamBusy s (16 + cl.val) q.val = false ∧ m.recX.kind = 0 ∧ pa = m.recX.phys (mCompl m.desc) ∧ pa < dmSize ∧ pa % 64 = 0 ∧ PlainLine s m.recLine) ∧
    (∃ (s : State) (cl : Fin 16) (v : W32), Unlocked s (.cl cl) ∧ bit (preg s (.cl cl) 0x200) 0 = false ∧ bit v 0 = true ∧ bit v 1 = false) ∧
    (∃ (s : State) (cl : Fin 16) (v : W32), Unlocked s (.cl cl) ∧ bit v 0 = false ∧ bit v 1 = false) ∧
    (∃ (s : State) (mb : Fin 16) (v : W32), Unlocked s .fm ∧ bit (preg s .fm (mbOff mb)) 0 = false ∧ bit v 0 = true ∧ bit v 1 = false) ∧
    (∃ (s : State) (v : W32), Unlocked s .fm ∧ bit v 0 = false ∧ bit v 1 = false) ∧
    (∃ (s : State) (mb : Fin 16) (v : W32), Starts s .fm (mbOff mb) 1 v) ∧
    (∃ (s : State) (target : Fin 26) (a : XbArrival), s.xb.held = [] ∧ s.xb.stalled = [] ∧ s.xb.waiting.get target = [] ∧ s.xb.burst.get target = 0 ∧ xbDecodes s target a = true ∧ xbFenced s target = false ∧ xbBlocked s target a = false ∧ a.full = false ∧ a.cls ≠ .escape) ∧
    (∃ (s : State) (target : Fin 26) (a : XbWait) (b : XbWait), s.xb.held = [] ∧ s.xb.stalled = [] ∧ s.xb.waiting.get target = [a, b] ∧ s.xb.burst.get target = 0 ∧ xbBlocked s target a.req = false ∧ xbBlocked s target b.req = false ∧ prioOf s target a.req.master < prioOf s target b.req.master) ∧
    (∃ (s : State) (target : Fin 26) (a : XbArrival), s.xb.held = [] ∧ s.xb.stalled = [] ∧ s.xb.waiting.get target = [] ∧ s.xb.burst.get target = 0 ∧ xbDecodes s target a = false) ∧
    (∃ (s : State) (target : Fin 26) (i : Nat) (w : XbWait), (s.xb.waiting.get target)[i]? = some w ∧ (preg s .xb 0x160).toNat < w.waited) ∧
    (∃ (s : State) (i : Nat) (h : Fin 26 × XbWait), s.xb.held[i]? = some h ∧ (preg s .xb 0x15C).toNat < h.2.waited) ∧
    (∃ (s : State) (cl : Fin 16) (v : W32), Starts s (.cl cl) 0x200 1 v) ∧
    (∃ (s : State) (target : Fin 26) (a : XbArrival), s.xb.held = [] ∧ s.xb.stalled = [] ∧ s.xb.waiting.get target = [] ∧ s.xb.burst.get target = 0 ∧ xbDecodes s target a = true ∧ xbFenced s target = false ∧ xbBlocked s target a = false ∧ a.full = true ∧ escapeKept target a = false) ∧
    (∃ (s : State) (target : Fin 26) (a : XbArrival), s.xb.held = [] ∧ s.xb.stalled = [] ∧ s.xb.waiting.get target = [] ∧ s.xb.burst.get target = 0 ∧ xbDecodes s target a = true ∧ xbFenced s target = false ∧ xbBlocked s target a = false ∧ a.full = true ∧ escapeKept target a = true) ∧
    (∃ (s : State) (target : Fin 26) (a : XbArrival), s.xb.held = [] ∧ s.xb.stalled = [] ∧ s.xb.waiting.get target = [] ∧ s.xb.burst.get target = 0 ∧ xbDecodes s target a = true ∧ xbFenced s target = true) :=
  ⟨⟨withManifest mf0, 2, 2, 0, mf0, 0x2002000, by decide +kernel⟩,
   ⟨withManifest mf0, 2, 1, by decide +kernel⟩,
   ⟨withManifest mf0, 2, 0, by decide +kernel⟩,
   ⟨State.reset, 3, 1, by decide +kernel⟩,
   ⟨State.reset, 0, by decide +kernel⟩,
   ⟨State.reset, 3, 2, by decide +kernel⟩,
   ⟨State.reset, 4, wMovementControl7_a, by decide +kernel⟩,
   ⟨wMovementControl8_s, 4, wMovementControl8_a, wMovementControl8_b, by decide +kernel⟩,
   ⟨State.reset, 5, wMovementControl7_a, by decide +kernel⟩,
   ⟨wMovementControl10_s, 4, 0, wMovementControl10_w, by decide +kernel⟩,
   ⟨wMovementControl11_s, 0, wMovementControl11_h, by decide +kernel⟩,
   ⟨wMovementControl12_s, 2, 2, by decide +kernel⟩,
   ⟨State.reset, 4, wMovementControl13_a, by decide +kernel⟩,
   ⟨State.reset, 4, wMovementControl14_a, by decide +kernel⟩,
   ⟨withRegs [(.dc 4, 8, 2)], 4, wMovementControl15_a, by decide +kernel⟩⟩

/-- A witness of MailboxCommands. -/
def wMailboxCommands2_s : State := withSlot (1) ({ State.reset with mailboxes := State.reset.mailboxes.set 0 ⟨1, false, [(1, some 4)], []⟩ })
/-- A witness of MailboxCommands. -/
def wMailboxCommands3_s : State := { State.reset with bar4 := [(0x80, 1)] }
/-- A witness of MailboxCommands. -/
def wMailboxCommands6_s : State := withSlot (8) ({ State.reset with mailboxes := State.reset.mailboxes.set 0 ⟨0, false, [], [⟨4, 0, .invalidate, true, [], false⟩]⟩ })
/-- A witness of MailboxCommands. -/
def wMailboxCommands7_s : State := withSlot (2 + 2 * 2 ^ 32 + 0x80 * 2 ^ 64) (withDesc withMap)
/-- A witness of MailboxCommands. -/
def wMailboxCommands7_T : State := takenAt (withSlot (2 + 2 * 2 ^ 32 + 0x80 * 2 ^ 64) (withDesc withMap)) 0 1 1
/-- A witness of MailboxCommands. -/
def wMailboxCommands7_L : State := (lookup (takenAt (withSlot (2 + 2 * 2 ^ 32 + 0x80 * 2 ^ 64) (withDesc withMap)) 0 1 1) 0 0x80 1 false (unitUe [5] 0x80)).1
/-- A witness of MailboxCommands. -/
def wMailboxCommands7_F : State := (fetchDesc ((lookup (takenAt (withSlot (2 + 2 * 2 ^ 32 + 0x80 * 2 ^ 64) (withDesc withMap)) 0 1 1) 0 0x80 1 false (unitUe [5] 0x80)).1) page0 0x80 0).1
/-- A witness of MailboxCommands. -/
def wMailboxCommands8_s : State := withSlot (2 + 2 * 2 ^ 32 + 0x81 * 2 ^ 64) (State.reset)
/-- A witness of MailboxCommands. -/
def wMailboxCommands9_s : State := withSlot (3 + 5 * 2 ^ 32 + 0x102 * 2 ^ 64 + 0x0504030201 * 2 ^ 192) (withMap)
/-- A witness of MailboxCommands. -/
def wMailboxCommands10_s : State := withSlot (4 + 5 * 2 ^ 16 + (6 + 16 * 2 ^ 16) * 2 ^ 32) (withSt .run)
/-- A witness of MailboxCommands. -/
def wMailboxCommands11_s : State := withSlot (5 + 3 * 2 ^ 9 + 5 * 2 ^ 16) (withSt .run)
/-- A witness of MailboxCommands. -/
def wMailboxCommands12_s : State := withSlot (6 + 2 * 2 ^ 32) (withMap (withManifest { mf0 with halted := true, seg := none }))
/-- A witness of MailboxCommands. -/
def wMailboxCommands12_m : Manifest := { mf0 with halted := true, seg := none }
/-- A witness of MailboxCommands. -/
def wMailboxCommands12_T : State := takenAt (withSlot (6 + 2 * 2 ^ 32) (withMap (withManifest { mf0 with halted := true, seg := none }))) 0 1 1
/-- A witness of MailboxCommands. -/
def wMailboxCommands13_s : State := withSlot (6 + 2 * 2 ^ 32) (withManifest mf0)
/-- A witness of MailboxCommands. -/
def wMailboxCommands14_s : State := withSlot (7 + 2 * 2 ^ 32) (withMap (withManifest { mf0 with halted := true, seg := none }))
/-- A witness of MailboxCommands. -/
def wMailboxCommands15_s : State := withSlot (7 + 2 * 2 ^ 32) (withMap (withManifest mf0))
/-- Mailbox commands: taken, with data, resumed and aborted: its hypotheses are met. -/
theorem witness_MailboxCommands :
    (∃ (s : State) (mb : Fin 16) (slot : Fin 512) (seqWord : BitVec 64), Takes s mb slot seqWord 1 ∧ cxlMode s = true ∧ earlierWrite s 33 = false) ∧
    (∃ (s : State) (mb : Fin 16) (slot : Fin 512) (seqWord : BitVec 64) (st : W16), slotIs s mb slot 1 = true ∧ mbOn s mb = true ∧ classify (s.mailbox mb) (seqWord.setWidth 16) = .dup (some st)) ∧
    (∃ (s : State) (mb : Fin 16) (slot : Fin 512), slotIs s mb slot 1 = true ∧ mbOn s mb = false) ∧
    (∃ (s : State) (mb : Fin 16) (slot : Fin 512) (seqWord : BitVec 64) (op : Nat), Takes s mb slot seqWord op ∧ knownOps.contains op = false) ∧
    (∃ (s : State) (mb : Fin 16) (slot : Fin 512) (seqWord : BitVec 64), Takes s mb slot seqWord 8 ∧ (s.mailbox mb).taken = [] ∧ streamBusy s 33 mb.val = false) ∧
    (∃ (s : State) (mb : Fin 16) (slot : Fin 512) (seqWord : BitVec 64), Takes s mb slot seqWord 8 ∧ (s.mailbox mb).taken ≠ [] ∧ ((s.mailbox mb).taken.all fun u => decide (u.kind = .invalidate)) = true) ∧
    (∃ (s : State) (mb : Fin 16) (slot : Fin 512) (seqWord : BitVec 64) (host : BitVec 1024) (ue : List (BitVec 23)) (cl : Fin 16) (ctx : Fin 16) (va : Nat) (x : Xlat) (desc : BitVec 1024) (rx : Xlat) (T : State) (L : State) (F : State), Takes s mb slot seqWord 2 ∧ cl = fin 16 (sArg0 (slotAfter s mb slot seqWord)) ∧ va = sArg1 (slotAfter s mb slot seqWord) ∧ va % 128 = 0 ∧ clusterAllowed s mb cl.val = true ∧ T = takenAt s mb slot seqWord ∧ ctx = mb ∧ bit (preg s (.cl cl) 0x200) 0 = true ∧ (lookup T mb va 1 false (unitUe ue va)).2 = .ok x ∧ L = (lookup T mb va 1 false (unitUe ue va)).1 ∧ (fetchDesc L x va host).2 = (desc, false) ∧ F = (fetchDesc L x va host).1 ∧ bit (preg F (.cl cl) 0x200) 0 = true ∧ descOk desc (fun id => coreAllowed T mb id) = true ∧ mFlagEn desc = false ∧ (lookup F ctx (mCompl desc) 2 false (unitUe ue (mCompl desc))).2 = .ok rx ∧ (cutFrom (lookup F ctx (mCompl desc) 2 false (unitUe ue (mCompl desc))).1 ctx desc (segLimit (lookup F ctx (mCompl desc) 2 false (unitUe ue (mCompl desc))).1 ctx desc) 0 (mTotal desc) ue).2.fail = none ∧ (mQueueOf s cl (mQueue desc)).length < 32) ∧
    (∃ (s : State) (mb : Fin 16) (slot : Fin 512) (seqWord : BitVec 64), Takes s mb slot seqWord 2 ∧ sArg1 (slotAfter s mb slot seqWord) % 128 ≠ 0) ∧
    (∃ (s : State) (mb : Fin 16) (slot : Fin 512) (seqWord : BitVec 64) (ue : List (BitVec 23)) (len : Nat) (va : Nat) (pa : Nat) (x : Xlat), Takes s mb slot seqWord 3 ∧ len = sArg0 (slotAfter s mb slot seqWord) % 128 ∧ va = sArg1 (slotAfter s mb slot seqWord) ∧ 1 ≤ len ∧ len ≤ 96 ∧ unitUe ue va = false ∧ (s.mailbox mb).taken = [] ∧ streamBusy s 33 mb.val = false ∧ lookupEnd s mb va 2 false = .ok x ∧ x.kind = 0 ∧ pa = x.phys va ∧ pa % 64 + len ≤ 64 ∧ pa < dmSize ∧ x.covers (va + len - 1) = true ∧ PlainLine s (lineOf false pa)) ∧
    (∃ (s : State) (mb : Fin 16) (slot : Fin 512) (seqWord : BitVec 64) (id : Fin 256) (len : Nat) (b : Fin 16), Takes s mb slot seqWord 4 ∧ id = sCore (slotAfter s mb slot seqWord) ∧ len = sArg0 (slotAfter s mb slot seqWord) / 2 ^ 16 % 128 ∧ b = fin 16 (sArg0 (slotAfter s mb slot seqWord)) ∧ 1 ≤ len ∧ len ≤ 96 ∧ coreAllowed s mb id = true ∧ (s.core id).st ≠ .reset ∧ (s.core id).st ≠ .fenced ∧ ((s.core id).berths.get b).st = .empty) ∧
    (∃ (s : State) (mb : Fin 16) (slot : Fin 512) (seqWord : BitVec 64) (id : Fin 256), Takes s mb slot seqWord 5 ∧ id = sCore (slotAfter s mb slot seqWord) ∧ coreAllowed s mb id = true ∧ (s.core id).st = .run ∧ (s.core id).waits = []) ∧
    (∃ (s : State) (mb : Fin 16) (slot : Fin 512) (seqWord : BitVec 64) (ue : List (BitVec 23)) (cl : Fin 16) (q : Fin 4) (i : Nat) (m : Manifest) (T : State), Takes s mb slot seqWord 6 ∧ cl = fin 16 (sArg0 (slotAfter s mb slot seqWord)) ∧ q = fin 4 (sArg0 (slotAfter s mb slot seqWord) / 16) ∧ clusterAllowed s mb cl.val = true ∧ haltedOf (mQueueOf s cl q) = some (i, m) ∧ T = takenAt s mb slot seqWord ∧ (cutFrom T m.ctx m.desc m.limit m.done (mTotal m.desc) ue).2.count ≠ 0) ∧
    (∃ (s : State) (mb : Fin 16) (slot : Fin 512) (seqWord : BitVec 64) (cl : Fin 16) (q : Fin 4), Takes s mb slot seqWord 6 ∧ cl = fin 16 (sArg0 (slotAfter s mb slot seqWord)) ∧ q = fin 4 (sArg0 (slotAfter s mb slot seqWord) / 16) ∧ clusterAllowed s mb cl.val = true ∧ haltedOf (mQueueOf s cl q) = none) ∧
    (∃ (s : State) (mb : Fin 16) (slot : Fin 512) (seqWord : BitVec 64) (cl : Fin 16) (q : Fin 4) (i : Nat) (m : Manifest) (pa : Nat), Takes s mb slot seqWord 7 ∧ cl = fin 16 (sArg0 (slotAfter s mb slot seqWord)) ∧ q = fin 4 (sArg0 (slotAfter s mb slot seqWord) / 16) ∧ clusterAllowed s mb cl.val = true ∧ haltedOf (mQueueOf s cl q) = some (i, m) ∧ ((mQueueOf s cl q).all fun x => x.ending.isNone) = true ∧ ((dropAt (mQueueOf s cl q) i).any fun x => decide (x.no = m.no)) = false ∧ streamBusy s (16 + cl.val) q.val = false ∧ (s.mailbox mb).taken = [] ∧ m.recX.kind = 0 ∧ pa = m.recX.phys (mCompl m.desc) ∧ pa < dmSize ∧ pa % 64 = 0 ∧ PlainLine s m.recLine) ∧
    (∃ (s : State) (mb : Fin 16) (slot : Fin 512) (seqWord : BitVec 64) (cl : Fin 16) (q : Fin 4), Takes s mb slot seqWord 7 ∧ cl = fin 16 (sArg0 (slotAfter s mb slot seqWord)) ∧ q = fin 4 (sArg0 (slotAfter s mb slot seqWord) / 16) ∧ clusterAllowed s mb cl.val = true ∧ haltedOf (mQueueOf s cl q) = none) :=
  ⟨⟨withSlot (1) (withLink .l0), 0, 1, 0x1, by decide +kernel⟩,
   ⟨wMailboxCommands2_s, 0, 1, 0x1, 4, by decide +kernel⟩,
   ⟨wMailboxCommands3_s, 0, 1, by decide +kernel⟩,
   ⟨withSlot (0x44) (State.reset), 0, 1, 0x1, 0x44, by decide +kernel⟩,
   ⟨withSlot (8) (State.reset), 0, 1, 0x1, by decide +kernel⟩,
   ⟨wMailboxCommands6_s, 0, 1, 0x1, by decide +kernel⟩,
   ⟨wMailboxCommands7_s, 0, 1, 0x1, 0, [5], 2, 0, 0x80, page0, fillDesc, page0, wMailboxCommands7_T, wMailboxCommands7_L, wMailboxCommands7_F, by refine ⟨?_, ?_, ?_, ?_, ?_, rfl, ?_, ?_, ?_, rfl, ?_, rfl, ?_, ?_, ?_, ?_, ?_, ?_⟩ <;> decide +kernel⟩,
   ⟨wMailboxCommands8_s, 0, 1, 0x1, by decide +kernel⟩,
   ⟨wMailboxCommands9_s, 0, 1, 0x1, [5], 5, 0x102, 0x2000102, page0, by decide +kernel⟩,
   ⟨wMailboxCommands10_s, 0, 1, 0x1, 5, 16, 6, by decide +kernel⟩,
   ⟨wMailboxCommands11_s, 0, 1, 0x1, 5, by decide +kernel⟩,
   ⟨wMailboxCommands12_s, 0, 1, 0x1, [5], 2, 0, 0, wMailboxCommands12_m, wMailboxCommands12_T, by refine ⟨?_, ?_, ?_, ?_, ?_, rfl, ?_⟩ <;> decide +kernel⟩,
   ⟨wMailboxCommands13_s, 0, 1, 0x1, 2, 0, by decide +kernel⟩,
   ⟨wMailboxCommands14_s, 0, 1, 0x1, 2, 0, 0, wMailboxCommands12_m, 0x2002000, by decide +kernel⟩,
   ⟨wMailboxCommands15_s, 0, 1, 0x1, 2, 0, by decide +kernel⟩⟩

/-- A witness of Translation. -/
def wTranslation1_s : State := withSlot (0x10 + 1 * 2 ^ 32 + 0x4000000 * 2 ^ 64 + 1 * 2 ^ 128 + 0x400004F * 2 ^ 192) (withMap)
/-- A witness of Translation. -/
def wTranslation2_s : State := withSlot (0x10 + 4 * 2 ^ 32 + 0x4000000 * 2 ^ 64 + 1 * 2 ^ 128 + 0x400004F * 2 ^ 192) (withMap)
/-- A witness of Translation. -/
def wTranslation3_s : State := withSlot (0x11 + 1 * 2 ^ 32) (State.reset)
/-- A witness of Translation. -/
def wTranslation8_s : State := { withCore 3 (fun c => { c with st := .run, slots := c.slots.set 2 { mapSlotReset with st := .valid, base := 0x2000000 } }) (withRegs [(.vt, 0x100, 1)]) with drains := [⟨0, 0, lastUnit, 0, .disable, true, []⟩] }
/-- A witness of Translation. -/
def wTranslation8_d : Drain := ⟨0, 0, lastUnit, 0, .disable, true, []⟩
/-- A witness of Translation. -/
def wTranslation9_s : State := { withMap with drains := [⟨0, 0, lastUnit, 0, .clear, true, []⟩] }
/-- A witness of Translation. -/
def wTranslation9_d : Drain := ⟨0, 0, lastUnit, 0, .clear, true, []⟩
/-- A witness of Translation. -/
def wTranslation10_s : State := withCore 3 (fun c => { c with st := .run, slots := c.slots.set 2 { mapSlotReset with st := .pending, req := 0x1234, reqRights := 3 } }) withMap
/-- A witness of Translation. -/
def wTranslation10_x : MapSlot := { mapSlotReset with st := .pending, req := 0x1234, reqRights := 3 }
/-- A witness of Translation. -/
def wTranslation11_s : State := withCore 3 (fun c => { c with st := .wait, waits := [.mapW 7 2], slots := c.slots.set 2 { mapSlotReset with st := .pending, req := 0x12345678, reqRights := 3 } }) withMap
/-- A witness of Translation. -/
def wTranslation11_x : MapSlot := { mapSlotReset with st := .pending, req := 0x12345678, reqRights := 3 }
/-- A witness of Translation. -/
def wTranslation12_s : State := { withManifest { mf0 with started := false } with drains := [⟨0, 0, lastUnit, 0, .clear, true, [(2, 0, 1)]⟩] }
/-- A witness of Translation. -/
def wTranslation12_d : Drain := ⟨0, 0, lastUnit, 0, .clear, true, [(2, 0, 1)]⟩
/-- Table writes, drains and mapping fills: its hypotheses are met. -/
theorem witness_Translation :
    (∃ (s : State) (mb : Fin 16) (slot : Fin 512) (seqWord : BitVec 64) (gen : W32) (va : Nat) (n : Nat) (big : Bool) (es : List W64), Takes s mb slot seqWord 0x10 ∧ gen = BitVec.ofNat 32 (sArg0 (slotAfter s mb slot seqWord)) ∧ va = sArg1 (slotAfter s mb slot seqWord) ∧ n = sArg2 (slotAfter s mb slot seqWord) % 16 ∧ big = decide (sArg2 (slotAfter s mb slot seqWord) / 256 % 2 = 1) ∧ es = tblEntries (sPayload (slotAfter s mb slot seqWord)) n ∧ tblReason s mb gen va n big es = none) ∧
    (∃ (s : State) (mb : Fin 16) (slot : Fin 512) (seqWord : BitVec 64) (gen : W32) (va : Nat) (n : Nat) (big : Bool) (es : List W64) (r : Nat), Takes s mb slot seqWord 0x10 ∧ gen = BitVec.ofNat 32 (sArg0 (slotAfter s mb slot seqWord)) ∧ va = sArg1 (slotAfter s mb slot seqWord) ∧ n = sArg2 (slotAfter s mb slot seqWord) % 16 ∧ big = decide (sArg2 (slotAfter s mb slot seqWord) / 256 % 2 = 1) ∧ es = tblEntries (sPayload (slotAfter s mb slot seqWord)) n ∧ tblReason s mb gen va n big es = some r) ∧
    (∃ (s : State) (mb : Fin 16) (slot : Fin 512) (seqWord : BitVec 64) (a : Nat) (b : Nat), Takes s mb slot seqWord 0x11 ∧ invRange (slotAfter s mb slot seqWord) = some (a, b) ∧ ((s.mailbox mb).taken.all fun u => decide (u.kind = .invalidate)) = true) ∧
    (∃ (s : State) (mb : Fin 16) (slot : Fin 512) (seqWord : BitVec 64), Takes s mb slot seqWord 0x11 ∧ invRange (slotAfter s mb slot seqWord) = none) ∧
    (∃ (s : State) (v : W32), Starts s .vt 0x104 8 v) ∧
    (∃ (s : State) (v : W32), Unlocked s .vt ∧ preg s .vt 0x100 &&& ~~~v = 0) ∧
    (∃ (s : State) (m : Fin 16), Unlocked s .vt ∧ preg s .vt 0x100 = one32 m.val) ∧
    (∃ (s : State) (i : Nat) (d : Drain), s.drains[i]? = some d ∧ drainReady s d = true ∧ d.begun = true ∧ d.hit = [] ∧ d.ending = .disable) ∧
    (∃ (s : State) (i : Nat) (d : Drain), s.drains[i]? = some d ∧ drainReady s d = true ∧ d.begun = true ∧ d.hit = [] ∧ d.ending = .clear ∧ ((s.drains.take i).any fun e => decide (e.ctx = d.ctx)) = false) ∧
    (∃ (s : State) (core : Fin 256) (slot : Fin 16) (ctx : Fin 16) (x : MapSlot) (e : Xlat), stopped s = false ∧ x = (s.core core).slots.get slot ∧ x.st = .pending ∧ ctx = fin 16 (ctxOfPart s (partOf s core)) ∧ draining s ctx.val = false ∧ (s.core core).waits = [] ∧ lookupEnd s ctx x.req.toNat x.reqRights false = .ok e) ∧
    (∃ (s : State) (core : Fin 256) (slot : Fin 16) (ctx : Fin 16) (x : MapSlot) (rd : BitVec 5), stopped s = false ∧ x = (s.core core).slots.get slot ∧ x.st = .pending ∧ ctx = fin 16 (ctxOfPart s (partOf s core)) ∧ draining s ctx.val = false ∧ (s.core core).waits = [.mapW rd slot] ∧ (s.core core).st = .wait ∧ lookupEnd s ctx x.req.toNat x.reqRights false = .notMapped) ∧
    (∃ (s : State) (i : Nat) (d : Drain) (m : Manifest), s.drains[i]? = some d ∧ drainReady s d = true ∧ d.begun = true ∧ d.ending = .clear ∧ d.hit = [(2, 0, m.no)] ∧ mQueueOf s 2 0 = [m] ∧ drainKind m d.ctx d.first d.last = .orphan ∧ bit m.desc 16 = false) :=
  ⟨⟨wTranslation1_s, 0, 1, 0x1, 1, 0x4000000, 1, false, [0x400004F], by decide +kernel⟩,
   ⟨wTranslation2_s, 0, 1, 0x1, 4, 0x4000000, 1, false, [0x400004F], 1, by decide +kernel⟩,
   ⟨wTranslation3_s, 0, 1, 0x1, 0, lastUnit, by decide +kernel⟩,
   ⟨withSlot (0x11) (State.reset), 0, 1, 0x1, by decide +kernel⟩,
   ⟨State.reset, 0x103, by decide +kernel⟩,
   ⟨withRegs [(.vt, 0x100, 1)], 5, by decide +kernel⟩,
   ⟨withRegs [(.vt, 0x100, 4)], 2, by decide +kernel⟩,
   ⟨wTranslation8_s, 0, wTranslation8_d, by decide +kernel⟩,
   ⟨wTranslation9_s, 0, wTranslation9_d, by decide +kernel⟩,
   ⟨wTranslation10_s, 3, 2, 0, wTranslation10_x, page0, by decide +kernel⟩,
   ⟨wTranslation11_s, 3, 2, 0, wTranslation11_x, 7, by decide +kernel⟩,
   ⟨wTranslation12_s, 0, wTranslation12_d, { mf0 with started := false }, by decide +kernel⟩⟩

/-- A witness of GlobalAccesses. -/
def wGlobalAccesses1_a : GAccess := ⟨.store 4, 0x40, false, 0x2000040, 0x1122, false, false, false, 2, 0x30⟩
/-- A witness of GlobalAccesses. -/
def wGlobalAccesses2_s : State := { withAccess (.load 7 4 false) false with dm := [(0x2000041, 9)] }
/-- A witness of GlobalAccesses. -/
def wGlobalAccesses2_a : GAccess := ⟨.load 7 4 false, 0x40, false, 0x2000040, 0x1122, false, false, false, 2, 0x30⟩
/-- A witness of GlobalAccesses. -/
def wGlobalAccesses3_s : State := withAccess (.load 7 4 false) true
/-- A witness of GlobalAccesses. -/
def wGlobalAccesses3_a : GAccess := ⟨.load 7 4 false, 0x40, true, 0x2000040, 0x1122, false, false, false, 2, 0x30⟩
/-- A global access of a core completes: its hypotheses are met. -/
theorem witness_GlobalAccesses :
    (∃ (s : State) (core : Fin 256) (i : Nat) (a : GAccess) (n : Nat), stopped s = false ∧ (s.core core).access[i]? = some a ∧ a.sent = false ∧ accessInOrder (s.core core) i a = true ∧ a.kind = .store n ∧ n ∈ [1, 2, 4, 8] ∧ a.host = false ∧ (s.cl (clusterOf core)).cc.enabled = false ∧ a.pa.toNat < dmSize ∧ a.pa.toNat % n = 0 ∧ PlainLine s (lineOf false a.pa.toNat) ∧ (s.core core).waits = []) ∧
    (∃ (s : State) (core : Fin 256) (i : Nat) (a : GAccess) (rd : BitVec 5) (n : Nat), stopped s = false ∧ (s.core core).access[i]? = some a ∧ a.sent = false ∧ accessInOrder (s.core core) i a = true ∧ a.kind = .load rd n false ∧ n ∈ [1, 2, 4, 8] ∧ a.host = false ∧ (s.cl (clusterOf core)).cc.enabled = false ∧ a.pa.toNat < dmSize ∧ a.pa.toNat % n = 0 ∧ PlainLine s (lineOf false a.pa.toNat) ∧ (s.core core).waits = []) ∧
    (∃ (s : State) (core : Fin 256) (i : Nat) (a : GAccess) (res : HostAnswer) (rd : BitVec 5) (n : Nat) (sg : Bool), stopped s = false ∧ (s.core core).access[i]? = some a ∧ a.sent = false ∧ accessInOrder (s.core core) i a = true ∧ a.kind = .load rd n sg ∧ a.host = true ∧ res.error = true ∧ (s.core core).st = .run ∧ (s.core core).waits = []) :=
  ⟨⟨withAccess (.store 4) false, 3, 0, wGlobalAccesses1_a, 4, by decide +kernel⟩,
   ⟨wGlobalAccesses2_s, 3, 0, wGlobalAccesses2_a, 7, 4, by decide +kernel⟩,
   ⟨wGlobalAccesses3_s, 3, 0, wGlobalAccesses3_a, ⟨0, false, true⟩, 7, 4, false, by decide +kernel⟩⟩

/-- A witness of ClusterCacheLines. -/
def wClusterCacheLines1_s : State := withCc { State.reset with dm := [(0x2000001, 9)] }
/-- A witness of ClusterCacheLines. -/
def wClusterCacheLines2_e : SLine := slGet (withCopy 5 line0 .e) line0
/-- A witness of ClusterCacheLines. -/
def wClusterCacheLines5_e : SLine := slGet (withCopy 2 line0 .s) line0
/-- A witness of ClusterCacheLines. -/
def wClusterCacheLines12_s : State := (withCc).setCl 2 { (withCc).cl 2 with cc := { ((withCc).cl 2).cc with misses := [⟨line0, [(2, none)], some ⟨.e, 5, 0, 0⟩⟩] } }
/-- A witness of ClusterCacheLines. -/
def wClusterCacheLines13_s : State := State.reset.setSlice (homeOf line0) { sliceReset with enabled := true, misses := [⟨line0, [(2, none)], none⟩] }
/-- A witness of ClusterCacheLines. -/
def wClusterCacheLines16_s : State := withCc (withCc (State.reset.setCl 5 { State.reset.cl 5 with cc := { (State.reset.cl 5).cc with misses := [⟨line0, [(5, none)], some ⟨.m, 5, 0, 0⟩⟩] } }))
/-- Lines of a cluster cache: missed, granted, filled, replaced, snooped: its hypotheses are met. -/
theorem witness_ClusterCacheLines :
    (∃ (s : State) (cl : Fin 16) (l : Line), (s.cl cl).cc.enabled = true ∧ ccLine s cl l = none ∧ ((s.cl cl).cc.misses.any fun m => decide (m.line = l)) = false ∧ (s.cl cl).cc.misses.length < 64 ∧ PlainLine s l ∧ (s.slice (homeOf l)).lines = []) ∧
    (∃ (s : State) (cl : Fin 16) (l : Line) (k : Fin 16) (e : SLine) (x : CLine), (s.cl cl).cc.enabled = true ∧ ccLine s cl l = none ∧ ((s.cl cl).cc.misses.any fun m => decide (m.line = l)) = false ∧ (s.cl cl).cc.misses.length < 64 ∧ HomeFree s l ∧ slLine s l = some e ∧ e.h = .none ∧ e.owned = true ∧ e.sharers = [k] ∧ ccLine s k l = some x ∧ x.st = .e) ∧
    (∃ (s : State) (cl : Fin 16) (l : Line), (s.cl cl).cc.enabled = true ∧ ccLine s cl l = none ∧ ((s.cl cl).cc.misses.any fun m => decide (m.line = l)) = false ∧ (s.cl cl).cc.misses.length < 64 ∧ PlainLine s l ∧ (s.slice (homeOf l)).lines = []) ∧
    (∃ (s : State) (cl : Fin 16) (l : Line) (k : Fin 16) (e : SLine) (x : CLine), (s.cl cl).cc.enabled = true ∧ ccLine s cl l = none ∧ ((s.cl cl).cc.misses.any fun m => decide (m.line = l)) = false ∧ (s.cl cl).cc.misses.length < 64 ∧ HomeFree s l ∧ slLine s l = some e ∧ e.h = .none ∧ e.owned = true ∧ e.sharers = [k] ∧ ccLine s k l = some x ∧ x.st = .e ∧ e.data = none ∧ ((setEntries (s.slice (homeOf l)) (slSetOf (lineKey l))).filter fun y => decide (y.1 ≠ lineKey l)) = []) ∧
    (∃ (s : State) (cl : Fin 16) (l : Line) (e : SLine) (x : CLine), (s.cl cl).cc.enabled = true ∧ ((s.cl cl).cc.misses.any fun m => decide (m.line = l)) = false ∧ (s.cl cl).cc.misses.length < 64 ∧ HomeFree s l ∧ slLine s l = some e ∧ e.h = .none ∧ e.owned = false ∧ e.sharers = [cl] ∧ ccLine s cl l = some x ∧ x.st = .s) ∧
    (∃ (s : State) (cl : Fin 16) (l : Line) (x : CLine), ccLine s cl l = some x ∧ x.st = .m ∧ x.poison = 0 ∧ (slGet s l).h = .none ∧ l.host = false ∧ (s.slice (homeOf l)).enabled = false ∧ fenced s (.mc (stackOf s (64 * l.num.toNat))) = false) ∧
    (∃ (s : State) (cl : Fin 16) (l : Line) (x : CLine), ccLine s cl l = some x ∧ (x.st = .e ∨ x.st = .f)) ∧
    (∃ (s : State) (cl : Fin 16) (l : Line) (x : CLine), ccLine s cl l = some x ∧ (x.st = .e ∨ x.st = .f)) ∧
    (∃ (s : State) (cl : Fin 16) (l : Line) (x : CLine), ccLine s cl l = some x ∧ x.st = .m ∧ x.poison = 0 ∧ l.host = false ∧ (s.slice (homeOf l)).enabled = false ∧ fenced s (.mc (stackOf s (64 * l.num.toNat))) = false) ∧
    (∃ (s : State) (cl : Fin 16) (l : Line) (x : CLine), ccLine s cl l = some x ∧ x.st ≠ .m) ∧
    (∃ (s : State) (cl : Fin 16) (l : Line) (x : CLine), ccLine s cl l = some x ∧ x.st = .m ∧ x.poison = 0 ∧ l.host = false ∧ (s.slice (homeOf l)).enabled = false ∧ fenced s (.mc (stackOf s (64 * l.num.toNat))) = false) ∧
    (∃ (s : State) (cl : Fin 16) (l : Line) (way : Fin 16) (ms : List (Fin 58 × Option (Fin 256))) (g : CLine), (s.cl cl).cc.enabled = true ∧ (s.cl cl).cc.misses = [⟨l, ms, some g⟩] ∧ ccLine s cl l = none ∧ (ccWays s cl).contains way.val = true ∧ ((s.cl cl).cc.lines.any fun e => decide (ccSetOf e.1 = ccSetOf (lineKey l))) = false ∧ (ms.all fun r => r.2.isNone) = true) ∧
    (∃ (s : State) (l : Line) (way : Fin 16) (ms : List (Fin 58 × Option (Fin 256))), l.host = false ∧ (s.slice (homeOf l)).enabled = true ∧ (s.slice (homeOf l)).misses = [⟨l, ms, none⟩] ∧ (s.slice (homeOf l)).lines = [] ∧ (slWays s (homeOf l)).contains way.val = true ∧ (ms.all fun r => r.2.isNone) = true) ∧
    (∃ (s : State) (cl : Fin 16) (l : Line) (x : CLine), ccLine s cl l = some x ∧ (x.st = .e ∨ x.st = .f)) ∧
    (∃ (s : State) (cl : Fin 16) (l : Line) (ms : List (Fin 58 × Option (Fin 256))) (g : CLine), (s.cl cl).cc.misses = [⟨l, ms, some g⟩] ∧ ccLine s cl l = none ∧ (s.slice (homeOf l)).retries = []) ∧
    (∃ (s : State) (cl : Fin 16) (l : Line), (s.cl cl).cc.enabled = true ∧ ccLine s cl l = none ∧ ((s.cl cl).cc.misses.any fun m => decide (m.line = l)) = false ∧ (s.cl cl).cc.misses.length < 64 ∧ l.host = false ∧ lineBusy s l = true ∧ (s.slice (homeOf l)).retries = []) :=
  ⟨⟨wClusterCacheLines1_s, 2, line0, by decide +kernel⟩,
   ⟨withCc (withCopy 5 line0 .e), 2, line0, 5, wClusterCacheLines2_e, ⟨.e, 0xABCD, 0, 0⟩, by decide +kernel⟩,
   ⟨withCc, 2, line0, by decide +kernel⟩,
   ⟨withCc (withCopy 5 line0 .e), 2, line0, 5, wClusterCacheLines2_e, ⟨.e, 0xABCD, 0, 0⟩, by decide +kernel⟩,
   ⟨withCc (withCopy 2 line0 .s), 2, line0, wClusterCacheLines5_e, ⟨.s, 0xABCD, 0, 0⟩, by decide +kernel⟩,
   ⟨withCopy 2 line0 .m, 2, line0, ⟨.m, 0xABCD, 0, 0⟩, by decide +kernel⟩,
   ⟨withCopy 2 line0 .e, 2, line0, ⟨.e, 0xABCD, 0, 0⟩, by decide +kernel⟩,
   ⟨withCopy 2 line0 .e, 2, line0, ⟨.e, 0xABCD, 0, 0⟩, by decide +kernel⟩,
   ⟨withCopy 2 line0 .m, 2, line0, ⟨.m, 0xABCD, 0, 0⟩, by decide +kernel⟩,
   ⟨withCopy 2 line0 .e, 2, line0, ⟨.e, 0xABCD, 0, 0⟩, by decide +kernel⟩,
   ⟨withCopy 2 line0 .m, 2, line0, ⟨.m, 0xABCD, 0, 0⟩, by decide +kernel⟩,
   ⟨wClusterCacheLines12_s, 2, line0, 3, [(2, none)], ⟨.e, 5, 0, 0⟩, by decide +kernel⟩,
   ⟨wClusterCacheLines13_s, line0, 3, [(2, none)], by decide +kernel⟩,
   ⟨withCopy 2 line0 .e, 2, line0, ⟨.e, 0xABCD, 0, 0⟩, by decide +kernel⟩,
   ⟨wClusterCacheLines12_s, 2, line0, [(2, none)], ⟨.e, 5, 0, 0⟩, by decide +kernel⟩,
   ⟨wClusterCacheLines16_s, 2, line0, by decide +kernel⟩⟩

/-- A witness of HomeAccesses. -/
def wHomeAccesses2_e : SLine := slGet (withCopy 2 line0 .m) line0
/-- A witness of HomeAccesses. -/
def wHomeAccesses4_s : State := { State.reset with dm := [(0x2000001, 9)] }
/-- A witness of HomeAccesses. -/
def wHomeAccesses5_s : State := State.reset.setSlice 4 { sliceReset with retries := [⟨line0, 17, 14, false⟩] }
/-- A witness of HomeAccesses. -/
def wHomeAccesses6_s : State := State.reset.setSlice 4 { sliceReset with retries := [⟨line0, 17, 14, true⟩] }
/-- Reads and writes that no cache keeps are served at home: its hypotheses are met. -/
theorem witness_HomeAccesses :
    (∃ (s : State) (l : Line), PlainLine s l) ∧
    (∃ (s : State) (l : Line) (k : Fin 16) (e : SLine) (x : CLine), HomeFree s l ∧ (s.slice (homeOf l)).enabled = false ∧ fenced s (.mc (stackOf s (64 * l.num.toNat))) = false ∧ slLine s l = some e ∧ e.h = .none ∧ e.owned = true ∧ e.sharers = [k] ∧ ccLine s k l = some x ∧ x.st = .m ∧ x.poison = 0) ∧
    (∃ (s : State) (l : Line), PlainLine s l) ∧
    (∃ (s : State) (l : Line) (mask : BitVec 64), PlainLine s l ∧ mask ≠ 0) ∧
    (∃ (s : State) (n : Fin 16) (l : Line) (master : Fin 58) (r : Retry), (s.slice n).retries = [r] ∧ r.line = l ∧ r.master = master ∧ r.escalated = false ∧ fld (preg s (.dc n) 0x10C) 0 4 ≤ (satAdd r.age 1).toNat) ∧
    (∃ (s : State) (n : Fin 16) (l : Line) (master : Fin 58) (r : Retry), (s.slice n).retries = [r] ∧ r.line = l ∧ r.master = master ∧ r.escalated = true) :=
  ⟨⟨State.reset, line0, by decide +kernel⟩,
   ⟨withCopy 2 line0 .m, line0, 2, wHomeAccesses2_e, ⟨.m, 0xABCD, 0, 0⟩, by decide +kernel⟩,
   ⟨State.reset, line0, by decide +kernel⟩,
   ⟨wHomeAccesses4_s, line0, 5, by decide +kernel⟩,
   ⟨wHomeAccesses5_s, 4, line0, 17, ⟨line0, 17, 14, false⟩, by decide +kernel⟩,
   ⟨wHomeAccesses6_s, 4, line0, 17, ⟨line0, 17, 14, true⟩, by decide +kernel⟩⟩

/-- A witness of CacheControl. -/
def wCacheControl4_s : State := State.reset.setSlice 2 { sliceReset with enabled := true }
/-- A witness of CacheControl. -/
def wCacheControl6_s : State := (withRegs [(.cl 2, 0x100, 2)]).setCl 2 { clusterReset with cc := { ccacheReset with clearing := some true, invalidated := false } }
/-- A witness of CacheControl. -/
def wCacheControl8_s : State := State.reset.setSlice 2 { sliceReset with invalidated := false }
/-- A witness of CacheControl. -/
def wCacheControl9_s : State := withRegs [(.cl 2, 0x100, 1)] (withCc (withCopy 2 line0 .m))
/-- A witness of CacheControl. -/
def wCacheControl10_s : State := (withRegs [(.dc 2, 0x100, 1)]).setSlice 2 { sliceReset with clearing := some true, invalidated := false }
/-- A witness of CacheControl. -/
def wCacheControl11_s : State := (withRegs [(.cl 2, 0x100, 3)]).setCl 2 { clusterReset with cc := { ccacheReset with enabled := true, clearing := some true, invalidated := false } }
/-- FLUSH, INV and the enable of a cache: its hypotheses are met. -/
theorem witness_CacheControl :
    (∃ (s : State) (cl : Fin 16) (v : W32), Starts s (.cl cl) 0x100 1 v ∧ bit v 2 = false ∧ bit v 0 = bit (preg s (.cl cl) 0x100) 0) ∧
    (∃ (s : State) (cl : Fin 16) (v : W32), Starts s (.cl cl) 0x100 2 v ∧ bit v 1 = false ∧ bit v 0 = bit (preg s (.cl cl) 0x100) 0 ∧ (s.cl cl).cc.enabled = false ∧ (s.cl cl).cc.clearing = none) ∧
    (∃ (s : State) (n : Fin 16) (v : W32), Starts s (.dc n) 0x100 0 v ∧ bit v 1 = false) ∧
    (∃ (s : State) (n : Fin 16) (v : W32), Starts s (.dc n) 0x100 1 v ∧ bit v 0 = false ∧ (s.slice n).enabled = true) ∧
    (∃ (s : State) (n : Fin 16) (v : W32), Starts s (.dc n) 0x100 1 v ∧ bit v 0 = false ∧ (s.slice n).enabled = false ∧ (s.slice n).clearing = none) ∧
    (∃ (s : State) (cl : Fin 16) (fl : Bool), (s.cl cl).cc.clearing = some fl ∧ (s.cl cl).cc.misses = [] ∧ (s.cl cl).cc.lines = [] ∧ (s.cl cl).cc.wayErr = [] ∧ 0 < fld (preg s (.cl cl) 0x10C) 0 8 ∧ bit (preg s (.cl cl) 8) 2 = false) ∧
    (∃ (s : State) (n : Fin 16) (v : W32), Unlocked s (.dc n) ∧ bit v 0 = true ∧ bit v 1 = fenced s (.dc n) ∧ bit v 2 = false ∧ enabled s (.dc n) = false ∧ (s.slice n).invalidated = true) ∧
    (∃ (s : State) (n : Fin 16) (v : W32), Unlocked s (.dc n) ∧ bit v 0 = true ∧ bit v 1 = fenced s (.dc n) ∧ bit v 2 = false ∧ enabled s (.dc n) = false ∧ (s.slice n).invalidated = false) ∧
    (∃ (s : State) (cl : Fin 16) (v : W32), Unlocked s (.cl cl) ∧ bit (preg s (.cl cl) 0x100) 0 = true ∧ bit v 0 = false ∧ bit v 1 = false ∧ bit v 2 = false ∧ ((s.cl cl).cc.lines.any fun e => decide (e.2.st = .m)) = true) ∧
    (∃ (s : State) (n : Fin 16) (fl : Bool), (s.slice n).clearing = some fl ∧ (s.slice n).misses = [] ∧ (s.slice n).binv = [] ∧ (s.slice n).lines = [] ∧ (s.slice n).wayErr = [] ∧ 0 < fld (preg s (.dc n) 0x108) 0 8 ∧ bit (preg s (.dc n) 8) 2 = false) ∧
    (∃ (s : State) (cl : Fin 16) (v : W32) (fl : Bool), Unlocked s (.cl cl) ∧ bit (preg s (.cl cl) 0x100) 0 = true ∧ bit v 0 = false ∧ bit v 1 = false ∧ bit v 2 = false ∧ (s.cl cl).cc.clearing = some fl ∧ (s.cl cl).cc.misses = [] ∧ (s.cl cl).cc.lines = [] ∧ (s.cl cl).cc.wayErr = [] ∧ 0 < fld (preg s (.cl cl) 0x10C) 0 8 ∧ bit (preg s (.cl cl) 8) 2 = false) :=
  ⟨⟨State.reset, 2, 2, by decide +kernel⟩,
   ⟨State.reset, 2, 4, by decide +kernel⟩,
   ⟨State.reset, 2, 1, by decide +kernel⟩,
   ⟨wCacheControl4_s, 2, 2, by decide +kernel⟩,
   ⟨State.reset, 2, 2, by decide +kernel⟩,
   ⟨wCacheControl6_s, 2, true, by decide +kernel⟩,
   ⟨State.reset, 2, 1, by decide +kernel⟩,
   ⟨wCacheControl8_s, 2, 1, by decide +kernel⟩,
   ⟨wCacheControl9_s, 2, 0, by decide +kernel⟩,
   ⟨wCacheControl10_s, 2, true, by decide +kernel⟩,
   ⟨wCacheControl11_s, 2, 0, true, by decide +kernel⟩⟩

/-- A witness of MemoryControllers. -/
def wMemoryControllers2_s : State := { State.reset with dm := [(0x2001, 5)] }
/-- A witness of MemoryControllers. -/
def wMemoryControllers4_s : State := { State.reset with poison := [(0x100, true)] }
/-- A witness of MemoryControllers. -/
def wMemoryControllers9_s : State := withPl (fun p => { p with cur := some (3, 8), chunk := true })
/-- A memory controller reads and writes granules with their poison: its hypotheses are met. -/
theorem witness_MemoryControllers :
    (∃ (s : State) (n : Fin 8) (g : BitVec 34), granInStack s n g.toNat = true ∧ stackRefuses s (g.toNat / 2) = false ∧ granPoison s g.toNat = false) ∧
    (∃ (s : State) (n : Fin 8) (g : BitVec 34), granInStack s n g.toNat = true ∧ stackRefuses s (g.toNat / 2) = false ∧ granPoison s g.toNat = false) ∧
    (∃ (s : State) (n : Fin 8) (g : BitVec 34), granInStack s n g.toNat = true ∧ stackRefuses s (g.toNat / 2) = false ∧ granPoison s g.toNat = false) ∧
    (∃ (s : State) (n : Fin 8) (g : BitVec 34), granInStack s n g.toNat = true ∧ stackRefuses s (g.toNat / 2) = false ∧ granPoison s g.toNat = true) ∧
    (∃ (s : State) (n : Fin 8) (g : BitVec 34), granInStack s n g.toNat = true ∧ stackRefuses s (g.toNat / 2) = false) ∧
    (∃ (s : State) (n : Fin 8) (g : BitVec 34) (m : BitVec 32), granInStack s n g.toNat = true ∧ stackRefuses s (g.toNat / 2) = false ∧ m ≠ 0 ∧ m ≠ BitVec.allOnes 32 ∧ granPoison s g.toNat = false) ∧
    (∃ (s : State) (n : Fin 8) (g : BitVec 34) (m : BitVec 32), granInStack s n g.toNat = true ∧ stackRefuses s (g.toNat / 2) = false ∧ m ≠ 0 ∧ m ≠ BitVec.allOnes 32 ∧ granPoison s g.toNat = true) ∧
    (∃ (s : State) (n : Fin 8) (k : Nat), fenced s (.mc n) = false ∧ stackGran s n (s.scrubs.get n).next.toNat = some k ∧ chunkBlocks s (32 * k) = false ∧ granPoison s k = false) ∧
    (∃ (s : State) (n : Fin 8) (k : Nat), stackGran s n (s.scrubs.get n).next.toNat = some k ∧ chunkBlocks s (32 * k) = true ∧ fenced s (.mc n) = false) ∧
    (∃ (s : State) (n : Fin 8) (g : BitVec 34), granInStack s n g.toNat = true ∧ stackRefuses s (g.toNat / 2) = false ∧ granPoison s g.toNat = true) ∧
    (∃ (s : State) (n : Fin 8) (g : BitVec 34), granInStack s n g.toNat = true ∧ stackRefuses s (g.toNat / 2) = true) ∧
    (∃ (s : State) (n : Fin 8) (k : Nat) (m : BitVec 32), fenced s (.mc n) = false ∧ stackGran s n (s.scrubs.get n).next.toNat = some k ∧ chunkBlocks s (32 * k) = false ∧ granPoison s k = false ∧ m ≠ BitVec.allOnes 32) :=
  ⟨⟨State.reset, 0, 0x100, by decide +kernel⟩,
   ⟨wMemoryControllers2_s, 0, 0x100, by decide +kernel⟩,
   ⟨State.reset, 0, 0x100, by decide +kernel⟩,
   ⟨wMemoryControllers4_s, 0, 0x100, by decide +kernel⟩,
   ⟨wMemoryControllers4_s, 0, 0x100, by decide +kernel⟩,
   ⟨State.reset, 0, 0x100, 1, by decide +kernel⟩,
   ⟨wMemoryControllers4_s, 0, 0x100, 1, by decide +kernel⟩,
   ⟨State.reset, 3, 3 * 2 ^ 21, by decide +kernel⟩,
   ⟨wMemoryControllers9_s, 3, 3 * 2 ^ 21, by decide +kernel⟩,
   ⟨wMemoryControllers4_s, 0, 0x100, by decide +kernel⟩,
   ⟨withRegs [(.mc 0, 8, 2)], 0, 0x100, by decide +kernel⟩,
   ⟨State.reset, 3, 3 * 2 ^ 21, 1, by decide +kernel⟩⟩

/-- A witness of LandingWindow. -/
def wLandingWindow5_s : State := { withRegs [(.lw, 8, 1), (.lw, 0x140, 0x80006402)] with lw := { landingReset with move := some (2, 100) } }
/-- A witness of LandingWindow. -/
def wLandingWindow6_s : State := { State.reset with lw := { landingReset with move := some (2, 100) } }
/-- A witness of LandingWindow. -/
def wLandingWindow7_s : State := State.reset.setSlice (homeOf line0) { sliceReset with binv := [⟨line0, true, true, [], none⟩] }
/-- A witness of LandingWindow. -/
def wLandingWindow9_s : State := { State.reset.setSlice (homeOf line0) { sliceReset with binv := [⟨line0, true, true, [], none⟩] } with frz := { frzReset with on := true } }
/-- The landing window is enabled, and its frames are moved: its hypotheses are met. -/
theorem witness_LandingWindow :
    (∃ (s : State) (v : W32), Unlocked s .lw ∧ bit v 0 = true ∧ bit v 1 = fenced s .lw ∧ bit v 2 = false ∧ enabled s .lw = false ∧ ((List.range 16).map (lwFrame s)).Nodup ∧ (∀ k : Fin 16, lwFrame s k.val < 287)) ∧
    (∃ (s : State) (v : W32), Unlocked s .lw ∧ bit v 0 = true ∧ bit v 1 = fenced s .lw ∧ bit v 2 = false ∧ enabled s .lw = false ∧ ¬((List.range 16).map (lwFrame s)).Nodup) ∧
    (∃ (s : State) (v : W32) (i : Nat) (f : Nat), Starts s .lw 0x140 31 v ∧ enabled s .lw = true ∧ i = fld v 0 4 ∧ f = fld v 8 9 ∧ f < 287 ∧ (∀ k : Fin 16, lwFrame s k.val ≠ f)) ∧
    (∃ (s : State) (v : W32) (i : Nat) (f : Nat), Starts s .lw 0x140 31 v ∧ f = fld v 8 9 ∧ i = fld v 0 4 ∧ f = 287 ∧ lwFrame s i ≠ f) ∧
    (∃ (s : State) (i : BitVec 4) (f : BitVec 9), s.lw.move = some (i, f) ∧ s.lw.scanned = false ∧ hostLines s (some (lwFrame s i.toNat)) = [] ∧ s.lw.heldReqs = [] ∧ s.lw.closing = false ∧ s.frz.on = false ∧ commitDue s (lwFrame s i.toNat) = false ∧ commitDue s f.toNat = false) ∧
    (∃ (s : State), s.lw.move ≠ none) ∧
    (∃ (s : State) (l : Line) (inv : Bool), (s.slice (homeOf l)).binv = [⟨l, inv, true, [], none⟩] ∧ s.frz.on = false) ∧
    (∃ (s : State) (l : Line) (inv : Bool), (s.slice (homeOf l)).binv = [⟨l, inv, true, [], none⟩] ∧ s.frz.on = false ∧ l.host = false ∧ (s.slice (homeOf l)).enabled = false ∧ fenced s (.mc (stackOf s (64 * l.num.toNat))) = false) ∧
    (∃ (s : State) (l : Line) (inv : Bool), (s.slice (homeOf l)).binv = [⟨l, inv, true, [], none⟩] ∧ s.frz.on = true) :=
  ⟨⟨State.reset, 1, by decide +kernel⟩,
   ⟨withRegs [(.lw, 0x100, 1)], 1, by decide +kernel⟩,
   ⟨withRegs [(.lw, 8, 1)], 0x80006402, 2, 100, by decide +kernel⟩,
   ⟨withRegs [(.lw, 8, 1)], 0x80011F02, 2, 287, by decide +kernel⟩,
   ⟨wLandingWindow5_s, 2, 100, by decide +kernel⟩,
   ⟨wLandingWindow6_s, by decide +kernel⟩,
   ⟨wLandingWindow7_s, line0, true, by decide +kernel⟩,
   ⟨wLandingWindow7_s, line0, true, by decide +kernel⟩,
   ⟨wLandingWindow9_s, line0, true, by decide +kernel⟩⟩

/-- A witness of HostSide. -/
def wHostSide1_s : State := withHost { State.reset with dm := [(0x2000001, 9)] }
/-- A witness of HostSide. -/
def wHostSide6_s : State := { withRegs [(.ep, 0x14, 0x80), (.ep, 0x100, 0x40)] with cxl := { cxlReset with link := .l0 } }
/-- A witness of HostSide. -/
def wHostSide7_s : State := { withRate with cxl := { cxlReset with link := .l0 } }
/-- A witness of HostSide. -/
def wHostSide8_s : State := setSl { withRate with cxl := { cxlReset with link := .l0 } } lineH { noLine with data := some 0x55, cxl := some .m, dirty := true }
/-- A witness of HostSide. -/
def wHostSide8_e : SLine := { noLine with data := some 0x55, cxl := some .m, dirty := true }
/-- A witness of HostSide. -/
def wHostSide12_s : State := { State.reset with frz := { frzReset with on := true } }
/-- CXL.mem requests and snoops of the host: its hypotheses are met. -/
theorem witness_HostSide :
    (∃ (s : State) (hpa : BitVec 64) (o : Nat) (l : Line), cxlMode s = true ∧ s.frz.on = false ∧ s.lw.move = none ∧ windowOff s hpa.toNat = some o ∧ l = windowLine s o ∧ PlainLine s l ∧ (s.slice (homeOf l)).lines = [] ∧ (s.slice (homeOf l)).waiting = []) ∧
    (∃ (s : State) (hpa : BitVec 64) (o : Nat) (l : Line), cxlMode s = true ∧ s.frz.on = false ∧ s.lw.move = none ∧ windowOff s hpa.toNat = some o ∧ l = windowLine s o ∧ PlainLine s l ∧ (s.slice (homeOf l)).lines = [] ∧ (s.slice (homeOf l)).waiting = []) ∧
    (∃ (s : State) (hpa : BitVec 64) (o : Nat) (l : Line), cxlMode s = true ∧ s.frz.on = false ∧ s.lw.move = none ∧ windowOff s hpa.toNat = some o ∧ l = windowLine s o ∧ PlainLine s l ∧ (s.slice (homeOf l)).lines = [] ∧ (s.slice (homeOf l)).waiting = []) ∧
    (∃ (s : State) (hpa : BitVec 64) (o : Nat) (l : Line), cxlMode s = true ∧ s.frz.on = false ∧ s.lw.move = none ∧ windowOff s hpa.toNat = some o ∧ l = windowLine s o ∧ PlainLine s l ∧ (s.slice (homeOf l)).waiting = []) ∧
    (∃ (s : State) (hpa : BitVec 64) (o : Nat) (l : Line), cxlMode s = true ∧ s.frz.on = false ∧ s.lw.move = none ∧ windowOff s hpa.toNat = some o ∧ l = windowLine s o ∧ PlainLine s l ∧ (s.slice (homeOf l)).waiting = []) ∧
    (∃ (s : State) (hpa : BitVec 64), cxlMode s = true ∧ s.frz.on = false ∧ windowOff s hpa.toNat = none ∧ bit (preg s .ep 0x14) 7 = true) ∧
    (∃ (s : State) (l : Line), l.host = true ∧ cxlMode s = true ∧ (slGet s l).cxl = none) ∧
    (∃ (s : State) (l : Line) (e : SLine) (d : BitVec 512), l.host = true ∧ cxlMode s = true ∧ slLine s l = some e ∧ e.cxl = some .m ∧ e.data = some d ∧ e.dirty = true ∧ e.owned = false ∧ e.fwd = none) ∧
    (∃ (s : State) (l : Line) (e : SLine) (d : BitVec 512), l.host = true ∧ cxlMode s = true ∧ slLine s l = some e ∧ e.cxl = some .m ∧ e.data = some d ∧ e.sharers = []) ∧
    (∃ (s : State) (l : Line) (e : SLine) (d : BitVec 512), l.host = true ∧ cxlMode s = true ∧ slLine s l = some e ∧ e.cxl = some .m ∧ e.data = some d ∧ e.dirty = true ∧ e.owned = false) ∧
    (∃ (s : State), s.frz.on = false ∧ (∀ n : Fin 16, (s.slice n).lines = [] ∧ (s.slice n).misses = []) ∧ s.cxl.d2h = [] ∧ s.cxl.wq = []) ∧
    (∃ (s : State), s.frz.on = true) :=
  ⟨⟨wHostSide1_s, 0x2000000, 0x2000000, line0, by decide +kernel⟩,
   ⟨wHostSide1_s, 0x2000000, 0x2000000, line0, by decide +kernel⟩,
   ⟨wHostSide1_s, 0x2000000, 0x2000000, line0, by decide +kernel⟩,
   ⟨wHostSide1_s, 0x2000000, 0x2000000, line0, by decide +kernel⟩,
   ⟨wHostSide1_s, 0x2000000, 0x2000000, line0, by decide +kernel⟩,
   ⟨wHostSide6_s, 0x40, by decide +kernel⟩,
   ⟨wHostSide7_s, lineH, by decide +kernel⟩,
   ⟨wHostSide8_s, lineH, wHostSide8_e, 0x55, by decide +kernel⟩,
   ⟨wHostSide8_s, lineH, wHostSide8_e, 0x55, by decide +kernel⟩,
   ⟨wHostSide8_s, lineH, wHostSide8_e, 0x55, by decide +kernel⟩,
   ⟨State.reset, by decide +kernel⟩,
   ⟨wHostSide12_s, by decide +kernel⟩⟩

/-- A witness of LinkStates. -/
def wLinkStates1_i : LinkInfo := ⟨8, 3, true, true, false, false⟩
/-- The CXL link comes up, replays, recovers and is lost: its hypotheses are met. -/
theorem witness_LinkStates :
    (∃ (s : State) (i : LinkInfo), s.cxl.link = .down ∧ mayTrain s = true ∧ linkInfoOk i = true) ∧
    (∃ (s : State), s.cxl.link = .down ∧ mayTrain s = true) ∧
    (∃ (s : State), s.cxl.link = .l0) ∧
    (∃ (s : State), s.cxl.link ≠ .down ∧ s.cxl.link ≠ .recovery) ∧
    (∃ (s : State), (s.cxl.link = .replay ∨ s.cxl.link = .recovery)) ∧
    (∃ (s : State), s.cxl.link ≠ .down ∧ s.frz.on = false) :=
  ⟨⟨withTrain, wLinkStates1_i, by decide +kernel⟩,
   ⟨withTrain, by decide +kernel⟩,
   ⟨withWr, by decide +kernel⟩,
   ⟨withWr, by decide +kernel⟩,
   ⟨withLink .replay, by decide +kernel⟩,
   ⟨withWr, by decide +kernel⟩⟩

/-- A witness of LinkPower. -/
def wLinkPower1_s : State := withCxl fun c => { c with link := .l0, l1En := true }
/-- A witness of LinkPower. -/
def wLinkPower4_s : State := withCxl fun c => { c with link := .l0, l0pOk := true }
/-- A witness of LinkPower. -/
def wLinkPower5_s : State := withRegs [(.ep, 0x100, 0x400)] (withCxl fun c => { c with link := .l0, l0pOk := true })
/-- L1 and L0p of the CXL link: its hypotheses are met. -/
theorem witness_LinkPower :
    (∃ (s : State), linkIdle s = true ∧ s.cxl.l1En = true ∧ fld (preg s .ep 0x108) 0 16 ≠ 0) ∧
    (∃ (s : State), s.cxl.link = .l1) ∧
    (∃ (s : State), l0pOn s = true ∧ atX8 s = false) ∧
    (∃ (s : State), l0pOn s = true ∧ atX8 s = true) ∧
    (∃ (s : State), l0pOn s = true) :=
  ⟨⟨wLinkPower1_s, by decide +kernel⟩,
   ⟨withLink .l1, by decide +kernel⟩,
   ⟨wLinkPower4_s, by decide +kernel⟩,
   ⟨wLinkPower5_s, by decide +kernel⟩,
   ⟨wLinkPower4_s, by decide +kernel⟩⟩

/-- A witness of HostAnswers. -/
def wHostAnswers1_d : D2h := ⟨5, 0x40, 33, 0, some wr0, false⟩
/-- A witness of HostAnswers. -/
def wHostAnswers2_d : D2h := ⟨2, 0x40, 18, 0, some wr1, false⟩
/-- A witness of HostAnswers. -/
def wHostAnswers7_s : State := withCxl (fun c => { c with ctoDis := true }) withWr
/-- Answers and timeouts of CXL.cache requests: its hypotheses are met. -/
theorem witness_HostAnswers :
    (∃ (s : State) (i : Nat) (d : D2h) (w : HeldWrite) (res : HostAnswer), s.cxl.d2h[i]? = some d ∧ d.w = some w ∧ d.op ≠ 2 ∧ res.error = false ∧ s.cxl.wq = [] ∧ s.cxl.msixQ = [] ∧ s.cxl.wbWaiting = false) ∧
    (∃ (s : State) (i : Nat) (d : D2h) (w : HeldWrite) (res : HostAnswer) (l : Line), s.cxl.d2h[i]? = some d ∧ d.w = some w ∧ d.op = 2 ∧ res.error = false ∧ l = lineOf true w.addr.toNat ∧ (s.slice (homeOf l)).lines = [] ∧ (s.slice (homeOf l)).enabled = true ∧ s.cxl.disCache = false ∧ slWays s (homeOf l) ≠ [] ∧ s.cxl.wq = [] ∧ s.cxl.msixQ = [] ∧ s.cxl.wbWaiting = false) ∧
    (∃ (s : State) (i : Nat) (d : D2h) (w : HeldWrite) (res : HostAnswer) (k : W16), s.cxl.d2h[i]? = some d ∧ d.w = some w ∧ w.response = some k ∧ res.error = true ∧ s.cxl.wq = [] ∧ s.cxl.msixQ = [] ∧ s.cxl.wbWaiting = false) ∧
    (∃ (s : State) (i : Nat) (k : Nat) (d : D2h) (a : GAccess) (rd : BitVec 5) (n : Nat) (res : HostAnswer), s.cxl.d2h[i]? = some d ∧ d.w = none ∧ d2hAccess s d = some (k, a) ∧ a.sent = false ∧ s.frz.on = false ∧ stopped s = false ∧ accessInOrder (s.core d.core) k a = true ∧ a.kind = .load rd n false ∧ res.error = true ∧ (s.core d.core).st = .run ∧ (s.core d.core).waits = []) ∧
    (∃ (s : State) (i : Nat) (d : D2h) (w : HeldWrite) (k : W16), s.cxl.ctoDis = false ∧ s.cxl.d2h[i]? = some d ∧ d.w = some w ∧ w.response = some k ∧ s.cxl.wq = [] ∧ s.cxl.msixQ = [] ∧ s.cxl.wbWaiting = false) ∧
    (∃ (s : State) (i : Nat) (k : Nat) (d : D2h) (a : GAccess) (rd : BitVec 5) (n : Nat), s.cxl.ctoDis = false ∧ s.cxl.d2h[i]? = some d ∧ d.w = none ∧ d2hAccess s d = some (k, a) ∧ a.kind = .load rd n false ∧ (s.core d.core).st = .run ∧ (s.core d.core).waits = [] ∧ s.cxl.wq = [] ∧ s.cxl.msixQ = [] ∧ s.cxl.wbWaiting = false) ∧
    (∃ (s : State), s.cxl.ctoDis = true) :=
  ⟨⟨withWr, 0, wHostAnswers1_d, wr0, ⟨0, false, false⟩, by decide +kernel⟩,
   ⟨withOwn, 0, wHostAnswers2_d, wr1, ⟨0xAABBCCDDEEFF, false, false⟩, lineOf true 0x1002, by decide +kernel⟩,
   ⟨withWr, 0, wHostAnswers1_d, wr0, ⟨0, false, true⟩, 4, by decide +kernel⟩,
   ⟨withRd, 0, 0, rd0, acc0, 7, 4, ⟨0, false, true⟩, by decide +kernel⟩,
   ⟨withWr, 0, wHostAnswers1_d, wr0, 4, by decide +kernel⟩,
   ⟨withRd, 0, 0, rd0, acc0, 7, 4, by decide +kernel⟩,
   ⟨wHostAnswers7_s, by decide +kernel⟩⟩

/-- A witness of PeerAperture. -/
def wPeerAperture1_s : State := withRegs [(.ep, 8, 1), (.ep, 0x200, 0x10001), (.ep, 0x204, 2), (.ep, 0x400, 0x10007)] (withCxl fun c => { c with link := .l0, memSpace := true })
/-- A witness of PeerAperture. -/
def wPeerAperture3_s : State := withCxl fun c => { c with link := .l0, memSpace := true }
/-- A witness of PeerAperture. -/
def wPeerAperture5_s : State := withRegs [(.ep, 8, 1), (.ep, 0x200, 0x10001), (.ep, 0x204, 2), (.ep, 0x400, 0x10007)] ((withCxl fun c => { c with link := .l0, memSpace := true, inbound := [⟨7, false, 0x8000104, [9]⟩] }).setSlice (homeOf (lineOf false 0x8000104)) { sliceReset with binv := [⟨lineOf false 0x8000104, true, true, [], none⟩] })
/-- Writes of peers through BAR2, and requests answered UR: its hypotheses are met. -/
theorem witness_PeerAperture :
    (∃ (s : State) (q : W16) (off : BitVec 32) (bytes : List Byte), s.cxl.link ≠ .down ∧ memClosed s = false ∧ s.cxl.inbound = [] ∧ s.frz.on = false ∧ enabled s .ep = true ∧ bit (preg s .ep (0x200 + 8 * (off.toNat / 2 ^ 26))) 0 = true ∧ winAllows s (off.toNat / 2 ^ 26) q = true ∧ 1 ≤ bytes.length ∧ off.toNat % 64 + bytes.length ≤ 64 ∧ (fld (preg s .ep (0x204 + 8 * (off.toNat / 2 ^ 26))) 0 13 * 2 ^ 26 + off.toNat % 2 ^ 26) < dmSize ∧ PlainLine s (lineOf false (fld (preg s .ep (0x204 + 8 * (off.toNat / 2 ^ 26))) 0 13 * 2 ^ 26 + off.toNat % 2 ^ 26))) ∧
    (∃ (s : State) (q : W16) (off : BitVec 32), s.cxl.link ≠ .down ∧ memClosed s = false ∧ s.frz.on = false ∧ enabled s .ep = true ∧ bit (preg s .ep (0x200 + 8 * (off.toNat / 2 ^ 26))) 0 = true ∧ winAllows s (off.toNat / 2 ^ 26) q = false) ∧
    (∃ (s : State) (off : BitVec 32), s.cxl.link ≠ .down ∧ memClosed s = false ∧ (s.frz.on = true ∨ enabled s .ep = false ∨ bit (preg s .ep (0x200 + 8 * (off.toNat / 2 ^ 26))) 0 = false)) ∧
    (∃ (s : State) (c : Fin 7), s.cxl.link ≠ .down ∧ c.val ≠ 0 ∧ (c.val ≠ 5 ∨ memClosed s = true)) ∧
    (∃ (s : State) (q : W16) (off : BitVec 32) (w : Inbound) (pa : Nat), s.cxl.link ≠ .down ∧ memClosed s = false ∧ s.frz.on = false ∧ enabled s .ep = true ∧ bit (preg s .ep (0x200 + 8 * (off.toNat / 2 ^ 26))) 0 = true ∧ winAllows s (off.toNat / 2 ^ 26) q = true ∧ s.cxl.inbound = [w] ∧ w.requester = q ∧ w.relaxed = false ∧ w.bytes ≠ [] ∧ biOn s (lineOf false w.addr.toNat) = true ∧ (s.slice (homeOf (lineOf false w.addr.toNat))).retries = [] ∧ pa = fld (preg s .ep (0x204 + 8 * (off.toNat / 2 ^ 26))) 0 13 * 2 ^ 26 + off.toNat % 2 ^ 26) :=
  ⟨⟨wPeerAperture1_s, 7, 0x104, [1, 2, 3], by decide +kernel⟩,
   ⟨wPeerAperture1_s, 8, 0x104, by decide +kernel⟩,
   ⟨wPeerAperture3_s, 0x104, by decide +kernel⟩,
   ⟨withLink .l0, 5, by decide +kernel⟩,
   ⟨wPeerAperture5_s, 7, 0x104, ⟨7, false, 0x8000104, [9]⟩, 0x8000104, by decide +kernel⟩⟩

/-- A witness of ConfigSpace. -/
def wConfigSpace2_s : State := withCxl fun c => { c with link := .l0, memEn := true }
/-- A witness of ConfigSpace. -/
def wConfigSpace10_s : State := withRegs [(.ep, 0xA00, 8)] (withCxl fun c => { c with link := .l0, msixEn := true })
/-- A witness of ConfigSpace. -/
def wConfigSpace12_s : State := withCxl (fun c => { c with memSpace := true, msixEn := true, inta := false }) (withRegs [(.fm, 8, 1), (.ep, 0xA00, 8)] (withLink .l0))
/-- A witness of ConfigSpace. -/
def wConfigSpace13_s : State := withCxl fun c => { c with link := .l0, flr := true }
/-- A witness of ConfigSpace. -/
def wConfigSpace14_s : State := withCxl fun c => { c with flr := true }
/-- Power state, completion timeout, DOE, MSI-X and the function-level reset: its hypotheses are met. -/
theorem witness_ConfigSpace :
    (∃ (s : State) (b : Bool), s.cxl.link ≠ .down ∧ s.cxl.flr = false ∧ (b = false ∨ (s.cxl.cacheEn = false ∧ s.cxl.memEn = false))) ∧
    (∃ (s : State), s.cxl.link ≠ .down ∧ s.cxl.flr = false ∧ (s.cxl.cacheEn = true ∨ s.cxl.memEn = true)) ∧
    (∃ (s : State) (v : BitVec 4), s.cxl.link ≠ .down ∧ s.cxl.flr = false ∧ (ctoRange v.toNat).isSome = true ∧ (s.cxl.ctoDis = true ∨ linkBudget s ≤ ctoEff { s.cxl with ctoVal := v })) ∧
    (∃ (s : State) (v : BitVec 4), s.cxl.link ≠ .down ∧ s.cxl.flr = false ∧ (ctoRange v.toNat).isSome = true ∧ s.cxl.ctoDis = false ∧ ctoEff { s.cxl with ctoVal := v } < linkBudget s) ∧
    (∃ (s : State), s.cxl.link ≠ .down ∧ s.cxl.flr = false) ∧
    (∃ (s : State) (v : W32), Unlocked s .ep ∧ 100 ≤ fld v 0 16 ∧ (s.cxl.ctoDis = true ∨ fld v 0 16 ≤ ctoEff s.cxl)) ∧
    (∃ (s : State) (v : W32), Unlocked s .ep ∧ 100 ≤ fld v 0 16 ∧ s.cxl.ctoDis = false ∧ ctoEff s.cxl < fld v 0 16) ∧
    (∃ (s : State), s.cxl.link ≠ .down ∧ s.cxl.flr = false) ∧
    (∃ (s : State) (vendor : W16) (type : Byte), s.cxl.link ≠ .down ∧ s.cxl.flr = false ∧ ¬(vendor.toNat = 1 ∧ type.toNat = 0) ∧ ¬(vendor.toNat = 0x1E98 ∧ type.toNat = 2)) ∧
    (∃ (s : State) (v : Fin 32) (x : W32), Unlocked s .ep ∧ bit (preg s .ep 0xA00) v.val = true ∧ s.cxl.msixEn = true ∧ s.cxl.funcMask = false ∧ s.cxl.d3hot = false ∧ s.cxl.link ≠ .down ∧ bit x 0 = false) ∧
    (∃ (s : State) (x : W32), Unlocked s .ep ∧ bit x 0 = true) ∧
    (∃ (s : State), s.cxl.link ≠ .down ∧ s.cxl.flr = false) ∧
    (∃ (s : State), s.cxl.link ≠ .down ∧ s.cxl.flr = true) ∧
    (∃ (s : State), s.cxl.flr = true) :=
  ⟨⟨withLink .l0, true, by decide +kernel⟩,
   ⟨wConfigSpace2_s, by decide +kernel⟩,
   ⟨withLink .l0, 5, by decide +kernel⟩,
   ⟨withLink .l0, 1, by decide +kernel⟩,
   ⟨withLink .l0, by decide +kernel⟩,
   ⟨State.reset, 0x7D1, by decide +kernel⟩,
   ⟨State.reset, 0xFFFF, by decide +kernel⟩,
   ⟨withLink .l0, by decide +kernel⟩,
   ⟨withLink .l0, 0x1E98, 3, by decide +kernel⟩,
   ⟨wConfigSpace10_s, 3, 0, by decide +kernel⟩,
   ⟨wConfigSpace10_s, 1, by decide +kernel⟩,
   ⟨wConfigSpace12_s, by decide +kernel⟩,
   ⟨wConfigSpace13_s, by decide +kernel⟩,
   ⟨wConfigSpace14_s, by decide +kernel⟩⟩

/-- A witness of FreezeAndDecoder. -/
def wFreezeAndDecoder1_s : State := withCxl fun c => { c with memEn := true }
/-- A witness of FreezeAndDecoder. -/
def wFreezeAndDecoder4_s : State := withRegs [(.ep, 0x120, 0x104)] (State.reset.setSlice 0 { sliceReset with binv := [⟨line0, true, true, [], none⟩] })
/-- A witness of FreezeAndDecoder. -/
def wFreezeAndDecoder5_s : State := withCxl (fun c => { c with wq := [wr0] })
/-- A witness of FreezeAndDecoder. -/
def wFreezeAndDecoder6_s : State := withLink .l0 { State.reset with frz := { frzReset with on := true, cause := 2, held := [wr0], cores := 8 } }
/-- A witness of FreezeAndDecoder. -/
def wFreezeAndDecoder7_s : State := { State.reset with frz := { frzReset with on := true, cause := 2, held := [wr0], cores := 8 } }
/-- A witness of FreezeAndDecoder. -/
def wFreezeAndDecoder8_s : State := withLink .l0 { State.reset with frz := { frzReset with on := true, cause := 2, held := [wr0] } }
/-- The HDM decoder, and the containment freeze: its hypotheses are met. -/
theorem witness_FreezeAndDecoder :
    (∃ (s : State) (v : W32), Starts s .ep 0x120 0 v ∧ bit v 1 = false ∧ bit (preg s .ep 0x120) 8 = false ∧ bit v 2 = true ∧ s.cxl.memEn = true) ∧
    (∃ (s : State) (v : W32), Starts s .ep 0x120 0 v ∧ bit v 1 = false ∧ bit (preg s .ep 0x120) 8 = false ∧ (bit v 2 = false ∨ s.cxl.memEn = false)) ∧
    (∃ (s : State) (v : W32), Starts s .ep 0x120 1 v ∧ bit v 0 = false ∧ biTotal s = 0) ∧
    (∃ (s : State) (v : W32), Starts s .ep 0x120 1 v ∧ bit v 0 = false ∧ biTotal s ≠ 0) ∧
    (∃ (s : State) (v : W32), Starts s .ep 0x124 0 v ∧ bit v 1 = false ∧ s.frz.on = false) ∧
    (∃ (s : State) (v : W32), Starts s .ep 0x124 1 v ∧ bit v 0 = false ∧ s.frz.on = true ∧ linkL0 s = true ∧ s.fc.safe = false) ∧
    (∃ (s : State) (v : W32), Starts s .ep 0x124 1 v ∧ bit v 0 = false ∧ s.frz.on = true ∧ (linkL0 s = false ∨ s.fc.safe = true)) ∧
    (∃ (s : State) (v : W32), Starts s .ep 0x124 1 v ∧ bit v 0 = false ∧ s.frz.on = true) :=
  ⟨⟨wFreezeAndDecoder1_s, 5, by decide +kernel⟩,
   ⟨State.reset, 5, by decide +kernel⟩,
   ⟨withRegs [(.ep, 0x120, 0x104)], 6, by decide +kernel⟩,
   ⟨wFreezeAndDecoder4_s, 6, by decide +kernel⟩,
   ⟨wFreezeAndDecoder5_s, 1, by decide +kernel⟩,
   ⟨wFreezeAndDecoder6_s, 2, by decide +kernel⟩,
   ⟨wFreezeAndDecoder7_s, 2, by decide +kernel⟩,
   ⟨wFreezeAndDecoder8_s, 2, by decide +kernel⟩⟩

/-- A witness of PortBringUp. -/
def wPortBringUp2_s : State := withUp 2 (fun p => { p with txq := [tx0] })
/-- A witness of PortBringUp. -/
def wPortBringUp3_s : State := withPort 2 (fun p => { p with st := .detect }) (withRegs [(.xl 2, 8, 1)])
/-- A witness of PortBringUp. -/
def wPortBringUp4_s : State := withPort 2 (fun p => { p with st := .train }) (withRegs [(.xl 2, 8, 1)])
/-- A witness of PortBringUp. -/
def wPortBringUp6_s : State := withPort 2 (fun p => { p with st := .ident, ident0 := true, ident1 := true }) (withRegs [(.xl 2, 8, 1)])
/-- A witness of PortBringUp. -/
def wPortBringUp7_s : State := withPort 2 (fun p => { p with st := .probe, split := #v[8, 8, 8], win := [(4, some 9)] }) (withRegs [(.xl 2, 8, 1)])
/-- A witness of PortBringUp. -/
def wPortBringUp9_s : State := withPort 2 (fun p => { p with st := .failed }) (withRegs [(.xl 2, 8, 1)])
/-- A witness of PortBringUp. -/
def wPortBringUp10_s : State := withPort 2 (fun p => { p with st := .ident }) (withRegs [(.xl 2, 8, 1)])
/-- A witness of PortBringUp. -/
def wPortBringUp10_w : BitVec 128 := BitVec.ofNat 128 (9 + 7 * 2 ^ 4 + 3 * 2 ^ 12 + 8 * 2 ^ 15 + 8 * 2 ^ 21 + 16 * 2 ^ 27)
/-- A witness of PortBringUp. -/
def wPortBringUp18_s : State := withUp 2 (fun p => { p with win := [(4, some 9)] })
/-- A witness of PortBringUp. -/
def wPortBringUp20_s : State := withUp 2 id (withMod fun m => { m with cages := 4 })
/-- A crossing port goes through bring-up, and leaves UP: its hypotheses are met. -/
theorem witness_PortBringUp :
    (∃ (s : State) (n : Fin 8) (v : W32), Unlocked s (.xl n) ∧ enabled s (.xl n) = false ∧ fenced s (.xl n) = false ∧ bit v 0 = true ∧ bit v 1 = false ∧ bit v 2 = false) ∧
    (∃ (s : State) (n : Fin 8) (v : W32), Unlocked s (.xl n) ∧ enabled s (.xl n) = true ∧ fenced s (.xl n) = false ∧ bit v 0 = false ∧ bit v 1 = false ∧ bit v 2 = false) ∧
    (∃ (s : State) (n : Fin 8) (i : LaneInfo), enabled s (.xl n) = true ∧ fenced s (.xl n) = false ∧ (s.port n).st = .detect ∧ i.los ≠ 0xF) ∧
    (∃ (s : State) (n : Fin 8) (i : LaneInfo), enabled s (.xl n) = true ∧ fenced s (.xl n) = false ∧ (s.port n).st = .train ∧ widthOf i = 2) ∧
    (∃ (s : State) (n : Fin 8) (i : LaneInfo), enabled s (.xl n) = true ∧ fenced s (.xl n) = false ∧ (s.port n).st = .train ∧ widthOf i = 1) ∧
    (∃ (s : State) (n : Fin 8), enabled s (.xl n) = true ∧ fenced s (.xl n) = false ∧ (s.port n).st = .ident ∧ (s.port n).ident0 = true ∧ (s.port n).ident1 = true ∧ bit (preg s (.xl n) 0x10C) 17 = false ∧ (s.port n).probeAt = none) ∧
    (∃ (s : State) (n : Fin 8), enabled s (.xl n) = true ∧ fenced s (.xl n) = false ∧ (s.port n).st = .probe ∧ (s.port n).probeAt = none ∧ (∀ id : Fin 256, (s.core id).waits = [] ∧ (s.core id).tt.sendQ = [])) ∧
    (∃ (s : State) (n : Fin 8), enabled s (.xl n) = true ∧ fenced s (.xl n) = false ∧ (s.port n).st ∈ [.detect, .train, .ident, .probe]) ∧
    (∃ (s : State) (n : Fin 8), enabled s (.xl n) = true ∧ fenced s (.xl n) = false ∧ (s.port n).st = .failed) ∧
    (∃ (s : State) (n : Fin 8) (w : BitVec 128), fld w 0 4 = 9 ∧ (s.port n).st = .ident ∧ fld w 4 8 ≠ fleetId s) ∧
    (∃ (s : State) (n : Fin 8) (w : BitVec 128), fld w 0 4 = 9 ∧ (s.port n).st = .ident ∧ fld w 4 8 = fleetId s ∧ bit (preg s (.xl n) 0x10C) 17 = false) ∧
    (∃ (s : State) (n : Fin 8) (w : BitVec 128), fld w 0 4 = 9 ∧ (s.port n).st = .up ∧ fld w 4 8 ≠ fld (preg s (.xl n) 0x10C) 0 8) ∧
    (∃ (s : State) (n : Fin 8) (w : BitVec 128), fld w 0 4 = 10 ∧ (s.port n).st = .ident) ∧
    (∃ (s : State) (n : Fin 8), (s.port n).st = .up) ∧
    (∃ (s : State) (n : Fin 8) (w : BitVec 128), (s.port n).st = .up ∧ fld w 0 4 = 12) ∧
    (∃ (s : State) (n : Fin 8) (v : W32), Starts s (.xl n) 0x100 8 v ∧ bit v 9 = false ∧ bit v 10 = false ∧ (s.port n).st = .up) ∧
    (∃ (s : State) (n : Fin 8) (v : W32), Starts s (.xl n) 0x100 9 v ∧ bit v 8 = false ∧ bit v 10 = false ∧ (s.port n).st = .up ∧ (s.port n).probeAt = none) ∧
    (∃ (s : State) (n : Fin 8) (v : W32), Starts s (.xl n) 0x100 10 v ∧ bit v 8 = false ∧ bit v 9 = false) ∧
    (∃ (s : State) (n : Fin 8) (v : W32), Starts s (.xl n) 0x138 0 v) ∧
    (∃ (s : State) (n : Fin 8), enabled s (.xl n) = true ∧ s.mod.mainOn = true ∧ (s.mod.present.contains (condKey (16 + n.val) condOpen)) = false) :=
  ⟨⟨State.reset, 2, 1, by decide +kernel⟩,
   ⟨wPortBringUp2_s, 2, 0, by decide +kernel⟩,
   ⟨wPortBringUp3_s, 2, lanes0, by decide +kernel⟩,
   ⟨wPortBringUp4_s, 2, lanes0, by decide +kernel⟩,
   ⟨wPortBringUp4_s, 2, ⟨3, 0, 0xE4, 0, 0, 0⟩, by decide +kernel⟩,
   ⟨wPortBringUp6_s, 2, by decide +kernel⟩,
   ⟨wPortBringUp7_s, 2, by decide +kernel⟩,
   ⟨wPortBringUp4_s, 2, by decide +kernel⟩,
   ⟨wPortBringUp9_s, 2, by decide +kernel⟩,
   ⟨wPortBringUp10_s, 2, wPortBringUp10_w, by decide +kernel⟩,
   ⟨wPortBringUp10_s, 2, 9, by decide +kernel⟩,
   ⟨withUp 2, 2, 0x79, by decide +kernel⟩,
   ⟨wPortBringUp10_s, 2, 0x79A, by decide +kernel⟩,
   ⟨wPortBringUp2_s, 2, by decide +kernel⟩,
   ⟨withUp 2, 2, 12, by decide +kernel⟩,
   ⟨withUp 2, 2, 0x100, by decide +kernel⟩,
   ⟨withUp 2, 2, 0x200, by decide +kernel⟩,
   ⟨wPortBringUp18_s, 2, 0x400, by decide +kernel⟩,
   ⟨withUp 2, 2, 1, by decide +kernel⟩,
   ⟨wPortBringUp20_s, 2, by decide +kernel⟩⟩

/-- A witness of PortWords. -/
def wPortWords3_s : State := withUp 2 (fun p => { p with replayBuf := [.word 4, .word 0x14] })
/-- A witness of PortWords. -/
def wPortWords4_s : State := withUp 2 (fun p => { p with replayBuf := [.word 4, .word 0x14, .bundle tx0] })
/-- A witness of PortWords. -/
def wPortWords7_s : State := withUp 2 (fun p => { p with probeAt := some (9, 100, 4096) })
/-- A witness of PortWords. -/
def wPortWords8_s : State := withRegs [(.td, 0x100, 6)] (withUp 2 (fun p => { p with probeAt := some (9, 100, 4096), rtts := [1, 2, 3, 4, 5, 6, 7, 8, 9, 10, 11, 12, 13, 14, 15] }))
/-- A witness of PortWords. -/
def wPortWords8_r : List Nat := [1, 2, 3, 4, 5, 6, 7, 8, 9, 10, 11, 12, 13, 14, 15, 95]
/-- A witness of PortWords. -/
def wPortWords9_s : State := withUp 2 id (withUp 3 id (withRegs [(.fc, 0x100, 8)]))
/-- A witness of PortWords. -/
def wPortWords10_s : State := withUp 2 (fun p => { p with accepted := 9, discard := true })
/-- Control words of a crossing link: its hypotheses are met. -/
theorem witness_PortWords :
    (∃ (s : State) (n : Fin 8) (w : BitVec 128), (s.port n).st = .up ∧ fld w 0 4 = 1 ∧ (∀ id : Fin 256, (s.core id).waits = [] ∧ (s.core id).tt.sendQ = []) ∧ (∀ k : Fin 3, (s.port n).credits.get k + (BitVec.ofNat 8 (fld w (8 + 8 * k.val) 8) - (s.port n).creditSeen.get k).toNat ≤ (s.port n).split.get k)) ∧
    (∃ (s : State) (n : Fin 8) (w : BitVec 128) (k : Fin 3), (s.port n).st = .up ∧ fld w 0 4 = 1 ∧ (∀ id : Fin 256, (s.core id).waits = [] ∧ (s.core id).tt.sendQ = []) ∧ (s.port n).split.get k < (s.port n).credits.get k + (BitVec.ofNat 8 (fld w (8 + 8 * k.val) 8) - (s.port n).creditSeen.get k).toNat) ∧
    (∃ (s : State) (n : Fin 8) (w : BitVec 128), (s.port n).st = .up ∧ fld w 0 4 = 2 ∧ (BitVec.ofNat 16 (fld w 16 16) - (s.port n).acked).toNat ≤ (s.port n).replayBuf.length) ∧
    (∃ (s : State) (n : Fin 8) (w : BitVec 128), (s.port n).st = .up ∧ fld w 0 4 = 3 ∧ (BitVec.ofNat 16 (fld w 16 16) - (s.port n).acked).toNat ≤ (s.port n).replayBuf.length) ∧
    (∃ (s : State) (n : Fin 8) (w : BitVec 128), takesWord s n w 4 = true ∧ fld w 16 8 = fleetId s) ∧
    (∃ (s : State) (n : Fin 8) (w : BitVec 128), fld w 0 4 = 6 ∧ ((s.port n).st = .ident ∨ (s.port n).st = .probe ∨ (s.port n).st = .up)) ∧
    (∃ (s : State) (n : Fin 8) (w : BitVec 128) (t1 : BitVec 32) (pid : Byte) (m : BitVec 64), fld w 0 4 = 7 ∧ (s.port n).probeAt = some (pid, t1, m) ∧ fld w 4 8 = pid.toNat ∧ (s.port n).rtts.length < 15) ∧
    (∃ (s : State) (n : Fin 8) (w : BitVec 128) (at64 : BitVec 32) (t1 : BitVec 32) (pid : Byte) (m : BitVec 64) (r : List Nat), fld w 0 4 = 7 ∧ (s.port n).probeAt = some (pid, t1, m) ∧ fld w 4 8 = pid.toNat ∧ (s.port n).rtts.length = 15 ∧ r = (s.port n).rtts.map BitVec.toNat ++ [((((at64.toNat : Int) - (t1.toNat : Int)) % (m.toNat : Int) - (fld w 12 32 : Int)).toNat) % 2 ^ 32]) ∧
    (∃ (s : State) (n : Fin 8) (w : BitVec 128), takesWord s n w 8 = true) ∧
    (∃ (s : State) (n : Fin 8) (w : BitVec 128), (s.port n).st = .up ∧ fld w 0 4 = 11 ∧ fld w 4 16 = (s.port n).accepted.toNat) ∧
    (∃ (s : State) (n : Fin 8) (w : BitVec 128), (s.port n).st = .up ∧ 13 ≤ fld w 0 4) :=
  ⟨⟨withUp 2, 2, 0x10201, by decide +kernel⟩,
   ⟨withUp 2, 2, 0x60001, 1, by decide +kernel⟩,
   ⟨wPortWords3_s, 2, 0x10002, by decide +kernel⟩,
   ⟨wPortWords4_s, 2, 0x10003, by decide +kernel⟩,
   ⟨withUp 2, 2, 0x12000304, by decide +kernel⟩,
   ⟨withUp 2, 2, 0x96, by decide +kernel⟩,
   ⟨wPortWords7_s, 2, 0x5097, 100, 9, 4096, by decide +kernel⟩,
   ⟨wPortWords8_s, 2, 0x5097, 200, 100, 9, 4096, wPortWords8_r, by decide +kernel⟩,
   ⟨wPortWords9_s, 2, 0x300000005078, by decide +kernel⟩,
   ⟨wPortWords10_s, 2, 0x9B, by decide +kernel⟩,
   ⟨withUp 2, 2, 14, by decide +kernel⟩⟩

/-- A witness of BundlesReceived. -/
def wBundlesReceived2_s : State := withUp 2 (fun p => { p with win := [(4, some 8)] })
/-- A witness of BundlesReceived. -/
def wBundlesReceived3_s : State := withUp 2 (fun p => { p with win := [(4, some 9)] })
/-- A witness of BundlesReceived. -/
def wBundlesReceived4_s : State := withUp 2 (fun p => { p with win := [(4, some 5)] })
/-- A witness of BundlesReceived. -/
def wBundlesReceived5_s : State := withRegs [(.xl 2, 0x100, 14)] (withUp 2 id (withPhase 0x1000))
/-- A witness of BundlesReceived. -/
def wBundlesReceived7_s : State := withUp 2 (fun p => { p with discard := true })
/-- A witness of BundlesReceived. -/
def wBundlesReceived8_s : State := withRegs [(.xl 0, 0x804, 0x83)] (withUp 3 id (withUp 2))
/-- Bundles received: delivered, held out as duplicates, asked for again, forwarded: its hypotheses are met. -/
theorem witness_BundlesReceived :
    (∃ (s : State) (n : Fin 8) (b : XlBundle), (s.port n).st = .up ∧ (s.port n).discard = false ∧ b.fecBad = false ∧ b.ctrlBad = false ∧ crcGood (headerOf b.header) b = true ∧ headerReserved (headerOf b.header) b = false ∧ (headerOf b.header).dst.toNat = fleetId s ∧ (headerOf b.header).svc = false ∧ (headerOf b.header).timed = false ∧ (headerOf b.header).late = false ∧ sget (fun _ => none) (s.port n).win (fcKey (headerOf b.header).src.toNat (headerOf b.header).svc) = none) ∧
    (∃ (s : State) (n : Fin 8) (b : XlBundle) (top : W16), (s.port n).st = .up ∧ (s.port n).discard = false ∧ b.fecBad = false ∧ b.ctrlBad = false ∧ crcGood (headerOf b.header) b = true ∧ headerReserved (headerOf b.header) b = false ∧ (headerOf b.header).dst.toNat = fleetId s ∧ (headerOf b.header).svc = false ∧ (headerOf b.header).timed = false ∧ (headerOf b.header).late = false ∧ sget (fun _ => none) (s.port n).win (fcKey (headerOf b.header).src.toNat (headerOf b.header).svc) = some top ∧ (headerOf b.header).seq = top + 1) ∧
    (∃ (s : State) (n : Fin 8) (b : XlBundle) (top : W16), (s.port n).st = .up ∧ (s.port n).discard = false ∧ b.fecBad = false ∧ b.ctrlBad = false ∧ crcGood (headerOf b.header) b = true ∧ headerReserved (headerOf b.header) b = false ∧ (headerOf b.header).dst.toNat = fleetId s ∧ sget (fun _ => none) (s.port n).win (fcKey (headerOf b.header).src.toNat (headerOf b.header).svc) = some top ∧ (top - (headerOf b.header).seq).toNat ≤ 1023) ∧
    (∃ (s : State) (n : Fin 8) (b : XlBundle) (top : W16), (s.port n).st = .up ∧ (s.port n).discard = false ∧ b.fecBad = false ∧ b.ctrlBad = false ∧ crcGood (headerOf b.header) b = true ∧ headerReserved (headerOf b.header) b = false ∧ (headerOf b.header).dst.toNat = fleetId s ∧ (headerOf b.header).svc = false ∧ (headerOf b.header).timed = false ∧ (headerOf b.header).late = false ∧ sget (fun _ => none) (s.port n).win (fcKey (headerOf b.header).src.toNat (headerOf b.header).svc) = some top ∧ 2 ≤ ((headerOf b.header).seq - top).toNat ∧ ((headerOf b.header).seq - top).toNat ≤ 32767 ∧ (headerOf b.header).resync = false) ∧
    (∃ (s : State) (n : Fin 8) (b : XlBundle), (s.port n).st = .up ∧ (s.port n).discard = false ∧ b.fecBad = false ∧ b.ctrlBad = false ∧ crcGood (headerOf b.header) b = true ∧ headerReserved (headerOf b.header) b = false ∧ (headerOf b.header).dst.toNat = fleetId s ∧ (headerOf b.header).svc = false ∧ (headerOf b.header).timed = true ∧ pastDeadline s (headerOf b.header).dl (fld (preg s (.xl n) 0x12C) 0 24) = true ∧ sget (fun _ => none) (s.port n).win (fcKey (headerOf b.header).src.toNat (headerOf b.header).svc) = none ∧ bit (preg s (.xl n) 0x100) 1 = true) ∧
    (∃ (s : State) (n : Fin 8) (b : XlBundle), (s.port n).st = .up ∧ (s.port n).discard = false ∧ (b.fecBad = true ∨ b.ctrlBad = true ∨ crcGood (headerOf b.header) b = false)) ∧
    (∃ (s : State) (n : Fin 8), (s.port n).discard = true) ∧
    (∃ (s : State) (n : Fin 8) (b : XlBundle) (k : Fin 8), (s.port n).st = .up ∧ (s.port n).discard = false ∧ b.fecBad = false ∧ b.ctrlBad = false ∧ crcGood (headerOf b.header) b = true ∧ headerReserved (headerOf b.header) b = false ∧ (headerOf b.header).dst.toNat ≠ fleetId s ∧ (headerOf b.header).hops < 15 ∧ routeOf s (headerOf b.header).dst.toNat = some k) ∧
    (∃ (s : State) (n : Fin 8) (b : XlBundle), (s.port n).st = .up ∧ (s.port n).discard = false ∧ b.fecBad = false ∧ b.ctrlBad = false ∧ crcGood (headerOf b.header) b = true ∧ headerReserved (headerOf b.header) b = false ∧ (headerOf b.header).dst.toNat ≠ fleetId s ∧ ((headerOf b.header).hops = 15 ∨ routeOf s (headerOf b.header).dst.toNat = none)) ∧
    (∃ (s : State) (n : Fin 8) (b : XlBundle), (s.port n).st = .up ∧ (s.port n).discard = false ∧ b.fecBad = false ∧ b.ctrlBad = false ∧ crcGood (headerOf b.header) b = true ∧ headerReserved (headerOf b.header) b = true) ∧
    (∃ (s : State) (n : Fin 8) (b : XlBundle), (s.port n).st = .up ∧ (s.port n).discard = false ∧ b.fecBad = false ∧ b.ctrlBad = false ∧ crcGood (headerOf b.header) b = true ∧ headerReserved (headerOf b.header) b = false ∧ (headerOf b.header).dst.toNat = fleetId s ∧ (headerOf b.header).svc = true ∧ sget (fun _ => none) (s.port n).win (fcKey (headerOf b.header).src.toNat (headerOf b.header).svc) = none) :=
  ⟨⟨withUp 2, 2, rx0, by rw [crcGood_eq]; decide +kernel⟩,
   ⟨wBundlesReceived2_s, 2, rx0, 8, by rw [crcGood_eq]; decide +kernel⟩,
   ⟨wBundlesReceived3_s, 2, rx0, 9, by rw [crcGood_eq]; decide +kernel⟩,
   ⟨wBundlesReceived4_s, 2, rx0, 5, by rw [crcGood_eq]; decide +kernel⟩,
   ⟨wBundlesReceived5_s, 2, rx1, by rw [crcGood_eq]; decide +kernel⟩,
   ⟨withUp 2, 2, { rx0 with fecBad := true }, by rw [crcGood_eq]; decide +kernel⟩,
   ⟨wBundlesReceived7_s, 2, by decide +kernel⟩,
   ⟨wBundlesReceived8_s, 2, rx2, 3, by rw [crcGood_eq]; decide +kernel⟩,
   ⟨withUp 2, 2, rx2, by rw [crcGood_eq]; decide +kernel⟩,
   ⟨withUp 2, 2, rx3, by rw [crcGood_eq]; decide +kernel⟩,
   ⟨withUp 2, 2, rxS, by rw [crcGood_eq]; decide +kernel⟩⟩

/-- A witness of BundlesSent. -/
def wBundlesSent1_s : State := withUp 2 (fun p => { p with opens := [⟨7, none, [bmsg0], [], false⟩] })
/-- A witness of BundlesSent. -/
def wBundlesSent2_s : State := withRegs [(.xl 2, 0x13C, 4), (.xl 2, 0x408, 0x100), (.xl 2, 0x40C, 0x80070100)] (withUp 2 (fun p => { p with opens := [⟨7, none, [bmsg0], [], false⟩] }) (withPhase 0x110))
/-- A witness of BundlesSent. -/
def wBundlesSent3_s : State := withRegs [(.xl 2, 0x13C, 4), (.xl 2, 0x408, 0x100), (.xl 2, 0x40C, 0x80070100)] (withUp 2 (fun p => { p with slot := some 2 }) (withPhase 0x110))
/-- A witness of BundlesSent. -/
def wBundlesSent4_s : State := withRegs [(.xl 2, 0x13C, 4), (.xl 2, 0x408, 0x100), (.xl 2, 0x40C, 0x80070100)] (withUp 2 (fun p => { p with slot := some 1, opens := [⟨7, none, [bmsg0], [], false⟩] }) (withPhase 0x200))
/-- A witness of BundlesSent. -/
def wBundlesSent5_s : State := withUp 2 (fun p => { p with txq := [tx0] })
/-- A witness of BundlesSent. -/
def wBundlesSent6_s : State := withUp 2 (fun p => { p with txq := [{ tx0 with deadline := some (9, 16) }] }) (withPhase 0x200)
/-- A witness of BundlesSent. -/
def wBundlesSent6_b : TxBundle := { tx0 with deadline := some (9, 16) }
/-- Bundles closed, slots opened and closed, bundles sent: its hypotheses are met. -/
theorem witness_BundlesSent :
    (∃ (s : State) (n : Fin 8) (d : Byte) (o : OpenBundle), (s.port n).opens.filter (fun x => decide (x.dst = d)) = [o] ∧ o.closing = false ∧ o.reading = [] ∧ ((s.port n).opens.all fun x => !x.closing || !x.reading.isEmpty) = true) ∧
    (∃ (s : State) (n : Fin 8) (i : Fin 32) (start : Nat) (len : Nat) (d : Byte), slotEntry s n (s.port n).bank i.val = some (start, len, d) ∧ s.tide.dispatching = true ∧ start ≤ s.tide.phase.toNat ∧ s.tide.phase.toNat < start + len ∧ (s.port n).slot = none) ∧
    (∃ (s : State) (n : Fin 8) (i : Fin 32) (j : Fin 32) (start : Nat) (len : Nat) (d : Byte), slotEntry s n (s.port n).bank i.val = some (start, len, d) ∧ s.tide.dispatching = true ∧ start ≤ s.tide.phase.toNat ∧ s.tide.phase.toNat < start + len ∧ (s.port n).slot = some j ∧ j ≠ i ∧ (s.port n).overlapSet = false) ∧
    (∃ (s : State) (n : Fin 8) (i : Fin 32) (start : Nat) (len : Nat) (d : Byte), (s.port n).slot = some i ∧ slotEntry s n (s.port n).bank i.val = some (start, len, d) ∧ start + len ≤ s.tide.phase.toNat) ∧
    (∃ (s : State) (n : Fin 8) (b : TxBundle), (s.port n).st = .up ∧ nextBundle s n = some b ∧ b.via = none ∧ (b.deadline = none ∨ b.late = true)) ∧
    (∃ (s : State) (n : Fin 8) (b : TxBundle) (dl : W16 × BitVec 26), (s.port n).st = .up ∧ nextBundle s n = some b ∧ b.via = none ∧ b.deadline = some dl ∧ b.late = false ∧ pastDeadline s dl 0 = true) ∧
    (∃ (s : State) (n : Fin 8), (s.port n).st = .up) :=
  ⟨⟨wBundlesSent1_s, 2, 7, ⟨7, none, [bmsg0], [], false⟩, by decide +kernel⟩,
   ⟨wBundlesSent2_s, 2, 1, 0x100, 0x100, 7, by decide +kernel⟩,
   ⟨wBundlesSent3_s, 2, 1, 2, 0x100, 0x100, 7, by decide +kernel⟩,
   ⟨wBundlesSent4_s, 2, 1, 0x100, 0x100, 7, by decide +kernel⟩,
   ⟨wBundlesSent5_s, 2, tx0, by decide +kernel⟩,
   ⟨wBundlesSent6_s, 2, wBundlesSent6_b, (9, 16), by decide +kernel⟩,
   ⟨withUp 2, 2, by decide +kernel⟩⟩

/-- A witness of PowerLoop. -/
def wPowerLoop1_s : State := State.setPw (State.reset) 2 { powerReset with pwrLim := 30 }
/-- A witness of PowerLoop. -/
def wPowerLoop2_s : State := withCore 8 (fun c => { c with st := .run, tt := { c.tt with running := true, hint := 9 } }) (setTtReg (withRegs [(.cl 2, 0x300, 1)]) 8 0x8000 1)
/-- A witness of PowerLoop. -/
def wPowerLoop3_s : State := withRegs [(.cl 2, 0x300, 3), (.cl 2, 0x310, 7)]
/-- A witness of PowerLoop. -/
def wPowerLoop4_s : State := withFc fun f => { f with safe := true }
/-- A witness of PowerLoop. -/
def wPowerLoop5_s : State := State.setPw (State.reset) 2 { powerReset with stepping := some true }
/-- A witness of PowerLoop. -/
def wPowerLoop6_s : State := State.setPw (State.reset) 2 { powerReset with target := 7 }
/-- A witness of PowerLoop. -/
def wPowerLoop7_s : State := State.setPw (State.reset) 2 { powerReset with target := 35, volt := 200 }
/-- A witness of PowerLoop. -/
def wPowerLoop8_s : State := State.setPw (State.reset) 2 { powerReset with target := 35, volt := 100 }
/-- A witness of PowerLoop. -/
def wPowerLoop11_s : State := State.setPw (State.reset) 2 { powerReset with stretch := 4 }
/-- The power loop of a cluster: target, voltage, frequency: its hypotheses are met. -/
theorem witness_PowerLoop :
    (∃ (s : State) (cl : Fin 16), stopped s = false ∧ pwEn s cl = false) ∧
    (∃ (s : State) (cl : Fin 16), stopped s = false ∧ pwEn s cl = true ∧ fenced s (.cl cl) = false ∧ bit (preg s (.cl cl) 0x300) 1 = false ∧ heavy s (clusterHint s cl) = true) ∧
    (∃ (s : State) (cl : Fin 16), stopped s = false ∧ pwEn s cl = true ∧ fenced s (.cl cl) = false ∧ bit (preg s (.cl cl) 0x300) 1 = true) ∧
    (∃ (s : State), stopped s = true) ∧
    (∃ (s : State) (cl : Fin 16) (up : Bool), (s.pw cl).stepping = some up) ∧
    (∃ (s : State) (cl : Fin 16), stopped s = false ∧ (s.pw cl).target.toNat < (s.pw cl).code.toNat) ∧
    (∃ (s : State) (cl : Fin 16), stopped s = false ∧ (s.pw cl).code.toNat < (s.pw cl).target.toNat ∧ setPoint s cl (s.pw cl).target.toNat ≤ (s.pw cl).volt.toNat ∧ (s.pw cl).stretch = 0) ∧
    (∃ (s : State) (cl : Fin 16), (s.pw cl).code.toNat < (s.pw cl).target.toNat ∧ (s.pw cl).volt.toNat < setPoint s cl (s.pw cl).target.toNat) ∧
    (∃ (s : State) (cl : Fin 16), (s.pw cl).stepping.isSome = true) ∧
    (∃ (s : State) (cl : Fin 16), (s.pw cl).stretch ≠ 0) :=
  ⟨⟨wPowerLoop1_s, 2, by decide +kernel⟩,
   ⟨wPowerLoop2_s, 2, by decide +kernel⟩,
   ⟨wPowerLoop3_s, 2, by decide +kernel⟩,
   ⟨wPowerLoop4_s, by decide +kernel⟩,
   ⟨wPowerLoop5_s, 2, true, by decide +kernel⟩,
   ⟨wPowerLoop6_s, 2, by decide +kernel⟩,
   ⟨wPowerLoop7_s, 2, by decide +kernel⟩,
   ⟨wPowerLoop8_s, 2, by decide +kernel⟩,
   ⟨wPowerLoop5_s, 2, by decide +kernel⟩,
   ⟨wPowerLoop11_s, 2, by decide +kernel⟩⟩

/-- A witness of PowerLimits. -/
def wPowerLimits2_s : State := State.setPw (State.reset) 2 { powerReset with pwrLim := 30 }
/-- A witness of PowerLimits. -/
def wPowerLimits6_s : State := State.setPw (State.reset) 2 { powerReset with tjLim := 30 }
/-- Module power, temperature and their limits: its hypotheses are met. -/
theorem witness_PowerLimits :
    (∃ (s : State) (w : BitVec 11), (bit (preg s .al 0x10) 1 = true ∨ fld (preg s .al 0x100) 0 11 < w.toNat)) ∧
    (∃ (s : State) (w : BitVec 11), bit (preg s .al 0x10) 1 = false ∧ w.toNat * 100 < fld (preg s .al 0x100) 0 11 * 95) ∧
    (∃ (s : State) (w : BitVec 11), bit (preg s .al 0x10) 1 = false ∧ w.toNat ≤ fld (preg s .al 0x100) 0 11 ∧ fld (preg s .al 0x100) 0 11 * 95 ≤ w.toNat * 100) ∧
    (∃ (s : State) (c : Byte), fld (preg s .al 0x108) 0 8 < c.toNat) ∧
    (∃ (s : State) (c : Byte), c.toNat + 3 ≤ fld (preg s .al 0x108) 0 8) ∧
    (∃ (s : State) (v : W32), Unlocked s .al ∧ 300 ≤ fld v 0 11 ∧ fld v 0 11 ≤ 1250) ∧
    (∃ (s : State) (v : W32), Unlocked s .al ∧ (fld v 0 11 < 300 ∨ 1250 < fld v 0 11)) ∧
    (∃ (s : State) (v : W32), Unlocked s .al ∧ fld (preg s .al 0x118) 0 7 < fld v 0 7 ∧ 10 ≤ fld v 0 7 ∧ fld v 0 7 ≤ 100) ∧
    (∃ (s : State) (v : W32), Unlocked s .al ∧ fld v 0 7 < fld (preg s .al 0x114) 0 7 ∧ 5 ≤ fld v 0 7 ∧ fld v 0 7 ≤ 90) ∧
    (∃ (s : State) (v : W32), Unlocked s .al ∧ fld (preg s .al 0x114) 0 7 ≤ fld v 0 7) :=
  ⟨⟨State.reset, 1300, by decide +kernel⟩,
   ⟨wPowerLimits2_s, 600, by decide +kernel⟩,
   ⟨State.reset, 1250, by decide +kernel⟩,
   ⟨State.reset, 99, by decide +kernel⟩,
   ⟨wPowerLimits6_s, 80, by decide +kernel⟩,
   ⟨State.reset, 800, by decide +kernel⟩,
   ⟨State.reset, 1300, by decide +kernel⟩,
   ⟨State.reset, 40, by decide +kernel⟩,
   ⟨State.reset, 10, by decide +kernel⟩,
   ⟨State.reset, 90, by decide +kernel⟩⟩

/-- A witness of EqualisationAndScrub. -/
def wEqualisationAndScrub1_s : State := withRegs [(.al, 8, 1)] (withPort 2 (fun p => { p with slot := some 1 }))
/-- A witness of EqualisationAndScrub. -/
def wEqualisationAndScrub3_s : State := withPort 2 (fun p => { p with eqSteps := 0xFFFF })
/-- A witness of EqualisationAndScrub. -/
def wEqualisationAndScrub4_s : State := { withRegs [(.al, 8, 1)] with scrubs := State.reset.scrubs.set 3 { scrubReset with ce := 0xFFFFFF } }
/-- A witness of EqualisationAndScrub. -/
def wEqualisationAndScrub5_s : State := { withRegs [(.al, 8, 1)] with scrubs := State.reset.scrubs.set 3 { scrubReset with low := 7, pass := 0x2000 } }
/-- Lane equalisation, and the scrub loop: its hypotheses are met. -/
theorem witness_EqualisationAndScrub :
    (∃ (s : State) (link : Fin 9) (lane : Fin 16) (p : BitVec 7) (b : Bool), enabled s .al = true ∧ (link.val = 8 ∨ lane.val < 4) ∧ (slotOpen s link.val = true ∨ (link.val = 8 ∧ (b = true ∨ s.cxl.link = .recovery)))) ∧
    (∃ (s : State) (link : Fin 9) (lane : Fin 16), enabled s .al = true ∧ link.val < 8 ∧ lane.val < 4 ∧ slotOpen s link.val = false ∧ eqPinned s link.val = false) ∧
    (∃ (s : State) (n : Fin 8), fld (preg s .al 0x138) 0 16 ≤ (s.port n).eqSteps.toNat ∧ 0 < (s.port n).eqSteps.toNat) ∧
    (∃ (s : State) (n : Fin 8), enabled s .al = true ∧ bit (preg s .al 0x140) 0 = false ∧ (preg s .al 0x154).toNat < (s.scrubs.get n).ce.toNat) ∧
    (∃ (s : State) (n : Fin 8), enabled s .al = true ∧ bit (preg s .al 0x140) 0 = false ∧ (s.scrubs.get n).ce.toNat < (preg s .al 0x158).toNat ∧ (preg s .al 0x158).toNat ≤ (preg s .al 0x154).toNat + 1 ∧ (s.scrubs.get n).low = 7) ∧
    (∃ (s : State), enabled s .al = false) ∧
    (∃ (s : State) (v : W32), Unlocked s .al ∧ fld (preg s .al 0x14C) 0 24 < fld v 0 24) ∧
    (∃ (s : State) (v : W32), Unlocked s .al ∧ fld v 0 24 ≤ fld (preg s .al 0x14C) 0 24) :=
  ⟨⟨wEqualisationAndScrub1_s, 2, 1, 0, false, by decide +kernel⟩,
   ⟨withRegs [(.al, 8, 1)], 2, 1, by decide +kernel⟩,
   ⟨wEqualisationAndScrub3_s, 2, by decide +kernel⟩,
   ⟨wEqualisationAndScrub4_s, 3, by decide +kernel⟩,
   ⟨wEqualisationAndScrub5_s, 3, by decide +kernel⟩,
   ⟨State.reset, by decide +kernel⟩,
   ⟨State.reset, 0xFFFFFF, by decide +kernel⟩,
   ⟨State.reset, 0x1000, by decide +kernel⟩⟩

/-- A witness of PlacementLoop. -/
def wPlacementLoop5_s : State := withPl fun p => { p with cur := some (5, 6) }
/-- A witness of PlacementLoop. -/
def wPlacementLoop6_s : State := withPl (fun p => { p with queued := some (8, 1, true) }) (withRegs [(.pl, 8, 1)] (withMod fun m => { m with pwrFail := .high }))
/-- A witness of PlacementLoop. -/
def wPlacementLoop7_s : State := withPl (fun p => { p with cur := some (8, 1) }) (withRegs [(.pl, 8, 1)])
/-- A witness of PlacementLoop. -/
def wPlacementLoop8_s : State := withPl (fun p => { p with cur := some (8, 1) })
/-- A witness of PlacementLoop. -/
def wPlacementLoop9_s : State := withPl (fun p => { p with cur := some (8, 1), chunk := true })
/-- A witness of PlacementLoop. -/
def wPlacementLoop10_s : State := withRegs [(.mc 1, 8, 2)] (withPl (fun p => { p with cur := some (8, 1), chunk := true }))
/-- A witness of PlacementLoop. -/
def wPlacementLoop11_s : State := withPl (fun p => { p with cur := some (8, 1), prog := 1024 }) (withRegs [(.pl, 8, 1)])
/-- A witness of PlacementLoop. -/
def wPlacementLoop13_s : State := withPl (fun p => { p with steps := 64000 }) (withRegs [(.pl, 8, 1), (.pl, 0x100, 0x10419 &&& 0xFFFF)])
/-- A witness of PlacementLoop. -/
def wPlacementLoop14_s : State := withPl (fun p => { p with steps := 64000 }) (withRegs [(.pl, 8, 1)])
/-- A witness of PlacementLoop. -/
def wPlacementLoop16_s : State := withPl (fun p => { p with queued := some (8, 16, true) }) (withRegs [(.pl, 8, 1)] (withMod fun m => { m with pwrFail := .high }))
/-- Swaps of regions: asked for, copied chunk by chunk, committed: its hypotheses are met. -/
theorem witness_PlacementLoop :
    (∃ (s : State) (v : W32), Starts s .pl 0x11C 31 v ∧ fld v 0 13 < 4592 ∧ fld v 16 13 < 4592 ∧ stackOfRegion s (fld v 0 13) ≠ stackOfRegion s (fld v 16 13) ∧ stackFenced s (stackOfRegion s (fld v 0 13)) = false ∧ stackFenced s (stackOfRegion s (fld v 16 13)) = false ∧ s.pl.cur = none ∧ (s.pl.queued.any fun q => q.2.2) = false) ∧
    (∃ (s : State) (v : W32), Starts s .pl 0x11C 31 v ∧ (4592 ≤ (fld v 0 13) ∨ 4592 ≤ (fld v 16 13))) ∧
    (∃ (s : State) (v : W32), Starts s .pl 0x11C 31 v ∧ fld v 0 13 < 4592 ∧ fld v 16 13 < 4592 ∧ stackOfRegion s (fld v 0 13) = stackOfRegion s (fld v 16 13)) ∧
    (∃ (s : State) (v : W32), Starts s .pl 0x11C 31 v ∧ fld v 0 13 < 4592 ∧ fld v 16 13 < 4592 ∧ stackOfRegion s (fld v 0 13) ≠ stackOfRegion s (fld v 16 13) ∧ (stackFenced s (stackOfRegion s (fld v 0 13)) = true ∨ stackFenced s (stackOfRegion s (fld v 16 13)) = true)) ∧
    (∃ (s : State) (v : W32), Starts s .pl 0x11C 31 v ∧ fld v 0 13 < 4592 ∧ fld v 16 13 < 4592 ∧ stackOfRegion s (fld v 0 13) ≠ stackOfRegion s (fld v 16 13) ∧ stackFenced s (stackOfRegion s (fld v 0 13)) = false ∧ stackFenced s (stackOfRegion s (fld v 16 13)) = false ∧ s.pl.cur.isSome = true ∧ s.pl.abandoned = false) ∧
    (∃ (s : State) (a : BitVec 13) (b : BitVec 13) (m : Bool), plMayRun s = true ∧ s.pl.cur = none ∧ s.pl.queued = some (a, b, m) ∧ stackOfRegion s a.toNat ≠ stackOfRegion s b.toNat ∧ s.pl.begun < fld (preg s .pl 0x100) 8 8 ∧ swapFenced s a b = false ∧ windowMoves s a = false ∧ windowMoves s b = false) ∧
    (∃ (s : State), plMayRun s = true ∧ s.pl.cur.isSome = true ∧ s.pl.prog.toNat < 1024) ∧
    (∃ (s : State), plMayRun s = false) ∧
    (∃ (s : State) (a : BitVec 13) (b : BitVec 13), s.pl.chunk = true ∧ s.pl.abandoned = false ∧ s.pl.cur = some (a, b) ∧ swapFenced s a b = false) ∧
    (∃ (s : State) (a : BitVec 13) (b : BitVec 13), s.pl.chunk = true ∧ s.pl.abandoned = false ∧ s.pl.cur = some (a, b) ∧ swapFenced s a b = true) ∧
    (∃ (s : State) (a : BitVec 13) (b : BitVec 13), s.pl.cur = some (a, b) ∧ plMayRun s = true ∧ s.pl.prog = 1024) ∧
    (∃ (s : State) (a : BitVec 13) (b : BitVec 13) (r : Nat), s.pl.cur = some (a, b) ∧ r ≠ a.toNat ∧ r ≠ b.toNat) ∧
    (∃ (s : State), windowOver s = true ∧ bit (preg s .pl 0x100) 16 = false) ∧
    (∃ (s : State) (heat : List (Nat × Nat)) (ch : List Nat) (a : Nat) (b : Nat), windowOver s = true ∧ bit (preg s .pl 0x100) 16 = true ∧ stopped s = false ∧ s.pl.abandoned = false ∧ s.pl.queued = none ∧ loopChoice { s with pl := { s.pl with heat := heat.foldl (fun (m : Sparse Nat) e => sset (fun _ => 0) m e.1 e.2) [] } } ch = some (a, b)) ∧
    (∃ (s : State) (v : W32), Unlocked s .pl ∧ fenced s .pl = false ∧ bit v 1 = false ∧ bit v 2 = false) ∧
    (∃ (s : State) (a : BitVec 13) (b : BitVec 13) (m : Bool), plMayRun s = true ∧ s.pl.cur = none ∧ s.pl.queued = some (a, b, m) ∧ stackOfRegion s a.toNat = stackOfRegion s b.toNat) ∧
    (∃ (s : State), windowOver s = false) :=
  ⟨⟨State.reset, 0x80080001, by decide +kernel⟩,
   ⟨State.reset, 0x80081FFF, by decide +kernel⟩,
   ⟨State.reset, 0x80080008, by decide +kernel⟩,
   ⟨withRegs [(.mc 1, 8, 2)], 0x80080001, by decide +kernel⟩,
   ⟨wPlacementLoop5_s, 0x80080001, by decide +kernel⟩,
   ⟨wPlacementLoop6_s, 8, 1, true, by decide +kernel⟩,
   ⟨wPlacementLoop7_s, by decide +kernel⟩,
   ⟨wPlacementLoop8_s, by decide +kernel⟩,
   ⟨wPlacementLoop9_s, 8, 1, by decide +kernel⟩,
   ⟨wPlacementLoop10_s, 8, 1, by decide +kernel⟩,
   ⟨wPlacementLoop11_s, 8, 1, by decide +kernel⟩,
   ⟨wPlacementLoop11_s, 8, 1, 9, by decide +kernel⟩,
   ⟨wPlacementLoop13_s, by decide +kernel⟩,
   ⟨wPlacementLoop14_s, [(8, 100000), (1, 5)], [900000, 5, 5, 5, 5, 5, 5, 5], 8, 9, by decide +kernel⟩,
   ⟨State.reset, 1, by decide +kernel⟩,
   ⟨wPlacementLoop16_s, 8, 16, true, by decide +kernel⟩,
   ⟨withRegs [(.pl, 8, 1)], by decide +kernel⟩⟩

/-- A witness of FaultMessages. -/
def wFaultMessages4_s : State := withComing [fmsg 2 0] State.reset
/-- A witness of FaultMessages. -/
def wFaultMessages6_s : State := withFc (fun f => { f with queue := [newRec State.reset (fmsg 0 7) 0 0] }) (withComing [fmsg 1 7])
/-- A witness of FaultMessages. -/
def wFaultMessages7_s : State := withFc (fun f => { f with queue := List.replicate 512 0 }) (withComing [fmsg 1 0])
/-- A witness of FaultMessages. -/
def wFaultMessages8_s : State := withComing [0xFF] (withRegs [(.fc, 8, 1), (.fc, 0x18, 1)])
/-- A fault message is classified, recorded and reacted to: its hypotheses are met. -/
theorem witness_FaultMessages :
    (∃ (s : State) (m : BitVec 128) (l : List (BitVec 128)), s.fc.coming = m :: l ∧ msgGood m = true ∧ bit m 7 = false ∧ bit (preg s .fc 0x100) 0 = false ∧ fixedSource m = false ∧ msgSev m = 1 ∧ msgCorr m = 0 ∧ s.fc.queue.length < 512) ∧
    (∃ (s : State) (m : BitVec 128) (l : List (BitVec 128)), s.fc.coming = m :: l ∧ msgGood m = true ∧ bit m 7 = false ∧ bit (preg s .fc 0x100) 0 = false ∧ fixedSource m = false ∧ msgSev m = 0 ∧ msgCorr m = 0 ∧ s.fc.queue.length < 512) ∧
    (∃ (s : State) (m : BitVec 128) (l : List (BitVec 128)) (released : List Page) (id : Fin 256), s.fc.coming = m :: l ∧ msgGood m = true ∧ bit m 7 = false ∧ bit (preg s .fc 0x100) 0 = false ∧ fixedSource m = false ∧ msgSev m = 2 ∧ msgCorr m = 0 ∧ pageOfType (msgType m) (msgInst m) = some (.gc id) ∧ released.contains (.gc id) = false ∧ enabled s .fc = true ∧ s.fc.queue.length < 512) ∧
    (∃ (s : State) (m : BitVec 128) (l : List (BitVec 128)), s.fc.coming = m :: l ∧ msgGood m = true ∧ bit m 7 = false ∧ bit (preg s .fc 0x100) 0 = false ∧ fixedSource m = false ∧ msgSev m = 2 ∧ msgCorr m = 0 ∧ enabled s .fc = false ∧ s.fc.queue.length < 512) ∧
    (∃ (s : State) (m : BitVec 128) (l : List (BitVec 128)), s.fc.coming = m :: l ∧ msgGood m = true ∧ bit m 7 = false ∧ bit (preg s .fc 0x100) 0 = false ∧ fixedSource m = false ∧ msgSev m = 3 ∧ msgCorr m = 0 ∧ s.fc.safe = false ∧ s.fc.queue.length < 512) ∧
    (∃ (s : State) (m : BitVec 128) (l : List (BitVec 128)) (i : Nat), s.fc.coming = m :: l ∧ msgGood m = true ∧ bit m 7 = false ∧ bit (preg s .fc 0x100) 0 = false ∧ fixedSource m = false ∧ msgSev m = 1 ∧ s.fc.queue.findIdx? (mergesInto s m) = some i) ∧
    (∃ (s : State) (m : BitVec 128) (l : List (BitVec 128)), s.fc.coming = m :: l ∧ msgGood m = true ∧ bit m 7 = false ∧ bit (preg s .fc 0x100) 0 = false ∧ fixedSource m = false ∧ msgSev m = 1 ∧ msgCorr m = 0 ∧ 512 ≤ s.fc.queue.length ∧ sourceId m ≠ 2 * 8192 + 1) ∧
    (∃ (s : State) (m : BitVec 128) (l : List (BitVec 128)), s.fc.coming = m :: l ∧ msgGood m = false ∧ maskedSrc s .fc 0 = false ∧ severityOf s false (sevOf s .fc 0) = 1 ∧ s.fc.queue.length < 512) ∧
    (∃ (s : State) (m : BitVec 128) (l : List (BitVec 128)) (released : List Page) (id : Fin 256), s.fc.coming = m :: l ∧ msgGood m = true ∧ bit m 7 = false ∧ bit (preg s .fc 0x100) 0 = false ∧ fixedSource m = false ∧ msgSev m = 2 ∧ msgCorr m = 0 ∧ pageOfType (msgType m) (msgInst m) = some (.gc id) ∧ released.contains (.gc id) = true ∧ enabled s .fc = true ∧ s.fc.queue.length < 512) :=
  ⟨⟨withComing [fmsg 1 0], fmsg 1 0, [], by decide +kernel⟩,
   ⟨withComing [fmsg 0 0], fmsg 0 0, [], by decide +kernel⟩,
   ⟨withComing [fmsg 2 0], fmsg 2 0, [], [.gc 4], 3, by decide +kernel⟩,
   ⟨wFaultMessages4_s, fmsg 2 0, [], by decide +kernel⟩,
   ⟨withComing [fmsg 3 0], fmsg 3 0, [], by decide +kernel⟩,
   ⟨wFaultMessages6_s, fmsg 1 7, [], 0, by decide +kernel⟩,
   ⟨wFaultMessages7_s, fmsg 1 0, [], by decide +kernel⟩,
   ⟨wFaultMessages8_s, 0xFF, [], by decide +kernel⟩,
   ⟨withComing [fmsg 2 0], fmsg 2 0, [], [.gc 3], 3, by decide +kernel⟩⟩

/-- A witness of SafeState. -/
def wSafeState1_s : State := withUp 2 id (withRegs [(.fc, 8, 1), (.dev, 0x104, 1)])
/-- A witness of SafeState. -/
def wSafeState2_s : State := withUp 2 id (withFc fun f => { f with safe := true, portsToFence := 4 })
/-- A witness of SafeState. -/
def wSafeState4_s : State := withFc fun f => { f with queue := [5, 6] }
/-- A witness of SafeState. -/
def wSafeState6_s : State := withFc fun f => { f with wdogSet := true }
/-- A witness of SafeState. -/
def wSafeState7_s : State := withRegs [(.dev, 0x104, 1), (.fc, 0x134, 9)]
/-- A witness of SafeState. -/
def wSafeState10_s : State := withGp fun g => { g with factory := true }
/-- The safe state, the record queue, the watchdog and ALIVE, injection: its hypotheses are met. -/
theorem witness_SafeState :
    (∃ (s : State) (v : W32), Starts s .fc 0x100 8 v ∧ s.fc.safe = false) ∧
    (∃ (s : State) (n : Fin 8), s.fc.portsToFence.getLsbD n.val = true ∧ fenced s (.xl n) = false) ∧
    (∃ (s : State), s.fc.safe = false) ∧
    (∃ (s : State) (v : W32), Starts s .fc 0x120 0 v ∧ bit v 1 = false) ∧
    (∃ (s : State) (v : W32), Starts s .fc 0x120 1 v ∧ bit v 0 = false) ∧
    (∃ (s : State) (v : W32), Starts s .fc 0x138 0 v) ∧
    (∃ (s : State), bit (preg s .dev 0x104) 0 = true ∧ s.fc.safe = false ∧ s.fc.wdogSet = false ∧ fld (preg s .fc 0x134) 0 16 ≠ 0) ∧
    (∃ (s : State) (b : Bool), (aliveRuns s = true ∨ b = true)) ∧
    (∃ (s : State), aliveRuns s = false) ∧
    (∃ (s : State), s.gp.factory = true) ∧
    (∃ (s : State), s.gp.factory = true) ∧
    (∃ (s : State), s.gp.factory = false) :=
  ⟨⟨wSafeState1_s, 0x100, by decide +kernel⟩,
   ⟨wSafeState2_s, 2, by decide +kernel⟩,
   ⟨State.reset, by decide +kernel⟩,
   ⟨wSafeState4_s, 1, by decide +kernel⟩,
   ⟨wSafeState4_s, 2, by decide +kernel⟩,
   ⟨wSafeState6_s, 1, by decide +kernel⟩,
   ⟨wSafeState7_s, by decide +kernel⟩,
   ⟨State.reset, true, by decide +kernel⟩,
   ⟨State.reset, by decide +kernel⟩,
   ⟨wSafeState10_s, by decide +kernel⟩,
   ⟨wSafeState10_s, by decide +kernel⟩,
   ⟨State.reset, by decide +kernel⟩⟩

/-- A witness of LogbookRing. -/
def wLogbookRing1_s : State := withLb fun b => { b with inq := [5, 6], head := 0xFFF }
/-- A witness of LogbookRing. -/
def wLogbookRing2_s : State := withLb fun b => { b with inq := [5, 6], lost := 3 }
/-- A witness of LogbookRing. -/
def wLogbookRing3_s : State := withLb fun b => { b with inq := [5, 6], snap := some ⟨1, false, 0, 1, 0, List.replicate 4080 0, 0, false⟩, head := 16 }
/-- A witness of LogbookRing. -/
def wLogbookRing5_s : State := withLb (fun b => { b with ring := [(0, 77)] }) (withRegs [(.lb, 0x12C, 16)])
/-- The logbook writes one entry at a time, and loses what it cannot keep: its hypotheses are met. -/
theorem witness_LogbookRing :
    (∃ (s : State) (e : BitVec 256) (l : List (BitVec 256)), s.lb.inq = e :: l ∧ s.lb.lost = 0 ∧ headBlocked s = false) ∧
    (∃ (s : State) (e : BitVec 256) (l : List (BitVec 256)), s.lb.inq = e :: l ∧ s.lb.lost ≠ 0 ∧ s.lb.snap = none) ∧
    (∃ (s : State) (e : BitVec 256) (l : List (BitVec 256)), s.lb.inq = e :: l ∧ headBlocked s = true) ∧
    (∃ (s : State) (v : W32), Starts s .lb 0x100 4 v ∧ bit v 0 = false ∧ bit v 1 = false ∧ s.lb.inq.length < 256) ∧
    (∃ (s : State) (v : W32), Starts s .lb 0x100 1 v ∧ bit v 0 = false ∧ bit v 4 = false) :=
  ⟨⟨wLogbookRing1_s, 5, [6], by decide +kernel⟩,
   ⟨wLogbookRing2_s, 5, [6], by decide +kernel⟩,
   ⟨wLogbookRing3_s, 5, [6], by decide +kernel⟩,
   ⟨withRegs [(.lb, 0x144, 7)], 0x210, by decide +kernel⟩,
   ⟨wLogbookRing5_s, 0x202, by decide +kernel⟩⟩

/-- A witness of Snapshots. -/
def wSnapshots2_s : State := withLb (fun b => { b with slots := Vector.replicate 16 { flashSlotErased with erased := false } }) (withRegs [(.lb, 8, 1)])
/-- A witness of Snapshots. -/
def wSnapshots3_s : State := withLb (fun b => { b with snap := some ⟨2, false, 1, 4, 99, [], 0, false⟩ }) (withRegs [(.lb, 8, 1)])
/-- A witness of Snapshots. -/
def wSnapshots4_s : State := withLb (fun b => { b with snap := some ⟨2, false, 1, 4, 99, [], 0, false⟩ }) (State.reset)
/-- A witness of Snapshots. -/
def wSnapshots4_x : Snap := ⟨2, false, 1, 4, 99, [], 0, false⟩
/-- A witness of Snapshots. -/
def wSnapshots5_s : State := withLb (fun b => { b with snap := some ⟨2, false, 1, 4, 99, [], 2, false⟩ }) (State.reset)
/-- A witness of Snapshots. -/
def wSnapshots5_x : Snap := ⟨2, false, 1, 4, 99, [], 2, false⟩
/-- A witness of Snapshots. -/
def wSnapshots6_s : State := withLb (fun b => { b with slots := Vector.replicate 16 { flashSlotErased with erased := false } })
/-- A witness of Snapshots. -/
def wSnapshots7_s : State := withLb (fun b => { b with snap := some ⟨3, false, 1, 4, 99, [], 1, true⟩ }) (State.reset)
/-- A witness of Snapshots. -/
def wSnapshots7_x : Snap := ⟨3, false, 1, 4, 99, [], 1, true⟩
/-- A witness of Snapshots. -/
def wSnapshots8_s : State := withLb fun b => { b with followUp := true }
/-- A witness of Snapshots. -/
def wSnapshots9_s : State := withLb (fun b => { b with snap := some ⟨2, false, 1, 4, 99, List.replicate 16 7, 1, false⟩ }) (State.reset)
/-- A witness of Snapshots. -/
def wSnapshots9_x : Snap := ⟨2, false, 1, 4, 99, List.replicate 16 7, 1, false⟩
/-- Snapshots to the flash ring: started, programmed page by page, committed, abandoned: its hypotheses are met. -/
theorem witness_Snapshots :
    (∃ (s : State) (v : W32) (n : Fin 16) (l : List (Fin 16)), Starts s .lb 0x100 0 v ∧ bit v 1 = false ∧ bit v 4 = false ∧ enabled s .lb = true ∧ s.lb.snap = none ∧ readyErased s = n :: l) ∧
    (∃ (s : State) (v : W32), Starts s .lb 0x100 0 v ∧ bit v 1 = false ∧ bit v 4 = false ∧ enabled s .lb = true ∧ s.lb.snap = none ∧ readyErased s = []) ∧
    (∃ (s : State) (v : W32), Starts s .lb 0x100 0 v ∧ bit v 1 = false ∧ bit v 4 = false ∧ enabled s .lb = true ∧ s.lb.snap.isSome = true) ∧
    (∃ (s : State) (x : Snap), s.lb.snap = some x ∧ x.ops = 0) ∧
    (∃ (s : State) (x : Snap), s.lb.snap = some x ∧ bodyPages x.entries.length + 2 ≤ x.ops ∧ s.lb.fatalWaits = false ∧ s.lb.hostWaits = false) ∧
    (∃ (s : State) (n : Fin 16), s.lb.snap = none ∧ slotToErase s = some n) ∧
    (∃ (s : State) (x : Snap), s.lb.snap = some x ∧ s.lb.fatalWaits = false ∧ s.lb.hostWaits = false) ∧
    (∃ (s : State) (n : Fin 16) (l : List (Fin 16)), s.lb.followUp = true ∧ s.lb.snap = none ∧ s.mod.v12 ≠ 0 ∧ readyErased s = n :: l) ∧
    (∃ (s : State) (x : Snap), s.lb.snap = some x ∧ x.ops = 1 ∧ 8 < x.entries.length) :=
  ⟨⟨withRegs [(.lb, 8, 1)], 0x201, 0, [1], by decide +kernel⟩,
   ⟨wSnapshots2_s, 0x201, by decide +kernel⟩,
   ⟨wSnapshots3_s, 0x201, by decide +kernel⟩,
   ⟨wSnapshots4_s, wSnapshots4_x, by decide +kernel⟩,
   ⟨wSnapshots5_s, wSnapshots5_x, by decide +kernel⟩,
   ⟨wSnapshots6_s, 0, by decide +kernel⟩,
   ⟨wSnapshots7_s, wSnapshots7_x, by decide +kernel⟩,
   ⟨wSnapshots8_s, 0, [1], by decide +kernel⟩,
   ⟨wSnapshots9_s, wSnapshots9_x, by decide +kernel⟩⟩

/-- A witness of GangplankAttempts. -/
def wGangplankAttempts3_s : State := withGp (fun g => { g with nonceOk := true, nonce := 7 }) (withRegs [(.gp, 0x140, 9)])
/-- A witness of GangplankAttempts. -/
def wGangplankAttempts5_s : State := withGp (fun g => { g with locked := true, fails := 8 })
/-- A witness of GangplankAttempts. -/
def wGangplankAttempts6_s : State := withGp (fun g => { g with level := 2, factory := true })
/-- The gangplank: challenge, attempt, lockout, close: its hypotheses are met. -/
theorem witness_GangplankAttempts :
    (∃ (s : State) (v : W32) (j : Bool), (j = false ∨ s.gp.tap = true) ∧ Starts s .gp 0x100 8 v ∧ bit v 9 = false ∧ bit v 10 = false) ∧
    (∃ (s : State) (v : W32) (j : Bool), (j = false ∨ s.gp.tap = true) ∧ Starts s .gp 0x100 9 v ∧ bit v 8 = false ∧ bit v 10 = false ∧ s.gp.locked = false ∧ fld v 0 2 = 1) ∧
    (∃ (s : State) (v : W32) (j : Bool), (j = false ∨ s.gp.tap = true) ∧ Starts s .gp 0x100 9 v ∧ bit v 8 = false ∧ bit v 10 = false ∧ s.gp.locked = false ∧ 2 ≤ fld v 0 2 ∧ s.gp.nonceOk = true) ∧
    (∃ (s : State) (v : W32) (j : Bool), (j = false ∨ s.gp.tap = true) ∧ Starts s .gp 0x100 9 v ∧ bit v 8 = false ∧ bit v 10 = false ∧ s.gp.locked = false ∧ 2 ≤ fld v 0 2 ∧ s.gp.nonceOk = false) ∧
    (∃ (s : State) (v : W32) (j : Bool), (j = false ∨ s.gp.tap = true) ∧ Starts s .gp 0x100 9 v ∧ bit v 8 = false ∧ bit v 10 = false ∧ s.gp.locked = true) ∧
    (∃ (s : State) (v : W32) (j : Bool), (j = false ∨ s.gp.tap = true) ∧ Starts s .gp 0x100 10 v ∧ bit v 8 = false ∧ bit v 9 = false) :=
  ⟨⟨State.reset, 0x101, false, by decide +kernel⟩,
   ⟨withRegs [(.gp, 0x130, 9)], 0x201, false, by decide +kernel⟩,
   ⟨wGangplankAttempts3_s, 0x203, false, by decide +kernel⟩,
   ⟨withRegs [(.gp, 0x140, 9)], 0x203, false, by decide +kernel⟩,
   ⟨wGangplankAttempts5_s, 0x201, false, by decide +kernel⟩,
   ⟨wGangplankAttempts6_s, 0x401, false, by decide +kernel⟩⟩

/-- A witness of JtagAndWindows. -/
def wJtagAndWindows1_s : State := withGp (fun g => { g with tap := true })
/-- A witness of JtagAndWindows. -/
def wJtagAndWindows9_s : State := withGp (fun g => { g with tap := true, level := 1 })
/-- A witness of JtagAndWindows. -/
def wJtagAndWindows11_s : State := withGp (fun g => { g with tap := true, level := 2 })
/-- A witness of JtagAndWindows. -/
def wJtagAndWindows14_s : State := withGp (fun g => { g with level := 1 })
/-- A witness of JtagAndWindows. -/
def wJtagAndWindows16_s : State := withGp (fun g => { g with level := 2 })
/-- JTAG, and the debug windows: its hypotheses are met. -/
theorem witness_JtagAndWindows :
    (∃ (s : State), s.gp.tap = true) ∧
    (∃ (s : State), s.gp.tap = true) ∧
    (∃ (s : State), s.gp.tap = true) ∧
    (∃ (s : State) (c : Byte), s.gp.tap = true ∧ c ∉ [0, 1, 2, 0x20, 0x21]) ∧
    (∃ (s : State), s.gp.tap = false) ∧
    (∃ (s : State), s.gp.tap = true ∧ Unlocked s .gp) ∧
    (∃ (s : State), s.gp.tap = true) ∧
    (∃ (s : State) (off : BitVec 26), s.gp.tap = true ∧ windowGrant s off.toNat ≠ 0) ∧
    (∃ (s : State) (off : BitVec 26), s.gp.tap = true ∧ windowGrant s off.toNat = 0) ∧
    (∃ (s : State) (off : BitVec 26), s.gp.tap = true ∧ windowGrant s off.toNat = 2) ∧
    (∃ (s : State) (off : BitVec 26), 0x2000000 ≤ off.toNat ∧ windowGrant s off.toNat = 0) ∧
    (∃ (s : State) (off : BitVec 26), 0x2000000 ≤ off.toNat ∧ windowGrant s off.toNat = 0) ∧
    (∃ (s : State) (off : BitVec 26), 0x2000000 ≤ off.toNat ∧ windowGrant s off.toNat ≠ 0) ∧
    (∃ (s : State) (off : BitVec 26), 0x2000000 ≤ off.toNat ∧ windowGrant s off.toNat = 1) ∧
    (∃ (s : State) (off : BitVec 26), 0x2000000 ≤ off.toNat ∧ windowGrant s off.toNat = 2) :=
  ⟨⟨wJtagAndWindows1_s, by decide +kernel⟩,
   ⟨wJtagAndWindows1_s, by decide +kernel⟩,
   ⟨wJtagAndWindows1_s, by decide +kernel⟩,
   ⟨wJtagAndWindows1_s, 0xFF, by decide +kernel⟩,
   ⟨State.reset, by decide +kernel⟩,
   ⟨wJtagAndWindows1_s, by decide +kernel⟩,
   ⟨wJtagAndWindows1_s, by decide +kernel⟩,
   ⟨wJtagAndWindows9_s, 0x2000000, by decide +kernel⟩,
   ⟨wJtagAndWindows1_s, 0x2000000, by decide +kernel⟩,
   ⟨wJtagAndWindows11_s, 0x2000000, by decide +kernel⟩,
   ⟨State.reset, 0x2000004, by decide +kernel⟩,
   ⟨State.reset, 0x2000004, by decide +kernel⟩,
   ⟨wJtagAndWindows14_s, 0x2000004, by decide +kernel⟩,
   ⟨wJtagAndWindows14_s, 0x2000004, by decide +kernel⟩,
   ⟨wJtagAndWindows16_s, 0x2000004, by decide +kernel⟩⟩

/-- A witness of PowerInputs. -/
def wPowerInputs1_s : State := { withCore 3 (fun c => { c with st := .run }) (withRegs [(.al, 8, 1)] (withMod id)) with dm := [(5, 9)] }
/-- A witness of PowerInputs. -/
def wPowerInputs2_s : State := withMod fun m => { m with mainOn := false }
/-- A witness of PowerInputs. -/
def wPowerInputs5_s : State := withMod fun m => { m with mainOn := false, conversion := false }
/-- A witness of PowerInputs. -/
def wPowerInputs6_s : State := { withCore 3 (fun c => { c with st := .run }) (withRegs [(.al, 8, 1)] (withMod fun m => { m with mainOn := false })) with dm := [(5, 9)] }
/-- A witness of PowerInputs. -/
def wPowerInputs8_s : State := withMod fun m => { m with v12 := 0 }
/-- A witness of PowerInputs. -/
def wPowerInputs10_s : State := withMod fun m => { m with pwrFail := .low }
/-- A witness of PowerInputs. -/
def wPowerInputs16_s : State := withMod fun m => { m with v12 := 2, present := [condKey 1 condRange] }
/-- The 54 V and 12 V inputs: what falls with the main rails, and what stays: its hypotheses are met. -/
theorem witness_PowerInputs :
    (∃ (s : State), s.mod.mainOn = true) ∧
    (∃ (s : State), s.mod.mainOn = false) ∧
    (∃ (s : State), s.mod.mainOn = true) ∧
    (∃ (s : State), s.mod.mainOn = true ∧ s.mod.v12 ≠ 0) ∧
    (∃ (s : State), s.mod.v12 = 1) ∧
    (∃ (s : State), s.mod.mainOn = false ∧ s.mod.conversion = true) ∧
    (∃ (s : State), s.mod.v12 = 0) ∧
    (∃ (s : State) (n : Fin 16) (l : List (Fin 16)), powerFailing s = false ∧ s.mod.mainOn = true ∧ enabled s .lb = true ∧ bit (preg s .lb 0x100) 2 = true ∧ s.lb.snap = none ∧ readyErased s = n :: l) ∧
    (∃ (s : State), s.mod.pwrFail = .low ∧ s.mod.intPf = false ∧ s.lb.inq.length < 256) ∧
    (∃ (s : State) (n : Fin 16) (l : List (Fin 16)), powerFailing s = false ∧ s.mod.mainOn = true ∧ enabled s .lb = true ∧ bit (preg s .lb 0x100) 2 = true ∧ s.lb.snap = none ∧ readyErased s = n :: l) ∧
    (∃ (s : State), powerFailing s = false) ∧
    (∃ (s : State), s.mod.v12 ≠ 0 ∧ s.mod.mainOn = true ∧ s.mod.present.contains (condKey 1 condRange) = false) ∧
    (∃ (s : State), s.mod.v12 = 2) :=
  ⟨⟨wPowerInputs1_s, by decide +kernel⟩,
   ⟨wPowerInputs2_s, by decide +kernel⟩,
   ⟨wPowerInputs1_s, by decide +kernel⟩,
   ⟨wPowerInputs1_s, by decide +kernel⟩,
   ⟨wPowerInputs5_s, by decide +kernel⟩,
   ⟨wPowerInputs6_s, by decide +kernel⟩,
   ⟨wPowerInputs8_s, by decide +kernel⟩,
   ⟨withRegs [(.lb, 8, 1)], 0, [1], by decide +kernel⟩,
   ⟨wPowerInputs10_s, by decide +kernel⟩,
   ⟨withRegs [(.lb, 8, 1)], 0, [1], by decide +kernel⟩,
   ⟨State.reset, by decide +kernel⟩,
   ⟨State.reset, by decide +kernel⟩,
   ⟨wPowerInputs16_s, by decide +kernel⟩⟩

/-- A witness of ModuleSensors. -/
def wModuleSensors1_s : State := withMod fun m => { m with leakCand := 1, leakRun := 2 }
/-- A witness of ModuleSensors. -/
def wModuleSensors5_s : State := withRegs [(.td, 8, 1), (.td, 0x100, 0)]
/-- A witness of ModuleSensors. -/
def wModuleSensors9_s : State := withMod fun m => { m with mbFault := 7 }
/-- Sensors, outputs read back, and the management bus: its hypotheses are met. -/
theorem witness_ModuleSensors :
    (∃ (s : State) (x : W16) (c : Nat), s.mod.leakCand = leakReading x.toNat ∧ s.mod.leakRun = 2 ∧ s.mod.leak ≠ leakReading x.toNat ∧ leakCondition (leakReading x.toNat) = some c ∧ s.mod.mainOn = true ∧ s.mod.present.contains (condKey 4 c) = false) ∧
    (∃ (s : State) (x : W16), s.mod.leakCand ≠ leakReading x.toNat) ∧
    (∃ (s : State) (i : Fin 3) (o : BitVec 32) (c : Byte) (k : Nat), thermCondition s i o.toNat c.toNat = some k ∧ s.mod.mainOn = true ∧ s.mod.present.contains (condKey (5 + i.val) k) = false) ∧
    (∃ (s : State) (i : Fin 3) (o : BitVec 32) (c : Byte), thermCondition s i o.toNat c.toNat = none) ∧
    (∃ (s : State), enabled s .td = true ∧ fld (preg s .td 0x100) 0 5 = 0 ∧ s.mod.mainOn = true) ∧
    (∃ (s : State), s.mod.mainOn = true) ∧
    (∃ (s : State), s.mod.mainOn = true) ∧
    (∃ (s : State), s.mod.v12 ≠ 0) ∧
    (∃ (s : State), s.mod.v12 ≠ 0) ∧
    (∃ (s : State) (o : Byte), s.mod.v12 ≠ 0 ∧ o ≠ 0x10 ∧ o ≠ 0x28) ∧
    (∃ (s : State) (g : BitVec 7), g ≠ mgtAddress s) ∧
    (∃ (s : State), s.mod.v12 ≠ 0 ∧ s.mod.mainOn = true) ∧
    (∃ (s : State), s.mod.v12 ≠ 0 ∧ bit (preg s .dev 0x104) 0 = false) :=
  ⟨⟨wModuleSensors1_s, 50, 5, by decide +kernel⟩,
   ⟨State.reset, 50, by decide +kernel⟩,
   ⟨State.reset, 0, 500000, 9, 0, by decide +kernel⟩,
   ⟨State.reset, 0, 5000, 30, by decide +kernel⟩,
   ⟨wModuleSensors5_s, by decide +kernel⟩,
   ⟨State.reset, by decide +kernel⟩,
   ⟨State.reset, by decide +kernel⟩,
   ⟨wModuleSensors9_s, by decide +kernel⟩,
   ⟨State.reset, by decide +kernel⟩,
   ⟨State.reset, 4, by decide +kernel⟩,
   ⟨State.reset, 0x50, by decide +kernel⟩,
   ⟨State.reset, by decide +kernel⟩,
   ⟨State.reset, by decide +kernel⟩⟩

/-- A witness of PerstReset. -/
def wPerstReset1_s : State := withUp 2 id (withMod fun m => { m with perst := .high })
/-- A witness of PerstReset. -/
def wPerstReset2_s : State := withMod fun m => { m with perst := .high }
/-- A witness of PerstReset. -/
def wPerstReset3_s : State := withBoot (fun b => { b with preparing := true }) { withRegs [(.al, 8, 1), (.dev, 0x124, 7)] with dm := [(5, 9)] }
/-- A witness of PerstReset. -/
def wPerstReset4_s : State := withBoot (fun b => { b with preparing := true }) (withLb fun b => { b with snap := some ⟨2, true, 1, 4, 99, [], 0, false⟩ })
/-- PERST_N: the steps before the reset, the reset, its end: its hypotheses are met. -/
theorem witness_PerstReset :
    (∃ (s : State), s.mod.perst = .high ∧ s.mod.mainOn = true ∧ s.boot.preparing = false) ∧
    (∃ (s : State), s.mod.perst = .high ∧ s.mod.mainOn = true ∧ s.boot.preparing = false) ∧
    (∃ (s : State), s.boot.preparing = true ∧ s.lb.snap = none) ∧
    (∃ (s : State), s.boot.preparing = true ∧ s.lb.snap.isSome = true) :=
  ⟨⟨wPerstReset1_s, by decide +kernel⟩,
   ⟨wPerstReset2_s, by decide +kernel⟩,
   ⟨wPerstReset3_s, by decide +kernel⟩,
   ⟨wPerstReset4_s, by decide +kernel⟩⟩

/-- A witness of BootStages. -/
def wBootStages1_i : BootInfo := ⟨some 5, some 4, true, true, 7, 3, 9, 10, 500⟩
/-- A witness of BootStages. -/
def wBootStages2_i : BootInfo := ⟨some 5, some 4, false, true, 7, 3, 9, 10, 500⟩
/-- A witness of BootStages. -/
def wBootStages3_i : BootInfo := ⟨none, none, true, true, 7, 3, 9, 10, 500⟩
/-- A witness of BootStages. -/
def wBootStages4_s : State := withBoot (fun b => { b with stage := 1 }) (withRegs [(.dev, 0x104, 6)])
/-- A witness of BootStages. -/
def wBootStages5_s : State := withBoot (fun b => { b with stage := 1 })
/-- A witness of BootStages. -/
def wBootStages6_s : State := withBoot (fun b => { b with stage := 2, bootCount := 9, fwRev := 5 })
/-- Boot stages: the bank chosen, the fallback, recovery, firmware up: its hypotheses are met. -/
theorem witness_BootStages :
    (∃ (s : State) (i : BootInfo) (b : Bool), s.mod.mainOn = true ∧ s.boot.stage = 0 ∧ bankTried s i = some b ∧ bankOk i b = true) ∧
    (∃ (s : State) (i : BootInfo) (b : Bool), s.mod.mainOn = true ∧ s.boot.stage = 0 ∧ s.boot.fallback = false ∧ bankTried s i = some b ∧ bankOk i b = false ∧ (bankDir i (!b)).isSome = true) ∧
    (∃ (s : State) (i : BootInfo), s.mod.mainOn = true ∧ s.boot.stage = 0 ∧ bankTried s i = none) ∧
    (∃ (s : State) (i : BootInfo), s.mod.mainOn = true ∧ s.boot.stage = 1 ∧ fld (preg s .dev 0x104) 1 2 = 3 ∧ bankOk i s.boot.bankB = true) ∧
    (∃ (s : State), s.mod.mainOn = true ∧ s.boot.stage = 1 ∧ fld (preg s .dev 0x104) 1 2 ≠ 3) ∧
    (∃ (s : State), s.mod.mainOn = true ∧ s.boot.stage = 2) ∧
    (∃ (s : State), s.mod.mainOn = true ∧ s.boot.stage ≠ 3) :=
  ⟨⟨State.reset, wBootStages1_i, false, by decide +kernel⟩,
   ⟨State.reset, wBootStages2_i, false, by decide +kernel⟩,
   ⟨State.reset, wBootStages3_i, by decide +kernel⟩,
   ⟨wBootStages4_s, wBootStages1_i, by decide +kernel⟩,
   ⟨wBootStages5_s, by decide +kernel⟩,
   ⟨wBootStages6_s, by decide +kernel⟩,
   ⟨State.reset, by decide +kernel⟩⟩

/-- A witness of SelfTest. -/
def wSelfTest1_s : State := withBoot (fun b => { b with stage := 1, started := 1 })
/-- A witness of SelfTest. -/
def wSelfTest2_s : State := withBoot (fun b => { b with stage := 1, started := 0xFF, ended := 0x7F })
/-- A witness of SelfTest. -/
def wSelfTest4_s : State := withBoot (fun b => { b with ended := 0xFF, mismatched := 1 })
/-- A witness of SelfTest. -/
def wSelfTest6_s : State := withBoot (fun b => { b with stage := 1, ended := 0xFF, trained := 0x7F, initDue := false })
/-- A witness of SelfTest. -/
def wSelfTest7_s : State := withBoot (fun b => { b with stage := 1, ended := 0xFF })
/-- A witness of SelfTest. -/
def wSelfTest8_s : State := withBoot (fun b => { b with stage := 1, ended := 0xFF, retrying := 0x80 })
/-- A witness of SelfTest. -/
def wSelfTest9_s : State := { withBoot (fun b => { b with trained := 0xFF }) with dm := [(5, 9)] }
/-- Self-test, memory training and initialisation: its hypotheses are met. -/
theorem witness_SelfTest :
    (∃ (s : State) (g : Fin 8), s.boot.stage = 1 ∧ s.boot.started.getLsbD g.val = false ∧ (∀ k : Fin 8, g.val ≤ k.val ∨ s.boot.started.getLsbD k.val = true)) ∧
    (∃ (s : State) (g : Fin 8), s.boot.started.getLsbD g.val = true ∧ s.boot.ended.getLsbD g.val = false) ∧
    (∃ (s : State) (g : Fin 8), s.boot.started.getLsbD g.val = true ∧ s.boot.ended.getLsbD g.val = false) ∧
    (∃ (s : State) (id : Fin 256), s.boot.ended = 0xFF ∧ s.boot.mismatched = setBit 0 ((clusterOf id).val / 2) true ∧ s.boot.localised = false ∧ s.boot.stopped = false) ∧
    (∃ (s : State), s.boot.ended = 0xFF ∧ s.boot.mismatched = 1 ∧ s.boot.localised = false ∧ s.boot.stopped = false ∧ preg s .bt 0x178 = 0) ∧
    (∃ (s : State) (n : Fin 8), s.boot.stage = 1 ∧ groupZeroPassed s = true ∧ bit s.boot.trained n.val = false) ∧
    (∃ (s : State) (n : Fin 8), s.boot.stage = 1 ∧ groupZeroPassed s = true ∧ bit s.boot.trained n.val = false ∧ bit s.boot.retrying n.val = false) ∧
    (∃ (s : State) (n : Fin 8), s.boot.stage = 1 ∧ groupZeroPassed s = true ∧ bit s.boot.trained n.val = false ∧ bit s.boot.retrying n.val = true ∧ preg s .bt 0x178 = 0) ∧
    (∃ (s : State), s.boot.initDue = true ∧ s.boot.trained = 0xFF ∧ s.boot.stopped = false) :=
  ⟨⟨wSelfTest1_s, 1, by decide +kernel⟩,
   ⟨wSelfTest2_s, 7, by decide +kernel⟩,
   ⟨wSelfTest2_s, 7, by decide +kernel⟩,
   ⟨wSelfTest4_s, 3, by decide +kernel⟩,
   ⟨wSelfTest4_s, by decide +kernel⟩,
   ⟨wSelfTest6_s, 7, by decide +kernel⟩,
   ⟨wSelfTest7_s, 7, by decide +kernel⟩,
   ⟨wSelfTest8_s, 7, by decide +kernel⟩,
   ⟨wSelfTest9_s, by decide +kernel⟩⟩

end Sys2Proof.Tests
end

section
/-! PROOFS. A locked page: what a discarded write leaves, and the soft reset that such a write would have started (03 R94, R106). -/

namespace Sys2Proof

open Sys2Proof.Machine

/-! ## A rejected write -/

/-- PAGE_ERR and INT_STAT apart, a rejected write leaves every register of pages, but for the pending bits of MSI-X (03 R92). -/
theorem pageErr_preg (s : State) {p q : Page} (mask o : Nat) {k : Nat} (hk : k < 0x1000) (hint : ¬(q = p ∧ k = 0x30))
    (herr : ¬(q = p ∧ k = 0x3C)) (hmsix : ¬(q = .ep ∧ k = 0xA00)) : preg (pageErr s p mask o) q k = preg s q k := by
  unfold pageErr
  rw [raiseInt_preg _ _ hk hint hmsix, preg_setPreg _ _ (by omega) hk, if_neg herr]

/-- Each cause of a rejected write reads 1 in PAGE_ERR (03 R92). -/
theorem pageErr_cause (s : State) (p : Page) {mask : Nat} (o : Nat) {b : Nat} (hb : bit (BitVec.ofNat 32 mask) b = true) :
    bit (preg (pageErr s p mask o) p 0x3C) b = true := by
  unfold pageErr
  rw [raiseInt_preg _ _ (by omega) (by simp) (by simp), preg_setPreg_same]
  unfold bit at hb ⊢
  rw [BitVec.getLsbD_or, hb, Bool.or_true]

/-- A page lock rejects a write that it does not let through: LOCKED, and nothing of the word is taken (03 R94). -/
theorem pageWrite_locked {s : State} {p : Page} {o : Nat} {v : W32} (same : W32) (hl : bit (preg s p 0x44) 0 = true)
    (hx : lockExempt o v = false) : pageWrite s p o v same = ⟨pageErr s p 2 o, 0, false, true⟩ := by
  unfold pageWrite
  rw [hl, hx]
  rfl

/-! ## A write of CTRL of a locked page -/

/-- No word written to CTRL gets past a page lock: CTRL has no W1C bit (03 R94). -/
theorem lockExempt_ctrl (v : W32) : lockExempt 8 v = false := by
  simp [lockExempt, lockW1c]

/-- Starting or stopping ALIVE after an operation changes no part of the state: it is a report (12 R522). -/
theorem withAlive_after (g : State → State) (s : State) : Keeps [] (g s) (withAlive g s) := by
  unfold withAlive
  exact keeps_ite (fun _ => Keeps.refl _ _) (fun _ => emit_keeps _ (Keeps.refl _ _))

/-- A write of CTRL of a locked page is its rejection: after it only readiness is looked at again. -/
theorem ctrlWrite_locked {s : State} {p : Page} (v : W32) (hl : bit (preg s p 0x44) 0 = true) :
    Keeps [.boot] (pageErr s p 2 8) (ctrlWrite s p v) := by
  have hready : Keeps [.boot] (pageErr s p 2 8) (readyLog (pageErr s p 2 8)) := readyLog_keeps (by simp) (Keeps.refl _ _)
  unfold ctrlWrite
  refine Keeps.trans ?_ ((withAlive_after _ s).mono (by simp))
  simp only [withReady, pageWrite_locked 0 hl (lockExempt_ctrl v), if_true]
  exact hready

/-! ## The soft reset -/

/-- A soft reset is a write of CTRL (03 R87), so on a locked page it ends with the rejection and no reset takes place. -/
theorem exec_softReset_locked {s : State} {p : Page} (hl : bit (preg s p 0x44) 0 = true) :
    ∃ t, exec (.softReset p) s = .next t ∧ Keeps [.boot] (pageErr s p 2 8) t :=
  ⟨_, rfl, ctrlWrite_locked _ hl⟩

/-- Settles O13: the page lock rejects the write of CTRL, and what follows a rejected write is no reset. -/
theorem lockedSoftReset : Obligations.LockedSoftReset := by
  intro s page hl
  obtain ⟨t, hrun, hafter⟩ := exec_softReset_locked hl
  have hregs := hafter (.page (classOf page)) (by simp) page
  refine ⟨t, hrun, ?_, ?_, ?_, ?_⟩
  · exact (pageErr_keeps page 2 8 (by simp) (Keeps.refl _ s)).trans (hafter.mono (by simp))
  · rw [hregs 8 rfl (by omega) (by simp) (by simp)]
    exact pageErr_preg s 2 8 (by omega) (by simp) (by simp) (by simp)
  · rw [hregs 0x3C rfl (by omega) (by simp) (by simp)]
    exact pageErr_cause s page 8 (by decide)
  · intro o ho hint herr hmsix hlost
    rw [hregs o rfl ho hmsix hlost]
    exact pageErr_preg s 2 8 ho (by simp [hint]) (by simp [herr]) hmsix

end Sys2Proof
end

section
/-! PROOFS. A message that arrives at a core: dropped, or taken into its berth (04 R126, R128, R129). -/

namespace Sys2Proof

open Sys2Proof.Machine

/-! ## The address of an error -/

/-- A pair reads as the value written to it, of which it holds 64 bits (03 R78). -/
theorem preg64_setPreg64 (s : State) (p : Page) (o : Nat) {v : Nat} (hv : v < 2 ^ 64) : preg64 (setPreg64 s p o v) p o = v := by
  unfold preg64 setPreg64
  rw [preg_setPreg_off _ _ _ (by omega), preg_setPreg_same, preg_setPreg_same, BitVec.toNat_ofNat, BitVec.toNat_ofNat]
  omega

/-- The first error that a page latches leaves its address in ERR_ADDR (03 R91). -/
theorem raiseErr_addr (s : State) (p : Page) (src : Nat) {addr : Nat} (ha : addr < 2 ^ 64) (hv : bit (preg s p 0x20) 31 = false) :
    preg64 (raiseErr s p src addr) p 0x28 = addr := by
  have hnote : preg64 (noteErr s p src addr) p 0x28 = addr := by
    unfold noteErr
    simp only [hv, Bool.false_eq_true, if_false]
    exact preg64_setPreg64 _ _ _ ha
  unfold raiseErr raiseErrX
  split
  · exact hnote
  · unfold preg64
    rw [raiseInt_preg _ _ (by omega) (by simp) (by simp), raiseInt_preg _ _ (by omega) (by simp) (by simp)]
    exact hnote

/-! ## A dropped message -/

/-- A dropped message counts in GC_DROP (04 R128, R129). -/
theorem dropMsg_count (s : State) (id : Fin 256) (k addr : Nat) :
    preg (dropMsg s id (some k) addr) (.gc id) 0x240 = satAdd (preg s (.gc id) 0x240) 1 := by
  show preg (raiseErr _ _ _ _) _ _ = _
  rw [raiseErr_preg _ _ _ (by omega) (fun _ => rfl) (by simp)]
  exact preg_setPreg_same _ _ _ _

/-- The source of a drop reads 1 in ERR_STAT. -/
theorem dropMsg_source (s : State) (id : Fin 256) {k : Nat} (addr : Nat) (hk : k < 32) :
    bit (preg (dropMsg s id (some k) addr) (.gc id) 0x10) k = true := by
  have hbit : bit (one32 k) k = true := by simp [one32_bit, hk]
  show bit (preg (raiseErr _ _ _ _) _ _) k = true
  rw [raiseErr_stat]
  unfold bit at hbit ⊢
  rw [BitVec.getLsbD_or, hbit, Bool.or_true]

/-- Where no error was latched before, ERR_ADDR holds the sender of a dropped message (04 R128). -/
theorem dropMsg_sender (s : State) (id : Fin 256) (k : Nat) (a : W16) (hv : bit (preg s (.gc id) 0x20) 31 = false) :
    preg64 (dropMsg s id (some k) a.toNat) (.gc id) 0x28 = a.toNat := by
  refine raiseErr_addr _ _ _ (lt_trans a.isLt (by decide)) ?_
  unfold cntPreg
  rwa [preg_setPreg_off _ _ _ (by omega)]

/-- Of everything but registers of GC pages and the messages in flight, a message that is taken out of flight and dropped leaves the state as it
was: no fare goes back. -/
theorem dropMsg_flight_keeps (s : State) (l : List MeshMsg) (id : Fin 256) (src : Option Nat) (addr : Nat) :
    Keeps [.page .gc, .mesh] s (dropMsg { s with mesh := l } id src addr) :=
  dropMsg_keeps _ _ _ (by decide) (put_mesh_keeps _ (by decide) (Keeps.refl _ s))

/-- The messages in flight are those that the drop was given. -/
theorem dropMsg_mesh (s : State) (id : Fin 256) (src : Option Nat) (addr : Nat) : (dropMsg s id src addr).mesh = s.mesh :=
  (dropMsg_keeps (P := [.page .gc]) _ _ _ (by decide) (Keeps.refl _ s)) .mesh (by decide)

/-- A core that only a part not listed holds is the same. -/
theorem Keeps.core {P : List Part} {s t : State} (h : Keeps P s t) (hc : Part.cores ∉ P) (id : Fin 256) : t.core id = s.core id :=
  congrArg (·.get id) (h .cores hc)

/-! ## Whether a message is taken -/

/-- A core in RESET or FENCED refuses every message as DROP (04 R129). -/
theorem refuseMsg_stopped {s : State} {m : MeshMsg} (h : (s.core m.dst).st = .reset ∨ (s.core m.dst).st = .fenced) :
    refuseMsg s m = some 2 := if_pos h

/-- A core in another state refuses a message for a berth that is not EMPTY as BERTH_OVERRUN (04 R128). -/
theorem refuseMsg_overrun {s : State} {m : MeshMsg} (hr : (s.core m.dst).st ≠ .reset) (hf : (s.core m.dst).st ≠ .fenced)
    (hm : m.filling = false) (hb : ((s.core m.dst).berths.get m.berth).st ≠ .empty) : refuseMsg s m = some 1 :=
  (if_neg (not_or.mpr ⟨hr, hf⟩)).trans (if_pos ⟨hm, hb⟩)

/-- A core in another state takes a message whose berth is EMPTY, and one whose first flit it has taken (04 R126, R129). -/
theorem refuseMsg_none {s : State} {m : MeshMsg} (hr : (s.core m.dst).st ≠ .reset) (hf : (s.core m.dst).st ≠ .fenced)
    (hb : m.filling = true ∨ ((s.core m.dst).berths.get m.berth).st = .empty) : refuseMsg s m = none := by
  refine (if_neg (not_or.mpr ⟨hr, hf⟩)).trans (if_neg ?_)
  rintro ⟨hfill, hst⟩
  rcases hb with hb | hb
  · simp [hb] at hfill
  · exact hst hb

/-! ## A message at its turn -/

/-- Message `i` in flight is `m`, the clocks of its core run, and no message of its sender's channel is before it (04 R125; 12 R520). -/
structure AtTurn (s : State) (i : Nat) (m : MeshMsg) : Prop where
  here : s.mesh[i]? = some m
  running : stopped s = false
  first : ((s.mesh.take i).any fun x => decide (x.src = m.src) && decide (x.chan = m.chan)) = false

theorem exec_messageDelivery {s t : State} {i : Nat} {flit parityOk : Bool} (h : messageArrives s i flit parityOk = t) :
    exec (.messageDelivery i flit parityOk) s = .next t := congrArg Host.Outcome.next h

/-- A refused message is dropped at its first flit as at its last one. -/
theorem messageArrives_refused {s : State} {i : Nat} {m : MeshMsg} {k : Nat} (flit : Bool) (h : AtTurn s i m) (hm : m.filling = false)
    (hk : refuseMsg s m = some k) :
    messageArrives s i flit true = dropMsg { s with mesh := dropAt s.mesh i } m.dst (some k) m.src.toNat := by
  have hgone : refuseMsg { s with mesh := dropAt s.mesh i } m = some k := hk
  cases flit with
  | false => simp [messageArrives, h.here, h.running, h.first, deliver, hgone]
  | true => simp [messageArrives, h.here, h.running, h.first, beginFill, hm, hk]

/-- With its last flit a message is taken out of flight and delivered. -/
theorem messageArrives_last {s : State} {i : Nat} {m : MeshMsg} (h : AtTurn s i m) :
    messageArrives s i false true = deliver { s with mesh := dropAt s.mesh i } m false := by
  simp [messageArrives, h.here, h.running, h.first]

/-! ## What the end of a wait leaves in the berths -/

@[simp] theorem setS_berths (c : Core) (rd : SReg) (v : W64) : (c.setS rd v).berths = c.berths := by
  unfold Core.setS
  split <;> rfl

@[simp] theorem recvDone_berths (c : Core) (rd : SReg) (b : Option Nat) : (recvDone c rd b).berths = c.berths := by
  cases b <;> simp [recvDone]

theorem waitCore_recv (c : Core) (rd : SReg) (k : W16) : waitCore c (.recv rd k) =
    if k = 0 then some (recvDone c rd none) else (c.lowestFull k).map fun b => recvDone c rd (some b) := rfl

theorem waitCore_event (c : Core) (rd : SReg) (k : W32) : waitCore c (.event rd k) =
    if k = 0 then some (c.setS rd 0)
    else if c.events &&& k = 0 then none
    else some { c.setS rd ((c.events &&& k).setWidth 64) with events := c.events &&& ~~~k } := rfl

theorem waitCore_eventAll (c : Core) (rd : SReg) (k : W32) : waitCore c (.eventAll rd k) =
    if c.events &&& k = k then some { c.setS rd (k.setWidth 64) with events := c.events &&& ~~~k } else none := rfl

/-- A wait that has nothing to write ends, where it does, with its core as it was. -/
theorem waitCore_plain {c c' : Core} {w : Wait} (h : waitCore c w = some c') (hr : ∀ rd k, w ≠ .recv rd k) (he : ∀ rd k, w ≠ .event rd k)
    (ha : ∀ rd k, w ≠ .eventAll rd k) : c' = c := by
  have hite : ∀ {q : Prop} [Decidable q], (if q then some c else none) = some c' → c' = c := fun h => by
    split at h
    · exact (Option.some.inj h).symm
    · exact absurd h (Option.some_ne_none c').symm
  cases w with
  | recv rd k => exact absurd rfl (hr rd k)
  | event rd k => exact absurd rfl (he rd k)
  | eventAll rd k => exact absurd rfl (ha rd k)
  | fence => exact hite h
  | pendingSlot _ => exact hite (q := ¬c.anyPending) (by rw [ite_not]; exact h)
  | accessLimit st => exact hite h
  | send _ _ | acq _ _ | mapW _ _ | rel _ _ | sync => exact absurd h (Option.some_ne_none c').symm

/-- RECV reads a berth and leaves it FULL, and no other wait has to do with berths (05 R189). -/
theorem waitCore_berths {c c' : Core} {w : Wait} (h : waitCore c w = some c') : c'.berths = c.berths := by
  cases w with
  | recv rd k =>
    rw [waitCore_recv] at h
    split at h
    · exact Option.some.inj h ▸ recvDone_berths c rd none
    · obtain ⟨b, -, hb⟩ := Option.map_eq_some_iff.mp h
      exact hb ▸ recvDone_berths c rd (some b)
  | event rd k =>
    rw [waitCore_event] at h
    split at h
    · exact Option.some.inj h ▸ setS_berths c rd _
    · split at h
      · exact absurd h (Option.some_ne_none c').symm
      · exact Option.some.inj h ▸ setS_berths c rd _
  | eventAll rd k =>
    rw [waitCore_eventAll] at h
    split at h
    · exact Option.some.inj h ▸ setS_berths c rd _
    · exact absurd h (Option.some_ne_none c').symm
  | _ => rw [waitCore_plain h (by simp) (by simp) (by simp)]

@[simp] theorem setCore_core_same (s : State) (id : Fin 256) (c : Core) : (s.setCore id c).core id = c := by
  unfold State.setCore
  simp only
  split_ifs <;> exact setCoreRaw_core_same s id c

theorem setWaits_berths (s : State) (id : Fin 256) (c : Core) (ws : List Wait) : ((setWaits s id c ws).core id).berths = c.berths := by
  cases ws <;> simp [setWaits]

/-- A core that ends its waits keeps its berths. -/
theorem wakeCore_berths (s : State) (id : Fin 256) : ((wakeCore s id).core id).berths = (s.core id).berths := by
  unfold wakeCore
  simp only
  split
  · rfl
  · rw [setWaits_berths]
    refine List.foldlRecOn (motive := fun a : Core × List Wait => a.1.berths = (s.core id).berths) _ _ rfl fun a ha w _ => ?_
    split
    · next c' hc => exact (waitCore_berths hc).trans ha
    · exact ha

/-! ## A delivered message -/

/-- The berth of a message that is taken is FULL. -/
theorem deliver_full {s : State} {m : MeshMsg} (injected : Bool) (h : refuseMsg s m = none) :
    (((deliver s m injected).core m.dst).berths.get m.berth).st = .full := by
  unfold deliver
  simp only [h]
  rw [wakeCore_berths]
  show ((((s.setCore m.dst _).core m.dst)).berths.get m.berth).st = .full
  rw [setCore_core_same]
  exact congrArg Berth.st (Vector.getElem_set_self ..)

/-- A message that is taken counts in GC_RECV_CNT alone: GC_DROP stays. -/
theorem deliver_dropCount {s : State} {m : MeshMsg} (injected : Bool) (h : refuseMsg s m = none) :
    preg (deliver s m injected) (.gc m.dst) 0x240 = preg s (.gc m.dst) 0x240 := by
  have hgc : ∀ {t u : State}, Keeps [.page .sd, .cores, .sd] t u → preg u (.gc m.dst) 0x240 = preg t (.gc m.dst) 0x240 :=
    fun hk => hk (.page .gc) (by decide) _ _ rfl (by omega) (by simp) (by simp)
  unfold deliver
  simp only [h]
  rw [hgc (wakeCore_keeps _ (by decide) (Keeps.refl _ _))]
  unfold cntPreg
  rw [preg_setPreg_off _ _ _ (by omega)]
  exact hgc (State.setCore_keeps _ _ (by decide) (Keeps.refl _ _))

theorem deliver_mesh (s : State) (m : MeshMsg) (injected : Bool) : (deliver s m injected).mesh = s.mesh :=
  (deliver_keeps (P := [.page .sd, .page .gc, .cores, .sd]) _ _ (by decide) (Keeps.refl _ s)) .mesh (by decide)

/-! ## The statements -/

/-- A refused message completes as its drop: its source and GC_DROP tell of it, its sender is latched, and no fare goes back (04 R128, R129). -/
theorem messageDelivery_refused {s : State} {i : Nat} {m : MeshMsg} {k : Nat} (flit : Bool) (h : AtTurn s i m) (hm : m.filling = false)
    (hk : refuseMsg s m = some k) (hlt : k < 32) :
    Runs (.messageDelivery i flit true) s [.page .gc, .mesh] fun t =>
      t.mesh = dropAt s.mesh i ∧
      t.core m.dst = s.core m.dst ∧
      bit (preg t (.gc m.dst) 0x10) k = true ∧
      (bit (preg s (.gc m.dst) 0x20) 31 = false → preg64 t (.gc m.dst) 0x28 = m.src.toNat) ∧
      preg t (.gc m.dst) 0x240 = satAdd (preg s (.gc m.dst) 0x240) 1 ∧
      t.fares = s.fares ∧
      t.ports = s.ports := by
  have hkeeps := dropMsg_flight_keeps s (dropAt s.mesh i) m.dst (some k) m.src.toNat
  refine ⟨_, exec_messageDelivery (messageArrives_refused flit h hm hk), hkeeps, ?_, ?_, ?_, ?_, ?_, ?_, ?_⟩
  · exact dropMsg_mesh _ _ _ _
  · exact hkeeps.core (by decide) m.dst
  · exact dropMsg_source _ _ _ hlt
  · exact dropMsg_sender { s with mesh := dropAt s.mesh i } _ _ _
  · exact dropMsg_count _ _ _ _
  · exact hkeeps .fares (by decide)
  · exact hkeeps .ports (by decide)

/-- A message that is taken completes as its delivery (04 R126). -/
theorem messageDelivery_taken {s : State} {i : Nat} {m : MeshMsg} (h : AtTurn s i m) (htaken : refuseMsg s m = none) :
    Runs (.messageDelivery i false true) s [.page .sd, .page .gc, .cores, .mesh, .sd] fun t =>
      t.mesh = dropAt s.mesh i ∧
      ((t.core m.dst).berths.get m.berth).st = .full ∧
      preg t (.gc m.dst) 0x240 = preg s (.gc m.dst) 0x240 := by
  have hgone : refuseMsg { s with mesh := dropAt s.mesh i } m = none := htaken
  refine ⟨_, exec_messageDelivery (messageArrives_last h), ?_, ?_, ?_, ?_⟩
  · exact deliver_keeps _ _ (by decide) (put_mesh_keeps _ (by decide) (Keeps.refl _ s))
  · exact deliver_mesh _ _ _
  · exact deliver_full _ hgone
  · exact deliver_dropCount _ hgone

/-- Settles O18: a core in RESET or FENCED refuses the message and it is dropped; any other core takes it into its berth, which the waits that it
ends leave FULL. -/
theorem messageAccepted : Obligations.MessageAccepted := by
  constructor
  · intro s i m flit hi hstop hm hfirst hst
    obtain ⟨t, hrun, hkeeps, hmesh, hcore, -, -, hcount, hfares, hports⟩ :=
      messageDelivery_refused flit ⟨hi, hstop, hfirst⟩ hm (refuseMsg_stopped hst) (by decide)
    exact ⟨t, hrun, hkeeps, hmesh, hcore, hcount, hfares, hports⟩
  · intro s i m hi hstop hfirst hr hf hb
    exact messageDelivery_taken ⟨hi, hstop, hfirst⟩ (refuseMsg_none hr hf hb)

/-- Settles O19: a berth that is not EMPTY refuses the message as BERTH_OVERRUN, and it is dropped. -/
theorem berthOverrun : Obligations.BerthOverrun := by
  intro s i m flit hi hstop hm hfirst hr hf hb
  exact messageDelivery_refused flit ⟨hi, hstop, hfirst⟩ hm (refuseMsg_overrun hr hf hm hb) (by decide)

end Sys2Proof
end

section
/-! PROOFS. A START that is ignored: at a core in RUN or WAIT, and while an earlier START has not ended (03 R86, R93; 04 R161). -/

namespace Sys2Proof

open Sys2Proof.Machine

/-! ## The row of GC_START -/

/-- GC_START's row of the GC page's table: PC, START and PARK (04 R135). -/
def gcStartRow : RegRow := r 0x110 0 [f 4 12 .rw, f 16 1 .go, f 17 1 .go]

theorem rowOf_gcStart (core : Fin 256) : rowOf (.gc core) 0x110 = some gcStartRow := rfl

/-- GC_START is a register of its own, no half of a pair. -/
theorem gcStart_unpaired (core : Fin 256) (lo : RegRow) (h : rowOf (.gc core) (0x110 - 4) = some lo) : lo.pair = false := by
  cases h
  rfl

/-! ## Fields of a written word -/

/-- A field that reserves no encoding takes whatever is written. -/
theorem wrField_rw (locked : Bool) (v same : W32) (a : Wr) (lo w : Nat) :
    wrField locked v same a (f lo w .rw) = { a with new := setFld a.new lo w (fld v lo w) } := by
  have hmost : fld v lo w ≤ 2 ^ w - 1 := Nat.le_sub_one_of_lt (Nat.mod_lt _ (Nat.two_pow_pos w))
  simp [wrField, f, hmost]

/-- A bit reads 0 as a field of its own. -/
theorem fld_eq_zero_of_bit {n : Nat} {x : BitVec n} {b : Nat} (h : bit x b = false) : fld x b 1 = 0 := by
  have hlt : fld x b 1 < 2 := Nat.mod_lt _ (by decide)
  rw [bit_eq_fld] at h
  have hne := of_decide_eq_false h
  omega

/-- A bit reads 1 as a field of its own. -/
theorem fld_eq_one_of_bit {n : Nat} {x : BitVec n} {b : Nat} (h : bit x b = true) : fld x b 1 = 1 := by
  rw [bit_eq_fld] at h
  exact of_decide_eq_true h

/-- A GO field that a word leaves 0 is left alone (03 R86). -/
theorem wrField_go_zero (locked : Bool) {v : W32} (same : W32) (a : Wr) {b : Nat} (hv : bit v b = false) :
    wrField locked v same a (f b 1 .go) = a := by
  simp [wrField, f, fld_eq_zero_of_bit hv]

/-- A 1 written to a GO field that reads 0 starts its action (03 R86). -/
theorem wrField_go_starts (locked : Bool) {v : W32} (same : W32) {a : Wr} {b : Nat} (hv : bit v b = true) (ha : bit a.new b = false) :
    wrField locked v same a (f b 1 .go) = { a with new := setFld a.new b 1 1, go := a.go ||| one32 b } := by
  simp [wrField, f, fld_eq_one_of_bit hv, fld_eq_zero_of_bit ha]

/-- A 1 written to a GO field that reads 1 is rejected as GO_BUSY (03 R93). -/
theorem wrField_go_busy (locked : Bool) {v : W32} (same : W32) {a : Wr} {b : Nat} (hv : bit v b = true) (ha : bit a.new b = true) :
    wrField locked v same a (f b 1 .go) = { a with rej := a.rej ||| 32 } := by
  simp [wrField, f, fld_eq_one_of_bit hv, fld_eq_one_of_bit ha]

/-! ## A word written to GC_START -/

/-- GC_START with the PC field of a word. -/
def gcStartPc (s : State) (core : Fin 256) (v : W32) : W32 := setFld (preg s (.gc core) 0x110) 4 12 (fld v 4 12)

theorem gcStartPc_start (s : State) (core : Fin 256) (v : W32) : bit (gcStartPc s core v) 16 = bit (preg s (.gc core) 0x110) 16 :=
  bit_setFld_out _ _ _ _ _ (by omega)

/-- What a word without PARK comes to: PC, and START. -/
theorem wrReg_gcStart (s : State) (core : Fin 256) {v : W32} (hp : bit v 17 = false) :
    wrReg s (.gc core) 0x110 gcStartRow v 0 =
      wrField (rwlLocked s (.gc core) 0x110) v 0 ⟨gcStartPc s core v, 0, 0⟩ (f 16 1 .go) := by
  simp [wrReg, gcStartRow, r, wrField_rw, wrField_go_zero _ _ _ hp, crossCheck, wrFix, gcStartPc]

/-- The word starts START. -/
theorem wrReg_gcStart_starts {s : State} {core : Fin 256} {v : W32} (hold : bit (preg s (.gc core) 0x110) 16 = false) (hv : bit v 16 = true)
    (hp : bit v 17 = false) :
    wrReg s (.gc core) 0x110 gcStartRow v 0 = ⟨setFld (gcStartPc s core v) 16 1 1, 0, one32 16⟩ := by
  rw [wrReg_gcStart s core hp, wrField_go_starts (a := ⟨gcStartPc s core v, 0, 0⟩) _ _ hv ((gcStartPc_start s core v).trans hold)]
  simp

/-- START is busy: the word is rejected for it, and its PC taken. -/
theorem wrReg_gcStart_busy {s : State} {core : Fin 256} {v : W32} (hold : bit (preg s (.gc core) 0x110) 16 = true) (hv : bit v 16 = true)
    (hp : bit v 17 = false) : wrReg s (.gc core) 0x110 gcStartRow v 0 = ⟨gcStartPc s core v, 32, 0⟩ := by
  rw [wrReg_gcStart s core hp, wrField_go_busy (a := ⟨gcStartPc s core v, 0, 0⟩) _ _ hv ((gcStartPc_start s core v).trans hold)]
  simp

/-- A write of GC_START of a page that is not locked stores what the word comes to. -/
theorem pageWrite_gcStart {s : State} {core : Fin 256} (v : W32) (hl : Unlocked s (.gc core)) :
    pageWrite s (.gc core) 0x110 v =
      ⟨wrStore s (.gc core) 0x110 (wrReg s (.gc core) 0x110 gcStartRow v 0), (wrReg s (.gc core) 0x110 gcStartRow v 0).go, true,
        decide ((wrReg s (.gc core) 0x110 gcStartRow v 0).rej ≠ 0)⟩ :=
  pageWrite_eq v 0 (.inl hl) (rowOf_gcStart core) rfl (fun lo _ h => gcStart_unpaired core lo h)

/-! ## A START that does nothing -/

theorem exec_gcStart {s t : State} {core : Fin 256} {v : W32} (h : gcStartWrite s core v = t) : exec (.gcStart core v) s = .next t :=
  congrArg Host.Outcome.next h

/-- The state after a START that has started and is ignored: its PC is taken, and its bit is clear again. -/
def startLapsed (s : State) (core : Fin 256) (v : W32) : State :=
  clrPreg (wrStore s (.gc core) 0x110 ⟨setFld (gcStartPc s core v) 16 1 1, 0, one32 16⟩) (.gc core) 0x110 (one32 16)

theorem startLapsed_keeps (s : State) (core : Fin 256) (v : W32) : Keeps [.page .gc] s (startLapsed s core v) :=
  clrPreg_keeps _ _ _ (by omega) (by simp [classOf]) (wrStore_keeps _ _ _ (by omega) (by simp [classOf]) (Keeps.refl _ s))

/-- GC_START apart, it leaves every register of the core's page. -/
theorem startLapsed_preg (s : State) (core : Fin 256) (v : W32) {k : Nat} (hk : k < 0x1000) (hne : k ≠ 0x110) :
    preg (startLapsed s core v) (.gc core) k = preg s (.gc core) k :=
  (preg_setPreg_off _ _ _ hne).trans (wrStore_preg_other s (by omega) hk rfl (fun e => hne e.2) (by simp) (by simp))

/-- START at a core in RUN or WAIT: its bit clears again and no action completes (04 R161). -/
theorem gcStartWrite_ignored {s : State} {core : Fin 256} {v : W32} (hs : Starts s (.gc core) 0x110 16 v) (hp : bit v 17 = false)
    (hst : (s.core core).st = .run ∨ (s.core core).st = .wait) :
    gcStartWrite s core v = startLapsed s core v := by
  obtain ⟨hl, hold, hv⟩ := hs
  have hcore : ∀ a, (wrStore s (.gc core) 0x110 a).core core = s.core core := fun a =>
    (wrStore_keeps (P := [.page .gc]) _ _ a (by omega) (by simp [classOf]) (Keeps.refl _ s)).core (by decide) core
  unfold gcStartWrite
  rw [pageWrite_gcStart v hl, wrReg_gcStart_starts hold hv hp]
  rcases hst with h | h <;> simp [Written.started, one32_bit, hcore, h, startLapsed]

/-- START while an earlier one has not ended: its write is rejected, and nothing starts (03 R93). -/
theorem gcStartWrite_busy {s : State} {core : Fin 256} {v : W32} (hl : Unlocked s (.gc core)) (hold : bit (preg s (.gc core) 0x110) 16 = true)
    (hv : bit v 16 = true) (hp : bit v 17 = false) :
    gcStartWrite s core v = wrStore s (.gc core) 0x110 ⟨gcStartPc s core v, 32, 0⟩ := by
  unfold gcStartWrite
  rw [pageWrite_gcStart v hl, wrReg_gcStart_busy hold hv hp]
  simp [Written.started, bit]

/-- A cause for which a write is rejected reads 1 in PAGE_ERR (03 R92). -/
theorem wrStore_cause (s : State) (p : Page) (o : Nat) {a : Wr} {b : Nat} (ha : a.rej ≠ 0) (hb : bit (BitVec.ofNat 32 a.rej) b = true) :
    bit (preg (wrStore s p o a) p 0x3C) b = true := by
  unfold wrStore
  simp only [ha, if_false]
  exact pageErr_cause _ _ _ hb

/-- Bits that are cleared read 0. -/
theorem bit_clrPreg (s : State) (p : Page) (o : Nat) {b : Nat} (hb : b < 32) : bit (preg (clrPreg s p o (one32 b)) p o) b = false := by
  have hone : bit (one32 b) b = true := by simp [one32_bit, hb]
  unfold clrPreg
  rw [preg_setPreg_same]
  unfold bit at hone ⊢
  simp [BitVec.getLsbD_and, BitVec.getLsbD_not, hone]

/-- Settles O16: at a core in RUN or WAIT the bit of START clears without an action, and an earlier START that has not ended makes the write
GO_BUSY. -/
theorem startIgnored : Obligations.StartIgnored := by
  refine ⟨fun s core v hs hp hst => ?_, fun s core v hl hold hv hp _ => ?_⟩
  · have hkeeps := startLapsed_keeps s core v
    exact ⟨_, exec_gcStart (gcStartWrite_ignored hs hp hst), hkeeps, hkeeps.core (by decide) core,
      startLapsed_preg s core v (by omega) (by omega), startLapsed_preg s core v (by omega) (by omega),
      startLapsed_preg s core v (by omega) (by omega), bit_clrPreg _ _ _ (by omega)⟩
  · have hkeeps : Keeps [.page .gc] s (wrStore s (.gc core) 0x110 ⟨gcStartPc s core v, 32, 0⟩) :=
      wrStore_keeps _ _ _ (by omega) (by simp [classOf]) (Keeps.refl _ s)
    exact ⟨_, exec_gcStart (gcStartWrite_busy hl hold hv hp), hkeeps, hkeeps.core (by decide) core,
      wrStore_cause _ _ _ (by simp) (by decide : bit (BitVec.ofNat 32 32) 5 = true)⟩

end Sys2Proof
end

section
/-! PROOFS. The invariant, and the gangplank's lock: what every command keeps (12 R512; 13 R552, R568; 09 R392). -/

namespace Sys2Proof

open Sys2Proof.Machine

/-! ## The invariant -/

/-- Every command keeps the invariant. -/
theorem exec_inv (c : Instr) {s : State} (h : Inv s) : NextInv (exec c s) := by
  cases c with
  | stepBoundary => exact execStepBoundary_inv h
  | tideFrame _ _ => exact execTideFrame_inv _ _ h
  | tideMiss => exact execTideMiss_inv h
  | holdExpired => exact execHoldExpired_inv h
  | refLoss => exact execRefLoss_inv h
  | tdEnable _ => exact execTdEnable_inv _ h
  | relock _ => exact execRelock_inv _ h
  | tdResume _ => exact execTdResume_inv _ h
  | tdLenNextWrite _ _ => exact execTdLenNextWrite_inv _ _ h
  | tdWinWrite _ => exact execTdWinWrite_inv _ h
  | xlTide _ _ _ => exact execXlTide_inv _ _ _ h
  | ttNop _ _ => exact execTtNop_inv _ _ h
  | ttEvent _ _ => exact execTtEvent_inv _ _ h
  | ttStart _ _ => exact execTtStart_inv _ _ h
  | ttSend _ _ _ _ => exact execTtSend_inv _ _ _ _ h
  | ttManifest _ _ _ _ => exact execTtManifest_inv _ _ _ _ h
  | ttDeadlineBerth _ _ => exact execTtDeadlineBerth_inv _ _ h
  | ttDeadlineMark _ _ => exact execTtDeadlineMark_inv _ _ h
  | ttLoad _ _ => exact execTtLoad_inv _ _ h
  | ttQuietOn _ _ => exact execTtQuietOn_inv _ _ h
  | ttQuietOff _ _ => exact execTtQuietOff_inv _ _ h
  | ttTrap _ _ => exact execTtTrap_inv _ _ h
  | ttBadact _ _ => exact execTtBadact_inv _ _ h
  | ttArm _ _ => exact execTtArm_inv _ _ h
  | ttBankWrite _ _ _ => exact execTtBankWrite_inv _ _ _ h
  | ttEnable _ _ => exact execTtEnable_inv _ _ h
  | registerWrite _ => exact execRegisterWrite_inv _ h
  | unmappedAccess _ _ => exact execUnmappedAccess_inv _ _ h
  | pairLoRead _ _ => exact execPairLoRead_inv _ _ h
  | pairHiWrite _ _ => exact execPairHiWrite_inv _ _ h
  | softReset _ => exact execSoftReset_inv _ h
  | pageLock _ _ => exact execPageLock_inv _ _ h
  | ctrlFenceWrite _ _ => exact execCtrlFenceWrite_inv _ _ h
  | gcEnable _ _ => exact execGcEnable_inv _ _ h
  | gcStart _ _ => exact execGcStart_inv _ _ h
  | gcPark _ _ => exact execGcPark_inv _ _ h
  | coreParked _ => exact execCoreParked_inv _ h
  | gcKick _ _ => exact execGcKick_inv _ _ h
  | messageDelivery _ _ _ => exact execMessageDelivery_inv _ _ _ h
  | fareReturn _ => exact execFareReturn_inv _ h
  | lockStatePe _ => exact execLockStatePe_inv _ h
  | forceFree _ => exact execForceFree_inv _ h
  | forceBreak _ => exact execForceBreak_inv _ h
  | sdPartReset _ => exact execSdPartReset_inv _ h
  | bundleIssue _ _ _ => exact execBundleIssue_inv _ _ _ h
  | mmaComplete _ _ => exact execMmaComplete_inv _ _ h
  | globalAccessComplete _ _ _ => exact execGlobalAccessComplete_inv _ _ _ h
  | mapFillComplete _ _ _ => exact execMapFillComplete_inv _ _ _ h
  | manifestStart _ _ => exact execManifestStart_inv _ _ h
  | manifestElement _ _ _ _ => exact execManifestElement_inv _ _ _ _ h
  | manifestComplete _ _ => exact execManifestComplete_inv _ _ h
  | segmentTranslation _ _ => exact execSegmentTranslation_inv _ _ h
  | segmentTranslationDone _ _ _ => exact execSegmentTranslationDone_inv _ _ _ h
  | manifestPartial _ _ => exact execManifestPartial_inv _ _ h
  | abortAll _ _ => exact execAbortAll_inv _ _ h
  | mvEn _ _ => exact execMvEn_inv _ _ h
  | mbNop _ _ _ => exact execMbNop_inv _ _ _ h
  | mbSubmit _ _ _ _ _ => exact execMbSubmit_inv _ _ _ _ _ h
  | mbWriteInline _ _ _ _ => exact execMbWriteInline_inv _ _ _ _ h
  | mbInject _ _ _ => exact execMbInject_inv _ _ _ h
  | mbKick _ _ _ => exact execMbKick_inv _ _ _ h
  | mbResume _ _ _ _ => exact execMbResume_inv _ _ _ _ h
  | mbAbort _ _ _ => exact execMbAbort_inv _ _ _ h
  | mbFence _ _ _ => exact execMbFence_inv _ _ _ h
  | tblWrite _ _ _ => exact execTblWrite_inv _ _ _ h
  | invalidate _ _ _ => exact execInvalidate_inv _ _ _ h
  | invalidateComplete _ _ => exact execInvalidateComplete_inv _ _ h
  | mbBadCmd _ _ _ => exact execMbBadCmd_inv _ _ _ h
  | mailboxEn _ _ => exact execMailboxEn_inv _ _ h
  | winReset _ _ => exact execWinReset_inv _ _ h
  | xbArbitration _ _ => exact execXbArbitration_inv _ _ h
  | xbStarve _ _ => exact execXbStarve_inv _ _ h
  | holdTimeout _ => exact execHoldTimeout_inv _ h
  | bar2Write _ _ _ _ => exact execBar2Write_inv _ _ _ _ h
  | unsupportedRequest _ _ _ => exact execUnsupportedRequest_inv _ _ _ h
  | vtClear _ => exact execVtClear_inv _ h
  | vtCtxEnWrite _ => exact execVtCtxEnWrite_inv _ h
  | rds _ _ _ _ => exact execRds_inv _ _ _ _ h
  | rdo _ _ _ => exact execRdo_inv _ _ _ h
  | upg _ _ _ => exact execUpg_inv _ _ _ h
  | wb _ _ => exact execWb_inv _ _ h
  | cleanNotice _ _ => exact execCleanNotice_inv _ _ h
  | rdcur _ _ _ => exact execRdcur_inv _ _ _ h
  | wrinv _ _ _ => exact execWrinv_inv _ _ _ h
  | wrpart _ _ _ _ _ => exact execWrpart_inv _ _ _ _ _ h
  | forwardRequest _ _ _ => exact execForwardRequest_inv _ _ _ h
  | snoopInvalidate _ _ => exact execSnoopInvalidate_inv _ _ h
  | requestRetry _ _ _ => exact execRequestRetry_inv _ _ _ h
  | dcStarve _ _ _ => exact execDcStarve_inv _ _ _ h
  | cacheFill _ _ _ _ _ => exact execCacheFill_inv _ _ _ _ _ h
  | ccFlush _ _ => exact execCcFlush_inv _ _ h
  | ccInv _ _ => exact execCcInv_inv _ _ h
  | dcFlush _ _ => exact execDcFlush_inv _ _ h
  | dcInv _ _ => exact execDcInv_inv _ _ h
  | invalidated _ => exact execInvalidated_inv _ h
  | cacheEnable _ _ _ => exact execCacheEnable_inv _ _ _ h
  | mcRead _ _ _ => exact execMcRead_inv _ _ _ h
  | mcPartialWrite _ _ _ _ _ => exact execMcPartialWrite_inv _ _ _ _ _ h
  | mcFullWrite _ _ _ _ => exact execMcFullWrite_inv _ _ _ _ h
  | scrubRead _ _ _ => exact execScrubRead_inv _ _ _ h
  | lwEnable _ => exact execLwEnable_inv _ h
  | lwMove _ => exact execLwMove_inv _ h
  | lwScanDone => exact execLwScanDone_inv h
  | bisnpResponse _ _ => exact execBisnpResponse_inv _ _ h
  | biSlow => exact execBiSlow_inv h
  | memrd _ _ => exact execMemrd_inv _ _ h
  | memrddata _ => exact execMemrddata_inv _ h
  | meminv _ _ => exact execMeminv_inv _ _ h
  | memwr _ _ _ => exact execMemwr_inv _ _ _ h
  | memwrptl _ _ _ _ => exact execMemwrptl_inv _ _ _ _ h
  | snpdata _ => exact execSnpdata_inv _ h
  | snpinv _ => exact execSnpinv_inv _ h
  | snpcur _ => exact execSnpcur_inv _ h
  | cxlCacheResponse _ _ => exact execCxlCacheResponse_inv _ _ h
  | linkUp _ => exact execLinkUp_inv _ h
  | linkTrainingRetry => exact execLinkTrainingRetry_inv h
  | linkReplay => exact execLinkReplay_inv h
  | linkRecovery => exact execLinkRecovery_inv h
  | linkDown => exact execLinkDown_inv h
  | completionTimeout _ => exact execCompletionTimeout_inv _ h
  | l1Entry _ => exact execL1Entry_inv _ h
  | l1Exit => exact execL1Exit_inv h
  | l0pNarrow => exact execL0pNarrow_inv h
  | l0pWiden => exact execL0pWiden_inv h
  | cacheWritebackAndInvalidate => exact execCacheWritebackAndInvalidate_inv h
  | powerStateWrite _ => exact execPowerStateWrite_inv _ h
  | completionTimeoutWrite _ => exact execCompletionTimeoutWrite_inv _ h
  | doeRequest _ _ _ => exact execDoeRequest_inv _ _ _ h
  | commit _ => exact execCommit_inv _ h
  | uncommit _ => exact execUncommit_inv _ h
  | freeze _ => exact execFreeze_inv _ h
  | release _ _ => exact execRelease_inv _ _ h
  | msixUnmask _ _ => exact execMsixUnmask_inv _ _ h
  | functionLevelReset => exact execFunctionLevelReset_inv h
  | xlEnable _ _ => exact execXlEnable_inv _ _ h
  | xlStageComplete _ _ => exact execXlStageComplete_inv _ _ h
  | xlStageTimeout _ _ => exact execXlStageTimeout_inv _ _ h
  | xlRestart _ => exact execXlRestart_inv _ h
  | retrain _ _ => exact execRetrain_inv _ _ h
  | probe _ _ => exact execProbe_inv _ _ h
  | xlWinReset _ _ => exact execXlWinReset_inv _ _ h
  | xlSlotArm _ _ => exact execXlSlotArm_inv _ _ h
  | fecLockLoss _ => exact execFecLockLoss_inv _ h
  | credit _ _ => exact execCredit_inv _ _ h
  | ack _ _ => exact execAck_inv _ _ h
  | nak _ _ => exact execNak_inv _ _ h
  | fare _ _ => exact execFare_inv _ _ h
  | probeWord _ _ _ => exact execProbeWord_inv _ _ _ h
  | echo _ _ _ => exact execEcho_inv _ _ _ h
  | abort _ _ => exact execAbort_inv _ _ h
  | ident0 _ _ => exact execIdent0_inv _ _ h
  | ident1 _ _ => exact execIdent1_inv _ _ h
  | replay _ _ => exact execReplay_inv _ _ h
  | down _ _ => exact execDown_inv _ _ h
  | reservedWord _ _ => exact execReservedWord_inv _ _ h
  | bundleReceived _ _ => exact execBundleReceived_inv _ _ h
  | bundleClose _ _ _ => exact execBundleClose_inv _ _ _ h
  | slotOpen _ _ => exact execSlotOpen_inv _ _ h
  | slotClose _ _ => exact execSlotClose_inv _ _ h
  | bundleTransmit _ => exact execBundleTransmit_inv _ h
  | pwTargetEval _ => exact execPwTargetEval_inv _ h
  | voltageStepDone _ => exact execVoltageStepDone_inv _ h
  | frequencyStep _ => exact execFrequencyStep_inv _ h
  | powerSample _ _ => exact execPowerSample_inv _ _ h
  | pwrSense _ => exact execPwrSense_inv _ h
  | tjLimit _ _ => exact execTjLimit_inv _ _ h
  | thermTrip => exact execThermTrip_inv h
  | droop _ => exact execDroop_inv _ h
  | stretchRelax _ _ => exact execStretchRelax_inv _ _ h
  | vrFault _ => exact execVrFault_inv _ h
  | eqUpdate _ _ _ _ _ _ => exact execEqUpdate_inv _ _ _ _ _ _ h
  | eqStarved _ => exact execEqStarved_inv _ h
  | scrubWindow => exact execScrubWindow_inv h
  | alPwrLimWrite _ => exact execAlPwrLimWrite_inv _ h
  | alDroopMvWrite _ _ => exact execAlDroopMvWrite_inv _ _ h
  | alScrubPassMinWrite _ => exact execAlScrubPassMinWrite_inv _ h
  | plWindowEnd _ _ => exact execPlWindowEnd_inv _ _ h
  | plChunkStart => exact execPlChunkStart_inv h
  | plChunkDone => exact execPlChunkDone_inv h
  | plCommit => exact execPlCommit_inv h
  | plMove _ => exact execPlMove_inv _ h
  | plEnable _ => exact execPlEnable_inv _ h
  | faultMessage _ _ _ => exact execFaultMessage_inv _ _ _ h
  | safeStatePortFence _ => exact execSafeStatePortFence_inv _ h
  | safe _ => exact execSafe_inv _ h
  | pop _ => exact execPop_inv _ h
  | empty _ => exact execEmpty_inv _ h
  | wdogKick _ => exact execWdogKick_inv _ h
  | wdog => exact execWdog_inv h
  | aliveRb _ => exact execAliveRb_inv _ h
  | selfPe => exact execSelfPe_inv h
  | faultInjection _ => exact execFaultInjection_inv _ h
  | logbookEntry => exact execLogbookEntry_inv h
  | lbSnap _ => exact execLbSnap_inv _ h
  | flashOperationComplete _ _ => exact execFlashOperationComplete_inv _ _ h
  | flashErr => exact execFlashErr_inv h
  | powerFailFollowup => exact execPowerFailFollowup_inv h
  | rdLoad _ => exact execRdLoad_inv _ h
  | note _ => exact execNote_inv _ h
  | challenge _ _ => exact execChallenge_inv _ _ h
  | submit _ _ => exact execSubmit_inv _ _ h
  | close _ _ => exact execClose_inv _ _ h
  | nonceExpiry => exact execNonceExpiry_inv h
  | extest => exact execExtest_inv h
  | idcode => exact execIdcode_inv h
  | samplePreload => exact execSamplePreload_inv h
  | gpReg _ _ => exact execGpReg_inv _ _ h
  | dbg _ _ => exact execDbg_inv _ _ h
  | bypass _ => exact execBypass_inv _ h
  | debugWindowAccess _ _ => exact execDebugWindowAccess_inv _ _ h
  | pwrFailNAssert => exact execPwrFailNAssert_inv h
  | pwrFailNRelease => exact execPwrFailNRelease_inv h
  | intPf => exact execIntPf_inv h
  | perstNAssert _ => exact execPerstNAssert_inv _ h
  | perstNStepsDone => exact execPerstNStepsDone_inv h
  | perstNRelease => exact execPerstNRelease_inv h
  | trstN _ => exact execTrstN_inv _ h
  | supervisedInputOpen _ => exact execSupervisedInputOpen_inv _ h
  | leakMeasurement _ => exact execLeakMeasurement_inv _ h
  | thermistorReading _ _ _ => exact execThermistorReading_inv _ _ _ h
  | tideInputFault _ _ => exact execTideInputFault_inv _ _ h
  | readback _ _ => exact execReadback_inv _ _ h
  | mgtBusWrite _ _ _ => exact execMgtBusWrite_inv _ _ _ h
  | stuck => exact execStuck_inv h
  | inputUndervoltage => exact execInputUndervoltage_inv h
  | inputOvervoltage => exact execInputOvervoltage_inv h
  | standbyLoss _ => exact execStandbyLoss_inv _ h
  | standbyPowerUp _ => exact execStandbyPowerUp_inv _ h
  | coldReset => exact execColdReset_inv h
  | bootStageComplete _ => exact execBootStageComplete_inv _ h
  | stageTimeout => exact execStageTimeout_inv h
  | bistGroupStart _ => exact execBistGroupStart_inv _ h
  | bistGroupComplete _ _ _ => exact execBistGroupComplete_inv _ _ _ h
  | bistLocalisationDone _ => exact execBistLocalisationDone_inv _ h
  | hbmTrainingDone _ _ => exact execHbmTrainingDone_inv _ _ h
  | memoryInitDone => exact execMemoryInitDone_inv h
  | refOk => exact execRefOk_inv h
  | sendComplete _ _ => exact execSendComplete_inv _ _ h
  | mainConversionStart => exact execMainConversionStart_inv h
  | inputReversed => exact execInputReversed_inv h
  | osfpModulePresent _ _ => exact execOsfpModulePresent_inv _ _ h
  | partnerL0pRequest _ => exact execPartnerL0pRequest_inv _ h
  | intPfRelease => exact execIntPfRelease_inv h
  | replayEpisodeEnd _ => exact execReplayEpisodeEnd_inv _ h
  | flrComplete => exact execFlrComplete_inv h
  | hubFirmwareSubmission _ _ _ _ => exact execHubFirmwareSubmission_inv _ _ _ _ h

/-- Taking a command off the queue keeps the invariant. -/
theorem inv_pending {s : State} (l : List Instr) (h : Inv s) : Inv { s with pending := l } := inv_frame h rfl rfl rfl

/-- Settles O4: the tick of an empty queue touches the tide alone, and each command keeps the invariant. -/
theorem stepKeepsInv : Obligations.StepKeepsInv := by
  intro s t h hstep
  unfold step at hstep
  split at hstep
  · exact Host.Outcome.next.inj hstep ▸ (inv_frame h rfl rfl rfl : Inv (idle s))
  · next c rest _ =>
    have hnext : NextInv (exec c { s with pending := rest }) := exec_inv c (inv_pending rest h)
    rw [hstep] at hnext
    exact hnext

/-- Settles O1: both equations are the two cases of `step`. -/
theorem stepTakesFront : Obligations.StepTakesFront := by
  refine ⟨fun s c rest h => ?_, fun s h => ?_⟩
  · unfold step
    rw [h]
  · have hstep : step s = .next (idle s) := by
      unfold step
      rw [h]
    rw [hstep, idle, h]

/-! ## The state after a cold reset -/

theorem core_reset (id : Fin 256) : State.reset.core id = coreReset := by
  unfold State.core
  exact Vector.getElem_replicate ..

/-- Settles O3: after a cold reset every store is empty. -/
theorem invReset : Obligations.InvReset :=
  ⟨rfl, rfl, rfl, rfl, rfl, rfl, Nat.zero_le _, Nat.zero_le _, Nat.zero_le _⟩

theorem cl_reset (n : Fin 16) : State.reset.cl n = clusterReset := by
  unfold State.cl
  exact Vector.getElem_replicate ..

theorem slice_reset (n : Fin 16) : State.reset.slice n = sliceReset := by
  unfold State.slice
  exact Vector.getElem_replicate ..

theorem port_reset (n : Fin 8) : State.reset.port n = portReset := by
  unfold State.port
  exact Vector.getElem_replicate ..

theorem lock_reset (k : Fin 1024) : State.reset.lock k = lockReset := by
  unfold State.lock
  exact Vector.getElem_replicate ..

/-- Settles O2: the state after a cold reset, unit by unit. -/
theorem resetState : Obligations.ResetState := by
  refine ⟨fun id => ?_, fun k => ?_, rfl, fun n => ?_, rfl, rfl, rfl, rfl, fun n => ?_, rfl, rfl, rfl, rfl, rfl, rfl, fun a => rfl⟩
  · rw [core_reset]
    exact ⟨rfl, rfl, fun r => Vector.getElem_replicate .., fun r => Vector.getElem_replicate .., fun b =>
      congrArg Berth.st (Vector.getElem_replicate ..)⟩
  · rw [lock_reset]
    rfl
  · unfold State.pw
    rw [cl_reset, slice_reset]
    exact ⟨rfl, rfl, rfl, rfl, rfl, rfl, rfl⟩
  · rw [port_reset]
    rfl

/-! ## The lockout

A command that has to do with the gangplank is followed by hand; every other one leaves the whole gangplank alone. -/

/-- Every part of a state but the gangplank. -/
abbrev apartGangplank : List Part :=
  [.page .dev, .page .fc, .page .lb, .page .gp, .page .td, .page .al, .page .bt, .page .xb, .page .vt, .page .lw, .page .ep, .page .fm, .page .ml,
   .page .sd, .page .pl, .page .dc, .page .cl, .page .mc, .page .xl, .page .gc, .tt, .pending, .staged, .captured, .tide, .cores, .mesh, .fares,
   .locks, .sd, .clusters, .mailboxes, .bar4, .xb, .ctxs, .drains, .dm, .slices, .lw, .cxl, .frz, .ports, .eqs, .scrubs, .pl, .fc, .lb, .mod, .boot]

theorem page_apart (p : Page) : Part.page (classOf p) ∈ apartGangplank := by
  generalize classOf p = c
  cases c <;> decide

/-- The gangplank is locked, and FAILS holds `f`. -/
def Held (f : BitVec 4) (t : State) : Prop := t.gp.locked = true ∧ t.gp.fails = f

theorem Held.of_eq {f : BitVec 4} {s t : State} (h : Held f s) (hl : t.gp.locked = s.gp.locked) (hf : t.gp.fails = s.gp.fails) : Held f t :=
  ⟨hl.trans h.1, hf.trans h.2⟩

/-- What leaves the gangplank alone holds its lock. -/
theorem Held.keeps {f : BitVec 4} {s t : State} (h : Held f s) (hk : Keeps apartGangplank s t) : Held f t := by
  have hgp : t.gp = s.gp := hk .gp (by decide)
  exact h.of_eq (by rw [hgp]) (by rw [hgp])

/-- The next state of an outcome, where there is one, holds the lock. -/
def NextHeld (f : BitVec 4) (r : Res) : Prop := ∀ t, r = .next t → Held f t

theorem nextHeld_next {f : BitVec 4} {t : State} (h : Held f t) : NextHeld f (.next t) := fun _ e => Host.Outcome.next.inj e ▸ h

theorem nextHeld_keeps {f : BitVec 4} {s : State} {r : Res} (h : Held f s) (hk : NextKeeps apartGangplank s r) : NextHeld f r := by
  intro t e
  subst e
  exact h.keeps hk

/-! ### Attempts, and the GP page -/

theorem setPregs_held {f : BitVec 4} {s : State} (p : Page) (o v n : Nat) (h : Held f s) (ho : o + 4 * n ≤ 0x1000) : Held f (setPregs s p o v n) :=
  h.keeps (setPregs_keeps p o v n ho (page_apart p) (Keeps.refl _ s))

theorem goDone_held {f : BitVec 4} {s : State} (p : Page) (o b : Nat) (h : Held f s) (ho : o < 0x1000) : Held f (goDone s p o b) :=
  h.keeps (goDone_keeps p o b ho (page_apart p) (Keeps.refl _ s))

theorem offerGp_held {f : BitVec 4} {s : State} (l r : Nat) (j : Bool) (n : Nat) (h : Held f s) : Held f (offerGp s l r j n) :=
  h.keeps (offerGp_keeps l r j n (Keeps.refl _ s))

/-- While it is locked every attempt has the result LOCKED (13 R568). -/
theorem attemptResult_locked {s : State} (h : s.gp.locked = true) : attemptResult s = 5 := by
  simp [attemptResult, h]

/-- An attempt while locked neither opens a level nor counts as a failure. -/
theorem submitAct_held {f : BitVec 4} {s : State} (jtag : Bool) (h : Held f s) : Held f (submitAct s jtag) := by
  unfold submitAct
  simp only [attemptResult_locked h.1]
  refine goDone_held _ _ _ (offerGp_held _ _ _ _ (setPregs_held _ _ _ _ (setPregs_held _ _ _ _ ?_ (by omega)) (by omega))) (by omega)
  exact h.of_eq rfl rfl

theorem challengeAct_held {f : BitVec 4} {s : State} (h : Held f s) : Held f (challengeAct s) :=
  goDone_held _ _ _ (setPregs_held _ _ _ _ (h.of_eq rfl rfl) (by omega)) (by omega)

theorem closeAct_held {f : BitVec 4} {s : State} (jtag : Bool) (h : Held f s) : Held f (closeAct s jtag) := by
  unfold closeAct
  refine goDone_held _ _ _ ?_ (by omega)
  split
  · exact h.of_eq rfl rfl
  · exact offerGp_held _ _ _ _ (h.of_eq rfl rfl)

theorem pageWrite_held {f : BitVec 4} {s : State} (p : Page) {o : Nat} (v x : W32) (h : Held f s) (ho : o < 0x1000) : Held f (pageWrite s p o v x).st :=
  h.keeps (pageWrite_keeps p o v x ho (by decide) (page_apart p) (Keeps.refl _ s))

theorem gpCtrlWrite_held {f : BitVec 4} {s : State} (v : W32) (jtag : Bool) (h : Held f s) : Held f (gpCtrlWrite s v jtag) := by
  have hw : Held f (pageWrite s .gp 0x100 v).st := pageWrite_held _ _ _ h (by omega)
  have hite : ∀ {c : Prop} [Decidable c] {a b : State}, Held f a → Held f b → Held f (if c then a else b) := fun ha hb => by
    split
    · exact ha
    · exact hb
  have hclosed := hite (c := (pageWrite s .gp 0x100 v).started 10 = true) (closeAct_held jtag hw) hw
  have hchallenged := hite (c := (pageWrite s .gp 0x100 v).started 8 = true) (challengeAct_held hclosed) hclosed
  exact hite (submitAct_held jtag hchallenged) hchallenged

theorem gpPath_held {f : BitVec 4} {s : State} (v : W32) (jtag : Bool) (h : Held f s) : Held f (gpPath s v jtag) := by
  unfold gpPath
  split
  · split
    · exact gpCtrlWrite_held v true (h.of_eq rfl rfl)
    · exact h
  · exact gpCtrlWrite_held v false h

/-! ### Register writes -/

theorem xbWrite_keeps {P : List Part} {s t : State} (o : Nat) (v : W32) (hP : ∀ q ∈ ([.page .xb, .staged, .xb] : List Part), q ∈ P) (ho : o < 0x1000)
    (h : Keeps P s t) : Keeps P s (xbWrite t o v) := by
  have hw : Keeps P s (pageWrite t .xb o v).st := pageWrite_keeps .xb o v 0 ho (hP _ (by decide)) (hP _ (by decide)) h
  unfold xbWrite
  simp only
  refine keeps_ite (fun _ => hw) fun _ => keeps_ite (fun _ => ?_) fun _ => keeps_ite (fun _ => put_xb_keeps _ (hP _ (by decide)) hw) fun _ => hw
  exact keeps_range 6 (fun a k hk ha => setPreg_keeps _ _ _ (by omega) (hP _ (by decide)) ha) hw

/-- A register write that acts on its block, but for GP_CTRL, leaves the gangplank alone. -/
theorem actWrite_keeps {s t : State} {p : Page} {o : Nat} {v : W32} (h : actWrite s p o v = some t) (hgp : ¬(p = .gp ∧ o = 0x100))
    (ho : o < 0x1000) : Keeps apartGangplank s t := by
  have hr := Keeps.refl apartGangplank s
  cases p with
  | fc =>
    simp only [actWrite] at h
    split_ifs at h <;> cases h
    exacts [fcCtrlWrite_keeps _ (by decide) hr, fcQWrite_keeps _ (by decide) hr, wdogKickWrite_keeps _ (by decide) hr]
  | lb =>
    simp only [actWrite] at h
    split_ifs at h
    cases h
    exact lbCtrlWrite_keeps _ (by decide) hr
  | gp =>
    simp only [actWrite] at h
    split_ifs at h with ho
    exact absurd ⟨rfl, ho⟩ hgp
  | td =>
    simp only [actWrite] at h
    split_ifs at h <;> cases h
    exacts [tdCtrlWrite_keeps _ (by decide) hr, tdLenWrite_keeps _ _ (by decide) hr, tdLenWrite_keeps _ _ (by decide) hr,
      tdLenWrite_keeps _ _ (by decide) hr, tdWinWrite_keeps _ (by decide) hr]
  | al =>
    simp only [actWrite] at h
    split_ifs at h <;> cases h
    exacts [alPwrLimWrite_keeps _ (by decide) hr, alDroopWrite_keeps _ _ (by decide) hr, alDroopWrite_keeps _ _ (by decide) hr,
      alEqForceWrite_keeps _ (by decide) hr, alScrubPassMinWrite_keeps _ (by decide) hr]
  | xb =>
    cases h
    exact xbWrite_keeps _ _ (by decide) ho hr
  | vt =>
    simp only [actWrite] at h
    split_ifs at h <;> cases h
    exacts [vtCtxEnWrite_keeps _ (by decide) hr, vtClearWrite_keeps _ (by decide) hr]
  | lw =>
    simp only [actWrite] at h
    split_ifs at h
    cases h
    exact lwMoveWrite_keeps _ (by decide) hr
  | ep =>
    simp only [actWrite] at h
    split_ifs at h
    · cases h
      exact budgetWrite_keeps _ (by decide) hr
    · cases h
      exact hdmCtrlWrite_keeps _ (by decide) hr
    · cases h
      exact frzCtrlWrite_keeps _ _ (by decide) hr
    · obtain ⟨i, -, rfl⟩ := Option.map_eq_some_iff.mp h
      exact vectorCtrlWrite_keeps _ _ (by decide) hr
  | fm =>
    obtain ⟨m, -, rfl⟩ := Option.map_eq_some_iff.mp h
    exact mbCtrlWrite_keeps _ _ (by decide) hr
  | ml =>
    simp only [actWrite] at h
    split_ifs at h
    cases h
    exact mlCmdWrite_keeps _ (by decide) hr
  | sd =>
    simp only [actWrite] at h
    split_ifs at h <;> cases h
    exacts [sdWatchWrite_keeps _ (by decide) hr, sdPartResetWrite_keeps _ (by decide) hr]
  | pl =>
    simp only [actWrite] at h
    split_ifs at h <;> cases h
    exacts [plRegionWrite_keeps _ (by decide) hr, plMoveWrite_keeps _ (by decide) hr]
  | dc n =>
    simp only [actWrite] at h
    split_ifs at h
    cases h
    exact dcCmdWrite_keeps _ _ (by decide) hr
  | cl n =>
    simp only [actWrite] at h
    split_ifs at h <;> cases h
    exacts [ccCtrlWrite_keeps _ _ (by decide) hr, mvCtrlWrite_keeps _ _ (by decide) hr]
  | xl n =>
    simp only [actWrite] at h
    split_ifs at h <;> cases h
    exacts [xlCtrlWrite_keeps _ _ (by decide) hr, xlSlotCtrlWrite_keeps _ _ (by decide) hr]
  | gc id =>
    simp only [actWrite] at h
    split_ifs at h <;> cases h
    exacts [gcStartWrite_keeps _ _ (by decide) hr, gcKickWrite_keeps _ _ (by decide) hr]
  | dev | bt | mc n => cases h

theorem actWrite_held {f : BitVec 4} {s t : State} {p : Page} {o : Nat} {v : W32} (h : Held f s) (ha : actWrite s p o v = some t)
    (ho : o < 0x1000) : Held f t := by
  by_cases hgp : p = .gp ∧ o = 0x100
  · obtain ⟨rfl, rfl⟩ := hgp
    cases ha
    exact gpCtrlWrite_held v false h
  · exact h.keeps (actWrite_keeps ha hgp ho)

theorem pageRegWrite_held {f : BitVec 4} {s : State} (p : Page) {o : Nat} (v same : W32) (h : Held f s) (ho : o < 0x1000) :
    Held f (pageRegWrite s p o v same) := by
  unfold pageRegWrite
  split
  · exact h.keeps (ctrlWrite_keeps p v (page_apart p) (by decide) (Keeps.refl _ s))
  · split
    · exact pageWrite_held p v same h ho
    · split
      · next t ht => exact actWrite_held h ht ho
      · exact pageWrite_held p v same h ho

/-- The page an offset lies in begins at the offset's own 4 KiB (03 R79). -/
theorem pageBase_of_pageAt {off : Nat} {p : Page} (h : pageAt off = some p) : pageBase p = off / 0x1000 * 0x1000 := by
  unfold pageAt at h
  simp only at h
  have hfin : ∀ {n k : Nat} [NeZero n], k < n → (fin n k).val = k := fun hk => Nat.mod_eq_of_lt hk
  split_ifs at h with hhub
  · generalize off / 0x1000 = d at h hhub
    interval_cases d <;> cases h <;> rfl
  all_goals
    cases h
    simp only [pageBase]
    rw [hfin (by omega)]
    omega

/-- A served offset lies in its page. -/
theorem servedPage_off {s : State} {off : Nat} {p : Page} (h : servedPage s off = some p) : off - pageBase p < 0x1000 := by
  have hat : pageAt off = some p := by
    unfold servedPage at h
    split at h
    · next q hq =>
      split_ifs at h
      cases h
      exact hq
    · cases h
  rw [pageBase_of_pageAt hat]
  omega

theorem bar0Write_held {f : BitVec 4} {s : State} (off : Nat) (v same : W32) (h : Held f s) : Held f (bar0Write s off v same) := by
  unfold bar0Write
  split
  · next p hp => exact pageRegWrite_held p v same h (servedPage_off hp)
  · exact h.keeps (ttWindowWrite_keeps _ _ _ (by decide) (Keeps.refl _ s))
  · exact h.keeps (stray_keeps _ _ (by decide) (Keeps.refl _ s))

theorem sizeWrite_held {f : BitVec 4} {s : State} (off : Nat) (h : Held f s) : Held f (sizeWrite s off) := by
  unfold sizeWrite
  split
  · next p _ => exact h.keeps (pageErr_keeps p _ _ (page_apart p) (Keeps.refl _ s))
  · exact h
  · exact h.keeps (stray_keeps _ _ (by decide) (Keeps.refl _ s))

theorem debugWindow_held {f : BitVec 4} {s : State} (off : BitVec 26) (w : Option W32) (h : Held f s) : NextHeld f (execDebugWindowAccess off w s) := by
  have hstray : ∀ b, Held f (stray s off.toNat b) := fun b => h.keeps (stray_keeps _ _ (by decide) (Keeps.refl _ s))
  have hread : Held f (debugRead s off.toNat) := h.keeps (debugRead_keeps _ (Keeps.refl _ s))
  unfold execDebugWindowAccess
  split
  · exact nextHeld_next h
  · cases w with
    | none =>
      refine nextHeld_next ?_
      split
      · exact (hstray false).keeps (emit_keeps _ (Keeps.refl _ _))
      · exact hread
    | some v =>
      refine nextHeld_next ?_
      split
      · exact h.of_eq rfl rfl
      · split
        · exact hstray true
        · exact h

theorem registerWrite_held {f : BitVec 4} {s : State} (target : WriteTarget) (h : Held f s) : NextHeld f (execRegisterWrite target s) := by
  cases target with
  | bar0 off v whole same =>
    unfold execRegisterWrite
    simp only
    split
    · exact debugWindow_held off (some v) h
    · split
      · exact nextHeld_next (bar0Write_held _ _ _ h)
      · exact nextHeld_next (sizeWrite_held _ h)
  | config x v => exact nextHeld_next (h.keeps (cfgGate_keeps (fun _ hu => cfgWrite_keeps _ _ (by decide) hu) (Keeps.refl _ s)))
  | bar4 off bytes => exact nextHeld_next (h.keeps (bar4Write_keeps _ _ (by decide) (Keeps.refl _ s)))

/-! ### JTAG -/

theorem jtagOnly_held {f : BitVec 4} {s : State} (code : Byte) (h : Held f s) : Held f (jtagOnly s code) := by
  unfold jtagOnly
  split
  · exact h.of_eq rfl rfl
  · exact h

theorem gpReg_held {f : BitVec 4} {s : State} (off : BitVec 12) (w : Option W32) (h : Held f s) : NextHeld f (execGpReg off w s) := by
  have hir : Held f (loadIr s 0x20) := h.of_eq rfl rfl
  refine nextHeld_next ?_
  split
  · cases w with
    | none => exact hir.keeps (emit_keeps _ (Keeps.refl _ _))
    | some v =>
      unfold jtagReg
      simp only
      split
      · exact gpCtrlWrite_held v true hir
      · exact pageRegWrite_held _ _ _ hir (by omega)
  · exact h

theorem dbg_held {f : BitVec 4} {s : State} (off : BitVec 26) (w : Option W32) (h : Held f s) : NextHeld f (execDbg off w s) := by
  have hir : Held f (loadIr s 0x21) := h.of_eq rfl rfl
  unfold execDbg
  split
  · exact nextHeld_next h
  · cases w with
    | none =>
      refine nextHeld_next ?_
      split
      · exact hir
      · exact hir.keeps (debugRead_keeps _ (Keeps.refl _ _))
    | some v =>
      refine nextHeld_next ?_
      split
      · exact hir.of_eq rfl rfl
      · exact hir

theorem trstLevel_held {f : BitVec 4} {s : State} (l : PinLevel) (h : Held f s) : Held f (trstLevel s l) := by
  unfold trstLevel
  simp only
  split
  · exact h.of_eq rfl rfl
  · exact h.of_eq rfl rfl

/-! ### Resets and pins -/

/-- A PERST_N reset keeps FAILS and the lock (assumption 46). -/
theorem perstReset_held {f : BitVec 4} {s : State} (h : Held f s) : Held f (deviceReset s false) := h

theorem perstDone_held {f : BitVec 4} {s : State} (h : Held f s) : Held f (perstDone s) := by
  have hwritten : Held f (writeAll s) := h.keeps (writeAll_keeps (by decide) (Keeps.refl _ s))
  unfold perstDone
  split
  · exact h
  · have hquiet : Held f (if aliveRuns (writeAll s) then emit (writeAll s) (.alive false) else writeAll s) := by
      split
      · exact hwritten.keeps (emit_keeps _ (Keeps.refl _ _))
      · exact hwritten
    exact (perstReset_held hquiet).keeps (stageStart_keeps _ (by decide) (unfusedEntry_keeps (Keeps.refl _ _)))

theorem inputOpen_held {f : BitVec 4} {s : State} (pin : SupPin) (h : Held f s) : NextHeld f (execSupervisedInputOpen pin s) := by
  cases pin with
  | pwrFailN => exact nextHeld_next (h.keeps (pwrFailLevel_keeps _ (by decide) (Keeps.refl _ s)))
  | perstN => exact nextHeld_next (h.keeps (perstLevel_keeps _ (by decide) (Keeps.refl _ s)))
  | trstN => exact nextHeld_next (trstLevel_held _ h)

/-! ### Faults and self-test -/

theorem fenceStuck_keeps {P : List Part} {s t : State} (ps : List Page) (h : Keeps P s t) (hp : ∀ p, Part.page (classOf p) ∈ P)
    (hP : ∀ q ∈ apartGangplank, q ∈ P) : Keeps P s (fenceStuck t ps) := by
  unfold fenceStuck
  exact put_boot_keeps _ (hP _ (by decide)) (keeps_foldl (fun _ p hu => fencePage_keeps p (hp p) (parts_in hP) hu) ps h)

theorem failUnit_keeps {s t : State} (u : BistUnit) (h : Keeps apartGangplank s t) : Keeps apartGangplank s (failUnit t u) := by
  have hstuck : ∀ {a} ps, Keeps apartGangplank s a → Keeps apartGangplank s (fenceStuck a ps) := fun ps ha =>
    fenceStuck_keeps ps ha page_apart fun _ hq => hq
  have hcluster : ∀ {a} n, Keeps apartGangplank s a → Keeps apartGangplank s (failCluster a n) := fun n ha =>
    orPreg_keeps _ _ _ (by omega) (by decide) (hstuck _ ha)
  have hraise : ∀ {a} x y, Keeps apartGangplank s a → Keeps apartGangplank s (raiseErr a .bt x y) := fun x y ha =>
    raiseErr_keeps _ _ _ (by decide) ha
  cases u with
  | core id => exact unitEntry_keeps _ _ _ _ _ _ (hraise _ _ (orPreg_keeps _ _ _ (by omega) (by decide) (hstuck _ h)))
  | clusterLogic n => exact unitEntry_keeps _ _ _ _ _ _ (hraise _ _ (hcluster n h))
  | clusterWay n w =>
    have hcount := hraise 0 (unitWord 3 n.val w.val 0) (countFailWay_keeps 12 (by decide) h)
    unfold failUnit
    simp only
    split
    · exact unitEntry_keeps _ _ _ _ _ _ (hcluster n hcount)
    · exact unitEntry_keeps _ _ _ _ _ _ (orPreg_keeps _ _ _ (by omega) (page_apart _) hcount)
  | sliceWay n w =>
    have hcount := countFailWay_keeps 0 (by decide) h
    unfold failUnit
    simp only
    split
    · exact unitEntry_keeps _ _ _ _ _ _ (hubFail_keeps _ _ _ _ (by decide) hcount)
    · exact unitEntry_keeps _ _ _ _ _ _ (orPreg_keeps _ _ _ (by omega) (page_apart _) (hraise _ _ hcount))
  | sliceControl n => exact unitEntry_keeps _ _ _ _ _ _ (hubFail_keeps _ _ _ _ (by decide) h)
  | port n => exact unitEntry_keeps _ _ _ _ _ _ (hraise _ _ (orPreg_keeps _ _ _ (by omega) (by decide) (hstuck _ h)))
  | hubBlock c i => exact unitEntry_keeps _ _ _ _ _ _ (hubFail_keeps _ _ _ _ (by decide) h)

theorem localise_keeps {s t : State} (failing : List BistUnit) (h : Keeps apartGangplank s t) : Keeps apartGangplank s (localise t failing) := by
  have hgroup : ∀ a g, Keeps apartGangplank s a → Keeps apartGangplank s (localiseGroup failing a g) := fun a g ha =>
    put_boot_keeps _ (by decide) (setGroupRes_keeps _ _ (by decide)
      (keeps_foldl (fun _ u hu => failUnit_keeps u hu) _ (put_boot_keeps _ (by decide) ha)))
  unfold localise
  refine keeps_ite (fun _ => h) fun _ => ?_
  have hall := keeps_foldl hgroup ((List.range 8).filter fun g => t.boot.mismatched.getLsbD g)
    (put_boot_keeps { t.boot with localised := true } (by decide) h)
  exact keeps_ite (fun _ => hall) fun _ => bistDone_keeps (by decide) hall

/-- What a fence reaction does leaves the gangplank alone. -/
theorem fencePlan_keeps {s t a : State} {m : BitVec 128} {released : List Page} {g : State → State} (h : fencePlan t m released = some g)
    (ha : Keeps apartGangplank s a) : Keeps apartGangplank s (g a) := by
  have hfence : ∀ p, Keeps apartGangplank s (fenceUnless released p a) := fun p => fenceUnless_keeps _ p (page_apart p) (by decide) ha
  unfold fencePlan at h
  split at h
  · cases h
  · generalize pageOfType (msgType m) (msgInst m) = q at h
    rcases q with _ | p
    · cases h
    · cases p with
      | gc n | cl n | mc n | xl n | ep =>
        cases h
        exact hfence _
      | al =>
        simp only at h
        split_ifs at h
        cases h
        exact hfence _
      | dc n =>
        simp only at h
        split at h
        · cases h
        · split_ifs at h <;> cases h
          exacts [ha, disableWay_keeps _ _ (by decide) ha]
      | _ => cases h

theorem react_keeps {s t : State} (sev : Nat) (plan : Option (State → State)) (hplan : ∀ g a, plan = some g → Keeps apartGangplank s a →
    Keeps apartGangplank s (g a)) (h : Keeps apartGangplank s t) : Keeps apartGangplank s (react t sev plan) := by
  unfold react
  split
  · exact h
  · exact raiseInt_keeps _ _ (by decide) h
  · split
    · next g => exact raiseInt_keeps _ _ (by decide) (hplan g t rfl h)
    · exact raiseInt_keeps _ _ (by decide) (raiseErr_keeps _ _ _ (by decide) h)
  · exact keeps_ite (fun _ => h) fun _ => raiseInt_keeps _ _ (by decide) h

theorem takeMsg_keeps {s t : State} (m : BitVec 128) (released : List Page) (h : Keeps apartGangplank s t) :
    Keeps apartGangplank s (takeMsg t m released).1 := by
  have hnone : ∀ g a, (none : Option (State → State)) = some g → Keeps apartGangplank s a → Keeps apartGangplank s (g a) := fun _ _ e => by cases e
  unfold takeMsg
  split
  · simp only
    have hnote := noteErr_keeps .fc 0 0 (by decide) h
    split
    · exact hnote
    · exact react_keeps _ _ hnone (recordMsg_keeps _ _ _ _ _ _ (by decide) (raiseInt_keeps _ _ (by decide) hnote))
  · split
    · exact raiseErr_keeps _ _ _ (by decide) h
    · refine react_keeps _ _ (fun g a hg ha => ?_) (recordMsg_keeps _ _ _ _ _ _ (by decide) h)
      split at hg
      · exact fencePlan_keeps hg ha
      · cases hg

theorem collect_keeps {s t : State} (n : Nat) (flip : Option (Fin 128)) (released : List Page) (h : Keeps apartGangplank s t) :
    Keeps apartGangplank s (collect t n flip released) := by
  have hall := keeps_foldl1 (g := fun (a : State × Bool) m => ((takeMsg a.1 m released).1, a.2 || (takeMsg a.1 m released).2))
    (fun a m ha => takeMsg_keeps m released ha) (sortMsgs (flipFirst flip (t.fc.coming.take n)))
    (t := ({ t with fc := { t.fc with coming := t.fc.coming.drop n } }, false)) (put_fc_keeps _ (by decide) h)
  have hordered := entriesInOrder_keeps t.lb.inq.length (by decide) hall
  exact keeps_ite (fun _ => enterSafe_keeps _ (by decide) hordered) fun _ => hordered

theorem inject_keeps {s t : State} (inj : Injection) (h : Keeps apartGangplank s t) : Keeps apartGangplank s (inject t inj) := by
  cases inj with
  | message m => exact put_fc_keeps _ (by decide) h
  | bits p b => exact keeps_foldl (fun a k ha => keeps_ite (fun _ => raiseErrX_keeps p _ _ _ _ _ (page_apart p) ha) fun _ => ha) _ h

/-! ### The commands -/

/-- A command that loses the lock: a cold reset, and what makes the main rails fall (13 R568; 14 R588, R608). -/
def losesLock : Instr → Bool
  | .coldReset | .inputUndervoltage | .inputOvervoltage | .inputReversed => true
  | _ => false

/-- A command that has nothing to do with the gangplank leaves it alone, and one that has holds its lock. -/
theorem exec_held {f : BitVec 4} {s : State} (c : Instr) (hc : losesLock c = false) (h : Held f s) : NextHeld f (exec c s) := by
  have hr := Keeps.refl apartGangplank s
  cases c with
  | coldReset | inputUndervoltage | inputOvervoltage | inputReversed => cases hc
  | stepBoundary => exact nextHeld_keeps h (execStepBoundary_keeps (by decide) hr)
  | tideFrame _ _ => exact nextHeld_keeps h (execTideFrame_keeps _ _ (by decide) hr)
  | tideMiss => exact nextHeld_keeps h (execTideMiss_keeps (by decide) hr)
  | holdExpired => exact nextHeld_keeps h (execHoldExpired_keeps (by decide) hr)
  | refLoss => exact nextHeld_keeps h (execRefLoss_keeps (by decide) hr)
  | tdEnable _ => exact nextHeld_keeps h (execTdEnable_keeps _ (by decide) hr)
  | relock _ => exact nextHeld_keeps h (execRelock_keeps _ (by decide) hr)
  | tdResume _ => exact nextHeld_keeps h (execTdResume_keeps _ (by decide) hr)
  | tdLenNextWrite _ _ => exact nextHeld_keeps h (execTdLenNextWrite_keeps _ _ (by decide) hr)
  | tdWinWrite _ => exact nextHeld_keeps h (execTdWinWrite_keeps _ (by decide) hr)
  | xlTide _ _ _ => exact nextHeld_keeps h (execXlTide_keeps _ _ _ (by decide) hr)
  | ttNop _ _ => exact nextHeld_keeps h (execTtNop_keeps _ _ (by decide) hr)
  | ttEvent _ _ => exact nextHeld_keeps h (execTtEvent_keeps _ _ (by decide) hr)
  | ttStart _ _ => exact nextHeld_keeps h (execTtStart_keeps _ _ (by decide) hr)
  | ttSend _ _ _ _ => exact nextHeld_keeps h (execTtSend_keeps _ _ _ _ (by decide) hr)
  | ttManifest _ _ _ _ => exact nextHeld_keeps h (execTtManifest_keeps _ _ _ _ (by decide) hr)
  | ttDeadlineBerth _ _ => exact nextHeld_keeps h (execTtDeadlineBerth_keeps _ _ (by decide) hr)
  | ttDeadlineMark _ _ => exact nextHeld_keeps h (execTtDeadlineMark_keeps _ _ (by decide) hr)
  | ttLoad _ _ => exact nextHeld_keeps h (execTtLoad_keeps _ _ (by decide) hr)
  | ttQuietOn _ _ => exact nextHeld_keeps h (execTtQuietOn_keeps _ _ (by decide) hr)
  | ttQuietOff _ _ => exact nextHeld_keeps h (execTtQuietOff_keeps _ _ (by decide) hr)
  | ttTrap _ _ => exact nextHeld_keeps h (execTtTrap_keeps _ _ (by decide) hr)
  | ttBadact _ _ => exact nextHeld_keeps h (execTtBadact_keeps _ _ (by decide) hr)
  | ttArm _ _ => exact nextHeld_keeps h (execTtArm_keeps _ _ (by decide) hr)
  | ttBankWrite _ _ _ => exact nextHeld_keeps h (execTtBankWrite_keeps _ _ _ (by decide) hr)
  | ttEnable _ _ => exact nextHeld_keeps h (execTtEnable_keeps _ _ (by decide) hr)
  | registerWrite target => exact registerWrite_held target h
  | unmappedAccess _ _ => exact nextHeld_keeps h (execUnmappedAccess_keeps _ _ (by decide) hr)
  | pairLoRead _ _ => exact nextHeld_keeps h (execPairLoRead_keeps _ _ (by decide) hr)
  | pairHiWrite off v =>
    refine nextHeld_next ?_
    split
    · exact bar0Write_held _ _ _ h
    · exact h
  | softReset _ => exact nextHeld_keeps h (execSoftReset_keeps _ (page_apart _) (by decide) hr)
  | pageLock _ _ => exact nextHeld_keeps h (execPageLock_keeps _ _ (page_apart _) (by decide) hr)
  | ctrlFenceWrite _ _ => exact nextHeld_keeps h (execCtrlFenceWrite_keeps _ _ (page_apart _) (by decide) hr)
  | gcEnable _ _ => exact nextHeld_keeps h (execGcEnable_keeps _ _ (by decide) hr)
  | gcStart _ _ => exact nextHeld_keeps h (execGcStart_keeps _ _ (by decide) hr)
  | gcPark _ _ => exact nextHeld_keeps h (execGcPark_keeps _ _ (by decide) hr)
  | coreParked _ => exact nextHeld_keeps h (execCoreParked_keeps _ (by decide) hr)
  | gcKick _ _ => exact nextHeld_keeps h (execGcKick_keeps _ _ (by decide) hr)
  | messageDelivery _ _ _ => exact nextHeld_keeps h (execMessageDelivery_keeps _ _ _ (by decide) hr)
  | fareReturn _ => exact nextHeld_keeps h (execFareReturn_keeps _ (by decide) hr)
  | lockStatePe _ => exact nextHeld_keeps h (execLockStatePe_keeps _ (by decide) hr)
  | forceFree _ => exact nextHeld_keeps h (execForceFree_keeps _ (by decide) hr)
  | forceBreak _ => exact nextHeld_keeps h (execForceBreak_keeps _ (by decide) hr)
  | sdPartReset _ => exact nextHeld_keeps h (execSdPartReset_keeps _ (by decide) hr)
  | bundleIssue _ _ _ => exact nextHeld_keeps h (execBundleIssue_keeps _ _ _ (by decide) hr)
  | mmaComplete _ _ => exact nextHeld_keeps h (execMmaComplete_keeps _ _ (by decide) hr)
  | globalAccessComplete _ _ _ => exact nextHeld_keeps h (execGlobalAccessComplete_keeps _ _ _ (by decide) hr)
  | mapFillComplete _ _ _ => exact nextHeld_keeps h (execMapFillComplete_keeps _ _ _ (by decide) hr)
  | manifestStart _ _ => exact nextHeld_keeps h (execManifestStart_keeps _ _ (by decide) hr)
  | manifestElement _ _ _ _ => exact nextHeld_keeps h (execManifestElement_keeps _ _ _ _ (by decide) hr)
  | manifestComplete _ _ => exact nextHeld_keeps h (execManifestComplete_keeps _ _ (by decide) hr)
  | segmentTranslation _ _ => exact nextHeld_keeps h (execSegmentTranslation_keeps _ _ (by decide) hr)
  | segmentTranslationDone _ _ _ => exact nextHeld_keeps h (execSegmentTranslationDone_keeps _ _ _ (by decide) hr)
  | manifestPartial _ _ => exact nextHeld_keeps h (execManifestPartial_keeps _ _ (by decide) hr)
  | abortAll _ _ => exact nextHeld_keeps h (execAbortAll_keeps _ _ (by decide) hr)
  | mvEn _ _ => exact nextHeld_keeps h (execMvEn_keeps _ _ (by decide) hr)
  | mbNop _ _ _ => exact nextHeld_keeps h (execMbNop_keeps _ _ _ (by decide) hr)
  | mbSubmit _ _ _ _ _ => exact nextHeld_keeps h (execMbSubmit_keeps _ _ _ _ _ (by decide) hr)
  | mbWriteInline _ _ _ _ => exact nextHeld_keeps h (execMbWriteInline_keeps _ _ _ _ (by decide) hr)
  | mbInject _ _ _ => exact nextHeld_keeps h (execMbInject_keeps _ _ _ (by decide) hr)
  | mbKick _ _ _ => exact nextHeld_keeps h (execMbKick_keeps _ _ _ (by decide) hr)
  | mbResume _ _ _ _ => exact nextHeld_keeps h (execMbResume_keeps _ _ _ _ (by decide) hr)
  | mbAbort _ _ _ => exact nextHeld_keeps h (execMbAbort_keeps _ _ _ (by decide) hr)
  | mbFence _ _ _ => exact nextHeld_keeps h (execMbFence_keeps _ _ _ (by decide) hr)
  | tblWrite _ _ _ => exact nextHeld_keeps h (execTblWrite_keeps _ _ _ (by decide) hr)
  | invalidate _ _ _ => exact nextHeld_keeps h (execInvalidate_keeps _ _ _ (by decide) hr)
  | invalidateComplete _ _ => exact nextHeld_keeps h (execInvalidateComplete_keeps _ _ (by decide) hr)
  | mbBadCmd _ _ _ => exact nextHeld_keeps h (execMbBadCmd_keeps _ _ _ (by decide) hr)
  | mailboxEn _ _ => exact nextHeld_keeps h (execMailboxEn_keeps _ _ (by decide) hr)
  | winReset _ _ => exact nextHeld_keeps h (execWinReset_keeps _ _ (by decide) hr)
  | xbArbitration _ _ => exact nextHeld_keeps h (execXbArbitration_keeps _ _ (by decide) hr)
  | xbStarve _ _ => exact nextHeld_keeps h (execXbStarve_keeps _ _ (by decide) hr)
  | holdTimeout _ => exact nextHeld_keeps h (execHoldTimeout_keeps _ (by decide) hr)
  | bar2Write _ _ _ _ => exact nextHeld_keeps h (execBar2Write_keeps _ _ _ _ (by decide) hr)
  | unsupportedRequest _ _ _ => exact nextHeld_keeps h (execUnsupportedRequest_keeps _ _ _ (by decide) hr)
  | vtClear _ => exact nextHeld_keeps h (execVtClear_keeps _ (by decide) hr)
  | vtCtxEnWrite _ => exact nextHeld_keeps h (execVtCtxEnWrite_keeps _ (by decide) hr)
  | rds _ _ _ _ => exact nextHeld_keeps h (execRds_keeps _ _ _ _ (by decide) hr)
  | rdo _ _ _ => exact nextHeld_keeps h (execRdo_keeps _ _ _ (by decide) hr)
  | upg _ _ _ => exact nextHeld_keeps h (execUpg_keeps _ _ _ (by decide) hr)
  | wb _ _ => exact nextHeld_keeps h (execWb_keeps _ _ (by decide) hr)
  | cleanNotice _ _ => exact nextHeld_keeps h (execCleanNotice_keeps _ _ (by decide) hr)
  | rdcur _ _ _ => exact nextHeld_keeps h (execRdcur_keeps _ _ _ (by decide) hr)
  | wrinv _ _ _ => exact nextHeld_keeps h (execWrinv_keeps _ _ _ (by decide) hr)
  | wrpart _ _ _ _ _ => exact nextHeld_keeps h (execWrpart_keeps _ _ _ _ _ (by decide) hr)
  | forwardRequest _ _ _ => exact nextHeld_keeps h (execForwardRequest_keeps _ _ _ (by decide) hr)
  | snoopInvalidate _ _ => exact nextHeld_keeps h (execSnoopInvalidate_keeps _ _ (by decide) hr)
  | requestRetry _ _ _ => exact nextHeld_keeps h (execRequestRetry_keeps _ _ _ (by decide) hr)
  | dcStarve _ _ _ => exact nextHeld_keeps h (execDcStarve_keeps _ _ _ (by decide) hr)
  | cacheFill _ _ _ _ _ => exact nextHeld_keeps h (execCacheFill_keeps _ _ _ _ _ (by decide) hr)
  | ccFlush _ _ => exact nextHeld_keeps h (execCcFlush_keeps _ _ (by decide) hr)
  | ccInv _ _ => exact nextHeld_keeps h (execCcInv_keeps _ _ (by decide) hr)
  | dcFlush _ _ => exact nextHeld_keeps h (execDcFlush_keeps _ _ (by decide) hr)
  | dcInv _ _ => exact nextHeld_keeps h (execDcInv_keeps _ _ (by decide) hr)
  | invalidated _ => exact nextHeld_keeps h (execInvalidated_keeps _ (by decide) hr)
  | cacheEnable _ _ _ => exact nextHeld_keeps h (execCacheEnable_keeps _ _ _ (by decide) hr)
  | mcRead _ _ _ => exact nextHeld_keeps h (execMcRead_keeps _ _ _ (by decide) hr)
  | mcPartialWrite _ _ _ _ _ => exact nextHeld_keeps h (execMcPartialWrite_keeps _ _ _ _ _ (by decide) hr)
  | mcFullWrite _ _ _ _ => exact nextHeld_keeps h (execMcFullWrite_keeps _ _ _ _ (by decide) hr)
  | scrubRead _ _ _ => exact nextHeld_keeps h (execScrubRead_keeps _ _ _ (by decide) hr)
  | lwEnable _ => exact nextHeld_keeps h (execLwEnable_keeps _ (by decide) hr)
  | lwMove _ => exact nextHeld_keeps h (execLwMove_keeps _ (by decide) hr)
  | lwScanDone => exact nextHeld_keeps h (execLwScanDone_keeps (by decide) hr)
  | bisnpResponse _ _ => exact nextHeld_keeps h (execBisnpResponse_keeps _ _ (by decide) hr)
  | biSlow => exact nextHeld_keeps h (execBiSlow_keeps (by decide) hr)
  | memrd _ _ => exact nextHeld_keeps h (execMemrd_keeps _ _ (by decide) hr)
  | memrddata _ => exact nextHeld_keeps h (execMemrddata_keeps _ (by decide) hr)
  | meminv _ _ => exact nextHeld_keeps h (execMeminv_keeps _ _ (by decide) hr)
  | memwr _ _ _ => exact nextHeld_keeps h (execMemwr_keeps _ _ _ (by decide) hr)
  | memwrptl _ _ _ _ => exact nextHeld_keeps h (execMemwrptl_keeps _ _ _ _ (by decide) hr)
  | snpdata _ => exact nextHeld_keeps h (execSnpdata_keeps _ (by decide) hr)
  | snpinv _ => exact nextHeld_keeps h (execSnpinv_keeps _ (by decide) hr)
  | snpcur _ => exact nextHeld_keeps h (execSnpcur_keeps _ (by decide) hr)
  | cxlCacheResponse _ _ => exact nextHeld_keeps h (execCxlCacheResponse_keeps _ _ (by decide) hr)
  | linkUp _ => exact nextHeld_keeps h (execLinkUp_keeps _ (by decide) hr)
  | linkTrainingRetry => exact nextHeld_keeps h (execLinkTrainingRetry_keeps (by decide) hr)
  | linkReplay => exact nextHeld_keeps h (execLinkReplay_keeps (by decide) hr)
  | linkRecovery => exact nextHeld_keeps h (execLinkRecovery_keeps (by decide) hr)
  | linkDown => exact nextHeld_keeps h (execLinkDown_keeps (by decide) hr)
  | completionTimeout _ => exact nextHeld_keeps h (execCompletionTimeout_keeps _ (by decide) hr)
  | l1Entry _ => exact nextHeld_keeps h (execL1Entry_keeps _ (by decide) hr)
  | l1Exit => exact nextHeld_keeps h (execL1Exit_keeps (by decide) hr)
  | l0pNarrow => exact nextHeld_keeps h (execL0pNarrow_keeps (by decide) hr)
  | l0pWiden => exact nextHeld_keeps h (execL0pWiden_keeps (by decide) hr)
  | cacheWritebackAndInvalidate => exact nextHeld_keeps h (execCacheWritebackAndInvalidate_keeps (by decide) hr)
  | powerStateWrite _ => exact nextHeld_keeps h (execPowerStateWrite_keeps _ (by decide) hr)
  | completionTimeoutWrite _ => exact nextHeld_keeps h (execCompletionTimeoutWrite_keeps _ (by decide) hr)
  | doeRequest _ _ _ => exact nextHeld_keeps h (execDoeRequest_keeps _ _ _ hr)
  | commit _ => exact nextHeld_keeps h (execCommit_keeps _ (by decide) hr)
  | uncommit _ => exact nextHeld_keeps h (execUncommit_keeps _ (by decide) hr)
  | freeze _ => exact nextHeld_keeps h (execFreeze_keeps _ (by decide) hr)
  | release _ _ => exact nextHeld_keeps h (execRelease_keeps _ _ (by decide) hr)
  | msixUnmask _ _ => exact nextHeld_keeps h (execMsixUnmask_keeps _ _ (by decide) hr)
  | functionLevelReset => exact nextHeld_keeps h (execFunctionLevelReset_keeps (by decide) hr)
  | xlEnable _ _ => exact nextHeld_keeps h (execXlEnable_keeps _ _ (by decide) hr)
  | xlStageComplete _ _ => exact nextHeld_keeps h (execXlStageComplete_keeps _ _ (by decide) hr)
  | xlStageTimeout _ _ => exact nextHeld_keeps h (execXlStageTimeout_keeps _ _ (by decide) hr)
  | xlRestart _ => exact nextHeld_keeps h (execXlRestart_keeps _ (by decide) hr)
  | retrain _ _ => exact nextHeld_keeps h (execRetrain_keeps _ _ (by decide) hr)
  | probe _ _ => exact nextHeld_keeps h (execProbe_keeps _ _ (by decide) hr)
  | xlWinReset _ _ => exact nextHeld_keeps h (execXlWinReset_keeps _ _ (by decide) hr)
  | xlSlotArm _ _ => exact nextHeld_keeps h (execXlSlotArm_keeps _ _ (by decide) hr)
  | fecLockLoss _ => exact nextHeld_keeps h (execFecLockLoss_keeps _ (by decide) hr)
  | credit _ _ => exact nextHeld_keeps h (execCredit_keeps _ _ (by decide) hr)
  | ack _ _ => exact nextHeld_keeps h (execAck_keeps _ _ (by decide) hr)
  | nak _ _ => exact nextHeld_keeps h (execNak_keeps _ _ (by decide) hr)
  | fare _ _ => exact nextHeld_keeps h (execFare_keeps _ _ (by decide) hr)
  | probeWord _ _ _ => exact nextHeld_keeps h (execProbeWord_keeps _ _ _ hr)
  | echo _ _ _ => exact nextHeld_keeps h (execEcho_keeps _ _ _ (by decide) hr)
  | abort _ _ => exact nextHeld_keeps h (execAbort_keeps _ _ (by decide) hr)
  | ident0 _ _ => exact nextHeld_keeps h (execIdent0_keeps _ _ (by decide) hr)
  | ident1 _ _ => exact nextHeld_keeps h (execIdent1_keeps _ _ (by decide) hr)
  | replay _ _ => exact nextHeld_keeps h (execReplay_keeps _ _ (by decide) hr)
  | down _ _ => exact nextHeld_keeps h (execDown_keeps _ _ (by decide) hr)
  | reservedWord _ _ => exact nextHeld_keeps h (execReservedWord_keeps _ _ (by decide) hr)
  | bundleReceived _ _ => exact nextHeld_keeps h (execBundleReceived_keeps _ _ (by decide) hr)
  | bundleClose _ _ _ => exact nextHeld_keeps h (execBundleClose_keeps _ _ _ (by decide) hr)
  | slotOpen _ _ => exact nextHeld_keeps h (execSlotOpen_keeps _ _ (by decide) hr)
  | slotClose _ _ => exact nextHeld_keeps h (execSlotClose_keeps _ _ (by decide) hr)
  | bundleTransmit _ => exact nextHeld_keeps h (execBundleTransmit_keeps _ (by decide) hr)
  | pwTargetEval _ => exact nextHeld_keeps h (execPwTargetEval_keeps _ (by decide) hr)
  | voltageStepDone _ => exact nextHeld_keeps h (execVoltageStepDone_keeps _ (by decide) hr)
  | frequencyStep _ => exact nextHeld_keeps h (execFrequencyStep_keeps _ (by decide) hr)
  | powerSample _ _ => exact nextHeld_keeps h (execPowerSample_keeps _ _ (by decide) hr)
  | pwrSense _ => exact nextHeld_keeps h (execPwrSense_keeps _ (by decide) hr)
  | tjLimit _ _ => exact nextHeld_keeps h (execTjLimit_keeps _ _ (by decide) hr)
  | thermTrip => exact nextHeld_keeps h (execThermTrip_keeps (by decide) hr)
  | droop _ => exact nextHeld_keeps h (execDroop_keeps _ (by decide) hr)
  | stretchRelax _ _ => exact nextHeld_keeps h (execStretchRelax_keeps _ _ (by decide) hr)
  | vrFault _ => exact nextHeld_keeps h (execVrFault_keeps _ (by decide) hr)
  | eqUpdate _ _ _ _ _ _ => exact nextHeld_keeps h (execEqUpdate_keeps _ _ _ _ _ _ (by decide) hr)
  | eqStarved _ => exact nextHeld_keeps h (execEqStarved_keeps _ (by decide) hr)
  | scrubWindow => exact nextHeld_keeps h (execScrubWindow_keeps (by decide) hr)
  | alPwrLimWrite _ => exact nextHeld_keeps h (execAlPwrLimWrite_keeps _ (by decide) hr)
  | alDroopMvWrite _ _ => exact nextHeld_keeps h (execAlDroopMvWrite_keeps _ _ (by decide) hr)
  | alScrubPassMinWrite _ => exact nextHeld_keeps h (execAlScrubPassMinWrite_keeps _ (by decide) hr)
  | plWindowEnd _ _ => exact nextHeld_keeps h (execPlWindowEnd_keeps _ _ (by decide) hr)
  | plChunkStart => exact nextHeld_keeps h (execPlChunkStart_keeps (by decide) hr)
  | plChunkDone => exact nextHeld_keeps h (execPlChunkDone_keeps (by decide) hr)
  | plCommit => exact nextHeld_keeps h (execPlCommit_keeps (by decide) hr)
  | plMove _ => exact nextHeld_keeps h (execPlMove_keeps _ (by decide) hr)
  | plEnable _ => exact nextHeld_keeps h (execPlEnable_keeps _ (by decide) hr)
  | faultMessage n flip released => exact nextHeld_next (h.keeps (collect_keeps _ _ _ (Keeps.refl _ s)))
  | safeStatePortFence _ => exact nextHeld_keeps h (execSafeStatePortFence_keeps _ (by decide) hr)
  | safe _ => exact nextHeld_keeps h (execSafe_keeps _ (by decide) hr)
  | pop _ => exact nextHeld_keeps h (execPop_keeps _ (by decide) hr)
  | empty _ => exact nextHeld_keeps h (execEmpty_keeps _ (by decide) hr)
  | wdogKick _ => exact nextHeld_keeps h (execWdogKick_keeps _ (by decide) hr)
  | wdog => exact nextHeld_keeps h (execWdog_keeps (by decide) hr)
  | aliveRb _ => exact nextHeld_keeps h (execAliveRb_keeps _ (by decide) hr)
  | selfPe => exact nextHeld_keeps h (execSelfPe_keeps (by decide) hr)
  | faultInjection inj =>
    refine nextHeld_next ?_
    split
    · exact h.keeps (inject_keeps inj hr)
    · exact h
  | logbookEntry => exact nextHeld_keeps h (execLogbookEntry_keeps (by decide) hr)
  | lbSnap _ => exact nextHeld_keeps h (execLbSnap_keeps _ (by decide) hr)
  | flashOperationComplete _ _ => exact nextHeld_keeps h (execFlashOperationComplete_keeps _ _ (by decide) hr)
  | flashErr => exact nextHeld_keeps h (execFlashErr_keeps (by decide) hr)
  | powerFailFollowup => exact nextHeld_keeps h (execPowerFailFollowup_keeps (by decide) hr)
  | rdLoad _ => exact nextHeld_keeps h (execRdLoad_keeps _ (by decide) hr)
  | note _ => exact nextHeld_keeps h (execNote_keeps _ (by decide) hr)
  | challenge v jtag => exact nextHeld_next (gpPath_held v jtag h)
  | submit v jtag => exact nextHeld_next (gpPath_held v jtag h)
  | close v jtag => exact nextHeld_next (gpPath_held v jtag h)
  | nonceExpiry => exact nextHeld_next (h.of_eq rfl rfl)
  | extest => exact nextHeld_next (jtagOnly_held _ h)
  | idcode =>
    refine nextHeld_next ?_
    split
    · exact (h.of_eq rfl rfl : Held f (loadIr s 0x01)).keeps (emit_keeps _ (Keeps.refl _ _))
    · exact h
  | samplePreload => exact nextHeld_next (jtagOnly_held _ h)
  | gpReg off write => exact gpReg_held off write h
  | dbg off write => exact dbg_held off write h
  | bypass code =>
    refine nextHeld_next ?_
    split
    · exact h
    · exact jtagOnly_held _ h
  | debugWindowAccess off write => exact debugWindow_held off write h
  | pwrFailNAssert => exact nextHeld_keeps h (execPwrFailNAssert_keeps (by decide) hr)
  | pwrFailNRelease => exact nextHeld_keeps h (execPwrFailNRelease_keeps (by decide) hr)
  | intPf => exact nextHeld_keeps h (execIntPf_keeps (by decide) hr)
  | perstNAssert _ => exact nextHeld_keeps h (execPerstNAssert_keeps _ (by decide) hr)
  | perstNStepsDone => exact nextHeld_next (perstDone_held h)
  | perstNRelease => exact nextHeld_keeps h (execPerstNRelease_keeps (by decide) hr)
  | trstN level => exact nextHeld_next (trstLevel_held level h)
  | supervisedInputOpen pin => exact inputOpen_held pin h
  | leakMeasurement _ => exact nextHeld_keeps h (execLeakMeasurement_keeps _ (by decide) hr)
  | thermistorReading _ _ _ => exact nextHeld_keeps h (execThermistorReading_keeps _ _ _ (by decide) hr)
  | tideInputFault _ _ => exact nextHeld_keeps h (execTideInputFault_keeps _ _ (by decide) hr)
  | readback _ _ => exact nextHeld_keeps h (execReadback_keeps _ _ (by decide) hr)
  | mgtBusWrite _ _ _ => exact nextHeld_keeps h (execMgtBusWrite_keeps _ _ _ (by decide) hr)
  | stuck => exact nextHeld_keeps h (execStuck_keeps (by decide) hr)
  | standbyLoss _ => exact nextHeld_keeps h (execStandbyLoss_keeps _ (by decide) hr)
  | standbyPowerUp _ => exact nextHeld_keeps h (execStandbyPowerUp_keeps _ (by decide) hr)
  | bootStageComplete _ => exact nextHeld_keeps h (execBootStageComplete_keeps _ (by decide) hr)
  | stageTimeout => exact nextHeld_keeps h (execStageTimeout_keeps (by decide) hr)
  | bistGroupStart _ => exact nextHeld_keeps h (execBistGroupStart_keeps _ (by decide) hr)
  | bistGroupComplete _ _ _ => exact nextHeld_keeps h (execBistGroupComplete_keeps _ _ _ (by decide) hr)
  | bistLocalisationDone failing => exact nextHeld_next (h.keeps (localise_keeps _ (Keeps.refl _ s)))
  | hbmTrainingDone _ _ => exact nextHeld_keeps h (execHbmTrainingDone_keeps _ _ (by decide) hr)
  | memoryInitDone => exact nextHeld_keeps h (execMemoryInitDone_keeps (by decide) hr)
  | refOk => exact nextHeld_keeps h (execRefOk_keeps (by decide) hr)
  | sendComplete _ _ => exact nextHeld_keeps h (execSendComplete_keeps _ _ (by decide) hr)
  | mainConversionStart => exact nextHeld_keeps h (execMainConversionStart_keeps (by decide) hr)
  | osfpModulePresent _ _ => exact nextHeld_keeps h (execOsfpModulePresent_keeps _ _ (by decide) hr)
  | partnerL0pRequest _ => exact nextHeld_keeps h (execPartnerL0pRequest_keeps _ (by decide) hr)
  | intPfRelease => exact nextHeld_keeps h (execIntPfRelease_keeps (by decide) hr)
  | replayEpisodeEnd _ => exact nextHeld_keeps h (execReplayEpisodeEnd_keeps _ (by decide) hr)
  | flrComplete => exact nextHeld_keeps h (execFlrComplete_keeps (by decide) hr)
  | hubFirmwareSubmission _ _ _ _ => exact nextHeld_keeps h (execHubFirmwareSubmission_keeps _ _ _ _ (by decide) hr)

/-- Settles O5: no command but those excepted moves the lock or FAILS. -/
theorem lockout : Obligations.Lockout := by
  intro c s t hexec hc hlocked
  have hlose : losesLock c = false := by
    cases c <;> first | rfl | exact absurd hc (by simp)
  exact exec_held c hlose ⟨hlocked, rfl⟩ t hexec

end Sys2Proof
end

section
/-! PROOFS. Reading a register after an operation: one rule per shared operation over registers. -/

namespace Sys2Proof

open Sys2Proof.Machine

/-- What a part that is not listed holds is the same: registers. -/
theorem Keeps.preg {P : List Part} {s t : State} (h : Keeps P s t) {p : Page} {k : Nat} (hp : Part.page (classOf p) ∉ P) (hk : k < 0x1000)
    (hmsix : ¬(p = .ep ∧ k = 0xA00)) (hlost : ¬(p = .lb ∧ k = 0x11C)) : preg t p k = preg s p k :=
  h (.page (classOf p)) hp p k rfl hk hmsix hlost

/-- What a command that answers this state has to leave alone. -/
theorem nextKeeps_eq {P : List Part} {s t : State} {r : Res} (h : NextKeeps P s r) (e : r = .next t) : Keeps P s t := by
  subst e
  exact h

/-- A change of units leaves every register. -/
@[simp] theorem preg_update {e : State} {p : Page} {o : Nat} {pending out fresh staged captured tide cores mesh fares locks sdChanged sdArmed clusters
    mailboxes bar4 xb ctxs drains dm poison slices lw cxl frz ports eqs scrubs pl fc lb gp mod boot} :
    preg (State.mk pending out fresh e.regs staged captured tide cores mesh fares locks sdChanged sdArmed clusters mailboxes bar4 xb ctxs drains dm
      poison slices lw cxl frz ports eqs scrubs pl fc lb gp mod boot) p o = preg e p o := rfl

/-- The registers that recording an error may change, by offset. -/
@[simp] theorem errReg_eq (k : Nat) : errReg k = (k == 0x10 || k == 0x20 || k == 0x24 || k == 0x28 || k == 0x2C || k == 0x30) := rfl

@[simp] theorem preg_set (s : State) {p q : Page} {o k : Nat} (v : W32) (ho : o < 0x1000) (hk : k < 0x1000) :
    preg (setPreg s p o v) q k = if q = p ∧ k = o then v else preg s q k := preg_setPreg s v ho hk

@[simp] theorem preg_orPreg (s : State) {p q : Page} {o k : Nat} (m : W32) (ho : o < 0x1000) (hk : k < 0x1000) :
    preg (orPreg s p o m) q k = if q = p ∧ k = o then preg s p o ||| m else preg s q k := preg_setPreg s _ ho hk

@[simp] theorem preg_clrPreg (s : State) {p q : Page} {o k : Nat} (m : W32) (ho : o < 0x1000) (hk : k < 0x1000) :
    preg (clrPreg s p o m) q k = if q = p ∧ k = o then preg s p o &&& ~~~m else preg s q k := preg_setPreg s _ ho hk

@[simp] theorem preg_cntPreg (s : State) {p q : Page} {o k : Nat} (n : Nat) (ho : o < 0x1000) (hk : k < 0x1000) :
    preg (cntPreg s p o n) q k = if q = p ∧ k = o then satAdd (preg s p o) n else preg s q k := preg_setPreg s _ ho hk

@[simp] theorem preg_setPreg64 (s : State) {p q : Page} {o k : Nat} (v : Nat) (ho : o + 4 < 0x1000) (hk : k < 0x1000) :
    preg (setPreg64 s p o v) q k =
      if q = p ∧ k = o + 4 then BitVec.ofNat 32 (v / 2 ^ 32) else if q = p ∧ k = o then BitVec.ofNat 32 v else preg s q k := by
  unfold setPreg64
  rw [preg_setPreg _ _ ho hk, preg_setPreg _ _ (by omega) hk]

@[simp] theorem raiseInt_stat' (s : State) (p : Page) (b : Nat) : preg (raiseInt s p b) p 0x30 = preg s p 0x30 ||| one32 b := raiseInt_stat s p b

@[simp] theorem preg_raiseInt (s : State) {p q : Page} (b : Nat) {k : Nat} (hk : k < 0x1000) (h : q = p → k ≠ 0x30) (h2 : q = .ep → k ≠ 0xA00) :
    preg (raiseInt s p b) q k = preg s q k := raiseInt_preg s b hk (by simpa using h) (by simpa using h2)

@[simp] theorem preg_raiseErr_stat (s : State) (p : Page) (src addr : Nat) : preg (raiseErr s p src addr) p 0x10 = preg s p 0x10 ||| one32 src :=
  raiseErr_stat s p src addr

@[simp] theorem preg_raiseErr (s : State) {p q : Page} (src addr : Nat) {k : Nat} (hk : k < 0x1000) (h : q = p → errReg k = false)
    (h2 : q = .ep → k ≠ 0xA00) : preg (raiseErr s p src addr) q k = preg s q k := raiseErr_preg s src addr hk h (by simpa using h2)

@[simp] theorem preg_goDone_same (s : State) (p : Page) {o b : Nat} (ho : o < 0x1000) (h1 : o ≠ 0x30) (h2 : o ≠ 0x40) (h3 : p = .ep → o ≠ 0xA00) :
    preg (goDone s p o b) p o = preg s p o &&& ~~~one32 b := goDone_bit s p ho h1 h2 (by simpa using h3)

@[simp] theorem preg_goDone (s : State) {p q : Page} {o b k : Nat} (ho : o < 0x1000) (hk : k < 0x1000)
    (h : q = p → k ≠ o ∧ k ≠ 0x30 ∧ k ≠ 0x40) (h3 : q = .ep → k ≠ 0xA00) : preg (goDone s p o b) q k = preg s q k :=
  goDone_preg s ho hk (fun e => (h e.1).1 e.2) (fun e => (h e.1).2.1 e.2) (fun e => (h e.1).2.2 e.2) (by simpa using h3)

@[simp] theorem preg_offer (s : State) (a b c d : Nat) {q : Page} {k : Nat} (hk : k < 0x1000) (h : q = .lb → k ≠ 0x11C) :
    preg (offer s a b c d) q k = preg s q k := offer_preg s a b c d hk (by simpa using h)

@[simp] theorem preg_readyLog (s : State) {q : Page} {k : Nat} (hk : k < 0x1000) (h : q = .ep → k ≠ 0xA00) (h2 : q = .lb → k ≠ 0x11C) :
    preg (readyLog s) q k = preg s q k :=
  (readyLog_keeps (P := [.boot]) (by simp) (Keeps.refl _ s)).preg (by simp) hk (by simpa using h) (by simpa using h2)

@[simp] theorem preg_setMode (s : State) (m : TideMode) {q : Page} {k : Nat} (hk : k < 0x1000) (h : q = .ep → k ≠ 0xA00) (h2 : q = .lb → k ≠ 0x11C) :
    preg (setMode s m) q k = preg s q k :=
  (setMode_keeps (P := [.tide, .boot]) m (by simp) (Keeps.refl _ s)).preg (by simp) hk (by simpa using h) (by simpa using h2)

/-- The bit of a GO action that has completed reads 0. -/
theorem bit_andNot_one32 (x : W32) {b : Nat} (hb : b < 32) : bit (x &&& ~~~one32 b) b = false := by
  have hone : bit (one32 b) b = true := by simp [one32_bit, hb]
  unfold bit at hone ⊢
  simp [BitVec.getLsbD_and, BitVec.getLsbD_not, hone]

theorem bit_or_one32 (x : W32) {b : Nat} (hb : b < 32) : bit (x ||| one32 b) b = true := by
  have hone : bit (one32 b) b = true := by simp [one32_bit, hb]
  unfold bit at hone ⊢
  simp [BitVec.getLsbD_or, hone]

theorem bit_or (x y : W32) (b : Nat) : bit (x ||| y) b = (bit x b || bit y b) := by
  simp [bit, BitVec.getLsbD_or]

theorem bit_and (x y : W32) (b : Nat) : bit (x &&& y) b = (bit x b && bit y b) := by
  simp [bit, BitVec.getLsbD_and]

end Sys2Proof
end

section
/-! PROOFS. The tide follows frames and misses (02 R38 to R47, R65 to R71). -/

namespace Sys2Proof

open Sys2Proof.Machine

/-! ## The operations of the tide -/

@[simp] theorem readyLog_tide (s : State) : (readyLog s).tide = s.tide :=
  (readyLog_keeps (P := [.boot]) (by simp) (Keeps.refl _ s)) .tide (by simp)

/-- TD_STAT.STATE changes, and nothing else of the tide. -/
@[simp] theorem setMode_tide (s : State) (m : TideMode) : (setMode s m).tide = { s.tide with mode := m } := by
  unfold setMode
  split
  · next h => rw [← h]
  · simp [withReady]

@[simp] theorem lenSettled_tide (s : State) : (lenSettled s).tide = s.tide :=
  (lenSettled_keeps (P := [.tt]) (by simp) (Keeps.refl _ s)) .tide (by simp)

@[simp] theorem preg_lenSettled (s : State) {q : Page} {k : Nat} (hk : k < 0x1000) (h : q = .ep → k ≠ 0xA00) (h2 : q = .lb → k ≠ 0x11C) :
    preg (lenSettled s) q k = preg s q k :=
  (lenSettled_keeps (P := [.tt]) (by simp) (Keeps.refl _ s)).preg (by simp) hk (by simpa using h) (by simpa using h2)

/-! ## Valid frames -/

/-- A valid frame of the own step, within the window: in LOCKED it gives hops, offset and length. -/
theorem validFrame_locked {s : State} {f : FrameInfo} {raw : Int} (hm : s.tide.mode = .locked) (hstep : f.step = s.tide.step)
    (hwin : (wrapOff raw (f.len * 64)).natAbs ≤ fld (preg s .td 0x140) 0 18) :
    validFrame s f raw =
      takeLen (useOffset (cntPreg { s with tide := { s.tide with hops := f.hops } } .td 0x148 1) (wrapOff raw (f.len * 64))) f := by
  simp [validFrame, hm, hstep, hwin]

/-- In HUNT, after a first frame was adopted, it gives LOCKED as well. -/
theorem validFrame_hunt {s : State} {f : FrameInfo} {raw : Int} (hm : s.tide.mode = .hunt) (ha : s.tide.adopted = true)
    (hstep : f.step = s.tide.step) (hwin : (wrapOff raw (f.len * 64)).natAbs ≤ fld (preg s .td 0x140) 0 18) :
    validFrame s f raw =
      setMode (takeLen (useOffset (cntPreg { s with tide := { s.tide with hops := f.hops, adopted := false, begun := true } } .td 0x148 1)
        (wrapOff raw (f.len * 64))) f) .locked := by
  simp [validFrame, hm, ha, hstep, hwin]
  rfl

/-- A frame from the pins that passes its checks is a valid frame. -/
theorem tidePins_valid {s : State} {frame : BitVec 128} (at64 : Nat) (hd : s.tide.mode ≠ .disabled) (hm : s.tide.mode ≠ .master) (hsrc : tdSrc s = 0)
    (hmark : fld frame 0 16 = 0x9AF3) (hcrc : crc32Bits frame 96 = BitVec.ofNat 32 (fld frame 96 32))
    (hlen : lenValid (frameInfo frame).len (frameInfo frame).grain4 = true) :
    tidePins s frame at64 = validFrame s (frameInfo frame) ((at64 : Int) - tideDelay s) := by
  simp [tidePins, frameOf, hd, hm, hsrc, hmark, hcrc, hlen]

/-- A TIDE word at the selected port, with a valid length, is a valid frame. -/
theorem tideOnPort_valid {s : State} {port : Fin 8} {word : BitVec 128} (at64 : Nat) (hd : s.tide.mode ≠ .disabled) (hm : s.tide.mode ≠ .master)
    (hup : (s.port port).st = .up) (hsrc : tdSrc s = port.val + 1)
    (hlen : lenValid (tideWordInfo word).len (tideWordInfo word).grain4 = true) :
    tideOnPort s port word at64 = validFrame s (tideWordInfo word) ((at64 : Int) - (fld word 83 32 : Int) - tideDelay s) := by
  simp [tideOnPort, hd, hm, hup, hsrc, hlen]

/-- What a valid frame leaves in LOCKED: hops, correction and length, and the count of frames. -/
theorem validFrame_locked_runs {c : Instr} {s : State} {f : FrameInfo} {raw : Int} (hexec : exec c s = .next (validFrame s f raw))
    (hm : s.tide.mode = .locked) (hstep : f.step = s.tide.step)
    (hwin : (wrapOff raw (f.len * 64)).natAbs ≤ fld (preg s .td 0x140) 0 18) :
    Runs c s [.page .td, .tide, .tt] fun t =>
      t.tide = { s.tide with
          hops := f.hops, corr := wrapOff raw (f.len * 64), seen := true, len := BitVec.ofNat 27 f.len, grain4 := f.grain4 } ∧
      preg t .td 0x148 = satAdd (preg s .td 0x148) 1 := by
  rw [validFrame_locked hm hstep hwin] at hexec
  refine ⟨_, hexec, ?_, ?_, ?_⟩
  · exact takeLen_keeps _ (by decide) (useOffset_keeps _ (by decide)
      (cntPreg_keeps _ _ _ (by omega) (by decide) (put_tide_keeps _ (by decide) (Keeps.refl _ s))))
  · simp [takeLen, useOffset]
  · simp [takeLen, useOffset]

/-! ## Misses and holdover -/

/-- A miss in LOCKED, where TD_HOLD_MAX is not 0, is reported and begins the holdover. -/
theorem tideMissed_holdover {s : State} (hm : s.tide.mode = .locked) (hseen : s.tide.seen = false) (hmax : fld (preg s .td 0x138) 0 16 ≠ 0) :
    tideMissed s =
      setPreg (setMode (lenSettled { raiseErr (raiseErr (cntPreg s .td 0x14C 1) .td 1) .td 2 with tide := { s.tide with seen := true } })
        .holdover) .td 0x13C 0 := by
  have hhold : entersHoldover s = true := by simp [entersHoldover, hm, hmax]
  have hsources : ∀ t : State, raiseErrs t .td [1, 2] = raiseErr (raiseErr t .td 1) .td 2 := fun t => by
    have hl : (List.range 32).filter ([1, 2] : List Nat).contains = [1, 2] := by decide
    unfold raiseErrs
    rw [hl]
    rfl
  unfold tideMissed
  simp [hhold, hseen, hm, hsources]

/-! ## The statement -/

/-- Settles O6: each command is the operation of its case, whose effect on the tide and the TD page is read off. -/
theorem tideFollows : Obligations.TideFollows := by
  refine ⟨?pins, ?second, ?port, ?miss, ?freerun, ?halted, ?refLoss, ?refOk, ?hunt⟩
  case pins =>
    intro s frame at64 hm hsrc hmark hcrc hlen hstep hwin
    refine validFrame_locked_runs (congrArg Host.Outcome.next ?_) hm hstep hwin
    exact tidePins_valid _ (by simp [hm]) (by simp [hm]) hsrc hmark hcrc hlen
  case second =>
    intro s frame at64 hm hsrc
    refine ⟨secondSource s 0 (frameInfo frame).step, ?_, secondSource_keeps _ _ (by decide) (Keeps.refl _ s), ?_, ?_⟩
    · exact congrArg Host.Outcome.next (by simp [tidePins, hm, hsrc])
    · simp [secondSource]
    · simp [secondSource]
  case port =>
    intro s port word at64 hm hup hsrc hlen hstep hwin
    refine validFrame_locked_runs (congrArg Host.Outcome.next ?_) hm hstep hwin
    exact tideOnPort_valid _ (by simp [hm]) (by simp [hm]) hup hsrc hlen
  case miss =>
    intro s hm hseen hmax
    have hexec : exec .tideMiss s = .next (tideMissed s) := congrArg Host.Outcome.next (by simp [missDue, hm, hseen])
    have hkeeps : Keeps [.page .td, .tide, .tt, .boot] s (tideMissed s) := tideMissed_keeps _ (by decide) (Keeps.refl _ s)
    rw [tideMissed_holdover hm hseen hmax] at hexec hkeeps
    exact ⟨_, hexec, hkeeps, by simp, by simp, by simp, by simp⟩
  case freerun =>
    intro s hm hfull hfree
    refine ⟨setMode s .freerun, ?_, setMode_keeps _ (by decide) (Keeps.refl _ s), setMode_tide _ _⟩
    exact congrArg Host.Outcome.next (by simp [hm, hfull, holdOutcome, hfree])
  case halted =>
    intro s hm hfull hfree
    refine ⟨holdOutcome s, congrArg Host.Outcome.next (by simp [hm, hfull]), holdOutcome_keeps (by decide) (Keeps.refl _ s), ?_, ?_⟩
    · simp [holdOutcome, hfree]
    · simp [holdOutcome, hfree]
  case refLoss =>
    intro s href
    refine ⟨raiseErr { s with tide := { s.tide with refOk := false } } .td 7, congrArg Host.Outcome.next (by simp [href]), ?_, by simp, by simp⟩
    exact raiseErr_keeps _ _ _ (by decide) (put_tide_keeps _ (by decide) (Keeps.refl _ s))
  case refOk =>
    intro s
    exact ⟨_, rfl, put_tide_keeps _ (by decide) (Keeps.refl _ s), rfl⟩
  case hunt =>
    intro s frame at64 hm hadopted hsrc hmark hcrc hlen hstep hwin
    have hexec : exec (.tideFrame frame at64) s = .next (validFrame s (frameInfo frame) ((at64.toNat : Int) - tideDelay s)) :=
      congrArg Host.Outcome.next (tidePins_valid _ (by simp [hm]) (by simp [hm]) hsrc hmark hcrc hlen)
    have hkeeps : Keeps [.page .td, .tide, .tt, .boot] s (validFrame s (frameInfo frame) ((at64.toNat : Int) - tideDelay s)) :=
      validFrame_keeps _ _ (by decide) (Keeps.refl _ s)
    rw [validFrame_hunt hm hadopted hstep hwin] at hexec hkeeps
    exact ⟨_, hexec, hkeeps, by simp [takeLen, useOffset], by simp [takeLen, useOffset], by simp [takeLen, useOffset], by simp [takeLen, useOffset]⟩

end Sys2Proof
end

section
/-! PROOFS. The write of a register that is no half of a pair: what it starts, what it stores, and what it leaves alone (03 R85 to R93). -/

namespace Sys2Proof

open Sys2Proof.Machine

/-! ## Registers whose access codes alone decide -/

/-- A register of a page, `row` in its table, that is no half of a pair, and on whose writes no rule bears but the access codes of its fields: it is
none of the latches and masks of 03 R91 and R92, no interrupt register, and no register with a relation between its fields. -/
structure PlainReg (p : Page) (o : Nat) (row : RegRow) : Prop where
  row_eq : rowOf p o = some row := by rfl
  single : row.pair = false := by rfl
  unpaired : ∀ lo, 4 ≤ o → rowOf p (o - 4) = some lo → lo.pair = false := by intro lo _ h; cases h <;> rfl
  small : o < 0x1000 := by omega
  noFix : ∀ v new, wrFix p o v new = new := by intros; rfl
  noCross : ∀ old v a, crossCheck p o old v a = a := by intros; rfl
  noInt : o ≠ 0x30 := by omega
  noErr : o ≠ 0x3C := by omega
  noMsix : ¬(p = .ep ∧ o = 0xA00) := by simp
  noFirst : ¬(p = .fc ∧ o = 0x108) := by simp

/-- What the word of a write comes to, field by field. -/
def written (s : State) (p : Page) (o : Nat) (row : RegRow) (v same : W32) : Wr :=
  row.flds.foldl (wrField (rwlLocked s p o) v same) ⟨preg s p o, 0, 0⟩

section
variable {s : State} {p : Page} {o : Nat} {row : RegRow}

theorem wrReg_plain (R : PlainReg p o row) (v same : W32) : wrReg s p o row v same = written s p o row v same := by
  unfold wrReg
  simp only [R.noFix, R.noCross]
  rfl

/-- The page takes the word, and stores what it comes to. -/
theorem pageWrite_plain (R : PlainReg p o row) (hu : Unlocked s p) (v same : W32) :
    pageWrite s p o v same =
      ⟨wrStore s p o (written s p o row v same), (written s p o row v same).go, true, decide ((written s p o row v same).rej ≠ 0)⟩ := by
  rw [pageWrite_eq v same (.inl hu) R.row_eq R.single R.unpaired, wrReg_plain R]

theorem pageWrite_ok (R : PlainReg p o row) (hu : Unlocked s p) (v same : W32) : (pageWrite s p o v same).ok = true := by
  rw [pageWrite_plain R hu]

/-- Such a write stages nothing. -/
theorem pageWrite_keeps_plain {P : List Part} {u : State} (R : PlainReg p o row) (hu : Unlocked s p) (v same : W32)
    (hp : Part.page (classOf p) ∈ P) (h : Keeps P u s) : Keeps P u (pageWrite s p o v same).st := by
  rw [pageWrite_plain R hu]
  exact wrStore_keeps _ _ _ R.small hp h

/-- A GO bit of the register starts where the word has 1 and the register 0 (03 R86). -/
theorem started_plain {b : Nat} (R : PlainReg p o row) (hu : Unlocked s p) (hg : goField b row.flds = true) (hb : b < 32) (v same : W32) :
    (pageWrite s p o v same).started b = (bit v b && !bit (preg s p o) b) :=
  pageWrite_started v same hu R.row_eq R.single R.unpaired hg hb

/-- The register holds what the word comes to. -/
theorem preg_pageWrite_same (R : PlainReg p o row) (hu : Unlocked s p) (v same : W32) :
    preg (pageWrite s p o v same).st p o = (written s p o row v same).new := by
  have hstored : ∀ a : Wr, preg (irqEdge p (pageIrq s p)
      (if p = .fc ∧ o = 0x108 ∧ a.new = 0 then setPreg (setPreg s p o a.new) p 0x10C 0 else setPreg s p o a.new)) p o = a.new := fun a => by
    rw [irqEdge_preg _ _ _ R.small R.noMsix, if_neg (fun e => R.noFirst ⟨e.1, e.2.1⟩), preg_setPreg_same]
  rw [pageWrite_plain R hu]
  unfold wrStore
  simp only
  split
  · exact hstored _
  · rw [pageErr_preg _ _ _ R.small (by simp [R.noInt]) (by simp [R.noErr]) R.noMsix, hstored]

/-- It leaves every other register of pages, but for PAGE_ERR and INT_STAT, where the page rejects, and the pending bits of MSI-X. -/
theorem preg_pageWrite_other {q : Page} {k : Nat} (R : PlainReg p o row) (hu : Unlocked s p) (v same : W32) (hk : k < 0x1000)
    (hn : q = p → k ≠ o ∧ k ≠ 0x30 ∧ k ≠ 0x3C) (h : q = .ep → k ≠ 0xA00) : preg (pageWrite s p o v same).st q k = preg s q k := by
  have hstored : ∀ a : Wr, preg (irqEdge p (pageIrq s p)
      (if p = .fc ∧ o = 0x108 ∧ a.new = 0 then setPreg (setPreg s p o a.new) p 0x10C 0 else setPreg s p o a.new)) q k = preg s q k := fun a => by
    rw [irqEdge_preg _ _ _ hk (by simpa using h), if_neg (fun e => R.noFirst ⟨e.1, e.2.1⟩), preg_setPreg _ _ R.small hk,
      if_neg (fun e => (hn e.1).1 e.2)]
  rw [pageWrite_plain R hu]
  unfold wrStore
  simp only
  split
  · exact hstored _
  · rw [pageErr_preg _ _ _ hk (fun e => (hn e.1).2.1 e.2) (fun e => (hn e.1).2.2 e.2) (by simpa using h), hstored]

/-- A GO bit reads 1 after a write that has 1 there, else what it read. -/
theorem bit_pageWrite_go {b : Nat} (R : PlainReg p o row) (hu : Unlocked s p) (hg : goField b row.flds = true) (hb : b < 32) (v same : W32) :
    bit (preg (pageWrite s p o v same).st p o) b = (bit v b || bit (preg s p o) b) := by
  rw [preg_pageWrite_same R hu]
  exact (goFold _ v same hb _ hg _ (by simp [bit])).2

end

/-! ## The fields of the word -/

/-- A field takes the word: it is RW, or RWL and not locked, and the encoding is none of the reserved ones. -/
structure Takes1 (locked : Bool) (v same : W32) (x : Fld) : Prop where
  code : x.acc = .rw ∨ x.acc = .rwl ∧ locked = false ∧ fld same x.lo x.w = 0
  least : x.least ≤ fld v x.lo x.w
  most : fld v x.lo x.w ≤ x.most
  inside : x.lo + x.w ≤ 32

theorem fld_lt {n : Nat} (x : BitVec n) (lo w : Nat) : fld x lo w < 2 ^ w := Nat.mod_lt _ (Nat.two_pow_pos w)

/-- A field that takes the word reads as the word afterwards. -/
theorem wrField_takes {locked : Bool} {v same : W32} {x : Fld} (a : Wr) (h : Takes1 locked v same x) :
    fld (wrField locked v same a x).new x.lo x.w = fld v x.lo x.w := by
  have hset := fld_setFld_same a.new x.lo x.w (fld v x.lo x.w) h.inside (fld_lt v _ _)
  unfold wrField
  rcases h.code with hrw | ⟨hrwl, hl, hsame⟩
  · simp [hrw, h.least, h.most, hset]
  · simp only [hrwl, hl, hsame, h.least, h.most]
    split_ifs with h1 h2 h3 h4
    all_goals first
      | exact hset
      | exact h2.symm
      | simp_all

/-- The fields beside `x` lie apart from it. -/
def apartFrom (x : Fld) (l : List Fld) : Bool :=
  l.all fun y => decide (y = x) || decide (y.lo + y.w ≤ x.lo) || decide (x.lo + x.w ≤ y.lo)

theorem fld_wrField_out (locked : Bool) (v same : W32) (a : Wr) {x y : Fld} (h : y.lo + y.w ≤ x.lo ∨ x.lo + x.w ≤ y.lo) :
    fld (wrField locked v same a y).new x.lo x.w = fld a.new x.lo x.w :=
  fld_of_bits fun b h1 h2 => wrField_out locked v same a y (by omega)

/-- Once a field reads as the word, or where it is still to take it, it reads as the word in the end. -/
theorem foldl_takes {locked : Bool} {v same : W32} {x : Fld} (ht : Takes1 locked v same x) (l : List Fld) (hl : apartFrom x l = true) (a : Wr)
    (h : x ∈ l ∨ fld a.new x.lo x.w = fld v x.lo x.w) : fld (l.foldl (wrField locked v same) a).new x.lo x.w = fld v x.lo x.w := by
  induction l generalizing a with
  | nil => simpa using h
  | cons y l ih =>
    simp only [apartFrom, List.all_cons, Bool.and_eq_true, Bool.or_eq_true, decide_eq_true_eq] at hl
    obtain ⟨hy, hl⟩ := hl
    refine ih hl _ ?_
    by_cases hxy : y = x
    · subst hxy
      exact .inr (wrField_takes a ht)
    · rcases h with h | h
      · exact .inl ((List.mem_cons.mp h).resolve_left (Ne.symm hxy))
      · exact .inr ((fld_wrField_out _ _ _ _ (by tauto)).trans h)

/-- A field of a register that takes the word reads as the word afterwards. -/
theorem fld_pageWrite {s : State} {p : Page} {o : Nat} {row : RegRow} (R : PlainReg p o row) (hu : Unlocked s p) {v same : W32} (x : Fld)
    (hx : row.flds.contains x = true) (hap : apartFrom x row.flds = true) (ht : Takes1 (rwlLocked s p o) v same x) :
    fld (preg (pageWrite s p o v same).st p o) x.lo x.w = fld v x.lo x.w := by
  rw [preg_pageWrite_same R hu]
  exact foldl_takes ht _ hap _ (.inl (by simpa using hx))

/-- So does its bit, where the field is one. -/
theorem bit_pageWrite {s : State} {p : Page} {o : Nat} {row : RegRow} (R : PlainReg p o row) (hu : Unlocked s p) {v same : W32} (b : Nat)
    (hx : row.flds.contains (f b 1 .rw) = true) (hap : apartFrom (f b 1 .rw) row.flds = true) (hb : b < 32) :
    bit (preg (pageWrite s p o v same).st p o) b = bit v b := by
  have h := fld_pageWrite R hu (v := v) (same := same) (f b 1 .rw) hx hap ⟨.inl rfl, Nat.zero_le _, Nat.le_sub_one_of_lt (fld_lt v b 1), hb⟩
  rw [bit_eq_fld, bit_eq_fld]
  exact congrArg (fun n => decide (n = 1)) h

/-- The bits of a word that no field but read-only ones covers stay as they are. -/
theorem foldl_out {locked : Bool} {v same : W32} {b : Nat} (l : List Fld)
    (hl : l.all (fun y => decide (y.acc = .ro) || decide (b < y.lo) || decide (y.lo + y.w ≤ b)) = true) (a : Wr) :
    bit (l.foldl (wrField locked v same) a).new b = bit a.new b := by
  induction l generalizing a with
  | nil => rfl
  | cons y l ih =>
    simp only [List.all_cons, Bool.and_eq_true, Bool.or_eq_true, decide_eq_true_eq] at hl
    rw [List.foldl_cons, ih hl.2]
    rcases hl.1 with (h | h) | h
    · simp [wrField, h]
    · exact wrField_out _ _ _ _ _ (.inl h)
    · exact wrField_out _ _ _ _ _ (.inr h)

/-- A GO field that is written 0 neither starts nor moves. -/
theorem started_zero {s : State} {p : Page} {o b : Nat} {row : RegRow} (R : PlainReg p o row) (hu : Unlocked s p) (hg : goField b row.flds = true)
    (hb : b < 32) {v : W32} (same : W32) (hv : bit v b = false) : (pageWrite s p o v same).started b = false := by
  rw [started_plain R hu hg hb, hv]
  rfl

/-- A GO bit that reads 0 and is written 1 starts. -/
theorem started_one {s : State} {p : Page} {o b : Nat} {row : RegRow} (R : PlainReg p o row) (hg : goField b row.flds = true)
    (hb : b < 32) {v : W32} (same : W32) (hs : Starts s p o b v) : (pageWrite s p o v same).started b = true := by
  obtain ⟨hu, hold, hv⟩ := hs
  rw [started_plain R hu hg hb, hv, hold]
  rfl

/-- The write of an action that completes at once: the action runs on the written state, and its bit clears (03 R86). -/
theorem pageWriteGo_starts {s : State} {p : Page} {o b : Nat} {row : RegRow} (R : PlainReg p o row) (hg : goField b row.flds = true)
    (hb : b < 32) {v : W32} (g : State → State) (hs : Starts s p o b v) :
    pageWriteGo s p o v b g = goDone (g (pageWrite s p o v).st) p o b := by
  unfold pageWriteGo
  simp only [started_one R hg hb 0 hs, if_true]

/-! ## The upper half of a pair -/

theorem fld_all (v : W32) : fld v 0 32 = v.toNat := by
  have := v.isLt
  unfold fld
  omega

/-- A field over the whole register that reserves nothing takes the word. -/
theorem wrField_all (locked : Bool) (v same : W32) (a : Wr) : wrField locked v same a (f 0 32 .rw) = { a with new := v } := by
  have hset : setFld a.new 0 32 v.toNat = v := by
    apply BitVec.eq_of_toNat_eq
    rw [← fld_all (setFld a.new 0 32 v.toNat), fld_setFld_same _ _ _ _ (by omega) v.isLt]
  rw [wrField_rw, fld_all, hset]

/-- The write of the upper half of an RW pair commits both halves, the lower one as it was staged (03 R78). -/
theorem pageWrite_pair {s : State} {p : Page} {o : Nat} {row lo : RegRow} {v : W32} (hu : Unlocked s p) (hrow : rowOf p o = some row)
    (hlo : (if o < 4 then none else rowOf p (o - 4)) = some lo) (hsingle : row.pair = false) (hpair : lo.pair = true) (hf : row.flds = all .rw) (hl : lo.flds = all .rw)
    (hfix : ∀ x new, wrFix p o x new = new) (hcross : ∀ old x a, crossCheck p o old x a = a)
    (hfixLo : ∀ x new, wrFix p (o - 4) x new = new) (hcrossLo : ∀ old x a, crossCheck p (o - 4) old x a = a) :
    pageWrite s p o v =
      ⟨wrStore (setPreg s p (o - 4) (sget (fun _ => 0) s.staged (pageBase p + o - 4))) p o ⟨v, 0, 0⟩, 0, true, false⟩ := by
  have hhalf : ∀ x : W32, wrReg s p o row x 0#32 = ⟨x, 0, 0⟩ := fun x => by
    simp [wrReg, hf, all, wrField_all, hfix, hcross]
  have hhalfLo : ∀ x : W32, wrReg s p (o - 4) lo x 0#32 = ⟨x, 0, 0⟩ := fun x => by
    simp [wrReg, hl, all, wrField_all, hfixLo, hcrossLo]
  unfold pageWrite
  rw [hu, hrow]
  simp only [hsingle, hlo, hpair, Bool.false_and, Bool.false_eq_true, if_false, if_true]
  simp [hl, all, f, hhalf, hhalfLo]

end Sys2Proof
end

section
/-! PROOFS. Writes of the TD page (02 R36 to R46, R67, R69). -/

namespace Sys2Proof

open Sys2Proof.Machine

/-! ## Its registers -/

/-- CTRL of a page that has all three fields (03 R83). -/
abbrev ctrlFull : RegRow := r 0x008 0 [f 0 1 .rw, f 1 1 .rw, f 2 1 .go]

theorem tdCtrl_plain : PlainReg .td 8 ctrlFull := {}

/-- TD_CTRL. -/
abbrev tdCtrlRow : RegRow :=
  r 0x100 0 [f 0 1 .rwl, fr 1 4 .rwl 0 8, f 5 1 .rw, f 6 1 .rw, f 7 1 .rw, f 8 1 .go, f 9 1 .go, f 16 8 .rw]

theorem tdCtrlReg_plain : PlainReg .td 0x100 tdCtrlRow := {}

theorem tdLenNext_plain : PlainReg .td 0x124 (r 0x124 0x80000 [f 0 27 .rw]) := {}

theorem tdWin_plain : PlainReg .td 0x140 (r 0x140 0x200 [f 0 18 .rw]) := {}

theorem bit_setBit_other {n : Nat} (x : BitVec n) {i k : Nat} (v : Bool) (h : k ≠ i) : bit (setBit x i v) k = bit x k :=
  bit_setFld_out _ _ _ _ _ (by omega)

/-! ## Enabling and disabling -/

/-- CTRL.ENABLE reads as it is written. -/
theorem tdEnabled_written {s : State} (hu : Unlocked s .td) (v same : W32) :
    enabled (pageWrite s .td 8 (setBit v 2 false) same).st .td = bit v 0 := by
  unfold enabled
  rw [bit_pageWrite tdCtrl_plain hu 0 (by decide) (by decide) (by omega)]
  exact bit_setBit_other _ _ (by omega)

theorem tdMaster_written {s : State} (hu : Unlocked s .td) (v same : W32) : tdMaster (pageWrite s .td 8 v same).st = tdMaster s := by
  unfold tdMaster
  rw [preg_pageWrite_other tdCtrl_plain hu _ _ (by omega) (by simp) (by simp)]

theorem tdLenNext_written {s : State} (hu : Unlocked s .td) (v same : W32) : preg (pageWrite s .td 8 v same).st .td 0x124 = preg s .td 0x124 :=
  preg_pageWrite_other tdCtrl_plain hu _ _ (by omega) (by simp) (by simp)

/-- ENABLE goes to 1: the tide starts in its role. -/
theorem tdCtrlEnable_on {s : State} {v : W32} (hu : Unlocked s .td) (hoff : enabled s .td = false) (hv : bit v 0 = true) :
    tdCtrlEnable s (setBit v 2 false) =
      tideStart (pageWrite s .td 8 (setBit v 2 false)).st (pageWrite s .td 8 (setBit v 2 false)).rej := by
  unfold tdCtrlEnable
  simp [pageWrite_ok tdCtrl_plain hu, hoff, tdEnabled_written hu, hv]

/-- ENABLE goes to 0: the tide stops. -/
theorem tdCtrlEnable_off {s : State} {v : W32} (hu : Unlocked s .td) (hon : enabled s .td = true) (hv : bit v 0 = false) :
    tdCtrlEnable s (setBit v 2 false) = tideStop (pageWrite s .td 8 (setBit v 2 false)).st := by
  unfold tdCtrlEnable
  simp [pageWrite_ok tdCtrl_plain hu, hon, tdEnabled_written hu, hv]

/-! ## RELOCK and RESUME -/

/-- RELOCK alone: the action, whose bit clears. -/
theorem tdCtrlWrite_relock {s : State} {v : W32} (hs : Starts s .td 0x100 8 v) (h9 : bit v 9 = false) :
    tdCtrlWrite s v = goDone (relockAct (pageWrite s .td 0x100 v).st) .td 0x100 8 := by
  unfold tdCtrlWrite
  simp [started_one tdCtrlReg_plain rfl (by omega) _ hs, started_zero tdCtrlReg_plain hs.1 rfl (by omega) _ h9]

/-- A follower that hunts again: dispatch halts from the next boundary (02 R44). -/
theorem relockAct_tide {s : State} (hd : s.tide.mode ≠ .disabled) (hm : s.tide.mode ≠ .master) :
    (relockAct s).tide = { s.tide with haltDue := true, adopted := false, mode := .hunt } := by
  unfold relockAct
  split
  · next h => exact absurd h hd
  · next h => exact absurd h hm
  · exact setMode_tide _ _

/-- RESUME alone: it runs while a halt is in force or due, and completes at once where none is. -/
theorem tdCtrlWrite_resume {s : State} {v : W32} (hs : Starts s .td 0x100 9 v) (h8 : bit v 8 = false) :
    tdCtrlWrite s v =
      if haltPending s then { (pageWrite s .td 0x100 v).st with tide := { s.tide with resume := true } }
      else goDone (pageWrite s .td 0x100 v).st .td 0x100 9 := by
  unfold tdCtrlWrite
  simp [started_one tdCtrlReg_plain rfl (by omega) _ hs, started_zero tdCtrlReg_plain hs.1 rfl (by omega) _ h8, haltPending]

/-! ## Lengths and the window -/

/-- The halves of TD_LEN_STEP: _LO is staged (03 R78). -/
theorem tdLenLo_staged {s : State} (hu : Unlocked s .td) (v same : W32) :
    pageWrite s .td 0x128 v same = ⟨{ s with staged := sset (fun _ => 0) s.staged (pageBase .td + 0x128) v }, 0, true, false⟩ := by
  unfold pageWrite
  rw [hu]
  rfl

theorem tdLenHi_committed {s : State} (hu : Unlocked s .td) (v : W32) :
    pageWrite s .td 0x12C v =
      ⟨wrStore (setPreg s .td 0x128 (sget (fun _ => 0) s.staged (pageBase .td + 0x128))) .td 0x12C ⟨v, 0, 0⟩, 0, true, false⟩ :=
  pageWrite_pair (lo := ⟨0x128, 1, 8, 0, true, all .rw⟩) hu rfl rfl rfl rfl rfl rfl (by intros; rfl) (by intros; rfl) (by intros; rfl) (by intros; rfl)

/-! ## The statement -/

/-- Settles O7: each write is what it stores, followed by the action of its case. -/
theorem tideControl : Obligations.TideControl := by
  refine ⟨?hunt, ?master, ?stop, ?relock, ?relockMaster, ?resume, ?resumeIdle, ?lenNext, ?lenBad, ?lenLo, ?lenHi, ?win, ?winBad⟩
  case hunt =>
    intro s v hu hoff hrole hv
    have hkeeps : Keeps [.page .td, .staged, .tide, .boot] s (tdCtrlEnable s (setBit v 2 false)) := tdCtrlEnable_keeps _ (by decide) (Keeps.refl _ s)
    refine ⟨_, rfl, hkeeps, ?_, ?_⟩
    · simp [tdCtrlEnable_on hu hoff hv, tideStart, tdMaster_written hu, hrole]
    · simpa [tdCtrlEnable_on hu hoff hv, tideStart, tdMaster_written hu, hrole, enabled, hv] using tdEnabled_written hu v _
  case master =>
    intro s v hu hoff hrole hlen hv
    refine ⟨_, rfl, tdCtrlEnable_keeps _ (by decide) (Keeps.refl _ s), ?_⟩
    simp [tdCtrlEnable_on hu hoff hv, tideStart, tdMaster_written hu, hrole, tdLenNext_written hu, hlen]
  case stop =>
    intro s v hu hon hv
    refine ⟨_, rfl, tdCtrlEnable_keeps _ (by decide) (Keeps.refl _ s), ?_⟩
    simp [tdCtrlEnable_off hu hon hv, tideStop]
  case relock =>
    intro s v hs h9 hd hm
    refine ⟨_, congrArg Host.Outcome.next (tdCtrlWrite_relock hs h9), ?_, ?_, ?_⟩
    · exact goDone_keeps _ _ _ (by omega) (by decide) (relockAct_keeps (by decide)
        (pageWrite_keeps _ _ _ _ (by omega) (by decide) (by decide) (Keeps.refl _ s)))
    · have htide : (pageWrite s .td 0x100 v).st.tide = s.tide := pageWrite_tide _ _ _ _ (by omega)
      rw [goDone_tide _ _ _ (by omega), relockAct_tide (by rwa [htide]) (by rwa [htide]), htide]
    · simp [bit_andNot_one32]
  case relockMaster =>
    intro s v hs h9 hm
    have hact : relockAct (pageWrite s .td 0x100 v).st = (pageWrite s .td 0x100 v).st := by simp [relockAct, hm]
    refine ⟨_, congrArg Host.Outcome.next ((tdCtrlWrite_relock hs h9).trans (by rw [hact])), ?_, ?_⟩
    · exact goDone_keeps _ _ _ (by omega) (by decide) (pageWrite_keeps_plain tdCtrlReg_plain hs.1 _ _ (by decide) (Keeps.refl _ s))
    · simp [bit_andNot_one32]
  case resume =>
    intro s v hs h8 hhalt
    refine ⟨_, congrArg Host.Outcome.next ((tdCtrlWrite_resume hs h8).trans (if_pos hhalt)), ?_, rfl, ?_⟩
    · exact put_tide_keeps _ (by decide) (pageWrite_keeps_plain tdCtrlReg_plain hs.1 _ _ (by decide) (Keeps.refl _ s))
    · simp [bit_pageWrite_go (b := 9) tdCtrlReg_plain hs.1 rfl, hs.2.2]
  case resumeIdle =>
    intro s v hs h8 hhalt
    refine ⟨_, congrArg Host.Outcome.next ((tdCtrlWrite_resume hs h8).trans (if_neg (by simp [hhalt]))), ?_, ?_⟩
    · exact goDone_keeps _ _ _ (by omega) (by decide) (pageWrite_keeps_plain tdCtrlReg_plain hs.1 _ _ (by decide) (Keeps.refl _ s))
    · simp [bit_andNot_one32]
  case lenNext =>
    intro s v hu hlen
    refine ⟨(pageWrite s .td 0x124 v).st, congrArg Host.Outcome.next (by simp [tdLenWrite, hlen]), ?_, ?_⟩
    · exact pageWrite_keeps_plain tdLenNext_plain hu _ _ (by decide) (Keeps.refl _ s)
    · exact fld_pageWrite tdLenNext_plain hu (f 0 27 .rw) rfl rfl ⟨.inl rfl, Nat.zero_le _, Nat.le_sub_one_of_lt (fld_lt v 0 27), by decide⟩
  case lenBad =>
    intro s v hu hlen
    refine ⟨raiseErr s .td 8 (fld v 0 27), congrArg Host.Outcome.next (by simp [tdLenWrite, hlen, hu]), ?_, by simp, by simp⟩
    exact raiseErr_keeps _ _ _ (by decide) (Keeps.refl _ s)
  case lenLo =>
    intro s v hu
    refine ⟨{ s with staged := sset (fun _ => 0) s.staged (pageBase .td + 0x128) v }, congrArg Host.Outcome.next ?_, ?_, sget_sset_same _ _ _ _⟩
    · simp [tdLenWrite, tdLenLo_staged hu]
    · exact put_staged_keeps _ (by decide) (Keeps.refl _ s)
  case lenHi =>
    intro s v hu hm ha hpast
    set low := sget (fun _ => 0) s.staged (pageBase .td + 0x128) with hlow
    have hpair : preg64 (pageWrite s .td 0x12C v).st .td 0x128 = low.toNat + 2 ^ 32 * v.toNat := by
      rw [tdLenHi_committed hu]
      unfold preg64
      rw [wrStore_preg_other _ (by omega) (by omega) rfl (by simp) (by simp) (by simp), wrStore_preg _ _ (by omega) rfl (by simp) (by simp),
        preg_setPreg_same]
    have hstat : preg (pageWrite s .td 0x12C v).st .td 0x10 = preg s .td 0x10 := by
      rw [tdLenHi_committed hu, wrStore_preg_other _ (by omega) (by omega) rfl (by simp) (by simp) (by simp), preg_setPreg_off _ _ _ (by omega)]
    have hw : Keeps [.page .td, .tide] s (pageWrite s .td 0x12C v).st := by
      rw [tdLenHi_committed hu]
      exact wrStore_keeps _ _ _ (by omega) (by decide) (setPreg_keeps _ _ _ (by omega) (by decide) (Keeps.refl _ s))
    have hact : tdLenWrite s .lenStepHi v = raiseErr { (pageWrite s .td 0x12C v).st with
        tide := { s.tide with lenDue := true } } .td 9 (preg64 (pageWrite s .td 0x12C v).st .td 0x128) := by
      have hok : (pageWrite s .td 0x12C v).ok = true := by rw [tdLenHi_committed hu]
      have htide : (pageWrite s .td 0x12C v).st.tide = s.tide := pageWrite_tide _ _ _ _ (by omega)
      unfold tdLenWrite
      simp only
      rw [hok, htide, hpair, if_pos ⟨rfl, hm, ha, hpast⟩]
    refine ⟨_, congrArg Host.Outcome.next hact, raiseErr_keeps _ _ _ (by decide) (put_tide_keeps _ (by decide) hw), by simp, ?_, ?_⟩
    · rw [← hpair]
      simp [preg64]
    · rw [preg_raiseErr_stat]
      exact congrArg (· ||| one32 9) hstat
  case win =>
    intro s v hu hleast hmost
    refine ⟨(pageWrite s .td 0x140 v).st, congrArg Host.Outcome.next ?_, ?_, ?_⟩
    · unfold tdWinWrite
      simp only
      rw [if_neg (by omega)]
    · exact pageWrite_keeps_plain tdWin_plain hu _ _ (by decide) (Keeps.refl _ s)
    · exact fld_pageWrite tdWin_plain hu (f 0 18 .rw) rfl rfl ⟨.inl rfl, Nat.zero_le _, Nat.le_sub_one_of_lt (fld_lt v 0 18), by decide⟩
  case winBad =>
    intro s v hu hless
    refine ⟨raiseErr s .td 10 (fld v 0 18), congrArg Host.Outcome.next (by simp [tdWinWrite, hless, hu]), ?_, by simp, by simp⟩
    exact raiseErr_keeps _ _ _ (by decide) (Keeps.refl _ s)

end Sys2Proof
end

section
/-! PROOFS. The step boundary (02 R33, R40, R44, R46). -/

namespace Sys2Proof

open Sys2Proof.Machine

/-! ## Operations repeated over a list -/

/-- What one element of a list brings about, and every element leaves, holds after all of them. -/
theorem foldl_reaches {α : Type} {R : State → Prop} {g : State → α → State} {i : α} (hi : ∀ t, R (g t i)) (hk : ∀ t j, R t → R (g t j)) {l : List α}
    (h : i ∈ l) (s : State) : R (l.foldl g s) := by
  induction l generalizing s with
  | nil => cases h
  | cons a l ih =>
    rcases List.mem_cons.mp h with rfl | h
    · exact List.foldlRecOn (motive := R) l g (hi s) fun t ht j _ => hk t j ht
    · exact ih h (g s a)

/-! ## The tide's own part -/

/-- Everything at a boundary after the tide's own part leaves the tide alone. -/
theorem boundary_afterTide (s : State) :
    Keeps [.page .sd, .page .xl, .tt, .cores, .sd, .clusters, .ports, .pl, .fc] (tideBoundary s) (boundary s) := by
  have hmarks := clearMarks_keeps (P := [.page .sd, .page .xl, .tt, .cores, .sd, .clusters, .ports, .pl, .fc]) (by decide)
    (Keeps.refl _ (tideBoundary s))
  unfold boundary
  refine boundaryWords_keeps (keeps_foldl (fun t n ht => rttBoundary_keeps n (by decide) ht) _ ?_)
  refine keeps_ite (fun _ => ?_) fun _ => hmarks
  refine detect_keeps (by decide) (plBoundary_keeps (by decide) (pwBoundary_keeps (by decide) ?_))
  exact keeps_foldl (fun t n ht => portBoundary_keeps n (by decide) ht) _ (ttBoundaries_keeps _ (by decide) hmarks)

theorem stepBoundary_tide {s t : State} (hdue : boundaryDue s.tide = true) (h : exec .stepBoundary s = .next t) : t.tide = (tideBoundary s).tide := by
  have he : t = entriesInOrder s.lb.inq.length (boundary s) := by
    have : exec .stepBoundary s = .next (entriesInOrder s.lb.inq.length (boundary s)) := congrArg Host.Outcome.next (if_pos hdue)
    exact Host.Outcome.next.inj (h.symm.trans this)
  rw [he, (entriesInOrder_keeps (P := [.lb]) _ (by decide) (Keeps.refl _ _)) .tide (by decide), boundary_afterTide s .tide (by decide)]

/-- Halting, resuming and dispatching aside, `dispatchState` leaves the tide alone. -/
theorem dispatchState_same (t : Tide) :
    { (dispatchState t).1 with dispatching := t.dispatching, halt := t.halt, haltDue := t.haltDue, resume := t.resume } = t := by
  unfold dispatchState
  simp only
  split_ifs <;> rfl

theorem dispatchState_dispatching {t : Tide} (h : t.begun = true ∨ t.dispatching = true) : (dispatchState t).1.dispatching = true := by
  unfold dispatchState
  simp only
  rcases h with h | h <;> split_ifs <;> simp_all

theorem nextStep_mode (s : State) : (nextStep s).mode = s.tide.mode := by
  unfold nextStep
  simp only
  split_ifs <;> rfl

theorem nextStep_missed (s : State) : (nextStep s).missed = s.tide.missed := by
  unfold nextStep
  simp only
  split_ifs <;> rfl

theorem dispatchState_mode (t : Tide) : (dispatchState t).1.mode = t.mode := by
  have h := congrArg Tide.mode (dispatchState_same t)
  exact h

theorem dispatchState_missed (t : Tide) : (dispatchState t).1.missed = t.missed := by
  have h := congrArg Tide.missed (dispatchState_same t)
  exact h

/-- The tide of a step that begins, where it follows no missed frame of a locked follower. -/
theorem tideBoundary_tide {s : State} (h : (s.tide.mode = .locked ∧ s.tide.missed = false) ∨ s.tide.mode = .master) :
    (tideBoundary s).tide = { (dispatchState (applyCorr (nextStep s))).1 with missed := false } := by
  have hmode : (dispatchState (applyCorr (nextStep s))).1.mode = s.tide.mode := (dispatchState_mode _).trans (nextStep_mode s)
  have hmissed : (dispatchState (applyCorr (nextStep s))).1.missed = s.tide.missed := (dispatchState_missed _).trans (nextStep_missed s)
  unfold tideBoundary
  simp only
  generalize dispatchState (applyCorr (nextStep s)) = r at hmode hmissed ⊢
  have hgo : (if r.2 = true then goDone { s with tide := r.1 } .td 0x100 9 else { s with tide := r.1 }).tide = r.1 := by
    split
    · exact goDone_tide _ _ _ (by omega)
    · rfl
  generalize (if r.2 = true then goDone { s with tide := r.1 } .td 0x100 9 else { s with tide := r.1 }) = u at hgo ⊢
  have hhold : ¬u.tide.mode = .holdover := by
    rw [hgo, hmode]
    rcases h with h | h <;> simp [h]
  rw [if_neg hhold, hgo, hmissed]
  rcases h with ⟨hm, hmiss⟩ | hm
  · rw [if_neg (by simp [hmiss]), hgo, ← hmiss, ← hmissed]
  · split
    · next hmiss =>
      rw [if_neg (by simp [hmode, hm])]
    · next hmiss =>
      rw [hgo, ← Bool.eq_false_of_not_eq_true hmiss, ← hmissed]

/-! ## What a boundary leaves in a core -/

@[simp] theorem core_update {e : State} {id : Fin 256} {pending out fresh regs staged captured tide mesh fares locks sdChanged sdArmed clusters
    mailboxes bar4 xb ctxs drains dm poison slices lw cxl frz ports eqs scrubs pl fc lb gp mod boot} :
    (State.mk pending out fresh regs staged captured tide e.cores mesh fares locks sdChanged sdArmed clusters mailboxes bar4 xb ctxs drains dm
      poison slices lw cxl frz ports eqs scrubs pl fc lb gp mod boot).core id = e.core id := rfl

@[simp] theorem setTtReg_core (s : State) (j : Fin 256) (o : Nat) (v : W32) (i : Fin 256) : (setTtReg s j o v).core i = s.core i := rfl

@[simp] theorem unreachedCheck_core (s : State) (j i : Fin 256) : (unreachedCheck s j).core i = s.core i :=
  (unreachedCheck_keeps (P := [.tt]) j (by decide) (Keeps.refl _ s)).core (by decide) i

theorem setTt_core_same (s : State) (i : Fin 256) (x : Dispatcher) : (setTt s i x).core i = { s.core i with tt := x } :=
  setCoreRaw_core_same _ _ _

theorem setTt_core_other (s : State) {i j : Fin 256} (x : Dispatcher) (h : j ≠ i) : (setTt s i x).core j = s.core j :=
  setCoreRaw_core_other _ _ h

/-- Changing the dispatcher of a core leaves the rest of every core. -/
theorem setTt_core (s : State) (i j : Fin 256) (x : Dispatcher) : (setTt s i x).core j = { s.core j with tt := if j = i then x else (s.core j).tt } := by
  by_cases h : j = i
  · subst h
    rw [setTt_core_same, if_pos rfl]
  · rw [setTt_core_other _ _ h, if_neg h]

theorem switchBank_core (s : State) (i j : Fin 256) :
    ∃ x, x.sendQ = (s.core j).tt.sendQ ∧ (switchBank s i).core j = { s.core j with tt := x } ∧ (j ≠ i → x = (s.core j).tt) := by
  unfold switchBank
  simp only
  split_ifs
  · refine ⟨_, ?_, (setTtReg_core ..).trans (setTt_core ..), fun h => if_neg h⟩
    split
    · next h => rw [h]
    · rfl
  · refine ⟨_, ?_, setTt_core .., fun h => if_neg h⟩
    split
    · next h => rw [h]
    · rfl
  · exact ⟨_, rfl, rfl, fun _ => rfl⟩

/-- The boundary of a core's timetable leaves the rest of the core, and every other core. -/
theorem ttBoundary_core (s : State) (i j : Fin 256) (l : List (Bool × BitVec 9)) :
    ∃ x, (ttBoundary s i l).core j = { s.core j with tt := x } ∧ (j ≠ i → x = (s.core j).tt) ∧ (j = i → x.next = 0 ∧ x.sendQ = []) := by
  unfold ttBoundary
  extract_lets c lapsed s2 c2 d2 s3 s4 t run s5
  have h2 : s2.core j = s.core j := by
    simp only [s2, when]
    split
    · exact setTtReg_core _ _ _ _ _
    · rfl
  have h3 : s3.core j = { s.core j with tt := if j = i then { (s2.core i).tt with sendQ := [] } else (s.core j).tt } :=
    (setTt_core s2 i j _).trans (by rw [h2])
  obtain ⟨x, hq, hx, hne⟩ := switchBank_core s3 i j
  have h5 : s5.core j = { s4.core j with tt := if j = i then { t with
      running := run, next := 0, places := 0, lastPhase := 0, carried := if run then l else [] } else (s4.core j).tt } := setTt_core _ _ _ _
  have hout : (if s5.tide.mode = .master then unreachedCheck s5 i else s5).core j = s5.core j := by
    split
    · exact unreachedCheck_core _ _ _
    · rfl
  rw [hout, h5, show s4.core j = { s3.core j with tt := x } from hx, h3]
  refine ⟨_, rfl, fun h => ?_, fun h => ?_⟩
  · rw [if_neg h, hne h, h3, if_neg h]
  · subst h
    have ht : t = x := congrArg Core.tt hx
    rw [if_pos rfl]
    exact ⟨rfl, by rw [ht, hq, h3, if_pos rfl]⟩

/-- All that a boundary leaves of a core is its registers and memory: its mark count and its timetable's place go back to 0. -/
structure BoundaryCore (c c' : Core) : Prop where
  ldm : c'.ldm = c.ldm
  sreg : c'.sreg = c.sreg
  mark : c'.mark = 0

theorem clearMarks_core (s : State) (i : Fin 256) : BoundaryCore (s.core i) ((clearMarks s).core i) := by
  have hself : ∀ t : State, ∀ j, (t.setCoreRaw j { t.core j with mark := 0, markTick := none, markBefore := 0 }).core i =
      if i = j then { t.core i with mark := 0, markTick := none, markBefore := 0 } else t.core i := fun t j => by
    by_cases h : i = j
    · subst h
      rw [setCoreRaw_core_same, if_pos rfl]
    · rw [setCoreRaw_core_other _ _ h, if_neg h]
  have hmark : ((clearMarks s).core i).mark = 0 := by
    refine foldl_reaches (R := fun t => (t.core i).mark = 0) (i := i) (fun t => ?_) (fun t j h => ?_) (List.mem_finRange i) s
    · rw [hself, if_pos rfl]
    · rw [hself]
      split
      · rfl
      · exact h
  have hkept : ((clearMarks s).core i).ldm = (s.core i).ldm ∧ ((clearMarks s).core i).sreg = (s.core i).sreg := by
    refine List.foldlRecOn (motive := fun t : State => (t.core i).ldm = (s.core i).ldm ∧ (t.core i).sreg = (s.core i).sreg) _ _ ⟨rfl, rfl⟩
      fun t ht j _ => ?_
    rw [hself]
    split
    · exact ht
    · exact ht
  exact ⟨hkept.1, hkept.2, hmark⟩

/-- After the boundaries of some timetables, a core of theirs begins at its first entry with no message queued; of the rest of the core nothing
changes. -/
theorem ttBoundary_foldl_core (carried : Fin 256 → List (Bool × BitVec 9)) (i : Fin 256) {l : List (Fin 256)} (hi : i ∈ l) (s : State) :
    ∃ x, (l.foldl (fun t j => ttBoundary t j (carried j)) s).core i = { s.core i with tt := x } ∧ x.next = 0 ∧ x.sendQ = [] := by
  have hrest : ∃ x, (l.foldl (fun t j => ttBoundary t j (carried j)) s).core i = { s.core i with tt := x } := by
    refine List.foldlRecOn (motive := fun t : State => ∃ x, t.core i = { s.core i with tt := x }) l _ ⟨_, rfl⟩ fun t ht j _ => ?_
    obtain ⟨x, hx⟩ := ht
    obtain ⟨y, hy, -, -⟩ := ttBoundary_core t j i (carried j)
    exact ⟨y, by rw [hy, hx]⟩
  have hself : ∀ t : State, ((ttBoundary t i (carried i)).core i).tt.next = 0 ∧ ((ttBoundary t i (carried i)).core i).tt.sendQ = [] := fun t => by
    obtain ⟨x, hx, -, hzero⟩ := ttBoundary_core t i i (carried i)
    rw [hx]
    exact hzero rfl
  have hstart := foldl_reaches (R := fun t => (t.core i).tt.next = 0 ∧ (t.core i).tt.sendQ = [])
    (g := fun t j => ttBoundary t j (carried j)) hself (fun t j h => by
      by_cases hij : i = j
      · subst hij
        exact hself t
      · obtain ⟨x, hx, hother, -⟩ := ttBoundary_core t j i (carried j)
        simp only [hx, hother hij]
        exact h) hi s
  obtain ⟨x, hx⟩ := hrest
  rw [hx] at hstart
  exact ⟨x, hx, hstart⟩

theorem ttBoundaries_core (s old : State) (i : Fin 256) :
    ∃ x, (ttBoundaries s old).core i = { s.core i with tt := x } ∧ x.next = 0 ∧ x.sendQ = [] := by
  unfold ttBoundaries
  exact ttBoundary_foldl_core (fun j => if (old.core j).tt.running && dispatchOn old then pendingEntries old j else []) i (List.mem_finRange i) s

/-- A core after a boundary at which timetables are dispatched. -/
theorem boundary_core {s : State} (h : (tideBoundary s).tide.dispatching = true) (i : Fin 256) :
    ∃ x, (boundary s).core i = { (clearMarks (tideBoundary s)).core i with tt := x } ∧ x.next = 0 ∧ x.sendQ = [] := by
  have hdisp : (clearMarks (tideBoundary s)).tide.dispatching = true := by
    rw [(clearMarks_keeps (P := [.cores]) (by decide) (Keeps.refl _ (tideBoundary s))) .tide (by decide)]
    exact h
  have hafter : Keeps [.page .sd, .page .xl, .sd, .clusters, .ports, .pl, .fc] (ttBoundaries (clearMarks (tideBoundary s)) s) (boundary s) := by
    unfold boundary
    simp only [hdisp, if_true]
    refine boundaryWords_keeps (keeps_foldl (fun t n ht => rttBoundary_keeps n (by decide) ht) _ ?_)
    refine detect_keeps (by decide) (plBoundary_keeps (by decide) (pwBoundary_keeps (by decide) ?_))
    exact keeps_foldl (fun t n ht => portBoundary_keeps n (by decide) ht) _ (Keeps.refl _ _)
  rw [hafter.core (by decide)]
  exact ttBoundaries_core _ _ _

/-! ## The statement -/

theorem tideBoundary_core (s : State) (i : Fin 256) : (tideBoundary s).core i = s.core i :=
  (tideBoundary_keeps (P := [.page .td, .tide, .boot]) (by decide) (Keeps.refl _ s)).core (by decide) i

/-- Everything a boundary may touch. -/
theorem exec_stepBoundary {s : State} (hdue : boundaryDue s.tide = true) :
    ∃ t, exec .stepBoundary s = .next t ∧ t = entriesInOrder s.lb.inq.length (boundary s) ∧
      Keeps [.page .td, .page .sd, .page .xl, .tt, .tide, .cores, .sd, .clusters, .ports, .pl, .fc, .lb, .boot] s t := by
  have hexec : exec .stepBoundary s = .next (entriesInOrder s.lb.inq.length (boundary s)) := congrArg Host.Outcome.next (if_pos hdue)
  exact ⟨_, hexec, rfl, nextKeeps_eq (execStepBoundary_keeps (by decide) (Keeps.refl _ s)) hexec⟩

/-- A locked follower's tide at its boundary. -/
theorem nextStep_locked {s : State} (hm : s.tide.mode = .locked) : nextStep s = { s.tide with step := s.tide.step + 1 } := by
  simp [nextStep, hm]

/-- A master's first boundary: its step number is TD_STEP_INIT (02 R36). -/
theorem nextStep_first {s : State} (hm : s.tide.mode = .master) (ha : s.tide.adopted = false) :
    nextStep s = { s.tide with step := BitVec.ofNat 48 (preg64 s .td 0x130), adopted := true, dispatching := true } := by
  simp [nextStep, hm, ha]

/-- Settles O8: the tide of the step that begins is read off its own part of the boundary, and each core's timetable off its part. -/
theorem stepBegins : Obligations.StepBegins := by
  refine ⟨?locked, ?first, ?cores, ?early⟩
  case locked =>
    intro s hdue hm hmiss hbegun
    obtain ⟨t, hexec, -, hkeeps⟩ := exec_stepBoundary hdue
    have htide := (stepBoundary_tide hdue hexec).trans (tideBoundary_tide (.inl ⟨hm, hmiss⟩))
    have hsame := dispatchState_same (applyCorr (nextStep s))
    rw [nextStep_locked hm] at htide hsame
    refine ⟨t, hexec, hkeeps, ?_, ?_, ?_, ?_, ?_, ?_, ?_, ?_⟩ <;> rw [htide]
    · exact (congrArg Tide.step hsame :)
    · exact (congrArg Tide.phase hsame :)
    · exact (congrArg Tide.seen hsame :)
    · exact (congrArg Tide.corr hsame :)
    · exact dispatchState_dispatching (.inl hbegun)
    · exact (congrArg Tide.len hsame :)
    · exact (congrArg Tide.frac hsame :)
    · exact (congrArg Tide.waited hsame :)
  case first =>
    intro s hm ha
    have hdue : boundaryDue s.tide = true := by simp [boundaryDue, hm, ha]
    obtain ⟨t, hexec, -, hkeeps⟩ := exec_stepBoundary hdue
    have htide := (stepBoundary_tide hdue hexec).trans (tideBoundary_tide (.inr hm))
    have hsame := dispatchState_same (applyCorr (nextStep s))
    rw [nextStep_first hm ha] at htide hsame
    refine ⟨t, hexec, hkeeps, ?_, ?_, ?_, ?_⟩ <;> rw [htide]
    · exact (congrArg Tide.step hsame :)
    · exact (congrArg Tide.phase hsame :)
    · exact (congrArg Tide.adopted hsame :)
    · exact dispatchState_dispatching (.inr rfl)
  case cores =>
    intro s i hdue hm hmiss hbegun
    obtain ⟨t, hexec, ht, hkeeps⟩ := exec_stepBoundary hdue
    have hdisp : (tideBoundary s).tide.dispatching = true := by
      rw [tideBoundary_tide (.inl ⟨hm, hmiss⟩), nextStep_locked hm]
      exact dispatchState_dispatching (.inl hbegun)
    obtain ⟨x, hx, hnext, hq⟩ := boundary_core hdisp i
    have hcore : t.core i = { (clearMarks (tideBoundary s)).core i with tt := x } := by
      rw [ht, ← hx]
      exact (entriesInOrder_keeps (P := [.lb]) _ (by decide) (Keeps.refl _ _)).core (by decide) i
    have hc := clearMarks_core (tideBoundary s) i
    rw [tideBoundary_core] at hc
    refine ⟨t, hexec, hkeeps, ?_, ?_, ?_, ?_, ?_⟩ <;> simp only [hcore]
    exacts [hc.mark, hnext, hq, hc.ldm, hc.sreg]
  case early =>
    intro s hdue
    exact ⟨s, congrArg Host.Outcome.next (if_neg (by simp [hdue])), Keeps.refl _ s, rfl⟩

end Sys2Proof
end

section
/-! PROOFS. Cores and timetable windows: one rule per operation (02 R49 to R64; 04 R131, R132). -/

namespace Sys2Proof

open Sys2Proof.Machine

/-! ## Reading units -/

@[simp] theorem cl_update {e : State} {n : Fin 16} {pending out fresh regs staged captured tide cores mesh fares locks sdChanged sdArmed
    mailboxes bar4 xb ctxs drains dm poison slices lw cxl frz ports eqs scrubs pl fc lb gp mod boot} :
    (State.mk pending out fresh regs staged captured tide cores mesh fares locks sdChanged sdArmed e.clusters mailboxes bar4 xb ctxs drains dm
      poison slices lw cxl frz ports eqs scrubs pl fc lb gp mod boot).cl n = e.cl n := rfl

@[simp] theorem slice_update {e : State} {n : Fin 16} {pending out fresh regs staged captured tide cores mesh fares locks sdChanged sdArmed clusters
    mailboxes bar4 xb ctxs drains dm poison lw cxl frz ports eqs scrubs pl fc lb gp mod boot} :
    (State.mk pending out fresh regs staged captured tide cores mesh fares locks sdChanged sdArmed clusters mailboxes bar4 xb ctxs drains dm
      poison e.slices lw cxl frz ports eqs scrubs pl fc lb gp mod boot).slice n = e.slice n := rfl

@[simp] theorem port_update {e : State} {n : Fin 8} {pending out fresh regs staged captured tide cores mesh fares locks sdChanged sdArmed clusters
    mailboxes bar4 xb ctxs drains dm poison slices lw cxl frz eqs scrubs pl fc lb gp mod boot} :
    (State.mk pending out fresh regs staged captured tide cores mesh fares locks sdChanged sdArmed clusters mailboxes bar4 xb ctxs drains dm
      poison slices lw cxl frz e.ports eqs scrubs pl fc lb gp mod boot).port n = e.port n := rfl

@[simp] theorem lock_update {e : State} {n : Fin 1024} {pending out fresh regs staged captured tide cores mesh fares sdChanged sdArmed clusters
    mailboxes bar4 xb ctxs drains dm poison slices lw cxl frz ports eqs scrubs pl fc lb gp mod boot} :
    (State.mk pending out fresh regs staged captured tide cores mesh fares e.locks sdChanged sdArmed clusters mailboxes bar4 xb ctxs drains dm
      poison slices lw cxl frz ports eqs scrubs pl fc lb gp mod boot).lock n = e.lock n := rfl

/-- A unit that only a part not listed holds is the same. -/
theorem Keeps.cl {P : List Part} {s t : State} (h : Keeps P s t) (hc : Part.clusters ∉ P) (n : Fin 16) : t.cl n = s.cl n :=
  congrArg (·.get n) (h .clusters hc)

theorem Keeps.slice {P : List Part} {s t : State} (h : Keeps P s t) (hc : Part.slices ∉ P) (n : Fin 16) : t.slice n = s.slice n :=
  congrArg (·.get n) (h .slices hc)

theorem Keeps.port {P : List Part} {s t : State} (h : Keeps P s t) (hc : Part.ports ∉ P) (n : Fin 8) : t.port n = s.port n :=
  congrArg (·.get n) (h .ports hc)

theorem Keeps.lock {P : List Part} {s t : State} (h : Keeps P s t) (hc : Part.locks ∉ P) (n : Fin 1024) : t.lock n = s.lock n :=
  congrArg (·.get n) (h .locks hc)

/-- A register of a timetable window is the same where windows are no listed part. -/
theorem Keeps.ttReg {P : List Part} {s t : State} (h : Keeps P s t) (hc : Part.tt ∉ P) (id : Fin 256) {o : Nat} (ho : o < 0x10000) :
    ttReg t id o = ttReg s id o := h .tt hc id o ho

/-- The halves of a pair that is not listed are the same. -/
theorem Keeps.preg64 {P : List Part} {s t : State} (h : Keeps P s t) {p : Page} {k : Nat} (hp : Part.page (classOf p) ∉ P) (hk : k + 4 < 0x1000)
    (hep : p ≠ .ep) (hlb : p ≠ .lb) : preg64 t p k = preg64 s p k := by
  unfold Machine.preg64
  rw [h.preg hp (by omega) (by simp [hep]) (by simp [hlb]), h.preg hp (by omega) (by simp [hep]) (by simp [hlb])]

/-! ## Timetable windows -/

@[simp] theorem ttReg_update {e : State} {id : Fin 256} {o : Nat} {pending out fresh staged captured tide cores mesh fares locks sdChanged sdArmed
    clusters mailboxes bar4 xb ctxs drains dm poison slices lw cxl frz ports eqs scrubs pl fc lb gp mod boot} :
    ttReg (State.mk pending out fresh e.regs staged captured tide cores mesh fares locks sdChanged sdArmed clusters mailboxes bar4 xb ctxs drains dm
      poison slices lw cxl frz ports eqs scrubs pl fc lb gp mod boot) id o = ttReg e id o := rfl

@[simp] theorem setCoreRaw_ttReg (s : State) (j : Fin 256) (c : Core) (id : Fin 256) (o : Nat) : ttReg (s.setCoreRaw j c) id o = ttReg s id o := rfl

@[simp] theorem setTt_ttReg (s : State) (j : Fin 256) (x : Dispatcher) (id : Fin 256) (o : Nat) : ttReg (setTt s j x) id o = ttReg s id o := rfl

/-- Reading a register of a core's window after one was written. -/
@[simp] theorem ttReg_setTtReg (s : State) (id : Fin 256) (o k : Nat) (v : W32) :
    ttReg (setTtReg s id o v) id k = if k = o then v else ttReg s id k := by
  unfold ttReg setTtReg
  split
  · next h => rw [h, reg_setReg_same]
  · next h => exact reg_setReg_other _ _ (by omega)

/-- An operation done only where it is called for. -/
@[simp] theorem when_true (g : State → State) (s : State) : when true g s = g s := rfl

@[simp] theorem when_false (g : State → State) (s : State) : when false g s = s := rfl

theorem when_core {b : Bool} {g : State → State} {s : State} {id : Fin 256} (h : (g s).core id = s.core id) : (when b g s).core id = s.core id := by
  cases b
  · rfl
  · exact h

/-! ## Cores -/

theorem setCore_core_other (s : State) {i j : Fin 256} (c : Core) (h : j ≠ i) : (s.setCore i c).core j = s.core j := by
  unfold State.setCore
  simp only
  split_ifs <;> exact setCoreRaw_core_other s c h

theorem setCore_keeps' (s : State) (id : Fin 256) (c : Core) : Keeps [.page .sd, .cores, .sd] s (s.setCore id c) :=
  State.setCore_keeps _ _ (by decide) (Keeps.refl _ s)

@[simp] theorem preg_setCore (s : State) (id : Fin 256) (c : Core) {q : Page} {k : Nat} (hk : k < 0x1000) (hsd : q ≠ .sd) (h : q = .ep → k ≠ 0xA00)
    (h2 : q = .lb → k ≠ 0x11C) : preg (s.setCore id c) q k = preg s q k :=
  (setCore_keeps' s id c).preg (by cases q <;> simp_all [classOf]) hk (by simpa using h) (by simpa using h2)

@[simp] theorem ttReg_setCore (s : State) (j : Fin 256) (c : Core) (id : Fin 256) {o : Nat} (ho : o < 0x10000) :
    ttReg (s.setCore j c) id o = ttReg s id o := (setCore_keeps' s j c).ttReg (by decide) id ho

/-- A core with no wait is not woken. -/
theorem wakeCore_idle {s : State} {id : Fin 256} (h : (s.core id).waits = []) : wakeCore s id = s := by
  simp [wakeCore, h]

/-- An event set at a core without waits: its bit, and nothing else of the core (05 R183). -/
theorem setEvent_core {s : State} {id : Fin 256} (e : BitVec 5) (h : (s.core id).waits = []) :
    (setEvent s id e).core id = { s.core id with events := (s.core id).events ||| BitVec.ofNat 32 (2 ^ e.toNat) } := by
  unfold setEvent
  rw [wakeCore_idle, setCore_core_same]
  rw [setCore_core_same]
  exact h

theorem setEvent_keeps' (s : State) (id : Fin 256) (e : BitVec 5) : Keeps [.page .sd, .cores, .sd] s (setEvent s id e) :=
  setEvent_keeps _ _ (by decide) (Keeps.refl _ s)

/-- What the codes find leaves every register but those of errors. -/
@[simp] theorem preg_noteUpset (s : State) (id : Fin 256) (u : Upset) (a : Nat) {q : Page} {k : Nat} (hk : k < 0x1000)
    (h : q = .gc id → errReg k = false) (h2 : q = .ep → k ≠ 0xA00) : preg (noteUpset s id u a) q k = preg s q k := by
  unfold noteUpset
  split_ifs
  · exact preg_raiseErr s _ _ hk h h2
  · exact preg_raiseErr s _ _ hk h h2
  · rfl

theorem noteUpset_keeps' (s : State) (id : Fin 256) (u : Upset) (a : Nat) : Keeps [.page .gc] s (noteUpset s id u a) :=
  noteUpset_keeps _ _ _ (by decide) (Keeps.refl _ s)

@[simp] theorem noteUpset_core (s : State) (id : Fin 256) (u : Upset) (a : Nat) (j : Fin 256) : (noteUpset s id u a).core j = s.core j :=
  (noteUpset_keeps' s id u a).core (by decide) j

/-- A core halts with an exception: HALT, its cause and address, and no waits (05 R210). -/
theorem haltCore_core (s : State) (id : Fin 256) (cause : Byte) (pc : W16) (corr : Nat) :
    ((haltCore s id cause pc corr).core id).st = .halt ∧ ((haltCore s id cause pc corr).core id).exc = cause ∧
      ((haltCore s id cause pc corr).core id).excPc = pc ∧ ((haltCore s id cause pc corr).core id).waits = [] ∧
      ((haltCore s id cause pc corr).core id).chans = (s.core id).chans := by
  have hleave : (leaveQueues s id).core id = s.core id :=
    (leaveQueues_keeps (P := [.locks]) id (by decide) (Keeps.refl _ s)).core (by decide) id
  have hreport : ∀ (u : State) (a b c : Nat) (l : Bool), (raiseInt (raiseErrX u (.gc id) a b c l false) (.gc id) 16).core id = u.core id :=
    fun u a b c l => (raiseInt_keeps (P := [.page .gc]) (.gc id) 16 (by simp [classOf]) (raiseErrX_keeps (.gc id) a b c l false (by simp [classOf])
      (Keeps.refl _ u))).core (by decide) id
  unfold haltCore
  simp only [hreport, setCore_core_same, hleave, and_self]

end Sys2Proof
end

section
/-! PROOFS. The loops of clusters and of the module's power, and the power states of the CXL link (09 R371 to R373; 11 R471 to R478, R489 to R495). -/

namespace Sys2Proof

open Sys2Proof.Machine

/-! ## Events sent outside -/

@[simp] theorem emit_last (s : State) (o : Out) : (emit s o).out.getLast? = some o := List.getLast?_concat

@[simp] theorem preg_emit (s : State) (o : Out) (p : Page) (k : Nat) : preg (emit s o) p k = preg s p k := rfl

theorem bit_setBit_same (x : W32) {i : Nat} (v : Bool) (h : i < 32) : bit (setBit x i v) i = v := by
  rw [bit_eq_fld]
  unfold setBit
  rw [fld_setFld_same _ _ _ _ (by omega) (by cases v <;> decide)]
  cases v <;> rfl

/-- An error that is raised stands in ERR_STAT (03 R91). -/
theorem raiseErr_bit (s : State) (p : Page) {src : Nat} (addr : Nat) (h : src < 32) : bit (preg (raiseErr s p src addr) p 0x10) src = true := by
  rw [preg_raiseErr_stat, bit_or_one32 _ h]

/-! ## The power states of the CXL link -/

@[simp] theorem setLink_link (s : State) (l : LinkState) : (setLink s l).cxl.link = l := by
  have hready : ∀ u : State, (readyLog u).cxl.link = u.cxl.link := fun u =>
    (congrArg Cxl.link ((readyLog_keeps (P := [.boot]) (by decide) (Keeps.refl _ u)) .cxl (by decide)) : _)
  have hint : ∀ u : State, (raiseInt u .ep 16).cxl.link = u.cxl.link := fun u =>
    (congrArg Cxl.link ((raiseInt_keeps (P := [.page .ep]) .ep 16 (by decide) (Keeps.refl _ u)) .cxl (by decide)) : _)
  unfold setLink withReady
  rw [hready, hint]

theorem preg_setLink (s : State) (l : LinkState) {k : Nat} (hk : k < 0x1000) (h : k ≠ 0x30) (h2 : k ≠ 0xA00) :
    preg (setLink s l) .ep k = preg s .ep k := by
  unfold setLink withReady
  rw [preg_readyLog _ hk (fun _ => h2) (by simp), preg_raiseInt _ _ hk (fun _ => h) (fun _ => h2), preg_update]

theorem atX8_setX8 (s : State) (x8 : Bool) : atX8 (setX8 s x8) = x8 := by
  unfold setX8
  split
  · assumption
  · cases x8 <;> simp [atX8, Machine.when, bit_setBit_same]

/-- The counter of narrow links counts each narrowing (09 R372). -/
theorem setX8_count (s : State) (x8 : Bool) (h : atX8 s ≠ x8) :
    preg (setX8 s x8) .ep 0x160 = if x8 then satAdd (preg s .ep 0x160) 1 else preg s .ep 0x160 := by
  unfold setX8
  rw [if_neg h]
  cases x8 <;> simp [Machine.when]

/-- Settles O37: each command is one change of the link's power state or width, counted and asked for outside. -/
theorem linkPower : Obligations.LinkPower := by
  refine ⟨?l1, ?l1Refused, ?exit, ?narrow, ?widen, ?partner⟩
  case l1 =>
    intro s hidle hen hcnt
    refine ⟨_, rfl, ?_, ?_⟩
    · exact nextKeeps_eq (execL1Entry_keeps _ (by decide) (Keeps.refl _ s)) rfl
    · simp [hidle, hen, hcnt, preg_setLink]
  case l1Refused =>
    intro s
    refine ⟨s, ?_, Keeps.refl _ s, rfl⟩
    exact congrArg Host.Outcome.next (by simp)
  case exit =>
    intro s hl1
    refine ⟨emit (setLink s .l0) (.linkReq 2), congrArg Host.Outcome.next (if_pos hl1), ?_, setLink_link s .l0⟩
    exact emit_keeps _ (setLink_keeps _ (by decide) (Keeps.refl _ s))
  case narrow =>
    intro s hon hwide
    refine ⟨emit (setX8 s true) (.linkReq 3), congrArg Host.Outcome.next (if_pos (by simp [hon, hwide])), ?_, ?_, ?_, by simp⟩
    · exact emit_keeps _ (setX8_keeps _ (by decide) (Keeps.refl _ s))
    · exact atX8_setX8 s true
    · exact setX8_count s true (by simp [hwide])
  case widen =>
    intro s hon hx8
    refine ⟨emit (setX8 s false) (.linkReq 4), congrArg Host.Outcome.next (if_pos (by simp [hon, hx8])), ?_, ?_, ?_, by simp⟩
    · exact emit_keeps _ (setX8_keeps _ (by decide) (Keeps.refl _ s))
    · exact atX8_setX8 s false
    · exact setX8_count s false (by simp [hx8])
  case partner =>
    intro s x8 hon
    refine ⟨emit (setX8 s x8) (.linkReq 5), congrArg Host.Outcome.next (if_pos hon), ?_, ?_, by simp⟩
    · exact emit_keeps _ (setX8_keeps _ (by decide) (Keeps.refl _ s))
    · exact atX8_setX8 s x8

/-! ## The power loop of a cluster -/

theorem setCl_cl (s : State) (i j : Fin 16) (c : Cluster) : (s.setCl i c).cl j = if j = i then c else s.cl j := by
  split_ifs with h
  · rw [h, setCl_cl_same]
  · exact setCl_cl_other _ _ h

@[simp] theorem setPw_pw (s : State) (cl c : Fin 16) (p : Power) : (s.setPw cl p).pw c = if c = cl then p else s.pw c := by
  unfold State.setPw State.pw
  rw [setCl_cl]
  split_ifs <;> rfl

theorem setPw_keeps' (s : State) (cl : Fin 16) (p : Power) : Keeps [.clusters] s (s.setPw cl p) :=
  State.setPw_keeps _ _ (by decide) (Keeps.refl _ s)

@[simp] theorem preg_setPw (s : State) (cl : Fin 16) (p : Power) (q : Page) (k : Nat) : preg (s.setPw cl p) q k = preg s q k := rfl

theorem Keeps.pw {P : List Part} {s t : State} (h : Keeps P s t) (hc : Part.clusters ∉ P) (cl : Fin 16) : t.pw cl = s.pw cl :=
  congrArg Cluster.pw (h.cl hc cl)

/-- Beginning a voltage step changes neither target, frequency, voltage nor the mark of a clipped target. -/
theorem tryVoltStep_pw (s : State) (cl : Fin 16) :
    ((tryVoltStep s cl).pw cl).target = (s.pw cl).target ∧ ((tryVoltStep s cl).pw cl).code = (s.pw cl).code ∧
      ((tryVoltStep s cl).pw cl).volt = (s.pw cl).volt ∧ ((tryVoltStep s cl).pw cl).clipped = (s.pw cl).clipped := by
  unfold tryVoltStep
  extract_lets p
  by_cases hbusy : p.stepping.isSome ∨ stopped s = true
  · simp [hbusy]
  · rw [if_neg hbusy]
    cases wantedStep s cl with
    | none => simp [p]
    | some up => by_cases hallow : stepAllowed s cl = true <;> simp [hallow, p]

/-- A target is evaluated: what the loop wants, clipped by the limits (11 R474, R476). -/
theorem targetEval_pw {s : State} {cl : Fin 16} (h : stopped s = false) :
    ((targetEval s cl).pw cl).target = BitVec.ofNat 6 (clipCode s cl (rawTarget s cl)) ∧ ((targetEval s cl).pw cl).code = (s.pw cl).code ∧
      ((targetEval s cl).pw cl).volt = (s.pw cl).volt ∧
      ((targetEval s cl).pw cl).clipped = decide (clipCode s cl (rawTarget s cl) < rawTarget s cl) := by
  unfold targetEval
  rw [if_neg (by simp [h])]
  obtain ⟨htarget, hcode, hvolt, hclip⟩ := tryVoltStep_pw
    (s.setPw cl { s.pw cl with target := BitVec.ofNat 6 (clipCode s cl (rawTarget s cl))
                               clipped := decide (clipCode s cl (rawTarget s cl) < rawTarget s cl) }) cl
  rw [htarget, hcode, hvolt, hclip]
  simp

theorem targetEval_keeps' (s : State) (cl : Fin 16) : Keeps [.clusters] s (targetEval s cl) := targetEval_keeps _ (by decide) (Keeps.refl _ s)

theorem min_lt_self (c l : Nat) : decide (min c l < c) = decide (l < c) := by
  rw [decide_eq_decide]
  omega

/-- Sixteen stretched cycles: the stretch as it is to be, and the counter; a deep droop is an error and no more (11 R477). -/
theorem stretchCycles_pw {s : State} {cl : Fin 16} (b : Bool) (h : (s.pw cl).stretch ≠ 0) :
    ((stretchCycles s cl b).pw cl).stretch = (if b then (s.pw cl).stretch - 1 else (s.pw cl).stretch) ∧
      ((stretchCycles s cl b).pw cl).code = (s.pw cl).code ∧ ((stretchCycles s cl b).pw cl).volt = (s.pw cl).volt ∧
      preg (stretchCycles s cl b) (.cl cl) 0x318 = satAdd (preg s (.cl cl) 0x318) 16 := by
  have hcount : ∀ (u : State) (n : Nat), (cntPreg u (.cl cl) 0x318 n).pw cl = u.pw cl := fun u n => rfl
  have herr : ∀ u : State, (raiseErr u (.cl cl) 8).pw cl = u.pw cl := fun u =>
    (raiseErr_keeps (P := [.page .cl]) _ _ _ (by simp [classOf]) (Keeps.refl _ u)).pw (by decide) cl
  unfold stretchCycles
  simp only
  rw [if_neg h]
  split_ifs <;> simp [herr, hcount]

/-- Settles O46: a target is what `targetEval` makes of it, and each event changes one field of the loop. -/
theorem powerLoop : Obligations.PowerLoop := by
  refine ⟨?off, ?boost, ?fixed, ?stopped, ?volt, ?down, ?up, ?wait, ?fault, ?droop, ?relax⟩
  case off =>
    intro s cl hs hen
    obtain ⟨htarget, hcode, hvolt, -⟩ := targetEval_pw (cl := cl) hs
    refine ⟨targetEval s cl, rfl, targetEval_keeps' s cl, ?_, hcode, hvolt⟩
    rw [htarget]
    simp [rawTarget, clipCode, hen, State.pw]
  case boost =>
    intro s cl hs hen hf hfix hheavy
    obtain ⟨htarget, -, -, hclip⟩ := targetEval_pw (cl := cl) hs
    refine ⟨targetEval s cl, rfl, targetEval_keeps' s cl, ?_, ?_⟩
    · rw [htarget]
      simp [rawTarget, clipCode, hen, hf, hfix, hheavy, State.pw]
    · rw [hclip]
      simp only [clipCode, rawTarget, hen, hf, hfix, hheavy, State.pw, Bool.true_or, if_true, Bool.false_eq_true, or_self, if_false,
        Bool.true_eq_false]
      exact min_lt_self _ _
  case fixed =>
    intro s cl hs hen hf hfix
    obtain ⟨htarget, -⟩ := targetEval_pw (cl := cl) hs
    refine ⟨targetEval s cl, rfl, targetEval_keeps' s cl, htarget.trans ?_⟩
    simp [rawTarget, clipCode, hen, hf, hfix, State.pw]
  case stopped =>
    intro s cl hs
    exact ⟨s, congrArg Host.Outcome.next (if_pos hs), Keeps.refl _ s, rfl⟩
  case volt =>
    intro s cl up hstep
    obtain ⟨-, hcode, hvolt, -⟩ := tryVoltStep_pw
      (s.setPw cl { s.pw cl with volt := (if up then (s.pw cl).volt + 1 else (s.pw cl).volt - 1), stepping := none }) cl
    refine ⟨tryVoltStep (s.setPw cl { s.pw cl with volt := (if up then (s.pw cl).volt + 1 else (s.pw cl).volt - 1), stepping := none }) cl,
      congrArg Host.Outcome.next ?_, tryVoltStep_keeps _ (by decide) (setPw_keeps' s cl _), hvolt.trans ?_, hcode.trans ?_⟩
    · simp only [hstep]
    · simp
    · simp
  case down =>
    intro s cl hs hlt
    refine ⟨s.setPw cl { s.pw cl with code := (s.pw cl).code - 1 }, congrArg Host.Outcome.next ?_, setPw_keeps' s cl _, by simp, by simp⟩
    simp [hs, hlt]
  case up =>
    intro s cl hs hlt hpoint hstretch
    refine ⟨s.setPw cl { s.pw cl with code := (s.pw cl).code + 1 }, congrArg Host.Outcome.next ?_, setPw_keeps' s cl _, by simp, by simp⟩
    simp [hs, hlt, hpoint, hstretch, Nat.not_lt.2 hlt.le]
  case wait =>
    intro s cl hlt hpoint
    refine ⟨s, congrArg Host.Outcome.next ?_, Keeps.refl _ s, rfl⟩
    simp [Nat.not_lt.2 hlt.le, Nat.not_le.2 hpoint]
  case fault =>
    intro s cl hstep
    have hkeeps : Keeps [.page .cl] s (raiseErr s (.cl cl) 11) := raiseErr_keeps _ _ _ (by simp [classOf]) (Keeps.refl _ s)
    refine ⟨_, congrArg Host.Outcome.next (if_pos hstep), hkeeps, ?_, hkeeps.pw (by decide) cl⟩
    exact raiseErr_bit _ _ _ (by omega)
  case droop =>
    intro s cl
    exact ⟨_, rfl, setPw_keeps' s cl _, by simp⟩
  case relax =>
    intro s cl b hstretch
    exact ⟨_, rfl, stretchCycles_keeps _ _ (by decide) (Keeps.refl _ s), stretchCycles_pw b hstretch⟩

/-! ## Limits by power and by temperature -/

/-- One change of every cluster's loop. -/
theorem foldl_setPw (g : Power → Power) (l : List (Fin 16)) (hl : l.Nodup) (s : State) (c : Fin 16) :
    (l.foldl (fun t cl => t.setPw cl (g (t.pw cl))) s).pw c = if c ∈ l then g (s.pw c) else s.pw c := by
  induction l generalizing s with
  | nil => rfl
  | cons a l ih =>
    rw [List.nodup_cons] at hl
    rw [List.foldl_cons, ih hl.2, setPw_pw]
    by_cases hca : c = a
    · subst hca
      simp [hl.1]
    · simp [hca]

theorem lowerLimits_pwrLim (s : State) (cl : Fin 16) :
    ((lowerLimits s).pw cl).pwrLim = BitVec.ofNat 6 ((s.pw cl).pwrLim.toNat - 1) := by
  have herr : (raiseErr s .al 0).pw cl = s.pw cl :=
    (raiseErr_keeps (P := [.page .al]) _ _ _ (by decide) (Keeps.refl _ s)).pw (by decide) cl
  unfold lowerLimits
  simp only
  rw [foldl_setPw (fun p => { p with pwrLim := BitVec.ofNat 6 (p.pwrLim.toNat - 1) }) _ (List.nodup_finRange 16), if_pos (List.mem_finRange cl)]
  split_ifs <;> simp [herr]

theorem raiseLimits_pwrLim (s : State) (cl : Fin 16) :
    ((raiseLimits s).pw cl).pwrLim = BitVec.ofNat 6 (min 50 ((s.pw cl).pwrLim.toNat + 1)) := by
  unfold raiseLimits
  rw [foldl_setPw (fun p => { p with pwrLim := BitVec.ofNat 6 (min 50 (p.pwrLim.toNat + 1)) }) _ (List.nodup_finRange 16),
    if_pos (List.mem_finRange cl)]

theorem lowerLimits_keeps' (s : State) : Keeps [.page .al, .clusters] s (lowerLimits s) := lowerLimits_keeps (by decide) (Keeps.refl _ s)

theorem raiseLimits_keeps' (s : State) : Keeps [.clusters] s (raiseLimits s) := raiseLimits_keeps (by decide) (Keeps.refl _ s)

/-- Lowering the limits touches no register of the AL page but those of errors. -/
theorem preg_lowerLimits (s : State) {k : Nat} (hk : k < 0x1000) (h : errReg k = false) : preg (lowerLimits s) .al k = preg s .al k := by
  have hfold : ∀ u : State, preg ((List.finRange 16).foldl (fun t cl => t.setPw cl { t.pw cl with
      pwrLim := BitVec.ofNat 6 ((t.pw cl).pwrLim.toNat - 1) }) u) .al k = preg u .al k := fun u =>
    List.foldlRecOn (motive := fun t => preg t .al k = preg u .al k) _ _ rfl fun t ht cl _ => ht
  unfold lowerLimits
  simp only
  rw [hfold]
  split_ifs
  · exact preg_raiseErr _ _ _ hk (fun _ => h) (by simp)
  · rfl

/-- A state with a sample of the module's power in it (11 R476; 14 R590). -/
abbrev sampled (s : State) (w : BitVec 11) (vin : W16) : State :=
  { setPreg (normal s 13) .al 0x104 (BitVec.ofNat 32 w.toNat) with
    mod := { (normal s 13).mod with mbPower := BitVec.ofNat 32 (vin.toNat + w.toNat * 65536) } }

theorem powerSample_eq (s : State) (w : BitVec 11) (vin : W16) :
    powerSample (normal s 13) w.toNat vin.toNat =
      if bit (preg s .al 0x10) 1 = true ∨ fld (preg s .al 0x100) 0 11 < w.toNat then lowerLimits (sampled s w vin)
      else if w.toNat * 100 < fld (preg s .al 0x100) 0 11 * 95 then raiseLimits (sampled s w vin) else sampled s w vin := by
  have hw : w.toNat % 2048 = w.toNat := Nat.mod_eq_of_lt w.isLt
  have hv : vin.toNat % 65536 = vin.toNat := Nat.mod_eq_of_lt vin.isLt
  have hal : ∀ k, k < 0x1000 → k ≠ 0x104 → preg (setPreg (normal s 13) .al 0x104 (BitVec.ofNat 32 w.toNat)) .al k = preg s .al k := fun k hk h => by
    rw [preg_set _ _ (by omega) hk, if_neg (fun e => h e.2)]
    rfl
  unfold powerSample
  simp only [hw, hv, preg_update, hal 0x100 (by omega) (by omega), hal 0x10 (by omega) (by omega)]
  rfl

theorem sampled_keeps (s : State) (w : BitVec 11) (vin : W16) : Keeps [.page .al, .mod] s (sampled s w vin) :=
  put_mod_keeps _ (by decide) (setPreg_keeps _ _ _ (by omega) (by decide) (normal_keeps _ (by decide) (Keeps.refl _ s)))

theorem sampled_pw (s : State) (w : BitVec 11) (vin : W16) (cl : Fin 16) : (sampled s w vin).pw cl = s.pw cl :=
  (sampled_keeps s w vin).pw (by decide) cl

theorem preg_sampled (s : State) (w : BitVec 11) (vin : W16) : preg (sampled s w vin) .al 0x104 = BitVec.ofNat 32 w.toNat := by simp

/-- An onset clears no bit of ERR_STAT: it may set the wiring bit (14 R595). -/
theorem onset_bit {s : State} (conn cond : Nat) (report : Bool) {b : Nat} (h : bit (preg s .al 0x10) b = true) :
    bit (preg (onset s conn cond report) .al 0x10) b = true := by
  unfold onset
  extract_lets
  split_ifs
  · exact h
  · rw [preg_raiseErr_stat, bit_or, Bool.or_eq_true]
    exact .inl h
  · exact h

@[simp] theorem setPreg_pw (s : State) (p : Page) (o : Nat) (v : W32) (cl : Fin 16) : (setPreg s p o v).pw cl = s.pw cl := rfl

theorem alPwrLim_plain : PlainReg .al 0x100 (r 0x100 0x4E2 [f 0 11 .rw]) := {}

theorem alGuard_plain : PlainReg .al 0x114 (r 0x114 0x1E [fr 0 7 .rw 10 100]) := {}

theorem alDroop_plain : PlainReg .al 0x118 (r 0x118 0x14 [fr 0 7 .rw 5 90]) := {}

/-- Settles O47: a sample lowers or raises the limits of all clusters by one code; a limit out of its range is not taken. -/
theorem powerLimits : Obligations.PowerLimits := by
  refine ⟨?overLimit, ?under, ?within, ?sense, ?hot, ?cool, ?trip, ?limit, ?limitBad, ?guard, ?droop, ?droopBad⟩
  case overLimit =>
    intro s w vin hover
    refine ⟨lowerLimits (sampled s w vin), congrArg Host.Outcome.next ((powerSample_eq s w vin).trans (if_pos hover)), ?_, fun cl => ?_, ?_, ?_⟩
    · exact ((sampled_keeps s w vin).mono (by decide)).trans ((lowerLimits_keeps' _).mono (by decide))
    · rw [lowerLimits_pwrLim, sampled_pw]
    · rw [preg_lowerLimits _ (by omega) rfl, preg_sampled]
    · exact congrArg Module.mbPower ((lowerLimits_keeps' (sampled s w vin)) .mod (by decide))
  case under =>
    intro s w vin hsense hlow
    refine ⟨raiseLimits (sampled s w vin), congrArg Host.Outcome.next ((powerSample_eq s w vin).trans ?_), ?_, fun cl => ?_, ?_⟩
    · rw [if_neg (fun e => e.elim (by simp [hsense]) (by omega)), if_pos hlow]
    · exact ((sampled_keeps s w vin).mono (by decide)).trans ((raiseLimits_keeps' _).mono (by decide))
    · rw [raiseLimits_pwrLim, sampled_pw]
    · rw [(raiseLimits_keeps' (sampled s w vin)).preg (by decide) (by omega) (by simp) (by simp), preg_sampled]
  case within =>
    intro s w vin hsense hle hge
    refine ⟨sampled s w vin, congrArg Host.Outcome.next ((powerSample_eq s w vin).trans ?_), sampled_keeps s w vin, preg_sampled s w vin⟩
    rw [if_neg (fun e => e.elim (by simp [hsense]) (by omega)), if_neg (by omega)]
  case sense =>
    intro s wire
    have hlower : Keeps [.page .al, .clusters, .mod] s (raiseErr (lowerLimits s) .al 1) :=
      raiseErr_keeps _ _ _ (by decide) ((lowerLimits_keeps' s).mono (by decide))
    have hpw : ∀ cl, ((raiseErr (lowerLimits s) .al 1).pw cl).pwrLim = BitVec.ofNat 6 ((s.pw cl).pwrLim.toNat - 1) := fun cl => by
      rw [(raiseErr_keeps (P := [.page .al]) _ _ _ (by decide) (Keeps.refl _ (lowerLimits s))).pw (by decide), lowerLimits_pwrLim]
    have hbit : bit (preg (raiseErr (lowerLimits s) .al 1) .al 0x10) 1 = true := by
      exact raiseErr_bit _ _ _ (by omega)
    cases wire with
    | none => exact ⟨_, rfl, hlower, hpw, hbit⟩
    | some range =>
      refine ⟨_, rfl, onset_keeps _ _ _ (by decide) hlower, fun cl => ?_, onset_bit _ _ _ hbit⟩
      rw [(onset_keeps (P := [.page .al, .mod]) _ _ _ (by decide) (Keeps.refl _ (raiseErr (lowerLimits s) .al 1))).pw (by decide), hpw]
  case hot =>
    intro s cl c hover
    have hmod : c.toNat % 256 = c.toNat := Nat.mod_eq_of_lt c.isLt
    refine ⟨raiseErr ((setPreg s (.cl cl) 0x320 (c.setWidth 32)).setPw cl { s.pw cl with tjLim := BitVec.ofNat 6 ((s.pw cl).tjLim.toNat - 1) })
      (.cl cl) 10, congrArg Host.Outcome.next ?_, ?_, ?_, ?_, ?_⟩
    · simp [tjSample, hover, hmod, setPreg_pw]
    · exact raiseErr_keeps _ _ _ (by simp [classOf]) (State.setPw_keeps _ _ (by decide) (setPreg_keeps _ _ _ (by omega) (by simp [classOf])
        (Keeps.refl _ s)))
    · rw [(raiseErr_keeps (P := [.page .cl]) _ _ _ (by simp [classOf]) (Keeps.refl _ _)).pw (by decide)]
      simp
    · simp
    · exact raiseErr_bit _ _ _ (by omega)
  case cool =>
    intro s cl c hlow
    have hmod : c.toNat % 256 = c.toNat := Nat.mod_eq_of_lt c.isLt
    refine ⟨(setPreg s (.cl cl) 0x320 (c.setWidth 32)).setPw cl { s.pw cl with tjLim := BitVec.ofNat 6 (min 50 ((s.pw cl).tjLim.toNat + 1)) },
      congrArg Host.Outcome.next ?_, ?_, by simp, by simp⟩
    · have hnot : ¬fld (preg s .al 0x108) 0 8 < c.toNat := by omega
      simp [tjSample, hnot, hlow, hmod, setPreg_pw]
    · exact State.setPw_keeps _ _ (by decide) (setPreg_keeps _ _ _ (by omega) (by simp [classOf]) (Keeps.refl _ s))
  case trip =>
    intro s
    refine ⟨raiseErr s .al 2, rfl, raiseErr_keeps _ _ _ (by decide) (Keeps.refl _ s), ?_⟩
    exact raiseErr_bit _ _ _ (by omega)
  case limit =>
    intro s v hu hleast hmost
    refine ⟨(pageWrite s .al 0x100 v).st, congrArg Host.Outcome.next (if_neg (by omega)), ?_, ?_⟩
    · exact pageWrite_keeps_plain alPwrLim_plain hu _ _ (by decide) (Keeps.refl _ s)
    · exact fld_pageWrite alPwrLim_plain hu (f 0 11 .rw) rfl rfl ⟨.inl rfl, Nat.zero_le _, Nat.le_sub_one_of_lt (fld_lt v 0 11), by decide⟩
  case limitBad =>
    intro s v hu hout
    refine ⟨raiseErr s .al 6 0x100, congrArg Host.Outcome.next (if_pos ⟨hu, hout⟩), raiseErr_keeps _ _ _ (by decide) (Keeps.refl _ s), by simp, ?_⟩
    exact raiseErr_bit _ _ _ (by omega)
  case guard =>
    intro s v hu hbelow hleast hmost
    refine ⟨(pageWrite s .al 0x114 v).st, congrArg Host.Outcome.next (if_neg (by simpa using fun _ => hbelow)), ?_, ?_⟩
    · exact pageWrite_keeps_plain alGuard_plain hu _ _ (by decide) (Keeps.refl _ s)
    · exact fld_pageWrite alGuard_plain hu (fr 0 7 .rw 10 100) rfl rfl ⟨.inl rfl, hleast, hmost, by decide⟩
  case droop =>
    intro s v hu hbelow hleast hmost
    refine ⟨(pageWrite s .al 0x118 v).st, congrArg Host.Outcome.next (if_neg (by simpa using fun _ => hbelow)), ?_, ?_⟩
    · exact pageWrite_keeps_plain alDroop_plain hu _ _ (by decide) (Keeps.refl _ s)
    · exact fld_pageWrite alDroop_plain hu (fr 0 7 .rw 5 90) rfl rfl ⟨.inl rfl, hleast, hmost, by decide⟩
  case droopBad =>
    intro s v hu hover
    refine ⟨raiseErr s .al 6 0x118, congrArg Host.Outcome.next (if_pos ⟨hu, by simpa using hover⟩),
      raiseErr_keeps _ _ _ (by decide) (Keeps.refl _ s), by simp, ?_⟩
    exact raiseErr_bit _ _ _ (by omega)

end Sys2Proof
end

section
/-! PROOFS. Lane equalisation and the scrub loop (11 R479 to R482, R496, R503). -/

namespace Sys2Proof

open Sys2Proof.Machine

/-! ## Sparse stores of lanes -/

/-- The entry of a key after it was put. -/
theorem slook_sput_same {α : Type} (k : Nat) (v : α) (m : Sparse α) : slook (sput k v m) k = some v := by
  induction m with
  | nil => simp [sput, slook]
  | cons e m ih =>
    unfold sput
    split_ifs with hlt heq
    · simp [slook]
    · simp [slook]
    · simp [slook, heq, ih]

/-- The entry of another key is the same. -/
theorem slook_sput_other {α : Type} {j k : Nat} (v : α) (m : Sparse α) (h : j ≠ k) : slook (sput k v m) j = slook m j := by
  induction m with
  | nil => simp [sput, slook, h.symm]
  | cons e m ih =>
    unfold sput
    split_ifs with hlt heq
    · simp [slook, h.symm]
    · simp [slook, h.symm, heq]
    · simp [slook, ih]

/-- A lane's entry after one entry was put. -/
theorem eqOf_put (s : State) (k : Nat) (e : Eq) : ({ s with eqs := sput k e s.eqs } : State).eqOf k = e := by
  unfold State.eqOf
  rw [slook_sput_same]
  rfl

theorem Keeps.eqOf {P : List Part} {s t : State} (h : Keeps P s t) (hc : Part.eqs ∉ P) (k : Nat) : t.eqOf k = s.eqOf k := by
  unfold State.eqOf
  rw [h .eqs hc]

/-- What an update asks of a lane that is neither busy nor pinned (11 R479). -/
abbrev eqMoved (s : State) (k : Nat) (c : BitVec 5) (p : BitVec 7) (g : Byte) : Eq :=
  { s.eqOf k with
    margin := g
    ctle := ofInt 5 (towards ((s.eqOf k).ctle.toNat : Int) (within 0 (fld (preg s .al 0x130) 0 5 : Int) (c.toNat : Int)))
    tap := ofInt 7 (towards (sgn 7 (s.eqOf k).tap.toNat) (within (-(fld (preg s .al 0x130) 8 6 : Int)) (fld (preg s .al 0x130) 8 6 : Int)
      (sgn 7 p.toNat))) }

/-- The report of a margin that falls below its limit (11 R480). -/
abbrev eqReport (s t : State) (k : Nat) (g : Byte) : State :=
  if g.toNat < fld (preg s .al 0x134) 0 8 ∧ ((slook s.eqs k).isNone = true ∨ fld (preg s .al 0x134) 0 8 ≤ (s.eqOf k).margin.toNat) then
    raiseErr t .al 3 k
  else t

theorem eqReport_keeps (s t : State) (k : Nat) (g : Byte) : Keeps [.page .al] t (eqReport s t k g) :=
  keeps_ite (fun _ => raiseErr_keeps _ _ _ (by decide) (Keeps.refl _ t)) (fun _ => Keeps.refl _ t)

/-- A busy lane keeps its settings: only the margin is taken (11 R479). -/
theorem eqUpdate_busy {s : State} {link lane : Nat} (c t : Int) (g : Byte) {busy : Bool}
    (h : slotOpen s link = true ∨ (link = 8 ∧ (busy = true ∨ s.cxl.link = .recovery))) :
    eqUpdate s link lane c t g.toNat busy =
      eqReport s { s with eqs := sput (eqKey link lane) { s.eqOf (eqKey link lane) with margin := g } s.eqs } (eqKey link lane) g := by
  have hb : (slotOpen s link || (decide (link = 8) && (busy || decide (s.cxl.link = .recovery)))) = true := by simpa using h
  simp only [eqUpdate, hb, if_true, Option.isSome_none, Bool.false_eq_true, false_and, if_false, BitVec.ofNat_toNat, BitVec.setWidth_eq]

/-- A free lane of a crossing port moves towards what is asked (11 R479). -/
theorem eqUpdate_free {s : State} {link lane : Nat} (c : BitVec 5) (p : BitVec 7) (g : Byte) (busy : Bool) (hl : link < 8)
    (ho : slotOpen s link = false) (hp : eqPinned s link = false) :
    eqUpdate s link lane (c.toNat : Int) (sgn 7 p.toNat) g.toNat busy =
      eqReport s (({ s with eqs := sput (eqKey link lane) (eqMoved s (eqKey link lane) c p g) s.eqs } : State).setPort (fin 8 link)
        { s.port (fin 8 link) with eqDone := true }) (eqKey link lane) g := by
  have hn : decide (link = 8) = false := by simp; omega
  simp only [eqUpdate, ho, hn, hp, hl, Bool.false_and, Bool.or_self, Bool.false_eq_true, if_false, Option.isSome_some, true_and, if_true,
    BitVec.ofNat_toNat, BitVec.setWidth_eq]
  rfl

/-! ## The scrub loop -/

/-- A stack's scrub after a window: what `scrubWindowOf` makes of it (11 R481). -/
def scrubAfter (s : State) (n : Fin 8) : Scrub :=
  let b := s.scrubs.get n
  let ce := b.ce.toNat
  let low := if ce < (preg s .al 0x158).toNat then b.low + 1 else 0
  let p := if enabled s .al = false then fld (preg s .al 0x14C) 0 24
    else if bit (preg s .al 0x140) 0 then fld (preg s .al 0x150) 0 24
    else if (preg s .al 0x154).toNat < ce then b.pass.toNat / 2
    else if 8 ≤ low then b.pass.toNat * 2
    else b.pass.toNat
  { b with pass := BitVec.ofNat 24 (clampPass s p), ce := 0, low := if 8 ≤ low then 0 else low }

theorem scrubWindowOf_eq (s : State) (n : Fin 8) :
    scrubWindowOf s n =
      if (preg s .al 0x15C).toNat < (s.scrubs.get n).ce.toNat then raiseErr { s with scrubs := s.scrubs.set n (scrubAfter s n) } .al 5 n.val
      else { s with scrubs := s.scrubs.set n (scrubAfter s n) } := rfl

theorem scrubWindowOf_scrubs (s : State) (n m : Fin 8) :
    (scrubWindowOf s n).scrubs.get m = if m = n then scrubAfter s n else s.scrubs.get m := by
  have hset : (s.scrubs.set n (scrubAfter s n)).get m = if m = n then scrubAfter s n else s.scrubs.get m := by
    split_ifs with h
    · subst h
      exact Vector.getElem_set_self ..
    · exact Vector.getElem_set_ne n.isLt m.isLt fun e => h (Fin.ext e.symm)
  rw [scrubWindowOf_eq]
  rw [← hset]
  by_cases hmany : (preg s .al 0x15C).toNat < (s.scrubs.get n).ce.toNat
  · rw [if_pos hmany, raiseErr_scrubs]
  · rw [if_neg hmany]

/-- A window of one stack leaves the registers that the loop reads. -/
theorem preg_scrubWindowOf (s : State) (n : Fin 8) {k : Nat} (hk : k < 0x1000) (h : errReg k = false) :
    preg (scrubWindowOf s n) .al k = preg s .al k := by
  rw [scrubWindowOf_eq]
  split_ifs
  · exact preg_raiseErr _ _ _ hk (fun _ => h) (by simp)
  · rfl

theorem scrubAfter_congr {s t : State} {n : Fin 8} (hs : t.scrubs.get n = s.scrubs.get n)
    (hr : ∀ k, k < 0x1000 → errReg k = false → preg t .al k = preg s .al k) : scrubAfter t n = scrubAfter s n := by
  unfold scrubAfter clampPass enabled
  rw [hs, hr 0x158 (by omega) rfl, hr 0x14C (by omega) rfl, hr 0x140 (by omega) rfl, hr 0x150 (by omega) rfl, hr 0x154 (by omega) rfl,
    hr 0x148 (by omega) rfl, hr 8 (by omega) rfl]

/-- An error of the scrub loop, once raised, stands. -/
theorem scrubWindowOf_bit {s : State} {n : Fin 8} (h : bit (preg s .al 0x10) 5 = true) : bit (preg (scrubWindowOf s n) .al 0x10) 5 = true := by
  rw [scrubWindowOf_eq]
  split_ifs
  · exact raiseErr_bit _ _ _ (by omega)
  · exact h

/-- After all windows of a list of stacks a stack of the list is as its own window leaves it, and too many errors are reported. -/
theorem foldl_scrubWindowOf {l : List (Fin 8)} (hl : l.Nodup) {n : Fin 8} (hn : n ∈ l) (s : State) :
    (l.foldl scrubWindowOf s).scrubs.get n = scrubAfter s n ∧
      ((preg s .al 0x15C).toNat < (s.scrubs.get n).ce.toNat → bit (preg (l.foldl scrubWindowOf s) .al 0x10) 5 = true) := by
  induction l generalizing s with
  | nil => cases hn
  | cons a l ih =>
    rw [List.nodup_cons] at hl
    obtain ⟨ha, hl⟩ := hl
    rw [List.foldl_cons]
    by_cases hna : n = a
    · subst hna
      constructor
      · refine List.foldlRecOn (motive := fun t : State => t.scrubs.get n = scrubAfter s n) _ _ ?_ fun t ht j hj => ?_
        · rw [scrubWindowOf_scrubs, if_pos rfl]
        · rw [scrubWindowOf_scrubs, if_neg (fun e : n = j => ha (e ▸ hj)), ht]
      · intro hmany
        refine List.foldlRecOn (motive := fun t : State => bit (preg t .al 0x10) 5 = true) _ _ ?_ fun t ht j _ => scrubWindowOf_bit ht
        rw [scrubWindowOf_eq, if_pos hmany]
        exact raiseErr_bit _ _ _ (by omega)
    · have hsame : (scrubWindowOf s a).scrubs.get n = s.scrubs.get n := by rw [scrubWindowOf_scrubs, if_neg hna]
      obtain ⟨hafter, hbit⟩ := ih hl ((List.mem_cons.mp hn).resolve_left hna) (scrubWindowOf s a)
      rw [scrubAfter_congr hsame (fun k hk h => preg_scrubWindowOf s a hk h)] at hafter
      rw [hsame, preg_scrubWindowOf s a (by omega) rfl] at hbit
      exact ⟨hafter, hbit⟩

theorem scrubWindow_runs (s : State) (n : Fin 8) :
    Runs .scrubWindow s [.page .al, .scrubs] fun t =>
      t.scrubs.get n = scrubAfter s n ∧ ((preg s .al 0x15C).toNat < (s.scrubs.get n).ce.toNat → bit (preg t .al 0x10) 5 = true) :=
  ⟨_, rfl, nextKeeps_eq (execScrubWindow_keeps (by decide) (Keeps.refl _ s)) rfl,
    foldl_scrubWindowOf (List.nodup_finRange 8) (List.mem_finRange n) s⟩

theorem Runs.imp {c : Instr} {s : State} {P : List Part} {E F : State → Prop} (h : Runs c s P E) (hEF : ∀ t, E t → F t) : Runs c s P F :=
  let ⟨t, he, hk, hE⟩ := h
  ⟨t, he, hk, hEF t hE⟩

theorem scrubPassMin_plain : PlainReg .al 0x148 (r 0x148 0xE10 [f 0 24 .rw]) := {}

/-- Settles O48: a lane moves one code at most; a stack's window is `scrubAfter`, whatever the other stacks do. -/
theorem equalisationAndScrub : Obligations.EqualisationAndScrub := by
  refine ⟨?busy, ?free, ?starved, ?high, ?low, ?off, ?minBad, ?min⟩
  case busy =>
    intro s link lane c p g b hen hlane hbusy
    have hexec : execEqUpdate link lane c p g b s = .next (eqUpdate s link.val lane.val (c.toNat : Int) (sgn 7 p.toNat) g.toNat b) :=
      congrArg Host.Outcome.next (if_neg (by simp [hen]; omega))
    have he := eqOf_put s (eqKey link.val lane.val) { s.eqOf (eqKey link.val lane.val) with margin := g }
    refine ⟨_, hexec, eqUpdate_keeps _ _ _ _ _ _ (by decide) (Keeps.refl _ s), ?_⟩
    beta_reduce
    rw [eqUpdate_busy _ _ g hbusy, (eqReport_keeps _ _ _ _).eqOf (by decide), he]
    exact ⟨rfl, rfl, rfl⟩
  case free =>
    intro s link lane c p g b hen hlink hlane hopen hpin
    have hexec : execEqUpdate link lane c p g b s = .next (eqUpdate s link.val lane.val (c.toNat : Int) (sgn 7 p.toNat) g.toNat b) :=
      congrArg Host.Outcome.next (if_neg (by simp [hen]; omega))
    have he := eqOf_put s (eqKey link.val lane.val) (eqMoved s (eqKey link.val lane.val) c p g)
    refine ⟨_, hexec, eqUpdate_keeps _ _ _ _ _ _ (by decide) (Keeps.refl _ s), ?_⟩
    beta_reduce
    rw [eqUpdate_free c p g b hlink hopen hpin]
    set t := ({ s with eqs := sput (eqKey link.val lane.val) (eqMoved s (eqKey link.val lane.val) c p g) s.eqs } : State).setPort
      (fin 8 link.val) { s.port (fin 8 link.val) with eqDone := true } with ht
    have hk := eqReport_keeps s t (eqKey link.val lane.val) g
    have hlane' : (eqReport s t (eqKey link.val lane.val) g).eqOf (eqKey link.val lane.val) = eqMoved s (eqKey link.val lane.val) c p g :=
      (hk.eqOf (by decide) _).trans he
    refine ⟨by rw [hlane'], by rw [hlane'], by rw [hlane'], ?_, ?_⟩
    · rw [hk.port (by decide), ht, setPort_port_same]
    · by_cases hlow : fld (preg s .al 0x134) 0 8 ≤ g.toNat
      · exact .inl hlow
      · by_cases hold : (s.eqOf (eqKey link.val lane.val)).margin.toNat < fld (preg s .al 0x134) 0 8
        · exact .inr (.inl hold)
        · refine .inr (.inr ?_)
          unfold eqReport
          rw [if_pos ⟨by omega, .inr (by omega)⟩]
          exact raiseErr_bit _ _ _ (by omega)
  case starved =>
    intro s n hle hpos
    exact ⟨_, congrArg Host.Outcome.next (if_pos ⟨hle, hpos⟩), raiseErr_keeps _ _ _ (by decide) (Keeps.refl _ s), raiseErr_bit _ _ _ (by omega)⟩
  case high =>
    intro s n hen hpin hmany
    refine (scrubWindow_runs s n).imp fun t ht => ?_
    obtain ⟨hafter, hbit⟩ := ht
    refine ⟨?_, by rw [hafter]; rfl, (le_or_gt _ _).imp_right hbit⟩
    rw [hafter]
    simp [scrubAfter, hen, hpin, hmany]
  case low =>
    intro s n hen hpin hfew hbounds hlow
    refine (scrubWindow_runs s n).imp fun t ht => ?_
    rw [ht.1]
    simp [scrubAfter, hen, hpin, hfew, hlow, Nat.not_lt.2 (by omega : (s.scrubs.get n).ce.toNat ≤ (preg s .al 0x154).toNat)]
  case off =>
    intro s n hen
    refine (scrubWindow_runs s n).imp fun t ht => ?_
    rw [ht.1]
    simp [scrubAfter, hen]
  case minBad =>
    intro s v hu hover
    exact ⟨raiseErr s .al 6 0x148, congrArg Host.Outcome.next (if_pos ⟨hu, hover⟩), raiseErr_keeps _ _ _ (by decide) (Keeps.refl _ s), by simp,
      raiseErr_bit _ _ _ (by omega)⟩
  case min =>
    intro s v hu hle
    refine ⟨(pageWrite s .al 0x148 v).st, congrArg Host.Outcome.next (if_neg (by omega)), ?_, ?_⟩
    · exact pageWrite_keeps_plain scrubPassMin_plain hu _ _ (by decide) (Keeps.refl _ s)
    · exact fld_pageWrite scrubPassMin_plain hu (f 0 24 .rw) rfl rfl ⟨.inl rfl, Nat.zero_le _, Nat.le_sub_one_of_lt (fld_lt v 0 24), by decide⟩

end Sys2Proof
end

section
/-! PROOFS. Writing CTRL of a page: what a write that starts no reset comes to (03 R83, R85). -/

namespace Sys2Proof

open Sys2Proof.Machine

theorem ctrl_plain {p : Page} (h : ctrlRow p = ctrlFull) : PlainReg p 8 ctrlFull where
  row_eq := by rw [← h]; rfl
  unpaired := fun lo _ e => by cases e; rfl
  noCross := fun old v a => by cases p <;> rfl

section
variable {s : State} {p : Page} {v : W32}

/-- CTRL as a write leaves it before the unit acts: FENCE is still the old one. -/
def ctrlHeld (s : State) (p : Page) (v : W32) : State :=
  setPreg (pageWrite s p 8 v).st p 8 (setBit (preg (pageWrite s p 8 v).st p 8) 1 (fenced s p))

/-- What the unit does at a write of CTRL that starts no reset: fence, then enable. -/
def ctrlActs (s : State) (p : Page) (v : W32) : State :=
  if enabled s p = bit v 0 ∧ (bit v 0 = false ∨ pageCore p = none) then fenceAct (ctrlHeld s p v) p (fenced s p) (bit v 1)
  else enableAct (fenceAct (ctrlHeld s p v) p (fenced s p) (bit v 1)) p (bit v 0) false

/-- The word of a write that starts no reset. -/
theorem ctrl_written (h2 : bit v 2 = false) :
    written s p 8 ctrlFull v 0 = ⟨setFld (setFld (preg s p 8) 0 1 (fld v 0 1)) 1 1 (fld v 1 1), 0, 0⟩ := by
  unfold written
  simp only [ctrlFull, r, List.foldl_cons, List.foldl_nil, wrField_rw, wrField_go_zero _ _ _ h2]

theorem ctrlHeld_fenced : fenced (ctrlHeld s p v) p = fenced s p := by
  unfold fenced ctrlHeld
  rw [preg_set _ _ (by omega) (by omega), if_pos ⟨rfl, rfl⟩, bit_setBit_same _ _ (by omega)]
  rfl

section
variable (h : ctrlRow p = ctrlFull) (hu : Unlocked s p) (h2 : bit v 2 = false)
include h hu

/-- Before the unit acts: ENABLE is new, FENCE old, and the rest of the device as it was. -/
theorem ctrlHeld_enabled : enabled (ctrlHeld s p v) p = bit v 0 := by
  unfold enabled ctrlHeld
  rw [preg_set _ _ (by omega) (by omega), if_pos ⟨rfl, rfl⟩, bit_setBit_other _ _ (by omega),
    bit_pageWrite (ctrl_plain h) hu 0 (by decide) (by decide) (by omega)]

theorem preg_ctrlHeld {q : Page} {k : Nat} (hk : k < 0x1000) (hn : q = p → k ≠ 8 ∧ k ≠ 0x30 ∧ k ≠ 0x3C) (hm : q = .ep → k ≠ 0xA00) :
    preg (ctrlHeld s p v) q k = preg s q k := by
  unfold ctrlHeld
  rw [preg_set _ _ (by omega) hk, if_neg (fun e => (hn e.1).1 e.2), preg_pageWrite_other (ctrl_plain h) hu _ _ hk hn hm]

theorem ctrlHeld_keeps : Keeps [.page (classOf p)] s (ctrlHeld s p v) :=
  setPreg_keeps _ _ _ (by omega) (by simp) (pageWrite_keeps_plain (ctrl_plain h) hu _ _ (by simp) (Keeps.refl _ s))

include h2

/-- A write of CTRL that starts no reset does what `ctrlActs` says, and nothing else but what the boot and ALIVE make of it. -/
theorem ctrlWrite_acts : Keeps [.boot] (ctrlActs s p v) (ctrlWrite s p v) := by
  have hok : (pageWrite s p 8 v).ok = true := pageWrite_ok (ctrl_plain h) hu _ _
  have hrej : (pageWrite s p 8 v).rej = false := by
    rw [pageWrite_plain (ctrl_plain h) hu, ctrl_written h2]
    rfl
  have hgo : (pageWrite s p 8 v).started 2 = false := started_zero (ctrl_plain h) hu rfl (by omega) _ h2
  have hen : enabled (pageWrite s p 8 v).st p = bit v 0 := bit_pageWrite (ctrl_plain h) hu 0 (by decide) (by decide) (by omega)
  have hfen : fenced (pageWrite s p 8 v).st p = bit v 1 := bit_pageWrite (ctrl_plain h) hu 1 (by decide) (by decide) (by omega)
  have hacts : ∀ g : State → State, g s = ctrlActs s p v → Keeps [.boot] (ctrlActs s p v) (withAlive (withReady g) s) := fun g hg => by
    unfold withAlive withReady
    simp only [hg]
    exact keeps_ite (fun _ => readyLog_keeps (by decide) (Keeps.refl _ _)) (fun _ => emit_keeps _ (readyLog_keeps (by decide) (Keeps.refl _ _)))
  unfold ctrlWrite
  refine hacts _ ?_
  simp only [hok, hrej, hgo, hen, hfen, Bool.true_eq_false, if_false, Bool.false_eq_true]
  unfold ctrlActs ctrlHeld
  by_cases hcore : pageCore p = none <;> cases enabled s p <;> cases bit v 0 <;> simp [hcore]

end

end

end Sys2Proof
end

section
/-! PROOFS. The placement loop (11 R483 to R488, R495, R498 to R502). -/

namespace Sys2Proof

open Sys2Proof.Machine

/-! ## The map of places -/

theorem slook_serase_same {α : Type} (k : Nat) (m : Sparse α) : slook (serase k m) k = none := by
  induction m with
  | nil => rfl
  | cons e m ih =>
    unfold serase
    split_ifs with h
    · exact ih
    · simp [slook, h, ih]

theorem slook_serase_other {α : Type} {j k : Nat} (m : Sparse α) (h : j ≠ k) : slook (serase k m) j = slook m j := by
  induction m with
  | nil => rfl
  | cons e m ih =>
    unfold serase
    split_ifs with he
    · have hne : e.1 ≠ j := fun e' => h (e'.symm.trans he)
      simp [slook, hne, ih]
    · simp [slook, ih]

theorem slook_sset_other {α : Type} [DecidableEq α] (d : Nat → α) (m : Sparse α) {j k : Nat} (v : α) (h : j ≠ k) :
    slook (sset d m k v) j = slook m j := by
  unfold sset
  split_ifs
  · exact slook_serase_other m h
  · exact slook_sput_other v m h

/-- The place that a region has when none is listed (11 R483). -/
def homePlace (r : Nat) : BitVec 13 := BitVec.ofNat 13 (r % 8 * 1024 + r / 8)

/-- The place of a region in a map. -/
def placeIn (m : Sparse (BitVec 13)) (r : Nat) : Nat :=
  match slook m r with
  | some p => p.toNat
  | none => r % 8 * 1024 + r / 8

theorem placeIn_lt (m : Sparse (BitVec 13)) (r : BitVec 13) : placeIn m r.toNat < 8192 := by
  have := r.isLt
  unfold placeIn
  split
  · next p _ => exact p.isLt
  · omega

theorem placeIn_sset_same (m : Sparse (BitVec 13)) (r : BitVec 13) {p : Nat} (hp : p < 8192) :
    placeIn (sset homePlace m r.toNat (BitVec.ofNat 13 p)) r.toNat = p := by
  have hr := r.isLt
  unfold placeIn sset
  split_ifs with h
  · rw [slook_serase_same]
    have := congrArg BitVec.toNat h
    simp only [homePlace, BitVec.toNat_ofNat] at this
    simp only
    omega
  · rw [slook_sput_same]
    simp only [BitVec.toNat_ofNat]
    omega

theorem placeIn_sset_other (m : Sparse (BitVec 13)) {r j : Nat} (p : BitVec 13) (h : j ≠ r) : placeIn (sset homePlace m r p) j = placeIn m j := by
  unfold placeIn
  rw [slook_sset_other _ _ _ h]

theorem placeOf_eq (s : State) (r : Nat) : placeOf s r = placeIn s.pl.map r := rfl

/-- The map after a commit: the two regions have changed places (11 R486). -/
def swapped (m : Sparse (BitVec 13)) (a b : BitVec 13) : Sparse (BitVec 13) :=
  sset homePlace (sset homePlace m a.toNat (BitVec.ofNat 13 (placeIn m b.toNat))) b.toNat (BitVec.ofNat 13 (placeIn m a.toNat))

theorem swapped_right (m : Sparse (BitVec 13)) (a b : BitVec 13) : placeIn (swapped m a b) b.toNat = placeIn m a.toNat :=
  placeIn_sset_same _ b (placeIn_lt m a)

theorem swapped_left (m : Sparse (BitVec 13)) (a b : BitVec 13) : placeIn (swapped m a b) a.toNat = placeIn m b.toNat := by
  by_cases h : a = b
  · subst h
    exact swapped_right m a a
  · rw [swapped, placeIn_sset_other _ _ (fun e => h (BitVec.eq_of_toNat_eq e)), placeIn_sset_same _ a (placeIn_lt m b)]

theorem swapped_other (m : Sparse (BitVec 13)) (a b : BitVec 13) {r : Nat} (ha : r ≠ a.toNat) (hb : r ≠ b.toNat) :
    placeIn (swapped m a b) r = placeIn m r := by
  rw [swapped, placeIn_sset_other _ _ hb, placeIn_sset_other _ _ ha]

theorem plCommit_done {s : State} {a b : BitVec 13} (hcur : s.pl.cur = some (a, b)) (hrun : plMayRun s = true) (hprog : s.pl.prog = 1024) :
    plCommit s = logPlace (cntPreg (setPreg { s with pl := { s.pl with map := swapped s.pl.map a b, cur := none, prog := 0 } } .pl 0x128 1)
      .pl 0x12C 1) a.toNat b.toNat 1 := by
  unfold plCommit
  simp only [hcur, hrun, hprog]
  rfl

/-! ## Requests for a move -/

theorem plMove_plain : PlainReg .pl 0x11C (r 0x11C 0 [f 0 13 .rw, f 16 13 .rw, f 31 1 .go]) := {}

section
variable {s : State} {v : W32} (hs : Starts s .pl 0x11C 31 v)
include hs

theorem plMove_written : fld (preg (pageWrite s .pl 0x11C v).st .pl 0x11C) 0 13 = fld v 0 13 ∧
    fld (preg (pageWrite s .pl 0x11C v).st .pl 0x11C) 16 13 = fld v 16 13 :=
  ⟨fld_pageWrite plMove_plain hs.1 (f 0 13 .rw) rfl rfl ⟨.inl rfl, Nat.zero_le _, Nat.le_sub_one_of_lt (fld_lt v 0 13), by decide⟩,
    fld_pageWrite plMove_plain hs.1 (f 16 13 .rw) rfl rfl ⟨.inl rfl, Nat.zero_le _, Nat.le_sub_one_of_lt (fld_lt v 16 13), by decide⟩⟩

/-- What a request sees of the written state: the map, the fences and the swaps are those before the write. -/
theorem plMove_sees : (∀ n, stackOfRegion (pageWrite s .pl 0x11C v).st n = stackOfRegion s n) ∧
    (∀ n, stackFenced (pageWrite s .pl 0x11C v).st n = stackFenced s n) ∧ (pageWrite s .pl 0x11C v).st.pl = s.pl := by
  have hpl : (pageWrite s .pl 0x11C v).st.pl = s.pl := pageWrite_pl _ _ _ _ (by omega)
  refine ⟨fun n => ?_, fun n => ?_, hpl⟩
  · unfold stackOfRegion
    rw [placeOf_eq, hpl, placeOf_eq]
  · unfold stackFenced fenced
    rw [preg_pageWrite_other plMove_plain hs.1 _ _ (by omega) (by simp) (by simp)]

theorem execPlMove_eq : exec (.plMove v) s = .next (goDone (moveRequest (pageWrite s .pl 0x11C v).st) .pl 0x11C 31) :=
  congrArg Host.Outcome.next (pageWriteGo_starts plMove_plain rfl (by omega) _ hs)

theorem execPlMove_keeps' : Keeps [.page .pl, .pl] s (goDone (moveRequest (pageWrite s .pl 0x11C v).st) .pl 0x11C 31) :=
  goDone_keeps _ _ _ (by omega) (by decide) (moveRequest_keeps (by decide)
    (pageWrite_keeps_plain plMove_plain hs.1 _ _ (by decide) (Keeps.refl _ s)))

/-- A request that is rejected: its reason in PL_MOVE_STAT, MOVE_REJ, and the loop as it was. -/
theorem plMove_rejected {why addr : Nat} (h : moveRequest (pageWrite s .pl 0x11C v).st =
    raiseErr (setPreg (pageWrite s .pl 0x11C v).st .pl 0x128 (BitVec.ofNat 32 why)) .pl 0 addr) :
    Runs (.plMove v) s [.page .pl, .staged, .pl] fun t =>
      preg t .pl 0x128 = BitVec.ofNat 32 why ∧ bit (preg t .pl 0x10) 0 = true ∧ t.pl = s.pl := by
  refine ⟨_, execPlMove_eq hs, (execPlMove_keeps' hs).mono (by decide), ?_, ?_, ?_⟩
  · rw [h]
    simp
  · rw [h, preg_goDone _ (by omega) (by omega) (by simp) (by simp)]
    exact raiseErr_bit _ _ _ (by omega)
  · rw [h]
    simp

end

/-! ## Chunks and windows -/

@[simp] theorem logPlace_pl (s : State) (a b e : Nat) : (logPlace s a b e).pl = s.pl := offer_pl s _ _ _ _

@[simp] theorem preg_logPlace (s : State) (a b e : Nat) {q : Page} {k : Nat} (hk : k < 0x1000) (h : q = .lb → k ≠ 0x11C) :
    preg (logPlace s a b e) q k = preg s q k := preg_offer s _ _ _ _ hk h

/-- A chunk that ends in a swap whose stacks are whole: the progress, and nothing else (11 R485). -/
theorem chunkDone_whole {s : State} {a b : BitVec 13} (hc : s.pl.chunk = true) (hcur : s.pl.cur = some (a, b)) (hf : swapFenced s a b = false) :
    chunkDone s = { s with pl := { s.pl with chunk := false, prog := s.pl.prog + 1 } } := by
  unfold chunkDone plFenceCheck
  rw [if_pos hc]
  simp only [hcur]
  exact if_pos (.inr (.inr hf))

/-- A chunk that ends in a swap of which a stack is fenced: the swap is abandoned (11 R498). -/
theorem chunkDone_fenced {s : State} {a b : BitVec 13} (hc : s.pl.chunk = true) (ha : s.pl.abandoned = false) (hcur : s.pl.cur = some (a, b))
    (hf : swapFenced s a b = true) :
    chunkDone s = raiseErr (logPlace (setPreg { s with pl := { s.pl with chunk := false, prog := s.pl.prog + 1, abandoned := true } } .pl 0x128 6)
      a.toNat b.toNat 2) .pl 1 (a.toNat + b.toNat * 2 ^ 16) := by
  unfold chunkDone plFenceCheck
  rw [if_pos hc]
  simp only [hcur, ha]
  refine if_neg ?_
  rintro (h | h | h)
  · cases h
  · cases h
  · exact absurd (hf.symm.trans h) (by decide)

/-- What one element of a list brings about, and every element of it leaves, holds after all of them. -/
theorem foldl_reaches_mem {α : Type} {R : State → Prop} {g : State → α → State} {i : α} (hi : ∀ t, R (g t i)) {l : List α}
    (hk : ∀ t j, j ∈ l → R t → R (g t j)) (h : i ∈ l) (s : State) : R (l.foldl g s) := by
  induction l generalizing s with
  | nil => cases h
  | cons a l ih =>
    rcases List.mem_cons.mp h with rfl | h
    · exact List.foldlRecOn (motive := R) l g (hi s) fun t ht j hj => hk t j (List.mem_cons_of_mem _ hj) ht
    · exact ih (fun t j hj => hk t j (List.mem_cons_of_mem _ hj)) h (g s a)

/-- The heats that the end of a window records. -/
abbrev heatMap (heat : List (Nat × Nat)) : Sparse Nat := heat.foldl (fun (m : Sparse Nat) e => sset (fun _ => 0) m e.1 e.2) []

/-- A window's end before the loop's choice. -/
def windowClosed (s : State) (heat : List (Nat × Nat)) (ch : List Nat) : State :=
  (List.range 8).foldl (fun t n => setPreg t .pl (0x140 + 4 * n) (BitVec.ofNat 32 (nth ch n 0 % 2 ^ 24)))
    { s with pl := { s.pl with heat := heatMap heat, begun := 0, steps := 0 } }

theorem windowEnd_eq {s : State} (heat : List (Nat × Nat)) (ch : List Nat) (h : windowOver s = true) :
    windowEnd s heat ch =
      if bit (preg (windowClosed s heat ch) .pl 0x100) 16 = false ∨ stopped (windowClosed s heat ch) = true ∨
          (windowClosed s heat ch).pl.abandoned = true ∨ (windowClosed s heat ch).pl.queued.isSome then windowClosed s heat ch
      else match loopChoice (windowClosed s heat ch) ch with
        | some (a, b) => { windowClosed s heat ch with
            pl := { (windowClosed s heat ch).pl with queued := some (BitVec.ofNat 13 a, BitVec.ofNat 13 b, false) } }
        | none => windowClosed s heat ch := by
  unfold windowEnd
  rw [if_neg (by simp [h])]
  rfl

theorem preg_windowClosed (s : State) (heat : List (Nat × Nat)) (ch : List Nat) {q : Page} {k : Nat} (hk : k < 0x1000)
    (hn : q = .pl → k < 0x140) : preg (windowClosed s heat ch) q k = preg s q k := by
  refine List.foldlRecOn (motive := fun t => preg t q k = preg s q k) _ _ rfl fun t ht n hn' => ?_
  have hlt := List.mem_range.mp hn'
  rw [preg_set _ _ (by omega) hk, if_neg (fun e => by have := hn e.1; omega), ht]

theorem windowClosed_heat (s : State) (heat : List (Nat × Nat)) (ch : List Nat) (n : Fin 8) :
    preg (windowClosed s heat ch) .pl (0x140 + 4 * n.val) = BitVec.ofNat 32 (nth ch n.val 0 % 2 ^ 24) := by
  have hn := n.isLt
  refine foldl_reaches_mem (R := fun t => preg t .pl (0x140 + 4 * n.val) = BitVec.ofNat 32 (nth ch n.val 0 % 2 ^ 24)) (i := n.val) (fun t => ?_)
    (fun t j hj ht => ?_) (List.mem_range.mpr hn) _
  · rw [preg_setPreg_same]
  · have hlt := List.mem_range.mp hj
    rw [preg_set _ _ (by omega) (by omega)]
    split_ifs with h
    · rw [show j = n.val by omega]
    · exact ht

theorem windowClosed_keeps (s : State) (heat : List (Nat × Nat)) (ch : List Nat) : Keeps [.page .pl, .pl] s (windowClosed s heat ch) := by
  refine List.foldlRecOn (motive := fun t => Keeps [.page .pl, .pl] s t) _ _ (put_pl_keeps _ (by decide) (Keeps.refl _ s)) fun t ht n hn => ?_
  have hlt := List.mem_range.mp hn
  exact setPreg_keeps _ _ _ (by omega) (by decide) ht

theorem windowClosed_pl (s : State) (heat : List (Nat × Nat)) (ch : List Nat) :
    (windowClosed s heat ch).pl = { s.pl with heat := heatMap heat, begun := 0, steps := 0 } :=
  List.foldlRecOn (motive := fun t : State => t.pl = { s.pl with heat := heatMap heat, begun := 0, steps := 0 }) _ _ rfl fun _ ht _ _ => ht

theorem Keeps.stopped {P : List Part} {s t : State} (h : Keeps P s t) (hf : Part.fc ∉ P) (hb : Part.boot ∉ P) : stopped t = stopped s := by
  have hfc : { t.fc with coming := [] } = { s.fc with coming := [] } := h .fc hf
  have hsafe : t.fc.safe = s.fc.safe := (congrArg Collector.safe hfc :)
  have hboot : t.boot = s.boot := h .boot hb
  rw [Machine.stopped, Machine.stopped, hsafe, hboot]

/-- The loop's choice reads the map, the pins and the heats, the fences of the stacks, and two thresholds (11 R484). -/
theorem loopChoice_congr {s t : State} (ch : List Nat) (hpl : t.pl.map = s.pl.map) (hpin : t.pl.pins = s.pl.pins) (hheat : t.pl.heat = s.pl.heat)
    (hf : stackFenced t = stackFenced s) (h100 : preg t .pl 0x100 = preg s .pl 0x100) (h108 : preg t .pl 0x108 = preg s .pl 0x108) :
    loopChoice t ch = loopChoice s ch := by
  have hheats : heatOf t = heatOf s := funext fun r => by rw [heatOf, heatOf, hheat]
  have hstack : stackOfRegion t = stackOfRegion s := funext fun r => by rw [stackOfRegion, stackOfRegion, placeOf_eq, placeOf_eq, hpl]
  have hpins : pinnedRegion t = pinnedRegion s := funext fun r => by rw [pinnedRegion, pinnedRegion, hpin]
  have hmov : movable t = movable s := funext fun n => by rw [movable, movable, hstack, hpins]
  unfold loopChoice
  rw [hf, h100, h108, hheats, hmov]

theorem windowClosed_choice (s : State) (heat : List (Nat × Nat)) (ch : List Nat) :
    loopChoice (windowClosed s heat ch) ch = loopChoice { s with pl := { s.pl with heat := heatMap heat } } ch := by
  have hpl := windowClosed_pl s heat ch
  refine loopChoice_congr ch (congrArg Placement.map hpl :) (congrArg Placement.pins hpl :) (congrArg Placement.heat hpl :) (funext fun n => ?_)
    (preg_windowClosed s heat ch (by omega) (by omega)) (preg_windowClosed s heat ch (by omega) (by omega))
  unfold stackFenced fenced
  rw [preg_windowClosed s heat ch (by omega) (by simp)]
  rfl

theorem windowClosed_stopped (s : State) (heat : List (Nat × Nat)) (ch : List Nat) : stopped (windowClosed s heat ch) = stopped s :=
  (windowClosed_keeps s heat ch).stopped (by decide) (by decide)

/-- Settles O49: each command is one move of the loop, and a commit exchanges two places of the map. -/
theorem placementLoop : Obligations.PlacementLoop := by
  refine ⟨?taken, ?fixedRegions, ?sameStack, ?fenced, ?busy, ?begins, ?next, ?waits, ?done, ?abandoned, ?commit, ?others, ?closed, ?chosen, ?enable,
    ?lapsed, ?early⟩
  case taken =>
    intro s v hs ha hb hstacks hfa hfb hcur hq
    obtain ⟨hA, hB⟩ := plMove_written hs
    obtain ⟨hstack, hfence, hpl⟩ := plMove_sees hs
    have hab : fld v 0 13 ≠ fld v 16 13 := fun e => hstacks (by rw [e])
    have hact : moveRequest (pageWrite s .pl 0x11C v).st = { (pageWrite s .pl 0x11C v).st with
        pl := { s.pl with queued := some (BitVec.ofNat 13 (fld v 0 13), BitVec.ofNat 13 (fld v 16 13), true) } } := by
      unfold moveRequest
      simp only [hA, hB, hstack, hfence, hpl, hcur, hfa, hfb, hab, hstacks, fixedRegion, decide_eq_false (Nat.not_le.2 ha),
        decide_eq_false (Nat.not_le.2 hb), Bool.or_self, Bool.false_eq_true, or_self, if_false]
      split
      · next h => simp [h] at hq
      · rfl
    refine ⟨_, execPlMove_eq hs, (execPlMove_keeps' hs).mono (by decide), ?_, ?_, ?_⟩
    · rw [goDone_pl _ _ _ (by omega), hact]
    · rw [preg_goDone_same _ _ (by omega) (by omega) (by omega) (by simp), bit_andNot_one32 _ (by omega)]
    · rw [preg_goDone _ (by omega) (by omega) (by simp) (by simp), hact, preg_update,
        preg_pageWrite_other plMove_plain hs.1 _ _ (by omega) (by simp) (by simp)]
  case fixedRegions =>
    intro s v hs hfix
    obtain ⟨hA, hB⟩ := plMove_written hs
    refine plMove_rejected hs (why := 2) (addr := fld v 0 13 + fld v 16 13 * 2 ^ 16) ?_
    unfold moveRequest
    simp only [hA, hB]
    exact if_pos (by simpa [fixedRegion] using hfix)
  case sameStack =>
    intro s v hs ha hb hsame
    obtain ⟨hA, hB⟩ := plMove_written hs
    obtain ⟨hstack, -, -⟩ := plMove_sees hs
    refine plMove_rejected hs (why := 3) (addr := fld v 0 13 + fld v 16 13 * 2 ^ 16) ?_
    unfold moveRequest
    simp only [hA, hB, hstack, hsame, fixedRegion, decide_eq_false (Nat.not_le.2 ha), decide_eq_false (Nat.not_le.2 hb), Bool.or_self,
      Bool.false_eq_true, if_false, or_true, if_true]
  case fenced =>
    intro s v hs ha hb hstacks hf
    obtain ⟨hA, hB⟩ := plMove_written hs
    obtain ⟨hstack, hfence, -⟩ := plMove_sees hs
    have hab : fld v 0 13 ≠ fld v 16 13 := fun e => hstacks (by rw [e])
    have hf' : (stackFenced s (stackOfRegion s (fld v 0 13)) || stackFenced s (stackOfRegion s (fld v 16 13))) = true := by simpa using hf
    refine plMove_rejected hs (why := 4) (addr := fld v 0 13 + fld v 16 13 * 2 ^ 16) ?_
    unfold moveRequest
    simp only [hA, hB, hstack, hfence, hab, hstacks, hf', fixedRegion, decide_eq_false (Nat.not_le.2 ha),
      decide_eq_false (Nat.not_le.2 hb), Bool.or_self, Bool.false_eq_true, or_self, if_false, if_true]
  case busy =>
    intro s v hs ha hb hstacks hfa hfb hcur hab'
    obtain ⟨hA, hB⟩ := plMove_written hs
    obtain ⟨hstack, hfence, hpl⟩ := plMove_sees hs
    obtain ⟨⟨x, y⟩, hcur⟩ := Option.isSome_iff_exists.1 hcur
    have hab : fld v 0 13 ≠ fld v 16 13 := fun e => hstacks (by rw [e])
    refine plMove_rejected hs (why := 5) (addr := fld v 0 13 + fld v 16 13 * 2 ^ 16) ?_
    unfold moveRequest
    simp only [hA, hB, hstack, hfence, hpl, hcur, hfa, hfb, hab, hstacks, hab', fixedRegion, decide_eq_false (Nat.not_le.2 ha),
      decide_eq_false (Nat.not_le.2 hb), Bool.or_self, Bool.false_eq_true, or_self, if_false, false_and]
  case begins =>
    intro s a b m hrun hcur hq hstacks hbegun hf hwa hwb
    have hstart : chunkStart s = logPlace { s with
        pl := { s.pl with cur := some (a, b), queued := none, prog := 0, chunk := true, begun := s.pl.begun + 1 } } a.toNat b.toNat 0 := by
      unfold chunkStart
      simp [hrun, hcur, hq, hstacks, hf, hwa, hwb, Nat.not_le.2 hbegun]
    refine ⟨_, congrArg Host.Outcome.next hstart, logPlace_keeps _ _ _ (put_pl_keeps _ (by decide) (Keeps.refl _ s)), ?_⟩
    simp
  case next =>
    intro s hrun hcur hprog
    obtain ⟨c, hcur⟩ := Option.isSome_iff_exists.1 hcur
    refine ⟨{ s with pl := { s.pl with chunk := true } }, congrArg Host.Outcome.next ?_, put_pl_keeps _ (by decide) (Keeps.refl _ s), rfl⟩
    unfold chunkStart
    rw [if_neg (by simp [hrun])]
    simp only [hcur, hprog, if_true]
  case waits =>
    intro s hrun
    exact ⟨s, congrArg Host.Outcome.next (if_pos hrun), Keeps.refl _ s, rfl⟩
  case done =>
    intro s a b hc _ hcur hf
    exact ⟨_, congrArg (fun t => Host.Outcome.next (settle t)) (chunkDone_whole hc hcur hf), put_pl_keeps _ (by decide) (Keeps.refl _ s), rfl⟩
  case abandoned =>
    intro s a b hc ha hcur hf
    refine ⟨chunkDone s, rfl, chunkDone_keeps (by decide) (Keeps.refl _ s), ?_⟩
    beta_reduce
    rw [chunkDone_fenced hc ha hcur hf]
    refine ⟨by simp, by simp, by simp, by simp, raiseErr_bit _ _ _ (by omega)⟩
  case commit =>
    intro s a b hcur hrun hprog
    refine ⟨plCommit s, rfl, plCommit_keeps (by decide) (Keeps.refl _ s), ?_⟩
    beta_reduce
    rw [plCommit_done hcur hrun hprog]
    refine ⟨?_, ?_, by simp, by simp, by simp⟩
    · simpa [placeOf_eq] using swapped_left s.pl.map a b
    · simpa [placeOf_eq] using swapped_right s.pl.map a b
  case others =>
    intro s a b r hcur ha hb
    refine ⟨plCommit s, rfl, plCommit_keeps (by decide) (Keeps.refl _ s), ?_⟩
    beta_reduce
    by_cases hgo : plMayRun s = true ∧ s.pl.prog = 1024
    · rw [plCommit_done hcur hgo.1 hgo.2]
      simpa [placeOf_eq] using swapped_other s.pl.map a b ha hb
    · have hnot : plMayRun s = false ∨ s.pl.prog ≠ 1024 := by
        cases h : plMayRun s <;> simp_all
      unfold plCommit
      simp only [hcur, if_pos hnot]
  case closed =>
    intro s heat ch hover hoff
    have hpl := windowClosed_pl s heat ch
    refine ⟨windowClosed s heat ch, congrArg Host.Outcome.next ((windowEnd_eq heat ch hover).trans (if_pos (.inl ?_))), windowClosed_keeps s heat ch,
      congrArg Placement.heat hpl, congrArg Placement.begun hpl, congrArg Placement.steps hpl, (congrArg Placement.queued hpl :),
      windowClosed_heat s heat ch⟩
    rw [preg_windowClosed s heat ch (by omega) (by omega), hoff]
  case chosen =>
    intro s heat ch a b hover hon hs ha hq hchoice
    have hpl := windowClosed_pl s heat ch
    have hend : windowEnd s heat ch = { windowClosed s heat ch with
        pl := { (windowClosed s heat ch).pl with queued := some (BitVec.ofNat 13 a, BitVec.ofNat 13 b, false) } } := by
      rw [windowEnd_eq heat ch hover, windowClosed_choice, hchoice]
      refine if_neg ?_
      rw [preg_windowClosed s heat ch (by omega) (by omega), windowClosed_stopped, hpl]
      simp [hon, hs, ha, hq]
    exact ⟨_, congrArg Host.Outcome.next hend, put_pl_keeps _ (by decide) (windowClosed_keeps s heat ch), rfl⟩
  case enable =>
    intro s v hu hf h1 h2
    have hheld : Keeps [.page .pl] s (ctrlHeld s .pl v) := ctrlHeld_keeps rfl hu
    have hacts : ctrlActs s .pl v = ctrlHeld s .pl v := by
      unfold ctrlActs
      rw [hf, h1]
      simp [fenceAct, enableAct]
    have hall := hacts ▸ ctrlWrite_acts rfl hu h2
    refine ⟨_, rfl, (hheld.mono (by decide)).trans (hall.mono (by decide)), ?_, ?_⟩
    · unfold enabled
      rw [hall.preg (by decide) (by omega) (by simp) (by simp)]
      exact ctrlHeld_enabled rfl hu
    · unfold fenced
      rw [hall.preg (by decide) (by omega) (by simp) (by simp)]
      exact ctrlHeld_fenced.trans hf
  case lapsed =>
    intro s a b m hrun hcur hq hstacks
    refine ⟨{ s with pl := { s.pl with queued := none } }, congrArg Host.Outcome.next ?_, put_pl_keeps _ (by decide) (Keeps.refl _ s), rfl⟩
    unfold chunkStart
    rw [if_neg (by simp [hrun])]
    simp only [hcur, hq, hstacks, if_true]
  case early =>
    intro s heat ch hover
    exact ⟨s, congrArg Host.Outcome.next (if_pos hover), Keeps.refl _ s, rfl⟩

end Sys2Proof
end

section
/-! PROOFS. The logbook and its snapshots (13 R551 to R564, R570 to R575). -/

namespace Sys2Proof

open Sys2Proof.Machine

/-! ## An interrupt while MSI-X is enabled -/

/-- Sending an MSI-X message touches neither the enable of MSI-X nor the level of INTA. -/
theorem sendMsix_inta (s : State) (v : Fin 32) : (sendMsix s v).cxl.msixEn = s.cxl.msixEn ∧ (sendMsix s v).cxl.inta = s.cxl.inta := by
  unfold sendMsix
  split_ifs <;> exact ⟨rfl, rfl⟩

/-- With MSI-X enabled, INTA falls at the next interrupt if it is asserted (09 R380). -/
theorem irqEdge_intaFalls {s : State} (p : Page) (old : W32) (hen : s.cxl.msixEn = true) (hinta : s.cxl.inta = true) :
    ∃ l, (irqEdge p old s).out = l ++ [.inta false] := by
  have hfall : ∀ u : State, u.cxl.msixEn = true ∧ u.cxl.inta = true → (updateInta u).out = u.out ++ [.inta false] := fun u hu => by
    simp [updateInta, hu.1, hu.2]
  have hsent : ∀ l : List (Fin 32), (l.foldl sendMsix s).cxl.msixEn = true ∧ (l.foldl sendMsix s).cxl.inta = true := fun l =>
    List.foldlRecOn (motive := fun t : State => t.cxl.msixEn = true ∧ t.cxl.inta = true) l sendMsix ⟨hen, hinta⟩ fun t ht v _ =>
      ⟨(sendMsix_inta t v).1.trans ht.1, (sendMsix_inta t v).2.trans ht.2⟩
  unfold irqEdge
  split_ifs
  · exact ⟨_, hfall s ⟨hen, hinta⟩⟩
  · exact ⟨_, hfall _ (hsent _)⟩

/-- So an error that is not masked sends the fall of INTA outside. -/
theorem raiseErr_intaFalls {s : State} {p : Page} {src : Nat} (addr : Nat) (hm : maskedSrc s p src = false)
    (hen : s.cxl.msixEn = true) (hinta : s.cxl.inta = true) : ∃ l, (raiseErr s p src addr).out = l ++ [.inta false] := by
  have hcxl : (noteErr s p src addr).cxl = s.cxl := by
    unfold noteErr
    extract_lets first s1
    split_ifs <;> rfl
  unfold raiseErr raiseErrX
  simp only [hm, Bool.false_eq_true, if_false]
  exact irqEdge_intaFalls _ _ (by simpa [hcxl] using hen) (by simpa [hcxl] using hinta)

/-! ## Snapshots -/

/-- A snapshot about to program its first page, whose one entry reads uncorrectable. -/
def oneEntrySnap : Snap := ⟨3, false, 0, 1, 0, [0], 0, true⟩

/-- The device after reset with that snapshot running, MSI-X just enabled, and INTA still asserted. -/
def snapshotRunning : State :=
  { State.reset with
    lb := { State.reset.lb with snap := some oneEntrySnap }
    cxl := { State.reset.cxl with msixEn := true, inta := true } }

/-- The completion of its header: the entry of the page copied next is marked damaged, which is an error, and then the page is programmed. -/
theorem snapshotRunning_programmed :
    (flashDone snapshotRunning 0 1).out =
      (raiseErr (setSlot snapshotRunning 0 (programOp oneEntrySnap (snapshotRunning.lb.slots.get 0))) .lb 2).out ++ [.flash 0 2] := by
  have hsnap : snapshotRunning.lb.snap = some oneEntrySnap := rfl
  have hmore : ¬bodyPages oneEntrySnap.entries.length + 2 ≤ oneEntrySnap.ops := by decide
  have htime : ¬(preg snapshotRunning .lb 0x128).toNat < (0 : W16).toNat := Nat.not_lt_zero _
  have hdamaged : ∀ u : State, (copyPage u oneEntrySnap 1).2 = true := fun u => by simp [copyPage, oneEntrySnap, List.range_succ]
  unfold flashDone
  simp only [hsnap]
  rw [if_neg htime, if_neg hmore, hdamaged]
  rfl

/-- Refutes O53: an entry of the page copied next that reads uncorrectable raises LB_RING_UE (13 R560), whose interrupt may change the level of INTA:
then more goes outside than the flash operation. -/
theorem not_snapshots : ¬ Obligations.Snapshots := by
  unfold Obligations.Snapshots
  rintro ⟨-, -, -, hprogram, -⟩
  obtain ⟨t, hexec, -, -, -, hout⟩ := hprogram snapshotRunning oneEntrySnap 0 1 rfl rfl
  have hnext : exec (.flashOperationComplete 0 1) snapshotRunning = .next (flashDone snapshotRunning 0 1) := rfl
  rw [hnext] at hexec
  cases hexec
  have hmasked : maskedSrc snapshotRunning .lb 2 = false := by decide
  obtain ⟨l, hl⟩ := raiseErr_intaFalls (s := setSlot snapshotRunning 0 (programOp oneEntrySnap (snapshotRunning.lb.slots.get 0))) (p := .lb)
    (src := 2) 0 hmasked rfl rfl
  rw [snapshotRunning_programmed, hl] at hout
  have hempty : snapshotRunning.out = [] := rfl
  rw [hempty] at hout
  exact absurd (congrArg List.length hout) (by simp [oneEntrySnap])

/-! ## The logbook under interrupts -/

@[simp] theorem sendMsix_lb (s : State) (v : Fin 32) : (sendMsix s v).lb = s.lb := by
  unfold sendMsix
  split_ifs <;> rfl

@[simp] theorem irqEdge_lb (s : State) (p : Page) (old : W32) : (irqEdge p old s).lb = s.lb := by
  have hinta : ∀ u : State, (updateInta u).lb = u.lb := fun u => by
    unfold updateInta
    extract_lets
    split_ifs <;> rfl
  have hsent : ∀ l : List (Fin 32), (l.foldl sendMsix s).lb = s.lb := fun l =>
    List.foldlRecOn (motive := fun t : State => t.lb = s.lb) l sendMsix rfl fun t ht v _ => (sendMsix_lb t v).trans ht
  unfold irqEdge
  rw [hinta]
  split_ifs
  · rfl
  · exact hsent _

@[simp] theorem raiseInt_lb (s : State) (p : Page) (b : Nat) : (raiseInt s p b).lb = s.lb := irqEdge_lb _ _ _

@[simp] theorem goDone_lb (s : State) (p : Page) (o b : Nat) : (goDone s p o b).lb = s.lb := by
  unfold goDone
  extract_lets u
  split
  · exact raiseInt_lb _ _ _
  · rfl

theorem wrStore_lb (s : State) (p : Page) (o : Nat) (a : Wr) : (wrStore s p o a).lb = s.lb := by
  unfold wrStore pageErr
  extract_lets s1 s2 s3
  have h3 : s3.lb = s.lb := by
    simp only [s3, irqEdge_lb, s2, s1]
    split_ifs <;> rfl
  split_ifs
  · exact h3
  · exact (raiseInt_lb _ _ _).trans h3

theorem pageWrite_lb {s : State} {p : Page} {o : Nat} {row : RegRow} (R : PlainReg p o row) (hu : Unlocked s p) (v same : W32) :
    (pageWrite s p o v same).st.lb = s.lb := by
  rw [pageWrite_plain R hu]
  exact wrStore_lb _ _ _ _

/-- An entry offered while there is room in the input queue (13 R552). -/
theorem offer_room {s : State} (kind payload b26 b30 : Nat) (h : s.lb.inq.length < 256) :
    (offer s kind payload b26 b30).lb = { s.lb with inq := s.lb.inq ++ [BitVec.ofNat 256 (payload % 2 ^ 128 + (b26 % 2 ^ 24) * 2 ^ 208 +
      (kind % 256) * 2 ^ 232 + (b30 % 2 ^ 16) * 2 ^ 240)] } := by
  unfold offer offerEntry
  rw [if_pos h]

/-! ## The ring -/

@[simp] theorem ringPut_lb (s : State) (e : BitVec 256) :
    (ringPut s e).lb = { s.lb with ring := sset (fun _ => 0) s.lb.ring s.lb.head.toNat (stampEntry s e), head := s.lb.head + 1
                                   wrapped := s.lb.wrapped || decide (s.lb.head = 0xFFF) } := rfl

/-- A written entry leaves what the next one is stamped with (13 R553). -/
theorem stampEntry_congr {s t : State} (e : BitVec 256) (htide : t.tide = s.tide) (hen : enabled t .td = enabled s .td) :
    stampEntry t e = stampEntry s e := by
  unfold stampEntry
  rw [htide, hen]

theorem stampEntry_ringPut (s : State) (e x : BitVec 256) : stampEntry (ringPut s x) e = stampEntry s e :=
  stampEntry_congr e rfl (congrArg (bit · 0) (preg_setPreg_page s _ (by omega) (by omega) (by decide)))

theorem droppedFirst_kept {s : State} (h : s.lb.lost = 0 ∨ headBlocked s = true) : droppedFirst s = s := if_pos h

theorem ringWrite_free {s : State} (e : BitVec 256) (h : headBlocked s = false) : ringWrite s e = ringPut s e := if_neg (by simp [h])

theorem ringWrite_blocked {s : State} (e : BitVec 256) (h : headBlocked s = true) : ringWrite s e = loseEntry s := if_pos h

/-- The state with the first entry taken from the input queue. -/
abbrev takenFirst (s : State) (l : List (BitVec 256)) : State := { s with lb := { s.lb with inq := l } }

theorem writeOne_eq {s : State} {e : BitVec 256} {l : List (BitVec 256)} (hq : s.lb.inq = e :: l) :
    writeOne s = ringWrite (droppedFirst (takenFirst s l)) e := by
  unfold writeOne
  simp only [hq]

theorem headBlocked_congr {s t : State} (hsnap : t.lb.snap = s.lb.snap) (hhead : t.lb.head = s.lb.head) : headBlocked t = headBlocked s := by
  unfold headBlocked
  rw [hsnap, hhead]

/-- The writer with nothing lost and a free place: the entry is written (13 R552). -/
theorem writeOne_plain {s : State} {e : BitVec 256} {l : List (BitVec 256)} (hq : s.lb.inq = e :: l) (hlost : s.lb.lost = 0)
    (hfree : headBlocked s = false) :
    writeOne s = ringPut (takenFirst s l) e := by
  rw [writeOne_eq hq, droppedFirst_kept (s := takenFirst s l) (.inl hlost), ringWrite_free (s := takenFirst s l) e ((headBlocked_congr rfl rfl).trans hfree)]

/-- The DROPPED entry, which says how many were lost (13 R552). -/
def droppedEntry (n : W32) : BitVec 256 := BitVec.ofNat 256 (n.toNat + 11 * 2 ^ 232)

theorem droppedFirst_writes {s : State} (hlost : s.lb.lost ≠ 0) (hfree : headBlocked s = false) :
    droppedFirst s = ringPut { s with lb := { s.lb with lost := 0 } } (droppedEntry s.lb.lost) := by
  have hlose : ¬(s.lb.lost = 0 ∨ headBlocked s = true) := by simpa [hfree] using hlost
  unfold droppedFirst droppedEntry
  rw [if_neg hlose]

/-- The writer after losses: the DROPPED entry goes first (13 R552). -/
theorem writeOne_dropped {s : State} {e : BitVec 256} {l : List (BitVec 256)} (hq : s.lb.inq = e :: l) (hlost : s.lb.lost ≠ 0)
    (hsnap : s.lb.snap = none) :
    writeOne s = ringPut (ringPut { takenFirst s l with lb := { (takenFirst s l).lb with lost := 0 } } (droppedEntry (takenFirst s l).lb.lost)) e := by
  have hfree : ∀ u : State, u.lb.snap = none → headBlocked u = false := fun u h => by simp [headBlocked, h]
  rw [writeOne_eq hq, droppedFirst_writes (s := takenFirst s l) hlost (hfree _ hsnap)]
  exact ringWrite_free e (hfree _ (by rw [ringPut_lb]; exact hsnap))

/-- The writer at a place that a snapshot has still to copy: the entry is lost (13 R552, R560). -/
theorem writeOne_blocked {s : State} {e : BitVec 256} {l : List (BitVec 256)} (hq : s.lb.inq = e :: l) (hb : headBlocked s = true) :
    writeOne s = loseEntry (takenFirst s l) := by
  rw [writeOne_eq hq, droppedFirst_kept (s := takenFirst s l) (.inr ((headBlocked_congr rfl rfl).trans hb)),
    ringWrite_blocked (s := takenFirst s l) e ((headBlocked_congr rfl rfl).trans hb)]

/-! ## NOTE and RD_LOAD -/

theorem lbCtrl_plain : PlainReg .lb 0x100 (r 0x100 0x20C [f 0 1 .go, f 1 1 .go, f 2 1 .rw, f 3 1 .rw, f 4 1 .go, fr 8 3 .rw 1 4]) := {}

theorem entryBytes_length (es : List (BitVec 256)) : (entryBytes es).length = 32 * es.length := by
  induction es with
  | nil => rfl
  | cons e es ih =>
    have hcons : entryBytes (e :: es) = bvBytes 32 e ++ entryBytes es := rfl
    have he : (bvBytes 32 e).length = 32 := natBytes_length _ _
    rw [hcons, List.length_append, ih, he, List.length_cons]
    omega

theorem pageOf_length {bs : List Byte} (h : bs.length ≤ 256) : (pageOf bs).length = 256 := by
  simp only [pageOf, List.length_append, List.length_replicate]
  omega

theorem slotPage_length (x : FlashSlot) (p : Nat) : (slotPage x p).length = 256 := by
  have hword : ∀ w : W32, (bvBytes 4 w).length = 4 := fun w => natBytes_length _ _
  unfold slotPage
  split_ifs
  · refine pageOf_length ?_
    split
    · rw [bvBytes, natBytes_length]
      omega
    · simp
  · refine pageOf_length ?_
    rw [entryBytes_length]
    have := List.length_take_le 8 (x.body.drop (8 * (p - 1)))
    omega
  · split <;> simp only [List.length_append, List.length_replicate, hword]
  · split <;> simp only [List.length_append, List.length_replicate, hword]

/-- A block of the ring, or of a flash slot, is 2 KiB (13 R564). -/
theorem rdBlock_length (s : State) : (rdBlock s).length = 2048 := by
  unfold rdBlock
  extract_lets sel b x
  split_ifs
  · rw [entryBytes_length, List.length_map, List.length_range]
  · simp [List.length_flatMap, slotPage_length]

theorem preg_loadWords_below (bs : List Byte) (s : State) (p : Page) {o n k : Nat} (hlen : bs.length = 4 * n) (ho : o + 4 * n ≤ 0x1000) (hk : k < o) :
    preg (loadWords s p o bs) p k = preg s p k := by
  induction n generalizing s o bs with
  | zero =>
    obtain rfl : bs = [] := List.length_eq_zero_iff.mp (by omega)
    rfl
  | succ n ih =>
    obtain ⟨a, b, c, d, rest, rfl⟩ : ∃ a b c d rest, bs = a :: b :: c :: d :: rest := by
      match bs, hlen with
      | a :: b :: c :: d :: rest, _ => exact ⟨a, b, c, d, rest, rfl⟩
    simp only [List.length_cons] at hlen
    rw [loadWords, ih rest _ (by omega) (by omega) (by omega), preg_setPreg_off _ _ _ (by omega)]

/-- Words laid into registers, one by one. -/
theorem preg_loadWords (bs : List Byte) (s : State) (p : Page) {o n k : Nat} (hlen : bs.length = 4 * n) (ho : o + 4 * n ≤ 0x1000) (hk : k < n) :
    preg (loadWords s p o bs) p (o + 4 * k) = BitVec.ofNat 32 (bytesNat ((bs.drop (4 * k)).take 4)) := by
  induction n generalizing s o bs k with
  | zero => omega
  | succ n ih =>
    obtain ⟨a, b, c, d, rest, rfl⟩ : ∃ a b c d rest, bs = a :: b :: c :: d :: rest := by
      match bs, hlen with
      | a :: b :: c :: d :: rest, _ => exact ⟨a, b, c, d, rest, rfl⟩
    simp only [List.length_cons] at hlen
    rw [loadWords]
    cases k with
    | zero => rw [preg_loadWords_below rest _ p (n := n) (by omega) (by omega) (by omega), Nat.mul_zero, Nat.add_zero, preg_setPreg_same]; rfl
    | succ k =>
      have h := ih rest (setPreg s p o (BitVec.ofNat 32 (bytesNat [a, b, c, d]))) (o := o + 4) (k := k) (by omega) (by omega) (by omega)
      rw [show o + 4 * (k + 1) = o + 4 + 4 * k by omega, h, show 4 * (k + 1) = 4 * k + 4 by omega]
      rfl

/-- What a block reads is the same where LB_RD_SEL and the logbook are. -/
theorem rdBlock_congr {s t : State} (hlb : t.lb = s.lb) (hsel : preg t .lb 0x12C = preg s .lb 0x12C) : rdBlock t = rdBlock s := by
  unfold rdBlock
  rw [hlb, hsel]

section
variable {s : State} {v : W32}

/-- LB_CTRL written with NOTE alone. -/
theorem lbCtrlWrite_note (hs : Starts s .lb 0x100 4 v) (h0 : bit v 0 = false) (h1 : bit v 1 = false) :
    lbCtrlWrite s v = noteAct (pageWrite s .lb 0x100 v).st := by
  unfold lbCtrlWrite
  simp only [started_one lbCtrl_plain rfl (by omega) 0 hs, started_zero lbCtrl_plain hs.1 rfl (by omega) 0 h0,
    started_zero lbCtrl_plain hs.1 rfl (by omega) 0 h1, if_true, Bool.false_eq_true, if_false]

/-- LB_CTRL written with RD_LOAD alone. -/
theorem lbCtrlWrite_rdLoad (hs : Starts s .lb 0x100 1 v) (h0 : bit v 0 = false) (h4 : bit v 4 = false) :
    lbCtrlWrite s v = rdLoad (pageWrite s .lb 0x100 v).st := by
  unfold lbCtrlWrite
  simp only [started_one lbCtrl_plain rfl (by omega) 0 hs, started_zero lbCtrl_plain hs.1 rfl (by omega) 0 h0,
    started_zero lbCtrl_plain hs.1 rfl (by omega) 0 h4, if_true, Bool.false_eq_true, if_false]

end

/-- A NOTE entry holds the two pairs of LB_NOTE as its payload (13 R554). -/
theorem note_entry (a b : Nat) (ha : a < 2 ^ 64) (hb : b < 2 ^ 64) (e : BitVec 256)
    (he : e = BitVec.ofNat 256 ((a + b * 2 ^ 64) % 2 ^ 128 + (0 % 2 ^ 24) * 2 ^ 208 + (10 % 256) * 2 ^ 232 + (0 % 2 ^ 16) * 2 ^ 240)) :
    entryKind e = 10 ∧ fld e 0 128 = a + b * 2 ^ 64 := by
  subst he
  unfold entryKind fld
  rw [BitVec.toNat_ofNat]
  omega

theorem preg64_lt (s : State) (p : Page) (o : Nat) : preg64 s p o < 2 ^ 64 := by
  have hl := (preg s p o).isLt
  have hh := (preg s p (o + 4)).isLt
  unfold preg64
  omega

/-- Settles O52: the writer's three cases, and the two actions of LB_CTRL. -/
theorem logbookRing : Obligations.LogbookRing := by
  refine ⟨?plain, ?dropped, ?blocked, ?note, ?load⟩
  case plain =>
    intro s e l hq hlost hfree
    refine ⟨_, congrArg Host.Outcome.next (writeOne_plain hq hlost hfree), ?_, ?_, rfl, rfl, rfl, ?_⟩
    · exact put_lb_keeps _ (by decide) (cntPreg_keeps _ _ _ (by omega) (by decide) (put_lb_keeps _ (by decide) (Keeps.refl _ s)))
    · exact sget_sset_same _ _ _ _
    · exact preg_setPreg_same _ _ _ _
  case dropped =>
    intro s e l hq hlost hsnap
    have hne : s.lb.head.toNat ≠ (s.lb.head + 1).toNat := by
      have := s.lb.head.isLt
      rw [BitVec.toNat_add, show (1 : BitVec 12).toNat = 1 from rfl]
      omega
    refine ⟨writeOne s, rfl, writeOne_keeps (by decide) (Keeps.refl _ s), ?_⟩
    rw [writeOne_dropped hq hlost hsnap]
    refine ⟨?_, ?_, ?_, rfl⟩
    · rw [ringPut_lb, sget_sset_other _ _ _ (by exact hne), ringPut_lb, sget_sset_same]
      exact stampEntry_congr _ rfl rfl
    · rw [ringPut_lb, stampEntry_ringPut]
      exact sget_sset_same _ _ _ _
    · exact BitVec.add_assoc _ _ _
  case blocked =>
    intro s e l hq hb
    refine ⟨_, congrArg Host.Outcome.next (writeOne_blocked hq hb), ?_, rfl, rfl, rfl, preg_setPreg_same _ _ _ _⟩
    exact put_lb_keeps _ (by decide) (cntPreg_keeps _ _ _ (by omega) (by decide) (put_lb_keeps _ (by decide) (Keeps.refl _ s)))
  case note =>
    intro s v hs h0 h1 hroom
    set w := (pageWrite s .lb 0x100 v).st with hw
    have hlb : w.lb = s.lb := pageWrite_lb lbCtrl_plain hs.1 _ _
    have hpair : ∀ o, 0x140 ≤ o → o < 0x150 → preg64 w .lb o = preg64 s .lb o := fun o h h' => by
      unfold preg64
      rw [preg_pageWrite_other lbCtrl_plain hs.1 _ _ (by omega) (by omega) (by simp),
        preg_pageWrite_other lbCtrl_plain hs.1 _ _ (by omega) (by omega) (by simp)]
    have hact : (noteAct w).lb.inq = s.lb.inq ++ [BitVec.ofNat 256 ((preg64 s .lb 0x140 + preg64 s .lb 0x148 * 2 ^ 64) % 2 ^ 128 +
        (0 % 2 ^ 24) * 2 ^ 208 + (10 % 256) * 2 ^ 232 + (0 % 2 ^ 16) * 2 ^ 240)] := by
      unfold noteAct
      rw [goDone_lb, offer_room _ _ _ _ (by rwa [hlb]), hlb, hpair _ (by omega) (by omega), hpair _ (by omega) (by omega)]
    obtain ⟨hkind, hpayload⟩ := note_entry _ _ (preg64_lt s .lb 0x140) (preg64_lt s .lb 0x148) _ rfl
    refine ⟨noteAct w, congrArg Host.Outcome.next (lbCtrlWrite_note hs h0 h1), ?_, ?_, ?_, ?_⟩
    · exact goDone_keeps _ _ _ (by omega) (by decide) (offer_keeps _ _ _ _
        (pageWrite_keeps_plain lbCtrl_plain hs.1 _ _ (by decide) (Keeps.refl _ s)))
    · rw [hact, List.length_append]
      rfl
    · rw [hact, List.getLast?_concat, Option.map_some, hkind, hpayload]
    · unfold noteAct
      rw [preg_goDone_same _ _ (by omega) (by omega) (by omega) (by simp), bit_andNot_one32 _ (by omega)]
  case load =>
    intro s v hs h0 h4
    set w := (pageWrite s .lb 0x100 v).st with hw
    have hblock : rdBlock w = rdBlock s := rdBlock_congr (pageWrite_lb lbCtrl_plain hs.1 _ _)
      (preg_pageWrite_other lbCtrl_plain hs.1 _ _ (by omega) (by simp) (by simp))
    have hlen : (rdBlock w).length = 4 * 512 := rdBlock_length w
    refine ⟨rdLoad w, congrArg Host.Outcome.next (lbCtrlWrite_rdLoad hs h0 h4), ?_, fun k => ?_, ?_⟩
    · exact rdLoad_keeps (by decide) (pageWrite_keeps_plain lbCtrl_plain hs.1 _ _ (by decide) (Keeps.refl _ s))
    · have hk := k.isLt
      unfold rdLoad
      rw [preg_goDone _ (by omega) (by omega) (by omega) (by simp), preg_loadWords _ _ _ hlen (by omega) hk, hblock]
    · unfold rdLoad
      rw [preg_goDone_same _ _ (by omega) (by omega) (by omega) (by simp), bit_andNot_one32 _ (by omega)]

end Sys2Proof
end

section
/-! PROOFS. The gangplank and the JTAG port (13 R565 to R569, R576 to R581; 14 R594). -/

namespace Sys2Proof

open Sys2Proof.Machine

/-! ## Free values under interrupts -/

@[simp] theorem sendMsix_fresh (s : State) (v : Fin 32) : (sendMsix s v).fresh = s.fresh := by
  unfold sendMsix
  split_ifs <;> rfl

@[simp] theorem irqEdge_fresh (s : State) (p : Page) (old : W32) : (irqEdge p old s).fresh = s.fresh := by
  have hinta : ∀ u : State, (updateInta u).fresh = u.fresh := fun u => by
    unfold updateInta
    extract_lets
    split_ifs <;> rfl
  have hsent : ∀ l : List (Fin 32), (l.foldl sendMsix s).fresh = s.fresh := fun l =>
    List.foldlRecOn (motive := fun t : State => t.fresh = s.fresh) l sendMsix rfl fun t ht v _ => (sendMsix_fresh t v).trans ht
  unfold irqEdge
  rw [hinta]
  split_ifs
  · rfl
  · exact hsent _

theorem pageWrite_fresh {s : State} {p : Page} {o : Nat} {row : RegRow} (R : PlainReg p o row) (hu : Unlocked s p) (v same : W32) :
    (pageWrite s p o v same).st.fresh = s.fresh := by
  rw [pageWrite_plain R hu]
  unfold wrStore pageErr raiseInt
  simp only
  split_ifs <;> simp

/-! ## Values over several registers -/

theorem preg_setPregs_out {s : State} {p q : Page} {o v n k : Nat} (ho : o + 4 * n ≤ 0x1000) (hk : k < 0x1000)
    (h : q = p → k < o ∨ o + 4 * n ≤ k) : preg (setPregs s p o v n) q k = preg s q k := by
  induction n generalizing s o v with
  | zero => rfl
  | succ n ih =>
    rw [setPregs, ih (by omega) (fun e => by have := h e; omega), preg_set _ _ (by omega) hk, if_neg (fun e => by have := h e.1; omega)]

theorem setPregs_gp (s : State) (p : Page) (o v n : Nat) : (setPregs s p o v n).gp = s.gp := by
  induction n generalizing s o v with
  | zero => rfl
  | succ n ih => rw [setPregs, ih, setPreg_gp]

/-- Consecutive registers read as the value they were set to. -/
theorem pregs_setPregs {s : State} {p : Page} {o v n : Nat} (ho : o + 4 * n ≤ 0x1000) (hv : v < 2 ^ (32 * n)) :
    pregs (setPregs s p o v n) p o n = v := by
  induction n generalizing s o v with
  | zero =>
    simp only [Nat.mul_zero, Nat.pow_zero, Nat.lt_one_iff] at hv
    rw [hv]
    rfl
  | succ n ih =>
    have hdiv : v / 2 ^ 32 < 2 ^ (32 * n) := by
      rw [Nat.div_lt_iff_lt_mul (by decide), ← pow_add]
      exact lt_of_lt_of_eq hv (congrArg (2 ^ ·) (by omega))
    rw [setPregs, pregs, ih (by omega) hdiv, preg_setPregs_out (by omega) (by omega) (fun _ => .inl (by omega)), preg_setPreg_same, BitVec.toNat_ofNat]
    omega

/-- Registers set from 0 read 0. -/
theorem preg_setPregs_zero {s : State} {p : Page} {o n k : Nat} (ho : o + 4 * n ≤ 0x1000) (hk : k < n) :
    preg (setPregs s p o 0 n) p (o + 4 * k) = 0 := by
  induction n generalizing s o k with
  | zero => omega
  | succ n ih =>
    rw [setPregs, Nat.zero_div]
    cases k with
    | zero => rw [preg_setPregs_out (by omega) (by omega) (fun _ => .inl (by omega)), Nat.mul_zero, Nat.add_zero, preg_setPreg_same]; rfl
    | succ k => rw [show o + 4 * (k + 1) = o + 4 + 4 * k by omega, ih (by omega) (by omega)]

theorem pregs_congr {s t : State} {p : Page} {o n : Nat} (h : ∀ k, o ≤ k → k < o + 4 * n → preg t p k = preg s p k) :
    pregs t p o n = pregs s p o n := by
  induction n generalizing o with
  | zero => rfl
  | succ n ih => rw [pregs, pregs, h o (by omega) (by omega), ih fun k h1 h2 => h k (by omega) (by omega)]

/-! ## The way to GP_CTRL -/

theorem gpCtrl_plain : PlainReg .gp 0x100 (r 0x100 0 [fr 0 2 .rw 1 3, f 8 1 .go, f 9 1 .go, f 10 1 .go]) := {}

/-- The state in which a write of GP_CTRL takes place: through JTAG the instruction GP_REG is loaded first. -/
def viaPath (s : State) (j : Bool) : State := if j then loadIr s 0x20 else s

theorem gpPath_eq {s : State} {j : Bool} (v : W32) (h : j = false ∨ s.gp.tap = true) : gpPath s v j = gpCtrlWrite (viaPath s j) v j := by
  unfold gpPath viaPath
  cases j with
  | false => rfl
  | true => simp [h.resolve_left (by decide)]

@[simp] theorem preg_viaPath (s : State) (j : Bool) (p : Page) (k : Nat) : preg (viaPath s j) p k = preg s p k := by
  cases j <;> rfl

theorem viaPath_gp (s : State) (j : Bool) : (viaPath s j).gp = { s.gp with ir := if j then 0x20 else s.gp.ir } := by
  cases j <;> rfl

theorem viaPath_fresh (s : State) (j : Bool) : (viaPath s j).fresh = s.fresh := by
  cases j <;> rfl

theorem viaPath_keeps (s : State) (j : Bool) : Keeps [.gp] s (viaPath s j) := by
  cases j
  · exact Keeps.refl _ s
  · exact put_gp_keeps _ (by decide) (Keeps.refl _ s)

/-- The state after GP_CTRL itself is written, before any action. -/
def gpWritten (s : State) (v : W32) (j : Bool) : State := (pageWrite (viaPath s j) .gp 0x100 v).st

theorem gpWritten_gp (s : State) (v : W32) (j : Bool) : (gpWritten s v j).gp = { s.gp with ir := if j then 0x20 else s.gp.ir } :=
  (pageWrite_gp _ _ _ _ (by omega)).trans (viaPath_gp s j)

section
variable {s : State} {v : W32} {j : Bool} (hu : Unlocked s .gp)
include hu

theorem viaPath_unlocked : Unlocked (viaPath s j) .gp := by
  rw [Unlocked, preg_viaPath]
  exact hu

theorem preg_gpWritten {q : Page} {k : Nat} (hk : k < 0x1000) (h : q = .gp → k ≠ 0x100 ∧ k ≠ 0x30 ∧ k ≠ 0x3C) (h2 : q = .ep → k ≠ 0xA00) :
    preg (gpWritten s v j) q k = preg s q k := by
  unfold gpWritten
  rw [preg_pageWrite_other gpCtrl_plain (viaPath_unlocked hu) _ _ hk h h2, preg_viaPath]

theorem gpWritten_keeps : Keeps [.page .gp, .gp] s (gpWritten s v j) :=
  ((viaPath_keeps s j).mono (by decide)).trans (pageWrite_keeps_plain gpCtrl_plain (viaPath_unlocked hu) _ _ (by decide) (Keeps.refl _ _))

theorem gpWritten_level (hlev : 1 ≤ fld v 0 2) : gpLevel (gpWritten s v j) = fld v 0 2 :=
  fld_pageWrite gpCtrl_plain (viaPath_unlocked hu) (fr 0 2 .rw 1 3) rfl rfl
    ⟨.inl rfl, hlev, Nat.le_sub_one_of_lt (fld_lt v 0 2), by decide⟩

theorem gpWritten_serial : serial (gpWritten s v j) = serial s := by
  unfold serial preg64
  rw [preg_gpWritten hu (by omega) (by simp) (by simp), preg_gpWritten hu (by omega) (by simp) (by simp)]

theorem gpWritten_pregs {o n : Nat} (h : 0x130 ≤ o) (ho : o + 4 * n ≤ 0x170) : pregs (gpWritten s v j) .gp o n = pregs s .gp o n :=
  pregs_congr fun k h1 h2 => preg_gpWritten hu (by omega) (fun _ => by omega) (by simp)

end

/-! ## Attempts -/

/-- The gangplank after an attempt of this result for this level (13 R567, R568). -/
def attemptGp (g : Gangplank) (r lev : Nat) : Gangplank :=
  if r = 1 then
    { g with result := 1, nonceOk := false, level := if lev = 1 then 1 else 2, factory := decide (lev = 3) }
  else if r = 2 ∨ r = 3 then
    { g with result := BitVec.ofNat 3 r, nonceOk := false, fails := g.fails + 1, locked := g.locked || decide (8 ≤ (g.fails + 1).toNat) }
  else { g with result := BitVec.ofNat 3 r, nonceOk := false }

/-- A failed attempt before the lock is decided. -/
def failedOnce (s : State) : State := raiseErr { s with gp := { s.gp with fails := s.gp.fails + 1 } } .gp 0

theorem attemptFails_eq (s : State) :
    attemptFails s = if 8 ≤ (s.gp.fails + 1).toNat then raiseErr { failedOnce s with gp := { (failedOnce s).gp with locked := true } } .gp 1
      else failedOnce s := rfl

theorem failedOnce_gp (s : State) : (failedOnce s).gp = { s.gp with fails := s.gp.fails + 1 } := raiseErr_gp _ _ _ _

theorem attemptFails_gp (s : State) :
    (attemptFails s).gp = { s.gp with fails := s.gp.fails + 1, locked := s.gp.locked || decide (8 ≤ (s.gp.fails + 1).toNat) } := by
  rw [attemptFails_eq]
  split_ifs with h
  · rw [raiseErr_gp, failedOnce_gp, decide_eq_true h, Bool.or_true]
  · rw [failedOnce_gp, decide_eq_false h, Bool.or_false]

theorem preg_attemptFails (s : State) {q : Page} {k : Nat} (hk : k < 0x1000) (h : q = .gp → errReg k = false) (h2 : q = .ep → k ≠ 0xA00) :
    preg (attemptFails s) q k = preg s q k := by
  have h1 : preg (failedOnce s) q k = preg s q k := preg_raiseErr _ _ _ hk h h2
  rw [attemptFails_eq]
  split_ifs
  · rw [preg_raiseErr _ _ _ hk h h2, preg_update, h1]
  · exact h1

theorem attemptFails_bit (s : State) : bit (preg (attemptFails s) .gp 0x10) 0 = true := by
  have h1 : bit (preg (failedOnce s) .gp 0x10) 0 = true := raiseErr_bit _ _ _ (by omega)
  rw [attemptFails_eq]
  split_ifs
  · rw [preg_raiseErr_stat, bit_or, preg_update, h1, Bool.true_or]
  · exact h1

/-- An attempt counted, its result kept, and the nonce used up. -/
def attemptCounted (s : State) : State :=
  { cntPreg s .gp 0x170 1 with gp := { s.gp with result := BitVec.ofNat 3 (attemptResult s), nonceOk := false } }

/-- The attempt itself: counted, and what its result brings. -/
def attempted (s : State) : State :=
  if attemptResult s = 1 then attemptOpens (attemptCounted s) (gpLevel s)
  else if attemptResult s = 2 ∨ attemptResult s = 3 then attemptFails (attemptCounted s) else attemptCounted s

theorem submitAct_eq (s : State) (j : Bool) :
    submitAct s j = goDone (offerGp (setPregs (setPregs (attempted s) .gp 0x130 0 4) .gp 0x140 0 12) (gpLevel s) (attemptResult s) j
      (if 2 ≤ gpLevel s ∧ s.gp.nonceOk = true then s.gp.nonce.toNat else 0)) .gp 0x100 9 := rfl

theorem attempted_gp (s : State) : (attempted s).gp = attemptGp s.gp (attemptResult s) (gpLevel s) := by
  unfold attempted attemptGp
  by_cases h1 : attemptResult s = 1
  · rw [if_pos h1, if_pos h1]
    simp [attemptOpens, attemptCounted, h1]
  · rw [if_neg h1, if_neg h1]
    by_cases h2 : attemptResult s = 2 ∨ attemptResult s = 3
    · rw [if_pos h2, if_pos h2, attemptFails_gp]
      rfl
    · rw [if_neg h2, if_neg h2]
      rfl

theorem preg_attempted (s : State) {k : Nat} (hk : k < 0x1000) (h : errReg k = false) :
    preg (attempted s) .gp k = if k = 0x170 then satAdd (preg s .gp 0x170) 1 else preg s .gp k := by
  have hcounted : preg (attemptCounted s) .gp k = if k = 0x170 then satAdd (preg s .gp 0x170) 1 else preg s .gp k := by
    simp [attemptCounted, hk]
  rw [← hcounted]
  unfold attempted
  by_cases h1 : attemptResult s = 1
  · rw [if_pos h1]
    rfl
  · rw [if_neg h1]
    by_cases h2 : attemptResult s = 2 ∨ attemptResult s = 3
    · rw [if_pos h2, preg_attemptFails _ hk (fun _ => h) (by simp)]
    · rw [if_neg h2]

theorem offerGp_keeps' (s : State) (a b : Nat) (j : Bool) (n : Nat) : Keeps [] s (offerGp s a b j n) := offerGp_keeps _ _ _ _ (Keeps.refl _ s)

/-- What every SUBMIT leaves: the gangplank after the attempt, the attempt counted, password and response cleared, SUBMIT done. -/
theorem submitAct_after (s : State) (j : Bool) :
    (submitAct s j).gp = attemptGp s.gp (attemptResult s) (gpLevel s) ∧ preg (submitAct s j) .gp 0x170 = satAdd (preg s .gp 0x170) 1 ∧
      (∀ k : Fin 16, preg (submitAct s j) .gp (0x130 + 4 * k.val) = 0) ∧ bit (preg (submitAct s j) .gp 0x100) 9 = false ∧
      preg (submitAct s j) .gp 0x10 = preg (attempted s) .gp 0x10 := by
  set u := setPregs (setPregs (attempted s) .gp 0x130 0 4) .gp 0x140 0 12 with hu
  have hpreg : ∀ k, k < 0x1000 → k ≠ 0x100 → k ≠ 0x30 → k ≠ 0x40 → preg (submitAct s j) .gp k = preg u .gp k := fun k hk h1 h2 h3 => by
    rw [submitAct_eq, preg_goDone _ (by omega) hk (fun _ => ⟨h1, h2, h3⟩) (by simp), (offerGp_keeps' _ _ _ _ _).preg (by decide) hk (by simp) (by simp)]
  have hout : ∀ k, k < 0x1000 → k < 0x130 ∨ 0x170 ≤ k → preg u .gp k = preg (attempted s) .gp k := fun k hk h => by
    rw [hu, preg_setPregs_out (by omega) hk (by omega), preg_setPregs_out (by omega) hk (by omega)]
  refine ⟨?_, ?_, fun k => ?_, ?_, ?_⟩
  · rw [submitAct_eq, goDone_gp _ _ _ (by omega), (offerGp_keeps' _ _ _ _ _ .gp (by decide) : (offerGp _ _ _ _ _).gp = _), setPregs_gp, setPregs_gp,
      attempted_gp]
  · rw [hpreg _ (by omega) (by omega) (by omega) (by omega), hout _ (by omega) (by omega), preg_attempted _ (by omega) rfl, if_pos rfl]
  · have hk := k.isLt
    rw [hpreg _ (by omega) (by omega) (by omega) (by omega), hu]
    by_cases h4 : k.val < 4
    · rw [preg_setPregs_out (by omega) (by omega) (by omega), preg_setPregs_zero (by omega) h4]
    · rw [show 0x130 + 4 * k.val = 0x140 + 4 * (k.val - 4) by omega, preg_setPregs_zero (by omega) (by omega)]
  · rw [submitAct_eq, preg_goDone_same _ _ (by omega) (by omega) (by omega) (by simp), bit_andNot_one32 _ (by omega)]
  · rw [hpreg _ (by omega) (by omega) (by omega) (by omega), hout _ (by omega) (by omega)]

section
variable {s : State} {v : W32} {j : Bool} (hpath : j = false ∨ s.gp.tap = true)
include hpath

/-- GP_CTRL written with SUBMIT alone: the attempt, on the written state. -/
theorem submit_runs (hs : Starts s .gp 0x100 9 v) (h8 : bit v 8 = false) (h10 : bit v 10 = false) :
    Runs (.submit v j) s [.page .gp, .staged, .gp] fun t =>
      t.gp = attemptGp (gpWritten s v j).gp (attemptResult (gpWritten s v j)) (gpLevel (gpWritten s v j)) ∧
      preg t .gp 0x170 = satAdd (preg s .gp 0x170) 1 ∧ (∀ k : Fin 16, preg t .gp (0x130 + 4 * k.val) = 0) ∧ bit (preg t .gp 0x100) 9 = false ∧
      preg t .gp 0x10 = preg (attempted (gpWritten s v j)) .gp 0x10 := by
  have hu := viaPath_unlocked (j := j) hs.1
  have hs' : Starts (viaPath s j) .gp 0x100 9 v := ⟨hu, by rw [preg_viaPath]; exact hs.2.1, hs.2.2⟩
  have hact : gpPath s v j = submitAct (gpWritten s v j) j := by
    rw [gpPath_eq v hpath]
    unfold gpCtrlWrite
    simp only [started_one gpCtrl_plain rfl (by omega) 0 hs', started_zero gpCtrl_plain hu rfl (by omega) 0 h8,
      started_zero gpCtrl_plain hu rfl (by omega) 0 h10, if_true, Bool.false_eq_true, if_false]
    rfl
  obtain ⟨hgp, hcount, hclear, hdone, herr⟩ := submitAct_after (gpWritten s v j) j
  refine ⟨_, congrArg Host.Outcome.next hact, ?_, hgp, ?_, hclear, hdone, herr⟩
  · exact ((gpWritten_keeps hs.1).mono (by decide)).trans (submitAct_keeps _ (by decide) (Keeps.refl _ _))
  · rw [hcount, preg_gpWritten hs.1 (by omega) (by simp) (by simp)]

end

theorem attemptResult_password {s : State} {v : W32} {j : Bool} (hu : Unlocked s .gp) (hl : s.gp.locked = false) (hlev : fld v 0 2 = 1) :
    attemptResult (gpWritten s v j) =
      if Config.passwordDigestMatches (serial s) (BitVec.ofNat 128 (pregs s .gp 0x130 4)) = true then 1 else 2 := by
  have hlocked : (gpWritten s v j).gp.locked = false := by rw [gpWritten_gp]; exact hl
  unfold attemptResult
  simp [hlocked, gpWritten_level hu (by omega : 1 ≤ fld v 0 2), hlev, gpWritten_serial hu, gpWritten_pregs hu]

theorem attemptResult_response {s : State} {v : W32} {j : Bool} (hu : Unlocked s .gp) (hl : s.gp.locked = false) (hlev : 2 ≤ fld v 0 2) :
    attemptResult (gpWritten s v j) =
      if s.gp.nonceOk = false then 4
      else if Config.responseMatches s.gp.nonce (serial s) (BitVec.ofNat 8 (fld v 0 2)) (BitVec.ofNat 384 (pregs s .gp 0x140 12)) = true then 1
      else 3 := by
  have hlocked : (gpWritten s v j).gp.locked = false := by rw [gpWritten_gp]; exact hl
  have hnonce : (gpWritten s v j).gp.nonce = s.gp.nonce := by rw [gpWritten_gp]
  have hok : (gpWritten s v j).gp.nonceOk = s.gp.nonceOk := by rw [gpWritten_gp]
  unfold attemptResult
  simp only [hlocked, hnonce, hok, gpWritten_level hu (by omega : 1 ≤ fld v 0 2), gpWritten_serial hu]
  rw [if_neg (by decide), if_neg (by omega), if_neg (by omega), gpWritten_pregs hu (by omega) (by omega)]

/-! ## CHALLENGE and CLOSE -/

theorem challengeAct_eq (s : State) :
    challengeAct s = goDone (setPregs { s with fresh := s.fresh + 1, gp := { s.gp with nonce := Config.freeNonce s.fresh, nonceOk := true } } .gp 0x110
      (Config.freeNonce s.fresh).toNat 8) .gp 0x100 8 := rfl

theorem challengeAct_gp (s : State) : (challengeAct s).gp = { s.gp with nonce := Config.freeNonce s.fresh, nonceOk := true } := by
  rw [challengeAct_eq, goDone_gp _ _ _ (by omega), setPregs_gp]

theorem challengeAct_nonce (s : State) : pregs (challengeAct s) .gp 0x110 8 = (Config.freeNonce s.fresh).toNat := by
  have hread : ∀ u : State, pregs (goDone u .gp 0x100 8) .gp 0x110 8 = pregs u .gp 0x110 8 := fun u =>
    pregs_congr fun k h1 h2 => preg_goDone u (by omega) (by omega) (fun _ => by omega) (by simp)
  rw [challengeAct_eq, hread, pregs_setPregs (by omega) (Config.freeNonce s.fresh).isLt]

theorem closeAct_gp (s : State) (j : Bool) : (closeAct s j).gp = { s.gp with level := 0, factory := false } := by
  have hoffer : ∀ u : State, (offerGp u 0 1 j 0).gp = u.gp := fun u => (offerGp_keeps' u 0 1 j 0) .gp (by decide)
  unfold closeAct
  extract_lets
  rw [goDone_gp _ _ _ (by omega)]
  split_ifs
  · rfl
  · rw [hoffer]

/-- Settles O54: every SUBMIT is `attemptGp` of its result, whatever the free functions answer. -/
theorem gangplankAttempts : Obligations.GangplankAttempts := by
  refine ⟨?challenge, ?password, ?response, ?noNonce, ?lockedOut, ?close, ?expiry⟩
  case challenge =>
    intro s v j hpath hs h9 h10
    have hu := viaPath_unlocked (j := j) hs.1
    have hs' : Starts (viaPath s j) .gp 0x100 8 v := ⟨hu, by rw [preg_viaPath]; exact hs.2.1, hs.2.2⟩
    have hact : gpPath s v j = challengeAct (gpWritten s v j) := by
      rw [gpPath_eq v hpath]
      unfold gpCtrlWrite
      simp only [started_one gpCtrl_plain rfl (by omega) 0 hs', started_zero gpCtrl_plain hu rfl (by omega) 0 h9,
        started_zero gpCtrl_plain hu rfl (by omega) 0 h10, if_true, Bool.false_eq_true, if_false]
      rfl
    have hfresh : (gpWritten s v j).fresh = s.fresh := (pageWrite_fresh gpCtrl_plain hu _ _).trans (viaPath_fresh s j)
    have hgp := challengeAct_gp (gpWritten s v j)
    rw [hfresh, gpWritten_gp] at hgp
    refine ⟨_, congrArg Host.Outcome.next hact, ?_, by rw [hgp], by rw [hgp], ?_, by rw [hgp], ?_⟩
    · exact ((gpWritten_keeps hs.1).mono (by decide)).trans (challengeAct_keeps (by decide) (Keeps.refl _ _))
    · rw [hgp, challengeAct_nonce, hfresh]
    · rw [challengeAct_eq, preg_goDone_same _ _ (by omega) (by omega) (by omega) (by simp), bit_andNot_one32 _ (by omega)]
  case password =>
    intro s v j hpath hs h8 h10 hl hlev
    refine (submit_runs hpath hs h8 h10).imp fun t ht => ?_
    obtain ⟨hgp, hcount, hclear, hdone, herr⟩ := ht
    rw [gpWritten_level hs.1 (by omega), hlev, attemptResult_password hs.1 hl hlev, gpWritten_gp] at hgp
    refine ⟨?_, hcount, hclear, hdone, ?_⟩
    · rw [hgp]
      unfold attemptGp
      split_ifs <;> rfl
    · have hstat : preg (gpWritten s v j) .gp 0x10 = preg s .gp 0x10 := preg_gpWritten hs.1 (by omega) (by simp) (by simp)
      by_cases hmatch : Config.passwordDigestMatches (serial s) (BitVec.ofNat 128 (pregs s .gp 0x130 4)) = true
      · simp only [hmatch, if_true] at hgp ⊢
        rw [hgp]
        refine ⟨rfl, rfl, rfl, hl, ?_⟩
        rw [herr, attempted, attemptResult_password hs.1 hl hlev, if_pos hmatch, if_pos rfl]
        exact (preg_setPreg_off _ _ _ (by omega)).trans hstat
      · simp only [hmatch, if_false, Bool.false_eq_true] at hgp ⊢
        rw [hgp]
        refine ⟨rfl, rfl, rfl, by simp [attemptGp, hl], ?_⟩
        rw [herr, attempted, attemptResult_password hs.1 hl hlev, if_neg hmatch, if_neg (by omega), if_pos (.inl rfl)]
        exact attemptFails_bit _
  case response =>
    intro s v j hpath hs h8 h10 hl hlev hok
    refine (submit_runs hpath hs h8 h10).imp fun t ht => ?_
    obtain ⟨hgp, hcount, hclear, hdone, -⟩ := ht
    rw [gpWritten_level hs.1 (by omega), attemptResult_response hs.1 hl hlev, hok, gpWritten_gp] at hgp
    have hlev1 : fld v 0 2 ≠ 1 := by omega
    by_cases hmatch : Config.responseMatches s.gp.nonce (serial s) (BitVec.ofNat 8 (fld v 0 2)) (BitVec.ofNat 384 (pregs s .gp 0x140 12)) = true
    · simp only [hmatch, if_true, Bool.true_eq_false, if_false] at hgp ⊢
      rw [hgp]
      exact ⟨rfl, hcount, hclear, hdone, rfl, if_neg hlev1, rfl, rfl⟩
    · simp only [hmatch, if_false, Bool.true_eq_false, Bool.false_eq_true] at hgp ⊢
      rw [hgp]
      exact ⟨rfl, hcount, hclear, hdone, rfl, rfl, rfl, rfl⟩
  case noNonce =>
    intro s v j hpath hs h8 h10 hl hlev hok
    refine (submit_runs hpath hs h8 h10).imp fun t ht => ?_
    obtain ⟨hgp, hcount, hclear, hdone, -⟩ := ht
    rw [attemptResult_response hs.1 hl hlev, if_pos hok, gpWritten_gp] at hgp
    rw [hgp]
    exact ⟨rfl, hcount, hclear, hdone, rfl, rfl, rfl⟩
  case lockedOut =>
    intro s v j hpath hs h8 h10 hl
    refine (submit_runs hpath hs h8 h10).imp fun t ht => ?_
    obtain ⟨hgp, hcount, hclear, hdone, -⟩ := ht
    rw [attemptResult_locked ((congrArg Gangplank.locked (gpWritten_gp s v j)).trans hl), gpWritten_gp] at hgp
    rw [hgp]
    exact ⟨rfl, hcount, hclear, hdone, rfl, rfl, rfl, hl⟩
  case close =>
    intro s v j hpath hs h8 h9
    have hu := viaPath_unlocked (j := j) hs.1
    have hs' : Starts (viaPath s j) .gp 0x100 10 v := ⟨hu, by rw [preg_viaPath]; exact hs.2.1, hs.2.2⟩
    have hact : gpPath s v j = closeAct (gpWritten s v j) j := by
      rw [gpPath_eq v hpath]
      unfold gpCtrlWrite
      simp only [started_one gpCtrl_plain rfl (by omega) 0 hs', started_zero gpCtrl_plain hu rfl (by omega) 0 h8,
        started_zero gpCtrl_plain hu rfl (by omega) 0 h9, if_true, Bool.false_eq_true, if_false]
      rfl
    have hgp := closeAct_gp (gpWritten s v j) j
    rw [gpWritten_gp] at hgp
    refine ⟨_, congrArg Host.Outcome.next hact, ?_, by rw [hgp], by rw [hgp], by rw [hgp], ?_⟩
    · exact ((gpWritten_keeps hs.1).mono (by decide)).trans (closeAct_keeps _ (by decide) (Keeps.refl _ _))
    · unfold closeAct
      rw [preg_goDone_same _ _ (by omega) (by omega) (by omega) (by simp), bit_andNot_one32 _ (by omega)]
  case expiry =>
    intro s
    exact ⟨_, rfl, put_gp_keeps _ (by decide) (Keeps.refl _ s), rfl⟩

end Sys2Proof
end

section
/-! PROOFS. JTAG instructions and the debug windows (13 R565, R566, R581; 14 R594). -/

namespace Sys2Proof

open Sys2Proof.Machine

theorem loadIr_keeps' (s : State) (c : Byte) : Keeps [.gp] s (loadIr s c) := put_gp_keeps _ (by decide) (Keeps.refl _ s)

theorem gpPw_plain : PlainReg .gp 0x130 (rs 0x130 4 4 0 (all .rw)) := {}

/-- A register of one field that takes every word. -/
theorem preg_pageWrite_all {s : State} {p : Page} {o : Nat} {row : RegRow} (R : PlainReg p o row) (hf : row.flds = all .rw) (hu : Unlocked s p)
    (v same : W32) : preg (pageWrite s p o v same).st p o = v := by
  rw [preg_pageWrite_same R hu, written, hf]
  simp only [all, List.foldl_cons, List.foldl_nil, wrField_all]

/-- GP_IDCODE read through BAR0 or JTAG is the register (13 R569). -/
theorem bar0Read_idcode (s : State) : bar0Read s (pageBase .gp + 0x174) = preg s .gp 0x174 := by
  have hserved : servedPage s (pageBase .gp + 0x174) = some .gp := by
    have hpage : pageAt (pageBase .gp + 0x174) = some .gp := by decide
    have hlist : [Page.dev, .bt, .gp, .lb].contains .gp = true := by decide
    simp only [servedPage, hpage, hlist, Bool.not_true, Bool.and_false, Bool.false_eq_true, if_false]
  have hview : blockView s .gp 0x174 = none := rfl
  have hhi : isHi (rowOf .gp) 0x174 = false := by decide
  have hrow : (rowOf .gp 0x174).isSome = true := by decide
  unfold bar0Read liveReg
  simp only [hserved, Nat.add_sub_cancel_left, hhi, hrow, hview, Bool.false_eq_true, if_false, if_true]
  rfl

/-- An access that nothing serves is recorded with its address and its direction (03 R80). -/
theorem stray_recorded (s : State) (off : BitVec 26) (w : Bool) :
    preg (stray s off.toNat w) .dev 0x11C = BitVec.ofNat 32 (off.toNat / 4 * 4 + b2n w * 2) ∧
      preg (stray s off.toNat w) .dev 0x120 = satAdd (preg s .dev 0x120) 1 := by
  have hoff : off.toNat % 2 ^ 26 = off.toNat := Nat.mod_eq_of_lt off.isLt
  unfold stray
  rw [hoff]
  simp

theorem stray_keeps' (s : State) (off : Nat) (w : Bool) : Keeps [.page .dev] s (stray s off w) := stray_keeps _ _ (by decide) (Keeps.refl _ s)

/-- Settles O55: an instruction changes the TAP's own register; a window is reached as far as the level in force opens it. -/
theorem jtagAndWindows : Obligations.JtagAndWindows := by
  refine ⟨?extest, ?sample, ?idcode, ?bypass, ?off, ?trst, ?gpWrite, ?gpRead, ?dbgRead, ?dbgShut, ?dbgWrite, ?shutRead, ?shutWrite, ?openRead,
    ?observeWrite, ?openWrite⟩
  case extest =>
    intro s ht
    exact ⟨loadIr s 0, congrArg Host.Outcome.next (if_pos ht), loadIr_keeps' s 0, rfl⟩
  case sample =>
    intro s ht
    exact ⟨loadIr s 2, congrArg Host.Outcome.next (if_pos ht), loadIr_keeps' s 2, rfl⟩
  case idcode =>
    intro s ht
    exact ⟨_, congrArg Host.Outcome.next (if_pos ht), emit_keeps _ (loadIr_keeps' s 1), rfl, rfl⟩
  case bypass =>
    intro s c ht hc
    have hc' : ([0x00, 0x01, 0x02, 0x20, 0x21] : List Byte).contains c = false := by simpa using hc
    refine ⟨loadIr s c, congrArg Host.Outcome.next ?_, loadIr_keeps' s c, rfl, rfl⟩
    rw [if_neg (by rw [hc']; decide)]
    exact if_pos ht
  case off =>
    intro s ht
    exact ⟨s, congrArg Host.Outcome.next (if_neg (by simp [ht])), Keeps.refl _ s, rfl⟩
  case trst =>
    intro s l
    refine ⟨trstLevel s l, rfl, trstLevel_keeps _ (by decide) (Keeps.refl _ s), ?_, ?_⟩
    · unfold trstLevel
      split_ifs <;> rfl
    · unfold trstLevel
      split_ifs <;> rfl
  case gpWrite =>
    intro s v ht hu
    have hu' : Unlocked (loadIr s 0x20) .gp := hu
    have hact : actWrite (loadIr s 0x20) .gp 0x130 v = none := rfl
    refine ⟨(pageWrite (loadIr s 0x20) .gp 0x130 v).st, congrArg Host.Outcome.next ((if_pos ht).trans ?_), ?_, ?_, ?_⟩
    · show pageRegWrite (loadIr s 0x20) .gp 0x130 v = _
      unfold pageRegWrite
      rw [if_neg (by omega), if_neg (by omega), hact]
    · exact pageWrite_keeps_plain gpPw_plain hu' _ _ (by decide) ((loadIr_keeps' s _).mono (by decide))
    · exact preg_pageWrite_all gpPw_plain rfl hu' v _
    · exact pageWrite_gp _ _ _ _ (by omega)
  case gpRead =>
    intro s ht
    refine ⟨emit (loadIr s 0x20) (.readData (preg s .gp 0x174)), congrArg Host.Outcome.next ((if_pos ht).trans ?_), emit_keeps _ (loadIr_keeps' s _), rfl,
      rfl⟩
    show emit (loadIr s 0x20) (.readData (bar0Read (loadIr s 0x20) (pageBase .gp + 0x174))) = _
    rw [bar0Read_idcode]
    rfl
  case dbgRead =>
    intro s off ht hg
    refine ⟨debugRead (loadIr s 0x21) off.toNat, (if_neg (by simp [ht])).trans (congrArg Host.Outcome.next (if_neg hg)),
      debugRead_keeps _ (loadIr_keeps' s _), rfl, rfl⟩
  case dbgShut =>
    intro s off ht hg
    exact ⟨loadIr s 0x21, (if_neg (by simp [ht])).trans (congrArg Host.Outcome.next (if_pos hg)), loadIr_keeps' s _, rfl, rfl⟩
  case dbgWrite =>
    intro s off v ht hg
    exact ⟨debugWrite (loadIr s 0x21) off.toNat v, (if_neg (by simp [ht])).trans (congrArg Host.Outcome.next (if_pos hg)),
      debugWrite_keeps _ _ (by decide) (loadIr_keeps' s _), rfl, rfl⟩
  case shutRead =>
    intro s off hoff hg
    obtain ⟨haddr, hcount⟩ := stray_recorded s off false
    exact ⟨emit (stray s off.toNat false) (.readData 0), (if_neg (Nat.not_lt.2 hoff)).trans (congrArg Host.Outcome.next (if_pos hg)),
      emit_keeps _ (stray_keeps' s _ _), rfl, haddr, hcount⟩
  case shutWrite =>
    intro s off v hoff hg
    obtain ⟨haddr, hcount⟩ := stray_recorded s off true
    refine ⟨stray s off.toNat true, (if_neg (Nat.not_lt.2 hoff)).trans (congrArg Host.Outcome.next ?_), stray_keeps' s _ _, rfl, haddr, hcount⟩
    rw [if_neg (by rw [hg]; decide), if_pos hg]
  case openRead =>
    intro s off hoff hg
    exact ⟨debugRead s off.toNat, (if_neg (Nat.not_lt.2 hoff)).trans (congrArg Host.Outcome.next (if_neg hg)), debugRead_keeps _ (Keeps.refl _ s), rfl⟩
  case observeWrite =>
    intro s off v hoff hg
    refine ⟨s, (if_neg (Nat.not_lt.2 hoff)).trans (congrArg Host.Outcome.next ?_), Keeps.refl _ s, rfl⟩
    rw [if_neg (by rw [hg]; decide), if_neg (by rw [hg]; decide)]
  case openWrite =>
    intro s off v hoff hg
    exact ⟨debugWrite s off.toNat v, (if_neg (Nat.not_lt.2 hoff)).trans (congrArg Host.Outcome.next (if_pos hg)),
      debugWrite_keeps _ _ (by decide) (Keeps.refl _ s), rfl, rfl⟩

end Sys2Proof
end

section
/-! PROOFS. The safe state, the record queue, the watchdog and ALIVE, injection (12 R513, R520 to R529, R537, R548). -/

namespace Sys2Proof

open Sys2Proof.Machine

/-! ## The collector where it is no listed part -/

/-- The collector but for the messages on their way to it. -/
abbrev quietFc (s : State) : Collector := { s.fc with coming := [] }

theorem Keeps.fc {P : List Part} {s t : State} (h : Keeps P s t) (hf : Part.fc ∉ P) : quietFc t = quietFc s := h .fc hf

theorem Keeps.queue {P : List Part} {s t : State} (h : Keeps P s t) (hf : Part.fc ∉ P) : t.fc.queue = s.fc.queue :=
  (congrArg Collector.queue (h.fc hf) :)

theorem Keeps.recNo {P : List Part} {s t : State} (h : Keeps P s t) (hf : Part.fc ∉ P) : t.fc.recNo = s.fc.recNo :=
  (congrArg Collector.recNo (h.fc hf) :)

theorem Keeps.safe {P : List Part} {s t : State} (h : Keeps P s t) (hf : Part.fc ∉ P) : t.fc.safe = s.fc.safe :=
  (congrArg Collector.safe (h.fc hf) :)

theorem Keeps.aliveStopped {P : List Part} {s t : State} (h : Keeps P s t) (hf : Part.fc ∉ P) : t.fc.aliveStopped = s.fc.aliveStopped :=
  (congrArg Collector.aliveStopped (h.fc hf) :)

theorem Keeps.portsToFence {P : List Part} {s t : State} (h : Keeps P s t) (hf : Part.fc ∉ P) : t.fc.portsToFence = s.fc.portsToFence :=
  (congrArg Collector.portsToFence (h.fc hf) :)

theorem Keeps.abortIds {P : List Part} {s t : State} (h : Keeps P s t) (hf : Part.fc ∉ P) : t.fc.abortIds = s.fc.abortIds :=
  (congrArg Collector.abortIds (h.fc hf) :)

/-! ## The freeze stays on while it is entered -/

theorem markDiscard_on (z : Frz) (m : Nat) (core : Fin 256) : (markDiscard z m core).on = z.on := by
  unfold markDiscard
  split_ifs <;> rfl

theorem listDiscard_on (s : State) (w : HeldWrite) : (listDiscard s w).frz.on = s.frz.on := by
  unfold listDiscard
  extract_lets line lo mask e core z z1 s2 s1
  have hz1 : z1.on = s.frz.on := by
    refine Eq.trans ?_ (markDiscard_on s.frz w.master.toNat core)
    simp only [z1]
    split <;> rfl
  have hs1 : s1.frz.on = z1.on := by
    simp only [s1]
    split_ifs <;> rfl
  rw [offer_frz, hs1, hz1]

theorem discardWrite_on (s : State) (w : HeldWrite) : (discardWrite s w).frz.on = s.frz.on := by
  have hcores : ∀ u : State, (loseSent u w).frz = u.frz := fun u => by
    unfold loseSent
    extract_lets
    split_ifs <;> rfl
  unfold discardWrite
  rw [hcores, listDiscard_on]

theorem loseStores_on (s : State) (id : Fin 256) : (loseStores s id).frz.on = s.frz.on := by
  unfold loseStores
  extract_lets c cl gone s1
  split_ifs
  · exact List.foldlRecOn (motive := fun t : State => t.frz.on = s.frz.on) _ _ rfl fun t ht a _ => (listDiscard_on t _).trans ht
  · rfl

theorem enterFreeze_on (s : State) (cause : Nat) : (enterFreeze s cause).frz.on = true := by
  have hwait : ∀ u : State, (refuseWaiting u).frz = u.frz := fun u => (refuseWaiting_keeps (by decide) (Keeps.refl [.page .ep, .lw, .slices] u)) .frz (by decide)
  unfold enterFreeze
  split_ifs with hon
  · exact hon
  · rw [raiseInt_frz, hwait]
    refine List.foldlRecOn (motive := fun t : State => t.frz.on = true) _ _ ?_ fun t ht id _ => (loseStores_on t id).trans ht
    exact List.foldlRecOn (motive := fun t : State => t.frz.on = true) _ _ rfl fun t ht w _ => (discardWrite_on t w).trans ht

/-! ## ABORT on every port -/

/-- A port with one more word in its replay buffer, if it is UP (10 R430). -/
theorem sendReliable_port (s : State) (n m : Fin 8) (w : BitVec 128) :
    (sendReliable s n w).port m = if m = n ∧ (s.port n).st = .up then { s.port n with replayBuf := (s.port n).replayBuf ++ [.word w] } else s.port m := by
  unfold sendReliable
  extract_lets p s1
  by_cases hup : p.st = .up
  · rw [if_pos hup]
    by_cases hm : m = n
    · subst hm
      rw [if_pos ⟨rfl, hup⟩]
      exact setPort_port_same _ _ _
    · rw [if_neg (fun e => hm e.1)]
      exact setPort_port_other _ _ hm
  · rw [if_neg hup, if_neg (fun e => hup e.2)]
    have hports : (raiseErr s1 (.xl n) 11 0).ports = s.ports := (raiseErr_ports _ _ _ _).trans (offer_ports _ _ _ _ _)
    exact congrArg (·.get m) hports

/-- One port's part of sending an ABORT. -/
def abortOnPort (w : BitVec 128) (t : State) (n : Fin 8) : State := if (t.port n).st = .up then sendReliable t n w else t

/-- A port with an ABORT, if it was UP. -/
def abortedPort (w : BitVec 128) (p : Port) : Port := if p.st = .up then { p with replayBuf := p.replayBuf ++ [.word w] } else p

theorem abortOnPort_port (w : BitVec 128) (t : State) (n m : Fin 8) :
    (abortOnPort w t n).port m = if m = n then abortedPort w (t.port n) else t.port m := by
  unfold abortOnPort abortedPort
  by_cases hup : (t.port n).st = .up
  · rw [if_pos hup, if_pos hup, sendReliable_port]
    by_cases hm : m = n <;> simp [hm, hup]
  · rw [if_neg hup, if_neg hup]
    split_ifs with hm
    · rw [hm]
    · rfl

theorem foldl_abortOnPort (w : BitVec 128) (l : List (Fin 8)) (hl : l.Nodup) (t : State) (n : Fin 8) :
    (l.foldl (abortOnPort w) t).port n = if n ∈ l then abortedPort w (t.port n) else t.port n := by
  induction l generalizing t with
  | nil => rfl
  | cons a l ih =>
    rw [List.nodup_cons] at hl
    rw [List.foldl_cons, ih hl.2, abortOnPort_port]
    by_cases hna : n = a
    · subst hna
      simp [hl.1]
    · simp [hna]

theorem sendAbort_eq (s : State) (origin : Byte) (step : W32) (cause : Byte) :
    sendAbort s origin step cause none =
      { (List.finRange 8).foldl (abortOnPort (abortWord origin step cause)) s with
        fc := { ((List.finRange 8).foldl (abortOnPort (abortWord origin step cause)) s).fc with
          abortIds := ((origin, step) :: ((List.finRange 8).foldl (abortOnPort (abortWord origin step cause)) s).fc.abortIds).take 16 } } := by
  have hone : (fun t n => if (t.port n).st = .up ∧ some n ≠ none then sendReliable t n (abortWord origin step cause) else t) =
      abortOnPort (abortWord origin step cause) := by
    funext t n
    simp [abortOnPort]
  unfold sendAbort
  rw [hone]

/-- An ABORT stands in the replay buffer of every port that was UP (12 R520). -/
theorem sendAbort_port (s : State) (origin : Byte) (step : W32) (cause : Byte) (n : Fin 8) :
    (sendAbort s origin step cause none).port n = abortedPort (abortWord origin step cause) (s.port n) := by
  rw [sendAbort_eq, port_update, foldl_abortOnPort _ _ (List.nodup_finRange 8), if_pos (List.mem_finRange n)]

theorem abortedPort_replay (w : BitVec 128) (p : Port) : p.st ≠ .up ∨ (abortedPort w p).replayBuf.length = p.replayBuf.length + 1 := by
  unfold abortedPort
  split_ifs with h
  · simp
  · exact .inl h

/-- Of the collector an ABORT changes the list of ABORTs sent, and nothing else. -/
theorem sendAbort_fc (s : State) (origin : Byte) (step : W32) (cause : Byte) :
    quietFc (sendAbort s origin step cause none) = { quietFc s with abortIds := ((origin, step) :: s.fc.abortIds).take 16 } := by
  have hfold : Keeps [.page .xl, .ports] s ((List.finRange 8).foldl (abortOnPort (abortWord origin step cause)) s) :=
    keeps_foldl (fun t n ht => keeps_ite (fun _ => sendReliable_keeps _ _ (by decide) ht) (fun _ => ht)) _ (Keeps.refl _ s)
  have hfc := hfold.fc (by decide)
  have hids := hfold.abortIds (by decide)
  rw [sendAbort_eq]
  show { quietFc ((List.finRange 8).foldl (abortOnPort (abortWord origin step cause)) s) with
    abortIds := ((origin, step) :: ((List.finRange 8).foldl (abortOnPort (abortWord origin step cause)) s).fc.abortIds).take 16 } = _
  rw [hfc, hids]

/-! ## Entering the safe state -/

theorem fatalSnap_keeps' (s : State) : Keeps [.page .lb, .lb] s (fatalSnap s) := fatalSnap_keeps (by decide) (Keeps.refl _ s)

/-- What entering the safe state does (12 R520). -/
theorem enterSafe_after {s : State} (cause : Nat) (h : s.fc.safe = false) :
    quietFc (enterSafe s cause) = { quietFc s with safe := true, portsToFence := 0xFF, aliveStopped := true
                                                   abortIds := ((BitVec.ofNat 8 (fleetId s), s.tide.step.setWidth 32) :: s.fc.abortIds).take 16 } ∧
      (enterSafe s cause).frz.on = true ∧
      ∀ n : Fin 8, (s.port n).st ≠ .up ∨ ((enterSafe s cause).port n).replayBuf.length = (s.port n).replayBuf.length + 1 := by
  set s0 : State := { s with fc := { s.fc with safe := true, portsToFence := 0xFF, aliveStopped := true } } with hs0
  set s1 := withAlive (fun t => { t with fc := { t.fc with safe := true, portsToFence := 0xFF, aliveStopped := true } }) s with hs1
  have hk1 : Keeps [] s0 s1 := by
    rw [hs1]
    unfold withAlive
    exact keeps_ite (fun _ => Keeps.refl _ _) (fun _ => emit_keeps _ (Keeps.refl _ _))
  have hk2 : Keeps [.page .ep, .cores, .slices, .lw, .cxl, .frz] s1 (enterFreeze s1 3) := enterFreeze_keeps _ (by decide) (Keeps.refl _ s1)
  set s2 := sendAbort (enterFreeze s1 3) (BitVec.ofNat 8 (fleetId s)) (s.tide.step.setWidth 32) (Config.abortCause cause) none with hs2
  have heq : enterSafe s cause = fatalSnap s2 := by
    unfold enterSafe
    rw [if_neg (by simp [h])]
  have hk3 := fatalSnap_keeps' s2
  refine ⟨?_, ?_, fun n => ?_⟩
  · rw [heq, hk3.fc (by decide), hs2, sendAbort_fc, hk2.fc (by decide), hk2.abortIds (by decide), hk1.fc (by decide), hk1.abortIds (by decide)]
  · have habort : s2.frz = (enterFreeze s1 3).frz := (sendAbort_keeps (P := [.page .xl, .ports, .fc]) _ _ _ _ (by decide) (Keeps.refl _ _)) .frz (by decide)
    rw [heq, (hk3 .frz (by decide) : (fatalSnap s2).frz = s2.frz), habort, enterFreeze_on]
  · have hport : (enterSafe s cause).port n = abortedPort (abortWord (BitVec.ofNat 8 (fleetId s)) (s.tide.step.setWidth 32) (Config.abortCause cause))
        (s.port n) := by
      rw [heq, hk3.port (by decide), hs2, sendAbort_port, hk2.port (by decide), hk1.port (by decide)]
      rfl
    rw [hport]
    exact abortedPort_replay _ _

end Sys2Proof
end

section
/-! PROOFS. What a crossing port loses when it leaves UP (10 R416, R431; 12 R520). -/

namespace Sys2Proof

open Sys2Proof.Machine

/-- A register of a crossing page that losing traffic leaves alone. -/
abbrev xlKept (k : Nat) : Prop := k < 0x1000 ∧ errReg k = false ∧ k ≠ 0x1A0 ∧ k ≠ 0x100 ∧ k ≠ 0x40

theorem freeBerth_keeps' (s : State) (n : Fin 8) (pool : Fin 3) : Keeps [.ports] s (freeBerth s n pool) :=
  freeBerth_keeps _ _ (by decide) (Keeps.refl _ s)

theorem logLost_keeps' (s : State) (n : Fin 8) (a b c d e : Nat) : Keeps [] s (logLost s n a b c d e) := logLost_keeps _ _ _ _ _ _ (Keeps.refl _ s)

@[simp] theorem preg_logLost (s : State) (n m : Fin 8) (a b c d e : Nat) {k : Nat} (hk : k < 0x1000) :
    preg (logLost s n a b c d e) (.xl m) k = preg s (.xl m) k := (logLost_keeps' s n a b c d e).preg List.not_mem_nil hk (by simp) (by simp)

@[simp] theorem preg_setPort (s : State) (n : Fin 8) (p : Port) (q : Page) (k : Nat) : preg (s.setPort n p) q k = preg s q k := rfl

theorem preg_loseBundle (s : State) (n m : Fin 8) (b : TxBundle) {k : Nat} (h : xlKept k) :
    preg (loseBundle s n b) (.xl m) k = preg s (.xl m) k := by
  obtain ⟨hk, -, hlost, -, -⟩ := h
  unfold loseBundle
  extract_lets s1 s2
  have hs1 : preg s1 (.xl m) k = preg s (.xl m) k := by simp [s1, hk, hlost]
  have hs2 : preg s2 (.xl m) k = preg s (.xl m) k := by
    rw [← hs1]
    simp only [s2]
    split
    · split_ifs
      · rfl
      · exact (freeBerth_keeps' _ _ _).preg (by simp [classOf]) hk (by simp) (by simp)
    · rfl
  split_ifs <;> exact hs2

theorem preg_loseUnit (s : State) (n m : Fin 8) (u : RUnit) {k : Nat} (h : xlKept k) : preg (loseUnit s n u) (.xl m) k = preg s (.xl m) k := by
  cases u with
  | bundle b => exact preg_loseBundle s n m b h
  | word w => exact preg_logLost s n m _ _ _ _ _ h.1

theorem preg_dropReceived (s : State) (n m : Fin 8) {k : Nat} (h : xlKept k) : preg (dropReceived s n) (.xl m) k = preg s (.xl m) k := by
  unfold dropReceived
  refine List.foldlRecOn (motive := fun t : State => preg t (.xl m) k = preg s (.xl m) k) _ _ rfl fun t ht j _ => ?_
  exact List.foldlRecOn (motive := fun u : State => preg u (.xl m) k = preg s (.xl m) k) _ _ ht fun u hu b _ => (preg_loseBundle u n m b h).trans hu

/-- Losing the traffic of a port leaves CTRL of every crossing page alone. -/
theorem preg_dropTraffic (s : State) (n m : Fin 8) {k : Nat} (h : xlKept k) : preg (dropTraffic s n) (.xl m) k = preg s (.xl m) k := by
  obtain ⟨hk, herr, -, hctrl, hirq⟩ := id h
  unfold dropTraffic
  extract_lets s1 s2 p units s3 all s4 p4 s5 s6
  have h1 : preg s1 (.xl m) k = preg s (.xl m) k := by
    simp only [s1, Machine.when]
    split_ifs <;> rfl
  have h2 : preg s2 (.xl m) k = preg s (.xl m) k :=
    List.foldlRecOn (motive := fun t : State => preg t (.xl m) k = preg s (.xl m) k) _ _ h1 fun t ht o _ => ht
  have h4 : preg s4 (.xl m) k = preg s (.xl m) k := by
    simp only [s4]
    rw [preg_dropReceived _ n m h]
    exact List.foldlRecOn (motive := fun t : State => preg t (.xl m) k = preg s (.xl m) k) _ _ h2 fun t ht u _ => (preg_loseUnit t n m u h).trans ht
  have h5 : preg s5 (.xl m) k = preg s (.xl m) k := (preg_setPort s4 n _ _ _).trans h4
  have h30 : k ≠ 0x30 := fun e => by simp [e] at herr
  have h6 : preg s6 (.xl m) k = preg s (.xl m) k := by
    simp only [s6, Machine.when]
    split_ifs
    · rw [preg_goDone _ (by omega) hk (fun _ => ⟨hctrl, h30, hirq⟩) (by simp), h5]
    · exact h5
  clear_value all
  cases all with
  | nil => exact h6
  | cons u l =>
    rw [preg_raiseErr _ _ _ hk (fun _ => herr) (by simp)]
    exact h6

/-! ## Nothing left to send -/

/-- A port with nothing to send. -/
def Emptied (p : Port) : Prop := p.replayBuf = [] ∧ p.txq = [] ∧ p.opens = []

theorem port_emit (s : State) (o : Out) (n : Fin 8) : (emit s o).port n = s.port n := rfl

theorem emptied_freeBerth {s : State} {m : Fin 8} (n : Fin 8) (pool : Fin 3) (h : Emptied (s.port m)) : Emptied ((freeBerth s n pool).port m) := by
  unfold freeBerth sendWord
  extract_lets p p1
  by_cases hm : m = n
  · subst hm
    rw [port_emit, setPort_port_same]
    exact h
  · rw [port_emit, setPort_port_other _ _ hm]
    exact h

theorem emptied_loseBundle {s : State} {m : Fin 8} (n : Fin 8) (b : TxBundle) (h : Emptied (s.port m)) : Emptied ((loseBundle s n b).port m) := by
  unfold loseBundle
  extract_lets s1 s2 p
  have hs1 : s1.port m = s.port m := (logLost_keeps' s n _ _ _ _ _).port (by decide) m
  have hs2 : Emptied (s2.port m) := by
    simp only [s2]
    split
    · split_ifs
      · rwa [hs1]
      · exact emptied_freeBerth _ _ (by rwa [hs1])
    · rwa [hs1]
  split_ifs
  · by_cases hm : m = n
    · subst hm
      rw [setPort_port_same]
      exact hs2
    · rw [setPort_port_other _ _ hm]
      exact hs2
  · exact hs2

theorem emptied_loseUnit {s : State} {m : Fin 8} (n : Fin 8) (u : RUnit) (h : Emptied (s.port m)) : Emptied ((loseUnit s n u).port m) := by
  cases u with
  | bundle b => exact emptied_loseBundle n b h
  | word w =>
    have hport : (loseUnit s n (.word w)).port m = s.port m := (logLost_keeps' s n _ _ _ _ _).port (by decide) m
    rwa [hport]

theorem emptied_dropReceived {s : State} {m : Fin 8} (n : Fin 8) (h : Emptied (s.port m)) : Emptied ((dropReceived s n).port m) := by
  unfold dropReceived
  refine List.foldlRecOn (motive := fun t : State => Emptied (t.port m)) _ _ h fun t ht k _ => ?_
  refine List.foldlRecOn (motive := fun t : State => Emptied (t.port m)) _ _ ?_ fun u hu b _ => emptied_loseBundle n b hu
  by_cases hm : m = k
  · subst hm
    rw [setPort_port_same]
    exact ⟨ht.1, by rw [ht.2.1]; rfl, ht.2.2⟩
  · rwa [setPort_port_other _ _ hm]

/-- After losing its traffic a port has nothing left to send. -/
theorem dropTraffic_emptied (s : State) (n : Fin 8) : Emptied ((dropTraffic s n).port n) := by
  unfold dropTraffic
  extract_lets s1 s2 p units s3 all s4 p4 s5 s6
  have h3 : Emptied (s3.port n) := by
    rw [setPort_port_same]
    exact ⟨rfl, rfl, rfl⟩
  have h4 : Emptied (s4.port n) :=
    emptied_dropReceived n (List.foldlRecOn (motive := fun t : State => Emptied (t.port n)) _ _ h3 fun t ht u _ => emptied_loseUnit n u ht)
  clear_value s4
  have h5 : Emptied (s5.port n) := by
    obtain ⟨hreplay, htx, hopen⟩ := h4
    rw [setPort_port_same]
    exact ⟨hreplay, htx, hopen⟩
  have h6 : Emptied (s6.port n) := by
    have hkept : s6.port n = s5.port n := by
      simp only [s6, Machine.when]
      split_ifs
      · exact congrArg (·.get n) (goDone_ports s5 (.xl n) (o := 0x100) 9 (by omega))
      · rfl
    rwa [hkept]
  clear_value all
  cases all with
  | nil => exact h6
  | cons u l =>
    have hkept : ∀ a b, (raiseErr s6 (.xl n) a b).port n = s6.port n := fun a b => congrArg (·.get n) (raiseErr_ports _ _ _ _)
    rwa [hkept]

/-! ## A port's state -/

theorem preg_setPortState (s : State) (n m : Fin 8) (st : PortState) {k : Nat} (hk : k < 0x1000) (h : k ≠ 0x30) :
    preg (setPortState s n st) (.xl m) k = preg s (.xl m) k := by
  unfold setPortState withReady
  split_ifs
  · rfl
  · rw [preg_readyLog _ hk (by simp) (by simp), preg_raiseInt _ _ hk (fun _ => h) (by simp), preg_setPort]

theorem readyLog_port (s : State) (n : Fin 8) : (readyLog s).port n = s.port n := (readyLog_keeps (P := [.boot]) (by decide) (Keeps.refl _ s)).port (by decide) n

theorem raiseInt_port (s : State) (p : Page) (b : Nat) (n : Fin 8) : (raiseInt s p b).port n = s.port n := congrArg (·.get n) (raiseInt_ports s p b)

theorem setPortState_port (s : State) (n : Fin 8) (st : PortState) : (setPortState s n st).port n = { s.port n with st := st } := by
  unfold setPortState withReady
  split_ifs with h
  · rw [← h]
  · rw [readyLog_port, raiseInt_port, setPort_port_same]

/-- A port is fenced: FENCE reads 1, and a port that was not fenced goes DOWN with nothing left to send (12 R520). -/
theorem fencePort_after {s : State} {n : Fin 8} (h : fenced s (.xl n) = false) :
    fenced (fencePort s n) (.xl n) = true ∧ ((fencePort s n).port n).st = .down ∧ Emptied ((fencePort s n).port n) := by
  unfold fencePort
  extract_lets was s1
  rw [if_neg (by simp [was, h])]
  refine ⟨?_, ?_, ?_⟩
  · have hbit : bit (preg s1 (.xl n) 8) 1 = true := by
      simp [s1, bit_or]
      right
      decide
    unfold fenced
    rw [preg_setPortState _ _ _ _ (by omega) (by omega), preg_dropTraffic _ _ _ ⟨by omega, rfl, by omega, by omega, by omega⟩, hbit]
  · rw [setPortState_port]
  · obtain ⟨hreplay, htx, hopen⟩ := dropTraffic_emptied s1 n
    rw [setPortState_port]
    exact ⟨hreplay, htx, hopen⟩

end Sys2Proof
end

section
/-! PROOFS. Commands of the safe state and of the collector's registers (12 R513, R520 to R529, R537, R548). -/

namespace Sys2Proof

open Sys2Proof.Machine

theorem fcCtrl_plain : PlainReg .fc 0x100 (r 0x100 0xA [f 0 1 .rw, f 1 2 .rw, f 3 1 .rw, f 8 1 .go]) := {}

theorem fcQ_plain : PlainReg .fc 0x120 (r 0x120 0 [f 0 1 .go, f 1 1 .go]) := {}

theorem fcKick_plain : PlainReg .fc 0x138 (r 0x138 0 [f 0 1 .go]) := {}

/-- What GO's completion of an FC register leaves of the collector. -/
theorem goDone_fc (s : State) {o : Nat} (b : Nat) (ho : o < 0x1000) : quietFc (goDone s .fc o b) = quietFc s :=
  (goDone_keeps (P := [.page .fc]) .fc _ _ ho (by decide) (Keeps.refl _ s)).fc (by decide)

/-- What a write of an FC register leaves of the collector. -/
theorem pageWrite_fc {s : State} {o : Nat} {row : RegRow} (R : PlainReg .fc o row) (hu : Unlocked s .fc) (v same : W32) :
    quietFc (pageWrite s .fc o v same).st = quietFc s :=
  (pageWrite_keeps_plain (P := [.page .fc]) R hu _ _ (by decide) (Keeps.refl _ s)).fc (by decide)

/-! ## Injected messages -/

/-- A field of a value of any width reads as it was set. -/
theorem fld_setFld_in {n : Nat} (x : BitVec n) (lo w v : Nat) (h : lo + w ≤ n) (hv : v < 2 ^ w) : fld (setFld x lo w v) lo w = v := by
  have hm : ∀ k, Nat.testBit ((2 ^ w - 1) * 2 ^ lo) k = (decide (lo ≤ k) && decide (k < lo + w)) := fun k => by
    rw [Nat.testBit_mul_two_pow, Nat.testBit_two_pow_sub_one]
    by_cases hk : lo ≤ k
    · simp only [hk, decide_true, Bool.true_and, decide_eq_decide]
      omega
    · simp [hk]
  apply Nat.eq_of_testBit_eq
  intro i
  unfold fld
  rw [Nat.testBit_mod_two_pow, Nat.testBit_div_two_pow]
  by_cases hi : i < w
  · have hbit : Nat.testBit (setFld x lo w v).toNat (i + lo) = (setFld x lo w v).getLsbD (i + lo) := rfl
    rw [hbit]
    unfold setFld
    rw [BitVec.getLsbD_or, BitVec.getLsbD_and, BitVec.getLsbD_not, BitVec.getLsbD_ofNat, BitVec.getLsbD_ofNat, hm, Nat.testBit_mul_two_pow,
      Nat.testBit_mod_two_pow]
    simp [hi, show lo ≤ i + lo by omega, show i + lo < n by omega, show i + lo < lo + w by omega]
  · rw [Nat.testBit_lt_two_pow (lt_of_lt_of_le hv (Nat.pow_le_pow_right (by omega) (by omega)))]
    simp [hi]

theorem bit_setBit_in {n : Nat} (x : BitVec n) {i : Nat} (v : Bool) (h : i < n) : bit (setBit x i v) i = v := by
  rw [bit_eq_fld, setBit, fld_setFld_in _ _ _ _ (by omega) (by cases v <;> decide)]
  cases v <;> rfl

/-- The bytes of a number depend on no more of it than they hold. -/
theorem natBytes_mod (n v : Nat) : natBytes n v = natBytes n (v % 256 ^ n) := by
  induction n generalizing v with
  | zero => rfl
  | succ n ih =>
    have hlow : v % 256 ^ (n + 1) % 256 = v % 256 := Nat.mod_mod_of_dvd v (dvd_pow_self 256 (Nat.succ_ne_zero n))
    have hhigh : v % 256 ^ (n + 1) / 256 = v / 256 % 256 ^ n := by
      rw [pow_succ', Nat.mod_mul_right_div_self]
    rw [natBytes, natBytes, ih (v / 256), hhigh]
    congr 1
    apply BitVec.eq_of_toNat_eq
    simp only [BitVec.toNat_ofNat]
    omega

/-- CHECK covers every byte of a message but its own (12 R505). -/
theorem msgCheck_setCheck (m : BitVec 128) (c : Nat) : msgCheck (setFld m 56 8 c) = msgCheck m := by
  have hlow : fld (setFld m 56 8 c) 0 56 = fld m 0 56 := fld_setFld_out m 56 8 c 0 56 (by omega)
  have hhigh : fld (setFld m 56 8 c) 64 64 = fld m 64 64 := fld_setFld_out m 56 8 c 64 64 (by omega)
  have hbytes : ∀ x : BitVec 128, natBytes 7 x.toNat = natBytes 7 (fld x 0 56) ∧ natBytes 8 (x.toNat / 2 ^ 64) = natBytes 8 (fld x 64 64) := fun x =>
    ⟨by rw [natBytes_mod, fld, Nat.pow_zero, Nat.div_one]; rfl, by rw [natBytes_mod, fld]; rfl⟩
  unfold msgCheck
  rw [(hbytes (setFld m 56 8 c)).1, (hbytes (setFld m 56 8 c)).2, hlow, hhigh, ← (hbytes m).1, ← (hbytes m).2]

/-- A message that a page makes is good. -/
theorem mkMsg_good (typ inst src sev corr level addr : Nat) (inj : Bool) : msgGood (mkMsg typ inst src sev corr level addr inj) = true := by
  unfold msgGood mkMsg
  extract_lets m
  rw [msgCheck_setCheck, fld_setFld_in _ _ _ _ (by omega) (msgCheck m).isLt, decide_eq_true rfl]

/-- The fields of an injected message (12 R505, R528). -/
theorem mkMsg_fields (m : BitVec 128) (sev corr level addr : Nat) :
    bit (mkMsg (msgType m) (msgInst m) (msgSrc m) sev corr level addr true) 7 = true ∧
      msgSrc (mkMsg (msgType m) (msgInst m) (msgSrc m) sev corr level addr true) = msgSrc m ∧
      msgInst (mkMsg (msgType m) (msgInst m) (msgSrc m) sev corr level addr true) = msgInst m ∧
      msgType (mkMsg (msgType m) (msgInst m) (msgSrc m) sev corr level addr true) = msgType m := by
  have hsrc : msgSrc m < 32 := fld_lt m 0 5
  have hinst : msgInst m < 256 := fld_lt m 8 8
  have htype : msgType m < 65536 := fld_lt m 16 16
  unfold mkMsg
  extract_lets x
  have hx : x.toNat = msgSrc m % 32 + (sev % 4) * 2 ^ 5 + 2 ^ 7 + (msgInst m % 256) * 2 ^ 8 + (msgType m % 65536) * 2 ^ 16
      + (corr % 65536) * 2 ^ 32 + (level % 8) * 2 ^ 48 + (addr % 2 ^ 64) * 2 ^ 64 := by
    simp only [x, b2n, BitVec.toNat_ofNat, if_true]
    omega
  have hfld : ∀ lo w, lo + w ≤ 56 → fld (setFld x 56 8 (msgCheck x).toNat) lo w = x.toNat / 2 ^ lo % 2 ^ w := fun lo w h =>
    fld_setFld_out x 56 8 _ lo w (.inl h)
  refine ⟨?_, ?_, ?_, ?_⟩
  · rw [bit_eq_fld, hfld 7 1 (by omega), hx]
    exact decide_eq_true (by omega)
  · rw [msgSrc, hfld 0 5 (by omega), hx]
    omega
  · rw [msgInst, hfld 8 8 (by omega), hx]
    omega
  · rw [msgType, hfld 16 16 (by omega), hx]
    omega

/-! ## Injected bits -/

theorem raiseErrX_stat (s : State) (p : Page) (src addr corr : Nat) (l i : Bool) :
    preg (raiseErrX s p src addr corr l i) p 0x10 = preg s p 0x10 ||| one32 src := by
  unfold raiseErrX
  extract_lets s2 m
  split_ifs
  · exact noteErr_stat _ _ _ _
  · rw [preg_raiseInt _ _ (by omega) (by simp) (by simp)]
    exact noteErr_stat _ _ _ _

/-- Settles O51: the safe state is entered once and whole; the other commands change one field each. -/
theorem safeState : Obligations.SafeState := by
  refine ⟨?safe, ?fence, ?selfPe, ?pop, ?empty, ?kick, ?wdog, ?alive, ?aliveLow, ?message, ?bits, ?shut⟩
  case safe =>
    intro s v hs hsafe
    set w := (pageWrite s .fc 0x100 v).st with hw
    have hkw : Keeps [.page .fc] s w := pageWrite_keeps_plain fcCtrl_plain hs.1 _ _ (by decide) (Keeps.refl _ s)
    have hfleet : fleetId w = fleetId s := by
      unfold fleetId
      rw [hkw.preg (by decide) (by omega) (by simp) (by simp)]
    have htide : w.tide = s.tide := hkw .tide (by decide)
    obtain ⟨hfc, hon, hports⟩ := enterSafe_after (s := w) 2 ((hkw.safe (by decide)).trans hsafe)
    have hall : quietFc (goDone (enterSafe w 2) .fc 0x100 8) = quietFc (enterSafe w 2) := goDone_fc _ _ (by omega)
    rw [hfc, hkw.fc (by decide), hkw.abortIds (by decide), hfleet, htide] at hall
    have hstop : (goDone (enterSafe w 2) .fc 0x100 8).fc.aliveStopped = true := (congrArg Collector.aliveStopped hall :)
    refine ⟨goDone (enterSafe w 2) .fc 0x100 8, congrArg Host.Outcome.next (pageWriteGo_starts fcCtrl_plain rfl (by omega) _ hs), ?_,
      (congrArg Collector.safe hall :), (congrArg Collector.portsToFence hall :), hstop, ?_, ?_, ?_, fun n => ?_, ?_⟩
    · exact goDone_keeps _ _ _ (by omega) (by decide) (enterSafe_keeps _ (by decide) (hkw.mono (by decide)))
    · rw [goDone_frz _ _ _ (by omega), hon]
    · rw [preg_goDone_same _ _ (by omega) (by omega) (by omega) (by simp), bit_andNot_one32 _ (by omega)]
    · rw [(congrArg Collector.abortIds hall :)]
      rfl
    · have hport : (goDone (enterSafe w 2) .fc 0x100 8).port n = (enterSafe w 2).port n :=
        congrArg (·.get n) (goDone_ports _ .fc (o := 0x100) 8 (by omega))
      rw [hport, ← hkw.port (by decide) n]
      exact hports n
    · unfold aliveRuns
      rw [hstop, Bool.not_true, Bool.and_false]
  case fence =>
    intro s n hdue hfen
    set u : State := { s with fc := { s.fc with portsToFence := setBit s.fc.portsToFence n.val false } } with hu
    obtain ⟨hfenced, hdown, -⟩ := fencePort_after (s := u) (n := n) hfen
    have hk : Keeps [.boot] (fencePort u n) (fencePage u (.xl n)) := readyLog_keeps (by decide) (Keeps.refl _ _)
    have hfc : (fencePage u (.xl n)).fc.portsToFence = setBit s.fc.portsToFence n.val false := by
      rw [hk.portsToFence (by decide), (fencePort_keeps (P := [.page .xl, .ports, .boot]) _ (by decide) (Keeps.refl _ u)).portsToFence (by decide)]
    refine ⟨fencePage u (.xl n), congrArg Host.Outcome.next (if_pos hdue), ?_, ?_, ?_, ?_⟩
    · exact ((fencePort_keeps _ (by decide) (put_fc_keeps _ (by decide) (Keeps.refl _ s)))).trans (hk.mono (by decide))
    · unfold fenced
      rw [hk.preg (by simp [classOf]) (by omega) (by simp) (by simp)]
      exact hfenced
    · rw [hk.port (by decide), hdown]
    · rw [hfc]
      exact bit_setBit_in _ _ n.isLt
  case selfPe =>
    intro s hsafe
    set u := raiseInt (noteErr s .fc 3 0) .fc 0 with hu
    have hku : Keeps [.page .fc] s u := raiseInt_keeps _ _ (by decide) (noteErr_keeps _ _ _ (by decide) (Keeps.refl _ s))
    have hrec : selfPe s = enterSafe (offerEntry (cntPreg { u with fc := { u.fc with recNo := u.fc.recNo + 1 } } .fc 0x128 1)
        (newRec u (mkMsg 2 0 3 3 0 0 0 false) 0 4)) 3 := by
      unfold selfPe
      simp only [hsafe]
      rfl
    set x := offerEntry (cntPreg { u with fc := { u.fc with recNo := u.fc.recNo + 1 } } .fc 0x128 1) (newRec u (mkMsg 2 0 3 3 0 0 0 false) 0 4) with hx
    have hkx : Keeps [.page .fc] { u with fc := { u.fc with recNo := u.fc.recNo + 1 } } x :=
      offerEntry_keeps _ (cntPreg_keeps _ _ _ (by omega) (by decide) (Keeps.refl _ _))
    have hxfc : quietFc x = { quietFc s with recNo := s.fc.recNo + 1 } := by
      rw [hkx.fc (by decide)]
      show { quietFc u with recNo := u.fc.recNo + 1 } = _
      rw [hku.fc (by decide), hku.recNo (by decide)]
    have hxsafe : x.fc.safe = false := ((congrArg Collector.safe hxfc :) : x.fc.safe = s.fc.safe).trans hsafe
    obtain ⟨hfc, hon, -⟩ := enterSafe_after (s := x) 3 hxsafe
    refine ⟨enterSafe x 3, congrArg Host.Outcome.next hrec, ?_, (congrArg Collector.safe hfc :), hon, ?_, ?_, ?_⟩
    · rw [← hrec]
      exact selfPe_keeps (by decide) (Keeps.refl _ s)
    · rw [(enterSafe_keeps (P := [.page .lb, .page .ep, .page .xl, .cores, .slices, .lw, .cxl, .frz, .ports, .fc, .lb]) _ (by decide)
        (Keeps.refl _ x)).preg (by decide) (by omega) (by simp) (by simp)]
      have hx10 : preg x .fc 0x10 = preg s .fc 0x10 ||| one32 3 := by
        rw [hx, (offerEntry_keeps (P := []) _ (Keeps.refl _ _)).preg (by simp) (by omega) (by simp) (by simp), preg_cntPreg _ _ (by omega) (by omega), if_neg (by omega), preg_update, hu,
          preg_raiseInt _ _ (by omega) (by simp) (by simp)]
        exact noteErr_stat _ _ _ _
      rw [hx10, bit_or_one32 _ (by omega)]
    · exact (congrArg Collector.recNo hfc :).trans (congrArg Collector.recNo hxfc :)
    · exact (congrArg Collector.queue hfc :).trans (congrArg Collector.queue hxfc :)
  case pop =>
    intro s v hs h1
    have hw := pageWrite_fc fcQ_plain hs.1 v 0
    have hexec : fcQWrite s v = goDone { (pageWrite s .fc 0x120 v).st with
        fc := { (pageWrite s .fc 0x120 v).st.fc with queue := (pageWrite s .fc 0x120 v).st.fc.queue.drop 1 } } .fc 0x120 0 := by
      unfold fcQWrite
      simp only [started_one fcQ_plain rfl (by omega) 0 hs, started_zero fcQ_plain hs.1 rfl (by omega) 0 h1, if_true, Bool.false_eq_true, if_false]
    have hall := goDone_fc { (pageWrite s .fc 0x120 v).st with
        fc := { (pageWrite s .fc 0x120 v).st.fc with queue := (pageWrite s .fc 0x120 v).st.fc.queue.drop 1 } } (o := 0x120) 0 (by omega)
    refine ⟨_, congrArg Host.Outcome.next hexec, ?_, ?_, ?_, ?_⟩
    · exact goDone_keeps _ _ _ (by omega) (by decide) (put_fc_keeps _ (by decide) (pageWrite_keeps_plain fcQ_plain hs.1 _ _ (by decide) (Keeps.refl _ s)))
    · rw [(congrArg Collector.queue hall :)]
      exact congrArg (List.drop 1) (congrArg Collector.queue hw :)
    · rw [(congrArg Collector.recNo hall :)]
      exact (congrArg Collector.recNo hw :)
    · rw [preg_goDone_same _ _ (by omega) (by omega) (by omega) (by simp), bit_andNot_one32 _ (by omega)]
  case empty =>
    intro s v hs h0
    have hw := pageWrite_fc fcQ_plain hs.1 v 0
    have hexec : fcQWrite s v = goDone { (pageWrite s .fc 0x120 v).st with fc := { (pageWrite s .fc 0x120 v).st.fc with queue := [] } } .fc 0x120 1 := by
      unfold fcQWrite
      simp only [started_one fcQ_plain rfl (by omega) 0 hs, started_zero fcQ_plain hs.1 rfl (by omega) 0 h0, if_true, Bool.false_eq_true, if_false]
    have hall := goDone_fc { (pageWrite s .fc 0x120 v).st with fc := { (pageWrite s .fc 0x120 v).st.fc with queue := [] } } (o := 0x120) 1 (by omega)
    refine ⟨_, congrArg Host.Outcome.next hexec, ?_, (congrArg Collector.queue hall :), ?_, ?_⟩
    · exact goDone_keeps _ _ _ (by omega) (by decide) (put_fc_keeps _ (by decide) (pageWrite_keeps_plain fcQ_plain hs.1 _ _ (by decide) (Keeps.refl _ s)))
    · rw [(congrArg Collector.recNo hall :)]
      exact (congrArg Collector.recNo hw :)
    · rw [preg_goDone_same _ _ (by omega) (by omega) (by omega) (by simp), bit_andNot_one32 _ (by omega)]
  case kick =>
    intro s v hs
    have hall := goDone_fc { (pageWrite s .fc 0x138 v).st with fc := { (pageWrite s .fc 0x138 v).st.fc with wdogSet := false } } (o := 0x138) 0 (by omega)
    refine ⟨_, congrArg Host.Outcome.next (pageWriteGo_starts fcKick_plain rfl (by omega) _ hs), ?_, (congrArg Collector.wdogSet hall :)⟩
    exact goDone_keeps _ _ _ (by omega) (by decide) (put_fc_keeps _ (by decide) (pageWrite_keeps_plain fcKick_plain hs.1 _ _ (by decide) (Keeps.refl _ s)))
  case wdog =>
    intro s hfw hsafe hset hperiod
    have hk : Keeps [.page .fc] { s with fc := { s.fc with wdogSet := true } } (raiseErr { s with fc := { s.fc with wdogSet := true } } .fc 2) :=
      raiseErr_keeps _ _ _ (by decide) (Keeps.refl _ _)
    refine ⟨_, congrArg Host.Outcome.next (if_pos (by simp [hfw, hsafe, hset, hperiod])), ?_, ?_, raiseErr_bit _ _ _ (by omega)⟩
    · exact raiseErr_keeps _ _ _ (by decide) (put_fc_keeps _ (by decide) (Keeps.refl _ s))
    · exact (congrArg Collector.wdogSet (hk.fc (by decide)) :)
  case alive =>
    intro s b h
    have hk : Keeps [.page .fc] { s with fc := { s.fc with aliveRb := b } } (aliveReadback s b) := raiseErr_keeps _ _ _ (by decide) (Keeps.refl _ _)
    refine ⟨aliveReadback s b, congrArg Host.Outcome.next (if_pos (by simpa using h)), ?_, (congrArg Collector.aliveRb (hk.fc (by decide)) :),
      raiseErr_bit _ _ _ (by omega)⟩
    exact raiseErr_keeps _ _ _ (by decide) (put_fc_keeps _ (by decide) (Keeps.refl _ s))
  case aliveLow =>
    intro s h
    exact ⟨{ s with fc := { s.fc with aliveRb := false } }, congrArg Host.Outcome.next (if_neg (by simp [h])), put_fc_keeps _ (by decide) (Keeps.refl _ s),
      rfl, rfl⟩
  case message =>
    intro s m h
    refine ⟨inject s (.message m), congrArg Host.Outcome.next (if_pos h), ?_, ?_, ?_⟩
    · exact reported_keeps (coming_reported [] s _) (by simp)
    · simp [inject]
    · have hmade : ∀ sev, (fun x : BitVec 128 => (bit x 7, msgSrc x, msgInst x, msgType x, msgGood x))
          (mkMsg (msgType m) (msgInst m) (msgSrc m) sev (msgCorr m) (msgLevel m) (msgAddr m) true) = (true, msgSrc m, msgInst m, msgType m, true) :=
        fun sev => by
          obtain ⟨hinj, hsrc, hinst, htype⟩ := mkMsg_fields m sev (msgCorr m) (msgLevel m) (msgAddr m)
          simp only [hinj, hsrc, hinst, htype, mkMsg_good]
      simp only [inject, List.getLast?_concat, Option.map_some]
      exact congrArg some (hmade _)
  case bits =>
    intro s p b h
    refine ⟨inject s (.bits p b), congrArg Host.Outcome.next (if_pos h), ?_, fun k => ?_⟩
    · exact keeps_foldl (fun t k ht => keeps_ite (fun _ => raiseErrX_keeps _ _ _ _ _ _ (by simp) ht) (fun _ => ht)) _ (Keeps.refl _ s)
    · cases hb : bit b k.val with
      | false => exact .inl rfl
      | true =>
        refine .inr (foldl_reaches_mem (R := fun t => bit (preg t p 0x10) k.val = true) (i := k.val) (fun t => ?_) (fun t j _ ht => ?_)
          (List.mem_range.mpr k.isLt) s)
        · rw [if_pos hb, raiseErrX_stat, bit_or_one32 _ k.isLt]
        · split_ifs
          · rw [raiseErrX_stat, bit_or, ht, Bool.true_or]
          · exact ht
  case shut =>
    intro s x h
    exact ⟨s, congrArg Host.Outcome.next (if_neg (by simp [h])), Keeps.refl _ s, rfl⟩

end Sys2Proof
end

section
/-! PROOFS. Fault messages: taken one at a time, recorded and reacted to (12 R505 to R517, R530, R533). -/

namespace Sys2Proof

open Sys2Proof.Machine

/-! ## The collector under interrupts -/

@[simp] theorem sendMsix_fc (s : State) (v : Fin 32) : (sendMsix s v).fc = s.fc := by
  unfold sendMsix
  split_ifs <;> rfl

@[simp] theorem irqEdge_fc (s : State) (p : Page) (old : W32) : (irqEdge p old s).fc = s.fc := by
  have hinta : ∀ u : State, (updateInta u).fc = u.fc := fun u => by
    unfold updateInta
    extract_lets
    split_ifs <;> rfl
  have hsent : ∀ l : List (Fin 32), (l.foldl sendMsix s).fc = s.fc := fun l =>
    List.foldlRecOn (motive := fun t : State => t.fc = s.fc) l sendMsix rfl fun t ht v _ => (sendMsix_fc t v).trans ht
  unfold irqEdge
  rw [hinta]
  split_ifs
  · rfl
  · exact hsent _

@[simp] theorem raiseInt_fc (s : State) (p : Page) (b : Nat) : (raiseInt s p b).fc = s.fc := irqEdge_fc _ _ _

/-! ## One message -/

/-- The state once the first message on its way has reached the collector. -/
def arrived (s : State) (l : List (BitVec 128)) : State := { s with fc := { s.fc with coming := l } }

theorem arrived_keeps (s : State) (l : List (BitVec 128)) : Keeps [] s (arrived s l) := reported_keeps (coming_reported [] s _) (by simp)

/-- What remains of taking one message: the order of its entries, and the safe state if it calls for it. -/
def settled (s : State) (r : State × Bool) : State :=
  if r.2 then enterSafe (entriesInOrder s.lb.inq.length r.1) 1 else entriesInOrder s.lb.inq.length r.1

theorem collect_one {s : State} {m : BitVec 128} {l : List (BitVec 128)} (released : List Page) (h : s.fc.coming = m :: l) :
    collect s 1 none released = settled s (takeMsg (arrived s l) m released) := by
  unfold collect settled arrived
  rw [h]
  simp only [List.take_succ_cons, List.take_zero, flipFirst, sortMsgs, List.foldl_cons, List.foldl_nil, insertMsg, List.drop_succ_cons, List.drop_zero,
    Bool.false_or]

/-- A good message of a source that may be set, the collector not in flat mode: recorded and reacted to by its own severity (12 R510). -/
theorem takeMsg_good {s : State} {m : BitVec 128} (released : List Page) (hgood : msgGood m = true) (hinj : bit m 7 = false)
    (hflat : bit (preg s .fc 0x100) 0 = false) (hfix : fixedSource m = false) :
    takeMsg s m released =
      (react (recordMsg s m (sourceId m) (msgSev m) (msgAddr m)
        (reactBits s (msgSev m) (if msgSev m = 2 then fencePlan s m released else none)) true) (msgSev m)
        (if msgSev m = 2 then fencePlan s m released else none), decide (msgSev m = 3)) := by
  have hsev : severityOf s (fixedSource m) (msgSev m) = msgSev m := by simp [severityOf, hfix, hflat]
  unfold takeMsg
  rw [if_neg (by simp [hgood])]
  simp only [hinj, Bool.false_and, Bool.false_eq_true, if_false, hsev]

/-! ## Records -/

theorem latchFirst_fc (s : State) (id sev addr : Nat) (mg : Bool) : (latchFirst s id sev addr mg).fc = s.fc := by
  unfold latchFirst
  extract_lets s1
  have h1 : s1.fc = s.fc := setPreg_fc _ _ _ _
  clear_value s1
  split_ifs
  · rfl
  · rw [orPreg_fc]
  · rw [setPreg64_fc, setPreg64_fc, h1]

theorem latchFirst_lb (s : State) (id sev addr : Nat) (mg : Bool) : (latchFirst s id sev addr mg).lb = s.lb := by
  unfold latchFirst
  extract_lets s1
  have h1 : s1.lb = s.lb := setPreg_lb _ _ _ _
  clear_value s1
  split_ifs
  · rfl
  · rw [orPreg_lb]
  · rw [setPreg64_lb, setPreg64_lb, h1]

theorem preg_latchFirst (s : State) (id sev addr : Nat) (mg : Bool) {k : Nat} (hk : k < 0x1000) (h : k < 0x108 ∨ 0x120 ≤ k) :
    preg (latchFirst s id sev addr mg) .fc k = preg s .fc k := by
  unfold latchFirst
  split_ifs
  · rfl
  · rw [preg_orPreg _ _ (by omega) hk, if_neg (by omega)]
  · extract_lets s1
    rw [preg_setPreg64 _ _ (by omega) hk, if_neg (by omega), if_neg (by omega), preg_setPreg64 _ _ (by omega) hk, if_neg (by omega), if_neg (by omega),
      preg_set _ _ (by omega) hk, if_neg (by omega)]

/-- The first error is latched once (12 R511). -/
theorem latchFirst_first (s : State) (id sev addr : Nat) (mg : Bool) :
    bit (preg s .fc 0x108) 31 = true ∨ preg (latchFirst s id sev addr mg) .fc 0x108 = BitVec.ofNat 32 (2 ^ 31 + sev * 2 ^ 29 + id % 2 ^ 29) := by
  by_cases h : bit (preg s .fc 0x108) 31 = true
  · exact .inl h
  · right
    unfold latchFirst
    rw [if_neg h]
    simp

/-- A message that merges into no record makes one (12 R512). -/
theorem recordMsg_new {s : State} {m : BitVec 128} (id sev addr reacts : Nat) (hcorr : msgCorr m = 0) :
    recordMsg s m id sev addr reacts true =
      addRecord (latchFirst s id sev addr false) (newRec s m (msgLevel m) reacts) (decide (id = 2 * 8192 + 1)) := by
  have hnone : s.fc.queue.findIdx? (mergesInto s m) = none := by
    rw [List.findIdx?_eq_none_iff]
    intro r _
    simp [mergesInto, hcorr]
  unfold recordMsg
  simp only [if_true, hnone]

theorem offerEntry_fc (s : State) (e : BitVec 256) : (offerEntry s e).fc = s.fc := by
  unfold offerEntry
  split_ifs <;> rfl

@[simp] theorem preg_offerEntry (s : State) (e : BitVec 256) {k : Nat} (hk : k < 0x1000) : preg (offerEntry s e) .fc k = preg s .fc k :=
  (offerEntry_keeps (P := []) e (Keeps.refl _ s)).preg (by simp) hk (by simp) (by simp)

/-- A record numbered, counted and offered to the logbook, before it is queued (12 R512). -/
def numbered (s : State) (r : BitVec 256) : State := offerEntry (cntPreg { s with fc := { s.fc with recNo := s.fc.recNo + 1 } } .fc 0x128 1) r

theorem addRecord_eq (s : State) (r : BitVec 256) (full : Bool) :
    addRecord s r full =
      if (numbered s r).fc.queue.length < 512 then { numbered s r with fc := { (numbered s r).fc with queue := (numbered s r).fc.queue ++ [r] } }
      else if full then cntPreg (numbered s r) .fc 0x124 1 else raiseErr (cntPreg (numbered s r) .fc 0x124 1) .fc 1 := rfl

theorem numbered_fc (s : State) (r : BitVec 256) : (numbered s r).fc = { s.fc with recNo := s.fc.recNo + 1 } := offerEntry_fc _ _

theorem preg_numbered (s : State) (r : BitVec 256) {k : Nat} (hk : k < 0x1000) :
    preg (numbered s r) .fc k = if k = 0x128 then satAdd (preg s .fc 0x128) 1 else preg s .fc k := by
  simp [numbered, hk]

/-- A record added to a queue with room (12 R513). -/
theorem addRecord_room {s : State} (r : BitVec 256) (full : Bool) (h : s.fc.queue.length < 512) :
    (addRecord s r full).fc = { s.fc with recNo := s.fc.recNo + 1, queue := s.fc.queue ++ [r] } ∧
      ∀ k, k < 0x1000 → preg (addRecord s r full) .fc k = if k = 0x128 then satAdd (preg s .fc 0x128) 1 else preg s .fc k := by
  rw [addRecord_eq, if_pos (by rw [numbered_fc]; exact h)]
  exact ⟨by rw [numbered_fc], fun k hk => preg_numbered s r hk⟩

/-- A record that finds the queue full is counted as lost, and the collector reports itself (12 R513). -/
theorem addRecord_full {s : State} (r : BitVec 256) (h : 512 ≤ s.fc.queue.length) :
    (addRecord s r false).fc.queue = s.fc.queue ∧ bit (preg (addRecord s r false) .fc 0x10) 1 = true ∧
      preg (addRecord s r false) .fc 0x124 = satAdd (preg s .fc 0x124) 1 ∧ preg (addRecord s r false) .fc 0x128 = satAdd (preg s .fc 0x128) 1 := by
  rw [addRecord_eq, if_neg (by rw [numbered_fc]; exact Nat.not_lt.2 h), if_neg (by decide)]
  refine ⟨?_, raiseErr_bit _ _ _ (by omega), ?_, ?_⟩
  · have hk : Keeps [.page .fc] (numbered s r) (raiseErr (cntPreg (numbered s r) .fc 0x124 1) .fc 1) :=
      raiseErr_keeps _ _ _ (by decide) (cntPreg_keeps _ _ _ (by omega) (by decide) (Keeps.refl _ _))
    rw [hk.queue (by decide), numbered_fc]
  · rw [preg_raiseErr _ _ _ (by omega) (fun _ => rfl) (by simp), preg_cntPreg _ _ (by omega) (by omega), if_pos ⟨rfl, rfl⟩,
      preg_numbered _ _ (by omega), if_neg (by omega)]
  · rw [preg_raiseErr _ _ _ (by omega) (fun _ => rfl) (by simp), preg_cntPreg _ _ (by omega) (by omega), if_neg (by omega),
      preg_numbered _ _ (by omega), if_pos rfl]

theorem arrived_newRec (s : State) (l : List (BitVec 128)) (m : BitVec 128) (lev reacts : Nat) : newRec (arrived s l) m lev reacts = newRec s m lev reacts := rfl

theorem entriesInOrder_keeps' (n : Nat) (s : State) : Keeps [] s (entriesInOrder n s) := fun q _ => by
  by_cases h : q = .lb
  · subst h
    rfl
  · exact entriesInOrder_keeps (P := [.lb]) n (by decide) (Keeps.refl _ s) q (by simpa using h)

/-- A message recorded in a queue with room, whatever its source: the record, the counts, the latched first error (12 R511, R512). -/
structure Recorded (s t : State) (l : List (BitVec 128)) (r : BitVec 256) (sev id : Nat) : Prop where
  fc : t.fc = { s.fc with coming := l, recNo := s.fc.recNo + 1, queue := s.fc.queue ++ [r] }
  reg : ∀ k, k < 0x1000 → k < 0x108 ∨ 0x120 ≤ k → preg t .fc k = if k = 0x128 then satAdd (preg s .fc 0x128) 1 else preg s .fc k
  first : bit (preg s .fc 0x108) 31 = true ∨ preg t .fc 0x108 = BitVec.ofNat 32 (2 ^ 31 + sev * 2 ^ 29 + id % 2 ^ 29)

theorem latched_recorded {s u : State} {l : List (BitVec 128)} (id sev addr : Nat) (r : BitVec 256) (full : Bool)
    (hfc : u.fc = { s.fc with coming := l }) (hreg : ∀ k, k < 0x1000 → 0x100 ≤ k → preg u .fc k = preg s .fc k) (hroom : s.fc.queue.length < 512) :
    (addRecord (latchFirst u id sev addr false) r full).fc = { s.fc with coming := l, recNo := s.fc.recNo + 1, queue := s.fc.queue ++ [r] } ∧
      (∀ k, k < 0x1000 → k < 0x108 ∨ 0x120 ≤ k → preg (addRecord (latchFirst u id sev addr false) r full) .fc k =
        if k = 0x128 then satAdd (preg s .fc 0x128) 1 else preg u .fc k) ∧
      (bit (preg s .fc 0x108) 31 = true ∨
        preg (addRecord (latchFirst u id sev addr false) r full) .fc 0x108 = BitVec.ofNat 32 (2 ^ 31 + sev * 2 ^ 29 + id % 2 ^ 29)) := by
  have hlatch : (latchFirst u id sev addr false).fc = { s.fc with coming := l } := (latchFirst_fc _ _ _ _ _).trans hfc
  obtain ⟨hfc', hreg'⟩ := addRecord_room (s := latchFirst u id sev addr false) r full (by rw [hlatch]; exact hroom)
  refine ⟨by rw [hfc', hlatch], fun k hk hout => ?_, ?_⟩
  · rw [hreg' k hk]
    by_cases hk128 : k = 0x128
    · rw [if_pos hk128, if_pos hk128, preg_latchFirst _ _ _ _ _ (by omega) (by omega), hreg 0x128 (by omega) (by omega)]
    · rw [if_neg hk128, if_neg hk128, preg_latchFirst _ _ _ _ _ hk hout]
  · rw [hreg' 0x108 (by omega), if_neg (by omega), ← hreg 0x108 (by omega) (by omega)]
    exact latchFirst_first _ _ _ _ _

/-- A good message that merges into no record, recorded in a queue with room (12 R512). -/
theorem recorded {s : State} {m : BitVec 128} (l : List (BitVec 128)) (id sev addr reacts : Nat) (hcorr : msgCorr m = 0) (hroom : s.fc.queue.length < 512) :
    Recorded s (recordMsg (arrived s l) m id sev addr reacts true) l (newRec s m (msgLevel m) reacts) sev id := by
  rw [recordMsg_new id sev addr reacts hcorr]
  obtain ⟨h1, h2, h3⟩ := latched_recorded (s := s) (u := arrived s l) id sev addr (newRec s m (msgLevel m) reacts) (decide (id = 2 * 8192 + 1)) rfl
    (fun _ _ _ => rfl) hroom
  exact ⟨h1, h2, h3⟩

theorem recorded_keeps (s : State) (l : List (BitVec 128)) (m : BitVec 128) (id sev addr reacts : Nat) (mg : Bool) :
    Keeps [.page .fc, .fc] s (recordMsg (arrived s l) m id sev addr reacts mg) :=
  recordMsg_keeps _ _ _ _ _ _ (by decide) (Keeps.mono (arrived_keeps s l) (by simp))

/-! ## What the order of entries leaves -/

theorem entriesInOrder_fc (n : Nat) (s : State) : (entriesInOrder n s).fc = s.fc := rfl

theorem preg_entriesInOrder (n : Nat) (s : State) {k : Nat} (hk : k < 0x1000) : preg (entriesInOrder n s) .fc k = preg s .fc k :=
  (entriesInOrder_keeps' n s).preg (by simp) hk (by simp) (by simp)

/-- Where a severity 1 interrupt follows, as of a correctable error, the registers and the collector are those of the record, but for INT_STAT. -/
theorem settled_raised {s r : State} (b : Nat) (hb : b < 32) :
    (settled s (raiseInt r .fc b, false)).fc = r.fc ∧ bit (preg (settled s (raiseInt r .fc b, false)) .fc 0x30) b = true ∧
      ∀ k, k < 0x1000 → k ≠ 0x30 → preg (settled s (raiseInt r .fc b, false)) .fc k = preg r .fc k := by
  have he : settled s (raiseInt r .fc b, false) = entriesInOrder s.lb.inq.length (raiseInt r .fc b) := if_neg (by simp)
  rw [he]
  refine ⟨by rw [entriesInOrder_fc, raiseInt_fc], ?_, fun k hk h30 => ?_⟩
  · rw [preg_entriesInOrder _ _ (by omega), raiseInt_stat, bit_or_one32 _ hb]
  · rw [preg_entriesInOrder _ _ hk, preg_raiseInt _ _ hk (fun _ => h30) (by simp)]

/-! ## A core fenced -/

theorem stopFenced_st (s : State) (id : Fin 256) : ((stopFenced s id).core id).st = .fenced := by
  have hc : ∀ (u : State) (c : Core), ((clrPreg (u.setCore id c) (.gc id) 8 1).core id).st = c.st := fun u c => by
    have hreg : (clrPreg (u.setCore id c) (.gc id) 8 1).core id = (u.setCore id c).core id := rfl
    rw [hreg, setCore_core_same]
  exact hc _ _

/-- A core fenced is FENCED, also one that was before (04 R134). -/
theorem fenceCore_st (s : State) (id : Fin 256) : ((fenceCore s id).core id).st = .fenced := by
  have hmark : (orPreg s (.gc id) 8 2).core id = s.core id := rfl
  unfold fenceCore fenceCores
  by_cases h : (s.core id).st = .fenced
  · simp only [h, ne_eq, not_true_eq_false, decide_false, Bool.false_eq_true, not_false_eq_true, List.filter_cons_of_neg, List.filter_nil, List.foldl_cons,
      List.foldl_nil, loseLocks, hmark]
  · simp only [h, ne_eq, not_false_eq_true, decide_true, List.filter_cons_of_pos, List.filter_nil, List.foldl_cons, List.foldl_nil]
    exact stopFenced_st _ id

theorem fencePage_core (s : State) (id : Fin 256) : ((fencePage s (.gc id)).core id).st = .fenced := by
  have hk : Keeps [.boot] (fenceCore s id) (fencePage s (.gc id)) := readyLog_keeps (by decide) (Keeps.refl _ _)
  rw [hk.core (by decide) id]
  exact fenceCore_st s id

/-- A core's fence and what it changes (12 R530). -/
theorem fencePage_core_keeps (s : State) (id : Fin 256) :
    Keeps [.page .ml, .page .sd, .page .gc, .cores, .locks, .sd, .ports, .boot] s (fencePage s (.gc id)) :=
  readyLog_keeps (by decide) (fenceCore_keeps id (by decide) (Keeps.refl _ s))

/-! ## The clauses -/

theorem settled_raised_keeps {P : List Part} {s t r : State} (hP : .page .fc ∈ P) (h : Keeps P t r) (b : Nat) :
    Keeps P t (settled s (raiseInt r .fc b, false)) := by
  have he : settled s (raiseInt r .fc b, false) = entriesInOrder s.lb.inq.length (raiseInt r .fc b) := if_neg (by simp)
  rw [he]
  exact (raiseInt_keeps _ _ (by simpa [classOf] using hP) h).trans ((entriesInOrder_keeps' _ _).mono (by simp))

/-- A message that merges into a record changes that record and counts as merged (12 R515). -/
theorem recordMsg_merged {s : State} {m : BitVec 128} {i : Nat} (l : List (BitVec 128)) (id sev addr reacts : Nat)
    (h : s.fc.queue.findIdx? (mergesInto s m) = some i) :
    (recordMsg (arrived s l) m id sev addr reacts true).fc.queue = mapAt (fun r => mergeRec r m reacts) s.fc.queue i ∧
      (recordMsg (arrived s l) m id sev addr reacts true).fc.recNo = s.fc.recNo ∧
      preg (recordMsg (arrived s l) m id sev addr reacts true) .fc 0x12C = satAdd (preg s .fc 0x12C) 1 := by
  have hfind : (if true = true then (arrived s l).fc.queue.findIdx? (mergesInto (arrived s l) m) else none) = some i := h
  have hlatch := latchFirst_fc (arrived s l) id sev addr true
  unfold recordMsg
  rw [hfind]
  simp only
  refine ⟨?_, ?_, ?_⟩
  · exact (offer_keeps (P := []) _ _ _ _ (Keeps.refl _ _)).queue (by simp)
  · refine ((offer_keeps (P := []) _ _ _ _ (Keeps.refl _ _)).recNo (by simp)).trans ?_
    exact (congrArg Collector.recNo hlatch :)
  · rw [preg_offer _ _ _ _ _ (by omega) (by simp), preg_cntPreg _ _ (by omega) (by omega), if_pos ⟨rfl, rfl⟩, preg_update, preg_latchFirst _ _ _ _ _ (by omega) (by omega)]
    rfl

theorem noteErr_fc (s : State) (p : Page) (src addr : Nat) : (noteErr s p src addr).fc = s.fc := by
  unfold noteErr
  extract_lets first s1
  have h1 : s1.fc = s.fc := by rw [cntPreg_fc, orPreg_fc]
  clear_value s1
  split_ifs
  · rw [setPreg_fc, h1]
  · rw [setPreg64_fc, setPreg_fc, h1]

/-- A message with a bad CHECK has reached the collector, which has noted its own error (12 R517). -/
def badNoted (s : State) (l : List (BitVec 128)) : State := raiseInt (noteErr (arrived s l) .fc 0 0) .fc 0

theorem badNoted_fc (s : State) (l : List (BitVec 128)) : (badNoted s l).fc = { s.fc with coming := l } :=
  (raiseInt_fc _ _ _).trans (noteErr_fc _ _ _ _)

theorem preg_badNoted (s : State) (l : List (BitVec 128)) {k : Nat} (hk : k < 0x1000) (h : 0x100 ≤ k) : preg (badNoted s l) .fc k = preg s .fc k :=
  (preg_raiseInt _ _ hk (fun _ => by omega) (by simp)).trans
    (noteErr_preg _ _ _ hk fun _ => by simp only [errReg, Bool.or_eq_false_iff, beq_eq_false_iff_ne]; omega)

theorem badNoted_keeps (s : State) (l : List (BitVec 128)) : Keeps [.page .fc] s (badNoted s l) :=
  raiseInt_keeps _ _ (by decide) (noteErr_keeps _ _ _ (by decide) ((arrived_keeps s l).mono (by simp)))

theorem badNoted_bit (s : State) (l : List (BitVec 128)) : bit (preg (badNoted s l) .fc 0x10) 0 = true := by
  unfold badNoted
  rw [preg_raiseInt _ _ (by omega) (fun _ => by omega) (by simp), noteErr_stat, bit_or_one32 _ (by omega)]

/-- A message with a bad CHECK is recorded as it came, and merges into no record (12 R517). -/
theorem takeMsg_bad {s : State} {m : BitVec 128} {l : List (BitVec 128)} (released : List Page) (hgood : msgGood m = false)
    (hmask : maskedSrc s .fc 0 = false) (hsev : severityOf s false (sevOf s .fc 0) = 1) :
    takeMsg (arrived s l) m released =
      (raiseInt (addRecord (latchFirst (badNoted s l) (2 * 8192) 1 0 false) (newRec (badNoted s l) m 0 1) false) .fc 16, false) := by
  have hmask' : maskedSrc (arrived s l) .fc 0 = false := hmask
  have hsev' : severityOf (arrived s l) false (sevOf (arrived s l) .fc 0) = 1 := hsev
  unfold takeMsg
  rw [if_pos hgood]
  simp only [hmask', hsev', Bool.false_eq_true, if_false]
  rfl

/-- The command on one good message, of a severity of its own. -/
theorem faultMessage_good {s : State} {m : BitVec 128} {l : List (BitVec 128)} (released : List Page) (hcoming : s.fc.coming = m :: l)
    (hgood : msgGood m = true) (hinj : bit m 7 = false) (hflat : bit (preg s .fc 0x100) 0 = false) (hfix : fixedSource m = false) {sev : Nat}
    (hsev : msgSev m = sev) {plan : Option (State → State)} (hplan : (if sev = 2 then fencePlan s m released else none) = plan) :
    exec (.faultMessage 1 none released) s =
      .next (settled s (react (recordMsg (arrived s l) m (sourceId m) sev (msgAddr m) (reactBits s sev plan) true) sev plan, decide (sev = 3))) := by
  refine congrArg Host.Outcome.next ((collect_one released hcoming).trans (congrArg (settled s) ?_))
  rw [takeMsg_good (s := arrived s l) released hgood hinj hflat hfix, hsev]
  have hplan' : (if sev = 2 then fencePlan (arrived s l) m released else none) = plan := hplan
  rw [hplan']
  rfl

/-- Settles O50: one message at a time is recorded, then reacted to by its severity; a merge, a full queue and a bad check each take their own path. -/
theorem faultMessages : Obligations.FaultMessages := by
  refine ⟨?corrected, ?none, ?fence, ?noFence, ?safe, ?merge, ?full, ?bad, ?released⟩
  case corrected =>
    intro s m l released hcoming hgood hinj hflat hfix hsev hcorr hroom
    have hr := recorded (s := s) l (sourceId m) 1 (msgAddr m) (reactBits s 1 none) hcorr hroom
    have hkr := recorded_keeps s l m (sourceId m) 1 (msgAddr m) (reactBits s 1 none) true
    have hexec := faultMessage_good (plan := none) released hcoming hgood hinj hflat hfix hsev rfl
    set r := recordMsg (arrived s l) m (sourceId m) 1 (msgAddr m) (reactBits s 1 none) true
    obtain ⟨hfc, hint, hreg⟩ := settled_raised (s := s) (r := r) 16 (by omega)
    refine ⟨settled s (raiseInt r .fc 16, false), hexec, settled_raised_keeps (by decide) hkr 16, ?_⟩
    refine ⟨by rw [hfc, hr.fc]; rfl, by rw [hfc, hr.fc], by rw [hfc, hr.fc], ?_, hint, ?_⟩
    · rw [hreg _ (by omega) (by omega), hr.reg _ (by omega) (by omega), if_pos rfl]
    · rw [hreg _ (by omega) (by omega)]
      simpa using hr.first
  case none =>
    intro s m l released hcoming hgood hinj hflat hfix hsev hcorr hroom
    have hr := recorded (s := s) l (sourceId m) 0 (msgAddr m) (reactBits s 0 none) hcorr hroom
    have hkr := recorded_keeps s l m (sourceId m) 0 (msgAddr m) (reactBits s 0 none) true
    have hexec := faultMessage_good (plan := none) released hcoming hgood hinj hflat hfix hsev rfl
    set r := recordMsg (arrived s l) m (sourceId m) 0 (msgAddr m) (reactBits s 0 none) true
    refine ⟨entriesInOrder s.lb.inq.length r, hexec, hkr.trans ((entriesInOrder_keeps' _ _).mono (by simp)), ?_⟩
    refine ⟨by rw [entriesInOrder_fc, hr.fc]; rfl, by rw [entriesInOrder_fc, hr.fc], ?_⟩
    rw [preg_entriesInOrder _ _ (by omega), hr.reg _ (by omega) (by omega), if_neg (by omega)]
  case fence =>
    intro s m l released id hcoming hgood hinj hflat hfix hsev hcorr hpage hrel hen hroom
    have hplan : fencePlan s m released = some (fenceUnless released (.gc id)) := by simp [fencePlan, hen, hpage]
    have hr := recorded (s := s) l (sourceId m) 2 (msgAddr m) (reactBits s 2 (some (fenceUnless released (.gc id)))) hcorr hroom
    have hkr := recorded_keeps s l m (sourceId m) 2 (msgAddr m) (reactBits s 2 (some (fenceUnless released (.gc id)))) true
    have hexec := faultMessage_good (plan := some (fenceUnless released (.gc id))) released hcoming hgood hinj hflat hfix hsev hplan
    set r := recordMsg (arrived s l) m (sourceId m) 2 (msgAddr m) (reactBits s 2 (some (fenceUnless released (.gc id)))) true
    have hfence : fenceUnless released (.gc id) r = fencePage r (.gc id) := if_neg (by simpa using hrel)
    obtain ⟨hfc, hint, -⟩ := settled_raised (s := s) (r := fenceUnless released (.gc id) r) 17 (by omega)
    have hkf := fencePage_core_keeps r id
    rw [← hfence] at hkf
    have hkt := settled_raised_keeps (s := s) (by decide) ((hkr.mono (Q := [.page .fc, .page .gc, .page .ml, .page .sd, .cores, .locks, .sd, .fc, .boot, .ports])
      (by decide)).trans (hkf.mono (by decide))) 17
    refine ⟨settled s (raiseInt (fenceUnless released (.gc id) r) .fc 17, false), hexec, hkt.mono (by decide), ?_, ?_, hint⟩
    · have hkr' : Keeps [.page .fc] (fenceUnless released (.gc id) r) (settled s (raiseInt (fenceUnless released (.gc id) r) .fc 17, false)) :=
        settled_raised_keeps (by decide) (Keeps.refl _ _) 17
      rw [hkr'.core (by decide), hfence]
      exact fencePage_core r id
    · rw [hfc, hkf.queue (by decide), hr.fc]
      rfl
  case noFence =>
    intro s m l released hcoming hgood hinj hflat hfix hsev hcorr hen hroom
    have hplan : fencePlan s m released = none := by simp [fencePlan, hen]
    have hr := recorded (s := s) l (sourceId m) 2 (msgAddr m) (reactBits s 2 none) hcorr hroom
    have hkr := recorded_keeps s l m (sourceId m) 2 (msgAddr m) (reactBits s 2 none) true
    have hexec := faultMessage_good (plan := none) released hcoming hgood hinj hflat hfix hsev hplan
    set r := recordMsg (arrived s l) m (sourceId m) 2 (msgAddr m) (reactBits s 2 none) true
    obtain ⟨hfc, hint, hreg⟩ := settled_raised (s := s) (r := raiseErr r .fc 4) 16 (by omega)
    have hke : Keeps [.page .fc] r (raiseErr r .fc 4) := raiseErr_keeps _ _ _ (by decide) (Keeps.refl _ r)
    have hkt := settled_raised_keeps (s := s) (by decide) (raiseErr_keeps .fc 4 0 (by decide) hkr) 16
    refine ⟨settled s (raiseInt (raiseErr r .fc 4) .fc 16, false), hexec, hkt, ?_, ?_, hint, hkt .cores (by decide)⟩
    · rw [hfc, hke.queue (by decide), hr.fc]
      rfl
    · rw [hreg _ (by omega) (by omega)]
      exact raiseErr_bit _ _ _ (by omega)
  case safe =>
    intro s m l released hcoming hgood hinj hflat hfix hsev hcorr hsafe hroom
    have hr := recorded (s := s) l (sourceId m) 3 (msgAddr m) (reactBits s 3 none) hcorr hroom
    have hkr := recorded_keeps s l m (sourceId m) 3 (msgAddr m) (reactBits s 3 none) true
    have hexec := faultMessage_good (plan := none) released hcoming hgood hinj hflat hfix hsev rfl
    set r := recordMsg (arrived s l) m (sourceId m) 3 (msgAddr m) (reactBits s 3 none) true
    have hrs : r.fc.safe = false := by rw [hr.fc]; exact hsafe
    have hreact : react r 3 none = raiseInt r .fc 18 := if_neg (by simp [hrs])
    rw [hreact] at hexec
    obtain ⟨hfc, hint, -⟩ := settled_raised (s := s) (r := r) 18 (by omega)
    set u := settled s (raiseInt r .fc 18, false) with hu
    have hus : u.fc.safe = false := by rw [hfc]; exact hrs
    have hku : Keeps [.page .fc, .fc] s u := settled_raised_keeps (by decide) hkr 18
    have hke : Keeps [.page .lb, .page .ep, .page .xl, .cores, .slices, .lw, .cxl, .frz, .ports, .fc, .lb] u (enterSafe u 1) :=
      enterSafe_keeps _ (by decide) (Keeps.refl _ u)
    obtain ⟨hq, hfrz, -⟩ := enterSafe_after 1 hus
    refine ⟨enterSafe u 1, hexec, (hku.mono (by decide)).trans (hke.mono (by decide)), ?_⟩
    refine ⟨(congrArg Collector.safe hq :), hfrz, (congrArg Collector.portsToFence hq :), (congrArg Collector.aliveStopped hq :), ?_, ?_⟩
    · refine (congrArg Collector.queue hq).trans (?_ : u.fc.queue = _)
      rw [hfc, hr.fc]
      simp [reactBits, hsafe]
    · rw [hke.preg (by decide) (by omega) (by simp) (by simp)]
      exact hint
  case merge =>
    intro s m l released i hcoming hgood hinj hflat hfix hsev hmerge
    have hkr := recorded_keeps s l m (sourceId m) 1 (msgAddr m) (reactBits s 1 none) true
    have hexec := faultMessage_good (plan := none) released hcoming hgood hinj hflat hfix hsev rfl
    obtain ⟨hqueue, hno, hcount⟩ := recordMsg_merged l (sourceId m) 1 (msgAddr m) (reactBits s 1 none) hmerge
    set r := recordMsg (arrived s l) m (sourceId m) 1 (msgAddr m) (reactBits s 1 none) true
    obtain ⟨hfc, -, hreg⟩ := settled_raised (s := s) (r := r) 16 (by omega)
    refine ⟨settled s (raiseInt r .fc 16, false), hexec, settled_raised_keeps (by decide) hkr 16, ?_⟩
    exact ⟨by rw [hfc, hqueue]; rfl, by rw [hfc, hno], by rw [hreg _ (by omega) (by omega), hcount]⟩
  case full =>
    intro s m l released hcoming hgood hinj hflat hfix hsev hcorr hfull hown
    have hkr := recorded_keeps s l m (sourceId m) 1 (msgAddr m) (reactBits s 1 none) true
    have hexec := faultMessage_good (plan := none) released hcoming hgood hinj hflat hfix hsev rfl
    have hnew := recordMsg_new (s := arrived s l) (m := m) (sourceId m) 1 (msgAddr m) (reactBits s 1 none) hcorr
    set r := recordMsg (arrived s l) m (sourceId m) 1 (msgAddr m) (reactBits s 1 none) true
    rw [decide_eq_false hown] at hnew
    obtain ⟨hfc, -, hreg⟩ := settled_raised (s := s) (r := r) 16 (by omega)
    have hlatch := latchFirst_fc (arrived s l) (sourceId m) 1 (msgAddr m) false
    have hpreg : ∀ k, 0x120 ≤ k → k < 0x1000 → preg (latchFirst (arrived s l) (sourceId m) 1 (msgAddr m) false) .fc k = preg s .fc k := fun k h1 h2 =>
      preg_latchFirst _ _ _ _ _ h2 (by omega)
    obtain ⟨hqueue, hbit, hlost, hcount⟩ := addRecord_full (s := latchFirst (arrived s l) (sourceId m) 1 (msgAddr m) false)
      (newRec (arrived s l) m (msgLevel m) (reactBits s 1 none)) (by rw [hlatch]; exact hfull)
    rw [← hnew] at hqueue hbit hlost hcount
    refine ⟨settled s (raiseInt r .fc 16, false), hexec, settled_raised_keeps (by decide) hkr 16, ?_, ?_, ?_, ?_⟩
    · rw [hfc, hqueue, hlatch]
      rfl
    · rw [hreg _ (by omega) (by omega), hlost, hpreg _ (by omega) (by omega)]
    · rw [hreg _ (by omega) (by omega)]
      exact hbit
    · rw [hreg _ (by omega) (by omega), hcount, hpreg _ (by omega) (by omega)]
  case bad =>
    intro s m l released hcoming hgood hmask hsev hroom
    set u := badNoted s l with hu
    have hufc : u.fc = { s.fc with coming := l } := badNoted_fc s l
    have hureg : ∀ k, k < 0x1000 → 0x100 ≤ k → preg u .fc k = preg s .fc k := fun k hk h => preg_badNoted s l hk h
    have hku : Keeps [.page .fc] s u := badNoted_keeps s l
    have hnew : newRec u m 0 1 = newRec s m 0 1 := by
      unfold newRec
      rw [(hku .tide (by decide) : u.tide = s.tide), hufc]
    obtain ⟨hrfc, hrreg, -⟩ := latched_recorded (s := s) (u := u) (2 * 8192) 1 0 (newRec u m 0 1) false hufc hureg hroom
    have hkr : Keeps [.page .fc, .fc] s (addRecord (latchFirst u (2 * 8192) 1 0 false) (newRec u m 0 1) false) :=
      addRecord_keeps _ _ (by decide) (latchFirst_keeps _ _ _ _ (by decide) (hku.mono (by decide)))
    have hexec : exec (.faultMessage 1 none released) s =
        .next (settled s (raiseInt (addRecord (latchFirst u (2 * 8192) 1 0 false) (newRec u m 0 1) false) .fc 16, false)) := by
      refine congrArg Host.Outcome.next ((collect_one released hcoming).trans (congrArg (settled s) ?_))
      exact takeMsg_bad released hgood hmask hsev
    set r := addRecord (latchFirst u (2 * 8192) 1 0 false) (newRec u m 0 1) false
    obtain ⟨hfc, -, hreg⟩ := settled_raised (s := s) (r := r) 16 (by omega)
    refine ⟨settled s (raiseInt r .fc 16, false), hexec, settled_raised_keeps (by decide) hkr 16, ?_, ?_, ?_⟩
    · rw [hreg _ (by omega) (by omega), hrreg _ (by omega) (by omega), if_neg (by omega)]
      exact badNoted_bit s l
    · rw [hfc, hrfc, hnew]
    · rw [hfc, hrfc]
  case released =>
    intro s m l released id hcoming hgood hinj hflat hfix hsev hcorr hpage hrel hen hroom
    have hplan : fencePlan s m released = some (fenceUnless released (.gc id)) := by simp [fencePlan, hen, hpage]
    have hr := recorded (s := s) l (sourceId m) 2 (msgAddr m) (reactBits s 2 (some (fenceUnless released (.gc id)))) hcorr hroom
    have hkr := recorded_keeps s l m (sourceId m) 2 (msgAddr m) (reactBits s 2 (some (fenceUnless released (.gc id)))) true
    have hexec := faultMessage_good (plan := some (fenceUnless released (.gc id))) released hcoming hgood hinj hflat hfix hsev hplan
    set r := recordMsg (arrived s l) m (sourceId m) 2 (msgAddr m) (reactBits s 2 (some (fenceUnless released (.gc id)))) true
    have hfence : fenceUnless released (.gc id) r = r := if_pos hrel
    have hreact : react r 2 (some (fenceUnless released (.gc id))) = raiseInt r .fc 17 := congrArg (raiseInt · .fc 17) hfence
    rw [hreact] at hexec
    obtain ⟨hfc, hint, -⟩ := settled_raised (s := s) (r := r) 17 (by omega)
    have hkt : Keeps [.page .fc, .fc] s (settled s (raiseInt r .fc 17, false)) := settled_raised_keeps (by decide) hkr 17
    refine ⟨settled s (raiseInt r .fc 17, false), hexec, hkt, hkt .cores (by decide), ?_, hint⟩
    rw [hfc, hr.fc]
    rfl

end Sys2Proof
end

section
/-! PROOFS. Boot: self-test, memory training, stages and failures (15 R624 to R632, R645). -/

namespace Sys2Proof

open Sys2Proof.Machine

/-! ## Payload reads of a fenced core -/

theorem settleOpens_port_other (s : State) {n j : Fin 8} (h : n ≠ j) : (settleOpens s j).port n = s.port n := by
  unfold settleOpens
  refine List.foldlRecOn (motive := fun t : State => t.port n = s.port n) _ _ rfl fun t ht o _ => ?_
  split_ifs
  · exact (setPort_port_other _ _ h).trans ht
  · exact ht

theorem settleOpens_opens (s : State) (n : Fin 8) : ∀ o ∈ ((settleOpens s n).port n).opens, o ∈ (s.port n).opens := by
  unfold settleOpens
  refine List.foldlRecOn (motive := fun t : State => ∀ o ∈ (t.port n).opens, o ∈ (s.port n).opens) _ _ (fun _ h => h) fun t ht o _ => ?_
  split_ifs
  · intro x hx
    refine ht x ?_
    unfold closeBundle at hx
    rw [setPort_port_same] at hx
    exact List.eraseP_subset hx
  · exact ht

/-- A core taken out of the bundles its payloads were read into is in none (04 R134). -/
theorem xlCancel_reading (s : State) (id : Fin 256) (n : Fin 8) : ∀ o ∈ ((xlCancel s id).port n).opens, id ∉ o.reading := by
  have hhere : ∀ (t : State) (p : Port), p.opens = ((t.port n).opens.map fun o => { o with reading := o.reading.filter fun x => decide (x ≠ id) }).filter
      (fun o => !(o.msgs.isEmpty && o.reading.isEmpty)) → ∀ o ∈ ((settleOpens (t.setPort n p) n).port n).opens, id ∉ o.reading := by
    intro t p hp o ho
    have hmem := settleOpens_opens _ _ o ho
    rw [setPort_port_same, hp] at hmem
    obtain ⟨x, -, rfl⟩ := List.mem_map.1 (List.mem_of_mem_filter hmem)
    simp
  unfold xlCancel
  refine foldl_reaches (R := fun t : State => ∀ o ∈ (t.port n).opens, id ∉ o.reading) (i := n) (fun t => ?_) (fun t j ht => ?_) (List.mem_finRange n) s
  · split_ifs with h
    · exact hhere t _ rfl
    · intro o ho hid
      exact h (List.any_eq_true.2 ⟨o, ho, by simpa using hid⟩)
  · split_ifs
    · by_cases hj : n = j
      · subst hj
        exact hhere t _ rfl
      · rw [settleOpens_port_other _ hj, setPort_port_other _ _ hj]
        exact ht
    · exact ht

theorem stopFenced_port (s : State) (id : Fin 256) (n : Fin 8) : (stopFenced s id).port n = (xlCancel s id).port n := by
  have hreg : ∀ u : State, (clrPreg u (.gc id) 8 1).port n = u.port n := fun _ => rfl
  unfold stopFenced
  rw [hreg]
  exact (setCore_keeps' _ _ _).port (by decide) n

/-- A core fenced, that was not, has no payload read into a bundle any more. -/
theorem fencePage_core_reading {s : State} {id : Fin 256} (h : (s.core id).st ≠ .fenced) (n : Fin 8) :
    ∀ o ∈ ((fencePage s (.gc id)).port n).opens, id ∉ o.reading := by
  have hk : Keeps [.boot] (fenceCore s id) (fencePage s (.gc id)) := readyLog_keeps (by decide) (Keeps.refl _ _)
  have hnew : ∃ u, fenceCore s id = stopFenced u id := by
    unfold fenceCore fenceCores
    simp only [h, ne_eq, not_false_eq_true, decide_true, List.filter_cons_of_pos, List.filter_nil, List.foldl_cons, List.foldl_nil]
    exact ⟨_, rfl⟩
  obtain ⟨u, hu⟩ := hnew
  rw [hk.port (by decide) n, hu, stopFenced_port]
  exact xlCancel_reading u id n

/-! ## A core that fails alone -/

/-- The end of the self-test, but for what localisation finds. -/
def testEnded : State :=
  { State.reset with boot := { State.reset.boot with ended := 0xFF, mismatched := 1, localised := false, stopped := false } }

/-- A bundle that waits for a payload of core 0. -/
def openOfCore : OpenBundle := ⟨1, none, [], [0], false⟩

/-- The same end, with a payload of core 0 being read into a bundle of port 0. -/
def testEndedReading : State := testEnded.setPort 0 { testEnded.port 0 with opens := [openOfCore] }

/-- What localisation makes of a group where one core failed alone: it fences it, and records it in the BT page. -/
theorem localiseGroup_core_keeps (s : State) (id : Fin 256) :
    Keeps [.page .bt, .boot] (fencePage { s with boot := { s.boot with stopped := false } } (.gc id))
      (localiseGroup [.core id] s (unitGroup (.core id))) := by
  unfold localiseGroup
  have hmine : [BistUnit.core id].filter (fun u => decide (unitGroup u = unitGroup (.core id))) = [.core id] := by simp
  rw [hmine]
  simp only [List.isEmpty_cons, Bool.false_eq_true, if_false, List.foldl_cons, List.foldl_nil]
  refine put_boot_keeps _ (by decide) (setGroupRes_keeps _ _ (by decide) ?_)
  unfold failUnit fenceStuck
  simp only [List.foldl_cons, List.foldl_nil]
  exact unitEntry_keeps _ _ _ _ _ _ (raiseErr_keeps _ _ _ (by decide) (orPreg_keeps _ _ _ (by omega) (by decide) (put_boot_keeps _ (by decide) (Keeps.refl _ _))))

theorem testEndedReading_ports (n : Fin 8) :
    ∀ o ∈ ((localise testEndedReading [.core 0]).port n).opens, (0 : Fin 256) ∉ o.reading := by
  set u : State := { testEndedReading with boot := { testEndedReading.boot with localised := true } } with hu
  have hgroup := localiseGroup_core_keeps u 0
  have hk : Keeps [.page .dev, .page .bt, .boot] (fencePage { u with boot := { u.boot with stopped := false } } (.gc 0))
      (localise testEndedReading [.core 0]) := by
    have hone : (List.range 8).filter (fun g => testEndedReading.boot.mismatched.getLsbD g) = [unitGroup (.core 0)] := by decide
    unfold localise
    rw [if_neg (by decide)]
    simp only [hone, List.foldl_cons, List.foldl_nil]
    exact keeps_ite (fun _ => hgroup.mono (by decide)) fun _ => bistDone_keeps (by decide) (hgroup.mono (by decide))
  rw [hk.port (by decide) n]
  exact fencePage_core_reading (by decide) n

/-- Refutes O60: to fence a core ends the reads of its payloads into bundles (04 R134), which changes a port; the statement leaves the ports out of what
localisation changes. -/
theorem not_selfTest : ¬ Obligations.SelfTest := by
  rintro ⟨-, -, -, hcore, -⟩
  obtain ⟨t, hexec, hkeeps, -⟩ := hcore testEndedReading 0 rfl rfl rfl rfl
  have ht : localise testEndedReading [.core 0] = t := by injection hexec
  have hport : t.port 0 = testEndedReading.port 0 := hkeeps.port (by decide) 0
  have hread := testEndedReading_ports 0 openOfCore
  rw [ht, hport] at hread
  exact hread (List.mem_singleton_self _) (List.mem_singleton_self _)

end Sys2Proof
end

section
/-! PROOFS. Boot stages, and the failures that end a boot (15 R624 to R632). -/

namespace Sys2Proof

open Sys2Proof.Machine

/-! ## What goes along with a change: link training, ALIVE, the BOOT entries of DEV_READY -/

theorem trainWhen_keeps' (g : State → State) (s : State) : Keeps [] (g s) (trainWhen g s) := by
  unfold trainWhen
  exact keeps_ite (fun _ => emit_keeps _ (Keeps.refl _ _)) (fun _ => Keeps.refl _ _)

theorem withAlive_keeps' (g : State → State) (s : State) : Keeps [] (g s) (withAlive g s) := by
  unfold withAlive
  exact keeps_ite (fun _ => Keeps.refl _ _) (fun _ => emit_keeps _ (Keeps.refl _ _))

theorem readyLog_keeps' (s : State) : Keeps [.boot] s (readyLog s) := readyLog_keeps (by decide) (Keeps.refl _ s)

theorem readyLog_boot (s : State) : (readyLog s).boot = { s.boot with ready := devReady s } := by
  unfold readyLog
  refine List.foldlRecOn (motive := fun t : State => t.boot = { s.boot with ready := devReady s }) _ _ rfl fun t ht i _ => ?_
  split_ifs
  · rw [logBoot_boot, ht]
  · exact ht

@[simp] theorem preg_readyLog' (s : State) (p : Page) {k : Nat} (hk : k < 0x1000) (hep : ¬(p = .ep ∧ k = 0xA00)) (hlb : ¬(p = .lb ∧ k = 0x11C)) :
    preg (readyLog s) p k = preg s p k := (readyLog_keeps' s).preg (by simp) hk hep hlb

theorem logBoot_keeps' (s : State) (a b c : Nat) : Keeps [] s (logBoot s a b c) := logBoot_keeps _ _ _ (Keeps.refl _ s)

/-- A part that what goes along with a change has left. -/
theorem Keeps.bootField {α : Type} {P : List Part} {s t : State} (h : Keeps P s t) (hb : Part.boot ∉ P) (f : Boot → α) : f t.boot = f s.boot :=
  congrArg f (h .boot hb)

/-! ## A fatal failure -/

theorem hubFail_boot (s : State) (cause inst kind way : Nat) : (hubFail s cause inst kind way).boot = { s.boot with stopped := true, stage := 3 } := by
  unfold hubFail
  rw [raiseErr_boot]
  split_ifs <;> rfl

/-- HUB_FAIL is set, its cause kept if it is the first, and BT_FATAL raised (R631). -/
theorem hubFail_regs (s : State) (cause inst kind way : Nat) :
    bit (preg (hubFail s cause inst kind way) .bt 0x10) 1 = true ∧ bit (preg (hubFail s cause inst kind way) .bt 0x170) 24 = true ∧
      (preg s .bt 0x178 ≠ 0 ∨ preg (hubFail s cause inst kind way) .bt 0x178 = BitVec.ofNat 32 (cause + inst % 256 * 2 ^ 8)) := by
  unfold hubFail
  refine ⟨raiseErr_bit _ _ _ (by omega), ?_, ?_⟩
  · rw [preg_raiseErr _ _ _ (by omega) (fun _ => rfl) (by simp), preg_orPreg _ _ (by omega) (by omega), if_pos ⟨rfl, rfl⟩, bit_or_one32 _ (by omega)]
  · by_cases h : preg s .bt 0x178 = 0
    · right
      rw [preg_raiseErr _ _ _ (by omega) (fun _ => rfl) (by simp), preg_orPreg _ _ (by omega) (by omega), if_neg (by omega), if_pos h, preg_update,
        preg_set _ _ (by omega) (by omega), if_pos ⟨rfl, rfl⟩]
    · exact .inl h

/-! ## Stages -/

theorem stageComplete_zero {s : State} (i : BootInfo) (hon : s.mod.mainOn = true) (h : s.boot.stage = 0) : stageComplete s i = stageZero s i := by
  unfold stageComplete
  rw [if_neg (by simp [hon]), h]
  rfl

theorem stageComplete_one {s : State} (i : BootInfo) (hon : s.mod.mainOn = true) (h : s.boot.stage = 1) : stageComplete s i = stageOne s i := by
  unfold stageComplete
  rw [if_neg (by simp [hon]), h]
  rfl

theorem stageComplete_two {s : State} (i : BootInfo) (hon : s.mod.mainOn = true) (h : s.boot.stage = 2) : stageComplete s i = stageTwo s i := by
  unfold stageComplete
  rw [if_neg (by simp [hon]), h]
  rfl

@[simp] theorem preg_logBoot (s : State) (a b c : Nat) (p : Page) {k : Nat} (hk : k < 0x1000) (hep : ¬(p = .ep ∧ k = 0xA00))
    (hlb : ¬(p = .lb ∧ k = 0x11C)) : preg (logBoot s a b c) p k = preg s p k := (logBoot_keeps' s a b c).preg (by simp) hk hep hlb

/-- A stage that starts: its number, and its entry. -/
theorem stageStart_boot (s : State) (k : Nat) : (stageStart s k).boot = { s.boot with stage := BitVec.ofNat 2 k } := logBoot_boot _ _ _ _

theorem stageEnd_boot (s : State) (k : Nat) : (stageEnd s k).boot = { s.boot with lastStage := BitVec.ofNat 2 k } := logBoot_boot _ _ _ _

/-- One stage passes and the next starts: nothing but the stages and their entries changes (R636). -/
theorem stagePassed_keeps (s : State) (k m : Nat) : Keeps [.boot] s (stageStart (stageEnd s k) m) :=
  stageStart_keeps _ (by decide) (stageEnd_keeps _ (by decide) (Keeps.refl _ s))

theorem stagePassed_boot (s : State) (k m : Nat) :
    (stageStart (stageEnd s k) m).boot = { s.boot with lastStage := BitVec.ofNat 2 k, stage := BitVec.ofNat 2 m } := by
  rw [stageStart_boot, stageEnd_boot]

/-- The bank chosen and its image's values, before stage 1 starts (R625, R626). -/
def bankTaken (s : State) (i : BootInfo) (b : Bool) : State :=
  setPreg (setPreg { s with boot := { s.boot with bankB := b, fwRev := i.fwRev, bootCount := i.bootCount }, cxl := { s.cxl with subsystem := i.subsystem } }
    .bt 0x17C ((bankDir i b).getD 0)) .lb 0x108 (BitVec.ofNat 32 (i.flashBase.toNat * 2 ^ 21))

theorem bankTaken_boot (s : State) (i : BootInfo) (b : Bool) :
    (bankTaken s i b).boot = { s.boot with bankB := b, fwRev := i.fwRev, bootCount := i.bootCount } := by
  rw [bankTaken, setPreg_boot, setPreg_boot]

theorem bankTaken_subsystem (s : State) (i : BootInfo) (b : Bool) : (bankTaken s i b).cxl.subsystem = i.subsystem := by
  rw [bankTaken, setPreg_cxl, setPreg_cxl]

theorem bankTaken_regs (s : State) (i : BootInfo) (b : Bool) :
    preg (bankTaken s i b) .lb 0x108 = BitVec.ofNat 32 (i.flashBase.toNat * 2 ^ 21) ∧ preg (bankTaken s i b) .bt 0x17C = (bankDir i b).getD 0 := by
  rw [bankTaken]
  refine ⟨?_, ?_⟩
  · rw [preg_set _ _ (by omega) (by omega), if_pos ⟨rfl, rfl⟩]
  · rw [preg_set _ _ (by omega) (by omega), if_neg (by simp), preg_set _ _ (by omega) (by omega), if_pos ⟨rfl, rfl⟩]

theorem stageZero_ok {s : State} {i : BootInfo} {b : Bool} (htried : bankTried s i = some b) (hok : bankOk i b = true) :
    stageZero s i = stageStart (stageEnd (bankTaken s i b) 0) 1 := by
  unfold stageZero
  rw [htried]
  exact if_neg (by simp [hok])

theorem stageZero_bad {s : State} {i : BootInfo} {b : Bool} (htried : bankTried s i = some b) (hok : bankOk i b = false) :
    stageZero s i = fallBack s i b := by
  unfold stageZero
  rw [htried]
  exact if_pos hok

theorem stageZero_none {s : State} {i : BootInfo} (htried : bankTried s i = none) : stageZero s i = enterRecovery s := by
  unfold stageZero
  rw [htried]

/-- Stage 2 up to FW_UP, before the latched faults are raised. -/
def firmwareUp (s : State) (i : BootInfo) : State :=
  let s1 := lbBoot s
  let s2 := if s.boot.kind = 0 then setPreg s1 .dev 0x124 (BitVec.ofNat 32 (min (s.boot.bootCount.toNat + 1) (2 ^ 32 - 1))) else s1
  let s3 := orPreg (orPreg (orPreg s2 .fc 8 1) .lb 8 1) .dev 8 1
  let s4 := setPreg (setPreg s3 .dev 4 (setFld (preg s3 .dev 4) 16 16 s.boot.fwRev.toNat)) .bt 0x104 (i.elapsedMs.setWidth 32)
  let s5 := stageEnd { s4 with boot := { s4.boot with stage := 3 } } 2
  orPreg s5 .dev 0x104 1

theorem stageTwo_eq (s : State) (i : BootInfo) : stageTwo s i = withAlive (withReady fun s => raiseLatched (firmwareUp s i)) s := rfl

/-- The registers of FW_UP (15 R628, R625; 12 R503; 13 R560). -/
theorem firmwareUp_regs (s : State) (i : BootInfo) :
    bit (preg (firmwareUp s i) .dev 0x104) 0 = true ∧ enabled (firmwareUp s i) .fc = true ∧ enabled (firmwareUp s i) .lb = true ∧
      enabled (firmwareUp s i) .dev = true ∧ fld (preg (firmwareUp s i) .dev 4) 16 16 = s.boot.fwRev.toNat ∧
      preg (firmwareUp s i) .bt 0x104 = i.elapsedMs.setWidth 32 ∧
      (s.boot.kind ≠ 0 ∨ preg (firmwareUp s i) .dev 0x124 = BitVec.ofNat 32 (min (s.boot.bootCount.toNat + 1) (2 ^ 32 - 1))) := by
  have hone : ∀ v : W32, bit (v ||| 1#32) 0 = true := fun v => bit_or_one32 (b := 0) v (by omega)
  have hrev : s.boot.fwRev.toNat < 2 ^ 16 := s.boot.fwRev.isLt
  unfold firmwareUp stageEnd enabled
  refine ⟨?_, ?_, ?_, ?_, ?_, ?_, ?_⟩
  · simp [hone]
  · simp [hone]
  · simp [hone]
  · simp [hone]
  · simpa using fld_setFld_in _ 16 16 s.boot.fwRev.toNat (by omega) hrev
  · simp
  · by_cases h : s.boot.kind = 0
    · right
      simp [h]
    · exact .inl h

theorem firmwareUp_boot (s : State) (i : BootInfo) : (firmwareUp s i).boot = { s.boot with lastStage := 2, stage := 3 } := by
  have hlb : (lbBoot s).boot = s.boot := (lbBoot_keeps (P := [.page .lb, .lb]) (by decide) (Keeps.refl _ s)) .boot (by decide)
  unfold firmwareUp
  rw [orPreg_boot, stageEnd_boot]
  split_ifs <;> simp [hlb]

/-- What of FW_UP remains once the latched faults are raised: all but the AL page and DEV_READY as shown. -/
theorem stageTwo_keeps' (s : State) (i : BootInfo) : Keeps [.page .al, .boot] (firmwareUp s i) (stageTwo s i) := by
  have hraise : Keeps [.page .al, .boot] (firmwareUp s i) (raiseLatched (firmwareUp s i)) := raiseLatched_keeps (by decide) (Keeps.refl _ _)
  exact (hraise.trans ((readyLog_keeps' _).mono (by decide))).trans ((withAlive_keeps' _ _).mono (by decide))

theorem raiseLatched_boot (s : State) : (raiseLatched s).boot = s.boot :=
  (raiseLatched_keeps (P := [.page .al]) (by decide) (Keeps.refl _ s)) .boot (by decide)

theorem stageTwo_boot (s : State) (i : BootInfo) :
    (stageTwo s i).boot = { (firmwareUp s i).boot with ready := devReady (raiseLatched (firmwareUp s i)) } := by
  refine ((withAlive_keeps' _ s) .boot (by simp)).trans ?_
  exact (readyLog_boot _).trans (congrArg (fun b : Boot => { b with ready := devReady (raiseLatched (firmwareUp s i)) }) (raiseLatched_boot _))

/-- What of a state the boot stages are about, in the state after the command. -/
theorem bootStage_runs {s g : State} {i : BootInfo} {E : State → Prop} (hg : stageComplete s i = g) (hE : ∀ t, Keeps [] g t → E t) :
    Runs (.bootStageComplete i) s [.page .dev, .page .fc, .page .lb, .page .al, .page .bt, .cxl, .lb, .boot] E := by
  refine ⟨trainWhen (fun t => stageComplete t i) s, rfl, execBootStageComplete_keeps i (by decide) (Keeps.refl _ s), hE _ ?_⟩
  have h := trainWhen_keeps' (fun t => stageComplete t i) s
  beta_reduce at h
  rwa [hg] at h

/-- Settles O59: each stage in turn ends as its checks say; a second failure of a bank, or none valid, is RECOVERY. -/
theorem bootStages : Obligations.BootStages := by
  refine ⟨?zero, ?fallback, ?noBank, ?one, ?oneWaits, ?two, ?timeout⟩
  case zero =>
    intro s i b hon hstage htried hok
    refine bootStage_runs ((stageComplete_zero i hon hstage).trans (stageZero_ok htried hok)) fun t ht => ?_
    have hk := (stagePassed_keeps (bankTaken s i b) 0 1).trans (ht.mono (by simp))
    have hboot : t.boot = (stageStart (stageEnd (bankTaken s i b) 0) 1).boot := ht .boot (by simp)
    rw [stagePassed_boot, bankTaken_boot] at hboot
    have hcxl : t.cxl.subsystem = (bankTaken s i b).cxl.subsystem := (congrArg Cxl.subsystem (hk .cxl (by decide)) :)
    obtain ⟨hflash, hdir⟩ := bankTaken_regs s i b
    refine ⟨(congrArg Boot.stage hboot :), (congrArg Boot.lastStage hboot :), (congrArg Boot.bankB hboot :), hcxl.trans (bankTaken_subsystem _ _ _), ?_, ?_⟩
    · rw [hk.preg (by decide) (by omega) (by simp) (by simp), hflash]
    · rw [hk.preg (by decide) (by omega) (by simp) (by simp), hdir]
  case fallback =>
    intro s i b hon hstage hfb htried hok hother
    have hback : fallBack s i b = stageStart (logBoot { s with boot := { s.boot with fallback := true, bankB := !b } } 3 (b2n (!b)) 0) 0 :=
      if_neg (by simp [hfb, Option.isSome_iff_ne_none.1 hother])
    refine bootStage_runs ((stageComplete_zero i hon hstage).trans ((stageZero_bad htried hok).trans hback)) fun t ht => ?_
    have hboot : t.boot = { s.boot with fallback := true, bankB := !b, stage := 0 } := by
      rw [(ht .boot (by simp) : t.boot = _), stageStart_boot, logBoot_boot]
      rfl
    exact ⟨by rw [hboot], by rw [hboot], by rw [hboot], by rw [hboot]⟩
  case noBank =>
    intro s i hon hstage htried
    refine bootStage_runs ((stageComplete_zero i hon hstage).trans (stageZero_none htried)) fun t ht => ?_
    have hboot : t.boot = { s.boot with recovery := true, stage := 3 } := by
      rw [(ht .boot (by simp) : t.boot = _), enterRecovery, logBoot_boot]
    exact ⟨by rw [hboot], by rw [hboot]⟩
  case one =>
    intro s i hon hstage hdone hok
    have hone : stageOne s i = stageStart (stageEnd s 1) 2 := by
      unfold stageOne
      rw [if_neg (by simp [hdone]), if_neg (by simp [hok])]
    refine bootStage_runs ((stageComplete_one i hon hstage).trans hone) fun t ht => ?_
    have hboot : t.boot = { s.boot with lastStage := 1, stage := 2 } := (ht .boot (by simp)).trans (stagePassed_boot _ _ _)
    exact ⟨by rw [hboot], by rw [hboot]⟩
  case oneWaits =>
    intro s i hon hstage hdone
    have hsame : stageComplete s i = s := (stageComplete_one i hon hstage).trans (if_pos hdone)
    have hk := trainWhen_keeps' (fun t => stageComplete t i) s
    beta_reduce at hk
    rw [hsame] at hk
    exact ⟨_, rfl, hk, (hk.bootField (by simp) Boot.stage).trans hstage⟩
  case two =>
    intro s i hon hstage
    refine bootStage_runs (stageComplete_two i hon hstage) fun t ht => ?_
    have hk := (stageTwo_keeps' s i).trans (ht.mono (by simp))
    obtain ⟨hup, hfc, hlb, hdev, hrev, hms, hcount⟩ := firmwareUp_regs s i
    have hboot : t.boot = (stageTwo s i).boot := ht .boot (by simp)
    rw [stageTwo_boot, firmwareUp_boot] at hboot
    have hreg : ∀ p {k : Nat}, k < 0x1000 → p = .dev ∨ p = .fc ∨ p = .lb ∧ k ≠ 0x11C ∨ p = .bt → preg t p k = preg (firmwareUp s i) p k := by
      rintro p k hk1 (rfl | rfl | ⟨rfl, h⟩ | rfl)
      all_goals exact hk.preg (by decide) hk1 (by simp) (by simp [*])
    refine ⟨by rwa [hreg _ (by omega) (by simp)], ?_, ?_, ?_, by rw [hboot], by rw [hboot], by rwa [hreg _ (by omega) (by simp)],
      by rwa [hreg _ (by omega) (by simp)], by rwa [hreg _ (by omega) (by simp)]⟩
    all_goals unfold enabled; rwa [hreg _ (by omega) (by simp)]
  case timeout =>
    intro s hon hstage
    have hexec : stageTimeout s = hubFail s 10 s.boot.stage.toNat 6 0 := if_neg (not_or.2 ⟨hstage, by simp [hon]⟩)
    obtain ⟨h10, h170, h178⟩ := hubFail_regs s 10 s.boot.stage.toNat 6 0
    refine ⟨hubFail s 10 s.boot.stage.toNat 6 0, congrArg Host.Outcome.next hexec, hubFail_keeps _ _ _ _ (by decide) (Keeps.refl _ s), ?_, ?_, h10, h170, ?_⟩
    · rw [hubFail_boot]
    · rw [hubFail_boot]
    · rwa [Nat.mod_eq_of_lt (by omega : s.boot.stage.toNat < 256)] at h178

end Sys2Proof
end

section
/-! PROOFS. Sensors, outputs read back, and the management bus (14 R597 to R607). -/

namespace Sys2Proof

open Sys2Proof.Machine

/-- An open leak sensor shows as 0xFFFF, whatever was measured (14 R607). -/
theorem leakMeasure_open : (leakMeasure State.reset 600).mod.mbLeak = 0xFFFF := by
  have hrun : (600 : W16).toNat = 600 := rfl
  unfold leakMeasure
  simp only [hrun]
  rfl

/-- Refutes O57: a measurement above 50 kΩ reads as open, and MB_LEAK shows 0xFFFF for it (14 R607), not the measured value as the statement has it. -/
theorem not_moduleSensors : ¬ Obligations.ModuleSensors := by
  rintro ⟨-, hfirst, -⟩
  obtain ⟨t, hexec, -, -, -, -, hshown, -⟩ := hfirst State.reset 600 (by decide)
  have ht : leakMeasure State.reset 600 = t := by injection hexec
  rw [← ht, leakMeasure_open] at hshown
  exact absurd hshown (by decide)

end Sys2Proof
end

section
/-! PROOFS. The 54 V and 12 V inputs, the power-fail warning, and the steps of PERST_N (14 R585 to R610; 15 R620 to R622). -/

namespace Sys2Proof

open Sys2Proof.Machine

/-! ## The onset of a condition (14 R595, R619) -/

theorem onset_new {s : State} {conn cond : Nat} (report : Bool) (h : s.mod.present.contains (condKey conn cond) = false) :
    (onset s conn cond report).mod = { s.mod with present := condKey conn cond :: s.mod.present, mbFault := s.mod.mbFault ||| one32 conn
                                                  mbLast := BitVec.ofNat 32 (conn + cond * 2 ^ 8) } := by
  unfold onset
  rw [if_neg (by simpa using h)]
  extract_lets m s1
  split_ifs
  · rw [raiseErr_mod]
  · rfl

/-- While the main rails are on, a new onset that is reported raises MOD_FAULT. -/
theorem onset_reports {s : State} {conn cond : Nat} (hon : s.mod.mainOn = true) (h : s.mod.present.contains (condKey conn cond) = false) :
    bit (preg (onset s conn cond true) .al 0x10) 7 = true := by
  unfold onset
  rw [if_neg (by simpa using h)]
  extract_lets m s1
  rw [if_pos (by simp [hon])]
  exact raiseErr_bit _ _ _ (by omega)

/-- The condition is present after its onset. -/
theorem onset_present (s : State) (conn cond : Nat) (report : Bool) : (onset s conn cond report).mod.present.contains (condKey conn cond) = true := by
  by_cases h : s.mod.present.contains (condKey conn cond) = true
  · unfold onset
    rw [if_pos h, h]
  · rw [onset_new report (by simpa using h)]
    simp

/-- While the main rails are off, an onset changes what the management bus shows alone (14 R596). -/
theorem onset_off {s : State} (conn cond : Nat) (report : Bool) (h : s.mod.mainOn = false) :
    ∃ m : Module, onset s conn cond report = { s with mod := m } ∧ m.mainOn = false ∧ m.conversion = s.mod.conversion ∧ m.v54 = s.mod.v54 ∧
      m.overvoltage = s.mod.overvoltage := by
  by_cases hp : s.mod.present.contains (condKey conn cond) = true
  · exact ⟨s.mod, if_pos hp, h, rfl, rfl, rfl⟩
  · exact ⟨_, (if_neg hp).trans (if_neg (by simp [h])), h, rfl, rfl, rfl⟩

/-! ## What every device reset sets back -/

/-- The blocks of a device right after a reset (15 R621). -/
structure Blank (t : State) : Prop where
  cores : t.cores = State.reset.cores
  locks : t.locks = State.reset.locks
  mesh : t.mesh = []
  tide : t.tide = tideReset
  clusters : t.clusters = State.reset.clusters
  slices : t.slices = State.reset.slices
  cxl : t.cxl = cxlReset
  frz : t.frz = frzReset
  ports : t.ports = State.reset.ports
  mailboxes : t.mailboxes = State.reset.mailboxes
  ctxs : t.ctxs = State.reset.ctxs

theorem deviceReset_blank (s : State) (cold : Bool) : Blank (deviceReset s cold) := ⟨rfl, rfl, rfl, rfl, rfl, rfl, rfl, rfl, rfl, rfl, rfl⟩

/-- What a cold reset, or the fall of the main rails, leaves of a state: nothing but the always-on domain (14 R585, 15 R621). -/
structure Lost (s t : State) : Prop where
  blank : Blank t
  fails : t.gp.fails = 0
  locked : t.gp.locked = false
  slots : t.lb.slots = s.lb.slots
  newest : t.lb.newest = s.lb.newest
  snap : t.lb.snap = none
  regs : t.regs = []
  dm : t.dm = []
  poison : t.poison = []
  pending : t.pending = s.pending

theorem deviceReset_lost (s : State) : Lost s (deviceReset s true) :=
  ⟨deviceReset_blank s true, rfl, rfl, rfl, rfl, rfl, rfl, rfl, rfl, rfl⟩

/-- What the always-on domain keeps is the same in two states, and nothing waits in front of them. -/
theorem Lost.from {s u t : State} (h : Lost u t) (hslots : u.lb.slots = s.lb.slots) (hnewest : u.lb.newest = s.lb.newest)
    (hpending : u.pending = s.pending) : Lost s t :=
  ⟨h.blank, h.fails, h.locked, h.slots.trans hslots, h.newest.trans hnewest, h.snap, h.regs, h.dm, h.poison, h.pending.trans hpending⟩

/-- Only what the management bus shows and the rails' own inputs changes after it. -/
theorem Lost.setMod {s t : State} (h : Lost s t) (m : Module) : Lost s { t with mod := m } :=
  ⟨⟨h.blank.cores, h.blank.locks, h.blank.mesh, h.blank.tide, h.blank.clusters, h.blank.slices, h.blank.cxl, h.blank.frz, h.blank.ports, h.blank.mailboxes,
    h.blank.ctxs⟩, h.fails, h.locked, h.slots, h.newest, h.snap, h.regs, h.dm, h.poison, h.pending⟩

theorem ringWrite_flash (s : State) (e : BitVec 256) : (ringWrite s e).lb.slots = s.lb.slots ∧ (ringWrite s e).lb.newest = s.lb.newest := by
  unfold ringWrite loseEntry ringPut
  split_ifs <;> exact ⟨rfl, rfl⟩

theorem ringPut_flash (s : State) (e : BitVec 256) : (ringPut s e).lb.slots = s.lb.slots ∧ (ringPut s e).lb.newest = s.lb.newest := ⟨rfl, rfl⟩

theorem droppedFirst_flash (s : State) : (droppedFirst s).lb.slots = s.lb.slots ∧ (droppedFirst s).lb.newest = s.lb.newest := by
  unfold droppedFirst
  split_ifs
  · exact ⟨rfl, rfl⟩
  · exact ringPut_flash { s with lb := { s.lb with lost := 0 } } _

theorem writeOne_flash (s : State) : (writeOne s).lb.slots = s.lb.slots ∧ (writeOne s).lb.newest = s.lb.newest := by
  unfold writeOne
  split
  · exact ⟨rfl, rfl⟩
  · next e rest _ =>
    obtain ⟨h1, h2⟩ := ringWrite_flash (droppedFirst { s with lb := { s.lb with inq := rest } }) e
    obtain ⟨h3, h4⟩ := droppedFirst_flash { s with lb := { s.lb with inq := rest } }
    exact ⟨h1.trans h3, h2.trans h4⟩

/-- The boot that starts changes its own fields, and offers entries. -/
theorem Lost.started {s t : State} (h : Lost s t) (f : Nat) (q : List (BitVec 256)) (b : Boot) :
    Lost s { t with fresh := f, lb := { t.lb with inq := q }, boot := b } :=
  ⟨⟨h.blank.cores, h.blank.locks, h.blank.mesh, h.blank.tide, h.blank.clusters, h.blank.slices, h.blank.cxl, h.blank.frz, h.blank.ports, h.blank.mailboxes,
    h.blank.ctxs⟩, h.fails, h.locked, h.slots, h.newest, h.snap, h.regs, h.dm, h.poison, h.pending⟩

/-- The entries queued are written to the ring; the flash is not touched. -/
theorem writeAll_flash (s : State) : (writeAll s).lb.slots = s.lb.slots ∧ (writeAll s).lb.newest = s.lb.newest := by
  unfold writeAll
  exact List.foldlRecOn (motive := fun t : State => t.lb.slots = s.lb.slots ∧ t.lb.newest = s.lb.newest) _ _ ⟨rfl, rfl⟩ fun t ht _ _ =>
    ⟨(writeOne_flash t).1.trans ht.1, (writeOne_flash t).2.trans ht.2⟩

theorem writeAll_keeps' (s : State) : Keeps [.page .lb, .lb] s (writeAll s) := writeAll_keeps (by decide) (Keeps.refl _ s)

/-- ALIVE goes low before a device reset. -/
def aliveLow (s : State) : State := if aliveRuns s then emit s (.alive false) else s

theorem railsFall_on {s : State} (hon : s.mod.mainOn = true) :
    railsFall s = deviceReset { aliveLow (writeAll s) with mod := { s.mod with conversion := false, mainOn := false } } true := if_pos hon

theorem aliveLow_written (s : State) :
    (aliveLow (writeAll s)).lb.slots = s.lb.slots ∧ (aliveLow (writeAll s)).lb.newest = s.lb.newest ∧ Keeps [.page .lb, .lb] s (aliveLow (writeAll s)) := by
  obtain ⟨hslots, hnewest⟩ := writeAll_flash s
  unfold aliveLow
  split_ifs
  · exact ⟨hslots, hnewest, emit_keeps _ (writeAll_keeps' s)⟩
  · exact ⟨hslots, hnewest, writeAll_keeps' s⟩

/-- The main rails fall: the always-on domain stays (14 R585). -/
theorem railsFall_lost {s : State} (hon : s.mod.mainOn = true) :
    Lost s (railsFall s) ∧ (railsFall s).mod = { s.mod with conversion := false, mainOn := false, refFlip := false } := by
  obtain ⟨hslots, hnewest, hk⟩ := aliveLow_written s
  rw [railsFall_on hon]
  exact ⟨(deviceReset_lost _).from hslots hnewest (hk .pending (by decide)), rfl⟩

theorem railsFall_off {s : State} (hoff : s.mod.mainOn = false) : railsFall s = { s with mod := { s.mod with conversion := false } } := by
  unfold railsFall
  rw [if_neg (by simp [hoff])]

/-- Every part of the state but the commands that wait. -/
def restParts : List Part :=
  [.page .dev, .page .fc, .page .lb, .page .gp, .page .td, .page .al, .page .bt, .page .xb, .page .vt, .page .lw, .page .ep, .page .fm, .page .ml, .page .sd,
    .page .pl, .page .dc, .page .cl, .page .mc, .page .xl, .page .gc, .tt, .staged, .captured, .tide, .cores, .mesh, .fares, .locks, .sd, .clusters,
    .mailboxes, .bar4, .xb, .ctxs, .drains, .dm, .slices, .lw, .cxl, .frz, .ports, .eqs, .scrubs, .pl, .fc, .lb, .gp, .mod, .boot]

theorem keeps_rest {s t : State} (h : t.pending = s.pending) : Keeps restParts s t := fun q hq => by
  have hq' : q = .pending := by
    cases q
    case page c => cases c <;> exact absurd (by decide) hq
    case pending => rfl
    all_goals exact absurd (by decide) hq
  subst hq'
  exact h

/-- What was lost, part by part, and what more there is to say. -/
theorem Lost.and {s t : State} {E : Prop} (h : Lost s t) (hE : E) :
    t.cores = State.reset.cores ∧ t.locks = State.reset.locks ∧ t.mesh = [] ∧ t.tide = tideReset ∧ t.clusters = State.reset.clusters ∧
      t.slices = State.reset.slices ∧ t.cxl = cxlReset ∧ t.frz = frzReset ∧ t.ports = State.reset.ports ∧ t.mailboxes = State.reset.mailboxes ∧
      t.ctxs = State.reset.ctxs ∧ t.gp.fails = 0 ∧ t.gp.locked = false ∧ t.lb.slots = s.lb.slots ∧ t.lb.newest = s.lb.newest ∧ t.lb.snap = none ∧
      t.regs = [] ∧ t.dm = [] ∧ t.poison = [] ∧ E :=
  ⟨h.blank.cores, h.blank.locks, h.blank.mesh, h.blank.tide, h.blank.clusters, h.blank.slices, h.blank.cxl, h.blank.frz, h.blank.ports, h.blank.mailboxes,
    h.blank.ctxs, h.fails, h.locked, h.slots, h.newest, h.snap, h.regs, h.dm, h.poison, hE⟩

/-- An input fault with the rails on: they fall, and the condition has its onset with them off (14 R588, R608). -/
theorem inputFault_lost {s : State} (m : Module) (conn cond : Nat) (hon : m.mainOn = true) :
    Lost s (onset (railsFall { s with mod := m }) conn cond true) ∧
      (onset (railsFall { s with mod := m }) conn cond true).mod.mainOn = false ∧
      (onset (railsFall { s with mod := m }) conn cond true).mod.conversion = false ∧
      (onset (railsFall { s with mod := m }) conn cond true).mod.v54 = m.v54 ∧
      (onset (railsFall { s with mod := m }) conn cond true).mod.overvoltage = m.overvoltage ∧
      (m.present.contains (condKey conn cond) = true ∨
        (onset (railsFall { s with mod := m }) conn cond true).mod.mbFault = m.mbFault ||| one32 conn ∧
        (onset (railsFall { s with mod := m }) conn cond true).mod.mbLast = BitVec.ofNat 32 (conn + cond * 2 ^ 8)) := by
  obtain ⟨hlost, hmod⟩ := railsFall_lost (s := { s with mod := m }) hon
  set u := railsFall { s with mod := m }
  have hlost' : Lost s u := hlost.from rfl rfl rfl
  clear_value u
  obtain ⟨m', heq, hoff, hconv, hv54, hover⟩ := onset_off (s := u) conn cond true (by rw [hmod])
  have hmod' : (onset u conn cond true).mod = m' := by rw [heq]
  refine ⟨by rw [heq]; exact hlost'.setMod m', by rw [hmod', hoff], by rw [hmod', hconv, hmod], by rw [hmod', hv54, hmod], by rw [hmod', hover, hmod], ?_⟩
  by_cases hp : m.present.contains (condKey conn cond) = true
  · exact .inl hp
  · right
    have hnew := onset_new (s := u) (conn := conn) (cond := cond) true (by rw [hmod]; simpa using hp)
    rw [hnew, hmod]
    exact ⟨rfl, rfl⟩

/-- With the rails off already, an input fault changes the module's inputs alone. -/
theorem undervoltage_off {s : State} (hoff : s.mod.mainOn = false) : (undervoltage s).mod.v54 = 2 ∧ (undervoltage s).mod.conversion = false ∧
    Keeps [.mod] s (undervoltage s) := by
  obtain ⟨m, heq, -, hconv, hv54, -⟩ := onset_off (s := { s with mod := { s.mod with v54 := 2, conversion := false } }) 0 condRange true hoff
  have hu : undervoltage s = { s with mod := m } := by
    unfold undervoltage
    rw [railsFall_off (s := { s with mod := { s.mod with v54 := 2 } }) hoff]
    exact heq
  rw [hu]
  exact ⟨hv54, hconv, put_mod_keeps _ (by decide) (Keeps.refl _ s)⟩

/-! ## What the first entries after a reset leave -/

theorem logBoot_room {s : State} (a b c : Nat) (h : s.lb.inq.length < 256) :
    ∃ f e, logBoot s a b c = { s with fresh := f, lb := { s.lb with inq := s.lb.inq ++ [e] } } := ⟨_, _, if_pos h⟩

theorem unfusedEntry_room {s : State} (h : s.lb.inq.length < 256) :
    ∃ q, unfusedEntry s = { s with lb := { s.lb with inq := q } } ∧ q.length ≤ s.lb.inq.length + 1 := by
  unfold unfusedEntry
  split_ifs
  · exact ⟨s.lb.inq, rfl, Nat.le_succ _⟩
  · exact ⟨_, if_pos h, by simp⟩

/-- A boot starts on a blank device: stage 0, and its entries on their way to the ring. -/
theorem bootStart_room {s : State} (h : s.lb.inq.length < 255) :
    ∃ f q, stageStart (unfusedEntry s) 0 = { s with fresh := f, lb := { s.lb with inq := q }, boot := { s.boot with stage := 0 } } := by
  obtain ⟨q, hq, hlen⟩ := unfusedEntry_room (s := s) (by omega)
  rw [hq]
  obtain ⟨f, e, he⟩ := logBoot_room (s := { s with lb := { s.lb with inq := q }, boot := { s.boot with stage := 0 } }) 1 0 0
    (show q.length < 256 by omega)
  exact ⟨f, _, he⟩

/-! ## The power-fail warning (14 R591, R592, R611) -/

theorem readyErased_congr {s t : State} (hslots : t.lb.slots = s.lb.slots) (hnewest : t.lb.newest = s.lb.newest) : readyErased t = readyErased s := by
  have hready : readySlot t = readySlot s := by
    funext k
    unfold readySlot
    rw [hnewest]
  have herased : slotErased t = slotErased s := by
    funext n
    unfold slotErased
    rw [hslots]
  unfold readyErased
  rw [hready, herased]

/-- A short snapshot that begins, and what it starts from (13 R555). -/
def shortSnap (s : State) (slot : Fin 16) : Snap :=
  let s1 := writeAll (offerSnap s 0 2 slot.val (preg s .lb 0x114))
  ⟨2, true, slot, preg s .lb 0x114, snapHeader s1 2 (bodyPages (newestEntries s1 (snapCount s1 true)).length) s1.lb.head.toNat,
    newestEntries s1 (snapCount s1 true), 0, false⟩

theorem beginSnap_short {s : State} {n : Fin 16} {l : List (Fin 16)} (h : readyErased s = n :: l) :
    (beginSnap s 2 true false).lb.snap = some (shortSnap s n) := by
  unfold beginSnap
  rw [h]
  rfl

/-- A warning that begins while the rails are on starts a POWER_FAIL snapshot, if the logbook takes them. -/
theorem setWarning_snap {s : State} {m : Module} {n : Fin 16} {l : List (Fin 16)} (hpf : powerFailing s = false)
    (hnow : powerFailing { s with mod := m } = true) (hon : m.mainOn = true) (hen : enabled s .lb = true) (htake : bit (preg s .lb 0x100) 2 = true)
    (hsnap : s.lb.snap = none) (hready : readyErased s = n :: l) :
    ∃ u, (setWarning s m).lb.snap = some (shortSnap u n) ∧ preg u .lb 0x114 = preg s .lb 0x114 := by
  set o := offer { s with mod := m } 7 1 with ho
  have hk : Keeps [] { s with mod := m } o := offer_keeps _ _ _ _ (Keeps.refl _ _)
  have hpreg : ∀ k, k < 0x1000 → k ≠ 0x11C → preg o .lb k = preg s .lb k := fun k h1 h2 => hk.preg (by simp) h1 (by simp) (by simp [h2])
  have hmod : o.mod = m := hk .mod (by simp)
  have hosnap : o.lb.snap = none := (offer_lb_snap _ _ _ _ _).trans hsnap
  have horeach : readyErased o = n :: l := (readyErased_congr (offer_lb_slots _ _ _ _ _) (offer_lb_newest _ _ _ _ _)).trans hready
  have hwarn : setWarning s m = powerFailSnap o := by
    unfold setWarning
    rw [if_neg (by rw [hpf, hnow]; decide), if_pos hnow]
    exact if_pos (by rw [← ho, hmod, hon])
  have hbegin : powerFailSnap o = beginSnap o 2 true false := by
    unfold powerFailSnap
    rw [if_pos (by simp [enabled, hpreg, htake] at hen ⊢; exact hen)]
    rw [hosnap]
  exact ⟨o, by rw [hwarn, hbegin, beginSnap_short horeach], hpreg _ (by omega) (by omega)⟩

/-- A warning changes the module's inputs as its command says. -/
theorem setWarning_mod (s : State) (m : Module) : (setWarning s m).mod = m := by
  have hk : Keeps [.page .lb, .lb] { s with mod := m } (setWarning s m) := by
    unfold setWarning
    refine keeps_ite (fun _ => Keeps.refl _ _) fun _ => keeps_ite (fun _ => ?_) fun _ => offer_keeps _ _ _ _ (Keeps.refl _ _)
    exact keeps_ite (fun _ => powerFailSnap_keeps (by decide) (offer_keeps _ _ _ _ (Keeps.refl _ _))) fun _ => offer_keeps _ _ _ _ (Keeps.refl _ _)
  exact hk .mod (by decide)

/-- A warning that does not begin leaves the snapshot that runs. -/
theorem setWarning_ends_snap {s : State} {m : Module} (h : powerFailing { s with mod := m } = true → powerFailing s = true) :
    (setWarning s m).lb.snap = s.lb.snap := by
  by_cases h1 : powerFailing s = powerFailing { s with mod := m }
  · have hsame : setWarning s m = { s with mod := m } := if_pos h1
    rw [hsame]
  · have hends : setWarning s m = offer { s with mod := m } 7 0 := (if_neg h1).trans (if_neg fun h2 => h1 ((h h2).trans h2.symm))
    rw [hends]
    exact offer_lb_snap _ _ _ _ _

theorem onset_inputs (s : State) (conn cond : Nat) (report : Bool) :
    (onset s conn cond report).mod.pwrFail = s.mod.pwrFail ∧ (onset s conn cond report).mod.intPf = s.mod.intPf := by
  by_cases h : s.mod.present.contains (condKey conn cond) = true
  · have hsame : onset s conn cond report = s := if_pos h
    rw [hsame]
    exact ⟨rfl, rfl⟩
  · rw [onset_new report (by simpa using h)]
    exact ⟨rfl, rfl⟩

/-- The device as a cold reset makes it, before its entries. -/
def coldBlank (s : State) : State := deviceReset { writeAll s with mod := { s.mod with mainOn := true } } true

/-- Settles O56: with the rails falls all that is not in the always-on domain; the warnings and standby change what their rows say. -/
theorem powerInputs : Obligations.PowerInputs := by
  refine ⟨?under, ?underOff, ?overvolt, ?reversed, ?conversion, ?cold, ?lost, ?up, ?assert, ?release, ?intPf, ?intPfRelease, ?opened, ?trst, ?astray, ?back⟩
  case under =>
    intro s hon
    obtain ⟨hlost, hoff, hconv, hv54, -, hfault⟩ := inputFault_lost (s := s) { s.mod with v54 := 2 } 0 condRange hon
    exact ⟨undervoltage s, rfl, keeps_rest hlost.pending, hlost.and ⟨hoff, hconv, hv54, hfault.imp_right fun h => h.1⟩⟩
  case underOff =>
    intro s hoff
    obtain ⟨hv54, hconv, hk⟩ := undervoltage_off hoff
    exact ⟨undervoltage s, rfl, hk, hv54, hconv⟩
  case overvolt =>
    intro s hon
    obtain ⟨hlost, hoff, -, hv54, hover, -⟩ := inputFault_lost (s := s) { s.mod with v54 := 2, overvoltage := true } 0 condRange hon
    exact ⟨overvoltage s, rfl, keeps_rest hlost.pending, hlost.and ⟨hoff, hover, hv54⟩⟩
  case reversed =>
    intro s hon hv12
    obtain ⟨hlost, hoff, -, hv54, -, hfault⟩ := inputFault_lost (s := s) { s.mod with v54 := 3 } 0 condReversed hon
    exact ⟨reversedInput s, congrArg Host.Outcome.next (if_neg hv12), keeps_rest hlost.pending, hlost.and ⟨hoff, hv54, hfault.imp_right fun h => h.2⟩⟩
  case conversion =>
    intro s hv12
    exact ⟨_, congrArg Host.Outcome.next (if_pos hv12), put_mod_keeps _ (by decide) (put_mod_keeps _ (by decide) (Keeps.refl _ s)), rfl, rfl, rfl, rfl⟩
  case cold =>
    intro s hoff hconv
    obtain ⟨hslots, hnewest⟩ := writeAll_flash s
    have hk := writeAll_keeps' s
    have hstart : coldStart s = stageStart (unfusedEntry (logBoot (coldBlank s) 0 0 0)) 0 := if_neg (by simp [hoff, hconv])
    set u := coldBlank s with hu
    have hlost : Lost s u := (deviceReset_lost _).from hslots hnewest (hk .pending (by decide))
    have hmod : u.mod = { s.mod with mainOn := true, refFlip := false } := rfl
    have hgp : u.gp = gangplankAfter s.gp true := congrArg (gangplankAfter · true) (hk .gp (by decide))
    have hinq : u.lb.inq = [] := rfl
    have hboot : u.boot.kind = 0 ∧ u.boot.initDue = true := ⟨rfl, rfl⟩
    clear_value u
    obtain ⟨f, e, hlog⟩ := logBoot_room (s := u) 0 0 0 (by simp [hinq])
    have hlen : (logBoot u 0 0 0).lb.inq.length < 255 := by rw [hlog]; simp [hinq]
    obtain ⟨f', q, hgo⟩ := bootStart_room hlen
    have hend : coldStart s = { u with fresh := f', lb := { u.lb with inq := q }, boot := { u.boot with stage := 0 } } := by
      rw [hstart, hgo, hlog]
    have hlost' := hlost.started f' q { u.boot with stage := 0 }
    rw [← hend] at hlost'
    refine ⟨coldStart s, rfl, keeps_rest hlost'.pending, hlost'.and ?_⟩
    rw [hend]
    refine ⟨hmod, hboot.1, rfl, hboot.2, ?_, ?_⟩
    · exact (congrArg Gangplank.level hgp :)
    · exact (congrArg Gangplank.factory hgp :)
  case lost =>
    intro s
    exact ⟨standbyLost s, rfl, standbyLost_keeps (by decide) (Keeps.refl _ s), rfl, rfl, rfl, rfl, rfl, rfl, rfl⟩
  case up =>
    intro s straps hv12
    have hup : standbyUp s straps = { s with
        lb := { s.lb with ring := [], head := 0, wrapped := false, fresh := true }, mod := { s.mod with v12 := 1, straps := straps } } := if_pos hv12
    refine ⟨standbyUp s straps, rfl, standbyUp_keeps _ (by decide) (Keeps.refl _ s), ?_⟩
    rw [hup]
    exact ⟨rfl, rfl, rfl, rfl, rfl⟩
  case assert =>
    intro s n l hpf hon hen hshort hsnap hready
    obtain ⟨u, hsnapped, hseq⟩ := setWarning_snap (m := { s.mod with pwrFail := .low }) hpf rfl hon hen hshort hsnap hready
    have hmod := setWarning_mod s { s.mod with pwrFail := .low }
    refine ⟨pwrFailLevel s .low, rfl, pwrFailLevel_keeps _ (by decide) (Keeps.refl _ s), ?_, ?_⟩
    · exact (congrArg Module.pwrFail hmod :)
    · refine (congrArg (Option.map _) hsnapped).trans ?_
      rw [← hseq]
      rfl
  case release =>
    intro s hlow hint hroom
    have hbefore : powerFailing s = true := by simp [powerFailing, hlow]
    have hafter : powerFailing { s with mod := { s.mod with pwrFail := .high } } = false := by simp [powerFailing, hint]
    have hwarn : setWarning s { s.mod with pwrFail := .high } = offer { s with mod := { s.mod with pwrFail := .high } } 7 0 := by
      unfold setWarning
      rw [if_neg (by rw [hbefore, hafter]; decide), if_neg (by rw [hafter]; decide)]
    have hlb := offer_room (s := { s with mod := { s.mod with pwrFail := .high } }) 7 0 0 0 hroom
    have hmod := setWarning_mod s { s.mod with pwrFail := .high }
    rw [← hwarn] at hlb
    have hinq := congrArg Logbook.inq hlb
    refine ⟨pwrFailLevel s .high, rfl, pwrFailLevel_keeps _ (by decide) (Keeps.refl _ s), (congrArg Module.pwrFail hmod :), ?_, ?_, ?_⟩
    · have hpf : powerFailing (pwrFailLevel s .high) = (decide ((setWarning s { s.mod with pwrFail := .high }).mod.pwrFail = .low) ||
          (setWarning s { s.mod with pwrFail := .high }).mod.intPf) := rfl
      rw [hpf, hmod]
      simp [hint]
    · refine (congrArg List.length hinq).trans ?_
      simp
    · refine (congrArg (fun l => (List.getLast? l).map fun e => (entryKind e, fld e 0 8)) hinq).trans ?_
      simp only [List.getLast?_concat, Option.map_some]
      decide
  case intPf =>
    intro s n l hpf hon hen hshort hsnap hready
    obtain ⟨u, hsnapped, -⟩ := setWarning_snap (m := { s.mod with intPf := true }) hpf (by simp [powerFailing]) hon hen hshort hsnap hready
    have hmod := setWarning_mod s { s.mod with intPf := true }
    exact ⟨setWarning s { s.mod with intPf := true }, rfl, setWarning_keeps _ (by decide) (Keeps.refl _ s), (congrArg Module.intPf hmod :),
      congrArg (Option.map _) hsnapped⟩
  case intPfRelease =>
    intro s
    have hmod := setWarning_mod s { s.mod with intPf := false }
    refine ⟨setWarning s { s.mod with intPf := false }, rfl, setWarning_keeps _ (by decide) (Keeps.refl _ s), (congrArg Module.intPf hmod :), ?_⟩
    have hfalls : powerFailing { s with mod := { s.mod with intPf := false } } = true → powerFailing s = true := by
      simp only [powerFailing, Bool.or_false, Bool.or_eq_true]
      exact fun h => .inl h
    exact setWarning_ends_snap hfalls
  case opened =>
    intro s hpf
    have hafter : powerFailing { s with mod := { s.mod with pwrFail := .opened } } = false := by
      simp only [powerFailing, Bool.or_eq_false_iff] at hpf ⊢
      exact ⟨rfl, hpf.2⟩
    have hsame : setWarning s { s.mod with pwrFail := .opened } = { s with mod := { s.mod with pwrFail := .opened } } :=
      if_pos (hpf.trans hafter.symm)
    have hlevel : pwrFailLevel s .opened = onset { s with mod := { s.mod with pwrFail := .opened } } 2 condOpen true := by
      unfold pwrFailLevel
      rw [hsame]
      rfl
    obtain ⟨hfail, hint⟩ := onset_inputs { s with mod := { s.mod with pwrFail := .opened } } 2 condOpen true
    refine ⟨pwrFailLevel s .opened, rfl, pwrFailLevel_keeps _ (by decide) (Keeps.refl _ s), ?_, ?_, ?_⟩
    all_goals rw [hlevel]
    · exact hfail
    · rw [← hafter]
      unfold powerFailing
      rw [hfail, hint]
    · exact onset_present _ _ _ _
  case trst =>
    intro s
    exact ⟨trstLevel s .opened, rfl, trstLevel_keeps _ (by decide) (Keeps.refl _ s), rfl, rfl⟩
  case astray =>
    intro s hv12 hon habsent
    have hexec : exec (.standbyLoss true) s = .next (standbyAstray s) := congrArg Host.Outcome.next ((if_pos rfl).trans (if_neg hv12))
    have hnew := onset_new (s := { s with mod := { s.mod with v12 := 2 } }) true habsent
    have hmod : (standbyAstray s).mod = _ := hnew
    refine ⟨standbyAstray s, hexec, onset_keeps _ _ _ (by decide) (put_mod_keeps _ (by decide) (Keeps.refl _ s)), ?_, ?_, ?_,
      onset_reports (s := { s with mod := { s.mod with v12 := 2 } }) hon habsent⟩
    all_goals rw [hmod]
    · rfl
  case back =>
    intro s straps hv12
    have hexec : exec (.standbyPowerUp straps) s = .next (normal { s with mod := { s.mod with v12 := 1 } } 1) :=
      congrArg Host.Outcome.next (if_neg (by rw [hv12]; decide))
    exact ⟨_, hexec, normal_keeps _ (by decide) (put_mod_keeps _ (by decide) (Keeps.refl _ s)), rfl, rfl, rfl⟩

end Sys2Proof
end

section
/-! PROOFS. PERST_N: the steps before the reset, the reset, its end (15 R620 to R622, R634). -/

namespace Sys2Proof

open Sys2Proof.Machine

/-! ## The states of the ports while one loses its traffic -/

/-- The ports are in the same states. -/
def SameSt (s t : State) : Prop := ∀ m : Fin 8, (t.port m).st = (s.port m).st

theorem SameSt.refl (s : State) : SameSt s s := fun _ => rfl

theorem SameSt.trans {s t u : State} (h : SameSt s t) (k : SameSt t u) : SameSt s u := fun m => (k m).trans (h m)

theorem sameSt_keeps {P : List Part} {s t : State} (h : Keeps P s t) (hp : Part.ports ∉ P) : SameSt s t := fun m => by rw [h.port hp m]

theorem sameSt_setPort (s : State) {n : Fin 8} {p : Port} (h : p.st = (s.port n).st) : SameSt s (s.setPort n p) := fun m => by
  by_cases hm : m = n
  · subst hm
    rw [setPort_port_same, h]
  · rw [setPort_port_other _ _ hm]

theorem sameSt_foldl {α : Type} {g : State → α → State} (h : ∀ t a, SameSt t (g t a)) (l : List α) (s : State) : SameSt s (l.foldl g s) :=
  List.foldlRecOn (motive := SameSt s) l g (SameSt.refl s) fun t ht a _ => ht.trans (h t a)

theorem closeBundle_st (s : State) (n : Fin 8) (o : OpenBundle) : SameSt s (closeBundle s n o) := sameSt_setPort s rfl

theorem freeBerth_st (s : State) (n : Fin 8) (pool : Fin 3) : SameSt s (freeBerth s n pool) := by
  unfold freeBerth sendWord
  extract_lets p p1
  intro m
  rw [port_emit]
  exact sameSt_setPort s (p := p1) rfl m

theorem loseBundle_st (s : State) (n : Fin 8) (b : TxBundle) : SameSt s (loseBundle s n b) := by
  unfold loseBundle
  extract_lets s1 s2 p
  have h1 : SameSt s s1 := sameSt_keeps (P := [.page .xl]) (cntPreg_keeps _ _ _ (by omega) (by simp [classOf]) (logLost_keeps _ _ _ _ _ _ (Keeps.refl _ s))) (by decide)
  have h2 : SameSt s s2 := by
    simp only [s2]
    split
    · split_ifs
      · exact h1
      · exact h1.trans (freeBerth_st _ _ _)
    · exact h1
  split_ifs
  · exact h2.trans (sameSt_setPort _ rfl)
  · exact h2

theorem loseUnit_st (s : State) (n : Fin 8) (u : RUnit) : SameSt s (loseUnit s n u) := by
  cases u with
  | bundle b => exact loseBundle_st s n b
  | word w => exact sameSt_keeps (logLost_keeps' s n _ _ _ _ _) (by decide)

theorem dropReceived_st (s : State) (n : Fin 8) : SameSt s (dropReceived s n) := by
  unfold dropReceived
  refine sameSt_foldl (fun t k => ?_) _ _
  refine SameSt.trans ?_ (sameSt_foldl (fun u b => loseBundle_st u n b) _ _)
  exact sameSt_setPort t rfl

theorem dropTraffic_st (s : State) (n : Fin 8) : SameSt s (dropTraffic s n) := by
  unfold dropTraffic
  extract_lets s1 s2 p units s3 all s4 p4 s5 s6
  have h1 : SameSt s s1 := by
    simp only [s1, Machine.when]
    split_ifs <;> exact SameSt.refl s
  clear_value s1
  have h2 : SameSt s s2 := h1.trans (sameSt_foldl (fun t o => closeBundle_st t n _) _ _)
  have h3 : SameSt s s3 := h2.trans (sameSt_setPort s2 rfl)
  clear_value s3
  have h4 : SameSt s s4 := (h3.trans (sameSt_foldl (fun t u => loseUnit_st t n u) _ _)).trans (dropReceived_st _ _)
  clear_value s4
  have h5 : SameSt s s5 := h4.trans (sameSt_setPort s4 rfl)
  clear_value s5
  have h6 : SameSt s s6 := by
    simp only [s6, Machine.when]
    split_ifs
    · exact h5.trans (sameSt_keeps (P := [.page .xl]) (goDone_keeps _ _ _ (by omega) (by simp [classOf]) (Keeps.refl _ s5)) (by decide))
    · exact h5
  clear_value all s6
  cases all with
  | nil => exact h6
  | cons u l => exact h6.trans (sameSt_keeps (P := [.page .xl]) (raiseErr_keeps _ _ _ (by simp [classOf]) (Keeps.refl _ s6)) (by decide))

/-! ## Every port that is up is fenced -/

theorem fencePort_fenced (s : State) (n : Fin 8) : fenced (fencePort s n) (.xl n) = true := by
  by_cases h : fenced s (.xl n) = true
  · have hsame : fencePort s n = orPreg s (.xl n) 8 2 := if_pos h
    rw [hsame]
    unfold fenced
    simp [bit_or]
    right
    decide
  · exact (fencePort_after (by simpa using h)).1

theorem setPortState_port_other (s : State) {n m : Fin 8} (st : PortState) (h : m ≠ n) : (setPortState s n st).port m = s.port m := by
  unfold setPortState withReady
  split_ifs
  · rfl
  · rw [readyLog_port, raiseInt_port, setPort_port_other _ _ h]

/-- Another port keeps its state, and stays fenced if it was. -/
theorem fencePort_other (s : State) {n m : Fin 8} (h : m ≠ n) :
    ((fencePort s n).port m).st = (s.port m).st ∧ fenced (fencePort s n) (.xl m) = fenced s (.xl m) := by
  have hreg : preg (orPreg s (.xl n) 8 2) (.xl m) 8 = preg s (.xl m) 8 := by simp [h]
  by_cases hf : fenced s (.xl n) = true
  · have hsame : fencePort s n = orPreg s (.xl n) 8 2 := if_pos hf
    rw [hsame]
    exact ⟨rfl, congrArg (bit · 1) hreg⟩
  · have hdown : fencePort s n = setPortState (dropTraffic (orPreg s (.xl n) 8 2) n) n .down := if_neg hf
    rw [hdown]
    refine ⟨?_, ?_⟩
    · rw [setPortState_port_other _ _ h]
      exact dropTraffic_st (orPreg s (.xl n) 8 2) n m
    · unfold fenced
      rw [preg_setPortState _ _ _ _ (by omega) (by omega), preg_dropTraffic _ _ _ ⟨by omega, rfl, by omega, by omega, by omega⟩, hreg]

theorem fencePage_port (s : State) (n : Fin 8) : Keeps [.boot] (fencePort s n) (fencePage s (.xl n)) := readyLog_keeps' _

theorem fencePage_port_keeps (s : State) (n : Fin 8) : Keeps [.page .xl, .ports, .boot] s (fencePage s (.xl n)) :=
  (fencePort_keeps n (by decide) (Keeps.refl _ s)).trans ((fencePage_port s n).mono (by decide))

theorem keeps_fenced {P : List Part} {s t : State} (h : Keeps P s t) (n : Fin 8) (hp : Part.page .xl ∉ P) : fenced t (.xl n) = fenced s (.xl n) := by
  unfold fenced
  rw [h.preg (p := .xl n) hp (by omega) (by simp) (by simp)]

/-- A pass over a list that keeps `Q` and `R`, and turns `Q` into `R` at one of its members. -/
theorem foldl_turns {α : Type} {Q R : State → Prop} {g : State → α → State} {i : α} (hQ : ∀ t j, Q t → Q (g t j)) (hR : ∀ t j, R t → R (g t j))
    (hi : ∀ t, Q t → R (g t i)) {l : List α} (h : i ∈ l) {s : State} (hs : Q s) : R (l.foldl g s) := by
  induction l generalizing s with
  | nil => cases h
  | cons a l ih =>
    rcases List.mem_cons.mp h with rfl | h
    · exact List.foldlRecOn (motive := R) l g (hi s hs) fun t ht j _ => hR t j ht
    · exact ih h (hQ s a hs)

/-- The ports that are up, fenced one after the other. -/
def upFenced (s : State) : State := (List.finRange 8).foldl (fun t k => if (t.port k).st = .up then fencePage t (.xl k) else t) s

theorem upFenced_keeps (s : State) : Keeps [.page .xl, .ports, .boot] s (upFenced s) :=
  keeps_foldl (fun t k ht => keeps_ite (fun _ => ht.trans (fencePage_port_keeps t k)) (fun _ => ht)) _ (Keeps.refl _ s)

theorem upFenced_fenced {s : State} {n : Fin 8} (h : (s.port n).st = .up) : fenced (upFenced s) (.xl n) = true := by
  have hfence : ∀ t : State, fenced (fencePage t (.xl n)) (.xl n) = true := fun t =>
    (keeps_fenced (fencePage_port t n) n (by decide)).trans (fencePort_fenced t n)
  have hother : ∀ (t : State) (j : Fin 8), n ≠ j → ((fencePage t (.xl j)).port n).st = (t.port n).st ∧ fenced (fencePage t (.xl j)) (.xl n) = fenced t (.xl n) :=
    fun t j hj => by
      obtain ⟨hst, hf⟩ := fencePort_other t hj
      rw [(fencePage_port t j).port (by decide) n, keeps_fenced (fencePage_port t j) n (by decide)]
      exact ⟨hst, hf⟩
  have hkept : ∀ (t : State) (j : Fin 8), fenced t (.xl n) = true → fenced (if (t.port j).st = .up then fencePage t (.xl j) else t) (.xl n) = true :=
    fun t j ht => by
      split_ifs
      · by_cases hj : n = j
        · subst hj
          exact hfence t
        · rw [(hother t j hj).2, ht]
      · exact ht
  refine foldl_turns (Q := fun t : State => (t.port n).st = .up ∨ fenced t (.xl n) = true) (R := fun t : State => fenced t (.xl n) = true)
    (i := n) (fun t j ht => ?_) hkept (fun t ht => ?_) (List.mem_finRange n) (.inl h)
  · rcases ht with ht | ht
    · by_cases hj : n = j
      · subst hj
        rw [if_pos ht]
        exact .inr (hfence t)
      · split_ifs
        · exact .inl ((hother t j hj).1.trans ht)
        · exact .inl ht
    · exact .inr (hkept t j ht)
  · rcases ht with ht | ht
    · rw [if_pos ht]
      exact hfence t
    · exact hkept t n ht

/-! ## The steps before the reset -/

theorem finishChunk_keeps' (s : State) : Keeps [.pl] s (finishChunk s) := finishChunk_keeps (by decide) (Keeps.refl _ s)

theorem finishChunk_chunk (s : State) : (finishChunk s).pl.chunk = false := by
  unfold finishChunk
  split_ifs with h
  · rfl
  · simpa using h

theorem writeBackAll_keeps' (s : State) : Keeps [.page .ep, .page .mc, .dm, .cxl, .frz, .scrubs] s (writeBackAll s) :=
  writeBackAll_keeps (by decide) (Keeps.refl _ s)

/-- The steps before a PERST_N reset (15 R622). -/
theorem perstPrepare_after (s : State) :
    Keeps [.page .xl, .page .ep, .page .mc, .ports, .dm, .cxl, .frz, .scrubs, .pl, .boot] s (perstPrepare s) ∧ (perstPrepare s).boot.preparing = true ∧
      (perstPrepare s).pl.chunk = false ∧ ∀ n : Fin 8, (s.port n).st ≠ .up ∨ fenced (perstPrepare s) (.xl n) = true := by
  unfold perstPrepare
  extract_lets n s1 s2 b s3
  have hk1 : Keeps [] s s1 := logBootWith_keeps _ _ _ _ (Keeps.refl _ s)
  have hs2 : s2 = upFenced s1 := rfl
  have hk2 : Keeps [.page .xl, .ports, .boot] s1 s2 := hs2 ▸ upFenced_keeps s1
  have hk3 : Keeps [.boot] s2 s3 := put_boot_keeps _ (by decide) (Keeps.refl _ s2)
  have hprep : s3.boot.preparing = true := rfl
  clear_value s3 s2 s1
  have hk4 := finishChunk_keeps' s3
  have hk5 := writeBackAll_keeps' (finishChunk s3)
  refine ⟨?_, ?_, ?_, fun n => ?_⟩
  · exact (((hk1.mono (by simp)).trans (hk2.mono (by decide))).trans (hk3.mono (by decide))).trans ((hk4.mono (by decide)).trans (hk5.mono (by decide)))
  · rw [hk5.bootField (by decide) Boot.preparing, hk4.bootField (by decide) Boot.preparing, hprep]
  · rw [(hk5 .pl (by decide) : (writeBackAll (finishChunk s3)).pl = _)]
    exact finishChunk_chunk s3
  · by_cases hup : (s.port n).st = .up
    · right
      have hup1 : (s1.port n).st = .up := by rw [hk1.port (by simp) n, hup]
      rw [keeps_fenced hk5 n (by decide), keeps_fenced hk4 n (by decide), keeps_fenced hk3 n (by decide), hs2]
      exact upFenced_fenced hup1
    · exact .inl hup

theorem onset_perst (s : State) (conn cond : Nat) (report : Bool) : (onset s conn cond report).mod.perst = s.mod.perst := by
  by_cases h : s.mod.present.contains (condKey conn cond) = true
  · have hsame : onset s conn cond report = s := if_pos h
    rw [hsame]
  · rw [onset_new report (by simpa using h)]

/-- A fall of PERST_N with main power good begins the reset (14 R594). -/
theorem perstLevel_falls {s : State} {l : PinLevel} (hperst : s.mod.perst = .high) (hon : s.mod.mainOn = true) (hprep : s.boot.preparing = false)
    (hl : l ≠ .high) : ∃ u, perstLevel s l = perstPrepare u ∧ Keeps [.page .al, .mod] s u ∧ u.mod.perst = l := by
  have hmod : Keeps [.page .al, .mod] s { s with mod := { s.mod with perst := l } } := put_mod_keeps _ (by decide) (Keeps.refl _ s)
  refine ⟨if l = .opened then onset { s with mod := { s.mod with perst := l } } 3 condOpen true else normal { s with mod := { s.mod with perst := l } } 3,
    ?_, ?_, ?_⟩
  · exact if_pos (by simp [hperst, hon, hprep, hl])
  · split_ifs
    · exact onset_keeps _ _ _ (by decide) hmod
    · exact normal_keeps _ (by decide) hmod
  · split_ifs
    · exact onset_perst _ _ _ _
    · rfl

theorem perstLevel_begins {s : State} {l : PinLevel} (hperst : s.mod.perst = .high) (hon : s.mod.mainOn = true) (hprep : s.boot.preparing = false)
    (hl : l ≠ .high) :
    Keeps [.page .xl, .page .al, .page .ep, .page .mc, .ports, .dm, .cxl, .frz, .scrubs, .pl, .mod, .boot] s (perstLevel s l) ∧
      (perstLevel s l).boot.preparing = true ∧ (perstLevel s l).mod.perst = l ∧ (perstLevel s l).pl.chunk = false ∧
      ∀ n : Fin 8, (s.port n).st ≠ .up ∨ fenced (perstLevel s l) (.xl n) = true := by
  obtain ⟨u, hu, hk, hlevel⟩ := perstLevel_falls hperst hon hprep hl
  obtain ⟨hkp, hpreparing, hchunk, hfenced⟩ := perstPrepare_after u
  rw [hu]
  refine ⟨(hk.mono (by decide)).trans (hkp.mono (by decide)), hpreparing, ?_, hchunk, fun n => ?_⟩
  · rw [(hkp .mod (by decide) : (perstPrepare u).mod = u.mod), hlevel]
  · rw [← hk.port (by decide) n]
    exact hfenced n

theorem perstLevel_high (s : State) : perstLevel s .high = normal { s with mod := { s.mod with perst := .high } } 3 :=
  if_neg (by simp)

/-! ## The reset -/

/-- The device as a PERST_N reset makes it, before its entries. -/
def perstBlank (s : State) : State := deviceReset (aliveLow (writeAll s)) false

theorem perstDone_eq {s : State} (hprep : s.boot.preparing = true) (hsnap : s.lb.snap = none) :
    perstDone s = stageStart (unfusedEntry (perstBlank s)) 0 := if_neg (by simp [hprep, hsnap])

/-- What a PERST_N reset keeps besides the always-on domain (15 R621). -/
structure PerstKept (s t : State) : Prop where
  blank : Blank t
  slots : t.lb.slots = s.lb.slots
  newest : t.lb.newest = s.lb.newest
  snap : t.lb.snap = none
  dm : t.dm = s.dm
  poison : t.poison = s.poison
  map : t.pl.map = s.pl.map
  cur : t.pl.cur = s.pl.cur
  fails : t.gp.fails = s.gp.fails
  locked : t.gp.locked = s.gp.locked
  bootCount : preg t .dev 0x124 = preg s .dev 0x124
  mod : t.mod = { s.mod with refFlip := false }
  pending : t.pending = s.pending

theorem perstBlank_kept (s : State) : PerstKept s (perstBlank s) := by
  obtain ⟨hslots, hnewest, hk⟩ := aliveLow_written s
  have hdm := hk .dm (by decide)
  have hpl : (aliveLow (writeAll s)).pl = s.pl := hk .pl (by decide)
  have hgp : (aliveLow (writeAll s)).gp = s.gp := hk .gp (by decide)
  refine ⟨deviceReset_blank _ _, hslots, hnewest, rfl, hdm.1, hdm.2, (congrArg Placement.map hpl :), (congrArg Placement.cur hpl :),
    (congrArg Gangplank.fails hgp :), (congrArg Gangplank.locked hgp :), ?_, ?_, hk .pending (by decide)⟩
  · exact (sget_sset_same regReset [] 0x124 _).trans (hk.preg (p := .dev) (k := 0x124) (by decide) (by omega) (by simp) (by simp))
  · exact (congrArg (fun m : Module => { m with refFlip := false }) (hk .mod (by decide) : (aliveLow (writeAll s)).mod = s.mod) :)

/-- Settles O58: the steps, the reset and its end follow R620 to R622 and R634. -/
theorem perstReset : Obligations.PerstReset := by
  refine ⟨?assert, ?opened, ?done, ?waits, ?release⟩
  case assert =>
    intro s o hperst hon hprep
    obtain ⟨hk, hpreparing, hlevel, hchunk, hfenced⟩ := perstLevel_begins (l := if o then .opened else .low) hperst hon hprep (by cases o <;> decide)
    exact ⟨_, rfl, hk, hpreparing, hlevel, hfenced, hchunk, hk .cores (by decide)⟩
  case opened =>
    intro s hperst hon hprep
    obtain ⟨hk, hpreparing, hlevel, -, -⟩ := perstLevel_begins (l := .opened) hperst hon hprep (by decide)
    exact ⟨_, rfl, hk, hpreparing, hlevel⟩
  case done =>
    intro s hprep hsnap
    have hkept := perstBlank_kept s
    have hdone := perstDone_eq hprep hsnap
    have hboot : (perstBlank s).boot.kind = 1 ∧ (perstBlank s).boot.preparing = false := ⟨rfl, rfl⟩
    have hinq : (perstBlank s).lb.inq = [] := rfl
    set u := perstBlank s
    clear_value u
    obtain ⟨f, q, hgo⟩ := bootStart_room (s := u) (by simp [hinq])
    have hend : perstDone s = { u with fresh := f, lb := { u.lb with inq := q }, boot := { u.boot with stage := 0 } } := hdone.trans hgo
    obtain ⟨⟨hcores, hlocks, hmesh, htide, hclusters, hslices, hcxl, hfrz, hports, hmailboxes, hctxs⟩, hslots, hnewest, hsnap', hdm, hpoison, hmap, hcur,
      hfails, hlocked, hcount, hmod, hpending⟩ := hkept
    refine ⟨perstDone s, rfl, keeps_rest (by rw [hend]; exact hpending), ?_⟩
    rw [hend]
    exact ⟨hcores, hlocks, hmesh, htide, hclusters, hslices, hcxl, hfrz, hports, hmailboxes, hctxs, hslots, hnewest, hsnap', hdm, hpoison, hmap, hcur,
      hfails, hlocked, hcount, hmod, hboot.1, rfl, hboot.2⟩
  case waits =>
    intro s hprep hsnap
    have hsame : perstDone s = s := if_pos (.inr hsnap)
    exact ⟨s, congrArg Host.Outcome.next hsame, Keeps.refl _ s, hprep⟩
  case release =>
    intro s
    have hu := perstLevel_high s
    set u := perstLevel s .high with hudef
    have hk : Keeps [.mod] s u := by rw [hu]; exact normal_keeps _ (by decide) (put_mod_keeps _ (by decide) (Keeps.refl _ s))
    have hout : u.out = s.out := by rw [hu]; rfl
    have hlevel : u.mod.perst = .high := by rw [hu]; rfl
    have hlink : u.cxl.link = s.cxl.link := by rw [hu]; rfl
    clear_value u
    have htrain : exec .perstNRelease s = .next (if mayTrain u && !(mayTrain s) && decide (u.cxl.link = .down) then emit u (.linkReq 0) else u) := by
      rw [hudef]
      rfl
    by_cases hgo : (mayTrain u && !(mayTrain s) && decide (u.cxl.link = .down)) = true
    · rw [if_pos hgo] at htrain
      exact ⟨_, htrain, emit_keeps _ hk, hlevel, .inr (.inr (.inr (congrArg (· ++ [Out.linkReq 0]) hout)))⟩
    · rw [if_neg hgo] at htrain
      refine ⟨u, htrain, hk, hlevel, ?_⟩
      rw [hlink] at hgo
      by_contra hall
      simp only [not_or] at hall
      obtain ⟨h1, h2, h3, -⟩ := hall
      exact hgo (by simp_all)

end Sys2Proof
end

section
/-! PROOFS. Cores reset, fenced and released: what stays of a core, and of the registers of its page (04 R134, R146). -/

namespace Sys2Proof

open Sys2Proof.Machine

/-! ## What losing locks leaves of every core -/

/-- Every core has the epoch and the memories it had. -/
def SameStores (s t : State) : Prop :=
  ∀ i : Fin 256, (t.core i).epoch = (s.core i).epoch ∧ (t.core i).ldm = (s.core i).ldm ∧ (t.core i).imem = (s.core i).imem

theorem SameStores.refl (s : State) : SameStores s s := fun _ => ⟨rfl, rfl, rfl⟩

theorem SameStores.trans {s t u : State} (h : SameStores s t) (k : SameStores t u) : SameStores s u := fun i => by
  obtain ⟨h1, h2, h3⟩ := h i
  obtain ⟨k1, k2, k3⟩ := k i
  exact ⟨k1.trans h1, k2.trans h2, k3.trans h3⟩

theorem sameStores_keeps {P : List Part} {s t : State} (h : Keeps P s t) (hc : Part.cores ∉ P) : SameStores s t := fun i => by
  rw [h.core hc i]
  exact ⟨rfl, rfl, rfl⟩

theorem sameStores_setCore (s : State) {id : Fin 256} {c : Core} (he : c.epoch = (s.core id).epoch) (hl : c.ldm = (s.core id).ldm)
    (hi : c.imem = (s.core id).imem) : SameStores s (s.setCore id c) := fun i => by
  by_cases h : i = id
  · subst h
    rw [setCore_core_same]
    exact ⟨he, hl, hi⟩
  · rw [setCore_core_other _ _ h]
    exact ⟨rfl, rfl, rfl⟩

theorem sameStores_foldl {α : Type} {g : State → α → State} (h : ∀ t a, SameStores t (g t a)) (l : List α) (s : State) : SameStores s (l.foldl g s) :=
  List.foldlRecOn (motive := SameStores s) l g (SameStores.refl s) fun t ht a _ => ht.trans (h t a)

theorem setS_stores (c : Core) (rd : SReg) (v : W64) : (c.setS rd v).epoch = c.epoch ∧ (c.setS rd v).ldm = c.ldm ∧ (c.setS rd v).imem = c.imem := by
  unfold Core.setS
  split_ifs <;> exact ⟨rfl, rfl, rfl⟩

theorem setWaits_stores (s : State) {id : Fin 256} {c : Core} (ws : List Wait) (he : c.epoch = (s.core id).epoch) (hl : c.ldm = (s.core id).ldm)
    (hi : c.imem = (s.core id).imem) : SameStores s (setWaits s id c ws) := by
  cases ws with
  | nil => exact sameStores_setCore s he hl hi
  | cons w l => exact sameStores_setCore s he hl hi

theorem endWait_stores (s : State) (id : Fin 256) (w : Wait) (rd : SReg) (v : W64) : SameStores s (endWait s id w rd v) := by
  obtain ⟨he, hl, hi⟩ := setS_stores (s.core id) rd v
  exact setWaits_stores s _ he hl hi

theorem serveLock_stores (s : State) (n : Fin 1024) (from_ : Option Nat) : SameStores s (serveLock s n from_) := by
  have hcnt : ∀ u : State, SameStores s u → SameStores s (cntPreg u .ml 0x118 1) := fun u hu =>
    hu.trans (sameStores_keeps (P := [.page .ml]) (cntPreg_keeps _ _ _ (by omega) (by decide) (Keeps.refl _ u)) (by decide))
  have hset : ∀ l : Lock, SameStores s (s.setLock n l) := fun l => sameStores_keeps (P := [.locks]) (State.setLock_keeps _ _ (by decide) (Keeps.refl _ s)) (by decide)
  unfold serveLock
  extract_lets l
  split
  · exact SameStores.refl s
  · extract_lets r s1
    split
    · exact (hcnt _ (hset _)).trans (endWait_stores _ _ _ _ _)
    · exact hcnt _ (hset _)

theorem breakLock_stores (s : State) (n : Fin 1024) : SameStores s (breakLock s n) := by
  have hbroken : ∀ l : Lock, ∀ a, SameStores s (raiseErr (cntPreg (s.setLock n l) .ml 0x11C 1) .ml 2 a) := fun l a =>
    sameStores_keeps (P := [.page .ml, .locks]) (raiseErr_keeps _ _ _ (by decide) (cntPreg_keeps _ _ _ (by omega) (by decide)
      (State.setLock_keeps _ _ (by decide) (Keeps.refl _ s)))) (by decide)
  unfold breakLock
  exact (hbroken _ _).trans (serveLock_stores _ _ _)

theorem loseLocks_stores (s : State) (ids : List (Fin 256)) : SameStores s (loseLocks s ids) := by
  have hqueues : ∀ (t : State) (i : Fin 256), SameStores t (leaveQueues t i) := fun t i =>
    sameStores_keeps (P := [.locks]) (leaveQueues_keeps _ (by decide) (Keeps.refl _ t)) (by decide)
  have hbreak : ∀ (t : State) (i : Fin 256), SameStores t (breakLocksOf t i) := fun t i => by
    unfold breakLocksOf
    refine sameStores_foldl (fun u n => ?_) _ _
    split_ifs
    · exact breakLock_stores u n
    · exact SameStores.refl u
  exact (sameStores_foldl hqueues _ _).trans (sameStores_foldl hbreak _ _)

theorem loseLocks_keeps' (s : State) (ids : List (Fin 256)) : Keeps [.page .ml, .page .sd, .cores, .locks, .sd] s (loseLocks s ids) :=
  loseLocks_keeps _ (by decide) (Keeps.refl _ s)

/-! ## A core reset -/

theorem preg_resetRegs (s : State) (p : Page) (keep : Nat → Bool) {k : Nat} (hk : k < 0x100) : preg (resetRegs s p keep) p k = preg s p k :=
  sget_filter regReset _ _ fun v => by
    simp only [Bool.not_eq_true', Bool.and_eq_false_iff, decide_eq_false_iff_not]
    left; left
    omega

theorem preg_dropFilling (s : State) (id : Fin 256) {k : Nat} (hk : k < 0x1000) (herr : errReg k = false) (h240 : k ≠ 0x240) :
    preg (dropFilling s id) (.gc id) k = preg s (.gc id) k := by
  unfold dropFilling
  extract_lets mine
  refine List.foldlRecOn (motive := fun t : State => preg t (.gc id) k = preg s (.gc id) k) _ _ rfl fun t ht m _ => ?_
  unfold dropMsg
  extract_lets s1
  rw [preg_raiseErr _ _ _ hk (fun _ => herr) (by simp), preg_cntPreg _ _ (by omega) hk, if_neg (fun e => h240 e.2), ht]

/-- What a reset of a core makes of it and of CTRL of its page (04 R146). -/
theorem clearCore_after (s : State) (id : Fin 256) :
    (clearCore s id).core id = coreCleared (s.core id) .reset ∧ preg (clearCore s id) (.gc id) 8 = preg s (.gc id) 8 := by
  have hx : Keeps [.ports] s (xlCancel s id) := xlCancel_keeps _ (by decide) (Keeps.refl _ s)
  have hcore : ∀ u : State, ((dropFilling (resetRegs u (.gc id) gcKept) id).core id) = u.core id := fun u =>
    (dropFilling_keeps (P := [.page .gc, .mesh]) id (by decide) (resetRegs_keeps (.gc id) gcKept (by simp [classOf]) (Keeps.refl _ u))).core (by decide) id
  have hreg : ∀ u : State, preg (dropFilling (resetRegs u (.gc id) gcKept) id) (.gc id) 8 = preg u (.gc id) 8 := fun u => by
    rw [preg_dropFilling _ _ (by omega) rfl (by omega), preg_resetRegs _ _ _ (by omega)]
  unfold clearCore
  extract_lets s2 s3 s4 f
  have h3 : s3.core id = coreCleared (s.core id) .reset := by
    rw [setCore_core_same, hx.core (by decide) id]
  have h3r : preg s3 (.gc id) 8 = preg s (.gc id) 8 := by
    rw [preg_setCore _ _ _ (by omega) (by simp) (by simp) (fun e => by cases e), hx.preg (by simp) (by omega) (by simp) (fun e => by cases e.1)]
  clear_value s3
  have h4 : s4.core id = s3.core id := hcore s3
  have h4r : preg s4 (.gc id) 8 = preg s3 (.gc id) 8 := hreg s3
  clear_value s4
  exact ⟨(core_update.trans h4).trans h3, (preg_update.trans h4r).trans h3r⟩

theorem resetCore_after (s : State) (id : Fin 256) :
    (∃ c : Core, (resetCore s id).core id = coreCleared c .reset ∧ c.epoch = (s.core id).epoch ∧ c.ldm = (s.core id).ldm ∧ c.imem = (s.core id).imem) ∧
      preg (resetCore s id) (.gc id) 8 = preg s (.gc id) 8 := by
  obtain ⟨hcore, hreg⟩ := clearCore_after (loseLocks s [id]) id
  refine ⟨⟨_, hcore, loseLocks_stores s [id] id⟩, hreg.trans ?_⟩
  exact (loseLocks_keeps' s [id]).preg (by simp [classOf]) (by omega) (by simp) (by simp)

theorem resetCore_keeps' (s : State) (id : Fin 256) :
    Keeps [.page .ml, .page .sd, .page .gc, .cores, .mesh, .locks, .sd, .frz, .ports] s (resetCore s id) :=
  resetCore_keeps _ (by decide) (Keeps.refl _ s)

/-! ## A core fenced -/

theorem stopFenced_after (s : State) (id : Fin 256) :
    ((stopFenced s id).core id).st = .fenced ∧ ((stopFenced s id).core id).waits = [] ∧ ((stopFenced s id).core id).ldm = (s.core id).ldm ∧
      preg (stopFenced s id) (.gc id) 8 = preg s (.gc id) 8 &&& ~~~1 := by
  have hx : Keeps [.ports] s (xlCancel s id) := xlCancel_keeps _ (by decide) (Keeps.refl _ s)
  have hclr : ∀ u : State, (clrPreg u (.gc id) 8 1).core id = u.core id := fun _ => rfl
  unfold stopFenced
  extract_lets s2 c d s3
  have h3 : (s3.core id).st = .fenced ∧ (s3.core id).waits = [] ∧ (s3.core id).ldm = (s.core id).ldm := by
    have hset : s3.core id = _ := setCore_core_same _ _ _
    have hc : c = s.core id := hx.core (by decide) id
    rw [hset, hc]
    exact ⟨rfl, rfl, rfl⟩
  have h3r : preg s3 (.gc id) 8 = preg s (.gc id) 8 := by
    rw [preg_setCore _ _ _ (by omega) (by simp) (by simp) (fun e => by cases e), hx.preg (by simp) (by omega) (by simp) (fun e => by cases e.1)]
  clear_value s3
  rw [hclr, preg_clrPreg _ _ (by omega) (by omega), if_pos ⟨rfl, rfl⟩, h3r]
  exact ⟨h3.1, h3.2.1, h3.2.2, rfl⟩

/-- A core that was not fenced before: FENCED, with nothing to wait for, its memory kept and ENABLE cleared (04 R134). -/
theorem fenceCore_after {s : State} {id : Fin 256} (h : (s.core id).st ≠ .fenced) :
    ((fenceCore s id).core id).st = .fenced ∧ ((fenceCore s id).core id).waits = [] ∧ ((fenceCore s id).core id).ldm = (s.core id).ldm ∧
      preg (fenceCore s id) (.gc id) 8 = (preg s (.gc id) 8 ||| 2) &&& ~~~1 := by
  have hnew : fenceCore s id = stopFenced (loseLocks (orPreg s (.gc id) 8 2) [id]) id := by
    unfold fenceCore fenceCores
    simp only [h, ne_eq, not_false_eq_true, decide_true, List.filter_cons_of_pos, List.filter_nil, List.foldl_cons, List.foldl_nil]
  obtain ⟨hst, hwaits, hldm, hreg⟩ := stopFenced_after (loseLocks (orPreg s (.gc id) 8 2) [id]) id
  rw [hnew]
  refine ⟨hst, hwaits, hldm.trans (loseLocks_stores _ [id] id).2.1, hreg.trans ?_⟩
  rw [(loseLocks_keeps' (orPreg s (.gc id) 8 2) [id]).preg (by simp [classOf]) (by omega) (by simp) (by simp), preg_orPreg _ _ (by omega) (by omega),
    if_pos ⟨rfl, rfl⟩]

end Sys2Proof
end

section
/-! PROOFS. Page locks, fences, and the states of a core (03 R83, R94; 04 R132, R134, R160, R161). -/

namespace Sys2Proof

open Sys2Proof.Machine

/-! ## PAGE_LOCK -/

theorem pageLock_plain (p : Page) : PlainReg p 0x44 (r 0x044 0 [f 0 1 .rw]) where
  noCross := fun old v a => by cases p <;> rfl

/-! ## CTRL.FENCE -/

/-- The word that CTRL_FENCE_WRITE writes: ENABLE as it stands, FENCE as asked. -/
theorem fenceWord_bits (e g : Bool) :
    bit (BitVec.ofNat 32 (b2n e + b2n g * 2)) 0 = e ∧ bit (BitVec.ofNat 32 (b2n e + b2n g * 2)) 1 = g ∧ bit (BitVec.ofNat 32 (b2n e + b2n g * 2)) 2 = false := by
  cases e <;> cases g <;> decide

/-- ENABLE and FENCE of a CTRL word where FENCE is set or cleared, and where ENABLE is cleared after it. -/
theorem fence_set (x : W32) : bit (x ||| 2) 0 = bit x 0 ∧ bit (x ||| 2) 1 = true ∧ bit ((x ||| 2) &&& ~~~1) 0 = false ∧ bit ((x ||| 2) &&& ~~~1) 1 = true := by
  simp [bit]

theorem fence_cleared (x : W32) : bit (x &&& ~~~2) 0 = bit x 0 ∧ bit (x &&& ~~~2) 1 = false := by
  simp [bit]

section
variable {s : State} {p : Page} {v : W32}

/-- A page without a core, whose ENABLE is written as it stands: the fence alone acts. -/
theorem ctrlActs_fence (hv : bit v 0 = enabled s p) (hc : pageCore p = none) :
    ctrlActs s p v = fenceAct (ctrlHeld s p v) p (fenced s p) (bit v 1) := if_pos ⟨hv.symm, .inr hc⟩

/-- FENCE written as it stands acts on no page but the endpoint's. -/
theorem fenceAct_same (u : State) (b : Bool) (h : p ≠ .ep) : fenceAct u p b b = u := by
  unfold fenceAct
  cases b <;> simp [h]

end

/-- A change of the page's own registers leaves the core as it was. -/
theorem ctrlHeld_core {s : State} {p : Page} {v : W32} (h : ctrlRow p = ctrlFull) (hu : Unlocked s p) (id : Fin 256) :
    (ctrlHeld s p v).core id = s.core id := (ctrlHeld_keeps h hu).core (by simp) id

/-- What a core is fenced to, through CTRL of its page. -/
theorem fenceCore_enable {u : State} {id : Fin 256} (e : Bool) (hu : (u.core id).st = .fenced) (h : e = true) :
    enableAct u (.gc id) e false = u := by
  subst h
  change gcEnableAct u id true = u
  unfold gcEnableAct
  rw [if_pos rfl, if_neg (by simp [hu])]

/-- The release of a fenced core, before ENABLE acts again: it is reset, its stores kept, its epoch one more (04 R134, R146). -/
theorem fenceAct_release {s h : State} {id : Fin 256} (hcore : h.core id = s.core id) (hf : fenced h (.gc id) = true)
    (hstuck : h.boot.stuck.contains (.gc id) = false) :
    ∃ u, fenceAct h (.gc id) true false = u ∧ Keeps [.page .ml, .page .sd, .page .gc, .cores, .mesh, .locks, .sd, .frz, .ports] h u ∧
      (u.core id).st = .reset ∧ (u.core id).epoch = (s.core id).epoch + 1 ∧ (u.core id).ldm = (s.core id).ldm ∧ fenced u (.gc id) = false := by
  have hclr : (clrPreg h (.gc id) 8 2).core id = h.core id := rfl
  obtain ⟨⟨c, hc, hepoch, hldm, -⟩, hreg⟩ := resetCore_after (clrPreg h (.gc id) 8 2) id
  have hk : Keeps [.page .gc] h (clrPreg h (.gc id) 8 2) := clrPreg_keeps _ _ _ (by omega) (by simp [classOf]) (Keeps.refl _ h)
  refine ⟨resetCore (clrPreg h (.gc id) 8 2) id, ?_, (hk.mono (by decide)).trans (resetCore_keeps' _ id), by rw [hc]; rfl, ?_, ?_, ?_⟩
  · change unfencePage h (.gc id) = _
    unfold unfencePage
    rw [if_neg (by simpa using hstuck)]
    exact if_pos (.inl hf)
  · rw [hc]
    exact congrArg (· + 1) (hepoch.trans (congrArg Core.epoch (hclr.trans hcore)))
  · rw [hc]
    exact hldm.trans (congrArg Core.ldm (hclr.trans hcore))
  · unfold fenced
    rw [hreg, preg_clrPreg _ _ (by omega) (by omega), if_pos ⟨rfl, rfl⟩, (fence_cleared _).2]

/-- Settles O14: a locked page rejects the write, an unlocked one takes it; FENCE stops a unit and its release starts it again. -/
theorem locksAndFences : Obligations.LocksAndFences := by
  refine ⟨?lock, ?locked, ?fence, ?release, ?core, ?coreReset, ?coreParked⟩
  case lock =>
    intro s p v hu
    exact ⟨_, rfl, pageWrite_keeps_plain (pageLock_plain p) hu _ _ (by simp) (Keeps.refl _ s),
      bit_pageWrite (pageLock_plain p) hu 0 (by decide) (by decide) (by omega)⟩
  case locked =>
    intro s p v hl
    have hw : (pageWrite s p 0x44 v).st = pageErr s p 2 0x44 := by rw [pageWrite_locked 0 hl (by simp [lockExempt, lockW1c])]
    refine ⟨pageErr s p 2 0x44, congrArg Host.Outcome.next hw, pageErr_keeps _ _ _ (by simp) (Keeps.refl _ s), ?_, ?_⟩
    · unfold pageErr
      rw [preg_raiseInt _ _ (by omega) (fun _ => by omega) (by simp), preg_set _ _ (by omega) (by omega), if_neg (by omega)]
    · exact pageErr_cause _ _ _ (by decide)
  case fence =>
    intro s n hu hf
    obtain ⟨h0, h1, h2⟩ := fenceWord_bits (enabled s (.dc n)) true
    set v := BitVec.ofNat 32 (b2n (enabled s (.dc n)) + b2n true * 2)
    have hk := ctrlWrite_acts (s := s) (p := .dc n) (v := v) rfl hu h2
    have hacts : ctrlActs s (.dc n) v = readyLog (setFence (ctrlHeld s (.dc n) v) (.dc n)) := by
      rw [ctrlActs_fence h0 rfl, hf, h1]
      rfl
    have hheld := ctrlHeld_keeps (s := s) (p := .dc n) (v := v) rfl hu
    have hen := ctrlHeld_enabled (s := s) (p := .dc n) (v := v) rfl hu
    set h := ctrlHeld s (.dc n) v
    have hset : Keeps [.page .dc] h (setFence h (.dc n)) := setFence_keeps _ (by simp [classOf]) (Keeps.refl _ h)
    have hready := readyLog_keeps' (setFence h (.dc n))
    rw [hacts] at hk
    have hreg : preg (ctrlWrite s (.dc n) v) (.dc n) 8 = preg h (.dc n) 8 ||| 2 := by
      rw [hk.preg (by simp) (by omega) (by simp) (by simp), hready.preg (by simp) (by omega) (by simp) (by simp)]
      simp [setFence]
    refine ⟨ctrlWrite s (.dc n) v, rfl, ?_, ?_, ?_⟩
    · exact (((hheld.mono (by simp [classOf])).trans (hset.mono (by decide))).trans (hready.mono (by decide))).trans (hk.mono (by decide))
    · unfold fenced
      rw [hreg, (fence_set _).2.1]
    · rw [← h0, ← hen]
      unfold enabled
      rw [hreg, (fence_set _).1]
  case release =>
    intro s n hu hstuck
    obtain ⟨h0, h1, h2⟩ := fenceWord_bits (enabled s (.dc n)) false
    set v := BitVec.ofNat 32 (b2n (enabled s (.dc n)) + b2n false * 2)
    have hk := ctrlWrite_acts (s := s) (p := .dc n) (v := v) rfl hu h2
    have hheld := ctrlHeld_keeps (s := s) (p := .dc n) (v := v) rfl hu
    have hwas := ctrlHeld_fenced (s := s) (p := .dc n) (v := v)
    rw [ctrlActs_fence h0 rfl, h1] at hk
    set h := ctrlHeld s (.dc n) v
    have hstuck' : h.boot.stuck.contains (.dc n) = false := by rw [hheld.bootField (by simp [classOf]) Boot.stuck, hstuck]
    have hact : ∀ u, fenceAct h (.dc n) (fenced s (.dc n)) false = u → Keeps [.page .dc] h u → fenced u (.dc n) = false →
        Runs (.ctrlFenceWrite (.dc n) false) s [.page .dc, .boot] fun t => fenced t (.dc n) = false := fun u hact hku hfu => by
      rw [hact] at hk
      refine ⟨ctrlWrite s (.dc n) v, rfl, ((hheld.mono (by simp [classOf])).trans (hku.mono (by decide))).trans (hk.mono (by decide)), ?_⟩
      change fenced (ctrlWrite s (.dc n) v) (.dc n) = false
      unfold fenced at hfu ⊢
      rwa [hk.preg (by simp) (by omega) (by simp) (by simp)]
    cases hf : fenced s (.dc n) with
    | false => exact hact h (by rw [hf]; exact fenceAct_same _ _ (by simp)) (Keeps.refl _ h) (hwas.trans hf)
    | true =>
      refine hact (clrPreg h (.dc n) 8 2) ?_ (clrPreg_keeps _ _ _ (by omega) (by simp [classOf]) (Keeps.refl _ h)) ?_
      · rw [hf]
        change unfencePage h (.dc n) = _
        unfold unfencePage
        rw [if_neg (by simpa using hstuck')]
      · unfold fenced
        rw [preg_clrPreg _ _ (by omega) (by omega), if_pos ⟨rfl, rfl⟩, (fence_cleared _).2]
  case core =>
    intro s id hu hf hst
    obtain ⟨h0, h1, h2⟩ := fenceWord_bits (enabled s (.gc id)) true
    set v := BitVec.ofNat 32 (b2n (enabled s (.gc id)) + b2n true * 2)
    have hk := ctrlWrite_acts (s := s) (p := .gc id) (v := v) rfl hu h2
    have hheld := ctrlHeld_keeps (s := s) (p := .gc id) (v := v) rfl hu
    have hcore := ctrlHeld_core (s := s) (p := .gc id) (v := v) rfl hu id
    obtain ⟨hst', hwaits, hldm, hreg⟩ := fenceCore_after (s := ctrlHeld s (.gc id) v) (id := id) (by rw [hcore]; exact hst)
    have hready := readyLog_keeps' (fenceCore (ctrlHeld s (.gc id) v) id)
    have hfenced : Keeps [.page .ml, .page .sd, .page .gc, .cores, .locks, .sd, .ports] (ctrlHeld s (.gc id) v) (fenceCore (ctrlHeld s (.gc id) v) id) :=
      fenceCore_keeps _ (by decide) (Keeps.refl _ _)
    have hfst : ((readyLog (fenceCore (ctrlHeld s (.gc id) v) id)).core id).st = .fenced := by rw [hready.core (by decide) id, hst']
    have hacts : ctrlActs s (.gc id) v = readyLog (fenceCore (ctrlHeld s (.gc id) v) id) := by
      unfold ctrlActs
      rw [hf, h1, h0]
      cases he : enabled s (.gc id) with
      | false => exact if_pos ⟨rfl, .inl rfl⟩
      | true => exact (if_neg (by simp [pageCore])).trans (fenceCore_enable true hfst rfl)
    rw [hacts] at hk
    set u := fenceCore (ctrlHeld s (.gc id) v) id
    have hcoreT : (ctrlWrite s (.gc id) v).core id = u.core id := (hk.core (by decide) id).trans (hready.core (by decide) id)
    have hregT : preg (ctrlWrite s (.gc id) v) (.gc id) 8 = (preg (ctrlHeld s (.gc id) v) (.gc id) 8 ||| 2) &&& ~~~1 := by
      rw [hk.preg (by simp) (by omega) (by simp) (by simp), hready.preg (by simp) (by omega) (by simp) (by simp), hreg]
    refine ⟨ctrlWrite s (.gc id) v, rfl, ?_, by rw [hcoreT, hst'], by rw [hcoreT, hwaits], by rw [hcoreT, hldm, hcore], ?_, ?_⟩
    · exact (((hheld.mono (by simp [classOf])).trans (hfenced.mono (by decide))).trans (hready.mono (by decide))).trans (hk.mono (by decide))
    · unfold enabled
      rw [hregT, (fence_set _).2.2.1]
    · unfold fenced
      rw [hregT, (fence_set _).2.2.2]
  case coreReset =>
    intro s id hu hf hst hen hstuck
    obtain ⟨h0, h1, h2⟩ := fenceWord_bits (enabled s (.gc id)) false
    set v := BitVec.ofNat 32 (b2n (enabled s (.gc id)) + b2n false * 2)
    have hk := ctrlWrite_acts (s := s) (p := .gc id) (v := v) rfl hu h2
    have hheld := ctrlHeld_keeps (s := s) (p := .gc id) (v := v) rfl hu
    obtain ⟨u, hact, hku, hst', hepoch, hldm, hfu⟩ := fenceAct_release (s := s) (ctrlHeld_core (v := v) rfl hu id) (ctrlHeld_fenced.trans hf)
      (by rw [hheld.bootField (by simp [classOf]) Boot.stuck, hstuck])
    have hacts : ctrlActs s (.gc id) v = u := by
      unfold ctrlActs
      rw [hf, h1, h0, hen]
      exact (if_pos ⟨rfl, .inl rfl⟩).trans hact
    rw [hacts] at hk
    have hcoreT : (ctrlWrite s (.gc id) v).core id = u.core id := hk.core (by decide) id
    refine ⟨ctrlWrite s (.gc id) v, rfl, ?_, by rw [hcoreT, hst'], by rw [hcoreT, hepoch], by rw [hcoreT, hldm], ?_⟩
    · exact ((hheld.mono (by simp [classOf])).trans (hku.mono (by decide))).trans (hk.mono (by decide))
    · unfold fenced at hfu ⊢
      rwa [hk.preg (by simp) (by omega) (by simp) (by simp)]
  case coreParked =>
    intro s id hu hf hst hen hstuck
    obtain ⟨h0, h1, h2⟩ := fenceWord_bits (enabled s (.gc id)) false
    set v := BitVec.ofNat 32 (b2n (enabled s (.gc id)) + b2n false * 2)
    have hk := ctrlWrite_acts (s := s) (p := .gc id) (v := v) rfl hu h2
    have hheld := ctrlHeld_keeps (s := s) (p := .gc id) (v := v) rfl hu
    obtain ⟨u, hact, hku, hst', hepoch, -, hfu⟩ := fenceAct_release (s := s) (ctrlHeld_core (v := v) rfl hu id) (ctrlHeld_fenced.trans hf)
      (by rw [hheld.bootField (by simp [classOf]) Boot.stuck, hstuck])
    set c : Core := { u.core id with st := .parked, part := BitVec.ofNat 4 (partOfCluster u (clusterOf id).val) }
    have hacts : ctrlActs s (.gc id) v = u.setCore id c := by
      unfold ctrlActs
      rw [hf, h1, h0, hen, if_neg (by simp [pageCore]), hact]
      change gcEnableAct u id true = _
      unfold gcEnableAct
      rw [if_pos rfl, if_pos ⟨hst', hfu⟩]
    rw [hacts] at hk
    have hset := setCore_keeps' u id c
    have hcoreT : (ctrlWrite s (.gc id) v).core id = c := (hk.core (by decide) id).trans (setCore_core_same _ _ _)
    refine ⟨ctrlWrite s (.gc id) v, rfl, ?_, by rw [hcoreT], by rw [hcoreT]; exact hepoch, ?_⟩
    · exact ((hheld.mono (by simp [classOf])).trans (hku.mono (by decide))).trans ((hset.mono (by decide)).trans (hk.mono (by decide)))
    · unfold fenced at hfu ⊢
      rwa [hk.preg (by simp) (by omega) (by simp) (by simp), preg_setCore _ _ _ (by omega) (by simp) (by simp) (by simp)]

end Sys2Proof
end

section
/-! PROOFS. The states of a core: enabled, started, parked, kicked (04 R132, R160, R161). -/

namespace Sys2Proof

open Sys2Proof.Machine

/-! ## Registers of core control -/

theorem gcStart_plain (core : Fin 256) : PlainReg (.gc core) 0x110 gcStartRow := {}

theorem gcKick_plain (core : Fin 256) : PlainReg (.gc core) 0x114 (r 0x114 0 [f 0 5 .rw, f 8 1 .go]) := {}

/-- The PC field of GC_START names a bundle by its address (04 R135). -/
theorem pcOf_word (x : W32) : (x &&& 0xFFF0).setWidth 16 = BitVec.ofNat 16 (fld x 4 12 * 16) := by
  refine BitVec.eq_of_getLsbD_eq fun i hi => ?_
  have hmask : (0xFFF0 : W32).getLsbD i = decide (4 ≤ i) := by
    interval_cases i <;> rfl
  have hshift : Nat.testBit (fld x 4 12 * 2 ^ 4) i = (decide (4 ≤ i) && x.getLsbD i) := by
    rw [Nat.testBit_mul_two_pow]
    by_cases h : 4 ≤ i
    · simp only [fld, Nat.testBit_mod_two_pow, Nat.testBit_div_two_pow, BitVec.testBit_toNat]
      simp [h, Nat.sub_add_cancel h]
      omega
    · simp [h]
  rw [BitVec.getLsbD_setWidth, BitVec.getLsbD_and, hmask, BitVec.getLsbD_ofNat, show fld x 4 12 * 16 = fld x 4 12 * 2 ^ 4 from rfl, hshift,
    Bool.and_comm (x.getLsbD i)]

/-- A core whose state, wait cause and target stay is no change for the SD page (04 R131). -/
theorem setCore_quiet {s : State} {id : Fin 256} {c : Core} (hst : (s.core id).st = c.st) (hcause : (s.core id).cause = c.cause)
    (htarget : (s.core id).target = c.target) : s.setCore id c = s.setCoreRaw id c := if_pos ⟨hst, hcause, htarget⟩

theorem setCoreRaw_keeps' (s : State) (id : Fin 256) (c : Core) : Keeps [.cores] s (s.setCoreRaw id c) :=
  State.setCoreRaw_keeps _ _ (by decide) (Keeps.refl _ s)

/-- A completed GO raises GO_DONE (03 R86). -/
theorem goDone_int {p : Page} {o b j : Nat} (s : State) (h : goIndex p o b = some j) (ho : o < 0x1000) (h1 : o ≠ 0x30) :
    preg (goDone s p o b) p 0x30 = preg s p 0x30 ||| one32 2 := by
  unfold goDone
  simp only [h]
  rw [raiseInt_stat, preg_orPreg _ _ (by omega) (by omega), if_neg (by omega), preg_clrPreg _ _ ho (by omega), if_neg (fun e => h1 e.2.symm)]

theorem goDone_core (s : State) (p : Page) (o b : Nat) (ho : o < 0x1000) (id : Fin 256) : (goDone s p o b).core id = s.core id :=
  congrArg (·.get id) (goDone_cores s p b ho)

/-! ## START -/

theorem loadFares_loaded (s : State) (id : Fin 256) (c : Core) : (loadFares s id c).loaded = true := by
  unfold loadFares
  split_ifs with h
  · exact h
  · rfl

theorem startCore_parked {s : State} {id : Fin 256} (pc : W16) (hst : (s.core id).st = .parked) (hgo : stopped s = false) :
    startCore s id pc = s.setCore id { loadFares s id (s.core id) with
      st := .run, pc := pc, fetchQ := [], tt := { (loadFares s id (s.core id)).tt with hint := 0, quiet := false } } := by
  unfold startCore
  simp only [hgo, hst, Bool.false_eq_true, if_false]

theorem startCore_halted {s : State} {id : Fin 256} (pc : W16) (hst : (s.core id).st = .halt) (hgo : stopped s = false) :
    startCore s id pc = s.setCore id { loadFares s id (s.core id) with st := .run, pc := pc, fetchQ := [], exc := 0, excPc := 0 } := by
  unfold startCore
  simp only [hgo, hst, Bool.false_eq_true, if_false]

section
variable {s : State} {core : Fin 256} {v : W32}

/-- The page after a write of GC_START: the core, and what stops it, as before. -/
theorem gcStart_written (hu : Unlocked s (.gc core)) :
    Keeps [.page .gc] s (pageWrite s (.gc core) 0x110 v).st ∧ (pageWrite s (.gc core) 0x110 v).st.core core = s.core core ∧
      stopped (pageWrite s (.gc core) 0x110 v).st = stopped s := by
  have hk : Keeps [.page .gc] s (pageWrite s (.gc core) 0x110 v).st :=
    pageWrite_keeps_plain (gcStart_plain core) hu _ _ (by simp [classOf]) (Keeps.refl _ s)
  exact ⟨hk, hk.core (by decide) core, hk.stopped (by decide) (by decide)⟩

/-- START alone at a core that can start. -/
theorem gcStartWrite_starts (hs : Starts s (.gc core) 0x110 16 v) (h17 : bit v 17 = false) (hst : (s.core core).st = .parked ∨ (s.core core).st = .halt) :
    gcStartWrite s core v =
      goDone (startCore (pageWrite s (.gc core) 0x110 v).st core (BitVec.ofNat 16 (fld v 4 12 * 16))) (.gc core) 0x110 16 := by
  obtain ⟨-, hcore, -⟩ := gcStart_written (v := v) hs.1
  have hpc := pcOf_word (preg (pageWrite s (.gc core) 0x110 v).st (.gc core) 0x110)
  have hfld : fld (preg (pageWrite s (.gc core) 0x110 v).st (.gc core) 0x110) 4 12 = fld v 4 12 :=
    fld_pageWrite (gcStart_plain core) hs.1 (f 4 12 .rw) (by decide) (by decide) ⟨.inl rfl, Nat.zero_le _, Nat.le_sub_one_of_lt (fld_lt v 4 12), by decide⟩
  rw [hfld] at hpc
  unfold gcStartWrite
  simp only [started_one (gcStart_plain core) rfl (by omega) 0 hs, started_zero (gcStart_plain core) hs.1 rfl (by omega) 0 h17, if_true,
    Bool.false_eq_true, if_false, hcore, hpc]
  rcases hst with h | h <;> simp only [h]

/-- PARK alone. -/
theorem gcStartWrite_parks (hs : Starts s (.gc core) 0x110 17 v) (h16 : bit v 16 = false) :
    gcStartWrite s core v =
      (match (s.core core).st with
        | .parked | .reset | .fenced => goDone (pageWrite s (.gc core) 0x110 v).st (.gc core) 0x110 17
        | _ => askPark (pageWrite s (.gc core) 0x110 v).st core) := by
  obtain ⟨-, hcore, -⟩ := gcStart_written (v := v) hs.1
  unfold gcStartWrite
  simp only [started_one (gcStart_plain core) rfl (by omega) 0 hs, started_zero (gcStart_plain core) hs.1 rfl (by omega) 0 h16, if_true,
    Bool.false_eq_true, if_false, hcore] <;> rfl

/-- PARK runs from its write on. -/
theorem gcPark_running (hs : Starts s (.gc core) 0x110 17 v) : bit (preg (pageWrite s (.gc core) 0x110 v).st (.gc core) 0x110) 17 = true := by
  rw [bit_pageWrite_go (gcStart_plain core) hs.1 rfl (by omega), hs.2.2, Bool.true_or]

/-- A word that starts PARK is rejected for nothing, and raises no interrupt by itself. -/
theorem gcPark_unrejected (hs : Starts s (.gc core) 0x110 17 v) (h16 : bit v 16 = false) :
    preg (pageWrite s (.gc core) 0x110 v).st (.gc core) 0x30 = preg s (.gc core) 0x30 := by
  have hrej : (written s (.gc core) 0x110 gcStartRow v 0).rej = 0 := by
    have hold : bit (setFld (preg s (.gc core) 0x110) 4 12 (fld v 4 12)) 17 = false := by
      rw [← hs.2.1]
      exact bit_setFld_out _ _ _ _ _ (by omega)
    unfold written
    simp only [gcStartRow, r, List.foldl_cons, List.foldl_nil, wrField_rw, wrField_go_zero _ _ _ h16]
    rw [wrField_go_starts (a := ⟨setFld (preg s (.gc core) 0x110) 4 12 (fld v 4 12), 0, 0⟩) _ _ hs.2.2 hold]
  rw [pageWrite_plain (gcStart_plain core) hs.1]
  exact wrStore_preg_other s (by omega) (by omega) hrej (by simp) (by simp) (by simp)

end

/-- What a START leaves: the core as `startCore` makes it, its bit clear. -/
theorem started_runs {s : State} {core : Fin 256} {v : W32} {c : Core} (hs : Starts s (.gc core) 0x110 16 v) (h17 : bit v 17 = false)
    (hst : (s.core core).st = .parked ∨ (s.core core).st = .halt)
    (hstart : startCore (pageWrite s (.gc core) 0x110 v).st core (BitVec.ofNat 16 (fld v 4 12 * 16)) = (pageWrite s (.gc core) 0x110 v).st.setCore core c) :
    Runs (.gcStart core v) s [.page .gc, .page .sd, .cores, .sd] fun t => t.core core = c ∧ bit (preg t (.gc core) 0x110) 16 = false := by
  obtain ⟨hk, -, -⟩ := gcStart_written (v := v) hs.1
  have hset := setCore_keeps' (pageWrite s (.gc core) 0x110 v).st core c
  refine ⟨_, congrArg Host.Outcome.next ((gcStartWrite_starts hs h17 hst).trans (congrArg (goDone · (.gc core) 0x110 16) hstart)), ?_, ?_, ?_⟩
  · exact goDone_keeps _ _ _ (by omega) (by simp [classOf]) ((hk.mono (by decide)).trans (hset.mono (by decide)))
  · rw [goDone_core _ _ _ _ (by omega), setCore_core_same]
  · rw [preg_goDone_same _ _ (by omega) (by omega) (by omega) (by simp), bit_andNot_one32 _ (by omega)]

/-! ## KICK -/

/-- KICK: the event of the word is set, and its action completes. -/
theorem gcKick_written {s : State} {core : Fin 256} {v : W32} (hs : Starts s (.gc core) 0x114 8 v) :
    Keeps [.page .gc] s (pageWrite s (.gc core) 0x114 v).st ∧ (pageWrite s (.gc core) 0x114 v).st.core core = s.core core ∧
      stopped (pageWrite s (.gc core) 0x114 v).st = stopped s ∧ (BitVec.ofNat 5 (fld v 0 5)).toNat = fld v 0 5 ∧
      gcKickWrite s core v = goDone (sdTouch (setEvent (pageWrite s (.gc core) 0x114 v).st core (BitVec.ofNat 5 (fld v 0 5))) core) (.gc core) 0x114 8 := by
  have hk : Keeps [.page .gc] s (pageWrite s (.gc core) 0x114 v).st :=
    pageWrite_keeps_plain (gcKick_plain core) hs.1 _ _ (by simp [classOf]) (Keeps.refl _ s)
  have hfld : fld (preg (pageWrite s (.gc core) 0x114 v).st (.gc core) 0x114) 0 5 = fld v 0 5 :=
    fld_pageWrite (gcKick_plain core) hs.1 (f 0 5 .rw) (by decide) (by decide) ⟨.inl rfl, Nat.zero_le _, Nat.le_sub_one_of_lt (fld_lt v 0 5), by decide⟩
  refine ⟨hk, hk.core (by decide) core, hk.stopped (by decide) (by decide), Nat.mod_eq_of_lt (fld_lt v 0 5), ?_⟩
  unfold gcKickWrite
  rw [pageWriteGo_starts (gcKick_plain core) rfl (by omega) _ hs, hfld]

theorem gcKick_keeps {s w : State} {core : Fin 256} (hk : Keeps [.page .gc] s w) (e : BitVec 5) :
    Keeps [.page .sd, .page .gc, .staged, .cores, .sd] s (goDone (sdTouch (setEvent w core e) core) (.gc core) 0x114 8) :=
  goDone_keeps _ _ _ (by omega) (by simp [classOf]) (sdTouch_keeps _ (by decide) (setEvent_keeps _ _ (by decide) (hk.mono (by decide))))

theorem gcKick_core (u : State) (core : Fin 256) : (goDone (sdTouch u core) (.gc core) 0x114 8).core core = u.core core :=
  goDone_core _ _ _ _ (by omega) core

/-- A core with one wait, which what has come meets: it goes on. -/
theorem wakeCore_one {s : State} {id : Fin 256} {w : Wait} {c : Core} (hgo : stopped s = false) (hwaits : (s.core id).waits = [w])
    (hmet : waitCore (s.core id) w = some c) : wakeCore s id = setWaits s id c [] := by
  unfold wakeCore
  simp only [hwaits, hgo, List.isEmpty_cons, Bool.or_self, Bool.false_eq_true, if_false, List.foldl_cons, List.foldl_nil, hmet]

theorem setS_s {c : Core} {rd : SReg} (v : W64) (h : rd ≠ 0) : (c.setS rd v).s rd = v := by
  unfold Core.setS Core.s
  rw [if_neg h, if_neg h]
  exact Vector.getElem_set_self ..

theorem setS_st (c : Core) (rd : SReg) (v : W64) : (c.setS rd v).st = c.st := by
  unfold Core.setS
  split_ifs <;> rfl

/-- One event that a mask waits for, where none of it had come: the mask takes that event and leaves the others. -/
theorem event_taken {ev m : W32} {i : Nat} (hold : ev &&& m = 0) (hnew : one32 i &&& m ≠ 0) :
    (ev ||| one32 i) &&& m = one32 i ∧ (ev ||| one32 i) &&& ~~~m = ev := by
  have hone : ∀ j, (one32 i).getLsbD j = (decide (j < 32) && decide (j = i)) := one32_bit i
  have hbit : m.getLsbD i = true := by
    by_contra hm
    refine hnew (BitVec.eq_of_getLsbD_eq fun j hj => ?_)
    rw [BitVec.getLsbD_and, hone]
    by_cases hji : j = i
    · subst hji
      simp [hm]
    · simp [hji]
  have hapart : ∀ j, ev.getLsbD j = true → m.getLsbD j = false := fun j hj => by
    have h := congrArg (·.getLsbD j) hold
    simpa [BitVec.getLsbD_and, hj] using h
  refine ⟨BitVec.eq_of_getLsbD_eq fun j hj => ?_, BitVec.eq_of_getLsbD_eq fun j hj => ?_⟩
  · rw [BitVec.getLsbD_and, BitVec.getLsbD_or, hone]
    by_cases hji : j = i
    · subst hji
      simp [hbit, hj]
    · cases he : ev.getLsbD j with
      | false => simp [hji]
      | true => simp [hji, hapart j he]
  · rw [BitVec.getLsbD_and, BitVec.getLsbD_or, hone, BitVec.getLsbD_not]
    by_cases hji : j = i
    · subst hji
      cases he : ev.getLsbD j with
      | false => simp [hbit]
      | true => simp [hapart j he] at hbit
    · cases he : ev.getLsbD j with
      | false => simp [hji]
      | true =>
        rw [hapart j he]
        simp [hj]

/-- An event that a waiting core waits for, and no other that has come: the core goes on with it, and the event is used up (05 R196). -/
theorem setEvent_wakes {s : State} {id : Fin 256} {rd : BitVec 5} {m : W32} (e : BitVec 5) (hgo : stopped s = false)
    (hwaits : (s.core id).waits = [.event rd m]) (hst : (s.core id).st = .wait) (hold : (s.core id).events &&& m = 0) (hnew : one32 e.toNat &&& m ≠ 0)
    (hrd : rd ≠ 0) :
    ((setEvent s id e).core id).st = .run ∧ ((setEvent s id e).core id).waits = [] ∧ ((setEvent s id e).core id).events = (s.core id).events ∧
      ((setEvent s id e).core id).s rd = (one32 e.toNat).setWidth 64 := by
  set c : Core := { s.core id with events := (s.core id).events ||| one32 e.toNat } with hc
  set u := s.setCore id c with hu
  have hcore : u.core id = c := setCore_core_same _ _ _
  have hstop : stopped u = false := ((setCore_keeps' s id c).stopped (by decide) (by decide)).trans hgo
  have hm : m ≠ 0 := fun h0 => hnew (by rw [h0]; simp)
  obtain ⟨hcome, hleft⟩ : c.events &&& m = one32 e.toNat ∧ c.events &&& ~~~m = (s.core id).events := event_taken hold hnew
  have hsome : one32 e.toNat ≠ 0 := fun h0 => hnew (by rw [h0]; simp)
  have hmet : waitCore c (.event rd m) = some { c.setS rd ((one32 e.toNat).setWidth 64) with events := (s.core id).events } := by
    rw [waitCore_event, if_neg hm, hcome, hleft, if_neg hsome]
  have hwake := wakeCore_one (s := u) (id := id) hstop (by rw [hcore]; exact hwaits) (by rw [hcore]; exact hmet)
  have hset : setEvent s id e = setWaits u id { c.setS rd ((one32 e.toNat).setWidth 64) with events := (s.core id).events } [] := hwake
  rw [hset]
  unfold setWaits
  simp only
  rw [setCore_core_same]
  refine ⟨?_, rfl, rfl, ?_⟩
  · change (if (c.setS rd _).st = .wait then CoreState.run else (c.setS rd _).st) = .run
    rw [setS_st, if_pos hst]
  · exact setS_s (c := c) _ hrd

/-- Settles O15: CTRL, START, PARK and KICK each take the core where their row says. -/
theorem coreStates : Obligations.CoreStates := by
  refine ⟨?enable, ?disable, ?start, ?restart, ?park, ?parkWait, ?parked, ?coreParked, ?kick, ?kickWakes⟩
  case enable =>
    intro s id v hu h0 h1 hf h2 hst
    have hk := ctrlWrite_acts (s := s) (p := .gc id) (v := v) rfl hu h2
    have hheld := ctrlHeld_keeps (s := s) (p := .gc id) (v := v) rfl hu
    have hcore := ctrlHeld_core (s := s) (p := .gc id) (v := v) rfl hu id
    have hfen := ctrlHeld_fenced (s := s) (p := .gc id) (v := v)
    have hen := ctrlHeld_enabled (s := s) (p := .gc id) (v := v) rfl hu
    have hpart : partOfCluster (ctrlHeld s (.gc id) v) (clusterOf id).val = partOfCluster s (clusterOf id).val := by
      unfold partOfCluster
      rw [hheld.preg64 (p := .sd) (by simp [classOf]) (by omega) (by simp) (by simp)]
    set c : Core := { s.core id with st := .parked, part := BitVec.ofNat 4 (partOfCluster s (clusterOf id).val) }
    have hacts : ctrlActs s (.gc id) v = (ctrlHeld s (.gc id) v).setCore id c := by
      unfold ctrlActs
      rw [if_neg (by simp [h0, pageCore]), hf, h1, fenceAct_same _ _ (by simp), h0]
      change gcEnableAct (ctrlHeld s (.gc id) v) id true = _
      unfold gcEnableAct
      rw [if_pos rfl, if_pos ⟨by rw [hcore, hst], hfen.trans hf⟩, hcore, hpart]
    rw [hacts] at hk
    have hset := setCore_keeps' (ctrlHeld s (.gc id) v) id c
    refine ⟨ctrlWrite s (.gc id) v, rfl, ?_, (hk.core (by decide) id).trans (setCore_core_same _ _ _), ?_⟩
    · exact ((hheld.mono (by simp [classOf])).trans (hset.mono (by decide))).trans (hk.mono (by decide))
    · rw [← h0, ← hen]
      unfold enabled
      rw [hk.preg (by simp) (by omega) (by simp) (by simp), preg_setCore _ _ _ (by omega) (by simp) (by simp) (by simp)]
  case disable =>
    intro s id v hu h0 h1 h2 he hst
    have hk := ctrlWrite_acts (s := s) (p := .gc id) (v := v) rfl hu h2
    have hheld := ctrlHeld_keeps (s := s) (p := .gc id) (v := v) rfl hu
    have hcore := ctrlHeld_core (s := s) (p := .gc id) (v := v) rfl hu id
    have hen := ctrlHeld_enabled (s := s) (p := .gc id) (v := v) rfl hu
    have hacts : ctrlActs s (.gc id) v = resetCore (ctrlHeld s (.gc id) v) id := by
      unfold ctrlActs
      rw [if_neg (by simp [he, h0]), h1, fenceAct_same _ _ (by simp), h0]
      change gcEnableAct (ctrlHeld s (.gc id) v) id false = _
      unfold gcEnableAct
      rw [if_neg (by simp), if_neg (by rw [hcore]; exact hst)]
    rw [hacts] at hk
    obtain ⟨⟨c, hc, hepoch, hldm, himem⟩, hreg⟩ := resetCore_after (ctrlHeld s (.gc id) v) id
    rw [hcore] at hepoch hldm himem
    have hreset := resetCore_keeps' (ctrlHeld s (.gc id) v) id
    have hcoreT : (ctrlWrite s (.gc id) v).core id = coreCleared c .reset := (hk.core (by decide) id).trans hc
    refine ⟨ctrlWrite s (.gc id) v, rfl, ((hheld.mono (by simp [classOf])).trans (hreset.mono (by decide))).trans (hk.mono (by decide)), ?_⟩
    have henT : enabled (ctrlWrite s (.gc id) v) (.gc id) = false := by
      rw [← h0, ← hen]
      unfold enabled
      rw [hk.preg (by simp) (by omega) (by simp) (by simp), hreg]
    beta_reduce
    rw [hcoreT]
    exact ⟨rfl, congrArg (· + 1) hepoch, hldm, himem, rfl, rfl, rfl, rfl, rfl, henT⟩
  case start =>
    intro s id v hs h17 hgo hst
    obtain ⟨-, hcore, hstop⟩ := gcStart_written (v := v) hs.1
    refine (started_runs hs h17 (.inl hst) (startCore_parked _ (by rw [hcore, hst]) (hstop.trans hgo))).imp fun t ht => ?_
    obtain ⟨htcore, hbit⟩ := ht
    rw [htcore]
    exact ⟨rfl, rfl, rfl, loadFares_loaded _ _ _, rfl, hbit⟩
  case restart =>
    intro s id v hs h17 hgo hst
    obtain ⟨-, hcore, hstop⟩ := gcStart_written (v := v) hs.1
    refine (started_runs hs h17 (.inr hst) (startCore_halted _ (by rw [hcore, hst]) (hstop.trans hgo))).imp fun t ht => ?_
    rw [ht.1]
    exact ⟨rfl, rfl, rfl⟩
  case park =>
    intro s id v hs h16 hst
    obtain ⟨hk, hcore, -⟩ := gcStart_written (v := v) hs.1
    have hpark := gcStartWrite_parks hs h16
    set w := (pageWrite s (.gc id) 0x110 v).st with hw
    have hask : gcStartWrite s id v = w.setCoreRaw id { s.core id with parking := true } := by
      have hquiet : w.setCore id { w.core id with parking := true } = w.setCoreRaw id { w.core id with parking := true } := setCore_quiet rfl rfl rfl
      rw [hcore] at hquiet
      rw [← hquiet, hpark]
      rcases hst with h | h <;> simp [h, askPark, hcore]
    have hraw := setCoreRaw_keeps' w id { s.core id with parking := true }
    refine ⟨gcStartWrite s id v, rfl, ?_, ?_, ?_⟩
    · rw [hask]
      exact (hk.mono (by decide)).trans (hraw.mono (by decide))
    · rw [hask, setCoreRaw_core_same]
    · rw [hask, hraw.preg (by simp) (by omega) (by simp) (by simp)]
      exact gcPark_running hs
  case parkWait =>
    intro s id v hs h16 hst
    obtain ⟨hk, hcore, -⟩ := gcStart_written (v := v) hs.1
    have hpark := gcStartWrite_parks hs h16
    set w := (pageWrite s (.gc id) 0x110 v).st with hw
    have hq : Keeps [.locks] w (leaveQueues w id) := leaveQueues_keeps _ (by decide) (Keeps.refl _ w)
    have hask : gcStartWrite s id v =
        (leaveQueues w id).setCore id { s.core id with st := .run, waits := [], cause := 0, target := 0, parking := true } := by
      rw [hpark]
      simp only [hst]
      unfold askPark
      simp only [hcore, hst, hq.core (by decide) id]
    have hset := setCore_keeps' (leaveQueues w id) id { s.core id with st := .run, waits := [], cause := 0, target := 0, parking := true }
    refine ⟨gcStartWrite s id v, rfl, ?_, ?_, ?_⟩
    · rw [hask]
      exact ((hk.mono (by decide)).trans (hq.mono (by decide))).trans (hset.mono (by decide))
    · rw [hask, setCore_core_same]
    · rw [hask, preg_setCore _ _ _ (by omega) (by simp) (by simp) (by simp), hq.preg (by simp) (by omega) (by simp) (by simp)]
      exact gcPark_running hs
  case parked =>
    intro s id v hs h16 hst
    obtain ⟨hk, -, -⟩ := gcStart_written (v := v) hs.1
    have hdone : gcStartWrite s id v = goDone (pageWrite s (.gc id) 0x110 v).st (.gc id) 0x110 17 := by
      rw [gcStartWrite_parks hs h16]
      simp only [hst]
    refine ⟨_, congrArg Host.Outcome.next hdone, goDone_keeps _ _ _ (by omega) (by simp [classOf]) hk, ?_, ?_⟩
    · rw [preg_goDone_same _ _ (by omega) (by omega) (by omega) (by simp), bit_andNot_one32 _ (by omega)]
    · rw [goDone_int (j := 2) _ rfl (by omega) (by omega), gcPark_unrejected hs h16]
  case coreParked =>
    intro s id hready hclock
    set c : Core := { s.core id with st := .parked, parking := false, waits := [], cause := 0, target := 0 }
    have hset := setCore_keeps' s id c
    have hpark : corePark s id = if bit (preg (s.setCore id c) (.gc id) 0x110) 17 then goDone (s.setCore id c) (.gc id) 0x110 17 else s.setCore id c :=
      if_pos (by simp [hready, hclock])
    refine ⟨corePark s id, rfl, corePark_keeps _ (by decide) (Keeps.refl _ s), ?_⟩
    rw [hpark]
    split_ifs with hbit
    · refine ⟨?_, ?_⟩
      · rw [goDone_core _ _ _ _ (by omega), setCore_core_same]
      · rw [preg_goDone_same _ _ (by omega) (by omega) (by omega) (by simp), bit_andNot_one32 _ (by omega)]
    · exact ⟨setCore_core_same _ _ _, by simpa using hbit⟩
  case kick =>
    intro s id v hs hwaits
    obtain ⟨hk, hcore, -, hevt, hkick⟩ := gcKick_written hs
    set w := (pageWrite s (.gc id) 0x114 v).st
    have hevent := setEvent_core (s := w) (id := id) (BitVec.ofNat 5 (fld v 0 5)) (by rw [hcore, hwaits])
    refine ⟨_, congrArg Host.Outcome.next hkick, gcKick_keeps hk _, ?_, ?_⟩
    · rw [gcKick_core, hevent, hcore, hevt]
      rfl
    · rw [preg_goDone_same _ _ (by omega) (by omega) (by omega) (by simp), bit_andNot_one32 _ (by omega)]
  case kickWakes =>
    intro s id v rd m hs hwaits hst hgo hold hnew hrd
    obtain ⟨hk, hcore, hstop, hevt, hkick⟩ := gcKick_written hs
    set w := (pageWrite s (.gc id) 0x114 v).st
    have hevent := setEvent_wakes (s := w) (id := id) (rd := rd) (m := m) (BitVec.ofNat 5 (fld v 0 5)) (hstop.trans hgo) (by rw [hcore, hwaits])
      (by rw [hcore, hst]) (by rw [hcore, hold]) (by rw [hevt]; exact hnew)
    refine ⟨_, congrArg Host.Outcome.next hkick, gcKick_keeps hk _, ?_⟩
    beta_reduce
    rw [gcKick_core]
    obtain ⟨h1, h2, h3, h4⟩ := hevent hrd
    rw [hcore] at h3
    rw [hevt] at h4
    exact ⟨h1, h2, h3, h4⟩

end Sys2Proof
end

section
/-! PROOFS. Messages and fares arrive at cores: taken into a berth, spoilt by a parity failure, a fare given back (04 R126 to R129, R136). -/

namespace Sys2Proof

open Sys2Proof.Machine

/-! ## The masks of the berths -/

/-- A mask built by setting the bits of chosen members holds a bit where it held it, or where a member of that index is chosen. -/
theorem bit_foldl_setBit {n : Nat} (p : Fin 16 → Bool) (l : List (Fin 16)) (m : BitVec n) {i : Nat} (hi : i < n) :
    bit (l.foldl (fun m b => if p b then setBit m b.val true else m) m) i = (bit m i || l.any fun b => p b && decide (b.val = i)) := by
  induction l generalizing m with
  | nil => simp
  | cons b l ih =>
    rw [List.foldl_cons, ih, List.any_cons]
    cases hp : p b with
    | false => simp
    | true =>
      by_cases h : b.val = i
      · subst h
        simp [bit_setBit_in _ _ hi]
      · rw [if_pos rfl, bit_setBit_other _ _ (Ne.symm h)]
        simp [h]

theorem any_finRange (p : Fin 16 → Bool) (i : Fin 16) : ((List.finRange 16).any fun b => p b && decide (b.val = i.val)) = p i := by
  rw [Bool.eq_iff_iff, List.any_eq_true]
  constructor
  · rintro ⟨b, -, hb⟩
    obtain ⟨hp, hi⟩ := Bool.and_eq_true_iff.mp hb
    exact Fin.ext (of_decide_eq_true hi) ▸ hp
  · exact fun h => ⟨i, List.mem_finRange i, by simp [h]⟩

theorem bit_fullMask (c : Core) (i : Fin 16) : bit c.fullMask i.val = decide ((c.berths.get i).st = .full) := by
  have h := bit_foldl_setBit (fun b => decide ((c.berths.get b).st = .full)) (List.finRange 16) (0 : W16) i.isLt
  rw [any_finRange] at h
  simpa [Core.fullMask, bit] using h

theorem bit_fillMask (c : Core) (i : Fin 16) : bit c.fillMask i.val = decide ((c.berths.get i).st = .filling) := by
  have h := bit_foldl_setBit (fun b => decide ((c.berths.get b).st = .filling)) (List.finRange 16) (0 : W16) i.isLt
  rw [any_finRange] at h
  simpa [Core.fillMask, bit] using h

theorem lowest_eq {n : Nat} {x : BitVec n} {i : Nat} (h : x.getLsbD i = true) (hlow : ∀ j < i, x.getLsbD j = false) : lowest x = some i := by
  have hi : i < n := BitVec.lt_of_getLsbD h
  refine List.find?_range_eq_some.mpr ⟨h, List.mem_range.mpr hi, fun j hj => ?_⟩
  rw [hlow j hj, Bool.not_false]

/-- Where only one berth of a mask has filled, it is the lowest FULL one of the mask. -/
theorem lowestFull_one {c c' : Core} {k : W16} {b : Fin 16} (hfull : (c'.berths.get b).st = .full) (hother : ∀ j ≠ b, c'.berths.get j = c.berths.get j)
    (hk : bit k b.val = true) (hnone : c.fullMask &&& k = 0) : c'.lowestFull k = some b.val := by
  unfold Core.lowestFull
  have hin : c'.fullMask.getLsbD b.val = true := (bit_fullMask c' b).trans (decide_eq_true hfull)
  refine lowest_eq ?_ fun j hj => ?_
  · rw [BitVec.getLsbD_and, hin, show k.getLsbD b.val = true from hk, Bool.and_true]
  · have hj16 : j < 16 := hj.trans b.isLt
    have hne : (⟨j, hj16⟩ : Fin 16) ≠ b := fun e => (congrArg Fin.val e).not_lt hj
    have hsame : bit c'.fullMask j = bit c.fullMask j :=
      (bit_fullMask c' ⟨j, hj16⟩).trans (by rw [hother _ hne]; exact (bit_fullMask c ⟨j, hj16⟩).symm)
    have hold := congrArg (BitVec.getLsbD · j) hnone
    rw [BitVec.getLsbD_and] at hold
    rw [BitVec.getLsbD_and, show c'.fullMask.getLsbD j = c.fullMask.getLsbD j from hsame, hold]
    simp

/-! ## Delivery -/

/-- A core with what a delivered message leaves in it, before its waits look at it. -/
def received (c : Core) (m : MeshMsg) (tick : Option (BitVec 48 × BitVec 26)) : Core :=
  { c with
    berths := c.berths.set m.berth (berthOf m .full false tick)
    inbox := writeBytes c.inbox (berthBase m.berth) m.data
    events := (if m.evtEn then c.events ||| one32 m.evt.toNat else c.events) ||| (match m.lateEvt with | some e => one32 e.toNat | none => 0) }

theorem deliver_eq {s : State} {m : MeshMsg} (h : refuseMsg s m = none) :
    deliver s m false = wakeCore (cntPreg (s.setCore m.dst (received (s.core m.dst) m (tickNow s))) (.gc m.dst) 0x24C 1) m.dst := by
  unfold deliver
  simp only [h]
  rfl

section
variable {s : State} {i : Nat} {m : MeshMsg}

/-- The state of a delivery before the waits of the core look at it. -/
theorem counted_core (u : State) (c : Core) : ((cntPreg (u.setCore m.dst c) (.gc m.dst) 0x24C 1).core m.dst) = c :=
  (congrArg (·.get m.dst) (cntPreg_cores _ _ _ _)).trans (setCore_core_same _ _ _)

theorem received_none (hl : m.lateEvt = none) (c : Core) (tick : Option (BitVec 48 × BitVec 26)) : received c m tick = { c with
    berths := c.berths.set m.berth (berthOf m .full false tick)
    inbox := writeBytes c.inbox (0x1000 * m.berth.val) m.data
    events := c.events ||| (if m.evtEn then one32 m.evt.toNat else 0) } := by
  have hev : (received c m tick).events = c.events ||| (if m.evtEn then one32 m.evt.toNat else 0) := by
    unfold received
    simp only [hl]
    split <;> simp
  rw [← hev]
  rfl

theorem setS_s_other {c : Core} {r q : SReg} (v : W64) (h : r ≠ q) : (c.setS q v).s r = c.s r := by
  unfold Core.setS Core.s
  by_cases hq : q = 0
  · rw [if_pos hq]
  · rw [if_neg hq]
    split
    · rfl
    · exact Vector.getElem_set_ne q.toFin.isLt r.toFin.isLt fun e => h (BitVec.toFin_inj.mp (Fin.ext e.symm))

theorem wakeCore_recv_one {u : State} {id : Fin 256} {rd : BitVec 5} {k : W16} {b : Fin 16} (hgo : stopped u = false)
    (hwaits : (u.core id).waits = [.recv rd k]) (hst : (u.core id).st = .wait) (hk : bit k b.val = true)
    (hlow : (u.core id).lowestFull k = some b.val) (hrd : rd ≠ 0) :
    ((wakeCore u id).core id).st = .run ∧ ((wakeCore u id).core id).waits = [] ∧
      ((wakeCore u id).core id).s rd = BitVec.ofNat 64 (b.val + ((u.core id).berths.get b).chan.toNat * 16 + ((u.core id).berths.get b).src.toNat * 256 +
        ((u.core id).berths.get b).len.toNat * 2 ^ 32) := by
  have hk0 : k ≠ 0 := fun e => by simp [e, bit] at hk
  have hmet : waitCore (u.core id) (.recv rd k) = some (recvDone (u.core id) rd (some b.val)) := by
    rw [waitCore_recv, if_neg hk0, hlow]
    rfl
  rw [wakeCore_one hgo hwaits hmet]
  unfold setWaits
  rw [setCore_core_same]
  have hfin : fin 16 b.val = b := Fin.ext (Nat.mod_eq_of_lt b.isLt)
  have hs : (recvDone (u.core id) rd (some b.val)).st = .wait := by
    unfold recvDone
    simp only [setS_st, hst]
  refine ⟨by simp only [hs, if_true], rfl, ?_⟩
  have hnext : rd ≠ rd + 1 := fun e => by bv_omega
  show Core.s (recvDone (u.core id) rd (some b.val)) rd = _
  unfold recvDone
  simp only [hfin]
  rw [setS_s_other _ hnext, setS_s _ hrd]

theorem delivered (h : AtTurn s i m) (htaken : refuseMsg s m = none) :
    ∃ u : State, messageArrives s i false true = wakeCore u m.dst ∧ u.core m.dst = received (s.core m.dst) m (tickNow s) ∧ stopped u = false ∧
      u.mesh = dropAt s.mesh i ∧ preg u (.gc m.dst) 0x24C = satAdd (preg s (.gc m.dst) 0x24C) 1 ∧
      Keeps [.page .sd, .page .gc, .cores, .mesh, .sd] s u := by
  have hgone : refuseMsg { s with mesh := dropAt s.mesh i } m = none := htaken
  have hset := setCore_keeps' { s with mesh := dropAt s.mesh i } m.dst (received (s.core m.dst) m (tickNow s))
  have hk : Keeps [.page .sd, .page .gc, .cores, .mesh, .sd] s (cntPreg (({ s with mesh := dropAt s.mesh i } : State).setCore m.dst
      (received (s.core m.dst) m (tickNow s))) (.gc m.dst) 0x24C 1) :=
    cntPreg_keeps _ _ _ (by omega) (by simp [classOf]) ((put_mesh_keeps _ (by decide) (Keeps.refl _ s)).trans (hset.mono (by decide)))
  refine ⟨_, (messageArrives_last h).trans (deliver_eq hgone), counted_core _ _, ?_, ?_, ?_, hk⟩
  · exact (hk.stopped (by decide) (by decide)).trans h.running
  · exact hset .mesh (by decide)
  · rw [preg_cntPreg _ _ (by omega) (by omega), if_pos ⟨rfl, rfl⟩, preg_setCore _ _ _ (by omega) (by simp) (by simp) (by simp)]
    rfl

theorem received_berth (c : Core) (m : MeshMsg) (tick : Option (BitVec 48 × BitVec 26)) :
    (received c m tick).berths.get m.berth = berthOf m .full false tick := Vector.getElem_set_self ..

theorem received_other (c : Core) (m : MeshMsg) (tick : Option (BitVec 48 × BitVec 26)) {j : Fin 16} (h : j ≠ m.berth) :
    (received c m tick).berths.get j = c.berths.get j := Vector.getElem_set_ne m.berth.isLt j.isLt fun e => h (Fin.ext e.symm)

/-! ## A message spoilt -/

theorem messageArrives_spoilt (h : AtTurn s i m) (first : Bool) :
    messageArrives s i first false = spoilMsg { s with mesh := dropAt s.mesh i } m := by
  simp [messageArrives, h.here, h.running, h.first]

theorem messageArrives_begins (h : AtTurn s i m) (hm : m.filling = false) : messageArrives s i true true = beginFill s i m := by
  simp [messageArrives, h.here, h.running, h.first, hm]

/-- A first flit that is taken leaves its berth FILLING. -/
theorem beginFill_taken (h : refuseMsg s m = none) : beginFill s i m =
    ({ s with mesh := s.mesh.set i { m with filling := true } } : State).setCore m.dst { s.core m.dst with
      berths := (s.core m.dst).berths.set m.berth (berthOf m .filling false none)
      inbox := writeBytes (s.core m.dst).inbox (berthBase m.berth) (m.data.take 64) } := by
  unfold beginFill
  simp only [h]

/-- A message spoilt before its first flit was taken finds no berth FILLING. -/
theorem spoilMsg_fresh (hm : m.filling = false) : spoilMsg s m = dropMsg s m.dst (some 8) m.src.toNat := by
  simp [spoilMsg, hm]

theorem spoilMsg_filling (hm : m.filling = true) (hb : ((s.core m.dst).berths.get m.berth).st = .filling) : spoilMsg s m =
    dropMsg (s.setCore m.dst { s.core m.dst with berths := (s.core m.dst).berths.set m.berth berthReset }) m.dst (some 8) m.src.toNat := by
  simp [spoilMsg, hm, hb]

theorem dropMsg_core (u : State) (id : Fin 256) (src : Option Nat) (addr : Nat) : (dropMsg u id src addr).core id = u.core id :=
  (dropMsg_keeps (P := [.page .gc]) _ _ _ (by decide) (Keeps.refl _ u)).core (by decide) id

end

/-! ## Fares -/

section
variable {s : State} {m : FareMsg} {id : Fin 256}

theorem wakeSender_idle (hwaits : (s.core id).waits = []) (hq : (s.core id).tt.sendQ = []) :
    wakeSender s id = setTt s id { (s.core id).tt with sendQ := [] } := by
  have hres : resumeSend s id = s := by simp [resumeSend, hwaits]
  unfold wakeSender drainSendQ
  rw [hres, hq]
  rfl

theorem fareReturn_lost (hid : id = fin 256 m.dst.toNat) (h : m.epoch ≠ (s.core id).epoch ∨ chanValid (chanCfg s id m.chan) = false) :
    arriveFare s m = cntPreg s (.gc id) 0x244 1 := by
  subst hid
  exact if_pos h

/-- A core with one fare more in a channel, of 16 at most (04 R127). -/
def fared (c : Core) (ch : BitVec 4) : Core :=
  c.setChan ch { c.chan ch with fares := BitVec.ofNat 5 (min ((c.chan ch).fares.toNat + 1) 16) }

theorem fareReturn_given (hid : id = fin 256 m.dst.toNat) (he : m.epoch = (s.core id).epoch) (hv : chanValid (chanCfg s id m.chan) = true) :
    arriveFare s m = wakeSender (s.setCore id (fared (s.core id) m.chan)) id := by
  subst hid
  refine if_neg ?_
  rw [not_or, not_not, Bool.not_eq_false]
  exact ⟨he, hv⟩

/-- With no wait and no queued SEND, a fare that counts is all that changes. -/
theorem fareReturn_idle (hid : id = fin 256 m.dst.toNat) (he : m.epoch = (s.core id).epoch) (hv : chanValid (chanCfg s id m.chan) = true)
    (hwaits : (s.core id).waits = []) (hq : (s.core id).tt.sendQ = []) : arriveFare s m =
      (s.setCoreRaw id (fared (s.core id) m.chan)).setCoreRaw id
        { fared (s.core id) m.chan with tt := { (fared (s.core id) m.chan).tt with sendQ := [] } } := by
  have hset : s.setCore id (fared (s.core id) m.chan) = s.setCoreRaw id (fared (s.core id) m.chan) := setCore_quiet rfl rfl rfl
  have hcore := setCoreRaw_core_same s id (fared (s.core id) m.chan)
  rw [fareReturn_given hid he hv, hset, wakeSender_idle (by rw [hcore]; exact hwaits) (by rw [hcore]; exact hq)]
  unfold setTt
  rw [hcore]

theorem setChan_chan (c : Core) (ch : BitVec 4) (x : Chan) : (c.setChan ch x).chan ch = x := Vector.getElem_set_self ..

theorem fare_exec {i : Nat} (hi : s.fares[i]? = some m) (hgo : stopped s = false) :
    exec (.fareReturn i) s = .next (arriveFare { s with fares := dropAt s.fares i } m) := by
  show Host.Outcome.next _ = _
  simp only [hi, hgo, Bool.false_eq_true, if_false]

end

/-- Settles O17: a message is taken into its berth and its waits look at it; a parity failure empties the berth that it fills; a fare counts where
its epoch and its channel still stand. -/
theorem messagesAndFares : Obligations.MessagesAndFares := by
  refine ⟨?full, ?wakes, ?spoilt, ?given, ?lost, ?begins, ?spoiltFilling⟩
  case full =>
    intro s i m hi hgo hturn hr hf hb hwaits hl
    obtain ⟨u, hu, hcore, -, hmesh, hcnt, hk⟩ := delivered ⟨hi, hgo, hturn⟩ (refuseMsg_none hr hf hb)
    have hidle : wakeCore u m.dst = u := wakeCore_idle (by rw [hcore]; exact hwaits)
    rw [hidle] at hu
    exact ⟨u, exec_messageDelivery hu, hk, hmesh, hcore.trans (received_none hl _ _), hcnt⟩
  case wakes =>
    intro s i m rd k hi hgo hturn hst hb hwaits hbit hnone hrd
    obtain ⟨u, hu, hcore, hu0, -, -, hk⟩ := delivered ⟨hi, hgo, hturn⟩ (refuseMsg_none (by rw [hst]; decide) (by rw [hst]; decide) hb)
    have hlow : (u.core m.dst).lowestFull k = some m.berth.val := by
      rw [hcore]
      exact lowestFull_one (by rw [received_berth]; rfl) (fun j hj => received_other _ _ _ hj) hbit hnone
    obtain ⟨hrun, hend, hs⟩ := wakeCore_recv_one hu0 (by rw [hcore]; exact hwaits) (by rw [hcore]; exact hst) hbit hlow hrd
    rw [hcore, received_berth] at hs
    exact ⟨_, exec_messageDelivery hu, wakeCore_keeps _ (by decide) hk, hrun, hend, hs⟩
  case spoilt =>
    intro s i m first hi hgo hm hturn
    have hk := dropMsg_flight_keeps s (dropAt s.mesh i) m.dst (some 8) m.src.toNat
    refine ⟨_, exec_messageDelivery ((messageArrives_spoilt ⟨hi, hgo, hturn⟩ first).trans (spoilMsg_fresh hm)), hk, ?_, ?_, ?_, ?_⟩
    · exact dropMsg_mesh _ _ _ _
    · exact hk.core (by decide) m.dst
    · exact dropMsg_count _ _ _ _
    · exact dropMsg_source _ _ _ (by decide)
  case given =>
    intro s i m id hi hgo hid he hv hwaits hq
    refine ⟨_, (fare_exec hi hgo).trans (congrArg Host.Outcome.next (fareReturn_idle (s := { s with fares := dropAt s.fares i }) hid he hv hwaits hq)),
      ?_, rfl, ?_, ?_⟩
    · exact State.setCoreRaw_keeps _ _ (by decide) (State.setCoreRaw_keeps _ _ (by decide) (put_fares_keeps _ (by decide) (Keeps.refl _ s)))
    · rw [setCoreRaw_core_same]
      exact congrArg Chan.fares (setChan_chan _ _ _)
    · rw [setCoreRaw_core_same]
      rfl
  case lost =>
    intro s i m id hi hgo hid h
    have hk : Keeps [.page .gc, .fares] s (cntPreg { s with fares := dropAt s.fares i } (.gc id) 0x244 1) :=
      cntPreg_keeps _ _ _ (by omega) (by simp [classOf]) (put_fares_keeps _ (by decide) (Keeps.refl _ s))
    refine ⟨_, (fare_exec hi hgo).trans (congrArg Host.Outcome.next (fareReturn_lost (s := { s with fares := dropAt s.fares i }) hid h)), hk, rfl, ?_, ?_⟩
    · exact hk.core (by decide) id
    · rw [preg_cntPreg _ _ (by omega) (by omega), if_pos ⟨rfl, rfl⟩]
      rfl
  case begins =>
    intro s i m hi hgo hturn hm hr hf hb
    have hset := setCore_keeps' { s with mesh := s.mesh.set i { m with filling := true } } m.dst { s.core m.dst with
      berths := (s.core m.dst).berths.set m.berth (berthOf m .filling false none)
      inbox := writeBytes (s.core m.dst).inbox (berthBase m.berth) (m.data.take 64) }
    refine ⟨_, exec_messageDelivery ((messageArrives_begins ⟨hi, hgo, hturn⟩ hm).trans (beginFill_taken (refuseMsg_none hr hf (.inr hb)))), ?_, ?_, ?_, ?_⟩
    · exact (put_mesh_keeps _ (by decide) (Keeps.refl _ s)).trans (hset.mono (by decide))
    · exact hset .mesh (by decide)
    · exact setCore_core_same _ _ _
    · rw [setCore_core_same]
      have hfill := bit_fillMask { s.core m.dst with
        berths := (s.core m.dst).berths.set m.berth (berthOf m .filling false none)
        inbox := writeBytes (s.core m.dst).inbox (berthBase m.berth) (m.data.take 64) } m.berth
      have hberth : ((s.core m.dst).berths.set m.berth (berthOf m .filling false none)).get m.berth = berthOf m .filling false none :=
        Vector.getElem_set_self ..
      unfold bit at hfill ⊢
      rw [BitVec.getLsbD_setWidth, hfill, hberth]
      simp [berthOf, m.berth.isLt.trans (by decide : 16 < 32)]
  case spoiltFilling =>
    intro s i m first hi hgo hturn hm hb
    have hset := setCore_keeps' { s with mesh := dropAt s.mesh i } m.dst { s.core m.dst with berths := (s.core m.dst).berths.set m.berth berthReset }
    refine ⟨_, exec_messageDelivery ((messageArrives_spoilt ⟨hi, hgo, hturn⟩ first).trans
      (spoilMsg_filling (s := { s with mesh := dropAt s.mesh i }) hm hb)), ?_, ?_, ?_, ?_, ?_⟩
    · exact dropMsg_keeps _ _ _ (by decide) ((put_mesh_keeps _ (by decide) (Keeps.refl _ s)).trans (hset.mono (by decide)))
    · exact (dropMsg_mesh _ _ _ _).trans (hset .mesh (by decide))
    · exact (dropMsg_core _ _ _ _).trans (setCore_core_same _ _ _)
    · rw [dropMsg_count]
      exact congrArg (satAdd · 1) (preg_setCore _ _ _ (by omega) (by simp) (by simp) (by simp))
    · exact dropMsg_source _ _ _ (by decide)

end Sys2Proof
end

section
/-! PROOFS. Mooring locks repaired, and a partition reset (04 R143, R144, R149). -/

namespace Sys2Proof

open Sys2Proof.Machine

/-! ## Locks -/

@[simp] theorem setLock_lock (s : State) (n : Fin 1024) (l : Lock) : (s.setLock n l).lock n = l := Vector.getElem_set_self ..

theorem setLock_lock_other (s : State) {n m : Fin 1024} (l : Lock) (h : m ≠ n) : (s.setLock n l).lock m = s.lock m :=
  Vector.getElem_set_ne n.isLt m.isLt fun e => h (Fin.ext e.symm)

theorem setLock_keeps' (s : State) (n : Fin 1024) (l : Lock) : Keeps [.locks] s (s.setLock n l) :=
  State.setLock_keeps _ _ (by decide) (Keeps.refl _ s)

/-- A lock that no core is queued for has nobody to serve. -/
theorem serveLock_nobody {s : State} {n : Fin 1024} (from_ : Option Nat) (h : (s.lock n).queue = []) : serveLock s n from_ = s := by
  unfold serveLock
  simp only [h]
  rfl

theorem mlCmd_plain : PlainReg .ml 0x10C (r 0x10C 0 [f 0 1 .go, f 1 1 .go]) := {}

section
variable {s : State} {v : W32} {n : Fin 1024}

/-- The write of ML_CMD itself. -/
theorem mlCmd_written (hu : Unlocked s .ml) : Keeps [.page .ml] s (pageWrite s .ml 0x10C v).st :=
  pageWrite_keeps_plain mlCmd_plain hu _ _ (by decide) (Keeps.refl _ s)

theorem mlCmd_selected (hu : Unlocked s .ml) (hn : n.val = fld (preg s .ml 0x100) 0 10) :
    fin 1024 (fld (preg (pageWrite s .ml 0x10C v).st .ml 0x100) 0 10) = n := by
  rw [preg_pageWrite_other mlCmd_plain hu _ _ (by omega) (fun _ => by omega) (by simp), ← hn]
  exact Fin.ext (Nat.mod_eq_of_lt n.isLt)

theorem mlCmdWrite_free (hs : Starts s .ml 0x10C 0 v) (h1 : bit v 1 = false) (hn : n.val = fld (preg s .ml 0x100) 0 10) :
    mlCmdWrite s v = goDone (forceFreeAct (pageWrite s .ml 0x10C v).st n) .ml 0x10C 0 := by
  unfold mlCmdWrite
  simp only [mlCmd_selected hs.1 hn, started_one mlCmd_plain rfl (by omega) 0 hs, started_zero mlCmd_plain hs.1 rfl (by omega) 0 h1, if_true,
    Bool.false_eq_true, if_false]

theorem mlCmdWrite_break (hs : Starts s .ml 0x10C 1 v) (h0 : bit v 0 = false) (hn : n.val = fld (preg s .ml 0x100) 0 10) :
    mlCmdWrite s v = goDone (forceBreakAct (pageWrite s .ml 0x10C v).st n) .ml 0x10C 1 := by
  unfold mlCmdWrite
  simp only [mlCmd_selected hs.1 hn, started_one mlCmd_plain rfl (by omega) 0 hs, started_zero mlCmd_plain hs.1 rfl (by omega) 0 h0, if_true,
    Bool.false_eq_true, if_false]

theorem mlCmd_done (u : State) {b : Nat} (hb : b < 32) : bit (preg (goDone u .ml 0x10C b) .ml 0x10C) b = false := by
  rw [preg_goDone_same _ _ (by omega) (by omega) (by omega) (by simp)]
  exact bit_andNot_one32 _ hb

theorem mlCmd_goDone_lock (u : State) (b : Nat) (m : Fin 1024) : (goDone u .ml 0x10C b).lock m = u.lock m :=
  congrArg (·.get m) (goDone_locks _ _ _ (by omega))

/-- A lock that breaks with no core queued. -/
theorem breakLock_nobody {u : State} (h : (u.lock n).queue = []) :
    breakLock u n = raiseErr (cntPreg (u.setLock n { u.lock n with st := .broken, unknown := false }) .ml 0x11C 1) .ml 2 n.val := by
  unfold breakLock
  refine serveLock_nobody _ ?_
  have hk := raiseErr_keeps (P := [.page .ml]) .ml 2 n.val (by decide) (cntPreg_keeps .ml 0x11C 1 (by omega) (by decide)
    (Keeps.refl _ (u.setLock n { u.lock n with st := .broken, unknown := false })))
  rw [hk.lock (by decide) n, setLock_lock]
  exact h

theorem lockParity_nobody (h : (s.lock n).queue = []) : lockParity s n =
    raiseErr (cntPreg (s.setLock n { s.lock n with st := .broken, owner := 0xFF, unknown := true }) .ml 0x11C 1) .ml 3 n.val := by
  unfold lockParity
  refine serveLock_nobody _ ?_
  have hk := raiseErr_keeps (P := [.page .ml]) .ml 3 n.val (by decide) (cntPreg_keeps .ml 0x11C 1 (by omega) (by decide)
    (Keeps.refl _ (s.setLock n { s.lock n with st := .broken, owner := 0xFF, unknown := true })))
  rw [hk.lock (by decide) n, setLock_lock]
  exact h

/-- A lock broken and its record: what the lock is, and the page tells of it. -/
theorem broken_recorded (u : State) (l : Lock) {k : Nat} (hk : k < 32) (addr : Nat) :
    Keeps [.page .ml, .locks] u (raiseErr (cntPreg (u.setLock n l) .ml 0x11C 1) .ml k addr) ∧
      (raiseErr (cntPreg (u.setLock n l) .ml 0x11C 1) .ml k addr).lock n = l ∧
      bit (preg (raiseErr (cntPreg (u.setLock n l) .ml 0x11C 1) .ml k addr) .ml 0x10) k = true ∧
      preg (raiseErr (cntPreg (u.setLock n l) .ml 0x11C 1) .ml k addr) .ml 0x11C = satAdd (preg u .ml 0x11C) 1 := by
  have hpage := raiseErr_keeps (P := [.page .ml]) .ml k addr (by decide) (cntPreg_keeps .ml 0x11C 1 (by omega) (by decide) (Keeps.refl _ (u.setLock n l)))
  refine ⟨((setLock_keeps' u n l).mono (by decide)).trans (hpage.mono (by decide)), ?_, ?_, ?_⟩
  · rw [hpage.lock (by decide) n, setLock_lock]
  · rw [raiseErr_stat]
    exact bit_or_one32 _ hk
  · rw [preg_raiseErr _ _ _ (by omega) (fun _ => rfl) (by simp), preg_cntPreg _ _ (by omega) (by omega), if_pos ⟨rfl, rfl⟩]
    rfl

end

/-! ## A broken lock served -/

/-- The only core queued is served. -/
theorem serveLock_one {s : State} {n : Fin 1024} {id : Fin 256} {rd : BitVec 5} (hq : (s.lock n).queue = [id])
    (hw : (s.core id).waits = [.acq rd n]) : serveLock s n none =
      endWait (cntPreg (s.setLock n (takeLock { s.lock n with queue := [] } id).1) .ml 0x118 1) id (.acq rd n) rd
        (takeLock { s.lock n with queue := [] } id).2 := by
  have hcore : ∀ l : Lock, ((cntPreg (s.setLock n l) .ml 0x118 1).core id).waits = [.acq rd n] := fun _ => hw
  unfold serveLock
  simp only [hq]
  have hnext : nextQueued [id] none = some id := rfl
  have hrest : ([id].filter fun x => decide (x ≠ id)) = [] := by simp
  rw [hnext]
  simp only [hrest, hcore]
  rw [List.find?_cons_of_pos (by simp)]

theorem takeLock_broken {l : Lock} (id : Fin 256) (h : l.st = .broken) : takeLock l id =
    ({ l with st := .held, owner := BitVec.ofNat 8 id.val, epoch := l.epoch + 1, unknown := false, last := some (BitVec.ofNat 8 id.val) },
      acqWord 1 l.unknown l.owner.toNat (l.epoch + 1).toNat) := if_pos h

/-- A core whose one wait ends goes on, with the word that ended it. -/
theorem endWait_one {s : State} {id : Fin 256} {w : Wait} {rd : BitVec 5} (v : W64) (hw : (s.core id).waits = [w]) (hst : (s.core id).st = .wait)
    (hrd : rd ≠ 0) : ((endWait s id w rd v).core id).st = .run ∧ ((endWait s id w rd v).core id).s rd = v := by
  unfold endWait
  have hrest : ((s.core id).waits.filter fun x => decide (x ≠ w)) = [] := by simp [hw]
  simp only [hrest]
  unfold setWaits
  rw [setCore_core_same]
  refine ⟨?_, setS_s v hrd⟩
  simp only [setS_st, hst, if_true]

theorem served_after {u : State} {n : Fin 1024} {id : Fin 256} {rd : BitVec 5} (l : Lock) (v : W64) (hw : (u.core id).waits = [.acq rd n])
    (hst : (u.core id).st = .wait) (hrd : rd ≠ 0) :
    (endWait (cntPreg (u.setLock n l) .ml 0x118 1) id (.acq rd n) rd v).lock n = l ∧
      ((endWait (cntPreg (u.setLock n l) .ml 0x118 1) id (.acq rd n) rd v).core id).st = .run ∧
      ((endWait (cntPreg (u.setLock n l) .ml 0x118 1) id (.acq rd n) rd v).core id).s rd = v := by
  have hk : Keeps [.page .ml, .locks] u (cntPreg (u.setLock n l) .ml 0x118 1) :=
    cntPreg_keeps _ _ _ (by omega) (by decide) (State.setLock_keeps _ _ (by decide) (Keeps.refl _ u))
  have hlock : (cntPreg (u.setLock n l) .ml 0x118 1).lock n = l :=
    (congrArg (·.get n) (cntPreg_locks _ _ _ _)).trans (setLock_lock u n l)
  have hcore := hk.core (by decide) id
  generalize cntPreg (u.setLock n l) .ml 0x118 1 = w at hlock hcore
  have he : Keeps [.page .sd, .cores, .sd] w (endWait w id (.acq rd n) rd v) := endWait_keeps _ _ _ _ (by decide) (Keeps.refl _ w)
  obtain ⟨hrun, hs⟩ := endWait_one (s := w) (w := .acq rd n) v (by rw [hcore]; exact hw) (by rw [hcore]; exact hst) hrd
  exact ⟨(he.lock (by decide) n).trans hlock, hrun, hs⟩

/-- A BROKEN lock goes to the only core queued for it, which hears whose it was. -/
theorem serveLock_broken {u : State} {n : Fin 1024} {id : Fin 256} {rd : BitVec 5} {l : Lock} (hl : u.lock n = l) (hbroken : l.st = .broken)
    (hq : l.queue = [id]) (hw : (u.core id).waits = [.acq rd n]) (hst : (u.core id).st = .wait) (hrd : rd ≠ 0) :
    ((serveLock u n none).lock n).st = .held ∧ ((serveLock u n none).lock n).owner = BitVec.ofNat 8 id.val ∧
      ((serveLock u n none).lock n).queue = [] ∧ ((serveLock u n none).core id).st = .run ∧
      ((serveLock u n none).core id).s rd = acqWord 1 l.unknown l.owner.toNat (l.epoch + 1).toNat := by
  have ht := takeLock_broken (l := { l with queue := [] }) id hbroken
  rw [serveLock_one (by rw [hl]; exact hq) hw, hl]
  obtain ⟨hlock, hrun, hs⟩ := served_after (takeLock { l with queue := [] } id).1 (takeLock { l with queue := [] } id).2 hw hst hrd
  have hfst := hlock.trans (congrArg Prod.fst ht)
  exact ⟨congrArg Lock.st hfst, congrArg Lock.owner hfst, congrArg Lock.queue hfst, hrun, hs.trans (congrArg Prod.snd ht)⟩

/-! ## A partition reset -/

section
variable {id j : Fin 256}

theorem preg_resetRegs_low (s : State) (p q : Page) (keep : Nat → Bool) {k : Nat} (hk : k < 0x100) : preg (resetRegs s p keep) q k = preg s q k :=
  sget_filter regReset _ _ fun v => by
    have hp := pageBase_mod p
    have hq := pageBase_mod q
    simp only [Bool.not_eq_true', Bool.and_eq_false_iff, decide_eq_false_iff_not]
    left
    omega

theorem preg_dropFilling_other (s : State) {q : Page} {k : Nat} (hq : q ≠ .gc id) (hk : k < 0x1000) (hmsix : q = .ep → k ≠ 0xA00) :
    preg (dropFilling s id) q k = preg s q k := by
  unfold dropFilling
  extract_lets mine
  refine List.foldlRecOn (motive := fun t : State => preg t q k = preg s q k) _ _ rfl fun t ht m _ => ?_
  unfold dropMsg
  extract_lets s1
  rw [preg_raiseErr _ _ _ hk (fun e => absurd e hq) (by simpa using hmsix), preg_cntPreg _ _ (by omega) hk, if_neg (fun e => hq e.1), ht]

theorem clearCore_other (s : State) (h : j ≠ id) :
    (clearCore s id).core j = s.core j ∧ preg (clearCore s id) (.gc j) 8 = preg s (.gc j) 8 := by
  have hx : Keeps [.ports] s (xlCancel s id) := xlCancel_keeps _ (by decide) (Keeps.refl _ s)
  have hne : (.gc j : Page) ≠ .gc id := fun e => h (Page.gc.inj e)
  have hcore : ∀ u : State, ((dropFilling (resetRegs u (.gc id) gcKept) id).core j) = u.core j := fun u =>
    (dropFilling_keeps (P := [.page .gc, .mesh]) id (by decide) (resetRegs_keeps (.gc id) gcKept (by simp [classOf]) (Keeps.refl _ u))).core (by decide) j
  have hreg : ∀ u : State, preg (dropFilling (resetRegs u (.gc id) gcKept) id) (.gc j) 8 = preg u (.gc j) 8 := fun u => by
    rw [preg_dropFilling_other _ hne (by omega) (by simp), preg_resetRegs_low _ _ _ _ (by omega)]
  unfold clearCore
  extract_lets s2 s3 s4 f
  have h3 : s3.core j = s.core j := by
    rw [setCore_core_other _ _ h]
    exact hx.core (by decide) j
  have h3r : preg s3 (.gc j) 8 = preg s (.gc j) 8 := by
    rw [preg_setCore _ _ _ (by omega) (by simp) (by simp) (fun e => by cases e)]
    exact hx.preg (by simp) (by omega) (by simp) (fun e => by cases e.1)
  clear_value s3
  have h4 : s4.core j = s3.core j := hcore s3
  have h4r : preg s4 (.gc j) 8 = preg s3 (.gc j) 8 := hreg s3
  clear_value s4
  exact ⟨(core_update.trans h4).trans h3, (preg_update.trans h4r).trans h3r⟩

theorem sdTouch_at (s : State) (i id : Fin 256) : (sdTouch s i).core id = s.core id ∧ preg (sdTouch s i) (.gc id) 8 = preg s (.gc id) 8 := ⟨rfl, rfl⟩

theorem clrPreg_core_any (s : State) (p : Page) (o : Nat) (m : W32) (i : Fin 256) : (clrPreg s p o m).core i = s.core i := rfl

theorem partCoreReset_other (s : State) (h : j ≠ id) :
    (partCoreReset s id).core j = s.core j ∧ preg (partCoreReset s id) (.gc j) 8 = preg s (.gc j) 8 := by
  obtain ⟨hcore, hreg⟩ := clearCore_other (sdTouch s id) h
  obtain ⟨htc, htr⟩ := sdTouch_at s id j
  refine ⟨(clrPreg_core_any _ _ _ _ _).trans (hcore.trans htc), ?_⟩
  unfold partCoreReset
  rw [preg_clrPreg _ _ (by omega) (by omega), if_neg (fun e => h (Page.gc.inj e.1)), hreg]
  exact htr

theorem partCoreReset_same (s : State) :
    (partCoreReset s id).core id = coreCleared (s.core id) .reset ∧ preg (partCoreReset s id) (.gc id) 8 = preg s (.gc id) 8 &&& ~~~1 := by
  obtain ⟨hcore, hreg⟩ := clearCore_after (sdTouch s id) id
  obtain ⟨htc, htr⟩ := sdTouch_at s id id
  refine ⟨(clrPreg_core_any _ _ _ _ _).trans (hcore.trans (congrArg (coreCleared · .reset) htc)), ?_⟩
  unfold partCoreReset
  rw [preg_clrPreg _ _ (by omega) (by omega), if_pos ⟨rfl, rfl⟩, hreg, htr]

/-- Of the cores of a partition each is cleared once. -/
theorem partCores_reset {l : List (Fin 256)} (hd : l.Nodup) (hmem : id ∈ l) (s : State) :
    (l.foldl partCoreReset s).core id = coreCleared (s.core id) .reset ∧
      preg (l.foldl partCoreReset s) (.gc id) 8 = preg s (.gc id) 8 &&& ~~~1 := by
  have hothers : ∀ (l : List (Fin 256)) (t : State), id ∉ l →
      (l.foldl partCoreReset t).core id = t.core id ∧ preg (l.foldl partCoreReset t) (.gc id) 8 = preg t (.gc id) 8 := fun l t hn =>
    List.foldlRecOn (motive := fun u : State => u.core id = t.core id ∧ preg u (.gc id) 8 = preg t (.gc id) 8) l partCoreReset ⟨rfl, rfl⟩
      fun u hu a ha => by
        obtain ⟨hcore, hreg⟩ := partCoreReset_other (id := a) u (fun e => hn (e ▸ ha) : id ≠ a)
        exact ⟨hcore.trans hu.1, hreg.trans hu.2⟩
  induction l generalizing s with
  | nil => cases hmem
  | cons a l ih =>
    obtain ⟨hna, hd⟩ := List.nodup_cons.mp hd
    rw [List.foldl_cons]
    by_cases h : id = a
    · subst h
      obtain ⟨hcore, hreg⟩ := partCoreReset_same (id := id) s
      obtain ⟨hcores, hregs⟩ := hothers l (partCoreReset s id) hna
      exact ⟨hcores.trans hcore, hregs.trans hreg⟩
    · obtain ⟨hcore, hreg⟩ := partCoreReset_other s h
      rw [← hcore, ← hreg]
      exact ih hd ((List.mem_cons.mp hmem).resolve_left h) _

/-- The core is in RESET with nothing to wait for, and what its reset keeps. -/
structure AtRest (t : State) (id : Fin 256) (epoch : BitVec 4) (ldm : Sparse Byte) : Prop where
  st : (t.core id).st = .reset
  part : (t.core id).part = 0
  waits : (t.core id).waits = []
  epoch_eq : (t.core id).epoch = epoch
  ldm_eq : (t.core id).ldm = ldm

theorem AtRest.same {t u : State} {e : BitVec 4} {d : Sparse Byte} (h : AtRest t id e d) (hc : u.core id = t.core id) : AtRest u id e d := by
  obtain ⟨h1, h2, h3, h4, h5⟩ := h
  constructor <;> rw [hc] <;> assumption

theorem AtRest.keeps {P : List Part} {t u : State} {e : BitVec 4} {d : Sparse Byte} (h : AtRest t id e d) (k : Keeps P t u) (hc : Part.cores ∉ P) :
    AtRest u id e d := h.same (k.core hc id)

/-- An event finds a core at rest so, and leaves it so. -/
theorem setEvent_atRest {t : State} {e : BitVec 4} {d : Sparse Byte} (h : AtRest t id e d) (i : Fin 256) (ev : BitVec 5) :
    AtRest (setEvent t i ev) id e d := by
  by_cases hi : id = i
  · subst hi
    obtain ⟨h1, h2, h3, h4, h5⟩ := h
    have hc := setEvent_core ev h3
    constructor <;> rw [hc] <;> assumption
  · refine h.same ?_
    unfold setEvent wakeCore
    extract_lets c c1 r
    split
    · exact setCore_core_other _ _ hi
    · unfold setWaits
      split <;> rw [setCore_core_other _ _ hi, setCore_core_other _ _ hi]

theorem endSeen_atRest {t : State} {e : BitVec 4} {d : Sparse Byte} (h : AtRest t id e d) (cl : Fin 16) (q : Fin 4) (i : Nat) (m : Manifest)
    (x : Ending) : AtRest (endSeen t cl q i m x) id e d := by
  have hq : AtRest (if x.status = 2 then setManifest t cl q i { m with ending := none } else setQueue t cl q (dropAt (mQueueOf t cl q) i)) id e d :=
    h.keeps (P := [.clusters]) (keeps_ite (fun _ => setManifest_keeps _ _ _ _ (by decide) (Keeps.refl _ t))
      (fun _ => setQueue_keeps _ _ _ (by decide) (Keeps.refl _ t))) (by decide)
  unfold endSeen manifestEvent
  extract_lets s1 id'
  split
  · exact hq
  · split
    · exact setEvent_atRest hq _ _
    · exact hq

theorem advance_atRest {e : BitVec 4} {d : Sparse Byte} (cl : Fin 16) (q : Fin 4) (fuel : Nat) (t : State) (h : AtRest t id e d) :
    AtRest (advance cl q fuel t) id e d := by
  induction fuel generalizing t with
  | zero => exact h
  | succ fuel ih =>
    have hask : ∀ l m, AtRest (postAsk t l m) id e d := fun l m =>
      h.keeps (P := [.page .lw, .page .dc, .slices]) (postAsk_keeps _ _ (by decide) (Keeps.refl _ t)) (by decide)
    have hnext : ∀ u : State, AtRest u id e d → ∀ i m, AtRest (setManifest u cl q i m) id e d := fun u hu i m =>
      hu.keeps (P := [.clusters]) (setManifest_keeps _ _ _ _ (by decide) (Keeps.refl _ u)) (by decide)
    unfold advance
    split
    · exact h
    · split
      · exact h
      · next i m x _ =>
        extract_lets next
        cases x.stage with
        | flag =>
          simp only
          split
          · exact ih _ (hnext _ (h.keeps (writeFlag_keeps (P := [.page .lw, .page .ep, .page .dc, .page .mc, .clusters, .dm, .slices, .cxl, .frz, .scrubs])
              _ _ _ (by decide) (Keeps.refl _ t)) (by decide)) _ _)
          · exact hask _ _
        | record =>
          simp only
          split
          · exact ih _ (hnext _ (h.keeps (writeRecord_keeps (P := [.page .lw, .page .ep, .page .dc, .page .cl, .page .mc, .clusters, .dm, .slices,
              .cxl, .frz, .scrubs]) _ _ _ _ _ (by decide) (Keeps.refl _ t)) (by decide)) _ _)
          · exact hask _ _
        | seen =>
          simp only
          split
          · exact h
          · exact ih _ (endSeen_atRest h _ _ _ _ _)

theorem resetMover_atRest {t : State} {e : BitVec 4} {d : Sparse Byte} (h : AtRest t id e d) (cl : Fin 16) : AtRest (resetMover t cl) id e d := by
  unfold resetMover
  extract_lets z lost
  refine List.foldlRecOn (motive := fun u : State => AtRest u id e d) _ _ (h.same rfl) fun u hu q _ => ?_
  exact advance_atRest _ _ _ _ (hu.keeps (P := [.clusters]) (setQueue_keeps _ _ _ (by decide) (Keeps.refl _ u)) (by decide))

end

theorem sdPart_plain : PlainReg .sd 0x11C (r 0x11C 0 [f 0 4 .rw, f 8 1 .go]) := {}

/-- What a partition reset does to the device, its word apart. -/
def partReset (t : State) : State :=
  logBoot ((partitionClusters t (fld (preg t .sd 0x11C) 0 4)).foldl resetMover
    ((partitionCores t (fld (preg t .sd 0x11C) 0 4)).foldl partCoreReset (loseLocks t (partitionCores t (fld (preg t .sd 0x11C) 0 4))))) 0 3 0

theorem partReset_core {t : State} {core : Fin 256} (hcore : partOf t core = fld (preg t .sd 0x11C) 0 4) :
    AtRest (partReset t) core ((t.core core).epoch + 1) (t.core core).ldm ∧ enabled (partReset t) (.gc core) = false := by
  unfold partReset
  generalize hq : fld (preg t .sd 0x11C) 0 4 = q at hcore ⊢
  have hmem : core ∈ partitionCores t q := List.mem_filter.mpr ⟨List.mem_finRange core, by simpa using hcore⟩
  have hd : (partitionCores t q).Nodup := (List.nodup_finRange 256).filter _
  generalize partitionCores t q = ids at hmem hd
  obtain ⟨hc, hr⟩ := partCores_reset hd hmem (loseLocks t ids)
  obtain ⟨he, hl, -⟩ := loseLocks_stores t ids core
  set u := ids.foldl partCoreReset (loseLocks t ids) with hu
  have hrest : AtRest u core ((t.core core).epoch + 1) (t.core core).ldm := by
    constructor <;> rw [hc]
    · rfl
    · rfl
    · rfl
    · exact congrArg (· + 1) he
    · exact hl
  set w := (partitionClusters t q).foldl resetMover u with hw
  have hwrest : AtRest w core ((t.core core).epoch + 1) (t.core core).ldm :=
    List.foldlRecOn (motive := fun x : State => AtRest x core ((t.core core).epoch + 1) (t.core core).ldm) _ _ hrest
      fun x hx cl _ => resetMover_atRest hx cl
  have hwk : Keeps [.page .lw, .page .ep, .page .sd, .page .dc, .page .cl, .page .mc, .cores, .sd, .clusters, .dm, .slices, .cxl, .frz, .scrubs] u w :=
    keeps_foldl (fun x cl hx => resetMover_keeps _ (by decide) hx) _ (Keeps.refl _ u)
  have hlog : Keeps [] w (logBoot w 0 3 0) := logBoot_keeps _ _ _ (Keeps.refl _ w)
  refine ⟨hwrest.keeps hlog (by decide), ?_⟩
  unfold enabled
  rw [hlog.preg (by simp) (by omega) (by simp) (fun e => by cases e.1), hwk.preg (by simp [classOf]) (by omega) (by simp) (fun e => by cases e.1), hr]
  simp [bit]

theorem partReset_keeps (t : State) :
    Keeps [.page .lw, .page .ep, .page .ml, .page .sd, .page .dc, .page .cl, .page .mc, .page .gc, .staged, .cores, .locks, .sd, .clusters, .dm, .slices,
      .cxl, .frz, .scrubs, .mesh, .ports] t (partReset t) :=
  logBoot_keeps _ _ _ (keeps_foldl (fun x cl hx => resetMover_keeps _ (by decide) hx) _
    (keeps_foldl (fun x cl hx => partCoreReset_keeps _ (by decide) hx) _ (loseLocks_keeps _ (by decide) (Keeps.refl _ t))))

/-- Settles O20: the forced commands act on the selected lock, a parity failure breaks one, and a partition reset clears each core of it once. -/
theorem locksAndPartitions : Obligations.LocksAndPartitions := by
  refine ⟨?free, ?breaks, ?unheld, ?parity, ?served, ?partition⟩
  case free =>
    intro s v n hs h1 hn hq
    have hk := mlCmd_written (v := v) hs.1
    have hlock : ∀ m, (pageWrite s .ml 0x10C v).st.lock m = s.lock m := hk.lock (by decide)
    set w := (pageWrite s .ml 0x10C v).st with hw
    have hact : forceFreeAct w n = w.setLock n { s.lock n with st := .free, owner := 0, epoch := (s.lock n).epoch + 1, unknown := false } := by
      unfold forceFreeAct
      simp only [hlock n]
      exact serveLock_nobody _ (by rw [setLock_lock]; exact hq)
    refine ⟨_, congrArg Host.Outcome.next ((mlCmdWrite_free hs h1 hn).trans (congrArg (goDone · .ml 0x10C 0) hact)), ?_, ?_, ?_, ?_⟩
    · exact goDone_keeps _ _ _ (by omega) (by decide) (State.setLock_keeps _ _ (by decide) (hk.mono (by decide)))
    · rw [mlCmd_goDone_lock, setLock_lock]
    · intro m hm
      rw [mlCmd_goDone_lock, setLock_lock_other _ _ hm, hlock]
    · exact mlCmd_done _ (by omega)
  case breaks =>
    intro s v n hs h0 hn hq hst
    have hk := mlCmd_written (v := v) hs.1
    have hlock : (pageWrite s .ml 0x10C v).st.lock n = s.lock n := hk.lock (by decide) n
    have hcnt : preg (pageWrite s .ml 0x10C v).st .ml 0x11C = preg s .ml 0x11C :=
      preg_pageWrite_other mlCmd_plain hs.1 _ _ (by omega) (fun _ => by omega) (by simp)
    have hact : forceBreakAct (pageWrite s .ml 0x10C v).st n = breakLock (pageWrite s .ml 0x10C v).st n := if_pos (by rw [hlock]; exact hst)
    rw [breakLock_nobody (by rw [hlock]; exact hq), hlock] at hact
    obtain ⟨hkb, hl, hb, hc⟩ := broken_recorded (n := n) (pageWrite s .ml 0x10C v).st { s.lock n with st := .broken, unknown := false } (k := 2) (by omega) n.val
    refine ⟨_, congrArg Host.Outcome.next ((mlCmdWrite_break hs h0 hn).trans (congrArg (goDone · .ml 0x10C 1) hact)), ?_, ?_, ?_, ?_⟩
    · exact goDone_keeps _ _ _ (by omega) (by decide) ((hk.mono (by decide)).trans hkb)
    · rw [mlCmd_goDone_lock, hl]
    · rw [preg_goDone (p := .ml) (o := 0x10C) (k := 0x10) _ (by omega) (by omega) (fun _ => by omega) (by simp)]
      exact hb
    · rw [preg_goDone (p := .ml) (o := 0x10C) (k := 0x11C) _ (by omega) (by omega) (fun _ => by omega) (by simp), hc, hcnt]
  case unheld =>
    intro s v n hs h0 hn hst
    have hk := mlCmd_written (v := v) hs.1
    have hlock : (pageWrite s .ml 0x10C v).st.lock n = s.lock n := hk.lock (by decide) n
    have hact : forceBreakAct (pageWrite s .ml 0x10C v).st n = (pageWrite s .ml 0x10C v).st := if_neg (by rw [hlock]; exact hst)
    refine ⟨_, congrArg Host.Outcome.next ((mlCmdWrite_break hs h0 hn).trans (congrArg (goDone · .ml 0x10C 1) hact)), ?_, ?_⟩
    · exact goDone_keeps _ _ _ (by omega) (by decide) hk
    · exact mlCmd_done _ (by omega)
  case parity =>
    intro s n hq
    obtain ⟨hk, hl, hb, -⟩ := broken_recorded (n := n) s { s.lock n with st := .broken, owner := 0xFF, unknown := true } (k := 3) (by omega) n.val
    exact ⟨_, congrArg Host.Outcome.next (lockParity_nobody hq), hk, hl, hb⟩
  case served =>
    intro s n id rd hq hw hst hrd
    obtain ⟨hk, hl, -, -⟩ := broken_recorded (n := n) s { s.lock n with st := .broken, owner := 0xFF, unknown := true } (k := 3) (by omega) n.val
    have hpar : lockParity s n = serveLock (raiseErr (cntPreg (s.setLock n { s.lock n with st := .broken, owner := 0xFF, unknown := true }) .ml 0x11C 1)
        .ml 3 n.val) n none := rfl
    generalize raiseErr (cntPreg (s.setLock n { s.lock n with st := .broken, owner := 0xFF, unknown := true }) .ml 0x11C 1) .ml 3 n.val = u at hk hl hpar
    have hcore : u.core id = s.core id := hk.core (by decide) id
    obtain ⟨h1, h2, h3, h4, h5⟩ := serveLock_broken hl rfl hq (by rw [hcore]; exact hw) (by rw [hcore]; exact hst) hrd
    exact ⟨_, congrArg Host.Outcome.next hpar, serveLock_keeps _ _ (by decide) (hk.mono (by decide)), h1, h2, h3, h4, h5⟩
  case partition =>
    intro s v core hs hpart
    have hk : Keeps [.page .sd] s (pageWrite s .sd 0x11C v).st := pageWrite_keeps_plain sdPart_plain hs.1 _ _ (by decide) (Keeps.refl _ s)
    have hgo : sdPartResetWrite s v = goDone (partReset (pageWrite s .sd 0x11C v).st) .sd 0x11C 8 :=
      pageWriteGo_starts sdPart_plain rfl (by omega) _ hs
    have hfld : fld (preg (pageWrite s .sd 0x11C v).st .sd 0x11C) 0 4 = fld v 0 4 :=
      fld_pageWrite sdPart_plain hs.1 (f 0 4 .rw) (by decide) (by decide) ⟨.inl rfl, Nat.zero_le _, Nat.le_sub_one_of_lt (fld_lt v 0 4), by decide⟩
    have hcore : (pageWrite s .sd 0x11C v).st.core core = s.core core := hk.core (by decide) core
    have hpart' : partOf (pageWrite s .sd 0x11C v).st core = partOf s core := by
      unfold partOf partOfCluster preg64
      rw [hcore, preg_pageWrite_other sdPart_plain hs.1 _ _ (by omega) (fun _ => by omega) (by simp),
        preg_pageWrite_other sdPart_plain hs.1 _ _ (by omega) (fun _ => by omega) (by simp)]
    obtain ⟨hrest, hen⟩ := partReset_core (hpart'.trans (hpart.trans hfld.symm))
    set u := partReset (pageWrite s .sd 0x11C v).st with hu
    have hgk : Keeps [.page .sd] u (goDone u .sd 0x11C 8) := goDone_keeps _ _ _ (by omega) (by decide) (Keeps.refl _ u)
    obtain ⟨hst, hp, -, he, hl⟩ := hrest.keeps hgk (by decide)
    rw [hcore] at he hl
    refine ⟨_, congrArg Host.Outcome.next hgo, ?_, hst, hp, he, ?_, hl, ?_⟩
    · exact ((hk.mono (by decide)).trans (partReset_keeps _)).trans (hgk.mono (by decide))
    · unfold enabled at hen ⊢
      rw [hgk.preg (by simp [classOf]) (by omega) (by simp) (fun e => by cases e.1)]
      exact hen
    · rw [preg_goDone_same _ _ (by omega) (by omega) (by omega) (by simp)]
      exact bit_andNot_one32 _ (by omega)

end Sys2Proof
end

section
/-! PROOFS. The CXL link comes up, replays, recovers and is lost (09 R343 to R350). -/

namespace Sys2Proof

open Sys2Proof.Machine

/-! ## Writes to the host that wait -/

section
variable {s : State}

theorem listDiscard_cxl (s : State) (w : HeldWrite) : Keeps [.page .ep, .frz] s (listDiscard s w) := listDiscard_keeps _ (by decide) (Keeps.refl _ s)

theorem Keeps.cxl_link {P : List Part} {s t : State} (h : Keeps P s t) (hc : Part.cxl ∉ P) : t.cxl.link = s.cxl.link :=
  have hcxl : { t.cxl with inta := false, msixQ := [] } = { s.cxl with inta := false, msixQ := [] } := h .cxl hc
  (congrArg Cxl.link hcxl :)

theorem Keeps.cxl_wq {P : List Part} {s t : State} (h : Keeps P s t) (hc : Part.cxl ∉ P) : t.cxl.wq = s.cxl.wq :=
  have hcxl : { t.cxl with inta := false, msixQ := [] } = { s.cxl with inta := false, msixQ := [] } := h .cxl hc
  (congrArg Cxl.wq hcxl :)

theorem Keeps.cxl_d2h {P : List Part} {s t : State} (h : Keeps P s t) (hc : Part.cxl ∉ P) : t.cxl.d2h = s.cxl.d2h :=
  have hcxl : { t.cxl with inta := false, msixQ := [] } = { s.cxl with inta := false, msixQ := [] } := h .cxl hc
  (congrArg Cxl.d2h hcxl :)

theorem Keeps.episodes {P : List Part} {s t : State} (h : Keeps P s t) (hc : Part.fc ∉ P) : t.fc.episodes = s.fc.episodes :=
  have hfc : { t.fc with coming := [] } = { s.fc with coming := [] } := h .fc hc
  (congrArg Collector.episodes hfc :)

theorem keeps_ep {P : List Part} {s t : State} (h : Keeps P s t) (hp : Part.page .ep ∉ P) {k : Nat} (hk : k < 0xA00) : preg t .ep k = preg s .ep k :=
  h.preg hp (by omega) (by omega) (by simp)

/-- A discarded write is listed in the report and its summary alone. -/
theorem preg_listDiscard (s : State) (w : HeldWrite) {k : Nat} (hk : k < 0x180) : preg (listDiscard s w) .ep k = preg s .ep k := by
  unfold listDiscard
  extract_lets line lo mask e core z z1 s2 s1
  rw [preg_offer _ _ _ _ _ (by omega) (by simp)]
  have hcore : core.val / 32 < 8 := by omega
  have hs2 : preg s2 .ep k = preg s .ep k := preg_update
  clear_value s2
  show preg (if z1.report.length < 2048 then _ else _) .ep k = _
  split_ifs
  · exact preg_update
  · rw [preg_orPreg _ _ (by omega) (by omega), if_neg (by omega), hs2]
  · rw [preg_orPreg _ _ (by omega) (by omega), if_neg (by omega), hs2]
  · rw [preg_orPreg _ _ (by omega) (by omega), if_neg (by omega), hs2]
  · exact hs2

end

/-- What the state of the link rests on: the link itself, and the low registers of EP, err registers and all. -/
structure SameLink (s t : State) : Prop where
  link : t.cxl.link = s.cxl.link
  regs : ∀ k < 0x180, preg t .ep k = preg s .ep k

theorem SameLink.refl (s : State) : SameLink s s := ⟨rfl, fun _ _ => rfl⟩

theorem SameLink.trans {s t u : State} (h : SameLink s t) (k : SameLink t u) : SameLink s u :=
  ⟨k.link.trans h.link, fun n hn => (k.regs n hn).trans (h.regs n hn)⟩

theorem emit_link (s : State) (o : Out) : SameLink s (emit s o) := ⟨rfl, fun _ _ => rfl⟩

theorem sendWrite_link (s : State) (w : HeldWrite) : SameLink s (sendWrite s w) := by
  unfold sendWrite
  split_ifs
  · exact SameLink.refl s
  · exact ⟨rfl, fun _ _ => preg_update⟩
  · exact ⟨(listDiscard_cxl s w).cxl_link (by decide), fun k hk => preg_listDiscard s w hk⟩
  · exact ⟨rfl, fun _ _ => preg_update⟩
  · unfold issueWrite
    split_ifs
    · exact ⟨rfl, fun _ _ => preg_update⟩
    · exact ⟨rfl, fun _ _ => preg_update⟩

theorem sameLink_foldl {α : Type} {g : State → α → State} (h : ∀ t a, SameLink t (g t a)) (l : List α) (s : State) : SameLink s (l.foldl g s) :=
  List.foldlRecOn (motive := SameLink s) l g (SameLink.refl s) fun t ht a _ => ht.trans (h t a)

theorem drainWrites_link (s : State) : SameLink s (drainWrites s) := by
  unfold drainWrites
  split_ifs
  · exact SameLink.refl s
  · exact SameLink.trans (t := { s with cxl := { s.cxl with wq := [] } }) ⟨rfl, fun _ _ => preg_update⟩ (sameLink_foldl sendWrite_link _ _)

theorem flushMsix_link (s : State) : SameLink s (flushMsix s) := by
  unfold flushMsix
  extract_lets x t
  split
  · exact SameLink.refl s
  · exact SameLink.trans (t := t) ⟨rfl, fun _ _ => preg_update⟩ (sameLink_foldl (fun _ _ => emit_link _ _) _ _)

theorem wbCheck_link (s : State) : SameLink s (wbCheck s) := by
  unfold wbCheck
  extract_lets out
  split
  · exact ⟨rfl, fun _ _ => preg_update⟩
  · exact SameLink.refl s

theorem askAccess_link (s : State) (id : Fin 256) (a : GAccess) : SameLink s (askAccess s id a) := by
  unfold askAccess
  extract_lets ls d
  split
  · exact SameLink.refl s
  · exact SameLink.trans (t := { s with cxl := { s.cxl with d2h := s.cxl.d2h ++ [d] } }) ⟨rfl, fun _ _ => preg_update⟩
      (sameLink_foldl (fun _ _ => emit_link _ _) _ _)

theorem resumeAccesses_link (s : State) (id : Fin 256) : SameLink s (resumeAccesses s id) := by
  unfold resumeAccesses
  extract_lets asked
  exact sameLink_foldl (fun t a => by split; exacts [askAccess_link t id a, SameLink.refl t]) _ _

/-- What a link that can send again lets go on, before the effects that wait on it follow. -/
def resumed (s : State) : State := (List.finRange 256).foldl resumeAccesses (wbCheck (flushMsix (drainWrites s)))

theorem resumed_link (s : State) : SameLink s (resumed s) :=
  (((drainWrites_link s).trans (flushMsix_link _)).trans (wbCheck_link _)).trans (sameLink_foldl resumeAccesses_link _ _)

theorem resumed_keeps (s : State) : Keeps [.page .ep, .cxl, .frz] s (resumed s) :=
  keeps_foldl (fun _ _ h => resumeAccesses_keeps _ (by decide) h) _ (wbCheck_keeps (by decide) (flushMsix_keeps (by decide)
    (drainWrites_keeps (by decide) (Keeps.refl _ s))))

/-! ## The link comes up -/

/-- The link up with what it reports, before what waits on it goes on. -/
def linkedUp (s : State) (i : LinkInfo) : State :=
  when (decide (i.width.toNat = 8) || decide (i.rate = 2)) (fun t => raiseErr t .ep 10)
    (setLink (setPreg { s with cxl := { s.cxl with l0pOk := i.l0pOk && decide (i.width.toNat = 16) } } .ep 0x100 (linkStatWord s i)) .l0)

theorem linkCome_up {s : State} {i : LinkInfo} (hdown : s.cxl.link = .down) (htrain : mayTrain s = true) (hok : linkInfoOk i = true) :
    linkCome s i = settle (resumed (linkedUp s i)) := by
  refine if_neg ?_
  simp [hdown, htrain, hok]

theorem setLink_int (s : State) (l : LinkState) : bit (preg (setLink s l) .ep 0x30) 16 = true := by
  unfold setLink withReady
  rw [preg_readyLog _ (by omega) (by simp) (by simp), raiseInt_stat]
  exact bit_or_one32 _ (by omega)

theorem noteErr_int (s : State) (p : Page) (src addr : Nat) : preg (noteErr s p src addr) p 0x30 = preg s p 0x30 := by
  unfold noteErr
  extract_lets first s1
  have h1 : preg s1 p 0x30 = preg s p 0x30 := by
    rw [preg_cntPreg _ _ (by omega) (by omega), if_neg (by omega), preg_orPreg _ _ (by omega) (by omega), if_neg (by omega)]
  split_ifs
  · rw [preg_setPreg_off _ _ _ (by omega), h1]
  · rw [preg_setPreg64 _ _ (by omega) (by omega), if_neg (by omega), if_neg (by omega), preg_setPreg_off _ _ _ (by omega), h1]

theorem raiseErr_keepsInt (s : State) (p : Page) (src addr : Nat) {b : Nat} (h : bit (preg s p 0x30) b = true) :
    bit (preg (raiseErr s p src addr) p 0x30) b = true := by
  unfold raiseErr raiseErrX
  extract_lets s2 m
  have hs2 : preg s2 p 0x30 = preg s p 0x30 := noteErr_int s p src addr
  split_ifs
  · rw [hs2]
    exact h
  · rw [raiseInt_stat, bit_or]
    exact Bool.or_eq_true_iff.mpr (.inl ((congrArg (bit · b) (preg_update.trans hs2)).trans h))

theorem linkedUp_link (s : State) (i : LinkInfo) : (linkedUp s i).cxl.link = .l0 := by
  unfold linkedUp when
  split
  · rw [raiseErr_cxl_link, setLink_link]
  · exact setLink_link _ _

theorem linkedUp_stat (s : State) (i : LinkInfo) : preg (linkedUp s i) .ep 0x100 = linkStatWord s i := by
  have h : ∀ u : State, preg (setLink (setPreg u .ep 0x100 (linkStatWord s i)) .l0) .ep 0x100 = linkStatWord s i := fun u => by
    rw [preg_setLink _ _ (by omega) (by omega) (by omega), preg_setPreg_same]
  unfold linkedUp when
  split
  · rw [preg_raiseErr _ _ _ (by omega) (fun _ => rfl) (by simp), h]
  · exact h _

theorem linkedUp_int (s : State) (i : LinkInfo) : bit (preg (linkedUp s i) .ep 0x30) 16 = true := by
  unfold linkedUp when
  split
  · exact raiseErr_keepsInt _ _ _ _ (setLink_int _ _)
  · exact setLink_int _ _

theorem linkedUp_narrow (s : State) (i : LinkInfo) (hok : linkInfoOk i = true) :
    (i.width.toNat = 16 ∧ i.rate.toNat ≠ 2) ∨ bit (preg (linkedUp s i) .ep 0x10) 10 = true := by
  unfold linkedUp when
  by_cases h : (decide (i.width.toNat = 8) || decide (i.rate = 2)) = true
  · rw [if_pos h]
    exact .inr (raiseErr_bit _ _ _ (by omega))
  · left
    simp only [Bool.or_eq_true, decide_eq_true_eq, not_or] at h
    obtain ⟨h8, h2⟩ := h
    simp only [linkInfoOk, Bool.and_eq_true, Bool.or_eq_true, decide_eq_true_eq] at hok
    obtain ⟨⟨⟨hw, -⟩, -⟩, -⟩ := hok
    exact ⟨hw.resolve_right h8, fun e => h2 (BitVec.eq_of_toNat_eq e)⟩

theorem linkedUp_keeps (s : State) (i : LinkInfo) : Keeps [.page .ep, .cxl, .boot] s (linkedUp s i) := by
  have hset : Keeps [.page .ep, .cxl, .boot] s (setLink (setPreg { s with cxl := { s.cxl with l0pOk := i.l0pOk && decide (i.width.toNat = 16) } }
      .ep 0x100 (linkStatWord s i)) .l0) :=
    setLink_keeps _ (by decide) (setPreg_keeps _ _ _ (by omega) (by decide) (put_cxl_keeps _ (by decide) (Keeps.refl _ s)))
  unfold linkedUp when
  exact keeps_ite (fun _ => raiseErr_keeps _ _ _ (by decide) hset) (fun _ => hset)

/-! ## Episodes -/

/-- An episode of a link runs. -/
def running (s : State) (l : LinkId) : Bool := s.fc.episodes.any fun e => decide (e.link = l) && decide (e.ended = none)

theorem running_begins (s : State) (l : LinkId) : running (beginEpisode s l) l = true := by
  unfold running beginEpisode
  split
  · assumption
  · show List.any (_ ++ [_]) _ = true
    simp

theorem running_ends (s : State) (l : LinkId) : running (endEpisode s l) l = false := by
  have hnone : ∀ e : Episode, ((decide ((if e.link = l ∧ e.ended = none then { e with ended := some s.tide.step } else e).link = l) &&
      decide ((if e.link = l ∧ e.ended = none then { e with ended := some s.tide.step } else e).ended = none)) = false) := fun e => by
    split
    · simp
    · next h => simpa [Bool.and_eq_false_iff, decide_eq_false_iff_not, Classical.not_and_iff_not_or_not] using h
  show List.any (List.map _ _) _ = false
  rw [List.any_map, List.any_eq_false]
  exact fun e _ => Bool.not_eq_true _ ▸ hnone e

theorem running_keeps {P : List Part} {s t : State} (h : Keeps P s t) (hc : Part.fc ∉ P) (l : LinkId) : running t l = running s l := by
  unfold running
  rw [h.episodes hc]

theorem endEpisode_keeps' (s : State) (l : LinkId) : Keeps [.fc] s (endEpisode s l) := put_fc_keeps _ (by decide) (Keeps.refl _ s)

/-- The requests on their way marked as of the episode that begins, or runs. -/
def marked (u : State) : State := affectAll (beginEpisode u .cxl)

theorem marked_keeps (u : State) : Keeps [.page .fc, .cxl, .fc] u (marked u) :=
  put_cxl_keeps _ (by decide) (beginEpisode_keeps _ (by decide) (Keeps.refl _ u))

theorem marked_after (u : State) : (marked u).cxl.link = u.cxl.link ∧ (marked u).cxl.d2h = u.cxl.d2h.map (fun d => { d with affected := true }) ∧
    running (marked u) .cxl = true := by
  have hb : Keeps [.page .fc, .fc] u (beginEpisode u .cxl) := beginEpisode_keeps _ (by decide) (Keeps.refl _ u)
  refine ⟨hb.cxl_link (by decide), ?_, running_begins u .cxl⟩
  show List.map _ (beginEpisode u .cxl).cxl.d2h = _
  rw [hb.cxl_d2h (by decide)]

/-- An interruption of the link, with its record. -/
theorem interrupted {s u : State} {l : LinkState} {o src : Nat} (hsrc : src < 32) (hk : Keeps [.page .ep, .cxl, .fc] s u) (hl : u.cxl.link = l)
    (hd : u.cxl.d2h = s.cxl.d2h) (hcnt : preg u .ep o = satAdd (preg s .ep o) 1) (ho : o < 0xA00) (herr : errReg o = false) :
    Keeps [.page .fc, .page .ep, .cxl, .fc] s (raiseErr (marked u) .ep src) ∧ (raiseErr (marked u) .ep src).cxl.link = l ∧
      preg (raiseErr (marked u) .ep src) .ep o = satAdd (preg s .ep o) 1 ∧ bit (preg (raiseErr (marked u) .ep src) .ep 0x10) src = true ∧
      (raiseErr (marked u) .ep src).cxl.d2h = s.cxl.d2h.map (fun d => { d with affected := true }) ∧
      running (raiseErr (marked u) .ep src) .cxl = true := by
  obtain ⟨hlink, hd2h, hrun⟩ := marked_after u
  have hm := marked_keeps u
  have hr : Keeps [.page .ep] (marked u) (raiseErr (marked u) .ep src) := raiseErr_keeps _ _ _ (by decide) (Keeps.refl _ _)
  refine ⟨((hk.mono (by decide)).trans (hm.mono (by decide))).trans (hr.mono (by decide)), ?_, ?_, raiseErr_bit _ _ _ hsrc, ?_, ?_⟩
  · exact (hr.cxl_link (by decide)).trans (hlink.trans hl)
  · rw [preg_raiseErr _ _ _ (by omega) (fun _ => herr) (by omega), keeps_ep hm (by decide) ho, hcnt]
  · rw [hr.cxl_d2h (by decide), hd2h, hd]
  · exact (running_keeps hr (by decide) _).trans hrun

/-! ## The link is lost -/

/-- The link is down, the freeze runs for its loss, and EP tells so. -/
structure LinkGone (t : State) : Prop where
  link : t.cxl.link = .down
  wq : t.cxl.wq = []
  on : t.frz.on = true
  cause : t.frz.cause = 4
  stat : preg t .ep 0x100 = 0
  err : bit (preg t .ep 0x10) 5 = true

theorem LinkGone.keeps {P : List Part} {s t : State} (h : LinkGone s) (k : Keeps P s t) (hc : Part.cxl ∉ P) (hf : Part.frz ∉ P)
    (hp : Part.page .ep ∉ P) : LinkGone t := by
  have hfrz : t.frz = s.frz := k .frz hf
  exact ⟨(k.cxl_link hc).trans h.link, (k.cxl_wq hc).trans h.wq, hfrz ▸ h.on, hfrz ▸ h.cause, (keeps_ep k hp (by omega)).trans h.stat,
    (congrArg (bit · 5) (keeps_ep k hp (by omega))).trans h.err⟩

/-- What a report of EP changes is not what tells of the loss. -/
theorem LinkGone.report {s t : State} (h : LinkGone s) (k : Keeps [.page .ep] s t) (h100 : preg t .ep 0x100 = preg s .ep 0x100)
    (h10 : bit (preg s .ep 0x10) 5 = true → bit (preg t .ep 0x10) 5 = true) : LinkGone t := by
  have hfrz : t.frz = s.frz := k .frz (by decide)
  exact ⟨(k.cxl_link (by decide)).trans h.link, (k.cxl_wq (by decide)).trans h.wq, hfrz ▸ h.on, hfrz ▸ h.cause, h100.trans h.stat, h10 h.err⟩

theorem linkGone_raiseErrX {s : State} (h : LinkGone s) (src addr corr : Nat) (l i : Bool) : LinkGone (raiseErrX s .ep src addr corr l i) := by
  refine h.report (raiseErrX_keeps _ _ _ _ _ _ (by decide) (Keeps.refl _ s)) ?_ fun hb => ?_
  · unfold raiseErrX
    extract_lets s2 m
    have hs2 : preg s2 .ep 0x100 = preg s .ep 0x100 := noteErr_preg _ _ _ (by omega) (fun _ => rfl)
    split_ifs
    · exact hs2
    · rw [preg_raiseInt _ _ (by omega) (by simp) (by simp)]
      exact preg_update.trans hs2
  · rw [raiseErrX_stat, bit_or, hb, Bool.true_or]

theorem linkGone_raiseInt {s : State} (h : LinkGone s) (b : Nat) : LinkGone (raiseInt s .ep b) := by
  have hreg : ∀ k < 0x30, preg (raiseInt s .ep b) .ep k = preg s .ep k := fun k hk => preg_raiseInt _ _ (by omega) (fun _ => by omega) (fun _ => by omega)
  refine h.report (raiseInt_keeps _ _ (by decide) (Keeps.refl _ s)) (preg_raiseInt _ _ (by omega) (by simp) (by simp)) fun hb => ?_
  rw [hreg 0x10 (by omega)]
  exact hb

theorem markDiscard_kept (z : Frz) (m : Nat) (c : Fin 256) :
    (markDiscard z m c).on = z.on ∧ (markDiscard z m c).cause = z.cause := by
  unfold markDiscard
  split_ifs <;> exact ⟨rfl, rfl⟩

theorem linkGone_listDiscard {s : State} (h : LinkGone s) (w : HeldWrite) : LinkGone (listDiscard s w) := by
  have hk := listDiscard_cxl s w
  have hcause : (listDiscard s w).frz.cause = s.frz.cause := by
    unfold listDiscard
    extract_lets line lo mask e core z z1 s2 s1
    have hz1 : z1.cause = s.frz.cause := by
      refine Eq.trans ?_ (markDiscard_kept s.frz w.master.toNat core).2
      simp only [z1]
      split <;> rfl
    have hs1 : s1.frz.cause = z1.cause := by
      simp only [s1]
      split_ifs <;> rfl
    rw [offer_frz]
    exact hs1.trans hz1
  exact ⟨(hk.cxl_link (by decide)).trans h.link, (hk.cxl_wq (by decide)).trans h.wq, (listDiscard_on s w).trans h.on, hcause.trans h.cause,
    (preg_listDiscard s w (by omega)).trans h.stat, (congrArg (bit · 5) (preg_listDiscard s w (by omega))).trans h.err⟩

theorem linkGone_discardWrite {s : State} (h : LinkGone s) (w : HeldWrite) : LinkGone (discardWrite s w) :=
  (linkGone_listDiscard h w).keeps (P := [.cores]) (loseSent_keeps _ (by decide) (Keeps.refl _ _)) (by decide) (by decide) (by decide)

theorem linkGone_foldl {α : Type} {g : State → α → State} (hg : ∀ t a, LinkGone t → LinkGone (g t a)) (l : List α) {s : State} (h : LinkGone s) :
    LinkGone (l.foldl g s) := List.foldlRecOn (motive := LinkGone) l g h fun t ht a _ => hg t a ht

theorem linkGone_loseStores {s : State} (h : LinkGone s) (id : Fin 256) : LinkGone (loseStores s id) := by
  unfold loseStores
  extract_lets c cl gone s1
  have h1 : LinkGone s1 := h.keeps (P := [.cores]) (setCoreRaw_keeps' s id _) (by decide) (by decide) (by decide)
  split_ifs
  · exact linkGone_foldl (fun t a ht => linkGone_listDiscard ht _) _ h1
  · exact h

theorem linkGone_dropMem {s : State} (h : LinkGone s) (hpa : Nat) (q : HomeReq) : LinkGone (dropMem s hpa q) := by
  have h1 : LinkGone (refuseMem s q) := h.keeps (P := []) (refuseMem_keeps _ (Keeps.refl _ s)) (by decide) (by decide) (by decide)
  have h2 : LinkGone (cntPreg (refuseMem s q) .ep 0x158 1) := by
    refine h1.report (cntPreg_keeps _ _ _ (by omega) (by decide) (Keeps.refl _ _)) ?_ fun hb => ?_
    · rw [preg_cntPreg _ _ (by omega) (by omega), if_neg (by omega)]
    · rw [preg_cntPreg _ _ (by omega) (by omega), if_neg (by omega)]
      exact hb
  exact linkGone_raiseErrX h2 _ _ _ _ _

theorem linkGone_refuseWaiting {s : State} (h : LinkGone s) : LinkGone (refuseWaiting s) := by
  unfold refuseWaiting
  extract_lets x s1
  have hlw : LinkGone { s with lw := { s.lw with heldReqs := [] } } :=
    h.keeps (P := [.lw]) (put_lw_keeps _ (by decide) (Keeps.refl _ s)) (by decide) (by decide) (by decide)
  have h1 : LinkGone s1 := linkGone_foldl (fun t r ht => linkGone_dropMem ht _ _) _ hlw
  refine linkGone_foldl (fun t n ht => linkGone_foldl (fun u w hu => linkGone_dropMem hu _ _) _ ?_) _ h1
  exact ht.keeps (P := [.slices]) (State.setSlice_keeps _ _ (by decide) (Keeps.refl _ t)) (by decide) (by decide) (by decide)

theorem report_link (t : State) (k : Nat) : SameLink t (setPreg t .ep (0x180 + 4 * k) 0) := ⟨rfl, fun n hn => by
  have hk : (0x180 + 4 * k : Nat) ≠ n := by omega
  exact preg_setPreg_off t .ep 0 (by omega)⟩

/-- A freeze that the loss of the link brings. -/
theorem enterFreeze_gone {s : State} (hlink : s.cxl.link = .down) (hoff : s.frz.on = false) (hstat : preg s .ep 0x100 = 0)
    (herr : bit (preg s .ep 0x10) 5 = true) : LinkGone (enterFreeze s 4) := by
  have hclr : SameLink s (clearReport s) := by
    unfold clearReport
    refine SameLink.trans (t := { s with frz := { s.frz with report := [], summary := false } }) ⟨rfl, fun _ _ => preg_update⟩ ?_
    exact sameLink_foldl (fun t k => report_link t k) _ _
  unfold enterFreeze
  rw [if_neg (by simp [hoff])]
  extract_lets s1 x s2 u s3 s4
  have hu : LinkGone u.1 := by
    have hreg : ∀ k < 0x180, preg u.1 .ep k = preg s .ep k := fun k hk => preg_update.trans (preg_update.trans (hclr.regs k hk))
    exact ⟨hclr.link.trans hlink, rfl, rfl, rfl, (hreg _ (by omega)).trans hstat, (congrArg (bit · 5) (hreg _ (by omega))).trans herr⟩
  have h3 : LinkGone s3 := linkGone_foldl (fun t w ht => linkGone_discardWrite ht w) _ hu
  have h4 : LinkGone s4 := linkGone_foldl (fun t id ht => linkGone_loseStores ht id) _ h3
  exact linkGone_raiseInt (linkGone_refuseWaiting h4) 17

/-- The request of a dropped access, where it has one, is forgotten. -/
def forgotten (t : State) (host : Bool) : Option Nat → State
  | some k => if host then { t with cxl := { t.cxl with d2h := dropAt t.cxl.d2h k } } else t
  | none => t

theorem forgotten_frame (t : State) (host : Bool) (k : Option Nat) :
    (LinkGone t → LinkGone (forgotten t host k)) ∧ (t.cxl.d2h = [] → (forgotten t host k).cxl.d2h = []) := by
  cases k with
  | none => exact ⟨id, id⟩
  | some k =>
    cases host with
    | false => exact ⟨id, id⟩
    | true =>
      refine ⟨fun h => ?_, fun h => ?_⟩
      · obtain ⟨h1, h2, h3, h4, h5, h6⟩ := h
        exact ⟨h1, h2, h3, h4, preg_update.trans h5, (congrArg (bit · 5) preg_update).trans h6⟩
      · show dropAt t.cxl.d2h k = []
        rw [h]
        rfl

theorem dropAccess_eq (s : State) (id : Fin 256) (i : Nat) (a : GAccess) : dropAccess s id i a =
    forgotten (s.setCore id { s.core id with access := dropAt (s.core id).access i }) a.host
      (s.cxl.d2h.findIdx? fun d => d.w.isNone && decide (d.core = id) && decide (d.line.toNat = a.pa.toNat / 64)) := by
  rcases h : s.cxl.d2h.findIdx? fun d => d.w.isNone && decide (d.core = id) && decide (d.line.toNat = a.pa.toNat / 64) with _ | k
  · simp only [dropAccess, forgotten, h]
  · simp only [dropAccess, forgotten, h]

theorem dropAccess_frame (s : State) (id : Fin 256) (i : Nat) (a : GAccess) :
    (LinkGone s → LinkGone (dropAccess s id i a)) ∧ (s.cxl.d2h = [] → (dropAccess s id i a).cxl.d2h = []) := by
  have hk := setCore_keeps' s id { s.core id with access := dropAt (s.core id).access i }
  rw [dropAccess_eq]
  obtain ⟨hgone, hd⟩ := forgotten_frame (s.setCore id { s.core id with access := dropAt (s.core id).access i }) a.host
    (s.cxl.d2h.findIdx? fun d => d.w.isNone && decide (d.core = id) && decide (d.line.toNat = a.pa.toNat / 64))
  exact ⟨fun h => hgone (h.keeps hk (by decide) (by decide) (by decide)), fun h => hd ((hk.cxl_d2h (by decide)).trans h)⟩

theorem accessError_frame (s : State) (id : Fin 256) (i : Nat) (a : GAccess) (corr : Nat) :
    (LinkGone s → LinkGone (accessError s id i a corr)) ∧ (s.cxl.d2h = [] → (accessError s id i a corr).cxl.d2h = []) := by
  obtain ⟨hgone, hd⟩ := dropAccess_frame s id i a
  have hk : Keeps [.page .ml, .page .sd, .page .gc, .cores, .locks, .sd] (dropAccess s id i a) (accessError s id i a corr) :=
    keeps_ite (fun _ => accessWake_keeps _ (by decide) (Keeps.refl _ _)) (fun _ => haltLate_keeps _ _ _ _ (by decide) (Keeps.refl _ _))
  exact ⟨fun h => (hgone h).keeps hk (by decide) (by decide) (by decide), fun h => (hk.cxl_d2h (by decide)).trans (hd h)⟩

/-- With the requests to the host failed, none is outstanding (09 R350). -/
theorem failAll_gone {s : State} (h : LinkGone s) : LinkGone (failAll s) ∧ (failAll s).cxl.d2h = [] := by
  unfold failAll
  extract_lets ds x s1
  have h1 : LinkGone s1 ∧ s1.cxl.d2h = [] := by
    obtain ⟨h1, h2, h3, h4, h5, h6⟩ := h
    exact ⟨⟨h1, h2, h3, h4, preg_update.trans h5, (congrArg (bit · 5) preg_update).trans h6⟩, rfl⟩
  clear_value s1
  refine List.foldlRecOn (motive := fun t : State => LinkGone t ∧ t.cxl.d2h = []) _ _ h1 fun t ht d _ => ?_
  obtain ⟨hgone, hd⟩ := ht
  split
  · next w _ =>
    have hr := linkGone_raiseErrX hgone 1 (d.line.toNat * 64) (d2hTag t d) false false
    have hk : Keeps [.page .ep, .cores, .frz] t (discardWrite (raiseErrX t .ep 1 (d.line.toNat * 64) (d2hTag t d) false false) w) :=
      discardWrite_keeps _ (by decide) (raiseErrX_keeps _ _ _ _ _ _ (by decide) (Keeps.refl _ t))
    exact ⟨linkGone_discardWrite hr w, (hk.cxl_d2h (by decide)).trans hd⟩
  · split
    · next k a _ =>
      obtain ⟨h1, h2⟩ := accessError_frame t d.core k a (d2hTag t d)
      exact ⟨h1 hgone, h2 hd⟩
    · exact ⟨hgone, hd⟩

/-- Settles O36: what the link's own events do to it, to the episodes and to the requests on their way; its loss freezes the host's side. -/
theorem linkStates : Obligations.LinkStates := by
  refine ⟨?up, ?retry, ?replay, ?recovery, ?ends, ?portEnds, ?lost⟩
  case up =>
    intro s i hdown htrain hok
    have hr := resumed_link (linkedUp s i)
    refine ⟨resumed (linkedUp s i), congrArg Host.Outcome.next (linkCome_up hdown htrain hok), ?_, hr.link.trans (linkedUp_link s i), ?_, ?_, ?_⟩
    · exact ((linkedUp_keeps s i).mono (by decide)).trans ((resumed_keeps _).mono (by decide))
    · exact (hr.regs _ (by omega)).trans (linkedUp_stat s i)
    · rw [hr.regs _ (by omega)]
      exact linkedUp_int s i
    · rw [hr.regs 0x10 (by omega)]
      exact linkedUp_narrow s i hok
  case retry =>
    intro s hdown htrain
    refine ⟨_, congrArg Host.Outcome.next (if_pos ⟨hdown, htrain⟩), emit_keeps _ (raiseErr_keeps _ _ _ (by decide) (Keeps.refl _ s)), ?_, emit_last _ _⟩
    rw [preg_emit]
    exact raiseErr_bit _ _ _ (by omega)
  case replay =>
    intro s hl
    have hcnt : preg (cntPreg { s with cxl := { s.cxl with link := .replay } } .ep 0x150 1) .ep 0x150 = satAdd (preg s .ep 0x150) 1 := by
      rw [preg_cntPreg _ _ (by omega) (by omega), if_pos ⟨rfl, rfl⟩, preg_update]
    obtain ⟨h1, h2, h3, h4, h5, h6⟩ := interrupted (s := s)
      (u := cntPreg { s with cxl := { s.cxl with link := .replay } } .ep 0x150 1) (l := .replay) (src := 3) (by omega)
      (cntPreg_keeps _ _ _ (by omega) (by decide) (put_cxl_keeps _ (by decide) (Keeps.refl _ s))) rfl rfl hcnt (by omega) rfl
    exact ⟨_, congrArg Host.Outcome.next (if_pos hl), h1, h2, h3, h4, h5, h6⟩
  case recovery =>
    intro s hl hr
    have hcnt : preg (endEpisode (cntPreg { s with cxl := { s.cxl with link := .recovery } } .ep 0x154 1) .cxl) .ep 0x154 = satAdd (preg s .ep 0x154) 1 := by
      rw [keeps_ep (endEpisode_keeps' _ _) (by decide) (by omega), preg_cntPreg _ _ (by omega) (by omega), if_pos ⟨rfl, rfl⟩, preg_update]
    obtain ⟨h1, h2, h3, h4, h5, h6⟩ := interrupted (s := s)
      (u := endEpisode (cntPreg { s with cxl := { s.cxl with link := .recovery } } .ep 0x154 1) .cxl) (l := .recovery) (src := 4) (by omega)
      (((cntPreg_keeps _ _ _ (by omega) (by decide) (put_cxl_keeps _ (by decide) (Keeps.refl _ s)))).trans ((endEpisode_keeps' _ .cxl).mono (by decide)))
      rfl rfl hcnt (by omega) rfl
    exact ⟨_, congrArg Host.Outcome.next (if_neg (not_or.mpr ⟨hl, hr⟩)), h1, h2, h3, h4, h5, h6⟩
  case ends =>
    intro s hl
    set v : State := withReady (fun t => { t with cxl := { t.cxl with link := .l0 } }) s with hv
    have hvk : Keeps [.cxl, .boot] s v := withReady_keeps (fun u hu => put_cxl_keeps _ (by decide) hu) (by decide) (Keeps.refl _ s)
    have hlink : v.cxl.link = .l0 := (readyLog_keeps' _).cxl_link (by decide)
    have hr := resumed_link (endEpisode v .cxl)
    have hrk := resumed_keeps (endEpisode v .cxl)
    refine ⟨resumed (endEpisode v .cxl), congrArg Host.Outcome.next (if_pos hl), ?_, hr.link.trans hlink, ?_⟩
    · exact ((hvk.mono (by decide)).trans ((endEpisode_keeps' v .cxl).mono (by decide))).trans (hrk.mono (by decide))
    · have hrun : running (resumed (endEpisode v .cxl)) .cxl = false := (running_keeps hrk (by decide) _).trans (running_ends v .cxl)
      generalize resumed (endEpisode v .cxl) = w at hrun
      exact hrun
  case portEnds =>
    intro s n
    exact ⟨_, rfl, endEpisode_keeps' s _, running_ends s _⟩
  case lost =>
    intro s hl hoff
    set e : State := raiseErr (setPreg s .ep 0x100 0) .ep 5 with he
    have hek : Keeps [.page .ep] s e := raiseErr_keeps _ _ _ (by decide) (setPreg_keeps _ _ _ (by omega) (by decide) (Keeps.refl _ s))
    have hestat : preg e .ep 0x100 = 0 := by
      rw [preg_raiseErr _ _ _ (by omega) (fun _ => rfl) (by simp), preg_setPreg_same]
    have heerr : bit (preg e .ep 0x10) 5 = true := raiseErr_bit _ _ _ (by omega)
    set d : State := setLink { e with cxl := { e.cxl with l0pOk := false, msixQ := [] } } .down with hd
    have hdk : Keeps [.page .ep, .cxl, .boot] e d := setLink_keeps _ (by decide) (put_cxl_keeps _ (by decide) (Keeps.refl _ e))
    have hdreg : ∀ k < 0x30, preg d .ep k = preg e .ep k := fun k hk => (preg_setLink _ _ (by omega) (by omega) (by omega)).trans preg_update
    have hdstat : preg d .ep 0x100 = 0 := (preg_setLink _ _ (by omega) (by omega) (by omega)).trans (preg_update.trans hestat)
    have hderr : bit (preg d .ep 0x10) 5 = true := (congrArg (bit · 5) (hdreg _ (by omega))).trans heerr
    have hepk := endEpisode_keeps' d .cxl
    have hfrz : (endEpisode d .cxl).frz.on = false := by
      rw [hepk .frz (by decide), hdk .frz (by decide), hek .frz (by decide)]
      exact hoff
    have hgone := enterFreeze_gone (s := endEpisode d .cxl) (setLink_link _ _) hfrz ((keeps_ep hepk (by decide) (by omega)).trans hdstat)
      ((congrArg (bit · 5) (keeps_ep hepk (by decide) (by omega))).trans hderr)
    obtain ⟨⟨h1, h2, h3, h4, h5, h6⟩, h7⟩ := failAll_gone hgone
    refine ⟨_, congrArg Host.Outcome.next (if_neg hl), ?_, h1, h7, h2, h3, h4, h5, h6⟩
    refine failAll_keeps (by decide) (enterFreeze_keeps _ (by decide) ?_)
    exact ((hek.mono (by decide)).trans (hdk.mono (by decide))).trans (hepk.mono (by decide))

end Sys2Proof
end

section
/-! PROOFS. Bytes of a sparse store, and the memory controllers (08 R336 to R338, R355; 11 R481). -/

namespace Sys2Proof

open Sys2Proof.Machine

/-! ## Bytes read and written -/

theorem bytesNat_natBytes (n v : Nat) : bytesNat (natBytes n v) = v % 256 ^ n := by
  induction n generalizing v with
  | zero => simp [natBytes, bytesNat, Nat.mod_one]
  | succ n ih =>
    have hlow : (BitVec.ofNat 8 v).toNat = v % 256 := BitVec.toNat_ofNat v 8
    rw [natBytes, bytesNat, ih, hlow, Nat.pow_succ', Nat.mod_mul]

theorem readBytes_ext {m m' : Sparse Byte} {a n : Nat} (h : ∀ i < n, sget byteDefault m' (a + i) = sget byteDefault m (a + i)) :
    readBytes m' a n = readBytes m a n := by
  induction n generalizing a with
  | zero => rfl
  | succ n ih =>
    rw [readBytes, readBytes, ih fun i hi => by rw [Nat.add_assoc, Nat.add_comm 1 i]; exact h (i + 1) (by omega)]
    exact congrArg (· :: _) (h 0 (by omega))

/-- What was written is read. -/
theorem readBytes_writeBytes (bs : List Byte) (m : Sparse Byte) (a : Nat) : readBytes (writeBytes m a bs) a bs.length = bs := by
  induction bs generalizing m a with
  | nil => rfl
  | cons b bs ih =>
    have hhead : sget byteDefault (writeBytes (sset byteDefault m a b) (a + 1) bs) a = b := by
      rw [sget_writeBytes_other _ _ _ _ (.inl (by omega)), sget_sset_same]
    rw [List.length_cons, readBytes, writeBytes, hhead, ih]

/-- Bytes clear of those written are as before. -/
theorem readBytes_writeBytes_other (bs : List Byte) (m : Sparse Byte) {a b n : Nat} (h : b + n ≤ a ∨ a + bs.length ≤ b) :
    readBytes (writeBytes m a bs) b n = readBytes m b n :=
  readBytes_ext fun i hi => sget_writeBytes_other _ _ _ _ (by omega)

/-! ## Granules -/

section
variable {s t : State} {n : Fin 8} {g : Nat}

theorem granData_setGran (s : State) (g : Nat) (d : BitVec 256) (p : Bool) : granData (setGran s g d p) g = d := by
  have hread := readBytes_writeBytes (natBytes 32 d.toNat) s.dm (32 * g)
  rw [natBytes_length] at hread
  unfold granData
  rw [show (setGran s g d p).dm = writeBytes s.dm (32 * g) (natBytes 32 d.toNat) from rfl, hread, bytesNat_natBytes]
  refine BitVec.eq_of_toNat_eq ?_
  rw [BitVec.toNat_ofNat, show (256 : Nat) ^ 32 = 2 ^ 256 from rfl, Nat.mod_mod, Nat.mod_eq_of_lt d.isLt]

theorem granData_setGran_other (s : State) {g k : Nat} (d : BitVec 256) (p : Bool) (h : k ≠ g) : granData (setGran s g d p) k = granData s k := by
  unfold granData
  rw [show (setGran s g d p).dm = writeBytes s.dm (32 * g) (natBytes 32 d.toNat) from rfl,
    readBytes_writeBytes_other _ _ (by rw [natBytes_length]; omega)]

theorem granPoison_setGran (s : State) (g : Nat) (d : BitVec 256) (p : Bool) : granPoison (setGran s g d p) g = p := sget_sset_same _ _ _ _

theorem granPoison_setGran_other (s : State) {g k : Nat} (d : BitVec 256) (p : Bool) (h : k ≠ g) :
    granPoison (setGran s g d p) k = granPoison s k := sget_sset_other _ _ _ h

theorem Keeps.granData {P : List Part} (h : Keeps P s t) (hd : Part.dm ∉ P) (k : Nat) : granData t k = granData s k := by
  obtain ⟨hdm, -⟩ : t.dm = s.dm ∧ t.poison = s.poison := h .dm hd
  unfold Machine.granData
  rw [hdm]

theorem Keeps.granPoison {P : List Part} (h : Keeps P s t) (hd : Part.dm ∉ P) (k : Nat) : granPoison t k = granPoison s k := by
  obtain ⟨-, hp⟩ : t.dm = s.dm ∧ t.poison = s.poison := h .dm hd
  unfold Machine.granPoison
  rw [hp]

theorem setGran_keeps' (s : State) (g : Nat) (d : BitVec 256) (p : Bool) : Keeps [.dm] s (setGran s g d p) :=
  setGran_keeps _ _ _ (by decide) (Keeps.refl _ s)

theorem preg_setGran (s : State) (g : Nat) (d : BitVec 256) (p : Bool) (q : Page) (k : Nat) : preg (setGran s g d p) q k = preg s q k := preg_update

/-! ## Reports of a controller -/

theorem mcCount_keeps (s : State) (n : Fin 8) (o : Nat) (ho : o < 0x1000) : Keeps [.page .mc] s (cntPreg s (.mc n) o 1) :=
  cntPreg_keeps _ _ _ ho (by simp [classOf]) (Keeps.refl _ s)

theorem preg_mcCount (s : State) (n : Fin 8) (o : Nat) : preg (cntPreg s (.mc n) o 1) (.mc n) o = satAdd (preg s (.mc n) o) 1 :=
  preg_setPreg_same _ _ _ _

theorem mcErr_keeps (s : State) (n : Fin 8) (k a : Nat) : Keeps [.page .mc] s (raiseErr s (.mc n) k a) :=
  raiseErr_keeps _ _ _ (by simp [classOf]) (Keeps.refl _ s)

theorem reportUe_after (s : State) (n : Fin 8) (g : Nat) : Keeps [.page .mc] s (reportUe s n g) ∧
    preg (reportUe s n g) (.mc n) 0x104 = satAdd (preg s (.mc n) 0x104) 1 ∧ bit (preg (reportUe s n g) (.mc n) 0x10) 1 = true := by
  refine ⟨reportUe_keeps _ _ (by decide) (Keeps.refl _ s), ?_, raiseErr_bit _ _ _ (by omega)⟩
  unfold reportUe
  rw [preg_raiseErr _ _ _ (by omega) (fun _ => rfl) (by simp), preg_setPreg64 _ _ (by omega) (by omega), if_neg (by omega), if_neg (by omega),
    preg_mcCount]

theorem reportCe_after (s : State) (n : Fin 8) (g : Nat) : Keeps [.page .mc, .scrubs] s (reportCe s n g) ∧
    preg (reportCe s n g) (.mc n) 0x100 = satAdd (preg s (.mc n) 0x100) 1 ∧ bit (preg (reportCe s n g) (.mc n) 0x10) 0 = true := by
  refine ⟨reportCe_keeps _ _ (by decide) (Keeps.refl _ s), ?_, raiseErr_bit _ _ _ (by omega)⟩
  unfold reportCe
  extract_lets s1 b
  have h1 : preg s1 (.mc n) 0x100 = satAdd (preg s (.mc n) 0x100) 1 := by
    rw [preg_setPreg64 _ _ (by omega) (by omega), if_neg (by omega), if_neg (by omega), preg_mcCount]
  rw [preg_raiseErr _ _ _ (by omega) (fun _ => rfl) (by simp), preg_update, h1]

/-! ## Reads and writes of a granule -/

theorem mcReadGran_poisoned (h : Health) (hp : granPoison s g = true) : mcReadGran s n g h = raiseErr s (.mc n) 2 (32 * g) := if_pos hp

theorem mcReadGran_clean (hp : granPoison s g = false) : mcReadGran s n g .clean = s := if_neg (by simp [hp])

theorem mcReadGran_ce (hp : granPoison s g = false) : mcReadGran s n g .ce = reportCe s n g := if_neg (by simp [hp])

theorem mcReadGran_ue (hp : granPoison s g = false) : mcReadGran s n g .ue = reportUe (setGran s g (granData s g) true) n g := if_neg (by simp [hp])

/-- A full write: the data, without poison. -/
theorem mcFullGran_after (s : State) (n : Fin 8) (g : Nat) (d : BitVec 256) : Keeps [.page .mc, .dm] s (mcFullGran s n g d) ∧
    granData (mcFullGran s n g d) g = d ∧ granPoison (mcFullGran s n g d) g = false ∧ ∀ k, k ≠ g → granData (mcFullGran s n g d) k = granData s k := by
  have hc : Keeps [.page .mc] s (when (granPoison s g) (fun t => cntPreg t (.mc n) 0x10C 1) s) :=
    keeps_ite (fun _ => mcCount_keeps _ _ _ (by omega)) (fun _ => Keeps.refl _ s)
  refine ⟨mcFullGran_keeps _ _ _ (by decide) (Keeps.refl _ s), granData_setGran _ _ _ _, granPoison_setGran _ _ _ _, fun k hk => ?_⟩
  exact (granData_setGran_other _ _ _ hk).trans (hc.granData (by decide) k)

/-- A partial write of a poisoned granule merges, leaves the poison and reports it. -/
theorem mcPartGran_poisoned (d : BitVec 256) (m : BitVec 32) (h : Health) (hp : granPoison s g = true) :
    Keeps [.page .mc, .dm] s (mcPartGran s n g d m h) ∧ granData (mcPartGran s n g d m h) g = mergeGran (granData s g) d m ∧
      granPoison (mcPartGran s n g d m h) g = true ∧ bit (preg (mcPartGran s n g d m h) (.mc n) 0x10) 3 = true := by
  have heq : mcPartGran s n g d m h = raiseErr (cntPreg (setGran (cntPreg s (.mc n) 0x110 1) g (mergeGran (granData s g) d m) true) (.mc n) 0x108 1)
      (.mc n) 3 (32 * g) := if_pos hp
  have hk : Keeps [.page .mc] (setGran (cntPreg s (.mc n) 0x110 1) g (mergeGran (granData s g) d m) true) (mcPartGran s n g d m h) :=
    heq ▸ (mcCount_keeps _ _ _ (by omega)).trans (mcErr_keeps _ _ _ _)
  refine ⟨?_, (hk.granData (by decide) g).trans (granData_setGran _ _ _ _), (hk.granPoison (by decide) g).trans (granPoison_setGran _ _ _ _), ?_⟩
  · exact (((mcCount_keeps s n 0x110 (by omega)).mono (by decide)).trans ((setGran_keeps' _ _ _ _).mono (by decide))).trans (hk.mono (by decide))
  · rw [heq]
    exact raiseErr_bit _ _ _ (by omega)

/-- A partial write of a granule that reads clean merges. -/
theorem mcPartGran_clean (d : BitVec 256) (m : BitVec 32) (hp : granPoison s g = false) :
    Keeps [.page .mc, .dm] s (mcPartGran s n g d m .clean) ∧ granData (mcPartGran s n g d m .clean) g = mergeGran (granData s g) d m ∧
      granPoison (mcPartGran s n g d m .clean) g = false ∧
      preg (mcPartGran s n g d m .clean) (.mc n) 0x110 = satAdd (preg s (.mc n) 0x110) 1 := by
  have heq : mcPartGran s n g d m .clean = setGran (cntPreg s (.mc n) 0x110 1) g (mergeGran (granData s g) d m) false := if_neg (by simp [hp])
  rw [heq]
  refine ⟨?_, granData_setGran _ _ _ _, granPoison_setGran _ _ _ _, ?_⟩
  · exact ((mcCount_keeps s n 0x110 (by omega)).mono (by decide)).trans ((setGran_keeps' _ _ _ _).mono (by decide))
  · rw [preg_setGran, preg_mcCount]

theorem mcRead_exec {g : BitVec 34} (h : Health) (hin : granInStack s n g.toNat = true) (hok : stackRefuses s (g.toNat / 2) = false) :
    exec (.mcRead n g h) s = .next (mcReadGran s n g.toNat h) := congrArg Host.Outcome.next (if_pos (by simp [hin, hok]))

theorem mcFullWrite_exec {g : BitVec 34} (d : BitVec 256) (hin : granInStack s n g.toNat = true) (hok : stackRefuses s (g.toNat / 2) = false) :
    exec (.mcFullWrite n g d none) s = .next (mcFullGran s n g.toNat d) :=
  congrArg Host.Outcome.next ((if_pos hin).trans (if_neg (by simp [hok])))

theorem mcBothWrite_exec {g : BitVec 34} (d x : BitVec 256) (m : BitVec 32) (last : Bool) (hin : granInStack s n g.toNat = true)
    (hok : stackRefuses s (g.toNat / 2) = false) :
    exec (.mcFullWrite n g d (some (x, m, last))) s = .next (mcBothGran s n g.toNat d x m last) :=
  congrArg Host.Outcome.next ((if_pos hin).trans (if_neg (by simp [hok])))

theorem mcPartialWrite_exec {g : BitVec 34} (d : BitVec 256) {m : BitVec 32} (h : Health) (hin : granInStack s n g.toNat = true)
    (hok : stackRefuses s (g.toNat / 2) = false) (h0 : m ≠ 0) (hall : m ≠ BitVec.allOnes 32) :
    exec (.mcPartialWrite n g d m h) s = .next (mcPartGran s n g.toNat d m h) :=
  congrArg Host.Outcome.next ((if_neg (by simp only [hin, Bool.not_true, Bool.false_eq_true, false_or]; exact h0)).trans ((if_neg (by simp [hok])).trans (if_neg hall)))

/-- The scrub's pointer of a stack, at its next granule. -/
def scrubNext (s : State) (n : Fin 8) : State :=
  { s with scrubs := s.scrubs.set n { s.scrubs.get n with next := BitVec.ofNat 31 (((s.scrubs.get n).next.toNat + 1) % stackGrans) } }

theorem scrubNext_keeps (s : State) (n : Fin 8) : Keeps [.scrubs] s (scrubNext s n) := put_scrubs_keeps _ (by decide) (Keeps.refl _ s)

theorem scrubRead_exec {k : Nat} (h : Health) (w : Option (BitVec 256 × BitVec 32)) (hf : fenced s (.mc n) = false)
    (hk : stackGran s n (s.scrubs.get n).next.toNat = some k) (hc : chunkBlocks s (32 * k) = false) :
    exec (.scrubRead n h w) s = .next (scrubGran (scrubNext s n) n k h w) := by
  show Host.Outcome.next (if fenced s (.mc n) then s else _) = _
  rw [if_neg (by simp [hf]), hk]
  exact congrArg Host.Outcome.next (if_neg (by simp [hc]))

end

/-- Settles O33: a controller reads and writes a granule with its poison; the scrub reads the next granule of the stack. -/
theorem memoryControllers : Obligations.MemoryControllers := by
  refine ⟨?clean, ?ue, ?ce, ?poisoned, ?full, ?part, ?partPoisoned, ?scrub, ?held, ?both, ?refused, ?scrubWrite⟩
  case clean =>
    intro s n g hin hok hp
    exact ⟨s, (mcRead_exec _ hin hok).trans (congrArg _ (mcReadGran_clean hp)), Keeps.refl _ s, rfl⟩
  case ue =>
    intro s n g hin hok hp
    obtain ⟨hk, hcnt, hbit⟩ := reportUe_after (setGran s g.toNat (granData s g.toNat) true) n g.toNat
    refine ⟨_, (mcRead_exec _ hin hok).trans (congrArg _ (mcReadGran_ue hp)), ?_, ?_, ?_, ?_, hbit⟩
    · exact ((setGran_keeps' s _ _ _).mono (by decide)).trans (hk.mono (by decide))
    · exact (hk.granPoison (by decide) _).trans (granPoison_setGran _ _ _ _)
    · exact (hk.granData (by decide) _).trans (granData_setGran _ _ _ _)
    · rw [hcnt, preg_setGran]
  case ce =>
    intro s n g hin hok hp
    exact ⟨_, (mcRead_exec _ hin hok).trans (congrArg _ (mcReadGran_ce hp)), reportCe_after s n g.toNat⟩
  case poisoned =>
    intro s n g h hin hok hp
    exact ⟨_, (mcRead_exec _ hin hok).trans (congrArg _ (mcReadGran_poisoned h hp)), mcErr_keeps _ _ _ _, raiseErr_bit _ _ _ (by omega)⟩
  case full =>
    intro s n g d hin hok
    exact ⟨_, mcFullWrite_exec d hin hok, mcFullGran_after s n g.toNat d⟩
  case part =>
    intro s n g d m hin hok h0 hall hp
    obtain ⟨hk, h⟩ := mcPartGran_clean (n := n) d m hp
    exact ⟨_, mcPartialWrite_exec d _ hin hok h0 hall, hk.mono (by decide), h⟩
  case partPoisoned =>
    intro s n g d m h hin hok h0 hall hp
    obtain ⟨hk, h'⟩ := mcPartGran_poisoned (n := n) d m h hp
    exact ⟨_, mcPartialWrite_exec d _ hin hok h0 hall, hk.mono (by decide), h'⟩
  case scrub =>
    intro s n k hf hk hc hp
    have hread : scrubGran (scrubNext s n) n k .clean none = scrubNext s n := mcReadGran_clean hp
    have hget : (scrubNext s n).scrubs.get n = { s.scrubs.get n with next := BitVec.ofNat 31 (((s.scrubs.get n).next.toNat + 1) % stackGrans) } :=
      Vector.getElem_set_self ..
    refine ⟨_, (scrubRead_exec _ _ hf hk hc).trans (congrArg _ hread), scrubNext_keeps s n, ?_, ?_⟩
    · rw [hget]
    · rw [hget]
  case held =>
    intro s n k h w hk hc hf
    refine ⟨s, ?_, Keeps.refl _ s, rfl⟩
    show Host.Outcome.next (if fenced s (.mc n) then s else _) = _
    rw [if_neg (by simp [hf]), hk]
    exact congrArg Host.Outcome.next (if_pos hc)
  case both =>
    intro s n g d x m last hin hok hp
    cases last with
    | true =>
      obtain ⟨hk1, -⟩ := mcPartGran_poisoned (n := n) x m .clean hp
      obtain ⟨hk2, hd, hpo, -⟩ := mcFullGran_after (mcPartGran s n g.toNat x m .clean) n g.toNat d
      exact ⟨_, mcBothWrite_exec d x m true hin hok, (hk1.mono (by decide)).trans (hk2.mono (by decide)), hd, hpo⟩
    | false =>
      obtain ⟨hk1, hd1, -, -⟩ := mcFullGran_after s n g.toNat d
      have hset : mcBothGran s n g.toNat d x m false = mcPartGran (setGran (mcFullGran s n g.toNat d) g.toNat d true) n g.toNat x m .clean := by
        rw [← hp]
        rfl
      obtain ⟨hk2, hd2, hp2, -⟩ := mcPartGran_poisoned (s := setGran (mcFullGran s n g.toNat d) g.toNat d true) (n := n) (g := g.toNat) x m .clean
        (granPoison_setGran _ _ _ _)
      rw [granData_setGran] at hd2
      refine ⟨_, (mcBothWrite_exec d x m false hin hok).trans (congrArg _ hset), ?_, hd2, hp2⟩
      exact ((hk1.mono (by decide)).trans ((setGran_keeps' _ _ _ _).mono (by decide))).trans (hk2.mono (by decide))
  case refused =>
    intro s n g d hin hok
    exact ⟨_, congrArg Host.Outcome.next ((if_pos hin).trans (if_pos hok)), mcErr_keeps _ _ _ _, raiseErr_bit _ _ _ (by omega)⟩
  case scrubWrite =>
    intro s n k d m hf hk hc hp hall
    obtain ⟨hk1, hd, hpo, hcnt⟩ := mcPartGran_clean (s := scrubNext s n) (n := n) (g := k) d m hp
    have hscrub : scrubGran (scrubNext s n) n k .clean (some (d, m)) = mcPartGran (scrubNext s n) n k d m .clean := by
      show mcReadGran (if m = BitVec.allOnes 32 then _ else _) n k .clean = _
      rw [if_neg hall, mcReadGran_clean hpo]
    refine ⟨_, (scrubRead_exec _ _ hf hk hc).trans (congrArg _ hscrub), ?_, hd, hpo, hcnt⟩
    exact ((scrubNext_keeps s n).mono (by decide)).trans (hk1.mono (by decide))

end Sys2Proof
end

section
/-! PROOFS. Control words of a crossing link (10 R419, R427, R437 to R439, R445, R446). -/

namespace Sys2Proof

open Sys2Proof.Machine

section
variable {s : State} {n : Fin 8}

theorem setPort_keeps' (s : State) (n : Fin 8) (p : Port) : Keeps [.ports] s (s.setPort n p) := State.setPort_keeps _ _ (by decide) (Keeps.refl _ s)

theorem xlErr_keeps (s : State) (n : Fin 8) (k a : Nat) : Keeps [.page .xl] s (raiseErr s (.xl n) k a) :=
  raiseErr_keeps _ _ _ (by simp [classOf]) (Keeps.refl _ s)

theorem raiseErr_port (s : State) (p : Page) (k a : Nat) (m : Fin 8) : (raiseErr s p k a).port m = s.port m := congrArg (·.get m) (raiseErr_ports s p k a)

/-! ## CREDIT -/

theorem wakeSenders_idle (h : ∀ id : Fin 256, (s.core id).waits = [] ∧ (s.core id).tt.sendQ = []) : wakeSenders s = s := by
  unfold wakeSenders
  refine List.foldlRecOn (motive := fun t : State => t = s) _ _ rfl fun t ht id _ => ?_
  obtain ⟨hw, hq⟩ := h id
  rw [ht, if_pos]
  rw [hw, hq]
  rfl

/-- The freed count of a pool that a CREDIT word brings, and the credits with it. -/
def creditNow (w : BitVec 128) (k : Fin 3) : Byte := BitVec.ofNat 8 (fld w (8 + 8 * k.val) 8)

def creditSum (p : Port) (w : BitVec 128) (k : Fin 3) : Nat := p.credits.get k + (creditNow w k - p.creditSeen.get k).toNat

/-- A port with the credits of a CREDIT word, clamped to the split of the peer. -/
def credited (p : Port) (w : BitVec 128) : Port :=
  { p with creditSeen := Vector.ofFn (creditNow w), credits := Vector.ofFn fun k => min (creditSum p w k) (p.split.get k) }

theorem creditIn_eq (w : BitVec 128) : creditIn s n w = wakeSenders
    (if (List.finRange 3).any fun k => decide ((s.port n).split.get k < creditSum (s.port n) w k) then
      raiseErr (s.setPort n (credited (s.port n) w)) (.xl n) 16 else s.setPort n (credited (s.port n) w)) := rfl

theorem credited_credits (p : Port) (w : BitVec 128) (k : Fin 3) :
    (credited p w).credits.get k = min (creditSum p w k) (p.split.get k) := by
  show (Vector.ofFn fun k => min (creditSum p w k) (p.split.get k)).get k = _
  exact Vector.getElem_ofFn k.isLt

theorem credited_seen (p : Port) (w : BitVec 128) (k : Fin 3) : (credited p w).creditSeen.get k = creditNow w k := by
  show (Vector.ofFn (creditNow w)).get k = _
  exact Vector.getElem_ofFn k.isLt

theorem creditIn_within {w : BitVec 128} (hidle : ∀ id : Fin 256, (s.core id).waits = [] ∧ (s.core id).tt.sendQ = [])
    (hsum : ∀ k, creditSum (s.port n) w k ≤ (s.port n).split.get k) : creditIn s n w = s.setPort n (credited (s.port n) w) := by
  rw [creditIn_eq, if_neg, wakeSenders_idle]
  · exact fun id => hidle id
  · rw [Bool.not_eq_true, List.any_eq_false]
    exact fun k _ => by simpa using hsum k

theorem creditIn_beyond {w : BitVec 128} {k : Fin 3} (hidle : ∀ id : Fin 256, (s.core id).waits = [] ∧ (s.core id).tt.sendQ = [])
    (hsum : (s.port n).split.get k < creditSum (s.port n) w k) : creditIn s n w = raiseErr (s.setPort n (credited (s.port n) w)) (.xl n) 16 := by
  rw [creditIn_eq, if_pos, wakeSenders_idle]
  · have hk := xlErr_keeps (s.setPort n (credited (s.port n) w)) n 16 0
    intro id
    rw [hk.core (by decide) id]
    exact hidle id
  · rw [List.any_eq_true]
    exact ⟨k, List.mem_finRange k, by simpa using hsum⟩

/-! ## ACK and NAK -/

theorem ackTo_within {count : W16} (h : (count - (s.port n).acked).toNat ≤ (s.port n).replayBuf.length) : ackTo s n count =
    s.setPort n { s.port n with replayBuf := (s.port n).replayBuf.drop (count - (s.port n).acked).toNat, acked := count } := if_pos h

theorem emitUnit_out (s : State) (n : Fin 8) (u : RUnit) : (emitUnit s n u).out = s.out ++
    [match u with | .bundle b => Out.bundle n (headerCell b) (dirCells b.msgs) b.payload | .word x => Out.ctrlWord n x] := by
  cases u <;> rfl

theorem emitUnit_keeps' (s : State) (n : Fin 8) (u : RUnit) : Keeps [] s (emitUnit s n u) := by
  cases u <;> exact emit_keeps _ (Keeps.refl _ s)

theorem emitUnits_out (l : List RUnit) (s : State) (n : Fin 8) : (l.foldl (fun t u => emitUnit t n u) s).out = s.out ++
    l.map fun u => match u with | .bundle b => Out.bundle n (headerCell b) (dirCells b.msgs) b.payload | .word x => Out.ctrlWord n x := by
  induction l generalizing s with
  | nil => simp
  | cons u l ih => rw [List.foldl_cons, ih, emitUnit_out, List.map_cons, List.append_assoc, List.singleton_append]

/-- A further error of a port, where there is one, leaves the count of NAKs and the errors that stood. -/
theorem further_err (u : State) (c : Prop) [Decidable c] (k : Nat) : Keeps [.page .xl] u (if c then raiseErr u (.xl n) k else u) ∧
    preg (if c then raiseErr u (.xl n) k else u) (.xl n) 0x18C = preg u (.xl n) 0x18C ∧
    (bit (preg u (.xl n) 0x10) 5 = true → bit (preg (if c then raiseErr u (.xl n) k else u) (.xl n) 0x10) 5 = true) := by
  split_ifs
  · refine ⟨xlErr_keeps _ _ _ _, preg_raiseErr _ _ _ (by omega) (fun _ => rfl) (by simp), fun h => ?_⟩
    rw [preg_raiseErr_stat, bit_or, h, Bool.true_or]
  · exact ⟨Keeps.refl _ u, rfl, fun h => h⟩

/-- What a NAK leaves before it sends: the units acknowledged gone, the NAK counted. -/
theorem nakIn_after {count : W16} (h : (count - (s.port n).acked).toNat ≤ (s.port n).replayBuf.length) :
    ∃ t : State, nakIn s n count = (t.port n).replayBuf.foldl (fun u x => emitUnit u n x) (sendWord t n (replayWord count)) ∧
      Keeps [.page .fc, .page .xl, .ports, .fc] s t ∧
      (t.port n).replayBuf = (s.port n).replayBuf.drop (count - (s.port n).acked).toNat ∧ (t.port n).nakAt = count ∧
      preg t (.xl n) 0x18C = satAdd (preg s (.xl n) 0x18C) 1 ∧ bit (preg t (.xl n) 0x10) 5 = true ∧ running t (.port n) = true := by
  have hb : Keeps [.page .fc, .fc] s (beginEpisode s (.port n)) := beginEpisode_keeps _ (by decide) (Keeps.refl _ s)
  have hrun := running_begins s (.port n)
  have hport : (beginEpisode s (.port n)).port n = s.port n := hb.port (by decide) n
  have hreg : preg (beginEpisode s (.port n)) (.xl n) 0x18C = preg s (.xl n) 0x18C := hb.preg (by simp [classOf]) (by omega) (by simp) (by simp)
  unfold nakIn
  generalize beginEpisode s (.port n) = e at hb hrun hport hreg
  have hack := ackTo_within (s := e) (n := n) (count := count) (by rw [hport]; exact h)
  rw [hport] at hack
  extract_lets s1 p run s2 s3 s4
  have hs1 : s1 = _ := hack
  have h1 : s1.port n = { s.port n with replayBuf := (s.port n).replayBuf.drop (count - (s.port n).acked).toNat, acked := count } :=
    (congrArg (·.port n) hs1).trans (setPort_port_same _ _ _)
  have h2 : s2.port n = { p with nakAt := count, nakRun := run } := setPort_port_same _ _ _
  have hk1 : Keeps [.ports] e s1 := hs1 ▸ setPort_keeps' _ _ _
  have hk2 : Keeps [.page .xl, .ports] s1 s2 :=
    cntPreg_keeps _ _ _ (by omega) (by simp [classOf]) ((setPort_keeps' s1 n { p with nakAt := count, nakRun := run }).mono (by decide))
  have hk3 : Keeps [.page .xl] s2 s3 := xlErr_keeps _ _ _ _
  have hcnt : preg s2 (.xl n) 0x18C = satAdd (preg s (.xl n) 0x18C) 1 := by
    have hs1 : preg s1 (.xl n) 0x18C = preg e (.xl n) 0x18C := hk1.preg (by simp) (by omega) (by simp) (by simp)
    rw [preg_cntPreg _ _ (by omega) (by omega), if_pos ⟨rfl, rfl⟩, preg_setPort, hs1, hreg]
  have hcnt3 : preg s3 (.xl n) 0x18C = satAdd (preg s (.xl n) 0x18C) 1 := by
    rw [preg_raiseErr _ _ _ (by omega) (fun _ => rfl) (by simp), hcnt]
  have hbit3 : bit (preg s3 (.xl n) 0x10) 5 = true := raiseErr_bit _ _ _ (by omega)
  have hbuf : p.replayBuf = (s.port n).replayBuf.drop (count - (s.port n).acked).toNat := congrArg Port.replayBuf h1
  clear_value s1 p run s2 s3
  have hmore : Keeps [.page .xl] s3 s4 ∧ preg s4 (.xl n) 0x18C = preg s3 (.xl n) 0x18C ∧
      (bit (preg s3 (.xl n) 0x10) 5 = true → bit (preg s4 (.xl n) 0x10) 5 = true) := further_err s3 _ 6
  clear_value s4
  obtain ⟨hk4, hcnt4, hbit4⟩ := hmore
  have hk24 : Keeps [.page .xl] s2 s4 := hk3.trans hk4
  have h4 : s4.port n = { p with nakAt := count, nakRun := run } := (hk24.port (by decide) n).trans h2
  refine ⟨s4, rfl, ?_, (congrArg Port.replayBuf h4).trans hbuf, congrArg Port.nakAt h4, hcnt4.trans hcnt3, hbit4 hbit3, ?_⟩
  · exact (((hb.mono (by decide)).trans (hk1.mono (by decide))).trans (hk2.mono (by decide))).trans (hk24.mono (by decide))
  · rw [running_keeps hk24 (by decide), running_keeps hk2 (by decide), running_keeps hk1 (by decide), hrun]

/-! ## FARE, ABORT -/

theorem acceptUnit_keeps' (s : State) (n : Fin 8) : Keeps [.ports] s (acceptUnit s n) := emit_keeps _ (setPort_keeps' s n _)

theorem acceptUnit_port (s : State) (n : Fin 8) : (acceptUnit s n).port n = { s.port n with accepted := (s.port n).accepted + 1 } := setPort_port_same _ _ _

theorem acceptUnit_last (s : State) (n : Fin 8) : (acceptUnit s n).out.getLast? = some (.ctrlWord n (ackWord ((acceptUnit s n).port n))) := by
  rw [acceptUnit_port]
  exact emit_last _ _

/-- An ABORT sent on to one port, unless it came by that port. -/
def abortBut (n : Fin 8) (w : BitVec 128) (t : State) (m : Fin 8) : State := if (t.port m).st = .up ∧ some m ≠ some n then sendReliable t m w else t

theorem abortBut_keeps (n : Fin 8) (w : BitVec 128) (s : State) : Keeps [.page .xl, .ports] s ((List.finRange 8).foldl (abortBut n w) s) :=
  keeps_foldl (fun _ _ ht => keeps_ite (fun _ => sendReliable_keeps _ _ (by decide) ht) (fun _ => ht)) _ (Keeps.refl _ s)

/-- A port that is UP takes the word without a report, and the port that the ABORT came by is left alone. -/
theorem abortBut_after (n : Fin 8) (w : BitVec 128) (t : State) (m : Fin 8) :
    (abortBut n w t m).port n = t.port n ∧ ∀ p k, preg (abortBut n w t m) p k = preg t p k := by
  by_cases h : (t.port m).st = .up ∧ some m ≠ some n
  · have hgm : abortBut n w t m = sendReliable t m w := if_pos h
    have hne : n ≠ m := fun e => h.2 (congrArg some e.symm)
    refine ⟨by rw [hgm, sendReliable_port, if_neg (fun e => hne e.1)], fun p k => ?_⟩
    rw [hgm]
    unfold sendReliable
    extract_lets q s1
    rw [if_pos h.1, preg_emit, preg_setPort]
  · have hgm : abortBut n w t m = t := if_neg h
    exact ⟨by rw [hgm], fun p k => by rw [hgm]⟩

theorem abortButs_after (n : Fin 8) (w : BitVec 128) (s : State) :
    ((List.finRange 8).foldl (abortBut n w) s).port n = s.port n ∧ ∀ p k, preg ((List.finRange 8).foldl (abortBut n w) s) p k = preg s p k :=
  List.foldlRecOn (motive := fun t : State => t.port n = s.port n ∧ ∀ p k, preg t p k = preg s p k) _ (abortBut n w) ⟨rfl, fun _ _ => rfl⟩ fun t ht m _ =>
    ⟨(abortBut_after n w t m).1.trans ht.1, fun p k => ((abortBut_after n w t m).2 p k).trans (ht.2 p k)⟩

/-- A state with an ABORT noted as seen. -/
def noted (u : State) (o : Byte) (st : W32) : State := { u with fc := { u.fc with abortIds := ((o, st) :: u.fc.abortIds).take 16 } }

theorem noted_keeps (u : State) (o : Byte) (st : W32) : Keeps [.fc] u (noted u o st) := put_fc_keeps _ (by decide) (Keeps.refl _ u)

theorem preg_noted (u : State) (o : Byte) (st : W32) (p : Page) (k : Nat) : preg (noted u o st) p k = preg u p k := rfl

theorem sendAbort_but (s : State) (o : Byte) (st : W32) (c : Byte) (n : Fin 8) :
    sendAbort s o st c (some n) = noted ((List.finRange 8).foldl (abortBut n (abortWord o st c)) s) o st := by
  have hone : (fun (t : State) (m : Fin 8) => if (t.port m).st = .up ∧ some m ≠ some n then sendReliable t m (abortWord o st c) else t) =
      abortBut n (abortWord o st c) := rfl
  unfold sendAbort noted
  rw [hone]

/-- An ABORT sent on is seen; nothing is reported, and the port that it came by is left alone. -/
theorem sendAbort_others (s : State) (o : Byte) (st : W32) (c : Byte) (n : Fin 8) :
    (sendAbort s o st c (some n)).port n = s.port n ∧ (∀ p k, preg (sendAbort s o st c (some n)) p k = preg s p k) ∧
      (sendAbort s o st c (some n)).fc.abortIds.contains (o, st) = true ∧ (sendAbort s o st c (some n)).fc.safe = s.fc.safe := by
  have hk := abortBut_keeps n (abortWord o st c) s
  obtain ⟨hport, hreg⟩ := abortButs_after n (abortWord o st c) s
  rw [sendAbort_but]
  generalize (List.finRange 8).foldl (abortBut n (abortWord o st c)) s = u at hk hport hreg
  refine ⟨((noted_keeps u o st).port (by decide) n).trans hport, fun p k => (preg_noted u o st p k).trans (hreg p k), ?_, hk.safe (by decide)⟩
  show (((o, st) :: u.fc.abortIds).take 16).contains (o, st) = true
  simp

/-- What an ABORT has brought once it is recorded: the record, and that it is seen. -/
structure AbortSeen (s t : State) (n : Fin 8) (id : Byte × W32) (word : W32) : Prop where
  accepted : (t.port n).accepted = (s.port n).accepted + 1
  err : bit (preg t (.xl n) 0x10) 15 = true
  record : preg t .fc 0x184 = word
  ctrl : preg t .fc 0x100 = preg s .fc 0x100
  safe : t.fc.safe = s.fc.safe
  seen : t.fc.abortIds.contains id = true

theorem abortIn_seen (s : State) (n : Fin 8) (w : BitVec 128) : ∃ t : State,
    abortIn s n w = (if bit (preg t .fc 0x100) 3 && !t.fc.safe then { t with tide := { t.tide with haltDue := true } } else t) ∧
      AbortSeen s t n (BitVec.ofNat 8 (fld w 4 8), BitVec.ofNat 32 (fld w 12 32))
        (BitVec.ofNat 32 (fld w 4 8 + fld w 44 8 * 2 ^ 8 + fld w 12 32 % 2 ^ 16 * 2 ^ 16)) := by
  unfold abortIn
  extract_lets origin step cause s1 s2 s3
  refine ⟨s3, rfl, ?_⟩
  have horigin : origin.toNat = fld w 4 8 := (BitVec.toNat_ofNat _ _).trans (Nat.mod_eq_of_lt (fld_lt w 4 8))
  have hcause : cause.toNat = fld w 44 8 := (BitVec.toNat_ofNat _ _).trans (Nat.mod_eq_of_lt (fld_lt w 44 8))
  have hstep : step.toNat = fld w 12 32 := (BitVec.toNat_ofNat _ _).trans (Nat.mod_eq_of_lt (fld_lt w 12 32))
  have hk1 : Keeps [.page .xl, .ports] s s1 := ((acceptUnit_keeps' s n).mono (by decide)).trans ((xlErr_keeps _ _ _ _).mono (by decide))
  have hport1 : (s1.port n).accepted = (s.port n).accepted + 1 := by rw [raiseErr_port, acceptUnit_port]
  have hbit1 : bit (preg s1 (.xl n) 0x10) 15 = true := raiseErr_bit _ _ _ (by omega)
  clear_value s1
  have hk2 : Keeps [.page .fc] s1 s2 := setPreg_keeps _ _ _ (by omega) (by decide) (Keeps.refl _ s1)
  have hport : (s2.port n).accepted = (s.port n).accepted + 1 := (congrArg Port.accepted (hk2.port (by decide) n)).trans hport1
  have hbit : bit (preg s2 (.xl n) 0x10) 15 = true := (congrArg (bit · 15) (hk2.preg (by simp [classOf]) (by omega) (by simp) (by simp))).trans hbit1
  have h184 : preg s2 .fc 0x184 = BitVec.ofNat 32 (fld w 4 8 + fld w 44 8 * 2 ^ 8 + fld w 12 32 % 2 ^ 16 * 2 ^ 16) := by
    rw [preg_setPreg_same, horigin, hcause, hstep]
  have h100 : preg s2 .fc 0x100 = preg s .fc 0x100 := by
    rw [preg_setPreg _ _ (by omega) (by omega), if_neg (by omega)]
    exact hk1.preg (by decide) (by omega) (by simp) (by simp)
  have hsafe : s2.fc.safe = s.fc.safe := (hk2.safe (by decide)).trans (hk1.safe (by decide))
  clear_value s2
  by_cases hin : s2.fc.abortIds.contains (origin, step) = true
  · have hs3 : s3 = s2 := if_pos hin
    rw [hs3]
    exact ⟨hport, hbit, h184, h100, hsafe, hin⟩
  · have hs3 : s3 = sendAbort s2 origin step cause (some n) := if_neg hin
    obtain ⟨hp, hr, hids, hsf⟩ := sendAbort_others s2 origin step cause n
    rw [hs3]
    exact ⟨(congrArg Port.accepted hp).trans hport, (congrArg (bit · 15) (hr _ _)).trans hbit, (hr _ _).trans h184, (hr _ _).trans h100, hsf.trans hsafe, hids⟩

theorem abortIn_after (s : State) (n : Fin 8) (w : BitVec 128) : Keeps [.page .fc, .page .xl, .tide, .ports, .fc] s (abortIn s n w) ∧
    bit (preg (abortIn s n w) (.xl n) 0x10) 15 = true ∧
    preg (abortIn s n w) .fc 0x184 = BitVec.ofNat 32 (fld w 4 8 + fld w 44 8 * 2 ^ 8 + fld w 12 32 % 2 ^ 16 * 2 ^ 16) ∧
    ((abortIn s n w).port n).accepted = (s.port n).accepted + 1 ∧
    (abortIn s n w).fc.abortIds.contains (BitVec.ofNat 8 (fld w 4 8), BitVec.ofNat 32 (fld w 12 32)) = true ∧
    (bit (preg s .fc 0x100) 3 = false ∨ s.fc.safe = true ∨ (abortIn s n w).tide.haltDue = true) := by
  refine ⟨abortIn_keeps _ _ (by decide) (Keeps.refl _ s), ?_⟩
  obtain ⟨t, heq, ha, hb, hc, hd, he, hf⟩ := abortIn_seen s n w
  rw [heq]
  by_cases h : (bit (preg t .fc 0x100) 3 && !t.fc.safe) = true
  · rw [if_pos h]
    exact ⟨(congrArg (bit · 15) preg_update).trans hb, preg_update.trans hc, ha, hf, .inr (.inr rfl)⟩
  · rw [if_neg h]
    refine ⟨hb, hc, ha, hf, ?_⟩
    rw [hd, he] at h
    cases h1 : bit (preg s .fc 0x100) 3
    · exact .inl rfl
    · cases h2 : s.fc.safe
      · simp [h1, h2] at h
      · exact .inr (.inl rfl)

/-! ## ECHO -/

/-- The round trip that an ECHO brings, in 1/64 ticks. -/
def tripOf (w : BitVec 128) (t4 : Nat) (t1 : W32) (m : W64) : Int := ((t4 : Int) - (t1.toNat : Int)) % (m.toNat : Int) - (fld w 12 32 : Int)

/-- A port with one round trip more. -/
def tripped (p : Port) (d : Int) : Port := { p with rtts := p.rtts ++ [BitVec.ofNat 32 d.toNat] }

theorem echoIn_more {w : BitVec 128} {t4 : Nat} {pid : Byte} {t1 : W32} {m : W64} (hp : (s.port n).probeAt = some (pid, t1, m))
    (hid : fld w 4 8 = pid.toNat) (hlen : (s.port n).rtts.length < 15) :
    echoIn s n w t4 = sendProbe (s.setPort n (tripped (s.port n) (tripOf w t4 t1 m))) n := by
  unfold echoIn
  extract_lets p
  split
  · next pid' t1' m' h =>
    rw [hp] at h
    cases h
    rw [if_neg (fun h => h hid)]
    exact if_neg (c := 16 ≤ (s.port n).rtts.length + 1) (by omega)
  · next h => simp [p, hp] at h

theorem echoIn_last {w : BitVec 128} {t4 : Nat} {pid : Byte} {t1 : W32} {m : W64} (hp : (s.port n).probeAt = some (pid, t1, m))
    (hid : fld w 4 8 = pid.toNat) (hlen : (s.port n).rtts.length = 15) :
    echoIn s n w t4 = endMeasure (s.setPort n (tripped (s.port n) (tripOf w t4 t1 m))) n := by
  unfold echoIn
  extract_lets p
  split
  · next pid' t1' m' h =>
    rw [hp] at h
    cases h
    rw [if_neg (fun h => h hid)]
    exact if_pos (c := 16 ≤ (s.port n).rtts.length + 1) (by omega)
  · next h => simp [p, hp] at h

theorem sendProbe_keeps' (s : State) (n : Fin 8) : Keeps [.ports] s (sendProbe s n) := sendProbe_keeps _ (by decide) (Keeps.refl _ s)

theorem sendProbe_port (s : State) (n : Fin 8) : ((sendProbe s n).port n).rtts = (s.port n).rtts ∧ ((sendProbe s n).port n).probeAt.isSome = true := by
  unfold sendProbe
  extract_lets p m p1
  have hport : ((sendWord (s.setPort n p1) n (ctrlWord 6 (p.probeId.toNat * 2 ^ 4))).port n) = p1 := setPort_port_same _ _ _
  rw [hport]
  exact ⟨rfl, rfl⟩

theorem endMeasure_after (s : State) (n : Fin 8) {r : List Nat} (hr : (s.port n).rtts.map BitVec.toNat = r) :
    Keeps [.page .td, .page .xl, .ports] s (endMeasure s n) ∧ ((endMeasure s n).port n).probeAt = none ∧
      preg (endMeasure s n) (.xl n) 0x118 = BitVec.ofNat 32 (min (median16 r) (2 ^ 24 - 1)) ∧
      (fld (preg s .td 0x100) 1 4 ≠ n.val + 1 ∨ bit (preg s .td 0x100) 6 = true ∨
        preg (endMeasure s n) .td 0x108 = BitVec.ofNat 32 (min (median16 r) (2 ^ 24 - 1) / 2)) := by
  subst hr
  refine ⟨endMeasure_keeps _ (by decide) (Keeps.refl _ s), ?_⟩
  unfold endMeasure
  extract_lets p m s1 c s2
  have hport1 : s1.port n = { p with rtts := [], probeAt := none } := setPort_port_same _ _ _
  have h118 : preg s1 (.xl n) 0x118 = BitVec.ofNat 32 m := preg_setPreg_same _ _ _ _
  have hc : c = preg s .td 0x100 := by
    show preg s1 .td 0x100 = _
    rw [preg_setPreg _ _ (by omega) (by omega), if_neg (by simp), preg_setPort]
  have hk2 : Keeps [.page .td] s1 s2 := keeps_ite (fun _ => setPreg_keeps _ _ _ (by omega) (by decide) (Keeps.refl _ s1)) (fun _ => Keeps.refl _ s1)
  have h2 : fld (preg s .td 0x100) 1 4 ≠ n.val + 1 ∨ bit (preg s .td 0x100) 6 = true ∨ preg s2 .td 0x108 = BitVec.ofNat 32 (m / 2) := by
    by_cases hsrc : (decide (fld c 1 4 = n.val + 1) && !(bit c 6)) = true
    · have hs2 : s2 = setPreg s1 .td 0x108 (BitVec.ofNat 32 (m / 2)) := if_pos hsrc
      exact .inr (.inr (by rw [hs2, preg_setPreg_same]))
    · rw [hc] at hsrc
      by_cases hport : fld (preg s .td 0x100) 1 4 = n.val + 1
      · exact .inr (.inl (by simpa [hport] using hsrc))
      · exact .inl hport
  set t := when (bit (preg s2 (.xl n) 0x100) 9) (fun t => goDone t (.xl n) 0x100 9) s2 with ht
  have hk3 : Keeps [.page .xl] s2 t := keeps_ite (fun _ => goDone_keeps _ _ _ (by omega) (by simp [classOf]) (Keeps.refl _ s2)) (fun _ => Keeps.refl _ s2)
  have hxl : preg t (.xl n) 0x118 = preg s2 (.xl n) 0x118 := by
    rw [ht]
    unfold when
    split
    · rw [preg_goDone _ (by omega) (by omega) (fun _ => by omega) (by simp)]
    · rfl
  refine ⟨?_, ?_, ?_⟩
  · rw [hk3.port (by decide) n, hk2.port (by decide) n, hport1]
  · rw [hxl, hk2.preg (by simp [classOf]) (by omega) (by simp) (by simp), h118]
  · rw [hk3.preg (p := .td) (k := 0x108) (by decide) (by omega) (by simp) (by simp)]
    exact h2

end

/-- Settles O43: what each control word of a link changes at its port. -/
theorem portWords : Obligations.PortWords := by
  refine ⟨?credit, ?creditMore, ?ack, ?nak, ?fare, ?probe, ?echo, ?echoLast, ?abort, ?replay, ?reserved⟩
  case credit =>
    intro s n w hup hw hidle hsum
    refine ⟨_, congrArg Host.Outcome.next ((if_pos ⟨hw, hup⟩).trans (creditIn_within hidle hsum)), setPort_keeps' _ _ _, fun k => ?_, fun k => ?_⟩
    · rw [setPort_port_same, credited_credits]
      exact Nat.min_eq_left (hsum k)
    · rw [setPort_port_same, credited_seen]
      rfl
  case creditMore =>
    intro s n w k hup hw hidle hsum
    refine ⟨_, congrArg Host.Outcome.next ((if_pos ⟨hw, hup⟩).trans (creditIn_beyond (k := k) hidle hsum)), ?_, ?_, raiseErr_bit _ _ _ (by omega)⟩
    · exact ((setPort_keeps' _ _ _).mono (by decide)).trans ((xlErr_keeps _ _ _ _).mono (by decide))
    · rw [raiseErr_port, setPort_port_same, credited_credits]
      exact Nat.min_eq_right (Nat.le_of_lt hsum)
  case ack =>
    intro s n w hup hw hlen
    refine ⟨_, congrArg Host.Outcome.next ((if_pos ⟨hw, hup⟩).trans (ackTo_within hlen)), setPort_keeps' _ _ _, ?_, ?_⟩
    · rw [setPort_port_same]
    · rw [setPort_port_same]
  case nak =>
    intro s n w hup hw hlen
    obtain ⟨t, heq, hk, hbuf, hat, hcnt, hbit, hrun⟩ := nakIn_after hlen
    have hsend : Keeps [] t ((t.port n).replayBuf.foldl (fun u x => emitUnit u n x) (sendWord t n (replayWord (BitVec.ofNat 16 (fld w 16 16))))) :=
      keeps_foldl (fun u x hu => hu.trans (emitUnit_keeps' u n x)) _ (emit_keeps _ (Keeps.refl _ t))
    have hout := emitUnits_out (t.port n).replayBuf (sendWord t n (replayWord (BitVec.ofNat 16 (fld w 16 16)))) n
    generalize (t.port n).replayBuf.foldl (fun u x => emitUnit u n x) (sendWord t n (replayWord (BitVec.ofNat 16 (fld w 16 16)))) = z at heq hsend hout
    have hport : z.port n = t.port n := hsend.port (by decide) n
    refine ⟨z, congrArg Host.Outcome.next ((if_pos ⟨hw, hup⟩).trans heq), hk.trans (hsend.mono (by decide)), ?_, ?_, ?_, ?_, ?_, ?_⟩
    · rw [hport, hbuf]
    · rw [hport, hat]
    · rw [hsend.preg (by simp) (by omega) (by simp) (by simp), hcnt]
    · rw [hsend.preg (by simp) (by omega) (by simp) (by simp)]
      exact hbit
    · exact (running_keeps hsend (by decide) _).trans hrun
    · refine ⟨t.out, ?_⟩
      rw [hport, hout]
      exact (List.append_assoc t.out [_] _).symm ▸ rfl
  case fare =>
    intro s n w htakes hfleet
    have hk := acceptUnit_keeps' s n
    have hdst : (BitVec.ofNat 16 (fld w 8 16)).toNat / 256 = fleetId (acceptUnit s n) := by
      have hid : fleetId (acceptUnit s n) = fleetId s := congrArg (fld · 0 8) (hk.preg (by decide) (by omega) (by simp) (by simp))
      rw [hid, ← hfleet, BitVec.toNat_ofNat]
      unfold fld
      omega
    refine ⟨_, congrArg Host.Outcome.next ((if_pos htakes).trans (if_pos hdst)), ?_, ?_, ?_, ?_⟩
    · exact put_fares_keeps _ (by decide) (hk.mono (by decide))
    · exact congrArg (· ++ [_]) (hk .fares (by decide))
    · exact congrArg Port.accepted (acceptUnit_port s n)
    · exact acceptUnit_last s n
  case probe =>
    intro s n w h hw hst
    refine ⟨emit s (.ctrlWord n (ctrlWord 7 (fld w 4 8 * 2 ^ 4 + h.toNat * 2 ^ 12))), ?_, emit_keeps _ (Keeps.refl _ s), rfl⟩
    show Host.Outcome.next _ = _
    rcases hst with hst | hst | hst
    all_goals
      simp only [hst, hw, if_true]
      rfl
  case echo =>
    intro s n w t4 t1 pid m hw hp hid hlen
    have hport := setPort_port_same s n (tripped (s.port n) (tripOf w t4.toNat t1 m))
    obtain ⟨hr, hs⟩ := sendProbe_port (s.setPort n (tripped (s.port n) (tripOf w t4.toNat t1 m))) n
    refine ⟨_, congrArg Host.Outcome.next ((if_pos hw).trans (echoIn_more hp hid hlen)), (setPort_keeps' _ _ _).trans (sendProbe_keeps' _ _), ?_, hs⟩
    rw [hr, hport]
    rfl
  case echoLast =>
    intro s n w t4 t1 pid m r hw hp hid hlen hr
    have hport := setPort_port_same s n (tripped (s.port n) (tripOf w t4.toNat t1 m))
    have htd : preg (s.setPort n (tripped (s.port n) (tripOf w t4.toNat t1 m))) .td 0x100 = preg s .td 0x100 := preg_setPort _ _ _ _ _
    have hmap : ((s.setPort n (tripped (s.port n) (tripOf w t4.toNat t1 m))).port n).rtts.map BitVec.toNat = r := by
      rw [hport, hr]
      show List.map _ (_ ++ [_]) = _
      rw [List.map_append, List.map_singleton, BitVec.toNat_ofNat]
      rfl
    obtain ⟨hk, h1, h2, h3⟩ := endMeasure_after _ n hmap
    rw [htd] at h3
    exact ⟨_, congrArg Host.Outcome.next ((if_pos hw).trans (echoIn_last hp hid hlen)), ((setPort_keeps' _ _ _).mono (by decide)).trans hk, h1, h2, h3⟩
  case abort =>
    intro s n w htakes
    exact ⟨_, congrArg Host.Outcome.next (if_pos htakes), abortIn_after s n w⟩
  case replay =>
    intro s n w hup hw hcount
    refine ⟨_, congrArg Host.Outcome.next (if_pos ⟨hw, hup, hcount⟩), setPort_keeps' _ _ _, ?_, ?_⟩
    · rw [setPort_port_same]
    · rw [setPort_port_same]
  case reserved =>
    intro s n w hup hw
    exact ⟨_, congrArg Host.Outcome.next (if_pos ⟨hw, hup⟩), xlErr_keeps _ _ _ _, raiseErr_bit _ _ _ (by omega)⟩

end Sys2Proof
end

section
/-! PROOFS. An MSI-X message behind the link's recovery (09 R378). -/

namespace Sys2Proof

open Sys2Proof.Machine

/-- A device whose link recovers, with MSI-X on and vector 0 pending: a message waits behind what the link holds. -/
def recoveringMsix : State := setPreg { State.reset with cxl := { State.reset.cxl with link := .recovery, msixEn := true } } .ep 0xA00 1

theorem recoveringMsix_held : msixHeld recoveringMsix = true := by decide

/-- The unmasked vector's message joins those that wait, and nothing leaves. -/
theorem recoveringMsix_silent : (vectorCtrlWrite recoveringMsix 0 0).out = [] := by decide

/-- Refutes O40: the statement says that an unmasked pending vector sends its message at once, in the link's recovery too; there the message
waits, as it does behind posted writes, and the output does not grow. -/
theorem not_configSpace : ¬ Obligations.ConfigSpace := by
  rintro ⟨-, -, -, -, -, -, -, -, -, hunmask, -⟩
  obtain ⟨t, hexec, -, hout, -⟩ := hunmask recoveringMsix 0 0 (by decide) (by decide) (by decide) (by decide) (by decide) (by decide) (by decide)
  have ht : vectorCtrlWrite recoveringMsix 0 0 = t := by injection hexec
  rw [← ht, recoveringMsix_silent] at hout
  exact absurd hout (by decide)

end Sys2Proof
end

section
/-! PROOFS. What a report leaves in the output and in the error bits of the ports: it adds to them, and takes nothing away (09 R378; 10 R449). -/

namespace Sys2Proof

open Sys2Proof.Machine

/-- What has been sent stays sent, and the errors that the ports show stay shown. -/
structure Grew (s t : State) : Prop where
  out : s.out <+: t.out
  err : ∀ (m : Fin 8) (b : Nat), bit (preg s (.xl m) 0x10) b = true → bit (preg t (.xl m) 0x10) b = true

theorem Grew.refl (s : State) : Grew s s := ⟨List.prefix_refl _, fun _ _ h => h⟩

theorem Grew.trans {s t u : State} (h : Grew s t) (k : Grew t u) : Grew s u := ⟨h.out.trans k.out, fun m b e => k.err m b (h.err m b e)⟩

theorem grew_same {s t : State} (ho : t.out = s.out) (hr : ∀ m : Fin 8, preg t (.xl m) 0x10 = preg s (.xl m) 0x10) : Grew s t :=
  ⟨ho ▸ List.prefix_refl _, fun m _ h => hr m ▸ h⟩

theorem grew_emit (s : State) (o : Out) : Grew s (emit s o) := ⟨List.prefix_append _ _, fun _ _ h => h⟩

theorem grew_setPort (s : State) (n : Fin 8) (p : Port) : Grew s (s.setPort n p) := grew_same rfl fun _ => rfl

theorem grew_foldl {α : Type} {g : State → α → State} (h : ∀ t a, Grew t (g t a)) (l : List α) (s : State) : Grew s (l.foldl g s) :=
  List.foldlRecOn (motive := Grew s) l g (Grew.refl s) fun t ht a _ => ht.trans (h t a)

theorem grew_updateInta (s : State) : Grew s (updateInta s) := by
  unfold updateInta
  extract_lets want
  split_ifs
  · exact Grew.refl s
  · exact (grew_emit s (.inta want)).trans (grew_same rfl fun _ => rfl)

theorem grew_sendMsix (s : State) (v : Fin 32) : Grew s (sendMsix s v) := by
  unfold sendMsix
  split_ifs
  · exact Grew.refl s
  · exact grew_same rfl fun m => by rw [preg_orPreg _ _ (by omega) (by omega), if_neg (by simp)]
  · exact Grew.refl s
  · exact grew_same rfl fun _ => rfl
  · exact grew_emit s _

theorem grew_irqEdge (p : Page) (old : W32) (s : State) : Grew s (irqEdge p old s) := by
  unfold irqEdge
  refine Grew.trans ?_ (grew_updateInta _)
  split_ifs
  · exact Grew.refl s
  · exact grew_foldl grew_sendMsix _ s

theorem grew_raiseInt (s : State) (p : Page) (b : Nat) : Grew s (raiseInt s p b) :=
  Grew.trans (t := orPreg s p 0x30 (one32 b)) (grew_same rfl fun m => by rw [preg_orPreg _ _ (by omega) (by omega), if_neg (by omega)])
    (grew_irqEdge _ _ _)

theorem noteErr_out (s : State) (p : Page) (src addr : Nat) : (noteErr s p src addr).out = s.out := by
  unfold noteErr
  extract_lets first s1
  split_ifs <;> rfl

theorem grew_noteErr (s : State) (n : Fin 8) (src addr : Nat) : Grew s (noteErr s (.xl n) src addr) := by
  refine ⟨noteErr_out s _ _ _ ▸ List.prefix_refl _, fun m b h => ?_⟩
  by_cases hm : m = n
  · subst hm
    rw [noteErr_stat, bit_or, h, Bool.true_or]
  · rw [noteErr_preg _ _ _ (by omega) (fun e => absurd (Page.xl.inj e) hm)]
    exact h

theorem grew_coming (s : State) (m : BitVec 128) : Grew s { s with fc := { s.fc with coming := s.fc.coming ++ [m] } } := grew_same rfl fun _ => rfl

theorem grew_raiseErr (s : State) (n : Fin 8) (src addr : Nat) : Grew s (raiseErr s (.xl n) src addr) := by
  unfold raiseErr raiseErrX
  extract_lets s2 m
  have h2 : Grew s s2 := grew_noteErr s n src addr
  clear_value s2
  split_ifs
  · exact h2
  · exact (h2.trans (grew_coming s2 m)).trans (grew_raiseInt _ _ _)

theorem offerEntry_out (s : State) (e : BitVec 256) : (offerEntry s e).out = s.out := by
  unfold offerEntry
  split_ifs <;> rfl

theorem offer_out (s : State) (kind payload b26 b30 : Nat) : (offer s kind payload b26 b30).out = s.out := offerEntry_out _ _

theorem grew_offer (s : State) (kind payload b26 b30 : Nat) : Grew s (offer s kind payload b26 b30) :=
  grew_same (offer_out ..) fun _ => preg_offer _ _ _ _ _ (by omega) (by simp)

theorem grew_logBoot (s : State) (a b c : Nat) : Grew s (logBoot s a b c) :=
  grew_same (offer_out ..) fun m => (logBoot_keeps (P := []) a b c (Keeps.refl _ s)).preg (by simp) (by omega) (by simp) (by simp)

theorem grew_readyLog (s : State) : Grew s (readyLog s) := by
  unfold readyLog
  extract_lets now
  refine Grew.trans (t := { s with boot := { s.boot with ready := now } }) (grew_same rfl fun _ => rfl) (grew_foldl (fun t i => ?_) _ _)
  split
  · exact grew_logBoot t _ _ _
  · exact Grew.refl t

theorem grew_goDone (s : State) (n : Fin 8) {o b : Nat} (ho : o < 0x1000) (h : o ≠ 0x10) : Grew s (goDone s (.xl n) o b) := by
  have hclr : Grew s (clrPreg s (.xl n) o (one32 b)) := grew_same rfl fun m => by rw [preg_clrPreg _ _ ho (by omega), if_neg (by omega)]
  unfold goDone
  extract_lets s1
  split
  · next j _ =>
    have hor : Grew s1 (orPreg s1 (.xl n) 0x40 (one32 j)) := grew_same rfl fun m => by rw [preg_orPreg _ _ (by omega) (by omega), if_neg (by omega)]
    exact (hclr.trans hor).trans (grew_raiseInt _ _ _)
  · exact hclr

/-! ## Ports -/

theorem grew_logLost (s : State) (n : Fin 8) (a b c d e : Nat) : Grew s (logLost s n a b c d e) := grew_offer _ _ _ _ _

theorem grew_cntPreg (s : State) (n : Fin 8) {o : Nat} (v : Nat) (ho : o < 0x1000) (h : o ≠ 0x10) : Grew s (cntPreg s (.xl n) o v) :=
  grew_same rfl fun m => by rw [preg_cntPreg _ _ ho (by omega), if_neg (by omega)]

theorem grew_freeBerth (s : State) (n : Fin 8) (pool : Fin 3) : Grew s (freeBerth s n pool) := (grew_setPort s n _).trans (grew_emit _ _)

theorem grew_loseBundle (s : State) (n : Fin 8) (b : TxBundle) : Grew s (loseBundle s n b) := by
  unfold loseBundle
  extract_lets s1 s2
  have h1 : Grew s s1 := (grew_logLost s n _ _ _ _ _).trans (grew_cntPreg _ n _ (by omega) (by omega))
  have h2 : Grew s1 s2 := by
    simp only [s2]
    split
    · split_ifs
      · exact Grew.refl _
      · exact grew_freeBerth _ _ _
    · exact Grew.refl _
  split_ifs
  · exact (h1.trans h2).trans (grew_setPort _ _ _)
  · exact h1.trans h2

theorem grew_loseUnit (s : State) (n : Fin 8) (u : RUnit) : Grew s (loseUnit s n u) := by
  cases u with
  | bundle b => exact grew_loseBundle s n b
  | word w => exact grew_logLost s n _ _ _ _ _

theorem grew_dropReceived (s : State) (n : Fin 8) : Grew s (dropReceived s n) := by
  unfold dropReceived
  exact grew_foldl (fun t k => (grew_setPort t k _).trans (grew_foldl (fun u b => grew_loseBundle u n b) _ _)) _ _

/-- Traffic that a port drops adds to what is sent: in UP with the DOWN word first (10 R418, R450). -/
theorem grew_dropTraffic (s : State) (n : Fin 8) :
    Grew (when (decide ((s.port n).st = .up)) (fun t => sendWord t n (ctrlWord 12 0)) s) (dropTraffic s n) := by
  unfold dropTraffic
  extract_lets s1 s2 p units s3 all s4 p4 s5 s6
  have h2 : Grew s1 s2 := grew_foldl (fun t o => grew_setPort t n _) _ _
  have h3 : Grew s2 s3 := grew_setPort _ _ _
  have h4 : Grew s3 s4 := (grew_foldl (fun t u => grew_loseUnit t n u) _ _).trans (grew_dropReceived _ n)
  clear_value s4
  have h5 : Grew s4 s5 := grew_setPort _ _ _
  have h6 : Grew s5 s6 := by
    simp only [s6, Machine.when]
    split_ifs
    · exact grew_goDone _ n (by omega) (by omega)
    · exact Grew.refl _
  have h : Grew s1 s6 := (((h2.trans h3).trans h4).trans h5).trans h6
  clear_value all
  cases all with
  | nil => exact h
  | cons u l => exact h.trans (grew_raiseErr _ _ _ _)

theorem grew_setPortState (s : State) (n : Fin 8) (st : PortState) : Grew s (setPortState s n st) := by
  unfold setPortState withReady
  split_ifs
  · exact Grew.refl s
  · exact ((grew_setPort s n _).trans (grew_raiseInt _ _ _)).trans (grew_readyLog _)

theorem grew_dropped (s : State) (n : Fin 8) : Grew s (dropTraffic s n) := by
  refine Grew.trans ?_ (grew_dropTraffic s n)
  unfold when
  split
  · exact grew_emit _ _
  · exact Grew.refl s

end Sys2Proof
end

section
/-! PROOFS. A crossing port goes through bring-up, and leaves UP (10 R413 to R420, R440, R445, R450). -/

namespace Sys2Proof

open Sys2Proof.Machine

section
variable {s : State} {n : Fin 8}

/-! ## CTRL of a port -/

/-- A write of CTRL that starts no reset is what `ctrlActs` says, with what the boot and ALIVE make of it. -/
theorem ctrlWrite_eq {p : Page} {v : W32} (h : ctrlRow p = ctrlFull) (hu : Unlocked s p) (h2 : bit v 2 = false) :
    ctrlWrite s p v = withAlive (withReady fun _ => ctrlActs s p v) s := by
  have hok : (pageWrite s p 8 v).ok = true := pageWrite_ok (ctrl_plain h) hu _ _
  have hrej : (pageWrite s p 8 v).rej = false := by
    rw [pageWrite_plain (ctrl_plain h) hu, ctrl_written h2]
    rfl
  have hgo : (pageWrite s p 8 v).started 2 = false := started_zero (ctrl_plain h) hu rfl (by omega) _ h2
  have hen : enabled (pageWrite s p 8 v).st p = bit v 0 := bit_pageWrite (ctrl_plain h) hu 0 (by decide) (by decide) (by omega)
  have hfen : fenced (pageWrite s p 8 v).st p = bit v 1 := bit_pageWrite (ctrl_plain h) hu 1 (by decide) (by decide) (by omega)
  have hacts : ∀ g : State → State, g s = ctrlActs s p v → withAlive (withReady g) s = withAlive (withReady fun _ => ctrlActs s p v) s := fun g hg => by
    unfold withAlive withReady
    rw [hg]
  unfold ctrlWrite
  refine hacts _ ?_
  simp only [hok, hrej, hgo, hen, hfen, Bool.true_eq_false, if_false, Bool.false_eq_true]
  unfold ctrlActs ctrlHeld
  by_cases hcore : pageCore p = none <;> cases enabled s p <;> cases bit v 0 <;> simp [hcore]

theorem grew_withAlive (s t : State) : Grew t (withAlive (withReady fun _ => t) s) := by
  unfold withAlive withReady
  extract_lets u
  split_ifs
  · exact grew_readyLog t
  · exact (grew_readyLog t).trans (grew_emit _ _)

theorem grew_ctrlWrite {p : Page} {v : W32} (h : ctrlRow p = ctrlFull) (hu : Unlocked s p) (h2 : bit v 2 = false) : Grew (ctrlActs s p v) (ctrlWrite s p v) :=
  ctrlWrite_eq h hu h2 ▸ grew_withAlive s _

/-- ENABLE of a port changes while it is not fenced: bring-up starts or ends. -/
theorem ctrlActs_port {v : W32} (hf : fenced s (.xl n) = false) (h1 : bit v 1 = false) (hen : enabled s (.xl n) ≠ bit v 0) :
    ctrlActs s (.xl n) v = xlEnableAct (ctrlHeld s (.xl n) v) n (bit v 0) := by
  unfold ctrlActs
  rw [if_neg (fun e => hen e.1), hf, h1, fenceAct_same _ _ (by simp)]
  rfl

theorem setPortState_keeps' (s : State) (n : Fin 8) (st : PortState) : Keeps [.page .xl, .ports, .boot] s (setPortState s n st) :=
  setPortState_keeps _ _ (by decide) (Keeps.refl _ s)

theorem dropTraffic_keeps' (s : State) (n : Fin 8) : Keeps [.page .xl, .ports] s (dropTraffic s n) := dropTraffic_keeps _ (by decide) (Keeps.refl _ s)

theorem xlEnable_on (hf : fenced s (.xl n) = false) :
    ((xlEnableAct s n true).port n).st = .detect ∧ enabled (xlEnableAct s n true) (.xl n) = enabled s (.xl n) := by
  have heq : xlEnableAct s n true = setPortState (cageCheck s n) n .detect := (if_pos rfl).trans (if_neg (by simp [hf]))
  have hc : Keeps [.page .al, .mod] s (cageCheck s n) := cageCheck_keeps _ (by decide) (Keeps.refl _ s)
  rw [heq]
  refine ⟨by rw [setPortState_port], ?_⟩
  unfold enabled
  rw [preg_setPortState _ _ _ _ (by omega) (by omega), hc.preg (by simp [classOf]) (by omega) (by simp) (by simp)]

/-- A connector that is normal again touches no port, no register and sends nothing. -/
theorem normal_same (s : State) (c : Nat) : (normal s c).out = s.out ∧ (∀ m, (normal s c).port m = s.port m) ∧
    ∀ p k, preg (normal s c) p k = preg s p k := ⟨rfl, fun _ => rfl, fun _ _ => rfl⟩

/-- ENABLE cleared: the port is DOWN with nothing left to send, and the peer has heard of it. -/
theorem xlEnable_off (s : State) (n : Fin 8) :
    ((xlEnableAct s n false).port n).st = .down ∧ Emptied ((xlEnableAct s n false).port n) ∧
      enabled (xlEnableAct s n false) (.xl n) = enabled s (.xl n) ∧
      ((s.port n).st = .up → Out.ctrlWord n (ctrlWord 12 0) ∈ (xlEnableAct s n false).out) := by
  have heq : xlEnableAct s n false = normal ((setPortState (dropTraffic s n) n .down).setPort n
      { (setPortState (dropTraffic s n) n .down).port n with width := 0 }) (16 + n.val) := if_neg Bool.false_ne_true
  have hdown := setPortState_port (dropTraffic s n) n .down
  have hemp := dropTraffic_emptied s n
  have hctrl : preg (setPortState (dropTraffic s n) n .down) (.xl n) 8 = preg s (.xl n) 8 := by
    rw [preg_setPortState _ _ _ _ (by omega) (by omega), preg_dropTraffic _ _ _ ⟨by omega, rfl, by omega, by omega, by omega⟩]
  have hgrew := (grew_dropTraffic s n).trans (grew_setPortState (dropTraffic s n) n .down)
  generalize dropTraffic s n = d at heq hdown hemp hctrl hgrew
  generalize setPortState d n .down = u at heq hdown hctrl hgrew
  have hst : (u.port n).st = .down := by rw [hdown]
  have hleft : Emptied { u.port n with width := 0 } := by rw [hdown]; exact hemp
  clear hdown
  generalize hp : ({ u.port n with width := 0 } : Port) = p at heq hleft
  obtain ⟨hout, hport, hreg⟩ := normal_same (u.setPort n p) (16 + n.val)
  have hreg8 := hreg (.xl n) 8
  rw [preg_setPort, hctrl] at hreg8
  have hkept := hport n
  rw [setPort_port_same] at hkept
  clear hport hreg
  rw [heq]
  refine ⟨by rw [hkept, ← hp]; exact hst, by rw [hkept]; exact hleft, by unfold enabled; rw [hreg8], fun hup => ?_⟩
  rw [hout]
  refine hgrew.out.subset ?_
  unfold when
  rw [if_pos (by simpa using hup)]
  exact List.mem_append_right _ List.mem_cons_self

/-! ## The stages -/

theorem mayRun (hen : enabled s (.xl n) = true) (hf : fenced s (.xl n) = false) : portMayRun s n = true := by simp [portMayRun, hen, hf]

theorem laneStat_keeps' (s : State) (n : Fin 8) (i : LaneInfo) (t : Bool) : Keeps [.page .xl] s (laneStat s n i t) :=
  laneStat_keeps _ _ _ (by decide) (Keeps.refl _ s)

/-- What the lanes show is written to the register for it and to the errors. -/
theorem preg_laneStat (s : State) (n : Fin 8) (i : LaneInfo) (t : Bool) {k : Nat} (hk : k < 0x1000) (herr : errReg k = false) (h : k ≠ 0x108) :
    preg (laneStat s n i t) (.xl n) k = preg s (.xl n) k := by
  have hraise : ∀ (u : State) (a b : Nat), preg (raiseErr u (.xl n) a b) (.xl n) k = preg u (.xl n) k := fun u a b =>
    preg_raiseErr _ _ _ hk (fun _ => herr) (by simp)
  unfold laneStat
  extract_lets old low s1 bad s2
  have h1 : preg s1 (.xl n) k = preg s (.xl n) k := by rw [preg_setPreg _ _ (by omega) hk, if_neg (fun e => h e.2)]
  have h2 : preg s2 (.xl n) k = preg s (.xl n) k := by
    simp only [s2]
    split
    · rw [hraise, h1]
    · exact h1
  clear_value s2
  split_ifs
  · exact h2
  · rw [hraise, h2]
  · rw [hraise, h2]
  · exact h2

theorem stageDone_detect {i : LaneInfo} (hrun : portMayRun s n = true) (hst : (s.port n).st = .detect) (hlos : i.los ≠ 0xF) :
    stageDone s n i = setPortState (laneStat s n i false) n .train := by
  unfold stageDone
  rw [if_neg (by simp [hrun])]
  simp only [hst]
  exact if_neg hlos

theorem stageDone_train {i : LaneInfo} (hrun : portMayRun s n = true) (hst : (s.port n).st = .train) (hw : widthOf i ≠ 0) :
    stageDone s n i = enterIdent (if widthOf i = 1 then raiseErr (laneStat s n i true) (.xl n) 2 else laneStat s n i true) n (widthOf i) := by
  unfold stageDone
  rw [if_neg (by simp [hrun])]
  simp only [hst]
  exact if_neg hw

theorem stageDone_ident {i : LaneInfo} (hrun : portMayRun s n = true) (hst : (s.port n).st = .ident) (h0 : (s.port n).ident0 = true)
    (h1 : (s.port n).ident1 = true) (hc : bit (preg s (.xl n) 0x10C) 17 = false) : stageDone s n i = startMeasure (setPortState s n .probe) n := by
  unfold stageDone
  rw [if_neg (by simp [hrun])]
  simp only [hst]
  exact if_pos (by simp [h0, h1, hc])

theorem stageDone_probe {i : LaneInfo} (hrun : portMayRun s n = true) (hst : (s.port n).st = .probe) (hp : (s.port n).probeAt = none) :
    stageDone s n i = enterUp s n := by
  unfold stageDone
  rw [if_neg (by simp [hrun])]
  simp only [hst]
  exact if_neg (by simp [hp])

/-- The state of a port that enters IDENT, before the words go out. -/
def identified (s : State) (n : Fin 8) (w : Nat) : State :=
  setPreg (setPortState (s.setPort n { s.port n with width := BitVec.ofNat 2 w, ident0 := false, ident1 := false }) n .ident) (.xl n) 0x10C 0

theorem identified_port (s : State) (n : Fin 8) (w : Nat) :
    (identified s n w).port n = { s.port n with width := BitVec.ofNat 2 w, ident0 := false, ident1 := false, st := .ident } := by
  have h : ∀ u : State, (setPreg u (.xl n) 0x10C 0).port n = u.port n := fun _ => rfl
  unfold identified
  rw [h, setPortState_port, setPort_port_same]

theorem identified_keeps (s : State) (n : Fin 8) (w : Nat) : Keeps [.page .xl, .ports, .boot] s (identified s n w) :=
  setPreg_keeps _ _ _ (by omega) (by simp [classOf]) (setPortState_keeps _ _ (by decide) (State.setPort_keeps _ _ (by decide) (Keeps.refl _ s)))

theorem preg_identified (s : State) (n : Fin 8) (w : Nat) {k : Nat} (hk : k < 0x1000) (h : k ≠ 0x30) (h2 : k ≠ 0x10C) :
    preg (identified s n w) (.xl n) k = preg s (.xl n) k := by
  unfold identified
  rw [preg_setPreg _ _ (by omega) hk, if_neg (fun e => h2 e.2), preg_setPortState _ _ _ _ hk h, preg_setPort]

theorem sendWords_out (l : List (BitVec 128)) (s : State) (n : Fin 8) : (l.foldl (fun t x => sendWord t n x) s).out = s.out ++ l.map (Out.ctrlWord n ·) := by
  induction l generalizing s with
  | nil => simp
  | cons w l ih =>
    rw [List.foldl_cons, ih, List.map_cons]
    exact (List.append_assoc s.out [_] _)

theorem sendWords_keeps (l : List (BitVec 128)) (s : State) (n : Fin 8) : Keeps [] s (l.foldl (fun t x => sendWord t n x) s) :=
  keeps_foldl (fun _ _ ht => emit_keeps _ ht) _ (Keeps.refl _ s)

theorem enterIdent_eq (s : State) (n : Fin 8) (w : Nat) :
    enterIdent s n w = (identWords (identified s n w) n).foldl (fun t x => sendWord t n x) (identified s n w) := rfl

theorem enterIdent_after (s : State) (n : Fin 8) (w : Nat) :
    (enterIdent s n w).port n = { s.port n with width := BitVec.ofNat 2 w, ident0 := false, ident1 := false, st := .ident } ∧
      (identWords s n).map (Out.ctrlWord n ·) <:+ (enterIdent s n w).out ∧ preg (enterIdent s n w) (.xl n) 0x10 = preg s (.xl n) 0x10 := by
  have hk := identified_keeps s n w
  have hwords : identWords (identified s n w) n = identWords s n := by
    unfold identWords fleetId
    rw [preg_identified _ _ _ (by omega) (by omega) (by omega), hk.preg (by decide) (by omega) (by simp) (by simp),
      hk.preg64 (by decide) (by omega) (by simp) (by simp)]
  have hport := identified_port s n w
  have h10 : preg (identified s n w) (.xl n) 0x10 = preg s (.xl n) 0x10 := preg_identified _ _ _ (by omega) (by omega) (by omega)
  rw [enterIdent_eq, hwords]
  have hs := sendWords_keeps (identWords s n) (identified s n w) n
  refine ⟨(hs.port (by decide) n).trans hport, ?_, (hs.preg (by simp) (by omega) (by simp) (by simp)).trans h10⟩
  rw [sendWords_out]
  exact List.suffix_append _ _

theorem startMeasure_free (h : (s.port n).probeAt = none) :
    startMeasure s n = sendProbe (s.setPort n { s.port n with rtts := [], rttSteps := 0 }) n := if_neg (by simp [h])

theorem sendProbe_st (s : State) (n : Fin 8) : ((sendProbe s n).port n).st = (s.port n).st := by
  unfold sendProbe
  extract_lets p m p1
  have hport : ((sendWord (s.setPort n p1) n (ctrlWord 6 (p.probeId.toNat * 2 ^ 4))).port n) = p1 := setPort_port_same _ _ _
  rw [hport]

theorem startMeasure_after (h : (s.port n).probeAt = none) : Keeps [.ports] s (startMeasure s n) ∧ ((startMeasure s n).port n).st = (s.port n).st ∧
    ((startMeasure s n).port n).rtts = [] ∧ ((startMeasure s n).port n).probeAt.isSome = true := by
  obtain ⟨hr, hp⟩ := sendProbe_port (s.setPort n { s.port n with rtts := [], rttSteps := 0 }) n
  have hs := sendProbe_st (s.setPort n { s.port n with rtts := [], rttSteps := 0 }) n
  rw [setPort_port_same] at hr hs
  rw [startMeasure_free h]
  exact ⟨(setPort_keeps' _ _ _).trans (sendProbe_keeps' _ _), hs, hr, hp⟩

/-- A port as it begins UP: the credits of the peer's split, counts 0, windows empty. -/
def upPort (p : Port) : Port :=
  { p with credits := p.split, creditSeen := Vector.replicate 3 0, freed := Vector.replicate 3 0, inUse := Vector.replicate 3 0
           replayBuf := [], acked := 0, accepted := 0, discard := false, nakAt := 0, nakRun := 0, win := [], seqNext := []
           rttSteps := 0, eqSteps := 0 }

theorem enterUp_idle (hidle : ∀ id : Fin 256, (s.core id).waits = [] ∧ (s.core id).tt.sendQ = []) :
    enterUp s n = setPortState (s.setPort n (upPort (s.port n))) n .up := by
  have hk := (setPort_keeps' s n (upPort (s.port n))).mono (Q := [.page .xl, .ports, .boot]) (by decide)
  have hk2 := hk.trans (setPortState_keeps' (s.setPort n (upPort (s.port n))) n .up)
  refine wakeSenders_idle fun id => ?_
  show ((setPortState (s.setPort n (upPort (s.port n))) n .up).core id).waits = [] ∧
    ((setPortState (s.setPort n (upPort (s.port n))) n .up).core id).tt.sendQ = []
  rw [hk2.core (by decide) id]
  exact hidle id

/-! ## Leaving UP -/

theorem portRestart_after (s : State) (n : Fin 8) : Keeps [.page .xl, .ports, .boot] s (portRestart s n) ∧ ((portRestart s n).port n).st = .detect ∧
    Emptied ((portRestart s n).port n) ∧ Grew s (portRestart s n) := by
  obtain ⟨h1, h2, h3⟩ := dropTraffic_emptied s n
  have hport : (portRestart s n).port n = { (dropTraffic s n).port n with st := .detect } := setPortState_port _ _ _
  refine ⟨portRestart_keeps _ (by decide) (Keeps.refl _ s), congrArg Port.st hport, ?_, (grew_dropped s n).trans (grew_setPortState _ _ _)⟩
  rw [hport]
  exact ⟨h1, h2, h3⟩

theorem peerDown_after (hup : (s.port n).st = .up) : Keeps [.page .xl, .ports, .boot] s (peerDown s n) ∧ ((peerDown s n).port n).st = .detect ∧
    Emptied ((peerDown s n).port n) ∧ bit (preg (peerDown s n) (.xl n) 0x10) 17 = true := by
  have heq : peerDown s n = portRestart (raiseErr s (.xl n) 17) n := if_pos hup
  obtain ⟨hk, hst, hemp, hgrew⟩ := portRestart_after (raiseErr s (.xl n) 17) n
  rw [heq]
  exact ⟨((xlErr_keeps s n 17 0).mono (by decide)).trans hk, hst, hemp, hgrew.err n 17 (raiseErr_bit _ _ _ (by omega))⟩

/-! ## XL_CTRL -/

theorem xlCtrl_plain (n : Fin 8) : PlainReg (.xl n) 0x100 (r 0x100 0 [f 0 1 .rwl, f 1 1 .rw, f 2 5 .rw, f 8 1 .go, f 9 1 .go, f 10 1 .go]) := {}

theorem slotCtrl_plain (n : Fin 8) : PlainReg (.xl n) 0x138 (r 0x138 0 [f 0 1 .go, f 1 1 .ro, f 2 1 .w1c]) := {}

theorem xlCtrl_written (hu : Unlocked s (.xl n)) (v : W32) : Keeps [.page .xl] s (pageWrite s (.xl n) 0x100 v).st :=
  pageWrite_keeps_plain (xlCtrl_plain n) hu _ _ (by simp [classOf]) (Keeps.refl _ s)

theorem xlCtrl_done (u : State) {b : Nat} (hb : b < 32) : bit (preg (goDone u (.xl n) 0x100 b) (.xl n) 0x100) b = false := by
  rw [preg_goDone_same _ _ (by omega) (by omega) (by omega) (by simp)]
  exact bit_andNot_one32 _ hb

theorem goDone_port (s : State) (p : Page) (o b : Nat) (ho : o < 0x1000) (m : Fin 8) : (goDone s p o b).port m = s.port m :=
  congrArg (·.get m) (goDone_ports s p b ho)

variable {v : W32}

theorem xlCtrl_retrain (hs : Starts s (.xl n) 0x100 8 v) (h9 : bit v 9 = false) (h10 : bit v 10 = false) (hup : (s.port n).st = .up) :
    xlCtrlWrite s n v = goDone (setPortState (dropTraffic (pageWrite s (.xl n) 0x100 v).st n) n .train) (.xl n) 0x100 8 := by
  have hport := (xlCtrl_written hs.1 v).port (by decide) n
  unfold xlCtrlWrite
  simp only [started_one (xlCtrl_plain n) rfl (by omega) 0 hs, started_zero (xlCtrl_plain n) hs.1 rfl (by omega) 0 h9,
    started_zero (xlCtrl_plain n) hs.1 rfl (by omega) 0 h10, if_true, Bool.false_eq_true, if_false, hport, hup]

theorem xlCtrl_probe (hs : Starts s (.xl n) 0x100 9 v) (h8 : bit v 8 = false) (h10 : bit v 10 = false) (hup : (s.port n).st = .up) :
    xlCtrlWrite s n v = startMeasure (pageWrite s (.xl n) 0x100 v).st n := by
  have hport := (xlCtrl_written hs.1 v).port (by decide) n
  unfold xlCtrlWrite
  simp only [started_one (xlCtrl_plain n) rfl (by omega) 0 hs, started_zero (xlCtrl_plain n) hs.1 rfl (by omega) 0 h8,
    started_zero (xlCtrl_plain n) hs.1 rfl (by omega) 0 h10, if_true, Bool.false_eq_true, if_false, hport, hup]

theorem xlCtrl_winReset (hs : Starts s (.xl n) 0x100 10 v) (h8 : bit v 8 = false) (h9 : bit v 9 = false) :
    xlCtrlWrite s n v = goDone ((pageWrite s (.xl n) 0x100 v).st.setPort n { (pageWrite s (.xl n) 0x100 v).st.port n with win := [] }) (.xl n) 0x100 10 := by
  unfold xlCtrlWrite
  simp only [started_one (xlCtrl_plain n) rfl (by omega) 0 hs, started_zero (xlCtrl_plain n) hs.1 rfl (by omega) 0 h8,
    started_zero (xlCtrl_plain n) hs.1 rfl (by omega) 0 h9, if_true, Bool.false_eq_true, if_false]

/-! ## IDENT words -/

theorem ident0In_ident {w : BitVec 128} (hst : (s.port n).st = .ident) : ∃ u : State, ident0In s n w = u ∧
    u = (if decide (fld w 4 8 = fleetId s) && !(bit (preg s (.xl n) 0x10C) 17) then
      raiseErr (setPreg (s.setPort n { s.port n with ident0 := true, split := #v[fld w 15 6, fld w 21 6, fld w 27 6] }) (.xl n) 0x10C
        (BitVec.ofNat 32 (fld w 4 8 + fld w 12 3 * 2 ^ 8 + 2 ^ 16 + b2n (decide (fld w 4 8 = fleetId s)) * 2 ^ 17))) (.xl n) 12 (fld w 4 8)
    else setPreg (s.setPort n { s.port n with ident0 := true, split := #v[fld w 15 6, fld w 21 6, fld w 27 6] }) (.xl n) 0x10C
        (BitVec.ofNat 32 (fld w 4 8 + fld w 12 3 * 2 ^ 8 + 2 ^ 16 + b2n (decide (fld w 4 8 = fleetId s)) * 2 ^ 17))) := by
  refine ⟨_, ?_, rfl⟩
  unfold ident0In
  simp only [hst]

theorem ident0In_restart {w : BitVec 128} (hst : (s.port n).st = .up) (h : fld w 4 8 ≠ fld (preg s (.xl n) 0x10C) 0 8) :
    ident0In s n w = portRestart s n := by
  unfold ident0In
  simp only [hst]
  exact if_neg h

theorem ident1In_ident {w : BitVec 128} (hst : (s.port n).st = .ident) :
    ident1In s n w = setPreg64 (s.setPort n { s.port n with ident1 := true }) (.xl n) 0x110 (fld w 4 64) := by
  unfold ident1In
  simp only [hst]

/-- A pair reads what was written. -/
theorem preg64_written (s : State) (p : Page) {o x : Nat} (ho : o + 4 < 0x1000) (hx : x < 2 ^ 64) : preg64 (setPreg64 s p o x) p o = x := by
  have hlo : preg (setPreg64 s p o x) p o = BitVec.ofNat 32 x := by
    rw [preg_setPreg64 _ _ ho (by omega), if_neg (by omega), if_pos ⟨rfl, rfl⟩]
  have hhi : preg (setPreg64 s p o x) p (o + 4) = BitVec.ofNat 32 (x / 2 ^ 32) := by
    rw [preg_setPreg64 _ _ ho (by omega), if_pos ⟨rfl, rfl⟩]
  unfold preg64
  rw [hlo, hhi, BitVec.toNat_ofNat, BitVec.toNat_ofNat]
  omega

/-- A port that trains anew has dropped its traffic. -/
theorem retrained_port (u : State) (n : Fin 8) : ((goDone (setPortState (dropTraffic u n) n .train) (.xl n) 0x100 8).port n).st = .train ∧
    ((goDone (setPortState (dropTraffic u n) n .train) (.xl n) 0x100 8).port n).replayBuf = [] := by
  have hbuf : ((dropTraffic u n).port n).replayBuf = [] := (dropTraffic_emptied u n).1
  rw [goDone_port _ _ _ _ (by omega), setPortState_port]
  generalize (dropTraffic u n).port n = p at hbuf
  exact ⟨rfl, hbuf⟩

/-- The word of a peer with this fleet's own ID shows the clash. -/
theorem clash_bit (w : BitVec 128) : bit (BitVec.ofNat 32 (fld w 4 8 + fld w 12 3 * 2 ^ 8 + 2 ^ 16 + 2 ^ 17) : W32) 17 = true := by
  have h1 := fld_lt w 4 8
  have h2 := fld_lt w 12 3
  unfold bit
  rw [BitVec.getLsbD_ofNat, Nat.add_comm _ (2 ^ 17), Nat.testBit_two_pow_add_eq, Nat.testBit_lt_two_pow (by omega)]
  rfl

end

/-- Settles O42: bring-up stage by stage, the ways out of UP, and what the cage of a port shows. -/
theorem portBringUp : Obligations.PortBringUp := by
  refine ⟨?enable, ?disable, ?detect, ?train2, ?train1, ?ident, ?probe, ?timeout, ?restart, ?ident0, ?clash, ?other, ?ident1, ?fec, ?down, ?retrain,
    ?measure, ?winReset, ?arm, ?unplugged, ?plugged⟩
  case enable =>
    intro s n v hu hen hf h0 h1 h2
    have hk := ctrlWrite_acts (s := s) (p := .xl n) (v := v) rfl hu h2
    have hheld := ctrlHeld_keeps (s := s) (p := .xl n) (v := v) rfl hu
    have hacts := ctrlActs_port (v := v) hf h1 (by rw [hen, h0]; decide)
    rw [h0] at hacts
    obtain ⟨hst, he⟩ := xlEnable_on (s := ctrlHeld s (.xl n) v) (n := n) (ctrlHeld_fenced.trans hf)
    rw [hacts] at hk
    refine ⟨_, rfl, ?_, ?_, ?_⟩
    · exact ((hheld.mono (by simp [classOf])).trans (xlEnableAct_keeps _ _ (by decide) (Keeps.refl _ _))).trans (hk.mono (by decide))
    · unfold enabled
      rw [hk.preg (by simp) (by omega) (by simp) (by simp)]
      exact he.trans ((ctrlHeld_enabled rfl hu).trans h0)
    · exact (congrArg Port.st (hk.port (by decide) n)).trans hst
  case disable =>
    intro s n v hu hen hf h0 h1 h2
    have hk := ctrlWrite_acts (s := s) (p := .xl n) (v := v) rfl hu h2
    have hgrew := grew_ctrlWrite (s := s) (p := .xl n) (v := v) rfl hu h2
    have hheld := ctrlHeld_keeps (s := s) (p := .xl n) (v := v) rfl hu
    have hacts := ctrlActs_port (v := v) hf h1 (by rw [hen, h0]; decide)
    rw [h0] at hacts
    obtain ⟨hst, ⟨hbuf, htx, hop⟩, he, hout⟩ := xlEnable_off (ctrlHeld s (.xl n) v) n
    rw [hacts] at hk hgrew
    have hport := hk.port (by decide) n
    have hup : (s.port n).st = .up → ((ctrlHeld s (.xl n) v).port n).st = .up := fun h => (congrArg Port.st (hheld.port (by simp) n)).trans h
    refine ⟨_, rfl, ?_, ?_, ?_, ?_, ?_, ?_, ?_⟩
    · exact ((hheld.mono (by simp [classOf])).trans (xlEnableAct_keeps _ _ (by decide) (Keeps.refl _ _))).trans (hk.mono (by decide))
    · unfold enabled
      rw [hk.preg (by simp) (by omega) (by simp) (by simp)]
      exact he.trans ((ctrlHeld_enabled rfl hu).trans h0)
    · exact (congrArg Port.st hport).trans hst
    · exact (congrArg Port.replayBuf hport).trans hbuf
    · exact (congrArg Port.txq hport).trans htx
    · exact (congrArg Port.opens hport).trans hop
    · by_cases h : (s.port n).st = .up
      · exact .inr (hgrew.out.subset (hout (hup h)))
      · exact .inl h
  case detect =>
    intro s n i hen hf hst hlos
    refine ⟨_, congrArg Host.Outcome.next (stageDone_detect (mayRun hen hf) hst hlos), ?_, ?_⟩
    · exact ((laneStat_keeps' s n i false).mono (by decide)).trans (setPortState_keeps' _ _ _)
    · exact congrArg Port.st (setPortState_port _ _ _)
  case train2 =>
    intro s n i hen hf hst hw
    have hl := laneStat_keeps' s n i true
    have hdone := stageDone_train (i := i) (mayRun hen hf) hst (by omega)
    rw [if_neg (by omega), hw] at hdone
    obtain ⟨hport, hout, -⟩ := enterIdent_after (laneStat s n i true) n 2
    have hwords : identWords (laneStat s n i true) n = identWords s n := by
      unfold identWords fleetId
      rw [preg_laneStat _ _ _ _ (by omega) rfl (by omega), hl.preg (by decide) (by omega) (by simp) (by simp),
        hl.preg64 (by decide) (by omega) (by simp) (by simp)]
    rw [hwords] at hout
    refine ⟨_, congrArg Host.Outcome.next hdone, ?_, congrArg Port.st hport, congrArg Port.width hport, congrArg Port.ident0 hport,
      congrArg Port.ident1 hport, hout⟩
    exact enterIdent_keeps _ _ (by decide) (hl.mono (by decide))
  case train1 =>
    intro s n i hen hf hst hw
    have hl := laneStat_keeps' s n i true
    have hdone := stageDone_train (i := i) (mayRun hen hf) hst (by omega)
    rw [if_pos hw, hw] at hdone
    obtain ⟨hport, -, h10⟩ := enterIdent_after (raiseErr (laneStat s n i true) (.xl n) 2) n 1
    refine ⟨_, congrArg Host.Outcome.next hdone, ?_, congrArg Port.st hport, congrArg Port.width hport, ?_⟩
    · exact enterIdent_keeps _ _ (by decide) (raiseErr_keeps _ _ _ (by simp [classOf]) (hl.mono (by decide)))
    · rw [h10]
      exact raiseErr_bit _ _ _ (by omega)
  case ident =>
    intro s n i hen hf hst h0 h1 hc hp
    have hport := setPortState_port s n .probe
    obtain ⟨hk, hst', -, hprobe⟩ := startMeasure_after (s := setPortState s n .probe) (n := n) (by rw [hport]; exact hp)
    refine ⟨_, congrArg Host.Outcome.next (stageDone_ident (mayRun hen hf) hst h0 h1 hc), ?_, ?_, hprobe⟩
    · exact (setPortState_keeps' _ _ _).trans (hk.mono (by decide))
    · rw [hst', hport]
  case probe =>
    intro s n i hen hf hst hp hidle
    have hport : (setPortState (s.setPort n (upPort (s.port n))) n .up).port n = { upPort (s.port n) with st := .up } := by
      rw [setPortState_port, setPort_port_same]
    refine ⟨_, congrArg Host.Outcome.next ((stageDone_probe (mayRun hen hf) hst hp).trans (enterUp_idle hidle)), ?_, congrArg Port.st hport,
      congrArg Port.credits hport, congrArg Port.accepted hport, congrArg Port.acked hport, congrArg Port.win hport, congrArg Port.seqNext hport⟩
    exact ((setPort_keeps' _ _ _).mono (by decide)).trans (setPortState_keeps' _ _ _)
  case timeout =>
    intro s n i hen hf hst
    have hfail : ∀ t : State, Keeps [.page .xl] s t →
        Keeps [.page .xl, .ports, .boot] s (setPortState (t.setPort n { t.port n with probeAt := none, rtts := [], width := 0 }) n .failed) ∧
        ((setPortState (t.setPort n { t.port n with probeAt := none, rtts := [], width := 0 }) n .failed).port n).st = .failed ∧
        ((setPortState (t.setPort n { t.port n with probeAt := none, rtts := [], width := 0 }) n .failed).port n).width = 0 := fun t ht => by
      refine ⟨?_, ?_, ?_⟩
      · exact ((ht.mono (by decide)).trans ((setPort_keeps' _ _ _).mono (by decide))).trans (setPortState_keeps' _ _ _)
      · rw [setPortState_port]
      · rw [setPortState_port, setPort_port_same]
    have hrun : ¬portMayRun s n = false := by simp [mayRun hen hf]
    simp only [List.mem_cons, List.not_mem_nil, or_false] at hst
    rcases hst with hst | hst | hst | hst
    · refine ⟨_, ?_, hfail _ (laneStat_keeps' s n i false)⟩
      show Host.Outcome.next (if portMayRun s n = false then s else _) = _
      rw [if_neg hrun]
      simp only [hst]
    · refine ⟨_, ?_, hfail _ (laneStat_keeps' s n i true)⟩
      show Host.Outcome.next (if portMayRun s n = false then s else _) = _
      rw [if_neg hrun]
      simp only [hst]
    · refine ⟨_, ?_, hfail s (Keeps.refl _ s)⟩
      show Host.Outcome.next (if portMayRun s n = false then s else _) = _
      rw [if_neg hrun]
      simp only [hst]
    · refine ⟨_, ?_, hfail s (Keeps.refl _ s)⟩
      show Host.Outcome.next (if portMayRun s n = false then s else _) = _
      rw [if_neg hrun]
      simp only [hst]
  case restart =>
    intro s n hen hf hst
    refine ⟨_, congrArg Host.Outcome.next (if_pos ⟨mayRun hen hf, hst⟩), setPortState_keeps' _ _ _, ?_⟩
    exact congrArg Port.st (setPortState_port _ _ _)
  case ident0 =>
    intro s n w hw hst hfleet
    obtain ⟨u, heq, hu⟩ := ident0In_ident (w := w) hst
    rw [if_neg (by simp [hfleet])] at hu
    have hport : ∀ (t : State) (x : W32), (setPreg t (.xl n) 0x10C x).port n = t.port n := fun _ _ => rfl
    refine ⟨u, congrArg Host.Outcome.next ((if_pos hw).trans heq), ?_, ?_, ?_, ?_⟩
    · rw [hu]
      exact setPreg_keeps _ _ _ (by omega) (by simp [classOf]) ((setPort_keeps' _ _ _).mono (by decide))
    · rw [hu, hport, setPort_port_same]
    · rw [hu, hport, setPort_port_same]
    · rw [hu, preg_setPreg_same, decide_eq_false hfleet]
      rfl
  case clash =>
    intro s n w hw hst hfleet hwas
    obtain ⟨u, heq, hu⟩ := ident0In_ident (w := w) hst
    rw [if_pos (by simp [hfleet, hwas])] at hu
    refine ⟨u, congrArg Host.Outcome.next ((if_pos hw).trans heq), ?_, ?_, ?_⟩
    · rw [hu]
      exact raiseErr_keeps _ _ _ (by simp [classOf]) (setPreg_keeps _ _ _ (by omega) (by simp [classOf]) ((setPort_keeps' _ _ _).mono (by decide)))
    · rw [hu, preg_raiseErr _ _ _ (by omega) (fun _ => rfl) (by simp), preg_setPreg_same, decide_eq_true hfleet]
      exact clash_bit w
    · rw [hu]
      exact raiseErr_bit _ _ _ (by omega)
  case other =>
    intro s n w hw hst hfleet
    obtain ⟨hk, hst', ⟨hbuf, -⟩, -⟩ := portRestart_after s n
    exact ⟨_, congrArg Host.Outcome.next ((if_pos hw).trans (ident0In_restart hst hfleet)), hk, hst', hbuf⟩
  case ident1 =>
    intro s n w hw hst
    have hport : ∀ (t : State) (x : Nat), (setPreg64 t (.xl n) 0x110 x).port n = t.port n := fun _ _ => rfl
    refine ⟨_, congrArg Host.Outcome.next ((if_pos hw).trans (ident1In_ident hst)), ?_, ?_, ?_⟩
    · exact setPreg64_keeps _ _ _ (by omega) (by simp [classOf]) ((setPort_keeps' _ _ _).mono (by decide))
    · rw [hport, setPort_port_same]
    · have hlt := fld_lt w 4 64
      exact preg64_written _ _ (by omega) hlt
  case fec =>
    intro s n hup
    obtain ⟨hk, hst, ⟨hbuf, htx, hop⟩, herr⟩ := peerDown_after hup
    exact ⟨_, rfl, hk, hst, herr, hbuf, htx, hop⟩
  case down =>
    intro s n w hup hw
    obtain ⟨hk, hst, ⟨hbuf, -⟩, herr⟩ := peerDown_after hup
    exact ⟨_, congrArg Host.Outcome.next (if_pos hw), hk, hst, herr, hbuf⟩
  case retrain =>
    intro s n v hs h9 h10 hup
    obtain ⟨hst, hbuf⟩ := retrained_port (pageWrite s (.xl n) 0x100 v).st n
    refine ⟨_, congrArg Host.Outcome.next (xlCtrl_retrain hs h9 h10 hup), ?_, hst, hbuf, xlCtrl_done _ (by omega)⟩
    · refine goDone_keeps _ _ _ (by omega) (by simp [classOf]) ?_
      exact (((xlCtrl_written hs.1 v).mono (by decide)).trans ((dropTraffic_keeps' _ _).mono (by decide))).trans ((setPortState_keeps' _ _ _).mono (by decide))
  case measure =>
    intro s n v hs h8 h10 hup hp
    have hw := xlCtrl_written hs.1 v
    obtain ⟨hk, -, hrtts, hprobe⟩ := startMeasure_after (s := (pageWrite s (.xl n) 0x100 v).st) (n := n) (by rw [hw.port (by decide) n]; exact hp)
    refine ⟨_, congrArg Host.Outcome.next (xlCtrl_probe hs h8 h10 hup), (hw.mono (by decide)).trans (hk.mono (by decide)), hprobe, hrtts, ?_⟩
    rw [hk.preg (by simp) (by omega) (by simp) (by simp), bit_pageWrite_go (xlCtrl_plain n) hs.1 rfl (by omega), hs.2.2, Bool.true_or]
  case winReset =>
    intro s n v hs h8 h9
    have hw := xlCtrl_written hs.1 v
    refine ⟨_, congrArg Host.Outcome.next (xlCtrl_winReset hs h8 h9), ?_, ?_, ?_, xlCtrl_done _ (by omega)⟩
    · exact goDone_keeps _ _ _ (by omega) (by simp [classOf]) ((hw.mono (by decide)).trans ((setPort_keeps' _ _ _).mono (by decide)))
    · rw [goDone_port _ _ _ _ (by omega), setPort_port_same]
    · rw [goDone_port _ _ _ _ (by omega), setPort_port_same, hw.port (by decide) n]
  case arm =>
    intro s n v hs
    have hw : Keeps [.page .xl] s (pageWrite s (.xl n) 0x138 v).st := pageWrite_keeps_plain (slotCtrl_plain n) hs.1 _ _ (by simp [classOf]) (Keeps.refl _ s)
    have heq : xlSlotCtrlWrite s n v = (pageWrite s (.xl n) 0x138 v).st.setPort n { (pageWrite s (.xl n) 0x138 v).st.port n with armed := true } :=
      if_pos (started_one (slotCtrl_plain n) rfl (by omega) 0 hs)
    refine ⟨_, congrArg Host.Outcome.next heq, (hw.mono (by decide)).trans ((setPort_keeps' _ _ _).mono (by decide)), ?_, ?_⟩
    · rw [setPort_port_same]
    · rw [preg_setPort, bit_pageWrite_go (slotCtrl_plain n) hs.1 rfl (by omega), hs.2.2, Bool.true_or]
  case unplugged =>
    intro s n hen hmain hpresent
    set u : State := { s with mod := { s.mod with cages := setBit s.mod.cages n.val false } } with hu
    have hcage : u.mod.cages.getLsbD n.val = false := bit_setBit_in _ _ n.isLt
    have henu : enabled u (.xl n) = true := hen
    have heq : cageCheck u n = onset u (16 + n.val) condOpen true := if_pos (by rw [hcage, henu]; rfl)
    have hmod := onset_new (s := u) (conn := 16 + n.val) (cond := condOpen) true hpresent
    refine ⟨_, congrArg Host.Outcome.next heq, onset_keeps _ _ _ (by decide) (put_mod_keeps _ (by decide) (Keeps.refl _ s)), ?_, ?_, ?_⟩
    · rw [hmod]
      exact hcage
    · exact onset_reports hmain hpresent
    · rw [hmod]
  case plugged =>
    intro s n
    have hcage : (setBit s.mod.cages n.val true).getLsbD n.val = true := bit_setBit_in _ _ n.isLt
    have heq : cageCheck { s with mod := { s.mod with cages := setBit s.mod.cages n.val true } } n =
        normal { s with mod := { s.mod with cages := setBit s.mod.cages n.val true } } (16 + n.val) := if_neg (by simp [hcage])
    exact ⟨_, congrArg Host.Outcome.next heq, normal_keeps _ (by decide) (put_mod_keeps _ (by decide) (Keeps.refl _ s)), hcage, rfl⟩

end Sys2Proof
end

section
/-! PROOFS. The home of a line: a request that nothing holds back is served; a set whose shadow entries are all in use gives one up (08 R321, R323, R326). -/

namespace Sys2Proof

open Sys2Proof.Machine

variable {s : State} {l : Line}

/-! ## A request that nothing holds back -/

/-- No request of the slice waits to be sent again: nobody is outranked, and there is no entry to clear. -/
theorem outranked_nobody (hr : (s.slice (homeOf l)).retries = []) (m : Fin 58) : outranked s l m = false := by
  simp [outranked, nextEscalated, hr]

theorem clearRetry_nobody (hr : (s.slice (homeOf l)).retries = []) (m : Fin 58) : clearRetry s l m = s := by
  simp [clearRetry, hr]

theorem slMissing_idle (h : lineBusy s l = false) : slMissing s l = false := by
  simp only [lineBusy, Bool.or_eq_false_iff] at h
  exact h.1.2

theorem hostWaits_device (h : l.host = false) (q : HomeReq) : hostWaits s l q = false := by simp [hostWaits, h]

/-- A device's request that nothing holds back is served at once. -/
theorem homeReq_served {res : HostAnswer} {core : Byte} {relaxed : Bool} {q : HomeReq} {m : Fin 58} (hq : q.master = some m)
    (hw : hostWaits s l q = false) (hb : lineBusy s l = false) (hr : (s.slice (homeOf l)).retries = []) (hc : chunkHeld s l = false)
    (hroom : roomReady s l q = true) (hn : needsBi s l q = false) : homeReq s l res core relaxed q = serve s l res core relaxed q := by
  unfold homeReq
  simp only [hq, hw, slMissing_idle hb, hb, outranked_nobody hr, hc, hroom, clearRetry_nobody hr, hn, Bool.or_self, Bool.false_eq_true, if_false,
    Bool.false_and, Bool.true_eq_false]

theorem askHost_device (h : l.host = false) (op : BitVec 4) : askHost s l op = s := by simp [askHost, h]

/-- A read without a copy finds an owner in M: its data go to home, and it keeps the line in E. -/
theorem serveRdcur_owner {k : Fin 16} {x : CLine} (res : HostAnswer) (ho : (slGet s l).owned = true) (hs : (slGet s l).sharers.head? = some k)
    (hx : ccLine s k l = some x) (hm : x.st = .m) :
    serveRdcur s l res = (homeStore (setCcLine s k l (some { x with st := .e })) l x.data x.poison, x.data, x.poison) := by
  unfold serveRdcur
  simp only [ho, if_true, hs, hx, hm]

/-- A slice that is off keeps nothing: the data go below. -/
theorem slAllocs_off (h : (s.slice (homeOf l)).enabled = false) : slAllocs s l = false := by simp [slAllocs, h]

theorem homeStore_off (h : (s.slice (homeOf l)).enabled = false) (d : BitVec 512) (p : BitVec 2) : homeStore s l d p = storeBelow s l d p := by
  unfold homeStore
  rw [slAllocs_off h]
  exact if_neg Bool.false_ne_true

/-- What goes below leaves its entry without data, after room was made for a shadow entry where copies are tracked. -/
theorem storeBelow_eq (s : State) (l : Line) (d : BitVec 512) (p : BitVec 2) : storeBelow s l d p =
    let t := if (slGet s l).data.isSome ∧ (slGet s l).presence ≠ 0 then shadowRoom s l else s
    writeBelow (setSl t l { slGet t l with data := none, dirty := false, poison := 0 }) l d p := rfl

/-! ## One shadow entry to give up -/

/-- With one shadow entry that can be recalled, the free choice has no effect. -/
theorem shadowRoom_one {k : Nat} (hfull : ¬(shadowsOf s l).length < 8) (hk : recallable s l = [k]) :
    shadowRoom s l = recallShadow (takeFresh s).2 (keyLine k) := by
  unfold shadowRoom
  rw [if_neg hfull]
  simp [hk, nth, Nat.mod_one]

/-! ## The refutation -/

/-- A line of a cluster cache that owns it, whose data also stand in its slice. -/
def ownedEntry : SLine := ⟨some 0, 0, 0, 1, none, true, false, .none, none⟩

/-- A shadow entry of a host line that some copy is tracked of. -/
def hostShadow (h : HostHeld) : SLine := ⟨none, 0, 0, 0, none, false, false, h, some .s⟩

/-- Line 0 of device memory, and eight shadow entries of host lines in its set, one of which the host holds no copy of. -/
def crowdedSet : Sparse SLine := (0, ownedEntry) :: (2 ^ 46, hostShadow .none) :: (List.range 7).map fun j => (2 ^ 46 + 2 ^ 16 * (j + 1), hostShadow .shared)

/-- The slice of line 0 is off and its set is crowded; cluster 0 holds the line in M; the link is up. -/
def crowded : State :=
  let s0 := { State.reset with cxl := { State.reset.cxl with link := .l0 } }
  let s1 := s0.setSlice 0 { s0.slice 0 with lines := crowdedSet }
  s1.setCl 0 { s1.cl 0 with cc := { (s1.cl 0).cc with lines := [(0, ⟨.m, 0, 0, 0⟩)] } }

def lineZero : Line := ⟨false, 0⟩

theorem crowded_line : slLine crowded lineZero = some ownedEntry := by decide +kernel

theorem crowded_copy : ccLine crowded 0 lineZero = some ⟨.m, 0, 0, 0⟩ := by decide +kernel

/-- The owner has sent its data and keeps the line in E. -/
def crowdedE : State := setCcLine crowded 0 lineZero (some ⟨.e, 0, 0, 0⟩)

theorem crowdedE_recallable : recallable crowdedE lineZero = [2 ^ 46] := by decide

theorem crowdedE_room : shadowRoom crowdedE lineZero = recallShadow (takeFresh crowdedE).2 (keyLine (2 ^ 46)) :=
  shadowRoom_one (by decide) crowdedE_recallable

/-- The read of line 0 stores the owner's data below, for which a host line's shadow entry is recalled. -/
theorem crowded_read (res : HostAnswer) : homeReq crowded lineZero res 0 false (.rdcur 0) =
    emit (writeBelow (setSl (shadowRoom crowdedE lineZero) lineZero
      { slGet (shadowRoom crowdedE lineZero) lineZero with data := none, dirty := false, poison := 0 }) lineZero 0 0) (.answer 0 lineZero 0 0) := by
  have hcur := serveRdcur_owner (s := crowded) (l := lineZero) (k := 0) (x := ⟨.m, 0, 0, 0⟩) res (by decide) (by decide +kernel) crowded_copy rfl
  have hbelow : homeStore crowdedE lineZero 0 0 = _ := (homeStore_off (by decide) 0 0).trans (storeBelow_eq crowdedE lineZero 0 0)
  rw [homeReq_served (m := 0) rfl (by decide) (by decide) (by decide) (by decide) (by decide) (by decide)]
  unfold serve
  simp only [askHost_device (s := crowded) (l := lineZero) rfl, hcur]
  rw [show setCcLine crowded 0 lineZero (some { (⟨.m, 0, 0, 0⟩ : CLine) with st := .e }) = crowdedE from rfl, hbelow,
    if_pos (c := (slGet crowdedE lineZero).data.isSome ∧ (slGet crowdedE lineZero).presence ≠ 0) (by decide)]

/-- The recalled line leaves the device with a request of its own. -/
theorem crowded_sends (res : HostAnswer) : (homeReq crowded lineZero res 0 false (.rdcur 0)).out = [.d2h 8 0, .answer 0 lineZero 0 0] := by
  rw [crowded_read, crowdedE_room]
  decide +kernel

/-- Refutes O31: an owner's data that a slice does not keep go below, which may need a shadow entry: one that is recalled for it, of a host line
with the link up, leaves with CleanEvictNoData, so that the answer is not all that goes out. -/
theorem not_homeAccesses : ¬ Obligations.HomeAccesses := by
  rintro ⟨-, howner, -⟩
  obtain ⟨t, hexec, -, hout, -⟩ := howner crowded 0 lineZero ⟨0, false, false⟩ 0 ownedEntry ⟨.m, 0, 0, 0⟩ (by decide) (by decide) (by decide) crowded_line
    rfl rfl (by decide +kernel) crowded_copy rfl rfl
  have ht : homeReq crowded lineZero ⟨0, false, false⟩ 0 false (.rdcur 0) = t := by injection hexec
  rw [← ht, crowded_sends] at hout
  exact absurd hout (by decide)

end Sys2Proof
end

section
/-! PROOFS. A line of device memory, bit by bit: what it holds after a masked write, and after the bytes of a write that lies in it (08 R336 to R338). -/

namespace Sys2Proof

open Sys2Proof.Machine

/-! ## Bits of byte lists -/

theorem bytesNat_testBit (bs : List Byte) (k : Nat) : (bytesNat bs).testBit k = (bs.getD (k / 8) 0).getLsbD (k % 8) := by
  induction bs generalizing k with
  | nil => simp [bytesNat]
  | cons b bs ih =>
    have hsum : bytesNat (b :: bs) = 2 ^ 8 * bytesNat bs + b.toNat := by simp only [bytesNat]; omega
    rw [hsum, Nat.testBit_two_pow_mul_add _ b.isLt]
    split_ifs with hk
    · rw [Nat.div_eq_of_lt hk, Nat.mod_eq_of_lt hk]
      rfl
    · obtain ⟨j, rfl⟩ : ∃ j, k = j + 8 := ⟨k - 8, by omega⟩
      rw [Nat.add_sub_cancel, ih, show (j + 8) / 8 = j / 8 + 1 by omega, show (j + 8) % 8 = j % 8 by omega]
      rfl

theorem natBytes_bytesNat (bs : List Byte) : natBytes bs.length (bytesNat bs) = bs := by
  induction bs with
  | nil => rfl
  | cons b bs ih =>
    have hb := b.isLt
    have hlow : BitVec.ofNat 8 (b.toNat + 256 * bytesNat bs) = b := by
      refine BitVec.eq_of_toNat_eq ?_
      rw [BitVec.toNat_ofNat]
      omega
    rw [List.length_cons, natBytes, bytesNat, hlow, show (b.toNat + 256 * bytesNat bs) / 256 = bytesNat bs by omega, ih]

theorem natBytes_ofNat (n v : Nat) : natBytes n (BitVec.ofNat (8 * n) v).toNat = natBytes n v := by
  rw [BitVec.toNat_ofNat, Nat.pow_mul]
  exact (natBytes_mod n v).symm

theorem readBytes_length (m : Sparse Byte) (a n : Nat) : (readBytes m a n).length = n := by
  induction n generalizing a with
  | zero => rfl
  | succ n ih => simp [readBytes, ih]

theorem readBytes_getD (m : Sparse Byte) (a n : Nat) {i : Nat} (h : i < n) : (readBytes m a n).getD i 0 = sget byteDefault m (a + i) := by
  induction n generalizing a i with
  | zero => omega
  | succ n ih =>
    cases i with
    | zero => rfl
    | succ i =>
      have hlater := ih (a + 1) (i := i) (by omega)
      rw [show a + 1 + i = a + (i + 1) by omega] at hlater
      exact hlater

theorem maskBits_getLsbD {n : Nat} (mask : BitVec n) (w k : Nat) : (maskBits mask w).getLsbD k = (decide (k < w) && mask.getLsbD (k / 8)) := by
  have hbyte : ((List.range n).map fun i => if mask.getLsbD i then (0xFF : Byte) else 0).getD (k / 8) 0 = if mask.getLsbD (k / 8) then 0xFF else 0 := by
    by_cases h : k / 8 < n
    · simp [List.getD_eq_getElem?_getD, List.getElem?_map, List.getElem?_range h]
    · rw [BitVec.getLsbD_of_ge _ _ (by omega)]
      simp [List.getD_eq_getElem?_getD, List.getElem?_eq_none (show ((List.range n).map _).length ≤ k / 8 by simp; omega)]
  have hones : ∀ j < 8, (0xFF : Byte).getLsbD j = true := by decide
  unfold maskBits
  rw [BitVec.getLsbD_ofNat, bytesNat_testBit, hbyte]
  cases mask.getLsbD (k / 8) with
  | true => rw [if_pos rfl, hones _ (Nat.mod_lt _ (by omega))]
  | false => rw [if_neg Bool.false_ne_true]; simp

/-! ## Granules and lines -/

section
variable {s t : State} {n : Nat}

theorem granData_getLsbD (s : State) (g k : Nat) : (granData s g).getLsbD k = (decide (k < 256) && (sget byteDefault s.dm (32 * g + k / 8)).getLsbD (k % 8)) := by
  unfold granData
  rw [BitVec.getLsbD_ofNat, bytesNat_testBit]
  by_cases h : k < 256
  · rw [readBytes_getD _ _ _ (by omega)]
  · simp [h]

theorem memLine_getLsbD (s : State) (n k : Nat) : (memLine s n).1.getLsbD k = (decide (k < 512) && (sget byteDefault s.dm (64 * n + k / 8)).getLsbD (k % 8)) := by
  unfold memLine
  rw [BitVec.getLsbD_ofNat, bytesNat_testBit]
  by_cases h : k < 512
  · rw [readBytes_getD _ _ _ (by omega)]
  · simp [h]

/-- The two granules of a line. -/
theorem memLine_low (s : State) (n : Nat) {k : Nat} (h : k < 256) : (memLine s n).1.getLsbD k = (granData s (2 * n)).getLsbD k := by
  rw [memLine_getLsbD, granData_getLsbD, show 32 * (2 * n) = 64 * n by omega]
  simp [h, show k < 512 by omega]

theorem memLine_high (s : State) (n : Nat) {k : Nat} (h : k < 256) : (memLine s n).1.getLsbD (256 + k) = (granData s (2 * n + 1)).getLsbD k := by
  rw [memLine_getLsbD, granData_getLsbD, show 64 * n + (256 + k) / 8 = 32 * (2 * n + 1) + k / 8 by omega, show (256 + k) % 8 = k % 8 by omega]
  simp [h, show 256 + k < 512 by omega]

theorem readBytes_line (s : State) (n : Nat) : readBytes s.dm (64 * n) 64 = natBytes 64 (memLine s n).1.toNat := by
  have hback := natBytes_bytesNat (readBytes s.dm (64 * n) 64)
  rw [readBytes_length] at hback
  exact ((natBytes_ofNat 64 _).trans hback).symm

theorem mergeGran_getLsbD (old new : BitVec 256) (mask : BitVec 32) {k : Nat} (h : k < 256) :
    (mergeGran old new mask).getLsbD k = if mask.getLsbD (k / 8) then new.getLsbD k else old.getLsbD k := by
  unfold mergeGran
  rw [BitVec.getLsbD_or, BitVec.getLsbD_and, BitVec.getLsbD_and, BitVec.getLsbD_not, maskBits_getLsbD]
  cases mask.getLsbD (k / 8) <;> simp [h]

theorem mergeLine_getLsbD (old new : BitVec 512) (mask : BitVec 64) {k : Nat} (h : k < 512) :
    (mergeLine old new mask).getLsbD k = if mask.getLsbD (k / 8) then new.getLsbD k else old.getLsbD k := by
  unfold mergeLine
  rw [BitVec.getLsbD_or, BitVec.getLsbD_and, BitVec.getLsbD_and, BitVec.getLsbD_not, maskBits_getLsbD]
  cases mask.getLsbD (k / 8) <;> simp [h]

theorem mergeGran_none (old new : BitVec 256) : mergeGran old new 0 = old := by
  refine BitVec.eq_of_getLsbD_eq fun k hk => ?_
  rw [mergeGran_getLsbD _ _ _ hk]
  simp

theorem mergeGran_all (old new : BitVec 256) : mergeGran old new (BitVec.allOnes 32) = new := by
  refine BitVec.eq_of_getLsbD_eq fun k hk => ?_
  rw [mergeGran_getLsbD _ _ _ hk, if_pos (by rw [BitVec.getLsbD_allOnes]; exact decide_eq_true (by omega))]

theorem mergeLine_none (old new : BitVec 512) : mergeLine old new 0 = old := by
  refine BitVec.eq_of_getLsbD_eq fun k hk => ?_
  rw [mergeLine_getLsbD _ _ _ hk]
  simp

theorem mergeLine_all (old new : BitVec 512) : mergeLine old new (BitVec.allOnes 64) = new := by
  refine BitVec.eq_of_getLsbD_eq fun k hk => ?_
  rw [mergeLine_getLsbD _ _ _ hk, if_pos (by rw [BitVec.getLsbD_allOnes]; exact decide_eq_true (by omega))]

/-- Lines whose granules are merged are merged. -/
theorem memLine_merged {d : BitVec 512} {mask : BitVec 64}
    (hlow : granData t (2 * n) = mergeGran (granData s (2 * n)) (d.extractLsb' 0 256) (mask.extractLsb' 0 32))
    (hhigh : granData t (2 * n + 1) = mergeGran (granData s (2 * n + 1)) (d.extractLsb' 256 256) (mask.extractLsb' 32 32)) :
    (memLine t n).1 = mergeLine (memLine s n).1 d mask := by
  refine BitVec.eq_of_getLsbD_eq fun k hk => ?_
  rw [mergeLine_getLsbD _ _ _ hk]
  by_cases h : k < 256
  · rw [memLine_low t n h, memLine_low s n h, hlow, mergeGran_getLsbD _ _ _ h]
    simp [h, show k / 8 < 32 by omega]
  · obtain ⟨j, rfl⟩ : ∃ j, k = 256 + j := ⟨k - 256, by omega⟩
    have hj : j < 256 := by omega
    rw [memLine_high t n hj, memLine_high s n hj, hhigh, mergeGran_getLsbD _ _ _ hj]
    simp [hj, show j / 8 < 32 by omega, show (256 + j) / 8 = 32 + j / 8 by omega]

/-! ## A write of a line that no stack refuses and that holds no poison -/

/-- The line can be written and holds no marker. -/
structure CleanLine (s : State) (n : Nat) : Prop where
  served : fenced s (.mc (stackOf s (64 * n))) = false
  low : granPoison s (2 * n) = false
  high : granPoison s (2 * n + 1) = false

theorem stackRefuses_served (h : fenced s (.mc (stackOf s (64 * n))) = false) : stackRefuses s n = false := by simp [stackRefuses, h]

/-- A line that can be read without poison gives its bytes, and nothing else happens. -/
theorem memLine_clean (h : CleanLine s n) : (memLine s n).2 = 0 := by
  unfold memLine
  rw [stackRefuses_served h.served, h.low, h.high]
  rfl

theorem readLineAt_clean (h : CleanLine s n) : readLineAt s n = s := by
  unfold readLineAt
  rw [stackRefuses_served h.served, if_neg Bool.false_ne_true, mcReadGran_clean h.low, mcReadGran_clean h.high]

/-- What a write of a granule leaves as it was, and what it sends: nothing. -/
structure GranWritten (s t : State) (g : Nat) : Prop where
  keeps : Keeps [.page .mc, .dm] s t
  clean : granPoison t g = false
  others : ∀ k, k ≠ g → granData t k = granData s k ∧ granPoison t k = granPoison s k
  bytes : ∀ a, a / 32 ≠ g → sget byteDefault t.dm a = sget byteDefault s.dm a
  out : t.out = s.out
  fresh : t.fresh = s.fresh
  ctrl : ∀ p, preg t p 8 = preg s p 8

theorem setGran_written {u : State} (hk : Keeps [.page .mc] s u) (ho : u.out = s.out) (hf : u.fresh = s.fresh) (hc : ∀ p, preg u p 8 = preg s p 8)
    (g : Nat) (d : BitVec 256) : GranWritten s (setGran u g d false) g where
  keeps := (hk.mono (by decide)).trans ((setGran_keeps' u g d false).mono (by decide))
  clean := granPoison_setGran _ _ _ _
  others := fun k hkg => ⟨(granData_setGran_other _ _ _ hkg).trans (hk.granData (by decide) k), (granPoison_setGran_other _ _ _ hkg).trans (hk.granPoison (by decide) k)⟩
  bytes := fun a ha => by
    obtain ⟨hdm, -⟩ : u.dm = s.dm ∧ u.poison = s.poison := hk .dm (by decide)
    rw [show (setGran u g d false).dm = writeBytes u.dm (32 * g) (natBytes 32 d.toNat) from rfl, sget_writeBytes_other _ _ _ _ (by rw [natBytes_length]; omega), hdm]
  out := ho
  fresh := hf
  ctrl := fun p => hc p

theorem mcFullGran_written (s : State) (m : Fin 8) (g : Nat) (d : BitVec 256) (hp : granPoison s g = false) :
    GranWritten s (mcFullGran s m g d) g ∧ granData (mcFullGran s m g d) g = d := by
  have heq : mcFullGran s m g d = setGran s g d false := by
    unfold mcFullGran when
    rw [hp]
    rfl
  rw [heq]
  exact ⟨setGran_written (Keeps.refl _ s) rfl rfl (fun _ => rfl) g d, granData_setGran _ _ _ _⟩

theorem mcPartGran_written (s : State) (m : Fin 8) (g : Nat) (d : BitVec 256) (mask : BitVec 32) (hp : granPoison s g = false) :
    GranWritten s (mcPartGran s m g d mask .clean) g ∧ granData (mcPartGran s m g d mask .clean) g = mergeGran (granData s g) d mask := by
  have heq : mcPartGran s m g d mask .clean = setGran (cntPreg s (.mc m) 0x110 1) g (mergeGran (granData s g) d mask) false := if_neg (by simp [hp])
  rw [heq]
  exact ⟨setGran_written (mcCount_keeps _ _ _ (by omega)) rfl rfl (fun p => by rw [preg_cntPreg _ _ (by omega) (by omega), if_neg (by omega)]) g _, granData_setGran _ _ _ _⟩

/-- One half of a write that carries no poison. -/
theorem writeGranOf_written (s : State) (num half : Nat) (d : BitVec 512) (mask : BitVec 64) (hs : stackRefuses s num = false)
    (hp : granPoison s (2 * num + half) = false) :
    GranWritten s (writeGranOf s num half d mask 0) (2 * num + half) ∧ granData (writeGranOf s num half d mask 0) (2 * num + half) =
      mergeGran (granData s (2 * num + half)) (d.extractLsb' (256 * half) 256) (mask.extractLsb' (32 * half) 32) := by
  have hclean : (0 : BitVec 2).getLsbD half = false := BitVec.getLsbD_zero
  unfold writeGranOf
  simp only [hs, hclean, Bool.false_eq_true, if_false]
  split_ifs with h0 hall
  · refine ⟨⟨Keeps.refl _ s, hp, fun _ _ => ⟨rfl, rfl⟩, fun _ _ => rfl, rfl, rfl, fun _ => rfl⟩, ?_⟩
    rw [h0]
    exact (mergeGran_none _ _).symm
  · obtain ⟨hw, hd⟩ := mcFullGran_written s (stackOf s (64 * num)) (2 * num + half) (d.extractLsb' (256 * half) 256) hp
    exact ⟨hw, hd.trans (by rw [hall]; exact (mergeGran_all _ _).symm)⟩
  · exact mcPartGran_written s _ _ _ _ hp

/-- What a write of a line leaves as it was, and what the line holds after it. -/
structure LineWritten (s t : State) (n : Nat) (d : BitVec 512) (mask : BitVec 64) : Prop where
  keeps : Keeps [.page .mc, .dm] s t
  line : (memLine t n).1 = mergeLine (memLine s n).1 d mask
  clean : granPoison t (2 * n) = false ∧ granPoison t (2 * n + 1) = false
  bytes : ∀ a, a / 64 ≠ n → sget byteDefault t.dm a = sget byteDefault s.dm a
  out : t.out = s.out
  fresh : t.fresh = s.fresh

theorem writeLineAt_written (d : BitVec 512) (mask : BitVec 64) (h : CleanLine s n) : LineWritten s (writeLineAt s n d mask 0) n d mask := by
  obtain ⟨w1, d1⟩ := writeGranOf_written s n 0 d mask (stackRefuses_served h.served) h.low
  unfold writeLineAt
  generalize writeGranOf s n 0 d mask 0 = u at w1 d1
  have hstack : stackRefuses u n = false := by
    refine stackRefuses_served ?_
    have hpl : u.pl = s.pl := w1.keeps .pl (by decide)
    have hsame : stackOf u (64 * n) = stackOf s (64 * n) := by unfold stackOf placeOf; rw [hpl]
    rw [hsame]
    exact (congrArg (bit · 1) (w1.ctrl _)).trans h.served
  have hhigh := w1.others (2 * n + 1) (by omega)
  obtain ⟨w2, d2⟩ := writeGranOf_written u n 1 d mask hstack (hhigh.2.trans h.high)
  generalize writeGranOf u n 1 d mask 0 = t at w2 d2
  have hlow := w2.others (2 * n) (by omega)
  exact {
    keeps := w1.keeps.trans w2.keeps
    line := memLine_merged (hlow.1.trans d1) (by rw [d2, hhigh.1])
    clean := ⟨hlow.2.trans w1.clean, w2.clean⟩
    bytes := fun a ha => (w2.bytes a (by omega)).trans (w1.bytes a (by omega))
    out := w2.out.trans w1.out
    fresh := w2.fresh.trans w1.fresh }

/-- The bytes of a write that lies in one line stand in it. -/
theorem readBytes_merged {bs : List Byte} {old : BitVec 512} {off : Nat} (hin : off + bs.length ≤ 64)
    (hline : (memLine t n).1 = mergeLine old (BitVec.ofNat 512 (bytesNat bs * 2 ^ (8 * off))) (BitVec.ofNat 64 ((2 ^ bs.length - 1) * 2 ^ off))) :
    readBytes t.dm (64 * n + off) bs.length = bs := by
  refine List.ext_getElem (readBytes_length _ _ _) fun i hi hib => ?_
  have hread := readBytes_getD t.dm (64 * n + off) bs.length hib
  rw [List.getD_eq_getElem _ _ hi] at hread
  rw [hread]
  refine BitVec.eq_of_getLsbD_eq fun j hj => ?_
  have hbit := congrArg (·.getLsbD (8 * (off + i) + j)) hline
  have hd : (8 * (off + i) + j) / 8 = off + i := by omega
  have hm : (8 * (off + i) + j) % 8 = j := by omega
  have hin512 : 8 * (off + i) + j < 512 := by omega
  have hmask : (BitVec.ofNat 64 ((2 ^ bs.length - 1) * 2 ^ off)).getLsbD (off + i) = true := by
    rw [BitVec.getLsbD_ofNat, Nat.testBit_mul_two_pow, Nat.testBit_two_pow_sub_one]
    simp
    omega
  simp only [mergeLine_getLsbD _ _ _ hin512] at hbit
  rw [memLine_getLsbD, hd, hm, hmask, if_pos rfl, BitVec.getLsbD_ofNat, Nat.testBit_mul_two_pow, bytesNat_testBit] at hbit
  simp only [hin512, decide_true, Bool.true_and, show 8 * off ≤ 8 * (off + i) + j by omega,
    show (8 * (off + i) + j - 8 * off) / 8 = i by omega, show (8 * (off + i) + j - 8 * off) % 8 = j by omega] at hbit
  rw [show 64 * n + off + i = 64 * n + (off + i) by omega, hbit, List.getD_eq_getElem _ _ hib]

end

end Sys2Proof
end

section
/-! PROOFS. A line of device memory that nobody holds: home reads and writes it below (08 R321, R327). -/

namespace Sys2Proof

open Sys2Proof.Machine

/-! ## Entries that are not there -/

theorem serase_absent {α : Type} {k : Nat} {m : Sparse α} (h : slook m k = none) : serase k m = m := by
  induction m with
  | nil => rfl
  | cons e m ih =>
    unfold slook at h
    unfold serase
    split_ifs at h ⊢ with hk
    rw [ih h]

theorem setSlice_same (s : State) (n : Fin 16) : s.setSlice n (s.slice n) = s := by
  have hset : s.slices.set n (s.slice n) = s.slices := Vector.set_getElem_self _
  unfold State.setSlice
  rw [hset]

section
variable {s t : State} {l : Line}

theorem slGet_absent (h : slLine s l = none) : slGet s l = noLine := by simp [slGet, h]

/-- An entry that records nothing is not made. -/
theorem setSl_absent (h : slLine s l = none) {e : SLine} (he : e.idle = true) : setSl s l e = s := by
  have hlines : sopt (s.slice (homeOf l)).lines (lineKey l) (if e.idle then none else some e) = (s.slice (homeOf l)).lines := by
    rw [he]
    exact serase_absent h
  unfold setSl
  simp only [hlines]
  exact setSlice_same s (homeOf l)

theorem dropCopies_absent (h : slLine s l = none) : dropCopies s l none = (s, none) := by
  have hsh : noLine.sharers = [] := by decide
  unfold dropCopies
  simp only [slGet_absent h, hsh, List.filter_nil, List.foldl_nil]
  rw [setSl_absent h (by simp [SLine.idle, noLine])]

/-! ## A count of the slice -/

theorem countSl_keeps' (s : State) (l : Line) : Keeps [.page .dc] s (countSl s l) := by
  unfold countSl
  split_ifs
  · exact cntPreg_keeps _ _ _ (by omega) (by simp [classOf, dcPage]) (Keeps.refl _ s)
  · exact cntPreg_keeps _ _ _ (by omega) (by simp [classOf, dcPage]) (Keeps.refl _ s)

theorem countSl_ctrl (s : State) (l : Line) (p : Page) : preg (countSl s l) p 8 = preg s p 8 := by
  unfold countSl
  split_ifs
  · rw [preg_cntPreg _ _ (by omega) (by omega), if_neg (by omega)]
  · rw [preg_cntPreg _ _ (by omega) (by omega), if_neg (by omega)]

theorem countSl_out (s : State) (l : Line) : (countSl s l).out = s.out ∧ (countSl s l).fresh = s.fresh := ⟨rfl, rfl⟩

theorem CleanLine.counted {n : Nat} (h : CleanLine s n) : CleanLine (countSl s l) n where
  served := (congrArg (bit · 1) (countSl_ctrl s l _)).trans h.served
  low := h.low
  high := h.high

/-! ## A plain line -/

theorem PlainLine.cleanLine (h : PlainLine s l) : CleanLine s l.num.toNat := by
  obtain ⟨-, -, -, -, -, -, -, -, hf, h0, h1⟩ := h
  exact ⟨hf, h0, h1⟩

theorem PlainLine.absent (h : PlainLine s l) : slLine s l = none := h.2.1

theorem PlainLine.device (h : PlainLine s l) : l.host = false := h.1

theorem PlainLine.off (h : PlainLine s l) : (s.slice (homeOf l)).enabled = false := h.2.2.1

theorem PlainLine.idle (h : PlainLine s l) : lineBusy s l = false := by
  obtain ⟨-, -, -, hb, hm, -, hg, -⟩ := h
  simp [lineBusy, biOn, slMissing, hb, hm, hg]

theorem PlainLine.nobody (h : PlainLine s l) : (s.slice (homeOf l)).retries = [] := by
  obtain ⟨-, -, -, -, -, hr, -⟩ := h
  exact hr

theorem PlainLine.notHeld (h : PlainLine s l) : chunkHeld s l = false := by
  obtain ⟨-, -, -, -, -, -, -, hc, -⟩ := h
  simp [chunkHeld, hc]

theorem PlainLine.counted (h : PlainLine s l) : PlainLine (countSl s l) l := by
  obtain ⟨hd, ha, ho, hb, hm, hr, hg, hc, hf, h0, h1⟩ := h
  exact ⟨hd, ha, ho, hb, hm, hr, hg, hc, (congrArg (bit · 1) (countSl_ctrl s l _)).trans hf, h0, h1⟩

theorem PlainLine.noBi (h : PlainLine s l) (q : HomeReq) : needsBi s l q = false := by
  unfold needsBi
  rw [slGet_absent h.absent]
  cases q <;> rfl

theorem slServes_absent (h : slLine s l = none) : slServes s l = false := by
  simp [slServes, slGet_absent h, noLine]

/-- A request that begins to track nothing finds room. -/
theorem PlainLine.room {q : HomeReq} (h : PlainLine s l) (hq : ∀ own data cl, q ≠ .hostRd own data ∧ q ≠ .rds cl ∧ q ≠ .rdo cl ∧ q ≠ .upg cl) :
    roomReady s l q = true := by
  unfold roomReady
  rw [slAllocs_off h.off]
  cases q with
  | rds cl => exact absurd rfl (hq true true cl).2.1
  | rdo cl => exact absurd rfl (hq true true cl).2.2.1
  | upg cl => exact absurd rfl (hq true true cl).2.2.2
  | hostRd own data => exact absurd rfl (hq own data 0).1
  | rdcur m => simp
  | wrinv m d p => rfl
  | wrpart m d mask p => rfl
  | hostWr d mask p => rfl

theorem PlainLine.writeReady (h : PlainLine s l) (m : Fin 58) : homeReady s l m (.wrpart m 0 0 0) = true := by
  unfold homeReady
  rw [h.idle, outranked_nobody h.nobody, h.notHeld, hostWaits_device h.device, h.noBi,
    h.room (fun _ _ _ => ⟨HomeReq.noConfusion, HomeReq.noConfusion, HomeReq.noConfusion, HomeReq.noConfusion⟩)]
  rfl

/-- Home reads a plain line from memory. -/
theorem homeData_plain (h : PlainLine s l) (res : HostAnswer) : homeData s l res = (countSl s l, (memLine s l.num.toNat).1, 0, true) := by
  have hmem : memLine (countSl s l) l.num.toNat = ((memLine s l.num.toNat).1, 0) := Prod.ext rfl (memLine_clean h.counted.cleanLine)
  unfold homeData
  simp only [slServes_absent h.absent, readBelow, h.device, Bool.false_eq_true, if_false, readLineAt_clean h.counted.cleanLine, hmem]

theorem fetchShared_plain (h : PlainLine s l) (res : HostAnswer) : fetchShared s l res = (countSl s l, (memLine s l.num.toNat).1, 0) := by
  have hmiss : slMiss (countSl s l) l (memLine s l.num.toNat).1 0 = countSl s l := by
    unfold slMiss
    rw [slAllocs_off h.counted.off]
    rfl
  unfold fetchShared
  simp only [slGet_absent h.absent, homeData_plain h res, hmiss]
  rfl

theorem serveRdcur_plain (h : PlainLine s l) (res : HostAnswer) : serveRdcur s l res = (countSl s l, (memLine s l.num.toNat).1, 0) := by
  unfold serveRdcur
  simp only [slGet_absent h.absent, homeData_plain h res]
  rfl

/-- What home is to keep of a plain line goes to memory. -/
theorem homeStore_plain (h : PlainLine s l) (d : BitVec 512) (p : BitVec 2) : homeStore s l d p = writeLineAt s l.num.toNat d (BitVec.allOnes 64) p := by
  have hbelow : writeBelow s l d p = writeLineAt s l.num.toNat d (BitVec.allOnes 64) p := if_neg (by simp [h.device])
  rw [homeStore_off h.off, storeBelow_eq, if_neg (c := (slGet s l).data.isSome ∧ (slGet s l).presence ≠ 0) (by simp [slGet_absent h.absent, noLine])]
  show writeBelow (setSl s l { slGet s l with data := none, dirty := false, poison := 0 }) l d p = _
  rw [setSl_absent h.absent (by rw [slGet_absent h.absent]; decide), hbelow]

/-- A whole line is written to memory, and so are some bytes of one. -/
theorem serveWrinv_plain (h : PlainLine s l) (m : Fin 58) (core : Byte) (d : BitVec 512) (relaxed : Bool) :
    LineWritten (countSl s l) (serveWrinv s m core l d 0 relaxed) l.num.toNat d (BitVec.allOnes 64) := by
  have hclear : clearCached (countSl s l) l 0 = countSl s l := by
    unfold clearCached
    rw [slGet_absent h.counted.absent]
    simp [noLine]
  have heq : serveWrinv s m core l d 0 relaxed = writeLineAt (countSl s l) l.num.toNat d (BitVec.allOnes 64) 0 := by
    unfold serveWrinv
    simp only [dropCopies_absent h.counted.absent, h.device, Bool.false_eq_true, if_false, hclear, homeStore_plain h.counted]
  rw [heq]
  exact writeLineAt_written _ _ h.counted.cleanLine

theorem serveWrpart_plain (h : PlainLine s l) (m : Fin 58) (core : Byte) (d : BitVec 512) (mask : BitVec 64) (relaxed : Bool) :
    LineWritten (countSl s l) (serveWrpart s m core l d mask 0 relaxed) l.num.toNat d mask := by
  have heq : serveWrpart s m core l d mask 0 relaxed = writeLineAt (countSl s l) l.num.toNat d mask 0 := by
    unfold serveWrpart
    simp only [dropCopies_absent h.counted.absent, slGet_absent h.counted.absent, h.device, Bool.false_eq_true, if_false,
      slAllocs_off h.counted.off]
    rfl
  rw [heq]
  exact writeLineAt_written _ _ h.counted.cleanLine

/-- A posted write of a plain line (06 R257). -/
theorem postWrite_plain (h : PlainLine s l) (m : Fin 58) (stream : Nat) (d : BitVec 512) (mask : BitVec 64) (relaxed : Bool) :
    LineWritten (countSl s l) (postWrite s l m stream d mask 0 relaxed) l.num.toNat d mask := by
  unfold postWrite
  simp only [h.device, Bool.false_and, Bool.false_eq_true, if_false, clearRetry_nobody h.nobody]
  split_ifs with hall
  · rw [hall]
    exact serveWrinv_plain h _ _ _ _
  · exact serveWrpart_plain h _ _ _ _ _

end

end Sys2Proof
end

section
/-! PROOFS. The peer aperture: writes through BAR2, and requests answered UR (09 R374, R376; 06 R255, R257). -/

namespace Sys2Proof

open Sys2Proof.Machine

variable {s t : State}

theorem Keeps.cxl_aer {P : List Part} (h : Keeps P s t) (hc : Part.cxl ∉ P) : t.cxl.aer = s.cxl.aer :=
  have hcxl : { t.cxl with inta := false, msixQ := [] } = { s.cxl with inta := false, msixQ := [] } := h .cxl hc
  (congrArg Cxl.aer hcxl :)

/-! ## UR -/

/-- A request answered UR is recorded, counted and told to AER. -/
theorem answerUr_after (s : State) (cause : Nat) (q : W16) (posted : Bool) :
    preg (answerUr s cause q posted) .ep 0x144 = BitVec.ofNat 32 (q.toNat + cause * 2 ^ 16) ∧
      preg (answerUr s cause q posted) .ep 0x148 = satAdd (preg s .ep 0x148) 1 ∧ bit (preg (answerUr s cause q posted) .ep 0x10) 0 = true ∧
      bit (answerUr s cause q posted).cxl.aer 20 = true ∧ (posted = true ∨ (answerUr s cause q posted).out.getLast? = some (.ur q)) := by
  set s1 := cntPreg (setPreg s .ep 0x144 (BitVec.ofNat 32 (q.toNat + cause * 2 ^ 16))) .ep 0x148 1 with hs1
  set s2 : State := { s1 with cxl := { s1.cxl with aer := setBit s1.cxl.aer 20 true } } with hs2
  have heq : answerUr s cause q posted = if posted then raiseErr s2 .ep 0 q.toNat else emit (raiseErr s2 .ep 0 q.toNat) (.ur q) := rfl
  have hlast : preg s2 .ep 0x144 = BitVec.ofNat 32 (q.toNat + cause * 2 ^ 16) := by
    rw [preg_update, preg_cntPreg _ _ (by omega) (by omega), if_neg (by omega), preg_setPreg_same]
  have hcount : preg s2 .ep 0x148 = satAdd (preg s .ep 0x148) 1 := by
    rw [preg_update, preg_cntPreg _ _ (by omega) (by omega), if_pos ⟨rfl, rfl⟩, preg_setPreg _ _ (by omega) (by omega), if_neg (by omega)]
  have haer : bit s2.cxl.aer 20 = true := bit_setBit_in _ _ (by omega)
  have hk : Keeps [.page .ep] s2 (raiseErr s2 .ep 0 q.toNat) := raiseErr_keeps _ _ _ (by simp [classOf]) (Keeps.refl _ s2)
  have hreg : ∀ k, k < 0x1000 → errReg k = false → k ≠ 0xA00 → preg (raiseErr s2 .ep 0 q.toNat) .ep k = preg s2 .ep k := fun k hk he hx =>
    preg_raiseErr _ _ _ hk (fun _ => he) (by simpa using hx)
  rw [heq]
  have hall : preg (raiseErr s2 .ep 0 q.toNat) .ep 0x144 = BitVec.ofNat 32 (q.toNat + cause * 2 ^ 16) ∧
      preg (raiseErr s2 .ep 0 q.toNat) .ep 0x148 = satAdd (preg s .ep 0x148) 1 ∧ bit (preg (raiseErr s2 .ep 0 q.toNat) .ep 0x10) 0 = true ∧
      bit (raiseErr s2 .ep 0 q.toNat).cxl.aer 20 = true :=
    ⟨(hreg 0x144 (by omega) (by decide) (by omega)).trans hlast, (hreg 0x148 (by omega) (by decide) (by omega)).trans hcount, raiseErr_bit _ _ _ (by omega),
      by rw [hk.cxl_aer (by decide)]; exact haer⟩
  obtain ⟨h1, h2, h3, h4⟩ := hall
  cases posted with
  | true => exact ⟨h1, h2, h3, h4, .inl rfl⟩
  | false => exact ⟨h1, h2, h3, h4, .inr (emit_last _ _)⟩

theorem answerUr_keeps' (s : State) (cause : Nat) (q : W16) (posted : Bool) : Keeps [.page .ep, .cxl] s (answerUr s cause q posted) :=
  answerUr_keeps _ _ _ (by decide) (Keeps.refl _ s)

/-! ## BAR2 -/

/-- What the windows of BAR2 ask of a write before its requester is looked at (R374). -/
structure BarOpen (s : State) (off : Nat) : Prop where
  linked : s.cxl.link ≠ .down
  memory : memClosed s = false
  running : s.frz.on = false
  enabled : enabled s .ep = true
  window : bit (preg s .ep (0x200 + 8 * (off / 2 ^ 26))) 0 = true

/-- The device physical address of a BAR2 offset. -/
def barPa (s : State) (off : Nat) : Nat := fld (preg s .ep (0x204 + 8 * (off / 2 ^ 26))) 0 13 * 2 ^ 26 + off % 2 ^ 26

theorem barPa_mod (s : State) (off : Nat) : barPa s off % 64 = off % 64 := by unfold barPa; omega

theorem barPa_toNat {off : Nat} (h : barPa s off < dmSize) : (BitVec.ofNat 40 (barPa s off)).toNat = barPa s off :=
  (BitVec.toNat_ofNat _ _).trans (Nat.mod_eq_of_lt (Nat.lt_trans h (by norm_num [dmSize])))

/-- The state with an inbound write behind those that wait. -/
def inboundAdded (s : State) (w : Inbound) : State := { s with cxl := { s.cxl with inbound := s.cxl.inbound ++ [w] } }

theorem bar2Write_refused {q : W16} {off : Nat} {bytes : List Byte} {relaxed : Bool} (h : BarOpen s off) (hw : winAllows s (off / 2 ^ 26) q = false) :
    bar2Write s q off bytes relaxed = answerUr s 2 q true := by
  unfold bar2Write
  simp only [h.linked, h.memory, h.running, h.enabled, h.window, hw, if_false, Bool.false_eq_true, Bool.not_true, Bool.or_self, if_true]

theorem bar2Write_closed {q : W16} {off : Nat} {bytes : List Byte} {relaxed : Bool} (hl : s.cxl.link ≠ .down) (hm : memClosed s = false)
    (h : s.frz.on = true ∨ enabled s .ep = false ∨ bit (preg s .ep (0x200 + 8 * (off / 2 ^ 26))) 0 = false) :
    bar2Write s q off bytes relaxed = answerUr s 3 q true := by
  unfold bar2Write
  have hor : (s.frz.on || !(Machine.enabled s .ep) || !(bit (preg s .ep (0x200 + 8 * (off / 2 ^ 26))) 0)) = true := by
    simp only [Bool.or_eq_true, Bool.not_eq_true']
    tauto
  simp only [hl, hm, hor, if_false, Bool.false_eq_true, if_true]

theorem bar2Write_taken {q : W16} {off : Nat} {bytes : List Byte} {relaxed : Bool} (h : BarOpen s off) (hw : winAllows s (off / 2 ^ 26) q = true) :
    bar2Write s q off bytes relaxed = pumpInbound (inboundAdded s ⟨q, relaxed, BitVec.ofNat 40 (barPa s off), bytes⟩) := by
  unfold bar2Write
  simp only [h.linked, h.memory, h.running, h.enabled, h.window, hw, if_false, Bool.false_eq_true, Bool.not_true, Bool.or_self, Bool.true_eq_false]
  rfl

/-! ## Inbound writes -/

theorem pumpInbound_eq {ws left : List Inbound} {u : State} (h : s.cxl.inbound = ws) (hne : ws ≠ []) (hf : ws.foldl inboundStep (s, []) = (u, left)) :
    pumpInbound s = { u with cxl := { u.cxl with inbound := left } } := by
  unfold pumpInbound
  rw [if_neg (by rw [h]; simpa using hne), h, hf]

theorem lineOf_num {pa : Nat} (h : pa < 2 ^ 52) : (lineOf false pa).num.toNat = pa / 64 :=
  (BitVec.toNat_ofNat _ _).trans (Nat.mod_eq_of_lt (by omega))

/-- An inbound write that lies in one plain line is performed. -/
theorem inboundRun_line {w : Inbound} {fuel : Nat} (hfuel : 2 ≤ fuel) (hne : w.bytes ≠ []) (hin : w.addr.toNat % 64 + w.bytes.length ≤ 64)
    (hp : PlainLine s (lineOf false w.addr.toNat)) :
    ∃ u, inboundRun fuel s w = (u, none) ∧ LineWritten (countSl s (lineOf false w.addr.toNat)) u (w.addr.toNat / 64)
      (BitVec.ofNat 512 (bytesNat w.bytes * 2 ^ (8 * (w.addr.toNat % 64)))) (BitVec.ofNat 64 ((2 ^ w.bytes.length - 1) * 2 ^ (w.addr.toNat % 64))) := by
  obtain ⟨f, rfl⟩ : ∃ f, fuel = f + 2 := ⟨fuel - 2, by omega⟩
  have hready : postReady s (lineOf false w.addr.toNat) 33 = true := by
    unfold postReady
    rw [hp.writeReady]
    simp
  have hmin : min w.bytes.length (64 - w.addr.toNat % 64) = w.bytes.length := by omega
  have hnum : (lineOf false w.addr.toNat).num.toNat = w.addr.toNat / 64 := lineOf_num (Nat.lt_of_lt_of_le w.addr.isLt (by norm_num))
  have hwritten := postWrite_plain hp 33 0 (BitVec.ofNat 512 (bytesNat w.bytes * 2 ^ (8 * (w.addr.toNat % 64))))
    (BitVec.ofNat 64 ((2 ^ w.bytes.length - 1) * 2 ^ (w.addr.toNat % 64))) false
  rw [hnum] at hwritten
  refine ⟨_, ?_, hwritten⟩
  unfold inboundRun
  simp only [List.isEmpty_iff, hne, hready, if_false, Bool.true_eq_false, hmin, List.take_length, List.drop_length]
  unfold inboundRun
  simp only [List.isEmpty_nil, if_true]

/-- An inbound write whose line is in a transaction is answered RETRY, and waits. -/
theorem inboundRun_busy {w : Inbound} {fuel : Nat} (hfuel : 1 ≤ fuel) (hne : w.bytes ≠ []) (hb : lineBusy s (lineOf false w.addr.toNat) = true) :
    inboundRun fuel s w = (addRetry s (lineOf false w.addr.toNat) 33, some w) := by
  obtain ⟨f, rfl⟩ : ∃ f, fuel = f + 1 := ⟨fuel - 1, by omega⟩
  have hready : postReady s (lineOf false w.addr.toNat) 33 = false := by
    unfold postReady homeReady
    rw [hb]
    rfl
  have hask : postAsk s (lineOf false w.addr.toNat) 33 = addRetry s (lineOf false w.addr.toNat) 33 := by
    unfold postAsk homeAsk
    rw [hostWaits_device rfl, hb]
    rfl
  unfold inboundRun
  simp only [List.isEmpty_iff, hne, hready, hask, if_false, if_true]

/-- A write behind one that waits, of the same requester, waits too. -/
theorem inboundStep_behind {a : State × List Inbound} {w u : Inbound} (hr : w.relaxed = false) (hu : u ∈ a.2) (hq : u.requester = w.requester) :
    inboundStep a w = (a.1, a.2 ++ [w]) := if_pos (by
  rw [hr]
  simp only [Bool.not_false, Bool.true_and, List.any_eq_true]
  exact ⟨u, hu, decide_eq_true hq⟩)

theorem biOn_busy {l : Line} (h : biOn s l = true) : lineBusy s l = true := by simp [lineBusy, h]

theorem addRetry_keeps' (s : State) (l : Line) (m : Fin 58) (age : BitVec 4) : Keeps [.slices] s (addRetry s l m age) :=
  addRetry_keeps _ _ _ (by decide) (Keeps.refl _ s)

theorem addRetry_out (s : State) (l : Line) (m : Fin 58) (age : BitVec 4) : (addRetry s l m age).out = s.out := by
  unfold addRetry
  extract_lets
  split_ifs <;> rfl

theorem addRetry_cxl (s : State) (l : Line) (m : Fin 58) (age : BitVec 4) : (addRetry s l m age).cxl = s.cxl := by
  unfold addRetry
  extract_lets
  split_ifs <;> rfl

/-- Settles O39: a write through BAR2 is performed, waits behind its requester's, or is answered UR. -/
theorem peerAperture : Obligations.PeerAperture := by
  unfold Obligations.PeerAperture
  refine ⟨?performed, ?refused, ?closed, ?unsupported, ?behind⟩
  case performed =>
    intro s q off relaxed bytes hl hm hib hf he hwin hall hlen hin hsize hp
    set w : Inbound := ⟨q, relaxed, BitVec.ofNat 40 (barPa s off.toNat), bytes⟩ with hw
    have hpa : w.addr.toNat = barPa s off.toNat := barPa_toNat hsize
    have hmod := barPa_mod s off.toNat
    have hplain : PlainLine (inboundAdded s w) (lineOf false w.addr.toNat) := by rw [hpa]; exact hp
    obtain ⟨u, hrun, hu⟩ := inboundRun_line (fuel := w.bytes.length + 1) (by change 2 ≤ bytes.length + 1; omega) (List.ne_nil_of_length_pos (l := bytes) hlen)
      (by rw [hpa, hmod]; exact hin) hplain
    have hstep : inboundStep (inboundAdded s w, []) w = (u, []) := by
      unfold inboundStep
      simp only [List.any_nil, Bool.and_false, Bool.false_eq_true, if_false, hrun]
      rfl
    have heq : bar2Write s q off.toNat bytes relaxed = { u with cxl := { u.cxl with inbound := [] } } := by
      have hone : (inboundAdded s w).cxl.inbound = [w] := by unfold inboundAdded; rw [hib]; rfl
      rw [bar2Write_taken ⟨hl, hm, hf, he, hwin⟩ hall]
      exact pumpInbound_eq hone (List.cons_ne_nil _ _) hstep
    refine ⟨_, congrArg Host.Outcome.next rfl, bar2Write_keeps _ _ _ _ (by decide) (Keeps.refl _ s), ?_⟩
    rw [heq]
    refine ⟨?_, rfl, hu.out.trans (countSl_out _ _).1⟩
    have hline := hu.line
    have hread := readBytes_merged (by rw [hpa, hmod]; exact hin) hline
    rw [show 64 * (w.addr.toNat / 64) + w.addr.toNat % 64 = w.addr.toNat by omega, hpa] at hread
    exact hread
  case refused =>
    intro s q off relaxed bytes hl hm hf he hwin hno
    obtain ⟨h1, h2, h3, h4, -⟩ := answerUr_after s 2 q true
    exact ⟨_, congrArg Host.Outcome.next (bar2Write_refused ⟨hl, hm, hf, he, hwin⟩ hno), answerUr_keeps' _ _ _ _, h1, h2, h3, h4⟩
  case closed =>
    intro s q off relaxed bytes hl hm h
    obtain ⟨h1, h2, h3, -⟩ := answerUr_after s 3 q true
    exact ⟨_, congrArg Host.Outcome.next (bar2Write_closed hl hm h), answerUr_keeps' _ _ _ _, h1, h2, h3⟩
  case unsupported =>
    intro s c q posted hl hc h5
    have hgo : ¬(s.cxl.link = .down ∨ c.val = 0 ∨ (c.val = 5 ∧ memClosed s = false)) := by
      rintro (h | h | ⟨h, hm⟩)
      · exact hl h
      · exact hc h
      · rcases h5 with h5 | h5
        · exact h5 h
        · rw [hm] at h5; cases h5
    exact ⟨_, congrArg Host.Outcome.next (if_neg hgo), answerUr_keeps' _ _ _ _, answerUr_after _ _ _ _⟩
  case behind =>
    intro s q off bytes w pa hl hm hf he hwin hall hib hwq hrel hne hbi hr hpa
    subst hpa
    set x : Inbound := ⟨q, false, BitVec.ofNat 40 (barPa s off.toNat), bytes⟩ with hx
    set l := lineOf false w.addr.toNat with hldef
    set u := addRetry (inboundAdded s x) l 33 with hu
    have htwo : (inboundAdded s x).cxl.inbound = [w, x] := by unfold inboundAdded; rw [hib]; rfl
    have hfirst : inboundStep (inboundAdded s x, []) w = (u, [w]) := by
      unfold inboundStep
      simp only [List.any_nil, Bool.and_false, Bool.false_eq_true, if_false,
        inboundRun_busy (s := inboundAdded s x) (fuel := w.bytes.length + 1) (by omega) hne (biOn_busy (s := inboundAdded s x) hbi)]
      rfl
    have hsecond : inboundStep (u, [w]) x = (u, [w, x]) := inboundStep_behind rfl List.mem_cons_self hwq
    have heq : bar2Write s q off.toNat bytes false = { u with cxl := { u.cxl with inbound := [w, x] } } := by
      rw [bar2Write_taken ⟨hl, hm, hf, he, hwin⟩ hall]
      refine pumpInbound_eq htwo (List.cons_ne_nil _ _) ?_
      rw [List.foldl_cons, hfirst, List.foldl_cons, hsecond, List.foldl_nil]
    refine ⟨_, congrArg Host.Outcome.next heq, ?_, rfl, addRetry_out _ _ _ _⟩
    refine put_cxl_keeps _ (by decide) (Keeps.trans (t := inboundAdded s x) ?_ ((addRetry_keeps' _ _ _ _).mono (by decide)))
    exact put_cxl_keeps _ (by decide) (Keeps.refl _ s)

end Sys2Proof
end

section
/-! PROOFS. What a change of other lines leaves of a line: its entry, its copies, its transactions (08 R325, R326). -/

namespace Sys2Proof

open Sys2Proof.Machine

/-! ## Keys -/

theorem lineKey_inj {l l' : Line} (h : lineKey l' = lineKey l) : l' = l := by
  obtain ⟨host, num⟩ := l
  obtain ⟨host', num'⟩ := l'
  have h1 := num.isLt
  have h2 := num'.isLt
  simp only [lineKey] at h
  have hb : b2n host' = b2n host := by omega
  have hn : num'.toNat = num.toNat := by omega
  have hh : host' = host := by
    revert hb
    cases host <;> cases host' <;> decide
  rw [hh, BitVec.eq_of_toNat_eq hn]

/-- A key that names a line of device memory is that line's own. -/
theorem keyLine_device {k : Nat} {l : Line} (hd : l.host = false) (h : keyLine k = l) : k = lineKey l := by
  subst h
  have hk : ¬2 ^ 46 ≤ k := by simpa [keyLine] using hd
  simp only [keyLine, lineKey, hk, decide_false, b2n, Bool.false_eq_true, if_false, BitVec.toNat_ofNat]
  omega

section
variable {s t : State} {l l' : Line}

/-- Nothing of the line itself has changed. -/
structure Aside (l : Line) (s t : State) : Prop where
  entry : slLine t l = slLine s l
  copies : ∀ k, ccLine t k l = ccLine s k l
  binv : ∀ n, (t.slice n).binv = (s.slice n).binv
  enabled : ∀ n, (t.slice n).enabled = (s.slice n).enabled
  ctrl : ∀ n, preg t (.mc n) 8 = preg s (.mc n) 8
  map : t.pl = s.pl

theorem Aside.refl (l : Line) (s : State) : Aside l s s := ⟨rfl, fun _ => rfl, fun _ => rfl, fun _ => rfl, fun _ => rfl, rfl⟩

theorem Aside.trans {u : State} (h : Aside l s t) (k : Aside l t u) : Aside l s u where
  entry := k.entry.trans h.entry
  copies := fun n => (k.copies n).trans (h.copies n)
  binv := fun n => (k.binv n).trans (h.binv n)
  enabled := fun n => (k.enabled n).trans (h.enabled n)
  ctrl := fun n => (k.ctrl n).trans (h.ctrl n)
  map := k.map.trans h.map

/-- What touches no cache, no slice, no controller's CTRL and no map of the placement loop leaves the line alone. -/
theorem Aside.of_keeps {P : List Part} (h : Keeps P s t) (hs : Part.slices ∉ P) (hc : Part.clusters ∉ P) (hp : Part.pl ∉ P)
    (hm : ∀ n, preg t (.mc n) 8 = preg s (.mc n) 8) : Aside l s t where
  entry := by unfold slLine; rw [h.slice hs]
  copies := fun k => by unfold ccLine; rw [h.cl hc]
  binv := fun n => by rw [h.slice hs]
  enabled := fun n => by rw [h.slice hs]
  ctrl := hm
  map := h .pl hp

theorem Aside.of_quiet {P : List Part} (h : Keeps P s t) (hs : Part.slices ∉ P) (hc : Part.clusters ∉ P) (hp : Part.pl ∉ P)
    (hm : Part.page .mc ∉ P) : Aside l s t :=
  .of_keeps h hs hc hp fun n => h.preg (p := .mc n) (by simpa [classOf] using hm) (by omega) (by simp) (by simp)

theorem Aside.slGet (h : Aside l s t) : slGet t l = slGet s l := by
  unfold Machine.slGet
  rw [h.entry]

theorem Aside.biOn (h : Aside l s t) : biOn t l = biOn s l := by
  unfold Machine.biOn
  rw [h.binv]

theorem Aside.served (h : Aside l s t) {a : Nat} (hf : fenced s (.mc (stackOf s a)) = false) : fenced t (.mc (stackOf t a)) = false := by
  have hsame : stackOf t a = stackOf s a := by unfold stackOf placeOf; rw [h.map]
  rw [hsame]
  exact (congrArg (bit · 1) (h.ctrl _)).trans hf

/-! ## Single changes -/

theorem slook_sopt_other {α : Type} {j k : Nat} (m : Sparse α) (v : Option α) (h : j ≠ k) : slook (sopt m k v) j = slook m j := by
  cases v with
  | none => exact slook_serase_other m h
  | some v => exact slook_sput_other v m h

theorem slook_sopt_same {α : Type} (k : Nat) (m : Sparse α) (v : Option α) : slook (sopt m k v) k = v := by
  cases v with
  | none => exact slook_serase_same k m
  | some v => exact slook_sput_same k v m

theorem setSl_slice_other (s : State) (l : Line) (e : SLine) {n : Fin 16} (h : n ≠ homeOf l) : (setSl s l e).slice n = s.slice n :=
  setSlice_slice_other _ _ h

theorem setSl_slice_same (s : State) (l : Line) (e : SLine) : (setSl s l e).slice (homeOf l) =
    { s.slice (homeOf l) with lines := sopt (s.slice (homeOf l)).lines (lineKey l) (if e.idle then none else some e) } := setSlice_slice_same _ _ _

theorem slLine_setSl_same (s : State) (l : Line) (e : SLine) : slLine (setSl s l e) l = if e.idle then none else some e := by
  unfold slLine
  rw [setSl_slice_same]
  exact slook_sopt_same _ _ _

theorem slLine_setSl_other (s : State) (e : SLine) (h : l' ≠ l) : slLine (setSl s l' e) l = slLine s l := by
  unfold slLine
  by_cases hn : homeOf l = homeOf l'
  · rw [hn, setSl_slice_same]
    exact slook_sopt_other _ _ (fun hk => h (lineKey_inj hk.symm))
  · rw [setSl_slice_other _ _ _ hn]

/-- An entry that is set reads back, an idle one as one with nothing in it. -/
theorem slGet_setSl_same (s : State) (l : Line) (e : SLine) : slGet (setSl s l e) l = if e.idle then noLine else e := by
  unfold slGet
  rw [slLine_setSl_same]
  split_ifs <;> rfl

theorem setSl_slice_binv (s : State) (l : Line) (e : SLine) (n : Fin 16) : ((setSl s l e).slice n).binv = (s.slice n).binv := by
  by_cases hn : n = homeOf l
  · rw [hn, setSl_slice_same]
  · rw [setSl_slice_other _ _ _ hn]

theorem setSl_slice_enabled (s : State) (l : Line) (e : SLine) (n : Fin 16) : ((setSl s l e).slice n).enabled = (s.slice n).enabled := by
  by_cases hn : n = homeOf l
  · rw [hn, setSl_slice_same]
  · rw [setSl_slice_other _ _ _ hn]

theorem aside_setSl (s : State) (e : SLine) (h : l' ≠ l) : Aside l s (setSl s l' e) where
  entry := slLine_setSl_other s e h
  copies := fun _ => rfl
  binv := setSl_slice_binv s l' e
  enabled := setSl_slice_enabled s l' e
  ctrl := fun _ => rfl
  map := rfl

theorem ccLine_setCcLine_same (s : State) (k : Fin 16) (l : Line) (x : Option CLine) : ccLine (setCcLine s k l x) k l = x := by
  unfold ccLine setCcLine
  rw [setCl_cl_same]
  exact slook_sopt_same _ _ _

theorem ccLine_setCcLine_line (s : State) (k j : Fin 16) (x : Option CLine) (h : l' ≠ l) : ccLine (setCcLine s k l' x) j l = ccLine s j l := by
  unfold ccLine setCcLine
  by_cases hj : j = k
  · subst hj
    rw [setCl_cl_same]
    exact slook_sopt_other _ _ (fun hk => h (lineKey_inj hk.symm))
  · rw [setCl_cl_other _ _ hj]

theorem ccLine_setCcLine_other (s : State) {k j : Fin 16} (l l' : Line) (x : Option CLine) (h : j ≠ k) : ccLine (setCcLine s k l' x) j l = ccLine s j l := by
  unfold ccLine setCcLine
  rw [setCl_cl_other _ _ h]

theorem aside_setCcLine (s : State) (k : Fin 16) (x : Option CLine) (h : l' ≠ l) : Aside l s (setCcLine s k l' x) :=
  ⟨rfl, fun j => ccLine_setCcLine_line s k j x h, fun _ => rfl, fun _ => rfl, fun _ => rfl, rfl⟩

/-- A request answered RETRY is noted in its slice, and nowhere else. -/
theorem aside_addRetry (s : State) (l l' : Line) (m : Fin 58) (age : BitVec 4) : Aside l s (addRetry s l' m age) := by
  unfold addRetry
  extract_lets n x
  split_ifs
  · exact Aside.refl l s
  · have hslice : ∀ k : Fin 16, ((s.setSlice n { x with retries := x.retries ++ [⟨l', m, age, false⟩] }).slice k).lines = (s.slice k).lines ∧
        ((s.setSlice n { x with retries := x.retries ++ [⟨l', m, age, false⟩] }).slice k).binv = (s.slice k).binv ∧
        ((s.setSlice n { x with retries := x.retries ++ [⟨l', m, age, false⟩] }).slice k).enabled = (s.slice k).enabled := fun k => by
      by_cases hk : k = n
      · rw [hk, setSlice_slice_same]
        exact ⟨rfl, rfl, rfl⟩
      · rw [setSlice_slice_other _ _ hk]
        exact ⟨rfl, rfl, rfl⟩
    exact ⟨by unfold slLine; rw [(hslice _).1], fun _ => rfl, fun k => (hslice k).2.1, fun k => (hslice k).2.2, fun _ => rfl, rfl⟩

/-- New miss registers of a cluster cache leave its lines. -/
theorem aside_setMisses (s : State) (l : Line) (k : Fin 16) (ms : List MissReg) :
    Aside l s (s.setCl k { s.cl k with cc := { (s.cl k).cc with misses := ms } }) where
  entry := rfl
  copies := fun j => by
    unfold ccLine
    by_cases hj : j = k
    · rw [hj, setCl_cl_same]
    · rw [setCl_cl_other _ _ hj]
  binv := fun _ => rfl
  enabled := fun _ => rfl
  ctrl := fun _ => rfl
  map := rfl

theorem aside_cancelGrant (s : State) (k : Fin 16) (l l' : Line) : Aside l s (cancelGrant s k l') := by
  unfold cancelGrant
  split_ifs
  · exact (aside_setMisses s l k _).trans (aside_addRetry _ l l' _ _)
  · exact Aside.refl l s

theorem aside_dropCopy (s : State) (k : Fin 16) (h : l' ≠ l) : Aside l s (dropCopy s k l').1 := by
  have hc := aside_cancelGrant s k l l'
  unfold dropCopy
  generalize cancelGrant s k l' = u at hc
  simp only
  split
  · exact hc
  · exact hc.trans (aside_setCcLine _ _ _ h)

theorem aside_foldl1 {α β : Type} {g : State × β → α → State × β} (hg : ∀ a i, Aside l a.1 (g a i).1) (is : List α) (a : State × β) :
    Aside l a.1 (is.foldl g a).1 := by
  induction is generalizing a with
  | nil => exact Aside.refl l _
  | cons i is ih => exact (hg a i).trans (ih _)

theorem aside_foldl {α : Type} {g : State → α → State} (hg : ∀ u i, Aside l u (g u i)) (is : List α) (u : State) : Aside l u (is.foldl g u) := by
  induction is generalizing u with
  | nil => exact Aside.refl l _
  | cons i is ih => exact (hg u i).trans (ih _)

theorem aside_dropCopies (s : State) (keep : Option (Fin 16)) (h : l' ≠ l) : Aside l s (dropCopies s l' keep).1 := by
  unfold dropCopies
  extract_lets e r e1 pres
  have hr : Aside l s r.1 := by
    refine aside_foldl1 (l := l) ?_ _ (s, none)
    exact fun a i => aside_dropCopy a.1 i h
  exact hr.trans (aside_setSl _ _ h)

/-! ## Writes below -/

theorem aside_cntPreg (s : State) (l : Line) {p : Page} {o : Nat} (n : Nat) (ho : o < 0x1000) (h8 : o ≠ 8) : Aside l s (cntPreg s p o n) :=
  ⟨rfl, fun _ => rfl, fun _ => rfl, fun _ => rfl, fun m => by rw [preg_cntPreg _ _ ho (by omega), if_neg (by omega)], rfl⟩

theorem aside_raiseErr (s : State) (l : Line) (m : Fin 8) (k a : Nat) : Aside l s (raiseErr s (.mc m) k a) :=
  .of_keeps (mcErr_keeps s m k a) (by decide) (by decide) (by decide) fun n => preg_raiseErr _ _ _ (by omega) (fun _ => by decide) (by simp)

theorem aside_setGran (s : State) (l : Line) (g : Nat) (d : BitVec 256) (p : Bool) : Aside l s (setGran s g d p) :=
  ⟨rfl, fun _ => rfl, fun _ => rfl, fun _ => rfl, fun _ => rfl, rfl⟩

theorem aside_mcFullGran (s : State) (l : Line) (m : Fin 8) (g : Nat) (d : BitVec 256) : Aside l s (mcFullGran s m g d) := by
  refine Aside.trans (t := when (granPoison s g) (fun t => cntPreg t (.mc m) 0x10C 1) s) ?_ (aside_setGran _ _ _ _ _)
  unfold when
  split_ifs
  · exact aside_cntPreg _ _ _ (by omega) (by omega)
  · exact Aside.refl l s

theorem aside_mcPoisonGran (s : State) (l : Line) (m : Fin 8) (g : Nat) (d : BitVec 256) (mask : BitVec 32) : Aside l s (mcPoisonGran s m g d mask) := by
  have hset := aside_setGran s l g (mergeGran (granData s g) d mask) true
  have hcount := (hset.trans (aside_cntPreg _ _ (p := .mc m) (o := 0x110) 1 (by omega) (by omega))).trans
    (aside_cntPreg _ _ (p := .mc m) (o := 0x108) 1 (by omega) (by omega))
  unfold mcPoisonGran
  extract_lets s1 s2
  split_ifs
  · exact hset
  · exact hcount.trans (aside_raiseErr _ _ _ _ _)
  · exact hcount

theorem aside_mcPartGran (s : State) (l : Line) (m : Fin 8) (g : Nat) (d : BitVec 256) (mask : BitVec 32) :
    Aside l s (mcPartGran s m g d mask .clean) := by
  have hcount := aside_cntPreg s l (p := .mc m) (o := 0x110) 1 (by omega) (by omega)
  unfold mcPartGran
  extract_lets s1 d1
  split_ifs
  · exact ((hcount.trans (aside_setGran _ _ _ _ _)).trans (aside_cntPreg _ _ _ (by omega) (by omega))).trans (aside_raiseErr _ _ _ _ _)
  · exact hcount.trans (aside_setGran _ _ _ _ _)

theorem aside_writeGranOf (s : State) (l : Line) (num half : Nat) (d : BitVec 512) (mask : BitVec 64) (p : BitVec 2) :
    Aside l s (writeGranOf s num half d mask p) := by
  unfold writeGranOf
  extract_lets g n gd gm
  split_ifs
  · exact Aside.refl l s
  · exact aside_raiseErr _ _ _ _ _
  · exact aside_mcPoisonGran _ _ _ _ _ _
  · exact aside_mcFullGran _ _ _ _ _
  · exact aside_mcPartGran _ _ _ _ _ _

theorem aside_writeBelow (s : State) (l l' : Line) (d : BitVec 512) (p : BitVec 2) : Aside l s (writeBelow s l' d p) := by
  unfold writeBelow
  split_ifs
  · exact .of_quiet (P := [.page .ep, .cxl, .frz]) (hostWriteLine_keeps _ _ _ _ _ _ _ (by decide) (Keeps.refl _ s)) (by decide) (by decide) (by decide)
      (by decide)
  · exact (aside_writeGranOf s l _ 0 d _ p).trans (aside_writeGranOf _ l _ 1 d _ p)

theorem aside_cleanEvict (s : State) (l l' : Line) (op : BitVec 4) : Aside l s (cleanEvict s l' op) := by
  unfold cleanEvict
  split_ifs
  · exact Aside.refl l s
  · exact ⟨rfl, fun _ => rfl, fun _ => rfl, fun _ => rfl, fun _ => rfl, rfl⟩

/-! ## Room for a shadow entry -/

/-- A recalled line leaves the others alone. -/
theorem aside_recallShadow (s : State) (h : l' ≠ l) : Aside l s (recallShadow s l') := by
  have hdrop := aside_dropCopies s (l' := l') none h
  have hset : ∀ u, Aside l s u → Aside l s (cntPreg (setSl u l' { slGet u l' with cxl := none }) (dcPage l') 0x128 1) := fun u hu =>
    (hu.trans (aside_setSl _ _ h)).trans (aside_cntPreg _ _ _ (by omega) (by omega))
  unfold recallShadow
  extract_lets r s1
  refine hset s1 ?_
  simp only [s1, r]
  split
  · exact hdrop.trans (aside_writeBelow _ _ _ _ _)
  · exact hdrop.trans (aside_cleanEvict _ _ _ _)

theorem nth_mem {α : Type} {ks : List α} (d : α) (i : Nat) (h : ks ≠ []) : nth ks (i % ks.length) d ∈ ks := by
  have hlt : i % ks.length < ks.length := Nat.mod_lt _ (List.length_pos_iff.mpr h)
  unfold nth
  rw [List.getElem?_eq_getElem hlt]
  exact List.getElem_mem hlt

/-- The keys that can be recalled for a line are not its own. -/
theorem recallable_other {k : Nat} (h : k ∈ recallable s l) : k ≠ lineKey l := by
  simp only [recallable, shadowsOf, List.mem_map, List.mem_filter, Bool.and_eq_true, decide_eq_true_eq] at h
  obtain ⟨e, ⟨⟨-, ⟨-, hne⟩, -⟩, -⟩, rfl⟩ := h
  exact hne

/-- Room for a shadow entry of a line of device memory leaves that line alone. -/
theorem aside_shadowRoom (s : State) (hd : l.host = false) : Aside l s (shadowRoom s l) := by
  unfold shadowRoom
  extract_lets ks f
  split_ifs with hfew hnone
  · exact Aside.refl l s
  · exact Aside.refl l s
  · have hother := recallable_other (nth_mem 0 (Config.freeVictim f.1) (by simpa [ks] using hnone : recallable s l ≠ []))
    exact Aside.trans (t := f.2) ⟨rfl, fun _ => rfl, fun _ => rfl, fun _ => rfl, fun _ => rfl, rfl⟩
      (aside_recallShadow _ (fun hl => hother (keyLine_device hd hl)))

end

/-! ## A whole line written below -/

section
variable {s t : State} {n : Nat}

/-- A whole line written without poison stands in memory, whatever stood there. -/
structure WholeWritten (s t : State) (n : Nat) (d : BitVec 512) : Prop where
  keeps : Keeps [.page .mc, .dm] s t
  line : readBytes t.dm (64 * n) 64 = natBytes 64 d.toNat
  clean : granPoison t (2 * n) = false ∧ granPoison t (2 * n + 1) = false

theorem writeGranOf_whole (s : State) (num half : Nat) (d : BitVec 512) (hh : half < 2) (hs : stackRefuses s num = false) :
    writeGranOf s num half d (BitVec.allOnes 64) 0 = mcFullGran s (stackOf s (64 * num)) (2 * num + half) (d.extractLsb' (256 * half) 256) := by
  have hclean : (0 : BitVec 2).getLsbD half = false := BitVec.getLsbD_zero
  have hmask : (BitVec.allOnes 64).extractLsb' (32 * half) 32 = BitVec.allOnes 32 := by
    refine BitVec.eq_of_getLsbD_eq fun k hk => ?_
    rw [BitVec.getLsbD_extractLsb', BitVec.getLsbD_allOnes, BitVec.getLsbD_allOnes]
    simp [hk]
    omega
  unfold writeGranOf
  simp only [hs, hclean, hmask, Bool.false_eq_true, if_false, if_true]
  exact if_neg (by decide)

theorem writeLineAt_whole (d : BitVec 512) (h : fenced s (.mc (stackOf s (64 * n))) = false) : WholeWritten s (writeLineAt s n d (BitVec.allOnes 64) 0) n d := by
  unfold writeLineAt
  rw [writeGranOf_whole s n 0 d (by omega) (stackRefuses_served h)]
  obtain ⟨k1, d1, p1, o1⟩ := mcFullGran_after s (stackOf s (64 * n)) (2 * n + 0) (d.extractLsb' (256 * 0) 256)
  have hctrl := (aside_mcFullGran s ⟨false, 0⟩ (stackOf s (64 * n)) (2 * n + 0) (d.extractLsb' (256 * 0) 256)).served h
  generalize mcFullGran s (stackOf s (64 * n)) (2 * n + 0) (d.extractLsb' (256 * 0) 256) = u at k1 d1 p1 o1 hctrl
  rw [writeGranOf_whole u n 1 d (by omega) (stackRefuses_served hctrl)]
  obtain ⟨k2, d2, p2, o2⟩ := mcFullGran_after u (stackOf u (64 * n)) (2 * n + 1) (d.extractLsb' (256 * 1) 256)
  have hlow : granPoison (mcFullGran u (stackOf u (64 * n)) (2 * n + 1) (d.extractLsb' (256 * 1) 256)) (2 * n) = granPoison u (2 * n) := by
    unfold mcFullGran
    rw [granPoison_setGran_other _ _ _ (by omega)]
    unfold when
    split_ifs <;> rfl
  generalize mcFullGran u (stackOf u (64 * n)) (2 * n + 1) (d.extractLsb' (256 * 1) 256) = t at k2 d2 p2 o2 hlow
  have hline : (memLine t n).1 = mergeLine (memLine s n).1 d (BitVec.allOnes 64) := by
    refine memLine_merged ?_ ?_
    · rw [o2 _ (by omega)]
      exact d1.trans (mergeGran_all _ _).symm
    · exact d2.trans (mergeGran_all _ _).symm
  refine ⟨k1.trans k2, ?_, hlow.trans p1, p2⟩
  rw [readBytes_line, hline, mergeLine_all]

end

/-! ## What a slice that is off is to keep -/

section
variable {s : State} {l : Line}

/-- The state in which what a slice does not keep is written below. -/
def stored (s : State) (l : Line) : State :=
  let t := if (slGet s l).data.isSome ∧ (slGet s l).presence ≠ 0 then shadowRoom s l else s
  setSl t l { slGet t l with data := none, dirty := false, poison := 0 }

/-- The entry of such a line is what it was, without data. -/
theorem stored_after (hd : l.host = false) : (∀ k, ccLine (stored s l) k l = ccLine s k l) ∧
    slLine (stored s l) l = (if ({ slGet s l with data := none, dirty := false, poison := 0 } : SLine).idle then none
      else some { slGet s l with data := none, dirty := false, poison := 0 }) ∧ biOn (stored s l) l = biOn s l ∧
    (∀ a, fenced s (.mc (stackOf s a)) = false → fenced (stored s l) (.mc (stackOf (stored s l) a)) = false) := by
  have hroom : Aside l s (if (slGet s l).data.isSome ∧ (slGet s l).presence ≠ 0 then shadowRoom s l else s) := by
    split_ifs
    · exact aside_shadowRoom s hd
    · exact Aside.refl l s
  unfold stored
  generalize (if (slGet s l).data.isSome ∧ (slGet s l).presence ≠ 0 then shadowRoom s l else s) = t at hroom
  refine ⟨hroom.copies, ?_, ?_, fun a ha => hroom.served ha⟩
  · rw [slLine_setSl_same, hroom.slGet]
  · rw [← hroom.biOn]
    unfold biOn
    rw [setSl_slice_binv]

/-- What home is to keep, of a line of device memory whose slice is off, stands in memory. -/
theorem homeStore_below (hd : l.host = false) (ho : (s.slice (homeOf l)).enabled = false) (hf : fenced s (.mc (stackOf s (64 * l.num.toNat))) = false)
    (d : BitVec 512) : homeStore s l d 0 = writeLineAt (stored s l) l.num.toNat d (BitVec.allOnes 64) 0 ∧
      WholeWritten (stored s l) (homeStore s l d 0) l.num.toNat d := by
  obtain ⟨-, -, -, hserved⟩ := stored_after (s := s) hd
  have heq : homeStore s l d 0 = writeLineAt (stored s l) l.num.toNat d (BitVec.allOnes 64) 0 := by
    rw [homeStore_off ho, storeBelow_eq]
    exact if_neg (by simp [hd])
  exact ⟨heq, heq ▸ writeLineAt_whole d (hserved _ hf)⟩

/-- The copies and the entry of such a line. -/
theorem homeStore_below_line (hd : l.host = false) (ho : (s.slice (homeOf l)).enabled = false) (d : BitVec 512) (p : BitVec 2) :
    (∀ k, ccLine (homeStore s l d p) k l = ccLine s k l) ∧
      slLine (homeStore s l d p) l = (if ({ slGet s l with data := none, dirty := false, poison := 0 } : SLine).idle then none
        else some { slGet s l with data := none, dirty := false, poison := 0 }) ∧ biOn (homeStore s l d p) l = biOn s l := by
  obtain ⟨hcopies, hline, hbi, -⟩ := stored_after (s := s) hd
  have heq : homeStore s l d p = writeBelow (stored s l) l d p := by rw [homeStore_off ho, storeBelow_eq]; rfl
  have ha := aside_writeBelow (stored s l) l l d p
  rw [heq]
  exact ⟨fun k => (ha.copies k).trans (hcopies k), ha.entry.trans hline, ha.biOn.trans hbi⟩

end

end Sys2Proof
end

section
/-! PROOFS. The landing window: its enable, its moves, and the answers to back-invalidates (08 R341 to R346, R357 to R360). -/

namespace Sys2Proof

open Sys2Proof.Machine

variable {s t : State}

/-! ## CTRL.ENABLE -/

/-- A write of CTRL that changes ENABLE, and leaves FENCE as it stands, acts on ENABLE alone. -/
theorem ctrlActs_enable {p : Page} {v : W32} (hp : p ≠ .ep) (h1 : bit v 1 = fenced s p) (hen : enabled s p ≠ bit v 0) :
    ctrlActs s p v = enableAct (ctrlHeld s p v) p (bit v 0) false := by
  unfold ctrlActs
  rw [if_neg (fun h => hen h.1), h1, fenceAct_same _ _ hp]

/-- An enable that is rejected reads 0 again, and PAGE_ERR tells why. -/
theorem rejectEnable_after (s : State) (p : Page) : enabled (rejectEnable s p 8 false) p = false ∧ bit (preg (rejectEnable s p 8 false) p 0x3C) 6 = true ∧
    Keeps [.page (classOf p)] s (rejectEnable s p 8 false) := by
  have heq : rejectEnable s p 8 false = pageErr (clrPreg s p 8 1) p 64 8 := rfl
  rw [heq]
  refine ⟨?_, pageErr_cause _ _ _ (by decide), ?_⟩
  · unfold enabled
    rw [pageErr_preg _ _ _ (by omega) (by simp) (by simp) (by simp), preg_clrPreg _ _ (by omega) (by omega), if_pos ⟨rfl, rfl⟩]
    exact bit_andNot_one32 _ (b := 0) (by omega)
  · exact pageErr_keeps _ _ _ (by simp) (clrPreg_keeps _ _ _ (by omega) (by simp) (Keeps.refl _ s))

/-- The frames of the map, where its entries are the same. -/
theorem lwFrame_congr {i : Nat} (h : preg t .lw (0x100 + 4 * i) = preg s .lw (0x100 + 4 * i)) : lwFrame t i = lwFrame s i := congrArg (fld · 0 9) h

theorem lwFrames_ctrlHeld {v : W32} (hu : Unlocked s .lw) : (List.range 16).map (lwFrame (ctrlHeld s .lw v)) = (List.range 16).map (lwFrame s) :=
  List.map_congr_left fun i hi => lwFrame_congr (preg_ctrlHeld rfl hu (by have := List.mem_range.mp hi; omega) (fun _ => by omega) (by simp))

theorem lwEnableAct_on (s : State) : lwEnableAct s true false =
    if ((List.range 16).map (lwFrame s)).all (fun x => decide (x < 287)) && decide ((List.range 16).map (lwFrame s)).Nodup
    then { s with lw := { s.lw with closing := false } } else raiseErr (rejectEnable s .lw 8 false) .lw 0 := rfl

/-! ## Moves -/

theorem lwMove_plain : PlainReg .lw 0x140 (r 0x140 0 [f 0 4 .rw, f 8 9 .rw, f 31 1 .go]) := {}

theorem moveEnd_keeps' (s : State) (res : Nat) : Keeps [.page .lw] s (moveEnd s res) := moveEnd_keeps _ (by decide) (Keeps.refl _ s)

/-- How a move ends: the result stands, and GO is clear. -/
theorem moveEnd_result (s : State) (res : Nat) : preg (moveEnd s res) .lw 0x144 = BitVec.ofNat 32 res ∧ bit (preg (moveEnd s res) .lw 0x140) 31 = false := by
  unfold moveEnd
  constructor
  · rw [preg_goDone _ (by omega) (by omega) (fun _ => by omega) (by simp), preg_setPreg _ _ (by omega) (by omega), if_neg (by omega), preg_setPreg_same]
  · rw [preg_goDone_same _ _ (by omega) (by omega) (by omega) (by simp), bit_andNot_one32 _ (by omega)]

theorem preg_moveEnd (s : State) (res : Nat) {k : Nat} (hk : k < 0x1000) (h : k ≠ 0x140 ∧ k ≠ 0x144 ∧ k ≠ 0x148 ∧ k ≠ 0x30 ∧ k ≠ 0x40) :
    preg (moveEnd s res) .lw k = preg s .lw k := by
  obtain ⟨h0, h4, h8, hi, hd⟩ := h
  unfold moveEnd
  rw [preg_goDone _ (by omega) hk (fun _ => ⟨h0, hi, hd⟩) (by simp), preg_setPreg _ _ (by omega) hk, if_neg (fun e => h8 e.2),
    preg_setPreg _ _ (by omega) hk, if_neg (fun e => h4 e.2)]
  exact preg_update

/-- The registers of the window after a write of LW_MOVE, and the fields that the write gives. -/
theorem lwMove_written (hu : Unlocked s .lw) (v : W32) : Keeps [.page .lw] s (pageWrite s .lw 0x140 v).st ∧
    fld (preg (pageWrite s .lw 0x140 v).st .lw 0x140) 0 4 = fld v 0 4 ∧ fld (preg (pageWrite s .lw 0x140 v).st .lw 0x140) 8 9 = fld v 8 9 ∧
    (∀ p k, k < 0x1000 → (p = .lw → k ≠ 0x140 ∧ k ≠ 0x30 ∧ k ≠ 0x3C) → (p = .ep → k ≠ 0xA00) →
      preg (pageWrite s .lw 0x140 v).st p k = preg s p k) :=
  ⟨pageWrite_keeps_plain lwMove_plain hu _ _ (by decide) (Keeps.refl _ s),
    fld_pageWrite lwMove_plain hu (f 0 4 .rw) rfl rfl ⟨.inl rfl, Nat.zero_le _, Nat.le_sub_one_of_lt (fld_lt v 0 4), by decide⟩,
    fld_pageWrite lwMove_plain hu (f 8 9 .rw) rfl rfl ⟨.inl rfl, Nat.zero_le _, Nat.le_sub_one_of_lt (fld_lt v 8 9), by decide⟩,
    fun _ _ hk hn he => preg_pageWrite_other lwMove_plain hu _ _ hk hn he⟩

/-- A move to a frame that no entry has begins: nothing is scanned yet. -/
theorem moveStart_begins {i fr : Nat} (hi : fld (preg s .lw 0x140) 0 4 = i) (hfr : fld (preg s .lw 0x140) 8 9 = fr) (hlt : fr < 287) (hen : enabled s .lw = true)
    (hfree : ∀ k : Fin 16, lwFrame s k.val ≠ fr) (hi16 : i < 16) :
    moveStart s = { s with lw := { s.lw with move := some (BitVec.ofNat 4 i, BitVec.ofNat 9 fr), scanned := false, todo := [] } } := by
  have hnone : ((List.range 16).any fun k => decide (k ≠ i) && decide (lwFrame s k = fr)) = false := by
    refine List.any_eq_false.mpr fun k hk => ?_
    have := hfree ⟨k, List.mem_range.mp hk⟩
    simp [this]
  have hown : ¬fr = lwFrame s i := fun h => hfree ⟨i, hi16⟩ h.symm
  unfold moveStart
  simp only [hi, hfr, hnone, hen, hown, show ¬fr = 287 by omega, show ¬288 ≤ fr by omega, if_false, Bool.false_eq_true, Bool.true_eq_false, decide_false,
    Bool.false_and]
  unfold moveCheck
  simp only [Bool.false_and, Bool.false_eq_true, if_false]

/-- A move to the frame of the device's own use is rejected. -/
theorem moveStart_reserved {i : Nat} (hi : fld (preg s .lw 0x140) 0 4 = i) (hfr : fld (preg s .lw 0x140) 8 9 = 287) (hne : lwFrame s i ≠ 287) :
    moveStart s = moveEnd (raiseErr s .lw 1 i) 2 := by
  unfold moveStart
  simp only [hi, hfr, show ¬287 = lwFrame s i from fun h => hne h.symm, if_false, if_true]

/-- The state in which the entry has its new frame, and the move is over. -/
def frameMoved (s : State) (i : BitVec 4) (fr : BitVec 9) : State :=
  let s1 := setPreg s .lw (0x100 + 4 * i.toNat) (fr.setWidth 32)
  moveEnd { s1 with lw := { s1.lw with move := none, scanned := false, todo := [], heldReqs := [] } } 1

theorem moveCommit_quiet {i : BitVec 4} {fr : BitVec 9} (hheld : s.lw.heldReqs = []) (hc : s.lw.closing = false) : moveCommit s i fr = frameMoved s i fr := by
  have hlw : (frameMoved s i fr).lw.closing = false :=
    (congrArg (·.closing) ((moveEnd_keeps' _ 1) .lw (by decide) :) :).trans hc
  unfold moveCommit
  simp only [hheld, List.foldl_nil]
  refine if_neg (c := (frameMoved s i fr).lw.closing = true) ?_
  rw [hlw]
  exact Bool.false_ne_true

theorem frameMoved_after (s : State) (i : BitVec 4) (fr : BitVec 9) : Keeps [.page .lw, .lw] s (frameMoved s i fr) ∧ (frameMoved s i fr).lw.move = none ∧
    lwFrame (frameMoved s i fr) i.toNat = fr.toNat ∧ preg (frameMoved s i fr) .lw 0x144 = 1 ∧ bit (preg (frameMoved s i fr) .lw 0x140) 31 = false := by
  set s1 := setPreg s .lw (0x100 + 4 * i.toNat) (fr.setWidth 32) with hs1
  set s2 : State := { s1 with lw := { s1.lw with move := none, scanned := false, todo := [], heldReqs := [] } } with hs2
  have hi := i.isLt
  have hfr := fr.isLt
  have heq : frameMoved s i fr = moveEnd s2 1 := rfl
  have hk := moveEnd_keeps' s2 1
  have hlw : (moveEnd s2 1).lw = s2.lw := hk .lw (by decide)
  obtain ⟨hres, hgo⟩ := moveEnd_result s2 1
  rw [heq]
  refine ⟨?_, by rw [hlw], ?_, hres, hgo⟩
  · have h1 : Keeps [.page .lw, .lw] s s1 := setPreg_keeps _ _ _ (by omega) (by decide) (Keeps.refl _ s)
    exact (put_lw_keeps _ (by decide) h1).trans (hk.mono (by decide))
  · unfold lwFrame
    rw [preg_moveEnd s2 1 (by omega) (by omega), preg_update, preg_setPreg_same]
    unfold fld
    rw [BitVec.toNat_setWidth]
    omega

/-! ## Answers to back-invalidates -/

section
variable {l : Line}

/-- The slice's list without the back-invalidates of a line. -/
def biRemoved (s : State) (l : Line) : State :=
  s.setSlice (homeOf l) { s.slice (homeOf l) with binv := (s.slice (homeOf l)).binv.filter fun c => decide (c.line ≠ l) }

/-- The state in which H of the line is clear. -/
def biCleared (s : State) (l : Line) : State := setSl (biRemoved s l) l { slGet (biRemoved s l) l with h := .none }

theorem biEnd_alone (s : State) (l : Line) (dirty : Option (BitVec 512)) : biEnd s l [] dirty =
    match dirty with
    | some d => homeStore (biCleared s l) l d 0
    | none => biCleared s l := rfl

theorem biCleared_keeps (s : State) (l : Line) : Keeps [.slices] s (biCleared s l) :=
  (setSl_keeps _ _ (by decide) (State.setSlice_keeps _ _ (by decide) (Keeps.refl _ s)))

theorem biCleared_off (s : State) (l : Line) : biOn (biCleared s l) l = false := by
  unfold biOn biCleared
  rw [setSl_slice_binv]
  unfold biRemoved
  rw [setSlice_slice_same]
  simp

theorem biCleared_held (s : State) (l : Line) : (slGet (biCleared s l) l).h = .none := by
  unfold biCleared
  rw [slGet_setSl_same]
  split_ifs <;> rfl

theorem biCleared_enabled (s : State) (l : Line) : ((biCleared s l).slice (homeOf l)).enabled = (s.slice (homeOf l)).enabled := by
  unfold biCleared
  rw [setSl_slice_enabled]
  unfold biRemoved
  rw [setSlice_slice_same]

/-- The answer to the only back-invalidate of a slice is found. -/
theorem biAnswer_only {inv : Bool} {dirty : Option (BitVec 512)} (h : (s.slice (homeOf l)).binv = [⟨l, inv, true, [], none⟩]) (hf : s.frz.on = false) :
    biAnswer s l dirty = biEnd s l [] dirty := by
  unfold biAnswer
  simp [h, hf]

end

/-- Settles O34: the window's enable, its moves, and what an answer of the host to a back-invalidate leaves. -/
theorem landingWindow : Obligations.LandingWindow := by
  unfold Obligations.LandingWindow
  refine ⟨?enabled, ?rejected, ?begins, ?reserved, ?moved, ?slow, ?clean, ?dirty, ?frozen⟩
  case enabled =>
    intro s v hu h0 h1 h2 hen hnodup hlt
    have hk := ctrlWrite_acts (s := s) (p := .lw) (v := v) rfl hu h2
    have hheld := ctrlHeld_keeps (s := s) (p := .lw) (v := v) rfl hu
    have hall : ((List.range 16).map (lwFrame s)).all (fun x => decide (x < 287)) = true := by
      simp only [List.all_map, List.all_eq_true, List.mem_range]
      exact fun k hk => decide_eq_true (hlt ⟨k, hk⟩)
    have hacts : ctrlActs s .lw v = { ctrlHeld s .lw v with lw := { (ctrlHeld s .lw v).lw with closing := false } } := by
      rw [ctrlActs_enable (by simp) h1 (by rw [hen, h0]; decide), h0]
      refine (lwEnableAct_on _).trans (if_pos ?_)
      rw [lwFrames_ctrlHeld hu, hall, decide_eq_true hnodup]
      rfl
    rw [hacts] at hk
    refine ⟨_, rfl, ?_, ?_, ?_⟩
    · exact (put_lw_keeps _ (by decide) (hheld.mono (by decide))).trans (hk.mono (by decide))
    · unfold enabled
      rw [hk.preg (by decide) (by omega) (by simp) (by simp)]
      exact (ctrlHeld_enabled rfl hu).trans h0
    · rw [show (ctrlWrite s .lw v).lw = _ from hk .lw (by decide)]
  case rejected =>
    intro s v hu h0 h1 h2 hen hdup
    have hk := ctrlWrite_acts (s := s) (p := .lw) (v := v) rfl hu h2
    have hheld := ctrlHeld_keeps (s := s) (p := .lw) (v := v) rfl hu
    have hacts : ctrlActs s .lw v = raiseErr (rejectEnable (ctrlHeld s .lw v) .lw 8 false) .lw 0 := by
      rw [ctrlActs_enable (by simp) h1 (by rw [hen, h0]; decide), h0]
      refine (lwEnableAct_on _).trans (if_neg ?_)
      rw [lwFrames_ctrlHeld hu, decide_eq_false hdup, Bool.and_false]
      exact Bool.false_ne_true
    obtain ⟨hoff, hwhy, hrk⟩ := rejectEnable_after (ctrlHeld s .lw v) .lw
    generalize rejectEnable (ctrlHeld s .lw v) .lw 8 false = u at hacts hoff hwhy hrk
    rw [hacts] at hk
    refine ⟨_, rfl, ?_, ?_, ?_, ?_⟩
    · exact ((hheld.mono (by decide)).trans (raiseErr_keeps _ _ _ (by decide) (hrk.mono (by decide)))).trans (hk.mono (by decide))
    · unfold enabled
      rw [hk.preg (by decide) (by omega) (by simp) (by simp), preg_raiseErr _ _ _ (by omega) (fun _ => by decide) (by simp)]
      exact hoff
    · rw [hk.preg (by decide) (by omega) (by simp) (by simp), preg_raiseErr _ _ _ (by omega) (fun _ => by decide) (by simp)]
      exact hwhy
    · rw [hk.preg (by decide) (by omega) (by simp) (by simp)]
      exact raiseErr_bit _ _ _ (by omega)
  case begins =>
    intro s v i fr hs hen hi hfr hlt hfree
    obtain ⟨hw, h0, h8, hother⟩ := lwMove_written hs.1 v
    have hgo : bit (preg (pageWrite s .lw 0x140 v).st .lw 0x140) 31 = true := by
      rw [bit_pageWrite_go lwMove_plain hs.1 rfl (by omega), hs.2.2, Bool.true_or]
    have hen' : enabled (pageWrite s .lw 0x140 v).st .lw = true := by
      unfold enabled
      rw [hother _ _ (by omega) (fun _ => by omega) (by simp)]
      exact hen
    have heq : lwMoveWrite s v = moveStart (pageWrite s .lw 0x140 v).st := if_pos (started_one lwMove_plain rfl (by omega) 0 hs)
    have hbegin := moveStart_begins (h0.trans hi.symm) (h8.trans hfr.symm) hlt hen'
      (fun k => by rw [lwFrame_congr (hother .lw _ (by omega) (fun _ => by omega) (by simp))]; exact hfree k) (by rw [hi]; exact fld_lt v 0 4)
    refine ⟨_, congrArg Host.Outcome.next (heq.trans hbegin), put_lw_keeps _ (by decide) (hw.mono (by decide)), rfl, rfl, hgo⟩
  case reserved =>
    intro s v i fr hs hfr hi h287 hne
    obtain ⟨hw, h0, h8, hother⟩ := lwMove_written hs.1 v
    have hi16 : i < 16 := by rw [hi]; exact fld_lt v 0 4
    have heq : lwMoveWrite s v = moveStart (pageWrite s .lw 0x140 v).st := if_pos (started_one lwMove_plain rfl (by omega) 0 hs)
    have hrej := moveStart_reserved (s := (pageWrite s .lw 0x140 v).st) (i := i) (h0.trans hi.symm) ((h8.trans hfr.symm).trans h287)
      (by rw [lwFrame_congr (hother .lw _ (by omega) (fun _ => by omega) (by simp)), ← h287]; exact hne)
    generalize (pageWrite s .lw 0x140 v).st = u at heq hrej hw
    have herr : Keeps [.page .lw] u (raiseErr u .lw 1 i) := raiseErr_keeps _ _ _ (by decide) (Keeps.refl _ u)
    have hall : Keeps [.page .lw] s (moveEnd (raiseErr u .lw 1 i) 2) := (hw.trans herr).trans (moveEnd_keeps' _ _)
    obtain ⟨hres, hgo⟩ := moveEnd_result (raiseErr u .lw 1 i) 2
    refine ⟨_, congrArg Host.Outcome.next (heq.trans hrej), hall.mono (by decide), ?_, hres, ?_, hgo⟩
    · rw [show (moveEnd (raiseErr u .lw 1 i) 2).lw = s.lw from hall .lw (by decide)]
    · rw [preg_moveEnd _ _ (by omega) (by omega)]
      exact raiseErr_bit _ _ _ (by omega)
  case moved =>
    intro s i fr hmove hscan hlines hheld hclose hf hd1 hd2
    set u : State := { s with lw := { s.lw with move := some (i, fr), scanned := true, todo := [] } } with hu
    have heq : exec .lwScanDone s = .next (moveCheck u) := by
      change execLwScanDone s = _
      unfold execLwScanDone
      simp only [hmove, hscan, hlines, Bool.false_eq_true, if_false]
      rfl
    have hcheck : moveCheck u = moveCommit u i fr := by
      unfold moveCheck
      have hm : u.lw.move = some (i, fr) := rfl
      have hd1' : commitDue u (lwFrame u i.toNat) = false := hd1
      have hd2' : commitDue u fr.toNat = false := hd2
      have hf' : u.frz.on = false := hf
      simp only [hm, hd1', hd2', hf']
      rfl
    have hcommit := moveCommit_quiet (s := u) (i := i) (fr := fr) hheld hclose
    obtain ⟨hk, hnone, hframe, hres, hgo⟩ := frameMoved_after u i fr
    refine ⟨_, heq.trans (congrArg Host.Outcome.next (hcheck.trans hcommit)), ?_, hnone, hframe, hres, hgo⟩
    exact (put_lw_keeps _ (by decide) (Keeps.refl _ s)).trans hk
  case slow =>
    intro s hm
    exact ⟨_, congrArg Host.Outcome.next (if_pos (Option.isSome_iff_ne_none.mpr hm)), raiseErr_keeps _ _ _ (by decide) (Keeps.refl _ s),
      raiseErr_bit _ _ _ (by omega)⟩
  case clean =>
    intro s l inv hb hf
    exact ⟨_, congrArg (fun u => Host.Outcome.next (settle u)) ((biAnswer_only hb hf).trans (biEnd_alone s l none)), biCleared_keeps s l, biCleared_held s l,
      biCleared_off s l⟩
  case dirty =>
    intro s l inv d hb hf hd hen hfen
    have hk := biCleared_keeps s l
    have hfen' : fenced (biCleared s l) (.mc (stackOf (biCleared s l) (64 * l.num.toNat))) = false := hfen
    have hoff := (biCleared_enabled s l).trans hen
    obtain ⟨-, hw⟩ := homeStore_below (s := biCleared s l) hd hoff hfen' d
    obtain ⟨-, hline, hbi⟩ := homeStore_below_line (s := biCleared s l) hd hoff d 0
    refine ⟨_, congrArg (fun u => Host.Outcome.next (settle u)) ((biAnswer_only hb hf).trans (biEnd_alone s l (some d))), ?_, ?_, hbi.trans (biCleared_off s l), hw.line⟩
    · exact (hk.mono (by decide)).trans (homeStore_keeps _ _ _ (by decide) (Keeps.refl _ _))
    · unfold slGet
      rw [hline]
      split_ifs
      · rfl
      · exact biCleared_held s l
  case frozen =>
    intro s l inv dirty hb hf
    have heq : biAnswer s l dirty = s.setSlice (homeOf l) { s.slice (homeOf l) with binv := [⟨l, inv, true, [], some dirty⟩] } := by
      unfold biAnswer
      simp [hb, hf]
    refine ⟨_, congrArg (fun u => Host.Outcome.next (settle u)) heq, State.setSlice_keeps _ _ (by decide) (Keeps.refl _ s), ?_, ?_⟩
    · rw [setSlice_slice_same]
    · unfold slLine
      rw [setSlice_slice_same]

end Sys2Proof
end

section
/-! PROOFS. Caches enabled, flushed and invalidated (08 R327 to R329, R333). -/

namespace Sys2Proof

open Sys2Proof.Machine

variable {s t : State}

/-! ## Host copies asked back -/

/-- What asking for host copies leaves: no clearing ends, and the command registers stay. -/
structure Asked (s t : State) : Prop where
  clearing : ∀ n, (t.slice n).clearing = (s.slice n).clearing
  command : ∀ n, preg t (.dc n) 0x100 = preg s (.dc n) 0x100

theorem Asked.refl (s : State) : Asked s s := ⟨fun _ => rfl, fun _ => rfl⟩

theorem Asked.trans {u : State} (h : Asked s t) (k : Asked t u) : Asked s u :=
  ⟨fun n => (k.clearing n).trans (h.clearing n), fun n => (k.command n).trans (h.command n)⟩

theorem asked_foldl {α : Type} {g : State → α → State} (hg : ∀ u i, Asked u (g u i)) (is : List α) (u : State) : Asked u (is.foldl g u) := by
  induction is generalizing u with
  | nil => exact Asked.refl _
  | cons i is ih => exact (hg u i).trans (ih _)

/-- A slice's list of back-invalidates is another part of it. -/
theorem asked_setBinv (s : State) (n : Fin 16) (bs : List BackInv) : Asked s (s.setSlice n { s.slice n with binv := bs }) where
  clearing := fun m => by
    by_cases h : m = n
    · rw [h, setSlice_slice_same]
    · rw [setSlice_slice_other _ _ h]
  command := fun _ => rfl

theorem asked_pumpSlice (s : State) (n : Fin 16) : Asked s (pumpSlice s n) := by
  unfold pumpSlice
  split_ifs
  · exact Asked.refl s
  · refine asked_foldl (fun u b => ?_) _ _
    dsimp only
    split_ifs
    · exact Asked.refl u
    · refine (asked_setBinv u n _).trans ⟨fun _ => rfl, fun m => ?_⟩
      rw [preg_cntPreg _ _ (by omega) (by omega), if_neg (by simp), preg_cntPreg _ _ (by omega) (by omega), if_neg (by omega)]
      rfl

theorem asked_startBi (s : State) (l : Line) (inv : Bool) (held : List HomeReq) : Asked s (startBi s l inv held) := by
  unfold startBi
  extract_lets n x
  split_ifs
  · exact asked_setBinv s n _
  · exact (asked_setBinv s n _).trans (asked_pumpSlice _ n)

theorem asked_clearAsk (s : State) (n : Fin 16) : Asked s (clearAsk s n) := by
  unfold clearAsk
  split_ifs
  · exact Asked.refl s
  · refine asked_foldl (fun u e => ?_) _ _
    split_ifs
    · exact Asked.refl u
    · exact asked_startBi _ _ _ _

/-! ## FLUSH and INV begin -/

theorem ccCtrl_plain (cl : Fin 16) : PlainReg (.cl cl) 0x100 (r 0x100 0 [f 0 1 .rw, f 1 1 .go, f 2 1 .go]) := {}

theorem dcCmd_plain (n : Fin 16) : PlainReg (.dc n) 0x100 (r 0x100 0 [f 0 1 .go, f 1 1 .go]) := {}

/-- What a write of CL_CC_CTRL leaves of ENABLE in its register. -/
theorem ccCtrl_enable {cl : Fin 16} (hu : Unlocked s (.cl cl)) (v : W32) : bit (preg (pageWrite s (.cl cl) 0x100 v).st (.cl cl) 0x100) 0 = bit v 0 :=
  bit_pageWrite (ccCtrl_plain cl) hu 0 (by decide) (by decide) (by omega)

theorem ccCtrl_written {cl : Fin 16} (hu : Unlocked s (.cl cl)) (v : W32) : Keeps [.page .cl] s (pageWrite s (.cl cl) 0x100 v).st :=
  pageWrite_keeps_plain (ccCtrl_plain cl) hu _ _ (by simp [classOf]) (Keeps.refl _ s)

theorem startClear_cluster (s : State) (cl : Fin 16) (fl : Bool) : Keeps [.clusters] s (startClear s (.cluster cl) fl) ∧
    ((startClear s (.cluster cl) fl).cl cl).cc.clearing = some (fl || (s.cl cl).cc.enabled || decide ((s.cl cl).cc.clearing = some true)) ∧
    ∀ p k, preg (startClear s (.cluster cl) fl) p k = preg s p k :=
  ⟨State.setCl_keeps _ _ (by decide) (Keeps.refl _ s), congrArg (fun c : Cluster => c.cc.clearing) (setCl_cl_same _ _ _), fun _ _ => rfl⟩

theorem startClear_slice (s : State) (n : Fin 16) (fl : Bool) :
    ((startClear s (.slice n) fl).slice n).clearing = some (fl || (s.slice n).enabled || decide ((s.slice n).clearing = some true)) ∧
      preg (startClear s (.slice n) fl) (.dc n) 0x100 = preg s (.dc n) 0x100 := by
  set u := s.setSlice n { s.slice n with clearing := some (fl || (s.slice n).enabled || decide ((s.slice n).clearing = some true)) } with hu
  have heq : startClear s (.slice n) fl = clearAsk u n := rfl
  have ha := asked_clearAsk u n
  rw [heq]
  exact ⟨by rw [ha.clearing, hu, setSlice_slice_same], ha.command n⟩

/-- A write of CL_CC_CTRL that leaves ENABLE as it is and starts one action. -/
theorem ccCtrlWrite_starts {cl : Fin 16} {v : W32} (hu : Unlocked s (.cl cl)) (h0 : bit v 0 = bit (preg s (.cl cl) 0x100) 0) :
    ccCtrlWrite s cl v = when ((pageWrite s (.cl cl) 0x100 v).started 2) (fun t => startClear t (.cluster cl) false)
      (when ((pageWrite s (.cl cl) 0x100 v).started 1) (fun t => startClear t (.cluster cl) true) (pageWrite s (.cl cl) 0x100 v).st) := by
  unfold ccCtrlWrite
  simp only [ccCtrl_enable hu, h0, if_true]

/-- A write of CL_CC_CTRL that clears ENABLE and starts nothing. -/
theorem ccCtrlWrite_disables {cl : Fin 16} {v : W32} (hu : Unlocked s (.cl cl)) (hon : bit (preg s (.cl cl) 0x100) 0 = true) (h0 : bit v 0 = false)
    (h1 : bit v 1 = false) (h2 : bit v 2 = false) :
    ccCtrlWrite s cl v = cacheEnableAct (pageWrite s (.cl cl) 0x100 v).st (.cluster cl) false (pageWrite s (.cl cl) 0x100 v).rej := by
  unfold ccCtrlWrite
  simp only [ccCtrl_enable hu, hon, h0, started_zero (ccCtrl_plain cl) hu rfl (by omega) _ h1, started_zero (ccCtrl_plain cl) hu rfl (by omega) _ h2, when,
    Bool.true_eq_false, Bool.false_eq_true, if_false]

/-! ## FLUSH and INV end -/

/-- A GO bit of a command register that may be set completes. -/
def goClear (s : State) (p : Page) (b : Nat) : State := if bit (preg s p 0x100) b then goDone s p 0x100 b else s

theorem goClear_keeps (s : State) (p : Page) (b : Nat) : Keeps [.page (classOf p)] s (goClear s p b) := by
  unfold goClear
  split_ifs
  · exact goDone_keeps _ _ _ (by omega) (by simp) (Keeps.refl _ s)
  · exact Keeps.refl _ s

theorem goClear_clear (s : State) (p : Page) {b : Nat} (hb : b < 32) : bit (preg (goClear s p b) p 0x100) b = false := by
  unfold goClear
  split_ifs with h
  · rw [preg_goDone_same _ _ (by omega) (by omega) (by omega) (by omega), bit_andNot_one32 _ hb]
  · simpa using h

/-- A clear bit stays clear. -/
theorem goClear_stays (s : State) (p : Page) {b c : Nat} (h : bit (preg s p 0x100) c = false) : bit (preg (goClear s p b) p 0x100) c = false := by
  unfold goClear
  split_ifs
  · rw [preg_goDone_same _ _ (by omega) (by omega) (by omega) (by omega)]
    unfold bit at h ⊢
    rw [BitVec.getLsbD_and, h, Bool.false_and]
  · exact h

theorem preg_goClear (s : State) (p : Page) (b : Nat) {k : Nat} (hk : k < 0x1000) (h : k ≠ 0x100 ∧ k ≠ 0x30 ∧ k ≠ 0x40) (hm : k ≠ 0xA00) :
    preg (goClear s p b) p k = preg s p k := by
  unfold goClear
  split_ifs
  · exact preg_goDone _ (by omega) hk (fun _ => h) (fun _ => hm)
  · rfl

/-- A way without errors stays as it is. -/
theorem wayCheck_none {c : CacheId} (he : wayErrs s c = []) (hthr : 0 < wayThr s c) (w : Nat) : wayCheck s c w = s :=
  if_pos (.inl (by rw [he]; exact hthr))

theorem wayChecks_none {c : CacheId} (he : wayErrs s c = []) (hthr : 0 < wayThr s c) (ws : List Nat) : ws.foldl (fun t w => wayCheck t c w) s = s := by
  induction ws with
  | nil => rfl
  | cons w ws ih => rw [List.foldl_cons, wayCheck_none he hthr, ih]

/-- A cluster cache whose clearing has ended. -/
def clusterCleared (s : State) (n : Fin 16) : State :=
  goClear (goClear (s.setCl n { s.cl n with cc := { (s.cl n).cc with enabled := (s.cl n).cc.enabled, invalidated := true, dirtyOff := false, clearing := none } })
    (.cl n) 1) (.cl n) 2

/-- A slice whose clearing has ended. -/
def sliceCleared (s : State) (n : Fin 16) : State :=
  goClear (goClear (s.setSlice n { s.slice n with enabled := (s.slice n).enabled, invalidated := true, dirtyOff := false, clearing := none }) (.dc n) 0) (.dc n) 1

theorem setCl_twice (s : State) (n : Fin 16) (c d : Cluster) : (s.setCl n c).setCl n d = s.setCl n d := by
  have h : (s.clusters.set n c).set n d = s.clusters.set n d := Vector.set_set _ _
  unfold State.setCl
  rw [h]

theorem setSlice_twice (s : State) (n : Fin 16) (c d : Slice) : (s.setSlice n c).setSlice n d = s.setSlice n d := by
  have h : (s.slices.set n c).set n d = s.slices.set n d := Vector.set_set _ _
  unfold State.setSlice
  rw [h]

theorem clusterCleared_after (s : State) (n : Fin 16) : Keeps [.page .cl, .clusters] s (clusterCleared s n) ∧
    (clusterCleared s n).cl n = { s.cl n with cc := { (s.cl n).cc with invalidated := true, dirtyOff := false, clearing := none } } ∧
    bit (preg (clusterCleared s n) (.cl n) 0x100) 1 = false ∧ bit (preg (clusterCleared s n) (.cl n) 0x100) 2 = false ∧
    (∀ k, k < 0x1000 → k ≠ 0x100 ∧ k ≠ 0x30 ∧ k ≠ 0x40 → k ≠ 0xA00 → preg (clusterCleared s n) (.cl n) k = preg s (.cl n) k) := by
  set u := s.setCl n { s.cl n with cc := { (s.cl n).cc with enabled := (s.cl n).cc.enabled, invalidated := true, dirtyOff := false, clearing := none } } with hu
  have heq : clusterCleared s n = goClear (goClear u (.cl n) 1) (.cl n) 2 := rfl
  have h1 := goClear_keeps u (.cl n) 1
  have h2 := goClear_keeps (goClear u (.cl n) 1) (.cl n) 2
  have hk : Keeps [.page .cl] u (clusterCleared s n) := h1.trans h2
  have huk : Keeps [.clusters] s u := State.setCl_keeps _ _ (by decide) (Keeps.refl _ s)
  refine ⟨(huk.mono (by decide)).trans (hk.mono (by decide)), ?_, ?_, ?_, fun k hk h ha => ?_⟩
  · rw [hk.cl (by decide), hu, setCl_cl_same]
  · rw [heq]
    exact goClear_stays _ _ (goClear_clear _ _ (by omega))
  · rw [heq]
    exact goClear_clear _ _ (by omega)
  · rw [heq, preg_goClear _ _ _ hk h ha, preg_goClear _ _ _ hk h ha]
    rfl

theorem sliceCleared_after (s : State) (n : Fin 16) : Keeps [.page .dc, .slices] s (sliceCleared s n) ∧
    (sliceCleared s n).slice n = { s.slice n with invalidated := true, dirtyOff := false, clearing := none } ∧
    bit (preg (sliceCleared s n) (.dc n) 0x100) 0 = false ∧ bit (preg (sliceCleared s n) (.dc n) 0x100) 1 = false ∧
    (∀ k, k < 0x1000 → k ≠ 0x100 ∧ k ≠ 0x30 ∧ k ≠ 0x40 → k ≠ 0xA00 → preg (sliceCleared s n) (.dc n) k = preg s (.dc n) k) := by
  set u := s.setSlice n { s.slice n with enabled := (s.slice n).enabled, invalidated := true, dirtyOff := false, clearing := none } with hu
  have heq : sliceCleared s n = goClear (goClear u (.dc n) 0) (.dc n) 1 := rfl
  have h1 := goClear_keeps u (.dc n) 0
  have h2 := goClear_keeps (goClear u (.dc n) 0) (.dc n) 1
  have hk : Keeps [.page .dc] u (sliceCleared s n) := h1.trans h2
  have huk : Keeps [.slices] s u := State.setSlice_keeps _ _ (by decide) (Keeps.refl _ s)
  refine ⟨(huk.mono (by decide)).trans (hk.mono (by decide)), ?_, ?_, ?_, fun k hk h ha => ?_⟩
  · rw [hk.slice (by decide), hu, setSlice_slice_same]
  · rw [heq]
    exact goClear_stays _ _ (goClear_clear _ _ (by omega))
  · rw [heq]
    exact goClear_clear _ _ (by omega)
  · rw [heq, preg_goClear _ _ _ hk h ha, preg_goClear _ _ _ hk h ha]
    rfl

theorem finishClear_cluster {n : Fin 16} (he : (s.cl n).cc.wayErr = []) (hthr : 0 < fld (preg s (.cl n) 0x10C) 0 8) :
    finishClear s (.cluster n) = clusterCleared s n := by
  obtain ⟨-, hcl, -, -, hreg⟩ := clusterCleared_after s n
  have heq : finishClear s (.cluster n) = (List.range 16).foldl (fun t w => wayCheck t (.cluster n) w) (clusterCleared s n) := by
    unfold finishClear clusterCleared
    simp only [setFlags, isOn, setCl_cl_same, setCl_twice, List.foldl_cons, List.foldl_nil]
    rfl
  rw [heq]
  refine wayChecks_none ?_ ?_ _
  · change ((clusterCleared s n).cl n).cc.wayErr = []
    rw [hcl]
    exact he
  · change 0 < fld (preg (clusterCleared s n) (.cl n) 0x10C) 0 8
    rw [hreg _ (by omega) (by omega) (by omega)]
    exact hthr

theorem finishClear_slice {n : Fin 16} (he : (s.slice n).wayErr = []) (hthr : 0 < fld (preg s (.dc n) 0x108) 0 8) :
    finishClear s (.slice n) = sliceCleared s n := by
  obtain ⟨-, hsl, -, -, hreg⟩ := sliceCleared_after s n
  have heq : finishClear s (.slice n) = (List.range 16).foldl (fun t w => wayCheck t (.slice n) w) (sliceCleared s n) := by
    unfold finishClear sliceCleared
    simp only [setFlags, isOn, setSlice_slice_same, setSlice_twice, List.foldl_cons, List.foldl_nil]
    rfl
  rw [heq]
  refine wayChecks_none ?_ ?_ _
  · change ((sliceCleared s n).slice n).wayErr = []
    rw [hsl]
    exact he
  · change 0 < fld (preg (sliceCleared s n) (.dc n) 0x108) 0 8
    rw [hreg _ (by omega) (by omega) (by omega)]
    exact hthr

/-- FLUSH or INV of a cluster cache that holds nothing and waits for nothing ends. -/
theorem clearEnd_cluster {n : Fin 16} {fl : Bool} (hc : (s.cl n).cc.clearing = some fl) (hm : (s.cl n).cc.misses = []) (hl : (s.cl n).cc.lines = [])
    (he : (s.cl n).cc.wayErr = []) (hthr : 0 < fld (preg s (.cl n) 0x10C) 0 8) (hr : bit (preg s (.cl n) 8) 2 = false) :
    clearEnd s (.cluster n) = clusterCleared s n := by
  have hempty : clusterClear s n fl = s := by
    unfold clusterClear
    rw [hl]
    rfl
  have hready : clearReady s (.cluster n) = true := by simp [clearReady, hm]
  have hreset : bit (preg (clusterCleared s n) (.cl n) 8) 2 = false := by
    obtain ⟨-, -, -, -, hreg⟩ := clusterCleared_after s n
    rw [hreg _ (by omega) (by omega) (by omega)]
    exact hr
  have hof : clearingOf s (.cluster n) = some fl := hc
  unfold clearEnd
  simp only [hof, hready, if_true, hempty, finishClear_cluster he hthr, cachePage, hreset, Bool.false_eq_true, if_false]

theorem clearEnd_slice {n : Fin 16} {fl : Bool} (hc : (s.slice n).clearing = some fl) (hm : (s.slice n).misses = []) (hb : (s.slice n).binv = [])
    (hl : (s.slice n).lines = []) (he : (s.slice n).wayErr = []) (hthr : 0 < fld (preg s (.dc n) 0x108) 0 8) (hr : bit (preg s (.dc n) 8) 2 = false) :
    clearEnd s (.slice n) = sliceCleared s n := by
  have hempty : sliceClear s n fl = s := by
    unfold sliceClear
    rw [hl]
    rfl
  have hready : clearReady s (.slice n) = true := by simp [clearReady, hm, hb, hl]
  have hreset : bit (preg (sliceCleared s n) (.dc n) 8) 2 = false := by
    obtain ⟨-, -, -, -, hreg⟩ := sliceCleared_after s n
    rw [hreg _ (by omega) (by omega) (by omega)]
    exact hr
  have hof : clearingOf s (.slice n) = some fl := hc
  unfold clearEnd
  simp only [hof, hready, if_true, hempty, finishClear_slice he hthr, cachePage, hreset, Bool.false_eq_true, if_false]

/-- A cluster cache that is turned off without a dirty line. -/
theorem cacheOff_clean {cl : Fin 16} {again : Bool} (hd : anyDirty s (.cluster cl) = false) : cacheEnableAct s (.cluster cl) false again =
    s.setCl cl { s.cl cl with cc := { (s.cl cl).cc with enabled := false, invalidated := false, dirtyOff := false } } := by
  unfold cacheEnableAct
  simp only [hd, Bool.false_eq_true, if_false]
  rfl

/-- A cluster cache that is turned off with dirty lines keeps them, and tells. -/
theorem cacheOff_dirty {cl : Fin 16} {again : Bool} (hd : anyDirty s (.cluster cl) = true) : cacheEnableAct s (.cluster cl) false again =
    raiseErr (s.setCl cl { s.cl cl with cc := { (s.cl cl).cc with enabled := false, invalidated := false, dirtyOff := true } }) (.cl cl) 6 := by
  unfold cacheEnableAct
  simp only [hd, Bool.false_eq_true, if_false, if_true]
  rfl

/-- Settles O32: FLUSH and INV begin and end, and caches are turned on and off. -/
theorem cacheControl : Obligations.CacheControl := by
  unfold Obligations.CacheControl
  refine ⟨?ccFlush, ?ccInv, ?dcFlush, ?dcInvOn, ?dcInvOff, ?ccEnds, ?dcOn, ?dcRejected, ?ccOff, ?dcEnds, ?ccOffEnds⟩
  case ccFlush =>
    intro s cl v hs h2 h0
    have heq := ccCtrlWrite_starts hs.1 h0
    rw [started_one (ccCtrl_plain cl) rfl (by omega) 0 hs, started_zero (ccCtrl_plain cl) hs.1 rfl (by omega) _ h2] at heq
    obtain ⟨hk, hc, hreg⟩ := startClear_cluster (pageWrite s (.cl cl) 0x100 v).st cl true
    refine ⟨_, congrArg Host.Outcome.next heq, ((ccCtrl_written hs.1 v).mono (by decide)).trans (hk.mono (by decide)), hc, ?_⟩
    exact (congrArg (bit · 1) (hreg _ _)).trans (by rw [bit_pageWrite_go (ccCtrl_plain cl) hs.1 rfl (by omega), hs.2.2, Bool.true_or])
  case ccInv =>
    intro s cl v hs h1 h0 hoff hnone
    have heq := ccCtrlWrite_starts hs.1 h0
    rw [started_one (ccCtrl_plain cl) rfl (by omega) 0 hs, started_zero (ccCtrl_plain cl) hs.1 rfl (by omega) _ h1] at heq
    have hw := ccCtrl_written (cl := cl) hs.1 v
    obtain ⟨hk, hc, hreg⟩ := startClear_cluster (pageWrite s (.cl cl) 0x100 v).st cl false
    rw [hw.cl (by decide), hoff, hnone] at hc
    refine ⟨_, congrArg Host.Outcome.next heq, (hw.mono (by decide)).trans (hk.mono (by decide)), hc, ?_⟩
    exact (congrArg (bit · 2) (hreg _ _)).trans (by rw [bit_pageWrite_go (ccCtrl_plain cl) hs.1 rfl (by omega), hs.2.2, Bool.true_or])
  case dcFlush =>
    intro s n v hs h1
    have heq : dcCmdWrite s n v = startClear (pageWrite s (.dc n) 0x100 v).st (.slice n) true := by
      unfold dcCmdWrite
      simp only [started_one (dcCmd_plain n) rfl (by omega) 0 hs, started_zero (dcCmd_plain n) hs.1 rfl (by omega) _ h1, when, if_true, Bool.false_eq_true, if_false]
    obtain ⟨hc, hreg⟩ := startClear_slice (pageWrite s (.dc n) 0x100 v).st n true
    refine ⟨_, congrArg Host.Outcome.next heq, heq ▸ dcCmdWrite_keeps _ _ (by decide) (Keeps.refl _ s), hc, ?_⟩
    rw [hreg, bit_pageWrite_go (dcCmd_plain n) hs.1 rfl (by omega), hs.2.2, Bool.true_or]
  case dcInvOn =>
    intro s n v hs h0 hon
    have heq : dcCmdWrite s n v = startClear (pageWrite s (.dc n) 0x100 v).st (.slice n) false := by
      unfold dcCmdWrite
      simp only [started_one (dcCmd_plain n) rfl (by omega) 0 hs, started_zero (dcCmd_plain n) hs.1 rfl (by omega) _ h0, when, if_true, Bool.false_eq_true, if_false]
    have hw : Keeps [.page .dc] s (pageWrite s (.dc n) 0x100 v).st := pageWrite_keeps_plain (dcCmd_plain n) hs.1 _ _ (by simp [classOf]) (Keeps.refl _ s)
    obtain ⟨hc, hreg⟩ := startClear_slice (pageWrite s (.dc n) 0x100 v).st n false
    rw [hw.slice (by decide), hon] at hc
    refine ⟨_, congrArg Host.Outcome.next heq, heq ▸ dcCmdWrite_keeps _ _ (by decide) (Keeps.refl _ s), hc, ?_⟩
    rw [hreg, bit_pageWrite_go (dcCmd_plain n) hs.1 rfl (by omega), hs.2.2, Bool.true_or]
  case dcInvOff =>
    intro s n v hs h0 hoff hnone
    have heq : dcCmdWrite s n v = startClear (pageWrite s (.dc n) 0x100 v).st (.slice n) false := by
      unfold dcCmdWrite
      simp only [started_one (dcCmd_plain n) rfl (by omega) 0 hs, started_zero (dcCmd_plain n) hs.1 rfl (by omega) _ h0, when, if_true, Bool.false_eq_true, if_false]
    have hw : Keeps [.page .dc] s (pageWrite s (.dc n) 0x100 v).st := pageWrite_keeps_plain (dcCmd_plain n) hs.1 _ _ (by simp [classOf]) (Keeps.refl _ s)
    obtain ⟨hc, hreg⟩ := startClear_slice (pageWrite s (.dc n) 0x100 v).st n false
    rw [hw.slice (by decide), hoff, hnone] at hc
    refine ⟨_, congrArg Host.Outcome.next heq, heq ▸ dcCmdWrite_keeps _ _ (by decide) (Keeps.refl _ s), hc, ?_⟩
    rw [hreg, bit_pageWrite_go (dcCmd_plain n) hs.1 rfl (by omega), hs.2.2, Bool.true_or]
  case ccEnds =>
    intro s cl fl hc hm hl he hthr hr
    obtain ⟨hk, hcl, h1, h2, -⟩ := clusterCleared_after s cl
    refine ⟨_, congrArg (fun u => Host.Outcome.next (settle u)) (clearEnd_cluster hc hm hl he hthr hr), hk, ?_, ?_, ?_, h1, h2⟩
    · rw [hcl]
    · rw [hcl]
    · rw [hcl]
  case dcOn =>
    intro s n v hu h0 h1 h2 hen hinv
    have hk := ctrlWrite_acts (s := s) (p := .dc n) (v := v) rfl hu h2
    have hheld := ctrlHeld_keeps (s := s) (p := .dc n) (v := v) rfl hu
    set u := ctrlHeld s (.dc n) v with hudef
    have hinv' : isInvalid u (.slice n) = true := by
      change (u.slice n).invalidated = true
      rw [hheld.slice (by simp)]
      exact hinv
    have hacts : ctrlActs s (.dc n) v = u.setSlice n { u.slice n with enabled := true, invalidated := true, dirtyOff := false } := by
      rw [ctrlActs_enable (by simp) h1 (by rw [hen, h0]; decide), h0]
      exact if_pos hinv'
    rw [hacts] at hk
    refine ⟨ctrlWrite s (.dc n) v, rfl, ?_, ?_, ?_⟩
    · exact ((hheld.mono (by simp [classOf])).trans (State.setSlice_keeps _ _ (by decide) (Keeps.refl _ _))).trans (hk.mono (by decide))
    · rw [hk.slice (by decide), setSlice_slice_same]
    · unfold enabled
      rw [hk.preg (by simp [classOf]) (by omega) (by simp) (by simp)]
      exact (ctrlHeld_enabled rfl hu).trans h0
  case dcRejected =>
    intro s n v hu h0 h1 h2 hen hinv
    have hk := ctrlWrite_acts (s := s) (p := .dc n) (v := v) rfl hu h2
    have hheld := ctrlHeld_keeps (s := s) (p := .dc n) (v := v) rfl hu
    set u := ctrlHeld s (.dc n) v with hudef
    have hinv' : isInvalid u (.slice n) = false := by
      change (u.slice n).invalidated = false
      rw [hheld.slice (by simp)]
      exact hinv
    have hacts : ctrlActs s (.dc n) v = rejectEnable u (.dc n) 8 false := by
      rw [ctrlActs_enable (by simp) h1 (by rw [hen, h0]; decide), h0]
      exact if_neg (by rw [hinv']; exact Bool.false_ne_true)
    obtain ⟨hoff, hwhy, hrk⟩ := rejectEnable_after u (.dc n)
    rw [hacts] at hk
    refine ⟨ctrlWrite s (.dc n) v, rfl, ?_, ?_, ?_⟩
    · exact ((hheld.mono (by simp [classOf])).trans (hrk.mono (by simp [classOf]))).trans (hk.mono (by decide))
    · unfold enabled
      rw [hk.preg (by simp [classOf]) (by omega) (by simp) (by simp)]
      exact hoff
    · rw [hk.preg (by simp [classOf]) (by omega) (by simp) (by simp)]
      exact hwhy
  case ccOff =>
    intro s cl v hu hon h0 h1 h2 hdirty
    have hw := ccCtrl_written (cl := cl) hu v
    have hd : anyDirty (pageWrite s (.cl cl) 0x100 v).st (.cluster cl) = true := by
      change (((pageWrite s (.cl cl) 0x100 v).st.cl cl).cc.lines.any fun e => decide (e.2.st = .m)) = true
      rw [hw.cl (by decide)]
      exact hdirty
    have heq := (ccCtrlWrite_disables hu hon h0 h1 h2).trans (cacheOff_dirty hd)
    have hcl := hw.cl (by decide) cl
    generalize (pageWrite s (.cl cl) 0x100 v).st = u at heq hw hcl
    set c : Cluster := { u.cl cl with cc := { (u.cl cl).cc with enabled := false, invalidated := false, dirtyOff := true } } with hcdef
    have hk : Keeps [.clusters] u (u.setCl cl c) := State.setCl_keeps _ _ (by decide) (Keeps.refl _ u)
    have hr : Keeps [.page .cl] (u.setCl cl c) (raiseErr (u.setCl cl c) (.cl cl) 6) := raiseErr_keeps _ _ _ (by simp [classOf]) (Keeps.refl _ _)
    have hafter : (raiseErr (u.setCl cl c) (.cl cl) 6).cl cl = c := (hr.cl (by decide) cl).trans (setCl_cl_same _ _ _)
    refine ⟨_, congrArg Host.Outcome.next heq, ((hw.mono (by decide)).trans (hk.mono (by decide))).trans (hr.mono (by decide)), ?_, ?_, ?_, ?_, raiseErr_bit _ _ _ (by omega)⟩
    · rw [hafter]
    · rw [hafter]
    · rw [hafter]
    · rw [hafter, ← hcl]
  case dcEnds =>
    intro s n fl hc hm hb hl he hthr hr
    obtain ⟨hk, hsl, h0, h1, -⟩ := sliceCleared_after s n
    refine ⟨_, congrArg (fun u => Host.Outcome.next (settle u)) (clearEnd_slice hc hm hb hl he hthr hr), hk, ?_, ?_, ?_, h0, h1⟩
    · rw [hsl]
    · rw [hsl]
    · rw [hsl]
  case ccOffEnds =>
    intro s cl v fl hu hon h0 h1 h2 hc hm hl he hthr hr
    have hw := ccCtrl_written (cl := cl) hu v
    have hcl := hw.cl (by decide) cl
    have hregs : ∀ k, k < 0x1000 → k ≠ 0x100 → k ≠ 0x30 → k ≠ 0x3C → preg (pageWrite s (.cl cl) 0x100 v).st (.cl cl) k = preg s (.cl cl) k :=
      fun k hk ha hb hd => preg_pageWrite_other (ccCtrl_plain cl) hu _ _ hk (fun _ => ⟨ha, hb, hd⟩) (by simp)
    have hd : anyDirty (pageWrite s (.cl cl) 0x100 v).st (.cluster cl) = false := by
      change (((pageWrite s (.cl cl) 0x100 v).st.cl cl).cc.lines.any fun e => decide (e.2.st = .m)) = false
      rw [hcl, hl]
      rfl
    have heq := (ccCtrlWrite_disables hu hon h0 h1 h2).trans (cacheOff_clean hd)
    have hthr' := hregs 0x10C (by omega) (by omega) (by omega) (by omega)
    have hr' := hregs 8 (by omega) (by omega) (by omega) (by omega)
    generalize (pageWrite s (.cl cl) 0x100 v).st = u at heq hw hcl hthr' hr'
    set c : Cluster := { u.cl cl with cc := { (u.cl cl).cc with enabled := false, invalidated := false, dirtyOff := false } } with hcdef
    have hk : Keeps [.clusters] u (u.setCl cl c) := State.setCl_keeps _ _ (by decide) (Keeps.refl _ u)
    have hset : (u.setCl cl c).cl cl = c := setCl_cl_same _ _ _
    have hend : clearEnd (u.setCl cl c) (.cluster cl) = clusterCleared (u.setCl cl c) cl := by
      refine clearEnd_cluster (fl := fl) ?_ ?_ ?_ ?_ ?_ ?_
      · rw [hset, hcdef, hcl]; exact hc
      · rw [hset, hcdef, hcl]; exact hm
      · rw [hset, hcdef, hcl]; exact hl
      · rw [hset, hcdef, hcl]; exact he
      · exact hthr'.symm ▸ hthr
      · exact hr'.symm ▸ hr
    obtain ⟨hk2, hcl2, -⟩ := clusterCleared_after (u.setCl cl c) cl
    rw [hset] at hcl2
    have hexec : exec (.cacheEnable (.cluster cl) v true) s = .next (settle (clearEnd (ccCtrlWrite s cl v) (.cluster cl))) := rfl
    rw [heq, hend] at hexec
    refine ⟨_, hexec,
      ((hw.mono (by decide)).trans (hk.mono (by decide))).trans hk2, ?_, ?_, ?_⟩
    · rw [hcl2]
    · rw [hcl2]
    · rw [hcl2]

end Sys2Proof
end

section
/-! PROOFS. Answers and timeouts of CXL.cache requests (09 R366, R384, R386). -/

namespace Sys2Proof

open Sys2Proof.Machine

variable {s : State}

/-! ## After a write has its answer -/

theorem Keeps.cxl_wbWaiting {P : List Part} {s t : State} (h : Keeps P s t) (hc : Part.cxl ∉ P) : t.cxl.wbWaiting = s.cxl.wbWaiting :=
  have hcxl : { t.cxl with inta := false, msixQ := [] } = { s.cxl with inta := false, msixQ := [] } := h .cxl hc
  (congrArg Cxl.wbWaiting hcxl :)

theorem drainWrites_none (h : s.cxl.wq = []) : drainWrites s = s := by
  have hsame : { s.cxl with wq := [] } = s.cxl := by rw [← h]
  unfold drainWrites
  rw [h, hsame]
  split_ifs <;> rfl

theorem wbCheck_none (h : s.cxl.wbWaiting = false) : wbCheck s = s := by
  unfold wbCheck
  rw [h]
  rfl

theorem flushMsix_none (h : s.cxl.msixQ = []) : flushMsix s = s := by
  unfold flushMsix
  rw [h]
  rfl

/-- Messages sent change nothing but what has gone out. -/
theorem sendAll_same (vs : List (Fin 32)) (u : State) : (vs.foldl (fun u v => emit u (.msix v)) u).cxl = u.cxl ∧
    ∀ p k, preg (vs.foldl (fun u v => emit u (.msix v)) u) p k = preg u p k := by
  induction vs generalizing u with
  | nil => exact ⟨rfl, fun _ _ => rfl⟩
  | cons v vs ih => exact ih (emit u (.msix v))

theorem flushMsix_cxl (s : State) : (∃ q, (flushMsix s).cxl = { s.cxl with msixQ := q }) ∧ ∀ p k, preg (flushMsix s) p k = preg s p k := by
  unfold flushMsix
  extract_lets x t
  split
  · exact ⟨⟨s.cxl.msixQ, rfl⟩, fun _ _ => rfl⟩
  · obtain ⟨h2, h3⟩ := sendAll_same s.cxl.msixQ t
    exact ⟨⟨[], h2⟩, h3⟩

theorem flushMsix_same (s : State) : Keeps [] s (flushMsix s) ∧ (flushMsix s).cxl.wbWaiting = s.cxl.wbWaiting ∧ (flushMsix s).cxl.d2h = s.cxl.d2h ∧
    ∀ p k, preg (flushMsix s) p k = preg s p k := by
  obtain ⟨⟨q, hcxl⟩, hreg⟩ := flushMsix_cxl s
  refine ⟨fun x _ => ?_, by rw [hcxl], by rw [hcxl], hreg⟩
  by_cases hx : x = .cxl
  · rw [hx]
    change { (flushMsix s).cxl with inta := false, msixQ := [] } = { s.cxl with inta := false, msixQ := [] }
    rw [hcxl]
  · exact flushMsix_keeps (P := [.cxl]) (by decide) (Keeps.refl _ s) x (by simpa using hx)

/-- With no write held and no Cache Writeback waiting, messages alone go out before what waited goes on. -/
theorem afterWrite_none (hq : s.cxl.wq = []) (hw : s.cxl.wbWaiting = false) : afterWrite s = settle (flushMsix s) := by
  unfold afterWrite
  rw [drainWrites_none hq, wbCheck_none ((flushMsix_same s).2.1.trans hw)]

/-! ## Requests that end -/

/-- An error leaves every register but those of errors, whatever it says. -/
theorem preg_raiseErrX (s : State) {p q : Page} (src addr corr : Nat) (l i : Bool) {k : Nat} (hk : k < 0x1000) (h : q = p → errReg k = false)
    (h2 : q = .ep → k ≠ 0xA00) : preg (raiseErrX s p src addr corr l i) q k = preg s q k := by
  unfold raiseErrX
  extract_lets s2 m
  split_ifs
  · exact noteErr_preg _ _ _ hk h
  · rw [preg_raiseInt _ _ hk (fun e hk30 => absurd (h e) (by rw [hk30]; decide)) h2]
    exact noteErr_preg _ _ _ hk h

theorem dropD2h_keeps' (s : State) (i : Nat) : Keeps [.cxl] s (dropD2h s i) := dropD2h_keeps _ (by decide) (Keeps.refl _ s)

theorem preg_dropD2h (s : State) (i : Nat) (p : Page) (k : Nat) : preg (dropD2h s i) p k = preg s p k := rfl

/-- The answer to a write. -/
theorem hostAnswers_write {i : Nat} {d : D2h} {w : HeldWrite} {res : HostAnswer} (h : s.cxl.d2h[i]? = some d) (hw : d.w = some w) :
    hostAnswers s i res = afterWrite (if res.error then responseLost (dropD2h s i) w else if d.op = 2 then mergeWrite (dropD2h s i) w res else dropD2h s i) := by
  unfold hostAnswers
  simp only [h, hw]

/-- The answer to a core's access, while nothing holds it. -/
theorem hostAnswers_access {i k : Nat} {d : D2h} {a : GAccess} {res : HostAnswer} (h : s.cxl.d2h[i]? = some d) (hw : d.w = none)
    (ha : d2hAccess s d = some (k, a)) (hf : s.frz.on = false) (hs : stopped s = false) : hostAnswers s i res = accessDone s d.core k res := by
  unfold hostAnswers
  simp only [h, hw, ha, hf, hs, Bool.or_self, Bool.false_eq_true, if_false]

/-- The access that a request was for is in its core's list, and is one to the host. -/
theorem d2hAccess_access {d : D2h} {k : Nat} {a : GAccess} (h : d2hAccess s d = some (k, a)) : (s.core d.core).access[k]? = some a ∧ a.host = true := by
  unfold d2hAccess at h
  rw [Option.map_eq_some_iff] at h
  obtain ⟨x, hfind, hx⟩ := h
  obtain ⟨rfl, rfl⟩ := Prod.mk.inj hx
  have hmem := List.mem_of_find?_eq_some hfind
  have hp := List.find?_some hfind
  simp only [Bool.and_eq_true] at hp
  obtain ⟨⟨hh, -⟩, -⟩ := hp
  exact ⟨List.mk_mem_zipIdx_iff_getElem?.mp hmem, hh⟩

/-! ## Accesses that end in an exception -/

theorem haltCore_access (s : State) (id : Fin 256) (cause : Byte) (pc : W16) (corr : Nat) :
    ((haltCore s id cause pc corr).core id).access = (s.core id).access := by
  have hleave : (leaveQueues s id).core id = s.core id :=
    (leaveQueues_keeps (P := [.locks]) id (by decide) (Keeps.refl _ s)).core (by decide) id
  have hreport : ∀ (u : State) (a b c : Nat) (l : Bool), (raiseInt (raiseErrX u (.gc id) a b c l false) (.gc id) 16).core id = u.core id :=
    fun u a b c l => (raiseInt_keeps (P := [.page .gc]) (.gc id) 16 (by simp [classOf]) (raiseErrX_keeps (.gc id) a b c l false (by simp [classOf])
      (Keeps.refl _ u))).core (by decide) id
  unfold haltCore
  simp only [hreport, setCore_core_same, hleave]

theorem forgotten_same (t : State) (host : Bool) (k : Option Nat) : (∀ id, (forgotten t host k).core id = t.core id) ∧
    (forgotten t host k).cxl.wq = t.cxl.wq ∧ (forgotten t host k).cxl.wbWaiting = t.cxl.wbWaiting := by
  unfold forgotten
  split
  · split_ifs <;> exact ⟨fun _ => rfl, rfl, rfl⟩
  · exact ⟨fun _ => rfl, rfl, rfl⟩

theorem dropAccess_core (s : State) (id : Fin 256) (i : Nat) (a : GAccess) :
    (dropAccess s id i a).core id = { s.core id with access := dropAt (s.core id).access i } := by
  rw [dropAccess_eq, (forgotten_same _ _ _).1, setCore_core_same]

/-- An access that ends in an error leaves what is held for the host. -/
theorem accessError_held (s : State) (id : Fin 256) (i : Nat) (a : GAccess) (corr : Nat) :
    (accessError s id i a corr).cxl.wq = s.cxl.wq ∧ (accessError s id i a corr).cxl.wbWaiting = s.cxl.wbWaiting := by
  have hset := setCore_keeps' s id { s.core id with access := dropAt (s.core id).access i }
  have hdrop : (dropAccess s id i a).cxl.wq = s.cxl.wq ∧ (dropAccess s id i a).cxl.wbWaiting = s.cxl.wbWaiting := by
    rw [dropAccess_eq]
    obtain ⟨-, h1, h2⟩ := forgotten_same (s.setCore id { s.core id with access := dropAt (s.core id).access i }) a.host
      (s.cxl.d2h.findIdx? fun d => d.w.isNone && decide (d.core = id) && decide (d.line.toNat = a.pa.toNat / 64))
    exact ⟨h1.trans (hset.cxl_wq (by decide)), h2.trans (hset.cxl_wbWaiting (by decide))⟩
  have hk : Keeps [.page .ml, .page .sd, .page .gc, .cores, .locks, .sd] (dropAccess s id i a) (accessError s id i a corr) :=
    keeps_ite (fun _ => accessWake_keeps _ (by decide) (Keeps.refl _ _)) (fun _ => haltLate_keeps _ _ _ _ (by decide) (Keeps.refl _ _))
  exact ⟨(hk.cxl_wq (by decide)).trans hdrop.1, (hk.cxl_wbWaiting (by decide)).trans hdrop.2⟩

/-- A load that fails halts its running core with GLOBAL_ERR, at the address of its bundle, and is forgotten (04 R140). -/
theorem accessError_halts {id : Fin 256} {i : Nat} {a : GAccess} (corr : Nat) (hk : a.kind.isStore = false) (hst : (s.core id).st = .run) :
    ((accessError s id i a corr).core id).st = .halt ∧ ((accessError s id i a corr).core id).exc = 0x09 ∧
      ((accessError s id i a corr).core id).excPc = a.pc ∧ ((accessError s id i a corr).core id).access = dropAt (s.core id).access i := by
  have hcore := dropAccess_core s id i a
  have heq : accessError s id i a corr = haltCore (dropAccess s id i a) id 0x09 a.pc corr := by
    unfold accessError
    extract_lets s1
    rw [if_neg (by rw [hk]; exact Bool.false_ne_true)]
    unfold haltLate
    rw [show s1.core id = { s.core id with access := dropAt (s.core id).access i } from hcore, hst]
  obtain ⟨h1, h2, h3, -⟩ := haltCore_core (dropAccess s id i a) id 0x09 a.pc corr
  rw [heq]
  exact ⟨h1, h2, h3, by rw [haltCore_access, hcore]⟩

/-- The completion of a host access that failed. -/
theorem accessDone_fails {id : Fin 256} {i : Nat} {a : GAccess} {res : HostAnswer} (ha : (s.core id).access[i]? = some a) (hs : a.sent = false)
    (ho : accessInOrder (s.core id) i a = true) (hh : a.host = true) (he : res.error = true) : accessDone s id i res = accessError s id i a := by
  unfold accessDone
  simp only [ha, hs, ho, hh, he, Bool.false_eq_true, Bool.true_eq_false, or_self, if_false, true_or, and_self, if_true]

/-! ## The line that RdOwn brought -/

section
variable {l : Line}

/-- The first enabled way, in a slice that holds nothing. -/
theorem pickWay_empty (hl : (s.slice (homeOf l)).lines = []) (hw : slWays s (homeOf l) ≠ []) : ∃ w, pickWay s l = (s, some w) := by
  obtain ⟨w, ws, hws⟩ := List.exists_cons_of_ne_nil hw
  have hget : slGet s l = noLine := slGet_absent (by unfold slLine; rw [hl]; rfl)
  refine ⟨w, ?_⟩
  unfold pickWay setEntries
  simp only [hget, noLine, hl, hws, List.filter_nil, List.any_nil, Bool.not_false, List.find?_cons]

/-- The way that a line with data has. -/
theorem pickWay_held {d : BitVec 512} (h : (slGet s l).data = some d) : pickWay s l = (s, some (slGet s l).way.toNat) := by
  unfold pickWay
  simp only [h]

/-- A slice that is on takes a host line while caching is not disabled. -/
theorem slAllocs_on (he : (s.slice (homeOf l)).enabled = true) (hc : s.cxl.disCache = false) : slAllocs s l = true := by
  simp [slAllocs, he, hostCaching, hc]

/-- The entry of a host line that RdOwn has just brought. -/
def ownedLine (res : HostAnswer) (w : Nat) : SLine :=
  { noLine with data := some (res.data.setWidth 512), poison := if res.poison then 3 else 0, way := BitVec.ofNat 4 w, dirty := false, cxl := some .e }

/-- An empty slice takes the line that RdOwn brought. -/
theorem ownHost_empty {res : HostAnswer} (hl : (s.slice (homeOf l)).lines = []) (hw : slWays s (homeOf l) ≠ []) (he : (s.slice (homeOf l)).enabled = true)
    (hc : s.cxl.disCache = false) : ∃ w, ownHost s l res = (setSl s l (ownedLine res w), res.data.setWidth 512, if res.poison then 3 else 0) := by
  have habs : slLine s l = none := by unfold slLine; rw [hl]; rfl
  obtain ⟨w, hpick⟩ := pickWay_empty hl hw
  refine ⟨w, ?_⟩
  unfold ownHost
  simp only [dropCopies_absent habs, slGet_absent habs, hpick, slAllocs_on he hc]
  rfl

/-- Data that home is to keep of a line that its slice holds stay in its way. -/
theorem homeStore_held {d0 : BitVec 512} (ha : slAllocs s l = true) (hd : (slGet s l).data = some d0) (d : BitVec 512) (p : BitVec 2) :
    homeStore s l d p = setSl s l { slGet s l with
      data := some d, poison := p, way := BitVec.ofNat 4 (slGet s l).way.toNat, dirty := true, cxl := if l.host then some .m else none } := by
  unfold homeStore
  simp only [ha, if_true, pickWay_held hd]

/-- The bytes of a write join the line that RdOwn brought, which becomes M. -/
theorem mergeOwned_empty {res : HostAnswer} (hh : l.host = true) (hl : (s.slice (homeOf l)).lines = []) (hw : slWays s (homeOf l) ≠ [])
    (he : (s.slice (homeOf l)).enabled = true) (hc : s.cxl.disCache = false) (d : BitVec 512) (mask : BitVec 64) (p : BitVec 2) :
    Keeps [.slices] s (mergeOwned s l res d mask p) ∧ (slGet (mergeOwned s l res d mask p) l).data = some (mergeLine (res.data.setWidth 512) d mask) ∧
      (slGet (mergeOwned s l res d mask p) l).cxl = some .m ∧ (slGet (mergeOwned s l res d mask p) l).dirty = true := by
  obtain ⟨w, hown⟩ := ownHost_empty (res := res) hl hw he hc
  set u := setSl s l (ownedLine res w) with hu
  have hget : slGet u l = ownedLine res w := by
    rw [hu, slGet_setSl_same]
    rfl
  have halloc : slAllocs u l = true := slAllocs_on (by rw [hu, setSl_slice_enabled]; exact he) hc
  have heq : mergeOwned s l res d mask p = setSl u l { ownedLine res w with
      data := some (mergeLine (res.data.setWidth 512) d mask), poison := mergePoison (if res.poison then 3 else 0) p mask,
      way := BitVec.ofNat 4 (ownedLine res w).way.toNat, dirty := true, cxl := some .m } := by
    unfold mergeOwned
    simp only [hown]
    rw [homeStore_held halloc (by rw [hget]; rfl), hget, if_pos hh]
  have hk : Keeps [.slices] s u := setSl_keeps _ _ (by decide) (Keeps.refl _ s)
  rw [heq, slGet_setSl_same]
  exact ⟨hk.trans (setSl_keeps _ _ (by decide) (Keeps.refl _ u)), rfl, rfl, rfl⟩

end

/-- A held write whose request times out: counted, reported at the endpoint, and its response lost. -/
theorem requestFails_write {i : Nat} {d : D2h} {w : HeldWrite} {k : W16} (hw : d.w = some w) (hk : w.response = some k) :
    ∃ u, requestFails (cntPreg s .ep 0x14C 1) d i = u ∧ Keeps [.page .ep, .page .fm, .cxl] s u ∧ u.cxl.d2h = dropAt s.cxl.d2h i ∧ u.cxl.wq = s.cxl.wq ∧
      u.cxl.wbWaiting = s.cxl.wbWaiting ∧ preg u .ep 0x14C = satAdd (preg s .ep 0x14C) 1 ∧ bit (preg u .ep 0x10) 1 = true ∧ bit (preg u .fm 0x10) 2 = true := by
  have heq : requestFails (cntPreg s .ep 0x14C 1) d i =
      raiseErr (raiseErrX (dropD2h (cntPreg s .ep 0x14C 1) i) .ep 1 (d.line.toNat * 64) (d2hTag (cntPreg s .ep 0x14C 1) d) false false) .fm 2 k.toNat := by
    unfold requestFails
    simp only [hw]
    unfold responseLost
    rw [hk]
  have k1 : Keeps [.page .ep, .cxl] s (dropD2h (cntPreg s .ep 0x14C 1) i) :=
    dropD2h_keeps _ (by decide) (cntPreg_keeps _ _ _ (by omega) (by decide) (Keeps.refl _ s))
  have h1 : (dropD2h (cntPreg s .ep 0x14C 1) i).cxl = { s.cxl with d2h := dropAt s.cxl.d2h i } := rfl
  have c1 : preg (dropD2h (cntPreg s .ep 0x14C 1) i) .ep 0x14C = satAdd (preg s .ep 0x14C) 1 := by
    rw [preg_dropD2h, preg_cntPreg _ _ (by omega) (by omega), if_pos ⟨rfl, rfl⟩]
  generalize d2hTag (cntPreg s .ep 0x14C 1) d = tag at heq
  generalize dropD2h (cntPreg s .ep 0x14C 1) i = u1 at heq k1 h1 c1
  have k2 : Keeps [.page .ep] u1 (raiseErrX u1 .ep 1 (d.line.toNat * 64) tag false false) := raiseErrX_keeps _ _ _ _ _ _ (by decide) (Keeps.refl _ u1)
  have c2 : preg (raiseErrX u1 .ep 1 (d.line.toNat * 64) tag false false) .ep 0x14C = preg u1 .ep 0x14C :=
    preg_raiseErrX _ _ _ _ _ _ (by omega) (fun _ => by decide) (by simp)
  have b2 : bit (preg (raiseErrX u1 .ep 1 (d.line.toNat * 64) tag false false) .ep 0x10) 1 = true := by
    rw [raiseErrX_stat, bit_or]
    exact Bool.or_eq_true_iff.mpr (.inr (by decide))
  generalize raiseErrX u1 .ep 1 (d.line.toNat * 64) tag false false = u2 at heq k2 c2 b2
  have k3 : Keeps [.page .fm] u2 (raiseErr u2 .fm 2 k.toNat) := raiseErr_keeps _ _ _ (by decide) (Keeps.refl _ u2)
  have r3 : ∀ o, o < 0x1000 → o ≠ 0xA00 → preg (raiseErr u2 .fm 2 k.toNat) .ep o = preg u2 .ep o := fun o ho hm =>
    preg_raiseErr _ _ _ ho (by simp) (fun _ => hm)
  refine ⟨_, heq, (k1.mono (by decide)).trans ((k2.mono (by decide)).trans (k3.mono (by decide))), ?_, ?_, ?_, ?_, ?_, raiseErr_bit _ _ _ (by omega)⟩
  · rw [k3.cxl_d2h (by decide), k2.cxl_d2h (by decide), h1]
  · rw [k3.cxl_wq (by decide), k2.cxl_wq (by decide), h1]
  · rw [k3.cxl_wbWaiting (by decide), k2.cxl_wbWaiting (by decide), h1]
  · rw [r3 _ (by omega) (by omega), c2, c1]
  · rw [r3 _ (by omega) (by omega), b2]

/-! ## The statement -/

/-- The parts that a message at most changes after a request has ended. -/
theorem flushed {P : List Part} {s t : State} (h : Keeps P s t) : Keeps P s (flushMsix t) := h.trans ((flushMsix_same t).1.mono (by simp))

/-- Settles O38: answers of the host, and requests that time out. -/
theorem hostAnswers : Obligations.HostAnswers := by
  unfold Obligations.HostAnswers
  refine ⟨?done, ?merged, ?lost, ?failed, ?timedOut, ?loadTimedOut, ?disabled⟩
  case done =>
    intro s i d w res hd hw hop he hq hm hwb
    have heq : Machine.hostAnswers s i res = settle (dropD2h s i) := by
      rw [hostAnswers_write hd hw, he, if_neg Bool.false_ne_true, if_neg hop, afterWrite_none (s := dropD2h s i) hq hwb, flushMsix_none (s := dropD2h s i) hm]
    exact ⟨_, congrArg Host.Outcome.next heq, dropD2h_keeps' s i, rfl, rfl⟩
  case merged =>
    intro s i d w res l hd hw hop he hl hlines hon hdis hways hq hm hwb
    obtain ⟨hk, hdata, hcxl, hdirty⟩ := mergeOwned_empty (s := dropD2h s i) (l := l) (res := res) (by rw [hl]; rfl) hlines hways hon hdis
      (BitVec.ofNat 512 (bytesNat w.bytes * 2 ^ (8 * (w.addr.toNat % 64))))
      (BitVec.ofNat 64 ((2 ^ w.bytes.length - 1) * 2 ^ (w.addr.toNat % 64))) (if w.poison then 3 else 0)
    have hmerge : mergeWrite (dropD2h s i) w res = mergeOwned (dropD2h s i) l res (BitVec.ofNat 512 (bytesNat w.bytes * 2 ^ (8 * (w.addr.toNat % 64))))
        (BitVec.ofNat 64 ((2 ^ w.bytes.length - 1) * 2 ^ (w.addr.toNat % 64))) (if w.poison then 3 else 0) := by rw [hl]; rfl
    have heq : Machine.hostAnswers s i res = afterWrite (mergeWrite (dropD2h s i) w res) := by
      rw [hostAnswers_write hd hw, he, if_neg Bool.false_ne_true, if_pos hop]
    rw [hmerge] at heq
    have hcx : (mergeOwned (dropD2h s i) l res (BitVec.ofNat 512 (bytesNat w.bytes * 2 ^ (8 * (w.addr.toNat % 64))))
        (BitVec.ofNat 64 ((2 ^ w.bytes.length - 1) * 2 ^ (w.addr.toNat % 64))) (if w.poison then 3 else 0)).cxl.wq = [] := (hk.cxl_wq (by decide)).trans hq
    have hwb' := (hk.cxl_wbWaiting (by decide)).trans (show (dropD2h s i).cxl.wbWaiting = false from hwb)
    have hd2h := hk.cxl_d2h (by decide)
    generalize mergeOwned (dropD2h s i) l res (BitVec.ofNat 512 (bytesNat w.bytes * 2 ^ (8 * (w.addr.toNat % 64))))
      (BitVec.ofNat 64 ((2 ^ w.bytes.length - 1) * 2 ^ (w.addr.toNat % 64))) (if w.poison then 3 else 0) = u at *
    obtain ⟨hfk, -, hfd, -⟩ := flushMsix_same u
    have hsl : slGet (flushMsix u) l = slGet u l := by unfold slGet slLine; rw [hfk.slice (by simp)]
    refine ⟨flushMsix u, congrArg Host.Outcome.next (heq.trans (afterWrite_none hcx hwb')), ?_, ?_, ?_, ?_, ?_⟩
    · exact flushed (((dropD2h_keeps' s i).mono (by decide)).trans (hk.mono (by decide)))
    · exact hfd.trans hd2h
    · rw [hsl]; exact hdata
    · rw [hsl]; exact hcxl
    · rw [hsl]; exact hdirty
  case lost =>
    intro s i d w res k hd hw hk he hq hm hwb
    set u := raiseErr (dropD2h s i) .fm 2 k.toNat with hu
    have huk : Keeps [.page .fm] (dropD2h s i) u := raiseErr_keeps _ _ _ (by decide) (Keeps.refl _ _)
    have heq : Machine.hostAnswers s i res = settle (flushMsix u) := by
      have hl : responseLost (dropD2h s i) w = u := by unfold responseLost; rw [hk]
      rw [hostAnswers_write hd hw, he, if_pos rfl, hl]
      exact afterWrite_none ((huk.cxl_wq (by decide)).trans hq) ((huk.cxl_wbWaiting (by decide)).trans hwb)
    obtain ⟨-, -, hfd, hfp⟩ := flushMsix_same u
    refine ⟨flushMsix u, congrArg Host.Outcome.next heq, flushed (((dropD2h_keeps' s i).mono (by decide)).trans (huk.mono (by decide))), ?_, ?_⟩
    · exact hfd.trans (huk.cxl_d2h (by decide))
    · rw [hfp]
      exact raiseErr_bit _ _ _ (by omega)
  case failed =>
    intro s i k d a rd n res hd hw ha hs hf hst ho hkind he hrun hwaits
    obtain ⟨hacc, hh⟩ := d2hAccess_access ha
    have heq : Machine.hostAnswers s i res = accessError s d.core k a := (hostAnswers_access hd hw ha hf hst).trans (accessDone_fails hacc hs ho hh he)
    obtain ⟨h1, h2, -, h4⟩ := accessError_halts (s := s) (id := d.core) (i := k) (a := a) 0 (by rw [hkind]; rfl) hrun
    exact ⟨_, congrArg Host.Outcome.next heq, accessError_keeps _ _ _ _ (by decide) (Keeps.refl _ s), h1, h2, h4⟩
  case timedOut =>
    intro s i d w k hto hd hw hk hq hm hwb
    obtain ⟨u, hfails, ku, hud, hq', hwb', hcount, hbit, hfm⟩ := requestFails_write (s := s) (i := i) hw hk
    have heq : exec (.completionTimeout i) s = .next (settle (flushMsix u)) := by
      refine congrArg Host.Outcome.next ((if_neg (by rw [hto]; exact Bool.false_ne_true)).trans ?_)
      simp only [hd]
      rw [hfails, afterWrite_none (hq'.trans hq) (hwb'.trans hwb)]
    obtain ⟨-, -, hfd, hfp⟩ := flushMsix_same u
    exact ⟨flushMsix u, heq, flushed ku, hfd.trans hud, (hfp _ _).trans hcount, (congrArg (bit · 1) (hfp _ _)).trans hbit,
      (congrArg (bit · 2) (hfp _ _)).trans hfm⟩
  case loadTimedOut =>
    intro s i k d a rd n hto hd hw ha hkind hrun hwaits hq hm hwb
    set u := cntPreg s .ep 0x14C 1 with hu
    have ku : Keeps [.page .ep] s u := cntPreg_keeps _ _ _ (by omega) (by decide) (Keeps.refl _ s)
    have hau : d2hAccess u d = some (k, a) := ha
    set t := accessError u d.core k a (d2hTag u d) with ht
    have kt : Keeps [.page .ml, .page .sd, .page .gc, .cores, .locks, .sd, .cxl] u t := accessError_keeps _ _ _ _ (by decide) (Keeps.refl _ u)
    obtain ⟨h1, h2, h3, -⟩ := accessError_halts (s := u) (id := d.core) (i := k) (a := a) (d2hTag u d) (by rw [hkind]; rfl) hrun
    have hfails : requestFails u d i = t := by
      unfold requestFails
      simp only [hw, hau]
      rfl
    obtain ⟨hwq, hwait⟩ := accessError_held u d.core k a (d2hTag u d)
    have hcx : t.cxl.wq = [] ∧ t.cxl.wbWaiting = false := ⟨hwq.trans hq, hwait.trans hwb⟩
    have heq : exec (.completionTimeout i) s = .next (settle (flushMsix t)) := by
      refine congrArg Host.Outcome.next ((if_neg (by rw [hto]; exact Bool.false_ne_true)).trans ?_)
      simp only [hd]
      rw [hfails, afterWrite_none hcx.1 hcx.2]
    obtain ⟨hfk, -, -, hfp⟩ := flushMsix_same t
    refine ⟨flushMsix t, heq, flushed ((ku.mono (by decide)).trans (kt.mono (by decide))), ?_, ?_, ?_, ?_⟩
    · rw [hfk.core (by simp)]; exact h1
    · rw [hfk.core (by simp)]; exact h2
    · rw [hfk.core (by simp)]; exact h3
    · rw [hfp, kt.preg (by decide) (by omega) (by simp) (by simp)]
      exact (preg_cntPreg _ _ (by omega) (by omega)).trans (if_pos ⟨rfl, rfl⟩)
  case disabled =>
    intro s i hto
    exact ⟨s, congrArg Host.Outcome.next (if_pos hto), Keeps.refl _ s, rfl⟩

end Sys2Proof
end

section
/-! PROOFS. Bundles packed, slots, and sending on a crossing port (10 R424, R429 to R437). -/

namespace Sys2Proof

open Sys2Proof.Machine

variable {s : State} {n : Fin 8}

/-! ## Closing open bundles -/

/-- A bundle that waits for nothing but its own closing: it can join its queue. -/
def OpenBundle.complete (o : OpenBundle) : Bool := o.closing && o.reading.isEmpty

/-- One step of what sends on the closed bundles of a port. -/
def settleOne (n : Fin 8) (t : State) (o : OpenBundle) : State :=
  if OpenBundle.complete o && decide ((t.port n).opens.find? (fun x => decide (x.dst = o.dst)) = some o) then closeBundle t n o else t

theorem settleOpens_eq (s : State) (n : Fin 8) : settleOpens s n = (s.port n).opens.foldl (settleOne n) s := rfl

theorem settleOne_incomplete {o : OpenBundle} (t : State) (h : OpenBundle.complete o = false) : settleOne n t o = t := if_neg (by simp [h])

theorem settleOnes_incomplete {os : List OpenBundle} (h : ∀ o ∈ os, OpenBundle.complete o = false) (t : State) : os.foldl (settleOne n) t = t := by
  induction os generalizing t with
  | nil => rfl
  | cons o os ih =>
    rw [List.foldl_cons, settleOne_incomplete t (h o List.mem_cons_self)]
    exact ih (fun x hx => h x (List.mem_cons_of_mem _ hx)) t

/-- The open bundle for a destination as closing leaves it. -/
def closeFirst (d : Byte) (o : OpenBundle) : OpenBundle := if o.accepts d then { o with closing := true } else o

theorem closeFirst_dst (d : Byte) (o : OpenBundle) : (closeFirst d o).dst = o.dst := by
  unfold closeFirst
  split_ifs <;> rfl

theorem closeFirst_other {d : Byte} {o : OpenBundle} (h : ¬o.dst = d) : closeFirst d o = o := if_neg (by simp [OpenBundle.accepts, h])

theorem closeFirst_refuses (d : Byte) (o : OpenBundle) : (closeFirst d o).accepts d = false := by
  unfold closeFirst
  split_ifs with h
  · simp [OpenBundle.accepts]
  · simpa using h

theorem closeFor_eq (s : State) (n : Fin 8) (d : Byte) : closeFor s n d =
    settleOpens (s.setPort n { s.port n with opens := (s.port n).opens.map (closeFirst d) }) n := rfl

/-- Sending a bundle on takes it from the open ones. -/
theorem closeBundle_port (t : State) (n : Fin 8) (o : OpenBundle) : ((closeBundle t n o).port n).opens = (t.port n).opens.eraseP fun x => decide (x.dst = o.dst) := by
  unfold closeBundle
  rw [setPort_port_same]

/-- What holds of every open bundle holds of those that are left. -/
theorem settleOnes_all {q : OpenBundle → Prop} (os : List OpenBundle) {t : State} (h : ∀ o ∈ (t.port n).opens, q o) :
    ∀ o ∈ ((os.foldl (settleOne n) t).port n).opens, q o := by
  induction os generalizing t with
  | nil => exact h
  | cons a os ih =>
    refine ih fun o ho => ?_
    unfold settleOne at ho
    split_ifs at ho
    · rw [closeBundle_port] at ho
      exact h o (List.mem_of_mem_eraseP ho)
    · exact h o ho

/-- No open bundle takes messages for a destination once those for it have been closed. -/
theorem closeFor_refuses (s : State) (n : Fin 8) (d : Byte) : ((closeFor s n d).port n).opens.any (fun x => x.accepts d) = false := by
  refine List.any_eq_false.mpr fun o ho => ?_
  have hall := settleOnes_all (n := n) (q := fun x => x.accepts d = false) ((s.port n).opens.map (closeFirst d))
    (t := s.setPort n { s.port n with opens := (s.port n).opens.map (closeFirst d) }) (fun o ho => by
      rw [setPort_port_same] at ho
      obtain ⟨x, -, rfl⟩ := List.mem_map.mp ho
      exact closeFirst_refuses d x)
  rw [closeFor_eq, settleOpens_eq, setPort_port_same] at ho
  rw [hall o ho]
  exact Bool.false_ne_true

theorem closeFor_keeps' (s : State) (n : Fin 8) (d : Byte) : Keeps [.ports] s (closeFor s n d) := closeFor_keeps _ _ (by decide) (Keeps.refl _ s)

/-- The only open bundle for a destination joins the queue, where no other waits for its closing alone. -/
theorem closeFor_only {d : Byte} {o : OpenBundle} (hone : (s.port n).opens.filter (fun x => decide (x.dst = d)) = [o]) (hreading : o.reading = [])
    (hrest : ∀ x ∈ (s.port n).opens, OpenBundle.complete x = false) (hopen : o.closing = false) : ∃ pre post : List OpenBundle,
      (∀ x ∈ pre ++ post, ¬x.dst = d) ∧ o.dst = d ∧ closeFor s n d =
        closeBundle (s.setPort n { s.port n with opens := pre ++ { o with closing := true } :: post }) n { o with closing := true } := by
  obtain ⟨pre, post, hsplit, hpre, hd, hpost⟩ := List.filter_eq_cons_iff.mp hone
  have hdst : o.dst = d := by simpa using hd
  have hpre' : ∀ x ∈ pre, ¬x.dst = d := fun x hx => by simpa using hpre x hx
  have hpost' : ∀ x ∈ post, ¬x.dst = d := fun x hx => by simpa using List.filter_eq_nil_iff.mp hpost x hx
  have hfirst : closeFirst d o = { o with closing := true } := if_pos (by simp [OpenBundle.accepts, hdst, hopen])
  have hmap : (s.port n).opens.map (closeFirst d) = pre ++ { o with closing := true } :: post := by
    rw [hsplit, List.map_append, List.map_cons, hfirst, List.map_congr_left (fun x hx => closeFirst_other (hpre' x hx)),
      List.map_congr_left (fun x hx => closeFirst_other (hpost' x hx)), List.map_id', List.map_id']
  refine ⟨pre, post, fun x hx => ?_, hdst, ?_⟩
  · rcases List.mem_append.mp hx with h | h
    · exact hpre' x h
    · exact hpost' x h
  set u := s.setPort n { s.port n with opens := pre ++ { o with closing := true } :: post } with hu
  have hopens : (u.port n).opens = pre ++ { o with closing := true } :: post := by rw [hu, setPort_port_same]
  have hfind : (u.port n).opens.find? (fun x => decide (x.dst = o.dst)) = some { o with closing := true } := by
    rw [hopens, List.find?_append, List.find?_eq_none.mpr (fun x hx => by simpa [hdst] using hpre' x hx)]
    simp
  have hgo : settleOne n u { o with closing := true } = closeBundle u n { o with closing := true } := by
    refine if_pos ?_
    rw [hfind]
    simp [OpenBundle.complete, hreading]
  have hbefore : ∀ x ∈ pre, OpenBundle.complete x = false := fun x hx => hrest x (by rw [hsplit]; exact List.mem_append_left _ hx)
  have hbehind : ∀ x ∈ post, OpenBundle.complete x = false := fun x hx =>
    hrest x (by rw [hsplit]; exact List.mem_append_right _ (List.mem_cons_of_mem _ hx))
  rw [closeFor_eq, hmap, settleOpens_eq, ← hu, hopens, List.foldl_append, List.foldl_cons, settleOnes_incomplete hbefore, hgo,
    settleOnes_incomplete hbehind]

/-! ## Slots -/

theorem closeSlot_none (h : (s.port n).slot = none) : closeSlot s n = s := by
  unfold closeSlot
  simp only [h]

theorem closeSlot_open {i : Fin 32} {start len : Nat} {d : Byte} (h : (s.port n).slot = some i)
    (he : slotEntry s n (s.port n).bank i.val = some (start, len, d)) :
    closeSlot s n = (closeFor s n d).setPort n { (closeFor s n d).port n with slot := none } := by
  unfold closeSlot
  simp only [h, he]

/-- A slot that opens now, where the port's slot does not govern. -/
theorem openSlot_opens {i : Fin 32} {start len : Nat} {d : Byte} (he : slotEntry s n (s.port n).bank i.val = some (start, len, d))
    (hrun : s.tide.dispatching = true) (hfrom : start ≤ s.tide.phase.toNat) (hto : s.tide.phase.toNat < start + len) (hnone : (s.port n).slot = none) :
    openSlot s n i = (closeFor s n d).setPort n { (closeFor s n d).port n with slot := some i } := by
  unfold openSlot
  simp only [he, hrun, hnone, show ¬s.tide.phase.toNat < start by omega, show ¬start + len ≤ s.tide.phase.toNat by omega, Bool.true_eq_false, or_self,
    if_false, Option.isSome_none, Bool.false_and, Bool.false_eq_true, closeSlot_none hnone, reduceCtorEq]

/-- The port has told that slots overlap. -/
def overlapTold (s : State) (n : Fin 8) (i : Fin 32) : State := raiseErr (s.setPort n { s.port n with overlapSet := true }) (.xl n) 18 i.val

/-- The open slot and the destination of the next are closed. -/
def slotCleared (u : State) (n : Fin 8) (d : Byte) : State := closeFor (closeSlot u n) n d

/-- A slot that overlaps the open one: the port tells it once a step. -/
theorem openSlot_overlaps {i j : Fin 32} {start len : Nat} {d : Byte} (he : slotEntry s n (s.port n).bank i.val = some (start, len, d))
    (hrun : s.tide.dispatching = true) (hfrom : start ≤ s.tide.phase.toNat) (hto : s.tide.phase.toNat < start + len) (hj : (s.port n).slot = some j)
    (hne : j ≠ i) (hset : (s.port n).overlapSet = false) :
    openSlot s n i = if j.val < i.val then overlapTold s n i
      else (slotCleared (overlapTold s n i) n d).setPort n { (slotCleared (overlapTold s n i) n d).port n with slot := some i } := by
  have hij : ¬(some j : Option (Fin 32)) = some i := fun h => hne (Option.some.inj h)
  unfold openSlot slotCleared overlapTold
  simp only [he, hrun, hj, hset, hij, show ¬s.tide.phase.toNat < start by omega, show ¬start + len ≤ s.tide.phase.toNat by omega, Bool.true_eq_false, or_self,
    if_false, Option.isSome_some, Bool.not_false, Bool.and_self, if_true, decide_eq_true_eq]

/-! ## Sending -/

/-- The port after its next bundle has gone out. -/
def sentPort (p : Port) (b : TxBundle) (late : Bool) : Port :=
  { p with txq := dropHead b.dst p.txq, lastDst := b.dst, replayBuf := p.replayBuf ++ [.bundle { b with late := b.late || late, via := none }]
           credits := if b.reserved then p.credits else p.credits.set (poolOf b.svc b.vc) (p.credits.get (poolOf b.svc b.vc) - 1) }

/-- A port's own bundle goes out. -/
def sentOut (u : State) (n : Fin 8) (b : TxBundle) (late : Bool) : State :=
  emitUnit (cntPreg (u.setPort n (sentPort (u.port n) b late)) (.xl n) 0x180 1) n (.bundle { b with late := b.late || late })

/-- A bundle that is not LATE yet has passed its deadline. -/
def passes (s : State) (b : TxBundle) : Bool := !b.late && b.deadline.any fun dl => pastDeadline s dl 0

theorem transmit_own {b : TxBundle} (hup : (s.port n).st = .up) (hb : nextBundle s n = some b) (hv : b.via = none) :
    transmit s n = sentOut (if passes s b then markLate s n b.dst.toNat b.seq.toNat b.corr.toNat else s) n b (passes s b) := by
  obtain ⟨svc, vc, deadline, late, resync, src, dst, seq, hops, msgs, payload, via, corr⟩ := b
  obtain rfl : via = none := hv
  unfold transmit
  simp only [hup, hb, ne_eq, not_true_eq_false, if_false]
  cases deadline with
  | none => simp only [Bool.and_false, passes, Option.any_none]; rfl
  | some dl => simp only [Option.isNone_none, Bool.true_and, passes, Option.any_some]; rfl

theorem sentOut_after (u : State) (n : Fin 8) (b : TxBundle) (late : Bool) : Keeps [.page .xl, .ports] u (sentOut u n b late) ∧
    (sentOut u n b late).port n = sentPort (u.port n) b late ∧
    (∀ k, k < 0x1000 → k ≠ 0x180 → preg (sentOut u n b late) (.xl n) k = preg u (.xl n) k) ∧ preg (sentOut u n b late) (.xl n) 0x180 = satAdd (preg u (.xl n) 0x180) 1 ∧
    (sentOut u n b late).out = u.out ++ [.bundle n (headerCell { b with late := b.late || late }) (dirCells b.msgs) b.payload] := by
  set v := cntPreg (u.setPort n (sentPort (u.port n) b late)) (.xl n) 0x180 1 with hv
  have hk : Keeps [.page .xl, .ports] u v := cntPreg_keeps _ _ _ (by omega) (by simp [classOf]) ((setPort_keeps' u n _).mono (by decide))
  have he : Keeps [] v (sentOut u n b late) := emitUnit_keeps' _ _ _
  refine ⟨hk.trans (he.mono (by decide)), (he.port (by simp) n).trans (setPort_port_same _ _ _), fun k hk hne => ?_, ?_, rfl⟩
  · rw [he.preg (by simp) hk (by simp) (by simp), hv, preg_cntPreg _ _ (by omega) hk, if_neg (fun e => hne e.2), preg_setPort]
  · rw [he.preg (by simp) (by omega) (by simp) (by simp), hv, preg_cntPreg _ _ (by omega) (by omega), if_pos ⟨rfl, rfl⟩, preg_setPort]

theorem markLate_after (s : State) (n : Fin 8) (fleet seq corr : Nat) : Keeps [.page .xl] s (markLate s n fleet seq corr) ∧
    preg (markLate s n fleet seq corr) (.xl n) 0x19C = satAdd (preg s (.xl n) 0x19C) 1 ∧ bit (preg (markLate s n fleet seq corr) (.xl n) 0x10) 7 = true := by
  have hk : Keeps [.page .xl] s (cntPreg s (.xl n) 0x19C 1) := cntPreg_keeps _ _ _ (by omega) (by simp [classOf]) (Keeps.refl _ s)
  unfold markLate
  refine ⟨raiseErrX_keeps _ _ _ _ _ _ (by simp [classOf]) hk, ?_, ?_⟩
  · rw [preg_raiseErrX _ _ _ _ _ _ (by omega) (fun _ => by decide) (by simp), preg_cntPreg _ _ (by omega) (by omega), if_pos ⟨rfl, rfl⟩]
  · rw [raiseErrX_stat, bit_or]
    exact Bool.or_eq_true_iff.mpr (.inr (by decide))

/-! ## SVC bundles -/

/-- One line of an SVC bundle's payload is read. -/
def svcRead (first : Nat) (a : State × List (BitVec 512)) (i : Nat) : State × List (BitVec 512) :=
  ((serveRdcur a.1 (fwLine (first + i)) ⟨0, false, false⟩).1, a.2 ++ [(serveRdcur a.1 (fwLine (first + i)) ⟨0, false, false⟩).2.1])

theorem svcReads_length (first : Nat) (is : List Nat) (a : State × List (BitVec 512)) : (is.foldl (svcRead first) a).2.length = a.2.length + is.length := by
  induction is generalizing a with
  | nil => rfl
  | cons i is ih =>
    rw [List.foldl_cons, ih]
    simp only [svcRead, List.length_append, List.length_cons, List.length_nil]
    omega

theorem svcReads_keeps (first : Nat) (is : List Nat) (s : State) :
    Keeps [.page .lw, .page .ep, .page .dc, .page .mc, .clusters, .dm, .slices, .cxl, .frz, .scrubs] s (is.foldl (svcRead first) (s, [])).1 :=
  keeps_foldl1 (P := [.page .lw, .page .ep, .page .dc, .page .mc, .clusters, .dm, .slices, .cxl, .frz, .scrubs]) (g := svcRead first)
    (fun t i h => serveRdcur_keeps (a1 := t.1) _ _ (by decide) h) is (Keeps.refl _ s)

/-- The SVC bundle that the firmware sends. -/
def svcBundle (u : State) (n : Fin 8) (p : Port) (d : Byte) (payload : List (BitVec 512)) : TxBundle :=
  { svc := true, vc := false, deadline := none, late := false, resync := sget (fun _ => false) p.resync (fcKey d.toNat true)
    src := BitVec.ofNat 8 (fleetId u), dst := d, seq := sget (fun _ => 0) p.seqNext (fcKey d.toNat true), hops := 0, msgs := [], payload := payload
    via := none, corr := BitVec.ofNat 16 (corrOf u (.port n)) }

/-- Settles O45: bundles closed, slots opened and closed, bundles sent. -/
theorem bundlesSent : Obligations.BundlesSent := by
  unfold Obligations.BundlesSent
  refine ⟨?close, ?opens, ?overlap, ?closes, ?sends, ?late, ?svc⟩
  case close =>
    intro s n d o hone hopen hreading hall
    have hrest : ∀ x ∈ (s.port n).opens, OpenBundle.complete x = false := fun x hx => by
      have h := List.all_eq_true.mp hall x hx
      unfold OpenBundle.complete
      cases hc : x.closing with
      | false => rfl
      | true => simpa [hc] using h
    obtain ⟨pre, post, hothers, hdst, heq⟩ := closeFor_only hone hreading hrest hopen
    set c : OpenBundle := { o with closing := true } with hc
    have hcd : c.dst = d := hdst
    refine ⟨_, congrArg Host.Outcome.next heq, heq ▸ closeFor_keeps' s n d, ?_, ?_, ?_, ?_, ?_⟩
    · rw [closeBundle_port, setPort_port_same, List.find?_eq_none]
      intro x hx
      have herase : (pre ++ c :: post).eraseP (fun x => decide (x.dst = c.dst)) = pre ++ post := by
        rw [List.eraseP_append_right _ (fun x hx => by simpa [hcd] using hothers x (List.mem_append_left _ hx)), List.eraseP_cons_of_pos (by simp)]
      simp only at hx
      rw [herase] at hx
      simpa using hothers x hx
    all_goals
      unfold closeBundle
      rw [setPort_port_same, setPort_port_same]
      simp [hc, hdst, sget_sset_same]
  case opens =>
    intro s n i start len d he hrun hfrom hto hnone
    refine ⟨_, congrArg Host.Outcome.next (openSlot_opens he hrun hfrom hto hnone), ((closeFor_keeps' s n d).trans (setPort_keeps' _ n _)).mono (by decide), ?_, ?_⟩
    · rw [setPort_port_same]
    · rw [setPort_port_same]
      exact closeFor_refuses s n d
  case overlap =>
    intro s n i j start len d he hrun hfrom hto hj hne hset
    have heq := openSlot_overlaps he hrun hfrom hto hj hne hset
    have hu : Keeps [.page .xl, .ports] s (overlapTold s n i) :=
      ((setPort_keeps' s n { s.port n with overlapSet := true }).mono (by decide)).trans ((xlErr_keeps _ _ _ _).mono (by decide))
    have hbit : bit (preg (overlapTold s n i) (.xl n) 0x10) 18 = true := raiseErr_bit _ _ _ (by omega)
    have hslot : ((overlapTold s n i).port n).slot = some j := by
      unfold overlapTold
      rw [raiseErr_port, setPort_port_same]
      exact hj
    refine ⟨_, congrArg Host.Outcome.next heq, ?_⟩
    generalize overlapTold s n i = u at hu hbit hslot
    split_ifs with hlt
    · exact ⟨hu, hslot, hbit⟩
    · have hv : Keeps [.ports] u (slotCleared u n d) := (closeSlot_keeps _ (by decide) (Keeps.refl _ u)).trans (closeFor_keeps' _ n d)
      have hall : Keeps [.ports] u ((slotCleared u n d).setPort n { (slotCleared u n d).port n with slot := some i }) := hv.trans (setPort_keeps' _ n _)
      refine ⟨hu.trans (hall.mono (by decide)), by rw [setPort_port_same], ?_⟩
      rw [hall.preg (by simp [classOf]) (by omega) (by simp) (by simp)]
      exact hbit
  case closes =>
    intro s n i start len d hslot he hpast
    have heq : exec (.slotClose n i) s = .next (closeSlot s n) := by
      refine congrArg Host.Outcome.next ((if_neg (by simp [hslot])).trans ?_)
      simp only [he]
      exact if_pos hpast
    rw [closeSlot_open hslot he] at heq
    refine ⟨_, heq, (closeFor_keeps' s n d).trans (setPort_keeps' _ n _), ?_, ?_⟩
    · rw [setPort_port_same]
    · rw [setPort_port_same]
      exact closeFor_refuses s n d
  case sends =>
    intro s n b hup hb hv hl
    have hnot : passes s b = false := by rcases hl with h | h <;> simp [passes, h]
    have heq := transmit_own hup hb hv
    rw [hnot, if_neg Bool.false_ne_true] at heq
    obtain ⟨hk, hp, -, hcount, hout⟩ := sentOut_after s n b false
    have hsame : ({ b with late := b.late || false, via := none } : TxBundle) = b := by rw [Bool.or_false, ← hv]
    have hsame' : ({ b with late := b.late || false } : TxBundle) = b := by rw [Bool.or_false]
    refine ⟨_, congrArg Host.Outcome.next heq, hk, ?_, ?_, ?_, ?_, hcount⟩
    · exact congrArg Port.txq hp
    · exact (congrArg Port.replayBuf hp).trans (by unfold sentPort; rw [hsame])
    · exact congrArg Port.lastDst hp
    · rw [hsame'] at hout
      exact hout
  case late =>
    intro s n b dl hup hb hv hdl hlate hpast
    have hyes : passes s b = true := by simp [passes, hdl, hlate, hpast]
    have heq := transmit_own hup hb hv
    obtain ⟨hk0, hcount, hbit⟩ := markLate_after s n b.dst.toNat b.seq.toNat b.corr.toNat
    rw [hyes, if_pos rfl] at heq
    generalize markLate s n b.dst.toNat b.seq.toNat b.corr.toNat = u at heq hk0 hcount hbit
    obtain ⟨hk, hp, hreg, -, -⟩ := sentOut_after u n b true
    have hsame : ({ b with late := b.late || true, via := none } : TxBundle) = { b with late := true } := by rw [Bool.or_true, ← hv]
    refine ⟨_, congrArg Host.Outcome.next heq, (hk0.mono (by decide)).trans hk, ?_, ?_, ?_⟩
    · rw [hp]
      unfold sentPort
      rw [hsame, hk0.port (by decide)]
    · rw [hreg _ (by omega) (by omega)]
      exact hcount
    · rw [hreg _ (by omega) (by omega)]
      exact hbit
  case svc =>
    intro s n d first count hup
    set r := (List.range count.toNat).foldl (svcRead first.toNat) (s, []) with hr
    have hk := svcReads_keeps first.toNat (List.range count.toNat) s
    have hp : r.1.port n = s.port n := hk.port (by decide) n
    have hlen : r.2.length = count.toNat := by
      rw [hr, svcReads_length]
      simp
    have heq : svcSend s n d first.toNat count.toNat = r.1.setPort n { r.1.port n with
        txq := (r.1.port n).txq ++ [svcBundle s n (r.1.port n) d r.2]
        seqNext := sset (fun _ => 0) (r.1.port n).seqNext (fcKey d.toNat true) (sget (fun _ => 0) (r.1.port n).seqNext (fcKey d.toNat true) + 1)
        resync := sset (fun _ => false) (r.1.port n).resync (fcKey d.toNat true) false } := by
      unfold svcSend
      rw [if_neg (by simp [hup])]
      rfl
    refine ⟨_, congrArg Host.Outcome.next heq, (hk.mono (by decide)).trans ((setPort_keeps' _ n _).mono (by decide)), ?_, ?_, ?_, ?_⟩
    · rw [setPort_port_same, hp]
      simp
    · rw [setPort_port_same]
      simp [svcBundle, hp]
    · rw [setPort_port_same]
      simp [svcBundle, hlen]
    · rw [setPort_port_same, hp]

end Sys2Proof
end

section
/-! PROOFS. Bundles received on a crossing port (10 R421 to R424, R436 to R443). -/

namespace Sys2Proof

open Sys2Proof.Machine

variable {s : State} {n : Fin 8} {b : XlBundle}

/-! ## What a bundle finds -/

/-- A bundle that a port takes: it is UP, discards nothing, and the codes and the header of the bundle are good. -/
structure Sound (s : State) (n : Fin 8) (b : XlBundle) : Prop where
  up : (s.port n).st = .up
  open_ : (s.port n).discard = false
  fec : b.fecBad = false
  ctrl : b.ctrlBad = false
  crc : crcGood (headerOf b.header) b = true
  plain : headerReserved (headerOf b.header) b = false

/-- A bundle's pool. -/
def poolFor (b : XlBundle) : Fin 3 := poolOf (headerOf b.header).svc (headerOf b.header).vc

/-- The port has accepted the unit, counted the bundle, and given it a berth of its pool. -/
def berthed (s : State) (n : Fin 8) (b : XlBundle) : State :=
  let s1 := cntPreg (acceptUnit s n) (.xl n) 0x184 1
  s1.setPort n { s1.port n with inUse := (s1.port n).inUse.set (poolFor b) ((s1.port n).inUse.get (poolFor b) + 1) }

theorem berthed_port (s : State) (n : Fin 8) (b : XlBundle) : (berthed s n b).port n = { s.port n with
    accepted := (s.port n).accepted + 1, inUse := (s.port n).inUse.set (poolFor b) ((s.port n).inUse.get (poolFor b) + 1) } := by
  have h : (cntPreg (acceptUnit s n) (.xl n) 0x184 1).port n = { s.port n with accepted := (s.port n).accepted + 1 } := acceptUnit_port s n
  unfold berthed
  rw [setPort_port_same, h]

theorem berthed_keeps (s : State) (n : Fin 8) (b : XlBundle) : Keeps [.page .xl, .ports] s (berthed s n b) :=
  (cntPreg_keeps _ _ _ (by omega) (by simp [classOf]) ((acceptUnit_keeps' s n).mono (by decide))).trans ((setPort_keeps' _ n _).mono (by decide))

theorem preg_berthed (s : State) (n : Fin 8) (b : XlBundle) (p : Page) {k : Nat} (hk : k < 0x1000) :
    preg (berthed s n b) p k = if p = .xl n ∧ k = 0x184 then satAdd (preg s (.xl n) 0x184) 1 else preg s p k := by
  have hacc : ∀ q o, preg (acceptUnit s n) q o = preg s q o := fun _ _ => rfl
  unfold berthed
  rw [preg_setPort, preg_cntPreg _ _ (by omega) hk, hacc, hacc]

theorem berthed_out (s : State) (n : Fin 8) (b : XlBundle) : (berthed s n b).out = s.out ++ [.ctrlWord n (ackWord ((berthed s n b).port n))] := by
  rw [berthed_port]
  rfl

/-- A sound bundle for this device is checked for its place in the sequence, and its berth is freed. -/
theorem bundleIn_home (h : Sound s n b) (hd : (headerOf b.header).dst.toNat = fleetId s) :
    bundleIn s n b = freeBerth (seqCheck (berthed s n b) n (headerOf b.header) b) n (poolFor b) := by
  unfold bundleIn
  simp only [h.up, h.open_, h.fec, h.ctrl, h.crc, h.plain, hd, ne_eq, not_true_eq_false, Bool.false_eq_true, or_self, if_false, Bool.not_true, if_true]
  rfl

/-- A sound bundle for another device is sent on, or dropped. -/
theorem bundleIn_away (h : Sound s n b) (hd : (headerOf b.header).dst.toNat ≠ fleetId s) :
    bundleIn s n b = if (forward (berthed s n b) n (headerOf b.header) b).2 then (forward (berthed s n b) n (headerOf b.header) b).1
      else freeBerth (forward (berthed s n b) n (headerOf b.header) b).1 n (poolFor b) := by
  unfold bundleIn
  simp only [h.up, h.open_, h.fec, h.ctrl, h.crc, h.plain, hd, ne_eq, not_true_eq_false, Bool.false_eq_true, or_self, if_false, Bool.not_true]
  rfl

/-- The port discards what follows and asks for it again. -/
def refused (u : State) (n : Fin 8) (w : BitVec 128) : State := sendWord (u.setPort n { u.port n with discard := true }) n w

theorem refused_after (u : State) (n : Fin 8) (w : BitVec 128) : Keeps [.ports] u (refused u n w) ∧ ((refused u n w).port n).discard = true ∧
    ((refused u n w).port n).accepted = (u.port n).accepted ∧ (refused u n w).out = u.out ++ [.ctrlWord n w] ∧
    (∀ p k, preg (refused u n w) p k = preg u p k) := by
  have hp : (refused u n w).port n = { u.port n with discard := true } := setPort_port_same _ _ _
  exact ⟨emit_keeps _ (setPort_keeps' u n _), by rw [hp], by rw [hp], rfl, fun _ _ => rfl⟩

theorem bundleIn_bad (hup : (s.port n).st = .up) (hopen : (s.port n).discard = false)
    (hbad : (b.fecBad || b.ctrlBad || !(crcGood (headerOf b.header) b) || headerReserved (headerOf b.header) b) = true) :
    bundleIn s n b = refused (if b.fecBad then raiseErr (cntPreg s (.xl n) 0x1A8 1) (.xl n) 3
      else if b.ctrlBad || !(crcGood (headerOf b.header) b) then raiseErr s (.xl n) 4 else s) n (nakWord (s.port n)) := by
  unfold bundleIn
  simp only [hup, hopen, hbad, ne_eq, not_true_eq_false, Bool.false_eq_true, or_self, if_false, if_true]
  rfl

/-! ## Berths -/

theorem freeBerth_port (u : State) (n : Fin 8) (q : Fin 3) : (freeBerth u n q).port n = { u.port n with
    inUse := (u.port n).inUse.set q ((u.port n).inUse.get q - 1), freed := (u.port n).freed.set q ((u.port n).freed.get q + 1) } :=
  setPort_port_same _ _ _

theorem freeBerth_out (u : State) (n : Fin 8) (q : Fin 3) : (freeBerth u n q).out = u.out ++ [.ctrlWord n (creditWord ((freeBerth u n q).port n))] := by
  rw [freeBerth_port]
  rfl

theorem preg_freeBerth (u : State) (n : Fin 8) (q : Fin 3) (p : Page) (k : Nat) : preg (freeBerth u n q) p k = preg u p k := rfl

/-! ## The sequence check -/

section
variable {u : State} {h : Header}

/-- The newest number of the sender's window. -/
def topOf (u : State) (n : Fin 8) (h : Header) : Option W16 := sget (fun _ => none) (u.port n).win (fcKey h.src.toNat h.svc)

/-- The window's newest number is the bundle's. -/
def topped (u : State) (n : Fin 8) (h : Header) : State :=
  u.setPort n { u.port n with win := sset (fun _ => none) (u.port n).win (fcKey h.src.toNat h.svc) (some h.seq) }

/-- A TIMED bundle has passed its deadline and the margin. -/
def comesLate (u : State) (n : Fin 8) (h : Header) : Bool := h.timed && pastDeadline u h.dl (fld (preg u (.xl n) 0x12C) 0 24)

/-- LATE is told of a bundle that is. -/
def lateTold (t : State) (n : Fin 8) (h : Header) (late : Bool) : State := if late then markLate t n h.src.toNat h.seq.toNat 0 else t

theorem seqCheck_first (ht : topOf u n h = none) : seqCheck u n h b =
    deliverBundle (lateTold (topped u n h) n h (comesLate u n h)) n h b (comesLate u n h) := by
  unfold topOf at ht
  unfold seqCheck
  simp only [ht]
  rfl

theorem seqCheck_next {top : W16} (ht : topOf u n h = some top) (hs : h.seq = top + 1) : seqCheck u n h b =
    deliverBundle (lateTold (topped u n h) n h (comesLate u n h)) n h b (comesLate u n h) := by
  have hone : (h.seq - top).toNat = 1 := by rw [hs]; simp
  unfold topOf at ht
  unfold seqCheck
  simp only [ht, hone, show (1 ≤ 1 ∧ 1 ≤ 32767) = True by simp, if_true, ne_eq, not_true_eq_false, false_and, if_false]
  rfl

theorem seqCheck_gap {top : W16} (ht : topOf u n h = some top) (h2 : 2 ≤ (h.seq - top).toNat) (hw : (h.seq - top).toNat ≤ 32767) (hr : h.resync = false) :
    seqCheck u n h b = deliverBundle (raiseErr (cntPreg (lateTold (topped u n h) n h (comesLate u n h)) (.xl n) 0x198 1) (.xl n) 10
      (bundleAddr h.src.toNat h.seq.toNat)) n h b (comesLate u n h) := by
  have hin : 1 ≤ (h.seq - top).toNat ∧ (h.seq - top).toNat ≤ 32767 := ⟨by omega, hw⟩
  have hgap : (h.seq - top).toNat ≠ 1 ∧ h.resync = false := ⟨by omega, hr⟩
  unfold topOf at ht
  unfold seqCheck
  simp only [ht]
  rw [if_pos hin, if_pos hgap]
  rfl

theorem seqCheck_duplicate {top : W16} (ht : topOf u n h = some top) (hb : (top - h.seq).toNat ≤ 1023) : seqCheck u n h b =
    raiseErr (cntPreg u (.xl n) 0x190 1) (.xl n) 8 (bundleAddr h.src.toNat h.seq.toNat) := by
  have hin : ¬(1 ≤ (h.seq - top).toNat ∧ (h.seq - top).toNat ≤ 32767) := by bv_omega
  unfold topOf at ht
  unfold seqCheck
  simp only [ht]
  rw [if_neg hin, if_pos hb]

/-- The event of a LATE bundle's messages, where the port gives one. -/
def lateEvent (t : State) (n : Fin 8) (h : Header) (late : Bool) : Option (BitVec 5) :=
  if (late || h.late) && bit (preg t (.xl n) 0x100) 1 then some (BitVec.ofNat 5 (fld (preg t (.xl n) 0x100) 2 5)) else none

/-- The messages of a DATA bundle enter the mesh. -/
def entered (t : State) (n : Fin 8) (h : Header) (b : XlBundle) (late : Bool) : State :=
  { t with mesh := t.mesh ++ (bundleMsgs h b).map (meshOf n (lateEvent t n h late)) }

theorem deliverBundle_data {t : State} (late : Bool) (hs : h.svc = false) : deliverBundle t n h b late = entered t n h b late := if_neg (by simp [hs])

theorem deliverBundle_svc {t : State} (late : Bool) (hs : h.svc = true) : deliverBundle t n h b late = svcStore t n b.payload := if_pos hs

theorem entered_keeps (t : State) (n : Fin 8) (h : Header) (b : XlBundle) (late : Bool) : Keeps [.mesh] t (entered t n h b late) :=
  put_mesh_keeps _ (by decide) (Keeps.refl _ t)

theorem topped_keeps (u : State) (n : Fin 8) (h : Header) : Keeps [.ports] u (topped u n h) := setPort_keeps' u n _

theorem lateTold_keeps (t : State) (n : Fin 8) (h : Header) (late : Bool) : Keeps [.page .xl] t (lateTold t n h late) :=
  keeps_ite (fun _ => (markLate_after t n h.src.toNat h.seq.toNat 0).1) (fun _ => Keeps.refl _ t)

theorem comesLate_berthed (s : State) (n : Fin 8) (b : XlBundle) (h : Header) : comesLate (berthed s n b) n h = comesLate s n h := by
  unfold comesLate
  rw [preg_berthed _ _ _ _ (by omega), if_neg (by omega)]
  rfl

theorem topOf_berthed (s : State) (n : Fin 8) (b : XlBundle) (h : Header) : topOf (berthed s n b) n h = topOf s n h := by
  unfold topOf
  rw [berthed_port]

end

/-! ## Forwarding -/

theorem routeOf_congr {u : State} (h : ∀ k, k < 0x1000 → k ≠ 0x184 → preg u (.xl 0) k = preg s (.xl 0) k) {d : Nat} (hd : d < 256) : routeOf u d = routeOf s d := by
  unfold routeOf
  rw [h _ (by omega) (by omega)]

theorem routeOf_berthed (s : State) (n : Fin 8) (b : XlBundle) {d : Nat} (hd : d < 256) : routeOf (berthed s n b) d = routeOf s d :=
  routeOf_congr (fun k hk hne => by rw [preg_berthed _ _ _ _ hk, if_neg (fun e => hne e.2)]) hd

/-- The bundle as it joins the queue of its next port. -/
def forwarded (u : State) (n k : Fin 8) (h : Header) (b : XlBundle) : TxBundle :=
  { svc := h.svc, vc := h.vc || (!h.svc && bit (preg u (.xl k) 0x100) 0), deadline := (if h.timed then some h.dl else none), late := h.late
    resync := h.resync, src := h.src, dst := h.dst, seq := h.seq, hops := BitVec.ofNat 4 (h.hops + 1), msgs := (if h.svc then [] else bundleMsgs h b)
    payload := b.payload, via := some (n, BitVec.ofNat 2 (poolOf h.svc h.vc).val), corr := BitVec.ofNat 16 (corrOf u (.port k)) }

theorem forward_on {u : State} {h : Header} {k : Fin 8} (hh : h.hops < 15) (hr : routeOf u h.dst.toNat = some k) :
    forward u n h b = (cntPreg (u.setPort k { u.port k with txq := (u.port k).txq ++ [forwarded u n k h b] }) (.xl n) 0x188 1, true) := by
  unfold forward
  rw [if_neg (by omega)]
  simp only [hr]
  rfl

theorem forward_off {u : State} {h : Header} (hh : h.hops ≤ 15) (hr : h.hops = 15 ∨ routeOf u h.dst.toNat = none) :
    forward u n h b = (forwardDrop u n h (if h.hops = 15 then 14 else 13), false) := by
  unfold forward
  by_cases h15 : h.hops = 15
  · rw [if_pos (by omega), if_pos h15]
  · have hnone : routeOf u h.dst.toNat = none := hr.resolve_left h15
    rw [if_neg (by omega), if_neg h15]
    simp only [hnone]

theorem forwardDrop_after (u : State) (n : Fin 8) (h : Header) (src : Nat) (hsrc : src < 32) : Keeps [.page .xl] u (forwardDrop u n h src) ∧
    bit (preg (forwardDrop u n h src) (.xl n) 0x10) src = true ∧
    preg (forwardDrop u n h src) (.xl n) 0x1A0 = satAdd (preg u (.xl n) 0x1A0) (if h.svc then 0 else h.nmsg) := by
  have hlost : Keeps [] u (logLost u n h.dst.toNat (b2n h.svc) h.seq.toNat (if h.svc then 0 else h.nmsg) 3) := logLost_keeps _ _ _ _ _ _ (Keeps.refl _ u)
  unfold forwardDrop
  extract_lets k
  refine ⟨raiseErr_keeps _ _ _ (by simp [classOf]) (cntPreg_keeps _ _ _ (by omega) (by simp [classOf]) (hlost.mono (by simp))), raiseErr_bit _ _ _ hsrc, ?_⟩
  rw [preg_raiseErr _ _ _ (by omega) (fun _ => by decide) (by simp), preg_cntPreg _ _ (by omega) (by omega), if_pos ⟨rfl, rfl⟩,
    hlost.preg (by simp) (by omega) (by simp) (by simp)]

theorem headerOf_hops (w : BitVec 512) : (headerOf w).hops ≤ 15 := Nat.le_of_lt_succ (fld_lt w 40 4)

/-! ## Delivery -/

theorem ackWord_congr {p q : Port} (h : p.accepted = q.accepted) : ackWord p = ackWord q := by
  unfold ackWord
  rw [h]

/-- A berth's count, raised by one, reads one more. -/
theorem count_raised (v : Vector Nat 3) (q : Fin 3) : (v.set q (v.get q + 1)).get q = v.get q + 1 := by
  simp [Vector.get_eq_getElem]

/-- A berth's count, raised by one and then lowered by one, is what it was. -/
theorem count_returned (v : Vector Nat 3) (q : Fin 3) :
    (v.set q (v.get q + 1)).set q ((v.set q (v.get q + 1)).get q - 1) = v.set q (v.get q) := by
  rw [count_raised]
  simp

/-- A DATA bundle is delivered: its berth is free again, its messages are in the mesh. -/
structure Delivered (s : State) (n : Fin 8) (b : XlBundle) (x t : State) (evt : Option (BitVec 5)) : Prop where
  keeps : Keeps [.page .xl, .mesh, .ports] s t
  mesh : t.mesh = s.mesh ++ (bundleMsgs (headerOf b.header) b).map (meshOf n evt)
  port : t.port n = { x.port n with inUse := (x.port n).inUse.set (poolFor b) ((x.port n).inUse.get (poolFor b) - 1)
                                    freed := (x.port n).freed.set (poolFor b) ((x.port n).freed.get (poolFor b) + 1) }
  regs : ∀ k, preg t (.xl n) k = preg x (.xl n) k
  out : t.out = x.out ++ [.ctrlWord n (creditWord (t.port n))]

theorem bundle_delivered {x : State} {late : Bool} (h : Sound s n b) (hd : (headerOf b.header).dst.toNat = fleetId s)
    (hx : Keeps [.page .xl, .ports] (berthed s n b) x) (hc : seqCheck (berthed s n b) n (headerOf b.header) b = entered x n (headerOf b.header) b late) :
    ∃ t, exec (.bundleReceived n b) s = .next t ∧ Delivered s n b x t (lateEvent x n (headerOf b.header) late) := by
  have hk : Keeps [.page .xl, .ports] s x := (berthed_keeps s n b).trans hx
  refine ⟨freeBerth (entered x n (headerOf b.header) b late) n (poolFor b), congrArg Host.Outcome.next ((bundleIn_home h hd).trans (by rw [hc])), ?_, ?_, ?_,
    fun k => rfl, ?_⟩
  · exact ((hk.mono (by decide)).trans ((entered_keeps x n _ b late).mono (by decide))).trans ((freeBerth_keeps' _ _ _).mono (by decide))
  · exact congrArg (· ++ _) (hk .mesh (by decide) :)
  · exact freeBerth_port _ _ _
  · exact freeBerth_out _ _ _

/-- Settles O44: bundles delivered, held out, asked for again, sent on, dropped. -/
theorem bundlesReceived : Obligations.BundlesReceived := by
  unfold Obligations.BundlesReceived
  refine ⟨?first, ?next, ?duplicate, ?gap, ?late, ?bad, ?discarding, ?onward, ?dropped, ?reserved, ?svc⟩
  case first =>
    intro s n b hup hopen hfec hctrl hcrc hplain hd hsvc htimed hlate hnone
    have h : Sound s n b := ⟨hup, hopen, hfec, hctrl, hcrc, hplain⟩
    have htop : topOf (berthed s n b) n (headerOf b.header) = none := (topOf_berthed s n b _).trans hnone
    have hin : comesLate (berthed s n b) n (headerOf b.header) = false := by unfold comesLate; rw [htimed]; rfl
    have hc := seqCheck_first (b := b) htop
    rw [hin, deliverBundle_data _ hsvc] at hc
    set x := topped (berthed s n b) n (headerOf b.header) with hx
    have hxk : Keeps [.ports] (berthed s n b) x := topped_keeps _ _ _
    obtain ⟨t, hexec, ht⟩ := bundle_delivered h hd (hxk.mono (by decide)) hc
    have hevt : lateEvent x n (headerOf b.header) false = none := by unfold lateEvent; rw [hlate]; rfl
    have hxp : x.port n = { (berthed s n b).port n with
        win := sset (fun _ => none) ((berthed s n b).port n).win (fcKey (headerOf b.header).src.toNat (headerOf b.header).svc) (some (headerOf b.header).seq) } :=
      setPort_port_same _ _ _
    have hpool : poolFor b = poolOf false (headerOf b.header).vc := by unfold poolFor; rw [hsvc]
    have htp := ht.port
    rw [hxp, berthed_port] at htp
    refine ⟨t, hexec, ht.keeps, ?_, ?_, ?_, ?_, ?_, ?_⟩
    · rw [ht.mesh, hevt]
    · rw [htp]
    · have hwin : (t.port n).win = sset (fun _ => none) (s.port n).win (fcKey (headerOf b.header).src.toNat (headerOf b.header).svc)
          (some (headerOf b.header).seq) := by rw [htp]
      rw [hwin, hsvc]
      exact sget_sset_same (α := Option W16) _ _ _ _
    · have huse : (t.port n).inUse = (s.port n).inUse.set (poolFor b) ((s.port n).inUse.get (poolFor b)) := by
        rw [htp]
        exact count_returned _ _
      rw [huse]
      simp only [hpool]
    · rw [ht.regs, hxk.preg (by simp [classOf]) (by omega) (by simp) (by simp), preg_berthed _ _ _ _ (by omega), if_pos ⟨rfl, rfl⟩]
    · have hout : x.out = (berthed s n b).out := rfl
      rw [ht.out, hout, berthed_out, ackWord_congr (p := (berthed s n b).port n) (q := t.port n) (by rw [htp, berthed_port]), List.append_assoc]
      rfl
  case next =>
    intro s n b top hup hopen hfec hctrl hcrc hplain hd hsvc htimed hlate htop hseq
    have h : Sound s n b := ⟨hup, hopen, hfec, hctrl, hcrc, hplain⟩
    have hin : comesLate (berthed s n b) n (headerOf b.header) = false := by unfold comesLate; rw [htimed]; rfl
    have hc := seqCheck_next (b := b) ((topOf_berthed s n b _).trans htop) hseq
    rw [hin, deliverBundle_data _ hsvc] at hc
    set x := topped (berthed s n b) n (headerOf b.header) with hx
    have hxk : Keeps [.ports] (berthed s n b) x := topped_keeps _ _ _
    obtain ⟨t, hexec, ht⟩ := bundle_delivered h hd (hxk.mono (by decide)) hc
    have hevt : lateEvent x n (headerOf b.header) false = none := by unfold lateEvent; rw [hlate]; rfl
    refine ⟨t, hexec, ht.keeps, by rw [ht.mesh, hevt], ?_⟩
    rw [ht.regs, hxk.preg (by simp [classOf]) (by omega) (by simp) (by simp), preg_berthed _ _ _ _ (by omega), if_neg (by omega)]
  case duplicate =>
    intro s n b top hup hopen hfec hctrl hcrc hplain hd htop hbehind
    have h : Sound s n b := ⟨hup, hopen, hfec, hctrl, hcrc, hplain⟩
    have hc := seqCheck_duplicate (b := b) ((topOf_berthed s n b _).trans htop) hbehind
    set x := cntPreg (berthed s n b) (.xl n) 0x190 1 with hx
    set y := raiseErr x (.xl n) 8 (bundleAddr (headerOf b.header).src.toNat (headerOf b.header).seq.toNat) with hy
    have hxk : Keeps [.page .xl] (berthed s n b) x := cntPreg_keeps _ _ _ (by omega) (by simp [classOf]) (Keeps.refl _ _)
    have hyk : Keeps [.page .xl] x y := xlErr_keeps _ _ _ _
    have hall : Keeps [.page .xl, .ports] s y := (berthed_keeps s n b).trans ((hxk.trans hyk).mono (by decide))
    have hport : y.port n = (berthed s n b).port n := (hxk.trans hyk).port (by decide) n
    have hcount : preg y (.xl n) 0x190 = satAdd (preg s (.xl n) 0x190) 1 := by
      rw [preg_raiseErr _ _ _ (by omega) (fun _ => by decide) (by simp), hx, preg_cntPreg _ _ (by omega) (by omega), if_pos ⟨rfl, rfl⟩,
        preg_berthed _ _ _ _ (by omega), if_neg (by omega)]
    have hbit : bit (preg y (.xl n) 0x10) 8 = true := raiseErr_bit _ _ _ (by omega)
    refine ⟨freeBerth y n (poolFor b), congrArg Host.Outcome.next ((bundleIn_home h hd).trans (by rw [hc])),
      hall.trans ((freeBerth_keeps' _ _ _).mono (by decide)), (hall .mesh (by decide) :), hcount, hbit, ?_⟩
    rw [freeBerth_port, hport, berthed_port]
  case gap =>
    intro s n b top hup hopen hfec hctrl hcrc hplain hd hsvc htimed hlate htop h2 hw hr
    have h : Sound s n b := ⟨hup, hopen, hfec, hctrl, hcrc, hplain⟩
    have hin : comesLate (berthed s n b) n (headerOf b.header) = false := by unfold comesLate; rw [htimed]; rfl
    have hc := seqCheck_gap (b := b) ((topOf_berthed s n b _).trans htop) h2 hw hr
    rw [hin, deliverBundle_data _ hsvc] at hc
    set v := topped (berthed s n b) n (headerOf b.header) with hv
    have hvk : Keeps [.ports] (berthed s n b) v := topped_keeps _ _ _
    have hlv : lateTold v n (headerOf b.header) false = v := rfl
    rw [hlv] at hc
    have hwk : Keeps [.page .xl] v (cntPreg v (.xl n) 0x198 1) := cntPreg_keeps _ _ _ (by omega) (by simp [classOf]) (Keeps.refl _ _)
    set x := raiseErr (cntPreg v (.xl n) 0x198 1) (.xl n) 10 (bundleAddr (headerOf b.header).src.toNat (headerOf b.header).seq.toNat) with hx
    have hxk : Keeps [.page .xl] (cntPreg v (.xl n) 0x198 1) x := xlErr_keeps _ _ _ _
    obtain ⟨t, hexec, ht⟩ := bundle_delivered h hd ((hvk.mono (by decide)).trans ((hwk.trans hxk).mono (by decide))) hc
    have hevt : lateEvent x n (headerOf b.header) false = none := by unfold lateEvent; rw [hlate]; rfl
    refine ⟨t, hexec, ht.keeps, by rw [ht.mesh, hevt], ?_, ?_⟩
    · rw [ht.regs, preg_raiseErr _ _ _ (by omega) (fun _ => by decide) (by simp), preg_cntPreg _ _ (by omega) (by omega), if_pos ⟨rfl, rfl⟩,
        hvk.preg (by simp [classOf]) (by omega) (by simp) (by simp), preg_berthed _ _ _ _ (by omega), if_neg (by omega)]
    · rw [ht.regs]
      exact raiseErr_bit _ _ _ (by omega)
  case late =>
    intro s n b hup hopen hfec hctrl hcrc hplain hd hsvc htimed hpast hnone hevent
    have h : Sound s n b := ⟨hup, hopen, hfec, hctrl, hcrc, hplain⟩
    have hin : comesLate (berthed s n b) n (headerOf b.header) = true := by
      rw [comesLate_berthed]
      unfold comesLate
      rw [htimed, hpast]
      rfl
    have hc := seqCheck_first (b := b) ((topOf_berthed s n b _).trans hnone)
    rw [hin, deliverBundle_data _ hsvc] at hc
    set v := topped (berthed s n b) n (headerOf b.header) with hv
    have hvk : Keeps [.ports] (berthed s n b) v := topped_keeps _ _ _
    obtain ⟨hxk, hcount, hbit⟩ := markLate_after v n (headerOf b.header).src.toNat (headerOf b.header).seq.toNat 0
    have hctl : preg (markLate v n (headerOf b.header).src.toNat (headerOf b.header).seq.toNat 0) (.xl n) 0x100 = preg v (.xl n) 0x100 := by
      unfold markLate
      rw [preg_raiseErrX _ _ _ _ _ _ (by omega) (fun _ => by decide) (by simp), preg_cntPreg _ _ (by omega) (by omega), if_neg (by omega)]
    have hlv : lateTold v n (headerOf b.header) true = markLate v n (headerOf b.header).src.toNat (headerOf b.header).seq.toNat 0 := rfl
    rw [hlv] at hc
    generalize markLate v n (headerOf b.header).src.toNat (headerOf b.header).seq.toNat 0 = x at hc hxk hcount hbit hctl
    obtain ⟨t, hexec, ht⟩ := bundle_delivered h hd ((hvk.mono (by decide)).trans (hxk.mono (by decide))) hc
    have hv0 : ∀ k, k < 0x1000 → k ≠ 0x184 → preg v (.xl n) k = preg s (.xl n) k := fun k hk hne => by
      rw [hvk.preg (by simp [classOf]) hk (by simp) (by simp), preg_berthed _ _ _ _ hk, if_neg (fun e => hne e.2)]
    have hevt : lateEvent x n (headerOf b.header) true = some (BitVec.ofNat 5 (fld (preg s (.xl n) 0x100) 2 5)) := by
      unfold lateEvent
      rw [hctl, hv0 _ (by omega) (by omega), hevent]
      rfl
    refine ⟨t, hexec, ht.keeps, by rw [ht.mesh, hevt], ?_, ?_⟩
    · rw [ht.regs, hcount, hv0 _ (by omega) (by omega)]
    · rw [ht.regs]
      exact hbit
  case bad =>
    intro s n b hup hopen hwhy
    have hbad : (b.fecBad || b.ctrlBad || !(crcGood (headerOf b.header) b)) = true := by
      simp only [Bool.or_eq_true, Bool.not_eq_true']
      tauto
    have heq := bundleIn_bad (b := b) hup hopen (by rw [hbad]; rfl)
    by_cases hf : b.fecBad = true
    · rw [if_pos hf] at heq
      set u := raiseErr (cntPreg s (.xl n) 0x1A8 1) (.xl n) 3 with hu
      have huk : Keeps [.page .xl] s u :=
        (cntPreg_keeps _ _ _ (by omega) (by simp [classOf]) (Keeps.refl _ s)).trans (xlErr_keeps _ _ _ _)
      obtain ⟨hk, hdis, hacc, hout, hreg⟩ := refused_after u n (nakWord (s.port n))
      refine ⟨_, congrArg Host.Outcome.next heq, (huk.mono (by decide)).trans (hk.mono (by decide)), hdis, ?_, ?_, ?_⟩
      · rw [hacc, huk.port (by decide)]
      · rw [if_pos hf, hreg]
        exact raiseErr_bit _ _ _ (by omega)
      · rw [hout, List.getLast?_concat]
    · have hrest : (b.ctrlBad || !(crcGood (headerOf b.header) b)) = true := by simpa [hf] using hbad
      rw [if_neg hf, if_pos hrest] at heq
      have huk : Keeps [.page .xl] s (raiseErr s (.xl n) 4) := xlErr_keeps _ _ _ _
      obtain ⟨hk, hdis, hacc, hout, hreg⟩ := refused_after (raiseErr s (.xl n) 4) n (nakWord (s.port n))
      refine ⟨_, congrArg Host.Outcome.next heq, (huk.mono (by decide)).trans (hk.mono (by decide)), hdis, ?_, ?_, ?_⟩
      · rw [hacc, huk.port (by decide)]
      · rw [if_neg hf, hreg]
        exact raiseErr_bit _ _ _ (by omega)
      · rw [hout, List.getLast?_concat]
  case discarding =>
    intro s n b hdis
    exact ⟨s, congrArg Host.Outcome.next (if_pos (.inr hdis)), Keeps.refl _ s, rfl⟩
  case onward =>
    intro s n b k hup hopen hfec hctrl hcrc hplain hd hh hr
    have h : Sound s n b := ⟨hup, hopen, hfec, hctrl, hcrc, hplain⟩
    have hfw := forward_on (n := n) (b := b) hh ((routeOf_berthed s n b (headerOf b.header).dst.isLt).trans hr)
    have heq := bundleIn_away h hd
    rw [hfw, if_pos rfl] at heq
    have hbk := berthed_keeps s n b
    have hbp := berthed_port s n b
    have hbo : ∀ m, m ≠ n → (berthed s n b).port m = s.port m := fun m hm => by
      unfold berthed
      rw [setPort_port_other _ _ hm]
      exact setPort_port_other _ _ hm
    have h188 : preg (berthed s n b) (.xl n) 0x188 = preg s (.xl n) 0x188 := by rw [preg_berthed _ _ _ _ (by omega), if_neg (by omega)]
    generalize berthed s n b = u at heq hbk hbp hbo h188
    set q : Port := { u.port k with txq := (u.port k).txq ++ [forwarded u n k (headerOf b.header) b] } with hq
    have hkeep : Keeps [.page .xl, .ports] u (cntPreg (u.setPort k q) (.xl n) 0x188 1) :=
      cntPreg_keeps _ _ _ (by omega) (by simp [classOf]) ((setPort_keeps' u k q).mono (by decide))
    have hport : ∀ m, (cntPreg (u.setPort k q) (.xl n) 0x188 1).port m = (u.setPort k q).port m := fun _ => rfl
    have htxq : (u.port k).txq = (s.port k).txq := by
      by_cases hkn : k = n
      · rw [hkn, hbp]
      · rw [hbo k hkn]
    refine ⟨_, congrArg Host.Outcome.next heq, hbk.trans hkeep, ?_, ?_, ?_, ?_, ?_⟩
    · rw [hport, setPort_port_same, hq, htxq, List.length_append]
      rfl
    · rw [hport, setPort_port_same, hq, List.getLast?_concat]
      rfl
    · rw [hport, setPort_port_same, hq, List.getLast?_concat]
      rfl
    · rw [preg_cntPreg _ _ (by omega) (by omega), if_pos ⟨rfl, rfl⟩, preg_setPort, h188]
    · have hin : ((u.setPort k q).port n).inUse = (u.port n).inUse := by
        by_cases hkn : n = k
        · rw [hkn, setPort_port_same]
        · rw [setPort_port_other _ _ hkn]
      rw [hport, hin, hbp]
      exact count_raised _ _
  case dropped =>
    intro s n b hup hopen hfec hctrl hcrc hplain hd hwhy
    have h : Sound s n b := ⟨hup, hopen, hfec, hctrl, hcrc, hplain⟩
    have hfw := forward_off (u := berthed s n b) (n := n) (b := b) (headerOf_hops b.header)
      (hwhy.imp id (fun hr => (routeOf_berthed s n b (headerOf b.header).dst.isLt).trans hr))
    have heq := bundleIn_away h hd
    rw [hfw, if_neg (by exact Bool.false_ne_true)] at heq
    obtain ⟨hk, hbit, hcount⟩ := forwardDrop_after (berthed s n b) n (headerOf b.header) (if (headerOf b.header).hops = 15 then 14 else 13) (by split_ifs <;> omega)
    have hall := (berthed_keeps s n b).trans (hk.mono (by decide))
    refine ⟨_, congrArg Host.Outcome.next heq, hall.trans ((freeBerth_keeps' _ _ _).mono (by decide)), ?_, ?_, ?_⟩
    · rw [preg_freeBerth]
      exact hbit
    · rw [preg_freeBerth, hcount, preg_berthed _ _ _ _ (by omega), if_neg (by omega)]
    · exact hall .mesh (by decide)
  case reserved =>
    intro s n b hup hopen hfec hctrl hcrc hres
    have heq := bundleIn_bad (b := b) hup hopen (by rw [hres, Bool.or_true])
    rw [if_neg (by simp [hfec]), if_neg (by simp [hctrl, hcrc])] at heq
    obtain ⟨hk, hdis, hacc, hout, -⟩ := refused_after s n (nakWord (s.port n))
    exact ⟨_, congrArg Host.Outcome.next heq, hk, hdis, hacc, hout⟩
  case svc =>
    intro s n b hup hopen hfec hctrl hcrc hplain hd hsvc hnone
    have h : Sound s n b := ⟨hup, hopen, hfec, hctrl, hcrc, hplain⟩
    have hc := seqCheck_first (b := b) ((topOf_berthed s n b _).trans hnone)
    rw [deliverBundle_svc _ hsvc] at hc
    set late := comesLate (berthed s n b) n (headerOf b.header)
    have hvk : Keeps [.ports] (berthed s n b) (topped (berthed s n b) n (headerOf b.header)) := topped_keeps _ _ _
    have hvp : (topped (berthed s n b) n (headerOf b.header)).port n = { (berthed s n b).port n with
        win := sset (fun _ => none) ((berthed s n b).port n).win (fcKey (headerOf b.header).src.toNat (headerOf b.header).svc) (some (headerOf b.header).seq) } :=
      setPort_port_same _ _ _
    generalize topped (berthed s n b) n (headerOf b.header) = v at hc hvk hvp
    have hlk := lateTold_keeps v n (headerOf b.header) late
    generalize lateTold v n (headerOf b.header) late = w at hc hlk
    have hsk : Keeps [.page .lw, .page .ep, .page .dc, .page .mc, .clusters, .dm, .slices, .cxl, .frz, .scrubs] w (svcStore w n b.payload) :=
      svcStore_keeps _ _ (by decide) (Keeps.refl _ w)
    have hall := (((berthed_keeps s n b).mono (by decide)).trans ((hvk.mono (by decide)).trans (hlk.mono (by decide)))).trans
      (hsk.mono (Q := [.clusters, .cxl, .dm, .frz, .mesh, .page .dc, .page .ep, .page .lw, .page .mc, .page .xl, .ports, .scrubs, .slices]) (by decide))
    have hport : (svcStore w n b.payload).port n = v.port n := (hsk.port (by decide) n).trans (hlk.port (by decide) n)
    have hmesh : (svcStore w n b.payload).mesh = s.mesh :=
      (hsk .mesh (by decide) :).trans ((hlk .mesh (by decide) :).trans ((hvk .mesh (by decide) :).trans (berthed_keeps s n b .mesh (by decide) :)))
    refine ⟨freeBerth (svcStore w n b.payload) n (poolFor b), congrArg Host.Outcome.next ((bundleIn_home h hd).trans (by rw [hc])),
      hall.trans ((freeBerth_keeps' _ _ _).mono (by decide)), hmesh, ?_, ?_⟩
    · rw [freeBerth_port, hport, hvp, berthed_port]
    · have hwin : ((freeBerth (svcStore w n b.payload) n (poolFor b)).port n).win = sset (fun _ => none) ((berthed s n b).port n).win
          (fcKey (headerOf b.header).src.toNat (headerOf b.header).svc) (some (headerOf b.header).seq) := by
        rw [freeBerth_port, hport, hvp]
      rw [hwin, hsvc]
      exact sget_sset_same (α := Option W16) _ _ _ _

end Sys2Proof
end

section
/-! PROOFS. The host's own requests: CXL.mem reads and writes of the window, and H2D snoops (09 R366, R367, R369). -/

namespace Sys2Proof

open Sys2Proof.Machine

section
variable {s : State} {l : Line}

/-! ## A request that home serves at once -/

theorem hostMem_taken {hpa : BitVec 64} {o : Nat} (hc : cxlMode s = true) (hf : s.frz.on = false) (hm : s.lw.move = none)
    (hw : windowOff s hpa.toNat = some o) (q : HomeReq) : hostMem s hpa q = hostReq s (windowLine s o) hpa q := by
  unfold hostMem
  rw [if_neg (by simp [hc]), if_neg (by simp [hf]), hw]
  simp only [windowReq, hm]

theorem hostReq_served (h : PlainLine s l) (hw : (s.slice (homeOf l)).waiting = []) (hpa : BitVec 64) {q : HomeReq} (hq : q.master = none)
    (hroom : roomReady s l q = true) : hostReq s l hpa q = serve s l ⟨0, false, false⟩ 0 false q := by
  unfold hostReq
  simp only [h.idle, hw, h.notHeld, hroom, homeReq, hq, List.any_nil, Bool.not_false, Bool.and_self, if_true, Bool.false_eq_true, if_false]

/-- A line of a slice that tracks nothing has room for its entry. -/
theorem PlainLine.readReady (h : PlainLine s l) (hl : (s.slice (homeOf l)).lines = []) (own data : Bool) :
    roomReady s l (.hostRd own data) = true := by
  have hfree : shadowFree s l = true := by simp [shadowFree, shadowsOf, setEntries, hl]
  unfold roomReady
  simp [slAllocs_off h.off, hfree]

/-! ## Reads -/

/-- The entry that home makes of a host copy. -/
def hostEntry (own : Bool) : SLine := { noLine with h := if own then .owned else .shared }

/-- A host read of a plain line: home reads memory and notes the copy. -/
def hostRead (s : State) (l : Line) (own : Bool) : State := setSl (countSl s l) l (hostEntry own)

theorem serveHostRd_plain (h : PlainLine s l) (hl : (s.slice (homeOf l)).lines = []) (own data : Bool) :
    serveHostRd s l own data = emit (hostRead s l own) (if data then .memData (memLine s l.num.toNat).1 false else .memCmp) := by
  have hdrop : (if own then (dropCopies (countSl s l) l none).1 else countSl s l) = countSl s l := by
    rw [dropCopies_absent h.counted.absent, ite_self]
  have hmake : makeEntry (countSl s l) l = countSl s l := by
    have hroom : shadowRoom (countSl s l) l = countSl s l := by
      have hlines : ((countSl s l).slice (homeOf l)).lines = [] := hl
      unfold shadowRoom
      exact if_pos (by simp [shadowsOf, setEntries, hlines])
    unfold makeEntry
    rw [hroom, ite_self]
  unfold serveHostRd hostRead hostEntry
  simp only [fetchShared_plain h, hdrop, hmake, slGet_absent h.counted.absent]
  cases data <;> rfl

theorem hostRead_after (s : State) (l : Line) (own : Bool) : Keeps [.page .dc, .slices] s (hostRead s l own) ∧
    (slGet (hostRead s l own) l).h = (if own then .owned else .shared) := by
  refine ⟨setSl_keeps _ _ (by decide) ((countSl_keeps' s l).mono (by decide)), ?_⟩
  unfold hostRead
  rw [slGet_setSl_same]
  cases own <;> rfl

/-- A host read that the window takes. -/
theorem hostRead_runs {hpa : BitVec 64} {o : Nat} (hc : cxlMode s = true) (hf : s.frz.on = false) (hm : s.lw.move = none)
    (hw : windowOff s hpa.toNat = some o) (hl : l = windowLine s o) (h : PlainLine s l) (hlines : (s.slice (homeOf l)).lines = [])
    (hwait : (s.slice (homeOf l)).waiting = []) (own data : Bool) :
    hostMem s hpa (.hostRd own data) = emit (hostRead s l own) (if data then .memData (memLine s l.num.toNat).1 false else .memCmp) := by
  rw [hostMem_taken hc hf hm hw, ← hl, hostReq_served h hwait hpa rfl (h.readReady hlines own data)]
  exact serveHostRd_plain h hlines own data

/-! ## Writes -/

/-- A host write of a plain line, which leaves it with no host copy. -/
theorem serveHostWr_plain (h : PlainLine s l) (d : BitVec 512) (mask : BitVec 64) :
    ∃ u, serveHostWr s l d mask false = emit u .memCmp ∧ u.out = s.out ∧ (slGet u l).h = .none ∧
      readBytes u.dm (64 * l.num.toNat) 64 = natBytes 64 (mergeLine (memLine s l.num.toNat).1 d mask).toNat := by
  have hset : setSl s l { slGet s l with h := .none } = s := setSl_absent h.absent (by rw [slGet_absent h.absent]; decide)
  have hwritten : ∀ u, LineWritten (countSl s l) u l.num.toNat d mask → u.out = s.out ∧ (slGet u l).h = .none ∧
      readBytes u.dm (64 * l.num.toNat) 64 = natBytes 64 (mergeLine (memLine s l.num.toNat).1 d mask).toNat := fun u hu => by
    refine ⟨hu.out.trans (countSl_out s l).1, ?_, ?_⟩
    · have hline : slLine u l = none := by
        unfold slLine
        rw [hu.keeps.slice (by decide)]
        exact h.counted.absent
      rw [slGet_absent hline]
      rfl
    · rw [readBytes_line, hu.line]
      rfl
  have hserve : serveHostWr s l d mask false = emit (if mask = BitVec.allOnes 64 then serveWrinv s 33 0 l d 0 false
      else if mask = 0 then s else serveWrpart s 33 0 l d mask 0 false) .memCmp := by
    unfold serveHostWr
    simp only [hset, Bool.false_eq_true, if_false]
  refine ⟨_, hserve, ?_⟩
  split_ifs with hall hnone
  · subst hall
    exact hwritten _ (serveWrinv_plain h 33 0 d false)
  · subst hnone
    refine ⟨rfl, by rw [slGet_absent h.absent]; rfl, ?_⟩
    rw [readBytes_line, mergeLine_none]
  · exact hwritten _ (serveWrpart_plain h 33 0 d mask false)

theorem hostWrite_runs {hpa : BitVec 64} {o : Nat} (hc : cxlMode s = true) (hf : s.frz.on = false) (hm : s.lw.move = none)
    (hw : windowOff s hpa.toNat = some o) (hl : l = windowLine s o) (h : PlainLine s l) (hwait : (s.slice (homeOf l)).waiting = [])
    (d : BitVec 512) (mask : BitVec 64) : hostMemWr s hpa d mask false = serveHostWr s l d mask false := by
  unfold hostMemWr
  simp only [Bool.false_and, when, Bool.false_eq_true, if_false]
  rw [hostMem_taken hc hf hm hw, ← hl, hostReq_served h hwait hpa rfl rfl]
  rfl

/-! ## Snoops -/

theorem aside_cancelMiss (s : State) (l l' : Line) : Aside l s (cancelMiss s l') := by
  unfold cancelMiss
  refine Aside.trans (t := s.setSlice (homeOf l') { s.slice (homeOf l') with misses := (s.slice (homeOf l')).misses.filter fun m => decide (m.line ≠ l') }) ?_
    (aside_foldl (fun u m => aside_foldl (fun v (r : Fin 58 × Option (Fin 256)) => aside_addRetry v l l' r.1 1) _ _) _ _)
  have hslice : ∀ k : Fin 16, ((s.setSlice (homeOf l') { s.slice (homeOf l') with
      misses := (s.slice (homeOf l')).misses.filter fun m => decide (m.line ≠ l') }).slice k) =
        if k = homeOf l' then { s.slice (homeOf l') with misses := (s.slice (homeOf l')).misses.filter fun m => decide (m.line ≠ l') } else s.slice k :=
    fun k => by
      split_ifs with hk
      · rw [hk, setSlice_slice_same]
      · rw [setSlice_slice_other _ _ hk]
  refine ⟨?_, fun _ => rfl, fun k => ?_, fun k => ?_, fun _ => rfl, rfl⟩
  · unfold slLine
    rw [hslice]
    split_ifs with hk
    · rw [hk]
    · rfl
  · rw [hslice]
    split_ifs with hk
    · rw [hk]
    · rfl
  · rw [hslice]
    split_ifs with hk
    · rw [hk]
    · rfl

/-- What no turn of a loop changes, the loop leaves as it was. -/
theorem foldl_unchanged {α β : Type} (f : State → β) {g : State → α → State} (h : ∀ u i, f (g u i) = f u) (is : List α) (u : State) :
    f (is.foldl g u) = f u := by
  induction is generalizing u with
  | nil => rfl
  | cons i is ih => exact (ih _).trans (h u i)

theorem cancelMiss_out (s : State) (l : Line) : (cancelMiss s l).out = s.out :=
  foldl_unchanged State.out (fun u _ => foldl_unchanged State.out (fun v _ => addRetry_out v _ _ _) _ u) _ _

theorem cancelGrant_out (s : State) (k : Fin 16) (l : Line) : (cancelGrant s k l).out = s.out := by
  unfold cancelGrant
  split_ifs
  · exact addRetry_out _ _ _ _
  · rfl

/-- The line's state once its fills are sent for again: what a snoop finds. -/
def unfilled (s : State) (l : Line) (ks : List (Fin 16)) : State := ks.foldl (fun t k => cancelGrant t k l) (cancelMiss s l)

theorem unfilled_after (s : State) (l : Line) (ks : List (Fin 16)) :
    Keeps [.clusters, .slices] s (unfilled s l ks) ∧ Aside l s (unfilled s l ks) ∧ (unfilled s l ks).out = s.out := by
  refine ⟨?_, ?_, ?_⟩
  · exact keeps_foldl (fun u k => cancelGrant_keeps _ _ (by decide)) _ (cancelMiss_keeps _ (by decide) (Keeps.refl _ s))
  · exact (aside_cancelMiss s l l).trans (aside_foldl (fun u k => aside_cancelGrant u k l l) _ _)
  · exact (foldl_unchanged State.out (fun u k => cancelGrant_out u k l) _ _).trans (cancelMiss_out s l)

/-- Modified data of the host's own line are at home, whether the slice is on or not. -/
theorem homeData_held {e : SLine} {d : BitVec 512} (hh : l.host = true) (he : slLine s l = some e) (hd : e.data = some d) (hm : e.dirty = true)
    (res : HostAnswer) : homeData s l res = (countSl s l, d, e.poison, false) := by
  have hget : slGet s l = e := by simp [slGet, he]
  have hserves : slServes s l = true := by simp [slServes, hget, hd, hh, hm]
  unfold homeData
  simp only [hserves, hget, hd]

/-- SnpData of a modified line that no cluster owns: the slice gives its data and keeps S. -/
theorem snoopData_held {e : SLine} {d : BitVec 512} (hh : l.host = true) (he : slLine s l = some e) (hc : e.cxl = some .m) (hd : e.data = some d)
    (hm : e.dirty = true) (ho : e.owned = false) (hf : e.fwd = none) :
    snoopData s l = emit (setSl (cancelMiss (countSl (unfilled s l e.sharers) l) l) l { e with dirty := false, cxl := some .s })
      (.snoopResp (some .s) (some d)) := by
  have hget : slGet s l = e := by simp [slGet, he]
  obtain ⟨-, ha, -⟩ := unfilled_after s l e.sharers
  have hfetch : fetchShared (unfilled s l e.sharers) l ⟨0, false, false⟩ = (countSl (unfilled s l e.sharers) l, d, e.poison) := by
    unfold fetchShared
    simp only [ha.slGet.trans hget, ho, hf, Bool.false_eq_true, if_false, homeData_held hh (ha.entry.trans he) hd hm]
  have hafter : slGet (cancelMiss (countSl (unfilled s l e.sharers) l) l) l = e :=
    (aside_cancelMiss _ l l).slGet.trans (ha.slGet.trans hget)
  unfold unfilled at *
  unfold snoopData
  simp only [hget, hc, hfetch, hafter, if_true]

/-- With every slice empty there is no host line to drop. -/
theorem dropHostLines_empty (h : ∀ n : Fin 16, (s.slice n).lines = [] ∧ (s.slice n).misses = []) : dropHostLines s = s := by
  have hall : ∀ x ∈ s.slices.toList, x.lines = [] ∧ x.misses = [] := fun x hx => by
    obtain ⟨i, hi, rfl⟩ := List.getElem_of_mem hx
    exact h ⟨i, by simpa using hi⟩
  have hloop : ∀ (g : State → Slice → State) (xs : List Slice), (∀ x ∈ xs, g s x = s) → xs.foldl g s = s := fun g xs hg => by
    induction xs with
    | nil => rfl
    | cons x xs ih =>
      rw [List.foldl_cons, hg x List.mem_cons_self]
      exact ih fun y hy => hg y (List.mem_cons_of_mem _ hy)
  unfold dropHostLines
  extract_lets s1
  have hs1 : s1 = s := hloop _ _ fun x hx => by rw [(hall x hx).2]; rfl
  rw [hs1]
  exact hloop _ _ fun x hx => by rw [(hall x hx).1]; rfl

end

/-! ## The statement -/

/-- Settles O35: host requests that home serves from memory, snoops of modified lines, Cache Writeback and Invalidate. -/
theorem hostSide : Obligations.HostSide := by
  unfold Obligations.HostSide
  refine ⟨?read, ?readData, ?inv, ?write, ?part, ?outside, ?snpNone, ?snpData, ?snpInv, ?snpCur, ?wbi, ?frozen, fun s => settle_keeps (by decide) (Keeps.refl _ s)⟩
  case read =>
    intro s hpa o l own hc hf hm hw hl h hlines hwait
    obtain ⟨hk, hh⟩ := hostRead_after s l own
    obtain ⟨hdm, -⟩ : (hostRead s l own).dm = s.dm ∧ (hostRead s l own).poison = s.poison := hk .dm (by decide)
    refine ⟨_, congrArg Host.Outcome.next (hostRead_runs hc hf hm hw hl h hlines hwait own true), hk.mono (by decide), ?_, hh, hdm⟩
    exact congrArg (· ++ _) (countSl_out s l).1
  case readData =>
    intro s hpa o l hc hf hm hw hl h hlines hwait
    obtain ⟨hk, hh⟩ := hostRead_after s l false
    refine ⟨_, congrArg Host.Outcome.next (hostRead_runs hc hf hm hw hl h hlines hwait false true), hk.mono (by decide), ?_, hh⟩
    exact congrArg (· ++ _) (countSl_out s l).1
  case inv =>
    intro s hpa o l own hc hf hm hw hl h hlines hwait
    obtain ⟨hk, hh⟩ := hostRead_after s l own
    refine ⟨_, congrArg Host.Outcome.next (hostRead_runs hc hf hm hw hl h hlines hwait own false), hk.mono (by decide), ?_, hh⟩
    exact congrArg (· ++ _) (countSl_out s l).1
  case write =>
    intro s hpa o l d hc hf hm hw hl h hwait
    obtain ⟨u, hu, hout, hh, hbytes⟩ := serveHostWr_plain h d (BitVec.allOnes 64)
    have hk : Keeps [.page .lw, .page .ep, .page .dc, .page .mc, .clusters, .dm, .slices, .lw, .cxl, .frz, .scrubs] s
        (serveHostWr s l d (BitVec.allOnes 64) false) := serveHostWr_keeps _ _ _ _ (by decide) (Keeps.refl _ s)
    rw [hu] at hk
    refine ⟨_, congrArg Host.Outcome.next ((hostWrite_runs hc hf hm hw hl h hwait d _).trans hu), hk, congrArg (· ++ _) hout, hh, ?_⟩
    rw [mergeLine_all] at hbytes
    exact hbytes
  case part =>
    intro s hpa o l d mask hc hf hm hw hl h hwait
    obtain ⟨u, hu, hout, -, hbytes⟩ := serveHostWr_plain h d mask
    have hk : Keeps [.page .lw, .page .ep, .page .dc, .page .mc, .clusters, .dm, .slices, .lw, .cxl, .frz, .scrubs] s
        (serveHostWr s l d mask false) := serveHostWr_keeps _ _ _ _ (by decide) (Keeps.refl _ s)
    rw [hu] at hk
    exact ⟨_, congrArg Host.Outcome.next ((hostWrite_runs hc hf hm hw hl h hwait d _).trans hu), hk, congrArg (· ++ _) hout, hbytes⟩
  case outside =>
    intro s hpa own hc hf hw hmask
    have heq : hostMem s hpa (.hostRd own true) = raiseErr (emit s (.memData (BitVec.allOnes 512) true)) .ep 7 (hpa.toNat / 64 * 64) := by
      unfold hostMem
      rw [if_neg (by simp [hc]), if_neg (by simp [hf]), hw]
      rfl
    have hquiet : maskedSrc (emit s (.memData (BitVec.allOnes 512) true)) .ep 7 = true := by
      show (bit (preg s .ep 0x14) 7 && !(decide (fixedMask .ep / 2 ^ 7 % 2 = 1))) = true
      rw [hmask]
      rfl
    have hout : (raiseErr (emit s (.memData (BitVec.allOnes 512) true)) .ep 7 (hpa.toNat / 64 * 64)).out = s.out ++ [.memData (BitVec.allOnes 512) true] := by
      unfold raiseErr raiseErrX
      simp only [hquiet, if_true]
      unfold noteErr
      extract_lets first s1
      split_ifs <;> rfl
    exact ⟨_, congrArg Host.Outcome.next heq, raiseErr_keeps _ _ _ (by simp [classOf]) (Keeps.refl _ s), hout, raiseErr_bit _ _ _ (by omega)⟩
  case snpNone =>
    intro s l hh hc hnone
    have heq : snoopData s l = emit s (.snoopResp none none) := by unfold snoopData; simp only [hnone]
    refine ⟨_, congrArg Host.Outcome.next (if_pos (by simp [snoopable, hh, hc])), ?_, heq⟩
    rw [heq]
    exact Keeps.refl _ s
  case snpData =>
    intro s l e d hh hc he hcxl hd hm ho hf
    have heq := snoopData_held hh he hcxl hd hm ho hf
    obtain ⟨hk, -, hout⟩ := unfilled_after s l e.sharers
    have hall : Keeps [.page .dc, .clusters, .slices] s (snoopData s l) := by
      rw [heq]
      exact setSl_keeps _ _ (by decide) (cancelMiss_keeps _ (by decide) ((hk.mono (by decide)).trans ((countSl_keeps' _ l).mono (by decide))))
    refine ⟨snoopData s l, congrArg Host.Outcome.next (if_pos (by simp [snoopable, hh, hc])), hall, ?_⟩
    have hget : slGet (snoopData s l) l = { e with dirty := false, cxl := some .s } := by
      rw [heq]
      refine (slGet_setSl_same _ _ _).trans (if_neg ?_)
      simp [SLine.idle]
    refine ⟨?_, by rw [hget], by rw [hget], by rw [hget, hd]⟩
    rw [heq]
    refine congrArg (· ++ _) ((cancelMiss_out _ l).trans ((countSl_out _ l).1.trans hout))
  case snpInv =>
    intro s l e d hh hc he hcxl hd hnone
    have hget : slGet s l = e := by simp [slGet, he]
    have ha := aside_cancelMiss s l l
    have hout := cancelMiss_out s l
    have hk : Keeps [.clusters, .slices] s (cancelMiss s l) := cancelMiss_keeps _ (by decide) (Keeps.refl _ s)
    have heq : ∃ u, snoopInv s l = emit (setSl u l noLine) (.snoopResp none (some d)) ∧ u.out = (cancelMiss s l).out := by
      unfold snoopInv
      simp only [hget, hcxl, hd, dropCopies, ha.slGet, hnone, List.filter_nil, List.foldl_nil, if_true]
      exact ⟨_, rfl, rfl⟩
    obtain ⟨u, hu, hsame⟩ := heq
    refine ⟨snoopInv s l, congrArg Host.Outcome.next (if_pos (by simp [snoopable, hh, hc])), snoopInv_keeps _ (by decide) (Keeps.refl _ s), ?_, ?_⟩
    · rw [hu]
      exact congrArg (· ++ _) (hsame.trans hout)
    · rw [hu]
      exact slLine_setSl_same u l noLine
  case snpCur =>
    intro s l e d hh hc he hcxl hd hm ho
    have hget : slGet s l = e := by simp [slGet, he]
    have heq : snoopCur s l = emit (countSl s l) (.snoopResp (some .m) (some d)) := by
      unfold snoopCur serveRdcur
      simp only [hget, hcxl, ho, homeData_held hh he hd hm, hd, Option.isSome_some, Bool.false_eq_true, if_false, true_or, if_true]
    refine ⟨_, congrArg Host.Outcome.next ((if_pos (by simp [snoopable, hh, hc])).trans heq), countSl_keeps' s l, ?_⟩
    exact congrArg (· ++ _) (countSl_out s l).1
  case wbi =>
    intro s hf hempty hd hw
    set u : State := { s with cxl := { s.cxl with wbWaiting := true } } with hu
    have hdrop : dropHostLines u = u := dropHostLines_empty hempty
    have hcheck : wbCheck u = { u with cxl := { u.cxl with wbWaiting := false, cacheInvalid := true } } := by
      have hd' : u.cxl.d2h = [] := hd
      have hw' : u.cxl.wq = [] := hw
      have hf' : u.frz.on = false := hf
      unfold wbCheck
      rw [hd', hw', hf']
      exact if_pos rfl
    refine ⟨_, congrArg Host.Outcome.next ((if_neg (by simp [hf])).trans ((congrArg wbCheck hdrop).trans hcheck)), ?_, rfl, rfl⟩
    exact put_cxl_keeps _ (by decide) (put_cxl_keeps _ (by decide) (Keeps.refl _ s))
  case frozen =>
    intro s hf
    exact ⟨_, congrArg Host.Outcome.next (if_pos hf), put_cxl_keeps _ (by decide) (Keeps.refl _ s), rfl⟩

end Sys2Proof
end

section
/-! PROOFS. Lines of a cluster cache: missed and granted, replaced, snooped, filled (08 R320 to R324, R348). -/

namespace Sys2Proof

open Sys2Proof.Machine

section
variable {s t : State} {l : Line} {cl : Fin 16}

/-! ## A miss register opens -/

/-- The state in which a cluster cache has opened a register for a line. -/
def missOpened (s : State) (cl : Fin 16) (l : Line) : State :=
  cntPreg (s.setCl cl { s.cl cl with cc := { (s.cl cl).cc with misses := (s.cl cl).cc.misses ++ [⟨l, [(fin 58 cl.val, none)], none⟩] } }) (.cl cl) 0x114 1

theorem missOpened_cl (s : State) (cl : Fin 16) (l : Line) : (missOpened s cl l).cl cl =
    { s.cl cl with cc := { (s.cl cl).cc with misses := (s.cl cl).cc.misses ++ [⟨l, [(fin 58 cl.val, none)], none⟩] } } := setCl_cl_same _ _ _

theorem missOpened_other (s : State) (l : Line) {k : Fin 16} (h : k ≠ cl) : (missOpened s cl l).cl k = s.cl k := setCl_cl_other _ _ h

theorem missOpened_keeps (s : State) (cl : Fin 16) (l : Line) : Keeps [.page .cl, .clusters] s (missOpened s cl l) :=
  cntPreg_keeps _ _ _ (by omega) (by simp [classOf]) (State.setCl_keeps _ _ (by decide) (Keeps.refl _ s))

theorem aside_missOpened (s : State) (cl : Fin 16) (l : Line) : Aside l s (missOpened s cl l) :=
  (aside_setMisses s l cl _).trans (aside_cntPreg _ _ _ (by omega) (by omega))

theorem grantOut_missOpened (s : State) (cl : Fin 16) (l : Line) : grantOut (missOpened s cl l) l = grantOut s l := by
  unfold grantOut
  refine congrArg ((List.finRange 16).any ·) (funext fun c => ?_)
  by_cases hc : c = cl
  · rw [hc, missOpened_cl]
    simp
  · rw [missOpened_other _ _ hc]

/-- What a new register leaves of the line's slice, and of its memory. -/
theorem missOpened_slice (s : State) (cl : Fin 16) (l : Line) (n : Fin 16) : (missOpened s cl l).slice n = s.slice n :=
  (missOpened_keeps s cl l).slice (by decide) n

theorem PlainLine.opened (h : PlainLine s l) (cl : Fin 16) : PlainLine (missOpened s cl l) l := by
  obtain ⟨hd, ha, ho, hb, hm, hr, hg, hc, hf, h0, h1⟩ := h
  refine ⟨hd, (aside_missOpened s cl l).entry.trans ha, ?_, ?_, ?_, ?_, (grantOut_missOpened s cl l).trans hg, hc, (aside_missOpened s cl l).served hf, h0, h1⟩
  all_goals rw [missOpened_slice]; assumption

theorem lineBusy_missOpened (s : State) (cl : Fin 16) (l : Line) : lineBusy (missOpened s cl l) l = lineBusy s l := by
  unfold lineBusy slMissing
  rw [(aside_missOpened s cl l).biOn, missOpened_slice, grantOut_missOpened]

theorem HomeFree.opened (h : HomeFree s l) (cl : Fin 16) : HomeFree (missOpened s cl l) l := by
  obtain ⟨hd, hb, hr, hc, hm⟩ := h
  exact ⟨hd, (lineBusy_missOpened s cl l).trans hb, by rw [missOpened_slice]; exact hr, hc, by rw [missOpened_slice]; exact hm⟩

/-- A miss that finds a register free opens it and goes to home. -/
theorem clusterMiss_opens (he : (s.cl cl).cc.enabled = true) (hn : ((s.cl cl).cc.misses.any fun m => decide (m.line = l)) = false)
    (hlen : (s.cl cl).cc.misses.length < 64) (res : HostAnswer) (q : HomeReq) :
    clusterMiss s cl l res q = homeReq (missOpened s cl l) l res 0 false q := by
  unfold clusterMiss
  rw [if_neg (by simp [he]), if_neg (by simp [hn]), if_neg (by omega)]
  rfl

/-! ## The grant -/

/-- A grant goes into the register that was opened last. -/
theorem grantLine_last {ms : List MissReg} {x : List (Fin 58 × Option (Fin 256))} (hm : (s.cl cl).cc.misses = ms ++ [⟨l, x, none⟩])
    (hn : (ms.any fun m => decide (m.line = l)) = false) (g : CLine) :
    ((grantLine s cl l g).cl cl).cc.misses = ms ++ [⟨l, x, some g⟩] := by
  have hmap : ms.map (fun m => if m.line = l then { m with grant := some g } else m) = ms := by
    refine (List.map_congr_left (g := id) fun m hm => if_neg ?_).trans (List.map_id ms)
    simpa using List.any_eq_false.mp hn m hm
  have hopen : ((ms ++ [(⟨l, x, none⟩ : MissReg)]).any fun m => decide (m.line = l)) = true := by simp
  unfold grantLine
  rw [setCl_cl_same]
  simp only [hm, hopen, if_true, List.map_append, hmap, List.map_cons, List.map_nil]

theorem aside_grantLine (s : State) (cl : Fin 16) (l : Line) (g : CLine) : Aside l s (grantLine s cl l g) := aside_setMisses s l cl _

/-- A register opened and granted at once. -/
theorem grant_misses {u : State} (hu : (u.cl cl).cc.misses = ((missOpened s cl l).cl cl).cc.misses)
    (hn : ((s.cl cl).cc.misses.any fun m => decide (m.line = l)) = false) (g : CLine) :
    ((grantLine u cl l g).cl cl).cc.misses = (s.cl cl).cc.misses ++ [⟨l, [(fin 58 cl.val, none)], some g⟩] :=
  grantLine_last (hu.trans (by rw [missOpened_cl])) hn g

theorem grantOut_nobody (h : grantOut s l = false) (k : Fin 16) : grantedTo s k l = none := by
  have hk := List.any_eq_false.mp h k (List.mem_finRange k)
  unfold grantedTo
  cases hf : (s.cl k).cc.misses.find? fun m => decide (m.line = l) with
  | none => rfl
  | some m =>
    have hline : m.line = l := by simpa using List.find?_some hf
    have hnone : m.grant.isSome = false := by
      have hm := List.any_eq_false.mp (Bool.not_eq_true _ ▸ hk : _ = false) m (List.mem_of_find?_eq_some hf)
      simpa [hline] using hm
    simpa using hnone

theorem cancelGrant_nobody {k : Fin 16} (h : grantedTo s k l = none) : cancelGrant s k l = s := by
  unfold cancelGrant
  rw [h]
  rfl

/-! ## Home serves -/

theorem HomeFree.idle (h : HomeFree s l) : lineBusy s l = false := h.2.1

theorem HomeFree.device (h : HomeFree s l) : l.host = false := h.1

theorem HomeFree.noGrant (h : HomeFree s l) (k : Fin 16) : grantedTo s k l = none := by
  refine grantOut_nobody ?_ k
  have hb := h.idle
  simp only [lineBusy, Bool.or_eq_false_iff] at hb
  exact hb.2

/-- An entry that names a cluster is not idle. -/
theorem not_idle {e : SLine} (h : e.presence ≠ 0) : e.idle = false := by
  unfold SLine.idle
  rw [decide_eq_false h, Bool.and_false, Bool.false_and, Bool.false_and]

theorem slGet_setSl_named {e : SLine} (h : e.presence ≠ 0) : slGet (setSl s l e) l = e :=
  (slGet_setSl_same s l e).trans (if_neg (by rw [not_idle h]; exact Bool.false_ne_true))

/-- Home serves a request for a tracked line that the host holds no copy of. -/
theorem HomeFree.served (h : HomeFree s l) {e : SLine} (he : slLine s l = some e) (hh : e.h = .none) (hp : e.presence ≠ 0) {q : HomeReq} {m : Fin 58}
    (hq : q.master = some m) (res : HostAnswer) : homeReq s l res 0 false q = serve s l res 0 false q := by
  obtain ⟨hd, hb, hr, hc, hm⟩ := h
  have hget : slGet s l = e := by simp [slGet, he]
  have hroom : roomReady s l q = true := by
    have hidle : e.idle = false := not_idle hp
    unfold roomReady
    cases q <;> simp [hget, hidle, hm]
  have hbi : needsBi s l q = false := by
    unfold needsBi
    cases q <;> simp [hget, hh]
  exact homeReq_served hq (hostWaits_device hd q) hb hr (by simp [chunkHeld, hc]) hroom hbi

/-- Home serves a request to keep a copy of a plain line, in a slice that tracks nothing. -/
theorem PlainLine.served (h : PlainLine s l) (hl : (s.slice (homeOf l)).lines = []) {q : HomeReq} {m : Fin 58} (hq : q.master = some m)
    (res : HostAnswer) : homeReq s l res 0 false q = serve s l res 0 false q := by
  have hroom : roomReady s l q = true := by
    have hfree : shadowFree s l = true := by simp [shadowFree, shadowsOf, setEntries, hl]
    unfold roomReady
    cases q <;> simp [slAllocs_off h.off, hfree]
  exact homeReq_served hq (hostWaits_device h.device q) h.idle h.nobody h.notHeld hroom (h.noBi q)

theorem sharers_mem {e : SLine} {k : Fin 16} (h : e.sharers = [k]) : e.presence.getLsbD k.val = true := by
  have hk : k ∈ e.sharers := by rw [h]; exact List.mem_singleton_self k
  simpa [SLine.sharers] using hk

theorem presence_of_sharers {e : SLine} {k : Fin 16} (h : e.sharers = [k]) : e.presence ≠ 0 := fun h0 => by
  have hk := sharers_mem h
  rw [h0] at hk
  simp at hk

theorem askHost_served (hd : l.host = false) (op : BitVec 4) : askHost s l op = s := by simp [askHost, hd]

theorem askOwn_served (hd : l.host = false) : askOwn s l = s := by simp [askOwn, hd]

/-! ## Other entries of the set -/

theorem mem_serase {α : Type} {k : Nat} {m : Sparse α} {y : Nat × α} (h : y ∈ serase k m) : y ∈ m := by
  induction m with
  | nil => exact h
  | cons e m ih =>
    unfold serase at h
    split_ifs at h with hk
    · exact List.mem_cons_of_mem _ (ih h)
    · rcases List.mem_cons.mp h with rfl | h
      · exact List.mem_cons_self
      · exact List.mem_cons_of_mem _ (ih h)

theorem mem_sput {α : Type} {k : Nat} {v : α} {m : Sparse α} {y : Nat × α} (h : y ∈ sput k v m) (hy : y.1 ≠ k) : y ∈ m := by
  induction m with
  | nil => exact absurd (congrArg Prod.fst (List.mem_singleton.mp h)) hy
  | cons e m ih =>
    unfold sput at h
    split_ifs at h with hlt hk
    · rcases List.mem_cons.mp h with rfl | h
      · exact absurd rfl hy
      · exact h
    · rcases List.mem_cons.mp h with rfl | h
      · exact absurd rfl hy
      · exact List.mem_cons_of_mem _ h
    · rcases List.mem_cons.mp h with rfl | h
      · exact List.mem_cons_self
      · exact List.mem_cons_of_mem _ (ih h)

/-- Setting a line's entry adds no other entry to its slice. -/
theorem mem_setSl {e : SLine} {y : Nat × SLine} (h : y ∈ ((setSl s l e).slice (homeOf l)).lines) (hy : y.1 ≠ lineKey l) : y ∈ (s.slice (homeOf l)).lines := by
  rw [setSl_slice_same] at h
  by_cases he : e.idle = true
  · rw [he] at h
    exact mem_serase h
  · rw [if_neg he] at h
    exact mem_sput h hy

/-- No line of the slice but this one lies in its set. -/
def Alone (s : State) (l : Line) : Prop := ∀ y ∈ (s.slice (homeOf l)).lines, slSetOf y.1 = slSetOf (lineKey l) → y.1 = lineKey l

theorem alone_of_filter (h : ((setEntries (s.slice (homeOf l)) (slSetOf (lineKey l))).filter fun y => decide (y.1 ≠ lineKey l)) = []) : Alone s l :=
  fun y hy hset => by
    have hnot := List.filter_eq_nil_iff.mp h y (List.mem_filter.mpr ⟨hy, by simpa using hset⟩)
    simpa using hnot

theorem Alone.setSl (h : Alone s l) (e : SLine) : Alone (setSl s l e) l := fun y hy hset => by
  by_cases hk : y.1 = lineKey l
  · exact hk
  · exact h y (mem_setSl hy hk) hset

/-- No shadow entry of the set is in use: none has to be recalled. -/
theorem makeEntry_free (h : Alone s l) : makeEntry s l = s := by
  have hnone : shadowsOf s l = [] := by
    refine List.filter_eq_nil_iff.mpr fun y hy hk => ?_
    obtain ⟨hin, hset⟩ := List.mem_filter.mp hy
    simp only [Bool.and_eq_true, decide_eq_true_eq] at hk
    obtain ⟨⟨-, hne⟩, -⟩ := hk
    exact hne (h y hin (by simpa using hset))
  have hroom : shadowRoom s l = s := by unfold shadowRoom; rw [if_pos (by rw [hnone]; exact Nat.zero_lt_succ _)]
  unfold makeEntry
  rw [hroom, ite_self]

/-! ## Granted from memory -/

/-- Home has granted a plain line to one cluster, in a state. -/
def grantedAlone (s : State) (cl : Fin 16) (l : Line) (st : Mesf) : State :=
  grantLine (setSl (countSl s l) l { noLine with presence := setBit 0 cl.val true, owned := true }) cl l ⟨st, (memLine s l.num.toNat).1, 0, 0⟩

theorem makeEntry_empty (hl : (s.slice (homeOf l)).lines = []) : makeEntry s l = s := makeEntry_free fun y hy => absurd hy (by rw [hl]; exact List.not_mem_nil)

theorem serveRds_plain (h : PlainLine s l) (hl : (s.slice (homeOf l)).lines = []) (cl : Fin 16) (res : HostAnswer) :
    serveRds s cl l res = grantedAlone s cl l .e := by
  have hmake : makeEntry (countSl s l) l = countSl s l := makeEntry_empty hl
  unfold serveRds grantedAlone
  simp only [fetchShared_plain h, hmake, slGet_absent h.absent, slGet_absent h.counted.absent, h.device, Bool.false_eq_true, if_false]
  rfl

theorem serveRdo_plain (h : PlainLine s l) (hl : (s.slice (homeOf l)).lines = []) (cl : Fin 16) (res : HostAnswer) :
    serveRdo s cl l res = grantedAlone s cl l .m := by
  have hmake : makeEntry (countSl s l) l = countSl s l := makeEntry_empty hl
  unfold serveRdo grantedAlone
  simp only [fetchShared_plain h, dropCopies_absent h.counted.absent, hmake, slGet_absent h.counted.absent, h.device, Bool.false_eq_true, if_false]
  rfl

theorem setBit_ne (p : W16) (cl : Fin 16) : setBit p cl.val true ≠ 0 := fun h => by
  have hb : (setBit p cl.val true).getLsbD cl.val = true := bit_setBit_in p true cl.isLt
  rw [h] at hb
  simp at hb

theorem grantedAlone_after (s : State) (cl : Fin 16) (l : Line) (st : Mesf) :
    slGet (grantedAlone s cl l st) l = { noLine with presence := setBit 0 cl.val true, owned := true } ∧ (grantedAlone s cl l st).dm = s.dm := by
  refine ⟨?_, rfl⟩
  unfold grantedAlone
  rw [(aside_grantLine _ cl l _).slGet]
  exact slGet_setSl_named (e := { noLine with presence := setBit 0 cl.val true, owned := true }) (setBit_ne 0 cl)

/-! ## Granted from another cluster -/

/-- The owner's clean copy is sent on and becomes S. -/
def ownerShared (s : State) (k : Fin 16) (l : Line) (e : SLine) (x : CLine) : State :=
  setSl (setCcLine s k l (some { x with st := .s })) l { e with owned := false }

theorem fetchShared_owner {e : SLine} {x : CLine} {k : Fin 16} (he : slLine s l = some e) (ho : e.owned = true) (hs : e.sharers = [k])
    (hx : ccLine s k l = some x) (hst : x.st = .e) (res : HostAnswer) : fetchShared s l res = (ownerShared s k l e x, x.data, x.poison) := by
  have hget : slGet s l = e := by simp [slGet, he]
  have hsame : slGet (setCcLine s k l (some { x with st := .s })) l = slGet s l := rfl
  have hne : ¬x.st = .s := by rw [hst]; decide
  have hnm : ¬x.st = .m := by rw [hst]; decide
  unfold fetchShared ownerShared
  simp only [hget, ho, if_true, hs, List.head?_cons, hx, if_neg hne, if_neg hnm, hsame]

theorem ownerShared_after {e : SLine} {x : CLine} {k : Fin 16} (hp : e.presence ≠ 0) :
    slGet (ownerShared s k l e x) l = { e with owned := false } ∧ ccLine (ownerShared s k l e x) k l = some { x with st := .s } := by
  refine ⟨slGet_setSl_named (e := { e with owned := false }) hp, ?_⟩
  exact ccLine_setCcLine_same s k l _

/-- A shared read of a line that another cluster owns clean: the reader becomes the forwarder. -/
theorem serveRds_owner {e : SLine} {x : CLine} {k : Fin 16} (hd : l.host = false) (he : slLine s l = some e) (ho : e.owned = true)
    (hs : e.sharers = [k]) (hx : ccLine s k l = some x) (hst : x.st = .e) (cl : Fin 16) (res : HostAnswer) :
    serveRds s cl l res = grantLine (setSl (ownerShared s k l e x) l { e with presence := setBit e.presence cl.val true, fwd := some cl, owned := false, cxl := none })
      cl l ⟨.f, x.data, x.poison, 0⟩ := by
  have hp := presence_of_sharers hs
  have hget : slGet s l = e := by simp [slGet, he]
  have hafter := (ownerShared_after (s := s) (l := l) (x := x) (k := k) hp).1
  have hmake : makeEntry (ownerShared s k l e x) l = ownerShared s k l e x := by
    unfold makeEntry
    rw [hafter, not_idle (e := { e with owned := false }) hp]
    rfl
  have hne : ¬(e.presence = 0) := hp
  unfold serveRds
  simp only [fetchShared_owner he ho hs hx hst, hmake, hafter, hget, hd, decide_eq_false hne, Bool.false_and, Bool.false_eq_true, if_false]

/-- A lone copy that is not modified is dropped, and home's entry forgets it. -/
theorem dropCopies_lone {e : SLine} {x : CLine} {k : Fin 16} (he : slGet s l = e) (hs : e.sharers = [k]) (hg : grantedTo s k l = none)
    (hx : ccLine s k l = some x) (hst : x.st ≠ .m) :
    dropCopies s l none = (setSl (setCcLine s k l none) l { e with presence := 0, fwd := none, owned := false }, none) := by
  have hdrop : dropCopy s k l = (setCcLine s k l none, none) := by
    unfold dropCopy
    simp only [cancelGrant_nobody hg, hx, if_neg hst]
  have hsame : slGet (setCcLine s k l none) l = e := he
  unfold dropCopies
  simp only [he, hs, List.filter_cons, reduceCtorEq, ne_eq, not_false_eq_true, decide_true, if_true, List.filter_nil, List.foldl_cons, List.foldl_nil, hdrop,
    hsame, decide_false, Bool.and_false, not_true_eq_false]
  split_ifs with hf
  · rw [hf]
  · rfl

theorem setCcLine_misses (s : State) (k j : Fin 16) (l : Line) (y : Option CLine) : ((setCcLine s k l y).cl j).cc.misses = (s.cl j).cc.misses := by
  unfold setCcLine
  by_cases hj : j = k
  · rw [hj, setCl_cl_same]
  · rw [setCl_cl_other _ _ hj]

/-- The entry that a grant leaves. -/
theorem slGet_granted (u : State) (cl : Fin 16) (l : Line) (g : CLine) {e : SLine} (hp : e.presence ≠ 0) : slGet (grantLine (setSl u l e) cl l g) l = e :=
  (aside_grantLine (setSl u l e) cl l g).slGet.trans (slGet_setSl_named hp)

/-- A read for ownership of a line that another cluster owns clean, in a set without shadow entries: its copy is dropped. -/
theorem serveRdo_owner {e : SLine} {x : CLine} {k : Fin 16} (hf : HomeFree s l) (he : slLine s l = some e) (ho : e.owned = true)
    (hs : e.sharers = [k]) (hx : ccLine s k l = some x) (hst : x.st = .e)
    (halone : Alone s l) (cl : Fin 16) (res : HostAnswer) :
    ∃ (u : State) (e' : SLine), serveRdo s cl l res = grantLine (setSl u l { e' with presence := setBit 0 cl.val true, fwd := none, owned := true, cxl := none })
      cl l ⟨.m, x.data, x.poison, 0⟩ ∧ ccLine u k l = none ∧ ∀ j, (u.cl j).cc.misses = (s.cl j).cc.misses := by
  have hp := presence_of_sharers hs
  obtain ⟨hget, hcopy⟩ := ownerShared_after (s := s) (l := l) (e := e) (x := x) (k := k) hp
  have hnot : grantedTo (ownerShared s k l e x) k l = none := by
    have hsame : grantedTo (ownerShared s k l e x) k l = grantedTo s k l := congrArg (fun ms => (List.find? (fun m : MissReg => decide (m.line = l)) ms).bind (·.grant)) (setCcLine_misses s k k l _)
    exact hsame.trans (hf.noGrant k)
  have hdrop := dropCopies_lone hget (by exact hs) hnot hcopy (by simp)
  set u := setSl (setCcLine (ownerShared s k l e x) k l none) l { e with presence := 0, fwd := none, owned := false } with hu
  have hmake : makeEntry u l = u := by
    have h1 : Alone (setCcLine s k l (some { x with st := .s })) l := halone
    have h2 : Alone (setCcLine (ownerShared s k l e x) k l none) l := h1.setSl { e with owned := false }
    exact makeEntry_free (h2.setSl _)
  refine ⟨u, slGet u l, ?_, ?_, fun j => ?_⟩
  · unfold serveRdo
    simp only [fetchShared_owner he ho hs hx hst, hdrop, hmake, hf.device, Bool.false_eq_true, if_false]
  · exact ccLine_setCcLine_same _ k l none
  · exact (setCcLine_misses _ k j l _).trans (setCcLine_misses _ k j l _)

/-- A sharer that is the only one becomes the owner. -/
theorem serveUpg_alone {e : SLine} {x : CLine} (hd : l.host = false) (he : slLine s l = some e) (ho : e.owned = false) (hs : e.sharers = [cl])
    (hx : ccLine s cl l = some x) (res : HostAnswer) : ∃ (u : State) (e' : SLine), serveUpg s cl l res =
      grantLine (setSl u l { e' with presence := setBit 0 cl.val true, fwd := none, owned := true, cxl := none }) cl l { x with st := .m } ∧
      ∀ j, (u.cl j).cc.misses = (s.cl j).cc.misses := by
  have hget : slGet s l = e := by simp [slGet, he]
  have hbit := sharers_mem hs
  obtain ⟨e1, hdrop, he1⟩ : ∃ e1, (dropCopies s l (some cl)).1 = setSl s l e1 ∧ e1.presence = setBit 0 cl.val true := by
    unfold dropCopies
    simp only [hget, hs, hbit, List.filter_cons, ne_eq, not_true_eq_false, decide_false, Bool.false_eq_true, if_false, List.filter_nil, List.foldl_nil, if_true]
    exact ⟨_, rfl, rfl⟩
  have hafter : slGet (setSl s l e1) l = e1 := slGet_setSl_named (by rw [he1]; exact setBit_ne 0 cl)
  refine ⟨setSl s l e1, e1, ?_, fun j => rfl⟩
  unfold serveUpg
  simp only [hx, hget, hbit, ho, and_self, if_true, hdrop, hafter, hd, Bool.false_eq_true, if_false, ← he1]

/-! ## Replaced, forwarded, invalidated -/

/-- After a clean notice home's entry does not name the cluster. -/
theorem homeClean_after (s : State) (cl : Fin 16) (l : Line) : (slGet (homeClean s cl l) l).presence.getLsbD cl.val = false ∧
    ((slGet (homeClean s cl l) l).fwd ≠ some cl ∨ (slGet s l).presence.getLsbD cl.val = false) := by
  have hbit : ∀ p : W16, (setBit p cl.val false).getLsbD cl.val = false := fun p => bit_setBit_in p false cl.isLt
  unfold homeClean
  by_cases hin : (slGet s l).presence.getLsbD cl.val = true
  · simp only [hin, if_true, slGet_setSl_same]
    split_ifs with hf
    · exact ⟨by simp [noLine], .inl (by simp [noLine])⟩
    · exact ⟨hbit _, .inl (by simp)⟩
    · exact ⟨by simp [noLine], .inl (by simp [noLine])⟩
    · exact ⟨hbit _, .inl hf⟩
  · have hout := Bool.eq_false_iff.mpr hin
    simp only [hout, Bool.false_eq_true, if_false]
    exact ⟨trivial, .inr trivial⟩

/-- What no new entry of the line changes, a clean notice leaves as it was. -/
theorem homeClean_unchanged {β : Type} (f : State → β) (h : ∀ e, f (setSl s l e) = f s) : f (homeClean s cl l) = f s := by
  unfold homeClean
  by_cases hin : (slGet s l).presence.getLsbD cl.val = true
  · rw [if_pos hin]
    exact h _
  · rw [if_neg hin]

theorem homeClean_cl (s : State) (cl k : Fin 16) (l : Line) : (homeClean s cl l).cl k = s.cl k := homeClean_unchanged (State.cl · k) fun _ => rfl

theorem homeClean_retries (s : State) (cl : Fin 16) (l : Line) : ((homeClean s cl l).slice (homeOf l)).retries = (s.slice (homeOf l)).retries :=
  homeClean_unchanged (fun u => (u.slice (homeOf l)).retries) fun e => by rw [setSl_slice_same]

/-- The first request of a slice that is answered RETRY. -/
theorem addRetry_first (h : (s.slice (homeOf l)).retries = []) (m : Fin 58) (age : BitVec 4) :
    addRetry s l m age = s.setSlice (homeOf l) { s.slice (homeOf l) with retries := [⟨l, m, age, false⟩] } := by
  unfold addRetry
  simp only [h, List.any_nil, Bool.false_eq_true, if_false, List.nil_append]

theorem ccLine_homeClean (s : State) (cl k : Fin 16) (l : Line) : ccLine (homeClean s cl l) k l = ccLine s k l :=
  homeClean_unchanged (ccLine · k l) fun _ => rfl

/-- A clean copy that is replaced: the line leaves the cache, and home is told. -/
theorem ccEvict_clean {x : CLine} (hx : ccLine s cl l = some x) (hst : x.st = .e ∨ x.st = .f) :
    ccEvict s cl l = homeClean (setCcLine s cl l none) cl l := by
  unfold ccEvict
  rw [hx]
  rcases hst with h | h <;> simp only [h]

/-- The entry of a line that is to be kept below, before its data go there. -/
theorem stored_entry (hd : l.host = false) (ho : (s.slice (homeOf l)).enabled = false) (d : BitVec 512) :
    (slGet (homeStore s l d 0) l).presence = (slGet s l).presence := by
  obtain ⟨-, hline, -⟩ := homeStore_below_line (s := s) hd ho d 0
  unfold slGet at hline ⊢
  rw [hline]
  split_ifs with hidle
  · have : ((slLine s l).getD noLine).presence = 0 := by
      simp only [SLine.idle, Bool.and_eq_true, decide_eq_true_eq] at hidle
      obtain ⟨⟨⟨-, hp⟩, -⟩, -⟩ := hidle
      exact hp
    rw [this]
    rfl
  · rfl

/-- An entry that is set names the clusters it names, idle or not. -/
theorem presence_setSl (s : State) (l : Line) (e : SLine) : (slGet (setSl s l e) l).presence = e.presence := by
  rw [slGet_setSl_same]
  split_ifs with hidle
  · simp only [SLine.idle, Bool.and_eq_true, decide_eq_true_eq] at hidle
    obtain ⟨⟨⟨-, hp⟩, -⟩, -⟩ := hidle
    exact hp.symm
  · rfl

theorem dropCopy_found {x : CLine} {k : Fin 16} (hx : ccLine s k l = some x) :
    dropCopy s k l = (setCcLine (cancelGrant s k l) k l none, if x.st = .m then some (x.data, x.poison) else none) := by
  have hcopy : ccLine (cancelGrant s k l) k l = some x := ((aside_cancelGrant s k l l).copies k).trans hx
  unfold dropCopy
  simp only [hcopy]

/-- The entry after its owner has sent the line on. -/
def forgetOwner (s : State) (cl : Fin 16) (l : Line) : State :=
  setSl s l { slGet s l with owned := false, fwd := (if (slGet s l).fwd = some cl then none else (slGet s l).fwd) }

/-! ## Fills -/

/-- The merged requests of a register that waits for no core are answered in their order. -/
theorem answerMerged_out (s : State) (m : MissReg) (d : BitVec 512) (p : BitVec 2) (h : (m.merged.all fun r => r.2.isNone) = true) :
    (answerMerged s m d p).out = s.out ++ m.merged.map fun r => .answer r.1 m.line d p := by
  unfold answerMerged
  generalize m.merged = ms at h
  induction ms generalizing s with
  | nil => simp
  | cons r ms ih =>
    simp only [List.all_cons, Bool.and_eq_true, Option.isNone_iff_eq_none] at h
    obtain ⟨hr, hms⟩ := h
    rw [List.foldl_cons, hr, ih _ hms]
    simp [emit]

theorem answerMerged_same {β : Type} (f : State → β) (hf : ∀ u o, f (emit u o) = f u) (s : State) (m : MissReg) (d : BitVec 512) (p : BitVec 2) :
    f (answerMerged s m d p) = f s := by
  refine foldl_unchanged f (fun u r => ?_) _ _
  split_ifs
  · rfl
  · exact hf _ _

theorem foldl_idle {α β : Type} {g : β → α → β} {u : β} {xs : List α} (h : ∀ x ∈ xs, g u x = u) : xs.foldl g u = u := by
  induction xs with
  | nil => rfl
  | cons x xs ih =>
    rw [List.foldl_cons, h x List.mem_cons_self]
    exact ih fun y hy => h y (List.mem_cons_of_mem _ hy)

theorem nobody_of_all {ms : List (Fin 58 × Option (Fin 256))} (h : (ms.all fun r => r.2.isNone) = true) {r : Fin 58 × Option (Fin 256)} (hr : r ∈ ms) :
    r.2 = none := by simpa using List.all_eq_true.mp h r hr

/-- The state in which the one register of a cluster cache has ended with its line. -/
def clusterFilled (s : State) (cl : Fin 16) (l : Line) (g : CLine) : State :=
  setCcLine (s.setCl cl { s.cl cl with cc := { (s.cl cl).cc with misses := [] } }) cl l (some g)

/-- The one register of a cluster cache is granted, its set is free: the line is installed and the requests answered. -/
theorem fillCache_cluster {g : CLine} {ms : List (Fin 58 × Option (Fin 256))} (way : Fin 16) (res : HostAnswer) (hon : (s.cl cl).cc.enabled = true)
    (hm : (s.cl cl).cc.misses = [⟨l, ms, some g⟩]) (hx : ccLine s cl l = none) (hw : (ccWays s cl).contains way.val = true)
    (hfree : ((s.cl cl).cc.lines.any fun e => decide (ccSetOf e.1 = ccSetOf (lineKey l))) = false) (hall : (ms.all fun r => r.2.isNone) = true) :
    fillCache s (.cluster cl) l way res =
      answerMerged (clusterFilled s cl l { g with way := BitVec.ofNat 4 way.val }) ⟨l, ms, some g⟩ g.data g.poison := by
  have hvictim : ccVictim s cl l way.val = none := by
    have hnone : ((s.cl cl).cc.lines.find? fun e => decide (ccSetOf e.1 = ccSetOf (lineKey l)) && decide (e.2.way.toNat = way.val)) = none := by
      refine List.find?_eq_none.mpr fun e he => ?_
      have := List.any_eq_false.mp hfree e he
      simp_all
    unfold ccVictim
    rw [hnone]
    rfl
  have hready : ccWayReady s cl l way.val = true := by
    unfold ccWayReady
    rw [hw, hvictim]
    simp
  have hinstall : clusterFill s cl l way.val g = clusterFilled s cl l { g with way := BitVec.ofNat 4 way.val } := by
    unfold clusterFill clusterFilled
    simp only [hx, hon, hvictim, hm, List.filter_cons, ne_eq, not_true_eq_false, decide_false, Bool.false_eq_true, Bool.true_eq_false, if_false, List.filter_nil]
  unfold fillCache clusterFillAll
  simp only [hm, List.find?_cons, decide_true, hready, if_true, hinstall]
  refine foldl_idle fun r hr => ?_
  rw [nobody_of_all hall hr]

/-- The state in which the one register of a slice has ended with its line in a data way. -/
def sliceFilled (s : State) (l : Line) (way : BitVec 4) (d : BitVec 512) (p : BitVec 2) : State :=
  setSl (s.setSlice (homeOf l) { s.slice (homeOf l) with misses := [] }) l { noLine with data := some d, poison := p, way := way }

/-- The one register of an empty slice is filled: the line is installed and the requests answered. -/
theorem fillCache_slice {ms : List (Fin 58 × Option (Fin 256))} (way : Fin 16) (res : HostAnswer) (hd : l.host = false)
    (hon : (s.slice (homeOf l)).enabled = true) (hm : (s.slice (homeOf l)).misses = [⟨l, ms, none⟩]) (hl : (s.slice (homeOf l)).lines = [])
    (hw : (slWays s (homeOf l)).contains way.val = true) :
    fillCache s (.slice (homeOf l)) l way res = answerMerged (sliceFilled s l (BitVec.ofNat 4 way.val) (memLine s l.num.toNat).1 (memLine s l.num.toNat).2)
      ⟨l, ms, none⟩ (memLine s l.num.toNat).1 (memLine s l.num.toNat).2 := by
  have habsent : slLine s l = none := by unfold slLine; rw [hl]; rfl
  have hallocs : slAllocs s l = true := by simp [slAllocs, hon, hd]
  have hfree : ∀ set, wayEntry s (homeOf l) set way.val = none := fun set => by simp [wayEntry, setEntries, hl]
  have hevict : evictWay s (homeOf l) (slSetOf (lineKey l)) way.val = s := by unfold evictWay; rw [hfree]
  have hfill : fillData s l ⟨l, ms, none⟩ res = memLine s l.num.toNat := by simp [fillData, hd]
  set u := s.setSlice (homeOf l) { s.slice (homeOf l) with misses := [] } with hu
  have hlu : slLine u l = none := by unfold slLine; rw [hu, setSlice_slice_same]; exact habsent
  have hinstall : ∀ d p, sliceInstall s l (some way.val) d p = sliceFilled s l (BitVec.ofNat 4 way.val) d p := fun d p => by
    unfold sliceInstall sliceFilled
    simp only [hm, List.filter_cons, ne_eq, not_true_eq_false, decide_false, Bool.false_eq_true, if_false, List.filter_nil, ← hu, slGet_absent hlu, hallocs, hd]
    rfl
  unfold fillCache sliceFill
  simp only [hm, List.find?_cons, decide_true, hfill, hallocs, slGet_absent habsent, hw, hevict, hfree, hinstall, Bool.true_eq_false, Option.isSome_none,
    Bool.false_eq_true, if_false]
  rfl

/-! ## The statement -/

end

/-- Settles O30: misses granted from memory or another cluster, copies replaced, forwarded and invalidated, fills. -/
theorem clusterCacheLines : Obligations.ClusterCacheLines := by
  unfold Obligations.ClusterCacheLines
  refine ⟨?rds, ?rdsOwner, ?rdo, ?rdoOwner, ?upg, ?wb, ?clean, ?forward, ?forwardM, ?invalidate, ?invalidateM, ?fill, ?fillSlice, ?noticed, ?cancelled, ?retry⟩
  case rds =>
    intro s cl l res hon hx hn hlen h hl
    have ho := h.opened cl
    have hlo : ((missOpened s cl l).slice (homeOf l)).lines = [] := by rw [missOpened_slice]; exact hl
    have hex : exec (.rds cl l res .none) s = .next (grantedAlone (missOpened s cl l) cl l .e) := by
      show execRds cl l res .none s = _
      unfold execRds
      simp only [hx, applyFault, ite_self]
      rw [clusterMiss_opens hon hn hlen, ho.served hlo rfl]
      show Host.Outcome.next (serveRds (askHost (missOpened s cl l) l _) cl l res) = _
      rw [askHost_served h.device, serveRds_plain ho hlo]
    obtain ⟨hget, hdm⟩ := grantedAlone_after (missOpened s cl l) cl l .e
    refine ⟨_, hex, ?_, grant_misses rfl hn _, by rw [hget], by rw [hget], hdm⟩
    exact ((missOpened_keeps s cl l).mono (by decide)).trans (grantLine_keeps _ _ _ (by decide) (setSl_keeps _ _ (by decide) ((countSl_keeps' _ l).mono (by decide))))
  case rdo =>
    intro s cl l res hon hx hn hlen h hl
    have ho := h.opened cl
    have hlo : ((missOpened s cl l).slice (homeOf l)).lines = [] := by rw [missOpened_slice]; exact hl
    have hex : exec (.rdo cl l res) s = .next (grantedAlone (missOpened s cl l) cl l .m) := by
      show execRdo cl l res s = _
      unfold execRdo
      simp only [hx]
      rw [clusterMiss_opens hon hn hlen, ho.served hlo rfl]
      show Host.Outcome.next (serveRdo (askOwn (missOpened s cl l) l) cl l res) = _
      rw [askOwn_served h.device, serveRdo_plain ho hlo]
    obtain ⟨hget, -⟩ := grantedAlone_after (missOpened s cl l) cl l .m
    refine ⟨_, hex, ?_, grant_misses rfl hn _, by rw [hget], by rw [hget]⟩
    exact ((missOpened_keeps s cl l).mono (by decide)).trans (grantLine_keeps _ _ _ (by decide) (setSl_keeps _ _ (by decide) ((countSl_keeps' _ l).mono (by decide))))
  case rdsOwner =>
    intro s cl l res k e x hon hx hn hlen h he hh ho hs hxk hst
    have hp := presence_of_sharers hs
    have he' := (aside_missOpened s cl l).entry.trans he
    have hxk' := ((aside_missOpened s cl l).copies k).trans hxk
    have hex : exec (.rds cl l res .none) s = .next (serveRds (missOpened s cl l) cl l res) := by
      show execRds cl l res .none s = _
      unfold execRds
      simp only [hx, applyFault, ite_self]
      rw [clusterMiss_opens hon hn hlen, (h.opened cl).served he' hh hp rfl]
      show Host.Outcome.next (serveRds (askHost (missOpened s cl l) l _) cl l res) = _
      rw [askHost_served h.device]
    have hkeep : Keeps [.page .lw, .page .ep, .page .dc, .page .cl, .page .mc, .clusters, .dm, .slices, .cxl, .frz, .scrubs] s (serveRds (missOpened s cl l) cl l res) :=
      serveRds_keeps _ _ _ (by decide) ((missOpened_keeps s cl l).mono (by decide))
    have heq := serveRds_owner h.device he' ho hs hxk' hst cl res
    have hget := slGet_granted (ownerShared (missOpened s cl l) k l e x) cl l ⟨.f, x.data, x.poison, 0⟩
      (e := { e with presence := setBit e.presence cl.val true, fwd := some cl, owned := false, cxl := none }) (setBit_ne e.presence cl)
    refine ⟨_, hex, hkeep, ?_⟩
    rw [heq]
    refine ⟨?_, ?_, by rw [hget], by rw [hget], by rw [hget]⟩
    · have hmisses := grant_misses (s := s) (l := l) (cl := cl) (u := setSl (ownerShared (missOpened s cl l) k l e x) l
        { e with presence := setBit e.presence cl.val true, fwd := some cl, owned := false, cxl := none }) (setCcLine_misses _ k cl l _) hn
        ⟨.f, x.data, x.poison, 0⟩
      rw [hmisses, List.getLast?_concat]
      rfl
    · rw [(aside_grantLine _ cl l _).copies]
      exact (ownerShared_after hp).2
  case rdoOwner =>
    intro s cl l res k e x hon hx hn hlen h he hh ho hs hxk hst _ halone
    have hp := presence_of_sharers hs
    have he' := (aside_missOpened s cl l).entry.trans he
    have hxk' := ((aside_missOpened s cl l).copies k).trans hxk
    have hex : exec (.rdo cl l res) s = .next (serveRdo (missOpened s cl l) cl l res) := by
      show execRdo cl l res s = _
      unfold execRdo
      simp only [hx]
      rw [clusterMiss_opens hon hn hlen, (h.opened cl).served he' hh hp rfl]
      show Host.Outcome.next (serveRdo (askOwn (missOpened s cl l) l) cl l res) = _
      rw [askOwn_served h.device]
    have hkeep : Keeps [.page .lw, .page .ep, .page .dc, .page .cl, .page .mc, .clusters, .dm, .slices, .cxl, .frz, .scrubs] s (serveRdo (missOpened s cl l) cl l res) :=
      serveRdo_keeps _ _ _ (by decide) ((missOpened_keeps s cl l).mono (by decide))
    have hal : Alone (missOpened s cl l) l := fun y hy => alone_of_filter halone y (by rw [← missOpened_slice s cl l]; exact hy)
    obtain ⟨u, e', heq, hcopy, hmiss⟩ := serveRdo_owner (h.opened cl) he' ho hs hxk' hst hal cl res
    have hget := slGet_granted u cl l ⟨.m, x.data, x.poison, 0⟩
      (e := { e' with presence := setBit 0 cl.val true, fwd := none, owned := true, cxl := none }) (setBit_ne 0 cl)
    refine ⟨_, hex, hkeep, ?_⟩
    rw [heq]
    refine ⟨?_, ?_, by rw [hget], by rw [hget]⟩
    · have hmisses := grant_misses (s := s) (l := l) (cl := cl) (u := setSl u l
        { e' with presence := setBit 0 cl.val true, fwd := none, owned := true, cxl := none }) (hmiss cl) hn ⟨.m, x.data, x.poison, 0⟩
      rw [hmisses, List.getLast?_concat]
      rfl
    · rw [(aside_grantLine _ cl l _).copies]
      exact hcopy
  case upg =>
    intro s cl l res e x hon hn hlen h he hh ho hs hx hst
    have hp := presence_of_sharers hs
    have he' := (aside_missOpened s cl l).entry.trans he
    have hx' := ((aside_missOpened s cl l).copies cl).trans hx
    have hex : exec (.upg cl l res) s = .next (serveUpg (missOpened s cl l) cl l res) := by
      show execUpg cl l res s = _
      unfold execUpg
      simp only [hx, hst, reduceCtorEq, or_self, if_false]
      rw [clusterMiss_opens hon hn hlen, (h.opened cl).served he' hh hp rfl]
      show Host.Outcome.next (serveUpg (askOwn (missOpened s cl l) l) cl l res) = _
      rw [askOwn_served h.device]
    have hkeep : Keeps [.page .lw, .page .ep, .page .dc, .page .cl, .page .mc, .clusters, .dm, .slices, .cxl, .frz, .scrubs] s (serveUpg (missOpened s cl l) cl l res) :=
      serveUpg_keeps _ _ _ (by decide) ((missOpened_keeps s cl l).mono (by decide))
    obtain ⟨u, e', heq, hmiss⟩ := serveUpg_alone h.device he' ho hs hx' res
    have hget := slGet_granted u cl l { x with st := .m }
      (e := { e' with presence := setBit 0 cl.val true, fwd := none, owned := true, cxl := none }) (setBit_ne 0 cl)
    refine ⟨_, hex, hkeep, ?_⟩
    rw [heq]
    refine ⟨?_, by rw [hget], by rw [hget], by rw [hget]⟩
    have hmisses := grant_misses (s := s) (l := l) (cl := cl) (u := setSl u l
      { e' with presence := setBit 0 cl.val true, fwd := none, owned := true, cxl := none }) (hmiss cl) hn { x with st := .m }
    rw [hmisses, List.getLast?_concat]
    rfl
  case wb =>
    intro s cl l x hx hst hpz hh hd ho hf
    set e := slGet s l with he
    set u := setSl (setCcLine s cl l none) l { e with presence := setBit e.presence cl.val false, owned := false } with hu
    have hev : ccEvictable s cl l = true := by
      unfold ccEvictable
      rw [hx]
      exact Bool.or_eq_true_iff.mpr (.inr (decide_eq_true hh))
    have hex : exec (.wb cl l) s = .next (homeStore u l x.data 0) := by
      show execWb cl l s = _
      unfold execWb ccEvict
      simp only [hx, hst, hev, ne_eq, not_true_eq_false, if_false, if_true, homeWb, hpz]
      rfl
    have hoff : (u.slice (homeOf l)).enabled = false := (setSl_slice_enabled _ _ _ _).trans ho
    obtain ⟨-, hwhole⟩ := homeStore_below (s := u) hd hoff hf x.data
    refine ⟨_, hex, ?_, ?_, ?_, hwhole.line, hwhole.clean.1⟩
    · exact homeStore_keeps _ _ _ (by decide) (setSl_keeps _ _ (by decide) (setCcLine_keeps _ _ _ (by decide) (Keeps.refl _ s)))
    · rw [(homeStore_below_line hd hoff x.data 0).1 cl]
      exact ccLine_setCcLine_same _ _ _ _
    · rw [stored_entry hd hoff, hu, presence_setSl]
      exact bit_setBit_in _ false cl.isLt
  case clean =>
    intro s cl l x hx hst
    have heq : execCleanNotice cl l s = .next (homeClean (setCcLine s cl l none) cl l) := by
      unfold execCleanNotice
      simp only [hx, if_pos hst, ccEvict_clean hx hst]
    obtain ⟨hbit, hfwd⟩ := homeClean_after (setCcLine s cl l none) cl l
    refine ⟨_, heq, homeClean_keeps _ _ (by decide) (setCcLine_keeps _ _ _ (by decide) (Keeps.refl _ s)), ?_, hbit, hfwd⟩
    rw [ccLine_homeClean]
    exact ccLine_setCcLine_same _ _ _ _
  case forward =>
    intro s cl l x hx hst
    set e := slGet s l with he
    set u := setSl (setCcLine s cl l (some { x with st := .s })) l { e with owned := false, fwd := (if e.fwd = some cl then none else e.fwd) } with hu
    have hns : ¬x.st = .s := by rcases hst with h | h <;> rw [h] <;> decide
    have hnm : ¬x.st = .m := by rcases hst with h | h <;> rw [h] <;> decide
    have hex : exec (.forwardRequest cl l false) s = .next u := by
      show execForwardRequest cl l false s = _
      unfold execForwardRequest
      simp only [Bool.false_eq_true, if_false, hx, if_neg hns, if_neg hnm]
      rfl
    refine ⟨u, hex, setSl_keeps _ _ (by decide) (setCcLine_keeps _ _ _ (by decide) (Keeps.refl _ s)), ccLine_setCcLine_same _ _ _ _, ?_⟩
    rw [hu, slGet_setSl_same]
    have hfwd : (if e.fwd = some cl then none else e.fwd) ≠ some cl := by
      split_ifs with hf
      · simp
      · exact hf
    by_cases hidle : ({ e with owned := false, fwd := (if e.fwd = some cl then none else e.fwd) } : SLine).idle = true
    · rw [if_pos hidle]
      exact ⟨rfl, by simp [noLine]⟩
    · rw [if_neg hidle]
      exact ⟨rfl, hfwd⟩
  case forwardM =>
    intro s cl l x hx hst hpz hd ho hf
    set u := setCcLine s cl l (some { x with st := .s }) with hu
    have hoff : (u.slice (homeOf l)).enabled = false := ho
    have hns : ¬x.st = .s := by rw [hst]; decide
    have hex : exec (.forwardRequest cl l false) s = .next (forgetOwner (homeStore u l x.data x.poison) cl l) := by
      show execForwardRequest cl l false s = _
      unfold execForwardRequest
      simp only [Bool.false_eq_true, if_false, hx, if_neg hns, if_pos hst]
      rfl
    rw [hpz] at hex
    obtain ⟨-, hwhole⟩ := homeStore_below (s := u) hd hoff hf x.data
    refine ⟨_, hex, setSl_keeps _ _ (by decide) (homeStore_keeps _ _ _ (by decide) (setCcLine_keeps _ _ _ (by decide) (Keeps.refl _ s))), ?_, hwhole.line⟩
    exact ((homeStore_below_line hd hoff x.data 0).1 cl).trans (ccLine_setCcLine_same _ _ _ _)
  case invalidate =>
    intro s cl l x hx hst
    have heq : execSnoopInvalidate cl l s = .next (homeClean (setCcLine (cancelGrant s cl l) cl l none) cl l) := by
      unfold execSnoopInvalidate
      simp only [dropCopy_found hx, if_neg hst]
    refine ⟨_, heq, homeClean_keeps _ _ (by decide) (setCcLine_keeps _ _ _ (by decide) (cancelGrant_keeps _ _ (by decide) (Keeps.refl _ s))), ?_,
      (homeClean_after _ cl l).1⟩
    rw [ccLine_homeClean]
    exact ccLine_setCcLine_same _ _ _ _
  case invalidateM =>
    intro s cl l x hx hst hpz hd ho hf
    set u := homeClean (setCcLine (cancelGrant s cl l) cl l none) cl l with hu
    have hex : exec (.snoopInvalidate cl l) s = .next (homeStore u l x.data x.poison) := by
      show execSnoopInvalidate cl l s = _
      unfold execSnoopInvalidate
      simp only [dropCopy_found hx, if_pos hst]
      rfl
    rw [hpz] at hex
    have hcancel := aside_cancelGrant s cl l l
    have hu' : Keeps [.slices] (setCcLine (cancelGrant s cl l) cl l none) u := homeClean_keeps _ _ (by decide) (Keeps.refl _ _)
    have hoff : (u.slice (homeOf l)).enabled = false := by
      have hclean : (u.slice (homeOf l)).enabled = ((setCcLine (cancelGrant s cl l) cl l none).slice (homeOf l)).enabled :=
        homeClean_unchanged (fun v => (v.slice (homeOf l)).enabled) fun e => setSl_slice_enabled _ _ _ _
      exact hclean.trans ((hcancel.enabled _).trans ho)
    have hmap : u.pl = (cancelGrant s cl l).pl := hu' .pl (by decide)
    have hserved : fenced u (.mc (stackOf u (64 * l.num.toNat))) = false := by
      have hctrl : ∀ n, preg u (.mc n) 8 = preg (cancelGrant s cl l) (.mc n) 8 := fun n =>
        hu'.preg (p := .mc n) (by simp [classOf]) (by omega) (by simp) (by simp)
      have hsame : stackOf u (64 * l.num.toNat) = stackOf (cancelGrant s cl l) (64 * l.num.toNat) := by unfold stackOf placeOf; rw [hmap]
      rw [hsame]
      exact (congrArg (bit · 1) (hctrl _)).trans (hcancel.served hf)
    obtain ⟨-, hwhole⟩ := homeStore_below (s := u) hd hoff hserved x.data
    refine ⟨_, hex, homeStore_keeps _ _ _ (by decide) (homeClean_keeps _ _ (by decide) (setCcLine_keeps _ _ _ (by decide)
      (cancelGrant_keeps _ _ (by decide) (Keeps.refl _ s)))), ?_, hwhole.line⟩
    rw [(homeStore_below_line hd hoff x.data 0).1 cl, hu, ccLine_homeClean]
    exact ccLine_setCcLine_same _ _ _ _
  case fill =>
    intro s cl l way res ms g hon hm hx hw hfree hall
    set v := clusterFilled s cl l { g with way := BitVec.ofNat 4 way.val } with hv
    have hfill : fillCache s (.cluster cl) l way res = answerMerged v ⟨l, ms, some g⟩ g.data g.poison :=
      fillCache_cluster way res hon hm hx hw hfree hall
    have hk : Keeps [.clusters] s v := setCcLine_keeps _ _ _ (by decide) (State.setCl_keeps _ _ (by decide) (Keeps.refl _ s))
    have hmiss : (v.cl cl).cc.misses = [] := (setCcLine_misses _ cl cl l _).trans (by rw [setCl_cl_same])
    have hcopy : ccLine v cl l = some { g with way := BitVec.ofNat 4 way.val } := ccLine_setCcLine_same _ _ _ _
    have hout : v.out = s.out := rfl
    clear_value v
    refine ⟨_, congrArg (fun u => Host.Outcome.next (settle u)) hfill, ?_, ?_, ?_, ?_⟩
    · exact answerMerged_keeps _ _ _ hk
    · rw [answerMerged_same (ccLine · cl l) fun _ _ => rfl]
      exact hcopy
    · rw [answerMerged_same (fun u => (u.cl cl).cc.misses) fun _ _ => rfl]
      exact hmiss
    · rw [answerMerged_out _ _ _ _ hall, hout]
  case fillSlice =>
    intro s l way res ms hd hon hm hl hw hall
    have hfill := fillCache_slice way res hd hon hm hl hw
    set v := sliceFilled s l (BitVec.ofNat 4 way.val) (memLine s l.num.toNat).1 (memLine s l.num.toNat).2 with hv
    have hk : Keeps [.slices] s v := setSl_keeps _ _ (by decide) (State.setSlice_keeps _ _ (by decide) (Keeps.refl _ s))
    have hget : slGet v l = { noLine with data := some (memLine s l.num.toNat).1, poison := (memLine s l.num.toNat).2, way := BitVec.ofNat 4 way.val } :=
      (slGet_setSl_same _ _ _).trans (if_neg (by simp [SLine.idle]))
    have hmiss : (v.slice (homeOf l)).misses = [] := by
      rw [hv]
      unfold sliceFilled
      rw [setSl_slice_same, setSlice_slice_same]
    have hout : v.out = s.out := rfl
    clear_value v
    have hafter : slGet (answerMerged v ⟨l, ms, none⟩ (memLine s l.num.toNat).1 (memLine s l.num.toNat).2) l = slGet v l :=
      answerMerged_same (slGet · l) (fun _ _ => rfl) _ _ _ _
    refine ⟨_, congrArg (fun u => Host.Outcome.next (settle u)) hfill, answerMerged_keeps _ _ _ hk, ?_⟩
    refine ⟨by rw [hafter, hget], by rw [hafter, hget], by rw [hafter, hget], by rw [hafter, hget]; rfl, ?_, ?_⟩
    · rw [answerMerged_out _ _ _ _ hall, hout]
    · rw [answerMerged_same (fun u => (u.slice (homeOf l)).misses) fun _ _ => rfl]
      exact hmiss
  case noticed =>
    intro s cl l x hx hst
    set u := setCcLine s cl l none with hu
    have hex : exec (.forwardRequest cl l true) s = .next (if (slGet u l).fwd = some cl then setSl u l { slGet u l with fwd := none } else u) := by
      show execForwardRequest cl l true s = _
      unfold execForwardRequest
      simp only [if_true, hx, if_pos hst]
      rfl
    have hk : Keeps [.clusters, .slices] s u := setCcLine_keeps _ _ _ (by decide) (Keeps.refl _ s)
    have hcopy : ccLine u cl l = none := ccLine_setCcLine_same _ _ _ _
    refine ⟨_, hex, ?_⟩
    split_ifs with hf
    · refine ⟨setSl_keeps _ _ (by decide) hk, hcopy, presence_setSl u l _, ?_⟩
      rw [slGet_setSl_same]
      split_ifs
      · simp [noLine]
      · simp
    · exact ⟨hk, hcopy, rfl, hf⟩
  case cancelled =>
    intro s cl l ms g hm hx hr
    have hgrant : (grantedTo s cl l).isSome = true := by simp [grantedTo, hm]
    set u := s.setCl cl { s.cl cl with cc := { (s.cl cl).cc with misses := [⟨l, ms, none⟩] } } with hu
    have hcancel : cancelGrant s cl l = addRetry u l (fin 58 cl.val) 1 := by
      unfold cancelGrant
      rw [if_pos hgrant]
      simp only [hm, List.map_cons, List.map_nil, if_true]
      rfl
    have hex : exec (.snoopInvalidate cl l) s = .next (homeClean (addRetry u l (fin 58 cl.val) 1) cl l) := by
      have hcopy : ccLine (addRetry u l (fin 58 cl.val) 1) cl l = none := by
        rw [← hcancel]
        exact ((aside_cancelGrant s cl l l).copies cl).trans hx
      show execSnoopInvalidate cl l s = _
      unfold execSnoopInvalidate dropCopy
      simp only [hcancel, hcopy]
    have hretry : addRetry u l (fin 58 cl.val) 1 = u.setSlice (homeOf l) { u.slice (homeOf l) with retries := [⟨l, fin 58 cl.val, 1, false⟩] } :=
      addRetry_first (s := u) hr _ _
    refine ⟨_, hex, ?_, ?_, ?_, (homeClean_after _ cl l).1⟩
    · refine homeClean_keeps _ _ (by decide) ?_
      rw [← hcancel]
      exact cancelGrant_keeps _ _ (by decide) (Keeps.refl _ s)
    · rw [homeClean_cl, hretry]
      show (u.cl cl).cc.misses = _
      rw [hu, setCl_cl_same]
    · rw [homeClean_retries, hretry, setSlice_slice_same]
  case retry =>
    intro s cl l res hon hx hn hlen hd hb hr
    have ha := aside_missOpened s cl l
    have hbusy : lineBusy (missOpened s cl l) l = true := by rw [lineBusy_missOpened]; exact hb
    have hr' : ((missOpened s cl l).slice (homeOf l)).retries = [] := by rw [missOpened_slice]; exact hr
    have hex : exec (.rds cl l res .none) s = .next (addRetry (missOpened s cl l) l (fin 58 cl.val)) := by
      show execRds cl l res .none s = _
      unfold execRds
      simp only [hx, applyFault, ite_self]
      rw [clusterMiss_opens hon hn hlen]
      unfold homeReq
      simp only [HomeReq.master, hostWaits_device hd, hbusy, Bool.true_or, Bool.false_eq_true, if_false, if_true]
    have hretry := addRetry_first hr' (fin 58 cl.val) 0
    refine ⟨_, hex, (missOpened_keeps s cl l).mono (by decide) |>.trans ((addRetry_keeps' _ _ _ _).mono (by decide)), ?_, ?_, ?_⟩
    · rw [hretry]
      show ((missOpened s cl l).cl cl).cc.misses = _
      rw [missOpened_cl]
    · rw [hretry, setSlice_slice_same]
    · exact ((aside_addRetry _ l l _ _).slGet).trans ha.slGet

end Sys2Proof
end

section
/-! PROOFS. Global accesses of a core to device memory that no cache takes, and one that fails (05 R195 to R200, 08 R327). -/

namespace Sys2Proof

open Sys2Proof.Machine

section
variable {s t : State}

/-! ## Bytes of a line -/

/-- Bytes within a line, as part of the line's value. -/
theorem bytesNat_readBytes_line (s : State) {q off n : Nat} (h : off + n ≤ 64) :
    bytesNat (readBytes s.dm (64 * q + off) n) = (memLine s q).1.toNat / 2 ^ (8 * off) % 2 ^ (8 * n) := by
  refine Nat.eq_of_testBit_eq fun k => ?_
  rw [bytesNat_testBit, Nat.testBit_mod_two_pow, Nat.testBit_div_two_pow]
  by_cases hk : k < 8 * n
  · have hbit : (memLine s q).1.toNat.testBit (k + 8 * off) = (memLine s q).1.getLsbD (k + 8 * off) := rfl
    rw [readBytes_getD _ _ _ (by omega), hbit, memLine_getLsbD, show (k + 8 * off) / 8 = off + k / 8 by omega,
      show (k + 8 * off) % 8 = k % 8 by omega, Nat.add_assoc]
    simp [hk, show k + 8 * off < 512 by omega]
  · have hlen : (readBytes s.dm (64 * q + off) n).length = n := readBytes_length _ _ _
    rw [List.getD_eq_default _ _ (by omega)]
    simp [hk]

/-- Only the masked bytes of what is merged into a line count. -/
theorem mergeLine_congr {old d d' : BitVec 512} {mask : BitVec 64} (h : ∀ k < 512, mask.getLsbD (k / 8) = true → d.getLsbD k = d'.getLsbD k) :
    mergeLine old d mask = mergeLine old d' mask := by
  refine BitVec.eq_of_getLsbD_eq fun k hk => ?_
  rw [mergeLine_getLsbD _ _ _ hk, mergeLine_getLsbD _ _ _ hk]
  split_ifs with hm
  · exact h k hk hm
  · rfl

/-- The bytes that a store of `n` bytes writes into its line. -/
theorem storeMask_bits (n off k : Nat) : (BitVec.ofNat 64 ((2 ^ n - 1) * 2 ^ off)).getLsbD k = (decide (k < 64) && decide (off ≤ k) && decide (k < off + n)) := by
  rw [BitVec.getLsbD_ofNat, Nat.testBit_mul_two_pow, Nat.testBit_two_pow_sub_one]
  by_cases h1 : off ≤ k
  · have : decide (k - off < n) = decide (k < off + n) := by simp; omega
    simp [h1, this]
  · simp [h1]

/-- A store's bytes read back. -/
theorem readBytes_stored {q off n v : Nat} {old : BitVec 512} (h : off + n ≤ 64)
    (hline : (memLine t q).1 = mergeLine old (BitVec.ofNat 512 (v * 2 ^ (8 * off))) (BitVec.ofNat 64 ((2 ^ n - 1) * 2 ^ off))) :
    readBytes t.dm (64 * q + off) n = natBytes n v := by
  have hlen : (natBytes n v).length = n := natBytes_length n v
  have hsame : (memLine t q).1 = mergeLine old (BitVec.ofNat 512 (bytesNat (natBytes n v) * 2 ^ (8 * off)))
      (BitVec.ofNat 64 ((2 ^ (natBytes n v).length - 1) * 2 ^ off)) := by
    rw [hline, hlen]
    refine mergeLine_congr fun k hk hm => ?_
    rw [storeMask_bits] at hm
    simp only [Bool.and_eq_true, decide_eq_true_eq] at hm
    obtain ⟨⟨-, hlo⟩, hhi⟩ := hm
    rw [BitVec.getLsbD_ofNat, BitVec.getLsbD_ofNat, Nat.testBit_mul_two_pow, Nat.testBit_mul_two_pow, bytesNat_natBytes,
      show 256 ^ n = 2 ^ (8 * n) by rw [Nat.pow_mul], Nat.testBit_mod_two_pow, decide_eq_true (show k - 8 * off < 8 * n by omega), Bool.true_and]
  have hread := readBytes_merged (t := t) (n := q) (by omega) hsame
  rw [hlen] at hread
  exact hread

/-! ## One line at home -/

/-- An aligned access of at most 8 bytes lies in one line. -/
structure InLine (a : GAccess) (n : Nat) : Prop where
  device : a.host = false
  memory : a.pa.toNat < dmSize
  size : a.kind.bytes = n
  small : n ≤ 8
  fits : a.pa.toNat % 64 + n ≤ 64

theorem inLine {a : GAccess} {n : Nat} (hs : a.kind.bytes = n) (hn : n ∈ [1, 2, 4, 8]) (hh : a.host = false) (hm : a.pa.toNat < dmSize)
    (ha : a.pa.toNat % n = 0) : InLine a n := by
  have hsmall : n ≤ 8 ∧ a.pa.toNat % 64 + n ≤ 64 := by
    simp only [List.mem_cons, List.not_mem_nil, or_false] at hn
    rcases hn with rfl | rfl | rfl | rfl <;> omega
  exact ⟨hh, hm, hs, hsmall.1, hsmall.2⟩

theorem InLine.lines {a : GAccess} {n : Nat} (h : InLine a n) : a.lines n = [lineOf false a.pa.toNat] := by
  have hsmall := h.small
  have hone : max 1 (n / 64) = 1 := by omega
  unfold GAccess.lines
  rw [hone, h.device]
  rfl

theorem InLine.num {a : GAccess} {n : Nat} (h : InLine a n) : (lineOf false a.pa.toNat).num.toNat = a.pa.toNat / 64 :=
  lineOf_num (Nat.lt_of_lt_of_le h.memory (by decide))

variable {l : Line} {cl : Fin 16}

theorem ccTakes_off (h : (s.cl cl).cc.enabled = false) : ccTakes s cl l = false := by simp [ccTakes, h]

theorem ccHit_off (h : (s.cl cl).cc.enabled = false) : ccHit s cl l = none := by simp [ccHit, h]

/-- A cluster cache that is off leaves an access to home, which is ready for a plain line. -/
theorem lineReady_plain (hoff : (s.cl cl).cc.enabled = false) (hp : PlainLine s l) (write gamo : Bool) : lineReady s cl l write gamo = true := by
  have hready : homeReady s l (fin 58 cl.val) (.rdcur (fin 58 cl.val)) = true := by
    unfold homeReady
    rw [hp.idle, outranked_nobody hp.nobody, hp.notHeld, hostWaits_device hp.device, hp.noBi,
      hp.room (fun _ _ _ => ⟨HomeReq.noConfusion, HomeReq.noConfusion, HomeReq.noConfusion, HomeReq.noConfusion⟩)]
    rfl
  unfold lineReady accessReq
  simp only [ccHit_off hoff, ccTakes_off hoff, hp.device, Bool.and_false, Bool.false_eq_true, if_false, Bool.not_false, Bool.true_or, Bool.and_true, ite_self]
  cases write
  · exact hready
  · exact hp.writeReady _

theorem accessWake_idle {id : Fin 256} (h : (s.core id).waits = []) : accessWake s id = s := by
  unfold accessWake
  simp only [wakeCore_idle h, h, List.foldl_nil, ite_self]

/-- A store of a core to a plain line. -/
theorem coreWrite_plain (hoff : (s.cl cl).cc.enabled = false) (hp : PlainLine s l) (id : Fin 256) (d : BitVec 512) (mask : BitVec 64) (relaxed : Bool)
    (res : HostAnswer) : LineWritten (countSl s l) (coreWrite s cl id l d mask relaxed res) l.num.toNat d mask := by
  unfold coreWrite
  simp only [ccHit_off hoff, ccTakes_off hoff, Option.isSome_none, Bool.or_self, Bool.false_eq_true, if_false, clearRetry_nobody hp.nobody, hp.device,
    Bool.false_and]
  split_ifs with hall
  · rw [hall]
    exact serveWrinv_plain hp _ _ _ _
  · exact serveWrpart_plain hp _ _ _ _ _

theorem coreRead_plain (hoff : (s.cl cl).cc.enabled = false) (hp : PlainLine s l) (res : HostAnswer) :
    coreRead s cl l res = (countSl s l, (memLine s l.num.toNat).1, 0) := by
  unfold coreRead
  simp only [ccHit_off hoff, ccTakes_off hoff, Bool.false_eq_true, if_false, clearRetry_nobody hp.nobody, serveRdcur_plain hp]

/-- An access that may be performed on a plain line is. -/
theorem accessDone_plain {id : Fin 256} {i n : Nat} {a : GAccess} {res : HostAnswer} (ha : (s.core id).access[i]? = some a) (hs : a.sent = false)
    (ho : accessInOrder (s.core id) i a = true) (hin : InLine a n) (hoff : (s.cl (clusterOf id)).cc.enabled = false)
    (hp : PlainLine s (lineOf false a.pa.toNat)) :
    accessDone s id i res =
      if a.kind.isStore then storeSent (accessWrite s (clusterOf id) id a a.data.toNat res) id i a s
      else
        let r := accessValue s (clusterOf id) id a res
        let s1 := dropAccess r.1 id i a
        if r.2.2 then haltLate s1 id 0x05 a.pc
        else accessWake (s1.setCore id (accessResult (s1.core id) a.kind r.2.1)) id := by
  unfold accessDone
  simp only [ha, hs, ho, hin.device, hin.size, hin.lines, List.all_cons, List.all_nil, lineReady_plain hoff hp, Bool.false_eq_true, Bool.true_eq_false, or_self,
    false_and, if_false, Bool.and_self]

/-- What a load of a plain line reads. -/
theorem accessRead_plain {a : GAccess} {n : Nat} (hin : InLine a n) (hoff : (s.cl cl).cc.enabled = false) (hp : PlainLine s (lineOf false a.pa.toNat))
    (res : HostAnswer) : accessRead s cl a res = (countSl s (lineOf false a.pa.toNat), bytesNat (readBytes s.dm a.pa.toNat n), false) := by
  have hbytes := bytesNat_readBytes_line s (q := a.pa.toNat / 64) hin.fits
  rw [show 64 * (a.pa.toNat / 64) + a.pa.toNat % 64 = a.pa.toNat by omega] at hbytes
  have hclean : (0 : BitVec 2).getLsbD (a.pa.toNat % 64 / 32) = false := BitVec.getLsbD_zero
  have hsmall := hin.small
  unfold accessRead
  simp only [hin.size, hin.lines, List.zipIdx_cons, List.zipIdx_nil, List.foldl_cons, List.foldl_nil, coreRead_plain hoff hp, hin.num, hclean,
    show n < 64 by omega, if_true, Bool.or_false, Nat.mul_zero, Nat.pow_zero, Nat.mul_one, Nat.zero_add, hbytes]

/-- A store to a plain line writes its bytes. -/
theorem accessWrite_plain {a : GAccess} {n : Nat} (hin : InLine a n) (hoff : (s.cl cl).cc.enabled = false) (hp : PlainLine s (lineOf false a.pa.toNat))
    (id : Fin 256) (v : Nat) (res : HostAnswer) : Keeps [.page .dc, .page .mc, .dm] s (accessWrite s cl id a v res) ∧
      readBytes (accessWrite s cl id a v res).dm a.pa.toNat n = natBytes n v := by
  have hsmall := hin.small
  have heq : accessWrite s cl id a v res = coreWrite s cl id (lineOf false a.pa.toNat) (BitVec.ofNat 512 (v * 2 ^ (8 * (a.pa.toNat % 64))))
      (BitVec.ofNat 64 ((2 ^ n - 1) * 2 ^ (a.pa.toNat % 64))) a.relaxed (answerLine res 0) := by
    unfold accessWrite
    simp only [hin.size, hin.lines, List.zipIdx_cons, List.zipIdx_nil, List.foldl_cons, List.foldl_nil, show min n 64 = n by omega, Nat.mul_zero, Nat.pow_zero,
      Nat.div_one]
  have hw := coreWrite_plain hoff hp id (BitVec.ofNat 512 (v * 2 ^ (8 * (a.pa.toNat % 64)))) (BitVec.ofNat 64 ((2 ^ n - 1) * 2 ^ (a.pa.toNat % 64)))
    a.relaxed (answerLine res 0)
  rw [← heq, hin.num] at hw
  have hread := readBytes_stored hin.fits hw.line
  rw [show 64 * (a.pa.toNat / 64) + a.pa.toNat % 64 = a.pa.toNat by omega] at hread
  exact ⟨((countSl_keeps' s _).mono (by decide)).trans (hw.keeps.mono (by decide)), hread⟩

theorem dropAccess_device {id : Fin 256} {i : Nat} {a : GAccess} (h : a.host = false) :
    dropAccess s id i a = s.setCoreRaw id { s.core id with access := dropAt (s.core id).access i } := by
  rw [dropAccess_eq, h, setCore_quiet (c := { s.core id with access := dropAt (s.core id).access i }) rfl rfl rfl]
  unfold forgotten
  split <;> rfl

theorem setS_same (c : Core) (rd : BitVec 5) (v : W64) : (c.setS rd v).st = c.st ∧ (c.setS rd v).cause = c.cause ∧ (c.setS rd v).target = c.target ∧
    (c.setS rd v).waits = c.waits := by
  unfold Core.setS
  split_ifs <;> exact ⟨rfl, rfl, rfl, rfl⟩

end

/-! ## The statement -/

/-- Settles O29: stores and loads of device memory at home, and a load of the host's that fails. -/
theorem globalAccesses : Obligations.GlobalAccesses := by
  unfold Obligations.GlobalAccesses
  refine ⟨?store, ?load, ?fails⟩
  case store =>
    intro s core i a res n hrun ha hs ho hk hn hh hoff hm hal hp hw
    have hin := inLine (by rw [hk]; rfl) hn hh hm hal
    obtain ⟨hkeep, hbytes⟩ := accessWrite_plain hin hoff hp core a.data.toNat res
    have hpend : storePending (accessWrite s (clusterOf core) core a a.data.toNat res) core a = false := by simp [storePending, hh]
    set u := accessWrite s (clusterOf core) core a a.data.toNat res
    have hcore : u.core core = s.core core := hkeep.core (by decide) core
    set t := u.setCoreRaw core { s.core core with access := dropAt (s.core core).access i } with ht
    have htc : t.core core = { s.core core with access := dropAt (s.core core).access i } := setCoreRaw_core_same _ _ _
    have hdone : accessDone s core i res = t := by
      rw [accessDone_plain ha hs ho hin hoff hp, hk]
      show storeSent u core i a s = t
      unfold storeSent
      simp only [hpend, Bool.false_and, Bool.false_eq_true, if_false, dropAccess_device hh, hcore]
      exact accessWake_idle (by rw [htc]; exact hw)
    refine ⟨t, congrArg Host.Outcome.next ((if_neg (by simp [hrun])).trans hdone), ?_, hbytes, by rw [htc], by rw [htc]⟩
    exact (hkeep.mono (by decide)).trans ((setCoreRaw_keeps' _ _ _).mono (by decide))
  case load =>
    intro s core i a res rd n hrun ha hs ho hk hn hh hoff hm hal hp hw
    have hin := inLine (by rw [hk]; rfl) hn hh hm hal
    set u := countSl s (lineOf false a.pa.toNat) with hu
    have hkeep : Keeps [.page .dc] s u := countSl_keeps' _ _
    have hcore : u.core core = s.core core := hkeep.core (by decide) core
    have hval : accessValue s (clusterOf core) core a res = (u, bytesNat (readBytes s.dm a.pa.toNat n), false) := by
      unfold accessValue
      rw [if_pos (by rw [hk]; rfl), accessRead_plain hin hoff hp]
    clear_value u
    set v := BitVec.ofNat 64 (bytesNat (readBytes s.dm a.pa.toNat n))
    set c : Core := { s.core core with access := dropAt (s.core core).access i } with hc
    obtain ⟨h1, h2, h3, h4⟩ := setS_same c rd v
    set u1 := u.setCoreRaw core c
    have hu1 : u1.core core = c := setCoreRaw_core_same _ _ _
    set t := u1.setCoreRaw core (c.setS rd v)
    have htc : t.core core = c.setS rd v := setCoreRaw_core_same _ _ _
    have hdone : accessDone s core i res = t := by
      rw [accessDone_plain ha hs ho hin hoff hp, hval, if_neg (by rw [hk]; exact Bool.false_ne_true)]
      simp only [Bool.false_eq_true, if_false, dropAccess_device hh, hcore, hk, accessResult]
      show accessWake (u1.setCore core ((u1.core core).setS rd v)) core = t
      rw [hu1, setCore_quiet (by rw [hu1, h1]) (by rw [hu1, h2]) (by rw [hu1, h3])]
      exact accessWake_idle (by rw [htc, h4]; exact hw)
    refine ⟨t, congrArg Host.Outcome.next ((if_neg (by simp [hrun])).trans hdone), ?_, htc⟩
    exact (hkeep.mono (by decide)).trans (((setCoreRaw_keeps' _ _ _).trans (setCoreRaw_keeps' _ _ _)).mono (by decide))
  case fails =>
    intro s core i a res rd n sg hrun ha hs ho hk hh he hst _
    obtain ⟨h1, h2, h3, h4⟩ := accessError_halts (s := s) (id := core) (i := i) (a := a) 0 (by rw [hk]; rfl) hst
    have hdone := accessDone_fails ha hs ho hh he
    refine ⟨accessError s core i a, congrArg Host.Outcome.next ((if_neg (by simp [hrun])).trans hdone), ?_, h1, h2, h3, h4⟩
    exact accessError_keeps _ _ _ _ (by decide) (Keeps.refl _ s)

end Sys2Proof
end

section
/-! PROOFS. The queues of a mover, and how a manifest ends (06 R232, R237 to R241): its record written to a plain line, and then out of its queue. -/

namespace Sys2Proof

open Sys2Proof.Machine

section
variable {s t : State} {cl : Fin 16} {q : Fin 4}

/-! ## What a plain line's access depends on -/

/-- The caches, the slices, the map of the placement loop, the controllers' CTRL and the poison are as they were. -/
structure SamePaths (s t : State) : Prop where
  slices : ∀ n, t.slice n = s.slice n
  caches : ∀ k, (t.cl k).cc = (s.cl k).cc
  map : t.pl = s.pl
  ctrl : ∀ n, preg t (.mc n) 8 = preg s (.mc n) 8
  poison : ∀ g, granPoison t g = granPoison s g

theorem SamePaths.refl (s : State) : SamePaths s s := ⟨fun _ => rfl, fun _ => rfl, rfl, fun _ => rfl, fun _ => rfl⟩

theorem SamePaths.trans {u : State} (h : SamePaths s t) (k : SamePaths t u) : SamePaths s u :=
  ⟨fun n => (k.slices n).trans (h.slices n), fun n => (k.caches n).trans (h.caches n), k.map.trans h.map, fun n => (k.ctrl n).trans (h.ctrl n),
    fun g => (k.poison g).trans (h.poison g)⟩

theorem SamePaths.of_keeps {P : List Part} (h : Keeps P s t) (hs : Part.slices ∉ P) (hc : Part.clusters ∉ P) (hp : Part.pl ∉ P)
    (hm : Part.page .mc ∉ P) (hd : Part.dm ∉ P) : SamePaths s t where
  slices := h.slice hs
  caches := fun k => by rw [h.cl hc]
  map := h .pl hp
  ctrl := fun n => h.preg (p := .mc n) (by simpa [classOf] using hm) (by omega) (by simp) (by simp)
  poison := h.granPoison hd

/-- A line that was plain stays so. -/
theorem PlainLine.along {l : Line} (h : PlainLine s l) (k : SamePaths s t) : PlainLine t l := by
  obtain ⟨hd, ha, ho, hb, hm, hr, hg, hc, hf, h0, h1⟩ := h
  have hgrant : grantOut t l = grantOut s l := congrArg (List.any _) (funext fun c => by rw [k.caches])
  have hchunk : chunkBlocks t (64 * l.num.toNat) = chunkBlocks s (64 * l.num.toNat) := by unfold chunkBlocks; rw [k.map]
  have hstack : stackOf t (64 * l.num.toNat) = stackOf s (64 * l.num.toNat) := by unfold stackOf placeOf; rw [k.map]
  have hslice := k.slices (homeOf l)
  refine ⟨hd, ?_, by rw [hslice]; exact ho, by rw [hslice]; exact hb, by rw [hslice]; exact hm, by rw [hslice]; exact hr, hgrant.trans hg, hchunk.trans hc, ?_,
    (k.poison _).trans h0, (k.poison _).trans h1⟩
  · unfold slLine
    rw [hslice]
    exact ha
  · rw [hstack]
    exact (congrArg (bit · 1) (k.ctrl _)).trans hf

/-- What a write without poison to a clean line leaves of the others. -/
theorem writeLineAt_paths {n : Nat} (d : BitVec 512) (mask : BitVec 64) (h : CleanLine s n) : SamePaths s (writeLineAt s n d mask 0) := by
  have hw := writeLineAt_written d mask h
  have hctrl : ∀ m, preg (writeLineAt s n d mask 0) (.mc m) 8 = preg s (.mc m) 8 :=
    ((aside_writeGranOf s ⟨false, 0⟩ n 0 d mask 0).trans (aside_writeGranOf _ _ n 1 d mask 0)).ctrl
  refine ⟨hw.keeps.slice (by decide), fun k => by rw [hw.keeps.cl (by decide)], hw.keeps .pl (by decide), hctrl, fun g => ?_⟩
  by_cases hlow : g = 2 * n
  · rw [hlow, hw.clean.1, h.low]
  by_cases hhigh : g = 2 * n + 1
  · rw [hhigh, hw.clean.2, h.high]
  obtain ⟨w1, -⟩ := writeGranOf_written s n 0 d mask (stackRefuses_served h.served) h.low
  have hserved := (aside_writeGranOf s ⟨false, 0⟩ n 0 d mask 0).served h.served
  obtain ⟨w2, -⟩ := writeGranOf_written (writeGranOf s n 0 d mask 0) n 1 d mask (stackRefuses_served hserved)
    ((w1.others (2 * n + 1) (by omega)).2.trans h.high)
  exact (w2.others g hhigh).2.trans (w1.others g (by omega)).2

/-- What a posted write of a plain line does. -/
structure Posted (s t : State) (n : Nat) (d : BitVec 512) (mask : BitVec 64) : Prop where
  keeps : Keeps [.page .dc, .page .mc, .dm] s t
  paths : SamePaths s t
  line : (memLine t n).1 = mergeLine (memLine s n).1 d mask
  bytes : ∀ a, a / 64 ≠ n → sget byteDefault t.dm a = sget byteDefault s.dm a

theorem countSl_paths (s : State) (l : Line) : SamePaths s (countSl s l) :=
  .of_keeps (countSl_keeps' s l) (by decide) (by decide) (by decide) (by decide) (by decide)

theorem postWrite_posted {l : Line} (h : PlainLine s l) (m : Fin 58) (stream : Nat) (d : BitVec 512) (mask : BitVec 64) (relaxed : Bool) :
    Posted s (postWrite s l m stream d mask 0 relaxed) l.num.toNat d mask := by
  have heq : postWrite s l m stream d mask 0 relaxed = writeLineAt (countSl s l) l.num.toNat d mask 0 := by
    unfold postWrite
    simp only [h.device, Bool.false_and, Bool.false_eq_true, if_false, clearRetry_nobody h.nobody]
    have hclear : clearCached (countSl s l) l 0 = countSl s l := by
      unfold clearCached
      rw [slGet_absent h.counted.absent]
      simp [noLine]
    split_ifs with hall
    · unfold serveWrinv
      simp only [dropCopies_absent h.counted.absent, h.device, Bool.false_eq_true, if_false, hclear, homeStore_plain h.counted, hall]
    · unfold serveWrpart
      simp only [dropCopies_absent h.counted.absent, slGet_absent h.counted.absent, h.device, Bool.false_eq_true, if_false,
        slAllocs_off h.counted.off]
      rfl
  have hw := writeLineAt_written d mask h.counted.cleanLine
  rw [heq]
  exact ⟨((countSl_keeps' s l).mono (by decide)).trans (hw.keeps.mono (by decide)), (countSl_paths s l).trans (writeLineAt_paths d mask h.counted.cleanLine),
    hw.line, hw.bytes⟩

/-! ## The queues -/

theorem mover_setMover (s : State) (cl : Fin 16) (x : Mover) : (s.setMover cl x).mover cl = x := by
  unfold State.mover State.setMover
  rw [setCl_cl_same]

theorem mQueueOf_setQueue (s : State) (cl : Fin 16) (q : Fin 4) (l : List Manifest) : mQueueOf (setQueue s cl q l) cl q = l := by
  unfold mQueueOf setQueue
  rw [mover_setMover]
  simp [Vector.get_eq_getElem]

theorem mQueueOf_setQueue_other (s : State) (cl : Fin 16) {q r : Fin 4} (l : List Manifest) (h : r ≠ q) :
    mQueueOf (setQueue s cl q l) cl r = mQueueOf s cl r := by
  unfold mQueueOf setQueue
  rw [mover_setMover]
  simp only [Vector.get_eq_getElem]
  exact Vector.getElem_set_ne _ _ (fun e => h (Fin.ext e.symm))

theorem mQueueOf_of_keeps {P : List Part} (h : Keeps P s t) (hc : Part.clusters ∉ P) (cl : Fin 16) (q : Fin 4) : mQueueOf t cl q = mQueueOf s cl q := by
  unfold mQueueOf State.mover
  rw [h.cl hc]

theorem setQueue_keeps' (s : State) (cl : Fin 16) (q : Fin 4) (l : List Manifest) : Keeps [.clusters] s (setQueue s cl q l) :=
  setQueue_keeps _ _ _ (by decide) (Keeps.refl _ s)

theorem setCl_paths (s : State) (cl : Fin 16) {c : Cluster} (h : c.cc = (s.cl cl).cc) : SamePaths s (s.setCl cl c) where
  slices := fun _ => rfl
  caches := fun k => by
    by_cases hk : k = cl
    · rw [hk, setCl_cl_same, h]
    · rw [setCl_cl_other _ _ hk]
  map := rfl
  ctrl := fun _ => rfl
  poison := fun _ => rfl

theorem setQueue_paths (s : State) (cl : Fin 16) (q : Fin 4) (l : List Manifest) : SamePaths s (setQueue s cl q l) := setCl_paths s cl rfl

theorem streamBusy_of_keeps {P : List Part} (h : Keeps P s t) (hc : Part.cxl ∉ P) (a b : Nat) : streamBusy t a b = streamBusy s a b := by
  unfold streamBusy
  rw [h.cxl_d2h hc, h.cxl_wq hc]

theorem record_congr {m m' : Manifest} (hd : m'.desc = m.desc) (hn : m'.done = m.done) (hp : m'.poisoned = m.poisoned) (hno : m'.no = m.no)
    (ht : t.tide.step = s.tide.step) (status a : Nat) : record t cl q m' status a = record s cl q m status a := by
  unfold record
  rw [hd, hn, hp, hno, ht]

/-! ## An end -/

/-- The first manifest of a queue is the only one that ends. -/
structure EndsFirst (s : State) (cl : Fin 16) (q : Fin 4) (m : Manifest) (rest : List Manifest) (e : Ending) : Prop where
  queue : mQueueOf s cl q = m :: rest
  ending : m.ending = some e
  others : (rest.all fun x => x.ending.isNone) = true
  idle : streamBusy s (16 + cl.val) q.val = false

theorem EndsFirst.first {m : Manifest} {rest : List Manifest} {e : Ending} (h : EndsFirst s cl q m rest e) :
    ((mQueueOf s cl q).zipIdx.findSome? fun x => x.1.ending.map fun e => (x.2, x.1, e)) = some (0, m, e) := by
  rw [h.queue, List.zipIdx_cons, List.findSome?_cons, h.ending]
  rfl

theorem findSome_ending_none {l : List Manifest} (h : (l.all fun x => x.ending.isNone) = true) (k : Nat) :
    ((l.zipIdx k).findSome? fun x => x.1.ending.map fun e => (x.2, x.1, e)) = none := by
  refine List.findSome?_eq_none_iff.mpr fun x hx => ?_
  have hm : x.1 ∈ l := List.fst_mem_of_mem_zipIdx hx
  have hnone : x.1.ending = none := by simpa using List.all_eq_true.mp h _ hm
  rw [hnone]
  rfl

/-- With no manifest ending, nothing advances. -/
theorem advance_none (fuel : Nat) (h : ((mQueueOf s cl q).all fun x => x.ending.isNone) = true) : advance cl q fuel s = s := by
  cases fuel with
  | zero => rfl
  | succ n =>
    unfold advance
    rw [findSome_ending_none h]
    split_ifs <;> rfl

/-- A queue whose first manifest is as given. -/
theorem setManifest_first {m m' : Manifest} {rest : List Manifest} (h : mQueueOf s cl q = m :: rest) :
    setManifest s cl q 0 m' = setQueue s cl q (m' :: rest) := by
  unfold setManifest
  rw [h]
  rfl

/-- The record of a manifest is written to its plain line, and the queue is as given. -/
structure RecordPut (s t : State) (cl : Fin 16) (q : Fin 4) (m : Manifest) (status a : Nat) (left : List Manifest) : Prop where
  keeps : Keeps [.page .dc, .page .mc, .page .cl, .clusters, .dm] s t
  paths : SamePaths s t
  queue : mQueueOf t cl q = left
  others : ∀ r, r ≠ q → mQueueOf t cl r = mQueueOf s cl r
  record : readBytes t.dm (64 * m.recLine.num.toNat) 64 = natBytes 64 (Machine.record s cl q m status a).toNat
  bytes : ∀ b, b / 64 ≠ m.recLine.num.toNat → sget byteDefault t.dm b = sget byteDefault s.dm b
  count : preg t (.cl cl) 0x228 = satAdd (preg s (.cl cl) 0x228) 1
  regs : ∀ k, k < 0x1000 → k ≠ 0x228 → preg t (.cl cl) k = preg s (.cl cl) k

theorem writeRecord_posted {m : Manifest} (hp : PlainLine s m.recLine) (status a : Nat) (l : List Manifest) :
    RecordPut s (setQueue (writeRecord s cl q m status a) cl q l) cl q m status a l := by
  have hw := postWrite_posted hp (moverMaster cl) q.val (Machine.record s cl q m status a) (BitVec.allOnes 64) false
  unfold writeRecord
  set u := postWrite s m.recLine (moverMaster cl) q.val (Machine.record s cl q m status a) (BitVec.allOnes 64) 0 false
  have hcount : Keeps [.page .cl] u (cntPreg u (.cl cl) 0x228 1) := cntPreg_keeps _ _ _ (by omega) (by simp [classOf]) (Keeps.refl _ u)
  have hset := setQueue_keeps' (cntPreg u (.cl cl) 0x228 1) cl q l
  have hreg : ∀ k, k < 0x1000 → preg u (.cl cl) k = preg s (.cl cl) k := fun k hk =>
    hw.keeps.preg (by simp [classOf]) hk (by simp) (by simp)
  refine ⟨?_, ?_, mQueueOf_setQueue _ _ _ _, fun r hr => ?_, ?_, hw.bytes, ?_, fun k hk hne => ?_⟩
  · exact (hw.keeps.mono (by decide)).trans ((hcount.mono (by decide)).trans (hset.mono (by decide)))
  · exact hw.paths.trans ((SamePaths.of_keeps hcount (by decide) (by decide) (by decide) (by decide) (by decide)).trans (setQueue_paths _ _ _ _))
  · rw [mQueueOf_setQueue_other _ _ _ hr]
    exact (mQueueOf_of_keeps hcount (by decide) cl r).trans (mQueueOf_of_keeps hw.keeps (by decide) cl r)
  · show readBytes u.dm _ 64 = _
    rw [readBytes_line, hw.line, mergeLine_all]
  · show preg (cntPreg u (.cl cl) 0x228 1) (.cl cl) 0x228 = _
    rw [preg_cntPreg _ _ (by omega) (by omega), if_pos ⟨rfl, rfl⟩, hreg _ (by omega)]
  · show preg (cntPreg u (.cl cl) 0x228 1) (.cl cl) k = _
    rw [preg_cntPreg _ _ (by omega) hk, if_neg (fun e => hne e.2), hreg k hk]

/-- A manifest after its record is visible: it leaves, or stays halted in PARTIAL. -/
def leftAfter (m : Manifest) (rest : List Manifest) (status : BitVec 3) : List Manifest :=
  if status = 2 then { m with ending := none } :: rest else rest

/-- The first manifest of a queue ends: its record is written to a plain line, and seen at once (06 R238). -/
theorem advance_ends {m : Manifest} {rest : List Manifest} {e : Ending} (fuel : Nat) (h : EndsFirst s cl q m rest e) (hst : e.stage = .record)
    (hk : m.recX.kind = 0) (hev : e.status = 4 ∨ bit m.desc 16 = false) (hp : PlainLine s m.recLine) :
    ∃ t, advance cl q (fuel + 2) s = t ∧ RecordPut s t cl q m e.status.toNat e.addr.toNat (leftAfter m rest e.status) := by
  set e' : Ending := { e with stage := .seen } with he'
  set m' : Manifest := { m with ending := some e' } with hm'
  set w := writeRecord s cl q m e.status.toNat e.addr.toNat with hw
  have hwq : mQueueOf w cl q = m :: rest := by
    have hkw : Keeps [.page .dc, .page .mc, .page .cl, .dm] s w :=
      cntPreg_keeps _ _ _ (by omega) (by simp [classOf]) ((postWrite_posted hp _ _ _ _ _).keeps.mono (by decide))
    exact (mQueueOf_of_keeps hkw (by decide) cl q).trans h.queue
  have hready : postReady s m.recLine (moverMaster cl) = true := by
    unfold postReady
    rw [hp.writeReady, Bool.or_true]
  set u := setQueue w cl q (m' :: rest) with hu
  have hrec : RecordPut s u cl q m e.status.toNat e.addr.toNat (m' :: rest) := writeRecord_posted hp _ _ _
  have hstep : advance cl q (fuel + 2) s = advance cl q (fuel + 1) u := by
    conv_lhs => unfold advance
    rw [h.idle, h.first]
    simp only [Bool.false_eq_true, if_false, hst, hready, if_true, ← hw, setManifest_first hwq]
    rfl
  have hfirst : EndsFirst u cl q m' rest e' :=
    ⟨hrec.queue, rfl, h.others, (streamBusy_of_keeps hrec.keeps (by decide) _ _).trans h.idle⟩
  have hlost : recordLost u cl m' = false := by
    unfold recordLost
    rw [show m'.recX.kind = 0 from hk]
    simp
  set v := setQueue u cl q (leftAfter m rest e.status) with hv
  have hseen : endSeen u cl q 0 m' e' = v := by
    have hevent : ∀ x : State, (if e.status = 4 then x else manifestEvent x m') = x := fun x => by
      split_ifs with h4
      · rfl
      · have hbit : bit m'.desc 16 = false := hev.resolve_left h4
        unfold manifestEvent
        exact if_neg (by rw [hbit]; exact Bool.false_ne_true)
    unfold endSeen
    show (if e.status = 4 then _ else manifestEvent _ m') = v
    rw [hevent, setManifest_first hfirst.queue, hrec.queue]
    unfold leftAfter at hv
    rw [hv]
    split_ifs <;> rfl
  have hdone : advance cl q (fuel + 1) u = advance cl q fuel v := by
    conv_lhs => unfold advance
    rw [hfirst.idle, hfirst.first]
    simp only [Bool.false_eq_true, if_false, he', hlost]
    exact congrArg (advance cl q fuel) hseen
  have hvq : mQueueOf v cl q = leftAfter m rest e.status := mQueueOf_setQueue _ _ _ _
  have hnone : ((mQueueOf v cl q).all fun x => x.ending.isNone) = true := by
    rw [hvq]
    unfold leftAfter
    split_ifs
    · simpa using h.others
    · exact h.others
  have hkv : Keeps [.clusters] u v := setQueue_keeps' _ _ _ _
  refine ⟨v, by rw [hstep, hdone, advance_none fuel hnone], ⟨hrec.keeps.trans (hkv.mono (by decide)), hrec.paths.trans (setQueue_paths _ _ _ _), hvq,
    fun r hr => (mQueueOf_setQueue_other _ _ _ hr).trans (hrec.others r hr), hrec.record, hrec.bytes, hrec.count, hrec.regs⟩⟩

end

end Sys2Proof
end

section
/-! PROOFS. Manifests run element by element and segment by segment, and end (06 R233 to R240, 07 R295, R301). -/

namespace Sys2Proof

open Sys2Proof.Machine

section
variable {s t : State} {cl : Fin 16} {q : Fin 4}

/-! ## A place of a queue -/

theorem mapAt_get {α : Type} (m : α) {l : List α} {i : Nat} (h : i < l.length) : (mapAt (fun _ => m) l i)[i]? = some m := by
  induction l generalizing i with
  | nil => exact absurd h (Nat.not_lt_zero i)
  | cons a l ih =>
    cases i with
    | zero => rfl
    | succ i => exact ih (Nat.lt_of_succ_lt_succ h)

theorem setManifest_at {i : Nat} (h : i < (mQueueOf s cl q).length) (m : Manifest) : (mQueueOf (setManifest s cl q i m) cl q)[i]? = some m := by
  unfold setManifest
  rw [mQueueOf_setQueue]
  exact mapAt_get m h

theorem setManifest_keeps' (s : State) (cl : Fin 16) (q : Fin 4) (i : Nat) (m : Manifest) : Keeps [.clusters] s (setManifest s cl q i m) :=
  setManifest_keeps _ _ _ _ (by decide) (Keeps.refl _ s)

/-- The manifest that issues is at its place, and has elements left. -/
theorem issuing_at {l : List Manifest} {i : Nat} {m : Manifest} (h : issuing l = some (i, m)) : l[i]? = some m ∧ m.done < mTotal m.desc := by
  unfold issuing at h
  obtain ⟨x, hx, he⟩ := Option.map_eq_some_iff.mp h
  have hmem := List.mem_zipIdx_iff_getElem?.mp (List.mem_of_find?_eq_some hx)
  have hlt := List.find?_some hx
  obtain ⟨rfl, rfl⟩ := Prod.mk.injEq .. ▸ he
  exact ⟨hmem, by simpa using hlt⟩

theorem lt_of_get {α : Type} {l : List α} {i : Nat} {m : α} (h : l[i]? = some m) : i < l.length :=
  (List.getElem?_eq_some_iff.mp h).1

theorem segNow_desc {m m1 : Manifest} {g : Seg} (h : segNow m = some (m1, g)) : m1.desc = m.desc := by
  unfold segNow at h
  split at h
  · cases h
  · split_ifs at h
    · cases h
      rfl
    · split at h
      · cases h
        rfl
      · cases h

/-- The next element's manifest stands at its place, and it has a source page just where the manifest copies. -/
theorem nextElem_at {e : Elem} (h : nextElem s cl q = some e) : e.i < (mQueueOf s cl q).length ∧ e.sx.isSome = mCopy e.m.desc := by
  unfold nextElem at h
  split at h
  · cases h
  next i m hi =>
    obtain ⟨hat, -⟩ := issuing_at hi
    obtain ⟨-, h⟩ := Option.ite_none_left_eq_some.mp h
    split at h
    · cases h
    next m1 g hseg =>
      have hdesc := segNow_desc hseg
      extract_lets sa da sx at h
      split at h
      · cases h
      next dx hdx =>
        obtain ⟨hno, h⟩ := Option.ite_none_left_eq_some.mp h
        cases h
        refine ⟨lt_of_get hat, ?_⟩
        show sx.isSome = mCopy m1.desc
        rw [hdesc]
        by_cases hc : mCopy m.desc = true
        · rw [hc] at hno ⊢
          simpa [Option.isSome_iff_ne_none, Option.isNone_iff_eq_none] using hno
        · have hsx : sx = none := if_neg hc
          rw [hsx]
          simpa using hc

/-! ## Bytes of an element -/

/-- An element lies in one line: its size divides 64. -/
theorem element_fits {d : BitVec 1024} {pa : Nat} (hn : mEsize d ≤ 64) (h : pa % mEsize d = 0) : pa % 64 + mEsize d ≤ 64 := by
  have hk : fld d 11 3 < 2 ^ 3 := fld_lt d 11 3
  unfold mEsize at *
  interval_cases hf : fld d 11 3 <;> omega

/-- A store leaves the bytes beside it. -/
theorem stored_beside {n off a i v : Nat} (hline : (memLine t n).1 = mergeLine (memLine s n).1 (BitVec.ofNat 512 (v * 2 ^ (8 * off)))
      (BitVec.ofNat 64 ((2 ^ i - 1) * 2 ^ off))) (ha : a / 64 = n) (hout : a % 64 < off ∨ off + i ≤ a % 64) :
    sget byteDefault t.dm a = sget byteDefault s.dm a := by
  refine BitVec.eq_of_getLsbD_eq fun j hj => ?_
  have hbit : ∀ u : State, (memLine u n).1.getLsbD (8 * (a % 64) + j) = (sget byteDefault u.dm a).getLsbD j := fun u => by
    rw [memLine_getLsbD, show 64 * n + (8 * (a % 64) + j) / 8 = a by omega, show (8 * (a % 64) + j) % 8 = j by omega]
    simp
    omega
  have hmask : (BitVec.ofNat 64 ((2 ^ i - 1) * 2 ^ off)).getLsbD ((8 * (a % 64) + j) / 8) = false := by
    rw [storeMask_bits, show (8 * (a % 64) + j) / 8 = a % 64 by omega]
    rcases hout with h | h
    · simp [show ¬off ≤ a % 64 by omega]
    · simp [show ¬a % 64 < off + i by omega]
  rw [← hbit t, ← hbit s, hline, mergeLine_getLsbD _ _ _ (by omega), hmask]
  exact if_neg Bool.false_ne_true

/-- What is written of an element to device memory: its bytes, and nothing beside them. -/
structure ElementPut (s t : State) (pa n v : Nat) : Prop where
  keeps : Keeps [.page .dc, .page .mc, .dm] s t
  bytes : readBytes t.dm pa n = natBytes n v
  beside : ∀ a, a < pa ∨ pa + n ≤ a → sget byteDefault t.dm a = sget byteDefault s.dm a

theorem Posted.put {pa n v : Nat} (h : Posted s t (pa / 64) (BitVec.ofNat 512 (v * 2 ^ (8 * (pa % 64)))) (BitVec.ofNat 64 ((2 ^ n - 1) * 2 ^ (pa % 64))))
    (hfit : pa % 64 + n ≤ 64) : ElementPut s t pa n v := by
  have hread := readBytes_stored hfit h.line
  rw [show 64 * (pa / 64) + pa % 64 = pa by omega] at hread
  refine ⟨h.keeps, hread, fun a ha => ?_⟩
  by_cases hl : a / 64 = pa / 64
  · exact stored_beside h.line hl (by omega)
  · exact h.bytes a hl

/-- An element goes to device memory. -/
theorem elemWrite_put {e : Elem} {pa v : Nat} (hk : e.dx.kind = 0) (hpa : pa = e.dx.phys e.da) (hm : pa < dmSize) (hn : mEsize e.m.desc ≤ 64)
    (ha : pa % mEsize e.m.desc = 0) (hp : PlainLine s e.dstLine) : ElementPut s (elemWrite s cl q e v false none) pa (mEsize e.m.desc) v := by
  have heq : elemWrite s cl q e v false none = postWrite s e.dstLine (moverMaster cl) q.val (BitVec.ofNat 512 (v * 2 ^ (8 * (pa % 64))))
      (BitVec.ofNat 64 ((2 ^ mEsize e.m.desc - 1) * 2 ^ (pa % 64))) 0 (mRx e.m.desc) := by
    unfold elemWrite
    simp only [hk, ← hpa]
    rfl
  have hline : e.dstLine.num.toNat = pa / 64 := by
    unfold Elem.dstLine
    rw [← hpa]
    exact (BitVec.toNat_ofNat _ _).trans (Nat.mod_eq_of_lt (by unfold dmSize at hm; omega))
  have hw := postWrite_posted hp (moverMaster cl) q.val (BitVec.ofNat 512 (v * 2 ^ (8 * (pa % 64))))
    (BitVec.ofNat 64 ((2 ^ mEsize e.m.desc - 1) * 2 ^ (pa % 64))) (mRx e.m.desc)
  rw [hline, ← heq] at hw
  exact hw.put (element_fits hn ha)

/-! ## An element delivered -/

theorem turn_ready {e : Elem} (h : queueTurn s cl = some q) (he : nextElem s cl q = some e) : elemReady s cl q e = true := by
  have hfound := List.find?_some h
  rw [he] at hfound
  exact hfound

theorem deliverElement_turn {e : Elem} (h : queueTurn s cl = some q) (he : nextElem s cl q = some e) (res : HostAnswer) (imem : Option (Fin 256 × BitVec 16)) :
    deliverElement s cl q res imem = elemDeliver s cl q e res imem := by
  unfold deliverElement
  rw [he]
  simp only [turn_ready h he, h, Bool.true_eq_false, if_false, if_true]

/-- What an element read without poison and written comes to for its manifest. -/
theorem elemDeliver_after {e : Elem} {u w : State} {v : Nat} {res : HostAnswer} {imem : Option (Fin 256 × BitVec 16)} {P : List Part}
    (hr : elemRead s cl e res = (u, v, false)) (hw : elemWrite u cl q e v false imem = w) (hk : e.dx.kind = 0) (he : nextElem s cl q = some e)
    (hc : Part.clusters ∉ P) (hkeep : Keeps P s w) :
    Keeps [.page .cl, .clusters] w (elemDeliver s cl q e res imem) ∧ (mQueueOf (elemDeliver s cl q e res imem) cl q)[e.i]? = some (e.m.delivered e.g false) := by
  obtain ⟨hi, -⟩ := nextElem_at he
  set c := cntPreg64 w (.cl cl) 0x220 (mEsize e.m.desc) with hcdef
  have hck : Keeps [.page .cl] w c := cntPreg64_keeps _ _ _ (by omega) (by simp [classOf]) (Keeps.refl _ w)
  set d := setManifest c cl q e.i (e.m.delivered e.g false) with hd
  have heq : elemDeliver s cl q e res imem = d.setMover cl { d.mover cl with rot := BitVec.ofNat 2 q.val } := by
    unfold elemDeliver
    simp only [hr, hw, when, Bool.false_eq_true, if_false, hk, not_true_eq_false, ne_eq, and_false]
    rfl
  have hlen : e.i < (mQueueOf c cl q).length := by
    rw [mQueueOf_of_keeps hck (by decide), mQueueOf_of_keeps hkeep hc]
    exact hi
  rw [heq]
  refine ⟨State.setMover_keeps _ _ (by decide) (setManifest_keeps _ _ _ _ (by decide) (hck.mono (by decide))), ?_⟩
  show ((_ : State).mover cl |>.queues.get q)[e.i]? = _
  rw [mover_setMover]
  exact setManifest_at hlen _

/-- The bytes of a constant, as its descriptor gives them. -/
def constBytes (d : BitVec 1024) : List Byte := (List.range (mEsize d)).map fun k => BitVec.ofNat 8 (fld d (384 + 8 * (k % 8)) 8)

theorem constBytes_length (d : BitVec 1024) : (constBytes d).length = mEsize d := by simp [constBytes]

theorem elemRead_const {e : Elem} (hc : mCopy e.m.desc = false) (he : nextElem s cl q = some e) (res : HostAnswer) :
    elemRead s cl e res = (s, bytesNat (constBytes e.m.desc), false) := by
  have hsx : e.sx = none := by
    obtain ⟨-, h⟩ := nextElem_at he
    rw [hc] at h
    simpa using h
  unfold elemRead
  simp only [hsx]
  rfl

theorem elemRead_copy {e : Elem} {sx : Xlat} {qa : Nat} (hsx : e.sx = some sx) (hk : sx.kind = 0) (hqa : qa = sx.phys e.sa) (hm : qa < dmSize)
    (hn : mEsize e.m.desc ≤ 64) (ha : qa % mEsize e.m.desc = 0) (hp : PlainLine s (lineOf false qa)) (res : HostAnswer) :
    elemRead s cl e res = (countSl s (lineOf false qa), bytesNat (readBytes s.dm qa (mEsize e.m.desc)), false) := by
  have hsrc : e.srcLine = some (lineOf false qa) := by
    unfold Elem.srcLine
    rw [hsx, hqa, Option.map_some, hk]
    rfl
  have hnum : (lineOf false qa).num.toNat = qa / 64 := (BitVec.toNat_ofNat _ _).trans (Nat.mod_eq_of_lt (by unfold dmSize at hm; omega))
  have hbytes := bytesNat_readBytes_line s (q := qa / 64) (element_fits hn ha)
  rw [show 64 * (qa / 64) + qa % 64 = qa by omega] at hbytes
  have hclean : (0 : BitVec 2).getLsbD (qa % 64 / 32) = false := BitVec.getLsbD_zero
  unfold elemRead
  simp only [hsx, hsrc, clearRetry_nobody hp.nobody, askHost_served hp.device, serveRdcur_plain hp, ← hqa, hclean, hnum, hbytes, hp.device]
  split_ifs <;> rfl

/-- An element goes into the IMEM of a core. -/
theorem imemWrite_after (s : State) (id : Fin 256) (off : BitVec 16) (bs : List Byte) :
    readBytes ((imemWrite s id off.toNat bs.length (bytesNat bs)).core id).imem off.toNat bs.length = bs ∧
      ((imemWrite s id off.toNat bs.length (bytesNat bs)).core id).fetchQ = (s.core id).fetchQ ∧
      ((imemWrite s id off.toNat bs.length (bytesNat bs)).core id).ldm = (s.core id).ldm := by
  have hoff : off.toNat % 65536 = off.toNat := Nat.mod_eq_of_lt off.isLt
  unfold imemWrite
  rw [hoff, natBytes_bytesNat, setCoreRaw_core_same]
  exact ⟨readBytes_writeBytes _ _ _, rfl, rfl⟩

/-! ## Ends -/

/-- The first manifest is the only one of its queue that is to end. -/
theorem endsFirst_set {m m' : Manifest} {rest : List Manifest} {e : Ending} (he : m'.ending = some e) (hrest : (rest.all fun x => x.ending.isNone) = true)
    (hb : streamBusy s (16 + cl.val) q.val = false) (hq : mQueueOf s cl q = m :: rest) :
    EndsFirst (setManifest s cl q 0 m') cl q m' rest e := by
  rw [setManifest_first hq]
  exact ⟨mQueueOf_setQueue _ _ _ _, he, hrest, (streamBusy_of_keeps (setQueue_keeps' s cl q _) (by decide) _ _).trans hb⟩

/-- A manifest that begins to end with its record, on a plain line. -/
theorem beginEnd_record {m m' : Manifest} {rest : List Manifest} {st : BitVec 3} {a : W64} (hq : mQueueOf s cl q = m :: rest)
    (hrest : (rest.all fun x => x.ending.isNone) = true) (hb : streamBusy s (16 + cl.val) q.val = false) (hk : m'.recX.kind = 0)
    (hev : bit m'.desc 16 = false) (hp : PlainLine s m'.recLine) :
    ∃ t, beginEnd s cl q 0 m' ⟨.record, st, a⟩ = t ∧ RecordPut s t cl q { m' with ending := some ⟨.record, st, a⟩ } st.toNat a.toNat
      (leftAfter m' rest st) := by
  set e : Ending := ⟨.record, st, a⟩ with he
  have hends := endsFirst_set (m' := { m' with ending := some e }) (cl := cl) (q := q) rfl hrest hb hq
  have hset := setManifest_keeps' s cl q 0 { m' with ending := some e }
  have hpaths : SamePaths s (setManifest s cl q 0 { m' with ending := some e }) := setQueue_paths _ _ _ _
  obtain ⟨t, ht, hput⟩ := advance_ends 1 hends rfl hk (.inr hev) (hp.along hpaths)
  refine ⟨t, ht, ?_⟩
  have htide : (setManifest s cl q 0 { m' with ending := some e }).tide = s.tide := rfl
  exact {
    keeps := (hset.mono (by decide)).trans hput.keeps
    paths := hpaths.trans hput.paths
    queue := hput.queue
    others := fun r hr => (hput.others r hr).trans (mQueueOf_setQueue_other _ _ _ hr)
    record := hput.record
    bytes := hput.bytes
    count := hput.count
    regs := hput.regs }

/-- The bytes of a record's line are those at the record's address. -/
theorem recLine_addr {m : Manifest} {pa : Nat} (hpa : pa = m.recX.phys (mCompl m.desc)) (hm : pa < dmSize) (ha : pa % 64 = 0) :
    64 * m.recLine.num.toNat = pa := by
  have hnum : m.recLine.num.toNat = pa / 64 := by
    unfold Manifest.recLine
    rw [← hpa]
    exact (BitVec.toNat_ofNat _ _).trans (Nat.mod_eq_of_lt (by unfold dmSize at hm; omega))
  omega

theorem line_ext {l l' : Line} (hh : l.host = l'.host) (hn : l.num = l'.num) : l = l' := by
  cases l
  cases l'
  cases hh
  cases hn
  rfl

/-- A manifest that is to write its flag first, on a plain line of its own. -/
theorem beginEnd_flag {m : Manifest} {rest : List Manifest} {l : Line} {off : Nat} (hq : mQueueOf s cl q = m :: rest)
    (hrest : (rest.all fun x => x.ending.isNone) = true) (hb : streamBusy s (16 + cl.val) q.val = false) (hk : m.recX.kind = 0)
    (hev : bit m.desc 16 = false) (hp : PlainLine s m.recLine) (hl : m.flagLine = some (l, off)) (hpl : PlainLine s l) (hoff : off ≤ 56)
    (hne : l ≠ m.recLine) :
    ∃ t, beginEnd s cl q 0 m ⟨.flag, 0, 0⟩ = t ∧ Keeps [.page .dc, .page .mc, .page .cl, .clusters, .dm] s t ∧ mQueueOf t cl q = rest ∧
      readBytes t.dm (64 * m.recLine.num.toNat) 64 = natBytes 64 (record s cl q m 0 0).toNat ∧
      readBytes t.dm (64 * l.num.toNat + off) 8 = natBytes 8 (fld m.desc 320 64) := by
  set m1 : Manifest := { m with ending := some ⟨.flag, 0, 0⟩ } with hm1
  set m2 : Manifest := { m with ending := some ⟨.record, 0, 0⟩ } with hm2
  set s1 := setManifest s cl q 0 m1 with hs1
  have h1 : EndsFirst s1 cl q m1 rest ⟨.flag, 0, 0⟩ := endsFirst_set rfl hrest hb hq
  have hk1 : Keeps [.clusters] s s1 := setManifest_keeps' _ _ _ _ _
  have hp1 : SamePaths s s1 := setQueue_paths _ _ _ _
  have hw := postWrite_posted (hpl.along hp1) (moverMaster cl) q.val (BitVec.ofNat 512 (fld m.desc 320 64 * 2 ^ (8 * off)))
    (BitVec.ofNat 64 ((2 ^ 8 - 1) * 2 ^ off)) false
  set s2 := postWrite s1 l (moverMaster cl) q.val (BitVec.ofNat 512 (fld m.desc 320 64 * 2 ^ (8 * off))) (BitVec.ofNat 64 ((2 ^ 8 - 1) * 2 ^ off)) 0 false
    with hs2
  have hflag : writeFlag s1 cl q m1 = s2 := by
    unfold writeFlag
    rw [show m1.flagLine = some (l, off) from hl]
    rfl
  have hq2 : mQueueOf s2 cl q = m1 :: rest := (mQueueOf_of_keeps hw.keeps (by decide) cl q).trans h1.queue
  have hb2 : streamBusy s2 (16 + cl.val) q.val = false := (streamBusy_of_keeps hw.keeps (by decide) _ _).trans h1.idle
  set s3 := setManifest s2 cl q 0 m2 with hs3
  have h3 : EndsFirst s3 cl q m2 rest ⟨.record, 0, 0⟩ := endsFirst_set rfl hrest hb2 hq2
  have hp3 : SamePaths s2 s3 := setQueue_paths _ _ _ _
  have hready : postReady s1 l (moverMaster cl) = true := by
    unfold postReady
    rw [(hpl.along hp1).writeReady, Bool.or_true]
  have hstep : beginEnd s cl q 0 m ⟨.flag, 0, 0⟩ = advance cl q 2 s3 := by
    unfold beginEnd
    show advance cl q 3 s1 = _
    conv_lhs => unfold advance
    rw [h1.idle, h1.first]
    simp only [Bool.false_eq_true, if_false, show m1.flagLine = some (l, off) from hl, Option.map_some, Option.getD_some, hready, if_true, hflag]
    rfl
  obtain ⟨t, ht, hput⟩ := advance_ends 0 h3 rfl hk (.inr hev) (hp.along ((hp1.trans hw.paths).trans hp3))
  have hkeep : Keeps [.page .dc, .page .mc, .clusters, .dm] s s3 :=
    (hk1.mono (by decide)).trans ((hw.keeps.mono (by decide)).trans ((setManifest_keeps' _ _ _ _ _).mono (by decide)))
  have htide : s3.tide = s.tide := hkeep .tide (by decide)
  refine ⟨t, hstep.trans ht, (hkeep.mono (by decide)).trans hput.keeps, hput.queue, ?_, ?_⟩
  · refine hput.record.trans (congrArg (fun x : BitVec 512 => natBytes 64 x.toNat) ?_)
    exact record_congr rfl rfl rfl rfl (by rw [htide]) _ _
  · have hnum : l.num.toNat ≠ m.recLine.num.toNat := fun e => by
      refine hne ?_
      have hh : l.host = m.recLine.host := hpl.device.trans hp.device.symm
      exact line_ext hh (BitVec.eq_of_toNat_eq e)
    have hafter : readBytes t.dm (64 * l.num.toNat + off) 8 = readBytes s2.dm (64 * l.num.toNat + off) 8 :=
      readBytes_ext fun i hi => hput.bytes _ (by rw [show (64 * l.num.toNat + off + i) / 64 = l.num.toNat by omega]; exact hnum)
    rw [hafter]
    exact readBytes_stored (by omega) hw.line

end

/-! ## The statement -/

/-- Settles O25: manifests started, their elements put in device memory or an IMEM, their segments translated, their records and flags written. -/
theorem manifests : Obligations.Manifests := by
  unfold Obligations.Manifests
  refine ⟨?start, ?const, ?copy, ?complete, ?translate, ?translated, ?part, ?imem, ?waits, ?flag⟩
  case start =>
    intro s cl q m rest hrun hq hs
    have hfind : (mQueueOf s cl q).zipIdx.find? (fun x => !x.1.started) = some (m, 0) := by
      rw [hq, List.zipIdx_cons, List.find?_cons, hs]
      rfl
    have hex : exec (.manifestStart cl q) s = .next (setManifest s cl q 0 { m with started := true }) := by
      show execManifestStart cl q s = _
      unfold execManifestStart
      simp only [hrun, Bool.false_eq_true, if_false, hfind, if_true]
    refine ⟨_, hex, setManifest_keeps' _ _ _ _ _, ?_⟩
    rw [setManifest_first hq]
    exact mQueueOf_setQueue _ _ _ _
  case const =>
    intro s cl q e res pa hrun he hturn hc hk hpa hm hn ha hp
    have hr := elemRead_const hc he res
    have hput := elemWrite_put (cl := cl) (q := q) (v := bytesNat (constBytes e.m.desc)) hk hpa hm hn ha hp
    obtain ⟨hkt, hqt⟩ := elemDeliver_after hr rfl hk he (by decide) hput.keeps
    have hex : exec (.manifestElement cl q res none) s = .next (elemDeliver s cl q e res none) :=
      congrArg Host.Outcome.next ((if_neg (by simp [hrun])).trans (deliverElement_turn hturn he res none))
    obtain ⟨hdm, -⟩ : (elemDeliver s cl q e res none).dm = _ ∧ _ := hkt .dm (by decide)
    have hback : natBytes (mEsize e.m.desc) (bytesNat (constBytes e.m.desc)) = constBytes e.m.desc := by
      conv_lhs => rw [← constBytes_length e.m.desc]
      exact natBytes_bytesNat _
    refine ⟨_, hex, (hput.keeps.mono (by decide)).trans (hkt.mono (by decide)), hqt, ?_, fun a hout => ?_⟩
    · rw [hdm, hput.bytes, hback]
      rfl
    · rw [hdm]
      exact hput.beside a hout
  case copy =>
    intro s cl q e sx res pa qa hrun he hturn _ hk hpa hm hn ha hp hsx hks hqa hqm hqa2 hpq
    have hr := elemRead_copy (cl := cl) hsx hks hqa hqm hn hqa2 hpq res
    have hpaths := countSl_paths s (lineOf false qa)
    have hput := elemWrite_put (cl := cl) (q := q) (v := bytesNat (readBytes s.dm qa (mEsize e.m.desc))) hk hpa hm hn ha (hp.along hpaths)
    have hkeep := ((countSl_keeps' s (lineOf false qa)).mono (by decide)).trans hput.keeps
    obtain ⟨hkt, hqt⟩ := elemDeliver_after hr rfl hk he (by decide) hkeep
    have hex : exec (.manifestElement cl q res none) s = .next (elemDeliver s cl q e res none) :=
      congrArg Host.Outcome.next ((if_neg (by simp [hrun])).trans (deliverElement_turn hturn he res none))
    obtain ⟨hdm, -⟩ : (elemDeliver s cl q e res none).dm = _ ∧ _ := hkt .dm (by decide)
    have hback := natBytes_bytesNat (readBytes s.dm qa (mEsize e.m.desc))
    rw [readBytes_length] at hback
    refine ⟨_, hex, (hkeep.mono (by decide)).trans (hkt.mono (by decide)), hqt, ?_, fun a hout => ?_⟩
    · rw [hdm, hput.bytes, hback]
    · rw [hdm]
      exact hput.beside a hout
  case complete =>
    intro s cl q m rest pa hrun hq hs hh he hrest hd hpz hb hfx hev hk hpa hm ha hp
    obtain ⟨t, ht, hput⟩ := beginEnd_record (m' := m) (st := 0) (a := 0) hq hrest hb hk hev hp
    have hex : exec (.manifestComplete cl q) s = .next t := by
      refine congrArg Host.Outcome.next ((if_neg (by simp [hrun])).trans (Eq.trans ?_ ht))
      unfold manifestEnd
      simp only [hq, he, hs, hh, hd, hb, hpz, hfx, Option.isSome_none, Bool.false_eq_true, Bool.true_eq_false, Nat.lt_irrefl, or_self, if_false, decide_true,
        if_true]
    refine ⟨t, hex, hput.keeps.mono (by decide), hput.queue, ?_, hput.count⟩
    rw [← recLine_addr hpa hm ha]
    exact hput.record
  case translate =>
    intro s cl q m i g hrun hi hg hh he hnx hnb hst hhalf hmore
    obtain ⟨hat, -⟩ := issuing_at hi
    have hex : exec (.segmentTranslation cl q) s = .next (setManifest s cl q i { m with nextBusy := true }) := by
      show execSegmentTranslation cl q s = _
      unfold execSegmentTranslation
      simp only [hrun, Bool.false_eq_true, if_false, hi, hg, hh, he, hnx, hnb, hst, hhalf, hmore, and_self, if_true]
    exact ⟨_, hex, setManifest_keeps' _ _ _ _ _, setManifest_at (lt_of_get hat) _⟩
  case translated =>
    intro s cl q m i g ue k ps f hrun hi hg hnb hcount hpages hfail
    obtain ⟨hat, -⟩ := issuing_at hi
    have hcut : Keeps [.page .vt] s (cutFrom s m.ctx m.desc m.limit (g.first + g.count) (mTotal m.desc) ue).1 :=
      cutFrom_keeps _ _ _ _ _ _ (by decide) (Keeps.refl _ s)
    have hlen : i < (mQueueOf (cutFrom s m.ctx m.desc m.limit (g.first + g.count) (mTotal m.desc) ue).1 cl q).length := by
      rw [mQueueOf_of_keeps hcut (by decide)]
      exact lt_of_get hat
    have hex : exec (.segmentTranslationDone cl q ue) s = .next (setManifest (cutFrom s m.ctx m.desc m.limit (g.first + g.count) (mTotal m.desc) ue).1 cl q i
        { m with nextBusy := false, next := (if k = 0 then none else some ⟨g.first + g.count, k, ps, !g.upper⟩),
                 stopAt := f.map fun f => (f.1, f.2.setWidth 48) }) := by
      refine congrArg Host.Outcome.next ((if_neg (by simp [hrun])).trans ?_)
      unfold segDone
      simp only [hi, hg, hnb, hcount, hpages, hfail]
    exact ⟨_, hex, (hcut.mono (by decide)).trans ((setManifest_keeps' _ _ _ _ _).mono (by decide)), setManifest_at hlen _⟩
  case part =>
    intro s cl q m rest a pa hrun hq hd hst hh he hrest hb hev hk hpa hm ha hp
    set u := raiseErr s (.cl cl) 19 m.no.toNat with hu
    have huk : Keeps [.page .cl] s u := raiseErr_keeps _ _ _ (by simp [classOf]) (Keeps.refl _ s)
    have hup : SamePaths s u := .of_keeps huk (by decide) (by decide) (by decide) (by decide) (by decide)
    set m' : Manifest := { m with started := true, halted := true, seg := none, next := none, nextBusy := false } with hm'
    obtain ⟨t, ht, hput⟩ := beginEnd_record (s := u) (cl := cl) (q := q) (m := m) (m' := m') (st := 2) (a := a.setWidth 64)
      ((mQueueOf_of_keeps huk (by decide) cl q).trans hq) hrest ((streamBusy_of_keeps huk (by decide) _ _).trans hb) hk hev (hp.along hup)
    have hissue : issuing (mQueueOf s cl q) = some (0, m) := by
      unfold issuing
      rw [hq, List.zipIdx_cons, List.find?_cons, decide_eq_true hd]
      rfl
    have hex : exec (.manifestPartial cl q) s = .next t := by
      refine congrArg Host.Outcome.next ((if_neg (by simp [hrun])).trans (Eq.trans ?_ ht))
      unfold manifestPartial
      simp only [hissue, hst, hh, he, Option.isSome_none, Bool.false_eq_true, ne_eq, not_true_eq_false, or_self, if_false]
      rw [hm', hst, he]
    have hreg : preg u (.cl cl) 0x228 = preg s (.cl cl) 0x228 := preg_raiseErr _ _ _ (by omega) (fun _ => by decide) (by simp)
    have htide : u.tide = s.tide := huk .tide (by decide)
    refine ⟨t, hex, (huk.mono (by decide)).trans (hput.keeps.mono (by decide)), hput.queue, ?_, ?_, by rw [hput.count, hreg]⟩
    · rw [← recLine_addr hpa hm ha]
      refine hput.record.trans (congrArg (fun x : BitVec 512 => natBytes 64 x.toNat) ?_)
      have haddr : (a.setWidth 64).toNat = a.toNat := by
        rw [BitVec.toNat_setWidth]
        exact Nat.mod_eq_of_lt (by omega)
      rw [haddr]
      exact record_congr rfl rfl rfl rfl (by rw [htide]) _ _
    · rw [hput.regs _ (by omega) (by omega)]
      exact raiseErr_bit _ _ _ (by omega)
  case imem =>
    intro s cl q e res id off hrun he hturn hc hk
    have hr := elemRead_const hc he res
    have hlen := constBytes_length e.m.desc
    have hw : elemWrite s cl q e (bytesNat (constBytes e.m.desc)) false (some (id, off)) =
        imemWrite s id off.toNat (constBytes e.m.desc).length (bytesNat (constBytes e.m.desc)) := by
      unfold elemWrite
      simp only [hk, hlen]
      rfl
    have hkw : Keeps [.cores] s (imemWrite s id off.toNat (constBytes e.m.desc).length (bytesNat (constBytes e.m.desc))) :=
      imemWrite_keeps _ _ _ _ (by decide) (Keeps.refl _ s)
    obtain ⟨hkt, hqt⟩ := elemDeliver_after hr hw hk he (by decide) hkw
    have hex : exec (.manifestElement cl q res (some (id, off))) s = .next (elemDeliver s cl q e res (some (id, off))) :=
      congrArg Host.Outcome.next ((if_neg (by simp [hrun])).trans (deliverElement_turn hturn he res _))
    obtain ⟨hbytes, hfetch, hldm⟩ := imemWrite_after s id off (constBytes e.m.desc)
    have hcore := hkt.core (by decide) id
    refine ⟨_, hex, (hkw.mono (by decide)).trans (hkt.mono (by decide)), hqt, ?_, by rw [hcore, hfetch], by rw [hcore, hldm]⟩
    rw [hcore]
    exact (congrArg (readBytes _ off.toNat) hlen.symm).trans (hbytes.trans rfl)
  case waits =>
    intro s cl q e res imem he hready
    have hex : ∃ t, exec (.manifestElement cl q res imem) s = .next t ∧ Keeps [.page .lw, .page .dc, .slices] s t := by
      by_cases hrun : stopped s = true
      · exact ⟨s, congrArg Host.Outcome.next (if_pos hrun), Keeps.refl _ s⟩
      · refine ⟨elemAsk s cl e, congrArg Host.Outcome.next ((if_neg hrun).trans ?_), elemAsk_keeps _ _ (by decide) (Keeps.refl _ s)⟩
        unfold deliverElement
        rw [he]
        exact if_pos hready
    obtain ⟨t, hex, hk⟩ := hex
    exact ⟨t, hex, hk, mQueueOf_of_keeps hk (by decide) cl q⟩
  case flag =>
    intro s cl q m rest pa l off hrun hq hs hh he hrest hd hpz hb hev hk hpa hm ha hp hl hoff hne _ hpl
    obtain ⟨t, ht, hkeep, hqt, hrec, hflag⟩ := beginEnd_flag hq hrest hb hk hev hp hl hpl hoff hne
    have hfx : m.flagX.isSome = true := by
      unfold Manifest.flagLine at hl
      obtain ⟨x, hx, -⟩ := Option.map_eq_some_iff.mp hl
      rw [hx]
      rfl
    have hex : exec (.manifestComplete cl q) s = .next t := by
      refine congrArg Host.Outcome.next ((if_neg (by simp [hrun])).trans (Eq.trans ?_ ht))
      unfold manifestEnd
      simp only [hq, he, hs, hh, hd, hb, hpz, hfx, Option.isSome_none, Bool.false_eq_true, Bool.true_eq_false, Nat.lt_irrefl, or_self, if_false, decide_true,
        if_true]
    refine ⟨t, hex, hkeep.mono (by decide), hqt, hflag, ?_⟩
    rw [← recLine_addr hpa hm ha]
    exact hrec

end Sys2Proof
end

section
/-! PROOFS. Movers, mailboxes and the matrix controlled (06 R241 to R243, R252, R259 to R265). -/

namespace Sys2Proof

open Sys2Proof.Machine

section
variable {s t : State} {cl : Fin 16} {q : Fin 4}

/-! ## ABORT_ALL -/

theorem mvCtrl_plain (cl : Fin 16) : PlainReg (.cl cl) 0x200 (r 0x200 0 [f 0 1 .rw, f 1 1 .go]) := {}

/-- The step of one queue of a mover that is reset. -/
def resetQueue (lost : Fin 4 → Manifest → Bool) (cl : Fin 16) (t : State) (q : Fin 4) : State :=
  advance cl q (3 * (mQueueOf t cl q).length) (setQueue t cl q ((mQueueOf t cl q).map fun m => m.reset (lost q m)))

/-- A queue all of whose manifests end, none of them in PARTIAL. -/
def Ending3 (l : List Manifest) : Prop := ∀ m ∈ l, ∃ e, m.ending = some e ∧ e.status ≠ 2

theorem reset_ends (lost : Bool) (m : Manifest) : ∃ e, (m.reset lost).ending = some e ∧ e.status ≠ 2 := by
  unfold Manifest.reset
  split_ifs with h
  · rw [Bool.and_eq_true] at h
    obtain ⟨h, -⟩ := h
    split at h
    next e he =>
      simp only [Bool.and_eq_true, decide_eq_true_eq] at h
      exact ⟨e, he, h.2⟩
    · cases h
  · exact ⟨_, rfl, by decide⟩

theorem Ending3.mapAt {l : List Manifest} (h : Ending3 l) {m : Manifest} (hm : ∃ e, m.ending = some e ∧ e.status ≠ 2) (i : Nat) :
    Ending3 (mapAt (fun _ => m) l i) := by
  induction l generalizing i with
  | nil => exact h
  | cons a l ih =>
    have hl : Ending3 l := fun x hx => h x (List.mem_cons_of_mem _ hx)
    cases i with
    | zero =>
      intro x hx
      rcases List.mem_cons.mp hx with rfl | hx
      · exact hm
      · exact hl x hx
    | succ i =>
      intro x hx
      rcases List.mem_cons.mp hx with rfl | hx
      · exact h x List.mem_cons_self
      · exact ih hl i x hx

theorem Ending3.dropAt {l : List Manifest} (h : Ending3 l) (i : Nat) : Ending3 (dropAt l i) := by
  induction l generalizing i with
  | nil => exact h
  | cons a l ih =>
    have hl : Ending3 l := fun x hx => h x (List.mem_cons_of_mem _ hx)
    cases i with
    | zero => exact hl
    | succ i =>
      intro x hx
      rcases List.mem_cons.mp hx with rfl | hx
      · exact h x List.mem_cons_self
      · exact ih hl i x hx

/-! ## Writes leave the movers -/

/-- No mover has changed. -/
def Movers (s t : State) : Prop := ∀ k, (t.cl k).mover = (s.cl k).mover

theorem Movers.refl (s : State) : Movers s s := fun _ => rfl

theorem Movers.trans {u : State} (h : Movers s t) (k : Movers t u) : Movers s u := fun n => (k n).trans (h n)

theorem Movers.of_keeps {P : List Part} (h : Keeps P s t) (hc : Part.clusters ∉ P) : Movers s t := fun k => by rw [h.cl hc]

theorem Movers.queue (h : Movers s t) (cl : Fin 16) (q : Fin 4) : mQueueOf t cl q = mQueueOf s cl q := by
  unfold mQueueOf State.mover
  rw [h cl]

theorem movers_setCl (s : State) (k : Fin 16) {c : Cluster} (h : c.mover = (s.cl k).mover) : Movers s (s.setCl k c) := fun j => by
  by_cases hj : j = k
  · rw [hj, setCl_cl_same, h]
  · rw [setCl_cl_other _ _ hj]

theorem movers_foldl {α : Type} {g : State → α → State} (hg : ∀ u i, Movers u (g u i)) (is : List α) (u : State) : Movers u (is.foldl g u) := by
  induction is generalizing u with
  | nil => exact Movers.refl u
  | cons i is ih => exact (hg u i).trans (ih _)

theorem movers_foldl1 {α β : Type} {g : State × β → α → State × β} (hg : ∀ a i, Movers a.1 (g a i).1) (is : List α) (a : State × β) :
    Movers a.1 (is.foldl g a).1 := by
  induction is generalizing a with
  | nil => exact Movers.refl _
  | cons i is ih => exact (hg a i).trans (ih _)

theorem movers_setSl (s : State) (l : Line) (e : SLine) : Movers s (setSl s l e) := fun _ => rfl

theorem movers_setMisses (s : State) (k : Fin 16) (ms : List MissReg) :
    Movers s (s.setCl k { s.cl k with cc := { (s.cl k).cc with misses := ms } }) := movers_setCl s k rfl

theorem movers_cancelGrant (s : State) (k : Fin 16) (l : Line) : Movers s (cancelGrant s k l) := by
  unfold cancelGrant
  split_ifs
  · exact (movers_setMisses s k _).trans (.of_keeps (addRetry_keeps' _ l _ _) (by decide))
  · exact Movers.refl s

theorem movers_setCcLine (s : State) (k : Fin 16) (l : Line) (x : Option CLine) : Movers s (setCcLine s k l x) := movers_setCl s k rfl

theorem movers_dropCopy (s : State) (k : Fin 16) (l : Line) : Movers s (dropCopy s k l).1 := by
  unfold dropCopy
  extract_lets s1
  split
  · exact movers_cancelGrant _ _ _
  · exact (movers_cancelGrant _ _ _).trans (movers_setCcLine _ _ _ _)

theorem movers_dropCopies (s : State) (l : Line) (keep : Option (Fin 16)) : Movers s (dropCopies s l keep).1 := by
  unfold dropCopies
  extract_lets e r e1 pres
  have hr : Movers s r.1 := by
    refine movers_foldl1 ?_ _ (s, none)
    exact fun a i => movers_dropCopy a.1 i l
  exact hr.trans (movers_setSl _ _ _)

theorem movers_writeBelow (s : State) (l : Line) (d : BitVec 512) (p : BitVec 2) : Movers s (writeBelow s l d p) :=
  .of_keeps (P := [.page .ep, .page .mc, .dm, .cxl, .frz, .scrubs]) (writeBelow_keeps _ _ _ (by decide) (Keeps.refl _ s)) (by decide)

theorem movers_recallShadow (s : State) (l : Line) : Movers s (recallShadow s l) := by
  have hdrop := movers_dropCopies s l none
  have hset : ∀ u, Movers s u → Movers s (cntPreg (setSl u l { slGet u l with cxl := none }) (dcPage l) 0x128 1) := fun u hu =>
    hu.trans fun _ => rfl
  unfold recallShadow
  extract_lets r s1
  refine hset s1 ?_
  simp only [s1, r]
  split
  · exact hdrop.trans (movers_writeBelow _ _ _ _)
  · refine hdrop.trans ?_
    unfold cleanEvict
    split_ifs
    · exact Movers.refl _
    · exact fun _ => rfl

theorem movers_shadowRoom (s : State) (l : Line) : Movers s (shadowRoom s l) := by
  unfold shadowRoom
  extract_lets ks f
  split_ifs
  · exact Movers.refl s
  · exact Movers.refl s
  · exact Movers.trans (t := f.2) (fun _ => rfl) (movers_recallShadow _ _)

theorem movers_evictData (s : State) (l : Line) : Movers s (evictData s l) :=
  .of_keeps (P := [.page .ep, .page .mc, .dm, .slices, .cxl, .frz, .scrubs]) (evictData_keeps _ (by decide) (Keeps.refl _ s)) (by decide)

theorem movers_evictWay (s : State) (n : Fin 16) (set way : Nat) : Movers s (evictWay s n set way) := by
  unfold evictWay
  split
  · exact Movers.refl s
  · extract_lets l
    split_ifs
    · exact movers_evictData _ _
    · exact (movers_shadowRoom s l).trans (movers_evictData _ _)
    · exact Movers.refl s
    · exact .of_keeps (P := [.page .lw, .page .dc, .slices]) (startBi_keeps _ _ _ (by decide) (Keeps.refl _ s)) (by decide)
    · exact .of_keeps (P := [.page .lw, .page .dc, .slices]) (shadowAsk_keeps _ (by decide) (Keeps.refl _ s)) (by decide)

theorem movers_pickWay (s : State) (l : Line) : Movers s (pickWay s l).1 := by
  unfold pickWay
  extract_lets n ways held vs f w
  split
  · exact Movers.refl s
  · exact Movers.refl s
  · split_ifs
    · exact Movers.refl s
    · exact Movers.trans (t := f.2) (fun _ => rfl) (movers_evictWay _ _ _ _)

theorem movers_storeBelow (s : State) (l : Line) (d : BitVec 512) (p : BitVec 2) : Movers s (storeBelow s l d p) := by
  unfold storeBelow
  extract_lets e s1
  have h1 : Movers s s1 := by
    simp only [s1]
    split_ifs
    · exact movers_shadowRoom s l
    · exact Movers.refl s
  exact h1.trans ((movers_setSl _ _ _).trans (movers_writeBelow _ _ _ _))

theorem movers_homeStore (s : State) (l : Line) (d : BitVec 512) (p : BitVec 2) : Movers s (homeStore s l d p) := by
  unfold homeStore
  by_cases ha : slAllocs s l = true
  · rw [if_pos ha]
    extract_lets r
    split
    · exact (movers_pickWay s l).trans (movers_setSl _ _ _)
    · exact (movers_pickWay s l).trans (movers_storeBelow _ _ _ _)
  · rw [if_neg ha]
    exact movers_storeBelow _ _ _ _

theorem movers_hostWriteLine (s : State) (m : Nat) (core : Byte) (num : Nat) (d : BitVec 512) (mask : BitVec 64) (p : BitVec 2) (relaxed : Bool) :
    Movers s (hostWriteLine s m core num d mask p relaxed) :=
  .of_keeps (P := [.page .ep, .cxl, .frz]) (hostWriteLine_keeps _ _ _ _ _ _ _ (by decide) (Keeps.refl _ s)) (by decide)

theorem movers_serveWrinv (s : State) (m : Fin 58) (core : Byte) (l : Line) (d : BitVec 512) (p : BitVec 2) (relaxed : Bool) :
    Movers s (serveWrinv s m core l d p relaxed) := by
  unfold serveWrinv
  extract_lets s1 e
  have h1 : Movers s s1 := (Movers.of_keeps (countSl_keeps' s l) (by decide)).trans (movers_dropCopies _ _ _)
  split_ifs
  · exact h1.trans ((movers_setSl _ _ _).trans (movers_hostWriteLine _ _ _ _ _ _ _ _))
  · have hc : Movers s1 (clearCached s1 l p) := .of_keeps (P := [.page .mc]) (clearCached_keeps _ _ (by decide) (Keeps.refl _ s1)) (by decide)
    exact h1.trans (hc.trans (movers_homeStore _ _ _ _))

theorem movers_serveWrpart (s : State) (m : Fin 58) (core : Byte) (l : Line) (d : BitVec 512) (mask : BitVec 64) (p : BitVec 2) (relaxed : Bool) :
    Movers s (serveWrpart s m core l d mask p relaxed) := by
  have hreport : ∀ (u : State) (old : BitVec 2), Movers u (reportPartial u l old mask) := fun u old =>
    .of_keeps (P := [.page .mc]) (reportPartial_keeps _ _ _ (by decide) (Keeps.refl _ u)) (by decide)
  have hbelow : ∀ (u : State), Movers u (writeLineAt u l.num.toNat d mask p) := fun u =>
    .of_keeps (P := [.page .mc, .dm, .scrubs]) (writeLineAt_keeps _ _ _ _ (by decide) (Keeps.refl _ u)) (by decide)
  unfold serveWrpart
  extract_lets r s1 e
  have h1 : Movers s s1 := by
    have hd : Movers s r.1 := (Movers.of_keeps (countSl_keeps' s l) (by decide)).trans (movers_dropCopies _ _ _)
    simp only [s1]
    split
    · exact hd.trans (movers_homeStore _ _ _ _)
    · exact hd
  refine h1.trans ?_
  split
  · have hown : Movers s1 (askOwn s1 l) := by
      unfold askOwn
      split_ifs <;> exact fun _ => rfl
    exact hown.trans ((hreport _ _).trans (movers_homeStore _ _ _ _))
  · split_ifs
    · exact movers_hostWriteLine _ _ _ _ _ _ _ _
    · have hread : Movers s1 (readLineAt s1 l.num.toNat) :=
        .of_keeps (P := [.page .mc, .dm, .scrubs]) (readLineAt_keeps _ (by decide) (Keeps.refl _ s1)) (by decide)
      exact hread.trans ((hreport _ _).trans (movers_homeStore _ _ _ _))
    · exact hbelow _

theorem movers_postWrite (s : State) (l : Line) (m : Fin 58) (stream : Nat) (d : BitVec 512) (mask : BitVec 64) (p : BitVec 2) (relaxed : Bool) :
    Movers s (postWrite s l m stream d mask p relaxed) := by
  have hclear : Movers s (clearRetry s l m) := .of_keeps (P := [.slices]) (clearRetry_keeps _ _ (by decide) (Keeps.refl _ s)) (by decide)
  unfold postWrite
  extract_lets core
  split_ifs
  · exact movers_hostWriteLine _ _ _ _ _ _ _ _
  · exact hclear.trans (movers_serveWrinv _ _ _ _ _ _ _)
  · exact hclear.trans (movers_serveWrpart _ _ _ _ _ _ _ _)

theorem movers_writeFlag (s : State) (cl : Fin 16) (q : Fin 4) (m : Manifest) : Movers s (writeFlag s cl q m) := by
  unfold writeFlag
  split
  · exact Movers.refl s
  · exact movers_postWrite _ _ _ _ _ _ _ _

theorem movers_writeRecord (s : State) (cl : Fin 16) (q : Fin 4) (m : Manifest) (status a : Nat) : Movers s (writeRecord s cl q m status a) :=
  (movers_postWrite _ _ _ _ _ _ _ _).trans fun _ => rfl

/-! ## A queue that only ends -/

theorem Ending3.found {l : List Manifest} (h : Ending3 l) {i : Nat} {m : Manifest} {e : Ending}
    (hf : (l.zipIdx.findSome? fun x => x.1.ending.map fun e => (x.2, x.1, e)) = some (i, m, e)) : m.ending = some e ∧ e.status ≠ 2 := by
  obtain ⟨⟨x, j⟩, hx, he⟩ := List.exists_of_findSome?_eq_some hf
  rw [Option.map_eq_some_iff] at he
  obtain ⟨e', he', hp⟩ := he
  injection hp with _ hp
  injection hp with hm hee
  subst hm hee
  obtain ⟨e'', h'', hst⟩ := h x (List.fst_mem_of_mem_zipIdx hx)
  rw [show x.ending = some e'' from h''] at he'
  injection he' with he'
  exact ⟨by rw [h'', he'], he' ▸ hst⟩

/-- The queue still ends and the others have not changed. -/
structure StillEnds (s t : State) (cl : Fin 16) (q : Fin 4) : Prop where
  ends : Ending3 (mQueueOf t cl q)
  others : ∀ r, r ≠ q → mQueueOf t cl r = mQueueOf s cl r

theorem StillEnds.trans {u : State} (h : StillEnds s t cl q) (k : StillEnds t u cl q) : StillEnds s u cl q :=
  ⟨k.ends, fun r hr => (k.others r hr).trans (h.others r hr)⟩

theorem StillEnds.of_movers (h : Ending3 (mQueueOf s cl q)) (k : Movers s t) : StillEnds s t cl q :=
  ⟨by rw [k.queue]; exact h, fun r _ => k.queue cl r⟩

theorem StillEnds.setQueue (s : State) {l : List Manifest} (h : Ending3 l) : StillEnds s (setQueue s cl q l) cl q :=
  ⟨by rw [mQueueOf_setQueue]; exact h, fun r hr => mQueueOf_setQueue_other s _ _ hr⟩

theorem stillEnds_endSeen {i : Nat} {m : Manifest} {e : Ending} (h : Ending3 (mQueueOf s cl q)) (hst : e.status ≠ 2) :
    StillEnds s (endSeen s cl q i m e) cl q := by
  have hdrop : StillEnds s (Machine.setQueue s cl q (Machine.dropAt (mQueueOf s cl q) i)) cl q := .setQueue s (h.dropAt i)
  unfold endSeen
  rw [if_neg hst]
  split_ifs
  · exact hdrop
  · refine hdrop.trans (.of_movers hdrop.ends (.of_keeps (P := [.page .sd, .cores, .sd]) ?_ (by decide)))
    exact manifestEvent_keeps _ (by decide) (Keeps.refl _ _)

theorem stillEnds_advance (fuel : Nat) (h : Ending3 (mQueueOf s cl q)) : StillEnds s (advance cl q fuel s) cl q := by
  induction fuel generalizing s with
  | zero => exact .of_movers h (Movers.refl s)
  | succ n ih =>
    have hsame : StillEnds s s cl q := .of_movers h (Movers.refl s)
    have hask : ∀ l m, StillEnds s (postAsk s l m) cl q := fun l m =>
      .of_movers h (.of_keeps (P := [.page .lw, .page .dc, .slices]) (postAsk_keeps _ _ (by decide) (Keeps.refl _ s)) (by decide))
    have hgo : ∀ t, StillEnds s t cl q → StillEnds s (advance cl q n t) cl q := fun t ht => ht.trans (ih ht.ends)
    have hset : ∀ t, Movers s t → ∀ (m : Manifest) (i : Nat) (e : Ending), e.status ≠ 2 →
        StillEnds s (setManifest t cl q i { m with ending := some e }) cl q := fun t ht m i e he => by
      have hl : Ending3 (mQueueOf t cl q) := by rw [ht.queue]; exact h
      exact (StillEnds.of_movers h ht).trans (.setQueue t (hl.mapAt ⟨e, rfl, he⟩ i))
    unfold advance
    split_ifs
    · exact hsame
    · split
      · exact hsame
      next i m e hf =>
        obtain ⟨-, hst⟩ := h.found hf
        extract_lets next l
        split
        · split_ifs
          · exact hgo _ (hset _ (movers_writeFlag s cl q m) m i _ hst)
          · exact hask _ _
        · split_ifs
          · exact hgo _ (hset _ (movers_writeRecord s cl q m _ _) m i _ hst)
          · exact hask _ _
        · split_ifs
          · exact hsame
          · exact hgo _ (stillEnds_endSeen h hst)

theorem stillEnds_resetQueue (lost : Fin 4 → Manifest → Bool) : StillEnds s (resetQueue lost cl s q) cl q := by
  have hset : StillEnds s (Machine.setQueue s cl q ((mQueueOf s cl q).map fun m => m.reset (lost q m))) cl q := by
    refine .setQueue s fun m hm => ?_
    obtain ⟨m0, -, rfl⟩ := List.mem_map.mp hm
    exact reset_ends _ _
  unfold resetQueue
  exact hset.trans (stillEnds_advance _ hset.ends)

/-- The manifests whose record is lost and that a reset drops. -/
def lostRecord (s : State) (cl : Fin 16) (q : Fin 4) (m : Manifest) : Bool := recordLost s cl m && !(streamBusy s (16 + cl.val) q.val)

/-- The state with the mover no longer frozen. -/
def unfrozen (s : State) (cl : Fin 16) : State := { s with frz := { s.frz with movers := setBit s.frz.movers cl.val false } }

theorem resetMover_eq (s : State) (cl : Fin 16) :
    resetMover s cl = (List.finRange 4).foldl (resetQueue (lostRecord s cl) cl) (unfrozen s cl) := by
  unfold resetMover resetQueue lostRecord unfrozen
  rfl

/-- Every queue of a mover that was reset ends. -/
theorem resetMover_ends (s : State) (cl : Fin 16) (r : Fin 4) : Ending3 (mQueueOf (resetMover s cl) cl r) := by
  rw [resetMover_eq]
  refine foldl_reaches (R := fun t => Ending3 (mQueueOf t cl r)) (fun t => (stillEnds_resetQueue _).ends) ?_ (List.mem_finRange r) _
  intro t q ht
  by_cases hq : r = q
  · exact hq ▸ (stillEnds_resetQueue _).ends
  · rw [(stillEnds_resetQueue (lostRecord s cl)).others r hq]
    exact ht

/-- The test whether the mover is still resetting, and the end of ABORT_ALL, leave the movers. -/
theorem movers_abortAllEnd (s : State) (cl : Fin 16) : Movers s (abortAllEnd s cl) :=
  .of_keeps (P := [.page .cl]) (abortAllEnd_keeps _ (by decide) (Keeps.refl _ s)) (by decide)

theorem mvCtrlWrite_abort (v : W32) (h : (pageWrite s (.cl cl) 0x200 v).started 1 = true) :
    ∃ u : State, mvCtrlWrite s cl v = abortAllEnd (resetMover u cl) cl := by
  unfold mvCtrlWrite
  rw [if_pos h]
  exact ⟨_, rfl⟩

/-- ABORT_ALL: every manifest of the mover ends. -/
theorem abortAll_ends (v : W32) (h : Starts s (.cl cl) 0x200 1 v) :
    Runs (.abortAll cl v) s [.clusters, .cores, .cxl, .dm, .frz, .page .cl, .page .dc, .page .ep, .page .lw, .page .mc, .page .sd, .scrubs,
      .sd, .slices, .staged] fun t => ∀ q : Fin 4, ((mQueueOf t cl q).all fun m => m.ending.isSome) = true := by
  refine ⟨mvCtrlWrite s cl v, rfl, ?_, fun q => ?_⟩
  · exact (nextKeeps_eq (execAbortAll_keeps cl v (fun _ h => h) (Keeps.refl _ s)) rfl).mono (by decide)
  · obtain ⟨u, hu⟩ := mvCtrlWrite_abort v (started_one (mvCtrl_plain cl) (by decide) (by decide) _ h)
    rw [hu, (movers_abortAllEnd _ cl).queue, List.all_eq_true]
    intro m hm
    obtain ⟨e, he, -⟩ := resetMover_ends u cl q m hm
    rw [he]
    rfl

/-! ## ABORT_ALL of a single manifest -/

theorem foldl_single {α β : Type} {g : β → α → β} {i : α} {z v : β} (hi : g z i = v) (hz : ∀ j, j ≠ i → g z j = z) (hv : ∀ j, j ≠ i → g v j = v)
    {l : List α} (h : i ∈ l) (hn : l.Nodup) : l.foldl g z = v := by
  induction l with
  | nil => cases h
  | cons j l ih =>
    obtain ⟨hj, hl⟩ := List.nodup_cons.mp hn
    by_cases e : j = i
    · subst e
      rw [List.foldl_cons, hi]
      exact foldl_idle fun k hk => hv k fun e => hj (e ▸ hk)
    · rw [List.foldl_cons, hz j e]
      exact ih ((List.mem_cons.mp h).resolve_left (Ne.symm e)) hl

theorem setQueue_same (s : State) (cl : Fin 16) (q : Fin 4) : setQueue s cl q (mQueueOf s cl q) = s := by
  have hqueues : (s.mover cl).queues.set q (mQueueOf s cl q) = (s.mover cl).queues := Vector.set_getElem_self _
  have hcl : s.clusters.set cl (s.cl cl) = s.clusters := Vector.set_getElem_self _
  unfold setQueue
  rw [hqueues]
  unfold State.setMover State.setCl
  exact congrArg (fun x => { s with clusters := x }) hcl

/-- Resetting a queue without manifests does nothing. -/
theorem resetQueue_empty (lost : Fin 4 → Manifest → Bool) (h : mQueueOf s cl q = []) : resetQueue lost cl s q = s := by
  have hset := setQueue_same s cl q
  rw [h] at hset
  unfold resetQueue
  rw [h, List.map_nil, hset]
  rfl

/-- A manifest that does not end yet ends as aborted. -/
theorem reset_fresh {m : Manifest} (lost : Bool) (h : m.ending = none) :
    m.reset lost = { m with ending := some ⟨.record, 4, 0⟩, seg := none, next := none, nextBusy := false } := by
  unfold Manifest.reset
  rw [h]
  rfl

/-- The reset of a mover with one manifest, whose record goes to a plain line. -/
theorem resetMover_single {m : Manifest} (hq : mQueueOf s cl q = [m]) (hrest : ∀ r, r ≠ q → mQueueOf s cl r = []) (he : m.ending = none)
    (hidle : streamBusy s (16 + cl.val) q.val = false) (hk : m.recX.kind = 0) (hp : PlainLine s m.recLine) :
    ∃ t, resetMover s cl = t ∧ Keeps [.page .dc, .page .mc, .page .cl, .clusters, .dm, .frz] s t ∧ (∀ r, mQueueOf t cl r = []) ∧
      readBytes t.dm (64 * m.recLine.num.toNat) 64 = natBytes 64 (record s cl q m 4 0).toNat ∧
      preg t (.cl cl) 0x200 = preg s (.cl cl) 0x200 := by
  set m' : Manifest := { m with ending := some ⟨.record, 4, 0⟩, seg := none, next := none, nextBusy := false } with hm'
  have hz : Keeps [.frz] s (unfrozen s cl) := put_frz_keeps _ (by decide) (Keeps.refl _ s)
  have hzq : ∀ r, mQueueOf (unfrozen s cl) cl r = mQueueOf s cl r := mQueueOf_of_keeps hz (by decide) cl
  set u := setQueue (unfrozen s cl) cl q [m'] with hu
  have hku : Keeps [.clusters, .frz] s u := (hz.mono (by decide)).trans ((setQueue_keeps' _ _ _ _).mono (by decide))
  have hpu : PlainLine u m'.recLine :=
    hp.along ((SamePaths.of_keeps hz (by decide) (by decide) (by decide) (by decide) (by decide)).trans (setQueue_paths _ _ _ _))
  have hends : EndsFirst u cl q m' [] ⟨.record, 4, 0⟩ :=
    ⟨mQueueOf_setQueue _ _ _ _, rfl, rfl, (streamBusy_of_keeps hku (by decide) _ _).trans hidle⟩
  obtain ⟨t, hadv, hput⟩ := advance_ends 1 hends rfl hk (.inl rfl) hpu
  have hturn : resetQueue (lostRecord s cl) cl (unfrozen s cl) q = t := by
    unfold resetQueue
    rw [hzq, hq, List.map_cons, List.map_nil, reset_fresh _ he]
    exact hadv
  have hothers : ∀ r, r ≠ q → mQueueOf t cl r = [] := fun r hr => by
    rw [hput.others r hr, mQueueOf_setQueue_other _ _ _ hr, hzq, hrest r hr]
  have hfold : resetMover s cl = t := by
    rw [resetMover_eq]
    exact foldl_single hturn (fun r hr => resetQueue_empty _ ((hzq r).trans (hrest r hr))) (fun r hr => resetQueue_empty _ (hothers r hr))
      (List.mem_finRange q) (List.nodup_finRange 4)
  refine ⟨t, hfold, (hku.mono (by decide)).trans (hput.keeps.mono (by decide)), fun r => ?_, ?_, ?_⟩
  · by_cases hr : r = q
    · rw [hr, hput.queue]
      rfl
    · exact hothers r hr
  · have hrec : record u cl q m' 4 0 = record s cl q m 4 0 := record_congr rfl rfl rfl rfl (congrArg Tide.step (hku .tide (by decide))) 4 0
    rw [← hrec]
    exact hput.record
  · rw [hput.regs _ (by omega) (by omega)]
    rfl

/-- A mover without manifests is done with its reset. -/
theorem moverResets_empty (h : ∀ r, mQueueOf s cl r = []) : moverResets s cl = false := by
  unfold moverResets
  simp [h]

theorem abortAll_single {v : W32} {m : Manifest} {pa : Nat} (hs : Starts s (.cl cl) 0x200 1 v) (h0 : bit v 0 = bit (preg s (.cl cl) 0x200) 0)
    (hq : mQueueOf s cl q = [m]) (hrest : ∀ r : Fin 4, r ≠ q → mQueueOf s cl r = []) (he : m.ending = none)
    (hidle : streamBusy s (16 + cl.val) q.val = false) (hk : m.recX.kind = 0) (hpa : pa = m.recX.phys (mCompl m.desc)) (hlt : pa < dmSize)
    (hal : pa % 64 = 0) (hp : PlainLine s m.recLine) :
    Runs (.abortAll cl v) s [.page .lw, .page .ep, .page .dc, .page .cl, .page .mc, .staged, .clusters, .dm, .slices, .cxl, .frz, .scrubs] fun t =>
      (∀ r : Fin 4, mQueueOf t cl r = []) ∧ readBytes t.dm pa 64 = natBytes 64 (record s cl q m 4 0).toNat ∧
      bit (preg t (.cl cl) 0x200) 1 = false ∧ bit (preg t (.cl cl) 0x200) 0 = bit v 0 := by
  obtain ⟨hu, -, hv1⟩ := id hs
  set w := (pageWrite s (.cl cl) 0x200 v).st with hw
  have hkw : Keeps [.page .cl] s w := pageWrite_keeps_plain (mvCtrl_plain cl) hu v 0 (by simp [classOf]) (Keeps.refl _ s)
  have hnow : bit (preg w (.cl cl) 0x200) 0 = bit v 0 := bit_pageWrite (mvCtrl_plain cl) hu 0 rfl rfl (by omega)
  have hgo : bit (preg w (.cl cl) 0x200) 1 = true := by
    rw [hw, bit_pageWrite_go (mvCtrl_plain cl) hu rfl (by omega), hv1]
    rfl
  have hqw : ∀ r, mQueueOf w cl r = mQueueOf s cl r := mQueueOf_of_keeps hkw (by decide) cl
  obtain ⟨t, hreset, hkt, hempty, hbytes, hreg⟩ := resetMover_single ((hqw q).trans hq) (fun r hr => (hqw r).trans (hrest r hr)) he
    ((streamBusy_of_keeps hkw (by decide) _ _).trans hidle) hk
    (hp.along (.of_keeps hkw (by decide) (by decide) (by decide) (by decide) (by decide)))
  have hexec : mvCtrlWrite s cl v = goDone t (.cl cl) 0x200 1 := by
    have hstay : ¬(bit (preg s (.cl cl) 0x200) 0 = false ∧ bit (preg w (.cl cl) 0x200) 0 = true) := by
      rw [hnow, h0]
      rintro ⟨ha, hb⟩
      rw [ha] at hb
      cases hb
    unfold mvCtrlWrite abortAllEnd
    simp only [← hw, if_neg hstay, started_one (mvCtrl_plain cl) rfl (by omega) 0 hs, if_true, hreset, hreg, hgo, moverResets_empty hempty,
      Bool.not_false, Bool.and_self]
  have hkd : Keeps [.page .cl] t (goDone t (.cl cl) 0x200 1) := goDone_keeps _ _ _ (by omega) (by simp [classOf]) (Keeps.refl _ t)
  have hsame : preg (goDone t (.cl cl) 0x200 1) (.cl cl) 0x200 = preg t (.cl cl) 0x200 &&& ~~~one32 1 :=
    preg_goDone_same _ _ (by omega) (by omega) (by omega) (by simp)
  have hline : 64 * m.recLine.num.toNat = pa := recLine_addr hpa hlt hal
  refine ⟨_, congrArg Host.Outcome.next hexec, (hkw.mono (by decide)).trans ((hkt.mono (by decide)).trans (hkd.mono (by decide))),
    fun r => (mQueueOf_of_keeps hkd (by decide) cl r).trans (hempty r), ?_, ?_, ?_⟩
  · have hrec : record w cl q m 4 0 = record s cl q m 4 0 := record_congr rfl rfl rfl rfl (congrArg Tide.step (hkw .tide (by decide))) 4 0
    have hdm : (goDone t (.cl cl) 0x200 1).dm = t.dm := by
      obtain ⟨h, -⟩ : _ ∧ _ := hkd .dm (by decide)
      exact h
    rw [hdm, ← hline, hbytes, hrec]
  · rw [hsame, bit_andNot_one32 _ (by omega)]
  · rw [hsame, bit_and, hreg, hnow]
    have hother : bit (~~~one32 1) 0 = true := by decide
    rw [hother, Bool.and_true]

/-! ## MV_EN -/

/-- MV_EN becoming 1: the completion numbers start at 1 again. -/
theorem mvEn_on (v : W32) (hu : Unlocked s (.cl cl)) (h0 : bit (preg s (.cl cl) 0x200) 0 = false) (hv : bit v 0 = true) (h1 : bit v 1 = false) :
    Runs (.mvEn cl v) s [.page .cl, .clusters] fun t =>
      bit (preg t (.cl cl) 0x200) 0 = true ∧ (t.mover cl).last = Vector.replicate 4 0 ∧ (t.mover cl).queues = (s.mover cl).queues := by
  have hnow : bit (preg (pageWrite s (.cl cl) 0x200 v).st (.cl cl) 0x200) 0 = true :=
    (bit_pageWrite (mvCtrl_plain cl) hu 0 rfl rfl (by omega)).trans hv
  have hk : Keeps [.page .cl] s (pageWrite s (.cl cl) 0x200 v).st :=
    pageWrite_keeps_plain (mvCtrl_plain cl) hu v 0 (by simp [classOf]) (Keeps.refl _ s)
  have hm : (pageWrite s (.cl cl) 0x200 v).st.mover cl = s.mover cl := congrArg Cluster.mover (hk.cl (by decide) cl)
  have hexec : mvCtrlWrite s cl v = (pageWrite s (.cl cl) 0x200 v).st.setMover cl { s.mover cl with last := Vector.replicate 4 0 } := by
    unfold mvCtrlWrite
    simp only [started_zero (mvCtrl_plain cl) hu rfl (by omega) 0 h1, h0, hnow, hm, and_self, if_true, Bool.false_eq_true, if_false]
  refine ⟨_, congrArg Host.Outcome.next hexec, State.setMover_keeps _ _ (by decide) (hk.mono (by decide)), hnow, ?_⟩
  rw [mover_setMover]
  exact ⟨rfl, rfl⟩

theorem mvEn_off (v : W32) (hu : Unlocked s (.cl cl)) (hv : bit v 0 = false) (h1 : bit v 1 = false) :
    Runs (.mvEn cl v) s [.page .cl] fun t => bit (preg t (.cl cl) 0x200) 0 = false := by
  have hnow : bit (preg (pageWrite s (.cl cl) 0x200 v).st (.cl cl) 0x200) 0 = false :=
    (bit_pageWrite (mvCtrl_plain cl) hu 0 rfl rfl (by omega)).trans hv
  have hexec : mvCtrlWrite s cl v = (pageWrite s (.cl cl) 0x200 v).st := by
    unfold mvCtrlWrite
    simp only [started_zero (mvCtrl_plain cl) hu rfl (by omega) 0 h1, hnow, Bool.false_eq_true, and_false, if_false]
  exact ⟨_, congrArg Host.Outcome.next hexec, pageWrite_keeps_plain (mvCtrl_plain cl) hu v 0 (by simp [classOf]) (Keeps.refl _ s), hnow⟩

/-! ## Mailboxes -/

theorem mbCtrl_plain (mb : Fin 16) : PlainReg .fm (mbOff mb) (rs 0x100 16 0x20 0 [f 0 1 .rw, f 1 1 .go]) where
  row_eq := by revert mb; decide
  unpaired := by
    intro lo _ h
    have hall : ∀ k : Fin 16, (rowOf .fm (mbOff k - 4)).all (fun lo => !lo.pair) = true := by decide
    have hall := hall mb
    rw [h] at hall
    simpa using hall
  small := by unfold mbOff; omega
  noFix := by
    have hs : 0x100 ≤ mbOff mb := by unfold mbOff; omega
    intro v new
    unfold wrFix
    rw [if_neg (by omega), if_neg (by omega), if_neg (by omega), if_neg (by omega), if_neg (by simp)]
  noInt := by unfold mbOff; omega
  noErr := by unfold mbOff; omega

theorem mailbox_windowReset (s : State) (mb : Fin 16) :
    (windowReset s mb).mailbox mb = { s.mailbox mb with h := 0, empty := true, results := [] } := Vector.getElem_set_self _

theorem mailbox_of_keeps {P : List Part} (h : Keeps P s t) (hm : Part.mailboxes ∉ P) (mb : Fin 16) : t.mailbox mb = s.mailbox mb := by
  unfold State.mailbox
  rw [show t.mailboxes = s.mailboxes from h .mailboxes hm]

section
variable {mb : Fin 16} {v : W32}

theorem mbWrite_keeps (hu : Unlocked s .fm) : Keeps [.page .fm] s (pageWrite s .fm (mbOff mb) v).st :=
  pageWrite_keeps_plain (mbCtrl_plain mb) hu v 0 (by simp [classOf]) (Keeps.refl _ s)

theorem mailboxEn_on (hu : Unlocked s .fm) (h0 : bit (preg s .fm (mbOff mb)) 0 = false) (hv : bit v 0 = true) (h1 : bit v 1 = false) :
    Runs (.mailboxEn mb v) s [.page .fm, .mailboxes] fun t =>
      bit (preg t .fm (mbOff mb)) 0 = true ∧ t.mailbox mb = { s.mailbox mb with h := 0, empty := true, results := [] } := by
  have hnow : bit (preg (pageWrite s .fm (mbOff mb) v).st .fm (mbOff mb)) 0 = true :=
    (bit_pageWrite (mbCtrl_plain mb) hu 0 rfl rfl (by omega)).trans hv
  have hk : Keeps [.page .fm] s (pageWrite s .fm (mbOff mb) v).st := mbWrite_keeps hu
  have hexec : mbCtrlWrite s mb v = windowReset (pageWrite s .fm (mbOff mb) v).st mb := by
    unfold mbCtrlWrite
    simp only [started_zero (mbCtrl_plain mb) hu rfl (by omega) 0 h1, h0, hnow, and_self, if_true, Bool.false_eq_true, if_false]
  refine ⟨_, congrArg Host.Outcome.next hexec, windowReset_keeps _ (by decide) (hk.mono (by decide)), hnow, ?_⟩
  rw [mailbox_windowReset, mailbox_of_keeps hk (by decide)]

theorem mailboxEn_off (hu : Unlocked s .fm) (hv : bit v 0 = false) (h1 : bit v 1 = false) :
    Runs (.mailboxEn mb v) s [.page .fm] fun t => bit (preg t .fm (mbOff mb)) 0 = false := by
  have hnow : bit (preg (pageWrite s .fm (mbOff mb) v).st .fm (mbOff mb)) 0 = false :=
    (bit_pageWrite (mbCtrl_plain mb) hu 0 rfl rfl (by omega)).trans hv
  have hexec : mbCtrlWrite s mb v = (pageWrite s .fm (mbOff mb) v).st := by
    unfold mbCtrlWrite
    simp only [started_zero (mbCtrl_plain mb) hu rfl (by omega) 0 h1, hnow, Bool.false_eq_true, and_false, if_false]
  exact ⟨_, congrArg Host.Outcome.next hexec, mbWrite_keeps hu, hnow⟩

/-- WIN_RESET: the window starts over, whatever MB_EN does. -/
theorem winReset_done (h : Starts s .fm (mbOff mb) 1 v) :
    Runs (.winReset mb v) s [.page .fm, .mailboxes] fun t =>
      t.mailbox mb = { s.mailbox mb with h := 0, empty := true, results := [] } ∧ bit (preg t .fm (mbOff mb)) 1 = false := by
  have hk : Keeps [.page .fm] s (pageWrite s .fm (mbOff mb) v).st := mbWrite_keeps h.1
  have hbefore : ∃ u : State, mbCtrlWrite s mb v = goDone (windowReset u mb) .fm (mbOff mb) 1 ∧
      Keeps [.page .fm, .mailboxes] s u ∧ (windowReset u mb).mailbox mb = { s.mailbox mb with h := 0, empty := true, results := [] } := by
    unfold mbCtrlWrite
    simp only [started_one (mbCtrl_plain mb) rfl (by omega) 0 h, if_true]
    refine ⟨_, rfl, ?_, ?_⟩
    · split_ifs
      · exact windowReset_keeps _ (by decide) (hk.mono (by decide))
      · exact hk.mono (by decide)
    · rw [mailbox_windowReset]
      split_ifs
      · rw [mailbox_windowReset, mailbox_of_keeps hk (by decide)]
      · rw [mailbox_of_keeps hk (by decide)]
  obtain ⟨u, hexec, hku, hm⟩ := hbefore
  have hsmall : mbOff mb < 0x1000 := (mbCtrl_plain mb).small
  refine ⟨_, congrArg Host.Outcome.next hexec, ?_, ?_, ?_⟩
  · exact goDone_keeps _ _ _ hsmall (by simp [classOf]) (windowReset_keeps _ (by decide) hku)
  · refine Eq.trans ?_ hm
    exact mailbox_of_keeps (P := [.page .fm]) (goDone_keeps _ _ _ hsmall (by simp [classOf]) (Keeps.refl _ _)) (by decide) mb
  · rw [preg_goDone_same _ _ hsmall (mbCtrl_plain mb).noInt (by unfold mbOff; omega) (by simp), bit_andNot_one32 _ (by omega)]

end

/-! ## The matrix -/

/-- Nothing is held, back-pressured or waiting at a target, and no burst holds it. -/
structure XbEmpty (s : State) (target : Fin 26) : Prop where
  held : s.xb.held = []
  stalled : s.xb.stalled = []
  waiting : s.xb.waiting.get target = []
  burst : s.xb.burst.get target = 0

/-- A request that has waited one cycle more. -/
def waitedOne (w : XbWait) : XbWait := { w with waited := w.waited + 1 }

/-- The requests of a target have waited one cycle more. -/
def xbAged (target : Fin 26) (t : State) : State :=
  let u := setWaiting t target ((t.xb.waiting.get target).map waitedOne)
  { u with xb := { u.xb with held := u.xb.held.map fun h => if h.1 = target then (h.1, waitedOne h.2) else h } }

/-- Request `i` of a target has won. -/
def xbWon (s : State) (target : Fin 26) (i : Nat) (w : XbWait) : State :=
  { s with xb := { s.xb with ptr := s.xb.ptr.set target (BitVec.ofNat 6 w.req.master.val)
                             burst := s.xb.burst.set target (min w.req.beats.toNat (burstOf s w.req.master + 1) - 1)
                             waiting := s.xb.waiting.set target (dropAt (s.xb.waiting.get target) i) } }

section
variable {target : Fin 26} {a : XbArrival}

theorem xbRelease_empty (h : s.xb.held = []) : xbRelease s target = s := by
  unfold xbRelease
  simp only [h, List.filter_nil, List.foldl_nil]
  rw [← h]

theorem xbRetry_empty (h : s.xb.stalled = []) : xbRetry s target = s := by
  unfold xbRetry
  simp only [h, List.filter_nil, List.foldl_nil]
  rw [← h]

theorem xbCycle_wins {l : List XbArrival} {i : Nat} {w : XbWait} (hh : s.xb.held = []) (hs : s.xb.stalled = [])
    (ht : l.foldl (xbArrive target) s = t) (hb : t.xb.burst.get target = 0) (hw : xbWinner t target = some (i, w)) :
    xbCycle s target l = xbAged target (xbWon t target i w) := by
  unfold xbCycle
  simp only [xbRelease_empty hh, xbRetry_empty hs, ht, hb, hw, Nat.lt_irrefl, if_false]
  rfl

theorem xbCycle_nobody {l : List XbArrival} (hh : s.xb.held = []) (hs : s.xb.stalled = [])
    (ht : l.foldl (xbArrive target) s = t) (hb : t.xb.burst.get target = 0) (hw : xbWinner t target = none) :
    xbCycle s target l = xbAged target t := by
  unfold xbCycle
  simp only [xbRelease_empty hh, xbRetry_empty hs, ht, hb, hw, Nat.lt_irrefl, if_false]
  rfl

theorem waiting_xbAged (t : State) : (xbAged target t).xb.waiting.get target = (t.xb.waiting.get target).map waitedOne :=
  Vector.getElem_set_self _

theorem waiting_xbWon (i : Nat) (w : XbWait) : (xbWon s target i w).xb.waiting.get target = dropAt (s.xb.waiting.get target) i :=
  Vector.getElem_set_self _

theorem ptr_xbWon (i : Nat) (w : XbWait) : (xbWon s target i w).xb.ptr.get target = BitVec.ofNat 6 w.req.master.val := Vector.getElem_set_self _

theorem burst_xbWon (i : Nat) (w : XbWait) :
    (xbWon s target i w).xb.burst.get target = min w.req.beats.toNat (burstOf s w.req.master + 1) - 1 := Vector.getElem_set_self _

/-- Where nothing waits and nothing is held, nothing grows older. -/
theorem xbAged_empty (hh : s.xb.held = []) (hw : s.xb.waiting.get target = []) : xbAged target s = s := by
  have hset : s.xb.waiting.set target [] = s.xb.waiting := by rw [← hw]; exact Vector.set_getElem_self _
  unfold xbAged setWaiting
  simp only [hw, hh, List.map_nil, hset]
  rw [← hh]

theorem xbWinner_nobody (h : s.xb.waiting.get target = []) : xbWinner s target = none := by
  unfold xbWinner
  rw [h]
  rfl

theorem xbWinner_alone {w : XbWait} (h : s.xb.waiting.get target = [w]) (hb : xbBlocked s target w.req = false) : xbWinner s target = some (0, w) := by
  unfold xbWinner
  simp [h, hb]

theorem xbWinner_second {a b : XbWait} (h : s.xb.waiting.get target = [a, b]) (ha : xbBlocked s target a.req = false)
    (hb : xbBlocked s target b.req = false) (hp : prioOf s target a.req.master < prioOf s target b.req.master) :
    xbWinner s target = some (1, b) := by
  unfold xbWinner
  simp only [h, List.zipIdx_cons, List.zipIdx_nil, List.filter_cons, ha, hb, Bool.not_false, if_true, List.filter_nil, List.foldl_cons, List.foldl_nil]
  rw [if_pos (by omega)]

/-- A turn in which nothing waits leaves the target as the arrivals made it. -/
theorem xbCycle_empty {l : List XbArrival} (hh : s.xb.held = []) (hs : s.xb.stalled = []) (ht : l.foldl (xbArrive target) s = t)
    (hb : t.xb.burst.get target = 0) (hth : t.xb.held = []) (hw : t.xb.waiting.get target = []) : xbCycle s target l = t := by
  rw [xbCycle_nobody hh hs ht hb (xbWinner_nobody hw), xbAged_empty hth hw]

theorem xbPressed_none (hs : s.xb.stalled = []) : xbPressed s target a = false := by
  unfold xbPressed
  rw [hs]
  rfl

theorem xbArrive_enters (he : XbEmpty s target) (hd : xbDecodes s target a = true) (hf : xbFenced s target = false)
    (hb : xbBlocked s target a = false) : xbArrive target s a = xbEnter s target a 0 := by
  unfold xbArrive
  simp [hd, hf, hb, xbPressed_none he.stalled]

/-- The request in the target's buffers. -/
def xbEntered (s : State) (target : Fin 26) (a : XbArrival) : State := setWaiting s target [⟨a, 0⟩]

theorem waiting_xbEntered : (xbEntered s target a).xb.waiting.get target = [⟨a, 0⟩] := Vector.getElem_set_self _

/-- One request that enters an empty target wins at once. -/
theorem xbEntered_wins {b : XbArrival} (he : XbEmpty s target) (ht : xbArrive target s a = xbEntered s target b)
    (hb : xbBlocked s target b = false) : xbCycle s target [a] = xbAged target (xbWon (xbEntered s target b) target 0 ⟨b, 0⟩) :=
  xbCycle_wins he.held he.stalled (by rw [List.foldl_cons, List.foldl_nil, ht]) he.burst (xbWinner_alone waiting_xbEntered hb)

theorem xbCycle_keeps' (i : Nat) (w : XbWait) (h : Keeps [.xb] s t) : Keeps [.xb] s (xbAged target (xbWon t target i w)) := by
  refine put_xb_keeps _ (by decide) (setWaiting_keeps _ _ (by decide) ?_)
  exact put_xb_keeps _ (by decide) h

theorem xb_enters (he : XbEmpty s target) (hd : xbDecodes s target a = true) (hf : xbFenced s target = false) (hb : xbBlocked s target a = false)
    (hfull : a.full = false) (hcls : a.cls ≠ .escape) :
    Runs (.xbArbitration target [a]) s [.xb] fun t =>
      t.xb.waiting.get target = [] ∧ t.xb.ptr.get target = BitVec.ofNat 6 a.master.val ∧
      t.xb.burst.get target = min a.beats.toNat (burstOf s a.master + 1) - 1 ∧ t.xb.held = [] := by
  have henter : xbArrive target s a = xbEntered s target a := by
    rw [xbArrive_enters he hd hf hb]
    unfold xbEnter xbEntered
    simp only [hfull, hcls, ne_eq, not_false_eq_true, and_self, if_true, he.waiting, List.nil_append]
  refine ⟨_, congrArg Host.Outcome.next (xbEntered_wins he henter hb), xbCycle_keeps' _ _ (setWaiting_keeps _ _ (by decide) (Keeps.refl _ s)),
    ?_, ptr_xbWon 0 _, burst_xbWon 0 _, ?_⟩
  · rw [waiting_xbAged, waiting_xbWon, waiting_xbEntered]
    rfl
  · exact (congrArg (List.map _) he.held).trans rfl

/-- A request of CXL inbound for which the buffers are full takes an ESCAPE entry. -/
theorem xb_escapes (he : XbEmpty s target) (hd : xbDecodes s target a = true) (hf : xbFenced s target = false) (hb : xbBlocked s target a = false)
    (hfull : a.full = true) (hk : escapeKept target a = true) :
    Runs (.xbArbitration target [a]) s [.xb] fun t =>
      t.xb.waiting.get target = [] ∧ t.xb.stalled = [] ∧ t.xb.ptr.get target = BitVec.ofNat 6 a.master.val := by
  have hroom : escapesUsed s target = 0 := by
    unfold escapesUsed
    rw [he.waiting]
    rfl
  have henter : xbArrive target s a = xbEntered s target { a with cls := .escape } := by
    rw [xbArrive_enters he hd hf hb]
    unfold xbEnter xbEntered
    simp only [hfull, Bool.true_eq_false, false_and, if_false, hk, hroom, Nat.zero_lt_succ, and_self, if_true, he.waiting, List.nil_append]
  refine ⟨_, congrArg Host.Outcome.next (xbEntered_wins he henter hb), xbCycle_keeps' _ _ (setWaiting_keeps _ _ (by decide) (Keeps.refl _ s)),
    ?_, he.stalled, ptr_xbWon 0 _⟩
  rw [waiting_xbAged, waiting_xbWon, waiting_xbEntered]
  rfl

/-- A request without room waits in its master's path. -/
theorem xb_stalls (he : XbEmpty s target) (hd : xbDecodes s target a = true) (hf : xbFenced s target = false) (hb : xbBlocked s target a = false)
    (hfull : a.full = true) (hk : escapeKept target a = false) :
    Runs (.xbArbitration target [a]) s [.xb] fun t => t.xb.waiting.get target = [] ∧ t.xb.stalled = [(target, a)] := by
  have henter : [a].foldl (xbArrive target) s = xbStall s target a := by
    rw [List.foldl_cons, List.foldl_nil, xbArrive_enters he hd hf hb]
    unfold xbEnter
    simp only [hfull, Bool.true_eq_false, false_and, if_false, hk, Bool.false_eq_true]
  refine ⟨_, congrArg Host.Outcome.next (xbCycle_empty he.held he.stalled henter he.burst he.held he.waiting),
    xbStall_keeps _ _ (by decide) (Keeps.refl _ s), he.waiting, ?_⟩
  exact (congrArg (· ++ [(target, a)]) he.stalled).trans rfl

/-- A request to a fenced target is answered with an error. -/
theorem xb_fenced (he : XbEmpty s target) (hd : xbDecodes s target a = true) (hf : xbFenced s target = true) :
    Runs (.xbArbitration target [a]) s [] fun t => t.out = s.out ++ [.xbError a.master a.addr] := by
  have henter : [a].foldl (xbArrive target) s = emit s (.xbError a.master a.addr) := by
    rw [List.foldl_cons, List.foldl_nil]
    unfold xbArrive
    simp [hd, hf]
  exact ⟨_, congrArg Host.Outcome.next (xbCycle_empty he.held he.stalled henter he.burst he.held he.waiting), emit_keeps _ (Keeps.refl _ s), rfl⟩

/-- A request that no target takes is recorded and answered with an error. -/
theorem xb_undecoded (he : XbEmpty s target) (hd : xbDecodes s target a = false) :
    Runs (.xbArbitration target [a]) s [.page .xb] fun t => bit (preg t .xb 0x10) 2 = true ∧ Out.xbError a.master a.addr ∈ t.out := by
  have hk : Keeps [.page .xb] s (raiseErr s .xb 2 a.addr.toNat) := raiseErr_keeps _ _ _ (by simp [classOf]) (Keeps.refl _ s)
  have hxb : (raiseErr s .xb 2 a.addr.toNat).xb = s.xb := hk .xb (by decide)
  have henter : [a].foldl (xbArrive target) s = emit (raiseErr s .xb 2 a.addr.toNat) (.xbError a.master a.addr) := by
    rw [List.foldl_cons, List.foldl_nil]
    unfold xbArrive
    rw [if_pos hd]
  refine ⟨_, congrArg Host.Outcome.next (xbCycle_empty he.held he.stalled henter ?_ ?_ ?_), emit_keeps _ hk, ?_, ?_⟩
  · exact (congrArg (fun x : Matrix => x.burst.get target) hxb).trans he.burst
  · exact (congrArg Matrix.held hxb).trans he.held
  · exact (congrArg (fun x : Matrix => x.waiting.get target) hxb).trans he.waiting
  · exact raiseErr_bit _ _ _ (by omega)
  · exact List.mem_append_right _ List.mem_cons_self

/-- Of two waiting requests the one of the higher priority wins, though the other came first. -/
theorem xb_priority {a b : XbWait} (hh : s.xb.held = []) (hs : s.xb.stalled = []) (hw : s.xb.waiting.get target = [a, b])
    (hburst : s.xb.burst.get target = 0) (ha : xbBlocked s target a.req = false) (hb : xbBlocked s target b.req = false)
    (hp : prioOf s target a.req.master < prioOf s target b.req.master) :
    Runs (.xbArbitration target []) s [.xb] fun t =>
      t.xb.waiting.get target = [{ a with waited := a.waited + 1 }] ∧ t.xb.ptr.get target = BitVec.ofNat 6 b.req.master.val := by
  refine ⟨_, congrArg Host.Outcome.next (xbCycle_wins hh hs rfl hburst (xbWinner_second hw ha hb hp)), xbCycle_keeps' _ _ (Keeps.refl _ s), ?_,
    ptr_xbWon 1 _⟩
  rw [waiting_xbAged, waiting_xbWon, List.foldl_nil, hw]
  rfl

theorem xb_starves {i : Nat} {w : XbWait} (hw : (s.xb.waiting.get target)[i]? = some w) (hl : (preg s .xb 0x160).toNat < w.waited) :
    Runs (.xbStarve target i) s [.page .xb] fun t => bit (preg t .xb 0x10) 1 = true := by
  have hexec : execXbStarve target i s = .next (raiseErr s .xb 1 w.req.addr.toNat) := by
    unfold execXbStarve
    rw [hw]
    exact congrArg Host.Outcome.next (if_pos hl)
  exact ⟨_, hexec, raiseErr_keeps _ _ _ (by simp [classOf]) (Keeps.refl _ s), raiseErr_bit _ _ _ (by omega)⟩

theorem xb_holdTimeout {i : Nat} {h : Fin 26 × XbWait} (hh : s.xb.held[i]? = some h) (hl : (preg s .xb 0x15C).toNat < h.2.waited) :
    Runs (.holdTimeout i) s [.page .xb] fun t => bit (preg t .xb 0x10) 0 = true := by
  have hexec : execHoldTimeout i s = .next (raiseErr s .xb 0 h.2.req.addr.toNat) := by
    unfold execHoldTimeout
    rw [hh]
    exact congrArg Host.Outcome.next (if_pos hl)
  exact ⟨_, hexec, raiseErr_keeps _ _ _ (by simp [classOf]) (Keeps.refl _ s), raiseErr_bit _ _ _ (by omega)⟩

end

end

/-- Settles O26. -/
theorem movementControl : Obligations.MovementControl := by
  unfold Obligations.MovementControl
  refine ⟨?single, fun s cl v => mvEn_on v, fun s cl v => mvEn_off v, fun s mb v => mailboxEn_on, fun s mb v => mailboxEn_off,
    fun s mb v => winReset_done, ?enters, fun s target a b hh hs hw hb ha hbb hp => xb_priority hh hs hw hb ha hbb hp, ?undecoded,
    fun s target i w => xb_starves, fun s i h => xb_holdTimeout, fun s cl v => abortAll_ends v, ?stalls, ?escapes, ?fenced⟩
  case single =>
    intro s cl v q m pa hs h0 hq hrest he hidle hk hpa hlt hal hp
    exact abortAll_single hs h0 hq hrest he hidle hk hpa hlt hal hp
  case enters =>
    intro s target a hh hs hw hb hd hf hbl hfull hcls
    exact xb_enters ⟨hh, hs, hw, hb⟩ hd hf hbl hfull hcls
  case undecoded =>
    intro s target a hh hs hw hb hd
    exact xb_undecoded ⟨hh, hs, hw, hb⟩ hd
  case stalls =>
    intro s target a hh hs hw hb hd hf hbl hfull hk
    exact xb_stalls ⟨hh, hs, hw, hb⟩ hd hf hbl hfull hk
  case escapes =>
    intro s target a hh hs hw hb hd hf hbl hfull hk
    exact xb_escapes ⟨hh, hs, hw, hb⟩ hd hf hbl hfull hk
  case fenced =>
    intro s target a hh hs hw hb hd hf
    exact xb_fenced ⟨hh, hs, hw, hb⟩ hd hf

end Sys2Proof
end

section
/-! PROOFS. The dispatch of a timetable entry: the place it takes, and what its action finds (02 R49 to R64). -/

namespace Sys2Proof

open Sys2Proof.Machine

section
variable {s t : State} {id : Fin 256} {p : Pick}

/-! ## The place -/

/-- The dispatcher past an entry, with a place of the tick taken. -/
def placedTt (s : State) (id : Fin 256) (p : Pick) : Dispatcher :=
  let t := (s.core id).tt
  let t1 : Dispatcher := if p.carried then { t with carried := t.carried.drop 1 } else { t with next := BitVec.ofNat 10 (p.idx + 1) }
  { t1 with lastPhase := s.tide.phase, places := if t.lastPhase = s.tide.phase then t.places + 1 else 1 }

theorem placedTt_fresh (h : p.carried = false) :
    placedTt s id p = { (s.core id).tt with next := BitVec.ofNat 10 (p.idx + 1), lastPhase := s.tide.phase
                                            places := if (s.core id).tt.lastPhase = s.tide.phase then (s.core id).tt.places + 1 else 1 } := by
  unfold placedTt
  rw [h]
  rfl

theorem passEntry_core : (passEntry s id p).core id =
    { s.core id with tt := if p.carried then { (s.core id).tt with carried := (s.core id).tt.carried.drop 1 }
                           else { (s.core id).tt with next := BitVec.ofNat 10 (p.idx + 1) } } := setTt_core_same _ _ _

theorem passEntry_core_other {j : Fin 256} (h : j ≠ id) : (passEntry s id p).core j = s.core j := setTt_core_other _ _ h

theorem passEntry_keeps' : Keeps [.cores] s (passEntry s id p) := passEntry_keeps _ _ (by decide) (Keeps.refl _ s)

theorem takePlace_core (s : State) (id : Fin 256) (p : Pick) : (takePlace s id p).core id = { s.core id with tt := placedTt s id p } := by
  unfold takePlace
  extract_lets s1 t used s2 s3 s4
  have h2 : s2.core id = { s.core id with tt := placedTt s id p } := by
    rw [show s2.core id = _ from setTt_core_same _ _ _, show s1.core id = _ from passEntry_core]
    unfold placedTt
    simp only [used, t, show s1.core id = _ from passEntry_core]
    cases p.carried <;> rfl
  have h3 : s3.core id = s2.core id := when_core (setTtReg_core _ _ _ _ _)
  have h4 : s4.core id = s3.core id := when_core (setTtReg_core _ _ _ _ _)
  rw [when_core (setTtReg_core _ _ _ _ _), h4, h3, h2]

theorem takePlace_core_other {j : Fin 256} (h : j ≠ id) : (takePlace s id p).core j = s.core j := by
  unfold takePlace
  extract_lets s1 t used s2 s3 s4
  have h2 : s2.core j = s.core j := (setTt_core_other _ _ h).trans (passEntry_core_other h)
  have h3 : s3.core j = s2.core j := when_core (setTtReg_core _ _ _ _ _)
  have h4 : s4.core j = s3.core j := when_core (setTtReg_core _ _ _ _ _)
  rw [when_core (setTtReg_core _ _ _ _ _), h4, h3, h2]

theorem takePlace_keeps' (s : State) (id : Fin 256) (p : Pick) : Keeps [.tt, .cores] s (takePlace s id p) :=
  takePlace_keeps _ _ (by decide) (Keeps.refl _ s)

theorem ttOff_range (b : Bool) {i : Nat} (h : i < 512) : ttOff b i + 4 < 0x4000 := by
  unfold ttOff
  cases b <;> simp <;> omega

/-- What a timetable window holds after a place is taken, but for the late counter, ORDER and the entry's VALID bit. -/
theorem takePlace_ttReg {o : Nat} (h1 : o ≠ 0x8018) (h2 : o ≠ 0x8014) (h3 : o ≠ ttOff p.bank p.idx + 4) :
    ttReg (takePlace s id p) id o = ttReg s id o := by
  unfold takePlace when
  split_ifs <;> simp [h1, h2, h3, passEntry]

theorem takePlace_late (hi : p.idx < 512) (h : p.late = true) : ttReg (takePlace s id p) id 0x8018 = satAdd (ttReg s id 0x8018) 1 := by
  have hoff := ttOff_range p.bank hi
  have hne : (0x8018 : Nat) ≠ ttOff p.bank p.idx + 4 := by omega
  unfold takePlace when
  split_ifs <;> simp [hne, passEntry]

/-- An entry for one step loses VALID. -/
theorem takePlace_once (h : fld p.e 36 2 = 2) : bit (ttReg (takePlace s id p) id (ttOff p.bank p.idx + 4)) 6 = false := by
  have hbit : ∀ x : W32, bit (x &&& ~~~0x40#32) 6 = false := fun x => by
    rw [bit_and]
    have hmask : bit (~~~0x40#32) 6 = false := by decide
    rw [hmask, Bool.and_false]
  unfold takePlace
  rw [show decide (fld p.e 36 2 = 2) = true from decide_eq_true h, when_true, ttReg_setTtReg, if_pos rfl]
  exact hbit _

/-! ## Dispatch -/

/-- An entry that goes now, named by its index and its action. -/
structure Dispatches (s : State) (id : Fin 256) (idx : Fin 512) (act : Nat) (p : Pick) : Prop where
  next : nextEntry s id = some p
  idx_eq : p.idx = idx.val
  go : mayGo s id p = true
  act_eq : eAct p.e = act

theorem Dispatches.small {idx : Fin 512} {act : Nat} (h : Dispatches s id idx act p) : p.idx < 512 := by
  rw [h.idx_eq]
  exact idx.isLt

theorem Dispatches.off {idx : Fin 512} {act o : Nat} (h : Dispatches s id idx act p) (ho : 0x4000 ≤ o) : o ≠ ttOff p.bank p.idx + 4 := by
  have hoff := ttOff_range p.bank h.small
  omega

theorem Dispatches.eq {idx : Fin 512} {act : Nat} (h : Dispatches s id idx act p) (start : Bool) (g : State → BitVec 128 → State) :
    dispatch s id idx act start g = if ttReaches (takePlace s id p) id start then g (takePlace s id p) p.e else takePlace s id p := by
  unfold dispatch
  rw [h.next]
  exact if_neg (by simp [h.idx_eq, h.act_eq, h.go])

theorem ttReaches_placed (start : Bool) : ttReaches (takePlace s id p) id start = ttReaches s id start := by
  unfold ttReaches
  rw [takePlace_core]

/-- An entry dispatched to a core in RUN does its action. -/
theorem Dispatches.acts {idx : Fin 512} {act : Nat} (h : Dispatches s id idx act p) (hst : (s.core id).st = .run) (start : Bool)
    (g : State → BitVec 128 → State) : dispatch s id idx act start g = g (takePlace s id p) p.e := by
  have hreach : ttReaches s id start = true := by
    unfold ttReaches
    rw [hst]
  rw [h.eq, ttReaches_placed, hreach, if_pos rfl]

theorem takePlace_st : ((takePlace s id p).core id).st = (s.core id).st := by rw [takePlace_core]

theorem takePlace_waits : ((takePlace s id p).core id).waits = (s.core id).waits := by rw [takePlace_core]

/-- Taking a place moves no core to another partition. -/
theorem takePlace_part (k : Fin 256) : partOf (takePlace s id p) k = partOf s k := by
  have hregs : partOfCluster (takePlace s id p) (clusterOf k).val = partOfCluster s (clusterOf k).val := by
    unfold partOfCluster
    rw [(takePlace_keeps' s id p).preg64 (p := .sd) (by decide) (by omega) (by simp) (by simp)]
  unfold partOf
  rw [hregs]
  by_cases h : k = id
  · rw [h, takePlace_core]
  · rw [takePlace_core_other h]

end

end Sys2Proof
end

section
/-! PROOFS. What the actions of the timetable do at a core in RUN (02 R51 to R55). -/

namespace Sys2Proof

open Sys2Proof.Machine

section
variable {s t : State} {id : Fin 256} {p : Pick} {idx : Fin 512}

theorem placedTt_ignored : (placedTt s id p).ignored = (s.core id).tt.ignored := by
  unfold placedTt
  cases p.carried <;> rfl

theorem placedTt_sendQ : (placedTt s id p).sendQ = (s.core id).tt.sendQ := by
  unfold placedTt
  cases p.carried <;> rfl

theorem when_fc {b : Bool} {g : State → State} {s : State} (h : (g s).fc = s.fc) : (when b g s).fc = s.fc := by
  cases b
  · rfl
  · exact h

theorem setTtReg_fc (s : State) (id : Fin 256) (o : Nat) (v : W32) : (setTtReg s id o v).fc = s.fc := rfl

theorem setTt_fc (s : State) (id : Fin 256) (x : Dispatcher) : (setTt s id x).fc = s.fc := rfl

theorem takePlace_fc (s : State) (id : Fin 256) (p : Pick) : (takePlace s id p).fc = s.fc := by
  unfold takePlace
  extract_lets s1 t used s2 s3 s4
  have h1 : s1.fc = s.fc := setTt_fc _ _ _
  have h2 : s2.fc = s.fc := (setTt_fc _ _ _).trans h1
  have h3 : s3.fc = s.fc := (when_fc (setTtReg_fc _ _ _ _)).trans h2
  exact (when_fc (setTtReg_fc _ _ _ _)).trans ((when_fc (setTtReg_fc _ _ _ _)).trans h3)

theorem takePlace_stopped : stopped (takePlace s id p) = stopped s := (takePlace_keeps' s id p).stopped (by decide) (by decide)

/-! ## NOP, EVENT, START -/

theorem ttNop_goes (h : Dispatches s id idx 0x00 p) (hc : p.carried = false) :
    Runs (.ttNop id idx) s [.tt, .cores] fun t =>
      (t.core id).tt = { (s.core id).tt with
          next := BitVec.ofNat 10 (p.idx + 1), lastPhase := s.tide.phase,
          places := (if (s.core id).tt.lastPhase = s.tide.phase then (s.core id).tt.places + 1 else 1) } ∧
      (p.late = true → ttReg t id 0x8018 = satAdd (ttReg s id 0x8018) 1) ∧
      (fld p.e 36 2 = 2 → bit (ttReg t id (ttOff p.bank p.idx + 4)) 6 = false) := by
  have hexec : dispatch s id idx 0x00 false (fun t _ => t) = takePlace s id p := by
    rw [h.eq]
    split_ifs <;> rfl
  refine ⟨_, congrArg Host.Outcome.next hexec, takePlace_keeps' s id p, ?_, takePlace_late h.small, takePlace_once⟩
  rw [takePlace_core, ← placedTt_fresh hc]

theorem ttEvent_goes (h : Dispatches s id idx 0x01 p) (hst : (s.core id).st = .run) (hw : (s.core id).waits = []) (hc : p.carried = false) :
    Runs (.ttEvent id idx) s [.page .sd, .tt, .cores, .sd] fun t =>
      (t.core id).events = (s.core id).events ||| BitVec.ofNat 32 (2 ^ (eArg p.e % 32)) ∧ (t.core id).st = .run ∧
      (t.core id).tt.next = BitVec.ofNat 10 (p.idx + 1) := by
  refine ⟨_, congrArg Host.Outcome.next (h.acts hst false _), setEvent_keeps _ _ (by decide) ((takePlace_keeps' s id p).mono (by decide)), ?_⟩
  beta_reduce
  rw [setEvent_core _ (takePlace_waits.trans hw), takePlace_core, placedTt_fresh hc]
  exact ⟨congrArg (fun n => (s.core id).events ||| BitVec.ofNat 32 (2 ^ n)) (BitVec.toNat_ofNat _ _), hst, rfl⟩

/-- START of a core in PARKED. -/
theorem ttStart_parked (h : Dispatches s id idx 0x02 p) (hgo : stopped s = false) (hst : (s.core id).st = .parked) :
    Runs (.ttStart id idx) s [.page .sd, .tt, .cores, .sd] fun t =>
      (t.core id).st = .run ∧ (t.core id).pc = BitVec.ofNat 16 (eArg p.e / 16 * 16) ∧ (t.core id).fetchQ = [] ∧ (t.core id).loaded = true := by
  have hst' : ((takePlace s id p).core id).st = .parked := takePlace_st.trans hst
  have hreach : ttReaches (takePlace s id p) id true = true := by
    unfold ttReaches
    rw [hst']
  have hact : ttStartAct (takePlace s id p) id (BitVec.ofNat 16 (eArg p.e / 16 * 16)) =
      startCore (takePlace s id p) id (BitVec.ofNat 16 (eArg p.e / 16 * 16)) := by
    unfold ttStartAct
    rw [hst']
  have hexec : dispatch s id idx 0x02 true (fun t e => ttStartAct t id (BitVec.ofNat 16 (eArg e / 16 * 16))) =
      startCore (takePlace s id p) id (BitVec.ofNat 16 (eArg p.e / 16 * 16)) := by
    rw [h.eq, hreach, if_pos rfl, hact]
  refine ⟨_, congrArg Host.Outcome.next hexec, startCore_keeps _ _ (by decide) ((takePlace_keeps' s id p).mono (by decide)), ?_⟩
  beta_reduce
  rw [startCore_parked _ hst' (takePlace_stopped.trans hgo), setCore_core_same]
  exact ⟨rfl, rfl, rfl, loadFares_loaded _ _ _⟩

/-- START of a core in RUN is ignored, and counted. -/
theorem ttStart_running (h : Dispatches s id idx 0x02 p) (hst : (s.core id).st = .run) :
    Runs (.ttStart id idx) s [.page .sd, .tt, .cores, .sd] fun t =>
      (t.core id).st = .run ∧ (t.core id).pc = (s.core id).pc ∧ (t.core id).tt.ignored = (s.core id).tt.ignored + 1 := by
  set T := takePlace s id p with hT
  have hact : ttStartAct T id (BitVec.ofNat 16 (eArg p.e / 16 * 16)) = setTt T id { (T.core id).tt with ignored := (T.core id).tt.ignored + 1 } := by
    unfold ttStartAct
    rw [takePlace_st.trans hst]
  have hk : Keeps [.tt, .cores] s (setTt T id { (T.core id).tt with ignored := (T.core id).tt.ignored + 1 }) :=
    setTt_keeps _ _ (by decide) (takePlace_keeps' s id p)
  refine ⟨_, congrArg Host.Outcome.next ((h.acts hst true _).trans hact), hk.mono (by decide), ?_⟩
  beta_reduce
  rw [setTt_core_same, hT, takePlace_core]
  exact ⟨hst, rfl, congrArg (· + 1) placedTt_ignored⟩

/-! ## Deadlines -/

theorem setCore_quiet_fc {c : Core} (hst : (s.core id).st = c.st) (hcause : (s.core id).cause = c.cause) (htarget : (s.core id).target = c.target) :
    (s.setCore id c).fc = s.fc := by
  rw [setCore_quiet hst hcause htarget]
  rfl

theorem setEvent_fc (e : BitVec 5) (hw : (s.core id).waits = []) : (setEvent s id e).fc = s.fc := by
  unfold setEvent
  rw [wakeCore_idle (by rw [setCore_core_same]; exact hw)]
  exact setCore_quiet_fc rfl rfl rfl

/-- A report that is on its way to the collector changes no part. -/
theorem reportDeadline_keeps' (s : State) (id : Fin 256) : Keeps [] s (reportDeadline s id) := fun q _ => by
  cases q with
  | page c => exact fun _ _ _ _ _ _ => rfl
  | tt => exact fun _ _ _ => rfl
  | dm => exact ⟨rfl, rfl⟩
  | sd => exact ⟨rfl, rfl⟩
  | _ => rfl

theorem reportDeadline_coming (s : State) (id : Fin 256) :
    (reportDeadline s id).fc.coming = s.fc.coming ++ [mkMsg 0x14 id.val Config.deadlineSource.toNat 1 0 0 0 false] := rfl

/-- A deadline missed by a core without waits: TT_MISS, the report, and the event (02 R52). -/
theorem deadlineMiss_after (e : BitVec 128) (hw : (s.core id).waits = []) :
    Keeps [.page .sd, .tt, .cores, .sd] s (deadlineMiss s id e) ∧
      ttReg (deadlineMiss s id e) id 0x801C = satAdd (ttReg s id 0x801C) 1 ∧
      (deadlineMiss s id e).fc.coming = s.fc.coming ++ [mkMsg 0x14 id.val Config.deadlineSource.toNat 1 0 0 0 false] ∧
      ((deadlineMiss s id e).core id).events = (s.core id).events ||| BitVec.ofNat 32 (2 ^ (eArg e / 2 ^ 16 % 32)) := by
  unfold deadlineMiss
  set m := setTtReg s id 0x801C (satAdd (ttReg s id 0x801C) 1) with hm
  have hkm : Keeps [.tt] s m := setTtReg_keeps _ _ _ (by decide) (Keeps.refl _ s)
  have hcm : ttReg m id 0x801C = satAdd (ttReg s id 0x801C) 1 := by rw [hm, ttReg_setTtReg, if_pos rfl]
  have hfm : m.fc = s.fc := setTtReg_fc _ _ _ _
  have hkr := reportDeadline_keeps' m id
  have hcr := reportDeadline_coming m id
  rw [hfm] at hcr
  clear_value m
  generalize reportDeadline m id = u at hkr hcr ⊢
  have hku : Keeps [.tt] s u := hkm.trans (hkr.mono (by decide))
  have hcore : u.core id = s.core id := hku.core (by decide) id
  have hwu : (u.core id).waits = [] := (congrArg Core.waits hcore).trans hw
  have hcount : ttReg u id 0x801C = satAdd (ttReg s id 0x801C) 1 := (hkr.ttReg (by decide) id (by omega)).trans hcm
  have hev : ∀ e : BitVec 5, Keeps [.page .sd, .cores, .sd] u (setEvent u id e) := setEvent_keeps' u id
  refine ⟨(hku.mono (by decide)).trans ((hev _).mono (by decide)), ((hev _).ttReg (by decide) id (by omega)).trans hcount,
    (congrArg Collector.coming (setEvent_fc _ hwu)).trans hcr, ?_⟩
  rw [setEvent_core _ hwu, hcore]
  exact congrArg (fun n => (s.core id).events ||| BitVec.ofNat 32 (2 ^ n)) (BitVec.toNat_ofNat _ _)

/-- What a missed deadline of a timetable entry comes to. -/
theorem missed_after (h : Dispatches s id idx act p) (hw : (s.core id).waits = []) (t : State) (ht : t = deadlineMiss (takePlace s id p) id p.e) :
    Keeps [.page .sd, .tt, .cores, .sd] s t ∧ ttReg t id 0x801C = satAdd (ttReg s id 0x801C) 1 ∧
      t.fc.coming = s.fc.coming ++ [mkMsg 0x14 id.val Config.deadlineSource.toNat 1 0 0 0 false] ∧
      (t.core id).events = (s.core id).events ||| BitVec.ofNat 32 (2 ^ (eArg p.e / 2 ^ 16 % 32)) := by
  obtain ⟨hk, hmiss, hcoming, hevents⟩ := deadlineMiss_after (s := takePlace s id p) (id := id) p.e (takePlace_waits.trans hw)
  subst ht
  refine ⟨((takePlace_keeps' s id p).mono (by decide)).trans hk, ?_, ?_, ?_⟩
  · rw [hmiss, takePlace_ttReg (by omega) (by omega) (h.off (by omega))]
  · rw [hcoming, takePlace_fc]
  · rw [hevents, takePlace_core]

theorem takePlace_tide : (takePlace s id p).tide = s.tide := takePlace_keeps' s id p .tide (by decide)

theorem fullBefore_placed : fullBefore (takePlace s id p) id = fullBefore s id := by
  unfold fullBefore tickNow
  rw [takePlace_core, takePlace_tide]

theorem markAsOf_placed : markAsOf (takePlace s id p) id = markAsOf s id := by
  unfold markAsOf tickNow
  rw [takePlace_core, takePlace_tide]

theorem ttDeadlineBerth_misses (h : Dispatches s id idx 0x05 p) (hst : (s.core id).st = .run)
    (hm : BitVec.ofNat 16 (eArg p.e) &&& ~~~(fullBefore s id) ≠ 0) (hw : (s.core id).waits = []) :
    Runs (.ttDeadlineBerth id idx) s [.page .sd, .tt, .cores, .sd] fun t =>
      ttReg t id 0x801C = satAdd (ttReg s id 0x801C) 1 ∧
      t.fc.coming = s.fc.coming ++ [mkMsg 0x14 id.val Config.deadlineSource.toNat 1 0 0 0 false] ∧
      (t.core id).events = (s.core id).events ||| BitVec.ofNat 32 (2 ^ (eArg p.e / 2 ^ 16 % 32)) := by
  refine ⟨_, congrArg Host.Outcome.next (h.acts hst false _), missed_after h hw _ ?_⟩
  rw [fullBefore_placed, if_neg hm]

theorem ttDeadlineMark_misses (h : Dispatches s id idx 0x06 p) (hst : (s.core id).st = .run) (hm : (markAsOf s id).toNat < eArg p.e % 2 ^ 16)
    (hw : (s.core id).waits = []) :
    Runs (.ttDeadlineMark id idx) s [.page .sd, .tt, .cores, .sd] fun t =>
      ttReg t id 0x801C = satAdd (ttReg s id 0x801C) 1 ∧
      t.fc.coming = s.fc.coming ++ [mkMsg 0x14 id.val Config.deadlineSource.toNat 1 0 0 0 false] ∧
      (t.core id).events = (s.core id).events ||| BitVec.ofNat 32 (2 ^ (eArg p.e / 2 ^ 16 % 32)) := by
  refine ⟨_, congrArg Host.Outcome.next (h.acts hst false _), missed_after h hw _ ?_⟩
  rw [markAsOf_placed, if_pos hm]

theorem ttDeadlineMark_met (h : Dispatches s id idx 0x06 p) (hst : (s.core id).st = .run) (hm : eArg p.e % 2 ^ 16 ≤ (markAsOf s id).toNat) :
    Runs (.ttDeadlineMark id idx) s [.page .sd, .tt, .cores, .sd] fun t =>
      ttReg t id 0x801C = ttReg s id 0x801C ∧ (t.core id).events = (s.core id).events := by
  have hexec : execTtDeadlineMark id idx s = .next (takePlace s id p) := by
    refine congrArg Host.Outcome.next ((h.acts hst false _).trans ?_)
    rw [markAsOf_placed, if_neg (by omega)]
  refine ⟨_, hexec, (takePlace_keeps' s id p).mono (by decide), takePlace_ttReg (by omega) (by omega) (h.off (by omega)), ?_⟩
  rw [takePlace_core]

/-- The berths that were FULL before this tick, one by one. -/
theorem bit_fullBefore (b : Fin 16) : bit (fullBefore s id) b.val =
    decide (((s.core id).berths.get b).st = .full ∧ (tickNow s = none ∨ ((s.core id).berths.get b).tick ≠ tickNow s)) := by
  have h := bit_foldl_setBit (n := 16)
    (fun b => decide (((s.core id).berths.get b).st = .full ∧ (tickNow s = none ∨ ((s.core id).berths.get b).tick ≠ tickNow s)))
    (List.finRange 16) 0 b.isLt
  have hrange : List.range 16 = (List.finRange 16).map Fin.val := by decide
  have hfin : ∀ b : Fin 16, fin 16 b.val = b := fun b => Fin.ext (Nat.mod_eq_of_lt b.isLt)
  rw [any_finRange] at h
  unfold fullBefore
  rw [hrange, List.foldl_map]
  simp only [hfin]
  simpa [bit] using h

/-- A berth that became FULL on this very tick was not full before it (02 R72). -/
theorem fullBefore_late {b : Fin 16} (hm : s.tide.mode ≠ .disabled) (ht : ((s.core id).berths.get b).tick = some (s.tide.step, s.tide.phase)) :
    bit (fullBefore s id) b.val = false := by
  have hnow : tickNow s = some (s.tide.step, s.tide.phase) := if_neg hm
  rw [bit_fullBefore, hnow, ht]
  simp

theorem ttDeadlineBerth_late {b : Fin 16} (h : Dispatches s id idx 0x05 p) (hst : (s.core id).st = .run) (hw : (s.core id).waits = [])
    (hb : bit (BitVec.ofNat 16 (eArg p.e)) b.val = true) (hm : s.tide.mode ≠ .disabled)
    (ht : ((s.core id).berths.get b).tick = some (s.tide.step, s.tide.phase)) :
    Runs (.ttDeadlineBerth id idx) s [.page .sd, .tt, .cores, .sd] fun t => ttReg t id 0x801C = satAdd (ttReg s id 0x801C) 1 := by
  have hmask : BitVec.ofNat 16 (eArg p.e) &&& ~~~(fullBefore s id) ≠ 0 := fun e => by
    have hbit := congrArg (fun x : W16 => bit x b.val) e
    have hlate := fullBefore_late (id := id) hm ht
    unfold bit at hb hlate hbit
    have hb16 := b.isLt
    simp only [BitVec.getLsbD_and, BitVec.getLsbD_not, hb, hlate] at hbit
    simp at hbit
  exact (ttDeadlineBerth_misses h hst hmask hw).imp fun t ⟨hmiss, _⟩ => hmiss

/-! ## LOAD, QUIET, TRAP -/

theorem ttLoad_goes (h : Dispatches s id idx 0x08 p) (hst : (s.core id).st = .run) :
    Runs (.ttLoad id idx) s [.page .cl, .tt, .cores] fun t => (t.core id).tt.hint = BitVec.ofNat 4 (fld p.e 32 4) := by
  set T := takePlace s id p with hT
  set u := setTt T id { (T.core id).tt with hint := BitVec.ofNat 4 (fld p.e 32 4) } with hu
  have hku : Keeps [.tt, .cores] s u := setTt_keeps _ _ (by decide) (takePlace_keeps' s id p)
  have hkl : Keeps [.page .cl] u (heavyLoad u (clusterOf id) (fld p.e 32 4)) := heavyLoad_keeps _ _ (by decide) (Keeps.refl _ u)
  refine ⟨_, congrArg Host.Outcome.next (h.acts hst false _), (hku.mono (by decide)).trans (hkl.mono (by decide)), ?_⟩
  have hcore : (ttLoadAct T id p.e).core id = u.core id := hkl.core (by decide) id
  beta_reduce
  rw [hcore, hu, setTt_core_same]

theorem ttQuiet_goes (q : Bool) {act : Nat} (h : Dispatches s id idx act p) (hst : (s.core id).st = .run) :
    Keeps [.tt, .cores] s (dispatch s id idx act false fun t _ => setTt t id { (t.core id).tt with quiet := q }) ∧
      ((dispatch s id idx act false fun t _ => setTt t id { (t.core id).tt with quiet := q }).core id).tt.quiet = q := by
  rw [h.acts hst]
  refine ⟨setTt_keeps _ _ (by decide) (takePlace_keeps' s id p), ?_⟩
  rw [setTt_core_same]

theorem ttTrap_goes (h : Dispatches s id idx 0x0B p) (hst : (s.core id).st = .run) :
    Runs (.ttTrap id idx) s [.page .sd, .page .gc, .tt, .cores, .locks, .sd] fun t =>
      (t.core id).st = .halt ∧ (t.core id).exc = BitVec.ofNat 8 (0x80 + eArg p.e % 128) ∧ (t.core id).excPc = (s.core id).lastPc ∧
      (t.core id).waits = [] := by
  set T := takePlace s id p with hT
  have hpc : (T.core id).lastPc = (s.core id).lastPc := by rw [hT, takePlace_core]
  have hact : ttTrapAct T id p.e = haltCore T id (BitVec.ofNat 8 (0x80 + eArg p.e % 128)) (s.core id).lastPc := by
    unfold ttTrapAct
    rw [if_pos (.inl (takePlace_st.trans hst)), hpc]
  obtain ⟨hhalt, hexc, hat, hwaits, -⟩ := haltCore_core T id (BitVec.ofNat 8 (0x80 + eArg p.e % 128)) (s.core id).lastPc 0
  exact ⟨_, congrArg Host.Outcome.next ((h.acts hst false _).trans hact),
    haltCore_keeps _ _ _ _ (by decide) ((takePlace_keeps' s id p).mono (by decide)), hhalt, hexc, hat, hwaits⟩

/-- An entry with an unknown action code is passed, and BADACT is recorded. -/
theorem ttBadact_passes (hn : nextEntry s id = some p) (hi : p.idx = idx.val) (ha : actKnown (eAct p.e) = false) :
    Runs (.ttBadact id idx) s [.tt, .cores] fun t =>
      ttReg t id 0x8014 = ttReg s id 0x8014 ||| 8 ∧ (t.core id).tt.places = (s.core id).tt.places := by
  have hexec : execTtBadact id idx s = .next (setTtReg (passEntry s id p) id 0x8014 (ttReg (passEntry s id p) id 0x8014 ||| 8)) := by
    unfold execTtBadact
    rw [hn]
    exact congrArg Host.Outcome.next (if_neg (by simp [hi, ha]))
  refine ⟨_, hexec, setTtReg_keeps _ _ _ (by decide) (passEntry_keeps'.mono (by decide)), ?_, ?_⟩
  · rw [ttReg_setTtReg, if_pos rfl]
    rfl
  · rw [setTtReg_core, passEntry_core]
    cases p.carried <;> rfl

end

end Sys2Proof
end

section
/-! PROOFS. Sending (04 R115 to R121): what a SEND is checked against, its fare, and the message it puts into the mesh; the SEND of a timetable
(02 R52). -/

namespace Sys2Proof

open Sys2Proof.Machine

section
variable {s t : State} {id : Fin 256} {p : Pick} {idx : Fin 512} {d : MsgDesc}

/-! ## What a SEND is checked against -/

/-- The partitions, the channels of a core, the fleet's routes and the ports are the same. -/
structure SendsAlike (s t : State) (id : Fin 256) : Prop where
  part : ∀ k, partOf t k = partOf s k
  cfg : ∀ ch, chanCfg t id ch = chanCfg s id ch
  fleet : fleetId t = fleetId s
  route : ∀ f, f < 256 → routeOf t f = routeOf s f
  port : ∀ n, t.port n = s.port n
  chans : (t.core id).chans = (s.core id).chans

theorem SendsAlike.of_keeps {P : List Part} (h : Keeps P s t) (hdev : Part.page .dev ∉ P) (hxl : Part.page .xl ∉ P) (hp : Part.ports ∉ P)
    (part : ∀ k, partOf t k = partOf s k) (cfg : ∀ ch, chanCfg t id ch = chanCfg s id ch) (chans : (t.core id).chans = (s.core id).chans) :
    SendsAlike s t id where
  part := part
  cfg := cfg
  fleet := by
    unfold fleetId
    rw [h.preg (p := .dev) hdev (by omega) (by simp) (by simp)]
  route := fun f hf => by
    unfold routeOf
    rw [h.preg (p := .xl 0) hxl (by omega) (by simp) (by simp)]
  port := h.port hp
  chans := chans

theorem SendsAlike.check (h : SendsAlike s t id) (d : MsgDesc) : sendCheck t id d = sendCheck s id d := by
  have hlt : (chanDest (chanCfg s id d.chan)).toNat / 256 < 256 := by
    have := (chanDest (chanCfg s id d.chan)).isLt
    omega
  unfold sendCheck
  simp only [h.cfg, h.fleet, h.part, h.route _ hlt]

theorem SendsAlike.can (h : SendsAlike s t id) (d : MsgDesc) : canSend t id d = canSend s id d := by
  have hlt : (chanDest (chanCfg s id d.chan)).toNat / 256 < 256 := by
    have := (chanDest (chanCfg s id d.chan)).isLt
    omega
  unfold canSend xlRoom Core.chan
  simp only [h.cfg, h.fleet, h.route _ hlt, h.port, h.chans]

theorem chanCfg_of_keeps {P : List Part} (h : Keeps P s t) (hp : Part.page .gc ∉ P) (id : Fin 256) (ch : BitVec 4) : chanCfg t id ch = chanCfg s id ch :=
  h.preg (p := .gc id) hp (by omega) (by simp) (by simp)

theorem chanCfg_noteUpset (s : State) (id j : Fin 256) (u : Upset) (a : Nat) (ch : BitVec 4) : chanCfg (noteUpset s id u a) j ch = chanCfg s j ch := by
  have hch : ch.toNat < 16 := ch.isLt
  have herr : errReg (0x140 + 8 * ch.toNat) = false := by
    unfold errReg
    simp only [Bool.or_eq_false_iff, beq_eq_false_iff_ne]
    omega
  unfold chanCfg
  exact preg_noteUpset _ _ _ _ (by omega) (fun _ => herr) (by simp)

/-- Neither a place taken nor what the codes found changes what a SEND is checked against. -/
theorem sendsAlike_placed (s : State) (id : Fin 256) (p : Pick) (u : Upset) (a : Nat) : SendsAlike s (noteUpset (takePlace s id p) id u a) id := by
  have hk : Keeps [.page .gc, .tt, .cores] s (noteUpset (takePlace s id p) id u a) :=
    noteUpset_keeps _ _ _ (by decide) ((takePlace_keeps' s id p).mono (by decide))
  refine .of_keeps hk (by decide) (by decide) (by decide) (fun k => ?_) (fun ch => ?_) ?_
  · have hclusters : partOfCluster (noteUpset (takePlace s id p) id u a) (clusterOf k).val = partOfCluster (takePlace s id p) (clusterOf k).val := by
      unfold partOfCluster
      rw [(noteUpset_keeps' _ id u a).preg64 (p := .sd) (by decide) (by omega) (by simp) (by simp)]
    rw [← takePlace_part (s := s) (id := id) (p := p)]
    unfold partOf
    rw [noteUpset_core, hclusters]
  · rw [chanCfg_noteUpset, chanCfg_of_keeps (takePlace_keeps' s id p) (by decide)]
  · rw [noteUpset_core, takePlace_core]

/-! ## The fare and the message -/

/-- A core that stays in its state, with its cause and target, is all that a write of it changes. -/
theorem setCore_keeps_quiet {c : Core} (hst : (s.core id).st = c.st) (hcause : (s.core id).cause = c.cause) (htarget : (s.core id).target = c.target) :
    Keeps [.cores] s (s.setCore id c) := by
  rw [setCore_quiet hst hcause htarget]
  exact setCoreRaw_keeps' _ _ _

theorem chan_setChan (c : Core) (ch : BitVec 4) (x : Chan) : (c.setChan ch x).chan ch = x := Vector.getElem_set_self _

theorem spendFare_core (s : State) (id : Fin 256) (ch : BitVec 4) : (spendFare s id ch).core id =
    (s.core id).setChan ch { (s.core id).chan ch with fares := ((s.core id).chan ch).fares - 1 } := setCore_core_same _ _ _

theorem spendFare_keeps' (s : State) (id : Fin 256) (ch : BitVec 4) : Keeps [.page .sd, .cores, .sd] s (spendFare s id ch) :=
  spendFare_keeps _ _ (by decide) (Keeps.refl _ s)

/-- A message to a core of the same fleet goes into the mesh (04 R115). -/
theorem launch_mesh (h : (chanDest (chanCfg s id d.chan)).toNat / 256 = fleetId s) (placed : Bool) :
    Keeps [.page .gc, .cores, .mesh] s (launch s id d placed) ∧
    (launch s id d placed).core id = (s.core id).setChan d.chan { (s.core id).chan d.chan with
      rot := (if ((s.core id).chan d.chan).rot.toNat + 1 < chanCount (chanCfg s id d.chan) then ((s.core id).chan d.chan).rot + 1 else 0)
      sent := ((s.core id).chan d.chan).sent + 1, status := 0 } ∧
    ∃ m : MeshMsg, (launch s id d placed).mesh = s.mesh ++ [m] ∧ m.tag = d.tag ∧ m.len = d.len ∧
      m.data = readBytes (s.core id).ldm d.src.toNat d.len.toNat ∧ m.chan = d.chan := by
  unfold launch
  extract_lets c cfg dst ch berth rot data s1 s2
  rw [if_pos h]
  have hk1 : Keeps [.cores] s s1 := setCore_keeps_quiet rfl rfl rfl
  have hk2 : Keeps [.page .gc] s1 s2 := cntPreg_keeps _ _ _ (by omega) (by simp [classOf]) (Keeps.refl _ s1)
  have hcore : s2.core id = c.setChan d.chan { ch with rot := rot, sent := ch.sent + 1, status := 0 } :=
    (hk2.core (by decide) id).trans (setCore_core_same _ _ _)
  have hmesh : s2.mesh = s.mesh := (hk2 .mesh (by decide)).trans (hk1 .mesh (by decide))
  have hk : Keeps [.page .gc, .cores, .mesh] s s2 := (hk1.mono (by decide)).trans (hk2.mono (by decide))
  clear_value s2
  exact ⟨put_mesh_keeps _ (by decide) hk, hcore, _, congrArg (· ++ [_]) hmesh, rfl, rfl, rfl, rfl⟩

end

section
variable {s t : State} {id : Fin 256} {p : Pick} {idx : Fin 512} {d : MsgDesc}

/-! ## SEND from a timetable -/

/-- The descriptor of a timetable's SEND passes every check. -/
structure SendPasses (s : State) (id : Fin 256) (a : Nat) (upset : Upset) : Prop where
  aligned : a % 16 = 0
  inside : a + 16 ≤ ldmSize
  clean : upset ≠ .uncorrectable
  checked : sendCheck (noteUpset s id upset a) id (readDesc (s.core id) a) = 0

theorem SendPasses.waits {a : Nat} {upset : Upset} (h : SendPasses s id a upset) (payload : Upset)
    (hc : canSend (noteUpset s id upset a) id (readDesc (s.core id) a) = false) :
    ttSendAct s id a upset payload = setTt (noteUpset s id upset a) id { (s.core id).tt with sendQ := (s.core id).tt.sendQ ++ [readDesc (s.core id) a] } := by
  obtain ⟨h16, hin, hu, h0⟩ := h
  unfold ttSendAct
  simp only [h16, Nat.not_lt.mpr hin, hu, h0, hc, ne_eq, not_true_eq_false, if_false, Bool.false_eq_true, and_false]

theorem SendPasses.goes {a : Nat} {upset payload : Upset} (h : SendPasses s id a upset) (hp : payload ≠ .uncorrectable)
    (hc : canSend (noteUpset s id upset a) id (readDesc (s.core id) a) = true) (hq : (s.core id).tt.sendQ = []) :
    ttSendAct s id a upset payload =
      launch (noteUpset (spendFare (noteUpset s id upset a) id (readDesc (s.core id) a).chan) id payload (readDesc (s.core id) a).src.toNat) id
        (readDesc (s.core id) a) := by
  obtain ⟨h16, hin, hu, h0⟩ := h
  unfold ttSendAct
  simp only [h16, Nat.not_lt.mpr hin, hu, h0, hc, hq, hp, ne_eq, not_true_eq_false, if_false, List.any_nil, and_self, if_true]

theorem readDesc_placed (a : Nat) : readDesc ((takePlace s id p).core id) a = readDesc (s.core id) a := by rw [takePlace_core]; rfl

/-- A timetable's SEND, of a descriptor that passes in the state before it. -/
theorem sendPasses_placed {a : Nat} {upset : Upset} (h16 : a % 16 = 0) (hin : a + 16 ≤ ldmSize) (hu : upset ≠ .uncorrectable)
    (h0 : sendCheck s id (readDesc (s.core id) a) = 0) : SendPasses (takePlace s id p) id a upset :=
  ⟨h16, hin, hu, by rw [readDesc_placed, (sendsAlike_placed s id p upset a).check]; exact h0⟩

theorem ttSend_waits {upset : Upset} (payload : Upset) (h : Dispatches s id idx 0x03 p) (hu : upset ≠ .uncorrectable) (hst : (s.core id).st = .run)
    (h16 : eArg p.e % 2 ^ 20 % 16 = 0) (hin : eArg p.e % 2 ^ 20 + 16 ≤ ldmSize) (h0 : sendCheck s id (readDesc (s.core id) (eArg p.e % 2 ^ 20)) = 0)
    (hc : canSend s id (readDesc (s.core id) (eArg p.e % 2 ^ 20)) = false) :
    Runs (.ttSend id idx upset payload) s [.page .sd, .page .gc, .tt, .cores, .mesh, .locks, .sd, .ports] fun t =>
      (t.core id).tt.sendQ = (s.core id).tt.sendQ ++ [readDesc (s.core id) (eArg p.e % 2 ^ 20)] := by
  have hact := (sendPasses_placed (p := p) h16 hin hu h0).waits payload
    (by rw [readDesc_placed, (sendsAlike_placed s id p upset _).can]; exact hc)
  have hk : Keeps [.page .sd, .page .gc, .tt, .cores, .mesh, .locks, .sd, .ports] s (ttSendAct (takePlace s id p) id (eArg p.e % 2 ^ 20) upset payload) :=
    ttSendAct_keeps _ _ _ _ (by decide) ((takePlace_keeps' s id p).mono (by decide))
  refine ⟨_, congrArg Host.Outcome.next (h.acts hst false _), hk, ?_⟩
  beta_reduce
  rw [hact, setTt_core_same, readDesc_placed, takePlace_core]
  exact congrArg (· ++ [_]) placedTt_sendQ

theorem ttSend_goes {upset payload : Upset} (h : Dispatches s id idx 0x03 p) (hu : upset ≠ .uncorrectable) (hp : payload ≠ .uncorrectable)
    (hst : (s.core id).st = .run) (h16 : eArg p.e % 2 ^ 20 % 16 = 0) (hin : eArg p.e % 2 ^ 20 + 16 ≤ ldmSize)
    (hd : d = readDesc (s.core id) (eArg p.e % 2 ^ 20)) (h0 : sendCheck s id d = 0) (hc : canSend s id d = true) (hq : (s.core id).tt.sendQ = [])
    (hdst : (chanDest (chanCfg s id d.chan)).toNat / 256 = fleetId s) :
    Runs (.ttSend id idx upset payload) s [.page .sd, .page .gc, .tt, .cores, .mesh, .locks, .sd, .ports] fun t =>
      ((t.core id).chan d.chan).fares = ((s.core id).chan d.chan).fares - 1 ∧ ((t.core id).chan d.chan).sent = ((s.core id).chan d.chan).sent + 1 ∧
      t.mesh.length = s.mesh.length + 1 ∧
      (t.mesh.getLast?.map fun m => (m.tag, m.len, m.data)) = some (d.tag, d.len, readBytes (s.core id).ldm d.src.toNat d.len.toNat) := by
  rw [hd] at h0 hc
  have hlike := sendsAlike_placed s id p upset (eArg p.e % 2 ^ 20)
  have hact := (sendPasses_placed (p := p) h16 hin hu h0).goes hp (by rw [readDesc_placed, hlike.can]; exact hc)
    (by rw [takePlace_core]; exact placedTt_sendQ.trans hq)
  rw [readDesc_placed, ← hd] at hact
  have hcore0 : (noteUpset (takePlace s id p) id upset (eArg p.e % 2 ^ 20)).core id = { s.core id with tt := placedTt s id p } := by
    rw [noteUpset_core, takePlace_core]
  have hmesh0 : (noteUpset (takePlace s id p) id upset (eArg p.e % 2 ^ 20)).mesh = s.mesh :=
    (noteUpset_keeps' _ id upset _ .mesh (by decide)).trans (takePlace_keeps' s id p .mesh (by decide))
  have hk : Keeps [.page .sd, .page .gc, .tt, .cores, .mesh, .locks, .sd, .ports] s (ttSendAct (takePlace s id p) id (eArg p.e % 2 ^ 20) upset payload) :=
    ttSendAct_keeps _ _ _ _ (by decide) ((takePlace_keeps' s id p).mono (by decide))
  refine ⟨_, congrArg Host.Outcome.next (h.acts hst false _), hk, ?_⟩
  beta_reduce
  rw [hact]
  generalize noteUpset (takePlace s id p) id upset (eArg p.e % 2 ^ 20) = s0 at hlike hcore0 hmesh0 ⊢
  have hcfg1 : chanCfg (noteUpset (spendFare s0 id d.chan) id payload d.src.toNat) id d.chan = chanCfg s id d.chan := by
    rw [chanCfg_noteUpset, chanCfg_of_keeps (spendFare_keeps' s0 id d.chan) (by decide), hlike.cfg]
  have hfleet1 : fleetId (noteUpset (spendFare s0 id d.chan) id payload d.src.toNat) = fleetId s := by
    have hk1 : Keeps [.page .gc, .page .sd, .cores, .sd] s0 (noteUpset (spendFare s0 id d.chan) id payload d.src.toNat) :=
      noteUpset_keeps _ _ _ (by decide) ((spendFare_keeps' s0 id d.chan).mono (by decide))
    rw [← hlike.fleet]
    unfold fleetId
    rw [hk1.preg (p := .dev) (by decide) (by omega) (by simp) (by simp)]
  have hcore1 : (noteUpset (spendFare s0 id d.chan) id payload d.src.toNat).core id =
      (s0.core id).setChan d.chan { (s0.core id).chan d.chan with fares := ((s0.core id).chan d.chan).fares - 1 } := by
    rw [noteUpset_core, spendFare_core]
  have hmesh1 : (noteUpset (spendFare s0 id d.chan) id payload d.src.toNat).mesh = s.mesh :=
    (noteUpset_keeps' _ id payload _ .mesh (by decide)).trans ((spendFare_keeps' s0 id d.chan .mesh (by decide)).trans hmesh0)
  have hchan0 : (s0.core id).chan d.chan = (s.core id).chan d.chan := (congrArg (Core.chan · d.chan) hcore0 :)
  obtain ⟨-, hcore, m, hmesh, htag, hlen, hdata, -⟩ := launch_mesh (s := noteUpset (spendFare s0 id d.chan) id payload d.src.toNat) (id := id) (d := d)
    (by rw [hcfg1, hfleet1]; exact hdst) false
  have hch := (congrArg (Core.chan · d.chan) hcore).trans (chan_setChan _ _ _)
  beta_reduce at hch
  rw [hcore1, chan_setChan, hchan0] at hch
  refine ⟨by rw [hch], by rw [hch], by rw [hmesh, hmesh1]; simp, ?_⟩
  have hldm : ((s0.core id).setChan d.chan { (s0.core id).chan d.chan with fares := ((s0.core id).chan d.chan).fares - 1 }).ldm = (s.core id).ldm :=
    (congrArg Core.ldm hcore0 :)
  rw [hmesh, List.getLast?_concat, Option.map_some, htag, hlen, hdata, hcore1, hldm]

/-! ## A descriptor with an uncorrectable word -/

/-- A halt adds source 0 to the errors of the core's page. -/
theorem haltCore_stat (s : State) (id : Fin 256) (cause : Byte) (pc : W16) (corr : Nat) :
    preg (haltCore s id cause pc corr) (.gc id) 0x10 = preg s (.gc id) 0x10 ||| one32 0 := by
  have hleave : Keeps [.locks] s (leaveQueues s id) := leaveQueues_keeps _ (by decide) (Keeps.refl _ s)
  unfold haltCore
  extract_lets s1 c s2
  rw [preg_raiseInt _ _ (by omega) (by omega) (by simp), raiseErrX_stat, preg_setCore _ _ _ (by omega) (by simp) (by simp) (by simp),
    hleave.preg (p := .gc id) (by simp [classOf]) (by omega) (by simp) (by simp)]

theorem ttSend_broken {payload : Upset} (h : Dispatches s id idx 0x03 p) (hst : (s.core id).st = .run) (h16 : eArg p.e % 2 ^ 20 % 16 = 0)
    (hin : eArg p.e % 2 ^ 20 + 16 ≤ ldmSize) :
    Runs (.ttSend id idx .uncorrectable payload) s [.page .sd, .page .gc, .tt, .cores, .locks, .sd] fun t =>
      (t.core id).st = .halt ∧ (t.core id).exc = 0x04 ∧ (t.core id).chans = (s.core id).chans ∧ bit (preg t (.gc id) 0x10) 6 = true := by
  set T := takePlace s id p with hT
  set u := noteUpset T id .uncorrectable (eArg p.e % 2 ^ 20) with hu
  have hku : Keeps [.page .gc, .tt, .cores] s u := noteUpset_keeps _ _ _ (by decide) ((takePlace_keeps' s id p).mono (by decide))
  have hcore : u.core id = { s.core id with tt := placedTt s id p } := by rw [hu, noteUpset_core, hT, takePlace_core]
  have hrun : (u.core id).st = .run := by rw [hcore]; exact hst
  have hact : ttSendAct T id (eArg p.e % 2 ^ 20) .uncorrectable payload = haltCore u id 0x04 (T.core id).lastPc := by
    unfold ttSendAct haltLate
    simp only [h16, Nat.not_lt.mpr hin, ne_eq, not_true_eq_false, if_false, if_true, ← hu, hrun]
  have herr : bit (preg u (.gc id) 0x10) 6 = true := by
    rw [hu]
    exact raiseErr_bit _ _ _ (by omega)
  obtain ⟨hhalt, hexc, -, -, hchans⟩ := haltCore_core u id 0x04 (T.core id).lastPc 0
  refine ⟨_, congrArg Host.Outcome.next ((h.acts hst false _).trans hact), haltCore_keeps _ _ _ _ (by decide) (hku.mono (by decide)), hhalt, hexc,
    hchans.trans (congrArg Core.chans hcore :), ?_⟩
  rw [haltCore_stat, bit_or, herr, Bool.true_or]

end

/-- Settles O9. -/
theorem timetableActions : Obligations.TimetableActions := by
  unfold Obligations.TimetableActions
  refine ⟨?nop, ?event, ?parked, ?running, ?waits, ?sends, ?berth, ?mark, ?met, ?load, ?quietOn, ?quietOff, ?trap, ?badact, ?broken, ?late⟩
  case nop => exact fun s core idx p hn hi hgo ha hc => ttNop_goes ⟨hn, hi, hgo, ha⟩ hc
  case event => exact fun s core idx p hn hi hgo ha hst hw hc => ttEvent_goes ⟨hn, hi, hgo, ha⟩ hst hw hc
  case parked => exact fun s core idx p hn hi hgo ha hs hst => ttStart_parked ⟨hn, hi, hgo, ha⟩ hs hst
  case running => exact fun s core idx p hn hi hgo ha hst => ttStart_running ⟨hn, hi, hgo, ha⟩ hst
  case waits =>
    intro s core idx upset payload p hn hi hgo ha hu hst h16 hin h0 hc
    exact ttSend_waits payload ⟨hn, hi, hgo, ha⟩ hu hst h16 hin h0 hc
  case sends =>
    intro s core idx upset payload p d hn hi hgo ha hu hp hst h16 hin hd h0 hc hq hdst
    exact ttSend_goes ⟨hn, hi, hgo, ha⟩ hu hp hst h16 hin hd h0 hc hq hdst
  case berth => exact fun s core idx p hn hi hgo ha hst hm hw => ttDeadlineBerth_misses ⟨hn, hi, hgo, ha⟩ hst hm hw
  case mark => exact fun s core idx p hn hi hgo ha hst hm hw => ttDeadlineMark_misses ⟨hn, hi, hgo, ha⟩ hst hm hw
  case met => exact fun s core idx p hn hi hgo ha hst hm => ttDeadlineMark_met ⟨hn, hi, hgo, ha⟩ hst hm
  case load => exact fun s core idx p hn hi hgo ha hst => ttLoad_goes ⟨hn, hi, hgo, ha⟩ hst
  case quietOn =>
    intro s core idx p hn hi hgo ha hst
    obtain ⟨hk, hq⟩ := ttQuiet_goes true ⟨hn, hi, hgo, ha⟩ hst
    exact ⟨_, rfl, hk, hq⟩
  case quietOff =>
    intro s core idx p hn hi hgo ha hst
    obtain ⟨hk, hq⟩ := ttQuiet_goes false ⟨hn, hi, hgo, ha⟩ hst
    exact ⟨_, rfl, hk, hq⟩
  case trap => exact fun s core idx p hn hi hgo ha hst => ttTrap_goes ⟨hn, hi, hgo, ha⟩ hst
  case badact => exact fun s core idx p hn hi ha => ttBadact_passes hn hi ha
  case broken =>
    intro s core idx upset payload p hn hi hgo ha hu hst h16 hin
    subst hu
    exact ttSend_broken ⟨hn, hi, hgo, ha⟩ hst h16 hin
  case late =>
    intro s core idx p b hn hi hgo ha hst hw hb hm ht
    exact ttDeadlineBerth_late ⟨hn, hi, hgo, ha⟩ hst hw hb hm ht

end Sys2Proof
end

section
/-! PROOFS. Submitting a manifest (06 R232, R233), from the hub's firmware and from the timetable; the writes of a timetable's window (02 R55, R59). -/

namespace Sys2Proof

open Sys2Proof.Machine

section
variable {s : State} {cl ctx : Fin 16} {core : Option (Fin 256)} {okCore : Fin 256 → Bool} {desc : BitVec 1024} {ue : List (BitVec 23)}
variable {id : Fin 256} {p : Pick} {idx : Fin 512}

/-- A new manifest is the last of its queue, with the next completion number, and nothing of it done. -/
structure Joined (s t : State) (cl ctx : Fin 16) (core : Option (Fin 256)) (desc : BitVec 1024) : Prop where
  length : (mQueueOf t cl (mQueue desc)).length = (mQueueOf s cl (mQueue desc)).length + 1
  sender : ((mQueueOf t cl (mQueue desc)).getLast?.map fun m => (m.no, m.ctx, m.core)) =
    some (nextNo ((s.mover cl).last.get (mQueue desc)), ctx, core)
  fresh : ((mQueueOf t cl (mQueue desc)).getLast?.map fun m => (m.desc, m.started, m.done)) = some (desc, false, 0)
  last : (t.mover cl).last.get (mQueue desc) = nextNo ((s.mover cl).last.get (mQueue desc))

/-- The state and the outcome of a submission, with the completion record's address translated. -/
structure Submits (s : State) (cl ctx : Fin 16) (okCore : Fin 256 → Bool) (desc : BitVec 1024) (ue : List (BitVec 23)) (rx : Xlat) : Prop where
  enabled : bit (preg s (.cl cl) 0x200) 0 = true
  valid : descOk desc okCore = true
  noFlag : mFlagEn desc = false
  place : (lookup s ctx (mCompl desc) 2 false (unitUe ue (mCompl desc))).2 = .ok rx
  cut : (cutFrom (lookup s ctx (mCompl desc) 2 false (unitUe ue (mCompl desc))).1 ctx desc
    (segLimit (lookup s ctx (mCompl desc) 2 false (unitUe ue (mCompl desc))).1 ctx desc) 0 (mTotal desc) ue).2.fail = none
  room : (mQueueOf s cl (mQueue desc)).length < 32

/-- The mover with a manifest at the end of its queue. -/
def joinedMover (x : Mover) (mf : Manifest) : Mover :=
  { x with queues := x.queues.set (mQueue mf.desc) (x.queues.get (mQueue mf.desc) ++ [mf]), last := x.last.set (mQueue mf.desc) mf.no }

theorem joined_setMover (u : State) {mf : Manifest} (hno : mf.no = nextNo ((s.mover cl).last.get (mQueue mf.desc))) (hs : mf.started = false)
    (hd : mf.done = 0) : Joined s (u.setMover cl (joinedMover (s.mover cl) mf)) cl mf.ctx mf.core mf.desc := by
  have hq : mQueueOf (u.setMover cl (joinedMover (s.mover cl) mf)) cl (mQueue mf.desc) = mQueueOf s cl (mQueue mf.desc) ++ [mf] := by
    unfold mQueueOf
    rw [mover_setMover]
    exact Vector.getElem_set_self _
  refine ⟨by rw [hq]; simp, ?_, ?_, ?_⟩
  · rw [hq, List.getLast?_concat, Option.map_some, hno]
  · rw [hq, List.getLast?_concat, Option.map_some, hs, hd]
  · rw [mover_setMover, ← hno]
    exact Vector.getElem_set_self _

theorem Submits.joins {rx : Xlat} (h : Submits s cl ctx okCore desc ue rx) (core : Option (Fin 256)) :
    ∃ (t : State) (no : W32), submit s cl ctx core okCore desc ue = (t, .ok no) ∧ Joined s t cl ctx core desc := by
  obtain ⟨hen, hok, hfl, hrec, hcut, hroom⟩ := h
  set u := (cutFrom (lookup s ctx (mCompl desc) 2 false (unitUe ue (mCompl desc))).1 ctx desc
    (segLimit (lookup s ctx (mCompl desc) 2 false (unitUe ue (mCompl desc))).1 ctx desc) 0 (mTotal desc) ue).1 with hu
  have hku : Keeps [.page .vt] s u := cutFrom_keeps _ _ _ _ _ _ (by decide) (lookup_keeps _ _ _ _ _ (by decide) (Keeps.refl _ s))
  have hmover : u.mover cl = s.mover cl := congrArg Cluster.mover (hku.cl (by decide) cl)
  have hroom' : ¬32 ≤ ((s.mover cl).queues.get (mQueue desc)).length := Nat.not_le.mpr hroom
  unfold submit
  simp only [hen, hok, hfl, hrec, hcut, ← hu, hmover, hroom', Bool.true_eq_false, Bool.false_eq_true, if_false, Option.isSome_none]
  refine ⟨_, _, rfl, ?_⟩
  exact joined_setMover u (mf := { ctx := ctx, core := core, desc := desc, no := _, started := false, done := 0, .. }) rfl rfl rfl

/-- A submission by the hub's firmware. -/
theorem hubSubmission_joins {rx : Xlat} (h : Submits s cl ctx (fun id => decide (ctxOfPart s (partOf s id) = ctx.val)) desc ue rx) :
    Runs (.hubFirmwareSubmission cl ctx desc ue) s [.page .vt, .clusters] fun t => Joined s t cl ctx none desc := by
  obtain ⟨t, no, hsub, hj⟩ := h.joins none
  have hk : Keeps [.page .vt, .clusters] s (submit s cl ctx none (fun id => decide (ctxOfPart s (partOf s id) = ctx.val)) desc ue).1 :=
    submit_keeps _ _ _ _ _ _ (by decide) (Keeps.refl _ s)
  rw [hsub] at hk
  exact ⟨t, congrArg (fun r : State × Submitted => Host.Outcome.next r.1) hsub, hk, hj⟩

/-- A submission to a disabled mover does nothing. -/
theorem hubSubmission_disabled (h : bit (preg s (.cl cl) 0x200) 0 = false) :
    Runs (.hubFirmwareSubmission cl ctx desc ue) s [] fun t => t = s := by
  have hexec : execHubFirmwareSubmission cl ctx desc ue s = .next s := by
    unfold execHubFirmwareSubmission submit
    rw [if_pos h]
  exact ⟨s, hexec, Keeps.refl _ s, rfl⟩

/-! ## From the timetable -/

theorem mover_of_cores {P : List Part} {t : State} (h : Keeps P s t) (hc : Part.clusters ∉ P) : t.mover cl = s.mover cl :=
  congrArg Cluster.mover (h.cl hc cl)

theorem Joined.before {t T : State} (h : Joined T t cl ctx core desc) (hm : T.mover cl = s.mover cl) : Joined s t cl ctx core desc := by
  obtain ⟨hlen, hsender, hfresh, hlast⟩ := h
  have hq : mQueueOf T cl (mQueue desc) = mQueueOf s cl (mQueue desc) := by
    unfold mQueueOf
    rw [hm]
  rw [hm] at hsender hlast
  exact ⟨by rw [hlen, hq], hsender, hfresh, hlast⟩

theorem submitTimetable_joins {a : Nat} {rx : Xlat} (ha : a % 128 = 0) (hin : a + 128 ≤ ldmSize)
    (h : Submits s (clusterOf id) (fin 16 (ctxOfPart s (partOf s id))) (fun k => decide (partOf s k = partOf s id))
      (BitVec.ofNat 1024 (bytesNat (readBytes (s.core id).ldm a 128))) ue rx) :
    Joined s (submitTimetable s id a .none ue) (clusterOf id) (fin 16 (ctxOfPart s (partOf s id))) (some id)
      (BitVec.ofNat 1024 (bytesNat (readBytes (s.core id).ldm a 128))) := by
  obtain ⟨t, no, hsub, hj⟩ := h.joins (some id)
  have hbad : ¬(a % 128 ≠ 0 ∨ ldmSize < a + 128) := by omega
  have heq : submitTimetable s id a .none ue = t := by
    unfold submitTimetable
    simp only [h.enabled, if_neg hbad, Bool.true_eq_false, if_false, reduceCtorEq, hsub]
  rw [heq]
  exact hj

theorem ttManifest_joins {a : Nat} {rx : Xlat} {T : State} (h : Dispatches s id idx 0x04 p) (hst : (s.core id).st = .run)
    (hcl : cl = clusterOf id) (hctx : ctx = fin 16 (ctxOfPart s (partOf s id))) (ha : a = eArg p.e % 2 ^ 20) (hal : a % 128 = 0)
    (hin : a + 128 ≤ ldmSize) (hd : desc = BitVec.ofNat 1024 (bytesNat (readBytes (s.core id).ldm a 128))) (hT : T = takePlace s id p)
    (hsub : Submits T cl ctx (fun k => decide (partOf s k = partOf s id)) desc ue rx) :
    Runs (.ttManifest id idx .none ue) s [.page .vt, .page .cl, .page .gc, .tt, .cores, .clusters] fun t => Joined s t cl ctx (some id) desc := by
  have hk : Keeps [.tt, .cores] s T := hT ▸ takePlace_keeps' s id p
  have hpart : ∀ k, partOf T k = partOf s k := hT ▸ takePlace_part
  have hctxT : fin 16 (ctxOfPart T (partOf T id)) = ctx := by
    rw [hctx, hpart]
    unfold ctxOfPart
    rw [hk.preg64 (p := .sd) (by decide) (by omega) (by simp) (by simp)]
  have hldm : (T.core id).ldm = (s.core id).ldm := by rw [hT, takePlace_core]
  have hdT : BitVec.ofNat 1024 (bytesNat (readBytes (T.core id).ldm a 128)) = desc := by rw [hldm, hd]
  subst hcl
  have hj : Joined T (submitTimetable T id a .none ue) (clusterOf id) ctx (some id) desc := by
    have hs' : Submits T (clusterOf id) (fin 16 (ctxOfPart T (partOf T id))) (fun k => decide (partOf T k = partOf T id))
        (BitVec.ofNat 1024 (bytesNat (readBytes (T.core id).ldm a 128))) ue rx := by
      rw [hctxT, hdT]
      simp only [hpart]
      exact hsub
    have := submitTimetable_joins hal hin hs'
    rwa [hctxT, hdT] at this
  refine ⟨submitTimetable T id a .none ue, ?_, submitTimetable_keeps _ _ _ _ (by decide) (hk.mono (by decide)),
    hj.before (congrArg Cluster.mover (hk.cl (by decide) _))⟩
  refine congrArg Host.Outcome.next ((h.acts hst false _).trans ?_)
  rw [← hT, ← ha]

/-- A MANIFEST entry of a disabled mover is refused: counted and recorded (06 R232). -/
theorem ttManifest_refused (h : Dispatches s id idx 0x04 p) (hst : (s.core id).st = .run) (hen : bit (preg s (.cl (clusterOf id)) 0x200) 0 = false) :
    Runs (.ttManifest id idx .none ue) s [.page .cl, .page .gc, .tt, .cores] fun t =>
      preg t (.cl (clusterOf id)) 0x22C = satAdd (preg s (.cl (clusterOf id)) 0x22C) 1 ∧ bit (preg t (.cl (clusterOf id)) 0x10) 17 = true := by
  set T := takePlace s id p with hT
  have hk : Keeps [.tt, .cores] s T := takePlace_keeps' s id p
  have hregs : ∀ k, k < 0x1000 → preg T (.cl (clusterOf id)) k = preg s (.cl (clusterOf id)) k := fun k hlt =>
    hk.preg (by simp) hlt (by simp) (by simp)
  have hact : submitTimetable T id (eArg p.e % 2 ^ 20) .none ue = refuseTimetable T (clusterOf id) 17 (eArg p.e % 2 ^ 20) id := by
    unfold submitTimetable
    rw [if_pos ((congrArg (bit · 0) (hregs _ (by omega))).trans hen)]
  have hkr : Keeps [.page .cl] T (refuseTimetable T (clusterOf id) 17 (eArg p.e % 2 ^ 20) id) :=
    refuseTimetable_keeps _ _ _ _ (by decide) (Keeps.refl _ T)
  refine ⟨_, congrArg Host.Outcome.next ((h.acts hst false _).trans hact), (hk.mono (by decide)).trans (hkr.mono (by decide)), ?_, raiseErr_bit _ _ _ (by omega)⟩
  show preg (refuseTimetable T (clusterOf id) 17 (eArg p.e % 2 ^ 20) id) (.cl (clusterOf id)) 0x22C = _
  unfold refuseTimetable
  rw [preg_raiseErr _ _ _ (by omega) (fun _ => by decide) (by simp), preg_cntPreg _ _ (by omega) (by omega), if_pos ⟨rfl, rfl⟩, hregs _ (by omega)]

/-! ## The window -/

/-- The dispatcher after a write of TT_CTRL. -/
def ctrlTt (s : State) (id : Fin 256) (v : W32) : Dispatcher :=
  let t := (s.core id).tt
  let t1 : Dispatcher := if ttEn s id = bit v 0 then t else { t with hint := 0, quiet := false, running := false, next := 0, carried := [] }
  { t1 with armed := t1.armed || bit v 2 }

theorem ttCtrlWrite_eq (v : W32) :
    ttCtrlWrite s id v = setTt (setTtReg s id 0x8000 (if bit v 0 then 1 else 0)) id (ctrlTt s id v) := by
  unfold ttCtrlWrite ctrlTt
  dsimp only
  rw [setTtReg_core]

theorem ttCtrlWrite_core (v : W32) : (ttCtrlWrite s id v).core id = { s.core id with tt := ctrlTt s id v } := by
  rw [ttCtrlWrite_eq, setTt_core_same, setTtReg_core]

theorem ttEn_ttCtrlWrite (v : W32) : ttEn (ttCtrlWrite s id v) id = bit v 0 := by
  unfold ttEn
  rw [ttCtrlWrite_eq, setTt_ttReg, ttReg_setTtReg, if_pos rfl]
  cases bit v 0 <;> rfl

theorem ttCtrlWrite_keeps' (v : W32) : Keeps [.tt, .cores] s (ttCtrlWrite s id v) := ttCtrlWrite_keeps _ _ (by decide) (Keeps.refl _ s)

theorem ctrlTt_armed {v : W32} (hv : bit v 2 = true) (hen : bit v 0 = ttEn s id) : ctrlTt s id v = { (s.core id).tt with armed := true } := by
  unfold ctrlTt
  dsimp only
  rw [if_pos hen.symm, hv, Bool.or_true]

theorem ctrlTt_enabled {v : W32} (hv : bit v 0 = true) (hen : ttEn s id = false) (h2 : bit v 2 = false) :
    ctrlTt s id v = { (s.core id).tt with hint := 0, quiet := false, running := false, next := 0, carried := [] } := by
  have hne : ttEn s id ≠ bit v 0 := by rw [hv, hen]; exact Bool.false_ne_true
  unfold ctrlTt
  dsimp only
  rw [if_neg hne, h2]
  simp only [Bool.or_false]

theorem ttArm_arms {v : W32} (hv : bit v 2 = true) (hen : bit v 0 = ttEn s id) :
    Runs (.ttArm id v) s [.tt, .cores] fun t =>
      t.core id = { s.core id with tt := { (s.core id).tt with armed := true } } ∧ ttEn t id = ttEn s id :=
  ⟨_, rfl, ttCtrlWrite_keeps' v, by rw [ttCtrlWrite_core, ctrlTt_armed hv hen], (ttEn_ttCtrlWrite v).trans hen⟩

theorem ttEnable_starts {v : W32} (hv : bit v 0 = true) (hen : ttEn s id = false) (h2 : bit v 2 = false) :
    Runs (.ttEnable id v) s [.tt, .cores] fun t =>
      (t.core id).tt = { (s.core id).tt with hint := 0, quiet := false, running := false, next := 0, carried := [] } ∧ ttEn t id = true :=
  ⟨_, rfl, ttCtrlWrite_keeps' v, by rw [ttCtrlWrite_core, ctrlTt_enabled hv hen h2], (ttEn_ttCtrlWrite v).trans hv⟩

/-- The row of the window's entries. -/
abbrev entryRow : RegRow := rs 0x0000 4096 4 0 (all .rw)

theorem entryRow_covers {o : Nat} (h : o < 0x4000) (h4 : o % 4 = 0) : ttRows.find? (·.covers o) = some entryRow := by
  have hc : entryRow.covers o = true := by
    unfold RegRow.covers entryRow rs
    simp only [Bool.and_eq_true, decide_eq_true_eq]
    omega
  unfold ttRows
  rw [List.cons_append, List.cons_append, List.cons_append, List.cons_append, List.cons_append]
  exact List.find?_cons_of_pos hc

theorem ttBankOf_entry {o : Nat} (h : o < 0x4000) : ttBankOf o = some (decide (0x2000 ≤ o)) := by
  unfold ttBankOf
  by_cases hlow : o < 0x2000
  · rw [if_pos hlow, decide_eq_false (by omega)]
  · rw [if_neg hlow, if_pos h, decide_eq_true (by omega)]

/-- An entry of the active bank is not written (02 R59). -/
theorem ttWindowWrite_active {o : Nat} (v : W32) (h : o < 0x4000) (h4 : o % 4 = 0) (hen : ttEn s id = true)
    (hb : (s.core id).tt.bank = decide (0x2000 ≤ o)) : ttWindowWrite s id o v = setTtReg s id 0x8014 (ttReg s id 0x8014 ||| 1) := by
  unfold ttWindowWrite
  rw [if_neg (by omega), entryRow_covers h h4]
  exact if_pos ⟨hen, by rw [ttBankOf_entry h, hb]⟩

theorem ttWindowWrite_free {o : Nat} (v : W32) (h : o < 0x4000) (h4 : o % 4 = 0)
    (hf : ¬(ttEn s id = true ∧ (s.core id).tt.bank = decide (0x2000 ≤ o))) : ttWindowWrite s id o v = setTtReg s id o v := by
  have hfree : ¬(ttEn s id = true ∧ ttBankOf o = some (s.core id).tt.bank) := by
    rw [ttBankOf_entry h]
    rintro ⟨hen, hb⟩
    exact hf ⟨hen, (Option.some.inj hb).symm⟩
  unfold ttWindowWrite
  rw [if_neg (by omega), entryRow_covers h h4]
  have hword : entryRow.flds.foldl (wrField false v 0) ⟨ttReg s id o, 0, 0⟩ = ⟨v, 0, 0⟩ := by
    rw [show entryRow.flds = [f 0 32 .rw] from rfl, List.foldl_cons, List.foldl_nil, wrField_all]
  have hpair : entryRow.pair = false := rfl
  simp only [if_neg hfree, hword, hpair, Bool.false_eq_true, ne_eq, not_true_eq_false, if_false]
  exact if_neg (by omega)

theorem ttBankWrite_keeps' (off : BitVec 16) (v : W32) : Keeps [.tt, .staged, .cores] s (ttWindowWrite s id off.toNat v) :=
  ttWindowWrite_keeps _ _ _ (by decide) (Keeps.refl _ s)

theorem ttBankWrite_eq (off : BitVec 16) (v : W32) (h : off.toNat < 0x4000) :
    execTtBankWrite id off v s = .next (ttWindowWrite s id off.toNat v) := by
  unfold execTtBankWrite
  rw [ttBankOf_entry h]
  rfl

end

/-- Settles O24. -/
theorem manifestSubmission : Obligations.ManifestSubmission := by
  unfold Obligations.ManifestSubmission
  refine ⟨fun s cl ctx desc ue rx hen hok hfl hrec hcut hroom => ?_, fun s cl ctx desc ue hen => hubSubmission_disabled hen, ?_⟩
  · exact (hubSubmission_joins ⟨hen, hok, hfl, hrec, hcut, hroom⟩).imp fun t ⟨hlen, hsender, hfresh, hlast⟩ => ⟨hlen, hsender, hfresh, hlast⟩
  · intro s core idx p cl ctx a desc ue rx T hn hi hgo hact hst hcl hctx ha hal hin hd hT hen hok hfl hrec hcut hroom
    have hq : mQueueOf T cl (mQueue desc) = mQueueOf s cl (mQueue desc) := by
      unfold mQueueOf
      rw [hT, mover_of_cores (takePlace_keeps' s core p) (by decide)]
    exact (ttManifest_joins ⟨hn, hi, hgo, hact⟩ hst hcl hctx ha hal hin hd hT ⟨hen, hok, hfl, hrec, hcut, by rw [hq]; exact hroom⟩).imp
      fun t ⟨hlen, hsender, hfresh, hlast⟩ => ⟨hlen, hsender, hfresh, hlast⟩

/-- Settles O10. -/
theorem timetableManifests : Obligations.TimetableManifests := by
  unfold Obligations.TimetableManifests
  refine ⟨?refused, fun s core v hv hen => ttArm_arms hv hen, fun s core v hv hen h2 => ttEnable_starts hv hen h2, ?active, ?free⟩
  case refused => exact fun s core idx ue p hn hi hgo ha hst hen => ttManifest_refused ⟨hn, hi, hgo, ha⟩ hst hen
  case active =>
    intro s core off v hlt h4 hen hb
    refine ⟨_, ttBankWrite_eq off v hlt, ttBankWrite_keeps' off v, ?_, ?_⟩
    · rw [ttWindowWrite_active v hlt h4 hen hb, ttReg_setTtReg, if_pos rfl]
    · rw [ttWindowWrite_active v hlt h4 hen hb, ttReg_setTtReg, if_neg (by omega)]
  case free =>
    intro s core off v hlt h4 hf
    refine ⟨_, ttBankWrite_eq off v hlt, ttBankWrite_keeps' off v, ?_⟩
    have hfree : ¬(ttEn s core = true ∧ (s.core core).tt.bank = decide (0x2000 ≤ off.toNat)) := by
      rintro ⟨hen, hb⟩
      rcases hf with hoff | hother
      · rw [hoff] at hen
        cases hen
      · rw [hb, decide_eq_decide] at hother
        omega
    beta_reduce
    rw [ttWindowWrite_free v hlt h4 hfree, ttReg_setTtReg, if_pos rfl]

end Sys2Proof
end

section
/-! PROOFS. Register writes of BAR0, of configuration space and of BAR4, pairs, and unmapped space (03 R76 to R94, R104, R105). -/

namespace Sys2Proof

open Sys2Proof.Machine

section
variable {s : State} {p : Page} {v same : W32}

/-! ## BAR0 -/

theorem pageBase_small (p : Page) : pageBase p + 0x1000 ≤ 0x200000 := by
  cases p <;> simp only [pageBase] <;> omega

theorem bar0_offset (p : Page) {o : Nat} (ho : o < 0x1000) : (BitVec.ofNat 26 (pageBase p + o)).toNat = pageBase p + o := by
  have hp := pageBase_small p
  rw [BitVec.toNat_ofNat, Nat.mod_eq_of_lt (by omega)]

theorem pageBase_word (p : Page) : pageBase p % 0x1000 = 0 := by
  cases p <;> simp only [pageBase] <;> omega

/-- A write to a whole register of a page below the block's own registers. -/
theorem registerWrite_whole {o : Nat} (hs : servedPage s (pageBase p + o) = some p) (ho : o < 0x100) (h4 : o % 4 = 0) (h8 : o ≠ 8) :
    execRegisterWrite (.bar0 (BitVec.ofNat 26 (pageBase p + o)) v true same) s = .next (pageWrite s p o v same).st := by
  have hp := pageBase_small p
  have hw := pageBase_word p
  have hpage : bar0Write s (pageBase p + o) v same = (pageWrite s p o v same).st := by
    unfold bar0Write pageRegWrite
    rw [hs]
    simp only [Nat.add_sub_cancel_left, if_neg h8, if_pos ho]
  unfold execRegisterWrite
  simp only [bar0_offset p (show o < 0x1000 by omega)]
  rw [if_neg (by omega), if_pos ⟨trivial, by omega⟩, hpage]

/-- A write of less than a register. -/
theorem registerWrite_part {o : Nat} (hs : servedPage s (pageBase p + o) = some p) (ho : o < 0x100) (h4 : o % 4 = 0) :
    execRegisterWrite (.bar0 (BitVec.ofNat 26 (pageBase p + o)) v false same) s =
      .next (pageErr s p (if bit (preg s p 0x44) 0 && !(lockExempt o 0) then 2 else 8) o) := by
  have hp := pageBase_small p
  have hround : o / 4 * 4 = o := by omega
  have hsize : sizeWrite s (pageBase p + o) = pageErr s p (if bit (preg s p 0x44) 0 && !(lockExempt o 0) then 2 else 8) o := by
    unfold sizeWrite
    rw [hs]
    simp only [Nat.add_sub_cancel_left, hround]
  unfold execRegisterWrite
  simp only [bar0_offset p (show o < 0x1000 by omega)]
  rw [if_neg (by omega), if_neg (by simp), hsize]

/-! ## What PAGE_ERR records -/

theorem pageErr_keeps' (s : State) (p : Page) (m o : Nat) : Keeps [.page (classOf p)] s (pageErr s p m o) :=
  pageErr_keeps _ _ _ (by simp) (Keeps.refl _ s)

/-- A cause that is not recorded stays as it was. -/
theorem pageErr_other (s : State) (p : Page) {mask b : Nat} (o : Nat) (hb : bit (BitVec.ofNat 32 mask) b = false) (h8 : b < 8) :
    bit (preg (pageErr s p mask o) p 0x3C) b = bit (preg s p 0x3C) b := by
  unfold pageErr
  rw [raiseInt_preg _ _ (by omega) (by simp) (by simp), preg_setPreg_same, bit_or, hb, Bool.or_false]
  split_ifs
  · exact bit_setFld_out _ _ _ _ _ (by omega)
  · exact bit_setBit_other _ _ (by omega)

theorem pageErr_int (s : State) (p : Page) (mask o : Nat) : preg (pageErr s p mask o) p 0x30 = preg s p 0x30 ||| one32 1 := by
  unfold pageErr raiseInt
  rw [irqEdge_preg _ _ _ (by omega) (by simp), preg_orPreg _ _ (by omega) (by omega), if_pos ⟨rfl, rfl⟩, preg_setPreg _ _ (by omega) (by omega),
    if_neg (by simp)]

theorem pageErr_out {q : Nat} (s : State) (p : Page) (mask o : Nat) (hq : q < 0x100) (h30 : q ≠ 0x30) (h3c : q ≠ 0x3C) :
    preg (pageErr s p mask o) p q = preg s p q :=
  pageErr_preg _ _ _ (by omega) (by simp [h30]) (by simp [h3c]) (by rintro ⟨-, e⟩; omega)

/-! ## Whole and partial writes -/

theorem word34_plain (p : Page) : PlainReg p 0x34 (r 0x034 0 (all .rw)) where
  noCross := by cases p <;> intros <;> rfl

theorem errStat_plain (p : Page) : PlainReg p 0x10 (r 0x010 0 (all .w1c)) where
  noCross := by cases p <;> intros <;> rfl

theorem plainWord_written (hs : servedPage s (pageBase p + 0x34) = some p) (hu : Unlocked s p) :
    Runs (.registerWrite (.bar0 (BitVec.ofNat 26 (pageBase p + 0x34)) v true same)) s [.page (classOf p)] fun t =>
      preg t p 0x34 = v ∧ preg t p 0x10 = preg s p 0x10 := by
  refine ⟨_, registerWrite_whole hs (by omega) (by omega) (by omega), pageWrite_keeps_plain (word34_plain p) hu v same (by simp) (Keeps.refl _ s), ?_, ?_⟩
  · rw [preg_pageWrite_same (word34_plain p) hu]
    unfold written
    rw [show (r 0x034 0 (all .rw)).flds = [f 0 32 .rw] from rfl, List.foldl_cons, List.foldl_nil, wrField_all]
  · exact preg_pageWrite_other (word34_plain p) hu v same (by omega) (fun _ => by omega) (by omega)

/-- A write 1 to clear takes the bits that the device does not set in the same tick (03 R87, R90). -/
theorem wrField_w1c_all (locked : Bool) (v same : W32) (a : Wr) :
    wrField locked v same a (f 0 32 .w1c) = { a with new := a.new &&& ~~~(v &&& ~~~same) } := by
  have hmask : v &&& ~~~same &&& BitVec.ofNat 32 ((2 ^ 32 - 1) * 2 ^ 0) = v &&& ~~~same := by
    rw [show BitVec.ofNat 32 ((2 ^ 32 - 1) * 2 ^ 0) = BitVec.allOnes 32 from rfl, BitVec.and_allOnes]
  show { a with new := a.new &&& ~~~(v &&& ~~~same &&& BitVec.ofNat 32 ((2 ^ 32 - 1) * 2 ^ 0)) } = _
  rw [hmask]

theorem errStat_cleared (hs : servedPage s (pageBase p + 0x10) = some p) :
    Runs (.registerWrite (.bar0 (BitVec.ofNat 26 (pageBase p + 0x10)) v true same)) s [.page (classOf p)] fun t =>
      preg t p 0x10 = preg s p 0x10 &&& ~~~(v &&& ~~~same) := by
  have R := errStat_plain p
  have hexec := registerWrite_whole (v := v) (same := same) hs (by omega) (by omega) (by omega)
  by_cases hl : bit (preg s p 0x44) 0 = false ∨ lockExempt 0x10 v = true
  · have hword : wrReg s p 0x10 (r 0x010 0 (all .w1c)) v same = ⟨preg s p 0x10 &&& ~~~(v &&& ~~~same), 0, 0⟩ := by
      rw [wrReg_plain R]
      unfold written
      rw [show (r 0x010 0 (all .w1c)).flds = [f 0 32 .w1c] from rfl, List.foldl_cons, List.foldl_nil, wrField_w1c_all]
    rw [pageWrite_eq v same hl R.row_eq R.single R.unpaired, hword] at hexec
    refine ⟨_, hexec, wrStore_keeps _ _ _ (by omega) (by simp) (Keeps.refl _ s), ?_⟩
    unfold wrStore
    simp only [if_true]
    rw [irqEdge_preg _ _ _ (by omega) (by simp), if_neg (by simp), preg_setPreg_same]
  · rw [not_or, Bool.not_eq_false, Bool.not_eq_true] at hl
    obtain ⟨hlocked, hex⟩ := hl
    have hzero : v = 0 := by
      unfold lockExempt at hex
      have hmask : lockW1c 0x10 = BitVec.allOnes 32 := rfl
      rw [hmask, BitVec.and_allOnes] at hex
      simpa using hex
    rw [pageWrite_locked same hlocked hex] at hexec
    refine ⟨_, hexec, pageErr_keeps' s p 2 0x10, ?_⟩
    show preg (pageErr s p 2 0x10) p 0x10 = _
    rw [pageErr_out s p 2 0x10 (by omega) (by omega) (by omega), hzero, show (0 : W32) &&& ~~~same = 0 from BitVec.zero_and,
      show ~~~(0 : W32) = BitVec.allOnes 32 from rfl, BitVec.and_allOnes]

theorem partial_refused (hs : servedPage s (pageBase p + 0x10) = some p) (hu : Unlocked s p) :
    Runs (.registerWrite (.bar0 (BitVec.ofNat 26 (pageBase p + 0x10)) v false same)) s [.page (classOf p)] fun t =>
      preg t p 0x10 = preg s p 0x10 ∧ bit (preg t p 0x3C) 3 = true ∧ bit (preg t p 0x3C) 1 = bit (preg s p 0x3C) 1 := by
  have hexec := registerWrite_part (v := v) (same := same) hs (by omega) (by omega)
  rw [hu, Bool.false_and, if_neg Bool.false_ne_true] at hexec
  exact ⟨_, hexec, pageErr_keeps' s p 8 0x10, pageErr_out s p 8 0x10 (by omega) (by omega) (by omega), pageErr_cause _ _ _ (by decide),
    pageErr_other _ _ _ (by decide) (by omega)⟩

theorem partial_locked (hs : servedPage s (pageBase p + 0x34) = some p) (hl : bit (preg s p 0x44) 0 = true) :
    Runs (.registerWrite (.bar0 (BitVec.ofNat 26 (pageBase p + 0x34)) v false same)) s [.page (classOf p)] fun t =>
      preg t p 0x34 = preg s p 0x34 ∧ bit (preg t p 0x3C) 1 = true ∧ bit (preg t p 0x3C) 3 = bit (preg s p 0x3C) 3 := by
  have hexec := registerWrite_part (v := v) (same := same) hs (by omega) (by omega)
  have hnot : (!lockExempt 0x34 0) = true := by decide
  rw [hl, hnot, Bool.and_self, if_pos rfl] at hexec
  exact ⟨_, hexec, pageErr_keeps' s p 2 0x34, pageErr_out s p 2 0x34 (by omega) (by omega) (by omega), pageErr_cause _ _ _ (by decide),
    pageErr_other _ _ _ (by decide) (by omega)⟩

theorem whole_locked (hs : servedPage s (pageBase p + 0x34) = some p) (hl : bit (preg s p 0x44) 0 = true) :
    Runs (.registerWrite (.bar0 (BitVec.ofNat 26 (pageBase p + 0x34)) v true same)) s [.page (classOf p)] fun t =>
      preg t p 0x34 = preg s p 0x34 ∧ bit (preg t p 0x3C) 1 = true := by
  have hexec := registerWrite_whole (v := v) (same := same) hs (by omega) (by omega) (by omega)
  rw [pageWrite_locked same hl (by simp [lockExempt, lockW1c])] at hexec
  exact ⟨_, hexec, pageErr_keeps' s p 2 0x34, pageErr_out s p 2 0x34 (by omega) (by omega) (by omega), pageErr_cause _ _ _ (by decide)⟩

/-- A write at an offset without a register (03 R93). -/
theorem reserved_refused (hs : servedPage s (pageBase p + 0x48) = some p) (hu : Unlocked s p) :
    Runs (.registerWrite (.bar0 (BitVec.ofNat 26 (pageBase p + 0x48)) v true same)) s [.page (classOf p)] fun t =>
      bit (preg t p 0x3C) 2 = true ∧ preg t p 0x30 = preg s p 0x30 ||| one32 1 := by
  have hexec := registerWrite_whole (v := v) (same := same) hs (by omega) (by omega) (by omega)
  have hw : (pageWrite s p 0x48 v same).st = pageErr s p 4 0x48 := by
    unfold pageWrite
    rw [hu, show rowOf p 0x48 = none from rfl]
    rfl
  rw [hw] at hexec
  exact ⟨_, hexec, pageErr_keeps' s p 4 0x48, pageErr_cause _ _ _ (by decide), pageErr_int s p 4 0x48⟩

/-! ## Configuration space and mailbox slots -/

theorem busMaster_written (hl : s.cxl.link ≠ .down) (hf : s.cxl.flr = false) :
    Runs (.registerWrite (.config .busMaster v)) s [.cxl] fun t => t.cxl.busMaster = bit v 0 ∧ t.cxl.memSpace = s.cxl.memSpace := by
  have hexec : execRegisterWrite (.config .busMaster v) s = .next { s with cxl := { s.cxl with busMaster := bit v 0 } } := by
    unfold execRegisterWrite cfgGate
    simp only [if_neg hl, hf, Bool.false_eq_true, if_false, cfgWrite]
  exact ⟨_, hexec, put_cxl_keeps _ (by decide) (Keeps.refl _ s), rfl, rfl⟩

/-- Bytes written to a slot below its sequence word. -/
theorem slot_written {off : BitVec 20} {bytes : List Byte} (h : off.toNat % 128 + bytes.length ≤ 120) :
    Runs (.registerWrite (.bar4 off bytes)) s [.bar4] fun t =>
      readBytes t.bar4 off.toNat bytes.length = bytes ∧
      ∀ a, a < off.toNat ∨ off.toNat + bytes.length ≤ a → sget (fun _ => 0) t.bar4 a = sget (fun _ => 0) s.bar4 a := by
  have hmiss : ∀ q ∈ (List.range (bytes.length / 128 + 2)).map (fun k => (off.toNat / 128 + k) * 128 + 120),
      (decide (off.toNat < q + 8) && decide (q < off.toNat + bytes.length)) = false := fun q hq => by
    obtain ⟨k, -, rfl⟩ := List.mem_map.mp hq
    rw [Bool.and_eq_false_iff]
    exact .inr (decide_eq_false (by omega))
  have hexec : bar4Write s off.toNat bytes = { s with bar4 := writeBytes s.bar4 off.toNat bytes } := by
    unfold bar4Write
    rw [if_neg (by omega)]
    exact foldl_idle fun q hq => if_neg (by beta_reduce; rw [hmiss q hq]; exact Bool.false_ne_true)
  exact ⟨_, congrArg Host.Outcome.next hexec, put_bar4_keeps _ (by decide) (Keeps.refl _ s), readBytes_writeBytes _ _ _,
    fun a ha => sget_writeBytes_other _ _ _ _ ha⟩

/-! ## Unmapped space -/

theorem stray_after (off : BitVec 26) (write : Bool) :
    Keeps [.page .dev] s (stray s off.toNat write) ∧ preg (stray s off.toNat write) .dev 0x11C = BitVec.ofNat 32 (off.toNat / 4 * 4 + b2n write * 2) ∧
      preg (stray s off.toNat write) .dev 0x120 = satAdd (preg s .dev 0x120) 1 ∧ (stray s off.toNat write).out = s.out := by
  have hoff : off.toNat % 2 ^ 26 = off.toNat := Nat.mod_eq_of_lt off.isLt
  unfold stray
  rw [hoff]
  refine ⟨?_, ?_, ?_, rfl⟩
  · exact cntPreg_keeps _ _ _ (by omega) (by simp [classOf]) (setPreg_keeps _ _ _ (by omega) (by simp [classOf]) (Keeps.refl _ s))
  · rw [preg_cntPreg _ _ (by omega) (by omega), if_neg (by simp), preg_setPreg_same]
  · rw [preg_cntPreg _ _ (by omega) (by omega), if_pos ⟨rfl, rfl⟩, preg_setPreg _ _ (by omega) (by omega), if_neg (by simp)]

theorem unmapped_written {off : BitVec 26} (h : unmapped s off.toNat = true) :
    Runs (.unmappedAccess off true) s [.page .dev] fun t =>
      preg t .dev 0x11C = BitVec.ofNat 32 (off.toNat / 4 * 4 + 2) ∧ preg t .dev 0x120 = satAdd (preg s .dev 0x120) 1 ∧ t.out = s.out := by
  have hexec : execUnmappedAccess off true s = .next (stray s off.toNat true) := congrArg Host.Outcome.next (if_pos h)
  exact ⟨_, hexec, stray_after off true⟩

theorem unmapped_read {off : BitVec 26} (h : unmapped s off.toNat = true) :
    Runs (.unmappedAccess off false) s [.page .dev] fun t =>
      preg t .dev 0x11C = BitVec.ofNat 32 (off.toNat / 4 * 4) ∧ preg t .dev 0x120 = satAdd (preg s .dev 0x120) 1 ∧
      t.out = s.out ++ [.readData 0] := by
  have hexec : execUnmappedAccess off false s = .next (emit (stray s off.toNat false) (.readData 0)) := congrArg Host.Outcome.next (if_pos h)
  obtain ⟨hk, hinfo, hcount, hout⟩ := stray_after (s := s) off false
  refine ⟨_, hexec, emit_keeps _ hk, hinfo, hcount, ?_⟩
  show (stray s off.toNat false).out ++ [_] = _
  rw [hout]

/-! ## Pairs -/

theorem captured_keeps (x : Sparse W32) : Keeps [.captured] s { s with captured := x } := fun q hq => by
  cases q with
  | page c => exact fun _ _ _ _ _ _ => rfl
  | tt => exact fun _ _ _ => rfl
  | captured => exact absurd (by decide) hq
  | dm => exact ⟨rfl, rfl⟩
  | sd => exact ⟨rfl, rfl⟩
  | _ => rfl

theorem pair_read {off : BitVec 26} {enables : BitVec 4} (h : isLoPair s off.toNat = true) (hne : off.toNat ≠ pageBase .td + 0x110) :
    Runs (.pairLoRead off enables) s [.captured] fun t =>
      sget (fun _ => 0) t.captured (off.toNat + 4) = liveHi s off.toNat ∧
      t.out = s.out ++ [.readData (maskBytes (bar0Read s off.toNat) enables)] := by
  have hexec : execPairLoRead off enables s =
      .next (emit { s with captured := sset (fun _ => 0) s.captured (off.toNat + 4) (liveHi s off.toNat) }
        (.readData (maskBytes (bar0Read s off.toNat) enables))) := by
    unfold execPairLoRead pairRead
    rw [if_pos h]
    simp only [if_neg hne]
  exact ⟨_, hexec, emit_keeps _ (captured_keeps _), sget_sset_same (α := W32) _ _ _ _, rfl⟩

/-- A pair's lower half that BAR0 serves on a page: the page. -/
theorem liveHi_td (h : isLoPair s (pageBase .td + 0x110) = true) : liveHi s (pageBase .td + 0x110) = liveReg s .td 0x114 := by
  have hat : pageAt (pageBase .td + 0x110) = some .td := rfl
  have hpage : servedPage s (pageBase .td + 0x110) = if s.boot.recovery then none else some .td := by
    unfold servedPage
    rw [hat]
    cases s.boot.recovery <;> rfl
  have htt : servedTt s (pageBase .td + 0x110) = none := ite_self _
  have hon : s.boot.recovery = false := by
    by_contra hrec
    rw [Bool.not_eq_false] at hrec
    unfold isLoPair at h
    rw [hpage, htt, hrec] at h
    cases h
  rw [hon, if_neg Bool.false_ne_true] at hpage
  unfold liveHi
  rw [hpage]
  rfl

/-- The step number's pair captures the phase too (02 R70; 03 R104). -/
theorem stepPair_read {enables : BitVec 4} (h : isLoPair s (pageBase .td + 0x110) = true) :
    Runs (.pairLoRead (BitVec.ofNat 26 (pageBase .td + 0x110)) enables) s [.captured, .page .td] fun t =>
      preg t .td 0x11C = s.tide.phase.setWidth 32 ∧ sget (fun _ => 0) t.captured (pageBase .td + 0x114) = liveReg s .td 0x114 := by
  set c : State := { s with captured := sset (fun _ => 0) s.captured (pageBase .td + 0x110 + 4) (liveHi s (pageBase .td + 0x110)) } with hc
  have hexec : execPairLoRead (BitVec.ofNat 26 (pageBase .td + 0x110)) enables s =
      .next (emit (setPreg c .td 0x11C (s.tide.phase.setWidth 32)) (.readData (maskBytes (bar0Read s (pageBase .td + 0x110)) enables))) := by
    unfold execPairLoRead pairRead
    rw [bar0_offset .td (by omega), if_pos h]
    simp only [if_true, ← hc]
  have hk : Keeps [.captured] s c := captured_keeps _
  have hkt : Keeps [.page .td] c (setPreg c .td 0x11C (s.tide.phase.setWidth 32)) :=
    setPreg_keeps _ _ _ (by omega) (by decide) (Keeps.refl _ c)
  refine ⟨_, hexec, emit_keeps _ ((hk.mono (by decide)).trans (hkt.mono (by decide))), ?_, ?_⟩
  · rw [preg_emit, preg_setPreg_same]
  · have hcap : c.captured = sset (fun _ => 0) s.captured (pageBase .td + 0x110 + 4) (liveHi s (pageBase .td + 0x110)) := rfl
    have hcap' : (setPreg c .td 0x11C (s.tide.phase.setWidth 32)).captured = c.captured := hkt .captured (by decide)
    show sget (fun _ => 0) (setPreg c .td 0x11C (s.tide.phase.setWidth 32)).captured (pageBase .td + 0x114) = _
    rw [hcap', hcap, ← liveHi_td h]
    exact sget_sset_same (α := W32) _ _ _ _

/-! ## The upper half of the mailbox arrays' base -/

/-- What the write of the upper half does to the page: both halves as their fields take them. -/
theorem mlHi_exec (hs : servedPage s (pageBase .ml + 0x114) = some .ml) :
    execPairHiWrite (BitVec.ofNat 26 (pageBase .ml + 0x114)) v s = .next (pageWrite s .ml 0x114 v).st := by
  have hserved : servedPage s (pageBase .ml + 0x110) = some .ml := by
    have hat : pageAt (pageBase .ml + 0x114) = pageAt (pageBase .ml + 0x110) := rfl
    unfold servedPage at hs ⊢
    rw [← hat]
    exact hs
  have hlo : isLoPair s (pageBase .ml + 0x114 - 4) = true := by
    unfold isLoPair
    rw [show pageBase .ml + 0x114 - 4 = pageBase .ml + 0x110 from rfl, hserved]
    rfl
  have hwrite : bar0Write s (pageBase .ml + 0x114) v = (pageWrite s .ml 0x114 v).st := by
    unfold bar0Write
    rw [hs]
    rfl
  unfold execPairHiWrite
  rw [bar0_offset .ml (by omega), if_pos ⟨by omega, hlo⟩, hwrite]

/-- A field over the whole register that a lock protects. -/
theorem wrField_rwl_all (locked : Bool) (v : W32) (a : Wr) :
    wrField locked v 0 a (f 0 32 .rwl) =
      if v = a.new then a else if locked then { a with rej := a.rej ||| 1 } else { a with new := v } := by
  have hset : setFld a.new 0 32 v.toNat = v := by
    apply BitVec.eq_of_toNat_eq
    rw [← fld_all (setFld a.new 0 32 v.toNat), fld_setFld_same _ _ _ _ (by omega) v.isLt]
  have hmost : v.toNat ≤ 4294967295 := Nat.le_sub_one_of_lt v.isLt
  have heq : v.toNat = a.new.toNat ↔ v = a.new := BitVec.toNat_inj
  unfold wrField f
  simp [fld_all, hset, heq, if_pos hmost]

/-- The halves of ML's base, as a write of the upper one takes them. -/
def mlHalf (s : State) (o : Nat) (v : W32) : Wr := wrField (enabled s .ml) v 0 ⟨preg s .ml o, 0, 0⟩ (f 0 32 .rwl)

theorem mlHi_write (hu : Unlocked s .ml) :
    (pageWrite s .ml 0x114 v).st = wrStore (setPreg s .ml 0x110 (mlHalf s 0x110 (sget (fun _ => 0) s.staged (pageBase .ml + 0x110))).new) .ml 0x114
      { mlHalf s 0x114 v with
        rej := (mlHalf s 0x110 (sget (fun _ => 0) s.staged (pageBase .ml + 0x110))).rej ||| (mlHalf s 0x114 v).rej } := by
  have hhalf : ∀ (o n : Nat) (x : W32) (b : Bool), o = 0x110 ∨ o = 0x114 →
      wrReg s .ml o ⟨o, 1, n, 0, b, [f 0 32 .rwl]⟩ x 0#32 = mlHalf s o x := by
    rintro o n x b (rfl | rfl) <;> rfl
  have hrow : rowOf .ml 0x114 = some ⟨0x114, 1, 8, 0, false, [f 0 32 .rwl]⟩ := rfl
  have hlo : (if 0x114 < 4 then none else rowOf .ml (0x114 - 4)) = some ⟨0x110, 1, 8, 0, true, [f 0 32 .rwl]⟩ := rfl
  have hacc : ([f 0 32 .rwl].any fun x => decide (x.acc = .cnt)) = false := rfl
  unfold pageWrite
  rw [hu, hrow]
  simp only [hlo, hacc, Bool.false_and, Bool.false_eq_true, if_false, if_true, BitVec.add_zero, BitVec.ofNat_eq_ofNat]
  simp only [show (0x114 - 4 : Nat) = 0x110 from rfl, show pageBase .ml + 0x114 - 4 = pageBase .ml + 0x110 from rfl,
    hhalf 0x114 8 v false (.inr rfl), hhalf 0x110 8 _ true (.inl rfl)]

theorem mlHalf_free {o : Nat} (h : enabled s .ml = false) : mlHalf s o v = ⟨v, 0, 0⟩ := by
  unfold mlHalf
  rw [wrField_rwl_all, h, if_neg Bool.false_ne_true]
  split_ifs with he
  · rw [he]
  · rfl

theorem mlHi_free (hs : servedPage s (pageBase .ml + 0x114) = some .ml) (hu : Unlocked s .ml) (he : enabled s .ml = false) :
    Runs (.pairHiWrite (BitVec.ofNat 26 (pageBase .ml + 0x114)) v) s [.page .ml] fun t =>
      preg t .ml 0x114 = v ∧ preg t .ml 0x110 = sget (fun _ => 0) s.staged (pageBase .ml + 0x110) := by
  set w := sget (fun _ => 0) s.staged (pageBase .ml + 0x110) with hw
  have hexec := mlHi_exec (v := v) hs
  rw [mlHi_write hu, mlHalf_free he, mlHalf_free he] at hexec
  have hk : Keeps [.page .ml] s (wrStore (setPreg s .ml 0x110 w) .ml 0x114 ⟨v, 0 ||| 0, 0⟩) :=
    wrStore_keeps _ _ _ (by omega) (by decide) (setPreg_keeps _ _ _ (by omega) (by decide) (Keeps.refl _ s))
  have hregs : ∀ k, k < 0x1000 → preg (wrStore (setPreg s .ml 0x110 w) .ml 0x114 ⟨v, 0 ||| 0, 0⟩) .ml k =
      preg (setPreg (setPreg s .ml 0x110 w) .ml 0x114 v) .ml k := fun k hlt => by
    unfold wrStore
    simp only [Nat.or_self, if_true]
    rw [irqEdge_preg _ _ _ hlt (by simp), if_neg (by simp)]
  refine ⟨_, hexec, hk, ?_, ?_⟩
  · exact (hregs _ (by omega)).trans (preg_setPreg_same _ _ _ _)
  · refine (hregs _ (by omega)).trans ?_
    rw [preg_setPreg _ _ (by omega) (by omega), if_neg (by simp), preg_setPreg_same]

/-- The halves of a locked base: unchanged, and rejected where the word differs. -/
theorem mlHalf_locked {o : Nat} (h : enabled s .ml = true) :
    (mlHalf s o v).new = preg s .ml o ∧ (mlHalf s o v).rej = if v = preg s .ml o then 0 else 1 := by
  unfold mlHalf
  rw [wrField_rwl_all, h, if_pos rfl]
  split_ifs
  · exact ⟨rfl, rfl⟩
  · exact ⟨rfl, Nat.zero_or 1⟩

/-- While the page is enabled neither half changes, and LOCKED_FIELD is recorded (03 R92). -/
theorem mlHi_held (hs : servedPage s (pageBase .ml + 0x114) = some .ml) (hu : Unlocked s .ml) (he : enabled s .ml = true)
    (hne : preg s .ml 0x114 ≠ v) :
    Runs (.pairHiWrite (BitVec.ofNat 26 (pageBase .ml + 0x114)) v) s [.page .ml] fun t =>
      preg t .ml 0x114 = preg s .ml 0x114 ∧ bit (preg t .ml 0x3C) 0 = true := by
  set w := sget (fun _ => 0) s.staged (pageBase .ml + 0x110) with hw
  have hexec := mlHi_exec (v := v) hs
  obtain ⟨hnew, hrej⟩ := mlHalf_locked (o := 0x114) (v := v) he
  obtain ⟨hnewLo, hrejLo⟩ := mlHalf_locked (o := 0x110) (v := w) he
  rw [if_neg (Ne.symm hne)] at hrej
  have hcause : (mlHalf s 0x110 w).rej ||| (mlHalf s 0x114 v).rej = 1 := by
    rw [hrej, hrejLo]
    split_ifs <;> rfl
  rw [mlHi_write hu, ← hw, hcause] at hexec
  dsimp only at hexec
  rw [hnew, hnewLo] at hexec
  set u := setPreg s .ml 0x110 (preg s .ml 0x110) with hu'
  have hk : Keeps [.page .ml] s (wrStore u .ml 0x114 ⟨preg s .ml 0x114, 1, (mlHalf s 0x114 v).go⟩) :=
    wrStore_keeps _ _ _ (by omega) (by decide) (setPreg_keeps _ _ _ (by omega) (by decide) (Keeps.refl _ s))
  have hstore : ∃ x : State, wrStore u .ml 0x114 ⟨preg s .ml 0x114, 1, (mlHalf s 0x114 v).go⟩ = pageErr x .ml 1 0x114 ∧
      preg x .ml 0x114 = preg s .ml 0x114 := by
    unfold wrStore
    simp only [Nat.succ_ne_self, if_false]
    refine ⟨_, rfl, ?_⟩
    rw [irqEdge_preg _ _ _ (by omega) (by simp), if_neg (by simp), preg_setPreg_same]
  obtain ⟨x, hx, hreg⟩ := hstore
  rw [hx] at hexec hk
  refine ⟨_, hexec, hk, ?_, pageErr_cause _ _ _ (by decide)⟩
  rw [pageErr_preg _ _ _ (by omega) (by simp) (by simp) (by simp), hreg]

end

/-- Settles O11. -/
theorem registerWrites : Obligations.RegisterWrites := by
  unfold Obligations.RegisterWrites
  exact ⟨fun s p v same => plainWord_written, fun s p v same => errStat_cleared, fun s p v same => partial_refused, fun s p v same => partial_locked,
    fun s p v same => whole_locked, fun s p v same => reserved_refused, fun s v => busMaster_written, fun s off bytes => slot_written,
    fun s off => unmapped_written, fun s off => unmapped_read, fun s off enables => pair_read, fun s enables => stepPair_read,
    fun s v => mlHi_free, fun s v => mlHi_held⟩

end Sys2Proof
end

section
/-! PROOFS. The issue of a bundle (05 R170, R171): what its slots see, and bundles of one scalar or vector instruction. -/

namespace Sys2Proof

open Sys2Proof.Machine

section
variable {s : State} {id : Fin 256} {upset : Upset} {b : BitVec 128} {q : List (BitVec 128)} {i : SIns} {v : Option VIns} {m : MIns}

/-! ## From the command to the slots -/

/-- The core as a bundle's slots find it: the cycles since the bundle before are counted. -/
def readCore (s : State) (id : Fin 256) : Core := { s.core id with cycles := (s.core id).cycles + (Config.freeTime s.fresh).setWidth 64 }

theorem readCore_s (r : SReg) : (readCore s id).s r = (s.core id).s r := rfl

theorem readCore_v (r : VReg) : (readCore s id).v r = (s.core id).v r := rfl

theorem readCore_pc : (readCore s id).pc = (s.core id).pc := rfl

/-- A bundle is at the issue point, and nothing stands before its slots. -/
structure BundleGoes (s : State) (id : Fin 256) (upset : Upset) (b : BitVec 128) (q : List (BitVec 128)) (x : Bundle) : Prop where
  issues : Issues s id b q
  decoded : decodeBundle b = some x
  clean : upset ≠ .imemParity
  preS_ok : preS (s.core id) x.s = .ok
  preM_ok : preM (s.core id) x.m = .ok

theorem issueOne_issue (h : Wait.sync ∉ (s.core id).waits) (asked : List (Fin 1024)) : issueOne s id upset asked = issue s id upset asked := by
  unfold issueOne
  exact if_neg (by simp [h])

theorem execBundleIssue_one : execBundleIssue id upset [] s = .next (issueOne s id upset []) := rfl

theorem BundleGoes.eq {x : Bundle} (h : BundleGoes s id upset b q x) : execBundleIssue id upset [] s = .next (runBundle s id upset [] (b :: q) x) := by
  obtain ⟨⟨hcan, hsync, htop⟩, hdec, hcl, hS, hM⟩ := h
  rw [execBundleIssue_one, issueOne_issue hsync]
  unfold issue
  simp only [hcan, hcl, htop, List.headD_cons, hdec, hS, hM, Bool.true_eq_false, if_false]

/-! ## The state that the M slot finds -/

/-- The core's own part of a bundle is done. -/
def issuedAt (s : State) (id : Fin 256) (n : Nat) (c : Core) : State := { s with fresh := s.fresh + n }.setCore id c

theorem issuedAt_core (s : State) (id : Fin 256) (n : Nat) (c : Core) : (issuedAt s id n c).core id = c := setCore_core_same _ _ _

theorem fresh_keeps (s : State) (n : Nat) : Keeps [] s { s with fresh := n } := fun p _ => by
  cases p with
  | page c => exact fun _ _ _ _ _ _ => rfl
  | tt => exact fun _ _ _ => rfl
  | dm => exact ⟨rfl, rfl⟩
  | sd => exact ⟨rfl, rfl⟩
  | _ => rfl

/-- A core that stays in its state, with its cause and target, is all that changes. -/
theorem issuedAt_keeps (n : Nat) {c : Core} (hst : (s.core id).st = c.st) (hcause : (s.core id).cause = c.cause)
    (htarget : (s.core id).target = c.target) : Keeps [.cores] s (issuedAt s id n c) := by
  have hf := fresh_keeps s (s.fresh + n)
  have hcore := hf.core (by decide) id
  unfold issuedAt
  generalize ({ s with fresh := s.fresh + n } : State) = u at hf hcore ⊢
  rw [← hcore] at hst hcause htarget
  rw [setCore_quiet hst hcause htarget]
  exact (hf.mono (by decide)).trans (setCoreRaw_keeps' _ _ _)

/-- A bundle whose S slot takes no branch. -/
theorem runBundle_falls (h : branchTarget (readCore s id) i = none) :
    runBundle s id upset [] (b :: q) ⟨i, v, m⟩ =
      let s2 := mEffect (issuedAt s id (if v.isSome then 257 else 1)
        (sWrite s id (readCore s id) i (vWrite (s.fresh + 1) (readCore s id) v (advanced s.fresh (s.core id) q)))) id (readCore s id) upset [] m
      if (s2.core id).st = .halt then s2 else sAfter s2 id (readCore s id) i m := by
  unfold runBundle
  dsimp only
  rw [show branchTarget { s.core id with cycles := (s.core id).cycles + (Config.freeTime s.fresh).setWidth 64 } i = none from h]
  rfl

/-- A bundle whose S slot takes a branch. -/
theorem runBundle_jumps {t : W16} (h : branchTarget (readCore s id) i = some t) :
    runBundle s id upset [] (b :: q) ⟨i, none, .nop⟩ =
      let s2 := issuedAt s id 1 (sWrite s id (readCore s id) i { advanced s.fresh (s.core id) [] with pc := t })
      if (s2.core id).st = .halt then s2 else sAfter s2 id (readCore s id) i .nop := by
  unfold runBundle
  dsimp only
  rw [show branchTarget { s.core id with cycles := (s.core id).cycles + (Config.freeTime s.fresh).setWidth 64 } i = some t from h]
  rfl

/-- A core that can issue is in RUN. -/
theorem canIssue_run (h : canIssue s id = true) : (s.core id).st = .run := by
  unfold canIssue at h
  simp only [Bool.and_eq_true, decide_eq_true_eq] at h
  obtain ⟨⟨⟨hst, -⟩, -⟩, -⟩ := h
  exact hst

theorem setS_keeps (c : Core) (r : SReg) (x : W64) :
    (c.setS r x).st = c.st ∧ (c.setS r x).cause = c.cause ∧ (c.setS r x).target = c.target := by
  unfold Core.setS
  split_ifs <;> exact ⟨rfl, rfl, rfl⟩

theorem advanced_quiet (k : Nat) (c : Core) (q : List (BitVec 128)) :
    (advanced k c q).st = c.st ∧ (advanced k c q).cause = c.cause ∧ (advanced k c q).target = c.target := ⟨rfl, rfl, rfl⟩

/-- A bundle of an S slot alone that takes no branch: what the slot writes, and what it does after. -/
theorem scalar_falls (h : branchTarget (readCore s id) i = none) {c : Core}
    (hc : sWrite s id (readCore s id) i (advanced s.fresh (s.core id) q) = c) (hst : c.st ≠ .halt) :
    runBundle s id upset [] (b :: q) ⟨i, none, .nop⟩ = sAfter (issuedAt s id 1 c) id (readCore s id) i .nop := by
  rw [runBundle_falls h]
  have hwrite : vWrite (s.fresh + 1) (readCore s id) none (advanced s.fresh (s.core id) q) = advanced s.fresh (s.core id) q := rfl
  have hnop : ∀ t : State, mEffect t id (readCore s id) upset [] .nop = t := fun _ => rfl
  simp only [hwrite, hc, hnop, Option.isSome_none, Bool.false_eq_true, if_false]
  exact if_neg (by rw [issuedAt_core]; exact hst)

/-! ## Results -/

theorem alu_result {op : AluOp} {rd ra rb : SReg} (h : BundleGoes s id upset b q ⟨.alu op rd ra rb, none, .nop⟩) :
    Runs (.bundleIssue id upset []) s [.cores] fun t =>
      t.core id = (advanced s.fresh (s.core id) q).setS rd (aluEval op ((s.core id).s ra) ((s.core id).s rb)) := by
  obtain ⟨hst, hcause, htarget⟩ := setS_keeps (advanced s.fresh (s.core id) q) rd (aluEval op ((s.core id).s ra) ((s.core id).s rb))
  have hrun := canIssue_run h.issues.1
  have hbundle := scalar_falls (s := s) (id := id) (upset := upset) (b := b) (q := q) (i := .alu op rd ra rb) rfl rfl
    (by rw [show (sWrite s id (readCore s id) (.alu op rd ra rb) (advanced s.fresh (s.core id) q)).st = (s.core id).st from hst, hrun]; simp)
  exact ⟨_, h.eq.trans (congrArg Host.Outcome.next hbundle), issuedAt_keeps 1 hst.symm hcause.symm htarget.symm, issuedAt_core _ _ _ _⟩

theorem branch_taken {cd : Cond} {ra rb : SReg} {off : Int} (h : BundleGoes s id upset b q ⟨.branch cd ra rb off, none, .nop⟩)
    (hc : condEval cd ((s.core id).s ra) ((s.core id).s rb) = true) :
    Runs (.bundleIssue id upset []) s [.cores] fun t =>
      t.core id = { advanced s.fresh (s.core id) [] with pc := (s.core id).pc + BitVec.ofInt 16 (16 * off) } := by
  have ht : branchTarget (readCore s id) (.branch cd ra rb off) = some ((s.core id).pc + BitVec.ofInt 16 (16 * off)) := if_pos hc
  have hrun := canIssue_run h.issues.1
  have hbundle : runBundle s id upset [] (b :: q) ⟨.branch cd ra rb off, none, .nop⟩ =
      issuedAt s id 1 { advanced s.fresh (s.core id) [] with pc := (s.core id).pc + BitVec.ofInt 16 (16 * off) } := by
    rw [runBundle_jumps ht]
    exact if_neg (by rw [issuedAt_core]; show (s.core id).st ≠ .halt; rw [hrun]; simp)
  exact ⟨_, h.eq.trans (congrArg Host.Outcome.next hbundle), issuedAt_keeps 1 rfl rfl rfl, issuedAt_core _ _ _ _⟩

theorem branch_fallen {cd : Cond} {ra rb : SReg} {off : Int} (h : BundleGoes s id upset b q ⟨.branch cd ra rb off, none, .nop⟩)
    (hc : condEval cd ((s.core id).s ra) ((s.core id).s rb) = false) :
    Runs (.bundleIssue id upset []) s [.cores] fun t => t.core id = advanced s.fresh (s.core id) q := by
  have ht : branchTarget (readCore s id) (.branch cd ra rb off) = none :=
    if_neg (by rw [readCore_s, readCore_s, hc]; exact Bool.false_ne_true)
  have hrun := canIssue_run h.issues.1
  have hbundle := scalar_falls (upset := upset) (b := b) (q := q) ht rfl (by show (s.core id).st ≠ .halt; rw [hrun]; simp)
  exact ⟨_, h.eq.trans (congrArg Host.Outcome.next hbundle), issuedAt_keeps 1 rfl rfl rfl, issuedAt_core _ _ _ _⟩

/-- VAND. -/
theorem vand_result {x : VIns} (h : BundleGoes s id upset b q ⟨.nop, some x, .nop⟩) (hop : x.op = .and) :
    Runs (.bundleIssue id upset []) s [.cores] fun t =>
      t.core id = (advanced s.fresh (s.core id) q).setV x.vd ((s.core id).v x.va &&& (s.core id).v x.vb) := by
  have hrun := canIssue_run h.issues.1
  have hv : vWrite (s.fresh + 1) (readCore s id) (some x) (advanced s.fresh (s.core id) q) =
      (advanced s.fresh (s.core id) q).setV x.vd ((s.core id).v x.va &&& (s.core id).v x.vb) := by
    unfold vWrite vEval
    simp only [hop]
    rfl
  have hbundle : runBundle s id upset [] (b :: q) ⟨.nop, some x, .nop⟩ =
      issuedAt s id 257 ((advanced s.fresh (s.core id) q).setV x.vd ((s.core id).v x.va &&& (s.core id).v x.vb)) := by
    rw [runBundle_falls rfl, hv]
    exact if_neg (by
      show ((issuedAt s id 257 ((advanced s.fresh (s.core id) q).setV x.vd ((s.core id).v x.va &&& (s.core id).v x.vb))).core id).st ≠ .halt
      rw [issuedAt_core]
      show (s.core id).st ≠ .halt
      rw [hrun]
      simp)
  exact ⟨_, h.eq.trans (congrArg Host.Outcome.next hbundle), issuedAt_keeps 257 rfl rfl rfl, issuedAt_core _ _ _ _⟩

/-- WAIT.ANY without an event: the core waits (05 R183). -/
theorem waitAny_waits {rd ra : SReg} {imm : W32} (h : BundleGoes s id upset b q ⟨.waitAny rd ra imm, none, .nop⟩) (hw : (s.core id).waits = [])
    (he : (s.core id).events &&& (((s.core id).s ra).setWidth 32 ||| imm) = 0) (hm : ((s.core id).s ra).setWidth 32 ||| imm ≠ 0) :
    Runs (.bundleIssue id upset []) s [.page .sd, .cores, .sd] fun t =>
      (t.core id).st = .wait ∧ (t.core id).cause = 4 ∧ (t.core id).target = ((s.core id).s ra).setWidth 32 ||| imm ∧
      (t.core id).pc = (s.core id).pc + 16 := by
  have hrun := canIssue_run h.issues.1
  have hbundle := scalar_falls (s := s) (id := id) (upset := upset) (b := b) (q := q) (i := .waitAny rd ra imm) rfl rfl
    (by show (s.core id).st ≠ .halt; rw [hrun]; simp)
  set u := issuedAt s id 1 (advanced s.fresh (s.core id) q) with hu
  have hcore : u.core id = advanced s.fresh (s.core id) q := issuedAt_core _ _ _ _
  have hku : Keeps [.cores] s u := issuedAt_keeps 1 rfl rfl rfl
  have hwait : waitCore (u.core id) (.event rd (((s.core id).s ra).setWidth 32 ||| imm)) = none := by
    rw [hcore]
    exact (if_neg hm).trans (if_pos he)
  have hset : runBundle s id upset [] (b :: q) ⟨.waitAny rd ra imm, none, .nop⟩ =
      setWaits u id (u.core id) [.event rd (((s.core id).s ra).setWidth 32 ||| imm)] := by
    rw [hbundle]
    show startWait u id (.event rd (((s.core id).s ra).setWidth 32 ||| imm)) = _
    unfold startWait
    simp only [hwait]
    rw [show (u.core id).waits = [] by rw [hcore]; exact hw]
    rfl
  have hhead : (u.core id).waits.head? = none := by rw [hcore]; show (s.core id).waits.head? = none; rw [hw]; rfl
  refine ⟨_, h.eq.trans (congrArg Host.Outcome.next hset), setWaits_keeps _ _ _ (by decide) (hku.mono (by decide)), ?_⟩
  unfold setWaits
  simp only [setCore_core_same, hhead, reduceCtorEq, decide_false, Bool.false_eq_true, if_false]
  refine ⟨?_, rfl, rfl, ?_⟩
  · rw [hcore]
    exact if_pos hrun
  · rw [hcore]

end

/-- Settles O21. -/
theorem scalarBundles : Obligations.ScalarBundles := by
  unfold Obligations.ScalarBundles
  exact ⟨fun s core upset b q op rd ra rb hi hd hu => alu_result ⟨hi, hd, hu, rfl, rfl⟩,
    fun s core upset b q cd ra rb off hi hd hu hc => branch_taken ⟨hi, hd, hu, rfl, rfl⟩ hc,
    fun s core upset b q cd ra rb off hi hd hu hc => branch_fallen ⟨hi, hd, hu, rfl, rfl⟩ hc,
    fun s core upset b q i hi hd hu hop => vand_result ⟨hi, hd, hu, rfl, rfl⟩ hop,
    fun s core upset b q rd ra imm hi hd hu hw he hm => waitAny_waits ⟨hi, hd, hu, rfl, rfl⟩ hw he hm⟩

end Sys2Proof
end

section
/-! PROOFS. Bundles of the memory and message slots (05 R181 to R195; 04 R115, R141), and bundles that raise an exception (05 R210, R211). -/

namespace Sys2Proof

open Sys2Proof.Machine

section
variable {s t : State} {id : Fin 256} {upset : Upset} {b : BitVec 128} {q : List (BitVec 128)} {m : MIns} {d : MsgDesc}

/-! ## The M slot alone -/

/-- The state that the M slot of a bundle without other instructions acts on. -/
def steppedOn (s : State) (id : Fin 256) (q : List (BitVec 128)) : State := issuedAt s id 1 (advanced s.fresh (s.core id) q)

theorem steppedOn_core (s : State) (id : Fin 256) (q : List (BitVec 128)) : (steppedOn s id q).core id = advanced s.fresh (s.core id) q :=
  issuedAt_core _ _ _ _

theorem steppedOn_core_other {j : Fin 256} (h : j ≠ id) : (steppedOn s id q).core j = s.core j := by
  unfold steppedOn issuedAt
  rw [setCore_core_other _ _ h]
  rfl

theorem steppedOn_keeps (s : State) (id : Fin 256) (q : List (BitVec 128)) : Keeps [.cores] s (steppedOn s id q) := issuedAt_keeps 1 rfl rfl rfl

theorem steppedOn_run (h : (s.core id).st = .run) : ((steppedOn s id q).core id).st = .run := by
  rw [steppedOn_core]
  exact h

/-- A bundle of an M slot alone. -/
theorem BundleGoes.mem (h : BundleGoes s id upset b q ⟨.nop, none, m⟩) :
    execBundleIssue id upset [] s = .next (mEffect (steppedOn s id q) id (readCore s id) upset [] m) := by
  rw [h.eq, runBundle_falls rfl]
  exact congrArg Host.Outcome.next (ite_self _)

theorem setS_keeps_quiet (s : State) (id : Fin 256) (r : SReg) (x : W64) : Keeps [.cores] s (s.setCore id ((s.core id).setS r x)) := by
  obtain ⟨hst, hcause, htarget⟩ := setS_keeps (s.core id) r x
  exact setCore_keeps_quiet hst.symm hcause.symm htarget.symm

/-- Taking a step moves no core to another partition. -/
theorem steppedOn_part (k : Fin 256) : partOf (steppedOn s id q) k = partOf s k := by
  have hregs : partOfCluster (steppedOn s id q) (clusterOf k).val = partOfCluster s (clusterOf k).val := by
    unfold partOfCluster
    rw [(steppedOn_keeps s id q).preg64 (p := .sd) (by decide) (by omega) (by simp) (by simp)]
  unfold partOf
  rw [hregs]
  by_cases h : k = id
  · rw [h, steppedOn_core]
  · rw [steppedOn_core_other h]

theorem sendsAlike_stepped (s : State) (id : Fin 256) (q : List (BitVec 128)) : SendsAlike s (steppedOn s id q) id :=
  .of_keeps (steppedOn_keeps s id q) (by decide) (by decide) (by decide) steppedOn_part (chanCfg_of_keeps (steppedOn_keeps s id q) (by decide) id)
    (by rw [steppedOn_core])

/-! ## Local loads and stores -/

theorem loadLocal_clean (u : State) (o : Core) (a : Nat) (g : Core → Core) : loadLocal u id o .none a g = u.setCore id (g (u.core id)) := by
  unfold loadLocal
  split_ifs with h1 h2
  · rfl
  · cases h2
  · rfl

theorem load_result {rd ra : SReg} {imm : Int} {n : Nat} (h : BundleGoes s id .none b q ⟨.nop, none, .ld rd ra imm n false⟩) :
    Runs (.bundleIssue id .none []) s [.cores] fun t =>
      t.core id = (advanced s.fresh (s.core id) q).setS rd (BitVec.ofNat 64 ((s.core id).localRead (effAddr (s.core id) ra imm) n)) := by
  have heff : mEffect (steppedOn s id q) id (readCore s id) .none [] (.ld rd ra imm n false) =
      (steppedOn s id q).setCore id (((steppedOn s id q).core id).setS rd
        (BitVec.ofNat 64 ((s.core id).localRead (effAddr (s.core id) ra imm) n))) := by
    have haddr : effAddr (readCore s id) ra imm = effAddr (s.core id) ra imm := rfl
    have hread : (readCore s id).localRead (effAddr (s.core id) ra imm) n = (s.core id).localRead (effAddr (s.core id) ra imm) n := rfl
    unfold mEffect
    simp only [haddr, hread, loadLocal_clean, Bool.false_eq_true, if_false]
  refine ⟨_, h.mem.trans (congrArg Host.Outcome.next heff), (steppedOn_keeps s id q).trans (setS_keeps_quiet _ _ _ _), ?_⟩
  beta_reduce
  rw [setCore_core_same, steppedOn_core]

theorem preLocal_ok {c : Core} {a n align : Nat} {store : Bool} (h : a % align = 0) (hm : (if store then storeMapped a n else loadMapped a n) = true)
    (ht : store = true → tileOverlap c a n = false) : preLocal c a n align store = .ok := by
  unfold preLocal
  rw [if_neg (not_not.mpr h), hm, if_neg (by simp), if_neg]
  rw [Bool.and_eq_true, not_and, Bool.not_eq_true]
  exact ht

theorem store_result {rd ra : SReg} {imm : Int} {n : Nat} (h : BundleGoes s id upset b q ⟨.nop, none, .st rd ra imm n⟩)
    (hlow : effAddr (s.core id) ra imm < 0xC0000) :
    Runs (.bundleIssue id upset []) s [.cores] fun t =>
      t.core id = { advanced s.fresh (s.core id) q with
          ldm := writeBytes (s.core id).ldm (effAddr (s.core id) ra imm) (natBytes n ((s.core id).s rd).toNat) } := by
  have hwrite : ((steppedOn s id q).core id).localWrite (effAddr (readCore s id) ra imm) (natBytes n ((readCore s id).s rd).toNat) =
      { advanced s.fresh (s.core id) q with
        ldm := writeBytes (s.core id).ldm (effAddr (s.core id) ra imm) (natBytes n ((s.core id).s rd).toNat) } := by
    rw [steppedOn_core]
    exact if_pos hlow
  have heff : mEffect (steppedOn s id q) id (readCore s id) upset [] (.st rd ra imm n) = (steppedOn s id q).setCore id
      { advanced s.fresh (s.core id) q with
        ldm := writeBytes (s.core id).ldm (effAddr (s.core id) ra imm) (natBytes n ((s.core id).s rd).toNat) } :=
    congrArg ((steppedOn s id q).setCore id) hwrite
  refine ⟨_, h.mem.trans (congrArg Host.Outcome.next heff), (steppedOn_keeps s id q).trans (setCore_keeps_quiet ?_ ?_ ?_), setCore_core_same _ _ _⟩
  · rw [steppedOn_core]
  · rw [steppedOn_core]
  · rw [steppedOn_core]

/-! ## Global stores -/

/-- A global store to device memory joins the outstanding accesses. -/
theorem globalStore_pushed {rd ra : SReg} {imm : Int} {n : Nat} {i : Fin 16} (h : BundleGoes s id upset b q ⟨.nop, none, .gst rd ra imm n false⟩)
    (hslot : slotFind (s.core id) .valid (some (effAddr (s.core id) ra imm)) = some i) (hkind : ((s.core id).slots.get i).kind ≠ 1) :
    Runs (.bundleIssue id upset []) s [.cores] fun t =>
      (t.core id).access.length = (s.core id).access.length + 1 ∧ (t.core id).pc = (s.core id).pc + 16 ∧
      ((t.core id).access.getLast?.map fun a => (a.va, a.data, a.host)) =
        some (BitVec.ofNat 48 (effAddr (s.core id) ra imm), ((s.core id).s rd).setWidth 2048, false) := by
  have hhost : decide (((s.core id).slots.get i).kind = 1) = false := decide_eq_false hkind
  have hpush : ∃ a : GAccess, a.va = BitVec.ofNat 48 (effAddr (s.core id) ra imm) ∧ a.data = ((s.core id).s rd).setWidth 2048 ∧ a.host = false ∧
      mEffect (steppedOn s id q) id (readCore s id) upset [] (.gst rd ra imm n false) = (steppedOn s id q).setCore id
        { (steppedOn s id q).core id with access := ((steppedOn s id q).core id).access ++ [a] } := by
    show ∃ a : GAccess, _ ∧ _ ∧ _ ∧ pushAccess (steppedOn s id q) id (readCore s id) (.store n) (effAddr (s.core id) ra imm) (((s.core id).s rd).setWidth 2048)
      false = _
    unfold pushAccess
    rw [show slotFind (readCore s id) .valid (some (effAddr (s.core id) ra imm)) = some i from hslot]
    simp only [show decide (((readCore s id).slots.get i).kind = 1) = false from hhost, Bool.false_eq_true, if_false]
    exact ⟨_, rfl, rfl, rfl, rfl⟩
  obtain ⟨a, hva, hdata, hdev, heff⟩ := hpush
  refine ⟨_, h.mem.trans (congrArg Host.Outcome.next heff), (steppedOn_keeps s id q).trans (setCore_keeps_quiet rfl rfl rfl), ?_⟩
  beta_reduce
  rw [setCore_core_same, steppedOn_core]
  refine ⟨List.length_append, rfl, ?_⟩
  rw [List.getLast?_concat, Option.map_some, hva, hdata, hdev]

theorem preGlobal_ok {c : Core} {va n : Nat} {need : BitVec 3} {i : Fin 16} (hal : va % n = 0) (hlt : va < 2 ^ 48)
    (hslot : slotFind c .valid (some va) = some i) (hr : (c.slots.get i).rights &&& need = need) (hroom : c.storesOut < 64) :
    preGlobal c va n need true = .ok := by
  unfold preGlobal
  rw [if_neg (not_not.mpr hal), if_neg (by omega), hslot]
  simp only [hr, ne_eq, not_true_eq_false, if_false, if_true, Nat.not_le.mpr hroom]

end

end Sys2Proof
end

section
/-! PROOFS. Bundles that send, receive and acquire (05 R187 to R193; 04 R141), and a core that an exception halts (05 R210, R211). -/

namespace Sys2Proof

open Sys2Proof.Machine

section
variable {s t : State} {id : Fin 256} {upset : Upset} {b : BitVec 128} {q : List (BitVec 128)} {m : MIns} {d : MsgDesc} {rd ra : SReg}

/-! ## SEND -/

theorem preM_send (hal : ((s.core id).s ra).toNat % 16 = 0) (hin : ((s.core id).s ra).toNat + 16 ≤ ldmSize) :
    preM (s.core id) (.send rd ra) = .ok :=
  (if_neg (not_not.mpr hal)).trans (if_neg (by omega))

/-- A SEND with a fare starts: the fare is spent, and the payload is read out (04 R123; 05 R188). -/
theorem beginSend_after (s : State) (id : Fin 256) (rd : SReg) (d : MsgDesc) :
    Keeps [.cores, .ports] s (beginSend s id rd d) ∧
      (beginSend s id rd d).core id =
        { (s.core id).setChan d.chan { (s.core id).chan d.chan with fares := ((s.core id).chan d.chan).fares - 1 } with sending := some (rd, d) } := by
  unfold beginSend
  extract_lets dst s1 s2
  have hk1 : Keeps [.cores] s s1 := setCore_keeps_quiet rfl rfl rfl
  have hk2 : Keeps [.ports] s1 s2 := by
    simp only [s2]
    split_ifs
    · exact Keeps.refl _ _
    · split
      · exact xlReserve_keeps _ _ _ (by decide) (Keeps.refl _ s1)
      · exact Keeps.refl _ _
  have hcore : s2.core id = (s.core id).setChan d.chan { (s.core id).chan d.chan with fares := ((s.core id).chan d.chan).fares - 1 } :=
    (hk2.core (by decide) id).trans (spendFare_core s id d.chan)
  have hk3 : Keeps [.cores] s2 (s2.setCore id { s2.core id with sending := some (rd, d) }) := setCore_keeps_quiet rfl rfl rfl
  refine ⟨(hk1.mono (by decide)).trans ((hk2.mono (by decide)).trans (hk3.mono (by decide))),
    (setCore_core_same _ _ _).trans (congrArg (fun c : Core => { c with sending := some (rd, d) }) hcore)⟩

theorem send_begins (h : BundleGoes s id .none b q ⟨.nop, none, .send rd ra⟩) (hd : d = readDesc (s.core id) ((s.core id).s ra).toNat)
    (h0 : sendCheck s id d = 0) (hc : canSend s id d = true) :
    Runs (.bundleIssue id .none []) s [.cores, .ports] fun t =>
      ((t.core id).chan d.chan).fares = ((s.core id).chan d.chan).fares - 1 ∧ (t.core id).sending = some (rd, d) ∧ (t.core id).st = .run := by
  set u := steppedOn s id q with hu
  have hlike : SendsAlike s u id := sendsAlike_stepped s id q
  have heff : mEffect u id (readCore s id) .none [] (.send rd ra) = beginSend u id rd d := by
    have hread : readDesc (readCore s id) ((readCore s id).s ra).toNat = d := hd.symm
    have hn : noteUpset u id .none ((readCore s id).s ra).toNat = u := rfl
    show sendIssue u id (readCore s id) .none rd ra = _
    unfold sendIssue
    simp only [hread, hn, reduceCtorEq, if_false, hlike.check, h0, ne_eq, not_true_eq_false, hlike.can, hc, if_true]
  obtain ⟨hk, hcore⟩ := beginSend_after u id rd d
  have hchan : (u.core id).chan d.chan = (s.core id).chan d.chan := by rw [hu, steppedOn_core]; rfl
  refine ⟨_, h.mem.trans (congrArg Host.Outcome.next heff), ((steppedOn_keeps s id q).mono (by decide)).trans hk, ?_⟩
  beta_reduce
  rw [hcore, hchan]
  refine ⟨?_, rfl, ?_⟩
  · exact congrArg Chan.fares (chan_setChan (u.core id) d.chan _)
  · exact steppedOn_run (canIssue_run h.issues.1)

theorem chan_setS (c : Core) (r : SReg) (x : W64) (ch : BitVec 4) : (c.setS r x).chan ch = c.chan ch := by
  unfold Core.setS
  split_ifs <;> rfl

/-- A SEND with a bad descriptor is counted, and its status is 1 (05 R188). -/
theorem send_refused (h : BundleGoes s id .none b q ⟨.nop, none, .send rd ra⟩) (hd : d = readDesc (s.core id) ((s.core id).s ra).toNat)
    (h1 : sendCheck s id d = 1) :
    Runs (.bundleIssue id .none []) s [.cores] fun t =>
      ((t.core id).chan d.chan).status = 1 ∧ ((t.core id).chan d.chan).fares = ((s.core id).chan d.chan).fares ∧
      ((t.core id).chan d.chan).sent = ((s.core id).chan d.chan).sent + 1 ∧ (rd ≠ 0 → (t.core id).s rd = 1) ∧ (t.core id).st = .run := by
  set u := steppedOn s id q with hu
  set c := (u.core id).setChan d.chan { (u.core id).chan d.chan with status := BitVec.ofNat 4 1, sent := ((u.core id).chan d.chan).sent + 1 } with hcdef
  have hlike : SendsAlike s u id := sendsAlike_stepped s id q
  have heff : mEffect u id (readCore s id) .none [] (.send rd ra) = (u.setCore id c).setCore id (((u.setCore id c).core id).setS rd 1) := by
    have hread : readDesc (readCore s id) ((readCore s id).s ra).toNat = d := hd.symm
    have hn : noteUpset u id .none ((readCore s id).s ra).toNat = u := rfl
    have hst : sendStatus u id d 1 = u.setCore id c := rfl
    show sendIssue u id (readCore s id) .none rd ra = _
    unfold sendIssue
    simp only [hread, hn, reduceCtorEq, if_false, hlike.check, h1, ne_eq, Nat.succ_ne_self, not_false_eq_true, if_true, hst]
    rfl
  have hchan : (u.core id).chan d.chan = (s.core id).chan d.chan := by rw [hu, steppedOn_core]; rfl
  have hkc : Keeps [.cores] u (u.setCore id c) := setCore_keeps_quiet rfl rfl rfl
  refine ⟨_, h.mem.trans (congrArg Host.Outcome.next heff), (steppedOn_keeps s id q).trans (hkc.trans (setS_keeps_quiet _ _ _ _)), ?_⟩
  beta_reduce
  rw [setCore_core_same, setCore_core_same, chan_setS, setS_st, hcdef, chan_setChan, hchan]
  exact ⟨rfl, rfl, rfl, fun hrd => setS_s _ hrd, steppedOn_run (canIssue_run h.issues.1)⟩

/-! ## RECV -/

/-- RECV of a berth that is full: its word, and the tag (04 R124). -/
theorem recv_result {i : Nat} (h : BundleGoes s id upset b q ⟨.nop, none, .recv rd ra⟩) (hm : ((s.core id).s ra).setWidth 16 ≠ (0 : W16))
    (hi : (s.core id).lowestFull (((s.core id).s ra).setWidth 16) = some i) :
    Runs (.bundleIssue id upset []) s [.cores] fun t => t.core id = recvDone (advanced s.fresh (s.core id) q) rd (some i) := by
  have hquiet : ∀ c : Core, (recvDone c rd (some i)).st = c.st ∧ (recvDone c rd (some i)).cause = c.cause ∧
      (recvDone c rd (some i)).target = c.target := fun c => by
    unfold recvDone
    dsimp only
    obtain ⟨h1, h2, h3⟩ := setS_keeps (c.setS rd (BitVec.ofNat 64 (i + (c.berths.get (fin 16 i)).chan.toNat * 16 + (c.berths.get (fin 16 i)).src.toNat * 256 +
      (c.berths.get (fin 16 i)).len.toNat * 2 ^ 32))) (rd + 1) ((c.berths.get (fin 16 i)).tag.setWidth 64)
    obtain ⟨k1, k2, k3⟩ := setS_keeps c rd (BitVec.ofNat 64 (i + (c.berths.get (fin 16 i)).chan.toNat * 16 + (c.berths.get (fin 16 i)).src.toNat * 256 +
      (c.berths.get (fin 16 i)).len.toNat * 2 ^ 32))
    exact ⟨h1.trans k1, h2.trans k2, h3.trans k3⟩
  set u := steppedOn s id q with hu
  have hcore : u.core id = advanced s.fresh (s.core id) q := steppedOn_core s id q
  have hdone : waitCore (u.core id) (.recv rd (((s.core id).s ra).setWidth 16)) = some (recvDone (advanced s.fresh (s.core id) q) rd (some i)) := by
    have hlow : (advanced s.fresh (s.core id) q).lowestFull (((s.core id).s ra).setWidth 16) = some i := hi
    rw [hcore]
    refine (if_neg hm).trans ?_
    rw [hlow]
    rfl
  have heff : mEffect u id (readCore s id) upset [] (.recv rd ra) = u.setCore id (recvDone (advanced s.fresh (s.core id) q) rd (some i)) := by
    show startWait u id (.recv rd (((s.core id).s ra).setWidth 16)) = _
    unfold startWait
    simp only [hdone]
  obtain ⟨hst, hcause, htarget⟩ := hquiet (advanced s.fresh (s.core id) q)
  refine ⟨_, h.mem.trans (congrArg Host.Outcome.next heff), (steppedOn_keeps s id q).trans (setCore_keeps_quiet ?_ ?_ ?_), setCore_core_same _ _ _⟩
  · rw [hst, hcore]
  · rw [hcause, hcore]
  · rw [htarget, hcore]

/-! ## ACQ -/

/-- A lock that a core has taken from FREE. -/
def heldBy (l : Lock) (id : Fin 256) : Lock :=
  { l with st := .held, owner := BitVec.ofNat 8 id.val, unknown := false, last := some (BitVec.ofNat 8 id.val) }

/-- ACQ of a lock that is FREE and that nobody is queued for (04 R141). -/
theorem acquire_free {n : Fin 1024} (hok : lockAllowed s id n = true) (hst : (s.lock n).st = .free) (hq : (s.lock n).queue = []) :
    acquire s id n false = (cntPreg (s.setLock n (heldBy (s.lock n) id)) .ml 0x118 1,
      some (acqWord 0 false 0 (s.lock n).epoch.toNat)) := by
  have htake : takeLock (s.lock n) id = (heldBy (s.lock n) id, acqWord 0 false 0 (s.lock n).epoch.toNat) :=
    if_neg (by rw [hst]; decide)
  have hnext : nextQueued (id :: (s.lock n).queue) (rotFrom (s.lock n)) = some id := by rw [hq]; rfl
  unfold acquire
  simp only [hok, hst, hnext, htake, Bool.not_true, Bool.false_eq_true, reduceCtorEq, if_false, if_true]

theorem acq_taken {imm : Nat} {n : Fin 1024} (h : BundleGoes s id upset b q ⟨.nop, none, .acq rd ra imm false⟩) (hn : n = lockNo (s.core id) ra imm)
    (hok : lockAllowed s id n = true) (hst : (s.lock n).st = .free) (hq : (s.lock n).queue = []) :
    Runs (.bundleIssue id upset []) s [.page .ml, .cores, .locks] fun t =>
      t.core id = (advanced s.fresh (s.core id) q).setS rd (acqWord 0 false 0 (s.lock n).epoch.toNat) ∧ (t.lock n).st = .held ∧
      (t.lock n).owner = BitVec.ofNat 8 id.val ∧ preg t .ml 0x118 = satAdd (preg s .ml 0x118) 1 := by
  set u := steppedOn s id q with hu
  have hku : Keeps [.cores] s u := steppedOn_keeps s id q
  have hcore : u.core id = advanced s.fresh (s.core id) q := steppedOn_core s id q
  have hlock : u.lock n = s.lock n := hku.lock (by decide) n
  have hok' : lockAllowed u id n = true := by
    rw [← hok]
    unfold lockAllowed lockPart Machine.enabled
    rw [hku.preg (p := .ml) (by decide) (by omega) (by simp) (by simp), hku.preg64 (p := .ml) (by decide) (by omega) (by simp) (by simp), steppedOn_part]
  have hacq := acquire_free (s := u) (id := id) hok' (by rw [hlock]; exact hst) (by rw [hlock]; exact hq)
  rw [hlock] at hacq
  set l := heldBy (s.lock n) id with hl
  set w := cntPreg (u.setLock n l) .ml 0x118 1 with hw
  have hkl : Keeps [.locks] u (u.setLock n l) := setLock_keeps' _ _ _
  have hkc : Keeps [.page .ml] (u.setLock n l) w := cntPreg_keeps _ _ _ (by omega) (by decide) (Keeps.refl _ _)
  have hkw : Keeps [.page .ml, .cores, .locks] s w := (hku.mono (by decide)).trans ((hkl.mono (by decide)).trans (hkc.mono (by decide)))
  have hcorew : w.core id = advanced s.fresh (s.core id) q := (hkc.core (by decide) id).trans ((hkl.core (by decide) id).trans hcore)
  have hlockw : w.lock n = l := (hkc.lock (by decide) n).trans (setLock_lock _ _ _)
  have hcount : preg w .ml 0x118 = satAdd (preg s .ml 0x118) 1 := by
    rw [hw, preg_cntPreg _ _ (by omega) (by omega), if_pos ⟨rfl, rfl⟩, hkl.preg (p := .ml) (by decide) (by omega) (by simp) (by simp),
      hku.preg (p := .ml) (by decide) (by omega) (by simp) (by simp)]
  have heff : mEffect u id (readCore s id) upset [] (.acq rd ra imm false) =
      w.setCore id ((w.core id).setS rd (acqWord 0 false 0 (s.lock n).epoch.toNat)) := by
    have hno : lockNo (readCore s id) ra imm = n := hn.symm
    unfold mEffect
    simp only [hno, hacq]
  have hks : Keeps [.cores] w (w.setCore id ((w.core id).setS rd (acqWord 0 false 0 (s.lock n).epoch.toNat))) := setS_keeps_quiet _ _ _ _
  clear_value w
  refine ⟨_, h.mem.trans (congrArg Host.Outcome.next heff), hkw.trans (hks.mono (by decide)), ?_, ?_, ?_, ?_⟩
  · rw [setCore_core_same, hcorew]
  · rw [hks.lock (by decide) n, hlockw]
    rfl
  · rw [hks.lock (by decide) n, hlockw]
    rfl
  · rw [hks.preg (p := .ml) (by decide) (by omega) (by simp) (by simp), hcount]

/-! ## Exceptions -/

/-- A core that an exception halts: HALT with its cause and address, no waits; PARK stands if the core was to stay off. -/
def haltedCore (s : State) (id : Fin 256) (cause : Byte) (pc : W16) : Core :=
  { s.core id with st := .halt, exc := cause, excPc := pc, waits := [], cause := 0, target := 0
                   parking := (s.core id).parking && bit (preg s (.gc id) 0x110) 17 }

theorem leaveQueues_keeps' (s : State) (id : Fin 256) : Keeps [.locks] s (leaveQueues s id) := leaveQueues_keeps _ (by decide) (Keeps.refl _ s)

theorem leaveQueues_idle (h : (s.core id).waits = []) : leaveQueues s id = s := by
  unfold leaveQueues
  simp only [h, List.foldl_nil]

theorem haltCore_eq (s : State) (id : Fin 256) (cause : Byte) (pc : W16) (corr : Nat) : (haltCore s id cause pc corr).core id = haltedCore s id cause pc := by
  have hkq := leaveQueues_keeps' s id
  have hcore : (leaveQueues s id).core id = s.core id := hkq.core (by decide) id
  have hreg : preg (leaveQueues s id) (.gc id) 0x110 = preg s (.gc id) 0x110 := hkq.preg (by simp) (by omega) (by simp) (by simp)
  unfold haltCore
  extract_lets s1 c s2
  have hk : Keeps [.page .gc] s2 (raiseInt (raiseErrX s2 (.gc id) 0 0 corr (decide (cause = 0x05) || decide (cause = 0x09)) false) (.gc id) 16) :=
    raiseInt_keeps _ _ (by simp [classOf]) (raiseErrX_keeps _ _ _ _ _ _ (by simp [classOf]) (Keeps.refl _ _))
  rw [hk.core (by decide) id, setCore_core_same]
  unfold haltedCore
  simp only [c, s1, hcore, hreg]

/-- A core without waits leaves no queue: the locks are as they were. -/
theorem haltCore_keeps_idle (cause : Byte) (pc : W16) (corr : Nat) (h : (s.core id).waits = []) :
    Keeps [.page .sd, .page .gc, .cores, .sd] s (haltCore s id cause pc corr) := by
  unfold haltCore
  rw [leaveQueues_idle h]
  exact raiseInt_keeps _ _ (by simp [classOf]) (raiseErrX_keeps _ _ _ _ _ _ (by simp [classOf]) ((setCore_keeps' _ _ _).mono (by decide)))

theorem haltCore_int (s : State) (id : Fin 256) (cause : Byte) (pc : W16) (corr : Nat) :
    bit (preg (haltCore s id cause pc corr) (.gc id) 0x30) 16 = true := by
  unfold haltCore raiseInt
  rw [irqEdge_preg _ _ _ (by omega) (by simp), preg_orPreg _ _ (by omega) (by omega), if_pos ⟨rfl, rfl⟩, bit_or_one32 _ (by omega)]

/-- A bundle's exception, with no load outstanding: the core halts, and nothing of the bundle is done (05 R211). -/
theorem issueFault_halts (cause : Byte) (hl : (s.core id).loadsOut = 0) :
    Keeps [.page .sd, .page .gc, .cores, .locks, .sd] s (issueFault s id q cause) ∧
      (issueFault s id q cause).core id = haltedCore (s.setCore id { s.core id with lastPc := (s.core id).pc }) id cause (s.core id).pc ∧
      bit (preg (issueFault s id q cause) (.gc id) 0x10) 0 = true ∧ bit (preg (issueFault s id q cause) (.gc id) 0x30) 16 = true := by
  have hk : Keeps [.cores] s (s.setCore id { s.core id with lastPc := (s.core id).pc }) := setCore_keeps_quiet rfl rfl rfl
  have heq : issueFault s id q cause = haltCore (s.setCore id { s.core id with lastPc := (s.core id).pc }) id cause (s.core id).pc :=
    if_neg (by rw [hl]; exact Nat.lt_irrefl 0)
  rw [heq]
  refine ⟨haltCore_keeps _ _ _ _ (by decide) (hk.mono (by decide)), haltCore_eq _ _ _ _ _, ?_, haltCore_int _ _ _ _ _⟩
  rw [haltCore_stat, bit_or_one32 _ (by omega)]

/-- With a load outstanding issue stalls, the queue as fetched. -/
theorem issueFault_stalls (cause : Byte) (hl : 0 < (s.core id).loadsOut) : issueFault s id q cause = s.setCore id { s.core id with fetchQ := q } :=
  if_pos hl

end

end Sys2Proof
end

section
/-! PROOFS. The bundles of the memory and message slots that complete, and those that end in an exception (05 R181 to R195, R210, R211), with what
completes after its bundle: MMAs and SENDs (05 R204; 04 R123). -/

namespace Sys2Proof

open Sys2Proof.Machine

section
variable {s t : State} {id : Fin 256} {upset : Upset} {b : BitVec 128} {q : List (BitVec 128)} {m : MIns} {d : MsgDesc} {rd ra : SReg}

/-! ## A bundle that raises an exception -/

/-- A bundle at the issue point that does not decode, or whose S or M slot may not act. -/
theorem exec_faults {cause : Byte} (hi : Issues s id b q) (hu : upset ≠ .imemParity)
    (h : decodeBundle b = none ∧ cause = 0x01 ∨
      ∃ x, decodeBundle b = some x ∧ (preS (s.core id) x.s = .exc cause ∨ preS (s.core id) x.s = .ok ∧ preM (s.core id) x.m = .exc cause)) :
    execBundleIssue id upset [] s = .next (issueFault s id (b :: q) cause) := by
  obtain ⟨hcan, hsync, htop⟩ := hi
  rw [execBundleIssue_one, issueOne_issue hsync]
  unfold issue
  simp only [hcan, hu, htop, List.headD_cons, Bool.true_eq_false, if_false]
  rcases h with ⟨hdec, rfl⟩ | ⟨x, hdec, hS | ⟨hS, hM⟩⟩
  · simp only [hdec]
  · simp only [hdec, hS]
  · simp only [hdec, hS, hM]

/-- What a halted core keeps. -/
theorem haltedCore_kept (s : State) (id : Fin 256) (cause : Byte) (pc : W16) :
    (haltedCore s id cause pc).st = .halt ∧ (haltedCore s id cause pc).exc = cause ∧ (haltedCore s id cause pc).excPc = pc ∧
      (haltedCore s id cause pc).sreg = (s.core id).sreg ∧ (haltedCore s id cause pc).ldm = (s.core id).ldm ∧
      (haltedCore s id cause pc).waits = [] ∧ (haltedCore s id cause pc).chans = (s.core id).chans ∧
      (haltedCore s id cause pc).mmas = (s.core id).mmas ∧ (haltedCore s id cause pc).sending = (s.core id).sending :=
  ⟨rfl, rfl, rfl, rfl, rfl, rfl, rfl, rfl, rfl⟩

/-- The core after a bundle's exception (05 R211). -/
structure Faulted (s t : State) (id : Fin 256) (cause : Byte) : Prop where
  keeps : Keeps [.page .sd, .page .gc, .cores, .locks, .sd] s t
  st : (t.core id).st = .halt
  exc : (t.core id).exc = cause
  excPc : (t.core id).excPc = (s.core id).pc
  sreg : (t.core id).sreg = (s.core id).sreg
  ldm : (t.core id).ldm = (s.core id).ldm
  waits : (t.core id).waits = []
  err : bit (preg t (.gc id) 0x10) 0 = true
  int : bit (preg t (.gc id) 0x30) 16 = true

theorem issueFault_faulted (cause : Byte) (hl : (s.core id).loadsOut = 0) : Faulted s (issueFault s id q cause) id cause := by
  obtain ⟨hk, hcore, herr, hint⟩ := issueFault_halts (q := q) cause hl
  obtain ⟨hst, hexc, hpc, hsreg, hldm, hwaits, -⟩ :=
    haltedCore_kept (s.setCore id { s.core id with lastPc := (s.core id).pc }) id cause (s.core id).pc
  rw [← hcore] at hst hexc hpc hsreg hldm hwaits
  rw [setCore_core_same] at hsreg hldm
  exact ⟨hk, hst, hexc, hpc, hsreg, hldm, hwaits, herr, hint⟩

/-- A command that halts the core with a bundle's exception. -/
theorem runs_faulted {cause : Byte} (h : execBundleIssue id upset [] s = .next t) (hf : Faulted s t id cause) :
    Runs (.bundleIssue id upset []) s [.page .gc, .page .sd, .cores, .locks, .sd, .page .ml] fun t =>
      (t.core id).st = .halt ∧ (t.core id).exc = cause ∧ (t.core id).excPc = (s.core id).pc ∧ (t.core id).sreg = (s.core id).sreg ∧
      (t.core id).ldm = (s.core id).ldm ∧ (t.core id).waits = [] ∧ bit (preg t (.gc id) 0x10) 0 = true :=
  ⟨t, h, hf.keeps.mono (by decide), hf.st, hf.exc, hf.excPc, hf.sreg, hf.ldm, hf.waits, hf.err⟩

theorem preM_misaligned {imm : Int} {n : Nat} (h : effAddr (s.core id) ra imm % n ≠ 0) : preM (s.core id) (.st rd ra imm n) = .exc 0x03 := if_pos h

theorem store_misaligned {imm : Int} {n : Nat} (hi : Issues s id b q) (hd : decodeBundle b = some ⟨.nop, none, .st rd ra imm n⟩)
    (hu : upset ≠ .imemParity) (hal : effAddr (s.core id) ra imm % n ≠ 0) :
    execBundleIssue id upset [] s = .next (issueFault s id (b :: q) 0x03) :=
  exec_faults hi hu (.inr ⟨_, hd, .inr ⟨rfl, preM_misaligned hal⟩⟩)

/-- A fault with a load outstanding only stalls. -/
theorem store_stalled {imm : Int} {n : Nat} (hi : Issues s id b q) (hd : decodeBundle b = some ⟨.nop, none, .st rd ra imm n⟩)
    (hu : upset ≠ .imemParity) (hl : 0 < (s.core id).loadsOut) (hal : effAddr (s.core id) ra imm % n ≠ 0) :
    Runs (.bundleIssue id upset []) s [.cores] fun t => t.core id = { s.core id with fetchQ := b :: q } :=
  ⟨_, (store_misaligned hi hd hu hal).trans (congrArg Host.Outcome.next (issueFault_stalls 0x03 hl)), setCore_keeps_quiet rfl rfl rfl,
    setCore_core_same _ _ _⟩

/-! ## An uncorrectable word -/

/-- A core without waits that an uncorrectable word halts (05 R210). -/
theorem dataUe_halts (u : State) (a : Nat) (pc : W16) (hw : (u.core id).waits = []) :
    Keeps [.page .sd, .page .gc, .cores, .sd] u (haltCore (noteUpset u id .uncorrectable a) id 0x04 pc) ∧
      (haltCore (noteUpset u id .uncorrectable a) id 0x04 pc).core id = haltedCore (noteUpset u id .uncorrectable a) id 0x04 pc ∧
      bit (preg (haltCore (noteUpset u id .uncorrectable a) id 0x04 pc) (.gc id) 0x10) 6 = true := by
  have hn : Keeps [.page .gc] u (noteUpset u id .uncorrectable a) := noteUpset_keeps' _ _ _ _
  have herr : bit (preg (noteUpset u id .uncorrectable a) (.gc id) 0x10) 6 = true := raiseErr_bit _ _ _ (by omega)
  refine ⟨(hn.mono (by decide)).trans (haltCore_keeps_idle _ _ _ (by rw [noteUpset_core]; exact hw)), haltCore_eq _ _ _ _ _, ?_⟩
  rw [haltCore_stat, bit_or, herr, Bool.true_or]

theorem send_broken (h : BundleGoes s id .uncorrectable b q ⟨.nop, none, .send rd ra⟩) (hw : (s.core id).waits = []) :
    Runs (.bundleIssue id .uncorrectable []) s [.page .gc, .page .sd, .cores, .sd] fun t =>
      (t.core id).st = .halt ∧ (t.core id).exc = 0x04 ∧ (t.core id).excPc = (s.core id).pc ∧ (t.core id).sreg = (s.core id).sreg ∧
      (t.core id).chans = (s.core id).chans ∧ bit (preg t (.gc id) 0x10) 6 = true := by
  set u := steppedOn s id q with hu
  have hcore : u.core id = advanced s.fresh (s.core id) q := steppedOn_core s id q
  obtain ⟨hk, hhalt, herr⟩ := dataUe_halts (id := id) u ((s.core id).s ra).toNat (s.core id).pc (by rw [hcore]; exact hw)
  have heff : mEffect u id (readCore s id) .uncorrectable [] (.send rd ra) =
      haltCore (noteUpset u id .uncorrectable ((s.core id).s ra).toNat) id 0x04 (s.core id).pc := by
    show sendIssue u id (readCore s id) .uncorrectable rd ra = _
    unfold sendIssue
    simp only [if_true]
    rfl
  obtain ⟨hst, hexc, hpc, hsreg, -, -, hchans, -⟩ :=
    haltedCore_kept (noteUpset u id .uncorrectable ((s.core id).s ra).toNat) id 0x04 (s.core id).pc
  rw [← hhalt, noteUpset_core, hcore] at hsreg hchans
  rw [← hhalt] at hst hexc hpc
  exact ⟨_, h.mem.trans (congrArg Host.Outcome.next heff), ((steppedOn_keeps s id q).mono (by decide)).trans (hk.mono (by decide)), hst, hexc, hpc,
    hsreg, hchans, herr⟩

/-! ## Parity of IMEM -/

/-- A bundle of bad parity halts the core once its loads are done (05 R210, R211). -/
theorem imemParity_halts (hcan : canIssue s id = true) (hsync : Wait.sync ∉ (s.core id).waits) (hl : (s.core id).loadsOut = 0) :
    ∃ t, execBundleIssue id .imemParity [] s = .next t ∧ Faulted s t id 0x0A ∧ bit (preg t (.gc id) 0x10) 7 = true := by
  set u := raiseErr s (.gc id) 7 (s.core id).pc.toNat with hu
  have hku : Keeps [.page .gc] s u := raiseErr_keeps _ _ _ (by simp [classOf]) (Keeps.refl _ s)
  have hexec : execBundleIssue id .imemParity [] s = .next (haltCore u id 0x0A (s.core id).pc) := by
    rw [execBundleIssue_one, issueOne_issue hsync]
    unfold issue
    simp only [hcan, hl, Bool.true_eq_false, if_false, if_true, Nat.lt_irrefl, ← hu]
  have hcore : u.core id = s.core id := hku.core (by decide) id
  have hhalt := haltCore_eq u id 0x0A (s.core id).pc 0
  obtain ⟨hst, hexc, hpc, hsreg, hldm, hwaits, -⟩ := haltedCore_kept u id 0x0A (s.core id).pc
  rw [← hhalt] at hst hexc hpc hsreg hldm hwaits
  rw [hcore] at hsreg hldm
  have herr : bit (preg u (.gc id) 0x10) 7 = true := raiseErr_bit _ _ _ (by omega)
  refine ⟨_, hexec, ⟨haltCore_keeps _ _ _ _ (by decide) (hku.mono (by decide)), hst, hexc, hpc, hsreg, hldm, hwaits, ?_, haltCore_int _ _ _ _ _⟩, ?_⟩
  · rw [haltCore_stat, bit_or_one32 _ (by omega)]
  · rw [haltCore_stat, bit_or, herr, Bool.true_or]

/-! ## MMAs -/

theorem noteUpset_quiet (u : State) (a : Nat) (h : upset = .none ∨ upset = .imemParity) : noteUpset u id upset a = u := by
  rcases h with rfl | rfl <;> rfl

theorem mma_completes {x : Mma} {rest : List Mma} (hclk : clockStopped s id = false) (hm : (s.core id).mmas = x :: rest)
    (hu : upset = .none ∨ upset = .imemParity) :
    Runs (.mmaComplete id upset) s [.cores] fun t =>
      t.core id = { s.core id with mmas := rest, acc := mmaRun (s.core id).ldm (s.core id).acc x } := by
  have hne : upset ≠ .uncorrectable := by rcases hu with rfl | rfl <;> simp
  have hexec : execMmaComplete id upset s =
      .next (s.setCore id { s.core id with mmas := rest, acc := mmaRun (s.core id).ldm (s.core id).acc x }) := by
    unfold execMmaComplete mmaDone
    simp only [hclk, hm, hne, Bool.false_eq_true, if_false, noteUpset_quiet _ _ hu]
  exact ⟨_, hexec, setCore_keeps_quiet rfl rfl rfl, setCore_core_same _ _ _⟩

/-- A core in RUN, WAIT or PARKED is halted by what comes late. -/
theorem haltLate_halts {cause : Byte} {pc : W16} (h : (s.core id).st ∈ [CoreState.run, .wait, .parked]) :
    haltLate s id cause pc = haltCore s id cause pc := by
  unfold haltLate
  simp only [List.mem_cons, List.not_mem_nil, or_false] at h
  rcases h with h | h | h <;> rw [h]

/-- The core without an MMA whose operands were uncorrectable: its accumulator holds free values (05 R210). -/
def mmaLost (s : State) (id : Fin 256) (x : Mma) (rest : List Mma) : Core :=
  { s.core id with mmas := rest, acc := accBuild (s.core id).acc x.acc fun r j => Config.freeLane (s.fresh + 64 * r + j) }

theorem mmaLost_kept (s : State) (id : Fin 256) (x : Mma) (rest : List Mma) :
    (mmaLost s id x rest).st = (s.core id).st ∧ (mmaLost s id x rest).cause = (s.core id).cause ∧
      (mmaLost s id x rest).target = (s.core id).target ∧ (mmaLost s id x rest).waits = (s.core id).waits ∧ (mmaLost s id x rest).mmas = rest := by
  unfold mmaLost
  exact ⟨rfl, rfl, rfl, rfl, rfl⟩

theorem mma_broken {x : Mma} {rest : List Mma} (hclk : clockStopped s id = false) (hm : (s.core id).mmas = x :: rest) (hw : (s.core id).waits = [])
    (hst : (s.core id).st ∈ [CoreState.run, .wait, .parked]) :
    Runs (.mmaComplete id .uncorrectable) s [.page .sd, .page .gc, .cores, .sd] fun t =>
      (t.core id).st = .halt ∧ (t.core id).exc = 0x04 ∧ (t.core id).excPc = x.pc ∧ (t.core id).mmas = rest ∧
      bit (preg t (.gc id) 0x10) 6 = true := by
  set c := mmaLost s id x rest with hc
  obtain ⟨hcst, hccause, hctarget, hcw, hcm⟩ := mmaLost_kept s id x rest
  rw [← hc] at hcst hccause hctarget hcw hcm
  rw [hw] at hcw
  have hexec : execMmaComplete id .uncorrectable s =
      .next (haltLate (noteUpset (issuedAt s id 4096 c) id .uncorrectable x.a.toNat) id 0x04 x.pc) := by
    unfold execMmaComplete mmaDone
    simp only [hclk, hm, Bool.false_eq_true, if_false, if_true]
    rfl
  have hcore := issuedAt_core s id 4096 c
  have hku : Keeps [.cores] s (issuedAt s id 4096 c) := issuedAt_keeps 4096 hcst.symm hccause.symm hctarget.symm
  generalize issuedAt s id 4096 c = u at hexec hcore hku
  rw [haltLate_halts (by rw [noteUpset_core, hcore, hcst]; exact hst)] at hexec
  obtain ⟨hk, hhalt, herr⟩ := dataUe_halts (id := id) u x.a.toNat x.pc (by rw [hcore]; exact hcw)
  obtain ⟨hst', hexc, hpc, -, -, -, -, hmmas, -⟩ := haltedCore_kept (noteUpset u id .uncorrectable x.a.toNat) id 0x04 x.pc
  rw [← hhalt, noteUpset_core, hcore, hcm] at hmmas
  rw [← hhalt] at hst' hexc hpc
  exact ⟨_, hexec, (hku.mono (by decide)).trans hk, hst', hexc, hpc, hmmas, herr⟩

end

end Sys2Proof
end

section
/-! PROOFS. The readout of a SEND done (04 R123), the end of a SYNC (05 R186), and the bundles put together. -/

namespace Sys2Proof

open Sys2Proof.Machine

section
variable {s t : State} {id : Fin 256} {upset : Upset} {d : MsgDesc} {rd : SReg}

/-! ## SEND_COMPLETE -/

/-- The core whose SEND has been read out. -/
def readOut (s : State) (id : Fin 256) : Core := { s.core id with sending := none }

theorem setS_sending (c : Core) (r : SReg) (x : W64) : (c.setS r x).sending = c.sending := by
  unfold Core.setS
  split_ifs <;> rfl

theorem sent_local (hclk : clockStopped s id = false) (hs : (s.core id).sending = some (rd, d))
    (hdst : (chanDest (chanCfg s id d.chan)).toNat / 256 = fleetId s) (hu : upset = .none ∨ upset = .imemParity) :
    Runs (.sendComplete id upset) s [.page .gc, .cores, .mesh] fun t =>
      (t.core id).sending = none ∧ ((t.core id).chan d.chan).fares = ((s.core id).chan d.chan).fares ∧
      ((t.core id).chan d.chan).sent = ((s.core id).chan d.chan).sent + 1 ∧ ((t.core id).chan d.chan).status = 0 ∧
      (rd ≠ 0 → (t.core id).s rd = 0) ∧ t.mesh.length = s.mesh.length + 1 ∧
      (t.mesh.getLast?.map fun m => (m.chan, m.tag, m.len, m.data)) =
        some (d.chan, d.tag, d.len, readBytes (s.core id).ldm d.src.toNat d.len.toNat) := by
  have hne : upset ≠ .uncorrectable := by rcases hu with rfl | rfl <;> simp
  set u := s.setCore id (readOut s id) with hu'
  have hku : Keeps [.cores] s u := setCore_keeps_quiet rfl rfl rfl
  have hcore : u.core id = readOut s id := setCore_core_same _ _ _
  have hcfg : chanCfg u id d.chan = chanCfg s id d.chan := chanCfg_of_keeps hku (by decide) _ _
  have hfleet : fleetId u = fleetId s := by
    unfold fleetId
    rw [hku.preg (p := .dev) (by decide) (by omega) (by simp) (by simp)]
  obtain ⟨hkl, hlaunched, m, hmesh, htag, hlen, hdata, hchan⟩ :=
    launch_mesh (s := u) (id := id) (d := d) (by rw [hcfg, hfleet]; exact hdst) true
  have hexec : execSendComplete id upset s = .next ((launch u id d true).setCore id (((launch u id d true).core id).setS rd 0)) := by
    unfold execSendComplete sendDone
    simp only [hclk, hs, hne, Bool.false_eq_true, if_false, noteUpset_quiet _ _ hu]
    rfl
  have hks : Keeps [.cores] (launch u id d true) ((launch u id d true).setCore id (((launch u id d true).core id).setS rd 0)) := setS_keeps_quiet _ _ _ _
  have hmeshT : ((launch u id d true).setCore id (((launch u id d true).core id).setS rd 0)).mesh = s.mesh ++ [m] :=
    (hks .mesh (by decide)).trans (hmesh.trans (congrArg (· ++ [m]) (hku .mesh (by decide))))
  refine ⟨_, hexec, (hku.mono (by decide)).trans (hkl.trans (hks.mono (by decide))), ?_⟩
  beta_reduce
  rw [hmeshT, setCore_core_same, setS_sending, chan_setS, hlaunched, chan_setChan, hcore, List.length_append, List.getLast?_concat, Option.map_some,
    hchan, htag, hlen, hdata, hcore]
  exact ⟨rfl, rfl, rfl, rfl, fun hrd => setS_s _ hrd, rfl, rfl⟩

theorem send_unreadable (hclk : clockStopped s id = false) (hs : (s.core id).sending = some (rd, d)) (hst : (s.core id).st = .run)
    (hw : (s.core id).waits = []) :
    Runs (.sendComplete id .uncorrectable) s [.page .gc, .page .sd, .cores, .ports, .sd] fun t =>
      (t.core id).sending = none ∧ (t.core id).st = .halt ∧ (t.core id).exc = 0x04 ∧ (t.core id).excPc = (s.core id).lastPc ∧
      (t.core id).chans = (s.core id).chans ∧ bit (preg t (.gc id) 0x10) 6 = true := by
  set u := s.setCore id (readOut s id) with hu'
  have hku : Keeps [.cores] s u := setCore_keeps_quiet rfl rfl rfl
  have hcore : u.core id = readOut s id := setCore_core_same _ _ _
  set n := noteUpset u id .uncorrectable d.src.toNat with hn
  have hkn : Keeps [.page .gc] u n := noteUpset_keeps' _ _ _ _
  have herr : bit (preg n (.gc id) 0x10) 6 = true := by
    rw [hn]
    exact raiseErr_bit _ _ _ (by omega)
  have hkx : Keeps [.ports] n (xlCancel n id) := xlCancel_keeps _ (by decide) (Keeps.refl _ n)
  have hcorex : (xlCancel n id).core id = readOut s id := (hkx.core (by decide) id).trans ((hkn.core (by decide) id).trans hcore)
  have hexec : execSendComplete id .uncorrectable s = .next (haltLate (xlCancel n id) id 0x04 (s.core id).lastPc) := by
    unfold execSendComplete sendDone
    simp only [hclk, hs, Bool.false_eq_true, if_false, if_true]
    rfl
  have hrun : ((xlCancel n id).core id).st = .run := by rw [hcorex]; exact hst
  rw [haltLate_halts (by rw [hrun]; simp)] at hexec
  have hhalt := haltCore_eq (xlCancel n id) id 0x04 (s.core id).lastPc 0
  obtain ⟨hst', hexc, hpc, -, -, -, hchans, -, hsending⟩ := haltedCore_kept (xlCancel n id) id 0x04 (s.core id).lastPc
  rw [← hhalt] at hst' hexc hpc
  rw [← hhalt, hcorex] at hchans hsending
  have hkh := haltCore_keeps_idle (s := xlCancel n id) (id := id) 0x04 (s.core id).lastPc 0 (by rw [hcorex]; exact hw)
  refine ⟨_, hexec, (hku.mono (by decide)).trans ((hkn.mono (by decide)).trans ((hkx.mono (by decide)).trans (hkh.mono (by decide)))), hsending, hst', hexc, hpc,
    hchans, ?_⟩
  rw [haltCore_stat, bit_or, hkx.preg (p := .gc id) (by simp) (by omega) (by simp) (by simp), herr, Bool.true_or]

/-! ## SYNC -/

/-- A core that waits for a SYNC alone goes on (05 R186). -/
theorem sync_ends (hclk : clockStopped s id = false) (hw : (s.core id).waits = [.sync]) (hst : (s.core id).st = .wait) :
    Runs (.bundleIssue id upset []) s [.page .sd, .cores, .sd] fun t =>
      t.core id = { s.core id with st := .run, waits := [], cause := 0, target := 0, fetchQ := [] } := by
  have hexec : execBundleIssue id upset [] s = .next (setWaits s id { s.core id with fetchQ := [] } []) := by
    have hsync : (((s.core id).waits.contains .sync) && !(clockStopped s id)) = true := by
      rw [hw, hclk]
      decide
    have hleft : ((s.core id).waits.filter fun w => decide (w ≠ .sync)) = [] := by
      rw [hw]
      decide
    rw [execBundleIssue_one]
    unfold issueOne
    rw [if_pos hsync]
    unfold syncEnd
    simp only [hleft]
  refine ⟨_, hexec, setWaits_keeps _ _ _ (by decide) (Keeps.refl _ s), ?_⟩
  beta_reduce
  unfold setWaits
  rw [setCore_core_same]
  simp only [hst, if_true]

end

theorem and_one32_of_bit {x : W32} {k : Nat} (h : bit x k = true) : x &&& one32 k = one32 k := by
  refine BitVec.eq_of_getLsbD_eq fun i hi => ?_
  have hone := one32_bit k i
  unfold bit at h hone
  rw [BitVec.getLsbD_and, hone]
  by_cases e : i = k
  · rw [e, h, Bool.true_and]
  · rw [decide_eq_false e, Bool.and_false, Bool.and_false]

/-- Settles O22. -/
theorem memoryAndMessageBundles : Obligations.MemoryAndMessageBundles := by
  unfold Obligations.MemoryAndMessageBundles
  refine ⟨?load, ?store, ?misaligned, ?global, ?begins, ?refused, ?recv, ?acq, ?stalled, ?broken⟩
  case load =>
    intro s core upset b q rd ra imm n hi hd hu hn hal hin
    subst hn
    exact load_result ⟨hi, hd, hu, rfl, preLocal_ok hal (decide_eq_true hin) (by simp)⟩
  case store =>
    intro s core upset b q rd ra imm n hi hd hu hal hin ht
    have hlow : effAddr (s.core core) ra imm < 0xC0000 := by
      rcases Nat.eq_zero_or_pos n with rfl | hn
      · rw [Nat.mod_zero] at hal
        omega
      · omega
    have hmap : storeMapped (effAddr (s.core core) ra imm) n = true := by
      unfold storeMapped
      rw [decide_eq_true hin, Bool.true_or]
    exact store_result ⟨hi, hd, hu, rfl, preLocal_ok hal hmap fun _ => ht⟩ hlow
  case misaligned =>
    intro s core upset b q rd ra imm n hi hd hu hl hal
    exact runs_faulted (store_misaligned hi hd hu hal) (issueFault_faulted 0x03 hl)
  case global =>
    intro s core upset b q rd ra imm n i hi hd hu hal hlt hslot hr hk hroom
    exact globalStore_pushed ⟨hi, hd, hu, rfl, preGlobal_ok hal hlt hslot hr hroom⟩ hslot hk
  case begins =>
    intro s core upset b q rd ra d hi hd hu hn hal hin hdesc h0 hc
    subst hn
    exact send_begins ⟨hi, hd, hu, rfl, preM_send hal hin⟩ hdesc h0 hc
  case refused =>
    intro s core upset b q rd ra d hi hd hu hn hal hin hdesc h1
    subst hn
    exact send_refused ⟨hi, hd, hu, rfl, preM_send hal hin⟩ hdesc h1
  case recv => exact fun s core upset b q rd ra i hi hd hu hm hlow => recv_result ⟨hi, hd, hu, rfl, rfl⟩ hm hlow
  case acq => exact fun s core upset b q rd ra imm n hi hd hu hn hok hst hq => acq_taken ⟨hi, hd, hu, rfl, rfl⟩ hn hok hst hq
  case stalled => exact fun s core upset b q rd ra imm n hi hd hu hl hal => store_stalled hi hd hu hl hal
  case broken =>
    intro s core upset b q rd ra hi hd hu hw hal hin
    subst hu
    exact send_broken ⟨hi, hd, by simp, rfl, preM_send hal hin⟩ hw

/-- Settles O23. -/
theorem bundleEnds : Obligations.BundleEnds := by
  unfold Obligations.BundleEnds
  refine ⟨?illegal, ?trap, ?parity, fun s core upset m rest hclk hm hu => mma_completes hclk hm hu,
    fun s core m rest hclk hm hw hst => mma_broken hclk hm hw hst, fun s core upset rd d hclk hs hdst hu => sent_local hclk hs hdst hu,
    fun s core rd d hclk hs hst hw => send_unreadable hclk hs hst hw, fun s core upset hclk hw hst => sync_ends hclk hw hst⟩
  case illegal =>
    intro s core upset b q hi hd hu hl
    have hf := issueFault_faulted (q := b :: q) 0x01 hl
    refine ⟨_, exec_faults hi hu (.inl ⟨hd, rfl⟩), hf.keeps.mono (by decide), hf.st, hf.exc, hf.excPc, hf.sreg, hf.ldm, hf.waits, hf.err, ?_⟩
    exact and_one32_of_bit hf.int
  case trap =>
    intro s core upset b q imm hi hd hu hl
    exact runs_faulted (exec_faults hi hu (.inr ⟨_, hd, .inl rfl⟩)) (issueFault_faulted _ hl)
  case parity =>
    intro s core hcan hsync hl
    obtain ⟨t, hexec, hf, h7⟩ := imemParity_halts hcan hsync hl
    exact ⟨t, hexec, hf.keeps.mono (by decide), hf.st, hf.exc, hf.excPc, hf.sreg, hf.ldm, hf.waits, hf.err, h7⟩

end Sys2Proof
end

section
/-! PROOFS. A mailbox's answer takes its line out of the caches (06 R246, 08 R321). -/

namespace Sys2Proof

open Sys2Proof.Machine

/-- The line of the first response of mailbox 0, at host address 0. -/
def responseLine : Line := ⟨true, 0⟩

/-- Slot 0 of mailbox 0: a SUBMIT whose descriptor address is not a multiple of 128. -/
def misplacedSubmit : List Byte := [2, 0, 0, 0, 0, 0, 0, 0, 1]

/-- Mailbox 0 is enabled and its slot 0 holds the SUBMIT; cluster 0 has a copy of the response's line, of which its home keeps track. -/
def responseCached : State :=
  let s0 := setPreg (setPreg { State.reset with bar4 := writeBytes [] 0 misplacedSubmit } .fm 8 1) .fm 0x100 1
  let s1 := s0.setSlice 0 { s0.slice 0 with lines := [(2 ^ 46, ⟨none, 0, 0, 1, none, false, false, .none, some .s⟩)] }
  s1.setCl 0 { s1.cl 0 with cc := { (s1.cl 0).cc with lines := [(2 ^ 46, ⟨.s, 0, 0, 0⟩)] } }

theorem responseCached_takes : Takes responseCached 0 0 1 2 := by decide +kernel

theorem responseCached_misplaced : sArg1 (slotAfter responseCached 0 0 1) % 128 ≠ 0 := by decide +kernel

theorem responseCached_copy : ccLine responseCached 0 responseLine = some ⟨.s, 0, 0, 0⟩ := by decide +kernel

/-- The answer is a write of the whole line, which no cache keeps a copy of after it. -/
theorem responseCached_answered :
    ccLine (takeSlot responseCached 0 0 1 fun t d _ => runSubmit t 0 d 0 []) 0 responseLine = none := by
  decide +kernel

/-- Refutes O27: the answer to a SUBMIT whose address is not a multiple of 128 is a whole host line, of which every copy in the device goes
(08 R321): with a copy in a cluster's cache the clusters are not what they were. -/
theorem not_mailboxCommands : ¬ Obligations.MailboxCommands := by
  rintro ⟨-, -, -, -, -, -, -, hmisplaced, -⟩
  obtain ⟨t, hexec, -, -, hclusters⟩ :=
    hmisplaced responseCached 0 0 1 0 [] responseCached_takes responseCached_misplaced
  have hslot : slotIs responseCached 0 0 0x02 = true := by decide +kernel
  have ht : takeSlot responseCached 0 0 1 (fun u d _ => runSubmit u 0 d 0 []) = t := by
    have htaken : execMbSubmit 0 0 1 0 [] responseCached = .next t := hexec
    unfold execMbSubmit at htaken
    rw [if_pos hslot] at htaken
    injection htaken
  have hsame : ccLine t 0 responseLine = ccLine responseCached 0 responseLine := by
    unfold ccLine State.cl
    rw [hclusters]
  rw [← ht, responseCached_answered, responseCached_copy] at hsame
  exact absurd hsame (by decide)

end Sys2Proof
end

section
/-! PROOFS. A command taken from a mailbox slot: its number joins the window, it runs, and it is answered (06 R245, R246, R252). -/

namespace Sys2Proof

open Sys2Proof.Machine

section
variable {s u : State} {mb : Fin 16} {slot : Fin 512} {w : BitVec 64} {op : Nat}

/-! ## The sequence number -/

/-- Bytes 120 to 127 of the slot are the word just written, whose low half is the sequence number. -/
theorem slotAfter_seq (s : State) (mb : Fin 16) (slot : Fin 512) (w : BitVec 64) :
    BitVec.ofNat 16 (fld (slotAfter s mb slot w) 960 16) = w.setWidth 16 := by
  set m := writeBytes s.bar4 (slotBase mb slot + 120) (natBytes 8 w.toNat) with hm
  have hword : bytesNat (readBytes m (slotBase mb slot + 120) 8) = w.toNat := by
    have hread := readBytes_writeBytes (natBytes 8 w.toNat) s.bar4 (slotBase mb slot + 120)
    rw [natBytes_length, ← hm] at hread
    rw [hread, bytesNat_natBytes]
    exact Nat.mod_eq_of_lt w.isLt
  refine BitVec.eq_of_getLsbD_eq fun i hi => ?_
  have hbyte : w.toNat.testBit i = (sget byteDefault m (slotBase mb slot + 120 + i / 8)).getLsbD (i % 8) := by
    rw [← hword, bytesNat_testBit, readBytes_getD _ _ _ (by omega)]
  unfold slotAfter slotBits fld
  rw [BitVec.getLsbD_ofNat, BitVec.getLsbD_setWidth, Nat.testBit_mod_two_pow, Nat.testBit_div_two_pow, BitVec.toNat_ofNat, Nat.testBit_mod_two_pow,
    bytesNat_testBit, readBytes_getD _ _ _ (by omega), show (i + 960) / 8 = 120 + i / 8 by omega, show (i + 960) % 8 = i % 8 by omega, ← Nat.add_assoc]
  have hbit : w.getLsbD i = w.toNat.testBit i := rfl
  rw [hbit, hbyte]
  simp [hi, show i + 960 < 1024 by omega, hm]

/-! ## The take -/

/-- What a fresh number leaves before its command runs. -/
theorem takenAt_keeps (s : State) (mb : Fin 16) (slot : Fin 512) (w : BitVec 64) :
    Keeps [.bar4, .page .fm, .mailboxes] s (takenAt s mb slot w) :=
  State.setMailbox_keeps _ _ (by decide) (cntPreg_keeps _ _ _ (by unfold mbOff; omega) (by decide) (put_bar4_keeps _ (by decide) (Keeps.refl _ s)))

theorem takenAt_mailbox (s : State) (mb : Fin 16) (slot : Fin 512) (w : BitVec 64) :
    (takenAt s mb slot w).mailbox mb = accept (s.mailbox mb) (w.setWidth 16) .fresh := by
  unfold takenAt State.setMailbox State.mailbox
  exact Vector.getElem_set_self ..

/-- The number just accepted stands first in the window, without a status. -/
theorem accept_head (x : Mailbox) (q : W16) : (accept x q .fresh).results.head? = some (q, none) := by
  unfold accept
  have hself : decide ((q - q).toNat ≤ 1023) = true := by
    rw [BitVec.sub_self]
    decide
  simp only [if_true]
  rw [List.filter_cons_of_pos (by exact hself), List.head?_cons]

/-- What a command came to is answered at once, or joins the unanswered ones. -/
def replied (mb : Fin 16) (slot : Fin 512) (q : W16) (r : Ran) : State :=
  match r.reply with
  | .now st result => answer r.st mb slot q true [] st result
  | .later kind => mbPump (addTaken r.st mb ⟨slot, q, kind, true, [], false⟩) mb

/-- What a take does with a fresh number. -/
theorem takeSlot_fresh (h : Takes s mb slot w op) (run : State → BitVec 1024 → W16 → Ran) :
    takeSlot s mb slot w run = replied mb slot (w.setWidth 16) (run (takenAt s mb slot w) (slotAfter s mb slot w) (w.setWidth 16)) := by
  obtain ⟨-, hon, hfresh, hfrz, hres⟩ := h
  have hbox : (cntPreg { s with bar4 := writeBytes s.bar4 (slotBase mb slot + 120) (natBytes 8 w.toNat) } .fm (mbOff mb + 0x14) 1).mailbox mb
      = s.mailbox mb := rfl
  have hseq := slotAfter_seq s mb slot w
  have htaken : takenAt s mb slot w = (cntPreg { s with bar4 := writeBytes s.bar4 (slotBase mb slot + 120) (natBytes 8 w.toNat) } .fm
      (mbOff mb + 0x14) 1).setMailbox mb (accept (s.mailbox mb) (w.setWidth 16) .fresh) := rfl
  have hslot : slotBits { s with bar4 := writeBytes s.bar4 (slotBase mb slot + 120) (natBytes 8 w.toNat) } mb slot = slotAfter s mb slot w := rfl
  rw [htaken]
  unfold takeSlot
  rw [if_neg (by rw [hon]; decide)]
  generalize slotAfter s mb slot w = d at *
  generalize hs0 : { s with bar4 := writeBytes s.bar4 (slotBase mb slot + 120) (natBytes 8 w.toNat) } = s0 at *
  generalize hs1 : cntPreg s0 .fm (mbOff mb + 0x14) 1 = s1 at *
  generalize w.setWidth 16 = q at *
  dsimp only
  rw [hslot, hseq, hbox, hfresh]
  dsimp only
  have hrec : decide (SeqClass.fresh ≠ SeqClass.old) = true := rfl
  rw [hrec, if_pos (c := true = true) rfl, if_neg (c := s.frz.on = true) (by rw [hfrz]; exact Bool.false_ne_true),
    if_neg (c := sReserved d = true) (by rw [hres]; exact Bool.false_ne_true)]
  rfl

/-- A command that is answered at once. -/
theorem takeSlot_now (h : Takes s mb slot w op) {run : State → BitVec 1024 → W16 → Ran} {st result : Nat}
    (hr : run (takenAt s mb slot w) (slotAfter s mb slot w) (w.setWidth 16) = ⟨u, .now st result⟩) :
    takeSlot s mb slot w run = answer u mb slot (w.setWidth 16) true [] st result :=
  (takeSlot_fresh h run).trans (congrArg (replied mb slot (w.setWidth 16)) hr)

/-- A command that waits joins the unanswered ones. -/
theorem takeSlot_later (h : Takes s mb slot w op) {run : State → BitVec 1024 → W16 → Ran} {kind : TakenKind}
    (hr : run (takenAt s mb slot w) (slotAfter s mb slot w) (w.setWidth 16) = ⟨u, .later kind⟩) :
    takeSlot s mb slot w run = mbPump (addTaken u mb ⟨slot, w.setWidth 16, kind, true, [], false⟩) mb :=
  (takeSlot_fresh h run).trans (congrArg (replied mb slot (w.setWidth 16)) hr)

/-! ## The answer -/

/-- An answer records its status in the window. -/
theorem answer_answered {st result : Nat} (h : (u.mailbox mb).results.head? = some (w.setWidth 16, none)) :
    Answered (answer u mb slot (w.setWidth 16) true [] st result) mb w (BitVec.ofNat 16 st) := by
  set x := recordStatus (u.mailbox mb) (w.setWidth 16) (BitVec.ofNat 16 st) with hx
  have hset : (u.setMailbox mb x).mailbox mb = x := by
    unfold State.setMailbox State.mailbox
    exact Vector.getElem_set_self ..
  have hk : Keeps [.page .ep, .clusters, .slices, .cxl, .frz] (u.setMailbox mb x) (answer u mb slot (w.setWidth 16) true [] st result) := by
    unfold answer
    exact respond_keeps _ _ _ _ _ _ _ (by decide) (Keeps.refl _ _)
  unfold Answered
  rw [mailbox_of_keeps hk (by decide), hset, hx]
  obtain ⟨rest, hrest⟩ := List.head?_eq_some_iff.mp h
  simp [recordStatus, hrest]

/-- A command that leaves the mailboxes, and is answered at once, has its status in the window. -/
theorem takenAt_answered {P : List Part} {st result : Nat} (hk : Keeps P (takenAt s mb slot w) u) (hp : Part.mailboxes ∉ P) :
    Answered (answer u mb slot (w.setWidth 16) true [] st result) mb w (BitVec.ofNat 16 st) :=
  answer_answered (by rw [mailbox_of_keeps hk hp, takenAt_mailbox, accept_head])

/-- What an answer may change. -/
theorem answer_keeps' (u : State) (mb : Fin 16) (slot : Fin 512) (q : W16) (recorded : Bool) (dups : List (Fin 512)) (st result : Nat) :
    Keeps [.page .ep, .clusters, .mailboxes, .slices, .cxl, .frz] u (answer u mb slot q recorded dups st result) :=
  answer_keeps _ _ _ _ _ _ _ _ (by decide) (Keeps.refl _ u)

/-- A mailbox put back as it was. -/
theorem setMailbox_same (u : State) (mb : Fin 16) : u.setMailbox mb (u.mailbox mb) = u := by
  unfold State.setMailbox State.mailbox
  rw [show u.mailboxes.set mb (u.mailboxes.get mb) = u.mailboxes from Vector.set_getElem_self ..]

/-! ## A command that waits behind INVALIDATEs -/

/-- INVALIDATEs are answered by their drains alone: looking at them changes nothing. -/
theorem takenStep_invalidates {l : List Taken} (h : (l.all fun t => decide (t.kind = .invalidate)) = true) (a : State × List Taken) :
    l.foldl (takenStep mb) a = (a.1, a.2 ++ l) := by
  induction l generalizing a with
  | nil => simp
  | cons t l ih =>
    simp only [List.all_cons, Bool.and_eq_true, decide_eq_true_eq] at h
    have hstep : takenStep mb a t = (a.1, a.2 ++ [t]) := by simp [takenStep, h.1]
    rw [List.foldl_cons, hstep, ih h.2]
    simp

/-- A mailbox with INVALIDATEs alone stays as it is. -/
theorem mbPump_invalidates (h : ((u.mailbox mb).taken.all fun t => decide (t.kind = .invalidate)) = true) : mbPump u mb = u := by
  unfold mbPump
  rw [takenStep_invalidates h]
  have hsame : u.setMailbox mb { u.mailbox mb with taken := [] ++ (u.mailbox mb).taken } = u := by
    rw [List.nil_append]
    exact setMailbox_same u mb
  simp only [hsame, ite_self]

end

end Sys2Proof
end

section
/-! PROOFS. Writes of the translation tables and INVALIDATE, taken from a mailbox (07 R287, R288, R298, R299). -/

namespace Sys2Proof

open Sys2Proof.Machine

section
variable {s t u : State} {mb : Fin 16} {slot : Fin 512} {w : BitVec 64} {gen : W32} {va n : Nat} {big : Bool} {es : List W64}

/-! ## TBL_WRITE -/

/-- The reason looks at the tables and at the VT page alone. -/
theorem tblReason_of_keeps {P : List Part} (hk : Keeps P s t) (hvt : Part.page .vt ∉ P) (hctxs : Part.ctxs ∉ P) :
    tblReason t mb gen va n big es = tblReason s mb gen va n big es := by
  have htables : t.ctxs = s.ctxs := hk .ctxs hctxs
  have hon : ctxOn t mb.val = ctxOn s mb.val := by
    unfold ctxOn enabled
    rw [hk.preg (p := .vt) hvt (by omega) (by simp) (by simp), hk.preg (p := .vt) hvt (by omega) (by simp) (by simp)]
  have hused : ∀ c, l2Used { t with ctxs := c } = l2Used { s with ctxs := c } := fun _ => rfl
  unfold tblReason
  rw [htables, hon]
  simp only [hused]

theorem tblCommit_accepted {payload : Nat} (h : tblReason s mb gen va n big (tblEntries payload n) = none) :
    tblCommit s mb gen va n big payload =
      ({ s with ctxs := s.ctxs.set mb { tblPut (s.ctxs.get mb) (va / pageBytes big) big (tblEntries payload n) with gen := gen } }, true, gen, 0) := by
  unfold tblCommit
  dsimp only
  rw [h]

theorem tblCommit_rejected {payload r : Nat} (h : tblReason s mb gen va n big (tblEntries payload n) = some r) :
    ∃ u, tblCommit s mb gen va n big payload = (u, false, (s.ctxs.get mb).gen, r) ∧ Keeps [.page .vt] s u := by
  unfold tblCommit
  dsimp only
  rw [h]
  refine ⟨_, rfl, ?_⟩
  exact keeps_ite (fun _ => raiseErr_keeps _ _ _ (by decide) (Keeps.refl _ s)) fun _ =>
    keeps_ite (fun _ => raiseErr_keeps _ _ _ (by decide) (Keeps.refl _ s)) fun _ => Keeps.refl _ s

/-- Before the command runs the tables stand as they did. -/
theorem takenAt_tblReason : tblReason (takenAt s mb slot w) mb gen va n big es = tblReason s mb gen va n big es :=
  tblReason_of_keeps (takenAt_keeps s mb slot w) (by decide) (by decide)

/-- TBL_WRITE is taken as the table write of its slot. -/
theorem execTblWrite_takes (h : Takes s mb slot w 0x10) :
    execTblWrite mb slot w s = .next (takeSlot s mb slot w fun t d _ => runTbl t mb d) :=
  congrArg Host.Outcome.next (if_pos h.1)

theorem execInvalidate_takes (h : Takes s mb slot w 0x11) :
    execInvalidate mb slot w s = .next (takeSlot s mb slot w fun t d q => runInvalidate t mb slot q d) :=
  congrArg Host.Outcome.next (if_pos h.1)

theorem tblWrite_accepted (h : Takes s mb slot w 0x10) {d : BitVec 1024} (hd : d = slotAfter s mb slot w)
    (hr : tblReason s mb (BitVec.ofNat 32 (sArg0 d)) (sArg1 d) (sArg2 d % 16) (decide (sArg2 d / 256 % 2 = 1)) (tblEntries (sPayload d) (sArg2 d % 16)) = none) :
    ∃ t, execTblWrite mb slot w s = .next t ∧ Answered t mb w 0 ∧
      t.ctxs = s.ctxs.set mb { tblPut (s.ctxs.get mb) (sArg1 d / pageBytes (decide (sArg2 d / 256 % 2 = 1))) (decide (sArg2 d / 256 % 2 = 1))
        (tblEntries (sPayload d) (sArg2 d % 16)) with gen := BitVec.ofNat 32 (sArg0 d) } := by
  subst hd
  have hcommit := tblCommit_accepted ((takenAt_tblReason (slot := slot) (w := w)).trans hr)
  refine ⟨_, (execTblWrite_takes h).trans (congrArg Host.Outcome.next (takeSlot_now h (by unfold runTbl; rw [hcommit]))), ?_, ?_⟩
  · exact takenAt_answered (P := [.ctxs]) (put_ctxs_keeps _ (by decide) (Keeps.refl _ _)) (by decide)
  · exact (answer_keeps' _ mb slot (w.setWidth 16) true [] _ _) .ctxs (by decide)

theorem tblWrite_rejected (h : Takes s mb slot w 0x10) {d : BitVec 1024} (hd : d = slotAfter s mb slot w) {r : Nat}
    (hr : tblReason s mb (BitVec.ofNat 32 (sArg0 d)) (sArg1 d) (sArg2 d % 16) (decide (sArg2 d / 256 % 2 = 1)) (tblEntries (sPayload d) (sArg2 d % 16)) = some r) :
    ∃ t, execTblWrite mb slot w s = .next t ∧ Answered t mb w 2 ∧ t.ctxs = s.ctxs := by
  subst hd
  obtain ⟨u, hcommit, hk⟩ := tblCommit_rejected ((takenAt_tblReason (slot := slot) (w := w)).trans hr)
  refine ⟨_, (execTblWrite_takes h).trans (congrArg Host.Outcome.next (takeSlot_now h (by unfold runTbl; rw [hcommit]))), ?_, ?_⟩
  · exact takenAt_answered hk (by decide)
  · rw [(answer_keeps' _ mb slot (w.setWidth 16) true [] _ _) .ctxs (by decide), hk .ctxs (by decide)]
    exact (takenAt_keeps s mb slot w) .ctxs (by decide)

/-! ## INVALIDATE -/

theorem addTaken_mailbox (u : State) (mb : Fin 16) (x : Taken) :
    (addTaken u mb x).mailbox mb = { u.mailbox mb with taken := (u.mailbox mb).taken ++ [x] } := by
  unfold addTaken State.setMailbox
  exact Vector.getElem_set_self ..

/-- The range is out of bounds: answered at once. -/
theorem invalidate_refused (h : Takes s mb slot w 0x11) (hr : invRange (slotAfter s mb slot w) = none) :
    ∃ t, execInvalidate mb slot w s = .next t ∧ Answered t mb w 2 ∧ t.drains = s.drains := by
  refine ⟨_, (execInvalidate_takes h).trans (congrArg Host.Outcome.next (takeSlot_now h (by unfold runInvalidate; rw [hr]))), ?_, ?_⟩
  · exact takenAt_answered (Keeps.refl [] _) (by decide)
  · rw [(answer_keeps' _ mb slot (w.setWidth 16) true [] _ _) .drains (by decide)]
    exact (takenAt_keeps s mb slot w) .drains (by decide)

/-- An INVALIDATE begins its drain at once, and waits for its end with those before it. -/
theorem invalidate_begins (h : Takes s mb slot w 0x11) {a b : Nat} (hr : invRange (slotAfter s mb slot w) = some (a, b))
    (hall : ((s.mailbox mb).taken.all fun u => decide (u.kind = .invalidate)) = true) :
    execInvalidate mb slot w s = .next (addTaken (startDrain (takenAt s mb slot w) mb a b (.answer mb slot (w.setWidth 16)) true) mb
      ⟨slot, w.setWidth 16, .invalidate, true, [], false⟩) := by
  rw [execInvalidate_takes h, takeSlot_later h (kind := .invalidate) (u := startDrain (takenAt s mb slot w) mb a b (.answer mb slot (w.setWidth 16)) true)
    (by unfold runInvalidate; rw [hr])]
  refine congrArg Host.Outcome.next (mbPump_invalidates ?_)
  have hbox : (startDrain (takenAt s mb slot w) mb a b (.answer mb slot (w.setWidth 16)) true).mailbox mb
      = accept (s.mailbox mb) (w.setWidth 16) .fresh := takenAt_mailbox s mb slot w
  have htaken : (accept (s.mailbox mb) (w.setWidth 16) .fresh).taken = (s.mailbox mb).taken := rfl
  rw [addTaken_mailbox, hbox, htaken]
  simp [List.all_append, hall]

end

end Sys2Proof
end

section
/-! PROOFS. Drains: how they begin, what they do to mapping slots, and how they end (07 R299, R300, R304, R305, R315). -/

namespace Sys2Proof

open Sys2Proof.Machine

/-! ## The ends of waits leave the mapping slots -/

section
variable {α : Type} {f : Core → α} (hS : ∀ c rd v, f (c.setS rd v) = f c) (hE : ∀ (c : Core) e, f { c with events := e } = f c)
include hS

theorem recvDone_kept (c : Core) (rd : SReg) (b : Option Nat) : f (recvDone c rd b) = f c := by
  cases b <;> exact (hS _ _ _).trans (hS _ _ _)

include hE

/-- The end of a wait writes scalar registers and takes events: it leaves what neither touches. -/
theorem waitCore_kept {c c' : Core} {w : Wait} (h : waitCore c w = some c') : f c' = f c := by
  cases w with
  | recv rd k =>
    rw [waitCore_recv] at h
    split at h
    · exact Option.some.inj h ▸ recvDone_kept hS c rd none
    · obtain ⟨b, -, hb⟩ := Option.map_eq_some_iff.mp h
      exact hb ▸ recvDone_kept hS c rd (some b)
  | event rd k =>
    rw [waitCore_event] at h
    split at h
    · exact Option.some.inj h ▸ hS c rd _
    · split at h
      · exact absurd h (Option.some_ne_none c').symm
      · exact Option.some.inj h ▸ (hE _ _).trans (hS c rd _)
  | eventAll rd k =>
    rw [waitCore_eventAll] at h
    split at h
    · exact Option.some.inj h ▸ (hE _ _).trans (hS c rd _)
    · exact absurd h (Option.some_ne_none c').symm
  | _ => rw [waitCore_plain h (by simp) (by simp) (by simp)]

end

theorem setS_slots (c : Core) (rd : SReg) (v : W64) : (c.setS rd v).slots = c.slots := by
  unfold Core.setS
  split <;> rfl

theorem waitCore_slots {c c' : Core} {w : Wait} (h : waitCore c w = some c') : c'.slots = c.slots :=
  waitCore_kept setS_slots (fun _ _ => rfl) h

theorem setWaits_core_slots (s : State) (id : Fin 256) (c : Core) (ws : List Wait) : ((setWaits s id c ws).core id).slots = c.slots := by
  cases ws <;> simp [setWaits]

theorem setWaits_core_other (s : State) {id j : Fin 256} (c : Core) (ws : List Wait) (h : j ≠ id) : (setWaits s id c ws).core j = s.core j := by
  cases ws <;> exact setCore_core_other s _ h

theorem wakeCore_slots (s : State) (id : Fin 256) : ((wakeCore s id).core id).slots = (s.core id).slots := by
  unfold wakeCore
  simp only
  split
  · rfl
  · rw [setWaits_core_slots]
    refine List.foldlRecOn (motive := fun a : Core × List Wait => a.1.slots = (s.core id).slots) _ _ rfl fun a ha w _ => ?_
    split
    · next c' hc => exact (waitCore_slots hc).trans ha
    · exact ha

theorem wakeCore_core_other (s : State) {id j : Fin 256} (h : j ≠ id) : (wakeCore s id).core j = s.core j := by
  unfold wakeCore
  simp only
  split
  · rfl
  · exact setWaits_core_other s _ _ h

/-! ## The map of partitions and contexts -/

theorem preg_setCore_sd (s : State) (id : Fin 256) (c : Core) {k : Nat} (hk : k < 0x1000) (h : k ≠ 0x118) :
    preg (s.setCore id c) .sd k = preg s .sd k := by
  have hraw : ∀ m : W16, preg { s.setCoreRaw id c with sdChanged := m } .sd k = preg s .sd k := fun _ => rfl
  unfold State.setCore
  simp only
  split_ifs
  · rfl
  · rw [preg_clrPreg _ _ (by omega) hk, if_neg (fun e => h e.2), hraw]
  · exact hraw _

theorem preg_wakeCore_sd (s : State) (id : Fin 256) {k : Nat} (hk : k < 0x1000) (h : k ≠ 0x118) : preg (wakeCore s id) .sd k = preg s .sd k := by
  unfold wakeCore
  simp only
  split
  · rfl
  · unfold setWaits
    split <;> exact preg_setCore_sd s id _ hk h

/-! ## The slots a drain takes -/

section
variable {s t : State} {d : Drain} {id : Fin 256} {k : Fin 16}

/-- One core of a drain's end: its slots of the range become INVALID, and its waits go on. -/
def dropTurn (d : Drain) (t : State) (id : Fin 256) : State :=
  if (drainSlots t id d).isEmpty then t
  else wakeCore (t.setCore id { t.core id with
    slots := (drainSlots t id d).foldl (fun (v : Vector MapSlot 16) (k : Fin 16) => v.set k mapSlotReset) (t.core id).slots }) id

theorem dropSlots_turns (s : State) (d : Drain) : (dropSlots s d).1 = (List.finRange 256).foldl (dropTurn d) s := by
  unfold dropSlots
  suffices h : ∀ (l : List (Fin 256)) (a : State × Nat), (l.foldl (fun (a : State × Nat) id =>
      let ks := drainSlots a.1 id d
      if ks.isEmpty then a
      else
        let c := a.1.core id
        (wakeCore (a.1.setCore id { c with slots := ks.foldl (fun (v : Vector MapSlot 16) (k : Fin 16) => v.set k mapSlotReset) c.slots }) id,
          a.2 + ks.length)) a).1 = l.foldl (dropTurn d) a.1 from h _ _
  intro l
  induction l with
  | nil => exact fun _ => rfl
  | cons i l ih =>
    intro a
    rw [List.foldl_cons, List.foldl_cons, ih]
    refine congrArg (fun u => l.foldl (dropTurn d) u) ?_
    simp only [dropTurn]
    split <;> rfl

/-- A slot among those set has the value set, any other its own. -/
theorem foldl_setSlots (ks : List (Fin 16)) (v : Vector MapSlot 16) (k : Fin 16) :
    (ks.foldl (fun (v : Vector MapSlot 16) (k : Fin 16) => v.set k mapSlotReset) v).get k = if k ∈ ks then mapSlotReset else v.get k := by
  induction ks generalizing v with
  | nil => simp
  | cons j ks ih =>
    rw [List.foldl_cons, ih]
    by_cases hk : k ∈ ks
    · simp [hk]
    · by_cases e : j = k
      · subst e
        simp [Vector.get_eq_getElem]
      · have hv : j.val ≠ k.val := fun h => e (Fin.ext h)
        simp [hk, Ne.symm e, Vector.get_eq_getElem, Vector.getElem_set_ne _ _ hv]

theorem dropTurn_other (t : State) {i j : Fin 256} (h : j ≠ i) : (dropTurn d t i).core j = t.core j := by
  unfold dropTurn
  split
  · rfl
  · rw [wakeCore_core_other _ h, setCore_core_other _ _ h]

theorem dropTurn_sd (t : State) (i : Fin 256) {k : Nat} (hk : k < 0x1000) (h : k ≠ 0x118) : preg (dropTurn d t i) .sd k = preg t .sd k := by
  unfold dropTurn
  split
  · rfl
  · rw [preg_wakeCore_sd _ _ hk h, preg_setCore_sd _ _ _ hk h]

theorem dropTurn_slots (t : State) (i : Fin 256) : ((dropTurn d t i).core i).slots.get k =
    if k ∈ drainSlots t i d then mapSlotReset else (t.core i).slots.get k := by
  unfold dropTurn
  split
  · next hnone => simp [List.isEmpty_iff.mp hnone]
  · rw [wakeCore_slots, setCore_core_same, foldl_setSlots]

/-- The turn of another core leaves the slots a drain takes of this one. -/
theorem drainSlots_dropTurn (t : State) {i j : Fin 256} (h : j ≠ i) : drainSlots (dropTurn d t i) j d = drainSlots t j d := by
  have hpart : partOf (dropTurn d t i) j = partOf t j := by
    unfold partOf partOfCluster preg64
    rw [dropTurn_other t h, dropTurn_sd t i (by omega) (by omega), dropTurn_sd t i (by omega) (by omega)]
  have hctx : ∀ q, ctxOfPart (dropTurn d t i) q = ctxOfPart t q := fun q => by
    unfold ctxOfPart preg64
    rw [dropTurn_sd t i (by omega) (by omega), dropTurn_sd t i (by omega) (by omega)]
  unfold drainSlots
  rw [hpart, hctx, dropTurn_other t h]

/-- At a drain's end each slot that it takes is INVALID. -/
theorem dropSlots_dropped (h : k ∈ drainSlots s id d) : (((dropSlots s d).1.core id).slots.get k) = mapSlotReset := by
  rw [dropSlots_turns]
  have hkeep : ∀ (t : State) (j : Fin 256), (t.core id).slots.get k = mapSlotReset → ((dropTurn d t j).core id).slots.get k = mapSlotReset := by
    intro t j ht
    by_cases e : id = j
    · subst e
      rw [dropTurn_slots, ht, ite_self]
    · rw [dropTurn_other t e, ht]
  have hturn : ∀ t : State, ((t.core id).slots.get k = mapSlotReset ∨ k ∈ drainSlots t id d) → ((dropTurn d t id).core id).slots.get k = mapSlotReset := by
    rintro t (ht | ht)
    · exact hkeep t id ht
    · rw [dropTurn_slots, if_pos ht]
  refine foldl_turns (Q := fun t => (t.core id).slots.get k = mapSlotReset ∨ k ∈ drainSlots t id d) (fun t j ht => ?_) hkeep hturn (List.mem_finRange id)
    (.inr h)
  by_cases e : id = j
  · subst e
    exact .inl (hturn t ht)
  · rw [dropTurn_other t e, drainSlots_dropTurn t e]
    exact ht

/-! ## Beginning and ending -/

theorem vtClear_plain : PlainReg .vt 0x104 (r 0x104 0 [f 0 4 .rw, f 8 1 .go]) := {}

theorem vtCtxEn_plain : PlainReg .vt 0x100 (r 0x100 0 [f 0 16 .rw]) := {}

theorem startDrain_last (u : State) (ctx : Fin 16) (a b : Nat) (e : DrainEnd) (g : Bool) :
    (startDrain u ctx a b e g).drains.getLast? = some ⟨ctx, a, b, (u.ctxs.get ctx).gen, e, g, if g then drainHits u ctx a b else []⟩ := by
  unfold startDrain
  exact List.getLast?_concat

theorem startDrain_length (u : State) (ctx : Fin 16) (a b : Nat) (e : DrainEnd) (g : Bool) :
    (startDrain u ctx a b e g).drains.length = u.drains.length + 1 := by
  simp [startDrain]

/-- CLEAR starts a drain of its whole context. -/
theorem vtClearWrite_starts {v : W32} (h : Starts s .vt 0x104 8 v) : vtClearWrite s v =
    startDrain (pageWrite s .vt 0x104 v).st (fin 16 (fld v 0 4)) 0 lastUnit .clear !(draining (pageWrite s .vt 0x104 v).st (fin 16 (fld v 0 4)).val) := by
  have hgo : (pageWrite s .vt 0x104 v).started 8 = true := started_one vtClear_plain rfl (by omega) 0 h
  unfold vtClearWrite
  exact if_pos hgo

/-- A bit of the low half is told by the field. -/
theorem bit_of_fld_low {x y : W32} (h : fld x 0 16 = fld y 0 16) {m : Nat} (hm : m < 16) : bit x m = bit y m := by
  have hbit : ∀ z : W32, bit z m = (fld z 0 16).testBit m := fun z => by
    unfold fld
    rw [Nat.testBit_mod_two_pow, Nat.testBit_div_two_pow]
    simp [hm, bit, BitVec.getLsbD]
  rw [hbit, hbit, h]

theorem bit_low_half (x : W32) {m : Nat} (hm : m < 16) : bit (BitVec.ofNat 16 (fld x 0 16)) m = bit x m := by
  unfold bit fld
  rw [BitVec.getLsbD_ofNat, Nat.testBit_mod_two_pow, Nat.testBit_div_two_pow]
  simp [hm, BitVec.getLsbD]

/-- The contexts that a write of VT_CTX_EN turns off. -/
theorem vtCtxEn_gone {v : W32} (hu : Unlocked s .vt) (m : Fin 16) :
    (bit (BitVec.ofNat 16 (fld (preg s .vt 0x100) 0 16)) m.val && !(bit (preg (pageWrite s .vt 0x100 v).st .vt 0x100) m.val)) =
      (bit (preg s .vt 0x100) m.val && !(bit v m.val)) := by
  have hnew : fld (preg (pageWrite s .vt 0x100 v).st .vt 0x100) 0 16 = fld v 0 16 :=
    fld_pageWrite vtCtxEn_plain hu (f 0 16 .rw) rfl rfl ⟨.inl rfl, Nat.zero_le _, Nat.le_sub_one_of_lt (fld_lt v 0 16), by decide⟩
  rw [bit_low_half _ m.isLt, bit_of_fld_low hnew m.isLt]

/-- A write that turns no context off is a plain write. -/
theorem vtCtxEnWrite_on {v : W32} (hu : Unlocked s .vt) (h : preg s .vt 0x100 &&& ~~~v = 0) : vtCtxEnWrite s v = (pageWrite s .vt 0x100 v).st := by
  have hnone : ∀ m : Fin 16, (bit (preg s .vt 0x100) m.val && !(bit v m.val)) = false := fun m => by
    have hm := congrArg (fun x : W32 => x.getLsbD m.val) h
    have hlt : m.val < 32 := by omega
    simpa [bit, BitVec.getLsbD_and, BitVec.getLsbD_not, hlt] using hm
  unfold vtCtxEnWrite
  simp only [vtCtxEn_gone hu, hnone]
  simp

/-- A write that turns off the one context that is on starts its drain. -/
theorem vtCtxEnWrite_off {m : Fin 16} (hu : Unlocked s .vt) (h : preg s .vt 0x100 = one32 m.val) : vtCtxEnWrite s 0 =
    startDrain (orPreg (pageWrite s .vt 0x100 0).st .vt 0x100 (one32 m.val)) m 0 lastUnit .disable true := by
  have hone : ∀ j : Fin 16, (bit (preg s .vt 0x100) j.val && !(bit (0 : W32) j.val)) = decide (j = m) := fun j => by
    have hz : bit (0 : W32) j.val = false := BitVec.getLsbD_zero
    rw [h, one32_bit, hz]
    simp [show j.val < 32 by omega, Fin.ext_iff]
  have hgone : ∀ m : Fin 16, (List.finRange 16).filter (fun j => decide (j = m)) = [m] := by decide
  unfold vtCtxEnWrite
  simp only [vtCtxEn_gone hu, hone, hgone, List.foldl_cons, List.foldl_nil]

/-- Nothing but whether a drain has begun changes when waiting drains begin. -/
theorem beginDrains_kinds (u : State) :
    (beginDrains u).drains.map (fun x => (x.ctx, x.first, x.last, x.ending)) = u.drains.map (fun x => (x.ctx, x.first, x.last, x.ending)) := by
  have hzip : ∀ (l : List Drain) (n : Nat), (l.zipIdx n).map (fun x => (x.1.ctx, x.1.first, x.1.last, x.1.ending)) =
      l.map (fun x => (x.ctx, x.first, x.last, x.ending)) := fun l => by
    induction l with
    | nil => exact fun _ => rfl
    | cons x l ih => exact fun n => by simp [ih]
  unfold beginDrains
  rw [List.map_map, ← hzip u.drains 0]
  refine List.map_congr_left fun x _ => ?_
  simp only [Function.comp_apply]
  split <;> rfl

/-- A drain at its end, but for what it ends with: its slots are INVALID, and it is no longer among the drains. -/
def drained (u : State) (i : Nat) (d : Drain) : State := noteDrain { (dropSlots u d).1 with drains := dropAt (dropSlots u d).1.drains i }

theorem drained_keeps (u : State) (i : Nat) (d : Drain) : Keeps [.page .vt, .page .sd, .cores, .sd, .drains] u (drained u i d) :=
  noteDrain_keeps (by decide) (put_drains_keeps _ (by decide) (dropSlots_keeps _ (by decide) (Keeps.refl _ u)))

theorem drained_drains (u : State) (i : Nat) (d : Drain) : (drained u i d).drains = dropAt u.drains i := by
  have hdrop : Keeps [.page .sd, .cores, .sd] u (dropSlots u d).1 := dropSlots_keeps _ (by decide) (Keeps.refl _ u)
  have hnote : Keeps [.page .vt] { (dropSlots u d).1 with drains := dropAt (dropSlots u d).1.drains i } (drained u i d) :=
    noteDrain_keeps (by decide) (Keeps.refl _ _)
  rw [show (drained u i d).drains = dropAt (dropSlots u d).1.drains i from hnote .drains (by decide), show (dropSlots u d).1.drains = u.drains from
    hdrop .drains (by decide)]

/-- A drain without manifests leaves the movers. -/
theorem drainMovers_none (s : State) {d : Drain} (h : d.hit = []) (ue : List (BitVec 23)) : (drainMovers s d ue).1 = s := by
  unfold drainMovers
  rw [h]
  exact congrArg Prod.fst (foldl_idle fun _ _ => by simp)

variable {i : Nat} {ue : List (BitVec 23)}

/-- The end of a drain for a context turned off. -/
theorem drainEnd_disable (hd : s.drains[i]? = some d) (hr : drainReady s d = true) (hb : d.begun = true) (he : d.ending = .disable) :
    drainEnd s i ue = beginDrains (clrPreg (drained (drainMovers s d ue).1 i d) .vt 0x100 (one32 d.ctx.val)) := by
  unfold drainEnd
  simp only [hd]
  rw [if_neg (by simp [hr, hb]), he]
  rfl

/-- The end of a CLEAR. -/
theorem drainEnd_clear (hd : s.drains[i]? = some d) (hr : drainReady s d = true) (hb : d.begun = true) (he : d.ending = .clear) :
    drainEnd s i ue = beginDrains (goDone { drained (drainMovers s d ue).1 i d with
      ctxs := (drained (drainMovers s d ue).1 i d).ctxs.set d.ctx vtCtxReset } .vt 0x104 8) := by
  unfold drainEnd
  simp only [hd]
  rw [if_neg (by simp [hr, hb]), he]
  rfl

theorem beginDrains_keeps' (u : State) : Keeps [.drains] u (beginDrains u) := beginDrains_keeps (by decide) (Keeps.refl _ u)

end

end Sys2Proof
end

section
/-! PROOFS. Fills of mapping slots (07 R294), the end of a drain with an orphan (07 R299), and translation put together. -/

namespace Sys2Proof

open Sys2Proof.Machine

section
variable {s t u : State} {id : Fin 256} {slot ctx : Fin 16} {x : MapSlot} {e : Xlat}

/-! ## A lookup -/

theorem lookup_snd (s : State) (m : Fin 16) (va : Nat) (rights : BitVec 3) (peer : Bool) :
    (lookup s m va rights peer false).2 = lookupEnd s m va rights peer := rfl

/-- A lookup is counted, whatever it finds. -/
theorem lookup_counted (s : State) (m : Fin 16) (va : Nat) (rights : BitVec 3) (peer : Bool) :
    preg (lookup s m va rights peer false).1 .vt 0x120 = satAdd (preg s .vt 0x120) 1 := by
  have hraise : ∀ (b : Bool) (addr : Nat), preg (if b then raiseErr (cntPreg s .vt 0x120 1) .vt 3 addr else cntPreg s .vt 0x120 1) .vt 0x120 =
      satAdd (preg s .vt 0x120) 1 := fun b addr => by
    split <;> simp
  unfold lookup
  simp only [Bool.false_eq_true, if_false]
  split
  · exact hraise _ _
  · rw [preg_cntPreg _ _ (by omega) (by omega), if_neg (by simp)]
    exact hraise _ _

/-- One that fails is counted among the faults too. -/
theorem lookup_fault (m : Fin 16) {va : Nat} {rights : BitVec 3} {peer : Bool} (h : lookupEnd s m va rights peer = .notMapped) :
    preg (lookup s m va rights peer false).1 .vt 0x124 = satAdd (preg s .vt 0x124) 1 := by
  have hraise : ∀ (b : Bool) (addr : Nat), preg (if b then raiseErr (cntPreg s .vt 0x120 1) .vt 3 addr else cntPreg s .vt 0x120 1) .vt 0x124 =
      preg s .vt 0x124 := fun b addr => by
    split <;> simp
  unfold lookup
  simp only [Bool.false_eq_true, if_false, h]
  rw [preg_cntPreg _ _ (by omega) (by omega), if_pos ⟨rfl, rfl⟩, hraise]

theorem lookup_keeps' (s : State) (m : Fin 16) (va : Nat) (rights : BitVec 3) (peer ue : Bool) :
    Keeps [.page .vt] s (lookup s m va rights peer ue).1 := lookup_keeps _ _ _ _ _ (by decide) (Keeps.refl _ s)

/-! ## A fill -/

/-- A mapping slot of a core is written. -/
def putSlot (u : State) (id : Fin 256) (slot : Fin 16) (y : MapSlot) : State :=
  u.setCore id { u.core id with slots := (u.core id).slots.set slot y }

theorem putSlot_core (u : State) (id : Fin 256) (slot : Fin 16) (y : MapSlot) :
    (putSlot u id slot y).core id = { u.core id with slots := (u.core id).slots.set slot y } := setCore_core_same _ _ _

theorem preg_putSlot (u : State) (id : Fin 256) (slot : Fin 16) (y : MapSlot) {k : Nat} (hk : k < 0x1000) :
    preg (putSlot u id slot y) .vt k = preg u .vt k := preg_setCore _ _ _ hk (by simp) (by simp) (by simp)

/-- A fill that finds its page makes the slot VALID. -/
theorem mapFill_valid (hp : ((s.core id).slots.get slot).st = .pending) (hd : draining s ctx.val = false)
    (hctx : ctx = fin 16 (ctxOfPart s (partOf s id))) (hw : (s.core id).waits = [])
    (he : lookupEnd s ctx ((s.core id).slots.get slot).req.toNat ((s.core id).slots.get slot).reqRights false = .ok e) :
    mapFill s id slot false = putSlot (lookup s ctx ((s.core id).slots.get slot).req.toNat ((s.core id).slots.get slot).reqRights false false).1 id slot
      { mapSlotReset with st := .valid, base := e.va, big := e.big, kind := e.kind, pa := e.pa, rights := ((s.core id).slots.get slot).reqRights
                          gen := (s.ctxs.get ctx).gen } := by
  subst hctx
  set u := (lookup s (fin 16 (ctxOfPart s (partOf s id))) ((s.core id).slots.get slot).req.toNat ((s.core id).slots.get slot).reqRights false false).1
    with hu
  have hcore : u.core id = s.core id := (lookup_keeps' _ _ _ _ _ _).core (by decide) id
  have hwaits : ∀ y, ((putSlot u id slot y).core id).waits = [] := fun y => by rw [putSlot_core, hcore, hw]
  unfold mapFill
  simp only [lookup_snd, he]
  rw [if_neg (by simp [hp, hd]), ← hu]
  set v := putSlot u id slot { mapSlotReset with
    st := .valid, base := e.va, big := e.big, kind := e.kind, pa := e.pa, rights := ((s.core id).slots.get slot).reqRights
    gen := (s.ctxs.get (fin 16 (ctxOfPart s (partOf s id)))).gen } with hv
  have hend : endMapW v id slot 0 = v := by
    unfold endMapW
    rw [hwaits, List.foldl_nil]
  exact (congrArg (wakeCore · id) hend).trans (wakeCore_idle (hwaits _))

/-- The slot of a fill that failed. -/
def failedSlot (va : Nat) : MapSlot := { mapSlotReset with st := .failed, base := BitVec.ofNat 48 (va / 2 ^ 25 * 2 ^ 25) }

/-- A fill that finds no page leaves the slot FAILED. -/
theorem mapFill_failed (hp : ((s.core id).slots.get slot).st = .pending) (hd : draining s ctx.val = false)
    (hctx : ctx = fin 16 (ctxOfPart s (partOf s id)))
    (he : lookupEnd s ctx ((s.core id).slots.get slot).req.toNat ((s.core id).slots.get slot).reqRights false = .notMapped) :
    mapFill s id slot false = wakeCore (endMapW (putSlot (lookup s ctx ((s.core id).slots.get slot).req.toNat ((s.core id).slots.get slot).reqRights
      false false).1 id slot (failedSlot ((s.core id).slots.get slot).req.toNat)) id slot 1) id := by
  subst hctx
  unfold mapFill
  simp only [lookup_snd, he]
  rw [if_neg (by simp [hp, hd])]
  rfl

/-- The one wait of a MAPW on a slot ends with the fill. -/
theorem endMapW_one {rd : SReg} {code : Nat} (hw : (u.core id).waits = [.mapW rd slot]) :
    endMapW u id slot code = setWaits u id ((u.core id).setS rd (BitVec.ofNat 64 code)) [] := by
  unfold endMapW
  rw [hw, List.foldl_cons, List.foldl_nil]
  dsimp only
  rw [if_pos rfl]
  unfold endWait
  simp only [hw]
  simp

theorem setWaits_none (u : State) (id : Fin 256) (c : Core) : (setWaits u id c []).core id =
    { c with waits := [], st := (if c.st = .wait then .run else c.st), cause := 0, target := 0 } := setCore_core_same _ _ _

/-- A core that waits for a fill alone runs on with what the fill came to. -/
theorem mapFill_wakes {rd : SReg} (hp : ((s.core id).slots.get slot).st = .pending) (hd : draining s ctx.val = false)
    (hctx : ctx = fin 16 (ctxOfPart s (partOf s id))) (hw : (s.core id).waits = [.mapW rd slot]) (hst : (s.core id).st = .wait)
    (he : lookupEnd s ctx ((s.core id).slots.get slot).req.toNat ((s.core id).slots.get slot).reqRights false = .notMapped) :
    (((mapFill s id slot false).core id).slots.get slot).st = .failed ∧ ((mapFill s id slot false).core id).st = .run ∧
      ((mapFill s id slot false).core id).waits = [] ∧ (rd ≠ 0 → ((mapFill s id slot false).core id).s rd = 1) ∧
      preg (mapFill s id slot false) .vt 0x124 = satAdd (preg s .vt 0x124) 1 := by
  have hfill := mapFill_failed hp hd hctx he
  have hy : (failedSlot ((s.core id).slots.get slot).req.toNat).st = .failed := rfl
  generalize failedSlot ((s.core id).slots.get slot).req.toNat = y at hfill hy
  have hfault := lookup_fault (s := s) ctx he
  set u := (lookup s ctx ((s.core id).slots.get slot).req.toNat ((s.core id).slots.get slot).reqRights false false).1 with hu
  have hcore : u.core id = s.core id := (lookup_keeps' _ _ _ _ _ _).core (by decide) id
  clear_value u
  set v := putSlot u id slot y with hv
  have hvcore : v.core id = { s.core id with slots := (s.core id).slots.set slot y } := by rw [hv, putSlot_core, hcore]
  have hwaits : (v.core id).waits = [.mapW rd slot] := by rw [hvcore, hw]
  have hstate : (v.core id).st = .wait := by rw [hvcore, hst]
  have hslots : (v.core id).slots = (s.core id).slots.set slot y := by rw [hvcore]
  have hreg : preg v .vt 0x124 = satAdd (preg s .vt 0x124) 1 := (preg_putSlot _ _ _ _ (by omega)).trans hfault
  clear_value v
  have hdone : ((setWaits v id ((v.core id).setS rd (BitVec.ofNat 64 1)) []).core id).waits = [] := by rw [setWaits_none]
  rw [hfill, endMapW_one hwaits, wakeCore_idle hdone, setWaits_none]
  refine ⟨?_, ?_, rfl, fun hrd => ?_, ?_⟩
  · dsimp only
    rw [setS_slots, hslots, Vector.get_eq_getElem, Vector.getElem_set_self, hy]
  · dsimp only
    rw [setS_st, hstate, if_pos rfl]
  · exact setS_s (c := v.core id) (BitVec.ofNat 64 1) hrd
  · exact (preg_setCore _ _ _ (by omega) (by simp) (by simp) (by simp)).trans hreg

/-! ## The end of a drain with an orphan -/

variable {d : Drain} {i : Nat} {ue : List (BitVec 23)} {m : Manifest}

theorem preg_drained (u : State) (i : Nat) (d : Drain) {k : Nat} (hk : k < 0x1000) (h : k ≠ 0x128) : preg (drained u i d) .vt k = preg u .vt k := by
  have hdrop : Keeps [.page .sd, .cores, .sd] u (dropSlots u d).1 := dropSlots_keeps _ (by decide) (Keeps.refl _ u)
  have hold : preg { (dropSlots u d).1 with drains := dropAt (dropSlots u d).1.drains i } .vt k = preg u .vt k :=
    hdrop.preg (by decide) hk (by simp) (by simp)
  unfold drained noteDrain
  rw [preg_setPreg _ _ (by omega) hk, if_neg (fun e => h e.2)]
  exact hold

/-- The one manifest of a queue that the drain hit is an orphan: it leaves the queue with ORPHAN and no record. -/
theorem drainMovers_orphan (hhit : d.hit = [(2, 0, m.no)]) (hq : mQueueOf s 2 0 = [m]) (hk : drainKind m d.ctx d.first d.last = .orphan)
    (hev : bit m.desc 16 = false) : ∃ addr, (drainMovers s d ue).1 = setQueue (raiseErr s .vt 2 addr) 2 0 [] := by
  have hqueue : drainQueue s 2 0 d ue = (setQueue (raiseErr s .vt 2 (m.no.toNat + (2 : Fin 16).val * 2 ^ 32 + (0 : Fin 4).val * 2 ^ 36)) 2 0 [], 0, 0, 1) := by
    have hin : ([(2, 0, m.no)] : List (Fin 16 × Fin 4 × W32)).contains (2, 0, m.no) = true := by simp
    unfold drainQueue
    rw [hq, hhit]
    simp only [List.foldl_cons, List.foldl_nil, hin, if_true, hk, manifestEvent, hev, Bool.false_eq_true, if_false]
  have hidle : ∀ (a : State × Nat × Nat × Nat) (x : Fin 16 × Fin 4), x ≠ (2, 0) →
      (if d.hit.any fun h => decide (h.1 = x.1) && decide (h.2.1 = x.2) then
        let r := drainQueue a.1 x.1 x.2 d ue
        (r.1, a.2.1 + r.2.1, a.2.2.1 + r.2.2.1, a.2.2.2 + r.2.2.2)
      else a) = a := fun a x hx => by
    refine if_neg ?_
    rw [hhit]
    simp only [List.any_cons, List.any_nil, Bool.or_false, Bool.and_eq_true, decide_eq_true_eq, not_and]
    exact fun h1 h2 => hx (Prod.ext h1.symm h2.symm)
  refine ⟨m.no.toNat + (2 : Fin 16).val * 2 ^ 32 + (0 : Fin 4).val * 2 ^ 36, ?_⟩
  unfold drainMovers
  refine congrArg Prod.fst (foldl_single (i := (2, 0))
    (v := (setQueue (raiseErr s .vt 2 (m.no.toNat + (2 : Fin 16).val * 2 ^ 32 + (0 : Fin 4).val * 2 ^ 36)) 2 0 [], 0 + 0, 0 + 0, 0 + 1)) ?_ (fun x hx => hidle _ x hx)
    (fun x hx => hidle _ x hx) (by decide) (by decide))
  rw [hhit, hqueue]
  rfl

/-- What the end of a context's drain leaves. -/
def disabledEnd (u : State) (i : Nat) (d : Drain) : State := beginDrains (clrPreg (drained u i d) .vt 0x100 (one32 d.ctx.val))

theorem disabledEnd_drains (u : State) (i : Nat) (d : Drain) : (disabledEnd u i d).drains.map (fun x => (x.ctx, x.first, x.last, x.ending)) =
    (dropAt u.drains i).map (fun x => (x.ctx, x.first, x.last, x.ending)) := by
  unfold disabledEnd
  rw [beginDrains_kinds]
  exact congrArg (List.map _) (drained_drains u i d)

theorem disabledEnd_off (u : State) (i : Nat) (d : Drain) : bit (preg (disabledEnd u i d) .vt 0x100) d.ctx.val = false := by
  unfold disabledEnd
  rw [(beginDrains_keeps' _).preg (by decide) (by omega) (by simp) (by simp), preg_clrPreg _ _ (by omega) (by omega), if_pos ⟨rfl, rfl⟩,
    bit_andNot_one32 _ (by omega)]

theorem disabledEnd_slots {id : Fin 256} {k : Fin 16} (h : k ∈ drainSlots s id d) : ((disabledEnd s i d).core id).slots.get k = mapSlotReset := by
  have hk : Keeps [.page .vt, .drains] { (dropSlots s d).1 with drains := dropAt (dropSlots s d).1.drains i } (disabledEnd s i d) :=
    beginDrains_keeps (by decide) (clrPreg_keeps _ _ _ (by omega) (by decide) (noteDrain_keeps (by decide) (Keeps.refl _ _)))
  have hput : ({ (dropSlots s d).1 with drains := dropAt (dropSlots s d).1.drains i } : State).core id = (dropSlots s d).1.core id := rfl
  rw [hk.core (by decide), hput, dropSlots_dropped h]

/-- What a CLEAR leaves at its drain's end. -/
def clearedEnd (u : State) (i : Nat) (d : Drain) : State :=
  beginDrains (goDone { drained u i d with ctxs := (drained u i d).ctxs.set d.ctx vtCtxReset } .vt 0x104 8)

theorem clearedEnd_keeps (u : State) (i : Nat) (d : Drain) : Keeps [.page .vt, .page .sd, .cores, .sd, .drains, .ctxs] u (clearedEnd u i d) :=
  ((drained_keeps u i d).mono (by decide)).trans
    (beginDrains_keeps (by decide) (goDone_keeps _ _ _ (by omega) (by decide) (put_ctxs_keeps _ (by decide) (Keeps.refl _ _))))

/-- The drain's end, for the parts that a CLEAR's end keeps. -/
theorem clearedEnd_drains (u : State) (i : Nat) (d : Drain) : (clearedEnd u i d).drains.map (fun x => (x.ctx, x.first, x.last, x.ending)) =
    (dropAt u.drains i).map (fun x => (x.ctx, x.first, x.last, x.ending)) := by
  have hk : Keeps [.page .vt, .ctxs] (drained u i d) (goDone { drained u i d with ctxs := (drained u i d).ctxs.set d.ctx vtCtxReset } .vt 0x104 8) :=
    goDone_keeps _ _ _ (by omega) (by decide) (put_ctxs_keeps _ (by decide) (Keeps.refl _ _))
  unfold clearedEnd
  rw [beginDrains_kinds, show (goDone { drained u i d with ctxs := (drained u i d).ctxs.set d.ctx vtCtxReset } .vt 0x104 8).drains = _ from
    hk .drains (by decide), drained_drains]

theorem clearedEnd_ctxs (u : State) (i : Nat) (d : Drain) : (clearedEnd u i d).ctxs.get d.ctx = vtCtxReset := by
  have hk : Keeps [.page .vt, .drains] { drained u i d with ctxs := (drained u i d).ctxs.set d.ctx vtCtxReset } (clearedEnd u i d) :=
    beginDrains_keeps (by decide) (goDone_keeps _ _ _ (by omega) (by decide) (Keeps.refl _ _))
  rw [show (clearedEnd u i d).ctxs = _ from hk .ctxs (by decide)]
  exact Vector.getElem_set_self ..

theorem clearedEnd_go (u : State) (i : Nat) (d : Drain) : bit (preg (clearedEnd u i d) .vt 0x104) 8 = false := by
  unfold clearedEnd
  rw [(beginDrains_keeps' _).preg (by decide) (by omega) (by simp) (by simp), preg_goDone_same _ _ (by omega) (by omega) (by omega) (by simp),
    bit_andNot_one32 _ (by omega)]

theorem clearedEnd_err (u : State) (i : Nat) (d : Drain) : preg (clearedEnd u i d) .vt 0x10 = preg u .vt 0x10 := by
  have hput : preg { drained u i d with ctxs := (drained u i d).ctxs.set d.ctx vtCtxReset } .vt 0x10 = preg (drained u i d) .vt 0x10 := rfl
  unfold clearedEnd
  rw [(beginDrains_keeps' _).preg (by decide) (by omega) (by simp) (by simp), preg_goDone _ (by omega) (by omega) (by simp) (by simp), hput,
    preg_drained _ _ _ (by omega) (by omega)]

end

/-- Settles O28: table writes and INVALIDATE by the take of a slot, the ends of drains by their turns over the cores, fills by the lookup. -/
theorem translation : Obligations.Translation := by
  unfold Obligations.Translation
  refine ⟨?_, ?_, ?_, ?_, ?_, ?_, ?_, ?_, ?_, ?_, ?_, ?_⟩
  · rintro s mb slot w gen va n big es htake rfl rfl rfl rfl rfl hreason
    obtain ⟨t, hexec, hans, hctxs⟩ := tblWrite_accepted htake rfl hreason
    exact ⟨t, hexec, nextKeeps_eq (execTblWrite_keeps _ _ _ (by decide) (Keeps.refl _ s)) hexec, hans, hctxs⟩
  · rintro s mb slot w gen va n big es r htake rfl rfl rfl rfl rfl hreason
    obtain ⟨t, hexec, hans, hctxs⟩ := tblWrite_rejected htake rfl hreason
    exact ⟨t, hexec, nextKeeps_eq (execTblWrite_keeps _ _ _ (by decide) (Keeps.refl _ s)) hexec, hans, hctxs⟩
  · intro s mb slot w a b htake hrange hall
    have hexec := invalidate_begins htake hrange hall
    refine ⟨_, hexec, nextKeeps_eq (execInvalidate_keeps _ _ _ (by decide) (Keeps.refl _ s)) hexec, ?_, ?_, ?_⟩
    · exact startDrain_length _ _ _ _ _ _
    · rw [show (addTaken (startDrain (takenAt s mb slot w) mb a b (.answer mb slot (w.setWidth 16)) true) mb
        ⟨slot, w.setWidth 16, .invalidate, true, [], false⟩).drains = (startDrain (takenAt s mb slot w) mb a b _ true).drains from rfl, startDrain_last]
      rfl
    · rw [addTaken_mailbox, show (startDrain (takenAt s mb slot w) mb a b (.answer mb slot (w.setWidth 16)) true).mailbox mb = _ from
        takenAt_mailbox s mb slot w]
      rfl
  · intro s mb slot w htake hrange
    obtain ⟨t, hexec, hans, hdrains⟩ := invalidate_refused htake hrange
    exact ⟨t, hexec, nextKeeps_eq (execInvalidate_keeps _ _ _ (by decide) (Keeps.refl _ s)) hexec, hans, hdrains⟩
  · intro s v hstart
    have hkw : Keeps [.page .vt] s (pageWrite s .vt 0x104 v).st := pageWrite_keeps_plain vtClear_plain hstart.1 v 0 (by decide) (Keeps.refl _ s)
    have hgo : bit (preg (pageWrite s .vt 0x104 v).st .vt 0x104) 8 = true := by
      rw [bit_pageWrite_go vtClear_plain hstart.1 rfl (by omega), hstart.2.2]
      rfl
    have hdrains : (pageWrite s .vt 0x104 v).st.drains = s.drains := hkw .drains (by decide)
    have hdraining : ∀ k, draining (pageWrite s .vt 0x104 v).st k = draining s k := fun k => by
      unfold draining
      rw [hdrains]
    refine ⟨_, congrArg Host.Outcome.next (vtClearWrite_starts hstart), startDrain_keeps _ _ _ _ _ (by decide) (hkw.mono (by decide)), ?_, ?_, ?_⟩
    · rw [startDrain_length, hdrains]
    · rw [startDrain_last, hdraining]
      rfl
    · exact hgo
  · intro s v hu hstay
    refine ⟨_, congrArg Host.Outcome.next (vtCtxEnWrite_on hu hstay), pageWrite_keeps_plain vtCtxEn_plain hu v 0 (by decide) (Keeps.refl _ s), ?_⟩
    exact fld_pageWrite vtCtxEn_plain hu (f 0 16 .rw) rfl rfl ⟨.inl rfl, Nat.zero_le _, Nat.le_sub_one_of_lt (fld_lt v 0 16), by decide⟩
  · intro s m hu hone
    have hkw : Keeps [.page .vt] s (orPreg (pageWrite s .vt 0x100 0).st .vt 0x100 (one32 m.val)) :=
      orPreg_keeps _ _ _ (by omega) (by decide) (pageWrite_keeps_plain vtCtxEn_plain hu 0 0 (by decide) (Keeps.refl _ s))
    refine ⟨_, congrArg Host.Outcome.next (vtCtxEnWrite_off hu hone), startDrain_keeps _ _ _ _ _ (by decide) (hkw.mono (by decide)), ?_, ?_, ?_, ?_⟩
    · rw [startDrain_length, show (orPreg (pageWrite s .vt 0x100 0).st .vt 0x100 (one32 m.val)).drains = s.drains from hkw .drains (by decide)]
    · rw [startDrain_last]
      rfl
    · rw [startDrain_last]
      have hhits : drainHits (orPreg (pageWrite s .vt 0x100 0).st .vt 0x100 (one32 m.val)) m 0 lastUnit = drainHits s m 0 lastUnit := by
        unfold drainHits
        simp only [mQueueOf_of_keeps hkw (by decide)]
      exact congrArg some hhits
    · have hbit : bit (preg (orPreg (pageWrite s .vt 0x100 0).st .vt 0x100 (one32 m.val)) .vt 0x100) m.val = true := by
        rw [preg_orPreg _ _ (by omega) (by omega), if_pos ⟨rfl, rfl⟩, bit_or_one32 _ (by omega)]
      exact hbit
  · intro s i ue d hd hready hbegun hhit hend
    have hexec : drainEnd s i ue = disabledEnd s i d := (drainEnd_disable (ue := ue) hd hready hbegun hend).trans (by rw [drainMovers_none s hhit]; rfl)
    exact ⟨_, congrArg Host.Outcome.next hexec, nextKeeps_eq (execInvalidateComplete_keeps _ _ (by decide) (Keeps.refl _ s))
      (congrArg Host.Outcome.next hexec), disabledEnd_drains s i d, disabledEnd_off s i d, fun _ _ => disabledEnd_slots⟩
  · intro s i ue d hd hready hbegun hhit hend _
    have hexec : drainEnd s i ue = clearedEnd s i d := (drainEnd_clear (ue := ue) hd hready hbegun hend).trans (by rw [drainMovers_none s hhit]; rfl)
    exact ⟨_, congrArg Host.Outcome.next hexec, (clearedEnd_keeps s i d).mono (by decide), clearedEnd_drains s i d, clearedEnd_ctxs s i d,
      clearedEnd_go s i d⟩
  · rintro s core slot ctx x e hrun rfl hp hctx hd hw he
    have hexec : execMapFillComplete core slot false s = _ := congrArg Host.Outcome.next ((if_neg (by simp [hrun])).trans (mapFill_valid hp hd hctx hw he))
    refine ⟨_, hexec, nextKeeps_eq (execMapFillComplete_keeps _ _ _ (by decide) (Keeps.refl _ s)) hexec, ?_, ?_⟩
    · rw [putSlot_core]
      exact Vector.getElem_set_self ..
    · exact (preg_putSlot _ _ _ _ (by omega)).trans (lookup_counted _ _ _ _ _)
  · rintro s core slot ctx x rd hrun rfl hp hctx hd hw hst he
    have hexec : execMapFillComplete core slot false s = .next (mapFill s core slot false) := congrArg Host.Outcome.next (if_neg (by simp [hrun]))
    exact ⟨_, hexec, nextKeeps_eq (execMapFillComplete_keeps _ _ _ (by decide) (Keeps.refl _ s)) hexec, mapFill_wakes hp hd hctx hw hst he⟩
  · intro s i d ue m hd hready hbegun hend hhit hq hkind hev
    obtain ⟨addr, hmoved⟩ := drainMovers_orphan (ue := ue) hhit hq hkind hev
    have hexec : drainEnd s i ue = clearedEnd (setQueue (raiseErr s .vt 2 addr) 2 0 []) i d :=
      (drainEnd_clear (ue := ue) hd hready hbegun hend).trans (by rw [hmoved]; rfl)
    have hks : Keeps [.page .vt, .clusters] s (setQueue (raiseErr s .vt 2 addr) 2 0 []) :=
      ((raiseErr_keeps _ _ _ (by decide) (Keeps.refl [.page .vt, .clusters] s))).trans ((setQueue_keeps' _ _ _ _).mono (by decide))
    have hkt := (hks.mono (Q := [.page .vt, .page .sd, .cores, .sd, .drains, .ctxs, .clusters]) (by decide)).trans ((clearedEnd_keeps _ i d).mono (by decide))
    refine ⟨_, congrArg Host.Outcome.next hexec, hkt.mono (by decide), ?_, ?_, ?_⟩
    · rw [mQueueOf_of_keeps (clearedEnd_keeps _ i d) (by decide), mQueueOf_setQueue]
    · rw [clearedEnd_err, (setQueue_keeps' _ _ _ _).preg (by decide) (by omega) (by simp) (by simp), raiseErr_bit _ _ _ (by omega)]
    · obtain ⟨hdm, -⟩ : (clearedEnd (setQueue (raiseErr s .vt 2 addr) 2 0 []) i d).dm = s.dm ∧ _ := hkt .dm (by decide)
      exact hdm

end Sys2Proof
end

section
/-! PROOFS. The HDM decoder (09 R368, R405), and the containment freeze begun and not released (09 R390 to R394, R398). -/

namespace Sys2Proof

open Sys2Proof.Machine

section
variable {s t u : State} {v : W32}

/-! ## Bits of the control words -/

theorem hdmCtrl_plain : PlainReg .ep 0x120 (r 0x120 0 [f 0 1 .go, f 1 1 .go, f 2 1 .rwl, f 8 1 .ro, f 9 1 .ro]) := {}

theorem frzCtrl_plain : PlainReg .ep 0x124 (r 0x124 0 [f 0 1 .go, f 1 1 .go]) := {}

/-- To clear one bit leaves another. -/
theorem bit_clear_other (x : W32) {b c : Nat} (h : b ≠ c) : bit (x &&& ~~~one32 c) b = bit x b := by
  have hone : bit (one32 c) b = false := by simp [one32_bit, h]
  unfold bit at hone ⊢
  rw [BitVec.getLsbD_and, BitVec.getLsbD_not, hone]
  by_cases hb : b < 32
  · simp [hb]
  · simp [BitVec.getLsbD_of_ge _ _ (Nat.le_of_not_lt hb)]

/-- A completed GO action leaves the other bits of its word. -/
theorem goDone_other (s : State) {p : Page} {o b c : Nat} (ho : o < 0x1000) (h1 : o ≠ 0x30) (h2 : o ≠ 0x40) (h3 : ¬(p = .ep ∧ o = 0xA00)) (h : c ≠ b) :
    bit (preg (goDone s p o b) p o) c = bit (preg s p o) c := by
  rw [goDone_bit s p ho h1 h2 h3, bit_clear_other _ h]

theorem goDone_cleared (s : State) {p : Page} {o b : Nat} (ho : o < 0x1000) (h1 : o ≠ 0x30) (h2 : o ≠ 0x40) (h3 : ¬(p = .ep ∧ o = 0xA00)) (hb : b < 32) :
    bit (preg (goDone s p o b) p o) b = false := by
  rw [goDone_bit s p ho h1 h2 h3, bit_andNot_one32 _ hb]

/-- A completed GO action leaves the interrupts raised before it. -/
theorem goDone_keepsInt (s : State) {p : Page} {o b c : Nat} (ho : o < 0x1000) (h1 : o ≠ 0x30) (h : bit (preg s p 0x30) c = true) :
    bit (preg (goDone s p o b) p 0x30) c = true := by
  have hclr : preg (clrPreg s p o (one32 b)) p 0x30 = preg s p 0x30 := by
    rw [preg_clrPreg _ _ ho (by omega), if_neg (fun e => h1 e.2.symm)]
  unfold goDone
  dsimp only
  split
  · rw [raiseInt_stat, preg_orPreg _ _ (by omega) (by omega), if_neg (by omega), hclr, bit_or, h]
    rfl
  · rw [hclr, h]

/-- A write leaves the bits of the read-only fields. -/
theorem hdmCtrl_committed (hu : Unlocked s .ep) (v : W32) : bit (preg (pageWrite s .ep 0x120 v).st .ep 0x120) 8 = bit (preg s .ep 0x120) 8 := by
  rw [preg_pageWrite_same hdmCtrl_plain hu]
  exact foldl_out _ rfl _

/-- BI_EN takes its bit while the decoder is not committed. -/
theorem hdmCtrl_biEn (hu : Unlocked s .ep) (hc : bit (preg s .ep 0x120) 8 = false) (v : W32) :
    bit (preg (pageWrite s .ep 0x120 v).st .ep 0x120) 2 = bit v 2 := by
  have h := fld_pageWrite hdmCtrl_plain hu (v := v) (same := 0) (f 2 1 .rwl) rfl rfl
    ⟨.inr ⟨rfl, by unfold rwlLocked; exact hc, rfl⟩, Nat.zero_le _, Nat.le_sub_one_of_lt (fld_lt v 2 1), by decide⟩
  rw [bit_eq_fld, bit_eq_fld]
  exact congrArg (fun n => decide (n = 1)) h

/-! ## COMMIT and UNCOMMIT -/

theorem Keeps.cxl_memEn {P : List Part} (h : Keeps P s t) (hc : Part.cxl ∉ P) : t.cxl.memEn = s.cxl.memEn :=
  have hcxl : { t.cxl with inta := false, msixQ := [] } = { s.cxl with inta := false, msixQ := [] } := h .cxl hc
  (congrArg Cxl.memEn hcxl :)

theorem hdmWrite_keeps (hu : Unlocked s .ep) (v : W32) : Keeps [.page .ep] s (pageWrite s .ep 0x120 v).st :=
  pageWrite_keeps_plain hdmCtrl_plain hu v 0 (by decide) (Keeps.refl _ s)

/-- A write that commits alone. -/
theorem hdmCtrlWrite_commit (h : Starts s .ep 0x120 0 v) (h1 : bit v 1 = false) :
    hdmCtrlWrite s v = goDone (commitHdm (pageWrite s .ep 0x120 v).st) .ep 0x120 0 := by
  have hgo : (pageWrite s .ep 0x120 v).started 0 = true := started_one hdmCtrl_plain rfl (by omega) 0 h
  have hno : (pageWrite s .ep 0x120 v).started 1 = false := started_zero hdmCtrl_plain h.1 rfl (by omega) 0 h1
  unfold hdmCtrlWrite
  simp only [hgo, hno, if_true, Bool.false_eq_true, if_false]

/-- A write that uncommits alone. -/
theorem hdmCtrlWrite_uncommit (h : Starts s .ep 0x120 1 v) (h0 : bit v 0 = false) :
    hdmCtrlWrite s v = uncommitHdm (pageWrite s .ep 0x120 v).st := by
  have hgo : (pageWrite s .ep 0x120 v).started 1 = true := started_one hdmCtrl_plain rfl (by omega) 0 h
  have hno : (pageWrite s .ep 0x120 v).started 0 = false := started_zero hdmCtrl_plain h.1 rfl (by omega) 0 h0
  unfold hdmCtrlWrite
  simp only [hgo, hno, if_true, Bool.false_eq_true, if_false]

/-- With BI_EN and Mem_Enable the decoder is committed. -/
theorem commitHdm_taken (h : (bit (preg u .ep 0x120) 2 && u.cxl.memEn) = true) :
    commitHdm u = clrPreg (orPreg u .ep 0x120 0x100) .ep 0x120 0x200 := if_pos h

theorem commitHdm_refused (h : (bit (preg u .ep 0x120) 2 && u.cxl.memEn) = false) :
    commitHdm u = raiseErr (orPreg u .ep 0x120 0x200) .ep 11 := if_neg (by simp [h])

/-- The word of a decoder just committed. -/
theorem committed_word (u : State) : preg (clrPreg (orPreg u .ep 0x120 0x100) .ep 0x120 0x200) .ep 0x120 = (preg u .ep 0x120 ||| one32 8) &&& ~~~one32 9 := by
  rw [preg_clrPreg _ _ (by omega) (by omega), if_pos ⟨rfl, rfl⟩, preg_orPreg _ _ (by omega) (by omega), if_pos ⟨rfl, rfl⟩]
  rfl

theorem refused_word (u : State) : preg (raiseErr (orPreg u .ep 0x120 0x200) .ep 11) .ep 0x120 = preg u .ep 0x120 ||| one32 9 := by
  rw [preg_raiseErr _ _ _ (by omega) (by simp) (by simp), preg_orPreg _ _ (by omega) (by omega), if_pos ⟨rfl, rfl⟩]
  rfl

theorem uncommitCheck_done (hw : u.cxl.uncommitting = true) (hb : biTotal u = 0) :
    uncommitCheck u = goDone (clrPreg { u with cxl := { u.cxl with uncommitting := false } } .ep 0x120 0x100) .ep 0x120 1 := if_pos ⟨hw, hb⟩

theorem uncommitCheck_waits (hb : biTotal u ≠ 0) : uncommitCheck u = u := if_neg fun h => hb h.2

/-! ## A freeze begins -/

theorem markDiscard_held (z : Frz) (m : Nat) (c : Fin 256) : (markDiscard z m c).held = z.held := by
  unfold markDiscard
  split_ifs <;> rfl

/-- What a discarded write leaves of the freeze: whether there is one, its cause, and the responses held. -/
theorem listDiscard_frz (s : State) (w : HeldWrite) :
    (listDiscard s w).frz.on = s.frz.on ∧ (listDiscard s w).frz.cause = s.frz.cause ∧ (listDiscard s w).frz.held = s.frz.held := by
  unfold listDiscard
  extract_lets line lo mask e core z z1 s2 s1
  obtain ⟨hon, hcause⟩ := markDiscard_kept s.frz w.master.toNat core
  have hheld := markDiscard_held s.frz w.master.toNat core
  have hz1 : z1.on = z.on ∧ z1.cause = z.cause ∧ z1.held = z.held := by
    simp only [z1]
    split <;> exact ⟨rfl, rfl, rfl⟩
  have hs1 : s1.frz.on = z1.on ∧ s1.frz.cause = z1.cause ∧ s1.frz.held = z1.held := by
    simp only [s1]
    split_ifs <;> exact ⟨rfl, rfl, rfl⟩
  obtain ⟨ha, hb, hc⟩ := hz1
  obtain ⟨ha', hb', hc'⟩ := hs1
  rw [offer_frz]
  exact ⟨ha'.trans (ha.trans hon), hb'.trans (hb.trans hcause), hc'.trans (hc.trans hheld)⟩

/-- A freeze of this cause is on, no write waits, and these are the writes out for GO. -/
structure Frozen (c : BitVec 3) (D : List D2h) (u : State) : Prop where
  on : u.frz.on = true
  cause : u.frz.cause = c
  wq : u.cxl.wq = []
  d2h : u.cxl.d2h = D

variable {c : BitVec 3} {D : List D2h}

theorem Frozen.keeps {P : List Part} (h : Frozen c D s) (k : Keeps P s t) (hc : Part.cxl ∉ P) (hf : Part.frz ∉ P) : Frozen c D t := by
  have hfrz : t.frz = s.frz := k .frz hf
  exact ⟨hfrz ▸ h.on, hfrz ▸ h.cause, (k.cxl_wq hc).trans h.wq, (k.cxl_d2h hc).trans h.d2h⟩

theorem Frozen.listDiscard (h : Frozen c D s) (w : HeldWrite) : Frozen c D (listDiscard s w) := by
  obtain ⟨hon, hcause, -⟩ := listDiscard_frz s w
  exact ⟨hon.trans h.on, hcause.trans h.cause, ((listDiscard_cxl s w).cxl_wq (by decide)).trans h.wq,
    ((listDiscard_cxl s w).cxl_d2h (by decide)).trans h.d2h⟩

theorem Frozen.discardWrite (h : Frozen c D s) (w : HeldWrite) : Frozen c D (discardWrite s w) :=
  (h.listDiscard w).keeps (P := [.cores]) (loseSent_keeps _ (by decide) (Keeps.refl _ _)) (by decide) (by decide)

theorem Frozen.foldl {α : Type} {g : State → α → State} (hg : ∀ t a, Frozen c D t → Frozen c D (g t a)) (l : List α) (h : Frozen c D s) :
    Frozen c D (l.foldl g s) := List.foldlRecOn (motive := Frozen c D) l g h fun t ht a _ => hg t a ht

theorem Frozen.loseStores (h : Frozen c D s) (id : Fin 256) : Frozen c D (loseStores s id) := by
  unfold Machine.loseStores
  extract_lets x cl gone s1
  have h1 : Frozen c D s1 := h.keeps (P := [.cores]) (setCoreRaw_keeps' s id _) (by decide) (by decide)
  split_ifs
  · exact Frozen.foldl (fun t a ht => ht.listDiscard _) _ h1
  · exact h

theorem dropMem_keeps' (s : State) (hpa : Nat) (q : HomeReq) : Keeps [.page .ep] s (dropMem s hpa q) := dropMem_keeps _ _ (by decide) (Keeps.refl _ s)

/-- No host request waits for the landing window any more. -/
theorem refuseWaiting_lw (s : State) : (refuseWaiting s).lw.heldReqs = [] := by
  have hdrop : ∀ {t : State} (l : List (BitVec 64 × HomeReq)), t.lw.heldReqs = [] → (l.foldl (fun t r => dropMem t r.1.toNat r.2) t).lw.heldReqs = [] :=
    fun l ht => List.foldlRecOn (motive := fun t : State => t.lw.heldReqs = []) l _ ht fun t ht r _ => by
      rw [show (dropMem t r.1.toNat r.2).lw = t.lw from dropMem_keeps' t _ _ .lw (by decide)]
      exact ht
  unfold refuseWaiting
  extract_lets x s1
  have h1 : s1.lw.heldReqs = [] := hdrop _ rfl
  refine List.foldlRecOn (motive := fun t : State => t.lw.heldReqs = []) _ _ h1 fun t ht n _ => ?_
  have hset : (t.setSlice n { t.slice n with waiting := [] }).lw = t.lw := rfl
  refine List.foldlRecOn (motive := fun t : State => t.lw.heldReqs = []) _ _ (hset ▸ ht) fun u hu w _ => ?_
  rw [show (dropMem u w.1.toNat w.2.2).lw = u.lw from dropMem_keeps' u _ _ .lw (by decide)]
  exact hu

/-- What a freeze finds: its cause, no write that waits, and of the writes out those that do not wait for RdOwn. -/
theorem enterFreeze_begins (hoff : s.frz.on = false) (cause : Nat) :
    Frozen (BitVec.ofNat 3 cause) (s.cxl.d2h.filter fun d => !(d.w.isSome && decide (d.op = 2))) (enterFreeze s cause) ∧
      (enterFreeze s cause).lw.heldReqs = [] ∧ bit (preg (enterFreeze s cause) .ep 0x30) 17 = true := by
  unfold enterFreeze
  rw [if_neg (by simp [hoff])]
  extract_lets s1 x s2 w s3 s4
  have hcxl : s1.cxl = s.cxl := by
    have hrep : ∀ (l : List Nat) (t : State), (l.foldl (fun t k => setPreg t .ep (0x180 + 4 * k) 0) t).cxl = t.cxl := fun l t =>
      List.foldlRecOn (motive := fun u : State => u.cxl = t.cxl) l _ rfl fun u hu k _ => hu
    exact hrep _ _
  have hw : Frozen (BitVec.ofNat 3 cause) (s.cxl.d2h.filter fun d => !(d.w.isSome && decide (d.op = 2))) w.1 :=
    ⟨rfl, rfl, rfl, by rw [← hcxl]; rfl⟩
  have h3 : Frozen _ _ s3 := Frozen.foldl (fun t w ht => ht.discardWrite w) _ hw
  have h4 : Frozen _ _ s4 := Frozen.foldl (fun t id ht => ht.loseStores id) _ h3
  have h5 : Frozen _ _ (refuseWaiting s4) :=
    h4.keeps (P := [.page .ep, .slices, .lw]) (refuseWaiting_keeps (by decide) (Keeps.refl _ s4)) (by decide) (by decide)
  have hint : Keeps [.page .ep] (refuseWaiting s4) (raiseInt (refuseWaiting s4) .ep 17) := raiseInt_keeps _ _ (by decide) (Keeps.refl _ _)
  refine ⟨h5.keeps hint (by decide) (by decide), ?_, ?_⟩
  · rw [show (raiseInt (refuseWaiting s4) .ep 17).lw = (refuseWaiting s4).lw from hint .lw (by decide), refuseWaiting_lw]
  · rw [raiseInt_stat, bit_or_one32 _ (by omega)]

/-! ## Writes of EP_FRZ_CTRL -/

theorem frzWrite_keeps (hu : Unlocked s .ep) (v : W32) : Keeps [.page .ep] s (pageWrite s .ep 0x124 v).st :=
  pageWrite_keeps_plain frzCtrl_plain hu v 0 (by decide) (Keeps.refl _ s)

theorem frzCtrlWrite_freeze (h : Starts s .ep 0x124 0 v) (h1 : bit v 1 = false) (rival : Option (BitVec 3)) :
    frzCtrlWrite s v rival = goDone (enterFreeze (pageWrite s .ep 0x124 v).st 1) .ep 0x124 0 := by
  have hgo : (pageWrite s .ep 0x124 v).started 0 = true := started_one frzCtrl_plain rfl (by omega) 0 h
  have hno : (pageWrite s .ep 0x124 v).started 1 = false := started_zero frzCtrl_plain h.1 rfl (by omega) 0 h1
  unfold frzCtrlWrite
  simp only [hgo, hno, if_true]

theorem frzCtrlWrite_release (h : Starts s .ep 0x124 1 v) (h0 : bit v 0 = false) :
    frzCtrlWrite s v none = goDone (releaseFreeze (pageWrite s .ep 0x124 v).st) .ep 0x124 1 := by
  have hgo : (pageWrite s .ep 0x124 v).started 1 = true := started_one frzCtrl_plain rfl (by omega) 0 h
  have hno : (pageWrite s .ep 0x124 v).started 0 = false := started_zero frzCtrl_plain h.1 rfl (by omega) 0 h0
  unfold frzCtrlWrite
  simp only [hgo, hno, Bool.true_eq_false, Bool.false_eq_true, if_false]

theorem frzCtrlWrite_rival (h : Starts s .ep 0x124 1 v) (h0 : bit v 0 = false) (c : BitVec 3) :
    frzCtrlWrite s v (some c) = goDone (rivalFreeze (pageWrite s .ep 0x124 v).st c) .ep 0x124 1 := by
  have hgo : (pageWrite s .ep 0x124 v).started 1 = true := started_one frzCtrl_plain rfl (by omega) 0 h
  have hno : (pageWrite s .ep 0x124 v).started 0 = false := started_zero frzCtrl_plain h.1 rfl (by omega) 0 h0
  unfold frzCtrlWrite
  simp only [hgo, hno, Bool.true_eq_false, Bool.false_eq_true, if_false]

/-- Without the link, or in the safe state, a release is refused. -/
theorem releaseFreeze_refused (hon : u.frz.on = true) (h : linkL0 u = false ∨ u.fc.safe = true) : releaseFreeze u = raiseErr u .ep 9 := by
  have hno : (linkL0 u && !u.fc.safe) = false := by
    rcases h with h | h <;> simp [h]
  unfold releaseFreeze
  rw [if_neg (by simp [hon]), if_neg (by simp [hno])]

theorem rivalFreeze_on (hon : u.frz.on = true) (c : BitVec 3) : rivalFreeze u c = raiseErr { u with frz := { u.frz with cause := c } } .ep 9 := by
  unfold rivalFreeze enterFreeze
  rw [if_pos hon]

/-- REL_REJ stands after the word of a refused release. -/
theorem refused_rel (u : State) (addr : Nat) : bit (preg (goDone (raiseErr u .ep 9 addr) .ep 0x124 1) .ep 0x10) 9 = true := by
  rw [preg_goDone _ (by omega) (by omega) (by simp) (by simp), raiseErr_bit _ _ _ (by omega)]

end

end Sys2Proof
end

section
/-! PROOFS. What goes on after a freeze leaves the freeze ended: no write to the host, no access and no end of a wait freezes again, holds a
response, fences EP, or frees a fenced core (09 R392, R393; 04 R134). -/

namespace Sys2Proof

open Sys2Proof.Machine

section
variable {s t u : State}

/-- The parts that have to do neither with the freeze nor with cores. -/
abbrev quietParts : List Part :=
  [.page .lw, .page .dc, .page .mc, .page .cl, .page .sd, .page .ml, .page .fm, .page .gc, .sd, .locks, .clusters, .mailboxes, .dm, .slices, .lw, .cxl,
    .scrubs, .ports, .boot]

/-- The freeze stays as it is, without new responses held after it; the fence of EP stays, and so does each fenced core. -/
structure Calm (s t : State) : Prop where
  on : t.frz.on = s.frz.on
  held : s.frz.on = false → t.frz.held = s.frz.held
  fence : preg t .ep 8 = preg s .ep 8
  cores : ∀ id, (s.core id).st = .fenced → (t.core id).st = .fenced

theorem Calm.refl (s : State) : Calm s s := ⟨rfl, fun _ => rfl, rfl, fun _ h => h⟩

theorem Calm.trans (h : Calm s t) (k : Calm t u) : Calm s u :=
  ⟨k.on.trans h.on, fun hoff => (k.held (h.on.trans hoff)).trans (h.held hoff), k.fence.trans h.fence, fun id hid => k.cores id (h.cores id hid)⟩

/-- A change of EP's registers but CTRL. -/
theorem Calm.of_ep (h : Keeps (.page .ep :: quietParts) s t) (hf : preg t .ep 8 = preg s .ep 8) : Calm s t := by
  have hfrz : t.frz = s.frz := h .frz (by decide)
  exact ⟨by rw [hfrz], fun _ => by rw [hfrz], hf, fun id hid => by rw [h.core (by decide)]; exact hid⟩

/-- A change of quiet parts alone. -/
theorem Calm.quiet (h : Keeps quietParts s t) : Calm s t := .of_ep (h.mono (by decide)) (keeps_ep h (by decide) (by omega))

theorem calm_foldl {α : Type} {g : State → α → State} (hg : ∀ u a, Calm u (g u a)) (l : List α) (u : State) : Calm u (l.foldl g u) :=
  List.foldlRecOn (motive := Calm u) l g (Calm.refl u) fun _ ht a _ => ht.trans (hg _ a)

theorem calm_foldl1 {α β : Type} {g : State × β → α → State × β} (hg : ∀ a i, Calm a.1 (g a i).1) (l : List α) (a : State × β) :
    Calm a.1 (l.foldl g a).1 :=
  List.foldlRecOn (motive := fun b : State × β => Calm a.1 b.1) l g (Calm.refl a.1) fun _ ht i _ => ht.trans (hg _ i)

/-! ## Reports and writes to the host -/

theorem calm_raiseErr (s : State) (src addr : Nat) : Calm s (raiseErr s .ep src addr) :=
  .of_ep (raiseErr_keeps _ _ _ (by decide) (Keeps.refl _ s)) (preg_raiseErr _ _ _ (by omega) (by simp) (by simp))

theorem calm_listDiscard (s : State) (w : HeldWrite) : Calm s (listDiscard s w) := by
  obtain ⟨hon, -, hheld⟩ := listDiscard_frz s w
  exact ⟨hon, fun _ => hheld, preg_listDiscard s w (by omega), fun id hid => by rw [(listDiscard_cxl s w).core (by decide)]; exact hid⟩

/-- A response is held in a freeze alone. -/
theorem calm_sendWrite (s : State) (w : HeldWrite) : Calm s (sendWrite s w) := by
  unfold sendWrite
  by_cases hempty : w.bytes.isEmpty = true
  · rw [if_pos hempty]
    exact Calm.refl s
  rw [if_neg hempty]
  by_cases hresp : (w.frozenResp && s.frz.on) = true
  · rw [if_pos hresp]
    rw [Bool.and_eq_true] at hresp
    exact ⟨rfl, fun hoff => absurd (hresp.2.symm.trans hoff) (by decide), rfl, fun _ hid => hid⟩
  rw [if_neg hresp]
  split_ifs
  · exact calm_listDiscard s w
  · exact .quiet (put_cxl_keeps _ (by decide) (Keeps.refl _ s))
  · exact .quiet (issueWrite_keeps _ (by decide) (Keeps.refl _ s))

theorem calm_hostWriteLine (s : State) (m : Nat) (core : Byte) (num : Nat) (d : BitVec 512) (mask : BitVec 64) (p : BitVec 2) (relaxed : Bool) :
    Calm s (hostWriteLine s m core num d mask p relaxed) := calm_foldl (fun u _ => calm_sendWrite u _) _ s

theorem calm_drainWrites (s : State) : Calm s (drainWrites s) := by
  unfold drainWrites
  split_ifs
  · exact Calm.refl s
  · exact (Calm.quiet (put_cxl_keeps _ (by decide) (Keeps.refl _ s))).trans (calm_foldl calm_sendWrite _ _)

/-! ## The home of a line -/

theorem calm_setSl (s : State) (l : Line) (e : SLine) : Calm s (setSl s l e) := .quiet (setSl_keeps _ _ (by decide) (Keeps.refl _ s))

theorem calm_setCcLine (s : State) (k : Fin 16) (l : Line) (x : Option CLine) : Calm s (setCcLine s k l x) :=
  .quiet (setCcLine_keeps _ _ _ (by decide) (Keeps.refl _ s))

theorem calm_dropCopies (s : State) (l : Line) (keep : Option (Fin 16)) : Calm s (dropCopies s l keep).1 :=
  .quiet (dropCopies_keeps _ _ (by decide) (Keeps.refl _ s))

theorem calm_startBi (s : State) (l : Line) (inv : Bool) (held : List HomeReq) : Calm s (startBi s l inv held) :=
  .quiet (startBi_keeps _ _ _ (by decide) (Keeps.refl _ s))

theorem calm_shadowAsk (s : State) (l : Line) : Calm s (shadowAsk s l) := .quiet (shadowAsk_keeps _ (by decide) (Keeps.refl _ s))

theorem calm_addRetry (s : State) (l : Line) (m : Fin 58) (n : Nat) : Calm s (addRetry s l m n) :=
  .quiet (addRetry_keeps _ _ _ (by decide) (Keeps.refl _ s))

theorem calm_writeBelow (s : State) (l : Line) (d : BitVec 512) (p : BitVec 2) : Calm s (writeBelow s l d p) := by
  unfold writeBelow
  split_ifs
  · exact calm_hostWriteLine _ _ _ _ _ _ _ _
  · exact .quiet (writeLineAt_keeps _ _ _ _ (by decide) (Keeps.refl _ s))

theorem calm_cleanEvict (s : State) (l : Line) (op : BitVec 4) : Calm s (cleanEvict s l op) := .quiet (cleanEvict_keeps _ _ (Keeps.refl _ s))

theorem calm_evictData (s : State) (l : Line) : Calm s (evictData s l) := by
  unfold evictData
  extract_lets e
  split
  · exact Calm.refl s
  · refine Calm.trans ?_ (calm_setSl _ _ _)
    split_ifs
    · exact calm_writeBelow _ _ _ _
    · exact calm_cleanEvict _ _ _
    · exact Calm.refl s

theorem calm_recallShadow (s : State) (l : Line) : Calm s (recallShadow s l) := by
  unfold recallShadow
  extract_lets r s1
  have h1 : Calm s s1 := by
    simp only [s1, r]
    split
    · exact (calm_dropCopies s l none).trans (calm_writeBelow _ _ _ _)
    · exact (calm_dropCopies s l none).trans (calm_cleanEvict _ _ _)
  refine h1.trans ((calm_setSl _ _ _).trans (.quiet (cntPreg_keeps _ _ _ (by omega) ?_ (Keeps.refl _ _))))
  exact List.mem_of_elem_eq_true rfl

theorem calm_shadowRoom (s : State) (l : Line) : Calm s (shadowRoom s l) := by
  unfold shadowRoom
  extract_lets ks f
  split_ifs
  · exact Calm.refl s
  · exact Calm.refl s
  · exact (Calm.quiet (takeFresh_keeps (Keeps.refl _ s))).trans (calm_recallShadow _ _)

theorem calm_evictWay (s : State) (n : Fin 16) (set way : Nat) : Calm s (evictWay s n set way) := by
  unfold evictWay
  split
  · exact Calm.refl s
  · extract_lets l
    split_ifs
    · exact calm_evictData _ _
    · exact (calm_shadowRoom s l).trans (calm_evictData _ _)
    · exact Calm.refl s
    · exact calm_startBi _ _ _ _
    · exact calm_shadowAsk _ _

theorem calm_pickWay (s : State) (l : Line) : Calm s (pickWay s l).1 := by
  unfold pickWay
  extract_lets n ways held vs f w
  split
  · exact Calm.refl s
  · exact Calm.refl s
  · split_ifs
    · exact Calm.refl s
    · exact (Calm.quiet (takeFresh_keeps (Keeps.refl _ s))).trans (calm_evictWay _ _ _ _)

theorem calm_storeBelow (s : State) (l : Line) (d : BitVec 512) (p : BitVec 2) : Calm s (storeBelow s l d p) := by
  unfold storeBelow
  extract_lets e s1
  have h1 : Calm s s1 := by
    simp only [s1]
    split_ifs
    · exact calm_shadowRoom s l
    · exact Calm.refl s
  exact h1.trans ((calm_setSl _ _ _).trans (calm_writeBelow _ _ _ _))

theorem calm_homeStore (s : State) (l : Line) (d : BitVec 512) (p : BitVec 2) : Calm s (homeStore s l d p) := by
  unfold homeStore
  by_cases ha : slAllocs s l = true
  · rw [if_pos ha]
    extract_lets r
    split
    · exact (calm_pickWay s l).trans (calm_setSl _ _ _)
    · exact (calm_pickWay s l).trans (calm_storeBelow _ _ _ _)
  · rw [if_neg ha]
    exact calm_storeBelow _ _ _ _

/-- Data from home, which a read of memory brings where the slice has none. -/
theorem calm_homeData (s : State) (l : Line) (res : HostAnswer) : Calm s (homeData s l res).1 := .quiet (homeData_keeps _ _ (by decide) (Keeps.refl _ s))

theorem calm_fetchShared (s : State) (l : Line) (res : HostAnswer) : Calm s (fetchShared s l res).1 := by
  unfold fetchShared
  extract_lets e src fromHome
  have hhome : ∀ u, Calm u (fromHome u).1 := fun u => by
    simp only [fromHome]
    split_ifs
    · exact (calm_homeData u l res).trans (.quiet (slMiss_keeps _ _ _ (by decide) (Keeps.refl _ _)))
    · exact calm_homeData u l res
  clear_value src fromHome
  split
  · exact hhome s
  · split
    · exact ((Calm.quiet (cancelGrant_keeps _ _ (by decide) (Keeps.refl _ s))).trans (calm_setSl _ _ _)).trans (hhome _)
    · split_ifs
      · exact (calm_setSl _ _ _).trans (hhome _)
      · exact ((calm_setCcLine _ _ _ _).trans (calm_homeStore _ _ _ _)).trans (calm_setSl _ _ _)
      · exact (calm_setCcLine _ _ _ _).trans (calm_setSl _ _ _)

theorem calm_makeEntry (s : State) (l : Line) : Calm s (makeEntry s l) := by
  unfold makeEntry
  split_ifs
  · exact calm_shadowRoom s l
  · exact Calm.refl s

theorem calm_grantLine (s : State) (k : Fin 16) (l : Line) (x : CLine) : Calm s (grantLine s k l x) :=
  .quiet (grantLine_keeps _ _ _ (by decide) (Keeps.refl _ s))

theorem calm_emit (s : State) (o : Out) : Calm s (emit s o) := .quiet (emit_keeps _ (Keeps.refl _ s))

/-! ## Requests served -/

theorem calm_serveHostRd (s : State) (l : Line) (own data : Bool) : Calm s (serveHostRd s l own data) := by
  unfold serveHostRd
  extract_lets r s1 s2 e s3 s4
  have h1 : Calm s s1 := by
    simp only [s1]
    split_ifs
    · exact (calm_fetchShared s l _).trans (calm_dropCopies _ _ _)
    · exact calm_fetchShared s l _
  have h3 : Calm s s3 := (h1.trans (calm_makeEntry _ _)).trans (calm_setSl _ _ _)
  split_ifs
  · exact h3.trans (calm_emit _ _)
  · exact (h3.trans (calm_emit _ _)).trans (.quiet (raiseErr_keeps _ _ _ (by decide) (Keeps.refl _ _)))
  · exact h3.trans (calm_emit _ _)

theorem calm_countSl (s : State) (l : Line) : Calm s (countSl s l) := .quiet (countSl_keeps _ (by decide) (Keeps.refl _ s))

theorem calm_serveWrinv (s : State) (m : Fin 58) (core : Byte) (l : Line) (d : BitVec 512) (p : BitVec 2) (relaxed : Bool) :
    Calm s (serveWrinv s m core l d p relaxed) := by
  unfold serveWrinv
  extract_lets s1 e
  have h1 : Calm s s1 := (calm_countSl s l).trans (calm_dropCopies _ _ _)
  split_ifs
  · exact h1.trans ((calm_setSl _ _ _).trans (calm_hostWriteLine _ _ _ _ _ _ _ _))
  · exact h1.trans ((Calm.quiet (clearCached_keeps _ _ (by decide) (Keeps.refl _ s1))).trans (calm_homeStore _ _ _ _))

theorem calm_reportPartial (s : State) (l : Line) (old : BitVec 2) (mask : BitVec 64) : Calm s (reportPartial s l old mask) :=
  .quiet (reportPartial_keeps _ _ _ (by decide) (Keeps.refl _ s))

theorem calm_serveWrpart (s : State) (m : Fin 58) (core : Byte) (l : Line) (d : BitVec 512) (mask : BitVec 64) (p : BitVec 2) (relaxed : Bool) :
    Calm s (serveWrpart s m core l d mask p relaxed) := by
  unfold serveWrpart
  extract_lets r s1 e
  have h1 : Calm s s1 := by
    have hd : Calm s r.1 := (calm_countSl s l).trans (calm_dropCopies _ _ _)
    simp only [s1]
    split
    · exact hd.trans (calm_homeStore _ _ _ _)
    · exact hd
  refine h1.trans ?_
  split
  · exact (Calm.quiet (askOwn_keeps _ (Keeps.refl _ s1))).trans ((calm_reportPartial _ _ _ _).trans (calm_homeStore _ _ _ _))
  · split_ifs
    · exact calm_hostWriteLine _ _ _ _ _ _ _ _
    · exact (Calm.quiet (readLineAt_keeps _ (by decide) (Keeps.refl _ s1))).trans ((calm_reportPartial _ _ _ _).trans (calm_homeStore _ _ _ _))
    · exact .quiet (writeLineAt_keeps _ _ _ _ (by decide) (Keeps.refl _ s1))

theorem calm_serveHostWr (s : State) (l : Line) (d : BitVec 512) (mask : BitVec 64) (poison : Bool) : Calm s (serveHostWr s l d mask poison) := by
  unfold serveHostWr
  extract_lets e s1 p s2
  have h1 : Calm s s1 := calm_setSl _ _ _
  have h2 : Calm s1 s2 := by
    simp only [s2]
    split_ifs
    · exact calm_serveWrinv _ _ _ _ _ _ _
    · exact Calm.refl s1
    · exact calm_serveWrpart _ _ _ _ _ _ _ _
  exact (h1.trans h2).trans (calm_emit _ _)

theorem calm_serveRdcur (s : State) (l : Line) (res : HostAnswer) : Calm s (serveRdcur s l res).1 := by
  unfold serveRdcur
  extract_lets e own
  have hown : Calm s (own s).1 := calm_homeData s l res
  split
  · split
    · split_ifs
      · exact (calm_setCcLine _ _ _ _).trans (calm_homeStore _ _ _ _)
      · exact Calm.refl s
      · exact hown
    · exact Calm.refl s
    · exact hown
  · exact hown

theorem calm_serveRdo (s : State) (k : Fin 16) (l : Line) (res : HostAnswer) : Calm s (serveRdo s k l res) := by
  unfold serveRdo
  extract_lets r s2 e
  have h2 : Calm s s2 := (calm_fetchShared s l res).trans ((calm_dropCopies _ _ _).trans (calm_makeEntry _ _))
  exact (h2.trans (calm_setSl _ _ _)).trans (calm_grantLine _ _ _ _)

theorem calm_serveRds (s : State) (k : Fin 16) (l : Line) (res : HostAnswer) : Calm s (serveRds s k l res) := by
  unfold serveRds
  extract_lets e0 r s1 e cxl isE e'
  have h1 : Calm s s1 := (calm_fetchShared s l res).trans (calm_makeEntry _ _)
  exact (h1.trans (calm_setSl _ _ _)).trans (calm_grantLine _ _ _ _)

theorem calm_serveUpg (s : State) (k : Fin 16) (l : Line) (res : HostAnswer) : Calm s (serveUpg s k l res) := by
  unfold serveUpg
  extract_lets e
  split
  · by_cases hshared : e.presence.getLsbD k.val = true ∧ e.owned = false
    · rw [if_pos hshared]
      exact ((calm_dropCopies _ _ _).trans (calm_setSl _ _ _)).trans (calm_grantLine _ _ _ _)
    · rw [if_neg hshared]
      exact calm_serveRdo _ _ _ _
  · exact calm_serveRdo _ _ _ _

/-- Whatever home serves. -/
theorem calm_serve (s : State) (l : Line) (res : HostAnswer) (core : Byte) (relaxed : Bool) (q : HomeReq) : Calm s (serve s l res core relaxed q) := by
  have hask : ∀ op, Calm s (askHost s l op) := fun op => .quiet (askHost_keeps _ _ (Keeps.refl _ s))
  have hown : Calm s (askOwn s l) := .quiet (askOwn_keeps _ (Keeps.refl _ s))
  cases q with
  | rds k => exact (hask _).trans (calm_serveRds _ _ _ _)
  | rdo k => exact hown.trans (calm_serveRdo _ _ _ _)
  | upg k => exact hown.trans (calm_serveUpg _ _ _ _)
  | rdcur m => exact ((hask _).trans (calm_serveRdcur _ _ _)).trans (calm_emit _ _)
  | wrinv m d p => exact calm_serveWrinv _ _ _ _ _ _ _
  | wrpart m d mask p => exact calm_serveWrpart _ _ _ _ _ _ _ _
  | hostRd own data => exact calm_serveHostRd _ _ _ _
  | hostWr d mask poison => exact calm_serveHostWr _ _ _ _ _

theorem calm_homeReq (s : State) (l : Line) (res : HostAnswer) (core : Byte) (relaxed : Bool) (q : HomeReq) :
    Calm s (homeReq s l res core relaxed q) := by
  have hclear : ∀ m, Calm s (clearRetry s l m) := fun m => .quiet (clearRetry_keeps _ _ (by decide) (Keeps.refl _ s))
  unfold homeReq
  split
  · split_ifs
    · exact Calm.refl s
    · exact calm_serve _ _ _ _ _ _
  next m _ =>
    by_cases hw : hostWaits s l q = true
    · rw [if_pos hw]
      exact Calm.refl s
    rw [if_neg hw]
    split
    · exact .quiet (slMerge_keeps _ _ (by decide) (Keeps.refl _ s))
    · split_ifs
      · exact calm_addRetry _ _ _ _
      · exact (calm_shadowAsk _ _).trans (calm_addRetry _ _ _ _)
      · refine (hclear m).trans ?_
        dsimp only
        split_ifs
        · exact calm_startBi _ _ _ _
        · exact calm_serve _ _ _ _ _ _

theorem calm_setSlice (s : State) (n : Fin 16) (x : Slice) : Calm s (s.setSlice n x) := .quiet (State.setSlice_keeps _ _ (by decide) (Keeps.refl _ s))

theorem calm_hostReq (s : State) (l : Line) (hpa : BitVec 64) (q : HomeReq) : Calm s (hostReq s l hpa q) := by
  unfold hostReq
  extract_lets n ready s1
  split_ifs
  · exact calm_homeReq _ _ _ _ _ _
  · refine Calm.trans ?_ (calm_setSlice _ _ _)
    simp only [s1]
    split_ifs
    · exact calm_shadowAsk _ _
    · exact Calm.refl s

theorem calm_biEnd (s : State) (l : Line) (held : List HomeReq) (dirty : Option (BitVec 512)) : Calm s (biEnd s l held dirty) := by
  unfold biEnd
  extract_lets n x s1 y s2 s3
  have h2 : Calm s s2 := Calm.trans (t := s1) (calm_setSlice _ _ _) (calm_setSl s1 _ _)
  have h3 : Calm s2 s3 := by
    simp only [s3]
    split
    · exact calm_homeStore _ _ _ _
    · exact Calm.refl s2
  refine (h2.trans h3).trans (calm_foldl (fun t q => ?_) _ _)
  split_ifs
  · exact calm_serve _ _ _ _ _ _
  · split
    · exact calm_addRetry _ _ _ _
    · exact Calm.refl t

theorem calm_biResume (s : State) : Calm s (biResume s) := by
  refine calm_foldl (fun t n => calm_foldl (fun u b => ?_) _ t) _ s
  split
  · exact calm_biEnd _ _ _ _
  · exact Calm.refl u

end

end Sys2Proof
end

section
/-! PROOFS. Ends of waits, manifests, mailboxes and the landing window after a freeze; the release of a freeze (09 R393, R394). -/

namespace Sys2Proof

open Sys2Proof.Machine

section
variable {s t u : State}

/-! ## Cores -/

/-- A core is written that stays fenced where it was. -/
theorem calm_setCore (s : State) {id : Fin 256} {c : Core} (h : (s.core id).st = .fenced → c.st = .fenced) : Calm s (s.setCore id c) := by
  have hk := setCore_keeps' s id c
  have hfrz : (s.setCore id c).frz = s.frz := hk .frz (by decide)
  refine ⟨by rw [hfrz], fun _ => by rw [hfrz], keeps_ep hk (by decide) (by omega), fun j hj => ?_⟩
  by_cases e : j = id
  · subst e
    rw [setCore_core_same]
    exact h hj
  · rw [setCore_core_other _ _ e]
    exact hj

/-- A core whose waits end or go on runs or waits: a fenced one stays fenced. -/
theorem calm_setWaits (s : State) {id : Fin 256} {c : Core} (ws : List Wait) (h : c.st = (s.core id).st) : Calm s (setWaits s id c ws) := by
  unfold setWaits
  split <;> exact calm_setCore s fun hf => by simp [h, hf]

theorem calm_endWait (s : State) (id : Fin 256) (w : Wait) (rd : SReg) (v : W64) : Calm s (endWait s id w rd v) :=
  calm_setWaits s _ (setS_st _ _ _)

theorem waitCore_st {c c' : Core} {w : Wait} (h : waitCore c w = some c') : c'.st = c.st := waitCore_kept setS_st (fun _ _ => rfl) h

theorem calm_wakeCore (s : State) (id : Fin 256) : Calm s (wakeCore s id) := by
  unfold wakeCore
  dsimp only
  split_ifs
  · exact Calm.refl s
  · refine calm_setWaits s _ ?_
    refine List.foldlRecOn (motive := fun a : Core × List Wait => a.1.st = (s.core id).st) _ _ rfl fun a ha w _ => ?_
    split
    · next c' hc => exact (waitCore_st hc).trans ha
    · exact ha

theorem calm_setEvent (s : State) (id : Fin 256) (e : BitVec 5) : Calm s (setEvent s id e) := by
  unfold setEvent
  dsimp only
  refine (calm_setCore s ?_).trans (calm_wakeCore _ _)
  exact fun hf => hf

theorem calm_setLock (s : State) (n : Fin 1024) (l : Lock) : Calm s (s.setLock n l) := .quiet (State.setLock_keeps _ _ (by decide) (Keeps.refl _ s))

theorem calm_serveLock (s : State) (n : Fin 1024) (from_ : Option Nat) : Calm s (serveLock s n from_) := by
  have hcnt : ∀ l : Lock, Calm s (cntPreg (s.setLock n l) .ml 0x118 1) := fun l =>
    (calm_setLock s n l).trans (.quiet (cntPreg_keeps _ _ _ (by omega) (by decide) (Keeps.refl _ _)))
  unfold serveLock
  dsimp only
  split
  · exact Calm.refl s
  · split
    · exact (hcnt _).trans (calm_endWait _ _ _ _ _)
    · exact hcnt _

theorem calm_raiseMl (s : State) (src addr : Nat) : Calm s (raiseErr s .ml src addr) := .quiet (raiseErr_keeps _ _ _ (by decide) (Keeps.refl _ s))

theorem calm_breakLock (s : State) (n : Fin 1024) : Calm s (breakLock s n) :=
  (((calm_setLock s n _).trans (.quiet (cntPreg_keeps _ _ _ (by omega) (by decide) (Keeps.refl _ _)))).trans (calm_raiseMl _ _ _)).trans
    (calm_serveLock _ _ _)

theorem calm_loseLocks (s : State) (ids : List (Fin 256)) : Calm s (loseLocks s ids) := by
  refine (calm_foldl (fun u id => ?_) ids s).trans (calm_foldl (fun u id => calm_foldl (fun v n => ?_) _ u) ids _)
  · exact .quiet (leaveQueues_keeps _ (by decide) (Keeps.refl _ u))
  · split_ifs
    · exact calm_breakLock v n
    · exact Calm.refl v

theorem calm_release (s : State) (id : Fin 256) (n : Fin 1024) (rivals : Bool) : Calm s (release s id n rivals).1 := by
  unfold release
  dsimp only
  split_ifs
  · exact calm_raiseMl _ _ _
  · exact calm_setLock _ _ _
  · exact (calm_setLock _ _ _).trans (calm_serveLock _ _ _)
  · exact calm_raiseMl _ _ _

theorem calm_accessWake (s : State) (id : Fin 256) : Calm s (accessWake s id) := by
  unfold accessWake
  dsimp only
  split_ifs
  · refine (calm_wakeCore s id).trans (calm_foldl (fun u w => ?_) _ _)
    split
    · exact (calm_release u id _ false).trans (calm_endWait _ _ _ _ _)
    · exact Calm.refl u
  · exact calm_wakeCore s id

theorem calm_storesSeen (s : State) (id : Fin 256) : Calm s (storesSeen s id) := by
  unfold storesSeen
  dsimp only
  split_ifs
  · refine (calm_setCore s ?_).trans (calm_accessWake _ _)
    exact fun hf => hf
  · exact Calm.refl s

/-- A core that is fenced is fenced, and the others keep what they are. -/
theorem calm_stopFenced (s : State) (id : Fin 256) : Calm s (stopFenced s id) := by
  have hcl : ∀ v : State, Calm v (clrPreg v (.gc id) 8 1) := fun v =>
    .quiet (clrPreg_keeps _ _ _ (by omega) (List.mem_of_elem_eq_true rfl) (Keeps.refl _ v))
  exact ((Calm.quiet (xlCancel_keeps _ (by decide) (Keeps.refl _ s))).trans (calm_setCore _ fun _ => rfl)).trans (hcl _)

theorem calm_fenceCores (s : State) (ids : List (Fin 256)) : Calm s (fenceCores s ids) := by
  have hmark : ∀ (v : State) (id : Fin 256), Calm v (orPreg v (.gc id) 8 2) := fun v id =>
    .quiet (orPreg_keeps _ _ _ (by omega) (List.mem_of_elem_eq_true rfl) (Keeps.refl _ v))
  exact ((calm_foldl hmark ids s).trans (calm_loseLocks _ _)).trans (calm_foldl calm_stopFenced _ _)

/-- Every core of the list is fenced. -/
theorem fenceCores_st {ids : List (Fin 256)} {id : Fin 256} (h : id ∈ ids) : ((fenceCores s ids).core id).st = .fenced := by
  by_cases hf : (s.core id).st = .fenced
  · exact (calm_fenceCores s ids).cores id hf
  · have hnew : id ∈ ids.filter fun id => decide ((s.core id).st ≠ .fenced) := List.mem_filter.mpr ⟨h, by simpa using hf⟩
    unfold fenceCores
    exact foldl_reaches (R := fun t => (t.core id).st = .fenced) (fun t => stopFenced_st t id) (fun t j ht => (calm_stopFenced t j).cores id ht) hnew _

/-! ## Posted writes -/

theorem calm_postWrite (s : State) (l : Line) (m : Fin 58) (stream : Nat) (d : BitVec 512) (mask : BitVec 64) (p : BitVec 2) (relaxed : Bool) :
    Calm s (postWrite s l m stream d mask p relaxed) := by
  have hclear : Calm s (clearRetry s l m) := .quiet (clearRetry_keeps _ _ (by decide) (Keeps.refl _ s))
  unfold postWrite
  extract_lets core
  split_ifs
  · exact calm_hostWriteLine _ _ _ _ _ _ _ _
  · exact hclear.trans (calm_serveWrinv _ _ _ _ _ _ _)
  · exact hclear.trans (calm_serveWrpart _ _ _ _ _ _ _ _)

theorem calm_postAsk (s : State) (l : Line) (m : Fin 58) : Calm s (postAsk s l m) := .quiet (postAsk_keeps _ _ (by decide) (Keeps.refl _ s))

/-! ## Manifests -/

theorem calm_writeFlag (s : State) (cl : Fin 16) (q : Fin 4) (m : Manifest) : Calm s (writeFlag s cl q m) := by
  unfold writeFlag
  split
  · exact Calm.refl s
  · exact calm_postWrite _ _ _ _ _ _ _ _

theorem calm_writeRecord (s : State) (cl : Fin 16) (q : Fin 4) (m : Manifest) (status a : Nat) : Calm s (writeRecord s cl q m status a) :=
  (calm_postWrite _ _ _ _ _ _ _ _).trans (.quiet (cntPreg_keeps _ _ _ (by omega) (List.mem_of_elem_eq_true rfl) (Keeps.refl _ _)))

theorem calm_setQueue (s : State) (cl : Fin 16) (q : Fin 4) (l : List Manifest) : Calm s (setQueue s cl q l) :=
  .quiet ((setQueue_keeps' s cl q l).mono (by decide))

theorem calm_endSeen (s : State) (cl : Fin 16) (q : Fin 4) (i : Nat) (m : Manifest) (e : Ending) : Calm s (endSeen s cl q i m e) := by
  have hev : ∀ v : State, Calm v (manifestEvent v m) := fun v => by
    unfold manifestEvent
    dsimp only
    split_ifs
    · exact calm_setEvent _ _ _
    · exact Calm.refl v
  unfold endSeen
  extract_lets s1
  have h1 : Calm s s1 := by
    simp only [s1]
    split_ifs
    · exact calm_setQueue _ _ _ _
    · exact calm_setQueue _ _ _ _
  split_ifs
  · exact h1
  · exact h1.trans (hev s1)

theorem calm_advance (cl : Fin 16) (q : Fin 4) (fuel : Nat) (s : State) : Calm s (advance cl q fuel s) := by
  induction fuel generalizing s with
  | zero => exact Calm.refl s
  | succ n ih =>
    unfold advance
    split_ifs
    · exact Calm.refl s
    · split
      · exact Calm.refl s
      next i m e _ =>
        extract_lets next l
        have hnext : ∀ v st, Calm v (next v st) := fun v st => calm_setQueue v cl q _
        split
        · split_ifs
          · exact ((calm_writeFlag _ _ _ _).trans (hnext _ _)).trans (ih _)
          · exact calm_postAsk _ _ _
        · split_ifs
          · exact ((calm_writeRecord _ _ _ _ _ _).trans (hnext _ _)).trans (ih _)
          · exact calm_postAsk _ _ _
        · split_ifs
          · exact Calm.refl s
          · exact (calm_endSeen _ _ _ _ _ _).trans (ih _)

theorem calm_resetMover (s : State) (cl : Fin 16) : Calm s (resetMover s cl) := by
  have hmark : Calm s { s with frz := { s.frz with movers := setBit s.frz.movers cl.val false } } := ⟨rfl, fun _ => rfl, rfl, fun _ h => h⟩
  exact hmark.trans (calm_foldl (fun t q => (calm_setQueue _ _ _ _).trans (calm_advance _ _ _ _)) _ _)

theorem calm_moverPump (s : State) (cl : Fin 16) : Calm s (moverPump s cl) := by
  refine (calm_foldl (fun t q => ?_) _ s).trans (.quiet (abortAllEnd_keeps _ (by decide) (Keeps.refl _ _)))
  split_ifs
  · exact Calm.refl t
  · exact calm_advance _ _ _ _

/-! ## Mailboxes and inbound writes -/

theorem calm_respond (s : State) (mb : Fin 16) (slot : Fin 512) (seq : W16) (status orig result : Nat) (frozen : Bool) :
    Calm s (respond s mb slot seq status orig result frozen) := by
  unfold respond
  extract_lets addr l s1 x s2
  have h1 : Calm s s1 := by
    simp only [s1]
    split_ifs
    · exact Calm.refl s
    · exact (Calm.quiet (cancelMiss_keeps _ (by decide) (Keeps.refl _ s))).trans (calm_dropCopies _ _ _)
  have h2 : Calm s s2 := by
    simp only [s2]
    split_ifs
    · exact Calm.refl s
    · exact h1.trans (calm_setSl _ _ _)
  exact h2.trans (calm_sendWrite _ _)

theorem calm_setMailbox (s : State) (mb : Fin 16) (x : Mailbox) : Calm s (s.setMailbox mb x) :=
  .quiet (State.setMailbox_keeps _ _ (by decide) (Keeps.refl _ s))

theorem calm_answer (s : State) (mb : Fin 16) (slot : Fin 512) (seq : W16) (recorded : Bool) (dups : List (Fin 512)) (status result : Nat)
    (frozen : Bool) : Calm s (answer s mb slot seq recorded dups status result frozen) := by
  unfold answer
  extract_lets x s1
  have h1 : Calm s s1 := by
    simp only [s1]
    split_ifs
    · exact calm_setMailbox _ _ _
    · exact Calm.refl s
  exact (h1.trans (calm_respond _ _ _ _ _ _ _ _)).trans (calm_foldl (fun t k => calm_respond _ _ _ _ _ _ _ _) _ _)

theorem calm_inlineRun (mb : Fin 16) (ps : List (Line × BitVec 512 × BitVec 64)) (s : State) : Calm s (inlineRun mb ps s).1 := by
  induction ps generalizing s with
  | nil => exact Calm.refl s
  | cons p rest ih =>
    unfold inlineRun
    split_ifs
    · exact calm_postAsk _ _ _
    · exact Calm.refl s
    · exact (calm_postWrite _ _ _ _ _ _ _ _).trans (ih _)

theorem calm_takenStep (mb : Fin 16) (a : State × List Taken) (x : Taken) : Calm a.1 (takenStep mb a x).1 := by
  unfold takenStep
  extract_lets done
  have hdone : ∀ v, Calm v (done v).1 := fun v => by
    simp only [done]
    split_ifs
    · exact Calm.refl v
    · exact calm_answer _ _ _ _ _ _ _ _ _
  split
  · exact Calm.refl _
  · split_ifs
    · exact hdone _
    · exact Calm.refl _
  · split_ifs
    · exact hdone _
    · exact Calm.refl _
  next ps _ =>
    dsimp only
    split_ifs
    · exact Calm.refl _
    · exact (calm_inlineRun mb ps a.1).trans (hdone _)
    · exact calm_inlineRun mb ps a.1

theorem calm_mbPump (s : State) (mb : Fin 16) : Calm s (mbPump s mb) := by
  unfold mbPump
  dsimp only
  split_ifs
  · exact Calm.refl s
  · exact (calm_foldl1 (fun a x => calm_takenStep mb a x) _ (s, [])).trans (calm_setMailbox _ _ _)

theorem calm_inboundRun (fuel : Nat) (s : State) (w : Inbound) : Calm s (inboundRun fuel s w).1 := by
  induction fuel generalizing s w with
  | zero => exact Calm.refl s
  | succ n ih =>
    unfold inboundRun
    extract_lets pa off k l
    split_ifs
    · exact Calm.refl s
    · exact calm_postAsk s l 33
    · exact (calm_postWrite _ _ _ _ _ _ _ _).trans (ih _ _)

theorem calm_pumpInbound (s : State) : Calm s (pumpInbound s) := by
  have hstep : ∀ (a : State × List Inbound) (w : Inbound), Calm a.1 (inboundStep a w).1 := fun a w => by
    unfold inboundStep
    split_ifs
    · exact Calm.refl _
    · exact calm_inboundRun _ _ _
  unfold pumpInbound
  dsimp only
  split_ifs
  · exact Calm.refl s
  · exact (calm_foldl1 hstep _ (s, [])).trans (.quiet (put_cxl_keeps _ (by decide) (Keeps.refl _ _)))

/-! ## The landing window and the ways -/

theorem calm_putLw (s : State) (x : Landing) : Calm s { s with lw := x } := .quiet (put_lw_keeps _ (by decide) (Keeps.refl _ s))

theorem calm_dropMem (s : State) (hpa : Nat) (q : HomeReq) : Calm s (dropMem s hpa q) := by
  have hcnt : ∀ v : State, Calm v (cntPreg v .ep 0x158 1) := fun v =>
    .of_ep (cntPreg_keeps _ _ _ (by omega) (by decide) (Keeps.refl _ v)) (by rw [preg_cntPreg _ _ (by omega) (by omega), if_neg (by omega)])
  exact ((Calm.quiet (refuseMem_keeps _ (Keeps.refl _ s))).trans (hcnt _)).trans (calm_raiseErr _ _ _)

theorem calm_hostMem (s : State) (hpa : BitVec 64) (q : HomeReq) : Calm s (hostMem s hpa q) := by
  unfold hostMem
  split_ifs
  · exact Calm.refl s
  · exact calm_dropMem _ _ _
  · split
    · exact (Calm.quiet (refuseMem_keeps _ (Keeps.refl _ s))).trans (calm_raiseErr _ _ _)
    · unfold windowReq
      split
      · split_ifs
        · exact calm_putLw _ _
        · exact calm_hostReq _ _ _ _
      · exact calm_hostReq _ _ _ _

theorem calm_pumpHost (s : State) : Calm s (pumpHost s) := by
  refine calm_foldl (fun t n => ?_) _ s
  dsimp only
  split_ifs
  · exact Calm.refl t
  · exact (calm_setSlice _ _ _).trans (calm_foldl (fun u w => calm_hostMem u _ _) _ _)

theorem calm_ccEvict (s : State) (k : Fin 16) (l : Line) : Calm s (ccEvict s k l) := by
  have hclean : ∀ v : State, Calm v (homeClean v k l) := fun v => .quiet (homeClean_keeps _ _ (by decide) (Keeps.refl _ v))
  unfold ccEvict
  split
  · exact Calm.refl s
  · dsimp only
    split
    · exact (calm_setCcLine _ _ _ _).trans ((calm_setSl _ _ _).trans (calm_homeStore _ _ _ _))
    · exact (calm_setCcLine _ _ _ _).trans (hclean _)
    · exact (calm_setCcLine _ _ _ _).trans (hclean _)
    · exact calm_setCcLine _ _ _ _

theorem calm_sweepWays (s : State) (c : CacheId) : Calm s (sweepWays s c) := by
  refine calm_foldl (fun t way => ?_) _ s
  unfold evictWholeWay
  split
  · refine calm_foldl (fun v e => ?_) _ t
    split_ifs
    · exact calm_ccEvict _ _ _
    · exact calm_startBi _ _ _ _
  · exact calm_foldl (fun v e => calm_evictWay _ _ _ _) _ t

theorem calm_moveCheck (s : State) : Calm s (moveCheck s) := by
  have hend : ∀ (v : State), Calm v (moveEnd v 1) := fun v => .quiet (moveEnd_keeps _ (by decide) (Keeps.refl _ v))
  have hclose : ∀ v : State, Calm v (lwClose v) := fun v => .quiet (lwClose_keeps (by decide) (Keeps.refl _ v))
  have hcommit : ∀ i frame, Calm s (moveCommit s i frame) := fun i frame => by
    unfold moveCommit
    extract_lets held base s1 x s2 s3
    have h1 : Calm s s1 := .quiet (setPreg_keeps _ _ _ (by omega) (by decide) (Keeps.refl _ s))
    have h2 : Calm s s2 := h1.trans ((calm_putLw s1 _).trans (hend _))
    have h3 : Calm s s3 := h2.trans (calm_foldl (fun t (r : BitVec 64 × HomeReq) => calm_hostReq t (windowLine t (r.1.toNat - base)) r.1 r.2) held s2)
    split_ifs
    · exact h3.trans (hclose _)
    · exact h3
  unfold moveCheck
  split
  · split_ifs
    · exact hcommit _ _
    · exact Calm.refl s
  · exact Calm.refl s

theorem calm_uncommitCheck (s : State) : Calm s (uncommitCheck s) := by
  unfold uncommitCheck
  split_ifs
  · refine Calm.trans (t := { s with cxl := { s.cxl with uncommitting := false } }) (.quiet (put_cxl_keeps _ (by decide) (Keeps.refl _ s))) ?_
    refine .of_ep (goDone_keeps _ _ _ (by omega) (by decide) (clrPreg_keeps _ _ _ (by omega) (by decide) (Keeps.refl _ _))) ?_
    rw [preg_goDone _ (by omega) (by omega) (by simp) (by simp), preg_clrPreg _ _ (by omega) (by omega), if_neg (by omega)]
  · exact Calm.refl s

theorem calm_settleWindow (s : State) : Calm s (settleWindow s) := by
  have hask : ∀ (v : State) (n : Fin 16), Calm v (clearAsk (sweepWays v (.slice n)) n) := fun v n =>
    (calm_sweepWays _ _).trans (.quiet (clearAsk_keeps _ (by decide) (Keeps.refl _ _)))
  have hbi : ∀ v : State, Calm v (pumpBi v) := fun v => .quiet (pumpBi_keeps (by decide) (Keeps.refl _ v))
  have hmove : ∀ v : State, Calm v (moveAsk v) := fun v => .quiet (moveAsk_keeps (by decide) (Keeps.refl _ v))
  have hclose : ∀ v : State, Calm v (lwCloseCheck v) := fun v => .quiet (lwCloseCheck_keeps (by decide) (Keeps.refl _ v))
  have h2 := (calm_pumpHost s).trans (calm_foldl hask (List.finRange 16) _)
  exact ((((h2.trans (hbi _)).trans (hmove _)).trans (calm_moveCheck _)).trans (hclose _)).trans (calm_uncommitCheck _)

/-- Whatever goes on once a transaction has ended. -/
theorem calm_settle (s : State) : Calm s (settle s) := by
  have h1 := (calm_settleWindow s).trans (calm_foldl calm_moverPump (List.finRange 16) _)
  have h2 := (h1.trans (calm_foldl calm_mbPump (List.finRange 16) _)).trans (calm_pumpInbound _)
  exact h2.trans (calm_foldl calm_storesSeen _ _)

theorem calm_wbResume (s : State) : Calm s (wbResume s) := by
  have hdrop : ∀ (v : State) (l : Line), Calm v (sliceDrop true v l) := fun v l => by
    unfold sliceDrop
    extract_lets e r t1
    have h1 : Calm v t1 := by
      have hr : Calm v r.1 := calm_dropCopies v l none
      simp only [t1]
      split
      · exact hr.trans (calm_writeBelow _ _ _ _)
      · split_ifs
        · exact hr
        · exact hr.trans (calm_writeBelow _ _ _ _)
      · exact hr
    exact h1.trans (calm_setSl _ _ _)
  have hcancel : ∀ (v : State) (l : Line), Calm v (cancelMiss v l) := fun v l => .quiet (cancelMiss_keeps _ (by decide) (Keeps.refl _ v))
  unfold wbResume
  split_ifs
  · refine Calm.trans (t := dropHostLines s) ?_ (.quiet (wbCheck_keeps (by decide) (Keeps.refl _ _)))
    unfold dropHostLines
    exact (calm_foldl (fun t x => calm_foldl (fun v m => hcancel v _) _ t) _ s).trans (calm_foldl (fun t x => calm_foldl (fun v e => hdrop v _) _ t) _ _)
  · exact Calm.refl s

end

end Sys2Proof
end

section
/-! PROOFS. The release of a freeze (09 R393, R394), and the decoder and the freeze put together. -/

namespace Sys2Proof

open Sys2Proof.Machine

section
variable {s u : State} {v : W32}

/-! ## The end of an UNCOMMIT -/

/-- What the end of an UNCOMMIT leaves. -/
def uncommitted (u : State) : State := goDone (clrPreg { u with cxl := { u.cxl with uncommitting := false } } .ep 0x120 0x100) .ep 0x120 1

theorem uncommitCheck_ends (hw : u.cxl.uncommitting = true) (hb : biTotal u = 0) : uncommitCheck u = uncommitted u := uncommitCheck_done hw hb

theorem Keeps.cxl_uncommitting {P : List Part} {t : State} (h : Keeps P s t) (hc : Part.cxl ∉ P) : t.cxl.uncommitting = s.cxl.uncommitting :=
  have hcxl : { t.cxl with inta := false, msixQ := [] } = { s.cxl with inta := false, msixQ := [] } := h .cxl hc
  (congrArg Cxl.uncommitting hcxl :)

theorem uncommitted_bits (w : State) : Keeps [.page .ep] w (goDone (clrPreg w .ep 0x120 0x100) .ep 0x120 1) ∧
    bit (preg (goDone (clrPreg w .ep 0x120 0x100) .ep 0x120 1) .ep 0x120) 8 = false ∧
    bit (preg (goDone (clrPreg w .ep 0x120 0x100) .ep 0x120 1) .ep 0x120) 1 = false := by
  refine ⟨goDone_keeps _ _ _ (by omega) (by decide) (clrPreg_keeps _ _ _ (by omega) (by decide) (Keeps.refl _ w)), ?_,
    goDone_cleared _ (by omega) (by omega) (by omega) (by omega) (by omega)⟩
  rw [goDone_other _ (by omega) (by omega) (by omega) (by omega) (by omega), preg_clrPreg _ _ (by omega) (by omega), if_pos ⟨rfl, rfl⟩,
    show (0x100 : W32) = one32 8 by decide, bit_andNot_one32 _ (by omega)]

theorem uncommitted_after : Keeps [.page .ep, .cxl] u (uncommitted u) ∧ bit (preg (uncommitted u) .ep 0x120) 8 = false ∧
    bit (preg (uncommitted u) .ep 0x120) 1 = false ∧ (uncommitted u).cxl.uncommitting = false := by
  obtain ⟨hk, hcommitted, hgo⟩ := uncommitted_bits { u with cxl := { u.cxl with uncommitting := false } }
  exact ⟨(put_cxl_keeps _ (by decide) (Keeps.refl _ u)).trans (hk.mono (by decide)), hcommitted, hgo, hk.cxl_uncommitting (by decide)⟩

/-! ## RELEASE -/

/-- A change of what the freeze lists, but not of its state or of what it holds. -/
theorem calm_putFrz (s : State) {z : Frz} (hon : z.on = s.frz.on) (hheld : z.held = s.frz.held) : Calm s { s with frz := z } :=
  ⟨hon, fun _ => hheld, rfl, fun _ h => h⟩

theorem calm_readyLog (s : State) : Calm s (readyLog s) := .quiet (readyLog_keeps (by decide) (Keeps.refl _ s))

/-- What release does for the masters recorded, from where the recorded cores are fenced. -/
theorem releaseMasters_calm (s : State) :
    Calm (fenceCores s ((List.finRange 256).filter fun id => s.frz.cores.getLsbD id.val)) (releaseMasters s) := by
  have herr : ∀ (t : State) (k : W16), Calm t (raiseErr t .fm 2 k.toNat) := fun t k => .quiet (raiseErr_keeps _ _ _ (by decide) (Keeps.refl _ t))
  unfold releaseMasters withReady
  extract_lets ids cls s1
  have h1 : Calm (fenceCores s ids) s1 := (calm_readyLog _).trans (calm_foldl calm_resetMover cls _)
  exact (h1.trans (calm_putFrz s1 (z := { s1.frz with lostResp := [] }) rfl rfl)).trans (calm_foldl herr _ _)

theorem releaseMasters_fenced {id : Fin 256} (h : s.frz.cores.getLsbD id.val = true) : ((releaseMasters s).core id).st = .fenced :=
  (releaseMasters_calm s).cores id (fenceCores_st (List.mem_filter.mpr ⟨List.mem_finRange id, h⟩))

/-- The freeze over, its fence and its held responses taken away. -/
def unheld (s : State) : State :=
  let s1 := releaseMasters { s with frz := { s.frz with on := false } }
  clrPreg { s1 with frz := { s1.frz with held := [] } } .ep 8 2

/-- What goes on after it. -/
def thawed (s : State) : State :=
  let held := (releaseMasters { s with frz := { s.frz with on := false } }).frz.held
  settle ((List.finRange 256).foldl resumeAccesses (wbResume (biResume (flushMsix (drainWrites (held.foldl sendWrite (unheld s)))))))

theorem endFreeze_eq (s : State) : endFreeze s = raiseInt (thawed s) .ep 18 := by
  unfold endFreeze thawed unheld
  rfl

theorem calm_thawed (s : State) : Calm (unheld s) (thawed s) := by
  have hresume : ∀ (t : State) (id : Fin 256), Calm t (resumeAccesses t id) := fun t id =>
    .quiet (resumeAccesses_keeps _ (by decide) (Keeps.refl _ t))
  have hflush : ∀ t : State, Calm t (flushMsix t) := fun t => .quiet (flushMsix_keeps (by decide) (Keeps.refl _ t))
  have h1 := ((calm_foldl calm_sendWrite (releaseMasters { s with frz := { s.frz with on := false } }).frz.held (unheld s)).trans
    (calm_drainWrites _)).trans (hflush _)
  exact (((h1.trans (calm_biResume _)).trans (calm_wbResume _)).trans (calm_foldl hresume (List.finRange 256) _)).trans (calm_settle _)

theorem unheld_frz (s : State) : (unheld s).frz.on = false ∧ (unheld s).frz.held = [] := by
  set t : State := { s with frz := { s.frz with on := false } } with ht
  have hon : (releaseMasters t).frz.on = false := ((calm_fenceCores t _).trans (releaseMasters_calm t)).on
  unfold unheld
  rw [← ht]
  generalize releaseMasters t = w at hon
  exact ⟨hon, rfl⟩

theorem unheld_fence (s : State) : fenced (unheld s) .ep = false := by
  unfold unheld fenced
  extract_lets s1
  rw [preg_clrPreg _ _ (by omega) (by omega), if_pos ⟨rfl, rfl⟩, show (2 : W32) = one32 1 by decide, bit_andNot_one32 _ (by omega)]

theorem unheld_cores {id : Fin 256} (h : s.frz.cores.getLsbD id.val = true) : ((unheld s).core id).st = .fenced := by
  set t : State := { s with frz := { s.frz with on := false } } with ht
  have hst : ((releaseMasters t).core id).st = .fenced := releaseMasters_fenced h
  unfold unheld
  rw [← ht]
  generalize releaseMasters t = w at hst
  exact hst

/-- A freeze that ended: it is off, it holds nothing, EP is not fenced, and the recorded cores are. -/
structure Released (s t : State) : Prop where
  on : t.frz.on = false
  held : t.frz.held = []
  fence : fenced t .ep = false
  cores : ∀ id : Fin 256, s.frz.cores.getLsbD id.val = true → (t.core id).st = .fenced

theorem thawed_released (s : State) : Released s (thawed s) := by
  have hcalm := calm_thawed s
  obtain ⟨hon, hheld⟩ := unheld_frz s
  refine ⟨hcalm.on.trans hon, (hcalm.held hon).trans hheld, ?_, fun id hid => hcalm.cores id (unheld_cores hid)⟩
  have hfence : bit (preg (unheld s) .ep 8) 1 = false := unheld_fence s
  unfold fenced
  rw [hcalm.fence, hfence]

theorem Released.after {t w : State} (h : Released s t) (k : Calm t w) : Released s w := by
  have hfence : bit (preg t .ep 8) 1 = false := h.fence
  refine ⟨k.on.trans h.on, (k.held h.on).trans h.held, ?_, fun id hid => k.cores id (h.cores id hid)⟩
  unfold fenced
  rw [k.fence, hfence]

/-- The end of a freeze raises its interrupt after everything else. -/
theorem endFreeze_released (s : State) : Released s (endFreeze s) ∧ bit (preg (endFreeze s) .ep 0x30) 18 = true := by
  have hint : ∀ t : State, Calm t (raiseInt t .ep 18) := fun t =>
    .of_ep (raiseInt_keeps _ _ (by decide) (Keeps.refl _ t)) (preg_raiseInt _ _ (by omega) (by simp) (by simp))
  have hrel := thawed_released s
  rw [endFreeze_eq]
  generalize thawed s = t at hrel
  exact ⟨hrel.after (hint t), by rw [raiseInt_stat, bit_or_one32 _ (by omega)]⟩

theorem releaseFreeze_ends (hon : u.frz.on = true) (hl : linkL0 u = true) (hs : u.fc.safe = false) : releaseFreeze u = endFreeze u := by
  unfold releaseFreeze
  rw [if_neg (by simp [hon]), if_pos (by simp [hl, hs])]

theorem calm_goDoneFrz (s : State) (b : Nat) : Calm s (goDone s .ep 0x124 b) :=
  .of_ep (goDone_keeps _ _ _ (by omega) (by decide) (Keeps.refl _ s)) (preg_goDone _ (by omega) (by omega) (by simp) (by simp))

theorem linkL0_of_keeps {P : List Part} {t : State} (h : Keeps P s t) (hc : Part.cxl ∉ P) : linkL0 t = linkL0 s := by
  unfold linkL0
  rw [h.cxl_link hc]

end

/-- Settles O41: COMMIT and UNCOMMIT by the bits of EP_HDM_CTRL, FREEZE by what it finds, RELEASE by what everything that goes on after it leaves. -/
theorem freezeAndDecoder : Obligations.FreezeAndDecoder := by
  unfold Obligations.FreezeAndDecoder
  refine ⟨?_, ?_, ?_, ?_, ?_, ?_, ?_, ?_⟩
  · intro s v hstart h1 hc hbi hmem
    have hw := hdmWrite_keeps hstart.1 v
    have hok : (bit (preg (pageWrite s .ep 0x120 v).st .ep 0x120) 2 && (pageWrite s .ep 0x120 v).st.cxl.memEn) = true := by
      rw [hdmCtrl_biEn hstart.1 hc, hw.cxl_memEn (by decide), hbi, hmem]
      rfl
    have hexec := (hdmCtrlWrite_commit hstart h1).trans (by rw [commitHdm_taken hok])
    generalize (pageWrite s .ep 0x120 v).st = w at hw hexec
    have hword := committed_word w
    have hk : Keeps [.page .ep] w (clrPreg (orPreg w .ep 0x120 0x100) .ep 0x120 0x200) :=
      clrPreg_keeps _ _ _ (by omega) (by decide) (orPreg_keeps _ _ _ (by omega) (by decide) (Keeps.refl _ w))
    generalize clrPreg (orPreg w .ep 0x120 0x100) .ep 0x120 0x200 = c at hexec hword hk
    refine ⟨_, congrArg Host.Outcome.next hexec, goDone_keeps _ _ _ (by omega) (by decide) ((hw.trans hk).mono (by decide)), ?_, ?_, ?_⟩
    · rw [goDone_other _ (by omega) (by omega) (by omega) (by omega) (by omega), hword, bit_clear_other _ (by omega), bit_or_one32 _ (by omega)]
    · rw [goDone_other _ (by omega) (by omega) (by omega) (by omega) (by omega), hword, bit_andNot_one32 _ (by omega)]
    · exact goDone_cleared _ (by omega) (by omega) (by omega) (by omega) (by omega)
  · intro s v hstart h1 hc hno
    have hw := hdmWrite_keeps hstart.1 v
    have hfail : (bit (preg (pageWrite s .ep 0x120 v).st .ep 0x120) 2 && (pageWrite s .ep 0x120 v).st.cxl.memEn) = false := by
      rw [hdmCtrl_biEn hstart.1 hc, hw.cxl_memEn (by decide)]
      rcases hno with h | h <;> simp [h]
    have hexec := (hdmCtrlWrite_commit hstart h1).trans (by rw [commitHdm_refused hfail])
    have hold := (hdmCtrl_committed hstart.1 v).trans hc
    generalize (pageWrite s .ep 0x120 v).st = w at hw hexec hold
    have hword := refused_word w
    have herr : bit (preg (raiseErr (orPreg w .ep 0x120 0x200) .ep 11) .ep 0x10) 11 = true := raiseErr_bit _ _ _ (by omega)
    have hk : Keeps [.page .ep] w (raiseErr (orPreg w .ep 0x120 0x200) .ep 11) :=
      raiseErr_keeps _ _ _ (by decide) (orPreg_keeps _ _ _ (by omega) (by decide) (Keeps.refl _ w))
    generalize raiseErr (orPreg w .ep 0x120 0x200) .ep 11 = c at hexec hword herr hk
    refine ⟨_, congrArg Host.Outcome.next hexec, goDone_keeps _ _ _ (by omega) (by decide) ((hw.trans hk).mono (by decide)), ?_, ?_, ?_⟩
    · have hnine : bit (one32 9) 8 = false := by simp [one32_bit]
      rw [goDone_other _ (by omega) (by omega) (by omega) (by omega) (by omega), hword, bit_or, hold, hnine]
      rfl
    · rw [goDone_other _ (by omega) (by omega) (by omega) (by omega) (by omega), hword, bit_or_one32 _ (by omega)]
    · rw [preg_goDone _ (by omega) (by omega) (by simp) (by simp), herr]
  · intro s v hstart h0 hbi
    have hw := hdmWrite_keeps hstart.1 v
    have hbiw : biTotal { (pageWrite s .ep 0x120 v).st with cxl := { (pageWrite s .ep 0x120 v).st.cxl with uncommitting := true } } = 0 := by
      unfold biTotal
      rw [show (pageWrite s .ep 0x120 v).st.slices = s.slices from hw .slices (by decide)]
      exact hbi
    have hexec := (hdmCtrlWrite_uncommit hstart h0).trans (uncommitCheck_ends rfl hbiw)
    generalize (pageWrite s .ep 0x120 v).st = w at hw hexec
    obtain ⟨hk, hcommitted, hgo, hdone⟩ := uncommitted_after (u := { w with cxl := { w.cxl with uncommitting := true } })
    exact ⟨_, congrArg Host.Outcome.next hexec, (put_cxl_keeps _ (by decide) (hw.mono (by decide))).trans (hk.mono (by decide)), hcommitted, hgo, hdone⟩
  · intro s v hstart h0 hbi
    have hw := hdmWrite_keeps hstart.1 v
    have hbiw : biTotal { (pageWrite s .ep 0x120 v).st with cxl := { (pageWrite s .ep 0x120 v).st.cxl with uncommitting := true } } ≠ 0 := by
      unfold biTotal
      rw [show (pageWrite s .ep 0x120 v).st.slices = s.slices from hw .slices (by decide)]
      exact hbi
    have hexec := (hdmCtrlWrite_uncommit hstart h0).trans (uncommitCheck_waits hbiw)
    have hold := hdmCtrl_committed hstart.1 v
    have hgo : bit (preg (pageWrite s .ep 0x120 v).st .ep 0x120) 1 = true := by
      rw [bit_pageWrite_go hdmCtrl_plain hstart.1 rfl (by omega), hstart.2.2]
      rfl
    generalize (pageWrite s .ep 0x120 v).st = w at hw hexec hold hgo
    exact ⟨_, congrArg Host.Outcome.next hexec, put_cxl_keeps _ (by decide) (hw.mono (by decide)), hold, hgo, rfl⟩
  · intro s v hstart h1 hoff
    have hw := frzWrite_keeps hstart.1 v
    have hexec := frzCtrlWrite_freeze hstart h1 none
    have hoffw : (pageWrite s .ep 0x124 v).st.frz.on = false := by
      rw [show (pageWrite s .ep 0x124 v).st.frz = s.frz from hw .frz (by decide)]
      exact hoff
    have hd2h := hw.cxl_d2h (by decide)
    generalize (pageWrite s .ep 0x124 v).st = w at hw hexec hoffw hd2h
    obtain ⟨hfrozen, hheld, hint⟩ := enterFreeze_begins hoffw 1
    have hk : Keeps [.page .ep, .cores, .slices, .lw, .cxl, .frz] w (enterFreeze w 1) := enterFreeze_keeps _ (by decide) (Keeps.refl _ w)
    generalize enterFreeze w 1 = c at hexec hfrozen hheld hint hk
    have hkd : Keeps [.page .ep] c (goDone c .ep 0x124 0) := goDone_keeps _ _ _ (by omega) (by decide) (Keeps.refl _ c)
    have hfrz := hfrozen.keeps hkd (by decide) (by decide)
    refine ⟨_, congrArg Host.Outcome.next hexec, ((hw.mono (by decide)).trans (hk.mono (by decide))).trans (hkd.mono (by decide)), hfrz.on, hfrz.cause, hfrz.wq,
      ?_, ?_, ?_, ?_⟩
    · rw [show (goDone c .ep 0x124 0).lw = c.lw from hkd .lw (by decide)]
      exact hheld
    · exact goDone_cleared _ (by omega) (by omega) (by omega) (by omega) (by omega)
    · exact goDone_keepsInt _ (by omega) (by omega) hint
    · rw [hfrz.d2h, hd2h]
  · intro s v hstart h0 hon hl hs
    have hw := frzWrite_keeps hstart.1 v
    have hfrz : (pageWrite s .ep 0x124 v).st.frz = s.frz := hw .frz (by decide)
    have hexec := (frzCtrlWrite_release hstart h0).trans (congrArg (goDone · .ep 0x124 1) (releaseFreeze_ends (by rw [hfrz]; exact hon)
      ((linkL0_of_keeps hw (by decide)).trans hl) ((hw.safe (by decide)).trans hs)))
    obtain ⟨hrel, hint⟩ := endFreeze_released (pageWrite s .ep 0x124 v).st
    have hrel := hrel.after (calm_goDoneFrz _ 1)
    have hexec' : execRelease v none s = .next _ := congrArg Host.Outcome.next hexec
    refine ⟨_, hexec', nextKeeps_eq (execRelease_keeps _ _ (by decide) (Keeps.refl _ s)) hexec', hrel.on, hrel.held, hrel.fence, ?_, ?_, fun id => ?_⟩
    · exact goDone_keepsInt _ (by omega) (by omega) hint
    · exact goDone_cleared _ (by omega) (by omega) (by omega) (by omega) (by omega)
    · rw [← hfrz]
      by_cases hid : (pageWrite s .ep 0x124 v).st.frz.cores.getLsbD id.val = true
      · exact .inr (hrel.cores id hid)
      · exact .inl (by simpa using hid)
  · intro s v hstart h0 hon hno
    have hw := frzWrite_keeps hstart.1 v
    have hfrz : (pageWrite s .ep 0x124 v).st.frz = s.frz := hw .frz (by decide)
    have hnow : linkL0 (pageWrite s .ep 0x124 v).st = false ∨ (pageWrite s .ep 0x124 v).st.fc.safe = true := by
      rw [linkL0_of_keeps hw (by decide), hw.safe (by decide)]
      exact hno
    have hexec := (frzCtrlWrite_release hstart h0).trans (congrArg (goDone · .ep 0x124 1) (releaseFreeze_refused (by rw [hfrz]; exact hon) hnow))
    have hk : Keeps [.page .ep] s (goDone (raiseErr (pageWrite s .ep 0x124 v).st .ep 9) .ep 0x124 1) :=
      goDone_keeps _ _ _ (by omega) (by decide) (raiseErr_keeps _ _ _ (by decide) hw)
    have hsame : (goDone (raiseErr (pageWrite s .ep 0x124 v).st .ep 9) .ep 0x124 1).frz = s.frz := hk .frz (by decide)
    exact ⟨_, congrArg Host.Outcome.next hexec, hk.mono (by decide), hsame ▸ hon, congrArg Frz.held hsame, refused_rel _ _⟩
  · intro s v c hstart h0 hon
    have hw := frzWrite_keeps hstart.1 v
    have hfrz : (pageWrite s .ep 0x124 v).st.frz = s.frz := hw .frz (by decide)
    have hexec := (frzCtrlWrite_rival hstart h0 c).trans (congrArg (goDone · .ep 0x124 1) (rivalFreeze_on (by rw [hfrz]; exact hon) c))
    generalize (pageWrite s .ep 0x124 v).st = w at hw hexec hfrz
    have hk : Keeps [.page .ep] { w with frz := { w.frz with cause := c } } (goDone (raiseErr { w with frz := { w.frz with cause := c } } .ep 9) .ep 0x124 1) :=
      goDone_keeps _ _ _ (by omega) (by decide) (raiseErr_keeps _ _ _ (by decide) (Keeps.refl _ _))
    have hsame : (goDone (raiseErr { w with frz := { w.frz with cause := c } } .ep 9) .ep 0x124 1).frz = { s.frz with cause := c } := by
      rw [← hfrz]
      exact hk .frz (by decide)
    refine ⟨_, congrArg Host.Outcome.next hexec, (put_frz_keeps _ (by decide) (hw.mono (by decide))).trans (hk.mono (by decide)), ?_, ?_, ?_, refused_rel _ _⟩
    · rw [hsame]
      exact hon
    · rw [hsame]
    · rw [hsame]

end Sys2Proof
end
